-- ==== Sys2Proof/Word.lean ====
section
/-! DEFINITION. The words of the machine (R1 to R5): bytes, 32-bit lanes, 64-bit registers and masks, one
value code wide enough for every type, and one vector register of 64 lanes. -/

namespace Sys2Proof

abbrev Byte := BitVec 8
abbrev Word32 := BitVec 32
abbrev Word64 := BitVec 64

/-- A set of lanes, bit i for lane i (R178). -/
abbrev Mask := BitVec 64

/-- The code of one value of any type of R6, in the low bits (R43). -/
abbrev Code := BitVec 128

/-- One vector register: 64 lanes of 32 bits (R178). -/
abbrev VReg := Vector Word32 64

end Sys2Proof
end

