-- ==== Sys2Proof/Config.lean ====
section
/-! DEFINITION. The free values: constants without a value, so that nothing can be proved of what they are (log entry 9,
DESIGN CHOICE). -/

namespace Sys2Proof

/-- The byte at an offset of `DBGREGS` that shows a register not live at the stop site, at a time (R103, R425). -/
opaque Config.dumpByte : Word64 → Nat → Byte

/-- Does a byte of a tile row that lands stay over one that another byte of the tile wrote: at a count of uses, for the
k-th byte of the row (R382)? -/
opaque Config.tileByte : Nat → Nat → Bool

/-- A byte that an attached collective reads where it cannot reach the page, at a count of uses (R128). -/
opaque Config.collByte : Nat → Word64 → Byte

/-- What `X57` names for the `POISON` of a byte of scale memory, which has no address (R403, R420). -/
opaque Config.scaleUnit : Nat → Word64

/-- `HRET` of a handler set in which nothing has stood yet, at a count of uses (R410). -/
opaque Config.hret : Nat → Word64

/-- Which entry a full TLB drops, at a count of uses (R415): of its entries, oldest first (log entry 55, DESIGN CHOICE). -/
opaque Config.tlbVictim : Nat → Nat

/-- Does an access to a page that fails both permission and `ORD` take `BADORD`, by its address (R414; log entry 31, DESIGN
CHOICE)? -/
opaque Config.ordFirst : Word64 → Bool

/-- The supervisor entry address that the firmware sets on a core at boot (R444). -/
opaque Config.svec : Nat → Word64

/-- `WCNT` of a lane that holds no set of a gathering call: by the pass's `SRCTR`, the group and the lane (R188, R243). -/
opaque Config.wcntIdle : Word64 → Nat → Nat → BitVec 32

/-- The two root public keys of the boot ROM: 32 bytes of Ed25519, 1,952 of ML-DSA-65 (R444). -/
opaque Config.edRoot : BitVec 256

opaque Config.mlRoot : Vector Byte 1952

/-- The 32 random bytes of an ML-DSA-65 signature, at a count of uses (R448; log entry 65, PRESUMED). -/
opaque Config.mlRandom : Nat → BitVec 256

/-- The identity certificate that binds an Ed25519 public key, an ML-DSA-65 public key and a serial number, with the
signatures of both root keys (R448). -/
opaque Config.certificate : BitVec 256 → List Byte → BitVec 128 → List Byte

/-- The bytes of the log entry for a release on behalf of a master whose link is gone, which no table lists: its kind, `AUX`
and `DATA` (R437, R441). -/
opaque Config.linkEntry : Nat → Byte

/-- The contents of the boot ROM (R444, R448). -/
opaque Config.rom : List Byte

end Sys2Proof
end

