-- ==== Sys2Proof/Syntax.lean ====
section
/-! DEFINITION. The syntax: one constructor of `Instr` for each row of the opcode table. The first 165 are the
instructions of a group (R160 to R171); the others are the device events of the table, each one indivisible
step of an agent other than a group's issue. -/

namespace Sys2Proof

/-- The common header below `OPC`, `SUB` and `TY` (R160). -/
structure Hdr where
  pm : BitVec 3
  pn : Bool
  sw : Bool
  uni : Bool
  tr : Bool
  st : Bool
  deriving DecidableEq, Repr

/-- A register operand (R164). -/
inductive Opd where
  | v (n : BitVec 6)
  | x (n : BitVec 6)
  | m (n : BitVec 3)
  | c (n : BitVec 2)
  | q (n : BitVec 3)
  | s (n : BitVec 4)
  | t (n : BitVec 2)
  deriving DecidableEq, Repr

/-- The integer type table (R167). -/
inductive ITy where
  | i8 | i16 | i32 | i64 | n8 | n16 | n32 | n64 | b8 | b16 | b32 | b64 | b128
  deriving DecidableEq, Repr

/-- The float type table (R167). -/
inductive FTy where
  | f16 | bf16 | f32 | f64 | e4m3 | e5m2 | e2m1 | e8m0 | dxb8 | dxb4 | mi8 | mn8
  deriving DecidableEq, Repr

/-- Rounding modes (R50). -/
inductive Rm where
  | rne | rz | ru | rd | sr
  deriving DecidableEq, Repr

/-- `SUB` of `ICMP`: the condition form and the six mask relations (R205). -/
inductive ICmp where
  | flags | eq | ne | lt | le | gt | ge
  deriving DecidableEq, Repr

/-- `SUB` of `FCMP` (R211). -/
inductive FCmp where
  | flags | eq | ne | lt | le | gt | ge | un
  deriving DecidableEq, Repr

/-- `AMOD` of `SHFL` (R214). -/
inductive ShflMode where
  | idx | up | down | xor
  deriving DecidableEq, Repr

/-- `AMOD` of `QXCH` (R214). -/
inductive QxchMode where
  | h | v | d
  deriving DecidableEq, Repr

/-- The operators of `GRED`, `GSCAN`, `ATOM` and `REDM` (R216, R269); `exch` is `SUB` 0 of `ATOM`. -/
inductive RedOp where
  | exch | add | min | max | and | or | xor | fadd | fmin | fmax
  deriving DecidableEq, Repr

/-- `SUB` of `KACC` (R356). -/
inductive KOp where
  | add | fadd | min | max | or
  deriving DecidableEq, Repr

/-- The flags of a condition register (R181). -/
inductive CFlag where
  | z | n | c | o
  deriving DecidableEq, Repr

/-- The test of a control instruction (R166, R224). -/
inductive Test where
  | always
  | flag (ci : BitVec 2) (f : CFlag) (neg : Bool)
  | maskZero (mi : BitVec 3)
  | maskNonzero (mi : BitVec 3)
  deriving DecidableEq, Repr

/-- The target of a control transfer: displacement and slot, or a uniform register (R157). -/
inductive Target where
  | direct (disp : BitVec 20) (slot : BitVec 3)
  | indirect (treg : BitVec 6)
  deriving DecidableEq, Repr

/-- Scopes of the memory instructions (R166, R293). -/
inductive Scope where
  | group | team | core | die | device | system
  deriving DecidableEq, Repr

/-- Orders of the memory instructions (R166). -/
inductive MemOrd where
  | plain | acq | rel | ar
  deriving DecidableEq, Repr

/-- Invalidation scope of `TLBINV` (R407). -/
inductive TlbScope where
  | addr | part | all
  deriving DecidableEq, Repr

/-- A memory operand: base register and signed byte offset (R166). -/
structure MemOpd where
  base : Opd
  off : BitVec 24
  deriving DecidableEq, Repr

/-- The operands an `MMA` has only with `.ID` (R328). -/
structure MmaIds where
  pos : Opd
  scales : Opd
  tida : BitVec 6
  tidb : BitVec 6
  deriving DecidableEq, Repr

/-- Who makes a register write, a request or a mailbox command (R33, R438). -/
inductive Requester where
  | master (id : BitVec 8)
  | vf (p : BitVec 3)
  deriving DecidableEq, Repr

/-- A memory request of a host or peer master (R298, R272). -/
inductive HostOp where
  | read
  | write (bytes : List Byte)
  | swap (size : Nat) (v : Code)
  | fetchAdd (size : Nat) (v : Code)
  | cas (size : Nat) (expected new : Code)
  deriving DecidableEq, Repr

/-- One constructor per row of the opcode table. -/
inductive Instr where
  -- integer and bit (R201 to R208)
  | iadd (h : Hdr) (sat : Bool) (ty : ITy) (d a b : Opd)
  | iaddImm (h : Hdr) (sat : Bool) (ty : ITy) (d a : Opd) (imm : BitVec 38)
  | isub (h : Hdr) (sat : Bool) (ty : ITy) (d a b : Opd)
  | isubImm (h : Hdr) (sat : Bool) (ty : ITy) (d a : Opd) (imm : BitVec 38)
  | imul (h : Hdr) (sat : Bool) (ty : ITy) (d a b : Opd)
  | imulImm (h : Hdr) (sat : Bool) (ty : ITy) (d a : Opd) (imm : BitVec 38)
  | imulh (h : Hdr) (ty : ITy) (d a b : Opd)
  | imad (h : Hdr) (sat : Bool) (ty : ITy) (d a b c : Opd)
  | imin (h : Hdr) (ty : ITy) (d a b : Opd)
  | iminImm (h : Hdr) (ty : ITy) (d a : Opd) (imm : BitVec 38)
  | imax (h : Hdr) (ty : ITy) (d a b : Opd)
  | imaxImm (h : Hdr) (ty : ITy) (d a : Opd) (imm : BitVec 38)
  | iabs (h : Hdr) (sat : Bool) (ty : ITy) (d a : Opd)
  | ineg (h : Hdr) (sat : Bool) (ty : ITy) (d a : Opd)
  | iaddc (h : Hdr) (ty : ITy) (d a b c : Opd)
  | icmp (h : Hdr) (rel : ICmp) (ty : ITy) (d a b : Opd)
  | icmpImm (h : Hdr) (rel : ICmp) (ty : ITy) (d a : Opd) (imm : BitVec 38)
  | sel (h : Hdr) (ty : ITy) (d a b c : Opd)
  | lea (h : Hdr) (ty : ITy) (sh : BitVec 4) (d a b : Opd)
  | leaImm (h : Hdr) (ty : ITy) (d a : Opd) (imm : BitVec 38)
  | clz (h : Hdr) (ty : ITy) (d a : Opd)
  | popc (h : Hdr) (ty : ITy) (d a : Opd)
  | and (h : Hdr) (ty : ITy) (d a b : Opd)
  | andImm (h : Hdr) (ty : ITy) (d a : Opd) (imm : BitVec 38)
  | or (h : Hdr) (ty : ITy) (d a b : Opd)
  | orImm (h : Hdr) (ty : ITy) (d a : Opd) (imm : BitVec 38)
  | xor (h : Hdr) (ty : ITy) (d a b : Opd)
  | xorImm (h : Hdr) (ty : ITy) (d a : Opd) (imm : BitVec 38)
  | andn (h : Hdr) (ty : ITy) (d a b : Opd)
  | andnImm (h : Hdr) (ty : ITy) (d a : Opd) (imm : BitVec 38)
  | not (h : Hdr) (ty : ITy) (d a : Opd)
  | shl (h : Hdr) (ty : ITy) (d a b : Opd)
  | shlImm (h : Hdr) (ty : ITy) (d a : Opd) (imm : BitVec 38)
  | shr (h : Hdr) (ty : ITy) (d a b : Opd)
  | shrImm (h : Hdr) (ty : ITy) (d a : Opd) (imm : BitVec 38)
  | sar (h : Hdr) (ty : ITy) (d a b : Opd)
  | sarImm (h : Hdr) (ty : ITy) (d a : Opd) (imm : BitVec 38)
  | rotl (h : Hdr) (ty : ITy) (d a b : Opd)
  | rotlImm (h : Hdr) (ty : ITy) (d a : Opd) (imm : BitVec 38)
  | brev (h : Hdr) (ty : ITy) (d a : Opd)
  | bfx (h : Hdr) (ty : ITy) (d a b : Opd)
  | bfxImm (h : Hdr) (ty : ITy) (d a : Opd) (imm : BitVec 38)
  | bfi (h : Hdr) (ty : ITy) (d a b c : Opd)
  | mov (h : Hdr) (ty : ITy) (d a : Opd)
  | movi (h : Hdr) (ty : ITy) (d : Opd) (imm : BitVec 38)
  | bcast (h : Hdr) (ty : ITy) (d a : Opd)
  | laneget (h : Hdr) (ty : ITy) (d a b : Opd)
  -- float (R209 to R213)
  | fadd (h : Hdr) (ty : FTy) (rm : Rm) (ftz : Bool) (d a b : Opd)
  | faddImm (h : Hdr) (ty : FTy) (rm : Rm) (ftz : Bool) (d a : Opd) (imm : BitVec 38)
  | fsub (h : Hdr) (ty : FTy) (rm : Rm) (ftz : Bool) (d a b : Opd)
  | fsubImm (h : Hdr) (ty : FTy) (rm : Rm) (ftz : Bool) (d a : Opd) (imm : BitVec 38)
  | fmul (h : Hdr) (ty : FTy) (rm : Rm) (ftz : Bool) (d a b : Opd)
  | fmulImm (h : Hdr) (ty : FTy) (rm : Rm) (ftz : Bool) (d a : Opd) (imm : BitVec 38)
  | ffma (h : Hdr) (ty : FTy) (rm : Rm) (ftz : Bool) (d a b c : Opd)
  | fmin (h : Hdr) (ty : FTy) (ftz : Bool) (d a b : Opd)
  | fminImm (h : Hdr) (ty : FTy) (ftz : Bool) (d a : Opd) (imm : BitVec 38)
  | fmax (h : Hdr) (ty : FTy) (ftz : Bool) (d a b : Opd)
  | fmaxImm (h : Hdr) (ty : FTy) (ftz : Bool) (d a : Opd) (imm : BitVec 38)
  | fcmp (h : Hdr) (rel : FCmp) (ty : FTy) (ftz : Bool) (d a b : Opd)
  | fcmpImm (h : Hdr) (rel : FCmp) (ty : FTy) (ftz : Bool) (d a : Opd) (imm : BitVec 38)
  | frcp (h : Hdr) (ty : FTy) (rm : Rm) (ftz : Bool) (d a : Opd)
  | frsq (h : Hdr) (ty : FTy) (rm : Rm) (ftz : Bool) (d a : Opd)
  | fsqrt (h : Hdr) (ty : FTy) (rm : Rm) (ftz : Bool) (d a : Opd)
  | fdiv (h : Hdr) (ty : FTy) (rm : Rm) (ftz : Bool) (d a b : Opd)
  | fexp2 (h : Hdr) (ty : FTy) (rm : Rm) (ftz : Bool) (d a : Opd)
  | flog2 (h : Hdr) (ty : FTy) (rm : Rm) (ftz : Bool) (d a : Opd)
  | frnd (h : Hdr) (ty : FTy) (rm : Rm) (ftz : Bool) (d a : Opd)
  | fcvt (h : Hdr) (src ty : FTy) (rm : Rm) (ftz sat : Bool) (d a : Opd)
  | icvt (h : Hdr) (toInt : Bool) (ity : ITy) (ty : FTy) (rm : Rm) (d a : Opd)
  | fclass (h : Hdr) (ty : FTy) (d a : Opd)
  -- group and quad (R214 to R217)
  | shfl (h : Hdr) (ty : ITy) (mode : ShflMode) (d a b : Opd)
  | qxch (h : Hdr) (ty : ITy) (mode : QxchMode) (d a : Opd)
  | ballot (h : Hdr) (ty : ITy) (d a : Opd)
  | vote (h : Hdr) (ty : ITy) (any : Bool) (d a : Opd)
  | gred (h : Hdr) (op : RedOp) (ty : ITy) (d a : Opd)
  | gscan (h : Hdr) (op : RedOp) (ty : ITy) (exc : Bool) (d a : Opd)
  | mfirst (h : Hdr) (d a : Opd)
  | mpopc (h : Hdr) (d a : Opd)
  -- masks (R218)
  | mand (h : Hdr) (d a b : Opd)
  | mor (h : Hdr) (d a b : Opd)
  | mxor (h : Hdr) (d a b : Opd)
  | mnot (h : Hdr) (d a : Opd)
  | mmov (h : Hdr) (d a : Opd)
  | mtox (h : Hdr) (d a : Opd)
  -- special registers and register blocks (R219 to R222)
  | mfs (h : Hdr) (d : Opd) (num : BitVec 12)
  | mts (h : Hdr) (num : BitVec 12) (a : Opd)
  | xgrow (h : Hdr) (lo hi : Bool)
  | xdrop (h : Hdr) (lo hi : Bool)
  | qcfg (h : Hdr) (qi : BitVec 3) (depth : BitVec 4) (base : BitVec 6)
  -- control (R223 to R230) and width calls (R232 to R245)
  | bra (h : Hdr) (disp : BitVec 20) (slot : BitVec 3) (test : Test)
  | jmp (h : Hdr) (treg : BitVec 6) (test : Test)
  | call (h : Hdr) (tgt : Target) (link : Opd)
  | ret (h : Hdr) (link : Opd)
  | wcall (h : Hdr) (team : Bool) (tgt : Target) (sel : Option (BitVec 3)) (base : Opd)
  | gcall (h : Hdr) (team : Bool) (tgt : Target) (sel : Option (BitVec 3)) (base : Opd)
  | wret (h : Hdr) (sel : Option (BitVec 3)) (base : Opd)
  | spawn (h : Hdr) (disp : BitVec 20) (slot : BitVec 3) (base : Opd)
  | spwait (h : Hdr) (a : Opd)
  | exit (h : Hdr)
  | nop (h : Hdr)
  | mark (h : Hdr) (code : BitVec 32)
  | bkpt (h : Hdr) (code : BitVec 32)
  | trap (h : Hdr) (code : BitVec 32)
  -- memory (R256 to R290)
  | ld (h : Hdr) (ty : ITy) (scope : Scope) (ord : MemOrd) (d : Opd) (a : MemOpd)
  | st (h : Hdr) (ty : ITy) (scope : Scope) (ord : MemOrd) (d : Opd) (a : MemOpd)
  | lfull (h : Hdr) (scope : Scope) (ord : MemOrd) (a : MemOpd)
  | lempty (h : Hdr) (scope : Scope) (ord : MemOrd) (a : MemOpd)
  | ltest (h : Hdr) (scope : Scope) (ord : MemOrd) (d : Opd) (a : MemOpd)
  | atom (h : Hdr) (op : RedOp) (ty : ITy) (scope : Scope) (ord : MemOrd) (d : Opd) (a : MemOpd) (b : Opd)
  | cas (h : Hdr) (ty : ITy) (scope : Scope) (ord : MemOrd) (facq : Bool) (d : Opd) (a : MemOpd) (b : Opd)
  | redm (h : Hdr) (op : RedOp) (ty : ITy) (scope : Scope) (ord : MemOrd) (d : Opd) (a : MemOpd)
  | fence (h : Hdr) (scope : Scope) (ord : MemOrd)
  | fenceFlag (h : Hdr) (scope : Scope) (ord : MemOrd) (d : Opd) (a : MemOpd)
  | barinit (h : Hdr) (d : Opd) (a : MemOpd)
  | arrive (h : Hdr) (scope : Scope) (ord : MemOrd) (d : Opd) (a : MemOpd) (b : Opd)
  | waitb (h : Hdr) (scope : Scope) (ord : MemOrd) (d : Opd) (a : MemOpd)
  | cmdw (h : Hdr) (d : Opd) (a : MemOpd) (b : Opd)
  | notify (h : Hdr) (scope : Scope) (d : Opd) (a : MemOpd)
  | bclose (h : Hdr) (d : Opd)
  | bwait (h : Hdr) (d : Opd)
  | pref (h : Hdr) (a : MemOpd)
  | prefTlb (h : Hdr) (a : MemOpd)
  -- system (R407 to R415)
  | eret (h : Hdr)
  | eretSkip (h : Hdr)
  | eretFwd (h : Hdr)
  | mfsr (h : Hdr) (r : Opd) (num : BitVec 16)
  | mtsr (h : Hdr) (r : Opd) (num : BitVec 16)
  | tlbinv (h : Hdr) (scope : TlbScope) (r : Opd)
  | waitev (h : Hdr) (r : Opd) (evmask : BitVec 16)
  -- matrix and tensor (R327 to R345)
  | gang (h : Hdr) (a : Opd)
  | mma (h : Hdr) (ty : FTy) (kc : BitVec 3) (za : Bool) (rm : Rm) (d a b : Opd) (ids : Option MmaIds)
  | bdot (h : Hdr) (ty : FTy) (rm : Rm) (d a b c e : Opd) (tida tidb : BitVec 6)
  | accz (h : Hdr) (ty : FTy) (a : Opd)
  | accrd (h : Hdr) (ty : FTy) (d a : Opd)
  | accrdSt (h : Hdr) (ty : FTy) (rm : Rm) (d a c : Opd) (tid : BitVec 6)
  | accwr (h : Hdr) (ty : FTy) (a b : Opd)
  | tidset (h : Hdr) (a : Opd) (tid : BitVec 6)
  | tidget (h : Hdr) (w : BitVec 3) (d : Opd) (tid : BitVec 6)
  | hadq (h : Hdr) (rm : Rm) (d a c e : Opd) (tid : BitVec 6)
  | zmap (h : Hdr) (d : Opd) (tid : BitVec 6)
  -- key tables (R347 to R362)
  | kclaim (h : Hdr) (logb : BitVec 6) (d a b c : Opd)
  | kfree (h : Hdr) (e : Opd)
  | kins (h : Hdr) (ty : ITy) (d a b e : Opd)
  | kprb (h : Hdr) (ty : ITy) (d a b e : Opd)
  | kdel (h : Hdr) (d a e : Opd)
  | kacc (h : Hdr) (op : KOp) (ty : ITy) (d a b e : Opd)
  | kdrn (h : Hdr) (ty : ITy) (key del rst : Bool) (d b c e : Opd)
  | kstat (h : Hdr) (d e : Opd)
  -- streams (R364 to R378)
  | slen (h : Hdr) (l : BitVec 2)
  | sgen (h : Hdr) (cls : BitVec 4) (d a b : Opd)
  | smul (h : Hdr) (d a b : Opd)
  | smin (h : Hdr) (d a b : Opd)
  | smax (h : Hdr) (d a b : Opd)
  | snot (h : Hdr) (d a : Opd)
  | ssel (h : Hdr) (d a b c : Opd)
  | scnt (h : Hdr) (f : Bool) (d a : Opd)
  | sregen (h : Hdr) (cls : BitVec 4) (d a b : Opd)
  | sbit (h : Hdr) (d a b : Opd)
  | scls (h : Hdr) (d a : Opd)
  -- exchanges (R379 to R399)
  | coll (h : Hdr) (tile : Option (BitVec 2)) (d a b c e : Opd)
  | dsend (h : Hdr) (a b : Opd)
  | dclose (h : Hdr) (d a : Opd)
  | qpush (h : Hdr) (wait : Bool) (d a e : Opd)
  | qpop (h : Hdr) (wait : Bool) (stamp : Option Opd) (d b e : Opd)
  | tile (h : Hdr) (d a b : Opd)
  -- device events: group results, fetch, pool, Tessellator (R145 to R177, R192, R266)
  | longResultReturn (gid : Nat) (k : Nat)
  | switchUnpark (gid : Nat)
  | emptylineLoadRead (gid : Nat) (k : Nat) (lane : BitVec 6)
  | fetchLineReceive (gid : Nat)
  | poolBlockGrant (core : Nat)
  | registerGrowCheck (core : Nat)
  | binFireTimeout (core : Nat) (bin : Nat)
  | spawnedGroupStart (core : Nat) (bin : Nat)
  | pooledCallWithdraw (core : Nat) (bin : Nat)
  -- placement and swapping (R137 to R151, R416 to R419)
  | teamPlace (part : BitVec 3)
  | timeSliceExpiry (team : Nat)
  | waitPriorityRaise (team : Nat)
  | swapCut (team : Nat)
  | swapOutComplete (team : Nat)
  | teamResume (team : Nat) (core : Nat)
  -- launch queues (R112 to R130)
  | qbaseWrite (who : Requester) (q : BitVec 6) (v : Word64)
  | qctlWrite (who : Requester) (q : BitVec 6) (v : Word32)
  | qtailWrite (who : Requester) (q : BitVec 6) (v : Word32)
  | qabort (who : Requester) (q : BitVec 6) (n : Word32)
  | packetRead (q : BitVec 6)
  | dependencePoll (q : BitVec 6)
  | launchComplete (launch : Nat)
  -- copy engine (R281, R286 to R288)
  | copyCommandStart (cmd : Nat)
  | copyUnitLand (cmd : Nat) (unit : Nat)
  | copyCommandComplete (cmd : Nat)
  | ringstall (gid : Nat)
  -- matrix array (R329 to R341)
  | gangForm (gid : Nat)
  | gangDissolve (gang : Nat)
  | mmaStart (gang : Nat)
  | mmaComplete (gang : Nat)
  | subarrayPowerGate (core : Nat) (sub : Nat)
  -- unit completions (R359, R375, R388, R397, R415)
  | keyOpComplete (core : Nat)
  | chordOpComplete (core : Nat)
  | tlbinvComplete (gid : Nat)
  | collectiveComplete (inst : Nat)
  | dispatchTokenArrive (tok : Nat)
  | dispatchTokenDeliver (tok : Nat)
  | dispstall (gid : Nat)
  -- errors and the owner's registers (R36, R144, R392, R409, R420 to R437)
  | softError (loc : Nat) (corrected : Bool)
  | cpartWrite (who : Requester) (core : Nat) (v : Word32)
  | partitionMoveComplete (core : Nat)
  | doorbell (who : Requester) (part : BitVec 3)
  | ipqcfgWrite (who : Requester) (q : BitVec 10) (v : Word32)
  | xpoolWrite (who : Requester) (core : Nat) (v : Word32)
  | trsizelWrite (who : Requester) (part : BitVec 3) (v : Word32)
  | elsizelWrite (who : Requester) (die : BitVec 2) (v : Word32)
  | perfctlClr (who : Requester) (core : Nat)
  | haltreq (who : Requester) (part : BitVec 3)
  | release (who : Requester) (part : BitVec 3)
  | dbgselWrite (who : Requester) (part : BitVec 3) (v : Word64)
  | crossTriggerArrive (core : Nat)
  | traceSample (core : Nat) (quad : BitVec 2)
  | registerWrite (who : Requester) (off : BitVec 24) (width : Nat) (v : Word64)
  -- ownership, mailbox, reset (R440 to R448, R42)
  | ownerClaim (r : BitVec 8) (expect new : Word64)
  | ownerOffer (r : BitVec 8) (expect new : Word64)
  | ownerTake (r : BitVec 8) (expect new : Word64)
  | ownerRelease (r : BitVec 8) (expect new : Word64)
  | ownerLinkDown (port : Option (BitVec 3))
  | ownerLinkUp (port : Option (BitVec 3))
  | ownerLinkTimeout
  | attest (r : BitVec 8)
  | getcert (r : BitVec 8)
  | update (r : BitVec 8)
  | activate (r : BitVec 8)
  | stage (r : BitVec 8)
  | collpart (r : BitVec 8)
  | resetreq (r : BitVec 8) (v : Word32)
  | perst
  | clkstep
  -- outside requests, links, accounting (R31, R298, R422)
  | hostOrPeerRequest (who : Requester) (addr : Word64) (size : Nat) (op : HostOp)
  | peerPortLinkDown (port : BitVec 3)
  | peerPortLinkUp (port : BitVec 3)
  | eligibilityHistogramClock (core : Nat) (quad : BitVec 2)
  deriving DecidableEq, Repr

end Sys2Proof
end

