-- ==== Sys2Proof/Machine/State.lean ====
section
/-! DEFINITION. The state of the module (spec/01, 05, 06, 08, 10, 12, 15, 17, 19, 20, 21, 23, 24), the reasons a step
can stop, and the state right after reset. Everything is plain data. -/

namespace Sys2Proof.Machine

/-! ## Faults, handlers, registers -/

/-- The modes of a group (R401). -/
inductive Mode where
  | user | handler | supervisor
  deriving DecidableEq, Repr

/-- The cause codes (R402). -/
inductive Cause where
  | illop | badtgt | fetchpar | priv | misalign | unmapped | pageflt | perm | badord | scrprot | notscr | poison
  | atomspace | noxblk | xgrowbig | qempty | qfull | nostrm | badentry | badwidth | wdepth | frameovf | badtrec
  | badtid | badtile | gangmis | noacc | badring | badcmd | badcoll | qperm | khandle | kbadclaim | corrmix | trap
  | bkpt
  deriving DecidableEq, Repr

/-- The reasons of a halt (R401, R405). -/
inductive HaltReason where
  | dblfault | supfault | nohandler
  deriving DecidableEq, Repr

/-- The cause record, as it stands in `X56` to `X59` (R403). -/
structure CauseRec where
  x56 : Word64
  x57 : Word64
  x58 : Word64
  x59 : Word64
  deriving DecidableEq, Repr

/-- One register written by a result: a vector register in some lanes, a uniform register, a mask register in some
bits, a condition register, a tile register (R178, R187, R193). -/
inductive RegWrite where
  | v (n : BitVec 6) (lanes : Mask) (val : VReg)
  | x (n : BitVec 6) (val : Word64)
  | m (n : BitVec 3) (lanes : Mask) (val : Mask)
  | c (n : BitVec 2) (val : BitVec 4)
  | t (n : BitVec 2) (val : BitVec 256)
  deriving DecidableEq, Repr

/-- A bypass entry and the issued instructions since its producer (R193). -/
structure Bypassed where
  w : RegWrite
  age : Nat
  deriving DecidableEq, Repr

/-- The unit a long result comes from, for the stall reason of a wait at `SW` = 1 (R360, R376). -/
inductive LongUnit where
  | memory | matrix | keyTable | chord | other
  deriving DecidableEq, Repr

/-- A load lane that waits (R266): its address, its location, and how often its line had been set to full when it began to
wait on the empty line (R267); none where it waits only behind an older load of the line (R299). -/
structure WaitLane where
  lane : BitVec 6
  va : Word64
  loc : Nat
  fill : Option Nat
  deriving DecidableEq, Repr

/-- The load an undelivered result belongs to, while lanes of it wait (R195, R258, R266). -/
structure LoadInfo where
  ty : ITy
  dst : Opd
  uni : Bool
  acq : Bool
  active : Mask
  helper : Mask
  lanes : List WaitLane
  deriving DecidableEq, Repr

/-- A long result not yet delivered (R192): the registers it writes, whether it has returned, the lanes that still
wait, the poison its waiting lanes met (lane and unit, R258), what `DELV` must reach before a `DCLOSE` returns (inbox
header's local offset and sequence, R398), and the slot that issued it. `prior` is of a load with `SW` = 1 the bypass before it:
its poison is a fault of its own (R258). -/
structure Long where
  id : Nat
  writes : List RegWrite
  tr : Bool
  returned : Bool
  unit : LongUnit
  load : Option LoadInfo
  poison : List (BitVec 6 × Word64)
  gate : Option (Nat × Word32)
  at_ : Word64
  spord : Word32
  prior : Option (List Bypassed)
  deriving DecidableEq, Repr

/-- A loop queue (R182). -/
structure QState where
  depth : BitVec 4
  base : BitVec 6
  head : BitVec 4
  occ : BitVec 4
  deriving DecidableEq, Repr

/-- A shadow set (R404), with the cause record of its entry (R408, `.FWD`) and the lanes that the faulting instruction
has already done (R400). -/
structure Shadow where
  ret : Word64
  mode : Mode
  exec : Mask
  helper : Mask
  c : Vector (BitVec 4) 4
  fstat : BitVec 6
  srctr : Word64
  x : Vector Word64 8
  bypass : List Bypassed
  pend : List Long
  prog : Mask
  cause : CauseRec
  deriving DecidableEq, Repr

/-- A fetch line a quadrant holds for a group: virtual and physical line address, its 512 bits, what the parity check
of R92 found, the poisoned unit found in it, or the fault of its fetch (R157, R177, R414). -/
structure FetchLine where
  va : Word64
  pa : Nat
  bits : BitVec 512
  parBad : Bool
  poison : Option Word64
  fault : Option Cause
  deriving DecidableEq, Repr

/-- An entry record (R94). -/
structure EntryRec where
  spbase : Word32
  spcnt : BitVec 16
  frame : Nat
  vregs : Nat
  wrule : Nat
  wlog : Nat
  gret : Bool
  nargs : Nat
  nres : Nat
  red : List (BitVec 8)
  deriving DecidableEq, Repr

/-- One member of a callee lane: the caller group, its lane, the depth of its call, its argument registers (R236, R237,
R253). -/
structure Member where
  caller : Nat
  lane : BitVec 6
  depth : Nat
  args : List Word32
  deriving DecidableEq, Repr

/-- One callee lane: an item (w and its one member), or a gathered set (R236, R237); a short set that a withdrawal has
closed takes no more members (R252). -/
structure CallLane where
  w : Nat
  members : List Member
  closed : Bool
  deriving DecidableEq, Repr

/-- What a width call calls: entry, entry record, widening or gathering (R232). -/
structure CallTarget where
  entry : Word64
  rc : EntryRec
  gather : Bool
  deriving DecidableEq, Repr

/-- A packed group (R236, R237): its number q and its lanes. -/
structure Pack where
  q : Nat
  lanes : List CallLane
  deriving DecidableEq, Repr

/-- A width call a parked caller waits for (R239, R248): first result register, its callers, lanes not yet returned, the results
(for each j the lanes written and their values), the flags gathered, `X0` to `X6` as the call read them, and the passes
whose number q has been given out (R243). -/
structure Calling where
  tgt : CallTarget
  creg : BitVec 6
  set : Mask
  left : Mask
  res : List (Mask × Vector Word64 64)
  flags : BitVec 6
  x : List Word64
  passes : Nat
  deriving DecidableEq, Repr

/-- A self-fold of a caller (R240, R241): its call, the frame's local offset and size, the callee lanes (widening: the
caller lanes; gathering: the sets), the lanes folded, and what the slot holds beside the frame (R241, R243, R250). -/
structure Fold where
  calling : Calling
  frame : Nat
  size : Nat
  lanes : List CallLane
  set : Mask
  bypass : List Bypassed
  pend : List Long
  v : Vector VReg 64
  lo : Bool
  hi : Bool
  vlim : Nat
  t : Vector (Option (BitVec 256)) 4
  len : BitVec 2
  gmem : Word32
  gang : Option Nat
  callSlot : Word64
  srseed : Word64
  batch : Word32
  widx : VReg
  wcnt : VReg
  deriving DecidableEq, Repr

/-- How a group came to be (R126, R154, R243): for a spawned group the team each item's counter belongs to; for a
callee group the target, the packed group it runs, those it still has to run, and its frame area. -/
inductive Kind where
  | launched
  | spawned (charge : List Nat)
  | callee (tgt : CallTarget) (pack : Pack) (rest : List Pack) (frame : Option Nat)
  deriving DecidableEq, Repr

/-- Why a group waits. `results` (an instruction that first waits for every outstanding result), `ops` (a width call that
waits for the engine operations of its group, R249), `behind` (one that waits until a load has read its empty line, R266,
R301), `barrier`, `batch`, `rendezvous`, `queue`, `chord`, `ring` and `sendq` have no event of their own: the group's own
turn tries again. `phase` is a `WAITB` registered at its barrier object: location, and the phases that had ended there
(R278); `sendq` names the lane that waits (R396). -/
inductive Wait where
  | switch
  | results
  | ops
  | behind
  | barrier
  | phase (loc ended : Nat)
  | tlbinv (scope : TlbScope) (arg : Word64) (sw : Bool)
  | batch
  | rendezvous
  | gang (word : Word64) (sw : Bool)
  | dissolve (sw exit : Bool)
  | widthpark
  | xgrow (lo hi sw : Bool)
  | queue
  | chord
  | ring (since : Word64) (header : Word64) (notw : Word32) (logged : Bool)
  | sendq (since : Word64) (lane : Nat) (inbox : Word64) (logged : Bool)
  deriving DecidableEq, Repr

/-- What the supervisor firmware is about to do for a group whose entry a misaligned access made (R257, R411): read the
instruction; access the bytes of an `LD` or `ST` one by one, with those still to access (lane, byte), those read, and the
byte that waits on an empty line; or hand the cause to the partition's handler. -/
inductive Firmware where
  | start
  | bytes (h : Hdr) (load : Bool) (ty : ITy) (d : Opd) (a : MemOpd) (todo : List (Nat × Nat))
      (got : List (Nat × Nat × Byte)) (wait : Option WaitLane)
  | forward
  deriving DecidableEq, Repr

/-- What a released group issues although it stopped the group: nothing, the slot that its breakpoint names, or also the `BKPT`
there (R428, R430). -/
inductive Pass where
  | no | site | bkpt
  deriving DecidableEq, Repr

/-- A group (R178, R150, R404): its place, its kind, its registers and its control state. `prog` are the lanes that an
instruction which parked has done, `hret` is `HRET` of a handler set that is not in use, once a value has stood there
(R410), `pass` is what a group that a hit stopped issues once it is released (R430). -/
structure Group where
  id : Nat
  team : Nat
  core : Option Nat
  slot : Nat
  kind : Kind
  -- identity (R131, R188)
  index : Word32
  teamNo : Word32
  cohort : Word32
  gx : Word32
  gy : Word32
  gz : Word32
  widx : VReg
  wcnt : VReg
  -- the register files (R178)
  pc : Word64
  v : Vector VReg 64
  lo : Bool
  hi : Bool
  vlim : Nat
  x : Vector Word64 64
  exec : Mask
  helper : Mask
  m : Vector Mask 8
  c : Vector (BitVec 4) 4
  q : Vector QState 8
  t : Vector (Option (BitVec 256)) 4
  -- special registers (R188)
  swin : BitVec 6
  len : BitVec 2
  gmem : Word32
  fstat : BitVec 6
  srseed : Word64
  srctr : Word64
  batch : Word32
  evpend : BitVec 16
  peergen : Word32
  -- control
  mode : Mode
  depth : Nat
  bypass : List Bypassed
  pend : List Long
  hset : Option Shadow
  sset : Option Shadow
  hret : Option Word64
  firmware : Option Firmware
  wait : Option Wait
  prog : Mask
  calling : Option Calling
  folds : List Fold
  gang : Option Nat
  halted : Option HaltReason
  stopped : Bool
  pass : Pass
  lastsp : Word32
  steps : BitVec 8
  line : Option FetchLine
  created : Word64
  sampled : Bool
  deriving DecidableEq, Repr

/-! ## Teams and launches -/

/-- The launch values after the merge of R117, and what the descriptor gives (R105). -/
structure Vals where
  entry : Word64
  sptab : Word64
  sptot : Word32
  scratch : Nat
  frstk : Nat
  smw : Nat
  tq : Nat
  dtc : Nat
  strm : Nat
  kq : Nat
  budget : Nat
  tgrp : Nat
  coht : Nat
  gx : Nat
  gy : Nat
  gz : Nat
  deriving DecidableEq, Repr

/-- A captured collective descriptor (R107). -/
structure CollDesc where
  bar : Word64
  dst : Word64
  src : Word64
  count : Nat
  memb : Nat
  ctype : Nat
  cop : Nat
  ckind : Nat
  deriving DecidableEq, Repr

/-- A dispatched launch (R115 to R130). -/
structure Launch where
  id : Nat
  queue : BitVec 6
  num : Word32
  pkt : BitVec 1024
  addr : Word64
  part : Nat
  prio : Nat
  vals : Vals
  tdisp : Word64
  next : Nat
  raised : Bool
  nofit : Bool
  status : Nat
  ended : Bool
  coll : Option CollDesc
  collStarted : Bool
  collDone : Bool
  deriving DecidableEq, Repr

/-- A stream register of a team (R364, R377). -/
structure Stream where
  lanes : Vector (BitVec 512) 64
  cls : BitVec 16
  poison : Bool
  deriving DecidableEq, Repr

/-- A page an engine operation or a spill binding holds (R285, R347, R385): the number of 64 KiB of its virtual address,
their physical address, and whether the page is of 2 MiB. -/
structure Page where
  va : Nat
  pa : Nat
  big : Bool
  deriving DecidableEq, Repr

/-- A claimed key table (R347, R348, R357): local offset of its lines, spill binding with its pages, and the
handle state. -/
structure KTable where
  off : Nat
  logb : Nat
  spill : Word64
  cap : Nat
  pages : List Page
  nextseq : Nat
  sphw : Nat
  splive : Nat
  bklive : Nat
  cpos : Word32
  cvalid : Bool
  ckey : Bool
  deriving DecidableEq, Repr

/-- What a swap image holds of the scratchpad (R150): bytes by allocation offset, empty lines, poisoned units. -/
structure ScrImage where
  bytes : List Host.Cell
  empty : List Nat
  poison : List Nat
  deriving DecidableEq, Repr

/-- How far a swap-out is (R416). -/
inductive Swap where
  | resident
  | cut
  | out
  deriving DecidableEq, Repr

/-- One spawn item (R152, R155): its four words and the team whose counter it carries. -/
structure SpawnItem where
  words : Vector Word32 4
  charge : Nat
  deriving DecidableEq, Repr

/-- What a spawn bin holds (R152, R251): items of a grid at one entry, or callee lanes of a pooled call of a team at
one slot. -/
inductive BinWork where
  | spawn (launch : Nat) (entry : Word64) (vregs : Nat) (items : List SpawnItem)
  | call (team : Nat) (slot : Word64) (tgt : CallTarget) (lanes : List CallLane)
  deriving DecidableEq, Repr

/-- A bin in use: what it holds, when its first item entered, whether it has fired, the core's count of fired bins when
it did, since when it waits ungranted, and whether a change of `PRSLICE` found it with priority 7, which it keeps (R148,
R252). -/
structure Bin where
  work : BinWork
  opened : Word64
  fired : Bool
  ord : Word64
  since : Word64
  raised : Bool
  deriving DecidableEq, Repr

/-- A team, launched or spawned (R137 to R155). Times are values of the time base. `held` are arrivals the Locus
holds (allocation offset of the object, count), R391; `bins` are the unfired bins a swap took along (R150, R155); `past` are
the ranges (core, offset, size) that it, and teams of its cohort that have ended, have held since first placement (R142).
`scaleBad` and `dtsBad` are the bytes of its scale window and the table entries (table, entry) that carry poison (R420). -/
structure Team where
  id : Nat
  launch : Nat
  spawn : Bool
  l : Nat
  core : Option Nat
  home : Nat
  swap : Swap
  first : Word64
  since : Word64
  raised : Bool
  nofit : Bool
  off : Nat
  spawned : Word32
  tids : List (Option (BitVec 512))
  scale : List Byte
  scaleBad : List Nat
  dts : List (List Word32)
  dtsBad : List (Nat × Nat)
  streams : List Stream
  kts : List (Option KTable)
  areas : List (Nat × Nat)
  peergen : Word32
  past : List (Nat × Nat × Nat)
  image : Option ScrImage
  held : List (Nat × Nat)
  bins : List Bin
  evpend : BitVec 16
  deriving DecidableEq, Repr

/-! ## The core's shared units -/

/-- A waiting request of a group for pool blocks or tiles (R145, R330); `fired` are the bins the core had fired when it
was made, which orders it against the requests of fired bins. -/
structure PoolReq where
  gid : Nat
  blocks : Nat
  fired : Word64
  deriving DecidableEq, Repr

/-- An instruction in a unit's order (R359, R375): its group, its team, and the long result it returns. -/
structure UnitOp where
  gid : Nat
  team : Nat
  result : Option Nat
  deriving DecidableEq, Repr

/-- A translation as a TLB holds it (R21, R413, R415): partition, page number (of 2 MiB or of 64 KiB), and its leaf. -/
structure TlbEntry where
  part : Nat
  page : Nat
  big : Bool
  pa : Nat
  u : Bool
  x : Bool
  w : Bool
  ord : BitVec 2
  deriving DecidableEq, Repr

/-- A core (R32, R35, R38, R144, R153, R188, R410, R422 to R424). `lastIssue` is when a group of it last issued or pool
blocks of it were released, `growing` that a register-grow check goes on (R146); `busy` is when each sub-array last
computed or was woken, `engineSeq` stays 0, since no record bears it (log entry 66, DESIGN CHOICE), `wake` when its last wake
began (R341), `sampled` when each quadrant last sampled (R436), `tlb` its
translations, oldest first (R415). -/
structure Core where
  part : BitVec 4
  moving : Bool
  newPart : BitVec 4
  xlimit : BitVec 8
  bintime : BitVec 16
  frz : Bool
  pgidle : Word32
  hist : Vector (Vector (BitVec 48) 33) 4
  stall : Vector (Vector (BitVec 48) 15) 4
  events : Vector (BitVec 48) 8
  svec : Word64
  fired : Word64
  lastIssue : Word64
  engineSeq : BitVec 48
  slotSeq : Vector (BitVec 48) 128
  poolReqs : List PoolReq
  tileReqs : List PoolReq
  bins : List Bin
  gated : Vector Bool 6
  busy : Vector Word64 6
  wake : Vector (Option Word64) 6
  keyOps : List UnitOp
  chordOps : List UnitOp
  growing : Bool
  sampled : Vector Word64 4
  tlb : List TlbEntry
  deriving DecidableEq, Repr

/-- An engine operation that a group forked (R428, R434): its partition and core, the group and its number, the sequence
number and safe-point ordinal of the fork. -/
structure Fork where
  part : Nat
  core : Option Nat
  issuer : Nat
  gid : BitVec 16
  seq : BitVec 48
  spord : Word32
  deriving DecidableEq, Repr

/-- The tensor a copy command or an engine operation captured (R75). -/
structure TRec where
  tid : BitVec 6
  bits : BitVec 512
  deriving DecidableEq, Repr

/-- A published copy command (R282 to R290): its entry, snapshots, stamps, the pages it holds, and its progress. `dts` are
its team's decode tables as they stood when the team ended (R87) and `dtsBad` their poison, `cohort` is its team's cohort
(R417); `past` says that its group's pass has ended, whose batches no other pass counts (R250, R290). -/
structure Cmd where
  id : Nat
  core : Nat
  team : Nat
  launch : Nat
  cohort : Nat
  part : Nat
  issuer : Nat
  gid16 : BitVec 16
  entry : BitVec 256
  index : Word32
  header : Word64
  recOff : Nat
  idx : List Word32
  trec : Option TRec
  tile : Option (BitVec 256)
  pages : List Page
  tstamp : Word64
  seqno : BitVec 48
  spord : Word32
  batch : Option Word32
  started : Bool
  landed : List Nat
  poison : Bool
  decodeFail : Bool
  dts : Option (List (List Word32))
  dtsBad : List (Nat × Nat)
  past : Bool
  deriving DecidableEq, Repr

/-- The type of a tile's contents (R331, R339): of the last `MMA` that wrote it (INT32, FP32, or half of an FP64 pair), none
since it was set to +0 or written by `ACCWR`. -/
inductive TileType where
  | clear | int | float | double
  deriving DecidableEq, Repr

/-- An accumulator tile (R338), the type it holds (R339) and its poison mark (R337). -/
structure Tile where
  rows : Vector VReg 8
  type : TileType
  poison : Bool
  deriving DecidableEq, Repr

/-- What the first member fixes of a latch (R333). -/
structure MmaRef where
  ty : FTy
  k : Nat
  za : Bool
  ids : Option (BitVec 6 × BitVec 6)
  k0 : BitVec 24
  posB : Word64
  scaleA : Word64
  scaleB : Word64
  deriving DecidableEq, Repr

/-- What one member brings to a latch (R333). -/
structure MmaPart where
  member : Nat
  tile : Nat
  base : Word64
  posA : Word64
  b : List VReg
  deriving DecidableEq, Repr

/-- One latched `MMA` of a gang: number, reference, members joined, and after the release the captured records, the skip
bits (for A of each member and for B, R335), and from its start the A rows of each member, or that it is abandoned (R337). -/
structure Latch where
  id : Nat
  ref : MmaRef
  parts : List MmaPart
  released : Bool
  recA : Option (BitVec 512)
  recB : Option (BitVec 512)
  skipA : List (List Bool)
  skipB : List (List Bool)
  started : Bool
  rowsA : List (List Byte)
  abandoned : Bool
  deriving DecidableEq, Repr

/-- A gang (R329 to R338): the members' groups in list order, tiles of each member, latches oldest first, how many
`MMA`s each member has issued since the oldest latch. -/
structure Gang where
  id : Nat
  team : Nat
  members : List Nat
  per : Nat
  tiles : List (List Tile)
  latches : List Latch
  dissolving : List Nat
  subs : List Nat
  deriving DecidableEq, Repr

/-- One member's share of a collective (R385, R390); a trigger word in the scratchpad is one of a team's allocation, at
an offset. -/
structure CollMember where
  rank : Nat
  src : Word64
  dst : Word64
  trigger : Word64
  trigTeam : Option Nat
  trigOff : Nat
  tile : Option (BitVec 256)
  pages : List Page
  team : Nat
  launch : Nat
  fork : Fork
  deriving DecidableEq, Repr

/-- A collective instance (R385, R390): its key or its launch, its descriptor, the members joined. -/
structure Coll where
  id : Nat
  part : Nat
  key : Word64
  launch : Option Nat
  desc : CollDesc
  members : List CollMember
  barTeam : Option Nat
  barOff : Nat
  deriving DecidableEq, Repr

/-- A dispatch token (R395 to R397): the team of its inbox when it was sent, its fork, its sequence once it has taken
one. -/
structure Token where
  id : Nat
  die : Nat
  grid : Nat
  sender : Nat
  inbox : Word64
  dest : Option Nat
  payload : BitVec 128
  srcid : BitVec 16
  stamp : Word64
  fork : Fork
  seq : Option Word32
  deriving DecidableEq, Repr

/-- An entry of an inter-partition queue (R393). -/
structure QEntry where
  payload : BitVec 128
  tstamp : Word64
  seqno : BitVec 48
  srcid : BitVec 16
  poison : Bool
  deriving DecidableEq, Repr

/-- An inter-partition queue (R392). -/
structure IpQueue where
  en : Bool
  depthl : BitVec 4
  cons : BitVec 8
  prod : BitVec 8
  entries : List QEntry
  deriving DecidableEq, Repr

/-- A launch queue (R112 to R119): its registers, the packet read and not dispatched, whether its packet checks have
passed, the poll interval in ns, the time from which the next poll is due (R119), the previous launch of the queue. -/
structure LQueue where
  base : Word64
  qerr : Bool
  sizel : BitVec 4
  qpart : BitVec 4
  en : Bool
  tail : Word32
  head : Word32
  packet : Option (BitVec 1024)
  checked : Bool
  interval : Nat
  due : Word64
  prev : Option Nat
  deriving DecidableEq, Repr

/-- A hit record (R434), in the layout of the rule. -/
abbrev HitRec := BitVec 256

/-- A partition (R151, R406, R426 to R435). `trig` are the cores a cross-trigger has not reached. -/
structure Partition where
  pswap : BitVec 128
  pswapLow : Word64
  ptvec : Word64
  proot : Word64
  sampl : BitVec 16
  btrace : Bool
  arm : Bool
  halted : Bool
  hits : List HitRec
  dbglost : Word32
  bp : Vector Word64 8
  wp : Vector (BitVec 128) 4
  wpLow : Vector Word64 4
  trbase : Word64
  trsizel : Word32
  trhead : Word32
  dbgsel : Word64
  status : BitVec 2
  trig : List Nat
  swapFull : Bool
  deriving DecidableEq, Repr

/-- A die (R38, R41, R415, R437): its error logger, the sequence numbers of its engines, whether each of its two control
cores runs the firmware, and the translations of its shared TLB. The numbers of its Loci, its dispatch engine and its
control cores stay 0: the spec names no record that these stamp (log entry 66, DESIGN CHOICE). `ceUnits` are the units whose
corrected errors were logged, with the time of the last entry. -/
structure Die where
  elbase : Word64
  elsizel : Word32
  elhead : Word32
  cecount : Word32
  elSeq : BitVec 48
  locusSeq : BitVec 48
  dispSeq : BitVec 48
  ctrlSeq : Vector (BitVec 48) 2
  ctrlRuns : Vector Bool 2
  ceUnits : List (Nat × Word64)
  tlb : List TlbEntry
  deriving DecidableEq, Repr

/-- Ownership, boot, mailboxes and flash (R438 to R448). Mailboxes are the 64 words of each master, reply buffers, image
slots and firmware data are sparse bytes (an unlisted byte is 0); `checkA` and `checkB` are the failing steps of the slots'
last checks, 0 where one passed (R446); `edKey` and `mlKey` are the identity keys of the
configuration area, 32 bytes each (of ML-DSA-65, its seed; log entry 65, PRESUMED). -/
structure Mgmt where
  owner : Word64
  bootState : BitVec 2
  bootSlot : Bool
  failA : BitVec 8
  failB : BitVec 8
  denycnt : Word32
  timer : Option (BitVec 8 × Word64)
  boxes : Vector (List Host.Cell) 8
  replies : Vector (List Host.Cell) 8
  busy : Vector Bool 8
  irq : Vector Nat 9
  active : Bool
  vfloor : Word32
  slotA : List Host.Cell
  slotB : List Host.Cell
  checkA : BitVec 8
  checkB : BitVec 8
  version : Word32
  digest : BitVec 384
  fwData : List Host.Cell
  edKey : BitVec 256
  mlKey : BitVec 256
  serial : BitVec 128
  collpart : List (BitVec 8)
  deriving DecidableEq, Repr

/-- Which agent moves next, and the ticks of the time base that pass before it does: a group issues, a device event of the
opcode table happens, or the owner sets the power cap (R42). -/
inductive Act where
  | issue (gid : Nat)
  | event (i : Instr)
  | powerCap (watts : Nat)
  deriving DecidableEq, Repr

structure Turn where
  dt : Nat
  act : Act
  deriving DecidableEq, Repr

/-- The module. `mem` lists the bytes that are not 0 by location, rising: a physical address below 2^56, or 2^56 +
2^20 × core + offset for the scratchpad slices. `fe` lists the scratchpad lines whose full/empty bit is empty
(8,192 × core + line), `poison` the poisoned 16-byte units (location / 16), both rising. `answer` is the requester last
answered and the value it was given (R439, R440). `fills` and `phases` count how often a line has been set to full and a
barrier object has ended a phase (R267, R278); they, `agenda`, `cur`, `freeCtr` and `nextId` are the model's own. -/
structure State where
  time : Word64
  mem : List Host.Cell
  fe : List Nat
  poison : List Nat
  groups : List Group
  teams : List Team
  launches : List Launch
  gangs : List Gang
  cmds : List Cmd
  colls : List Coll
  tokens : List Token
  queues : Vector LQueue 64
  slices : Vector Word32 8
  ipqs : Vector IpQueue 1024
  parts : Vector Partition 8
  dies : Vector Die 4
  cores : Vector Core 272
  mgmt : Mgmt
  peerUp : Vector Bool 6
  hostUp : Bool
  answer : Option (Requester × Nat)
  clock : Nat
  cap : Nat
  fills : List (Nat × Nat)
  phases : List (Nat × Nat)
  agenda : List Turn
  cur : Nat
  freeCtr : Nat
  nextId : Nat
  deriving DecidableEq, Repr

/-! ## The reasons a step can stop -/

/-- The reasons a step stops with a fault. There is none: every fault of an instruction is taken (R401), and the
spec gives every event an effect. -/
inductive Fault where
  deriving DecidableEq, Repr

/-- A refusal. `notModelled` is answered by an arm of `exec` for an instruction without a meaning (safe). -/
inductive Refusal where
  | notModelled (mnemonic : String)
  deriving DecidableEq, Repr

/-! ## Reset -/

/-- A core after reset (R35, R144, R153, R188, R423). -/
def Core.reset : Core where
  part := 0xF
  moving := false
  newPart := 0xF
  xlimit := 128
  bintime := 256
  frz := false
  pgidle := 4096
  hist := Vector.replicate 4 (Vector.replicate 33 0)
  stall := Vector.replicate 4 (Vector.replicate 15 0)
  events := Vector.replicate 8 0
  svec := 0
  fired := 0
  lastIssue := 0
  engineSeq := 0
  slotSeq := Vector.replicate 128 0
  poolReqs := []
  tileReqs := []
  bins := []
  gated := Vector.replicate 6 false
  busy := Vector.replicate 6 0
  wake := Vector.replicate 6 none
  keyOps := []
  chordOps := []
  growing := false
  sampled := Vector.replicate 4 0
  tlb := []

/-- A launch queue after reset (R112). -/
def LQueue.reset : LQueue where
  base := 0
  qerr := false
  sizel := 0
  qpart := 0xF
  en := false
  tail := 0
  head := 0
  packet := none
  checked := false
  interval := 64
  due := 0
  prev := none

/-- A partition after reset (R151, R406, R426, R427, R435). -/
def Partition.reset : Partition where
  pswap := 0
  pswapLow := 0
  ptvec := 0
  proot := 0
  sampl := 0
  btrace := false
  arm := false
  halted := false
  hits := []
  dbglost := 0
  bp := Vector.replicate 8 0
  wp := Vector.replicate 4 0
  wpLow := Vector.replicate 4 0
  trbase := 0
  trsizel := 0
  trhead := 0
  dbgsel := 0
  status := 0
  trig := []
  swapFull := false

/-- A die after reset (R437). -/
def Die.reset : Die where
  elbase := 0
  elsizel := 0
  elhead := 0
  cecount := 0
  elSeq := 0
  locusSeq := 0
  dispSeq := 0
  ctrlSeq := Vector.replicate 2 0
  ctrlRuns := Vector.replicate 2 false
  ceUnits := []
  tlb := []

/-- The management block after reset (R440, R445). -/
def Mgmt.reset : Mgmt where
  owner := 0
  bootState := 0
  bootSlot := false
  failA := 0
  failB := 0
  denycnt := 0
  timer := none
  boxes := Vector.replicate 8 []
  replies := Vector.replicate 8 []
  busy := Vector.replicate 8 false
  irq := Vector.replicate 9 0
  active := false
  vfloor := 0
  slotA := []
  slotB := []
  checkA := 0
  checkB := 0
  version := 0
  digest := 0
  fwData := []
  edKey := 0
  mlKey := 0
  serial := 0
  collpart := []

/-- The module right after reset: every register at the value the spec states, or the value that log entry 3 names (DESIGN
CHOICE). -/
def State.reset : State where
  time := 0
  mem := []
  fe := []
  poison := []
  groups := []
  teams := []
  launches := []
  gangs := []
  cmds := []
  colls := []
  tokens := []
  queues := Vector.replicate 64 LQueue.reset
  slices := Vector.replicate 8 2000
  ipqs := Vector.replicate 1024 ⟨false, 0, 0, 0, []⟩
  parts := Vector.replicate 8 Partition.reset
  dies := Vector.replicate 4 Die.reset
  cores := Vector.replicate 272 Core.reset
  mgmt := Mgmt.reset
  peerUp := Vector.replicate 6 false
  hostUp := true
  answer := none
  clock := 1300
  cap := 2400
  fills := []
  phases := []
  agenda := []
  cur := 0
  freeCtr := 0
  nextId := 0

end Sys2Proof.Machine
end

