-- ==== Sys2Proof/Machine/Bits.lean ====
section
/-! DEFINITION. Helpers over fixed-length vectors, lane sets and byte order (R3, R178). -/

namespace Sys2Proof.Machine

/-- The vector of the values of f at 0, 1, … -/
def vecOf {α : Type} (n : Nat) (f : Nat → α) : Vector α n :=
  ⟨⟨(List.range n).map f⟩, by simp⟩

/-- Element i of a vector, d beyond its end. -/
def vget {α : Type} {n : Nat} (v : Vector α n) (i : Nat) (d : α) : α :=
  v.toList.getD i d

/-- The vector with element i replaced. -/
def vset {α : Type} {n : Nat} (v : Vector α n) (i : Nat) (a : α) : Vector α n :=
  v.setIfInBounds i a

/-- The vector with element i changed by f. -/
def vmod {α : Type} {n : Nat} (v : Vector α n) (i : Nat) (d : α) (f : α → α) : Vector α n :=
  vset v i (f (vget v i d))

/-- Lane i of a vector register. -/
def vlane (v : VReg) (i : Nat) : Word32 :=
  vget v i 0

/-- A vector register given lane by lane. -/
def vreg (f : Nat → Word32) : VReg :=
  vecOf 64 f

/-- A vector register of zeros. -/
def vzero : VReg :=
  Vector.replicate 64 0

/-- The 64 lane numbers, ascending. -/
def allLanes : List Nat :=
  List.range 64

/-- The set of the lanes that pass p. -/
def maskOf (p : Nat → Bool) : Mask :=
  allLanes.foldl (fun m i => if p i then m ||| (1#64 <<< i) else m) 0#64

/-- The lanes of a set, ascending. -/
def lanesOf (m : Mask) : List Nat :=
  allLanes.filter (fun i => m.getLsbD i)

/-- The lowest lane of a set. -/
def lowest (m : Mask) : Option Nat :=
  (lanesOf m).head?

/-- The number of lanes of a set. -/
def count (m : Mask) : Nat :=
  (lanesOf m).length

/-- The set of one lane. -/
def single (i : Nat) : Mask :=
  1#64 <<< i

/-- The number of bits of a word that are 1. -/
def popcount {w : Nat} (b : BitVec w) : Nat :=
  (List.range w).foldl (fun n i => if b.getLsbD i then n + 1 else n) 0

/-- Bits [hi:lo] of a word as a number. -/
def bitsN {w : Nat} (b : BitVec w) (hi lo : Nat) : Nat :=
  (b.toNat >>> lo) % 2 ^ (hi + 1 - lo)

/-- The byte k of a number, little-endian (R3). -/
def byteOf (v k : Nat) : Byte :=
  BitVec.ofNat 8 (v >>> (8 * k))

/-- The n bytes of a number, little-endian (R3). -/
def bytesOf (n v : Nat) : List Byte :=
  (List.range n).map (byteOf v)

/-- The number of some bytes, little-endian (R3). -/
def natOf (bs : List Byte) : Nat :=
  bs.foldr (fun b n => b.toNat + 256 * n) 0

/-- The position of the first element that passes p. -/
def indexOf? {α : Type} (p : α → Bool) (l : List α) : Option Nat :=
  (List.range l.length).find? (fun i => match l[i]? with | some a => p a | none => false)

end Sys2Proof.Machine
end

