-- ==== Sys2Proof/Machine/Memory.lean ====
section
/-! DEFINITION. Memory as one list of bytes in canonical form, full/empty bits, poison, the address map (R26 to R31),
translation (R412 to R414) and protection (R141). -/

namespace Sys2Proof.Machine

/-! ## Bytes -/

/-- A byte of memory; an unlisted location reads as 0 (log entry 2, DESIGN CHOICE). -/
def Memory.read (m : List Host.Cell) (a : Nat) : Byte :=
  match m with
  | [] => 0
  | c :: cs => if c.1 = a then c.2 else if a < c.1 then 0 else Memory.read cs a

/-- The cells of some bytes from location a on: only those that are not 0 are listed. -/
def Memory.cells (a : Nat) (bs : List Byte) : List Host.Cell :=
  match bs with
  | [] => []
  | b :: bs => if b = 0 then Memory.cells (a + 1) bs else (a, b) :: Memory.cells (a + 1) bs

/-- Memory with the bytes bs at location a. -/
def Memory.write (m : List Host.Cell) (a : Nat) (bs : List Byte) : List Host.Cell :=
  m.takeWhile (fun c => c.1 < a) ++ Memory.cells a bs ++ (m.dropWhile (fun c => c.1 < a)).dropWhile
    (fun c => c.1 < a + bs.length)

/-- The canonical form: locations rise and no listed byte is 0. -/
def Memory.wf (m : List Host.Cell) : Bool :=
  match m with
  | [] => true
  | [c] => c.2 != 0
  | c :: d :: cs => c.2 != 0 && c.1 < d.1 && Memory.wf (d :: cs)

/-- The n bytes from location a on. -/
def Memory.readN (m : List Host.Cell) (a n : Nat) : List Byte :=
  (List.range n).map (fun i => Memory.read m (a + i))

/-- Insert into a rising list of numbers. -/
def insertNat (a : Nat) (l : List Nat) : List Nat :=
  l.takeWhile (· < a) ++ a :: (l.dropWhile (· < a)).dropWhile (· == a)

/-- Remove from a rising list of numbers. -/
def removeNat (a : Nat) (l : List Nat) : List Nat :=
  l.filter (· != a)

/-! ## Locations -/

/-- The location of offset off in the scratchpad slice of a core. -/
def scrLoc (core off : Nat) : Nat :=
  2 ^ 56 + core * 2 ^ 20 + off

def isScr (loc : Nat) : Bool :=
  2 ^ 56 ≤ loc

/-- The core and the offset of a scratchpad location. -/
def scrOf (loc : Nat) : Nat × Nat :=
  ((loc - 2 ^ 56) / 2 ^ 20, (loc - 2 ^ 56) % 2 ^ 20)

/-- The number of the scratchpad line of a location, 8,192 to a core. -/
def lineOf (loc : Nat) : Nat :=
  (loc - 2 ^ 56) / 128

def State.read8 (s : State) (loc : Nat) : Byte :=
  Memory.read s.mem loc

/-- The n bytes at a location as a number, little-endian (R3). -/
def State.readNat (s : State) (loc n : Nat) : Nat :=
  natOf (Memory.readN s.mem loc n)

/-- Does the range touch a poisoned unit? The lowest such unit's location (R420). -/
def State.poisonIn (s : State) (loc n : Nat) : Option Nat :=
  (s.poison.find? (fun u => u * 16 + 16 > loc && u * 16 < loc + n)).map (· * 16)

/-- The bytes become those given; a unit written whole loses its poison, a unit written in part keeps it (R420). -/
def State.write (s : State) (loc : Nat) (bs : List Byte) : State :=
  { s with
    mem := Memory.write s.mem loc bs
    poison := s.poison.filter (fun u => !(loc ≤ u * 16 && u * 16 + 16 ≤ loc + bs.length)) }

/-- Write the n low bytes of a number. -/
def State.writeNat (s : State) (loc n v : Nat) : State :=
  s.write loc (bytesOf n v)

/-- Mark the unit of a location poisoned (R420). -/
def State.setPoison (s : State) (loc : Nat) : State :=
  { s with poison := insertNat (loc / 16) s.poison }

/-- The full/empty bit of the scratchpad line of a location: true is full (R265). -/
def State.isFull (s : State) (loc : Nat) : Bool :=
  !s.fe.contains (lineOf loc)

/-- How often something has been counted under a key. -/
def tally (k : Nat) (l : List (Nat × Nat)) : Nat :=
  match l.find? (fun p => p.1 == k) with
  | some p => p.2
  | none => 0

/-- Count once more under a key. -/
def bump (k : Nat) (l : List (Nat × Nat)) : List (Nat × Nat) :=
  (k, tally k l + 1) :: l.filter (fun p => p.1 != k)

/-- A setting to full, which releases the loads that wait on the line (R267). -/
def State.setFull (s : State) (loc : Nat) : State :=
  { s with fe := removeNat (lineOf loc) s.fe, fills := bump (lineOf loc) s.fills }

/-- Has a load that began to wait when the line had been set to full n times been released (R266, R267)? -/
def State.lineReady (s : State) (loc n : Nat) : Bool :=
  s.isFull loc || tally (lineOf loc) s.fills != n

def State.setEmpty (s : State) (loc : Nat) : State :=
  { s with fe := insertNat (lineOf loc) s.fe }

/-! ## Agents by number -/

/-- The die of a core (R19). -/
def dieOf (core : Nat) : Nat :=
  core / 68

def State.core (s : State) (c : Nat) : Core :=
  vget s.cores c Core.reset

def State.modCore (s : State) (c : Nat) (f : Core → Core) : State :=
  { s with cores := vmod s.cores c Core.reset f }

def State.part (s : State) (p : Nat) : Partition :=
  vget s.parts p Partition.reset

def State.modPart (s : State) (p : Nat) (f : Partition → Partition) : State :=
  { s with parts := vmod s.parts p Partition.reset f }

def State.die (s : State) (d : Nat) : Die :=
  vget s.dies d Die.reset

def State.modDie (s : State) (d : Nat) (f : Die → Die) : State :=
  { s with dies := vmod s.dies d Die.reset f }

def State.queue (s : State) (q : Nat) : LQueue :=
  vget s.queues q LQueue.reset

def State.modQueue (s : State) (q : Nat) (f : LQueue → LQueue) : State :=
  { s with queues := vmod s.queues q LQueue.reset f }

def State.group? (s : State) (gid : Nat) : Option Group :=
  s.groups.find? (fun g => g.id == gid)

/-- Replace the group of the same id. -/
def State.setGroup (s : State) (g : Group) : State :=
  { s with groups := s.groups.map (fun h => if h.id == g.id then g else h) }

def State.team? (s : State) (tid : Nat) : Option Team :=
  s.teams.find? (fun t => t.id == tid)

def State.modTeam (s : State) (tid : Nat) (f : Team → Team) : State :=
  { s with teams := s.teams.map (fun t => if t.id == tid then f t else t) }

def State.launch? (s : State) (id : Nat) : Option Launch :=
  s.launches.find? (fun l => l.id == id)

def State.modLaunch (s : State) (id : Nat) (f : Launch → Launch) : State :=
  { s with launches := s.launches.map (fun l => if l.id == id then f l else l) }

def State.gang? (s : State) (id : Nat) : Option Gang :=
  s.gangs.find? (fun g => g.id == id)

def State.modGang (s : State) (id : Nat) (f : Gang → Gang) : State :=
  { s with gangs := s.gangs.map (fun g => if g.id == id then f g else g) }

def State.modCmd (s : State) (id : Nat) (f : Cmd → Cmd) : State :=
  { s with cmds := s.cmds.map (fun c => if c.id == id then f c else c) }

/-- The values of a launch that no descriptor gives: what a team whose launch is gone would read. -/
def Vals.none : Vals :=
  { entry := 0, sptab := 0, sptot := 0, scratch := 0, frstk := 0, smw := 0, tq := 0, dtc := 0, strm := 0, kq := 0,
    budget := 0, tgrp := 0, coht := 1, gx := 0, gy := 0, gz := 0 }

/-- The launch values of a team (R117); a spawn team holds no scratchpad, identifiers, streams or tables (R155). -/
def State.valsOf (s : State) (t : Team) : Vals :=
  match s.launch? t.launch with
  | some l =>
    if t.spawn then { l.vals with scratch := 0, frstk := 0, smw := 0, tq := 0, dtc := 0, strm := 0, kq := 0, tgrp := 0 }
    else l.vals
  | none => Vals.none

/-- The partition of a team: that of its launch. -/
def State.partOf (s : State) (t : Team) : Nat :=
  match s.launch? t.launch with
  | some l => l.part
  | none => 0

/-- The cohort of a team (R124). -/
def State.cohortOf (s : State) (t : Team) : Nat :=
  t.l / max 1 (s.valsOf t).coht

/-- Bytes of a team's allocation (R140). -/
def State.allocSize (s : State) (t : Team) : Nat :=
  (s.valsOf t).scratch + (s.valsOf t).frstk

/-! ## The address map -/

def SRAM_BASE : Nat := 0x00C0_0000_0000_0000
def LOCAL_BASE : Nat := 0x00C0_0000_2000_0000
def SUPV_BASE : Nat := 0x00C0_0001_0000_0000

/-- The die and node that hold a unit, and the address by which the log names it (log entry 47, DEDUCED). -/
def unitHome (loc : Nat) : Nat × Nat × Nat :=
  if isScr loc then
    let c := (scrOf loc).1
    (dieOf c, c % 68, SRAM_BASE + c / 68 * 2 ^ 27 + c % 68 * 2 ^ 20 + (scrOf loc).2)
  else (loc / 4096 % 4, 0x103, loc)

/-- End of main memory (R31). -/
def MAIN_END : Nat := 0x0048_0000_0000

def HOST_BASE : Nat := 0x0040_0000_0000_0000

/-- The region a virtual address falls into (R30, R26, R27): the translated region, an offset of a core's slice, an
offset of the supervisor window. -/
inductive Region where
  | translated
  | scratch (core off : Nat)
  | supv (off : Nat)
  | unmapped
  deriving DecidableEq, Repr

/-- R30. The local window maps the slice of the issuing core; other engines have none (R27). -/
def regionOf (core : Option Nat) (va : Word64) : Region :=
  let a := va.toNat
  if a < SRAM_BASE then .translated
  else if a < SRAM_BASE + 0x2000_0000 then
    let off := a - SRAM_BASE
    let idx := off / 2 ^ 20 % 128
    if idx < 68 then .scratch (off / 2 ^ 27 * 68 + idx) (off % 2 ^ 20) else .unmapped
  else if LOCAL_BASE ≤ a && a < LOCAL_BASE + 2 ^ 20 then
    match core with
    | some c => .scratch c (a - LOCAL_BASE)
    | none => .unmapped
  else if SUPV_BASE ≤ a && a < SUPV_BASE + 2 ^ 24 then .supv (a - SUPV_BASE)
  else .unmapped

/-- Is a physical address mapped (R31)? -/
def State.paMapped (s : State) (pa : Nat) : Bool :=
  pa < MAIN_END || (HOST_BASE ≤ pa && pa < 2 * HOST_BASE) ||
    (2 * HOST_BASE ≤ pa && pa < 2 * HOST_BASE + 6 * 2 ^ 52 && pa % 2 ^ 52 < MAIN_END &&
      vget s.peerUp ((pa - 2 * HOST_BASE) / 2 ^ 52) false)

/-- What an access does to the page it reaches (R414). -/
inductive Use where
  | read | write | fetch
  deriving DecidableEq, Repr

/-- What a translation ends at. -/
structure Leaf where
  pa : Nat
  u : Bool
  x : Bool
  w : Bool
  ord : BitVec 2
  big : Bool
  deriving DecidableEq, Repr

/-- An entry's reserved bits are 0 (R413). -/
def pteOk (e : BitVec 64) : Bool :=
  e.getLsbD 0 && bitsN e 63 56 == 0 && !e.getLsbD 7

/-- The physical address field of an entry (R413). -/
def ptePa (e : BitVec 64) : Nat :=
  bitsN e 55 8 * 256

/-- The leaf of an entry, for a page of size bytes (R413, R414). -/
def leafOf (e : BitVec 64) (size va : Nat) : Except Cause Leaf :=
  if ptePa e % size = 0 then
    .ok { pa := ptePa e + va % size, u := e.getLsbD 4, x := e.getLsbD 3, w := e.getLsbD 2,
          ord := e.extractLsb' 5 2, big := size == 2 ^ 21 }
  else .error .pageflt

/-- The next table of an entry, a table of size bytes in main memory (R414). -/
def tableOf (e : BitVec 64) (size : Nat) : Except Cause Nat :=
  if ptePa e % size = 0 && ptePa e < MAIN_END then .ok (ptePa e) else .error .pageflt

/-- Entry i of the table at pa. -/
def State.pte (s : State) (pa i : Nat) : BitVec 64 :=
  BitVec.ofNat 64 (s.readNat (pa + 8 * i) 8)

/-- The walk below level 0's pointer: level P (R412). -/
def State.walkP (s : State) (table va : Nat) : Except Cause Leaf :=
  let e := s.pte table (va / 2 ^ 16 % 32)
  if pteOk e && e.getLsbD 1 then leafOf e (2 ^ 16) va else .error .pageflt

/-- Level 0 of the walk: a leaf of 2 MiB or a pointer to a level P table. -/
def State.walk0 (s : State) (table va : Nat) : Except Cause Leaf := do
  let e := s.pte table (va / 2 ^ 21 % 512)
  if pteOk e then
    if e.getLsbD 1 then leafOf e (2 ^ 21) va
    else do
      let t ← tableOf e 256
      s.walkP t va
  else .error .pageflt

/-- Levels n to 1 of the walk, by the index shifts given. -/
def State.walkDown (s : State) (shifts : List Nat) (table va : Nat) : Except Cause Leaf :=
  match shifts with
  | [] => s.walk0 table va
  | sh :: rest => do
    let e := s.pte table (va / 2 ^ sh % (if sh = 48 then 256 else 512))
    if pteOk e && !e.getLsbD 1 then do
      let t ← tableOf e 4096
      s.walkDown rest t va
    else .error .pageflt

/-- The walk of a partition's tables (R412 to R414). -/
def State.walk (s : State) (part : Nat) (va : Word64) : Except Cause Leaf :=
  s.walkDown [48, 39, 30] (bitsN (s.part part).proot 55 11 * 2048) va.toNat

/-- Does an entry translate an address of a partition? -/
def TlbEntry.covers (e : TlbEntry) (part : Nat) (va : Word64) : Bool :=
  e.part == part && e.page == (if e.big then va.toNat / 2 ^ 21 else va.toNat / 2 ^ 16)

/-- The entry that holds the leaf of an address. -/
def Leaf.entry (l : Leaf) (part : Nat) (va : Word64) : TlbEntry :=
  let size := if l.big then 2 ^ 21 else 2 ^ 16
  { part := part, page := va.toNat / size, big := l.big, pa := l.pa - va.toNat % size, u := l.u, x := l.x, w := l.w,
    ord := l.ord }

/-- The leaf of an address as an entry gives it. -/
def TlbEntry.leaf (e : TlbEntry) (va : Word64) : Leaf :=
  { pa := e.pa + va.toNat % (if e.big then 2 ^ 21 else 2 ^ 16), u := e.u, x := e.x, w := e.w, ord := e.ord, big := e.big }

/-- What the TLB of a core holds for an address. -/
def State.coreTlb (s : State) (core part : Nat) (va : Word64) : Option TlbEntry :=
  (s.core core).tlb.find? (fun e => e.covers part va)

/-- What the shared TLB of a core's die holds for an address. -/
def State.dieTlb (s : State) (core part : Nat) (va : Word64) : Option TlbEntry :=
  (s.die (dieOf core)).tlb.find? (fun e => e.covers part va)

/-- The leaf of an address for a core: as its TLB or its die's holds it, which may be older than the tables, else by a walk
(R415). An agent without a core walks. -/
def State.leaf (s : State) (core : Option Nat) (part : Nat) (va : Word64) : Except Cause Leaf :=
  match core with
  | none => s.walk part va
  | some c =>
    match s.coreTlb c part va with
    | some e => .ok (e.leaf va)
    | none => match s.dieTlb c part va with | some e => .ok (e.leaf va) | none => s.walk part va

/-- A translation with the checks of R414 and R31. Which fault a page takes that fails both permission and `ORD` is left
open (log entry 31, DESIGN CHOICE). -/
def State.translate (s : State) (core : Option Nat) (part : Nat) (sup : Bool) (use : Use) (va : Word64) :
    Except Cause Nat := do
  let l ← s.leaf core part va
  let denied := (use = .write && !l.w) || (use = .fetch && !l.x) || (!sup && !l.u)
  if denied && !(l.ord = 3 && Config.ordFirst va) then .error .perm
  else if l.ord = 3 then .error .badord
  else if !s.paMapped l.pa then .error .unmapped
  else .ok l.pa

/-- The page of a virtual address, as a probe of a core takes it (R285). -/
def State.pageOf (s : State) (core : Option Nat) (part : Nat) (va : Word64) : List Page :=
  match s.leaf core part va with
  | .ok l => [⟨va.toNat / 2 ^ 16, l.pa - va.toNat % 2 ^ 16, l.big⟩]
  | .error _ => []

/-! ## Protection -/

/-- Does the allocation of a team hold the offset of a core's slice? Only a resident team has one (R140, R141). -/
def State.holds (s : State) (t : Team) (core off : Nat) : Bool :=
  t.core == some core && !t.spawn && t.off ≤ off && off < t.off + (s.valsOf t).scratch + (s.valsOf t).frstk

/-- R141: the line belongs to an allocation of a resident team of the issuer's cohort. -/
def State.cohortHolds (s : State) (t : Team) (core off : Nat) : Bool :=
  !t.spawn && s.teams.any (fun u => s.holds u core off && u.launch == t.launch && s.cohortOf u == s.cohortOf t)

/-- Where an access lands: a location of memory, or an offset of the supervisor window. -/
inductive Place where
  | mem (loc : Nat)
  | supv (off : Nat)
  deriving DecidableEq, Repr

/-- Who accesses: the partition, the supervisor's rights, the core whose local window it is, the core whose TLB translates,
the team R141 names. -/
structure Accessor where
  part : Nat
  sup : Bool
  core : Option Nat
  tlb : Option Nat
  team : Option Team

/-- The place of a virtual address for an access (R256). A fetch from the supervisor register window takes `PERM`, in
supervisor mode too (log entry 32, DESIGN CHOICE). -/
def State.place (s : State) (a : Accessor) (use : Use) (va : Word64) : Except Cause Place :=
  match regionOf a.core va with
  | .unmapped => .error .unmapped
  | .translated => (s.translate a.tlb a.part a.sup use va).map .mem
  | .supv off => if a.sup && use ≠ .fetch then .ok (.supv off) else .error .perm
  | .scratch c off =>
    match a.team with
    | some t => if s.cohortHolds t c off then .ok (.mem (scrLoc c off)) else .error .scrprot
    | none => .ok (.mem (scrLoc c off))

/-- The location of a virtual address that an engine or the front-end reaches: no supervisor window (log entry 36, DEDUCED). -/
def State.locOf (s : State) (a : Accessor) (use : Use) (va : Word64) : Except Cause Nat := do
  match ← s.place a use va with
  | .mem loc => .ok loc
  | .supv _ => .error .perm

/-- Read n bytes at a virtual address that lie in one page or slice line; poison is a fault (R420). -/
def State.readVa (s : State) (a : Accessor) (use : Use) (va : Word64) (n : Nat) : Except Cause Nat := do
  let loc ← s.locOf a use va
  match s.poisonIn loc n with
  | some _ => .error .poison
  | none => .ok (s.readNat loc n)

end Sys2Proof.Machine
end

