-- ==== Sys2Proof/WellFormed.lean ====
section
/-! DEFINITION. What the decoder accepts beyond the bit fields (R161, R162, R165, R175 orders 3 and 4, R197, R198
and the forms tables of the instruction chapters): `Instr.wellFormed`. An instruction that fails it takes `ILLOP`. -/

namespace Sys2Proof

namespace Opd
def isV : Opd → Bool | .v _ => true | _ => false
def isX : Opd → Bool | .x _ => true | _ => false
def isM : Opd → Bool | .m _ => true | _ => false
def isC : Opd → Bool | .c _ => true | _ => false
def isQ : Opd → Bool | .q _ => true | _ => false
def isS : Opd → Bool | .s _ => true | _ => false
def isT : Opd → Bool | .t _ => true | _ => false
def isVX (o : Opd) : Bool := o.isV || o.isX

/-- A vector or queue operand, whose value belongs to a lane (R133, R197). -/
def perLane (o : Opd) : Bool := o.isV || o.isQ

/-- The vector index is a multiple of k. -/
def vMult (k : Nat) : Opd → Bool | .v n => n.toNat % k == 0 | _ => false

/-- An even uniform register (R180). -/
def xEven : Opd → Bool | .x n => n.toNat % 2 == 0 | _ => false

/-- Alignment of an operand that holds a value of w bits (R43, R165, R180). -/
def aligned (w : Nat) : Opd → Bool
  | .v n => if w ≤ 32 then true else n.toNat % (w / 32) == 0
  | .x n => if w ≤ 64 then true else n.toNat % 2 == 0
  | .q _ => w ≤ 32
  | _ => true

/-- A value operand of w bits in file V or X, or Q for 32-bit values (R197). -/
def value (w : Nat) (o : Opd) : Bool := (o.isV || o.isX || o.isQ) && o.aligned w

/-- A value operand of w bits in file V or X. -/
def valueVX (w : Nat) (o : Opd) : Bool := o.isVX && o.aligned w

/-- The operand is exactly one V or X register (R162). -/
def oneReg (w : Nat) : Opd → Bool
  | .v _ => w ≤ 32
  | .x _ => w ≤ 64
  | _ => false
end Opd

namespace ITy
/-- The width in bits (R6). -/
def width : ITy → Nat
  | .i8 | .n8 | .b8 => 8
  | .i16 | .n16 | .b16 => 16
  | .i32 | .n32 | .b32 => 32
  | .i64 | .n64 | .b64 => 64
  | .b128 => 128
def signed : ITy → Bool | .i8 | .i16 | .i32 | .i64 => true | _ => false
def unsigned : ITy → Bool | .n8 | .n16 | .n32 | .n64 => true | _ => false
def bits : ITy → Bool | .b8 | .b16 | .b32 | .b64 | .b128 => true | _ => false
/-- Types I and N (R201). -/
def arith (t : ITy) : Bool := t.signed || t.unsigned
def wide (t : ITy) : Bool := t.width == 32 || t.width == 64
def isBW : ITy → Bool | .b32 | .b64 => true | _ => false
end ITy

namespace FTy
/-- The width in bits of an element (R6, R47, R58 to R60). -/
def width : FTy → Nat
  | .f16 | .bf16 => 16
  | .f32 => 32
  | .f64 => 64
  | .e2m1 | .dxb4 => 4
  | _ => 8
/-- The types "F" of R209. -/
def isF : FTy → Bool | .f16 | .bf16 | .f32 | .f64 => true | _ => false
/-- The seven types of `FCVT` and `FCLASS` (R212, R213). -/
def isCvt : FTy → Bool | .f16 | .bf16 | .f32 | .f64 | .e4m3 | .e5m2 | .e8m0 => true | _ => false
end FTy

/-- The types each reduction operator accepts (R216, R269). -/
def RedOp.accepts : RedOp → ITy → Bool
  | .exch, t => t.isBW || t == .b128
  | .add, t | .min, t | .max, t => t.arith && t.wide
  | _, t => t.isBW

/-- The types each `KACC` operator accepts (R356). -/
def KOp.accepts : KOp → ITy → Bool
  | .fadd, t => t == .b32
  | .or, t => t.isBW
  | _, t => t.arith && t.wide

namespace Hdr
/-- `PN` needs a predicate (R161). -/
def predOk (h : Hdr) : Bool := !h.pn || h.pm != 0
/-- No predicate is accepted (R161). -/
def noPred (h : Hdr) : Bool := h.pm == 0 && !h.pn
/-- `TR` with a destination of w bits (R162). -/
def trOk (h : Hdr) (w : Nat) (d : Opd) : Bool := !h.tr || d.oneReg w
/-- An `X` destination with a lane source needs `UNI` (R197, R262). -/
def xdOk (h : Hdr) (d : Opd) (srcs : List Opd) : Bool := !d.isX || h.uni || !srcs.any Opd.perLane
/-- A form that acts once: no predicate, no `TR`. -/
def once (h : Hdr) : Bool := h.noPred && !h.tr
/-- A form that acts per lane: `UNI` forbidden. -/
def lanes (h : Hdr) : Bool := h.predOk && !h.uni
end Hdr

/-- An integer or float form with destination of dw bits and sources of the given widths (R197, R198). -/
def valueForm (h : Hdr) (d : Opd) (dw : Nat) (srcs : List (Opd × Nat)) : Bool :=
  h.predOk && h.trOk dw d && d.value dw && srcs.all (fun p => p.1.value p.2) && h.xdOk d (srcs.map (·.1))

def int2 (h : Hdr) (ty : ITy) (d a : Opd) : Bool := valueForm h d ty.width [(a, ty.width)]
def int3 (h : Hdr) (ty : ITy) (d a b : Opd) : Bool := valueForm h d ty.width [(a, ty.width), (b, ty.width)]
def int4 (h : Hdr) (ty : ITy) (d a b c : Opd) : Bool :=
  valueForm h d ty.width [(a, ty.width), (b, ty.width), (c, ty.width)]
def flt2 (h : Hdr) (ty : FTy) (d a : Opd) : Bool := ty.isF && valueForm h d ty.width [(a, ty.width)]
def flt3 (h : Hdr) (ty : FTy) (d a b : Opd) : Bool :=
  ty.isF && valueForm h d ty.width [(a, ty.width), (b, ty.width)]

/-- The twin of an integer form: types up to 64 bits are spelled by every immediate (R170). -/
def intI (h : Hdr) (ty : ITy) (d a : Opd) : Bool := int2 h ty d a

/-- A float immediate has no bits above its code (R170). -/
def fimmOk : FTy → BitVec 38 → Bool
  | .f32, i => i.toNat < 2 ^ 32
  | .f64, _ => true
  | _, i => i.toNat < 2 ^ 16

/-- A compare of sources of w bits: a condition register from uniform sources, or a mask (R205, R211). -/
def cmpForm (h : Hdr) (flags : Bool) (d : Opd) (w : Nat) (srcs : List Opd) : Bool :=
  h.predOk && !h.tr && srcs.all (Opd.value w) &&
    (if flags then d.isC && (h.uni || !srcs.any Opd.perLane) else d.isM)

/-- Width of a special register that exists, and whether software may write it (R188). -/
def specialReg (n : BitVec 12) : Option (Nat × Bool) :=
  match n.toNat with
  | 0x000 | 0x001 | 0x002 | 0x003 | 0x004 | 0x005 | 0x006 | 0x007 | 0x010 | 0x011 => some (32, false)
  | 0x020 | 0x022 | 0x023 => some (64, true)
  | 0x021 | 0x026 => some (32, true)
  | 0x024 | 0x025 => some (32, false)
  | 0x030 => some (64, false)
  | 0x031 => some (48, false)
  | 0x040 | 0x041 | 0x042 | 0x043 | 0x050 | 0x051 => some (32, false)
  | _ => none

/-- The width that a special register moves through a vector operand (R189). -/
def specialWidth (w : Nat) : Nat := if w ≤ 32 then 32 else 64

def MemOpd.ok (a : MemOpd) : Bool := a.base.valueVX 64

/-- A memory form that acts per lane (R262). -/
def memLanes (h : Hdr) (scope : Scope) (ord : MemOrd) (a : MemOpd) : Bool :=
  h.predOk && a.ok && (ord != .plain || scope == .group)

/-- A memory form with only `X` operands (R262). -/
def memOnce (h : Hdr) (scope : Scope) (ord : MemOrd) (a : MemOpd) : Bool :=
  h.once && a.base.isX && (ord != .plain || scope == .group)

def MemOrd.isAcq : MemOrd → Bool | .acq | .ar => true | _ => false
def MemOrd.isRel : MemOrd → Bool | .rel | .ar => true | _ => false
def acqOnly (o : MemOrd) : Bool := o == .plain || o == .acq
def relOnly (o : MemOrd) : Bool := o == .plain || o == .rel

/-- The K of each `TY` and K code (R331). -/
def mmaK : FTy → BitVec 3 → Option Nat
  | .e4m3, 4 | .e5m2, 4 | .dxb8, 4 | .mi8, 4 | .mn8, 4 => some 64
  | .e2m1, 5 | .dxb4, 5 => some 128
  | .bf16, 3 | .f16, 3 => some 32
  | .f32, 2 => some 16
  | .f64, 1 => some 8
  | _, _ => none

def accTy (ty : FTy) : Bool := ty == .f32 || ty == .f64

/-- The element formats of scaled products (R328). -/
def isNarrow (ty : FTy) : Bool := ty == .e4m3 || ty == .e5m2 || ty == .e2m1

def Target.ok : Target → Bool
  | .direct _ s => s.toNat ≤ 4
  | .indirect _ => true

/-- The decode checks of orders 3 and 4 of R175 that the bit fields alone do not make (log entry 28, DEDUCED). -/
def Instr.wellFormed : Instr → Bool
  | .iadd h _ ty d a b | .isub h _ ty d a b | .imul h _ ty d a b => ty.arith && int3 h ty d a b
  | .iaddImm h _ ty d a _ | .isubImm h _ ty d a _ | .imulImm h _ ty d a _ => ty.arith && intI h ty d a
  | .imulh h ty d a b => ty.arith && ty.wide && int3 h ty d a b
  | .imad h _ ty d a b c => ty.arith && int4 h ty d a b c
  | .imin h ty d a b | .imax h ty d a b => ty.arith && int3 h ty d a b
  | .iminImm h ty d a _ | .imaxImm h ty d a _ => ty.arith && intI h ty d a
  | .iabs h _ ty d a | .ineg h _ ty d a => ty.signed && int2 h ty d a
  | .iaddc h ty d a b c => (ty == .n32 || ty == .n64) && !h.tr && c.isM && int3 h ty d a b
  | .icmp h rel ty d a b => ty.arith && cmpForm h (rel == .flags) d ty.width [a, b]
  | .icmpImm h rel ty d a _ => ty.arith && cmpForm h (rel == .flags) d ty.width [a]
  | .sel h ty d a b c => c.isM && int3 h ty d a b
  | .lea h ty _ d a b => ty.arith && ty.wide && valueForm h d 64 [(a, 64), (b, ty.width)]
  | .leaImm h ty d a _ => ty.arith && ty.wide && valueForm h d 64 [(a, 64)]
  | .clz h ty d a | .popc h ty d a => ty.bits && ty.width ≤ 64 && valueForm h d 32 [(a, ty.width)]
  | .and h ty d a b | .or h ty d a b | .xor h ty d a b | .andn h ty d a b => ty.bits && int3 h ty d a b
  | .andImm h ty d a _ | .orImm h ty d a _ | .xorImm h ty d a _ | .andnImm h ty d a _ => ty.bits && intI h ty d a
  | .not h ty d a => ty.bits && int2 h ty d a
  | .shl h ty d a b | .shr h ty d a b => (ty.bits || ty.unsigned) && ty.width ≤ 64 && int3 h ty d a b
  | .shlImm h ty d a i | .shrImm h ty d a i =>
    (ty.bits || ty.unsigned) && ty.width ≤ 64 && intI h ty d a && i.toNat < 256
  | .sar h ty d a b => ty.signed && int3 h ty d a b
  | .sarImm h ty d a i => ty.signed && intI h ty d a && i.toNat < 256
  | .rotl h ty d a b => ty.bits && ty.width ≤ 64 && int3 h ty d a b
  | .rotlImm h ty d a i => ty.bits && ty.width ≤ 64 && intI h ty d a && i.toNat < 256
  | .brev h ty d a => ty.bits && ty.width ≤ 64 && int2 h ty d a
  | .bfx h ty d a b => ty.arith && ty.wide && int3 h ty d a b
  | .bfxImm h ty d a i => ty.arith && ty.wide && intI h ty d a && i.toNat < 2 ^ 16
  | .bfi h ty d a b c => ty.isBW && int4 h ty d a b c
  | .mov h ty d a => int2 h ty d a
  | .movi h ty d _ => ty.width ≤ 64 && valueForm h d ty.width []
  | .bcast h ty d a => ty.isBW && h.predOk && h.trOk ty.width d && (d.isV || d.isQ) && d.value ty.width && a.isX
  | .laneget h ty d a b =>
    ty.isBW && h.predOk && h.trOk ty.width d && d.isX && (a.isV || a.isQ) && a.value ty.width && b.isX
  | .fadd h ty _ _ d a b | .fsub h ty _ _ d a b | .fmul h ty _ _ d a b => flt3 h ty d a b
  | .faddImm h ty _ _ d a i | .fsubImm h ty _ _ d a i | .fmulImm h ty _ _ d a i => flt2 h ty d a && fimmOk ty i
  | .ffma h ty _ _ d a b c =>
    ty.isF && valueForm h d ty.width [(a, ty.width), (b, ty.width), (c, ty.width)]
  | .fmin h ty _ d a b | .fmax h ty _ d a b => flt3 h ty d a b
  | .fminImm h ty _ d a i | .fmaxImm h ty _ d a i => flt2 h ty d a && fimmOk ty i
  | .fcmp h rel ty _ d a b => ty.isF && cmpForm h (rel == .flags) d ty.width [a, b]
  | .fcmpImm h rel ty _ d a i => ty.isF && cmpForm h (rel == .flags) d ty.width [a] && fimmOk ty i
  | .frcp h ty _ _ d a | .frsq h ty _ _ d a | .fsqrt h ty _ _ d a => flt2 h ty d a
  | .fdiv h ty _ _ d a b => flt3 h ty d a b
  | .fexp2 h ty _ _ d a | .flog2 h ty _ _ d a => ty != .f64 && flt2 h ty d a
  | .frnd h ty _ _ d a => flt2 h ty d a
  | .fcvt h src ty rm _ sat d a =>
    src != ty && src.isCvt && ty.isCvt && (!sat || ty == .e4m3 || ty == .e5m2) && !(ty == .e8m0 && rm == .sr) &&
      valueForm h d ty.width [(a, src.width)]
  | .icvt h toInt ity ty _ d a =>
    ity.arith && ty.isF &&
      (if toInt then valueForm h d ity.width [(a, ty.width)] else valueForm h d ty.width [(a, ity.width)])
  | .fclass h ty d a => ty.isCvt && valueForm h d 32 [(a, ty.width)]
  | .shfl h ty _ d a b =>
    h.lanes && ty.isBW && h.trOk ty.width d && d.isV && d.aligned ty.width && a.isV && a.aligned ty.width &&
      b.valueVX ty.width
  | .qxch h ty _ d a =>
    h.lanes && ty.isBW && h.trOk ty.width d && d.isV && d.aligned ty.width && a.isV && a.aligned ty.width
  | .ballot h ty d a =>
    h.predOk && ty.isBW && h.trOk 64 d && (d.isX || d.isM) && a.isV && a.aligned ty.width
  | .vote h ty _ d a => h.lanes && ty.isBW && !h.tr && d.isM && a.isV && a.aligned ty.width
  | .gred h op ty d a =>
    h.lanes && op != .exch && op.accepts ty && h.trOk ty.width d && d.valueVX ty.width && a.isV && a.aligned ty.width
  | .gscan h op ty _ d a =>
    h.lanes && op != .exch && op.accepts ty && h.trOk ty.width d && d.isV && d.aligned ty.width && a.isV &&
      a.aligned ty.width
  | .mfirst h d a | .mpopc h d a => h.predOk && h.trOk 32 d && d.isVX && a.isM
  | .mand h d a b | .mor h d a b | .mxor h d a b => h.once && d.isM && a.isM && b.isM
  | .mnot h d a => h.once && d.isM && a.isM
  | .mmov h d a => h.once && d.isM && (a.isM || a.isX)
  | .mtox h d a => h.noPred && d.isX && a.isM
  | .mfs h d num =>
    match specialReg num with
    | some (w, _) => h.predOk && h.trOk (specialWidth w) d && d.valueVX (specialWidth w)
    | none => false
  | .mts h num a =>
    match specialReg num with
    | some (w, rw) => h.predOk && !h.tr && rw && a.valueVX (specialWidth w)
    | none => false
  | .xgrow h lo hi | .xdrop h lo hi => h.once && (lo || hi)
  | .qcfg h _ depth base =>
    h.once && (if depth = 0 then base == 0
      else depth.toNat ≤ 8 && 32 ≤ base.toNat && base.toNat + depth.toNat ≤ 64)
  | .bra h _ slot _ => h.once && slot.toNat ≤ 4
  | .jmp h _ _ => h.once
  | .call h tgt link => h.once && tgt.ok && link.isX
  | .ret h link => h.once && link.isX
  | .wcall h _ tgt _ base | .gcall h _ tgt _ base => h.once && tgt.ok && base.vMult 2
  | .wret h _ base => h.once && base.vMult 2
  | .spawn h _ slot base => h.predOk && !h.tr && slot.toNat ≤ 4 && base.vMult 4
  | .spwait h a => h.once && a.isX
  | .exit h => h.predOk && !h.tr
  | .nop h => h.once
  | .mark h _ | .bkpt h _ | .trap h _ => h.once
  | .ld h ty scope ord d a =>
    memLanes h scope ord a && acqOnly ord && h.trOk ty.width d && d.valueVX ty.width && h.xdOk d [a.base]
  | .st h ty scope ord d a => memLanes h scope ord a && relOnly ord && !h.tr && d.valueVX ty.width
  | .lfull h scope ord a => memLanes h scope ord a && relOnly ord && !h.tr
  | .lempty h scope ord a => memLanes h scope ord a && acqOnly ord && !h.tr
  | .ltest h scope ord d a => memLanes h scope ord a && acqOnly ord && !h.tr && d.isM
  | .atom h op ty _ _ d a b =>
    h.predOk && a.ok && op.accepts ty && h.trOk ty.width d && d.valueVX ty.width && b.valueVX ty.width &&
      h.xdOk d [a.base, b]
  | .cas h ty _ ord facq d a b =>
    h.predOk && !h.tr && a.ok && (ty.isBW || ty == .b128) && (!facq || ord == .acq || ord == .ar) &&
      d.valueVX ty.width && b.valueVX ty.width && h.xdOk d [a.base, b]
  | .redm h op ty _ ord d a =>
    h.predOk && !h.tr && a.ok && relOnly ord && op != .exch && op.accepts ty && d.valueVX ty.width
  | .fence h _ ord => h.once && ord != .plain
  | .fenceFlag h scope ord d a => memOnce h scope ord a && ord.isRel && d.isX
  | .barinit h d a => h.once && a.base.isX && d.isX
  | .arrive h scope ord d a b => memOnce h scope ord a && relOnly ord && d.isX && b.isX
  | .waitb h scope ord d a => memOnce h scope ord a && acqOnly ord && d.isX
  | .cmdw h d a b =>
    h.predOk && !h.tr && d.vMult 8 && a.base.isX && b.isVX && h.xdOk b [d]
  | .notify h _ d a => h.once && a.base.isX && d.isX
  | .bclose h d | .bwait h d => h.once && d.isX
  | .pref h a | .prefTlb h a => h.predOk && !h.tr && a.ok
  | .eret h | .eretSkip h | .eretFwd h => h.once
  | .mfsr h r _ | .mtsr h r _ => h.once && r.isX
  | .tlbinv h scope r => h.once && (if scope = .all then r == .v 0 else r.isX)
  | .waitev h r ev => h.once && r.isX && ev != 0
  | .gang h a => h.once && a.isX
  | .mma h ty kc _ _ d a b ids =>
    h.once && (mmaK ty kc).isSome && d.isX && a.isX && b.vMult 4 &&
      (match ids with
       | none => true
       | some i => isNarrow ty && i.pos.xEven && i.scales.xEven)
  | .bdot h ty _ d a b c e _ _ =>
    h.lanes && isNarrow ty && h.trOk 32 d && d.isV && c.isV && e.xEven &&
      (if ty = .e2m1 then a.isV && b.isV else a.vMult 2 && b.vMult 2)
  | .accz h ty a => h.once && accTy ty && a.isX
  | .accrd h ty d a => h.lanes && !h.tr && accTy ty && a.isX && d.vMult (if ty = .f64 then 16 else 8)
  | .accrdSt h ty _ d a c _ => h.lanes && !h.tr && accTy ty && d.isX && a.isX && c.isX
  | .accwr h ty a b => h.lanes && !h.tr && accTy ty && a.isX && b.isV
  | .tidset h a _ => h.once && a.isX
  | .tidget h _ d _ => h.noPred && d.isX
  | .hadq h _ d a c e _ => h.lanes && !h.tr && d.isX && a.isV && c.isX && e.isX
  | .zmap h d _ => h.once && d.isX
  | .kclaim h logb d a b c => h.once && 4 ≤ logb.toNat && logb.toNat ≤ 12 && d.isX && a.isX && b.isX && c.isX
  | .kfree h e => h.once && e.isX
  | .kins h ty d a b e | .kprb h ty d a b e =>
    h.lanes && !h.tr && ty.isBW && d.isV && a.isV && b.isV && b.aligned ty.width && e.isX
  | .kdel h d a e => h.lanes && !h.tr && d.isV && a.isV && e.isX
  | .kacc h op ty d a b e =>
    h.lanes && !h.tr && op.accepts ty && d.isV && a.isV && b.isV && b.aligned ty.width && e.isX
  | .kdrn h ty _ _ _ d b c e => h.once && ty.isBW && d.isV && b.isV && b.aligned ty.width && c.isX && e.isX
  | .kstat h d e => h.once && d.xEven && e.isX
  | .slen h _ => h.once
  | .sgen h _ d a b => h.lanes && !h.tr && d.isS && a.isV && b.isX
  | .smul h d a b | .smin h d a b | .smax h d a b => h.lanes && !h.tr && d.isS && a.isS && b.isS
  | .snot h d a => h.lanes && !h.tr && d.isS && a.isS
  | .ssel h d a b c => h.lanes && !h.tr && d.isS && a.isS && b.isS && c.isS
  | .scnt h _ d a => h.lanes && d.isV && a.isS
  | .sregen h _ d a b => h.lanes && !h.tr && d.isS && a.isS && b.isX
  | .sbit h d a b => h.lanes && !h.tr && d.isM && a.isS && b.isX
  | .scls h d a => h.noPred && d.isX && a.isS
  | .coll h _ d a b c e => h.once && d.isX && a.isX && b.isX && c.isX && e.isX
  | .dsend h a b => h.lanes && !h.tr && a.vMult 4 && b.vMult 2
  | .dclose h d a => h.once && d.isX && a.isX
  | .qpush h _ d a e => h.lanes && !h.tr && d.isV && a.vMult 4 && e.isX
  | .qpop h _ stamp d b e =>
    h.lanes && !h.tr && d.vMult 4 && b.isV && e.isX && (match stamp with | none => true | some c => c.vMult 4)
  | .tile h d a b => h.once && d.isT && a.xEven && b.xEven
  | .longResultReturn _ _ | .switchUnpark _ | .emptylineLoadRead _ _ _ | .fetchLineReceive _ | .poolBlockGrant _
  | .registerGrowCheck _ | .binFireTimeout _ _ | .spawnedGroupStart _ _ | .pooledCallWithdraw _ _ | .teamPlace _
  | .timeSliceExpiry _ | .waitPriorityRaise _ | .swapCut _ | .swapOutComplete _ | .teamResume _ _ | .qbaseWrite _ _ _
  | .qctlWrite _ _ _ | .qtailWrite _ _ _ | .qabort _ _ _ | .packetRead _ | .dependencePoll _ | .launchComplete _
  | .copyCommandStart _ | .copyUnitLand _ _ | .copyCommandComplete _ | .ringstall _ | .gangForm _ | .gangDissolve _
  | .mmaStart _ | .mmaComplete _ | .subarrayPowerGate _ _ | .keyOpComplete _ | .chordOpComplete _ | .tlbinvComplete _
  | .collectiveComplete _ | .dispatchTokenArrive _ | .dispatchTokenDeliver _ | .dispstall _ | .softError _ _
  | .cpartWrite _ _ _ | .partitionMoveComplete _ | .doorbell _ _ | .ipqcfgWrite _ _ _ | .xpoolWrite _ _ _
  | .trsizelWrite _ _ _ | .elsizelWrite _ _ _ | .perfctlClr _ _ | .haltreq _ _ | .release _ _ | .dbgselWrite _ _ _
  | .crossTriggerArrive _ | .traceSample _ _ | .registerWrite _ _ _ _ | .ownerClaim _ _ _ | .ownerOffer _ _ _
  | .ownerTake _ _ _ | .ownerRelease _ _ _ | .ownerLinkDown _ | .ownerLinkUp _ | .ownerLinkTimeout | .attest _
  | .getcert _ | .update _ | .activate _ | .stage _ | .collpart _ | .resetreq _ _ | .perst | .clkstep
  | .hostOrPeerRequest _ _ _ _ | .peerPortLinkDown _ | .peerPortLinkUp _ | .eligibilityHistogramClock _ _ => true

end Sys2Proof
end

