-- ==== Sys2Proof/Machine/Ops.lean ====
section
/-! DEFINITION. The shared operations: reading and writing registers through the bypass (R192 to R195), the error log
(R437), taking an exception and returning from one (R400 to R408), delivery at `SW` = 1, and the issue of one
instruction around its body. -/

namespace Sys2Proof.Machine

/-! ## Reading registers (R181, R193, R194) -/

/-- The entries whose distance to the next instruction is at most 3, youngest first. -/
def Group.visible (g : Group) : List Bypassed :=
  g.bypass.filter (fun b => b.age ≤ 2)

/-- The value lane i of `Vn` has for the next instruction. -/
def Group.vLane (g : Group) (n : BitVec 6) (i : Nat) : Word32 :=
  let hit := g.visible.findSome? (fun b =>
    match b.w with
    | .v k lanes val => if k = n && lanes.getLsbD i then some (vlane val i) else none
    | _ => none)
  match hit with
  | some w => w
  | none => vlane (vget g.v n.toNat vzero) i

/-- The value of `Xn` for the next instruction. -/
def Group.xVal (g : Group) (n : BitVec 6) : Word64 :=
  let hit := g.visible.findSome? (fun b =>
    match b.w with
    | .x k val => if k = n then some val else none
    | _ => none)
  match hit with
  | some w => w
  | none => vget g.x n.toNat 0

/-- `Mn`; `M0` is the execution mask (R181). -/
def Group.mVal (g : Group) (n : BitVec 3) : Mask :=
  if n = 0 then g.exec else vget g.m n.toNat 0

def Group.cVal (g : Group) (n : BitVec 2) : BitVec 4 :=
  vget g.c n.toNat 0

/-- Does the group hold vector register n (R143, R165, R178, R243)? Registers above 63 are not held. -/
def Group.holdsV (g : Group) (n : Nat) : Bool :=
  if n < 32 then n < g.vlim
  else if n < 48 then g.lo && (g.vlim ≤ 32 || n < g.vlim)
  else if n < 64 then g.hi && (g.vlim ≤ 48 || n < g.vlim)
  else false

/-- Does the group hold the k registers from n on? -/
def Group.holdsRange (g : Group) (n k : Nat) : Bool :=
  (List.range k).all (fun i => g.holdsV (n + i))

/-- The pool blocks a group holds, those its self-folds hide included (R143). -/
def Group.blocks (g : Group) : Nat :=
  g.lo.toNat + g.hi.toNat +
    (g.folds.map (fun f => (f.lo && !(32 < f.calling.tgt.rc.vregs)).toNat + (f.hi && !(48 < f.calling.tgt.rc.vregs)).toNat)).sum

/-- The live lanes: in the execution mask and not helpers (R135). -/
def Group.live (g : Group) : Mask :=
  g.exec &&& ~~~g.helper

/-- The lanes whose predicate passes (R161), in the execution mask: `active` of R11. -/
def Group.active (g : Group) (h : Hdr) : Mask :=
  if h.pm = 0 then g.exec
  else if h.pn then g.exec &&& ~~~(g.mVal h.pm) else g.exec &&& g.mVal h.pm

/-- The lanes of `active` that are not helpers (R197). -/
def Group.contributors (g : Group) (h : Hdr) : Mask :=
  g.active h &&& ~~~g.helper

/-! ## Writing registers -/

/-- Merge lanes of a vector register. -/
def vmerge (lanes : Mask) (new old : VReg) : VReg :=
  vreg (fun i => if lanes.getLsbD i then vlane new i else vlane old i)

/-- Write the file (R178): `M0` is discarded (R181). -/
def Group.put (g : Group) (w : RegWrite) : Group :=
  match w with
  | .v n lanes val => { g with v := vset g.v n.toNat (vmerge lanes val (vget g.v n.toNat vzero)) }
  | .x n val => { g with x := vset g.x n.toNat val }
  | .m n lanes val =>
    if n = 0 then g
    else { g with m := vset g.m n.toNat ((val &&& lanes) ||| (vget g.m n.toNat 0 &&& ~~~lanes)) }
  | .c n val => { g with c := vset g.c n.toNat val }
  | .t n val => { g with t := vset g.t n.toNat (some val) }

/-- One result delivered: with `TR` it stays in the bypass only (R193). -/
def Group.deliver (g : Group) (tr : Bool) (w : RegWrite) : Group :=
  let g' := if tr then g else g.put w
  { g' with bypass := ⟨w, 0⟩ :: g'.bypass }

/-- Deliver several results, the last becoming the youngest. -/
def Group.deliverAll (g : Group) (tr : Bool) (ws : List RegWrite) : Group :=
  ws.foldl (fun g w => g.deliver tr w) g

/-- One more instruction of the group has issued: every bypass entry ages (R193) (log entry 30, DEDUCED). -/
def Group.age (g : Group) : Group :=
  { g with bypass := (g.bypass.map (fun b => { b with age := b.age + 1 })).filter (fun b => b.age ≤ 2) }

/-- Undelivered results without what they hold for the registers of p. -/
def forgetLong (p : RegWrite → Bool) (pend : List Long) : List Long :=
  pend.map (fun l => { l with writes := l.writes.filter (fun w => !p w) })

/-- A bypass without what it holds for the registers of p. -/
def forgetBypass (p : RegWrite → Bool) (b : List Bypassed) : List Bypassed :=
  b.filter (fun b => !p b.w)

/-- Drop what the bypass and the undelivered results hold for the registers of p, those of interrupted levels too (R195,
R221). -/
def Group.forget (g : Group) (p : RegWrite → Bool) : Group :=
  let sh (x : Shadow) : Shadow := { x with bypass := forgetBypass p x.bypass, pend := forgetLong p x.pend }
  { g with
    bypass := forgetBypass p g.bypass
    pend := forgetLong p g.pend
    hset := g.hset.map sh
    sset := g.sset.map sh }

/-- A write to a vector register numbered from lo to hi − 1. -/
def RegWrite.inV (lo hi : Nat) : RegWrite → Bool
  | .v n _ _ => lo ≤ n.toNat && n.toNat < hi
  | _ => false

/-! ## Code addresses (R89, R156, R157) -/

/-- The low bits of a code address are those of a slot. -/
def slotOk (a : Word64) : Bool :=
  a.toNat % 64 % 12 == 0 && a.toNat % 64 ≤ 48

/-- The slot number of a code address. -/
def slotOf (a : Word64) : Nat :=
  a.toNat % 64 / 12

/-- The slot after a code address (R156). -/
def nextSlot (a : Word64) : Word64 :=
  if slotOf a = 4 then a - 48 + 64 else a + 12

/-- The line of a code address. -/
def lineAddr (a : Word64) : Word64 :=
  a - BitVec.ofNat 64 (a.toNat % 64)

/-- The line word of a line's bits (R90). -/
def lineWord (b : BitVec 512) : Word32 :=
  b.extractLsb' 480 32

/-- The parity of a line (R92). -/
def lineParity (b : BitVec 512) : BitVec 16 :=
  let body := (List.range 30).foldl (fun p i => p ^^^ b.extractLsb' (16 * i) 16) 0#16
  body ^^^ b.extractLsb' 496 16

/-- Slot k is the second of a pair the template joins (R91). -/
def pairSecond (template : Nat) (k : Nat) : Bool :=
  match template with
  | 1 => k == 1
  | 2 => k == 2
  | 3 => k == 3
  | 4 => k == 4
  | 5 => k == 1 || k == 3
  | 6 => k == 2 || k == 4
  | 7 => k == 1 || k == 4
  | _ => false

/-- The line the group holds for a code address, if any. -/
def Group.lineAt (g : Group) (a : Word64) : Option FetchLine :=
  match g.line with
  | some l => if l.va = lineAddr a then some l else none
  | none => none

/-- The rights of a group's accesses and fetches. -/
def State.accessor (s : State) (g : Group) : Accessor :=
  match s.team? g.team with
  | some t => { part := s.partOf t, sup := g.mode == .supervisor, core := g.core, tlb := g.core, team := some t }
  | none => { part := 0, sup := g.mode == .supervisor, core := g.core, tlb := g.core, team := none }

/-- The rights of the front-end and of the engines of a partition, which reach no local window. -/
def engineOf (part : Nat) : Accessor :=
  { part := part, sup := false, core := none, tlb := none, team := none }

/-- Read a line as a fetch of the group does (R157, R414) (log entry 32, DEDUCED). -/
def State.fetchLine (s : State) (a : Accessor) (va : Word64) : FetchLine :=
  match s.locOf a .fetch va with
  | .error c => { va := va, pa := 0, bits := 0, parBad := false, poison := none, fault := some c }
  | .ok loc =>
    let bits := BitVec.ofNat 512 (s.readNat loc 64)
    { va := va, pa := loc, bits := bits, parBad := lineParity bits != bits.extractLsb' 480 16,
      poison := (s.poisonIn loc 64).map (fun u => va + BitVec.ofNat 64 (u - loc)), fault := none }

/-- The bits of a line read for a transfer, or the cause that its read takes (R157). -/
def State.codeLine (s : State) (a : Accessor) (va : Word64) : Except Cause (BitVec 512) :=
  let l := s.fetchLine a va
  match l.fault with
  | some c => .error c
  | none => if l.poison.isSome then .error .poison else .ok l.bits

/-! ## Safe points (R102, R103) -/

/-- The range of safe-point ordinals of the function that holds a line: that of the nearest entry record at or before
the line before it, at most fuel lines back (log entry 11, DEDUCED). A line that cannot be read, or holds poison, ends the
search: its slots are no stop sites (log entry 11, DESIGN CHOICE). -/
def State.functionRange (s : State) (a : Accessor) (line : Word64) : Nat → Option (Nat × Nat)
  | 0 => none
  | fuel + 1 =>
    match s.codeLine a line with
    | .error _ => none
    | .ok b =>
      if (lineWord b).getLsbD 16 then some (bitsN b 31 0, bitsN b 47 32)
      else s.functionRange a (line - 64) fuel

/-- The first ordinal of a range whose `SAFEPT` entry has this address; an entry that cannot be read, or holds poison, ends
the search (log entry 11, DESIGN CHOICE). -/
def State.findSafept (s : State) (a : Accessor) (tab : Word64) (addr : Word64) : List Nat → Option Nat
  | [] => none
  | k :: ks =>
    match s.readVa a .read (tab + BitVec.ofNat 64 (32 * k + 24)) 8 with
    | .ok v => if v = addr.toNat then some k else s.findSafept a tab addr ks
    | .error _ => none

/-- The safe-point ordinal of a slot whose `ST` bit is 1, in the range of its function (R103). The lines and the table are read
with the supervisor's rights (log entry 11, DESIGN CHOICE). -/
def State.ordinal (s : State) (g : Group) (addr : Word64) : Option Nat :=
  match s.team? g.team with
  | none => none
  | some t =>
    let a := { s.accessor g with sup := true }
    let v := s.valsOf t
    match s.codeLine a (lineAddr addr) with
    | .error _ => none
    | .ok b =>
      if b.getLsbD (96 * slotOf addr + 70) then
        match s.functionRange a (lineAddr addr) (addr.toNat / 64 + 1) with
        | none => none
        | some (base, n) =>
          s.findSafept a v.sptab addr (((List.range n).map (base + ·)).filter (· < v.sptot.toNat))
      else none

/-- The value of a safe-point field: the ordinal, or `0xFFFF_FFFF`. -/
def spordOf (o : Option Nat) : Word32 :=
  match o with
  | some k => BitVec.ofNat 32 k
  | none => 0xFFFF_FFFF

/-! ## The error log (R437, R449) -/

/-- `GID` of a group: `CORENUM` << 7 | slot (R422). -/
def Group.gid16 (g : Group) : BitVec 16 :=
  match g.core with
  | some c => BitVec.ofNat 16 (c * 128 + g.slot)
  | none => 0xFFFF

/-- Set bits of `EVPEND` in every group of a team; for a team that is away, the front-end keeps them (R409, R418). -/
def State.setEvents (s : State) (team : Nat) (bits : BitVec 16) : State :=
  { s with
    groups := s.groups.map (fun g => if g.team == team && g.core.isSome then { g with evpend := g.evpend ||| bits } else g)
    teams := s.teams.map (fun t => if t.id == team && t.core.isNone then { t with evpend := t.evpend ||| bits } else t) }

/-- Raise the error interrupt of a master (R437, R442); 0 is no master (R438). -/
def State.raise (s : State) (master : Nat) : State :=
  if master = 0 then s else { s with mgmt := { s.mgmt with irq := vmod s.mgmt.irq master 0 (· + 1) } }

/-- The owner's master id (R440). -/
def State.owner (s : State) : Nat :=
  bitsN s.mgmt.owner 7 0

/-- One event of the error log (R437): which die, kind, partition, group, unit, `AUX`, and `DATA` from byte 24 on. -/
structure LogEvent where
  die : Nat
  kind : Nat
  part : Nat := 0xFF
  gid : BitVec 16 := 0xFFFF
  unit : Nat := 0
  aux : Nat := 0
  data : List Byte := []
  team : Option Nat := none

/-- The 64 bytes of an entry. -/
def LogEvent.bytes (e : LogEvent) (time : Word64) (seq : BitVec 48) : List Byte :=
  (bytesOf 8 time.toNat ++ bytesOf 6 seq.toNat ++ bytesOf 1 e.kind ++ bytesOf 1 e.part ++ bytesOf 2 e.gid.toNat ++
    bytesOf 2 e.unit ++ bytesOf 4 e.aux ++ e.data ++ List.replicate 40 0).take 64

/-- Log an event: the ring entry where the die has a ring, the owner's interrupt, `ERRLOG` in the team's groups (log entry
34, DEDUCED). A ring runs on past the end of main memory: only its base is checked (log entry 19, DESIGN CHOICE). -/
def State.log (s : State) (e : LogEvent) : State :=
  let d := s.die e.die
  let s1 :=
    if d.elsizel = 0 then s
    else
      let s' := s.write (d.elbase.toNat + 64 * (d.elhead.toNat % 2 ^ d.elsizel.toNat)) (e.bytes s.time (d.elSeq + 1))
      s'.modDie e.die (fun d => { d with elhead := d.elhead + 1, elSeq := d.elSeq + 1 })
  let s2 := s1.raise s.owner
  match e.team with
  | some t => s2.setEvents t 2
  | none => s2

/-- The entry of a line that a group of a core reads with a parity mismatch (R177), a line of a slice under its global-window
address (R449; log entry 47, DEDUCED). -/
def State.logParity (s : State) (g : Group) (l : FetchLine) : State :=
  let core := g.core.getD 0
  s.log { die := dieOf core, kind := 1, part := (s.accessor g).part, gid := g.gid16, unit := dieOf core * 4096 + core % 68,
          aux := (lineParity l.bits ^^^ l.bits.extractLsb' 480 16).toNat + (g.slot / 32) * 2 ^ 16,
          data := bytesOf 8 (unitHome l.pa).2.2, team := some g.team }

/-- Has a line been read whose parity does not match? -/
def FetchLine.mismatch (l : FetchLine) : Bool :=
  l.fault.isNone && l.parBad

/-- The reads of some lines by a group, with an entry for each that mismatches (R157, R177). -/
def State.readLines (s : State) (g : Group) (vas : List Word64) : State :=
  vas.foldl (fun s va => let l := s.fetchLine (s.accessor g) va; if l.mismatch then s.logParity g l else s) s

/-! ## Translations held (R415, R424) -/

/-- Add to event counter i of a core (R424). -/
def State.addEvent (s : State) (core i n : Nat) : State :=
  s.modCore core (fun c => if c.frz then c else { c with events := vmod c.events i 0 (· + BitVec.ofNat 48 n) })

/-- A TLB of n entries takes one more; a full one first drops an entry that the spec leaves open. -/
def tlbInsert (n : Nat) (use : Nat) (e : TlbEntry) (l : List TlbEntry) : List TlbEntry :=
  (if l.length < n then l else l.eraseIdx (Config.tlbVictim use % l.length)) ++ [e]

/-- A core looks up an address (R415): a miss of its TLB is counted, a miss of its die's is a walk, and what is found is
held from then on (R424; log entry 55, DEDUCED). -/
def State.lookUp (s : State) (core part : Nat) (va : Word64) : State :=
  if SRAM_BASE ≤ va.toNat || (s.coreTlb core part va).isSome then s
  else
    let s1 := s.addEvent core 3 1
    let s2 : State := if (s.dieTlb core part va).isSome then s1 else s1.addEvent core 4 1
    match s.leaf (some core) part va with
    | .error _ => s2
    | .ok l =>
      let e := l.entry part va
      let s3 := s2.modDie (dieOf core) (fun d =>
        if (s.dieTlb core part va).isSome then d else { d with tlb := tlbInsert 16384 s.freeCtr e d.tlb })
      { s3.modCore core (fun c => { c with tlb := tlbInsert 512 (s.freeCtr + 1) e c.tlb }) with freeCtr := s.freeCtr + 2 }

/-- A group of a core looks up some addresses. -/
def State.lookUpAll (s : State) (g : Group) (vas : List Word64) : State :=
  match g.core with
  | none => s
  | some c => vas.foldl (fun s va => s.lookUp c (s.accessor g).part va) s

/-! ## Faults (R400 to R405) -/

/-- The code of a cause (R402). -/
def Cause.code : Cause → Nat
  | .illop => 0x01 | .badtgt => 0x02 | .fetchpar => 0x03 | .priv => 0x04 | .misalign => 0x05 | .unmapped => 0x06
  | .pageflt => 0x07 | .perm => 0x08 | .badord => 0x09 | .scrprot => 0x0A | .notscr => 0x0B | .poison => 0x0C
  | .atomspace => 0x0D | .noxblk => 0x10 | .xgrowbig => 0x11 | .qempty => 0x12 | .qfull => 0x13 | .nostrm => 0x14
  | .badentry => 0x18 | .badwidth => 0x19 | .wdepth => 0x1A | .frameovf => 0x1B | .badtrec => 0x20 | .badtid => 0x21
  | .badtile => 0x22 | .gangmis => 0x23 | .noacc => 0x24 | .badring => 0x28 | .badcmd => 0x29 | .badcoll => 0x2A
  | .qperm => 0x2B | .khandle => 0x30 | .kbadclaim => 0x31 | .corrmix => 0x32 | .trap => 0x38 | .bkpt => 0x39

/-- The causes whose first handler is the core supervisor (R402). -/
def Cause.isS : Cause → Bool
  | .fetchpar | .priv | .misalign | .pageflt => true
  | _ => false

/-- What a fault tells its record (R403). `late` is the load of a fault at a delivery point, with its ordinal; `looked` are the
addresses that the instruction had looked up before (R424). -/
structure Trap where
  cause : Cause
  lane : Option Nat := none
  addr : Word64 := 0
  detail : Word32 := 0
  late : Option (Word64 × Word32) := none
  looked : List Word64 := []
  deriving DecidableEq, Repr

/-- The causes that a translation gives (R414). -/
def Cause.isWalk : Cause → Bool
  | .unmapped | .pageflt | .perm | .badord => true
  | _ => false

/-- The addresses that a faulting instruction has looked up: those before the fault, and the one whose translation failed. -/
def Trap.looks (t : Trap) : List Word64 :=
  t.looked ++ (if t.cause.isWalk then [t.addr] else [])

/-- A fault of a group as a whole. -/
def trapOf (c : Cause) : Trap :=
  { cause := c }

/-- A fault that names an address. -/
def trapAt (c : Cause) (addr : Word64) : Trap :=
  { cause := c, addr := addr }

/-- A fault of one lane, which names an address (log entry 27, DEDUCED). -/
def trapLane (c : Cause) (lane : Nat) (addr : Word64) : Trap :=
  { cause := c, lane := some lane, addr := addr }

/-- A fault of one lane that names no address (R12, R403). -/
def trapIn (c : Cause) (lane : Nat) : Trap :=
  { cause := c, lane := some lane }

/-- Is the slot at an address the second of a joined pair? By the line as it is held or read (R403). -/
def State.isSecond (s : State) (g : Group) (addr : Word64) : Bool :=
  match g.lineAt addr with
  | some l => pairSecond (bitsN (lineWord l.bits) 26 24) (slotOf addr)
  | none =>
    match s.codeLine { s.accessor g with sup := true } (lineAddr addr) with
    | .ok b => pairSecond (bitsN (lineWord b) 26 24) (slotOf addr)
    | .error _ => false

/-- The cause record of a fault at the group's pc (R403). -/
def State.causeRec (s : State) (g : Group) (t : Trap) : CauseRec :=
  let at_ := match t.late with | some (a, _) => a | none => g.pc
  let ord := match t.late with | some (_, o) => o | none => spordOf (s.ordinal g g.pc)
  let lane := match t.lane with | some l => l % 64 | none => 0
  { x56 := BitVec.ofNat 64 (t.cause.code + lane * 2 ^ 8 + t.lane.isSome.toNat * 2 ^ 14 +
      (s.isSecond g at_).toNat * 2 ^ 15 + t.detail.toNat * 2 ^ 16 + t.late.isSome.toNat * 2 ^ 48)
    x57 := t.addr
    x58 := at_
    x59 := ord.setWidth 64 }

/-- The 32 bytes of a cause record in the log (R449). -/
def CauseRec.bytes (r : CauseRec) : List Byte :=
  bytesOf 8 r.x56.toNat ++ bytesOf 8 r.x57.toNat ++ bytesOf 8 r.x58.toNat ++ bytesOf 8 r.x59.toNat

def HaltReason.code : HaltReason → Nat
  | .dblfault => 1
  | .supfault => 2
  | .nohandler => 3

/-- A halt (R401): the group stays at the instruction and one `HALT` entry is logged. -/
def State.halt (s : State) (g : Group) (why : HaltReason) (r : CauseRec) : State :=
  let core := g.core.getD 0
  let part := (s.accessor g).part
  (s.setGroup { g with halted := some why, wait := none }).log
    { die := dieOf core, kind := 4, part := part, gid := g.gid16, unit := dieOf core * 4096 + core % 68,
      aux := why.code, data := r.bytes, team := some g.team }

/-- The shadow set an entry fills (R404). -/
def Group.shadow (g : Group) (ret : Word64) (r : CauseRec) : Shadow :=
  { ret := ret, mode := g.mode, exec := g.exec, helper := g.helper, c := g.c, fstat := g.fstat, srctr := g.srctr,
    x := vecOf 8 (fun i => vget g.x (56 + i) 0), bypass := g.bypass, pend := g.pend, prog := g.prog, cause := r }

/-- The uniform registers with the cause record in `X56` to `X59` and 0 in `X60` to `X63` (R404). -/
def entryX (x : Vector Word64 64) (r : CauseRec) : Vector Word64 64 :=
  vset (vset (vset (vset (vset (vset (vset (vset x 56 r.x56) 57 r.x57) 58 r.x58) 59 r.x59) 60 0) 61 0) 62 0) 63 0

/-- The group's state at an entry (R404). `LASTSP` is reset (R425). -/
def Group.enter (g : Group) (m : Mode) (pc : Word64) (r : CauseRec) : Group :=
  { g with
    mode := m, pc := pc, exec := g.live, helper := 0, c := Vector.replicate 4 0, fstat := 0, bypass := [], pend := [],
    x := entryX g.x r, wait := none, prog := 0, pass := .no, lastsp := 0xFFFF_FFFF, steps := 0 }

/-- The handler's entry slot passes the target check of R157 with slot 0 required, or cannot be read at all (R405). -/
def State.handlerOk (s : State) (g : Group) (pc : Word64) : Bool :=
  pc.toNat % 64 == 0 &&
    (match s.codeLine { s.accessor g with sup := false } pc with
     | .ok b => (lineWord b).getLsbD 27
     | .error _ => true)

/-- `PTVEC` of the group's partition (R406). -/
def State.ptvec (s : State) (g : Group) : Word64 :=
  BitVec.ofNat 64 (bitsN (s.part (s.accessor g).part).ptvec 55 0)

/-- Handler entry, or the halt `NOHANDLER` (R404, R405). The handler's line is read for the check of its target. -/
def State.enterHandler (s : State) (g : Group) (ret : Word64) (r : CauseRec) : State :=
  let pc := s.ptvec g
  if pc = 0 || pc.toNat % 64 ≠ 0 then s.halt g .nohandler r
  else
    let user := { g with mode := .handler }
    let s1 := s.readLines user [pc]
    let g1 := if (s.fetchLine (s.accessor user) pc).mismatch then { g with evpend := g.evpend ||| 2 } else g
    if s.handlerOk g pc then s1.setGroup ({ g1 with hset := some (g.shadow ret r) }.enter .handler pc r)
    else s1.halt g1 .nohandler r

/-- Supervisor entry (R404); it never fails (R405). What the firmware does for a misaligned access is its own (R257, R411);
for another cause the code at `SVEC` runs (log entry 8, DEDUCED). -/
def State.enterSupervisor (s : State) (g : Group) (ret : Word64) (r : CauseRec) : State :=
  s.setGroup { { g with sset := some (g.shadow ret r) }.enter .supervisor (s.core (g.core.getD 0)).svec r with
    firmware := if r.x56.toNat % 2 ^ 8 = Cause.code .misalign then some .start else none }

/-- Take an exception with its record and return address by the mode at the fault (R401). -/
def State.takeRec (s : State) (g : Group) (c : Cause) (ret : Word64) (r : CauseRec) : State :=
  match g.mode, c.isS with
  | .user, false => s.enterHandler g ret r
  | .user, true => s.enterSupervisor g ret r
  | .handler, false => s.halt g .dblfault r
  | .handler, true => s.enterSupervisor g ret r
  | .supervisor, _ => s.halt g .supfault r

/-- Take a fault at the group's pc. The return address is the faulting slot; at a delivery point the pc is already the
slot after (R258, R404). -/
def State.take (s : State) (g : Group) (t : Trap) : State :=
  s.takeRec g t.cause g.pc (s.causeRec g t)

/-- Restore a shadow set (R408): every shadowed item and the mode. -/
def Group.restore (g : Group) (sh : Shadow) (pc : Word64) : Group :=
  { g with
    mode := sh.mode, pc := pc, exec := sh.exec, helper := sh.helper, c := sh.c, fstat := sh.fstat, srctr := sh.srctr,
    x := vecOf 64 (fun i => if 56 ≤ i then vget sh.x (i - 56) 0 else vget g.x i 0),
    bypass := sh.bypass, pend := sh.pend, prog := sh.prog, wait := none }

/-- The innermost shadow set of a group in handler or supervisor mode. -/
def Group.innermost (g : Group) : Option Shadow :=
  match g.mode with
  | .user => none
  | .handler => g.hset
  | .supervisor => g.sset

/-- Leave the innermost level, back to an address (R408): its set is used up. -/
def Group.leave (g : Group) (sh : Shadow) (pc : Word64) : Group :=
  match g.mode with
  | .user => g
  | .handler => { g.restore sh pc with hset := none, hret := some sh.ret }
  | .supervisor => { g.restore sh pc with sset := none, firmware := none }

/-! ## Creating a group -/

/-- A group as it stands before its maker fills in what R126, R154 or R243 gives: every register 0, user mode,
execution mask empty. -/
def Group.blank (id team : Nat) (core slot : Nat) (kind : Kind) (now : Word64) : Group :=
  { id := id, team := team, core := some core, slot := slot, kind := kind, index := 0, teamNo := 0, cohort := 0, gx := 0,
    gy := 0, gz := 0, widx := vzero, wcnt := Vector.replicate 64 1, pc := 0, v := Vector.replicate 64 vzero, lo := false,
    hi := false, vlim := 64, x := Vector.replicate 64 0, exec := 0, helper := 0, m := Vector.replicate 8 0,
    c := Vector.replicate 4 0, q := Vector.replicate 8 ⟨0, 0, 0, 0⟩, t := Vector.replicate 4 none, swin := 0, len := 0,
    gmem := 0, fstat := 0, srseed := 0, srctr := 0, batch := 0, evpend := 0, peergen := 0, mode := .user, depth := 0,
    bypass := [], pend := [], hset := none, sset := none, hret := none, firmware := none, wait := none, prog := 0, calling := none,
    folds := [], gang := none, halted := none, stopped := false, pass := .no, lastsp := 0xFFFF_FFFF, steps := 0,
    line := none, created := now, sampled := true }

/-- Group g of a team at its launch (R126). -/
def Group.launched (id : Nat) (t : Team) (l : Launch) (core slot : Nat) (g : Nat) (now : Word64) : Group :=
  { Group.blank id t.id core slot .launched now with
    index := BitVec.ofNat 32 g
    teamNo := BitVec.ofNat 32 t.l
    cohort := BitVec.ofNat 32 (t.l / max 1 l.vals.coht)
    gx := BitVec.ofNat 32 (t.l % max 1 l.vals.gx)
    gy := BitVec.ofNat 32 (t.l / max 1 l.vals.gx % max 1 l.vals.gy)
    gz := BitVec.ofNat 32 (t.l / max 1 l.vals.gx / max 1 l.vals.gy)
    pc := l.vals.entry
    x := vset (vset (Vector.replicate 64 0) 0 (l.pkt.extractLsb' 896 64)) 1 l.addr
    exec := BitVec.allOnes 64
    srseed := l.pkt.extractLsb' 704 64
    srctr := BitVec.ofNat 64 ((t.l * 16 + g) * 2 ^ 32)
    peergen := t.peergen }

/-- A team as it stands before placement. -/
def Team.blank (id launch l : Nat) (now : Word64) : Team :=
  { id := id, launch := launch, spawn := false, l := l, core := none, home := 0, swap := .resident, first := now,
    since := now, raised := false, nofit := false, off := 0, spawned := 0, tids := [], scale := [], scaleBad := [],
    dts := [], dtsBad := [], streams := [],
    kts := [], areas := [], peergen := 0, past := [], image := none, held := [], bins := [], evpend := 0 }

/-! ## Delivery at SW = 1 (R192, R258) -/

/-- Has every outstanding result returned? -/
def Group.allReturned (g : Group) : Bool :=
  g.pend.all (fun l => l.returned)

/-- Deliver every undelivered result in issue order; a load that met poison writes no register. -/
def Group.deliverPend (g : Group) : Group :=
  { g.pend.foldl (fun g l => if l.poison.isEmpty then g.deliverAll l.tr l.writes else g) g with pend := [] }

/-- The fault of a load that met poison while it waited: its lowest such lane (R12, R258). -/
def Long.poisonTrap (l : Long) : Option Trap :=
  match l.poison with
  | [] => none
  | p :: ps =>
    let low := ps.foldl (fun a b => if b.1.toNat < a.1.toNat then b else a) p
    some { cause := .poison, lane := some low.1.toNat, addr := low.2 }

/-- The fault of the oldest load that met poison while it waited (R258). -/
def Group.latePoison (g : Group) : Option Trap :=
  (g.pend.find? (fun l => !l.poison.isEmpty)).bind (fun l =>
    l.poisonTrap.map (fun t => { t with late := some (l.at_, l.spord) }))

/-- The fault of a load with `SW` = 1 at which the group is parked, and the group as before it: every lane has read before the
group issues past the load, so that the fault is taken at the load (R258). -/
def Group.ownPoison (g : Group) : Option (Trap × Group) :=
  match g.pend.getLast? with
  | none => none
  | some l =>
    match l.prior, l.poisonTrap with
    | some b, some t => some (t, { g with pc := l.at_, bypass := b, pend := g.pend.dropLast, wait := none })
    | _, _ => none

/-- The delivery: results into the registers, then the fault of a poisoned load if there is one; a load with `SW` = 1 that met
poison takes it instead, and nothing is delivered. -/
def State.deliver (s : State) (g : Group) : State :=
  match g.ownPoison with
  | some (t, g0) => s.take g0 t
  | none =>
    let g' := { g.deliverPend with wait := none }
    match g.latePoison with
    | none => s.setGroup g'
    | some t => s.take g' t

/-! ## Hits (R429, R434) -/

/-- Append a hit record and halt the context (R429, R434): the cross-trigger sets out to every core of the partition. -/
def State.hit (s : State) (part : Nat) (r : HitRec) : State :=
  s.modPart part (fun p =>
    { p with
      hits := if p.hits.length < 16 then p.hits ++ [r] else p.hits
      dbglost := if p.hits.length < 16 || p.dbglost = 0xFFFF_FFFF then p.dbglost else p.dbglost + 1
      trig := if p.halted then p.trig
        else (List.range 272).filter (fun c => (vget s.cores c Core.reset).part == BitVec.ofNat 4 part)
      halted := true })

/-- A hit record by a group (R434): kind, stop site, steps, reads and writes, number, address. -/
def State.hitRec (s : State) (g : Group) (kind : Nat) (spord : Word32) (steps : BitVec 8) (rd wr : Bool) (num : Nat)
    (addr : Word64) : HitRec :=
  let seq := match g.core with | some c => vget (s.core c).slotSeq g.slot 0 | none => 0
  s.time ++ seq ++ g.gid16 ++ spord ++ steps ++ BitVec.ofNat 8 kind ++ 0#1 ++ BitVec.ofBool wr ++ BitVec.ofBool rd ++
    BitVec.ofNat 5 num ++ 0#8 ++ addr

/-! ## Watchpoints (R427, R428) -/

/-- An address through the one name a scratchpad byte has for a watch: its global window address (R428). -/
def watchName (core : Option Nat) (va : Word64) : Nat :=
  match regionOf core va with
  | .scratch c off => SRAM_BASE + c / 68 * 2 ^ 27 + c % 68 * 2 ^ 20 + off
  | _ => va.toNat

/-- The bytes that watchpoint w watches from its base on; a range in the local window ends with it (R427, R428). -/
def watchLen (w : BitVec 128) : Nat :=
  let base := bitsN w 55 0
  if LOCAL_BASE ≤ base && base < LOCAL_BASE + 2 ^ 20 then min (bitsN w 95 64) (LOCAL_BASE + 2 ^ 20 - base) else bitsN w 95 64

/-- The lowest byte of an access of n bytes that watchpoint w watches, as an offset from the access. -/
def watchTouch (w : BitVec 128) (core : Option Nat) (va : Word64) (n : Nat) (rd wr : Bool) : Option Nat :=
  let base := watchName core (BitVec.ofNat 64 (bitsN w 55 0))
  let len := watchLen w
  let a := watchName core va
  if w.getLsbD 63 && len ≠ 0 && ((w.getLsbD 61 && rd) || (w.getLsbD 62 && wr)) && a < base + len && base < a + n then
    some (base - a)
  else none

/-- One access: its virtual address, its size, whether it reads and writes; a probe does neither. -/
structure Touch where
  va : Word64
  n : Nat
  rd : Bool
  wr : Bool
  deriving DecidableEq, Repr

/-- The lowest watched byte that some accesses touch, and whether the hit accesses read and write. -/
def watchLowest (w : BitVec 128) (core : Option Nat) (ts : List Touch) : Option (Word64 × Bool × Bool) :=
  ts.foldl (fun acc t =>
    match watchTouch w core t.va t.n t.rd t.wr with
    | none => acc
    | some k =>
      let a := t.va + BitVec.ofNat 64 k
      let rd := t.rd && w.getLsbD 61
      let wr := t.wr && w.getLsbD 62
      match acc with
      | none => some (a, rd, wr)
      | some (b, r, v) => some (if a.toNat < b.toNat then a else b, r || rd, v || wr)) none

/-- The hits of an instruction's accesses, one for each watchpoint, after the accesses (R428, log entry 17, DEDUCED). -/
def State.watch (s : State) (g : Group) (ts : List Touch) : State :=
  let part := (s.accessor g).part
  let p := s.part part
  if p.arm then
    (List.range 4).foldl (fun s i =>
      match watchLowest (vget p.wp i 0) g.core ts with
      | none => s
      | some (a, rd, wr) => s.hit part (s.hitRec g 3 g.lastsp g.steps rd wr i a)) s
  else s

/-- The hits of an engine operation that writes some ranges (R428). -/
def State.watchEngine (s : State) (f : Fork) (ranges : List (Word64 × Nat)) : State :=
  let p := s.part f.part
  if p.arm then
    (List.range 4).foldl (fun s i =>
      match watchLowest (vget p.wp i 0) f.core (ranges.map (fun r => ⟨r.1, r.2, false, true⟩)) with
      | none => s
      | some (a, _, _) => s.hit f.part
          (s.time ++ f.seq ++ f.gid ++ f.spord ++ 0#8 ++ 4#8 ++ BitVec.ofBool (s.group? f.issuer).isNone ++ 1#1 ++ 0#1 ++
            BitVec.ofNat 5 i ++ 0#8 ++ a)) s
  else s

/-- What the completed accesses of a group bring about: translations held, and hits (R415, R428). -/
def State.accessed (s : State) (g : Group) (ts : List Touch) : State :=
  if ts.isEmpty then s else (s.lookUpAll g (ts.map (fun t => t.va))).watch g ts

/-! ## The issue of one instruction -/

/-- A long result a body returns. -/
structure LongOut where
  writes : List RegWrite
  unit : LongUnit := .other
  returned : Bool := false
  load : Option LoadInfo := none
  gate : Option (Nat × Word32) := none
  deriving DecidableEq, Repr

/-- What a body that takes effect gives: the state, the group in it, the short results, the long results, the accesses made,
where the group goes on, and whether it waits. With `hold` the instruction has not completed: the group stays at its slot
and its next turn (or an event) goes on. `final` says that `s` is the state after, group included. -/
structure Done where
  s : State
  g : Group
  short : List RegWrite := []
  long : List LongOut := []
  touches : List Touch := []
  next : Option Word64 := none
  wait : Option Wait := none
  hold : Bool := false
  final : Bool := false

/-- A body reads the state and the issuing group. -/
abbrev Body := State → Group → Except Trap Done

/-- A group of a core issues, or pool blocks of it are released, now (R146). -/
def State.touch (s : State) (core : Nat) : State :=
  s.modCore core (fun c => { c with lastIssue := s.time })

/-- Does a team that stays on a core hold pool blocks or tiles (R146, R330)? -/
def State.holdsPool (s : State) (core : Nat) : Bool :=
  s.teams.any (fun t => t.core == some core && t.swap == .resident &&
    (s.groups.any (fun g => g.team == t.id && g.blocks != 0) || s.gangs.any (fun k => k.team == t.id)))

/-- A register-grow check of a core ends when no team that stays there holds any (R146, R330). -/
def State.idleGrow (s : State) (core : Nat) : State :=
  s.modCore core (fun c => { c with growing := c.growing && s.holdsPool core })

/-- An instruction of a core counts as issued (R424). -/
def State.countIssue (s : State) (core : Nat) : State :=
  (s.touch core).addEvent core 0 1

/-- One more sequence number of the group's slot, and the state after (R191). -/
def State.nextSeq (s : State) (g : Group) : BitVec 48 × State :=
  match g.core with
  | none => (0, s)
  | some c =>
    let n := vget (s.core c).slotSeq g.slot 0 + 1
    (n, s.modCore c (fun co => { co with slotSeq := vset co.slotSeq g.slot n }))

/-- The results become the group's: aged bypass, short results, new undelivered results, numbered from id. -/
def Group.results (g : Group) (h : Hdr) (ord : Word32) (pc : Word64) (short : List RegWrite) (long : List LongOut)
    (id : Nat) : Group :=
  let g1 := g.age.deliverAll h.tr short
  { g1 with pend := g1.pend ++ (long.zipIdx.map fun (l, k) =>
      { id := id + k, writes := l.writes, tr := h.tr, returned := l.returned, unit := l.unit, load := l.load,
        poison := [], gate := l.gate, at_ := pc, spord := ord,
        prior := if h.sw && l.load.isSome then some g.bypass else none }) }

/-- The count of the last stop site (R425): a stop site resets it, other instructions count from it. -/
def Group.countStep (g : Group) (h : Hdr) (ord : Option Nat) : Group :=
  if h.st && ord.isSome then { g with lastsp := spordOf ord, steps := 0 }
  else if g.steps = 255 then g else { g with steps := g.steps + 1 }

/-- Complete an instruction: results, pc, counters, hits, then delivery or the wait of `SW` = 1 (R156, R192, R424, R425,
R428). -/
def State.finish (s : State) (g : Group) (h : Hdr) (short : List RegWrite) (long : List LongOut) (next : Option Word64)
    (wait : Option Wait) (touches : List Touch := []) : State :=
  let ord := if h.st then s.ordinal g g.pc else none
  let g1 := g.results h (spordOf ord) g.pc short long s.nextId
  let g2 := { g1.countStep h ord with
    pc := (match next with | some a => a | none => nextSlot g.pc), prog := 0, wait := wait,
    sampled := false, pass := .no }
  let s0 := { s with nextId := s.nextId + long.length }
  let s1 := (s0.countIssue (g.core.getD 0)).accessed g2 touches
  if wait.isSome || !h.sw then s1.setGroup g2
  else if g2.allReturned then s1.deliver g2
  else s1.setGroup { g2 with wait := some .switch }

/-- What a faulting instruction has looked up is counted and held (R415, R424). -/
def State.looked (s : State) (g : Group) (t : Trap) : State :=
  if t.looks.isEmpty then s else s.lookUpAll g t.looks

/-- What a body's answer makes of the machine. -/
def State.conclude (s : State) (g : Group) (h : Hdr) (r : Except Trap Done) : State :=
  match r with
  | .error t => (s.looked g t).take { g with wait := none } t
  | .ok d =>
    if d.final then d.s
    else if d.hold then
      (if g.wait.isNone then d.s.touch (g.core.getD 0) else d.s).setGroup { d.g with wait := d.wait }
    else d.s.finish d.g h d.short d.long d.next d.wait d.touches

/-- The group as the state has it after effects that touch groups: its events and stops (R409, R430). -/
def State.refresh (s : State) (g : Group) : Group :=
  match s.group? g.id with
  | some k => { g with evpend := k.evpend, stopped := k.stopped, pass := k.pass }
  | none => g

/-- The lines of code that a transfer reads, each a fetch whose parity is checked (R157, R177): an entry for each mismatch,
whatever the transfer then does. -/
def reading (lines : State → Group → List Word64) (b : Body) : Body := fun s g =>
  let bad := (lines s g).filter (fun va => (s.fetchLine (s.accessor g) va).mismatch)
  if bad.isEmpty || g.wait.isSome then b s g
  else
    let s1 := s.readLines g bad
    let g1 := s1.refresh g
    match b s1 g1 with
    | .ok d => .ok d
    | .error t => .ok { s := (s1.looked g1 t).take { g1 with wait := none } t, g := g1, final := true }

/-- Issue an instruction on the group `s.cur`: the decode checks beyond the bit fields (R175), the instructions that
handlers may not issue (R408), then its body. Where no such group is, nothing happens (log entry 5, DESIGN CHOICE). -/
def issue (s : State) (i : Instr) (h : Hdr) (userOnly : Bool) (body : Body) : Host.Outcome State Fault Refusal :=
  match s.group? s.cur with
  | none => .next s
  | some g =>
    .next (s.conclude g h
      (if !i.wellFormed || (userOnly && g.mode != .user) then .error (trapOf .illop) else body s g))

end Sys2Proof.Machine
end

