-- ==== Sys2Proof/Machine/Debug.lean ====
section
/-! DEFINITION. The fork of an engine operation (R434) and the trace records of a partition's debug unit (R435, R436). -/

namespace Sys2Proof.Machine

/-- The fork of an engine operation at the issue of an instruction. -/
def State.forkOf (s : State) (g : Group) (ord : Option Nat) : Fork :=
  { part := (s.accessor g).part, core := g.core, issuer := g.id, gid := g.gid16,
    seq := (match g.core with | some c => vget (s.core c).slotSeq g.slot 0 | none => 0), spord := spordOf ord }

/-! ## Trace records (R435, R436) -/

/-- Write a trace record of 32 bytes to the ring of a partition, if it has one. A ring runs on past the end of main memory:
only its base is checked (log entry 19, DESIGN CHOICE). -/
def State.trace (s : State) (part : Nat) (rec : BitVec 256) : State :=
  let p := s.part part
  if p.trsizel = 0 then s
  else
    (s.writeNat (p.trbase.toNat + 32 * (p.trhead.toNat % 2 ^ p.trsizel.toNat)) 32 rec.toNat).modPart part
      (fun p => { p with trhead := p.trhead + 1 })

/-- A trace record: stamp, sequence number, group, id, kind. -/
def traceRec (time : Word64) (seq : BitVec 48) (gid : BitVec 16) (id : Word32) (kind : Nat) : BitVec 256 :=
  time ++ seq ++ gid ++ id ++ BitVec.ofNat 8 kind ++ 0#88

end Sys2Proof.Machine
end

