-- ==== Sys2Proof/Machine/Flags.lean ====
section
/-! DEFINITION. Flags: the bits of `FSTAT` (R56), how lanes set them (R57), and the flags of a condition register
(R181, R205, R211). -/

namespace Sys2Proof.Machine

/-- The flags of `FSTAT` (R56). -/
abbrev FFlags := BitVec 6

def fInvalid : FFlags := 1
def fDivzero : FFlags := 2
def fOverflow : FFlags := 4
def fUnderflow : FFlags := 8
def fInexact : FFlags := 16
def fNanscale : FFlags := 32

/-- A flag where a condition holds. -/
def flagIf (b : Bool) (f : FFlags) : FFlags :=
  if b then f else 0

/-- The flags that the lanes of a set raise: those of active lanes that are no helpers (R57). -/
def flagsOver (lanes helper : Mask) (f : Nat → FFlags) : FFlags :=
  (lanesOf (lanes &&& ~~~helper)).foldl (fun acc i => acc ||| f i) 0

def Group.raiseFlags (g : Group) (f : FFlags) : Group :=
  { g with fstat := g.fstat ||| f }

/-- A condition value: `Z` in bit 0, `N` in bit 1, `C` in bit 2, `O` in bit 3 (R181). -/
def condOf (z n c o : Bool) : BitVec 4 :=
  BitVec.ofBool o ++ BitVec.ofBool c ++ BitVec.ofBool n ++ BitVec.ofBool z

/-- The bit of a flag in a condition register (R181). -/
def flagBit : CFlag → Nat
  | .z => 0
  | .n => 1
  | .c => 2
  | .o => 3

end Sys2Proof.Machine
end

