-- ==== Sys2Proof/Machine/Float.lean ====
section
/-! DEFINITION. Numbers: the formats of spec/02 (R47 to R62), exact values, rounding once (R50 to R53), the Lattice
generator (R78), the correctly rounded functions (R54, R55). -/

namespace Sys2Proof.Machine

/-! ## Formats -/

/-- How a format ends: with infinities and NaNs (R47), as E4M3 (R58), or as E2M1 (R59). -/
inductive Ending where
  | ieee | e4m3 | e2m1
  deriving DecidableEq, Repr

/-- A binary format: exponent bits, fraction bits, bias, its end. -/
structure Fmt where
  eb : Nat
  mb : Nat
  bias : Nat
  ending : Ending
  deriving DecidableEq, Repr

def fmtF16 : Fmt := ⟨5, 10, 15, .ieee⟩
def fmtBF16 : Fmt := ⟨8, 7, 127, .ieee⟩
def fmtF32 : Fmt := ⟨8, 23, 127, .ieee⟩
def fmtF64 : Fmt := ⟨11, 52, 1023, .ieee⟩
def fmtE4M3 : Fmt := ⟨4, 3, 7, .e4m3⟩
def fmtE5M2 : Fmt := ⟨5, 2, 15, .ieee⟩
def fmtE2M1 : Fmt := ⟨2, 1, 1, .e2m1⟩

/-- The format of a type of the float table; E8M0, the blocks and the bytes have rules of their own. -/
def fmtOf : FTy → Fmt
  | .f16 => fmtF16
  | .bf16 => fmtBF16
  | .f64 => fmtF64
  | .e4m3 => fmtE4M3
  | .e5m2 => fmtE5M2
  | .e2m1 => fmtE2M1
  | _ => fmtF32

/-- The exponent of the smallest normal value. -/
def Fmt.emin (f : Fmt) : Int :=
  1 - f.bias

/-- The largest finite value as mantissa and exponent (R47, R58, R59). -/
def Fmt.maxFin (f : Fmt) : Nat × Int :=
  match f.ending with
  | .ieee => (2 ^ (f.mb + 1) - 1, (2 ^ f.eb - 2 : Int) - f.bias - f.mb)
  | .e4m3 => (2 ^ (f.mb + 1) - 2, (2 ^ f.eb - 1 : Int) - f.bias - f.mb)
  | .e2m1 => (2 ^ (f.mb + 1) - 1, (2 ^ f.eb - 1 : Int) - f.bias - f.mb)

/-- The canonical NaN (R47, R58). -/
def Fmt.nan (f : Fmt) : Nat :=
  match f.ending with
  | .ieee => (2 ^ f.eb - 1) * 2 ^ f.mb + 2 ^ (f.mb - 1)
  | .e4m3 => 2 ^ (f.eb + f.mb) - 1
  | .e2m1 => 0

def Fmt.sign (f : Fmt) (neg : Bool) : Nat :=
  if neg then 2 ^ (f.eb + f.mb) else 0

/-- ±∞ of a format that has infinities. -/
def Fmt.inf (f : Fmt) (neg : Bool) : Nat :=
  f.sign neg + (2 ^ f.eb - 1) * 2 ^ f.mb

/-! ## Values -/

/-- The value of a code: a NaN (signalling or not), an infinity, or (−1)^neg × man × 2^exp. -/
inductive FVal where
  | nan (signalling : Bool)
  | inf (neg : Bool)
  | fin (neg : Bool) (man : Nat) (exp : Int)
  deriving DecidableEq, Repr

/-- The value of a code (R47, R58, R59). -/
def Fmt.decode (f : Fmt) (c : Nat) : FVal :=
  let neg := c / 2 ^ (f.eb + f.mb) % 2 == 1
  let e := c / 2 ^ f.mb % 2 ^ f.eb
  let m := c % 2 ^ f.mb
  let finite := if e = 0 then FVal.fin neg m (f.emin - f.mb) else .fin neg (m + 2 ^ f.mb) ((e : Int) - f.bias - f.mb)
  match f.ending with
  | .ieee =>
    if e = 2 ^ f.eb - 1 then
      if m = 0 then .inf neg else .nan (2 < f.mb && m < 2 ^ (f.mb - 1))
    else finite
  | .e4m3 => if e = 2 ^ f.eb - 1 && m = 2 ^ f.mb - 1 then .nan false else finite
  | .e2m1 => finite

/-- E8M0 (R60). -/
def decodeE8M0 (c : Nat) : FVal :=
  if c % 256 = 255 then .nan false else .fin false 1 ((c % 256 : Nat) - 127)

/-- The value of a code of a type (R47, R58 to R60). -/
def valOf (ty : FTy) (c : Nat) : FVal :=
  match ty with
  | .e8m0 => decodeE8M0 c
  | _ => (fmtOf ty).decode c

/-- Is the value zero? -/
def FVal.isZero : FVal → Bool
  | .fin _ 0 _ => true
  | _ => false

def FVal.isNan : FVal → Bool
  | .nan _ => true
  | _ => false

def FVal.isInf : FVal → Bool
  | .inf _ => true
  | _ => false

def FVal.isSnan : FVal → Bool
  | .nan s => s
  | _ => false

def FVal.neg : FVal → Bool
  | .nan _ => false
  | .inf n => n
  | .fin n _ _ => n

def FVal.negate : FVal → FVal
  | .nan s => .nan s
  | .inf n => .inf !n
  | .fin n m e => .fin (!n) m e

/-- Under `FTZ` a subnormal input reads as zero of its sign (R53). -/
def FVal.flush (f : Fmt) (ftz : Bool) : FVal → FVal
  | .fin n m e => if ftz && m < 2 ^ f.mb && e = f.emin - f.mb then .fin n 0 e else .fin n m e
  | v => v

/-! ## Rounding (R50 to R53) -/

/-- A magnitude known to lie at man × 2^exp, or strictly between that and (man + 1) × 2^exp when `more`. -/
structure Approx where
  neg : Bool
  man : Nat
  exp : Int
  more : Bool
  deriving DecidableEq, Repr

/-- What is kept at the quantum 2^q, the part dropped (in units of 2^-k of the quantum: rem of 2^k), and whether more
was dropped. -/
structure Cut where
  kept : Nat
  rem : Nat
  k : Nat
  more : Bool

def Approx.cut (a : Approx) (q : Int) : Cut :=
  let sh := q - a.exp
  if sh ≤ 0 then ⟨a.man * 2 ^ (-sh).toNat, 0, 0, a.more⟩
  else ⟨a.man / 2 ^ sh.toNat, a.man % 2 ^ sh.toNat, sh.toNat, a.more⟩

def Cut.inexact (c : Cut) : Bool :=
  c.rem != 0 || c.more

/-- d of R52: the fraction of the way from lo to hi, in 65,536ths, rounded down. -/
def Cut.frac (c : Cut) (neg : Bool) : Nat :=
  let up := c.rem * 65536 / 2 ^ c.k
  if neg then
    65536 - (if c.rem * 65536 % 2 ^ c.k = 0 && !c.more then up else up + 1)
  else up

/-- Does the magnitude round up? -/
def Cut.up (c : Cut) (rm : Rm) (neg : Bool) (draw : Nat) : Bool :=
  c.inexact &&
    (match rm with
     | .rne => 2 * c.rem > 2 ^ c.k || (2 * c.rem = 2 ^ c.k && (c.more || c.kept % 2 = 1))
     | .rz => false
     | .ru => !neg
     | .rd => neg
     | .sr => if neg then !(draw < c.frac true) else draw < c.frac false)

/-- The rounded magnitude at the quantum 2^q. -/
def Approx.at_ (a : Approx) (q : Int) (rm : Rm) (draw : Nat) : Nat × Bool :=
  let c := a.cut q
  (if c.up rm a.neg draw then c.kept + 1 else c.kept, c.inexact)

/-- man × 2^exp of the first against that of the second: less. -/
def magLt (m1 : Nat) (e1 : Int) (m2 : Nat) (e2 : Int) : Bool :=
  let lo := min e1 e2
  m1 * 2 ^ (e1 - lo).toNat < m2 * 2 ^ (e2 - lo).toNat

/-- The code of man × 2^q, which the format holds. -/
def Fmt.encode (f : Fmt) (neg : Bool) (man : Nat) (q : Int) : Nat :=
  if man = 0 then f.sign neg
  else
    let l := (Nat.log2 man : Int)
    let e := max (l + q) f.emin
    let q' := e - f.mb
    let m := if q ≥ q' then man * 2 ^ (q - q').toNat else man / 2 ^ (q' - q).toNat
    f.sign neg + (if m < 2 ^ f.mb then m else (e + f.bias).toNat * 2 ^ f.mb + (m - 2 ^ f.mb))

/-- The result of an overflow by direction (R51), or the clamp of R61 where a format has no infinity or under `.SAT`. -/
def Fmt.overflow (f : Fmt) (neg : Bool) (rm : Rm) (sat : Bool) : Nat :=
  let mx := f.encode neg f.maxFin.1 f.maxFin.2
  if sat || f.ending ≠ .ieee then mx
  else
    match rm with
    | .rne | .sr => f.inf neg
    | .rz => mx
    | .ru => if neg then mx else f.inf neg
    | .rd => if neg then f.inf neg else mx

/-- Round once into a format (R50 to R53, R61). Under `.SR` an exact result between the largest finite value and the next
step of an unbounded exponent is one of the two by the draw, the upper one being an overflow (log entry 39, DESIGN CHOICE).
-/
def Fmt.round (f : Fmt) (rm : Rm) (ftz sat : Bool) (draw : Nat) (a : Approx) : Nat × FFlags :=
  if a.man = 0 && !a.more then (f.sign a.neg, 0)
  else
    let e := (Nat.log2 a.man : Int) + a.exp
    let qu := e - f.mb
    let (mu, iu) := a.at_ qu rm draw
    let tiny := magLt mu qu 1 f.emin
    if ftz && tiny then (f.sign a.neg, fUnderflow ||| fInexact)
    else
      let q := if ftz then qu else max e f.emin - f.mb
      let (m, i) := if ftz then (mu, iu) else a.at_ q rm draw
      if magLt f.maxFin.1 f.maxFin.2 m q then (f.overflow a.neg rm sat, fOverflow ||| fInexact)
      else (f.encode a.neg m q, flagIf i fInexact ||| flagIf (tiny && i) fUnderflow)

/-- An exact value as an approximation. -/
def exact (neg : Bool) (man : Nat) (exp : Int) : Approx :=
  ⟨neg, man, exp, false⟩

/-- Round a value: NaN to the canonical NaN, infinities kept (R48, R61). -/
def Fmt.roundVal (f : Fmt) (rm : Rm) (ftz sat : Bool) (draw : Nat) : FVal → Nat × FFlags
  | .nan _ => (f.nan, flagIf (f.ending == .e2m1) fInvalid)
  | .inf n =>
    if f.ending = .ieee && !sat then (f.inf n, 0) else (f.overflow n rm true, fOverflow ||| fInexact)
  | .fin n m e => f.round rm ftz sat draw (exact n m e)

/-! ## The Lattice generator (R78) -/

def latticeStep (x : Word64) : Word64 :=
  let x := x ^^^ (x >>> 31)
  let x := x * 0x6C1D_7B39_E4F2_0A97
  x ^^^ (x >>> 29)

def lattice (seed : Word64) (cls lane : Nat) (index : Word64) : Nat :=
  let x := seed ^^^ (BitVec.ofNat 64 cls * 0x9F4A_C3E1_5B27_D8A5) ^^^ BitVec.ofNat 64 (lane * 2 ^ 40) ^^^ index
  (latticeStep (latticeStep (latticeStep x)) >>> 48).toNat

/-- The rounding class of a group (R52). -/
def Group.srClass (g : Group) : Nat :=
  match g.kind with
  | .spawned _ => 18
  | _ => if g.depth = 0 then 16 else 18 + g.depth

/-- The draw of a lane for stochastic rounding (R52). -/
def Group.draw (g : Group) (rm : Rm) (lane : Nat) : Nat :=
  if rm = .sr then lattice g.srseed g.srClass lane g.srctr else 0

/-! ## Exact arithmetic -/

/-- The sum of two finite values: sign, magnitude, exponent; an exact zero is negative when both are, or under `.RD`
when the signs differ (R209). -/
def addFin (rdZero : Bool) (n1 : Bool) (m1 : Nat) (e1 : Int) (n2 : Bool) (m2 : Nat) (e2 : Int) : FVal :=
  let lo := min e1 e2
  let a : Int := (if n1 then -1 else 1) * (m1 * 2 ^ (e1 - lo).toNat : Nat)
  let b : Int := (if n2 then -1 else 1) * (m2 * 2 ^ (e2 - lo).toNat : Nat)
  let s := a + b
  if s = 0 then .fin (if n1 = n2 then n1 else rdZero) 0 lo
  else .fin (s < 0) s.natAbs lo

/-- The sum of two values and whether it is invalid (R209). -/
def addVal (rdZero : Bool) (x y : FVal) : FVal × Bool :=
  match x, y with
  | .nan _, _ => (.nan false, false)
  | _, .nan _ => (.nan false, false)
  | .inf a, .inf b => if a = b then (.inf a, false) else (.nan false, true)
  | .inf a, .fin _ _ _ => (.inf a, false)
  | .fin _ _ _, .inf b => (.inf b, false)
  | .fin n1 m1 e1, .fin n2 m2 e2 => (addFin rdZero n1 m1 e1 n2 m2 e2, false)

/-- The product of two values and whether it is invalid (R68, R209). -/
def mulVal (x y : FVal) : FVal × Bool :=
  match x, y with
  | .nan _, _ => (.nan false, false)
  | _, .nan _ => (.nan false, false)
  | .inf a, .inf b => (.inf (a != b), false)
  | .inf a, .fin b m _ => if m = 0 then (.nan false, true) else (.inf (a != b), false)
  | .fin a m _, .inf b => if m = 0 then (.nan false, true) else (.inf (a != b), false)
  | .fin a m1 e1, .fin b m2 e2 => (.fin (a != b) (m1 * m2) (e1 + e2), false)

/-- The order of two values that are no NaNs: less. −0 and +0 are equal. -/
def ltVal (x y : FVal) : Bool :=
  match x, y with
  | .inf a, .inf b => a && !b
  | .inf a, .fin _ _ _ => a
  | .fin _ _ _, .inf b => !b
  | .fin n1 m1 e1, .fin n2 m2 e2 =>
    if n1 && m1 ≠ 0 then (if n2 && m2 ≠ 0 then magLt m2 e2 m1 e1 else true)
    else if n2 && m2 ≠ 0 then false
    else magLt m1 e1 m2 e2
  | _, _ => false

/-- Equal values that are no NaNs. -/
def eqVal (x y : FVal) : Bool :=
  !x.isNan && !y.isNan && !ltVal x y && !ltVal y x

/-- `FMIN` (min) or `FMAX` of two values (R49): the first is chosen? −0 is below +0. -/
def pickFirst (min : Bool) (x y : FVal) : Bool :=
  if x.isNan then false
  else if y.isNan then true
  else if ltVal x y then min
  else if ltVal y x then !min
  else if x.isZero then (if min then x.neg else !x.neg)
  else true

/-! ## Correctly rounded functions (R54) -/

/-- The integer square root, bit by bit from bit k − 1 down. -/
def isqrtFrom (n : Nat) : Nat → Nat → Nat
  | 0, r => r
  | k + 1, r =>
    let r' := r + 2 ^ k
    isqrtFrom n k (if r' * r' ≤ n then r' else r)

def isqrt (n : Nat) : Nat :=
  isqrtFrom n (Nat.log2 n / 2 + 1) 0

/-- Guard bits of quotients and roots: more than any format's fraction and 16 bits of R52. -/
def guardBits : Nat := 160

/-- man1 × 2^exp1 / (man2 × 2^exp2). -/
def quotient (neg : Bool) (m1 : Nat) (e1 : Int) (m2 : Nat) (e2 : Int) : Approx :=
  let n := m1 * 2 ^ guardBits
  ⟨neg, n / m2, e1 - e2 - guardBits, n % m2 != 0⟩

/-- √(man × 2^exp). -/
def root (m : Nat) (e : Int) : Approx :=
  let odd := e % 2 = 1
  let n := (if odd then 2 * m else m) * 2 ^ (2 * guardBits)
  let r := isqrt n
  ⟨false, r, (if odd then e - 1 else e) / 2 - guardBits, r * r != n⟩

/-- 1 / √(man × 2^exp). -/
def rootRecip (m : Nat) (e : Int) : Approx :=
  let odd := e % 2 = 1
  let d := if odd then 2 * m else m
  let n := 2 ^ (2 * guardBits) / d
  let r := isqrt n
  ⟨false, r, -((if odd then e - 1 else e) / 2) - guardBits, r * r * d != 2 ^ (2 * guardBits)⟩

/-- Working bits of the series. -/
def seriesBits : Nat := 256

/-- ln 2 in units of 2^-256, rounded down. -/
def LN2 : Nat := 80260960185991308862233904206310070533990667611589946606122867505419956976171

/-- The exponential series 1 + t + t²/2! + …, t in units of 2^-256, from term k on. -/
def expSeries (t : Nat) : Nat → Nat → Nat → Nat
  | 0, _, _ => 0
  | fuel + 1, k, term => term + expSeries t fuel (k + 1) (term * t / 2 ^ seriesBits / (k + 1))

/-- 2^(±man × 2^exp), not an integer power (log entry 10, DEDUCED). -/
def exp2Approx (neg : Bool) (m : Nat) (e : Int) : Approx :=
  let k := (-e).toNat
  let whole : Int := if neg then -((m / 2 ^ k : Nat) : Int) - 1 else ((m / 2 ^ k : Nat) : Int)
  let fr := if neg then 2 ^ k - m % 2 ^ k else m % 2 ^ k
  let t := fr * LN2 / 2 ^ k
  ⟨false, expSeries t 64 0 (2 ^ seriesBits), whole - seriesBits, true⟩

/-- z + z³/3 + z⁵/5 + …, z² given, from the odd term k on. -/
def atanhSeries (z2 : Nat) : Nat → Nat → Nat → Nat
  | 0, _, _ => 0
  | fuel + 1, k, zk => zk / k + atanhSeries z2 fuel (k + 2) (zk * z2 / 2 ^ seriesBits)

/-- log2 of man in units of 2^-256, man scaled to [1, 2) by its length, and the length − 1. -/
def log2Frac (m : Nat) : Nat × Nat :=
  let l := Nat.log2 m
  let z := (m - 2 ^ l) * 2 ^ seriesBits / (m + 2 ^ l)
  let at_ := 2 * atanhSeries (z * z / 2 ^ seriesBits) 96 1 z
  (at_ * 2 ^ seriesBits / LN2, l)

/-- log2(man × 2^exp), not a power of two (log entry 10, DEDUCED). -/
def log2Approx (m : Nat) (e : Int) : Approx :=
  let (fr, l) := log2Frac m
  let v : Int := (e + l) * 2 ^ seriesBits + fr
  ⟨v < 0, v.natAbs, -seriesBits, true⟩

end Sys2Proof.Machine
end

