-- ==== Sys2Proof/Machine/Operands.lean ====
section
/-! DEFINITION. Operand forms: reading and writing lanes of every file and width (R43, R180, R197), queues (R183, R184),
`UNI` (R133), and the bodies that the value instructions share. -/

namespace Sys2Proof.Machine

/-! ## Reading -/

/-- The value of w bits that starts at vector register n, lane i: one, two or four registers (R43). -/
def Group.vCode (g : Group) (n : BitVec 6) (w i : Nat) : Code :=
  if w ≤ 32 then BitVec.ofNat 128 ((g.vLane n i).toNat % 2 ^ w)
  else BitVec.ofNat 128 ((List.range (w / 32)).foldr
    (fun k acc => (g.vLane (n + BitVec.ofNat 6 k) i).toNat + 2 ^ 32 * acc) 0)

/-- The value of w bits in uniform register n (R180). -/
def Group.xCode (g : Group) (n : BitVec 6) (w : Nat) : Code :=
  if w ≤ 64 then BitVec.ofNat 128 ((g.xVal n).toNat % 2 ^ w)
  else BitVec.ofNat 128 ((g.xVal n).toNat + 2 ^ 64 * (g.xVal (n + 1)).toNat)

/-- The register a pop of queue n reads (R183). -/
def Group.qReg (g : Group) (n : BitVec 3) : BitVec 6 :=
  let q := vget g.q n.toNat ⟨0, 0, 0, 0⟩
  q.base + q.head.setWidth 6

/-- The value of w bits that an operand has in lane i. -/
def Group.srcLane (g : Group) (o : Opd) (w i : Nat) : Code :=
  match o with
  | .v n => g.vCode n w i
  | .x n => g.xCode n w
  | .q n => g.vCode (g.qReg n) w i
  | .m n => BitVec.ofNat 128 ((g.mVal n).getLsbD i).toNat
  | .c n => (g.cVal n).setWidth 128
  | .s _ | .t _ => 0

/-- The 64 bits of a uniform operand. -/
def Group.uni64 (g : Group) (o : Opd) : Word64 :=
  match o with
  | .x n => g.xVal n
  | _ => 0

/-- The mask of an operand in the mask file. -/
def Group.maskVal (g : Group) (o : Opd) : Mask :=
  match o with
  | .m n => g.mVal n
  | _ => 0

/-! ## Checks at execution -/

/-- The registers of a vector operand of w bits are held, or the operand is in another file (R165). -/
def Group.heldOpd (g : Group) (o : Opd) (w : Nat) : Bool :=
  match o with
  | .v n => g.holdsRange n.toNat (max 1 (w / 32))
  | _ => true

/-- `NOXBLK` when a vector operand lies in a half the group does not hold (R165). -/
def Group.checkHeld (g : Group) (os : List (Opd × Nat)) : Except Trap Unit :=
  if os.all (fun p => g.heldOpd p.1 p.2) then .ok () else .error (trapOf .noxblk)

/-- The queues named as sources, each once (R183). -/
def queuesOf (srcs : List (Opd × Nat)) : List (BitVec 3) :=
  (srcs.filterMap (fun p => match p.1 with | .q n => some n | _ => none)).eraseDups

def QState.pop (q : QState) : QState :=
  { q with head := (if q.head + 1 = q.depth then 0 else q.head + 1), occ := q.occ - 1 }

def QState.push (q : QState) : QState :=
  { q with occ := q.occ + 1 }

/-- The queue moves of one issue, pops before the push (R183), or their faults (R184). -/
def Group.moveQueues (g : Group) (d : Opd) (srcs : List (Opd × Nat)) : Except Trap Group :=
  let qs := queuesOf srcs
  if qs.any (fun n => (vget g.q n.toNat ⟨0, 0, 0, 0⟩).occ = 0) then .error (trapOf .qempty)
  else
    let g1 := qs.foldl (fun g n => { g with q := vmod g.q n.toNat ⟨0, 0, 0, 0⟩ QState.pop }) g
    match d with
    | .q n =>
      let q := vget g1.q n.toNat ⟨0, 0, 0, 0⟩
      if q.occ = q.depth then .error (trapOf .qfull)
      else .ok { g1 with q := vset g1.q n.toNat q.push }
    | _ => .ok g1

/-- The storage register a push writes, in the state before the instruction's own pop is undone: `QB` +
((h + o) mod d) after the pop (R183). -/
def Group.pushReg (g : Group) (n : BitVec 3) (popped : Bool) : BitVec 6 :=
  let q0 := vget g.q n.toNat ⟨0, 0, 0, 0⟩
  let q := if popped then q0.pop else q0
  q.base + BitVec.ofNat 6 ((q.head.toNat + q.occ.toNat) % max 1 q.depth.toNat)

/-! ## Writing -/

/-- Writes of a w-bit value given lane by lane to vector registers from n on (R43). -/
def vWrites (n : BitVec 6) (w : Nat) (lanes : Mask) (f : Nat → Code) : List RegWrite :=
  (List.range (max 1 (w / 32))).map (fun k =>
    .v (n + BitVec.ofNat 6 k) lanes (vreg (fun i => if lanes.getLsbD i then (f i).extractLsb' (32 * k) 32 else 0)))

/-- Writes of a w-bit value to uniform registers from n on (R180). -/
def xWrites (n : BitVec 6) (w : Nat) (v : Code) : List RegWrite :=
  if w ≤ 64 then [.x n (v.setWidth 64)]
  else [.x n (v.setWidth 64), .x (n + 1) (v.extractLsb' 64 64)]

/-- Writes of a value of w bits to a destination: lane by lane to a vector register or a queue, the value of the lowest
lane to a uniform or condition register, bit by bit to a mask. -/
def Group.writesTo (g : Group) (d : Opd) (popped : Bool) (w : Nat) (lanes : Mask) (f : Nat → Code) : List RegWrite :=
  match d with
  | .v n => vWrites n w lanes f
  | .q n => vWrites (g.pushReg n popped) w lanes f
  | .x n => xWrites n w (f ((lowest lanes).getD 0))
  | .m n => [.m n lanes (maskOf (fun i => lanes.getLsbD i && (f i).getLsbD 0))]
  | .c n => [.c n ((f ((lowest lanes).getD 0)).setWidth 4)]
  | .s _ | .t _ => []

/-- Does the instruction run once (R133)? `UNI`, or no operand belongs to a lane. -/
def runsOnce (h : Hdr) (os : List Opd) : Bool :=
  h.uni || !os.any Opd.perLane

/-! ## The body of a value instruction -/

/-- What a value instruction computes for a lane: the lane number that enters the result (0 under `UNI`), its source
codes in order, the answer's code and flags. -/
abbrev LaneOp := Nat → List Code → Code × FFlags

/-- Source k of a lane. -/
def arg (l : List Code) (k : Nat) : Code :=
  l.getD k 0

/-- The results of a value instruction over `active`, run lane by lane or once (R132, R133). -/
def Group.laneResults (g : Group) (once : Bool) (act : Mask) (srcs : List (Opd × Nat)) (f : LaneOp) :
    Nat → Code × FFlags :=
  if once then
    let low := (lowest act).getD 0
    let r := f 0 (srcs.map (fun p => g.srcLane p.1 p.2 low))
    fun _ => r
  else fun i => f i (srcs.map (fun p => g.srcLane p.1 p.2 i))

/-- `SRCTR` rises by 1 under `.SR` (R52). -/
def Group.stepSr (g : Group) (rm : Rm) : Group :=
  if rm = .sr then { g with srctr := g.srctr + 1 } else g

/-- The flags of one run under `UNI`: those of the lowest lane, unless it is a helper (R57, R133; log entry 35,
DESIGN CHOICE). -/
def onceFlags (act helper : Mask) (f : FFlags) : FFlags :=
  match lowest act with
  | none => 0
  | some i => if helper.getLsbD i then 0 else f

/-- A value instruction: destination of dw bits, sources with widths, short or long result. -/
def valueBody (h : Hdr) (d : Opd) (dw : Nat) (srcs : List (Opd × Nat)) (long : Bool) (rm : Rm) (f : LaneOp) : Body :=
  fun s g => do
    g.checkHeld ((d, dw) :: srcs)
    let g1 ← g.moveQueues d srcs
    let act := g.active h
    let once := runsOnce h (d :: srcs.map (·.1))
    let res := g.laneResults once act srcs f
    let popped := match d with | .q n => (queuesOf srcs).contains n | _ => false
    let writes := if once && act = 0 then [] else g.writesTo d popped dw act (fun i => (res i).1)
    let flags := if once then onceFlags act g.helper (res 0).2 else flagsOver act g.helper (fun i => (res i).2)
    let g2 := (g1.raiseFlags flags).stepSr rm
    .ok { s := s, g := g2, short := if long then [] else writes,
          long := if long then [{ writes := writes }] else [] }

/-- A value instruction without flags or rounding. -/
def plainBody (h : Hdr) (d : Opd) (dw : Nat) (srcs : List (Opd × Nat)) (f : List Code → Code) : Body :=
  valueBody h d dw srcs false .rne (fun _ l => (f l, 0))

end Sys2Proof.Machine
end

