-- ==== Sys2Proof/Machine/Integer.lean ====
section
/-! DEFINITION. The integer and bit instructions (R201 to R208). -/

namespace Sys2Proof.Machine

/-! ## Values -/

/-- A code read as a type's integer: signed for I types (R201). -/
def intOf (ty : ITy) (c : Code) : Int :=
  let n := c.toNat % 2 ^ ty.width
  if ty.signed && 2 ^ (ty.width - 1) ≤ n then (n : Int) - 2 ^ ty.width else n

/-- The least and greatest values of a type (R44). -/
def intMin (ty : ITy) : Int :=
  if ty.signed then -(2 ^ (ty.width - 1) : Nat) else 0

def intMax (ty : ITy) : Int :=
  if ty.signed then (2 ^ (ty.width - 1) : Nat) - 1 else (2 ^ ty.width : Nat) - 1

/-- x modulo 2^w, as a code. -/
def wrap (w : Nat) (x : Int) : Code :=
  BitVec.ofNat 128 (x % (2 ^ w : Nat)).toNat

/-- An exact result in a type, wrapped or saturated (R44). -/
def intResult (sat : Bool) (ty : ITy) (x : Int) : Code :=
  wrap ty.width (if sat then max (intMin ty) (min (intMax ty) x) else x)

/-- An immediate read by an integer type (R170). -/
def immInt (ty : ITy) (imm : BitVec 38) : Code :=
  if ty.signed then wrap ty.width imm.toInt else BitVec.ofNat 128 (imm.toNat % 2 ^ ty.width)

/-- A type's low bits of a code. -/
def low (w : Nat) (c : Code) : Nat :=
  c.toNat % 2 ^ w

/-- Leading zero bits in w bits. -/
def clzN (w n : Nat) : Nat :=
  if n = 0 then w else w - 1 - Nat.log2 n

/-- Set bits of a number below 2^w. -/
def popN (w n : Nat) : Nat :=
  ((List.range w).filter (fun i => n.testBit i)).length

/-- Bits in reverse order (R201). -/
def brevN (w n : Nat) : Nat :=
  ((List.range w).map (fun i => if n.testBit i then 2 ^ (w - 1 - i) else 0)).sum

/-- The shifts (R202): the amount is bits [7:0]. -/
def shlN (w a n : Nat) : Nat :=
  if n ≥ w then 0 else a * 2 ^ n % 2 ^ w

def shrN (w a n : Nat) : Nat :=
  if n ≥ w then 0 else a / 2 ^ n

def sarI (w : Nat) (a : Int) (n : Nat) : Int :=
  if n ≥ w then (if a < 0 then -1 else 0) else a / 2 ^ n

def rotlN (w a n : Nat) : Nat :=
  let k := n % w
  a * 2 ^ k % 2 ^ w + a / 2 ^ (w - k)

/-- The field a control word selects: its position, length and bits (R203). -/
def fieldOf (w a ctl : Nat) : Nat × Nat × Nat :=
  let pos := ctl % 256
  let len := ctl / 256 % 256
  if pos ≥ w || len = 0 then (pos, 0, 0)
  else
    let l := min len (w - pos)
    (pos, l, a / 2 ^ pos % 2 ^ l)

/-- `BFX` (R203). -/
def bfxVal (ty : ITy) (a ctl : Nat) : Code :=
  let (_, len, f) := fieldOf ty.width a ctl
  if len ≠ 0 && ty.signed && f.testBit (len - 1) then wrap ty.width ((f : Int) - 2 ^ len)
  else BitVec.ofNat 128 f

/-- `BFI` (R203). -/
def bfiVal (w a b ctl : Nat) : Code :=
  let (pos, len, old) := fieldOf w a ctl
  if len = 0 then BitVec.ofNat 128 a
  else BitVec.ofNat 128 (a - old * 2 ^ pos + b % 2 ^ len * 2 ^ pos)

/-- The truth of a relation (R205); the condition form gives the flags. -/
def icmpVal (rel : ICmp) (a b : Int) : Code :=
  let bit (p : Bool) : Code := BitVec.ofNat 128 p.toNat
  match rel with
  | .flags => (condOf (a = b) (a < b) (a ≤ b) false).setWidth 128
  | .eq => bit (a = b)
  | .ne => bit (a ≠ b)
  | .lt => bit (a < b)
  | .le => bit (a ≤ b)
  | .gt => bit (b < a)
  | .ge => bit (b ≤ a)

/-- The width a comparison's destination is written with: one bit of a mask, or a condition. -/
def cmpWidth : Nat := 32

/-! ## Bodies -/

/-- A form with sources a and b of its type. -/
def intBody2 (h : Hdr) (ty : ITy) (d a b : Opd) (f : Int → Int → Code) : Body :=
  plainBody h d ty.width [(a, ty.width), (b, ty.width)] (fun l => f (intOf ty (arg l 0)) (intOf ty (arg l 1)))

/-- Its twin, with the immediate in place of b (R169, R170). -/
def intBodyImm (h : Hdr) (ty : ITy) (d a : Opd) (imm : BitVec 38) (f : Int → Int → Code) : Body :=
  plainBody h d ty.width [(a, ty.width)] (fun l => f (intOf ty (arg l 0)) (intOf ty (immInt ty imm)))

/-- A form with source a of its type. -/
def intBody1 (h : Hdr) (ty : ITy) (d a : Opd) (dw : Nat) (f : Int → Code) : Body :=
  plainBody h d dw [(a, ty.width)] (fun l => f (intOf ty (arg l 0)))

/-- A bit form on the codes of a and b. -/
def bitBody2 (h : Hdr) (ty : ITy) (d a b : Opd) (f : Code → Code → Code) : Body :=
  plainBody h d ty.width [(a, ty.width), (b, ty.width)] (fun l => f (arg l 0) (arg l 1))

def bitBodyImm (h : Hdr) (ty : ITy) (d a : Opd) (imm : BitVec 38) (f : Code → Code → Code) : Body :=
  plainBody h d ty.width [(a, ty.width)] (fun l => f (arg l 0) (immInt ty imm))

/-- A shift on numbers: a and the amount, bits [7:0] of b (R202). -/
def shiftBody (h : Hdr) (ty : ITy) (d a b : Opd) (f : Nat → Nat → Nat) : Body :=
  plainBody h d ty.width [(a, ty.width), (b, ty.width)]
    (fun l => BitVec.ofNat 128 (f (low ty.width (arg l 0)) (low 8 (arg l 1))))

def shiftBodyImm (h : Hdr) (ty : ITy) (d a : Opd) (imm : BitVec 38) (f : Nat → Nat → Nat) : Body :=
  plainBody h d ty.width [(a, ty.width)]
    (fun l => BitVec.ofNat 128 (f (low ty.width (arg l 0)) (imm.toNat % 256)))

/-- Bits above w are 0. -/
def notW (w : Nat) (c : Code) : Code :=
  BitVec.ofNat 128 (2 ^ w - 1 - low w c)

/-! ## Instructions -/

def execIadd (h : Hdr) (sat : Bool) (ty : ITy) (d a b : Opd) (s : State) : Host.Outcome State Fault Refusal :=
  issue s (.iadd h sat ty d a b) h false (intBody2 h ty d a b (fun x y => intResult sat ty (x + y)))

def execIaddImm (h : Hdr) (sat : Bool) (ty : ITy) (d a : Opd) (imm : BitVec 38) (s : State) :
    Host.Outcome State Fault Refusal :=
  issue s (.iaddImm h sat ty d a imm) h false (intBodyImm h ty d a imm (fun x y => intResult sat ty (x + y)))

def execIsub (h : Hdr) (sat : Bool) (ty : ITy) (d a b : Opd) (s : State) : Host.Outcome State Fault Refusal :=
  issue s (.isub h sat ty d a b) h false (intBody2 h ty d a b (fun x y => intResult sat ty (x - y)))

def execIsubImm (h : Hdr) (sat : Bool) (ty : ITy) (d a : Opd) (imm : BitVec 38) (s : State) :
    Host.Outcome State Fault Refusal :=
  issue s (.isubImm h sat ty d a imm) h false (intBodyImm h ty d a imm (fun x y => intResult sat ty (x - y)))

def execImul (h : Hdr) (sat : Bool) (ty : ITy) (d a b : Opd) (s : State) : Host.Outcome State Fault Refusal :=
  issue s (.imul h sat ty d a b) h false (intBody2 h ty d a b (fun x y => intResult sat ty (x * y)))

def execImulImm (h : Hdr) (sat : Bool) (ty : ITy) (d a : Opd) (imm : BitVec 38) (s : State) :
    Host.Outcome State Fault Refusal :=
  issue s (.imulImm h sat ty d a imm) h false (intBodyImm h ty d a imm (fun x y => intResult sat ty (x * y)))

/-- R201: floor(a × b / 2^w). -/
def execImulh (h : Hdr) (ty : ITy) (d a b : Opd) (s : State) : Host.Outcome State Fault Refusal :=
  issue s (.imulh h ty d a b) h false
    (intBody2 h ty d a b (fun x y => wrap ty.width ((x * y) / (2 ^ ty.width : Nat))))

def execImad (h : Hdr) (sat : Bool) (ty : ITy) (d a b c : Opd) (s : State) : Host.Outcome State Fault Refusal :=
  issue s (.imad h sat ty d a b c) h false
    (plainBody h d ty.width [(a, ty.width), (b, ty.width), (c, ty.width)]
      (fun l => intResult sat ty (intOf ty (arg l 0) * intOf ty (arg l 1) + intOf ty (arg l 2))))

def execImin (h : Hdr) (ty : ITy) (d a b : Opd) (s : State) : Host.Outcome State Fault Refusal :=
  issue s (.imin h ty d a b) h false (intBody2 h ty d a b (fun x y => wrap ty.width (min x y)))

def execIminImm (h : Hdr) (ty : ITy) (d a : Opd) (imm : BitVec 38) (s : State) : Host.Outcome State Fault Refusal :=
  issue s (.iminImm h ty d a imm) h false (intBodyImm h ty d a imm (fun x y => wrap ty.width (min x y)))

def execImax (h : Hdr) (ty : ITy) (d a b : Opd) (s : State) : Host.Outcome State Fault Refusal :=
  issue s (.imax h ty d a b) h false (intBody2 h ty d a b (fun x y => wrap ty.width (max x y)))

def execImaxImm (h : Hdr) (ty : ITy) (d a : Opd) (imm : BitVec 38) (s : State) : Host.Outcome State Fault Refusal :=
  issue s (.imaxImm h ty d a imm) h false (intBodyImm h ty d a imm (fun x y => wrap ty.width (max x y)))

def execIabs (h : Hdr) (sat : Bool) (ty : ITy) (d a : Opd) (s : State) : Host.Outcome State Fault Refusal :=
  issue s (.iabs h sat ty d a) h false (intBody1 h ty d a ty.width (fun x => intResult sat ty x.natAbs))

def execIneg (h : Hdr) (sat : Bool) (ty : ITy) (d a : Opd) (s : State) : Host.Outcome State Fault Refusal :=
  issue s (.ineg h sat ty d a) h false (intBody1 h ty d a ty.width (fun x => intResult sat ty (-x)))

/-- The sum of `IADDC` in a lane (R204): a, b and the carry. -/
def carrySum (ty : ITy) (l : List Code) : Nat :=
  low ty.width (arg l 0) + low ty.width (arg l 1) + low 1 (arg l 2)

/-- The mask lanes whose carry `IADDC` writes: those of `active`, or its lowest lane when it runs once (R204). -/
def carryLanes (once : Bool) (act : Mask) : Mask :=
  if once then (match lowest act with | some i => single i | none => 0) else act

/-- R204: the sum, and the carries out as a second result. -/
def iaddcBody (h : Hdr) (ty : ITy) (d a b c : Opd) : Body := fun s g => do
  let srcs := [(a, ty.width), (b, ty.width), (c, 1)]
  let dn ← plainBody h d ty.width srcs (fun l => BitVec.ofNat 128 (carrySum ty l % 2 ^ ty.width)) s g
  let once := runsOnce h [d, a, b, c]
  let act := g.active h
  let cl := carryLanes once act
  let carry := g.laneResults once act srcs (fun _ l => (BitVec.ofNat 128 (carrySum ty l / 2 ^ ty.width), 0))
  .ok { dn with short := dn.short ++ (if cl = 0 then [] else g.writesTo c false 1 cl (fun i => (carry i).1)) }

def execIaddc (h : Hdr) (ty : ITy) (d a b c : Opd) (s : State) : Host.Outcome State Fault Refusal :=
  issue s (.iaddc h ty d a b c) h false (iaddcBody h ty d a b c)

def execIcmp (h : Hdr) (rel : ICmp) (ty : ITy) (d a b : Opd) (s : State) : Host.Outcome State Fault Refusal :=
  issue s (.icmp h rel ty d a b) h false
    (plainBody h d cmpWidth [(a, ty.width), (b, ty.width)]
      (fun l => icmpVal rel (intOf ty (arg l 0)) (intOf ty (arg l 1))))

def execIcmpImm (h : Hdr) (rel : ICmp) (ty : ITy) (d a : Opd) (imm : BitVec 38) (s : State) :
    Host.Outcome State Fault Refusal :=
  issue s (.icmpImm h rel ty d a imm) h false
    (plainBody h d cmpWidth [(a, ty.width)]
      (fun l => icmpVal rel (intOf ty (arg l 0)) (intOf ty (immInt ty imm))))

def execSel (h : Hdr) (ty : ITy) (d a b c : Opd) (s : State) : Host.Outcome State Fault Refusal :=
  issue s (.sel h ty d a b c) h false
    (plainBody h d ty.width [(a, ty.width), (b, ty.width), (c, 1)]
      (fun l => if (arg l 2).getLsbD 0 then arg l 0 else arg l 1))

def execLea (h : Hdr) (ty : ITy) (sh : BitVec 4) (d a b : Opd) (s : State) : Host.Outcome State Fault Refusal :=
  issue s (.lea h ty sh d a b) h false
    (plainBody h d 64 [(a, 64), (b, ty.width)]
      (fun l => wrap 64 ((low 64 (arg l 0) : Int) + intOf ty (arg l 1) * (2 ^ sh.toNat : Nat))))

/-- R207: the immediate, extended by R170, with sh = 0. -/
def execLeaImm (h : Hdr) (ty : ITy) (d a : Opd) (imm : BitVec 38) (s : State) : Host.Outcome State Fault Refusal :=
  issue s (.leaImm h ty d a imm) h false
    (plainBody h d 64 [(a, 64)] (fun l => wrap 64 ((low 64 (arg l 0) : Int) + intOf ty (immInt ty imm))))

def execClz (h : Hdr) (ty : ITy) (d a : Opd) (s : State) : Host.Outcome State Fault Refusal :=
  issue s (.clz h ty d a) h false
    (plainBody h d 32 [(a, ty.width)] (fun l => BitVec.ofNat 128 (clzN ty.width (low ty.width (arg l 0)))))

def execPopc (h : Hdr) (ty : ITy) (d a : Opd) (s : State) : Host.Outcome State Fault Refusal :=
  issue s (.popc h ty d a) h false
    (plainBody h d 32 [(a, ty.width)] (fun l => BitVec.ofNat 128 (popN ty.width (low ty.width (arg l 0)))))

def execAnd (h : Hdr) (ty : ITy) (d a b : Opd) (s : State) : Host.Outcome State Fault Refusal :=
  issue s (.and h ty d a b) h false (bitBody2 h ty d a b (fun x y => x &&& y))

def execAndImm (h : Hdr) (ty : ITy) (d a : Opd) (imm : BitVec 38) (s : State) : Host.Outcome State Fault Refusal :=
  issue s (.andImm h ty d a imm) h false (bitBodyImm h ty d a imm (fun x y => x &&& y))

def execOr (h : Hdr) (ty : ITy) (d a b : Opd) (s : State) : Host.Outcome State Fault Refusal :=
  issue s (.or h ty d a b) h false (bitBody2 h ty d a b (fun x y => x ||| y))

def execOrImm (h : Hdr) (ty : ITy) (d a : Opd) (imm : BitVec 38) (s : State) : Host.Outcome State Fault Refusal :=
  issue s (.orImm h ty d a imm) h false (bitBodyImm h ty d a imm (fun x y => x ||| y))

def execXor (h : Hdr) (ty : ITy) (d a b : Opd) (s : State) : Host.Outcome State Fault Refusal :=
  issue s (.xor h ty d a b) h false (bitBody2 h ty d a b (fun x y => x ^^^ y))

def execXorImm (h : Hdr) (ty : ITy) (d a : Opd) (imm : BitVec 38) (s : State) : Host.Outcome State Fault Refusal :=
  issue s (.xorImm h ty d a imm) h false (bitBodyImm h ty d a imm (fun x y => x ^^^ y))

def execAndn (h : Hdr) (ty : ITy) (d a b : Opd) (s : State) : Host.Outcome State Fault Refusal :=
  issue s (.andn h ty d a b) h false (bitBody2 h ty d a b (fun x y => x &&& ~~~y))

def execAndnImm (h : Hdr) (ty : ITy) (d a : Opd) (imm : BitVec 38) (s : State) : Host.Outcome State Fault Refusal :=
  issue s (.andnImm h ty d a imm) h false (bitBodyImm h ty d a imm (fun x y => x &&& ~~~y))

def execNot (h : Hdr) (ty : ITy) (d a : Opd) (s : State) : Host.Outcome State Fault Refusal :=
  issue s (.not h ty d a) h false (plainBody h d ty.width [(a, ty.width)] (fun l => notW ty.width (arg l 0)))

def execShl (h : Hdr) (ty : ITy) (d a b : Opd) (s : State) : Host.Outcome State Fault Refusal :=
  issue s (.shl h ty d a b) h false (shiftBody h ty d a b (shlN ty.width))

def execShlImm (h : Hdr) (ty : ITy) (d a : Opd) (imm : BitVec 38) (s : State) : Host.Outcome State Fault Refusal :=
  issue s (.shlImm h ty d a imm) h false (shiftBodyImm h ty d a imm (shlN ty.width))

def execShr (h : Hdr) (ty : ITy) (d a b : Opd) (s : State) : Host.Outcome State Fault Refusal :=
  issue s (.shr h ty d a b) h false (shiftBody h ty d a b (shrN ty.width))

def execShrImm (h : Hdr) (ty : ITy) (d a : Opd) (imm : BitVec 38) (s : State) : Host.Outcome State Fault Refusal :=
  issue s (.shrImm h ty d a imm) h false (shiftBodyImm h ty d a imm (shrN ty.width))

def execSar (h : Hdr) (ty : ITy) (d a b : Opd) (s : State) : Host.Outcome State Fault Refusal :=
  issue s (.sar h ty d a b) h false
    (plainBody h d ty.width [(a, ty.width), (b, ty.width)]
      (fun l => wrap ty.width (sarI ty.width (intOf ty (arg l 0)) (low 8 (arg l 1)))))

def execSarImm (h : Hdr) (ty : ITy) (d a : Opd) (imm : BitVec 38) (s : State) : Host.Outcome State Fault Refusal :=
  issue s (.sarImm h ty d a imm) h false
    (plainBody h d ty.width [(a, ty.width)]
      (fun l => wrap ty.width (sarI ty.width (intOf ty (arg l 0)) (imm.toNat % 256))))

def execRotl (h : Hdr) (ty : ITy) (d a b : Opd) (s : State) : Host.Outcome State Fault Refusal :=
  issue s (.rotl h ty d a b) h false (shiftBody h ty d a b (rotlN ty.width))

def execRotlImm (h : Hdr) (ty : ITy) (d a : Opd) (imm : BitVec 38) (s : State) : Host.Outcome State Fault Refusal :=
  issue s (.rotlImm h ty d a imm) h false (shiftBodyImm h ty d a imm (rotlN ty.width))

def execBrev (h : Hdr) (ty : ITy) (d a : Opd) (s : State) : Host.Outcome State Fault Refusal :=
  issue s (.brev h ty d a) h false
    (plainBody h d ty.width [(a, ty.width)] (fun l => BitVec.ofNat 128 (brevN ty.width (low ty.width (arg l 0)))))

def execBfx (h : Hdr) (ty : ITy) (d a b : Opd) (s : State) : Host.Outcome State Fault Refusal :=
  issue s (.bfx h ty d a b) h false
    (plainBody h d ty.width [(a, ty.width), (b, ty.width)]
      (fun l => bfxVal ty (low ty.width (arg l 0)) (low 16 (arg l 1))))

def execBfxImm (h : Hdr) (ty : ITy) (d a : Opd) (imm : BitVec 38) (s : State) : Host.Outcome State Fault Refusal :=
  issue s (.bfxImm h ty d a imm) h false
    (plainBody h d ty.width [(a, ty.width)] (fun l => bfxVal ty (low ty.width (arg l 0)) (imm.toNat % 2 ^ 16)))

def execBfi (h : Hdr) (ty : ITy) (d a b c : Opd) (s : State) : Host.Outcome State Fault Refusal :=
  issue s (.bfi h ty d a b c) h false
    (plainBody h d ty.width [(a, ty.width), (b, ty.width), (c, ty.width)]
      (fun l => bfiVal ty.width (low ty.width (arg l 0)) (low ty.width (arg l 1)) (low 16 (arg l 2))))

def execMov (h : Hdr) (ty : ITy) (d a : Opd) (s : State) : Host.Outcome State Fault Refusal :=
  issue s (.mov h ty d a) h false (plainBody h d ty.width [(a, ty.width)] (fun l => arg l 0))

def execMovi (h : Hdr) (ty : ITy) (d : Opd) (imm : BitVec 38) (s : State) : Host.Outcome State Fault Refusal :=
  issue s (.movi h ty d imm) h false (plainBody h d ty.width [] (fun _ => immInt ty imm))

def execBcast (h : Hdr) (ty : ITy) (d a : Opd) (s : State) : Host.Outcome State Fault Refusal :=
  issue s (.bcast h ty d a) h false (plainBody h d ty.width [(a, ty.width)] (fun l => arg l 0))

/-- R208: the lane that `SB` names, read whether or not it is active; it executes even when `active` is empty, but with
`UNI` an empty `active` writes nothing (R133, log entry 12, DEDUCED). -/
def lanegetBody (h : Hdr) (ty : ITy) (d a b : Opd) : Body := fun s g => do
  g.checkHeld [(a, ty.width)]
  let g1 ← g.moveQueues d [(a, ty.width)]
  let lane := (g.uni64 b).toNat % 64
  .ok { s := s, g := g1,
        short := if h.uni && g.active h = 0 then []
          else g.writesTo d false ty.width 1 (fun _ => g.srcLane a ty.width lane) }

def execLaneget (h : Hdr) (ty : ITy) (d a b : Opd) (s : State) : Host.Outcome State Fault Refusal :=
  issue s (.laneget h ty d a b) h false (lanegetBody h ty d a b)

end Sys2Proof.Machine
end

