-- ==== Sys2Proof/Machine/FloatOps.lean ====
section
/-! DEFINITION. The float instructions (R209 to R213). -/

namespace Sys2Proof.Machine

/-! ## Values -/

/-- Is the type one of F of R209, which `FTZ` acts on (R53)? -/
def isF (ty : FTy) : Bool :=
  ty == .f16 || ty == .bf16 || ty == .f32 || ty == .f64

/-- An immediate read by a float type (R170). -/
def immFlt (ty : FTy) (imm : BitVec 38) : Code :=
  match ty with
  | .f64 => BitVec.ofNat 128 (imm.toNat * 2 ^ 26)
  | _ => BitVec.ofNat 128 (imm.toNat % 2 ^ ty.width)

/-- A source read as its type, flushed under `FTZ` (R53, R209). -/
def fltOf (ty : FTy) (ftz : Bool) (c : Code) : FVal :=
  (valOf ty c.toNat).flush (fmtOf ty) (ftz && isF ty)

/-- A code with its flags as a lane's answer. -/
def codeOf (r : Nat × FFlags) : Code × FFlags :=
  (BitVec.ofNat 128 r.1, r.2)

/-- An answer with more flags. -/
def withFlags (r : Code × FFlags) (f : FFlags) : Code × FFlags :=
  (r.1, r.2 ||| f)

/-- `INVALID` for a signalling NaN operand (R48). -/
def snanFlag (vs : List FVal) : FFlags :=
  flagIf (vs.any FVal.isSnan) fInvalid

/-- What a float instruction knows in a lane: type, rounding, flush, draw. -/
structure FCtx where
  ty : FTy
  rm : Rm
  ftz : Bool
  draw : Nat
  deriving DecidableEq, Repr

/-- The exact result of a value, rounded once (R209). -/
def FCtx.value (c : FCtx) (v : FVal) : Code × FFlags :=
  codeOf ((fmtOf c.ty).roundVal c.rm c.ftz false c.draw v)

/-- An approximated result, rounded once (R54). -/
def FCtx.approx (c : FCtx) (a : Approx) : Code × FFlags :=
  codeOf ((fmtOf c.ty).round c.rm c.ftz false c.draw a)

/-- The canonical NaN with a flag (R48). -/
def FCtx.nanWith (c : FCtx) (f : FFlags) : Code × FFlags :=
  (BitVec.ofNat 128 (fmtOf c.ty).nan, f)

/-- An operation that may be invalid. -/
def FCtx.pair (c : FCtx) (r : FVal × Bool) : Code × FFlags :=
  withFlags (c.value r.1) (flagIf r.2 fInvalid)

def FCtx.rdZero (c : FCtx) : Bool :=
  c.rm == .rd

def faddF (c : FCtx) (x y : FVal) : Code × FFlags :=
  c.pair (addVal c.rdZero x y)

def fsubF (c : FCtx) (x y : FVal) : Code × FFlags :=
  c.pair (addVal c.rdZero x y.negate)

def fmulF (c : FCtx) (x y : FVal) : Code × FFlags :=
  c.pair (mulVal x y)

/-- `FFMA`: ∞ × 0 is invalid even when c is a NaN (R209). -/
def ffmaF (c : FCtx) (x y z : FVal) : Code × FFlags :=
  let p := mulVal x y
  let r := addVal c.rdZero p.1 z
  c.pair (r.1, p.2 || r.2)

/-- R49. -/
def fpickF (min : Bool) (c : FCtx) (x y : FVal) : Code × FFlags :=
  c.value (if pickFirst min x y then x else y)

/-- `FDIV` (R55). -/
def fdivF (c : FCtx) (x y : FVal) : Code × FFlags :=
  match x, y with
  | .nan _, _ => c.nanWith 0
  | _, .nan _ => c.nanWith 0
  | .inf _, .inf _ => c.nanWith fInvalid
  | .inf a, .fin b _ _ => c.value (.inf (a != b))
  | .fin a _ _, .inf b => c.value (.fin (a != b) 0 0)
  | .fin a m1 e1, .fin b m2 e2 =>
    if m2 = 0 then
      if m1 = 0 then c.nanWith fInvalid else withFlags (c.value (.inf (a != b))) fDivzero
    else c.approx (quotient (a != b) m1 e1 m2 e2)

def frcpF (c : FCtx) (x : FVal) : Code × FFlags :=
  match x with
  | .nan _ => c.nanWith 0
  | .inf a => c.value (.fin a 0 0)
  | .fin a m e =>
    if m = 0 then withFlags (c.value (.inf a)) fDivzero else c.approx (quotient a 1 0 m e)

def frsqF (c : FCtx) (x : FVal) : Code × FFlags :=
  match x with
  | .nan _ => c.nanWith 0
  | .inf a => if a then c.nanWith fInvalid else c.value (.fin false 0 0)
  | .fin a m e =>
    if m = 0 then withFlags (c.value (.inf a)) fDivzero
    else if a then c.nanWith fInvalid else c.approx (rootRecip m e)

def fsqrtF (c : FCtx) (x : FVal) : Code × FFlags :=
  match x with
  | .nan _ => c.nanWith 0
  | .inf a => if a then c.nanWith fInvalid else c.value (.inf false)
  | .fin a m e =>
    if m = 0 then c.value (.fin a 0 0) else if a then c.nanWith fInvalid else c.approx (root m e)

/-- 2^(±man × 2^exp): exact for an integer, far beyond every format from 2^17 on, else the series (log entry 10, DEDUCED). -/
def exp2Any (neg : Bool) (m : Nat) (e : Int) : Approx :=
  if !magLt m e 1 17 then ⟨false, 1, if neg then -131072 else 131072, true⟩
  else
    let k := (-e).toNat
    let n := m * 2 ^ e.toNat
    if n % 2 ^ k = 0 then
      let w : Int := (n / 2 ^ k : Nat)
      exact false 1 (if neg then -w else w)
    else exp2Approx neg m e

def fexp2F (c : FCtx) (x : FVal) : Code × FFlags :=
  match x with
  | .nan _ => c.nanWith 0
  | .inf a => c.value (if a then .fin false 0 0 else .inf false)
  | .fin a m e => c.approx (exp2Any a m e)

def flog2F (c : FCtx) (x : FVal) : Code × FFlags :=
  match x with
  | .nan _ => c.nanWith 0
  | .inf a => if a then c.nanWith fInvalid else c.value (.inf false)
  | .fin a m e =>
    if m = 0 then withFlags (c.value (.inf true)) fDivzero
    else if a then c.nanWith fInvalid
    else if m = 2 ^ Nat.log2 m then
      let n : Int := e + Nat.log2 m
      c.approx (exact (n < 0) n.natAbs 0)
    else c.approx (log2Approx m e)

/-- `FRND` (R212): a zero keeps the operand's sign. -/
def frndF (c : FCtx) (x : FVal) : Code × FFlags :=
  match x with
  | .fin a m e =>
    let (n, inexact) := (exact a m e).at_ 0 c.rm c.draw
    withFlags (BitVec.ofNat 128 ((fmtOf c.ty).encode a n 0), 0) (flagIf inexact fInexact)
  | v => c.value v

/-- A magnitude's powers of two (R62): the floor of its log2, and whether it is that power. -/
def pow2Of (m : Nat) (e : Int) : Int × Bool :=
  (e + Nat.log2 m, m == 2 ^ Nat.log2 m)

/-- A conversion to E8M0 (R62). -/
def toE8M0 (rm : Rm) (x : FVal) : Nat × FFlags :=
  match x with
  | .nan _ | .inf _ => (0xFF, fInvalid)
  | .fin a m e =>
    if a || m = 0 then (0xFF, fInvalid)
    else
      let (fl, isPow) := pow2Of m e
      let p := if rm = .ru && !isPow then fl + 1 else fl
      if p < -127 then (0, fUnderflow ||| fInexact)
      else if p > 127 then (0xFE, fOverflow ||| fInexact)
      else ((p + 127).toNat, flagIf (!isPow) fInexact)

/-- A conversion to a float type (R212, R61, R62) (log entry 52, DEDUCED). -/
def cvtTo (ty : FTy) (rm : Rm) (ftz sat : Bool) (draw : Nat) (x : FVal) : Nat × FFlags :=
  match ty with
  | .e8m0 => toE8M0 rm x
  | _ => (fmtOf ty).roundVal rm (ftz && isF ty) sat draw x

/-- A conversion to an integer type (R45). -/
def toInt (ty : ITy) (rm : Rm) (draw : Nat) (x : FVal) : Code × FFlags :=
  match x with
  | .nan _ => (0, fInvalid)
  | .inf a => (wrap ty.width (if a then intMin ty else intMax ty), fInvalid)
  | .fin a m e =>
    let (n, inexact) := (exact a m e).at_ 0 rm draw
    let v : Int := if a then -(n : Int) else n
    if v < intMin ty || intMax ty < v then (intResult true ty v, fInvalid)
    else (wrap ty.width v, flagIf inexact fInexact)

/-- The class bit of a code (R213). -/
def classBit (ty : FTy) (c : Nat) : Nat :=
  match valOf ty c with
  | .nan true => 0
  | .nan false => 1
  | .inf a => if a then 2 else 9
  | .fin a m e =>
    let f := fmtOf ty
    if m = 0 then (if a then 5 else 6)
    else if ty ≠ .e8m0 && e = f.emin - f.mb && m < 2 ^ f.mb then (if a then 4 else 7)
    else if a then 3 else 8

/-- The truth of a relation (R211): unordered, then the order; the condition form gives the flags. -/
def fcmpVal (rel : FCmp) (x y : FVal) : Code × FFlags :=
  let un := x.isNan || y.isNan
  let lt := ltVal x y && !un
  let eq := eqVal x y
  let bit (p : Bool) : Code := BitVec.ofNat 128 p.toNat
  let ordered := flagIf un fInvalid
  match rel with
  | .flags => ((condOf eq lt (lt || eq) un).setWidth 128, ordered)
  | .eq => (bit eq, 0)
  | .ne => (bit !eq, 0)
  | .lt => (bit lt, ordered)
  | .le => (bit (lt || eq), ordered)
  | .gt => (bit (!un && !lt && !eq), ordered)
  | .ge => (bit (!un && !lt), ordered)
  | .un => (bit un, 0)

/-! ## Bodies -/

/-- The context of a lane. -/
def Group.fctx (g : Group) (ty : FTy) (rm : Rm) (ftz : Bool) (lane : Nat) : FCtx :=
  { ty := ty, rm := rm, ftz := ftz, draw := g.draw rm lane }

/-- A form with sources a and b; `imm`, where it stands, takes the place of b. -/
def fltBody2 (h : Hdr) (ty : FTy) (rm : Rm) (ftz long : Bool) (d a b : Opd)
    (f : FCtx → FVal → FVal → Code × FFlags) : Body :=
  fun s g => valueBody h d ty.width [(a, ty.width), (b, ty.width)] long rm
    (fun lane l =>
      let x := fltOf ty ftz (arg l 0)
      let y := fltOf ty ftz (arg l 1)
      withFlags (f (g.fctx ty rm ftz lane) x y) (snanFlag [x, y])) s g

/-- The twin, with the immediate in place of b (R169). -/
def fltBodyImm (h : Hdr) (ty : FTy) (rm : Rm) (ftz : Bool) (d a : Opd) (imm : BitVec 38)
    (f : FCtx → FVal → FVal → Code × FFlags) : Body :=
  fun s g => valueBody h d ty.width [(a, ty.width)] false rm
    (fun lane l =>
      let x := fltOf ty ftz (arg l 0)
      let y := fltOf ty ftz (immFlt ty imm)
      withFlags (f (g.fctx ty rm ftz lane) x y) (snanFlag [x, y])) s g

/-- A form with source a. -/
def fltBody1 (h : Hdr) (ty : FTy) (rm : Rm) (ftz long : Bool) (d a : Opd) (f : FCtx → FVal → Code × FFlags) : Body :=
  fun s g => valueBody h d ty.width [(a, ty.width)] long rm
    (fun lane l =>
      let x := fltOf ty ftz (arg l 0)
      withFlags (f (g.fctx ty rm ftz lane) x) (snanFlag [x])) s g

/-! ## Instructions -/

def execFadd (h : Hdr) (ty : FTy) (rm : Rm) (ftz : Bool) (d a b : Opd) (s : State) : Host.Outcome State Fault Refusal :=
  issue s (.fadd h ty rm ftz d a b) h false (fltBody2 h ty rm ftz false d a b faddF)

def execFaddImm (h : Hdr) (ty : FTy) (rm : Rm) (ftz : Bool) (d a : Opd) (imm : BitVec 38) (s : State) :
    Host.Outcome State Fault Refusal :=
  issue s (.faddImm h ty rm ftz d a imm) h false (fltBodyImm h ty rm ftz d a imm faddF)

def execFsub (h : Hdr) (ty : FTy) (rm : Rm) (ftz : Bool) (d a b : Opd) (s : State) : Host.Outcome State Fault Refusal :=
  issue s (.fsub h ty rm ftz d a b) h false (fltBody2 h ty rm ftz false d a b fsubF)

def execFsubImm (h : Hdr) (ty : FTy) (rm : Rm) (ftz : Bool) (d a : Opd) (imm : BitVec 38) (s : State) :
    Host.Outcome State Fault Refusal :=
  issue s (.fsubImm h ty rm ftz d a imm) h false (fltBodyImm h ty rm ftz d a imm fsubF)

def execFmul (h : Hdr) (ty : FTy) (rm : Rm) (ftz : Bool) (d a b : Opd) (s : State) : Host.Outcome State Fault Refusal :=
  issue s (.fmul h ty rm ftz d a b) h false (fltBody2 h ty rm ftz false d a b fmulF)

def execFmulImm (h : Hdr) (ty : FTy) (rm : Rm) (ftz : Bool) (d a : Opd) (imm : BitVec 38) (s : State) :
    Host.Outcome State Fault Refusal :=
  issue s (.fmulImm h ty rm ftz d a imm) h false (fltBodyImm h ty rm ftz d a imm fmulF)

def execFfma (h : Hdr) (ty : FTy) (rm : Rm) (ftz : Bool) (d a b c : Opd) (s : State) :
    Host.Outcome State Fault Refusal :=
  issue s (.ffma h ty rm ftz d a b c) h false
    (fun s g => valueBody h d ty.width [(a, ty.width), (b, ty.width), (c, ty.width)] false rm
      (fun lane l =>
        let x := fltOf ty ftz (arg l 0)
        let y := fltOf ty ftz (arg l 1)
        let z := fltOf ty ftz (arg l 2)
        withFlags (ffmaF (g.fctx ty rm ftz lane) x y z) (snanFlag [x, y, z])) s g)

def execFmin (h : Hdr) (ty : FTy) (ftz : Bool) (d a b : Opd) (s : State) : Host.Outcome State Fault Refusal :=
  issue s (.fmin h ty ftz d a b) h false (fltBody2 h ty .rne ftz false d a b (fpickF true))

def execFminImm (h : Hdr) (ty : FTy) (ftz : Bool) (d a : Opd) (imm : BitVec 38) (s : State) :
    Host.Outcome State Fault Refusal :=
  issue s (.fminImm h ty ftz d a imm) h false (fltBodyImm h ty .rne ftz d a imm (fpickF true))

def execFmax (h : Hdr) (ty : FTy) (ftz : Bool) (d a b : Opd) (s : State) : Host.Outcome State Fault Refusal :=
  issue s (.fmax h ty ftz d a b) h false (fltBody2 h ty .rne ftz false d a b (fpickF false))

def execFmaxImm (h : Hdr) (ty : FTy) (ftz : Bool) (d a : Opd) (imm : BitVec 38) (s : State) :
    Host.Outcome State Fault Refusal :=
  issue s (.fmaxImm h ty ftz d a imm) h false (fltBodyImm h ty .rne ftz d a imm (fpickF false))

/-- R211 on two codes. -/
def fcmpCodes (rel : FCmp) (ty : FTy) (ftz : Bool) (a b : Code) : Code × FFlags :=
  let x := fltOf ty ftz a
  let y := fltOf ty ftz b
  withFlags (fcmpVal rel x y) (snanFlag [x, y])

def execFcmp (h : Hdr) (rel : FCmp) (ty : FTy) (ftz : Bool) (d a b : Opd) (s : State) :
    Host.Outcome State Fault Refusal :=
  issue s (.fcmp h rel ty ftz d a b) h false
    (valueBody h d cmpWidth [(a, ty.width), (b, ty.width)] false .rne
      (fun _ l => fcmpCodes rel ty ftz (arg l 0) (arg l 1)))

def execFcmpImm (h : Hdr) (rel : FCmp) (ty : FTy) (ftz : Bool) (d a : Opd) (imm : BitVec 38) (s : State) :
    Host.Outcome State Fault Refusal :=
  issue s (.fcmpImm h rel ty ftz d a imm) h false
    (valueBody h d cmpWidth [(a, ty.width)] false .rne (fun _ l => fcmpCodes rel ty ftz (arg l 0) (immFlt ty imm)))

def execFrcp (h : Hdr) (ty : FTy) (rm : Rm) (ftz : Bool) (d a : Opd) (s : State) : Host.Outcome State Fault Refusal :=
  issue s (.frcp h ty rm ftz d a) h false (fltBody1 h ty rm ftz true d a frcpF)

def execFrsq (h : Hdr) (ty : FTy) (rm : Rm) (ftz : Bool) (d a : Opd) (s : State) : Host.Outcome State Fault Refusal :=
  issue s (.frsq h ty rm ftz d a) h false (fltBody1 h ty rm ftz true d a frsqF)

def execFsqrt (h : Hdr) (ty : FTy) (rm : Rm) (ftz : Bool) (d a : Opd) (s : State) : Host.Outcome State Fault Refusal :=
  issue s (.fsqrt h ty rm ftz d a) h false (fltBody1 h ty rm ftz true d a fsqrtF)

def execFdiv (h : Hdr) (ty : FTy) (rm : Rm) (ftz : Bool) (d a b : Opd) (s : State) : Host.Outcome State Fault Refusal :=
  issue s (.fdiv h ty rm ftz d a b) h false (fltBody2 h ty rm ftz true d a b fdivF)

def execFexp2 (h : Hdr) (ty : FTy) (rm : Rm) (ftz : Bool) (d a : Opd) (s : State) : Host.Outcome State Fault Refusal :=
  issue s (.fexp2 h ty rm ftz d a) h false (fltBody1 h ty rm ftz true d a fexp2F)

def execFlog2 (h : Hdr) (ty : FTy) (rm : Rm) (ftz : Bool) (d a : Opd) (s : State) : Host.Outcome State Fault Refusal :=
  issue s (.flog2 h ty rm ftz d a) h false (fltBody1 h ty rm ftz true d a flog2F)

def execFrnd (h : Hdr) (ty : FTy) (rm : Rm) (ftz : Bool) (d a : Opd) (s : State) : Host.Outcome State Fault Refusal :=
  issue s (.frnd h ty rm ftz d a) h false (fltBody1 h ty rm ftz false d a frndF)

def execFcvt (h : Hdr) (src ty : FTy) (rm : Rm) (ftz sat : Bool) (d a : Opd) (s : State) :
    Host.Outcome State Fault Refusal :=
  issue s (.fcvt h src ty rm ftz sat d a) h false
    (fun s g => valueBody h d ty.width [(a, src.width)] false rm
      (fun lane l =>
        let x := fltOf src ftz (arg l 0)
        withFlags (codeOf (cvtTo ty rm ftz sat (g.draw rm lane) x)) (snanFlag [x])) s g)

def execIcvt (h : Hdr) (toInt' : Bool) (ity : ITy) (ty : FTy) (rm : Rm) (d a : Opd) (s : State) :
    Host.Outcome State Fault Refusal :=
  issue s (.icvt h toInt' ity ty rm d a) h false
    (fun s g =>
      if toInt' then
        valueBody h d ity.width [(a, ty.width)] false rm
          (fun lane l => toInt ity rm (g.draw rm lane) (fltOf ty false (arg l 0))) s g
      else
        valueBody h d ty.width [(a, ity.width)] false rm
          (fun lane l =>
            let x := intOf ity (arg l 0)
            (g.fctx ty rm false lane).approx (exact (x < 0) x.natAbs 0)) s g)

def execFclass (h : Hdr) (ty : FTy) (d a : Opd) (s : State) : Host.Outcome State Fault Refusal :=
  issue s (.fclass h ty d a) h false
    (plainBody h d 32 [(a, ty.width)] (fun l => BitVec.ofNat 128 (2 ^ classBit ty (low ty.width (arg l 0)))))

end Sys2Proof.Machine
end

