-- ==== Sys2Proof/Machine/Lanes.lean ====
section
/-! DEFINITION. The group and quad instructions (R214 to R217) and the mask instructions (R218). -/

namespace Sys2Proof.Machine

/-! ## Reduction operators (R216, R269) -/

/-- The float type of a reduction's bit-string type (R216). -/
def redFlt (ty : ITy) : FTy :=
  if ty.width = 64 then .f64 else .f32

/-- A float step, to nearest, subnormals kept. -/
def redFltStep (ty : ITy) (f : FCtx → FVal → FVal → Code × FFlags) (a b : Code) : Code × FFlags :=
  let t := redFlt ty
  let x := fltOf t false a
  let y := fltOf t false b
  withFlags (f { ty := t, rm := .rne, ftz := false, draw := 0 } x y) (snanFlag [x, y])

/-- One step of an operator: old and new value (R216, R269). -/
def redStep (op : RedOp) (ty : ITy) (a b : Code) : Code × FFlags :=
  match op with
  | .exch => (b, 0)
  | .add => (wrap ty.width (intOf ty a + intOf ty b), 0)
  | .min => (wrap ty.width (min (intOf ty a) (intOf ty b)), 0)
  | .max => (wrap ty.width (max (intOf ty a) (intOf ty b)), 0)
  | .and => (a &&& b, 0)
  | .or => (a ||| b, 0)
  | .xor => (a ^^^ b, 0)
  | .fadd => redFltStep ty faddF a b
  | .fmin => redFltStep ty (fpickF true) a b
  | .fmax => redFltStep ty (fpickF false) a b

/-- The identity of an operator (R216). -/
def redId (op : RedOp) (ty : ITy) : Code :=
  match op with
  | .exch | .add | .or | .xor => 0
  | .min => wrap ty.width (intMax ty)
  | .max => wrap ty.width (intMin ty)
  | .and => BitVec.ofNat 128 (2 ^ ty.width - 1)
  | .fadd => BitVec.ofNat 128 (2 ^ (ty.width - 1))
  | .fmin | .fmax => BitVec.ofNat 128 (fmtOf (redFlt ty)).nan

/-- One level of the tree: neighbours combined. -/
def treeLevel (f : Code → Code → Code × FFlags) : List Code → List Code × FFlags
  | a :: b :: rest =>
    let r := f a b
    let (l, fl) := treeLevel f rest
    (r.1 :: l, r.2 ||| fl)
  | l => (l, 0)

/-- n levels of the tree (R216). -/
def treeLevels (f : Code → Code → Code × FFlags) : Nat → List Code → List Code × FFlags
  | 0, l => (l, 0)
  | n + 1, l =>
    let (l1, f1) := treeLevel f l
    let (l2, f2) := treeLevels f n l1
    (l2, f1 ||| f2)

/-- The fold of `GSCAN` from a lane on: for each lane its contribution, if it contributes (R216). -/
def scanFold (f : Code → Code → Code × FFlags) (exc : Bool) : Code → List (Option Code) → List Code × FFlags
  | _, [] => ([], 0)
  | acc, none :: rest =>
    let (l, fl) := scanFold f exc acc rest
    (acc :: l, fl)
  | acc, some v :: rest =>
    let r := f acc v
    let (l, fl) := scanFold f exc r.1 rest
    ((if exc then acc else r.1) :: l, r.2 ||| fl)

/-! ## Bodies -/

/-- The partner of a lane (R215). -/
def shflLane (mode : ShflMode) (lane b : Nat) : Int :=
  match mode with
  | .idx => (b % 64 : Nat)
  | .up => (lane : Int) - b
  | .down => (lane : Int) + b
  | .xor => (lane ^^^ (b % 64) : Nat)

/-- R215: the partner's value if it is a lane of `active`, else the lane's own. -/
def Group.partner (g : Group) (a : Opd) (w : Nat) (act : Mask) (lane : Nat) (src : Int) : Code :=
  g.srcLane a w (if 0 ≤ src && src < 64 && act.getLsbD src.toNat then src.toNat else lane)

/-- `SHFL` (R215). The lane number is read at the width of the type: under `.B64` it is the 64 bits of a pair (log entry 63,
DESIGN CHOICE). -/
def shflBody (h : Hdr) (ty : ITy) (mode : ShflMode) (d a b : Opd) : Body := fun s g => do
  g.checkHeld [(d, ty.width), (a, ty.width), (b, ty.width)]
  let act := g.active h
  .ok { s := s, g := g, short := g.writesTo d false ty.width act
          (fun i => g.partner a ty.width act i (shflLane mode i (g.srcLane b ty.width i).toNat)) }

/-- The lane number `QXCH` exchanges with (R215). -/
def qxchLane (mode : QxchMode) (lane : Nat) : Nat :=
  match mode with
  | .h => lane ^^^ 1
  | .v => lane ^^^ 2
  | .d => lane ^^^ 3

def qxchBody (h : Hdr) (ty : ITy) (mode : QxchMode) (d a : Opd) : Body := fun s g => do
  g.checkHeld [(d, ty.width), (a, ty.width)]
  let act := g.active h
  .ok { s := s, g := g,
        short := g.writesTo d false ty.width act (fun i => g.partner a ty.width act i (qxchLane mode i)) }

/-- The contributors whose source is not zero (R217). -/
def Group.nonzero (g : Group) (h : Hdr) (a : Opd) (w : Nat) : Mask :=
  maskOf (fun i => (g.contributors h).getLsbD i && g.srcLane a w i != 0)

/-- R217; with `UNI` an empty `active` writes nothing (R133, log entry 12, DEDUCED). -/
def ballotBody (h : Hdr) (ty : ITy) (d a : Opd) : Body := fun s g => do
  g.checkHeld [(a, ty.width)]
  let word := g.nonzero h a ty.width
  let w : List RegWrite := match d with
    | .x n => [.x n word]
    | .m n => [.m n (BitVec.allOnes 64) word]
    | _ => []
  .ok { s := s, g := g, short := if h.uni && g.active h = 0 then [] else w }

def voteBody (h : Hdr) (ty : ITy) (any : Bool) (d a : Opd) : Body := fun s g => do
  g.checkHeld [(a, ty.width)]
  let nz := g.nonzero h a ty.width
  let truth := if any then nz != 0 else nz == g.contributors h
  .ok { s := s, g := g, short := g.writesTo d false 1 (g.active h) (fun _ => BitVec.ofNat 128 truth.toNat) }

/-- R216: the tree over all 64 positions; an `X` destination is written once. -/
def gredBody (h : Hdr) (op : RedOp) (ty : ITy) (d a : Opd) : Body := fun s g => do
  g.checkHeld [(d, ty.width), (a, ty.width)]
  let con := g.contributors h
  let leaves := allLanes.map (fun i => if con.getLsbD i then g.srcLane a ty.width i else redId op ty)
  let (l, fl) := treeLevels (redStep op ty) 6 leaves
  .ok { s := s, g := g.raiseFlags fl, short := g.writesTo d false ty.width (g.active h) (fun _ => l.headD 0) }

def gscanBody (h : Hdr) (op : RedOp) (ty : ITy) (exc : Bool) (d a : Opd) : Body := fun s g => do
  g.checkHeld [(d, ty.width), (a, ty.width)]
  let con := g.contributors h
  let vals := allLanes.map (fun i => if con.getLsbD i then some (g.srcLane a ty.width i) else none)
  let (l, fl) := scanFold (redStep op ty) exc (redId op ty) vals
  .ok { s := s, g := g.raiseFlags fl, short := g.writesTo d false ty.width (g.active h) (fun i => l.getD i 0) }

/-- A number of a mask (R217): every lane of `active`, or once. -/
def maskCountBody (h : Hdr) (d a : Opd) (f : Mask → Nat) : Body := fun s g => do
  g.checkHeld [(d, 32)]
  let act := g.active h
  let v := f (g.maskVal a)
  .ok { s := s, g := g,
        short := if runsOnce h [d, a] && act = 0 then [] else g.writesTo d false 32 act (fun _ => BitVec.ofNat 128 v) }

/-- A mask form, on all 64 bits (R218). -/
def maskBody (d : Opd) (f : Group → Mask) : Body := fun s g =>
  .ok { s := s, g := g, short := match d with
          | .m n => [.m n (BitVec.allOnes 64) (f g)]
          | .x n => [.x n (f g)]
          | _ => [] }

/-- The 64 bits of a mask or uniform operand. -/
def Group.wordVal (g : Group) (o : Opd) : Word64 :=
  match o with
  | .m n => g.mVal n
  | .x n => g.xVal n
  | _ => 0

/-! ## Instructions -/

def execShfl (h : Hdr) (ty : ITy) (mode : ShflMode) (d a b : Opd) (s : State) : Host.Outcome State Fault Refusal :=
  issue s (.shfl h ty mode d a b) h false (shflBody h ty mode d a b)

def execQxch (h : Hdr) (ty : ITy) (mode : QxchMode) (d a : Opd) (s : State) : Host.Outcome State Fault Refusal :=
  issue s (.qxch h ty mode d a) h false (qxchBody h ty mode d a)

def execBallot (h : Hdr) (ty : ITy) (d a : Opd) (s : State) : Host.Outcome State Fault Refusal :=
  issue s (.ballot h ty d a) h false (ballotBody h ty d a)

def execVote (h : Hdr) (ty : ITy) (any : Bool) (d a : Opd) (s : State) : Host.Outcome State Fault Refusal :=
  issue s (.vote h ty any d a) h false (voteBody h ty any d a)

def execGred (h : Hdr) (op : RedOp) (ty : ITy) (d a : Opd) (s : State) : Host.Outcome State Fault Refusal :=
  issue s (.gred h op ty d a) h false (gredBody h op ty d a)

def execGscan (h : Hdr) (op : RedOp) (ty : ITy) (exc : Bool) (d a : Opd) (s : State) :
    Host.Outcome State Fault Refusal :=
  issue s (.gscan h op ty exc d a) h false (gscanBody h op ty exc d a)

def execMfirst (h : Hdr) (d a : Opd) (s : State) : Host.Outcome State Fault Refusal :=
  issue s (.mfirst h d a) h false (maskCountBody h d a (fun m => (lowest m).getD 64))

def execMpopc (h : Hdr) (d a : Opd) (s : State) : Host.Outcome State Fault Refusal :=
  issue s (.mpopc h d a) h false (maskCountBody h d a count)

def execMand (h : Hdr) (d a b : Opd) (s : State) : Host.Outcome State Fault Refusal :=
  issue s (.mand h d a b) h false (maskBody d (fun g => g.maskVal a &&& g.maskVal b))

def execMor (h : Hdr) (d a b : Opd) (s : State) : Host.Outcome State Fault Refusal :=
  issue s (.mor h d a b) h false (maskBody d (fun g => g.maskVal a ||| g.maskVal b))

def execMxor (h : Hdr) (d a b : Opd) (s : State) : Host.Outcome State Fault Refusal :=
  issue s (.mxor h d a b) h false (maskBody d (fun g => g.maskVal a ^^^ g.maskVal b))

def execMnot (h : Hdr) (d a : Opd) (s : State) : Host.Outcome State Fault Refusal :=
  issue s (.mnot h d a) h false (maskBody d (fun g => ~~~(g.maskVal a)))

def execMmov (h : Hdr) (d a : Opd) (s : State) : Host.Outcome State Fault Refusal :=
  issue s (.mmov h d a) h false (maskBody d (fun g => g.wordVal a))

def execMtox (h : Hdr) (d a : Opd) (s : State) : Host.Outcome State Fault Refusal :=
  issue s (.mtox h d a) h false (maskBody d (fun g => g.maskVal a))

end Sys2Proof.Machine
end

