-- ==== Sys2Proof/Machine/Special.lean ====
section
/-! DEFINITION. Special registers (R188 to R191, R219), the extended halves (R220, R221) and loop queues (R222). -/

namespace Sys2Proof.Machine

/-! ## Values -/

/-- The mesh nodes of a die that are cores, by index: column and row (R18). -/
def meshNodes : List (Nat × Nat) :=
  ((List.range 8).flatMap (fun y => (List.range 9).map (fun x => (x, y)))).filter
    (fun p => !(p.1 == 4 && (p.2 == 0 || p.2 == 3 || p.2 == 4 || p.2 == 7)))

/-- `TOPO` of a core (R28); the column is that of R18 (log entry 13, DEDUCED). -/
def State.topo (s : State) (core : Nat) : Nat :=
  let i := core % 68
  let p := meshNodes.getD i (0, 0)
  core + dieOf core * 2 ^ 9 + i * 2 ^ 11 + p.1 * 2 ^ 18 + p.2 * 2 ^ 22 + (s.core core).part.toNat * 2 ^ 25

/-- `QOCC` (R190). -/
def Group.qocc (g : Group) : Nat :=
  ((List.range 8).map (fun i => (vget g.q i ⟨0, 0, 0, 0⟩).occ.toNat * 2 ^ (4 * i))).sum

/-- The value of a special register in a lane (R188, R131, R140). `SEQNO` is read before its step. In a
spawned group, whose team has no allocation, `SCRBASE` and `FSBASE` read 0 (log entry 66, DESIGN CHOICE). -/
def State.specialVal (s : State) (g : Group) (num : BitVec 12) (lane : Nat) : Nat :=
  let core := g.core.getD 0
  match num.toNat with
  | 0x000 => lane
  | 0x001 => lane / 4
  | 0x002 => g.index.toNat
  | 0x003 => g.teamNo.toNat
  | 0x004 => g.cohort.toNat
  | 0x005 => g.gx.toNat
  | 0x006 => g.gy.toNat
  | 0x007 => g.gz.toNat
  | 0x010 => (vlane g.widx lane).toNat
  | 0x011 => (vlane g.wcnt lane).toNat
  | 0x020 => g.helper.toNat
  | 0x021 => g.fstat.toNat
  | 0x022 => g.srseed.toNat
  | 0x023 => g.srctr.toNat
  | 0x024 => g.qocc
  | 0x025 => g.gmem.toNat
  | 0x026 => g.swin.toNat
  | 0x030 => s.time.toNat
  | 0x031 => (s.nextSeq g).1.toNat
  | 0x040 => s.topo core
  | 0x041 => match s.team? g.team with | some t => t.off | none => 0
  | 0x042 => match s.team? g.team with | some t => t.off + (s.valsOf t).scratch | none => 0
  | 0x043 => g.peergen.toNat
  | 0x050 => 180
  | 0x051 => (s.core core).pgidle.toNat
  | _ => 0

/-- Is a special register's read long: `TSTAMP` and `SEQNO` (R219)? -/
def specialLong (num : BitVec 12) : Bool :=
  num == 0x030 || num == 0x031

/-- The new live and helper lanes of a write to `HELPER` (R135). -/
def Group.setHelper (g : Group) (h : Word64) : Group :=
  let live := g.live
  let cover := maskOf (fun i => (List.range 4).any (fun k => live.getLsbD (i / 4 * 4 + k)))
  let new := h &&& cover &&& ~~~live
  { g with exec := live ||| new, helper := new }

/-- A write to a special register (R219). -/
def Group.setSpecial (g : Group) (num : BitVec 12) (v : Nat) : Group :=
  match num.toNat with
  | 0x020 => g.setHelper (BitVec.ofNat 64 v)
  | 0x021 => { g with fstat := g.fstat &&& ~~~(BitVec.ofNat 6 v) }
  | 0x022 => { g with srseed := BitVec.ofNat 64 v }
  | 0x023 => { g with srctr := BitVec.ofNat 64 v }
  | 0x026 => { g with swin := BitVec.ofNat 6 v }
  | _ => g

/-- The register width a special register moves through. -/
def specialMove (num : BitVec 12) : Nat :=
  match specialReg num with
  | some (w, _) => specialWidth w
  | none => 32

/-! ## Bodies -/

/-- R189, R191, R219: each lane its own value, or once that of the lowest lane of `active`. -/
def mfsBody (h : Hdr) (d : Opd) (num : BitVec 12) : Body := fun s g => do
  let w := specialMove num
  g.checkHeld [(d, w)]
  let act := g.active h
  let once := runsOnce h [d]
  let low := (lowest act).getD 0
  let writes :=
    if once && act = 0 then []
    else g.writesTo d false w act (fun i => BitVec.ofNat 128 (s.specialVal g num (if once then low else i)))
  let s' := if num = 0x031 then (s.nextSeq g).2 else s
  .ok { s := s', g := g, short := if specialLong num then [] else writes,
        long := if specialLong num then [{ writes := writes }] else [] }

/-- R189, R219: from the lowest lane of `active`; an empty `active` writes nothing and takes no fault. -/
def mtsBody (h : Hdr) (num : BitVec 12) (a : Opd) : Body := fun s g =>
  match lowest (g.active h) with
  | none => .ok { s := s, g := g }
  | some i => do
    let w := specialMove num
    g.checkHeld [(a, w)]
    .ok { s := s, g := g.setSpecial num (g.srcLane a w i).toNat }

/-- R220: nothing wanted, too much wanted, or one request and the wait for its grant. -/
def xgrowBody (h : Hdr) (lo hi : Bool) : Body := fun s g =>
  let wantLo := lo && !g.lo
  let wantHi := hi && !g.hi
  let n := wantLo.toNat + wantHi.toNat
  let core := g.core.getD 0
  if n = 0 then .ok { s := s, g := g }
  else if g.blocks + n > (s.core core).xlimit.toNat then .error (trapOf .xgrowbig)
  else
    .ok { s := s.modCore core (fun c => { c with poolReqs := c.poolReqs ++ [⟨g.id, n, c.fired⟩] }), g := g,
          wait := some (.xgrow wantLo wantHi h.sw) }

/-- Does a queue keep an entry's register in the registers lo to hi − 1? -/
def QState.inV (q : QState) (lo hi : Nat) : Bool :=
  q.depth != 0 && q.base.toNat < hi && lo < q.base.toNat + q.depth.toNat

/-- Release the half of registers lo to hi − 1: results and bypass entries go, queues there lose their entries. -/
def Group.dropHalf (g : Group) (lo hi : Nat) : Group :=
  { g.forget (RegWrite.inV lo hi) with
    q := vecOf 8 (fun i =>
      let q := vget g.q i ⟨0, 0, 0, 0⟩
      if q.inV lo hi then ⟨0, 0, 0, 0⟩ else q) }

/-- R221. In a self-fold pass a half that the caller holds too is free for others until the return gives it back without a
request (log entry 64, DESIGN CHOICE). -/
def xdropBody (lo hi : Bool) : Body := fun s g =>
  let g1 := if lo && g.lo then { g.dropHalf 32 48 with lo := false } else g
  let g2 := if hi && g1.hi then { g1.dropHalf 48 64 with hi := false } else g1
  let core := g.core.getD 0
  if (lo && g.lo) || (hi && g.hi) then
    .ok { s := s.modCore core (fun c => { c with growing := c.growing && (s.setGroup g2).holdsPool core }), g := g2 }
  else .ok { s := s, g := g2 }

/-- R222. -/
def qcfgBody (qi : BitVec 3) (depth : BitVec 4) (base : BitVec 6) : Body := fun s g =>
  if depth ≠ 0 && !g.holdsRange base.toNat depth.toNat then .error (trapOf .noxblk)
  else .ok { s := s, g := { g with q := vset g.q qi.toNat ⟨depth, base, 0, 0⟩ } }

/-! ## Instructions -/

def execMfs (h : Hdr) (d : Opd) (num : BitVec 12) (s : State) : Host.Outcome State Fault Refusal :=
  issue s (.mfs h d num) h false (mfsBody h d num)

def execMts (h : Hdr) (num : BitVec 12) (a : Opd) (s : State) : Host.Outcome State Fault Refusal :=
  issue s (.mts h num a) h false (mtsBody h num a)

def execXgrow (h : Hdr) (lo hi : Bool) (s : State) : Host.Outcome State Fault Refusal :=
  issue s (.xgrow h lo hi) h false (xgrowBody h lo hi)

def execXdrop (h : Hdr) (lo hi : Bool) (s : State) : Host.Outcome State Fault Refusal :=
  issue s (.xdrop h lo hi) h false (xdropBody lo hi)

def execQcfg (h : Hdr) (qi : BitVec 3) (depth : BitVec 4) (base : BitVec 6) (s : State) :
    Host.Outcome State Fault Refusal :=
  issue s (.qcfg h qi depth base) h false (qcfgBody qi depth base)

end Sys2Proof.Machine
end

