-- ==== Sys2Proof/Machine/Control.lean ====
section
/-! DEFINITION. Targets and entry records (R94, R95, R157), the exit of a group (R137, R228), spawn bins (R152 to R155),
and the control instructions (R223 to R230). -/

namespace Sys2Proof.Machine

/-! ## Targets (R157) -/

/-- The target of a transfer from slot P. -/
def Group.target (g : Group) (t : Target) : Word64 :=
  match t with
  | .direct disp slot =>
    ((g.pc >>> 6) + disp.signExtend 64) <<< 6 + BitVec.ofNat 64 (12 * slot.toNat)
  | .indirect n => g.xVal n

/-- The fault of a line that a transfer cannot read: a line that translates has been looked up (R424). -/
def lineTrap (c : Cause) (line : Word64) : Trap :=
  { trapAt c line with looked := if c.isWalk then [] else [line] }

/-- The check of a target before a transfer leaves: its line is read, then its low bits, its `TGT` bit and slot 0. -/
def State.checkTarget (s : State) (g : Group) (target : Word64) (slot0 : Bool) : Except Trap Unit :=
  match s.codeLine (s.accessor g) (lineAddr target) with
  | .error c => .error (lineTrap c (lineAddr target))
  | .ok b =>
    if slotOk target && (lineWord b).getLsbD (27 + slotOf target) && (!slot0 || slotOf target == 0) then .ok ()
    else .error { trapAt .badtgt target with looked := [lineAddr target] }

/-- The lines a call reads: its target's, and where that passes its entry record's (R95, R157). -/
def State.callLines (s : State) (g : Group) (target : Word64) : List Word64 :=
  lineAddr target :: (match s.checkTarget g target true with | .ok _ => [lineAddr target - 64] | .error _ => [])

/-- The fetches of a transfer, as accesses that only a TLB sees. -/
def fetchTouch (target : Word64) : Touch :=
  ⟨lineAddr target, 64, false, false⟩

/-- Those of a call: the target's line and its entry record's (R95, R157). -/
def callTouches (target : Word64) : List Touch :=
  [fetchTouch target, fetchTouch (target - 64)]

/-- A fault of a call that has read both lines. -/
def callTrap (target : Word64) (t : Trap) : Trap :=
  { t with looked := (callTouches target).map (fun x => x.va) }

/-- The check of a return's target: low bits only. -/
def checkReturn (target : Word64) : Except Trap Unit :=
  if slotOk target then .ok () else .error (trapAt .badtgt target)

/-! ## Entry records (R94, R95) -/

/-- The reduction fields of a record line. -/
def redFields (b : BitVec 512) : List (BitVec 8) :=
  (List.range 4).map (fun j => b.extractLsb' (128 + 8 * j) 8)

/-- A reduction field holds an operator and a type of the tables. -/
def redOk (r : BitVec 8) : Bool :=
  bitsN r 3 0 ≤ 8 && !r.getLsbD 7

/-- The checks of R95 on a record line that has been read. The reserved bits [23:18] of its line word are not among them (log
entry 14, DESIGN CHOICE). -/
def recordOk (b : BitVec 512) : Bool :=
  let wrule := bitsN b 105 104
  let wlog := bitsN b 108 106
  let nres := bitsN b 118 116
  (lineWord b).getLsbD 16 &&
    bitsN b 479 160 == 0 && bitsN b 127 119 == 0 && bitsN b 111 110 == 0 && !b.getLsbD 103 && bitsN b 95 88 == 0 &&
    bitsN b 63 48 == 0 &&
    (match wrule with
     | 0 => wlog == 0
     | 1 => 1 ≤ wlog && wlog ≤ 4
     | 2 => 1 ≤ wlog && wlog ≤ 3
     | _ => false) &&
    1 ≤ bitsN b 102 96 && bitsN b 102 96 ≤ 64 &&
    bitsN b 115 112 ≤ (if wrule = 2 then 4 else 8) && nres ≤ 4 && bitsN b 87 64 % 128 == 0 &&
    (List.range 4).all (fun j => if j < nres then redOk ((redFields b).getD j 0) else (redFields b).getD j 0 == 0)

/-- The fields of a record line. -/
def recordOf (b : BitVec 512) : EntryRec :=
  { spbase := b.extractLsb' 0 32, spcnt := b.extractLsb' 32 16, frame := bitsN b 87 64, vregs := bitsN b 102 96,
    wrule := bitsN b 105 104, wlog := bitsN b 108 106, gret := b.getLsbD 109, nargs := bitsN b 115 112,
    nres := bitsN b 118 116, red := (redFields b).take (bitsN b 118 116) }

/-- The entry record of a target: the line before it (R93, R95). -/
def State.entryRec (s : State) (g : Group) (target : Word64) : Except Trap EntryRec :=
  let line := lineAddr target - 64
  match s.codeLine (s.accessor g) line with
  | .error c => let t := lineTrap c line; .error { t with looked := lineAddr target :: t.looked }
  | .ok b => if recordOk b then .ok (recordOf b) else .error (callTrap target (trapAt .badentry target))

/-- Does the group hold every half that `V0` to `V[n − 1]` reaches (R225)? -/
def Group.halvesFor (g : Group) (n : Nat) : Bool :=
  (n ≤ 32 || g.lo) && (n ≤ 48 || g.hi)

/-! ## The exit of a group (R137, R155, R228) -/

/-- `GCNT` and the member list of a gang word (R190, R329). -/
def gangCnt (w : Word64) : Nat :=
  bitsN w 31 29

def gangList (w : Word64) : List Nat :=
  (List.range (gangCnt w)).map (fun i => bitsN w (4 * i + 3) (4 * i))

/-- The spawn counters that a spawned group's exit lowers (R155). -/
def State.uncharge (s : State) (charge : List Nat) : State :=
  charge.foldl (fun s t => s.modTeam t (fun t => { t with spawned := t.spawned - 1 })) s

/-- Waiting requests of a group are withdrawn. -/
def State.dropReqs (s : State) (g : Group) : State :=
  match g.core with
  | none => s
  | some c => s.modCore c (fun c =>
    { c with poolReqs := c.poolReqs.filter (fun r => r.gid != g.id)
             tileReqs := c.tileReqs.filter (fun r => r.gid != g.id) })

/-- Members that wait to form a gang with a group that exits take `GANGMIS` (R329). -/
def State.gangExit (s : State) (g : Group) : State :=
  s.groups.foldl (fun s h0 =>
    let h := (s.group? h0.id).getD h0
    match h.wait with
    | some (.gang w _) =>
      if h.team = g.team && (gangList w).contains g.index.toNat then
        (s.dropReqs h).take { h with wait := none } (trapOf .gangmis)
      else s
    | _ => s) s

/-- Has a spawn bin of a launch fired on a core? -/
def Core.firedBin (c : Core) (launch : Nat) : Bool :=
  c.bins.any (fun b => b.fired && (match b.work with | .spawn l _ _ _ => l == launch | .call .. => false))

/-- The copy commands of some teams that end keep the teams' decode tables (R87, R291). -/
def State.keepTables (s : State) (gone : Nat → Bool) : State :=
  { s with cmds := s.cmds.map (fun c =>
      match (if gone c.team then s.team? c.team else none) with
      | some t => { c with dts := some t.dts, dtsBad := t.dtsBad }
      | none => c) }

/-- The teams of a team's cohort, itself among them (R124). -/
def State.cohortMate (s : State) (t u : Team) : Bool :=
  !t.spawn && !u.spawn && u.launch == t.launch && s.cohortOf u == s.cohortOf t

/-- The rest of a cohort remembers where a team that ends has been (R142). -/
def State.keepPast (s : State) (tid : Nat) : State :=
  match s.team? tid with
  | some t =>
    { s with teams := s.teams.map (fun u =>
        if s.cohortMate t u then { u with past := (u.past ++ t.past).eraseDups } else u) }
  | none => s

/-- The end of a team: what the core held for it is free (R137). -/
def State.endTeam (s : State) (tid : Nat) : State :=
  let s1 := (s.keepTables (· == tid)).keepPast tid
  { s1 with teams := s1.teams.filter (fun t => t.id != tid), gangs := s1.gangs.filter (fun g => g.team != tid) }

/-- A team with no group left ends; a spawn team lives on while a bin of its grid has fired (R155). -/
def State.endIfEmpty (s : State) (tid : Nat) : State :=
  match s.team? tid with
  | none => s
  | some t =>
    if s.groups.any (fun g => g.team == tid) || (t.spawn && (s.core (t.core.getD t.home)).firedBin t.launch) then s
    else s.endTeam tid

/-- A group is gone: its slot, its halves, its results and its requests with it (R228), and a register-grow check that finds no
more blocks (R146). -/
def State.removeGroup (s : State) (g : Group) : State :=
  let s1 := s.dropReqs g
  let s2 : State := { s1 with groups := s1.groups.filter (fun h => h.id != g.id) }
  match g.core with
  | some c => s2.idleGrow c
  | none => s2

/-- The exit of a group (R228). -/
def State.exitGroup (s : State) (g : Group) : State :=
  let s1 := s.removeGroup g
  let s2 := match g.kind with | .spawned charge => s1.uncharge charge | _ => s1
  let s3 := match g.kind with | .launched => s2.gangExit g | _ => s2
  s3.endIfEmpty g.team

/-! ## Spawn bins (R152, R153) -/

/-- Fire bin i of a core: its ordinal is the count of fired bins, its own included (R154, log entry 15, DEDUCED). -/
def Core.fire (c : Core) (i : Nat) (now : Word64) : Core :=
  match c.bins[i]? with
  | none => c
  | some b =>
    if b.fired then c
    else { c with fired := c.fired + 1, bins := c.bins.set i { b with fired := true, ord := c.fired + 1, since := now } }

/-- How many items or callee lanes a bin holds. -/
def BinWork.size : BinWork → Nat
  | .spawn _ _ _ items => items.length
  | .call _ _ _ lanes => lanes.length

/-- Does a bin take no more (R152, R251)? Under gather its 64th set fills first (log entry 57, DESIGN CHOICE). -/
def BinWork.full : BinWork → Bool
  | .spawn _ _ _ items => 64 ≤ items.length
  | .call _ _ tgt lanes => 64 ≤ lanes.length &&
      (!tgt.gather || lanes.getLast?.all (fun l => l.closed || 2 ^ tgt.rc.wlog ≤ l.members.length))

/-- The bins of a core (R152). -/
def BINS : Nat := 16

/-- The oldest unfired bin: the one whose first item entered first, also where a resumed team has brought it (R152); of two
opened at one time the first of the core's list (log entry 45, DESIGN CHOICE). -/
def Core.oldestBin (c : Core) : Option Nat :=
  let open_ := c.bins.filter (fun b => !b.fired)
  indexOf? (fun b => !b.fired && open_.all (fun x => b.opened.toNat ≤ x.opened.toNat)) c.bins

/-- Fire the oldest unfired bin, if there is one. -/
def Core.fireOldest (now : Word64) (c : Core) : Core :=
  match c.oldestBin with
  | some i => c.fire i now
  | none => c

/-- The spawn team of a grid on a core, made where there is none (R155). -/
def State.spawnTeam (s : State) (core launch : Nat) : State × Team :=
  match s.teams.find? (fun t => t.spawn && t.launch == launch && t.core == some core) with
  | some t => (s, t)
  | none =>
    let t : Team := { Team.blank s.nextId launch 0 s.time with spawn := true, core := some core, home := core }
    ({ s with teams := s.teams ++ [t], nextId := s.nextId + 1 }, t)

/-- The grid of a bin's spawn items. -/
def BinWork.grid : BinWork → Option Nat
  | .spawn l _ _ _ => some l
  | .call .. => none

/-- Every grid with a fired bin on a core has its spawn team there (R155). -/
def State.formSpawn (s : State) (core : Nat) : State :=
  ((s.core core).bins.filterMap (fun b => if b.fired then b.work.grid else none)).foldl (fun s l => (s.spawnTeam core l).1) s

/-- Put work of one item or lane into the bin of its key, or into a new bin; none when no bin is free. A full bin fires
(R152, R153). -/
def Core.postTo (c : Core) (sameKey : BinWork → Bool) (add : BinWork → BinWork) (new : BinWork) (now : Word64) :
    Option Core :=
  match indexOf? (fun b => !b.fired && sameKey b.work && !b.work.full) c.bins with
  | some i =>
    match c.bins[i]? with
    | none => none
    | some b =>
      let c' := { c with bins := c.bins.set i { b with work := add b.work } }
      some (if (add b.work).full then c'.fire i now else c')
  | none =>
    if c.bins.length < BINS then some { c with bins := c.bins ++ [⟨new, now, false, 0, now, false⟩] } else none

/-- Post one spawn item (R152, R226). -/
def Core.postItem (c : Core) (launch : Nat) (entry : Word64) (vregs : Nat) (item : SpawnItem) (now : Word64) :
    Option Core :=
  c.postTo
    (fun w => match w with | .spawn l e _ _ => l == launch && e == entry | .call .. => false)
    (fun w => match w with | .spawn l e v items => .spawn l e v (items ++ [item]) | w => w)
    (.spawn launch entry vregs [item]) now

/-! ## Bodies -/

/-- R224. -/
def Group.passes (g : Group) (t : Test) : Bool :=
  match t with
  | .always => true
  | .flag ci f neg => (g.cVal ci).getLsbD (flagBit f) != neg
  | .maskZero mi => g.mVal mi == 0
  | .maskNonzero mi => g.mVal mi != 0

/-- `BRA` and `JMP` (R224). -/
def branchBody (t : Target) (test : Test) : Body := fun s g =>
  if g.passes test then do
    s.checkTarget g (g.target t) false
    .ok { s := s, g := g, touches := [fetchTouch (g.target t)], next := some (g.target t) }
  else .ok { s := s, g := g }

/-- A branch and the line it reads where it is taken (R157). -/
def branching (t : Target) (test : Test) : Body :=
  reading (fun _ g => if g.passes test then [lineAddr (g.target t)] else []) (branchBody t test)

/-- `CALL` (R225): the link is a short result. -/
def callBody (t : Target) (link : Opd) : Body := fun s g => do
  let target := g.target t
  s.checkTarget g target true
  let rc ← s.entryRec g target
  if rc.wrule ≠ 0 then .error (callTrap target (trapAt .badwidth target))
  else if !g.halvesFor rc.vregs then .error (callTrap target (trapOf .noxblk))
  else
    .ok { s := s, g := g, short := (match link with | .x n => [.x n (nextSlot g.pc)] | _ => []),
          touches := callTouches target, next := some target }

/-- Forget the last stop site, after a return to a caller (R425). -/
def State.clearLastsp (s : State) (gid : Nat) : State :=
  match s.group? gid with
  | none => s
  | some g => s.setGroup { g with lastsp := 0xFFFF_FFFF, steps := 0 }

/-- `RET` (R225). -/
def retBody (h : Hdr) (link : Opd) : Body := fun s g => do
  let target := g.uni64 link
  checkReturn target
  .ok { s := (s.finish g h [] [] (some target) none).clearLastsp g.id, g := g, final := true }

/-- The team whose spawn counter lane i's item charges (R155). -/
def Group.chargeOf (g : Group) (i : Nat) : Nat :=
  match g.kind with
  | .spawned charge => charge.getD i g.team
  | _ => g.team

/-- The four words of lane i from vector register n on. -/
def Group.itemOf (g : Group) (n : BitVec 6) (i : Nat) : SpawnItem :=
  { words := vecOf 4 (fun k => g.vLane (n + BitVec.ofNat 6 k) i), charge := g.chargeOf i }

/-- Post the items of some lanes in order; the group's `prog` counts those posted. Where no bin is free the oldest
unfired bin fires and the lanes from there on are left (R152, R226). -/
def State.postLanes (s : State) (g : Group) (core launch : Nat) (entry : Word64) (vregs : Nat) (n : BitVec 6) :
    List Nat → State × Group × Bool
  | [] => (s, g, true)
  | i :: rest =>
    let item := g.itemOf n i
    match (s.core core).postItem launch entry vregs item s.time with
    | none => ((s.modCore core (Core.fireOldest s.time)).formSpawn core, g, false)
    | some c =>
      let s1 := ((s.modCore core (fun _ => c)).modTeam item.charge (fun t => { t with spawned := t.spawned + 1 })).formSpawn core
      s1.postLanes { g with prog := g.prog ||| single i } core launch entry vregs n rest

/-- The vector register number of an operand. -/
def vNum : Opd → BitVec 6
  | .v n => n
  | _ => 0

/-- `SPAWN` (R226): without a contributor it has no effect. -/
def spawnBody (h : Hdr) (t : Target) (base : Opd) : Body := fun s g =>
  if g.contributors h = 0 then .ok { s := s, g := g } else post s g
where
 post (s : State) (g : Group) : Except Trap Done := do
  let target := g.target t
  s.checkTarget g target true
  let rc ← s.entryRec g target
  if rc.wrule ≠ 0 || 4 < rc.nargs then .error (callTrap target (trapAt .badwidth target))
  else if !g.holdsRange (vNum base).toNat 4 then .error (callTrap target (trapOf .noxblk))
  else
    let launch := match s.team? g.team with | some t => t.launch | none => 0
    let (s1, g1, all) := s.postLanes g (g.core.getD 0) launch target rc.vregs (vNum base)
      (lanesOf (g.contributors h &&& ~~~g.prog))
    if all then .ok { s := s1, g := g1, touches := callTouches target }
    else .ok { s := s1, g := g1, wait := some .queue, hold := true }

/-- The spawn counters that the group's items would charge (R227, log entry 16, DEDUCED). -/
def Group.chargeTeams (g : Group) : List Nat :=
  match g.kind with
  | .spawned _ => ((lanesOf g.live).map g.chargeOf).eraseDups
  | _ => [g.team]

/-- `SPWAIT` (R227). -/
def spwaitBody (a : Opd) : Body := fun s g =>
  let limit := (g.uni64 a).toNat % 2 ^ 32
  let above := g.chargeTeams.any (fun t =>
    match s.team? t with
    | some t => limit < t.spawned.toNat
    | none => false)
  if above then .ok { s := s, g := g, wait := some .barrier, hold := true }
  else .ok { s := s, g := g }

/-- Quads without a live lane lose their helper lanes (R136). -/
def Group.dropQuads (g : Group) : Group :=
  let keep := maskOf (fun i => (List.range 4).any (fun k => g.live.getLsbD (i / 4 * 4 + k)))
  { g with exec := g.exec &&& keep, helper := g.helper &&& keep }

/-- `EXIT` (R228, R244, R330). -/
def exitBody (h : Hdr) : Body := fun s g =>
  if g.depth ≠ 0 then .error (trapOf .badwidth)
  else
    let act := g.active h
    let g1 := { g with exec := g.exec &&& ~~~act, helper := g.helper &&& ~~~act }.dropQuads
    if g1.live ≠ 0 then .ok { s := s, g := g1 }
    else
      match g.gang with
      | none => .ok { s := (s.countIssue (g.core.getD 0)).exitGroup g1, g := g1, final := true }
      | some k =>
        .ok { s := s.modGang k (fun k => { k with dissolving := k.dissolving ++ [g.id] }), g := g1,
              wait := some (.dissolve h.sw true), hold := true }

/-- `MARK` (R229, R436). -/
def markBody (code : BitVec 32) : Body := fun s g =>
  let part := (s.accessor g).part
  if (s.part part).btrace then
    let (seq, s1) := s.nextSeq g
    .ok { s := s1.trace part (traceRec s.time seq g.gid16 code 1), g := g }
  else .ok { s := s, g := g }

/-- The entry that `TRAP` and `BKPT` make once they have completed (R230): with `SW` = 1 the outstanding results are
delivered first. -/
def trapBody (h : Hdr) (c : Cause) (code : BitVec 32) : Body := fun s g =>
  if h.sw && !g.allReturned then .ok { s := s, g := g, wait := some .results, hold := true }
  else
    match (if h.sw then g.latePoison else none) with
    | some t => .ok { s := s.take g.deliverPend t, g := g, final := true }
    | none =>
      let r := s.causeRec g { cause := c, detail := code }
      let ord := if h.st then s.ordinal g g.pc else none
      let g1 := (g.age.countStep h ord)
      let g2 := { (if h.sw then g1.deliverPend else g1) with wait := none, sampled := false, pass := .no, prog := 0 }
      .ok { s := (s.countIssue (g.core.getD 0)).takeRec g2 c (nextSlot g.pc) r, g := g, final := true }

/-- `BKPT` (R230, R428): with armed breakpoints a hit, which a released group passes. -/
def bkptBody (h : Hdr) (code : BitVec 32) : Body := fun s g =>
  let part := (s.accessor g).part
  if (s.part part).arm then
    if g.pass = .bkpt then .ok { s := s, g := g }
    else
      .ok { s := (s.setGroup { g with stopped := true, pass := .bkpt }).hit part
              (s.hitRec g 2 g.lastsp g.steps false false 0 0), g := g, final := true }
  else trapBody h .bkpt code s g

/-! ## Instructions -/

def execBra (h : Hdr) (disp : BitVec 20) (slot : BitVec 3) (test : Test) (s : State) :
    Host.Outcome State Fault Refusal :=
  issue s (.bra h disp slot test) h false (branching (.direct disp slot) test)

def execJmp (h : Hdr) (treg : BitVec 6) (test : Test) (s : State) : Host.Outcome State Fault Refusal :=
  issue s (.jmp h treg test) h false (branching (.indirect treg) test)

def execCall (h : Hdr) (tgt : Target) (link : Opd) (s : State) : Host.Outcome State Fault Refusal :=
  issue s (.call h tgt link) h false (reading (fun s g => s.callLines g (g.target tgt)) (callBody tgt link))

def execRet (h : Hdr) (link : Opd) (s : State) : Host.Outcome State Fault Refusal :=
  issue s (.ret h link) h false (retBody h link)

def execSpawn (h : Hdr) (disp : BitVec 20) (slot : BitVec 3) (base : Opd) (s : State) :
    Host.Outcome State Fault Refusal :=
  issue s (.spawn h disp slot base) h true
    (reading (fun s g => if g.contributors h = 0 then [] else s.callLines g (g.target (.direct disp slot)))
      (spawnBody h (.direct disp slot) base))

def execSpwait (h : Hdr) (a : Opd) (s : State) : Host.Outcome State Fault Refusal :=
  issue s (.spwait h a) h false (spwaitBody a)

def execExit (h : Hdr) (s : State) : Host.Outcome State Fault Refusal :=
  issue s (.exit h) h true (exitBody h)

def execNop (h : Hdr) (s : State) : Host.Outcome State Fault Refusal :=
  issue s (.nop h) h false (fun s g => .ok { s := s, g := g })

def execMark (h : Hdr) (code : BitVec 32) (s : State) : Host.Outcome State Fault Refusal :=
  issue s (.mark h code) h false (markBody code)

def execBkpt (h : Hdr) (code : BitVec 32) (s : State) : Host.Outcome State Fault Refusal :=
  issue s (.bkpt h code) h false (bkptBody h code)

def execTrap (h : Hdr) (code : BitVec 32) (s : State) : Host.Outcome State Fault Refusal :=
  issue s (.trap h code) h false (trapBody h .trap code)

end Sys2Proof.Machine
end

