-- ==== Sys2Proof/Machine/Tensor.lean ====
section
/-! DEFINITION. Tensor records (R70 to R77, R80, R81), the values of their elements (R63, R64), exact sums (R68), blocks
with two exponents (R65), and the pieces in which an engine reaches a range of memory (R285). -/

namespace Sys2Proof.Machine

/-! ## Records (R70) -/

/-- The 512 bits of a tensor record. -/
abbrev TBits := BitVec 512

def tFmt (r : TBits) : Nat := bitsN r 3 0
def tBlk (r : TBits) : Nat := bitsN r 5 4
def tBsf (r : TBits) : Nat := bitsN r 7 6
def tTsf (r : TBits) : Nat := bitsN r 9 8
def tRnk (r : TBits) : Nat := bitsN r 11 10
def tHad (r : TBits) : Bool := r.getLsbD 12
def tZmv (r : TBits) : Bool := r.getLsbD 13
def tEnt (r : TBits) : Bool := r.getLsbD 14
def tEtab (r : TBits) : Nat := bitsN r 16 15
def tSmb (r : TBits) : Nat := bitsN r 47 32
def tBase (r : TBits) : Nat := bitsN r 127 64
def tExt (r : TBits) (d : Nat) : Nat := bitsN r (159 + 32 * d) (128 + 32 * d)
def tStride (r : TBits) (d : Nat) : Nat := if d = 0 then 0 else bitsN r (255 + 40 * d) (216 + 40 * d)
def tSeed (r : TBits) : Word64 := r.extractLsb' 384 64
def tZtb (r : TBits) : Nat := bitsN r 511 448

/-- What the elements of a record are: a float format, a block with two exponents, an integer. -/
def tTy (r : TBits) : Option FTy :=
  match tFmt r with
  | 0 => some .e4m3 | 1 => some .e5m2 | 2 => some .e2m1 | 3 => some .dxb8 | 4 => some .dxb4 | 5 => some .bf16
  | 6 => some .f16 | 7 => some .f32 | 8 => some .f64 | 9 => some .mi8 | 10 => some .mn8 | _ => none

/-- E4M3, E5M2 or E2M1. -/
def tNarrow (r : TBits) : Bool := tFmt r ≤ 2

/-- A format of blocks with two exponents. -/
def tDxb (r : TBits) : Bool := tFmt r == 3 || tFmt r == 4

/-- The bits of an element (R63, R71). -/
def tWidth (r : TBits) : Nat :=
  match tFmt r with
  | 2 | 4 => 4
  | 5 | 6 => 16
  | 7 | 11 => 32
  | 8 => 64
  | _ => 8

/-- The block size, 0 for an unscaled record. -/
def tBs (r : TBits) : Nat := if tBlk r = 0 then 0 else 4 * 2 ^ tBlk r

/-- The number of block scales (R76). -/
def tBlocks (r : TBits) : Nat :=
  if tBs r = 0 then 0 else tExt r 0 / tBs r * tExt r 1 * tExt r 2 * tExt r 3

/-- Does a record break a rule of R72, but for its address? -/
def recordBad (r : TBits) (window tables : Nat) : Bool :=
  bitsN r 383 376 != 0 || bitsN r 63 48 != 0 || bitsN r 31 17 != 0 || 12 ≤ tFmt r || tBsf r == 3 || tTsf r == 3 ||
  (List.range 4).any (fun d =>
    if d ≤ tRnk r then tExt r d == 0 else tExt r d != 1 || tStride r d != 0) ||
  (tBlk r != 0 && !tNarrow r) || (tTsf r != 0 && tBlk r == 0) || (tBlk r != 0 && tExt r 0 % tBs r != 0) ||
  (tDxb r && tExt r 0 % 32 != 0) || (tFmt r == 2 && tExt r 0 % 2 != 0) ||
  (tHad r && (!(tNarrow r || tDxb r) || tExt r 0 % 32 != 0)) ||
  (tEnt r && (!(tNarrow r || tFmt r == 9 || tFmt r == 10) || tables ≤ tEtab r)) ||
  2 ^ 56 ≤ tBase r || (tZmv r && (2 ^ 56 ≤ tZtb r || tZtb r % 8 != 0)) ||
  (tBlk r != 0 && window < tSmb r + tBlocks r)

/-! ## Coordinates and addresses -/

/-- Coordinates of an element. -/
structure Pos where
  i0 : Nat
  i1 : Nat
  i2 : Nat
  i3 : Nat
  deriving DecidableEq, Repr

/-- A position word (R282, R328). -/
def posOf (w : Word64) : Pos :=
  ⟨bitsN w 23 0, bitsN w 39 24, bitsN w 51 40, bitsN w 63 52⟩

/-- The byte offset of index i0 in its row (R71): of its block for a format of blocks. -/
def rowOff (r : TBits) (i0 : Nat) : Nat :=
  match tFmt r with
  | 3 => i0 / 32 * 34
  | 4 => i0 / 32 * 18
  | _ => i0 * tWidth r / 8

/-- The byte address of an element: of its block for a format of blocks (R71). -/
def elemAddr (r : TBits) (p : Pos) : Word64 :=
  BitVec.ofNat 64 (tBase r + p.i1 * tStride r 1 + p.i2 * tStride r 2 + p.i3 * tStride r 3 + rowOff r p.i0)

/-- The bytes of n elements of a row that start on a byte. -/
def rowBytes (r : TBits) (n : Nat) : Nat :=
  rowOff r n

/-- The block of an element (R76). -/
def blockIndex (r : TBits) (p : Pos) : Nat :=
  p.i0 / tBs r + tExt r 0 / tBs r * (p.i1 + tExt r 1 * (p.i2 + tExt r 2 * p.i3))

/-- The tile of an element (R81). -/
def tileIndex (r : TBits) (p : Pos) : Nat :=
  p.i0 / 64 + (tExt r 0 + 63) / 64 * (p.i1 / 8 + (tExt r 1 + 7) / 8 * (p.i2 + tExt r 2 * p.i3))

/-- The number of tiles. -/
def tileCount (r : TBits) : Nat :=
  (tExt r 0 + 63) / 64 * ((tExt r 1 + 7) / 8) * tExt r 2 * tExt r 3

/-- The address of the map byte of a tile (R81). -/
def mapAddr (r : TBits) (t : Nat) : Word64 :=
  BitVec.ofNat 64 (tZtb r + t / 8)

/-- Does a position lie inside the extents? -/
def inExtents (r : TBits) (p : Pos) : Bool :=
  p.i0 < tExt r 0 && p.i1 < tExt r 1 && p.i2 < tExt r 2 && p.i3 < tExt r 3

/-- The entry an identifier names, or `BADTID` (R73). -/
def Team.tensor (t : Team) (tid : BitVec 6) : Except Trap TBits :=
  match t.tids.getD tid.toNat none with
  | some r => .ok r
  | none => .error (trapOf .badtid)

/-! ## Values -/

/-- A signed integer as an exact value. -/
def intVal (x : Int) : FVal :=
  .fin (x < 0) x.natAbs 0

/-- An element of a block with two exponents under its header (R63, R64). -/
def dxbVal (eight : Bool) (header code : Nat) : FVal :=
  let mb := if eight then 6 else 2
  let e := header / (if code / 2 ^ mb % 2 = 1 then 256 else 1) % 256
  if header % 256 = 255 || header / 256 % 256 = 255 then .nan false
  else .fin (code / 2 ^ (mb + 1) % 2 == 1) (code % 2 ^ mb) ((e : Int) - (if eight then 132 else 128))

/-- The value of an element's code; `header` is that of its block. -/
def elemVal (ty : FTy) (header code : Nat) : FVal :=
  match ty with
  | .dxb8 => dxbVal true header (code % 256)
  | .dxb4 => dxbVal false header (code % 16)
  | .mi8 => intVal (BitVec.ofNat 8 code).toInt
  | .mn8 => .fin false (code % 256) 0
  | _ => valOf ty code

/-- A block scale's value by `BSF` (R70, R76). -/
def scaleVal (bsf code : Nat) : FVal :=
  match bsf with
  | 0 => decodeE8M0 code
  | 1 => valOf .e4m3 code
  | _ => valOf .e5m2 code

/-- The value 1. -/
def oneVal : FVal :=
  .fin false 1 0

/-- A tensor scale from its register (R77). -/
def tensorScale (tsf : Nat) (x : Word64) : FVal :=
  match tsf with
  | 1 => valOf .f32 (x.toNat % 2 ^ 32)
  | 2 => valOf .bf16 (x.toNat % 2 ^ 16)
  | _ => oneVal

/-! ## Exact sums (R68) -/

/-- The exact sum of some values and whether it is invalid: a NaN, or infinities of both signs, make it a NaN (with a NaN
among them as well: log entry 39, DEDUCED); a zero is −0 when every term is −0, else +0 (R68; in the Hadamard transform log
entry 39, DEDUCED). -/
def sumVals (l : List FVal) : FVal × Bool :=
  let pos := l.any (fun v => v == .inf false)
  let neg := l.any (fun v => v == .inf true)
  if l.any FVal.isNan || (pos && neg) then (.nan false, pos && neg)
  else if pos || neg then (.inf neg, false)
  else
    let s := l.foldl (fun acc v => (addVal false acc v).1) (.fin false 0 0)
    (if s.isZero then .fin (l.all (fun v => v.isZero && v.neg) && !l.isEmpty) 0 0 else s, false)

/-- The exact sum of some products. -/
def sumProducts (l : List (FVal × FVal)) : FVal × Bool :=
  let ms := l.map (fun p => mulVal p.1 p.2)
  let s := sumVals (ms.map (·.1))
  (s.1, s.2 || ms.any (·.2))

/-- Round to nearest even into FP32 or FP64; only `INEXACT` counts (R66, R69). -/
def roundNe (f : Fmt) (v : FVal) : FVal × FFlags :=
  let r := f.roundVal .rne false false 0 v
  (f.decode r.1, r.2)

/-- acc := rne(acc + term): once a NaN, the canonical NaN (R66 to R68). -/
def accAdd (f : Fmt) (acc term : FVal) : FVal × FFlags :=
  let a := addVal false acc term
  let r := roundNe f a.1
  (r.1, r.2 ||| flagIf a.2 fInvalid)

/-- The code of an accumulator value. -/
def accCode (f : Fmt) (v : FVal) : Nat :=
  (f.roundVal .rne false false 0 v).1

/-- Step 4 of R67: exact for BF16 scales (an exact 1 counts as one), else rounded. -/
def tensorScales (tsfA tsfB : Nat) (a b : FVal) : FVal × FFlags :=
  let m := mulVal a b
  if tsfA ≠ 1 && tsfB ≠ 1 then (m.1, flagIf m.2 fInvalid)
  else
    let r := roundNe fmtF32 m.1
    (r.1, r.2 ||| flagIf m.2 fInvalid)

/-- Step 5 of R67: the term of a block, with `NANSCALE` for a scale that is a NaN (R68), and `INVALID` for a signalling one
(R48). -/
def blockTerm (sum : FVal × Bool) (sa sb ta tb : FVal) (tsc : FVal × FFlags) : FVal × FFlags :=
  let nan := sa.isNan || sb.isNan || ta.isNan || tb.isNan
  let sc := mulVal sa sb
  let m1 := mulVal sum.1 sc.1
  let m2 := mulVal m1.1 tsc.1
  let r := roundNe fmtF32 m2.1
  (r.1, r.2 ||| tsc.2 ||| flagIf (sum.2 || sc.2 || m1.2 || m2.2 || ta.isSnan || tb.isSnan) fInvalid |||
    flagIf nan fNanscale)

/-! ## Hadamard rotation (R80) -/

/-- The sign of element j of sign block sb: −1? -/
def hadNeg (seed : Word64) (sb j : Nat) : Bool :=
  let word := lattice seed 17 0 (BitVec.ofNat 64 (2 * sb + 1)) * 2 ^ 16 + lattice seed 17 0 (BitVec.ofNat 64 (2 * sb))
  word / 2 ^ j % 2 == 1

/-- H[i][j] is −1? -/
def hadEntry (i j : Nat) : Bool :=
  popN 32 (i &&& j) % 2 == 1

/-- The exact sum of H[j][m] × sign[m] × x[m] over finite values. -/
def hadSum (seed : Word64) (sb j : Nat) (xs : List FVal) : FVal :=
  (sumVals (xs.zipIdx.map (fun (x, m) => if hadNeg seed sb m != hadEntry j m then x.negate else x))).1

/-- An exact number, divided by √32 or not. -/
structure Exact where
  val : FVal
  root32 : Bool
  deriving DecidableEq, Repr

/-- man × 2^exp / (√32 × dm × 2^de), dm not 0, as a root of the quotient of the squares. -/
def overRoot32 (neg : Bool) (m : Nat) (e : Int) (dm : Nat) (de : Int) : Approx :=
  let n := 2 * m * m * 2 ^ (2 * guardBits)
  let r := isqrt (n / (dm * dm))
  ⟨neg, r, e - de - 3 - guardBits, r * r * (dm * dm) != n⟩

/-- The value divided by a positive or negative exact number, ready to round. -/
def Exact.over (x : Exact) (dneg : Bool) (dm : Nat) (de : Int) : Approx :=
  match x.val with
  | .fin n m e => if x.root32 then overRoot32 (n != dneg) m e dm de else quotient (n != dneg) m e dm de
  | _ => ⟨false, 0, 0, false⟩

/-! ## Quantising blocks with two exponents (R65) -/

/-- |v| / 2^q rounded to an integer by a mode, with whether it was exact. -/
def Exact.roundInt (x : Exact) (q : Int) (rm : Rm) (draw : Nat) : Nat × Bool :=
  match x.val with
  | .fin _ m e => if m = 0 then (0, false) else (if x.root32 then overRoot32 false m e 1 0 else exact false m e).at_ q rm draw
  | _ => (0, false)

def FVal.isFinite : FVal → Bool
  | .fin _ _ _ => true
  | _ => false

/-- The larger magnitude of two finite values. -/
def maxMag (a b : Exact) : Exact :=
  match a.val, b.val with
  | .fin _ m1 e1, .fin _ m2 e2 => if magLt m1 e1 m2 e2 then b else a
  | _, _ => a

/-- The least e from lo on, at most fuel steps up, for which amax rounds to at most mmax; else 254. -/
def leastExp (amax : Exact) (bias mmax : Nat) (rm : Rm) (draw : Nat) : Nat → Nat → Nat
  | 0, _ => 254
  | fuel + 1, e =>
    if (amax.roundInt ((e : Int) - bias) rm draw).1 ≤ mmax then e else leastExp amax bias mmax rm draw fuel (e + 1)

/-- The header, the 32 element codes and the flags of a block; draws by element. -/
def quantDxb (eight : Bool) (rm : Rm) (xs : List Exact) (draws : List Nat) : Nat × List Nat × FFlags :=
  let mb := if eight then 6 else 2
  let bias := if eight then 132 else 128
  let gap := if eight then 6 else 2
  let mmax := 2 ^ mb - 1
  if xs.any (fun x => !x.val.isFinite) then
    (0xFFFF, List.replicate 32 0, flagIf (xs.any (fun x => x.val.isInf)) fInvalid)
  else
    let amax := xs.foldl maxMag ⟨.fin false 0 0, false⟩
    let k := ((indexOf? (fun x => x == amax) xs).getD 0)
    let signBit (x : Exact) : Nat := if x.val.neg then 2 ^ (mb + 1) else 0
    if amax.val.isZero then (0, xs.map signBit, 0)
    else
      let e1 := leastExp amax bias mmax rm (draws.getD k 0) 255 0
      let e0 := e1 - gap
      let one (x : Exact) (draw : Nat) : Nat × FFlags :=
        let (m0, i0) := x.roundInt ((e0 : Int) - bias) rm draw
        let (m1, i1) := x.roundInt ((e1 : Int) - bias) rm draw
        let sel := mmax < m0
        let m := if sel then min m1 mmax else m0
        (signBit x + (if sel then 2 ^ mb else 0) + m,
          flagIf (sel && mmax < m1) fOverflow ||| flagIf (m = 0 && !x.val.isZero) fUnderflow |||
          flagIf (if sel then i1 || mmax < m1 else i0) fInexact)
      let l := xs.zipIdx.map (fun (x, i) => one x (draws.getD i 0))
      (e1 * 256 + e0, l.map (·.1), l.foldl (fun f p => f ||| p.2) 0)

/-! ## Ranges of memory that an engine reaches -/

/-- Cut a range into pieces that lie in one page of 64 KiB, or in one scratchpad line. -/
def spansOf (fuel : Nat) (va : Word64) (n : Nat) : List (Word64 × Nat) :=
  match fuel with
  | 0 => []
  | fuel + 1 =>
    if n = 0 then []
    else
      let room := if va.toNat < SRAM_BASE then 2 ^ 16 - va.toNat % 2 ^ 16 else 128 - va.toNat % 128
      if n ≤ room then [(va, n)] else (va, room) :: spansOf fuel (va + BitVec.ofNat 64 room) (n - room)

/-- The pieces of a range: at most one to each 128 bytes and two more. -/
def spans (va : Word64) (n : Nat) : List (Word64 × Nat) :=
  spansOf (n / 128 + 2) va n

/-- The address that a failed probe names: that of its page of 64 KiB, or the first one probed in a scratchpad line (R403;
log entry 27, DEDUCED). -/
def probeAddr (va : Word64) : Word64 :=
  if va.toNat < SRAM_BASE then va - BitVec.ofNat 64 (va.toNat % 2 ^ 16) else va

/-- Probe a range (R284): each piece passes the checks of R256; the pages it lies in. A fault has looked up the pages before. -/
def State.probe (s : State) (a : Accessor) (use : Use) (va : Word64) (n : Nat) (have_ : List Page) :
    Except Trap (List Page) :=
  (spans va n).foldlM (fun ps p =>
    match s.locOf a use p.1 with
    | .error c => .error { trapAt c (probeAddr p.1) with looked := ps.map (fun q => BitVec.ofNat 64 (q.va * 2 ^ 16)) }
    | .ok _ =>
      if p.1.toNat < SRAM_BASE && !ps.any (fun q => q.va == p.1.toNat / 2 ^ 16) then .ok (ps ++ s.pageOf a.tlb a.part p.1)
      else .ok ps) have_

/-- The location of an address of an operation that holds pages, on a core. -/
def pageLoc (core : Option Nat) (pages : List Page) (va : Word64) : Nat :=
  match regionOf core va with
  | .scratch c off => scrLoc c off
  | _ =>
    match pages.find? (fun p => p.va == va.toNat / 2 ^ 16) with
    | some p => p.pa + va.toNat % 2 ^ 16
    | none => 0

/-- Who moves bytes: the core whose local window it is, the pages held. -/
structure Reach where
  core : Option Nat
  pages : List Page

/-- The bytes of a range. -/
def State.reachRead (s : State) (r : Reach) (va : Word64) (n : Nat) : List Byte :=
  (spans va n).flatMap (fun p => Memory.readN s.mem (pageLoc r.core r.pages p.1) p.2)

/-- Is byte k of a range poisoned, for each k. -/
def State.reachPoison (s : State) (r : Reach) (va : Word64) (n : Nat) : List Nat :=
  if s.poison.isEmpty then []
  else (List.range n).filter (fun k => s.poison.contains (pageLoc r.core r.pages (va + BitVec.ofNat 64 k) / 16))

/-- Write a range: the pieces take their bytes. -/
def State.reachWrite (s : State) (r : Reach) (va : Word64) (bs : List Byte) : State :=
  ((spans va bs.length).foldl (fun (acc : State × List Byte) p =>
    (acc.1.write (pageLoc r.core r.pages p.1) (acc.2.take p.2), acc.2.drop p.2)) (s, bs)).1

/-- Poison the units of some bytes of a range. -/
def State.reachMark (s : State) (r : Reach) (va : Word64) (ks : List Nat) : State :=
  ks.foldl (fun s k => s.setPoison (pageLoc r.core r.pages (va + BitVec.ofNat 64 k))) s

/-- The scratchpad lines of a range, by a location in each. -/
def Reach.lines (r : Reach) (va : Word64) (n : Nat) : List Nat :=
  ((spans va n).filterMap (fun p =>
    match regionOf r.core p.1 with
    | .scratch c off => some (scrLoc c (off - off % 128))
    | _ => none)).eraseDups

/-- Clear the map bit of a tile (R83), by an atomic AND on its byte, which writes nothing on poison (R420). -/
def State.clearTile (s : State) (r : Reach) (rec : TBits) (t : Nat) : State :=
  let loc := pageLoc r.core r.pages (mapAddr rec t)
  if (s.poisonIn loc 1).isSome then s else s.writeNat loc 1 ((s.readNat loc 1) &&& (255 - 2 ^ (t % 8)))

/-- Clear the map bits of some tiles where the map is in use (R81, R83). -/
def State.clearTiles (s : State) (r : Reach) (rec : TBits) (ts : List Nat) : State :=
  if tZmv rec then ts.eraseDups.foldl (fun s t => s.clearTile r rec t) s else s

/-- Probe the map bytes of some tiles, to write. -/
def State.probeMap (s : State) (a : Accessor) (rec : TBits) (ts : List Nat) (have_ : List Page) :
    Except Trap (List Page) :=
  if tZmv rec then ts.eraseDups.foldlM (fun ps t => s.probe a .write (mapAddr rec t) 1 ps) have_ else .ok have_

end Sys2Proof.Machine
end

