-- ==== Sys2Proof/Machine/Command.lean ====
section
/-! DEFINITION. A copy command: the fields and the limits of its entry (R282, R283), what each unit of it moves (R283, R287,
R382), what it reads and writes, and the allocations it reaches (R291, R417). -/

namespace Sys2Proof.Machine

/-! ## Entries (R282) -/

/-- The 256 bits of a command entry. -/
abbrev Entry := BitVec 256

def eKind (e : Entry) : Nat := bitsN e 3 0
def eEmp (e : Entry) : Bool := e.getLsbD 5
def eArrv (e : Entry) : Bool := e.getLsbD 6
def eTid (e : Entry) : BitVec 6 := e.extractLsb' 8 6
def eRowb (e : Entry) : Nat := bitsN e 31 16
def eCount (e : Entry) : Nat := bitsN e 61 32
def eIdx (e : Entry) : Nat := bitsN e 79 62
def eBar (e : Entry) : Nat := bitsN e 95 80
def eAux (e : Entry) : Nat := bitsN e 127 96
def eSrc (e : Entry) : Word64 := e.extractLsb' 128 64
def eDst (e : Entry) : Word64 := e.extractLsb' 192 64

/-- Does an address lie in a scratchpad window (R26, R27)? -/
def inScr (va : Word64) : Bool :=
  let n := va.toNat
  (SRAM_BASE ≤ n && n < SRAM_BASE + 0x2000_0000) || (LOCAL_BASE ≤ n && n < LOCAL_BASE + 2 ^ 20)

/-- The limits of a kind that need no record (R282, R283). -/
def entryOk (v : Vals) (e : Entry) : Bool :=
  let rows := eCount e ≤ 65536 && eRowb e % 4 == 0 && 4 ≤ eRowb e && (eSrc e).toNat % 4 == 0 &&
    (eDst e).toNat % 4 == 0 && eTid e == 0
  bitsN e 15 14 == 0 && !e.getLsbD 7 && !e.getLsbD 4 && (eArrv e || eBar e == 0) &&
  (eKind e == 1 || eKind e == 2 || eIdx e == 0) &&
  (match eKind e with
   | 0 => eAux e == 0 && eRowb e == 0 && eTid e == 0
   | 1 => rows && inScr (eDst e)
   | 2 => rows && inScr (eSrc e)
   | 3 => inScr (eDst e)
   | 4 => eAux e == 0 && inScr (eSrc e)
   | 5 => eCount e == 0 && eAux e == 0 && eRowb e == 0 && eDst e == 0 && (eTid e).toNat < v.dtc
   | 6 => eAux e == 0 && eRowb e == 0 && eTid e == 0 && (eDst e).toNat + eCount e ≤ 64 * v.smw
   | 7 => eCount e == 0 && eAux e == 0 && eRowb e == 0 && (eTid e).toNat < 4
   | _ => false)

/-- The limits of `TLOAD` and `TSTORE` that the record sets (R283). -/
def tensorOk (e : Entry) (r : TBits) : Bool :=
  let n := eCount e
  if tEnt r then eKind e == 3 && eRowb e == 1 && (tFmt r != 2 || n % 2 == 0)
  else
    let p := posOf (if eKind e = 3 then eSrc e else eDst e)
    eAux e == 0 && p.i0 + n ≤ tExt r 0 && p.i1 + eRowb e ≤ tExt r 1 && p.i2 < tExt r 2 && p.i3 < tExt r 3 &&
    (tFmt r != 2 || (p.i0 % 2 == 0 && n % 2 == 0)) && (!tDxb r || (p.i0 % 32 == 0 && n % 32 == 0))

/-! ## The units of a command (R283, R286) -/

/-- The record of a command, 0 where its kind has none. -/
def Cmd.recBits (c : Cmd) : TBits :=
  match c.trec with
  | some r => r.bits
  | none => 0

/-- Is the command a `TLOAD` that decodes (R87)? -/
def Cmd.decodes (c : Cmd) : Bool :=
  eKind c.entry == 3 && tEnt c.recBits

/-- The fields of a tile descriptor (R380). -/
def tdRowb (t : BitVec 256) : Nat := bitsN t 23 0
def tdRows (t : BitVec 256) : Nat := bitsN t 47 24
def tdSstr (t : BitVec 256) : Nat := bitsN t 87 48
def tdDstr (t : BitVec 256) : Nat := bitsN t 127 88
def tdDpstr (t : BitVec 256) : Nat := bitsN t 191 152
def tdSpstr (t : BitVec 256) : Nat := bitsN t 231 192
def tdPlanes (t : BitVec 256) : Nat := bitsN t 255 232

/-- The source and destination offsets of row u of a tile, counted over all planes (R380). -/
def tdRow (t : BitVec 256) (u : Nat) : Nat × Nat :=
  let p := u / max 1 (tdRows t)
  let r := u % max 1 (tdRows t)
  (p * tdSpstr t + r * tdSstr t, p * tdDpstr t + r * tdDstr t)

/-- What becomes of row r of a `GATHER` or a `SCATTER` (R287). -/
inductive Fate where
  | moved | skipped | outside
  deriving DecidableEq, Repr

def Cmd.rowIndex (c : Cmd) (r : Nat) : Nat :=
  (c.idx.getD r 0).toNat

def Cmd.fate (c : Cmd) (r : Nat) : Fate :=
  if c.rowIndex r < eAux c.entry then .moved else if c.rowIndex r = 0xFFFF_FFFF then .skipped else .outside

/-- The number of units: lines of the destination, rows and the status map, rows, or the whole command. -/
def Cmd.units (c : Cmd) : Nat :=
  let e := c.entry
  match eKind e with
  | 0 => if eCount e = 0 then 0 else ((eDst e).toNat % 128 + eCount e + 127) / 128
  | 1 => eCount e + 1
  | 2 => eCount e
  | 3 => if tEnt c.recBits then 1 else eRowb e
  | 4 => eRowb e
  | 7 => tdPlanes (c.tile.getD 0) * tdRows (c.tile.getD 0)
  | _ => 1

/-- A range of bytes: where it starts and how long it is. -/
abbrev Range := Word64 × Nat

/-- A word64 sum with a number. -/
def plus (a : Word64) (n : Nat) : Word64 :=
  a + BitVec.ofNat 64 n

/-- The destination range of a unit in memory, if it has one. -/
def Cmd.dstOf (c : Cmd) (u : Nat) : Option Range :=
  let e := c.entry
  match eKind e with
  | 0 =>
    let start := if u = 0 then 0 else 128 * u - (eDst e).toNat % 128
    let stop := min (eCount e) (128 * (u + 1) - (eDst e).toNat % 128)
    some (plus (eDst e) start, stop - start)
  | 1 =>
    if u = eCount e then some (plus (eDst e) (eCount e * eRowb e), 4 * ((eCount e + 31) / 32))
    else if c.fate u = .skipped then none
    else some (plus (eDst e) (u * eRowb e), eRowb e)
  | 2 => if c.fate u = .moved then some (plus (eDst e) (c.rowIndex u * eRowb e), eRowb e) else none
  | 3 => some (plus (eDst e) (u * rowBytes c.recBits (eCount e)), rowBytes c.recBits (eCount e))
  | 4 => let p := posOf (eDst e); some (elemAddr c.recBits { p with i1 := p.i1 + u }, rowBytes c.recBits (eCount e))
  | 7 => some (plus (eDst e) (tdRow (c.tile.getD 0) u).2, tdRowb (c.tile.getD 0))
  | _ => none

/-- The source range of a unit, if it reads one. -/
def Cmd.srcOf (c : Cmd) (u : Nat) : Option Range :=
  let e := c.entry
  match eKind e with
  | 0 => (c.dstOf u).map (fun d => (eSrc e + (d.1 - eDst e), d.2))
  | 1 => if u < eCount e && c.fate u = .moved then some (plus (eSrc e) (c.rowIndex u * eRowb e), eRowb e) else none
  | 2 => if c.fate u = .moved then some (plus (eSrc e) (u * eRowb e), eRowb e) else none
  | 3 =>
    if tEnt c.recBits then some (eSrc e, eAux e)
    else let p := posOf (eSrc e); some (elemAddr c.recBits { p with i1 := p.i1 + u }, rowBytes c.recBits (eCount e))
  | 4 => some (plus (eSrc e) (u * rowBytes c.recBits (eCount e)), rowBytes c.recBits (eCount e))
  | 5 => some (eSrc e, 1024)
  | 6 => some (eSrc e, eCount e)
  | 7 => some (plus (eSrc e) (tdRow (c.tile.getD 0) u).1, tdRowb (c.tile.getD 0))
  | _ => none

/-- The tiles a `TSTORE` unit writes (R81, R83). -/
def Cmd.tilesOf (c : Cmd) (u : Nat) : List Nat :=
  if eKind c.entry = 4 && eCount c.entry ≠ 0 then
    let p := posOf (eDst c.entry)
    (List.range ((p.i0 + eCount c.entry - 1) / 64 - p.i0 / 64 + 1)).map (fun k =>
      tileIndex c.recBits { p with i0 := p.i0 + 64 * k, i1 := p.i1 + u })
  else []

/-- The ranges read and written as a whole: those of the units, but a `COPY` in one piece. -/
def Cmd.reads (c : Cmd) : List Range :=
  if eKind c.entry = 0 then [(eSrc c.entry, eCount c.entry)] else (List.range c.units).filterMap c.srcOf

def Cmd.writes (c : Cmd) : List Range :=
  if eKind c.entry = 0 then [(eDst c.entry, eCount c.entry)] else (List.range c.units).filterMap c.dstOf

/-- The map bytes in which a write of some tiles clears a bit (R83). -/
def mapRanges (r : TBits) (ts : List Nat) : List Range :=
  if tZmv r then ts.eraseDups.map (fun t => (mapAddr r t, 1)) else []

/-- Those of a unit. -/
def Cmd.mapOf (c : Cmd) (u : Nat) : List Range :=
  mapRanges c.recBits (c.tilesOf u)

/-- Every range that a command reads or writes, its map bytes among them. -/
def Cmd.ranges (c : Cmd) : List Range :=
  c.reads ++ c.writes ++ (List.range (if eKind c.entry = 4 then c.units else 0)).flatMap c.mapOf

def Cmd.reach (c : Cmd) : Reach :=
  ⟨some c.core, c.pages⟩

/-- The fork a command is of (R284, R434). -/
def Cmd.fork (c : Cmd) : Fork :=
  { part := c.part, core := some c.core, issuer := c.issuer, gid := c.gid16, seq := c.seqno, spord := c.spord }

/-! ## Commands and swaps (R291, R417) -/

/-- Does a range, named from a core, reach the allocation of a team, where the team stands or stood last? -/
def State.reachesPlace (s : State) (core : Nat) (u : Team) (r : Range) : Bool :=
  (spans r.1 r.2).any (fun p =>
    match regionOf (some core) p.1 with
    | .scratch c off => !u.spawn && c == u.core.getD u.home && u.off ≤ off && off < u.off + s.allocSize u
    | _ => false)

/-- Does a command read or write the allocation of a team of its issuer's cohort that is as far out as p says? -/
def State.cmdReaches (s : State) (c : Cmd) (p : Swap → Bool) : Bool :=
  s.teams.any (fun u => p u.swap && u.launch == c.launch && s.cohortOf u == c.cohort && c.ranges.any (s.reachesPlace c.core u))

/-- Is a command where it can start: its issuer's team stays on the core, and no allocation that it reads or writes departs or
has left (R417)? A team's end leaves its commands (R291): they hold back the swap-outs of what they reach, and start until one
of them is complete. -/
def State.cmdPlaced (s : State) (c : Cmd) : Bool :=
  match s.team? c.team with
  | some t => t.core == some c.core && t.swap == .resident && !s.cmdReaches c (· != .resident)
  | none => !s.cmdReaches c (· == .out)

/-- Is a command one that a swap saves, or has saved: not started when the cut came of its team, or of a team of its cohort
whose allocation it reads or writes (R417)? Later commands that touch no departing allocation go on without it. -/
def State.cmdAway (s : State) (c : Cmd) : Bool :=
  !c.started && !s.cmdPlaced c

/-- Is a command saved with the image of a team, or held back until one that is out resumes (R417)? -/
def State.cmdSaved (s : State) (c : Cmd) : Bool :=
  !c.started && ((s.team? c.team).any (fun t => t.swap == .out) || s.cmdReaches c (· == .out))

end Sys2Proof.Machine
end

