-- ==== Sys2Proof/Decode.lean ====
section
/-! DEFINITION. The decoder of one 96-bit instruction word (R160 to R171, the encodings of R199, R200, R223, R233,
R261, R327, R351, R368, R383, R407), total and rejecting by name, and after it the encoder. -/

namespace Sys2Proof

/-- Why a word is no instruction (R175 orders 3 and 4); each is an `ILLOP` fault. -/
inductive DecodeError where
  | undefinedOpcode | badSub | badType | reservedField | badOperand | badRounding | badModifier | illFormed
  deriving DecidableEq, Repr

/-- The header fields [95:70] (R160). -/
structure Top where
  opc : BitVec 8
  sub : BitVec 6
  ty : BitVec 4
  h : Hdr
  deriving DecidableEq, Repr

/-- Format A, bits [69:0] (R166). -/
structure FA where
  dst : BitVec 8
  sa : BitVec 8
  sb : BitVec 8
  sc : BitVec 8
  rm : BitVec 3
  ftz : BitVec 1
  amod : BitVec 4
  rsv : BitVec 30
  deriving DecidableEq, Repr

/-- Format I. -/
structure FI where
  dst : BitVec 8
  sa : BitVec 8
  rm : BitVec 3
  ftz : BitVec 1
  rsv : BitVec 12
  imm : BitVec 38
  deriving DecidableEq, Repr

/-- Format M. -/
structure FM where
  data : BitVec 8
  addr : BitVec 8
  off : BitVec 24
  scope : BitVec 3
  ord : BitVec 3
  ford : BitVec 3
  sb : BitVec 8
  rsv : BitVec 13
  deriving DecidableEq, Repr

/-- Format C, transfer layout. -/
structure FC where
  disp : BitVec 20
  slot : BitVec 3
  ctest : BitVec 2
  cidx : BitVec 3
  flag : BitVec 2
  fneg : BitVec 1
  treg : BitVec 6
  creg : BitVec 8
  rsv : BitVec 25
  deriving DecidableEq, Repr

/-- Format C, code layout. -/
structure FK where
  code : BitVec 32
  rsv : BitVec 38
  deriving DecidableEq, Repr

/-- Format S. -/
structure FS where
  reg : BitVec 8
  snum : BitVec 16
  tscope : BitVec 3
  rsv : BitVec 43
  deriving DecidableEq, Repr

/-- Format X. -/
structure FX where
  dst : BitVec 8
  sa : BitVec 8
  sb : BitVec 8
  sc : BitVec 8
  sd : BitVec 8
  tida : BitVec 6
  tidb : BitVec 6
  emod : BitVec 6
  rm : BitVec 3
  rsv : BitVec 9
  deriving DecidableEq, Repr

def bit1 (b : Bool) : BitVec 1 := if b then 1 else 0

/-- Bits [lo + n − 1 : lo] of a word. -/
def fld (w : BitVec 96) (lo n : Nat) : BitVec n := w.extractLsb' lo n

def unpackHdr (w : BitVec 96) : Hdr :=
  { pm := fld w 75 3, pn := w.getLsbD 74, sw := w.getLsbD 73, uni := w.getLsbD 72, tr := w.getLsbD 71,
    st := w.getLsbD 70 }

def unpackTop (w : BitVec 96) : Top := { opc := fld w 88 8, sub := fld w 82 6, ty := fld w 78 4, h := unpackHdr w }

def unpackA (w : BitVec 96) : FA :=
  { dst := fld w 62 8, sa := fld w 54 8, sb := fld w 46 8, sc := fld w 38 8, rm := fld w 35 3, ftz := fld w 34 1,
    amod := fld w 30 4, rsv := fld w 0 30 }

def unpackI (w : BitVec 96) : FI :=
  { dst := fld w 62 8, sa := fld w 54 8, rm := fld w 51 3, ftz := fld w 50 1, rsv := fld w 38 12, imm := fld w 0 38 }

def unpackM (w : BitVec 96) : FM :=
  { data := fld w 62 8, addr := fld w 54 8, off := fld w 30 24, scope := fld w 27 3, ord := fld w 24 3,
    ford := fld w 21 3, sb := fld w 13 8, rsv := fld w 0 13 }

def unpackC (w : BitVec 96) : FC :=
  { disp := fld w 50 20, slot := fld w 47 3, ctest := fld w 45 2, cidx := fld w 42 3, flag := fld w 40 2,
    fneg := fld w 39 1, treg := fld w 33 6, creg := fld w 25 8, rsv := fld w 0 25 }

def unpackK (w : BitVec 96) : FK := { code := fld w 38 32, rsv := fld w 0 38 }

def unpackS (w : BitVec 96) : FS :=
  { reg := fld w 62 8, snum := fld w 46 16, tscope := fld w 43 3, rsv := fld w 0 43 }

def unpackX (w : BitVec 96) : FX :=
  { dst := fld w 62 8, sa := fld w 54 8, sb := fld w 46 8, sc := fld w 38 8, sd := fld w 30 8, tida := fld w 24 6,
    tidb := fld w 18 6, emod := fld w 12 6, rm := fld w 9 3, rsv := fld w 0 9 }

abbrev Dec := Except DecodeError

def need (b : Bool) (e : DecodeError) : Dec Unit := if b then .ok () else .error e

def need0 {n : Nat} (b : BitVec n) : Dec Unit := need (b == 0) .reservedField

/-- Register operand codes (R164). -/
def decOpd (c : BitVec 8) : Dec Opd :=
  let i := c.toNat % 64
  match c.toNat / 64 with
  | 0 => .ok (.v (BitVec.ofNat 6 i))
  | 1 => .ok (.x (BitVec.ofNat 6 i))
  | 2 =>
    if i < 8 then .ok (.m (BitVec.ofNat 3 i))
    else if 16 ≤ i && i < 20 then .ok (.c (BitVec.ofNat 2 (i - 16)))
    else .error .badOperand
  | _ =>
    if i < 8 then .ok (.q (BitVec.ofNat 3 i))
    else if 16 ≤ i && i < 32 then .ok (.s (BitVec.ofNat 4 (i - 16)))
    else if 32 ≤ i && i < 36 then .ok (.t (BitVec.ofNat 2 (i - 32)))
    else .error .badOperand

def decITy (t : BitVec 4) : Dec ITy :=
  match t.toNat with
  | 0 => .ok .i8 | 1 => .ok .i16 | 2 => .ok .i32 | 3 => .ok .i64
  | 4 => .ok .n8 | 5 => .ok .n16 | 6 => .ok .n32 | 7 => .ok .n64
  | 8 => .ok .b8 | 9 => .ok .b16 | 10 => .ok .b32 | 11 => .ok .b64 | 12 => .ok .b128
  | _ => .error .badType

def decFTy (t : BitVec 4) : Dec FTy :=
  match t.toNat with
  | 0 => .ok .f16 | 1 => .ok .bf16 | 2 => .ok .f32 | 3 => .ok .f64
  | 4 => .ok .e4m3 | 5 => .ok .e5m2 | 6 => .ok .e2m1 | 7 => .ok .e8m0
  | 8 => .ok .dxb8 | 9 => .ok .dxb4 | 10 => .ok .mi8 | 11 => .ok .mn8
  | _ => .error .badType

def decRm (r : BitVec 3) : Dec Rm :=
  match r.toNat with
  | 0 => .ok .rne | 1 => .ok .rz | 2 => .ok .ru | 3 => .ok .rd | 4 => .ok .sr
  | _ => .error .badRounding

def decSat (s : BitVec 6) : Dec Bool :=
  match s.toNat with | 0 => .ok false | 1 => .ok true | _ => .error .badSub

def decICmp (s : BitVec 6) : Dec ICmp :=
  match s.toNat with
  | 0 => .ok .flags | 1 => .ok .eq | 2 => .ok .ne | 3 => .ok .lt | 4 => .ok .le | 5 => .ok .gt | 6 => .ok .ge
  | _ => .error .badSub

def decFCmp (s : BitVec 6) : Dec FCmp :=
  match s.toNat with
  | 0 => .ok .flags | 1 => .ok .eq | 2 => .ok .ne | 3 => .ok .lt | 4 => .ok .le | 5 => .ok .gt | 6 => .ok .ge
  | 7 => .ok .un
  | _ => .error .badSub

def decRedOp (s : BitVec 6) : Dec RedOp :=
  match s.toNat with
  | 0 => .ok .exch | 1 => .ok .add | 2 => .ok .min | 3 => .ok .max | 4 => .ok .and | 5 => .ok .or | 6 => .ok .xor
  | 7 => .ok .fadd | 8 => .ok .fmin | 9 => .ok .fmax
  | _ => .error .badSub

def decKOp (s : BitVec 6) : Dec KOp :=
  match s.toNat with
  | 1 => .ok .add | 2 => .ok .fadd | 3 => .ok .min | 4 => .ok .max | 5 => .ok .or
  | _ => .error .badSub

def decScope (s : BitVec 3) : Dec Scope :=
  match s.toNat with
  | 0 => .ok .group | 1 => .ok .team | 2 => .ok .core | 3 => .ok .die | 4 => .ok .device | 5 => .ok .system
  | _ => .error .badModifier

def decOrd (s : BitVec 3) : Dec MemOrd :=
  match s.toNat with
  | 0 => .ok .plain | 1 => .ok .acq | 2 => .ok .rel | 3 => .ok .ar
  | _ => .error .badModifier

def decCFlag (f : BitVec 2) : CFlag :=
  match f.toNat with | 0 => .z | 1 => .n | 2 => .c | _ => .o

/-- The test fields of `BRA` and `JMP` (R166, R223). -/
def decTest (f : FC) : Dec Test :=
  match f.ctest.toNat with
  | 0 => do need0 f.cidx; need0 f.flag; need0 f.fneg; .ok .always
  | 1 => do need (f.cidx.toNat < 4) .badModifier
            .ok (.flag (f.cidx.setWidth 2) (decCFlag f.flag) (f.fneg == 1))
  | 2 => do need0 f.flag; need0 f.fneg; .ok (.maskZero f.cidx)
  | _ => do need0 f.flag; need0 f.fneg; .ok (.maskNonzero f.cidx)

/-- A form without a test encodes the test fields as 0. -/
def noTest (f : FC) : Dec Unit := do need0 f.ctest; need0 f.cidx; need0 f.flag; need0 f.fneg

/-- The caller or contributor mask of the width calls (R233, R234). -/
def decSel (f : FC) : Dec (Option (BitVec 3)) := do
  need0 f.flag; need0 f.fneg
  match f.ctest.toNat with
  | 0 => do need0 f.cidx; .ok none
  | 3 => .ok (some f.cidx)
  | _ => .error .badModifier

/-- Direct or indirect target (R166). -/
def decTarget (f : FC) (ind : Bool) : Dec Target :=
  if ind then do need0 f.disp; need0 f.slot; .ok (.indirect f.treg)
  else do need0 f.treg; .ok (.direct f.disp f.slot)

/-- Zero-valued fields of an A-format form that does not round. -/
def aPlain (f : FA) : Dec Unit := do need0 f.rm; need0 f.ftz; need0 f.rsv

section FormatA
variable (t : Top) (f : FA)

def decA2 (mk : Hdr → ITy → Opd → Opd → Instr) : Dec Instr := do
  aPlain f; need0 t.sub; need0 f.amod; need0 f.sb; need0 f.sc
  .ok (mk t.h (← decITy t.ty) (← decOpd f.dst) (← decOpd f.sa))
def decA3 (mk : Hdr → ITy → Opd → Opd → Opd → Instr) : Dec Instr := do
  aPlain f; need0 t.sub; need0 f.amod; need0 f.sc
  .ok (mk t.h (← decITy t.ty) (← decOpd f.dst) (← decOpd f.sa) (← decOpd f.sb))
def decA4 (mk : Hdr → ITy → Opd → Opd → Opd → Opd → Instr) : Dec Instr := do
  aPlain f; need0 t.sub; need0 f.amod
  .ok (mk t.h (← decITy t.ty) (← decOpd f.dst) (← decOpd f.sa) (← decOpd f.sb) (← decOpd f.sc))
def decA2s (mk : Hdr → Bool → ITy → Opd → Opd → Instr) : Dec Instr := do
  aPlain f; need0 f.amod; need0 f.sb; need0 f.sc
  .ok (mk t.h (← decSat t.sub) (← decITy t.ty) (← decOpd f.dst) (← decOpd f.sa))
def decA3s (mk : Hdr → Bool → ITy → Opd → Opd → Opd → Instr) : Dec Instr := do
  aPlain f; need0 f.amod; need0 f.sc
  .ok (mk t.h (← decSat t.sub) (← decITy t.ty) (← decOpd f.dst) (← decOpd f.sa) (← decOpd f.sb))
def decF2 (mk : Hdr → FTy → Rm → Bool → Opd → Opd → Instr) : Dec Instr := do
  need0 f.rsv; need0 t.sub; need0 f.amod; need0 f.sb; need0 f.sc
  .ok (mk t.h (← decFTy t.ty) (← decRm f.rm) (f.ftz == 1) (← decOpd f.dst) (← decOpd f.sa))
def decF3 (mk : Hdr → FTy → Rm → Bool → Opd → Opd → Opd → Instr) : Dec Instr := do
  need0 f.rsv; need0 t.sub; need0 f.amod; need0 f.sc
  .ok (mk t.h (← decFTy t.ty) (← decRm f.rm) (f.ftz == 1) (← decOpd f.dst) (← decOpd f.sa) (← decOpd f.sb))
def decFm (mk : Hdr → FTy → Bool → Opd → Opd → Opd → Instr) : Dec Instr := do
  need0 f.rsv; need0 t.sub; need0 f.amod; need0 f.sc; need0 f.rm
  .ok (mk t.h (← decFTy t.ty) (f.ftz == 1) (← decOpd f.dst) (← decOpd f.sa) (← decOpd f.sb))
/-- Mask forms: `TY` and `SUB` 0. -/
def decM3 (mk : Hdr → Opd → Opd → Opd → Instr) : Dec Instr := do
  aPlain f; need0 t.sub; need0 t.ty; need0 f.amod; need0 f.sc
  .ok (mk t.h (← decOpd f.dst) (← decOpd f.sa) (← decOpd f.sb))
def decM2 (mk : Hdr → Opd → Opd → Instr) : Dec Instr := do
  aPlain f; need0 t.sub; need0 t.ty; need0 f.amod; need0 f.sb; need0 f.sc
  .ok (mk t.h (← decOpd f.dst) (← decOpd f.sa))

/-- Format A instructions (R168). -/
def decodeA : Dec Instr :=
  match t.opc.toNat with
  | 0x01 => decA3s t f .iadd | 0x02 => decA3s t f .isub | 0x03 => decA3s t f .imul
  | 0x04 => decA3 t f .imulh
  | 0x05 => do
    aPlain f; need0 f.amod
    .ok (.imad t.h (← decSat t.sub) (← decITy t.ty) (← decOpd f.dst) (← decOpd f.sa) (← decOpd f.sb) (← decOpd f.sc))
  | 0x06 => decA3 t f .imin | 0x07 => decA3 t f .imax
  | 0x08 => decA2s t f .iabs | 0x09 => decA2s t f .ineg
  | 0x0A => decA4 t f .iaddc
  | 0x0B => do
    aPlain f; need0 f.amod; need0 f.sc
    .ok (.icmp t.h (← decICmp t.sub) (← decITy t.ty) (← decOpd f.dst) (← decOpd f.sa) (← decOpd f.sb))
  | 0x0C => decA4 t f .sel
  | 0x0D => do
    aPlain f; need0 t.sub; need0 f.sc
    .ok (.lea t.h (← decITy t.ty) f.amod (← decOpd f.dst) (← decOpd f.sa) (← decOpd f.sb))
  | 0x0E => decA2 t f .clz | 0x0F => decA2 t f .popc
  | 0x10 => decA3 t f .and | 0x11 => decA3 t f .or | 0x12 => decA3 t f .xor | 0x13 => decA3 t f .andn
  | 0x14 => decA2 t f .not
  | 0x15 => decA3 t f .shl | 0x16 => decA3 t f .shr | 0x17 => decA3 t f .sar | 0x18 => decA3 t f .rotl
  | 0x19 => decA2 t f .brev
  | 0x1A => decA3 t f .bfx | 0x1B => decA4 t f .bfi
  | 0x1C => decA2 t f .mov | 0x1D => decA2 t f .bcast | 0x1E => decA3 t f .laneget
  | 0x20 => decF3 t f .fadd | 0x21 => decF3 t f .fsub | 0x22 => decF3 t f .fmul
  | 0x23 => do
    need0 f.rsv; need0 t.sub; need0 f.amod
    .ok (.ffma t.h (← decFTy t.ty) (← decRm f.rm) (f.ftz == 1) (← decOpd f.dst) (← decOpd f.sa) (← decOpd f.sb)
      (← decOpd f.sc))
  | 0x24 => decFm t f .fmin | 0x25 => decFm t f .fmax
  | 0x26 => do
    need0 f.rsv; need0 f.amod; need0 f.sc; need0 f.rm
    .ok (.fcmp t.h (← decFCmp t.sub) (← decFTy t.ty) (f.ftz == 1) (← decOpd f.dst) (← decOpd f.sa) (← decOpd f.sb))
  | 0x27 => decF2 t f .frcp | 0x28 => decF2 t f .frsq | 0x29 => decF2 t f .fsqrt
  | 0x2A => decF3 t f .fdiv
  | 0x2B => decF2 t f .fexp2 | 0x2C => decF2 t f .flog2 | 0x2D => decF2 t f .frnd
  | 0x2E => do
    need0 f.rsv; need0 f.sb; need0 f.sc
    need (t.sub.toNat < 16) .badSub; need (f.amod.toNat ≤ 1) .badModifier
    .ok (.fcvt t.h (← decFTy (t.sub.setWidth 4)) (← decFTy t.ty) (← decRm f.rm) (f.ftz == 1) (f.amod == 1)
      (← decOpd f.dst) (← decOpd f.sa))
  | 0x2F => do
    need0 f.rsv; need0 f.sb; need0 f.sc; need0 f.ftz; need0 f.amod
    need (t.sub.toNat < 32) .badSub
    .ok (.icvt t.h (t.sub.getLsbD 4) (← decITy (t.sub.setWidth 4)) (← decFTy t.ty) (← decRm f.rm) (← decOpd f.dst)
      (← decOpd f.sa))
  | 0x30 => do
    aPlain f; need0 t.sub; need0 f.amod; need0 f.sb; need0 f.sc
    .ok (.fclass t.h (← decFTy t.ty) (← decOpd f.dst) (← decOpd f.sa))
  | 0x31 => do
    aPlain f; need0 t.sub; need0 f.sc
    let mode ← match f.amod.toNat with
      | 1 => .ok ShflMode.idx | 2 => .ok .up | 3 => .ok .down | 4 => .ok .xor | _ => Except.error .badModifier
    .ok (.shfl t.h (← decITy t.ty) mode (← decOpd f.dst) (← decOpd f.sa) (← decOpd f.sb))
  | 0x32 => do
    aPlain f; need0 t.sub; need0 f.sb; need0 f.sc
    let mode ← match f.amod.toNat with
      | 1 => .ok QxchMode.h | 2 => .ok .v | 3 => .ok .d | _ => Except.error .badModifier
    .ok (.qxch t.h (← decITy t.ty) mode (← decOpd f.dst) (← decOpd f.sa))
  | 0x33 => decA2 t f .ballot
  | 0x34 => do
    aPlain f; need0 t.sub; need0 f.sb; need0 f.sc
    let any ← match f.amod.toNat with | 1 => .ok false | 2 => .ok true | _ => Except.error .badModifier
    .ok (.vote t.h (← decITy t.ty) any (← decOpd f.dst) (← decOpd f.sa))
  | 0x35 => do
    aPlain f; need0 f.amod; need0 f.sb; need0 f.sc
    .ok (.gred t.h (← decRedOp t.sub) (← decITy t.ty) (← decOpd f.dst) (← decOpd f.sa))
  | 0x36 => do
    aPlain f; need0 f.sb; need0 f.sc
    let exc ← match f.amod.toNat with | 1 => .ok false | 2 => .ok true | _ => Except.error .badModifier
    .ok (.gscan t.h (← decRedOp t.sub) (← decITy t.ty) exc (← decOpd f.dst) (← decOpd f.sa))
  | 0x37 => decM2 t f .mfirst | 0x38 => decM2 t f .mpopc
  | 0x39 => decM3 t f .mand | 0x3A => decM3 t f .mor | 0x3B => decM3 t f .mxor
  | 0x3C => decM2 t f .mnot | 0x3D => decM2 t f .mmov | 0x3E => decM2 t f .mtox
  | _ => .error .undefinedOpcode
end FormatA

section FormatI
variable (t : Top) (f : FI)

def iPlain (f : FI) : Dec Unit := do need0 f.rm; need0 f.ftz; need0 f.rsv

def decI2 (mk : Hdr → ITy → Opd → Opd → BitVec 38 → Instr) : Dec Instr := do
  iPlain f; need0 t.sub
  .ok (mk t.h (← decITy t.ty) (← decOpd f.dst) (← decOpd f.sa) f.imm)
def decI2s (mk : Hdr → Bool → ITy → Opd → Opd → BitVec 38 → Instr) : Dec Instr := do
  iPlain f
  .ok (mk t.h (← decSat t.sub) (← decITy t.ty) (← decOpd f.dst) (← decOpd f.sa) f.imm)
def decIf (mk : Hdr → FTy → Rm → Bool → Opd → Opd → BitVec 38 → Instr) : Dec Instr := do
  need0 f.rsv; need0 t.sub
  .ok (mk t.h (← decFTy t.ty) (← decRm f.rm) (f.ftz == 1) (← decOpd f.dst) (← decOpd f.sa) f.imm)
def decIm (mk : Hdr → FTy → Bool → Opd → Opd → BitVec 38 → Instr) : Dec Instr := do
  need0 f.rsv; need0 t.sub; need0 f.rm
  .ok (mk t.h (← decFTy t.ty) (f.ftz == 1) (← decOpd f.dst) (← decOpd f.sa) f.imm)
/-- Forms without a type or `SUB`. -/
def iBare : Dec Unit := do iPlain f; need0 t.sub; need0 t.ty

/-- `XGROW` and `XDROP` select halves in `IMM[1:0]` (R220). -/
def decHalves (mk : Hdr → Bool → Bool → Instr) : Dec Instr := do
  iBare t f; need0 f.dst; need0 f.sa; need (f.imm.toNat < 4) .reservedField
  .ok (mk t.h (f.imm.getLsbD 0) (f.imm.getLsbD 1))

/-- Format I instructions (R169). -/
def decodeI : Dec Instr :=
  match t.opc.toNat with
  | 0x41 => decI2s t f .iaddImm | 0x42 => decI2s t f .isubImm | 0x43 => decI2s t f .imulImm
  | 0x46 => decI2 t f .iminImm | 0x47 => decI2 t f .imaxImm
  | 0x4B => do
    iPlain f
    .ok (.icmpImm t.h (← decICmp t.sub) (← decITy t.ty) (← decOpd f.dst) (← decOpd f.sa) f.imm)
  | 0x4D => decI2 t f .leaImm
  | 0x50 => decI2 t f .andImm | 0x51 => decI2 t f .orImm | 0x52 => decI2 t f .xorImm | 0x53 => decI2 t f .andnImm
  | 0x55 => decI2 t f .shlImm | 0x56 => decI2 t f .shrImm | 0x57 => decI2 t f .sarImm | 0x58 => decI2 t f .rotlImm
  | 0x5A => decI2 t f .bfxImm
  | 0x5C => do
    iPlain f; need0 t.sub; need0 f.sa
    .ok (.movi t.h (← decITy t.ty) (← decOpd f.dst) f.imm)
  | 0x60 => decIf t f .faddImm | 0x61 => decIf t f .fsubImm | 0x62 => decIf t f .fmulImm
  | 0x64 => decIm t f .fminImm | 0x65 => decIm t f .fmaxImm
  | 0x66 => do
    need0 f.rsv; need0 f.rm
    .ok (.fcmpImm t.h (← decFCmp t.sub) (← decFTy t.ty) (f.ftz == 1) (← decOpd f.dst) (← decOpd f.sa) f.imm)
  | 0x7A => decHalves t f .xgrow | 0x7B => decHalves t f .xdrop
  | 0x7C => do
    iBare t f; need0 f.dst; need0 f.sa; need (f.imm.toNat < 2 ^ 13) .reservedField
    .ok (.qcfg t.h (f.imm.extractLsb' 0 3) (f.imm.extractLsb' 3 4) (f.imm.extractLsb' 7 6))
  | 0x7E => do
    iBare t f; need0 f.sa; need (f.imm.toNat < 2 ^ 12) .reservedField
    .ok (.mfs t.h (← decOpd f.dst) (f.imm.setWidth 12))
  | 0x7F => do
    iBare t f; need0 f.dst; need (f.imm.toNat < 2 ^ 12) .reservedField
    .ok (.mts t.h (f.imm.setWidth 12) (← decOpd f.sa))
  | _ => .error .undefinedOpcode
end FormatI

section FormatC
variable (t : Top) (f : FC)

def cBare : Dec Unit := do need0 t.ty; need0 f.rsv
def noTarget : Dec Unit := do need0 f.disp; need0 f.slot; need0 f.treg

def decWidth (mk : Hdr → Bool → Target → Option (BitVec 3) → Opd → Instr) : Dec Instr := do
  cBare t f; need (t.sub.toNat < 4) .badSub
  .ok (mk t.h (t.sub.getLsbD 0) (← decTarget f (t.sub.getLsbD 1)) (← decSel f) (← decOpd f.creg))

/-- The code layout of `MARK`, `BKPT` and `TRAP` (R223). -/
def decCode (k : FK) (mk : Hdr → BitVec 32 → Instr) : Dec Instr := do
  need0 t.sub; need0 t.ty; need0 k.rsv
  .ok (mk t.h k.code)

/-- Format C instructions (R223, R233, R234). -/
def decodeC (k : FK) : Dec Instr :=
  match t.opc.toNat with
  | 0x80 => do
    cBare t f; need0 t.sub; need0 f.treg; need0 f.creg
    .ok (.bra t.h f.disp f.slot (← decTest f))
  | 0x81 => do
    cBare t f; need0 t.sub; need0 f.disp; need0 f.slot; need0 f.creg
    .ok (.jmp t.h f.treg (← decTest f))
  | 0x82 => do
    cBare t f; noTest f; need (t.sub.toNat < 2) .badSub
    .ok (.call t.h (← decTarget f (t.sub.getLsbD 0)) (← decOpd f.creg))
  | 0x83 => do
    cBare t f; need0 t.sub; noTest f; noTarget f
    .ok (.ret t.h (← decOpd f.creg))
  | 0x84 => decWidth t f .wcall | 0x85 => decWidth t f .gcall
  | 0x86 => do
    cBare t f; need0 t.sub; noTarget f
    .ok (.wret t.h (← decSel f) (← decOpd f.creg))
  | 0x87 => do
    cBare t f; need0 t.sub; noTest f; need0 f.treg
    .ok (.spawn t.h f.disp f.slot (← decOpd f.creg))
  | 0x88 => do
    cBare t f; need0 t.sub; noTest f; noTarget f
    .ok (.spwait t.h (← decOpd f.creg))
  | 0x89 => do cBare t f; need0 t.sub; noTest f; noTarget f; need0 f.creg; .ok (.exit t.h)
  | 0x8A => do cBare t f; need0 t.sub; noTest f; noTarget f; need0 f.creg; .ok (.nop t.h)
  | 0x8B => decCode t k .mark | 0x8C => decCode t k .bkpt | 0x8D => decCode t k .trap
  | _ => .error .undefinedOpcode
end FormatC

section FormatM
variable (t : Top) (f : FM)

def mBare : Dec Unit := need0 f.rsv
def mNoTy : Dec Unit := do need0 t.ty; need0 f.rsv; need0 f.ford
def decMem : Dec MemOpd := do .ok { base := ← decOpd f.addr, off := f.off }
/-- Forms that have neither scope nor order. -/
def noOrd : Dec Unit := do need0 f.scope; need0 f.ord

/-- Format M instructions (R262). -/
def decodeM : Dec Instr :=
  match t.opc.toNat with
  | 0x90 => do
    need0 t.sub; need0 f.rsv; need0 f.ford; need0 f.sb
    .ok (.ld t.h (← decITy t.ty) (← decScope f.scope) (← decOrd f.ord) (← decOpd f.data) (← decMem f))
  | 0x91 => do
    need0 t.sub; need0 f.rsv; need0 f.ford; need0 f.sb
    .ok (.st t.h (← decITy t.ty) (← decScope f.scope) (← decOrd f.ord) (← decOpd f.data) (← decMem f))
  | 0x92 => do
    need0 t.sub; mNoTy t f; need0 f.sb; need0 f.data
    .ok (.lfull t.h (← decScope f.scope) (← decOrd f.ord) (← decMem f))
  | 0x93 => do
    need0 t.sub; mNoTy t f; need0 f.sb; need0 f.data
    .ok (.lempty t.h (← decScope f.scope) (← decOrd f.ord) (← decMem f))
  | 0x94 => do
    need0 t.sub; mNoTy t f; need0 f.sb
    .ok (.ltest t.h (← decScope f.scope) (← decOrd f.ord) (← decOpd f.data) (← decMem f))
  | 0x95 => do
    need0 f.rsv; need0 f.ford
    .ok (.atom t.h (← decRedOp t.sub) (← decITy t.ty) (← decScope f.scope) (← decOrd f.ord) (← decOpd f.data)
      (← decMem f) (← decOpd f.sb))
  | 0x96 => do
    need0 t.sub; need0 f.rsv; need (f.ford.toNat ≤ 1) .badModifier
    .ok (.cas t.h (← decITy t.ty) (← decScope f.scope) (← decOrd f.ord) (f.ford == 1) (← decOpd f.data)
      (← decMem f) (← decOpd f.sb))
  | 0x97 => do
    need0 f.rsv; need0 f.ford; need0 f.sb
    .ok (.redm t.h (← decRedOp t.sub) (← decITy t.ty) (← decScope f.scope) (← decOrd f.ord) (← decOpd f.data)
      (← decMem f))
  | 0x98 =>
    match t.sub.toNat with
    | 0 => do
      mNoTy t f; need0 f.data; need0 f.addr; need0 f.off; need0 f.sb
      .ok (.fence t.h (← decScope f.scope) (← decOrd f.ord))
    | 1 => do
      mNoTy t f; need0 f.sb
      .ok (.fenceFlag t.h (← decScope f.scope) (← decOrd f.ord) (← decOpd f.data) (← decMem f))
    | _ => .error .badSub
  | 0x99 => do
    need0 t.sub; mNoTy t f; noOrd f; need0 f.sb
    .ok (.barinit t.h (← decOpd f.data) (← decMem f))
  | 0x9A => do
    need0 t.sub; mNoTy t f
    .ok (.arrive t.h (← decScope f.scope) (← decOrd f.ord) (← decOpd f.data) (← decMem f) (← decOpd f.sb))
  | 0x9B => do
    need0 t.sub; mNoTy t f; need0 f.sb
    .ok (.waitb t.h (← decScope f.scope) (← decOrd f.ord) (← decOpd f.data) (← decMem f))
  | 0x9C => do
    need0 t.sub; mNoTy t f; noOrd f
    .ok (.cmdw t.h (← decOpd f.data) (← decMem f) (← decOpd f.sb))
  | 0x9D => do
    need0 t.sub; mNoTy t f; need0 f.sb; need (f.ord == 2) .badModifier
    .ok (.notify t.h (← decScope f.scope) (← decOpd f.data) (← decMem f))
  | 0x9E => do
    need0 t.sub; mNoTy t f; noOrd f; need0 f.sb; need0 f.addr; need0 f.off
    .ok (.bclose t.h (← decOpd f.data))
  | 0x9F => do
    need0 t.sub; mNoTy t f; noOrd f; need0 f.sb; need0 f.addr; need0 f.off
    .ok (.bwait t.h (← decOpd f.data))
  | 0xA0 =>
    match t.sub.toNat with
    | 0 => do mNoTy t f; noOrd f; need0 f.sb; need0 f.data; .ok (.pref t.h (← decMem f))
    | 1 => do mNoTy t f; noOrd f; need0 f.sb; need0 f.data; .ok (.prefTlb t.h (← decMem f))
    | _ => .error .badSub
  | _ => .error .undefinedOpcode
end FormatM

section FormatS
variable (t : Top) (f : FS)

/-- Format S instructions (R407). -/
def decodeS : Dec Instr :=
  match t.opc.toNat with
  | 0xB0 => do
    need0 t.ty; need0 f.rsv; need0 f.reg; need0 f.snum; need0 f.tscope
    match t.sub.toNat with
    | 0 => .ok (.eret t.h) | 1 => .ok (.eretSkip t.h) | 2 => .ok (.eretFwd t.h) | _ => .error .badSub
  | 0xB1 => do
    need0 t.sub; need0 t.ty; need0 f.rsv; need0 f.tscope
    .ok (.mfsr t.h (← decOpd f.reg) f.snum)
  | 0xB2 => do
    need0 t.sub; need0 t.ty; need0 f.rsv; need0 f.tscope
    .ok (.mtsr t.h (← decOpd f.reg) f.snum)
  | 0xB3 => do
    need0 t.sub; need0 t.ty; need0 f.rsv; need0 f.snum
    let sc ← match f.tscope.toNat with
      | 0 => .ok TlbScope.addr | 1 => .ok .part | 2 => .ok .all | _ => Except.error .badModifier
    .ok (.tlbinv t.h sc (← decOpd f.reg))
  | 0xB4 => do
    need0 t.sub; need0 t.ty; need0 f.rsv; need0 f.tscope
    .ok (.waitev t.h (← decOpd f.reg) f.snum)
  | _ => .error .undefinedOpcode
end FormatS

section FormatX
variable (t : Top) (f : FX)

def xNoTy : Dec Unit := do need0 t.sub; need0 t.ty; need0 f.rsv
def xNoTid : Dec Unit := do need0 f.tida; need0 f.tidb
def xNoRm : Dec Unit := need0 f.rm

def decMma (ids : Option MmaIds) : Dec Instr := do
  .ok (.mma t.h (← decFTy t.ty) (f.emod.extractLsb' 0 3) (f.emod.getLsbD 4) (← decRm f.rm) (← decOpd f.dst)
    (← decOpd f.sa) (← decOpd f.sb) ids)

/-- The stream forms with an `S` destination and two sources (R369). -/
def decS2 (mk : Hdr → Opd → Opd → Opd → Instr) : Dec Instr := do
  xNoTy t f; xNoRm f; xNoTid f; need0 f.emod; need0 f.sc; need0 f.sd
  .ok (mk t.h (← decOpd f.dst) (← decOpd f.sa) (← decOpd f.sb))

/-- The K-instructions with keys, values and a handle (R352). -/
def decK4 (mk : Hdr → ITy → Opd → Opd → Opd → Opd → Instr) : Dec Instr := do
  need0 t.sub; need0 f.rsv; xNoRm f; xNoTid f; need0 f.emod; need0 f.sc
  .ok (mk t.h (← decITy t.ty) (← decOpd f.dst) (← decOpd f.sa) (← decOpd f.sb) (← decOpd f.sd))

/-- Format X instructions of the matrix chapter (R328). -/
def decodeX1 : Dec Instr :=
  match t.opc.toNat with
  | 0xC0 => do
    xNoTy t f; xNoRm f; xNoTid f; need0 f.emod; need0 f.dst; need0 f.sb; need0 f.sc; need0 f.sd
    .ok (.gang t.h (← decOpd f.sa))
  | 0xC1 => do
    need0 t.sub; need0 f.rsv; need (f.emod.toNat < 32) .badModifier
    if f.emod.getLsbD 3 then
      decMma t f (some { pos := ← decOpd f.sc, scales := ← decOpd f.sd, tida := f.tida, tidb := f.tidb })
    else do
      xNoTid f; need0 f.sc; need0 f.sd
      decMma t f none
  | 0xC2 => do
    need0 t.sub; need0 f.rsv; need0 f.emod
    .ok (.bdot t.h (← decFTy t.ty) (← decRm f.rm) (← decOpd f.dst) (← decOpd f.sa) (← decOpd f.sb) (← decOpd f.sc)
      (← decOpd f.sd) f.tida f.tidb)
  | 0xC3 => do
    need0 t.sub; need0 f.rsv; xNoRm f; xNoTid f; need0 f.emod; need0 f.dst; need0 f.sb; need0 f.sc; need0 f.sd
    .ok (.accz t.h (← decFTy t.ty) (← decOpd f.sa))
  | 0xC4 =>
    match f.emod.toNat with
    | 0 => do
      need0 t.sub; need0 f.rsv; xNoRm f; xNoTid f; need0 f.sb; need0 f.sc; need0 f.sd
      .ok (.accrd t.h (← decFTy t.ty) (← decOpd f.dst) (← decOpd f.sa))
    | 8 => do
      need0 t.sub; need0 f.rsv; need0 f.tidb; need0 f.sb; need0 f.sd
      .ok (.accrdSt t.h (← decFTy t.ty) (← decRm f.rm) (← decOpd f.dst) (← decOpd f.sa) (← decOpd f.sc) f.tida)
    | _ => .error .badModifier
  | 0xC5 => do
    need0 t.sub; need0 f.rsv; xNoRm f; xNoTid f; need0 f.emod; need0 f.dst; need0 f.sc; need0 f.sd
    .ok (.accwr t.h (← decFTy t.ty) (← decOpd f.sa) (← decOpd f.sb))
  | 0xC6 => do
    xNoTy t f; xNoRm f; need0 f.tidb; need0 f.emod; need0 f.dst; need0 f.sb; need0 f.sc; need0 f.sd
    .ok (.tidset t.h (← decOpd f.sa) f.tida)
  | 0xC7 => do
    xNoTy t f; xNoRm f; need0 f.tidb; need (f.emod.toNat < 8) .badModifier
    need0 f.sa; need0 f.sb; need0 f.sc; need0 f.sd
    .ok (.tidget t.h (f.emod.setWidth 3) (← decOpd f.dst) f.tida)
  | 0xC8 => do
    xNoTy t f; need0 f.tidb; need0 f.emod; need0 f.sb
    .ok (.hadq t.h (← decRm f.rm) (← decOpd f.dst) (← decOpd f.sa) (← decOpd f.sc) (← decOpd f.sd) f.tida)
  | 0xC9 => do
    xNoTy t f; xNoRm f; need0 f.tidb; need0 f.emod; need0 f.sa; need0 f.sb; need0 f.sc; need0 f.sd
    .ok (.zmap t.h (← decOpd f.dst) f.tida)
  | _ => .error .undefinedOpcode

/-- Format X instructions of the key-table chapter (R352). -/
def decodeX2 : Dec Instr :=
  match t.opc.toNat with
  | 0xD0 => do
    xNoTy t f; xNoRm f; xNoTid f; need0 f.sd
    .ok (.kclaim t.h f.emod (← decOpd f.dst) (← decOpd f.sa) (← decOpd f.sb) (← decOpd f.sc))
  | 0xD1 => do
    xNoTy t f; xNoRm f; xNoTid f; need0 f.emod; need0 f.dst; need0 f.sa; need0 f.sb; need0 f.sc
    .ok (.kfree t.h (← decOpd f.sd))
  | 0xD2 => decK4 t f .kins
  | 0xD3 => decK4 t f .kprb
  | 0xD4 => do
    xNoTy t f; xNoRm f; xNoTid f; need0 f.emod; need0 f.sb; need0 f.sc
    .ok (.kdel t.h (← decOpd f.dst) (← decOpd f.sa) (← decOpd f.sd))
  | 0xD5 => do
    need0 f.rsv; xNoRm f; xNoTid f; need0 f.emod; need0 f.sc
    .ok (.kacc t.h (← decKOp t.sub) (← decITy t.ty) (← decOpd f.dst) (← decOpd f.sa) (← decOpd f.sb) (← decOpd f.sd))
  | 0xD6 => do
    need0 t.sub; need0 f.rsv; xNoRm f; xNoTid f; need (f.emod.toNat < 8) .badModifier; need0 f.sa
    .ok (.kdrn t.h (← decITy t.ty) (f.emod.getLsbD 0) (f.emod.getLsbD 1) (f.emod.getLsbD 2) (← decOpd f.dst)
      (← decOpd f.sb) (← decOpd f.sc) (← decOpd f.sd))
  | 0xD7 => do
    xNoTy t f; xNoRm f; xNoTid f; need0 f.emod; need0 f.sa; need0 f.sb; need0 f.sc
    .ok (.kstat t.h (← decOpd f.dst) (← decOpd f.sd))
  | _ => .error .undefinedOpcode

/-- Format X instructions of the stream and exchange chapters (R369, R384). -/
def decodeX3 : Dec Instr :=
  match t.opc.toNat with
  | 0xE0 => do
    xNoTy t f; xNoRm f; xNoTid f; need (f.emod.toNat < 4) .badModifier
    need0 f.dst; need0 f.sa; need0 f.sb; need0 f.sc; need0 f.sd
    .ok (.slen t.h (f.emod.setWidth 2))
  | 0xE1 => do
    xNoTy t f; xNoRm f; xNoTid f; need (f.emod.toNat < 16) .badModifier; need0 f.sc; need0 f.sd
    .ok (.sgen t.h (f.emod.setWidth 4) (← decOpd f.dst) (← decOpd f.sa) (← decOpd f.sb))
  | 0xE2 => decS2 t f .smul | 0xE3 => decS2 t f .smin | 0xE4 => decS2 t f .smax
  | 0xE5 => do
    xNoTy t f; xNoRm f; xNoTid f; need0 f.emod; need0 f.sb; need0 f.sc; need0 f.sd
    .ok (.snot t.h (← decOpd f.dst) (← decOpd f.sa))
  | 0xE6 => do
    xNoTy t f; xNoRm f; xNoTid f; need0 f.emod; need0 f.sd
    .ok (.ssel t.h (← decOpd f.dst) (← decOpd f.sa) (← decOpd f.sb) (← decOpd f.sc))
  | 0xE7 => do
    xNoTy t f; xNoRm f; xNoTid f; need (f.emod.toNat < 2) .badModifier; need0 f.sb; need0 f.sc; need0 f.sd
    .ok (.scnt t.h (f.emod.getLsbD 0) (← decOpd f.dst) (← decOpd f.sa))
  | 0xE8 => do
    xNoTy t f; xNoRm f; xNoTid f; need (f.emod.toNat < 16) .badModifier; need0 f.sc; need0 f.sd
    .ok (.sregen t.h (f.emod.setWidth 4) (← decOpd f.dst) (← decOpd f.sa) (← decOpd f.sb))
  | 0xE9 => decS2 t f .sbit
  | 0xEA => do
    xNoTy t f; xNoRm f; xNoTid f; need0 f.emod; need0 f.sb; need0 f.sc; need0 f.sd
    .ok (.scls t.h (← decOpd f.dst) (← decOpd f.sa))
  | 0xF0 => do
    xNoTy t f; xNoRm f; xNoTid f; need (f.emod.toNat < 8) .badModifier
    let tile ← if f.emod.getLsbD 2 then .ok (some (f.emod.extractLsb' 0 2))
      else do need0 f.emod; Except.ok (none : Option (BitVec 2))
    .ok (.coll t.h tile (← decOpd f.dst) (← decOpd f.sa) (← decOpd f.sb) (← decOpd f.sc) (← decOpd f.sd))
  | 0xF1 => do
    xNoTy t f; xNoRm f; xNoTid f; need0 f.emod; need0 f.dst; need0 f.sc; need0 f.sd
    .ok (.dsend t.h (← decOpd f.sa) (← decOpd f.sb))
  | 0xF2 => do
    xNoTy t f; xNoRm f; xNoTid f; need0 f.emod; need0 f.sb; need0 f.sc; need0 f.sd
    .ok (.dclose t.h (← decOpd f.dst) (← decOpd f.sa))
  | 0xF3 => do
    xNoTy t f; xNoRm f; xNoTid f; need (f.emod.toNat < 2) .badModifier; need0 f.sb; need0 f.sc
    .ok (.qpush t.h (f.emod.getLsbD 0) (← decOpd f.dst) (← decOpd f.sa) (← decOpd f.sd))
  | 0xF4 => do
    xNoTy t f; xNoRm f; xNoTid f; need (f.emod.toNat < 4) .badModifier; need0 f.sa
    let stamp ← if f.emod.getLsbD 1 then do .ok (some (← decOpd f.sc))
      else do need0 f.sc; Except.ok (none : Option Opd)
    .ok (.qpop t.h (f.emod.getLsbD 0) stamp (← decOpd f.dst) (← decOpd f.sb) (← decOpd f.sd))
  | 0xF5 => do
    xNoTy t f; xNoRm f; xNoTid f; need0 f.emod; need0 f.sc; need0 f.sd
    .ok (.tile t.h (← decOpd f.dst) (← decOpd f.sa) (← decOpd f.sb))
  | _ => .error .undefinedOpcode
end FormatX

/-- The fields of a word as an instruction, before the operand checks (R168). -/
def decodeFields (w : BitVec 96) : Dec Instr :=
  let t := unpackTop w
  let o := t.opc.toNat
  if o < 0x40 then decodeA t (unpackA w)
  else if o < 0x80 then decodeI t (unpackI w)
  else if o < 0x90 then decodeC t (unpackC w) (unpackK w)
  else if o < 0xB0 then decodeM t (unpackM w)
  else if o < 0xC0 then decodeS t (unpackS w)
  else if o < 0xD0 then decodeX1 t (unpackX w)
  else if o < 0xE0 then decodeX2 t (unpackX w)
  else decodeX3 t (unpackX w)

/-- The decoder: the fields, and then the operand checks of R175 order 4. -/
def decode (w : BitVec 96) : Dec Instr := do
  let i ← decodeFields w
  need i.wellFormed .illFormed
  .ok i

/-- The little-endian number that a list of bytes holds, the first byte lowest (R3). -/
def leNat : List Byte → Nat
  | [] => 0
  | b :: bs => b.toNat + 256 * leNat bs

/-- The n low bytes of a number, lowest first (R3). -/
def leBytes : Nat → Nat → List Byte
  | 0, _ => []
  | n + 1, v => BitVec.ofNat 8 v :: leBytes n (v / 256)

/-- The decoder on the stored bytes of a slot (R89): it reads twelve bytes and returns the rest. -/
def decodeBytes (bs : List Byte) : Dec (Instr × List Byte) := do
  let i ← decode (BitVec.ofNat 96 (leNat (bs.take 12)))
  .ok (i, bs.drop 12)

/-- The instruction the decoder reads from a word whose bits are numbered as the opcode table numbers them (one
96-bit word, stored as twelve bytes by R89); the bits above `nbits` are 0. -/
def decodeTableWord (nbits w : Nat) : Option Instr :=
  match decodeBytes (leBytes 12 (w % 2 ^ min nbits 96)) with
  | .ok (i, _) => some i
  | .error _ => none

/-! The encoder, from the same tables. -/

def packTop (t : Top) : BitVec 26 :=
  t.opc ++ t.sub ++ t.ty ++ t.h.pm ++ bit1 t.h.pn ++ bit1 t.h.sw ++ bit1 t.h.uni ++ bit1 t.h.tr ++ bit1 t.h.st

def packA (t : Top) (f : FA) : BitVec 96 :=
  packTop t ++ (f.dst ++ f.sa ++ f.sb ++ f.sc ++ f.rm ++ f.ftz ++ f.amod ++ f.rsv : BitVec 70)
def packI (t : Top) (f : FI) : BitVec 96 :=
  packTop t ++ (f.dst ++ f.sa ++ f.rm ++ f.ftz ++ f.rsv ++ f.imm : BitVec 70)
def packM (t : Top) (f : FM) : BitVec 96 :=
  packTop t ++ (f.data ++ f.addr ++ f.off ++ f.scope ++ f.ord ++ f.ford ++ f.sb ++ f.rsv : BitVec 70)
def packC (t : Top) (f : FC) : BitVec 96 :=
  packTop t ++
    (f.disp ++ f.slot ++ f.ctest ++ f.cidx ++ f.flag ++ f.fneg ++ f.treg ++ f.creg ++ f.rsv : BitVec 70)
def packK (t : Top) (f : FK) : BitVec 96 := packTop t ++ (f.code ++ f.rsv : BitVec 70)
def packS (t : Top) (f : FS) : BitVec 96 := packTop t ++ (f.reg ++ f.snum ++ f.tscope ++ f.rsv : BitVec 70)
def packX (t : Top) (f : FX) : BitVec 96 :=
  packTop t ++ (f.dst ++ f.sa ++ f.sb ++ f.sc ++ f.sd ++ f.tida ++ f.tidb ++ f.emod ++ f.rm ++ f.rsv : BitVec 70)

def Opd.code : Opd → BitVec 8
  | .v n => 0#2 ++ n
  | .x n => 1#2 ++ n
  | .m n => 0b10000#5 ++ n
  | .c n => 0b100100#6 ++ n
  | .q n => 0b11000#5 ++ n
  | .s n => 0b1101#4 ++ n
  | .t n => 0b111000#6 ++ n

def ITy.code : ITy → BitVec 4
  | .i8 => 0 | .i16 => 1 | .i32 => 2 | .i64 => 3 | .n8 => 4 | .n16 => 5 | .n32 => 6 | .n64 => 7
  | .b8 => 8 | .b16 => 9 | .b32 => 10 | .b64 => 11 | .b128 => 12
def FTy.code : FTy → BitVec 4
  | .f16 => 0 | .bf16 => 1 | .f32 => 2 | .f64 => 3 | .e4m3 => 4 | .e5m2 => 5 | .e2m1 => 6 | .e8m0 => 7
  | .dxb8 => 8 | .dxb4 => 9 | .mi8 => 10 | .mn8 => 11
def Rm.code : Rm → BitVec 3 | .rne => 0 | .rz => 1 | .ru => 2 | .rd => 3 | .sr => 4
def ICmp.code : ICmp → BitVec 6 | .flags => 0 | .eq => 1 | .ne => 2 | .lt => 3 | .le => 4 | .gt => 5 | .ge => 6
def FCmp.code : FCmp → BitVec 6
  | .flags => 0 | .eq => 1 | .ne => 2 | .lt => 3 | .le => 4 | .gt => 5 | .ge => 6 | .un => 7
def RedOp.code : RedOp → BitVec 6
  | .exch => 0 | .add => 1 | .min => 2 | .max => 3 | .and => 4 | .or => 5 | .xor => 6 | .fadd => 7 | .fmin => 8
  | .fmax => 9
def KOp.code : KOp → BitVec 6 | .add => 1 | .fadd => 2 | .min => 3 | .max => 4 | .or => 5
def Scope.code : Scope → BitVec 3
  | .group => 0 | .team => 1 | .core => 2 | .die => 3 | .device => 4 | .system => 5
def MemOrd.code : MemOrd → BitVec 3 | .plain => 0 | .acq => 1 | .rel => 2 | .ar => 3
def CFlag.code : CFlag → BitVec 2 | .z => 0 | .n => 1 | .c => 2 | .o => 3
def ShflMode.code : ShflMode → BitVec 4 | .idx => 1 | .up => 2 | .down => 3 | .xor => 4
def QxchMode.code : QxchMode → BitVec 4 | .h => 1 | .v => 2 | .d => 3
def TlbScope.code : TlbScope → BitVec 3 | .addr => 0 | .part => 1 | .all => 2

def satSub (b : Bool) : BitVec 6 := if b then 1 else 0

def encA (opc : BitVec 8) (sub : BitVec 6) (ty : BitVec 4) (h : Hdr) (d a b c : BitVec 8) (rm : BitVec 3)
    (ftz : BitVec 1) (amod : BitVec 4) : BitVec 96 :=
  packA { opc, sub, ty, h } { dst := d, sa := a, sb := b, sc := c, rm, ftz, amod, rsv := 0 }
def encI (opc : BitVec 8) (sub : BitVec 6) (ty : BitVec 4) (h : Hdr) (d a : BitVec 8) (rm : BitVec 3)
    (ftz : BitVec 1) (imm : BitVec 38) : BitVec 96 :=
  packI { opc, sub, ty, h } { dst := d, sa := a, rm, ftz, rsv := 0, imm }
def encM (opc : BitVec 8) (sub : BitVec 6) (ty : BitVec 4) (h : Hdr) (data : BitVec 8) (a : MemOpd)
    (scope ord ford : BitVec 3) (sb : BitVec 8) : BitVec 96 :=
  packM { opc, sub, ty, h } { data, addr := a.base.code, off := a.off, scope, ord, ford, sb, rsv := 0 }
def encS (opc : BitVec 8) (sub : BitVec 6) (h : Hdr) (reg : BitVec 8) (snum : BitVec 16) (tscope : BitVec 3) :
    BitVec 96 :=
  packS { opc, sub, ty := 0, h } { reg, snum, tscope, rsv := 0 }
def encX (opc : BitVec 8) (sub : BitVec 6) (ty : BitVec 4) (h : Hdr) (d a b c e : BitVec 8) (ta tb : BitVec 6)
    (emod : BitVec 6) (rm : BitVec 3) : BitVec 96 :=
  packX { opc, sub, ty, h } { dst := d, sa := a, sb := b, sc := c, sd := e, tida := ta, tidb := tb, emod, rm, rsv := 0 }

/-- The fields a test fills in a control word. -/
def Test.fields (f : FC) : Test → FC
  | .always => f
  | .flag ci fl neg => { f with ctest := 1, cidx := 0#1 ++ ci, flag := fl.code, fneg := bit1 neg }
  | .maskZero mi => { f with ctest := 2, cidx := mi }
  | .maskNonzero mi => { f with ctest := 3, cidx := mi }

def Target.fields (f : FC) : Target → FC
  | .direct disp slot => { f with disp, slot }
  | .indirect treg => { f with treg }

def Target.isInd : Target → Bool | .indirect _ => true | .direct _ _ => false

def selFields (f : FC) : Option (BitVec 3) → FC
  | none => f
  | some mi => { f with ctest := 3, cidx := mi }

/-- A control word with every field 0. -/
def FC.zero : FC :=
  { disp := 0, slot := 0, ctest := 0, cidx := 0, flag := 0, fneg := 0, treg := 0, creg := 0, rsv := 0 }

def encC (opc : BitVec 8) (sub : BitVec 6) (h : Hdr) (f : FC) : BitVec 96 := packC { opc, sub, ty := 0, h } f
def encK (opc : BitVec 8) (h : Hdr) (code : BitVec 32) : BitVec 96 :=
  packK { opc, sub := 0, ty := 0, h } { code, rsv := 0 }

/-- `SUB` of the width calls (R233). -/
def widthSub (team ind : Bool) : BitVec 6 := (if team then 1 else 0) + (if ind then 2 else 0)

/-- An A-format integer form without `SUB` or modifier. -/
def encInt (opc : BitVec 8) (h : Hdr) (ty : ITy) (d a : Opd) (b c : BitVec 8) : BitVec 96 :=
  encA opc 0 ty.code h d.code a.code b c 0 0 0
def encSat (opc : BitVec 8) (h : Hdr) (sat : Bool) (ty : ITy) (d a : Opd) (b c : BitVec 8) : BitVec 96 :=
  encA opc (satSub sat) ty.code h d.code a.code b c 0 0 0
def encFlt (opc : BitVec 8) (h : Hdr) (ty : FTy) (rm : Rm) (ftz : Bool) (d a : Opd) (b c : BitVec 8) : BitVec 96 :=
  encA opc 0 ty.code h d.code a.code b c rm.code (bit1 ftz) 0
def encIntI (opc : BitVec 8) (h : Hdr) (ty : ITy) (d a : Opd) (imm : BitVec 38) : BitVec 96 :=
  encI opc 0 ty.code h d.code a.code 0 0 imm
def encSatI (opc : BitVec 8) (h : Hdr) (sat : Bool) (ty : ITy) (d a : Opd) (imm : BitVec 38) : BitVec 96 :=
  encI opc (satSub sat) ty.code h d.code a.code 0 0 imm
def encFltI (opc : BitVec 8) (h : Hdr) (ty : FTy) (rm : Rm) (ftz : Bool) (d a : Opd) (imm : BitVec 38) : BitVec 96 :=
  encI opc 0 ty.code h d.code a.code rm.code (bit1 ftz) imm
def encMask (opc : BitVec 8) (h : Hdr) (d a : Opd) (b : BitVec 8) : BitVec 96 :=
  encA opc 0 0 h d.code a.code b 0 0 0 0
def encK4 (opc : BitVec 8) (sub : BitVec 6) (h : Hdr) (ty : ITy) (d a b e : Opd) : BitVec 96 :=
  encX opc sub ty.code h d.code a.code b.code 0 e.code 0 0 0 0
def encS3 (opc : BitVec 8) (h : Hdr) (d a : Opd) (b c : BitVec 8) (emod : BitVec 6) : BitVec 96 :=
  encX opc 0 0 h d.code a.code b c 0 0 0 emod 0

/-- The word of an instruction; a device event has none. -/
def encode : Instr → Option (BitVec 96)
  | .iadd h s ty d a b => some (encSat 0x01 h s ty d a b.code 0)
  | .iaddImm h s ty d a i => some (encSatI 0x41 h s ty d a i)
  | .isub h s ty d a b => some (encSat 0x02 h s ty d a b.code 0)
  | .isubImm h s ty d a i => some (encSatI 0x42 h s ty d a i)
  | .imul h s ty d a b => some (encSat 0x03 h s ty d a b.code 0)
  | .imulImm h s ty d a i => some (encSatI 0x43 h s ty d a i)
  | .imulh h ty d a b => some (encInt 0x04 h ty d a b.code 0)
  | .imad h s ty d a b c => some (encSat 0x05 h s ty d a b.code c.code)
  | .imin h ty d a b => some (encInt 0x06 h ty d a b.code 0)
  | .iminImm h ty d a i => some (encIntI 0x46 h ty d a i)
  | .imax h ty d a b => some (encInt 0x07 h ty d a b.code 0)
  | .imaxImm h ty d a i => some (encIntI 0x47 h ty d a i)
  | .iabs h s ty d a => some (encSat 0x08 h s ty d a 0 0)
  | .ineg h s ty d a => some (encSat 0x09 h s ty d a 0 0)
  | .iaddc h ty d a b c => some (encInt 0x0A h ty d a b.code c.code)
  | .icmp h rel ty d a b => some (encA 0x0B rel.code ty.code h d.code a.code b.code 0 0 0 0)
  | .icmpImm h rel ty d a i => some (encI 0x4B rel.code ty.code h d.code a.code 0 0 i)
  | .sel h ty d a b c => some (encInt 0x0C h ty d a b.code c.code)
  | .lea h ty sh d a b => some (encA 0x0D 0 ty.code h d.code a.code b.code 0 0 0 sh)
  | .leaImm h ty d a i => some (encIntI 0x4D h ty d a i)
  | .clz h ty d a => some (encInt 0x0E h ty d a 0 0)
  | .popc h ty d a => some (encInt 0x0F h ty d a 0 0)
  | .and h ty d a b => some (encInt 0x10 h ty d a b.code 0)
  | .andImm h ty d a i => some (encIntI 0x50 h ty d a i)
  | .or h ty d a b => some (encInt 0x11 h ty d a b.code 0)
  | .orImm h ty d a i => some (encIntI 0x51 h ty d a i)
  | .xor h ty d a b => some (encInt 0x12 h ty d a b.code 0)
  | .xorImm h ty d a i => some (encIntI 0x52 h ty d a i)
  | .andn h ty d a b => some (encInt 0x13 h ty d a b.code 0)
  | .andnImm h ty d a i => some (encIntI 0x53 h ty d a i)
  | .not h ty d a => some (encInt 0x14 h ty d a 0 0)
  | .shl h ty d a b => some (encInt 0x15 h ty d a b.code 0)
  | .shlImm h ty d a i => some (encIntI 0x55 h ty d a i)
  | .shr h ty d a b => some (encInt 0x16 h ty d a b.code 0)
  | .shrImm h ty d a i => some (encIntI 0x56 h ty d a i)
  | .sar h ty d a b => some (encInt 0x17 h ty d a b.code 0)
  | .sarImm h ty d a i => some (encIntI 0x57 h ty d a i)
  | .rotl h ty d a b => some (encInt 0x18 h ty d a b.code 0)
  | .rotlImm h ty d a i => some (encIntI 0x58 h ty d a i)
  | .brev h ty d a => some (encInt 0x19 h ty d a 0 0)
  | .bfx h ty d a b => some (encInt 0x1A h ty d a b.code 0)
  | .bfxImm h ty d a i => some (encIntI 0x5A h ty d a i)
  | .bfi h ty d a b c => some (encInt 0x1B h ty d a b.code c.code)
  | .mov h ty d a => some (encInt 0x1C h ty d a 0 0)
  | .movi h ty d i => some (encI 0x5C 0 ty.code h d.code 0 0 0 i)
  | .bcast h ty d a => some (encInt 0x1D h ty d a 0 0)
  | .laneget h ty d a b => some (encInt 0x1E h ty d a b.code 0)
  | .fadd h ty rm z d a b => some (encFlt 0x20 h ty rm z d a b.code 0)
  | .faddImm h ty rm z d a i => some (encFltI 0x60 h ty rm z d a i)
  | .fsub h ty rm z d a b => some (encFlt 0x21 h ty rm z d a b.code 0)
  | .fsubImm h ty rm z d a i => some (encFltI 0x61 h ty rm z d a i)
  | .fmul h ty rm z d a b => some (encFlt 0x22 h ty rm z d a b.code 0)
  | .fmulImm h ty rm z d a i => some (encFltI 0x62 h ty rm z d a i)
  | .ffma h ty rm z d a b c => some (encFlt 0x23 h ty rm z d a b.code c.code)
  | .fmin h ty z d a b => some (encFlt 0x24 h ty .rne z d a b.code 0)
  | .fminImm h ty z d a i => some (encFltI 0x64 h ty .rne z d a i)
  | .fmax h ty z d a b => some (encFlt 0x25 h ty .rne z d a b.code 0)
  | .fmaxImm h ty z d a i => some (encFltI 0x65 h ty .rne z d a i)
  | .fcmp h rel ty z d a b => some (encA 0x26 rel.code ty.code h d.code a.code b.code 0 0 (bit1 z) 0)
  | .fcmpImm h rel ty z d a i => some (encI 0x66 rel.code ty.code h d.code a.code 0 (bit1 z) i)
  | .frcp h ty rm z d a => some (encFlt 0x27 h ty rm z d a 0 0)
  | .frsq h ty rm z d a => some (encFlt 0x28 h ty rm z d a 0 0)
  | .fsqrt h ty rm z d a => some (encFlt 0x29 h ty rm z d a 0 0)
  | .fdiv h ty rm z d a b => some (encFlt 0x2A h ty rm z d a b.code 0)
  | .fexp2 h ty rm z d a => some (encFlt 0x2B h ty rm z d a 0 0)
  | .flog2 h ty rm z d a => some (encFlt 0x2C h ty rm z d a 0 0)
  | .frnd h ty rm z d a => some (encFlt 0x2D h ty rm z d a 0 0)
  | .fcvt h src ty rm z sat d a =>
    some (encA 0x2E (0#2 ++ src.code) ty.code h d.code a.code 0 0 rm.code (bit1 z) (if sat then 1 else 0))
  | .icvt h toInt ity ty rm d a =>
    some (encA 0x2F (0#1 ++ bit1 toInt ++ ity.code) ty.code h d.code a.code 0 0 rm.code 0 0)
  | .fclass h ty d a => some (encA 0x30 0 ty.code h d.code a.code 0 0 0 0 0)
  | .shfl h ty mode d a b => some (encA 0x31 0 ty.code h d.code a.code b.code 0 0 0 mode.code)
  | .qxch h ty mode d a => some (encA 0x32 0 ty.code h d.code a.code 0 0 0 0 mode.code)
  | .ballot h ty d a => some (encInt 0x33 h ty d a 0 0)
  | .vote h ty any d a => some (encA 0x34 0 ty.code h d.code a.code 0 0 0 0 (if any then 2 else 1))
  | .gred h op ty d a => some (encA 0x35 op.code ty.code h d.code a.code 0 0 0 0 0)
  | .gscan h op ty exc d a => some (encA 0x36 op.code ty.code h d.code a.code 0 0 0 0 (if exc then 2 else 1))
  | .mfirst h d a => some (encMask 0x37 h d a 0)
  | .mpopc h d a => some (encMask 0x38 h d a 0)
  | .mand h d a b => some (encMask 0x39 h d a b.code)
  | .mor h d a b => some (encMask 0x3A h d a b.code)
  | .mxor h d a b => some (encMask 0x3B h d a b.code)
  | .mnot h d a => some (encMask 0x3C h d a 0)
  | .mmov h d a => some (encMask 0x3D h d a 0)
  | .mtox h d a => some (encMask 0x3E h d a 0)
  | .mfs h d num => some (encI 0x7E 0 0 h d.code 0 0 0 (0#26 ++ num))
  | .mts h num a => some (encI 0x7F 0 0 h 0 a.code 0 0 (0#26 ++ num))
  | .xgrow h lo hi => some (encI 0x7A 0 0 h 0 0 0 0 (0#36 ++ bit1 hi ++ bit1 lo))
  | .xdrop h lo hi => some (encI 0x7B 0 0 h 0 0 0 0 (0#36 ++ bit1 hi ++ bit1 lo))
  | .qcfg h qi depth base => some (encI 0x7C 0 0 h 0 0 0 0 (0#25 ++ base ++ depth ++ qi))
  | .bra h disp slot test => some (encC 0x80 0 h (test.fields { FC.zero with disp, slot }))
  | .jmp h treg test => some (encC 0x81 0 h (test.fields { FC.zero with treg }))
  | .call h tgt link =>
    some (encC 0x82 (if tgt.isInd then 1 else 0) h (tgt.fields { FC.zero with creg := link.code }))
  | .ret h link => some (encC 0x83 0 h { FC.zero with creg := link.code })
  | .wcall h team tgt sel base =>
    some (encC 0x84 (widthSub team tgt.isInd) h (tgt.fields (selFields { FC.zero with creg := base.code } sel)))
  | .gcall h team tgt sel base =>
    some (encC 0x85 (widthSub team tgt.isInd) h (tgt.fields (selFields { FC.zero with creg := base.code } sel)))
  | .wret h sel base => some (encC 0x86 0 h (selFields { FC.zero with creg := base.code } sel))
  | .spawn h disp slot base => some (encC 0x87 0 h { FC.zero with disp, slot, creg := base.code })
  | .spwait h a => some (encC 0x88 0 h { FC.zero with creg := a.code })
  | .exit h => some (encC 0x89 0 h FC.zero)
  | .nop h => some (encC 0x8A 0 h FC.zero)
  | .mark h c => some (encK 0x8B h c)
  | .bkpt h c => some (encK 0x8C h c)
  | .trap h c => some (encK 0x8D h c)
  | .ld h ty scope ord d a => some (encM 0x90 0 ty.code h d.code a scope.code ord.code 0 0)
  | .st h ty scope ord d a => some (encM 0x91 0 ty.code h d.code a scope.code ord.code 0 0)
  | .lfull h scope ord a => some (encM 0x92 0 0 h 0 a scope.code ord.code 0 0)
  | .lempty h scope ord a => some (encM 0x93 0 0 h 0 a scope.code ord.code 0 0)
  | .ltest h scope ord d a => some (encM 0x94 0 0 h d.code a scope.code ord.code 0 0)
  | .atom h op ty scope ord d a b => some (encM 0x95 op.code ty.code h d.code a scope.code ord.code 0 b.code)
  | .cas h ty scope ord facq d a b =>
    some (encM 0x96 0 ty.code h d.code a scope.code ord.code (if facq then 1 else 0) b.code)
  | .redm h op ty scope ord d a => some (encM 0x97 op.code ty.code h d.code a scope.code ord.code 0 0)
  | .fence h scope ord => some (encM 0x98 0 0 h 0 { base := .v 0, off := 0 } scope.code ord.code 0 0)
  | .fenceFlag h scope ord d a => some (encM 0x98 1 0 h d.code a scope.code ord.code 0 0)
  | .barinit h d a => some (encM 0x99 0 0 h d.code a 0 0 0 0)
  | .arrive h scope ord d a b => some (encM 0x9A 0 0 h d.code a scope.code ord.code 0 b.code)
  | .waitb h scope ord d a => some (encM 0x9B 0 0 h d.code a scope.code ord.code 0 0)
  | .cmdw h d a b => some (encM 0x9C 0 0 h d.code a 0 0 0 b.code)
  | .notify h scope d a => some (encM 0x9D 0 0 h d.code a scope.code 2 0 0)
  | .bclose h d => some (encM 0x9E 0 0 h d.code { base := .v 0, off := 0 } 0 0 0 0)
  | .bwait h d => some (encM 0x9F 0 0 h d.code { base := .v 0, off := 0 } 0 0 0 0)
  | .pref h a => some (encM 0xA0 0 0 h 0 a 0 0 0 0)
  | .prefTlb h a => some (encM 0xA0 1 0 h 0 a 0 0 0 0)
  | .eret h => some (encS 0xB0 0 h 0 0 0)
  | .eretSkip h => some (encS 0xB0 1 h 0 0 0)
  | .eretFwd h => some (encS 0xB0 2 h 0 0 0)
  | .mfsr h r n => some (encS 0xB1 0 h r.code n 0)
  | .mtsr h r n => some (encS 0xB2 0 h r.code n 0)
  | .tlbinv h sc r => some (encS 0xB3 0 h r.code 0 sc.code)
  | .waitev h r ev => some (encS 0xB4 0 h r.code ev 0)
  | .gang h a => some (encX 0xC0 0 0 h 0 a.code 0 0 0 0 0 0 0)
  | .mma h ty kc za rm d a b ids =>
    match ids with
    | none => some (encX 0xC1 0 ty.code h d.code a.code b.code 0 0 0 0 (0#1 ++ bit1 za ++ 0#1 ++ kc) rm.code)
    | some i =>
      some (encX 0xC1 0 ty.code h d.code a.code b.code i.pos.code i.scales.code i.tida i.tidb
        (0#1 ++ bit1 za ++ 1#1 ++ kc) rm.code)
  | .bdot h ty rm d a b c e ta tb =>
    some (encX 0xC2 0 ty.code h d.code a.code b.code c.code e.code ta tb 0 rm.code)
  | .accz h ty a => some (encX 0xC3 0 ty.code h 0 a.code 0 0 0 0 0 0 0)
  | .accrd h ty d a => some (encX 0xC4 0 ty.code h d.code a.code 0 0 0 0 0 0 0)
  | .accrdSt h ty rm d a c ta => some (encX 0xC4 0 ty.code h d.code a.code 0 c.code 0 ta 0 8 rm.code)
  | .accwr h ty a b => some (encX 0xC5 0 ty.code h 0 a.code b.code 0 0 0 0 0 0)
  | .tidset h a ta => some (encX 0xC6 0 0 h 0 a.code 0 0 0 ta 0 0 0)
  | .tidget h w d ta => some (encX 0xC7 0 0 h d.code 0 0 0 0 ta 0 (0#3 ++ w) 0)
  | .hadq h rm d a c e ta => some (encX 0xC8 0 0 h d.code a.code 0 c.code e.code ta 0 0 rm.code)
  | .zmap h d ta => some (encX 0xC9 0 0 h d.code 0 0 0 0 ta 0 0 0)
  | .kclaim h logb d a b c => some (encX 0xD0 0 0 h d.code a.code b.code c.code 0 0 0 logb 0)
  | .kfree h e => some (encX 0xD1 0 0 h 0 0 0 0 e.code 0 0 0 0)
  | .kins h ty d a b e => some (encK4 0xD2 0 h ty d a b e)
  | .kprb h ty d a b e => some (encK4 0xD3 0 h ty d a b e)
  | .kdel h d a e => some (encX 0xD4 0 0 h d.code a.code 0 0 e.code 0 0 0 0)
  | .kacc h op ty d a b e => some (encK4 0xD5 op.code h ty d a b e)
  | .kdrn h ty key del rst d b c e =>
    some (encX 0xD6 0 ty.code h d.code 0 b.code c.code e.code 0 0 (0#3 ++ bit1 rst ++ bit1 del ++ bit1 key) 0)
  | .kstat h d e => some (encX 0xD7 0 0 h d.code 0 0 0 e.code 0 0 0 0)
  | .slen h l => some (encX 0xE0 0 0 h 0 0 0 0 0 0 0 (0#4 ++ l) 0)
  | .sgen h cls d a b => some (encS3 0xE1 h d a b.code 0 (0#2 ++ cls))
  | .smul h d a b => some (encS3 0xE2 h d a b.code 0 0)
  | .smin h d a b => some (encS3 0xE3 h d a b.code 0 0)
  | .smax h d a b => some (encS3 0xE4 h d a b.code 0 0)
  | .snot h d a => some (encS3 0xE5 h d a 0 0 0)
  | .ssel h d a b c => some (encS3 0xE6 h d a b.code c.code 0)
  | .scnt h f d a => some (encS3 0xE7 h d a 0 0 (0#5 ++ bit1 f))
  | .sregen h cls d a b => some (encS3 0xE8 h d a b.code 0 (0#2 ++ cls))
  | .sbit h d a b => some (encS3 0xE9 h d a b.code 0 0)
  | .scls h d a => some (encS3 0xEA h d a 0 0 0)
  | .coll h tile d a b c e =>
    some (encX 0xF0 0 0 h d.code a.code b.code c.code e.code 0 0
      (match tile with | none => 0 | some ti => 0b0001#4 ++ ti) 0)
  | .dsend h a b => some (encX 0xF1 0 0 h 0 a.code b.code 0 0 0 0 0 0)
  | .dclose h d a => some (encX 0xF2 0 0 h d.code a.code 0 0 0 0 0 0 0)
  | .qpush h wait d a e => some (encX 0xF3 0 0 h d.code a.code 0 0 e.code 0 0 (0#5 ++ bit1 wait) 0)
  | .qpop h wait stamp d b e =>
    some (encX 0xF4 0 0 h d.code 0 b.code (match stamp with | none => 0 | some c => c.code) e.code 0 0
      (0#4 ++ bit1 stamp.isSome ++ bit1 wait) 0)
  | .tile h d a b => some (encX 0xF5 0 0 h d.code a.code b.code 0 0 0 0 0 0)
  | .longResultReturn _ _ | .switchUnpark _ | .emptylineLoadRead _ _ _ | .fetchLineReceive _ | .poolBlockGrant _
  | .registerGrowCheck _ | .binFireTimeout _ _ | .spawnedGroupStart _ _ | .pooledCallWithdraw _ _ | .teamPlace _
  | .timeSliceExpiry _ | .waitPriorityRaise _ | .swapCut _ | .swapOutComplete _ | .teamResume _ _ | .qbaseWrite _ _ _
  | .qctlWrite _ _ _ | .qtailWrite _ _ _ | .qabort _ _ _ | .packetRead _ | .dependencePoll _ | .launchComplete _
  | .copyCommandStart _ | .copyUnitLand _ _ | .copyCommandComplete _ | .ringstall _ | .gangForm _ | .gangDissolve _
  | .mmaStart _ | .mmaComplete _ | .subarrayPowerGate _ _ | .keyOpComplete _ | .chordOpComplete _ | .tlbinvComplete _
  | .collectiveComplete _ | .dispatchTokenArrive _ | .dispatchTokenDeliver _ | .dispstall _ | .softError _ _
  | .cpartWrite _ _ _ | .partitionMoveComplete _ | .doorbell _ _ | .ipqcfgWrite _ _ _ | .xpoolWrite _ _ _
  | .trsizelWrite _ _ _ | .elsizelWrite _ _ _ | .perfctlClr _ _ | .haltreq _ _ | .release _ _ | .dbgselWrite _ _ _
  | .crossTriggerArrive _ | .traceSample _ _ | .registerWrite _ _ _ _ | .ownerClaim _ _ _ | .ownerOffer _ _ _
  | .ownerTake _ _ _ | .ownerRelease _ _ _ | .ownerLinkDown _ | .ownerLinkUp _ | .ownerLinkTimeout | .attest _
  | .getcert _ | .update _ | .activate _ | .stage _ | .collpart _ | .resetreq _ _ | .perst | .clkstep
  | .hostOrPeerRequest _ _ _ _ | .peerPortLinkDown _ | .peerPortLinkUp _ | .eligibilityHistogramClock _ _ => none

/-- The instructions of a group, which have a word; the others are device events. -/
def Instr.isEvent (i : Instr) : Bool := (encode i).isNone

end Sys2Proof
end

