-- ==== Sys2Proof/Machine/Fetch.lean ====
section
/-! DEFINITION. Fetching and checking the slot about to issue: fetch faults, parity, line words, decode, pairs
(R89 to R93, R157 to R159, R172 to R177), stop sites and breakpoints (R103, R428, R429). -/

namespace Sys2Proof.Machine

/-! ## Registers an instruction names (R173) -/

/-- The code numbers of k registers from an operand on; a file ends with its last register. -/
def span (o : Opd) (k : Nat) : List Nat :=
  let (base, last) := match o with
    | .v n => (n.toNat, 64)
    | .x n => (64 + n.toNat, 128)
    | .m n => (128 + n.toNat, 136)
    | .c n => (136 + n.toNat, 140)
    | .q n => (140 + n.toNat, 148)
    | .s n => (148 + n.toNat, 164)
    | .t n => (164 + n.toNat, 168)
  ((List.range k).map (base + ·)).filter (· < last)

/-- The registers that hold a value of w bits. -/
def regsOf (w : Nat) (o : Opd) : List Nat :=
  match o with
  | .v _ => span o (max 1 (w / 32))
  | .x _ => span o (max 1 (w / 64))
  | _ => span o 1

/-- Registers written and registers read. -/
structure Uses where
  w : List Nat
  r : List Nat

/-- Only sources; a queue counts as written, whatever it is named for (R173). -/
def readsOf (h : Hdr) (srcs : List (Opd × Nat)) : Uses :=
  { w := (srcs.filter (fun p => p.1.isQ)).flatMap (fun p => regsOf p.2 p.1)
    r := (srcs.filter (fun p => !p.1.isQ)).flatMap (fun p => regsOf p.2 p.1) ++
      (if h.pm = 0 then [] else [128 + h.pm.toNat]) }

/-- A destination of dw bits and sources with their widths. -/
def usesOf (h : Hdr) (d : Opd) (dw : Nat) (srcs : List (Opd × Nat)) : Uses :=
  let u := readsOf h srcs
  { u with w := regsOf dw d ++ u.w }

/-- Registers written beside those of a form. -/
def Uses.also (u : Uses) (w : List Nat) : Uses :=
  { u with w := u.w ++ w }

/-- The registers of every instruction whose class can pair (R172, R173). Special registers, which `MFS` and `MTS` name and
other instructions use unnamed, are not among them (log entry 62, DESIGN CHOICE). -/
def usesOfInstr : Instr → Uses
  | .iadd h _ ty d a b | .isub h _ ty d a b | .imul h _ ty d a b | .imulh h ty d a b | .imin h ty d a b
  | .imax h ty d a b | .and h ty d a b | .or h ty d a b | .xor h ty d a b | .andn h ty d a b | .shl h ty d a b
  | .shr h ty d a b | .sar h ty d a b | .rotl h ty d a b | .bfx h ty d a b =>
    usesOf h d ty.width [(a, ty.width), (b, ty.width)]
  | .iaddImm h _ ty d a _ | .isubImm h _ ty d a _ | .imulImm h _ ty d a _ | .iminImm h ty d a _ | .imaxImm h ty d a _
  | .andImm h ty d a _ | .orImm h ty d a _ | .xorImm h ty d a _ | .andnImm h ty d a _ | .shlImm h ty d a _
  | .shrImm h ty d a _ | .sarImm h ty d a _ | .rotlImm h ty d a _ | .bfxImm h ty d a _ | .iabs h _ ty d a
  | .ineg h _ ty d a | .not h ty d a | .brev h ty d a | .mov h ty d a => usesOf h d ty.width [(a, ty.width)]
  | .imad h _ ty d a b c | .bfi h ty d a b c =>
    usesOf h d ty.width [(a, ty.width), (b, ty.width), (c, ty.width)]
  | .iaddc h ty d a b c => (usesOf h d ty.width [(a, ty.width), (b, ty.width), (c, 64)]).also (regsOf 64 c)
  | .icmp h _ ty d a b => usesOf h d 64 [(a, ty.width), (b, ty.width)]
  | .icmpImm h _ ty d a _ => usesOf h d 64 [(a, ty.width)]
  | .sel h ty d a b c => usesOf h d ty.width [(a, ty.width), (b, ty.width), (c, 64)]
  | .lea h ty _ d a b => usesOf h d 64 [(a, 64), (b, ty.width)]
  | .leaImm h _ d a _ => usesOf h d 64 [(a, 64)]
  | .clz h ty d a | .popc h ty d a => usesOf h d 32 [(a, ty.width)]
  | .movi h ty d _ => usesOf h d ty.width []
  | .bcast h ty d a => usesOf h d ty.width [(a, ty.width)]
  | .laneget h ty d a b => usesOf h d ty.width [(a, ty.width), (b, 64)]
  | .fadd h ty _ _ d a b | .fsub h ty _ _ d a b | .fmul h ty _ _ d a b | .fmin h ty _ d a b | .fmax h ty _ d a b
  | .fdiv h ty _ _ d a b => usesOf h d ty.width [(a, ty.width), (b, ty.width)]
  | .faddImm h ty _ _ d a _ | .fsubImm h ty _ _ d a _ | .fmulImm h ty _ _ d a _ | .fminImm h ty _ d a _
  | .fmaxImm h ty _ d a _ | .frcp h ty _ _ d a | .frsq h ty _ _ d a | .fsqrt h ty _ _ d a | .fexp2 h ty _ _ d a
  | .flog2 h ty _ _ d a | .frnd h ty _ _ d a => usesOf h d ty.width [(a, ty.width)]
  | .ffma h ty _ _ d a b c => usesOf h d ty.width [(a, ty.width), (b, ty.width), (c, ty.width)]
  | .fcmp h _ ty _ d a b => usesOf h d 64 [(a, ty.width), (b, ty.width)]
  | .fcmpImm h _ ty _ d a _ => usesOf h d 64 [(a, ty.width)]
  | .fcvt h src ty _ _ _ d a => usesOf h d ty.width [(a, src.width)]
  | .icvt h toInt ity ty _ d a =>
    if toInt then usesOf h d ity.width [(a, ty.width)] else usesOf h d ty.width [(a, ity.width)]
  | .fclass h ty d a => usesOf h d 32 [(a, ty.width)]
  | .shfl h ty _ d a b => usesOf h d ty.width [(a, ty.width), (b, ty.width)]
  | .qxch h ty _ d a => usesOf h d ty.width [(a, ty.width)]
  | .ballot h ty d a | .vote h ty _ d a => usesOf h d 64 [(a, ty.width)]
  | .gred h _ ty d a | .gscan h _ ty _ d a => usesOf h d ty.width [(a, ty.width)]
  | .mfirst h d a | .mpopc h d a => usesOf h d 32 [(a, 64)]
  | .mand h d a b | .mor h d a b | .mxor h d a b => usesOf h d 64 [(a, 64), (b, 64)]
  | .mnot h d a | .mmov h d a | .mtox h d a => usesOf h d 64 [(a, 64)]
  | .mfs h d num => usesOf h d (match specialReg num with | some (w, _) => specialWidth w | none => 32) []
  | .mts h num a => readsOf h [(a, match specialReg num with | some (w, _) => specialWidth w | none => 32)]
  | .xgrow h _ _ | .xdrop h _ _ => readsOf h []
  | .qcfg h qi _ _ => usesOf h (.q qi) 32 []
  | .ld h ty _ _ d a => usesOf h d ty.width [(a.base, 64)]
  | .st h ty _ _ d a => readsOf h [(d, ty.width), (a.base, 64)]
  | .lfull h _ _ a | .lempty h _ _ a | .pref h a | .prefTlb h a => readsOf h [(a.base, 64)]
  | .ltest h _ _ d a => usesOf h d 64 [(a.base, 64)]
  | .atom h _ ty _ _ d a b => usesOf h d ty.width [(a.base, 64), (b, ty.width)]
  | .cas h ty _ _ _ d a b => usesOf h d ty.width [(a.base, 64), (b, ty.width), (d, ty.width)]
  | .redm h _ ty _ _ d a => readsOf h [(d, ty.width), (a.base, 64)]
  | .fence h _ _ => readsOf h []
  | .fenceFlag h _ _ d a => readsOf h [(d, 64), (a.base, 64)]
  | .barinit h d a | .notify h _ d a | .waitb h _ _ d a => readsOf h [(d, 64), (a.base, 64)]
  | .arrive h _ _ d a b => usesOf h d 64 [(a.base, 64), (b, 64)]
  | .cmdw h d a b => usesOf h b 32 [(d, 256), (a.base, 64)]
  | .bclose h d => usesOf h d 64 []
  | .bwait h d => readsOf h [(d, 64)]
  | .gang h a => readsOf h [(a, 64)]
  | .mma h _ _ _ _ d a _ ids =>
    readsOf h ([(d, 64), (a, 64)] ++ (match ids with | none => [] | some i => [(i.pos, 128), (i.scales, 128)]))
  | .bdot h ty _ d a b c e _ _ =>
    let w := if ty = .e2m1 then 32 else 64
    usesOf h d 32 [(a, w), (b, w), (c, 32), (e, 128), (d, 32)]
  | .accz h _ a => readsOf h [(a, 64)]
  | .accrd h ty d a => usesOf h d (if ty = .f64 then 512 else 256) [(a, 64)]
  | .accrdSt h _ _ d a c _ => usesOf h d 64 [(a, 64), (c, 64)]
  | .accwr h ty a b => readsOf h [(a, 64), (b, if ty = .f64 then 512 else 256)]
  | .tidset h a _ => readsOf h [(a, 64)]
  | .tidget h _ d _ | .zmap h d _ => usesOf h d 64 []
  | .hadq h _ d a c e _ => usesOf h d 64 [(a, 32), (c, 64), (e, 64)]
  | .kclaim h _ d a b c => usesOf h d 64 [(a, 64), (b, 64), (c, 64)]
  | .kfree h e => readsOf h [(e, 64)]
  | .kins h ty d a b e | .kacc h _ ty d a b e => usesOf h d 32 [(a, 32), (b, ty.width), (e, 64)]
  | .kprb h ty d a b e => (usesOf h d 32 [(a, 32), (e, 64)]).also (regsOf ty.width b)
  | .kdel h d a e => usesOf h d 32 [(a, 32), (e, 64)]
  | .kdrn h ty _ _ _ d b c e => ((usesOf h d 32 [(e, 64)]).also (regsOf ty.width b)).also (regsOf 64 c)
  | .kstat h d e => usesOf h d 128 [(e, 64)]
  | .slen h _ => readsOf h []
  | .sgen h _ d a b => usesOf h d 32 [(a, 32), (b, 64)]
  | .smul h d a b | .smin h d a b | .smax h d a b => usesOf h d 32 [(a, 32), (b, 32)]
  | .snot h d a => usesOf h d 32 [(a, 32)]
  | .ssel h d a b c => usesOf h d 32 [(a, 32), (b, 32), (c, 32)]
  | .scnt h _ d a => usesOf h d 32 [(a, 32)]
  | .sregen h _ d a b | .sbit h d a b => usesOf h d 64 [(a, 32), (b, 64)]
  | .scls h d a => usesOf h d 64 [(a, 32)]
  | .coll h tile d a b c e =>
    let u := readsOf h [(d, 64), (a, 64), (b, 64), (c, 64), (e, 64)]
    (match tile with | none => u | some k => { u with r := u.r ++ span (.t k) 1 })
  | .dsend h a b => readsOf h [(a, 128), (b, 64)]
  | .dclose h d a => usesOf h d 64 [(a, 64)]
  | .qpush h _ d a e => usesOf h d 32 [(a, 128), (e, 64)]
  | .qpop h _ stamp d b e =>
    ((usesOf h d 128 [(e, 64)]).also (regsOf 32 b)).also (match stamp with | none => [] | some c => regsOf 128 c)
  | .tile h d a b => usesOf h d 32 [(a, 128), (b, 128)]
  | _ => ⟨[], []⟩

/-! ## Pairs (R172, R173) -/

/-- The issue classes by opcode (R172). -/
inductive IssueClass where
  | int | flt | lane | ctl | mem | sys | eng | none
  deriving DecidableEq, Repr

def issueClass (opc : Nat) : IssueClass :=
  if opc = 0 then .none
  else if opc ≤ 0x1E then .int
  else if 0x20 ≤ opc && opc ≤ 0x30 then .flt
  else if 0x31 ≤ opc && opc ≤ 0x38 then .lane
  else if 0x39 ≤ opc && opc ≤ 0x3E then .int
  else if 0x41 ≤ opc && opc ≤ 0x5E then .int
  else if 0x60 ≤ opc && opc ≤ 0x70 then .flt
  else if 0x7A ≤ opc && opc ≤ 0x7F then .int
  else if 0x80 ≤ opc && opc ≤ 0x8F then .ctl
  else if 0x90 ≤ opc && opc ≤ 0xAF then .mem
  else if 0xB0 ≤ opc && opc ≤ 0xBF then .sys
  else if 0xC0 ≤ opc then .eng
  else .none

/-- The holders of B in a gang of n (R332). -/
def holdersOf (n : Nat) : Nat :=
  if n ≤ 3 then 2 else 4

/-- The registers a member reads for B: its share, and the headers in member 0 (R332). -/
def bRegs (ty : FTy) (n member : Nat) : Nat :=
  if holdersOf n ≤ member then 0
  else 16 / holdersOf n + (if member = 0 then (match ty with | .dxb8 => 1 | .dxb4 => 2 | _ => 0) else 0)

/-- The group's place in its gang (R190). -/
def Gang.place (k : Gang) (gid : Nat) : Nat :=
  (indexOf? (· == gid) k.members).getD 0

/-- The gang of a group. -/
def State.gangOf (s : State) (g : Group) : Option Gang :=
  match g.gang with
  | some k => s.gang? k
  | none => none

/-- The registers that an `MMA` of the group reads for B: they depend on its gang (R332). -/
def State.bUses (s : State) (g : Group) : Instr → List Nat
  | .mma _ ty _ _ _ _ _ b _ =>
    match s.gangOf g with
    | some k => span b (bRegs ty k.members.length (k.place g.id))
    | none => []
  | _ => []

/-- No number stands in both lists. -/
def disjoint (a b : List Nat) : Bool :=
  a.all (fun x => !b.contains x)

/-- The 96 bits of slot k of a line (R89). -/
def slotBits (b : BitVec 512) (k : Nat) : BitVec 96 :=
  b.extractLsb' (96 * k) 96

/-- R173: both decode, and the four conditions; `more` are the registers an instruction reads beside those it names. -/
def pairOk (more : Instr → List Nat) (b : BitVec 512) (k : Nat) (i j : Instr) : Bool :=
  let lw := lineWord b
  let ci := issueClass (bitsN (slotBits b k) 95 88)
  let cj := issueClass (bitsN (slotBits b (k + 1)) 95 88)
  let ui := usesOfInstr i
  let uj := usesOfInstr j
  ci != cj && ci != .ctl && ci != .sys && cj != .ctl && cj != .sys &&
    !(slotBits b k).getLsbD 70 && !(slotBits b (k + 1)).getLsbD 70 && !(slotBits b k).getLsbD 73 &&
    disjoint ui.w (ui.r ++ more i) && disjoint ui.w (uj.r ++ more j) && disjoint ui.w uj.w && !lw.getLsbD (28 + k)

/-! ## The slot about to issue (R175) -/

/-- Receive the line that holds the pc, unless the group holds it (R158, R177). A parity mismatch is logged once for
each mismatching read. -/
def State.receive (s : State) (g : Group) : State × Group :=
  match g.lineAt g.pc with
  | some _ => (s, g)
  | none =>
    let l := s.fetchLine (s.accessor g) (lineAddr g.pc)
    let g' := { g with line := some l }
    let s' := (s.lookUpAll g [lineAddr g.pc]).setGroup g'
    if l.mismatch then (s'.logParity g l, { g' with evpend := g'.evpend ||| 2 }) else (s', g')

/-- The fault of orders 1 and 2 of R175, if any. -/
def lineFault (l : FetchLine) : Option Trap :=
  let lw := lineWord l.bits
  match l.fault with
  | some c => some (trapAt c l.va)
  | none =>
    if l.parBad then some (trapOf .fetchpar)
    else
      match l.poison with
      | some u => some (trapAt .poison u)
      | none =>
        if bitsN lw 23 18 != 0 || lw.getLsbD 16 then some (trapOf .illop) else none

/-- `MARK` needs a line with `MARKER` set (R90). -/
def markOk (b : BitVec 512) : Instr → Bool
  | .mark _ _ => (lineWord b).getLsbD 17
  | _ => true

/-- The instruction of slot k by orders 3 and 4 of R175. -/
def slotInstr (b : BitVec 512) (k : Nat) : Option Instr :=
  match decode (slotBits b k) with
  | .ok i => if i.wellFormed && markOk b i then some i else none
  | .error _ => none

/-- The checks of R175, orders 1 to 5: the instruction to issue, or the decode fault. -/
def checkSlot (more : Instr → List Nat) (l : FetchLine) (k : Nat) : Except Trap Instr :=
  match lineFault l with
  | some t => .error t
  | none =>
    match slotInstr l.bits k with
    | none => .error (trapOf .illop)
    | some i =>
      if pairSecond (bitsN (lineWord l.bits) 26 24) (k + 1) then
        match slotInstr l.bits (k + 1) with
        | none => .error (trapOf .illop)
        | some j => if pairOk more l.bits k i j then .ok i else .error (trapOf .illop)
      else .ok i

/-! ## Stopping (R425 to R431) -/

/-- The enabled breakpoint of an armed partition that names an ordinal (R427, R428). -/
def Partition.breakAt (p : Partition) (ord : Nat) : Option Nat :=
  if p.arm then
    (List.range 8).find? (fun i => let b := vget p.bp i 0; b.getLsbD 63 && bitsN b 31 0 == ord)
  else none

/-- Has the halt of the group's context reached its core (R429)? -/
def State.haltReached (s : State) (g : Group) : Bool :=
  let p := s.part (s.accessor g).part
  p.halted && !p.trig.contains (g.core.getD 0)

/-- What a group at a stop site does before issuing it: stop at a breakpoint, which is a hit whether or not the context is
halted, or stop in a halted context (R428, R429). Released from its hit, it passes the breakpoint, and a `BKPT` there gives a
hit of its own. -/
def State.stopAt (s : State) (g : Group) (ord : Nat) : Option State :=
  let part := (s.accessor g).part
  match (if g.pass = .no then (s.part part).breakAt ord else none) with
  | some n =>
    some ((s.setGroup { g with stopped := true, pass := .site }).hit part
      (s.hitRec g 1 (BitVec.ofNat 32 ord) 0 false false n 0))
  | none => if s.haltReached g then some (s.setGroup { g with stopped := true }) else none

/-! ## A group's turn -/

/-- A wait that ends by the group's own turn (it tries its instruction again). -/
def Wait.retries : Wait → Bool
  | .results | .ops | .behind | .barrier | .phase .. | .batch | .rendezvous | .queue | .chord | .ring .. | .sendq .. => true
  | .switch | .tlbinv .. | .gang .. | .dissolve .. | .widthpark | .xgrow .. => false

/-- May the group move at all: placed, and its team not cut but for the end of its supervisor entry (R416)? -/
def State.teamRuns (s : State) (g : Group) : Bool :=
  g.core.isSome &&
    (match s.team? g.team with
     | some t => t.swap == .resident || (t.swap != .out && g.mode == .supervisor)
     | none => false)

/-- A group that may issue: its team runs, it is not halted, not stopped, not in the hands of the firmware (R411), and in no
wait but one that it tries again; in a halted context a parked group stays parked, and one that is only held behind a load is
not parked (R266, R429). -/
def State.mayIssue (s : State) (g : Group) : Bool :=
  s.teamRuns g && g.halted.isNone && !g.stopped && g.firmware.isNone &&
    (match g.wait with | none => true | some .behind => true | some w => w.retries && !s.haltReached g)

/-- What the turn of a group is, before its instruction acts: nothing, a decode fault or a stop (already taken in the
state), or the instruction in the state that has received its line. -/
inductive TurnOf where
  | idle
  | done (s : State)
  | run (i : Instr) (s : State)

/-- The turn of the group `s.cur`. -/
def State.turn (s : State) : TurnOf :=
  match s.group? s.cur with
  | none => .idle
  | some g =>
    if !s.mayIssue g then .idle
    else
      let (s1, g1) := s.receive g
      match g1.lineAt g1.pc with
      | none => .idle
      | some l =>
        match checkSlot (s1.bUses g1) l (slotOf g1.pc) with
        | .error t => .done (s1.take { g1 with wait := none, line := none } t)
        | .ok i =>
          if (g1.wait.isNone || g1.wait = some .behind) && (slotBits l.bits (slotOf g1.pc)).getLsbD 70 then
            match s1.ordinal g1 g1.pc with
            | none => .run i s1
            | some ord =>
              match s1.stopAt g1 ord with
              | some s2 => .done s2
              | none => .run i s1
          else .run i s1

end Sys2Proof.Machine
end

