-- ==== Sys2Proof/Machine/WidthCall.lean ====
section
/-! DEFINITION. The width-changing calls (R232 to R252): callers, items and packing, grant, folding and self-folding, the
callee's starting state, and the return. -/

namespace Sys2Proof.Machine

/-! ## Slots and the frame stack (R138, R242) -/

/-- The groups that hold a slot of a core. -/
def State.onCore (s : State) (core : Nat) : List Group :=
  s.groups.filter (fun g => g.core == some core)

/-- The free slots of a core, by number. -/
def State.freeSlots (s : State) (core : Nat) : List Nat :=
  (List.range 128).filter (fun k => !(s.onCore core).any (fun g => g.slot == k))

/-- The slot the next group takes: the lowest free one of the quadrant with the most free slots (R138). -/
def State.pickSlot (s : State) (core : Nat) : Option Nat :=
  let free := s.freeSlots core
  let per (q : Nat) : Nat := (free.filter (fun k => k / 32 == q)).length
  let best := [1, 2, 3].foldl (fun b q => if per b < per q then q else b) 0
  free.find? (fun k => k / 32 == best)

/-- The pool blocks in use on a core. -/
def State.heldBlocks (s : State) (core : Nat) : Nat :=
  ((s.onCore core).map Group.blocks).sum

/-- The local offset of a team's frame stack (R140). -/
def State.fsbase (s : State) (t : Team) : Nat :=
  t.off + (s.valsOf t).scratch

/-- The lowest free offset of the frame stack for an area of size bytes (R242). -/
def State.findArea (s : State) (t : Team) (size : Nat) : Option Nat :=
  let lo := s.fsbase t
  let hi := lo + (s.valsOf t).frstk
  let starts := lo :: t.areas.map (fun a => a.1 + a.2)
  let ok (o : Nat) : Bool := lo ≤ o && o + size ≤ hi && t.areas.all (fun a => o + size ≤ a.1 || a.1 + a.2 ≤ o)
  (starts.filter ok).foldl (fun b o => match b with | none => some o | some x => some (min x o)) none

/-- Up to n areas of one size, first-fit, and the team that holds them. -/
def State.takeAreas (s : State) (t : Team) (size : Nat) : Nat → Team × List Nat
  | 0 => (t, [])
  | n + 1 =>
    match s.findArea t size with
    | none => (t, [])
    | some o =>
      let (t', l) := s.takeAreas { t with areas := t.areas ++ [(o, size)] } size n
      (t', o :: l)

/-- Free the area at an offset. -/
def Team.freeArea (t : Team) (o : Nat) : Team :=
  { t with areas := t.areas.filter (fun a => a.1 != o) }

/-- The local-window address of an offset (R27). -/
def localAddr (o : Nat) : Word64 :=
  BitVec.ofNat 64 (LOCAL_BASE + o)

/-! ## Callers, items, packing (R235 to R237) -/

/-- Cut a list into pieces of n. -/
def pieces {α : Type} (n : Nat) (l : List α) : List (List α) :=
  (List.range ((l.length + n - 1) / n)).map (fun i => (l.drop (i * n)).take n)

/-- The callers of a call, or the contributors of a `WRET` (R235, R245). -/
def Group.selected (g : Group) (h : Hdr) (sel : Option (BitVec 3)) : Mask :=
  match sel with
  | none => g.contributors h
  | some m => g.contributors h &&& g.mVal m

/-- A caller lane with its argument registers. -/
def Group.member (g : Group) (n : BitVec 6) (nargs : Nat) (lane : Nat) : Member :=
  { caller := g.id, lane := BitVec.ofNat 6 lane, depth := g.depth + 1,
    args := (List.range nargs).map (fun a => g.vLane (n + BitVec.ofNat 6 a) lane) }

/-- k of a call (R232). -/
def CallTarget.k (t : CallTarget) : Nat :=
  2 ^ t.rc.wlog

/-- The callee lanes of some members in rank order: k items of each, or sets of k (R236, R237). -/
def CallTarget.lanes (t : CallTarget) (ms : List Member) : List CallLane :=
  if t.gather then (pieces t.k ms).map (fun l => ⟨0, l, false⟩)
  else ms.flatMap (fun m => (List.range t.k).map (fun w => ⟨w, [m], false⟩))

/-- Packed groups of 64 lanes, numbered. -/
def packsOf (l : List CallLane) : List Pack :=
  (pieces 64 l).zipIdx.map (fun (p, q) => ⟨q, p⟩)

/-! ## The callee's starting state (R243) -/

/-- What a pass starts from: its target, the callee lane at each lane, the caller's `X0` to `X6`, the frame area, and
what it takes over from the caller. -/
structure Start where
  tgt : CallTarget
  lanes : Nat → Option CallLane
  w : Option Nat
  x : List Word64
  frame : Option Nat
  depth : Nat
  srseed : Word64
  srctr : Word64
  swin : BitVec 6
  len : BitVec 2

/-- The value of register r of a callee lane: the arguments of its members (R243). -/
def CallLane.arg (t : CallTarget) (l : CallLane) (r : Nat) : Word32 :=
  let n := t.rc.nargs
  if t.gather then
    if n = 0 || t.k * n ≤ r then 0
    else match l.members[r / n]? with | some m => m.args.getD (r % n) 0 | none => 0
  else if r < n then (match l.members[0]? with | some m => m.args.getD r 0 | none => 0)
  else 0

/-- The group in the starting state of a pass. `EVPEND`, which R243 does not list, stays the group's own: a self-fold pass has
its caller's (log entry 64, DESIGN CHOICE). `WIDX` is 0 in a lane that holds no item or set, w in every lane of a self-fold pass
(log entry 66, DESIGN CHOICE). -/
def Group.start (g : Group) (p : Start) : Group :=
  let laneVal (f : CallLane → Word32) : VReg :=
    vreg (fun i => match p.lanes i with | some l => f l | none => 0)
  { g with
    pc := p.tgt.entry
    v := vecOf 64 (fun r => laneVal (fun l => l.arg p.tgt r))
    lo := 32 < p.tgt.rc.vregs
    hi := 48 < p.tgt.rc.vregs
    vlim := p.tgt.rc.vregs
    x := vecOf 64 (fun i =>
      if i < 7 then p.x.getD i 0
      else if i = 7 then (match p.frame with | some o => localAddr o | none => 0) else 0)
    exec := maskOf (fun i => (p.lanes i).isSome)
    helper := 0
    m := Vector.replicate 8 0
    c := Vector.replicate 4 0
    q := Vector.replicate 8 ⟨0, 0, 0, 0⟩
    t := Vector.replicate 4 none
    gmem := 0
    gang := none
    fstat := 0
    srseed := p.srseed
    srctr := p.srctr
    batch := 0
    swin := p.swin
    len := p.len
    widx := laneVal (fun l => BitVec.ofNat 32 (match p.w with | some w => w | none => l.w))
    wcnt := vreg (fun i =>
      match p.lanes i with
      | some l => if p.tgt.gather then BitVec.ofNat 32 l.members.length else BitVec.ofNat 32 p.tgt.k
      | none => if p.tgt.gather then Config.wcntIdle p.srctr g.id i else BitVec.ofNat 32 p.tgt.k)
    bypass := []
    pend := []
    depth := p.depth
    wait := none
    prog := 0
    calling := none
    lastsp := 0xFFFF_FFFF
    steps := 0 }

/-- The `SRCTR` of a pass: packed group q, or self-fold pass w (R243). -/
def passCtr (srctr : Word64) (q : Nat) : Word64 :=
  srctr + BitVec.ofNat 64 (2 ^ 24 * (q + 1))

/-! ## The calls a group has open -/

/-- Change the call whose callees run at a depth: the group's own, or that of the fold it runs in (R248, R252). -/
def Group.modCalling (g : Group) (depth : Nat) (f : Calling → Calling) : Group :=
  if g.depth + 1 = depth then { g with calling := g.calling.map f }
  else { g with folds := g.folds.zipIdx.map (fun (fo, i) =>
    if g.depth = depth + i then { fo with calling := f fo.calling } else fo) }

/-- The call whose callees run at a depth. -/
def Group.callingAt (g : Group) (depth : Nat) : Option Calling :=
  if g.depth + 1 = depth then g.calling
  else (g.folds[g.depth - depth]?).map (fun f => f.calling)

/-- The caller of a packed group's first item. -/
def State.packCaller (s : State) (p : Pack) : Option Group :=
  (p.lanes.head?.bind (fun l => l.members.head?)).bind (fun m => s.group? m.caller)

/-- The starting state of a callee group's pass at a depth. -/
def State.packStart (s : State) (tgt : CallTarget) (p : Pack) (depth : Nat) (frame : Option Nat) : Start :=
  match s.packCaller p with
  | some c =>
    { tgt := tgt, lanes := fun i => p.lanes[i]?, w := none,
      x := (match c.callingAt depth with | some k => k.x | none => []), frame := frame, depth := depth,
      srseed := c.srseed, srctr := passCtr c.srctr p.q, swin := c.swin, len := c.len }
  | none =>
    { tgt := tgt, lanes := fun i => p.lanes[i]?, w := none, x := [], frame := frame, depth := depth, srseed := 0,
      srctr := 0, swin := 0, len := 0 }

/-- A callee group for some passes, in a slot of the core (R238, R239, R243). Its `PEERGEN` is its caller's (log entry 64,
DESIGN CHOICE). -/
def State.calleeGroup (s : State) (core slot : Nat) (tgt : CallTarget) (p : Pack) (rest : List Pack) (depth : Nat)
    (frame : Option Nat) : Group :=
  match s.packCaller p with
  | some c =>
    { Group.blank s.nextId c.team core slot (.callee tgt p rest frame) s.time with
      index := c.index, teamNo := c.teamNo, cohort := c.cohort, gx := c.gx, gy := c.gy, gz := c.gz,
      peergen := c.peergen }.start (s.packStart tgt p depth frame)
  | none => Group.blank s.nextId 0 core slot (.callee tgt p rest frame) s.time

/-! ## Reductions (R245, R246) -/

/-- The operator and the type of a reduction field (R94). -/
def redOpN (r : BitVec 8) : Nat :=
  bitsN r 3 0

def redTyN (r : BitVec 8) : Nat :=
  bitsN r 6 4

/-- Is the type a float? -/
def redIsF (r : BitVec 8) : Bool :=
  redTyN r == 2 || redTyN r == 5

/-- The type read as integers or bits; float types by their width. -/
def redITy (r : BitVec 8) : ITy :=
  match redTyN r with
  | 0 => .i32
  | 1 => .n32
  | 2 => .b32
  | 3 => .i64
  | 4 => .n64
  | 5 => .b64
  | 6 => .n32
  | _ => .n64

def redBits (r : BitVec 8) : Nat :=
  (redITy r).width

/-- One step of a reduction (R246). -/
def widthStep (r : BitVec 8) (acc v : Code) : Code × FFlags :=
  match redOpN r with
  | 0 => redStep (if redIsF r then .fadd else .add) (redITy r) acc v
  | 1 => redStep (if redIsF r then .fmin else .min) (redITy r) acc v
  | 2 => redStep (if redIsF r then .fmax else .max) (redITy r) acc v
  | 3 => redStep .and (redITy r) acc v
  | 4 => redStep .or (redITy r) acc v
  | 5 => redStep .xor (redITy r) acc v
  | 6 => (acc, 0)
  | 7 => (v, 0)
  | _ => ((redStep (if redIsF r then .fadd else .add) (redITy r) acc v).1, 0)

/-- 1 in a type: what `COUNT` folds (R245). -/
def redOne (r : BitVec 8) : Code :=
  match redTyN r with
  | 2 => 0x3F80_0000
  | 5 => 0x3FF0_0000_0000_0000
  | _ => 1

/-- The result of an empty fold; none where the caller's register stays (R246). -/
def widthId (r : BitVec 8) : Option Code :=
  match redOpN r with
  | 0 => some (redId (if redIsF r then .fadd else .add) (redITy r))
  | 1 => some (redId (if redIsF r then .fmin else .min) (redITy r))
  | 2 => some (redId (if redIsF r then .fmax else .max) (redITy r))
  | 3 => some (redId .and (redITy r))
  | 4 | 5 | 8 => some 0
  | _ => none

/-- The fold of the values of some items in order, from an accumulator on (R245). -/
def widthFold (r : BitVec 8) (acc : Option Code) (vals : List (Option Code)) : Option Code × FFlags :=
  vals.foldl (fun (a, fl) v =>
    match v with
    | none => (a, fl)
    | some v =>
      let v' := if redOpN r = 8 then redOne r else v
      match a with
      | none => (some v', fl)
      | some a =>
        let st := widthStep r a v'
        (some st.1, fl ||| st.2)) (acc, 0)

/-- The value a callee lane gives member m for result j, if the lane contributes (R245, R247). -/
def Group.retVal (g : Group) (tgt : CallTarget) (creg : BitVec 6) (con : Mask) (lane j m : Nat) (r : BitVec 8) :
    Option Code :=
  if con.getLsbD lane then
    let n := if tgt.gather && tgt.rc.gret then 2 * (j * tgt.k + m) else 2 * j
    some (g.vCode (creg + BitVec.ofNat 6 n) (redBits r) lane)
  else none

/-- The members of the callee lanes, each once: caller group, caller lane, depth of the call. -/
def membersOf (lanes : List CallLane) : List (Nat × BitVec 6 × Nat) :=
  (lanes.flatMap (fun l => l.members.map (fun m => (m.caller, m.lane, m.depth)))).eraseDups

/-- The values that the callee lanes give one caller lane for result j, in ascending order of lanes. `at_` is the lane a
callee lane runs in. -/
def Group.retVals (g : Group) (tgt : CallTarget) (creg : BitVec 6) (con : Mask) (lanes : List (Nat × CallLane))
    (c : Nat × BitVec 6) (j : Nat) (r : BitVec 8) : List (Option Code) :=
  lanes.filterMap (fun (at_, l) =>
    (indexOf? (fun m => m.caller == c.1 && m.lane == c.2) l.members).map (fun m => g.retVal tgt creg con at_ j m r))

/-! ## Results at the caller (R248) -/

/-- Empty results of a call. -/
def noResults (n : Nat) : List (Mask × Vector Word64 64) :=
  List.replicate n (0, Vector.replicate 64 0)

/-- One caller lane has its results: those that are values are set, and flags are gathered. -/
def Calling.give (c : Calling) (lane : BitVec 6) (vals : List (Option Code)) (fl : FFlags) : Calling :=
  { c with
    left := c.left &&& ~~~(single lane.toNat)
    flags := c.flags ||| fl
    res := c.res.zipIdx.map (fun ((m, v), j) =>
      match vals.getD j none with
      | some x => (m ||| single lane.toNat, vset v lane.toNat (x.setWidth 64))
      | none => (m, v)) }

/-- The register writes of a finished call: `V[CREG + 2j]`, and its odd successor for a 64-bit type. -/
def Calling.writes (c : Calling) : List RegWrite :=
  c.res.zipIdx.flatMap (fun ((m, v), j) =>
    let n := c.creg + BitVec.ofNat 6 (2 * j)
    if m = 0 then []
    else
      let lo := RegWrite.v n m (vreg (fun i => (vget v i 0).setWidth 32))
      if redBits (c.tgt.rc.red.getD j 0) = 64 then
        [lo, .v (n + 1) m (vreg (fun i => (vget v i 0).extractLsb' 32 32))]
      else [lo])

/-- Do two writes name one register? -/
def sameReg : RegWrite → RegWrite → Bool
  | .v a _ _, .v b _ _ => a == b
  | .x a _, .x b _ => a == b
  | .m a _ _, .m b _ _ => a == b
  | .c a _, .c b _ => a == b
  | .t a _, .t b _ => a == b
  | _, _ => false

/-- The caller goes on past its call: results into the file, their bypass entries dropped (R248). -/
def Group.resume (g : Group) (c : Calling) : Group :=
  let ws := c.writes
  let g1 := { g with bypass := g.bypass.filter (fun b => !ws.any (sameReg b.w)) }
  { ws.foldl Group.put g1 with
    pc := nextSlot g.pc, fstat := g.fstat ||| c.flags, calling := none, wait := none, prog := 0,
    lastsp := 0xFFFF_FFFF, steps := 0, sampled := false, pass := .no }

/-- A parked caller resumes when every lane has returned. -/
def Group.resumeIfDone (g : Group) : Group :=
  match g.wait, g.calling with
  | some .widthpark, some c => if c.left = 0 then g.resume c else g
  | _, _ => g

/-! ## Self-folding (R240, R241) -/

/-- The bytes of a self-fold frame (R241). -/
def CallTarget.frameSize (t : CallTarget) : Nat :=
  1024 + 256 * t.rc.vregs + 512 * t.rc.nres + t.rc.frame

/-- Offsets of the accumulators and of the callee area. -/
def CallTarget.accAt (t : CallTarget) : Nat :=
  896 + 256 * t.rc.vregs

def CallTarget.areaAt (t : CallTarget) : Nat :=
  t.accAt + 128 + 512 * t.rc.nres

/-- The state of a queue in a frame (R241). -/
def QState.word (q : QState) : Nat :=
  q.depth.toNat + q.base.toNat * 2 ^ 4 + q.head.toNat * 2 ^ 10 + q.occ.toNat * 2 ^ 14

def queueOf (w : Nat) : QState :=
  ⟨BitVec.ofNat 4 w, BitVec.ofNat 6 (w / 2 ^ 4), BitVec.ofNat 4 (w / 2 ^ 10), BitVec.ofNat 4 (w / 2 ^ 14)⟩

/-- The bytes of a vector register, lane by lane (R241). -/
def vregBytes (v : VReg) : List Byte :=
  allLanes.flatMap (fun i => bytesOf 4 (vlane v i).toNat)

/-- The header of a frame, bytes 0 to 895 (R241). Reserved bytes and an invalid `T` register are 0; whether a `T` is valid stays
in the slot, `Fold.t` (log entry 66, DESIGN CHOICE). -/
def Group.frameHeader (g : Group) (tgt : CallTarget) (creg : BitVec 6) (set : Mask) : List Byte :=
  bytesOf 8 (nextSlot g.pc).toNat ++ bytesOf 8 g.exec.toNat ++ bytesOf 8 g.helper.toNat ++ bytesOf 8 set.toNat ++
    (List.range 7).flatMap (fun i => bytesOf 8 (vget g.m (i + 1) 0).toNat) ++
    bytesOf 4 ((List.range 4).map (fun i => (vget g.c i 0).toNat * 2 ^ (4 * i))).sum ++ bytesOf 4 g.fstat.toNat ++
    bytesOf 8 g.srctr.toNat ++ bytesOf 4 g.swin.toNat ++ bytesOf 4 g.depth ++ bytesOf 4 0 ++ bytesOf 4 tgt.k ++
    bytesOf 1 creg.toNat ++ bytesOf 1 tgt.rc.nres ++ bytesOf 6 0 ++
    (List.range 8).flatMap (fun i => bytesOf 4 (vget g.q i ⟨0, 0, 0, 0⟩).word) ++ bytesOf 96 0 ++
    (List.range 4).flatMap (fun i => bytesOf 32 ((vget g.t i none).getD 0).toNat) ++
    (List.range 64).flatMap (fun i => bytesOf 8 (vget g.x i 0).toNat)

/-- Save a caller into its frame: header, vector registers below `VREGS` (R240, R241, R255). -/
def State.saveFrame (s : State) (g : Group) (tgt : CallTarget) (creg : BitVec 6) (set : Mask) (loc : Nat) : State :=
  let s1 := s.write loc (g.frameHeader tgt creg set)
  s1.write (loc + 896) ((List.range tgt.rc.vregs).flatMap (fun i => vregBytes (vget g.v i vzero)))

/-- The location of a group's frame. -/
def Group.frameLoc (g : Group) (f : Fold) : Nat :=
  scrLoc (g.core.getD 0) f.frame

/-- The pass w of a fold (R241, offset 112). -/
def State.foldPass (s : State) (g : Group) (f : Fold) : Nat :=
  s.readNat (g.frameLoc f + 112) 4

/-- Where a callee lane runs in a self-fold: the lane of its first member (R240). -/
def CallLane.home (l : CallLane) : Nat :=
  match l.members.head? with
  | some m => m.lane.toNat
  | none => 0

/-- The callee lanes of pass w, by lane. -/
def Fold.laneAt (f : Fold) (i : Nat) : Option CallLane :=
  f.lanes.find? (fun l => l.home == i)

/-- The start of pass w of a self-fold. -/
def Group.foldStart (g : Group) (f : Fold) (w : Nat) (srctr : Word64) (swin : BitVec 6) (depth : Nat) : Group :=
  let tgt := f.calling.tgt
  g.start { tgt := tgt, lanes := f.laneAt, w := some w, x := f.calling.x,
            frame := if tgt.rc.frame = 0 then none else some (f.frame + tgt.areaAt), depth := depth + 1,
            srseed := f.srseed, srctr := passCtr srctr w, swin := swin, len := f.len }

/-- A caller begins to self-fold some callee lanes, its frame at an offset (R240). -/
def State.selfFold (s : State) (g : Group) (c : Calling) (lanes : List CallLane) (set : Mask) (off : Nat) : State :=
  let loc := scrLoc (g.core.getD 0) off
  let s1 := s.saveFrame g c.tgt c.creg set loc
  let f : Fold :=
    { calling := c, frame := off, size := c.tgt.frameSize, lanes := lanes, set := set, bypass := g.bypass,
      pend := g.pend, v := g.v, lo := g.lo, hi := g.hi, vlim := g.vlim, t := g.t, len := g.len, gmem := g.gmem,
      gang := g.gang, callSlot := g.pc, srseed := g.srseed, batch := g.batch, widx := g.widx, wcnt := g.wcnt }
  s1.setGroup { g.foldStart f 0 g.srctr g.swin g.depth with folds := f :: g.folds }

/-- The accumulator of result j in a lane: its value if the lane's flag is set (R241). -/
def State.acc (s : State) (loc : Nat) (tgt : CallTarget) (j lane : Nat) : Option Code :=
  if (BitVec.ofNat 64 (s.readNat (loc + tgt.accAt + 8 * j) 8)).getLsbD lane then
    let at_ := loc + tgt.accAt + 128 + 512 * j + 4 * lane
    some (BitVec.ofNat 128 (s.readNat at_ 4 +
      (if redBits (tgt.rc.red.getD j 0) = 64 then 2 ^ 32 * s.readNat (at_ + 256) 4 else 0)))
  else none

/-- Set an accumulator. -/
def State.setAcc (s : State) (loc : Nat) (tgt : CallTarget) (j lane : Nat) (v : Code) : State :=
  let fl := loc + tgt.accAt + 8 * j
  let at_ := loc + tgt.accAt + 128 + 512 * j + 4 * lane
  let s1 := s.writeNat fl 8 (s.readNat fl 8 ||| 2 ^ lane)
  let s2 := s1.writeNat at_ 4 (v.toNat % 2 ^ 32)
  if redBits (tgt.rc.red.getD j 0) = 64 then s2.writeNat (at_ + 256) 4 (v.toNat / 2 ^ 32) else s2

/-- Fold the values of a pass for one caller lane and result into the frame. -/
def State.foldAcc (s : State) (g : Group) (f : Fold) (creg : BitVec 6) (con : Mask) (lane : BitVec 6) (j : Nat) :
    State × FFlags :=
  let tgt := f.calling.tgt
  let loc := g.frameLoc f
  let r := tgt.rc.red.getD j 0
  let vals := g.retVals tgt creg con (f.lanes.map (fun l => (l.home, l))) (g.id, lane) j r
  let (a, fl) := widthFold r (s.acc loc tgt j lane.toNat) vals
  match a with
  | some v => (s.setAcc loc tgt j lane.toNat v, fl)
  | none => (s, fl)

/-- Fold a pass's values for every lane and result; the first `WRET` writes the flags anew (R255). -/
def State.foldPassVals (s0 : State) (g : Group) (f : Fold) (creg : BitVec 6) (con : Mask) : State × FFlags :=
  let s := if s0.foldPass g f = 0 then s0.write (g.frameLoc f + f.calling.tgt.accAt) (bytesOf 128 0) else s0
  (lanesOf f.set).foldl (fun (s, fl) lane =>
    (List.range f.calling.tgt.rc.nres).foldl (fun (s, fl) j =>
      let (s', fl') := s.foldAcc g f creg con (BitVec.ofNat 6 lane) j
      (s', fl ||| fl')) (s, fl)) (s, 0)

/-- The results of a fold's lanes from its accumulators. -/
def State.foldResults (s : State) (g : Group) (f : Fold) (c : Calling) : Calling :=
  (lanesOf f.set).foldl (fun c lane =>
    c.give (BitVec.ofNat 6 lane)
      ((List.range c.tgt.rc.nres).map (fun j =>
        match s.acc (g.frameLoc f) c.tgt j lane with
        | some v => some v
        | none => widthId (c.tgt.rc.red.getD j 0))) 0) c

/-- The caller as its frame and its slot hold it (R240, R241), its last stop site none (R425). A half that a pass has dropped
by `XDROP` is the caller's again with what it held at the call (log entry 64, DESIGN CHOICE). -/
def State.restoreFrame (s : State) (g : Group) (f : Fold) : Group :=
  let loc := g.frameLoc f
  let rd (o n : Nat) : Nat := s.readNat (loc + o) n
  let vregs := f.calling.tgt.rc.vregs
  { g with
    pc := f.callSlot
    exec := BitVec.ofNat 64 (rd 8 8)
    helper := BitVec.ofNat 64 (rd 16 8)
    m := vecOf 8 (fun i => if i = 0 then 0 else BitVec.ofNat 64 (rd (32 + 8 * (i - 1)) 8))
    c := vecOf 4 (fun i => BitVec.ofNat 4 (rd 88 2 / 2 ^ (4 * i)))
    fstat := BitVec.ofNat 6 (rd 92 4)
    srctr := BitVec.ofNat 64 (rd 96 8)
    swin := BitVec.ofNat 6 (rd 104 4)
    depth := rd 108 4
    q := vecOf 8 (fun i => queueOf (rd (128 + 4 * i) 4))
    x := vecOf 64 (fun i => BitVec.ofNat 64 (rd (384 + 8 * i) 8))
    v := vecOf 64 (fun i =>
      if i < vregs then vreg (fun l => BitVec.ofNat 32 (rd (896 + 256 * i + 4 * l) 4)) else vget f.v i vzero)
    t := f.t, lastsp := 0xFFFF_FFFF, steps := 0, lo := f.lo, hi := f.hi, vlim := f.vlim, bypass := f.bypass, pend := f.pend,
    len := f.len, gmem := f.gmem, gang := f.gang, srseed := f.srseed, batch := f.batch, widx := f.widx, wcnt := f.wcnt,
    wait := none, prog := 0,
    folds := g.folds.drop 1 }

/-- The ranges of a frame's accumulators that hold a value for some lanes, flags first: offsets in the slice and bytes. -/
def State.accRanges (s : State) (loc : Nat) (tgt : CallTarget) (lanes : List Nat) : List (Nat × Nat) :=
  (List.range tgt.rc.nres).flatMap (fun j =>
    let at_ := loc + tgt.accAt + 128 + 512 * j
    (loc + tgt.accAt + 8 * j, 8) ::
      (lanes.filter (fun i => (s.acc loc tgt j i).isSome)).flatMap (fun i =>
        (at_ + 4 * i, 4) :: (if redBits (tgt.rc.red.getD j 0) = 64 then [(at_ + 256 + 4 * i, 4)] else [])))

/-- A poisoned unit that the `WRET` of a pass reads in its frame, by its offset in the slice (R240, R420): the pass and what
the next one starts from, the accumulators, and at the last pass the saved state. -/
def State.foldPoison (s : State) (g : Group) (f : Fold) (creg : BitVec 6) (con : Mask) : Option Nat :=
  let loc := g.frameLoc f
  let tgt := f.calling.tgt
  let w := s.foldPass g f
  let s1 := (s.foldPassVals g f creg con).1
  let before := (loc + 96, 32) :: (if w = 0 then [] else s.accRanges loc tgt (lanesOf f.set))
  let after := if tgt.gather || tgt.k ≤ w + 1 then
      (loc, 896 + 256 * tgt.rc.vregs) :: s1.accRanges loc tgt (lanesOf f.set) else []
  ((before.filterMap (fun r => s.poisonIn r.1 r.2)) ++ (after.filterMap (fun r => s1.poisonIn r.1 r.2))).head?.map
    (fun u => (scrOf u).2)

/-- A pass of a group ends: no batch of the group's next pass, or of its caller, counts its commands (R250, R290). -/
def State.endPass (s : State) (gid : Nat) : State :=
  { s with cmds := s.cmds.map (fun c => if c.issuer == gid then { c with past := true } else c) }

/-- The end of a self-fold: restore, take the results, free the frame; the caller goes on when no lane is left (R240,
R248, R252). -/
def State.endFold (s : State) (g : Group) (f : Fold) : State :=
  let c := s.foldResults g f f.calling
  let g1 := { s.restoreFrame g f with calling := some c, wait := some .widthpark }
  (s.modTeam g.team (fun t => t.freeArea f.frame)).setGroup g1.resumeIfDone

/-- The `WRET` of a self-fold pass: fold its values, then the next pass or the end (R240). -/
def State.foldReturn (s : State) (g : Group) (f : Fold) (creg : BitVec 6) (con : Mask) : State :=
  let (s0, fl) := s.foldPassVals g f creg con
  let s1 := s0.endPass g.id
  let f' := { f with calling := { f.calling with flags := f.calling.flags ||| fl ||| g.fstat } }
  let tgt := f.calling.tgt
  let w := s.foldPass g f + 1
  if !tgt.gather && w < tgt.k then
    let loc := g.frameLoc f
    let s2 := s1.writeNat (loc + 112) 4 w
    s2.setGroup { g.foldStart f' w (BitVec.ofNat 64 (s.readNat (loc + 96) 8)) (BitVec.ofNat 6 (s.readNat (loc + 104) 4))
        (s.readNat (loc + 108) 4) with folds := f' :: g.folds.drop 1 }
  else s1.endFold { g with folds := f' :: g.folds.drop 1 } f'

/-! ## The return of a callee group (R239, R245) -/

/-- Give one caller lane its results from a packed group, in its own call, and its caller the flags of the whole packed group
(R248), also where a pooled group has run items of other callers (log entry 64, DESIGN CHOICE). -/
def State.giveLane (s : State) (g : Group) (tgt : CallTarget) (creg : BitVec 6) (con : Mask)
    (lanes : List (Nat × CallLane)) (m : Nat × BitVec 6 × Nat) : State :=
  let (caller, lane, depth) := m
  let rs := (List.range tgt.rc.nres).map (fun j =>
    let r := tgt.rc.red.getD j 0
    let (a, fl) := widthFold r none (g.retVals tgt creg con lanes (caller, lane) j r)
    ((match a with | some v => some v | none => widthId r), fl))
  let fl := rs.foldl (fun f r => f ||| r.2) 0
  match s.group? caller with
  | none => s
  | some k => s.setGroup (k.modCalling depth (fun q => q.give lane (rs.map (·.1)) (fl ||| g.fstat)))

/-- Callers with no lane left go on; in a halted context they stay parked (R429). -/
def State.resumeCallers (s : State) : State :=
  { s with groups := s.groups.map (fun g => if s.haltReached g then g else g.resumeIfDone) }

/-- The return of a packed group: every caller lane its results, callers with no lane left go on, then the group's next
pass or its end. -/
def State.packReturn (s : State) (g : Group) (tgt : CallTarget) (p : Pack) (rest : List Pack) (frame : Option Nat)
    (creg : BitVec 6) (con : Mask) : State :=
  let lanes := p.lanes.zipIdx.map (fun (l, i) => (i, l))
  let s1 := (membersOf p.lanes).foldl (fun s m => s.giveLane g tgt creg con lanes m) s
  let s2 := match rest with
    | q :: rest' =>
      (s1.endPass g.id).setGroup ({ g with kind := .callee tgt q rest' frame }.start (s1.packStart tgt q g.depth frame))
    | [] =>
      let s' := s1.removeGroup g
      match frame with
      | some o => s'.modTeam g.team (fun t => t.freeArea o)
      | none => s'
  s2.resumeCallers

/-! ## Bodies -/

/-- The registers that check 6 of R232 asks for. -/
def Group.callHolds (g : Group) (rc : EntryRec) (creg : BitVec 6) : Bool :=
  g.halvesFor rc.vregs && g.holdsRange creg.toNat rc.nargs && g.holdsRange creg.toNat (2 * rc.nres)

/-- Orders 1 to 6 of R232. -/
def State.callChecks (s : State) (g : Group) (target : Word64) (gather : Bool) (creg : BitVec 6) :
    Except Trap EntryRec := do
  s.checkTarget g target true
  let rc ← s.entryRec g target
  let k := 2 ^ rc.wlog
  if rc.wrule ≠ (if gather then 2 else 1) then .error (callTrap target (trapAt .badwidth target))
  else if (match g.kind with | .spawned _ => true | _ => false) ||
      rc.vregs < (if gather then k * rc.nargs else rc.nargs) || (rc.gret && 16 < rc.nres * k) then
    .error (callTrap target (trapAt .badwidth target))
  else if 6 ≤ g.depth then .error (callTrap target (trapOf .wdepth))
  else if !g.callHolds rc creg then .error (callTrap target (trapOf .noxblk))
  else .ok rc

/-- Pool blocks a callee group needs (R143). -/
def EntryRec.blocks (rc : EntryRec) : Nat :=
  (decide (32 < rc.vregs)).toNat + (decide (48 < rc.vregs)).toNat

/-- Pool blocks the group of a bin needs (R153). -/
def BinWork.blocks : BinWork → Nat
  | .spawn _ _ vregs _ => (decide (32 < vregs)).toNat + (decide (48 < vregs)).toNat
  | .call _ _ tgt _ => tgt.rc.blocks

/-- Does any request for pool blocks wait (R145)? -/
def Core.poolWaits (c : Core) : Bool :=
  !c.poolReqs.isEmpty || c.bins.any (fun b => b.fired && b.work.blocks != 0)

/-- How many callee groups the core can grant a team at once, up to n: budget, slots, blocks (R238). -/
def State.grantable (s : State) (core : Nat) (t : Team) (rc : EntryRec) (n : Nat) : Nat :=
  let held := (s.groups.filter (fun g => g.team == t.id && (match g.kind with | .callee .. => true | _ => false))).length
  let blocks :=
    if rc.blocks = 0 then n
    else if (s.core core).poolWaits then 0
    else ((s.core core).xlimit.toNat - s.heldBlocks core) / rc.blocks
  min n (min ((s.valsOf t).budget - held) (min (s.freeSlots core).length blocks))

/-- Start callee groups for the packed groups, granted group i with i, i + s, i + 2s, … (R239). -/
def State.startCallees (s : State) (core : Nat) (tgt : CallTarget) (packs : List Pack) (depth n : Nat)
    (frames : List Nat) : Nat → State
  | 0 => s
  | m + 1 =>
    let i := n - (m + 1)
    let mine := (packs.zipIdx.filter (fun p => p.2 % n == i)).map (·.1)
    match mine, s.pickSlot core with
    | p :: rest, some slot =>
      let g := s.calleeGroup core slot tgt p rest depth frames[i]?
      { s with groups := s.groups ++ [g], nextId := s.nextId + 1 }.startCallees core tgt packs depth n frames m
    | _, _ => s

/-- Grant and pack, or self-fold (R238 to R240); none is `FRAMEOVF`. -/
def State.grantCall (s : State) (g : Group) (c : Calling) (lanes : List CallLane) (set : Mask) : Option State :=
  match s.team? g.team with
  | none => none
  | some t =>
    let core := g.core.getD 0
    let packs := packsOf lanes
    let n := s.grantable core t c.tgt.rc packs.length
    let (t1, frames) := if c.tgt.rc.frame = 0 then (t, []) else s.takeAreas t c.tgt.rc.frame n
    let n' := if c.tgt.rc.frame = 0 then n else frames.length
    if n' = 0 then
      match s.findArea t c.tgt.frameSize with
      | none => none
      | some off =>
        let folded := if c.tgt.gather then lanes else lanes.filter (fun l => l.w == 0)
        let s1 := s.modTeam t.id (fun t => { t with areas := t.areas ++ [(off, c.tgt.frameSize)] })
        some (s1.selfFold g c folded set off)
    else
      let s1 := (s.modTeam t.id (fun _ => t1)).setGroup { g with calling := some c, wait := some .widthpark }
      some (s1.startCallees core c.tgt packs (g.depth + 1) n' frames n')

/-- Is a work that of a pooled call of a team at a slot (R251)? Callers whose entries differ, by `.IND`, share a bin, which runs
the first one's entry and record for all (log entry 64, DESIGN CHOICE). -/
def BinWork.isCall (team : Nat) (slot : Word64) : BinWork → Bool
  | .call t sl _ _ => t == team && sl == slot
  | .spawn .. => false

/-- Some sets with one more member, in the last set while that is open: a set's members depend on arrival order (R237,
R252). -/
def joinSet (k : Nat) (m : Member) (sets : List CallLane) : List CallLane :=
  match sets.getLast? with
  | some l =>
    if !l.closed && l.members.length < k then sets.dropLast ++ [{ l with members := l.members ++ [m] }]
    else sets ++ [⟨0, [m], false⟩]
  | none => [⟨0, [m], false⟩]

/-- A callee lane more in a bin: an item, or the members of a set (R251). -/
def BinWork.addLane (l : CallLane) : BinWork → BinWork
  | .call t sl tg ls => .call t sl tg (if tg.gather then l.members.foldl (fun ls m => joinSet tg.k m ls) ls else ls ++ [l])
  | w => w

/-- Append callee lanes to the bins of a pooled call, in order (R251); none when a bin is missing. -/
def Core.poolLanes (c : Core) (team : Nat) (slot : Word64) (tgt : CallTarget) (now : Word64) :
    List CallLane → Option Core
  | [] => some c
  | l :: rest =>
    match c.postTo (BinWork.isCall team slot) (BinWork.addLane l) (.call team slot tgt [l]) now with
    | none => none
    | some c' => c'.poolLanes team slot tgt now rest

/-- What a pooled call appends, in order: the items of each caller, or its members one by one, which join the sets of the
bin (R237, R251). -/
def CallTarget.pooled (t : CallTarget) (ms : List Member) : List CallLane :=
  if t.gather then ms.map (fun m => ⟨0, [m], false⟩) else t.lanes ms

/-- Has an engine operation that a group issued not completed yet (R249, R304)? -/
def State.ownOps (s : State) (g : Group) : Bool :=
  s.cmds.any (fun c => c.issuer == g.id) || s.tokens.any (fun t => t.fork.issuer == g.id) ||
    s.colls.any (fun c => c.members.any (fun m => m.fork.issuer == g.id)) ||
    s.gangs.any (fun k => k.latches.any (fun l => l.parts.any (fun p => k.members[p.member]? == some g.id)))

/-- `WCALL` and `GCALL` (R232 to R252); the passes' `X0` to `X6` are those after the delivery (R248) (log entry 33, DEDUCED).
The call waits for the engine operations that the group has issued (R249, log entry 21, DEDUCED). -/
def widthCallBody (h : Hdr) (gather team : Bool) (t : Target) (sel : Option (BitVec 3)) (base : Opd) : Body :=
  fun s g => do
    let target := g.target t
    let creg := vNum base
    let rc ← s.callChecks g target gather creg
    let set := g.selected h sel
    if set = 0 then .ok { s := s, g := g, touches := callTouches target }
    else if h.sw && !g.allReturned then .ok { s := s, g := g, wait := some .results, hold := true }
    else if s.ownOps g then .ok { s := s, g := g, wait := some .ops, hold := true }
    else
      match (if h.sw then g.latePoison else none) with
      | some tr => .ok { s := (s.looked g (callTrap target tr)).take g.deliverPend tr, g := g, final := true }
      | none =>
        let tgt : CallTarget := ⟨target, rc, gather⟩
        let members := (lanesOf set).map (g.member creg rc.nargs)
        let c : Calling :=
          { tgt := tgt, creg := creg, set := set, left := set, res := noResults rc.nres, flags := 0,
            x := (List.range 7).map (fun i => (if h.sw then g.deliverPend else g).xVal (BitVec.ofNat 6 i)),
            passes := tgt.k }
        let g1 := (g.age.countStep h (if h.st then s.ordinal g g.pc else none))
        let g2 := { (if h.sw then g1.deliverPend else g1) with wait := none, sampled := false, pass := .no }
        let core := g.core.getD 0
        let s1 := (s.countIssue core).lookUpAll g ((callTouches target).map (fun x => x.va))
        if team then
          match (s1.core core).poolLanes g.team g.pc tgt s.time (tgt.pooled members) with
          | some co =>
            .ok { s := (s1.modCore core (fun _ => co)).setGroup { g2 with calling := some c, wait := some .widthpark },
                  g := g, final := true }
          | none => .ok { s := (s.modCore core (Core.fireOldest s.time)).formSpawn core, g := g, wait := some .queue, hold := true }
        else
          match s1.grantCall g2 c (tgt.lanes members) set with
          | some s2 => .ok { s := s2, g := g, final := true }
          | none => .error (callTrap target (trapOf .frameovf))

/-- The call a `WRET` ends: the fold the group runs in, or its kind (R244). -/
def Group.returns (g : Group) : Option CallTarget :=
  match g.folds, g.kind with
  | f :: _, _ => some f.calling.tgt
  | [], .callee tgt _ _ _ => some tgt
  | [], _ => none

/-- `WRET` (R244 to R248). -/
def wretBody (h : Hdr) (sel : Option (BitVec 3)) (base : Opd) : Body := fun s g =>
  match g.returns with
  | none => .error (trapOf .badwidth)
  | some tgt =>
    let creg := vNum base
    let n := 2 * tgt.rc.nres * (if tgt.rc.gret then tgt.k else 1)
    if n ≠ 0 && (tgt.rc.vregs < creg.toNat + n || !g.holdsRange creg.toNat n) then .error (trapOf .noxblk)
    else if !g.allReturned then .ok { s := s, g := g, wait := some .results, hold := true }
    else
      match g.latePoison with
      | some tr => .ok { s := s.take g.deliverPend tr, g := g, final := true }
      | none =>
        let g1 := g.deliverPend
        let con := g1.selected h sel
        let s1 := s.countIssue (g.core.getD 0)
        match g1.folds.head?.bind (fun f => s.foldPoison g1 f creg con) with
        | some u => .error (trapAt .poison (localAddr u))
        | none =>
        let s2 := match g1.folds, g1.kind with
          | f :: _, _ => s1.foldReturn g1 f creg con
          | [], .callee tg p rest frame => s1.packReturn g1 tg p rest frame creg con
          | [], _ => s1
        .ok { s := s2, g := g, final := true }

/-! ## Instructions -/

def execWcall (h : Hdr) (team : Bool) (tgt : Target) (sel : Option (BitVec 3)) (base : Opd) (s : State) :
    Host.Outcome State Fault Refusal :=
  issue s (.wcall h team tgt sel base) h true
    (reading (fun s g => s.callLines g (g.target tgt)) (widthCallBody h false team tgt sel base))

def execGcall (h : Hdr) (team : Bool) (tgt : Target) (sel : Option (BitVec 3)) (base : Opd) (s : State) :
    Host.Outcome State Fault Refusal :=
  issue s (.gcall h team tgt sel base) h true
    (reading (fun s g => s.callLines g (g.target tgt)) (widthCallBody h true team tgt sel base))

def execWret (h : Hdr) (sel : Option (BitVec 3)) (base : Opd) (s : State) : Host.Outcome State Fault Refusal :=
  issue s (.wret h sel base) h true (wretBody h sel base)

end Sys2Proof.Machine
end

