-- ==== Sys2Proof/Machine/Launch.lean ====
section
/-! DEFINITION. The launch front-end (R112 to R130): packets, checks, polls, dispatch, completion and the owner's abort,
with the events of the front-end. -/

namespace Sys2Proof.Machine

/-! ## Queues and packets (R112 to R117) -/

/-- R113. -/
def LQueue.served (q : LQueue) : Bool :=
  q.en && !q.qerr && 4 ≤ q.sizel.toNat && q.qpart.toNat < 8

/-- Does a control core of a queue's die run the firmware, which serves the queues (R41)? -/
def State.ctrlUp (s : State) (q : Nat) : Bool :=
  (s.die (q / 16)).ctrlRuns.toList.any id

/-- Bits [hi:lo] of a packet (R116). -/
abbrev Packet := BitVec 1024

def pkAt (p : Packet) (hi lo : Nat) : Nat :=
  bitsN p hi lo

/-- An address field of a packet. -/
def pkAddr (p : Packet) (lo : Nat) : Word64 :=
  p.extractLsb' lo 64

/-- The address of packet number n of a queue (R112). -/
def LQueue.packetAddr (q : LQueue) (n : Word32) : Word64 :=
  q.base + BitVec.ofNat 64 (128 * (n.toNat % 2 ^ q.sizel.toNat))

/-- The checks of `BADPKT` that need only the packet (R122). -/
def packetBad (p : Packet) (qpart : BitVec 4) : Bool :=
  pkAt p 1023 960 != 0 || pkAt p 895 880 != 0 || pkAt p 319 312 != 0 || pkAt p 310 310 != 0 || pkAt p 309 307 == 7 ||
    pkAt p 306 304 != qpart.toNat || (pkAddr p 320).toNat % 8 != 0 || (pkAddr p 448).toNat % 8 != 0 ||
    (pkAddr p 640).toNat % 32 != 0 || (pkAddr p 64).toNat % 4 != 0 ||
    [0, 64, 320, 448, 576, 640].any (fun lo => pkAt p (lo + 63) (lo + 56) != 0)

/-- A field of the packet, or that of the descriptor where it is 0 (R117). -/
def orElse0 (a b : Nat) : Nat :=
  if a = 0 then b else a

/-- The launch values (R117): packet, descriptor, and the grid-size word where `GSWA` ≠ 0. -/
def mergeVals (p : Packet) (d : BitVec 512) (word : Option Nat) : Vals :=
  { entry := d.extractLsb' 448 64
    sptab := d.extractLsb' 384 64
    sptot := d.extractLsb' 288 32
    scratch := orElse0 (pkAt p 247 224) (bitsN d 159 136)
    frstk := orElse0 (pkAt p 271 248) (bitsN d 135 112)
    smw := bitsN d 111 100
    tq := bitsN d 99 93
    dtc := bitsN d 92 90
    strm := orElse0 (pkAt p 285 279) (bitsN d 89 83)
    kq := orElse0 (pkAt p 289 286) (bitsN d 82 79)
    budget := orElse0 (pkAt p 278 272) (bitsN d 78 72)
    tgrp := orElse0 (pkAt p 294 290) (bitsN d 71 67)
    coht := orElse0 (pkAt p 300 295) (bitsN d 66 61)
    gx := match word with | some w => w | none => orElse0 (pkAt p 159 128) (bitsN d 255 224)
    gy := orElse0 (pkAt p 191 160) (bitsN d 223 192)
    gz := orElse0 (pkAt p 223 192) (bitsN d 191 160) }

/-- The limits of R105 and R106 on the merged values. -/
def valsOk (v : Vals) (word : Bool) : Bool :=
  (word || 1 ≤ v.gx) && 1 ≤ v.gy && 1 ≤ v.gz && v.scratch % 128 == 0 && v.frstk % 128 == 0 && v.smw ≤ 1024 &&
    v.tq ≤ 64 && v.dtc ≤ 4 && v.strm ≤ 64 && v.kq ≤ 8 && v.budget ≤ 112 && 1 ≤ v.tgrp && v.tgrp ≤ 16 &&
    1 ≤ v.coht && v.coht ≤ 32 && v.scratch + v.frstk ≤ 2 ^ 20

/-- The fields of a collective descriptor (R107). -/
def collOf (b : BitVec 256) : CollDesc :=
  { bar := b.extractLsb' 192 64, dst := b.extractLsb' 128 64, src := b.extractLsb' 64 64, count := bitsN b 63 32,
    memb := bitsN b 31 24, ctype := bitsN b 23 20, cop := bitsN b 19 16, ckind := bitsN b 15 12 }

/-- R107 and R387: no reserved code or bit, and an operator that the kind and the type take. -/
def collOk (b : BitVec 256) : Bool :=
  let c := collOf b
  c.ctype ≤ 6 && c.cop ≤ 6 && c.ckind ≤ 5 && bitsN b 11 0 == 0 && 1 ≤ c.memb &&
    (if c.ckind ≤ 1 then c.cop ≤ 5 else c.cop == 6) &&
    (if 3 ≤ c.cop && c.cop ≤ 5 then c.ctype ≤ 1 || c.ctype == 6 else true)

/-- Does the collective partition hold a core (R34)? -/
def State.collCores (s : State) : Bool :=
  s.cores.toList.any (fun c => c.part == 8)

/-! ## Logging and completing (R122, R129, R130, R449) -/

/-- An event of the front-end of a queue's die. -/
def State.logQueue (s : State) (q part kind aux : Nat) (data : List Byte) : State :=
  s.log { die := q / 16, kind := kind, part := (if part < 8 then part else 0xFF), unit := q / 16 * 4096 + 0x102,
          aux := aux, data := data }

/-- A write of the front-end at a launch's end: dropped and logged as `CWRITE` where it fails (R129). Where `BADPKT` found
the address misaligned it is made at that address, and its first byte alone is translated (log entry 58, DESIGN CHOICE). -/
def State.cwrite (s : State) (q part : Nat) (p : Packet) (sem : Bool) (va : Word64) (n v : Nat) : State :=
  let failed (c : Cause) : State :=
    s.logQueue q part 15 (c.code + sem.toNat * 2 ^ 8 + q * 2 ^ 16) (bytesOf 8 va.toNat ++ bytesOf 8 (pkAt p 879 832))
  if va = 0 then s
  else
    match s.locOf (engineOf part) .write va with
    | .error c => failed c
    | .ok loc => if (s.poisonIn loc n).isSome then failed .poison else s.writeNat loc n v

/-- The completion record (R130). -/
def recordBits (p : Packet) (tdisp tfin : Word64) (status : Nat) : Nat :=
  status + pkAt p 879 832 * 2 ^ 16 + pkAt p 831 768 * 2 ^ 64 + tdisp.toNat * 2 ^ 128 + tfin.toNat * 2 ^ 192

/-- The completion of a launch: its record, then `CVAL` (R129). -/
def State.writeCompletion (s : State) (q part : Nat) (p : Packet) (tdisp : Word64) (status : Nat) : State :=
  (s.cwrite q part p false (pkAddr p 640) 32 (recordBits p tdisp s.time status)).cwrite q part p true (pkAddr p 448) 8
    (pkAt p 575 512)

/-- The front packet of a queue is done with. -/
def State.nextPacket (s : State) (q : Nat) (prev : Option Nat) : State :=
  s.modQueue q (fun l => { l with head := l.head + 1, packet := none, checked := false, interval := 0, prev := prev })

/-- The partition that the packet at the head acts in: its own once its `PART` has been checked, before that the queue's
(R122). -/
def LQueue.packetPart (l : LQueue) (p : Packet) : Nat :=
  if l.checked then pkAt p 306 304 else l.qpart.toNat

/-- A launch that fails before dispatch (R122): its entry, its completion, and the next packet's turn. `TDISP` is the time
of the failure (log entry 58, DESIGN CHOICE). -/
def State.failLaunch (s : State) (q : Nat) (p : Packet) (status cause : Nat) (addr : Word64) : State :=
  let l := s.queue q
  let s1 := s.logQueue q l.qpart.toNat 11 (status + q * 2 ^ 16 + cause * 2 ^ 22)
    (bytesOf 8 (pkAt p 879 832) ++ bytesOf 4 l.head.toNat ++ bytesOf 4 0 ++ bytesOf 8 addr.toNat)
  (s1.writeCompletion q (l.packetPart p) p s.time status).nextPacket q none

/-- A packet that cannot be read (R115): nothing of it is known. -/
def State.failRead (s : State) (q : Nat) (cause : Cause) (addr : Word64) : State :=
  let l := s.queue q
  (s.logQueue q l.qpart.toNat 11 (1 + q * 2 ^ 16 + cause.code * 2 ^ 22)
    (bytesOf 8 0 ++ bytesOf 4 l.head.toNat ++ bytesOf 4 0 ++ bytesOf 8 addr.toNat)).nextPacket q none

/-! ## Dispatch (R118 to R123, R128) -/

/-- R118. -/
def depends (dcmp : Nat) (w d : Word64) : Bool :=
  match dcmp with
  | 0 => true
  | 1 => w == d
  | 2 => w != d
  | 3 => d.toNat ≤ w.toNat
  | 4 => w.toNat < d.toNat
  | 5 => (w - d).toNat < 2 ^ 63
  | 6 => w &&& d == d
  | _ => false

/-- Start the attached collective of a launch (R128). -/
def State.startAttached (s : State) (id : Nat) : State :=
  match s.launch? id with
  | none => s
  | some l =>
    match l.coll with
    | none => s
    | some d =>
      if l.collStarted || l.ended then s
      else
        let c : Coll := { id := s.nextId, part := l.part, key := 0, launch := some id, desc := d, members := [],
                          barTeam := none, barOff := 0 }
        { s with colls := s.colls ++ [c], nextId := s.nextId + 1 }.modLaunch id (fun l => { l with collStarted := true })

/-- A status of R122 with the cause and address of a failed read. -/
structure Failure where
  status : Nat
  cause : Nat := 0
  addr : Word64 := 0

/-- The kernel descriptor and the entry record before its `ENTRY` (R105, R106). The record is read as a fetch, and `ENTRY`
may name any slot of a line but nothing else; a record that fails any check of R95 fails the launch (log entry 58, DESIGN
CHOICE). -/
def State.checkKernel (s : State) (part : Nat) (p : Packet) (word : Option Nat) : Except Failure Vals := do
  let kd := pkAddr p 0
  if kd.toNat % 64 ≠ 0 then .error ⟨2, 0, 0⟩
  else
    match s.readVa (engineOf part) .read kd 64 with
    | .error c => .error ⟨2, c.code, kd⟩
    | .ok n =>
      let d := BitVec.ofNat 512 n
      let v := mergeVals p d word
      if bitsN d 60 0 ≠ 0 || !valsOk v word.isSome then .error ⟨2, 0, 0⟩
      else
        let line := lineAddr v.entry - 64
        match s.codeLine (engineOf part) line with
        | .error c => .error ⟨2, c.code, line⟩
        | .ok b =>
          if slotOk v.entry && recordOk b && (recordOf b).wrule = 0 && (recordOf b).nargs = 0 then .ok v
          else .error ⟨2, 0, 0⟩

/-- The attached collective's descriptor (R107, R122). -/
def State.checkColl (s : State) (part : Nat) (p : Packet) : Except Failure (Option CollDesc) :=
  let a := pkAddr p 576
  if a = 0 then .ok none
  else if !s.collCores || a.toNat % 32 ≠ 0 then .error ⟨3, 0, 0⟩
  else
    match s.readVa (engineOf part) .read a 32 with
    | .error c => .error ⟨3, c.code, a⟩
    | .ok n => if collOk (BitVec.ofNat 256 n) then .ok (some (collOf (BitVec.ofNat 256 n))) else .error ⟨3, 0, 0⟩

/-- The checks at dispatch after the grid-size read, in the order of R122. -/
def State.checkLaunch (s : State) (part : Nat) (p : Packet) (word : Option Nat) :
    Except Failure (Vals × Option CollDesc) := do
  let v ← s.checkKernel part p word
  let c ← s.checkColl part p
  if 2 ^ 28 < v.gx * v.gy * v.gz then .error ⟨4, 0, 0⟩ else .ok (v, c)

/-- A launch is dispatched (R115, R121, R128). The packet's address for `X1` is formed from the queue's registers as they
stand now (log entry 58, DESIGN CHOICE). -/
def State.dispatchWith (s : State) (q : Nat) (p : Packet) (v : Vals) (c : Option CollDesc) : State :=
  let l := s.queue q
  let id := s.nextId
  let launch : Launch :=
    { id := id, queue := BitVec.ofNat 6 q, num := l.head, pkt := p, addr := l.packetAddr l.head, part := pkAt p 306 304,
      prio := pkAt p 303 301, vals := v, tdisp := s.time, next := 0, raised := false, nofit := false, status := 0,
      ended := false, coll := c, collStarted := false, collDone := c.isNone }
  let s1 := { s with launches := s.launches ++ [launch], nextId := id + 1 }.nextPacket q (some id)
  if v.gx * v.gy * v.gz = 0 then s1.startAttached id else s1

/-- A satisfied dependence: the grid-size word, the checks, and the dispatch or the failure (R120, R122). -/
def State.dispatch (s : State) (q : Nat) (p : Packet) : State :=
  let part := pkAt p 306 304
  let gswa := pkAddr p 64
  let go (word : Option Nat) : State :=
    match s.checkLaunch part p word with
    | .error f => s.failLaunch q p f.status f.cause f.addr
    | .ok (v, c) => s.dispatchWith q p v c
  if gswa = 0 then go none
  else
    match s.readVa (engineOf part) .read gswa 4 with
    | .ok w => go (some w)
    | .error c =>
      (s.logQueue q part 14 (c.code + q * 2 ^ 16) (bytesOf 8 gswa.toNat ++ bytesOf 8 (pkAt p 879 832))).failLaunch q p 1
        c.code gswa

/-- Has the launch before this packet completed, where `SERIAL` asks for it (R115, R122)? -/
def State.serialReady (s : State) (l : LQueue) (p : Packet) : Bool :=
  pkAt p 311 311 == 0 ||
    (match l.prev with
     | none => true
     | some id => (s.launch? id).isNone)

/-- What the front-end does next for the packet it holds: the packet checks, a poll where one is due, the dispatch
(R113, R115, R118, R119). -/
def State.advanceQueue (s : State) (q : Nat) (poll : Bool) : State :=
  let l := s.queue q
  match l.packet with
  | none => s
  | some p =>
    if !l.served || !s.ctrlUp q || !s.serialReady l p then s
    else if !l.checked && packetBad p l.qpart then s.failLaunch q p 1 0 0
    else
      let s1 := s.modQueue q (fun l => { l with checked := true })
      let dcmp := pkAt p 309 307
      if dcmp = 0 then s1.dispatch q p
      else if !poll then s1
      else
        match s1.readVa (engineOf (pkAt p 306 304)) .read (pkAddr p 320) 8 with
        | .error c => s1.failLaunch q p 1 c.code (pkAddr p 320)
        | .ok w =>
          if depends dcmp (BitVec.ofNat 64 w) (pkAddr p 384) then s1.dispatch q p
          else s1.modQueue q (fun l =>
            let n := if l.interval = 0 then 64 else min (2 * l.interval) 65536
            { l with interval := n, due := s.time + BitVec.ofNat 64 n })

/-! ## Ending a launch (R123, R129) -/

/-- The teams of a launch. -/
def State.teamsOf (s : State) (id : Nat) : List Nat :=
  (s.teams.filter (fun t => t.launch == id)).map (·.id)

/-- Does a bin belong to a launch, whose teams are given? -/
def Bin.ofLaunch (b : Bin) (id : Nat) (teams : List Nat) : Bool :=
  match b.work with
  | .spawn l _ _ _ => l == id
  | .call t _ _ _ => teams.contains t

/-- The swap area that a launch's images leave is no longer full (R123, R151). -/
def State.freeImages (s : State) (id : Nat) : State :=
  match s.launch? id with
  | some l =>
    if s.teams.any (fun t => t.launch == id && t.swap != .resident) then
      s.modPart l.part (fun p => { p with swapFull := false })
    else s
  | none => s

/-- Everything of a launch leaves the machine: groups, teams, gangs, bins, requests (R123). Engine operations stay, but commands
that wait with a discarded image (log entry 26, DESIGN CHOICE). -/
def State.removeLaunch (s : State) (id : Nat) : State :=
  let teams := s.teamsOf id
  let gone (gid : Nat) : Bool := match s.group? gid with | some g => teams.contains g.team | none => false
  let cores := (s.groups.filter (fun g => teams.contains g.team)).filterMap (fun g => g.core)
  let s := (cores.foldl (fun s c => s.touch c) (s.freeImages id)).keepTables teams.contains
  let left : State := { s with
    groups := s.groups.filter (fun g => !teams.contains g.team)
    teams := s.teams.filter (fun t => t.launch != id)
    gangs := s.gangs.filter (fun k => !teams.contains k.team)
    cmds := s.cmds.filter (fun c => c.launch != id || !s.cmdSaved c)
    cores := s.cores.map (fun c =>
      { c with
        bins := c.bins.filter (fun b => !b.ofLaunch id teams)
        poolReqs := c.poolReqs.filter (fun r => !gone r.gid)
        tileReqs := c.tileReqs.filter (fun r => !gone r.gid) }) }
  cores.foldl (fun s c => s.idleGrow c) left

/-- `QABORT` of packet number n (R123) (log entry 26, DEDUCED). -/
def State.abort (s : State) (q : Nat) (n : Word32) : State :=
  let l := s.queue q
  match s.launches.find? (fun k => k.queue.toNat == q && k.num == n) with
  | some k =>
    if k.ended then s
    else (s.removeLaunch k.id).modLaunch k.id (fun k =>
      { k with ended := true, status := 5, collDone := k.collDone || !k.collStarted })
  | none =>
    match l.packet with
    | some p =>
      if n = l.head then (s.writeCompletion q (l.packetPart p) p s.time 5).nextPacket q none else s
    | none => s

/-- Nothing of a launch is left to place or to run (R129). -/
def State.launchDone (s : State) (l : Launch) : Bool :=
  (l.ended || l.next == l.vals.gx * l.vals.gy * l.vals.gz) && (s.teamsOf l.id).isEmpty && l.collDone &&
    !s.cmds.any (fun c => c.launch == l.id) && !s.tokens.any (fun t => t.grid == l.id) &&
    !s.colls.any (fun c => c.launch == some l.id || c.members.any (fun m => m.launch == l.id)) &&
    !s.cores.toList.any (fun c => c.bins.any (fun b => b.ofLaunch l.id []))

/-- The packets that `SERIAL` held back for a launch go on. -/
def State.afterLaunch (s : State) (id : Nat) : State :=
  (List.range 64).foldl (fun s q =>
    if (s.queue q).prev == some id && (s.queue q).packet.isSome then s.advanceQueue q false else s) s

/-! ## Events -/

/-- The first of the eight 16-byte reads of a packet that fails (R115, R449). -/
def State.failedUnit (s : State) (e : Accessor) (a : Word64) : Word64 :=
  (((List.range 8).map (fun k => a + BitVec.ofNat 64 (16 * k))).find? (fun u =>
    match s.readVa e .read u 16 with | .error _ => true | .ok _ => false)).getD a

/-- R115: the packet at `QHEAD` is read; with `DCMP` = 0 it is dispatched at once. -/
def execPacketRead (q : BitVec 6) (s : State) : Host.Outcome State Fault Refusal :=
  let n := q.toNat
  let l := s.queue n
  if !l.served || !s.ctrlUp n || l.packet.isSome || l.head = l.tail then .next s
  else
    let a := l.packetAddr l.head
    match s.readVa (engineOf l.qpart.toNat) .read a 128 with
    | .error c => .next (s.failRead n c (s.failedUnit (engineOf l.qpart.toNat) a))
    | .ok v =>
      let s1 := s.modQueue n (fun l =>
        { l with packet := some (BitVec.ofNat 1024 v), checked := false, interval := 0, due := s.time })
      .next (s1.advanceQueue n false)

/-- R119: one poll of the packet that waits, once it is due. -/
def execDependencePoll (q : BitVec 6) (s : State) : Host.Outcome State Fault Refusal :=
  .next (if s.time.toNat < (s.queue q.toNat).due.toNat then s else s.advanceQueue q.toNat true)

/-- R129. -/
def execLaunchComplete (launch : Nat) (s : State) : Host.Outcome State Fault Refusal :=
  match s.launch? launch with
  | none => .next s
  | some l =>
    if s.launchDone l then
      let s1 := s.writeCompletion l.queue.toNat l.part l.pkt l.tdisp l.status
      .next ({ s1 with launches := s1.launches.filter (fun k => k.id != launch) }.afterLaunch launch)
    else .next s

end Sys2Proof.Machine
end

