-- ==== Sys2Proof/Machine/Dump.lean ====
section
/-! DEFINITION. The stall reason of a group (R422) and the dump of one group (R425, R432, R433). -/

namespace Sys2Proof.Machine

/-! ## Stall reasons (R422) -/

/-- The reason of a group parked at `SW` = 1: an ordinary result, an empty line, Chord, a key table (R266, R360,
R376). -/
def Group.parkCode (g : Group) : Nat :=
  let out := g.pend.filter (fun l => !l.returned)
  let waiting (l : Long) : Bool := match l.load with | some i => !i.lanes.isEmpty | none => false
  if out.any (fun l => !waiting l && l.unit != .keyTable && l.unit != .chord) then 1
  else if out.any waiting then 2
  else if out.any (fun l => l.unit == .chord) then 11
  else if out.any (fun l => l.unit == .keyTable) then 12
  else 1

/-- Does the firmware wait on an empty line for the group (R257)? -/
def Firmware.waits : Firmware → Bool
  | .bytes _ _ _ _ _ _ _ w => w.isSome
  | .start | .forward => false

/-- The code a group is charged when it is not eligible (R422); a halted group is charged as `HALT` (log entry 18, DEDUCED). -/
def Group.stallCode (g : Group) : Nat :=
  match g.wait with
  | some .switch | some .results => g.parkCode
  | some .behind => 2
  | some .barrier | some (.phase ..) | some (.tlbinv ..) => 3
  | some .batch => 4
  | some .rendezvous | some (.gang ..) | some (.dissolve ..) => 5
  | some .widthpark | some .ops => 6
  | some (.xgrow ..) => 7
  | some .queue | some (.sendq ..) => 9
  | some (.ring ..) => 10
  | some .chord => 11
  | none =>
    if g.halted.isSome then 14
    else if g.firmware.any Firmware.waits then 2
    else if (g.lineAt g.pc).isNone then 8
    else if g.stopped then 14
    else 13

/-! ## The selected group (R432) -/

/-- The group id a group has, or last had on the core its team left. -/
def State.gidOf (s : State) (g : Group) : BitVec 16 :=
  match g.core with
  | some _ => g.gid16
  | none =>
    match s.team? g.team with
    | some t => BitVec.ofNat 16 (t.home * 128 + g.slot)
    | none => 0xFFFF

/-- The group of a partition's context that `DBGSEL` names: a resident one first. -/
def State.dumpGroup (s : State) (part : Nat) : Option Group :=
  let gid := (s.part part).dbgsel.extractLsb' 0 16
  let mine := s.groups.filter (fun g => s.gidOf g == gid && (s.accessor g).part == part)
  match mine.find? (fun g => g.core.isSome) with
  | some g => some g
  | none => mine.head?

/-- A byte of a team's allocation, by local offset, wherever the team is. -/
def State.allocByte (s : State) (t : Team) (off : Nat) : Byte :=
  match t.core, t.image with
  | some c, _ => s.read8 (scrLoc c off)
  | none, some im => Memory.read im.bytes (off - t.off)
  | none, none => 0

/-- The highest self-fold frame that a group holds (R254). -/
def Group.highFrame (g : Group) : Option Nat :=
  (g.folds.map (fun f => f.frame)).max?

/-- `FRAME` and `PASS` (R254). -/
def State.dumpFrame (s : State) (g : Group) : Nat × Nat :=
  match g.highFrame, s.team? g.team with
  | some f, some t => (LOCAL_BASE + f, natOf ((List.range 4).map (fun k => s.allocByte t (f + 112 + k))))
  | _, _ => (0, 0xFFFF_FFFF)

/-- Is a group parked: it waits, and not only for a load that has to read before it may issue (R266, R425; log entry 21,
DEDUCED)? -/
def Group.parked (g : Group) : Bool :=
  match g.wait with
  | none | some .behind => false
  | some _ => true

/-- The ordinal of the stop site a group is stopped at. -/
def State.stopOrdinal (s : State) (g : Group) : Nat :=
  match s.ordinal g g.pc with
  | some k => k
  | none => 0xFFFF_FFFF

def Mode.code : Mode → Nat
  | .user => 0
  | .handler => 1
  | .supervisor => 2

/-- `DBGSTATE` (R432): a group that its `BKPT` stopped off any stop site is not stopped at one, and is charged as `HALT`. -/
def State.dbgState (s : State) (part : Nat) : Nat :=
  if (s.part part).status ≠ 1 then (s.part part).status.toNat
  else
    match s.dumpGroup part with
    | none => 2
    | some g =>
      let (frame, pass) := s.dumpFrame g
      let parked := g.parked
      let site := g.stopped && (s.ordinal g g.pc).isSome
      1 + site.toNat * 2 ^ 153 + parked.toNat * 2 ^ 154 + g.mode.code * 2 ^ 155 + g.depth * 2 ^ 157 +
        (if site then 0 else g.stallCode) * 2 ^ 160 + (if parked then g.steps.toNat else 0) * 2 ^ 168 +
        (s.gidOf g).toNat * 2 ^ 176 + pass * 2 ^ 192 +
        (if site then s.stopOrdinal g else g.lastsp.toNat) * 2 ^ 224 + g.helper.toNat * 2 ^ 256 +
        g.exec.toNat * 2 ^ 320 + frame * 2 ^ 384 + g.pc.toNat * 2 ^ 448

/-! ## `DBGREGS` (R433) -/

/-- The safe-point entry of the site a group is stopped at (R102); 0 where it cannot be read. -/
def State.liveMap (s : State) (g : Group) : BitVec 256 :=
  match s.team? g.team, s.ordinal g g.pc with
  | some t, some k =>
    match s.readVa { s.accessor g with sup := true } .read ((s.valsOf t).sptab + BitVec.ofNat 64 (32 * k)) 32 with
    | .ok n => BitVec.ofNat 256 n
    | .error _ => 0
  | _, _ => 0

/-- The bits of the byte at an offset that show live registers; two condition registers share a byte. `FSTAT` to `GMEM` are
no registers of the map. -/
def dumpLive (live : BitVec 256) (off : Nat) : Byte :=
  let bit (i : Nat) : Byte := if live.getLsbD i then 0xFF else 0
  if off < 0x200 then bit (128 + off / 8)
  else if off < 0x238 then bit (57 + (off - 0x200) / 8)
  else if off < 0x23A then (bit (52 + 2 * (off - 0x238)) &&& 0x0F) ||| (bit (53 + 2 * (off - 0x238)) &&& 0xF0)
  else if off < 0x280 then 0xFF
  else if off < 0x300 then bit (24 + (off - 0x280) / 32)
  else if off < 0x320 then 0xFF
  else if off < 0x340 then bit (44 + (off - 0x320) / 4)
  else if 0x1000 ≤ off && off < 0x5000 then bit (64 + (off - 0x1000) / 256)
  else 0xFF

/-- The 32 bits a group's dump holds at an offset that is a multiple of 4 (R433, R194). -/
def Group.dumpWord (g : Group) (off : Nat) : Nat :=
  let half (v : Nat) : Nat := v / 2 ^ (8 * (off % 8)) % 2 ^ 32
  if off < 0x200 then half (g.xVal (BitVec.ofNat 6 (off / 8))).toNat
  else if off < 0x238 then half (vget g.m ((off - 0x200) / 8 + 1) 0).toNat
  else if off = 0x238 then ((List.range 4).map (fun i => (vget g.c i 0).toNat * 2 ^ (4 * i))).sum
  else if off = 0x240 then g.fstat.toNat
  else if off = 0x244 then g.swin.toNat
  else if off = 0x248 || off = 0x24C then half g.srseed.toNat
  else if off = 0x250 || off = 0x254 then half g.srctr.toNat
  else if off = 0x258 then 64 * 2 ^ g.len.toNat
  else if off = 0x25C then g.evpend.toNat
  else if off = 0x260 then g.gmem.toNat
  else if 0x280 ≤ off && off < 0x300 then
    ((vget g.t ((off - 0x280) / 32) none).getD 0).toNat / 2 ^ (8 * (off % 32)) % 2 ^ 32
  else if off = 0x300 then ((List.range 4).map (fun i => (vget g.t i none).isSome.toNat * 2 ^ i)).sum
  else if 0x320 ≤ off && off < 0x340 then (vget g.q ((off - 0x320) / 4) ⟨0, 0, 0, 0⟩).word
  else if 0x1000 ≤ off && off < 0x5000 then
    let n := (off - 0x1000) / 256
    if g.holdsV n then (g.vLane (BitVec.ofNat 6 n) (off % 256 / 4)).toNat else 0
  else 0

/-- Does an offset show a vector register in a half that the group does not hold? -/
def Group.dumpAbsent (g : Group) (off : Nat) : Bool :=
  0x1000 ≤ off && off < 0x5000 && !g.holdsV ((off - 0x1000) / 256)

/-- One byte of `DBGREGS`: at a stop site a register not marked live shows a free value (log entry 9, DESIGN CHOICE). -/
def State.dumpByte (s : State) (part off : Nat) : Byte :=
  if (s.part part).status ≠ 1 then 0
  else
    match s.dumpGroup part with
    | none => 0
    | some g =>
      let b := byteOf (g.dumpWord (off / 4 * 4)) (off % 4)
      if g.stopped && (s.ordinal g g.pc).isSome && !g.dumpAbsent off then
        let live := dumpLive (s.liveMap g) off
        (b &&& live) ||| (Config.dumpByte s.time off &&& ~~~live)
      else b

end Sys2Proof.Machine
end

