-- ==== Sys2Proof/Machine/Digest.lean ====
section
/-! DEFINITION. The hash functions of boot and attestation (R443, R444, R448). The spec names SHA3-384 and the two signature
schemes and does not define them: they are those of FIPS 202, FIPS 180-4, RFC 8032 and FIPS 204 (log entry 65, PRESUMED). -/

namespace Sys2Proof.Machine

/-! ## Keccak-f[1600] and its sponge (FIPS 202) -/

/-- The 25 lanes of the permutation's state: lane (x, y) at x + 5y. -/
abbrev Keccak := Vector Word64 25

/-- The rotation of lane (x, y), at x + 5y. -/
def keccakRot : List Nat :=
  [0, 1, 62, 28, 27, 36, 44, 6, 55, 20, 3, 10, 43, 25, 39] ++ [41, 45, 15, 21, 8, 18, 2, 61, 56, 14]

/-- The constants of the 24 rounds. -/
def keccakRounds : List Word64 :=
  [0x0000000000000001, 0x0000000000008082, 0x800000000000808A, 0x8000000080008000, 0x000000000000808B,
   0x0000000080000001, 0x8000000080008081, 0x8000000000008009] ++
  [0x000000000000008A, 0x0000000000000088, 0x0000000080008009, 0x000000008000000A, 0x000000008000808B,
   0x800000000000008B, 0x8000000000008089, 0x8000000000008003] ++
  [0x8000000000008002, 0x8000000000000080, 0x000000000000800A, 0x800000008000000A, 0x8000000080008081,
   0x8000000000008080, 0x0000000080000001, 0x8000000080008008]

/-- The columns' parities and their spread over the lanes. -/
def keccakTheta (a : Keccak) : Keccak :=
  let col : Vector Word64 5 := vecOf 5 (fun x => (List.range 5).foldl (fun p y => p ^^^ vget a (x + 5 * y) 0) 0)
  let d : Vector Word64 5 := vecOf 5 (fun x => vget col ((x + 4) % 5) 0 ^^^ (vget col ((x + 1) % 5) 0).rotateLeft 1)
  vecOf 25 (fun i => vget a i 0 ^^^ vget d (i % 5) 0)

/-- The lanes rotate and change places. -/
def keccakRhoPi (a : Keccak) : Keccak :=
  vecOf 25 (fun i =>
    let src := (i % 5 + 3 * (i / 5)) % 5 + 5 * (i % 5)
    (vget a src 0).rotateLeft (keccakRot.getD src 0))

/-- Each lane with the next two of its row. -/
def keccakChi (a : Keccak) : Keccak :=
  vecOf 25 (fun i =>
    let row := i / 5 * 5
    vget a i 0 ^^^ (~~~(vget a (row + (i + 1) % 5) 0) &&& vget a (row + (i + 2) % 5) 0))

def keccakRound (a : Keccak) (rc : Word64) : Keccak :=
  let b := keccakChi (keccakRhoPi (keccakTheta a))
  vset b 0 (vget b 0 0 ^^^ rc)

def keccakF (a : Keccak) : Keccak :=
  keccakRounds.foldl keccakRound a

/-- A list in hashPieces of n, at most fuel of them. -/
def hashPieces {α : Type} (n : Nat) : Nat → List α → List (List α)
  | 0, _ => []
  | fuel + 1, l => if l.isEmpty then [] else l.take n :: hashPieces n fuel (l.drop n)

/-- The message with its suffix byte and the last bit, filled up to whole blocks of r bytes. -/
def spongePad (r : Nat) (suffix : Byte) (msg : List Byte) : List Byte :=
  let z := r - 1 - msg.length % r
  if z = 0 then msg ++ [suffix ||| 0x80] else msg ++ suffix :: List.replicate (z - 1) 0 ++ [0x80]

/-- A block goes into the state. -/
def spongeBlock (a : Keccak) (block : List Byte) : Keccak :=
  let w := (hashPieces 8 25 block).map (fun p => BitVec.ofNat 64 (natOf p))
  keccakF (vecOf 25 (fun i => vget a i 0 ^^^ w.getD i 0))

/-- n blocks of r bytes of output. -/
def spongeOut (r : Nat) : Nat → Keccak → List Byte
  | 0, _ => []
  | n + 1, a => ((List.range 25).flatMap (fun i => bytesOf 8 (vget a i 0).toNat)).take r ++ spongeOut r n (keccakF a)

/-- The first n bytes of the sponge with rate r and a suffix. -/
def sponge (r : Nat) (suffix : Byte) (n : Nat) (msg : List Byte) : List Byte :=
  let padded := spongePad r suffix msg
  let a := (hashPieces r (padded.length / r) padded).foldl spongeBlock (Vector.replicate 25 0)
  (spongeOut r ((n + r - 1) / r) a).take n

/-- SHA3-384 (FIPS 202; R443, R444, R448): the 48 bytes of the digest, the first in the lowest bits. -/
@[irreducible] def sha3 (msg : List Byte) : BitVec 384 :=
  BitVec.ofNat 384 (natOf (sponge 104 0x06 48 msg))

/-- SHAKE128 and SHAKE256 (FIPS 202): n bytes of output. -/
def shake128 (n : Nat) (msg : List Byte) : List Byte :=
  sponge 168 0x1F n msg

def shake256 (n : Nat) (msg : List Byte) : List Byte :=
  sponge 136 0x1F n msg

/-! ## SHA-512 (FIPS 180-4), which Ed25519 uses -/

/-- The first 80 primes. -/
def primes80 : List Nat :=
  (List.range 410).filter (fun n => 2 ≤ n && (List.range n).all (fun d => d < 2 || n % d ≠ 0))

/-- The largest number whose k-th power is at most n: bits b - 1 to 0 below the bits of r. -/
def rootBits (k n : Nat) : Nat → Nat → Nat
  | 0, r => r
  | b + 1, r => rootBits k n b (if (r + 2 ^ b) ^ k ≤ n then r + 2 ^ b else r)

/-- 64 bits of the fraction of the k-th root of a number below 2^12. -/
def rootFraction (k n : Nat) : Word64 :=
  BitVec.ofNat 64 (rootBits k (n * 2 ^ (64 * k)) 76 0)

/-- The round constants are of cube roots, the initial state of square roots. -/
def sha512K : List Word64 :=
  primes80.map (rootFraction 3)

def sha512Init : List Word64 :=
  (primes80.take 8).map (rootFraction 2)

/-- The next word of the schedule, after at least 16. -/
def sha512Next (w : List Word64) : List Word64 :=
  let at_ (k : Nat) : Word64 := w.getD (w.length - k) 0
  let x := at_ 15
  let y := at_ 2
  w ++ [at_ 16 + (x.rotateRight 1 ^^^ x.rotateRight 8 ^^^ (x >>> 7)) + at_ 7 +
    (y.rotateRight 19 ^^^ y.rotateRight 61 ^^^ (y >>> 6))]

/-- One round on the eight working words: a round constant and a word of the schedule. -/
def sha512Round (v : List Word64) (kw : Word64 × Word64) : List Word64 :=
  let r (i : Nat) : Word64 := v.getD i 0
  let s1 := (r 4).rotateRight 14 ^^^ (r 4).rotateRight 18 ^^^ (r 4).rotateRight 41
  let t1 := r 7 + s1 + ((r 4 &&& r 5) ^^^ (~~~(r 4) &&& r 6)) + kw.1 + kw.2
  let s0 := (r 0).rotateRight 28 ^^^ (r 0).rotateRight 34 ^^^ (r 0).rotateRight 39
  [t1 + s0 + ((r 0 &&& r 1) ^^^ (r 0 &&& r 2) ^^^ (r 1 &&& r 2)), r 0, r 1, r 2, r 3 + t1, r 4, r 5, r 6]

/-- A block of 128 bytes, big-endian words. -/
def sha512Block (h : List Word64) (block : List Byte) : List Word64 :=
  let w := (List.range 64).foldl (fun w _ => sha512Next w)
    ((hashPieces 8 16 block).map (fun p => BitVec.ofNat 64 (natOf p.reverse)))
  List.zipWith (· + ·) h ((sha512K.zip w).foldl sha512Round h)

/-- The 64 bytes of SHA-512. -/
def sha512 (msg : List Byte) : List Byte :=
  let padded := msg ++ 0x80 :: List.replicate ((239 - msg.length % 128) % 128) 0 ++ (bytesOf 16 (8 * msg.length)).reverse
  ((hashPieces 128 (padded.length / 128) padded).foldl sha512Block sha512Init).flatMap (fun w => (bytesOf 8 w.toNat).reverse)

end Sys2Proof.Machine
end

