-- ==== Sys2Proof/Machine/Signature.lean ====
section
/-! DEFINITION. The signature schemes of boot and attestation (R443, R444, R448): Ed25519 of RFC 8032 and ML-DSA-65 of
FIPS 204, the pure form with an empty context (log entry 65, PRESUMED). -/

namespace Sys2Proof.Machine

/-! ## Ed25519 (RFC 8032, section 5.1) -/

/-- The field's prime and the order of the base point. -/
def edP : Nat := 2 ^ 255 - 19

def edL : Nat := 2 ^ 252 + 27742317777372353535851937790883648493

/-- Arithmetic of the field, on numbers below its prime. -/
def edAdd (a b : Nat) : Nat := (a + b) % edP
def edSub (a b : Nat) : Nat := (a + (edP - b)) % edP
def edMul (a b : Nat) : Nat := a * b % edP

/-- x to the power e modulo m, for e below 2^bits. -/
def powMod (m x e : Nat) : Nat → Nat
  | 0 => 1 % m
  | bits + 1 =>
    let r := powMod m x (e / 2) bits
    if e % 2 = 1 then r * r % m * x % m else r * r % m

def edInv (a : Nat) : Nat := powMod edP a (edP - 2) 255

/-- d of the curve −x² + y² = 1 + d x² y². -/
def edD : Nat := edMul (edP - 121665) (edInv 121666)

/-- A point in extended coordinates: x = X / Z, y = Y / Z, x y = T / Z. -/
structure EdPoint where
  x : Nat
  y : Nat
  z : Nat
  t : Nat
  deriving DecidableEq, Repr

def edZero : EdPoint := ⟨0, 1, 1, 0⟩

def EdPoint.add (p q : EdPoint) : EdPoint :=
  let a := edMul (edSub p.y p.x) (edSub q.y q.x)
  let b := edMul (edAdd p.y p.x) (edAdd q.y q.x)
  let c := edMul (edMul p.t (edAdd edD edD)) q.t
  let d := edMul (edAdd p.z p.z) q.z
  let e := edSub b a
  let f := edSub d c
  let g := edAdd d c
  let h := edAdd b a
  ⟨edMul e f, edMul g h, edMul f g, edMul e h⟩

/-- The point added n times, for n below 2^bits. -/
def EdPoint.mul (p : EdPoint) (n : Nat) : Nat → EdPoint
  | 0 => edZero
  | bits + 1 =>
    let r := p.mul (n / 2) bits
    if n % 2 = 1 then (r.add r).add p else r.add r

/-- The same point, whatever its coordinates. -/
def EdPoint.same (p q : EdPoint) : Bool :=
  edMul p.x q.z == edMul q.x p.z && edMul p.y q.z == edMul q.y p.z

/-- The 32 bytes of a point: y, with the lowest bit of x on top. -/
def EdPoint.encode (p : EdPoint) : List Byte :=
  let i := edInv p.z
  bytesOf 32 (edMul p.y i + 2 ^ 255 * (edMul p.x i % 2))

/-- The point of a y and the lowest bit of its x. -/
def edLift (y sign : Nat) : Option EdPoint :=
  let u := edSub (edMul y y) 1
  let v := edAdd (edMul edD (edMul y y)) 1
  let v3 := edMul (edMul v v) v
  let r := edMul (edMul u v3) (powMod edP (edMul u (edMul v3 (edMul v3 v))) ((edP - 5) / 8) 255)
  let w := edMul v (edMul r r)
  let root :=
    if w = u then some r
    else if w = edSub 0 u then some (edMul r (powMod edP 2 ((edP - 1) / 4) 255))
    else none
  match root with
  | none => none
  | some x =>
    if edP ≤ y || (x = 0 && sign = 1) then none
    else
      let x' := if x % 2 = sign then x else edP - x
      some ⟨x', y, 1, edMul x' y⟩

def edDecode (bs : List Byte) : Option EdPoint :=
  edLift (natOf bs % 2 ^ 255) (natOf bs / 2 ^ 255 % 2)

/-- The base point: y = 4/5 and the even x. -/
def edBase : EdPoint :=
  (edLift (edMul 4 (edInv 5)) 0).getD edZero

def edHash (bs : List Byte) : Nat := natOf (sha512 bs) % edL

/-- The secret number of a key, and the prefix that its signatures hash. -/
def edSecret (key : BitVec 256) : Nat × List Byte :=
  let h := sha512 (bytesOf 32 key.toNat)
  (natOf (h.take 32) % 2 ^ 254 / 8 * 8 + 2 ^ 254, h.drop 32)

/-- The public key of an Ed25519 key. -/
@[irreducible] def edPublic (key : BitVec 256) : BitVec 256 :=
  BitVec.ofNat 256 (natOf (edBase.mul (edSecret key).1 256).encode)

/-- The Ed25519 signature of a message under a key (R448). -/
@[irreducible] def edSign (key : BitVec 256) (msg : List Byte) : BitVec 512 :=
  let (a, pre) := edSecret key
  let r := edHash (pre ++ msg)
  let rb := (edBase.mul r 256).encode
  let k := edHash (rb ++ (edBase.mul a 256).encode ++ msg)
  BitVec.ofNat 512 (natOf (rb ++ bytesOf 32 ((r + k * a) % edL)))

/-- Does an Ed25519 signature verify: public key, message, signature (R444)? -/
@[irreducible] def edVerify (key : BitVec 256) (msg : List Byte) (sig : BitVec 512) : Bool :=
  let kb := bytesOf 32 key.toNat
  let rb := bytesOf 32 sig.toNat
  let n := sig.toNat / 2 ^ 256
  match edDecode kb, edDecode rb with
  | some a, some r =>
    let k := edHash (rb ++ kb ++ msg)
    n < edL && (edBase.mul (8 * n) 256).same ((r.mul 8 256).add ((a.mul k 256).mul 8 256))
  | _, _ => false

/-! ## ML-DSA-65 (FIPS 204): polynomials -/

/-- 256 coefficients, each below `mlQ`. -/
abbrev Poly := List Nat

def mlQ : Nat := 8380417

/-- A number modulo `mlQ` as the integer nearest 0. -/
def mlSigned (a : Nat) : Int :=
  if a ≤ mlQ / 2 then (a : Int) else (a : Int) - mlQ

def mlOf (a : Int) : Nat := (a % mlQ).toNat

def polyAdd (a b : Poly) : Poly := List.zipWith (fun x y => (x + y) % mlQ) a b

def polySub (a b : Poly) : Poly := List.zipWith (fun x y => (x + (mlQ - y)) % mlQ) a b

/-- The product where both are transformed. -/
def polyMul (a b : Poly) : Poly := List.zipWith (fun x y => x * y % mlQ) a b

def polyZero : Poly := List.replicate 256 0

/-- A number's eight bits reversed. -/
def brv8 (m : Nat) : Nat :=
  (List.range 8).foldl (fun r i => r + m / 2 ^ i % 2 * 2 ^ (7 - i)) 0

/-- The transform's constants, and their inverses. -/
def mlZetas : List Nat :=
  (List.range 256).map (fun m => powMod mlQ 1753 (brv8 m) 9)

def mlZetasInv : List Nat :=
  (List.range 256).map (fun m => powMod mlQ 1753 (512 - brv8 m) 10)

/-- The transform of 2^n coefficients, block m of its level. -/
def nttOn (zs : List Nat) : Nat → Nat → Poly → Poly
  | 0, _, a => a
  | n + 1, m, a =>
    let lo := a.take (2 ^ n)
    let hi := (a.drop (2 ^ n)).map (fun x => zs.getD m 0 * x % mlQ)
    nttOn zs n (2 * m) (polyAdd lo hi) ++ nttOn zs n (2 * m + 1) (polySub lo hi)

def ntt (a : Poly) : Poly := nttOn mlZetas 8 1 a

/-- Its inverse, but for the factor 2^n. -/
def nttOff (zs : List Nat) : Nat → Nat → Poly → Poly
  | 0, _, a => a
  | n + 1, m, a =>
    let lo := nttOff zs n (2 * m) (a.take (2 ^ n))
    let hi := nttOff zs n (2 * m + 1) (a.drop (2 ^ n))
    polyAdd lo hi ++ (polySub lo hi).map (fun x => zs.getD m 0 * x % mlQ)

def nttInv (a : Poly) : Poly := (nttOff mlZetasInv 8 1 a).map (fun x => x * 8347681 % mlQ)

/-- A transformed matrix times a transformed vector. -/
def matMul (rows : List (List Poly)) (v : List Poly) : List Poly :=
  rows.map (fun r => (List.zipWith polyMul r v).foldl polyAdd polyZero)

/-! ### Bits -/

/-- w bits for each of some numbers, the first in the lowest bits, as bytes. -/
def packBits (w : Nat) (l : List Nat) : List Byte :=
  bytesOf (w * l.length / 8) (l.foldr (fun x n => x % 2 ^ w + 2 ^ w * n) 0)

/-- The first n numbers of w bits of some bytes. -/
def unpackBits (w n : Nat) (bs : List Byte) : List Nat :=
  let v := natOf bs
  (List.range n).map (fun i => v / 2 ^ (w * i) % 2 ^ w)

/-- A coefficient near 0 as its distance below b. -/
def packBelow (w b : Nat) (p : Poly) : List Byte :=
  packBits w (p.map (fun x => mlOf ((b : Int) - mlSigned x)))

def unpackBelow (w b : Nat) (bs : List Byte) : Poly :=
  (unpackBits w 256 bs).map (fun x => mlOf ((b : Int) - x))

/-! ### Sampling: from as much output as makes a shortage unheard of -/

/-- Row r and column c of the public matrix, transformed (`RejNTTPoly`, `ExpandA`). -/
def mlEntry (rho : List Byte) (r c : Nat) : Poly :=
  let zs := (hashPieces 3 448 (shake128 1344 (rho ++ bytesOf 1 c ++ bytesOf 1 r))).map (fun p => natOf p % 2 ^ 23)
  ((zs.filter (fun z => z < mlQ)) ++ polyZero).take 256

def mlMatrix (rho : List Byte) : List (List Poly) :=
  (List.range 6).map (fun r => (List.range 5).map (mlEntry rho r))

/-- A secret polynomial, its coefficients from −4 to 4 (`RejBoundedPoly`). -/
def mlSmall (seed : List Byte) (r : Nat) : Poly :=
  let hs : List Nat := (shake256 680 (seed ++ bytesOf 2 r)).flatMap (fun b => [b.toNat % 16, b.toNat / 16])
  (((hs.filter (fun x => x < 9)).map (fun x => mlOf (4 - (x : Int)))) ++ polyZero).take 256

/-- One step of `SampleInBall`: the next byte that is at most i, and the bytes behind it. -/
def mlPick (i : Nat) : List Byte → Nat × List Byte
  | [] => (0, [])
  | b :: rest => if b.toNat ≤ i then (b.toNat, rest) else mlPick i rest

/-- A polynomial with 49 coefficients of ±1 (`SampleInBall`). -/
def mlBall (seed : List Byte) : Poly :=
  let out := shake256 272 seed
  let signs := natOf (out.take 8)
  ((List.range 49).foldl (fun (c : Poly × List Byte) k =>
    let i := 207 + k
    let (j, rest) := mlPick i c.2
    ((c.1.set i (c.1.getD j 0)).set j (if signs / 2 ^ k % 2 = 1 then mlQ - 1 else 1), rest))
    (polyZero, out.drop 8)).1

/-- The mask of a signing attempt (`ExpandMask`). -/
def mlMask (seed : List Byte) (kappa : Nat) : List Poly :=
  (List.range 5).map (fun r => unpackBelow 20 (2 ^ 19) (shake256 640 (seed ++ bytesOf 2 (kappa + r))))

/-! ### Rounding -/

def mlGamma : Nat := 261888

/-- High and low part (`Decompose`). -/
def mlSplit (a : Nat) : Nat × Int :=
  let m := a % (2 * mlGamma)
  let lo : Int := if m ≤ mlGamma then (m : Int) else (m : Int) - 2 * mlGamma
  if (a : Int) - lo = mlQ - 1 then (0, lo - 1) else (((a : Int) - lo).toNat / (2 * mlGamma), lo)

/-- The high part that a hint bit corrects (`UseHint`). -/
def mlUseHint (h : Bool) (a : Nat) : Nat :=
  let (hi, lo) := mlSplit a
  if !h then hi else if 0 < lo then (hi + 1) % 16 else (hi + 15) % 16

/-- Does adding z change the high part of a (`MakeHint`)? -/
def mlHint (z a : Nat) : Bool :=
  (mlSplit a).1 != (mlSplit ((a + z) % mlQ)).1

/-- The largest distance of a coefficient from 0. -/
def polyNorm (l : List Poly) : Nat :=
  l.foldl (fun m p => p.foldl (fun m x => max m (mlSigned x).natAbs) m) 0

/-- The high parts of a vector, as they are hashed (`w1Encode`). -/
def mlHighBytes (l : List (List Nat)) : List Byte :=
  l.flatMap (packBits 4)

/-! ### Keys and signatures -/

/-- What a key expands to (`KeyGen`): the seed of the matrix, the seed of signatures, the secrets, and t in its two parts. -/
structure MlKey where
  rho : List Byte
  sign : List Byte
  s1 : List Poly
  s2 : List Poly
  t1 : List Poly
  t0 : List Poly

def mlExpand (seed : List Byte) : MlKey :=
  let h := shake256 128 (seed ++ [6, 5])
  let rho := h.take 32
  let sec := (h.drop 32).take 64
  let s1 := (List.range 5).map (mlSmall sec)
  let s2 := (List.range 6).map (fun r => mlSmall sec (5 + r))
  let t := List.zipWith polyAdd ((matMul (mlMatrix rho) (s1.map ntt)).map nttInv) s2
  let hi (x : Nat) : Nat := (x + 2 ^ 12 - 1) / 2 ^ 13
  { rho := rho, sign := h.drop 96, s1 := s1, s2 := s2, t1 := t.map (fun p => p.map hi)
    t0 := t.map (fun p => p.map (fun (x : Nat) => mlOf ((x : Int) - (2 ^ 13 * hi x : Nat)))) }

def MlKey.public (k : MlKey) : List Byte :=
  k.rho ++ k.t1.flatMap (packBits 10)

/-- The 1,952 bytes of the public key of an ML-DSA-65 key, which is its seed. -/
@[irreducible] def mlPublic (key : BitVec 256) : List Byte :=
  (mlExpand (bytesOf 32 key.toNat)).public

/-- What is signed of a message (the pure form with an empty context), by the public key. -/
def mlMessage (pub msg : List Byte) : List Byte :=
  shake256 64 (shake256 64 pub ++ [0, 0] ++ msg)

/-- The bits of a hint, 55 positions and where each polynomial's end (`HintBitPack`). -/
def mlPackHint (h : List (List Bool)) : List Byte :=
  let pos := h.map (fun p => (List.range 256).filter (fun j => p.getD j false))
  let flat := pos.flatten
  (flat ++ List.replicate (55 - flat.length) 0).map (BitVec.ofNat 8) ++
    (List.range 6).map (fun i => BitVec.ofNat 8 ((pos.take (i + 1)).flatten).length)

/-- The hint of 61 bytes, if they are in the one form it has (`HintBitUnpack`). -/
def mlUnpackHint (bs : List Byte) : Option (List (List Bool)) :=
  let pos := (bs.take 55).map (fun b => b.toNat)
  let ends := (bs.drop 55).map (fun b => b.toNat)
  let start (i : Nat) : Nat := if i = 0 then 0 else ends.getD (i - 1) 0
  let part (i : Nat) : List Nat := (pos.drop (start i)).take (ends.getD i 0 - start i)
  let rises (l : List Nat) : Bool := (l.zip (l.drop 1)).all (fun p => p.1 < p.2)
  if (List.range 6).all (fun i => start i ≤ ends.getD i 0 && ends.getD i 0 ≤ 55 && rises (part i)) &&
      (pos.drop (ends.getD 5 0)).all (fun x => x == 0)
  then some ((List.range 6).map (fun i => (List.range 256).map (fun j => (part i).contains j)))
  else none

/-- One attempt at a signature, with the mask of number kappa. -/
def MlKey.attempt (k : MlKey) (a : List (List Poly)) (mu seed : List Byte) (kappa : Nat) : Option (List Byte) :=
  let y := mlMask seed kappa
  let w := (matMul a (y.map ntt)).map nttInv
  let ch := shake256 48 (mu ++ mlHighBytes (w.map (fun p => p.map (fun x => (mlSplit x).1))))
  let c := ntt (mlBall ch)
  let times (l : List Poly) : List Poly := l.map (fun p => nttInv (polyMul c (ntt p)))
  let z := List.zipWith polyAdd y (times k.s1)
  let r := List.zipWith polySub w (times k.s2)
  let low := (r.flatten).foldl (fun m x => max m (mlSplit x).2.natAbs) 0
  let ct0 := times k.t0
  let hint := List.zipWith (fun rp tp => List.zipWith (fun x t => mlHint ((mlQ - t) % mlQ) ((x + t) % mlQ)) rp tp) r ct0
  if 2 ^ 19 - 196 ≤ polyNorm z || mlGamma - 196 ≤ low || mlGamma ≤ polyNorm ct0 || 55 < (hint.flatten).count true
  then none
  else some (ch ++ z.flatMap (packBelow 20 (2 ^ 19)) ++ mlPackHint hint)

/-- The first attempt that succeeds, of at most fuel. -/
def MlKey.tries (k : MlKey) (a : List (List Poly)) (mu seed : List Byte) : Nat → Nat → List Byte
  | 0, _ => []
  | fuel + 1, kappa =>
    match k.attempt a mu seed kappa with
    | some s => s
    | none => k.tries a mu seed fuel (kappa + 5)

/-- The ML-DSA-65 signature of a message under a key and 32 random bytes (R448): of 3,309 bytes, byte i. -/
@[irreducible] def mlSign (key : BitVec 256) (rnd : BitVec 256) (msg : List Byte) (i : Nat) : Byte :=
  let k := mlExpand (bytesOf 32 key.toNat)
  let mu := mlMessage k.public msg
  (k.tries (mlMatrix k.rho) mu (shake256 64 (k.sign ++ bytesOf 32 rnd.toNat ++ mu)) 814 0).getD i 0

/-- Does an ML-DSA-65 signature verify: public key of 1,952 bytes, message, signature of 3,309 bytes (R444)? -/
@[irreducible] def mlVerify (pub msg sig : List Byte) : Bool :=
  let ch := sig.take 48
  let z := (hashPieces 640 5 ((sig.drop 48).take 3200)).map (unpackBelow 20 (2 ^ 19))
  match mlUnpackHint (sig.drop 3248) with
  | none => false
  | some h =>
    let t1 := (hashPieces 320 6 (pub.drop 32)).map (fun p => ntt ((unpackBits 10 256 p).map (fun x => x * 2 ^ 13)))
    let c := ntt (mlBall ch)
    let w := (List.zipWith polySub (matMul (mlMatrix (pub.take 32)) (z.map ntt)) (t1.map (polyMul c))).map nttInv
    let w1 := List.zipWith (fun hp wp => List.zipWith mlUseHint hp wp) h w
    polyNorm z < 2 ^ 19 - 196 && ch == shake256 48 (mlMessage pub msg ++ mlHighBytes w1)

end Sys2Proof.Machine
end

