-- ==== Sys2Proof/Machine/Regs.lean ====
section
/-! DEFINITION. The supervisor register window (R32, R33, R439): one read and one write for every agent that reaches it,
the effect of each register's write, and the events that are such writes. -/

namespace Sys2Proof.Machine

/-! ## The map (R32, R112, R439) -/

/-- The registers of the window: q a queue, p a partition, d a die, c a core. -/
inductive Reg where
  | owner | bootstat | denycnt | resetreq
  | mailbox (k : Nat) | reply (k : Nat)
  | qbase (q : Nat) | qctl (q : Nat) | qtail (q : Nat) | qhead (q : Nat) | qabort (q : Nat)
  | prslice (p : Nat) | ipqcfg (q : Nat)
  | pswap (p : Nat) | ptvec (p : Nat) | proot (p : Nat) | doorbell (p : Nat) | dbgctl (p : Nat) | dbglost (p : Nat)
  | dbgbp (p i : Nat) | dbgwp (p i : Nat) | trbase (p : Nat) | trsizel (p : Nat) | trhead (p : Nat) | dbgsel (p : Nat)
  | hit (p i : Nat) | dbgstate (p : Nat) | dbgregs (p : Nat)
  | elbase (d : Nat) | elsizel (d : Nat) | elhead (d : Nat) | cecount (d : Nat)
  | cpart (c : Nat) | xpool (c : Nat) | bintime (c : Nat) | perfctl (c : Nat) | pgidle (c : Nat)
  | hist (c q b : Nat) | stall (c q r : Nat) | event (c i : Nat)
  deriving DecidableEq, Repr

/-- The register's bytes. -/
def Reg.bytes : Reg → Nat
  | .mailbox _ => 256
  | .reply _ => 0x4000
  | .dbgregs _ => 0x8000
  | .dbgstate _ => 64
  | .hit .. => 32
  | .pswap _ | .dbgwp .. => 16
  | .owner | .qbase _ | .ptvec _ | .proot _ | .dbgbp .. | .trbase _ | .dbgsel _ | .elbase _ | .hist .. | .stall ..
  | .event .. => 8
  | _ => 4

/-- A register and the offset it begins at. -/
abbrev RegAt := Reg × Nat

/-- The management block (R439). -/
def mgmtAt (off : Nat) : Option RegAt :=
  if off < 8 then some (.owner, 0)
  else if off < 0xC then some (.bootstat, 8)
  else if off < 0x10 then some (.denycnt, 0xC)
  else if off < 0x14 then some (.resetreq, 0x10)
  else if 0x100 ≤ off && off < 0x900 then some (.mailbox ((off - 0x100) / 0x100), off / 0x100 * 0x100)
  else if 0x1_0000 ≤ off && off < 0x3_0000 then some (.reply ((off - 0x1_0000) / 0x4000), off / 0x4000 * 0x4000)
  else none

/-- A launch-queue block (R112), from its base on. -/
def queueAt (q base rel : Nat) : Option RegAt :=
  if rel < 8 then some (.qbase q, base)
  else if rel < 12 then some (.qctl q, base + 8)
  else if rel < 16 then some (.qtail q, base + 12)
  else if rel < 20 then some (.qhead q, base + 16)
  else if rel < 24 then some (.qabort q, base + 20)
  else none

/-- A partition block, from its base on. -/
def partAt (p base rel : Nat) : Option RegAt :=
  if rel < 0x10 then some (.pswap p, base)
  else if rel < 0x18 then some (.ptvec p, base + 0x10)
  else if rel < 0x20 then some (.proot p, base + 0x18)
  else if rel < 0x24 then some (.doorbell p, base + 0x20)
  else if rel < 0x100 then none
  else if rel < 0x104 then some (.dbgctl p, base + 0x100)
  else if rel < 0x108 then some (.dbglost p, base + 0x104)
  else if rel < 0x148 then some (.dbgbp p ((rel - 0x108) / 8), base + rel / 8 * 8)
  else if rel < 0x150 then none
  else if rel < 0x190 then some (.dbgwp p ((rel - 0x150) / 16), base + rel / 16 * 16)
  else if rel < 0x198 then some (.trbase p, base + 0x190)
  else if rel < 0x19C then some (.trsizel p, base + 0x198)
  else if rel < 0x1A0 then some (.trhead p, base + 0x19C)
  else if rel < 0x1A8 then some (.dbgsel p, base + 0x1A0)
  else if rel < 0x200 then none
  else if rel < 0x400 then some (.hit p ((rel - 0x200) / 32), base + rel / 32 * 32)
  else if rel < 0x440 then some (.dbgstate p, base + 0x400)
  else if 0x8000 ≤ rel then some (.dbgregs p, base + 0x8000)
  else none

/-- A die block, from its base on. -/
def dieAt (d base rel : Nat) : Option RegAt :=
  if rel < 8 then some (.elbase d, base)
  else if rel < 0xC then some (.elsizel d, base + 8)
  else if rel < 0x10 then some (.elhead d, base + 0xC)
  else if rel < 0x14 then some (.cecount d, base + 0x10)
  else none

/-- A core block, from its base on. -/
def coreAt (c base rel : Nat) : Option RegAt :=
  if rel < 4 then some (.cpart c, base)
  else if rel < 8 then some (.xpool c, base + 4)
  else if rel < 0xC then some (.bintime c, base + 8)
  else if rel < 0x10 then some (.perfctl c, base + 0xC)
  else if rel < 0x14 then some (.pgidle c, base + 0x10)
  else if rel < 0x100 then none
  else if rel < 0x900 then
    let q := (rel - 0x100) / 0x200
    let r := (rel - 0x100) % 0x200
    if r < 0x108 then some (.hist c q (r / 8), base + rel / 8 * 8)
    else if 0x110 ≤ r && r < 0x188 then some (.stall c q ((r - 0x110) / 8), base + rel / 8 * 8)
    else none
  else if rel < 0x940 then some (.event c ((rel - 0x900) / 8), base + rel / 8 * 8)
  else none

/-- The register that holds an offset of the window (R32). -/
def regAt (off : Nat) : Option RegAt :=
  if off < 0x3_0000 then mgmtAt off
  else if 0x4_0000 ≤ off && off < 0x4_0800 then
    queueAt ((off - 0x4_0000) / 32) (off / 32 * 32) (off % 32)
  else if 0x5_0000 ≤ off && off < 0x5_0020 then some (.prslice ((off - 0x5_0000) / 4), off / 4 * 4)
  else if 0x6_0000 ≤ off && off < 0x6_1000 then some (.ipqcfg ((off - 0x6_0000) / 4), off / 4 * 4)
  else if 0x8_0000 ≤ off && off < 0x10_0000 then
    partAt ((off - 0x8_0000) / 0x1_0000) (off / 0x1_0000 * 0x1_0000) (off % 0x1_0000)
  else if 0x10_0000 ≤ off && off < 0x10_4000 then
    dieAt ((off - 0x10_0000) / 0x1000) (off / 0x1000 * 0x1000) (off % 0x1000)
  else if 0x20_0000 ≤ off && off < 0x20_0000 + 0x1000 * 272 then
    coreAt ((off - 0x20_0000) / 0x1000) (off / 0x1000 * 0x1000) (off % 0x1000)
  else none

/-- Who reaches the window (R33): a group in supervisor mode, a master, a virtual function. -/
inductive Agent where
  | group
  | master (id : Nat)
  | vf (p : Nat)
  deriving DecidableEq, Repr

def agentOf : Requester → Agent
  | .master id => .master id.toNat
  | .vf p => .vf p.toNat

/-! ## Reading -/

/-- The value of a register (R32 and the rule of each). -/
def State.regVal (s : State) (r : Reg) : Nat :=
  match r with
  | .owner => s.mgmt.owner.toNat
  | .bootstat =>
    s.mgmt.failA.toNat * 2 ^ 8 + s.mgmt.failB.toNat * 2 ^ 16 + s.mgmt.bootSlot.toNat * 2 ^ 29 +
      s.mgmt.bootState.toNat * 2 ^ 30
  | .denycnt => s.mgmt.denycnt.toNat
  | .qbase q => (s.queue q).base.toNat
  | .qctl q =>
    let l := s.queue q
    l.en.toNat + l.qpart.toNat * 2 ^ 12 + l.sizel.toNat * 2 ^ 20 + l.qerr.toNat * 2 ^ 31
  | .qtail q => (s.queue q).tail.toNat
  | .qhead q => (s.queue q).head.toNat
  | .prslice p => (vget s.slices p 0).toNat
  | .ipqcfg q =>
    let l := vget s.ipqs q ⟨false, 0, 0, 0, []⟩
    l.prod.toNat * 2 ^ 8 + l.cons.toNat * 2 ^ 16 + l.depthl.toNat * 2 ^ 24 + l.en.toNat * 2 ^ 31
  | .pswap p => (s.part p).pswap.toNat
  | .ptvec p => (s.part p).ptvec.toNat
  | .proot p => (s.part p).proot.toNat
  | .dbgctl p =>
    let d := s.part p
    d.arm.toNat + d.btrace.toNat * 2 + d.halted.toNat * 2 ^ 2 + d.hits.length * 2 ^ 5 + d.sampl.toNat * 2 ^ 16
  | .dbglost p => (s.part p).dbglost.toNat
  | .dbgbp p i => (vget (s.part p).bp i 0).toNat
  | .dbgwp p i => (vget (s.part p).wp i 0).toNat
  | .trbase p => (s.part p).trbase.toNat
  | .trsizel p => (s.part p).trsizel.toNat
  | .trhead p => (s.part p).trhead.toNat
  | .dbgsel p => (s.part p).dbgsel.toNat
  | .hit p i => ((s.part p).hits.getD i 0).toNat
  | .dbgstate p => s.dbgState p
  | .elbase d => (s.die d).elbase.toNat
  | .elsizel d => (s.die d).elsizel.toNat
  | .elhead d => (s.die d).elhead.toNat
  | .cecount d => (s.die d).cecount.toNat
  | .cpart c => (s.core c).part.toNat + (s.core c).moving.toNat * 2 ^ 4
  | .xpool c => (s.core c).xlimit.toNat
  | .bintime c => (s.core c).bintime.toNat
  | .perfctl c => (s.core c).frz.toNat
  | .pgidle c => (s.core c).pgidle.toNat
  | .hist c q b => (vget (vget (s.core c).hist q (Vector.replicate 33 0)) b 0).toNat
  | .stall c q k => (vget (vget (s.core c).stall q (Vector.replicate 15 0)) k 0).toNat
  | .event c i => (vget (s.core c).events i 0).toNat
  | .resetreq | .qabort _ | .doorbell _ | .mailbox _ | .reply _ | .dbgregs _ => 0

/-- A read of n bytes at rel of a register is one that the register takes (R33, log entry 19, DEDUCED). Hit records and
`DBGSTATE` are read at 4 or 8 bytes, mailboxes and reply buffers at 1 to 8 (log entry 19, DESIGN CHOICE). -/
def Reg.readable (r : Reg) (rel n : Nat) : Bool :=
  rel % n == 0 &&
    (match r with
     | .mailbox _ | .reply _ => n ≤ 8
     | .dbgregs _ | .dbgstate _ | .hit .. => n == 4 || n == 8
     | _ => if r.bytes = 16 then n == 8 else (rel == 0 && n == r.bytes) || (r.bytes == 8 && n == 4))

/-- A load of n bytes at an offset of the window (R33, R439); in recovery only the management block answers (R444). -/
def State.regRead (s : State) (who : Agent) (off n : Nat) : Nat :=
  match regAt off with
  | none => 0
  | some (r, base) =>
    let rel := off - base
    if !r.readable rel n || (0x3_0000 ≤ off && s.mgmt.bootState = 3) then 0
    else
      match r with
      | .mailbox k => natOf (Memory.readN (vget s.mgmt.boxes k []) rel n)
      | .reply k => if who = .master (k + 1) then natOf (Memory.readN (vget s.mgmt.replies k []) rel n) else 0
      | .dbgregs p => natOf ((List.range n).map (fun i => s.dumpByte p (rel + i)))
      | _ => s.regVal r / 2 ^ (8 * rel) % 2 ^ (8 * n)

/-! ## Effects of writes -/

/-- `QBASE` (R112). -/
def State.setQbase (s : State) (q : Nat) (v : Word64) : State :=
  if v.toNat % 128 = 0 && bitsN v 63 56 = 0 then s.modQueue q (fun l => { l with base := v }) else s

/-- `QCTL` (R112, R113): `QERR` is cleared by a 1, `EN` holds only where the queue can be served; a queue that is served
again polls at once (R119). -/
def State.setQctl (s : State) (q : Nat) (v : Word32) : State :=
  s.modQueue q (fun l =>
    let l1 := { l with qerr := l.qerr && !v.getLsbD 31, sizel := v.extractLsb' 20 4, qpart := v.extractLsb' 12 4,
                       en := true }
    let l2 := { l1 with en := v.getLsbD 0 && l1.served }
    if l2.served && !l.served then { l2 with interval := 0, due := s.time } else l2)

/-- `QTAIL` (R114, R119): an overrun stops the queue; the backoff of the partition's waiting queues begins anew, and their
next poll is due. -/
def State.setQtail (s : State) (q : Nat) (v : Word32) : State :=
  let l := s.queue q
  let s1 := s.modQueue q (fun l => { l with tail := v })
  let s2 := { s1 with queues := s1.queues.map (fun k =>
    if k.qpart == l.qpart && k.packet.isSome && k.interval != 0 then { k with interval := 64, due := s.time } else k) }
  if 2 ^ l.sizel.toNat < (v - l.head).toNat then
    (s2.modQueue q (fun l => { l with qerr := true })).logQueue q l.qpart.toNat 10 q
      (bytesOf 4 v.toNat ++ bytesOf 4 l.head.toNat)
  else s2

/-- `CPART` (R36). -/
def State.setCpart (s : State) (c : Nat) (v : Word32) : State :=
  let p := v.extractLsb' 0 4
  if (s.core c).moving || (9 ≤ p.toNat && p.toNat ≤ 14) then s
  else s.modCore c (fun k => { k with moving := true, newPart := p })

/-- `XPOOL` (R144). -/
def State.setXpool (s : State) (c : Nat) (v : Word32) : State :=
  s.modCore c (fun k => { k with xlimit := BitVec.ofNat 8 (min 128 (bitsN v 7 0)) })

/-- Every counter of a core at 0 (R423). -/
def Core.clearCounters (c : Core) : Core :=
  { c with
    hist := Vector.replicate 4 (Vector.replicate 33 0)
    stall := Vector.replicate 4 (Vector.replicate 15 0)
    events := Vector.replicate 8 0 }

/-- `PERFCTL` (R423) (log entry 23, DEDUCED). -/
def State.setPerfctl (s : State) (c : Nat) (v : Word32) : State :=
  s.modCore c (fun k => { (if v.getLsbD 1 then k.clearCounters else k) with frz := v.getLsbD 0 })

/-- `IPQCFG` (R392). -/
def State.setIpqcfg (s : State) (q : Nat) (v : Word32) : State :=
  { s with ipqs := vmod s.ipqs q ⟨false, 0, 0, 0, []⟩ (fun l =>
      { l with
        en := v.getLsbD 31
        depthl := if l.en then l.depthl else BitVec.ofNat 4 (min 12 (bitsN v 27 24))
        cons := v.extractLsb' 16 8
        prod := v.extractLsb' 8 8 }) }

/-- The ring of 2^n records: n is 0 or from 6 to 24 (R435, R437). -/
def sizelOk (n : Nat) : Bool :=
  n == 0 || (6 ≤ n && n ≤ 24)

/-- `TRSIZEL` (R435). -/
def State.setTrsizel (s : State) (p : Nat) (v : Word32) : State :=
  if sizelOk v.toNat then s.modPart p (fun d => { d with trsizel := v }) else s

/-- `ELSIZEL` (R437). -/
def State.setElsizel (s : State) (d : Nat) (v : Word32) : State :=
  let n := bitsN v 4 0
  if sizelOk n then s.modDie d (fun k => { k with elsizel := BitVec.ofNat 32 n }) else s

/-- A doorbell (R409). -/
def State.ringDoorbell (s : State) (p : Nat) : State :=
  s.teams.foldl (fun s t => if s.partOf t = p then s.setEvents t.id 1 else s) s

/-- The record of a `HALTREQ` (R434). -/
def haltRec (time : Word64) : HitRec :=
  time ++ 0#48 ++ 0xFFFF#16 ++ 0xFFFF_FFFF#32 ++ 0#8 ++ 5#8 ++ 0#80

/-- `HALTREQ` (R426). -/
def State.haltRequest (s : State) (p : Nat) : State :=
  s.hit p (haltRec s.time)

/-- `RELEASE` (R430, R432, R434). -/
def State.release (s : State) (p : Nat) : State :=
  let mine := s.teams.filter (fun t => s.partOf t == p)
  let s1 : State := mine.foldl (fun s t => s.setEvents t.id 8) s
  let s2 := s1.modPart p (fun d => { d with halted := false, hits := [], status := 0, trig := [], dbgsel := d.dbgsel &&& 0xFFFF })
  State.resumeCallers { s2 with groups := s2.groups.map (fun g =>
      if mine.any (fun t => t.id == g.team) then { g with stopped := false } else g) }

/-- `DBGSEL` (R432): `SEL` says whether a group is selected, which a write does only while the context is halted. -/
def State.setDbgsel (s : State) (p : Nat) (v : Word64) : State :=
  let sel := BitVec.ofNat 64 (bitsN v 16 0)
  let s1 := s.modPart p (fun d => { d with dbgsel := if d.halted then sel else sel &&& 0xFFFF, status := 0 })
  if v.getLsbD 16 && (s.part p).halted then
    s1.modPart p (fun d => { d with status := if (s1.dumpGroup p).isSome then 1 else 2 })
  else s1

/-- `DBGCTL` (R426): a release first, then a halt asked for in the same write (R430). -/
def State.setDbgctl (s : State) (p : Nat) (v : Word32) : State :=
  let s1 := s.modPart p (fun d =>
    { d with sampl := v.extractLsb' 16 16, btrace := v.getLsbD 1, arm := v.getLsbD 0 })
  let s2 := if v.getLsbD 4 then s1.release p else s1
  if v.getLsbD 3 then s2.haltRequest p else s2

/-- A slice of a priority, in ns (R125). -/
def State.sliceNs (s : State) (p : Nat) : Nat :=
  1000 * max 1 (vget s.slices p 0).toNat

/-- Has a fired bin of a launch waited 8 slices of its priority (R148)? -/
def State.binLate (s : State) (l : Launch) (b : Bin) : Bool :=
  b.raised || 8 * s.sliceNs l.prio ≤ (s.time - b.since).toNat

/-- `PRSLICE` of a priority (R125): a fired bin that has priority 7 by its wait so far keeps it (R148). -/
def State.setPrslice (s : State) (p : Nat) (v : Word32) : State :=
  let late (b : Bin) : Bool :=
    match b.work with
    | .spawn id _ _ _ => b.fired && (match s.launch? id with | some l => l.prio == p && s.binLate l b | none => false)
    | .call .. => false
  let keep (l : List Bin) : List Bin := l.map (fun b => if late b then { b with raised := true } else b)
  { s with
    slices := vset s.slices p v
    teams := s.teams.map (fun t => { t with bins := keep t.bins })
    cores := s.cores.map (fun c => { c with bins := keep c.bins }) }

/-- A physical address in main memory (R31). -/
def inMain (pa : Nat) : Bool :=
  pa < MAIN_END

/-- `PSWAP` (R151): 128 bits at once; a base outside main memory changes nothing. -/
def State.setPswap (s : State) (p : Nat) (v : BitVec 128) : State :=
  let base := bitsN v 55 16 * 2 ^ 16
  if inMain base then
    s.modPart p (fun d => { d with pswap := BitVec.ofNat 128 (base + bitsN v 127 96 * 2 ^ 96), swapFull := false })
  else s

/-- The flash and what lies outside the module stay across a reset; everything else is as after reset (R443, R445, log
entry 20, DEDUCED). -/
def State.resetModule (s : State) : State :=
  { State.reset with
    mem := s.mem.filter (fun c => HOST_BASE ≤ c.1 && c.1 < 2 ^ 56)
    peerUp := s.peerUp
    hostUp := s.hostUp
    agenda := s.agenda
    freeCtr := s.freeCtr
    mgmt := { Mgmt.reset with
      active := s.mgmt.active, vfloor := s.mgmt.vfloor, slotA := s.mgmt.slotA, slotB := s.mgmt.slotB,
      checkA := s.mgmt.checkA, checkB := s.mgmt.checkB, fwData := s.mgmt.fwData, edKey := s.mgmt.edKey, mlKey := s.mgmt.mlKey,
      serial := s.mgmt.serial } }

/-! ## Boot (R443, R444) -/

/-- A byte of the module flash (R443): the image slots and the firmware data at their offsets. The rule does not say where in
the configuration area, the first MiB, the active slot, `VFLOOR`, the keys and the certificate stand. -/
def Mgmt.flashByte (m : Mgmt) (off : Nat) : Option Byte :=
  if off < 2 ^ 20 then none
  else if off < 49 * 2 ^ 20 then some (Memory.read m.slotA (off - 2 ^ 20))
  else if off < 97 * 2 ^ 20 then some (Memory.read m.slotB (off - 49 * 2 ^ 20))
  else if off < 128 * 2 ^ 20 then some (Memory.read m.fwData (off - 97 * 2 ^ 20))
  else none

/-- Bytes of an image slot. -/
def slotBytes (slot : List Host.Cell) (off n : Nat) : List Byte :=
  Memory.readN slot off n

def slotNat (slot : List Host.Cell) (off n : Nat) : Nat :=
  natOf (slotBytes slot off n)

/-- The body of an image. -/
def imageBody (slot : List Host.Cell) : List Byte :=
  slotBytes slot 4096 (slotNat slot 8 4)

/-- The first failing step of R444 for an image, 0 if none. -/
def checkImage (slot : List Host.Cell) (vfloor : Word32) : Nat :=
  let len := slotNat slot 8 4
  if slotNat slot 0 4 ≠ 0x4D57_4654 || 48 * 2 ^ 20 - 4096 < len then 1
  else if slotNat slot 4 4 < vfloor.toNat then 2
  else if (sha3 (imageBody slot)).toNat ≠ natOf (slotBytes slot 12 48) then 3
  else if !edVerify Config.edRoot (slotBytes slot 0 60) (BitVec.ofNat 512 (slotNat slot 60 64)) then 4
  else if !mlVerify Config.mlRoot.toList (slotBytes slot 0 60) (slotBytes slot 124 3309) then 5
  else 0

/-- The boot ROM's check of both slots, active first, and what follows: the firmware starting from the first that passes,
or recovery (R444, R445). -/
def State.boot (s : State) : State :=
  let m := s.mgmt
  let fa := checkImage m.slotA m.vfloor
  let fb := checkImage m.slotB m.vfloor
  let firstB := m.active
  let first := if firstB then fb else fa
  let pick : Option Bool := if first = 0 then some firstB else if (if firstB then fa else fb) = 0 then some (!firstB) else none
  let m1 := { m with failA := BitVec.ofNat 8 fa, failB := BitVec.ofNat 8 fb,
                     checkA := BitVec.ofNat 8 fa, checkB := BitVec.ofNat 8 fb }
  match pick with
  | some b =>
    let slot := if b then m.slotB else m.slotA
    { s with mgmt := { m1 with bootState := 1, bootSlot := b, version := BitVec.ofNat 32 (slotNat slot 4 4)
                               digest := sha3 (imageBody slot) } }
  | none => { s with mgmt := { m1 with bootState := 3 } }

/-- The firmware runs: on every control core, with `SVEC` set on every core, and the host link open in full (R41, R444). -/
def State.firmwareUp (s : State) : State :=
  { s with
    mgmt := { s.mgmt with bootState := 2 }
    dies := s.dies.map (fun d => { d with ctrlRuns := Vector.replicate 2 true })
    cores := vecOf 272 (fun c => { s.core c with svec := Config.svec c }) }

/-- Ticks of the time base pass (R37): in the first after a reset the boot ROM runs, in the next that pass the firmware it
started comes up (R444, R445, log entry 59, DESIGN CHOICE). -/
def State.pass (s : State) (dt : Nat) : State :=
  let s1 := { s with time := s.time + BitVec.ofNat 64 dt }
  if dt = 0 then s1
  else if s.mgmt.bootState = 0 then s1.boot
  else if s.mgmt.bootState = 1 then s1.firmwareUp
  else s1

/-! ## Mailboxes (R446) -/

/-- A denied write (R439). -/
def State.deny (s : State) : State :=
  if s.mgmt.denycnt = 0xFFFF_FFFF then s
  else { s with mgmt := { s.mgmt with denycnt := s.mgmt.denycnt + 1 } }

/-- Bytes of a mailbox. -/
def State.setBox (s : State) (k rel : Nat) (bs : List Byte) : State :=
  { s with mgmt := { s.mgmt with boxes := vmod s.mgmt.boxes k [] (fun b => Memory.write b rel bs) } }

def State.boxNat (s : State) (k rel n : Nat) : Nat :=
  natOf (Memory.readN (vget s.mgmt.boxes k []) rel n)

/-- Bytes of a reply buffer. -/
def State.setReply (s : State) (k rel : Nat) (bs : List Byte) : State :=
  { s with mgmt := { s.mgmt with replies := vmod s.mgmt.replies k [] (fun b => Memory.write b rel bs) } }

/-- The firmware finishes the command of mailbox k with a status. -/
def State.finishCommand (s : State) (k status : Nat) : State :=
  let s1 := s.setBox k 4 (bytesOf 4 status)
  { s1 with mgmt := { s1.mgmt with busy := vset s1.mgmt.busy k false } }

/-- A master writes its mailbox: the command word starts a command, an unknown one is answered with status 3; while the
status reads busy a command word is ignored (log entry 22, DEDUCED). -/
def State.writeBox (s : State) (k rel n : Nat) (v : Nat) : State :=
  if rel = 0 && 4 ≤ n then
    if s.boxNat k 4 4 = 0xFFFF_FFFF then s
    else
      let s1 := s.setBox k 0 (bytesOf 4 v ++ bytesOf 4 0xFFFF_FFFF)
      let s2 := { s1 with mgmt := { s1.mgmt with busy := vset s1.mgmt.busy k true } }
      if 1 ≤ v % 2 ^ 32 && v % 2 ^ 32 ≤ 6 then s2 else s2.finishCommand k 3
  else s.setBox k rel (bytesOf n v)

/-! ## Writing -/

/-- A write of the whole of a register. -/
def State.regSet (s : State) (r : Reg) (v : Nat) : State :=
  let w32 := BitVec.ofNat 32 v
  let w64 := BitVec.ofNat 64 v
  match r with
  | .qbase q => s.setQbase q w64
  | .qctl q => s.setQctl q w32
  | .qtail q => s.setQtail q w32
  | .qabort q => s.abort q w32
  | .prslice p => s.setPrslice p w32
  | .ipqcfg q => s.setIpqcfg q w32
  | .ptvec p => s.modPart p (fun d => { d with ptvec := BitVec.ofNat 64 (bitsN w64 55 0) })
  | .proot p =>
    let root := bitsN w64 55 11 * 2 ^ 11
    if inMain root then s.modPart p (fun d => { d with proot := BitVec.ofNat 64 root }) else s
  | .doorbell p => s.ringDoorbell p
  | .dbgctl p => s.setDbgctl p w32
  | .dbgbp p i => s.modPart p (fun d => { d with bp := vset d.bp i (w64 &&& 0x8000_0000_FFFF_FFFF) })
  | .trbase p =>
    let base := bitsN w64 55 7 * 2 ^ 7
    if inMain base then s.modPart p (fun d => { d with trbase := BitVec.ofNat 64 base }) else s
  | .trsizel p => s.setTrsizel p w32
  | .dbgsel p => s.setDbgsel p w64
  | .elbase d =>
    let base := bitsN w64 55 7 * 2 ^ 7
    if inMain base then s.modDie d (fun k => { k with elbase := BitVec.ofNat 64 base }) else s
  | .elsizel d => s.setElsizel d w32
  | .cecount d => s.modDie d (fun k => { k with cecount := w32 })
  | .cpart c => s.setCpart c w32
  | .xpool c => s.setXpool c w32
  | .bintime c => s.modCore c (fun k => { k with bintime := BitVec.ofNat 16 v })
  | .perfctl c => s.setPerfctl c w32
  | .pgidle c => s.modCore c (fun k => { k with pgidle := w32 })
  | .owner | .bootstat | .denycnt | .resetreq | .mailbox _ | .reply _ | .qhead _ | .pswap _ | .dbglost _ | .dbgwp ..
  | .trhead _ | .hit .. | .dbgstate _ | .dbgregs _ | .elhead _ | .hist .. | .stall .. | .event .. => s

/-- The bits of `DBGWP` that hold a value (R427). -/
def wpMask : BitVec 128 :=
  0x0000_0000_FFFF_FFFF_E0FF_FFFF_FFFF_FFFF

/-- A write of half of a 128-bit register: the low half is latched, the high half takes effect (R33). -/
def State.regHalf (s : State) (r : Reg) (high : Bool) (v : Word64) : State :=
  match r with
  | .pswap p =>
    if high then s.setPswap p (v ++ (s.part p).pswapLow) else s.modPart p (fun d => { d with pswapLow := v })
  | .dbgwp p i =>
    if high then s.modPart p (fun d => { d with wp := vset d.wp i ((v ++ vget d.wpLow i 0) &&& wpMask) })
    else s.modPart p (fun d => { d with wpLow := vset d.wpLow i v })
  | _ => s

/-- Ids of masters (R438): no request comes from another. -/
def isMaster (r : Nat) : Bool :=
  1 ≤ r && r ≤ 8

/-- A write in the management block (R439, R445) (log entry 24, DEDUCED). -/
def State.mgmtWrite (s : State) (who : Agent) (off n v : Nat) : State :=
  match mgmtAt off, who with
  | some (.mailbox k, base), .master id =>
    if id = k + 1 then (if off % n = 0 && n ≤ 8 then s.writeBox k (off - base) n v else s) else s.deny
  | some (.resetreq, base), .master id =>
    if id = s.owner then (if off = base && n = 4 && v % 2 ^ 32 = 0x5245_5345 then s.resetModule else s) else s.deny
  | _, _ => s.deny

/-- Does a write by an agent reach the registers (R33, R438)? A master id that the module does not assign reaches none. -/
def Agent.arrives : Agent → Bool
  | .group | .vf _ => true
  | .master id => isMaster id

/-- May a virtual function write here (R33)? `QTAIL` of its partition's queues and its doorbell. -/
def State.vfMay (s : State) (p : Nat) (r : Reg) : Bool :=
  match r with
  | .qtail q => (s.queue q).qpart.toNat == p
  | .doorbell k => k == p
  | _ => false

/-- A write of n bytes at an offset of the window (R33, R439); in recovery only the management block answers (R444). `QABORT`
takes the owner's writes alone (R123). -/
def State.regWrite (s : State) (who : Agent) (off n v : Nat) : State :=
  if !who.arrives then s
  else if off < 0x3_0000 then (match who with | .vf _ => s | _ => s.mgmtWrite who off n v)
  else if s.mgmt.bootState = 3 then s
  else
    match regAt off with
    | none => (match who with | .master id => if id = s.owner then s else s.deny | _ => s)
    | some (r, base) =>
      let rel := off - base
      let put : State :=
        if rel = 0 && n = r.bytes then s.regSet r v
        else if r.bytes = 16 && n = 8 && rel % 8 = 0 then s.regHalf r (rel = 8) (BitVec.ofNat 64 v)
        else s
      match who with
      | .group => (match r with | .qabort _ => s | _ => put)
      | .master id => if id = s.owner then put else s.deny
      | .vf p => if s.vfMay p r then put else s

/-- The offset in the whole window of an offset of a virtual function's BAR (R33). -/
def State.vfOffset (s : State) (p off : Nat) : Option Nat :=
  if off = 0xF00 then some (0x8_0000 + 0x1_0000 * p + 0x20)
  else if off % 32 = 12 then
    (((List.range 64).filter (fun q => (s.queue q).qpart.toNat == p))[off / 32]?).map (fun q => 0x4_0000 + 32 * q + 12)
  else none

/-- A write of a virtual function at an offset of its BAR (R33). -/
def State.vfWrite (s : State) (p : BitVec 3) (off n v : Nat) : State :=
  match s.vfOffset p.toNat off with
  | some o => s.regWrite (.vf p.toNat) o n v
  | none => s

/-! ## Events -/

/-- A write of a whole register by its offset in the window. -/
def State.writeAt (s : State) (who : Requester) (off n v : Nat) : Host.Outcome State Fault Refusal :=
  .next (s.regWrite (agentOf who) off n v)

/-- R112. -/
def execQbaseWrite (who : Requester) (q : BitVec 6) (v : Word64) (s : State) : Host.Outcome State Fault Refusal :=
  s.writeAt who (0x4_0000 + 32 * q.toNat) 8 v.toNat

/-- R113. -/
def execQctlWrite (who : Requester) (q : BitVec 6) (v : Word32) (s : State) : Host.Outcome State Fault Refusal :=
  s.writeAt who (0x4_0000 + 32 * q.toNat + 8) 4 v.toNat

/-- R114. -/
def execQtailWrite (who : Requester) (q : BitVec 6) (v : Word32) (s : State) : Host.Outcome State Fault Refusal :=
  s.writeAt who (0x4_0000 + 32 * q.toNat + 12) 4 v.toNat

/-- R123. -/
def execQabort (who : Requester) (q : BitVec 6) (n : Word32) (s : State) : Host.Outcome State Fault Refusal :=
  s.writeAt who (0x4_0000 + 32 * q.toNat + 20) 4 n.toNat

/-- R36. -/
def execCpartWrite (who : Requester) (core : Nat) (v : Word32) (s : State) : Host.Outcome State Fault Refusal :=
  if core < 272 then s.writeAt who (0x20_0000 + 0x1000 * core) 4 v.toNat else .next s

/-- R409. -/
def execDoorbell (who : Requester) (part : BitVec 3) (s : State) : Host.Outcome State Fault Refusal :=
  s.writeAt who (0x8_0000 + 0x1_0000 * part.toNat + 0x20) 4 0

/-- R392. -/
def execIpqcfgWrite (who : Requester) (q : BitVec 10) (v : Word32) (s : State) : Host.Outcome State Fault Refusal :=
  s.writeAt who (0x6_0000 + 4 * q.toNat) 4 v.toNat

/-- R144. -/
def execXpoolWrite (who : Requester) (core : Nat) (v : Word32) (s : State) : Host.Outcome State Fault Refusal :=
  if core < 272 then s.writeAt who (0x20_0000 + 0x1000 * core + 4) 4 v.toNat else .next s

/-- R435. -/
def execTrsizelWrite (who : Requester) (part : BitVec 3) (v : Word32) (s : State) :
    Host.Outcome State Fault Refusal :=
  s.writeAt who (0x8_0000 + 0x1_0000 * part.toNat + 0x198) 4 v.toNat

/-- R437. -/
def execElsizelWrite (who : Requester) (die : BitVec 2) (v : Word32) (s : State) : Host.Outcome State Fault Refusal :=
  s.writeAt who (0x10_0000 + 0x1000 * die.toNat + 8) 4 v.toNat

/-- R423: `CLR` written with `FRZ` as it stands. -/
def execPerfctlClr (who : Requester) (core : Nat) (s : State) : Host.Outcome State Fault Refusal :=
  if core < 272 then s.writeAt who (0x20_0000 + 0x1000 * core + 0xC) 4 (2 + (s.core core).frz.toNat) else .next s

/-- The value of `DBGCTL` that changes nothing but what its `RELEASE` and `HALTREQ` bits do. -/
def State.dbgctlWith (s : State) (p bit : Nat) : Nat :=
  let d := s.part p
  d.arm.toNat + d.btrace.toNat * 2 + d.sampl.toNat * 2 ^ 16 + bit

/-- R426. -/
def execHaltreq (who : Requester) (part : BitVec 3) (s : State) : Host.Outcome State Fault Refusal :=
  s.writeAt who (0x8_0000 + 0x1_0000 * part.toNat + 0x100) 4 (s.dbgctlWith part.toNat 8)

/-- R430. -/
def execRelease (who : Requester) (part : BitVec 3) (s : State) : Host.Outcome State Fault Refusal :=
  s.writeAt who (0x8_0000 + 0x1_0000 * part.toNat + 0x100) 4 (s.dbgctlWith part.toNat 16)

/-- R432. -/
def execDbgselWrite (who : Requester) (part : BitVec 3) (v : Word64) (s : State) : Host.Outcome State Fault Refusal :=
  s.writeAt who (0x8_0000 + 0x1_0000 * part.toNat + 0x1A0) 8 v.toNat

/-- R33, R439: a write of a master at an offset of the window, or of a virtual function at one of its BAR. -/
def execRegisterWrite (who : Requester) (off : BitVec 24) (width : Nat) (v : Word64) (s : State) :
    Host.Outcome State Fault Refusal :=
  match who with
  | .master _ => s.writeAt who off.toNat width v.toNat
  | .vf p => .next (s.vfWrite p off.toNat width v.toNat)

/-- R445: the owner's write of the magic value to `RESETREQ`. -/
def execResetreq (r : BitVec 8) (v : Word32) (s : State) : Host.Outcome State Fault Refusal :=
  .next (s.regWrite (.master r.toNat) 0x10 4 v.toNat)

/-- R445: PERST# on the host link. -/
def execPerst (s : State) : Host.Outcome State Fault Refusal :=
  .next s.resetModule

end Sys2Proof.Machine
end

