-- ==== Sys2Proof/Machine/Mem.lean ====
section
/-! DEFINITION. Loads, stores, full/empty bits, atomics, fences, prefetch and barrier objects (R256 to R278), command-ring
reservation and batches (R279 to R281, R290). -/

namespace Sys2Proof.Machine

/-! ## Lanes and addresses (R133, R256 to R258) -/

/-- The address of a lane (R256). -/
def Group.ea (g : Group) (a : MemOpd) (lane : Nat) : Word64 :=
  (g.srcLane a.base 64 lane).setWidth 64 + a.off.signExtend 64

/-- The lanes that access: the lowest of `active` where the instruction runs once, else all of `active` (R133) (log entry
35, DEDUCED). -/
def Group.accessLanes (g : Group) (h : Hdr) (os : List Opd) : List Nat :=
  if runsOnce h os then (lowest (g.active h)).toList else lanesOf (g.active h)

/-- The same without helper lanes (R258). -/
def Group.doneLanes (g : Group) (h : Hdr) (os : List Opd) : List Nat :=
  (g.accessLanes h os).filter (fun i => !g.helper.getLsbD i)

/-- One access that has passed its checks: lane, address, place. -/
structure Access where
  lane : Nat
  va : Word64
  place : Place
  deriving DecidableEq, Repr

/-- The check of one lane's address: `MISALIGN` first, then the place (R257, R256). -/
def State.checkLane (s : State) (a : Accessor) (use : Use) (va : Word64) (n lane : Nat) : Except Trap Access :=
  if va.toNat % n ≠ 0 then .error (trapLane .misalign lane va)
  else
    match s.place a use va with
    | .ok p => .ok ⟨lane, va, p⟩
    | .error c => .error (trapLane c lane va)

/-- The checks of every lane, before any accesses (R258). -/
def State.checkLanes (s : State) (g : Group) (use : Use) (a : MemOpd) (n : Nat) (lanes : List Nat) :
    Except Trap (List Access) :=
  lanes.mapM (fun i => s.checkLane (s.accessor g) use (g.ea a i) n i)

/-! ## The order of a group's accesses (R249, R301, R304, R346) -/

/-- Every undelivered result of a group, at every level. -/
def Group.allPend (g : Group) : List Long :=
  g.pend ++ (match g.hset with | some sh => sh.pend | none => []) ++
    (match g.sset with | some sh => sh.pend | none => []) ++ g.folds.flatMap (fun f => f.pend)

/-- A load of a result of which a lane still waits. -/
def Long.waitingLoad (l : Long) : Option LoadInfo :=
  l.load.filter (fun i => !i.lanes.isEmpty)

/-- The loads of a group, at every level, of which a lane still waits (R195, R266). -/
def Group.waitingLoads (g : Group) : List LoadInfo :=
  g.allPend.filterMap Long.waitingLoad

/-- The callers whose items or members a callee group runs (R236, R237). -/
def Group.callers (g : Group) : List Nat :=
  match g.kind with
  | .callee _ pack _ _ => (pack.lanes.flatMap (fun l => l.members.map (fun m => m.caller))).eraseDups
  | .launched | .spawned _ => []

/-- Does a load of a caller of the group still wait, at most n calls up? Every access of the caller comes before those of the
pass (R249). -/
def State.callerWaits (s : State) : Nat → Group → Bool
  | 0, _ => false
  | n + 1, g => (g.callers.filterMap s.group?).any (fun c => !c.waitingLoads.isEmpty || s.callerWaits n c)

/-- Is a memory or engine instruction held back: a load of the group, or of a caller, has not read yet (R249, edges 1, 3 to 7
of R301, R304)? -/
def State.held (s : State) (g : Group) : Bool :=
  !g.waitingLoads.isEmpty || s.callerWaits (g.depth + 1) g

/-- Is an instruction held back that comes only after acquire loads (edge 5 of R301)? A pass that its caller folds comes after
every load of the caller (R249, R306). -/
def State.heldAcq (s : State) (g : Group) : Bool :=
  g.waitingLoads.any (fun i => i.acq) || g.folds.any (fun f => f.pend.any (fun l => l.waitingLoad.isSome)) ||
    s.callerWaits (g.depth + 1) g

/-- An instruction that waits until a condition no longer holds it back: its group's next turn tries it again. -/
def holding (hold : State → Group → Bool) (b : Body) : Body := fun s g =>
  if hold s g then .ok { s := s, g := g, wait := some .behind, hold := true } else b s g

/-- An instruction that comes after every earlier load of the group (log entry 21, DEDUCED). -/
def ordered (b : Body) : Body :=
  holding State.held b

/-- An instruction that comes after the earlier acquire loads of the group. -/
def afterAcquires (b : Body) : Body :=
  holding State.heldAcq b

/-- Does an address lie on a strongly ordered page, or in the supervisor register window (R292)? -/
def State.strong (s : State) (a : Accessor) (va : Word64) : Bool :=
  match regionOf a.core va with
  | .translated => (match s.leaf a.tlb a.part va with | .ok l => l.ord == 1 | .error _ => false)
  | .supv _ => true
  | _ => false

/-- A waiting load of the group on the line of a location, one older than an undelivered result's number (R299). -/
def Group.waitsOn (g : Group) (loc id : Nat) : Bool :=
  g.allPend.any (fun l => l.id < id &&
    (match l.load with | some i => i.lanes.any (fun w => lineOf w.loc == lineOf loc) | none => false))

/-- The touches of some accesses of n bytes. -/
def touchesOf (l : List Access) (n : Nat) (rd wr : Bool) : List Touch :=
  l.map (fun x => ⟨x.va, n, rd, wr⟩)

/-- A poisoned unit in an access, by its virtual address (R420). -/
def State.poisonAt (s : State) (x : Access) (n : Nat) : Option Word64 :=
  match x.place with
  | .mem loc => (s.poisonIn loc n).map (fun u => if u < loc then x.va - BitVec.ofNat 64 (loc - u)
      else x.va + BitVec.ofNat 64 (u - loc))
  | .supv _ => none

/-! ## Bank passes (R260, R424) -/

/-- The passes of a half that touches some words: the largest number of distinct words in any one bank (R260). -/
def passes (words : List Nat) : Nat :=
  (List.range 32).foldl (fun m b => max m (words.dedup.filter (fun w => w % 32 == b)).length) 0

/-- The words that lanes 32 half to 32 half + 31 touch in the slice of a core, of lanes and their locations (R260). -/
def halfWords (core n half : Nat) (l : List (Nat × Nat)) : List Nat :=
  (l.filter (fun p => p.1 / 32 == half && isScr p.2 && (scrOf p.2).1 == core)).flatMap
    (fun p => (List.range ((p.2 + n - 1) / 4 + 1 - p.2 / 4)).map (fun k => p.2 / 4 + k))

/-- `BANKPASS` counts the passes beyond the first in each half of an access of n bytes (R260, R424) (log entry 55, DEDUCED). -/
def State.countPasses (s : State) (g : Group) (n : Nat) (l : List (Nat × Nat)) : State :=
  let core := g.core.getD 0
  s.addEvent core 2 ((passes (halfWords core n 0 l) - 1) + (passes (halfWords core n 1 l) - 1))

/-- The lanes and locations of some accesses of memory. -/
def locsOf (l : List Access) : List (Nat × Nat) :=
  l.filterMap (fun x => match x.place with | .mem loc => some (x.lane, loc) | .supv _ => none)

/-- Does an access of the group reach a place: is it performed, in a helper lane too (R258)? -/
def State.reaches (s : State) (g : Group) (use : Use) (va : Word64) : Bool :=
  match s.place (s.accessor g) use va with
  | .ok _ => true
  | .error _ => false

/-- The lanes of a load that reach memory, with their locations. -/
def State.loadLocs (s : State) (g : Group) (a : MemOpd) (lanes : List Nat) : List (Nat × Nat) :=
  lanes.filterMap (fun i =>
    match s.place (s.accessor g) .read (g.ea a i) with | .ok (.mem loc) => some (i, loc) | _ => none)

/-! ## Loads and stores (R263, R264, R266) -/

/-- What one lane of a load finds: a value, or an empty line to wait on. -/
inductive Found where
  | val (v : Nat)
  | wait (va : Word64) (loc : Nat)
  deriving DecidableEq, Repr

/-- Does a load lane wait: on an empty line, or behind an older load that has not read the line yet (R266, R299)? -/
def State.mustWait (s : State) (g : Group) (loc : Nat) : Bool :=
  isScr loc && (!s.isFull loc || g.waitsOn loc s.nextId)

/-- A lane that begins to wait. -/
def State.waitLane (s : State) (lane : Nat) (va : Word64) (loc : Nat) : WaitLane :=
  ⟨BitVec.ofNat 6 lane, va, loc, if s.isFull loc then none else some (tally (lineOf loc) s.fills)⟩

/-- One lane of a load: a helper lane that would fault, or reads poison, has 0 (R258). -/
def State.loadLane (s : State) (g : Group) (va : Word64) (n lane : Nat) : Except Trap Found :=
  let helper := g.helper.getLsbD lane
  if va.toNat % n ≠ 0 then .error (trapLane .misalign lane va)
  else
    match s.place (s.accessor g) .read va with
    | .error c => if helper then .ok (.val 0) else .error (trapLane c lane va)
    | .ok (.supv off) => .ok (.val (s.regRead .group off n))
    | .ok (.mem loc) => if s.mustWait g loc then .ok (.wait va loc) else .ok (.val (s.readNat loc n))

/-- The poison that a lane which reads at once meets; none for a helper lane. -/
def State.loadPoison (s : State) (g : Group) (va : Word64) (n lane : Nat) : Option Trap :=
  if g.helper.getLsbD lane then none
  else
    match s.place (s.accessor g) .read va with
    | .ok (.mem loc) =>
      if s.mustWait g loc then none
      else (s.poisonAt ⟨lane, va, .mem loc⟩ n).map (trapLane .poison lane)
    | _ => none

/-- Has a helper lane read poison? It receives 0. -/
def State.helperPoison (s : State) (g : Group) (va : Word64) (n lane : Nat) : Bool :=
  g.helper.getLsbD lane &&
    (match s.place (s.accessor g) .read va with
     | .ok (.mem loc) => (s.poisonIn loc n).isSome
     | _ => false)

/-- The width a load writes: at least a register of the destination's file (R263). -/
def loadWidth (ty : ITy) (d : Opd) : Nat :=
  max ty.width (if d.isX then 64 else 32)

/-- The bytes read, extended (R263). -/
def loadCode (ty : ITy) (d : Opd) (v : Nat) : Code :=
  if ty.signed && v / 2 ^ (ty.width - 1) % 2 = 1 then
    BitVec.ofNat 128 (v + (2 ^ loadWidth ty d - 2 ^ ty.width))
  else BitVec.ofNat 128 v

/-- `LD` (R258, R263, R266). -/
def ldBody (h : Hdr) (ty : ITy) (ord : MemOrd) (d : Opd) (a : MemOpd) : Body := fun s g => do
  g.checkHeld [(d, ty.width), (a.base, 64)]
  let n := ty.width / 8
  let lanes := g.accessLanes h [d, a.base]
  let act := g.active h
  let found ← lanes.mapM (fun i => (s.loadLane g (g.ea a i) n i).map (fun f => (i, f)))
  match lanes.findSome? (fun i => s.loadPoison g (g.ea a i) n i) with
  | some t => .error t
  | none =>
    let value (i : Nat) : Code :=
      match found.find? (fun p => p.1 == i) with
      | some (_, .val v) => if s.helperPoison g (g.ea a i) n i then 0 else loadCode ty d v
      | _ => 0
    let once := runsOnce h [d, a.base]
    let low := (lowest act).getD 0
    let waits := found.filterMap (fun p =>
      match p.2 with | .wait va loc => some (s.waitLane p.1 va loc) | .val _ => none)
    let writes := if act = 0 then [] else
      g.writesTo d false (loadWidth ty d) act (fun i => value (if once then low else i))
    let info : LoadInfo := { ty := ty, dst := d, uni := once, acq := ord.isAcq, active := act, helper := g.helper, lanes := waits }
    let read := found.filterMap (fun p =>
      match p.2 with
      | .val _ => some (⟨g.ea a p.1, n, s.reaches g .read (g.ea a p.1), false⟩ : Touch)
      | .wait .. => none)
    .ok { s := s.countPasses g n (s.loadLocs g a lanes), g := g, touches := read,
          long := [{ writes := writes, unit := .memory, load := if waits.isEmpty then none else some info }] }

/-- One lane's store. -/
def State.storeAt (s : State) (x : Access) (n v : Nat) : State :=
  match x.place with
  | .mem loc => s.writeNat loc n v
  | .supv off => s.regWrite .group off n v

/-- The stores of some lanes, ascending. -/
def State.storeAll (s : State) (l : List Access) (n : Nat) (val : Nat → Code) : State :=
  l.foldl (fun s x => s.storeAt x n ((val x.lane).toNat % 2 ^ (8 * n))) s

/-- `ST` (R258, R259, R264). -/
def stBody (h : Hdr) (ty : ITy) (d : Opd) (a : MemOpd) : Body := fun s g => do
  g.checkHeld [(d, ty.width), (a.base, 64)]
  let n := ty.width / 8
  let l ← s.checkLanes g .write a n (g.doneLanes h [d, a.base])
  let s1 := s.storeAll l n (fun i => g.srcLane d ty.width i)
  let s2 := s1.countPasses g n (locsOf l)
  .ok { s := s2, g := s2.refresh g, touches := touchesOf l n false true }

/-! ## Full/empty bits (R265) -/

/-- The lanes of an access have looked their addresses up before a fault: those below a lane that fails a check, or all
where the access meets poison (R424; log entry 55, DEDUCED). -/
def looking (lanes : Group → List Nat) (a : MemOpd) (b : Body) : Body := fun s g =>
  match b s g with
  | .ok d => .ok d
  | .error t =>
    let before := match t.lane with
      | none => []
      | some k => if t.cause == Cause.poison then lanes g
        else (lanes g).takeWhile (· < k) ++ (if t.cause == Cause.atomspace then [k] else [])
    .error { t with looked := before.map (g.ea a) }

/-- The place of a scratchpad address; `NOTSCR` for any other (R265, R275). -/
def State.scrPlace (s : State) (a : Accessor) (use : Use) (va : Word64) : Except Cause Nat :=
  let n := va.toNat
  if (SRAM_BASE ≤ n && n < SRAM_BASE + 0x2000_0000) || (LOCAL_BASE ≤ n && n < LOCAL_BASE + 2 ^ 20) then s.locOf a use va
  else .error .notscr

/-- The lines of some lanes. -/
def State.scrLanes (s : State) (g : Group) (use : Use) (a : MemOpd) (lanes : List Nat) : Except Trap (List Access) :=
  lanes.mapM (fun i =>
    match s.scrPlace (s.accessor g) use (g.ea a i) with
    | .ok loc => .ok ⟨i, g.ea a i, .mem loc⟩
    | .error c => .error (trapLane c i (g.ea a i)))

/-- The location of an access of memory. -/
def Access.loc (x : Access) : Nat :=
  match x.place with
  | .mem loc => loc
  | .supv off => off

/-- `LFULL` and `LEMPTY` (R265) (log entry 29, DEDUCED). -/
def lineBody (h : Hdr) (full : Bool) (a : MemOpd) : Body := fun s g => do
  g.checkHeld [(a.base, 64)]
  let l ← s.scrLanes g .write a (g.doneLanes h [a.base])
  let s1 := l.foldl (fun s x => if full then s.setFull x.loc else s.setEmpty x.loc) s
  .ok { s := s1, g := g, touches := touchesOf l 1 false true }

/-- Does a load of the group wait on the line of an address: their reads of its bit keep their order (R299, R301)? -/
def State.waitsOnLine (s : State) (g : Group) (va : Word64) : Bool :=
  match s.scrPlace (s.accessor g) .read va with
  | .ok loc => g.waitsOn loc s.nextId
  | .error _ => false

/-- `LTEST` (R258, R265): a helper lane that would fault has 0. -/
def ltestBody (h : Hdr) (d : Opd) (a : MemOpd) : Body := fun s g => do
  g.checkHeld [(a.base, 64)]
  let lanes := g.accessLanes h [a.base]
  let _ ← s.scrLanes g .read a (lanes.filter (fun i => !g.helper.getLsbD i))
  let act := g.active h
  let once := runsOnce h [a.base]
  let low := (lowest act).getD 0
  let bit (i : Nat) : Bool :=
    match s.scrPlace (s.accessor g) .read (g.ea a i) with
    | .ok loc => s.isFull loc
    | .error _ => false
  let writes := if act = 0 then [] else
    g.writesTo d false 1 act (fun i => BitVec.ofNat 128 (bit (if once then low else i)).toNat)
  let read := (lanes.filter (fun i => match s.scrPlace (s.accessor g) .read (g.ea a i) with | .ok _ => true | .error _ => false)).map
    (fun i => (⟨g.ea a i, 1, true, false⟩ : Touch))
  .ok { s := s, g := g, touches := read, long := [{ writes := writes, unit := .memory }] }

/-! ## Atomics (R268 to R272) -/

/-- May an atomic act at a place (R272)? In a host window only what PCIe carries. -/
def atomSpace (hostOk : Bool) (x : Access) : Except Trap Unit :=
  match x.place with
  | .supv _ => .error (trapLane .atomspace x.lane x.va)
  | .mem loc =>
    if HOST_BASE ≤ loc && loc < 2 * HOST_BASE && !hostOk then .error (trapLane .atomspace x.lane x.va) else .ok ()

/-- The lanes of an atomic: addresses and spaces (R258, R272). -/
def State.atomPlaces (s : State) (g : Group) (use : Use) (a : MemOpd) (n : Nat) (hostOk : Bool) (lanes : List Nat) :
    Except Trap (List Access) :=
  lanes.mapM (fun i => do
    let x ← s.checkLane (s.accessor g) use (g.ea a i) n i
    atomSpace hostOk x
    .ok x)

/-- The poison that the lowest of some lanes meets (R420). -/
def State.atomPoison (s : State) (n : Nat) (l : List Access) : Option Trap :=
  l.findSome? (fun x => (s.poisonAt x n).map (trapLane .poison x.lane))

/-- The lanes of an atomic: addresses, spaces, then poison. -/
def State.atomLanes (s : State) (g : Group) (use : Use) (a : MemOpd) (n : Nat) (hostOk : Bool) (lanes : List Nat) :
    Except Trap (List Access) := do
  let l ← s.atomPlaces g use a n hostOk lanes
  match s.atomPoison n l with
  | some t => .error t
  | none => .ok l

/-- One update after the other (R259): the state after, and the old value of each lane. -/
def State.updateAll (s : State) (n : Nat) (f : Nat → Code → Code) : List Access → State × List (Nat × Code)
  | [] => (s, [])
  | x :: rest =>
    let old := BitVec.ofNat 128 (s.readNat x.loc n)
    let (s', l) := (s.writeNat x.loc n (f x.lane old).toNat).updateAll n f rest
    (s', (x.lane, old) :: l)

/-- The old value a lane returns. -/
def oldOf (l : List (Nat × Code)) (i : Nat) : Code :=
  match l.find? (fun p => p.1 == i) with
  | some p => p.2
  | none => 0

/-- The writes of returned values: the lanes done, or all of `active` where it ran once (R133). -/
def Group.oldWrites (g : Group) (h : Hdr) (once : Bool) (d : Opd) (w : Nat) (l : List (Nat × Code)) : List RegWrite :=
  if l.isEmpty then []
  else if once then g.writesTo d false w (g.active h) (fun _ => oldOf l ((lowest (g.active h)).getD 0))
  else g.writesTo d false w (maskOf (fun i => l.any (fun p => p.1 == i))) (oldOf l)

/-- Does PCIe carry the operation (R272)? -/
def pcieOp (op : RedOp) (n : Nat) : Bool :=
  (op == .exch || op == .add) && n ≤ 8

/-- `ATOM` (R269): no flag is set. -/
def atomBody (h : Hdr) (op : RedOp) (ty : ITy) (d : Opd) (a : MemOpd) (b : Opd) : Body := fun s g => do
  let w := ty.width
  g.checkHeld [(d, w), (a.base, 64), (b, w)]
  let os := [d, a.base, b]
  let l ← s.atomLanes g .write a (w / 8) (pcieOp op (w / 8)) (g.doneLanes h os)
  let (s1, olds) := s.updateAll (w / 8) (fun i old => (redStep op ty old (g.srcLane b w i)).1) l
  .ok { s := s1.countPasses g (w / 8) (locsOf l), g := g, touches := touchesOf l (w / 8) true true,
        long := [{ writes := g.oldWrites h (runsOnce h os) d w olds, unit := .memory }] }

/-- `REDM` (R269). -/
def redmBody (h : Hdr) (op : RedOp) (ty : ITy) (d : Opd) (a : MemOpd) : Body := fun s g => do
  let w := ty.width
  g.checkHeld [(d, w), (a.base, 64)]
  let l ← s.atomLanes g .write a (w / 8) false (g.doneLanes h [d, a.base])
  let (s1, _) := s.updateAll (w / 8) (fun i old => (redStep op ty old (g.srcLane d w i)).1) l
  .ok { s := s1.countPasses g (w / 8) (locsOf l), g := g, touches := touchesOf l (w / 8) true true }

/-- Compare and set, lane by lane (R270): a lane that succeeds needs write permission. -/
def State.casAll (s : State) (a : Accessor) (n : Nat) (cmp new : Nat → Code) :
    List Access → Except Trap (State × List (Nat × Code) × List Touch)
  | [] => .ok (s, [], [])
  | x :: rest => do
    let old := BitVec.ofNat 128 (s.readNat x.loc n)
    if old = cmp x.lane then
      match s.place a .write x.va with
      | .error c => .error (trapLane c x.lane x.va)
      | .ok _ => do
        let (s', l, ts) ← (s.writeNat x.loc n (new x.lane).toNat).casAll a n cmp new rest
        .ok (s', (x.lane, old) :: l, ⟨x.va, n, true, true⟩ :: ts)
    else do
      let (s', l, ts) ← s.casAll a n cmp new rest
      .ok (s', (x.lane, old) :: l, ⟨x.va, n, true, false⟩ :: ts)

/-- `CAS` (R270): new value in `DATA`, comparand in `SB`, old value out. Of a lane that reads poison and one that may not
write, the lower is named (R12). -/
def casBody (h : Hdr) (ty : ITy) (d : Opd) (a : MemOpd) (b : Opd) : Body := fun s g => do
  let w := ty.width
  g.checkHeld [(d, w), (a.base, 64), (b, w)]
  let os := [d, a.base, b]
  let l ← s.atomPlaces g .read a (w / 8) true (g.doneLanes h os)
  let (s1, olds, ts) ← s.casAll (s.accessor g) (w / 8) (fun i => g.srcLane b w i) (fun i => g.srcLane d w i)
    (l.takeWhile (fun x => (s.poisonAt x (w / 8)).isNone))
  match s.atomPoison (w / 8) l with
  | some t => .error t
  | none =>
  .ok { s := s1.countPasses g (w / 8) (locsOf l), g := g, touches := ts,
        long := [{ writes := g.oldWrites h (runsOnce h os) d w olds, unit := .memory }] }

/-! ## Fences and prefetch (R273, R274) -/

/-- `FENCE` orders accesses that are already performed in order (log entry 4, DESIGN CHOICE). -/
def fenceBody : Body := fun s g =>
  .ok { s := s, g := g }

/-- `FENCE.FLAG` (R273): a 64-bit store, once; a fault names no lane. -/
def fenceFlagBody (d : Opd) (a : MemOpd) : Body := fun s g => do
  let va := g.ea a 0
  if va.toNat % 8 ≠ 0 then .error (trapAt .misalign va)
  else
    match s.place (s.accessor g) .write va with
    | .error c => .error (trapAt c va)
    | .ok p =>
      let s1 := s.storeAt ⟨0, va, p⟩ 8 (g.uni64 d).toNat
      .ok { s := s1, g := s1.refresh g, touches := [⟨va, 8, false, true⟩] }

/-- `PREF` and `PREF.TLB` (R274): the operand check, and the look-ups of the translations they ask for (R424). -/
def prefBody (h : Hdr) (a : MemOpd) : Body := fun s g => do
  g.checkHeld [(a.base, 64)]
  .ok { s := s, g := g, touches := (g.accessLanes h [a.base]).map (fun i => ⟨g.ea a i, 1, false, false⟩) }

/-! ## Barrier objects (R275 to R278) -/

/-- The fields of a barrier object (R275). -/
structure Barrier where
  expect : Nat
  arrived : Nat
  phase : Nat
  noor : Nat
  nskip : Nat
  deriving DecidableEq, Repr

def State.barrier (s : State) (loc : Nat) : Barrier :=
  { expect := s.readNat loc 4, arrived := s.readNat (loc + 4) 4, phase := s.readNat (loc + 8) 4,
    noor := s.readNat (loc + 12) 2, nskip := s.readNat (loc + 14) 2 }

def State.setBarrier (s : State) (loc : Nat) (b : Barrier) : State :=
  s.write loc (bytesOf 4 b.expect ++ bytesOf 4 b.arrived ++ bytesOf 4 b.phase ++ bytesOf 2 b.noor ++ bytesOf 2 b.nskip)

/-- Arrivals (R277). -/
def Barrier.arrive (b : Barrier) (n : Nat) : Barrier :=
  if b.expect = 0 then { b with phase := (b.phase + 1) % 2 ^ 32 }
  else
    { b with arrived := (b.arrived + n) % b.expect, phase := (b.phase + (b.arrived + n) / b.expect) % 2 ^ 32 }

/-- Do n arrivals end a phase (R277)? -/
def Barrier.ends (b : Barrier) (n : Nat) : Bool :=
  b.expect = 0 || b.expect ≤ b.arrived + n

/-- Arrive at a location; the end of a phase wakes the groups registered there (R277, R278). -/
def State.arriveAt (s : State) (loc n : Nat) : State :=
  let b := s.barrier loc
  let s1 := s.setBarrier loc (b.arrive n)
  if b.ends n then { s1 with phases := bump loc s1.phases } else s1

/-- The location of a barrier object, or its faults (R275, R141). -/
def State.barLoc (s : State) (g : Group) (va : Word64) : Except Trap Nat :=
  match s.scrPlace (s.accessor g) .write va with
  | .error .notscr => .error (trapAt .notscr va)
  | r =>
    if va.toNat % 16 ≠ 0 then .error (trapAt .misalign va)
    else
      match r with
      | .error c => .error (trapAt c va)
      | .ok loc => .ok loc

/-- The location of a barrier object that an instruction reads: poison is a fault (R420). -/
def State.barPlace (s : State) (g : Group) (va : Word64) : Except Trap Nat := do
  let loc ← s.barLoc g va
  if (s.poisonIn loc 16).isSome then .error (trapAt .poison va) else .ok loc

/-- The access of an operation on a barrier object, which is atomic on all of it: it reads and writes its 16 bytes (R275, R428;
log entry 17, DEDUCED). -/
def barTouch (va : Word64) : Touch :=
  ⟨va, 16, true, true⟩

/-- `BARINIT` (R276). -/
def barinitBody (d : Opd) (a : MemOpd) : Body := fun s g => do
  let loc ← s.barPlace g (g.ea a 0)
  let b := s.barrier loc
  .ok { s := s.setBarrier loc { b with expect := (g.uni64 d).toNat % 2 ^ 32, arrived := 0, noor := 0, nskip := 0 }, g := g,
        touches := [barTouch (g.ea a 0)] }

/-- `ARRIVE` (R277): the token is a long result. -/
def arriveBody (d : Opd) (a : MemOpd) (b : Opd) : Body := fun s g => do
  let loc ← s.barPlace g (g.ea a 0)
  let tok := (s.barrier loc).phase
  .ok { s := s.arriveAt loc ((g.uni64 b).toNat % 2 ^ 32), g := g, touches := [barTouch (g.ea a 0)],
        long := [{ writes := g.writesTo d false 64 g.exec (fun _ => BitVec.ofNat 128 tok), unit := .memory }] }

/-- `WAITB` (R278): it reads `PHASE` and registers as one operation; registered, it waits for the end of a phase. -/
def waitbBody (d : Opd) (a : MemOpd) : Body := fun s g =>
  match g.wait with
  | some (.phase loc ended) =>
    if tally loc s.phases = ended then .ok { s := s, g := g, wait := g.wait, hold := true } else .ok { s := s, g := g }
  | _ => do
    let loc ← s.barPlace g (g.ea a 0)
    if (s.barrier loc).phase = (g.uni64 d).toNat % 2 ^ 32 then
      .ok { s := s.accessed g [barTouch (g.ea a 0)], g := g, wait := some (.phase loc (tally loc s.phases)), hold := true }
    else .ok { s := s, g := g, touches := [barTouch (g.ea a 0)] }

/-! ## Command rings (R279 to R281) -/

/-- Does a range of a core's slice lie in the team's own allocation? -/
def State.ownRange (s : State) (t : Team) (core off n : Nat) : Bool :=
  let v := s.valsOf t
  t.core == some core && !t.spawn && t.off ≤ off && off + n ≤ t.off + v.scratch + v.frstk

/-- A ring: the offset of its header, its reservation and notify words, its size, its records' offset. -/
structure Ring where
  off : Nat
  rsvd : Nat
  notw : Nat
  size : Nat
  recs : Nat
  deriving DecidableEq, Repr

/-- The entry of number i: its offset, and its record's. -/
def Ring.entry (r : Ring) (i : Nat) : Nat :=
  r.off + 128 + 32 * (i % r.size)

def Ring.record (r : Ring) (i : Nat) : Nat :=
  r.recs + 32 * (i % r.size)

/-- Entries reserved and not published. -/
def Ring.unpub (r : Ring) : Nat :=
  (r.rsvd + 2 ^ 32 - r.notw) % 2 ^ 32

/-- The header at an address as it stands; or `BADRING` with its address (R279), or `POISON` with the poisoned unit's
(R420). -/
def State.ring (s : State) (g : Group) (va : Word64) : Except (Cause × Word64) Ring :=
  let bad : Except (Cause × Word64) Ring := .error (.badring, va)
  match s.team? g.team, s.scrPlace (s.accessor g) .write va with
  | some t, .ok loc =>
    let core := (scrOf loc).1
    let off := (scrOf loc).2
    let cfg := s.readNat (loc + 12) 4
    let r : Ring := { off := off, rsvd := s.readNat loc 4, notw := s.readNat (loc + 4) 4, size := 2 ^ (cfg % 16),
                      recs := cfg / 2 ^ 17 * 32 }
    if va.toNat % 128 ≠ 0 || !s.ownRange t core off 128 then bad
    else if (s.poisonIn loc 128).isSome then .error (.poison, va + BitVec.ofNat 64 ((s.poisonIn loc 128).getD loc - loc))
    else if cfg % 16 < 4 || 10 < cfg % 16 || cfg / 16 % 2 ^ 13 ≠ 0 || s.readNat (loc + 8) 4 ≠ 0 ||
        s.readNat (loc + 16) 112 ≠ 0 || r.size < r.unpub || !s.ownRange t core (off + 128) (32 * r.size) ||
        !s.ownRange t core r.recs (32 * r.size) then bad
    else .ok r
  | _, _ => bad

/-- A word of the header at an address, where there is one to read; else 0: `RSVD` at 0, the number of the next entry to
reserve, `NOTW` at 4, that of the next to publish (R403). -/
def State.headerWord (s : State) (g : Group) (va : Word64) (off : Nat) : Word32 :=
  match s.scrPlace (s.accessor g) .write va with
  | .ok loc => BitVec.ofNat 32 (s.readNat (loc + off) 4)
  | .error _ => 0

/-- A long result joins the group's at once: what a parked instruction has done so far (R280). -/
def State.postLong (s : State) (g : Group) (h : Hdr) (l : LongOut) : State × Group :=
  if l.writes.isEmpty then (s, g)
  else
    let ord := spordOf (if h.st then s.ordinal g g.pc else none)
    ({ s with nextId := s.nextId + 1 },
     { g with pend := g.pend ++ [{ id := s.nextId, writes := l.writes, tr := h.tr, returned := l.returned,
                                   unit := l.unit, load := l.load, poison := [], gate := l.gate, at_ := g.pc,
                                   spord := ord, prior := none }] })

/-- Entries for some lanes, in order: the state, the lanes done with their index, the stores made, and how it ended: all
done, a full ring, or a fault, which names its lane and the entry (R12, R280, R403). -/
def State.cmdLanes (s : State) (g : Group) (d : Opd) (a : MemOpd) :
    List Nat → State × List (Nat × Code) × List Touch × Option (Except Trap Ring)
  | [] => (s, [], [], none)
  | i :: rest =>
    let va := g.ea a i
    match s.ring g va with
    | .error (c, addr) =>
      (s, [], [], some (.error { cause := c, lane := some i, addr := addr, detail := s.headerWord g va 0 }))
    | .ok r =>
      if r.unpub = r.size then (s, [], [], some (.ok r))
      else
        let core := g.core.getD 0
        let s1 := s.writeNat (scrLoc core r.off) 4 (r.rsvd + 1)
        let bytes := (List.range 8).flatMap (fun k => bytesOf 4 (g.vLane (vNum d + BitVec.ofNat 6 k) i).toNat)
        let s2 := s1.write (scrLoc core (r.entry r.rsvd)) bytes
        let (s', l, ts, e) := s2.cmdLanes g d a rest
        (s', (i, BitVec.ofNat 128 r.rsvd) :: l,
          ⟨va, 4, true, true⟩ :: ⟨localAddr (r.entry r.rsvd), 32, false, true⟩ :: ts, e)

/-- The wait on a full ring: its time runs on while `NOTW` stays (R281). -/
def ringWait (s : State) (g : Group) (r : Ring) : Wait :=
  let header := localAddr r.off
  match g.wait with
  | some (.ring since h notw logged) =>
    if h = header && notw.toNat = r.notw then .ring since h notw logged
    else .ring s.time header (BitVec.ofNat 32 r.notw) false
  | _ => .ring s.time header (BitVec.ofNat 32 r.notw) false

/-- `CMDW` (R280). -/
def cmdwBody (h : Hdr) (d : Opd) (a : MemOpd) (b : Opd) : Body := fun s g => do
  g.checkHeld [(d, 256), (a.base, 64), (b, 32)]
  let os := [d, a.base, b]
  let lanes := (g.doneLanes h os).filter (fun i => !g.prog.getLsbD i)
  let (s1, l, ts, e) := s.cmdLanes g d a lanes
  let writes := g.oldWrites h (runsOnce h os) b (if b.isX then 64 else 32) l
  let out : LongOut := { writes := writes, unit := .memory }
  let prog := g.prog ||| maskOf (fun i => l.any (fun p => p.1 == i))
  match e with
  | none => .ok { s := s1, g := g, touches := ts, long := [out] }
  | some r =>
    let (s2, g1) := (s1.accessed g ts).postLong { g with prog := prog } h out
    match r with
    | .ok ring => .ok { s := s2, g := g1, wait := some (ringWait s g ring), hold := true }
    | .error t => .ok { s := s2.take { g1 with wait := none } t, g := g1, final := true }

/-! ## Batches (R290) -/

/-- `BCLOSE` (R290). -/
def bcloseBody (d : Opd) : Body := fun s g =>
  let b := g.batch + 1
  .ok { s := { s with cmds := s.cmds.map (fun c =>
                 if c.issuer == g.id && !c.past && c.batch.isNone then { c with batch := some b } else c) }
        g := { g with batch := b }
        long := [{ writes := g.writesTo d false 64 g.exec (fun _ => b.setWidth 128), unit := .memory }] }

/-- Does `BWAIT` of d cover some batch of a group that is not complete while batch b is unfinished: b itself, or a later one
that the group has closed (R290)? Its last closed batch is `last`. -/
def batchHeld (last d b : Word32) : Bool :=
  (d - last).toNat < 2 ^ 31 || 2 ^ 32 ≤ (d - last).toNat + (last - b).toNat

/-- Is a closed batch that d covers unfinished, or one before it (R290)? -/
def State.batchOpen (s : State) (g : Group) (d : Word32) : Bool :=
  s.cmds.any (fun c => c.issuer == g.id && !c.past &&
    (match c.batch with | some b => batchHeld g.batch d b | none => false))

/-- `BWAIT` (R290). -/
def bwaitBody (d : Opd) : Body := fun s g =>
  if s.batchOpen g ((g.uni64 d).setWidth 32) then .ok { s := s, g := g, wait := some .batch, hold := true }
  else .ok { s := s, g := g }

/-! ## Instructions -/

def execLd (h : Hdr) (ty : ITy) (scope : Scope) (ord : MemOrd) (d : Opd) (a : MemOpd) (s : State) :
    Host.Outcome State Fault Refusal :=
  issue s (.ld h ty scope ord d a) h false
    (holding (fun s g => s.heldAcq g || (!g.waitingLoads.isEmpty &&
      (g.accessLanes h [d, a.base]).any (fun i => s.strong (s.accessor g) (g.ea a i) ||
        s.strong (s.accessor g) (g.ea a i + BitVec.ofNat 64 (ty.width / 8 - 1)))))
      (looking (fun g => g.accessLanes h [d, a.base]) a (ldBody h ty ord d a)))

def execSt (h : Hdr) (ty : ITy) (scope : Scope) (ord : MemOrd) (d : Opd) (a : MemOpd) (s : State) :
    Host.Outcome State Fault Refusal :=
  issue s (.st h ty scope ord d a) h false (ordered (looking (fun g => g.doneLanes h [d, a.base]) a (stBody h ty d a)))

def execLfull (h : Hdr) (scope : Scope) (ord : MemOrd) (a : MemOpd) (s : State) : Host.Outcome State Fault Refusal :=
  issue s (.lfull h scope ord a) h false (ordered (lineBody h true a))

def execLempty (h : Hdr) (scope : Scope) (ord : MemOrd) (a : MemOpd) (s : State) : Host.Outcome State Fault Refusal :=
  issue s (.lempty h scope ord a) h false (ordered (lineBody h false a))

def execLtest (h : Hdr) (scope : Scope) (ord : MemOrd) (d : Opd) (a : MemOpd) (s : State) :
    Host.Outcome State Fault Refusal :=
  issue s (.ltest h scope ord d a) h false
    (holding (fun s g => s.heldAcq g || (g.accessLanes h [a.base]).any (fun i => s.waitsOnLine g (g.ea a i))) (ltestBody h d a))

def execAtom (h : Hdr) (op : RedOp) (ty : ITy) (scope : Scope) (ord : MemOrd) (d : Opd) (a : MemOpd) (b : Opd)
    (s : State) : Host.Outcome State Fault Refusal :=
  issue s (.atom h op ty scope ord d a b) h false
    (ordered (looking (fun g => g.doneLanes h [d, a.base, b]) a (atomBody h op ty d a b)))

def execCas (h : Hdr) (ty : ITy) (scope : Scope) (ord : MemOrd) (facq : Bool) (d : Opd) (a : MemOpd) (b : Opd)
    (s : State) : Host.Outcome State Fault Refusal :=
  issue s (.cas h ty scope ord facq d a b) h false
    (ordered (looking (fun g => g.doneLanes h [d, a.base, b]) a (casBody h ty d a b)))

def execRedm (h : Hdr) (op : RedOp) (ty : ITy) (scope : Scope) (ord : MemOrd) (d : Opd) (a : MemOpd) (s : State) :
    Host.Outcome State Fault Refusal :=
  issue s (.redm h op ty scope ord d a) h false
    (ordered (looking (fun g => g.doneLanes h [d, a.base]) a (redmBody h op ty d a)))

def execFence (h : Hdr) (scope : Scope) (ord : MemOrd) (s : State) : Host.Outcome State Fault Refusal :=
  issue s (.fence h scope ord) h false (ordered fenceBody)

def execFenceFlag (h : Hdr) (scope : Scope) (ord : MemOrd) (d : Opd) (a : MemOpd) (s : State) :
    Host.Outcome State Fault Refusal :=
  issue s (.fenceFlag h scope ord d a) h false (ordered (fenceFlagBody d a))

def execBarinit (h : Hdr) (d : Opd) (a : MemOpd) (s : State) : Host.Outcome State Fault Refusal :=
  issue s (.barinit h d a) h false (ordered (barinitBody d a))

def execArrive (h : Hdr) (scope : Scope) (ord : MemOrd) (d : Opd) (a : MemOpd) (b : Opd) (s : State) :
    Host.Outcome State Fault Refusal :=
  issue s (.arrive h scope ord d a b) h false (ordered (arriveBody d a b))

def execWaitb (h : Hdr) (scope : Scope) (ord : MemOrd) (d : Opd) (a : MemOpd) (s : State) :
    Host.Outcome State Fault Refusal :=
  issue s (.waitb h scope ord d a) h false
    (holding (fun s g => s.heldAcq g || s.waitsOnLine g (g.ea a 0)) (waitbBody d a))

def execCmdw (h : Hdr) (d : Opd) (a : MemOpd) (b : Opd) (s : State) : Host.Outcome State Fault Refusal :=
  issue s (.cmdw h d a b) h false (ordered (cmdwBody h d a b))

def execBclose (h : Hdr) (d : Opd) (s : State) : Host.Outcome State Fault Refusal :=
  issue s (.bclose h d) h false (bcloseBody d)

def execBwait (h : Hdr) (d : Opd) (s : State) : Host.Outcome State Fault Refusal :=
  issue s (.bwait h d) h false (bwaitBody d)

def execPref (h : Hdr) (a : MemOpd) (s : State) : Host.Outcome State Fault Refusal :=
  issue s (.pref h a) h false (prefBody h a)

def execPrefTlb (h : Hdr) (a : MemOpd) (s : State) : Host.Outcome State Fault Refusal :=
  issue s (.prefTlb h a) h false (prefBody h a)

end Sys2Proof.Machine
end

