-- ==== Sys2Proof/Machine/System.lean ====
section
/-! DEFINITION. The system instructions (R407 to R410, R415): returns from a handler or the supervisor, system registers,
invalidation, waiting for events. -/

namespace Sys2Proof.Machine

/-! ## Returns (R408) -/

/-- How an `ERET` goes on. -/
inductive EretForm where
  | plain | skip | fwd
  deriving DecidableEq, Repr

/-- The slot after the faulting slot; after a fault at a delivery point the return address (R258, R408). -/
def Shadow.skipTo (sh : Shadow) : Word64 :=
  if sh.cause.x56.getLsbD 48 then sh.ret else nextSlot sh.cause.x58

/-- The cause record as `X56` to `X59` hold it (log entry 33, DEDUCED). -/
def Group.recordNow (g : Group) : CauseRec :=
  { x56 := g.xVal 56, x57 := g.xVal 57, x58 := g.xVal 58, x59 := g.xVal 59 }

/-- The state after a return has left its level (R408). -/
def State.eretTo (s : State) (g : Group) (sh : Shadow) (form : EretForm) : State :=
  match form with
  | .plain => s.setGroup (g.leave sh sh.ret)
  | .skip => s.setGroup { g.leave sh sh.skipTo with prog := 0 }
  | .fwd =>
    let g1 := g.leave sh sh.ret
    match sh.mode with
    | .user => s.enterHandler g1 sh.ret g.recordNow
    | .handler | .supervisor => s.halt g1 .dblfault g.recordNow

/-- The address a return would continue at, where it is checked: a forwarded cause goes to the handler. -/
def Shadow.target (sh : Shadow) (form : EretForm) : Option Word64 :=
  match form with
  | .plain => some sh.ret
  | .skip => some sh.skipTo
  | .fwd => none

/-- `ERET`, `ERET.SKIP`, `ERET.FWD` (R408). With `SW` = 1 its level's results are delivered first. -/
def eretBody (h : Hdr) (form : EretForm) : Body := fun s g =>
  if g.mode = .user || (form = .fwd && g.mode ≠ .supervisor) then .error (trapOf .priv)
  else
    match g.innermost with
    | none => .error (trapOf .priv)
    | some sh =>
      match sh.target form with
      | some a => if slotOk a then go s g sh else .error (trapAt .badtgt a)
      | none => go s g sh
where
  go (s : State) (g : Group) (sh : Shadow) : Except Trap Done :=
    if h.sw && !g.allReturned then .ok { s := s, g := g, wait := some .results, hold := true }
    else
      match (if h.sw then g.latePoison else none) with
      | some t => .ok { s := s.take { g.deliverPend with wait := none } t, g := g, final := true }
      | none =>
        let ord := if h.st then s.ordinal g g.pc else none
        let g1 := (if h.sw then g.age.deliverPend else g.age).countStep h ord
        let g2 := { g1 with wait := none, sampled := false, pass := .no }
        .ok { s := (s.countIssue (g.core.getD 0)).eretTo g2 sh form, g := g, final := true }

/-! ## System registers (R410) -/

/-- The value of a system register, or `ILLOP` for a number that is not listed. `HRET` of a handler set not in use holds what
last stood there (log entry 9, DESIGN CHOICE). -/
def State.sysReg (s : State) (g : Group) (num : BitVec 16) : Except Trap Word64 :=
  match num.toNat with
  | 0x0000 => .ok (s.core (g.core.getD 0)).svec
  | 0x0010 => .ok (match g.hset, g.hret with | some sh, _ => sh.ret | none, some v => v | none, none => Config.hret s.freeCtr)
  | 0x0011 => .ok (match g.sset with | some sh => sh.ret | none => 0)
  | 0x0012 => .ok (match g.sset with | some sh => BitVec.ofNat 64 sh.mode.code | none => 0)
  | _ => .error (trapOf .illop)

/-- `MFSR`. -/
def mfsrBody (r : Opd) (num : BitVec 16) : Body := fun s g => do
  if g.mode ≠ .supervisor then .error (trapOf .priv)
  else
    let v ← s.sysReg g num
    let s1 := if num = 0x0010 && g.hset.isNone && g.hret.isNone then { s with freeCtr := s.freeCtr + 1 } else s
    .ok { s := s1, g := g, long := [{ writes := g.writesTo r false 64 g.exec (fun _ => v.setWidth 128) }] }

/-- `MTSR`: a write to `SMODE` is ignored (R7). -/
def mtsrBody (r : Opd) (num : BitVec 16) : Body := fun s g =>
  if g.mode ≠ .supervisor then .error (trapOf .priv)
  else
    let v := g.uni64 r
    match num.toNat with
    | 0x0000 => .ok { s := s.modCore (g.core.getD 0) (fun c => { c with svec := v }), g := g }
    | 0x0010 => .ok { s := s, g :=
        match g.hset with
        | some sh => { g with hset := some { sh with ret := v } }
        | none => { g with hret := some v } }
    | 0x0011 => .ok { s := s, g := { g with sset := g.sset.map (fun sh => { sh with ret := v }) } }
    | 0x0012 => .ok { s := s, g := g }
    | _ => .error (trapOf .illop)

/-! ## Invalidation and events (R409, R415) -/

/-- `TLBINV`: it waits until `TLBINV_COMPLETE`. -/
def tlbinvBody (h : Hdr) (scope : TlbScope) (r : Opd) : Body := fun s g =>
  if g.mode ≠ .supervisor then .error (trapOf .priv)
  else .ok { s := s, g := g, wait := some (.tlbinv scope (g.uni64 r) h.sw) }

/-- `WAITEV`. -/
def waitevBody (r : Opd) (mask : BitVec 16) : Body := fun s g =>
  let got := g.evpend &&& mask
  if got = 0 then .ok { s := s, g := g, wait := some .barrier, hold := true }
  else
    .ok { s := s, g := { g with evpend := g.evpend &&& ~~~mask },
          long := [{ writes := g.writesTo r false 64 g.exec (fun _ => got.setWidth 128) }] }

/-! ## Instructions -/

def execEret (h : Hdr) (s : State) : Host.Outcome State Fault Refusal :=
  issue s (.eret h) h false (eretBody h .plain)

def execEretSkip (h : Hdr) (s : State) : Host.Outcome State Fault Refusal :=
  issue s (.eretSkip h) h false (eretBody h .skip)

def execEretFwd (h : Hdr) (s : State) : Host.Outcome State Fault Refusal :=
  issue s (.eretFwd h) h false (eretBody h .fwd)

def execMfsr (h : Hdr) (r : Opd) (num : BitVec 16) (s : State) : Host.Outcome State Fault Refusal :=
  issue s (.mfsr h r num) h false (mfsrBody r num)

def execMtsr (h : Hdr) (r : Opd) (num : BitVec 16) (s : State) : Host.Outcome State Fault Refusal :=
  issue s (.mtsr h r num) h false (mtsrBody r num)

def execTlbinv (h : Hdr) (scope : TlbScope) (r : Opd) (s : State) : Host.Outcome State Fault Refusal :=
  issue s (.tlbinv h scope r) h false (ordered (tlbinvBody h scope r))

def execWaitev (h : Hdr) (r : Opd) (evmask : BitVec 16) (s : State) : Host.Outcome State Fault Refusal :=
  issue s (.waitev h r evmask) h false (waitevBody r evmask)

end Sys2Proof.Machine
end

