-- ==== Sys2Proof/Machine/Copy.lean ====
section
/-! DEFINITION. Copy commands: their check and publication by `NOTIFY` (R284, R285), the entropy decoder (R85 to R88), starting,
landing and completion (R286 to R291), a ring's stall (R281). -/

namespace Sys2Proof.Machine

/-! ## Publication (R284) -/

/-- A read of the own slice by `NOTIFY`, or its poison. -/
def State.ownWords (s : State) (core off n : Nat) : Except Trap (List Byte) :=
  match s.poisonIn (scrLoc core off) n with
  | some u => .error (trapAt .poison (localAddr (u - scrLoc core 0)))
  | none => .ok (Memory.readN s.mem (scrLoc core off) n)

/-- The number of four bytes at each of some places of a list. -/
def wordsOf (bs : List Byte) (n : Nat) : List Word32 :=
  (List.range n).map (fun k => BitVec.ofNat 32 (natOf ((bs.drop (4 * k)).take 4)))

/-- Probe every range of a command, reads then writes, then the map bytes (R284). -/
def State.probeCmd (s : State) (a : Accessor) (c : Cmd) : Except Trap (List Page) := do
  let p1 ← c.reads.foldlM (fun ps r => s.probe a .read r.1 r.2 ps) []
  let p2 ← c.writes.foldlM (fun ps r => s.probe a .write r.1 r.2 ps) p1
  s.probeMap a c.recBits ((List.range (if eKind c.entry = 4 then c.units else 0)).flatMap c.tilesOf) p2

/-- Entry i of a ring checked, captured and probed (R284, steps 1 to 4); stamps come later. -/
def State.checkEntry (s : State) (g : Group) (t : Team) (r : Ring) (i : Nat) : Except Trap Cmd := do
  let core := g.core.getD 0
  let v := s.valsOf t
  let e : Entry := BitVec.ofNat 256 (natOf (← s.ownWords core (r.entry i) 32))
  if !entryOk v e || (eArrv e && !s.ownRange t core (16 * eBar e) 16) then .error (trapOf .badcmd)
  else
    let trec ← if eKind e = 3 || eKind e = 4 then (t.tensor (eTid e)).map (fun b => some (TRec.mk (eTid e) b)) else .ok none
    let tile := if eKind e = 7 then vget g.t (eTid e).toNat none else none
    if eKind e = 7 && tile.isNone then .error (trapOf .badtile)
    else if (match trec with | some b => !tensorOk e b.bits | none => false) then .error (trapOf .badcmd)
    else
      let rows := if eKind e = 1 || eKind e = 2 then eCount e else 0
      if rows ≠ 0 && !s.ownRange t core (4 * eIdx e) (4 * rows) then .error (trapOf .badcmd)
      else
        let idx := wordsOf (← s.ownWords core (4 * eIdx e) (4 * rows)) rows
        let c : Cmd :=
          { id := 0, core := core, team := t.id, launch := t.launch, cohort := s.cohortOf t, part := s.partOf t,
            issuer := g.id, gid16 := g.gid16, entry := e, index := BitVec.ofNat 32 i, header := localAddr r.off, recOff := r.record i, idx := idx,
            trec := trec, tile := tile, pages := [], tstamp := s.time, seqno := 0, spord := 0, batch := none,
            started := false, landed := [], poison := false, decodeFail := false, dts := none, dtsBad := [],
            past := false }
        let ps ← s.probeCmd (s.accessor g) c
        .ok { c with pages := ps }

/-- A fault names the entry it is of (R403). -/
def ofEntry (i : Nat) (r : Except Trap Cmd) : Except Trap Cmd :=
  match r with
  | .error t => .error { t with detail := BitVec.ofNat 32 i }
  | .ok c => .ok c

/-- Steps 5 and 6 of a command: its lines become empty, its stamps are taken, it joins the engine's commands. -/
def State.publish (s : State) (g : Group) (spord : Word32) (c : Cmd) : State :=
  let lines := if eEmp c.entry then c.writes.flatMap (fun r => c.reach.lines r.1 r.2) else []
  let s1 := lines.foldl (fun s l => s.setEmpty l) s
  let (seq, s2) := s1.nextSeq g
  { s2 with cmds := s2.cmds ++ [{ c with id := s2.nextId, seqno := seq, spord := spord }], nextId := s2.nextId + 1 }

/-- The probes of some pages, as accesses that look translations up and neither read nor write. -/
def pageTouches (ps : List Page) : List Touch :=
  ps.map (fun p => ⟨BitVec.ofNat 64 (p.va * 2 ^ 16), 1, false, false⟩)

/-- `NOTIFY` (R284). A fault of the ring as a whole names the first entry not published. -/
def notifyBody (h : Hdr) (d : Opd) (a : MemOpd) : Body := fun s g =>
  let va := g.ea a 0
  let bad (c : Cause) (addr : Word64) : Except Trap Done :=
    .error { cause := c, addr := addr, detail := s.headerWord g va 4 }
  match s.ring g va with
  | .error (c, addr) => bad c addr
  | .ok r => do
  let n := (g.uni64 d).toNat % 2 ^ 32
  let c := (n + 2 ^ 32 - r.notw) % 2 ^ 32
  if c = 0 then .ok { s := s, g := g }
  else if r.unpub < c then bad .badring va
  else
    match s.team? g.team with
    | none => .ok { s := s, g := g }
    | some t =>
      let is := (List.range c).map (fun k => (r.notw + k) % 2 ^ 32)
      let cs ← is.mapM (fun i => ofEntry i (s.checkEntry g t r i))
      let spord := spordOf (if h.st then s.ordinal g g.pc else none)
      let s1 := cs.foldl (fun s c => s.publish g spord c) s
      .ok { s := s1.writeNat (scrLoc (g.core.getD 0) (r.off + 4)) 4 n, g := g,
            touches := cs.flatMap (fun c => pageTouches c.pages) ++ [⟨va + 4, 4, false, true⟩] }

/-! ## The entropy decoder (R85 to R87) -/

/-- Bit p of a coded stream, the first bit of a byte being bit 7; 0 beyond its end. -/
def streamBit (bs : List Byte) (p : Nat) : Nat :=
  ((bs.getD (p / 8) 0).getLsbD (7 - p % 8)).toNat

/-- The n bits from p on, the first as the top bit. -/
def streamBits (bs : List Byte) (p n : Nat) : Nat :=
  (List.range n).foldl (fun v k => 2 * v + streamBit bs (p + k)) 0

/-- What the entry at a bit of the stream gives: its elements and the bits used, or none where the decode fails (R86, R87). -/
def decodeAt (table : List Word32) (bs : List Byte) (w count pos n : Nat) : Option (List Nat × Nat) :=
  let ent := table.getD (streamBits bs pos 8) 0
  let len := bitsN ent 31 28
  let kind := bitsN ent 27 26
  let val := bitsN ent 15 0
  let used := len + (if kind = 2 then w else 0)
  if len = 0 || 8 * bs.length < pos + used || kind = 3 || (kind = 1 && count < n + val + 1) then none
  else
    some (match kind with
      | 0 => [val % 2 ^ w]
      | 1 => List.replicate (val + 1) 0
      | _ => [streamBits bs (pos + len) w], used)

/-- The element codes decoded, and whether the decode failed (R87). Every round adds an element, so fuel is the
elements left. -/
def decodeLoop (table : List Word32) (bs : List Byte) (w count : Nat) : Nat → Nat → Nat → List Nat × Bool
  | 0, _, _ => ([], false)
  | fuel + 1, pos, n =>
    if count ≤ n then ([], false)
    else
      match decodeAt table bs w count pos n with
      | none => ([], true)
      | some (out, used) =>
        let (rest, bad) := decodeLoop table bs w count fuel (pos + used) (n + out.length)
        (out ++ rest, bad)

/-- The entries that a decode looks up. -/
def decodeUses (table : List Word32) (bs : List Byte) (w count : Nat) : Nat → Nat → Nat → List Nat
  | 0, _, _ => []
  | fuel + 1, pos, n =>
    if count ≤ n then []
    else
      streamBits bs pos 8 ::
        (match decodeAt table bs w count pos n with
         | none => []
         | some (out, used) => decodeUses table bs w count fuel (pos + used) (n + out.length))

/-- Codes of w bits, 4 or 8, as bytes: two of 4 bits in a byte, the first low (R71). -/
def packCodes (w : Nat) (l : List Nat) (bytes : Nat) : List Byte :=
  (List.range bytes).map (fun k =>
    if w = 4 then BitVec.ofNat 8 (l.getD (2 * k) 0 + 16 * l.getD (2 * k + 1) 0) else BitVec.ofNat 8 (l.getD k 0))

/-! ## Landing (R286 to R288) -/

/-- A row that a later row of the same index has already written (R287). -/
def Cmd.overtaken (c : Cmd) (u : Nat) : Bool :=
  eKind c.entry == 2 && c.landed.any (fun r => u < r && c.rowIndex r == c.rowIndex u)

/-- The bytes of a tile row that stay as another row of the tile wrote them (R382). -/
def Cmd.tileKeeps (c : Cmd) (n : Nat) (u k : Nat) : Bool :=
  eKind c.entry == 7 && Config.tileByte n k &&
    (match c.dstOf u with
     | some d =>
       let loc := pageLoc (some c.core) c.pages (plus d.1 k)
       c.landed.any (fun r =>
         match c.dstOf r with
         | some (a, m) => (List.range m).any (fun j => pageLoc (some c.core) c.pages (plus a j) == loc)
         | none => false)
     | none => false)

/-- The decode tables of a command's team, which outlive the team with the command (R87, R291). -/
def State.tablesOf (s : State) (c : Cmd) : List (List Word32) :=
  match c.dts, s.team? c.team with
  | some d, _ => d
  | none, some t => t.dts
  | none, none => []

/-- The entries of one of them that carry poison (R420). -/
def State.badEntries (s : State) (c : Cmd) (tab : Nat) : List Nat :=
  let bad := match c.dts, s.team? c.team with
    | none, some t => t.dtsBad
    | _, _ => c.dtsBad
  (bad.filter (fun e => e.1 == tab)).map (·.2)

/-- The bytes a unit brings, the numbers of those that carry poison, and whether a decode failed. -/
def State.unitBytes (s : State) (c : Cmd) (u : Nat) : List Byte × List Nat × Bool :=
  let n := match c.dstOf u with | some d => d.2 | none => 0
  if eKind c.entry = 1 && u = eCount c.entry then
    ((List.range n).map (fun k =>
      BitVec.ofNat 8 ((List.range 8).foldl (fun v b =>
        if 8 * k + b < eCount c.entry && c.fate (8 * k + b) = .outside then v + 2 ^ b else v) 0)), [], false)
  else
    match c.srcOf u with
    | none => (List.replicate n 0, [], false)
    | some src =>
      let bs := s.reachRead c.reach src.1 src.2
      let ps := s.reachPoison c.reach src.1 src.2
      if c.decodes then
        let w := tWidth c.recBits
        let table := (s.tablesOf c).getD (tEtab c.recBits) []
        let (codes, bad) := decodeLoop table bs w (eCount c.entry) (eCount c.entry) 0 0
        let uses := decodeUses table bs w (eCount c.entry) (eCount c.entry) 0 0
        let clean := ps.isEmpty && !uses.any (s.badEntries c (tEtab c.recBits)).contains
        (packCodes w codes n, if clean then [] else List.range n, bad)
      else (bs, ps, false)

/-- The destination takes a unit's bytes; those of a tile that another row keeps stay. -/
def State.writeUnit (s : State) (c : Cmd) (u : Nat) (bs : List Byte) (ps : List Nat) : State :=
  match c.dstOf u with
  | none => s
  | some d =>
    if eKind c.entry = 7 then
      let old := s.reachRead c.reach d.1 d.2
      let oldPs := s.reachPoison c.reach d.1 d.2
      let keep := (List.range d.2).filter (c.tileKeeps s.freeCtr u)
      let new := (List.range d.2).map (fun k => if keep.contains k then old.getD k 0 else bs.getD k 0)
      ((s.reachWrite c.reach d.1 new).reachMark c.reach d.1
        ((ps.filter (fun k => !keep.contains k)) ++ oldPs.filter (fun k => keep.contains k)))
    else (s.reachWrite c.reach d.1 bs).reachMark c.reach d.1 ps

/-- The unit's effect on a table or a scale window, which keep the poison of what they take (R85, R283, R420). -/
def State.loadUnit (s : State) (c : Cmd) (bs : List Byte) (ps : List Nat) : State :=
  match eKind c.entry with
  | 5 =>
    let tab := (eTid c.entry).toNat
    let new (l : List (List Word32)) : List (List Word32) := l.set tab (wordsOf bs 256)
    let mark (l : List (Nat × Nat)) : List (Nat × Nat) :=
      l.filter (fun e => e.1 != tab) ++ (ps.map (fun k => (tab, k / 4))).eraseDups
    let s1 := s.modTeam c.team (fun t => { t with dts := new t.dts, dtsBad := mark t.dtsBad })
    { s1 with cmds := s1.cmds.map (fun d =>
        if d.team == c.team && d.dts.isSome then { d with dts := d.dts.map new, dtsBad := mark d.dtsBad } else d) }
  | 6 => s.modTeam c.team (fun t =>
      let o := (eDst c.entry).toNat
      { t with scale := t.scale.take o ++ bs ++ t.scale.drop (o + bs.length)
               scaleBad := t.scaleBad.filter (fun k => k < o || o + bs.length ≤ k) ++ ps.map (o + ·) })
  | _ => s

/-- Lines of a unit that are full once it has landed: every unit that writes in them has (R288). -/
def Cmd.fullLines (c : Cmd) (u : Nat) : List Nat :=
  match c.dstOf u with
  | none => []
  | some d =>
    (c.reach.lines d.1 d.2).filter (fun l =>
      eKind c.entry == 0 ||
      (List.range c.units).all (fun w =>
        w == u || c.landed.contains w ||
          (match c.dstOf w with | some x => !(c.reach.lines x.1 x.2).contains l | none => true)))

/-- A saturating count of 16 bits. -/
def sat16 (n : Nat) : Nat :=
  min 65535 n

/-- An engine's n arrivals at a barrier object as it stands: words 1 to 3 of it are written, so that its poison stays (R420),
and the end of a phase wakes the groups registered there (R278). -/
def State.putArrival (s : State) (loc : Nat) (b : Barrier) (n : Nat) : State :=
  let c := b.arrive n
  let s1 := s.write (loc + 4) (bytesOf 4 c.arrived ++ bytesOf 4 c.phase ++ bytesOf 2 c.noor ++ bytesOf 2 c.nskip)
  if b.ends n then { s1 with phases := bump loc s1.phases } else s1

/-- The arrival of a row with its count (R287), or of a whole command. -/
def State.cmdArrive (s : State) (c : Cmd) (fate : Fate) : State :=
  if eArrv c.entry then
    let loc := scrLoc c.core (16 * eBar c.entry)
    let b := s.barrier loc
    let b1 := { b with
      nskip := if fate = Fate.skipped then sat16 (b.nskip + 1) else b.nskip
      noor := if fate = Fate.outside then sat16 (b.noor + 1) else b.noor }
    s.putArrival loc b1 1
  else s

/-- The words of its barrier object that a command's arrival writes, for the watchpoints (R428). -/
def Cmd.arrival (c : Cmd) : List Range :=
  if eArrv c.entry then [(localAddr (16 * eBar c.entry + 4), 12)] else []

/-- Is it a kind whose rows arrive one by one (R287, R288)? -/
def Cmd.byRows (c : Cmd) : Bool :=
  eKind c.entry == 1 || eKind c.entry == 2

/-- Does a unit arrive on the barrier object: a row does, the status map does not? -/
def Cmd.rowArrives (c : Cmd) (u : Nat) : Bool :=
  (eKind c.entry == 1 && u < eCount c.entry) || eKind c.entry == 2

/-- A unit of a command lands: bytes and map bits, full bits, the arrival of a row (R288, steps 1 to 3) (log entry 53, DEDUCED).
All that it writes can hit (R428). -/
def State.land (s : State) (c : Cmd) (u : Nat) : State :=
  let (bs, ps, bad) := s.unitBytes c u
  let skip := c.overtaken u
  let s1 := if skip then s else (s.writeUnit c u bs ps).loadUnit c bs ps
  let s2 := s1.clearTiles c.reach c.recBits (c.tilesOf u)
  let s3 := (c.fullLines u).foldl (fun s l => s.setFull l) s2
  let s4 := if c.rowArrives u then s3.cmdArrive c (c.fate u) else s3
  let s5 := s4.modCmd c.id (fun c =>
    { c with landed := c.landed ++ [u], poison := c.poison || !ps.isEmpty, decodeFail := c.decodeFail || bad })
  let s6 := s5.watchEngine c.fork ((if skip then [] else (c.dstOf u).toList) ++ c.mapOf u ++
    (if c.rowArrives u then c.arrival else []))
  if eKind c.entry = 7 then { s6 with freeCtr := s6.freeCtr + 1 } else s6

/-! ## Starting and completing (R85, R286 to R291) -/

/-- May a command start: every earlier one of its engine has, and the table rule holds (R85, R286)? A saved table load holds
back the later commands of its team, and only those (log entry 50, DEDUCED). -/
def State.mayStart (s : State) (c : Cmd) : Bool :=
  let before := (s.cmds.takeWhile (fun d => d.id != c.id)).filter (fun d => d.core == c.core)
  let load (d : Cmd) : Bool := eKind d.entry == 5
  !c.started && before.all (fun d => if s.cmdAway d then d.team != c.team || !load d else d.started && !load d) &&
  (!load c || before.all (fun d => !(d.decodes && d.team == c.team && tEtab d.recBits == (eTid c.entry).toNat))) &&
  s.cmdPlaced c

/-- The status of a completed command (R289). -/
def Cmd.status (c : Cmd) : Nat :=
  let oor := (eKind c.entry == 1 || eKind c.entry == 2) &&
    (List.range (eCount c.entry)).any (fun r => c.fate r == .outside)
  c.decodeFail.toNat + 2 * oor.toNat + 4 * c.poison.toNat

/-- The completion record (R289). -/
def Cmd.record (c : Cmd) (now : Word64) : List Byte :=
  bytesOf 8 c.tstamp.toNat ++ bytesOf 6 c.seqno.toNat ++ bytesOf 2 c.status ++ bytesOf 4 c.spord.toNat ++
    bytesOf 4 (if eKind c.entry = 1 || eKind c.entry = 2 then eCount c.entry else 0) ++ bytesOf 8 now.toNat

/-- The report of a failed decode (R88, R449). -/
def State.logDecode (s : State) (c : Cmd) : State :=
  s.log { die := dieOf c.core, kind := 5, part := c.part, gid := c.gid16, unit := dieOf c.core * 4096 + c.core % 68,
          aux := c.index.toNat, team := some c.team,
          data := bytesOf 8 c.header.toNat ++ bytesOf 8 c.tstamp.toNat ++ bytesOf 6 c.seqno.toNat ++ bytesOf 2 0 ++
            bytesOf 4 c.spord.toNat }

/-- Steps 4 to 6 of R288: the record, the arrival, the share of the batch; what is written can hit (R428). -/
def State.completeCmd (s : State) (c : Cmd) : State :=
  let s1 := s.write (scrLoc c.core c.recOff) (c.record s.time)
  let s2 := (if c.byRows then s1 else s1.cmdArrive c .moved).watchEngine c.fork
    ((localAddr c.recOff, 32) :: (if c.byRows then [] else c.arrival))
  let s3 := { s2 with cmds := s2.cmds.filter (fun d => d.id != c.id) }
  if c.decodeFail then s3.logDecode c else s3

def State.cmd? (s : State) (id : Nat) : Option Cmd :=
  s.cmds.find? (fun c => c.id == id)

/-! ## Stalls -/

/-- The clocks since a time (R281, R396) (log entry 6, DESIGN CHOICE). -/
def State.clocksSince (s : State) (t : Word64) : Nat :=
  (s.time - t).toNat * s.clock / 1000

/-- A stall of a group: one entry of the log (R281, R396, R449). -/
def State.logStall (s : State) (g : Group) (kind : Nat) (addr : Word64) : State :=
  let core := g.core.getD 0
  s.log { die := dieOf core, kind := kind, part := (s.accessor g).part, gid := g.gid16,
          unit := dieOf core * 4096 + core % 68, data := bytesOf 8 addr.toNat, team := some g.team }

/-! ## Instructions and events -/

def execNotify (h : Hdr) (scope : Scope) (d : Opd) (a : MemOpd) (s : State) : Host.Outcome State Fault Refusal :=
  issue s (.notify h scope d a) h false (ordered (notifyBody h d a))

def execCopyCommandStart (cmd : Nat) (s : State) : Host.Outcome State Fault Refusal :=
  match s.cmd? cmd with
  | some c => .next (if s.mayStart c then s.modCmd cmd (fun c => { c with started := true }) else s)
  | none => .next s

def execCopyUnitLand (cmd : Nat) (unit : Nat) (s : State) : Host.Outcome State Fault Refusal :=
  match s.cmd? cmd with
  | some c => .next (if c.started && unit < c.units && !c.landed.contains unit then s.land c unit else s)
  | none => .next s

def execCopyCommandComplete (cmd : Nat) (s : State) : Host.Outcome State Fault Refusal :=
  match s.cmd? cmd with
  | some c => .next (if c.started && c.landed.length = c.units then s.completeCmd c else s)
  | none => .next s

/-- `RINGSTALL` (R281): once for a wait of 2^24 clocks with `NOTW` unchanged. -/
def execRingstall (gid : Nat) (s : State) : Host.Outcome State Fault Refusal :=
  match s.group? gid with
  | none => .next s
  | some g =>
    match g.wait with
    | some (.ring since header notw logged) =>
      let off := header.toNat - LOCAL_BASE
      let now := s.readNat (scrLoc (g.core.getD 0) (off + 4)) 4
      if !logged && now = notw.toNat && g.core.isSome && 2 ^ 24 ≤ s.clocksSince since then
        .next ((s.setGroup { g with wait := some (.ring since header notw true) }).logStall g 6 header)
      else .next s
    | _ => .next s

end Sys2Proof.Machine
end

