-- ==== Sys2Proof/Machine/Matrix.lean ====
section
/-! DEFINITION. The matrix array and the tensor instructions (R327 to R345): gangs, `MMA`, accumulator tiles, `BDOT`,
identifiers, `HADQ`, `ZMAP`. -/

namespace Sys2Proof.Machine

/-! ## Shared pieces -/

/-- An instruction that held its group completes: its pc moves on and its results are delivered at `SW` = 1. -/
def State.finishHeld (s : State) (g : Group) (sw : Bool) : State :=
  s.finish { g with wait := none } { pm := 0, pn := false, sw := sw, uni := false, tr := false, st := true } [] [] none none

/-- Accumulator tiles of a core. -/
def TILES : Nat := 192

/-- A tile of zeros (R329). -/
def Tile.zero : Tile :=
  { rows := Vector.replicate 8 vzero, type := .clear, poison := false }

/-- Tile t of a member. -/
def Gang.tile (k : Gang) (member t : Nat) : Tile :=
  (k.tiles.getD member []).getD t Tile.zero

def Gang.setTile (k : Gang) (member t : Nat) (x : Tile) : Gang :=
  { k with tiles := k.tiles.set member ((k.tiles.getD member []).set t x) }

/-- The core of a gang's members. -/
def State.gangCore (s : State) (k : Gang) : Option Nat :=
  match k.members with
  | [] => none
  | i :: _ => (s.group? i).bind (fun g => g.core)

/-- The tiles that the gangs of a core hold. -/
def State.tilesUsed (s : State) (core : Nat) : Nat :=
  ((s.gangs.filter (fun k => s.gangCore k == some core)).map (fun k => k.members.length * k.per)).sum

/-! ## `GANG` (R329, R330) -/

/-- The tiles per member of a gang word. -/
def gangPer (w : Word64) : Nat :=
  bitsN w 39 32

/-- The groups of a team that a gang word lists, in list order. -/
def State.listed (s : State) (team : Nat) (w : Word64) : List Group :=
  (gangList w).filterMap (fun i =>
    s.groups.find? (fun h => h.team == team && h.index.toNat == i && (match h.kind with | .launched => true | _ => false)))

/-- Is a forming word in order for its group (R329)? -/
def gangWordOk (g : Group) (tgrp : Nat) (w : Word64) : Bool :=
  let l := gangList w
  2 ≤ gangCnt w && gangCnt w ≤ 6 && bitsN w 63 40 == 0 && bitsN w 28 24 == 0 && bitsN g.gmem 31 29 == 0 &&
  l.all (fun i => i < tgrp) && l.eraseDups.length == l.length && l.contains g.index.toNat &&
  bitsN w 23 0 < 2 ^ (4 * gangCnt w) && 1 ≤ gangPer w && gangPer w ≤ 32

/-- Does a listed group wait with another word? -/
def State.otherWord (s : State) (g : Group) (w : Word64) : Bool :=
  (s.listed g.team w).any (fun h => match h.wait with | some (.gang v _) => v != w | _ => false)

/-- Do all listed groups but this one wait with the word? -/
def State.othersWait (s : State) (g : Group) (w : Word64) : Bool :=
  let l := s.listed g.team w
  l.length == gangCnt w &&
    l.all (fun h => h.id == g.id || (match h.wait with | some (.gang v _) => v == w | _ => false))

/-- May the group issue `GANG` at all (R329)? -/
def Group.mayGang (g : Group) : Bool :=
  (match g.kind with | .launched => true | _ => false) && g.depth == 0

/-- `GANG`: it stays at its slot until the gang forms or dissolves; the last of the listed groups makes the request for
the tiles (R329, R330). -/
def gangBody (h : Hdr) (a : Opd) : Body := fun s g =>
  let w := g.uni64 a
  let bad : Except Trap Done := .error (trapOf .gangmis)
  if !g.mayGang then bad
  else if gangCnt w = 0 then
    match g.gang with
    | some k =>
      if w = 0 then
        .ok { s := s.modGang k (fun k => { k with dissolving := k.dissolving ++ [g.id] }), g := g,
              wait := some (.dissolve h.sw false), hold := true }
      else bad
    | none => bad
  else if !gangWordOk g (match s.team? g.team with | some t => (s.valsOf t).tgrp | none => 0) w || s.otherWord g w then bad
  else
    let s1 := if s.othersWait g w then
        s.modCore (g.core.getD 0) (fun c => { c with tileReqs := c.tileReqs ++ [⟨g.id, gangCnt w * gangPer w, c.fired⟩] })
      else s
    .ok { s := s1, g := g, wait := some (.gang w h.sw), hold := true }

/-- The gang of a granted request forms (R329): in every member at once. -/
def State.formGang (s : State) (team : Nat) (w : Word64) : State :=
  let l := s.listed team w
  let k : Gang :=
    { id := s.nextId, team := team, members := l.map (fun h => h.id), per := gangPer w,
      tiles := List.replicate l.length (List.replicate (gangPer w) Tile.zero), latches := [], dissolving := [],
      subs := List.range l.length }
  let s1 := { s with gangs := s.gangs ++ [k], nextId := s.nextId + 1 }
  l.zipIdx.foldl (fun s (h0, i) =>
    let h := (s.group? h0.id).getD h0
    let sw := match h.wait with | some (.gang _ sw) => sw | _ => false
    s.finishHeld { h with gmem := BitVec.ofNat 32 (w.toNat % 2 ^ 32 + i * 2 ^ 26), gang := some k.id } sw) s1

/-- Tiles are granted in request order: the oldest request of the core, when the free tiles cover it (R330). -/
def State.grantTiles (s : State) (core : Nat) : State :=
  match (s.core core).tileReqs with
  | [] => s
  | r :: rest =>
    if s.tilesUsed core + r.blocks ≤ TILES then
      let s1 := s.modCore core (fun c => { c with tileReqs := rest, growing := false })
      match s1.group? r.gid with
      | some g =>
        match g.wait with
        | some (.gang w _) => if s.haltReached g then s else s1.formGang g.team w
        | _ => s1
      | none => s1
    else s

/-- A member leaves its dissolved gang: it goes on behind its `GANG`, or exits (R329, R330). -/
def State.leaveGang (s : State) (gid : Nat) : State :=
  match s.group? gid with
  | none => s
  | some g =>
    let g1 := { g with gmem := 0, gang := none }
    match g.wait with
    | some (.dissolve sw false) => s.finishHeld g1 sw
    | some (.dissolve _ true) => (s.countIssue (g.core.getD 0)).exitGroup { g1 with wait := none }
    | _ => s.setGroup g1

/-! ## `MMA`: operands (R331, R332) -/

/-- Bytes of an A row. -/
def rowLen : FTy → Nat
  | .dxb8 => 68
  | .dxb4 => 72
  | _ => 64

/-- Products of a chunk (R66). -/
def chunkOf : FTy → Nat
  | .e2m1 | .dxb4 => 16
  | .e4m3 | .e5m2 | .dxb8 => 8
  | .bf16 | .f16 => 4
  | .mi8 | .mn8 => 64
  | _ => 1

/-- Bits of an element. -/
def elemBits : FTy → Nat
  | .e2m1 | .dxb4 => 4
  | .bf16 | .f16 => 16
  | .f32 => 32
  | .f64 => 64
  | _ => 8

def isDxb (ty : FTy) : Bool :=
  ty == .dxb8 || ty == .dxb4

/-- The codes of n elements packed from a byte on (R71, R332). -/
def elemCodes (ty : FTy) (bs : List Byte) (n : Nat) : List Nat :=
  let w := elemBits ty
  (List.range n).map (fun k =>
    if w = 4 then bitsN (bs.getD (k / 2) 0) (4 * (k % 2) + 3) (4 * (k % 2))
    else natOf ((bs.drop (k * w / 8)).take (w / 8)))

/-- The values of an A row. -/
def rowVals (ty : FTy) (bs : List Byte) (k : Nat) : List FVal :=
  if isDxb ty then
    (List.range (k / 32)).flatMap (fun b =>
      let blk := bs.drop (b * (2 + 4 * elemBits ty))
      (elemCodes ty (blk.drop 2) 32).map (elemVal ty (natOf (blk.take 2))))
  else (elemCodes ty bs k).map (elemVal ty 0)

/-- The bytes of column n of B: the shares of the holders, in order (R332). -/
def colBytes (parts : List MmaPart) (count n : Nat) : List Byte :=
  let h := holdersOf count
  (List.range h).flatMap (fun j =>
    match parts.find? (fun p => p.member == j) with
    | some p => (p.b.take (16 / h)).flatMap (fun v => bytesOf 4 (vlane v n).toNat)
    | none => [])

/-- The header of block b of column n. -/
def colHeader (parts : List MmaPart) (count n b : Nat) : Nat :=
  match parts.find? (fun p => p.member == 0) with
  | some p => (vlane (p.b.getD (16 / holdersOf count + b / 2) vzero) n).toNat / 2 ^ (16 * (b % 2)) % 2 ^ 16
  | none => 0

/-- The values of column n of B. -/
def colVals (ty : FTy) (parts : List MmaPart) (count k n : Nat) : List FVal :=
  (elemCodes ty (colBytes parts count n) k).zipIdx.map (fun (c, i) =>
    elemVal ty (if isDxb ty then colHeader parts count n (i / 32) else 0) c)

/-! ## `MMA`: the arithmetic (R66, R67, R334, R335) -/

/-- The parts of length n of two lists, side by side. -/
def chunksOf (n : Nat) (a b : List FVal) : List (List (FVal × FVal)) :=
  (List.range ((a.length + n - 1) / max 1 n)).map (fun i => ((a.drop (i * n)).take n).zip ((b.drop (i * n)).take n))

/-- Is the part of index i, of n elements, in a span that is skipped (R335)? -/
def spanSkipped (skipA skipB : List Bool) (n i : Nat) : Bool :=
  skipA.getD (i * n / 64) false || skipB.getD (i * n / 64) false

/-- An accumulator after the chunks of R66; a signalling NaN that an update meets sets `INVALID` (R48). -/
def unscaledAcc (f : Fmt) (n : Nat) (skipA skipB : List Bool) (a b : List FVal) (acc : FVal) : FVal × FFlags :=
  (chunksOf n a b).zipIdx.foldl (fun (r : FVal × FFlags) (c, i) =>
    if spanSkipped skipA skipB n i then r
    else
      let sum := sumProducts c
      let x := accAdd f r.1 sum.1
      (x.1, r.2 ||| x.2 ||| flagIf sum.2 fInvalid ||| snanFlag (r.1 :: c.flatMap (fun p => [p.1, p.2])))) (acc, 0)

/-- What a scaled product needs beside its elements: block size, the scales of each block, the tensor scales. -/
structure Scales where
  bs : Nat
  a : Nat → FVal
  b : Nat → FVal
  ta : FVal
  tb : FVal
  tsc : FVal × FFlags

/-- An accumulator after the blocks of R67. -/
def scaledAcc (x : Scales) (skipA skipB : List Bool) (a b : List FVal) (acc : FVal) : FVal × FFlags :=
  (chunksOf x.bs a b).zipIdx.foldl (fun (r : FVal × FFlags) (c, i) =>
    if spanSkipped skipA skipB x.bs i then r
    else
      let term := blockTerm (sumProducts c) (x.a i) (x.b i) x.ta x.tb x.tsc
      let y := accAdd fmtF32 r.1 term.1
      (y.1, r.2 ||| term.2 ||| y.2 ||| snanFlag [r.1])) (acc, 0)

/-- An INT32 accumulator after its products (R66, R331). -/
def intAcc (a b : List FVal) (acc : Word32) : Word32 :=
  match (sumProducts (a.zip b)).1 with
  | .fin n m e => let v : Int := ((m * 2 ^ e.toNat : Nat) : Int); acc + BitVec.ofInt 32 (if n then -v else v)
  | _ => acc

/-- The block scale at a position, from the team's scale window (R76). -/
def Team.blockScale (t : Team) (r : TBits) (p : Pos) : FVal :=
  scaleVal (tBsf r) (t.scale.getD (tSmb r + blockIndex r p) 0).toNat

/-- The byte of the scale window that a position takes, if it takes one. -/
def scaleByte (r : TBits) (p : Pos) : Option Nat :=
  if tBlk r = 0 then none else some (tSmb r + blockIndex r p)

/-- The bytes of the scale window that a latch reads: of every row of A and every column of B, but for the spans skipped (R334,
R335). -/
def Latch.scaleBytes (l : Latch) : List Nat :=
  match l.recA, l.recB with
  | some ra, some rb =>
    let bs := tBs ra
    let of (r : TBits) (p : Pos) (skip : List Bool) : List Nat :=
      (List.range (l.ref.k / max 1 bs)).filterMap (fun c =>
        if spanSkipped skip [] bs c then none else scaleByte r { p with i0 := l.ref.k0.toNat + c * bs })
    l.parts.flatMap (fun p => (List.range 8).flatMap (fun row =>
      let q := posOf p.posA
      of ra { q with i1 := q.i1 + row } (l.skipA.getD p.member []))) ++
    (List.range 64).flatMap (fun col =>
      let q := posOf l.ref.posB
      of rb { q with i1 := q.i1 + col } (l.skipB.getD (col / 8) []))
  | _, _ => []

/-- The scales of a row of A against a column of B (R334). -/
def mmaScales (t : Team) (l : Latch) (ra rb : TBits) (posA : Word64) (row col : Nat) : Scales :=
  let pa := posOf posA
  let pb := posOf l.ref.posB
  let ta := tensorScale (tTsf ra) l.ref.scaleA
  let tb := tensorScale (tTsf rb) l.ref.scaleB
  let bs := tBs ra
  { bs := bs
    a := fun i => t.blockScale ra { pa with i0 := l.ref.k0.toNat + i * bs, i1 := pa.i1 + row }
    b := fun i => t.blockScale rb { pb with i0 := l.ref.k0.toNat + i * bs, i1 := pb.i1 + col }
    ta := ta, tb := tb, tsc := tensorScales (tTsf ra) (tTsf rb) ta tb }

/-- One element of the product: the code of the accumulator and the flags (R334). -/
def mmaElem (t : Team) (l : Latch) (p : MmaPart) (skipA : List Bool) (row col : Nat) (a b : List FVal) (old : Nat) :
    Nat × FFlags :=
  let ty := l.ref.ty
  let skipB := l.skipB.getD (col / 8) []
  match ty with
  | .mi8 | .mn8 => ((intAcc a b (BitVec.ofNat 32 old)).toNat, 0)
  | _ =>
    let f := if ty = .f64 then fmtF64 else fmtF32
    let acc := f.decode old
    let r :=
      match l.recA, l.recB with
      | some ra, some rb =>
        if tBlk ra = 0 then unscaledAcc f (chunkOf ty) skipA skipB a b acc
        else scaledAcc (mmaScales t l ra rb p.posA row col) skipA skipB a b acc
      | _, _ => unscaledAcc f (chunkOf ty) skipA skipB a b acc
    (if (chunksOf (chunkOf ty) a b).zipIdx.all (fun c => spanSkipped skipA skipB (chunkOf ty) c.2) then old
     else accCode f r.1, r.2)

/-- The accumulator's code before: +0 under `.ZA`; of a pair under `.F64`. -/
def Gang.accBits (k : Gang) (l : Latch) (p : MmaPart) (row col : Nat) : Nat :=
  if l.ref.za then 0
  else
    let lo := (vlane (vget (k.tile p.member p.tile).rows row vzero) col).toNat
    if l.ref.ty = .f64 then lo + 2 ^ 32 * (vlane (vget (k.tile p.member (p.tile + 1)).rows row vzero) col).toNat else lo

/-- One row of a member's product. -/
def Gang.mmaRow (k : Gang) (t : Team) (l : Latch) (p : MmaPart) (cols : List (List FVal)) (row : Nat) :
    List (Nat × FFlags) :=
  let a := rowVals l.ref.ty (((l.rowsA.getD p.member []).drop (row * rowLen l.ref.ty)).take (rowLen l.ref.ty)) l.ref.k
  cols.zipIdx.map (fun (b, n) => mmaElem t l p (l.skipA.getD p.member []) row n a b (k.accBits l p row n))

/-- The tiles a part writes. -/
def MmaPart.tiles (p : MmaPart) (ty : FTy) : List Nat :=
  if ty = .f64 then [p.tile, p.tile + 1] else [p.tile]

/-- The type of the tiles that an `MMA` writes (R331). -/
def tileTypeOf : FTy → TileType
  | .mi8 | .mn8 => .int
  | .f64 => .double
  | _ => .float

/-- The gang after a member's rows are written: under `.ZA` no mark is left, else marks stay (R337). -/
def Gang.putRows (k : Gang) (p : MmaPart) (ty : FTy) (za : Bool) (rows : List (List (Nat × FFlags))) : Gang :=
  (p.tiles ty).zipIdx.foldl (fun k (t, w) =>
    k.setTile p.member t
      { rows := vecOf 8 (fun r => vreg (fun n => BitVec.ofNat 32 (((rows.getD r []).getD n (0, 0)).1 / 2 ^ (32 * w)))),
        type := tileTypeOf ty, poison := !za && (k.tile p.member t).poison }) k

/-- Sub-arrays of a gang have computed, or are woken, now (R341). -/
def State.useSubs (s : State) (k : Gang) : State :=
  match s.gangCore k with
  | none => s
  | some core => s.modCore core (fun c => { c with busy := k.subs.foldl (fun v i => vset v i s.time) c.busy })

/-- Wake the gated sub-arrays of a gang on a core, each counted (R341, R424). -/
def State.wakeSubs (s : State) (k : Gang) (core : Nat) : State :=
  let gated := k.subs.filter (fun i => vget (s.core core).gated i false)
  (s.modCore core (fun c =>
    { c with
      gated := gated.foldl (fun v i => vset v i false) c.gated
      busy := gated.foldl (fun v i => vset v i s.time) c.busy
      wake := gated.foldl (fun v i => vset v i (some s.time)) c.wake })).addEvent core 6 gated.length

/-- An `MMA` completes (R334, R337): tiles and flags of every member, or every destination marked. A member in a handler takes
the flags in the `FSTAT` it has then, which its `ERET` replaces (log entry 61, DESIGN CHOICE). -/
def State.completeMma (s0 : State) (k : Gang) (t : Team) (l : Latch) : State :=
  let s := s0.useSubs k
  let rest := k.latches.filter (fun m => m.id != l.id)
  if l.abandoned then
    s.modGang k.id (fun k =>
      { (l.parts.foldl (fun k p => (p.tiles l.ref.ty).foldl (fun k i =>
          k.setTile p.member i { k.tile p.member i with poison := true }) k) k) with latches := rest })
  else
    let cols := (List.range 64).map (colVals l.ref.ty l.parts k.members.length l.ref.k)
    let out := l.parts.map (fun p => (p, (List.range 8).map (k.mmaRow t l p cols)))
    let flags := out.foldl (fun f x => x.2.foldl (fun f r => r.foldl (fun f e => f ||| e.2) f) f) (0 : FFlags)
    let s1 := s.modGang k.id (fun k =>
      { (out.foldl (fun k x => k.putRows x.1 l.ref.ty l.ref.za x.2) k) with latches := rest })
    k.members.foldl (fun s i => match s.group? i with | some g => s.setGroup (g.raiseFlags flags) | none => s) s1

/-! ## `MMA`: issue (R333, R336) -/

/-- The operands of an `MMA` under `.ID`, or zeros. -/
structure MmaWords where
  posA : Word64
  posB : Word64
  scaleA : Word64
  scaleB : Word64

def Group.mmaWords (g : Group) (ids : Option MmaIds) : MmaWords :=
  match ids with
  | none => ⟨0, 0, 0, 0⟩
  | some i =>
    match i.pos, i.scales with
    | .x p, .x q => ⟨g.xVal p, g.xVal (p + 1), g.xVal q, g.xVal (q + 1)⟩
    | _, _ => ⟨0, 0, 0, 0⟩

/-- `NOACC`: a tile word names tiles the member does not hold (R336, R338). -/
def tileOk (per : Nat) (ty : FTy) (t : Nat) : Bool :=
  if ty = .f64 then t % 2 == 0 && t + 1 < per else t < per

/-- The bytes of the member's eight rows pass R336: in the windows, in the own slice and the cohort's lines, aligned. -/
def State.rowsOk (s : State) (g : Group) (sa : Word64) (n : Nat) : Except Trap Unit :=
  let bytes := (List.range n).map (fun k => plus sa k)
  let mine (va : Word64) : Bool :=
    match regionOf g.core va, s.team? g.team with
    | .scratch c off, some t => g.core == some c && s.cohortHolds t c off
    | _, _ => false
  if !bytes.all inScr then .error (trapAt .notscr sa)
  else if !bytes.all mine then .error (trapAt .scrprot sa)
  else if sa.toNat % 4 ≠ 0 then .error (trapAt .misalign sa)
  else .ok ()

/-- The identifiers of an `MMA` name records that fit it (R336). -/
def Team.mmaIdsOk (t : Team) (ty : FTy) (k : Nat) (i : MmaIds) (w : MmaWords) : Except Trap Unit := do
  let ra ← t.tensor i.tida
  let rb ← t.tensor i.tidb
  let pa := posOf w.posA
  let pb := posOf w.posB
  if tTy ra != some ty || tTy rb != some ty || tEnt ra || tEnt rb || tBlk ra != tBlk rb || pa.i0 % 64 != 0 ||
      pa.i1 % 8 != 0 || pb.i1 % 8 != 0 || tExt ra 0 < pa.i0 + k || tExt rb 0 < pa.i0 + k || tExt ra 1 < pa.i1 + 8 ||
      tExt rb 1 < pb.i1 + 64 || tExt ra 2 ≤ pa.i2 || tExt ra 3 ≤ pa.i3 || tExt rb 2 ≤ pb.i2 || tExt rb 3 ≤ pb.i3 then
    .error (trapOf .badtid)
  else .ok ()

/-- One map bit at release; a byte that cannot be read counts as 0 (R335). -/
def State.mapBit (s : State) (a : Accessor) (r : TBits) (p : Pos) : Bool :=
  let t := tileIndex r p
  match s.readVa a .read (mapAddr r t) 1 with
  | .ok b => b / 2 ^ (t % 8) % 2 == 1
  | .error _ => false

/-- The map bits of the spans of an `MMA` at a position (R335). -/
def State.mapSpans (s : State) (a : Accessor) (r : TBits) (k k0 : Nat) (p : Pos) : List Bool :=
  if tZmv r then
    (List.range ((k + 63) / 64)).map (fun c => s.mapBit a r { p with i0 := k0 + 64 * c })
  else []

/-- The release of a latch that every member has joined: records, skip bits, sub-arrays (R333, R335, R341). -/
def State.releaseLatch (s : State) (g : Group) (k : Gang) (t : Team) (l : Latch) : State × Latch :=
  let a := s.accessor g
  let core := g.core.getD 0
  let recOf (i : BitVec 6) : Option TBits := t.tids.getD i.toNat none
  let (ra, rb) := match l.ref.ids with | some (x, y) => (recOf x, recOf y) | none => (none, none)
  let k0 := l.ref.k0.toNat
  let skipA := match ra with
    | some r => (List.range k.members.length).map (fun m =>
        match l.parts.find? (fun p => p.member == m) with
        | some p => s.mapSpans a r l.ref.k k0 (posOf p.posA)
        | none => [])
    | none => []
  let skipB := match rb with
    | some r => let pb := posOf l.ref.posB
      (List.range 8).map (fun m => s.mapSpans a r l.ref.k k0 { pb with i1 := pb.i1 + 8 * m })
    | none => []
  let skips := ((skipA ++ skipB).map (fun x => (x.filter (fun b => b)).length)).sum
  ((s.addEvent core 1 skips).wakeSubs k core,
    { l with released := true, recA := ra, recB := rb, skipA := skipA, skipB := skipB })

/-- The latch a member's next `MMA` joins: the oldest it has not joined, or a new one (R333). -/
def Gang.nextLatch (k : Gang) (member : Nat) : Option Nat :=
  indexOf? (fun l => !l.parts.any (fun p => p.member == member)) k.latches

/-- The uncompleted `MMA`s of a member. -/
def Gang.pending (k : Gang) (member : Nat) : Nat :=
  (k.latches.filter (fun l => l.parts.any (fun p => p.member == member))).length

/-- A member joins: the state after, or `GANGMIS` when it differs from the reference (R333). -/
def State.joinLatch (s : State) (g : Group) (k : Gang) (t : Team) (ref : MmaRef) (p : MmaPart) : Except Trap State :=
  let put (s : State) (i : Nat) (l : Latch) : State :=
    s.modGang k.id (fun k =>
      { k with latches := if i < k.latches.length then k.latches.set i l else k.latches ++ [l] })
  let join (s : State) (i : Nat) (l : Latch) : State :=
    let l1 := { l with parts := l.parts ++ [p] }
    if l1.parts.length = k.members.length then
      let (s1, l2) := s.releaseLatch g k t l1
      put s1 i l2
    else put s i l1
  match k.nextLatch p.member with
  | some i =>
    match k.latches[i]? with
    | some l => if l.ref = ref then .ok (join s i l) else .error (trapOf .gangmis)
    | none => .ok s
  | none =>
    .ok (join { s with nextId := s.nextId + 1 } k.latches.length
      { id := s.nextId, ref := ref, parts := [], released := false, recA := none, recB := none, skipA := [], skipB := [],
        started := false, rowsA := [], abandoned := false })

/-- `MMA` (R333, R336, R337). -/
def mmaBody (ty : FTy) (kc : BitVec 3) (za : Bool) (rm : Rm) (d a b : Opd) (ids : Option MmaIds) : Body := fun s g =>
  match s.gangOf g, s.team? g.team with
  | some k, some t =>
    let m := k.place g.id
    if !k.dissolving.isEmpty then .error (trapOf .gangmis)
    else if 2 ≤ k.pending m then .ok { s := s, g := g, wait := some .rendezvous, hold := true }
    else do
      let tile := (g.uni64 d).toNat % 256
      let n := (mmaK ty kc).getD 0
      let regs := bRegs ty k.members.length m
      let w := g.mmaWords ids
      if !tileOk k.per ty tile then .error (trapOf .noacc)
      else if !g.holdsRange (vNum b).toNat regs then .error (trapOf .noxblk)
      else do
        s.rowsOk g (g.uni64 a) (8 * rowLen ty)
        (match ids with | some i => t.mmaIdsOk ty n i w | none => .ok ())
        let ref : MmaRef :=
          { ty := ty, k := n, za := za, ids := ids.map (fun i => (i.tida, i.tidb)), k0 := w.posA.extractLsb' 0 24,
            posB := w.posB, scaleA := w.scaleA, scaleB := w.scaleB }
        let part : MmaPart :=
          { member := m, tile := tile, base := g.uni64 a, posA := w.posA,
            b := (List.range regs).map (fun r => vreg (fun i => g.vLane (vNum b + BitVec.ofNat 6 r) i)) }
        let s1 ← s.joinLatch g k t ref part
        .ok { s := s1, g := g.stepSr rm }
  | _, _ => .error (trapOf .gangmis)

/-! ## `MMA`: start (R334, R337, R341) -/

/-- The location of a member's A rows, in its core's slice. -/
def MmaPart.rowsAt (p : MmaPart) (core : Nat) : Nat :=
  match regionOf (some core) p.base with
  | .scratch c off => scrLoc c off
  | _ => 0

/-- `CAP_WAKE` (R341). -/
def CAP_WAKE : Nat := 180

/-- Are the sub-arrays of a gang awake: none is gated, and the clocks of their wakes are over, whoever woke them (R334,
R341)? -/
def State.awake (s : State) (k : Gang) (core : Nat) : Bool :=
  k.subs.all (fun i => !vget (s.core core).gated i false &&
    (match vget (s.core core).wake i none with | some t => CAP_WAKE ≤ s.clocksSince t | none => true))

/-- May a released latch start now: at most one other has started, its lines are full, its sub-arrays awake (R334)? -/
def State.latchReady (s : State) (k : Gang) (core : Nat) (l : Latch) : Bool :=
  let n := 8 * rowLen l.ref.ty
  (k.latches.filter (fun m => m.started)).length ≤ 1 && s.awake k core &&
  l.parts.all (fun p =>
    let loc := p.rowsAt core
    (List.range (loc % 128 + n)).all (fun i => s.isFull (loc - loc % 128 + i)))

/-- A latch starts: it reads its A rows, or is abandoned for poison, that of its block scales too (R334, R337, R420) (log
entries 38 and 53, DEDUCED). -/
def State.startLatch (s : State) (k : Gang) (core : Nat) (l : Latch) : Latch :=
  let n := 8 * rowLen l.ref.ty
  let poisoned := l.parts.any (fun p =>
    (s.poisonIn (p.rowsAt core) n).isSome ||
      (!l.ref.za && (p.tiles l.ref.ty).any (fun t => (k.tile p.member t).poison))) ||
    (match s.team? k.team with
     | some t => !t.scaleBad.isEmpty && l.scaleBytes.any t.scaleBad.contains
     | none => false)
  let rows (m : Nat) : List Byte :=
    match l.parts.find? (fun p => p.member == m) with
    | some p => Memory.readN s.mem (p.rowsAt core) n
    | none => []
  { l with started := true, abandoned := poisoned, rowsA := (List.range k.members.length).map rows }

/-! ## Accumulator tiles (R338, R339) -/

/-- The tile an instruction names, with the checks of R338: `NOACC`, then the registers, then the wait for the member's
earlier `MMA`s to the same tile. -/
def State.accTile (s : State) (g : Group) (ty : FTy) (a : Opd) (held : List (Opd × Nat))
    (act : Gang → Nat → Nat → Except Trap Done) : Except Trap Done :=
  match s.gangOf g with
  | none => .error (trapOf .noacc)
  | some k =>
    let m := k.place g.id
    let t := (g.uni64 a).toNat % 256
    if !tileOk k.per ty t then .error (trapOf .noacc)
    else do
      g.checkHeld held
      let mine := if ty = .f64 then [t, t + 1] else [t]
      if k.latches.any (fun l => l.parts.any (fun p => p.member == m && (p.tiles l.ref.ty).any mine.contains)) then
        .ok { s := s, g := g, wait := some .rendezvous, hold := true }
      else act k m t

/-- The tiles of an instruction: one, or the pair. -/
def tilesFor (ty : FTy) (t : Nat) : List Nat :=
  if ty = .f64 then [t, t + 1] else [t]

/-- `ACCZ`. -/
def acczBody (ty : FTy) (a : Opd) : Body := fun s g =>
  s.accTile g ty a [] (fun k m t =>
    .ok { s := s.modGang k.id (fun k => (tilesFor ty t).foldl (fun k i => k.setTile m i Tile.zero) k), g := g })

/-- `ACCRD`: register q of the destination is row q of the tile, or word q mod 2 of row q / 2 of the pair. -/
def accrdBody (h : Hdr) (ty : FTy) (d a : Opd) : Body := fun s g =>
  let n := (tilesFor ty 0).length
  s.accTile g ty a [(d, 256 * n)] (fun k m t =>
    if (tilesFor ty t).any (fun i => (k.tile m i).poison) then .error (trapOf .poison)
    else
      let row (q : Nat) : VReg := vget (k.tile m (t + q % n)).rows (q / n) vzero
      .ok { s := s, g := g,
            long := [{ writes := (List.range (8 * n)).map (fun q => .v (vNum d + BitVec.ofNat 6 q) (g.active h) (row q)),
                       unit := .matrix }] })

/-- `ACCWR` (log entry 37, DEDUCED). -/
def accwrBody (h : Hdr) (ty : FTy) (a b : Opd) : Body := fun s g =>
  let n := (tilesFor ty 0).length
  s.accTile g ty a [(b, 256 * n)] (fun k m t =>
    let con := g.contributors h
    let col (q : Nat) : VReg := vreg (fun i => g.vLane (vNum b + BitVec.ofNat 6 q) i)
    .ok { s := s.modGang k.id (fun k => (tilesFor ty t).zipIdx.foldl (fun k (i, w) =>
            k.setTile m i
              { rows := vecOf 8 (fun r => vmerge con (col (r * n + w)) (vget (k.tile m i).rows r vzero)),
                type := .clear, poison := false }) k)
          g := g })

/-- One element to store: its lane, its position, its bytes. -/
structure Store where
  lane : Nat
  pos : Pos
  code : Nat
  deriving DecidableEq, Repr

/-- A fault of one lane names it. -/
def inLane {α : Type} (lane : Nat) (r : Except Trap α) : Except Trap α :=
  match r with
  | .error t => .error { t with lane := some lane }
  | .ok x => .ok x

/-- Poison in a range, by its address. -/
def State.reachTrap (s : State) (k : Reach) (r : Range) : Option Trap :=
  (s.reachPoison k r.1 r.2).head?.map (fun i =>
    let va := plus r.1 i
    trapAt .poison (va - BitVec.ofNat 64 (va.toNat % 16)))

/-- Probe what a lane writes at a position of a tensor, n bytes, then the map byte of its tile, whose atomic AND takes `POISON`
(R12, R83, R420). -/
def State.probeLane (s : State) (g : Group) (r : TBits) (n lane : Nat) (p : Pos) (ps : List Page) :
    Except Trap (List Page) :=
  inLane lane (do
    let q ← s.probe (s.accessor g) .write (elemAddr r p) n ps
    let m ← s.probeMap (s.accessor g) r [tileIndex r p] q
    match (mapRanges r [tileIndex r p]).findSome? (s.reachTrap ⟨g.core, m⟩) with
    | some t => .error t
    | none => .ok m)

/-- Probe the elements that an instruction writes, lane by lane. -/
def State.probeStores (s : State) (g : Group) (r : TBits) (l : List Store) : Except Trap (List Page) :=
  l.foldlM (fun ps x => s.probeLane g r ((tWidth r + 7) / 8) x.lane x.pos ps) []

/-- Store an element; half a byte where the format packs two (R71). -/
def State.putElem (s : State) (k : Reach) (r : TBits) (x : Store) : State :=
  let va := elemAddr r x.pos
  if tWidth r = 4 then
    let old := (natOf (s.reachRead k va 1))
    let c := x.code % 16
    s.reachWrite k va (bytesOf 1 (if x.pos.i0 % 2 = 0 then old / 16 * 16 + c else old % 16 + 16 * c))
  else s.reachWrite k va (bytesOf (tWidth r / 8) x.code)

/-- The elements stored, the map bits of their tiles cleared, the watchpoints told (R83, R428). -/
def State.putStores (s : State) (g : Group) (h : Hdr) (r : TBits) (ps : List Page) (l : List Store) : State :=
  let k : Reach := ⟨g.core, ps⟩
  let s1 := l.foldl (fun s x => s.putElem k r x) s
  let s2 := s1.clearTiles k r (l.map (fun x => tileIndex r x.pos))
  s2.watchEngine (s.forkOf g (if h.st then s.ordinal g g.pc else none))
    (l.map (fun x => (elemAddr r x.pos, (tWidth r + 7) / 8)) ++ mapRanges r (l.map (fun x => tileIndex r x.pos)))

/-- A count as a uniform result. -/
def countResult (d : Opd) (g : Group) (n : Nat) : LongOut :=
  { writes := g.writesTo d false 64 g.exec (fun _ => BitVec.ofNat 128 n), unit := .matrix }

/-- Does a tile hold what a format stores: INT32 for I32, FP32 for every other? A tile of no type holds either (R339; log entry
37, DESIGN CHOICE). -/
def Tile.stores (x : Tile) (fmt : Nat) : Bool :=
  match x.type with
  | .clear => true
  | .int => fmt == 11
  | .float => fmt != 11
  | .double => false

/-- `ACCRD.ST` (R339). -/
def accrdStBody (h : Hdr) (ty : FTy) (rm : Rm) (d a c : Opd) (tid : BitVec 6) : Body := fun s g =>
  s.accTile g ty a [] (fun k m t => do
    match s.team? g.team with
    | none => .error (trapOf .badtid)
    | some team =>
      let r ← team.tensor tid
      let p := posOf (g.uni64 c)
      if ty = .f64 || tBlk r ≠ 0 || tEnt r || !([7, 5, 6, 0, 1, 11].contains (tFmt r)) || p.i1 % 8 ≠ 0 ||
          tExt r 2 ≤ p.i2 || tExt r 3 ≤ p.i3 || !(k.tile m t).stores (tFmt r) then .error (trapOf .badtid)
      else if (k.tile m t).poison then .error (trapOf .poison)
      else do
        let elem (n row : Nat) : Nat × FFlags :=
          let bits := (vlane (vget (k.tile m t).rows row vzero) n).toNat
          match tTy r with
          | some f =>
            let v := valOf .f32 bits
            let q := (fmtOf f).roundVal rm false false (g.draw rm n) v
            (q.1, q.2 ||| snanFlag [v])
          | none => (bits, 0)
        let all := (lanesOf (g.contributors h)).flatMap (fun n => (List.range 8).map (fun row =>
          ((⟨n, { p with i0 := p.i0 + n, i1 := p.i1 + row }, (elem n row).1⟩ : Store), (elem n row).2)))
        let l := all.filter (fun x => inExtents r x.1.pos)
        let ps ← s.probeStores g r (l.map (·.1))
        .ok { s := s.putStores g h r ps (l.map (·.1))
              g := (g.raiseFlags (l.foldl (fun f x => f ||| x.2) 0)).stepSr rm
              touches := pageTouches ps, long := [countResult d g l.length] })

/-! ## `BDOT` (R340) -/

/-- The eight values of a lane. -/
def bdotVals (ty : FTy) (c : Code) : List FVal :=
  (List.range 8).map (fun i => elemVal ty 0 (c.toNat / 2 ^ (elemBits ty * i) % 2 ^ elemBits ty))

/-- One lane's answer. -/
def bdotLane (ty : FTy) (ra rb : TBits) (xa xb : Word64) (acc a b sc : Code) : Code × FFlags :=
  let ta := tensorScale (tTsf ra) xa
  let tb := tensorScale (tTsf rb) xb
  let sa := if tBlk ra = 0 then oneVal else scaleVal (tBsf ra) (sc.toNat % 256)
  let sb := if tBlk rb = 0 then oneVal else scaleVal (tBsf rb) (sc.toNat / 256 % 256)
  let term := blockTerm (sumProducts ((bdotVals ty a).zip (bdotVals ty b))) sa sb ta tb (tensorScales (tTsf ra) (tTsf rb) ta tb)
  let old := valOf .f32 (acc.toNat % 2 ^ 32)
  let r := accAdd fmtF32 old term.1
  (BitVec.ofNat 128 (accCode fmtF32 r.1), term.2 ||| r.2 ||| snanFlag [old])

/-- `BDOT`. -/
def bdotBody (h : Hdr) (ty : FTy) (rm : Rm) (d a b c e : Opd) (tida tidb : BitVec 6) : Body := fun s g =>
  let w := 8 * elemBits ty
  let srcs := [(d, 32), (a, w), (b, w), (c, 32)]
  do
    g.checkHeld srcs
    match s.team? g.team, e with
    | some t, .x n => do
      let ra ← t.tensor tida
      let rb ← t.tensor tidb
      if tTy ra != some ty || tTy rb != some ty || tEnt ra || tEnt rb || tBlk ra != tBlk rb || 1 < tBlk ra then
        .error (trapOf .badtid)
      else
        valueBody h d 32 srcs true rm
          (fun _ l => bdotLane ty ra rb (g.xVal n) (g.xVal (n + 1)) (arg l 0) (arg l 1) (arg l 2) (arg l 3)) s g
    | _, _ => .error (trapOf .badtid)

/-! ## Identifiers (R343) -/

/-- Does a latched, unreleased `MMA` of the team name an identifier? -/
def State.tidLatched (s : State) (team : Nat) (tid : BitVec 6) : Bool :=
  s.gangs.any (fun k => k.team == team &&
    k.latches.any (fun l => !l.released && (match l.ref.ids with | some (a, b) => a == tid || b == tid | none => false)))

/-- The 64 bytes of a record (R74), or the fault of the read. -/
def State.readRecord (s : State) (g : Group) (va : Word64) : Except Trap TBits :=
  match s.locOf (s.accessor g) .read va with
  | .error c => .error (trapAt c va)
  | .ok loc =>
    match s.poisonIn loc 64 with
    | some u => .error (trapAt .poison (plus va (u - loc)))
    | none => .ok (BitVec.ofNat 512 (s.readNat loc 64))

/-- `TIDSET`. -/
def tidsetBody (a : Opd) (tid : BitVec 6) : Body := fun s g =>
  match s.team? g.team with
  | none => .error (trapOf .badtid)
  | some t =>
    let va := g.uni64 a
    if t.tids.length ≤ tid.toNat then .error (trapOf .badtid)
    else if s.tidLatched t.id tid then .ok { s := s, g := g, wait := some .rendezvous, hold := true }
    else if va.toNat % 64 ≠ 0 then .error (trapAt .badtrec va)
    else do
      let r ← s.readRecord g va
      let v := s.valsOf t
      if recordBad r (64 * v.smw) v.dtc then .error (trapOf .badtrec)
      else .ok { s := s.modTeam t.id (fun t => { t with tids := t.tids.set tid.toNat (some r) }), g := g,
                 touches := [⟨va, 64, false, false⟩] }

/-- `TIDGET`. -/
def tidgetBody (w : BitVec 3) (d : Opd) (tid : BitVec 6) : Body := fun s g =>
  match s.team? g.team with
  | none => .error (trapOf .badtid)
  | some t => do
    let r ← t.tensor tid
    .ok { s := s, g := g,
          long := [{ writes := g.writesTo d false 64 g.exec (fun _ => (r.extractLsb' (64 * w.toNat) 64).setWidth 128),
                     unit := .matrix }] }

/-! ## `HADQ` (R344) -/

/-- What a block brings: the elements to store with their flags, or a whole block of bytes with its lowest lane. -/
structure HadBlock where
  elems : List (Store × FFlags)
  whole : Option (Nat × Pos × List Byte)
  flags : FFlags
  count : Nat

/-- The rotated values of a block, and whether it is invalid. -/
def hadRotate (r : TBits) (sb : Nat) (xs : List FVal) : List Exact × FFlags :=
  if tHad r then
    if xs.any (fun x => !x.isFinite) then
      (List.replicate 32 ⟨.nan false, false⟩, flagIf (xs.any FVal.isInf) fInvalid)
    else ((List.range 32).map (fun j => ⟨hadSum (tSeed r) sb j xs, true⟩), 0)
  else (xs.map (fun x => ⟨x, false⟩), 0)

/-- One element rounded once over its scales (R344, R61). -/
def hadElem (f : Fmt) (rm : Rm) (draw : Nat) (y : Exact) (st : FVal) : Nat × FFlags :=
  match st with
  | .nan _ => (f.nan, fInvalid)
  | .inf n =>
    match y.val with
    | .fin a _ _ => f.roundVal rm false false draw (.fin (a != n) 0 0)
    | .nan _ => f.roundVal rm false false draw (.nan false)
    | .inf _ => (f.nan, fInvalid)
  | .fin n m e =>
    if m = 0 then (f.nan, fInvalid)
    else
      match y.val with
      | .fin _ _ _ => f.round rm false false draw (y.over n m e)
      | .inf a => f.roundVal rm false false draw (.inf (a != n))
      | .nan _ => f.roundVal rm false false draw (.nan false)

/-- Block b of a `HADQ`. What forming it raises is raised whichever lanes write; a signalling NaN sets `INVALID` (R48, R57). An
element that no lane writes is not rounded and raises nothing (log entry 61, DESIGN CHOICE). -/
def Group.hadBlock (g : Group) (t : Team) (h : Hdr) (rm : Rm) (src : BitVec 6) (r : TBits) (p : Pos) (tscale : FVal)
    (b : Nat) : HadBlock :=
  let p0 := { p with i0 := p.i0 + 32 * b }
  let lanes := (List.range 32).filter (fun j => (g.contributors h).getLsbD (32 * b + j))
  if tExt r 0 < p0.i0 + 32 then ⟨[], none, 0, 0⟩
  else
    let xs := (List.range 32).map (fun j => valOf .f32 (g.vLane src (32 * b + j)).toNat)
    let (ys, f0) := hadRotate r (p0.i0 / 32) xs
    if tDxb r then
      let eight := tFmt r == 3
      let q := quantDxb eight rm ys ((List.range 32).map (fun j => g.draw rm (32 * b + j)))
      let bytes := bytesOf 2 q.1 ++ packCodes (if eight then 8 else 4) q.2.1 (if eight then 32 else 16)
      ⟨[], lanes.head?.map (fun j => (32 * b + j, p0, bytes)), f0 ||| q.2.2 ||| snanFlag xs, if lanes.isEmpty then 0 else 32⟩
    else
      let f := fmtOf ((tTy r).getD .e4m3)
      let elem (j : Nat) : Store × FFlags :=
        let pj := { p0 with i0 := p0.i0 + j }
        let st := mulVal (if tBlk r = 0 then oneVal else t.blockScale r pj) tscale
        let q := hadElem f rm (g.draw rm (32 * b + j)) (ys.getD j ⟨.nan false, false⟩) st.1
        (⟨32 * b + j, pj, q.1⟩, q.2)
      let used := if tHad r then xs else lanes.map (fun j => xs.getD j (.nan false))
      ⟨lanes.map elem, none, f0 ||| snanFlag used, lanes.length⟩

/-- `POISON` of a byte of scale memory, which has no address: the unit that `X57` names is free (log entry 53, DESIGN
CHOICE). -/
def scaleTrap (lane byte : Nat) : Trap :=
  { trapAt .poison (Config.scaleUnit byte) with lane := some lane }

/-- `HADQ`. A lane whose block scale is poison takes `POISON` (R420). -/
def hadqBody (h : Hdr) (rm : Rm) (d a c e : Opd) (tid : BitVec 6) : Body := fun s g =>
  match s.team? g.team with
  | none => .error (trapOf .badtid)
  | some t => do
    g.checkHeld [(a, 32)]
    let r ← t.tensor tid
    let p := posOf (g.uni64 c)
    if 4 < tFmt r || tEnt r || p.i0 % 32 ≠ 0 || tExt r 1 ≤ p.i1 || tExt r 2 ≤ p.i2 || tExt r 3 ≤ p.i3 then
      .error (trapOf .badtid)
    else do
      let ts := tensorScale (tTsf r) (g.uni64 e)
      let bs := [g.hadBlock t h rm (vNum a) r p ts 0, g.hadBlock t h rm (vNum a) r p ts 1]
      let l := bs.flatMap (fun b => b.elems)
      let whole := bs.filterMap (fun b => b.whole)
      let bad := l.find? (fun x => (scaleByte r x.1.pos).any t.scaleBad.contains)
      let limit := (bad.map (fun b => b.1.lane)).getD 64
      let ps0 ← s.probeStores g r ((l.map (fun x => x.1)).filter (fun x => x.lane < limit))
      match bad with
      | some b => .error (scaleTrap b.1.lane ((scaleByte r b.1.pos).getD 0))
      | none => do
      let ps ← whole.foldlM (fun ps w => s.probeLane g r w.2.2.length w.1 w.2.1 ps) ps0
      let k : Reach := ⟨g.core, ps⟩
      let s1 := s.putStores g h r ps (l.map (·.1))
      let s2 := whole.foldl (fun s w => (s.reachWrite k (elemAddr r w.2.1) w.2.2).clearTiles k r [tileIndex r w.2.1]) s1
      let s3 := s2.watchEngine (s.forkOf g (if h.st then s.ordinal g g.pc else none))
        (whole.map (fun w => (elemAddr r w.2.1, w.2.2.length)) ++ mapRanges r (whole.map (fun w => tileIndex r w.2.1)))
      let fl := bs.foldl (fun f b => b.elems.foldl (fun f x => f ||| x.2) (f ||| b.flags)) 0
      .ok { s := s3, g := (g.raiseFlags fl).stepSr rm, touches := pageTouches ps,
            long := [countResult d g (bs.map (fun b => b.count)).sum] }

/-! ## `ZMAP` (R345) -/

/-- The position of a tile's first element (R81). -/
def tilePos (r : TBits) (t : Nat) : Pos :=
  let c0 := (tExt r 0 + 63) / 64
  let c1 := (tExt r 1 + 7) / 8
  ⟨t % c0 * 64, t / c0 % c1 * 8, t / c0 / c1 % tExt r 2, t / c0 / c1 / tExt r 2⟩

/-- The bytes of a tile's rows: their addresses and lengths. -/
def tileRows (r : TBits) (t : Nat) : List Range :=
  let p := tilePos r t
  let n := min 64 (tExt r 0 - p.i0)
  (List.range (min 8 (tExt r 1 - p.i1))).map (fun k =>
    (elemAddr r { p with i1 := p.i1 + k }, rowOff r (p.i0 + n) - rowOff r p.i0))

/-- Do the bytes of a row hold only codes of ±0? -/
def rowZero (r : TBits) (bs : List Byte) : Bool :=
  match tTy r with
  | some .dxb8 => (rowVals .dxb8 bs (bs.length / 34 * 32)).all FVal.isZero
  | some .dxb4 => (rowVals .dxb4 bs (bs.length / 18 * 32)).all FVal.isZero
  | some ty => (rowVals ty bs (bs.length * 8 / elemBits ty)).all FVal.isZero
  | none => bs.all (fun b => b == 0)

/-- One tile's bit is written: 1 if every element encodes ±0. -/
def State.mapTile (s : State) (k : Reach) (r : TBits) (t : Nat) : State × Bool :=
  let zero := (tileRows r t).all (fun x => rowZero r (s.reachRead k x.1 x.2))
  let old := natOf (s.reachRead k (mapAddr r t) 1)
  let b := 2 ^ (t % 8)
  let new := if zero then old ||| b else old &&& (255 - b)
  (s.reachWrite k (mapAddr r t) (bytesOf 1 new), zero)

/-- `ZMAP`. -/
def zmapBody (h : Hdr) (d : Opd) (tid : BitVec 6) : Body := fun s g =>
  match s.team? g.team with
  | none => .error (trapOf .badtid)
  | some t => do
    let r ← t.tensor tid
    if !tZmv r then .error (trapOf .badtid)
    else do
      let ts := List.range (tileCount r)
      let a := s.accessor g
      let rows := ts.flatMap (tileRows r)
      let ps0 ← rows.foldlM (fun ps x => s.probe a .read x.1 x.2 ps) []
      let maps := (List.range ((tileCount r + 7) / 8)).map (fun i => ((mapAddr r (8 * i), 1) : Range))
      let ps ← maps.foldlM (fun ps x => s.probe a .write x.1 x.2 ps) ps0
      let k : Reach := ⟨g.core, ps⟩
      match (rows ++ maps).findSome? (s.reachTrap k) with
      | some t => .error t
      | none =>
        let (s1, n) := ts.foldl (fun (acc : State × Nat) t =>
          let (s', z) := acc.1.mapTile k r t
          (s', acc.2 + z.toNat)) (s, 0)
        let s2 := s1.watchEngine (s.forkOf g (if h.st then s.ordinal g g.pc else none)) maps
        .ok { s := s2, g := g, touches := pageTouches ps, long := [countResult d g n] }

/-! ## Instructions -/

def execGang (h : Hdr) (a : Opd) (s : State) : Host.Outcome State Fault Refusal :=
  issue s (.gang h a) h true (ordered (gangBody h a))

def execMma (h : Hdr) (ty : FTy) (kc : BitVec 3) (za : Bool) (rm : Rm) (d a b : Opd) (ids : Option MmaIds) (s : State) :
    Host.Outcome State Fault Refusal :=
  issue s (.mma h ty kc za rm d a b ids) h true (ordered (mmaBody ty kc za rm d a b ids))

def execBdot (h : Hdr) (ty : FTy) (rm : Rm) (d a b c e : Opd) (tida tidb : BitVec 6) (s : State) :
    Host.Outcome State Fault Refusal :=
  issue s (.bdot h ty rm d a b c e tida tidb) h false (bdotBody h ty rm d a b c e tida tidb)

def execAccz (h : Hdr) (ty : FTy) (a : Opd) (s : State) : Host.Outcome State Fault Refusal :=
  issue s (.accz h ty a) h false (acczBody ty a)

def execAccrd (h : Hdr) (ty : FTy) (d a : Opd) (s : State) : Host.Outcome State Fault Refusal :=
  issue s (.accrd h ty d a) h false (accrdBody h ty d a)

def execAccrdSt (h : Hdr) (ty : FTy) (rm : Rm) (d a c : Opd) (tid : BitVec 6) (s : State) :
    Host.Outcome State Fault Refusal :=
  issue s (.accrdSt h ty rm d a c tid) h false (ordered (accrdStBody h ty rm d a c tid))

def execAccwr (h : Hdr) (ty : FTy) (a b : Opd) (s : State) : Host.Outcome State Fault Refusal :=
  issue s (.accwr h ty a b) h false (accwrBody h ty a b)

def execTidset (h : Hdr) (a : Opd) (tid : BitVec 6) (s : State) : Host.Outcome State Fault Refusal :=
  issue s (.tidset h a tid) h false (ordered (tidsetBody a tid))

def execTidget (h : Hdr) (w : BitVec 3) (d : Opd) (tid : BitVec 6) (s : State) : Host.Outcome State Fault Refusal :=
  issue s (.tidget h w d tid) h false (tidgetBody w d tid)

def execHadq (h : Hdr) (rm : Rm) (d a c e : Opd) (tid : BitVec 6) (s : State) : Host.Outcome State Fault Refusal :=
  issue s (.hadq h rm d a c e tid) h false (ordered (hadqBody h rm d a c e tid))

def execZmap (h : Hdr) (d : Opd) (tid : BitVec 6) (s : State) : Host.Outcome State Fault Refusal :=
  issue s (.zmap h d tid) h false (ordered (zmapBody h d tid))

/-! ## Events -/

/-- `GANG_FORM`: the oldest tile request of the group's core is granted (R329, R330). -/
def execGangForm (gid : Nat) (s : State) : Host.Outcome State Fault Refusal :=
  match s.group? gid with
  | some g =>
    match g.core with
    | some c => .next (s.grantTiles c)
    | none => .next s
  | none => .next s

/-- `GANG_DISSOLVE`: every member dissolves and every `MMA` has completed (R329). -/
def execGangDissolve (gang : Nat) (s : State) : Host.Outcome State Fault Refusal :=
  match s.gang? gang with
  | some k =>
    let halted := k.members.any (fun i => match s.group? i with | some g => s.haltReached g | none => false)
    if k.members.all k.dissolving.contains && k.latches.isEmpty && !halted then
      let s1 : State := { s with gangs := s.gangs.filter (fun g => g.id != gang) }
      let s2 := match s.gangCore k with | some c => s1.idleGrow c | none => s1
      .next (k.members.foldl (fun s i => s.leaveGang i) s2)
    else .next s
  | none => .next s

/-- `MMA_START`: the oldest released latch that may start and has not (R334); none of a team whose cut has come (R342). -/
def execMmaStart (gang : Nat) (s : State) : Host.Outcome State Fault Refusal :=
  match s.gang? gang with
  | none => .next s
  | some k =>
    match s.gangCore k with
    | none => .next s
    | some core =>
      match k.latches.find? (fun l => l.released && !l.started && s.latchReady k core l) with
      | some l =>
        if (s.team? k.team).any (fun t => t.swap == .resident) then
          .next ((s.modGang gang (fun k => { k with latches := k.latches.map (fun m =>
            if m.id == l.id then s.startLatch k core l else m) })).addEvent core 5 1)
        else .next s
      | none => .next s

/-- `MMA_COMPLETE`: the oldest started latch (R334). -/
def execMmaComplete (gang : Nat) (s : State) : Host.Outcome State Fault Refusal :=
  match s.gang? gang with
  | none => .next s
  | some k =>
    match k.latches.find? (fun l => l.started), s.team? k.team with
    | some l, some t => .next (s.completeMma k t l)
    | _, _ => .next s

/-- `SUBARRAY_POWER_GATE`: a sub-array that has computed nothing for `PGIDLE` clocks is gated, unless `PGIDLE` is 0 (R341); one
that a released `MMA` is to use stays awake (log entry 38, DEDUCED). -/
def execSubarrayPowerGate (core : Nat) (sub : Nat) (s : State) : Host.Outcome State Fault Refusal :=
  let c := s.core core
  let needed := s.gangs.any (fun k => s.gangCore k == some core && k.subs.contains sub && k.latches.any (fun l => l.released))
  if core < 272 && sub < 6 && c.pgidle ≠ 0 && !needed && c.pgidle.toNat ≤ s.clocksSince (vget c.busy sub 0) then
    .next (s.modCore core (fun c => { c with gated := vset c.gated sub true }))
  else .next s

end Sys2Proof.Machine
end

