-- ==== Sys2Proof/Machine/KeyTable.lean ====
section
/-! DEFINITION. The key-table unit (R347 to R362). Each K-instruction acts as a whole at its issue; its results return when
the unit's order reaches it (R359). -/

namespace Sys2Proof.Machine

/-! ## Places in a table (R348) -/

/-- A place of an entry: a slot of a bucket, or a spill record. -/
inductive KPlace where
  | slot (bucket s : Nat)
  | record (r : Nat)
  deriving DecidableEq, Repr

/-- The home bucket of a key before it is cut to a table's size (R349). -/
def hashKey (key : Word32) : Word32 :=
  let x := (key ^^^ (key >>> 16)) * 0x3B9A_C6F5
  let y := (x ^^^ (x >>> 13)) * 0xD1E4_3C27
  y ^^^ (y >>> 16)

def KTable.home (k : KTable) (key : Word32) : Nat :=
  (hashKey key).toNat / 2 ^ (32 - k.logb)

/-- The unit's view while an instruction acts: the machine, the core, the table. -/
structure KView where
  s : State
  core : Nat
  k : KTable

/-- The location of a bucket's line. -/
def KView.line (c : KView) (bucket : Nat) : Nat :=
  scrLoc c.core (c.k.off + 128 * bucket)

/-- The location of an entry. -/
def KView.at_ (c : KView) (p : KPlace) : Nat :=
  match p with
  | .slot b s => c.line b + 16 + 16 * s
  | .record r => pageLoc none c.k.pages (plus c.k.spill (16 * r))

/-- The range an instruction reads for an entry, with the address `POISON` names (R361): the line, or the record. -/
def KView.check (c : KView) (p : KPlace) : Except Trap Unit :=
  match p with
  | .slot b _ =>
    match c.s.poisonIn (c.line b) 128 with
    | some u => .error (trapAt .poison (localAddr (u - scrLoc c.core 0)))
    | none => .ok ()
  | .record r =>
    match c.s.poisonIn (c.at_ p) 16 with
    | some _ => .error (trapAt .poison (plus c.k.spill (16 * r)))
    | none => .ok ()

/-- The 128 bits of an entry. -/
def KView.get (c : KView) (p : KPlace) : Except Trap (BitVec 128) := do
  c.check p
  .ok (BitVec.ofNat 128 (c.s.readNat (c.at_ p) 16))

def kKey (e : BitVec 128) : Word32 := e.extractLsb' 0 32
def kValue (e : BitVec 128) : Word64 := e.extractLsb' 32 64
def kSeq (e : BitVec 128) : Nat := bitsN e 119 96
def kLive (e : BitVec 128) : Bool := bitsN e 127 120 == 1

/-- An entry given field by field. -/
def kEntry (state : Nat) (seq : Nat) (value : Word64) (key : Word32) : BitVec 128 :=
  BitVec.ofNat 8 state ++ BitVec.ofNat 24 seq ++ value ++ key

/-- A change to a bucket (R350): `BSEQ` rises, `OCC` and `OVF` take their bits. -/
def KView.bump (c : KView) (bucket : Nat) (occ : Nat → Nat) (ovf : Bool) : KView :=
  let h := BitVec.ofNat 128 (c.s.readNat (c.line bucket) 16)
  let new := h.extractLsb' 64 64 ++ (h.extractLsb' 32 32 + 1) ++ h.extractLsb' 9 23 ++
    BitVec.ofBool (h.getLsbD 8 || ovf) ++ h.extractLsb' 7 1 ++ BitVec.ofNat 7 (occ (bitsN h 6 0))
  { c with s := c.s.writeNat (c.line bucket) 16 new.toNat }

/-- Write an entry; a slot's bucket changes with it. -/
def KView.put (c : KView) (p : KPlace) (e : BitVec 128) : KView :=
  let c1 := { c with s := c.s.writeNat (c.at_ p) 16 e.toNat }
  match p with
  | .slot b s => c1.bump b (fun occ => if kLive e then occ ||| 2 ^ s else occ &&& (127 - 2 ^ s)) false
  | .record _ => c1

/-- The first place of a list whose entry passes a test. -/
def KView.search (c : KView) (p : BitVec 128 → Bool) : List KPlace → Except Trap (Option KPlace)
  | [] => .ok none
  | x :: rest => do
    let e ← c.get x
    if p e then .ok (some x) else c.search p rest

/-- The 28 slots of a key's window, and the records in use (R350). -/
def KTable.window (k : KTable) (key : Word32) : List KPlace :=
  (List.range 4).flatMap (fun d => (List.range 7).map (.slot ((k.home key + d) % 2 ^ k.logb)))

def KTable.records (k : KTable) : List KPlace :=
  (List.range k.sphw).map .record

/-- Has the home bucket of a key overflowed? -/
def KView.overflowed (c : KView) (key : Word32) : Bool :=
  (c.s.read8 (c.line (c.k.home key) + 1)).getLsbD 0

/-- Find (R350). -/
def KView.find (c : KView) (key : Word32) : Except Trap (Option KPlace) := do
  let hit (e : BitVec 128) : Bool := kLive e && kKey e == key
  match ← c.search hit (c.k.window key) with
  | some p => .ok (some p)
  | none => if c.overflowed key then c.search hit c.k.records else .ok none

/-! ## Statuses (R353) -/

def stNew : Nat := 0
def stExists : Nat := 1
def stAbsent : Nat := 2
def stFull : Nat := 3
def stSeqFull : Nat := 4
def stSkipped : Nat := 7

/-- Bit 3: the entry is one of the spill area. -/
def spillBit (p : KPlace) : Nat :=
  match p with
  | .slot .. => 0
  | .record _ => 8

/-- The table after an entry has been placed. -/
def KTable.placed (k : KTable) (p : KPlace) : KTable :=
  match p with
  | .slot .. => { k with nextseq := k.nextseq + 1, bklive := k.bklive + 1 }
  | .record r => { k with nextseq := k.nextseq + 1, splive := k.splive + 1, sphw := max k.sphw (r + 1) }

/-- Place (R350): the place and the view after, or the status. -/
def KView.place (c : KView) (key : Word32) (value : Word64) : Except Trap (Except Nat KPlace × KView) := do
  let e := kEntry 1 c.k.nextseq value key
  if 2 ^ 24 ≤ c.k.nextseq then .ok (.error stSeqFull, c)
  else
    match ← c.search (fun x => !kLive x) (c.k.window key) with
    | some p => .ok (.ok p, { c.put p e with k := c.k.placed p })
    | none => do
      let spare ← c.search (fun x => !kLive x) c.k.records
      let p := match spare with
        | some p => some p
        | none => if c.k.sphw < c.k.cap then some (.record c.k.sphw) else none
      match p with
      | none => .ok (.error stFull, c)
      | some p =>
        let c1 := c.put p e
        let c2 := if c.overflowed key then c1 else c1.bump (c.k.home key) id true
        .ok (.ok p, { c2 with k := c.k.placed p })

/-- Delete (R350): a tombstone. -/
def KView.delete (c : KView) (p : KPlace) : Except Trap KView := do
  let e ← c.get p
  let k := match p with
    | .slot .. => { c.k with bklive := c.k.bklive - 1 }
    | .record _ => { c.k with splive := c.k.splive - 1 }
  .ok { c.put p (BitVec.ofNat 8 2 ++ e.extractLsb' 0 120) with k := k }

/-! ## Handles (R362) -/

/-- The table a handle names, or `KHANDLE`. -/
def Team.handle (t : Team) (v : Word64) : Except Trap KTable :=
  if 8 ≤ v.toNat then .error (trapOf .khandle)
  else
    match t.kts.getD v.toNat none with
    | some k => .ok k
    | none => .error (trapOf .khandle)

/-- The state with a team's table n replaced. -/
def State.setTable (s : State) (team n : Nat) (k : Option KTable) : State :=
  s.modTeam team (fun t => { t with kts := t.kts.set n k })

/-- An instruction joins the order of a unit; its long result, if it has one, is that of number nextId. -/
def State.queueKey (s : State) (g : Group) (result : Bool) : State :=
  s.modCore (g.core.getD 0) (fun c =>
    { c with keyOps := c.keyOps ++ [⟨g.id, g.team, if result then some s.nextId else none⟩] })

/-- A body over a claimed table: registers held, then the handle. -/
def tableBody (e : Opd) (held : List (Opd × Nat)) (act : Team → Nat → KView → Except Trap Done) : Body := fun s g => do
  g.checkHeld held
  match s.team? g.team with
  | none => .error (trapOf .khandle)
  | some t => do
    let k ← t.handle (g.uni64 e)
    act t (g.uni64 e).toNat ⟨s, g.core.getD 0, k⟩

/-- The end of a body over a table: the view's state with its table, queued at the unit. -/
def KView.done (c : KView) (t : Team) (n : Nat) (g : Group) (writes : List RegWrite) : Done :=
  { s := (c.s.setTable t.id n (some c.k)).queueKey g true, g := g, long := [{ writes := writes, unit := .keyTable }] }

/-! ## `KCLAIM`, `KFREE`, `KSTAT` (R347, R358) -/

/-- `KBADCLAIM` (R362). -/
def claimBad (t : Team) (scratch logb : Nat) (addr base cap : Word64) : Bool :=
  let a := addr.toNat
  let n := 128 * 2 ^ logb
  let off := a - LOCAL_BASE
  let lo := base.toNat
  let hi := base.toNat + 16 * cap.toNat
  a < LOCAL_BASE || LOCAL_BASE + 2 ^ 20 ≤ a || a % 128 != 0 || off < t.off || t.off + scratch < off + n ||
  t.kts.any (fun k => match k with | some k => k.off < off + n && off < k.off + 128 * 2 ^ k.logb | none => false) ||
  2 ^ 24 - 1 < cap.toNat ||
  (cap != 0 && (lo % 16 != 0 || (lo < LOCAL_BASE + 2 ^ 20 && SRAM_BASE < hi) ||
    (lo < SUPV_BASE + 2 ^ 24 && SUPV_BASE < hi)))

/-- `KCLAIM` (R347). -/
def kclaimBody (logb : Nat) (d a b c : Opd) : Body := fun s g =>
  match s.team? g.team with
  | none => .error (trapOf .khandle)
  | some t =>
    match indexOf? (fun k => k.isNone) t.kts with
    | none => .error (trapOf .khandle)
    | some n =>
      let addr := g.uni64 c
      let base := g.uni64 a
      let cap := g.uni64 b
      if claimBad t (s.valsOf t).scratch logb addr base cap then .error (trapOf .kbadclaim)
      else do
        let ps ← s.probe (s.accessor g) .write base (16 * cap.toNat) []
        let off := addr.toNat - LOCAL_BASE
        let core := g.core.getD 0
        let k : KTable :=
          { off := off, logb := logb, spill := base, cap := cap.toNat, pages := ps, nextseq := 0, sphw := 0, splive := 0,
            bklive := 0, cpos := 0, cvalid := false, ckey := false }
        let s1 := s.write (scrLoc core off) (List.replicate (128 * 2 ^ logb) 0)
        let s2 := (List.range (2 ^ logb)).foldl (fun s i => s.setFull (scrLoc core (off + 128 * i))) s1
        .ok { s := (s2.setTable t.id n (some k)).queueKey g true, g := g,
              touches := pageTouches ps
              long := [{ writes := g.writesTo d false 64 g.exec (fun _ => BitVec.ofNat 128 n), unit := .keyTable }] }

/-- `KFREE` (R347): it returns nothing. -/
def kfreeBody (e : Opd) : Body := fun s g =>
  tableBody e [] (fun t n c => .ok { s := (c.s.setTable t.id n none).queueKey g false, g := g }) s g

/-- The 128 bits of `KSTAT` (R358). -/
def KTable.stat (k : KTable) : BitVec 128 :=
  BitVec.ofNat 24 k.nextseq ++ BitVec.ofNat 4 k.logb ++ BitVec.ofBool (2 ^ 24 ≤ k.nextseq) ++ 0#1 ++
    BitVec.ofBool k.ckey ++ BitVec.ofBool k.cvalid ++ k.cpos ++ BitVec.ofNat 24 k.sphw ++ BitVec.ofNat 24 k.splive ++
    BitVec.ofNat 16 k.bklive

/-- `KSTAT` (log entry 40, DEDUCED). -/
def kstatBody (d e : Opd) : Body := fun s g =>
  tableBody e [] (fun t n c => .ok (c.done t n g (g.writesTo d false 128 g.exec (fun _ => c.k.stat)))) s g

/-! ## The lane forms (R353 to R356) -/

/-- The lanes of a set grouped by equal key, by lowest lane (R354). -/
def keyGroups (key : Nat → Word32) (lanes : List Nat) : List (Word32 × List Nat) :=
  (lanes.map key).eraseDups.map (fun k => (k, lanes.filter (fun i => key i == k)))

/-- What a key group gives its lanes: status and value. -/
abbrev KOut := List (Nat × Nat × Word64)

/-- An act on one key group. -/
abbrev KAct := KView → Word32 → List Nat → Except Trap (KView × KOut)

/-- One status for every lane of a group. -/
def sameOut (lanes : List Nat) (st : Nat) (v : Word64) : KOut :=
  lanes.map (fun i => (i, st, v))

/-- `KPRB`. -/
def probeAct : KAct := fun c key lanes => do
  match ← c.find key with
  | some p => do
    let e ← c.get p
    .ok (c, sameOut lanes (stExists + spillBit p) (kValue e))
  | none => .ok (c, sameOut lanes stAbsent 0)

/-- The status of the lowest lane, and of the others. -/
def firstOut (lanes : List Nat) (first others : Nat) : KOut :=
  lanes.map (fun i => (i, if lanes.head? = some i then first else others, 0))

/-- `KINS`. -/
def insertAct (val : Nat → Word64) : KAct := fun c key lanes => do
  match ← c.find key with
  | some p => .ok (c, sameOut lanes (stExists + spillBit p) 0)
  | none => do
    let (r, c1) ← c.place key (val (lanes.headD 0))
    match r with
    | .error st => .ok (c1, sameOut lanes st 0)
    | .ok p => .ok (c1, firstOut lanes (stNew + spillBit p) (stExists + spillBit p))

/-- `KDEL`. -/
def deleteAct : KAct := fun c key lanes => do
  match ← c.find key with
  | some p => do
    let c1 ← c.delete p
    .ok (c1, firstOut lanes (stExists + spillBit p) stAbsent)
  | none => .ok (c, sameOut lanes stAbsent 0)

/-- The operator of a `KACC` (R356). -/
def kRed : KOp → RedOp
  | .add => .add
  | .fadd => .fadd
  | .min => .min
  | .max => .max
  | .or => .or

/-- One step on codes; no flag is kept (R356). -/
def kStep (op : KOp) (ty : ITy) (a b : Code) : Code :=
  (redStep (kRed op) ty a b).1

/-- A `VALUE` whose low bits a form of w bits has written. -/
def kMerge (w : Nat) (old : Word64) (v : Code) : Word64 :=
  if w = 32 then old.extractLsb' 32 32 ++ v.setWidth 32 else v.setWidth 64

/-- `KACC`: the values of a group fold in ascending lane order (R354, R355). -/
def accAct (op : KOp) (ty : ITy) (val : Nat → Code) : KAct := fun c key lanes => do
  let v := (lanes.drop 1).foldl (fun v i => kStep op ty v (val i)) (val (lanes.headD 0))
  match ← c.find key with
  | some p => do
    let e ← c.get p
    let old := kValue e
    let new := kMerge ty.width old (kStep op ty (BitVec.ofNat 128 (old.toNat % 2 ^ ty.width)) v)
    .ok (c.put p (e.extractLsb' 96 32 ++ new ++ kKey e), sameOut lanes (stExists + spillBit p) 0)
  | none => do
    let (r, c1) ← c.place key (kMerge ty.width 0 (kStep op ty (redId (kRed op) ty) v))
    match r with
    | .error st => .ok (c1, sameOut lanes st 0)
    | .ok p => .ok (c1, sameOut lanes (stNew + spillBit p) 0)

/-- Every key group in order (R354); the fault of one is that of its lowest lane (R12). -/
def KView.acts (act : KAct) : List (Word32 × List Nat) → KView → Except Trap (KView × KOut)
  | [], c => .ok (c, [])
  | (key, lanes) :: rest, c =>
    match act c key lanes with
    | .error t => .error { t with lane := lanes.head? }
    | .ok (c1, o) => (KView.acts act rest c1).map (fun r => (r.1, o ++ r.2))

/-- What a lane gets: status and value; a lane that no group holds was skipped (R353). -/
def outOf (o : KOut) (i : Nat) : Nat × Word64 :=
  match o.find? (fun x => x.1 == i) with
  | some x => x.2
  | none => (stSkipped, 0)

/-- A lane form: status to the destination, values to another register for `KPRB`. -/
def laneFormBody (h : Hdr) (d a e : Opd) (held : List (Opd × Nat)) (members : Group → Mask) (out : Option (Opd × Nat))
    (act : Group → KAct) : Body := fun s g =>
  tableBody e ((d, 32) :: (a, 32) :: held) (fun t n c => do
    let groups := keyGroups (fun i => (g.srcLane a 32 i).setWidth 32) (lanesOf (members g))
    let (c1, o) ← KView.acts (act g) groups c
    let lanes := g.active h
    let st := g.writesTo d false 32 lanes (fun i => BitVec.ofNat 128 (outOf o i).1)
    let vs := match out with
      | some (b, w) => g.writesTo b false w lanes (fun i => BitVec.ofNat 128 ((outOf o i).2.toNat % 2 ^ w))
      | none => []
    .ok (c1.done t n g (st ++ vs))) s g

/-! ## Draining (R357) -/

/-- Every live entry of a table with its place. -/
def KView.entries (c : KView) : List KPlace → Except Trap (List (KPlace × BitVec 128))
  | [] => .ok []
  | p :: rest => do
    let e ← c.get p
    let l ← c.entries rest
    .ok (if kLive e then (p, e) :: l else l)

/-- Insert by a number, rising. -/
def insertBy {α : Type} (f : α → Nat) (a : α) : List α → List α
  | [] => [a]
  | b :: rest => if f a < f b then a :: b :: rest else b :: insertBy f a rest

def sortBy {α : Type} (f : α → Nat) (l : List α) : List α :=
  l.foldl (fun acc a => insertBy f a acc) []

/-- Delete some places. -/
def KView.deleteAll (c : KView) : List KPlace → Except Trap KView
  | [] => .ok c
  | p :: rest => do
    let c1 ← c.delete p
    c1.deleteAll rest

/-- `KDRN`. -/
def kdrnBody (h : Hdr) (ty : ITy) (key del rst : Bool) (d b cnt e : Opd) : Body := fun s g =>
  tableBody e [(d, 32), (b, ty.width)] (fun t n c => do
    let order (x : KPlace × BitVec 128) : Nat := if key then (kKey x.2).toNat else kSeq x.2
    let valid := c.k.cvalid && !rst && c.k.ckey == key
    let slots := (List.range (2 ^ c.k.logb)).flatMap (fun b => (List.range 7).map (.slot b))
    let all ← c.entries (slots ++ c.k.records)
    let past := all.filter (fun x => !valid || c.k.cpos.toNat < order x)
    let con := lanesOf (g.contributors h)
    let got := (sortBy order past).take con.length
    let c1 ← if del then c.deleteAll (got.map (·.1)) else .ok c
    let k := match got.getLast? with
      | some x => { c1.k with cpos := BitVec.ofNat 32 (order x), cvalid := true, ckey := key }
      | none => { c1.k with cvalid := valid }
    let entryOf (i : Nat) : Option (BitVec 128) :=
      ((con.zip got).find? (fun x => x.1 == i)).map (fun x => x.2.2)
    let act := g.active h
    let keys := g.writesTo d false 32 act (fun i =>
      match entryOf i with | some x => (kKey x).setWidth 128 | none => 0)
    let vals := g.writesTo b false ty.width act (fun i =>
      match entryOf i with | some x => BitVec.ofNat 128 ((kValue x).toNat % 2 ^ ty.width) | none => 0)
    let num := g.writesTo cnt false 64 g.exec (fun _ => BitVec.ofNat 128 got.length)
    .ok ({ c1 with k := k }.done t n g (keys ++ vals ++ num))) s g

/-! ## Instructions and the unit's event -/

def execKclaim (h : Hdr) (logb : BitVec 6) (d a b c : Opd) (s : State) : Host.Outcome State Fault Refusal :=
  issue s (.kclaim h logb d a b c) h false (ordered (kclaimBody logb.toNat d a b c))

def execKfree (h : Hdr) (e : Opd) (s : State) : Host.Outcome State Fault Refusal :=
  issue s (.kfree h e) h false (afterAcquires (kfreeBody e))

def execKins (h : Hdr) (ty : ITy) (d a b e : Opd) (s : State) : Host.Outcome State Fault Refusal :=
  issue s (.kins h ty d a b e) h false
    (afterAcquires (laneFormBody h d a e [(b, ty.width)] (fun g => g.contributors h) none
      (fun g => insertAct (fun i => (g.srcLane b ty.width i).setWidth 64))))

def execKprb (h : Hdr) (ty : ITy) (d a b e : Opd) (s : State) : Host.Outcome State Fault Refusal :=
  issue s (.kprb h ty d a b e) h false
    (afterAcquires (laneFormBody h d a e [(b, ty.width)] (fun g => g.active h) (some (b, ty.width)) (fun _ => probeAct)))

def execKdel (h : Hdr) (d a e : Opd) (s : State) : Host.Outcome State Fault Refusal :=
  issue s (.kdel h d a e) h false
    (afterAcquires (laneFormBody h d a e [] (fun g => g.contributors h) none (fun _ => deleteAct)))

def execKacc (h : Hdr) (op : KOp) (ty : ITy) (d a b e : Opd) (s : State) : Host.Outcome State Fault Refusal :=
  issue s (.kacc h op ty d a b e) h false
    (afterAcquires (laneFormBody h d a e [(b, ty.width)] (fun g => g.contributors h) none
      (fun g => accAct op ty (fun i => g.srcLane b ty.width i))))

def execKdrn (h : Hdr) (ty : ITy) (key del rst : Bool) (d b c e : Opd) (s : State) :
    Host.Outcome State Fault Refusal :=
  issue s (.kdrn h ty key del rst d b c e) h false (ordered (kdrnBody h ty key del rst d b c e))

def execKstat (h : Hdr) (d e : Opd) (s : State) : Host.Outcome State Fault Refusal :=
  issue s (.kstat h d e) h false (afterAcquires (kstatBody d e))

/-- The result of a number returns, wherever its group keeps it (R195, R404, R241). -/
def markReturned (id : Nat) (l : List Long) : List Long :=
  l.map (fun x => if x.id == id then { x with returned := true } else x)

def Group.returned (g : Group) (id : Nat) : Group :=
  let sh (x : Shadow) : Shadow := { x with pend := markReturned id x.pend }
  { g with
    pend := markReturned id g.pend
    hset := g.hset.map sh
    sset := g.sset.map sh
    folds := g.folds.map (fun f => { f with pend := markReturned id f.pend }) }

/-- The front of a unit's order completes. -/
def State.unitDone (s : State) (op : UnitOp) : State :=
  match op.result, s.group? op.gid with
  | some id, some g => s.setGroup (g.returned id)
  | _, _ => s

/-- `KEY_OP_COMPLETE` (R359). -/
def execKeyOpComplete (core : Nat) (s : State) : Host.Outcome State Fault Refusal :=
  match (s.core core).keyOps with
  | op :: rest => .next ((s.modCore core (fun c => { c with keyOps := rest })).unitDone op)
  | [] => .next s

end Sys2Proof.Machine
end

