-- ==== Sys2Proof/Machine/Stream.lean ====
section
/-! DEFINITION. Stochastic streams (R364 to R378). Each stream instruction acts as a whole at its issue; its results return
when Chord's order reaches it (R375). -/

namespace Sys2Proof.Machine

/-! ## Streams -/

/-- The stream length of a group (R365). -/
def Group.slen (g : Group) : Nat :=
  64 * 2 ^ g.len.toNat

/-- A stream register as it is at first placement (R364). -/
def Stream.zero : Stream :=
  { lanes := Vector.replicate 64 0, cls := 0, poison := false }

/-- The number of the stream register an operand names for a group (R186). -/
def Group.streamNum (g : Group) (o : Opd) : Nat :=
  match o with
  | .s n => g.swin.toNat + n.toNat
  | _ => 0

/-- The stream register an operand names, or `NOSTRM` (R186). -/
def Team.stream (t : Team) (g : Group) (o : Opd) : Except Trap Stream :=
  match t.streams[g.streamNum o]? with
  | some x => .ok x
  | none => .error (trapOf .nostrm)

/-- Bits [L − 1:0] of a lane. -/
def Stream.lane (x : Stream) (len i : Nat) : BitVec 512 :=
  vget x.lanes i 0 &&& BitVec.ofNat 512 (2 ^ len - 1)

/-- A source that is poisoned (R377). -/
def readable (xs : List Stream) : Except Trap Unit :=
  if xs.any (fun x => x.poison) then .error (trapOf .poison) else .ok ()

/-- What an instruction leaves in its destination: the lanes written, the class set, the mark (R366, R367, R377). -/
def Stream.put (x : Stream) (len : Nat) (con : Mask) (cls : BitVec 16) (f : Nat → BitVec 512) : Stream :=
  let all := con = BitVec.allOnes 64
  { lanes := vecOf 64 (fun i =>
      if con.getLsbD i then f i &&& BitVec.ofNat 512 (2 ^ len - 1) else vget x.lanes i 0)
    cls := if all then cls else cls ||| x.cls
    poison := x.poison && !all }

/-- The state with a team's stream register n replaced. -/
def State.setStream (s : State) (team n : Nat) (x : Stream) : State :=
  s.modTeam team (fun t => { t with streams := t.streams.set n x })

/-- An instruction joins Chord's order. -/
def State.queueChord (s : State) (g : Group) (result : Bool) : State :=
  s.modCore (g.core.getD 0) (fun c =>
    { c with chordOps := c.chordOps ++ [⟨g.id, g.team, if result then some s.nextId else none⟩] })

/-- A body over stream registers: the group waits while Chord's order is full (R376); every stream named is one of the
team's, then the vector registers are held (R378). -/
def streamBody (ss : List Opd) (held : List (Opd × Nat)) (act : Team → List Stream → Except Trap Done) : Body := fun s g =>
  if 8 ≤ (s.core (g.core.getD 0)).chordOps.length then .ok { s := s, g := g, wait := some .chord, hold := true }
  else
    match s.team? g.team with
    | none => .error (trapOf .nostrm)
    | some t => do
      let xs ← ss.mapM (t.stream g)
      g.checkHeld held
      act t xs

/-- The end of an instruction that writes a stream register. -/
def State.putStream (s : State) (g : Group) (h : Hdr) (t : Team) (d : Opd) (old : Stream) (cls : BitVec 16)
    (f : Nat → BitVec 512) : State :=
  (s.setStream t.id (g.streamNum d) (old.put g.slen (g.contributors h) cls f)).queueChord g false

/-! ## Generating (R370, R371) -/

/-- The threshold of an FP32 code, and whether it is a NaN (R370). -/
def threshold (v : FVal) : Nat × FFlags :=
  match v with
  | .nan _ => (0, fInvalid)
  | .inf n => (if n then 0 else 65536, 0)
  | .fin n m e =>
    if n || m = 0 then (0, 0)
    else if !magLt m e 1 0 then (65536, 0)
    else
      let k := (-e).toNat
      ((m * 65536 + 2 ^ k - 1) / 2 ^ k, 0)

/-- The bits of a lane: draws below a threshold. -/
def drawLane (seed : Word64) (cls len lane th : Nat) : BitVec 512 :=
  (List.range len).foldl (fun b j =>
    if lattice seed cls lane (BitVec.ofNat 64 j) < th then b ||| (1#512 <<< j) else b) 0

/-- The set of one class. -/
def oneClass (c : BitVec 4) : BitVec 16 :=
  1#16 <<< c.toNat

/-- `SGEN`. -/
def sgenBody (h : Hdr) (cls : BitVec 4) (d a b : Opd) : Body := fun s g =>
  streamBody [d] [(a, 32)] (fun t xs =>
    let th (i : Nat) : Nat × FFlags := threshold (valOf .f32 (g.srcLane a 32 i).toNat)
    let con := g.contributors h
    .ok { s := s.putStream g h t d (xs.getD 0 Stream.zero) (oneClass cls)
            (fun i => drawLane (g.uni64 b) cls.toNat g.slen i (th i).1)
          g := g.raiseFlags (flagsOver con 0 (fun i => (th i).2)) }) s g

/-- `SREGEN`. -/
def sregenBody (h : Hdr) (cls : BitVec 4) (d a b : Opd) : Body := fun s g =>
  streamBody [d, a] [] (fun t xs => do
    let src := xs.getD 1 Stream.zero
    readable [src]
    .ok { s := s.putStream g h t d (xs.getD 0 Stream.zero) (oneClass cls)
            (fun i => drawLane (g.uni64 b) cls.toNat g.slen i (popcount (src.lane g.slen i) * (65536 / g.slen)))
          g := g }) s g

/-! ## Combining (R366, R372) -/

/-- A form of two sources. -/
def combine2 (h : Hdr) (d a b : Opd) (ok : BitVec 16 → BitVec 16 → Bool) (cls : BitVec 16 → BitVec 16 → BitVec 16)
    (f : BitVec 512 → BitVec 512 → BitVec 512) : Body := fun s g =>
  streamBody [d, a, b] [] (fun t xs => do
    let x := xs.getD 1 Stream.zero
    let y := xs.getD 2 Stream.zero
    if !ok x.cls y.cls then .error (trapOf .corrmix)
    else do
      readable [x, y]
      .ok { s := s.putStream g h t d (xs.getD 0 Stream.zero) (cls x.cls y.cls)
              (fun i => f (x.lane g.slen i) (y.lane g.slen i))
            g := g }) s g

/-- `SNOT`. -/
def snotBody (h : Hdr) (d a : Opd) : Body := fun s g =>
  streamBody [d, a] [] (fun t xs => do
    let x := xs.getD 1 Stream.zero
    readable [x]
    .ok { s := s.putStream g h t d (xs.getD 0 Stream.zero) x.cls (fun i => ~~~(x.lane g.slen i)), g := g }) s g

/-- `SSEL`. -/
def sselBody (h : Hdr) (d a b c : Opd) : Body := fun s g =>
  streamBody [d, a, b, c] [] (fun t xs => do
    let x := xs.getD 1 Stream.zero
    let y := xs.getD 2 Stream.zero
    let z := xs.getD 3 Stream.zero
    if z.cls &&& x.cls != 0 || z.cls &&& y.cls != 0 then .error (trapOf .corrmix)
    else do
      readable [x, y, z]
      .ok { s := s.putStream g h t d (xs.getD 0 Stream.zero) (x.cls ||| y.cls ||| z.cls)
              (fun i => (z.lane g.slen i &&& y.lane g.slen i) ||| (~~~(z.lane g.slen i) &&& x.lane g.slen i))
            g := g }) s g

/-! ## Reading (R373) -/

/-- A count as a result: the number, or its share of the length in FP32. -/
def countCode (f : Bool) (len n : Nat) : Code :=
  if f then BitVec.ofNat 128 (fmtF32.round .rne false false 0 (quotient false n 0 len 0)).1 else BitVec.ofNat 128 n

/-- `SCNT`. -/
def scntBody (h : Hdr) (f : Bool) (d a : Opd) : Body := fun s g =>
  streamBody [a] [(d, 32)] (fun _ xs => do
    let x := xs.getD 0 Stream.zero
    readable [x]
    .ok { s := s.queueChord g true, g := g,
          long := [{ writes := g.writesTo d false 32 (g.active h)
                       (fun i => countCode f g.slen (popcount (x.lane g.slen i)))
                     unit := .chord }] }) s g

/-- The mask that `SBIT` writes. -/
def Group.streamBit (g : Group) (h : Hdr) (d b : Opd) (x : Stream) : List RegWrite :=
  let j := (g.uni64 b).toNat % g.slen
  g.writesTo d false 1 (g.active h) (fun i => BitVec.ofNat 128 ((x.lane g.slen i).getLsbD j).toNat)

/-- `SBIT` (R373, R376): its group stays, `prog` not 0, until Chord has returned the mask, which is then a short result. -/
def sbitBody (h : Hdr) (d a b : Opd) : Body := fun s g =>
  if g.prog = 0 then
    streamBody [a] [] (fun _ xs => do
      let x := xs.getD 0 Stream.zero
      readable [x]
      let l : Long :=
        { id := s.nextId, writes := g.streamBit h d b x, tr := h.tr, returned := false, unit := .chord, load := none,
          poison := [], gate := none, at_ := g.pc, spord := 0xFFFF_FFFF, prior := none }
      .ok { s := { s.queueChord g true with nextId := s.nextId + 1 }
            g := { g with pend := g.pend ++ [l], prog := BitVec.allOnes 64 }
            wait := some .chord, hold := true }) s g
  else
    match g.pend.getLast? with
    | some l =>
      if l.returned then .ok { s := s, g := { g with pend := g.pend.dropLast }, short := l.writes }
      else .ok { s := s, g := g, wait := some .chord, hold := true }
    | none => .ok { s := s, g := g }

/-- `SCLS`. -/
def sclsBody (d a : Opd) : Body := fun s g =>
  streamBody [a] [] (fun _ xs => do
    let x := xs.getD 0 Stream.zero
    readable [x]
    .ok { s := s.queueChord g true, g := g,
          long := [{ writes := g.writesTo d false 64 g.exec
                       (fun _ => BitVec.ofNat 128 (x.cls.toNat + g.slen * 2 ^ 16))
                     unit := .chord }] }) s g

/-- `SLEN` (R365): it takes its place in Chord's order and touches no stream (R375, R376). -/
def slenBody (l : BitVec 2) : Body := fun s g =>
  streamBody [] [] (fun _ _ => .ok { s := s.queueChord g false, g := { g with len := l } }) s g

/-! ## Instructions and the unit's event -/

def execSlen (h : Hdr) (l : BitVec 2) (s : State) : Host.Outcome State Fault Refusal :=
  issue s (.slen h l) h false (slenBody l)

def execSgen (h : Hdr) (cls : BitVec 4) (d a b : Opd) (s : State) : Host.Outcome State Fault Refusal :=
  issue s (.sgen h cls d a b) h false (afterAcquires (sgenBody h cls d a b))

def execSmul (h : Hdr) (d a b : Opd) (s : State) : Host.Outcome State Fault Refusal :=
  issue s (.smul h d a b) h false
    (afterAcquires (combine2 h d a b (fun x y => x &&& y == 0) (· ||| ·) (· &&& ·)))

def execSmin (h : Hdr) (d a b : Opd) (s : State) : Host.Outcome State Fault Refusal :=
  issue s (.smin h d a b) h false (afterAcquires (combine2 h d a b (· == ·) (fun x _ => x) (· &&& ·)))

def execSmax (h : Hdr) (d a b : Opd) (s : State) : Host.Outcome State Fault Refusal :=
  issue s (.smax h d a b) h false (afterAcquires (combine2 h d a b (· == ·) (fun x _ => x) (· ||| ·)))

def execSnot (h : Hdr) (d a : Opd) (s : State) : Host.Outcome State Fault Refusal :=
  issue s (.snot h d a) h false (afterAcquires (snotBody h d a))

def execSsel (h : Hdr) (d a b c : Opd) (s : State) : Host.Outcome State Fault Refusal :=
  issue s (.ssel h d a b c) h false (afterAcquires (sselBody h d a b c))

def execScnt (h : Hdr) (f : Bool) (d a : Opd) (s : State) : Host.Outcome State Fault Refusal :=
  issue s (.scnt h f d a) h false (afterAcquires (scntBody h f d a))

def execSregen (h : Hdr) (cls : BitVec 4) (d a b : Opd) (s : State) : Host.Outcome State Fault Refusal :=
  issue s (.sregen h cls d a b) h false (afterAcquires (sregenBody h cls d a b))

def execSbit (h : Hdr) (d a b : Opd) (s : State) : Host.Outcome State Fault Refusal :=
  issue s (.sbit h d a b) h false (afterAcquires (sbitBody h d a b))

def execScls (h : Hdr) (d a : Opd) (s : State) : Host.Outcome State Fault Refusal :=
  issue s (.scls h d a) h false (afterAcquires (sclsBody d a))

/-- `CHORD_OP_COMPLETE` (R375). -/
def execChordOpComplete (core : Nat) (s : State) : Host.Outcome State Fault Refusal :=
  match (s.core core).chordOps with
  | op :: rest => .next ((s.modCore core (fun c => { c with chordOps := rest })).unitDone op)
  | [] => .next s

end Sys2Proof.Machine
end

