-- ==== Sys2Proof/Machine/Exchange.lean ====
section
/-! DEFINITION. Exchanges (R379 to R399): tile registers, collectives, inter-partition queues, expert dispatch. -/

namespace Sys2Proof.Machine

/-! ## `TILE` (R380, R381) -/

/-- `BADTILE` (R381). -/
def tileBad (t : BitVec 256) : Bool :=
  bitsN t 151 128 != 0 || tdPlanes t == 0 || tdRows t == 0 || tdRowb t == 0 ||
    2 ^ 30 ≤ tdPlanes t * tdRows t * tdRowb t

/-- The 128 bits of an even pair. -/
def Group.pair (g : Group) (o : Opd) : BitVec 128 :=
  match o with
  | .x n => g.xCode n 128
  | _ => 0

/-- `TILE` (R381): its register is a long result (R192). -/
def tileBody (d a b : Opd) : Body := fun s g =>
  let t : BitVec 256 := g.pair b ++ g.pair a
  if tileBad t then .error (trapOf .badtile)
  else
    match d with
    | .t n => .ok { s := s, g := g, long := [{ writes := [.t n t] }] }
    | _ => .ok { s := s, g := g }

/-! ## The shape of a collective (R386, R387) -/

/-- The element size. -/
def CollDesc.es (d : CollDesc) : Nat :=
  match d.ctype with
  | 3 | 4 => 2
  | 5 | 6 => 8
  | _ => 4

/-- The elements a member's source holds, and its destination (log entry 25, DEDUCED). -/
def CollDesc.srcLen (d : CollDesc) : Nat :=
  if d.ckind = 5 then 0 else d.count

def CollDesc.dstLen (d : CollDesc) : Nat :=
  match d.ckind with
  | 1 => d.count / d.memb
  | 2 => d.memb * d.count
  | 5 => 0
  | _ => d.count

/-- The ranks and source elements that destination element j of member m takes (R386). -/
def CollDesc.takes (d : CollDesc) (m j : Nat) : List (Nat × Nat) :=
  let part := d.count / d.memb
  match d.ckind with
  | 0 => (List.range d.memb).map (fun r => (r, j))
  | 1 => (List.range d.memb).map (fun r => (r, m * part + j))
  | 2 => [(j / d.count, j % d.count)]
  | 3 => [(0, j)]
  | 4 => [(j / max 1 part, m * part + j % max 1 part)]
  | _ => []

/-- Does the collective move anything (R389)? -/
def CollDesc.moves (d : CollDesc) : Bool :=
  d.memb != 1 && d.count != 0 && d.ckind != 5

/-- The integer type of a collective, or its float type. -/
def CollDesc.ity (d : CollDesc) : Option ITy :=
  match d.ctype with
  | 0 => some .i32
  | 1 => some .n32
  | 6 => some .i64
  | _ => none

def CollDesc.fty (d : CollDesc) : FTy :=
  match d.ctype with
  | 3 => .bf16
  | 4 => .f16
  | 5 => .f64
  | _ => .f32

def CollDesc.op (d : CollDesc) : RedOp :=
  match d.cop with
  | 0 => .add
  | 1 => .min
  | 2 => .max
  | 3 => .and
  | 4 => .or
  | _ => .xor

/-- One step of a float reduction (R387). -/
def fltCollStep (ty : FTy) (op : RedOp) (a b : Code) : Code :=
  let c : FCtx := { ty := ty, rm := .rne, ftz := false, draw := 0 }
  let x := valOf ty a.toNat
  let y := valOf ty b.toNat
  (match op with
   | .min => fpickF true c x y
   | .max => fpickF false c x y
   | _ => faddF c x y).1

def CollDesc.step (d : CollDesc) (a b : Code) : Code :=
  match d.ity with
  | some ty => (redStep d.op ty a b).1
  | none => fltCollStep d.fty d.op a b

def CollDesc.ident (d : CollDesc) : Code :=
  match d.ity with
  | some ty => redId d.op ty
  | none =>
    match d.op with
    | .min | .max => BitVec.ofNat 128 (fmtOf d.fty).nan
    | _ => BitVec.ofNat 128 ((fmtOf d.fty).sign true)

/-- The tree over rank (R387). -/
def CollDesc.reduce (d : CollDesc) (vals : List Code) : Code :=
  let levels := Nat.log2 (2 * d.memb - 1)
  let leaves := (List.range (2 ^ levels)).map (fun r => vals.getD r d.ident)
  ((treeLevels (fun a b => (d.step a b, 0)) levels leaves).1).headD 0

/-! ## A member's ranges (R380, R386) -/

/-- The address of a flat byte offset of a member's source or destination. -/
def flatAddr (tile : Option (BitVec 256)) (src : Bool) (base : Word64) (o : Nat) : Word64 :=
  match tile with
  | none => plus base o
  | some t =>
    let row := o / max 1 (tdRowb t)
    let r := tdRow t row
    plus base ((if src then r.1 else r.2) + o % max 1 (tdRowb t))

/-- The ranges of the first n bytes. -/
def flatRanges (tile : Option (BitVec 256)) (src : Bool) (base : Word64) (n : Nat) : List Range :=
  match tile with
  | none => [(base, n)]
  | some t =>
    let b := max 1 (tdRowb t)
    (List.range ((n + b - 1) / b)).map (fun k => (flatAddr tile src base (k * b), min b (n - k * b)))

def CollMember.srcRanges (m : CollMember) (d : CollDesc) : List Range :=
  flatRanges m.tile true m.src (d.srcLen * d.es)

def CollMember.dstRanges (m : CollMember) (d : CollDesc) : List Range :=
  flatRanges m.tile false m.dst (d.dstLen * d.es)

/-! ## `COLL` (R385) -/

/-- A byte of a range in a scratchpad window, a host window or the supervisor window. -/
def State.collBad (s : State) (a : Accessor) (r : Range) : Bool :=
  (spans r.1 r.2).any (fun p =>
    match regionOf a.core p.1 with
    | .scratch .. | .supv _ => true
    | .unmapped => inScr p.1
    | .translated =>
      match s.leaf a.tlb a.part p.1 with
      | .ok l => HOST_BASE ≤ l.pa && l.pa < 2 * HOST_BASE
      | .error _ => false)

/-- The team whose allocation holds an offset of a slice: a resident one, or one that left the core (R391). -/
def State.allocAt (s : State) (core off : Nat) : Option Team :=
  let inside (t : Team) : Bool :=
    !t.spawn && t.off ≤ off && off < t.off + (s.valsOf t).scratch + (s.valsOf t).frstk
  match s.teams.find? (fun t => t.core == some core && inside t) with
  | some t => some t
  | none => s.teams.find? (fun t => t.core.isNone && t.home == core && inside t)

/-- The team and offset of an address in the scratchpad. -/
def State.scrOwner (s : State) (core : Option Nat) (va : Word64) : Option Nat × Nat :=
  match regionOf core va with
  | .scratch c off => ((s.allocAt c off).map (fun t => t.id), off)
  | _ => (none, 0)

/-- The 256 bits of a descriptor (R385), or the fault of the read: `POISON` names the unit (R420; log entry 42, DEDUCED). -/
def State.readDesc (s : State) (g : Group) (va : Word64) : Except Trap (BitVec 256) :=
  match s.locOf (s.accessor g) .read va with
  | .error c => .error (trapAt c va)
  | .ok loc =>
    match s.poisonIn loc 32 with
    | some u => .error (trapAt .poison (plus va (u - loc)))
    | none => .ok (BitVec.ofNat 256 (s.readNat loc 32))

/-- The checks of R385 in order, and the pages probed. -/
def State.checkMember (s : State) (g : Group) (d : CollDesc) (m : CollMember) : Except Trap (List Page) := do
  let a := s.accessor g
  let bytes := max d.srcLen d.dstLen * d.es
  let tileOk :=
    match m.tile with
    | none => true
    | some t => tdRowb t % d.es == 0 && bytes ≤ tdPlanes t * tdRows t * tdRowb t
  if !tileOk || (m.srcRanges d ++ m.dstRanges d).any (s.collBad a) then .error (trapOf .badcoll)
  else do
    let _ ← s.barLoc g d.bar
    if m.trigger != 0 && m.trigger.toNat % 8 ≠ 0 then .error (trapAt .misalign m.trigger)
    else do
      let p1 ← (m.srcRanges d).foldlM (fun ps r => s.probe a .read r.1 r.2 ps) []
      let p2 ← (m.dstRanges d).foldlM (fun ps r => s.probe a .write r.1 r.2 ps) p1
      if m.trigger = 0 then .ok p2 else s.probe a .write m.trigger 8 p2

/-- The oldest open instance of a key that does not hold a rank (R385) (log entry 42, DEDUCED). -/
def State.openColl (s : State) (part : Nat) (key : Word64) (rank : Nat) : Option Coll :=
  s.colls.find? (fun c => c.part == part && c.key == key && c.launch.isNone &&
    c.members.length < c.desc.memb && !c.members.any (fun m => m.rank == rank))

/-- The instances that are open: an attached one until it completes (R385). -/
def State.openColls (s : State) : List Coll :=
  s.colls.filter (fun c => !(c.launch.bind s.launch?).any (fun l => l.collDone))

/-- `COLL`. -/
def collBody (h : Hdr) (tile : Option (BitVec 2)) (d a b c e : Opd) : Body := fun s g =>
  let key := g.uni64 a
  if !s.collCores || key.toNat % 32 ≠ 0 then .error (trapOf .badcoll)
  else do
    let bits ← s.readDesc g key
    let desc := collOf bits
    let rank := (g.uni64 b).toNat
    if !collOk bits || desc.memb ≤ rank || ((desc.ckind = 1 || desc.ckind = 4) && desc.count % desc.memb ≠ 0) then
      .error (trapOf .badcoll)
    else
      let td := match tile with | some n => vget g.t n.toNat none | none => none
      if tile.isSome && td.isNone then .error (trapOf .badtile)
      else do
        let trigger := g.uni64 d
        let own := s.scrOwner g.core trigger
        let (team, launch) := match s.team? g.team with | some t => (t.id, t.launch) | none => (0, 0)
        let part := (s.accessor g).part
        let m : CollMember :=
          { rank := rank, src := g.uni64 c, dst := g.uni64 e, trigger := trigger, trigTeam := own.1, trigOff := own.2,
            tile := td, pages := [], team := team, launch := launch,
            fork := s.forkOf g (if h.st then s.ordinal g g.pc else none) }
        let ps ← s.checkMember g desc m
        let m1 := { m with pages := ps }
        let ts : List Touch := ⟨key, 32, true, false⟩ :: pageTouches ps
        match s.openColl part key rank with
        | some k =>
          if k.desc = desc then
            .ok { s := { s with
                    colls := s.colls.map (fun x =>
                      if x.id == k.id then { x with members := x.members ++ [m1] } else x) }
                  g := g, touches := ts }
          else .error (trapOf .badcoll)
        | none =>
          if 256 ≤ s.openColls.length then .ok { s := s, g := g, wait := some .queue, hold := true }
          else
            let bar := s.scrOwner g.core desc.bar
            .ok { s := { s with
                    colls := s.colls ++ [{ id := s.nextId, part := part, key := key, launch := none, desc := desc,
                                           members := [m1], barTeam := bar.1, barOff := bar.2 }]
                    nextId := s.nextId + 1 }
                  g := g, touches := ts }

/-! ## A collective runs (R388 to R391) -/

/-- Has a member of an attached collective become ready (R390)? -/
def State.attachedReady (s : State) (l : Launch) (m : Nat) : Bool :=
  let count := l.vals.gx * l.vals.gy * l.vals.gz
  let placed := l.ended || (if m < count then m < l.next else count ≤ l.next)
  placed && !s.teams.any (fun t => t.launch == l.id && !t.spawn && (count ≤ m || t.l == m))

/-- May an instance run? -/
def State.collReady (s : State) (c : Coll) : Bool :=
  match c.launch with
  | none => c.members.length == c.desc.memb
  | some id =>
    match s.launch? id with
    | some l => (List.range c.desc.memb).all (s.attachedReady l)
    | none => true

/-- The pages of a range that can be reached. -/
def State.reachable (s : State) (part : Nat) (use : Use) (r : Range) : List Page :=
  (spans r.1 r.2).flatMap (fun p =>
    match s.locOf (engineOf part) use p.1 with
    | .ok _ => s.pageOf none part p.1
    | .error _ => [])

/-- The members of an attached collective (R390), with the pages that can be reached at the run. -/
def State.attachedMembers (s : State) (c : Coll) : List CollMember :=
  let d := c.desc
  (List.range d.memb).map (fun m =>
    let x : CollMember :=
      { rank := m, src := plus d.src (m * d.srcLen * d.es), dst := plus d.dst (m * d.dstLen * d.es), trigger := 0,
        trigTeam := none, trigOff := 0, tile := none, pages := [], team := 0, launch := c.launch.getD 0,
        fork := ⟨c.part, none, 0, 0xFFFF, 0, 0xFFFF_FFFF⟩ }
    { x with pages := (x.srcRanges d).flatMap (s.reachable c.part .read) ++
                      (x.dstRanges d).flatMap (s.reachable c.part .write) })

/-- The location of an address that a member reaches. -/
def CollMember.loc (m : CollMember) (va : Word64) : Option Nat :=
  (m.pages.find? (fun p => p.va == va.toNat / 2 ^ 16)).map (fun p => p.pa + va.toNat % 2 ^ 16)

/-- Source element i of a member: its bits, and whether a byte of it is poisoned. A byte out of reach is free. -/
def State.collElem (s : State) (d : CollDesc) (m : CollMember) (i : Nat) : Code × Bool :=
  let byte (k : Nat) : Byte × Bool :=
    let va := plus (flatAddr m.tile true m.src (i * d.es)) k
    match m.loc va with
    | some l => (s.read8 l, s.poison.contains (l / 16))
    | none => (Config.collByte s.freeCtr va, false)
  let bs := (List.range d.es).map byte
  (BitVec.ofNat 128 (natOf (bs.map (·.1))), bs.any (·.2))

/-- What destination element j of member m receives. -/
def State.collValue (s : State) (d : CollDesc) (ms : List CollMember) (m j : Nat) : Code × Bool :=
  let vals := (d.takes m j).map (fun t =>
    match ms.find? (fun x => x.rank == t.1) with
    | some x => s.collElem d x t.2
    | none => (d.ident, false))
  (if d.ckind ≤ 1 then d.reduce (vals.map (·.1)) else (vals.map (·.1)).headD 0, vals.any (·.2))

/-- One destination element is written; bytes out of reach are dropped. -/
def State.putCollElem (s : State) (d : CollDesc) (m : CollMember) (j : Nat) (v : Code × Bool) : State :=
  (List.range d.es).foldl (fun s k =>
    match m.loc (plus (flatAddr m.tile false m.dst (j * d.es)) k) with
    | some l =>
      let s1 := s.writeNat l 1 (byteOf v.1.toNat k).toNat
      if v.2 then s1.setPoison l else s1
    | none => s) s

/-- Units that a destination range covers whole lose their poison (R420). -/
def State.cleanRange (s : State) (m : CollMember) (r : Range) : State :=
  (spans r.1 r.2).foldl (fun s p =>
    match m.loc p.1 with
    | some l => { s with poison := s.poison.filter (fun u => !(l ≤ u * 16 && u * 16 + 16 ≤ l + p.2)) }
    | none => s) s

/-- The data of a collective moves: every value is read before any is written. -/
def State.collMove (s : State) (c : Coll) (ms : List CollMember) : State :=
  let d := c.desc
  if d.moves then
    let out := ms.map (fun m => (m, (List.range d.dstLen).map (s.collValue d ms m.rank)))
    let s1 := out.foldl (fun s x =>
      let s0 := (x.1.dstRanges d).foldl (fun s r => s.cleanRange x.1 r) s
      x.2.zipIdx.foldl (fun s (v, j) => s.putCollElem d x.1 j v) s0) s
    let s2 := if c.launch.isNone then ms.foldl (fun s m => s.watchEngine m.fork (m.dstRanges d)) s1 else s1
    { s2 with freeCtr := s2.freeCtr + 1 }
  else s

/-- An instance is no longer open. -/
def State.retireColl (s : State) (c : Coll) : State :=
  { s with colls := s.colls.filter (fun x => x.id != c.id) }

/-- Has the last team of a launch had its last group exit (R128)? -/
def State.lastExited (s : State) (l : Launch) : Bool :=
  (l.ended || l.next == l.vals.gx * l.vals.gy * l.vals.gz) && (s.teamsOf l.id).isEmpty

/-- One arrival on the object of a team (R388, R391): held while the team is away, discarded when it is gone. -/
def State.arriveTeam (s : State) (team : Option Nat) (off : Nat) : State :=
  match team.bind s.team? with
  | none => s
  | some t =>
    match t.core with
    | some c =>
      let loc := scrLoc c off
      s.putArrival loc (s.barrier loc) 1
    | none => s.modTeam t.id (fun t => { t with held := t.held ++ [(off, 1)] })

/-- A trigger adds 1 to a 64-bit word of memory, which can hit (R388, R428); on a poisoned unit it writes nothing (R420). -/
def State.addOne (s : State) (m : CollMember) (loc : Nat) : State :=
  if (s.poisonIn loc 8).isSome then s
  else (s.writeNat loc 8 ((s.readNat loc 8 + 1) % 2 ^ 64)).watchEngine m.fork [(m.trigger, 8)]

/-- The same in an image, at an offset of the allocation. -/
def ScrImage.addOne (im : ScrImage) (o : Nat) : ScrImage :=
  if im.poison.contains (o / 16) then im
  else { im with bytes := Memory.write im.bytes o (bytesOf 8 ((natOf (Memory.readN im.bytes o 8) + 1) % 2 ^ 64)) }

/-- The trigger of a member (R388): in memory, in a resident team's slice, or in the image of a team that is away. -/
def State.trigger (s : State) (m : CollMember) : State :=
  if m.trigger = 0 then s
  else
    match m.trigTeam with
    | none => match m.loc m.trigger with | some l => s.addOne m l | none => s
    | some id =>
      match s.team? id with
      | none => s
      | some t =>
        match t.core with
        | some c => s.addOne m (scrLoc c m.trigOff)
        | none => s.modTeam id (fun t => { t with image := t.image.map (fun im => im.addOne (m.trigOff - t.off)) })

/-- The arrival of a collective on the object of a resident team can hit, for the member that opened the instance (R428; log
entry 17, DEDUCED). -/
def State.watchArrival (s : State) (c : Coll) (team : Option Nat) : State :=
  match c.launch, c.members.head? with
  | none, some m =>
    if (team.bind s.team?).any (fun t => t.core.isSome) then s.watchEngine m.fork [(plus c.desc.bar 4, 12)] else s
  | _, _ => s

/-- A collective completes (R388, R389): data, the arrival, the triggers in ascending rank. -/
def State.completeColl (s : State) (c : Coll) : State :=
  let ms := if c.launch.isSome then s.attachedMembers c else c.members
  let s1 := s.collMove c ms
  let bar := if c.launch.isSome then s.scrOwner none c.desc.bar else (c.barTeam, c.barOff)
  let s2 := (s1.arriveTeam bar.1 bar.2).watchArrival c bar.1
  let s3 := (sortBy (fun m => m.rank) ms).foldl (fun s m => s.trigger m) s2
  match c.launch with
  | some id => s3.modLaunch id (fun l => { l with collDone := true })
  | none => s3

/-- The event of an instance: it completes when it may run; an attached one that has completed retires after the launch's
last exit (R128, R388; log entry 42, DEDUCED). -/
def State.collStep (s : State) (c : Coll) : State :=
  match c.launch.bind s.launch? with
  | some l =>
    if l.collDone then (if s.lastExited l then s.retireColl c else s)
    else if s.collReady c then s.completeColl c
    else s
  | none => if s.collReady c then (s.completeColl c).retireColl c else s

/-! ## Inter-partition queues (R392 to R394) -/

def State.ipq (s : State) (q : Nat) : IpQueue :=
  vget s.ipqs q ⟨false, 0, 0, 0, []⟩

def State.setIpq (s : State) (q : Nat) (x : IpQueue) : State :=
  { s with ipqs := vset s.ipqs q x }

/-- May the group use the queue (R393)? -/
def State.queueOk (s : State) (g : Group) (v : Word64) (push : Bool) : Bool :=
  let q := s.ipq v.toNat
  v.toNat < 1024 && q.en && (if push then q.prod else q.cons).getLsbD (s.accessor g).part

/-- What a lane of a queue instruction has done: status, and the entry popped. -/
structure QLane where
  lane : Nat
  status : Nat
  entry : Option QEntry
  deriving DecidableEq, Repr

/-- The 128 bits of a payload, in four registers. -/
def Group.payload (g : Group) (o : Opd) (lane : Nat) : BitVec 128 :=
  g.vCode (vNum o) 128 lane

/-- Push lane by lane (R393): the lanes done, and whether one must wait. -/
def State.pushLanes (s : State) (g : Group) (q : Nat) (wait : Bool) (a : Opd) : List Nat → State × List QLane × Bool
  | [] => (s, [], false)
  | i :: rest =>
    let x := s.ipq q
    if 2 ^ x.depthl.toNat ≤ x.entries.length then
      if wait then (s, [], true)
      else
        let (s', l, w) := s.pushLanes g q wait a rest
        (s', ⟨i, 1, none⟩ :: l, w)
    else
      let (seq, s1) := s.nextSeq g
      let s2 := s1.setIpq q { x with entries := x.entries ++
        [{ payload := g.payload a i, tstamp := s.time, seqno := seq, srcid := g.gid16, poison := false }] }
      let (s', l, w) := s2.pushLanes g q wait a rest
      (s', ⟨i, 0, none⟩ :: l, w)

/-- How popping ended: done, a lane must wait, an entry is poisoned. -/
inductive PopEnd where
  | done | waits | poisoned (lane : Nat)
  deriving DecidableEq, Repr

/-- Pop lane by lane (R393, R394). -/
def State.popLanes (s : State) (q : Nat) (wait : Bool) : List Nat → State × List QLane × PopEnd
  | [] => (s, [], .done)
  | i :: rest =>
    let x := s.ipq q
    match x.entries with
    | [] =>
      if wait then (s, [], .waits)
      else
        let (s', l, e) := s.popLanes q wait rest
        (s', ⟨i, 1, none⟩ :: l, e)
    | y :: ys =>
      if y.poison then (s, [], .poisoned i)
      else
        let (s', l, e) := (s.setIpq q { x with entries := ys }).popLanes q wait rest
        (s', ⟨i, 0, some y⟩ :: l, e)

/-- The set of the lanes that were done. -/
def lanesDone (l : List QLane) : Mask :=
  maskOf (fun i => l.any (fun x => x.lane == i))

/-- The statuses of the lanes done, and 2 for the helper lanes given. -/
def Group.statusWrites (g : Group) (d : Opd) (l : List QLane) (helpers : Mask) : List RegWrite :=
  let lanes := lanesDone l ||| helpers
  if lanes = 0 then []
  else g.writesTo d false 32 lanes (fun i =>
    match l.find? (fun x => x.lane == i) with
    | some x => BitVec.ofNat 128 x.status
    | none => 2)

/-- The payload and the stamp of the lanes that popped an entry. -/
def Group.popWrites (g : Group) (d : Opd) (stamp : Option Opd) (l : List QLane) : List RegWrite :=
  let got := l.filter (fun x => x.entry.isSome)
  let lanes := lanesDone got
  let entry (i : Nat) : QEntry :=
    match (got.find? (fun x => x.lane == i)).bind (fun x => x.entry) with
    | some y => y
    | none => ⟨0, 0, 0, 0, false⟩
  if lanes = 0 then []
  else
    g.writesTo d false 128 lanes (fun i => (entry i).payload) ++
      (match stamp with
       | some c => g.writesTo c false 128 lanes (fun i => (entry i).srcid ++ (entry i).seqno ++ (entry i).tstamp)
       | none => [])

/-- The lanes an instruction still has to do, and its helper lanes. -/
def Group.todo (g : Group) (h : Hdr) : List Nat :=
  (lanesOf (g.contributors h)).filter (fun i => !g.prog.getLsbD i)

/-- `QPUSH`. -/
def qpushBody (h : Hdr) (wait : Bool) (d a e : Opd) : Body := fun s g => do
  g.checkHeld [(d, 32), (a, 128)]
  let q := g.uni64 e
  if !s.queueOk g q true then .error (trapOf .qperm)
  else
    let (s1, l, w) := s.pushLanes g q.toNat wait a (g.todo h)
    if w then
      let (s2, g1) := s1.postLong { g with prog := g.prog ||| lanesDone l } h { writes := g.statusWrites d l 0 }
      .ok { s := s2, g := g1, wait := some .queue, hold := true }
    else
      .ok { s := s1, g := g, long := [{ writes := g.statusWrites d l (g.active h &&& g.helper) }] }

/-- `QPOP`. -/
def qpopBody (h : Hdr) (wait : Bool) (stamp : Option Opd) (d b e : Opd) : Body := fun s g => do
  g.checkHeld ([(d, 128), (b, 32)] ++ (match stamp with | some c => [(c, 128)] | none => []))
  let q := g.uni64 e
  if !s.queueOk g q false then .error (trapOf .qperm)
  else
    let (s1, l, w) := s.popLanes q.toNat wait (g.todo h)
    let writes (helpers : Mask) : List RegWrite := g.popWrites d stamp l ++ g.statusWrites b l helpers
    match w with
    | .done => .ok { s := s1, g := g, long := [{ writes := writes (g.active h &&& g.helper) }] }
    | .waits =>
      let (s2, g1) := s1.postLong { g with prog := g.prog ||| lanesDone l } h { writes := writes 0 }
      .ok { s := s2, g := g1, wait := some .queue, hold := true }
    | .poisoned lane =>
      if !g.parked then .error (trapIn .poison lane)
      else
        let (s2, g1) := s1.postLong { g with prog := g.prog ||| lanesDone l } h { writes := writes 0 }
        .ok { s := s2.take { g1 with wait := none } (trapIn .poison lane), g := g1, final := true }

/-! ## Expert dispatch (R395 to R398) -/

/-- The inbox address of a lane. -/
def Group.inboxOf (g : Group) (o : Opd) (lane : Nat) : Word64 :=
  (g.vCode (vNum o) 64 lane).setWidth 64

/-- Does an address lie in the global scratchpad window, aligned to 128 bytes (R396)? -/
def inboxOk (va : Word64) : Bool :=
  SRAM_BASE ≤ va.toNat && va.toNat < SRAM_BASE + 0x2000_0000 && va.toNat % 128 == 0

/-- The tokens that wait at a die for a team (R396). -/
def State.sendQueue (s : State) (die : Nat) (dest : Option Nat) : Nat :=
  (s.tokens.filter (fun t => t.die == die && t.dest == dest && t.seq.isNone)).length

/-- Send lane by lane (R396): the lanes done, and the lane that waits with its inbox. -/
def State.sendLanes (s : State) (g : Group) (grid : Nat) (fork : Fork) (a b : Opd) :
    List Nat → State × List Nat × Option (Nat × Word64)
  | [] => (s, [], none)
  | i :: rest =>
    let inbox := g.inboxOf b i
    let die := dieOf (g.core.getD 0)
    let dest := (s.scrOwner none inbox).1
    if 4096 ≤ s.sendQueue die dest then (s, [], some (i, inbox))
    else
      let t : Token :=
        { id := s.nextId, die := die, grid := grid, sender := g.id, inbox := inbox, dest := dest,
          payload := g.payload a i, srcid := g.gid16, stamp := s.time, fork := fork, seq := none }
      let (s', l, w) := { s with tokens := s.tokens ++ [t], nextId := s.nextId + 1 }.sendLanes g grid fork a b rest
      (s', i :: l, w)

/-- The wait of a full send queue: its time runs on for the same lane. -/
def sendWait (s : State) (g : Group) (lane : Nat) (inbox : Word64) : Wait :=
  match g.wait with
  | some (.sendq since l b logged) =>
    if l = lane && b = inbox then .sendq since l b logged else .sendq s.time lane inbox false
  | _ => .sendq s.time lane inbox false

/-- `DSEND` (log entry 43, DEDUCED). -/
def dsendBody (h : Hdr) (a b : Opd) : Body := fun s g => do
  g.checkHeld [(a, 128), (b, 64)]
  let lanes := g.todo h
  match lanes.find? (fun i => !inboxOk (g.inboxOf b i)) with
  | some i => .error (trapLane .badring i (g.inboxOf b i))
  | none =>
    let grid := match s.team? g.team with | some t => t.launch | none => 0
    let fork := s.forkOf g (if h.st then s.ordinal g g.pc else none)
    let (s1, l, w) := s.sendLanes g grid fork a b lanes
    match w with
    | none => .ok { s := s1, g := g }
    | some (i, inbox) =>
      .ok { s := s1, g := { g with prog := g.prog ||| maskOf (fun i => l.contains i) },
            wait := some (sendWait s g i inbox), hold := true }

/-- `DCLOSE` (R398): its result is delivered once `DELV` has reached n. A poisoned header is a fault (R420; log entry 43,
DEDUCED). -/
def dcloseBody (d a : Opd) : Body := fun s g =>
  let va := g.uni64 a
  let core := g.core.getD 0
  let off := va.toNat - LOCAL_BASE
  match s.team? g.team with
  | none => .error (trapAt .scrprot va)
  | some t =>
    if va.toNat < LOCAL_BASE || LOCAL_BASE + 2 ^ 20 ≤ va.toNat || !s.ownRange t core off 128 then
      .error (trapAt .scrprot va)
    else if (s.poisonIn (scrLoc core off) 16).isSome then .error (trapAt .poison (localAddr (off / 16 * 16)))
    else
      let n := s.readNat (scrLoc core (off + 4)) 4
      .ok { s := s.writeNat (scrLoc core (off + 12)) 4 n, g := g, touches := [⟨va + 12, 4, false, true⟩],
            long := [{ writes := g.writesTo d false 64 g.exec (fun _ => BitVec.ofNat 128 n),
                       gate := some (off, BitVec.ofNat 32 n) }] }

/-- The offset of an inbox in its slice. -/
def inboxOff (va : Word64) : Nat :=
  (va.toNat - SRAM_BASE) % 2 ^ 20

/-- Does the header of an inbox follow R395, its slots inside the team's allocation? -/
def State.inboxValid (s : State) (t : Team) (core off : Nat) : Bool :=
  let loc := scrLoc core off
  let cfg := s.readNat loc 4
  4 ≤ cfg && cfg ≤ 12 && s.readNat (loc + 20) 108 == 0 && s.ownRange t core off (128 + 32 * 2 ^ cfg)

/-- A token is discarded and logged (R397). -/
def State.dropToken (s : State) (t : Token) : State :=
  let home := match regionOf none t.inbox with | .scratch c _ => dieOf c | _ => t.die
  let team : Option Nat := (s.group? t.sender).map (fun (g : Group) => g.team)
  let s1 : State := { s with tokens := s.tokens.filter (fun (x : Token) => x.id != t.id) }
  s1.log
    { die := home, kind := 8, part := t.fork.part, gid := t.srcid, unit := home * 4096 + 0x101, aux := t.srcid.toNat,
      data := bytesOf 8 t.inbox.toNat ++ bytesOf 8 t.stamp.toNat, team := team }

/-- A token reaches the home engine (R397): dropped, waiting, or with its sequence. -/
def State.arriveToken (s : State) (t : Token) : State :=
  match t.dest.bind s.team? with
  | none => s.dropToken t
  | some team =>
    if team.launch ≠ t.grid then s.dropToken t
    else
      match team.core with
      | none => s
      | some c =>
        let off := inboxOff t.inbox
        if !s.inboxValid team c off then s.dropToken t
        else
          let loc := scrLoc c off
          let n := s.readNat (loc + 4) 4
          let s1 : State := { s with tokens := s.tokens.map (fun (x : Token) =>
            if x.id == t.id then { x with seq := some (BitVec.ofNat 32 n) } else x) }
          (s1.writeNat (loc + 4) 4 ((n + 1) % 2 ^ 32)).watchEngine { t.fork with core := some c } [(localAddr (off + 4), 4)]

/-- The 32 bytes of a token in its slot (R395). -/
def Token.bytes (t : Token) (seq : Word32) : List Byte :=
  bytesOf 16 t.payload.toNat ++ bytesOf 4 seq.toNat ++ bytesOf 2 0 ++ bytesOf 2 t.srcid.toNat ++ bytesOf 8 t.stamp.toNat

/-- A token is written to its slot in ascending sequence, when there is room (R397). -/
def State.deliverToken (s : State) (t : Token) (seq : Word32) : State :=
  match t.dest.bind s.team? with
  | none => { s with tokens := s.tokens.filter (fun x => x.id != t.id) }
  | some team =>
    match team.core with
    | none => s
    | some c =>
      let off := inboxOff t.inbox
      let loc := scrLoc c off
      let size := 2 ^ (s.readNat loc 4 % 16)
      let delv := s.readNat (loc + 8) 4
      let freed := s.readNat (loc + 16) 4
      if delv ≠ seq.toNat || size ≤ (seq.toNat + 2 ^ 32 - freed) % 2 ^ 32 then s
      else
        let slot := off + 128 + 32 * (seq.toNat % size)
        let s1 := (s.write (scrLoc c slot) (t.bytes seq)).writeNat (loc + 8) 4 ((delv + 1) % 2 ^ 32)
        let s2 : State := { s1 with tokens := s1.tokens.filter (fun (x : Token) => x.id != t.id) }
        s2.watchEngine { t.fork with core := some c } [(localAddr slot, 32), (localAddr (off + 8), 4)]

/-! ## Instructions and events -/

def execColl (h : Hdr) (tile : Option (BitVec 2)) (d a b c e : Opd) (s : State) : Host.Outcome State Fault Refusal :=
  issue s (.coll h tile d a b c e) h true (ordered (collBody h tile d a b c e))

def execDsend (h : Hdr) (a b : Opd) (s : State) : Host.Outcome State Fault Refusal :=
  issue s (.dsend h a b) h true (ordered (dsendBody h a b))

def execDclose (h : Hdr) (d a : Opd) (s : State) : Host.Outcome State Fault Refusal :=
  issue s (.dclose h d a) h false (ordered (dcloseBody d a))

def execQpush (h : Hdr) (wait : Bool) (d a e : Opd) (s : State) : Host.Outcome State Fault Refusal :=
  issue s (.qpush h wait d a e) h wait (ordered (qpushBody h wait d a e))

def execQpop (h : Hdr) (wait : Bool) (stamp : Option Opd) (d b e : Opd) (s : State) : Host.Outcome State Fault Refusal :=
  issue s (.qpop h wait stamp d b e) h false (ordered (qpopBody h wait stamp d b e))

def execTile (h : Hdr) (d a b : Opd) (s : State) : Host.Outcome State Fault Refusal :=
  issue s (.tile h d a b) h false (tileBody d a b)

/-- `COLLECTIVE_COMPLETE` (R388). -/
def execCollectiveComplete (inst : Nat) (s : State) : Host.Outcome State Fault Refusal :=
  match s.colls.find? (fun c => c.id == inst) with
  | some c => .next (s.collStep c)
  | none => .next s

/-- `DISPATCH_TOKEN_ARRIVE` (R397): tokens of one group to one inbox arrive in the order they were sent. -/
def execDispatchTokenArrive (tok : Nat) (s : State) : Host.Outcome State Fault Refusal :=
  match s.tokens.find? (fun t => t.id == tok) with
  | some t =>
    let first := (s.tokens.takeWhile (fun x => x.id != tok)).all (fun x =>
      x.sender != t.sender || x.inbox != t.inbox || x.seq.isSome)
    .next (if t.seq.isNone && first then s.arriveToken t else s)
  | none => .next s

/-- `DISPATCH_TOKEN_DELIVER` (R397). -/
def execDispatchTokenDeliver (tok : Nat) (s : State) : Host.Outcome State Fault Refusal :=
  match s.tokens.find? (fun t => t.id == tok) with
  | some t =>
    match t.seq with
    | some n => .next (s.deliverToken t n)
    | none => .next s
  | none => .next s

/-- `DISPSTALL` (R396): once for a wait of 2^24 clocks. -/
def execDispstall (gid : Nat) (s : State) : Host.Outcome State Fault Refusal :=
  match s.group? gid with
  | none => .next s
  | some g =>
    match g.wait with
    | some (.sendq since lane inbox logged) =>
      if !logged && g.core.isSome && 2 ^ 24 ≤ s.clocksSince since then
        .next ((s.setGroup { g with wait := some (.sendq since lane inbox true) }).logStall g 7 inbox)
      else .next s
    | _ => .next s

end Sys2Proof.Machine
end

