-- ==== Sys2Proof/Machine/Firmware.lean ====
section
/-! DEFINITION. What the supervisor firmware does for a misaligned access (R257, R297, R411): it reads the instruction, accesses
the bytes of an `LD` or `ST` one by one, and goes on behind it; or it hands the cause to the partition's handler. -/

namespace Sys2Proof.Machine

/-- The group as it is at the interrupted level: what the shadow set keeps, and the rights of its mode. -/
def Group.interrupted (g : Group) (sh : Shadow) : Group :=
  g.restore sh sh.cause.x58

/-- The bytes of an access of n bytes in some lanes, in ascending order (R411). -/
def bytesToDo (n : Nat) (lanes : List Nat) : List (Nat × Nat) :=
  lanes.flatMap (fun i => (List.range n).map (fun k => (i, k)))

/-- What the firmware does for the instruction at `X58`: it emulates an `LD` or `ST`; helper lanes of an `ST` store nothing. -/
def State.firmwarePlan (s : State) (g r : Group) : Firmware :=
  match s.readVa (s.accessor g) .read r.pc 12 with
  | .error _ => .forward
  | .ok w =>
    match decode (BitVec.ofNat 96 w) with
    | .ok (.ld h ty _ _ d a) => .bytes h true ty d a (bytesToDo (ty.width / 8) (r.accessLanes h [d, a.base])) [] none
    | .ok (.st h ty _ _ d a) => .bytes h false ty d a (bytesToDo (ty.width / 8) (r.doneLanes h [d, a.base])) [] none
    | _ => .forward

/-- The record that a byte's cause makes of the saved one: its lane, and the byte's address (R411). -/
def CauseRec.ofByte (c : CauseRec) (cause : Cause) (lane : Nat) (va : Word64) : CauseRec :=
  { c with
    x56 := BitVec.ofNat 64 (cause.code + lane % 64 * 2 ^ 8 + 2 ^ 14 + (c.x56.getLsbD 15).toNat * 2 ^ 15)
    x57 := va }

/-- The emulation ends with a byte's cause, which goes to the handler (R408, R411). -/
def State.forwardByte (s : State) (g : Group) (sh : Shadow) (cause : Cause) (lane : Nat) (va : Word64) : State :=
  let c := g.recordNow.ofByte cause lane va
  s.eretTo { g with x := vset (vset (vset (vset g.x 56 c.x56) 57 c.x57) 58 c.x58) 59 c.x59, bypass := [] } sh .fwd

/-- The value a lane has loaded; a lane that brought no bytes, a helper lane, has 0. -/
def loadedCode (ty : ITy) (d : Opd) (got : List (Nat × Nat × Byte)) (lane : Nat) : Code :=
  let bs := (got.filter (fun x => x.1 == lane)).map (fun x => x.2.2)
  if bs.isEmpty then 0 else loadCode ty d (natOf bs)

/-- Every byte is accessed: the instruction completes at its own level, a load's registers as a long result that has
returned (R192, R195, R411; log entry 8, DEDUCED). -/
def State.emulated (s : State) (g r : Group) (sh : Shadow) (h : Hdr) (load : Bool) (ty : ITy) (d : Opd) (a : MemOpd)
    (got : List (Nat × Nat × Byte)) : State :=
  let act := r.active h
  let low := (lowest act).getD 0
  let once := runsOnce h [d, a.base]
  let writes := if act = 0 then [] else
    r.writesTo d false (loadWidth ty d) act (fun i => loadedCode ty d got (if once then low else i))
  s.finish (g.leave sh sh.cause.x58) h [] (if load then [{ writes := writes, unit := .memory, returned := true }] else [])
    (some sh.skipTo) none

/-- Does a byte wait on an empty scratchpad line, or behind an older load of it (R266, R299)? -/
def State.byteWaits (s : State) (r : Group) (loc : Nat) (wait : Option WaitLane) : Bool :=
  isScr loc && (r.waitsOn loc s.nextId ||
    !(match wait.bind (fun w => w.fill) with | some n => s.lineReady loc n | none => s.isFull loc))

/-- What one byte of a load finds. -/
inductive ByteRead where
  | val (b : Byte)
  | waits (loc : Nat)
  | fails (c : Cause)
  deriving DecidableEq, Repr

/-- Read one byte with the rights of the interrupted level (R411). -/
def State.readByte (s : State) (r : Group) (va : Word64) (wait : Option WaitLane) : ByteRead :=
  match s.place (s.accessor r) .read va with
  | .error c => .fails c
  | .ok (.supv off) => .val (BitVec.ofNat 8 (s.regRead .group off 1))
  | .ok (.mem loc) =>
    if s.byteWaits r loc wait then .waits loc
    else if (s.poisonIn loc 1).isSome then .fails .poison
    else .val (s.read8 loc)

/-- One turn of the firmware: one byte (R297, R411). -/
def State.byteStep (s : State) (g : Group) (sh : Shadow) (h : Hdr) (load : Bool) (ty : ITy) (d : Opd) (a : MemOpd)
    (todo : List (Nat × Nat)) (got : List (Nat × Nat × Byte)) (wait : Option WaitLane) : State :=
  let r := g.interrupted sh
  let goOn (s : State) (todo : List (Nat × Nat)) (got : List (Nat × Nat × Byte)) (wait : Option WaitLane) : State :=
    s.setGroup { s.refresh g with firmware := some (.bytes h load ty d a todo got wait) }
  match todo with
  | [] => s.emulated g r sh h load ty d a got
  | (lane, k) :: rest =>
    let va := r.ea a lane + BitVec.ofNat 64 k
    if load then
      match s.readByte r va wait with
      | .val b => goOn (s.accessed r [⟨va, 1, true, false⟩]) rest (got ++ [(lane, k, b)]) none
      | .waits loc => goOn s todo got (some (wait.getD (s.waitLane lane va loc)))
      | .fails c =>
        let s := s.lookUpAll r [va]
        if r.helper.getLsbD lane then goOn s (rest.filter (fun x => x.1 != lane)) (got.filter (fun x => x.1 != lane)) none
        else s.forwardByte g sh c lane va
    else
      match s.place (s.accessor r) .write va with
      | .error c => (s.lookUpAll r [va]).forwardByte g sh c lane va
      | .ok p =>
        let s1 := s.storeAt ⟨lane, va, p⟩ 1 (byteOf (r.srcLane d ty.width lane).toNat k).toNat
        goOn (s1.accessed r [⟨va, 1, false, true⟩]) rest got none

/-- The turn of a group that the firmware has in its hands. -/
def State.firmwareTurn (s : State) (g : Group) : State :=
  match g.sset, g.firmware with
  | some sh, some .start =>
    let r := g.interrupted sh
    (s.lookUpAll g [r.pc]).setGroup { g with firmware := some (s.firmwarePlan g r) }
  | some sh, some .forward => s.eretTo g sh .fwd
  | some sh, some (.bytes h load ty d a todo got wait) => s.byteStep g sh h load ty d a todo got wait
  | _, _ => s

/-- Does the firmware stay where it waits for a byte: in a halted context a parked group stays parked (R429)? -/
def State.firmwareParked (s : State) (g : Group) : Bool :=
  g.firmware.any Firmware.waits && s.haltReached g

/-- A byte that the firmware waits for is read, if its line has been set full (R411, R418). -/
def State.settleFirmware (s : State) (g : Group) : State :=
  match g.sset, g.firmware with
  | some sh, some (.bytes _ _ _ _ _ _ _ (some w)) =>
    if s.byteWaits (g.interrupted sh) w.loc (some w) then s else s.firmwareTurn g
  | _, _ => s

/-- The turn of the group `cur` where the firmware has it in its hands; none where the group issues by itself. -/
def State.firmwareActs (s : State) : Option State :=
  match s.group? s.cur with
  | some g =>
    if g.firmware.isNone then none
    else if s.teamRuns g && g.halted.isNone && !g.stopped && !s.firmwareParked g then some (s.firmwareTurn g) else some s
  | none => none

end Sys2Proof.Machine
end

