-- ==== Sys2Proof/Machine/Place.lean ====
section
/-! DEFINITION. Placement, time slices and swapping (R124, R125, R137 to R151, R253, R342, R361, R377, R391, R416 to
R419). -/

namespace Sys2Proof.Machine

/-! ## What a core has free (R137, R140, R147) -/

/-- The resident teams of a core, those being swapped out included. -/
def State.teamsOn (s : State) (core : Nat) : List Team :=
  s.teams.filter (fun t => t.core == some core)

/-- The scratchpad ranges in use on a core. -/
def State.ranges (s : State) (core : Nat) : List (Nat × Nat) :=
  ((s.teamsOn core).filter (fun t => !t.spawn)).map (fun t => (t.off, s.allocSize t))

/-- Is a range of a slice free? -/
def rangeFree (rs : List (Nat × Nat)) (off size : Nat) : Bool :=
  off + size ≤ 2 ^ 20 && (size == 0 || rs.all (fun r => r.2 == 0 || off + size ≤ r.1 || r.1 + r.2 ≤ off))

/-- The lowest free offset for size bytes (R140). -/
def State.lowestOff (s : State) (core size : Nat) : Option Nat :=
  let rs := s.ranges core
  ((0 :: rs.map (fun r => r.1 + r.2)).filter (fun o => rangeFree rs o size)).foldl
    (fun b o => match b with | none => some o | some x => some (min x o)) none

/-- A quantity of the teams of a core. -/
def State.sumOn (s : State) (core : Nat) (f : Vals → Nat) : Nat :=
  ((s.teamsOn core).map (fun t => f (s.valsOf t))).sum

/-- Does the core have what a team of these values needs beside its lines (R73, R85, R137, R147, R330)? -/
def State.coreFits (s : State) (core : Nat) (v : Vals) (slots blocks tiles : Nat) : Bool :=
  slots ≤ (s.freeSlots core).length && s.sumOn core Vals.tq + v.tq ≤ 64 && s.sumOn core Vals.smw + v.smw ≤ 1024 &&
    s.sumOn core Vals.dtc + v.dtc ≤ 4 && s.sumOn core Vals.strm + v.strm ≤ 64 && s.sumOn core Vals.kq + v.kq ≤ 16 &&
    (blocks == 0 || s.heldBlocks core + blocks ≤ (s.core core).xlimit.toNat) &&
    (tiles == 0 || s.tilesUsed core + tiles ≤ TILES)

/-- Does a core take teams of a partition (R36)? -/
def State.coreOpen (s : State) (part core : Nat) : Bool :=
  (s.core core).part.toNat == part && !(s.core core).moving

/-- The core with the most free slots of those that pass, the lowest of equals (R139). -/
def State.bestCore (s : State) (ok : Nat → Bool) : Option Nat :=
  ((List.range 272).filter ok).foldl (fun b c =>
    match b with
    | none => some c
    | some x => if (s.freeSlots x).length < (s.freeSlots c).length then some c else some x) none

/-- Every byte of a range of a slice is 0, its lines full, its units not poisoned. -/
def State.clearScr (s : State) (core off size : Nat) : State :=
  let lo := scrLoc core off
  { s with
    mem := s.mem.filter (fun c => !(lo ≤ c.1 && c.1 < lo + size))
    fe := s.fe.filter (fun l => !(lineOf lo ≤ l && l < lineOf lo + size / 128))
    poison := s.poison.filter (fun u => !(lo ≤ u * 16 && u * 16 < lo + size)) }

/-! ## First placement (R137 to R140) -/

/-- The teams of a launch. -/
def Launch.total (l : Launch) : Nat :=
  l.vals.gx * l.vals.gy * l.vals.gz

/-- The linear indices of the next cohort (R124). -/
def Launch.nextCohort (l : Launch) : List Nat :=
  let n := min (l.next + max 1 l.vals.coht) l.total
  (List.range (n - l.next)).map (l.next + ·)

/-- The groups of a new team take their slots in ascending `GROUP` (R138). -/
def State.addGroups (s : State) (t : Team) (l : Launch) (core : Nat) : List Nat → State
  | [] => s
  | g :: gs =>
    match s.pickSlot core with
    | none => s
    | some slot =>
      { s with groups := s.groups ++ [Group.launched s.nextId t l core slot g s.time], nextId := s.nextId + 1 }.addGroups
        t l core gs

/-- A new team on a core, at an offset (R126, R137, R140). Its scale memory holds 0 until an `SLOAD`, its decode tables the
invalid entry until a `DTLOAD` (R76, R86; log entry 56, DESIGN CHOICE). -/
def State.placeOn (s : State) (l : Launch) (n core off : Nat) : State :=
  let v := l.vals
  let t : Team :=
    { Team.blank s.nextId l.id n s.time with
      core := some core, home := core, off := off, past := [(core, off, v.scratch + v.frstk)],
      tids := List.replicate v.tq none, scale := List.replicate (64 * v.smw) 0,
      dts := List.replicate v.dtc (List.replicate 256 0), streams := List.replicate v.strm Stream.zero,
      kts := List.replicate v.kq none }
  let s1 := s.clearScr core off (v.scratch + v.frstk)
  { s1 with teams := s1.teams ++ [t], nextId := s1.nextId + 1 }.addGroups t l core (List.range v.tgrp)

/-- Place team n of a launch on the best core that fits (R137, R139). -/
def State.placeTeam (s : State) (l : Launch) (n : Nat) : Option State :=
  let size := l.vals.scratch + l.vals.frstk
  match s.bestCore (fun c =>
    s.coreOpen l.part c && s.coreFits c l.vals l.vals.tgrp 0 0 && (s.lowestOff c size).isSome) with
  | none => none
  | some c => (s.lowestOff c size).map (fun o => s.placeOn l n c o)

/-- Place the next cohort of a launch, all its teams or none (R139). -/
def State.placeCohort (s : State) (l : Launch) : Option State :=
  (l.nextCohort.foldlM (fun (s : State) n => s.placeTeam l n) s).map (fun s =>
    s.modLaunch l.id (fun k => { k with next := l.next + l.nextCohort.length, nofit := false }))

/-! ## Loads that wait on empty lines (R149, R266) -/

/-- Change the undelivered result of an id. -/
def Group.modLong (g : Group) (id : Nat) (f : Long → Long) : Group :=
  let on (l : List Long) : List Long := l.map (fun x => if x.id == id then f x else x)
  let sh (x : Shadow) : Shadow := { x with pend := on x.pend }
  { g with
    pend := on g.pend
    hset := g.hset.map sh
    sset := g.sset.map sh
    folds := g.folds.map (fun f => { f with pend := on f.pend }) }

/-- The register of a write takes the lanes of another write of it. -/
def RegWrite.merge (w new : RegWrite) : RegWrite :=
  match w, new with
  | .v n lanes val, .v k l new => if n = k then .v n (lanes ||| l) (vmerge l new val) else .v n lanes val
  | .x n val, .x k new => if n = k then .x n new else .x n val
  | w, _ => w

/-- A waiting lane has its value (R263, R266): of a load that runs once, all lanes of `active`. -/
def Long.fill (l : Long) (i : LoadInfo) (g : Group) (lane : BitVec 6) (v : Code) : Long :=
  let lanes := if i.uni then i.active else single lane.toNat
  let new := g.writesTo i.dst false (loadWidth i.ty i.dst) lanes (fun _ => v)
  { l with
    writes := l.writes.map (fun w => new.foldl RegWrite.merge w)
    load := some { i with lanes := i.lanes.filter (fun x => x.lane != lane) } }

/-- May a waiting lane of a load read its location: its line is full or has been set to full since, and no older load of the
group waits on the line (R266, R267, R299)? -/
def State.laneReady (s : State) (g : Group) (l : Long) (w : WaitLane) (loc : Nat) : Bool :=
  !g.waitsOn loc l.id && (!isScr loc || (match w.fill with | none => s.isFull loc | some n => s.lineReady loc n))

/-- A waiting lane reads its line once it may (R266): the value, or the poison its load takes at delivery (R258). An
address that no longer reaches a place goes on waiting (log entry 44, DEDUCED). -/
def State.readLane (s : State) (g : Group) (l : Long) (lane : BitVec 6) : Option (State × Group) :=
  match l.load with
  | none => none
  | some i =>
    match i.lanes.find? (fun x => x.lane == lane) with
    | none => none
    | some w =>
      match s.place (s.accessor g) .read w.va with
      | .ok (.mem loc) =>
        if !s.laneReady g l w loc then none
        else
          let n := i.ty.width / 8
          let bad := s.poisonAt ⟨lane.toNat, w.va, .mem loc⟩ n
          let helper := i.helper.getLsbD lane.toNat
          let v := if bad.isSome then 0 else loadCode i.ty i.dst (s.readNat loc n)
          let poison := match bad with | some u => if helper then [] else [(lane, u)] | none => []
          let g1 := g.modLong l.id (fun l =>
            match l.load with
            | some i => { l.fill i g lane v with poison := l.poison ++ poison }
            | none => l)
          let s1 := (s.setGroup g1).accessed g1 [⟨w.va, n, true, false⟩]
          some (s1, s1.refresh g1)
      | _ => none

/-- The waiting lanes of a load are issued again: each begins to wait anew, on its line as it is now (R149, R419). -/
def State.reissue (s : State) (a : Accessor) (l : Long) : Long :=
  { l with load := l.load.map (fun i => { i with lanes := i.lanes.map (fun w =>
      match s.place a .read w.va with
      | .ok (.mem loc) => s.waitLane w.lane.toNat w.va loc
      | _ => w) }) }

/-- Every load of a group that waits is issued again. -/
def State.reissueAll (s : State) (g : Group) : Group :=
  let a := s.accessor g
  let sh (x : Shadow) : Shadow := { x with pend := x.pend.map (s.reissue a) }
  { g with
    pend := g.pend.map (s.reissue a)
    hset := g.hset.map sh
    sset := g.sset.map sh
    folds := g.folds.map (fun f => { f with pend := f.pend.map (s.reissue a) }) }

/-- Every waiting lane of a group that may read its line does. -/
def State.settleLoads (s : State) (gid : Nat) : State :=
  match s.group? gid with
  | none => s
  | some g =>
    let all := g.allPend.flatMap (fun l => match l.load with | some i => i.lanes.map (fun w => (l.id, w.lane)) | none => [])
    all.foldl (fun s p =>
      match s.group? gid with
      | none => s
      | some g =>
        match g.allPend.find? (fun l => l.id == p.1) with
        | none => s
        | some l => match s.readLane g l p.2 with | some (s', g') => s'.setGroup g' | none => s) s

/-! ## Pool grants (R145, R220) -/

/-- `vlim` once some halves are granted: a granted half is held whole, also above the `VREGS` of a callee that dropped it
(R179, R243). -/
def Group.limWith (g : Group) (lo hi : Bool) : Nat :=
  if lo && 32 < g.vlim && g.vlim < 48 then 48 else if hi && 48 < g.vlim then 64 else g.vlim

/-- A group's `XGROW` is granted: zeros in the halves, then past the instruction (R179, R192). -/
def State.grantHalves (s : State) (g : Group) (lo hi sw : Bool) : State :=
  let g1 := { g with
    v := vecOf 64 (fun i => if (lo && 32 ≤ i && i < 48) || (hi && 48 ≤ i) then vzero else vget g.v i vzero)
    lo := g.lo || lo
    hi := g.hi || hi
    vlim := g.limWith lo hi
    wait := none }
  if !sw then s.setGroup g1
  else if g1.allReturned then s.deliver g1
  else s.setGroup { g1 with wait := some .switch }

/-- Is a request of a core for pool blocks held back: a fired bin's is older, or the blocks are not free (R144, R145)? -/
def State.poolBlocked (s : State) (core : Nat) (r : PoolReq) : Bool :=
  let c := s.core core
  c.bins.any (fun b => b.fired && b.work.blocks != 0 && b.ord.toNat ≤ r.fired.toNat) ||
    c.xlimit.toNat < s.heldBlocks core + r.blocks

/-- The oldest request of a core is granted when nothing holds it back (R145); a grant ends a register-grow check (R146). -/
def State.grantPool (s : State) (core : Nat) : State :=
  match (s.core core).poolReqs with
  | [] => s
  | r :: rest =>
    if s.poolBlocked core r then s
    else
      match s.group? r.gid with
      | some g =>
        match g.wait with
        | some (.xgrow lo hi sw) =>
          if s.haltReached g then s
          else (s.modCore core (fun c => { c with poolReqs := rest, growing := false })).grantHalves g lo hi sw
        | _ => s.modCore core (fun c => { c with poolReqs := rest })
      | none => s.modCore core (fun c => { c with poolReqs := rest })

/-! ## The swap area (R150, R151) -/

/-- Bytes of the value of a register write in an image. -/
def RegWrite.valueBytes : RegWrite → Nat
  | .v .. => 256
  | .x .. | .m .. => 8
  | .c .. => 1
  | .t .. => 32

/-- Does a write go to the register after another's, in the same lanes: the next part of one result? -/
def RegWrite.follows (w prev : RegWrite) : Bool :=
  match w, prev with
  | .v n l _, .v p k _ => n.toNat == p.toNat + 1 && l == k
  | .x n _, .x p _ => n.toNat == p.toNat + 1
  | _, _ => false

/-- Bytes of the results that some writes make: an item of 16 bytes for each result, of four registers at most, and its value
(R150, log entry 48, DEDUCED). Each write has its age; `prev` are the write before and the registers that its result has so
far. -/
def resultBytes : Option (Bypassed × Nat) → List Bypassed → Nat
  | _, [] => 0
  | prev, b :: rest =>
    let k := match prev with | some (p, k) => if b.w.follows p.w && b.age = p.age && k < 4 then k else 0 | none => 0
    (if k = 0 then 16 else 0) + b.w.valueBytes + resultBytes (some (b, k + 1)) rest

/-- Bytes of the access of a load that waits and is cancelled (R149): an item with the value it is to bring. -/
def LoadInfo.imageBytes (i : LoadInfo) : Nat :=
  16 + (if i.dst.isX then 1 else 64) * (loadWidth i.ty i.dst / 8)

/-- Bytes of a bypass and of undelivered results. The bypass lists the youngest write first. -/
def bypassBytes (b : List Bypassed) (p : List Long) : Nat :=
  resultBytes none b.reverse +
    (p.map (fun l => resultBytes none (l.writes.map (⟨·, 0⟩)) +
      (match l.load with | some i => if i.lanes.isEmpty then 0 else i.imageBytes | none => 0))).sum

/-- Bytes of a group in an image. -/
def Group.imageBytes (g : Group) : Nat :=
  let sh (x : Option Shadow) : Nat := match x with | some x => 256 + bypassBytes x.bypass x.pend | none => 0
  256 + 132 + 512 + 8192 + 4096 * g.blocks + sh g.hset + sh g.sset + bypassBytes g.bypass g.pend +
    (g.folds.map (fun f => bypassBytes f.bypass f.pend)).sum

/-- Bytes of a team's image (R150, log entry 48, DEDUCED). -/
def State.imageBytes (s : State) (t : Team) : Nat :=
  let v := s.valsOf t
  ((s.groups.filter (fun g => g.team == t.id)).map Group.imageBytes).sum +
    (v.scratch + v.frstk) + ((v.scratch + v.frstk) / 128 + 7) / 8 + 64 * v.kq + 4098 * v.strm +
    2048 * ((s.gangs.filter (fun k => k.team == t.id)).map (fun k => k.members.length * k.per)).sum + 65 * v.tq +
    64 * v.smw + 1024 * v.dtc + 4096

/-- Bytes of a partition's swap area that images take, those being written included. -/
def State.areaUsed (s : State) (part : Nat) : Nat :=
  ((s.teams.filter (fun t => s.partOf t == part && t.swap != .resident)).map s.imageBytes).sum

/-- Is there room for the images of some teams? -/
def State.areaRoom (s : State) (part : Nat) (ts : List Team) : Bool :=
  s.areaUsed part + (ts.map s.imageBytes).sum ≤ bitsN (s.part part).pswap 127 96 * 2 ^ 16

/-- The area is full: one entry each time it fills (R151). -/
def State.logFull (s : State) (part core : Nat) : State :=
  if (s.part part).swapFull then s
  else
    (s.modPart part (fun p => { p with swapFull := true })).log
      { die := dieOf core, kind := 9, part := part, unit := dieOf core * 4096 + core % 68 }

/-! ## The cut (R416, R418) -/

/-- An instruction whose wait a release ends before the cut (R418) tries again. -/
def settleInstr (i : Instr) (s : State) : Host.Outcome State Fault Refusal :=
  match i with
  | .waitb h sc o d a => execWaitb h sc o d a s
  | .bwait h d => execBwait h d s
  | .spwait h a => execSpwait h a s
  | .waitev h r m => execWaitev h r m s
  | .qpush h w d a e => execQpush h w d a e s
  | .qpop h w st d b e => execQpop h w st d b e s
  | .dsend h a b => execDsend h a b s
  | _ => .next s

/-- The wait of a group is settled (R418). -/
def State.settleWait (s : State) (g : Group) : State :=
  match g.wait with
  | some .barrier | some (.phase ..) | some .batch | some .queue | some (.sendq ..) =>
    match { s with cur := g.id }.turn with
    | .run i s1 => match settleInstr i s1 with | .next s2 => { s2 with cur := s.cur } | _ => s
    | _ => s
  | _ => s

/-- Grants, reads of full lines and other releases up to the cut reach the team's groups, the bytes that the firmware loads for
them too (R418). -/
def State.settle (s : State) (t : Team) : State :=
  let core := t.core.getD 0
  let s1 := (List.range (s.core core).poolReqs.length).foldl (fun s _ => s.grantPool core) s
  let s2 := (List.range (s1.core core).tileReqs.length).foldl (fun s _ => s.grantTiles core) s1
  let gids := (s2.groups.filter (fun g => g.team == t.id)).map (fun g => g.id)
  let each (f : State → Group → State) (s : State) (id : Nat) : State := match s.group? id with | some g => f s g | none => s
  gids.foldl (fun s id => each State.settleWait (each State.settleFirmware (s.settleLoads id) id) id) s2

/-- The cut of a team (R416, step 1): what was released reaches it, and no group of it issues any more. -/
def State.cutTeam (s : State) (tid : Nat) : State :=
  match s.team? tid with
  | none => s
  | some t => (s.settle t).modTeam tid (fun t => { t with swap := .cut })

/-- The teams are cut where the area has room for them all; else nothing starts (R151). -/
def State.cutAll (s : State) (part : Nat) (ts : List Team) : State :=
  if s.areaRoom part ts then ts.foldl (fun s t => s.cutTeam t.id) s
  else match ts with | t :: _ => s.logFull part (t.core.getD 0) | [] => s

/-! ## Writing the image (R149, R150, R416, R417) -/

/-- A result that does not hold the image back: it has returned, or its access is cancelled and reissued, or it waits for
`DELV` (R149, R398). -/
def Long.settled (l : Long) : Bool :=
  l.returned || (match l.load with | some i => !i.lanes.isEmpty | none => false) || l.gate.isSome

/-- Does a range of addresses reach a team's allocation, named from a core? -/
def State.reachesTeam (s : State) (core : Nat) (t : Team) (r : Word64 × Nat) : Bool :=
  (spans r.1 r.2).any (fun p =>
    match regionOf (some core) p.1 with
    | .scratch c off => s.holds t c off
    | _ => false)

/-- Does a command read or write a team's allocation (R417)? Every command of the team writes its record there. -/
def State.cmdTouches (s : State) (c : Cmd) (t : Team) : Bool :=
  c.team == t.id || c.ranges.any (s.reachesTeam c.core t)

/-- Steps 2 to 5 of R416 are done. Of the commands that have not started, those of an ended team that can start are waited for
(R291), as the others are saved (R417). -/
def State.drained (s : State) (t : Team) : Bool :=
  let mine := s.groups.filter (fun g => g.team == t.id)
  let c := s.core (t.core.getD 0)
  mine.all (fun g => (g.mode != .supervisor || g.halted.isSome || g.firmware.any Firmware.waits) && g.allPend.all Long.settled) &&
    (c.keyOps ++ c.chordOps).all (fun o => o.team != t.id) &&
    s.gangs.all (fun k => k.team != t.id || k.latches.all (fun l => !l.started)) &&
    s.cmds.all (fun k => !((k.started || ((s.team? k.team).isNone && s.cmdPlaced k)) && s.cmdTouches k t))

/-- The scratchpad of a team as its image holds it. -/
def State.scrImage (s : State) (t : Team) (core : Nat) : ScrImage :=
  let lo := scrLoc core t.off
  let size := s.allocSize t
  { bytes := (s.mem.filter (fun c => lo ≤ c.1 && c.1 < lo + size)).map (fun c => (c.1 - lo, c.2))
    empty := (s.fe.filter (fun l => lineOf lo ≤ l && l < lineOf lo + size / 128)).map (· - lineOf lo)
    poison := (s.poison.filter (fun u => lo ≤ u * 16 && u * 16 < lo + size)).map (· - lo / 16) }

/-- Does a bin leave with a team: the unfired spawn bins of its grid with a spawn team, its own pooled bins (R150,
R155)? -/
def Bin.leavesWith (b : Bin) (t : Team) : Bool :=
  match b.work with
  | .spawn l _ _ _ => t.spawn && l == t.launch && !b.fired
  | .call id _ _ _ => id == t.id

/-- The image is written and what the core held is free (R416, step 7). -/
def State.swapOut (s : State) (t : Team) (core : Nat) : State :=
  let ids := (s.groups.filter (fun g => g.team == t.id)).map (fun g => g.id)
  let im := s.scrImage t core
  let out := (s.core core).bins.filter (fun b => b.leavesWith t)
  let s1 := (s.clearScr core t.off (s.allocSize t)).modCore core (fun c =>
    { c with
      bins := c.bins.filter (fun b => !b.leavesWith t)
      poolReqs := c.poolReqs.filter (fun r => !ids.contains r.gid)
      tileReqs := c.tileReqs.filter (fun r => !ids.contains r.gid) })
  let s2 := s1.modTeam t.id (fun t =>
    { t with core := none, swap := .out, since := s.time, image := some im, bins := t.bins ++ out })
  let s3 : State :=
    { s2 with groups := s2.groups.map (fun (g : Group) =>
        if g.team == t.id then { g with core := none, line := none } else g) }
  (s3.touch core).addEvent core 7 1

/-! ## Resuming (R142, R147, R150, R253, R419) -/

/-- Groups that a resumed team needs slots for: `TGRP` and its callee groups, or the groups of a spawn team (R253). -/
def State.slotsOf (s : State) (t : Team) : Nat :=
  let mine := s.groups.filter (fun g => g.team == t.id)
  if t.spawn then mine.length
  else (s.valsOf t).tgrp + (mine.filter (fun g => match g.kind with | .callee .. => true | _ => false)).length

/-- The blocks a team held and waited for (R147). -/
def State.blocksOf (s : State) (t : Team) : Nat :=
  ((s.groups.filter (fun g => g.team == t.id)).map (fun g =>
    g.blocks + (match g.wait with | some (.xgrow lo hi _) => lo.toNat + hi.toNat | _ => 0))).sum

/-- Groups whose `GANG` only waits for tiles, one of each gang (R329). -/
def State.gangWaits (s : State) (t : Team) : List (Group × Word64) :=
  s.groups.filterMap (fun g =>
    match g.wait with
    | some (.gang w _) =>
      if g.team == t.id && s.othersWait g w && (gangList w).head? == some g.index.toNat then some (g, w) else none
    | _ => none)

/-- The tiles a team held and waited for (R330). -/
def State.tilesOf (s : State) (t : Team) : Nat :=
  ((s.gangs.filter (fun k => k.team == t.id)).map (fun k => k.members.length * k.per)).sum +
    ((s.gangWaits t).map (fun p => gangCnt p.2 * gangPer p.2)).sum

/-- Does a swapped-out team fit on a core of its partition (R137, R140, R147, R253, R330; log entry 45, DEDUCED)? -/
def State.resumeFits (s : State) (t : Team) (core : Nat) : Bool :=
  s.coreOpen (s.partOf t) core && s.coreFits core (s.valsOf t) (s.slotsOf t) (s.blocksOf t) (s.tilesOf t) &&
    (if t.spawn then !s.teams.any (fun u => u.spawn && u.launch == t.launch && u.core == some core && u.swap != .resident)
     else rangeFree (s.ranges core) t.off (s.allocSize t)) &&
    (s.core core).bins.length + t.bins.length ≤ BINS

/-- The bytes, lines and poison of an image come back. -/
def State.loadImage (s : State) (t : Team) (core : Nat) (im : ScrImage) : State :=
  let lo := scrLoc core t.off
  let s1 := s.clearScr core t.off (s.allocSize t)
  { s1 with
    mem := im.bytes.foldl (fun m c => Memory.write m (lo + c.1) [c.2]) s1.mem
    fe := (im.empty.map (lineOf lo + ·)).foldl (fun l x => insertNat x l) s1.fe
    poison := (im.poison.map (lo / 16 + ·)).foldl (fun l x => insertNat x l) s1.poison }

/-- The byte that waits on an empty line is accessed anew (R149). -/
def Firmware.again : Firmware → Firmware
  | .bytes h load ty d a todo got _ => .bytes h load ty d a todo got none
  | f => f

/-- The groups of a resumed team take slots: in ascending `GROUP`, then the others (R138, R419). -/
def State.reslot (s : State) (core : Nat) (ev : BitVec 16) (peergen : Word32) : List Nat → State
  | [] => s
  | id :: rest =>
    match s.group? id, s.pickSlot core with
    | some g, some slot =>
      let wait := match g.wait with | some (.phase ..) => some .barrier | w => w
      (s.setGroup { g with core := some core, slot := slot, line := none, created := s.time, wait := wait,
                           firmware := g.firmware.map Firmware.again,
                           evpend := g.evpend ||| ev ||| 4, peergen := peergen }).reslot core ev peergen rest
    | _, _ => s

/-- A bin that comes back: a fired one counts as fired on the new core. -/
def Core.addBin (c : Core) (b : Bin) : Core :=
  if b.fired then { c with fired := c.fired + 1, bins := c.bins ++ [{ b with ord := c.fired + 1 }] }
  else { c with bins := c.bins ++ [b] }

/-- The arrivals the Locus held are applied (R391). -/
def State.applyHeld (s : State) (core : Nat) (held : List (Nat × Nat)) : State :=
  held.foldl (fun s h =>
    let loc := scrLoc core h.1
    s.putArrival loc (s.barrier loc) h.2) s

/-- A request of a resumed group for pool blocks is granted at once (R147); in a halted context the group stays parked, its
request the core's (R429). -/
def State.grantXgrow (s : State) (core : Nat) (g : Group) : State :=
  match g.wait with
  | some (.xgrow lo hi sw) =>
    if s.haltReached g then
      s.modCore core (fun c => { c with poolReqs := c.poolReqs ++ [⟨g.id, lo.toNat + hi.toNat, c.fired⟩] })
    else s.grantHalves g lo hi sw
  | _ => s

/-- The same for the tiles of a gang (R330). -/
def State.grantGang (s : State) (core : Nat) (g : Group) (w : Word64) : State :=
  if s.haltReached g then
    s.modCore core (fun c => { c with tileReqs := c.tileReqs ++ [⟨g.id, gangCnt w * gangPer w, c.fired⟩] })
  else s.formGang g.team w

/-- The requests a resumed team waited with are granted at once (R147, R330). -/
def State.grantResumed (s : State) (t : Team) (core : Nat) (ids : List Nat) : State :=
  let s1 := ids.foldl (fun s id => match s.group? id with | some g => s.grantXgrow core g | none => s) s
  (s1.gangWaits t).foldl (fun s p => s.grantGang core p.1 p.2) s1

/-- The released `MMA`s of a resumed team wake the sub-arrays that its new core keeps gated (R341, R342). -/
def State.wakeLatches (s : State) (t : Team) (core : Nat) : State :=
  (s.gangs.filter (fun k => k.team == t.id && k.latches.any (fun l => l.released))).foldl (fun s k =>
    s.wakeSubs k core) s

/-- The groups and bins of one spawn team become another's: a grid has one on a core (R155). -/
def State.joinTeam (s : State) (core old new : Nat) : State :=
  let name (id : Nat) : Nat := if id = old then new else id
  let s1 := s.modCore core (fun c => { c with bins := c.bins.map (fun b =>
    match b.work with | .call id sl tg l => { b with work := .call (name id) sl tg l } | .spawn .. => b) })
  { s1 with
    groups := s1.groups.map (fun g => { g with team := name g.team })
    gangs := s1.gangs.map (fun k => { k with team := name k.team })
    cmds := s1.cmds.map (fun c => { c with team := name c.team })
    teams := s1.teams.filter (fun t => t.id != old) }

/-- A spawn team that has come back joins the one its grid has on the core meanwhile (R155). -/
def State.mergeSpawn (s : State) (t : Team) (core : Nat) : State :=
  match s.teams.find? (fun u => u.spawn && u.launch == t.launch && u.core == some core && u.id != t.id) with
  | some u => if t.spawn then s.joinTeam core t.id u.id else s
  | none => s

/-- A team is read back into a core (R419). With `moved` its cohort has moved (R142). -/
def State.resumeOn (s : State) (t : Team) (core : Nat) (moved : Bool) : State :=
  let peergen := t.peergen + BitVec.ofNat 32 moved.toNat
  let mine := s.groups.filter (fun g => g.team == t.id)
  let ranked := sortBy (fun g => match g.kind with | .launched => g.index.toNat | _ => 2 ^ 32) mine
  let ids := ranked.map (fun g => g.id)
  let s1 := match t.image with | some im => if t.spawn then s else s.loadImage t core im | none => s
  let s2 := s1.modTeam t.id (fun t =>
    { t with core := some core, home := core, swap := .resident, since := s.time, raised := false, nofit := false,
             peergen := peergen,
             past := (t.past ++ [(core, t.off, s.allocSize t)]).eraseDups, image := none, held := [], bins := [],
             evpend := 0 })
  let s3 := (s2.reslot core t.evpend peergen ids).applyHeld core t.held
  let s4 := s3.modCore core (fun c => t.bins.foldl Core.addBin c)
  let s5 : State :=
    { s4 with cmds := s4.cmds.map (fun (c : Cmd) => if c.team == t.id then { c with core := core } else c) }
  let s6 := ((s5.modPart (s5.partOf t) (fun p => { p with swapFull := false })).grantResumed t core ids).wakeLatches t core
  let s7 := ids.foldl (fun s id =>
    match s.group? id with | some g => (s.setGroup (s.reissueAll g)).settleLoads id | none => s) s6
  s7.mergeSpawn t core

/-- The teams of a cohort (R124); a spawn team is alone (R148). -/
def State.cohortTeams (s : State) (t : Team) : List Team :=
  if t.spawn then s.teams.filter (fun u => u.id == t.id)
  else s.teams.filter (s.cohortMate t)

/-- Does a team of several in a cohort keep its core (R142)? -/
def State.bound (s : State) (t : Team) : Bool :=
  !t.spawn && 1 < (s.valsOf t).coht

/-- A cohort whose team has lost its core moves as a whole (R142). -/
def State.mustMove (s : State) (ts : List Team) : Bool :=
  ts.any (fun t => s.bound t && t.swap == .out && !s.coreOpen (s.partOf t) t.home)

/-- Has a team of the cohort, one that has ended among them, held an overlapping range on a core (R142)? -/
def State.heldBefore (s : State) (ts : List Team) (t : Team) (core : Nat) : Bool :=
  0 < s.allocSize t && ts.any (fun u => u.past.any (fun p =>
    p.1 == core && 0 < p.2.2 && p.2.1 < t.off + s.allocSize t && t.off < p.2.1 + p.2.2))

/-- An address of an allocation's old place, as its core named it, in its new one: a saved command follows its team (R417, log
entry 50, DEDUCED). A move is the old and the new core, the offset and the size. -/
def rebase (core : Nat) (moves : List (Nat × Nat × Nat × Nat)) (va : Word64) : Word64 :=
  match regionOf (some core) va with
  | .scratch c off =>
    match moves.find? (fun m => m.1 == c && m.2.2.1 ≤ off && off < m.2.2.1 + m.2.2.2) with
    | some m => BitVec.ofNat 64 (SRAM_BASE + m.2.1 / 68 * 2 ^ 27 + m.2.1 % 68 * 2 ^ 20 + off)
    | none => va
  | _ => va

/-- Which of a command's two fields are addresses: the source of a `TLOAD` that does not decode and the destination of a
`TSTORE` are positions, and a table or a scale window is no address (R283). -/
def Cmd.srcIsAddr (c : Cmd) : Bool :=
  eKind c.entry != 3 || tEnt c.recBits

def Cmd.dstIsAddr (c : Cmd) : Bool :=
  eKind c.entry != 4 && eKind c.entry != 5 && eKind c.entry != 6

/-- The addresses of a saved command after its cohort's teams have moved: source and destination, and in its record the base and
the zero-tile map (R83). -/
def Cmd.rebase (c : Cmd) (core : Nat) (moves : List (Nat × Nat × Nat × Nat)) : Cmd :=
  let move (is : Bool) (a : Word64) : Word64 := if is then Sys2Proof.Machine.rebase core moves a else a
  { c with
    entry := move c.dstIsAddr (eDst c.entry) ++ move c.srcIsAddr (eSrc c.entry) ++ c.entry.extractLsb' 0 128
    trec := c.trec.map (fun r =>
      { r with
        bits := move true (r.bits.extractLsb' 448 64) ++ r.bits.extractLsb' 128 320 ++
                move true (r.bits.extractLsb' 64 64) ++ r.bits.extractLsb' 0 64 }) }

/-- The A bases of a saved `MMA` after its cohort's teams have moved (R342; log entry 50, DEDUCED). -/
def Latch.rebase (l : Latch) (core : Nat) (moves : List (Nat × Nat × Nat × Nat)) : Latch :=
  { l with parts := l.parts.map (fun p => { p with base := Sys2Proof.Machine.rebase core moves p.base }) }

/-- The cohort's saved commands and `MMA`s follow its teams, a command of a team that has ended too (R417). -/
def State.rebaseCmds (s : State) (ts : List Team) : State :=
  let moves := ts.filterMap (fun t =>
    match s.team? t.id with
    | some u => match u.core with | some c => if c = t.home then none else some (t.home, c, t.off, s.allocSize t) | none => none
    | none => none)
  let home (team here : Nat) : Nat := match ts.find? (fun t => t.id == team) with | some t => t.home | none => here
  if moves.isEmpty then s
  else
    { s with
      cmds := s.cmds.map (fun c =>
        if !c.started && ts.any (fun t => t.launch == c.launch && s.cohortOf t == c.cohort) then c.rebase (home c.team c.core) moves
        else c)
      gangs := s.gangs.map (fun k =>
        if ts.any (fun t => t.id == k.team) then
          { k with latches := k.latches.map (fun l => l.rebase (home k.team 0) moves) }
        else k) }

/-- Resume one team: on the core asked for, or on the best that fits. -/
def State.resumeTeam (s : State) (t : Team) (moved : Bool) (ok : Nat → Bool) : Option State :=
  (s.bestCore (fun c => ok c && s.resumeFits t c)).map (fun c => s.resumeOn t c moved)

/-- Resume the swapped-out teams of a cohort, all or none, each on the core of most free slots (R139, R142). -/
def State.resumeCohort (s : State) (t : Team) : Option State :=
  let ts := s.cohortTeams t
  let out := ts.filter (fun u => u.swap == .out)
  let moved := s.mustMove ts
  if ts.any (fun u => u.swap == .cut) || (moved && ts.any (fun u => u.swap != .out)) then none
  else
    (out.foldlM (fun (s' : State) u => s'.resumeTeam u moved (fun c =>
      (if moved then !s.heldBefore ts u c else !s.bound u || c == u.home))) s).map (fun s' => s'.rebaseCmds ts)

/-! ## Who waits (R125, R139, R148) -/

/-- What waits for a place: the next cohort of a launch, the swapped-out teams of a cohort, a fired bin. -/
inductive Waits where
  | new (launch : Nat)
  | away (team : Nat)
  | bin (core bin : Nat)
  deriving DecidableEq, Repr

/-- A waiting cohort with its priority and its age: dispatch time, queue, cohort. -/
structure Waiting where
  prio : Nat
  time : Word64
  queue : Nat
  cohort : Nat
  what : Waits
  deriving DecidableEq, Repr

/-- Does a page lie in the scope of a `TLBINV` that a group of a partition issued (R415)? -/
def inScope (scope : TlbScope) (arg : Word64) (issuer part : Nat) (p : Page) : Bool :=
  match scope with
  | .addr => issuer == part && (if p.big then p.va / 32 == arg.toNat / 2 ^ 21 else p.va == arg.toNat / 2 ^ 16)
  | .part => part == arg.toNat % 8
  | .all => true

/-- Does a waiting `TLBINV` wait for a saved command of a team (R415)? -/
def State.tlbWants (s : State) (t : Team) : Bool :=
  s.groups.any (fun g =>
    match g.wait with
    | some (.tlbinv scope arg _) =>
      s.cmds.any (fun c => c.team == t.id && c.pages.any (inScope scope arg (s.accessor g).part c.part))
    | _ => false)

/-- The cohorts of a partition that wait, unordered; a spawn team ranks with the first of its grid (log entry 46, DEDUCED),
and at priority 7 where a fired bin that it has taken along has that (R148). -/
def State.waitingOf (s : State) (part : Nat) : List Waiting :=
  let new := s.launches.filterMap (fun l =>
    if l.part == part && !l.ended && l.next < l.total then
      some ⟨if l.raised then 7 else l.prio, l.tdisp, l.queue.toNat, l.next / max 1 l.vals.coht, .new l.id⟩
    else none)
  let away := s.teams.filterMap (fun t =>
    match s.launch? t.launch with
    | none => none
    | some l =>
      let ts := s.cohortTeams t
      let out := ts.filter (fun u => u.swap == .out)
      if l.part == part && (out.head?.map (fun u => u.id)) == some t.id && !ts.any (fun u => u.swap == .cut) then
        some ⟨if out.any (fun u => u.raised || s.tlbWants u || u.bins.any (fun b => b.fired && s.binLate l b)) then 7 else l.prio,
          l.tdisp, l.queue.toNat,
              (if t.spawn then 0 else s.cohortOf t), .away t.id⟩
      else none)
  new ++ away

/-- Does one waiting cohort come before another (R125)? Two launches of one queue that were dispatched at the same time are
ranked by cohort number (log entry 46, DESIGN CHOICE). -/
def Waiting.before (a b : Waiting) : Bool :=
  if a.prio ≠ b.prio then b.prio < a.prio
  else if a.time ≠ b.time then a.time.toNat < b.time.toNat
  else if a.queue ≠ b.queue then a.queue < b.queue
  else a.cohort < b.cohort

/-- The fired bins of a partition's grids that have no slot yet (R148). -/
def State.waitingBins (s : State) (part : Nat) : List Waiting :=
  (List.range 272).flatMap (fun c =>
    (s.core c).bins.zipIdx.filterMap (fun (b, i) =>
      match b.work with
      | .spawn id _ _ _ =>
        match s.launch? id with
        | some l =>
          if b.fired && l.part == part then
            some ⟨if s.binLate l b then 7 else l.prio, l.tdisp, l.queue.toNat, 0,
                  .bin c i⟩
          else none
        | none => none
      | .call .. => none))

/-- All that waits for a place in a partition: cohorts, and fired bins as cohorts of one (R148). -/
def State.waitingAll (s : State) (part : Nat) : List Waiting :=
  s.waitingOf part ++ s.waitingBins part

/-- The one that placement takes next (R125, R139). -/
def State.firstWaiting (s : State) (part : Nat) : Option Waiting :=
  (s.waitingAll part).foldl (fun b w =>
    match b with
    | none => some w
    | some x => if w.before x then some w else some x) none

/-- Does nothing that waits come before a fired bin (R139, R148)? -/
def State.binFirst (s : State) (part core bin : Nat) : Bool :=
  match (s.waitingBins part).find? (fun w => w.what == .bin core bin) with
  | some w => (s.waitingAll part).all (fun x => !x.before w)
  | none => true

/-- Could the group of a fired bin have its slot and its blocks? -/
def State.binFits (s : State) (core bin : Nat) : Bool :=
  match (s.core core).bins[bin]? with
  | some b =>
    !(s.freeSlots core).isEmpty &&
      (b.work.blocks == 0 || s.heldBlocks core + b.work.blocks ≤ (s.core core).xlimit.toNat)
  | none => false

/-- Would a waiting cohort fit (R148)? -/
def State.waitingFits (s : State) (w : Waiting) : Bool :=
  match w.what with
  | .new id => match s.launch? id with | some l => (s.placeCohort l).isSome | none => false
  | .away id => match s.team? id with | some t => (s.resumeCohort t).isSome | none => false
  | .bin c i => s.binFits c i

/-- The machine with some teams out of their cores. -/
def State.without (s : State) (ts : List Team) : State :=
  let gone (id : Nat) : Bool := ts.any (fun t => t.id == id)
  { s with
    teams := s.teams.map (fun t => if gone t.id then { t with core := none } else t)
    groups := s.groups.map (fun g => if gone g.team then { g with core := none } else g) }

/-- The machine with nothing on its cores; teams that are away stay. -/
def State.emptied (s : State) : State :=
  { s with
    groups := s.groups.filter (fun g => g.core.isNone)
    teams := s.teams.filter (fun t => t.core.isNone)
    gangs := s.gangs.filter (fun k => s.teams.any (fun t => t.id == k.team && t.core.isNone))
    cores := s.cores.map (fun c => { c with bins := [], poolReqs := [], tileReqs := [] }) }

/-- The entry of a cohort that does not fit in an empty partition. -/
def State.nofitEntry (s : State) (l : Launch) (cohort : Nat) : State :=
  s.logQueue l.queue.toNat l.part 12 l.queue.toNat (bytesOf 8 (pkAt l.pkt 879 832) ++ bytesOf 4 cohort)

/-- A cohort that needs more than the partition can ever hold is logged once (R139). -/
def State.logNofit (s : State) (l : Launch) : State :=
  if l.nofit || (s.emptied.placeCohort l).isSome then s
  else (s.modLaunch l.id (fun k => { k with nofit := true })).nofitEntry l (l.next / max 1 l.vals.coht)

/-- The same for a cohort that is swapped out; a spawn team has the `COHORT` of its groups (R131, R139). -/
def State.logNofitAway (s : State) (t : Team) : State :=
  match s.launch? t.launch with
  | none => s
  | some l =>
    if t.nofit || (s.emptied.resumeCohort t).isSome then s
    else (s.modTeam t.id (fun t => { t with nofit := true })).nofitEntry l (if t.spawn then 0xFFFF_FFFF else s.cohortOf t)

/-! ## Events -/

/-- `TEAM_PLACE` (R139): the first waiting cohort of a partition, if it is a new one and all its teams fit. -/
def execTeamPlace (part : BitVec 3) (s : State) : Host.Outcome State Fault Refusal :=
  match s.firstWaiting part.toNat with
  | some ⟨_, _, _, _, .new id⟩ =>
    match s.launch? id with
    | none => .next s
    | some l =>
      match s.placeCohort l with
      | some s' => .next (s'.startAttached id)
      | none => .next (s.logNofit l)
  | _ => .next s

/-- `TIME_SLICE_EXPIRY` (R148). -/
def execTimeSliceExpiry (team : Nat) (s : State) : Host.Outcome State Fault Refusal :=
  match s.team? team with
  | none => .next s
  | some t =>
    match s.launch? t.launch with
    | none => .next s
    | some l =>
      let ts := (s.cohortTeams t).filter (fun u => u.core.isSome)
      let old := s.without ts
      let wanted := (s.waitingAll l.part).any (fun w =>
        l.prio ≤ w.prio && !s.waitingFits w && old.waitingFits w)
      if t.core.isSome && ts.all (fun u => u.swap == .resident && s.sliceNs l.prio ≤ (s.time - u.since).toNat) &&
          !(s.part l.part).halted && wanted then
        .next (s.cutAll l.part ts)
      else .next s

/-- `WAIT_PRIORITY_RAISE` (R148): a swapped-out team, or the teams of a launch that were never placed. -/
def execWaitPriorityRaise (team : Nat) (s : State) : Host.Outcome State Fault Refusal :=
  match s.team? team, s.launch? team with
  | some t, _ =>
    match s.launch? t.launch with
    | some l =>
      if t.swap = .out && 8 * s.sliceNs l.prio ≤ (s.time - t.since).toNat then
        .next (s.modTeam team (fun t => { t with raised := true }))
      else .next s
    | none => .next s
  | none, some l =>
    if !l.ended && l.next < l.total && 8 * s.sliceNs l.prio ≤ (s.time - l.tdisp).toNat then
      .next (s.modLaunch team (fun l => { l with raised := true }))
    else .next s
  | none, none => .next s

/-- `SWAP_CUT` (R36, R142, R416): a team whose core leaves its partition, or whose cohort moves. -/
def execSwapCut (team : Nat) (s : State) : Host.Outcome State Fault Refusal :=
  match s.team? team with
  | none => .next s
  | some t =>
    match t.core with
    | none => .next s
    | some c =>
      if t.swap = .resident && ((s.core c).moving || s.mustMove (s.cohortTeams t)) then
        .next (s.cutAll (s.partOf t) [t])
      else .next s

/-! ## Victims of a register-grow check (R146, R330) -/

/-- Does one team go before another as a victim: lowest priority, youngest first placement, highest `L` (R146)? -/
def State.victimBefore (s : State) (a b : Team) : Bool :=
  let prio (t : Team) : Nat := match s.launch? t.launch with | some l => l.prio | none => 0
  if prio a ≠ prio b then prio a < prio b
  else if a.first ≠ b.first then b.first.toNat < a.first.toNat
  else b.l < a.l

/-- The victim among some teams. -/
def State.victim (s : State) (ts : List Team) : Option Team :=
  ts.foldl (fun b t =>
    match b with
    | none => some t
    | some x => if s.victimBefore t x then some t else some x) none

/-- The resident teams of a core that a register-grow check may swap out. -/
def State.candidates (s : State) (core : Nat) : List Team :=
  (s.teamsOn core).filter (fun t => t.swap == .resident && !(s.part (s.partOf t)).halted)

/-- The victim of a core whose oldest request for pool blocks is held back: of the teams that hold some (R146). -/
def State.poolVictim (s : State) (core : Nat) : Option Team :=
  match (s.core core).poolReqs with
  | r :: _ =>
    if s.poolBlocked core r then
      s.victim ((s.candidates core).filter (fun t => s.groups.any (fun g => g.team == t.id && g.blocks != 0)))
    else none
  | [] => none

/-- The victim of a core whose oldest request for tiles is held back: of the teams that hold some (R330). -/
def State.tileVictim (s : State) (core : Nat) : Option Team :=
  match (s.core core).tileReqs with
  | r :: _ =>
    if TILES < s.tilesUsed core + r.blocks then
      s.victim ((s.candidates core).filter (fun t => s.gangs.any (fun k => k.team == t.id)))
    else none
  | [] => none

/-- The next victim of a core: of the check for blocks, or else of that for tiles. -/
def State.nextVictim (s : State) (core : Nat) : Option Team :=
  match s.poolVictim core with
  | some t => some t
  | none => s.tileVictim core

/-- A check ends where no team of the core is left to take (R146). -/
def State.endGrow (s : State) (core : Nat) : State :=
  if (s.nextVictim core).isNone then s.modCore core (fun c => { c with growing := false }) else s

/-- `SWAP_OUT_COMPLETE` (R416). -/
def execSwapOutComplete (team : Nat) (s : State) : Host.Outcome State Fault Refusal :=
  match s.team? team with
  | none => .next s
  | some t =>
    match t.core with
    | none => .next s
    | some c => if t.swap = .cut && s.drained t then .next ((s.swapOut t c).endGrow c) else .next s

/-- Does a team stand on a core after placement: itself, or for a spawn team the one it has joined (R155)? -/
def State.placedOn (s : State) (team launch core : Nat) (s' : State) : Bool :=
  match s'.team? team with
  | some u => u.core == some core
  | none => (s.team? team).any (fun t => t.spawn) && s'.teams.any (fun u => u.spawn && u.launch == launch && u.core == some core)

/-- `TEAM_RESUME` (R139, R142, R419): the swapped-out teams of the cohort that placement takes next; placement gives the team
named the core named. -/
def execTeamResume (team : Nat) (core : Nat) (s : State) : Host.Outcome State Fault Refusal :=
  match s.team? team with
  | none => .next s
  | some t =>
    match s.firstWaiting (s.partOf t) with
    | some ⟨_, _, _, _, .away id⟩ =>
      if t.swap = .out && (s.cohortTeams t).any (fun u => u.id == id) then
        match s.team? id, s.resumeCohort t with
        | _, some s' => .next (if s.placedOn team t.launch core s' then s' else s)
        | some u, none => .next (s.logNofitAway u)
        | none, none => .next s
      else .next s
    | _ => .next s

/-- What a core still holds for the spawn work of its old partition goes with the grid's spawn team, swapped out (R36,
R155, log entry 51, DEDUCED). -/
def State.moveBins (s : State) (core launch : Nat) : State :=
  let mine (b : Bin) : Bool := match b.work with | .spawn l _ _ _ => l == launch | .call .. => false
  let out := (s.core core).bins.filter mine
  let s1 := s.modCore core (fun c => { c with bins := c.bins.filter (fun b => !mine b) })
  match s1.teams.find? (fun t => t.spawn && t.launch == launch && t.home == core && t.core.isNone) with
  | some t => s1.modTeam t.id (fun t => { t with bins := t.bins ++ out })
  | none =>
    { s1 with
      teams := s1.teams ++ [{ Team.blank s1.nextId launch 0 s1.time with
        spawn := true, home := core, swap := .out, bins := out }]
      nextId := s1.nextId + 1 }

/-- A `COLLPART` command ends once every `MOVING` bit has cleared (R446). -/
def State.endCollpart (s : State) : State :=
  if s.cores.toList.any (fun c => c.moving) then s
  else
    let s1 := s.mgmt.collpart.foldl (fun s r => s.finishCommand (r.toNat - 1) 0) s
    { s1 with mgmt := { s1.mgmt with collpart := [] } }

/-- `PARTITION_MOVE_COMPLETE` (R36). -/
def execPartitionMoveComplete (core : Nat) (s : State) : Host.Outcome State Fault Refusal :=
  if core < 272 && (s.core core).moving && (s.teamsOn core).isEmpty then
    let launches := ((s.core core).bins.filterMap (fun b =>
      match b.work with | .spawn l _ _ _ => some l | .call .. => none)).eraseDups
    let s1 := launches.foldl (fun s l => s.moveBins core l) s
    .next (s1.modCore core (fun c => { c with part := c.newPart, moving := false })).endCollpart
  else .next s

end Sys2Proof.Machine
end

