-- ==== Sys2Proof/Machine/Events.lean ====
section
/-! DEFINITION. The events of groups, of the Tessellator and of the accounting units: returned results, deliveries,
fetches, grants, bins, invalidations, soft errors, traces and histograms (R145, R146, R152 to R155, R192, R251, R252,
R266, R415, R420, R422, R429, R436). -/

namespace Sys2Proof.Machine

/-! ## Results (R192, R266, R398) -/

/-- Has `DELV` of an inbox of the group's own core reached n (R398)? -/
def State.gateOpen (s : State) (g : Group) (gate : Option (Nat × Word32)) : Bool :=
  match gate, g.core with
  | none, _ => true
  | some (off, n), some c => (BitVec.ofNat 32 (s.readNat (scrLoc c (off + 8)) 4) - n).toNat < 2 ^ 31
  | some _, none => false

/-- May a result return now? Those of a key-table unit and of Chord return with their operation (R359, R375). -/
def State.mayReturn (s : State) (g : Group) (l : Long) : Bool :=
  !l.returned && l.unit != .keyTable && l.unit != .chord &&
    (match l.load with | some i => i.lanes.isEmpty | none => true) && s.gateOpen g l.gate

/-- `LONG_RESULT_RETURN` (R192): the k-th undelivered result of a group returns; the group waits on for its delivery. -/
def execLongResultReturn (gid : Nat) (k : Nat) (s : State) : Host.Outcome State Fault Refusal :=
  match s.group? gid with
  | none => .next s
  | some g =>
    match g.allPend[k]? with
    | none => .next s
    | some l =>
      if g.core.isSome && s.mayReturn g l then .next (s.setGroup (g.modLong l.id (fun l => { l with returned := true })))
      else .next s

/-- May a parked group be released: on its core, and not in a halted context (R416, R429)? -/
def State.mayRelease (s : State) (g : Group) : Bool :=
  g.core.isSome && !s.haltReached g

/-- `SWITCH_UNPARK` (R192, R258): every result has returned; they are delivered. -/
def execSwitchUnpark (gid : Nat) (s : State) : Host.Outcome State Fault Refusal :=
  match s.group? gid with
  | none => .next s
  | some g => if g.wait = some .switch && g.allReturned && s.mayRelease g then .next (s.deliver g) else .next s

/-- `EMPTYLINE_LOAD_READ` (R266, R267): a waiting lane of the k-th undelivered result reads its line, once it may. A cut has
cancelled the access (R149). -/
def execEmptylineLoadRead (gid : Nat) (k : Nat) (lane : BitVec 6) (s : State) : Host.Outcome State Fault Refusal :=
  match s.group? gid with
  | none => .next s
  | some g =>
    match g.allPend[k]? with
    | none => .next s
    | some l =>
      if s.teamRuns g then
        match s.readLane g l lane with
        | some (s', g') => .next (s'.setGroup g')
        | none => .next s
      else .next s

/-- `FETCH_LINE_RECEIVE` (R158, R177): the line of the group's pc, unless it is held. -/
def execFetchLineReceive (gid : Nat) (s : State) : Host.Outcome State Fault Refusal :=
  match s.group? gid with
  | none => .next s
  | some g => if s.teamRuns g && g.halted.isNone then .next (s.receive g).1 else .next s

/-! ## Pool blocks (R145, R146) -/

/-- `POOL_BLOCK_GRANT` (R145). -/
def execPoolBlockGrant (core : Nat) (s : State) : Host.Outcome State Fault Refusal :=
  .next (s.grantPool core)

/-- `REGISTER_GROW_CHECK` (R146, R330). A check that goes on takes its next victim, once the last has left, until a grant ends
it, no victim is left or the swap area has no room; another begins after 1,024 clocks without an issue or a release. -/
def execRegisterGrowCheck (core : Nat) (s : State) : Host.Outcome State Fault Refusal :=
  let going (b : Bool) (s : State) : State := s.modCore core (fun c => { c with growing := b })
  if !(s.teamsOn core).all (fun t => t.swap == .resident) then .next s
  else if !(s.core core).growing && s.clocksSince (s.core core).lastIssue < 1024 then .next s
  else
    match s.nextVictim core with
    | some t => .next (going (s.areaRoom (s.partOf t) [t]) (s.cutAll (s.partOf t) [t]))
    | none => .next (going false s)

/-! ## Bins (R152 to R155, R251, R252) -/

/-- The clocks of `BINTIME`; 0 acts as 1 (R153). -/
def Core.binClocks (c : Core) : Nat :=
  max 1 c.bintime.toNat

/-- `BIN_FIRE_TIMEOUT` (R153). -/
def execBinFireTimeout (core : Nat) (bin : Nat) (s : State) : Host.Outcome State Fault Refusal :=
  match (s.core core).bins[bin]? with
  | some b =>
    if !b.fired && (s.core core).binClocks ≤ s.clocksSince b.opened then
      .next ((s.modCore core (fun c => c.fire bin s.time)).formSpawn core)
    else .next s
  | none => .next s

/-- Is it the work of a pooled call? -/
def BinWork.pooled : BinWork → Bool
  | .call .. => true
  | .spawn .. => false

/-- Does an older request come before a fired bin's: for pool blocks, before one that needs some (R145) and before any pooled
one; and an older pooled bin before a pooled one (R251; log entry 46, DEDUCED)? -/
def Core.heldBack (c : Core) (b : Bin) : Bool :=
  (b.work.blocks != 0 || b.work.pooled) &&
    (c.poolReqs.any (fun r => r.fired.toNat < b.ord.toNat) ||
     c.bins.any (fun x => x.fired && (x.work.blocks != 0 || (b.work.pooled && x.work.pooled)) &&
       x.ord.toNat < b.ord.toNat))

/-- Are the blocks of a fired bin free, in the order of requests? -/
def State.binBlocks (s : State) (core : Nat) (b : Bin) : Bool :=
  let c := s.core core
  !c.heldBack b && (b.work.blocks == 0 || s.heldBlocks core + b.work.blocks ≤ c.xlimit.toNat)

/-- Bin i of a core is free again. -/
def State.freeBin (s : State) (core i : Nat) : State :=
  s.modCore core (fun c => { c with bins := c.bins.eraseIdx i })

/-- A spawned group in its starting state (R131, R154). -/
def Group.spawned (id : Nat) (t : Team) (l : Launch) (core slot : Nat) (entry : Word64) (vregs : Nat)
    (items : List SpawnItem) (ord now : Word64) : Group :=
  let item (i : Nat) : Option SpawnItem := items[i]?
  let word (k : Nat) : VReg := vreg (fun i => match item i with | some x => vget x.words k 0 | none => 0)
  { Group.blank id t.id core slot (.spawned (items.map (fun x => x.charge))) now with
    index := 0xFFFF_FFFF, teamNo := 0xFFFF_FFFF, cohort := 0xFFFF_FFFF, gx := 0xFFFF_FFFF, gy := 0xFFFF_FFFF,
    gz := 0xFFFF_FFFF
    pc := entry
    v := vecOf 64 (fun r => if r < 4 then word r else vzero)
    lo := 32 < vregs
    hi := 48 < vregs
    x := vset (vset (Vector.replicate 64 0) 0 (l.pkt.extractLsb' 896 64)) 1 l.addr
    exec := maskOf (fun i => i < items.length)
    srseed := l.pkt.extractLsb' 704 64
    srctr := BitVec.ofNat 64 ((core * 2 ^ 23 + ord.toNat % 2 ^ 23) * 2 ^ 32)
    peergen := t.peergen }

/-- A fired spawn bin becomes a group, when nothing that waits comes before it (R148, R153, R154). -/
def State.startSpawned (s : State) (core bin : Nat) (b : Bin) (launch : Nat) (entry : Word64) (vregs : Nat)
    (items : List SpawnItem) : State :=
  match s.launch? launch with
  | none => s
  | some l =>
    if !s.coreOpen l.part core || !s.binFirst l.part core bin then s
    else
      let (s1, t) := s.spawnTeam core launch
      match s1.pickSlot core with
      | some slot =>
        if t.swap = .resident && s.binBlocks core b then
          let g := Group.spawned s1.nextId t l core slot entry vregs items b.ord s1.time
          { s1 with groups := s1.groups ++ [g], nextId := s1.nextId + 1 }.freeBin core bin
        else s
      | none => s

/-- A fired pooled bin becomes one callee group when one is granted (R238, R251). Its number q is the next that the call of
its item 0 has not given out (R243; log entry 57, DESIGN CHOICE). -/
def State.startPooled (s : State) (core bin : Nat) (b : Bin) (team : Nat) (tgt : CallTarget) (lanes : List CallLane) :
    State :=
  match s.team? team, s.packCaller ⟨0, lanes⟩ with
  | some t, some c =>
    let pack : Pack := ⟨match c.callingAt (c.depth + 1) with | some k => k.passes | none => 0, lanes⟩
    let held := (s.groups.filter (fun g => g.team == t.id && (match g.kind with | .callee .. => true | _ => false))).length
    let depth := c.depth + 1
    if t.swap = .resident && t.core = some core && held < (s.valsOf t).budget && s.binBlocks core b then
      let (t1, frames) := if tgt.rc.frame = 0 then (t, []) else s.takeAreas t tgt.rc.frame 1
      if (tgt.rc.frame ≠ 0 && frames.isEmpty) || (s.freeSlots core).isEmpty then s
      else
        let s1 := (s.modTeam t.id (fun _ => t1)).startCallees core tgt [pack] depth 1 frames 1
        (s1.setGroup (c.modCalling depth (fun k => { k with passes := k.passes + 1 }))).freeBin core bin
    else s
  | _, _ => s

/-- `SPAWNED_GROUP_START` (R153, R154, R251). -/
def execSpawnedGroupStart (core : Nat) (bin : Nat) (s : State) : Host.Outcome State Fault Refusal :=
  match (s.core core).bins[bin]? with
  | some b =>
    if !b.fired then .next s
    else
      match b.work with
      | .spawn l e v items => .next (s.startSpawned core bin b l e v items)
      | .call t _ tgt lanes => .next (s.startPooled core bin b t tgt lanes)
  | none => .next s

/-- Are two pooled bins of one key (R251)? -/
def BinWork.sameCall (a b : BinWork) : Bool :=
  match a, b with
  | .call t s _ _, .call u r _ _ => t == u && s == r
  | _, _ => false

/-- The callee lanes of a pooled bin. -/
def BinWork.lanes : BinWork → List CallLane
  | .call _ _ _ l => l
  | .spawn .. => []

/-- Take a caller's members out of callee lanes; lanes left empty go, and a set that has lost members is closed (R252). -/
def withdraw (caller : Nat) (l : List CallLane) : List CallLane :=
  (l.map (fun x =>
    { x with members := x.members.filter (fun m => m.caller != caller)
             closed := x.closed || x.members.any (fun m => m.caller == caller) })).filter (fun x => !x.members.isEmpty)

/-- The members of a caller in callee lanes, each once, in order. -/
def membersIn (caller : Nat) (l : List CallLane) : List Member :=
  (l.flatMap (fun x => x.members.filter (fun m => m.caller == caller))).eraseDups

/-- A bin without a caller's members. -/
def Bin.withdraw (b : Bin) (caller : Nat) : Bin :=
  match b.work with
  | .call t sl tg l => { b with work := .call t sl tg (Sys2Proof.Machine.withdraw caller l) }
  | .spawn .. => b

/-- The oldest caller with items in the bins of a key. -/
def State.oldestCaller (s : State) (core : Nat) (key : BinWork) : Option Group :=
  let lanes := (s.core core).bins.flatMap (fun b => if b.work.sameCall key then b.work.lanes else [])
  let ids := (lanes.flatMap (fun l => l.members.map (fun m => m.caller))).eraseDups
  (ids.filterMap s.group?).foldl (fun b g =>
    match b with
    | none => some g
    | some x => if g.created.toNat < x.created.toNat then some g else some x) none

/-- The callee lanes that the bins of a key hold. -/
def State.keyLanes (s : State) (core : Nat) (key : BinWork) : List CallLane :=
  (s.core core).bins.flatMap (fun b => if b.work.sameCall key then b.work.lanes else [])

/-- The bins of a key give up a caller's items; one left empty is free, and the one that waited waits anew (R252). -/
def State.withdrawItems (s : State) (core bin : Nat) (key : BinWork) (caller : Nat) : State :=
  s.modCore core (fun co =>
    { co with bins := (co.bins.zipIdx.map (fun (b, i) =>
        if b.work.sameCall key then
          let b' := b.withdraw caller
          if i = bin then { b' with since := s.time } else b'
        else b)).filter (fun b => !(b.work.sameCall key && b.work.lanes.isEmpty)) })

/-- Is a whole call still in the bins: no item of it runs or has returned? -/
def Calling.waits (c : Calling) (caller : Nat) (lanes : List CallLane) : Bool :=
  (lanes.map (fun l => l.members.countP (fun m => m.caller == caller))).sum ==
    (lanesOf c.set).length * (if c.tgt.gather then 1 else c.tgt.k)

/-- A caller withdraws its items of a key and self-folds them (R252, R240). Where its frame does not fit the call takes
`FRAMEOVF` (R240) and leaves the bins; one of which some items run or have returned waits (log entry 57, DESIGN CHOICE). -/
def State.withdrawCall (s : State) (core bin : Nat) (key : BinWork) : State :=
  match s.oldestCaller core key with
  | none => s
  | some g =>
    match s.team? g.team, g.calling with
    | some t, some c =>
      let lanes := s.keyLanes core key
      if s.haltReached g then s
      else
        match s.findArea t c.tgt.frameSize with
        | none =>
          if c.waits g.id lanes then
            (s.withdrawItems core bin key g.id).take { g with wait := none, calling := none } (trapOf .frameovf)
          else s
        | some off =>
          let ms := membersIn g.id lanes
          let set := maskOf (fun i => ms.any (fun m => m.lane.toNat == i))
          let folded := (c.tgt.lanes ms).filter (fun l => c.tgt.gather || l.w == 0)
          let s2 := (s.withdrawItems core bin key g.id).modTeam t.id (fun t =>
            { t with areas := t.areas ++ [(off, c.tgt.frameSize)] })
          s2.selfFold g c folded set off
    | _, _ => s

/-- `POOLED_CALL_WITHDRAW` (R252): every `BINTIME` clocks that a fired pooled bin waits. -/
def execPooledCallWithdraw (core : Nat) (bin : Nat) (s : State) : Host.Outcome State Fault Refusal :=
  match (s.core core).bins[bin]? with
  | some b =>
    match b.work with
    | .call team _ _ _ =>
      let runs := match s.team? team with | some t => t.swap == .resident && t.core == some core | none => false
      if b.fired && runs && (s.core core).binClocks ≤ s.clocksSince b.since then .next (s.withdrawCall core bin b.work)
      else .next s
    | .spawn .. => .next s
  | none => .next s

/-! ## Invalidation (R415) -/

/-- Is a page in the scope held: by a command, a member of a collective, the spill binding of a key table? -/
def State.scopeHeld (s : State) (issuer : Nat) (scope : TlbScope) (arg : Word64) : Bool :=
  s.cmds.any (fun c => c.pages.any (inScope scope arg issuer c.part)) ||
    s.colls.any (fun c => c.members.any (fun m => m.pages.any (inScope scope arg issuer m.fork.part))) ||
    s.teams.any (fun t => t.kts.any (fun k =>
      match k with | some k => k.pages.any (inScope scope arg issuer (s.partOf t)) | none => false))

/-- Does a `TLBINV` of a partition's group select an entry? -/
def TlbEntry.selected (e : TlbEntry) (issuer : Nat) (scope : TlbScope) (arg : Word64) : Bool :=
  match scope with
  | .addr => e.covers issuer arg
  | .part => e.part == arg.toNat % 8
  | .all => true

/-- Every TLB of the module drops the selected entries (R415). -/
def State.dropEntries (s : State) (issuer : Nat) (scope : TlbScope) (arg : Word64) : State :=
  let keep (l : List TlbEntry) : List TlbEntry := l.filter (fun e => !e.selected issuer scope arg)
  { s with
    cores := s.cores.map (fun c => { c with tlb := keep c.tlb })
    dies := s.dies.map (fun d => { d with tlb := keep d.tlb }) }

/-- `TLBINV_COMPLETE` (R415): the entries are dropped, and the group goes on. -/
def execTlbinvComplete (gid : Nat) (s : State) : Host.Outcome State Fault Refusal :=
  match s.group? gid with
  | none => .next s
  | some g =>
    match g.wait with
    | some (.tlbinv scope arg sw) =>
      if s.mayRelease g && !s.scopeHeld (s.accessor g).part scope arg then
        let s1 := s.dropEntries (s.accessor g).part scope arg
        let g1 := { g with wait := none }
        if !sw then .next (s1.setGroup g1)
        else if g1.allReturned then .next (s1.deliver g1)
        else .next (s1.setGroup { g1 with wait := some .switch })
      else .next s
    | _ => .next s

/-! ## Soft errors (R377, R394, R420, R437) -/

/-- Where an error strikes: a unit of memory by its location, or, beyond the slices, a stream register of a team
(2^57 + 64 × team + register) or an entry of an inter-partition queue (2^58 + 4,096 × queue + entry). -/
inductive Struck where
  | unit (loc : Nat)
  | stream (team reg : Nat)
  | entry (q i : Nat)
  deriving DecidableEq, Repr

def struckAt (loc : Nat) : Struck :=
  if 2 ^ 58 ≤ loc then .entry ((loc - 2 ^ 58) / 4096) ((loc - 2 ^ 58) % 4096)
  else if 2 ^ 57 ≤ loc then .stream ((loc - 2 ^ 57) / 64) ((loc - 2 ^ 57) % 64)
  else .unit (loc / 16 * 16)

/-- Does the module hold a unit: main memory or a slice? -/
def unitExists (loc : Nat) : Bool :=
  loc < MAIN_END || (2 ^ 56 ≤ loc && loc < 2 ^ 56 + 272 * 2 ^ 20)

/-- The log entry of a soft error. -/
def State.logSoft (s : State) (loc kind : Nat) : State :=
  let (die, node, addr) := unitHome loc
  s.log { die := die, kind := kind, unit := die * 4096 + node, data := bytesOf 8 addr }

/-- A corrected error: counted, and logged at most once a second for a unit (R437). -/
def State.corrected (s : State) (loc : Nat) : State :=
  let die := (unitHome loc).1
  let s1 := s.modDie die (fun d =>
    { d with cecount := if d.cecount = 0xFFFF_FFFF then d.cecount else d.cecount + 1 })
  let recent := (s.die die).ceUnits.any (fun p => p.1 == loc / 16 && (s.time - p.2).toNat < 10 ^ 9)
  if recent then s1
  else
    (s1.modDie die (fun d =>
      { d with ceUnits := d.ceUnits.filter (fun p => p.1 != loc / 16) ++ [(loc / 16, s.time)] })).logSoft loc 2

/-- `SOFT_ERROR`. -/
def execSoftError (loc : Nat) (corrected : Bool) (s : State) : Host.Outcome State Fault Refusal :=
  match struckAt loc with
  | .unit u =>
    if !unitExists u then .next s
    else if corrected then .next (s.corrected u)
    else .next ((s.setPoison u).logSoft u 3)
  | .stream t r =>
    if corrected then .next s
    else .next (s.modTeam t (fun t => { t with streams := t.streams.modify r (fun x => { x with poison := true }) }))
  | .entry q i =>
    if corrected then .next s
    else .next (s.setIpq q { s.ipq q with entries := (s.ipq q).entries.modify i (fun x => { x with poison := true }) })

/-! ## Debug and accounting (R422, R429, R436) -/

/-- `CROSS_TRIGGER_ARRIVE` (R429): from now on the core's groups stop at their next stop sites. -/
def execCrossTriggerArrive (core : Nat) (s : State) : Host.Outcome State Fault Refusal :=
  .next { s with parts := s.parts.map (fun p => { p with trig := p.trig.filter (· != core) }) }

/-- The groups of a quadrant. -/
def State.quadGroups (s : State) (core quad : Nat) : List Group :=
  (s.onCore core).filter (fun g => g.slot / 32 == quad)

/-- The oldest of some groups (R422). -/
def oldestOf (l : List Group) : Option Group :=
  l.foldl (fun b g =>
    match b with
    | none => some g
    | some x => if g.created.toNat < x.created.toNat then some g else some x) none

/-- `TRACE_SAMPLE` (R436): once every 2^`SAMPL` clocks, the oldest group of the quadrant that has issued since the last
sample. -/
def execTraceSample (core : Nat) (quad : BitVec 2) (s : State) : Host.Outcome State Fault Refusal :=
  let part := (s.core core).part.toNat
  let l := s.quadGroups core quad.toNat
  if 8 ≤ part || (s.part part).sampl = 0 ||
      s.clocksSince (vget (s.core core).sampled quad.toNat 0) < 2 ^ (s.part part).sampl.toNat then .next s
  else
    let s0 := s.modCore core (fun c => { c with sampled := vset c.sampled quad.toNat s.time })
    match oldestOf (l.filter (fun g => !g.sampled)) with
    | none => .next s0
    | some g =>
      let seq := vget (s.core core).slotSeq g.slot 0
      let s1 := s0.trace part (traceRec s.time seq g.gid16 g.lastsp 2)
      .next { s1 with groups := s1.groups.map (fun g => if l.any (fun k => k.id == g.id) then { g with sampled := true } else g) }

/-- Is a group eligible: it could issue its next instruction in this clock, or the firmware could for it (R422)? -/
def State.eligible (s : State) (g : Group) : Bool :=
  (s.mayIssue g && g.wait.isNone && (g.lineAt g.pc).isSome) ||
    (s.teamRuns g && g.halted.isNone && !g.stopped && g.firmware.any (fun f => !f.waits))

/-- `ELIGIBILITY_HISTOGRAM_CLOCK` (R422, R423). -/
def execEligibilityHistogramClock (core : Nat) (quad : BitVec 2) (s : State) : Host.Outcome State Fault Refusal :=
  let q := quad.toNat
  let l := s.quadGroups core q
  let e := (l.filter s.eligible).length
  if (s.core core).frz then .next s
  else
    let code := match oldestOf l with | none => 0 | some g => g.stallCode
    .next (s.modCore core (fun c =>
      { c with
        hist := vmod c.hist q (Vector.replicate 33 0) (fun h => vmod h e 0 (· + 1))
        stall := if e = 0 then vmod c.stall q (Vector.replicate 15 0) (fun h => vmod h code 0 (· + 1)) else c.stall }))

end Sys2Proof.Machine
end

