-- ==== Sys2Proof/Machine/Owner.lean ====
section
/-! DEFINITION. Ownership, the mailbox commands, the power cap, requests of host and peers, peer links (R31, R42, R298,
R438 to R448). -/

namespace Sys2Proof.Machine

/-! ## Ownership (R440 to R442) -/

/-- The fields of `OWNER`. -/
def ownOf (w : Word64) : Nat := bitsN w 7 0
def handOf (w : Word64) : Nat := bitsN w 15 8
def epochOf (w : Word64) : Nat := bitsN w 47 16

/-- `OWNER` from its fields. -/
def ownerWord (epoch hand own : Nat) : Word64 :=
  BitVec.ofNat 64 (epoch % 2 ^ 32 * 2 ^ 16 + hand * 2 ^ 8 + own)

/-- The four transitions by requester r. -/
def claimOk (r : Nat) (old new : Word64) : Bool :=
  isMaster r && ownOf old == 0 && new == ownerWord (epochOf old + 1) 0 r

def offerOk (r : Nat) (old new : Word64) : Bool :=
  isMaster r && ownOf old == r && handOf new ≤ 8 && handOf new != r && new == ownerWord (epochOf old) (handOf new) r

def takeOk (r : Nat) (old new : Word64) : Bool :=
  isMaster r && handOf old == r && new == ownerWord (epochOf old + 1) 0 r

def releaseOk (r : Nat) (old new : Word64) : Bool :=
  isMaster r && ownOf old == r && new == ownerWord (epochOf old + 1) 0 0

/-- `OWNER` takes a new value; a change of `EPOCH` raises the interrupts of the old and the new owner (R442). -/
def State.setOwner (s : State) (new : Word64) : State :=
  let old := s.mgmt.owner
  let s1 := { s with mgmt := { s.mgmt with owner := new } }
  if epochOf old = epochOf new then s1 else (s1.raise (ownOf old)).raise (ownOf new)

/-- A requester is answered with a value (R439, R440). -/
def State.reply (s : State) (who : Requester) (v : Nat) : State :=
  { s with answer := some (who, v) }

/-- A compare-and-set of `OWNER` by requester r by some transitions; it returns the old value (R440). -/
def State.ownerCas (s : State) (r : BitVec 8) (expect new : Word64) (ok : Nat → Word64 → Word64 → Bool) : State :=
  if isMaster r.toNat then
    (if s.mgmt.owner = expect && ok r.toNat expect new then s.setOwner new else s).reply (.master r) s.mgmt.owner.toNat
  else s

def execOwnerClaim (r : BitVec 8) (expect new : Word64) (s : State) : Host.Outcome State Fault Refusal :=
  .next (s.ownerCas r expect new claimOk)

def execOwnerOffer (r : BitVec 8) (expect new : Word64) (s : State) : Host.Outcome State Fault Refusal :=
  .next (s.ownerCas r expect new offerOk)

def execOwnerTake (r : BitVec 8) (expect new : Word64) (s : State) : Host.Outcome State Fault Refusal :=
  .next (s.ownerCas r expect new takeOk)

def execOwnerRelease (r : BitVec 8) (expect new : Word64) (s : State) : Host.Outcome State Fault Refusal :=
  .next (s.ownerCas r expect new releaseOk)

/-- The master behind the host link, or behind a peer port (R438). -/
def masterAt (port : Option (BitVec 3)) : BitVec 8 :=
  match port with
  | none => 1
  | some p => 3 + p.setWidth 8

/-- The state of the host link, or of a peer port's (R31, R441). -/
def State.setLink (s : State) (port : Option (BitVec 3)) (up : Bool) : State :=
  match port with
  | none => { s with hostUp := up }
  | some p => { s with peerUp := vset s.peerUp p.toNat up }

/-- A link goes down: the timer starts if `OWN` names the master on it (R441). -/
def State.linkDown (s : State) (port : Option (BitVec 3)) : State :=
  let s1 := s.setLink port false
  if s.owner = (masterAt port).toNat then { s1 with mgmt := { s1.mgmt with timer := some (masterAt port, s.time) } }
  else s1

/-- A link comes up: the timer of the master on it is dropped within the second (R441). -/
def State.linkUp (s : State) (port : Option (BitVec 3)) : State :=
  let s1 := s.setLink port true
  { s1 with mgmt := { s1.mgmt with
    timer := s1.mgmt.timer.filter (fun t => t.1 != masterAt port || 10 ^ 9 ≤ (s.time - t.2).toNat) } }

def execOwnerLinkDown (port : Option (BitVec 3)) (s : State) : Host.Outcome State Fault Refusal :=
  .next (s.linkDown port)

def execOwnerLinkUp (port : Option (BitVec 3)) (s : State) : Host.Outcome State Fault Refusal :=
  .next (s.linkUp port)

/-- The entry for a release on a master's behalf: the rule's table gives it no kind and no detail (R437, R441; log entry 9,
DESIGN CHOICE). -/
def linkEvent : LogEvent :=
  let byte (i : Nat) : Byte := Config.linkEntry i
  { die := 0, kind := (byte 0).toNat, unit := 0x102, aux := natOf ((List.range 4).map (fun i => byte (1 + i))),
    data := (List.range 40).map (fun i => byte (5 + i)) }

/-- `OWNER_LINK_TIMEOUT` (R441): after 1 s a release on the master's behalf, if it still owns the module, and its entry. -/
def execOwnerLinkTimeout (s : State) : Host.Outcome State Fault Refusal :=
  match s.mgmt.timer with
  | none => .next s
  | some (m, since) =>
    if 10 ^ 9 ≤ (s.time - since).toNat then
      let s1 := { s with mgmt := { s.mgmt with timer := none } }
      if s.owner = m.toNat then .next ((s1.setOwner (ownerWord (epochOf s.mgmt.owner + 1) 0 0)).log linkEvent) else .next s1
    else .next s

/-! ## Mailbox commands (R446 to R448) -/

/-- Does a master's mailbox hold a command that the firmware has not finished? -/
def State.commanded (s : State) (r code : Nat) : Bool :=
  isMaster r && vget s.mgmt.busy (r - 1) false && s.boxNat (r - 1) 0 4 == code

/-- The firmware runs a command: in recovery only `STAGE` and `UPDATE` are accepted (R444); one that only the owner may
issue is refused to others. -/
def State.command (s : State) (r code : Nat) (ownerOnly recovery : Bool) (run : State) : State :=
  if !s.commanded r code || s.mgmt.bootState.toNat < 2 then s
  else if s.mgmt.bootState = 3 then (if recovery then run else s.finishCommand (r - 1) 1)
  else if ownerOnly && s.owner ≠ r then s.finishCommand (r - 1) 1
  else run

/-- The report of R448 before its signatures. -/
def State.reportBody (s : State) (r : Nat) : List Byte :=
  bytesOf 4 0x4154_5354 ++ bytesOf 4 s.mgmt.version.toNat ++ bytesOf 16 s.mgmt.serial.toNat ++
    Memory.readN (vget s.mgmt.boxes (r - 1) []) 8 32 ++ bytesOf 48 s.mgmt.digest.toNat ++
    bytesOf 48 (sha3 Config.rom).toNat ++ bytesOf 8 s.mgmt.owner.toNat ++ bytesOf 8 s.time.toNat

/-- The report of R448, 3,541 bytes. The random bytes of its second signature are free (log entry 65, PRESUMED). -/
def State.report (s : State) (r : Nat) : List Byte :=
  let b := s.reportBody r
  b ++ bytesOf 64 (edSign s.mgmt.edKey b).toNat ++
    (List.range 3309).map (mlSign s.mgmt.mlKey (Config.mlRandom s.freeCtr) b)

/-- A command answers with bytes in the reply buffer and their length. -/
def State.replyWith (s : State) (r : Nat) (bs : List Byte) : State :=
  ((s.setReply (r - 1) 0 bs).setBox (r - 1) 8 (bytesOf 4 bs.length)).finishCommand (r - 1) 0

def execAttest (r : BitVec 8) (s : State) : Host.Outcome State Fault Refusal :=
  .next (s.command r.toNat 1 false false ({ s with freeCtr := s.freeCtr + 1 }.replyWith r.toNat (s.report r.toNat)))

def execGetcert (r : BitVec 8) (s : State) : Host.Outcome State Fault Refusal :=
  .next (s.command r.toNat 2 false false
    (s.replyWith r.toNat (Config.certificate (edPublic s.mgmt.edKey) (mlPublic s.mgmt.mlKey) s.mgmt.serial)))

/-- The inactive image slot. -/
def Mgmt.inactive (m : Mgmt) : List Host.Cell :=
  if m.active then m.slotA else m.slotB

def Mgmt.setInactive (m : Mgmt) (slot : List Host.Cell) : Mgmt :=
  if m.active then { m with slotA := slot } else { m with slotB := slot }

/-- The failing step of the inactive slot's last check (R446). -/
def Mgmt.inactiveFail (m : Mgmt) : BitVec 8 :=
  if m.active then m.checkA else m.checkB

def Mgmt.setInactiveFail (m : Mgmt) (step : BitVec 8) : Mgmt :=
  if m.active then { m with checkA := step } else { m with checkB := step }

/-- Where the firmware reads the image that `UPDATE` names (R447): none where it refuses (log entry 49, DEDUCED). -/
def State.imageSource (s : State) (r a : Nat) : Option Nat :=
  if r = 1 then (if a < HOST_BASE && s.hostUp then some (HOST_BASE + a) else none)
  else if 3 ≤ r && r ≤ 8 then
    (if a < MAIN_END && vget s.peerUp (r - 3) false then some (2 * HOST_BASE + (r - 3) * 2 ^ 52 + a) else none)
  else none

/-- An image copied from memory: its header and the body its header names. -/
def State.readImage (s : State) (loc : Nat) : List Host.Cell :=
  let n := 4096 + min (s.readNat (loc + 8) 4) (48 * 2 ^ 20 - 4096)
  (s.mem.filter (fun c => loc ≤ c.1 && c.1 < loc + n)).map (fun c => (c.1 - loc, c.2))

/-- The result of an image check: the status with the failing step, or the image in the inactive slot (R446, R447). -/
def State.finishUpdate (s : State) (r : Nat) (img : List Host.Cell) : State :=
  let step := checkImage img s.mgmt.vfloor
  if step = 0 then
    { s with mgmt := (s.mgmt.setInactive img).setInactiveFail 0 }.finishCommand (r - 1) 0
  else
    ({ s with mgmt := s.mgmt.setInactiveFail (BitVec.ofNat 8 step) }.setBox (r - 1) 8 (bytesOf 1 step)).finishCommand (r - 1) 2

/-- `UPDATE`. -/
def State.update (s : State) (r : Nat) : State :=
  let a := s.boxNat (r - 1) 8 8
  if a = 2 ^ 64 - 1 then s.finishUpdate r s.mgmt.inactive
  else
    match s.imageSource r a with
    | some loc => s.finishUpdate r (s.readImage loc)
    | none => s.finishCommand (r - 1) 1

def execUpdate (r : BitVec 8) (s : State) : Host.Outcome State Fault Refusal :=
  .next (s.command r.toNat 3 true true (s.update r.toNat))

/-- `ACTIVATE`: the slots change places at the next reset, and `VFLOOR` rises to the version; not where the inactive slot's
last check, by the boot ROM or an `UPDATE`, has failed. -/
def State.activate (s : State) (r : Nat) : State :=
  let m := s.mgmt
  if m.inactiveFail ≠ 0 then (s.setBox (r - 1) 8 (bytesOf 1 m.inactiveFail.toNat)).finishCommand (r - 1) 2
  else
    { s with mgmt := { m with
      active := !m.active, vfloor := BitVec.ofNat 32 (max m.vfloor.toNat (slotNat m.inactive 4 4)) } }.finishCommand (r - 1) 0

def execActivate (r : BitVec 8) (s : State) : Host.Outcome State Fault Refusal :=
  .next (s.command r.toNat 4 true false (s.activate r.toNat))

/-- `STAGE`: 240 bytes of the inactive slot. -/
def State.stage (s : State) (r : Nat) : State :=
  let off := s.boxNat (r - 1) 8 8
  if 48 * 2 ^ 20 < off + 240 then s.finishCommand (r - 1) 1
  else
    let bs := Memory.readN (vget s.mgmt.boxes (r - 1) []) 16 240
    { s with mgmt := s.mgmt.setInactive (Memory.write s.mgmt.inactive off bs) }.finishCommand (r - 1) 0

def execStage (r : BitVec 8) (s : State) : Host.Outcome State Fault Refusal :=
  .next (s.command r.toNat 5 true true (s.stage r.toNat))

/-- `COLLPART`: writes of `CPART`, answered once no core moves. -/
def State.collpartCmd (s : State) (r : Nat) : State :=
  let b := s.boxNat (r - 1) 8 1
  if 1 < b then s.finishCommand (r - 1) 1
  else
    let s1 := (List.range 272).foldl (fun s c =>
      if b = 1 then (if 64 ≤ c % 68 then s.setCpart c 8 else s)
      else if (s.core c).part = 8 then s.setCpart c 15 else s) s
    if s1.cores.toList.any (fun c => c.moving) then
      { s1 with mgmt := { s1.mgmt with collpart := s1.mgmt.collpart ++ [BitVec.ofNat 8 r] } }
    else s1.finishCommand (r - 1) 0

def execCollpart (r : BitVec 8) (s : State) : Host.Outcome State Fault Refusal :=
  .next (if s.mgmt.collpart.contains r then s else s.command r.toNat 6 true false (s.collpartCmd r.toNat))

/-! ## Power (R42) -/

/-- The owner, where the module has one, sets the power cap, from 600 W to 2,400 W (R42; log entry 49, DESIGN CHOICE). -/
def State.setCap (s : State) (cap : Nat) : State :=
  if isMaster s.owner && 600 ≤ cap && cap ≤ 2400 then { s with cap := cap } else s

/-- `CLKSTEP`: the cap binds and lowers the clock by 50 MHz. -/
def execClkstep (s : State) : Host.Outcome State Fault Refusal :=
  if s.clock ≤ 50 then .next s
  else
    let s1 := { s with clock := s.clock - 50 }
    .next (s1.log { die := 0, kind := 13, unit := 0x102, aux := s1.clock, data := bytesOf 4 s1.cap })

/-! ## Requests of host and peers (R27, R272, R298) -/

/-- The location of a request of n bytes: main memory, or a slice through its global window. -/
def requestLoc (addr : Word64) (n : Nat) : Option Nat :=
  if addr.toNat + n ≤ MAIN_END then some addr.toNat
  else
    match regionOf none addr with
    | .scratch c off => if off + n ≤ 2 ^ 20 then some (scrLoc c off) else none
    | _ => none

/-- The sizes of an AtomicOp, and the value it stores for an old one (R272). -/
def atomicOf : HostOp → Option (Nat × List Nat × (Code → Code))
  | .read | .write _ => none
  | .swap n v => some (n, [4, 8], fun _ => v)
  | .fetchAdd n v => some (n, [4, 8], fun old => old + v)
  | .cas n expected new =>
    some (n, [4, 8, 16], fun old => if old.toNat = expected.toNat % 2 ^ (8 * n) then new else old)

/-- An AtomicOp: one read-modify-write of a naturally aligned word without poison, which returns the old value (R268, R420). -/
def State.hostAtomic (s : State) (who : Requester) (addr : Word64) (n : Nat) (sizes : List Nat) (f : Code → Code) : State :=
  if !sizes.contains n || addr.toNat % n ≠ 0 then s
  else
    match requestLoc addr n with
    | some loc =>
      if (s.poisonIn loc n).isSome then s
      else
        (s.writeNat loc n ((f (BitVec.ofNat 128 (s.readNat loc n))).toNat % 2 ^ (8 * n))).reply who (s.readNat loc n)
    | none => s

/-- A request on main memory or a slice (R298). -/
def State.memRequest (s : State) (who : Requester) (addr : Word64) (size : Nat) (op : HostOp) : State :=
  match atomicOf op with
  | some (n, sizes, f) => s.hostAtomic who addr n sizes f
  | none =>
    match requestLoc addr size with
    | none => s
    | some loc =>
      match op with
      | .write bytes => if bytes.length = size then s.write loc bytes else s
      | _ => s.reply who (s.readNat loc size)

/-- Any of the four transitions (R440). -/
def anyOk (r : Nat) (old new : Word64) : Bool :=
  claimOk r old new || offerOk r old new || takeOk r old new || releaseOk r old new

/-- A request on the supervisor register window (R33, R439): an AtomicOp returns the target's value, and only one on `OWNER`
can have an effect (R440; log entry 60, DESIGN CHOICE). -/
def State.windowRequest (s : State) (r : BitVec 8) (off size : Nat) (op : HostOp) : State :=
  match op with
  | .read => s.reply (.master r) (s.regRead (.master r.toNat) off size)
  | .write bytes => if bytes.length = size then s.regWrite (.master r.toNat) off size (natOf bytes) else s
  | .cas n expected new =>
    if off = 0 && n = 8 then s.ownerCas r (expected.setWidth 64) (new.setWidth 64) anyOk
    else s.reply (.master r) (s.regRead (.master r.toNat) off n)
  | .swap n _ | .fetchAdd n _ => s.reply (.master r) (s.regRead (.master r.toNat) off n)

/-- A read of n bytes at an offset of a virtual function's BAR: every offset but those of its registers reads 0 (R33). -/
def State.vfRead (s : State) (p : BitVec 3) (off n : Nat) : Nat :=
  ((s.vfOffset p.toNat off).map (fun o => s.regRead (.vf p.toNat) o n)).getD 0

/-- A request of a virtual function at an offset of its BAR (R33); an AtomicOp there returns what is read and has no effect
(log entry 60, DESIGN CHOICE). -/
def State.vfRequest (s : State) (p : BitVec 3) (off size : Nat) (op : HostOp) : State :=
  match op with
  | .read => s.reply (.vf p) (s.vfRead p off size)
  | .write bytes =>
    if bytes.length = size then s.vfWrite p off size (natOf bytes) else s
  | .cas n _ _ | .swap n _ | .fetchAdd n _ => s.reply (.vf p) (s.vfRead p off n)

/-- `HOST_OR_PEER_REQUEST` (R33, R298, R439). An address of the supervisor register window names an offset of it, or for a
virtual function an offset of its BAR (log entry 60, DESIGN CHOICE). A virtual function and the board management controller
reach no memory (R33, R438), and until the firmware runs the links carry no request to it (R444, log entry 59, DESIGN
CHOICE). -/
def execHostOrPeerRequest (who : Requester) (addr : Word64) (size : Nat) (op : HostOp) (s : State) :
    Host.Outcome State Fault Refusal :=
  match who, regionOf none addr with
  | .vf p, .supv off => .next (s.vfRequest p off size op)
  | .vf _, _ => .next s
  | .master r, .supv off => .next (if isMaster r.toNat then s.windowRequest r off size op else s)
  | .master r, _ =>
    .next (if isMaster r.toNat && r != 2 && s.mgmt.bootState = 2 then s.memRequest who addr size op else s)

/-! ## Peer links (R31) -/

def execPeerPortLinkDown (port : BitVec 3) (s : State) : Host.Outcome State Fault Refusal :=
  .next (s.linkDown (some port))

def execPeerPortLinkUp (port : BitVec 3) (s : State) : Host.Outcome State Fault Refusal :=
  .next (s.linkUp (some port))

end Sys2Proof.Machine
end

