-- ==== Sys2Proof/Machine/Dispatch.lean ====
section
/-! DEFINITION. One arm per row of the opcode table. -/

namespace Sys2Proof.Machine

def exec (i : Instr) (s : State) : Host.Outcome State Fault Refusal :=
  match i with
  | .iadd h sat ty d a b => Sys2Proof.Machine.execIadd h sat ty d a b s
  | .iaddImm h sat ty d a imm => Sys2Proof.Machine.execIaddImm h sat ty d a imm s
  | .isub h sat ty d a b => Sys2Proof.Machine.execIsub h sat ty d a b s
  | .isubImm h sat ty d a imm => Sys2Proof.Machine.execIsubImm h sat ty d a imm s
  | .imul h sat ty d a b => Sys2Proof.Machine.execImul h sat ty d a b s
  | .imulImm h sat ty d a imm => Sys2Proof.Machine.execImulImm h sat ty d a imm s
  | .imulh h ty d a b => Sys2Proof.Machine.execImulh h ty d a b s
  | .imad h sat ty d a b c => Sys2Proof.Machine.execImad h sat ty d a b c s
  | .imin h ty d a b => Sys2Proof.Machine.execImin h ty d a b s
  | .iminImm h ty d a imm => Sys2Proof.Machine.execIminImm h ty d a imm s
  | .imax h ty d a b => Sys2Proof.Machine.execImax h ty d a b s
  | .imaxImm h ty d a imm => Sys2Proof.Machine.execImaxImm h ty d a imm s
  | .iabs h sat ty d a => Sys2Proof.Machine.execIabs h sat ty d a s
  | .ineg h sat ty d a => Sys2Proof.Machine.execIneg h sat ty d a s
  | .iaddc h ty d a b c => Sys2Proof.Machine.execIaddc h ty d a b c s
  | .icmp h rel ty d a b => Sys2Proof.Machine.execIcmp h rel ty d a b s
  | .icmpImm h rel ty d a imm => Sys2Proof.Machine.execIcmpImm h rel ty d a imm s
  | .sel h ty d a b c => Sys2Proof.Machine.execSel h ty d a b c s
  | .lea h ty sh d a b => Sys2Proof.Machine.execLea h ty sh d a b s
  | .leaImm h ty d a imm => Sys2Proof.Machine.execLeaImm h ty d a imm s
  | .clz h ty d a => Sys2Proof.Machine.execClz h ty d a s
  | .popc h ty d a => Sys2Proof.Machine.execPopc h ty d a s
  | .and h ty d a b => Sys2Proof.Machine.execAnd h ty d a b s
  | .andImm h ty d a imm => Sys2Proof.Machine.execAndImm h ty d a imm s
  | .or h ty d a b => Sys2Proof.Machine.execOr h ty d a b s
  | .orImm h ty d a imm => Sys2Proof.Machine.execOrImm h ty d a imm s
  | .xor h ty d a b => Sys2Proof.Machine.execXor h ty d a b s
  | .xorImm h ty d a imm => Sys2Proof.Machine.execXorImm h ty d a imm s
  | .andn h ty d a b => Sys2Proof.Machine.execAndn h ty d a b s
  | .andnImm h ty d a imm => Sys2Proof.Machine.execAndnImm h ty d a imm s
  | .not h ty d a => Sys2Proof.Machine.execNot h ty d a s
  | .shl h ty d a b => Sys2Proof.Machine.execShl h ty d a b s
  | .shlImm h ty d a imm => Sys2Proof.Machine.execShlImm h ty d a imm s
  | .shr h ty d a b => Sys2Proof.Machine.execShr h ty d a b s
  | .shrImm h ty d a imm => Sys2Proof.Machine.execShrImm h ty d a imm s
  | .sar h ty d a b => Sys2Proof.Machine.execSar h ty d a b s
  | .sarImm h ty d a imm => Sys2Proof.Machine.execSarImm h ty d a imm s
  | .rotl h ty d a b => Sys2Proof.Machine.execRotl h ty d a b s
  | .rotlImm h ty d a imm => Sys2Proof.Machine.execRotlImm h ty d a imm s
  | .brev h ty d a => Sys2Proof.Machine.execBrev h ty d a s
  | .bfx h ty d a b => Sys2Proof.Machine.execBfx h ty d a b s
  | .bfxImm h ty d a imm => Sys2Proof.Machine.execBfxImm h ty d a imm s
  | .bfi h ty d a b c => Sys2Proof.Machine.execBfi h ty d a b c s
  | .mov h ty d a => Sys2Proof.Machine.execMov h ty d a s
  | .movi h ty d imm => Sys2Proof.Machine.execMovi h ty d imm s
  | .bcast h ty d a => Sys2Proof.Machine.execBcast h ty d a s
  | .laneget h ty d a b => Sys2Proof.Machine.execLaneget h ty d a b s
  | .fadd h ty rm ftz d a b => Sys2Proof.Machine.execFadd h ty rm ftz d a b s
  | .faddImm h ty rm ftz d a imm => Sys2Proof.Machine.execFaddImm h ty rm ftz d a imm s
  | .fsub h ty rm ftz d a b => Sys2Proof.Machine.execFsub h ty rm ftz d a b s
  | .fsubImm h ty rm ftz d a imm => Sys2Proof.Machine.execFsubImm h ty rm ftz d a imm s
  | .fmul h ty rm ftz d a b => Sys2Proof.Machine.execFmul h ty rm ftz d a b s
  | .fmulImm h ty rm ftz d a imm => Sys2Proof.Machine.execFmulImm h ty rm ftz d a imm s
  | .ffma h ty rm ftz d a b c => Sys2Proof.Machine.execFfma h ty rm ftz d a b c s
  | .fmin h ty ftz d a b => Sys2Proof.Machine.execFmin h ty ftz d a b s
  | .fminImm h ty ftz d a imm => Sys2Proof.Machine.execFminImm h ty ftz d a imm s
  | .fmax h ty ftz d a b => Sys2Proof.Machine.execFmax h ty ftz d a b s
  | .fmaxImm h ty ftz d a imm => Sys2Proof.Machine.execFmaxImm h ty ftz d a imm s
  | .fcmp h rel ty ftz d a b => Sys2Proof.Machine.execFcmp h rel ty ftz d a b s
  | .fcmpImm h rel ty ftz d a imm => Sys2Proof.Machine.execFcmpImm h rel ty ftz d a imm s
  | .frcp h ty rm ftz d a => Sys2Proof.Machine.execFrcp h ty rm ftz d a s
  | .frsq h ty rm ftz d a => Sys2Proof.Machine.execFrsq h ty rm ftz d a s
  | .fsqrt h ty rm ftz d a => Sys2Proof.Machine.execFsqrt h ty rm ftz d a s
  | .fdiv h ty rm ftz d a b => Sys2Proof.Machine.execFdiv h ty rm ftz d a b s
  | .fexp2 h ty rm ftz d a => Sys2Proof.Machine.execFexp2 h ty rm ftz d a s
  | .flog2 h ty rm ftz d a => Sys2Proof.Machine.execFlog2 h ty rm ftz d a s
  | .frnd h ty rm ftz d a => Sys2Proof.Machine.execFrnd h ty rm ftz d a s
  | .fcvt h src ty rm ftz sat d a => Sys2Proof.Machine.execFcvt h src ty rm ftz sat d a s
  | .icvt h toInt ity ty rm d a => Sys2Proof.Machine.execIcvt h toInt ity ty rm d a s
  | .fclass h ty d a => Sys2Proof.Machine.execFclass h ty d a s
  | .shfl h ty mode d a b => Sys2Proof.Machine.execShfl h ty mode d a b s
  | .qxch h ty mode d a => Sys2Proof.Machine.execQxch h ty mode d a s
  | .ballot h ty d a => Sys2Proof.Machine.execBallot h ty d a s
  | .vote h ty any d a => Sys2Proof.Machine.execVote h ty any d a s
  | .gred h op ty d a => Sys2Proof.Machine.execGred h op ty d a s
  | .gscan h op ty exc d a => Sys2Proof.Machine.execGscan h op ty exc d a s
  | .mfirst h d a => Sys2Proof.Machine.execMfirst h d a s
  | .mpopc h d a => Sys2Proof.Machine.execMpopc h d a s
  | .mand h d a b => Sys2Proof.Machine.execMand h d a b s
  | .mor h d a b => Sys2Proof.Machine.execMor h d a b s
  | .mxor h d a b => Sys2Proof.Machine.execMxor h d a b s
  | .mnot h d a => Sys2Proof.Machine.execMnot h d a s
  | .mmov h d a => Sys2Proof.Machine.execMmov h d a s
  | .mtox h d a => Sys2Proof.Machine.execMtox h d a s
  | .mfs h d num => Sys2Proof.Machine.execMfs h d num s
  | .mts h num a => Sys2Proof.Machine.execMts h num a s
  | .xgrow h lo hi => Sys2Proof.Machine.execXgrow h lo hi s
  | .xdrop h lo hi => Sys2Proof.Machine.execXdrop h lo hi s
  | .qcfg h qi depth base => Sys2Proof.Machine.execQcfg h qi depth base s
  | .bra h disp slot test => Sys2Proof.Machine.execBra h disp slot test s
  | .jmp h treg test => Sys2Proof.Machine.execJmp h treg test s
  | .call h tgt link => Sys2Proof.Machine.execCall h tgt link s
  | .ret h link => Sys2Proof.Machine.execRet h link s
  | .wcall h team tgt sel base => Sys2Proof.Machine.execWcall h team tgt sel base s
  | .gcall h team tgt sel base => Sys2Proof.Machine.execGcall h team tgt sel base s
  | .wret h sel base => Sys2Proof.Machine.execWret h sel base s
  | .spawn h disp slot base => Sys2Proof.Machine.execSpawn h disp slot base s
  | .spwait h a => Sys2Proof.Machine.execSpwait h a s
  | .exit h => Sys2Proof.Machine.execExit h s
  | .nop h => Sys2Proof.Machine.execNop h s
  | .mark h code => Sys2Proof.Machine.execMark h code s
  | .bkpt h code => Sys2Proof.Machine.execBkpt h code s
  | .trap h code => Sys2Proof.Machine.execTrap h code s
  | .ld h ty scope ord d a => Sys2Proof.Machine.execLd h ty scope ord d a s
  | .st h ty scope ord d a => Sys2Proof.Machine.execSt h ty scope ord d a s
  | .lfull h scope ord a => Sys2Proof.Machine.execLfull h scope ord a s
  | .lempty h scope ord a => Sys2Proof.Machine.execLempty h scope ord a s
  | .ltest h scope ord d a => Sys2Proof.Machine.execLtest h scope ord d a s
  | .atom h op ty scope ord d a b => Sys2Proof.Machine.execAtom h op ty scope ord d a b s
  | .cas h ty scope ord facq d a b => Sys2Proof.Machine.execCas h ty scope ord facq d a b s
  | .redm h op ty scope ord d a => Sys2Proof.Machine.execRedm h op ty scope ord d a s
  | .fence h scope ord => Sys2Proof.Machine.execFence h scope ord s
  | .fenceFlag h scope ord d a => Sys2Proof.Machine.execFenceFlag h scope ord d a s
  | .barinit h d a => Sys2Proof.Machine.execBarinit h d a s
  | .arrive h scope ord d a b => Sys2Proof.Machine.execArrive h scope ord d a b s
  | .waitb h scope ord d a => Sys2Proof.Machine.execWaitb h scope ord d a s
  | .cmdw h d a b => Sys2Proof.Machine.execCmdw h d a b s
  | .notify h scope d a => Sys2Proof.Machine.execNotify h scope d a s
  | .bclose h d => Sys2Proof.Machine.execBclose h d s
  | .bwait h d => Sys2Proof.Machine.execBwait h d s
  | .pref h a => Sys2Proof.Machine.execPref h a s
  | .prefTlb h a => Sys2Proof.Machine.execPrefTlb h a s
  | .eret h => Sys2Proof.Machine.execEret h s
  | .eretSkip h => Sys2Proof.Machine.execEretSkip h s
  | .eretFwd h => Sys2Proof.Machine.execEretFwd h s
  | .mfsr h r num => Sys2Proof.Machine.execMfsr h r num s
  | .mtsr h r num => Sys2Proof.Machine.execMtsr h r num s
  | .tlbinv h scope r => Sys2Proof.Machine.execTlbinv h scope r s
  | .waitev h r evmask => Sys2Proof.Machine.execWaitev h r evmask s
  | .gang h a => Sys2Proof.Machine.execGang h a s
  | .mma h ty kc za rm d a b ids => Sys2Proof.Machine.execMma h ty kc za rm d a b ids s
  | .bdot h ty rm d a b c e tida tidb => Sys2Proof.Machine.execBdot h ty rm d a b c e tida tidb s
  | .accz h ty a => Sys2Proof.Machine.execAccz h ty a s
  | .accrd h ty d a => Sys2Proof.Machine.execAccrd h ty d a s
  | .accrdSt h ty rm d a c tid => Sys2Proof.Machine.execAccrdSt h ty rm d a c tid s
  | .accwr h ty a b => Sys2Proof.Machine.execAccwr h ty a b s
  | .tidset h a tid => Sys2Proof.Machine.execTidset h a tid s
  | .tidget h w d tid => Sys2Proof.Machine.execTidget h w d tid s
  | .hadq h rm d a c e tid => Sys2Proof.Machine.execHadq h rm d a c e tid s
  | .zmap h d tid => Sys2Proof.Machine.execZmap h d tid s
  | .kclaim h logb d a b c => Sys2Proof.Machine.execKclaim h logb d a b c s
  | .kfree h e => Sys2Proof.Machine.execKfree h e s
  | .kins h ty d a b e => Sys2Proof.Machine.execKins h ty d a b e s
  | .kprb h ty d a b e => Sys2Proof.Machine.execKprb h ty d a b e s
  | .kdel h d a e => Sys2Proof.Machine.execKdel h d a e s
  | .kacc h op ty d a b e => Sys2Proof.Machine.execKacc h op ty d a b e s
  | .kdrn h ty key del rst d b c e => Sys2Proof.Machine.execKdrn h ty key del rst d b c e s
  | .kstat h d e => Sys2Proof.Machine.execKstat h d e s
  | .slen h l => Sys2Proof.Machine.execSlen h l s
  | .sgen h cls d a b => Sys2Proof.Machine.execSgen h cls d a b s
  | .smul h d a b => Sys2Proof.Machine.execSmul h d a b s
  | .smin h d a b => Sys2Proof.Machine.execSmin h d a b s
  | .smax h d a b => Sys2Proof.Machine.execSmax h d a b s
  | .snot h d a => Sys2Proof.Machine.execSnot h d a s
  | .ssel h d a b c => Sys2Proof.Machine.execSsel h d a b c s
  | .scnt h f d a => Sys2Proof.Machine.execScnt h f d a s
  | .sregen h cls d a b => Sys2Proof.Machine.execSregen h cls d a b s
  | .sbit h d a b => Sys2Proof.Machine.execSbit h d a b s
  | .scls h d a => Sys2Proof.Machine.execScls h d a s
  | .coll h tile d a b c e => Sys2Proof.Machine.execColl h tile d a b c e s
  | .dsend h a b => Sys2Proof.Machine.execDsend h a b s
  | .dclose h d a => Sys2Proof.Machine.execDclose h d a s
  | .qpush h wait d a e => Sys2Proof.Machine.execQpush h wait d a e s
  | .qpop h wait stamp d b e => Sys2Proof.Machine.execQpop h wait stamp d b e s
  | .tile h d a b => Sys2Proof.Machine.execTile h d a b s
  | .longResultReturn gid k => Sys2Proof.Machine.execLongResultReturn gid k s
  | .switchUnpark gid => Sys2Proof.Machine.execSwitchUnpark gid s
  | .emptylineLoadRead gid k lane => Sys2Proof.Machine.execEmptylineLoadRead gid k lane s
  | .fetchLineReceive gid => Sys2Proof.Machine.execFetchLineReceive gid s
  | .poolBlockGrant core => Sys2Proof.Machine.execPoolBlockGrant core s
  | .registerGrowCheck core => Sys2Proof.Machine.execRegisterGrowCheck core s
  | .binFireTimeout core bin => Sys2Proof.Machine.execBinFireTimeout core bin s
  | .spawnedGroupStart core bin => Sys2Proof.Machine.execSpawnedGroupStart core bin s
  | .pooledCallWithdraw core bin => Sys2Proof.Machine.execPooledCallWithdraw core bin s
  | .teamPlace part => Sys2Proof.Machine.execTeamPlace part s
  | .timeSliceExpiry team => Sys2Proof.Machine.execTimeSliceExpiry team s
  | .waitPriorityRaise team => Sys2Proof.Machine.execWaitPriorityRaise team s
  | .swapCut team => Sys2Proof.Machine.execSwapCut team s
  | .swapOutComplete team => Sys2Proof.Machine.execSwapOutComplete team s
  | .teamResume team core => Sys2Proof.Machine.execTeamResume team core s
  | .qbaseWrite who q v => Sys2Proof.Machine.execQbaseWrite who q v s
  | .qctlWrite who q v => Sys2Proof.Machine.execQctlWrite who q v s
  | .qtailWrite who q v => Sys2Proof.Machine.execQtailWrite who q v s
  | .qabort who q n => Sys2Proof.Machine.execQabort who q n s
  | .packetRead q => Sys2Proof.Machine.execPacketRead q s
  | .dependencePoll q => Sys2Proof.Machine.execDependencePoll q s
  | .launchComplete launch => Sys2Proof.Machine.execLaunchComplete launch s
  | .copyCommandStart cmd => Sys2Proof.Machine.execCopyCommandStart cmd s
  | .copyUnitLand cmd unit => Sys2Proof.Machine.execCopyUnitLand cmd unit s
  | .copyCommandComplete cmd => Sys2Proof.Machine.execCopyCommandComplete cmd s
  | .ringstall gid => Sys2Proof.Machine.execRingstall gid s
  | .gangForm gid => Sys2Proof.Machine.execGangForm gid s
  | .gangDissolve gang => Sys2Proof.Machine.execGangDissolve gang s
  | .mmaStart gang => Sys2Proof.Machine.execMmaStart gang s
  | .mmaComplete gang => Sys2Proof.Machine.execMmaComplete gang s
  | .subarrayPowerGate core sub => Sys2Proof.Machine.execSubarrayPowerGate core sub s
  | .keyOpComplete core => Sys2Proof.Machine.execKeyOpComplete core s
  | .chordOpComplete core => Sys2Proof.Machine.execChordOpComplete core s
  | .tlbinvComplete gid => Sys2Proof.Machine.execTlbinvComplete gid s
  | .collectiveComplete inst => Sys2Proof.Machine.execCollectiveComplete inst s
  | .dispatchTokenArrive tok => Sys2Proof.Machine.execDispatchTokenArrive tok s
  | .dispatchTokenDeliver tok => Sys2Proof.Machine.execDispatchTokenDeliver tok s
  | .dispstall gid => Sys2Proof.Machine.execDispstall gid s
  | .softError loc corrected => Sys2Proof.Machine.execSoftError loc corrected s
  | .cpartWrite who core v => Sys2Proof.Machine.execCpartWrite who core v s
  | .partitionMoveComplete core => Sys2Proof.Machine.execPartitionMoveComplete core s
  | .doorbell who part => Sys2Proof.Machine.execDoorbell who part s
  | .ipqcfgWrite who q v => Sys2Proof.Machine.execIpqcfgWrite who q v s
  | .xpoolWrite who core v => Sys2Proof.Machine.execXpoolWrite who core v s
  | .trsizelWrite who part v => Sys2Proof.Machine.execTrsizelWrite who part v s
  | .elsizelWrite who die v => Sys2Proof.Machine.execElsizelWrite who die v s
  | .perfctlClr who core => Sys2Proof.Machine.execPerfctlClr who core s
  | .haltreq who part => Sys2Proof.Machine.execHaltreq who part s
  | .release who part => Sys2Proof.Machine.execRelease who part s
  | .dbgselWrite who part v => Sys2Proof.Machine.execDbgselWrite who part v s
  | .crossTriggerArrive core => Sys2Proof.Machine.execCrossTriggerArrive core s
  | .traceSample core quad => Sys2Proof.Machine.execTraceSample core quad s
  | .registerWrite who off width v => Sys2Proof.Machine.execRegisterWrite who off width v s
  | .ownerClaim r expect new => Sys2Proof.Machine.execOwnerClaim r expect new s
  | .ownerOffer r expect new => Sys2Proof.Machine.execOwnerOffer r expect new s
  | .ownerTake r expect new => Sys2Proof.Machine.execOwnerTake r expect new s
  | .ownerRelease r expect new => Sys2Proof.Machine.execOwnerRelease r expect new s
  | .ownerLinkDown port => Sys2Proof.Machine.execOwnerLinkDown port s
  | .ownerLinkUp port => Sys2Proof.Machine.execOwnerLinkUp port s
  | .ownerLinkTimeout => Sys2Proof.Machine.execOwnerLinkTimeout s
  | .attest r => Sys2Proof.Machine.execAttest r s
  | .getcert r => Sys2Proof.Machine.execGetcert r s
  | .update r => Sys2Proof.Machine.execUpdate r s
  | .activate r => Sys2Proof.Machine.execActivate r s
  | .stage r => Sys2Proof.Machine.execStage r s
  | .collpart r => Sys2Proof.Machine.execCollpart r s
  | .resetreq r v => Sys2Proof.Machine.execResetreq r v s
  | .perst => Sys2Proof.Machine.execPerst s
  | .clkstep => Sys2Proof.Machine.execClkstep s
  | .hostOrPeerRequest who addr size op => Sys2Proof.Machine.execHostOrPeerRequest who addr size op s
  | .peerPortLinkDown port => Sys2Proof.Machine.execPeerPortLinkDown port s
  | .peerPortLinkUp port => Sys2Proof.Machine.execPeerPortLinkUp port s
  | .eligibilityHistogramClock core quad => Sys2Proof.Machine.execEligibilityHistogramClock core quad s

end Sys2Proof.Machine
end

