-- ==== Sys2Proof/Machine/Loaded.lean ====
section
/-! DEFINITION. A machine with a group about to issue (log entry 1, DEDUCED): what boot, the owner and a launch have done when
the first instruction of a program runs. -/

namespace Sys2Proof.Machine

/-- Physical addresses of the tables of the loaded machine; its code stands in the page at 0. -/
def loadedRoot : Nat := 0x10000

/-- Page tables that map the first 2 MiB to themselves, readable, writable, executable, for users (R412, R413). -/
def State.loadTables (s : State) : State :=
  (((s.writeNat loadedRoot 8 0x11001).writeNat 0x11000 8 0x12001).writeNat 0x12000 8 0x13001).writeNat 0x13000 8 0x1F

/-- The values of the loaded launch: one team of one group. -/
def loadedVals : Vals :=
  { Vals.none with entry := 0x4000, tgrp := 1, gx := 1, gy := 1, gz := 1 }

/-- The loaded launch. -/
def loadedLaunch (s : State) : Launch :=
  { id := s.nextId, queue := 0, num := 0, pkt := 0, addr := 0, part := 0, prio := 0, vals := loadedVals, tdisp := s.time,
    next := 1, raised := false, nofit := false, status := 0, ended := false, coll := none, collStarted := false,
    collDone := false }

/-- The loaded team, on core 0. -/
def loadedTeam (s : State) : Team :=
  { Team.blank (s.nextId + 1) s.nextId 0 s.time with core := some 0 }

/-- Is there a group `cur` that may issue from a line that can be read? -/
def State.canIssue (s : State) : Bool :=
  match s.group? s.cur with
  | some g =>
    s.mayIssue g && slotOk g.pc &&
      (match s.locOf (s.accessor g) .fetch (lineAddr g.pc) with | .ok _ => true | .error _ => false)
  | none => false

/-- The machine with a group about to issue next. -/
def State.loaded (s : State) : State :=
  if s.canIssue then { s with agenda := [] }
  else
    let t := loadedTeam s
    let l := loadedLaunch s
    let s1 := (s.loadTables.modPart 0 (fun p => { p with proot := BitVec.ofNat 64 loadedRoot })).modCore 0
      (fun c => { c with part := 0 })
    { s1 with
      launches := s1.launches ++ [l]
      teams := s1.teams ++ [t]
      groups := s1.groups ++ [Group.launched (s.nextId + 2) t l 0 0 0 s.time]
      cur := s.nextId + 2
      nextId := s.nextId + 3
      agenda := [] }

/-- A line with the bits w in slot k, no targets, no pairs, and `MARKER` set, with its parity (R89 to R92). -/
def lineWith (k w : Nat) : BitVec 512 :=
  let b := (BitVec.ofNat 512 (w % 2 ^ 96) <<< (96 * k)) ||| (1#512 <<< 497)
  b ||| ((lineParity b).setWidth 512 <<< 480)

/-- The line with the bits w in the slot of the pc of `cur`. -/
def State.storeAtPc (s : State) (w : Nat) : State :=
  match s.group? s.cur with
  | none => s
  | some g =>
    match s.locOf (s.accessor g) .fetch (lineAddr g.pc) with
    | .error _ => s
    | .ok loc =>
      (s.writeNat loc 64 (lineWith (slotOf g.pc) w).toNat).setGroup { g with line := none }

end Sys2Proof.Machine
end

