-- ==== Sys2Proof/Machine/Step.lean ====
section
/-! DEFINITION. One step of the module: the agent that `agenda` names moves, or the group `cur` issues (log entry 5, DESIGN
CHOICE). -/

namespace Sys2Proof.Machine

/-- A group issues: nothing, a decode fault or a stop, or its instruction; or the firmware acts for it. -/
def issueStep (s : State) : Host.Outcome State Fault Refusal :=
  match s.firmwareActs with
  | some s' => .next s'
  | none =>
    match s.turn with
    | .idle => .next s
    | .done s' => .next s'
    | .run i s' => exec i s'

/-- One step (log entry 7, DESIGN CHOICE; log entry 54, DEDUCED). -/
def step (s : State) : Host.Outcome State Fault Refusal :=
  match s.agenda with
  | [] => issueStep s
  | t :: rest =>
    let s1 := { s with agenda := rest }.pass t.dt
    match t.act with
    | .issue gid => issueStep { s1 with cur := gid }
    | .event i => if i.isEvent then exec i s1 else .next s1
    | .powerCap w => .next (s1.setCap w)

/-- The state with an instruction of nbits bits w stored where the next step fetches: at the pc of the group `cur`,
which is first loaded where there is none (log entry 1, DEDUCED). -/
def State.withFetchWord (s : State) (nbits w : Nat) : State :=
  (s.loaded).storeAtPc (w % 2 ^ nbits)

end Sys2Proof.Machine
end

