-- ==== Sys2Proof/Safety.lean ====
section
/-! DEFINITION. What counts as a safe run, in the terms the claims use. -/

namespace Sys2Proof

/-- One step answers a next state. -/
def Machine.Steps (s t : Machine.State) : Prop :=
  Machine.step s = .next t

end Sys2Proof
end

