-- ==== Sys2Proof/Certificates/Slice0/Obligations.lean ====
section
/-! DEFINITION. The statements. `Claims` holds the tables that they read: what the rules say of each instruction of a
family, written from the rules and not from the meanings. -/

open Sys2Proof Sys2Proof.Machine


/-! ## Decoding, fetching, stepping -/

/-- Tier 3. Decoding the word of an instruction gives it back, for every well-formed instruction of a group (R160 to
R171). -/
def Obligations.DecodeEncode : Prop :=
  ∀ i : Instr, i.wellFormed = true → ∀ w, encode i = some w → decode w = .ok i

/-- Words read bit by bit from the tables of R160 to R171 decode to the instructions that the tables give them:
`IADD.I32 V1, V2, V3`; `LD.I32 V1, [X2 - 4]` where `M1` is 0,
with `SW`; `TRAP 7` with `SW` and `ST`; `BRA` on `Z` of `C2`;
`ERET.SKIP`; `MMA.E4M3` with `ZA` and `RZ`. -/
def Obligations.DecodesWords : Prop :=
  decode (0x01#8 ++ 0#6 ++ 2#4 ++ 0#3 ++ 0#5 ++ 1#8 ++ 2#8 ++ 3#8 ++ 0#8 ++ 0#3 ++ 0#1 ++ 0#4 ++ 0#30 : BitVec 96)
    = .ok (.iadd ⟨0, false, false, false, false, false⟩ false .i32 (.v 1) (.v 2) (.v 3)) ∧
  decode (0x90#8 ++ 0#6 ++ 2#4 ++ 1#3 ++ 0b11000#5 ++ 1#8 ++ 0x42#8 ++ 0xFFFFFC#24 ++ 0#3 ++ 0#3 ++ 0#3 ++ 0#8 ++
      0#13 : BitVec 96)
    = .ok (.ld ⟨1, true, true, false, false, false⟩ .i32 .group .plain (.v 1) ⟨.x 2, 0xFFFFFC⟩) ∧
  decode (0x8D#8 ++ 0#6 ++ 0#4 ++ 0#3 ++ 0b01001#5 ++ 7#32 ++ 0#38 : BitVec 96)
    = .ok (.trap ⟨0, false, true, false, false, true⟩ 7) ∧
  decode (0x80#8 ++ 0#6 ++ 0#4 ++ 0#3 ++ 0#5 ++ 0#20 ++ 1#3 ++ 1#2 ++ 2#3 ++ 0#2 ++ 0#1 ++ 0#6 ++ 0#8 ++ 0#25 :
      BitVec 96)
    = .ok (.bra ⟨0, false, false, false, false, false⟩ 0 1 (.flag 2 .z false)) ∧
  decode (0xB0#8 ++ 1#6 ++ 0#4 ++ 0#3 ++ 0#5 ++ 0#8 ++ 0#16 ++ 0#3 ++ 0#43 : BitVec 96)
    = .ok (.eretSkip ⟨0, false, false, false, false, false⟩) ∧
  decode (0xC1#8 ++ 0#6 ++ 4#4 ++ 0#3 ++ 0#5 ++ 0x41#8 ++ 0x42#8 ++ 4#8 ++ 0#8 ++ 0#8 ++ 0#6 ++ 0#6 ++ 0b010100#6 ++
      1#3 ++ 0#9 : BitVec 96)
    = .ok (.mma ⟨0, false, false, false, false, false⟩ .e4m3 4 true .rz (.x 1) (.x 2) (.v 4) none)

namespace Sys2Proof.Claims

/-- The slot at the group's pc in a sound line of bits b, joined to no other, is i's word, and no stop is due in s1, in which
the group is g1 (R89 to R92, R159, R175, R428). -/
def issues (s1 : State) (g1 : Group) (b : BitVec 512) (i : Instr) : Prop :=
  bitsN (lineWord b) 23 18 = 0 ∧ (lineWord b).getLsbD 16 = false ∧ bitsN (lineWord b) 26 24 = 0 ∧
    decode (slotBits b (slotOf g1.pc)) = .ok i ∧ (∀ h c, i = .mark h c → (lineWord b).getLsbD 17 = true) ∧
    ((slotBits b (slotOf g1.pc)).getLsbD 70 = true → ∀ o, s1.ordinal g1 g1.pc = some o → s1.stopAt g1 o = none)

/-- A line at loc that was read whole: no fault, its parity as it should be, no poison (R92, R157). -/
def sound (va : Word64) (loc : Nat) (b : BitVec 512) : FetchLine :=
  { va := va, pa := loc, bits := b, parBad := false, poison := none, fault := none }

end Sys2Proof.Claims

/-- A step runs the decoded instruction. A group that may issue, waits for nothing and holds no line reads the line of its
pc from memory; where the line's parity agrees, no unit of it is poisoned, its reserved bits are 0 and it joins no pair, the
slot at the pc decodes to i, and no stop is due, the step is i's meaning in the state in which the group holds that line and
the core its translation (R89 to R92, R157 to R159, R175, R415). A group that holds such a line runs the slot in the state
as it is. A step whose turn is an event's is the event's meaning once its time has passed (log entry 5, DESIGN CHOICE). -/
def Obligations.StepRunsDecoded : Prop :=
  (∀ (s s1 : State) (g g1 : Group) (loc : Nat) (b : BitVec 512) (i : Instr),
    s.agenda = [] → s.group? s.cur = some g → s.mayIssue g = true → g.wait = none → g.line = none →
    s.locOf (s.accessor g) .fetch (lineAddr g.pc) = .ok loc → b = BitVec.ofNat 512 (s.readNat loc 64) →
    lineParity b = b.extractLsb' 480 16 → s.poisonIn loc 64 = none →
    g1 = { g with line := some (Claims.sound (lineAddr g.pc) loc b) } →
    s1 = (s.lookUpAll g [lineAddr g.pc]).setGroup g1 → Claims.issues s1 g1 b i →
    step s = exec i s1) ∧
  (∀ (s : State) (g : Group) (loc : Nat) (b : BitVec 512) (i : Instr),
    s.agenda = [] → s.group? s.cur = some g → s.mayIssue g = true → g.wait = none →
    g.line = some (Claims.sound (lineAddr g.pc) loc b) → Claims.issues s g b i →
    step s = exec i s) ∧
  (∀ (s : State) (dt : Nat) (i : Instr) (rest : List Turn), s.agenda = ⟨dt, .event i⟩ :: rest → i.isEvent = true →
    step s = exec i ({ s with agenda := rest }.pass dt))

/-- A slot of a good line that does not decode takes `ILLOP`, a line with a parity mismatch `FETCHPAR`, a fetch that the
tables refuse their cause: the group takes the exception and nothing of the slot acts (R92, R157, R175, R402). That a refused
fetch names the address of its line is the model's reading (log entry 27, DEDUCED). -/
def Obligations.BadSlotsTrap : Prop :=
  ∀ (s : State) (g : Group) (l : FetchLine),
    s.agenda = [] → s.group? s.cur = some g → s.mayIssue g = true → g.line = some l → l.va = lineAddr g.pc →
    (∀ c, l.fault = some c →
      step s = .next (s.take { g with wait := none, line := none } (trapAt c l.va))) ∧
    (l.fault = none → l.parBad = true →
      step s = .next (s.take { g with wait := none, line := none } (trapOf .fetchpar))) ∧
    (l.fault = none → l.parBad = false → l.poison = none → slotInstr l.bits (slotOf g.pc) = none →
      step s = .next (s.take { g with wait := none, line := none } (trapOf .illop)))

/-! ## The issue of an instruction, results -/

/-- What an instruction that completes leaves of its group and of the machine, whatever it has accessed (R156, R191 to R193,
R424, R425): with no result outstanding, or without `SW`, the group goes on at the next slot (or where the instruction sent
it), not waiting, in the same mode; the short results are delivered; each older bypass entry is one instruction older, however
many results there were (log entry 30, DEDUCED); the long results are outstanding; the counter `ISSUED` of the core is one
higher where it is not frozen; every other group and all memory are as before. -/
def Obligations.FinishMovesOn : Prop :=
  ∀ (s t : State) (g : Group) (h : Hdr) (short : List RegWrite) (long : List LongOut) (next : Option Word64)
      (touches : List Touch),
    s.group? g.id = some g → (h.sw = true → g.pend = [] ∧ long = []) → t = s.finish g h short long next none touches →
    ∃ g', t.group? g.id = some g' ∧
      g'.pc = next.getD (nextSlot g.pc) ∧ g'.mode = g.mode ∧ g'.wait = none ∧ g'.prog = 0 ∧
      g'.pend.map (·.writes) = g.pend.map (·.writes) ++ long.map (·.writes) ∧
      (∀ w ∈ short, ⟨w, 0⟩ ∈ g'.bypass) ∧
      (∀ e ∈ g.bypass, e.age ≤ 1 → ⟨e.w, e.age + 1⟩ ∈ g'.bypass) ∧
      g'.v = (g.age.deliverAll h.tr short).v ∧ g'.x = (g.age.deliverAll h.tr short).x ∧
      g'.m = (g.age.deliverAll h.tr short).m ∧ g'.c = (g.age.deliverAll h.tr short).c ∧
      g'.exec = g.exec ∧ g'.helper = g.helper ∧ g'.q = g.q ∧ g'.t = (g.age.deliverAll h.tr short).t ∧ g'.fstat = g.fstat ∧
      g'.srctr = g.srctr ∧
      g'.hset = g.hset ∧ g'.sset = g.sset ∧
      (∀ c, g.core = some c → c < 272 → (s.core c).frz = false →
        vget (t.core c).events 0 0 = vget (s.core c).events 0 0 + 1) ∧
      (∀ k, k ≠ g.id → t.group? k = s.group? k) ∧ t.mem = s.mem ∧ t.fe = s.fe ∧ t.poison = s.poison

/-- A result is what the next instruction reads, in the lanes that were written: of w bits in `V` registers lane by lane,
in `X` registers, in a mask bit by bit, in a condition register (R178 to R181, R193). With `TR` the register files stay
as they were; without it the value stands there too (read without any bypass entry).

`M0` is the execution mask: a result for `M0` changes nothing of what any mask register reads as (R181). -/
def Obligations.ResultsReadBack : Prop :=
  (∀ (g : Group) (tr : Bool) (d : Opd) (w : Nat) (lanes : Mask) (f : Nat → Code) (i : Nat),
     (w = 8 ∨ w = 16 ∨ w = 32 ∨ w = 64 ∨ w = 128) → lanes.getLsbD i = true →
     (∀ n, d = .v n → (g.age.deliverAll tr (g.writesTo d false w lanes f)).srcLane d w i = BitVec.ofNat 128 ((f i).toNat % 2 ^ w)) ∧
     (∀ n, d = .x n → (g.age.deliverAll tr (g.writesTo d false w lanes f)).srcLane d w i
         = BitVec.ofNat 128 ((f ((lowest lanes).getD 0)).toNat % 2 ^ w)) ∧
     (∀ n, d = .v n ∨ d = .x n → tr = true →
       (g.age.deliverAll tr (g.writesTo d false w lanes f)).v = g.v ∧
       (g.age.deliverAll tr (g.writesTo d false w lanes f)).x = g.x) ∧
     (∀ n, d = .v n → tr = false →
       ({ g.age.deliverAll tr (g.writesTo d false w lanes f) with bypass := [] }).srcLane d w i
         = BitVec.ofNat 128 ((f i).toNat % 2 ^ w)) ∧
     (∀ n, d = .m n → n ≠ 0 → tr = false →
       (g.age.deliverAll tr (g.writesTo d false w lanes f)).srcLane d w i = BitVec.ofNat 128 ((f i).toNat % 2)) ∧
     (∀ n, d = .c n → tr = false →
       (g.age.deliverAll tr (g.writesTo d false w lanes f)).srcLane d w i
         = BitVec.ofNat 128 ((f ((lowest lanes).getD 0)).toNat % 16))) ∧
  (∀ (g : Group) (tr : Bool) (lanes val : Mask) (n : BitVec 3),
     (g.deliver tr (.m 0 lanes val)).mVal n = g.mVal n ∧ (g.deliver tr (.m 0 lanes val)).mVal 0 = g.exec)


/-- With `SW` the outstanding results reach the registers before the next instruction issues: while one has not
returned the group waits, and the delivery of the results that have returned, none of them poisoned, empties the list and
writes them in issue order (R192). -/
def Obligations.SwitchDelivers : Prop :=
  ∀ (s : State) (g : Group) (h : Hdr) (short : List RegWrite) (long : List LongOut),
    s.group? g.id = some g → h.sw = true →
    ((∃ l ∈ long, l.returned = false) →
      ∃ g', (s.finish g h short long none none).group? g.id = some g' ∧ g'.wait = some .switch ∧
        g'.pc = nextSlot g.pc) ∧
    ((∀ l ∈ g.pend, l.poison = []) →
      ∃ g', (s.deliver g).group? g.id = some g' ∧ g'.pend = [] ∧ g'.wait = none ∧ g'.pc = g.pc ∧
        g' = { g.pend.foldl (fun k l => k.deliverAll l.tr l.writes) g with pend := [], wait := none })

/-! ## Value instructions -/

namespace Sys2Proof.Claims

/-- A code read by a type: signed for I types, else unsigned (R201). -/
def val (ty : ITy) (c : Code) : Int :=
  if ty.signed then (c.setWidth ty.width).toInt else ((c.setWidth ty.width).toNat : Int)

/-- An exact result as a code of w bits, wrapped (R44, R201). -/
def code (w : Nat) (x : Int) : Code :=
  (BitVec.ofInt w x).setWidth 128

/-- The range of a type (R44). -/
def lo (ty : ITy) : Int := if ty.signed then -2 ^ (ty.width - 1) else 0
def hi (ty : ITy) : Int := if ty.signed then 2 ^ (ty.width - 1) - 1 else 2 ^ ty.width - 1

/-- An exact result, clamped to the type's range under `.SAT`, else wrapped (R44, R201). -/
def res (sat : Bool) (ty : ITy) (x : Int) : Code :=
  if sat then (if x < lo ty then code ty.width (lo ty) else if hi ty < x then code ty.width (hi ty) else code ty.width x)
  else code ty.width x

/-- An immediate as a code (R170): extended by the type, its low bits kept. -/
def imm (ty : ITy) (i : BitVec 38) : Code :=
  if ty.signed then code ty.width i.toInt else (i.setWidth ty.width).setWidth 128

/-- A bit function of w bits. -/
def bits (w : Nat) (b : BitVec w) : Code :=
  b.setWidth 128

/-- The truth of `ICMP.<rel>`, or the flags `O`, `C`, `N`, `Z` (R205). -/
def rel (r : ICmp) (x y : Int) : Code :=
  match r with
  | .flags => (BitVec.ofBool false ++ BitVec.ofBool (x ≤ y) ++ BitVec.ofBool (x < y) ++ BitVec.ofBool (x = y)).setWidth 128
  | .eq => if x = y then 1 else 0
  | .ne => if x = y then 0 else 1
  | .lt => if x < y then 1 else 0
  | .le => if x ≤ y then 1 else 0
  | .gt => if y < x then 1 else 0
  | .ge => if y ≤ x then 1 else 0

/-- What an integer or bit instruction is by R201 to R208: header, destination, the width it is written with, sources with
their widths, and the result of a lane from its sources. -/
structure IntForm where
  h : Hdr
  d : Opd
  dw : Nat
  srcs : List (Opd × Nat)
  f : List Code → Code

/-- Two sources and an exact result. -/
def form2 (h : Hdr) (ty : ITy) (d a b : Opd) (f : Int → Int → Code) : IntForm :=
  { h := h, d := d, dw := ty.width, srcs := [(a, ty.width), (b, ty.width)], f := fun l => f (val ty (arg l 0)) (val ty (arg l 1)) }

/-- A source and an immediate. -/
def formI (h : Hdr) (ty : ITy) (d a : Opd) (i : BitVec 38) (f : Int → Int → Code) : IntForm :=
  { h := h, d := d, dw := ty.width, srcs := [(a, ty.width)], f := fun l => f (val ty (arg l 0)) (val ty (imm ty i)) }

/-- Bit forms: of the low w bits of the sources. -/
def bit2 (h : Hdr) (ty : ITy) (d a b : Opd) (f : BitVec ty.width → BitVec ty.width → BitVec ty.width) : IntForm :=
  { h := h, d := d, dw := ty.width, srcs := [(a, ty.width), (b, ty.width)],
    f := fun l => bits ty.width (f ((arg l 0).setWidth _) ((arg l 1).setWidth _)) }

def bitI (h : Hdr) (ty : ITy) (d a : Opd) (i : BitVec 38) (f : BitVec ty.width → BitVec ty.width → BitVec ty.width) :
    IntForm :=
  { h := h, d := d, dw := ty.width, srcs := [(a, ty.width)],
    f := fun l => bits ty.width (f ((arg l 0).setWidth _) ((imm ty i).setWidth _)) }

/-- Shifts: of the low w bits of a by bits [7:0] of b (R202). -/
def shift2 (h : Hdr) (ty : ITy) (d a b : Opd) (f : BitVec ty.width → Nat → BitVec ty.width) : IntForm :=
  { h := h, d := d, dw := ty.width, srcs := [(a, ty.width), (b, ty.width)],
    f := fun l => bits ty.width (f ((arg l 0).setWidth _) ((arg l 1).setWidth 8).toNat) }

def shiftI (h : Hdr) (ty : ITy) (d a : Opd) (i : BitVec 38) (f : BitVec ty.width → Nat → BitVec ty.width) : IntForm :=
  { h := h, d := d, dw := ty.width, srcs := [(a, ty.width)],
    f := fun l => bits ty.width (f ((arg l 0).setWidth _) (i.setWidth 8).toNat) }

/-- The field of R203 that starts at pos with len bits, len already cut to the width. -/
def field (w : Nat) (a : BitVec w) (pos len : Nat) : BitVec w :=
  BitVec.ofNat w (a.toNat / 2 ^ pos % 2 ^ len)

/-- `len` of R203 for a control word. -/
def fieldLen (w : Nat) (ctl : BitVec 16) : Nat :=
  if w ≤ (ctl.setWidth 8).toNat then 0 else min (ctl.extractLsb' 8 8).toNat (w - (ctl.setWidth 8).toNat)

/-- `BFX` (R203). -/
def bfx (ty : ITy) (a : BitVec ty.width) (ctl : BitVec 16) : Code :=
  let pos := (ctl.setWidth 8).toNat
  let len := fieldLen ty.width ctl
  let f := field ty.width a pos len
  if len ≠ 0 ∧ ty.signed = true ∧ f.getLsbD (len - 1) = true then code ty.width ((f.toNat : Int) - 2 ^ len)
  else f.setWidth 128

/-- `BFI` (R203). -/
def bfi (w : Nat) (a b : BitVec w) (ctl : BitVec 16) : Code :=
  let pos := (ctl.setWidth 8).toNat
  let len := fieldLen w ctl
  (BitVec.ofNat 128 (((List.range w).map (fun i =>
    if (if pos ≤ i ∧ i < pos + len then b.getLsbD (i - pos) else a.getLsbD i) then 2 ^ i else 0)).sum))

/-- The integer and bit instructions but `IADDC` and `LANEGET` (R201 to R208). -/
def intForm : Instr → Option IntForm
  | .iadd h sat ty d a b => some (form2 h ty d a b (fun x y => res sat ty (x + y)))
  | .iaddImm h sat ty d a i => some (formI h ty d a i (fun x y => res sat ty (x + y)))
  | .isub h sat ty d a b => some (form2 h ty d a b (fun x y => res sat ty (x - y)))
  | .isubImm h sat ty d a i => some (formI h ty d a i (fun x y => res sat ty (x - y)))
  | .imul h sat ty d a b => some (form2 h ty d a b (fun x y => res sat ty (x * y)))
  | .imulImm h sat ty d a i => some (formI h ty d a i (fun x y => res sat ty (x * y)))
  | .imulh h ty d a b => some (form2 h ty d a b (fun x y => code ty.width ((x * y) / 2 ^ ty.width)))
  | .imad h sat ty d a b c =>
    some { h := h, d := d, dw := ty.width, srcs := [(a, ty.width), (b, ty.width), (c, ty.width)],
           f := fun l => res sat ty (val ty (arg l 0) * val ty (arg l 1) + val ty (arg l 2)) }
  | .imin h ty d a b => some (form2 h ty d a b (fun x y => code ty.width (if x ≤ y then x else y)))
  | .iminImm h ty d a i => some (formI h ty d a i (fun x y => code ty.width (if x ≤ y then x else y)))
  | .imax h ty d a b => some (form2 h ty d a b (fun x y => code ty.width (if x ≤ y then y else x)))
  | .imaxImm h ty d a i => some (formI h ty d a i (fun x y => code ty.width (if x ≤ y then y else x)))
  | .iabs h sat ty d a =>
    some { h := h, d := d, dw := ty.width, srcs := [(a, ty.width)], f := fun l => res sat ty |val ty (arg l 0)| }
  | .ineg h sat ty d a =>
    some { h := h, d := d, dw := ty.width, srcs := [(a, ty.width)], f := fun l => res sat ty (-val ty (arg l 0)) }
  | .icmp h r ty d a b =>
    some { form2 h ty d a b (fun x y => rel r x y) with dw := 32 }
  | .icmpImm h r ty d a i =>
    some { formI h ty d a i (fun x y => rel r x y) with dw := 32 }
  | .sel h ty d a b c =>
    some { h := h, d := d, dw := ty.width, srcs := [(a, ty.width), (b, ty.width), (c, 1)],
           f := fun l => if (arg l 2).getLsbD 0 = true then arg l 0 else arg l 1 }
  | .lea h ty sh d a b =>
    some { h := h, d := d, dw := 64, srcs := [(a, 64), (b, ty.width)],
           f := fun l => bits 64 ((arg l 0).setWidth 64 + (BitVec.ofInt 64 (val ty (arg l 1)) <<< sh.toNat)) }
  | .leaImm h ty d a i =>
    some { h := h, d := d, dw := 64, srcs := [(a, 64)],
           f := fun l => bits 64 ((arg l 0).setWidth 64 + BitVec.ofInt 64 (val ty (imm ty i))) }
  | .clz h ty d a =>
    some { h := h, d := d, dw := 32, srcs := [(a, ty.width)], f := fun l => bits ty.width ((arg l 0).setWidth ty.width).clz }
  | .popc h ty d a =>
    some { h := h, d := d, dw := 32, srcs := [(a, ty.width)],
           f := fun l => BitVec.ofNat 128 ((List.range ty.width).countP (fun i => ((arg l 0)).getLsbD i)) }
  | .and h ty d a b => some (bit2 h ty d a b (fun x y => x &&& y))
  | .andImm h ty d a i => some (bitI h ty d a i (fun x y => x &&& y))
  | .or h ty d a b => some (bit2 h ty d a b (fun x y => x ||| y))
  | .orImm h ty d a i => some (bitI h ty d a i (fun x y => x ||| y))
  | .xor h ty d a b => some (bit2 h ty d a b (fun x y => x ^^^ y))
  | .xorImm h ty d a i => some (bitI h ty d a i (fun x y => x ^^^ y))
  | .andn h ty d a b => some (bit2 h ty d a b (fun x y => x &&& ~~~y))
  | .andnImm h ty d a i => some (bitI h ty d a i (fun x y => x &&& ~~~y))
  | .not h ty d a =>
    some { h := h, d := d, dw := ty.width, srcs := [(a, ty.width)], f := fun l => bits ty.width (~~~(arg l 0).setWidth ty.width) }
  | .shl h ty d a b => some (shift2 h ty d a b (fun x n => x <<< n))
  | .shlImm h ty d a i => some (shiftI h ty d a i (fun x n => x <<< n))
  | .shr h ty d a b => some (shift2 h ty d a b (fun x n => x >>> n))
  | .shrImm h ty d a i => some (shiftI h ty d a i (fun x n => x >>> n))
  | .sar h ty d a b => some (shift2 h ty d a b (fun x n => x.sshiftRight n))
  | .sarImm h ty d a i => some (shiftI h ty d a i (fun x n => x.sshiftRight n))
  | .rotl h ty d a b => some (shift2 h ty d a b (fun x n => x.rotateLeft n))
  | .rotlImm h ty d a i => some (shiftI h ty d a i (fun x n => x.rotateLeft n))
  | .brev h ty d a =>
    some { h := h, d := d, dw := ty.width, srcs := [(a, ty.width)], f := fun l => bits ty.width ((arg l 0).setWidth ty.width).reverse }
  | .bfx h ty d a b =>
    some { h := h, d := d, dw := ty.width, srcs := [(a, ty.width), (b, ty.width)],
           f := fun l => bfx ty ((arg l 0).setWidth _) ((arg l 1).setWidth 16) }
  | .bfxImm h ty d a i =>
    some { h := h, d := d, dw := ty.width, srcs := [(a, ty.width)], f := fun l => bfx ty ((arg l 0).setWidth _) (i.setWidth 16) }
  | .bfi h ty d a b c =>
    some { h := h, d := d, dw := ty.width, srcs := [(a, ty.width), (b, ty.width), (c, ty.width)],
           f := fun l => bfi ty.width ((arg l 0).setWidth _) ((arg l 1).setWidth _) ((arg l 2).setWidth 16) }
  | .mov h ty d a => some { h := h, d := d, dw := ty.width, srcs := [(a, ty.width)], f := fun l => arg l 0 }
  | .movi h ty d i => some { h := h, d := d, dw := ty.width, srcs := [], f := fun _ => imm ty i }
  | .bcast h ty d a => some { h := h, d := d, dw := ty.width, srcs := [(a, ty.width)], f := fun l => arg l 0 }
  | _ => none

/-- A form runs once with `UNI`, or when no operand is a vector register or a queue (R133). -/
def once (h : Hdr) (os : List Opd) : Bool :=
  h.uni || os.all (fun o => !(o.isV || o.isQ))

/-- The lane that the sources of lane i are read in: lane i, or the lowest lane of `active` (R132, R133). -/
def readLane (o : Bool) (act : Mask) (i : Nat) : Nat :=
  if o then (lowest act).getD 0 else i

/-- The destination's queue is also popped by the form (R183). -/
def popsToo (d : Opd) (srcs : List (Opd × Nat)) : Bool :=
  match d with
  | .q n => srcs.any (fun p => p.1 = .q n)
  | _ => false

/-- The register writes of a form whose lanes give f (R132, R133): none where it runs once over an empty `active`. -/
def writes (g : Group) (h : Hdr) (d : Opd) (dw : Nat) (srcs : List (Opd × Nat)) (f : Nat → Code) : List RegWrite :=
  if once h (d :: srcs.map (·.1)) && g.active h = 0 then [] else g.writesTo d (popsToo d srcs) dw (g.active h) f

end Sys2Proof.Claims

/-- The integer and bit instructions (R44, R132, R133, R170, R201 to R203, R205 to R208): where the operands are held and
the queues they name can move, the instruction completes: each active lane of the destination gets the result that the
rule gives for the sources of that lane, no flag is set, and the group goes on with the queues moved. -/
def Obligations.IntegerResults : Prop :=
  ∀ (s : State) (g g1 : Group) (i : Instr) (k : Claims.IntForm),
    Claims.intForm i = some k → i.wellFormed = true → s.group? s.cur = some g →
    g.checkHeld ((k.d, k.dw) :: k.srcs) = .ok () → g.moveQueues k.d k.srcs = .ok g1 →
    exec i s = .next (s.finish g1 k.h
      (Claims.writes g k.h k.d k.dw k.srcs (fun lane => k.f (k.srcs.map (fun p =>
        g.srcLane p.1 p.2 (Claims.readLane (Claims.once k.h (k.d :: k.srcs.map (·.1))) (g.active k.h) lane)))))
      [] none none)


/-- `IADDC` (R204): the sums of a, b and the carry bits, modulo 2^w, and the carries out, written to the lanes of `active`
(to its lowest lane where the form runs once); `M0` is read as the execution mask and its write is discarded (R181).
`LANEGET` (R197, R208): the lane that bits [5:0] of `SB` name, whether it is active or not, of a register or a queue, which
moves; with `UNI` an empty `active` writes nothing (log entry 12, DEDUCED). -/
def Obligations.CarryAndLaneGet : Prop :=
  (∀ (s : State) (g g1 : Group) (h : Hdr) (ty : ITy) (d a b : Opd) (n : BitVec 3) (once : Bool) (cl : Mask)
      (sum : Nat → Nat),
    (Instr.iaddc h ty d a b (.m n)).wellFormed = true → s.group? s.cur = some g →
    g.checkHeld [(d, ty.width), (a, ty.width), (b, ty.width), (.m n, 1)] = .ok () →
    g.moveQueues d [(a, ty.width), (b, ty.width), (.m n, 1)] = .ok g1 →
    once = Claims.once h [d, a, b, .m n] →
    cl = (if once then (match lowest (g.active h) with | some i => single i | none => 0) else g.active h) →
    (∀ lane, sum lane =
      (g.srcLane a ty.width (Claims.readLane once (g.active h) lane)).toNat % 2 ^ ty.width +
      (g.srcLane b ty.width (Claims.readLane once (g.active h) lane)).toNat % 2 ^ ty.width +
      ((g.mVal n).getLsbD (Claims.readLane once (g.active h) lane)).toNat) →
    exec (.iaddc h ty d a b (.m n)) s = .next (s.finish g1 h
      (Claims.writes g h d ty.width [(a, ty.width), (b, ty.width), (.m n, 1)]
          (fun lane => BitVec.ofNat 128 (sum lane % 2 ^ ty.width)) ++
        (if cl = 0 then [] else [.m n cl (maskOf (fun lane => cl.getLsbD lane && decide (2 ^ ty.width ≤ sum lane)))]))
      [] none none)) ∧
  (∀ (s : State) (g g1 : Group) (h : Hdr) (ty : ITy) (n k : BitVec 6) (a : Opd),
    (Instr.laneget h ty (.x n) a (.x k)).wellFormed = true → s.group? s.cur = some g →
    g.checkHeld [(a, ty.width)] = .ok () → g.moveQueues (.x n) [(a, ty.width)] = .ok g1 →
    exec (.laneget h ty (.x n) a (.x k)) s = .next (s.finish g1 h
      (if h.uni = true ∧ g.active h = 0 then []
        else [.x n ((g.srcLane a ty.width ((g.xVal k).toNat % 64)).setWidth 64)]) [] none none))

/-! ## Float instructions -/

namespace Sys2Proof.Claims

/-- What a float instruction is by R209 to R213: `draw` is the lane's draw (R52), the sources are read by their types. -/
structure FltForm where
  h : Hdr
  d : Opd
  dw : Nat
  srcs : List (Opd × Nat)
  long : Bool
  rm : Rm
  f : Nat → List Code → Code × FFlags

/-- A signalling NaN among the operands sets `INVALID` (R48). -/
def quiet (vs : List FVal) (r : Code × FFlags) : Code × FFlags :=
  (r.1, if ∃ v ∈ vs, v = .nan true then r.2 ||| 1 else r.2)

/-- Two sources of the type. -/
def flt2 (h : Hdr) (ty : FTy) (rm : Rm) (ftz long : Bool) (d a b : Opd) (f : FCtx → FVal → FVal → Code × FFlags) :
    FltForm :=
  { h := h, d := d, dw := ty.width, srcs := [(a, ty.width), (b, ty.width)], long := long, rm := rm,
    f := fun draw l => quiet [fltOf ty ftz (arg l 0), fltOf ty ftz (arg l 1)]
      (f ⟨ty, rm, ftz, draw⟩ (fltOf ty ftz (arg l 0)) (fltOf ty ftz (arg l 1))) }

/-- A source and an immediate: [31:0] of the value, or its high 38 bits for `.F64` (R170). -/
def fltI (h : Hdr) (ty : FTy) (rm : Rm) (ftz : Bool) (d a : Opd) (imm : BitVec 38)
    (f : FCtx → FVal → FVal → Code × FFlags) : FltForm :=
  let b : Code := if ty = .f64 then (imm ++ 0#26).setWidth 128 else (imm.setWidth ty.width).setWidth 128
  { h := h, d := d, dw := ty.width, srcs := [(a, ty.width)], long := false, rm := rm,
    f := fun draw l => quiet [fltOf ty ftz (arg l 0), fltOf ty ftz b]
      (f ⟨ty, rm, ftz, draw⟩ (fltOf ty ftz (arg l 0)) (fltOf ty ftz b)) }

/-- One source. -/
def flt1 (h : Hdr) (ty : FTy) (rm : Rm) (ftz long : Bool) (d a : Opd) (f : FCtx → FVal → Code × FFlags) : FltForm :=
  { h := h, d := d, dw := ty.width, srcs := [(a, ty.width)], long := long, rm := rm,
    f := fun draw l => quiet [fltOf ty ftz (arg l 0)] (f ⟨ty, rm, ftz, draw⟩ (fltOf ty ftz (arg l 0))) }

/-- `FMIN` and `FMAX` (R49): the other operand where one is a NaN; else by order, −0 below +0. -/
def pick (min : Bool) (c : FCtx) (x y : FVal) : Code × FFlags :=
  c.value (
    if x.isNan then y else if y.isNan then x
    else if ltVal x y then (if min then x else y)
    else if ltVal y x then (if min then y else x)
    else if x.isZero ∧ x.neg ≠ y.neg then (if min = x.neg then x else y)
    else x)

/-- `FCMP` (R211). -/
def cmp (r : FCmp) (x y : FVal) : Code × FFlags :=
  let un := x.isNan || y.isNan
  let eq := !un && !ltVal x y && !ltVal y x
  let lt := !un && ltVal x y
  let inv : FFlags := if un then 1 else 0
  match r with
  | .flags => ((BitVec.ofBool un ++ BitVec.ofBool (lt || eq) ++ BitVec.ofBool lt ++ BitVec.ofBool eq).setWidth 128, inv)
  | .eq => (if eq then 1 else 0, 0)
  | .ne => (if eq then 0 else 1, 0)
  | .lt => (if lt then 1 else 0, inv)
  | .le => (if lt || eq then 1 else 0, inv)
  | .gt => (if un || lt || eq then 0 else 1, inv)
  | .ge => (if un || lt then 0 else 1, inv)
  | .un => (if un then 1 else 0, 0)

/-- The class bit of a code of fields sign, exponent, fraction (R213). -/
def classBit (ty : FTy) (c : Nat) : Nat :=
  let f := fmtOf ty
  let neg := c / 2 ^ (f.eb + f.mb) % 2 = 1
  let e := c / 2 ^ f.mb % 2 ^ f.eb
  let m := c % 2 ^ f.mb
  if ty = .e8m0 then (if c = 255 then 1 else 8)
  else if ty = .e4m3 ∧ e = 15 ∧ m = 7 then 1
  else if ty ≠ .e4m3 ∧ e = 2 ^ f.eb - 1 ∧ m ≠ 0 then (if ty ≠ .e5m2 ∧ m < 2 ^ (f.mb - 1) then 0 else 1)
  else if ty ≠ .e4m3 ∧ e = 2 ^ f.eb - 1 then (if neg then 2 else 9)
  else if e = 0 ∧ m = 0 then (if neg then 5 else 6)
  else if e = 0 then (if neg then 4 else 7)
  else (if neg then 3 else 8)

/-- The float instructions (R209 to R213). -/
def fltForm : Instr → Option FltForm
  | .fadd h ty rm ftz d a b => some (flt2 h ty rm ftz false d a b (fun c x y => faddF c x y))
  | .faddImm h ty rm ftz d a i => some (fltI h ty rm ftz d a i (fun c x y => faddF c x y))
  | .fsub h ty rm ftz d a b => some (flt2 h ty rm ftz false d a b (fun c x y => faddF c x y.negate))
  | .fsubImm h ty rm ftz d a i => some (fltI h ty rm ftz d a i (fun c x y => faddF c x y.negate))
  | .fmul h ty rm ftz d a b => some (flt2 h ty rm ftz false d a b (fun c x y => fmulF c x y))
  | .fmulImm h ty rm ftz d a i => some (fltI h ty rm ftz d a i (fun c x y => fmulF c x y))
  | .ffma h ty rm ftz d a b c =>
    some { h := h, d := d, dw := ty.width, srcs := [(a, ty.width), (b, ty.width), (c, ty.width)], long := false, rm := rm,
           f := fun draw l => quiet [fltOf ty ftz (arg l 0), fltOf ty ftz (arg l 1), fltOf ty ftz (arg l 2)]
             (ffmaF ⟨ty, rm, ftz, draw⟩ (fltOf ty ftz (arg l 0)) (fltOf ty ftz (arg l 1)) (fltOf ty ftz (arg l 2))) }
  | .fmin h ty ftz d a b => some (flt2 h ty .rne ftz false d a b (pick true))
  | .fminImm h ty ftz d a i => some (fltI h ty .rne ftz d a i (pick true))
  | .fmax h ty ftz d a b => some (flt2 h ty .rne ftz false d a b (pick false))
  | .fmaxImm h ty ftz d a i => some (fltI h ty .rne ftz d a i (pick false))
  | .fcmp h r ty ftz d a b => some { flt2 h ty .rne ftz false d a b (fun _ x y => cmp r x y) with dw := 32 }
  | .fcmpImm h r ty ftz d a i => some { fltI h ty .rne ftz d a i (fun _ x y => cmp r x y) with dw := 32 }
  | .frcp h ty rm ftz d a => some (flt1 h ty rm ftz true d a (fun c x => frcpF c x))
  | .frsq h ty rm ftz d a => some (flt1 h ty rm ftz true d a (fun c x => frsqF c x))
  | .fsqrt h ty rm ftz d a => some (flt1 h ty rm ftz true d a (fun c x => fsqrtF c x))
  | .fdiv h ty rm ftz d a b => some (flt2 h ty rm ftz true d a b (fun c x y => fdivF c x y))
  | .fexp2 h ty rm ftz d a => some (flt1 h ty rm ftz true d a (fun c x => fexp2F c x))
  | .flog2 h ty rm ftz d a => some (flt1 h ty rm ftz true d a (fun c x => flog2F c x))
  | .frnd h ty rm ftz d a => some (flt1 h ty rm ftz false d a (fun c x => frndF c x))
  | .fcvt h src ty rm ftz sat d a =>
    some { h := h, d := d, dw := ty.width, srcs := [(a, src.width)], long := false, rm := rm,
           f := fun draw l => quiet [fltOf src ftz (arg l 0)]
             (BitVec.ofNat 128 (cvtTo ty rm ftz sat draw (fltOf src ftz (arg l 0))).1,
              (cvtTo ty rm ftz sat draw (fltOf src ftz (arg l 0))).2) }
  | .icvt h true ity ty rm d a =>
    some { h := h, d := d, dw := ity.width, srcs := [(a, ty.width)], long := false, rm := rm,
           f := fun draw l => toInt ity rm draw (fltOf ty false (arg l 0)) }
  | .icvt h false ity ty rm d a =>
    some { h := h, d := d, dw := ty.width, srcs := [(a, ity.width)], long := false, rm := rm,
           f := fun draw l => (⟨ty, rm, false, draw⟩ : FCtx).approx
             ⟨decide (val ity (arg l 0) < 0), (val ity (arg l 0)).natAbs, 0, false⟩ }
  | .fclass h ty d a =>
    some { h := h, d := d, dw := 32, srcs := [(a, ty.width)], long := false, rm := .rne,
           f := fun _ l => (1#128 <<< classBit ty ((arg l 0).setWidth ty.width).toNat, 0) }
  | _ => none

/-- The number of a finite value. -/
def rat : FVal → ℚ
  | .fin n m e => (if n then -1 else 1) * m * 2 ^ e
  | _ => 0

/-- A magnitude x is what an approximation stands for: man × 2^exp, or strictly above it and below the next. -/
def fits (a : Approx) (x : ℚ) : Prop :=
  if a.more then (a.man : ℚ) * 2 ^ a.exp < x ∧ x < (a.man + 1 : ℚ) * 2 ^ a.exp else x = a.man * 2 ^ a.exp

/-- What is rounded is x itself; a zero has the sign zneg. -/
def isExact (a : Approx) (x : ℚ) (zneg : Bool) : Prop :=
  a.more = false ∧ (a.man : ℚ) * 2 ^ a.exp = |x| ∧ (x < 0 → a.neg = true) ∧ (0 < x → a.neg = false) ∧
    (x = 0 → a.neg = zneg)

/-- A number rounded once, to nearest even, and its flags. -/
def nearest (f : Fmt) (a : Approx) : FVal × FFlags :=
  (f.decode (f.round .rne false false 0 a).1, (f.round .rne false false 0 a).2)

/-- A product of ∞ and zero (R68). -/
def infZero (p : FVal × FVal) : Prop :=
  (p.1.isInf = true ∧ p.2.isZero = true) ∨ (p.1.isZero = true ∧ p.2.isInf = true)

/-- A product that is a NaN (R68). -/
def nanProd (p : FVal × FVal) : Prop :=
  p.1.isNan = true ∨ p.2.isNan = true ∨ infZero p

/-- A product that is an infinity of a sign (R68). -/
def infProd (n : Bool) (p : FVal × FVal) : Prop :=
  ¬ nanProd p ∧ (p.1.isInf = true ∨ p.2.isInf = true) ∧ (p.1.neg != p.2.neg) = n

/-- One round of the Lattice generator (R78), in numbers below 2^64. -/
def mixed (x : Nat) : Nat :=
  let a := x ^^^ (x / 2 ^ 31)
  let b := a * 0x6C1D_7B39_E4F2_0A97 % 2 ^ 64
  b ^^^ (b / 2 ^ 29)

/-- The Lattice generator (R78). -/
def generated (seed cls lane index : Nat) : Nat :=
  mixed (mixed (mixed (seed ^^^ (cls * 0x9F4A_C3E1_5B27_D8A5 % 2 ^ 64) ^^^ (lane * 2 ^ 40 % 2 ^ 64) ^^^ index))) / 2 ^ 48

end Sys2Proof.Claims

/-- The float instructions (R48, R49, R52, R53, R56, R57, R132, R133, R170, R209 to R213): where the operands are held and
the queues can move, the instruction completes. Each active lane of the destination gets the lane's result, of the lane's
draw (lane 0's under one run); the results of divisions, roots, exponentials and logarithms are outstanding; a flag of
`FSTAT` rises where a contributing lane raises it and no other falls; `SRCTR` steps under `.SR`. -/
def Obligations.FloatResults : Prop :=
  ∀ (s : State) (g g1 : Group) (i : Instr) (k : Claims.FltForm) (once : Bool) (res : Nat → Code × FFlags)
      (ws : List RegWrite),
    Claims.fltForm i = some k → i.wellFormed = true → s.group? s.cur = some g →
    g.checkHeld ((k.d, k.dw) :: k.srcs) = .ok () → g.moveQueues k.d k.srcs = .ok g1 →
    once = Claims.once k.h (k.d :: k.srcs.map (·.1)) →
    (∀ lane, res lane = k.f (g.draw k.rm (if once then 0 else lane)) (k.srcs.map (fun p =>
      g.srcLane p.1 p.2 (Claims.readLane once (g.active k.h) lane)))) →
    ws = Claims.writes g k.h k.d k.dw k.srcs (fun lane => (res lane).1) →
    ∃ (fl : FFlags) (g2 : Group),
      (∀ b, fl.getLsbD b = true ↔ ∃ lane, (if once then lowest (g.active k.h) = some lane
        else (g.active k.h).getLsbD lane = true) ∧ g.helper.getLsbD lane = false ∧ (res lane).2.getLsbD b = true) ∧
      g2 = { g1 with fstat := g1.fstat ||| fl, srctr := if k.rm = .sr then g1.srctr + 1 else g1.srctr } ∧
      exec i s = .next (s.finish g2 k.h (if k.long then [] else ws) (if k.long then [{ writes := ws }] else []) none none)

/-- Rounding to a multiple of 2^q (R50, R52): of the magnitude x that the approximation stands for, the multiple below or
above, x itself where it is one; to the nearest with ties to even, toward zero, +∞, −∞, or by the draw against the
fraction of the way from the lower to the upper neighbour in 65,536ths, rounded down. -/
def Obligations.RoundsOnce : Prop :=
  ∀ (a : Approx) (x : ℚ) (q : Int) (rm : Rm) (draw n : Nat) (inexact : Bool), Claims.fits a x →
    (a.more = true → a.exp + 16 < q) → a.at_ q rm draw = (n, inexact) → draw < 65536 →
    (inexact = false → x = n * 2 ^ q) ∧
    (inexact = true → ∃ lo : Nat, (lo : ℚ) * 2 ^ q < x ∧ x < (lo + 1 : ℚ) * 2 ^ q ∧
      (match rm with
       | .rne => (n = lo ∨ n = lo + 1) ∧ |x - n * 2 ^ q| ≤ 2 ^ q / 2 ∧ (|x - n * 2 ^ q| = 2 ^ q / 2 → n % 2 = 0)
       | .rz => n = lo
       | .ru => n = if a.neg then lo else lo + 1
       | .rd => n = if a.neg then lo + 1 else lo
       | .sr =>
         if a.neg then n = if (draw : Int) < ⌊((lo + 1 : ℚ) * 2 ^ q - x) / 2 ^ q * 65536⌋ then lo else lo + 1
         else n = if (draw : Int) < ⌊(x - lo * 2 ^ q) / 2 ^ q * 65536⌋ then lo + 1 else lo))

/-- A rounded value in a format (R47, R50, R51, R53, R56, R58, R61): with l the place of its highest bit, the magnitude is
rounded at the format's precision there, at the least normal exponent at lowest; the code holds the rounded value, or
what an overflow gives; the flags are those of R51, R53, R56. `FTZ` rounds at the unbounded precision and gives zero for
a magnitude below the least normal one. Under `.SR` an overflow is what the draw gives between the largest finite value and the
next step above it (the model's choice, log entry 39, DESIGN CHOICE: R51 and R52 do not say).

The finite values of a format are its own: a code of a finite value is what the value is encoded as (R47, R58). -/
def Obligations.RoundsIntoFormats : Prop :=
  (∀ (ty : FTy) (f : Fmt) (rm : Rm) (ftz sat : Bool) (draw : Nat) (a : Approx) (l q : Int) (n nu : Nat) (i iu : Bool),
     (ty ∈ [FTy.f16, .bf16, .f32, .f64, .e4m3, .e5m2, .e2m1]) → f = fmtOf ty → a.man ≠ 0 → l = Nat.log2 a.man + a.exp →
     q = (if ftz then l else max l f.emin) - f.mb →
     a.at_ (l - f.mb) rm draw = (nu, iu) → a.at_ q rm draw = (n, i) →
     (ftz = true → (nu : ℚ) * 2 ^ (l - f.mb) < 2 ^ f.emin →
       f.round rm ftz sat draw a = (if a.neg then 2 ^ (f.eb + f.mb) else 0, 24)) ∧
     ((ftz = false ∨ 2 ^ f.emin ≤ (nu : ℚ) * 2 ^ (l - f.mb)) →
       ((n : ℚ) * 2 ^ q ≤ Claims.rat (.fin false f.maxFin.1 f.maxFin.2) →
         Claims.rat (f.decode (f.round rm ftz sat draw a).1) = (if a.neg then -1 else 1) * n * 2 ^ q ∧
         (f.decode (f.round rm ftz sat draw a).1).neg = a.neg ∧
         (f.round rm ftz sat draw a).2 = (if i then 16 else 0) |||
           (if i ∧ (nu : ℚ) * 2 ^ (l - f.mb) < 2 ^ f.emin then 8 else 0)) ∧
       (Claims.rat (.fin false f.maxFin.1 f.maxFin.2) < (n : ℚ) * 2 ^ q →
         (f.round rm ftz sat draw a).2 = 20 ∧
         f.decode (f.round rm ftz sat draw a).1 =
           (if sat = false ∧ ty ≠ .e4m3 ∧ ty ≠ .e2m1 ∧ (rm = .rne ∨ rm = .sr ∨ (rm = .ru ∧ a.neg = false) ∨ (rm = .rd ∧ a.neg = true))
            then .inf a.neg else .fin a.neg f.maxFin.1 f.maxFin.2)))) ∧
  (∀ (ty : FTy) (f : Fmt) (c m : Nat) (n : Bool) (e : Int), (ty ∈ [FTy.f16, .bf16, .f32, .f64, .e4m3, .e5m2, .e2m1]) →
     f = fmtOf ty → c < 2 ^ (f.eb + f.mb + 1) → f.decode c = .fin n m e → f.encode n m e = c)


/-- Sums, products and the order of values are those of the rational numbers they stand for; the zero and the special
rules of R209, −0 = +0 of R211.

Divisions and roots are rounded from the exact quotient or root (R54): what is rounded stands for it, with more bits
than the draw and every format need. The special operands of R55.

Sums, products, fused products and conversions round the exact result once (R45, R46, R62, R209, R212): what `FADD`, `FMUL`,
`FFMA` and `FCVT` round is that result; `FRND` gives the rounded integer, with the operand's sign; `ICVT` that integer, clamped
to the type; E8M0 the power of two at or below the operand, or above it under `.RU`. `FEXP2` of an integer and `FLOG2` of a
power of two round the exact result; else what they round lies between the neighbouring powers or integers, and its digits are
the model's series (log entry 10, DEDUCED).

Matrix products (R66 to R68): the products of a chunk or a block are summed exactly, −0 only where every product is −0, with
the NaNs and infinities of R68; an accumulator takes a term in one rounding to nearest even; a block's term is its exact sum
times its exact scale product times the tensor scales' product, rounded once, that last product exact unless a tensor scale is
FP32. A scale that is a NaN makes the term a NaN and sets `NANSCALE`; a zero scale times an infinite sum is a NaN and sets
`INVALID`.

The draw of `.SR` (R52, R78): the Lattice generator's, of the group's seed, its class, the lane and `SRCTR`. -/
def Obligations.ExactArithmetic : Prop :=
  (∀ (rd n1 n2 : Bool) (m1 m2 : Nat) (e1 e2 : Int) (x y : FVal), x = .fin n1 m1 e1 → y = .fin n2 m2 e2 →
     (∃ n m e, addVal rd x y = (.fin n m e, false) ∧ Claims.rat (.fin n m e) = Claims.rat x + Claims.rat y ∧
       (Claims.rat x + Claims.rat y < 0 → n = true) ∧ (0 < Claims.rat x + Claims.rat y → n = false) ∧
       (Claims.rat x + Claims.rat y = 0 → n = if n1 = n2 then n1 else rd)) ∧
     (∃ m e, mulVal x y = (.fin (n1 != n2) m e, false) ∧ Claims.rat (.fin (n1 != n2) m e) = Claims.rat x * Claims.rat y) ∧
     Claims.rat x.negate = -Claims.rat x ∧
     (ltVal x y = true ↔ Claims.rat x < Claims.rat y) ∧
     (ltVal x (.inf n2) = !n2) ∧ (ltVal (.inf n1) y = n1) ∧ (ltVal (.inf n1) (.inf n2) = (n1 && !n2)) ∧
     addVal rd (.inf n1) y = (.inf n1, false) ∧ addVal rd x (.inf n2) = (.inf n2, false) ∧
     addVal rd (.inf n1) (.inf n2) = (if n1 = n2 then (.inf n1, false) else (.nan false, true)) ∧
     mulVal (.inf n1) y = (if m2 = 0 then (.nan false, true) else (.inf (n1 != n2), false)) ∧
     mulVal x (.inf n2) = (if m1 = 0 then (.nan false, true) else (.inf (n1 != n2), false)) ∧
     mulVal (.inf n1) (.inf n2) = (.inf (n1 != n2), false)) ∧
  (∀ (c : FCtx) (n1 n2 : Bool) (m1 m2 : Nat) (e1 e2 : Int) (x y : FVal), x = .fin n1 m1 e1 → y = .fin n2 m2 e2 →
     (m1 ≠ 0 → m2 ≠ 0 → m2 < 2 ^ 64 → ∃ a, fdivF c x y = c.approx a ∧ a.neg = (n1 != n2) ∧
       Claims.fits a (|Claims.rat x| / |Claims.rat y|) ∧ 2 ^ 90 < a.man) ∧
     (m1 ≠ 0 → m1 < 2 ^ 64 → ∃ a, frcpF c x = c.approx a ∧ a.neg = n1 ∧ Claims.fits a (1 / |Claims.rat x|) ∧
       2 ^ 90 < a.man) ∧
     (m1 ≠ 0 → n1 = false → ∃ a, fsqrtF c x = c.approx a ∧ a.neg = false ∧ 2 ^ 90 < a.man ∧
       ((a.man : ℚ) * 2 ^ a.exp) ^ 2 ≤ Claims.rat x ∧ Claims.rat x < ((a.man + 1 : ℚ) * 2 ^ a.exp) ^ 2 ∧
       (a.more = false ↔ ((a.man : ℚ) * 2 ^ a.exp) ^ 2 = Claims.rat x)) ∧
     (m1 ≠ 0 → m1 < 2 ^ 64 → n1 = false → ∃ a, frsqF c x = c.approx a ∧ a.neg = false ∧ 2 ^ 90 < a.man ∧
       ((a.man : ℚ) * 2 ^ a.exp) ^ 2 * Claims.rat x ≤ 1 ∧ 1 < ((a.man + 1 : ℚ) * 2 ^ a.exp) ^ 2 * Claims.rat x ∧
       (a.more = false ↔ ((a.man : ℚ) * 2 ^ a.exp) ^ 2 * Claims.rat x = 1)) ∧
     (m2 = 0 → m1 ≠ 0 → fdivF c x y = ((c.value (.inf (n1 != n2))).1, (c.value (.inf (n1 != n2))).2 ||| 2)) ∧
     (m2 = 0 → m1 = 0 → fdivF c x y = c.nanWith 1) ∧
     fdivF c (.inf n1) (.inf n2) = c.nanWith 1 ∧ fdivF c x (.inf n2) = c.value (.fin (n1 != n2) 0 0) ∧
     (m1 = 0 → frcpF c x = ((c.value (.inf n1)).1, (c.value (.inf n1)).2 ||| 2) ∧
       frsqF c x = ((c.value (.inf n1)).1, (c.value (.inf n1)).2 ||| 2) ∧ fsqrtF c x = c.value (.fin n1 0 0) ∧
       flog2F c x = ((c.value (.inf true)).1, (c.value (.inf true)).2 ||| 2)) ∧
     (m1 ≠ 0 → n1 = true → frsqF c x = c.nanWith 1 ∧ fsqrtF c x = c.nanWith 1 ∧ flog2F c x = c.nanWith 1) ∧
     frcpF c (.inf n1) = c.value (.fin n1 0 0) ∧ fexp2F c (.inf n1) = c.value (if n1 then .fin false 0 0 else .inf false) ∧
     frsqF c (.inf true) = c.nanWith 1 ∧ frsqF c (.inf false) = c.value (.fin false 0 0) ∧
     fsqrtF c (.inf true) = c.nanWith 1 ∧ fsqrtF c (.inf false) = c.value (.inf false) ∧
     flog2F c (.inf true) = c.nanWith 1 ∧ flog2F c (.inf false) = c.value (.inf false)) ∧
  (∀ (c : FCtx) (n1 n2 n3 : Bool) (m1 m2 m3 : Nat) (e1 e2 e3 : Int) (x y z : FVal), x = .fin n1 m1 e1 → y = .fin n2 m2 e2 →
     z = .fin n3 m3 e3 →
     (∃ a, faddF c x y = c.approx a ∧ Claims.isExact a (Claims.rat x + Claims.rat y) (if n1 = n2 then n1 else c.rm = .rd)) ∧
     (∃ a, fmulF c x y = c.approx a ∧ Claims.isExact a (Claims.rat x * Claims.rat y) (n1 != n2)) ∧
     (∃ a, ffmaF c x y z = c.approx a ∧ Claims.isExact a (Claims.rat x * Claims.rat y + Claims.rat z)
       (if (n1 != n2) = n3 then n3 else c.rm = .rd)) ∧
     (∀ n i, (⟨n1, m1, e1, false⟩ : Approx).at_ 0 c.rm c.draw = (n, i) →
       frndF c x = (BitVec.ofNat 128 ((fmtOf c.ty).encode n1 n 0), if i then 16 else 0) ∧
       (∀ k, c.ty ∈ [FTy.f16, .bf16, .f32, .f64] → (fmtOf c.ty).decode k = x →
         Claims.rat ((fmtOf c.ty).decode ((fmtOf c.ty).encode n1 n 0)) = (if n1 then -1 else 1) * n ∧
         ((fmtOf c.ty).decode ((fmtOf c.ty).encode n1 n 0)).neg = n1) ∧
       ∀ (ty : ITy) (v : Int), v = (if n1 then -(n : Int) else n) →
         toInt ty c.rm c.draw x = if v < Claims.lo ty then (Claims.code ty.width (Claims.lo ty), 1)
           else if Claims.hi ty < v then (Claims.code ty.width (Claims.hi ty), 1)
           else (Claims.code ty.width v, if i then 16 else 0)) ∧
     (∀ ty sat, ty ≠ .e8m0 → cvtTo ty c.rm c.ftz sat c.draw x = (fmtOf ty).round c.rm
       (c.ftz && decide (ty ∈ [FTy.f16, .bf16, .f32, .f64])) sat c.draw ⟨n1, m1, e1, false⟩) ∧
     (∀ (sat : Bool) (p : Int), (2 : ℚ) ^ p ≤ Claims.rat x → Claims.rat x < 2 ^ (p + 1) →
       ∀ k, k = (if c.rm = .ru ∧ Claims.rat x ≠ 2 ^ p then p + 1 else p) →
       cvtTo .e8m0 c.rm c.ftz sat c.draw x = if k < -127 then (0, 24) else if 127 < k then (0xFE, 20)
         else ((k + 127).toNat, if Claims.rat x = 2 ^ p then 0 else 16)) ∧
     (∀ sat, Claims.rat x ≤ 0 → cvtTo .e8m0 c.rm c.ftz sat c.draw x = (0xFF, 1)) ∧
     (∀ p : Int, -2 ^ 17 < p → p < 2 ^ 17 → ∃ a, fexp2F c x = c.approx a ∧ a.neg = false ∧
         (Claims.rat x = p → a.more = false ∧ (a.man : ℚ) * 2 ^ a.exp = 2 ^ p) ∧
         ((p : ℚ) < Claims.rat x → Claims.rat x < p + 1 → a.more = true ∧
           (2 : ℚ) ^ p ≤ a.man * 2 ^ a.exp ∧ (a.man : ℚ) * 2 ^ a.exp < 2 ^ (p + 1))) ∧
     (∀ p : Int, (2 : ℚ) ^ p ≤ Claims.rat x → Claims.rat x < 2 ^ (p + 1) → ∃ a, flog2F c x = c.approx a ∧
         (Claims.rat x = 2 ^ p → Claims.isExact a p false) ∧
         (Claims.rat x ≠ 2 ^ p → a.more = true ∧ (p : ℚ) ≤ (if a.neg then -1 else 1) * a.man * 2 ^ a.exp ∧
           (if a.neg then -1 else 1) * (a.man : ℚ) * 2 ^ a.exp ≤ p + 1))) ∧
  (∀ (l : List (FVal × FVal)) (both bad : Prop),
     (both ↔ (∃ p ∈ l, Claims.infProd true p) ∧ ∃ p ∈ l, Claims.infProd false p) →
     (bad ↔ (∃ p ∈ l, Claims.nanProd p) ∨ both) →
     (bad → (sumProducts l).1 = .nan false) ∧
     (¬ bad → ∀ n, (∃ p ∈ l, Claims.infProd n p) → (sumProducts l).1 = .inf n) ∧
     (¬ bad → (∀ n, ∀ p ∈ l, ¬ Claims.infProd n p) → ∀ x : ℚ, x = (l.map (fun p => Claims.rat p.1 * Claims.rat p.2)).sum →
       ∃ n m e, (sumProducts l).1 = .fin n m e ∧ Claims.rat (.fin n m e) = x ∧ (x < 0 → n = true) ∧ (0 < x → n = false) ∧
         (x = 0 → (n = true ↔ l ≠ [] ∧ ∀ p ∈ l, (p.1.isZero = true ∨ p.2.isZero = true) ∧ p.1.neg ≠ p.2.neg))) ∧
     ((sumProducts l).2 = true ↔ (∃ p ∈ l, Claims.infZero p) ∨ both)) ∧
  (∀ (f : Fmt) (acc term : FVal), f ∈ [fmtF32, fmtF64] →
     (∀ n1 m1 e1 n2 m2 e2, acc = .fin n1 m1 e1 → term = .fin n2 m2 e2 →
       ∃ a, Claims.isExact a (Claims.rat acc + Claims.rat term) (n1 && n2) ∧ accAdd f acc term = Claims.nearest f a) ∧
     (acc.isNan = true ∨ term.isNan = true → accAdd f acc term = (.nan false, 0)) ∧
     (∀ n, acc = .inf n → term.isNan = false →
       accAdd f acc term = if term = .inf (!n) then (.nan false, 1) else (.inf n, 0)) ∧
     (∀ n m e k, acc = .fin n m e → term = .inf k → accAdd f acc term = (.inf k, 0))) ∧
  (∀ (tsfA tsfB : Nat) (ta tb sa sb : FVal) (sum : FVal × Bool) (tsc : FVal × FFlags), tsc = tensorScales tsfA tsfB ta tb →
     (∀ n1 m1 e1 n2 m2 e2, ta = .fin n1 m1 e1 → tb = .fin n2 m2 e2 →
       (tsfA ≠ 1 → tsfB ≠ 1 → ∃ m e, tsc = (.fin (n1 != n2) m e, 0) ∧
         Claims.rat (.fin (n1 != n2) m e) = Claims.rat ta * Claims.rat tb) ∧
       (tsfA = 1 ∨ tsfB = 1 → ∃ a, Claims.isExact a (Claims.rat ta * Claims.rat tb) (n1 != n2) ∧
         tsc = Claims.nearest fmtF32 a)) ∧
     (sa.isNan = true ∨ sb.isNan = true ∨ ta.isNan = true ∨ tb.isNan = true →
       (blockTerm sum sa sb ta tb tsc).1 = .nan false ∧ (blockTerm sum sa sb ta tb tsc).2.getLsbD 5 = true) ∧
     (ta.isNan = false → tb.isNan = false → ∀ n1 m1 e1 n2 m2 e2 n3 m3 e3, sa = .fin n1 m1 e1 → sb = .fin n2 m2 e2 →
       tsc.1 = .fin n3 m3 e3 →
       (∀ n m e, sum.1 = .fin n m e →
         ∃ a, Claims.isExact a (Claims.rat sum.1 * (Claims.rat sa * Claims.rat sb) * Claims.rat tsc.1)
             ((n != (n1 != n2)) != n3) ∧
           (blockTerm sum sa sb ta tb tsc).1 = (Claims.nearest fmtF32 a).1 ∧
           (blockTerm sum sa sb ta tb tsc).2
             = (Claims.nearest fmtF32 a).2 ||| tsc.2 ||| (if sum.2 then 1 else 0)) ∧
       (∀ n, sum.1 = .inf n →
         (m1 = 0 ∨ m2 = 0 ∨ m3 = 0 → (blockTerm sum sa sb ta tb tsc).1 = .nan false ∧
           (blockTerm sum sa sb ta tb tsc).2.getLsbD 0 = true) ∧
         (m1 ≠ 0 → m2 ≠ 0 → m3 ≠ 0 → (blockTerm sum sa sb ta tb tsc).1 = .inf ((n != (n1 != n2)) != n3))) ∧
       (sum.1.isNan = true → (blockTerm sum sa sb ta tb tsc).1 = .nan false))) ∧
  (∀ (seed index : Word64) (cls lane : Nat),
     lattice seed cls lane index = Claims.generated seed.toNat cls lane index.toNat) ∧
  (∀ (g : Group) (rm : Rm) (lane : Nat) (spawned : Bool), (spawned = true ↔ ∃ l, g.kind = .spawned l) →
     g.draw rm lane = if rm = .sr then Claims.generated g.srseed.toNat
       (if spawned then 18 else if g.depth = 0 then 16 else 18 + g.depth) lane g.srctr.toNat else 0)


/-! ## Lanes, votes, reductions, masks -/

namespace Sys2Proof.Claims

/-- The partner lane of `SHFL` (R215), b unsigned. -/
def shflSrc (m : ShflMode) (lane b : Nat) : Int :=
  match m with
  | .idx => ((b &&& 63 : Nat) : Int)
  | .up => (lane : Int) - b
  | .down => (lane : Int) + b
  | .xor => ((lane ^^^ (b &&& 63) : Nat) : Int)

/-- The partner lane of `QXCH` (R215). -/
def qxchSrc (m : QxchMode) (lane : Nat) : Int :=
  match m with
  | .h => ((lane ^^^ 1 : Nat) : Int)
  | .v => ((lane ^^^ 2 : Nat) : Int)
  | .d => ((lane ^^^ 3 : Nat) : Int)

/-- The value read from a partner: its own where the partner is no lane of `active` (R215). -/
def fromLane (g : Group) (a : Opd) (w : Nat) (act : Mask) (lane : Nat) (src : Int) : Code :=
  if 0 ≤ src ∧ src ≤ 63 ∧ act.getLsbD src.toNat = true then g.srcLane a w src.toNat else g.srcLane a w lane

/-- A float step to nearest, a signalling NaN flagged (R216). -/
def fltStep (w : Nat) (f : FCtx → FVal → FVal → Code × FFlags) (a b : Code) : Code × FFlags :=
  let ty : FTy := if w = 64 then .f64 else .f32
  quiet [fltOf ty false a, fltOf ty false b] (f ⟨ty, .rne, false, 0⟩ (fltOf ty false a) (fltOf ty false b))

/-- A step of an operator (R216). -/
def step (op : RedOp) (ty : ITy) (a b : Code) : Code × FFlags :=
  match op with
  | .exch => (b, 0)
  | .add => (code ty.width (val ty a + val ty b), 0)
  | .min => (code ty.width (if val ty a ≤ val ty b then val ty a else val ty b), 0)
  | .max => (code ty.width (if val ty a ≤ val ty b then val ty b else val ty a), 0)
  | .and => (a &&& b, 0)
  | .or => (a ||| b, 0)
  | .xor => (a ^^^ b, 0)
  | .fadd => fltStep ty.width faddF a b
  | .fmin => fltStep ty.width (pick true) a b
  | .fmax => fltStep ty.width (pick false) a b

/-- The identity of an operator (R216). -/
def ident (op : RedOp) (ty : ITy) : Code :=
  match op with
  | .exch | .add | .or | .xor => 0
  | .min => code ty.width (hi ty)
  | .max => code ty.width (lo ty)
  | .and => (BitVec.allOnes ty.width).setWidth 128
  | .fadd => if ty.width = 64 then 0x8000_0000_0000_0000 else 0x8000_0000
  | .fmin | .fmax => if ty.width = 64 then 0x7FF8_0000_0000_0000 else 0x7FC0_0000

/-- Node i of level n of the tree of `GRED` over v, with the flags met in it (R216). -/
def tree (f : Code → Code → Code × FFlags) (v : Nat → Code) : Nat → Nat → Code × FFlags
  | 0, i => (v i, 0)
  | n + 1, i =>
    let a := tree f v n (2 * i)
    let b := tree f v n (2 * i + 1)
    ((f a.1 b.1).1, (f a.1 b.1).2 ||| a.2 ||| b.2)

/-- The mask instructions (R218): header, destination, result. -/
def maskForm (g : Group) : Instr → Option (Hdr × Opd × Mask)
  | .mand h d (.m a) (.m b) => some (h, d, g.mVal a &&& g.mVal b)
  | .mor h d (.m a) (.m b) => some (h, d, g.mVal a ||| g.mVal b)
  | .mxor h d (.m a) (.m b) => some (h, d, g.mVal a ^^^ g.mVal b)
  | .mnot h d (.m a) => some (h, d, ~~~g.mVal a)
  | .mmov h d (.m a) => some (h, d, g.mVal a)
  | .mmov h d (.x a) => some (h, d, g.xVal a)
  | .mtox h d (.m a) => some (h, d, g.mVal a)
  | _ => none

/-- The opcodes of the mask instructions (R218). -/
def maskCode : Instr → Option (BitVec 8)
  | .mand .. => some 0x39
  | .mor .. => some 0x3A
  | .mxor .. => some 0x3B
  | .mnot .. => some 0x3C
  | .mmov .. => some 0x3D
  | .mtox .. => some 0x3E
  | _ => none

end Sys2Proof.Claims

/-- `SHFL` and `QXCH` (R214, R215): each active lane gets the value its partner had before the instruction, its own where
the partner is outside the group or not active. That `SHFL.B64` reads its lane operand as a pair of 64 bits is the model's
choice (log entry 63, DESIGN CHOICE).

`BALLOT`, `VOTE`, `MFIRST`, `MPOPC` (R217, R133): the word of the contributors whose source is not 0; the truth of all
or any of them, for each active lane; the lowest set bit of a mask or 64; the number of its set bits. -/
def Obligations.LaneExchanges : Prop :=
  ((∀ (s : State) (g : Group) (h : Hdr) (ty : ITy) (m : ShflMode) (d a b : Opd),
     (Instr.shfl h ty m d a b).wellFormed = true → s.group? s.cur = some g →
     g.checkHeld [(d, ty.width), (a, ty.width), (b, ty.width)] = .ok () →
     exec (.shfl h ty m d a b) s = .next (s.finish g h
       (g.writesTo d false ty.width (g.active h) (fun lane => Claims.fromLane g a ty.width (g.active h) lane
         (Claims.shflSrc m lane (g.srcLane b ty.width lane).toNat))) [] none none)) ∧
   (∀ (s : State) (g : Group) (h : Hdr) (ty : ITy) (m : QxchMode) (d a : Opd),
     (Instr.qxch h ty m d a).wellFormed = true → s.group? s.cur = some g →
     g.checkHeld [(d, ty.width), (a, ty.width)] = .ok () →
     exec (.qxch h ty m d a) s = .next (s.finish g h
       (g.writesTo d false ty.width (g.active h) (fun lane => Claims.fromLane g a ty.width (g.active h) lane
         (Claims.qxchSrc m lane))) [] none none))) ∧
  ((∀ (s : State) (g : Group) (h : Hdr) (ty : ITy) (d a : Opd),
     (Instr.ballot h ty d a).wellFormed = true → s.group? s.cur = some g → g.checkHeld [(a, ty.width)] = .ok () →
     (h.uni = true → g.active h ≠ 0) →
     ∃ word : Mask, (∀ i, word.getLsbD i = true ↔ (g.active h).getLsbD i = true ∧ g.helper.getLsbD i = false ∧
         g.srcLane a ty.width i ≠ 0) ∧
       (∀ n, d = .x n → exec (.ballot h ty d a) s = .next (s.finish g h [.x n word] [] none none)) ∧
       (∀ n, d = .m n →
         exec (.ballot h ty d a) s = .next (s.finish g h [.m n (BitVec.allOnes 64) word] [] none none))) ∧
   (∀ (s : State) (g : Group) (h : Hdr) (ty : ITy) (any : Bool) (n : BitVec 3) (a : Opd),
     (Instr.vote h ty any (.m n) a).wellFormed = true → s.group? s.cur = some g → g.checkHeld [(a, ty.width)] = .ok () →
     ∃ truth : Bool,
       (truth = true ↔ if any then ∃ i, (g.contributors h).getLsbD i = true ∧ g.srcLane a ty.width i ≠ 0
         else ∀ i, (g.contributors h).getLsbD i = true → g.srcLane a ty.width i ≠ 0) ∧
       exec (.vote h ty any (.m n) a) s
         = .next (s.finish g h [.m n (g.active h) (if truth then g.active h else 0)] [] none none)) ∧
   (∀ (s : State) (g : Group) (h : Hdr) (d : Opd) (n : BitVec 3),
     (Instr.mfirst h d (.m n)).wellFormed = true → s.group? s.cur = some g → g.checkHeld [(d, 32)] = .ok () →
     g.active h ≠ 0 →
     ∃ v : Nat, (g.mVal n = 0 → v = 64) ∧
       (g.mVal n ≠ 0 → v < 64 ∧ (g.mVal n).getLsbD v = true ∧ ∀ j < v, (g.mVal n).getLsbD j = false) ∧
       exec (.mfirst h d (.m n)) s
         = .next (s.finish g h (g.writesTo d false 32 (g.active h) (fun _ => BitVec.ofNat 128 v)) [] none none)) ∧
   (∀ (s : State) (g : Group) (h : Hdr) (d : Opd) (n : BitVec 3),
     (Instr.mpopc h d (.m n)).wellFormed = true → s.group? s.cur = some g → g.checkHeld [(d, 32)] = .ok () →
     g.active h ≠ 0 →
     exec (.mpopc h d (.m n)) s = .next (s.finish g h (g.writesTo d false 32 (g.active h)
       (fun _ => BitVec.ofNat 128 ((List.range 64).countP (fun i => (g.mVal n).getLsbD i)))) [] none none)))


/-- `GRED` and `GSCAN` (R216): the fixed tree over the 64 positions and the fold in lane order; other lanes enter as the
identity; the flags of every step rise. -/
def Obligations.Reductions : Prop :=
  (∀ (s : State) (g g1 : Group) (h : Hdr) (op : RedOp) (ty : ITy) (d a : Opd) (root : Code × FFlags),
    (Instr.gred h op ty d a).wellFormed = true → s.group? s.cur = some g →
    g.checkHeld [(d, ty.width), (a, ty.width)] = .ok () →
    root = Claims.tree (Claims.step op ty) (fun i => if (g.contributors h).getLsbD i then g.srcLane a ty.width i
      else Claims.ident op ty) 6 0 →
    g1 = { g with fstat := g.fstat ||| root.2 } →
    exec (.gred h op ty d a) s
      = .next (s.finish g1 h (g.writesTo d false ty.width (g.active h) (fun _ => root.1)) [] none none)) ∧
  (∀ (s : State) (g : Group) (h : Hdr) (op : RedOp) (ty : ITy) (exc : Bool) (d a : Opd) (acc : Nat → Code),
    (Instr.gscan h op ty exc d a).wellFormed = true → s.group? s.cur = some g →
    g.checkHeld [(d, ty.width), (a, ty.width)] = .ok () → acc 0 = Claims.ident op ty →
    (∀ i, acc (i + 1) = if (g.contributors h).getLsbD i then (Claims.step op ty (acc i) (g.srcLane a ty.width i)).1
      else acc i) →
    ∃ (fl : FFlags) (g1 : Group),
      (∀ b, fl.getLsbD b = true ↔ ∃ i, (g.contributors h).getLsbD i = true ∧
        (Claims.step op ty (acc i) (g.srcLane a ty.width i)).2.getLsbD b = true) ∧
      g1 = { g with fstat := g.fstat ||| fl } ∧
      exec (.gscan h op ty exc d a) s = .next (s.finish g1 h
        (g.writesTo d false ty.width (g.active h) (fun i => if exc then acc i else acc (i + 1))) [] none none))

/-- The mask instructions (R218): the result of all 64 bits, whatever `active` holds; one for `M0` is discarded. Their
operands are of the files of the table; their one word each has the table's `OPC`, with `SUB`, `TY` and `PM` 0. -/
def Obligations.MaskResults : Prop :=
  (∀ (s : State) (g : Group) (i : Instr) (h : Hdr) (d : Opd) (v : Mask),
    Claims.maskForm g i = some (h, d, v) → i.wellFormed = true → s.group? s.cur = some g →
    (∀ n, d = .m n → exec i s = .next (s.finish g h [.m n (BitVec.allOnes 64) v] [] none none)) ∧
    (∀ n, d = .x n → exec i s = .next (s.finish g h [.x n v] [] none none)) ∧
    (d = .m 0 → ∃ u g', exec i s = .next u ∧ u.group? g.id = some g' ∧ g'.exec = g.exec ∧ g'.mVal 0 = g.mVal 0)) ∧
  (∀ (g : Group) (i : Instr) (n : BitVec 8) (w : BitVec 96), Claims.maskCode i = some n → i.wellFormed = true →
    encode i = some w → w.extractLsb' 88 8 = n ∧ w.extractLsb' 82 6 = 0 ∧ w.extractLsb' 78 4 = 0 ∧
      w.extractLsb' 75 3 = 0 ∧ ∃ h d v, Claims.maskForm g i = some (h, d, v) ∧
        (n = 0x3E → ∃ k, d = .x k) ∧ (n ≠ 0x3E → ∃ k, d = .m k))

/-! ## Special registers, blocks, queues -/

namespace Sys2Proof.Claims

/-- The width and the value of a special register in a lane, but of `SEQNO` (R28, R131, R140, R188 to R190). -/
def special (s : State) (g : Group) (num : Nat) (lane : Nat) : Option (Nat × Nat) :=
  let off := match s.team? g.team with | some t => t.off | none => 0
  match num with
  | 0x000 => some (32, lane)
  | 0x001 => some (32, lane / 4)
  | 0x002 => some (32, g.index.toNat)
  | 0x003 => some (32, g.teamNo.toNat)
  | 0x004 => some (32, g.cohort.toNat)
  | 0x005 => some (32, g.gx.toNat)
  | 0x006 => some (32, g.gy.toNat)
  | 0x007 => some (32, g.gz.toNat)
  | 0x010 => some (32, (vlane g.widx lane).toNat)
  | 0x011 => some (32, (vlane g.wcnt lane).toNat)
  | 0x020 => some (64, g.helper.toNat)
  | 0x021 => some (32, g.fstat.toNat)
  | 0x022 => some (64, g.srseed.toNat)
  | 0x023 => some (64, g.srctr.toNat)
  | 0x024 => some (32, ((List.range 8).map (fun i => (vget g.q i ⟨0, 0, 0, 0⟩).occ.toNat * 16 ^ i)).sum)
  | 0x025 => some (32, g.gmem.toNat)
  | 0x026 => some (32, g.swin.toNat)
  | 0x030 => some (64, s.time.toNat)
  | 0x040 => some (32, s.topo (g.core.getD 0))
  | 0x041 => some (32, off)
  | 0x042 => some (32, match s.team? g.team with | some t => off + (s.valsOf t).scratch | none => 0)
  | 0x043 => some (32, g.peergen.toNat)
  | 0x050 => some (32, 180)
  | 0x051 => some (32, (s.core (g.core.getD 0)).pgidle.toNat)
  | _ => none

end Sys2Proof.Claims

/-- `MFS` (R133, R188, R189, R191, R219): each active lane gets its value of the register, or the destination once that
of the lowest active lane; `TSTAMP` and `SEQNO` are long; reading `SEQNO` takes the next number of the group's slot.
`MTS`: the value of the lowest active lane, by the register's access: `FSTAT` clears the bits written 1, `SWIN` keeps six
bits, `HELPER` gives helper lanes to quads with a live lane (R135); with an empty `active` nothing, and no fault. -/
def Obligations.SpecialRegisters : Prop :=
  (∀ (s : State) (g : Group) (h : Hdr) (d : Opd) (num : BitVec 12) (w : Nat) (val : Nat → Nat) (ws : List RegWrite),
    (Instr.mfs h d num).wellFormed = true → s.group? s.cur = some g →
    (∀ lane, Claims.special s g num.toNat lane = some (w, val lane)) → g.checkHeld [(d, w)] = .ok () →
    ws = Claims.writes g h d w [] (fun lane =>
      BitVec.ofNat 128 (val (Claims.readLane (Claims.once h [d]) (g.active h) lane))) →
    exec (.mfs h d num) s = .next (if num = 0x030 then s.finish g h [] [{ writes := ws }] none none
      else s.finish g h ws [] none none)) ∧
  (∀ (s s1 : State) (g : Group) (h : Hdr) (d : Opd) (c : Nat) (n : BitVec 48),
    (Instr.mfs h d 0x031).wellFormed = true → s.group? s.cur = some g → g.core = some c → g.active h ≠ 0 →
    g.checkHeld [(d, 64)] = .ok () → n = vget (s.core c).slotSeq g.slot 0 + 1 →
    s1 = s.modCore c (fun k => { k with slotSeq := vset k.slotSeq g.slot n }) →
    exec (.mfs h d 0x031) s = .next (s1.finish g h []
      [{ writes := g.writesTo d false 64 (g.active h) (fun _ => BitVec.ofNat 128 n.toNat) }] none none)) ∧
  (∀ (s : State) (g : Group) (h : Hdr) (num : BitVec 12) (a : Opd) (w : Nat) (i : Nat) (v : Nat),
    (Instr.mts h num a).wellFormed = true → s.group? s.cur = some g → lowest (g.active h) = some i →
    w = (if num = 0x021 ∨ num = 0x026 then 32 else 64) → g.checkHeld [(a, w)] = .ok () → v = (g.srcLane a w i).toNat →
    ∃ g1, exec (.mts h num a) s = .next (s.finish g1 h [] [] none none) ∧
      (num = 0x021 → g1 = { g with fstat := g.fstat &&& ~~~(BitVec.ofNat 6 v) }) ∧
      (num = 0x022 → g1 = { g with srseed := BitVec.ofNat 64 v }) ∧
      (num = 0x023 → g1 = { g with srctr := BitVec.ofNat 64 v }) ∧
      (num = 0x026 → g1 = { g with swin := BitVec.ofNat 6 v }) ∧
      (num = 0x020 → g1 = { g with exec := g1.exec, helper := g1.helper } ∧
        ∀ k, g1.helper.getLsbD k = (decide (k < 64) && (BitVec.ofNat 64 v).getLsbD k && !g.live.getLsbD k &&
            (g.live.getLsbD (k / 4 * 4) || g.live.getLsbD (k / 4 * 4 + 1) || g.live.getLsbD (k / 4 * 4 + 2) ||
              g.live.getLsbD (k / 4 * 4 + 3))) ∧
          g1.exec.getLsbD k = (g.live.getLsbD k || g1.helper.getLsbD k))) ∧
  (∀ (s : State) (g : Group) (h : Hdr) (num : BitVec 12) (a : Opd), (Instr.mts h num a).wellFormed = true →
    s.group? s.cur = some g → g.active h = 0 →
    exec (.mts h num a) s = .next (s.finish g h [] [] none none))

/-- `XGROW` (R144, R145, R220), `XDROP` (R221), `QCFG` (R182, R222): a request for the halves selected and not held joins
the end of the core's queue, and the group waits for it; `XGROWBIG` above the core's limit; a dropped half is no longer
held; a queue gets its depth and base, without entries. -/
def Obligations.BlocksAndQueues : Prop :=
  (∀ (s : State) (g : Group) (h : Hdr) (lo hi : Bool) (n : Nat), (Instr.xgrow h lo hi).wellFormed = true →
    s.group? s.cur = some g → n = (lo && !g.lo).toNat + (hi && !g.hi).toNat →
    (n = 0 → exec (.xgrow h lo hi) s = .next (s.finish g h [] [] none none)) ∧
    (n ≠ 0 → (s.core (g.core.getD 0)).xlimit.toNat < g.blocks + n →
      exec (.xgrow h lo hi) s = .next (s.take { g with wait := none } (trapOf .xgrowbig))) ∧
    (n ≠ 0 → g.blocks + n ≤ (s.core (g.core.getD 0)).xlimit.toNat →
      ∃ t g' r, exec (.xgrow h lo hi) s = .next t ∧ t.group? g.id = some g' ∧ r.gid = g.id ∧ r.blocks = n ∧
        (g.core.getD 0 < 272 → (t.core (g.core.getD 0)).poolReqs = (s.core (g.core.getD 0)).poolReqs ++ [r]) ∧
        g'.wait = some (.xgrow (lo && !g.lo) (hi && !g.hi) h.sw) ∧ g'.pc = nextSlot g.pc ∧ g'.lo = g.lo ∧ g'.hi = g.hi)) ∧
  (∀ (s : State) (g : Group) (h : Hdr) (lo hi : Bool), (Instr.xdrop h lo hi).wellFormed = true →
    s.group? s.cur = some g →
    ∃ (g1 : Group) (s1 : State), exec (.xdrop h lo hi) s = .next (s1.finish g1 h [] [] none none) ∧
      s1 = (if (lo = true ∧ g.lo = true) ∨ (hi = true ∧ g.hi = true) then s.modCore (g.core.getD 0)
        (fun c => { c with growing := c.growing && (s.setGroup g1).holdsPool (g.core.getD 0) }) else s) ∧
      g1.lo = (g.lo && !lo) ∧ g1.hi = (g.hi && !hi) ∧ g1.v = g.v ∧ g1.x = g.x ∧ g1.m = g.m ∧ g1.exec = g.exec ∧
      (lo = true → g.lo = true → ∀ b ∈ g1.bypass, RegWrite.inV 32 48 b.w = false) ∧
      (hi = true → g.hi = true → ∀ b ∈ g1.bypass, RegWrite.inV 48 64 b.w = false) ∧
      (lo = false ∨ g.lo = false → hi = false ∨ g.hi = false → g1 = g)) ∧
  (∀ (s : State) (g g1 : Group) (h : Hdr) (qi : BitVec 3) (depth : BitVec 4) (base : BitVec 6),
    (Instr.qcfg h qi depth base).wellFormed = true → s.group? s.cur = some g →
    (∀ k, k < depth.toNat → g.holdsV (base.toNat + k) = true) →
    g1 = { g with q := vset g.q qi.toNat ⟨depth, base, 0, 0⟩ } →
    exec (.qcfg h qi depth base) s = .next (s.finish g1 h [] [] none none))

/-! ## Control -/

namespace Sys2Proof.Claims

/-- The truth of a test (R224). -/
def testPasses (g : Group) (t : Test) : Prop :=
  match t with
  | .always => True
  | .flag ci .z neg => (g.cVal ci).getLsbD 0 ≠ neg
  | .flag ci .n neg => (g.cVal ci).getLsbD 1 ≠ neg
  | .flag ci .c neg => (g.cVal ci).getLsbD 2 ≠ neg
  | .flag ci .o neg => (g.cVal ci).getLsbD 3 ≠ neg
  | .maskZero mi => g.mVal mi = 0
  | .maskNonzero mi => g.mVal mi ≠ 0

/-- The address of a target (R157): of a displacement in lines from the line of the slot and a slot, or a register. -/
def address (g : Group) (t : Target) : Word64 :=
  match t with
  | .direct disp slot => (g.pc &&& ~~~63#64) + disp.signExtend 64 * 64 + 12 * slot.setWidth 64
  | .indirect n => g.xVal n

/-- A line that a group reads as code has its bits b, and its parity is as it should be (R92, R157). -/
def codeAt (s : State) (g : Group) (line : Word64) (b : BitVec 512) : Prop :=
  s.codeLine (s.accessor g) line = .ok b ∧ lineParity b = b.extractLsb' 480 16

/-- A target that a transfer may enter at slot k (R157): its line can be read and marks the slot. -/
def mayEnter (s : State) (g : Group) (a : Word64) (k : Nat) : Prop :=
  k ≤ 4 ∧ a.toNat % 64 = 12 * k ∧ ∃ b, codeAt s g (lineAddr a) b ∧ (lineWord b).getLsbD (27 + k) = true

/-- The read of a target's line: no data access, but its translation is looked up (R415). -/
def fetched (a : Word64) : List Touch :=
  [⟨lineAddr a, 64, false, false⟩]

/-- The reads of a call: its target's line and the line of the entry record before it (R95, R157). -/
def called (a : Word64) : List Touch :=
  fetched a ++ fetched (a - 64)

/-- A fault of an instruction that has looked up the lines of some reads: they are counted and held (R415, R424). -/
def faultsAfter (s : State) (g : Group) (ts : List Touch) (c : Cause) (addr : Word64) : State :=
  let ls := ts.map (fun t => t.va)
  (s.lookUpAll g ls).take { g with wait := none } { trapAt c addr with looked := ls }

end Sys2Proof.Claims

/-- `BRA` and `JMP` (R156, R157, R224): where the test passes and the target may be entered the group goes on there; a
target whose line can be read and whose low bits are no slot's takes `BADTGT`; one whose line cannot be read takes that
cause, whatever its low bits; where the test fails it goes on at the next slot. A line read with a parity mismatch is logged
first, and the transfer does what it does otherwise (R177).

`CALL` and `RET` (R95, R157, R225): with a record of the same width rule and its halves held, the link register gets
the address of the next slot and the group goes on at the target; `RET` goes to the address in its register. -/
def Obligations.BranchesAndCalls : Prop :=
  (∀ (s : State) (g : Group) (h : Hdr) (i : Instr) (t : Target) (test : Test) (k : Nat),
     ((∃ disp slot, t = .direct disp slot ∧ i = .bra h disp slot test) ∨ (∃ n, t = .indirect n ∧ i = .jmp h n test)) →
     i.wellFormed = true → s.group? s.cur = some g →
     (Claims.testPasses g test → Claims.mayEnter s g (Claims.address g t) k →
       exec i s = .next (s.finish g h [] [] (some (Claims.address g t)) none (Claims.fetched (Claims.address g t)))) ∧
     (∀ b, Claims.testPasses g test → Claims.codeAt s g (lineAddr (Claims.address g t)) b →
       (∀ j ≤ 4, (Claims.address g t).toNat % 64 ≠ 12 * j) →
       exec i s = .next (Claims.faultsAfter s g (Claims.fetched (Claims.address g t)) .badtgt (Claims.address g t))) ∧
     (∀ c, Claims.testPasses g test → s.locOf (s.accessor g) .fetch (lineAddr (Claims.address g t)) = .error c →
       exec i s = .next ((s.lookUpAll g [lineAddr (Claims.address g t)]).take { g with wait := none }
         (lineTrap c (lineAddr (Claims.address g t))))) ∧
     (∀ b l s1 g1, Claims.testPasses g test → s.codeLine (s.accessor g) (lineAddr (Claims.address g t)) = .ok b →
       lineParity b ≠ b.extractLsb' 480 16 → g.wait = none → k ≤ 4 → (Claims.address g t).toNat % 64 = 12 * k →
       (lineWord b).getLsbD (27 + k) = true → (∀ d < 4, (s.die d).elsizel = 0) →
       l = s.fetchLine (s.accessor g) (lineAddr (Claims.address g t)) → s1 = s.logParity g l →
       g1 = { g with evpend := if g.core ≠ none then g.evpend ||| 2 else g.evpend } →
       exec i s = .next (s1.finish g1 h [] [] (some (Claims.address g t)) none (Claims.fetched (Claims.address g t)))) ∧
     (¬ Claims.testPasses g test → exec i s = .next (s.finish g h [] [] none none))) ∧
  ((∀ (s : State) (g : Group) (h : Hdr) (t : Target) (n : BitVec 6) (rec : BitVec 512),
     (Instr.call h t (.x n)).wellFormed = true → s.group? s.cur = some g →
     Claims.mayEnter s g (Claims.address g t) 0 →
     Claims.codeAt s g (lineAddr (Claims.address g t) - 64) rec → recordOk rec = true →
     (bitsN rec 105 104 = 0 → (32 < bitsN rec 102 96 → g.lo = true) → (48 < bitsN rec 102 96 → g.hi = true) →
       exec (.call h t (.x n)) s
         = .next (s.finish g h [.x n (nextSlot g.pc)] [] (some (Claims.address g t)) none
           (Claims.called (Claims.address g t)))) ∧
     (bitsN rec 105 104 ≠ 0 → exec (.call h t (.x n)) s
         = .next (Claims.faultsAfter s g (Claims.called (Claims.address g t)) .badwidth (Claims.address g t)))) ∧
   (∀ (s : State) (g : Group) (h : Hdr) (n : BitVec 6), (Instr.ret h (.x n)).wellFormed = true →
     s.group? s.cur = some g → slotOk (g.xVal n) = true → (h.sw = true → g.pend = []) →
     ∃ t g', exec (.ret h (.x n)) s = .next t ∧ t.group? g.id = some g' ∧ g'.pc = g.xVal n ∧ g'.x = g.x ∧ g'.v = g.v ∧
       g'.lastsp = 0xFFFF_FFFF ∧ t.mem = s.mem))


/-- `NOP` and `MARK` (R191, R229): nothing but the advance; with block tracing on, one trace record of the block id under
the next sequence number of the group's slot.

`EXIT` (R136, R228, R244): the lanes of `active` end, and the helper lanes of a quad left without a live lane; a group
left without a live lane is gone, its slot and its requests with it; at call depth 1 or more it is a `BADWIDTH` fault. -/
def Obligations.MarksAndExits : Prop :=
  ((∀ (s : State) (g : Group) (h : Hdr), (Instr.nop h).wellFormed = true → s.group? s.cur = some g →
     exec (.nop h) s = .next (s.finish g h [] [] none none)) ∧
   (∀ (s : State) (g : Group) (h : Hdr) (c : BitVec 32), (Instr.mark h c).wellFormed = true → s.group? s.cur = some g →
     (s.part (s.accessor g).part).btrace = false →
     exec (.mark h c) s = .next (s.finish g h [] [] none none)) ∧
   (∀ (s : State) (g : Group) (h : Hdr) (c : BitVec 32), (Instr.mark h c).wellFormed = true → s.group? s.cur = some g →
     (s.part (s.accessor g).part).btrace = true →
     exec (.mark h c) s = .next (((s.nextSeq g).2.trace (s.accessor g).part
       (traceRec s.time (s.nextSeq g).1 g.gid16 c 1)).finish g h [] [] none none))) ∧
  (∀ (s : State) (g : Group) (h : Hdr), (Instr.exit h).wellFormed = true → s.group? s.cur = some g → g.mode = .user →
     (g.depth ≠ 0 → exec (.exit h) s = .next (s.take { g with wait := none } (trapOf .badwidth))) ∧
     (g.depth = 0 → g.live &&& ~~~g.active h ≠ 0 →
       ∃ g1, exec (.exit h) s = .next (s.finish g1 h [] [] none none) ∧
         g1 = { g with exec := g1.exec, helper := g1.helper } ∧
         g1.live = g.live &&& ~~~g.active h ∧
         (∀ k, g1.helper.getLsbD k = true ↔ g.helper.getLsbD k = true ∧ (g.active h).getLsbD k = false ∧ k < 64 ∧
           ∃ j < 4, g1.live.getLsbD (k / 4 * 4 + j) = true)) ∧
     (g.depth = 0 → g.gang = none → g.live &&& ~~~g.active h = 0 →
       ∃ t, exec (.exit h) s = .next t ∧ t.group? g.id = none ∧
         (∀ c, g.core = some c → (∀ r ∈ (t.core c).poolReqs, r.gid ≠ g.id) ∧ ∀ r ∈ (t.core c).tileReqs, r.gid ≠ g.id) ∧
         ((∀ k ∈ s.groups, ∀ w r, k.wait ≠ some (.gang w r)) → t.mem = s.mem)))


namespace Sys2Proof.Claims

/-- The item of a lane (R152, R155): its four words, and the team whose spawn counter it charges, in a spawned group the one
that its own item charged. -/
def itemOf (g : Group) (n : BitVec 6) (lane : Nat) : SpawnItem :=
  ⟨vecOf 4 (fun k => g.vLane (n + BitVec.ofNat 6 k) lane),
    match g.kind with | .spawned charge => charge.getD lane g.team | _ => g.team⟩

/-- An unfired bin of a grid and an entry with room (R152). -/
def open_ (launch : Nat) (a : Word64) (b : Bin) : Bool :=
  !b.fired && (match b.work with
    | .spawn l e _ items => decide (l = launch) && decide (e = a) && decide (items.length < 64)
    | .call .. => false)

/-- A bin that fires (R153, R154). -/
def fires (k : Core) (i : Nat) (b : Bin) (now : Word64) : Core :=
  { k with fired := k.fired + 1, bins := k.bins.set i { b with fired := true, ord := k.fired + 1, since := now } }

/-- One item is posted (R152, R153): to the first open bin of its grid and entry, which fires with its 64th item, or to a
new bin where the core has fewer than 16; none where it has no place. -/
def post (launch : Nat) (a : Word64) (vregs : Nat) (now : Word64) (k : Core) (x : SpawnItem) : Option Core :=
  match k.bins.findIdx? (open_ launch a) with
  | some i =>
    match k.bins[i]? with
    | some ⟨.spawn l e v items, opened, fired, ord, since, raised⟩ =>
      let b : Bin := ⟨.spawn l e v (items ++ [x]), opened, fired, ord, since, raised⟩
      some (if items.length = 63 then fires { k with bins := k.bins.set i b } i b now
        else { k with bins := k.bins.set i b })
    | _ => none
  | none =>
    if k.bins.length < 16 then some { k with bins := k.bins ++ [⟨.spawn launch a vregs [x], now, false, 0, now, false⟩] } else none

end Sys2Proof.Claims

/-- `SPAWN` (R152 to R155, R226): without contributors nothing, whatever the target. Else the items of the contributors are
posted in ascending order of lanes, each raising the spawn counter of the team that it charges. Where an item has no place, the
items before it are posted, the unfired bin opened first fires (of those opened at once the first of the core's list, log entry
46, DEDUCED), and the group waits at its slot. `SPWAIT` (R227): it goes on where
the counter is at most the value, and waits where it is above. -/
def Obligations.Spawning : Prop :=
  (∀ (s : State) (g : Group) (h : Hdr) (disp : BitVec 20) (slot : BitVec 3) (n : BitVec 6),
    (Instr.spawn h disp slot (.v n)).wellFormed = true → s.group? s.cur = some g → g.mode = .user → g.contributors h = 0 →
    exec (.spawn h disp slot (.v n)) s = .next (s.finish g h [] [] none none)) ∧
  (∀ (s : State) (g : Group) (h : Hdr) (disp : BitVec 20) (slot : BitVec 3) (n : BitVec 6) (rec : BitVec 512)
      (a : Word64) (t : Team) (c : Nat) (lanes : List Nat), a = Claims.address g (.direct disp slot) →
    (Instr.spawn h disp slot (.v n)).wellFormed = true → s.group? s.cur = some g → g.mode = .user → g.prog = 0 →
    Claims.mayEnter s g a 0 → Claims.codeAt s g (lineAddr a - 64) rec → recordOk rec = true →
    bitsN rec 105 104 = 0 → bitsN rec 115 112 ≤ 4 → g.holdsRange n.toNat 4 = true → s.team? g.team = some t →
    g.core = some c → c < 272 → lanes = lanesOf (g.contributors h) → lanes ≠ [] →
    (∀ k, lanes.foldlM (fun k i => Claims.post t.launch a (bitsN rec 102 96) s.time k (Claims.itemOf g n i)) (s.core c)
        = some k →
      ∃ (s1 : State) (g1 : Group), exec (.spawn h disp slot (.v n)) s
          = .next (s1.finish g1 h [] [] none none (Claims.called a)) ∧
        s1.core c = k ∧ s1.mem = s.mem ∧ g1 = { g with prog := g1.prog } ∧
        ∀ tm ∈ s.teams, s.team? tm.id = some tm → (s1.team? tm.id).map (·.spawned)
          = some (tm.spawned + BitVec.ofNat 32 (lanes.countP (fun i => decide ((Claims.itemOf g n i).charge = tm.id))))) ∧
    (∀ pre i post k j b, lanes = pre ++ i :: post →
      pre.foldlM (fun k i => Claims.post t.launch a (bitsN rec 102 96) s.time k (Claims.itemOf g n i)) (s.core c) = some k →
      Claims.post t.launch a (bitsN rec 102 96) s.time k (Claims.itemOf g n i) = none →
      k.bins[j]? = some b → b.fired = false → (∀ j' b', k.bins[j']? = some b' → b'.fired = false →
        b.opened.toNat ≤ b'.opened.toNat ∧ (j' < j → b.opened.toNat < b'.opened.toNat)) →
      ∃ (u : State) (g' : Group), exec (.spawn h disp slot (.v n)) s = .next u ∧ u.group? g.id = some g' ∧ g'.pc = g.pc ∧
        g'.wait = some .queue ∧ (u.core c).bins = (Claims.fires k j b s.time).bins ∧ u.mem = s.mem ∧
        ∀ l, g'.prog.getLsbD l = decide (l ∈ pre))) ∧
  (∀ (s : State) (g : Group) (h : Hdr) (n : BitVec 6) (t : Team), (Instr.spwait h (.x n)).wellFormed = true →
    s.group? s.cur = some g → s.team? g.team = some t → (∀ c, g.kind ≠ .spawned c) →
    (t.spawned.toNat ≤ (g.xVal n).toNat % 2 ^ 32 → exec (.spwait h (.x n)) s = .next (s.finish g h [] [] none none)) ∧
    ((g.xVal n).toNat % 2 ^ 32 < t.spawned.toNat →
      ∃ u g', exec (.spwait h (.x n)) s = .next u ∧ u.group? g.id = some g' ∧ g'.wait = some .barrier ∧ g'.pc = g.pc))


/-! ## Exceptions -/

namespace Sys2Proof.Claims

/-- The cause record of R403: cause, lane, second of a pair, detail, delivery point; address; faulting slot; ordinal. -/
def record (s : State) (g : Group) (t : Trap) : CauseRec :=
  { x56 := BitVec.ofNat 64 (t.cause.code + (match t.lane with | some l => (l % 64) * 256 + 2 ^ 14 | none => 0) +
      (if s.isSecond g (match t.late with | some (a, _) => a | none => g.pc) then 2 ^ 15 else 0) +
      t.detail.toNat * 65536 + (if t.late.isSome then 2 ^ 48 else 0))
    x57 := t.addr
    x58 := match t.late with | some (a, _) => a | none => g.pc
    x59 := (match t.late with | some (_, o) => o | none => spordOf (s.ordinal g g.pc)).setWidth 64 }

/-- What an entry leaves of a group (R404): the mode, the address, the live lanes only, condition registers and `FSTAT` 0,
the record in `X56` to `X59`, 0 in `X60` to `X63`, an empty bypass and no outstanding result; the rest as it was. -/
def entered (g g' : Group) (m : Mode) (pc : Word64) (r : CauseRec) : Prop :=
  g'.mode = m ∧ g'.pc = pc ∧ g'.exec = g.exec &&& ~~~g.helper ∧ g'.helper = 0 ∧ g'.c = Vector.replicate 4 0 ∧ g'.fstat = 0 ∧
    g'.bypass = [] ∧ g'.pend = [] ∧ g'.v = g.v ∧ g'.m = g.m ∧ g'.q = g.q ∧ g'.t = g.t ∧ g'.srseed = g.srseed ∧
    g'.srctr = g.srctr ∧ g'.halted = g.halted ∧
    ∀ i, i < 64 → vget g'.x i 0 =
      if i = 56 then r.x56 else if i = 57 then r.x57 else if i = 58 then r.x58 else if i = 59 then r.x59
      else if 60 ≤ i then 0 else vget g.x i 0

/-- What an entry keeps of a group in the level's shadow set (R404). -/
def shadows (g : Group) (sh : Shadow) (ret : Word64) (r : CauseRec) : Prop :=
  sh.ret = ret ∧ sh.mode = g.mode ∧ sh.exec = g.exec ∧ sh.helper = g.helper ∧ sh.c = g.c ∧ sh.fstat = g.fstat ∧
    sh.srctr = g.srctr ∧ sh.bypass = g.bypass ∧ sh.pend = g.pend ∧ sh.prog = g.prog ∧ sh.cause = r ∧
    ∀ i, i < 8 → vget sh.x i 0 = vget g.x (56 + i) 0

end Sys2Proof.Claims

/-- Taking a fault (R401 to R406): in user mode to the partition's handler, or to the core supervisor for its causes; a
handler's fault to the supervisor or a double-fault halt; a supervisor's fault a halt; no handler a halt. The return
address is the pc. -/
def Obligations.TakesFaults : Prop :=
  ∀ (s : State) (g : Group) (t : Trap) (r : CauseRec), s.group? g.id = some g → r = Claims.record s g t →
    (g.mode = .user → t.cause.isS = false → s.ptvec g ≠ 0 → s.handlerOk g (s.ptvec g) = true →
      ∃ g' sh, (s.take g t).group? g.id = some g' ∧ Claims.entered g g' .handler (s.ptvec g) r ∧ g'.hset = some sh ∧
        g'.sset = g.sset ∧ Claims.shadows g sh g.pc r) ∧
    (g.mode ≠ .supervisor → t.cause.isS = true →
      ∃ g' sh, (s.take g t).group? g.id = some g' ∧
        Claims.entered g g' .supervisor (s.core (g.core.getD 0)).svec r ∧ g'.sset = some sh ∧ g'.hset = g.hset ∧
        Claims.shadows g sh g.pc r) ∧
    (g.mode = .user → t.cause.isS = false → (s.ptvec g = 0 ∨ s.handlerOk g (s.ptvec g) = false) →
      ∃ g', (s.take g t).group? g.id = some g' ∧ g'.halted = some .nohandler ∧ g'.pc = g.pc ∧ g'.mode = g.mode) ∧
    (g.mode = .handler → t.cause.isS = false →
      ∃ g', (s.take g t).group? g.id = some g' ∧ g'.halted = some .dblfault ∧ g'.pc = g.pc ∧ g'.mode = g.mode) ∧
    (g.mode = .supervisor →
      ∃ g', (s.take g t).group? g.id = some g' ∧ g'.halted = some .supfault ∧ g'.pc = g.pc ∧ g'.mode = g.mode)

/-- `TRAP` and `BKPT` in user mode (R230, R401 to R404): the entry with their cause and code, the return address the next
slot; a `BKPT` of a context with armed breakpoints is a hit that stops the group instead, and a group released from it
goes on.

A `BKPT` under armed breakpoints (R230, R428, R434). -/
def Obligations.TrapsEnter : Prop :=
  (∀ (s : State) (g : Group) (h : Hdr) (i : Instr) (c : Cause) (code : BitVec 32) (r : CauseRec),
     (i = .trap h code ∧ c = .trap ∨ i = .bkpt h code ∧ c = .bkpt ∧ (s.part (s.accessor g).part).arm = false) →
     i.wellFormed = true → s.group? s.cur = some g → g.mode = .user → (h.sw = true → g.pend = []) → s.ptvec g ≠ 0 →
     s.handlerOk g (s.ptvec g) = true → (s.fetchLine (s.accessor g) (s.ptvec g)).mismatch = false →
     r = Claims.record s g { cause := c, detail := code } →
     ∃ t g' sh, exec i s = .next t ∧ t.group? g.id = some g' ∧ Claims.entered g g' .handler (s.ptvec g) r ∧
       g'.hset = some sh ∧ sh.ret = nextSlot g.pc ∧ sh.mode = .user ∧ sh.exec = g.exec ∧ sh.helper = g.helper ∧
       (∀ k, k < 8 → vget sh.x k 0 = vget g.x (56 + k) 0) ∧ t.mem = s.mem) ∧
  (∀ (s : State) (g : Group) (h : Hdr) (code : BitVec 32), (Instr.bkpt h code).wellFormed = true →
     s.group? s.cur = some g → (s.part (s.accessor g).part).arm = true →
     (g.pass = .bkpt → exec (.bkpt h code) s = .next (s.finish g h [] [] none none)) ∧
     (g.pass ≠ .bkpt → (s.accessor g).part < 8 →
       ∃ t g', exec (.bkpt h code) s = .next t ∧ t.group? g.id = some g' ∧ g'.stopped = true ∧ g'.pc = g.pc ∧
         (t.part (s.accessor g).part).halted = true ∧
         ((s.part (s.accessor g).part).hits.length < 16 →
           ∃ hit, (t.part (s.accessor g).part).hits = (s.part (s.accessor g).part).hits ++ [hit] ∧
             bitsN hit 87 80 = 2)))


namespace Sys2Proof.Claims

/-- The instructions that a handler and the supervisor may not issue (R408). -/
def userOnly (i : Instr) : Prop :=
  ∃ h, (∃ team t sel b, i = .wcall h team t sel b ∨ i = .gcall h team t sel b) ∨ (∃ sel b, i = .wret h sel b) ∨
    (∃ disp slot b, i = .spawn h disp slot b) ∨ (∃ a, i = .gang h a) ∨
    (∃ ty kc za rm d a b ids, i = .mma h ty kc za rm d a b ids) ∨ i = .exit h ∨
    (∃ tile d a b c e, i = .coll h tile d a b c e) ∨ (∃ a b, i = .dsend h a b) ∨ ∃ d a e, i = .qpush h true d a e

/-- What a return from a level leaves (R408): every shadowed item back, the level's set used up, the rest as it was. -/
def restored (g g' : Group) (sh : Shadow) (pc : Word64) : Prop :=
  g'.mode = sh.mode ∧ g'.pc = pc ∧ g'.exec = sh.exec ∧ g'.helper = sh.helper ∧ g'.c = sh.c ∧ g'.fstat = sh.fstat ∧
    g'.srctr = sh.srctr ∧ g'.bypass = sh.bypass ∧ g'.pend = sh.pend ∧ g'.v = g.v ∧ g'.m = g.m ∧ g'.q = g.q ∧ g'.t = g.t ∧
    g'.wait = none ∧ (∀ i, i < 64 → vget g'.x i 0 = if 56 ≤ i then vget sh.x (i - 56) 0 else vget g.x i 0)

end Sys2Proof.Claims

/-- `ERET` and `ERET.SKIP` (R408): from the handler or the supervisor back to where the level was entered, or to the slot
after the faulting one; `ERET.FWD`, from the supervisor, hands the cause on to the handler of the user mode it came from. That
it hands on what `X56` to `X59` hold at the `ERET`, where R408 says the record as saved, is the model's choice (log entry 33,
DEDUCED). In user mode each of them takes `PRIV`.

An entry followed by its return is transparent (R404, R408): the group is what it was, but for the counters of the
last stop site (R425), and waits for nothing; `HRET` keeps the handler's return address (R410; log entry 9, DESIGN CHOICE).

The instructions that only user mode may issue are `ILLOP` in a handler or the supervisor (R408), as the rule lists them. -/
def Obligations.ReturnsRestore : Prop :=
  ((∀ (s : State) (g : Group) (h : Hdr) (i : Instr) (skip : Bool) (sh : Shadow) (a : Word64),
     i = (if skip then .eretSkip h else .eret h) → i.wellFormed = true → s.group? s.cur = some g →
     (g.mode = .handler ∧ g.hset = some sh ∨ g.mode = .supervisor ∧ g.sset = some sh) → (h.sw = true → g.pend = []) →
     a = (if skip then (if sh.cause.x56.getLsbD 48 then sh.ret else nextSlot sh.cause.x58) else sh.ret) →
     slotOk a = true →
     ∃ t g', exec i s = .next t ∧ t.group? g.id = some g' ∧ Claims.restored g g' sh a ∧
       g'.prog = (if skip then 0 else sh.prog) ∧
       (g.mode = .handler → g'.hset = none ∧ g'.sset = g.sset) ∧ (g.mode = .supervisor → g'.sset = none ∧ g'.hset = g.hset) ∧
       t.mem = s.mem) ∧
   (∀ (s : State) (g : Group) (h : Hdr) (sh : Shadow) (r : CauseRec), (Instr.eretFwd h).wellFormed = true →
     s.group? s.cur = some g → g.mode = .supervisor → g.sset = some sh → sh.mode = .user → (h.sw = true → g.pend = []) →
     s.ptvec g ≠ 0 → s.handlerOk g (s.ptvec g) = true → r = ⟨g.xVal 56, g.xVal 57, g.xVal 58, g.xVal 59⟩ →
     ∃ t g' sh', exec (.eretFwd h) s = .next t ∧ t.group? g.id = some g' ∧ g'.mode = .handler ∧ g'.pc = s.ptvec g ∧
       vget g'.x 56 0 = r.x56 ∧ vget g'.x 57 0 = r.x57 ∧ vget g'.x 58 0 = r.x58 ∧ vget g'.x 59 0 = r.x59 ∧
       g'.sset = none ∧ g'.hset = some sh' ∧ sh'.ret = sh.ret ∧ sh'.mode = .user ∧ sh'.exec = sh.exec) ∧
   (∀ (s : State) (g : Group) (h : Hdr) (i : Instr), (i = .eret h ∨ i = .eretSkip h ∨ i = .eretFwd h) →
     i.wellFormed = true → s.group? s.cur = some g → g.mode = .user →
     exec i s = .next (s.take { g with wait := none } (trapOf .priv)))) ∧
  (∀ (g g1 g2 : Group) (m : Mode) (pc ret : Word64) (r : CauseRec) (sh : Shadow), sh = g.shadow ret r →
     (m = .handler ∧ g.hset = none ∧ g1 = ({ g with hset := some sh }.enter .handler pc r) ∨
      m = .supervisor ∧ g.sset = none ∧ g1 = ({ g with sset := some sh }.enter .supervisor pc r)) →
     g2 = { g with
       pc := ret, wait := none, lastsp := 0xFFFF_FFFF, steps := 0, pass := .no,
       hret := if m = .handler then some ret else g.hret, firmware := if m = .handler then g.firmware else none } →
     g1.innermost = some sh ∧ g1.leave sh ret = g2) ∧
  (∀ (s : State) (g : Group) (i : Instr), Claims.userOnly i → i.wellFormed = true → s.group? s.cur = some g →
     g.mode ≠ .user → exec i s = .next (s.take { g with wait := none } (trapOf .illop)))


/-- System registers (R7, R408, R410): in supervisor mode `MFSR` reads and `MTSR` writes `SVEC`, `HRET`, `SRET`; a write
to `SMODE` is ignored; in another mode each of them, and `TLBINV`, takes `PRIV`. That `HRET`, while no handler set is in use,
reads what last stood there and is written there is the model's choice (log entry 9, DESIGN CHOICE).

`TLBINV` (R415): in supervisor mode the group waits at it for the invalidation.
`WAITEV` (R409): it waits while none of the events of its mask is pending; else it returns and clears those that are. -/
def Obligations.SystemInstructions : Prop :=
  ((∀ (s : State) (g : Group) (h : Hdr) (n : BitVec 6) (num : BitVec 16) (v : Word64),
     (Instr.mfsr h (.x n) num).wellFormed = true → s.group? s.cur = some g → g.mode = .supervisor →
     (num = 0x0000 ∧ v = (s.core (g.core.getD 0)).svec ∨ (∃ sh, num = 0x0010 ∧ g.hset = some sh ∧ v = sh.ret) ∨
       num = 0x0010 ∧ g.hset = none ∧ g.hret = some v ∨
       (∃ sh, num = 0x0011 ∧ g.sset = some sh ∧ v = sh.ret) ∨
       (∃ sh, num = 0x0012 ∧ g.sset = some sh ∧ v = BitVec.ofNat 64 sh.mode.code)) →
     exec (.mfsr h (.x n) num) s = .next (s.finish g h [] [{ writes := [.x n v] }] none none)) ∧
   (∀ (s : State) (g : Group) (h : Hdr) (n : BitVec 6), (Instr.mtsr h (.x n) 0x0000).wellFormed = true →
     s.group? s.cur = some g → g.mode = .supervisor →
     exec (.mtsr h (.x n) 0x0000) s = .next ((s.modCore (g.core.getD 0) (fun c => { c with svec := g.xVal n })).finish g h
       [] [] none none)) ∧
   (∀ (s : State) (g g1 : Group) (h : Hdr) (n : BitVec 6) (num : BitVec 16), (Instr.mtsr h (.x n) num).wellFormed = true →
     s.group? s.cur = some g → g.mode = .supervisor →
     (num = 0x0010 ∧ g1 = (match g.hset with
         | some sh => { g with hset := some { sh with ret := g.xVal n } }
         | none => { g with hret := some (g.xVal n) }) ∨
       num = 0x0011 ∧ g1 = { g with sset := g.sset.map (fun sh => { sh with ret := g.xVal n }) } ∨
       num = 0x0012 ∧ g1 = g) →
     exec (.mtsr h (.x n) num) s = .next (s.finish g1 h [] [] none none)) ∧
   (∀ (s : State) (g : Group) (h : Hdr) (r : Opd) (num : BitVec 16) (sc : TlbScope) (i : Instr),
     (i = .mfsr h r num ∨ i = .mtsr h r num ∨ i = .tlbinv h sc r) → i.wellFormed = true → s.group? s.cur = some g →
     g.mode ≠ .supervisor → s.held g = false →
     exec i s = .next (s.take { g with wait := none } (trapOf .priv)))) ∧
  ((∀ (s : State) (g : Group) (h : Hdr) (sc : TlbScope) (n : BitVec 6), (Instr.tlbinv h sc (.x n)).wellFormed = true →
     s.group? s.cur = some g → g.mode = .supervisor → s.held g = false →
     ∃ t g', exec (.tlbinv h sc (.x n)) s = .next t ∧ t.group? g.id = some g' ∧ g'.pc = nextSlot g.pc ∧
       g'.wait = some (.tlbinv sc (g.xVal n) h.sw) ∧ t.mem = s.mem) ∧
   (∀ (s : State) (g : Group) (h : Hdr) (n : BitVec 6) (mask : BitVec 16),
     (Instr.waitev h (.x n) mask).wellFormed = true → s.group? s.cur = some g →
     (g.evpend &&& mask ≠ 0 → ∀ g1, g1 = { g with evpend := g.evpend &&& ~~~mask } →
       exec (.waitev h (.x n) mask) s
         = .next (s.finish g1 h [] [{ writes := [.x n ((g.evpend &&& mask).setWidth 64)] }] none none)) ∧
     (g.evpend &&& mask = 0 →
       ∃ t g', exec (.waitev h (.x n) mask) s = .next t ∧ t.group? g.id = some g' ∧ g'.pc = g.pc ∧
         g'.wait = some .barrier ∧ g'.evpend = g.evpend)))


/-! ## Memory -/

namespace Sys2Proof.Claims

/-- The lanes that access (R133): the lowest of `active` where the form runs once, else each of `active`. -/
def accesses (g : Group) (h : Hdr) (os : List Opd) (lane : Nat) : Prop :=
  if once h os then lowest (g.active h) = some lane else (g.active h).getLsbD lane = true

/-- The address of a lane (R256). -/
def addr (g : Group) (a : MemOpd) (lane : Nat) : Word64 :=
  BitVec.ofInt 64 ((g.srcLane a.base 64 lane).toNat + a.off.toInt)

/-- A lane's access of n bytes passes its checks and lands at loc, which carries no poison (R256 to R258, R420). -/
def lands (s : State) (g : Group) (use : Use) (a : MemOpd) (n lane loc : Nat) : Prop :=
  (addr g a lane).toNat % n = 0 ∧ s.place (s.accessor g) use (addr g a lane) = .ok (.mem loc) ∧ s.poisonIn loc n = none

/-- No earlier load holds the access back (R249, R301; log entry 21, DEDUCED) and no watchpoint is armed (R428). -/
def free (s : State) (g : Group) : Prop :=
  s.held g = false ∧ (s.part (s.accessor g).part).arm = false

/-- No earlier acquire load holds the instruction back (edge 5 of R301; log entry 21, DEDUCED) and no watchpoint is armed. -/
def freeAcq (s : State) (g : Group) : Prop :=
  s.heldAcq g = false ∧ (s.part (s.accessor g).part).arm = false

/-- The lanes of an access, ascending (R133). -/
def lanesThat (g : Group) (h : Hdr) (os : List Opd) : List Nat :=
  if once h os then (lowest (g.active h)).toList else lanesOf (g.active h)

/-- The accesses of n bytes of some lanes, as their translations are looked up and watched (R415, R428). -/
def accessesOf (g : Group) (a : MemOpd) (n : Nat) (rd : Bool) (wr : Nat → Bool) (lanes : List Nat) : List Touch :=
  lanes.map (fun i => ⟨addr g a i, n, rd, wr i⟩)

/-- The look-ups of the addresses of some lanes: no access (R274, R424). -/
def probes (g : Group) (a : MemOpd) (lanes : List Nat) : List Touch :=
  lanes.map (fun i => ⟨addr g a i, 1, false, false⟩)

/-- The pages that an instruction has probed, as their translations are looked up (R415). -/
def probed (ps : List Page) : List Touch :=
  ps.map (fun p => ⟨BitVec.ofNat 64 (p.va * 2 ^ 16), 1, false, false⟩)

/-- The 4-byte words of a core's slice that the lanes of a half touch, each with n bytes (R260). -/
def touched (core n half : Nat) (loc : Nat → Nat) (lanes : List Nat) : Finset Nat :=
  (lanes.toFinset.filter (fun i => i / 32 = half ∧ isScr (loc i) = true ∧ (scrOf (loc i)).1 = core)).biUnion
    (fun i => Finset.Icc (loc i / 4) ((loc i + n - 1) / 4))

/-- The passes of a half beyond the first: the most distinct words in one bank, less one (R260, R424). -/
def replays (words : Finset Nat) : Nat :=
  ((Finset.range 32).sup fun b => (words.filter (fun x => x % 32 = b)).card) - 1

/-- `BANKPASS` of the group's core after an access of n bytes by some lanes (R260, R424; log entry 55, DEDUCED). -/
def banked (s : State) (g : Group) (n : Nat) (loc : Nat → Nat) (lanes : List Nat) : State :=
  s.addEvent (g.core.getD 0) 2
    (replays (touched (g.core.getD 0) n 0 loc lanes) + replays (touched (g.core.getD 0) n 1 loc lanes))

/-- The bytes read, as the register gets them (R263). -/
def loaded (ty : ITy) (w v : Nat) : Code :=
  if ty.signed then ((BitVec.ofNat ty.width v).signExtend w).setWidth 128 else BitVec.ofNat 128 v

/-- One lane after the other: the old value of n bytes, and the new value where there is one (R259, R269, R270). -/
def updates (n : Nat) (loc : Nat → Nat) (f : Nat → Code → Option Code) (s : State) : List Nat → State × List (Nat × Code)
  | [] => (s, [])
  | i :: rest =>
    let old := BitVec.ofNat 128 (s.readNat (loc i) n)
    let s' := match f i old with | some v => s.writeNat (loc i) n v.toNat | none => s
    ((updates n loc f s' rest).1, (i, old) :: (updates n loc f s' rest).2)

/-- The lanes that do an update (R258): those that access and are no helpers, ascending. -/
def updaters (g : Group) (h : Hdr) (os : List Opd) : List Nat :=
  (lanesThat g h os).filter (fun i => !g.helper.getLsbD i)

/-- The writes of the old values of an update to its destination. -/
def oldWrites (g : Group) (h : Hdr) (os : List Opd) (d : Opd) (w : Nat) (old : Nat → Code) : List RegWrite :=
  if updaters g h os = [] then []
  else g.writesTo d false w (if once h os then g.active h else g.contributors h)
    (fun i => old (readLane (once h os) (g.active h) i))

end Sys2Proof.Claims

/-- Reading memory after writing it (R3, R295, R420): the bytes written are read back, every other byte is as it was; a unit
that is written whole loses its poison, no other unit does. That the canonical form is kept is about the model's own form of
memory (log entry 2, DESIGN CHOICE). -/
def Obligations.MemoryReadsBack : Prop :=
  ∀ (s : State) (loc : Nat) (bs : List Byte), Memory.wf s.mem = true →
    Memory.wf (s.write loc bs).mem = true ∧
    (∀ x, (s.write loc bs).read8 x = if loc ≤ x ∧ x < loc + bs.length then bs.getD (x - loc) 0 else s.read8 x) ∧
    (∀ n v, (s.writeNat loc n v).readNat loc n = v % 2 ^ (8 * n)) ∧
    (∀ u, u ∈ (s.write loc bs).poison ↔ u ∈ s.poison ∧ ¬ (loc ≤ u * 16 ∧ u * 16 + 16 ≤ loc + bs.length))

/-- `LD` (R133, R256 to R259, R263): where every lane's access passes its checks and its line is full, the load's result is
outstanding: each active lane gets its bytes, extended by the type. Memory and registers are as before; `BANKPASS`
counts as the banks require (R260, R424; which accesses it counts is log entry 55, DEDUCED). Earlier loads that wait on an empty
line hold it back only where they are acquire loads, where it reads their line, or where its page is strongly ordered (R299,
R301; log entry 21, DEDUCED). -/
def Obligations.LoadsRead : Prop :=
  ∀ (s : State) (g : Group) (h : Hdr) (ty : ITy) (sc : Scope) (ord : MemOrd) (d : Opd) (a : MemOpd) (w : Nat)
      (loc : Nat → Nat) (ws : List RegWrite),
    (Instr.ld h ty sc ord d a).wellFormed = true → s.group? s.cur = some g → Claims.freeAcq s g →
    (g.waitingLoads = [] ∨ ∀ lane, Claims.accesses g h [d, a.base] lane →
      s.strong (s.accessor g) (Claims.addr g a lane) = false ∧
        s.strong (s.accessor g) (Claims.addr g a lane + BitVec.ofNat 64 (ty.width / 8 - 1)) = false ∧
        (isScr (loc lane) = true → g.waitsOn (loc lane) s.nextId = false)) →
    g.checkHeld [(d, ty.width), (a.base, 64)] = .ok () →
    (∀ lane, Claims.accesses g h [d, a.base] lane → Claims.lands s g .read a (ty.width / 8) lane (loc lane) ∧
      (isScr (loc lane) = true → s.isFull (loc lane) = true)) →
    w = max ty.width (if d.isX then 64 else 32) →
    ws = (if g.active h = 0 then [] else g.writesTo d false w (g.active h) (fun lane =>
      Claims.loaded ty w (s.readNat (loc (Claims.readLane (Claims.once h [d, a.base]) (g.active h) lane))
        (ty.width / 8)))) →
    exec (.ld h ty sc ord d a) s = .next ((Claims.banked s g (ty.width / 8) loc (Claims.lanesThat g h [d, a.base])).finish
      g h [] [{ writes := ws, unit := .memory }] none none
        (Claims.accessesOf g a (ty.width / 8) true (fun _ => false) (Claims.lanesThat g h [d, a.base])))

/-- `ST` (R133, R256 to R259, R264, R420): every byte that a lane stores to holds that byte of the highest lane that stores
to it; every other byte of memory is as before, and so are all full/empty bits; a poisoned unit stored to whole is clean;
`BANKPASS` counts as the banks require (R260, R424; which accesses it counts is log entry 55, DEDUCED). -/
def Obligations.StoresWrite : Prop :=
  ∀ (s : State) (g : Group) (h : Hdr) (ty : ITy) (sc : Scope) (ord : MemOrd) (d : Opd) (a : MemOpd)
      (loc : Nat → Nat) (stores : Nat → Prop),
    (Instr.st h ty sc ord d a).wellFormed = true → s.group? s.cur = some g → Claims.free s g →
    Memory.wf s.mem = true → g.checkHeld [(d, ty.width), (a.base, 64)] = .ok () →
    stores = (fun lane => Claims.accesses g h [d, a.base] lane ∧ g.helper.getLsbD lane = false) →
    (∀ lane, stores lane → (Claims.addr g a lane).toNat % (ty.width / 8) = 0 ∧
      s.place (s.accessor g) .write (Claims.addr g a lane) = .ok (.mem (loc lane))) →
    ∃ s1 : State, exec (.st h ty sc ord d a) s = .next (s1.finish g h [] [] none none
        (Claims.accessesOf g a (ty.width / 8) false (fun _ => true) (Claims.updaters g h [d, a.base]))) ∧
      s1 = { Claims.banked s g (ty.width / 8) loc (Claims.updaters g h [d, a.base]) with mem := s1.mem, poison := s1.poison } ∧
      (∀ x, (∀ lane, stores lane → ¬ (loc lane ≤ x ∧ x < loc lane + ty.width / 8)) → s1.read8 x = s.read8 x) ∧
      (∀ lane k, stores lane → k < ty.width / 8 →
        (∀ j, lane < j → stores j → ¬ (loc j ≤ loc lane + k ∧ loc lane + k < loc j + ty.width / 8)) →
        s1.read8 (loc lane + k) = (g.srcLane d ty.width lane).extractLsb' (8 * k) 8) ∧
      (∀ u, u ∈ s1.poison ↔ u ∈ s.poison ∧
        ∀ lane, stores lane → ¬ (loc lane ≤ u * 16 ∧ u * 16 + 16 ≤ loc lane + ty.width / 8))

namespace Sys2Proof.Claims

/-- The supervisor's firmware has the group whose turn it is in its hands (R411), with the shadow set of the entry; r is the
group at the interrupted level, at the slot in `X58`. -/
def emulating (s : State) (g r : Group) (sh : Shadow) (f : Firmware) : Prop :=
  s.agenda = [] ∧ s.group? s.cur = some g ∧ s.teamRuns g = true ∧ g.halted = none ∧ g.stopped = false ∧
    g.mode = .supervisor ∧ g.sset = some sh ∧ g.firmware = some f ∧ s.firmwareParked g = false ∧
    r = g.restore sh sh.cause.x58

/-- The bytes of an access of n bytes: lanes ascending, addresses ascending (R411). -/
def bytesOfLanes (n : Nat) (lanes : List Nat) : List (Nat × Nat) :=
  lanes.flatMap (fun i => (List.range n).map (fun k => (i, k)))

/-- The bytes that the firmware has loaded, lane by lane: all n of a value, or none of a helper lane that would fault. -/
def gathered (got : List (Nat × Nat × Byte)) (n : Nat) (val : Nat → Option Nat) : Prop :=
  ∀ lane, (∀ v, val lane = some v → v < 2 ^ (8 * n)) ∧
    (got.filter (fun x => x.1 == lane)).map (fun x => x.2.2) = (match val lane with | some v => bytesOf n v | none => [])

end Sys2Proof.Claims

/-- A misaligned lane of a load or a store takes `MISALIGN` in the supervisor and nothing else happens (R257, R258): of
the lowest such lane where every other lane passes.

The supervisor's firmware then reads the instruction at `X58` (R411, R297). Of an `LD` or `ST` it accesses every lane's bytes,
one at a turn, ascending; of an `ST` no helper lane's. A byte stored stands in memory; a byte loaded is kept; one on an empty
scratchpad line waits; a helper lane of an `LD` that would fault is left out, and has 0. A byte that faults ends the emulation:
its cause, with its lane in `X56` and its address in `X57`, goes to the handler of the user mode. With no byte left the
interrupted instruction is complete and the group goes on behind it; that the value of an `LD` is then a long result which has
returned, one byte having been accessed at each turn, is the model's choice, R411 saying only that the firmware writes the
registers (log entry 8, DEDUCED). Any other instruction is handed on, and a helper lane that would fault is left out, by the
same entry (DESIGN CHOICE). -/
def Obligations.MisalignedAccesses : Prop :=
  (∀ (s : State) (g : Group) (h : Hdr) (ty : ITy) (sc : Scope) (ord : MemOrd) (d : Opd) (a : MemOpd) (lane : Nat)
      (loc : Nat → Nat) (i : Instr),
    (i = .ld h ty sc ord d a ∨ i = .st h ty sc ord d a) → i.wellFormed = true → s.group? s.cur = some g →
    s.held g = false → g.checkHeld [(d, ty.width), (a.base, 64)] = .ok () → g.helper = 0 →
    Claims.accesses g h [d, a.base] lane → (Claims.addr g a lane).toNat % (ty.width / 8) ≠ 0 →
    (∀ j, j < lane → Claims.accesses g h [d, a.base] j →
      Claims.lands s g (if i = .ld h ty sc ord d a then .read else .write) a (ty.width / 8) j (loc j)) →
    exec i s = .next ((s.lookUpAll g (((Claims.lanesThat g h [d, a.base]).takeWhile (· < lane)).map (Claims.addr g a))).take
      { g with wait := none } (trapLane .misalign lane (Claims.addr g a lane)))) ∧
  (∀ (s : State) (g r : Group) (sh : Shadow) (n : Nat) (i : Instr) (f : Firmware), Claims.emulating s g r sh .start →
    s.readVa (s.accessor g) .read sh.cause.x58 12 = .ok n → decode (BitVec.ofNat 96 n) = .ok i →
    ((∃ h ty sc ord d a, i = .ld h ty sc ord d a ∧ f = .bytes h true ty d a
        (Claims.bytesOfLanes (ty.width / 8) (Claims.lanesThat r h [d, a.base])) [] none) ∨
      (∃ h ty sc ord d a, i = .st h ty sc ord d a ∧ f = .bytes h false ty d a
        (Claims.bytesOfLanes (ty.width / 8) (Claims.updaters r h [d, a.base])) [] none) ∨
      (∀ h ty sc ord d a, i ≠ .ld h ty sc ord d a ∧ i ≠ .st h ty sc ord d a) ∧ f = .forward) →
    step s = .next ((s.lookUpAll g [sh.cause.x58]).setGroup { g with firmware := some f })) ∧
  (∀ (s : State) (g r : Group) (sh : Shadow) (h : Hdr) (ty : ITy) (d : Opd) (a : MemOpd) (lane k loc : Nat)
      (rest : List (Nat × Nat)) (got : List (Nat × Nat × Byte)) (w : Option WaitLane) (va : Word64),
    Claims.emulating s g r sh (.bytes h false ty d a ((lane, k) :: rest) got w) →
    va = Claims.addr r a lane + BitVec.ofNat 64 k → s.place (s.accessor r) .write va = .ok (.mem loc) →
    s.poison = [] → (s.part (s.accessor r).part).arm = false → Memory.wf s.mem = true →
    ∃ u : State, step s = .next u ∧ (∀ x, u.read8 x = if x = loc then
        (r.srcLane d ty.width lane).extractLsb' (8 * k) 8 else s.read8 x) ∧
      u.group? g.id = some { g with firmware := some (.bytes h false ty d a rest got none) }) ∧
  (∀ (s : State) (g r : Group) (sh : Shadow) (h : Hdr) (ty : ITy) (d : Opd) (a : MemOpd) (lane k loc : Nat)
      (rest : List (Nat × Nat)) (got : List (Nat × Nat × Byte)) (va : Word64) (wait : Option WaitLane),
    Claims.emulating s g r sh (.bytes h true ty d a ((lane, k) :: rest) got none) →
    va = Claims.addr r a lane + BitVec.ofNat 64 k → s.place (s.accessor r) .read va = .ok (.mem loc) →
    s.poison = [] → (s.part (s.accessor r).part).arm = false →
    ((isScr loc = true → s.isFull loc = true ∧ r.waitsOn loc s.nextId = false) →
      ∃ u : State, step s = .next u ∧ u.mem = s.mem ∧ u.group? g.id
        = some { g with firmware := some (.bytes h true ty d a rest (got ++ [(lane, k, s.read8 loc)]) none) }) ∧
    (isScr loc = true → s.isFull loc = false → wait = some (s.waitLane lane va loc) →
      step s = .next (s.setGroup { g with firmware := some (.bytes h true ty d a ((lane, k) :: rest) got wait) }))) ∧
  (∀ (s : State) (g r : Group) (sh : Shadow) (h : Hdr) (load : Bool) (ty : ITy) (d : Opd) (a : MemOpd) (lane k : Nat)
      (rest : List (Nat × Nat)) (got : List (Nat × Nat × Byte)) (w : Option WaitLane) (va : Word64) (c : Cause),
    Claims.emulating s g r sh (.bytes h load ty d a ((lane, k) :: rest) got w) →
    va = Claims.addr r a lane + BitVec.ofNat 64 k → s.place (s.accessor r) (if load then .read else .write) va = .error c →
    (load = true → r.helper.getLsbD lane = true → ∀ f, f = Firmware.bytes h true ty d a
        (rest.filter (fun x => x.1 != lane)) (got.filter (fun x => x.1 != lane)) none →
      step s = .next ((s.lookUpAll r [va]).setGroup { g with firmware := some f })) ∧
    ((load = true → r.helper.getLsbD lane = false) → sh.mode = .user → s.ptvec g ≠ 0 → s.handlerOk g (s.ptvec g) = true →
      (s.fetchLine { s.accessor g with sup := false } (s.ptvec g)).mismatch = false →
      ∃ (u : State) (g' : Group) (sh' : Shadow), step s = .next u ∧ u.group? g.id = some g' ∧ u.mem = s.mem ∧
        g'.mode = .handler ∧ g'.pc = s.ptvec g ∧ (vget g'.x 56 0).extractLsb' 0 8 = BitVec.ofNat 8 c.code ∧
        (vget g'.x 56 0).extractLsb' 8 6 = BitVec.ofNat 6 lane ∧ (vget g'.x 56 0).getLsbD 14 = true ∧
        vget g'.x 57 0 = va ∧ g'.sset = none ∧ g'.hset = some sh' ∧ sh'.ret = sh.ret ∧ sh'.mode = .user)) ∧
  (∀ (s : State) (g r : Group) (sh : Shadow) (h : Hdr) (load : Bool) (ty : ITy) (d : Opd) (a : MemOpd)
      (got : List (Nat × Nat × Byte)) (w : Option WaitLane) (width : Nat) (val : Nat → Option Nat) (ws : List RegWrite),
    Claims.emulating s g r sh (.bytes h load ty d a [] got w) → width = max ty.width (if d.isX then 64 else 32) →
    Claims.gathered got (ty.width / 8) val →
    ws = (if r.active h = 0 then [] else r.writesTo d false width (r.active h) (fun lane =>
      match val (Claims.readLane (Claims.once h [d, a.base]) (r.active h) lane) with
      | some v => Claims.loaded ty width v
      | none => 0)) →
    step s = .next (s.finish { r with sset := none, firmware := none } h []
      (if load then [{ writes := ws, unit := .memory, returned := true }] else [])
      (some (if sh.cause.x56.getLsbD 48 then sh.ret else nextSlot sh.cause.x58)) none)) ∧
  (∀ (s : State) (g r : Group) (sh : Shadow), Claims.emulating s g r sh .forward → sh.mode = .user → s.ptvec g ≠ 0 →
    s.handlerOk g (s.ptvec g) = true →
    ∃ (u : State) (g' : Group) (sh' : Shadow), step s = .next u ∧ u.group? g.id = some g' ∧ g'.mode = .handler ∧
      g'.pc = s.ptvec g ∧ (∀ k < 4, vget g'.x (56 + k) 0 = g.xVal (BitVec.ofNat 6 (56 + k))) ∧ g'.sset = none ∧
      g'.hset = some sh' ∧ sh'.ret = sh.ret ∧ sh'.mode = .user)

/-- `ATOM`, `REDM`, `CAS` (R133, R258, R259, R269, R270, R272): where every lane's location may be reached, the lanes update
memory one after the other, ascending, each with the operator's result on what it finds, or with the new value where it
finds the comparand; `ATOM` and `CAS` return what each lane found. No flag is set. `BANKPASS` counts as the banks require
(R260, R424; which accesses it counts is log entry 55, DEDUCED). -/
def Obligations.Atomics : Prop :=
  (∀ (s : State) (g : Group) (h : Hdr) (op : RedOp) (ty : ITy) (sc : Scope) (ord : MemOrd) (d b : Opd) (a : MemOpd)
      (loc : Nat → Nat) (u : State × List (Nat × Code)) (old : Nat → Code),
    (Instr.atom h op ty sc ord d a b).wellFormed = true → s.group? s.cur = some g → Claims.free s g →
    g.checkHeld [(d, ty.width), (a.base, 64), (b, ty.width)] = .ok () →
    (∀ lane ∈ Claims.updaters g h [d, a.base, b], Claims.lands s g .write a (ty.width / 8) lane (loc lane) ∧
      (HOST_BASE ≤ loc lane → loc lane < 2 * HOST_BASE → (op = .exch ∨ op = .add) ∧ ty.width ≤ 64)) →
    u = Claims.updates (ty.width / 8) loc (fun i x => some (Claims.step op ty x (g.srcLane b ty.width i)).1) s
      (Claims.updaters g h [d, a.base, b]) →
    (∀ p ∈ u.2, old p.1 = p.2) →
    exec (.atom h op ty sc ord d a b) s
      = .next ((Claims.banked u.1 g (ty.width / 8) loc (Claims.updaters g h [d, a.base, b])).finish g h []
      [{ writes := Claims.oldWrites g h [d, a.base, b] d ty.width old, unit := .memory }] none none
      (Claims.accessesOf g a (ty.width / 8) true (fun _ => true) (Claims.updaters g h [d, a.base, b])))) ∧
  (∀ (s : State) (g : Group) (h : Hdr) (op : RedOp) (ty : ITy) (sc : Scope) (ord : MemOrd) (d : Opd) (a : MemOpd)
      (loc : Nat → Nat),
    (Instr.redm h op ty sc ord d a).wellFormed = true → s.group? s.cur = some g → Claims.free s g →
    g.checkHeld [(d, ty.width), (a.base, 64)] = .ok () →
    (∀ lane ∈ Claims.updaters g h [d, a.base], Claims.lands s g .write a (ty.width / 8) lane (loc lane) ∧
      (HOST_BASE ≤ loc lane → 2 * HOST_BASE ≤ loc lane)) →
    exec (.redm h op ty sc ord d a) s = .next ((Claims.banked (Claims.updates (ty.width / 8) loc
      (fun i x => some (Claims.step op ty x (g.srcLane d ty.width i)).1) s (Claims.updaters g h [d, a.base])).1 g
      (ty.width / 8) loc (Claims.updaters g h [d, a.base])).finish g h [] [] none none
      (Claims.accessesOf g a (ty.width / 8) true (fun _ => true) (Claims.updaters g h [d, a.base])))) ∧
  (∀ (s : State) (g : Group) (h : Hdr) (ty : ITy) (sc : Scope) (ord : MemOrd) (fa : Bool) (d b : Opd) (a : MemOpd)
      (loc : Nat → Nat) (u : State × List (Nat × Code)) (old : Nat → Code),
    (Instr.cas h ty sc ord fa d a b).wellFormed = true → s.group? s.cur = some g → Claims.free s g →
    g.checkHeld [(d, ty.width), (a.base, 64), (b, ty.width)] = .ok () →
    (∀ lane ∈ Claims.updaters g h [d, a.base, b], Claims.lands s g .read a (ty.width / 8) lane (loc lane) ∧
      s.place (s.accessor g) .write (Claims.addr g a lane) = .ok (.mem (loc lane))) →
    u = Claims.updates (ty.width / 8) loc (fun i x => if x = g.srcLane b ty.width i then some (g.srcLane d ty.width i)
      else none) s (Claims.updaters g h [d, a.base, b]) →
    (∀ p ∈ u.2, old p.1 = p.2) →
    exec (.cas h ty sc ord fa d a b) s
      = .next ((Claims.banked u.1 g (ty.width / 8) loc (Claims.updaters g h [d, a.base, b])).finish g h []
      [{ writes := Claims.oldWrites g h [d, a.base, b] d ty.width old, unit := .memory }] none none
      (Claims.accessesOf g a (ty.width / 8) true (fun i => decide (old i = g.srcLane b ty.width i))
        (Claims.updaters g h [d, a.base, b]))))

/-- `LFULL`, `LEMPTY`, `LTEST` (R258, R265): the full/empty bits of the lanes' lines, no other, become full or empty; a
setting to full is counted, which releases the loads that wait (R267); the mask gets the bits of the lines in its active
lanes.

`FENCE` (R273), once no earlier load is left to read, only advances (log entry 4, DESIGN CHOICE; log entry 21, DEDUCED).
`FENCE.FLAG` then stores its 64 bits. `PREF` and `PREF.TLB` (R274) change nothing, but look up their translations (R424). -/
def Obligations.LinesAndFences : Prop :=
  ((∀ (s : State) (g : Group) (h : Hdr) (sc : Scope) (ord : MemOrd) (a : MemOpd) (loc : Nat → Nat) (full : Bool)
       (i : Instr),
     i = (if full then .lfull h sc ord a else .lempty h sc ord a) → i.wellFormed = true → s.group? s.cur = some g →
     Claims.free s g → g.checkHeld [(a.base, 64)] = .ok () →
     (∀ lane ∈ Claims.updaters g h [a.base],
       s.scrPlace (s.accessor g) .write (Claims.addr g a lane) = .ok (loc lane)) →
     ∃ s1 : State, exec i s = .next (s1.finish g h [] [] none none
         (Claims.accessesOf g a 1 false (fun _ => true) (Claims.updaters g h [a.base]))) ∧
       s1 = { s with fe := s1.fe, fills := s1.fills } ∧ (full = false → s1.fills = s.fills) ∧
       (full = true → ∀ lane ∈ Claims.updaters g h [a.base],
         tally (lineOf (loc lane)) s.fills < tally (lineOf (loc lane)) s1.fills) ∧
       ∀ k, k ∈ s1.fe ↔ if full then k ∈ s.fe ∧ ∀ lane ∈ Claims.updaters g h [a.base], lineOf (loc lane) ≠ k
         else k ∈ s.fe ∨ ∃ lane ∈ Claims.updaters g h [a.base], lineOf (loc lane) = k) ∧
   (∀ (s : State) (g : Group) (h : Hdr) (sc : Scope) (ord : MemOrd) (n : BitVec 3) (a : MemOpd) (loc : Nat → Nat),
     (Instr.ltest h sc ord (.m n) a).wellFormed = true → s.group? s.cur = some g → Claims.free s g →
     g.checkHeld [(a.base, 64)] = .ok () → g.active h ≠ 0 →
     (∀ lane, Claims.accesses g h [a.base] lane →
       s.scrPlace (s.accessor g) .read (Claims.addr g a lane) = .ok (loc lane)) →
     exec (.ltest h sc ord (.m n) a) s = .next (s.finish g h [] [{ unit := .memory, writes :=
       [.m n (g.active h) (maskOf (fun lane => (g.active h).getLsbD lane &&
         !s.fe.contains (lineOf (loc (Claims.readLane (Claims.once h [a.base]) (g.active h) lane)))))] }] none none
       (Claims.accessesOf g a 1 true (fun _ => false) (Claims.lanesThat g h [a.base]))))) ∧
  ((∀ (s : State) (g : Group) (h : Hdr) (sc : Scope) (ord : MemOrd), (Instr.fence h sc ord).wellFormed = true →
     s.group? s.cur = some g → s.held g = false →
     exec (.fence h sc ord) s = .next (s.finish g h [] [] none none)) ∧
   (∀ (s : State) (g : Group) (h : Hdr) (sc : Scope) (ord : MemOrd) (n : BitVec 6) (a : MemOpd) (loc : Nat),
     (Instr.fenceFlag h sc ord (.x n) a).wellFormed = true → s.group? s.cur = some g → Claims.free s g →
     (Claims.addr g a 0).toNat % 8 = 0 → s.place (s.accessor g) .write (Claims.addr g a 0) = .ok (.mem loc) →
     exec (.fenceFlag h sc ord (.x n) a) s
       = .next ((s.writeNat loc 8 (g.xVal n).toNat).finish g h [] [] none none [⟨Claims.addr g a 0, 8, false, true⟩])) ∧
   (∀ (s : State) (g : Group) (h : Hdr) (a : MemOpd) (i : Instr), (i = .pref h a ∨ i = .prefTlb h a) →
     i.wellFormed = true → s.group? s.cur = some g → g.checkHeld [(a.base, 64)] = .ok () →
     exec i s = .next (s.finish g h [] [] none none (Claims.probes g a (Claims.lanesThat g h [a.base])))))


namespace Sys2Proof.Claims

/-- The access of an operation on a barrier object, which is atomic on all of it (R275; log entry 17, DEDUCED). -/
def onBarrier (va : Word64) : List Touch :=
  [⟨va, 16, true, true⟩]

end Sys2Proof.Claims

/-- Barrier objects (R275 to R278): `BARINIT` sets the arrivals a phase takes and clears the counts but the phase, waking no
group; `ARRIVE` returns the phase and adds its arrivals, whole phases ending, which wakes who is registered; `WAITB` goes on
where the phase differs, or registers, and a registered one goes on once a phase has ended there. That each of them, for a
watchpoint, reads and writes all of its object is log entry 17 (DEDUCED). -/
def Obligations.BarrierObjects : Prop :=
  ∀ (s : State) (g : Group) (h : Hdr) (sc : Scope) (ord : MemOrd) (n k : BitVec 6) (a : MemOpd) (loc : Nat),
    s.group? s.cur = some g → s.held g = false → Memory.wf s.mem = true →
    s.barPlace g (Claims.addr g a 0) = .ok loc →
    ((Instr.barinit h (.x n) a).wellFormed = true →
      ∃ s1 : State, exec (.barinit h (.x n) a) s
          = .next (s1.finish g h [] [] none none (Claims.onBarrier (Claims.addr g a 0))) ∧
        s1.phases = s.phases ∧ s1.groups = s.groups ∧
        s1.barrier loc = ⟨(g.xVal n).toNat % 2 ^ 32, 0, (s.barrier loc).phase, 0, 0⟩ ∧
        (∀ x, ¬ (loc ≤ x ∧ x < loc + 16) → s1.read8 x = s.read8 x)) ∧
    ((Instr.arrive h sc ord (.x n) a (.x k)).wellFormed = true →
      ∃ s1 : State, exec (.arrive h sc ord (.x n) a (.x k)) s = .next (s1.finish g h []
          [{ writes := [.x n (BitVec.ofNat 64 (s.barrier loc).phase)], unit := .memory }] none none
          (Claims.onBarrier (Claims.addr g a 0))) ∧
        (s1.barrier loc).expect = (s.barrier loc).expect ∧ (s1.barrier loc).noor = (s.barrier loc).noor ∧
        (s1.barrier loc).nskip = (s.barrier loc).nskip ∧
        (tally loc s1.phases ≠ tally loc s.phases ↔ (s.barrier loc).expect = 0 ∨
          (s.barrier loc).expect ≤ (s.barrier loc).arrived + (g.xVal k).toNat % 2 ^ 32) ∧
        ((s.barrier loc).expect = 0 → (s1.barrier loc).phase = ((s.barrier loc).phase + 1) % 2 ^ 32 ∧
          (s1.barrier loc).arrived = (s.barrier loc).arrived) ∧
        ((s.barrier loc).expect ≠ 0 → ∃ ends : Nat, (s1.barrier loc).arrived < (s.barrier loc).expect ∧
          (s1.barrier loc).arrived + ends * (s.barrier loc).expect
            = (s.barrier loc).arrived + (g.xVal k).toNat % 2 ^ 32 ∧
          (s1.barrier loc).phase = ((s.barrier loc).phase + ends) % 2 ^ 32) ∧
        (∀ x, ¬ (loc ≤ x ∧ x < loc + 16) → s1.read8 x = s.read8 x)) ∧
    ((Instr.waitb h sc ord (.x n) a).wellFormed = true →
      (g.wait = none → (s.barrier loc).phase ≠ (g.xVal n).toNat % 2 ^ 32 →
        exec (.waitb h sc ord (.x n) a) s
          = .next (s.finish g h [] [] none none (Claims.onBarrier (Claims.addr g a 0)))) ∧
      (g.wait = none → (s.barrier loc).phase = (g.xVal n).toNat % 2 ^ 32 →
        ∃ t g', exec (.waitb h sc ord (.x n) a) s = .next t ∧ t.group? g.id = some g' ∧ g'.pc = g.pc ∧
          g'.wait = some (.phase loc (tally loc s.phases)) ∧ t.mem = s.mem) ∧
      (∀ at_ m, g.wait = some (.phase at_ m) →
        (tally at_ s.phases ≠ m → exec (.waitb h sc ord (.x n) a) s = .next (s.finish g h [] [] none none)) ∧
        (tally at_ s.phases = m → exec (.waitb h sc ord (.x n) a) s = .next (s.setGroup g))))

namespace Sys2Proof.Claims

/-- A group that has closed the batches up to `last` waits at a `BWAIT` of d while batch b is unfinished (R290): some batch from
b to `last` is covered, (d − batch) mod 2^32 < 2^31. -/
def batchCovers (last d b : Word32) : Prop :=
  ∃ i : Nat, i ≤ (last - b).toNat ∧ (d - (last - BitVec.ofNat 32 i)).toNat < 2 ^ 31

end Sys2Proof.Claims

/-- `CMDW` (R279, R280): one entry for the one contributing lane: `RSVD` rises by one, the entry's 32 bytes are the lane's
eight words, the lane gets the entry's index; a full ring makes the group wait. `NOTIFY` (R284): with nothing new to
publish no effect; of one entry that passes its checks, the command joins the engine's and `NOTW` is the new count.

`BCLOSE` and `BWAIT` (R290): the batch number rises by one, the group's commands that are in no batch join it, and it
is returned; a wait ends where no batch that the number covers, and none closed before such a batch, has a command left. -/
def Obligations.CommandRings : Prop :=
  ((∀ (s : State) (g : Group) (h : Hdr) (d b : Opd) (n : BitVec 6) (a : MemOpd) (lane c : Nat) (r : Ring),
     d = .v n → (Instr.cmdw h d a b).wellFormed = true → s.group? s.cur = some g → Claims.free s g →
     g.checkHeld [(d, 256), (a.base, 64), (b, 32)] = .ok () → g.prog = 0 → g.core = some c →
     Claims.updaters g h [d, a.base, b] = [lane] → s.ring g (Claims.addr g a lane) = .ok r →
     (r.unpub < r.size →
       exec (.cmdw h d a b) s = .next (((s.writeNat (scrLoc c r.off) 4 (r.rsvd + 1)).write
           (scrLoc c (r.off + 128 + 32 * (r.rsvd % r.size)))
           ((List.range 8).flatMap (fun k => bytesOf 4 (g.vLane (n + BitVec.ofNat 6 k) lane).toNat))).finish g h []
         [{ unit := .memory, writes := g.writesTo b false (if b.isX then 64 else 32)
             (if Claims.once h [d, a.base, b] then g.active h else single lane)
             (fun _ => BitVec.ofNat 128 r.rsvd) }] none none
         [⟨Claims.addr g a lane, 4, true, true⟩,
          ⟨localAddr (r.off + 128 + 32 * (r.rsvd % r.size)), 32, false, true⟩])) ∧
     (r.unpub = r.size →
       ∃ t g' since logged, exec (.cmdw h d a b) s = .next t ∧ t.group? g.id = some g' ∧ g'.pc = g.pc ∧ t.mem = s.mem ∧
         g'.wait = some (.ring since (localAddr r.off) (BitVec.ofNat 32 r.notw) logged))) ∧
   (∀ (s : State) (g : Group) (h : Hdr) (sc : Scope) (n : BitVec 6) (a : MemOpd) (r : Ring),
     (Instr.notify h sc (.x n) a).wellFormed = true → s.group? s.cur = some g → s.held g = false →
     s.ring g (Claims.addr g a 0) = .ok r →
     ((g.xVal n).toNat % 2 ^ 32 = r.notw →
       exec (.notify h sc (.x n) a) s = .next (s.finish g h [] [] none none)) ∧
     (∀ t cmd c, (g.xVal n).toNat % 2 ^ 32 = (r.notw + 1) % 2 ^ 32 → 1 ≤ r.unpub → s.team? g.team = some t →
       s.checkEntry g t r (r.notw % 2 ^ 32) = .ok cmd → g.core = some c → eEmp cmd.entry = false → h.st = false →
       ∃ s1 : State, exec (.notify h sc (.x n) a) s = .next (s1.finish g h [] [] none none
           (Claims.probed cmd.pages ++ [⟨Claims.addr g a 0 + 4, 4, false, true⟩])) ∧
         s1.cmds = s.cmds ++ [{ cmd with
           id := s.nextId, seqno := vget (s.core c).slotSeq g.slot 0 + 1, spord := spordOf none }] ∧
         s1.mem = (s.writeNat (scrLoc c (r.off + 4)) 4 ((r.notw + 1) % 2 ^ 32)).mem))) ∧
  ((∀ (s : State) (g : Group) (h : Hdr) (n : BitVec 6), (Instr.bclose h (.x n)).wellFormed = true →
     s.group? s.cur = some g →
     ∃ (s1 : State) (g1 : Group), exec (.bclose h (.x n)) s = .next (s1.finish g1 h []
         [{ writes := [.x n ((g.batch + 1).setWidth 64)], unit := .memory }] none none) ∧
       g1 = { g with batch := g.batch + 1 } ∧ s1 = { s with cmds := s1.cmds } ∧ s1.cmds.length = s.cmds.length ∧
       (∀ (k : Nat) (c : Cmd), s.cmds[k]? = some c → s1.cmds[k]? = some
         { c with batch := (if c.issuer = g.id ∧ c.past = false ∧ c.batch = none then some (g.batch + 1) else c.batch) })) ∧
   (∀ (s : State) (g : Group) (h : Hdr) (n : BitVec 6), (Instr.bwait h (.x n)).wellFormed = true →
     s.group? s.cur = some g →
     ((∀ c ∈ s.cmds, c.issuer = g.id → c.past = false → ∀ b, c.batch = some b →
         ¬ Claims.batchCovers g.batch ((g.xVal n).setWidth 32) b) →
       exec (.bwait h (.x n)) s = .next (s.finish g h [] [] none none)) ∧
     ((∃ c ∈ s.cmds, c.issuer = g.id ∧ c.past = false ∧ ∃ b, c.batch = some b ∧
         Claims.batchCovers g.batch ((g.xVal n).setWidth 32) b) →
       ∃ t g', exec (.bwait h (.x n)) s = .next t ∧ t.group? g.id = some g' ∧ g'.pc = g.pc ∧ g'.wait = some .batch)))


/-! ## Width calls -/

namespace Sys2Proof.Claims

/-- A width call whose checks pass (R232, R235): its target, its record, its callers; no engine operation that the group has
issued is left (R249; log entry 21, DEDUCED), and no line read mismatches (R177). -/
def calls (s : State) (g : Group) (h : Hdr) (gather : Bool) (t : Target) (sel : Option (BitVec 3)) (n : BitVec 6)
    (rc : EntryRec) (set : Mask) : Prop :=
  s.callChecks g (address g t) gather n = .ok rc ∧
    set = g.contributors h &&& (match sel with | some m => g.mVal m | none => BitVec.allOnes 64) ∧
    g.mode = .user ∧ (h.sw = true → g.pend = []) ∧ s.ownOps g = false ∧
    ∀ va ∈ [lineAddr (address g t), lineAddr (address g t) - 64], (s.fetchLine (s.accessor g) va).mismatch = false

/-- The caller at place r of a widening call, or the callers of set r of a gathering call (R236, R237). -/
def callersOf (gather : Bool) (k : Nat) (callers : List Nat) (r : Nat) : List Nat :=
  if gather then (callers.drop (r * k)).take k else (callers[r / k]?).toList

/-- The number of callee lanes of a call (R236, R237). -/
def calleeLanes (gather : Bool) (k n : Nat) : Nat :=
  if gather then (n + k - 1) / k else n * k

/-- The callee group of a call's only packed group, as it starts (R239, R243). -/
def startsAs (g c : Group) (rc : EntryRec) (gather : Bool) (n : BitVec 6) (callers : List Nat) (entry : Word64) : Prop :=
  let k := 2 ^ rc.wlog
  let lanes := calleeLanes gather k callers.length
  c.team = g.team ∧ c.core = g.core ∧ c.depth = g.depth + 1 ∧ c.pc = entry ∧ c.helper = 0 ∧ c.fstat = 0 ∧ c.mode = .user ∧
    c.wait = none ∧ c.lo = decide (32 < rc.vregs) ∧ c.hi = decide (48 < rc.vregs) ∧
    c.srctr = g.srctr + 0x100_0000 ∧ c.srseed = g.srseed ∧ c.batch = 0 ∧
    (∀ i, i < 7 → vget c.x i 0 = g.xVal (BitVec.ofNat 6 i)) ∧
    (∀ r, c.exec.getLsbD r = decide (r < lanes)) ∧
    ∀ r, r < lanes →
      vlane c.widx r = (if gather then 0 else BitVec.ofNat 32 (r % k)) ∧
      vlane c.wcnt r = (if gather then BitVec.ofNat 32 (callersOf gather k callers r).length else BitVec.ofNat 32 k) ∧
      ∀ j a lane, (callersOf gather k callers r)[j]? = some lane → a < rc.nargs →
        vlane (vget c.v (j * rc.nargs + a) vzero) r = g.vLane (n + BitVec.ofNat 6 a) lane

end Sys2Proof.Claims

/-- `WCALL` and `GCALL` (R232 to R239, R243, R251): without callers no effect. With callers whose callee lanes fill at most
one group, of a function without a frame, where the core can grant a group, the caller waits with its callers' lanes
left, and one callee group starts with their arguments; with `.TEAM` the lanes go to a new bin of the core. -/
def Obligations.WidthCalls : Prop :=
  ∀ (s : State) (g : Group) (h : Hdr) (i : Instr) (gather team : Bool) (t : Target) (sel : Option (BitVec 3))
      (n : BitVec 6) (rc : EntryRec) (set : Mask) (k c : Nat),
    i = (if gather then .gcall h team t sel (.v n) else .wcall h team t sel (.v n)) → i.wellFormed = true →
    s.group? s.cur = some g → Claims.calls s g h gather t sel n rc set →
    (set = 0 → exec i s = .next (s.finish g h [] [] none none (Claims.called (Claims.address g t)))) ∧
    (set ≠ 0 → k = Claims.calleeLanes gather (2 ^ rc.wlog) (count set) → k ≤ 64 → g.core = some c → c < 272 →
      g.kind = .launched →
      (team = false → ∀ tm, s.team? g.team = some tm → rc.frame = 0 → s.grantable c tm rc 1 = 1 →
        (∀ q ∈ s.groups, q.id < s.nextId) →
        ∃ u g' callee call, exec i s = .next u ∧ u.group? g.id = some g' ∧ g'.pc = g.pc ∧ g'.wait = some .widthpark ∧
          g'.calling = some call ∧ call.left = set ∧ u.group? s.nextId = some callee ∧
          Claims.startsAs g callee rc gather n (lanesOf set) (Claims.address g t) ∧ u.mem = s.mem) ∧
      (team = true → (s.core c).bins = [] → k < 64 →
        ∃ u g' call bin, exec i s = .next u ∧ u.group? g.id = some g' ∧ g'.pc = g.pc ∧ g'.wait = some .widthpark ∧
          g'.calling = some call ∧ call.left = set ∧ (u.core c).bins = [bin] ∧ bin.fired = false ∧
          ∃ lanes, bin.work = .call g.team g.pc ⟨Claims.address g t, rc, gather⟩ lanes ∧ lanes.length = k))

namespace Sys2Proof.Claims

/-- The values that a callee group's lanes give caller lane L for result j, in order of lanes (R245). -/
def contributions (g : Group) (p : Pack) (con : Mask) (n : BitVec 6) (r : BitVec 8) (j L : Nat) : List Code :=
  p.lanes.zipIdx.filterMap (fun (l, at_) =>
    if l.members.any (fun m => m.lane.toNat = L) ∧ con.getLsbD at_ then
      some (if redOpN r = 8 then redOne r else g.vCode (n + BitVec.ofNat 6 (2 * j)) (redBits r) at_)
    else none)

/-- The type of a reduction (R94), a float one by its bits. -/
def redTy (n : Nat) : ITy :=
  [ITy.i32, .n32, .b32, .i64, .n64, .b64, .n32, .n64].getD n .n64

end Sys2Proof.Claims

/-- `WRET` of a packed group, its last pass, of a widening call with one caller group that has no other lane left (R244 to
R248): the callee ends; each caller lane gets, for each result, the fold of the values its callee lanes give, in order of
lanes; the caller goes on after its call. A step of the fold is the operator's of R246, in the type that the entry record
names. A `WRET` outside a call is a `BADWIDTH` fault, one of registers that the callee does not hold a `NOXBLK` fault
(R165). -/
def Obligations.WidthReturns : Prop :=
  (∀ (s : State) (g g0 : Group) (h : Hdr) (sel : Option (BitVec 3)) (n : BitVec 6) (tgt : CallTarget) (p : Pack)
      (c : Calling) (con : Mask),
    (Instr.wret h sel (.v n)).wellFormed = true → s.group? s.cur = some g → g.mode = .user → g.pend = [] →
    g.kind = .callee tgt p [] none → g.folds = [] → tgt.gather = false → tgt.rc.gret = false → tgt.rc.nres ≤ 4 →
    n.toNat + 2 * tgt.rc.nres ≤ tgt.rc.vregs → (tgt.rc.nres ≠ 0 → g.holdsRange n.toNat (2 * tgt.rc.nres) = true) →
    s.group? g0.id = some g0 → g0.id ≠ g.id → g0.wait = some .widthpark → g0.calling = some c → g0.folds = [] →
    g0.depth + 1 = g.depth → c.tgt = tgt → c.res = noResults tgt.rc.nres →
    (∀ l ∈ p.lanes, ∃ m, l.members = [m] ∧ m.caller = g0.id ∧ m.depth = g.depth) → p.lanes.length ≤ 64 →
    (∀ L, c.left.getLsbD L = true ↔ ∃ l ∈ p.lanes, ∃ m ∈ l.members, m.lane.toNat = L) →
    (∀ q, (s.part q).halted = false) →
    con = g.contributors h &&& (match sel with | some m => g.mVal m | none => BitVec.allOnes 64) →
    ∃ t g', exec (.wret h sel (.v n)) s = .next t ∧ t.group? g.id = none ∧ t.group? g0.id = some g' ∧
      g'.pc = nextSlot g0.pc ∧ g'.wait = none ∧ g'.calling = none ∧ g'.exec = g0.exec ∧ g'.x = g0.x ∧
      ∀ j L v vs r, j < tgt.rc.nres → r = tgt.rc.red.getD j 0 →
        Claims.contributions g p con n r j L = v :: vs →
        vlane (vget g'.v (c.creg + BitVec.ofNat 6 (2 * j)).toNat vzero) L
          = (vs.foldl (fun a b => (widthStep r a b).1) v).setWidth 32 ∧
        (redBits r = 64 → vlane (vget g'.v (c.creg + BitVec.ofNat 6 (2 * j) + 1).toNat vzero) L
          = (vs.foldl (fun a b => (widthStep r a b).1) v).extractLsb' 32 32)) ∧
  (∀ (s : State) (g : Group) (h : Hdr) (sel : Option (BitVec 3)) (n : BitVec 6),
    (Instr.wret h sel (.v n)).wellFormed = true → s.group? s.cur = some g → g.mode = .user → g.folds = [] →
    (g.kind = .launched ∨ ∃ l, g.kind = .spawned l) →
    exec (.wret h sel (.v n)) s = .next (s.take { g with wait := none } (trapOf .badwidth))) ∧
  (∀ (s : State) (g : Group) (h : Hdr) (sel : Option (BitVec 3)) (n : BitVec 6) (tgt : CallTarget) (p : Pack)
      (rest : List Pack) (fr : Option Nat),
    (Instr.wret h sel (.v n)).wellFormed = true → s.group? s.cur = some g → g.mode = .user → g.folds = [] →
    g.kind = .callee tgt p rest fr → tgt.rc.gret = false → tgt.rc.nres ≠ 0 →
    (tgt.rc.vregs < n.toNat + 2 * tgt.rc.nres ∨ g.holdsRange n.toNat (2 * tgt.rc.nres) = false) →
    exec (.wret h sel (.v n)) s = .next (s.take { g with wait := none } (trapOf .noxblk))) ∧
  (∀ (r : BitVec 8) (acc v : Code) (op ty : Nat) (float : Bool), op = r.toNat % 16 → ty = r.toNat / 16 % 8 →
    float = decide (ty = 2 ∨ ty = 5) → op ≤ 8 → widthStep r acc v = (match op with
      | 0 => Claims.step (if float then .fadd else .add) (Claims.redTy ty) acc v
      | 1 => Claims.step (if float then .fmin else .min) (Claims.redTy ty) acc v
      | 2 => Claims.step (if float then .fmax else .max) (Claims.redTy ty) acc v
      | 3 => (acc &&& v, 0)
      | 4 => (acc ||| v, 0)
      | 5 => (acc ^^^ v, 0)
      | 6 => (acc, 0)
      | 7 => (v, 0)
      | _ => ((Claims.step (if float then .fadd else .add) (Claims.redTy ty) acc v).1, 0)))


/-! ## Matrix array -/

namespace Sys2Proof.Claims

/-- A word that forms a gang (R190, R329): two to six different groups of the team, the group itself among them, no field
beyond them, 1 to 32 tiles for each; the group is in no gang. -/
def gangWord (g : Group) (tgrp : Nat) (w : Word64) : Prop :=
  let n := w.toNat / 2 ^ 29 % 8
  let l := (List.range n).map (fun i => w.toNat / 16 ^ i % 16)
  2 ≤ n ∧ n ≤ 6 ∧ w.toNat / 2 ^ 40 = 0 ∧ w.toNat / 2 ^ 24 % 32 = 0 ∧ g.gmem.toNat / 2 ^ 29 = 0 ∧ (∀ i ∈ l, i < tgrp) ∧
    l.Nodup ∧ g.index.toNat ∈ l ∧ w.toNat % 2 ^ 24 < 16 ^ n ∧ 1 ≤ w.toNat / 2 ^ 32 % 256 ∧ w.toNat / 2 ^ 32 % 256 ≤ 32

end Sys2Proof.Claims

/-- `GANG` (R329, R330), once no earlier load is left to read (R346; log entry 21, DEDUCED): a group that lists its team's
groups in order waits at its slot, the last of the listed asking for the gang's tiles (log entry 38, DEDUCED); a word that
another listed group does not share, or that breaks the rule, is a `GANGMIS` fault. When the request is granted every member
goes on at once, in a gang of zero tiles, its `GMEM` the word's low half with its place. A member that gives 0 waits until
every member has; then all go on without a gang. -/
def Obligations.Gangs : Prop :=
  (∀ (s : State) (g : Group) (h : Hdr) (a : Opd) (w : Word64) (s1 : State), (Instr.gang h a).wellFormed = true →
    s.group? s.cur = some g → g.mode = .user → g.wait = none → s.held g = false → g.mayGang = true → w = g.uni64 a →
    gangCnt w ≠ 0 →
    (∀ t, s.team? g.team = some t → Claims.gangWord g (s.valsOf t).tgrp w →
      (∀ q ∈ s.listed g.team w, ∀ v b, q.wait = some (.gang v b) → v = w) →
      s1 = (if s.listed g.team w = [] ∨ (s.listed g.team w).length ≠ gangCnt w ∨
          (∃ q ∈ s.listed g.team w, q.id ≠ g.id ∧ ∀ b, q.wait ≠ some (.gang w b)) then s
        else s.modCore (g.core.getD 0) (fun c => { c with
          tileReqs := c.tileReqs ++ [⟨g.id, gangCnt w * gangPer w, c.fired⟩] })) →
      exec (.gang h a) s = .next ((s1.touch (g.core.getD 0)).setGroup { g with wait := some (.gang w h.sw) })) ∧
    ((∃ q ∈ s.listed g.team w, ∃ v b, q.wait = some (.gang v b) ∧ v ≠ w) →
      exec (.gang h a) s = .next (s.take { g with wait := none } (trapOf .gangmis))) ∧
    (∀ t, s.team? g.team = some t → ¬ Claims.gangWord g (s.valsOf t).tgrp w →
      exec (.gang h a) s = .next (s.take { g with wait := none } (trapOf .gangmis)))) ∧
  (∀ (s : State) (g q : Group) (c : Nat) (r : PoolReq) (rest : List PoolReq) (w : Word64) (b : Bool),
    s.group? g.id = some g → g.core = some c → c < 272 → (s.core c).tileReqs = r :: rest → s.group? r.gid = some q →
    q.wait = some (.gang w b) → s.haltReached q = false → s.tilesUsed c + r.blocks ≤ 192 →
    (s.groups.map (fun (q : Group) => q.id)).Nodup → (gangList w).Nodup →
    (∀ m ∈ s.listed q.team w, m.pend = [] ∧ ∃ sw, m.wait = some (.gang w sw)) →
    ∃ t : State, exec (.gangForm g.id) s = .next t ∧ (t.core c).tileReqs = rest ∧
      (∃ k : Gang, t.gangs = s.gangs ++ [k] ∧ k.id = s.nextId ∧ k.team = q.team ∧
        k.members = (s.listed q.team w).map (fun (m : Group) => m.id) ∧ k.per = gangPer w ∧ k.latches = [] ∧
        k.dissolving = [] ∧ ∀ m j, k.tile m j = Tile.zero) ∧
      ∀ (i : Nat) (m : Group), (s.listed q.team w)[i]? = some m → ∃ m', t.group? m.id = some m' ∧
        m'.gang = some s.nextId ∧ m'.gmem = BitVec.ofNat 32 (w.toNat % 2 ^ 32 + i * 2 ^ 26) ∧ m'.wait = none ∧
        m'.pc = nextSlot m.pc ∧ m'.v = m.v ∧ m'.x = m.x) ∧
  (∀ (s : State) (g : Group) (h : Hdr) (a : Opd) (k : Nat), (Instr.gang h a).wellFormed = true →
    s.group? s.cur = some g → g.mode = .user → g.wait = none → s.held g = false → g.mayGang = true → g.uni64 a = 0 →
    g.gang = some k →
    exec (.gang h a) s = .next (((s.modGang k (fun q => { q with dissolving := q.dissolving ++ [g.id] })).touch
      (g.core.getD 0)).setGroup { g with wait := some (.dissolve h.sw false) })) ∧
  (∀ (s : State) (k : Gang), s.gang? k.id = some k → k.latches = [] → (∀ m ∈ k.members, m ∈ k.dissolving) →
    k.members.Nodup →
    (∀ m ∈ k.members, ∃ g, s.group? m = some g ∧ s.haltReached g = false ∧ g.pend = [] ∧
      ∃ sw, g.wait = some (.dissolve sw false)) →
    ∃ t : State, exec (.gangDissolve k.id) s = .next t ∧ t.gangs = s.gangs.filter (fun q => q.id != k.id) ∧
      ∀ m ∈ k.members, ∀ g, s.group? m = some g → ∃ g', t.group? m = some g' ∧ g'.gang = none ∧ g'.gmem = 0 ∧
        g'.wait = none ∧ g'.pc = nextSlot g.pc)

namespace Sys2Proof.Claims

/-- An `MMA` that passes its checks (R333, R336): its gang, team, tile number, reference and part. -/
def mmaOf (s : State) (g : Group) (ty : FTy) (kc : BitVec 3) (za : Bool) (d a b : Opd) (ids : Option MmaIds) (k : Gang)
    (t : Team) (ref : MmaRef) (part : MmaPart) : Prop :=
  let n := (mmaK ty kc).getD 0
  let w := g.mmaWords ids
  let regs := bRegs ty k.members.length part.member
  free s g ∧ g.mode = .user ∧ s.gangOf g = some k ∧ s.team? g.team = some t ∧ k.dissolving = [] ∧
    part.member = k.place g.id ∧ part.tile = (g.uni64 d).toNat % 256 ∧ part.base = g.uni64 a ∧ part.posA = w.posA ∧
    part.b = (List.range regs).map (fun r => vreg (fun i => g.vLane (vNum b + BitVec.ofNat 6 r) i)) ∧
    tileOk k.per ty part.tile = true ∧ g.holdsRange (vNum b).toNat regs = true ∧
    s.rowsOk g part.base (8 * rowLen ty) = .ok () ∧
    (∀ i, ids = some i → t.mmaIdsOk ty n i w = .ok ()) ∧
    ref = { ty := ty, k := n, za := za, ids := ids.map (fun i => (i.tida, i.tidb)), k0 := w.posA.extractLsb' 0 24,
            posB := w.posB, scaleA := w.scaleA, scaleB := w.scaleB } ∧
    (k.latches.filter (fun l => l.parts.any (fun p => p.member == part.member))).length ≤ 1 ∧
    ∀ q ∈ s.gangs, q.id = k.id → q = k

/-- Byte i of column n of B (R332): the holders' shares in order, four bytes in a register. -/
def bByte (parts : List MmaPart) (count n i : Nat) : Byte :=
  let h := if count ≤ 3 then 2 else 4
  match parts.find? (fun p => p.member == i / 4 / (16 / h)) with
  | some p => (vlane (p.b.getD (i / 4 % (16 / h)) vzero) n).extractLsb' (8 * (i % 4)) 8
  | none => 0

/-- Bits of an element, products of a chunk, bytes of an A row (R66, R331). -/
def mmaShape : FTy → Nat × Nat × Nat
  | .e2m1 => (4, 16, 64)
  | .dxb4 => (4, 16, 72)
  | .dxb8 => (8, 8, 68)
  | .e4m3 | .e5m2 => (8, 8, 64)
  | .bf16 | .f16 => (16, 4, 64)
  | .f32 => (32, 1, 64)
  | _ => (64, 1, 64)

/-- Element i of an A row (R332): in a DXB format in blocks of 32 codes, each behind its header. -/
def aElem (ty : FTy) (row : List Byte) (i : Nat) : FVal :=
  let w := (mmaShape ty).1
  if ty = .dxb8 ∨ ty = .dxb4 then
    let blk := row.drop (i / 32 * (2 + 4 * w))
    elemVal ty (natOf (blk.take 2)) (natOf (blk.drop 2) / 2 ^ (w * (i % 32)) % 2 ^ w)
  else elemVal ty 0 (natOf row / 2 ^ (w * i) % 2 ^ w)

/-- Element i of column n of B (R332): in a DXB format with the header that member 0 holds behind its share. -/
def bElem (ty : FTy) (parts : List MmaPart) (count n i : Nat) : FVal :=
  let w := (mmaShape ty).1
  let code := if w = 4 then (bByte parts count n (i / 2)).toNat / 16 ^ (i % 2) % 16
    else natOf ((List.range (w / 8)).map (fun j => bByte parts count n (w / 8 * i + j)))
  let header := match parts.find? (fun p => p.member == 0) with
    | some p => (vlane (p.b.getD (16 / (if count ≤ 3 then 2 else 4) + i / 64) vzero) n).toNat / 2 ^ (16 * (i / 32 % 2)) % 2 ^ 16
    | none => 0
  elemVal ty (if ty = .dxb8 ∨ ty = .dxb4 then header else 0) code

/-- `INVALID` for a signalling NaN among some operands (R48). -/
def snan (vs : List FVal) : FFlags :=
  if ∃ v ∈ vs, v = .nan true then 1 else 0

/-- The accumulator of an unscaled product and its flags (R66): chunk by chunk, each summed exactly and added in one
rounding. -/
def unscaled (ty : FTy) (k : Nat) (a b : Nat → FVal) (acc : FVal) : FVal × FFlags :=
  let f := if ty = .f64 then fmtF64 else fmtF32
  let n := (mmaShape ty).2.1
  (List.range (k / n)).foldl (fun r c =>
    let ps := (List.range n).map (fun i => (a (n * c + i), b (n * c + i)))
    let sum := sumProducts ps
    let x := accAdd f r.1 sum.1
    (x.1, r.2 ||| x.2 ||| (if sum.2 then 1 else 0) ||| snan (r.1 :: ps.flatMap (fun p => [p.1, p.2])))) (acc, 0)

/-- The accumulator of a scaled product and its flags (R67): block by block, each over its scales. -/
def scaled (k bs : Nat) (a b : Nat → FVal) (sa sb : Nat → FVal) (ta tb : FVal) (tsc : FVal × FFlags) (acc : FVal) :
    FVal × FFlags :=
  (List.range (k / bs)).foldl (fun r c =>
    let term := blockTerm (sumProducts ((List.range bs).map (fun i => (a (bs * c + i), b (bs * c + i))))) (sa c) (sb c) ta tb tsc
    let x := accAdd fmtF32 r.1 term.1
    (x.1, r.2 ||| term.2 ||| x.2 ||| snan [r.1])) (acc, 0)

/-- The scale of a block, from the team's window of scale memory (R70, R76). -/
def blockScale (t : Team) (r : TBits) (p : Pos) : FVal :=
  scaleVal (tBsf r) (t.scale.getD (tSmb r + blockIndex r p) 0).toNat

/-- The accumulator of a float `MMA` in a row and a column of a part, and its flags (R66, R67, R334). -/
def mmaAcc (t : Team) (l : Latch) (n : Nat) (p : MmaPart) (row col : Nat) (acc : FVal) : FVal × FFlags :=
  let ty := l.ref.ty
  let len := (mmaShape ty).2.2
  let a := aElem ty (((l.rowsA.getD p.member []).drop (row * len)).take len)
  let b := bElem ty l.parts n col
  match l.recA, l.recB with
  | some ra, some rb =>
    let pa := posOf p.posA
    let pb := posOf l.ref.posB
    let ta := tensorScale (tTsf ra) l.ref.scaleA
    let tb := tensorScale (tTsf rb) l.ref.scaleB
    if tBlk ra = 0 then unscaled ty l.ref.k a b acc
    else scaled l.ref.k (tBs ra) a b
      (fun c => blockScale t ra { pa with i0 := l.ref.k0.toNat + c * tBs ra, i1 := pa.i1 + row })
      (fun c => blockScale t rb { pb with i0 := l.ref.k0.toNat + c * tBs ra, i1 := pb.i1 + col })
      ta tb (tensorScales (tTsf ra) (tTsf rb) ta tb) acc
  | _, _ => unscaled ty l.ref.k a b acc

/-- The code that a part's accumulator begins with (R334): 0 under `.ZA`; under F64 that of the tile pair. -/
def accBefore (k : Gang) (l : Latch) (p : MmaPart) (row col : Nat) : Nat :=
  if l.ref.za then 0
  else (vlane (vget (k.tile p.member p.tile).rows row vzero) col).toNat +
    (if l.ref.ty = .f64 then 2 ^ 32 * (vlane (vget (k.tile p.member (p.tile + 1)).rows row vzero) col).toNat else 0)

/-- An `MI8` or `MN8` element (R331). -/
def int8 (ty : FTy) (b : Byte) : Int :=
  if ty = .mi8 then b.toInt else (b.toNat : Int)

end Sys2Proof.Claims

/-- `MMA` (R333, R334): the first member of a gang opens a latch, a later one joins the oldest it has not joined, with a
reference that differs a `GANGMIS` fault, the last releases it; `SRCTR` steps under `.SR`. The released latch starts where
its rows' lines are full, its sub-arrays awake and its team not cut (R341, R342): it reads its A rows then (log entry 38,
DEDUCED), and where no operand, no accumulator and no block scale holds poison it goes on to its product (log entry 53,
DEDUCED). A started integer latch completes: each accumulator becomes its old value (0 under `.ZA`) plus the sum of the
products, modulo 2^32. A started float latch without skipped spans completes: each accumulator becomes that of R66, or of
R67 over its scales, and the flags met rise in every member, in the `FSTAT` it has then whatever its mode (log entry 61,
DESIGN CHOICE). A sub-array that has been idle for `PGIDLE` clocks is gated, unless a released `MMA` uses it (R341; log
entry 38, DEDUCED). -/
def Obligations.MatrixProducts : Prop :=
  (∀ (s : State) (g : Group) (h : Hdr) (ty : FTy) (kc : BitVec 3) (za : Bool) (rm : Rm) (d a b : Opd)
      (ids : Option MmaIds) (k : Gang) (t : Team) (ref : MmaRef) (part : MmaPart) (g1 : Group),
    (Instr.mma h ty kc za rm d a b ids).wellFormed = true → s.group? s.cur = some g →
    Claims.mmaOf s g ty kc za d a b ids k t ref part → 2 ≤ k.members.length →
    g1 = { g with srctr := if rm = .sr then g.srctr + 1 else g.srctr } →
    ((∀ l ∈ k.latches, ∃ p ∈ l.parts, p.member = part.member) →
      ∃ l : Latch, l.id = s.nextId ∧ l.ref = ref ∧ l.parts = [part] ∧ l.released = false ∧ l.started = false ∧
        exec (.mma h ty kc za rm d a b ids) s = .next (({ s with nextId := s.nextId + 1 }.modGang k.id (fun q => { q with
          latches := q.latches ++ [l] })).finish g1 h [] [] none none)) ∧
    (∀ pre l post, k.latches = pre ++ l :: post → (∀ q ∈ pre, ∃ p ∈ q.parts, p.member = part.member) →
      (∀ p ∈ l.parts, p.member ≠ part.member) →
      (l.ref ≠ ref → exec (.mma h ty kc za rm d a b ids) s = .next (s.take { g with wait := none } (trapOf .gangmis))) ∧
      (l.ref = ref → l.parts.length + 1 ≠ k.members.length →
        exec (.mma h ty kc za rm d a b ids) s = .next ((s.modGang k.id (fun q => { q with
          latches := pre ++ { l with parts := l.parts ++ [part] } :: post })).finish g1 h [] [] none none)) ∧
      (l.ref = ref → l.parts.length + 1 = k.members.length →
        ∃ (s1 : State) (l' : Latch), l'.id = l.id ∧ l'.ref = ref ∧ l'.parts = l.parts ++ [part] ∧ l'.released = true ∧
          l'.started = l.started ∧ s1.gang? k.id = some { k with latches := pre ++ l' :: post } ∧
          exec (.mma h ty kc za rm d a b ids) s = .next (s1.finish g1 h [] [] none none)))) ∧
  (∀ (s : State) (k : Gang) (l : Latch) (post : List Latch) (c : Nat), s.gang? k.id = some k → k.latches = l :: post →
    (∀ m ∈ k.latches, m.started = false) → l.released = true → s.gangCore k = some c →
    (∀ p ∈ l.parts, ∀ x, p.rowsAt c / 128 * 128 ≤ x → x < p.rowsAt c + 8 * rowLen l.ref.ty → s.isFull x = true) →
    (∀ p ∈ l.parts, 2 ^ 56 ≤ p.rowsAt c) →
    (∀ i ∈ k.subs, vget (s.core c).gated i false = false ∧
      ∀ at_, vget (s.core c).wake i none = some at_ → 180 ≤ s.clocksSince at_) → (∃ t, s.team? k.team = some t ∧ t.swap = .resident) →
    ∃ (u : State) (k' : Gang) (l' : Latch) (post' : List Latch), exec (.mmaStart k.id) s = .next u ∧
      u.gang? k.id = some k' ∧ k'.latches = l' :: post' ∧ l'.started = true ∧ l'.ref = l.ref ∧ l'.parts = l.parts ∧
      k'.tiles = k.tiles ∧ u.mem = s.mem ∧
      (∀ p ∈ l.parts, (∀ q ∈ l.parts, q.member = p.member → q = p) → p.member < k.members.length →
        l'.rowsA.getD p.member [] = Memory.readN s.mem (p.rowsAt c) (8 * rowLen l.ref.ty)) ∧
      (s.poison = [] → (∀ m j, (k.tile m j).poison = false) → (∀ t, s.team? k.team = some t → t.scaleBad = []) →
        l'.abandoned = false)) ∧
  (∀ (s : State) (k : Gang) (l : Latch) (post : List Latch) (t : Team) (n : Nat), s.gang? k.id = some k →
    (∀ q ∈ s.gangs, q.id = k.id → q = k) → s.team? k.team = some t → k.latches = l :: post → l.started = true →
    l.abandoned = false → (l.ref.ty = .mi8 ∨ l.ref.ty = .mn8) → l.ref.k = 64 → k.members.length = n → 2 ≤ n → n ≤ 6 →
    (∀ j < n, ∃ p ∈ l.parts, p.member = j ∧ (j < (if n ≤ 3 then 2 else 4) →
      16 / (if n ≤ 3 then 2 else 4) ≤ p.b.length)) → (l.parts.map (fun p => p.member)).Nodup →
    (∀ p ∈ l.parts, p.member < n ∧ (l.rowsA.getD p.member []).length = 512 ∧ (k.tiles.getD p.member []).length = k.per ∧
      p.tile < k.per) → k.tiles.length = n →
    ∃ (u : State) (k' : Gang), exec (.mmaComplete k.id) s = .next u ∧ u.gang? k.id = some k' ∧ l ∉ k'.latches ∧
      u.mem = s.mem ∧
      (∀ p ∈ l.parts, ∀ row < 8, ∀ col < 64,
        vlane (vget (k'.tile p.member p.tile).rows row vzero) col
          = (if l.ref.za then 0 else vlane (vget (k.tile p.member p.tile).rows row vzero) col) +
            BitVec.ofInt 32 (((List.range 64).map (fun i =>
              Claims.int8 l.ref.ty ((l.rowsA.getD p.member []).getD (row * 64 + i) 0) *
                Claims.int8 l.ref.ty (Claims.bByte l.parts n col i))).sum)) ∧
      (∀ m j, (∀ p ∈ l.parts, p.member = m → p.tile ≠ j) → k'.tile m j = k.tile m j)) ∧
  (∀ (s : State) (k : Gang) (l : Latch) (post : List Latch) (t : Team) (n : Nat)
      (el : MmaPart → Nat → Nat → FVal × FFlags), s.gang? k.id = some k →
    (∀ q ∈ s.gangs, q.id = k.id → q = k) → s.team? k.team = some t → k.latches = l :: post → l.started = true →
    l.abandoned = false → l.ref.ty ≠ .mi8 → l.ref.ty ≠ .mn8 → (∃ kc, mmaK l.ref.ty kc = some l.ref.k) →
    k.members.length = n → 2 ≤ n → n ≤ 6 →
    (∀ j < n, ∃ p ∈ l.parts, p.member = j ∧ (j < (if n ≤ 3 then 2 else 4) →
      16 / (if n ≤ 3 then 2 else 4) ≤ p.b.length)) → (l.parts.map (fun p => p.member)).Nodup →
    (∀ p ∈ l.parts, p.member < n ∧ (k.tiles.getD p.member []).length = k.per ∧
      (if l.ref.ty = .f64 then p.tile + 1 < k.per else p.tile < k.per)) → k.tiles.length = n →
    (∀ m, l.skipA.getD m [] = []) → (∀ j, l.skipB.getD j [] = []) →
    (∀ r, l.recA = some r → tBlk r ≠ 0 → tBs r ∈ [8, 16, 32]) →
    (∀ p row col, el p row col = Claims.mmaAcc t l n p row col
      ((if l.ref.ty = .f64 then fmtF64 else fmtF32).decode (Claims.accBefore k l p row col))) →
    ∃ (u : State) (k' : Gang), exec (.mmaComplete k.id) s = .next u ∧ u.gang? k.id = some k' ∧ l ∉ k'.latches ∧
      u.mem = s.mem ∧
      (∀ p ∈ l.parts, ∀ row < 8, ∀ col < 64,
        (l.ref.ty ≠ .f64 → vlane (vget (k'.tile p.member p.tile).rows row vzero) col
          = BitVec.ofNat 32 (accCode fmtF32 (el p row col).1)) ∧
        (l.ref.ty = .f64 → ∀ w < 2, vlane (vget (k'.tile p.member (p.tile + w)).rows row vzero) col
          = BitVec.ofNat 32 (accCode fmtF64 (el p row col).1 / 2 ^ (32 * w)))) ∧
      (∀ m j, (∀ p ∈ l.parts, p.member = m → p.tile ≠ j ∧ (l.ref.ty = .f64 → p.tile + 1 ≠ j)) → k'.tile m j = k.tile m j) ∧
      (k.members.Nodup → ∀ m ∈ k.members, ∀ g, s.group? m = some g → ∃ g', u.group? m = some g' ∧
        ∀ b, g'.fstat.getLsbD b = true ↔ g.fstat.getLsbD b = true ∨
          ∃ p ∈ l.parts, ∃ row < 8, ∃ col < 64, (el p row col).2.getLsbD b = true)) ∧
  (∀ (s : State) (c sub : Nat), c < 272 → sub < 6 → (s.core c).pgidle ≠ 0 →
    (∀ k ∈ s.gangs, ∀ l ∈ k.latches, l.released = false) →
    (s.core c).pgidle.toNat ≤ s.clocksSince (vget (s.core c).busy sub 0) →
    exec (.subarrayPowerGate c sub) s = .next (s.modCore c (fun k => { k with gated := vset k.gated sub true })))

namespace Sys2Proof.Claims

/-- A number of 64 bits as a uniform result that is outstanding (R192). -/
def counted (g : Group) (d : Opd) (u : LongUnit) (n : Nat) : LongOut :=
  { writes := g.writesTo d false 64 g.exec (fun _ => BitVec.ofNat 128 n), unit := u }

/-- An accumulator instruction that passes the checks of R338 and waits for no `MMA`: gang, member, first tile. -/
def accOf (s : State) (g : Group) (ty : FTy) (a : Opd) (k : Gang) (m t : Nat) : Prop :=
  s.gangOf g = some k ∧ (∀ q ∈ s.gangs, q.id = k.id → q = k) ∧ m = k.place g.id ∧ t = (g.uni64 a).toNat % 256 ∧
    (if ty = .f64 then t % 2 = 0 ∧ t + 1 < k.per else t < k.per) ∧ m < k.tiles.length ∧
    (k.tiles.getD m []).length = k.per ∧ k.latches = []

/-- The tile and the row of register q of an instruction of n tiles from t on (R338). -/
def accTile (ty : FTy) (t q : Nat) : Nat := if ty = .f64 then t + q % 2 else t
def accRow (ty : FTy) (q : Nat) : Nat := if ty = .f64 then q / 2 else q

/-- The elements that `ACCRD.ST` stores (R339): of each contributing lane and each row, inside the extents; the position,
the lane, the code with its flags. -/
def accStores (g : Group) (h : Hdr) (k : Gang) (m t : Nat) (r : TBits) (rm : Rm) (p : Pos) :
    List (Pos × Nat × (Nat × FFlags)) :=
  ((lanesOf (g.contributors h)).flatMap (fun n => (List.range 8).map (fun row =>
    let bits := (vlane (vget (k.tile m t).rows row vzero) n).toNat
    (({ p with i0 := p.i0 + n, i1 := p.i1 + row } : Pos), n,
      match tTy r with
      | some f =>
        let q := (fmtOf f).roundVal rm false false (g.draw rm n) (valOf .f32 bits)
        (q.1, q.2 ||| snan [valOf .f32 bits])
      | none => (bits, 0))))).filter (fun e => inExtents r e.1)

/-- Elements of whole bytes stored, one after the other. -/
def storeAll (k : Reach) (r : TBits) (s : State) (els : List (Pos × Nat × (Nat × FFlags))) : State :=
  els.foldl (fun s e => s.reachWrite k (elemAddr r e.1) (bytesOf (tWidth r / 8) e.2.2.1)) s

end Sys2Proof.Claims

/-- `ACCZ`, `ACCRD`, `ACCWR` (R338): the tile, or the pair under F64, becomes zeros; its rows are returned, a pair's words
interleaved; the contributing lanes' columns become those of the registers, and the poison mark goes. `ACCRD.ST` (R339):
the elements inside the extents are stored, rounded to the tensor's format, and counted; a tile of another type than the format
needs is a `BADTID` fault (a tile of no type holds either; log entry 37, DESIGN CHOICE). -/
def Obligations.AccumulatorTiles : Prop :=
  (∀ (s : State) (g : Group) (h : Hdr) (ty : FTy) (a : Opd) (k : Gang) (m t : Nat),
    (Instr.accz h ty a).wellFormed = true → s.group? s.cur = some g → Claims.accOf s g ty a k m t →
    ∃ k1 : Gang, exec (.accz h ty a) s = .next ((s.modGang k.id (fun _ => k1)).finish g h [] [] none none) ∧
      k1 = { k with tiles := k1.tiles } ∧
      ∀ i j, k1.tile i j = if i = m ∧ (j = t ∨ ty = .f64 ∧ j = t + 1) then Tile.zero else k.tile i j) ∧
  (∀ (s : State) (g : Group) (h : Hdr) (ty : FTy) (n : BitVec 6) (a : Opd) (k : Gang) (m t w : Nat),
    (Instr.accrd h ty (.v n) a).wellFormed = true → s.group? s.cur = some g → Claims.accOf s g ty a k m t →
    w = (if ty = .f64 then 16 else 8) → g.checkHeld [(.v n, 32 * w)] = .ok () →
    (∀ q < w, (k.tile m (Claims.accTile ty t q)).poison = false) →
    exec (.accrd h ty (.v n) a) s = .next (s.finish g h [] [{ unit := .matrix, writes := (List.range w).map (fun q =>
      .v (n + BitVec.ofNat 6 q) (g.active h)
        (vget (k.tile m (Claims.accTile ty t q)).rows (Claims.accRow ty q) vzero)) }] none none)) ∧
  (∀ (s : State) (g : Group) (h : Hdr) (ty : FTy) (n : BitVec 6) (a : Opd) (k : Gang) (m t w : Nat),
    (Instr.accwr h ty a (.v n)).wellFormed = true → s.group? s.cur = some g → Claims.accOf s g ty a k m t →
    w = (if ty = .f64 then 16 else 8) → g.checkHeld [(.v n, 32 * w)] = .ok () →
    ∃ k1 : Gang, exec (.accwr h ty a (.v n)) s = .next ((s.modGang k.id (fun _ => k1)).finish g h [] [] none none) ∧
      k1 = { k with tiles := k1.tiles } ∧
      (∀ i j, ¬ (i = m ∧ (j = t ∨ ty = .f64 ∧ j = t + 1)) → k1.tile i j = k.tile i j) ∧
      ∀ q < w, (k1.tile m (Claims.accTile ty t q)).poison = false ∧ ∀ lane < 64,
        vlane (vget (k1.tile m (Claims.accTile ty t q)).rows (Claims.accRow ty q) vzero) lane
          = if (g.contributors h).getLsbD lane then g.vLane (n + BitVec.ofNat 6 q) lane
            else vlane (vget (k.tile m (Claims.accTile ty t q)).rows (Claims.accRow ty q) vzero) lane) ∧
  (∀ (s : State) (g : Group) (h : Hdr) (ty : FTy) (rm : Rm) (d a c : Opd) (tid : BitVec 6) (k : Gang) (m t : Nat)
      (tm : Team) (r : TBits) (p : Pos) (ps : List Page) (els : List (Pos × Nat × (Nat × FFlags))),
    (Instr.accrdSt h ty rm d a c tid).wellFormed = true → s.group? s.cur = some g → Claims.accOf s g ty a k m t →
    Claims.free s g → ty ≠ .f64 → s.team? g.team = some tm → tm.tensor tid = .ok r → p = posOf (g.uni64 c) →
    tBlk r = 0 → tEnt r = false → tFmt r ∈ [0, 1, 5, 6, 7, 11] → p.i1 % 8 = 0 → p.i2 < tExt r 2 → p.i3 < tExt r 3 →
    (k.tile m t).poison = false →
    ((k.tile m t).type = .clear ∨ (k.tile m t).type = .int ∧ tFmt r = 11 ∨ (k.tile m t).type = .float ∧ tFmt r ≠ 11) →
    els = Claims.accStores g h k m t r rm p →
    s.probeStores g r (els.map (fun e => ⟨e.2.1, e.1, e.2.2.1⟩)) = .ok ps →
    ∃ (fl : FFlags) (g1 : Group), (∀ b, fl.getLsbD b = true ↔ ∃ e ∈ els, e.2.2.2.getLsbD b = true) ∧
      g1 = { g with fstat := g.fstat ||| fl, srctr := if rm = .sr then g.srctr + 1 else g.srctr } ∧
      exec (.accrdSt h ty rm d a c tid) s = .next (((Claims.storeAll ⟨g.core, ps⟩ r s els).clearTiles ⟨g.core, ps⟩ r
        (els.map (fun e => tileIndex r e.1))).finish g1 h [] [Claims.counted g d .matrix els.length] none none
        (Claims.probed ps))) ∧
  (∀ (s : State) (g : Group) (h : Hdr) (ty : FTy) (rm : Rm) (d a c : Opd) (tid : BitVec 6) (k : Gang) (m t : Nat)
      (tm : Team) (r : TBits),
    (Instr.accrdSt h ty rm d a c tid).wellFormed = true → s.group? s.cur = some g → Claims.accOf s g ty a k m t →
    s.held g = false → s.team? g.team = some tm → tm.tensor tid = .ok r →
    ((k.tile m t).type = .int ∧ tFmt r ≠ 11 ∨ (k.tile m t).type = .float ∧ tFmt r = 11) →
    exec (.accrdSt h ty rm d a c tid) s = .next (s.take { g with wait := none } (trapOf .badtid)))

namespace Sys2Proof.Claims

/-- The elements that `HADQ` stores to a tensor without blocks and without rotation (R344): of each 32 lanes whose row
fits and that have a contributor, the contributors' values rounded once over the tensor scale ts. -/
def hadStores (g : Group) (h : Hdr) (rm : Rm) (src : BitVec 6) (r : TBits) (p : Pos) (ts : FVal) :
    List (Pos × Nat × (Nat × FFlags)) :=
  ((lanesOf (g.contributors h)).filter (fun n => p.i0 + (n / 32 + 1) * 32 ≤ tExt r 0)).map (fun n =>
    (({ p with i0 := p.i0 + n } : Pos), n,
      let v := valOf .f32 (g.vLane src n).toNat
      let q := hadElem (fmtOf ((tTy r).getD .e4m3)) rm (g.draw rm n) ⟨v, false⟩ (mulVal oneVal ts).1
      (q.1, q.2 ||| snan [v])))

/-- One lane of `BDOT` (R340): acc + the exact sum of eight products, over its scales and rounded by R67. -/
def bdot (ty : FTy) (ra rb : TBits) (xa xb : Word64) (l : List Code) : Code × FFlags :=
  let w := if ty = .e2m1 then 4 else 8
  let elem (c : Code) (i : Nat) : FVal := valOf ty (c.toNat / 2 ^ (w * i) % 2 ^ w)
  let sc (r : TBits) (k : Nat) : FVal := if tBlk r = 0 then oneVal else scaleVal (tBsf r) ((arg l 3).toNat / 256 ^ k % 256)
  let term := blockTerm (sumProducts ((List.range 8).map (fun i => (elem (arg l 1) i, elem (arg l 2) i)))) (sc ra 0) (sc rb 1)
    (tensorScale (tTsf ra) xa) (tensorScale (tTsf rb) xb)
    (tensorScales (tTsf ra) (tTsf rb) (tensorScale (tTsf ra) xa) (tensorScale (tTsf rb) xb))
  let acc := valOf .f32 ((arg l 0).toNat % 2 ^ 32)
  let r := accAdd fmtF32 acc term.1
  (BitVec.ofNat 128 (accCode fmtF32 r.1), term.2 ||| r.2 ||| snan [acc])

end Sys2Proof.Claims

/-- `TIDSET` and `TIDGET` (R343): the entry becomes the 64 bytes of a record in order; a word of an entry is returned.
`BDOT` (R340): each lane's accumulator and scaled sum, its result outstanding. `HADQ` (R344), to a tensor without blocks
and without rotation: the elements stored, rounded, counted. `ZMAP` (R345) of a tensor without a map is a `BADTID`
fault; of one with a map: the number of tiles whose bit is now 1 is returned, the map bytes alone may change. That `HADQ` to
E4M3, E5M2 or E2M1 takes the rounding flags of the elements that a lane writes alone is the model's choice (log entry 61, DESIGN
CHOICE). -/
def Obligations.TensorInstructions : Prop :=
  (∀ (s : State) (g : Group) (h : Hdr) (a : Opd) (tid : BitVec 6) (t : Team) (r : TBits),
    (Instr.tidset h a tid).wellFormed = true → s.group? s.cur = some g → s.held g = false →
    s.team? g.team = some t → tid.toNat < t.tids.length → (g.uni64 a).toNat % 64 = 0 →
    (∀ k ∈ s.gangs, k.latches = []) → s.readRecord g (g.uni64 a) = .ok r →
    recordBad r (64 * (s.valsOf t).smw) (s.valsOf t).dtc = false →
    exec (.tidset h a tid) s = .next ((s.modTeam t.id (fun q => { q with
      tids := q.tids.set tid.toNat (some r) })).finish g h [] [] none none [⟨g.uni64 a, 64, false, false⟩])) ∧
  (∀ (s : State) (g : Group) (h : Hdr) (w : BitVec 3) (d : Opd) (tid : BitVec 6) (t : Team) (r : TBits),
    (Instr.tidget h w d tid).wellFormed = true → s.group? s.cur = some g → s.team? g.team = some t →
    t.tids[tid.toNat]? = some (some r) →
    exec (.tidget h w d tid) s = .next (s.finish g h [] [Claims.counted g d .matrix
      (r.toNat / 2 ^ (64 * w.toNat) % 2 ^ 64)] none none)) ∧
  (∀ (s : State) (g g1 : Group) (h : Hdr) (ty : FTy) (rm : Rm) (d a b c : Opd) (n tida tidb : BitVec 6) (t : Team)
      (ra rb : TBits) (w : Nat) (srcs : List (Opd × Nat)) (once : Bool) (res : Nat → Code × FFlags) (ws : List RegWrite),
    (Instr.bdot h ty rm d a b c (.x n) tida tidb).wellFormed = true → s.group? s.cur = some g →
    s.team? g.team = some t → t.tensor tida = .ok ra → t.tensor tidb = .ok rb → tTy ra = some ty → tTy rb = some ty →
    tEnt ra = false → tEnt rb = false → tBlk ra = tBlk rb → tBlk ra ≤ 1 → w = (if ty = .e2m1 then 32 else 64) →
    srcs = [(d, 32), (a, w), (b, w), (c, 32)] → g.checkHeld srcs = .ok () → g.moveQueues d srcs = .ok g1 →
    once = Claims.once h (d :: srcs.map (·.1)) →
    (∀ lane, res lane = Claims.bdot ty ra rb (g.xVal n) (g.xVal (n + 1)) (srcs.map (fun p =>
      g.srcLane p.1 p.2 (Claims.readLane once (g.active h) lane)))) →
    ws = Claims.writes g h d 32 srcs (fun lane => (res lane).1) →
    ∃ (fl : FFlags) (g2 : Group),
      (∀ b, fl.getLsbD b = true ↔ ∃ lane, (if once then lowest (g.active h) = some lane
        else (g.active h).getLsbD lane = true) ∧ g.helper.getLsbD lane = false ∧ (res lane).2.getLsbD b = true) ∧
      g2 = { g1 with fstat := g1.fstat ||| fl, srctr := if rm = .sr then g1.srctr + 1 else g1.srctr } ∧
      exec (.bdot h ty rm d a b c (.x n) tida tidb) s = .next (s.finish g2 h [] [{ writes := ws }] none none)) ∧
  (∀ (s : State) (g : Group) (h : Hdr) (rm : Rm) (d a c e : Opd) (tid : BitVec 6) (t : Team) (r : TBits) (p : Pos)
      (ps : List Page) (els : List (Pos × Nat × (Nat × FFlags))),
    (Instr.hadq h rm d a c e tid).wellFormed = true → s.group? s.cur = some g → Claims.free s g →
    s.team? g.team = some t → g.checkHeld [(a, 32)] = .ok () → t.tensor tid = .ok r → p = posOf (g.uni64 c) →
    tFmt r ≤ 1 → tBlk r = 0 → tHad r = false → tEnt r = false → p.i0 % 32 = 0 → p.i1 < tExt r 1 → p.i2 < tExt r 2 →
    p.i3 < tExt r 3 → els = Claims.hadStores g h rm (vNum a) r p (tensorScale (tTsf r) (g.uni64 e)) →
    s.probeStores g r (els.map (fun x => ⟨x.2.1, x.1, x.2.2.1⟩)) = .ok ps →
    ∃ (fl : FFlags) (g1 : Group), (∀ b, fl.getLsbD b = true ↔ ∃ x ∈ els, x.2.2.2.getLsbD b = true) ∧
      g1 = { g with fstat := g.fstat ||| fl, srctr := if rm = .sr then g.srctr + 1 else g.srctr } ∧
      exec (.hadq h rm d a c e tid) s = .next (((Claims.storeAll ⟨g.core, ps⟩ r s els).clearTiles ⟨g.core, ps⟩ r
        (els.map (fun x => tileIndex r x.1))).finish g1 h [] [Claims.counted g d .matrix els.length] none none
        (Claims.probed ps))) ∧
  (∀ (s : State) (g : Group) (h : Hdr) (d : Opd) (tid : BitVec 6) (t : Team) (r : TBits) (ps : List Page) (k : Reach),
    (Instr.zmap h d tid).wellFormed = true → s.group? s.cur = some g → Claims.free s g → s.team? g.team = some t →
    t.tensor tid = .ok r →
    (tZmv r = false → exec (.zmap h d tid) s = .next (s.take { g with wait := none } (trapOf .badtid))) ∧
    (tZmv r = true → Memory.wf s.mem = true → s.poison = [] → k = ⟨g.core, ps⟩ →
      (((List.range (tileCount r)).flatMap (tileRows r)).foldlM (fun ps x =>
          s.probe (s.accessor g) .read x.1 x.2 ps) [] >>= fun ps0 =>
        (List.range ((tileCount r + 7) / 8)).foldlM (fun ps i =>
          s.probe (s.accessor g) .write (mapAddr r (8 * i)) 1 ps) ps0) = .ok ps →
      (∀ i j, i < j → j < (tileCount r + 7) / 8 →
        pageLoc g.core ps (mapAddr r (8 * i)) ≠ pageLoc g.core ps (mapAddr r (8 * j))) →
      (∀ i < (tileCount r + 7) / 8, ∀ x ∈ (List.range (tileCount r)).flatMap (tileRows r), ∀ q ∈ spans x.1 x.2,
        ¬ (pageLoc g.core ps q.1 ≤ pageLoc g.core ps (mapAddr r (8 * i)) ∧
          pageLoc g.core ps (mapAddr r (8 * i)) < pageLoc g.core ps q.1 + q.2)) →
      ∃ s1 : State, exec (.zmap h d tid) s = .next (s1.finish g h [] [Claims.counted g d .matrix
          ((List.range (tileCount r)).countP (fun t =>
            (tileRows r t).all (fun x => rowZero r (s.reachRead k x.1 x.2))))] none none (Claims.probed ps)) ∧
        (∀ t < tileCount r, (s1.read8 (pageLoc g.core ps (mapAddr r t))).getLsbD (t % 8)
          = (tileRows r t).all (fun x => rowZero r (s.reachRead k x.1 x.2))) ∧
        ∀ x, (∀ i < (tileCount r + 7) / 8, x ≠ pageLoc g.core ps (mapAddr r (8 * i))) → s1.read8 x = s.read8 x))


/-! ## Key tables -/

namespace Sys2Proof.Claims

/-- The live entry at a place of a table (R348). -/
def live (s : State) (core : Nat) (k : KTable) (p : KPlace) : Option (BitVec 128) :=
  let e := BitVec.ofNat 128 (s.readNat ((⟨s, core, k⟩ : KView).at_ p) 16)
  if e.extractLsb' 120 8 = 1 then some e else none

/-- The places that may hold a key, in order (R350): the 28 slots of its window, then the records in use where its home
bucket has overflowed. -/
def places (s : State) (core : Nat) (k : KTable) (key : Word32) : List KPlace :=
  (List.range 28).map (fun i => .slot ((k.home key + i / 7) % 2 ^ k.logb) (i % 7)) ++
    (if (s.read8 (scrLoc core (k.off + 128 * k.home key) + 1)).getLsbD 0 then (List.range k.sphw).map .record else [])

/-- The first live entry with a key (R350). -/
def found (s : State) (core : Nat) (k : KTable) (key : Word32) : Option (KPlace × BitVec 128) :=
  (places s core k key).findSome? (fun p =>
    match live s core k p with
    | some e => if e.extractLsb' 0 32 = key then some (p, e) else none
    | none => none)

/-- Bit 3 of a status: the entry is a spill record (R353). -/
def spill (p : KPlace) : Nat :=
  match p with
  | .slot .. => 0
  | .record _ => 8

/-- Table n of the group's team, named by e, whose lines lie in the slice and whose records lie in memory apart from each
other; no poison; no watchpoint; a core. -/
def table (s : State) (g : Group) (e : Opd) (t : Team) (n c : Nat) (k : KTable) : Prop :=
  freeAcq s g ∧ s.team? g.team = some t ∧ (g.uni64 e).toNat = n ∧ n < 8 ∧ t.kts[n]? = some (some k) ∧ g.core = some c ∧
    s.poison = [] ∧ Memory.wf s.mem = true ∧ k.off + 128 * 2 ^ k.logb ≤ 2 ^ 20 ∧ 4 ≤ k.logb ∧ k.logb ≤ 12 ∧
    (∀ r, r < k.cap → (⟨s, c, k⟩ : KView).at_ (.record r) + 16 ≤ 2 ^ 56) ∧
    ∀ r r', r < k.cap → r' < k.cap → r ≠ r' → (⟨s, c, k⟩ : KView).at_ (.record r) + 16 ≤ (⟨s, c, k⟩ : KView).at_ (.record r') ∨
      (⟨s, c, k⟩ : KView).at_ (.record r') + 16 ≤ (⟨s, c, k⟩ : KView).at_ (.record r)

/-- The machine after an instruction over table n, which is now k, that has joined its unit's order with a result. -/
def joined (s : State) (g : Group) (t : Team) (n : Nat) (k : KTable) : State :=
  (s.setTable t.id n (some k)).queueKey g true

/-- Statuses as a result in the active lanes. -/
def statuses (g : Group) (h : Hdr) (d : Opd) (st : Nat → Nat) : List RegWrite :=
  g.writesTo d false 32 (g.active h) (fun i => BitVec.ofNat 128 (st i))

/-- The statuses of one key group: of its lowest lane, of its others, of the lanes outside. -/
def firstRest (g : Group) (h : Hdr) (first rest i : Nat) : Nat :=
  if (g.contributors h).getLsbD i then (if lowest (g.contributors h) = some i then first else rest) else 7

/-- The value that a form of w bits leaves (R355): all of it, or its low half. -/
def kvalue (w : Nat) (old v : Nat) : Nat :=
  if w = 32 then old / 2 ^ 32 * 2 ^ 32 + v % 2 ^ 32 else v % 2 ^ 64

/-- The operator of a `KACC` (R356). -/
def kop : KOp → RedOp
  | .add => .add
  | .fadd => .fadd
  | .min => .min
  | .max => .max
  | .or => .or

/-- An entry from its fields (R348). -/
def entry (state seq value : Nat) (key : Word32) : BitVec 128 :=
  BitVec.ofNat 128 (key.toNat + 2 ^ 32 * (value % 2 ^ 64) + 2 ^ 96 * (seq % 2 ^ 24) + 2 ^ 120 * state)

/-- The order of a drain: by key, or by insertion (R357). -/
def drainKey (key : Bool) (e : BitVec 128) : Nat :=
  if key then (e.extractLsb' 0 32).toNat else (e.extractLsb' 96 24).toNat

/-- Every byte outside the line of a bucket and the 16 bytes of a place is as before. -/
def keeps (s s1 : State) (core : Nat) (k : KTable) (bucket : Nat) (p : KPlace) : Prop :=
  ∀ x, x / 128 ≠ scrLoc core (k.off + 128 * bucket) / 128 →
    (x < (⟨s, core, k⟩ : KView).at_ p ∨ (⟨s, core, k⟩ : KView).at_ p + 16 ≤ x) → s1.read8 x = s.read8 x

/-- Every byte is as before outside a place: a slot with its bucket's line, or the 16 bytes of a record. -/
def keepsPlace (s s1 : State) (core : Nat) (k : KTable) (p : KPlace) : Prop :=
  match p with
  | .slot b _ => keeps s s1 core k b p
  | .record _ => ∀ x, (x < (⟨s, core, k⟩ : KView).at_ p ∨ (⟨s, core, k⟩ : KView).at_ p + 16 ≤ x) → s1.read8 x = s.read8 x

/-- All places of a table. -/
def allPlaces (k : KTable) : List KPlace :=
  (List.range (2 ^ k.logb)).flatMap (fun b => (List.range 7).map (.slot b)) ++ (List.range k.sphw).map .record

end Sys2Proof.Claims

/-- `KPRB` (R350, R353, R354): every active lane gets the status and the value of its key's entry. `KINS`, `KDEL`, `KACC`
of lanes with one key (R350, R353 to R356): an entry found stays, is deleted, or takes the operator's result on its value
and the fold of the lanes' values; a key not found gets the first free slot of its window, else the first free record of
those in use, else a new record; the entry is then live, with the next sequence number; `FULL` and
`SEQFULL` change nothing. No byte of memory changes but those of the entry and of the line of the bucket it stands in, or, for
a record, of the home bucket that it overflows from. -/
def Obligations.KeyTableEntries : Prop :=
  (∀ (s : State) (g : Group) (h : Hdr) (ty : ITy) (d a b e : Opd) (t : Team) (n c : Nat) (k : KTable)
      (f : Nat → Option (KPlace × BitVec 128)) (ws : List RegWrite),
    (Instr.kprb h ty d a b e).wellFormed = true → s.group? s.cur = some g → Claims.table s g e t n c k →
    g.checkHeld [(d, 32), (a, 32), (b, ty.width)] = .ok () →
    (∀ i, f i = Claims.found s c k ((g.srcLane a 32 i).setWidth 32)) →
    ws = Claims.statuses g h d (fun i => match f i with | some x => 1 + Claims.spill x.1 | none => 2) ++
      g.writesTo b false ty.width (g.active h) (fun i => match f i with
        | some x => BitVec.ofNat 128 ((x.2.extractLsb' 32 64).toNat % 2 ^ ty.width)
        | none => 0) →
    exec (.kprb h ty d a b e) s
      = .next ((Claims.joined s g t n k).finish g h [] [{ writes := ws, unit := .keyTable }] none none)) ∧
  (∀ (s : State) (g : Group) (h : Hdr) (d a e : Opd) (held : List (Opd × Nat)) (t : Team) (n c : Nat) (k : KTable)
      (key : Word32) (low : Nat) (i : Instr) (v r : Nat) (end_ : State → KTable → Nat → Nat → Prop),
    i.wellFormed = true → s.group? s.cur = some g → Claims.table s g e t n c k →
    g.checkHeld ((d, 32) :: (a, 32) :: held) = .ok () → lowest (g.contributors h) = some low →
    (∀ j, (g.contributors h).getLsbD j = true → (g.srcLane a 32 j).setWidth 32 = key) →
    end_ = (fun s1 k1 first rest => exec i s = .next ((Claims.joined s1 g t n k1).finish g h []
      [{ unit := .keyTable, writes := Claims.statuses g h d (Claims.firstRest g h first rest) }] none none)) →
    (∀ p x, Claims.found s c k key = some (p, x) →
      (∀ ty b, i = .kins h ty d a b e → held = [(b, ty.width)] →
        end_ s k (1 + Claims.spill p) (1 + Claims.spill p)) ∧
      (i = .kdel h d a e → held = [] → ∃ (s1 : State) (k1 : KTable), end_ s1 k1 (1 + Claims.spill p) 2 ∧
        Claims.live s1 c k1 p = none ∧ k1 = { k with
          bklive := (if Claims.spill p = 0 then k.bklive - 1 else k.bklive),
          splive := (if Claims.spill p = 0 then k.splive else k.splive - 1) } ∧
        (k.off % 128 = 0 → Claims.keepsPlace s s1 c k p)) ∧
      (∀ op ty b, i = .kacc h op ty d a b e → held = [(b, ty.width)] →
        v = (((lanesOf (g.contributors h)).drop 1).foldl (fun v j =>
          (Claims.step (Claims.kop op) ty v (g.srcLane b ty.width j)).1) (g.srcLane b ty.width low)).toNat →
        ∃ s1 : State, end_ s1 k (1 + Claims.spill p) (1 + Claims.spill p) ∧
          Claims.live s1 c k p = some (Claims.entry 1 (x.extractLsb' 96 24).toNat
            (Claims.kvalue ty.width (x.extractLsb' 32 64).toNat
              (Claims.step (Claims.kop op) ty (BitVec.ofNat 128 ((x.extractLsb' 32 64).toNat % 2 ^ ty.width))
                (BitVec.ofNat 128 v)).1.toNat) key) ∧
          (k.off % 128 = 0 → Claims.keepsPlace s s1 c k p))) ∧
    (Claims.found s c k key = none →
      (i = .kdel h d a e → held = [] → end_ s k 2 2) ∧
      (∀ op ty b, (i = .kins h ty d a b e ∧ r = 1 ∧ v = (g.srcLane b ty.width low).toNat ∨
          i = .kacc h op ty d a b e ∧ r = 0 ∧ v = Claims.kvalue ty.width 0 (Claims.step (Claims.kop op) ty
            (Claims.ident (Claims.kop op) ty) (((lanesOf (g.contributors h)).drop 1).foldl (fun v j =>
              (Claims.step (Claims.kop op) ty v (g.srcLane b ty.width j)).1) (g.srcLane b ty.width low))).1.toNat) →
        held = [(b, ty.width)] →
        (2 ^ 24 ≤ k.nextseq → end_ s k 4 4) ∧
        (k.nextseq < 2 ^ 24 →
          (∀ q < 28, Claims.live s c k (.slot ((k.home key + q / 7) % 2 ^ k.logb) (q % 7)) = none →
            (∀ q' < q, Claims.live s c k (.slot ((k.home key + q' / 7) % 2 ^ k.logb) (q' % 7)) ≠ none) →
            ∃ s1 : State, end_ s1 { k with nextseq := k.nextseq + 1, bklive := k.bklive + 1 } 0 r ∧
              Claims.found s1 c k key = some (.slot ((k.home key + q / 7) % 2 ^ k.logb) (q % 7),
                Claims.entry 1 k.nextseq v key) ∧
              (∀ x, x / 128 ≠ scrLoc c (k.off + 128 * ((k.home key + q / 7) % 2 ^ k.logb)) / 128 → k.off % 128 = 0 →
                s1.read8 x = s.read8 x)) ∧
          ((∀ q < 28, Claims.live s c k (.slot ((k.home key + q / 7) % 2 ^ k.logb) (q % 7)) ≠ none) →
            (∀ r1 < k.sphw, r1 < k.cap → Claims.live s c k (.record r1) = none →
              (∀ r2 < r1, Claims.live s c k (.record r2) ≠ none) →
              ∃ (s1 : State) (k1 : KTable), end_ s1 k1 8 (8 + r) ∧
                k1 = { k with nextseq := k.nextseq + 1, splive := k.splive + 1 } ∧
                Claims.live s1 c k1 (.record r1) = some (Claims.entry 1 k.nextseq v key) ∧
                .record r1 ∈ Claims.places s1 c k1 key ∧
                (k.off % 128 = 0 → Claims.keeps s s1 c k (k.home key) (.record r1))) ∧
            ((∀ r1 < k.sphw, Claims.live s c k (.record r1) ≠ none) →
            (k.cap ≤ k.sphw → end_ s k 3 3) ∧
            (k.sphw < k.cap → ∃ (s1 : State) (k1 : KTable), end_ s1 k1 8 (8 + r) ∧
              k1 = { k with nextseq := k.nextseq + 1, splive := k.splive + 1, sphw := k.sphw + 1 } ∧
              Claims.live s1 c k1 (.record k.sphw) = some (Claims.entry 1 k.nextseq v key) ∧
              .record k.sphw ∈ Claims.places s1 c k1 key ∧
              (k.off % 128 = 0 → Claims.keeps s s1 c k (k.home key) (.record k.sphw)))))))))

/-- `KCLAIM`, `KFREE`, `KSTAT` (R347, R358, R362): the lowest free handle; its lines are zeros and full; nothing else of
memory changes; a freed handle names no table; the handle's state in its 128 bits. A handle that names no table is a
`KHANDLE` fault.

`KDRN` (R357): the lowest entries past the drain position, in order, to the contributing lanes from the lowest; how many;
the position moves to the last; with `.DEL` they are deleted. That one which returns nothing leaves the position not valid
after `.RST` or a changed order, where R357 leaves the cursor as it was, and that `KSTAT` counts at its place in the unit's
order, is the model's choice (log entry 40, DEDUCED). -/
def Obligations.KeyTableHandles : Prop :=
  ((∀ (s : State) (g : Group) (h : Hdr) (logb : BitVec 6) (d a b c : Opd) (t : Team) (n core : Nat) (ps : List Page),
     (Instr.kclaim h logb d a b c).wellFormed = true → s.group? s.cur = some g → Claims.free s g →
     Memory.wf s.mem = true → s.team? g.team = some t → t.kts[n]? = some none → (∀ j < n, t.kts[j]? ≠ some none) →
     g.core = some core →
     claimBad t (s.valsOf t).scratch logb.toNat (g.uni64 c) (g.uni64 a) (g.uni64 b) = false →
     s.probe (s.accessor g) .write (g.uni64 a) (16 * (g.uni64 b).toNat) [] = .ok ps →
     ∃ (s1 : State) (k : KTable), exec (.kclaim h logb d a b c) s
         = .next ((Claims.joined s1 g t n k).finish g h [] [Claims.counted g d .keyTable n] none none (Claims.probed ps)) ∧
       k = { off := (g.uni64 c).toNat - LOCAL_BASE, logb := logb.toNat, spill := g.uni64 a, cap := (g.uni64 b).toNat,
             pages := ps, nextseq := 0, sphw := 0, splive := 0, bklive := 0, cpos := 0, cvalid := false, ckey := false } ∧
       (∀ x, s1.read8 x = if scrLoc core k.off ≤ x ∧ x < scrLoc core k.off + 128 * 2 ^ k.logb then 0 else s.read8 x) ∧
       (∀ l, l ∈ s1.fe ↔ l ∈ s.fe ∧ ¬ (lineOf (scrLoc core k.off) ≤ l ∧ l < lineOf (scrLoc core k.off) + 2 ^ k.logb))) ∧
   (∀ (s : State) (g : Group) (h : Hdr) (e : Opd) (t : Team) (k : KTable), (Instr.kfree h e).wellFormed = true →
     s.group? s.cur = some g → Claims.freeAcq s g → s.team? g.team = some t → (g.uni64 e).toNat < 8 →
     t.kts[(g.uni64 e).toNat]? = some (some k) →
     exec (.kfree h e) s
       = .next (((s.setTable t.id (g.uni64 e).toNat none).queueKey g false).finish g h [] [] none none)) ∧
   (∀ (s : State) (g : Group) (h : Hdr) (d e : Opd) (t : Team) (k : KTable) (v : Nat), (Instr.kstat h d e).wellFormed = true →
     s.group? s.cur = some g → Claims.freeAcq s g → s.team? g.team = some t → (g.uni64 e).toNat < 8 →
     t.kts[(g.uni64 e).toNat]? = some (some k) →
     v = k.bklive % 2 ^ 16 + 2 ^ 16 * (k.splive % 2 ^ 24) + 2 ^ 40 * (k.sphw % 2 ^ 24) + 2 ^ 64 * k.cpos.toNat +
       2 ^ 96 * k.cvalid.toNat + 2 ^ 97 * k.ckey.toNat + 2 ^ 99 * (if 2 ^ 24 ≤ k.nextseq then 1 else 0) +
       2 ^ 100 * (k.logb % 16) + 2 ^ 104 * (k.nextseq % 2 ^ 24) →
     exec (.kstat h d e) s = .next ((Claims.joined s g t (g.uni64 e).toNat k).finish g h []
       [{ unit := .keyTable, writes := g.writesTo d false 128 g.exec (fun _ => BitVec.ofNat 128 v) }] none none)) ∧
   (∀ (s : State) (g : Group) (h : Hdr) (e : Opd) (i : Instr) (t : Team), (i = .kfree h e ∨ ∃ d, i = .kstat h d e) →
     i.wellFormed = true → s.group? s.cur = some g → s.heldAcq g = false → s.team? g.team = some t →
     (∀ k, t.kts[(g.uni64 e).toNat]? ≠ some (some k) ∨ 8 ≤ (g.uni64 e).toNat) →
     exec i s = .next (s.take { g with wait := none } (trapOf .khandle)))) ∧
  (∀ (s : State) (g : Group) (h : Hdr) (ty : ITy) (key del rst : Bool) (d b cnt e : Opd) (t : Team) (n c : Nat)
       (k : KTable) (valid : Bool) (past : List (KPlace × BitVec 128)),
     (Instr.kdrn h ty key del rst d b cnt e).wellFormed = true → s.group? s.cur = some g → Claims.table s g e t n c k →
     s.held g = false →
     g.checkHeld [(d, 32), (b, ty.width)] = .ok () → k.sphw ≤ k.cap →
     valid = (k.cvalid && !rst && (k.ckey == key)) →
     past = ((Claims.allPlaces k).filterMap (fun p => (Claims.live s c k p).map (fun x => (p, x)))).filter (fun x =>
       !valid || decide (k.cpos.toNat < Claims.drainKey key x.2)) →
     ∃ (s1 : State) (k1 : KTable) (got : List (KPlace × BitVec 128)) (keys vals : Nat → Code),
       exec (.kdrn h ty key del rst d b cnt e) s = .next ((Claims.joined s1 g t n k1).finish g h []
         [{ unit := .keyTable, writes := g.writesTo d false 32 (g.active h) keys ++
             g.writesTo b false ty.width (g.active h) vals ++
             g.writesTo cnt false 64 g.exec (fun _ => BitVec.ofNat 128 got.length) }] none none) ∧
       (∀ x ∈ got, x ∈ past) ∧ got.Nodup ∧
       got.Pairwise (fun x y => Claims.drainKey key x.2 ≤ Claims.drainKey key y.2) ∧
       got.length = min (count (g.contributors h)) past.length ∧
       (∀ x ∈ past, x ∉ got → ∀ y ∈ got, Claims.drainKey key y.2 ≤ Claims.drainKey key x.2) ∧
       (∀ (j lane : Nat), (lanesOf (g.contributors h))[j]? = some lane →
         keys lane = (match (got[j]? : Option (KPlace × BitVec 128)) with | some x => (x.2.extractLsb' 0 32).setWidth 128 | none => 0) ∧
         vals lane = (match (got[j]? : Option (KPlace × BitVec 128)) with
           | some x => BitVec.ofNat 128 ((x.2.extractLsb' 32 64).toNat % 2 ^ ty.width)
           | none => 0)) ∧
       (∀ lane, (g.contributors h).getLsbD lane = false → keys lane = 0 ∧ vals lane = 0) ∧
       k1 = { k with
         cpos := (match got.getLast? with | some x => BitVec.ofNat 32 (Claims.drainKey key x.2) | none => k.cpos),
         cvalid := valid || !got.isEmpty, ckey := (if got.isEmpty then k.ckey else key),
         bklive := k1.bklive, splive := k1.splive } ∧
       (del = false → s1 = s ∧ k1.bklive = k.bklive ∧ k1.splive = k.splive) ∧
       (del = true → ∀ x ∈ got, Claims.live s1 c k1 x.1 = none))


/-! ## Stochastic streams -/

namespace Sys2Proof.Claims

/-- A stream instruction over streams alone (R366, R371, R372): header, destination, sources, when the classes fit, the
class of the result, its bits in a lane of length L from those of the sources. -/
structure StreamForm where
  h : Hdr
  d : Opd
  srcs : List Opd
  ok : List (BitVec 16) → Prop
  cls : List (BitVec 16) → BitVec 16
  bit : Nat → Nat → List (BitVec 512) → Nat → Bool

/-- The number of ones among the low L bits. -/
def ones (L : Nat) (x : BitVec 512) : Nat :=
  (List.range L).countP (fun j => x.getLsbD j)

def streamForm (g : Group) : Instr → Option StreamForm
  | .smul h d a b => some ⟨h, d, [a, b], fun c => c.getD 0 0 &&& c.getD 1 0 = 0, fun c => c.getD 0 0 ||| c.getD 1 0,
      fun _ _ x j => (x.getD 0 0).getLsbD j && (x.getD 1 0).getLsbD j⟩
  | .smin h d a b => some ⟨h, d, [a, b], fun c => c.getD 0 0 = c.getD 1 0, fun c => c.getD 0 0,
      fun _ _ x j => (x.getD 0 0).getLsbD j && (x.getD 1 0).getLsbD j⟩
  | .smax h d a b => some ⟨h, d, [a, b], fun c => c.getD 0 0 = c.getD 1 0, fun c => c.getD 0 0,
      fun _ _ x j => (x.getD 0 0).getLsbD j || (x.getD 1 0).getLsbD j⟩
  | .snot h d a => some ⟨h, d, [a], fun _ => True, fun c => c.getD 0 0, fun _ _ x j => !(x.getD 0 0).getLsbD j⟩
  | .ssel h d a b c => some ⟨h, d, [a, b, c],
      fun c => c.getD 2 0 &&& c.getD 0 0 = 0 ∧ c.getD 2 0 &&& c.getD 1 0 = 0,
      fun c => c.getD 0 0 ||| c.getD 1 0 ||| c.getD 2 0,
      fun _ _ x j => if (x.getD 2 0).getLsbD j then (x.getD 1 0).getLsbD j else (x.getD 0 0).getLsbD j⟩
  | .sregen h n d a b => some ⟨h, d, [a], fun _ => True, fun _ => BitVec.ofNat 16 (2 ^ n.toNat),
      fun L lane x j => decide (lattice (g.uni64 b) n.toNat lane (BitVec.ofNat 64 j) < ones L (x.getD 0 0) * (65536 / L))⟩
  | _ => none

/-- A group of a team with streams, for which Chord's order has room (R376). -/
def chordFree (s : State) (g : Group) (t : Team) : Prop :=
  s.team? g.team = some t ∧ (s.core (g.core.getD 0)).chordOps.length < 8

/-- The mask that `SBIT` writes: bit j of each active lane (R373). -/
def bitMask (g : Group) (h : Hdr) (x : Stream) (j : Nat) : Mask :=
  maskOf (fun lane => (g.active h).getLsbD lane && (vget x.lanes lane 0).getLsbD j)

/-- What a stream instruction may do (R376, R377): Chord's order has room, no acquire load waits, the sources are sound. -/
def streams (s : State) (g : Group) (t : Team) (srcs : List Opd) (xs : List Stream) : Prop :=
  Claims.chordFree s g t ∧ s.heldAcq g = false ∧
    srcs.map (fun o => t.streams[g.streamNum o]?) = xs.map some ∧ ∀ x ∈ xs, x.poison = false

/-- The destination after a stream instruction (R366, R367, R377): the contributing lanes hold the bits given below L and
0 above, the others what they held. -/
def streamPut (old new : Stream) (L : Nat) (con : Mask) (cls : BitVec 16) (bit : Nat → Nat → Bool) : Prop :=
  (∀ lane < 64, ∀ j < 512, (vget new.lanes lane 0).getLsbD j
    = if con.getLsbD lane then decide (j < L) && bit lane j else (vget old.lanes lane 0).getLsbD j) ∧
  new.cls = (if con = BitVec.allOnes 64 then cls else cls ||| old.cls) ∧
  new.poison = (old.poison && decide (con ≠ BitVec.allOnes 64))

/-- The threshold of `SGEN` (R370): the least integer at or above 65,536 × p, kept to 0 … 65,536. -/
def isThreshold (v : FVal) (th : Nat) : Prop :=
  match v with
  | .nan _ => th = 0
  | .inf n => th = if n then 0 else 65536
  | .fin .. => th ≤ 65536 ∧ (th = 65536 ∨ 65536 * rat v ≤ th) ∧ (th = 0 ∨ (th : ℚ) - 1 < 65536 * rat v)

end Sys2Proof.Claims

/-- The stream instructions (R364 to R376), each in Chord's order; while that holds eight the group waits. Each has its whole
effect on the stream registers, and fixes what it returns, when it issues (log entry 41, DEDUCED). `SLEN` sets the
length. `SGEN` draws bits below a threshold, a NaN raising `INVALID`; `SREGEN` draws anew; `SMUL`, `SMIN`, `SMAX`, `SNOT`,
`SSEL` combine bit by bit where the classes fit, else `CORRMIX`. `SCNT` counts the ones below L, or their share; `SBIT`
keeps its group until Chord has returned one bit of each active lane; `SCLS` reads the classes and L. The oldest operation
of Chord or of a key-table unit completes (R359, R375): its result has returned. -/
def Obligations.StreamResults : Prop :=
  (∀ (s : State) (g g1 : Group) (h : Hdr) (l : BitVec 2) (t : Team), (Instr.slen h l).wellFormed = true →
    s.group? s.cur = some g → Claims.chordFree s g t → g1 = { g with len := l } → g1.slen = 64 * 2 ^ l.toNat ∧
    exec (.slen h l) s = .next ((s.queueChord g false).finish g1 h [] [] none none)) ∧
  (∀ (s : State) (g : Group) (i : Instr), i.wellFormed = true → s.group? s.cur = some g → s.heldAcq g = false →
    ((∃ h l, i = .slen h l) ∨ (∃ f, Claims.streamForm g i = some f) ∨ (∃ h n d a b, i = .sgen h n d a b) ∨
      (∃ h fl d a, i = .scnt h fl d a) ∨ (∃ h d a b, i = .sbit h d a b ∧ g.prog = 0) ∨ ∃ h d a, i = .scls h d a) →
    8 ≤ (s.core (g.core.getD 0)).chordOps.length →
    ∃ t : State, exec i s = .next t ∧ t.group? g.id = some { g with wait := some .chord } ∧ t.teams = s.teams) ∧
  (∀ (s : State) (g : Group) (i : Instr) (f : Claims.StreamForm) (t : Team) (old : Stream) (xs : List Stream),
    Claims.streamForm g i = some f → i.wellFormed = true → s.group? s.cur = some g →
    Claims.streams s g t f.srcs xs → t.streams[g.streamNum f.d]? = some old →
    (f.ok (xs.map (fun x => x.cls)) → ∃ new, Claims.streamPut old new g.slen (g.contributors f.h)
        (f.cls (xs.map (fun x => x.cls))) (fun lane j => f.bit g.slen lane (xs.map (fun x => vget x.lanes lane 0)) j) ∧
      exec i s = .next (((s.setStream t.id (g.streamNum f.d) new).queueChord g false).finish g f.h [] [] none none)) ∧
    (¬ f.ok (xs.map (fun x => x.cls)) → exec i s = .next (s.take { g with wait := none } (trapOf .corrmix)))) ∧
  (∀ (s : State) (g : Group) (h : Hdr) (n : BitVec 4) (d a b : Opd) (t : Team) (old : Stream) (th : Nat → Nat),
    (Instr.sgen h n d a b).wellFormed = true → s.group? s.cur = some g → Claims.streams s g t [] [] →
    g.checkHeld [(a, 32)] = .ok () → t.streams[g.streamNum d]? = some old →
    (∀ lane, Claims.isThreshold (valOf .f32 (g.srcLane a 32 lane).toNat) (th lane)) →
    ∃ (new : Stream) (g1 : Group), Claims.streamPut old new g.slen (g.contributors h) (BitVec.ofNat 16 (2 ^ n.toNat))
        (fun lane j => decide (lattice (g.uni64 b) n.toNat lane (BitVec.ofNat 64 j) < th lane)) ∧
      g1 = { g with fstat := g1.fstat } ∧
      (∀ k, g1.fstat.getLsbD k = true ↔ g.fstat.getLsbD k = true ∨ fInvalid.getLsbD k = true ∧ ∃ lane,
        (g.contributors h).getLsbD lane = true ∧ ∃ q, valOf .f32 (g.srcLane a 32 lane).toNat = .nan q) ∧
      exec (.sgen h n d a b) s
        = .next (((s.setStream t.id (g.streamNum d) new).queueChord g false).finish g1 h [] [] none none)) ∧
  (∀ (s : State) (g : Group) (h : Hdr) (fl : Bool) (d a : Opd) (t : Team) (x : Stream) (n : Nat → Nat),
    (Instr.scnt h fl d a).wellFormed = true → s.group? s.cur = some g → Claims.streams s g t [a] [x] →
    g.checkHeld [(d, 32)] = .ok () → (∀ lane, n lane = Claims.ones g.slen (vget x.lanes lane 0)) →
    ∃ c : Nat → Code, (fl = false → ∀ lane, c lane = BitVec.ofNat 128 (n lane)) ∧
      (fl = true → ∀ lane, Claims.rat (valOf .f32 (c lane).toNat) = (n lane : ℚ) / g.slen ∧ (c lane).toNat < 2 ^ 32) ∧
      exec (.scnt h fl d a) s = .next ((s.queueChord g true).finish g h []
        [{ unit := .chord, writes := g.writesTo d false 32 (g.active h) c }] none none)) ∧
  (∀ (s : State) (g : Group) (h : Hdr) (m : BitVec 3) (a b : Opd) (t : Team) (x : Stream),
    (Instr.sbit h (.m m) a b).wellFormed = true → s.group? s.cur = some g → g.prog = 0 → Claims.streams s g t [a] [x] →
    ∃ (u : State) (l : Long), exec (.sbit h (.m m) a b) s = .next u ∧ 
      u.group? g.id = some { g with pend := g.pend ++ [l], prog := BitVec.allOnes 64, wait := some .chord } ∧
      l.id = s.nextId ∧ l.returned = false ∧
      l.writes = [.m m (g.active h) (Claims.bitMask g h x ((g.uni64 b).toNat % g.slen))] ∧
      (∀ c, g.core = some c → c < 272 →
        (u.core c).chordOps = (s.core c).chordOps ++ [⟨g.id, g.team, some l.id⟩])) ∧
  (∀ (s : State) (g : Group) (h : Hdr) (d a b : Opd) (l : Long), (Instr.sbit h d a b).wellFormed = true →
    s.group? s.cur = some g → s.heldAcq g = false → g.prog ≠ 0 → g.pend.getLast? = some l → l.returned = true →
    exec (.sbit h d a b) s = .next (s.finish { g with pend := g.pend.dropLast } h l.writes [] none none)) ∧
  (∀ (s : State) (g : Group) (h : Hdr) (d a : Opd) (t : Team) (x : Stream), (Instr.scls h d a).wellFormed = true →
    s.group? s.cur = some g → Claims.streams s g t [a] [x] →
    exec (.scls h d a) s
      = .next ((s.queueChord g true).finish g h [] [Claims.counted g d .chord (x.cls.toNat + 2 ^ 16 * g.slen)] none none)) ∧
  (∀ (s : State) (c : Nat) (op : UnitOp) (rest : List UnitOp) (s1 : State) (i : Instr), c < 272 →
    (i = .keyOpComplete c ∧ (s.core c).keyOps = op :: rest ∧ s1 = s.modCore c (fun k => { k with keyOps := rest }) ∨
      i = .chordOpComplete c ∧ (s.core c).chordOps = op :: rest ∧
        s1 = s.modCore c (fun k => { k with chordOps := rest })) →
    (op.result = none → exec i s = .next s1) ∧
    (∀ id g, op.result = some id → s.group? op.gid = some g → ∃ g', exec i s = .next (s1.setGroup g') ∧
      g' = { g with pend := g'.pend, hset := g'.hset, sset := g'.sset, folds := g'.folds } ∧
      g'.pend = g.pend.map (fun l => { l with returned := l.returned || decide (l.id = id) })))


/-! ## Exchanges -/

namespace Sys2Proof.Claims

/-- A member of an untiled collective moves at known locations (R385, R386): its source elements from S on, its
destination elements from D on. -/
def moves (m : CollMember) (n src dst : Nat) : Prop :=
  m.tile = none ∧ ∀ o < n, m.loc (plus m.src o) = some (src + o) ∧ m.loc (plus m.dst o) = some (dst + o)

/-- The member that a `COLL` makes (R385). -/
def member (s : State) (g : Group) (h : Hdr) (t : Team) (td : Option (BitVec 256)) (d b c e : Opd) (ps : List Page) :
    CollMember :=
  { rank := (g.uni64 b).toNat, src := g.uni64 c, dst := g.uni64 e, trigger := g.uni64 d,
    trigTeam := (s.scrOwner g.core (g.uni64 d)).1, trigOff := (s.scrOwner g.core (g.uni64 d)).2, tile := td, pages := ps,
    team := t.id, launch := t.launch, fork := s.forkOf g (if h.st then s.ordinal g g.pc else none) }

end Sys2Proof.Claims

/-- `TILE` (R192, R380, R381): a valid descriptor goes to the register as a long result, else `BADTILE`. `COLL` (R385): a
member whose checks pass joins the open instance of its key that lacks its rank, with the same descriptor; else it opens
one.

`COLLECTIVE_COMPLETE` (R386 to R389, R391): a sum of INT32 gives every member the sum of the members' elements, a broadcast
those of rank 0, sources read before any destination is written; a barrier moves nothing. Once the instance is done it is
gone: one arrival on its object, held for a team that is away; 1 is added to each trigger. The team whose object it is, and
the team and place of a trigger word in a slice, are those found when the member joined (log entry 42, DEDUCED). One that a
packet has attached completes once, when every member is ready, and retires after the last exit of its launch (R128). -/
def Obligations.Collectives : Prop :=
  ((∀ (s : State) (g : Group) (h : Hdr) (n : BitVec 2) (a b : BitVec 6) (v : BitVec 256) (ok : Prop),
     (Instr.tile h (.t n) (.x a) (.x b)).wellFormed = true → s.group? s.cur = some g →
     v = g.xVal (b + 1) ++ g.xVal b ++ g.xVal (a + 1) ++ g.xVal a →
     ok = (v.extractLsb' 128 24 = 0 ∧ 0 < (v.extractLsb' 232 24).toNat ∧ 0 < (v.extractLsb' 24 24).toNat ∧
       0 < (v.extractLsb' 0 24).toNat ∧
       (v.extractLsb' 232 24).toNat * (v.extractLsb' 24 24).toNat * (v.extractLsb' 0 24).toNat < 2 ^ 30) →
     (ok → exec (.tile h (.t n) (.x a) (.x b)) s = .next (s.finish g h [] [{ writes := [.t n v] }] none none)) ∧
     (¬ ok → exec (.tile h (.t n) (.x a) (.x b)) s = .next (s.take { g with wait := none } (trapOf .badtile)))) ∧
   (∀ (s : State) (g : Group) (h : Hdr) (tile : Option (BitVec 2)) (d a b c e : Opd) (t : Team) (bits : BitVec 256)
       (td : Option (BitVec 256)) (ps : List Page) (m : CollMember) (ts : List Touch),
     (Instr.coll h tile d a b c e).wellFormed = true → s.group? s.cur = some g → g.mode = .user → s.held g = false →
     s.team? g.team = some t → s.collCores = true → (g.uni64 a).toNat % 32 = 0 → s.readDesc g (g.uni64 a) = .ok bits →
     collOk bits = true → (g.uni64 b).toNat < (collOf bits).memb →
     ((collOf bits).ckind = 1 ∨ (collOf bits).ckind = 4 → (collOf bits).count % (collOf bits).memb = 0) →
     (tile = none ∧ td = none ∨ ∃ n, tile = some n ∧ td = vget g.t n.toNat none ∧ td ≠ none) →
     m = Claims.member s g h t td d b c e ps → ts = ⟨g.uni64 a, 32, true, false⟩ :: pageTouches ps →
     s.checkMember g (collOf bits) { m with pages := [] } = .ok ps →
     ((∀ k ∈ s.colls, k.part = (s.accessor g).part → k.key = g.uni64 a → k.launch = none →
         k.desc.memb ≤ k.members.length ∨ ∃ x ∈ k.members, x.rank = m.rank) → s.openColls.length < 256 →
       ∃ (s1 : State) (k : Coll), s1 = { s with
           colls := s.colls ++ [k], nextId := s.nextId + 1 } ∧
         k.part = (s.accessor g).part ∧ k.key = g.uni64 a ∧ k.launch = none ∧ k.desc = collOf bits ∧ k.members = [m] ∧
         exec (.coll h tile d a b c e) s = .next (s1.finish g h [] [] none none ts)) ∧
     (∀ pre k post, s.colls = pre ++ k :: post → (s.colls.map (fun (x : Coll) => x.id)).Nodup →
       (∀ x ∈ pre, x.key ≠ g.uni64 a) → k.part = (s.accessor g).part → k.key = g.uni64 a → k.launch = none →
       k.members.length < k.desc.memb → (∀ x ∈ k.members, x.rank ≠ m.rank) →
       (k.desc = collOf bits → ∃ s1 : State, s1 = { s with
           colls := pre ++ { k with members := k.members ++ [m] } :: post } ∧
         exec (.coll h tile d a b c e) s = .next (s1.finish g h [] [] none none ts)) ∧
       (k.desc ≠ collOf bits →
         exec (.coll h tile d a b c e) s = .next (s.take { g with wait := none } (trapOf .badcoll)))))) ∧
  ((∀ (s : State) (k : Coll) (n : Nat) (src dst : Nat → Nat) (ty : Nat), s.colls.find? (fun x => x.id == k.id) = some k →
     k.launch = none → k.members.length = k.desc.memb → 1 < k.desc.memb → k.desc.count = n → Memory.wf s.mem = true →
     s.poison = [] → (∀ p, (s.part p).arm = false) → k.members.map (fun (m : CollMember) => m.rank) = List.range k.desc.memb →
     (k.desc.ckind = 0 ∧ k.desc.cop = 0 ∨ k.desc.ckind = 3) → k.desc.ctype = ty → ty ≤ 1 →
     (∀ m ∈ k.members, Claims.moves m (4 * n) (src m.rank) (dst m.rank) ∧ m.trigger = 0) →
     (∀ r r', r < k.desc.memb → r' < k.desc.memb → r ≠ r' → dst r + 4 * n ≤ dst r' ∨ dst r' + 4 * n ≤ dst r) →
     k.barTeam = none →
     ∃ t : State, exec (.collectiveComplete k.id) s = .next t ∧ t.colls = s.colls.filter (fun x => x.id != k.id) ∧
       (∀ r < k.desc.memb, ∀ j < n, t.readNat (dst r + 4 * j) 4 = if k.desc.ckind = 3 then s.readNat (src 0 + 4 * j) 4
         else ((List.range k.desc.memb).map (fun q => s.readNat (src q + 4 * j) 4)).sum % 2 ^ 32) ∧
       (∀ x, (∀ r < k.desc.memb, ¬ (dst r ≤ x ∧ x < dst r + 4 * n)) → t.read8 x = s.read8 x)) ∧
   (∀ (s s1 : State) (k : Coll) (tm : Team), s.colls.find? (fun x => x.id == k.id) = some k → k.launch = none →
     k.members.length = k.desc.memb → k.desc.ckind = 5 → k.barTeam = some tm.id → s.team? tm.id = some tm →
     (∀ p, (s.part p).arm = false) → (∀ m ∈ k.members, m.trigger = 0) →
     (∀ c, tm.core = some c → s1 = s.putArrival (scrLoc c k.barOff) (s.barrier (scrLoc c k.barOff)) 1) →
     (tm.core = none → s1 = s.modTeam tm.id (fun q => { q with held := q.held ++ [(k.barOff, 1)] })) →
     exec (.collectiveComplete k.id) s = .next { s1 with colls := s.colls.filter (fun x => x.id != k.id) }) ∧
   (∀ (s : State) (k : Coll) (m : CollMember) (loc : Nat), s.colls.find? (fun x => x.id == k.id) = some k →
     k.launch = none → k.members = [m] → k.desc.memb = 1 → k.barTeam = none → m.trigger ≠ 0 → m.trigTeam = none →
     m.loc m.trigger = some loc → s.poisonIn loc 8 = none → (∀ p, (s.part p).arm = false) →
     exec (.collectiveComplete k.id) s = .next { s.writeNat loc 8 ((s.readNat loc 8 + 1) % 2 ^ 64) with
       colls := s.colls.filter (fun x => x.id != k.id) }) ∧
   (∀ (s : State) (k : Coll) (l : Launch), s.colls.find? (fun x => x.id == k.id) = some k → k.launch = some l.id →
     s.launch? l.id = some l →
     (l.collDone = false → s.collReady k = false → exec (.collectiveComplete k.id) s = .next s) ∧
     (l.collDone = false → s.collReady k = true → k.desc.ckind = 5 → (s.scrOwner none k.desc.bar).1 = none →
       exec (.collectiveComplete k.id) s = .next (s.modLaunch l.id (fun x => { x with collDone := true }))) ∧
     (l.collDone = true → ((∃ t ∈ s.teams, t.launch = l.id) ∨ l.ended = false ∧ l.next ≠ l.vals.gx * l.vals.gy * l.vals.gz) →
       exec (.collectiveComplete k.id) s = .next s) ∧
     (l.collDone = true → (∀ t ∈ s.teams, t.launch ≠ l.id) → (l.ended = true ∨ l.next = l.vals.gx * l.vals.gy * l.vals.gz) →
       exec (.collectiveComplete k.id) s = .next { s with colls := s.colls.filter (fun x => x.id != k.id) })))


/-- `QPUSH` and `QPOP` (R392 to R394): entries join in order of lanes, with stamp, sequence number and source; the oldest
leave, one to a lane; statuses 0, of helper lanes 2. Of a full or an empty queue without `.WAIT` status 1 and nothing
else; with `.WAIT` the group waits. A partition without the right, or a queue that is not enabled, is a `QPERM` fault. -/
def Obligations.PartitionQueues : Prop :=
  (∀ (s : State) (g : Group) (h : Hdr) (wait : Bool) (d a e : Opd) (x : IpQueue) (c : Nat),
    (Instr.qpush h wait d a e).wellFormed = true → s.group? s.cur = some g → g.mode = .user → s.held g = false →
    g.checkHeld [(d, 32), (a, 128)] = .ok () → (g.uni64 e).toNat < 1024 → x = s.ipq (g.uni64 e).toNat → x.en = true →
    x.prod.getLsbD (s.accessor g).part = true → g.prog = 0 → g.core = some c → c < 272 → g.slot < 128 →
    (x.entries.length + count (g.contributors h) ≤ 2 ^ x.depthl.toNat →
      ∃ (s1 : State) (new : List QEntry), exec (.qpush h wait d a e) s = .next (s1.finish g h []
          [{ writes := if g.active h = 0 then [] else g.writesTo d false 32 (g.active h) (fun i =>
              if (g.contributors h).getLsbD i then 0 else 2) }] none none) ∧
        s1 = { s with ipqs := s1.ipqs, cores := s1.cores } ∧
        s1.ipq (g.uni64 e).toNat = { x with entries := x.entries ++ new } ∧
        new.length = count (g.contributors h) ∧
        (∀ (j : Nat) (y : QEntry), new[j]? = some y → ∃ lane, (lanesOf (g.contributors h))[j]? = some lane ∧
          y = { payload := g.srcLane a 128 lane, tstamp := s.time,
                seqno := vget (s.core c).slotSeq g.slot 0 + BitVec.ofNat 48 (j + 1), srcid := g.gid16, poison := false }) ∧
        (s1.core c).slotSeq = vset (s.core c).slotSeq g.slot
          (vget (s.core c).slotSeq g.slot 0 + BitVec.ofNat 48 new.length)) ∧
    (2 ^ x.depthl.toNat ≤ x.entries.length → wait = false →
      exec (.qpush h wait d a e) s = .next (s.finish g h []
        [{ writes := if g.active h = 0 then [] else g.writesTo d false 32 (g.active h) (fun i =>
            if (g.contributors h).getLsbD i then 1 else 2) }] none none)) ∧
    (2 ^ x.depthl.toNat ≤ x.entries.length → wait = true → g.contributors h ≠ 0 →
      ∃ t g', exec (.qpush h wait d a e) s = .next t ∧ t.group? g.id = some g' ∧ g'.pc = g.pc ∧ g'.wait = some .queue ∧
        t.ipqs = s.ipqs)) ∧
  (∀ (s : State) (g : Group) (h : Hdr) (wait : Bool) (stamp : Option Opd) (d b e : Opd) (x : IpQueue)
      (ent : Nat → QEntry) (n : Nat) (ws : List RegWrite),
    (Instr.qpop h wait stamp d b e).wellFormed = true → s.group? s.cur = some g → s.held g = false →
    g.checkHeld ([(d, 128), (b, 32)] ++ stamp.toList.map (fun o => (o, 128))) = .ok () → (g.uni64 e).toNat < 1024 →
    x = s.ipq (g.uni64 e).toNat → x.en = true → x.cons.getLsbD (s.accessor g).part = true → g.prog = 0 →
    n = count (g.contributors h) → n ≤ x.entries.length →
    (∀ (j lane : Nat), (lanesOf (g.contributors h))[j]? = some lane → x.entries[j]? = some (ent lane) ∧
      (ent lane).poison = false) →
    ws = (if g.contributors h = 0 then [] else
        g.writesTo d false 128 (g.contributors h) (fun i => (ent i).payload) ++
        stamp.toList.flatMap (fun o => g.writesTo o false 128 (g.contributors h) (fun i =>
          BitVec.ofNat 128 ((ent i).tstamp.toNat + 2 ^ 64 * (ent i).seqno.toNat + 2 ^ 112 * (ent i).srcid.toNat)))) ++
      (if g.active h = 0 then [] else g.writesTo b false 32 (g.active h) (fun i =>
        if (g.contributors h).getLsbD i then 0 else 2)) →
    exec (.qpop h wait stamp d b e) s = .next ((if n = 0 then s else
      s.setIpq (g.uni64 e).toNat { x with entries := x.entries.drop n }).finish g h [] [{ writes := ws }] none none)) ∧
  (∀ (s : State) (g : Group) (h : Hdr) (wait : Bool) (stamp : Option Opd) (d b e : Opd) (x : IpQueue),
    (Instr.qpop h wait stamp d b e).wellFormed = true → s.group? s.cur = some g → s.held g = false →
    g.checkHeld ([(d, 128), (b, 32)] ++ stamp.toList.map (fun o => (o, 128))) = .ok () → (g.uni64 e).toNat < 1024 →
    x = s.ipq (g.uni64 e).toNat → x.en = true → x.cons.getLsbD (s.accessor g).part = true → g.prog = 0 →
    x.entries = [] →
    (wait = false → exec (.qpop h wait stamp d b e) s = .next (s.finish g h []
      [{ writes := if g.active h = 0 then [] else g.writesTo b false 32 (g.active h) (fun i =>
          if (g.contributors h).getLsbD i then 1 else 2) }] none none)) ∧
    (wait = true → g.contributors h ≠ 0 → ∃ t g', exec (.qpop h wait stamp d b e) s = .next t ∧
      t.group? g.id = some g' ∧ g'.pc = g.pc ∧ g'.wait = some .queue ∧ t.ipqs = s.ipqs)) ∧
  (∀ (s : State) (g : Group) (h : Hdr) (wait : Bool) (stamp : Option Opd) (d a b e : Opd) (i : Instr) (may : BitVec 8),
    i.wellFormed = true → s.group? s.cur = some g → s.held g = false →
    (i = .qpop h wait stamp d b e ∧
        g.checkHeld ([(d, 128), (b, 32)] ++ stamp.toList.map (fun o => (o, 128))) = .ok () ∧
        may = (s.ipq (g.uni64 e).toNat).cons ∨
      i = .qpush h wait d a e ∧ (wait = true → g.mode = .user) ∧ g.checkHeld [(d, 32), (a, 128)] = .ok () ∧
        may = (s.ipq (g.uni64 e).toNat).prod) →
    (1024 ≤ (g.uni64 e).toNat ∨ (s.ipq (g.uni64 e).toNat).en = false ∨ may.getLsbD (s.accessor g).part = false) →
    exec i s = .next (s.take { g with wait := none } (trapOf .qperm)))

namespace Sys2Proof.Claims

/-- A token at its inbox's home (R397): its team is resident on core c, of the sender's grid; the inbox's offset. -/
def atHome (s : State) (t : Token) (tm : Team) (c off : Nat) : Prop :=
  s.tokens.find? (fun x => x.id == t.id) = some t ∧ t.dest.bind s.team? = some tm ∧ tm.core = some c ∧
    tm.launch = t.grid ∧ off = (t.inbox.toNat - SRAM_BASE) % 2 ^ 20

end Sys2Proof.Claims

/-- `DSEND` (R396): a token to each contributing lane's inbox, in order of lanes, or `BADRING` of the lowest lane whose
inbox is none (R12). `DCLOSE` (R398): the count of what has been reserved becomes the inbox's close count; the result waits
for its delivery.

Tokens (R395, R397): the first of its sender and inbox takes the inbox's next sequence; it is written to its slot, in order
of sequence, when there is room, and `DELV` counts it. One for a team that is gone or of another grid, or for an inbox whose
header is not valid, is discarded with a `DISPDROP` entry of the log (R449); one already sequenced leaves with its team. A
wait of 2^24 clocks is logged once, as a `DISPSTALL` (R396) or a `RINGSTALL` (R281). That the team of an inbox is fixed at
the send, and that a sequenced token of a team that has ended leaves with no entry, is the model's choice (log entry 43,
DEDUCED), as is the address that `BADRING` names (log entry 27, DEDUCED). -/
def Obligations.ExpertDispatch : Prop :=
  ((∀ (s s1 : State) (g : Group) (h : Hdr) (a b : Opd) (t : Team) (toks : List Token),
     (Instr.dsend h a b).wellFormed = true → s.group? s.cur = some g → g.mode = .user → s.held g = false →
     g.checkHeld [(a, 128), (b, 64)] = .ok () → s.team? g.team = some t → g.prog = 0 →
     s.tokens.length + 64 ≤ 4096 →
     (∀ i, (g.contributors h).getLsbD i = true → SRAM_BASE ≤ (g.srcLane b 64 i).toNat ∧
       (g.srcLane b 64 i).toNat < SRAM_BASE + 0x2000_0000 ∧ (g.srcLane b 64 i).toNat % 128 = 0) →
     toks = (lanesOf (g.contributors h)).zipIdx.map (fun p =>
       { id := s.nextId + p.2, die := dieOf (g.core.getD 0), grid := t.launch, sender := g.id,
         inbox := (g.srcLane b 64 p.1).setWidth 64, dest := (s.scrOwner none ((g.srcLane b 64 p.1).setWidth 64)).1,
         payload := g.srcLane a 128 p.1, srcid := g.gid16, stamp := s.time,
         fork := s.forkOf g (if h.st then s.ordinal g g.pc else none), seq := none }) →
     s1 = { s with tokens := s.tokens ++ toks, nextId := s.nextId + toks.length } →
     exec (.dsend h a b) s = .next (s1.finish g h [] [] none none)) ∧
   (∀ (s : State) (g : Group) (h : Hdr) (a b : Opd) (i : Nat), (Instr.dsend h a b).wellFormed = true →
     s.group? s.cur = some g → g.mode = .user → s.held g = false → g.checkHeld [(a, 128), (b, 64)] = .ok () →
     g.prog = 0 → (g.contributors h).getLsbD i = true →
     (∀ j < i, (g.contributors h).getLsbD j = true → SRAM_BASE ≤ (g.srcLane b 64 j).toNat ∧
       (g.srcLane b 64 j).toNat < SRAM_BASE + 0x2000_0000 ∧ (g.srcLane b 64 j).toNat % 128 = 0) →
     ((g.srcLane b 64 i).toNat < SRAM_BASE ∨ SRAM_BASE + 0x2000_0000 ≤ (g.srcLane b 64 i).toNat ∨
       (g.srcLane b 64 i).toNat % 128 ≠ 0) →
     exec (.dsend h a b) s
       = .next (s.take { g with wait := none } (trapLane .badring i ((g.srcLane b 64 i).setWidth 64)))) ∧
   (∀ (s : State) (g : Group) (h : Hdr) (d a : Opd) (t : Team) (c off n : Nat), (Instr.dclose h d a).wellFormed = true →
     s.group? s.cur = some g → s.held g = false → s.team? g.team = some t → g.core = some c →
     (g.uni64 a).toNat = LOCAL_BASE + off → off < 2 ^ 20 → s.ownRange t c off 128 = true →
     s.poisonIn (scrLoc c off) 16 = none → n = s.readNat (scrLoc c (off + 4)) 4 →
     exec (.dclose h d a) s = .next ((s.writeNat (scrLoc c (off + 12)) 4 n).finish g h []
       [{ writes := g.writesTo d false 64 g.exec (fun _ => BitVec.ofNat 128 n), gate := some (off, BitVec.ofNat 32 n) }]
       none none [⟨g.uni64 a + 12, 4, false, true⟩]))) ∧
  ((∀ (s s1 : State) (t : Token) (tm : Team) (c off n : Nat), Claims.atHome s t tm c off → t.seq = none →
     (∀ x ∈ s.tokens.takeWhile (fun x => x.id != t.id), x.sender ≠ t.sender ∨ x.inbox ≠ t.inbox ∨ x.seq ≠ none) →
     s.inboxValid tm c off = true → (∀ p, (s.part p).arm = false) → n = s.readNat (scrLoc c off + 4) 4 →
     s1 = { s with tokens := s.tokens.map (fun (x : Token) => if x.id = t.id then { x with seq := some (BitVec.ofNat 32 n) }
       else x) } →
     exec (.dispatchTokenArrive t.id) s = .next (s1.writeNat (scrLoc c off + 4) 4 ((n + 1) % 2 ^ 32))) ∧
   (∀ (s : State) (t : Token), s.tokens.find? (fun x => x.id == t.id) = some t → t.seq = none →
     (∀ x ∈ s.tokens.takeWhile (fun x => x.id != t.id), x.sender ≠ t.sender ∨ x.inbox ≠ t.inbox ∨ x.seq ≠ none) →
     (t.dest.bind s.team? = none ∨ ∃ tm, t.dest.bind s.team? = some tm ∧ (tm.launch ≠ t.grid ∨ ∃ c, tm.core = some c ∧
       s.inboxValid tm c ((t.inbox.toNat - SRAM_BASE) % 2 ^ 20) = false)) →
     ∃ v : LogEvent, v.kind = 8 ∧ v.aux = t.srcid.toNat ∧ v.data = bytesOf 8 t.inbox.toNat ++ bytesOf 8 t.stamp.toNat ∧
       exec (.dispatchTokenArrive t.id) s
         = .next (State.log { s with tokens := s.tokens.filter (fun x => x.id != t.id) } v)) ∧
   (∀ (s : State) (t : Token) (tm : Team) (c off size delv : Nat) (n : Word32), Claims.atHome s t tm c off →
     t.seq = some n → (∀ p, (s.part p).arm = false) → size = 2 ^ (s.readNat (scrLoc c off) 4 % 16) →
     delv = s.readNat (scrLoc c off + 8) 4 →
     (delv = n.toNat → (n.toNat + 2 ^ 32 - s.readNat (scrLoc c off + 16) 4) % 2 ^ 32 < size →
       exec (.dispatchTokenDeliver t.id) s = .next
         { ((s.write (scrLoc c (off + 128 + 32 * (n.toNat % size))) (bytesOf 16 t.payload.toNat ++ bytesOf 4 n.toNat ++
             [0, 0] ++ bytesOf 2 t.srcid.toNat ++ bytesOf 8 t.stamp.toNat)).writeNat (scrLoc c off + 8) 4
             ((n.toNat + 1) % 2 ^ 32)) with tokens := s.tokens.filter (fun x => x.id != t.id) }) ∧
     (delv ≠ n.toNat ∨ size ≤ (n.toNat + 2 ^ 32 - s.readNat (scrLoc c off + 16) 4) % 2 ^ 32 →
       exec (.dispatchTokenDeliver t.id) s = .next s)) ∧
   (∀ (s : State) (t : Token) (n : Word32), s.tokens.find? (fun x => x.id == t.id) = some t → t.dest.bind s.team? = none →
     t.seq = some n →
     exec (.dispatchTokenDeliver t.id) s = .next { s with tokens := s.tokens.filter (fun x => x.id != t.id) }) ∧
   (∀ (s : State) (g : Group) (since inbox : Word64) (c lane : Nat), s.group? g.id = some g → g.core = some c →
     g.wait = some (.sendq since lane inbox false) → 2 ^ 24 ≤ s.clocksSince since →
     exec (.dispstall g.id) s
       = .next ((s.setGroup { g with wait := some (.sendq since lane inbox true) }).logStall g 7 inbox)) ∧
   (∀ (s : State) (g : Group) (since header : Word64) (notw : Word32) (c : Nat), s.group? g.id = some g →
     g.core = some c → g.wait = some (.ring since header notw false) →
     s.readNat (scrLoc c (header.toNat - LOCAL_BASE + 4)) 4 = notw.toNat → 2 ^ 24 ≤ s.clocksSince since →
     exec (.ringstall g.id) s
       = .next ((s.setGroup { g with wait := some (.ring since header notw true) }).logStall g 6 header)))


/-! ## Copies -/

namespace Sys2Proof.Claims

/-- A command that a swap saves, or has saved (R417): its team, or a team of its cohort whose allocation it reads or writes, is
departing or away. -/
def away (s : State) (d : Cmd) : Prop :=
  d.started = false ∧ s.cmdPlaced d = false

/-- One arrival has come on a barrier object (R277, R287): the rows out of bounds and the rows skipped are added to their
counts, which saturate, and the arrival that fills a phase ends it. -/
def arrived (s t : State) (loc oor skip : Nat) : Prop :=
  let b := s.barrier loc
  let b' := t.barrier loc
  b'.expect = b.expect ∧ b'.noor = min 65535 (b.noor + oor) ∧ b'.nskip = min 65535 (b.nskip + skip) ∧
    (b.arrived + 1 < b.expect → b'.arrived = b.arrived + 1 ∧ b'.phase = b.phase ∧ t.phases = s.phases) ∧
    (b.arrived + 1 = b.expect ∨ b.expect = 0 → b'.arrived = (if b.expect = 0 then b.arrived else 0) ∧
      b'.phase = (b.phase + 1) % 2 ^ 32 ∧ tally loc t.phases ≠ tally loc s.phases)

/-- The index of row r of a `GATHER` or a `SCATTER` (R287). -/
def row (c : Cmd) (r : Nat) : Nat :=
  (c.idx.getD r 0).toNat

/-- What unit u of a command carries from its source to its destination: the two addresses and the number of bytes, of a row
of a `GATHER` or a `SCATTER`, of a tensor that is not coded, of a tile (R283, R287, R380, R382). -/
def carried (c : Cmd) (u : Nat) : Option (Word64 × Word64 × Nat) :=
  let e := c.entry
  let tile := c.tile.getD 0
  let n := rowBytes c.recBits (eCount e)
  let at_ (w : Word64) : Word64 := elemAddr c.recBits { posOf w with i1 := (posOf w).i1 + u }
  let p := u / (tile.extractLsb' 24 24).toNat
  let r := u % (tile.extractLsb' 24 24).toNat
  match eKind e with
  | 1 => if u < eCount e ∧ row c u < eAux e then some (plus (eDst e) (u * eRowb e), plus (eSrc e) (row c u * eRowb e), eRowb e)
         else none
  | 2 => if row c u < eAux e then some (plus (eDst e) (row c u * eRowb e), plus (eSrc e) (u * eRowb e), eRowb e) else none
  | 3 => if tEnt c.recBits = true then none else some (plus (eDst e) (u * n), at_ (eSrc e), n)
  | 4 => if tZmv c.recBits = true then none else some (at_ (eDst e), plus (eSrc e) (u * n), n)
  | 7 => if (tile.extractLsb' 24 24).toNat = 0 ∨ (tile.extractLsb' 0 24).toNat = 0 then none
         else some (plus (eDst e) (p * (tile.extractLsb' 152 40).toNat + r * (tile.extractLsb' 88 40).toNat),
           plus (eSrc e) (p * (tile.extractLsb' 192 40).toNat + r * (tile.extractLsb' 48 40).toNat),
           (tile.extractLsb' 0 24).toNat)
  | _ => none

/-- Nothing that has landed of a command concerns unit u: no later row of the same index (R287), no row of a tile on its
destination (R382). -/
def untouched (c : Cmd) (u dst n : Nat) : Prop :=
  (eKind c.entry = 2 → ∀ r ∈ c.landed, u < r → row c r ≠ row c u) ∧
  (eKind c.entry = 7 → ∀ r ∈ c.landed, ∀ d sr m, carried c r = some (d, sr, m) →
    ∀ j < m, ∀ k < n, pageLoc (some c.core) c.pages (plus d j) ≠ dst + k)

/-- The codes that a coded stream holds from bit p on, entry by entry of its table (R86, R87): w bits an element. -/
def decoded (table : List Word32) (bs : List Byte) (w : Nat) : List Word32 → Nat → List Nat → Prop
  | [], _, out => out = []
  | e :: es, p, out =>
    let len := (e.extractLsb' 28 4).toNat
    let kind := (e.extractLsb' 26 2).toNat
    let val := (e.extractLsb' 0 16).toNat
    let bit (k : Nat) : Nat := ((bs.getD (k / 8) 0).getLsbD (7 - k % 8)).toNat
    let word (k n : Nat) : Nat := ((List.range n).map (fun j => bit (k + j) * 2 ^ (n - 1 - j))).sum
    table.getD (word p 8) 0 = e ∧ len ≠ 0 ∧ kind ≠ 3 ∧ p + len + (if kind = 2 then w else 0) ≤ 8 * bs.length ∧
    ∃ o rest, out = o ++ rest ∧ decoded table bs w es (p + len + (if kind = 2 then w else 0)) rest ∧
      o = (match kind with
        | 0 => [val % 2 ^ w]
        | 1 => List.replicate (val + 1) 0
        | _ => [word (p + len) w])

end Sys2Proof.Claims

/-- The engine's commands (R85 to R87, R283, R286 to R289, R380, R382, R417). One starts once every earlier one of its core
has started, but those that a swap takes away, a `DTLOAD` of the same team not among these (log entry 50, DEDUCED); a
`DTLOAD` also waits for those that decode with its table, and those after it for its end. A unit of a `COPY`, a row of a
`GATHER` or a `SCATTER`, of a tensor, of a tile, carries its source bytes to its destination, and a line becomes full with
the last unit that writes in it; a row of a `GATHER` out of bounds is zeros, one skipped moves nothing; every row of either
arrives on the barrier object where `ARRV` is set, those out of bounds and skipped counted there too; the last unit of a
`GATHER` is the status map. A `TLOAD` of a coded tensor brings the codes that its stream holds; `DTLOAD` and `SLOAD` fill
the team's table and scale window. With every unit landed the command is gone and its record stands in the ring: stamp,
sequence number, status, safe point, rows, time; one of another kind then arrives. -/
def Obligations.CopiesRun : Prop :=
  (∀ (s : State) (c : Cmd), s.cmd? c.id = some c → c.started = false → s.cmdPlaced c = true →
    (∀ d ∈ s.cmds.takeWhile (fun d => d.id != c.id), d.core = c.core →
      d.started = true ∧ eKind d.entry ≠ 5 ∨ Claims.away s d ∧ (d.team ≠ c.team ∨ eKind d.entry ≠ 5)) →
    (eKind c.entry = 5 → ∀ d ∈ s.cmds.takeWhile (fun d => d.id != c.id), d.core = c.core → d.team = c.team →
      eKind d.entry = 3 → tEnt d.recBits = true → tEtab d.recBits ≠ (eTid c.entry).toNat) →
    exec (.copyCommandStart c.id) s = .next (s.modCmd c.id (fun d => { d with started := true }))) ∧
  (∀ (s : State) (c d : Cmd), s.cmd? c.id = some c → d ∈ s.cmds.takeWhile (fun x => x.id != c.id) → d.core = c.core →
    (d.started = false ∧ ¬ Claims.away s d ∨ d.started = true ∧ eKind d.entry = 5 ∨
      Claims.away s d ∧ d.team = c.team ∧ eKind d.entry = 5) → exec (.copyCommandStart c.id) s = .next s) ∧
  (∀ (s : State) (c : Cmd) (u src dst n : Nat) (d : Word64), s.cmd? c.id = some c → c.started = true → u < c.units →
    u ∉ c.landed → eKind c.entry = 0 → c.trec = none → s.poison = [] → Memory.wf s.mem = true →
    (∀ p, (s.part p).arm = false) → c.dstOf u = some (d, n) →
    (∀ k < n, pageLoc (some c.core) c.pages (plus d k) = dst + k ∧
      pageLoc (some c.core) c.pages (plus (eSrc c.entry) ((d - eDst c.entry).toNat + k)) = src + k) →
    ∃ t : State, exec (.copyUnitLand c.id u) s = .next t ∧
      t = { s with mem := t.mem, fe := t.fe, cmds := t.cmds } ∧
      (∀ k < n, t.read8 (dst + k) = s.read8 (src + k)) ∧ (∀ x, ¬ (dst ≤ x ∧ x < dst + n) → t.read8 x = s.read8 x) ∧
      t.cmds = (s.modCmd c.id (fun k => { k with landed := k.landed ++ [u] })).cmds ∧
      (∀ l, l ∈ t.fe ↔ l ∈ s.fe ∧ ∀ y ∈ c.reach.lines d n, lineOf y ≠ l)) ∧
  (∀ (s : State) (c : Cmd) (u src dst n bar : Nat) (d sr : Word64) (ar : Prop), s.cmd? c.id = some c → c.started = true →
    u < c.units → u ∉ c.landed → Claims.carried c u = some (d, sr, n) → Claims.untouched c u dst n → s.poison = [] →
    Memory.wf s.mem = true → (∀ p, (s.part p).arm = false) → bar = scrLoc c.core (16 * eBar c.entry) →
    ar = ((eKind c.entry = 1 ∨ eKind c.entry = 2) ∧ eArrv c.entry = true) → (ar → dst + n ≤ bar ∨ bar + 16 ≤ dst) →
    (∀ k < n, pageLoc (some c.core) c.pages (plus d k) = dst + k ∧ pageLoc (some c.core) c.pages (plus sr k) = src + k) →
    ∃ t : State, exec (.copyUnitLand c.id u) s = .next t ∧
      (∀ k < n, t.read8 (dst + k) = s.read8 (src + k)) ∧
      (∀ x, ¬ (dst ≤ x ∧ x < dst + n) → ¬ (ar ∧ bar ≤ x ∧ x < bar + 16) → t.read8 x = s.read8 x) ∧
      (ar → Claims.arrived s t bar 0 0) ∧ t.teams = s.teams ∧ t.groups = s.groups ∧
      t.cmds = (s.modCmd c.id (fun k => { k with landed := k.landed ++ [u] })).cmds ∧
      (∀ l ∈ t.fe, l ∈ s.fe) ∧
      ((∀ w, w < c.units → w ≠ u → w ∈ c.landed) → ∀ l ∈ t.fe, ∀ y ∈ c.reach.lines d n, lineOf y ≠ l)) ∧
  (∀ (s : State) (c : Cmd) (u loc : Nat) (b : Barrier), s.cmd? c.id = some c → c.started = true → u < eCount c.entry →
    u ∉ c.landed → (∀ p, (s.part p).arm = false) →
    (eKind c.entry = 1 ∧ Claims.row c u = 0xFFFF_FFFF ∨ eKind c.entry = 2 ∧ eAux c.entry ≤ Claims.row c u) →
    loc = scrLoc c.core (16 * eBar c.entry) →
    b = { s.barrier loc with
      nskip := if Claims.row c u = 0xFFFF_FFFF then min 65535 ((s.barrier loc).nskip + 1) else (s.barrier loc).nskip,
      noor := if Claims.row c u = 0xFFFF_FFFF then (s.barrier loc).noor else min 65535 ((s.barrier loc).noor + 1) } →
    exec (.copyUnitLand c.id u) s = .next ((if eArrv c.entry = true then s.putArrival loc b 1 else s).modCmd c.id
      (fun k => { k with landed := k.landed ++ [u] }))) ∧
  (∀ (s : State) (c : Cmd) (u dst n bar : Nat) (d : Word64) (ar : Prop), s.cmd? c.id = some c → c.started = true →
    u ∉ c.landed → eKind c.entry = 1 → Memory.wf s.mem = true → (∀ p, (s.part p).arm = false) →
    bar = scrLoc c.core (16 * eBar c.entry) → ar = (u < eCount c.entry ∧ eArrv c.entry = true) →
    (ar → dst + n ≤ bar ∨ bar + 16 ≤ dst) →
    (u < eCount c.entry ∧ eAux c.entry ≤ Claims.row c u ∧ Claims.row c u ≠ 0xFFFF_FFFF ∧ n = eRowb c.entry ∨
      u = eCount c.entry ∧ n = 4 * ((eCount c.entry + 31) / 32)) →
    d = plus (eDst c.entry) (u * eRowb c.entry) → (∀ k < n, pageLoc (some c.core) c.pages (plus d k) = dst + k) →
    ∃ t : State, exec (.copyUnitLand c.id u) s = .next t ∧
      (∀ k < n, ∀ j < 8, (t.read8 (dst + k)).getLsbD j = decide (u = eCount c.entry ∧ 8 * k + j < eCount c.entry ∧
        eAux c.entry ≤ Claims.row c (8 * k + j) ∧ Claims.row c (8 * k + j) ≠ 0xFFFF_FFFF)) ∧
      (∀ x, ¬ (dst ≤ x ∧ x < dst + n) → ¬ (ar ∧ bar ≤ x ∧ x < bar + 16) → t.read8 x = s.read8 x) ∧
      (ar → Claims.arrived s t bar 1 0)) ∧
  (∀ (s : State) (c : Cmd) (src dst w : Nat) (es : List Word32) (out : List Nat), s.cmd? c.id = some c →
    c.started = true → c.landed = [] → eKind c.entry = 3 → tEnt c.recBits = true → s.poison = [] →
    Memory.wf s.mem = true → (∀ p, (s.part p).arm = false) → w = tWidth c.recBits → (w = 4 ∨ w = 8) →
    (∀ k < eAux c.entry, pageLoc (some c.core) c.pages (plus (eSrc c.entry) k) = src + k) →
    (∀ k < rowBytes c.recBits (eCount c.entry), pageLoc (some c.core) c.pages (plus (eDst c.entry) k) = dst + k) →
    Claims.decoded ((s.tablesOf c).getD (tEtab c.recBits) []) ((List.range (eAux c.entry)).map (fun k => s.read8 (src + k)))
      w es 0 out → out.length = eCount c.entry →
    ∃ t : State, exec (.copyUnitLand c.id 0) s = .next t ∧
      (∀ k < rowBytes c.recBits (eCount c.entry), (t.read8 (dst + k)).toNat =
        if w = 8 then out.getD k 0 else out.getD (2 * k) 0 + 16 * out.getD (2 * k + 1) 0) ∧
      (∀ x, ¬ (dst ≤ x ∧ x < dst + rowBytes c.recBits (eCount c.entry)) → t.read8 x = s.read8 x) ∧
      t.cmds = (s.modCmd c.id (fun k => { k with landed := k.landed ++ [0] })).cmds) ∧
  (∀ (s : State) (c : Cmd) (tm : Team) (src : Nat), s.cmd? c.id = some c → c.started = true → c.landed = [] →
    s.team? c.team = some tm → s.poison = [] →
    (eKind c.entry = 5 → (∀ k < 1024, pageLoc (some c.core) c.pages (plus (eSrc c.entry) k) = src + k) →
      ∃ t : State, exec (.copyUnitLand c.id 0) s = .next t ∧ t.mem = s.mem ∧
        t.team? tm.id = some { tm with
          dts := tm.dts.set (eTid c.entry).toNat
            ((List.range 256).map (fun k => BitVec.ofNat 32 (s.readNat (src + 4 * k) 4)))
          dtsBad := tm.dtsBad.filter (fun e => e.1 != (eTid c.entry).toNat) }) ∧
    (eKind c.entry = 6 → (∀ k < eCount c.entry, pageLoc (some c.core) c.pages (plus (eSrc c.entry) k) = src + k) →
      (eDst c.entry).toNat + eCount c.entry ≤ tm.scale.length →
      ∃ (t : State) (new : List Byte), exec (.copyUnitLand c.id 0) s = .next t ∧ t.mem = s.mem ∧
        t.team? tm.id = some { tm with
          scale := new
          scaleBad := tm.scaleBad.filter (fun k =>
            k < (eDst c.entry).toNat || (eDst c.entry).toNat + eCount c.entry ≤ k) } ∧ new.length = tm.scale.length ∧
        ∀ k < new.length, new.getD k 0 = if (eDst c.entry).toNat ≤ k ∧ k < (eDst c.entry).toNat + eCount c.entry
          then s.read8 (src + (k - (eDst c.entry).toNat)) else tm.scale.getD k 0)) ∧
  (∀ (s s1 : State) (c : Cmd) (bar status : Nat) (rows : Prop), s.cmd? c.id = some c → c.started = true →
    c.landed.length = c.units → c.decodeFail = false → (∀ p, (s.part p).arm = false) →
    bar = scrLoc c.core (16 * eBar c.entry) → rows = (eKind c.entry = 1 ∨ eKind c.entry = 2) →
    (status = 0 ∨ status = 2) → (status = 2 ↔ rows ∧ ∃ r < eCount c.entry, eAux c.entry ≤ Claims.row c r ∧
      Claims.row c r ≠ 0xFFFF_FFFF) →
    (∀ count, (rows → count = eCount c.entry) → (¬ rows → count = 0) → s1 = s.write (scrLoc c.core c.recOff)
      (bytesOf 8 c.tstamp.toNat ++ bytesOf 6 c.seqno.toNat ++ bytesOf 2 (status + if c.poison then 4 else 0) ++
        bytesOf 4 c.spord.toNat ++ bytesOf 4 count ++ bytesOf 8 s.time.toNat)) →
    (¬ rows → eArrv c.entry = true → exec (.copyCommandComplete c.id) s = .next
      { s1.putArrival bar (s1.barrier bar) 1 with cmds := s.cmds.filter (fun d => d.id != c.id) }) ∧
    (rows ∨ eArrv c.entry = false →
      exec (.copyCommandComplete c.id) s = .next { s1 with cmds := s.cmds.filter (fun d => d.id != c.id) }))


/-! ## Events of groups and cores -/

namespace Sys2Proof.Claims

/-- A `TLBINV` of a partition's group selects an entry: that of the page of an address, those of a partition, all (R415). -/
def picked (scope : TlbScope) (arg : Word64) (issuer : Nat) (e : TlbEntry) : Prop :=
  match scope with
  | .addr => e.part = issuer ∧ e.page = arg.toNat / 2 ^ (if e.big then 21 else 16)
  | .part => e.part = arg.toNat % 8
  | .all => True

end Sys2Proof.Claims

/-- Results return and are delivered (R192, R258, R266, R398): an outstanding result returns, one of `DCLOSE` once `DELV`
has reached its count; with all returned a group parked at `SW` = 1 takes their values and goes on; a lane that waits
on an empty line reads it once it is full, or has been since, and no older load of the group waits on it. A fetched line
joins its group (R158, R177). A `TLBINV` ends when nothing holds a page of its scope, and no TLB holds an entry of it (R415). -/
def Obligations.ResultsReturn : Prop :=
  (∀ (s : State) (g : Group) (k : Nat) (l : Long) (c : Nat), s.group? g.id = some g → g.core = some c →
    g.pend[k]? = some l → l.returned = false → l.unit ≠ .keyTable → l.unit ≠ .chord → l.load = none →
    (∀ off n, l.gate = some (off, n) →
      (BitVec.ofNat 32 (s.readNat (scrLoc c (off + 8)) 4) - n).toNat < 2 ^ 31) →
    ∃ g' : Group, exec (.longResultReturn g.id k) s = .next (s.setGroup g') ∧
      g' = { g with pend := g'.pend, hset := g'.hset, sset := g'.sset, folds := g'.folds } ∧
      g'.pend = g.pend.map (fun q => { q with returned := q.returned || decide (q.id = l.id) })) ∧
  (∀ (s : State) (g : Group) (c : Nat), s.group? g.id = some g → g.core = some c → g.wait = some .switch →
    (∀ l ∈ g.pend, l.returned = true ∧ l.poison = []) → (s.part (s.accessor g).part).halted = false →
    exec (.switchUnpark g.id) s = .next (s.setGroup
      { g.pend.foldl (fun g l => g.deliverAll l.tr l.writes) g with pend := [], wait := none })) ∧
  (∀ (s : State) (g : Group) (k : Nat) (lane : BitVec 6) (l : Long) (i : LoadInfo) (w : WaitLane) (loc c width : Nat),
    s.group? g.id = some g → g.core = some c → s.teamRuns g = true → g.pend[k]? = some l → l.load = some i →
    i.lanes.find? (fun x => x.lane == lane) = some w → s.place (s.accessor g) .read w.va = .ok (.mem loc) →
    (isScr loc = true → s.isFull loc = true ∨ ∃ n, w.fill = some n ∧ tally (lineOf loc) s.fills ≠ n) →
    (∀ q ∈ g.allPend, q.id < l.id → ∀ j, q.load = some j → ∀ x ∈ j.lanes, lineOf x.loc ≠ lineOf loc) → s.poison = [] → (s.part (s.accessor g).part).arm = false →
    width = max i.ty.width (if i.dst.isX then 64 else 32) →
    ∃ (g' : Group) (l' : Long), exec (.emptylineLoadRead g.id k lane) s = .next ((s.setGroup g').lookUpAll g' [w.va]) ∧
      g' = { g with pend := g'.pend, hset := g'.hset, sset := g'.sset, folds := g'.folds } ∧ g'.pend[k]? = some l' ∧
      l'.load = some { i with lanes := i.lanes.filter (fun x => x.lane != lane) } ∧ l'.poison = l.poison ∧
      l'.writes = l.writes.map (fun x => (g.writesTo i.dst false width (if i.uni then i.active else single lane.toNat)
        (fun _ => Claims.loaded i.ty width (s.readNat loc (i.ty.width / 8)))).foldl RegWrite.merge x)) ∧
  (∀ (s : State) (g : Group) (loc : Nat) (bits : BitVec 512), s.group? g.id = some g → s.teamRuns g = true →
    g.halted = none → g.lineAt g.pc = none → s.locOf (s.accessor g) .fetch (lineAddr g.pc) = .ok loc →
    bits = BitVec.ofNat 512 (s.readNat loc 64) → lineParity bits = bits.extractLsb' 480 16 → s.poisonIn loc 64 = none →
    exec (.fetchLineReceive g.id) s = .next ((s.lookUpAll g [lineAddr g.pc]).setGroup { g with
      line := some ⟨lineAddr g.pc, loc, bits, false, none, none⟩ })) ∧
  (∀ (s : State) (g : Group) (scope : TlbScope) (arg : Word64) (c : Nat), s.group? g.id = some g → g.core = some c →
    g.wait = some (.tlbinv scope arg false) → (s.part (s.accessor g).part).halted = false →
    (∀ k ∈ s.cmds, ∀ p ∈ k.pages, inScope scope arg (s.accessor g).part k.part p = false) →
    (∀ k ∈ s.colls, ∀ m ∈ k.members, ∀ p ∈ m.pages, inScope scope arg (s.accessor g).part m.fork.part p = false) →
    (∀ t ∈ s.teams, ∀ k, some k ∈ t.kts → ∀ p ∈ k.pages, inScope scope arg (s.accessor g).part (s.partOf t) p = false) →
    ∃ s1 : State, exec (.tlbinvComplete g.id) s = .next (s1.setGroup { g with wait := none }) ∧
      s1 = { s with cores := s1.cores, dies := s1.dies } ∧
      (∀ k < 272, s1.core k = { s.core k with tlb := (s1.core k).tlb }) ∧
      (∀ k < 272, ∀ e, e ∈ (s1.core k).tlb ↔ e ∈ (s.core k).tlb ∧ ¬ Claims.picked scope arg (s.accessor g).part e) ∧
      ∀ d < 4, ∀ e, e ∈ (s1.die d).tlb ↔ e ∈ (s.die d).tlb ∧ ¬ Claims.picked scope arg (s.accessor g).part e)

namespace Sys2Proof.Claims

/-- The oldest request of a core for pool blocks is held back: its blocks are not free, or a fired bin's request is older
(R144, R145). -/
def poolHeld (s : State) (c : Nat) (r : PoolReq) : Prop :=
  (s.core c).xlimit.toNat < s.heldBlocks c + r.blocks ∨
    ∃ b ∈ (s.core c).bins, b.fired = true ∧ b.work.blocks ≠ 0 ∧ b.ord.toNat ≤ r.fired.toNat

/-- A cut of a team changes nothing but the team (R418): no group of it waits for what a release could give it, no load of
it waits, its own or the firmware's, and the core's oldest requests for blocks and for tiles, if there are such, are held
back. -/
def settled (s : State) (t : Team) (c : Nat) : Prop :=
  (∀ g ∈ s.groups, g.team = t.id → g.allPend = [] ∧ g.firmware = none ∧
    (g.wait = none ∨ ∃ lo hi sw, g.wait = some (.xgrow lo hi sw))) ∧
  (s.groups.map (fun (g : Group) => g.id)).Nodup ∧
  ((s.core c).tileReqs = [] ∨ ∃ r rest, (s.core c).tileReqs = r :: rest ∧ TILES < s.tilesUsed c + r.blocks) ∧
  ((s.core c).poolReqs = [] ∨ ∃ r rest, (s.core c).poolReqs = r :: rest ∧ poolHeld s c r)

/-- A team goes before another as a victim: of lower priority, placed later, of a higher `L` (R146). -/
def goesFirst (s : State) (a b : Team) : Prop :=
  let prio (t : Team) : Nat := match s.launch? t.launch with | some l => l.prio | none => 0
  prio a < prio b ∨ prio a = prio b ∧ (b.first.toNat < a.first.toNat ∨ a.first = b.first ∧ b.l < a.l)

/-- The place of a fired spawn bin among all that waits: as a cohort of one of its grid, raised after eight slices for good
(R148; log entry 46, DEDUCED). -/
def binPlace (s : State) (l : Launch) (c i : Nat) (b : Bin) : Waiting :=
  ⟨if b.raised = true ∨ 8 * s.sliceNs l.prio ≤ (s.time - b.since).toNat then 7 else l.prio, l.tdisp, l.queue.toNat, 0, .bin c i⟩

/-- The pool blocks of a fired spawn bin are free, and no older request of the core waits (R144, R145). -/
def binRoom (s : State) (c vregs : Nat) (b : Bin) : Prop :=
  (∀ r ∈ (s.core c).poolReqs, b.ord.toNat ≤ r.fired.toNat) ∧
  (∀ x ∈ (s.core c).bins, x.fired = true → x.work.blocks ≠ 0 → b.ord.toNat ≤ x.ord.toNat) ∧
  s.heldBlocks c + (if 48 < vregs then 2 else 1) ≤ (s.core c).xlimit.toNat

end Sys2Proof.Claims

/-- Pool blocks and bins. The oldest request is granted when its blocks are free and no fired bin's is older: zeros in the
halves (R145). A core that has been stuck for 1,024 clocks cuts the team of lowest priority, then placed last, then of the
highest `L`, that holds blocks, or tiles where a `GANG` waits for them (R146, R330); a check that goes on takes its next
victim at once, and ends where there is none. A bin fires after `BINTIME` (R153), with a spawn team of its grid on the core
(R155). A fired spawn bin before which nothing waits becomes a group of its grid: entry, items in V0 to V3, X0 and X1 of the
launch, its first lanes, zeros in the halves its registers need (R148, R153, R154). That such a bin ranks as cohort 0 of its
grid, and that one which needs no blocks passes older requests for them, is the model's choice (log entry 46, DEDUCED). A
caller takes back what waits in a pooled bin, and folds it itself in a frame; where no frame fits, the call takes `FRAMEOVF`
(R252, R240; log entry 57, DESIGN CHOICE). -/
def Obligations.PoolAndBins : Prop :=
  (∀ (s : State) (g : Group) (c : Nat) (r : PoolReq) (rest : List PoolReq) (lo hi : Bool), c < 272 →
    (s.core c).poolReqs = r :: rest → (∀ b ∈ (s.core c).bins, b.fired = false) →
    s.heldBlocks c + r.blocks ≤ (s.core c).xlimit.toNat → s.group? r.gid = some g → s.haltReached g = false →
    g.wait = some (.xgrow lo hi false) →
    exec (.poolBlockGrant c) s = .next ((s.modCore c (fun k => { k with poolReqs := rest, growing := false })).setGroup { g with
      lo := g.lo || lo, hi := g.hi || hi, wait := none,
      vlim := if lo = true ∧ 32 < g.vlim ∧ g.vlim < 48 then 48 else if hi = true ∧ 48 < g.vlim then 64 else g.vlim,
      v := vecOf 64 (fun n => if (lo = true ∧ 32 ≤ n ∧ n < 48) ∨ (hi = true ∧ 48 ≤ n) then vzero else vget g.v n vzero) })) ∧
  (∀ (s : State) (c : Nat) (r : PoolReq) (rest : List PoolReq), (s.core c).poolReqs = r :: rest → Claims.poolHeld s c r →
    exec (.poolBlockGrant c) s = .next s) ∧
  (∀ (s : State) (c : Nat) (t : Team) (holds : Team → Prop), c < 272 →
    ((s.core c).growing = true ∨ 1024 ≤ s.clocksSince (s.core c).lastIssue) →
    ((∃ r rest, (s.core c).poolReqs = r :: rest ∧ Claims.poolHeld s c r) ∧
        holds = (fun q => ∃ g ∈ s.groups, g.team = q.id ∧ g.blocks ≠ 0) ∨
      (s.core c).poolReqs = [] ∧ (∃ r rest, (s.core c).tileReqs = r :: rest ∧ TILES < s.tilesUsed c + r.blocks) ∧
        holds = (fun q => ∃ k ∈ s.gangs, k.team = q.id)) →
    (∀ q ∈ s.teams, q.core = some c → q.swap = .resident) → s.team? t.id = some t → t.core = some c →
    (s.part (s.partOf t)).halted = false → holds t →
    (∀ q ∈ s.teams, q.core = some c → q ≠ t → holds q → (s.part (s.partOf q)).halted = true ∨ Claims.goesFirst s t q) →
    s.areaRoom (s.partOf t) [t] = true → Claims.settled s t c →
    exec (.registerGrowCheck c) s
      = .next ((s.modTeam t.id (fun q => { q with swap := .cut })).modCore c (fun k => { k with growing := true }))) ∧
  (∀ (s : State) (c : Nat), (∀ q ∈ s.teams, q.core = some c → q.swap = .resident) →
    ((s.core c).growing = true ∨ 1024 ≤ s.clocksSince (s.core c).lastIssue) →
    (∀ q ∈ s.teams, q.core = some c → (s.part (s.partOf q)).halted = true ∨
      (∀ g ∈ s.groups, g.team = q.id → g.blocks = 0) ∧ ∀ k ∈ s.gangs, k.team ≠ q.id) →
    exec (.registerGrowCheck c) s = .next (s.modCore c (fun k => { k with growing := false }))) ∧
  (∀ (s : State) (c i : Nat) (b : Bin), (s.core c).bins[i]? = some b → b.fired = false →
    max 1 (s.core c).bintime.toNat ≤ s.clocksSince b.opened →
    ∃ t : State, exec (.binFireTimeout c i) s = .next t ∧ (c < 272 → t.core c = { s.core c with
        fired := (s.core c).fired + 1,
        bins := (s.core c).bins.set i { b with fired := true, ord := (s.core c).fired + 1, since := s.time } }) ∧
      t.groups = s.groups ∧ t.mem = s.mem ∧ (∀ q ∈ s.teams, q ∈ t.teams) ∧
      ∀ l e v items, b.work = .spawn l e v items → c < 272 →
        ∃ q ∈ t.teams, q.spawn = true ∧ q.launch = l ∧ q.core = some c) ∧
  (∀ (s : State) (c i : Nat) (b : Bin) (l : Launch) (entry : Word64) (vregs : Nat) (items : List SpawnItem),
    (s.core c).bins[i]? = some b → b.fired = true → b.work = .spawn l.id entry vregs items →
    (32 < vregs → Claims.binRoom s c vregs b) → (∀ w ∈ s.waitingAll l.part, w.before (Claims.binPlace s l c i b) = false) →
    items.length ≤ 64 → s.launch? l.id = some l → (s.core c).part = BitVec.ofNat 4 l.part → l.part < 8 →
    (s.core c).moving = false → c < 272 → (∃ k < 128, ∀ g ∈ s.groups, g.core = some c → g.slot ≠ k) →
    (s.teams.map (fun (t : Team) => t.id)).Nodup → (∀ t ∈ s.teams, t.id < s.nextId ∧ (t.spawn = true → t.core = some c → t.swap = .resident)) →
    ∃ (u : State) (g : Group) (t : Team), exec (.spawnedGroupStart c i) s = .next u ∧ u.groups = s.groups ++ [g] ∧
      (u.core c).bins = (s.core c).bins.eraseIdx i ∧ u.team? g.team = some t ∧ t.spawn = true ∧ t.launch = l.id ∧
      t.core = some c ∧ g.core = some c ∧ g.slot < 128 ∧ (∀ q ∈ s.groups, q.core = some c → q.slot ≠ g.slot) ∧
      g.kind = .spawned (items.map (fun x => x.charge)) ∧ g.pc = entry ∧ g.lo = decide (32 < vregs) ∧ g.hi = decide (48 < vregs) ∧
      (∀ n, 4 ≤ n → vget g.v n vzero = vzero) ∧
      g.mode = .user ∧ g.wait = none ∧ g.depth = 0 ∧ vget g.x 0 0 = l.pkt.extractLsb' 896 64 ∧ vget g.x 1 0 = l.addr ∧
      g.srseed = l.pkt.extractLsb' 704 64 ∧ (∀ j, g.exec.getLsbD j = decide (j < items.length)) ∧
      ∀ (j : Nat) (x : SpawnItem), items[j]? = some x → ∀ k < 4, vlane (vget g.v k vzero) j = vget x.words k 0) ∧
  (∀ (s : State) (g : Group) (c off : Nat) (b : Bin) (t : Team) (tgt : CallTarget) (lanes : List CallLane)
      (call : Calling), (s.core c).bins = [b] → c < 272 → b.fired = true → b.work = .call t.id g.pc tgt lanes →
    s.team? t.id = some t → t.core = some c → t.swap = .resident → max 1 (s.core c).bintime.toNat ≤ s.clocksSince b.since →
    lanes ≠ [] → (∀ x ∈ lanes, x.members ≠ [] ∧ ∀ m ∈ x.members, m.caller = g.id) → s.group? g.id = some g →
    g.team = t.id → g.core = some c → g.calling = some call → call.tgt = tgt → s.haltReached g = false → Memory.wf s.mem = true →
    (s.findArea t tgt.frameSize = none → (lanes.flatMap (fun (x : CallLane) => x.members)).length
        = (lanesOf call.set).length * (if tgt.gather then 1 else tgt.k) →
      exec (.pooledCallWithdraw c 0) s = .next ((s.modCore c (fun k => { k with bins := [] })).take
        { g with wait := none, calling := none } (trapOf .frameovf))) ∧
    (s.findArea t tgt.frameSize = some off → ∃ (u : State) (g' : Group) (f : Fold), exec (.pooledCallWithdraw c 0) s = .next u ∧ (u.core c).bins = [] ∧
      u.group? g.id = some g' ∧ g'.folds = f :: g.folds ∧ f.frame = off ∧ f.callSlot = g.pc ∧ f.calling = call ∧
      (∀ j < 64, f.set.getLsbD j = true ↔ ∃ x ∈ lanes, ∃ m ∈ x.members, m.lane.toNat = j) ∧ g'.pc = tgt.entry ∧
      g'.depth = g.depth + 1 ∧ g'.wait = none ∧
      (∃ t', u.team? t.id = some t' ∧ t'.areas = t.areas ++ [(off, tgt.frameSize)]) ∧
      ∀ x, ¬ (scrLoc c off ≤ x ∧ x < scrLoc c off + tgt.frameSize) → u.read8 x = s.read8 x))

/-! ## Placement and swapping -/

/-- Placement (R126, R137 to R140): the team that is next in line, alone in its cohort, takes the core that fits with most
free slots and the lowest free range of its scratchpad, which reads as zeros; its groups start as R126 says, each in a
free slot; nothing else of memory changes.

Swapping (R139, R148, R416 to R419, R36). A team whose slice has run out while another of no lower priority waits for its
place is cut; so is one whose core leaves its partition. That the expiry of the slice makes the cut itself, and `SWAP_CUT` only
that of a team that moves, is log entry 46 (DEDUCED). A cut team that has drained leaves: its image holds its
scratchpad, and no byte of memory changes but on its old place and in the partition's swap area. Next in line it comes back,
on the fitting core of most free slots, with those bytes and its groups' registers, `EVPEND` bit 2 set. What waits for eight
slices is raised. A core that no team is on changes its partition. -/
def Obligations.TeamsMove : Prop :=
  (∀ (s : State) (p : BitVec 3) (w : Waiting) (l : Launch) (c o size : Nat), s.firstWaiting p.toNat = some w →
     w.what = .new l.id → s.launch? l.id = some l → l.coll = none → l.vals.coht = 1 →
     l.next < l.vals.gx * l.vals.gy * l.vals.gz → size = l.vals.scratch + l.vals.frstk → Memory.wf s.mem = true →
     c < 272 → s.coreOpen l.part c = true → s.coreFits c l.vals l.vals.tgrp 0 0 = true → s.lowestOff c size = some o →
     (∀ d < 272, d ≠ c → s.coreOpen l.part d = true → s.coreFits d l.vals l.vals.tgrp 0 0 = true →
       s.lowestOff d size ≠ none → (s.freeSlots d).length < (s.freeSlots c).length ∨
         (s.freeSlots d).length = (s.freeSlots c).length ∧ c < d) →
     ∃ (u : State) (t : Team) (gs : List Group), exec (.teamPlace p) s = .next u ∧ u.teams = s.teams ++ [t] ∧
       u.groups = s.groups ++ gs ∧ u.launch? l.id = some { l with next := l.next + 1, nofit := false } ∧
       t.core = some c ∧ t.off = o ∧ t.l = l.next ∧ t.launch = l.id ∧ t.spawn = false ∧ t.swap = .resident ∧
       t.tids = List.replicate l.vals.tq none ∧ t.kts = List.replicate l.vals.kq none ∧ t.spawned = 0 ∧ t.areas = [] ∧
       (∀ x, u.read8 x = if scrLoc c o ≤ x ∧ x < scrLoc c o + size then 0 else s.read8 x) ∧
       gs.length = l.vals.tgrp ∧ (gs.map (fun (g : Group) => g.slot)).Nodup ∧
       ∀ (i : Nat) (g : Group), gs[i]? = some g → g.team = t.id ∧ g.core = some c ∧ g.slot < 128 ∧
         (∀ q ∈ s.groups, q.core = some c → q.slot ≠ g.slot) ∧ g.kind = .launched ∧ g.index = BitVec.ofNat 32 i ∧
         g.teamNo = BitVec.ofNat 32 l.next ∧ g.gx = BitVec.ofNat 32 (l.next % max 1 l.vals.gx) ∧
         g.pc = l.vals.entry ∧ g.exec = BitVec.allOnes 64 ∧ g.helper = 0 ∧ g.mode = .user ∧ g.wait = none ∧
         g.v = Vector.replicate 64 vzero ∧ vget g.x 0 0 = l.pkt.extractLsb' 896 64 ∧ vget g.x 1 0 = l.addr ∧
         (∀ n, 2 ≤ n → vget g.x n 0 = 0) ∧ g.fstat = 0 ∧ g.srseed = l.pkt.extractLsb' 704 64 ∧
         g.srctr = BitVec.ofNat 64 ((l.next * 16 + i) * 2 ^ 32)) ∧
  ((∀ (s : State) (t : Team) (l : Launch) (c : Nat) (w : Waiting), s.team? t.id = some t → s.launch? t.launch = some l →
     s.cohortTeams t = [t] → t.core = some c → t.swap = .resident → s.sliceNs l.prio ≤ (s.time - t.since).toNat →
     (s.part l.part).halted = false → w ∈ s.waitingAll l.part → l.prio ≤ w.prio →
     s.waitingFits w = false → (s.without [t]).waitingFits w = true → s.areaRoom l.part [t] = true →
     Claims.settled s t c →
     exec (.timeSliceExpiry t.id) s = .next (s.modTeam t.id (fun q => { q with swap := .cut }))) ∧
   (∀ (s : State) (t : Team) (c : Nat), s.team? t.id = some t → t.core = some c → t.swap = .resident →
     (s.core c).moving = true → s.areaRoom (s.partOf t) [t] = true → Claims.settled s t c →
     exec (.swapCut t.id) s = .next (s.modTeam t.id (fun q => { q with swap := .cut }))) ∧
   (∀ (s : State) (t : Team) (c size : Nat) (sw : BitVec 128), s.team? t.id = some t → t.core = some c → t.swap = .cut →
     s.drained t = true → size = s.allocSize t → Memory.wf s.mem = true → sw = (s.part (s.partOf t)).pswap →
     ∃ (u : State) (t' : Team) (im : ScrImage), exec (.swapOutComplete t.id) s = .next u ∧ u.team? t.id = some t' ∧
       t' = { t with core := none, swap := .out, since := s.time, image := some im, bins := t'.bins } ∧
       (∀ o < size, Memory.read im.bytes o = s.read8 (scrLoc c t.off + o)) ∧
       (∀ x, ¬ (scrLoc c t.off ≤ x ∧ x < scrLoc c t.off + size) →
         ¬ ((sw.extractLsb' 16 40).toNat * 2 ^ 16 ≤ x ∧
           x < ((sw.extractLsb' 16 40).toNat + (sw.extractLsb' 96 32).toNat) * 2 ^ 16) → u.read8 x = s.read8 x) ∧
       u.groups = s.groups.map (fun g => if g.team = t.id then { g with core := none, line := none } else g)) ∧
   (∀ (s : State) (t : Team) (c : Nat) (w : Waiting) (im : ScrImage), s.team? t.id = some t → t.swap = .out →
     t.spawn = false → s.cohortTeams t = [t] → (s.valsOf t).coht ≤ 1 → s.firstWaiting (s.partOf t) = some w →
     w.what = .away t.id → c < 272 → s.resumeFits t c = true →
     (∀ d < 272, d ≠ c → s.resumeFits t d = true → (s.freeSlots d).length < (s.freeSlots c).length ∨
       (s.freeSlots d).length = (s.freeSlots c).length ∧ c < d) → t.image = some im → t.held = [] → t.bins = [] →
     (s.groups.map (fun (g : Group) => g.id)).Nodup →
     (s.groups.filter (fun g => g.team == t.id)).length ≤ s.slotsOf t →
     (∀ g ∈ s.groups, g.team = t.id → g.core = none ∧ g.wait = none ∧ g.allPend = []) →
     Memory.wf s.mem = true → Memory.wf im.bytes = true → (∀ x ∈ im.bytes, x.1 < s.allocSize t) →
     ∃ (u : State) (t' : Team), exec (.teamResume t.id c) s = .next u ∧ u.team? t.id = some t' ∧ t'.core = some c ∧
       t'.home = c ∧ t'.swap = .resident ∧ t'.off = t.off ∧ t'.image = none ∧ t'.kts = t.kts ∧ t'.tids = t.tids ∧
       (∀ o < s.allocSize t, u.read8 (scrLoc c t.off + o) = Memory.read im.bytes o) ∧
       (∀ x, ¬ (scrLoc c t.off ≤ x ∧ x < scrLoc c t.off + s.allocSize t) → u.read8 x = s.read8 x) ∧
       ∀ g ∈ s.groups, g.team = t.id → ∃ g', u.group? g.id = some g' ∧ g'.core = some c ∧
         g'.evpend = g.evpend ||| t.evpend ||| 4 ∧ g'.pc = g.pc ∧ g'.v = g.v ∧ g'.x = g.x ∧ g'.exec = g.exec ∧
         g'.mode = g.mode ∧ g'.bypass = g.bypass) ∧
   (∀ (s : State) (t : Team) (l : Launch), s.team? t.id = some t → s.launch? t.launch = some l → t.swap = .out →
     8 * s.sliceNs l.prio ≤ (s.time - t.since).toNat →
     exec (.waitPriorityRaise t.id) s = .next (s.modTeam t.id (fun q => { q with raised := true }))) ∧
   (∀ (s : State) (l : Launch), s.team? l.id = none → s.launch? l.id = some l → l.ended = false →
     l.next < l.vals.gx * l.vals.gy * l.vals.gz → 8 * s.sliceNs l.prio ≤ (s.time - l.tdisp).toNat →
     exec (.waitPriorityRaise l.id) s = .next (s.modLaunch l.id (fun q => { q with raised := true }))) ∧
   (∀ (s : State) (c : Nat), c < 272 → (s.core c).moving = true → (∀ t ∈ s.teams, t.core ≠ some c) →
     (s.core c).bins = [] → s.mgmt.collpart = [] →
     exec (.partitionMoveComplete c) s = .next (s.modCore c (fun k => { k with part := k.newPart, moving := false }))))


/-! ## Launch queues -/

namespace Sys2Proof.Claims

/-- A master's id (R438). -/
def master (r : BitVec 8) : Prop :=
  1 ≤ r.toNat ∧ r.toNat ≤ 8

/-- A write that the supervisor window takes (R33, R439, R444): by the owner, not in recovery. -/
def owned (s : State) (who : Requester) : Prop :=
  s.mgmt.bootState ≠ 3 ∧ ∃ r, who = .master r ∧ master r ∧ r.toNat = s.owner

/-- Queue q's front-end serves it: a control core of its die runs (R41, R113). -/
def serves (s : State) (q : Nat) : Prop :=
  (∃ k < 2, vget (s.die (q / 16)).ctrlRuns k false = true) ∧ (s.queue q).en = true ∧ (s.queue q).qerr = false ∧
    4 ≤ (s.queue q).sizel.toNat ∧ (s.queue q).qpart.toNat < 8

/-- What a packet's failure leaves of memory (R122, R129, R130): the entry of the log, then its record with the status, then its
semaphore, for a queue whose packets act in partition `part`. -/
def failedMem (s : State) (q part : Nat) (p : BitVec 1024) (status : Nat) (data : List Byte) (aux : Nat) (t : State) : Prop :=
  let s1 := s.log { die := q / 16, kind := 11, part := part, unit := q / 16 * 4096 + 0x102, aux := aux, data := data }
  let rec_ := status + (p.extractLsb' 832 48).toNat * 2 ^ 16 + (p.extractLsb' 768 64).toNat * 2 ^ 64 +
    s.time.toNat * 2 ^ 128 + s.time.toNat * 2 ^ 192
  let crec := p.extractLsb' 640 64
  let csem := p.extractLsb' 448 64
  (crec = 0 → csem = 0 → t.mem = s1.mem) ∧
  (∀ l1 l2 s2, crec ≠ 0 → csem ≠ 0 → s1.locOf (engineOf part) .write crec = .ok l1 → s1.poisonIn l1 32 = none →
    s2 = s1.writeNat l1 32 rec_ → s2.locOf (engineOf part) .write csem = .ok l2 → s2.poisonIn l2 8 = none →
    t.mem = (s2.writeNat l2 8 (p.extractLsb' 512 64).toNat).mem)

/-- The packet at the head of a queue that is served and that waits for no launch (R113, R115, R116). -/
def atHead (s : State) (q : Nat) (p : BitVec 1024) : Prop :=
  serves s q ∧ packetBad p (s.queue q).qpart = false ∧ p.getLsbD 311 = false

/-- The test of a dependence (R118). -/
def depends (dcmp : Nat) (w d : Word64) : Prop :=
  match dcmp with
  | 1 => w = d
  | 2 => w ≠ d
  | 3 => d.toNat ≤ w.toNat
  | 4 => w.toNat < d.toNat
  | 5 => 0 ≤ (w - d).toInt
  | _ => w &&& d = d

/-- A packet whose checks pass is dispatched (R115, R117, R121): one launch more, the queue at its next packet. -/
def dispatched (s : State) (q : Nat) (p : BitVec 1024) (v : Vals) (t : State) : Prop :=
  (∃ l : Launch, t.launches = s.launches ++ [l] ∧ l.id = s.nextId ∧ l.queue = BitVec.ofNat 6 q ∧
    l.num = (s.queue q).head ∧ l.pkt = p ∧
    l.addr = (s.queue q).base + BitVec.ofNat 64 (128 * ((s.queue q).head.toNat % 2 ^ (s.queue q).sizel.toNat)) ∧
    l.part = (p.extractLsb' 304 3).toNat ∧ l.prio = (p.extractLsb' 301 3).toNat ∧ l.vals = v ∧ l.tdisp = s.time ∧
    l.next = 0 ∧ l.status = 0 ∧ l.ended = false ∧ l.coll = none ∧ l.collDone = true) ∧
  t.queue q = { s.queue q with
    head := (s.queue q).head + 1, packet := none, checked := false, interval := 0, due := (t.queue q).due,
    prev := some s.nextId } ∧
  t = { s with launches := t.launches, queues := t.queues, nextId := s.nextId + 1 }

end Sys2Proof.Claims

/-- Packets (R115, R118 to R122, R129, R130). A packet read whose dependence is still to be polled is held; one without
dependence, grid-size word and collective whose checks pass is dispatched; one that breaks a check of the packet fails with its
`LAUNCHFAIL` entry in the log, then its record, with `TDISP` the time of the failure (log entry 58, DESIGN CHOICE), then its
semaphore. Its partition, in the log and for its record and semaphore, is that of its queue (log entry 26, DEDUCED). A poll
is made only once it is due; one that fails doubles the interval, from 64 to 65,536 ns; one that holds
dispatches. A launch with nothing left writes its record, then its semaphore, and is gone. -/
def Obligations.PacketsRun : Prop :=
  (∀ (s : State) (q : BitVec 6) (n : Nat) (p : BitVec 1024), (s.queue q.toNat).packet = none →
    (s.queue q.toNat).head ≠ (s.queue q.toNat).tail →
    s.readVa (engineOf (s.queue q.toNat).qpart.toNat) .read ((s.queue q.toNat).packetAddr (s.queue q.toNat).head) 128
      = .ok n → p = BitVec.ofNat 1024 n → Claims.atHead s q.toNat p →
    ((p.extractLsb' 307 3).toNat ≠ 0 → exec (.packetRead q) s = .next (s.modQueue q.toNat (fun l => { l with
      packet := some p, checked := true, interval := 0, due := s.time }))) ∧
    (∀ v, (p.extractLsb' 307 3).toNat = 0 → p.extractLsb' 64 64 = 0 →
      s.checkLaunch (p.extractLsb' 304 3).toNat p none = .ok (v, none) →
      ∃ t : State, exec (.packetRead q) s = .next t ∧ Claims.dispatched s q.toNat p v t)) ∧
  (∀ (s : State) (q : BitVec 6) (n : Nat) (p : BitVec 1024), Claims.serves s q.toNat →
    (s.queue q.toNat).packet = none → (s.queue q.toNat).head ≠ (s.queue q.toNat).tail →
    s.readVa (engineOf (s.queue q.toNat).qpart.toNat) .read ((s.queue q.toNat).packetAddr (s.queue q.toNat).head) 128
      = .ok n → p = BitVec.ofNat 1024 n → p.getLsbD 311 = false → packetBad p (s.queue q.toNat).qpart = true →
    ∃ t : State, exec (.packetRead q) s = .next t ∧ t.launches = s.launches ∧ t.groups = s.groups ∧
      (t.queue q.toNat).head = (s.queue q.toNat).head + 1 ∧ (t.queue q.toNat).packet = none ∧
      Claims.failedMem s q.toNat (s.queue q.toNat).qpart.toNat p 1 (bytesOf 8 (p.extractLsb' 832 48).toNat ++
        bytesOf 4 (s.queue q.toNat).head.toNat ++ bytesOf 4 0 ++ bytesOf 8 0) (1 + q.toNat * 2 ^ 16) t) ∧
  (∀ (s : State) (q : BitVec 6) (p : BitVec 1024) (w dcmp : Nat), (s.queue q.toNat).packet = some p →
    (s.queue q.toNat).checked = true → Claims.atHead s q.toNat p → dcmp = (p.extractLsb' 307 3).toNat → dcmp ≠ 0 →
    s.readVa (engineOf (p.extractLsb' 304 3).toNat) .read (p.extractLsb' 320 64) 8 = .ok w →
    (s.time.toNat < (s.queue q.toNat).due.toNat → exec (.dependencePoll q) s = .next s) ∧
    ((s.queue q.toNat).due.toNat ≤ s.time.toNat → (¬ Claims.depends dcmp (BitVec.ofNat 64 w) (p.extractLsb' 384 64) →
      ∃ n, n = (if (s.queue q.toNat).interval = 0 then 64 else min (2 * (s.queue q.toNat).interval) 65536) ∧
        exec (.dependencePoll q) s = .next (s.modQueue q.toNat (fun l => { l with
          interval := n, due := s.time + BitVec.ofNat 64 n }))) ∧
    (∀ v, Claims.depends dcmp (BitVec.ofNat 64 w) (p.extractLsb' 384 64) → p.extractLsb' 64 64 = 0 →
      s.checkLaunch (p.extractLsb' 304 3).toNat p none = .ok (v, none) →
      ∃ t : State, exec (.dependencePoll q) s = .next t ∧ Claims.dispatched s q.toNat p v t))) ∧
  (∀ (s s1 : State) (l : Launch) (rec loc1 loc2 : Nat), s.launch? l.id = some l → s.launchDone l = true →
    l.pkt.extractLsb' 640 64 ≠ 0 → l.pkt.extractLsb' 448 64 ≠ 0 →
    s.locOf (engineOf l.part) .write (l.pkt.extractLsb' 640 64) = .ok loc1 → s.poisonIn loc1 32 = none →
    rec = l.status + (l.pkt.extractLsb' 832 48).toNat * 2 ^ 16 + (l.pkt.extractLsb' 768 64).toNat * 2 ^ 64 +
      l.tdisp.toNat * 2 ^ 128 + s.time.toNat * 2 ^ 192 →
    s1 = s.writeNat loc1 32 rec → s1.locOf (engineOf l.part) .write (l.pkt.extractLsb' 448 64) = .ok loc2 →
    s1.poisonIn loc2 8 = none → (∀ q, (s.queue q).prev ≠ some l.id) →
    exec (.launchComplete l.id) s = .next { s1.writeNat loc2 8 (l.pkt.extractLsb' 512 64).toNat with
      launches := s.launches.filter (fun k => k.id != l.id) })

/-! ## The supervisor window -/

namespace Sys2Proof.Claims

/-- A queue that is not served (R113). -/
def unserved (l : LQueue) : Prop :=
  l.en = false ∨ l.qerr = true ∨ l.sizel.toNat < 4 ∨ 8 ≤ l.qpart.toNat

end Sys2Proof.Claims

/-- The queue registers (R112 to R114, R119, R123). `QBASE` keeps a base of 128 bytes below 2^56, else its value; `EN` holds
only where the queue can be served; an overrun of `QTAIL` sets `QERR`; a new tail, or serving anew, begins the backoff of
what waits anew, its next poll due at once. `QABORT` takes a launch's teams, groups and gangs from the machine.

Writes of the owner (R33): `CPART` starts a core's move (R36), `IPQCFG` sets a queue, its depth only while it is off (R392),
`XPOOL` at most 128 (R144), `TRSIZEL` and `ELSIZEL` 0 or 6 to 24 (R435, R437), `PERFCTL.CLR` zeros a core's counters, also
while `FRZ` is set, which is the model's choice (R423; log entry 23, DEDUCED), `PTVEC` 56 bits (R406). A master that does
not own the module is denied and counted (R439); a virtual function reaches its doorbell. `QABORT` takes no store of a group
(R123). -/
def Obligations.WindowWrites : Prop :=
  ((∀ (s : State) (who : Requester) (q : BitVec 6) (v : Word64), Claims.owned s who →
     exec (.qbaseWrite who q v) s = .next (if v.toNat % 128 = 0 ∧ v.toNat < 2 ^ 56 then
       s.modQueue q.toNat (fun l => { l with base := v }) else s)) ∧
   (∀ (s : State) (who : Requester) (q : BitVec 6) (v : Word32), Claims.owned s who →
     ∃ (t : State) (l : LQueue), exec (.qctlWrite who q v) s = .next t ∧ t = s.modQueue q.toNat (fun _ => l) ∧
       l = { s.queue q.toNat with
         qerr := (s.queue q.toNat).qerr && !v.getLsbD 31, sizel := v.extractLsb' 20 4, qpart := v.extractLsb' 12 4,
         en := v.getLsbD 0 && !((s.queue q.toNat).qerr && !v.getLsbD 31) && decide (4 ≤ (v.extractLsb' 20 4).toNat) &&
           decide ((v.extractLsb' 12 4).toNat < 8),
         interval := l.interval, due := l.due } ∧
       (l.en = true → Claims.unserved (s.queue q.toNat) → l.interval = 0 ∧ l.due = s.time)) ∧
   (∀ (s : State) (who : Requester) (q : BitVec 6) (v : Word32), Claims.owned s who →
     ((v - (s.queue q.toNat).head).toNat ≤ 2 ^ (s.queue q.toNat).sizel.toNat →
       ∃ t : State, exec (.qtailWrite who q v) s = .next t ∧ t = { s with queues := t.queues } ∧
         ∀ k < 64, t.queue k = { s.queue k with
           tail := (if k = q.toNat then v else (s.queue k).tail),
           interval := (if (s.queue k).qpart = (s.queue q.toNat).qpart ∧ (s.queue k).packet ≠ none ∧
             (s.queue k).interval ≠ 0 then 64 else (s.queue k).interval),
           due := (if (s.queue k).qpart = (s.queue q.toNat).qpart ∧ (s.queue k).packet ≠ none ∧
             (s.queue k).interval ≠ 0 then s.time else (s.queue k).due) }) ∧
     (2 ^ (s.queue q.toNat).sizel.toNat < (v - (s.queue q.toNat).head).toNat →
       ∃ t : State, exec (.qtailWrite who q v) s = .next t ∧ (t.queue q.toNat).qerr = true ∧
         (t.queue q.toNat).tail = v)) ∧
   (∀ (s : State) (who : Requester) (q : BitVec 6) (n : Word32) (k : Launch), Claims.owned s who →
     s.launches.find? (fun k => k.queue.toNat == q.toNat && k.num == n) = some k → s.launch? k.id = some k →
     k.ended = false →
     ∃ t : State, exec (.qabort who q n) s = .next t ∧ t.mem = s.mem ∧
       t.teams = s.teams.filter (fun x => x.launch != k.id) ∧
       t.groups = s.groups.filter (fun g => !s.teams.any (fun x => x.launch == k.id && x.id == g.team)) ∧
       t.gangs = s.gangs.filter (fun g => !s.teams.any (fun x => x.launch == k.id && x.id == g.team)) ∧
       t.launch? k.id = some { k with ended := true, status := 5, collDone := k.collDone || !k.collStarted })) ∧
  ((∀ (s : State) (who : Requester) (c : Nat) (v : Word32), Claims.owned s who → c < 272 →
     exec (.cpartWrite who c v) s = .next (if (s.core c).moving = true ∨ (9 ≤ v.toNat % 16 ∧ v.toNat % 16 ≤ 14) then s
       else s.modCore c (fun k => { k with moving := true, newPart := v.extractLsb' 0 4 }))) ∧
   (∀ (s : State) (who : Requester) (q : BitVec 10) (v : Word32), Claims.owned s who →
     exec (.ipqcfgWrite who q v) s = .next (s.setIpq q.toNat { s.ipq q.toNat with
       en := v.getLsbD 31, cons := v.extractLsb' 16 8, prod := v.extractLsb' 8 8,
       depthl := (if (s.ipq q.toNat).en then (s.ipq q.toNat).depthl
         else BitVec.ofNat 4 (min 12 (v.extractLsb' 24 4).toNat)) })) ∧
   (∀ (s : State) (who : Requester) (c : Nat) (v : Word32), Claims.owned s who → c < 272 →
     exec (.xpoolWrite who c v) s = .next (s.modCore c (fun k => { k with
       xlimit := BitVec.ofNat 8 (min 128 (v.toNat % 256)) }))) ∧
   (∀ (s : State) (who : Requester) (p : BitVec 3) (v : Word32), Claims.owned s who →
     exec (.trsizelWrite who p v) s = .next (if v = 0 ∨ (6 ≤ v.toNat ∧ v.toNat ≤ 24) then
       s.modPart p.toNat (fun d => { d with trsizel := v }) else s)) ∧
   (∀ (s : State) (who : Requester) (d : BitVec 2) (v : Word32), Claims.owned s who →
     exec (.elsizelWrite who d v) s = .next (if v.toNat % 32 = 0 ∨ (6 ≤ v.toNat % 32 ∧ v.toNat % 32 ≤ 24) then
       s.modDie d.toNat (fun k => { k with elsizel := BitVec.ofNat 32 (v.toNat % 32) }) else s)) ∧
   (∀ (s : State) (who : Requester) (c : Nat), Claims.owned s who → c < 272 →
     exec (.perfctlClr who c) s = .next (s.modCore c (fun k => { k with
       hist := Vector.replicate 4 (Vector.replicate 33 0), stall := Vector.replicate 4 (Vector.replicate 15 0),
       events := Vector.replicate 8 0 }))) ∧
   (∀ (s : State) (who : Requester) (p : BitVec 3) (v : Word64), Claims.owned s who →
     exec (.registerWrite who (BitVec.ofNat 24 (0x8_0010 + 0x1_0000 * p.toNat)) 8 v) s
       = .next (s.modPart p.toNat (fun d => { d with ptvec := BitVec.ofNat 64 (v.toNat % 2 ^ 56) }))) ∧
   (∀ (s : State) (q n v : Nat), q < 64 → s.mgmt.bootState ≠ 3 → s.regWrite .group (0x4_0000 + 32 * q + 20) n v = s) ∧
   (∀ (s : State) (r : BitVec 8) (off : BitVec 24) (width : Nat) (v : Word64), s.mgmt.bootState ≠ 3 → Claims.master r →
     r.toNat ≠ s.owner → 0x3_0000 ≤ off.toNat → s.mgmt.denycnt ≠ 0xFFFF_FFFF →
     exec (.registerWrite (.master r) off width v) s
       = .next { s with mgmt := { s.mgmt with denycnt := s.mgmt.denycnt + 1 } }) ∧
   (∀ (s : State) (p : BitVec 3) (v : Word64), s.mgmt.bootState ≠ 3 →
     exec (.registerWrite (.vf p) 0xF00 4 v) s = .next (s.ringDoorbell p.toNat)) ∧
   (∀ (s : State) (who : Requester) (p : BitVec 3), s.mgmt.bootState ≠ 3 →
     (who = .vf p ∨ Claims.owned s who) →
     exec (.doorbell who p) s = .next { s with
       groups := s.groups.map (fun g => if g.core ≠ none ∧ ∃ t ∈ s.teams, t.id = g.team ∧ s.partOf t = p.toNat then
         { g with evpend := g.evpend ||| 1 } else g)
       teams := s.teams.map (fun t => if t.core = none ∧ ∃ u ∈ s.teams, u.id = t.id ∧ s.partOf u = p.toNat then
         { t with evpend := t.evpend ||| 1 } else t) }))


/-! ## Debugging, errors, accounting -/

/-- The debug unit and the accounting (R422 to R424, R426, R429, R430, R432, R434, R436). `HALTREQ` halts the context and
records it, with a `GID` and a `SPORD` of all ones by the model's choice (log entry 29, DEDUCED); the cross-trigger reaches
the cores one by one; `RELEASE` ends the halt: hits and selection cleared, stopped groups go on, `EVPEND` bit 3 set.
`DBGSEL` selects a group of a halted context, and none of another. A trace sample, once every 2^`SAMPL` clocks of a
quadrant, takes the oldest group that has issued. Each clock counts in the bucket of the eligible groups. -/
def Obligations.DebugEvents : Prop :=
  (∀ (s : State) (who : Requester) (p : BitVec 3), Claims.owned s who → (s.part p.toNat).hits.length < 16 →
    ∃ rec : BitVec 256, rec.extractLsb' 192 64 = s.time ∧ rec.extractLsb' 128 16 = 0xFFFF ∧
      rec.extractLsb' 96 32 = 0xFFFF_FFFF ∧ rec.extractLsb' 80 8 = 5 ∧
      exec (.haltreq who p) s = .next (s.modPart p.toNat (fun d => { d with
        halted := true, hits := d.hits ++ [rec],
        trig := (if d.halted then d.trig else
          (List.range 272).filter (fun c => decide ((s.core c).part = BitVec.ofNat 4 p.toNat))) }))) ∧
  (∀ (s : State) (c : Nat), exec (.crossTriggerArrive c) s = .next { s with
    parts := s.parts.map (fun p => { p with trig := p.trig.filter (· ≠ c) }) }) ∧
  (∀ (s : State) (who : Requester) (p : BitVec 3), Claims.owned s who → (∀ g ∈ s.groups, g.calling = none) →
    exec (.release who p) s = .next { s.modPart p.toNat (fun d => { d with
        halted := false, hits := [], status := 0, trig := [], dbgsel := d.dbgsel &&& 0xFFFF }) with
      groups := s.groups.map (fun g => if ∃ t ∈ s.teams, t.id = g.team ∧ s.partOf t = p.toNat then
        { g with stopped := false, evpend := if g.core = none then g.evpend else g.evpend ||| 8 } else g)
      teams := s.teams.map (fun t => if t.core = none ∧ ∃ u ∈ s.teams, u.id = t.id ∧ s.partOf u = p.toNat then
        { t with evpend := t.evpend ||| 8 } else t) }) ∧
  (∀ (s : State) (who : Requester) (p : BitVec 3) (v : Word64), Claims.owned s who →
    ∃ st : BitVec 2, exec (.dbgselWrite who p v) s = .next (s.modPart p.toNat (fun d => { d with
        dbgsel := BitVec.ofNat 64 (v.toNat % (if d.halted = true then 2 ^ 17 else 2 ^ 16)), status := st })) ∧
      (v.getLsbD 16 = false ∨ (s.part p.toNat).halted = false → st = 0) ∧
      (v.getLsbD 16 = true → (s.part p.toNat).halted = true → st = if ∃ g ∈ s.groups,
        s.gidOf g = v.extractLsb' 0 16 ∧ (s.accessor g).part = p.toNat then 1 else 2)) ∧
  (∀ (s : State) (c : Nat) (quad : BitVec 2) (g : Group) (p : Nat) (rec : Nat), c < 272 → (s.core c).part.toNat = p →
    p < 8 → (s.part p).sampl ≠ 0 → 6 ≤ (s.part p).trsizel.toNat →
    2 ^ (s.part p).sampl.toNat ≤ s.clocksSince (vget (s.core c).sampled quad.toNat 0) → g ∈ s.groups → g.core = some c →
    g.slot / 32 = quad.toNat → g.sampled = false →
    (∀ q ∈ s.groups, q.core = some c → q.slot / 32 = quad.toNat → q.sampled = false → q ≠ g →
      g.created.toNat < q.created.toNat) →
    rec = s.time.toNat * 2 ^ 192 + (vget (s.core c).slotSeq g.slot 0).toNat * 2 ^ 144 + g.gid16.toNat * 2 ^ 128 +
      g.lastsp.toNat * 2 ^ 96 + 2 * 2 ^ 88 →
    ∃ t : State, exec (.traceSample c quad) s = .next t ∧
      t.mem = (s.writeNat ((s.part p).trbase.toNat + 32 * ((s.part p).trhead.toNat % 2 ^ (s.part p).trsizel.toNat)) 32
        rec).mem ∧ vget (t.core c).sampled quad.toNat 0 = s.time ∧ (t.part p).trhead = (s.part p).trhead + 1 ∧
      ∀ q ∈ t.groups, q.core = some c → q.slot / 32 = quad.toNat →
        (∃ q' ∈ s.groups, q'.id = q.id ∧ q'.core = some c ∧ q'.slot / 32 = quad.toNat) → q.sampled = true) ∧
  (∀ (s : State) (c p : Nat) (quad : BitVec 2), (s.core c).part.toNat = p → p < 8 →
    ((s.part p).sampl = 0 ∨ s.clocksSince (vget (s.core c).sampled quad.toNat 0) < 2 ^ (s.part p).sampl.toNat) →
    exec (.traceSample c quad) s = .next s) ∧
  (∀ (s : State) (c : Nat) (quad : BitVec 2) (e : Nat), c < 272 → (s.core c).frz = false →
    e = (s.groups.filter (fun g => g.core == some c && g.slot / 32 == quad.toNat && s.eligible g)).length → e < 33 →
    ∃ k : Core, exec (.eligibilityHistogramClock c quad) s = .next (s.modCore c (fun _ => k)) ∧
      k = { s.core c with hist := k.hist, stall := k.stall } ∧
      (∀ q < 4, ∀ b < 33, vget (vget k.hist q (Vector.replicate 33 0)) b 0
        = vget (vget (s.core c).hist q (Vector.replicate 33 0)) b 0 + (if q = quad.toNat ∧ b = e then 1 else 0)) ∧
      (e ≠ 0 → k.stall = (s.core c).stall) ∧
      ((∀ g ∈ s.groups, g.core = some c → g.slot / 32 ≠ quad.toNat) →
        ∀ q < 4, ∀ r < 15, vget (vget k.stall q (Vector.replicate 15 0)) r 0
          = vget (vget (s.core c).stall q (Vector.replicate 15 0)) r 0 + (if q = quad.toNat ∧ r = 0 then 1 else 0)))

namespace Sys2Proof.Claims

/-- `OWNER` from its fields (R440). -/
def ownerBits (epoch hand own : Nat) : Word64 :=
  BitVec.ofNat 64 (epoch % 2 ^ 32 * 2 ^ 16 + hand % 2 ^ 8 * 2 ^ 8 + own % 2 ^ 8)

/-- The interrupts that a change of the epoch raises (R442): of the masters given, none for 0. -/
def raised (irq : Vector Nat 9) (masters : List Nat) : Vector Nat 9 :=
  masters.foldl (fun v m => if m = 0 then v else vmod v m 0 (· + 1)) irq

end Sys2Proof.Claims

/-- Ownership (R440 to R442): a claim of the free module, an offer, the taking of an offer, a release, each with the word
expected and the new word of its rule, each change of the epoch raising the interrupts of the old and the new owner; any
other word, and a word that is not expected, change nothing; every one returns the old value. That each of the four events
admits its own transition alone, where one CAS may make any of them, is the model's choice (log entry 49, DEDUCED). The
owner's link going down starts a timer, which its coming up drops; after 1 s the module is released on its behalf, and the
event is logged. -/
def Obligations.OwnershipMoves : Prop :=
  (∀ (s : State) (r : BitVec 8) (e h o : Nat) (x new : Word64) (now : State → State), Claims.master r → e < 2 ^ 32 →
    h ≤ 8 → o ≤ 8 → s.mgmt.owner = Claims.ownerBits e h o →
    now = (fun t => { t with answer := some (.master r, s.mgmt.owner.toNat) }) →
    (exec (.ownerClaim r x new) s = .next (now (if x = s.mgmt.owner ∧ o = 0 ∧ new = Claims.ownerBits (e + 1) 0 r.toNat then
      { s with mgmt := { s.mgmt with owner := new, irq := Claims.raised s.mgmt.irq [r.toNat] } } else s))) ∧
    (∀ m, x = s.mgmt.owner → o = r.toNat → m ≤ 8 → m ≠ r.toNat → new = Claims.ownerBits e m o →
      exec (.ownerOffer r x new) s = .next (now { s with mgmt := { s.mgmt with owner := new } })) ∧
    (¬ (x = s.mgmt.owner ∧ o = r.toNat ∧ ∃ m, m ≤ 8 ∧ m ≠ r.toNat ∧ new = Claims.ownerBits e m o) →
      exec (.ownerOffer r x new) s = .next (now s)) ∧
    (exec (.ownerTake r x new) s = .next (now (if x = s.mgmt.owner ∧ h = r.toNat ∧ new = Claims.ownerBits (e + 1) 0 r.toNat
      then { s with mgmt := { s.mgmt with owner := new, irq := Claims.raised s.mgmt.irq [o, r.toNat] } } else s))) ∧
    (exec (.ownerRelease r x new) s = .next (now (if x = s.mgmt.owner ∧ o = r.toNat ∧ new = Claims.ownerBits (e + 1) 0 0 then
      { s with mgmt := { s.mgmt with owner := new, irq := Claims.raised s.mgmt.irq [o] } } else s)))) ∧
  (∀ (s : State) (port : BitVec 3) (m : BitVec 8), m = 3 + port.setWidth 8 → s.owner = m.toNat →
    exec (.ownerLinkDown (some port)) s = .next { s with
      peerUp := vset s.peerUp port.toNat false, mgmt := { s.mgmt with timer := some (m, s.time) } } ∧
    (∀ since, s.mgmt.timer = some (m, since) → (s.time - since).toNat < 10 ^ 9 →
      exec (.ownerLinkUp (some port)) s = .next { s with
        peerUp := vset s.peerUp port.toNat true, mgmt := { s.mgmt with timer := none } })) ∧
  (∀ (s : State), s.owner = 1 → exec (.ownerLinkDown none) s
    = .next { s with hostUp := false, mgmt := { s.mgmt with timer := some (1, s.time) } }) ∧
  (∀ (s : State) (m : BitVec 8) (since : Word64) (e h : Nat), s.mgmt.timer = some (m, since) → e < 2 ^ 32 → h ≤ 8 →
    Claims.master m → s.mgmt.owner = Claims.ownerBits e h m.toNat →
    ((s.time - since).toNat < 10 ^ 9 → exec .ownerLinkTimeout s = .next s) ∧
    (10 ^ 9 ≤ (s.time - since).toNat → ∃ v : LogEvent, v.die = 0 ∧ v.team = none ∧
      exec .ownerLinkTimeout s = .next (State.log { s with mgmt := { s.mgmt with
        timer := none, owner := Claims.ownerBits (e + 1) 0 0, irq := Claims.raised s.mgmt.irq [m.toNat] } } v)))

namespace Sys2Proof.Claims

/-- Master r has given a command that the running firmware has not finished (R446); its mailbox's bytes rise. -/
def commanded (s : State) (r : BitVec 8) (code : Nat) : Prop :=
  master r ∧ s.mgmt.bootState = 2 ∧ vget s.mgmt.busy (r.toNat - 1) false = true ∧
    s.boxNat (r.toNat - 1) 0 4 = code ∧ (∀ k < 8, Memory.wf (vget s.mgmt.boxes k []) = true ∧
      Memory.wf (vget s.mgmt.replies k []) = true)

/-- The command has ended with a status. -/
def answered (t : State) (r : BitVec 8) (status : Nat) : Prop :=
  t.boxNat (r.toNat - 1) 4 4 = status ∧ vget t.mgmt.busy (r.toNat - 1) false = false

/-- Bytes of the reply buffer. -/
def reply (t : State) (r : BitVec 8) (off n : Nat) : List Byte :=
  Memory.readN (vget t.mgmt.replies (r.toNat - 1) []) off n

/-- The certificate of the module's keys and serial number (R448). -/
def certificate (s : State) : List Byte :=
  Config.certificate (edPublic s.mgmt.edKey) (mlPublic s.mgmt.mlKey) s.mgmt.serial

/-- A slot of the flash. -/
def slot (s : State) (b : Bool) : List Host.Cell :=
  if b then s.mgmt.slotB else s.mgmt.slotA

end Sys2Proof.Claims

/-- The mailbox commands (R446 to R448): `GETCERT` replies with the certificate, `ATTEST` with 3,541 bytes that begin with
the magic, the version, the serial number, the nonce, the digests and `OWNER` and end with the two signatures of those by the
identity keys, by the standards that the rules name (log entry 65, PRESUMED); `STAGE` puts 240 bytes into the
inactive slot; `UPDATE` of what is staged answers with the result of its check; `ACTIVATE` swaps the slots and raises
the floor; `COLLPART` moves the die's last four cores; the last four are the owner's. -/
def Obligations.MailboxCommands : Prop :=
  (∀ (s : State) (r : BitVec 8), Claims.commanded s r 2 →
    ∃ t : State, exec (.getcert r) s = .next t ∧ Claims.answered t r 0 ∧
      Claims.reply t r 0 (Claims.certificate s).length = Claims.certificate s ∧
      t.boxNat (r.toNat - 1) 8 4 = (Claims.certificate s).length % 2 ^ 32) ∧
  (∀ (s : State) (r : BitVec 8), Claims.commanded s r 1 →
    ∃ t : State, exec (.attest r) s = .next t ∧ Claims.answered t r 0 ∧ t.boxNat (r.toNat - 1) 8 4 = 3541 ∧
      Claims.reply t r 0 168 = bytesOf 4 0x4154_5354 ++ bytesOf 4 s.mgmt.version.toNat ++ bytesOf 16 s.mgmt.serial.toNat ++
        Memory.readN (vget s.mgmt.boxes (r.toNat - 1) []) 8 32 ++ bytesOf 48 s.mgmt.digest.toNat ++
        bytesOf 48 (sha3 Config.rom).toNat ++ bytesOf 8 s.mgmt.owner.toNat ++ bytesOf 8 s.time.toNat ∧
      ∃ (body : List Byte) (rnd : BitVec 256), body = Claims.reply t r 0 168 ∧ Claims.reply t r 0 3541 =
        body ++ bytesOf 64 (edSign s.mgmt.edKey body).toNat ++ (List.range 3309).map (mlSign s.mgmt.mlKey rnd body)) ∧
  (∀ (s : State) (r : BitVec 8) (off : Nat), Claims.commanded s r 5 → s.owner = r.toNat →
    off = s.boxNat (r.toNat - 1) 8 8 → off + 240 ≤ 48 * 2 ^ 20 → Memory.wf (Claims.slot s (!s.mgmt.active)) = true →
    ∃ t : State, exec (.stage r) s = .next t ∧ Claims.answered t r 0 ∧
      (∀ x, Memory.read (Claims.slot t (!s.mgmt.active)) x = if off ≤ x ∧ x < off + 240 then
        Memory.read (vget s.mgmt.boxes (r.toNat - 1) []) (16 + (x - off))
        else Memory.read (Claims.slot s (!s.mgmt.active)) x) ∧
      Claims.slot t s.mgmt.active = Claims.slot s s.mgmt.active) ∧
  (∀ (s : State) (r : BitVec 8) (step : Nat), Claims.commanded s r 3 → s.owner = r.toNat →
    s.boxNat (r.toNat - 1) 8 8 = 2 ^ 64 - 1 → step = checkImage (Claims.slot s (!s.mgmt.active)) s.mgmt.vfloor →
    ∃ t : State, exec (.update r) s = .next t ∧ Claims.answered t r (if step = 0 then 0 else 2) ∧
      t.mgmt.inactiveFail.toNat = step ∧ (step ≠ 0 → t.boxNat (r.toNat - 1) 8 1 = step) ∧
      ∀ b, Claims.slot t b = Claims.slot s b) ∧
  (∀ (s : State) (r : BitVec 8), Claims.commanded s r 4 → s.owner = r.toNat →
    (s.mgmt.inactiveFail = 0 → ∃ t : State, exec (.activate r) s = .next t ∧ Claims.answered t r 0 ∧
      t.mgmt.active = !s.mgmt.active ∧ t.mgmt.vfloor.toNat = max s.mgmt.vfloor.toNat
        (natOf (Memory.readN (Claims.slot s (!s.mgmt.active)) 4 4))) ∧
    (s.mgmt.inactiveFail ≠ 0 → ∃ t : State, exec (.activate r) s = .next t ∧ Claims.answered t r 2 ∧
      t.mgmt.active = s.mgmt.active ∧ t.mgmt.vfloor = s.mgmt.vfloor)) ∧
  (∀ (s : State) (r : BitVec 8), Claims.commanded s r 6 → s.owner = r.toNat → s.boxNat (r.toNat - 1) 8 1 = 1 →
    r ∉ s.mgmt.collpart → (∀ c < 272, (s.core c).moving = false) →
    ∃ t : State, exec (.collpart r) s = .next t ∧ t.mgmt.collpart = s.mgmt.collpart ++ [r] ∧
      vget t.mgmt.busy (r.toNat - 1) false = true ∧
      ∀ c < 272, t.core c = if 64 ≤ c % 68 then { s.core c with moving := true, newPart := 8 } else s.core c) ∧
  (∀ (s : State) (r : BitVec 8) (i : Instr) (code : Nat), Claims.commanded s r code → s.owner ≠ r.toNat →
    (i = .update r ∧ code = 3 ∨ i = .activate r ∧ code = 4 ∨ i = .stage r ∧ code = 5 ∨
      i = .collpart r ∧ code = 6 ∧ r ∉ s.mgmt.collpart) →
    ∃ t : State, exec i s = .next t ∧ Claims.answered t r 1 ∧ t.cores = s.cores ∧
      (∀ b, Claims.slot t b = Claims.slot s b) ∧ t.mgmt.active = s.mgmt.active)

/-- Reset of the module (R443 to R445): by PERST#, or the owner's write of the magic value to `RESETREQ`: no group, team or
launch is left, no byte of the module's memory, no owner; the flash and the keys stay. `RESETREQ` of another master is
denied; another value does nothing. What a reset clears beside the registers of its chapter, and that it keeps the flash, is
the model's choice (log entry 20, DEDUCED). The boot ROM checks both slots and starts the firmware of the active one if its
image passes, else of the other, else recovery; then the firmware runs, with `SVEC` set on every core. That each takes a
tick of the time base is the model's choice (log entry 59, DESIGN CHOICE). -/
def Obligations.ResetsRestart : Prop :=
  (∀ (s : State), ∃ t : State, exec .perst s = .next t ∧ t.groups = [] ∧ t.teams = [] ∧ t.launches = [] ∧ t.cmds = [] ∧
    t.mgmt.owner = 0 ∧ t.mgmt.active = s.mgmt.active ∧ t.mgmt.slotA = s.mgmt.slotA ∧ t.mgmt.slotB = s.mgmt.slotB ∧
    t.mgmt.vfloor = s.mgmt.vfloor ∧ t.mgmt.fwData = s.mgmt.fwData ∧ t.mgmt.edKey = s.mgmt.edKey ∧
    t.mgmt.mlKey = s.mgmt.mlKey ∧ t.mgmt.serial = s.mgmt.serial ∧ t.mgmt.bootState = 0 ∧ t.cores = State.reset.cores ∧
    t.parts = State.reset.parts ∧ t.dies = State.reset.dies ∧ t.queues = State.reset.queues ∧
    (Memory.wf s.mem = true → ∀ x, x < HOST_BASE ∨ 2 ^ 56 ≤ x → t.read8 x = 0)) ∧
  (∀ (s t : State) (dt : Nat) (fails : Bool → Nat) (b : Bool), dt ≠ 0 → s.mgmt.bootState = 0 → t = s.pass dt →
    fails = (fun b => checkImage (Claims.slot s b) s.mgmt.vfloor) →
    b = (if fails s.mgmt.active = 0 then s.mgmt.active else !s.mgmt.active) →
    t.time = s.time + BitVec.ofNat 64 dt ∧ t.mgmt.failA.toNat = fails false ∧ t.mgmt.failB.toNat = fails true ∧
    (fails b = 0 ∧ t.mgmt.bootState = 1 ∧ t.mgmt.bootSlot = b ∧
        t.mgmt.version.toNat = natOf (Memory.readN (Claims.slot s b) 4 4) ∨
      fails s.mgmt.active ≠ 0 ∧ fails b ≠ 0 ∧ t.mgmt.bootState = 3)) ∧
  (∀ (s t : State) (dt : Nat), dt ≠ 0 → s.mgmt.bootState = 1 → t = s.pass dt →
    t.time = s.time + BitVec.ofNat 64 dt ∧ t.mgmt.bootState = 2 ∧ (∀ c < 272, (t.core c).svec = Config.svec c) ∧
      ∀ d < 4, ∀ k < 2, vget (t.die d).ctrlRuns k false = true) ∧
  (∀ (s : State) (dt : Nat), dt = 0 ∨ 2 ≤ s.mgmt.bootState.toNat →
    s.pass dt = { s with time := s.time + BitVec.ofNat 64 dt }) ∧
  (∀ (s : State) (r : BitVec 8), Claims.master r → r.toNat = s.owner →
    exec (.resetreq r 0x5245_5345) s = exec .perst s ∧
    ∀ v, v ≠ 0x5245_5345 → exec (.resetreq r v) s = .next s) ∧
  (∀ (s : State) (r : BitVec 8) (v : Word32), Claims.master r → r.toNat ≠ s.owner → s.mgmt.denycnt ≠ 0xFFFF_FFFF →
    exec (.resetreq r v) s = .next { s with mgmt := { s.mgmt with denycnt := s.mgmt.denycnt + 1 } })

/-- Soft errors (R377, R394, R420, R437): one that cannot be corrected poisons its unit of memory, its stream register or
its queue entry; a corrected one is counted, up to the largest count, and changes no data. How an error names what it
strikes, and that every corrected one counts, is the model's choice (log entry 47, DEDUCED).

The outside (R27, R31, R42, R272, R298, R438, R444), once the firmware runs: a write of the host or of a peer lands in main
memory or in a slice; an atomic updates one aligned word and returns its old value; a read changes nothing and returns the
bytes. Before the firmware runs such a request has no effect, which before recovery is the model's choice (log entry 59,
DESIGN CHOICE). Of a virtual function and of the management controller none reaches memory. At an address of the supervisor
register window, which the model takes to name an offset of it, or of the function's BAR (R33; log entry 60, DESIGN CHOICE),
a virtual function reads its queues' `QTAIL` and else 0; a master reads `OWNER`, its own reply buffer and no other's (R439),
byte by byte or at any aligned size up to 8 (log entry 19, DESIGN CHOICE), and writes as by a register write. The state of a
port follows its link, the owner's timer starting when it goes down. The owner sets the power cap, from 600 W to 2,400 W, by
an act of the agenda (log entry 49, DESIGN CHOICE); a cap that binds lowers the clock by 50 MHz, and the step is logged, by
die 0 as the model has it (log entry 34, DESIGN CHOICE). -/
def Obligations.OutsideEvents : Prop :=
  ((∀ (s : State) (loc : Nat), (loc < MAIN_END ∨ 2 ^ 56 ≤ loc ∧ loc < 2 ^ 56 + 272 * 2 ^ 20) → loc < 2 ^ 57 →
     (∀ d < 4, (s.die d).elsizel = 0) →
     ∃ t : State, exec (.softError loc false) s = .next t ∧ t.mem = s.mem ∧
       (∀ u, u ∈ t.poison ↔ u = loc / 16 ∨ u ∈ s.poison)) ∧
   (∀ (s : State) (loc d : Nat), loc < MAIN_END → d = loc / 4096 % 4 → (∀ d < 4, (s.die d).elsizel = 0) →
     ∃ t : State, exec (.softError loc true) s = .next t ∧ t.mem = s.mem ∧ t.poison = s.poison ∧ t.groups = s.groups ∧
       (t.die d).cecount = (if (s.die d).cecount = 0xFFFF_FFFF then 0xFFFF_FFFF else (s.die d).cecount + 1)) ∧
   (∀ (s : State) (t : Team) (r : Nat) (x : Stream), r < 64 → 64 * t.id + r < 2 ^ 57 → s.team? t.id = some t →
     t.streams[r]? = some x →
     ∃ u t', exec (.softError (2 ^ 57 + 64 * t.id + r) false) s = .next u ∧ u.team? t.id = some t' ∧
       t'.streams[r]? = some { x with poison := true }) ∧
   (∀ (s : State) (q i : Nat) (x : QEntry), q < 1024 → i < 4096 → (s.ipq q).entries[i]? = some x →
     ∃ u : State, exec (.softError (2 ^ 58 + 4096 * q + i) false) s = .next u ∧
       (u.ipq q).entries[i]? = some { x with poison := true })) ∧
  ((∀ (s : State) (r : BitVec 8) (addr : Word64) (bs : List Byte) (loc : Nat), Claims.master r → r ≠ 2 →
     s.mgmt.bootState = 2 →
     (addr.toNat + bs.length ≤ MAIN_END ∧ loc = addr.toNat ∨ MAIN_END < addr.toNat + bs.length ∧
       ∃ c off, regionOf none addr = .scratch c off ∧ off + bs.length ≤ 2 ^ 20 ∧ loc = scrLoc c off) →
     exec (.hostOrPeerRequest (.master r) addr bs.length (.write bs)) s = .next (s.write loc bs) ∧
     exec (.hostOrPeerRequest (.master r) addr bs.length .read) s
       = .next { s with answer := some (.master r, s.readNat loc bs.length) }) ∧
   (∀ (s : State) (r : BitVec 8) (addr : Word64) (n size : Nat) (v e x : Code) (old : Nat) (now : State → State),
     Claims.master r → r ≠ 2 → s.mgmt.bootState = 2 → (n = 4 ∨ n = 8) →
     addr.toNat % n = 0 → addr.toNat + n ≤ MAIN_END → s.poisonIn addr.toNat n = none → old = s.readNat addr.toNat n →
     now = (fun t => { t with answer := some (.master r, old) }) →
     exec (.hostOrPeerRequest (.master r) addr size (.swap n v)) s
       = .next (now (s.writeNat addr.toNat n (v.toNat % 2 ^ (8 * n)))) ∧
     exec (.hostOrPeerRequest (.master r) addr size (.fetchAdd n v)) s
       = .next (now (s.writeNat addr.toNat n ((old + v.toNat) % 2 ^ (8 * n)))) ∧
     exec (.hostOrPeerRequest (.master r) addr size (.cas n e x)) s
       = .next (now (s.writeNat addr.toNat n (if old = e.toNat % 2 ^ (8 * n) then x.toNat % 2 ^ (8 * n) else old)))) ∧
   (∀ (s : State) (who : Requester) (addr : Word64) (size : Nat) (op : HostOp),
     ((∃ p, who = .vf p) ∨ who = .master 2 ∨ s.mgmt.bootState ≠ 2) → (∀ off, regionOf none addr ≠ .supv off) →
     exec (.hostOrPeerRequest who addr size op) s = .next s) ∧
   (∀ (s : State) (p : BitVec 3) (addr : Word64) (off size : Nat), regionOf none addr = .supv off →
     (∀ q j, q < 64 → (s.queue q).qpart.toNat = p.toNat → s.mgmt.bootState ≠ 3 →
       j = ((List.range q).filter (fun k => (s.queue k).qpart.toNat == p.toNat)).length → off = 32 * j + 12 →
       exec (.hostOrPeerRequest (.vf p) addr 4 .read) s = .next { s with answer := some (.vf p, (s.queue q).tail.toNat) }) ∧
     (off % 32 ≠ 12 → off ≠ 0xF00 →
       exec (.hostOrPeerRequest (.vf p) addr size .read) s = .next { s with answer := some (.vf p, 0) } ∧
       ∀ bs : List Byte, exec (.hostOrPeerRequest (.vf p) addr bs.length (.write bs)) s = .next s)) ∧
   (∀ (s : State) (r : BitVec 8) (addr : Word64) (off : Nat), Claims.master r → regionOf none addr = .supv off →
     (off = 0 → exec (.hostOrPeerRequest (.master r) addr 8 .read) s
       = .next { s with answer := some (.master r, s.mgmt.owner.toNat) }) ∧
     (∀ k m, k < 0x4000 → m < 8 → off = 0x1_0000 + 0x4000 * m + k →
       exec (.hostOrPeerRequest (.master r) addr 1 .read) s = .next { s with answer := some (.master r,
         if m + 1 = r.toNat then (Memory.read (vget s.mgmt.replies m []) k).toNat else 0) }) ∧
     (∀ bs : List Byte, bs.length ≤ 8 → exec (.hostOrPeerRequest (.master r) addr bs.length (.write bs)) s
       = exec (.registerWrite (.master r) (BitVec.ofNat 24 off) bs.length (BitVec.ofNat 64 (natOf bs))) s)) ∧
   (∀ (s : State) (p : BitVec 3) (m : BitVec 8), p.toNat < 6 → m = 3 + p.setWidth 8 →
     (∃ t : State, exec (.peerPortLinkDown p) s = .next t ∧ t = { s with peerUp := t.peerUp, mgmt := t.mgmt } ∧
       t.mgmt = { s.mgmt with timer := if s.owner = m.toNat then some (m, s.time) else s.mgmt.timer } ∧
       ∀ k < 6, vget t.peerUp k false = if k = p.toNat then false else vget s.peerUp k false) ∧
     (∃ t : State, exec (.peerPortLinkUp p) s = .next t ∧ t = { s with peerUp := t.peerUp, mgmt := t.mgmt } ∧
       ((∀ q, s.mgmt.timer = some q → q.1 ≠ m) → t.mgmt = s.mgmt) ∧
       ∀ k < 6, vget t.peerUp k false = if k = p.toNat then true else vget s.peerUp k false)) ∧
   (∀ (s s1 : State) (dt w : Nat) (rest : List Turn), s.agenda = ⟨dt, .powerCap w⟩ :: rest →
     s1 = { s with agenda := rest }.pass dt →
     step s = .next (if (1 ≤ s1.owner ∧ s1.owner ≤ 8) ∧ 600 ≤ w ∧ w ≤ 2400 then { s1 with cap := w } else s1)) ∧
   (∀ s : State,
     (s.clock ≤ 50 → exec .clkstep s = .next s) ∧
     (50 < s.clock → exec .clkstep s = .next (State.log { s with clock := s.clock - 50 }
       { die := 0, kind := 13, unit := 0x102, aux := s.clock - 50, data := bytesOf 4 s.cap }))))


/-! ## The whole machine -/

namespace Sys2Proof.Claims

/-- A list of numbers rises strictly. -/
def rising (l : List Nat) : Prop :=
  l.Pairwise (· < ·)

/-- The canonical form of everything that is a list of bytes, of empty lines or of poisoned units: equal contents are
equal data (log entry 2, DESIGN CHOICE). -/
def canonical (s : State) : Prop :=
  Memory.wf s.mem = true ∧ rising s.fe ∧ rising s.poison ∧
    (∀ t ∈ s.teams, ∀ im, t.image = some im → Memory.wf im.bytes = true) ∧
    (∀ k < 8, Memory.wf (vget s.mgmt.boxes k []) = true ∧ Memory.wf (vget s.mgmt.replies k []) = true) ∧
    Memory.wf s.mgmt.slotA = true ∧ Memory.wf s.mgmt.slotB = true ∧ Memory.wf s.mgmt.fwData = true

/-- Every agent has a number of its own, below the next one to be given. -/
def numbered (s : State) : Prop :=
  let own (l : List Nat) : Prop := l.Nodup ∧ ∀ i ∈ l, i < s.nextId
  own (s.groups.map (fun (x : Group) => x.id)) ∧ own (s.teams.map (fun (x : Team) => x.id)) ∧
    own (s.launches.map (fun (x : Launch) => x.id)) ∧ own (s.gangs.map (fun (x : Gang) => x.id)) ∧
    own (s.cmds.map (fun (x : Cmd) => x.id)) ∧ own (s.colls.map (fun (x : Coll) => x.id)) ∧
    own (s.tokens.map (fun (x : Token) => x.id))

/-- A log entry of 64 bytes (R437): stamp, sequence, kind, partition, group, unit, `AUX`, then 40 bytes of data. -/
def entryBytes (s : State) (e : LogEvent) (seq : Nat) : List Byte :=
  bytesOf 8 s.time.toNat ++ bytesOf 6 seq ++ bytesOf 1 e.kind ++ bytesOf 1 e.part ++ bytesOf 2 e.gid.toNat ++
    bytesOf 2 e.unit ++ bytesOf 4 e.aux ++ e.data ++ List.replicate (40 - e.data.length) 0

end Sys2Proof.Claims

/-- Every step answers a next state and keeps the canonical form of memory, of the full/empty bits, of the poison marks,
of the swap images, of the mailboxes and of the flash. The form is the model's (log entry 2, DESIGN CHOICE), not the spec's. -/
def Obligations.StepKeepsForm : Prop :=
  ∀ (s : State), Claims.canonical s → ∃ t : State, step s = .next t ∧ Claims.canonical t

/-- Every step answers a next state and keeps the numbers of groups, teams, launches, gangs, commands, collectives and
tokens apart. The numbers are the model's, not the spec's. -/
def Obligations.StepKeepsNumbers : Prop :=
  ∀ (s : State), Claims.numbered s → ∃ t : State, step s = .next t ∧ Claims.numbered t

/-- Reset (R35, R37, R112, R125, R144, R151, R153, R392, R406, R423, R426, R427, R435, R437, R440, R445): the registers
at the values the spec gives them. No agent exists yet, and both invariants of the steps hold. -/
def Obligations.ResetValues : Prop :=
  State.reset.time = 0 ∧ State.reset.groups = [] ∧ State.reset.teams = [] ∧ State.reset.launches = [] ∧
  (∀ q < 64, (State.reset.queue q).qerr = false ∧ (State.reset.queue q).sizel = 0 ∧
    (State.reset.queue q).qpart = 0xF ∧ (State.reset.queue q).en = false) ∧
  (∀ p < 8, vget State.reset.slices p 0 = 2000) ∧
  (∀ q < 1024, (State.reset.ipq q).en = false ∧ (State.reset.ipq q).depthl = 0 ∧ (State.reset.ipq q).cons = 0 ∧
    (State.reset.ipq q).prod = 0) ∧
  (∀ c < 272, (State.reset.core c).part = 0xF ∧ (State.reset.core c).moving = false ∧
    (State.reset.core c).xlimit = 128 ∧ (State.reset.core c).bintime = 256 ∧ (State.reset.core c).frz = false ∧
    (State.reset.core c).pgidle = 4096) ∧
  (∀ p < 8, (State.reset.part p).pswap = 0 ∧ (State.reset.part p).ptvec = 0 ∧ (State.reset.part p).proot = 0 ∧
    (State.reset.part p).sampl = 0 ∧ (State.reset.part p).btrace = false ∧ (State.reset.part p).arm = false ∧
    (State.reset.part p).halted = false ∧ (State.reset.part p).hits = [] ∧ (State.reset.part p).trsizel = 0 ∧
    (∀ i < 8, vget (State.reset.part p).bp i 1 = 0) ∧ (∀ i < 4, vget (State.reset.part p).wp i 1 = 0)) ∧
  (∀ d < 4, (State.reset.die d).elbase = 0 ∧ (State.reset.die d).elsizel = 0 ∧ (State.reset.die d).elhead = 0 ∧
    (State.reset.die d).cecount = 0) ∧
  State.reset.mgmt.owner = 0 ∧ State.reset.mgmt.bootState = 0 ∧ State.reset.mgmt.failA = 0 ∧
  State.reset.mgmt.failB = 0 ∧ Claims.canonical State.reset ∧ Claims.numbered State.reset

/-- The error log (R437): with a ring, an entry of 64 bytes at its head, the head and the sequence number one up; without
one none, and the number stands still, which is the model's choice (log entry 34, DEDUCED); in both cases the owner's
interrupt, and `ERRLOG` in the team's groups. -/
def Obligations.LogEntries : Prop :=
  (∀ (s : State) (e : LogEvent) (n m loc : Nat), e.die < 4 → n = (s.die e.die).elsizel.toNat → 6 ≤ n → n ≤ 24 →
    e.data.length ≤ 40 → m = s.owner → 1 ≤ m → m ≤ 8 → Memory.wf s.mem = true →
    loc = (s.die e.die).elbase.toNat + 64 * ((s.die e.die).elhead.toNat % 2 ^ n) →
    ∃ t : State, s.log e = t ∧
      (∀ x, t.read8 x = if loc ≤ x ∧ x < loc + 64 then
        (Claims.entryBytes s e ((s.die e.die).elSeq + 1).toNat).getD (x - loc) 0 else s.read8 x) ∧
      (∀ d < 4, t.die d = if d = e.die then
        { s.die d with elhead := (s.die d).elhead + 1, elSeq := (s.die d).elSeq + 1 } else s.die d) ∧
      t.mgmt = { s.mgmt with irq := vmod s.mgmt.irq m 0 (· + 1) } ∧
      t = { s with mem := t.mem, poison := t.poison, dies := t.dies, mgmt := t.mgmt, groups := t.groups, teams := t.teams } ∧
      (e.team = none → t.groups = s.groups ∧ t.teams = s.teams) ∧
      ∀ tm, e.team = some tm →
        t.groups = s.groups.map (fun g =>
          if g.team = tm ∧ g.core ≠ none then { g with evpend := g.evpend ||| 2 } else g) ∧
        t.teams = s.teams.map (fun t => if t.id = tm ∧ t.core = none then { t with evpend := t.evpend ||| 2 } else t)) ∧
  (∀ (s : State) (e : LogEvent) (m tm : Nat), e.die < 4 → (s.die e.die).elsizel = 0 → m = s.owner → 1 ≤ m → m ≤ 8 →
    e.team = some tm →
    s.log e = { s with
      mgmt := { s.mgmt with irq := vmod s.mgmt.irq m 0 (· + 1) }
      groups := s.groups.map (fun g =>
        if g.team = tm ∧ g.core ≠ none then { g with evpend := g.evpend ||| 2 } else g)
      teams := s.teams.map (fun t => if t.id = tm ∧ t.core = none then { t with evpend := t.evpend ||| 2 } else t) })
end

