-- ==== Sys2Proof/Laws/Encoding.lean ====
section
/-! SUPPORT. The encoder and the decoder read the same fields: the laws of packing a word, and of the codes of operands,
types and modifiers. -/

namespace Sys2Proof

/-! ## Packing -/

theorem cutHi (n m : Nat) (x : BitVec n) (y : BitVec m) (lo k : Nat) (h : m ≤ lo) :
    BitVec.extractLsb' lo k (x ++ y) = x.extractLsb' (lo - m) k := by
  simp [BitVec.extractLsb'_append_eq_of_le h]

theorem cutLo (n m : Nat) (x : BitVec n) (y : BitVec m) (lo k : Nat) (h : lo + k ≤ m) :
    BitVec.extractLsb' lo k (x ++ y) = y.extractLsb' lo k := by
  simp [BitVec.extractLsb'_append_eq_of_add_le h]

theorem getLsbD_cut (w : BitVec 96) (i : Nat) : w.getLsbD i = (w.extractLsb' i 1 == 1#1) := by
  have : (w.extractLsb' i 1).getLsbD 0 = w.getLsbD i := by simp
  rw [← this]
  generalize w.extractLsb' i 1 = b
  revert b; decide

@[simp] theorem bit1_beq (b : Bool) : (bit1 b == 1#1) = b := by cases b <;> rfl
@[simp] theorem bit1_getLsbD (b : Bool) : (bit1 b).getLsbD 0 = b := by cases b <;> rfl
theorem bit1_inj (b : Bool) : (bit1 b == 1) = b := by cases b <;> rfl

theorem unpackTop_pack (t : Top) (y : BitVec 70) : unpackTop (packTop t ++ y) = t := by
  obtain ⟨opc, sub, ty, ⟨pm, pn, sw, uni, tr, st⟩⟩ := t
  simp only [unpackTop, unpackHdr, fld, packTop, getLsbD_cut]
  simp (disch := decide) only [cutHi 26 70, cutHi 25 1, cutLo 25 1, cutHi 24 1, cutLo 24 1, cutHi 23 1, cutLo 23 1,
    cutHi 22 1, cutLo 22 1, cutHi 21 1, cutLo 21 1, cutHi 18 3, cutLo 18 3, cutHi 14 4, cutLo 14 4, cutHi 8 6, cutLo 8 6]
  simp

@[simp] theorem unpackTop_packA (t : Top) (f : FA) : unpackTop (packA t f) = t :=
  unpackTop_pack t _

@[simp] theorem unpackA_packA (t : Top) (f : FA) : unpackA (packA t f) = f := by
  simp only [unpackA, packA, fld]
  simp (disch := decide) only [
    cutLo 26 70, cutHi 40 30, cutLo 40 30, cutHi 36 4, cutLo 36 4, cutHi 35 1, cutLo 35 1, cutHi 32 3,
    cutLo 32 3, cutHi 24 8, cutLo 24 8, cutHi 16 8, cutLo 16 8, cutHi 8 8, cutLo 8 8]
  simp

@[simp] theorem unpackTop_packI (t : Top) (f : FI) : unpackTop (packI t f) = t :=
  unpackTop_pack t _

@[simp] theorem unpackI_packI (t : Top) (f : FI) : unpackI (packI t f) = f := by
  simp only [unpackI, packI, fld]
  simp (disch := decide) only [
    cutLo 26 70, cutHi 32 38, cutLo 32 38, cutHi 20 12, cutLo 20 12, cutHi 19 1, cutLo 19 1, cutHi 16 3,
    cutLo 16 3, cutHi 8 8, cutLo 8 8]
  simp

@[simp] theorem unpackTop_packM (t : Top) (f : FM) : unpackTop (packM t f) = t :=
  unpackTop_pack t _

@[simp] theorem unpackM_packM (t : Top) (f : FM) : unpackM (packM t f) = f := by
  simp only [unpackM, packM, fld]
  simp (disch := decide) only [
    cutLo 26 70, cutHi 57 13, cutLo 57 13, cutHi 49 8, cutLo 49 8, cutHi 46 3, cutLo 46 3, cutHi 43 3,
    cutLo 43 3, cutHi 40 3, cutLo 40 3, cutHi 16 24, cutLo 16 24, cutHi 8 8, cutLo 8 8]
  simp

@[simp] theorem unpackTop_packC (t : Top) (f : FC) : unpackTop (packC t f) = t :=
  unpackTop_pack t _

@[simp] theorem unpackC_packC (t : Top) (f : FC) : unpackC (packC t f) = f := by
  simp only [unpackC, packC, fld]
  simp (disch := decide) only [
    cutLo 26 70, cutHi 45 25, cutLo 45 25, cutHi 37 8, cutLo 37 8, cutHi 31 6, cutLo 31 6, cutHi 30 1,
    cutLo 30 1, cutHi 28 2, cutLo 28 2, cutHi 25 3, cutLo 25 3, cutHi 23 2, cutLo 23 2, cutHi 20 3, cutLo 20 3]
  simp

@[simp] theorem unpackTop_packK (t : Top) (f : FK) : unpackTop (packK t f) = t :=
  unpackTop_pack t _

@[simp] theorem unpackK_packK (t : Top) (f : FK) : unpackK (packK t f) = f := by
  simp only [unpackK, packK, fld]
  simp (disch := decide) only [
    cutLo 26 70, cutHi 32 38, cutLo 32 38]
  simp

@[simp] theorem unpackTop_packS (t : Top) (f : FS) : unpackTop (packS t f) = t :=
  unpackTop_pack t _

@[simp] theorem unpackS_packS (t : Top) (f : FS) : unpackS (packS t f) = f := by
  simp only [unpackS, packS, fld]
  simp (disch := decide) only [
    cutLo 26 70, cutHi 27 43, cutLo 27 43, cutHi 24 3, cutLo 24 3, cutHi 8 16, cutLo 8 16]
  simp

@[simp] theorem unpackTop_packX (t : Top) (f : FX) : unpackTop (packX t f) = t :=
  unpackTop_pack t _

@[simp] theorem unpackX_packX (t : Top) (f : FX) : unpackX (packX t f) = f := by
  simp only [unpackX, packX, fld]
  simp (disch := decide) only [
    cutLo 26 70, cutHi 61 9, cutLo 61 9, cutHi 58 3, cutLo 58 3, cutHi 52 6, cutLo 52 6, cutHi 46 6,
    cutLo 46 6, cutHi 40 6, cutLo 40 6, cutHi 32 8, cutLo 32 8, cutHi 24 8, cutLo 24 8, cutHi 16 8, cutLo 16 8,
    cutHi 8 8, cutLo 8 8]
  simp

/-! ## Narrow fields -/

theorem zext_toNat (n m : Nat) (x : BitVec m) : (0#n ++ x).toNat = x.toNat := by
  simp [BitVec.toNat_append]

theorem zext_setWidth (n m : Nat) (x : BitVec m) : BitVec.setWidth m (0#n ++ x) = x := by
  apply BitVec.eq_of_toNat_eq
  rw [BitVec.toNat_setWidth, zext_toNat]
  exact Nat.mod_eq_of_lt x.isLt

/-! ## Codes -/

@[simp] theorem decOpd_code (o : Opd) : decOpd o.code = .ok o := by
  cases o with
  | v n => revert n; decide
  | x n => revert n; decide
  | m n => revert n; decide
  | c n => revert n; decide
  | q n => revert n; decide
  | s n => revert n; decide
  | t n => revert n; decide

@[simp] theorem decITy_code (t : ITy) : decITy t.code = .ok t := by cases t <;> rfl
@[simp] theorem decFTy_code (t : FTy) : decFTy t.code = .ok t := by cases t <;> rfl
@[simp] theorem decRm_code (r : Rm) : decRm r.code = .ok r := by cases r <;> rfl
@[simp] theorem decSat_code (b : Bool) : decSat (satSub b) = .ok b := by cases b <;> rfl
@[simp] theorem decICmp_code (r : ICmp) : decICmp r.code = .ok r := by cases r <;> rfl
@[simp] theorem decFCmp_code (r : FCmp) : decFCmp r.code = .ok r := by cases r <;> rfl
@[simp] theorem decRedOp_code (o : RedOp) : decRedOp o.code = .ok o := by cases o <;> rfl
@[simp] theorem decKOp_code (o : KOp) : decKOp o.code = .ok o := by cases o <;> rfl
@[simp] theorem decScope_code (s : Scope) : decScope s.code = .ok s := by cases s <;> rfl
@[simp] theorem decOrd_code (o : MemOrd) : decOrd o.code = .ok o := by cases o <;> rfl
@[simp] theorem decCFlag_code (f : CFlag) : decCFlag f.code = f := by cases f <;> rfl

theorem qcfg_bits (qi : BitVec 3) (depth : BitVec 4) (base : BitVec 6) :
    (0#25 ++ base ++ depth ++ qi : BitVec 38).toNat < 8192 ∧
    (0#25 ++ base ++ depth ++ qi : BitVec 38).extractLsb' 0 3 = qi ∧
    (0#25 ++ base ++ depth ++ qi : BitVec 38).extractLsb' 3 4 = depth ∧
    (0#25 ++ base ++ depth ++ qi : BitVec 38).extractLsb' 7 6 = base := by
  refine ⟨?_, ?_, ?_, ?_⟩
  · have h1 : base.toNat < 2 ^ 6 := base.isLt
    have h2 : depth.toNat < 2 ^ 4 := depth.isLt
    have h3 : qi.toNat < 2 ^ 3 := qi.isLt
    simp only [BitVec.toNat_append, BitVec.toNat_ofNat, Nat.zero_mod, Nat.zero_shiftLeft, Nat.zero_or]
    have h4 : base.toNat <<< 4 < 2 ^ 10 := by rw [Nat.shiftLeft_eq]; omega
    have h5 : base.toNat <<< 4 ||| depth.toNat < 2 ^ 10 := Nat.or_lt_two_pow h4 (by omega)
    have h6 : (base.toNat <<< 4 ||| depth.toNat) <<< 3 < 2 ^ 13 := by rw [Nat.shiftLeft_eq]; omega
    exact Nat.or_lt_two_pow h6 (by omega)
  all_goals simp (disch := decide) only [cutLo 35 3, cutHi 35 3, cutLo 31 4, cutHi 31 4, cutLo 25 6]
  all_goals simp

/-- The test fields read as the test. -/
theorem decTest_fields (f : FC) (t : Test) (h1 : f.ctest = 0) (h2 : f.cidx = 0) (h3 : f.flag = 0) (h4 : f.fneg = 0) :
    decTest (t.fields f) = .ok t := by
  cases t with
  | always => simp [Test.fields, decTest, h1, h2, h3, h4, need0, need, bind, Except.bind]
  | flag ci fl neg =>
    have h : (0#1 ++ ci : BitVec 3).toNat < 4 := by rw [zext_toNat 1 2]; exact ci.isLt
    simp [Test.fields, decTest, h, need, bind, Except.bind, zext_setWidth 1 2]
  | maskZero mi => simp [Test.fields, decTest, h3, h4, need0, need, bind, Except.bind]
  | maskNonzero mi => simp [Test.fields, decTest, h3, h4, need0, need, bind, Except.bind]

@[simp] theorem Test.fields_keep (f : FC) (t : Test) :
    (t.fields f).rsv = f.rsv ∧ (t.fields f).disp = f.disp ∧ (t.fields f).slot = f.slot ∧ (t.fields f).treg = f.treg ∧
      (t.fields f).creg = f.creg := by
  cases t <;> simp [Test.fields]

theorem mma_bits0 (kc : BitVec 3) (za : Bool) :
    (0#1 ++ bit1 za ++ 0#1 ++ kc : BitVec 6).toNat < 32 ∧
    (0#1 ++ bit1 za ++ 0#1 ++ kc : BitVec 6)[3] = false ∧
    (0#1 ++ bit1 za ++ 0#1 ++ kc : BitVec 6)[4] = za ∧
    (0#1 ++ bit1 za ++ 0#1 ++ kc : BitVec 6).extractLsb' 0 3 = kc := by
  revert kc za; decide

theorem mma_bits1 (kc : BitVec 3) (za : Bool) :
    (0#1 ++ bit1 za ++ 1#1 ++ kc : BitVec 6).toNat < 32 ∧
    (0#1 ++ bit1 za ++ 1#1 ++ kc : BitVec 6)[3] = true ∧
    (0#1 ++ bit1 za ++ 1#1 ++ kc : BitVec 6)[4] = za ∧
    (0#1 ++ bit1 za ++ 1#1 ++ kc : BitVec 6).extractLsb' 0 3 = kc := by
  revert kc za; decide

theorem tile_bits (ti : BitVec 2) :
    (1#4 ++ ti : BitVec 6).toNat < 8 ∧ (1#4 ++ ti : BitVec 6).getLsbD 2 = true ∧
      (1#4 ++ ti : BitVec 6).extractLsb' 0 2 = ti := by
  revert ti; decide

@[simp] theorem ite_bit (b : Bool) : ((if b = true then 1#4 else 0#4) == 1#4) = b := by cases b <;> rfl

end Sys2Proof
end

