-- ==== Sys2Proof/Laws/State.lean ====
section
/-! SUPPORT. What each update of the state leaves in each field: one lemma for a field and an update. -/

namespace Sys2Proof.Machine

/-! ## `State.write` -/

@[simp] theorem State.write_time (s : State) (loc : Nat) (bs : List Byte) : (s.write loc bs).time = s.time := rfl
@[simp] theorem State.write_mem (s : State) (loc : Nat) (bs : List Byte) :
    (s.write loc bs).mem = Memory.write s.mem loc bs := rfl
@[simp] theorem State.write_fe (s : State) (loc : Nat) (bs : List Byte) : (s.write loc bs).fe = s.fe := rfl
@[simp] theorem State.write_groups (s : State) (loc : Nat) (bs : List Byte) :
    (s.write loc bs).groups = s.groups := rfl
@[simp] theorem State.write_teams (s : State) (loc : Nat) (bs : List Byte) : (s.write loc bs).teams = s.teams := rfl
@[simp] theorem State.write_launches (s : State) (loc : Nat) (bs : List Byte) :
    (s.write loc bs).launches = s.launches := rfl
@[simp] theorem State.write_gangs (s : State) (loc : Nat) (bs : List Byte) : (s.write loc bs).gangs = s.gangs := rfl
@[simp] theorem State.write_cmds (s : State) (loc : Nat) (bs : List Byte) : (s.write loc bs).cmds = s.cmds := rfl
@[simp] theorem State.write_colls (s : State) (loc : Nat) (bs : List Byte) : (s.write loc bs).colls = s.colls := rfl
@[simp] theorem State.write_tokens (s : State) (loc : Nat) (bs : List Byte) :
    (s.write loc bs).tokens = s.tokens := rfl
@[simp] theorem State.write_queues (s : State) (loc : Nat) (bs : List Byte) :
    (s.write loc bs).queues = s.queues := rfl
@[simp] theorem State.write_slices (s : State) (loc : Nat) (bs : List Byte) :
    (s.write loc bs).slices = s.slices := rfl
@[simp] theorem State.write_ipqs (s : State) (loc : Nat) (bs : List Byte) : (s.write loc bs).ipqs = s.ipqs := rfl
@[simp] theorem State.write_parts (s : State) (loc : Nat) (bs : List Byte) : (s.write loc bs).parts = s.parts := rfl
@[simp] theorem State.write_dies (s : State) (loc : Nat) (bs : List Byte) : (s.write loc bs).dies = s.dies := rfl
@[simp] theorem State.write_cores (s : State) (loc : Nat) (bs : List Byte) : (s.write loc bs).cores = s.cores := rfl
@[simp] theorem State.write_mgmt (s : State) (loc : Nat) (bs : List Byte) : (s.write loc bs).mgmt = s.mgmt := rfl
@[simp] theorem State.write_peerUp (s : State) (loc : Nat) (bs : List Byte) :
    (s.write loc bs).peerUp = s.peerUp := rfl
@[simp] theorem State.write_hostUp (s : State) (loc : Nat) (bs : List Byte) :
    (s.write loc bs).hostUp = s.hostUp := rfl
@[simp] theorem State.write_clock (s : State) (loc : Nat) (bs : List Byte) : (s.write loc bs).clock = s.clock := rfl
@[simp] theorem State.write_cap (s : State) (loc : Nat) (bs : List Byte) : (s.write loc bs).cap = s.cap := rfl
@[simp] theorem State.write_answer (s : State) (loc : Nat) (bs : List Byte) : (s.write loc bs).answer = s.answer := rfl
@[simp] theorem State.write_fills (s : State) (loc : Nat) (bs : List Byte) : (s.write loc bs).fills = s.fills := rfl
@[simp] theorem State.write_phases (s : State) (loc : Nat) (bs : List Byte) : (s.write loc bs).phases = s.phases := rfl
@[simp] theorem State.write_agenda (s : State) (loc : Nat) (bs : List Byte) :
    (s.write loc bs).agenda = s.agenda := rfl
@[simp] theorem State.write_cur (s : State) (loc : Nat) (bs : List Byte) : (s.write loc bs).cur = s.cur := rfl
@[simp] theorem State.write_freeCtr (s : State) (loc : Nat) (bs : List Byte) :
    (s.write loc bs).freeCtr = s.freeCtr := rfl
@[simp] theorem State.write_nextId (s : State) (loc : Nat) (bs : List Byte) :
    (s.write loc bs).nextId = s.nextId := rfl

/-! ## `State.setPoison` -/

@[simp] theorem State.setPoison_time (s : State) (loc : Nat) : (s.setPoison loc).time = s.time := rfl
@[simp] theorem State.setPoison_mem (s : State) (loc : Nat) : (s.setPoison loc).mem = s.mem := rfl
@[simp] theorem State.setPoison_fe (s : State) (loc : Nat) : (s.setPoison loc).fe = s.fe := rfl
@[simp] theorem State.setPoison_poison (s : State) (loc : Nat) :
    (s.setPoison loc).poison = insertNat (loc / 16) s.poison := rfl
@[simp] theorem State.setPoison_groups (s : State) (loc : Nat) : (s.setPoison loc).groups = s.groups := rfl
@[simp] theorem State.setPoison_teams (s : State) (loc : Nat) : (s.setPoison loc).teams = s.teams := rfl
@[simp] theorem State.setPoison_launches (s : State) (loc : Nat) : (s.setPoison loc).launches = s.launches := rfl
@[simp] theorem State.setPoison_gangs (s : State) (loc : Nat) : (s.setPoison loc).gangs = s.gangs := rfl
@[simp] theorem State.setPoison_cmds (s : State) (loc : Nat) : (s.setPoison loc).cmds = s.cmds := rfl
@[simp] theorem State.setPoison_colls (s : State) (loc : Nat) : (s.setPoison loc).colls = s.colls := rfl
@[simp] theorem State.setPoison_tokens (s : State) (loc : Nat) : (s.setPoison loc).tokens = s.tokens := rfl
@[simp] theorem State.setPoison_queues (s : State) (loc : Nat) : (s.setPoison loc).queues = s.queues := rfl
@[simp] theorem State.setPoison_slices (s : State) (loc : Nat) : (s.setPoison loc).slices = s.slices := rfl
@[simp] theorem State.setPoison_ipqs (s : State) (loc : Nat) : (s.setPoison loc).ipqs = s.ipqs := rfl
@[simp] theorem State.setPoison_parts (s : State) (loc : Nat) : (s.setPoison loc).parts = s.parts := rfl
@[simp] theorem State.setPoison_dies (s : State) (loc : Nat) : (s.setPoison loc).dies = s.dies := rfl
@[simp] theorem State.setPoison_cores (s : State) (loc : Nat) : (s.setPoison loc).cores = s.cores := rfl
@[simp] theorem State.setPoison_mgmt (s : State) (loc : Nat) : (s.setPoison loc).mgmt = s.mgmt := rfl
@[simp] theorem State.setPoison_peerUp (s : State) (loc : Nat) : (s.setPoison loc).peerUp = s.peerUp := rfl
@[simp] theorem State.setPoison_hostUp (s : State) (loc : Nat) : (s.setPoison loc).hostUp = s.hostUp := rfl
@[simp] theorem State.setPoison_clock (s : State) (loc : Nat) : (s.setPoison loc).clock = s.clock := rfl
@[simp] theorem State.setPoison_cap (s : State) (loc : Nat) : (s.setPoison loc).cap = s.cap := rfl
@[simp] theorem State.setPoison_answer (s : State) (loc : Nat) : (s.setPoison loc).answer = s.answer := rfl
@[simp] theorem State.setPoison_fills (s : State) (loc : Nat) : (s.setPoison loc).fills = s.fills := rfl
@[simp] theorem State.setPoison_phases (s : State) (loc : Nat) : (s.setPoison loc).phases = s.phases := rfl
@[simp] theorem State.setPoison_agenda (s : State) (loc : Nat) : (s.setPoison loc).agenda = s.agenda := rfl
@[simp] theorem State.setPoison_cur (s : State) (loc : Nat) : (s.setPoison loc).cur = s.cur := rfl
@[simp] theorem State.setPoison_freeCtr (s : State) (loc : Nat) : (s.setPoison loc).freeCtr = s.freeCtr := rfl
@[simp] theorem State.setPoison_nextId (s : State) (loc : Nat) : (s.setPoison loc).nextId = s.nextId := rfl

/-! ## `State.setFull` -/

@[simp] theorem State.setFull_time (s : State) (loc : Nat) : (s.setFull loc).time = s.time := rfl
@[simp] theorem State.setFull_mem (s : State) (loc : Nat) : (s.setFull loc).mem = s.mem := rfl
@[simp] theorem State.setFull_fe (s : State) (loc : Nat) : (s.setFull loc).fe = removeNat (lineOf loc) s.fe := rfl
@[simp] theorem State.setFull_poison (s : State) (loc : Nat) : (s.setFull loc).poison = s.poison := rfl
@[simp] theorem State.setFull_groups (s : State) (loc : Nat) : (s.setFull loc).groups = s.groups := rfl
@[simp] theorem State.setFull_teams (s : State) (loc : Nat) : (s.setFull loc).teams = s.teams := rfl
@[simp] theorem State.setFull_launches (s : State) (loc : Nat) : (s.setFull loc).launches = s.launches := rfl
@[simp] theorem State.setFull_gangs (s : State) (loc : Nat) : (s.setFull loc).gangs = s.gangs := rfl
@[simp] theorem State.setFull_cmds (s : State) (loc : Nat) : (s.setFull loc).cmds = s.cmds := rfl
@[simp] theorem State.setFull_colls (s : State) (loc : Nat) : (s.setFull loc).colls = s.colls := rfl
@[simp] theorem State.setFull_tokens (s : State) (loc : Nat) : (s.setFull loc).tokens = s.tokens := rfl
@[simp] theorem State.setFull_queues (s : State) (loc : Nat) : (s.setFull loc).queues = s.queues := rfl
@[simp] theorem State.setFull_slices (s : State) (loc : Nat) : (s.setFull loc).slices = s.slices := rfl
@[simp] theorem State.setFull_ipqs (s : State) (loc : Nat) : (s.setFull loc).ipqs = s.ipqs := rfl
@[simp] theorem State.setFull_parts (s : State) (loc : Nat) : (s.setFull loc).parts = s.parts := rfl
@[simp] theorem State.setFull_dies (s : State) (loc : Nat) : (s.setFull loc).dies = s.dies := rfl
@[simp] theorem State.setFull_cores (s : State) (loc : Nat) : (s.setFull loc).cores = s.cores := rfl
@[simp] theorem State.setFull_mgmt (s : State) (loc : Nat) : (s.setFull loc).mgmt = s.mgmt := rfl
@[simp] theorem State.setFull_peerUp (s : State) (loc : Nat) : (s.setFull loc).peerUp = s.peerUp := rfl
@[simp] theorem State.setFull_hostUp (s : State) (loc : Nat) : (s.setFull loc).hostUp = s.hostUp := rfl
@[simp] theorem State.setFull_clock (s : State) (loc : Nat) : (s.setFull loc).clock = s.clock := rfl
@[simp] theorem State.setFull_cap (s : State) (loc : Nat) : (s.setFull loc).cap = s.cap := rfl
@[simp] theorem State.setFull_answer (s : State) (loc : Nat) : (s.setFull loc).answer = s.answer := rfl
@[simp] theorem State.setFull_fills (s : State) (loc : Nat) : (s.setFull loc).fills = bump (lineOf loc) s.fills := rfl
@[simp] theorem State.setFull_phases (s : State) (loc : Nat) : (s.setFull loc).phases = s.phases := rfl
@[simp] theorem State.setFull_agenda (s : State) (loc : Nat) : (s.setFull loc).agenda = s.agenda := rfl
@[simp] theorem State.setFull_cur (s : State) (loc : Nat) : (s.setFull loc).cur = s.cur := rfl
@[simp] theorem State.setFull_freeCtr (s : State) (loc : Nat) : (s.setFull loc).freeCtr = s.freeCtr := rfl
@[simp] theorem State.setFull_nextId (s : State) (loc : Nat) : (s.setFull loc).nextId = s.nextId := rfl

/-! ## `State.setEmpty` -/

@[simp] theorem State.setEmpty_time (s : State) (loc : Nat) : (s.setEmpty loc).time = s.time := rfl
@[simp] theorem State.setEmpty_mem (s : State) (loc : Nat) : (s.setEmpty loc).mem = s.mem := rfl
@[simp] theorem State.setEmpty_fe (s : State) (loc : Nat) : (s.setEmpty loc).fe = insertNat (lineOf loc) s.fe := rfl
@[simp] theorem State.setEmpty_poison (s : State) (loc : Nat) : (s.setEmpty loc).poison = s.poison := rfl
@[simp] theorem State.setEmpty_groups (s : State) (loc : Nat) : (s.setEmpty loc).groups = s.groups := rfl
@[simp] theorem State.setEmpty_teams (s : State) (loc : Nat) : (s.setEmpty loc).teams = s.teams := rfl
@[simp] theorem State.setEmpty_launches (s : State) (loc : Nat) : (s.setEmpty loc).launches = s.launches := rfl
@[simp] theorem State.setEmpty_gangs (s : State) (loc : Nat) : (s.setEmpty loc).gangs = s.gangs := rfl
@[simp] theorem State.setEmpty_cmds (s : State) (loc : Nat) : (s.setEmpty loc).cmds = s.cmds := rfl
@[simp] theorem State.setEmpty_colls (s : State) (loc : Nat) : (s.setEmpty loc).colls = s.colls := rfl
@[simp] theorem State.setEmpty_tokens (s : State) (loc : Nat) : (s.setEmpty loc).tokens = s.tokens := rfl
@[simp] theorem State.setEmpty_queues (s : State) (loc : Nat) : (s.setEmpty loc).queues = s.queues := rfl
@[simp] theorem State.setEmpty_slices (s : State) (loc : Nat) : (s.setEmpty loc).slices = s.slices := rfl
@[simp] theorem State.setEmpty_ipqs (s : State) (loc : Nat) : (s.setEmpty loc).ipqs = s.ipqs := rfl
@[simp] theorem State.setEmpty_parts (s : State) (loc : Nat) : (s.setEmpty loc).parts = s.parts := rfl
@[simp] theorem State.setEmpty_dies (s : State) (loc : Nat) : (s.setEmpty loc).dies = s.dies := rfl
@[simp] theorem State.setEmpty_cores (s : State) (loc : Nat) : (s.setEmpty loc).cores = s.cores := rfl
@[simp] theorem State.setEmpty_mgmt (s : State) (loc : Nat) : (s.setEmpty loc).mgmt = s.mgmt := rfl
@[simp] theorem State.setEmpty_peerUp (s : State) (loc : Nat) : (s.setEmpty loc).peerUp = s.peerUp := rfl
@[simp] theorem State.setEmpty_hostUp (s : State) (loc : Nat) : (s.setEmpty loc).hostUp = s.hostUp := rfl
@[simp] theorem State.setEmpty_clock (s : State) (loc : Nat) : (s.setEmpty loc).clock = s.clock := rfl
@[simp] theorem State.setEmpty_cap (s : State) (loc : Nat) : (s.setEmpty loc).cap = s.cap := rfl
@[simp] theorem State.setEmpty_answer (s : State) (loc : Nat) : (s.setEmpty loc).answer = s.answer := rfl
@[simp] theorem State.setEmpty_fills (s : State) (loc : Nat) : (s.setEmpty loc).fills = s.fills := rfl
@[simp] theorem State.setEmpty_phases (s : State) (loc : Nat) : (s.setEmpty loc).phases = s.phases := rfl
@[simp] theorem State.setEmpty_agenda (s : State) (loc : Nat) : (s.setEmpty loc).agenda = s.agenda := rfl
@[simp] theorem State.setEmpty_cur (s : State) (loc : Nat) : (s.setEmpty loc).cur = s.cur := rfl
@[simp] theorem State.setEmpty_freeCtr (s : State) (loc : Nat) : (s.setEmpty loc).freeCtr = s.freeCtr := rfl
@[simp] theorem State.setEmpty_nextId (s : State) (loc : Nat) : (s.setEmpty loc).nextId = s.nextId := rfl

/-! ## `State.modCore` -/

@[simp] theorem State.modCore_time (s : State) (c : Nat) (f : Core → Core) : (s.modCore c f).time = s.time := rfl
@[simp] theorem State.modCore_mem (s : State) (c : Nat) (f : Core → Core) : (s.modCore c f).mem = s.mem := rfl
@[simp] theorem State.modCore_fe (s : State) (c : Nat) (f : Core → Core) : (s.modCore c f).fe = s.fe := rfl
@[simp] theorem State.modCore_poison (s : State) (c : Nat) (f : Core → Core) :
    (s.modCore c f).poison = s.poison := rfl
@[simp] theorem State.modCore_groups (s : State) (c : Nat) (f : Core → Core) :
    (s.modCore c f).groups = s.groups := rfl
@[simp] theorem State.modCore_teams (s : State) (c : Nat) (f : Core → Core) : (s.modCore c f).teams = s.teams := rfl
@[simp] theorem State.modCore_launches (s : State) (c : Nat) (f : Core → Core) :
    (s.modCore c f).launches = s.launches := rfl
@[simp] theorem State.modCore_gangs (s : State) (c : Nat) (f : Core → Core) : (s.modCore c f).gangs = s.gangs := rfl
@[simp] theorem State.modCore_cmds (s : State) (c : Nat) (f : Core → Core) : (s.modCore c f).cmds = s.cmds := rfl
@[simp] theorem State.modCore_colls (s : State) (c : Nat) (f : Core → Core) : (s.modCore c f).colls = s.colls := rfl
@[simp] theorem State.modCore_tokens (s : State) (c : Nat) (f : Core → Core) :
    (s.modCore c f).tokens = s.tokens := rfl
@[simp] theorem State.modCore_queues (s : State) (c : Nat) (f : Core → Core) :
    (s.modCore c f).queues = s.queues := rfl
@[simp] theorem State.modCore_slices (s : State) (c : Nat) (f : Core → Core) :
    (s.modCore c f).slices = s.slices := rfl
@[simp] theorem State.modCore_ipqs (s : State) (c : Nat) (f : Core → Core) : (s.modCore c f).ipqs = s.ipqs := rfl
@[simp] theorem State.modCore_parts (s : State) (c : Nat) (f : Core → Core) : (s.modCore c f).parts = s.parts := rfl
@[simp] theorem State.modCore_dies (s : State) (c : Nat) (f : Core → Core) : (s.modCore c f).dies = s.dies := rfl
@[simp] theorem State.modCore_cores (s : State) (c : Nat) (f : Core → Core) :
    (s.modCore c f).cores = vmod s.cores c Core.reset f := rfl
@[simp] theorem State.modCore_mgmt (s : State) (c : Nat) (f : Core → Core) : (s.modCore c f).mgmt = s.mgmt := rfl
@[simp] theorem State.modCore_peerUp (s : State) (c : Nat) (f : Core → Core) :
    (s.modCore c f).peerUp = s.peerUp := rfl
@[simp] theorem State.modCore_hostUp (s : State) (c : Nat) (f : Core → Core) :
    (s.modCore c f).hostUp = s.hostUp := rfl
@[simp] theorem State.modCore_clock (s : State) (c : Nat) (f : Core → Core) : (s.modCore c f).clock = s.clock := rfl
@[simp] theorem State.modCore_cap (s : State) (c : Nat) (f : Core → Core) : (s.modCore c f).cap = s.cap := rfl
@[simp] theorem State.modCore_answer (s : State) (c : Nat) (f : Core → Core) : (s.modCore c f).answer = s.answer := rfl
@[simp] theorem State.modCore_fills (s : State) (c : Nat) (f : Core → Core) : (s.modCore c f).fills = s.fills := rfl
@[simp] theorem State.modCore_phases (s : State) (c : Nat) (f : Core → Core) : (s.modCore c f).phases = s.phases := rfl
@[simp] theorem State.modCore_agenda (s : State) (c : Nat) (f : Core → Core) :
    (s.modCore c f).agenda = s.agenda := rfl
@[simp] theorem State.modCore_cur (s : State) (c : Nat) (f : Core → Core) : (s.modCore c f).cur = s.cur := rfl
@[simp] theorem State.modCore_freeCtr (s : State) (c : Nat) (f : Core → Core) :
    (s.modCore c f).freeCtr = s.freeCtr := rfl
@[simp] theorem State.modCore_nextId (s : State) (c : Nat) (f : Core → Core) :
    (s.modCore c f).nextId = s.nextId := rfl

/-! ## `State.modPart` -/

@[simp] theorem State.modPart_time (s : State) (p : Nat) (f : Partition → Partition) :
    (s.modPart p f).time = s.time := rfl
@[simp] theorem State.modPart_mem (s : State) (p : Nat) (f : Partition → Partition) :
    (s.modPart p f).mem = s.mem := rfl
@[simp] theorem State.modPart_fe (s : State) (p : Nat) (f : Partition → Partition) : (s.modPart p f).fe = s.fe := rfl
@[simp] theorem State.modPart_poison (s : State) (p : Nat) (f : Partition → Partition) :
    (s.modPart p f).poison = s.poison := rfl
@[simp] theorem State.modPart_groups (s : State) (p : Nat) (f : Partition → Partition) :
    (s.modPart p f).groups = s.groups := rfl
@[simp] theorem State.modPart_teams (s : State) (p : Nat) (f : Partition → Partition) :
    (s.modPart p f).teams = s.teams := rfl
@[simp] theorem State.modPart_launches (s : State) (p : Nat) (f : Partition → Partition) :
    (s.modPart p f).launches = s.launches := rfl
@[simp] theorem State.modPart_gangs (s : State) (p : Nat) (f : Partition → Partition) :
    (s.modPart p f).gangs = s.gangs := rfl
@[simp] theorem State.modPart_cmds (s : State) (p : Nat) (f : Partition → Partition) :
    (s.modPart p f).cmds = s.cmds := rfl
@[simp] theorem State.modPart_colls (s : State) (p : Nat) (f : Partition → Partition) :
    (s.modPart p f).colls = s.colls := rfl
@[simp] theorem State.modPart_tokens (s : State) (p : Nat) (f : Partition → Partition) :
    (s.modPart p f).tokens = s.tokens := rfl
@[simp] theorem State.modPart_queues (s : State) (p : Nat) (f : Partition → Partition) :
    (s.modPart p f).queues = s.queues := rfl
@[simp] theorem State.modPart_slices (s : State) (p : Nat) (f : Partition → Partition) :
    (s.modPart p f).slices = s.slices := rfl
@[simp] theorem State.modPart_ipqs (s : State) (p : Nat) (f : Partition → Partition) :
    (s.modPart p f).ipqs = s.ipqs := rfl
@[simp] theorem State.modPart_parts (s : State) (p : Nat) (f : Partition → Partition) :
    (s.modPart p f).parts = vmod s.parts p Partition.reset f := rfl
@[simp] theorem State.modPart_dies (s : State) (p : Nat) (f : Partition → Partition) :
    (s.modPart p f).dies = s.dies := rfl
@[simp] theorem State.modPart_cores (s : State) (p : Nat) (f : Partition → Partition) :
    (s.modPart p f).cores = s.cores := rfl
@[simp] theorem State.modPart_mgmt (s : State) (p : Nat) (f : Partition → Partition) :
    (s.modPart p f).mgmt = s.mgmt := rfl
@[simp] theorem State.modPart_peerUp (s : State) (p : Nat) (f : Partition → Partition) :
    (s.modPart p f).peerUp = s.peerUp := rfl
@[simp] theorem State.modPart_hostUp (s : State) (p : Nat) (f : Partition → Partition) :
    (s.modPart p f).hostUp = s.hostUp := rfl
@[simp] theorem State.modPart_clock (s : State) (p : Nat) (f : Partition → Partition) :
    (s.modPart p f).clock = s.clock := rfl
@[simp] theorem State.modPart_cap (s : State) (p : Nat) (f : Partition → Partition) :
    (s.modPart p f).cap = s.cap := rfl
@[simp] theorem State.modPart_answer (s : State) (p : Nat) (f : Partition → Partition) :
    (s.modPart p f).answer = s.answer := rfl
@[simp] theorem State.modPart_fills (s : State) (p : Nat) (f : Partition → Partition) :
    (s.modPart p f).fills = s.fills := rfl
@[simp] theorem State.modPart_phases (s : State) (p : Nat) (f : Partition → Partition) :
    (s.modPart p f).phases = s.phases := rfl
@[simp] theorem State.modPart_agenda (s : State) (p : Nat) (f : Partition → Partition) :
    (s.modPart p f).agenda = s.agenda := rfl
@[simp] theorem State.modPart_cur (s : State) (p : Nat) (f : Partition → Partition) :
    (s.modPart p f).cur = s.cur := rfl
@[simp] theorem State.modPart_freeCtr (s : State) (p : Nat) (f : Partition → Partition) :
    (s.modPart p f).freeCtr = s.freeCtr := rfl
@[simp] theorem State.modPart_nextId (s : State) (p : Nat) (f : Partition → Partition) :
    (s.modPart p f).nextId = s.nextId := rfl

/-! ## `State.modDie` -/

@[simp] theorem State.modDie_time (s : State) (d : Nat) (f : Die → Die) : (s.modDie d f).time = s.time := rfl
@[simp] theorem State.modDie_mem (s : State) (d : Nat) (f : Die → Die) : (s.modDie d f).mem = s.mem := rfl
@[simp] theorem State.modDie_fe (s : State) (d : Nat) (f : Die → Die) : (s.modDie d f).fe = s.fe := rfl
@[simp] theorem State.modDie_poison (s : State) (d : Nat) (f : Die → Die) : (s.modDie d f).poison = s.poison := rfl
@[simp] theorem State.modDie_groups (s : State) (d : Nat) (f : Die → Die) : (s.modDie d f).groups = s.groups := rfl
@[simp] theorem State.modDie_teams (s : State) (d : Nat) (f : Die → Die) : (s.modDie d f).teams = s.teams := rfl
@[simp] theorem State.modDie_launches (s : State) (d : Nat) (f : Die → Die) :
    (s.modDie d f).launches = s.launches := rfl
@[simp] theorem State.modDie_gangs (s : State) (d : Nat) (f : Die → Die) : (s.modDie d f).gangs = s.gangs := rfl
@[simp] theorem State.modDie_cmds (s : State) (d : Nat) (f : Die → Die) : (s.modDie d f).cmds = s.cmds := rfl
@[simp] theorem State.modDie_colls (s : State) (d : Nat) (f : Die → Die) : (s.modDie d f).colls = s.colls := rfl
@[simp] theorem State.modDie_tokens (s : State) (d : Nat) (f : Die → Die) : (s.modDie d f).tokens = s.tokens := rfl
@[simp] theorem State.modDie_queues (s : State) (d : Nat) (f : Die → Die) : (s.modDie d f).queues = s.queues := rfl
@[simp] theorem State.modDie_slices (s : State) (d : Nat) (f : Die → Die) : (s.modDie d f).slices = s.slices := rfl
@[simp] theorem State.modDie_ipqs (s : State) (d : Nat) (f : Die → Die) : (s.modDie d f).ipqs = s.ipqs := rfl
@[simp] theorem State.modDie_parts (s : State) (d : Nat) (f : Die → Die) : (s.modDie d f).parts = s.parts := rfl
@[simp] theorem State.modDie_dies (s : State) (d : Nat) (f : Die → Die) :
    (s.modDie d f).dies = vmod s.dies d Die.reset f := rfl
@[simp] theorem State.modDie_cores (s : State) (d : Nat) (f : Die → Die) : (s.modDie d f).cores = s.cores := rfl
@[simp] theorem State.modDie_mgmt (s : State) (d : Nat) (f : Die → Die) : (s.modDie d f).mgmt = s.mgmt := rfl
@[simp] theorem State.modDie_peerUp (s : State) (d : Nat) (f : Die → Die) : (s.modDie d f).peerUp = s.peerUp := rfl
@[simp] theorem State.modDie_hostUp (s : State) (d : Nat) (f : Die → Die) : (s.modDie d f).hostUp = s.hostUp := rfl
@[simp] theorem State.modDie_clock (s : State) (d : Nat) (f : Die → Die) : (s.modDie d f).clock = s.clock := rfl
@[simp] theorem State.modDie_cap (s : State) (d : Nat) (f : Die → Die) : (s.modDie d f).cap = s.cap := rfl
@[simp] theorem State.modDie_answer (s : State) (d : Nat) (f : Die → Die) : (s.modDie d f).answer = s.answer := rfl
@[simp] theorem State.modDie_fills (s : State) (d : Nat) (f : Die → Die) : (s.modDie d f).fills = s.fills := rfl
@[simp] theorem State.modDie_phases (s : State) (d : Nat) (f : Die → Die) : (s.modDie d f).phases = s.phases := rfl
@[simp] theorem State.modDie_agenda (s : State) (d : Nat) (f : Die → Die) : (s.modDie d f).agenda = s.agenda := rfl
@[simp] theorem State.modDie_cur (s : State) (d : Nat) (f : Die → Die) : (s.modDie d f).cur = s.cur := rfl
@[simp] theorem State.modDie_freeCtr (s : State) (d : Nat) (f : Die → Die) : (s.modDie d f).freeCtr = s.freeCtr := rfl
@[simp] theorem State.modDie_nextId (s : State) (d : Nat) (f : Die → Die) : (s.modDie d f).nextId = s.nextId := rfl

/-! ## `State.modQueue` -/

@[simp] theorem State.modQueue_time (s : State) (q : Nat) (f : LQueue → LQueue) :
    (s.modQueue q f).time = s.time := rfl
@[simp] theorem State.modQueue_mem (s : State) (q : Nat) (f : LQueue → LQueue) : (s.modQueue q f).mem = s.mem := rfl
@[simp] theorem State.modQueue_fe (s : State) (q : Nat) (f : LQueue → LQueue) : (s.modQueue q f).fe = s.fe := rfl
@[simp] theorem State.modQueue_poison (s : State) (q : Nat) (f : LQueue → LQueue) :
    (s.modQueue q f).poison = s.poison := rfl
@[simp] theorem State.modQueue_groups (s : State) (q : Nat) (f : LQueue → LQueue) :
    (s.modQueue q f).groups = s.groups := rfl
@[simp] theorem State.modQueue_teams (s : State) (q : Nat) (f : LQueue → LQueue) :
    (s.modQueue q f).teams = s.teams := rfl
@[simp] theorem State.modQueue_launches (s : State) (q : Nat) (f : LQueue → LQueue) :
    (s.modQueue q f).launches = s.launches := rfl
@[simp] theorem State.modQueue_gangs (s : State) (q : Nat) (f : LQueue → LQueue) :
    (s.modQueue q f).gangs = s.gangs := rfl
@[simp] theorem State.modQueue_cmds (s : State) (q : Nat) (f : LQueue → LQueue) :
    (s.modQueue q f).cmds = s.cmds := rfl
@[simp] theorem State.modQueue_colls (s : State) (q : Nat) (f : LQueue → LQueue) :
    (s.modQueue q f).colls = s.colls := rfl
@[simp] theorem State.modQueue_tokens (s : State) (q : Nat) (f : LQueue → LQueue) :
    (s.modQueue q f).tokens = s.tokens := rfl
@[simp] theorem State.modQueue_queues (s : State) (q : Nat) (f : LQueue → LQueue) :
    (s.modQueue q f).queues = vmod s.queues q LQueue.reset f := rfl
@[simp] theorem State.modQueue_slices (s : State) (q : Nat) (f : LQueue → LQueue) :
    (s.modQueue q f).slices = s.slices := rfl
@[simp] theorem State.modQueue_ipqs (s : State) (q : Nat) (f : LQueue → LQueue) :
    (s.modQueue q f).ipqs = s.ipqs := rfl
@[simp] theorem State.modQueue_parts (s : State) (q : Nat) (f : LQueue → LQueue) :
    (s.modQueue q f).parts = s.parts := rfl
@[simp] theorem State.modQueue_dies (s : State) (q : Nat) (f : LQueue → LQueue) :
    (s.modQueue q f).dies = s.dies := rfl
@[simp] theorem State.modQueue_cores (s : State) (q : Nat) (f : LQueue → LQueue) :
    (s.modQueue q f).cores = s.cores := rfl
@[simp] theorem State.modQueue_mgmt (s : State) (q : Nat) (f : LQueue → LQueue) :
    (s.modQueue q f).mgmt = s.mgmt := rfl
@[simp] theorem State.modQueue_peerUp (s : State) (q : Nat) (f : LQueue → LQueue) :
    (s.modQueue q f).peerUp = s.peerUp := rfl
@[simp] theorem State.modQueue_hostUp (s : State) (q : Nat) (f : LQueue → LQueue) :
    (s.modQueue q f).hostUp = s.hostUp := rfl
@[simp] theorem State.modQueue_clock (s : State) (q : Nat) (f : LQueue → LQueue) :
    (s.modQueue q f).clock = s.clock := rfl
@[simp] theorem State.modQueue_cap (s : State) (q : Nat) (f : LQueue → LQueue) : (s.modQueue q f).cap = s.cap := rfl
@[simp] theorem State.modQueue_answer (s : State) (q : Nat) (f : LQueue → LQueue) :
    (s.modQueue q f).answer = s.answer := rfl
@[simp] theorem State.modQueue_fills (s : State) (q : Nat) (f : LQueue → LQueue) :
    (s.modQueue q f).fills = s.fills := rfl
@[simp] theorem State.modQueue_phases (s : State) (q : Nat) (f : LQueue → LQueue) :
    (s.modQueue q f).phases = s.phases := rfl
@[simp] theorem State.modQueue_agenda (s : State) (q : Nat) (f : LQueue → LQueue) :
    (s.modQueue q f).agenda = s.agenda := rfl
@[simp] theorem State.modQueue_cur (s : State) (q : Nat) (f : LQueue → LQueue) : (s.modQueue q f).cur = s.cur := rfl
@[simp] theorem State.modQueue_freeCtr (s : State) (q : Nat) (f : LQueue → LQueue) :
    (s.modQueue q f).freeCtr = s.freeCtr := rfl
@[simp] theorem State.modQueue_nextId (s : State) (q : Nat) (f : LQueue → LQueue) :
    (s.modQueue q f).nextId = s.nextId := rfl

/-! ## `State.setGroup` -/

@[simp] theorem State.setGroup_time (s : State) (g : Group) : (s.setGroup g).time = s.time := rfl
@[simp] theorem State.setGroup_mem (s : State) (g : Group) : (s.setGroup g).mem = s.mem := rfl
@[simp] theorem State.setGroup_fe (s : State) (g : Group) : (s.setGroup g).fe = s.fe := rfl
@[simp] theorem State.setGroup_poison (s : State) (g : Group) : (s.setGroup g).poison = s.poison := rfl
@[simp] theorem State.setGroup_groups (s : State) (g : Group) :
    (s.setGroup g).groups = s.groups.map (fun h => if h.id == g.id then g else h) := rfl
@[simp] theorem State.setGroup_teams (s : State) (g : Group) : (s.setGroup g).teams = s.teams := rfl
@[simp] theorem State.setGroup_launches (s : State) (g : Group) : (s.setGroup g).launches = s.launches := rfl
@[simp] theorem State.setGroup_gangs (s : State) (g : Group) : (s.setGroup g).gangs = s.gangs := rfl
@[simp] theorem State.setGroup_cmds (s : State) (g : Group) : (s.setGroup g).cmds = s.cmds := rfl
@[simp] theorem State.setGroup_colls (s : State) (g : Group) : (s.setGroup g).colls = s.colls := rfl
@[simp] theorem State.setGroup_tokens (s : State) (g : Group) : (s.setGroup g).tokens = s.tokens := rfl
@[simp] theorem State.setGroup_queues (s : State) (g : Group) : (s.setGroup g).queues = s.queues := rfl
@[simp] theorem State.setGroup_slices (s : State) (g : Group) : (s.setGroup g).slices = s.slices := rfl
@[simp] theorem State.setGroup_ipqs (s : State) (g : Group) : (s.setGroup g).ipqs = s.ipqs := rfl
@[simp] theorem State.setGroup_parts (s : State) (g : Group) : (s.setGroup g).parts = s.parts := rfl
@[simp] theorem State.setGroup_dies (s : State) (g : Group) : (s.setGroup g).dies = s.dies := rfl
@[simp] theorem State.setGroup_cores (s : State) (g : Group) : (s.setGroup g).cores = s.cores := rfl
@[simp] theorem State.setGroup_mgmt (s : State) (g : Group) : (s.setGroup g).mgmt = s.mgmt := rfl
@[simp] theorem State.setGroup_peerUp (s : State) (g : Group) : (s.setGroup g).peerUp = s.peerUp := rfl
@[simp] theorem State.setGroup_hostUp (s : State) (g : Group) : (s.setGroup g).hostUp = s.hostUp := rfl
@[simp] theorem State.setGroup_clock (s : State) (g : Group) : (s.setGroup g).clock = s.clock := rfl
@[simp] theorem State.setGroup_cap (s : State) (g : Group) : (s.setGroup g).cap = s.cap := rfl
@[simp] theorem State.setGroup_answer (s : State) (g : Group) : (s.setGroup g).answer = s.answer := rfl
@[simp] theorem State.setGroup_fills (s : State) (g : Group) : (s.setGroup g).fills = s.fills := rfl
@[simp] theorem State.setGroup_phases (s : State) (g : Group) : (s.setGroup g).phases = s.phases := rfl
@[simp] theorem State.setGroup_agenda (s : State) (g : Group) : (s.setGroup g).agenda = s.agenda := rfl
@[simp] theorem State.setGroup_cur (s : State) (g : Group) : (s.setGroup g).cur = s.cur := rfl
@[simp] theorem State.setGroup_freeCtr (s : State) (g : Group) : (s.setGroup g).freeCtr = s.freeCtr := rfl
@[simp] theorem State.setGroup_nextId (s : State) (g : Group) : (s.setGroup g).nextId = s.nextId := rfl

/-! ## `State.modTeam` -/

@[simp] theorem State.modTeam_time (s : State) (t : Nat) (f : Team → Team) : (s.modTeam t f).time = s.time := rfl
@[simp] theorem State.modTeam_mem (s : State) (t : Nat) (f : Team → Team) : (s.modTeam t f).mem = s.mem := rfl
@[simp] theorem State.modTeam_fe (s : State) (t : Nat) (f : Team → Team) : (s.modTeam t f).fe = s.fe := rfl
@[simp] theorem State.modTeam_poison (s : State) (t : Nat) (f : Team → Team) :
    (s.modTeam t f).poison = s.poison := rfl
@[simp] theorem State.modTeam_groups (s : State) (t : Nat) (f : Team → Team) :
    (s.modTeam t f).groups = s.groups := rfl
@[simp] theorem State.modTeam_teams (s : State) (t : Nat) (f : Team → Team) :
    (s.modTeam t f).teams = s.teams.map (fun u => if u.id == t then f u else u) := rfl
@[simp] theorem State.modTeam_launches (s : State) (t : Nat) (f : Team → Team) :
    (s.modTeam t f).launches = s.launches := rfl
@[simp] theorem State.modTeam_gangs (s : State) (t : Nat) (f : Team → Team) : (s.modTeam t f).gangs = s.gangs := rfl
@[simp] theorem State.modTeam_cmds (s : State) (t : Nat) (f : Team → Team) : (s.modTeam t f).cmds = s.cmds := rfl
@[simp] theorem State.modTeam_colls (s : State) (t : Nat) (f : Team → Team) : (s.modTeam t f).colls = s.colls := rfl
@[simp] theorem State.modTeam_tokens (s : State) (t : Nat) (f : Team → Team) :
    (s.modTeam t f).tokens = s.tokens := rfl
@[simp] theorem State.modTeam_queues (s : State) (t : Nat) (f : Team → Team) :
    (s.modTeam t f).queues = s.queues := rfl
@[simp] theorem State.modTeam_slices (s : State) (t : Nat) (f : Team → Team) :
    (s.modTeam t f).slices = s.slices := rfl
@[simp] theorem State.modTeam_ipqs (s : State) (t : Nat) (f : Team → Team) : (s.modTeam t f).ipqs = s.ipqs := rfl
@[simp] theorem State.modTeam_parts (s : State) (t : Nat) (f : Team → Team) : (s.modTeam t f).parts = s.parts := rfl
@[simp] theorem State.modTeam_dies (s : State) (t : Nat) (f : Team → Team) : (s.modTeam t f).dies = s.dies := rfl
@[simp] theorem State.modTeam_cores (s : State) (t : Nat) (f : Team → Team) : (s.modTeam t f).cores = s.cores := rfl
@[simp] theorem State.modTeam_mgmt (s : State) (t : Nat) (f : Team → Team) : (s.modTeam t f).mgmt = s.mgmt := rfl
@[simp] theorem State.modTeam_peerUp (s : State) (t : Nat) (f : Team → Team) :
    (s.modTeam t f).peerUp = s.peerUp := rfl
@[simp] theorem State.modTeam_hostUp (s : State) (t : Nat) (f : Team → Team) :
    (s.modTeam t f).hostUp = s.hostUp := rfl
@[simp] theorem State.modTeam_clock (s : State) (t : Nat) (f : Team → Team) : (s.modTeam t f).clock = s.clock := rfl
@[simp] theorem State.modTeam_cap (s : State) (t : Nat) (f : Team → Team) : (s.modTeam t f).cap = s.cap := rfl
@[simp] theorem State.modTeam_answer (s : State) (t : Nat) (f : Team → Team) : (s.modTeam t f).answer = s.answer := rfl
@[simp] theorem State.modTeam_fills (s : State) (t : Nat) (f : Team → Team) : (s.modTeam t f).fills = s.fills := rfl
@[simp] theorem State.modTeam_phases (s : State) (t : Nat) (f : Team → Team) : (s.modTeam t f).phases = s.phases := rfl
@[simp] theorem State.modTeam_agenda (s : State) (t : Nat) (f : Team → Team) :
    (s.modTeam t f).agenda = s.agenda := rfl
@[simp] theorem State.modTeam_cur (s : State) (t : Nat) (f : Team → Team) : (s.modTeam t f).cur = s.cur := rfl
@[simp] theorem State.modTeam_freeCtr (s : State) (t : Nat) (f : Team → Team) :
    (s.modTeam t f).freeCtr = s.freeCtr := rfl
@[simp] theorem State.modTeam_nextId (s : State) (t : Nat) (f : Team → Team) :
    (s.modTeam t f).nextId = s.nextId := rfl

/-! ## `State.modLaunch` -/

@[simp] theorem State.modLaunch_time (s : State) (l : Nat) (f : Launch → Launch) :
    (s.modLaunch l f).time = s.time := rfl
@[simp] theorem State.modLaunch_mem (s : State) (l : Nat) (f : Launch → Launch) : (s.modLaunch l f).mem = s.mem := rfl
@[simp] theorem State.modLaunch_fe (s : State) (l : Nat) (f : Launch → Launch) : (s.modLaunch l f).fe = s.fe := rfl
@[simp] theorem State.modLaunch_poison (s : State) (l : Nat) (f : Launch → Launch) :
    (s.modLaunch l f).poison = s.poison := rfl
@[simp] theorem State.modLaunch_groups (s : State) (l : Nat) (f : Launch → Launch) :
    (s.modLaunch l f).groups = s.groups := rfl
@[simp] theorem State.modLaunch_teams (s : State) (l : Nat) (f : Launch → Launch) :
    (s.modLaunch l f).teams = s.teams := rfl
@[simp] theorem State.modLaunch_launches (s : State) (l : Nat) (f : Launch → Launch) :
    (s.modLaunch l f).launches = s.launches.map (fun u => if u.id == l then f u else u) := rfl
@[simp] theorem State.modLaunch_gangs (s : State) (l : Nat) (f : Launch → Launch) :
    (s.modLaunch l f).gangs = s.gangs := rfl
@[simp] theorem State.modLaunch_cmds (s : State) (l : Nat) (f : Launch → Launch) :
    (s.modLaunch l f).cmds = s.cmds := rfl
@[simp] theorem State.modLaunch_colls (s : State) (l : Nat) (f : Launch → Launch) :
    (s.modLaunch l f).colls = s.colls := rfl
@[simp] theorem State.modLaunch_tokens (s : State) (l : Nat) (f : Launch → Launch) :
    (s.modLaunch l f).tokens = s.tokens := rfl
@[simp] theorem State.modLaunch_queues (s : State) (l : Nat) (f : Launch → Launch) :
    (s.modLaunch l f).queues = s.queues := rfl
@[simp] theorem State.modLaunch_slices (s : State) (l : Nat) (f : Launch → Launch) :
    (s.modLaunch l f).slices = s.slices := rfl
@[simp] theorem State.modLaunch_ipqs (s : State) (l : Nat) (f : Launch → Launch) :
    (s.modLaunch l f).ipqs = s.ipqs := rfl
@[simp] theorem State.modLaunch_parts (s : State) (l : Nat) (f : Launch → Launch) :
    (s.modLaunch l f).parts = s.parts := rfl
@[simp] theorem State.modLaunch_dies (s : State) (l : Nat) (f : Launch → Launch) :
    (s.modLaunch l f).dies = s.dies := rfl
@[simp] theorem State.modLaunch_cores (s : State) (l : Nat) (f : Launch → Launch) :
    (s.modLaunch l f).cores = s.cores := rfl
@[simp] theorem State.modLaunch_mgmt (s : State) (l : Nat) (f : Launch → Launch) :
    (s.modLaunch l f).mgmt = s.mgmt := rfl
@[simp] theorem State.modLaunch_peerUp (s : State) (l : Nat) (f : Launch → Launch) :
    (s.modLaunch l f).peerUp = s.peerUp := rfl
@[simp] theorem State.modLaunch_hostUp (s : State) (l : Nat) (f : Launch → Launch) :
    (s.modLaunch l f).hostUp = s.hostUp := rfl
@[simp] theorem State.modLaunch_clock (s : State) (l : Nat) (f : Launch → Launch) :
    (s.modLaunch l f).clock = s.clock := rfl
@[simp] theorem State.modLaunch_cap (s : State) (l : Nat) (f : Launch → Launch) : (s.modLaunch l f).cap = s.cap := rfl
@[simp] theorem State.modLaunch_answer (s : State) (l : Nat) (f : Launch → Launch) :
    (s.modLaunch l f).answer = s.answer := rfl
@[simp] theorem State.modLaunch_fills (s : State) (l : Nat) (f : Launch → Launch) :
    (s.modLaunch l f).fills = s.fills := rfl
@[simp] theorem State.modLaunch_phases (s : State) (l : Nat) (f : Launch → Launch) :
    (s.modLaunch l f).phases = s.phases := rfl
@[simp] theorem State.modLaunch_agenda (s : State) (l : Nat) (f : Launch → Launch) :
    (s.modLaunch l f).agenda = s.agenda := rfl
@[simp] theorem State.modLaunch_cur (s : State) (l : Nat) (f : Launch → Launch) : (s.modLaunch l f).cur = s.cur := rfl
@[simp] theorem State.modLaunch_freeCtr (s : State) (l : Nat) (f : Launch → Launch) :
    (s.modLaunch l f).freeCtr = s.freeCtr := rfl
@[simp] theorem State.modLaunch_nextId (s : State) (l : Nat) (f : Launch → Launch) :
    (s.modLaunch l f).nextId = s.nextId := rfl

/-! ## `State.modGang` -/

@[simp] theorem State.modGang_time (s : State) (k : Nat) (f : Gang → Gang) : (s.modGang k f).time = s.time := rfl
@[simp] theorem State.modGang_mem (s : State) (k : Nat) (f : Gang → Gang) : (s.modGang k f).mem = s.mem := rfl
@[simp] theorem State.modGang_fe (s : State) (k : Nat) (f : Gang → Gang) : (s.modGang k f).fe = s.fe := rfl
@[simp] theorem State.modGang_poison (s : State) (k : Nat) (f : Gang → Gang) :
    (s.modGang k f).poison = s.poison := rfl
@[simp] theorem State.modGang_groups (s : State) (k : Nat) (f : Gang → Gang) :
    (s.modGang k f).groups = s.groups := rfl
@[simp] theorem State.modGang_teams (s : State) (k : Nat) (f : Gang → Gang) : (s.modGang k f).teams = s.teams := rfl
@[simp] theorem State.modGang_launches (s : State) (k : Nat) (f : Gang → Gang) :
    (s.modGang k f).launches = s.launches := rfl
@[simp] theorem State.modGang_gangs (s : State) (k : Nat) (f : Gang → Gang) :
    (s.modGang k f).gangs = s.gangs.map (fun u => if u.id == k then f u else u) := rfl
@[simp] theorem State.modGang_cmds (s : State) (k : Nat) (f : Gang → Gang) : (s.modGang k f).cmds = s.cmds := rfl
@[simp] theorem State.modGang_colls (s : State) (k : Nat) (f : Gang → Gang) : (s.modGang k f).colls = s.colls := rfl
@[simp] theorem State.modGang_tokens (s : State) (k : Nat) (f : Gang → Gang) :
    (s.modGang k f).tokens = s.tokens := rfl
@[simp] theorem State.modGang_queues (s : State) (k : Nat) (f : Gang → Gang) :
    (s.modGang k f).queues = s.queues := rfl
@[simp] theorem State.modGang_slices (s : State) (k : Nat) (f : Gang → Gang) :
    (s.modGang k f).slices = s.slices := rfl
@[simp] theorem State.modGang_ipqs (s : State) (k : Nat) (f : Gang → Gang) : (s.modGang k f).ipqs = s.ipqs := rfl
@[simp] theorem State.modGang_parts (s : State) (k : Nat) (f : Gang → Gang) : (s.modGang k f).parts = s.parts := rfl
@[simp] theorem State.modGang_dies (s : State) (k : Nat) (f : Gang → Gang) : (s.modGang k f).dies = s.dies := rfl
@[simp] theorem State.modGang_cores (s : State) (k : Nat) (f : Gang → Gang) : (s.modGang k f).cores = s.cores := rfl
@[simp] theorem State.modGang_mgmt (s : State) (k : Nat) (f : Gang → Gang) : (s.modGang k f).mgmt = s.mgmt := rfl
@[simp] theorem State.modGang_peerUp (s : State) (k : Nat) (f : Gang → Gang) :
    (s.modGang k f).peerUp = s.peerUp := rfl
@[simp] theorem State.modGang_hostUp (s : State) (k : Nat) (f : Gang → Gang) :
    (s.modGang k f).hostUp = s.hostUp := rfl
@[simp] theorem State.modGang_clock (s : State) (k : Nat) (f : Gang → Gang) : (s.modGang k f).clock = s.clock := rfl
@[simp] theorem State.modGang_cap (s : State) (k : Nat) (f : Gang → Gang) : (s.modGang k f).cap = s.cap := rfl
@[simp] theorem State.modGang_answer (s : State) (k : Nat) (f : Gang → Gang) : (s.modGang k f).answer = s.answer := rfl
@[simp] theorem State.modGang_fills (s : State) (k : Nat) (f : Gang → Gang) : (s.modGang k f).fills = s.fills := rfl
@[simp] theorem State.modGang_phases (s : State) (k : Nat) (f : Gang → Gang) : (s.modGang k f).phases = s.phases := rfl
@[simp] theorem State.modGang_agenda (s : State) (k : Nat) (f : Gang → Gang) :
    (s.modGang k f).agenda = s.agenda := rfl
@[simp] theorem State.modGang_cur (s : State) (k : Nat) (f : Gang → Gang) : (s.modGang k f).cur = s.cur := rfl
@[simp] theorem State.modGang_freeCtr (s : State) (k : Nat) (f : Gang → Gang) :
    (s.modGang k f).freeCtr = s.freeCtr := rfl
@[simp] theorem State.modGang_nextId (s : State) (k : Nat) (f : Gang → Gang) :
    (s.modGang k f).nextId = s.nextId := rfl

/-! ## `State.modCmd` -/

@[simp] theorem State.modCmd_time (s : State) (c : Nat) (f : Cmd → Cmd) : (s.modCmd c f).time = s.time := rfl
@[simp] theorem State.modCmd_mem (s : State) (c : Nat) (f : Cmd → Cmd) : (s.modCmd c f).mem = s.mem := rfl
@[simp] theorem State.modCmd_fe (s : State) (c : Nat) (f : Cmd → Cmd) : (s.modCmd c f).fe = s.fe := rfl
@[simp] theorem State.modCmd_poison (s : State) (c : Nat) (f : Cmd → Cmd) : (s.modCmd c f).poison = s.poison := rfl
@[simp] theorem State.modCmd_groups (s : State) (c : Nat) (f : Cmd → Cmd) : (s.modCmd c f).groups = s.groups := rfl
@[simp] theorem State.modCmd_teams (s : State) (c : Nat) (f : Cmd → Cmd) : (s.modCmd c f).teams = s.teams := rfl
@[simp] theorem State.modCmd_launches (s : State) (c : Nat) (f : Cmd → Cmd) :
    (s.modCmd c f).launches = s.launches := rfl
@[simp] theorem State.modCmd_gangs (s : State) (c : Nat) (f : Cmd → Cmd) : (s.modCmd c f).gangs = s.gangs := rfl
@[simp] theorem State.modCmd_cmds (s : State) (c : Nat) (f : Cmd → Cmd) :
    (s.modCmd c f).cmds = s.cmds.map (fun u => if u.id == c then f u else u) := rfl
@[simp] theorem State.modCmd_colls (s : State) (c : Nat) (f : Cmd → Cmd) : (s.modCmd c f).colls = s.colls := rfl
@[simp] theorem State.modCmd_tokens (s : State) (c : Nat) (f : Cmd → Cmd) : (s.modCmd c f).tokens = s.tokens := rfl
@[simp] theorem State.modCmd_queues (s : State) (c : Nat) (f : Cmd → Cmd) : (s.modCmd c f).queues = s.queues := rfl
@[simp] theorem State.modCmd_slices (s : State) (c : Nat) (f : Cmd → Cmd) : (s.modCmd c f).slices = s.slices := rfl
@[simp] theorem State.modCmd_ipqs (s : State) (c : Nat) (f : Cmd → Cmd) : (s.modCmd c f).ipqs = s.ipqs := rfl
@[simp] theorem State.modCmd_parts (s : State) (c : Nat) (f : Cmd → Cmd) : (s.modCmd c f).parts = s.parts := rfl
@[simp] theorem State.modCmd_dies (s : State) (c : Nat) (f : Cmd → Cmd) : (s.modCmd c f).dies = s.dies := rfl
@[simp] theorem State.modCmd_cores (s : State) (c : Nat) (f : Cmd → Cmd) : (s.modCmd c f).cores = s.cores := rfl
@[simp] theorem State.modCmd_mgmt (s : State) (c : Nat) (f : Cmd → Cmd) : (s.modCmd c f).mgmt = s.mgmt := rfl
@[simp] theorem State.modCmd_peerUp (s : State) (c : Nat) (f : Cmd → Cmd) : (s.modCmd c f).peerUp = s.peerUp := rfl
@[simp] theorem State.modCmd_hostUp (s : State) (c : Nat) (f : Cmd → Cmd) : (s.modCmd c f).hostUp = s.hostUp := rfl
@[simp] theorem State.modCmd_clock (s : State) (c : Nat) (f : Cmd → Cmd) : (s.modCmd c f).clock = s.clock := rfl
@[simp] theorem State.modCmd_cap (s : State) (c : Nat) (f : Cmd → Cmd) : (s.modCmd c f).cap = s.cap := rfl
@[simp] theorem State.modCmd_answer (s : State) (c : Nat) (f : Cmd → Cmd) : (s.modCmd c f).answer = s.answer := rfl
@[simp] theorem State.modCmd_fills (s : State) (c : Nat) (f : Cmd → Cmd) : (s.modCmd c f).fills = s.fills := rfl
@[simp] theorem State.modCmd_phases (s : State) (c : Nat) (f : Cmd → Cmd) : (s.modCmd c f).phases = s.phases := rfl
@[simp] theorem State.modCmd_agenda (s : State) (c : Nat) (f : Cmd → Cmd) : (s.modCmd c f).agenda = s.agenda := rfl
@[simp] theorem State.modCmd_cur (s : State) (c : Nat) (f : Cmd → Cmd) : (s.modCmd c f).cur = s.cur := rfl
@[simp] theorem State.modCmd_freeCtr (s : State) (c : Nat) (f : Cmd → Cmd) : (s.modCmd c f).freeCtr = s.freeCtr := rfl
@[simp] theorem State.modCmd_nextId (s : State) (c : Nat) (f : Cmd → Cmd) : (s.modCmd c f).nextId = s.nextId := rfl

/-! ## `State.touch` -/

@[simp] theorem State.touch_time (s : State) (c : Nat) : (s.touch c).time = s.time := rfl
@[simp] theorem State.touch_mem (s : State) (c : Nat) : (s.touch c).mem = s.mem := rfl
@[simp] theorem State.touch_fe (s : State) (c : Nat) : (s.touch c).fe = s.fe := rfl
@[simp] theorem State.touch_poison (s : State) (c : Nat) : (s.touch c).poison = s.poison := rfl
@[simp] theorem State.touch_groups (s : State) (c : Nat) : (s.touch c).groups = s.groups := rfl
@[simp] theorem State.touch_teams (s : State) (c : Nat) : (s.touch c).teams = s.teams := rfl
@[simp] theorem State.touch_launches (s : State) (c : Nat) : (s.touch c).launches = s.launches := rfl
@[simp] theorem State.touch_gangs (s : State) (c : Nat) : (s.touch c).gangs = s.gangs := rfl
@[simp] theorem State.touch_cmds (s : State) (c : Nat) : (s.touch c).cmds = s.cmds := rfl
@[simp] theorem State.touch_colls (s : State) (c : Nat) : (s.touch c).colls = s.colls := rfl
@[simp] theorem State.touch_tokens (s : State) (c : Nat) : (s.touch c).tokens = s.tokens := rfl
@[simp] theorem State.touch_queues (s : State) (c : Nat) : (s.touch c).queues = s.queues := rfl
@[simp] theorem State.touch_slices (s : State) (c : Nat) : (s.touch c).slices = s.slices := rfl
@[simp] theorem State.touch_ipqs (s : State) (c : Nat) : (s.touch c).ipqs = s.ipqs := rfl
@[simp] theorem State.touch_parts (s : State) (c : Nat) : (s.touch c).parts = s.parts := rfl
@[simp] theorem State.touch_dies (s : State) (c : Nat) : (s.touch c).dies = s.dies := rfl
@[simp] theorem State.touch_cores (s : State) (c : Nat) :
    (s.touch c).cores = vmod s.cores c Core.reset (fun c => { c with lastIssue := s.time }) := rfl
@[simp] theorem State.touch_mgmt (s : State) (c : Nat) : (s.touch c).mgmt = s.mgmt := rfl
@[simp] theorem State.touch_peerUp (s : State) (c : Nat) : (s.touch c).peerUp = s.peerUp := rfl
@[simp] theorem State.touch_hostUp (s : State) (c : Nat) : (s.touch c).hostUp = s.hostUp := rfl
@[simp] theorem State.touch_clock (s : State) (c : Nat) : (s.touch c).clock = s.clock := rfl
@[simp] theorem State.touch_cap (s : State) (c : Nat) : (s.touch c).cap = s.cap := rfl
@[simp] theorem State.touch_answer (s : State) (c : Nat) : (s.touch c).answer = s.answer := rfl
@[simp] theorem State.touch_fills (s : State) (c : Nat) : (s.touch c).fills = s.fills := rfl
@[simp] theorem State.touch_phases (s : State) (c : Nat) : (s.touch c).phases = s.phases := rfl
@[simp] theorem State.touch_agenda (s : State) (c : Nat) : (s.touch c).agenda = s.agenda := rfl
@[simp] theorem State.touch_cur (s : State) (c : Nat) : (s.touch c).cur = s.cur := rfl
@[simp] theorem State.touch_freeCtr (s : State) (c : Nat) : (s.touch c).freeCtr = s.freeCtr := rfl
@[simp] theorem State.touch_nextId (s : State) (c : Nat) : (s.touch c).nextId = s.nextId := rfl

/-! ## `State.raise` -/

@[simp] theorem State.raise_time (s : State) (m : Nat) : (s.raise m).time = s.time := by
  unfold State.raise; split <;> rfl
@[simp] theorem State.raise_mem (s : State) (m : Nat) : (s.raise m).mem = s.mem := by
  unfold State.raise; split <;> rfl
@[simp] theorem State.raise_fe (s : State) (m : Nat) : (s.raise m).fe = s.fe := by
  unfold State.raise; split <;> rfl
@[simp] theorem State.raise_poison (s : State) (m : Nat) : (s.raise m).poison = s.poison := by
  unfold State.raise; split <;> rfl
@[simp] theorem State.raise_groups (s : State) (m : Nat) : (s.raise m).groups = s.groups := by
  unfold State.raise; split <;> rfl
@[simp] theorem State.raise_teams (s : State) (m : Nat) : (s.raise m).teams = s.teams := by
  unfold State.raise; split <;> rfl
@[simp] theorem State.raise_launches (s : State) (m : Nat) : (s.raise m).launches = s.launches := by
  unfold State.raise; split <;> rfl
@[simp] theorem State.raise_gangs (s : State) (m : Nat) : (s.raise m).gangs = s.gangs := by
  unfold State.raise; split <;> rfl
@[simp] theorem State.raise_cmds (s : State) (m : Nat) : (s.raise m).cmds = s.cmds := by
  unfold State.raise; split <;> rfl
@[simp] theorem State.raise_colls (s : State) (m : Nat) : (s.raise m).colls = s.colls := by
  unfold State.raise; split <;> rfl
@[simp] theorem State.raise_tokens (s : State) (m : Nat) : (s.raise m).tokens = s.tokens := by
  unfold State.raise; split <;> rfl
@[simp] theorem State.raise_queues (s : State) (m : Nat) : (s.raise m).queues = s.queues := by
  unfold State.raise; split <;> rfl
@[simp] theorem State.raise_slices (s : State) (m : Nat) : (s.raise m).slices = s.slices := by
  unfold State.raise; split <;> rfl
@[simp] theorem State.raise_ipqs (s : State) (m : Nat) : (s.raise m).ipqs = s.ipqs := by
  unfold State.raise; split <;> rfl
@[simp] theorem State.raise_parts (s : State) (m : Nat) : (s.raise m).parts = s.parts := by
  unfold State.raise; split <;> rfl
@[simp] theorem State.raise_dies (s : State) (m : Nat) : (s.raise m).dies = s.dies := by
  unfold State.raise; split <;> rfl
@[simp] theorem State.raise_cores (s : State) (m : Nat) : (s.raise m).cores = s.cores := by
  unfold State.raise; split <;> rfl
@[simp] theorem State.raise_peerUp (s : State) (m : Nat) : (s.raise m).peerUp = s.peerUp := by
  unfold State.raise; split <;> rfl
@[simp] theorem State.raise_hostUp (s : State) (m : Nat) : (s.raise m).hostUp = s.hostUp := by
  unfold State.raise; split <;> rfl
@[simp] theorem State.raise_clock (s : State) (m : Nat) : (s.raise m).clock = s.clock := by
  unfold State.raise; split <;> rfl
@[simp] theorem State.raise_cap (s : State) (m : Nat) : (s.raise m).cap = s.cap := by
  unfold State.raise; split <;> rfl
@[simp] theorem State.raise_answer (s : State) (m : Nat) : (s.raise m).answer = s.answer := by
  unfold State.raise; split <;> rfl
@[simp] theorem State.raise_fills (s : State) (m : Nat) : (s.raise m).fills = s.fills := by
  unfold State.raise; split <;> rfl
@[simp] theorem State.raise_phases (s : State) (m : Nat) : (s.raise m).phases = s.phases := by
  unfold State.raise; split <;> rfl
@[simp] theorem State.raise_agenda (s : State) (m : Nat) : (s.raise m).agenda = s.agenda := by
  unfold State.raise; split <;> rfl
@[simp] theorem State.raise_cur (s : State) (m : Nat) : (s.raise m).cur = s.cur := by
  unfold State.raise; split <;> rfl
@[simp] theorem State.raise_freeCtr (s : State) (m : Nat) : (s.raise m).freeCtr = s.freeCtr := by
  unfold State.raise; split <;> rfl
@[simp] theorem State.raise_nextId (s : State) (m : Nat) : (s.raise m).nextId = s.nextId := by
  unfold State.raise; split <;> rfl

/-! ## `State.setEvents` -/

@[simp] theorem State.setEvents_time (s : State) (t : Nat) (b : BitVec 16) : (s.setEvents t b).time = s.time := rfl
@[simp] theorem State.setEvents_mem (s : State) (t : Nat) (b : BitVec 16) : (s.setEvents t b).mem = s.mem := rfl
@[simp] theorem State.setEvents_fe (s : State) (t : Nat) (b : BitVec 16) : (s.setEvents t b).fe = s.fe := rfl
@[simp] theorem State.setEvents_poison (s : State) (t : Nat) (b : BitVec 16) :
    (s.setEvents t b).poison = s.poison := rfl
@[simp] theorem State.setEvents_launches (s : State) (t : Nat) (b : BitVec 16) :
    (s.setEvents t b).launches = s.launches := rfl
@[simp] theorem State.setEvents_gangs (s : State) (t : Nat) (b : BitVec 16) : (s.setEvents t b).gangs = s.gangs := rfl
@[simp] theorem State.setEvents_cmds (s : State) (t : Nat) (b : BitVec 16) : (s.setEvents t b).cmds = s.cmds := rfl
@[simp] theorem State.setEvents_colls (s : State) (t : Nat) (b : BitVec 16) : (s.setEvents t b).colls = s.colls := rfl
@[simp] theorem State.setEvents_tokens (s : State) (t : Nat) (b : BitVec 16) :
    (s.setEvents t b).tokens = s.tokens := rfl
@[simp] theorem State.setEvents_queues (s : State) (t : Nat) (b : BitVec 16) :
    (s.setEvents t b).queues = s.queues := rfl
@[simp] theorem State.setEvents_slices (s : State) (t : Nat) (b : BitVec 16) :
    (s.setEvents t b).slices = s.slices := rfl
@[simp] theorem State.setEvents_ipqs (s : State) (t : Nat) (b : BitVec 16) : (s.setEvents t b).ipqs = s.ipqs := rfl
@[simp] theorem State.setEvents_parts (s : State) (t : Nat) (b : BitVec 16) : (s.setEvents t b).parts = s.parts := rfl
@[simp] theorem State.setEvents_dies (s : State) (t : Nat) (b : BitVec 16) : (s.setEvents t b).dies = s.dies := rfl
@[simp] theorem State.setEvents_cores (s : State) (t : Nat) (b : BitVec 16) : (s.setEvents t b).cores = s.cores := rfl
@[simp] theorem State.setEvents_mgmt (s : State) (t : Nat) (b : BitVec 16) : (s.setEvents t b).mgmt = s.mgmt := rfl
@[simp] theorem State.setEvents_peerUp (s : State) (t : Nat) (b : BitVec 16) :
    (s.setEvents t b).peerUp = s.peerUp := rfl
@[simp] theorem State.setEvents_hostUp (s : State) (t : Nat) (b : BitVec 16) :
    (s.setEvents t b).hostUp = s.hostUp := rfl
@[simp] theorem State.setEvents_clock (s : State) (t : Nat) (b : BitVec 16) : (s.setEvents t b).clock = s.clock := rfl
@[simp] theorem State.setEvents_cap (s : State) (t : Nat) (b : BitVec 16) : (s.setEvents t b).cap = s.cap := rfl
@[simp] theorem State.setEvents_answer (s : State) (t : Nat) (b : BitVec 16) :
    (s.setEvents t b).answer = s.answer := rfl
@[simp] theorem State.setEvents_fills (s : State) (t : Nat) (b : BitVec 16) : (s.setEvents t b).fills = s.fills := rfl
@[simp] theorem State.setEvents_phases (s : State) (t : Nat) (b : BitVec 16) :
    (s.setEvents t b).phases = s.phases := rfl
@[simp] theorem State.setEvents_agenda (s : State) (t : Nat) (b : BitVec 16) :
    (s.setEvents t b).agenda = s.agenda := rfl
@[simp] theorem State.setEvents_cur (s : State) (t : Nat) (b : BitVec 16) : (s.setEvents t b).cur = s.cur := rfl
@[simp] theorem State.setEvents_freeCtr (s : State) (t : Nat) (b : BitVec 16) :
    (s.setEvents t b).freeCtr = s.freeCtr := rfl
@[simp] theorem State.setEvents_nextId (s : State) (t : Nat) (b : BitVec 16) :
    (s.setEvents t b).nextId = s.nextId := rfl

/-! ## `State.addEvent`, `State.countIssue` -/

@[simp] theorem State.addEvent_time (s : State) (c i n : Nat) : (s.addEvent c i n).time = s.time := rfl
@[simp] theorem State.addEvent_mem (s : State) (c i n : Nat) : (s.addEvent c i n).mem = s.mem := rfl
@[simp] theorem State.addEvent_fe (s : State) (c i n : Nat) : (s.addEvent c i n).fe = s.fe := rfl
@[simp] theorem State.addEvent_poison (s : State) (c i n : Nat) : (s.addEvent c i n).poison = s.poison := rfl
@[simp] theorem State.addEvent_groups (s : State) (c i n : Nat) : (s.addEvent c i n).groups = s.groups := rfl
@[simp] theorem State.addEvent_teams (s : State) (c i n : Nat) : (s.addEvent c i n).teams = s.teams := rfl
@[simp] theorem State.addEvent_launches (s : State) (c i n : Nat) : (s.addEvent c i n).launches = s.launches := rfl
@[simp] theorem State.addEvent_gangs (s : State) (c i n : Nat) : (s.addEvent c i n).gangs = s.gangs := rfl
@[simp] theorem State.addEvent_cmds (s : State) (c i n : Nat) : (s.addEvent c i n).cmds = s.cmds := rfl
@[simp] theorem State.addEvent_colls (s : State) (c i n : Nat) : (s.addEvent c i n).colls = s.colls := rfl
@[simp] theorem State.addEvent_tokens (s : State) (c i n : Nat) : (s.addEvent c i n).tokens = s.tokens := rfl
@[simp] theorem State.addEvent_queues (s : State) (c i n : Nat) : (s.addEvent c i n).queues = s.queues := rfl
@[simp] theorem State.addEvent_slices (s : State) (c i n : Nat) : (s.addEvent c i n).slices = s.slices := rfl
@[simp] theorem State.addEvent_ipqs (s : State) (c i n : Nat) : (s.addEvent c i n).ipqs = s.ipqs := rfl
@[simp] theorem State.addEvent_parts (s : State) (c i n : Nat) : (s.addEvent c i n).parts = s.parts := rfl
@[simp] theorem State.addEvent_dies (s : State) (c i n : Nat) : (s.addEvent c i n).dies = s.dies := rfl
@[simp] theorem State.addEvent_mgmt (s : State) (c i n : Nat) : (s.addEvent c i n).mgmt = s.mgmt := rfl
@[simp] theorem State.addEvent_peerUp (s : State) (c i n : Nat) : (s.addEvent c i n).peerUp = s.peerUp := rfl
@[simp] theorem State.addEvent_hostUp (s : State) (c i n : Nat) : (s.addEvent c i n).hostUp = s.hostUp := rfl
@[simp] theorem State.addEvent_clock (s : State) (c i n : Nat) : (s.addEvent c i n).clock = s.clock := rfl
@[simp] theorem State.addEvent_cap (s : State) (c i n : Nat) : (s.addEvent c i n).cap = s.cap := rfl
@[simp] theorem State.addEvent_answer (s : State) (c i n : Nat) : (s.addEvent c i n).answer = s.answer := rfl
@[simp] theorem State.addEvent_fills (s : State) (c i n : Nat) : (s.addEvent c i n).fills = s.fills := rfl
@[simp] theorem State.addEvent_phases (s : State) (c i n : Nat) : (s.addEvent c i n).phases = s.phases := rfl
@[simp] theorem State.addEvent_agenda (s : State) (c i n : Nat) : (s.addEvent c i n).agenda = s.agenda := rfl
@[simp] theorem State.addEvent_cur (s : State) (c i n : Nat) : (s.addEvent c i n).cur = s.cur := rfl
@[simp] theorem State.addEvent_freeCtr (s : State) (c i n : Nat) : (s.addEvent c i n).freeCtr = s.freeCtr := rfl
@[simp] theorem State.addEvent_nextId (s : State) (c i n : Nat) : (s.addEvent c i n).nextId = s.nextId := rfl

@[simp] theorem State.countIssue_time (s : State) (c : Nat) : (s.countIssue c).time = s.time := rfl
@[simp] theorem State.countIssue_mem (s : State) (c : Nat) : (s.countIssue c).mem = s.mem := rfl
@[simp] theorem State.countIssue_fe (s : State) (c : Nat) : (s.countIssue c).fe = s.fe := rfl
@[simp] theorem State.countIssue_poison (s : State) (c : Nat) : (s.countIssue c).poison = s.poison := rfl
@[simp] theorem State.countIssue_groups (s : State) (c : Nat) : (s.countIssue c).groups = s.groups := rfl
@[simp] theorem State.countIssue_teams (s : State) (c : Nat) : (s.countIssue c).teams = s.teams := rfl
@[simp] theorem State.countIssue_launches (s : State) (c : Nat) : (s.countIssue c).launches = s.launches := rfl
@[simp] theorem State.countIssue_gangs (s : State) (c : Nat) : (s.countIssue c).gangs = s.gangs := rfl
@[simp] theorem State.countIssue_cmds (s : State) (c : Nat) : (s.countIssue c).cmds = s.cmds := rfl
@[simp] theorem State.countIssue_colls (s : State) (c : Nat) : (s.countIssue c).colls = s.colls := rfl
@[simp] theorem State.countIssue_tokens (s : State) (c : Nat) : (s.countIssue c).tokens = s.tokens := rfl
@[simp] theorem State.countIssue_queues (s : State) (c : Nat) : (s.countIssue c).queues = s.queues := rfl
@[simp] theorem State.countIssue_slices (s : State) (c : Nat) : (s.countIssue c).slices = s.slices := rfl
@[simp] theorem State.countIssue_ipqs (s : State) (c : Nat) : (s.countIssue c).ipqs = s.ipqs := rfl
@[simp] theorem State.countIssue_parts (s : State) (c : Nat) : (s.countIssue c).parts = s.parts := rfl
@[simp] theorem State.countIssue_dies (s : State) (c : Nat) : (s.countIssue c).dies = s.dies := rfl
@[simp] theorem State.countIssue_mgmt (s : State) (c : Nat) : (s.countIssue c).mgmt = s.mgmt := rfl
@[simp] theorem State.countIssue_peerUp (s : State) (c : Nat) : (s.countIssue c).peerUp = s.peerUp := rfl
@[simp] theorem State.countIssue_hostUp (s : State) (c : Nat) : (s.countIssue c).hostUp = s.hostUp := rfl
@[simp] theorem State.countIssue_clock (s : State) (c : Nat) : (s.countIssue c).clock = s.clock := rfl
@[simp] theorem State.countIssue_cap (s : State) (c : Nat) : (s.countIssue c).cap = s.cap := rfl
@[simp] theorem State.countIssue_answer (s : State) (c : Nat) : (s.countIssue c).answer = s.answer := rfl
@[simp] theorem State.countIssue_fills (s : State) (c : Nat) : (s.countIssue c).fills = s.fills := rfl
@[simp] theorem State.countIssue_phases (s : State) (c : Nat) : (s.countIssue c).phases = s.phases := rfl
@[simp] theorem State.countIssue_agenda (s : State) (c : Nat) : (s.countIssue c).agenda = s.agenda := rfl
@[simp] theorem State.countIssue_cur (s : State) (c : Nat) : (s.countIssue c).cur = s.cur := rfl
@[simp] theorem State.countIssue_freeCtr (s : State) (c : Nat) : (s.countIssue c).freeCtr = s.freeCtr := rfl
@[simp] theorem State.countIssue_nextId (s : State) (c : Nat) : (s.countIssue c).nextId = s.nextId := rfl

/-! ## Groups: flags, `SRCTR`, aging -/

@[simp] theorem Group.raiseFlags_id (g : Group) (f : BitVec 6) : (g.raiseFlags f).id = g.id := rfl
@[simp] theorem Group.raiseFlags_team (g : Group) (f : BitVec 6) : (g.raiseFlags f).team = g.team := rfl
@[simp] theorem Group.raiseFlags_core (g : Group) (f : BitVec 6) : (g.raiseFlags f).core = g.core := rfl
@[simp] theorem Group.raiseFlags_slot (g : Group) (f : BitVec 6) : (g.raiseFlags f).slot = g.slot := rfl
@[simp] theorem Group.raiseFlags_kind (g : Group) (f : BitVec 6) : (g.raiseFlags f).kind = g.kind := rfl
@[simp] theorem Group.raiseFlags_index (g : Group) (f : BitVec 6) : (g.raiseFlags f).index = g.index := rfl
@[simp] theorem Group.raiseFlags_teamNo (g : Group) (f : BitVec 6) : (g.raiseFlags f).teamNo = g.teamNo := rfl
@[simp] theorem Group.raiseFlags_cohort (g : Group) (f : BitVec 6) : (g.raiseFlags f).cohort = g.cohort := rfl
@[simp] theorem Group.raiseFlags_gx (g : Group) (f : BitVec 6) : (g.raiseFlags f).gx = g.gx := rfl
@[simp] theorem Group.raiseFlags_gy (g : Group) (f : BitVec 6) : (g.raiseFlags f).gy = g.gy := rfl
@[simp] theorem Group.raiseFlags_gz (g : Group) (f : BitVec 6) : (g.raiseFlags f).gz = g.gz := rfl
@[simp] theorem Group.raiseFlags_widx (g : Group) (f : BitVec 6) : (g.raiseFlags f).widx = g.widx := rfl
@[simp] theorem Group.raiseFlags_wcnt (g : Group) (f : BitVec 6) : (g.raiseFlags f).wcnt = g.wcnt := rfl
@[simp] theorem Group.raiseFlags_pc (g : Group) (f : BitVec 6) : (g.raiseFlags f).pc = g.pc := rfl
@[simp] theorem Group.raiseFlags_v (g : Group) (f : BitVec 6) : (g.raiseFlags f).v = g.v := rfl
@[simp] theorem Group.raiseFlags_lo (g : Group) (f : BitVec 6) : (g.raiseFlags f).lo = g.lo := rfl
@[simp] theorem Group.raiseFlags_hi (g : Group) (f : BitVec 6) : (g.raiseFlags f).hi = g.hi := rfl
@[simp] theorem Group.raiseFlags_vlim (g : Group) (f : BitVec 6) : (g.raiseFlags f).vlim = g.vlim := rfl
@[simp] theorem Group.raiseFlags_x (g : Group) (f : BitVec 6) : (g.raiseFlags f).x = g.x := rfl
@[simp] theorem Group.raiseFlags_exec (g : Group) (f : BitVec 6) : (g.raiseFlags f).exec = g.exec := rfl
@[simp] theorem Group.raiseFlags_helper (g : Group) (f : BitVec 6) : (g.raiseFlags f).helper = g.helper := rfl
@[simp] theorem Group.raiseFlags_m (g : Group) (f : BitVec 6) : (g.raiseFlags f).m = g.m := rfl
@[simp] theorem Group.raiseFlags_c (g : Group) (f : BitVec 6) : (g.raiseFlags f).c = g.c := rfl
@[simp] theorem Group.raiseFlags_q (g : Group) (f : BitVec 6) : (g.raiseFlags f).q = g.q := rfl
@[simp] theorem Group.raiseFlags_t (g : Group) (f : BitVec 6) : (g.raiseFlags f).t = g.t := rfl
@[simp] theorem Group.raiseFlags_swin (g : Group) (f : BitVec 6) : (g.raiseFlags f).swin = g.swin := rfl
@[simp] theorem Group.raiseFlags_len (g : Group) (f : BitVec 6) : (g.raiseFlags f).len = g.len := rfl
@[simp] theorem Group.raiseFlags_gmem (g : Group) (f : BitVec 6) : (g.raiseFlags f).gmem = g.gmem := rfl
@[simp] theorem Group.raiseFlags_fstat (g : Group) (f : BitVec 6) : (g.raiseFlags f).fstat = g.fstat ||| f := rfl
@[simp] theorem Group.raiseFlags_srseed (g : Group) (f : BitVec 6) : (g.raiseFlags f).srseed = g.srseed := rfl
@[simp] theorem Group.raiseFlags_srctr (g : Group) (f : BitVec 6) : (g.raiseFlags f).srctr = g.srctr := rfl
@[simp] theorem Group.raiseFlags_batch (g : Group) (f : BitVec 6) : (g.raiseFlags f).batch = g.batch := rfl
@[simp] theorem Group.raiseFlags_evpend (g : Group) (f : BitVec 6) : (g.raiseFlags f).evpend = g.evpend := rfl
@[simp] theorem Group.raiseFlags_peergen (g : Group) (f : BitVec 6) : (g.raiseFlags f).peergen = g.peergen := rfl
@[simp] theorem Group.raiseFlags_mode (g : Group) (f : BitVec 6) : (g.raiseFlags f).mode = g.mode := rfl
@[simp] theorem Group.raiseFlags_depth (g : Group) (f : BitVec 6) : (g.raiseFlags f).depth = g.depth := rfl
@[simp] theorem Group.raiseFlags_bypass (g : Group) (f : BitVec 6) : (g.raiseFlags f).bypass = g.bypass := rfl
@[simp] theorem Group.raiseFlags_pend (g : Group) (f : BitVec 6) : (g.raiseFlags f).pend = g.pend := rfl
@[simp] theorem Group.raiseFlags_hset (g : Group) (f : BitVec 6) : (g.raiseFlags f).hset = g.hset := rfl
@[simp] theorem Group.raiseFlags_sset (g : Group) (f : BitVec 6) : (g.raiseFlags f).sset = g.sset := rfl
@[simp] theorem Group.raiseFlags_hret (g : Group) (f : BitVec 6) : (g.raiseFlags f).hret = g.hret := rfl
@[simp] theorem Group.raiseFlags_firmware (g : Group) (f : BitVec 6) : (g.raiseFlags f).firmware = g.firmware := rfl
@[simp] theorem Group.raiseFlags_wait (g : Group) (f : BitVec 6) : (g.raiseFlags f).wait = g.wait := rfl
@[simp] theorem Group.raiseFlags_prog (g : Group) (f : BitVec 6) : (g.raiseFlags f).prog = g.prog := rfl
@[simp] theorem Group.raiseFlags_calling (g : Group) (f : BitVec 6) : (g.raiseFlags f).calling = g.calling := rfl
@[simp] theorem Group.raiseFlags_folds (g : Group) (f : BitVec 6) : (g.raiseFlags f).folds = g.folds := rfl
@[simp] theorem Group.raiseFlags_gang (g : Group) (f : BitVec 6) : (g.raiseFlags f).gang = g.gang := rfl
@[simp] theorem Group.raiseFlags_halted (g : Group) (f : BitVec 6) : (g.raiseFlags f).halted = g.halted := rfl
@[simp] theorem Group.raiseFlags_stopped (g : Group) (f : BitVec 6) : (g.raiseFlags f).stopped = g.stopped := rfl
@[simp] theorem Group.raiseFlags_pass (g : Group) (f : BitVec 6) : (g.raiseFlags f).pass = g.pass := rfl
@[simp] theorem Group.raiseFlags_lastsp (g : Group) (f : BitVec 6) : (g.raiseFlags f).lastsp = g.lastsp := rfl
@[simp] theorem Group.raiseFlags_steps (g : Group) (f : BitVec 6) : (g.raiseFlags f).steps = g.steps := rfl
@[simp] theorem Group.raiseFlags_line (g : Group) (f : BitVec 6) : (g.raiseFlags f).line = g.line := rfl
@[simp] theorem Group.raiseFlags_created (g : Group) (f : BitVec 6) : (g.raiseFlags f).created = g.created := rfl
@[simp] theorem Group.raiseFlags_sampled (g : Group) (f : BitVec 6) : (g.raiseFlags f).sampled = g.sampled := rfl

@[simp] theorem Group.age_id (g : Group) : (g.age).id = g.id := rfl
@[simp] theorem Group.age_team (g : Group) : (g.age).team = g.team := rfl
@[simp] theorem Group.age_core (g : Group) : (g.age).core = g.core := rfl
@[simp] theorem Group.age_slot (g : Group) : (g.age).slot = g.slot := rfl
@[simp] theorem Group.age_kind (g : Group) : (g.age).kind = g.kind := rfl
@[simp] theorem Group.age_index (g : Group) : (g.age).index = g.index := rfl
@[simp] theorem Group.age_teamNo (g : Group) : (g.age).teamNo = g.teamNo := rfl
@[simp] theorem Group.age_cohort (g : Group) : (g.age).cohort = g.cohort := rfl
@[simp] theorem Group.age_gx (g : Group) : (g.age).gx = g.gx := rfl
@[simp] theorem Group.age_gy (g : Group) : (g.age).gy = g.gy := rfl
@[simp] theorem Group.age_gz (g : Group) : (g.age).gz = g.gz := rfl
@[simp] theorem Group.age_widx (g : Group) : (g.age).widx = g.widx := rfl
@[simp] theorem Group.age_wcnt (g : Group) : (g.age).wcnt = g.wcnt := rfl
@[simp] theorem Group.age_pc (g : Group) : (g.age).pc = g.pc := rfl
@[simp] theorem Group.age_v (g : Group) : (g.age).v = g.v := rfl
@[simp] theorem Group.age_lo (g : Group) : (g.age).lo = g.lo := rfl
@[simp] theorem Group.age_hi (g : Group) : (g.age).hi = g.hi := rfl
@[simp] theorem Group.age_vlim (g : Group) : (g.age).vlim = g.vlim := rfl
@[simp] theorem Group.age_x (g : Group) : (g.age).x = g.x := rfl
@[simp] theorem Group.age_exec (g : Group) : (g.age).exec = g.exec := rfl
@[simp] theorem Group.age_helper (g : Group) : (g.age).helper = g.helper := rfl
@[simp] theorem Group.age_m (g : Group) : (g.age).m = g.m := rfl
@[simp] theorem Group.age_c (g : Group) : (g.age).c = g.c := rfl
@[simp] theorem Group.age_q (g : Group) : (g.age).q = g.q := rfl
@[simp] theorem Group.age_t (g : Group) : (g.age).t = g.t := rfl
@[simp] theorem Group.age_swin (g : Group) : (g.age).swin = g.swin := rfl
@[simp] theorem Group.age_len (g : Group) : (g.age).len = g.len := rfl
@[simp] theorem Group.age_gmem (g : Group) : (g.age).gmem = g.gmem := rfl
@[simp] theorem Group.age_fstat (g : Group) : (g.age).fstat = g.fstat := rfl
@[simp] theorem Group.age_srseed (g : Group) : (g.age).srseed = g.srseed := rfl
@[simp] theorem Group.age_srctr (g : Group) : (g.age).srctr = g.srctr := rfl
@[simp] theorem Group.age_batch (g : Group) : (g.age).batch = g.batch := rfl
@[simp] theorem Group.age_evpend (g : Group) : (g.age).evpend = g.evpend := rfl
@[simp] theorem Group.age_peergen (g : Group) : (g.age).peergen = g.peergen := rfl
@[simp] theorem Group.age_mode (g : Group) : (g.age).mode = g.mode := rfl
@[simp] theorem Group.age_depth (g : Group) : (g.age).depth = g.depth := rfl
@[simp] theorem Group.age_bypass (g : Group) :
    (g.age).bypass = (g.bypass.map (fun b => { b with age := b.age + 1 })).filter (fun b => b.age ≤ 2) := rfl
@[simp] theorem Group.age_pend (g : Group) : (g.age).pend = g.pend := rfl
@[simp] theorem Group.age_hset (g : Group) : (g.age).hset = g.hset := rfl
@[simp] theorem Group.age_sset (g : Group) : (g.age).sset = g.sset := rfl
@[simp] theorem Group.age_hret (g : Group) : (g.age).hret = g.hret := rfl
@[simp] theorem Group.age_firmware (g : Group) : (g.age).firmware = g.firmware := rfl
@[simp] theorem Group.age_wait (g : Group) : (g.age).wait = g.wait := rfl
@[simp] theorem Group.age_prog (g : Group) : (g.age).prog = g.prog := rfl
@[simp] theorem Group.age_calling (g : Group) : (g.age).calling = g.calling := rfl
@[simp] theorem Group.age_folds (g : Group) : (g.age).folds = g.folds := rfl
@[simp] theorem Group.age_gang (g : Group) : (g.age).gang = g.gang := rfl
@[simp] theorem Group.age_halted (g : Group) : (g.age).halted = g.halted := rfl
@[simp] theorem Group.age_stopped (g : Group) : (g.age).stopped = g.stopped := rfl
@[simp] theorem Group.age_pass (g : Group) : (g.age).pass = g.pass := rfl
@[simp] theorem Group.age_lastsp (g : Group) : (g.age).lastsp = g.lastsp := rfl
@[simp] theorem Group.age_steps (g : Group) : (g.age).steps = g.steps := rfl
@[simp] theorem Group.age_line (g : Group) : (g.age).line = g.line := rfl
@[simp] theorem Group.age_created (g : Group) : (g.age).created = g.created := rfl
@[simp] theorem Group.age_sampled (g : Group) : (g.age).sampled = g.sampled := rfl

@[simp] theorem Group.stepSr_id (g : Group) (r : Rm) : (g.stepSr r).id = g.id := by
  unfold Group.stepSr; split <;> rfl
@[simp] theorem Group.stepSr_team (g : Group) (r : Rm) : (g.stepSr r).team = g.team := by
  unfold Group.stepSr; split <;> rfl
@[simp] theorem Group.stepSr_core (g : Group) (r : Rm) : (g.stepSr r).core = g.core := by
  unfold Group.stepSr; split <;> rfl
@[simp] theorem Group.stepSr_slot (g : Group) (r : Rm) : (g.stepSr r).slot = g.slot := by
  unfold Group.stepSr; split <;> rfl
@[simp] theorem Group.stepSr_kind (g : Group) (r : Rm) : (g.stepSr r).kind = g.kind := by
  unfold Group.stepSr; split <;> rfl
@[simp] theorem Group.stepSr_index (g : Group) (r : Rm) : (g.stepSr r).index = g.index := by
  unfold Group.stepSr; split <;> rfl
@[simp] theorem Group.stepSr_teamNo (g : Group) (r : Rm) : (g.stepSr r).teamNo = g.teamNo := by
  unfold Group.stepSr; split <;> rfl
@[simp] theorem Group.stepSr_cohort (g : Group) (r : Rm) : (g.stepSr r).cohort = g.cohort := by
  unfold Group.stepSr; split <;> rfl
@[simp] theorem Group.stepSr_gx (g : Group) (r : Rm) : (g.stepSr r).gx = g.gx := by
  unfold Group.stepSr; split <;> rfl
@[simp] theorem Group.stepSr_gy (g : Group) (r : Rm) : (g.stepSr r).gy = g.gy := by
  unfold Group.stepSr; split <;> rfl
@[simp] theorem Group.stepSr_gz (g : Group) (r : Rm) : (g.stepSr r).gz = g.gz := by
  unfold Group.stepSr; split <;> rfl
@[simp] theorem Group.stepSr_widx (g : Group) (r : Rm) : (g.stepSr r).widx = g.widx := by
  unfold Group.stepSr; split <;> rfl
@[simp] theorem Group.stepSr_wcnt (g : Group) (r : Rm) : (g.stepSr r).wcnt = g.wcnt := by
  unfold Group.stepSr; split <;> rfl
@[simp] theorem Group.stepSr_pc (g : Group) (r : Rm) : (g.stepSr r).pc = g.pc := by
  unfold Group.stepSr; split <;> rfl
@[simp] theorem Group.stepSr_v (g : Group) (r : Rm) : (g.stepSr r).v = g.v := by
  unfold Group.stepSr; split <;> rfl
@[simp] theorem Group.stepSr_lo (g : Group) (r : Rm) : (g.stepSr r).lo = g.lo := by
  unfold Group.stepSr; split <;> rfl
@[simp] theorem Group.stepSr_hi (g : Group) (r : Rm) : (g.stepSr r).hi = g.hi := by
  unfold Group.stepSr; split <;> rfl
@[simp] theorem Group.stepSr_vlim (g : Group) (r : Rm) : (g.stepSr r).vlim = g.vlim := by
  unfold Group.stepSr; split <;> rfl
@[simp] theorem Group.stepSr_x (g : Group) (r : Rm) : (g.stepSr r).x = g.x := by
  unfold Group.stepSr; split <;> rfl
@[simp] theorem Group.stepSr_exec (g : Group) (r : Rm) : (g.stepSr r).exec = g.exec := by
  unfold Group.stepSr; split <;> rfl
@[simp] theorem Group.stepSr_helper (g : Group) (r : Rm) : (g.stepSr r).helper = g.helper := by
  unfold Group.stepSr; split <;> rfl
@[simp] theorem Group.stepSr_m (g : Group) (r : Rm) : (g.stepSr r).m = g.m := by
  unfold Group.stepSr; split <;> rfl
@[simp] theorem Group.stepSr_c (g : Group) (r : Rm) : (g.stepSr r).c = g.c := by
  unfold Group.stepSr; split <;> rfl
@[simp] theorem Group.stepSr_q (g : Group) (r : Rm) : (g.stepSr r).q = g.q := by
  unfold Group.stepSr; split <;> rfl
@[simp] theorem Group.stepSr_t (g : Group) (r : Rm) : (g.stepSr r).t = g.t := by
  unfold Group.stepSr; split <;> rfl
@[simp] theorem Group.stepSr_swin (g : Group) (r : Rm) : (g.stepSr r).swin = g.swin := by
  unfold Group.stepSr; split <;> rfl
@[simp] theorem Group.stepSr_len (g : Group) (r : Rm) : (g.stepSr r).len = g.len := by
  unfold Group.stepSr; split <;> rfl
@[simp] theorem Group.stepSr_gmem (g : Group) (r : Rm) : (g.stepSr r).gmem = g.gmem := by
  unfold Group.stepSr; split <;> rfl
@[simp] theorem Group.stepSr_fstat (g : Group) (r : Rm) : (g.stepSr r).fstat = g.fstat := by
  unfold Group.stepSr; split <;> rfl
@[simp] theorem Group.stepSr_srseed (g : Group) (r : Rm) : (g.stepSr r).srseed = g.srseed := by
  unfold Group.stepSr; split <;> rfl
@[simp] theorem Group.stepSr_batch (g : Group) (r : Rm) : (g.stepSr r).batch = g.batch := by
  unfold Group.stepSr; split <;> rfl
@[simp] theorem Group.stepSr_evpend (g : Group) (r : Rm) : (g.stepSr r).evpend = g.evpend := by
  unfold Group.stepSr; split <;> rfl
@[simp] theorem Group.stepSr_peergen (g : Group) (r : Rm) : (g.stepSr r).peergen = g.peergen := by
  unfold Group.stepSr; split <;> rfl
@[simp] theorem Group.stepSr_mode (g : Group) (r : Rm) : (g.stepSr r).mode = g.mode := by
  unfold Group.stepSr; split <;> rfl
@[simp] theorem Group.stepSr_depth (g : Group) (r : Rm) : (g.stepSr r).depth = g.depth := by
  unfold Group.stepSr; split <;> rfl
@[simp] theorem Group.stepSr_bypass (g : Group) (r : Rm) : (g.stepSr r).bypass = g.bypass := by
  unfold Group.stepSr; split <;> rfl
@[simp] theorem Group.stepSr_pend (g : Group) (r : Rm) : (g.stepSr r).pend = g.pend := by
  unfold Group.stepSr; split <;> rfl
@[simp] theorem Group.stepSr_hset (g : Group) (r : Rm) : (g.stepSr r).hset = g.hset := by
  unfold Group.stepSr; split <;> rfl
@[simp] theorem Group.stepSr_sset (g : Group) (r : Rm) : (g.stepSr r).sset = g.sset := by
  unfold Group.stepSr; split <;> rfl
@[simp] theorem Group.stepSr_hret (g : Group) (r : Rm) : (g.stepSr r).hret = g.hret := by
  unfold Group.stepSr; split <;> rfl
@[simp] theorem Group.stepSr_firmware (g : Group) (r : Rm) : (g.stepSr r).firmware = g.firmware := by
  unfold Group.stepSr; split <;> rfl
@[simp] theorem Group.stepSr_wait (g : Group) (r : Rm) : (g.stepSr r).wait = g.wait := by
  unfold Group.stepSr; split <;> rfl
@[simp] theorem Group.stepSr_prog (g : Group) (r : Rm) : (g.stepSr r).prog = g.prog := by
  unfold Group.stepSr; split <;> rfl
@[simp] theorem Group.stepSr_calling (g : Group) (r : Rm) : (g.stepSr r).calling = g.calling := by
  unfold Group.stepSr; split <;> rfl
@[simp] theorem Group.stepSr_folds (g : Group) (r : Rm) : (g.stepSr r).folds = g.folds := by
  unfold Group.stepSr; split <;> rfl
@[simp] theorem Group.stepSr_gang (g : Group) (r : Rm) : (g.stepSr r).gang = g.gang := by
  unfold Group.stepSr; split <;> rfl
@[simp] theorem Group.stepSr_halted (g : Group) (r : Rm) : (g.stepSr r).halted = g.halted := by
  unfold Group.stepSr; split <;> rfl
@[simp] theorem Group.stepSr_stopped (g : Group) (r : Rm) : (g.stepSr r).stopped = g.stopped := by
  unfold Group.stepSr; split <;> rfl
@[simp] theorem Group.stepSr_pass (g : Group) (r : Rm) : (g.stepSr r).pass = g.pass := by
  unfold Group.stepSr; split <;> rfl
@[simp] theorem Group.stepSr_lastsp (g : Group) (r : Rm) : (g.stepSr r).lastsp = g.lastsp := by
  unfold Group.stepSr; split <;> rfl
@[simp] theorem Group.stepSr_steps (g : Group) (r : Rm) : (g.stepSr r).steps = g.steps := by
  unfold Group.stepSr; split <;> rfl
@[simp] theorem Group.stepSr_line (g : Group) (r : Rm) : (g.stepSr r).line = g.line := by
  unfold Group.stepSr; split <;> rfl
@[simp] theorem Group.stepSr_created (g : Group) (r : Rm) : (g.stepSr r).created = g.created := by
  unfold Group.stepSr; split <;> rfl
@[simp] theorem Group.stepSr_sampled (g : Group) (r : Rm) : (g.stepSr r).sampled = g.sampled := by
  unfold Group.stepSr; split <;> rfl

end Sys2Proof.Machine
end

