-- ==== Sys2Proof/Laws/Groups.lean ====
section
/-! SUPPORT. Groups in the state, and what delivering results leaves of a group. -/

namespace Sys2Proof.Machine

/-! ## Looking a group up -/

theorem find_map_set (l : List Group) (g : Group) (k : Nat) :
    (l.map (fun h => if h.id == g.id then g else h)).find? (fun h => h.id == k) =
      if k = g.id then (if (l.find? (fun h => h.id == k)).isSome then some g else none)
      else l.find? (fun h => h.id == k) := by
  induction l with
  | nil => simp
  | cons a as ih =>
    rw [List.map_cons, List.find?_cons, List.find?_cons, ih]
    by_cases ha : a.id = g.id <;> by_cases hk : k = g.id
    · subst hk; simp [ha]
    · have hk' : (g.id == k) = false := by simpa using fun h => hk h.symm
      simp [ha, hk, hk']
    · subst hk
      have h1 : (a.id == g.id) = false := by simpa using ha
      simp only [h1, Bool.false_eq_true, if_false]
    · have h1 : (a.id == g.id) = false := by simpa using ha
      simp only [h1, Bool.false_eq_true, if_false, if_neg hk]

theorem State.group?_setGroup_self {s : State} {g g0 : Group} (h : s.group? g.id = some g0) :
    (s.setGroup g).group? g.id = some g := by
  unfold State.group? at *
  simp only [State.setGroup_groups, find_map_set, h]
  simp

theorem State.group?_setGroup_ne {s : State} {g : Group} {k : Nat} (h : k ≠ g.id) :
    (s.setGroup g).group? k = s.group? k := by
  unfold State.group?
  simp only [State.setGroup_groups, find_map_set, if_neg h]

theorem State.group?_id {s : State} {k : Nat} {g : Group} (h : s.group? k = some g) : g.id = k := by
  have := List.find?_some h
  simpa using this

theorem State.group?_congr {s t : State} (h : t.groups = s.groups) (k : Nat) : t.group? k = s.group? k := by
  unfold State.group?
  rw [h]

/-! ## What a delivery keeps -/

@[simp] theorem Group.put_id (g : Group) (w : RegWrite) : (g.put w).id = g.id := by
  unfold Group.put; split <;> (try split) <;> rfl
@[simp] theorem Group.put_team (g : Group) (w : RegWrite) : (g.put w).team = g.team := by
  unfold Group.put; split <;> (try split) <;> rfl
@[simp] theorem Group.put_core (g : Group) (w : RegWrite) : (g.put w).core = g.core := by
  unfold Group.put; split <;> (try split) <;> rfl
@[simp] theorem Group.put_slot (g : Group) (w : RegWrite) : (g.put w).slot = g.slot := by
  unfold Group.put; split <;> (try split) <;> rfl
@[simp] theorem Group.put_kind (g : Group) (w : RegWrite) : (g.put w).kind = g.kind := by
  unfold Group.put; split <;> (try split) <;> rfl
@[simp] theorem Group.put_index (g : Group) (w : RegWrite) : (g.put w).index = g.index := by
  unfold Group.put; split <;> (try split) <;> rfl
@[simp] theorem Group.put_teamNo (g : Group) (w : RegWrite) : (g.put w).teamNo = g.teamNo := by
  unfold Group.put; split <;> (try split) <;> rfl
@[simp] theorem Group.put_cohort (g : Group) (w : RegWrite) : (g.put w).cohort = g.cohort := by
  unfold Group.put; split <;> (try split) <;> rfl
@[simp] theorem Group.put_gx (g : Group) (w : RegWrite) : (g.put w).gx = g.gx := by
  unfold Group.put; split <;> (try split) <;> rfl
@[simp] theorem Group.put_gy (g : Group) (w : RegWrite) : (g.put w).gy = g.gy := by
  unfold Group.put; split <;> (try split) <;> rfl
@[simp] theorem Group.put_gz (g : Group) (w : RegWrite) : (g.put w).gz = g.gz := by
  unfold Group.put; split <;> (try split) <;> rfl
@[simp] theorem Group.put_widx (g : Group) (w : RegWrite) : (g.put w).widx = g.widx := by
  unfold Group.put; split <;> (try split) <;> rfl
@[simp] theorem Group.put_wcnt (g : Group) (w : RegWrite) : (g.put w).wcnt = g.wcnt := by
  unfold Group.put; split <;> (try split) <;> rfl
@[simp] theorem Group.put_pc (g : Group) (w : RegWrite) : (g.put w).pc = g.pc := by
  unfold Group.put; split <;> (try split) <;> rfl
@[simp] theorem Group.put_lo (g : Group) (w : RegWrite) : (g.put w).lo = g.lo := by
  unfold Group.put; split <;> (try split) <;> rfl
@[simp] theorem Group.put_hi (g : Group) (w : RegWrite) : (g.put w).hi = g.hi := by
  unfold Group.put; split <;> (try split) <;> rfl
@[simp] theorem Group.put_vlim (g : Group) (w : RegWrite) : (g.put w).vlim = g.vlim := by
  unfold Group.put; split <;> (try split) <;> rfl
@[simp] theorem Group.put_exec (g : Group) (w : RegWrite) : (g.put w).exec = g.exec := by
  unfold Group.put; split <;> (try split) <;> rfl
@[simp] theorem Group.put_helper (g : Group) (w : RegWrite) : (g.put w).helper = g.helper := by
  unfold Group.put; split <;> (try split) <;> rfl
@[simp] theorem Group.put_q (g : Group) (w : RegWrite) : (g.put w).q = g.q := by
  unfold Group.put; split <;> (try split) <;> rfl
@[simp] theorem Group.put_swin (g : Group) (w : RegWrite) : (g.put w).swin = g.swin := by
  unfold Group.put; split <;> (try split) <;> rfl
@[simp] theorem Group.put_len (g : Group) (w : RegWrite) : (g.put w).len = g.len := by
  unfold Group.put; split <;> (try split) <;> rfl
@[simp] theorem Group.put_gmem (g : Group) (w : RegWrite) : (g.put w).gmem = g.gmem := by
  unfold Group.put; split <;> (try split) <;> rfl
@[simp] theorem Group.put_fstat (g : Group) (w : RegWrite) : (g.put w).fstat = g.fstat := by
  unfold Group.put; split <;> (try split) <;> rfl
@[simp] theorem Group.put_srseed (g : Group) (w : RegWrite) : (g.put w).srseed = g.srseed := by
  unfold Group.put; split <;> (try split) <;> rfl
@[simp] theorem Group.put_srctr (g : Group) (w : RegWrite) : (g.put w).srctr = g.srctr := by
  unfold Group.put; split <;> (try split) <;> rfl
@[simp] theorem Group.put_batch (g : Group) (w : RegWrite) : (g.put w).batch = g.batch := by
  unfold Group.put; split <;> (try split) <;> rfl
@[simp] theorem Group.put_evpend (g : Group) (w : RegWrite) : (g.put w).evpend = g.evpend := by
  unfold Group.put; split <;> (try split) <;> rfl
@[simp] theorem Group.put_peergen (g : Group) (w : RegWrite) : (g.put w).peergen = g.peergen := by
  unfold Group.put; split <;> (try split) <;> rfl
@[simp] theorem Group.put_mode (g : Group) (w : RegWrite) : (g.put w).mode = g.mode := by
  unfold Group.put; split <;> (try split) <;> rfl
@[simp] theorem Group.put_depth (g : Group) (w : RegWrite) : (g.put w).depth = g.depth := by
  unfold Group.put; split <;> (try split) <;> rfl
@[simp] theorem Group.put_bypass (g : Group) (w : RegWrite) : (g.put w).bypass = g.bypass := by
  unfold Group.put; split <;> (try split) <;> rfl
@[simp] theorem Group.put_pend (g : Group) (w : RegWrite) : (g.put w).pend = g.pend := by
  unfold Group.put; split <;> (try split) <;> rfl
@[simp] theorem Group.put_hset (g : Group) (w : RegWrite) : (g.put w).hset = g.hset := by
  unfold Group.put; split <;> (try split) <;> rfl
@[simp] theorem Group.put_sset (g : Group) (w : RegWrite) : (g.put w).sset = g.sset := by
  unfold Group.put; split <;> (try split) <;> rfl
@[simp] theorem Group.put_hret (g : Group) (w : RegWrite) : (g.put w).hret = g.hret := by
  unfold Group.put; split <;> (try split) <;> rfl
@[simp] theorem Group.put_firmware (g : Group) (w : RegWrite) : (g.put w).firmware = g.firmware := by
  unfold Group.put; split <;> (try split) <;> rfl
@[simp] theorem Group.put_wait (g : Group) (w : RegWrite) : (g.put w).wait = g.wait := by
  unfold Group.put; split <;> (try split) <;> rfl
@[simp] theorem Group.put_prog (g : Group) (w : RegWrite) : (g.put w).prog = g.prog := by
  unfold Group.put; split <;> (try split) <;> rfl
@[simp] theorem Group.put_calling (g : Group) (w : RegWrite) : (g.put w).calling = g.calling := by
  unfold Group.put; split <;> (try split) <;> rfl
@[simp] theorem Group.put_folds (g : Group) (w : RegWrite) : (g.put w).folds = g.folds := by
  unfold Group.put; split <;> (try split) <;> rfl
@[simp] theorem Group.put_gang (g : Group) (w : RegWrite) : (g.put w).gang = g.gang := by
  unfold Group.put; split <;> (try split) <;> rfl
@[simp] theorem Group.put_halted (g : Group) (w : RegWrite) : (g.put w).halted = g.halted := by
  unfold Group.put; split <;> (try split) <;> rfl
@[simp] theorem Group.put_stopped (g : Group) (w : RegWrite) : (g.put w).stopped = g.stopped := by
  unfold Group.put; split <;> (try split) <;> rfl
@[simp] theorem Group.put_pass (g : Group) (w : RegWrite) : (g.put w).pass = g.pass := by
  unfold Group.put; split <;> (try split) <;> rfl
@[simp] theorem Group.put_lastsp (g : Group) (w : RegWrite) : (g.put w).lastsp = g.lastsp := by
  unfold Group.put; split <;> (try split) <;> rfl
@[simp] theorem Group.put_steps (g : Group) (w : RegWrite) : (g.put w).steps = g.steps := by
  unfold Group.put; split <;> (try split) <;> rfl
@[simp] theorem Group.put_line (g : Group) (w : RegWrite) : (g.put w).line = g.line := by
  unfold Group.put; split <;> (try split) <;> rfl
@[simp] theorem Group.put_created (g : Group) (w : RegWrite) : (g.put w).created = g.created := by
  unfold Group.put; split <;> (try split) <;> rfl
@[simp] theorem Group.put_sampled (g : Group) (w : RegWrite) : (g.put w).sampled = g.sampled := by
  unfold Group.put; split <;> (try split) <;> rfl

theorem Group.deliver_bypass (g : Group) (tr : Bool) (w : RegWrite) : (g.deliver tr w).bypass = ⟨w, 0⟩ :: g.bypass := by
  unfold Group.deliver; cases tr <;> simp
theorem Group.deliver_v (g : Group) (tr : Bool) (w : RegWrite) :
    (g.deliver tr w).v = if tr then g.v else (g.put w).v := by
  unfold Group.deliver; cases tr <;> rfl
theorem Group.deliver_x (g : Group) (tr : Bool) (w : RegWrite) :
    (g.deliver tr w).x = if tr then g.x else (g.put w).x := by
  unfold Group.deliver; cases tr <;> rfl
theorem Group.deliver_m (g : Group) (tr : Bool) (w : RegWrite) :
    (g.deliver tr w).m = if tr then g.m else (g.put w).m := by
  unfold Group.deliver; cases tr <;> rfl
theorem Group.deliver_c (g : Group) (tr : Bool) (w : RegWrite) :
    (g.deliver tr w).c = if tr then g.c else (g.put w).c := by
  unfold Group.deliver; cases tr <;> rfl
theorem Group.deliver_t (g : Group) (tr : Bool) (w : RegWrite) :
    (g.deliver tr w).t = if tr then g.t else (g.put w).t := by
  unfold Group.deliver; cases tr <;> rfl
@[simp] theorem Group.deliver_id (g : Group) (tr : Bool) (w : RegWrite) : (g.deliver tr w).id = g.id := by
  unfold Group.deliver; cases tr <;> simp
@[simp] theorem Group.deliver_team (g : Group) (tr : Bool) (w : RegWrite) : (g.deliver tr w).team = g.team := by
  unfold Group.deliver; cases tr <;> simp
@[simp] theorem Group.deliver_core (g : Group) (tr : Bool) (w : RegWrite) : (g.deliver tr w).core = g.core := by
  unfold Group.deliver; cases tr <;> simp
@[simp] theorem Group.deliver_slot (g : Group) (tr : Bool) (w : RegWrite) : (g.deliver tr w).slot = g.slot := by
  unfold Group.deliver; cases tr <;> simp
@[simp] theorem Group.deliver_kind (g : Group) (tr : Bool) (w : RegWrite) : (g.deliver tr w).kind = g.kind := by
  unfold Group.deliver; cases tr <;> simp
@[simp] theorem Group.deliver_index (g : Group) (tr : Bool) (w : RegWrite) : (g.deliver tr w).index = g.index := by
  unfold Group.deliver; cases tr <;> simp
@[simp] theorem Group.deliver_teamNo (g : Group) (tr : Bool) (w : RegWrite) : (g.deliver tr w).teamNo = g.teamNo := by
  unfold Group.deliver; cases tr <;> simp
@[simp] theorem Group.deliver_cohort (g : Group) (tr : Bool) (w : RegWrite) : (g.deliver tr w).cohort = g.cohort := by
  unfold Group.deliver; cases tr <;> simp
@[simp] theorem Group.deliver_gx (g : Group) (tr : Bool) (w : RegWrite) : (g.deliver tr w).gx = g.gx := by
  unfold Group.deliver; cases tr <;> simp
@[simp] theorem Group.deliver_gy (g : Group) (tr : Bool) (w : RegWrite) : (g.deliver tr w).gy = g.gy := by
  unfold Group.deliver; cases tr <;> simp
@[simp] theorem Group.deliver_gz (g : Group) (tr : Bool) (w : RegWrite) : (g.deliver tr w).gz = g.gz := by
  unfold Group.deliver; cases tr <;> simp
@[simp] theorem Group.deliver_widx (g : Group) (tr : Bool) (w : RegWrite) : (g.deliver tr w).widx = g.widx := by
  unfold Group.deliver; cases tr <;> simp
@[simp] theorem Group.deliver_wcnt (g : Group) (tr : Bool) (w : RegWrite) : (g.deliver tr w).wcnt = g.wcnt := by
  unfold Group.deliver; cases tr <;> simp
@[simp] theorem Group.deliver_pc (g : Group) (tr : Bool) (w : RegWrite) : (g.deliver tr w).pc = g.pc := by
  unfold Group.deliver; cases tr <;> simp
@[simp] theorem Group.deliver_lo (g : Group) (tr : Bool) (w : RegWrite) : (g.deliver tr w).lo = g.lo := by
  unfold Group.deliver; cases tr <;> simp
@[simp] theorem Group.deliver_hi (g : Group) (tr : Bool) (w : RegWrite) : (g.deliver tr w).hi = g.hi := by
  unfold Group.deliver; cases tr <;> simp
@[simp] theorem Group.deliver_vlim (g : Group) (tr : Bool) (w : RegWrite) : (g.deliver tr w).vlim = g.vlim := by
  unfold Group.deliver; cases tr <;> simp
@[simp] theorem Group.deliver_exec (g : Group) (tr : Bool) (w : RegWrite) : (g.deliver tr w).exec = g.exec := by
  unfold Group.deliver; cases tr <;> simp
@[simp] theorem Group.deliver_helper (g : Group) (tr : Bool) (w : RegWrite) : (g.deliver tr w).helper = g.helper := by
  unfold Group.deliver; cases tr <;> simp
@[simp] theorem Group.deliver_q (g : Group) (tr : Bool) (w : RegWrite) : (g.deliver tr w).q = g.q := by
  unfold Group.deliver; cases tr <;> simp
@[simp] theorem Group.deliver_swin (g : Group) (tr : Bool) (w : RegWrite) : (g.deliver tr w).swin = g.swin := by
  unfold Group.deliver; cases tr <;> simp
@[simp] theorem Group.deliver_len (g : Group) (tr : Bool) (w : RegWrite) : (g.deliver tr w).len = g.len := by
  unfold Group.deliver; cases tr <;> simp
@[simp] theorem Group.deliver_gmem (g : Group) (tr : Bool) (w : RegWrite) : (g.deliver tr w).gmem = g.gmem := by
  unfold Group.deliver; cases tr <;> simp
@[simp] theorem Group.deliver_fstat (g : Group) (tr : Bool) (w : RegWrite) : (g.deliver tr w).fstat = g.fstat := by
  unfold Group.deliver; cases tr <;> simp
@[simp] theorem Group.deliver_srseed (g : Group) (tr : Bool) (w : RegWrite) : (g.deliver tr w).srseed = g.srseed := by
  unfold Group.deliver; cases tr <;> simp
@[simp] theorem Group.deliver_srctr (g : Group) (tr : Bool) (w : RegWrite) : (g.deliver tr w).srctr = g.srctr := by
  unfold Group.deliver; cases tr <;> simp
@[simp] theorem Group.deliver_batch (g : Group) (tr : Bool) (w : RegWrite) : (g.deliver tr w).batch = g.batch := by
  unfold Group.deliver; cases tr <;> simp
@[simp] theorem Group.deliver_evpend (g : Group) (tr : Bool) (w : RegWrite) : (g.deliver tr w).evpend = g.evpend := by
  unfold Group.deliver; cases tr <;> simp
@[simp] theorem Group.deliver_peergen (g : Group) (tr : Bool) (w : RegWrite) : (g.deliver tr w).peergen = g.peergen := by
  unfold Group.deliver; cases tr <;> simp
@[simp] theorem Group.deliver_mode (g : Group) (tr : Bool) (w : RegWrite) : (g.deliver tr w).mode = g.mode := by
  unfold Group.deliver; cases tr <;> simp
@[simp] theorem Group.deliver_depth (g : Group) (tr : Bool) (w : RegWrite) : (g.deliver tr w).depth = g.depth := by
  unfold Group.deliver; cases tr <;> simp
@[simp] theorem Group.deliver_pend (g : Group) (tr : Bool) (w : RegWrite) : (g.deliver tr w).pend = g.pend := by
  unfold Group.deliver; cases tr <;> simp
@[simp] theorem Group.deliver_hset (g : Group) (tr : Bool) (w : RegWrite) : (g.deliver tr w).hset = g.hset := by
  unfold Group.deliver; cases tr <;> simp
@[simp] theorem Group.deliver_sset (g : Group) (tr : Bool) (w : RegWrite) : (g.deliver tr w).sset = g.sset := by
  unfold Group.deliver; cases tr <;> simp
@[simp] theorem Group.deliver_hret (g : Group) (tr : Bool) (w : RegWrite) : (g.deliver tr w).hret = g.hret := by
  unfold Group.deliver; cases tr <;> simp
@[simp] theorem Group.deliver_firmware (g : Group) (tr : Bool) (w : RegWrite) : (g.deliver tr w).firmware = g.firmware := by
  unfold Group.deliver; cases tr <;> simp
@[simp] theorem Group.deliver_wait (g : Group) (tr : Bool) (w : RegWrite) : (g.deliver tr w).wait = g.wait := by
  unfold Group.deliver; cases tr <;> simp
@[simp] theorem Group.deliver_prog (g : Group) (tr : Bool) (w : RegWrite) : (g.deliver tr w).prog = g.prog := by
  unfold Group.deliver; cases tr <;> simp
@[simp] theorem Group.deliver_calling (g : Group) (tr : Bool) (w : RegWrite) : (g.deliver tr w).calling = g.calling := by
  unfold Group.deliver; cases tr <;> simp
@[simp] theorem Group.deliver_folds (g : Group) (tr : Bool) (w : RegWrite) : (g.deliver tr w).folds = g.folds := by
  unfold Group.deliver; cases tr <;> simp
@[simp] theorem Group.deliver_gang (g : Group) (tr : Bool) (w : RegWrite) : (g.deliver tr w).gang = g.gang := by
  unfold Group.deliver; cases tr <;> simp
@[simp] theorem Group.deliver_halted (g : Group) (tr : Bool) (w : RegWrite) : (g.deliver tr w).halted = g.halted := by
  unfold Group.deliver; cases tr <;> simp
@[simp] theorem Group.deliver_stopped (g : Group) (tr : Bool) (w : RegWrite) : (g.deliver tr w).stopped = g.stopped := by
  unfold Group.deliver; cases tr <;> simp
@[simp] theorem Group.deliver_pass (g : Group) (tr : Bool) (w : RegWrite) : (g.deliver tr w).pass = g.pass := by
  unfold Group.deliver; cases tr <;> simp
@[simp] theorem Group.deliver_lastsp (g : Group) (tr : Bool) (w : RegWrite) : (g.deliver tr w).lastsp = g.lastsp := by
  unfold Group.deliver; cases tr <;> simp
@[simp] theorem Group.deliver_steps (g : Group) (tr : Bool) (w : RegWrite) : (g.deliver tr w).steps = g.steps := by
  unfold Group.deliver; cases tr <;> simp
@[simp] theorem Group.deliver_line (g : Group) (tr : Bool) (w : RegWrite) : (g.deliver tr w).line = g.line := by
  unfold Group.deliver; cases tr <;> simp
@[simp] theorem Group.deliver_created (g : Group) (tr : Bool) (w : RegWrite) : (g.deliver tr w).created = g.created := by
  unfold Group.deliver; cases tr <;> simp
@[simp] theorem Group.deliver_sampled (g : Group) (tr : Bool) (w : RegWrite) : (g.deliver tr w).sampled = g.sampled := by
  unfold Group.deliver; cases tr <;> simp

@[simp] theorem Group.deliverAll_id (g : Group) (tr : Bool) (ws : List RegWrite) :
    (g.deliverAll tr ws).id = g.id := by
  induction ws generalizing g with
  | nil => rfl
  | cons w ws ih => exact (ih _).trans (Group.deliver_id g tr w)
@[simp] theorem Group.deliverAll_team (g : Group) (tr : Bool) (ws : List RegWrite) :
    (g.deliverAll tr ws).team = g.team := by
  induction ws generalizing g with
  | nil => rfl
  | cons w ws ih => exact (ih _).trans (Group.deliver_team g tr w)
@[simp] theorem Group.deliverAll_core (g : Group) (tr : Bool) (ws : List RegWrite) :
    (g.deliverAll tr ws).core = g.core := by
  induction ws generalizing g with
  | nil => rfl
  | cons w ws ih => exact (ih _).trans (Group.deliver_core g tr w)
@[simp] theorem Group.deliverAll_slot (g : Group) (tr : Bool) (ws : List RegWrite) :
    (g.deliverAll tr ws).slot = g.slot := by
  induction ws generalizing g with
  | nil => rfl
  | cons w ws ih => exact (ih _).trans (Group.deliver_slot g tr w)
@[simp] theorem Group.deliverAll_kind (g : Group) (tr : Bool) (ws : List RegWrite) :
    (g.deliverAll tr ws).kind = g.kind := by
  induction ws generalizing g with
  | nil => rfl
  | cons w ws ih => exact (ih _).trans (Group.deliver_kind g tr w)
@[simp] theorem Group.deliverAll_index (g : Group) (tr : Bool) (ws : List RegWrite) :
    (g.deliverAll tr ws).index = g.index := by
  induction ws generalizing g with
  | nil => rfl
  | cons w ws ih => exact (ih _).trans (Group.deliver_index g tr w)
@[simp] theorem Group.deliverAll_teamNo (g : Group) (tr : Bool) (ws : List RegWrite) :
    (g.deliverAll tr ws).teamNo = g.teamNo := by
  induction ws generalizing g with
  | nil => rfl
  | cons w ws ih => exact (ih _).trans (Group.deliver_teamNo g tr w)
@[simp] theorem Group.deliverAll_cohort (g : Group) (tr : Bool) (ws : List RegWrite) :
    (g.deliverAll tr ws).cohort = g.cohort := by
  induction ws generalizing g with
  | nil => rfl
  | cons w ws ih => exact (ih _).trans (Group.deliver_cohort g tr w)
@[simp] theorem Group.deliverAll_gx (g : Group) (tr : Bool) (ws : List RegWrite) :
    (g.deliverAll tr ws).gx = g.gx := by
  induction ws generalizing g with
  | nil => rfl
  | cons w ws ih => exact (ih _).trans (Group.deliver_gx g tr w)
@[simp] theorem Group.deliverAll_gy (g : Group) (tr : Bool) (ws : List RegWrite) :
    (g.deliverAll tr ws).gy = g.gy := by
  induction ws generalizing g with
  | nil => rfl
  | cons w ws ih => exact (ih _).trans (Group.deliver_gy g tr w)
@[simp] theorem Group.deliverAll_gz (g : Group) (tr : Bool) (ws : List RegWrite) :
    (g.deliverAll tr ws).gz = g.gz := by
  induction ws generalizing g with
  | nil => rfl
  | cons w ws ih => exact (ih _).trans (Group.deliver_gz g tr w)
@[simp] theorem Group.deliverAll_widx (g : Group) (tr : Bool) (ws : List RegWrite) :
    (g.deliverAll tr ws).widx = g.widx := by
  induction ws generalizing g with
  | nil => rfl
  | cons w ws ih => exact (ih _).trans (Group.deliver_widx g tr w)
@[simp] theorem Group.deliverAll_wcnt (g : Group) (tr : Bool) (ws : List RegWrite) :
    (g.deliverAll tr ws).wcnt = g.wcnt := by
  induction ws generalizing g with
  | nil => rfl
  | cons w ws ih => exact (ih _).trans (Group.deliver_wcnt g tr w)
@[simp] theorem Group.deliverAll_pc (g : Group) (tr : Bool) (ws : List RegWrite) :
    (g.deliverAll tr ws).pc = g.pc := by
  induction ws generalizing g with
  | nil => rfl
  | cons w ws ih => exact (ih _).trans (Group.deliver_pc g tr w)
@[simp] theorem Group.deliverAll_lo (g : Group) (tr : Bool) (ws : List RegWrite) :
    (g.deliverAll tr ws).lo = g.lo := by
  induction ws generalizing g with
  | nil => rfl
  | cons w ws ih => exact (ih _).trans (Group.deliver_lo g tr w)
@[simp] theorem Group.deliverAll_hi (g : Group) (tr : Bool) (ws : List RegWrite) :
    (g.deliverAll tr ws).hi = g.hi := by
  induction ws generalizing g with
  | nil => rfl
  | cons w ws ih => exact (ih _).trans (Group.deliver_hi g tr w)
@[simp] theorem Group.deliverAll_vlim (g : Group) (tr : Bool) (ws : List RegWrite) :
    (g.deliverAll tr ws).vlim = g.vlim := by
  induction ws generalizing g with
  | nil => rfl
  | cons w ws ih => exact (ih _).trans (Group.deliver_vlim g tr w)
@[simp] theorem Group.deliverAll_exec (g : Group) (tr : Bool) (ws : List RegWrite) :
    (g.deliverAll tr ws).exec = g.exec := by
  induction ws generalizing g with
  | nil => rfl
  | cons w ws ih => exact (ih _).trans (Group.deliver_exec g tr w)
@[simp] theorem Group.deliverAll_helper (g : Group) (tr : Bool) (ws : List RegWrite) :
    (g.deliverAll tr ws).helper = g.helper := by
  induction ws generalizing g with
  | nil => rfl
  | cons w ws ih => exact (ih _).trans (Group.deliver_helper g tr w)
@[simp] theorem Group.deliverAll_q (g : Group) (tr : Bool) (ws : List RegWrite) : (g.deliverAll tr ws).q = g.q := by
  induction ws generalizing g with
  | nil => rfl
  | cons w ws ih => exact (ih _).trans (Group.deliver_q g tr w)
@[simp] theorem Group.deliverAll_swin (g : Group) (tr : Bool) (ws : List RegWrite) :
    (g.deliverAll tr ws).swin = g.swin := by
  induction ws generalizing g with
  | nil => rfl
  | cons w ws ih => exact (ih _).trans (Group.deliver_swin g tr w)
@[simp] theorem Group.deliverAll_len (g : Group) (tr : Bool) (ws : List RegWrite) :
    (g.deliverAll tr ws).len = g.len := by
  induction ws generalizing g with
  | nil => rfl
  | cons w ws ih => exact (ih _).trans (Group.deliver_len g tr w)
@[simp] theorem Group.deliverAll_gmem (g : Group) (tr : Bool) (ws : List RegWrite) :
    (g.deliverAll tr ws).gmem = g.gmem := by
  induction ws generalizing g with
  | nil => rfl
  | cons w ws ih => exact (ih _).trans (Group.deliver_gmem g tr w)
@[simp] theorem Group.deliverAll_fstat (g : Group) (tr : Bool) (ws : List RegWrite) :
    (g.deliverAll tr ws).fstat = g.fstat := by
  induction ws generalizing g with
  | nil => rfl
  | cons w ws ih => exact (ih _).trans (Group.deliver_fstat g tr w)
@[simp] theorem Group.deliverAll_srseed (g : Group) (tr : Bool) (ws : List RegWrite) :
    (g.deliverAll tr ws).srseed = g.srseed := by
  induction ws generalizing g with
  | nil => rfl
  | cons w ws ih => exact (ih _).trans (Group.deliver_srseed g tr w)
@[simp] theorem Group.deliverAll_srctr (g : Group) (tr : Bool) (ws : List RegWrite) :
    (g.deliverAll tr ws).srctr = g.srctr := by
  induction ws generalizing g with
  | nil => rfl
  | cons w ws ih => exact (ih _).trans (Group.deliver_srctr g tr w)
@[simp] theorem Group.deliverAll_batch (g : Group) (tr : Bool) (ws : List RegWrite) :
    (g.deliverAll tr ws).batch = g.batch := by
  induction ws generalizing g with
  | nil => rfl
  | cons w ws ih => exact (ih _).trans (Group.deliver_batch g tr w)
@[simp] theorem Group.deliverAll_evpend (g : Group) (tr : Bool) (ws : List RegWrite) :
    (g.deliverAll tr ws).evpend = g.evpend := by
  induction ws generalizing g with
  | nil => rfl
  | cons w ws ih => exact (ih _).trans (Group.deliver_evpend g tr w)
@[simp] theorem Group.deliverAll_peergen (g : Group) (tr : Bool) (ws : List RegWrite) :
    (g.deliverAll tr ws).peergen = g.peergen := by
  induction ws generalizing g with
  | nil => rfl
  | cons w ws ih => exact (ih _).trans (Group.deliver_peergen g tr w)
@[simp] theorem Group.deliverAll_mode (g : Group) (tr : Bool) (ws : List RegWrite) :
    (g.deliverAll tr ws).mode = g.mode := by
  induction ws generalizing g with
  | nil => rfl
  | cons w ws ih => exact (ih _).trans (Group.deliver_mode g tr w)
@[simp] theorem Group.deliverAll_depth (g : Group) (tr : Bool) (ws : List RegWrite) :
    (g.deliverAll tr ws).depth = g.depth := by
  induction ws generalizing g with
  | nil => rfl
  | cons w ws ih => exact (ih _).trans (Group.deliver_depth g tr w)
@[simp] theorem Group.deliverAll_pend (g : Group) (tr : Bool) (ws : List RegWrite) :
    (g.deliverAll tr ws).pend = g.pend := by
  induction ws generalizing g with
  | nil => rfl
  | cons w ws ih => exact (ih _).trans (Group.deliver_pend g tr w)
@[simp] theorem Group.deliverAll_hset (g : Group) (tr : Bool) (ws : List RegWrite) :
    (g.deliverAll tr ws).hset = g.hset := by
  induction ws generalizing g with
  | nil => rfl
  | cons w ws ih => exact (ih _).trans (Group.deliver_hset g tr w)
@[simp] theorem Group.deliverAll_sset (g : Group) (tr : Bool) (ws : List RegWrite) :
    (g.deliverAll tr ws).sset = g.sset := by
  induction ws generalizing g with
  | nil => rfl
  | cons w ws ih => exact (ih _).trans (Group.deliver_sset g tr w)
@[simp] theorem Group.deliverAll_hret (g : Group) (tr : Bool) (ws : List RegWrite) :
    (g.deliverAll tr ws).hret = g.hret := by
  induction ws generalizing g with
  | nil => rfl
  | cons w ws ih => exact (ih _).trans (Group.deliver_hret g tr w)
@[simp] theorem Group.deliverAll_firmware (g : Group) (tr : Bool) (ws : List RegWrite) :
    (g.deliverAll tr ws).firmware = g.firmware := by
  induction ws generalizing g with
  | nil => rfl
  | cons w ws ih => exact (ih _).trans (Group.deliver_firmware g tr w)
@[simp] theorem Group.deliverAll_wait (g : Group) (tr : Bool) (ws : List RegWrite) :
    (g.deliverAll tr ws).wait = g.wait := by
  induction ws generalizing g with
  | nil => rfl
  | cons w ws ih => exact (ih _).trans (Group.deliver_wait g tr w)
@[simp] theorem Group.deliverAll_prog (g : Group) (tr : Bool) (ws : List RegWrite) :
    (g.deliverAll tr ws).prog = g.prog := by
  induction ws generalizing g with
  | nil => rfl
  | cons w ws ih => exact (ih _).trans (Group.deliver_prog g tr w)
@[simp] theorem Group.deliverAll_calling (g : Group) (tr : Bool) (ws : List RegWrite) :
    (g.deliverAll tr ws).calling = g.calling := by
  induction ws generalizing g with
  | nil => rfl
  | cons w ws ih => exact (ih _).trans (Group.deliver_calling g tr w)
@[simp] theorem Group.deliverAll_folds (g : Group) (tr : Bool) (ws : List RegWrite) :
    (g.deliverAll tr ws).folds = g.folds := by
  induction ws generalizing g with
  | nil => rfl
  | cons w ws ih => exact (ih _).trans (Group.deliver_folds g tr w)
@[simp] theorem Group.deliverAll_gang (g : Group) (tr : Bool) (ws : List RegWrite) :
    (g.deliverAll tr ws).gang = g.gang := by
  induction ws generalizing g with
  | nil => rfl
  | cons w ws ih => exact (ih _).trans (Group.deliver_gang g tr w)
@[simp] theorem Group.deliverAll_halted (g : Group) (tr : Bool) (ws : List RegWrite) :
    (g.deliverAll tr ws).halted = g.halted := by
  induction ws generalizing g with
  | nil => rfl
  | cons w ws ih => exact (ih _).trans (Group.deliver_halted g tr w)
@[simp] theorem Group.deliverAll_stopped (g : Group) (tr : Bool) (ws : List RegWrite) :
    (g.deliverAll tr ws).stopped = g.stopped := by
  induction ws generalizing g with
  | nil => rfl
  | cons w ws ih => exact (ih _).trans (Group.deliver_stopped g tr w)
@[simp] theorem Group.deliverAll_pass (g : Group) (tr : Bool) (ws : List RegWrite) :
    (g.deliverAll tr ws).pass = g.pass := by
  induction ws generalizing g with
  | nil => rfl
  | cons w ws ih => exact (ih _).trans (Group.deliver_pass g tr w)
@[simp] theorem Group.deliverAll_lastsp (g : Group) (tr : Bool) (ws : List RegWrite) :
    (g.deliverAll tr ws).lastsp = g.lastsp := by
  induction ws generalizing g with
  | nil => rfl
  | cons w ws ih => exact (ih _).trans (Group.deliver_lastsp g tr w)
@[simp] theorem Group.deliverAll_steps (g : Group) (tr : Bool) (ws : List RegWrite) :
    (g.deliverAll tr ws).steps = g.steps := by
  induction ws generalizing g with
  | nil => rfl
  | cons w ws ih => exact (ih _).trans (Group.deliver_steps g tr w)
@[simp] theorem Group.deliverAll_line (g : Group) (tr : Bool) (ws : List RegWrite) :
    (g.deliverAll tr ws).line = g.line := by
  induction ws generalizing g with
  | nil => rfl
  | cons w ws ih => exact (ih _).trans (Group.deliver_line g tr w)
@[simp] theorem Group.deliverAll_created (g : Group) (tr : Bool) (ws : List RegWrite) :
    (g.deliverAll tr ws).created = g.created := by
  induction ws generalizing g with
  | nil => rfl
  | cons w ws ih => exact (ih _).trans (Group.deliver_created g tr w)
@[simp] theorem Group.deliverAll_sampled (g : Group) (tr : Bool) (ws : List RegWrite) :
    (g.deliverAll tr ws).sampled = g.sampled := by
  induction ws generalizing g with
  | nil => rfl
  | cons w ws ih => exact (ih _).trans (Group.deliver_sampled g tr w)

/-- What is delivered is in the bypass, new; what was there stays. -/
theorem Group.deliverAll_bypass (g : Group) (tr : Bool) (ws : List RegWrite) :
    (∀ w ∈ ws, ⟨w, 0⟩ ∈ (g.deliverAll tr ws).bypass) ∧ (∀ e ∈ g.bypass, e ∈ (g.deliverAll tr ws).bypass) := by
  unfold Group.deliverAll
  induction ws generalizing g with
  | nil => simp
  | cons w ws ih =>
    obtain ⟨h1, h2⟩ := ih (g.deliver tr w)
    refine ⟨?_, fun e he => h2 e (by simp [Group.deliver_bypass, he])⟩
    intro w' hw'
    rcases List.mem_cons.1 hw' with rfl | hw'
    · exact h2 _ (by simp [Group.deliver_bypass])
    · exact h1 _ hw'

end Sys2Proof.Machine
end

