-- ==== Sys2Proof/Laws/Issue.lean ====
section
/-! SUPPORT. What completing an instruction does, said once. -/

namespace Sys2Proof.Machine

/-- The group after an instruction has completed, before any delivery at `SW` (R156, R192, R193, R425). -/
def Group.completed (g : Group) (h : Hdr) (ord : Option Nat) (short : List RegWrite) (long : List LongOut)
    (next : Option Word64) (id : Nat) : Group :=
  { (g.results h (spordOf ord) g.pc short long id).countStep h ord with
    pc := (match next with | some a => a | none => nextSlot g.pc), prog := 0, wait := none, sampled := false,
    pass := .no }

/-- The machine after an instruction of a group has completed, but for the group. -/
def State.counted (s : State) (g : Group) (k : Nat) : State :=
  ({ s with nextId := s.nextId + k }).countIssue (g.core.getD 0)

/-- Nothing to deliver. -/
theorem State.deliver_nothing (s : State) (g : Group) (hp : g.pend = []) (hw : g.wait = none) :
    s.deliver g = s.setGroup g := by
  cases g
  simp only at hp hw
  subst hp hw
  rfl

/-- An instruction that leaves nothing to deliver: without `SW`, or with nothing outstanding. -/
theorem State.finish_eq (s : State) (g : Group) (h : Hdr) (short : List RegWrite) (long : List LongOut)
    (next : Option Word64) (hsw : h.sw = true → g.pend = [] ∧ long = []) :
    s.finish g h short long next none = (s.counted g long.length).setGroup
      (g.completed h (if h.st then s.ordinal g g.pc else none) short long next s.nextId) := by
  unfold State.finish
  cases hs : h.sw with
  | false => simp only [Bool.not_false, Bool.or_true, if_true]; rfl
  | true =>
    obtain ⟨h1, rfl⟩ := hsw hs
    have hc : ∀ (x : Group) ord, (x.countStep h ord).pend = x.pend := by
      intro x ord; unfold Group.countStep; split <;> (try split) <;> rfl
    have hp : ∀ id o pc, (g.results h o pc short [] id).pend = [] := by
      intro id o pc; simp [Group.results, h1]
    simp only [Option.isSome_none, Bool.not_true, Bool.false_or, Bool.false_eq_true, if_false]
    rw [if_pos (by simp [Group.allReturned, hc, hp])]
    rw [State.deliver_nothing _ _ (by simp [hc, hp]) rfl]
    rfl

theorem Group.countStep_keep (g : Group) (h : Hdr) (ord : Option Nat) :
    (g.countStep h ord) = { g with lastsp := (g.countStep h ord).lastsp, steps := (g.countStep h ord).steps } := by
  unfold Group.countStep; split <;> (try split) <;> rfl

/-- The writes of the undelivered results after an instruction: those before, then those of its long results. -/
theorem Group.results_pend (g : Group) (h : Hdr) (o : Word32) (pc : Word64) (short : List RegWrite) (long : List LongOut)
    (id : Nat) :
    (g.results h o pc short long id).pend.map (·.writes) = g.pend.map (·.writes) ++ long.map (·.writes) := by
  have : ∀ n, (long.zipIdx n).map (fun p => p.1.writes) = long.map (·.writes) := by
    induction long with
    | nil => simp
    | cons a as ih => intro n; simp [ih]
  simp [Group.results, Function.comp_def, this]

/-- What a completed instruction leaves of its group. -/
theorem Group.completed_spec (g : Group) (h : Hdr) (ord : Option Nat) (short : List RegWrite) (long : List LongOut)
    (next : Option Word64) (id : Nat) :
    ∃ ls st, g.completed h ord short long next id =
      { g.age.deliverAll h.tr short with
        pend := (g.results h (spordOf ord) g.pc short long id).pend, lastsp := ls, steps := st
        pc := (match next with | some a => a | none => nextSlot g.pc), prog := 0, wait := none, sampled := false,
        pass := .no } := by
  refine ⟨((g.results h (spordOf ord) g.pc short long id).countStep h ord).lastsp,
    ((g.results h (spordOf ord) g.pc short long id).countStep h ord).steps, ?_⟩
  unfold Group.completed
  rw [Group.countStep_keep]
  rfl

/-- A group that may issue a well-formed instruction runs its body. -/
theorem issue_eq {s : State} {g : Group} {i : Instr} {h : Hdr} {u : Bool} {body : Body} (hg : s.group? s.cur = some g)
    (hw : i.wellFormed = true) (hu : u = true → g.mode = .user) :
    issue s i h u body = .next (s.conclude g h (body s g)) := by
  have : (u && g.mode != .user) = false := by
    cases u
    · rfl
    · simp [hu rfl]
  simp [issue, hg, hw, this]

/-- A body that leaves the state and completes. -/
theorem conclude_ok {s : State} {g : Group} {h : Hdr} {d : Done} (hf : d.final = false) (hh : d.hold = false) :
    s.conclude g h (.ok d) = d.s.finish d.g h d.short d.long d.next d.wait d.touches := by
  simp [State.conclude, hf, hh]

/-! ## What the accesses of an instruction bring about -/

theorem State.addEvent_spec (s : State) (core i n : Nat) : ∃ cs, s.addEvent core i n = { s with cores := cs } :=
  ⟨_, rfl⟩

/-- What a lookup counts. -/
theorem State.lookUp_counts (s : State) (core : Nat) (walk : Bool) :
    ∃ cs, (if walk then s.addEvent core 3 1 else (s.addEvent core 3 1).addEvent core 4 1) = { s with cores := cs } := by
  obtain ⟨cs, h1⟩ := s.addEvent_spec core 3 1
  cases walk
  · obtain ⟨cs', h2⟩ := (s.addEvent core 3 1).addEvent_spec core 4 1
    exact ⟨cs', h2.trans (by rw [h1])⟩
  · exact ⟨cs, h1⟩

/-- Looking one address up touches the TLBs, the counters and the count of free values alone (R415, R424). -/
theorem State.lookUp_spec (s : State) (core part : Nat) (va : Word64) :
    ∃ cs ds n, s.lookUp core part va = { s with cores := cs, dies := ds, freeCtr := n } := by
  unfold State.lookUp
  split
  · exact ⟨s.cores, s.dies, s.freeCtr, rfl⟩
  · dsimp only
    obtain ⟨cs, h⟩ := s.lookUp_counts core (s.dieTlb core part va).isSome
    rw [h]
    split
    · exact ⟨cs, s.dies, s.freeCtr, rfl⟩
    · exact ⟨_, _, _, rfl⟩

theorem State.lookUpAll_spec (s : State) (g : Group) (vas : List Word64) :
    ∃ cs ds n, s.lookUpAll g vas = { s with cores := cs, dies := ds, freeCtr := n } := by
  unfold State.lookUpAll
  split
  · exact ⟨s.cores, s.dies, s.freeCtr, rfl⟩
  · rename_i c _
    induction vas generalizing s with
    | nil => exact ⟨s.cores, s.dies, s.freeCtr, rfl⟩
    | cons va rest ih =>
      obtain ⟨cs, ds, n, h1⟩ := s.lookUp_spec c (s.accessor g).part va
      obtain ⟨cs', ds', n', h2⟩ := ih (s.lookUp c (s.accessor g).part va)
      exact ⟨cs', ds', n', by rw [List.foldl_cons, h2, h1]⟩

/-- A hit changes debug state alone (R429, R434). -/
theorem State.hit_spec (s : State) (part : Nat) (r : HitRec) : ∃ ps, s.hit part r = { s with parts := ps } :=
  ⟨_, rfl⟩

/-- Hits of some accesses change debug state alone. -/
theorem State.watch_spec (s : State) (g : Group) (ts : List Touch) : ∃ ps, s.watch g ts = { s with parts := ps } := by
  have fold : ∀ (l : List Nat) (f : State → Nat → State), (∀ s i, ∃ ps, f s i = { s with parts := ps }) →
      ∀ s : State, ∃ ps, l.foldl f s = { s with parts := ps } := by
    intro l f hf
    induction l with
    | nil => exact fun s => ⟨s.parts, rfl⟩
    | cons i rest ih =>
      intro s
      obtain ⟨ps, h1⟩ := hf s i
      obtain ⟨qs, h2⟩ := ih (f s i)
      exact ⟨qs, by rw [List.foldl_cons, h2, h1]⟩
  unfold State.watch
  dsimp only
  split
  · refine fold _ _ (fun s i => ?_) s
    split
    · exact ⟨s.parts, rfl⟩
    · exact s.hit_spec _ _
  · exact ⟨s.parts, rfl⟩

/-- What the accesses of an instruction bring about beside its effect: TLBs, counters, hits (R415, R424, R428). -/
theorem State.accessed_spec (s : State) (g : Group) (ts : List Touch) :
    ∃ cs ds ps n, s.accessed g ts = { s with cores := cs, dies := ds, parts := ps, freeCtr := n } := by
  unfold State.accessed
  split
  · exact ⟨s.cores, s.dies, s.parts, s.freeCtr, rfl⟩
  · obtain ⟨cs, ds, n, h1⟩ := s.lookUpAll_spec g (ts.map (fun t => t.va))
    obtain ⟨ps, h2⟩ := (s.lookUpAll g (ts.map (fun t => t.va))).watch_spec g ts
    exact ⟨cs, ds, ps, n, by rw [h2, h1]⟩

end Sys2Proof.Machine
end

