-- ==== Sys2Proof/Laws/Memory.lean ====
section
/-! SUPPORT. The laws of memory: the canonical form, which every memory operation keeps, and what a byte reads as after
a write. -/

namespace Sys2Proof.Machine

/-! ## The canonical form -/

/-- The canonical form as two conditions on the list. -/
theorem Memory.wf_iff (m : List Host.Cell) :
    Memory.wf m = true ↔ (∀ c ∈ m, c.2 ≠ 0) ∧ m.Pairwise (fun c d => c.1 < d.1) := by
  induction m using Memory.wf.induct with
  | case1 => simp [Memory.wf]
  | case2 c => simp [Memory.wf]
  | case3 c d cs ih =>
    rw [Memory.wf]
    simp only [Bool.and_eq_true, bne_iff_ne, decide_eq_true_eq, ih, List.pairwise_cons, List.forall_mem_cons]
    have later : c.1 < d.1 → (∀ e ∈ cs, d.1 < e.1) → ∀ e ∈ cs, c.1 < e.1 := fun h k e he => Nat.lt_trans h (k e he)
    tauto

theorem Memory.wf_nil : Memory.wf [] = true := rfl

/-- A part of a canonical memory is canonical. -/
theorem Memory.wf_sublist {m n : List Host.Cell} (h : Memory.wf n = true) (hs : m.Sublist n) :
    Memory.wf m = true := by
  rw [Memory.wf_iff] at *
  exact ⟨fun c hc => h.1 c (hs.subset hc), h.2.sublist hs⟩

theorem Memory.wf_filter {m : List Host.Cell} (p : Host.Cell → Bool) (h : Memory.wf m = true) :
    Memory.wf (m.filter p) = true :=
  Memory.wf_sublist h List.filter_sublist

/-- Cells below a bound before cells from the bound on. -/
theorem Memory.wf_append {m n : List Host.Cell} (b : Nat) (hm : Memory.wf m = true) (hn : Memory.wf n = true)
    (h1 : ∀ c ∈ m, c.1 < b) (h2 : ∀ c ∈ n, b ≤ c.1) : Memory.wf (m ++ n) = true := by
  rw [Memory.wf_iff] at *
  refine ⟨?_, List.pairwise_append.2 ⟨hm.2, hn.2, fun c hc d hd => Nat.lt_of_lt_of_le (h1 c hc) (h2 d hd)⟩⟩
  intro c hc
  rcases List.mem_append.1 hc with h | h
  exacts [hm.1 c h, hn.1 c h]

/-- The cells of some bytes are canonical and lie where the bytes go. -/
theorem Memory.cells_spec (a : Nat) (bs : List Byte) :
    Memory.wf (Memory.cells a bs) = true ∧ ∀ c ∈ Memory.cells a bs, a ≤ c.1 ∧ c.1 < a + bs.length := by
  induction bs generalizing a with
  | nil => simp [Memory.cells, Memory.wf]
  | cons b bs ih =>
    obtain ⟨hw, hr⟩ := ih (a + 1)
    have hr' : ∀ c ∈ Memory.cells (a + 1) bs, a ≤ c.1 ∧ c.1 < a + (b :: bs).length := by
      intro c hc
      have := hr c hc
      simp only [List.length_cons]
      omega
    unfold Memory.cells
    split
    · exact ⟨hw, hr'⟩
    · next hb =>
      refine ⟨?_, ?_⟩
      · exact Memory.wf_append (m := [(a, b)]) (a + 1) (by simpa [Memory.wf] using hb) hw (by simp) (fun c hc => (hr c hc).1)
      · intro c hc
        rcases List.mem_cons.1 hc with rfl | h
        · simp
        · exact hr' c h

/-- In a canonical memory, the cells that are not below a bound are those from it on. -/
theorem Memory.dropWhile_ge {m : List Host.Cell} (h : m.Pairwise (fun c d => c.1 < d.1)) (b : Nat) :
    ∀ c ∈ m.dropWhile (fun c => c.1 < b), b ≤ c.1 := by
  induction m with
  | nil => simp
  | cons d ds ih =>
    rw [List.dropWhile_cons]
    split
    · exact ih h.of_cons
    · next hd =>
      intro c hc
      simp only [decide_eq_true_eq, Nat.not_lt] at hd
      rcases List.mem_cons.1 hc with rfl | hc
      · exact hd
      · exact Nat.le_of_lt (Nat.lt_of_le_of_lt hd ((List.pairwise_cons.1 h).1 c hc))

/-- A write keeps the canonical form. -/
theorem Memory.write_wf {m : List Host.Cell} (h : Memory.wf m = true) (a : Nat) (bs : List Byte) :
    Memory.wf (Memory.write m a bs) = true := by
  have hp := ((Memory.wf_iff m).1 h).2
  obtain ⟨hw, hr⟩ := Memory.cells_spec a bs
  have h3 : Memory.wf ((m.dropWhile (fun c => c.1 < a)).dropWhile (fun c => c.1 < a + bs.length)) = true :=
    Memory.wf_sublist h ((List.dropWhile_sublist _).trans (List.dropWhile_sublist _))
  have h1 : Memory.wf (m.takeWhile (fun c => c.1 < a)) = true := Memory.wf_sublist h (List.takeWhile_sublist _)
  have b1 : ∀ c ∈ m.takeWhile (fun c => c.1 < a), c.1 < a := fun c hc => by simpa using List.mem_takeWhile_imp hc
  have b3 : ∀ c ∈ (m.dropWhile (fun c => c.1 < a)).dropWhile (fun c => c.1 < a + bs.length), a + bs.length ≤ c.1 :=
    Memory.dropWhile_ge (hp.sublist (List.dropWhile_sublist _)) _
  unfold Memory.write
  refine Memory.wf_append (a + bs.length) (Memory.wf_append a h1 hw b1 (fun c hc => (hr c hc).1)) h3 ?_ b3
  intro c hc
  rcases List.mem_append.1 hc with hc | hc
  · exact Nat.lt_of_lt_of_le (b1 c hc) (Nat.le_add_right _ _)
  · exact (hr c hc).2

/-! ## Reading -/

/-- A location that no cell lists reads as 0. -/
theorem Memory.read_absent {m : List Host.Cell} {a : Nat} (h : ∀ c ∈ m, c.1 ≠ a) : Memory.read m a = 0 := by
  induction m with
  | nil => rfl
  | cons c cs ih =>
    simp only [List.forall_mem_cons] at h
    simp only [Memory.read, if_neg h.1]
    split
    · rfl
    · exact ih h.2

/-- A listed location reads as its byte. -/
theorem Memory.read_mem {m : List Host.Cell} {a : Nat} {b : Byte} (h : m.Pairwise (fun c d => c.1 < d.1))
    (hm : (a, b) ∈ m) : Memory.read m a = b := by
  induction m with
  | nil => simp at hm
  | cons c cs ih =>
    rcases List.mem_cons.1 hm with rfl | hm
    · simp [Memory.read]
    · have hlt := (List.pairwise_cons.1 h).1 _ hm
      simp only at hlt
      simp only [Memory.read, if_neg (Nat.ne_of_lt hlt), if_neg (Nat.not_lt.2 (Nat.le_of_lt hlt))]
      exact ih h.of_cons hm

/-- Two canonical memories that list the same cells at a location read the same there. -/
theorem Memory.read_congr {m n : List Host.Cell} {a : Nat} (hm : m.Pairwise (fun c d => c.1 < d.1))
    (hn : n.Pairwise (fun c d => c.1 < d.1)) (h : ∀ b, (a, b) ∈ m ↔ (a, b) ∈ n) : Memory.read m a = Memory.read n a := by
  by_cases hc : ∃ b, (a, b) ∈ m
  · obtain ⟨b, hb⟩ := hc
    rw [Memory.read_mem hm hb, Memory.read_mem hn ((h b).1 hb)]
  · have h1 : ∀ c ∈ m, c.1 ≠ a := fun c hcm hca => hc ⟨c.2, by rw [← hca]; exact hcm⟩
    have h2 : ∀ c ∈ n, c.1 ≠ a := fun c hcn hca => hc ⟨c.2, (h c.2).2 (by rw [← hca]; exact hcn)⟩
    rw [Memory.read_absent h1, Memory.read_absent h2]

theorem Memory.mem_cells (a : Nat) (bs : List Byte) (x : Nat) (v : Byte) :
    (x, v) ∈ Memory.cells a bs ↔ a ≤ x ∧ x < a + bs.length ∧ bs.getD (x - a) 0 = v ∧ v ≠ 0 := by
  induction bs generalizing a with
  | nil => simp [Memory.cells]; omega
  | cons b bs ih =>
    unfold Memory.cells
    rcases Nat.lt_trichotomy x a with hx | hx | hx
    · have : ¬ a ≤ x := by omega
      split <;> simp [ih, Prod.ext_iff] <;> omega
    · subst hx
      split
      · next hb =>
        simp only [ih]
        constructor
        · rintro ⟨h, -⟩; omega
        · rintro ⟨-, -, h, h0⟩
          exact absurd (by simpa [hb] using h.symm) h0
      · next hb =>
        simp [ih, Prod.ext_iff]
        constructor
        · rintro rfl; exact ⟨rfl, hb⟩
        · rintro ⟨rfl, -⟩; rfl
    · have hxa : x - a = (x - (a + 1)) + 1 := by omega
      have hlen : (b :: bs).length = bs.length + 1 := rfl
      split
      · simp only [ih, hxa, List.getD_cons_succ, hlen]
        constructor <;> rintro ⟨h1, h2, h3⟩ <;> exact ⟨by omega, by omega, h3⟩
      · simp only [List.mem_cons, ih, hxa, List.getD_cons_succ, hlen, Prod.mk.injEq]
        constructor
        · rintro (⟨h, -⟩ | ⟨h1, h2, h3⟩)
          · omega
          · exact ⟨by omega, by omega, h3⟩
        · rintro ⟨h1, h2, h3⟩
          exact .inr ⟨by omega, by omega, h3⟩

/-- The cells that stay at or after the end of a written range. -/
theorem Memory.mem_dropWhile {m : List Host.Cell} (h : m.Pairwise (fun c d => c.1 < d.1)) (b : Nat) (c : Host.Cell) :
    c ∈ m.dropWhile (fun c => c.1 < b) ↔ c ∈ m ∧ b ≤ c.1 := by
  induction m with
  | nil => simp
  | cons d ds ih =>
    rw [List.dropWhile_cons]
    split
    · next hd =>
      simp only [decide_eq_true_eq] at hd
      rw [ih h.of_cons, List.mem_cons]
      constructor
      · rintro ⟨h1, h2⟩; exact ⟨.inr h1, h2⟩
      · rintro ⟨rfl | h1, h2⟩
        · omega
        · exact ⟨h1, h2⟩
    · next hd =>
      simp only [decide_eq_true_eq, Nat.not_lt] at hd
      constructor
      · intro hc
        refine ⟨hc, ?_⟩
        rcases List.mem_cons.1 hc with rfl | hc
        · exact hd
        · exact Nat.le_of_lt (Nat.lt_of_le_of_lt hd ((List.pairwise_cons.1 h).1 c hc))
      · exact fun hc => hc.1

theorem Memory.mem_takeWhile {m : List Host.Cell} (h : m.Pairwise (fun c d => c.1 < d.1)) (b : Nat) (c : Host.Cell) :
    c ∈ m.takeWhile (fun c => c.1 < b) ↔ c ∈ m ∧ c.1 < b := by
  induction m with
  | nil => simp
  | cons d ds ih =>
    rw [List.takeWhile_cons]
    split
    · next hd =>
      simp only [decide_eq_true_eq] at hd
      rw [List.mem_cons, ih h.of_cons, List.mem_cons]
      constructor
      · rintro (rfl | ⟨h1, h2⟩)
        · exact ⟨.inl rfl, hd⟩
        · exact ⟨.inr h1, h2⟩
      · rintro ⟨rfl | h1, h2⟩
        · exact .inl rfl
        · exact .inr ⟨h1, h2⟩
    · next hd =>
      simp only [decide_eq_true_eq, Nat.not_lt] at hd
      constructor
      · simp
      · rintro ⟨hc, hb⟩
        rcases List.mem_cons.1 hc with rfl | hc
        · omega
        · have := (List.pairwise_cons.1 h).1 c hc
          omega

/-- What a location reads as after a write: the byte written there, or what it read as before. -/
theorem Memory.read_write {m : List Host.Cell} (h : Memory.wf m = true) (a : Nat) (bs : List Byte) (x : Nat) :
    Memory.read (Memory.write m a bs) x =
      if a ≤ x ∧ x < a + bs.length then bs.getD (x - a) 0 else Memory.read m x := by
  have hp := ((Memory.wf_iff m).1 h).2
  have hw := ((Memory.wf_iff _).1 (Memory.write_wf h a bs)).2
  have hmem : ∀ v, (x, v) ∈ Memory.write m a bs ↔
      ((x, v) ∈ m ∧ x < a) ∨ (a ≤ x ∧ x < a + bs.length ∧ bs.getD (x - a) 0 = v ∧ v ≠ 0) ∨
        ((x, v) ∈ m ∧ a ≤ x ∧ a + bs.length ≤ x) := by
    intro v
    simp only [Memory.write, List.mem_append, Memory.mem_takeWhile hp,
      Memory.mem_dropWhile (hp.sublist (List.dropWhile_sublist _)), Memory.mem_dropWhile hp, Memory.mem_cells,
      or_assoc, and_assoc]
  split
  · next hx =>
    obtain ⟨h1, h2⟩ := hx
    by_cases hv : bs.getD (x - a) 0 = 0
    · rw [hv]
      apply Memory.read_absent
      rintro ⟨y, v⟩ hc rfl
      rcases (hmem v).1 hc with ⟨-, h3⟩ | ⟨-, -, h3, h4⟩ | ⟨-, -, h3⟩
      · simp only at *; omega
      · exact h4 (h3 ▸ hv)
      · simp only at *; omega
    · exact Memory.read_mem hw ((hmem _).2 (.inr (.inl ⟨h1, h2, rfl, hv⟩)))
  · next hx =>
    apply Memory.read_congr hw hp
    intro v
    rw [hmem]
    constructor
    · rintro (⟨h1, -⟩ | ⟨h1, h2, -⟩ | ⟨h1, -, -⟩)
      · exact h1
      · exact absurd ⟨h1, h2⟩ hx
      · exact h1
    · intro hm
      by_cases hxa : x < a
      · exact .inl ⟨hm, hxa⟩
      · exact .inr (.inr ⟨hm, by omega, by omega⟩)

/-! ## Rising lists of numbers -/

/-- A rising list of numbers. -/
def rising (l : List Nat) : Prop :=
  l.Pairwise (· < ·)

theorem rising_filter {l : List Nat} (p : Nat → Bool) (h : rising l) : rising (l.filter p) :=
  h.filter p

theorem rising_removeNat {l : List Nat} (a : Nat) (h : rising l) : rising (removeNat a l) :=
  h.filter _

/-- Inserting into a rising list keeps it rising. -/
theorem rising_insertNat {l : List Nat} (a : Nat) (h : rising l) : rising (insertNat a l) := by
  unfold rising insertNat at *
  have hd : ∀ x ∈ l.dropWhile (· < a), a ≤ x := by
    induction l with
    | nil => simp
    | cons d ds ih =>
      rw [List.dropWhile_cons]
      split
      · exact ih h.of_cons
      · next hda =>
        simp only [decide_eq_true_eq, Nat.not_lt] at hda
        intro x hx
        rcases List.mem_cons.1 hx with rfl | hx
        · exact hda
        · exact Nat.le_of_lt (Nat.lt_of_le_of_lt hda ((List.pairwise_cons.1 h).1 x hx))
  have hr : (l.dropWhile (· < a)).Pairwise (· < ·) := h.sublist (List.dropWhile_sublist _)
  have hd2 : ∀ x ∈ (l.dropWhile (· < a)).dropWhile (· == a), a < x := by
    revert hd hr
    generalize l.dropWhile (· < a) = k
    intro hd hr
    induction k with
    | nil => simp
    | cons d ds ih =>
      rw [List.dropWhile_cons]
      split
      · exact ih (fun x hx => hd x (List.mem_cons_of_mem _ hx)) hr.of_cons
      · next hda =>
        simp only [beq_iff_eq] at hda
        have h0 := hd d List.mem_cons_self
        intro x hx
        rcases List.mem_cons.1 hx with rfl | hx
        · omega
        · have := (List.pairwise_cons.1 hr).1 x hx
          omega
  refine List.pairwise_append.2 ⟨h.sublist (List.takeWhile_sublist _), List.pairwise_cons.2 ⟨hd2, hr.sublist
    (List.dropWhile_sublist _)⟩, ?_⟩
  intro x hx y hy
  have hxa : x < a := by simpa using List.mem_takeWhile_imp hx
  rcases List.mem_cons.1 hy with rfl | hy
  · exact hxa
  · exact Nat.lt_trans hxa (hd2 y hy)

/-! ## The state -/

/-- What a byte reads as after a write to the state. -/
theorem State.read8_write {s : State} (h : Memory.wf s.mem = true) (loc : Nat) (bs : List Byte) (x : Nat) :
    (s.write loc bs).read8 x = if loc ≤ x ∧ x < loc + bs.length then bs.getD (x - loc) 0 else s.read8 x :=
  Memory.read_write h loc bs x

end Sys2Proof.Machine
end

