-- ==== Sys2Proof/Laws/PerInstr.lean ====
section
/-! SUPPORT. Per-instruction laws. `RoundTrip`: the decoder reads the word of a well-formed instruction as that
instruction. -/

section

set_option Elab.async false
set_option linter.unusedSimpArgs false

namespace Sys2Proof.Laws.RoundTrip

/-- Decoding the word of a well-formed instruction gives it back. -/
def Statement (i : Instr) : Prop :=
  i.wellFormed = true → ∀ w, encode i = some w → decode w = .ok i

/-- It is enough that the fields of the word read as the instruction. -/
theorem of_fields {i : Instr} {w : BitVec 96} (he : encode i = some w) (hf : decodeFields w = .ok i) : Statement i := by
  intro hw w' hw'
  rw [he] at hw'
  cases hw'
  simp [decode, hf, hw, need, bind, Except.bind]

theorem iadd (h : Hdr) (sat : Bool) (ty : ITy) (d a b : Opd) : Statement (.iadd h sat ty d a b) := by
  refine of_fields rfl ?_
  simp [decodeFields, decodeA, encSat, encA, aPlain, decA3s, need, need0, bind, Except.bind, bit1_inj]

theorem iaddImm (h : Hdr) (sat : Bool) (ty : ITy) (d a : Opd) (imm : BitVec 38) : Statement (.iaddImm h sat ty d a imm) := by
  refine of_fields rfl ?_
  simp [decodeFields, decodeI, encSatI, encI, decI2s, iPlain, need, need0, bind, Except.bind, bit1_inj]

theorem isub (h : Hdr) (sat : Bool) (ty : ITy) (d a b : Opd) : Statement (.isub h sat ty d a b) := by
  refine of_fields rfl ?_
  simp [decodeFields, decodeA, encSat, encA, aPlain, decA3s, need, need0, bind, Except.bind, bit1_inj]

theorem isubImm (h : Hdr) (sat : Bool) (ty : ITy) (d a : Opd) (imm : BitVec 38) : Statement (.isubImm h sat ty d a imm) := by
  refine of_fields rfl ?_
  simp [decodeFields, decodeI, encSatI, encI, decI2s, iPlain, need, need0, bind, Except.bind, bit1_inj]

theorem imul (h : Hdr) (sat : Bool) (ty : ITy) (d a b : Opd) : Statement (.imul h sat ty d a b) := by
  refine of_fields rfl ?_
  simp [decodeFields, decodeA, encSat, encA, aPlain, decA3s, need, need0, bind, Except.bind, bit1_inj]

theorem imulImm (h : Hdr) (sat : Bool) (ty : ITy) (d a : Opd) (imm : BitVec 38) : Statement (.imulImm h sat ty d a imm) := by
  refine of_fields rfl ?_
  simp [decodeFields, decodeI, encSatI, encI, decI2s, iPlain, need, need0, bind, Except.bind, bit1_inj]

theorem imulh (h : Hdr) (ty : ITy) (d a b : Opd) : Statement (.imulh h ty d a b) := by
  refine of_fields rfl ?_
  simp [decodeFields, decodeA, encInt, encA, aPlain, decA3, need, need0, bind, Except.bind, bit1_inj]

theorem imad (h : Hdr) (sat : Bool) (ty : ITy) (d a b c : Opd) : Statement (.imad h sat ty d a b c) := by
  refine of_fields rfl ?_
  simp [decodeFields, decodeA, encSat, encA, aPlain, need, need0, bind, Except.bind, bit1_inj]

theorem imin (h : Hdr) (ty : ITy) (d a b : Opd) : Statement (.imin h ty d a b) := by
  refine of_fields rfl ?_
  simp [decodeFields, decodeA, encInt, encA, aPlain, decA3, need, need0, bind, Except.bind, bit1_inj]

theorem iminImm (h : Hdr) (ty : ITy) (d a : Opd) (imm : BitVec 38) : Statement (.iminImm h ty d a imm) := by
  refine of_fields rfl ?_
  simp [decodeFields, decodeI, encIntI, encI, decI2, iPlain, need, need0, bind, Except.bind, bit1_inj]

theorem imax (h : Hdr) (ty : ITy) (d a b : Opd) : Statement (.imax h ty d a b) := by
  refine of_fields rfl ?_
  simp [decodeFields, decodeA, encInt, encA, aPlain, decA3, need, need0, bind, Except.bind, bit1_inj]

theorem imaxImm (h : Hdr) (ty : ITy) (d a : Opd) (imm : BitVec 38) : Statement (.imaxImm h ty d a imm) := by
  refine of_fields rfl ?_
  simp [decodeFields, decodeI, encIntI, encI, decI2, iPlain, need, need0, bind, Except.bind, bit1_inj]

theorem iabs (h : Hdr) (sat : Bool) (ty : ITy) (d a : Opd) : Statement (.iabs h sat ty d a) := by
  refine of_fields rfl ?_
  simp [decodeFields, decodeA, encSat, encA, aPlain, decA2s, need, need0, bind, Except.bind, bit1_inj]

theorem ineg (h : Hdr) (sat : Bool) (ty : ITy) (d a : Opd) : Statement (.ineg h sat ty d a) := by
  refine of_fields rfl ?_
  simp [decodeFields, decodeA, encSat, encA, aPlain, decA2s, need, need0, bind, Except.bind, bit1_inj]

theorem iaddc (h : Hdr) (ty : ITy) (d a b c : Opd) : Statement (.iaddc h ty d a b c) := by
  refine of_fields rfl ?_
  simp [decodeFields, decodeA, encInt, encA, aPlain, decA4, need, need0, bind, Except.bind, bit1_inj]

theorem icmp (h : Hdr) (rel : ICmp) (ty : ITy) (d a b : Opd) : Statement (.icmp h rel ty d a b) := by
  refine of_fields rfl ?_
  simp [decodeFields, decodeA, encA, aPlain, need, need0, bind, Except.bind, bit1_inj]

theorem icmpImm (h : Hdr) (rel : ICmp) (ty : ITy) (d a : Opd) (imm : BitVec 38) : Statement (.icmpImm h rel ty d a imm) := by
  refine of_fields rfl ?_
  simp [decodeFields, decodeI, encI, iPlain, need, need0, bind, Except.bind, bit1_inj]

theorem sel (h : Hdr) (ty : ITy) (d a b c : Opd) : Statement (.sel h ty d a b c) := by
  refine of_fields rfl ?_
  simp [decodeFields, decodeA, encInt, encA, aPlain, decA4, need, need0, bind, Except.bind, bit1_inj]

theorem lea (h : Hdr) (ty : ITy) (sh : BitVec 4) (d a b : Opd) : Statement (.lea h ty sh d a b) := by
  refine of_fields rfl ?_
  simp [decodeFields, decodeA, encA, aPlain, need, need0, bind, Except.bind, bit1_inj]

theorem leaImm (h : Hdr) (ty : ITy) (d a : Opd) (imm : BitVec 38) : Statement (.leaImm h ty d a imm) := by
  refine of_fields rfl ?_
  simp [decodeFields, decodeI, encIntI, encI, decI2, iPlain, need, need0, bind, Except.bind, bit1_inj]

theorem clz (h : Hdr) (ty : ITy) (d a : Opd) : Statement (.clz h ty d a) := by
  refine of_fields rfl ?_
  simp [decodeFields, decodeA, encInt, encA, aPlain, decA2, need, need0, bind, Except.bind, bit1_inj]

theorem popc (h : Hdr) (ty : ITy) (d a : Opd) : Statement (.popc h ty d a) := by
  refine of_fields rfl ?_
  simp [decodeFields, decodeA, encInt, encA, aPlain, decA2, need, need0, bind, Except.bind, bit1_inj]

theorem and (h : Hdr) (ty : ITy) (d a b : Opd) : Statement (.and h ty d a b) := by
  refine of_fields rfl ?_
  simp [decodeFields, decodeA, encInt, encA, aPlain, decA3, need, need0, bind, Except.bind, bit1_inj]

theorem andImm (h : Hdr) (ty : ITy) (d a : Opd) (imm : BitVec 38) : Statement (.andImm h ty d a imm) := by
  refine of_fields rfl ?_
  simp [decodeFields, decodeI, encIntI, encI, decI2, iPlain, need, need0, bind, Except.bind, bit1_inj]

theorem or (h : Hdr) (ty : ITy) (d a b : Opd) : Statement (.or h ty d a b) := by
  refine of_fields rfl ?_
  simp [decodeFields, decodeA, encInt, encA, aPlain, decA3, need, need0, bind, Except.bind, bit1_inj]

theorem orImm (h : Hdr) (ty : ITy) (d a : Opd) (imm : BitVec 38) : Statement (.orImm h ty d a imm) := by
  refine of_fields rfl ?_
  simp [decodeFields, decodeI, encIntI, encI, decI2, iPlain, need, need0, bind, Except.bind, bit1_inj]

theorem xor (h : Hdr) (ty : ITy) (d a b : Opd) : Statement (.xor h ty d a b) := by
  refine of_fields rfl ?_
  simp [decodeFields, decodeA, encInt, encA, aPlain, decA3, need, need0, bind, Except.bind, bit1_inj]

theorem xorImm (h : Hdr) (ty : ITy) (d a : Opd) (imm : BitVec 38) : Statement (.xorImm h ty d a imm) := by
  refine of_fields rfl ?_
  simp [decodeFields, decodeI, encIntI, encI, decI2, iPlain, need, need0, bind, Except.bind, bit1_inj]

theorem andn (h : Hdr) (ty : ITy) (d a b : Opd) : Statement (.andn h ty d a b) := by
  refine of_fields rfl ?_
  simp [decodeFields, decodeA, encInt, encA, aPlain, decA3, need, need0, bind, Except.bind, bit1_inj]

theorem andnImm (h : Hdr) (ty : ITy) (d a : Opd) (imm : BitVec 38) : Statement (.andnImm h ty d a imm) := by
  refine of_fields rfl ?_
  simp [decodeFields, decodeI, encIntI, encI, decI2, iPlain, need, need0, bind, Except.bind, bit1_inj]

theorem not (h : Hdr) (ty : ITy) (d a : Opd) : Statement (.not h ty d a) := by
  refine of_fields rfl ?_
  simp [decodeFields, decodeA, encInt, encA, aPlain, decA2, need, need0, bind, Except.bind, bit1_inj]

theorem shl (h : Hdr) (ty : ITy) (d a b : Opd) : Statement (.shl h ty d a b) := by
  refine of_fields rfl ?_
  simp [decodeFields, decodeA, encInt, encA, aPlain, decA3, need, need0, bind, Except.bind, bit1_inj]

theorem shlImm (h : Hdr) (ty : ITy) (d a : Opd) (imm : BitVec 38) : Statement (.shlImm h ty d a imm) := by
  refine of_fields rfl ?_
  simp [decodeFields, decodeI, encIntI, encI, decI2, iPlain, need, need0, bind, Except.bind, bit1_inj]

theorem shr (h : Hdr) (ty : ITy) (d a b : Opd) : Statement (.shr h ty d a b) := by
  refine of_fields rfl ?_
  simp [decodeFields, decodeA, encInt, encA, aPlain, decA3, need, need0, bind, Except.bind, bit1_inj]

theorem shrImm (h : Hdr) (ty : ITy) (d a : Opd) (imm : BitVec 38) : Statement (.shrImm h ty d a imm) := by
  refine of_fields rfl ?_
  simp [decodeFields, decodeI, encIntI, encI, decI2, iPlain, need, need0, bind, Except.bind, bit1_inj]

theorem sar (h : Hdr) (ty : ITy) (d a b : Opd) : Statement (.sar h ty d a b) := by
  refine of_fields rfl ?_
  simp [decodeFields, decodeA, encInt, encA, aPlain, decA3, need, need0, bind, Except.bind, bit1_inj]

theorem sarImm (h : Hdr) (ty : ITy) (d a : Opd) (imm : BitVec 38) : Statement (.sarImm h ty d a imm) := by
  refine of_fields rfl ?_
  simp [decodeFields, decodeI, encIntI, encI, decI2, iPlain, need, need0, bind, Except.bind, bit1_inj]

theorem rotl (h : Hdr) (ty : ITy) (d a b : Opd) : Statement (.rotl h ty d a b) := by
  refine of_fields rfl ?_
  simp [decodeFields, decodeA, encInt, encA, aPlain, decA3, need, need0, bind, Except.bind, bit1_inj]

theorem rotlImm (h : Hdr) (ty : ITy) (d a : Opd) (imm : BitVec 38) : Statement (.rotlImm h ty d a imm) := by
  refine of_fields rfl ?_
  simp [decodeFields, decodeI, encIntI, encI, decI2, iPlain, need, need0, bind, Except.bind, bit1_inj]

theorem brev (h : Hdr) (ty : ITy) (d a : Opd) : Statement (.brev h ty d a) := by
  refine of_fields rfl ?_
  simp [decodeFields, decodeA, encInt, encA, aPlain, decA2, need, need0, bind, Except.bind, bit1_inj]

theorem bfx (h : Hdr) (ty : ITy) (d a b : Opd) : Statement (.bfx h ty d a b) := by
  refine of_fields rfl ?_
  simp [decodeFields, decodeA, encInt, encA, aPlain, decA3, need, need0, bind, Except.bind, bit1_inj]

theorem bfxImm (h : Hdr) (ty : ITy) (d a : Opd) (imm : BitVec 38) : Statement (.bfxImm h ty d a imm) := by
  refine of_fields rfl ?_
  simp [decodeFields, decodeI, encIntI, encI, decI2, iPlain, need, need0, bind, Except.bind, bit1_inj]

theorem bfi (h : Hdr) (ty : ITy) (d a b c : Opd) : Statement (.bfi h ty d a b c) := by
  refine of_fields rfl ?_
  simp [decodeFields, decodeA, encInt, encA, aPlain, decA4, need, need0, bind, Except.bind, bit1_inj]

theorem mov (h : Hdr) (ty : ITy) (d a : Opd) : Statement (.mov h ty d a) := by
  refine of_fields rfl ?_
  simp [decodeFields, decodeA, encInt, encA, aPlain, decA2, need, need0, bind, Except.bind, bit1_inj]

theorem movi (h : Hdr) (ty : ITy) (d : Opd) (imm : BitVec 38) : Statement (.movi h ty d imm) := by
  refine of_fields rfl ?_
  simp [decodeFields, decodeI, encI, iPlain, need, need0, bind, Except.bind, bit1_inj]

theorem bcast (h : Hdr) (ty : ITy) (d a : Opd) : Statement (.bcast h ty d a) := by
  refine of_fields rfl ?_
  simp [decodeFields, decodeA, encInt, encA, aPlain, decA2, need, need0, bind, Except.bind, bit1_inj]

theorem laneget (h : Hdr) (ty : ITy) (d a b : Opd) : Statement (.laneget h ty d a b) := by
  refine of_fields rfl ?_
  simp [decodeFields, decodeA, encInt, encA, aPlain, decA3, need, need0, bind, Except.bind, bit1_inj]

theorem fadd (h : Hdr) (ty : FTy) (rm : Rm) (ftz : Bool) (d a b : Opd) : Statement (.fadd h ty rm ftz d a b) := by
  refine of_fields rfl ?_
  simp [decodeFields, decodeA, encFlt, encA, decF3, need, need0, bind, Except.bind, bit1_inj]

theorem faddImm (h : Hdr) (ty : FTy) (rm : Rm) (ftz : Bool) (d a : Opd) (imm : BitVec 38) : Statement (.faddImm h ty rm ftz d a imm) := by
  refine of_fields rfl ?_
  simp [decodeFields, decodeI, encFltI, encI, decIf, need, need0, bind, Except.bind, bit1_inj]

theorem fsub (h : Hdr) (ty : FTy) (rm : Rm) (ftz : Bool) (d a b : Opd) : Statement (.fsub h ty rm ftz d a b) := by
  refine of_fields rfl ?_
  simp [decodeFields, decodeA, encFlt, encA, decF3, need, need0, bind, Except.bind, bit1_inj]

theorem fsubImm (h : Hdr) (ty : FTy) (rm : Rm) (ftz : Bool) (d a : Opd) (imm : BitVec 38) : Statement (.fsubImm h ty rm ftz d a imm) := by
  refine of_fields rfl ?_
  simp [decodeFields, decodeI, encFltI, encI, decIf, need, need0, bind, Except.bind, bit1_inj]

theorem fmul (h : Hdr) (ty : FTy) (rm : Rm) (ftz : Bool) (d a b : Opd) : Statement (.fmul h ty rm ftz d a b) := by
  refine of_fields rfl ?_
  simp [decodeFields, decodeA, encFlt, encA, decF3, need, need0, bind, Except.bind, bit1_inj]

theorem fmulImm (h : Hdr) (ty : FTy) (rm : Rm) (ftz : Bool) (d a : Opd) (imm : BitVec 38) : Statement (.fmulImm h ty rm ftz d a imm) := by
  refine of_fields rfl ?_
  simp [decodeFields, decodeI, encFltI, encI, decIf, need, need0, bind, Except.bind, bit1_inj]

theorem ffma (h : Hdr) (ty : FTy) (rm : Rm) (ftz : Bool) (d a b c : Opd) : Statement (.ffma h ty rm ftz d a b c) := by
  refine of_fields rfl ?_
  simp [decodeFields, decodeA, encFlt, encA, need, need0, bind, Except.bind, bit1_inj]

theorem fmin (h : Hdr) (ty : FTy) (ftz : Bool) (d a b : Opd) : Statement (.fmin h ty ftz d a b) := by
  refine of_fields rfl ?_
  simp [decodeFields, decodeA, encFlt, encA, decFm, need, need0, bind, Except.bind, bit1_inj, Rm.code]

theorem fminImm (h : Hdr) (ty : FTy) (ftz : Bool) (d a : Opd) (imm : BitVec 38) : Statement (.fminImm h ty ftz d a imm) := by
  refine of_fields rfl ?_
  simp [decodeFields, decodeI, encFltI, encI, decIm, need, need0, bind, Except.bind, bit1_inj, Rm.code]

theorem fmax (h : Hdr) (ty : FTy) (ftz : Bool) (d a b : Opd) : Statement (.fmax h ty ftz d a b) := by
  refine of_fields rfl ?_
  simp [decodeFields, decodeA, encFlt, encA, decFm, need, need0, bind, Except.bind, bit1_inj, Rm.code]

theorem fmaxImm (h : Hdr) (ty : FTy) (ftz : Bool) (d a : Opd) (imm : BitVec 38) : Statement (.fmaxImm h ty ftz d a imm) := by
  refine of_fields rfl ?_
  simp [decodeFields, decodeI, encFltI, encI, decIm, need, need0, bind, Except.bind, bit1_inj, Rm.code]

theorem fcmp (h : Hdr) (rel : FCmp) (ty : FTy) (ftz : Bool) (d a b : Opd) : Statement (.fcmp h rel ty ftz d a b) := by
  refine of_fields rfl ?_
  simp [decodeFields, decodeA, encA, need, need0, bind, Except.bind, bit1_inj]

theorem fcmpImm (h : Hdr) (rel : FCmp) (ty : FTy) (ftz : Bool) (d a : Opd) (imm : BitVec 38) : Statement (.fcmpImm h rel ty ftz d a imm) := by
  refine of_fields rfl ?_
  simp [decodeFields, decodeI, encI, need, need0, bind, Except.bind, bit1_inj]

theorem frcp (h : Hdr) (ty : FTy) (rm : Rm) (ftz : Bool) (d a : Opd) : Statement (.frcp h ty rm ftz d a) := by
  refine of_fields rfl ?_
  simp [decodeFields, decodeA, encFlt, encA, decF2, need, need0, bind, Except.bind, bit1_inj]

theorem frsq (h : Hdr) (ty : FTy) (rm : Rm) (ftz : Bool) (d a : Opd) : Statement (.frsq h ty rm ftz d a) := by
  refine of_fields rfl ?_
  simp [decodeFields, decodeA, encFlt, encA, decF2, need, need0, bind, Except.bind, bit1_inj]

theorem fsqrt (h : Hdr) (ty : FTy) (rm : Rm) (ftz : Bool) (d a : Opd) : Statement (.fsqrt h ty rm ftz d a) := by
  refine of_fields rfl ?_
  simp [decodeFields, decodeA, encFlt, encA, decF2, need, need0, bind, Except.bind, bit1_inj]

theorem fdiv (h : Hdr) (ty : FTy) (rm : Rm) (ftz : Bool) (d a b : Opd) : Statement (.fdiv h ty rm ftz d a b) := by
  refine of_fields rfl ?_
  simp [decodeFields, decodeA, encFlt, encA, decF3, need, need0, bind, Except.bind, bit1_inj]

theorem fexp2 (h : Hdr) (ty : FTy) (rm : Rm) (ftz : Bool) (d a : Opd) : Statement (.fexp2 h ty rm ftz d a) := by
  refine of_fields rfl ?_
  simp [decodeFields, decodeA, encFlt, encA, decF2, need, need0, bind, Except.bind, bit1_inj]

theorem flog2 (h : Hdr) (ty : FTy) (rm : Rm) (ftz : Bool) (d a : Opd) : Statement (.flog2 h ty rm ftz d a) := by
  refine of_fields rfl ?_
  simp [decodeFields, decodeA, encFlt, encA, decF2, need, need0, bind, Except.bind, bit1_inj]

theorem frnd (h : Hdr) (ty : FTy) (rm : Rm) (ftz : Bool) (d a : Opd) : Statement (.frnd h ty rm ftz d a) := by
  refine of_fields rfl ?_
  simp [decodeFields, decodeA, encFlt, encA, decF2, need, need0, bind, Except.bind, bit1_inj]

theorem fcvt (h : Hdr) (src ty : FTy) (rm : Rm) (ftz sat : Bool) (d a : Opd) : Statement (.fcvt h src ty rm ftz sat d a) := by
  refine of_fields rfl ?_
  have h1 : src.code.toNat < 16 := src.code.isLt
  cases sat <;>
    simp [decodeFields, decodeA, encA, need, need0, bind, Except.bind, bit1_inj, zext_toNat 2 4, zext_setWidth 2 4,
    h1]

theorem icvt (h : Hdr) (toInt : Bool) (ity : ITy) (ty : FTy) (rm : Rm) (d a : Opd) : Statement (.icvt h toInt ity ty rm d a) := by
  refine of_fields rfl ?_
  cases toInt <;> cases ity <;>
    simp [decodeFields, decodeA, encA, need, need0, bind, Except.bind, bit1_inj, ITy.code, decITy, bit1]

theorem fclass (h : Hdr) (ty : FTy) (d a : Opd) : Statement (.fclass h ty d a) := by
  refine of_fields rfl ?_
  simp [decodeFields, decodeA, encA, aPlain, need, need0, bind, Except.bind, bit1_inj]

theorem shfl (h : Hdr) (ty : ITy) (mode : ShflMode) (d a b : Opd) : Statement (.shfl h ty mode d a b) := by
  refine of_fields rfl ?_
  cases mode <;>
    simp [decodeFields, decodeA, encA, aPlain, need, need0, bind, Except.bind, bit1_inj, ShflMode.code]

theorem qxch (h : Hdr) (ty : ITy) (mode : QxchMode) (d a : Opd) : Statement (.qxch h ty mode d a) := by
  refine of_fields rfl ?_
  cases mode <;>
    simp [decodeFields, decodeA, encA, aPlain, need, need0, bind, Except.bind, bit1_inj, QxchMode.code]

theorem ballot (h : Hdr) (ty : ITy) (d a : Opd) : Statement (.ballot h ty d a) := by
  refine of_fields rfl ?_
  simp [decodeFields, decodeA, encInt, encA, aPlain, decA2, need, need0, bind, Except.bind, bit1_inj]

theorem vote (h : Hdr) (ty : ITy) (any : Bool) (d a : Opd) : Statement (.vote h ty any d a) := by
  refine of_fields rfl ?_
  cases any <;>
    simp [decodeFields, decodeA, encA, aPlain, need, need0, bind, Except.bind, bit1_inj]

theorem gred (h : Hdr) (op : RedOp) (ty : ITy) (d a : Opd) : Statement (.gred h op ty d a) := by
  refine of_fields rfl ?_
  simp [decodeFields, decodeA, encA, aPlain, need, need0, bind, Except.bind, bit1_inj]

theorem gscan (h : Hdr) (op : RedOp) (ty : ITy) (exc : Bool) (d a : Opd) : Statement (.gscan h op ty exc d a) := by
  refine of_fields rfl ?_
  cases exc <;>
    simp [decodeFields, decodeA, encA, aPlain, need, need0, bind, Except.bind, bit1_inj]

theorem mfirst (h : Hdr) (d a : Opd) : Statement (.mfirst h d a) := by
  refine of_fields rfl ?_
  simp [decodeFields, decodeA, encMask, encA, aPlain, decM2, need, need0, bind, Except.bind, bit1_inj]

theorem mpopc (h : Hdr) (d a : Opd) : Statement (.mpopc h d a) := by
  refine of_fields rfl ?_
  simp [decodeFields, decodeA, encMask, encA, aPlain, decM2, need, need0, bind, Except.bind, bit1_inj]

theorem mand (h : Hdr) (d a b : Opd) : Statement (.mand h d a b) := by
  refine of_fields rfl ?_
  simp [decodeFields, decodeA, encMask, encA, aPlain, decM3, need, need0, bind, Except.bind, bit1_inj]

theorem mor (h : Hdr) (d a b : Opd) : Statement (.mor h d a b) := by
  refine of_fields rfl ?_
  simp [decodeFields, decodeA, encMask, encA, aPlain, decM3, need, need0, bind, Except.bind, bit1_inj]

theorem mxor (h : Hdr) (d a b : Opd) : Statement (.mxor h d a b) := by
  refine of_fields rfl ?_
  simp [decodeFields, decodeA, encMask, encA, aPlain, decM3, need, need0, bind, Except.bind, bit1_inj]

theorem mnot (h : Hdr) (d a : Opd) : Statement (.mnot h d a) := by
  refine of_fields rfl ?_
  simp [decodeFields, decodeA, encMask, encA, aPlain, decM2, need, need0, bind, Except.bind, bit1_inj]

theorem mmov (h : Hdr) (d a : Opd) : Statement (.mmov h d a) := by
  refine of_fields rfl ?_
  simp [decodeFields, decodeA, encMask, encA, aPlain, decM2, need, need0, bind, Except.bind, bit1_inj]

theorem mtox (h : Hdr) (d a : Opd) : Statement (.mtox h d a) := by
  refine of_fields rfl ?_
  simp [decodeFields, decodeA, encMask, encA, aPlain, decM2, need, need0, bind, Except.bind, bit1_inj]

theorem mfs (h : Hdr) (d : Opd) (num : BitVec 12) : Statement (.mfs h d num) := by
  refine of_fields rfl ?_
  have h1 : num.toNat < 4096 := num.isLt
  simp [decodeFields, decodeI, encI, iBare, iPlain, need, need0, bind, Except.bind, bit1_inj, zext_toNat 26 12,
    zext_setWidth 26 12, h1]

theorem mts (h : Hdr) (num : BitVec 12) (a : Opd) : Statement (.mts h num a) := by
  refine of_fields rfl ?_
  have h1 : num.toNat < 4096 := num.isLt
  simp [decodeFields, decodeI, encI, iBare, iPlain, need, need0, bind, Except.bind, bit1_inj, zext_toNat 26 12,
    zext_setWidth 26 12, h1]

theorem xgrow (h : Hdr) (lo hi : Bool) : Statement (.xgrow h lo hi) := by
  refine of_fields rfl ?_
  cases lo <;> cases hi <;>
    simp [decodeFields, decodeI, encI, decHalves, iBare, iPlain, need, need0, bind, Except.bind, bit1_inj, bit1]

theorem xdrop (h : Hdr) (lo hi : Bool) : Statement (.xdrop h lo hi) := by
  refine of_fields rfl ?_
  cases lo <;> cases hi <;>
    simp [decodeFields, decodeI, encI, decHalves, iBare, iPlain, need, need0, bind, Except.bind, bit1_inj, bit1]

theorem qcfg (h : Hdr) (qi : BitVec 3) (depth : BitVec 4) (base : BitVec 6) : Statement (.qcfg h qi depth base) := by
  refine of_fields rfl ?_
  simp [decodeFields, decodeI, encI, iBare, iPlain, need, need0, bind, Except.bind, bit1_inj, qcfg_bits]

theorem bra (h : Hdr) (disp : BitVec 20) (slot : BitVec 3) (test : Test) : Statement (.bra h disp slot test) := by
  refine of_fields rfl ?_
  simp [decodeFields, decodeC, encC, cBare, need, need0, FC.zero, bind, Except.bind, bit1_inj, decTest_fields]

theorem jmp (h : Hdr) (treg : BitVec 6) (test : Test) : Statement (.jmp h treg test) := by
  refine of_fields rfl ?_
  simp [decodeFields, decodeC, encC, cBare, need, need0, FC.zero, bind, Except.bind, bit1_inj, decTest_fields]

theorem call (h : Hdr) (tgt : Target) (link : Opd) : Statement (.call h tgt link) := by
  refine of_fields rfl ?_
  cases tgt <;>
    simp [decodeFields, decodeC, encC, cBare, decTarget, need, need0, noTest, FC.zero, bind, Except.bind, bit1_inj,
    Target.fields, Target.isInd]

theorem ret (h : Hdr) (link : Opd) : Statement (.ret h link) := by
  refine of_fields rfl ?_
  simp [decodeFields, decodeC, encC, cBare, need, need0, noTarget, noTest, FC.zero, bind, Except.bind, bit1_inj]

theorem wcall (h : Hdr) (team : Bool) (tgt : Target) (sel : Option (BitVec 3)) (base : Opd) : Statement (.wcall h team tgt sel base) := by
  refine of_fields rfl ?_
  cases tgt <;> cases team <;> cases sel <;>
    simp [decodeFields, decodeC, encC, cBare, decWidth, need, need0, FC.zero, bind, Except.bind, bit1_inj, decSel,
    decTarget, Target.fields, Target.isInd, selFields, widthSub]

theorem gcall (h : Hdr) (team : Bool) (tgt : Target) (sel : Option (BitVec 3)) (base : Opd) : Statement (.gcall h team tgt sel base) := by
  refine of_fields rfl ?_
  cases tgt <;> cases team <;> cases sel <;>
    simp [decodeFields, decodeC, encC, cBare, decWidth, need, need0, FC.zero, bind, Except.bind, bit1_inj, decSel,
    decTarget, Target.fields, Target.isInd, selFields, widthSub]

theorem wret (h : Hdr) (sel : Option (BitVec 3)) (base : Opd) : Statement (.wret h sel base) := by
  refine of_fields rfl ?_
  cases sel <;>
    simp [decodeFields, decodeC, encC, cBare, decSel, need, need0, noTarget, FC.zero, bind, Except.bind, bit1_inj,
    decSel, decTarget, selFields]

theorem spawn (h : Hdr) (disp : BitVec 20) (slot : BitVec 3) (base : Opd) : Statement (.spawn h disp slot base) := by
  refine of_fields rfl ?_
  simp [decodeFields, decodeC, encC, cBare, need, need0, noTest, FC.zero, bind, Except.bind, bit1_inj]

theorem spwait (h : Hdr) (a : Opd) : Statement (.spwait h a) := by
  refine of_fields rfl ?_
  simp [decodeFields, decodeC, encC, cBare, need, need0, noTarget, noTest, FC.zero, bind, Except.bind, bit1_inj]

theorem exit (h : Hdr) : Statement (.exit h) := by
  refine of_fields rfl ?_
  simp [decodeFields, decodeC, encC, cBare, need, need0, noTarget, noTest, FC.zero, bind, Except.bind, bit1_inj]

theorem nop (h : Hdr) : Statement (.nop h) := by
  refine of_fields rfl ?_
  simp [decodeFields, decodeC, encC, cBare, need, need0, noTarget, noTest, FC.zero, bind, Except.bind, bit1_inj]

theorem mark (h : Hdr) (code : BitVec 32) : Statement (.mark h code) := by
  refine of_fields rfl ?_
  simp [decodeFields, decodeC, encK, decCode, need, need0, FC.zero, bind, Except.bind, bit1_inj]

theorem bkpt (h : Hdr) (code : BitVec 32) : Statement (.bkpt h code) := by
  refine of_fields rfl ?_
  simp [decodeFields, decodeC, encK, decCode, need, need0, FC.zero, bind, Except.bind, bit1_inj]

theorem trap (h : Hdr) (code : BitVec 32) : Statement (.trap h code) := by
  refine of_fields rfl ?_
  simp [decodeFields, decodeC, encK, decCode, need, need0, FC.zero, bind, Except.bind, bit1_inj]

theorem ld (h : Hdr) (ty : ITy) (scope : Scope) (ord : MemOrd) (d : Opd) (a : MemOpd) : Statement (.ld h ty scope ord d a) := by
  refine of_fields rfl ?_
  simp [decodeFields, decodeM, encM, decMem, need, need0, bind, Except.bind, bit1_inj]

theorem st (h : Hdr) (ty : ITy) (scope : Scope) (ord : MemOrd) (d : Opd) (a : MemOpd) : Statement (.st h ty scope ord d a) := by
  refine of_fields rfl ?_
  simp [decodeFields, decodeM, encM, decMem, need, need0, bind, Except.bind, bit1_inj]

theorem lfull (h : Hdr) (scope : Scope) (ord : MemOrd) (a : MemOpd) : Statement (.lfull h scope ord a) := by
  refine of_fields rfl ?_
  simp [decodeFields, decodeM, encM, decMem, mNoTy, need, need0, bind, Except.bind, bit1_inj]

theorem lempty (h : Hdr) (scope : Scope) (ord : MemOrd) (a : MemOpd) : Statement (.lempty h scope ord a) := by
  refine of_fields rfl ?_
  simp [decodeFields, decodeM, encM, decMem, mNoTy, need, need0, bind, Except.bind, bit1_inj]

theorem ltest (h : Hdr) (scope : Scope) (ord : MemOrd) (d : Opd) (a : MemOpd) : Statement (.ltest h scope ord d a) := by
  refine of_fields rfl ?_
  simp [decodeFields, decodeM, encM, decMem, mNoTy, need, need0, bind, Except.bind, bit1_inj]

theorem atom (h : Hdr) (op : RedOp) (ty : ITy) (scope : Scope) (ord : MemOrd) (d : Opd) (a : MemOpd) (b : Opd) : Statement (.atom h op ty scope ord d a b) := by
  refine of_fields rfl ?_
  simp [decodeFields, decodeM, encM, decMem, need, need0, bind, Except.bind, bit1_inj]

theorem cas (h : Hdr) (ty : ITy) (scope : Scope) (ord : MemOrd) (facq : Bool) (d : Opd) (a : MemOpd) (b : Opd) : Statement (.cas h ty scope ord facq d a b) := by
  refine of_fields rfl ?_
  cases facq <;>
    simp [decodeFields, decodeM, encM, decMem, need, need0, bind, Except.bind, bit1_inj]

theorem redm (h : Hdr) (op : RedOp) (ty : ITy) (scope : Scope) (ord : MemOrd) (d : Opd) (a : MemOpd) : Statement (.redm h op ty scope ord d a) := by
  refine of_fields rfl ?_
  simp [decodeFields, decodeM, encM, decMem, need, need0, bind, Except.bind, bit1_inj]

theorem fence (h : Hdr) (scope : Scope) (ord : MemOrd) : Statement (.fence h scope ord) := by
  refine of_fields rfl ?_
  simp [decodeFields, decodeM, encM, decMem, mNoTy, need, need0, bind, Except.bind, bit1_inj,
    show (Opd.v 0#6).code = 0#8 from rfl]

theorem fenceFlag (h : Hdr) (scope : Scope) (ord : MemOrd) (d : Opd) (a : MemOpd) : Statement (.fenceFlag h scope ord d a) := by
  refine of_fields rfl ?_
  simp [decodeFields, decodeM, encM, decMem, mNoTy, need, need0, bind, Except.bind, bit1_inj]

theorem barinit (h : Hdr) (d : Opd) (a : MemOpd) : Statement (.barinit h d a) := by
  refine of_fields rfl ?_
  simp [decodeFields, decodeM, encM, decMem, mNoTy, need, need0, noOrd, bind, Except.bind, bit1_inj]

theorem arrive (h : Hdr) (scope : Scope) (ord : MemOrd) (d : Opd) (a : MemOpd) (b : Opd) : Statement (.arrive h scope ord d a b) := by
  refine of_fields rfl ?_
  simp [decodeFields, decodeM, encM, decMem, mNoTy, need, need0, bind, Except.bind, bit1_inj]

theorem waitb (h : Hdr) (scope : Scope) (ord : MemOrd) (d : Opd) (a : MemOpd) : Statement (.waitb h scope ord d a) := by
  refine of_fields rfl ?_
  simp [decodeFields, decodeM, encM, decMem, mNoTy, need, need0, bind, Except.bind, bit1_inj]

theorem cmdw (h : Hdr) (d : Opd) (a : MemOpd) (b : Opd) : Statement (.cmdw h d a b) := by
  refine of_fields rfl ?_
  simp [decodeFields, decodeM, encM, decMem, mNoTy, need, need0, noOrd, bind, Except.bind, bit1_inj]

theorem notify (h : Hdr) (scope : Scope) (d : Opd) (a : MemOpd) : Statement (.notify h scope d a) := by
  refine of_fields rfl ?_
  simp [decodeFields, decodeM, encM, decMem, mNoTy, need, need0, bind, Except.bind, bit1_inj]

theorem bclose (h : Hdr) (d : Opd) : Statement (.bclose h d) := by
  refine of_fields rfl ?_
  simp [decodeFields, decodeM, encM, mNoTy, need, need0, noOrd, bind, Except.bind, bit1_inj,
    show (Opd.v 0#6).code = 0#8 from rfl]

theorem bwait (h : Hdr) (d : Opd) : Statement (.bwait h d) := by
  refine of_fields rfl ?_
  simp [decodeFields, decodeM, encM, mNoTy, need, need0, noOrd, bind, Except.bind, bit1_inj,
    show (Opd.v 0#6).code = 0#8 from rfl]

theorem pref (h : Hdr) (a : MemOpd) : Statement (.pref h a) := by
  refine of_fields rfl ?_
  simp [decodeFields, decodeM, encM, decMem, mNoTy, need, need0, noOrd, bind, Except.bind, bit1_inj]

theorem prefTlb (h : Hdr) (a : MemOpd) : Statement (.prefTlb h a) := by
  refine of_fields rfl ?_
  simp [decodeFields, decodeM, encM, decMem, mNoTy, need, need0, noOrd, bind, Except.bind, bit1_inj]

theorem eret (h : Hdr) : Statement (.eret h) := by
  refine of_fields rfl ?_
  simp [decodeFields, decodeS, encS, need, need0, bind, Except.bind, bit1_inj]

theorem eretSkip (h : Hdr) : Statement (.eretSkip h) := by
  refine of_fields rfl ?_
  simp [decodeFields, decodeS, encS, need, need0, bind, Except.bind, bit1_inj]

theorem eretFwd (h : Hdr) : Statement (.eretFwd h) := by
  refine of_fields rfl ?_
  simp [decodeFields, decodeS, encS, need, need0, bind, Except.bind, bit1_inj]

theorem mfsr (h : Hdr) (r : Opd) (num : BitVec 16) : Statement (.mfsr h r num) := by
  refine of_fields rfl ?_
  simp [decodeFields, decodeS, encS, need, need0, bind, Except.bind, bit1_inj]

theorem mtsr (h : Hdr) (r : Opd) (num : BitVec 16) : Statement (.mtsr h r num) := by
  refine of_fields rfl ?_
  simp [decodeFields, decodeS, encS, need, need0, bind, Except.bind, bit1_inj]

theorem tlbinv (h : Hdr) (scope : TlbScope) (r : Opd) : Statement (.tlbinv h scope r) := by
  refine of_fields rfl ?_
  cases scope <;>
    simp [decodeFields, decodeS, encS, need, need0, bind, Except.bind, bit1_inj, TlbScope.code]

theorem waitev (h : Hdr) (r : Opd) (evmask : BitVec 16) : Statement (.waitev h r evmask) := by
  refine of_fields rfl ?_
  simp [decodeFields, decodeS, encS, need, need0, bind, Except.bind, bit1_inj]

theorem gang (h : Hdr) (a : Opd) : Statement (.gang h a) := by
  refine of_fields rfl ?_
  simp [decodeFields, decodeX1, encX, need, need0, xNoRm, xNoTid, xNoTy, bind, Except.bind, bit1_inj]

theorem mma (h : Hdr) (ty : FTy) (kc : BitVec 3) (za : Bool) (rm : Rm) (d a b : Opd) (ids : Option MmaIds) : Statement (.mma h ty kc za rm d a b ids) := by
  cases ids with
  | none =>
    refine of_fields rfl ?_
    simp [decodeFields, decodeX1, encX, decMma, xNoTid, need0, need, bind, Except.bind, mma_bits0]
  | some ids =>
    refine of_fields rfl ?_
    simp [decodeFields, decodeX1, encX, decMma, xNoTid, need0, need, bind, Except.bind, mma_bits1]

theorem bdot (h : Hdr) (ty : FTy) (rm : Rm) (d a b c e : Opd) (tida tidb : BitVec 6) : Statement (.bdot h ty rm d a b c e tida tidb) := by
  refine of_fields rfl ?_
  simp [decodeFields, decodeX1, encX, need, need0, bind, Except.bind, bit1_inj]

theorem accz (h : Hdr) (ty : FTy) (a : Opd) : Statement (.accz h ty a) := by
  refine of_fields rfl ?_
  simp [decodeFields, decodeX1, encX, need, need0, xNoRm, xNoTid, bind, Except.bind, bit1_inj]

theorem accrd (h : Hdr) (ty : FTy) (d a : Opd) : Statement (.accrd h ty d a) := by
  refine of_fields rfl ?_
  simp [decodeFields, decodeX1, encX, need, need0, xNoRm, xNoTid, bind, Except.bind, bit1_inj]

theorem accrdSt (h : Hdr) (ty : FTy) (rm : Rm) (d a c : Opd) (tid : BitVec 6) : Statement (.accrdSt h ty rm d a c tid) := by
  refine of_fields rfl ?_
  simp [decodeFields, decodeX1, encX, need, need0, xNoRm, xNoTid, bind, Except.bind, bit1_inj]

theorem accwr (h : Hdr) (ty : FTy) (a b : Opd) : Statement (.accwr h ty a b) := by
  refine of_fields rfl ?_
  simp [decodeFields, decodeX1, encX, need, need0, xNoRm, xNoTid, bind, Except.bind, bit1_inj]

theorem tidset (h : Hdr) (a : Opd) (tid : BitVec 6) : Statement (.tidset h a tid) := by
  refine of_fields rfl ?_
  simp [decodeFields, decodeX1, encX, need, need0, xNoRm, xNoTy, bind, Except.bind, bit1_inj]

theorem tidget (h : Hdr) (w : BitVec 3) (d : Opd) (tid : BitVec 6) : Statement (.tidget h w d tid) := by
  refine of_fields rfl ?_
  have h1 : w.toNat < 8 := w.isLt
  simp [decodeFields, decodeX1, encX, need, need0, xNoRm, xNoTy, bind, Except.bind, bit1_inj, zext_toNat 3 3,
    zext_setWidth 3 3, h1]

theorem hadq (h : Hdr) (rm : Rm) (d a c e : Opd) (tid : BitVec 6) : Statement (.hadq h rm d a c e tid) := by
  refine of_fields rfl ?_
  simp [decodeFields, decodeX1, encX, need, need0, xNoTy, bind, Except.bind, bit1_inj]

theorem zmap (h : Hdr) (d : Opd) (tid : BitVec 6) : Statement (.zmap h d tid) := by
  refine of_fields rfl ?_
  simp [decodeFields, decodeX1, encX, need, need0, xNoRm, xNoTy, bind, Except.bind, bit1_inj]

theorem kclaim (h : Hdr) (logb : BitVec 6) (d a b c : Opd) : Statement (.kclaim h logb d a b c) := by
  refine of_fields rfl ?_
  simp [decodeFields, decodeX2, encX, need, need0, xNoRm, xNoTid, xNoTy, bind, Except.bind, bit1_inj]

theorem kfree (h : Hdr) (e : Opd) : Statement (.kfree h e) := by
  refine of_fields rfl ?_
  simp [decodeFields, decodeX2, encX, need, need0, xNoRm, xNoTid, xNoTy, bind, Except.bind, bit1_inj]

theorem kins (h : Hdr) (ty : ITy) (d a b e : Opd) : Statement (.kins h ty d a b e) := by
  refine of_fields rfl ?_
  simp [decodeFields, decodeX2, encK4, encX, decK4, need, need0, xNoRm, xNoTid, bind, Except.bind, bit1_inj]

theorem kprb (h : Hdr) (ty : ITy) (d a b e : Opd) : Statement (.kprb h ty d a b e) := by
  refine of_fields rfl ?_
  simp [decodeFields, decodeX2, encK4, encX, decK4, need, need0, xNoRm, xNoTid, bind, Except.bind, bit1_inj]

theorem kdel (h : Hdr) (d a e : Opd) : Statement (.kdel h d a e) := by
  refine of_fields rfl ?_
  simp [decodeFields, decodeX2, encX, need, need0, xNoRm, xNoTid, xNoTy, bind, Except.bind, bit1_inj]

theorem kacc (h : Hdr) (op : KOp) (ty : ITy) (d a b e : Opd) : Statement (.kacc h op ty d a b e) := by
  refine of_fields rfl ?_
  simp [decodeFields, decodeX2, encK4, encX, need, need0, xNoRm, xNoTid, bind, Except.bind, bit1_inj]

theorem kdrn (h : Hdr) (ty : ITy) (key del rst : Bool) (d b c e : Opd) : Statement (.kdrn h ty key del rst d b c e) := by
  refine of_fields rfl ?_
  cases key <;> cases del <;> cases rst <;>
    simp [decodeFields, decodeX2, encX, need, need0, xNoRm, xNoTid, bind, Except.bind, bit1_inj, bit1]

theorem kstat (h : Hdr) (d e : Opd) : Statement (.kstat h d e) := by
  refine of_fields rfl ?_
  simp [decodeFields, decodeX2, encX, need, need0, xNoRm, xNoTid, xNoTy, bind, Except.bind, bit1_inj]

theorem slen (h : Hdr) (l : BitVec 2) : Statement (.slen h l) := by
  refine of_fields rfl ?_
  have h1 : l.toNat < 4 := l.isLt
  simp [decodeFields, decodeX3, encX, need, need0, xNoRm, xNoTid, xNoTy, bind, Except.bind, bit1_inj,
    zext_toNat 4 2, zext_setWidth 4 2, h1]

theorem sgen (h : Hdr) (cls : BitVec 4) (d a b : Opd) : Statement (.sgen h cls d a b) := by
  refine of_fields rfl ?_
  have h1 : cls.toNat < 16 := cls.isLt
  simp [decodeFields, decodeX3, encS3, encX, need, need0, xNoRm, xNoTid, xNoTy, bind, Except.bind, bit1_inj,
    zext_toNat 2 4, zext_setWidth 2 4, h1]

theorem smul (h : Hdr) (d a b : Opd) : Statement (.smul h d a b) := by
  refine of_fields rfl ?_
  simp [decodeFields, decodeX3, encS3, encX, decS2, need, need0, xNoRm, xNoTid, xNoTy, bind, Except.bind, bit1_inj]

theorem smin (h : Hdr) (d a b : Opd) : Statement (.smin h d a b) := by
  refine of_fields rfl ?_
  simp [decodeFields, decodeX3, encS3, encX, decS2, need, need0, xNoRm, xNoTid, xNoTy, bind, Except.bind, bit1_inj]

theorem smax (h : Hdr) (d a b : Opd) : Statement (.smax h d a b) := by
  refine of_fields rfl ?_
  simp [decodeFields, decodeX3, encS3, encX, decS2, need, need0, xNoRm, xNoTid, xNoTy, bind, Except.bind, bit1_inj]

theorem snot (h : Hdr) (d a : Opd) : Statement (.snot h d a) := by
  refine of_fields rfl ?_
  simp [decodeFields, decodeX3, encS3, encX, need, need0, xNoRm, xNoTid, xNoTy, bind, Except.bind, bit1_inj]

theorem ssel (h : Hdr) (d a b c : Opd) : Statement (.ssel h d a b c) := by
  refine of_fields rfl ?_
  simp [decodeFields, decodeX3, encS3, encX, need, need0, xNoRm, xNoTid, xNoTy, bind, Except.bind, bit1_inj]

theorem scnt (h : Hdr) (f : Bool) (d a : Opd) : Statement (.scnt h f d a) := by
  refine of_fields rfl ?_
  cases f <;>
    simp [decodeFields, decodeX3, encS3, encX, need, need0, xNoRm, xNoTid, xNoTy, bind, Except.bind, bit1_inj, bit1]

theorem sregen (h : Hdr) (cls : BitVec 4) (d a b : Opd) : Statement (.sregen h cls d a b) := by
  refine of_fields rfl ?_
  have h1 : cls.toNat < 16 := cls.isLt
  simp [decodeFields, decodeX3, encS3, encX, need, need0, xNoRm, xNoTid, xNoTy, bind, Except.bind, bit1_inj,
    zext_toNat 2 4, zext_setWidth 2 4, h1]

theorem sbit (h : Hdr) (d a b : Opd) : Statement (.sbit h d a b) := by
  refine of_fields rfl ?_
  simp [decodeFields, decodeX3, encS3, encX, decS2, need, need0, xNoRm, xNoTid, xNoTy, bind, Except.bind, bit1_inj]

theorem scls (h : Hdr) (d a : Opd) : Statement (.scls h d a) := by
  refine of_fields rfl ?_
  simp [decodeFields, decodeX3, encS3, encX, need, need0, xNoRm, xNoTid, xNoTy, bind, Except.bind, bit1_inj]

theorem coll (h : Hdr) (tile : Option (BitVec 2)) (d a b c e : Opd) : Statement (.coll h tile d a b c e) := by
  cases tile with
  | none =>
    refine of_fields rfl ?_
    simp [decodeFields, decodeX3, encX, xNoTy, xNoRm, xNoTid, need0, need, bind, Except.bind]
  | some ti =>
    refine of_fields rfl ?_
    simp [decodeFields, decodeX3, encX, xNoTy, xNoRm, xNoTid, need0, need, bind, Except.bind, tile_bits]

theorem dsend (h : Hdr) (a b : Opd) : Statement (.dsend h a b) := by
  refine of_fields rfl ?_
  simp [decodeFields, decodeX3, encX, need, need0, xNoRm, xNoTid, xNoTy, bind, Except.bind, bit1_inj]

theorem dclose (h : Hdr) (d a : Opd) : Statement (.dclose h d a) := by
  refine of_fields rfl ?_
  simp [decodeFields, decodeX3, encX, need, need0, xNoRm, xNoTid, xNoTy, bind, Except.bind, bit1_inj]

theorem qpush (h : Hdr) (wait : Bool) (d a e : Opd) : Statement (.qpush h wait d a e) := by
  refine of_fields rfl ?_
  cases wait <;>
    simp [decodeFields, decodeX3, encX, need, need0, xNoRm, xNoTid, xNoTy, bind, Except.bind, bit1_inj, bit1]

theorem qpop (h : Hdr) (wait : Bool) (stamp : Option Opd) (d b e : Opd) : Statement (.qpop h wait stamp d b e) := by
  refine of_fields rfl ?_
  cases wait <;> cases stamp <;>
    simp [decodeFields, decodeX3, encX, need, need0, xNoRm, xNoTid, xNoTy, bind, Except.bind, bit1_inj, bit1]

theorem tile (h : Hdr) (d a b : Opd) : Statement (.tile h d a b) := by
  refine of_fields rfl ?_
  simp [decodeFields, decodeX3, encX, need, need0, xNoRm, xNoTid, xNoTy, bind, Except.bind, bit1_inj]

theorem longResultReturn (gid : Nat) (k : Nat) : Statement (.longResultReturn gid k) := by
  simp [Statement, encode]

theorem switchUnpark (gid : Nat) : Statement (.switchUnpark gid) := by
  simp [Statement, encode]

theorem emptylineLoadRead (gid : Nat) (k : Nat) (lane : BitVec 6) : Statement (.emptylineLoadRead gid k lane) := by
  simp [Statement, encode]

theorem fetchLineReceive (gid : Nat) : Statement (.fetchLineReceive gid) := by
  simp [Statement, encode]

theorem poolBlockGrant (core : Nat) : Statement (.poolBlockGrant core) := by
  simp [Statement, encode]

theorem registerGrowCheck (core : Nat) : Statement (.registerGrowCheck core) := by
  simp [Statement, encode]

theorem binFireTimeout (core : Nat) (bin : Nat) : Statement (.binFireTimeout core bin) := by
  simp [Statement, encode]

theorem spawnedGroupStart (core : Nat) (bin : Nat) : Statement (.spawnedGroupStart core bin) := by
  simp [Statement, encode]

theorem pooledCallWithdraw (core : Nat) (bin : Nat) : Statement (.pooledCallWithdraw core bin) := by
  simp [Statement, encode]

theorem teamPlace (part : BitVec 3) : Statement (.teamPlace part) := by
  simp [Statement, encode]

theorem timeSliceExpiry (team : Nat) : Statement (.timeSliceExpiry team) := by
  simp [Statement, encode]

theorem waitPriorityRaise (team : Nat) : Statement (.waitPriorityRaise team) := by
  simp [Statement, encode]

theorem swapCut (team : Nat) : Statement (.swapCut team) := by
  simp [Statement, encode]

theorem swapOutComplete (team : Nat) : Statement (.swapOutComplete team) := by
  simp [Statement, encode]

theorem teamResume (team : Nat) (core : Nat) : Statement (.teamResume team core) := by
  simp [Statement, encode]

theorem qbaseWrite (who : Requester) (q : BitVec 6) (v : Word64) : Statement (.qbaseWrite who q v) := by
  simp [Statement, encode]

theorem qctlWrite (who : Requester) (q : BitVec 6) (v : Word32) : Statement (.qctlWrite who q v) := by
  simp [Statement, encode]

theorem qtailWrite (who : Requester) (q : BitVec 6) (v : Word32) : Statement (.qtailWrite who q v) := by
  simp [Statement, encode]

theorem qabort (who : Requester) (q : BitVec 6) (n : Word32) : Statement (.qabort who q n) := by
  simp [Statement, encode]

theorem packetRead (q : BitVec 6) : Statement (.packetRead q) := by
  simp [Statement, encode]

theorem dependencePoll (q : BitVec 6) : Statement (.dependencePoll q) := by
  simp [Statement, encode]

theorem launchComplete (launch : Nat) : Statement (.launchComplete launch) := by
  simp [Statement, encode]

theorem copyCommandStart (cmd : Nat) : Statement (.copyCommandStart cmd) := by
  simp [Statement, encode]

theorem copyUnitLand (cmd : Nat) (unit : Nat) : Statement (.copyUnitLand cmd unit) := by
  simp [Statement, encode]

theorem copyCommandComplete (cmd : Nat) : Statement (.copyCommandComplete cmd) := by
  simp [Statement, encode]

theorem ringstall (gid : Nat) : Statement (.ringstall gid) := by
  simp [Statement, encode]

theorem gangForm (gid : Nat) : Statement (.gangForm gid) := by
  simp [Statement, encode]

theorem gangDissolve (gang : Nat) : Statement (.gangDissolve gang) := by
  simp [Statement, encode]

theorem mmaStart (gang : Nat) : Statement (.mmaStart gang) := by
  simp [Statement, encode]

theorem mmaComplete (gang : Nat) : Statement (.mmaComplete gang) := by
  simp [Statement, encode]

theorem subarrayPowerGate (core : Nat) (sub : Nat) : Statement (.subarrayPowerGate core sub) := by
  simp [Statement, encode]

theorem keyOpComplete (core : Nat) : Statement (.keyOpComplete core) := by
  simp [Statement, encode]

theorem chordOpComplete (core : Nat) : Statement (.chordOpComplete core) := by
  simp [Statement, encode]

theorem tlbinvComplete (gid : Nat) : Statement (.tlbinvComplete gid) := by
  simp [Statement, encode]

theorem collectiveComplete (inst : Nat) : Statement (.collectiveComplete inst) := by
  simp [Statement, encode]

theorem dispatchTokenArrive (tok : Nat) : Statement (.dispatchTokenArrive tok) := by
  simp [Statement, encode]

theorem dispatchTokenDeliver (tok : Nat) : Statement (.dispatchTokenDeliver tok) := by
  simp [Statement, encode]

theorem dispstall (gid : Nat) : Statement (.dispstall gid) := by
  simp [Statement, encode]

theorem softError (loc : Nat) (corrected : Bool) : Statement (.softError loc corrected) := by
  simp [Statement, encode]

theorem cpartWrite (who : Requester) (core : Nat) (v : Word32) : Statement (.cpartWrite who core v) := by
  simp [Statement, encode]

theorem partitionMoveComplete (core : Nat) : Statement (.partitionMoveComplete core) := by
  simp [Statement, encode]

theorem doorbell (who : Requester) (part : BitVec 3) : Statement (.doorbell who part) := by
  simp [Statement, encode]

theorem ipqcfgWrite (who : Requester) (q : BitVec 10) (v : Word32) : Statement (.ipqcfgWrite who q v) := by
  simp [Statement, encode]

theorem xpoolWrite (who : Requester) (core : Nat) (v : Word32) : Statement (.xpoolWrite who core v) := by
  simp [Statement, encode]

theorem trsizelWrite (who : Requester) (part : BitVec 3) (v : Word32) : Statement (.trsizelWrite who part v) := by
  simp [Statement, encode]

theorem elsizelWrite (who : Requester) (die : BitVec 2) (v : Word32) : Statement (.elsizelWrite who die v) := by
  simp [Statement, encode]

theorem perfctlClr (who : Requester) (core : Nat) : Statement (.perfctlClr who core) := by
  simp [Statement, encode]

theorem haltreq (who : Requester) (part : BitVec 3) : Statement (.haltreq who part) := by
  simp [Statement, encode]

theorem release (who : Requester) (part : BitVec 3) : Statement (.release who part) := by
  simp [Statement, encode]

theorem dbgselWrite (who : Requester) (part : BitVec 3) (v : Word64) : Statement (.dbgselWrite who part v) := by
  simp [Statement, encode]

theorem crossTriggerArrive (core : Nat) : Statement (.crossTriggerArrive core) := by
  simp [Statement, encode]

theorem traceSample (core : Nat) (quad : BitVec 2) : Statement (.traceSample core quad) := by
  simp [Statement, encode]

theorem registerWrite (who : Requester) (off : BitVec 24) (width : Nat) (v : Word64) : Statement (.registerWrite who off width v) := by
  simp [Statement, encode]

theorem ownerClaim (r : BitVec 8) (expect new : Word64) : Statement (.ownerClaim r expect new) := by
  simp [Statement, encode]

theorem ownerOffer (r : BitVec 8) (expect new : Word64) : Statement (.ownerOffer r expect new) := by
  simp [Statement, encode]

theorem ownerTake (r : BitVec 8) (expect new : Word64) : Statement (.ownerTake r expect new) := by
  simp [Statement, encode]

theorem ownerRelease (r : BitVec 8) (expect new : Word64) : Statement (.ownerRelease r expect new) := by
  simp [Statement, encode]

theorem ownerLinkDown (port : Option (BitVec 3)) : Statement (.ownerLinkDown port) := by
  simp [Statement, encode]

theorem ownerLinkUp (port : Option (BitVec 3)) : Statement (.ownerLinkUp port) := by
  simp [Statement, encode]

theorem ownerLinkTimeout : Statement (.ownerLinkTimeout) := by
  simp [Statement, encode]

theorem attest (r : BitVec 8) : Statement (.attest r) := by
  simp [Statement, encode]

theorem getcert (r : BitVec 8) : Statement (.getcert r) := by
  simp [Statement, encode]

theorem update (r : BitVec 8) : Statement (.update r) := by
  simp [Statement, encode]

theorem activate (r : BitVec 8) : Statement (.activate r) := by
  simp [Statement, encode]

theorem stage (r : BitVec 8) : Statement (.stage r) := by
  simp [Statement, encode]

theorem collpart (r : BitVec 8) : Statement (.collpart r) := by
  simp [Statement, encode]

theorem resetreq (r : BitVec 8) (v : Word32) : Statement (.resetreq r v) := by
  simp [Statement, encode]

theorem perst : Statement (.perst) := by
  simp [Statement, encode]

theorem clkstep : Statement (.clkstep) := by
  simp [Statement, encode]

theorem hostOrPeerRequest (who : Requester) (addr : Word64) (size : Nat) (op : HostOp) : Statement (.hostOrPeerRequest who addr size op) := by
  simp [Statement, encode]

theorem peerPortLinkDown (port : BitVec 3) : Statement (.peerPortLinkDown port) := by
  simp [Statement, encode]

theorem peerPortLinkUp (port : BitVec 3) : Statement (.peerPortLinkUp port) := by
  simp [Statement, encode]

theorem eligibilityHistogramClock (core : Nat) (quad : BitVec 2) : Statement (.eligibilityHistogramClock core quad) := by
  simp [Statement, encode]

end Sys2Proof.Laws.RoundTrip

end
end

