-- ==== Sys2Proof/Laws/Vectors.lean ====
section
/-! SUPPORT. Reading fixed-length vectors, lane sets and byte lists after an update. -/

namespace Sys2Proof.Machine

theorem vget_vset {α : Type} {n : Nat} (v : Vector α n) (i : Nat) (a d : α) (h : i < n) (j : Nat) :
    vget (vset v i a) j d = if j = i then a else vget v j d := by
  unfold vget vset
  by_cases hj : j = i
  · subst hj; simp [List.getD, h]
  · simp [List.getD, hj, Ne.symm hj]

theorem vget_vmod {α : Type} {n : Nat} (v : Vector α n) (i : Nat) (d : α) (f : α → α) (h : i < n) (j : Nat) :
    vget (vmod v i d f) j d = if j = i then f (vget v i d) else vget v j d :=
  vget_vset v i _ d h j

theorem vget_vecOf {α : Type} (n : Nat) (f : Nat → α) (i : Nat) (d : α) (h : i < n) : vget (vecOf n f) i d = f i := by
  simp [vget, vecOf, List.getD, h, Vector.toList]

theorem vlane_vreg (f : Nat → Word32) (i : Nat) (h : i < 64) : vlane (vreg f) i = f i :=
  vget_vecOf 64 f i 0 h

theorem vget_replicate {α : Type} (n : Nat) (a : α) (i : Nat) : vget (Vector.replicate n a) i a = a := by
  simp only [vget, List.getD, Vector.toList_replicate, List.getElem?_replicate]
  split <;> rfl

/-- A lane of a set given by a predicate. -/
theorem getLsbD_maskOf (p : Nat → Bool) (i : Nat) : (maskOf p).getLsbD i = (decide (i < 64) && p i) := by
  have key : ∀ (l : List Nat) (m : BitVec 64), (∀ j ∈ l, j < 64) →
      (l.foldl (fun m j => if p j then m ||| (1#64 <<< j) else m) m).getLsbD i =
        (m.getLsbD i || (decide (i ∈ l) && p i)) := by
    intro l
    induction l with
    | nil => simp
    | cons a as ih =>
      intro m h
      rw [List.foldl_cons, ih _ (fun j hj => h j (List.mem_cons_of_mem _ hj))]
      have ha := h a List.mem_cons_self
      by_cases hp : p a
      · simp only [hp, if_true, BitVec.getLsbD_or, BitVec.getLsbD_shiftLeft, BitVec.getLsbD_one]
        by_cases hia : i = a
        · subst hia; simp [ha, hp]
        · by_cases hlt : i < a
          · simp [hia, hlt]
          · have : ¬ (i - a = 0) := by omega
            simp [hia, hlt, this]
      · simp only [hp]
        by_cases hia : i = a
        · subst hia; simp [hp]
        · simp [hia]
  have := key (List.range 64) 0#64 (fun j hj => List.mem_range.1 hj)
  simp only [maskOf, allLanes]
  rw [this]
  simp

theorem mem_lanesOf (m : Mask) (i : Nat) : i ∈ lanesOf m ↔ m.getLsbD i = true := by
  simp only [lanesOf, allLanes, List.mem_filter, List.mem_range, and_iff_right_iff_imp]
  intro h
  exact BitVec.lt_of_getLsbD h

end Sys2Proof.Machine
end

