-- ==== Sys2Proof/Tests/Slice0.lean ====
section
/-! SUPPORT. The model's own tests: ill-formed terms that `wellFormed` refuses, words of the spec's encodings, one step of
an instruction on a small machine, and for every statement with hypotheses a state and operands that meet them all. -/

namespace Sys2Proof.Tests
open Sys2Proof Sys2Proof.Machine
set_option Elab.async false

/-- A header with nothing set. -/
def hdr : Hdr := ⟨0, false, false, false, false, false⟩

/-- A launch of one team, on partition 0. -/
def lau : Launch :=
  { id := 1, queue := 0, num := 0, pkt := 0, addr := 0x9000, part := 0, prio := 0,
    vals :=
      { Vals.none with
        entry := 0x4000, tgrp := 1, gx := 1, gy := 1, gz := 1, scratch := 4096, frstk := 4096, tq := 4, smw := 1,
        dtc := 1, strm := 4, kq := 2, budget := 4 },
    tdisp := 0, next := 1, raised := false, nofit := false, status := 0, ended := false, coll := none,
    collStarted := false, collDone := true }

/-- Its team, on core 0. -/
def tm : Team :=
  { Team.blank 2 1 0 0 with
    core := some 0, past := [(0, 0, 0)], tids := List.replicate 4 none, scale := List.replicate 64 0,
    dts := [List.replicate 256 0], streams := List.replicate 4 ⟨Vector.replicate 64 0, 0, false⟩,
    kts := List.replicate 2 none }

/-- A group of it, in slot 0, at the entry. -/
def grp : Group := Group.launched 3 tm lau 0 0 0 0

/-- A machine whose next group to issue is g. -/
def mk (g : Group) : State :=
  { State.reset with
    launches := [lau], teams := [tm], groups := [g], cur := 3, nextId := 4
    cores := vset State.reset.cores 0 { Core.reset with part := 0 } }

/-- The machine with the group itself. -/
def s0 : State := mk grp

/-- What an instruction leaves of the group, read by f. -/
def after {α : Type} (i : Instr) (s : State) (f : State → Group → α) : Option α :=
  match exec i s with
  | .next t => (t.group? 3).map (f t)
  | _ => none

/-- The group with some uniform registers. -/
def withX (l : List (Nat × Word64)) : Group :=
  { grp with x := l.foldl (fun x p => vset x p.1 p.2) grp.x }

/-- The group with some vector registers, lane by lane. -/
def withV (l : List (Nat × (Nat → Word32))) : Group :=
  { grp with v := l.foldl (fun v p => vset v p.1 (vreg p.2)) grp.v }


/-! ## Ill-formed terms: one for each check of `wellFormed` -/

/-- `PN` = 1 with `PM` = 0 (R161). -/
def hPn : Hdr := { hdr with pn := true }

/-- A predicate. -/
def hPm : Hdr := { hdr with pm := 1 }

/-- `TR` (R162). -/
def hTr : Hdr := { hdr with tr := true }

/-- `UNI` (R133). -/
def hUni : Hdr := { hdr with uni := true }

/-- Every term of a list is ill-formed. -/
def allBad (l : List Instr) : Bool :=
  l.all (fun i => !i.wellFormed)

/-- Header checks: `PN` without `PM`, `TR` on a destination of two registers, an `X` destination of a lane source. -/
theorem test_wf_header : allBad
    [.iadd hPn false .i32 (.v 1) (.v 2) (.v 3), .iadd hTr false .i64 (.v 2) (.v 4) (.v 6),
     .iadd hdr false .i32 (.x 1) (.v 2) (.v 3), .iadd hdr false .i32 (.x 1) (.q 2) (.x 3), .jmp hPm 3 .always,
     .nop hTr, .fence hPm .team .ar, .xgrow hTr true false] = true := by decide +kernel

/-- Operand files and alignment (R43, R165, R180). -/
theorem test_wf_operands : allBad
    [.iadd hdr false .i64 (.v 1) (.v 2) (.v 4), .iadd hdr false .i64 (.v 2) (.v 3) (.v 4),
     .iadd hdr false .i64 (.v 2) (.v 4) (.q 1), .mov hdr .b128 (.x 1) (.x 2), .mov hdr .b128 (.v 4) (.v 6),
     .iadd hdr false .i32 (.m 1) (.v 2) (.v 3), .iadd hdr false .i32 (.v 1) (.c 2) (.v 3),
     .bcast hdr .b32 (.x 1) (.x 2), .bcast hdr .b32 (.v 1) (.v 2), .laneget hdr .b32 (.v 1) (.v 2) (.x 3),
     .laneget hdr .b64 (.x 1) (.v 3) (.x 3)] = true := by decide +kernel

/-- Types of the integer and bit forms (R201 to R208). -/
theorem test_wf_integer_types : allBad
    [.iadd hdr false .b32 (.v 1) (.v 2) (.v 3), .imulh hdr .i16 (.v 1) (.v 2) (.v 3), .iabs hdr false .n32 (.v 1) (.v 2),
     .ineg hdr false .b32 (.v 1) (.v 2), .iaddc hdr .i32 (.v 1) (.v 2) (.v 3) (.m 1),
     .iaddc hdr .n32 (.v 1) (.v 2) (.v 3) (.v 4), .iaddc hTr .n32 (.v 1) (.v 2) (.v 3) (.m 1),
     .icmp hdr .lt .b32 (.m 1) (.v 2) (.v 3), .icmp hdr .lt .i32 (.c 1) (.x 2) (.x 3),
     .icmp hdr .flags .i32 (.m 1) (.v 2) (.v 3), .icmp hdr .flags .i32 (.c 1) (.v 2) (.v 3),
     .sel hdr .i32 (.v 1) (.v 2) (.v 3) (.v 4), .lea hdr .i8 0 (.x 1) (.x 2) (.x 3), .clz hdr .i32 (.v 1) (.v 2),
     .popc hdr .b128 (.v 1) (.v 4), .and hdr .i32 (.v 1) (.v 2) (.v 3), .shl hdr .i32 (.v 1) (.v 2) (.v 3),
     .sar hdr .n32 (.v 1) (.v 2) (.v 3), .rotl hdr .n32 (.v 1) (.v 2) (.v 3), .brev hdr .b128 (.v 4) (.v 8),
     .bfx hdr .i16 (.v 1) (.v 2) (.v 3), .bfi hdr .i32 (.v 1) (.v 2) (.v 3) (.v 4), .movi hdr .b128 (.v 4) 0]
    = true := by decide +kernel

/-- Immediates (R170). -/
theorem test_wf_immediates : allBad
    [.shlImm hdr .n32 (.v 1) (.v 2) 256, .sarImm hdr .i32 (.v 1) (.v 2) 300, .rotlImm hdr .b32 (.v 1) (.v 2) 256,
     .bfxImm hdr .i32 (.v 1) (.v 2) 0x1_0000, .faddImm hdr .f16 .rne false (.v 1) (.v 2) 0x1_0000,
     .fcmpImm hdr .lt .f32 false (.m 1) (.v 2) 0x1_0000_0000] = true := by decide +kernel

/-- Float forms (R54, R209 to R213). -/
theorem test_wf_float : allBad
    [.fadd hdr .e4m3 .rne false (.v 1) (.v 2) (.v 3), .fadd hdr .f64 .rne false (.v 1) (.v 2) (.v 4),
     .fexp2 hdr .f64 .rne false (.v 2) (.v 4), .flog2 hdr .f64 .rne false (.v 2) (.v 4),
     .fcvt hdr .f32 .f32 .rne false false (.v 1) (.v 2), .fcvt hdr .f32 .f16 .rne false true (.v 1) (.v 2),
     .fcvt hdr .f32 .e8m0 .sr false false (.v 1) (.v 2), .fcvt hdr .f32 .e2m1 .rne false false (.v 1) (.v 2),
     .icvt hdr true .b32 .f32 .rne (.v 1) (.v 2), .icvt hdr true .i32 .e4m3 .rne (.v 1) (.v 2),
     .fclass hdr .e2m1 (.v 1) (.v 2), .fcmp hdr .flags .f32 false (.c 1) (.v 2) (.v 3)] = true := by decide +kernel

/-- Group and mask forms (R214 to R218). -/
theorem test_wf_lanes : allBad
    [.shfl hUni .b32 .up (.v 1) (.v 2) (.v 3), .shfl hdr .i32 .up (.v 1) (.v 2) (.v 3),
     .shfl hdr .b32 .up (.x 1) (.v 2) (.v 3), .qxch hdr .b32 .h (.v 1) (.x 2), .ballot hdr .b32 (.v 1) (.v 2),
     .vote hTr .b32 true (.m 1) (.v 2), .vote hdr .b32 true (.x 1) (.v 2), .gred hdr .exch .b32 (.v 1) (.v 2),
     .gred hdr .add .b32 (.v 1) (.v 2), .gred hdr .and .i32 (.v 1) (.v 2), .gscan hdr .add .i32 true (.x 1) (.v 2),
     .mfirst hdr (.v 1) (.v 2), .mpopc hdr (.m 1) (.m 2), .mand hPm (.m 1) (.m 2) (.m 3), .mor hdr (.v 1) (.m 2) (.m 3),
     .mnot hdr (.m 1) (.x 2), .mmov hdr (.m 1) (.v 2), .mtox hdr (.v 1) (.m 2), .mtox hPm (.x 1) (.m 2)]
    = true := by decide +kernel

/-- Special registers, blocks, queues, control (R188, R219 to R230, R232). -/
theorem test_wf_control : allBad
    [.mfs hdr (.v 1) 0x012, .mfs hdr (.v 1) 0x020, .mts hdr 0x000 (.x 1), .mts hdr 0x020 (.v 1), .xgrow hdr false false,
     .xdrop hdr false false, .qcfg hdr 0 9 32, .qcfg hdr 0 4 31, .qcfg hdr 0 8 57, .qcfg hdr 0 0 32,
     .bra hdr 0 5 .always, .bra hPm 0 0 .always, .call hdr (.direct 0 5) (.x 1), .call hdr (.direct 0 0) (.v 1),
     .ret hdr (.v 1), .wcall hdr false (.direct 0 0) none (.v 3), .gcall hdr false (.direct 0 5) none (.v 2),
     .wret hdr none (.v 1), .spawn hdr 0 0 (.v 2), .spawn hdr 0 5 (.v 4), .spwait hdr (.v 1), .exit hTr, .exit hPn,
     .mark hPm 3, .bkpt hTr 0, .trap hPm 0] = true := by decide +kernel

/-- Memory forms (R256, R262, R268 to R290). -/
theorem test_wf_memory : allBad
    [.ld hdr .i32 .team .plain (.v 1) ⟨.x 2, 0⟩, .ld hdr .i32 .team .rel (.v 1) ⟨.x 2, 0⟩,
     .ld hdr .i32 .group .plain (.v 1) ⟨.v 3, 0⟩, .ld hdr .i32 .group .plain (.x 1) ⟨.v 2, 0⟩,
     .st hdr .i32 .team .acq (.v 1) ⟨.x 2, 0⟩, .st hTr .i32 .group .plain (.v 1) ⟨.x 2, 0⟩,
     .lfull hdr .team .acq ⟨.x 2, 0⟩, .lempty hdr .team .rel ⟨.x 2, 0⟩, .ltest hdr .group .plain (.v 1) ⟨.x 2, 0⟩,
     .atom hdr .add .b32 .team .plain (.v 1) ⟨.v 2, 0⟩ (.v 4), .atom hdr .exch .b128 .team .plain (.v 2) ⟨.v 4, 0⟩ (.v 8),
     .cas hdr .i32 .team .plain false (.v 1) ⟨.v 2, 0⟩ (.v 4), .cas hdr .b32 .team .plain true (.v 1) ⟨.v 2, 0⟩ (.v 4),
     .redm hdr .exch .b32 .team .plain (.v 1) ⟨.v 2, 0⟩, .redm hdr .add .i32 .team .acq (.v 1) ⟨.v 2, 0⟩,
     .fence hdr .team .plain, .fenceFlag hdr .team .acq (.x 1) ⟨.x 2, 0⟩, .fenceFlag hdr .team .rel (.v 1) ⟨.x 2, 0⟩,
     .barinit hdr (.v 1) ⟨.x 2, 0⟩, .arrive hdr .team .acq (.x 1) ⟨.x 2, 0⟩ (.x 3),
     .waitb hdr .team .rel (.x 1) ⟨.x 2, 0⟩, .cmdw hdr (.v 4) ⟨.x 2, 0⟩ (.x 3), .cmdw hdr (.v 8) ⟨.x 2, 0⟩ (.x 3),
     .notify hdr .team (.v 1) ⟨.x 2, 0⟩, .bclose hdr (.v 1), .bwait hPm (.x 1), .pref hTr ⟨.x 2, 0⟩,
     .prefTlb hdr ⟨.m 2, 0⟩] = true := by decide +kernel

/-- System forms (R407 to R415). -/
theorem test_wf_system : allBad
    [.eret hPm, .eretSkip hTr, .eretFwd hPn, .mfsr hdr (.v 1) 0, .mtsr hdr (.v 1) 0, .tlbinv hdr .all (.x 1),
     .tlbinv hdr .part (.v 0), .waitev hdr (.x 1) 0, .waitev hdr (.v 1) 1] = true := by decide +kernel

/-- Matrix and tensor forms (R327 to R345). -/
theorem test_wf_matrix : allBad
    [.gang hdr (.v 1), .mma hdr .e4m3 5 false .rne (.x 1) (.x 2) (.v 4) none,
     .mma hdr .e4m3 4 false .rne (.x 1) (.x 2) (.v 2) none,
     .mma hdr .f16 3 false .rne (.x 1) (.x 2) (.v 4) (some ⟨.x 2, .x 4, 0, 0⟩),
     .mma hdr .e4m3 4 false .rne (.x 1) (.x 2) (.v 4) (some ⟨.x 3, .x 4, 0, 0⟩),
     .bdot hdr .f16 .rne (.v 1) (.v 2) (.v 4) (.v 6) (.x 2) 0 0, .bdot hdr .e4m3 .rne (.v 1) (.v 3) (.v 4) (.v 6) (.x 2) 0 0,
     .bdot hdr .e4m3 .rne (.v 1) (.v 2) (.v 4) (.v 6) (.x 3) 0 0, .accz hdr .f16 (.x 1), .accrd hdr .f32 (.v 4) (.x 1),
     .accrd hdr .f64 (.v 8) (.x 1), .accrdSt hdr .f32 .rne (.v 1) (.x 2) (.x 3) 0, .accwr hdr .f32 (.x 1) (.x 4),
     .tidset hdr (.v 1) 0, .tidget hPm 0 (.x 1) 0, .hadq hUni .rne (.x 1) (.v 2) (.x 3) (.x 4) 0, .zmap hdr (.v 1) 0]
    = true := by decide +kernel

/-- Key tables, streams, exchanges (R347 to R399). -/
theorem test_wf_units : allBad
    [.kclaim hdr 3 (.x 1) (.x 2) (.x 3) (.x 4), .kclaim hdr 13 (.x 1) (.x 2) (.x 3) (.x 4), .kfree hdr (.v 1),
     .kins hdr .i32 (.v 1) (.v 2) (.v 3) (.x 4), .kprb hdr .b64 (.v 1) (.v 2) (.v 3) (.x 4), .kdel hdr (.v 1) (.v 2) (.v 4),
     .kacc hdr .or .i32 (.v 1) (.v 2) (.v 3) (.x 4), .kacc hdr .fadd .b64 (.v 1) (.v 2) (.v 4) (.x 4),
     .kdrn hPm .b32 false false false (.v 1) (.v 2) (.x 3) (.x 4), .kstat hdr (.x 1) (.x 2), .slen hPm 0,
     .sgen hdr 0 (.v 1) (.v 2) (.x 3), .smul hdr (.s 1) (.v 2) (.s 3), .smin hUni (.s 1) (.s 2) (.s 3),
     .snot hdr (.s 1) (.v 2), .ssel hdr (.s 1) (.s 2) (.s 3) (.v 4), .scnt hdr false (.x 1) (.s 2),
     .sregen hdr 0 (.s 1) (.v 2) (.x 3), .sbit hdr (.v 1) (.s 2) (.x 3), .scls hdr (.v 1) (.s 2),
     .coll hdr none (.v 1) (.x 2) (.x 3) (.x 4) (.x 5), .dsend hdr (.v 2) (.v 4), .dsend hdr (.v 4) (.v 3),
     .dclose hdr (.x 1) (.v 2), .qpush hdr false (.v 1) (.v 2) (.x 3), .qpop hdr false none (.v 2) (.v 1) (.x 3),
     .qpop hdr false (some (.v 2)) (.v 4) (.v 1) (.x 3), .tile hdr (.x 1) (.x 2) (.x 4), .tile hdr (.t 1) (.x 3) (.x 4)]
    = true := by decide +kernel

/-! ## Words: the worked encodings of the spec, by family -/

/-- `(!M3) IADD.SAT.I32 V4, V5, V6 +SW` (07, worked encodings). -/
theorem test_decode_iadd : decode 0x0104_9E01_0141_8000_0000_0000
    = .ok (.iadd ⟨3, true, true, false, false, false⟩ true .i32 (.v 4) (.v 5) (.v 6)) := by decide +kernel

/-- `ICMP.LT.I32 M2, V7, 100` (09). -/
theorem test_decode_icmp : decode 0x4B0C_8020_81C0_0000_0000_0064
    = .ok (.icmpImm hdr .lt .i32 (.m 2) (.v 7) 100) := by decide +kernel

/-- `BFX.I64 V6, V0, V4` (11). -/
theorem test_decode_bfx : decode 0x1A00_C001_8001_0000_0000_0000
    = .ok (.bfx hdr .i64 (.v 6) (.v 0) (.v 4)) := by decide +kernel

/-- `FADD.F32.RZ V1, X2, V3`, written from R160, R166, R167, R171: `OPC` 0x20, `TY` 2, `RM` 1. -/
theorem test_decode_fadd : decode (0x20#8 ++ 0#6 ++ 2#4 ++ 0#3 ++ 0#5 ++ 1#8 ++ 0x42#8 ++ 3#8 ++ 0#8 ++ 1#3 ++ 0#1 ++
      0#4 ++ 0#30 : BitVec 96)
    = .ok (.fadd hdr .f32 .rz false (.v 1) (.x 2) (.v 3)) := by decide +kernel

/-- `SHFL.XOR.B32 V4, V1, X5` (14). -/
theorem test_decode_shfl : decode 0x3102_8001_0051_4001_0000_0000
    = .ok (.shfl hdr .b32 .xor (.v 4) (.v 1) (.x 5)) := by decide +kernel

/-- `BRA.Z C2, top +STOP` (07). -/
theorem test_decode_bra : decode 0x8000_007F_FFFC_A800_0000_0000
    = .ok (.bra { hdr with st := true } 0xF_FFFF 1 (.flag 2 .z false)) := by decide +kernel

/-- `WCALL V10, acc4, M2` (10). -/
theorem test_decode_wcall : decode 0x8400_0000_0014_6800_1400_0000
    = .ok (.wcall hdr false (.direct 5 0) (some 2) (.v 10)) := by decide +kernel

/-- `LD.N32.TEAM.ACQ V3, [X4+16]` (12). -/
theorem test_decode_ld : decode 0x9001_8000_D100_0004_0900_0000
    = .ok (.ld hdr .n32 .team .acq (.v 3) ⟨.x 4, 16⟩) := by decide +kernel

/-- `ATOM.ADD.N32 V9, [V18+0x800], V27 +SW` under `M7` (18). -/
theorem test_decode_atom : decode 0x9505_BA02_4480_0200_0003_6000
    = .ok (.atom { hdr with pm := 7, sw := true } .add .n32 .group .plain (.v 9) ⟨.v 18, 0x800⟩ (.v 27)) := by
  decide +kernel

/-- `WAITB.TEAM.ACQ X10, [X7]` (14). -/
theorem test_decode_waitb : decode 0x9B00_0012_91C0_0000_0900_0000
    = .ok (.waitb hdr .team .acq (.x 10) ⟨.x 7, 0⟩) := by decide +kernel

/-- `FENCE.FLAG.DEVICE.REL X15, [X16+0x40]` (22): `DATA` is `X15`. -/
theorem test_decode_fence_flag : decode 0x9804_0013_D400_0010_2200_0000
    = .ok (.fenceFlag hdr .device .rel (.x 15) ⟨.x 16, 0x40⟩) := by decide +kernel

/-- `TLBINV.PART X4` and `WAITEV X5, 0x5` (21). -/
theorem test_decode_system : decode 0xB300_0011_0000_0800_0000_0000 = .ok (.tlbinv hdr .part (.x 4)) ∧
    decode 0xB400_0011_4001_4000_0000_0000 = .ok (.waitev hdr (.x 5) 5) := by decide +kernel

/-- `MMA.E4M3.K64.ID.ZA X20, X21, V8, X22, X24, #3, #4` (15). -/
theorem test_decode_mma : decode 0xC101_0015_1542_1596_0311_C000
    = .ok (.mma hdr .e4m3 4 true .rne (.x 20) (.x 21) (.v 8) (some ⟨.x 22, .x 24, 3, 4⟩)) := by decide +kernel

/-- `GANG X4` and `ACCRD.F32 V16, X20` (16). -/
theorem test_decode_gang : decode 0xC000_0000_1100_0000_0000_0000 = .ok (.gang hdr (.x 4)) ∧
    decode 0xC400_8004_1500_0000_0000_0000 = .ok (.accrd hdr .f32 (.v 16) (.x 20)) := by decide +kernel

/-- `KACC.ADD.I32 V2, V4, V6, X9` (17): the low word is `SD[1:0]` << 30. -/
theorem test_decode_kacc : decode 0xD504_8000_8101_8012_4000_0000
    = .ok (.kacc hdr .add .i32 (.v 2) (.v 4) (.v 6) (.x 9)) := by decide +kernel

/-- `KDRN.B32.KEY V30, V31, X14, X9 +SW` (18). -/
theorem test_decode_kdrn : decode 0xD602_8207_8007_D392_4000_1000
    = .ok (.kdrn { hdr with sw := true } .b32 true false false (.v 30) (.v 31) (.x 14) (.x 9)) := by decide +kernel

/-- `SGEN.C1 S2, V6, X9` and `SSEL S5, S0, S1, S2` (19). -/
theorem test_decode_streams : decode 0xE100_0034_8192_4000_0000_1000 = .ok (.sgen hdr 1 (.s 2) (.v 6) (.x 9)) ∧
    decode 0xE600_0035_7434_7480_0000_0000 = .ok (.ssel hdr (.s 5) (.s 0) (.s 1) (.s 2)) := by decide +kernel

/-- `COLL X3, X4, X5, X6, X7` with `.T1` and without (20). -/
theorem test_decode_coll :
    decode 0xF000_0010_D111_5191_C000_5000 = .ok (.coll hdr (some 1) (.x 3) (.x 4) (.x 5) (.x 6) (.x 7)) ∧
    decode 0xF000_0010_D111_5191_C000_0000 = .ok (.coll hdr none (.x 3) (.x 4) (.x 5) (.x 6) (.x 7)) := by decide +kernel

/-- `QPUSH.WAIT V2, V8, X6` (20). -/
theorem test_decode_qpush : decode 0xF300_0000_8200_0011_8000_1000
    = .ok (.qpush hdr true (.v 2) (.v 8) (.x 6)) := by decide +kernel

/-- `MAND M1, M2, M3`, written from R166 and R171: reserved and unused fields 0. -/
theorem test_decode_masks :
    decode (0x39#8 ++ 0#6 ++ 0#4 ++ 0#3 ++ 0#5 ++ 0x81#8 ++ 0x82#8 ++ 0x83#8 ++ 0#46 : BitVec 96)
      = .ok (.mand hdr (.m 1) (.m 2) (.m 3)) := by decide +kernel

/-- Reserved codes are refused: `OPC` 0, a set reserved bit of `NOP`, a reserved operand code. -/
theorem test_decode_refuses : (decode 0).toOption = none ∧ (decode (0x8A#8 ++ 1#88 : BitVec 96)).toOption = none ∧
    (decode (0x01#8 ++ 0#6 ++ 2#4 ++ 0#3 ++ 0#5 ++ 0x88#8 ++ 2#8 ++ 3#8 ++ 0#46 : BitVec 96)).toOption = none := by
  decide +kernel

/-! ## One step on a small machine -/

/-- Lane i of vector register n after an instruction. -/
def laneAfter (i : Instr) (g : Group) (n l : Nat) : Option Word32 :=
  after i (mk g) (fun _ k => vlane (vget k.v n vzero) l)

/-- Uniform register n after an instruction. -/
def xAfter (i : Instr) (g : Group) (n : Nat) : Option Word64 :=
  after i (mk g) (fun _ k => vget k.x n 0)

/-- The number of a lane. -/
def laneNo (i : Nat) : Word32 := BitVec.ofNat 32 i

/-! The rows of the program table of 11 (`rowsum`). -/

theorem test_movi : xAfter (.movi hdr .n64 (.x 3) 0x2710_1770) grp 3 = some 0x2710_1770 := by decide +kernel

theorem test_shl : xAfter (.shlImm hdr .b64 (.x 3) (.x 3) 32) (withX [(3, 0x2710_1770)]) 3
    = some 0x2710_1770_0000_0000 := by decide +kernel

theorem test_or : xAfter (.orImm hdr .b64 (.x 3) (.x 3) 0x1F40_2710) (withX [(3, 0x2710_1770_0000_0000)]) 3
    = some 0x2710_1770_1F40_2710 := by decide +kernel

theorem test_imul : xAfter (.imul hdr false .n64 (.x 3) (.x 3) (.x 2)) (withX [(3, 0x2710_1770_1F40_2710), (2, 3)]) 3
    = some 0x7530_4650_5DC0_7530 := by decide +kernel

theorem test_bcast : laneAfter (.bcast hdr .b64 (.v 10) (.x 3)) (withX [(3, 0x7530_4650_5DC0_7530)]) 10 63
      = some 0x5DC0_7530 ∧
    laneAfter (.bcast hdr .b64 (.v 10) (.x 3)) (withX [(3, 0x7530_4650_5DC0_7530)]) 11 0 = some 0x7530_4650 := by
  decide +kernel

theorem test_mmov : after (.mmov hdr (.m 1) (.x 4)) (mk (withX [(4, 1)])) (fun _ k => k.mVal 1) = some 1 := by
  decide +kernel

theorem test_bfx : laneAfter (.bfx hdr .i64 (.v 6) (.v 0) (.v 4))
    (withV [(0, fun _ => 0x1F40_2710), (4, fun _ => 0x1010)]) 6 1 = some 8000 := by decide +kernel

/-! By the rules of 02 and 09. -/

/-- Wrapping and clamping at the top of `I32` (R44). -/
theorem test_iadd_wraps :
    laneAfter (.iaddImm hdr false .i32 (.v 1) (.v 2) 1) (withV [(2, fun _ => 0x7FFF_FFFF)]) 1 5 = some 0x8000_0000 ∧
    laneAfter (.iaddImm hdr true .i32 (.v 1) (.v 2) 1) (withV [(2, fun _ => 0x7FFF_FFFF)]) 1 5 = some 0x7FFF_FFFF := by
  decide +kernel

/-- A source that is also the destination, of narrow lanes: 5 − 7 in `N8` is 254. -/
theorem test_isub_narrow : laneAfter (.isub hdr false .n8 (.v 1) (.v 1) (.v 2))
    (withV [(1, fun _ => 5), (2, fun _ => 7)]) 1 0 = some 254 := by decide +kernel

/-- The high half of −1 × 2 (R201). -/
theorem test_imulh : laneAfter (.imulh hdr .i32 (.v 1) (.v 2) (.v 3))
    (withV [(2, fun _ => 0xFFFF_FFFF), (3, fun _ => 2)]) 1 0 = some 0xFFFF_FFFF := by decide +kernel

/-- The carry of lane 1 only enters and leaves (R204). -/
theorem test_iaddc : after (.iaddc hdr .n32 (.v 1) (.v 2) (.v 3) (.m 1))
    (mk { withV [(2, fun _ => 0xFFFF_FFFF)] with m := vset grp.m 1 2 })
    (fun _ k => (vlane (vget k.v 1 vzero) 0, vlane (vget k.v 1 vzero) 1, k.mVal 1)) = some (0xFFFF_FFFF, 0, 2) := by
  decide +kernel

/-- `C` is unsigned or signed less-or-equal: 3 against 3 gives `Z` and `C` (16). -/
theorem test_icmp_flags : after (.icmpImm hdr .flags .n64 (.c 0) (.x 3) 0) s0 (fun _ k => k.cVal 0) = some 0b0101 := by
  decide +kernel

/-- `(M1)` guards: lane 1 is written, lane 0 keeps its value (R161). -/
theorem test_predicate : after (.movi { hdr with pm := 1 } .b32 (.v 1) 9) (mk { grp with m := vset grp.m 1 2 })
    (fun _ k => (vlane (vget k.v 1 vzero) 0, vlane (vget k.v 1 vzero) 1)) = some (0, 9) := by decide +kernel

/-- A shift by the width gives 0; an arithmetic one the sign (R202). -/
theorem test_shift_width :
    laneAfter (.shrImm hdr .b32 (.v 1) (.v 2) 32) (withV [(2, fun _ => 0x8000_0000)]) 1 0 = some 0 ∧
    laneAfter (.sarImm hdr .i32 (.v 1) (.v 2) 40) (withV [(2, fun _ => 0x8000_0000)]) 1 0 = some 0xFFFF_FFFF := by
  decide +kernel

/-- The leading zeros of 0 are 32 (R206 to R208). -/
theorem test_clz : laneAfter (.clz hdr .b32 (.v 1) (.v 2)) grp 1 0 = some 32 := by decide +kernel

theorem test_brev : laneAfter (.brev hdr .b32 (.v 1) (.v 2)) (withV [(2, fun _ => 1)]) 1 0 = some 0x8000_0000 := by
  decide +kernel

/-- `LEA.N64.SH4` (14). -/
theorem test_lea : xAfter (.lea hdr .n64 4 (.x 8) (.x 7) (.x 3)) (withX [(7, 0x00C0_0000_2000_0000), (3, 2)]) 8
    = some 0x00C0_0000_2000_0020 := by decide +kernel

/-- `M0` discards writes (R181). -/
theorem test_m0 : after (.mnot hdr (.m 0) (.m 1)) s0 (fun _ k => k.mVal 0) = some (BitVec.allOnes 64) := by decide +kernel

/-- `TR`: the register stays, the next instruction reads the result (R193). -/
theorem test_tr : after (.movi { hdr with tr := true } .b64 (.x 3) 7) s0 (fun _ k => (vget k.x 3 0, k.xVal 3))
    = some (0, 7) := by decide +kernel

/-! Float (14, 18): 1/52 rounds up and is inexact; 1 + 1.5 is 2.5. -/

theorem test_frcp : after (.frcp { hdr with sw := true } .f32 .rne false (.v 5) (.v 4))
    (mk (withV [(4, fun _ => 0x4250_0000)])) (fun _ k => ((k.pend.map (fun l => l.writes.length)), k.fstat, k.wait))
    = some ([1], 0x10, some .switch) := by decide +kernel

theorem test_frcp_value : ((frcpF ⟨.f32, .rne, false, 0⟩ (fltOf .f32 false 0x4250_0000)).1).toNat = 0x3C9D_89D9 := by
  decide +kernel

theorem test_fadd : laneAfter (.faddImm hdr .f32 .rne false (.v 1) (.v 2) 0x3F80_0000)
    (withV [(2, fun _ => 0x3FC0_0000)]) 1 0 = some 0x4020_0000 := by decide +kernel

theorem test_fmul : laneAfter (.fmul hdr .f32 .rne false (.v 8) (.v 6) (.v 5))
    (withV [(6, fun _ => 0x4180_0000), (5, fun _ => 0x3C9D_89D9)]) 8 0 = some 0x3E9D_89D9 := by decide +kernel

/-- 1 / 0 is +∞ with `DIVZERO` (R54, R56). -/
theorem test_fdiv_zero : after (.fdiv hdr .f32 .rne false (.v 1) (.v 2) (.v 3)) (mk (withV [(2, fun _ => 0x3F80_0000)]))
    (fun _ k => k.fstat) = some 2 := by decide +kernel

/-- 65,536 in `F16` overflows: to +∞, or to the largest finite value under `RZ` (R51). -/
theorem test_fcvt_overflow :
    laneAfter (.fcvt hdr .f32 .f16 .rne false false (.v 1) (.v 2)) (withV [(2, fun _ => 0x4780_0000)]) 1 0
      = some 0x7C00 ∧
    laneAfter (.fcvt hdr .f32 .f16 .rz false false (.v 1) (.v 2)) (withV [(2, fun _ => 0x4780_0000)]) 1 0
      = some 0x7BFF := by decide +kernel

theorem test_icvt : laneAfter (.icvt hdr true .i32 .f32 .rz (.v 1) (.v 2)) (withV [(2, fun _ => 0xC020_0000)]) 1 0
    = some 0xFFFF_FFFE := by decide +kernel

/-! Lanes (18) and masks. -/

theorem test_shfl : laneAfter (.shfl hdr .b32 .xor (.v 7) (.v 6) (.x 5))
    { withV [(6, laneNo)] with x := vset grp.x 5 1 } 7 4 = some 5 := by decide +kernel

/-- `UP` by 1: lane 0 keeps its own value (R215). -/
theorem test_shfl_up : laneAfter (.shfl hdr .b32 .up (.v 7) (.v 6) (.x 5))
    { withV [(6, laneNo)] with x := vset grp.x 5 1 } 7 63 = some 62 ∧
    laneAfter (.shfl hdr .b32 .up (.v 7) (.v 6) (.x 5)) { withV [(6, laneNo)] with x := vset grp.x 5 1 } 7 0
      = some 0 := by decide +kernel

theorem test_ballot : xAfter (.ballot hdr .b32 (.x 1) (.v 2)) (withV [(2, fun i => if i % 2 = 1 then 1 else 0)]) 1
    = some 0xAAAA_AAAA_AAAA_AAAA := by decide +kernel

/-- The sum of the lane numbers is 2,016 in every lane (R216). -/
theorem test_gred : laneAfter (.gred hdr .add .i32 (.v 1) (.v 2)) (withV [(2, laneNo)]) 1 7 = some 2016 := by
  decide +kernel

theorem test_gscan : laneAfter (.gscan hdr .add .i32 true (.v 1) (.v 2)) (withV [(2, laneNo)]) 1 4 = some 6 := by
  decide +kernel

theorem test_mpopc : xAfter (.mpopc hdr (.x 1) (.m 1)) { grp with m := vset grp.m 1 0xF0 } 1 = some 4 := by
  decide +kernel

/-- `MFS LANE` (14, R188). -/
theorem test_mfs : laneAfter (.mfs hdr (.v 22) 0x000) grp 22 63 = some 63 := by decide +kernel

/-! Control. -/

/-- A branch that is taken to a line no table maps takes the cause of its fetch, `PAGEFLT`, a supervisor cause, at its own
slot (R157, R402, R404, R414). -/
theorem test_bra_unmapped : after (.bra hdr 0 0 .always) s0 (fun _ k => (k.mode, vget k.x 56 0 &&& 0xFF,
    k.sset.map (fun h => h.ret))) = some (.supervisor, 7, some 0x4000) := by decide +kernel

/-- Not taken, it goes on at the next slot (16). -/
theorem test_bra_not_taken : after (.bra hdr 0 0 (.flag 0 .z false)) s0 (fun _ k => k.pc) = some 0x400C := by
  decide +kernel

/-- A trap without a handler halts the group (R405); a supervisor fault enters the supervisor (R404). -/
theorem test_trap : after (.trap hdr 5) s0 (fun _ k => k.halted) = some (some .nohandler) ∧
    after (.mfsr hdr (.x 1) 0) s0 (fun _ k => (k.mode, k.sset.isSome)) = some (.supervisor, true) := by decide +kernel

/-- Lanes leave; the last one ends the group (R228). -/
theorem test_exit : after (.exit { hdr with pm := 1 }) (mk { grp with m := vset grp.m 1 0xFF }) (fun _ k => k.exec)
      = some 0xFFFF_FFFF_FFFF_FF00 ∧
    after (.exit hdr) s0 (fun _ k => k.exec) = none := by decide +kernel

/-- `QCFG` (R182): depth and base, an empty queue. -/
theorem test_qcfg : after (.qcfg hdr 2 4 40) (mk { grp with lo := true }) (fun _ k => vget k.q 2 ⟨0, 0, 0, 0⟩) = some ⟨4, 40, 0, 0⟩ := by
  decide +kernel

theorem test_nop : after (.nop hdr) s0 (fun _ k => (k.pc, k.steps)) = some (0x400C, 1) := by decide +kernel

/-- After slot 4 comes slot 0 of the next line (R156). -/
theorem test_next_line : after (.nop hdr) (mk { grp with pc := 0x4030 }) (fun _ k => k.pc) = some 0x4040 := by
  decide +kernel

/-! Memory: the local window of the core (R27). -/

/-- The local window. -/
def lw : Word64 := 0x00C0_0000_2000_0000

/-- Little-endian bytes; a later lane's store wins (R3, R259). -/
theorem test_st : after (.st hdr .b32 .group .plain (.v 1) ⟨.x 2, 4⟩)
    (mk { withV [(1, laneNo)] with x := vset grp.x 2 lw }) (fun s _ => (s.readNat (scrLoc 0 4) 4)) = some 63 := by
  decide +kernel

theorem test_ld : (after (.ld hdr .i8 .group .plain (.v 1) ⟨.x 2, 0⟩)
    ((mk (withX [(2, lw)])).writeNat (scrLoc 0 0) 1 0x80) (fun _ k => k.pend.map (fun l => l.writes.map (fun w =>
      match w with | .v n _ val => (n, vlane val 0) | _ => (0, 0))))) = some [[(1, 0xFFFF_FF80)]] := by decide +kernel

/-- A misaligned word takes `MISALIGN`, a supervisor cause (R257, R402). -/
theorem test_misaligned : after (.ld hdr .i32 .group .plain (.v 1) ⟨.x 2, 2⟩) (mk (withX [(2, lw)]))
    (fun _ k => (k.mode, vget k.x 56 0 &&& 0xFF)) = some (.supervisor, 5) := by decide +kernel

/-- Lanes 128 bytes apart share a bank, lanes 4 bytes apart do not (R260); the count of a core (R424). -/
theorem test_bankpass : passes ((List.range 32).map (32 * ·)) = 32 ∧ passes (List.range 32) = 1 ∧
    after (.ld hdr .n32 .group .plain (.v 1) ⟨.v 2, 0⟩)
      (mk (withV [(2, fun i => BitVec.ofNat 32 (0x2000_0000 + 128 * i)), (3, fun _ => 0x00C0_0000)])) (fun s _ => vget (s.core 0).events 2 0) = some 62 := by decide +kernel

/-- Lanes add one after the other (R259): 64 times 1. -/
theorem test_atom : after (.atom hdr .add .n32 .team .plain (.v 1) ⟨.x 2, 0⟩ (.v 3))
    (mk { withV [(3, fun _ => 1)] with x := vset grp.x 2 lw }) (fun s _ => s.readNat (scrLoc 0 0) 4) = some 64 := by
  decide +kernel

/-- `LEMPTY` empties, `LFULL` fills a line; a load of an empty line waits (R265, R266). -/
theorem test_lines : after (.lempty { hdr with pm := 1 } .group .plain ⟨.x 2, 0⟩)
      (mk { withX [(2, lw)] with m := vset grp.m 1 1 }) (fun s _ => s.fe) = some [0] ∧
    after (.lfull { hdr with pm := 1 } .group .plain ⟨.x 2, 0⟩)
      ({ mk { withX [(2, lw)] with m := vset grp.m 1 1 } with fe := [0] }) (fun s _ => s.fe) = some [] := by
  decide +kernel

/-- `BARINIT` sets `EXPECT`, clears `ARRIVED`, `NOOR` and `NSKIP`, and leaves `PHASE` (R275, R276). -/
theorem test_barinit : after (.barinit hdr (.x 1) ⟨.x 2, 0⟩)
    ((mk (withX [(1, 5), (2, lw)])).writeNat (scrLoc 0 0) 16 (3 * 2 ^ 112 + 4 * 2 ^ 96 + 7 * 2 ^ 64 + 2 * 2 ^ 32 + 9))
    (fun s _ => s.readNat (scrLoc 0 0) 16) = some (7 * 2 ^ 64 + 5) := by decide +kernel

/-! Streams (19). -/

theorem test_slen : after (.slen hdr 1) s0 (fun _ k => k.len) = some 1 := by decide +kernel

/-! Events. -/

/-- The result of an exec of an event, read by f. -/
def run {α : Type} (i : Instr) (s : State) (f : State → α) : Option α :=
  match exec i s with
  | .next t => some (f t)
  | _ => none

theorem test_xpool : run (.xpoolWrite (.master 0) 3 200) s0 (fun t => (t.core 3).xlimit) = some 128 := by decide +kernel

theorem test_owner_claim : run (.ownerClaim 1 0 0x1_0001) s0 (fun t => t.mgmt.owner) = some 0x1_0001 := by decide +kernel

theorem test_softerror : run (.softError 0x123 false) s0 (fun t => t.poison) = some [0x12] := by decide +kernel

theorem test_clkstep : run .clkstep s0 (fun t => (t.clock, t.cap)) = some (1250, 2400) := by decide +kernel

/-- Bytes of the host land in main memory (R298). -/
theorem test_host_write : run (.hostOrPeerRequest (.master 1) 0x100 2 (.write [1, 2]))
    ({ s0 with mgmt := { s0.mgmt with bootState := 2 } }) (fun t => t.mem)
    = some [(0x100, 1), (0x101, 2)] := by decide +kernel

/-- Overrun of a queue's tail (R114). -/
theorem test_overrun : run (.qtailWrite (.master 1) 5 3)
    ({ s0 with mgmt := { s0.mgmt with bootState := 2, owner := 1 } }) (fun t => (t.queue 5).qerr) = some true := by
  decide +kernel

/-- The fetched word is the one stored (log entry 1, DEDUCED). -/
theorem test_fetch : (match step (State.reset.withFetchWord 96 0x8A00_0000_0000_0000_0000_0000) with
    | .next t => (t.group? t.cur).map (fun g => g.pc) | _ => none) = some 0x400C := by decide +kernel
/-! ## Witnesses

/-- Source: SHA3-384 of the empty message, the example of FIPS 202. -/
theorem test_sha3_empty : bytesOf 48 (sha3 []).toNat = (bytesOf 48 (0x0c63a75b845e4f7d01107d852e4c2485c51a50aaaa94fc61 * 2 ^ 192 +
    0x995e71bbee983a2ac3713831264adb47fb6bd1e058d5f004)).reverse := by
  unfold sha3
  decide +kernel

/-- Source: the first key of RFC 8032, section 7.1. -/
theorem test_ed25519_public :
    edPublic (BitVec.ofNat 256 (natOf (bytesOf 32 0x9d61b19deffd5a60ba844af492ec2cc44449c5697b326919703bac031cae7f60).reverse)) =
      BitVec.ofNat 256 (natOf (bytesOf 32 0xd75a980182b10ab7d54bfed3c964073a0ee172f3daa62325af021a68f707511a).reverse) := by
  unfold edPublic
  decide +kernel

For each clause of a statement that has hypotheses, a state and operands that meet all of them. -/

/-- The first group of a machine is the one it runs. -/
theorem cur_of {s : State} {g : Group} {l : List Group} (hg : s.groups = g :: l) (hc : s.cur = g.id) : s.group? s.cur = some g := by
  simp [State.group?, hg, hc]

theorem of_id {s : State} {g : Group} {l : List Group} (hg : s.groups = g :: l) : s.group? g.id = some g := by
  simp [State.group?, hg]

/-- A result that is a value. -/
theorem ok_of {ε α : Type} {e : Except ε α} {a : α} (h : e.toOption = some a) : e = .ok a := by
  cases e <;> simp_all [Except.toOption]

/-- A line with these fields in it, with its parity. -/
def withParity (b : BitVec 512) : BitVec 512 :=
  b ||| ((lineParity b).setWidth 512 <<< 480)

/-- An entry record of a width rule and 16 registers, and four `GADD.I32` fields where it returns results. -/
def recLine (wrule wlog nres : Nat) : BitVec 512 :=
  withParity ((1#512 <<< 496) ||| (16#512 <<< 96) ||| (BitVec.ofNat 512 wrule <<< 104) ||| (BitVec.ofNat 512 wlog <<< 106) |||
    (BitVec.ofNat 512 nres <<< 116))

/-- A line of NOPs whose slot 0 may be entered. -/
def tgtLine : BitVec 512 := withParity ((1#512 <<< 507) ||| ((encode (.nop hdr)).getD 0).setWidth 512)

/-- The machine with page tables, a record at 0x4FC0 and a line that may be entered at 0x5000, where `PTVEC` points. -/
def mkCode (r : BitVec 512) (g : Group) : State :=
  ((((mk g).loadTables.modPart 0 (fun p => { p with proot := 0x10000, ptvec := 0x5000 })).writeNat 0x4FC0 64
    r.toNat).writeNat 0x5000 64 tgtLine.toNat)

/-- With a record of the width rule *keep*. -/
def sCode : State := mkCode (recLine 0 0 0) grp

/-- `JMP X1` goes there. -/
def grpJ : Group := withX [(1, 0x5000)]

theorem enters (g : Group) (r : BitVec 512) (h : (mkCode r g).codeLine ((mkCode r g).accessor g) (lineAddr 0x5000) = .ok tgtLine) :
    Claims.mayEnter (mkCode r g) g 0x5000 0 :=
  ⟨by decide, by decide, tgtLine, ⟨h, by decide +kernel⟩, by decide +kernel⟩

/-- A line whose location, bits and parity are known is read without a mismatch. -/
theorem sound_line {s : State} {a : Accessor} {va : Word64} {loc : Nat} {b : BitVec 512}
    (h1 : s.locOf a .fetch va = .ok loc) (h2 : BitVec.ofNat 512 (s.readNat loc 64) = b)
    (h3 : lineParity b = b.extractLsb' 480 16) : (s.fetchLine a va).mismatch = false := by
  simp [State.fetchLine, h1, h2, h3, FetchLine.mismatch]

/-- Both lines of a call, the record's and the target's, are sound. -/
theorem sound_call (r : BitVec 512) (g : Group) (t : Target)
    (ha : lineAddr (Claims.address g t) = 0x5000)
    (h : (mkCode r g).locOf ((mkCode r g).accessor g) .fetch 0x5000 = .ok 0x5000)
    (h' : (mkCode r g).locOf ((mkCode r g).accessor g) .fetch 0x4FC0 = .ok 0x4FC0)
    (h1 : BitVec.ofNat 512 ((mkCode r g).readNat 0x5000 64) = tgtLine)
    (h2 : BitVec.ofNat 512 ((mkCode r g).readNat 0x4FC0 64) = r) (h3 : lineParity r = r.extractLsb' 480 16) :
    ∀ va ∈ [lineAddr (Claims.address g t), lineAddr (Claims.address g t) - 64],
      ((mkCode r g).fetchLine ((mkCode r g).accessor g) va).mismatch = false := by
  rw [ha, show (0x5000 : Word64) - 64 = 0x4FC0 from by decide]
  intro va hv
  simp only [List.mem_cons, List.not_mem_nil, or_false] at hv
  obtain rfl | rfl := hv
  · exact sound_line h h1 (by decide +kernel)
  · exact sound_line h' h2 h3

theorem witness_DecodeEncode_0 :
    ∃ (i : Instr), ∃ w, (i.wellFormed = true) ∧ (encode i = some w) := by
  refine ⟨.iadd hdr false .i32 (.v 1) (.v 2) (.v 3), 310089477379078304991019008, ?_, ?_⟩ <;>
    decide +kernel

/-- The machine whose group is at the line 0x5000. -/
def sFetch : State := mkCode (recLine 0 0 0) { grp with pc := 0x5000 }

/-- The line it fetches there. -/
def lineF : FetchLine := { va := 0x5000, pa := 0x5000, bits := tgtLine, parBad := false, poison := none, fault := none }

theorem witness_BadSlotsTrap_0 :
    ∃ (s : State) (g : Group) (l : FetchLine), ∃ c, (s.agenda = []) ∧ (s.group? s.cur = some g) ∧ (s.mayIssue g =
      true) ∧ (g.line = some l) ∧ (l.va = lineAddr g.pc) ∧ (l.fault = some c) := by
  refine ⟨mk ({ grp with pc := 0x5000, line := some ({ lineF with fault := some .perm }) }),
    { grp with pc := 0x5000, line := some ({ lineF with fault := some .perm }) }, { lineF with fault := some .perm },
    .perm, ?_, cur_of rfl rfl, ?_, ?_, ?_, ?_⟩ <;>
    decide +kernel

theorem witness_BadSlotsTrap_1 :
    ∃ (s : State) (g : Group) (l : FetchLine), (s.agenda = []) ∧ (s.group? s.cur = some g) ∧ (s.mayIssue g = true) ∧
      (g.line = some l) ∧ (l.va = lineAddr g.pc) ∧ (l.fault = none) ∧ (l.parBad = true) := by
  refine ⟨mk ({ grp with pc := 0x5000, line := some ({ lineF with parBad := true }) }),
    { grp with pc := 0x5000, line := some ({ lineF with parBad := true }) }, { lineF with parBad := true }, ?_, cur_of
    rfl rfl, ?_, ?_, ?_, ?_, ?_⟩ <;>
    decide +kernel

theorem witness_BadSlotsTrap_2 :
    ∃ (s : State) (g : Group) (l : FetchLine), (s.agenda = []) ∧ (s.group? s.cur = some g) ∧ (s.mayIssue g = true) ∧
      (g.line = some l) ∧ (l.va = lineAddr g.pc) ∧ (l.fault = none) ∧ (l.parBad = false) ∧ (l.poison = none) ∧
      (slotInstr l.bits (slotOf g.pc) = none) := by
  refine ⟨mk ({ grp with pc := 0x5000, line := some ({ lineF with bits := withParity (0xFF#512) }) }),
    { grp with pc := 0x5000, line := some ({ lineF with bits := withParity (0xFF#512) }) },
    { lineF with bits := withParity (0xFF#512) }, ?_, cur_of rfl rfl, ?_, ?_, ?_, ?_, ?_, ?_, ?_⟩ <;>
    decide +kernel

theorem witness_FinishMovesOn_0 :
    ∃ (s t : State) (g : Group) (h : Hdr) (short : List RegWrite) (long : List LongOut) (next : Option Word64)
      (touches : List Touch), (s.group? g.id = some g) ∧ (h.sw = true → g.pend = [] ∧ long = []) ∧ (t = s.finish g h
      short long next none touches) := by
  refine ⟨s0, _, grp, { hdr with sw := true }, [], [], none, [], of_id rfl, (by intro; decide +kernel), rfl⟩

theorem witness_ResultsReadBack_1 :
    ∃ (g : Group) (tr : Bool) (d : Opd) (w : Nat) (lanes : Mask) (f : Nat → Code) (i : Nat), ∃ n, (w = 8 ∨ w = 16 ∨ w
      = 32 ∨ w = 64 ∨ w = 128) ∧ (lanes.getLsbD i = true) ∧ (d = .x n) := by
  refine ⟨grp, false, .x 1, 64, 1, fun _ => 7, 0, 1, ?_, ?_, rfl⟩ <;>
    decide +kernel

theorem witness_ResultsReadBack_2 :
    ∃ (g : Group) (tr : Bool) (d : Opd) (w : Nat) (lanes : Mask) (f : Nat → Code) (i : Nat), ∃ n, (w = 8 ∨ w = 16 ∨ w
      = 32 ∨ w = 64 ∨ w = 128) ∧ (lanes.getLsbD i = true) ∧ (d = .v n ∨ d = .x n) ∧ (tr = true) := by
  refine ⟨grp, true, .v 255, 128, single 63, fun _ => 7, 63, 255, ?_, ?_, (by exact .inl rfl), rfl⟩ <;>
    decide +kernel

theorem witness_ResultsReadBack_3 :
    ∃ (g : Group) (tr : Bool) (d : Opd) (w : Nat) (lanes : Mask) (f : Nat → Code) (i : Nat), ∃ n, (w = 8 ∨ w = 16 ∨ w
      = 32 ∨ w = 64 ∨ w = 128) ∧ (lanes.getLsbD i = true) ∧ (d = .v n) ∧ (tr = false) := by
  refine ⟨grp, false, .v 255, 8, single 63, fun _ => 7, 63, 255, ?_, ?_, rfl, rfl⟩ <;>
    decide +kernel

theorem witness_ResultsReadBack_4 :
    ∃ (g : Group) (tr : Bool) (d : Opd) (w : Nat) (lanes : Mask) (f : Nat → Code) (i : Nat), ∃ n, (w = 8 ∨ w = 16 ∨ w
      = 32 ∨ w = 64 ∨ w = 128) ∧ (lanes.getLsbD i = true) ∧ (d = .m n) ∧ (n ≠ 0) ∧ (tr = false) := by
  refine ⟨grp, false, .m 7, 32, 1, fun _ => 7, 0, 7, ?_, ?_, rfl, ?_, rfl⟩ <;>
    decide +kernel

theorem witness_ResultsReadBack_5 :
    ∃ (g : Group) (tr : Bool) (d : Opd) (w : Nat) (lanes : Mask) (f : Nat → Code) (i : Nat), ∃ n, (w = 8 ∨ w = 16 ∨ w
      = 32 ∨ w = 64 ∨ w = 128) ∧ (lanes.getLsbD i = true) ∧ (d = .c n) ∧ (tr = false) := by
  refine ⟨grp, false, .c 3, 32, 1, fun _ => 7, 0, 3, ?_, ?_, rfl, rfl⟩ <;>
    decide +kernel

theorem witness_ResultsReadBack_n0 :
    ∃ (g : Group) (tr : Bool) (d : Opd) (w : Nat) (lanes : Mask) (f : Nat → Code) (i : Nat) (n : BitVec 6), (w = 8 ∨
      w = 16 ∨ w = 32 ∨ w = 64 ∨ w = 128) ∧ (BitVec.getLsbD lanes i = true) ∧ (d = Opd.v n) := by
  refine ⟨grp, false, .v 255, 16, single 63, fun _ => 7, 63, 255, ?_, ?_, rfl⟩ <;>
    decide +kernel

/-- A result of a load still out. -/
def longOut : LongOut :=
  { writes := [.x 1 5] }

theorem witness_SwitchDelivers_0 :
    ∃ (s : State) (g : Group) (h : Hdr) (short : List RegWrite) (long : List LongOut), (s.group? g.id = some g) ∧
      (h.sw = true) ∧ (∃ l ∈ long, l.returned = false) := by
  refine ⟨s0, grp, { hdr with sw := true }, [], [longOut], of_id rfl, ?_, (by exact ⟨longOut, by decide, rfl⟩)⟩ <;>
    decide +kernel

theorem witness_SwitchDelivers_1 :
    ∃ (s : State) (g : Group) (h : Hdr) (short : List RegWrite) (long : List LongOut), (s.group? g.id = some g) ∧
      (h.sw = true) ∧ (∀ l ∈ g.pend, l.poison = []) := by
  refine ⟨s0, grp, { hdr with sw := true }, [], [], of_id rfl, ?_, (by decide +kernel)⟩ <;>
    decide +kernel

theorem witness_IntegerResults_0 :
    ∃ (s : State) (g g1 : Group) (i : Instr) (k : Claims.IntForm), (Claims.intForm i = some k) ∧ (i.wellFormed = true)
      ∧ (s.group? s.cur = some g) ∧ (g.checkHeld ((k.d, k.dw) :: k.srcs) = .ok ()) ∧ (g.moveQueues k.d k.srcs = .ok
      g1) := by
  refine ⟨s0, grp, grp, .iadd hdr false .i32 (.v 1) (.v 2) (.x 0), (Claims.intForm (.iadd hdr false .i32 (.v 1) (.v 2)
    (.x 0))).get rfl, rfl, ?_, cur_of rfl rfl, ?_, rfl⟩ <;>
    decide +kernel

theorem witness_CarryAndLaneGet_0 :
    ∃ (s : State) (g g1 : Group) (h : Hdr) (ty : ITy) (d a b : Opd) (n : BitVec 3) (once : Bool) (cl : Mask) (sum :
      Nat → Nat), ((Instr.iaddc h ty d a b (Opd.m n)).wellFormed = true) ∧ (s.group? s.cur = some g) ∧ (g.checkHeld
      [(d, ty.width), (a, ty.width), (b, ty.width), (Opd.m n, 1)] = Except.ok ()) ∧ (g.moveQueues d [(a, ty.width),
      (b, ty.width), (Opd.m n, 1)] = Except.ok g1) ∧ (once = Claims.once h [d, a, b, Opd.m n]) ∧ (cl = if once = true
      then match lowest (g.active h) with | some i => single i | none => 0 else g.active h) ∧ (∀ (lane : ℕ), sum lane
      = BitVec.toNat (g.srcLane a ty.width (Claims.readLane once (g.active h) lane)) % 2 ^ ty.width + BitVec.toNat
      (g.srcLane b ty.width (Claims.readLane once (g.active h) lane)) % 2 ^ ty.width + (BitVec.getLsbD (g.mVal n)
      (Claims.readLane once (g.active h) lane)).toNat) := by
  refine ⟨s0, grp, grp, hdr, .n32, .v 1, .v 2, .v 3, 7, false, -1, (fun lane => (grp.srcLane (.v 2) 32
    (Claims.readLane false (grp.active hdr) lane)).toNat % 2 ^ 32 + (grp.srcLane (.v 3) 32 (Claims.readLane false
    (grp.active hdr) lane)).toNat % 2 ^ 32 + ((grp.mVal 7).getLsbD (Claims.readLane false (grp.active hdr)
    lane)).toNat), ?_, cur_of rfl rfl, ?_, rfl, rfl, rfl, (by intro lane; rfl)⟩ <;>
    decide +kernel

theorem witness_CarryAndLaneGet_1 :
    ∃ (s : State) (g g1 : Group) (h : Hdr) (ty : ITy) (n k : BitVec 6) (a : Opd), ((Instr.laneget h ty (Opd.x n) a
      (Opd.x k)).wellFormed = true) ∧ (s.group? s.cur = some g) ∧ (g.checkHeld [(a, ty.width)] = Except.ok ()) ∧
      (g.moveQueues (Opd.x n) [(a, ty.width)] = Except.ok g1) := by
  refine ⟨s0, grp, grp, { hdr with uni := true }, .b32, 63, 0, .v 7, ?_, cur_of rfl rfl, ?_, rfl⟩ <;>
    decide +kernel

/-- `FADD.F32.SR V1, V2, X0`, by its table. -/
def formA : Claims.FltForm := (Claims.fltForm (.fadd hdr .f32 .sr false (.v 1) (.v 2) (.x 0))).get rfl

/-- Its result in a lane. -/
def resA (lane : Nat) : Code × FFlags :=
  formA.f (grp.draw formA.rm lane) (formA.srcs.map (fun p =>
    grp.srcLane p.1 p.2 (Claims.readLane false (grp.active formA.h) lane)))

theorem witness_FloatResults_0 :
    ∃ (s : State) (g g1 : Group) (i : Instr) (k : Claims.FltForm) (once : Bool) (res : Nat → Code × FFlags) (ws : List
      RegWrite), (Claims.fltForm i = some k) ∧ (i.wellFormed = true) ∧ (s.group? s.cur = some g) ∧ (g.checkHeld ((k.d,
      k.dw) :: k.srcs) = .ok ()) ∧ (g.moveQueues k.d k.srcs = .ok g1) ∧ (once = Claims.once k.h (k.d :: k.srcs.map
      (·.1))) ∧ (∀ lane, res lane = k.f (g.draw k.rm (if once then 0 else lane)) (k.srcs.map (fun p => g.srcLane p.1
      p.2 (Claims.readLane once (g.active k.h) lane)))) ∧ (ws = Claims.writes g k.h k.d k.dw k.srcs (fun lane => (res
      lane).1)) := by
  refine ⟨s0, grp, grp, .fadd hdr .f32 .sr false (.v 1) (.v 2) (.x 0), formA, false, resA, Claims.writes grp formA.h
    formA.d formA.dw formA.srcs (fun lane => (resA lane).1), rfl, ?_, cur_of rfl rfl, ?_, rfl, rfl,
    (by exact fun lane => rfl), rfl⟩ <;>
    decide +kernel

theorem witness_RoundsOnce_0 :
    ∃ (a : Approx) (x : ℚ) (q : Int) (rm : Rm) (draw n : Nat) (inexact : Bool), (Claims.fits a x) ∧ (a.more = true →
      a.exp + 16 < q) ∧ (a.at_ q rm draw = (n, inexact)) ∧ (draw < 65536) ∧ (inexact = false) := by
  refine ⟨⟨true, 6, 0, false⟩, 6, 1, .rd, 0, 3, false, (by norm_num [Claims.fits]), ?_, ?_, ?_, rfl⟩ <;>
    decide +kernel

theorem witness_RoundsOnce_1 :
    ∃ (a : Approx) (x : ℚ) (q : Int) (rm : Rm) (draw n : Nat) (inexact : Bool), (Claims.fits a x) ∧ (a.more = true →
      a.exp + 16 < q) ∧ (a.at_ q rm draw = (n, inexact)) ∧ (draw < 65536) ∧ (inexact = true) := by
  refine ⟨⟨true, 6000001, 0, true⟩, 6000001 + 1/2, 20, .rd, 65535, 6, true, (by norm_num [Claims.fits]), ?_, ?_, ?_,
    rfl⟩ <;>
    decide +kernel

theorem witness_RoundsIntoFormats_0 :
    ∃ (ty : FTy) (f : Fmt) (rm : Rm) (ftz sat : Bool) (draw : Nat) (a : Approx) (l q : ℤ) (n nu : Nat) (i iu : Bool),
      (ty ∈ [FTy.f16, FTy.bf16, FTy.f32, FTy.f64, FTy.e4m3, FTy.e5m2, FTy.e2m1]) ∧ (f = fmtOf ty) ∧ (a.man ≠ 0) ∧ (l
      = ↑a.man.log2 + a.exp) ∧ (q = (if ftz = true then l else max l f.emin) - ↑f.mb) ∧ (a.at_ (l - ↑f.mb) rm draw =
      (nu, iu)) ∧ (a.at_ q rm draw = (n, i)) ∧ (ftz = true) ∧ ((nu : ℚ) * 2 ^ (l - ↑f.mb) < 2 ^ f.emin) := by
  refine ⟨.f32, fmtOf .f32, .rne, true, false, 0, ⟨false, 1, -200, false⟩, -200, -223, 2 ^ 23, 2 ^ 23, false, false,
    ?_, rfl, ?_, rfl, rfl, ?_, ?_, rfl, (by norm_num [fmtOf, fmtF32, Fmt.emin])⟩ <;>
    decide +kernel

theorem witness_RoundsIntoFormats_1 :
    ∃ (ty : FTy) (f : Fmt) (rm : Rm) (ftz sat : Bool) (draw : Nat) (a : Approx) (l q : ℤ) (n nu : Nat) (i iu : Bool),
      (ty ∈ [FTy.f16, FTy.bf16, FTy.f32, FTy.f64, FTy.e4m3, FTy.e5m2, FTy.e2m1]) ∧ (f = fmtOf ty) ∧ (a.man ≠ 0) ∧ (l
      = ↑a.man.log2 + a.exp) ∧ (q = (if ftz = true then l else max l f.emin) - ↑f.mb) ∧ (a.at_ (l - ↑f.mb) rm draw =
      (nu, iu)) ∧ (a.at_ q rm draw = (n, i)) ∧ (ftz = false ∨ 2 ^ f.emin ≤ (nu : ℚ) * 2 ^ (l - ↑f.mb)) ∧ ((n : ℚ) * 2 ^ q ≤
      Claims.rat (FVal.fin false f.maxFin.1 f.maxFin.2)) := by
  refine ⟨.f32, fmtOf .f32, .rne, false, false, 0, ⟨false, 1, 0, false⟩, 0, -23, 2 ^ 23, 2 ^ 23, false, false, ?_,
    rfl, ?_, rfl, rfl, ?_, ?_, (by exact .inl rfl),
    (by rw [show (fmtOf .f32).maxFin = (16777215, 104) from by decide +kernel]; norm_num [Claims.rat])⟩ <;>
    decide +kernel

theorem witness_RoundsIntoFormats_2 :
    ∃ (ty : FTy) (f : Fmt) (rm : Rm) (ftz sat : Bool) (draw : Nat) (a : Approx) (l q : ℤ) (n nu : Nat) (i iu : Bool),
      (ty ∈ [FTy.f16, FTy.bf16, FTy.f32, FTy.f64, FTy.e4m3, FTy.e5m2, FTy.e2m1]) ∧ (f = fmtOf ty) ∧ (a.man ≠ 0) ∧ (l
      = ↑a.man.log2 + a.exp) ∧ (q = (if ftz = true then l else max l f.emin) - ↑f.mb) ∧ (a.at_ (l - ↑f.mb) rm draw =
      (nu, iu)) ∧ (a.at_ q rm draw = (n, i)) ∧ (ftz = false ∨ 2 ^ f.emin ≤ (nu : ℚ) * 2 ^ (l - ↑f.mb)) ∧ (Claims.rat
      (FVal.fin false f.maxFin.1 f.maxFin.2) < (n : ℚ) * 2 ^ q) := by
  refine ⟨.f32, fmtOf .f32, .rne, false, false, 0, ⟨false, 1, 128, false⟩, 128, 105, 2 ^ 23, 2 ^ 23, false, false, ?_,
    rfl, ?_, rfl, rfl, ?_, ?_, (by exact .inl rfl),
    (by rw [show (fmtOf .f32).maxFin = (16777215, 104) from by decide +kernel]; norm_num [Claims.rat])⟩ <;>
    decide +kernel

theorem witness_RoundsIntoFormats_3 :
    ∃ (ty : FTy) (f : Fmt) (c m : Nat) (n : Bool) (e : Int), (ty ∈ [FTy.f16, .bf16, .f32, .f64, .e4m3, .e5m2, .e2m1])
      ∧ (f = fmtOf ty) ∧ (c < 2 ^ (f.eb + f.mb + 1)) ∧ (f.decode c = .fin n m e) := by
  refine ⟨.e4m3, fmtOf .e4m3, 0x7E, 14, false, 5, ?_, rfl, ?_, ?_⟩ <;>
    decide +kernel

theorem witness_ExactArithmetic_0 :
    ∃ (rd n1 n2 : Bool) (m1 m2 : Nat) (e1 e2 : Int) (x y : FVal), (x = .fin n1 m1 e1) ∧ (y = .fin n2 m2 e2) := by
  refine ⟨false, false, true, 3, 5, 0, -2, .fin false 3 0, .fin true 5 (-2), rfl, rfl⟩

theorem witness_ExactArithmetic_1 :
    ∃ (c : FCtx) (n1 n2 : Bool) (m1 m2 : Nat) (e1 e2 : Int) (x y : FVal), (x = .fin n1 m1 e1) ∧ (y = .fin n2 m2 e2) ∧
      (m1 ≠ 0) ∧ (m2 ≠ 0) ∧ (m2 < 2 ^ 64) := by
  refine ⟨⟨.f32, .rne, false, 0⟩, false, true, 3, 5, 0, -2, .fin false 3 0, .fin true 5 (-2), rfl, rfl, ?_, ?_, ?_⟩
    <;>
    decide +kernel

theorem witness_ExactArithmetic_3 :
    ∃ (c : FCtx) (n1 n2 : Bool) (m1 m2 : Nat) (e1 e2 : Int) (x y : FVal), (x = .fin n1 m1 e1) ∧ (y = .fin n2 m2 e2) ∧
      (m1 ≠ 0) ∧ (n1 = false) := by
  refine ⟨⟨.f32, .rne, false, 0⟩, false, true, 3, 5, 0, -2, .fin false 3 0, .fin true 5 (-2), rfl, rfl, ?_, rfl⟩ <;>
    decide +kernel

theorem witness_ExactArithmetic_4 :
    ∃ (c : FCtx) (n1 n2 : Bool) (m1 m2 : Nat) (e1 e2 : Int) (x y : FVal), (x = .fin n1 m1 e1) ∧ (y = .fin n2 m2 e2) ∧
      (m1 ≠ 0) ∧ (m1 < 2 ^ 64) ∧ (n1 = false) := by
  refine ⟨⟨.f32, .rne, false, 0⟩, false, true, 3, 5, 0, -2, .fin false 3 0, .fin true 5 (-2), rfl, rfl, ?_, ?_, rfl⟩
    <;>
    decide +kernel

theorem witness_ExactArithmetic_5 :
    ∃ (c : FCtx) (n1 n2 : Bool) (m1 m2 : Nat) (e1 e2 : Int) (x y : FVal), (x = .fin n1 m1 e1) ∧ (y = .fin n2 m2 e2) ∧
      (m2 = 0) ∧ (m1 ≠ 0) := by
  refine ⟨⟨.f32, .rne, false, 0⟩, false, true, 3, 0, 0, -2, .fin false 3 0, .fin true 0 (-2), rfl, rfl, rfl, ?_⟩ <;>
    decide +kernel

theorem witness_ExactArithmetic_6 :
    ∃ (c : FCtx) (n1 n2 : Bool) (m1 m2 : Nat) (e1 e2 : Int) (x y : FVal), (x = .fin n1 m1 e1) ∧ (y = .fin n2 m2 e2) ∧
      (m2 = 0) ∧ (m1 = 0) := by
  refine ⟨⟨.f32, .rne, false, 0⟩, false, true, 0, 0, 0, -2, .fin false 0 0, .fin true 0 (-2), rfl, rfl, rfl, rfl⟩

theorem witness_ExactArithmetic_8 :
    ∃ (c : FCtx) (n1 n2 : Bool) (m1 m2 : Nat) (e1 e2 : Int) (x y : FVal), (x = .fin n1 m1 e1) ∧ (y = .fin n2 m2 e2) ∧
      (m1 = 0) := by
  refine ⟨⟨.f32, .rne, false, 0⟩, false, true, 0, 5, 0, -2, .fin false 0 0, .fin true 5 (-2), rfl, rfl, rfl⟩

theorem witness_ExactArithmetic_9 :
    ∃ (c : FCtx) (n1 n2 : Bool) (m1 m2 : Nat) (e1 e2 : Int) (x y : FVal), (x = .fin n1 m1 e1) ∧ (y = .fin n2 m2 e2) ∧
      (m1 ≠ 0) ∧ (n1 = true) := by
  refine ⟨⟨.f32, .rne, false, 0⟩, true, true, 3, 5, 0, -2, .fin true 3 0, .fin true 5 (-2), rfl, rfl, ?_, rfl⟩ <;>
    decide +kernel

theorem witness_ExactArithmetic_n2 :
    ∃ (c : FCtx) (n1 n2 : Bool) (m1 m2 : Nat) (e1 e2 : Int) (x y : FVal), (x = FVal.fin n1 m1 e1) ∧ (y = FVal.fin n2
      m2 e2) ∧ (m1 ≠ 0) ∧ (m1 < 2 ^ 64) := by
  refine ⟨⟨.f32, .rne, false, 0⟩, false, true, 3, 5, 0, -2, .fin false 3 0, .fin true 5 (-2), rfl, rfl, ?_, ?_⟩ <;>
    decide +kernel

theorem witness_ExactArithmetic_n7 :
    ∃ (c : FCtx) (n1 n2 : Bool) (m1 m2 : Nat) (e1 e2 : Int) (x y : FVal), (x = FVal.fin n1 m1 e1) ∧ (y = FVal.fin n2
      m2 e2) := by
  refine ⟨⟨.f32, .rne, false, 0⟩, false, true, 3, 5, 0, -2, .fin false 3 0, .fin true 5 (-2), rfl, rfl⟩

theorem witness_ExactArithmetic_n10 :
    ∃ (c : FCtx) (n1 n2 n3 : Bool) (m1 m2 m3 : Nat) (e1 e2 e3 : Int) (x y z : FVal), (x = FVal.fin n1 m1 e1) ∧ (y =
      FVal.fin n2 m2 e2) ∧ (z = FVal.fin n3 m3 e3) := by
  refine ⟨⟨.f32, .rne, false, 0⟩, false, true, false, 3, 5, 1, 0, -2, 4, .fin false 3 0, .fin true 5 (-2), .fin false 1 4, rfl, rfl, rfl⟩

theorem witness_ExactArithmetic_n11 :
    ∃ (c : FCtx) (n1 n2 n3 : Bool) (m1 m2 m3 : Nat) (e1 e2 e3 : Int) (x y z : FVal) (n : Nat) (i : Bool), (x =
      FVal.fin n1 m1 e1) ∧ (y = FVal.fin n2 m2 e2) ∧ (z = FVal.fin n3 m3 e3) ∧
      (({ neg := n1, man := m1, exp := e1, more := false } : Approx).at_ 0 c.rm c.draw = (n, i)) := by
  refine ⟨⟨.f32, .rne, false, 0⟩, false, true, false, 3, 5, 1, 0, -2, 4, .fin false 3 0, .fin true 5 (-2), .fin false 1 4, 3, false, rfl, rfl, rfl, ?_⟩ <;>
    decide +kernel

theorem witness_ExactArithmetic_n12 :
    ∃ (c : FCtx) (n1 n2 n3 : Bool) (m1 m2 m3 : Nat) (e1 e2 e3 : Int) (x y z : FVal) (n : Nat) (i : Bool) (k : Nat),
      (x = FVal.fin n1 m1 e1) ∧ (y = FVal.fin n2 m2 e2) ∧ (z = FVal.fin n3 m3 e3) ∧
      (({ neg := n1, man := m1, exp := e1, more := false } : Approx).at_ 0 c.rm c.draw = (n, i)) ∧ (c.ty ∈ [FTy.f16,
      FTy.bf16, FTy.f32, FTy.f64]) ∧ ((fmtOf c.ty).decode k = x) := by
  refine ⟨⟨.f32, .rne, false, 0⟩, false, true, false, 1, 5, 1, -149, -2, 4, .fin false 1 (-149), .fin true 5 (-2), .fin false 1 4, 0, true, 1, rfl, rfl, rfl, ?_, ?_, ?_⟩ <;>
    decide +kernel

theorem witness_ExactArithmetic_n13 :
    ∃ (c : FCtx) (n1 n2 n3 : Bool) (m1 m2 m3 : Nat) (e1 e2 e3 : Int) (x y z : FVal) (n : Nat) (i : Bool) (ty : ITy)
      (v : Int), (x = FVal.fin n1 m1 e1) ∧ (y = FVal.fin n2 m2 e2) ∧ (z = FVal.fin n3 m3 e3) ∧
      (({ neg := n1, man := m1, exp := e1, more := false } : Approx).at_ 0 c.rm c.draw = (n, i)) ∧ (v = if n1 = true
      then -(n : Int) else (n : Int)) := by
  refine ⟨⟨.f32, .rne, false, 0⟩, false, true, false, 3, 5, 1, 0, -2, 4, .fin false 3 0, .fin true 5 (-2), .fin false 1 4, 3, false, .i16, 3, rfl, rfl, rfl, ?_, rfl⟩ <;>
    decide +kernel

theorem witness_ExactArithmetic_n14 :
    ∃ (c : FCtx) (n1 n2 n3 : Bool) (m1 m2 m3 : Nat) (e1 e2 e3 : Int) (x y z : FVal) (ty : FTy) (sat : Bool), (x =
      FVal.fin n1 m1 e1) ∧ (y = FVal.fin n2 m2 e2) ∧ (z = FVal.fin n3 m3 e3) ∧ (ty ≠ FTy.e8m0) := by
  refine ⟨⟨.f32, .rne, false, 0⟩, false, true, false, 3, 5, 1, 0, -2, 4, .fin false 3 0, .fin true 5 (-2), .fin false 1 4, .e2m1, true, rfl, rfl, rfl, ?_⟩ <;>
    decide +kernel

theorem witness_ExactArithmetic_n15 :
    ∃ (c : FCtx) (n1 n2 n3 : Bool) (m1 m2 m3 : Nat) (e1 e2 e3 : Int) (x y z : FVal) (sat : Bool) (p k : Int), (x =
      FVal.fin n1 m1 e1) ∧ (y = FVal.fin n2 m2 e2) ∧ (z = FVal.fin n3 m3 e3) ∧ (2 ^ p ≤ Claims.rat x) ∧ (Claims.rat x
      < 2 ^ (p + 1)) ∧ (k = if c.rm = Rm.ru ∧ Claims.rat x ≠ 2 ^ p then p + 1 else p) := by
  refine ⟨⟨.f32, .ru, false, 0⟩, false, true, false, 3, 5, 1, 0, -2, 4, .fin false 3 0, .fin true 5 (-2), .fin false 1 4, true, 1, 2, rfl, rfl, rfl, ?_, ?_, ?_⟩ <;>
    norm_num [Claims.rat]

theorem witness_ExactArithmetic_n16 :
    ∃ (c : FCtx) (n1 n2 n3 : Bool) (m1 m2 m3 : Nat) (e1 e2 e3 : Int) (x y z : FVal) (sat : Bool), (x = FVal.fin n1 m1
      e1) ∧ (y = FVal.fin n2 m2 e2) ∧ (z = FVal.fin n3 m3 e3) ∧ (Claims.rat x ≤ 0) := by
  refine ⟨⟨.f32, .rne, false, 0⟩, true, true, false, 3, 5, 1, 0, -2, 4, .fin true 3 0, .fin true 5 (-2), .fin false 1 4, true, rfl, rfl, rfl, ?_⟩ <;>
    norm_num [Claims.rat]

theorem witness_ExactArithmetic_n17 :
    ∃ (c : FCtx) (n1 n2 n3 : Bool) (m1 m2 m3 : Nat) (e1 e2 e3 : Int) (x y z : FVal) (p : Int), (x = FVal.fin n1 m1
      e1) ∧ (y = FVal.fin n2 m2 e2) ∧ (z = FVal.fin n3 m3 e3) ∧ (-2 ^ 17 < p) ∧ (p < 2 ^ 17) := by
  refine ⟨⟨.f32, .rne, false, 0⟩, false, true, false, 3, 5, 1, 0, -2, 4, .fin false 3 0, .fin true 5 (-2), .fin false 1 4, 2 ^ 17 - 1, rfl, rfl, rfl, ?_, ?_⟩ <;>
    decide +kernel

theorem witness_ExactArithmetic_n18 :
    ∃ (c : FCtx) (n1 n2 n3 : Bool) (m1 m2 m3 : Nat) (e1 e2 e3 : Int) (x y z : FVal) (p : Int), (x = FVal.fin n1 m1
      e1) ∧ (y = FVal.fin n2 m2 e2) ∧ (z = FVal.fin n3 m3 e3) ∧ (2 ^ p ≤ Claims.rat x) ∧ (Claims.rat x < 2 ^ (p + 1)) := by
  refine ⟨⟨.f32, .rne, false, 0⟩, false, true, false, 3, 5, 1, 0, -2, 4, .fin false 3 0, .fin true 5 (-2), .fin false 1 4, 1, rfl, rfl, rfl, ?_, ?_⟩ <;>
    norm_num [Claims.rat]

theorem witness_ExactArithmetic_n19 :
    ∃ (l : List (FVal × FVal)) (both bad : Prop), (both ↔ (∃ p ∈ l, Claims.infProd true p) ∧ ∃ p ∈ l, Claims.infProd
      false p) ∧ (bad ↔ (∃ p ∈ l, Claims.nanProd p) ∨ both) ∧ (bad) := by
  refine ⟨[(.inf true, .fin false 0 0)], _, _, Iff.rfl, Iff.rfl, .inl ⟨_, List.mem_singleton.mpr rfl, .inr (.inr (.inl ⟨rfl, rfl⟩))⟩⟩

theorem witness_ExactArithmetic_n20 :
    ∃ (l : List (FVal × FVal)) (both bad : Prop) (n : Bool), (both ↔ (∃ p ∈ l, Claims.infProd true p) ∧ ∃ p ∈ l,
      Claims.infProd false p) ∧ (bad ↔ (∃ p ∈ l, Claims.nanProd p) ∨ both) ∧ (¬bad) ∧ (∃ p ∈ l, Claims.infProd n p) := by
  refine ⟨[(.inf true, .fin false 1 0), (.fin true 1 0, .fin false 3 0)], _, _, true, Iff.rfl, Iff.rfl, ?_, ?_⟩ <;>
    simp [Claims.nanProd, Claims.infZero, Claims.infProd, FVal.isNan, FVal.isInf, FVal.isZero, FVal.neg]

theorem witness_ExactArithmetic_n21 :
    ∃ (l : List (FVal × FVal)) (both bad : Prop) (x : ℚ), (both ↔ (∃ p ∈ l, Claims.infProd true p) ∧ ∃ p ∈ l,
      Claims.infProd false p) ∧ (bad ↔ (∃ p ∈ l, Claims.nanProd p) ∨ both) ∧ (¬bad) ∧ (∀ (n : Bool), ∀ p ∈ l,
      ¬Claims.infProd n p) ∧ (x = (List.map (fun p => Claims.rat p.1 * Claims.rat p.2) l).sum) := by
  refine ⟨[(.fin true 1 2, .fin false 3 0), (.fin false 0 0, .fin true 1 0)], _, _, _, Iff.rfl, Iff.rfl, ?_, ?_, rfl⟩ <;>
    simp [Claims.nanProd, Claims.infZero, Claims.infProd, FVal.isNan, FVal.isInf, FVal.isZero, FVal.neg]

theorem witness_ExactArithmetic_n22 :
    ∃ (l : List (FVal × FVal)) (both bad : Prop), (both ↔ (∃ p ∈ l, Claims.infProd true p) ∧ ∃ p ∈ l, Claims.infProd
      false p) ∧ (bad ↔ (∃ p ∈ l, Claims.nanProd p) ∨ both) := by
  exact ⟨[(.inf true, .fin false 1 0), (.inf false, .fin false 1 0)], _, _, Iff.rfl, Iff.rfl⟩

theorem witness_ExactArithmetic_n23 :
    ∃ (f : Fmt) (acc term : FVal) (n1 : Bool) (m1 : Nat) (e1 : Int) (n2 : Bool) (m2 : Nat) (e2 : Int), (f ∈ [fmtF32,
      fmtF64]) ∧ (acc = FVal.fin n1 m1 e1) ∧ (term = FVal.fin n2 m2 e2) := by
  exact ⟨fmtF32, _, _, true, 3, -1, false, 5, 2, by simp, rfl, rfl⟩

theorem witness_ExactArithmetic_n24 :
    ∃ (f : Fmt) (acc term : FVal), (f ∈ [fmtF32, fmtF64]) ∧ (acc.isNan = true ∨ term.isNan = true) := by
  exact ⟨fmtF64, .nan false, .inf true, by simp, .inl rfl⟩

theorem witness_ExactArithmetic_n25 :
    ∃ (f : Fmt) (acc term : FVal) (n : Bool), (f ∈ [fmtF32, fmtF64]) ∧ (acc = FVal.inf n) ∧ (term.isNan = false) := by
  exact ⟨fmtF32, _, .inf false, true, by simp, rfl, rfl⟩

theorem witness_ExactArithmetic_n26 :
    ∃ (f : Fmt) (acc term : FVal) (n : Bool) (m : Nat) (e : Int) (k : Bool), (f ∈ [fmtF32, fmtF64]) ∧ (acc = FVal.fin
      n m e) ∧ (term = FVal.inf k) := by
  exact ⟨fmtF32, _, _, false, 7, 0, true, by simp, rfl, rfl⟩

theorem witness_ExactArithmetic_n27 :
    ∃ (tsfA tsfB : Nat) (ta tb sa sb : FVal) (sum : FVal × Bool) (tsc : FVal × FFlags) (n1 : Bool) (m1 : Nat) (e1 :
      Int) (n2 : Bool) (m2 : Nat) (e2 : Int), (tsc = tensorScales tsfA tsfB ta tb) ∧ (ta = FVal.fin n1 m1 e1) ∧ (tb =
      FVal.fin n2 m2 e2) ∧ (tsfA ≠ 1) ∧ (tsfB ≠ 1) := by
  exact ⟨2, 0, _, _, .fin false 1 0, .fin false 1 3, (.fin true 5 0, false), _, true, 3, -1, false, 1, 0, rfl, rfl, rfl, by decide, by decide⟩

theorem witness_ExactArithmetic_n28 :
    ∃ (tsfA tsfB : Nat) (ta tb sa sb : FVal) (sum : FVal × Bool) (tsc : FVal × FFlags) (n1 : Bool) (m1 : Nat) (e1 :
      Int) (n2 : Bool) (m2 : Nat) (e2 : Int), (tsc = tensorScales tsfA tsfB ta tb) ∧ (ta = FVal.fin n1 m1 e1) ∧ (tb =
      FVal.fin n2 m2 e2) ∧ (tsfA = 1 ∨ tsfB = 1) := by
  exact ⟨1, 2, _, _, .fin false 1 0, .fin false 1 3, (.fin true 5 0, false), _, true, 3, -1, false, 9, 0, rfl, rfl, rfl, .inl rfl⟩

theorem witness_ExactArithmetic_n29 :
    ∃ (tsfA tsfB : Nat) (ta tb sa sb : FVal) (sum : FVal × Bool) (tsc : FVal × FFlags), (tsc = tensorScales tsfA tsfB
      ta tb) ∧ (sa.isNan = true ∨ sb.isNan = true ∨ ta.isNan = true ∨ tb.isNan = true) := by
  exact ⟨2, 0, .fin false 1 0, .fin false 1 0, .nan false, .fin false 1 3, (.fin true 5 0, false), _, rfl, .inl rfl⟩

theorem witness_ExactArithmetic_n30 :
    ∃ (tsfA tsfB : Nat) (ta tb sa sb : FVal) (sum : FVal × Bool) (tsc : FVal × FFlags) (n1 : Bool) (m1 : Nat) (e1 :
      Int) (n2 : Bool) (m2 : Nat) (e2 : Int) (n3 : Bool) (m3 : Nat) (e3 : Int) (n : Bool) (m : Nat) (e : Int), (tsc =
      tensorScales tsfA tsfB ta tb) ∧ (ta.isNan = false) ∧ (tb.isNan = false) ∧ (sa = FVal.fin n1 m1 e1) ∧ (sb =
      FVal.fin n2 m2 e2) ∧ (tsc.1 = FVal.fin n3 m3 e3) ∧ (sum.1 = FVal.fin n m e) := by
  exact ⟨2, 2, .fin false 3 0, .fin true 5 0, _, _, (.fin true 5 1, false), _, false, 1, -3, false, 1, 4, true, 15, 0, true, 5, 1, rfl, rfl, rfl, rfl, rfl, rfl, rfl⟩

theorem witness_ExactArithmetic_n31 :
    ∃ (tsfA tsfB : Nat) (ta tb sa sb : FVal) (sum : FVal × Bool) (tsc : FVal × FFlags) (n1 : Bool) (m1 : Nat) (e1 :
      Int) (n2 : Bool) (m2 : Nat) (e2 : Int) (n3 : Bool) (m3 : Nat) (e3 : Int) (n : Bool), (tsc = tensorScales tsfA
      tsfB ta tb) ∧ (ta.isNan = false) ∧ (tb.isNan = false) ∧ (sa = FVal.fin n1 m1 e1) ∧ (sb = FVal.fin n2 m2 e2) ∧
      (tsc.1 = FVal.fin n3 m3 e3) ∧ (sum.1 = FVal.inf n) ∧ (m1 = 0 ∨ m2 = 0 ∨ m3 = 0) := by
  exact ⟨2, 2, .fin false 3 0, .fin true 5 0, _, _, (.inf true, false), _, false, 0, -3, false, 1, 4, true, 15, 0, true, rfl, rfl, rfl, rfl, rfl, rfl, rfl, .inl rfl⟩

theorem witness_ExactArithmetic_n32 :
    ∃ (tsfA tsfB : Nat) (ta tb sa sb : FVal) (sum : FVal × Bool) (tsc : FVal × FFlags) (n1 : Bool) (m1 : Nat) (e1 :
      Int) (n2 : Bool) (m2 : Nat) (e2 : Int) (n3 : Bool) (m3 : Nat) (e3 : Int) (n : Bool), (tsc = tensorScales tsfA
      tsfB ta tb) ∧ (ta.isNan = false) ∧ (tb.isNan = false) ∧ (sa = FVal.fin n1 m1 e1) ∧ (sb = FVal.fin n2 m2 e2) ∧
      (tsc.1 = FVal.fin n3 m3 e3) ∧ (sum.1 = FVal.inf n) ∧ (m1 ≠ 0) ∧ (m2 ≠ 0) ∧ (m3 ≠ 0) := by
  exact ⟨2, 2, .fin false 3 0, .fin true 5 0, _, _, (.inf true, false), _, false, 1, -3, false, 1, 4, true, 15, 0, true, rfl, rfl, rfl, rfl, rfl, rfl, rfl, by decide, by decide, by decide⟩

theorem witness_ExactArithmetic_n33 :
    ∃ (tsfA tsfB : Nat) (ta tb sa sb : FVal) (sum : FVal × Bool) (tsc : FVal × FFlags) (n1 : Bool) (m1 : Nat) (e1 :
      Int) (n2 : Bool) (m2 : Nat) (e2 : Int) (n3 : Bool) (m3 : Nat) (e3 : Int), (tsc = tensorScales tsfA tsfB ta tb)
      ∧ (ta.isNan = false) ∧ (tb.isNan = false) ∧ (sa = FVal.fin n1 m1 e1) ∧ (sb = FVal.fin n2 m2 e2) ∧ (tsc.1 =
      FVal.fin n3 m3 e3) ∧ (sum.1.isNan = true) := by
  exact ⟨2, 2, .fin false 3 0, .fin true 5 0, _, _, (.nan false, false), _, false, 1, -3, false, 1, 4, true, 15, 0, rfl, rfl, rfl, rfl, rfl, rfl, rfl⟩

theorem witness_ExactArithmetic_n34 :
    ∃ (g : Group) (rm : Rm) (lane : Nat) (spawned : Bool), spawned = true ↔ ∃ l, g.kind = Kind.spawned l := by
  exact ⟨{ grp with kind := .spawned [] }, .sr, 5, true, by simp⟩

theorem witness_LaneExchanges_0 :
    ∃ (s : State) (g : Group) (h : Hdr) (ty : ITy) (m : ShflMode) (d a b : Opd), ((Instr.shfl h ty m d a b).wellFormed
      = true) ∧ (s.group? s.cur = some g) ∧ (g.checkHeld [(d, ty.width), (a, ty.width), (b, ty.width)] = .ok ()) := by
  refine ⟨s0, grp, hdr, .b32, .up, .v 1, .v 1, .x 4, ?_, cur_of rfl rfl, ?_⟩ <;>
    decide +kernel

theorem witness_LaneExchanges_1 :
    ∃ (s : State) (g : Group) (h : Hdr) (ty : ITy) (m : QxchMode) (d a : Opd), ((Instr.qxch h ty m d a).wellFormed =
      true) ∧ (s.group? s.cur = some g) ∧ (g.checkHeld [(d, ty.width), (a, ty.width)] = .ok ()) := by
  refine ⟨s0, grp, hdr, .b32, .d, .v 1, .v 2, ?_, cur_of rfl rfl, ?_⟩ <;>
    decide +kernel

theorem witness_LaneExchanges_2 :
    ∃ (s : State) (g : Group) (h : Hdr) (ty : ITy) (d a : Opd), ((Instr.ballot h ty d a).wellFormed = true) ∧
      (s.group? s.cur = some g) ∧ (g.checkHeld [(a, ty.width)] = .ok ()) ∧ (h.uni = true → g.active h ≠ 0) := by
  refine ⟨s0, grp, hdr, .b32, .x 1, .v 2, ?_, cur_of rfl rfl, ?_, (by decide +kernel)⟩ <;>
    decide +kernel

theorem witness_LaneExchanges_3 :
    ∃ (s : State) (g : Group) (h : Hdr) (ty : ITy) (any : Bool) (n : BitVec 3) (a : Opd), ((Instr.vote h ty any (.m n)
      a).wellFormed = true) ∧ (s.group? s.cur = some g) ∧ (g.checkHeld [(a, ty.width)] = .ok ()) := by
  refine ⟨s0, grp, hdr, .b32, true, 7, .v 2, ?_, cur_of rfl rfl, ?_⟩ <;>
    decide +kernel

theorem witness_LaneExchanges_4 :
    ∃ (s : State) (g : Group) (h : Hdr) (d : Opd) (n : BitVec 3), ((Instr.mfirst h d (.m n)).wellFormed = true) ∧
      (s.group? s.cur = some g) ∧ (g.checkHeld [(d, 32)] = .ok ()) ∧ (g.active h ≠ 0) := by
  refine ⟨s0, grp, hdr, .x 1, 7, ?_, cur_of rfl rfl, ?_, ?_⟩ <;>
    decide +kernel

theorem witness_LaneExchanges_5 :
    ∃ (s : State) (g : Group) (h : Hdr) (d : Opd) (n : BitVec 3), ((Instr.mpopc h d (.m n)).wellFormed = true) ∧
      (s.group? s.cur = some g) ∧ (g.checkHeld [(d, 32)] = .ok ()) ∧ (g.active h ≠ 0) := by
  refine ⟨s0, grp, hdr, .x 1, 7, ?_, cur_of rfl rfl, ?_, ?_⟩ <;>
    decide +kernel

theorem witness_Reductions_0 :
    ∃ (s : State) (g g1 : Group) (h : Hdr) (op : RedOp) (ty : ITy) (d a : Opd) (root : Code × FFlags), ((Instr.gred h
      op ty d a).wellFormed = true) ∧ (s.group? s.cur = some g) ∧ (g.checkHeld [(d, ty.width), (a, ty.width)] = .ok
      ()) ∧ (root = Claims.tree (Claims.step op ty) (fun i => if (g.contributors h).getLsbD i then g.srcLane a
      ty.width i else Claims.ident op ty) 6 0) ∧ (g1 = { g with fstat := g.fstat ||| root.2 }) := by
  refine ⟨s0, grp,
    { grp with fstat := grp.fstat ||| (Claims.tree (Claims.step .fadd .b32) (fun i => if (grp.contributors hdr).getLsbD i then grp.srcLane (.v 2) 32 i else Claims.ident .fadd .b32) 6 0).2 },
    hdr, .fadd, .b32, .x 1, .v 2, Claims.tree (Claims.step .fadd .b32) (fun i => if (grp.contributors hdr).getLsbD i
    then grp.srcLane (.v 2) 32 i else Claims.ident .fadd .b32) 6 0, ?_, cur_of rfl rfl, ?_, rfl, rfl⟩ <;>
    decide +kernel

theorem witness_Reductions_1 :
    ∃ (s : State) (g : Group) (h : Hdr) (op : RedOp) (ty : ITy) (exc : Bool) (d a : Opd) (acc : Nat → Code),
      ((Instr.gscan h op ty exc d a).wellFormed = true) ∧ (s.group? s.cur = some g) ∧ (g.checkHeld [(d, ty.width), (a,
      ty.width)] = .ok ()) ∧ (acc 0 = Claims.ident op ty) ∧ (∀ i, acc (i + 1) = if (g.contributors h).getLsbD i then
      (Claims.step op ty (acc i) (g.srcLane a ty.width i)).1 else acc i) := by
  refine ⟨s0, grp, hdr, .add, .n32, true, .v 1, .v 2, (fun n => n.rec (Claims.ident .add .n32) (fun i x => if
    (grp.contributors hdr).getLsbD i then (Claims.step .add .n32 x (grp.srcLane (.v 2) 32 i)).1 else x)), ?_, cur_of
    rfl rfl, ?_, ?_, (by exact fun i => rfl)⟩ <;>
    decide +kernel

theorem witness_MaskResults_0 :
    ∃ (s : State) (g : Group) (i : Instr) (h : Hdr) (d : Opd) (v : Mask), ∃ n, (Claims.maskForm g i = some (h, d, v))
      ∧ (i.wellFormed = true) ∧ (s.group? s.cur = some g) ∧ (d = .m n) := by
  refine ⟨s0, grp, .mnot hdr (.m 7) (.m 1), hdr, .m 7, ~~~grp.mVal 1, 7, ?_, ?_, cur_of rfl rfl, rfl⟩ <;>
    decide +kernel

theorem witness_MaskResults_1 :
    ∃ (s : State) (g : Group) (i : Instr) (h : Hdr) (d : Opd) (v : Mask), ∃ n, (Claims.maskForm g i = some (h, d, v))
      ∧ (i.wellFormed = true) ∧ (s.group? s.cur = some g) ∧ (d = .x n) := by
  refine ⟨s0, grp, .mtox hdr (.x 63) (.m 1), hdr, .x 63, grp.mVal 1, 63, ?_, ?_, cur_of rfl rfl, rfl⟩ <;>
    decide +kernel

theorem witness_MaskResults_n2 :
    ∃ (s : State) (g : Group) (i : Instr) (h : Hdr) (d : Opd) (v : Mask), (Claims.maskForm g i = some (h, d, v)) ∧
      (i.wellFormed = true) ∧ (s.group? s.cur = some g) ∧ (d = .m 0) := by
  refine ⟨s0, grp, .mnot hdr (.m 0) (.m 1), hdr, .m 0, ~~~grp.mVal 1, ?_, ?_, cur_of rfl rfl, rfl⟩ <;>
    decide +kernel

theorem witness_MaskResults_n3 :
    ∃ (g : Group) (i : Instr) (n : BitVec 8) (w : BitVec 96), (Claims.maskCode i = some n) ∧ (i.wellFormed = true) ∧
      (encode i = some w) :=
  ⟨grp, .mmov hdr (.m 7) (.x 63), _, _, rfl, by decide +kernel, rfl⟩

theorem witness_SpecialRegisters_0 :
    ∃ (s : State) (g : Group) (h : Hdr) (d : Opd) (num : BitVec 12) (w : Nat) (val : Nat → Nat) (ws : List RegWrite),
      ((Instr.mfs h d num).wellFormed = true) ∧ (s.group? s.cur = some g) ∧ (∀ lane, Claims.special s g num.toNat lane
      = some (w, val lane)) ∧ (g.checkHeld [(d, w)] = .ok ()) ∧ (ws = Claims.writes g h d w [] (fun lane =>
      BitVec.ofNat 128 (val (Claims.readLane (Claims.once h [d]) (g.active h) lane)))) := by
  refine ⟨s0, grp, hdr, .v 1, 0x000, 32, fun lane => lane, Claims.writes grp hdr (.v 1) 32 [] (fun lane =>
    BitVec.ofNat 128 (Claims.readLane (Claims.once hdr [.v 1]) (grp.active hdr) lane)), ?_, cur_of rfl rfl,
    (by intro lane; rfl), ?_, rfl⟩ <;>
    decide +kernel

theorem witness_SpecialRegisters_1 :
    ∃ (s s1 : State) (g : Group) (h : Hdr) (d : Opd) (c : Nat) (n : BitVec 48), ((Instr.mfs h d 0x031).wellFormed =
      true) ∧ (s.group? s.cur = some g) ∧ (g.core = some c) ∧ (g.active h ≠ 0) ∧ (g.checkHeld [(d, 64)] = .ok ()) ∧ (n
      = vget (s.core c).slotSeq g.slot 0 + 1) ∧ (s1 = s.modCore c (fun k =>
      { k with slotSeq := vset k.slotSeq g.slot n })) := by
  refine ⟨s0, s0.modCore 0 (fun k =>
    { k with slotSeq := vset k.slotSeq grp.slot (vget (s0.core 0).slotSeq grp.slot 0 + 1) }), grp, hdr, .x 1, 0, vget
    (s0.core 0).slotSeq grp.slot 0 + 1, ?_, cur_of rfl rfl, ?_, ?_, ?_, rfl, rfl⟩ <;>
    decide +kernel

theorem witness_SpecialRegisters_2 :
    ∃ (s : State) (g : Group) (h : Hdr) (num : BitVec 12) (a : Opd) (w i v : Nat), ((Instr.mts h num a).wellFormed =
      true) ∧ (s.group? s.cur = some g) ∧ (lowest (g.active h) = some i) ∧ (w = (if num = 0x021 ∨ num = 0x026 then 32
      else 64)) ∧ (g.checkHeld [(a, w)] = .ok ()) ∧ (v = (g.srcLane a w i).toNat) := by
  refine ⟨s0, grp, hdr, 0x021, .x 1, 32, 0, (grp.srcLane (.x 1) 32 0).toNat, ?_, cur_of rfl rfl, ?_, ?_, ?_, rfl⟩ <;>
    decide +kernel

theorem witness_SpecialRegisters_3 :
    ∃ (s : State) (g : Group) (h : Hdr) (num : BitVec 12) (a : Opd), ((Instr.mts h num a).wellFormed = true) ∧
      (s.group? s.cur = some g) ∧ (g.active h = 0) := by
  refine ⟨mk { grp with exec := 0 }, { grp with exec := 0 }, hdr, 0x026, .x 1, ?_, cur_of rfl rfl, ?_⟩ <;>
    decide +kernel

theorem witness_BlocksAndQueues_0 :
    ∃ (s : State) (g : Group) (h : Hdr) (lo hi : Bool) (n : Nat), ((Instr.xgrow h lo hi).wellFormed = true) ∧
      (s.group? s.cur = some g) ∧ (n = (lo && !g.lo).toNat + (hi && !g.hi).toNat) ∧ (n = 0) := by
  refine ⟨mk { grp with lo := true, hi := true }, { grp with lo := true, hi := true }, hdr, true, true, 0, ?_, cur_of
    rfl rfl, rfl, rfl⟩ <;>
    decide +kernel

/-- The machine with the XBLOCK budget of a core. -/
def withLimit (n : BitVec 8) (s : State) : State :=
  s.modCore 0 (fun k => { k with xlimit := n })

theorem witness_BlocksAndQueues_1 :
    ∃ (s : State) (g : Group) (h : Hdr) (lo hi : Bool) (n : Nat), ((Instr.xgrow h lo hi).wellFormed = true) ∧
      (s.group? s.cur = some g) ∧ (n = (lo && !g.lo).toNat + (hi && !g.hi).toNat) ∧ (n ≠ 0) ∧ ((s.core (g.core.getD
      0)).xlimit.toNat < g.blocks + n) := by
  refine ⟨withLimit 1 s0, grp, hdr, true, true, 2, ?_, cur_of rfl rfl, rfl, ?_, ?_⟩ <;>
    decide +kernel

theorem witness_BlocksAndQueues_2 :
    ∃ (s : State) (g : Group) (h : Hdr) (lo hi : Bool) (n : Nat), ((Instr.xgrow h lo hi).wellFormed = true) ∧
      (s.group? s.cur = some g) ∧ (n = (lo && !g.lo).toNat + (hi && !g.hi).toNat) ∧ (n ≠ 0) ∧ (g.blocks + n ≤ (s.core
      (g.core.getD 0)).xlimit.toNat) := by
  refine ⟨withLimit 2 s0, grp, hdr, true, true, 2, ?_, cur_of rfl rfl, rfl, ?_, ?_⟩ <;>
    decide +kernel

theorem witness_BlocksAndQueues_3 :
    ∃ (s : State) (g : Group) (h : Hdr) (lo hi : Bool), ((Instr.xdrop h lo hi).wellFormed = true) ∧ (s.group? s.cur =
      some g) := by
  refine ⟨mk { grp with lo := true, hi := true }, { grp with lo := true, hi := true }, hdr, false, true, ?_, cur_of
    rfl rfl⟩ <;>
    decide +kernel

theorem witness_BlocksAndQueues_4 :
    ∃ (s : State) (g g1 : Group) (h : Hdr) (qi : BitVec 3) (depth : BitVec 4) (base : BitVec 6), ((Instr.qcfg h qi
      depth base).wellFormed = true) ∧ (s.group? s.cur = some g) ∧ (∀ k, k < depth.toNat → g.holdsV (base.toNat + k) =
      true) ∧ (g1 = { g with q := vset g.q qi.toNat ⟨depth, base, 0, 0⟩ }) := by
  refine ⟨mk { grp with lo := true, hi := true }, { grp with lo := true, hi := true },
    { { grp with lo := true, hi := true } with q := vset grp.q 7 ⟨8, 56, 0, 0⟩ }, hdr, 7, 8, 56, ?_, cur_of rfl rfl,
    (by decide +kernel), rfl⟩ <;>
    decide +kernel

theorem witness_BranchesAndCalls_0 :
    ∃ (s : State) (g : Group) (h : Hdr) (i : Instr) (t : Target) (test : Test) (k : Nat), ((∃ disp slot, t = .direct
      disp slot ∧ i = .bra h disp slot test) ∨ (∃ n, t = .indirect n ∧ i = .jmp h n test)) ∧ (i.wellFormed = true) ∧
      (s.group? s.cur = some g) ∧ (Claims.testPasses g test) ∧ (Claims.mayEnter s g (Claims.address g t) k) := by
  refine ⟨mkCode (recLine 0 0 0) grpJ, grpJ, hdr, .jmp hdr 1 .always, .indirect 1, .always, 0,
    (by exact .inr ⟨1, rfl, rfl⟩), ?_, cur_of rfl rfl, (by trivial), (by exact enters _ _ (by decide +kernel))⟩ <;>
    decide +kernel

theorem witness_BranchesAndCalls_1 :
    ∃ (s : State) (g : Group) (h : Hdr) (i : Instr) (t : Target) (test : Test) (k : Nat) (b : BitVec 512), ((∃ disp
      slot, t = Target.direct disp slot ∧ i = Instr.bra h disp slot test) ∨ ∃ n, t = Target.indirect n ∧ i =
      Instr.jmp h n test) ∧ (i.wellFormed = true) ∧ (s.group? s.cur = some g) ∧ (Claims.testPasses g test) ∧
      (Claims.codeAt s g (lineAddr (Claims.address g t)) b) ∧ (∀ j ≤ 4, BitVec.toNat (Claims.address g t) % 64 ≠ 12 *
      j) := by
  refine ⟨mkCode (recLine 0 0 0) (withX [(1, 0x503E)]), withX [(1, 0x503E)], hdr, .jmp hdr 1 (.maskZero 1),
    .indirect 1, .maskZero 1, 0, tgtLine, (by exact .inr ⟨1, rfl, rfl⟩), ?_, cur_of rfl rfl,
    (by show (withX [(1, 0x503E)]).mVal 1 = 0; decide +kernel), (by exact ⟨by decide +kernel, by decide +kernel⟩), ?_⟩
    <;>
    decide +kernel

theorem witness_BranchesAndCalls_2 :
    ∃ (s : State) (g : Group) (h : Hdr) (i : Instr) (t : Target) (test : Test) (k : Nat), ((∃ disp slot, t = .direct
      disp slot ∧ i = .bra h disp slot test) ∨ (∃ n, t = .indirect n ∧ i = .jmp h n test)) ∧ (i.wellFormed = true) ∧
      (s.group? s.cur = some g) ∧ (¬ Claims.testPasses g test) := by
  refine ⟨mkCode (recLine 0 0 0) grpJ, grpJ, hdr, .bra hdr 0 4 (.flag 0 .z false), .direct 0 4, .flag 0 .z false, 0,
    (by exact .inl ⟨0, 4, rfl, rfl⟩), ?_, cur_of rfl rfl, (by show ¬ (grpJ.cVal 0).getLsbD 0 ≠ false; decide +kernel)⟩
    <;>
    decide +kernel

theorem witness_BranchesAndCalls_3 :
    ∃ (s : State) (g : Group) (h : Hdr) (t : Target) (n : BitVec 6) (rec : BitVec 512), ((Instr.call h t (Opd.x
      n)).wellFormed = true) ∧ (s.group? s.cur = some g) ∧ (Claims.mayEnter s g (Claims.address g t) 0) ∧
      (Claims.codeAt s g (lineAddr (Claims.address g t) - 64) rec) ∧ (recordOk rec = true) ∧ (bitsN rec 105 104 = 0)
      ∧ (32 < bitsN rec 102 96 → g.lo = true) ∧ (48 < bitsN rec 102 96 → g.hi = true) := by
  refine ⟨mkCode (recLine 0 0 0) grpJ, grpJ, hdr, .direct 0x40 0, 63, recLine 0 0 0, ?_, cur_of rfl rfl,
    (by exact enters _ _ (by decide +kernel)), (by exact ⟨by decide +kernel, by decide +kernel⟩), ?_, ?_, ?_, ?_⟩ <;>
    decide +kernel

theorem witness_BranchesAndCalls_4 :
    ∃ (s : State) (g : Group) (h : Hdr) (t : Target) (n : BitVec 6) (rec : BitVec 512), ((Instr.call h t (Opd.x
      n)).wellFormed = true) ∧ (s.group? s.cur = some g) ∧ (Claims.mayEnter s g (Claims.address g t) 0) ∧
      (Claims.codeAt s g (lineAddr (Claims.address g t) - 64) rec) ∧ (recordOk rec = true) ∧ (bitsN rec 105 104 ≠ 0) := by
  refine ⟨mkCode (recLine 1 4 0) grpJ, grpJ, hdr, .direct 0x40 0, 63, recLine 1 4 0, ?_, cur_of rfl rfl,
    (by exact enters _ _ (by decide +kernel)), (by exact ⟨by decide +kernel, by decide +kernel⟩), ?_, ?_⟩ <;>
    decide +kernel

theorem witness_BranchesAndCalls_5 :
    ∃ (s : State) (g : Group) (h : Hdr) (n : BitVec 6), ((Instr.ret h (.x n)).wellFormed = true) ∧ (s.group? s.cur =
      some g) ∧ (slotOk (g.xVal n) = true) ∧ (h.sw = true → g.pend = []) := by
  refine ⟨mk grpJ, grpJ, hdr, 1, ?_, cur_of rfl rfl, ?_, ?_⟩ <;>
    decide +kernel

theorem witness_BranchesAndCalls_n2 :
    ∃ (s : State) (g : Group) (h : Hdr) (i : Instr) (t : Target) (test : Test) (k : Nat) (c : Cause), ((∃ disp slot,
      t = Target.direct disp slot ∧ i = Instr.bra h disp slot test) ∨ ∃ n, t = Target.indirect n ∧ i = Instr.jmp h n
      test) ∧ (i.wellFormed = true) ∧ (s.group? s.cur = some g) ∧ (Claims.testPasses g test) ∧ (s.locOf (s.accessor
      g) Use.fetch (lineAddr (Claims.address g t)) = Except.error c) := by
  refine ⟨mk grpJ, grpJ, hdr, .jmp hdr 1 (.maskZero 1), .indirect 1, .maskZero 1, 0, .pageflt,
    (by exact .inr ⟨1, rfl, rfl⟩), ?_, cur_of rfl rfl, (by show grpJ.mVal 1 = 0; decide +kernel), ?_⟩ <;>
    decide +kernel

/-- The machine whose target line has a bit flipped. -/
def sFlip : State := (mkCode (recLine 0 0 0) grpJ).writeNat 0x5000 64 (tgtLine ^^^ 1).toNat

theorem witness_BranchesAndCalls_n3 :
    ∃ (s : State) (g : Group) (h : Hdr) (i : Instr) (t : Target) (test : Test) (k : Nat) (b : BitVec 512) (l :
      FetchLine) (s1 : State) (g1 : Group), ((∃ disp slot, t = Target.direct disp slot ∧ i = Instr.bra h disp slot
      test) ∨ ∃ n, t = Target.indirect n ∧ i = Instr.jmp h n test) ∧ (i.wellFormed = true) ∧ (s.group? s.cur = some
      g) ∧ (Claims.testPasses g test) ∧ (s.codeLine (s.accessor g) (lineAddr (Claims.address g t)) = Except.ok b) ∧
      (lineParity b ≠ BitVec.extractLsb' 480 16 b) ∧ (g.wait = none) ∧ (k ≤ 4) ∧ (BitVec.toNat (Claims.address g t) %
      64 = 12 * k) ∧ (BitVec.getLsbD (lineWord b) (27 + k) = true) ∧ (∀ d < 4, (s.die d).elsizel = 0) ∧ (l =
      s.fetchLine (s.accessor g) (lineAddr (Claims.address g t))) ∧ (s1 = s.logParity g l) ∧ (g1 = { g with evpend :=
      if g.core ≠ none then g.evpend ||| 2 else g.evpend }) := by
  refine ⟨sFlip, grpJ, hdr, .jmp hdr 1 .always, .indirect 1, .always, 0, tgtLine ^^^ 1, _, _, _,
    (by exact .inr ⟨1, rfl, rfl⟩), ?_, cur_of rfl rfl, (by trivial), ?_, ?_, ?_, ?_, ?_, ?_, ?_, rfl, rfl, rfl⟩ <;>
    decide +kernel

theorem witness_MarksAndExits_0 :
    ∃ (s : State) (g : Group) (h : Hdr), ((Instr.nop h).wellFormed = true) ∧ (s.group? s.cur = some g) := by
  refine ⟨s0, grp, hdr, ?_, cur_of rfl rfl⟩ <;>
    decide +kernel

theorem witness_MarksAndExits_1 :
    ∃ (s : State) (g : Group) (h : Hdr) (c : BitVec 32), ((Instr.mark h c).wellFormed = true) ∧ (s.group? s.cur = some
      g) ∧ ((s.part (s.accessor g).part).btrace = false) := by
  refine ⟨s0, grp, hdr, -1, ?_, cur_of rfl rfl, ?_⟩ <;>
    decide +kernel

theorem witness_MarksAndExits_2 :
    ∃ (s : State) (g : Group) (h : Hdr) (c : BitVec 32), ((Instr.mark h c).wellFormed = true) ∧ (s.group? s.cur = some
      g) ∧ ((s.part (s.accessor g).part).btrace = true) := by
  refine ⟨s0.modPart 0 (fun p => { p with btrace := true }), grp, hdr, -1, ?_, cur_of rfl rfl, ?_⟩ <;>
    decide +kernel

theorem witness_MarksAndExits_3 :
    ∃ (s : State) (g : Group) (h : Hdr), ((Instr.exit h).wellFormed = true) ∧ (s.group? s.cur = some g) ∧ (g.mode =
      .user) ∧ (g.depth ≠ 0) := by
  refine ⟨mk { grp with depth := 1 }, { grp with depth := 1 }, hdr, ?_, cur_of rfl rfl, ?_, ?_⟩ <;>
    decide +kernel

theorem witness_MarksAndExits_4 :
    ∃ (s : State) (g : Group) (h : Hdr), ((Instr.exit h).wellFormed = true) ∧ (s.group? s.cur = some g) ∧ (g.mode =
      .user) ∧ (g.depth = 0) ∧ (g.live &&& ~~~g.active h ≠ 0) := by
  refine ⟨mk { grp with m := vset grp.m 1 1 }, { grp with m := vset grp.m 1 1 }, { hdr with pm := 1 }, ?_, cur_of rfl
    rfl, ?_, ?_, ?_⟩ <;>
    decide +kernel

theorem witness_MarksAndExits_5 :
    ∃ (s : State) (g : Group) (h : Hdr), ((Instr.exit h).wellFormed = true) ∧ (s.group? s.cur = some g) ∧ (g.mode =
      .user) ∧ (g.depth = 0) ∧ (g.gang = none) ∧ (g.live &&& ~~~g.active h = 0) := by
  refine ⟨s0, grp, hdr, ?_, cur_of rfl rfl, ?_, ?_, ?_, ?_⟩ <;>
    decide +kernel

/-- The group that spawns from lane 63, and the unfired bins that fill its core. -/
def grpSp : Group := { grp with lo := true, hi := true, exec := single 63 }

def fullBins : List Bin :=
  List.replicate 16 ⟨.spawn 1 0x6000 16 [⟨Vector.replicate 4 7, 2⟩], 0, false, 0, 0, false⟩

theorem witness_Spawning_0 :
    ∃ (s : State) (g : Group) (h : Hdr) (disp : BitVec 20) (slot : BitVec 3) (n : BitVec 6) (rec : BitVec 512) (a :
      Word64) (t : Team) (c : Nat) (lanes : List Nat) (k : Core), (a = Claims.address g (Target.direct disp slot)) ∧
      ((Instr.spawn h disp slot (Opd.v n)).wellFormed = true) ∧ (s.group? s.cur = some g) ∧ (g.mode = Mode.user) ∧
      (g.prog = 0) ∧ (Claims.mayEnter s g a 0) ∧ (Claims.codeAt s g (lineAddr a - 64) rec) ∧ (recordOk rec = true) ∧
      (bitsN rec 105 104 = 0) ∧ (bitsN rec 115 112 ≤ 4) ∧ (g.holdsRange n.toNat 4 = true) ∧ (s.team? g.team = some t)
      ∧ (g.core = some c) ∧ (c < 272) ∧ (lanes = lanesOf (g.contributors h)) ∧ (lanes ≠ []) ∧ (List.foldlM (fun k i
      => Claims.post t.launch a (bitsN rec 102 96) s.time k (Claims.itemOf g n i)) (s.core c) lanes = some k) := by
  refine ⟨mkCode (recLine 0 0 0) grpSp, grpSp, hdr, 0x40, 0, 60, recLine 0 0 0, 0x5000, tm, 0, [63], _,
    (by decide +kernel), ?_, cur_of rfl rfl, ?_, ?_, (by exact enters _ _ (by decide +kernel)),
    (by exact ⟨by decide +kernel, by decide +kernel⟩), ?_, ?_, ?_, ?_, rfl, rfl, ?_, ?_, ?_,
    (by exact (Option.some_get (by decide +kernel)).symm)⟩ <;>
    decide +kernel

theorem witness_Spawning_1 :
    ∃ (s : State) (g : Group) (h : Hdr) (disp : BitVec 20) (slot : BitVec 3) (n : BitVec 6) (rec : BitVec 512) (a :
      Word64) (t : Team) (c : Nat) (lanes pre : List Nat) (i : Nat) (post : List Nat) (k : Core) (j : Nat) (b : Bin),
      (a = Claims.address g (Target.direct disp slot)) ∧ ((Instr.spawn h disp slot (Opd.v n)).wellFormed = true) ∧
      (s.group? s.cur = some g) ∧ (g.mode = Mode.user) ∧ (g.prog = 0) ∧ (Claims.mayEnter s g a 0) ∧ (Claims.codeAt s
      g (lineAddr a - 64) rec) ∧ (recordOk rec = true) ∧ (bitsN rec 105 104 = 0) ∧ (bitsN rec 115 112 ≤ 4) ∧
      (g.holdsRange n.toNat 4 = true) ∧ (s.team? g.team = some t) ∧ (g.core = some c) ∧ (c < 272) ∧ (lanes = lanesOf
      (g.contributors h)) ∧ (lanes ≠ []) ∧ (lanes = pre ++ i :: post) ∧ (List.foldlM (fun k i => Claims.post t.launch
      a (bitsN rec 102 96) s.time k (Claims.itemOf g n i)) (s.core c) pre = some k) ∧ (Claims.post t.launch a (bitsN
      rec 102 96) s.time k (Claims.itemOf g n i) = none) ∧ (k.bins[j]? = some b) ∧ (b.fired = false) ∧ (∀ (j' : ℕ)
      (b' : Bin), k.bins[j']? = some b' → b'.fired = false → BitVec.toNat b.opened ≤ BitVec.toNat b'.opened ∧ (j' < j →
      BitVec.toNat b.opened < BitVec.toNat b'.opened)) := by
  refine ⟨(mkCode (recLine 0 0 0) grpSp).modCore 0 (fun c => { c with bins := fullBins }), grpSp, hdr, 0x40, 0, 60,
    recLine 0 0 0, 0x5000, tm, 0, [63], [], 63, [], _, 0, ⟨.spawn 1 0x6000 16 [⟨Vector.replicate 4 7, 2⟩], 0, false, 0, 0, false⟩,
    (by decide +kernel), ?_, cur_of rfl rfl, ?_, ?_,
    (by exact ⟨by decide, by decide, tgtLine, ⟨by decide +kernel, by decide +kernel⟩, by decide +kernel⟩),
    (by exact ⟨by decide +kernel, by decide +kernel⟩), ?_, ?_, ?_, ?_, rfl, rfl, ?_, ?_, ?_, rfl, rfl, ?_, ?_, rfl,
    (by intro j' b' hb _; exact ⟨Nat.zero_le _, fun h => absurd h (by omega)⟩)⟩ <;>
    decide +kernel

theorem witness_Spawning_2 :
    ∃ (s : State) (g : Group) (h : Hdr) (n : BitVec 6) (t : Team), ((Instr.spwait h (.x n)).wellFormed = true) ∧
      (s.group? s.cur = some g) ∧ (s.team? g.team = some t) ∧ (∀ c, g.kind ≠ .spawned c) ∧ (t.spawned.toNat ≤ (g.xVal
      n).toNat % 2 ^ 32) := by
  refine ⟨s0, grp, hdr, 0, tm, ?_, cur_of rfl rfl, ?_, (by intro c h; cases h), ?_⟩ <;>
    decide +kernel

theorem witness_Spawning_3 :
    ∃ (s : State) (g : Group) (h : Hdr) (n : BitVec 6) (t : Team), ((Instr.spwait h (.x n)).wellFormed = true) ∧
      (s.group? s.cur = some g) ∧ (s.team? g.team = some t) ∧ (∀ c, g.kind ≠ .spawned c) ∧ ((g.xVal n).toNat % 2 ^ 32
      < t.spawned.toNat) := by
  refine ⟨{ mk (withX [(1, 2 ^ 32)]) with teams := [{ tm with spawned := 1 }] }, withX [(1, 2 ^ 32)], hdr, 1,
    { tm with spawned := 1 }, ?_, cur_of rfl rfl, ?_, (by intro c h; cases h), ?_⟩ <;>
    decide +kernel

theorem witness_Spawning_n0 :
    ∃ (s : State) (g : Group) (h : Hdr) (disp : BitVec 20) (slot : BitVec 3) (n : BitVec 6), ((Instr.spawn h disp
      slot (Opd.v n)).wellFormed = true) ∧ (s.group? s.cur = some g) ∧ (g.mode = Mode.user) ∧ (g.contributors h = 0) := by
  refine ⟨mk ({ grp with exec := 0 }), { grp with exec := 0 }, hdr, 0x40, 0, 60, ?_, cur_of rfl rfl, ?_, ?_⟩ <;>
    decide +kernel

theorem witness_TakesFaults_0 :
    ∃ (s : State) (g : Group) (t : Trap) (r : CauseRec), (s.group? g.id = some g) ∧ (r = Claims.record s g t) ∧
      (g.mode = .user) ∧ (t.cause.isS = false) ∧ (s.ptvec g ≠ 0) ∧ (s.handlerOk g (s.ptvec g) = true) := by
  refine ⟨sCode, grp, trapAt .perm 8, Claims.record (sCode) (grp) (trapAt .perm 8), of_id rfl, rfl, ?_, ?_, ?_, ?_⟩
    <;>
    decide +kernel

theorem witness_TakesFaults_1 :
    ∃ (s : State) (g : Group) (t : Trap) (r : CauseRec), (s.group? g.id = some g) ∧ (r = Claims.record s g t) ∧
      (g.mode ≠ .supervisor) ∧ (t.cause.isS = true) := by
  refine ⟨mk { grp with mode := .handler }, { grp with mode := .handler }, trapOf .fetchpar, Claims.record (mk
    { grp with mode := .handler }) ({ grp with mode := .handler }) (trapOf .fetchpar), of_id rfl, rfl, ?_, ?_⟩ <;>
    decide +kernel

theorem witness_TakesFaults_2 :
    ∃ (s : State) (g : Group) (t : Trap) (r : CauseRec), (s.group? g.id = some g) ∧ (r = Claims.record s g t) ∧
      (g.mode = .user) ∧ (t.cause.isS = false) ∧ (s.ptvec g = 0 ∨ s.handlerOk g (s.ptvec g) = false) := by
  refine ⟨s0, grp, { trapLane .scrprot 63 8 with late := some (0x4000, 5) }, Claims.record (s0) (grp)
    ({ trapLane .scrprot 63 8 with late := some (0x4000, 5) }), of_id rfl, rfl, ?_, ?_, ?_⟩ <;>
    decide +kernel

theorem witness_TakesFaults_3 :
    ∃ (s : State) (g : Group) (t : Trap) (r : CauseRec), (s.group? g.id = some g) ∧ (r = Claims.record s g t) ∧
      (g.mode = .handler) ∧ (t.cause.isS = false) := by
  refine ⟨mk { grp with mode := .handler }, { grp with mode := .handler }, trapOf .illop, Claims.record (mk
    { grp with mode := .handler }) ({ grp with mode := .handler }) (trapOf .illop), of_id rfl, rfl, ?_, ?_⟩ <;>
    decide +kernel

theorem witness_TakesFaults_4 :
    ∃ (s : State) (g : Group) (t : Trap) (r : CauseRec), (s.group? g.id = some g) ∧ (r = Claims.record s g t) ∧
      (g.mode = .supervisor) := by
  refine ⟨mk { grp with mode := .supervisor }, { grp with mode := .supervisor }, trapOf .priv, Claims.record (mk
    { grp with mode := .supervisor }) ({ grp with mode := .supervisor }) (trapOf .priv), of_id rfl, rfl, ?_⟩ <;>
    decide +kernel

theorem witness_TrapsEnter_0b :
    ∃ (s : State) (g : Group) (h : Hdr) (i : Instr) (c : Cause) (code : BitVec 32) (r : CauseRec), (i = Instr.trap h
      code ∧ c = Cause.trap ∨ i = Instr.bkpt h code ∧ c = Cause.bkpt ∧ (s.part (s.accessor g).part).arm = false) ∧
      (i.wellFormed = true) ∧ (s.group? s.cur = some g) ∧ (g.mode = Mode.user) ∧ (h.sw = true → g.pend = []) ∧
      (s.ptvec g ≠ 0) ∧ (s.handlerOk g (s.ptvec g) = true) ∧ ((s.fetchLine (s.accessor g) (s.ptvec g)).mismatch =
      false) ∧ (r = Claims.record s g { cause := c, detail := code }) := by
  refine ⟨sCode, grp, hdr, .bkpt hdr 7, .bkpt, 7, Claims.record sCode grp { cause := .bkpt, detail := 7 },
    (by exact .inr ⟨rfl, rfl, by decide +kernel⟩), ?_, cur_of rfl rfl, ?_, ?_, ?_, ?_, ?_, rfl⟩ <;>
    decide +kernel

theorem witness_TrapsEnter_1 :
    ∃ (s : State) (g : Group) (h : Hdr) (code : BitVec 32), ((Instr.bkpt h code).wellFormed = true) ∧ (s.group? s.cur
      = some g) ∧ ((s.part (s.accessor g).part).arm = true) ∧ (g.pass = .bkpt) := by
  refine ⟨(mk { grp with pass := .bkpt }).modPart 0 (fun p => { p with arm := true }), { grp with pass := .bkpt }, hdr,
    7, ?_, cur_of rfl rfl, ?_, ?_⟩ <;>
    decide +kernel

theorem witness_TrapsEnter_2 :
    ∃ (s : State) (g : Group) (h : Hdr) (code : BitVec 32), ((Instr.bkpt h code).wellFormed = true) ∧ (s.group? s.cur
      = some g) ∧ ((s.part (s.accessor g).part).arm = true) ∧ (g.pass ≠ .bkpt) ∧ ((s.accessor g).part < 8) := by
  refine ⟨s0.modPart 0 (fun p => { p with arm := true }), grp, hdr, 7, ?_, cur_of rfl rfl, ?_, ?_, ?_⟩ <;>
    decide +kernel

/-- What a group saves at an entry from user mode, its address past the slots of a line. -/
def saved (ret : Word64) : Shadow :=
  grp.shadow ret ⟨0x0001_0000_0000_0004, 0, 0x4030, 0⟩

/-- A group in the handler. -/
def grpH (ret : Word64) : Group :=
  { grp with mode := .handler, hset := some (saved ret) }

/-- A group in the supervisor. -/
def grpS (ret : Word64) : Group :=
  { grp with mode := .supervisor, sset := some (saved ret) }

theorem witness_ReturnsRestore_0 :
    ∃ (s : State) (g : Group) (h : Hdr) (i : Instr) (skip : Bool) (sh : Shadow) (a : Word64), (i = (if skip then
      .eretSkip h else .eret h)) ∧ (i.wellFormed = true) ∧ (s.group? s.cur = some g) ∧ (g.mode = .handler ∧ g.hset =
      some sh ∨ g.mode = .supervisor ∧ g.sset = some sh) ∧ (h.sw = true → g.pend = []) ∧ (a = (if skip then (if
      sh.cause.x56.getLsbD 48 then sh.ret else nextSlot sh.cause.x58) else sh.ret)) ∧ (slotOk a = true) := by
  refine ⟨mk (grpH 0x4030), grpH 0x4030, hdr, .eret hdr, false, saved 0x4030, 0x4030, rfl, ?_, cur_of rfl rfl,
    (by decide +kernel), ?_, (by decide +kernel), ?_⟩ <;>
    decide +kernel

theorem witness_ReturnsRestore_0b :
    ∃ (s : State) (g : Group) (h : Hdr) (i : Instr) (skip : Bool) (sh : Shadow) (a : Word64), (i = (if skip then
      .eretSkip h else .eret h)) ∧ (i.wellFormed = true) ∧ (s.group? s.cur = some g) ∧ (g.mode = .handler ∧ g.hset =
      some sh ∨ g.mode = .supervisor ∧ g.sset = some sh) ∧ (h.sw = true → g.pend = []) ∧ (a = (if skip then (if
      sh.cause.x56.getLsbD 48 then sh.ret else nextSlot sh.cause.x58) else sh.ret)) ∧ (slotOk a = true) := by
  refine ⟨mk (grpS 0x4000), grpS 0x4000, hdr, .eretSkip hdr, true, saved 0x4000, 0x4000, rfl, ?_, cur_of rfl rfl,
    (by decide +kernel), ?_, (by decide +kernel), ?_⟩ <;>
    decide +kernel

theorem witness_ReturnsRestore_1 :
    ∃ (s : State) (g : Group) (h : Hdr) (sh : Shadow) (r : CauseRec), ((Instr.eretFwd h).wellFormed = true) ∧
      (s.group? s.cur = some g) ∧ (g.mode = .supervisor) ∧ (g.sset = some sh) ∧ (sh.mode = .user) ∧ (h.sw = true →
      g.pend = []) ∧ (s.ptvec g ≠ 0) ∧ (s.handlerOk g (s.ptvec g) = true) ∧ (r = ⟨g.xVal 56, g.xVal 57, g.xVal 58,
      g.xVal 59⟩) := by
  refine ⟨mkCode (recLine 0 0 0) (grpS 0x4000), grpS 0x4000, hdr, saved 0x4000, ⟨(grpS 0x4000).xVal 56, (grpS
    0x4000).xVal 57, (grpS 0x4000).xVal 58, (grpS 0x4000).xVal 59⟩, ?_, cur_of rfl rfl, ?_, ?_, ?_, ?_, ?_, ?_, rfl⟩
    <;>
    decide +kernel

theorem witness_ReturnsRestore_2 :
    ∃ (s : State) (g : Group) (h : Hdr) (i : Instr), (i = .eret h ∨ i = .eretSkip h ∨ i = .eretFwd h) ∧ (i.wellFormed
      = true) ∧ (s.group? s.cur = some g) ∧ (g.mode = .user) := by
  refine ⟨s0, grp, hdr, .eretFwd hdr, (by exact .inr (.inr rfl)), ?_, cur_of rfl rfl, ?_⟩ <;>
    decide +kernel

theorem witness_ReturnsRestore_n4 :
    ∃ (s : State) (g : Group) (i : Instr), (Claims.userOnly i) ∧ (i.wellFormed = true) ∧ (s.group? s.cur = some g) ∧
      (g.mode ≠ Mode.user) := by
  refine ⟨mk (grpH 0x4000), grpH 0x4000, .exit hdr, (by exact ⟨hdr, .inr (.inr (.inr (.inr (.inr (.inl rfl)))))⟩), ?_,
    cur_of rfl rfl, ?_⟩ <;>
    decide +kernel

theorem witness_ReturnsRestore_n3 :
    ∃ (g g1 g2 : Group) (m : Mode) (pc ret : Word64) (r : CauseRec) (sh : Shadow), (sh = g.shadow ret r) ∧ (m =
      .handler ∧ g.hset = none ∧ g1 = ({ g with hset := some sh }.enter .handler pc r) ∨ m = .supervisor ∧ g.sset =
      none ∧ g1 = ({ g with sset := some sh }.enter .supervisor pc r)) ∧ (g2 =
      { g with
        pc := ret, wait := none, lastsp := 0xFFFF_FFFF, steps := 0, pass := .no,
        hret := if m = .handler then some ret else g.hret,
        firmware := if m = .handler then g.firmware else none }) := by
  refine ⟨grp, { grp with hset := some (grp.shadow 0x4000 ⟨1, 2, 3, 4⟩) }.enter .handler 0x5000 ⟨1, 2, 3, 4⟩, _, .handler, 0x5000, 0x4000,
    ⟨1, 2, 3, 4⟩, grp.shadow 0x4000 ⟨1, 2, 3, 4⟩, rfl, (by exact .inl ⟨rfl, rfl, rfl⟩), rfl⟩

theorem witness_SystemInstructions_0 :
    ∃ (s : State) (g : Group) (h : Hdr) (n : BitVec 6) (num : BitVec 16) (v : Word64), ((Instr.mfsr h (Opd.x n)
      num).wellFormed = true) ∧ (s.group? s.cur = some g) ∧ (g.mode = Mode.supervisor) ∧ (num = 0 ∧ v = (s.core
      (g.core.getD 0)).svec ∨ (∃ sh, num = 16 ∧ g.hset = some sh ∧ v = sh.ret) ∨ num = 16 ∧ g.hset = none ∧ g.hret =
      some v ∨ (∃ sh, num = 17 ∧ g.sset = some sh ∧ v = sh.ret) ∨ ∃ sh, num = 18 ∧ g.sset = some sh ∧ v =
      BitVec.ofNat 64 sh.mode.code) := by
  refine ⟨mk (grpS 0x4000), grpS 0x4000, hdr, 63, 0x0012, 0, ?_, cur_of rfl rfl, ?_,
    (by exact .inr (.inr (.inr (.inr ⟨saved 0x4000, rfl, rfl, by decide +kernel⟩))))⟩ <;>
    decide +kernel

theorem witness_SystemInstructions_1 :
    ∃ (s : State) (g : Group) (h : Hdr) (n : BitVec 6), ((Instr.mtsr h (.x n) 0x0000).wellFormed = true) ∧ (s.group?
      s.cur = some g) ∧ (g.mode = .supervisor) := by
  refine ⟨mk (grpS 0x4000), grpS 0x4000, hdr, 63, ?_, cur_of rfl rfl, ?_⟩ <;>
    decide +kernel

theorem witness_SystemInstructions_3 :
    ∃ (s : State) (g : Group) (h : Hdr) (r : Opd) (num : BitVec 16) (sc : TlbScope) (i : Instr), (i = Instr.mfsr h r
      num ∨ i = Instr.mtsr h r num ∨ i = Instr.tlbinv h sc r) ∧ (i.wellFormed = true) ∧ (s.group? s.cur = some g) ∧
      (g.mode ≠ Mode.supervisor) ∧ (s.held g = false) := by
  refine ⟨mk (grpH 0x4000), grpH 0x4000, hdr, .v 0, 0, .all, .tlbinv hdr .all (.v 0), (by exact .inr (.inr rfl)), ?_,
    cur_of rfl rfl, ?_, ?_⟩ <;>
    decide +kernel

theorem witness_SystemInstructions_4 :
    ∃ (s : State) (g : Group) (h : Hdr) (sc : TlbScope) (n : BitVec 6), ((Instr.tlbinv h sc (Opd.x n)).wellFormed =
      true) ∧ (s.group? s.cur = some g) ∧ (g.mode = Mode.supervisor) ∧ (s.held g = false) := by
  refine ⟨mk (grpS 0x4000), grpS 0x4000, hdr, TlbScope.addr, 1, ?_, cur_of rfl rfl, ?_, ?_⟩ <;>
    decide +kernel

theorem witness_SystemInstructions_5 :
    ∃ (s : State) (g : Group) (h : Hdr) (n : BitVec 6) (mask : BitVec 16), ∃ g1, ((Instr.waitev h (.x n)
      mask).wellFormed = true) ∧ (s.group? s.cur = some g) ∧ (g.evpend &&& mask ≠ 0) ∧ (g1 =
      { g with evpend := g.evpend &&& ~~~mask }) := by
  refine ⟨mk ({ grp with evpend := 0x8001 }), { grp with evpend := 0x8001 }, hdr, 1, 0x8000,
    { { grp with evpend := 0x8001 } with evpend := ({ grp with evpend := 0x8001 } : Group).evpend &&& ~~~0x8000 }, ?_,
    cur_of rfl rfl, ?_, rfl⟩ <;>
    decide +kernel

theorem witness_SystemInstructions_6 :
    ∃ (s : State) (g : Group) (h : Hdr) (n : BitVec 6) (mask : BitVec 16), ((Instr.waitev h (.x n) mask).wellFormed =
      true) ∧ (s.group? s.cur = some g) ∧ (g.evpend &&& mask = 0) := by
  refine ⟨mk ({ grp with evpend := 0x7FFF }), { grp with evpend := 0x7FFF }, hdr, 1, 0x8000, ?_, cur_of rfl rfl, ?_⟩
    <;>
    decide +kernel

theorem witness_SystemInstructions_n2 :
    ∃ (s : State) (g g1 : Group) (h : Hdr) (n : BitVec 6) (num : BitVec 16), ((Instr.mtsr h (Opd.x n) num).wellFormed
      = true) ∧ (s.group? s.cur = some g) ∧ (g.mode = Mode.supervisor) ∧ (num = 0x0010 ∧ g1 = (match g.hset
      with
        | some sh => { g with hset := some { sh with ret := g.xVal n } }
        | none => { g with hret := some (g.xVal n) })
      ∨ num = 0x0011 ∧ g1 =
        { g with sset := g.sset.map (fun sh => { sh with ret := g.xVal n }) } ∨ num =
      0x0012 ∧ g1 = g) := by
  refine ⟨mk (grpS 0x4000), grpS 0x4000,
    { grpS 0x4000 with sset := (grpS 0x4000).sset.map (fun sh => { sh with ret := (grpS 0x4000).xVal 63 }) }, hdr, 63,
    0x0011, ?_, cur_of rfl rfl, ?_, (by exact .inr (.inl ⟨rfl, rfl⟩))⟩ <;>
    decide +kernel

theorem witness_MemoryReadsBack_1 :
    ∃ (s : State) (loc : Nat) (bs : List Byte) (x : Nat), Memory.wf s.mem = true := by
  refine ⟨{ s0 with mem := [(5, 7)] }, 5, [0, 9], 6, ?_⟩
  decide +kernel

theorem witness_MemoryReadsBack_2 :
    ∃ (s : State) (loc : Nat) (bs : List Byte) (n v : Nat), Memory.wf s.mem = true := by
  refine ⟨{ s0 with mem := [(5, 7)] }, 5, [0, 9], 2, 6, ?_⟩
  decide +kernel

theorem witness_MemoryReadsBack_3 :
    ∃ (s : State) (loc : Nat) (bs : List Byte), (Memory.wf s.mem = true) := by
  refine ⟨{ s0 with mem := [(5, 7)] }, 5, [0, 9], ?_⟩ <;>
    decide +kernel

/-- Only lane 0 accesses where an instruction runs once with every lane active. -/
theorem only_first {g : Group} {h : Hdr} {os : List Opd} {lane : Nat} (h1 : Claims.once h os = true)
    (h2 : lowest (g.active h) = some 0) (hl : Claims.accesses g h os lane) : lane = 0 := by
  unfold Claims.accesses at hl
  rw [h1, if_pos rfl, h2] at hl
  exact (Option.some.inj hl).symm

/-- A group whose `X2` is a scratchpad address. -/
def grpA (off : Nat) : Group := withX [(2, 0x00C0_0000_2000_0000 + BitVec.ofNat 64 off)]

theorem witness_LoadsRead_0 :
    ∃ (s : State) (g : Group) (h : Hdr) (ty : ITy) (sc : Sys2Proof.Scope) (ord : MemOrd) (d : Opd) (a : MemOpd) (w :
      Nat) (loc : Nat → Nat) (ws : List RegWrite), ((Instr.ld h ty sc ord d a).wellFormed = true) ∧ (s.group? s.cur =
      some g) ∧ (Claims.freeAcq s g) ∧ (g.waitingLoads = [] ∨ ∀ (lane : ℕ), Claims.accesses g h [d, a.base] lane →
      s.strong (s.accessor g) (Claims.addr g a lane) = false ∧ s.strong (s.accessor g) (Claims.addr g a lane +
      BitVec.ofNat 64 (ty.width / 8 - 1)) = false ∧ (isScr (loc lane) = true → g.waitsOn (loc lane)
      s.nextId = false)) ∧ (g.checkHeld [(d, ty.width), (a.base, 64)] = Except.ok ()) ∧ (∀ (lane : ℕ),
      Claims.accesses g h [d, a.base] lane → Claims.lands s g Use.read a (ty.width / 8) lane (loc lane) ∧ (isScr (loc
      lane) = true → s.isFull (loc lane) = true)) ∧ (w = max ty.width (if d.isX = true then 64 else 32)) ∧ (ws = if
      g.active h = 0 then [] else g.writesTo d false w (g.active h) fun lane => Claims.loaded ty w (s.readNat (loc
      (Claims.readLane (Claims.once h [d, a.base]) (g.active h) lane)) (ty.width / 8))) := by
  refine ⟨mk (grpA 8184), grpA 8184, hdr, .b64, .group, .plain, .x 1, ⟨.x 2, 0⟩, 64, fun _ => scrLoc 0 8184, grpA 8184
    |>.writesTo (.x 1) false 64 ((grpA 8184).active hdr) (fun lane => Claims.loaded .b64 64 ((mk (grpA 8184)).readNat
    (scrLoc 0 8184) 8)), ?_, cur_of rfl rfl, (by exact ⟨by decide +kernel, by decide +kernel⟩), .inl (by decide +kernel), ?_,
    (by intro lane hl; obtain rfl := only_first (by decide +kernel) (by decide +kernel) hl; exact ⟨⟨by decide +kernel, by decide +kernel, by decide +kernel⟩, fun _ => by decide +kernel⟩),
    (by decide +kernel), (by decide +kernel)⟩ <;>
    decide +kernel

theorem witness_StoresWrite_0 :
    ∃ (s : State) (g : Group) (h : Hdr) (ty : ITy) (sc : Scope) (ord : MemOrd) (d : Opd) (a : MemOpd) (loc : Nat →
      Nat) (stores : Nat → Prop), ((Instr.st h ty sc ord d a).wellFormed = true) ∧ (s.group? s.cur = some g) ∧
      (Claims.free s g) ∧ (Memory.wf s.mem = true) ∧ (g.checkHeld [(d, ty.width), (a.base, 64)] = .ok ()) ∧ (stores =
      (fun lane => Claims.accesses g h [d, a.base] lane ∧ g.helper.getLsbD lane = false)) ∧ (∀ lane, stores lane →
      (Claims.addr g a lane).toNat % (ty.width / 8) = 0 ∧ s.place (s.accessor g) .write (Claims.addr g a lane) = .ok
      (.mem (loc lane))) := by
  refine ⟨mk (grpA 8188), grpA 8188, hdr, .b32, .group, .plain, .x 1, ⟨.x 2, 0⟩, fun _ => scrLoc 0 8188, fun lane =>
    Claims.accesses (grpA 8188) hdr [.x 1, .x 2] lane ∧ (grpA 8188).helper.getLsbD lane = false, ?_, cur_of rfl rfl,
    (by exact ⟨by decide +kernel, by decide +kernel⟩), ?_, ?_, rfl,
    (by intro lane hl; replace hl := hl.1; obtain rfl := only_first (by decide +kernel) (by decide +kernel) hl; exact ⟨by decide +kernel, by decide +kernel⟩)⟩
    <;>
    decide +kernel

theorem witness_MisalignedAccesses_0 :
    ∃ (s : State) (g : Group) (h : Hdr) (ty : ITy) (sc : Sys2Proof.Scope) (ord : MemOrd) (d : Opd) (a : MemOpd) (lane
      : Nat) (loc : Nat → Nat) (i : Instr), (i = Instr.ld h ty sc ord d a ∨ i = Instr.st h ty sc ord d a) ∧
      (i.wellFormed = true) ∧ (s.group? s.cur = some g) ∧ (s.held g = false) ∧ (g.checkHeld [(d, ty.width), (a.base,
      64)] = Except.ok ()) ∧ (g.helper = 0) ∧ (Claims.accesses g h [d, a.base] lane) ∧ (BitVec.toNat (Claims.addr g a
      lane) % (ty.width / 8) ≠ 0) ∧ (∀ j < lane, Claims.accesses g h [d, a.base] j → Claims.lands s g (if i =
      Instr.ld h ty sc ord d a then Use.read else Use.write) a (ty.width / 8) j (loc j)) := by
  refine ⟨mk (grpA 8190), grpA 8190, hdr, .b32, .group, .plain, .x 1, ⟨.x 2, 0⟩, 0, fun _ => 0, .ld hdr .b32 .group
    .plain (.x 1) ⟨.x 2, 0⟩, (by exact .inl rfl), ?_, cur_of rfl rfl, ?_, ?_, ?_,
    (by show Claims.accesses (grpA 8190) hdr [.x 1, .x 2] 0; unfold Claims.accesses; decide +kernel), ?_,
    (by intro j hj; exact absurd hj (Nat.not_lt_zero j))⟩ <;>
    decide +kernel

/-- What the supervisor has saved of a group whose misaligned access stands at 0x5000. -/
def savedF (g : Group) : Shadow := g.shadow 0x5000 ⟨4, 0, 0x5000, 0⟩

/-- The group in the firmware's hands. -/
def heldF (g : Group) (f : Firmware) : Group :=
  { g with mode := .supervisor, sset := some (savedF g), firmware := some f }

theorem held_emulating {s : State} {g : Group} {f : Firmware} (hs : s.agenda = []) (hg : s.group? s.cur = some (heldF g f))
    (ht : s.teamRuns (heldF g f) = true) (hh : g.halted = none) (hp : g.stopped = false)
    (hk : s.firmwareParked (heldF g f) = false) :
    Claims.emulating s (heldF g f) ((heldF g f).restore (savedF g) 0x5000) (savedF g) f :=
  ⟨hs, hg, ht, hh, hp, rfl, rfl, rfl, hk, rfl⟩

/-- A byte of `X1` to or from the address in `X2`. -/
def byte0 (load : Bool) (todo : List (Nat × Nat)) : Firmware := .bytes hdr load .b32 (.x 1) ⟨.x 2, 0⟩ todo [] none

theorem witness_MisalignedAccesses_n1 :
    ∃ (s : State) (g r : Group) (sh : Shadow) (n : Nat) (i : Instr) (f : Firmware), (Claims.emulating s g r sh
      Firmware.start) ∧ (s.readVa (s.accessor g) Use.read sh.cause.x58 12 = Except.ok n) ∧ (decode (BitVec.ofNat 96
      n) = Except.ok i) ∧ ((∃ h ty sc ord d a, i = Instr.ld h ty sc ord d a ∧ f = Firmware.bytes h true ty d a
      (Claims.bytesOfLanes (ty.width / 8) (Claims.lanesThat r h [d, a.base])) [] none) ∨ (∃ h ty sc ord d a, i =
      Instr.st h ty sc ord d a ∧ f = Firmware.bytes h false ty d a (Claims.bytesOfLanes (ty.width / 8)
      (Claims.updaters r h [d, a.base])) [] none) ∨ (∀ (h : Hdr) (ty : ITy) (sc : Sys2Proof.Scope) (ord : MemOrd) (d
      : Opd) (a : MemOpd), i ≠ Instr.ld h ty sc ord d a ∧ i ≠ Instr.st h ty sc ord d a) ∧ f = Firmware.forward) := by
  refine ⟨mkCode (recLine 0 0 0) (heldF grp .start), heldF grp .start, _, savedF grp, tgtLine.toNat % 2 ^ 96, .nop hdr, .forward,
    (by exact held_emulating (by decide +kernel) (cur_of rfl rfl) (by decide +kernel) rfl rfl (by decide +kernel)), (by exact ok_of (by decide +kernel)), ?_,
    (by exact .inr (.inr ⟨fun _ _ _ _ _ _ => ⟨nofun, nofun⟩, rfl⟩))⟩ <;>
    decide +kernel

theorem witness_MisalignedAccesses_n2 :
    ∃ (s : State) (g r : Group) (sh : Shadow) (h : Hdr) (ty : ITy) (d : Opd) (a : MemOpd) (lane k loc : Nat) (rest :
      List (Nat × Nat)) (got : List (Nat × Nat × Byte)) (w : Option WaitLane) (va : Word64), (Claims.emulating s g r
      sh (Firmware.bytes h false ty d a ((lane, k) :: rest) got w)) ∧ (va = Claims.addr r a lane + BitVec.ofNat 64 k)
      ∧ (s.place (s.accessor r) Use.write va = Except.ok (Place.mem loc)) ∧ (s.poison = []) ∧ ((s.part (s.accessor
      r).part).arm = false) ∧ (Memory.wf s.mem = true) := by
  refine ⟨mk (heldF (grpA 8191) (byte0 false [(0, 0)])), heldF (grpA 8191) (byte0 false [(0, 0)]), _, savedF (grpA 8191), hdr, .b32, .x 1, ⟨.x 2, 0⟩, 0, 0,
    scrLoc 0 8191, [], [], none, 0x00C0_0000_2000_1FFF, (by exact held_emulating (by decide +kernel) (cur_of rfl rfl) (by decide +kernel) rfl rfl (by decide +kernel)), ?_, ?_, ?_, ?_, ?_⟩ <;>
    decide +kernel

theorem witness_MisalignedAccesses_n3 :
    ∃ (s : State) (g r : Group) (sh : Shadow) (h : Hdr) (ty : ITy) (d : Opd) (a : MemOpd) (lane k loc : Nat) (rest :
      List (Nat × Nat)) (got : List (Nat × Nat × Byte)) (va : Word64) (wait : Option WaitLane), (Claims.emulating s g
      r sh (Firmware.bytes h true ty d a ((lane, k) :: rest) got none)) ∧ (va = Claims.addr r a lane + BitVec.ofNat
      64 k) ∧ (s.place (s.accessor r) Use.read va = Except.ok (Place.mem loc)) ∧ (s.poison = []) ∧ ((s.part
      (s.accessor r).part).arm = false) ∧ (isScr loc = true → s.isFull loc = true ∧ r.waitsOn loc s.nextId = false) := by
  refine ⟨mk (heldF (grpA 8191) (byte0 true [(0, 0)])), heldF (grpA 8191) (byte0 true [(0, 0)]), _, savedF (grpA 8191), hdr, .b32, .x 1, ⟨.x 2, 0⟩, 0, 0,
    scrLoc 0 8191, [], [], 0x00C0_0000_2000_1FFF, none, (by exact held_emulating (by decide +kernel) (cur_of rfl rfl) (by decide +kernel) rfl rfl (by decide +kernel)), ?_, ?_, ?_, ?_, ?_⟩ <;>
    decide +kernel

theorem witness_MisalignedAccesses_n4 :
    ∃ (s : State) (g r : Group) (sh : Shadow) (h : Hdr) (ty : ITy) (d : Opd) (a : MemOpd) (lane k loc : Nat) (rest :
      List (Nat × Nat)) (got : List (Nat × Nat × Byte)) (va : Word64) (wait : Option WaitLane), (Claims.emulating s g
      r sh (Firmware.bytes h true ty d a ((lane, k) :: rest) got none)) ∧ (va = Claims.addr r a lane + BitVec.ofNat
      64 k) ∧ (s.place (s.accessor r) Use.read va = Except.ok (Place.mem loc)) ∧ (s.poison = []) ∧ ((s.part
      (s.accessor r).part).arm = false) ∧ (isScr loc = true) ∧ (s.isFull loc = false) ∧ (wait = some (s.waitLane lane
      va loc)) := by
  refine ⟨{ mk (heldF (grpA 8191) (byte0 true [(0, 0)])) with fe := [lineOf (scrLoc 0 8191)] }, heldF (grpA 8191) (byte0 true [(0, 0)]), _,
    savedF (grpA 8191), hdr, .b32, .x 1, ⟨.x 2, 0⟩, 0, 0, scrLoc 0 8191, [], [], 0x00C0_0000_2000_1FFF, _,
    (by exact held_emulating (by decide +kernel) (cur_of rfl rfl) (by decide +kernel) rfl rfl (by decide +kernel)), ?_, ?_, ?_, ?_, ?_, ?_, rfl⟩ <;>
    decide +kernel

theorem witness_MisalignedAccesses_n5 :
    ∃ (s : State) (g r : Group) (sh : Shadow) (h : Hdr) (load : Bool) (ty : ITy) (d : Opd) (a : MemOpd) (lane k :
      Nat) (rest : List (Nat × Nat)) (got : List (Nat × Nat × Byte)) (w : Option WaitLane) (va : Word64) (c : Cause)
      (f : Firmware), (Claims.emulating s g r sh (Firmware.bytes h load ty d a ((lane, k) :: rest) got w)) ∧ (va =
      Claims.addr r a lane + BitVec.ofNat 64 k) ∧ (s.place (s.accessor r) (if load = true then Use.read else
      Use.write) va = Except.error c) ∧ (load = true) ∧ (BitVec.getLsbD r.helper lane = true) ∧ (f = Firmware.bytes h
      true ty d a (List.filter (fun x => x.1 != lane) rest) (List.filter (fun x => x.1 != lane) got) none) := by
  refine ⟨mk (heldF { grpA 8192 with helper := 1 } (byte0 true [(0, 0)])), heldF { grpA 8192 with helper := 1 } (byte0 true [(0, 0)]), _,
    savedF { grpA 8192 with helper := 1 }, hdr, true, .b32, .x 1, ⟨.x 2, 0⟩, 0, 0, [], [], none, 0x00C0_0000_2000_2000, .scrprot, _,
    (by exact held_emulating (by decide +kernel) (cur_of rfl rfl) (by decide +kernel) rfl rfl (by decide +kernel)), ?_, ?_, rfl, ?_, rfl⟩ <;>
    decide +kernel

theorem witness_MisalignedAccesses_n7 :
    ∃ (s : State) (g r : Group) (sh : Shadow) (h : Hdr) (load : Bool) (ty : ITy) (d : Opd) (a : MemOpd) (got : List
      (Nat × Nat × Byte)) (w : Option WaitLane) (width : Nat) (val : Nat → Option Nat) (ws : List RegWrite),
      (Claims.emulating s g r sh (Firmware.bytes h load ty d a [] got w)) ∧ (width = max ty.width (if d.isX = true
      then 64 else 32)) ∧ (Claims.gathered got (ty.width / 8) val) ∧ (ws = if r.active h = 0 then [] else r.writesTo
      d false width (r.active h) fun lane => match val (Claims.readLane (Claims.once h [d, a.base]) (r.active h)
      lane) with | some v => Claims.loaded ty width v | none => 0) := by
  refine ⟨mk (heldF (grpA 8191) (byte0 true [])), heldF (grpA 8191) (byte0 true []), _, savedF (grpA 8191), hdr, true, .b32, .x 1, ⟨.x 2, 0⟩,
    [], none, 64, fun _ => none, _, (by exact held_emulating (by decide +kernel) (cur_of rfl rfl) (by decide +kernel) rfl rfl (by decide +kernel)), ?_, (by intro lane; exact ⟨fun v h => (nomatch h), rfl⟩), rfl⟩ <;>
    decide +kernel

theorem witness_MisalignedAccesses_n8 :
    ∃ (s : State) (g r : Group) (sh : Shadow), (Claims.emulating s g r sh Firmware.forward) ∧ (sh.mode = Mode.user) ∧
      (s.ptvec g ≠ 0) ∧ (s.handlerOk g (s.ptvec g) = true) := by
  refine ⟨mkCode (recLine 0 0 0) (heldF grp .forward), heldF grp .forward, _, savedF grp, (by exact held_emulating (by decide +kernel) (cur_of rfl rfl) (by decide +kernel) rfl rfl (by decide +kernel)), rfl, ?_, ?_⟩ <;>
    decide +kernel

theorem witness_MisalignedAccesses_n6 :
    ∃ (s : State) (g r : Group) (sh : Shadow) (h : Hdr) (load : Bool) (ty : ITy) (d : Opd) (a : MemOpd) (lane k :
      Nat) (rest : List (Nat × Nat)) (got : List (Nat × Nat × Byte)) (w : Option WaitLane) (va : Word64) (c : Cause),
      (Claims.emulating s g r sh (Firmware.bytes h load ty d a ((lane, k) :: rest) got w)) ∧ (va = Claims.addr r a
      lane + BitVec.ofNat 64 k) ∧ (s.place (s.accessor r) (if load = true then Use.read else Use.write) va =
      Except.error c) ∧ (load = true → BitVec.getLsbD r.helper lane = false) ∧ (sh.mode = Mode.user) ∧ (s.ptvec g ≠
      0) ∧ (s.handlerOk g (s.ptvec g) = true) ∧ ((s.fetchLine { s.accessor g with sup := false } (s.ptvec
      g)).mismatch = false) := by
  refine ⟨mkCode (recLine 0 0 0) (heldF (grpA 8192) (byte0 false [(0, 0)])), heldF (grpA 8192) (byte0 false [(0, 0)]), _, savedF (grpA 8192), hdr, false,
    .b32, .x 1, ⟨.x 2, 0⟩, 0, 0, [], [], none, 0x00C0_0000_2000_2000, .scrprot, (by exact held_emulating (by decide +kernel) (cur_of rfl rfl) (by decide +kernel) rfl rfl (by decide +kernel)), ?_, ?_,
    (by intro h; exact (nomatch h)), rfl, ?_, ?_, (by exact sound_line (loc := 0x5000) (b := tgtLine) (by decide +kernel) (by decide +kernel) (by decide +kernel))⟩ <;>
    decide +kernel

theorem witness_Atomics_0 :
    ∃ (s : State) (g : Group) (h : Hdr) (op : RedOp) (ty : ITy) (sc : Scope) (ord : MemOrd) (d b : Opd) (a : MemOpd)
      (loc : Nat → Nat) (u : State × List (Nat × Code)) (old : Nat → Code), ((Instr.atom h op ty sc ord d a
      b).wellFormed = true) ∧ (s.group? s.cur = some g) ∧ (Claims.free s g) ∧ (g.checkHeld [(d, ty.width), (a.base,
      64), (b, ty.width)] = .ok ()) ∧ (∀ lane ∈ Claims.updaters g h [d, a.base, b], Claims.lands s g .write a
      (ty.width / 8) lane (loc lane) ∧ (HOST_BASE ≤ loc lane → loc lane < 2 * HOST_BASE → (op = .exch ∨ op = .add) ∧
      ty.width ≤ 64)) ∧ (u = Claims.updates (ty.width / 8) loc (fun i x => some (Claims.step op ty x (g.srcLane b
      ty.width i)).1) s (Claims.updaters g h [d, a.base, b])) ∧ (∀ p ∈ u.2, old p.1 = p.2) := by
  refine ⟨mk (grpA 0), grpA 0, hdr, .add, .n64, .group, .plain, .x 1, .x 3, ⟨.x 2, 0⟩, fun _ => scrLoc 0 0,
    Claims.updates 8 (fun _ => scrLoc 0 0) (fun i x => some (Claims.step .add .n64 x ((grpA 0).srcLane (.x 3) 64
    i)).1) (mk (grpA 0)) [0], fun _ => 0, ?_, cur_of rfl rfl, (by exact ⟨by decide +kernel, by decide +kernel⟩), ?_,
    (by rw [show Claims.updaters _ _ _ = [0] from by decide +kernel]; intro lane hl; obtain rfl := List.mem_singleton.mp hl; exact ⟨⟨by decide +kernel, by decide +kernel, by decide +kernel⟩, fun _ h => absurd h (by decide +kernel)⟩),
    (by rw [show Claims.updaters _ _ _ = [0] from by decide +kernel]; rfl), (by decide +kernel)⟩ <;>
    decide +kernel

theorem witness_Atomics_1 :
    ∃ (s : State) (g : Group) (h : Hdr) (op : RedOp) (ty : ITy) (sc : Scope) (ord : MemOrd) (d : Opd) (a : MemOpd)
      (loc : Nat → Nat), ((Instr.redm h op ty sc ord d a).wellFormed = true) ∧ (s.group? s.cur = some g) ∧
      (Claims.free s g) ∧ (g.checkHeld [(d, ty.width), (a.base, 64)] = .ok ()) ∧ (∀ lane ∈ Claims.updaters g h [d,
      a.base], Claims.lands s g .write a (ty.width / 8) lane (loc lane) ∧ (HOST_BASE ≤ loc lane → 2 * HOST_BASE ≤ loc
      lane)) := by
  refine ⟨mk (grpA 4), grpA 4, hdr, .max, .i32, .group, .plain, .x 1, ⟨.x 2, 0⟩, fun _ => scrLoc 0 4, ?_, cur_of rfl
    rfl, (by exact ⟨by decide +kernel, by decide +kernel⟩), ?_,
    (by rw [show Claims.updaters _ _ _ = [0] from by decide +kernel]; intro lane hl; obtain rfl := List.mem_singleton.mp hl; exact ⟨⟨by decide +kernel, by decide +kernel, by decide +kernel⟩, fun _ => by decide +kernel⟩)⟩
    <;>
    decide +kernel

/-- One lane of such a group. -/
def grpW (off : Nat) : Group := { grpA off with exec := 1 }

theorem witness_Atomics_2 :
    ∃ (s : State) (g : Group) (h : Hdr) (ty : ITy) (sc : Scope) (ord : MemOrd) (fa : Bool) (d b : Opd) (a : MemOpd)
      (loc : Nat → Nat) (u : State × List (Nat × Code)) (old : Nat → Code), ((Instr.cas h ty sc ord fa d a
      b).wellFormed = true) ∧ (s.group? s.cur = some g) ∧ (Claims.free s g) ∧ (g.checkHeld [(d, ty.width), (a.base,
      64), (b, ty.width)] = .ok ()) ∧ (∀ lane ∈ Claims.updaters g h [d, a.base, b], Claims.lands s g .read a (ty.width
      / 8) lane (loc lane) ∧ s.place (s.accessor g) .write (Claims.addr g a lane) = .ok (.mem (loc lane))) ∧ (u =
      Claims.updates (ty.width / 8) loc (fun i x => if x = g.srcLane b ty.width i then some (g.srcLane d ty.width i)
      else none) s (Claims.updaters g h [d, a.base, b])) ∧ (∀ p ∈ u.2, old p.1 = p.2) := by
  refine ⟨mk (grpW 16), grpW 16, hdr, .b128, .group, .plain, false, .v 4, .v 8, ⟨.x 2, 0⟩, fun _ => scrLoc 0 16,
    Claims.updates 16 (fun _ => scrLoc 0 16) (fun i x => if x = (grpW 16).srcLane (.v 8) 128 i then some ((grpW
    16).srcLane (.v 4) 128 i) else none) (mk (grpW 16)) [0], fun _ => 0, ?_, cur_of rfl rfl,
    (by exact ⟨by decide +kernel, by decide +kernel⟩), ?_,
    (by rw [show Claims.updaters _ _ _ = [0] from by decide +kernel]; intro lane hl; obtain rfl := List.mem_singleton.mp hl; exact ⟨⟨by decide +kernel, by decide +kernel, by decide +kernel⟩, by decide +kernel⟩),
    (by rw [show Claims.updaters _ _ _ = [0] from by decide +kernel]; rfl), (by decide +kernel)⟩ <;>
    decide +kernel

theorem witness_LinesAndFences_0 :
    ∃ (s : State) (g : Group) (h : Hdr) (sc : Scope) (ord : MemOrd) (a : MemOpd) (loc : Nat → Nat) (full : Bool) (i :
      Instr), (i = (if full then .lfull h sc ord a else .lempty h sc ord a)) ∧ (i.wellFormed = true) ∧ (s.group? s.cur
      = some g) ∧ (Claims.free s g) ∧ (g.checkHeld [(a.base, 64)] = .ok ()) ∧ (∀ lane ∈ Claims.updaters g h [a.base],
      s.scrPlace (s.accessor g) .write (Claims.addr g a lane) = .ok (loc lane)) := by
  refine ⟨mk (grpA 8064), grpA 8064, hdr, .group, .plain, ⟨.x 2, 0⟩, fun _ => scrLoc 0 8064, false, .lempty hdr .group
    .plain ⟨.x 2, 0⟩, rfl, ?_, cur_of rfl rfl, (by exact ⟨by decide +kernel, by decide +kernel⟩), ?_,
    (by rw [show Claims.updaters _ _ _ = [0] from by decide +kernel]; intro lane hl; obtain rfl := List.mem_singleton.mp hl; decide +kernel)⟩
    <;>
    decide +kernel

theorem witness_LinesAndFences_1 :
    ∃ (s : State) (g : Group) (h : Hdr) (sc : Scope) (ord : MemOrd) (n : BitVec 3) (a : MemOpd) (loc : Nat → Nat),
      ((Instr.ltest h sc ord (.m n) a).wellFormed = true) ∧ (s.group? s.cur = some g) ∧ (Claims.free s g) ∧
      (g.checkHeld [(a.base, 64)] = .ok ()) ∧ (g.active h ≠ 0) ∧ (∀ lane, Claims.accesses g h [a.base] lane →
      s.scrPlace (s.accessor g) .read (Claims.addr g a lane) = .ok (loc lane)) := by
  refine ⟨mk (grpA 127), grpA 127, hdr, .group, .plain, 7, ⟨.x 2, 0⟩, fun _ => scrLoc 0 127, ?_, cur_of rfl rfl,
    (by exact ⟨by decide +kernel, by decide +kernel⟩), ?_, ?_,
    (by intro lane hl; obtain rfl := only_first (by decide +kernel) (by decide +kernel) hl; decide +kernel)⟩ <;>
    decide +kernel

theorem witness_LinesAndFences_2 :
    ∃ (s : State) (g : Group) (h : Hdr) (sc : Sys2Proof.Scope) (ord : MemOrd), ((Instr.fence h sc ord).wellFormed =
      true) ∧ (s.group? s.cur = some g) ∧ (s.held g = false) := by
  refine ⟨mk (grp), grp, hdr, .system, .ar, ?_, cur_of rfl rfl, ?_⟩ <;>
    decide +kernel

theorem witness_LinesAndFences_3 :
    ∃ (s : State) (g : Group) (h : Hdr) (sc : Scope) (ord : MemOrd) (n : BitVec 6) (a : MemOpd) (loc : Nat),
      ((Instr.fenceFlag h sc ord (.x n) a).wellFormed = true) ∧ (s.group? s.cur = some g) ∧ (Claims.free s g) ∧
      ((Claims.addr g a 0).toNat % 8 = 0) ∧ (s.place (s.accessor g) .write (Claims.addr g a 0) = .ok (.mem loc)) := by
  refine ⟨mk (grpA 8), grpA 8, hdr, .system, .rel, 1, ⟨.x 2, 0⟩, scrLoc 0 8, ?_, cur_of rfl rfl,
    (by exact ⟨by decide +kernel, by decide +kernel⟩), ?_, ?_⟩ <;>
    decide +kernel

theorem witness_LinesAndFences_4 :
    ∃ (s : State) (g : Group) (h : Hdr) (a : MemOpd) (i : Instr), (i = .pref h a ∨ i = .prefTlb h a) ∧ (i.wellFormed =
      true) ∧ (s.group? s.cur = some g) ∧ (g.checkHeld [(a.base, 64)] = .ok ()) := by
  refine ⟨mk (grpA 8), grpA 8, hdr, ⟨.x 2, 0⟩, .prefTlb hdr ⟨.x 2, 0⟩, (by exact .inr rfl), ?_, cur_of rfl rfl, ?_⟩
    <;>
    decide +kernel

theorem witness_BarrierObjects_0 :
    ∃ (s : State) (g : Group) (h : Hdr) (sc : Sys2Proof.Scope) (ord : MemOrd) (n k : BitVec 6) (a : MemOpd) (loc :
      Nat), (s.group? s.cur = some g) ∧ (s.held g = false) ∧ (Memory.wf s.mem = true) ∧ (s.barPlace g (Claims.addr g
      a 0) = Except.ok loc) ∧ ((Instr.barinit h (Opd.x n) a).wellFormed = true) := by
  refine ⟨mk (grpA 8176), grpA 8176, hdr, .group, .plain, 1, 3, ⟨.x 2, 0⟩, scrLoc 0 8176, cur_of rfl rfl, ?_, ?_, ?_,
    ?_⟩ <;>
    decide +kernel

theorem witness_BarrierObjects_1 :
    ∃ (s : State) (g : Group) (h : Hdr) (sc : Sys2Proof.Scope) (ord : MemOrd) (n k : BitVec 6) (a : MemOpd) (loc :
      Nat), (s.group? s.cur = some g) ∧ (s.held g = false) ∧ (Memory.wf s.mem = true) ∧ (s.barPlace g (Claims.addr g
      a 0) = Except.ok loc) ∧ ((Instr.arrive h sc ord (Opd.x n) a (Opd.x k)).wellFormed = true) := by
  refine ⟨mk (grpA 8176), grpA 8176, hdr, .group, .plain, 1, 3, ⟨.x 2, 0⟩, scrLoc 0 8176, cur_of rfl rfl, ?_, ?_, ?_,
    ?_⟩ <;>
    decide +kernel

theorem witness_BarrierObjects_2 :
    ∃ (s : State) (g : Group) (h : Hdr) (sc : Sys2Proof.Scope) (ord : MemOrd) (n k : BitVec 6) (a : MemOpd) (loc :
      Nat), (s.group? s.cur = some g) ∧ (s.held g = false) ∧ (Memory.wf s.mem = true) ∧ (s.barPlace g (Claims.addr g
      a 0) = Except.ok loc) ∧ ((Instr.waitb h sc ord (Opd.x n) a).wellFormed = true) ∧ (g.wait = none) ∧ ((s.barrier
      loc).phase ≠ BitVec.toNat (g.xVal n) % 2 ^ 32) := by
  refine ⟨mk (withX [(2, 0x00C0_0000_2000_0000), (1, 1)]), withX [(2, 0x00C0_0000_2000_0000), (1, 1)], hdr, .group,
    .plain, 1, 3, ⟨.x 2, 0⟩, scrLoc 0 0, cur_of rfl rfl, ?_, ?_, ?_, ?_, ?_⟩ <;>
    decide +kernel

theorem witness_BarrierObjects_3 :
    ∃ (s : State) (g : Group) (h : Hdr) (sc : Sys2Proof.Scope) (ord : MemOrd) (n k : BitVec 6) (a : MemOpd) (loc :
      Nat), (s.group? s.cur = some g) ∧ (s.held g = false) ∧ (Memory.wf s.mem = true) ∧ (s.barPlace g (Claims.addr g
      a 0) = Except.ok loc) ∧ ((Instr.waitb h sc ord (Opd.x n) a).wellFormed = true) ∧ (g.wait = none) ∧ ((s.barrier
      loc).phase = BitVec.toNat (g.xVal n) % 2 ^ 32) := by
  refine ⟨mk (withX [(2, 0x00C0_0000_2000_0000), (1, 0)]), withX [(2, 0x00C0_0000_2000_0000), (1, 0)], hdr, .group,
    .plain, 1, 3, ⟨.x 2, 0⟩, scrLoc 0 0, cur_of rfl rfl, ?_, ?_, ?_, ?_, ?_⟩ <;>
    decide +kernel

/-- A group whose `X2` names the barrier object at the start of its allocation. -/
def grpB : Group := withX [(2, 0x00C0_0000_2000_0000)]

theorem witness_BarrierObjects_n4 :
    ∃ (s : State) (g : Group) (h : Hdr) (sc : Sys2Proof.Scope) (ord : MemOrd) (n k : BitVec 6) (a : MemOpd) (loc at_
      m : Nat), (s.group? s.cur = some g) ∧ (s.held g = false) ∧ (Memory.wf s.mem = true) ∧ (s.barPlace g
      (Claims.addr g a 0) = Except.ok loc) ∧ ((Instr.waitb h sc ord (Opd.x n) a).wellFormed = true) ∧ (g.wait = some
      (Wait.phase at_ m)) ∧ (tally at_ s.phases ≠ m) := by
  refine ⟨mk { grpB with wait := some (.phase 5 1) }, { grpB with wait := some (.phase 5 1) }, hdr, .group, .plain, 1, 3,
    ⟨.x 2, 0⟩, scrLoc 0 0, 5, 1, cur_of rfl rfl, ?_, ?_, ?_, ?_, rfl, ?_⟩ <;>
    decide +kernel

theorem witness_BarrierObjects_n5 :
    ∃ (s : State) (g : Group) (h : Hdr) (sc : Sys2Proof.Scope) (ord : MemOrd) (n k : BitVec 6) (a : MemOpd) (loc at_
      m : Nat), (s.group? s.cur = some g) ∧ (s.held g = false) ∧ (Memory.wf s.mem = true) ∧ (s.barPlace g
      (Claims.addr g a 0) = Except.ok loc) ∧ ((Instr.waitb h sc ord (Opd.x n) a).wellFormed = true) ∧ (g.wait = some
      (Wait.phase at_ m)) ∧ (tally at_ s.phases = m) := by
  refine ⟨mk { grpB with wait := some (.phase 5 0) }, { grpB with wait := some (.phase 5 0) }, hdr, .group, .plain, 1, 3,
    ⟨.x 2, 0⟩, scrLoc 0 0, 5, 0, cur_of rfl rfl, ?_, ?_, ?_, ?_, rfl, ?_⟩ <;>
    decide +kernel

/-- A command ring of 16 entries at the start of the allocation, records at 4096. -/
def ringState (rsvd : Nat) (g : Group) : State :=
  ((mk g).writeNat (scrLoc 0 12) 4 (4 + 4096 / 32 * 2 ^ 17)).writeNat (scrLoc 0 0) 4 rsvd

/-- The ring as it is read. -/
def ringOf (rsvd : Nat) : Ring :=
  { off := 0, rsvd := rsvd, notw := 0, size := 16, recs := 4096 }

theorem witness_CommandRings_0 :
    ∃ (s : State) (g : Group) (h : Hdr) (d b : Opd) (n : BitVec 6) (a : MemOpd) (lane c : Nat) (r : Ring), (d = .v n)
      ∧ ((Instr.cmdw h d a b).wellFormed = true) ∧ (s.group? s.cur = some g) ∧ (Claims.free s g) ∧ (g.checkHeld [(d,
      256), (a.base, 64), (b, 32)] = .ok ()) ∧ (g.prog = 0) ∧ (g.core = some c) ∧ (Claims.updaters g h [d, a.base, b]
      = [lane]) ∧ (s.ring g (Claims.addr g a lane) = .ok r) ∧ (r.unpub < r.size) := by
  refine ⟨ringState 15 (grpW 0), grpW 0, hdr, .v 8, .v 16, 8, ⟨.x 2, 0⟩, 0, 0, ringOf 15, rfl, ?_, cur_of rfl rfl,
    (by exact ⟨by decide +kernel, by decide +kernel⟩), ?_, ?_, ?_, ?_, ?_, ?_⟩ <;>
    decide +kernel

theorem witness_CommandRings_1 :
    ∃ (s : State) (g : Group) (h : Hdr) (d b : Opd) (n : BitVec 6) (a : MemOpd) (lane c : Nat) (r : Ring), (d = .v n)
      ∧ ((Instr.cmdw h d a b).wellFormed = true) ∧ (s.group? s.cur = some g) ∧ (Claims.free s g) ∧ (g.checkHeld [(d,
      256), (a.base, 64), (b, 32)] = .ok ()) ∧ (g.prog = 0) ∧ (g.core = some c) ∧ (Claims.updaters g h [d, a.base, b]
      = [lane]) ∧ (s.ring g (Claims.addr g a lane) = .ok r) ∧ (r.unpub = r.size) := by
  refine ⟨ringState 16 (grpW 0), grpW 0, hdr, .v 8, .v 16, 8, ⟨.x 2, 0⟩, 0, 0, ringOf 16, rfl, ?_, cur_of rfl rfl,
    (by exact ⟨by decide +kernel, by decide +kernel⟩), ?_, ?_, ?_, ?_, ?_, ?_⟩ <;>
    decide +kernel

theorem witness_CommandRings_2 :
    ∃ (s : State) (g : Group) (h : Hdr) (sc : Sys2Proof.Scope) (n : BitVec 6) (a : MemOpd) (r : Machine.Ring),
      ((Instr.notify h sc (Opd.x n) a).wellFormed = true) ∧ (s.group? s.cur = some g) ∧ (s.held g = false) ∧ (s.ring
      g (Claims.addr g a 0) = Except.ok r) ∧ (BitVec.toNat (g.xVal n) % 2 ^ 32 = r.notw) := by
  refine ⟨ringState 16 (withX [(2, 0x00C0_0000_2000_0000), (1, 2 ^ 32)]), withX [(2, 0x00C0_0000_2000_0000), (1, 2 ^
    32)], hdr, .group, 1, ⟨.x 2, 0⟩, ringOf 16, ?_, cur_of rfl rfl, ?_, ?_, ?_⟩ <;>
    decide +kernel

/-- A copy command of no bytes, as its ring gives it. -/
def cmd0 : Cmd :=
  { id := 0, core := 0, team := 2, launch := 1, cohort := 0, part := 0, issuer := 3, gid16 := grp.gid16, entry := 0, index := 0,
    header := localAddr 0, recOff := 4096, idx := [], trec := none, tile := none, pages := [], tstamp := 0, seqno := 0,
    spord := 0, batch := none, started := false, landed := [], poison := false, decodeFail := false,
    dts := none, dtsBad := [], past := false }

theorem witness_CommandRings_3 :
    ∃ (s : State) (g : Group) (h : Hdr) (sc : Sys2Proof.Scope) (n : BitVec 6) (a : MemOpd) (r : Machine.Ring) (t :
      Team) (cmd : Cmd) (c : Nat), ((Instr.notify h sc (Opd.x n) a).wellFormed = true) ∧ (s.group? s.cur = some g) ∧
      (s.held g = false) ∧ (s.ring g (Claims.addr g a 0) = Except.ok r) ∧ (BitVec.toNat (g.xVal n) % 2 ^ 32 = (r.notw
      + 1) % 2 ^ 32) ∧ (1 ≤ r.unpub) ∧ (s.team? g.team = some t) ∧ (s.checkEntry g t r (r.notw % 2 ^ 32) = Except.ok
      cmd) ∧ (g.core = some c) ∧ (eEmp cmd.entry = false) ∧ (h.st = false) := by
  refine ⟨ringState 1 (withX [(2, 0x00C0_0000_2000_0000), (1, 1)]), withX [(2, 0x00C0_0000_2000_0000), (1, 1)], hdr,
    .group, 1, ⟨.x 2, 0⟩, ringOf 1, tm, cmd0, 0, ?_, cur_of rfl rfl, ?_, ?_, ?_, ?_, ?_, ?_, ?_, ?_, ?_⟩ <;>
    decide +kernel

theorem witness_CommandRings_6 :
    ∃ (s : State) (g : Group) (h : Hdr) (n : BitVec 6), ((Instr.bwait h (Opd.x n)).wellFormed = true) ∧ (s.group?
      s.cur = some g) ∧ (∃ c ∈ s.cmds, c.issuer = g.id ∧ c.past = false ∧ ∃ b, c.batch = some b ∧ Claims.batchCovers
      g.batch (BitVec.setWidth 32 (g.xVal n)) b) := by
  refine ⟨{ s0 with cmds := [{ cmd0 with batch := some 0 }] }, grp, hdr, 1, ?_, cur_of rfl rfl,
    (by exact ⟨{ cmd0 with batch := some 0 }, by decide +kernel, by decide +kernel, by decide +kernel, 0, rfl,
      ⟨(grp.batch - 0).toNat, Nat.le_refl _, by decide +kernel⟩⟩)⟩ <;>
    decide +kernel

theorem witness_CommandRings_4 :
    ∃ (s : State) (g : Group) (h : Hdr) (n : BitVec 6), ((Instr.bclose h (.x n)).wellFormed = true) ∧ (s.group? s.cur
      = some g) := by
  refine ⟨mk (grp), grp, hdr, 1, ?_, cur_of rfl rfl⟩ <;>
    decide +kernel

theorem witness_CommandRings_5 :
    ∃ (s : State) (g : Group) (h : Hdr) (n : BitVec 6), ((Instr.bwait h (Opd.x n)).wellFormed = true) ∧ (s.group?
      s.cur = some g) ∧ (∀ c ∈ s.cmds, c.issuer = g.id → c.past = false → ∀ (b : Word32), c.batch = some b →
      ¬Claims.batchCovers g.batch (BitVec.setWidth 32 (g.xVal n)) b) := by
  refine ⟨mk grp, grp, hdr, 1, ?_, cur_of rfl rfl, (by intro c hc; exact nomatch hc)⟩ <;>
    decide +kernel

/-- The record that the width calls of these witnesses read. -/
def recW (wrule wlog : Nat) : EntryRec := recordOf (recLine wrule wlog 0)

/-- A group with mask registers. -/
def withM (l : List (Nat × Mask)) : Group :=
  { grp with m := l.foldl (fun m p => vset m p.1 p.2) grp.m }

theorem witness_WidthCalls_0 :
    ∃ (s : State) (g : Group) (h : Hdr) (i : Instr) (gather team : Bool) (t : Target) (sel : Option (BitVec 3)) (n :
      BitVec 6) (rc : EntryRec) (set : Mask) (k c : Nat), (i = (if gather then .gcall h team t sel (.v n) else .wcall
      h team t sel (.v n))) ∧ (i.wellFormed = true) ∧ (s.group? s.cur = some g) ∧ (Claims.calls s g h gather t sel n
      rc set) ∧ (set = 0) := by
  refine ⟨mkCode (recLine 1 4 0) (grp), grp, hdr, .wcall hdr false (.direct 0x40 0) (some 1) (.v 14), false, false,
    .direct 0x40 0, (some 1), 14, recW 1 4, 0, 0, 0, rfl, ?_, cur_of rfl rfl,
    (by refine ⟨?_, ?_, ?_, ?_, ?_, sound_call _ _ _ (by decide +kernel) (by decide +kernel) (by decide +kernel) (by decide +kernel) (by decide +kernel) (by decide +kernel)⟩ <;> decide +kernel), rfl⟩ <;>
    decide +kernel

theorem witness_WidthCalls_1 :
    ∃ (s : State) (g : Group) (h : Hdr) (i : Instr) (gather team : Bool) (t : Target) (sel : Option (BitVec 3)) (n :
      BitVec 6) (rc : EntryRec) (set : Mask) (k c : Nat), ∃ tm, (i = (if gather then .gcall h team t sel (.v n) else
      .wcall h team t sel (.v n))) ∧ (i.wellFormed = true) ∧ (s.group? s.cur = some g) ∧ (Claims.calls s g h gather t
      sel n rc set) ∧ (set ≠ 0) ∧ (k = Claims.calleeLanes gather (2 ^ rc.wlog) (count set)) ∧ (k ≤ 64) ∧ (g.core =
      some c) ∧ (c < 272) ∧ (g.kind = .launched) ∧ (team = false) ∧ (s.team? g.team = some tm) ∧ (rc.frame = 0) ∧
      (s.grantable c tm rc 1 = 1) ∧ (∀ q ∈ s.groups, q.id < s.nextId) := by
  refine ⟨mkCode (recLine 1 1 0) (withM [(1, 0xFFFFFFFF)]), withM [(1, 0xFFFFFFFF)], hdr, .wcall hdr false (.direct
    0x40 0) (some 1) (.v 14), false, false, .direct 0x40 0, (some 1), 14, recW 1 1, 0xFFFFFFFF, 64, 0, tm, rfl, ?_,
    cur_of rfl rfl, (by refine ⟨?_, ?_, ?_, ?_, ?_, sound_call _ _ _ (by decide +kernel) (by decide +kernel) (by decide +kernel) (by decide +kernel) (by decide +kernel) (by decide +kernel)⟩ <;> decide +kernel), ?_,
    (by decide +kernel), ?_, ?_, ?_, ?_, rfl, ?_, ?_, ?_, ?_⟩ <;>
    decide +kernel

theorem witness_WidthCalls_1g :
    ∃ (s : State) (g : Group) (h : Hdr) (i : Instr) (gather team : Bool) (t : Target) (sel : Option (BitVec 3)) (n :
      BitVec 6) (rc : EntryRec) (set : Mask) (k c : Nat), ∃ tm, (i = (if gather then .gcall h team t sel (.v n) else
      .wcall h team t sel (.v n))) ∧ (i.wellFormed = true) ∧ (s.group? s.cur = some g) ∧ (Claims.calls s g h gather t
      sel n rc set) ∧ (set ≠ 0) ∧ (k = Claims.calleeLanes gather (2 ^ rc.wlog) (count set)) ∧ (k ≤ 64) ∧ (g.core =
      some c) ∧ (c < 272) ∧ (g.kind = .launched) ∧ (team = false) ∧ (s.team? g.team = some tm) ∧ (rc.frame = 0) ∧
      (s.grantable c tm rc 1 = 1) ∧ (∀ q ∈ s.groups, q.id < s.nextId) := by
  refine ⟨mkCode (recLine 2 3 0) (grp), grp, hdr, .gcall hdr false (.direct 0x40 0) none (.v 14), true, false, .direct
    0x40 0, none, 14, recW 2 3, -1, 8, 0, tm, rfl, ?_, cur_of rfl rfl,
    (by refine ⟨?_, ?_, ?_, ?_, ?_, sound_call _ _ _ (by decide +kernel) (by decide +kernel) (by decide +kernel) (by decide +kernel) (by decide +kernel) (by decide +kernel)⟩ <;> decide +kernel), ?_, (by decide +kernel),
    ?_, ?_, ?_, ?_, rfl, ?_, ?_, ?_, ?_⟩ <;>
    decide +kernel

theorem witness_WidthCalls_2 :
    ∃ (s : State) (g : Group) (h : Hdr) (i : Instr) (gather team : Bool) (t : Target) (sel : Option (BitVec 3)) (n :
      BitVec 6) (rc : EntryRec) (set : Mask) (k c : Nat), (i = (if gather then .gcall h team t sel (.v n) else .wcall
      h team t sel (.v n))) ∧ (i.wellFormed = true) ∧ (s.group? s.cur = some g) ∧ (Claims.calls s g h gather t sel n
      rc set) ∧ (set ≠ 0) ∧ (k = Claims.calleeLanes gather (2 ^ rc.wlog) (count set)) ∧ (k ≤ 64) ∧ (g.core = some c) ∧
      (c < 272) ∧ (g.kind = .launched) ∧ (team = true) ∧ ((s.core c).bins = []) ∧ (k < 64) := by
  refine ⟨mkCode (recLine 1 4 0) (withM [(1, single 63)]), withM [(1, single 63)], hdr, .wcall hdr true (.direct 0x40
    0) (some 1) (.v 14), false, true, .direct 0x40 0, (some 1), 14, recW 1 4, single 63, 16, 0, rfl, ?_, cur_of rfl
    rfl, (by refine ⟨?_, ?_, ?_, ?_, ?_, sound_call _ _ _ (by decide +kernel) (by decide +kernel) (by decide +kernel) (by decide +kernel) (by decide +kernel) (by decide +kernel)⟩ <;> decide +kernel), ?_,
    (by decide +kernel), ?_, ?_, ?_, ?_, rfl, ?_, ?_⟩ <;>
    decide +kernel

theorem bit_single (i : Nat) : (single 63).getLsbD i = true ↔ (63#6).toNat = i := by
  simp only [single, BitVec.getLsbD_shiftLeft]
  by_cases h : i < 64
  · interval_cases i <;> decide
  · simp; omega

theorem vget_replicate {α : Type} {n : Nat} (a : α) (i : Nat) : vget (Vector.replicate n a) i a = a := by
  simp only [vget, Vector.toList_replicate, List.getD_eq_getElem?_getD, List.getElem?_replicate]
  split <;> rfl

theorem arms_off {s : State} (h : s.parts = Vector.replicate 8 Partition.reset) (p : Nat) : (s.part p).arm = false := by
  show (vget s.parts p Partition.reset).arm = false
  rw [h, vget_replicate]
  rfl

/-- The callee group of one item of a widening call, and its parked caller. -/
def calleeLane : CallLane := { w := 0, members := [{ caller := 4, lane := 63, depth := 1, args := [] }], closed := false }

def packW : Pack := { q := 0, lanes := [calleeLane] }

def callW : CallTarget := { entry := 0x5000, rc := recW 1 1, gather := false }

def calleeG : Group := { grp with kind := .callee callW packW [] none, depth := 1, exec := 1 }

def callingW : Calling :=
  { tgt := callW, creg := 14, set := single 63, left := single 63, res := noResults 0, flags := 0, x := [], passes := 1 }

def callerG : Group := { grp with id := 4, slot := 1, wait := some .widthpark, calling := some callingW }

def sCallee : State := { s0 with groups := [calleeG, callerG], nextId := 5 }

theorem witness_WidthReturns_0 :
    ∃ (s : State) (g g0 : Group) (h : Hdr) (sel : Option (BitVec 3)) (n : BitVec 6) (tgt : CallTarget) (p : Pack) (c
      : Calling) (con : Mask), ((Instr.wret h sel (Opd.v n)).wellFormed = true) ∧ (s.group? s.cur = some g) ∧ (g.mode
      = Mode.user) ∧ (g.pend = []) ∧ (g.kind = Kind.callee tgt p [] none) ∧ (g.folds = []) ∧ (tgt.gather = false) ∧
      (tgt.rc.gret = false) ∧ (tgt.rc.nres ≤ 4) ∧ (n.toNat + 2 * tgt.rc.nres ≤ tgt.rc.vregs) ∧ (tgt.rc.nres ≠ 0 →
      g.holdsRange n.toNat (2 * tgt.rc.nres) = true) ∧ (s.group? g0.id = some g0) ∧ (g0.id ≠ g.id) ∧ (g0.wait = some
      Wait.widthpark) ∧ (g0.calling = some c) ∧ (g0.folds = []) ∧ (g0.depth + 1 = g.depth) ∧ (c.tgt = tgt) ∧ (c.res =
      noResults tgt.rc.nres) ∧ (∀ l ∈ p.lanes, ∃ m, l.members = [m] ∧ m.caller = g0.id ∧ m.depth = g.depth) ∧ (p.lanes.length ≤ 64) ∧ (∀
      (L : ℕ), BitVec.getLsbD c.left L = true ↔ ∃ l ∈ p.lanes, ∃ m ∈ l.members, m.lane.toNat = L) ∧ (∀ (q : ℕ),
      (s.part q).halted = false) ∧ (con = g.contributors h &&&
      (match sel with | some m => g.mVal m | none => BitVec.allOnes 64)) := by
  refine ⟨sCallee, calleeG, callerG, hdr, none, 16, callW, packW, callingW, 1, ?_, cur_of rfl rfl, ?_, ?_, ?_, ?_, ?_,
    ?_, ?_, ?_, ?_, (by simp [State.group?, sCallee, calleeG, callerG, s0, mk, grp, Group.launched, Group.blank]), ?_, ?_,
    ?_, ?_, ?_, ?_, ?_, (by intro l hl; obtain rfl := List.mem_singleton.mp hl; exact ⟨_, rfl, rfl, rfl⟩), ?_,
    (by intro L; simp only [packW, List.mem_singleton, exists_eq_left, calleeLane, callingW]; exact bit_single L),
    (by intro q; show (vget (Vector.replicate 8 Partition.reset) q Partition.reset).halted = false; rw [vget_replicate]; rfl),
    rfl⟩ <;>
    decide +kernel

theorem witness_WidthReturns_1 :
    ∃ (s : State) (g : Group) (h : Hdr) (sel : Option (BitVec 3)) (n : BitVec 6), ((Instr.wret h sel (.v
      n)).wellFormed = true) ∧ (s.group? s.cur = some g) ∧ (g.mode = .user) ∧ (g.folds = []) ∧ (g.kind = .launched ∨ ∃
      l, g.kind = .spawned l) := by
  refine ⟨mk (grp), grp, hdr, (some 7), 254, ?_, cur_of rfl rfl, ?_, ?_, (by exact .inl rfl)⟩ <;>
    decide +kernel

/-- The target of a call with four results. -/
def callR : CallTarget := { entry := 0x5000, rc := recordOf (recLine 1 1 4), gather := false }

theorem witness_WidthReturns_n2 :
    ∃ (s : State) (g : Group) (h : Hdr) (sel : Option (BitVec 3)) (n : BitVec 6) (tgt : CallTarget) (p : Pack) (rest
      : List Pack) (fr : Option Nat), ((Instr.wret h sel (Opd.v n)).wellFormed = true) ∧ (s.group? s.cur = some g) ∧
      (g.mode = Mode.user) ∧ (g.folds = []) ∧ (g.kind = Kind.callee tgt p rest fr) ∧ (tgt.rc.gret = false) ∧
      (tgt.rc.nres ≠ 0) ∧ (tgt.rc.vregs < n.toNat + 2 * tgt.rc.nres ∨ g.holdsRange n.toNat (2 * tgt.rc.nres) = false) := by
  refine ⟨mk { calleeG with kind := .callee callR packW [] none }, { calleeG with kind := .callee callR packW [] none }, hdr, none,
    60, callR, packW, [], none, ?_, cur_of rfl rfl, ?_, ?_, rfl, ?_, ?_, (by exact .inl (by decide +kernel))⟩ <;>
    decide +kernel

theorem witness_WidthReturns_n3 :
    ∃ (r : BitVec 8) (acc v : Code) (op ty : Nat) (float : Bool), (op = r.toNat % 16) ∧ (ty = r.toNat / 16 % 8) ∧ (float =
      decide (ty = 2 ∨ ty = 5)) ∧ (op ≤ 8) := by
  exact ⟨0x28, 0x3F800000, 0, _, _, _, rfl, rfl, rfl, by decide⟩

/-- A gang word of the groups 0 and 1, with tiles for each (R329). -/
def gangW (per : Nat) : Word64 := BitVec.ofNat 64 (0x10 + 2 * 2 ^ 29 + per * 2 ^ 32)

/-- A member of the team, of an ordinal. -/
def member (i : Nat) : Group :=
  { grp with id := 3 + i, index := BitVec.ofNat 32 i, slot := i, x := vset grp.x 1 (gangW 8) }

/-- A machine of two groups of a team, the first about to issue. -/
def mk2 (a b : Group) : State :=
  { mk a with groups := [a, b], launches := [{ lau with vals := { lau.vals with tgrp := 2 } }], nextId := 20 }

/-- A member that waits in `GANG`. -/
def waiting (i : Nat) (w : Word64) : Group := { member i with wait := some (.gang w true) }

theorem witness_Gangs_0 :
    ∃ (s : State) (g : Group) (h : Hdr) (a : Opd) (w : Word64) (s1 : State) (t : Team), ((Instr.gang h a).wellFormed
      = true) ∧ (s.group? s.cur = some g) ∧ (g.mode = Mode.user) ∧ (g.wait = none) ∧ (s.held g = false) ∧ (g.mayGang
      = true) ∧ (w = g.uni64 a) ∧ (gangCnt w ≠ 0) ∧ (s.team? g.team = some t) ∧ (Claims.gangWord g (s.valsOf t).tgrp
      w) ∧ (∀ q ∈ s.listed g.team w, ∀ (v : Word64) (b : Bool), q.wait = some (Wait.gang v b) → v = w) ∧ (s1 = if
      s.listed g.team w = [] ∨ (s.listed g.team w).length ≠ gangCnt w ∨ ∃ q ∈ s.listed g.team w, q.id ≠ g.id ∧ ∀ (b :
      Bool), q.wait ≠ some (Wait.gang w b) then s else s.modCore (g.core.getD 0) fun c => { c with
        tileReqs := c.tileReqs ++ [⟨g.id, gangCnt w * gangPer w, c.fired⟩] }) := by
  refine ⟨mk2 (member 0) (waiting 1 (gangW 8)), member 0, hdr, .x 1, gangW 8, (mk2 (member 0) (waiting 1 (gangW
    8))).modCore 0 (fun c => { c with tileReqs := c.tileReqs ++ [⟨3, 16, c.fired⟩] }), tm, ?_, cur_of rfl rfl, ?_, ?_,
    ?_, ?_, (by decide +kernel), ?_, ?_, (by refine ⟨?_, ?_, ?_, ?_, ?_, ?_, ?_, ?_, ?_, ?_, ?_⟩ <;> decide +kernel),
    (by rw [show (mk2 (member 0) (waiting 1 (gangW 8))).listed (member 0).team (gangW 8) = [member 0, waiting 1 (gangW 8)] from by decide +kernel]; intro q hq v b hw; simp only [List.mem_cons, List.not_mem_nil, or_false] at hq; rcases hq with rfl | rfl; exact (nomatch hw); exact ((Wait.gang.inj (Option.some.inj hw)).1).symm),
    (by rw [show (mk2 (member 0) (waiting 1 (gangW 8))).listed (member 0).team (gangW 8) = [member 0, waiting 1 (gangW 8)] from by decide +kernel, if_neg]; rfl; rintro (h | h | ⟨q, hq, h1, h2⟩); exact (nomatch h); exact absurd h (by decide +kernel); simp only [List.mem_cons, List.not_mem_nil, or_false] at hq; rcases hq with rfl | rfl; exact h1 rfl; exact h2 true rfl)⟩
    <;>
    decide +kernel

theorem witness_Gangs_1 :
    ∃ (s : State) (g : Group) (h : Hdr) (a : Opd) (w : Word64) (s1 : State), ((Instr.gang h a).wellFormed = true) ∧
      (s.group? s.cur = some g) ∧ (g.mode = Mode.user) ∧ (g.wait = none) ∧ (s.held g = false) ∧ (g.mayGang = true) ∧
      (w = g.uni64 a) ∧ (gangCnt w ≠ 0) ∧ (∃ q ∈ s.listed g.team w, ∃ v b, q.wait = some (Wait.gang v b) ∧ v ≠ w) := by
  refine ⟨mk2 (member 0) (waiting 1 (gangW 4)), member 0, hdr, .x 1, gangW 8, s0, ?_, cur_of rfl rfl, ?_, ?_, ?_, ?_,
    (by decide +kernel), ?_,
    (by exact ⟨waiting 1 (gangW 4), by decide +kernel, gangW 4, true, rfl, by decide +kernel⟩)⟩ <;>
    decide +kernel

/-- The same machine with the request for the gang's tiles. -/
def sAsk : State :=
  (mk2 (waiting 0 (gangW 8)) (waiting 1 (gangW 8))).modCore 0 (fun c => { c with tileReqs := [⟨3, 192, 0⟩] })

theorem witness_Gangs_2 :
    ∃ (s : State) (g q : Group) (c : Nat) (r : PoolReq) (rest : List PoolReq) (w : Word64) (b : Bool), (s.group? g.id
      = some g) ∧ (g.core = some c) ∧ (c < 272) ∧ ((s.core c).tileReqs = r :: rest) ∧ (s.group? r.gid = some q) ∧
      (q.wait = some (.gang w b)) ∧ (s.haltReached q = false) ∧ (s.tilesUsed c + r.blocks ≤ 192) ∧ ((s.groups.map (fun
      (q : Group) => q.id)).Nodup) ∧ ((gangList w).Nodup) ∧ (∀ m ∈ s.listed q.team w, m.pend = [] ∧ ∃ sw, m.wait =
      some (.gang w sw)) := by
  refine ⟨sAsk, waiting 0 (gangW 8), waiting 0 (gangW 8), 0, ⟨3, 192, 0⟩, [], gangW 8, true, of_id rfl, ?_, ?_, ?_,
    (by exact of_id (g := waiting 0 (gangW 8)) rfl), ?_, ?_, ?_, ?_, ?_,
    (by rw [show sAsk.listed (waiting 0 (gangW 8)).team (gangW 8) = [waiting 0 (gangW 8), waiting 1 (gangW 8)] from by decide +kernel]; intro m hm; simp only [List.mem_cons, List.not_mem_nil, or_false] at hm; rcases hm with rfl | rfl; exact ⟨rfl, true, rfl⟩; exact ⟨rfl, true, rfl⟩)⟩
    <;>
    decide +kernel

/-- A gang of the two groups, with two tiles each. -/
def pair : Gang :=
  { id := 9, team := 2, members := [3, 4], per := 2, tiles := List.replicate 2 (List.replicate 2 Tile.zero), latches := [],
    dissolving := [], subs := [0, 1] }

/-- A member of it. -/
def ganged (i : Nat) : Group := { member i with gang := some 9, x := vset (vset grp.x 1 0) 2 0x00C0_0000_2000_0000 }

/-- The machine with the gang. -/
def sGang (k : Gang) : State := { mk2 (ganged 0) (ganged 1) with gangs := [k] }

theorem witness_Gangs_3 :
    ∃ (s : State) (g : Group) (h : Hdr) (a : Opd) (k : Nat), ((Instr.gang h a).wellFormed = true) ∧ (s.group? s.cur =
      some g) ∧ (g.mode = Mode.user) ∧ (g.wait = none) ∧ (s.held g = false) ∧ (g.mayGang = true) ∧ (g.uni64 a = 0) ∧
      (g.gang = some k) := by
  refine ⟨sGang pair, ganged 0, hdr, .x 1, 9, ?_, cur_of rfl rfl, ?_, ?_, ?_, ?_, ?_⟩ <;>
    decide +kernel

theorem witness_Gangs_4 :
    ∃ (s : State) (k : Gang), (s.gang? k.id = some k) ∧ (k.latches = []) ∧ (∀ m ∈ k.members, m ∈ k.dissolving) ∧
      (k.members.Nodup) ∧ (∀ m ∈ k.members, ∃ g, s.group? m = some g ∧ s.haltReached g = false ∧ g.pend = [] ∧ ∃ sw,
      g.wait = some (.dissolve sw false)) := by
  refine
    ⟨{ mk2 { ganged 0 with wait := some (.dissolve true false) } { ganged 1 with wait := some (.dissolve true false) } with gangs := [{ pair with dissolving := [4, 3] }] },
    { pair with dissolving := [4, 3] }, rfl, rfl, ?_, ?_,
    (by intro m hm; simp only [pair, List.mem_cons, List.not_mem_nil, or_false] at hm; rcases hm with rfl | rfl; exact ⟨_, of_id (g := { ganged 0 with wait := some (.dissolve true false) }) rfl, by decide +kernel, rfl, true, rfl⟩; exact ⟨{ ganged 1 with wait := some (.dissolve true false) }, by decide +kernel, by decide +kernel, rfl, true, rfl⟩)⟩
    <;>
    decide +kernel

theorem witness_Gangs_n2 :
    ∃ (s : State) (g : Group) (h : Hdr) (a : Opd) (w : Word64) (s1 : State) (t : Team), ((Instr.gang h a).wellFormed
      = true) ∧ (s.group? s.cur = some g) ∧ (g.mode = Mode.user) ∧ (g.wait = none) ∧ (s.held g = false) ∧ (g.mayGang
      = true) ∧ (w = g.uni64 a) ∧ (gangCnt w ≠ 0) ∧ (s.team? g.team = some t) ∧ (¬Claims.gangWord g (s.valsOf t).tgrp
      w) := by
  refine ⟨mk2 { member 0 with x := vset grp.x 1 (gangW 0) } (waiting 1 (gangW 8)), { member 0 with x := vset grp.x 1 (gangW 0) }, hdr, .x 1, gangW 0, s0, tm, ?_, ?_, ?_, ?_, ?_,
    (by decide +kernel), ?_, ?_, ?_, (by rintro ⟨_, _, _, _, _, _, _, _, _, h, _⟩; exact absurd h (by decide +kernel))⟩ <;>
    decide +kernel

/-- The member about to issue `MMA` on its tile 1. -/
def gangedM : Group := { ganged 0 with x := vset (ganged 0).x 1 1 }

/-- `MMA.MI8` as member 0 gives it: its words, its eight registers of B. -/
def ref0 : MmaRef := { ty := .mi8, k := 64, za := true, ids := none, k0 := 0, posB := 0, scaleA := 0, scaleB := 0 }

def part0 : MmaPart :=
  { member := 0, tile := 1, base := 0x00C0_0000_2000_0000, posA := 0,
    b := (List.range 8).map (fun r => vreg (fun i => gangedM.vLane (vNum (.v 4) + BitVec.ofNat 6 r) i)) }

def part1 : MmaPart := { part0 with member := 1 }

/-- A latch of some parts. -/
def latch (r : MmaRef) (ps : List MmaPart) : Latch :=
  { id := 7, ref := r, parts := ps, released := false, recA := none, recB := none, skipA := [], skipB := [],
    started := false, rowsA := [], abandoned := false }

def sMma (k : Gang) : State := { mk2 gangedM (ganged 1) with gangs := [k] }

theorem rows_ok : (mk2 gangedM (ganged 1)).rowsOk gangedM part0.base 512 = .ok () := by decide +kernel

theorem mma_ok (ls : List Latch)
    (h : (ls.filter (fun l => l.parts.any (fun p => p.member == part0.member))).length ≤ 1) :
    Claims.mmaOf (sMma { pair with latches := ls }) gangedM .mi8 4 true (.x 1) (.x 2) (.v 4) none
      { pair with latches := ls } tm ref0 part0 := by
  refine ⟨⟨rfl, rfl⟩, rfl, rfl, rfl, rfl, rfl, ?_, ?_, ?_, ?_, ?_, ?_, rows_ok, fun i h => (nomatch h), ?_, h, ?_⟩
  · decide +kernel
  · decide +kernel
  · decide +kernel
  · show part0.b = (List.range (bRegs .mi8 2 0)).map _
    rw [show bRegs .mi8 2 0 = 8 from by decide +kernel]
    rfl
  · show tileOk 2 .mi8 1 = true
    decide +kernel
  · show gangedM.holdsRange 4 (bRegs .mi8 2 0) = true
    decide +kernel
  · rfl
  · intro q hq _
    exact List.mem_singleton.mp hq

theorem witness_MatrixProducts_0 :
    ∃ (s : State) (g : Group) (h : Hdr) (ty : FTy) (kc : BitVec 3) (za : Bool) (rm : Rm) (d a b : Opd) (ids : Option
      MmaIds) (k : Gang) (t : Team) (ref : MmaRef) (part : MmaPart) (g1 : Group), ((Instr.mma h ty kc za rm d a b
      ids).wellFormed = true) ∧ (s.group? s.cur = some g) ∧ (Claims.mmaOf s g ty kc za d a b ids k t ref part) ∧ (2 ≤
      k.members.length) ∧ (g1 = { g with srctr := if rm = .sr then g.srctr + 1 else g.srctr }) ∧ (∀ l ∈ k.latches, ∃ p
      ∈ l.parts, p.member = part.member) := by
  refine ⟨sMma { pair with latches := [latch ref0 [part0]] }, gangedM, hdr, .mi8, 4, true, .rne, .x 1, .x 2, .v 4,
    none, { pair with latches := [latch ref0 [part0]] }, tm, ref0, part0, gangedM, ?_, cur_of rfl rfl,
    (by exact mma_ok _ (by decide +kernel)), ?_, rfl, ?_⟩ <;>
    decide +kernel

theorem witness_MatrixProducts_1 :
    ∃ (s : State) (g : Group) (h : Hdr) (ty : FTy) (kc : BitVec 3) (za : Bool) (rm : Rm) (d a b : Opd) (ids : Option
      MmaIds) (k : Gang) (t : Team) (ref : MmaRef) (part : MmaPart) (g1 : Group), ∃ pre, ∃ l, ∃ post, ((Instr.mma h ty
      kc za rm d a b ids).wellFormed = true) ∧ (s.group? s.cur = some g) ∧ (Claims.mmaOf s g ty kc za d a b ids k t
      ref part) ∧ (2 ≤ k.members.length) ∧ (g1 = { g with srctr := if rm = .sr then g.srctr + 1 else g.srctr }) ∧
      (k.latches = pre ++ l :: post) ∧ (∀ q ∈ pre, ∃ p ∈ q.parts, p.member = part.member) ∧ (∀ p ∈ l.parts, p.member ≠
      part.member) ∧ (l.ref ≠ ref) := by
  refine ⟨sMma { pair with latches := [latch ref0 [part0], latch { ref0 with za := false } [part1]] }, gangedM, hdr,
    .mi8, 4, true, .rne, .x 1, .x 2, .v 4, none,
    { pair with latches := [latch ref0 [part0], latch { ref0 with za := false } [part1]] }, tm, ref0, part0, gangedM,
    [latch ref0 [part0]], latch { ref0 with za := false } [part1], [], ?_, cur_of rfl rfl,
    (by exact mma_ok _ (by decide +kernel)), ?_, rfl, rfl, ?_, ?_, ?_⟩ <;>
    decide +kernel

theorem witness_MatrixProducts_2 :
    ∃ (s : State) (g : Group) (h : Hdr) (ty : FTy) (kc : BitVec 3) (za : Bool) (rm : Rm) (d a b : Opd) (ids : Option
      MmaIds) (k : Gang) (t : Team) (ref : MmaRef) (part : MmaPart) (g1 : Group), ∃ pre, ∃ l, ∃ post, ((Instr.mma h ty
      kc za rm d a b ids).wellFormed = true) ∧ (s.group? s.cur = some g) ∧ (Claims.mmaOf s g ty kc za d a b ids k t
      ref part) ∧ (2 ≤ k.members.length) ∧ (g1 = { g with srctr := if rm = .sr then g.srctr + 1 else g.srctr }) ∧
      (k.latches = pre ++ l :: post) ∧ (∀ q ∈ pre, ∃ p ∈ q.parts, p.member = part.member) ∧ (∀ p ∈ l.parts, p.member ≠
      part.member) ∧ (l.ref = ref) ∧ (l.parts.length + 1 ≠ k.members.length) := by
  refine ⟨sMma { pair with latches := [latch ref0 [part1, { part1 with member := 2 }]] }, gangedM, hdr, .mi8, 4, true,
    .rne, .x 1, .x 2, .v 4, none, { pair with latches := [latch ref0 [part1, { part1 with member := 2 }]] }, tm, ref0,
    part0, gangedM, [], latch ref0 [part1, { part1 with member := 2 }], [], ?_, cur_of rfl rfl,
    (by exact mma_ok _ (by decide +kernel)), ?_, rfl, rfl, ?_, ?_, ?_, ?_⟩ <;>
    decide +kernel

theorem witness_MatrixProducts_3 :
    ∃ (s : State) (g : Group) (h : Hdr) (ty : FTy) (kc : BitVec 3) (za : Bool) (rm : Rm) (d a b : Opd) (ids : Option
      MmaIds) (k : Gang) (t : Team) (ref : MmaRef) (part : MmaPart) (g1 : Group), ∃ pre, ∃ l, ∃ post, ((Instr.mma h ty
      kc za rm d a b ids).wellFormed = true) ∧ (s.group? s.cur = some g) ∧ (Claims.mmaOf s g ty kc za d a b ids k t
      ref part) ∧ (2 ≤ k.members.length) ∧ (g1 = { g with srctr := if rm = .sr then g.srctr + 1 else g.srctr }) ∧
      (k.latches = pre ++ l :: post) ∧ (∀ q ∈ pre, ∃ p ∈ q.parts, p.member = part.member) ∧ (∀ p ∈ l.parts, p.member ≠
      part.member) ∧ (l.ref = ref) ∧ (l.parts.length + 1 = k.members.length) := by
  refine ⟨sMma { pair with latches := [latch ref0 [part1]] }, gangedM, hdr, .mi8, 4, true, .rne, .x 1, .x 2, .v 4,
    none, { pair with latches := [latch ref0 [part1]] }, tm, ref0, part0, gangedM, [], latch ref0 [part1], [], ?_,
    cur_of rfl rfl, (by exact mma_ok _ (by decide +kernel)), ?_, rfl, rfl, ?_, ?_, ?_, ?_⟩ <;>
    decide +kernel

theorem awake_of {s : State} {c : Nat} {l : List Nat}
    (h : ∀ i ∈ l, vget (s.core c).gated i false = false ∧ vget (s.core c).wake i none = none) :
    ∀ i ∈ l, vget (s.core c).gated i false = false ∧
      ∀ at_ : Word64, vget (s.core c).wake i none = some at_ → 180 ≤ s.clocksSince at_ :=
  fun i hi => ⟨(h i hi).1, fun _ w => nomatch (h i hi).2.symm.trans w⟩

theorem witness_MatrixProducts_4 :
    ∃ (s : State) (k : Gang) (l : Latch) (post : List Latch) (c : Nat), (s.gang? k.id = some k) ∧ (k.latches = l ::
      post) ∧ (∀ m ∈ k.latches, m.started = false) ∧ (l.released = true) ∧ (s.gangCore k = some c) ∧ (∀ p ∈ l.parts,
      ∀ (x : ℕ), p.rowsAt c / 128 * 128 ≤ x → x < p.rowsAt c + 8 * rowLen l.ref.ty → s.isFull x = true) ∧ (∀ p ∈
      l.parts, 2 ^ 56 ≤ p.rowsAt c) ∧ (∀ i ∈ k.subs, vget (s.core c).gated i false = false ∧ ∀ (at_ : Word64), vget
      (s.core c).wake i none = some at_ → 180 ≤ s.clocksSince at_) ∧ (∃ t, s.team? k.team = some t ∧ t.swap =
      Swap.resident) := by
  refine ⟨sGang { pair with latches := [{ latch ref0 [part0, part1] with released := true }] },
    { pair with latches := [{ latch ref0 [part0, part1] with released := true }] },
    { latch ref0 [part0, part1] with released := true }, [], 0, rfl, rfl, ?_, ?_, ?_, (by intro p _ x _ _; rfl), ?_,
    (by exact awake_of (by decide +kernel)), (by exact ⟨tm, rfl, rfl⟩)⟩
    <;>
    decide +kernel

theorem witness_MatrixProducts_5 :
    ∃ (s : State) (k : Gang) (l : Latch) (post : List Latch) (t : Team) (n : Nat), (s.gang? k.id = some k) ∧ (∀ q ∈
      s.gangs, q.id = k.id → q = k) ∧ (s.team? k.team = some t) ∧ (k.latches = l :: post) ∧ (l.started = true) ∧
      (l.abandoned = false) ∧ (l.ref.ty = .mi8 ∨ l.ref.ty = .mn8) ∧ (l.ref.k = 64) ∧ (k.members.length = n) ∧ (2 ≤ n)
      ∧ (n ≤ 6) ∧ (∀ j < n, ∃ p ∈ l.parts, p.member = j ∧ (j < (if n ≤ 3 then 2 else 4) → 16 / (if n ≤ 3 then 2 else
      4) ≤ p.b.length)) ∧ ((l.parts.map (fun p => p.member)).Nodup) ∧ (∀ p ∈ l.parts, p.member < n ∧ (l.rowsA.getD
      p.member []).length = 512 ∧ (k.tiles.getD p.member []).length = k.per ∧ p.tile < k.per) ∧ (k.tiles.length = n) := by
  refine ⟨sGang
    { pair with latches := [{ latch ref0 [part0, part1] with released := true, started := true, rowsA := [List.replicate 512 0xFF, List.replicate 512 1] }] },
    { pair with latches := [{ latch ref0 [part0, part1] with released := true, started := true, rowsA := [List.replicate 512 0xFF, List.replicate 512 1] }] },
    { latch ref0 [part0, part1] with released := true, started := true, rowsA := [List.replicate 512 0xFF, List.replicate 512 1] },
    [], tm, 2, rfl, (by exact fun q hq _ => List.mem_singleton.mp hq), ?_, rfl, ?_, ?_, ?_, ?_, (by decide +kernel),
    ?_, ?_, ?_, ?_, ?_, ?_⟩ <;>
    decide +kernel

theorem witness_MatrixProducts_6 :
    ∃ (s : State) (c sub : Nat), (c < 272) ∧ (sub < 6) ∧ ((s.core c).pgidle ≠ 0) ∧ (∀ k ∈ s.gangs, ∀ l ∈ k.latches,
      l.released = false) ∧ (BitVec.toNat (s.core c).pgidle ≤ s.clocksSince (vget (s.core c).busy sub 0)) := by
  refine ⟨({ s0 with time := 5 } : State).modCore 271 (fun c => { c with pgidle := 5 }), 271, 5, ?_, ?_, ?_, ?_, ?_⟩ <;>
    decide +kernel

/-- A started `MMA` of BF16 numbers. -/
def latchF : Latch :=
  { latch { ref0 with ty := .bf16, k := 32 } [part0, part1] with
    released := true, started := true, rowsA := [List.replicate 512 0x3F, List.replicate 512 1] }

theorem witness_MatrixProducts_n6 :
    ∃ (s : State) (k : Gang) (l : Latch) (post : List Latch) (t : Team) (n : Nat) (el : MmaPart → Nat → Nat → FVal ×
      FFlags), (s.gang? k.id = some k) ∧ (∀ q ∈ s.gangs, q.id = k.id → q = k) ∧ (s.team? k.team = some t) ∧
      (k.latches = l :: post) ∧ (l.started = true) ∧ (l.abandoned = false) ∧ (l.ref.ty ≠ FTy.mi8) ∧ (l.ref.ty ≠
      FTy.mn8) ∧ (∃ kc, mmaK l.ref.ty kc = some l.ref.k) ∧ (k.members.length = n) ∧ (2 ≤ n) ∧ (n ≤ 6) ∧ (∀ j < n, ∃ p
      ∈ l.parts, p.member = j ∧ ((j < if n ≤ 3 then 2 else 4) → (16 / if n ≤ 3 then 2 else 4) ≤ p.b.length)) ∧
      ((List.map (fun p => p.member) l.parts).Nodup) ∧ (∀ p ∈ l.parts, p.member < n ∧ (k.tiles.getD p.member
      []).length = k.per ∧ if l.ref.ty = FTy.f64 then p.tile + 1 < k.per else p.tile < k.per) ∧ (k.tiles.length = n)
      ∧ (∀ (m : ℕ), l.skipA.getD m [] = []) ∧ (∀ (j : ℕ), l.skipB.getD j [] = []) ∧ (∀ (r : BitVec 512), l.recA =
      some r → tBlk r ≠ 0 → tBs r ∈ [8, 16, 32]) ∧ (∀ (p : MmaPart) (row col : ℕ), el p row col = Claims.mmaAcc t l n
      p row col ((if l.ref.ty = FTy.f64 then fmtF64 else fmtF32).decode (Claims.accBefore k l p row col))) := by
  refine ⟨sGang { pair with latches := [latchF] }, { pair with latches := [latchF] }, latchF, [], tm, 2, fun _ _ _ => _, rfl,
    (by exact fun q hq _ => List.mem_singleton.mp hq), (by rfl), rfl, rfl, rfl, ?_, ?_, (by exact ⟨3, by decide +kernel⟩), rfl, ?_, ?_, ?_, ?_, ?_, rfl,
    (by intro m; rfl), (by intro m; rfl), (by intro r h; exact (nomatch h)), (by intro p row col; rfl)⟩ <;>
    decide +kernel

theorem witness_AccumulatorTiles_0 :
    ∃ (s : State) (g : Group) (h : Hdr) (ty : FTy) (a : Opd) (k : Gang) (m t : Nat), ((Instr.accz h ty a).wellFormed =
      true) ∧ (s.group? s.cur = some g) ∧ (Claims.accOf s g ty a k m t) := by
  refine ⟨sMma pair, gangedM, hdr, .f32, .x 1, pair, 0, 1, ?_, cur_of rfl rfl,
    (by refine ⟨rfl, fun q hq _ => List.mem_singleton.mp hq, ?_, ?_, ?_, ?_, ?_, ?_⟩ <;> decide +kernel)⟩
    <;>
    decide +kernel

theorem witness_AccumulatorTiles_1 :
    ∃ (s : State) (g : Group) (h : Hdr) (ty : FTy) (n : BitVec 6) (a : Opd) (k : Gang) (m t w : Nat), ((Instr.accrd h
      ty (.v n) a).wellFormed = true) ∧ (s.group? s.cur = some g) ∧ (Claims.accOf s g ty a k m t) ∧ (w = (if ty = .f64
      then 16 else 8)) ∧ (g.checkHeld [(.v n, 32 * w)] = .ok ()) ∧ (∀ q < w, (k.tile m (Claims.accTile ty t q)).poison
      = false) := by
  refine ⟨sGang pair, ganged 0, hdr, .f64, 16, .x 1, pair, 0, 0, 16, ?_, cur_of rfl rfl,
    (by refine ⟨rfl, fun q hq _ => List.mem_singleton.mp hq, ?_, ?_, ?_, ?_, ?_, ?_⟩ <;> decide +kernel),
    rfl, ?_, ?_⟩ <;>
    decide +kernel

theorem witness_AccumulatorTiles_2 :
    ∃ (s : State) (g : Group) (h : Hdr) (ty : FTy) (n : BitVec 6) (a : Opd) (k : Gang) (m t w : Nat), ((Instr.accwr h
      ty a (.v n)).wellFormed = true) ∧ (s.group? s.cur = some g) ∧ (Claims.accOf s g ty a k m t) ∧ (w = (if ty = .f64
      then 16 else 8)) ∧ (g.checkHeld [(.v n, 32 * w)] = .ok ()) := by
  refine ⟨sMma pair, gangedM, hdr, .f32, 24, .x 1, pair, 0, 1, 8, ?_, cur_of rfl rfl,
    (by refine ⟨rfl, fun q hq _ => List.mem_singleton.mp hq, ?_, ?_, ?_, ?_, ?_, ?_⟩ <;> decide +kernel),
    rfl, ?_⟩ <;>
    decide +kernel

/-- A record of two dimensions in the scratchpad, its rows behind each other (R71 to R73). -/
def recT (fmt ext0 ext1 row off extra : Nat) : TBits :=
  BitVec.ofNat 512 (fmt + 2 ^ 10 + (0x00C0_0000_2000_0000 + off) * 2 ^ 64 + ext0 * 2 ^ 128 + ext1 * 2 ^ 160 + 2 ^ 192 +
    2 ^ 224 + row * 2 ^ 256) ||| BitVec.ofNat 512 extra

/-- The team with a record under identifier 3. -/
def tmT (r : TBits) : Team := { tm with tids := tm.tids.set 3 (some r) }

theorem witness_AccumulatorTiles_3 :
    ∃ (s : State) (g : Group) (h : Hdr) (ty : FTy) (rm : Rm) (d a c : Opd) (tid : BitVec 6) (k : Gang) (m t : Nat)
      (tm : Team) (r : TBits) (p : Pos) (ps : List Page) (els : List (Pos × Nat × Nat × FFlags)), ((Instr.accrdSt h
      ty rm d a c tid).wellFormed = true) ∧ (s.group? s.cur = some g) ∧ (Claims.accOf s g ty a k m t) ∧ (Claims.free
      s g) ∧ (ty ≠ FTy.f64) ∧ (s.team? g.team = some tm) ∧ (tm.tensor tid = Except.ok r) ∧ (p = posOf (g.uni64 c)) ∧
      (tBlk r = 0) ∧ (tEnt r = false) ∧ (tFmt r ∈ [0, 1, 5, 6, 7, 11]) ∧ (p.i1 % 8 = 0) ∧ (p.i2 < tExt r 2) ∧ (p.i3 <
      tExt r 3) ∧ ((k.tile m t).poison = false) ∧ ((k.tile m t).type = TileType.clear ∨ (k.tile m t).type =
      TileType.int ∧ tFmt r = 11 ∨ (k.tile m t).type = TileType.float ∧ tFmt r ≠ 11) ∧ (els = Claims.accStores g h k
      m t r rm p) ∧ (s.probeStores g r (List.map (fun e => { lane := e.2.1, pos := e.1, code := e.2.2.1 }) els) =
      Except.ok ps) := by
  refine ⟨{ sMma pair with teams := [tmT (recT 6 4 4 8 256 0)] }, gangedM, { hdr with pm := 0 }, .f32, .sr, .x 3, .x
    1, .x 3, 3, pair, 0, 1, tmT (recT 6 4 4 8 256 0), recT 6 4 4 8 256 0, ⟨0, 0, 0, 0⟩, [], Claims.accStores gangedM
    hdr pair 0 1 (recT 6 4 4 8 256 0) .sr ⟨0, 0, 0, 0⟩, ?_, cur_of rfl rfl,
    (by refine ⟨rfl, fun q hq _ => List.mem_singleton.mp hq, ?_, ?_, ?_, ?_, ?_, ?_⟩ <;> decide +kernel),
    (by exact ⟨by decide +kernel, by decide +kernel⟩), ?_, ?_, ?_, (by decide +kernel), ?_, ?_, ?_, ?_, ?_, ?_, ?_, ?_,
    rfl, ?_⟩ <;>
    decide +kernel

/-- The gang with tiles of integers. -/
def pairI : Gang :=
  { pair with tiles := List.replicate 2 (List.replicate 2 { Tile.zero with type := .int }) }

theorem witness_AccumulatorTiles_n4 :
    ∃ (s : State) (g : Group) (h : Hdr) (ty : FTy) (rm : Rm) (d a c : Opd) (tid : BitVec 6) (k : Gang) (m t : Nat)
      (tm : Team) (r : TBits), ((Instr.accrdSt h ty rm d a c tid).wellFormed = true) ∧ (s.group? s.cur = some g) ∧
      (Claims.accOf s g ty a k m t) ∧ (s.held g = false) ∧ (s.team? g.team = some tm) ∧ (tm.tensor tid = Except.ok r)
      ∧ ((k.tile m t).type = TileType.int ∧ tFmt r ≠ 11 ∨ (k.tile m t).type = TileType.float ∧ tFmt r = 11) := by
  refine ⟨{ sMma pairI with teams := [tmT (recT 6 4 4 8 256 0)] }, gangedM, hdr, .f32, .rne, .x 3, .x 1, .x 3, 3,
    pairI, 0, 1, tmT (recT 6 4 4 8 256 0), recT 6 4 4 8 256 0, ?_, cur_of rfl rfl,
    (by refine ⟨rfl, fun q hq _ => List.mem_singleton.mp hq, ?_, ?_, ?_, ?_, ?_, ?_⟩ <;> decide +kernel),
    ?_, ?_, ?_, (by exact .inl (by decide +kernel))⟩ <;>
    decide +kernel

/-- The machine with a record at the start of the allocation's second line half. -/
def sRec (r : TBits) : State := (mk (withX [(2, 0x00C0_0000_2000_0040)])).writeNat (scrLoc 0 64) 64 r.toNat

theorem witness_TensorInstructions_0 :
    ∃ (s : State) (g : Group) (h : Hdr) (a : Opd) (tid : BitVec 6) (t : Team) (r : TBits), ((Instr.tidset h a
      tid).wellFormed = true) ∧ (s.group? s.cur = some g) ∧ (s.held g = false) ∧ (s.team? g.team = some t) ∧
      (tid.toNat < t.tids.length) ∧ (BitVec.toNat (g.uni64 a) % 64 = 0) ∧ (∀ k ∈ s.gangs, k.latches = []) ∧
      (s.readRecord g (g.uni64 a) = Except.ok r) ∧ (recordBad r (64 * (s.valsOf t).smw) (s.valsOf t).dtc = false) := by
  refine ⟨sRec (recT 0 64 8 64 256 0), withX [(2, 0x00C0_0000_2000_0040)], hdr, .x 2, 3, tm, recT 0 64 8 64 256 0, ?_,
    cur_of rfl rfl, ?_, ?_, ?_, ?_, ?_, ?_, ?_⟩ <;>
    decide +kernel

theorem witness_TensorInstructions_1 :
    ∃ (s : State) (g : Group) (h : Hdr) (w : BitVec 3) (d : Opd) (tid : BitVec 6) (t : Team) (r : TBits),
      ((Instr.tidget h w d tid).wellFormed = true) ∧ (s.group? s.cur = some g) ∧ (s.team? g.team = some t) ∧
      (t.tids[tid.toNat]? = some (some r)) := by
  refine ⟨{ mk (grp) with teams := [tmT (recT 0 64 8 64 256 0)] }, grp, hdr, 7, .x 63, 3, tmT (recT 0 64 8 64 256 0),
    recT 0 64 8 64 256 0, ?_, cur_of rfl rfl, ?_, ?_⟩ <;>
    decide +kernel

/-- A lane of `BDOT.E4M3 V1, V2, V4, V6` with that record for both. -/
def resB (lane : Nat) : Code × FFlags :=
  Claims.bdot .e4m3 (recT 0 64 8 64 256 0) (recT 0 64 8 64 256 0) (grp.xVal 8) (grp.xVal (8 + 1))
    ([(.v 1, 32), (.v 2, 64), (.v 4, 64), (.v 6, 32)].map (fun (p : Opd × Nat) =>
      grp.srcLane p.1 p.2 (Claims.readLane false (grp.active hdr) lane)))

theorem witness_TensorInstructions_2 :
    ∃ (s : State) (g g1 : Group) (h : Hdr) (ty : FTy) (rm : Rm) (d a b c : Opd) (n tida tidb : BitVec 6) (t : Team)
      (ra rb : TBits) (w : Nat) (srcs : List (Opd × Nat)) (once : Bool) (res : Nat → Code × FFlags) (ws : List
      RegWrite), ((Instr.bdot h ty rm d a b c (.x n) tida tidb).wellFormed = true) ∧ (s.group? s.cur = some g) ∧
      (s.team? g.team = some t) ∧ (t.tensor tida = .ok ra) ∧ (t.tensor tidb = .ok rb) ∧ (tTy ra = some ty) ∧ (tTy rb =
      some ty) ∧ (tEnt ra = false) ∧ (tEnt rb = false) ∧ (tBlk ra = tBlk rb) ∧ (tBlk ra ≤ 1) ∧ (w = (if ty = .e2m1
      then 32 else 64)) ∧ (srcs = [(d, 32), (a, w), (b, w), (c, 32)]) ∧ (g.checkHeld srcs = .ok ()) ∧ (g.moveQueues d
      srcs = .ok g1) ∧ (once = Claims.once h (d :: srcs.map (·.1))) ∧ (∀ lane, res lane = Claims.bdot ty ra rb (g.xVal
      n) (g.xVal (n + 1)) (srcs.map (fun p => g.srcLane p.1 p.2 (Claims.readLane once (g.active h) lane)))) ∧ (ws =
      Claims.writes g h d 32 srcs (fun lane => (res lane).1)) := by
  refine ⟨{ mk (grp) with teams := [tmT (recT 0 64 8 64 256 0)] }, grp, grp, hdr, .e4m3, .rne, .v 1, .v 2, .v 4, .v 6,
    8, 3, 3, tmT (recT 0 64 8 64 256 0), recT 0 64 8 64 256 0, recT 0 64 8 64 256 0, 64, [(.v 1, 32), (.v 2, 64), (.v
    4, 64), (.v 6, 32)], false, resB, Claims.writes grp hdr (.v 1) 32 [(.v 1, 32), (.v 2, 64), (.v 4, 64), (.v 6, 32)]
    (fun lane => (resB lane).1), ?_, cur_of rfl rfl, ?_, ?_, ?_, ?_, ?_, ?_, ?_, ?_, (by decide +kernel),
    (by decide +kernel), rfl, ?_, rfl, rfl, (by exact fun lane => rfl), rfl⟩ <;>
    decide +kernel

theorem witness_TensorInstructions_3 :
    ∃ (s : State) (g : Group) (h : Hdr) (rm : Rm) (d a c e : Opd) (tid : BitVec 6) (t : Team) (r : TBits) (p : Pos)
      (ps : List Page) (els : List (Pos × Nat × (Nat × FFlags))), ((Instr.hadq h rm d a c e tid).wellFormed = true) ∧
      (s.group? s.cur = some g) ∧ (Claims.free s g) ∧ (s.team? g.team = some t) ∧ (g.checkHeld [(a, 32)] = .ok ()) ∧
      (t.tensor tid = .ok r) ∧ (p = posOf (g.uni64 c)) ∧ (tFmt r ≤ 1) ∧ (tBlk r = 0) ∧ (tHad r = false) ∧ (tEnt r =
      false) ∧ (p.i0 % 32 = 0) ∧ (p.i1 < tExt r 1) ∧ (p.i2 < tExt r 2) ∧ (p.i3 < tExt r 3) ∧ (els = Claims.hadStores g
      h rm (vNum a) r p (tensorScale (tTsf r) (g.uni64 e))) ∧ (s.probeStores g r (els.map (fun x => ⟨x.2.1, x.1,
      x.2.2.1⟩)) = .ok ps) := by
  refine ⟨{ mk (withX [(1, 0)]) with teams := [tmT (recT 1 64 8 64 256 0)] }, withX [(1, 0)], hdr, .sr, .x 2, .v 1, .x
    1, .x 3, 3, tmT (recT 1 64 8 64 256 0), recT 1 64 8 64 256 0, ⟨0, 0, 0, 0⟩, [], Claims.hadStores (withX [(1, 0)])
    hdr .sr 1 (recT 1 64 8 64 256 0) ⟨0, 0, 0, 0⟩ (tensorScale (tTsf (recT 1 64 8 64 256 0)) ((withX [(1, 0)]).uni64
    (.x 3))), ?_, cur_of rfl rfl, (by exact ⟨by decide +kernel, by decide +kernel⟩), ?_, ?_, ?_, (by decide +kernel),
    ?_, ?_, ?_, ?_, ?_, ?_, ?_, ?_, rfl, ?_⟩ <;>
    decide +kernel

theorem witness_TensorInstructions_4 :
    ∃ (s : State) (g : Group) (h : Hdr) (d : Opd) (tid : BitVec 6) (t : Team) (r : TBits) (ps : List Page) (k :
      Reach), ((Instr.zmap h d tid).wellFormed = true) ∧ (s.group? s.cur = some g) ∧ (Claims.free s g) ∧ (s.team?
      g.team = some t) ∧ (t.tensor tid = .ok r) ∧ (tZmv r = false) := by
  refine ⟨{ mk (grp) with teams := [tmT (recT 1 64 8 64 256 0)] }, grp, hdr, .x 2, 3, tmT (recT 1 64 8 64 256 0), recT
    1 64 8 64 256 0, [], ⟨none, []⟩, ?_, cur_of rfl rfl, (by exact ⟨by decide +kernel, by decide +kernel⟩), ?_, ?_,
    ?_⟩ <;>
    decide +kernel

theorem witness_TensorInstructions_5 :
    ∃ (s : State) (g : Group) (h : Hdr) (d : Opd) (tid : BitVec 6) (t : Team) (r : TBits) (ps : List Page) (k :
      Reach), ((Instr.zmap h d tid).wellFormed = true) ∧ (s.group? s.cur = some g) ∧ (Claims.free s g) ∧ (s.team?
      g.team = some t) ∧ (t.tensor tid = .ok r) ∧ (tZmv r = true) ∧ (Memory.wf s.mem = true) ∧ (s.poison = []) ∧ (k =
      ⟨g.core, ps⟩) ∧ ((((List.range (tileCount r)).flatMap (tileRows r)).foldlM (fun ps x => s.probe (s.accessor g)
      .read x.1 x.2 ps) [] >>= fun ps0 => (List.range ((tileCount r + 7) / 8)).foldlM (fun ps i => s.probe (s.accessor
      g) .write (mapAddr r (8 * i)) 1 ps) ps0) = .ok ps) ∧ (∀ i j, i < j → j < (tileCount r + 7) / 8 → pageLoc g.core
      ps (mapAddr r (8 * i)) ≠ pageLoc g.core ps (mapAddr r (8 * j))) ∧ (∀ i < (tileCount r + 7) / 8, ∀ x ∈
      (List.range (tileCount r)).flatMap (tileRows r), ∀ q ∈ spans x.1 x.2, ¬ (pageLoc g.core ps q.1 ≤ pageLoc g.core
      ps (mapAddr r (8 * i)) ∧ pageLoc g.core ps (mapAddr r (8 * i)) < pageLoc g.core ps q.1 + q.2)) := by
  refine
    ⟨{ mk (grp) with teams := [tmT (recT 0 (64 * 9) 1 576 256 (2 ^ 13 + (0x00C0_0000_2000_0000 + 4096) * 2 ^ 448))] },
    grp, hdr, .x 2, 3, tmT (recT 0 (64 * 9) 1 576 256 (2 ^ 13 + (0x00C0_0000_2000_0000 + 4096) * 2 ^ 448)), recT 0 (64
    * 9) 1 576 256 (2 ^ 13 + (0x00C0_0000_2000_0000 + 4096) * 2 ^ 448), [], ⟨some 0, []⟩, ?_, cur_of rfl rfl,
    (by exact ⟨by decide +kernel, by decide +kernel⟩), ?_, ?_, ?_, (by decide +kernel), ?_, rfl, ?_,
    (by rw [show (tileCount (recT 0 (64 * 9) 1 576 256 (2 ^ 13 + (0x00C0_0000_2000_0000 + 4096) * 2 ^ 448)) + 7) / 8 = 2 from by decide +kernel]; intro i j h1 h2; obtain rfl : i = 0 := (by omega); obtain rfl : j = 1 := (by omega); decide +kernel),
    ?_⟩ <;>
    decide +kernel

/-- A key table of 16 buckets at the start of the allocation, with room for some records in main memory. -/
def tab (cap sphw seq : Nat) : KTable :=
  { off := 0, logb := 4, spill := 0x8000, cap := cap, pages := [⟨0, 0, false⟩], nextseq := seq, sphw := sphw, splive := sphw,
    bklive := 0, cpos := 0, cvalid := false, ckey := false }

/-- The team with the table under handle 1. -/
def tmK (k : KTable) : Team := { tm with kts := [none, some k] }

/-- A group of one lane, whose `X1` names the table. -/
def grpK : Group := { withX [(1, 1)] with exec := 1 }

/-- The machine with that table, and live entries of other keys (or of key 0) in some places. -/
def sKey (k : KTable) (l : List (KPlace × Nat)) : State :=
  l.foldl (fun s p => s.writeNat ((⟨s, 0, k⟩ : KView).at_ p.1) 16 (2 ^ 120 + p.2))
    { mk grpK with teams := [tmK k] }

/-- The first slots of the window of key 0. -/
def window (k : KTable) (n : Nat) : List (KPlace × Nat) :=
  (List.range n).map (fun i => (.slot ((k.home 0 + i / 7) % 16) (i % 7), 1 + i))

theorem bit_one {j : Nat} (h : (1#64).getLsbD j = true) : j = 0 := by
  simpa [BitVec.getLsbD_one] using h

theorem apart (s : State) : ∀ r r', r < 2 → r' < 2 → r ≠ r' →
    (⟨s, 0, tab 2 1 5⟩ : KView).at_ (.record r) + 16 ≤ (⟨s, 0, tab 2 1 5⟩ : KView).at_ (.record r') ∨
      (⟨s, 0, tab 2 1 5⟩ : KView).at_ (.record r') + 16 ≤ (⟨s, 0, tab 2 1 5⟩ : KView).at_ (.record r) := by
  intro r r' h h' hn
  have e0 : (⟨s, 0, tab 2 1 5⟩ : KView).at_ (.record 0) = 0x8000 := by
    show pageLoc none (tab 2 1 5).pages (plus (tab 2 1 5).spill (16 * 0)) = _
    decide +kernel
  have e1 : (⟨s, 0, tab 2 1 5⟩ : KView).at_ (.record 1) = 0x8010 := by
    show pageLoc none (tab 2 1 5).pages (plus (tab 2 1 5).spill (16 * 1)) = _
    decide +kernel
  interval_cases r <;> interval_cases r' <;> simp_all

theorem none_apart {k : KTable} {f : Nat → Nat} (h : k.cap = 0) : ∀ r r', r < k.cap → r' < k.cap → r ≠ r' →
    f r + 16 ≤ f r' ∨ f r' + 16 ≤ f r := by
  intro r r' hr
  omega

/-- The machine with one entry of key 0. -/
def sOne : State := sKey (tab 0 0 5) [(.slot ((tab 0 0 5).home 0) 0, 0)]

/-- What a lane finds there. -/
def foundK (i : Nat) : Option (KPlace × BitVec 128) :=
  Claims.found sOne 0 (tab 0 0 5) ((grpK.srcLane (.v 2) 32 i).setWidth 32)

theorem witness_KeyTableEntries_0 :
    ∃ (s : State) (g : Group) (h : Hdr) (ty : ITy) (d a b e : Opd) (t : Team) (n c : Nat) (k : KTable) (f : Nat →
      Option (KPlace × BitVec 128)) (ws : List RegWrite), ((Instr.kprb h ty d a b e).wellFormed = true) ∧ (s.group?
      s.cur = some g) ∧ (Claims.table s g e t n c k) ∧ (g.checkHeld [(d, 32), (a, 32), (b, ty.width)] = Except.ok ())
      ∧ (∀ (i : ℕ), f i = Claims.found s c k (BitVec.setWidth 32 (g.srcLane a 32 i))) ∧ (ws = Claims.statuses g h d
      (fun i => match f i with | some x => 1 + Claims.spill x.1 | none => 2) ++ g.writesTo b false ty.width (g.active h)
      (fun i => match f i with | some x => BitVec.ofNat 128 ((x.2.extractLsb' 32 64).toNat % 2 ^ ty.width) | none => 0)) := by
  refine ⟨sOne, grpK, hdr, .b64, .v 1, .v 2, .v 4, .x 1, tmK (tab 0 0 5), 1, 0, tab 0 0 5, foundK, _, ?_, cur_of rfl
    rfl,
    (by refine ⟨⟨?_, ?_⟩, rfl, ?_, ?_, ?_, ?_, ?_, ?_, ?_, ?_, ?_, ?_, none_apart rfl⟩ <;> decide +kernel),
    ?_, (by exact fun i => rfl), rfl⟩ <;>
    decide +kernel

theorem witness_KeyTableEntries_1 :
    ∃ (s : State) (g : Group) (h : Hdr) (d a e : Opd) (held : List (Opd × Nat)) (t : Team) (n c : Nat) (k : KTable)
      (key : Word32) (low : Nat) (i : Instr) (v r : Nat) (end_ : State → KTable → Nat → Nat → Prop), ∃ p, ∃ x, ∃ ty, ∃
      b, (i.wellFormed = true) ∧ (s.group? s.cur = some g) ∧ (Claims.table s g e t n c k) ∧ (g.checkHeld ((d, 32) ::
      (a, 32) :: held) = .ok ()) ∧ (lowest (g.contributors h) = some low) ∧ (∀ j, (g.contributors h).getLsbD j = true
      → (g.srcLane a 32 j).setWidth 32 = key) ∧ (end_ = (fun s1 k1 first rest => exec i s = .next ((Claims.joined s1 g
      t n k1).finish g h [] [{ unit := .keyTable, writes := Claims.statuses g h d (Claims.firstRest g h first rest) }]
      none none))) ∧ (Claims.found s c k key = some (p, x)) ∧ (i = .kins h ty d a b e) ∧ (held = [(b, ty.width)]) := by
  refine ⟨sKey (tab 0 0 5) ([(.slot ((tab 0 0 5).home 0) 0, 0)]), grpK, hdr, .v 1, .v 2, .x 1, [(.v 4, 32)], tmK (tab
    0 0 5), 1, 0, tab 0 0 5, 0, 0, .kins hdr .b32 (.v 1) (.v 2) (.v 4) (.x 1), 0, 0, _, .slot ((tab 0 0 5).home 0) 0,
    BitVec.ofNat 128 (2 ^ 120), .b32, .v 4, ?_, cur_of rfl rfl,
    (by refine ⟨⟨?_, ?_⟩, rfl, ?_, ?_, ?_, ?_, ?_, ?_, ?_, ?_, ?_, ?_, none_apart rfl⟩ <;> decide +kernel),
    ?_, ?_,
    (by intro j hj; rw [show (grpK.contributors hdr) = 1 from by decide +kernel] at hj; obtain rfl := bit_one hj; decide +kernel),
    rfl, ?_, rfl, rfl⟩ <;>
    decide +kernel

theorem witness_KeyTableEntries_2 :
    ∃ (s : State) (g : Group) (h : Hdr) (d a e : Opd) (held : List (Opd × Nat)) (t : Team) (n c : Nat) (k : KTable)
      (key : Word32) (low : Nat) (i : Instr) (v r : Nat) (end_ : State → KTable → Nat → Nat → Prop), ∃ p, ∃ x,
      (i.wellFormed = true) ∧ (s.group? s.cur = some g) ∧ (Claims.table s g e t n c k) ∧ (g.checkHeld ((d, 32) :: (a,
      32) :: held) = .ok ()) ∧ (lowest (g.contributors h) = some low) ∧ (∀ j, (g.contributors h).getLsbD j = true →
      (g.srcLane a 32 j).setWidth 32 = key) ∧ (end_ = (fun s1 k1 first rest => exec i s = .next ((Claims.joined s1 g t
      n k1).finish g h [] [{ unit := .keyTable, writes := Claims.statuses g h d (Claims.firstRest g h first rest) }]
      none none))) ∧ (Claims.found s c k key = some (p, x)) ∧ (i = .kdel h d a e) ∧ (held = []) := by
  refine ⟨sKey (tab 0 0 5) ([(.slot ((tab 0 0 5).home 0) 0, 0)]), grpK, hdr, .v 1, .v 2, .x 1, [], tmK (tab 0 0 5), 1,
    0, tab 0 0 5, 0, 0, .kdel hdr (.v 1) (.v 2) (.x 1), 0, 0, _, .slot ((tab 0 0 5).home 0) 0, BitVec.ofNat 128 (2 ^
    120), ?_, cur_of rfl rfl,
    (by refine ⟨⟨?_, ?_⟩, rfl, ?_, ?_, ?_, ?_, ?_, ?_, ?_, ?_, ?_, ?_, none_apart rfl⟩ <;> decide +kernel),
    ?_, ?_,
    (by intro j hj; rw [show (grpK.contributors hdr) = 1 from by decide +kernel] at hj; obtain rfl := bit_one hj; decide +kernel),
    rfl, ?_, rfl, rfl⟩ <;>
    decide +kernel

theorem witness_KeyTableEntries_3 :
    ∃ (s : State) (g : Group) (h : Hdr) (d a e : Opd) (held : List (Opd × Nat)) (t : Team) (n c : Nat) (k : KTable)
      (key : Word32) (low : Nat) (i : Instr) (v r : Nat) (end_ : State → KTable → Nat → Nat → Prop), ∃ p, ∃ x, ∃ op, ∃
      ty, ∃ b, (i.wellFormed = true) ∧ (s.group? s.cur = some g) ∧ (Claims.table s g e t n c k) ∧ (g.checkHeld ((d,
      32) :: (a, 32) :: held) = .ok ()) ∧ (lowest (g.contributors h) = some low) ∧ (∀ j, (g.contributors h).getLsbD j
      = true → (g.srcLane a 32 j).setWidth 32 = key) ∧ (end_ = (fun s1 k1 first rest => exec i s = .next
      ((Claims.joined s1 g t n k1).finish g h []
      [{ unit := .keyTable, writes := Claims.statuses g h d (Claims.firstRest g h first rest) }] none none))) ∧
      (Claims.found s c k key = some (p, x)) ∧ (i = .kacc h op ty d a b e) ∧ (held = [(b, ty.width)]) ∧ (v =
      (((lanesOf (g.contributors h)).drop 1).foldl (fun v j => (Claims.step (Claims.kop op) ty v (g.srcLane b ty.width
      j)).1) (g.srcLane b ty.width low)).toNat) := by
  refine ⟨sKey (tab 0 0 5) ([(.slot ((tab 0 0 5).home 0) 0, 0)]), grpK, hdr, .v 1, .v 2, .x 1, [(.v 4, 64)], tmK (tab
    0 0 5), 1, 0, tab 0 0 5, 0, 0, .kacc hdr .add .n64 (.v 1) (.v 2) (.v 4) (.x 1), 0, 0, _, .slot ((tab 0 0 5).home
    0) 0, BitVec.ofNat 128 (2 ^ 120), .add, .n64, .v 4, ?_, cur_of rfl rfl,
    (by refine ⟨⟨?_, ?_⟩, rfl, ?_, ?_, ?_, ?_, ?_, ?_, ?_, ?_, ?_, ?_, none_apart rfl⟩ <;> decide +kernel),
    ?_, ?_,
    (by intro j hj; rw [show (grpK.contributors hdr) = 1 from by decide +kernel] at hj; obtain rfl := bit_one hj; decide +kernel),
    rfl, ?_, rfl, rfl, (by decide +kernel)⟩ <;>
    decide +kernel

theorem witness_KeyTableEntries_4 :
    ∃ (s : State) (g : Group) (h : Hdr) (d a e : Opd) (held : List (Opd × Nat)) (t : Team) (n c : Nat) (k : KTable)
      (key : Word32) (low : Nat) (i : Instr) (v r : Nat) (end_ : State → KTable → Nat → Nat → Prop), (i.wellFormed =
      true) ∧ (s.group? s.cur = some g) ∧ (Claims.table s g e t n c k) ∧ (g.checkHeld ((d, 32) :: (a, 32) :: held) =
      .ok ()) ∧ (lowest (g.contributors h) = some low) ∧ (∀ j, (g.contributors h).getLsbD j = true → (g.srcLane a 32
      j).setWidth 32 = key) ∧ (end_ = (fun s1 k1 first rest => exec i s = .next ((Claims.joined s1 g t n k1).finish g
      h [] [{ unit := .keyTable, writes := Claims.statuses g h d (Claims.firstRest g h first rest) }] none none))) ∧
      (Claims.found s c k key = none) ∧ (i = .kdel h d a e) ∧ (held = []) := by
  refine ⟨sKey (tab 0 0 5) ([]), grpK, hdr, .v 1, .v 2, .x 1, [], tmK (tab 0 0 5), 1, 0, tab 0 0 5, 0, 0, .kdel hdr
    (.v 1) (.v 2) (.x 1), 0, 0, _, ?_, cur_of rfl rfl,
    (by refine ⟨⟨?_, ?_⟩, rfl, ?_, ?_, ?_, ?_, ?_, ?_, ?_, ?_, ?_, ?_, none_apart rfl⟩ <;> decide +kernel),
    ?_, ?_,
    (by intro j hj; rw [show (grpK.contributors hdr) = 1 from by decide +kernel] at hj; obtain rfl := bit_one hj; decide +kernel),
    rfl, ?_, rfl, rfl⟩ <;>
    decide +kernel

theorem witness_KeyTableEntries_5 :
    ∃ (s : State) (g : Group) (h : Hdr) (d a e : Opd) (held : List (Opd × Nat)) (t : Team) (n c : Nat) (k : KTable)
      (key : Word32) (low : Nat) (i : Instr) (v r : Nat) (end_ : State → KTable → Nat → Nat → Prop), ∃ op, ∃ ty, ∃ b,
      (i.wellFormed = true) ∧ (s.group? s.cur = some g) ∧ (Claims.table s g e t n c k) ∧ (g.checkHeld ((d, 32) :: (a,
      32) :: held) = .ok ()) ∧ (lowest (g.contributors h) = some low) ∧ (∀ j, (g.contributors h).getLsbD j = true →
      (g.srcLane a 32 j).setWidth 32 = key) ∧ (end_ = (fun s1 k1 first rest => exec i s = .next ((Claims.joined s1 g t
      n k1).finish g h [] [{ unit := .keyTable, writes := Claims.statuses g h d (Claims.firstRest g h first rest) }]
      none none))) ∧ (Claims.found s c k key = none) ∧ (i = .kins h ty d a b e ∧ r = 1 ∧ v = (g.srcLane b ty.width
      low).toNat ∨ i = .kacc h op ty d a b e ∧ r = 0 ∧ v = Claims.kvalue ty.width 0 (Claims.step (Claims.kop op) ty
      (Claims.ident (Claims.kop op) ty) (((lanesOf (g.contributors h)).drop 1).foldl (fun v j => (Claims.step
      (Claims.kop op) ty v (g.srcLane b ty.width j)).1) (g.srcLane b ty.width low))).1.toNat) ∧ (held = [(b,
      ty.width)]) ∧ (2 ^ 24 ≤ k.nextseq) := by
  refine ⟨sKey (tab 0 0 (2 ^ 24)) ([]), grpK, hdr, .v 1, .v 2, .x 1, [(.v 4, 32)], tmK (tab 0 0 (2 ^ 24)), 1, 0, tab 0
    0 (2 ^ 24), 0, 0, .kins hdr .b32 (.v 1) (.v 2) (.v 4) (.x 1), 0, 1, _, .add, .b32, .v 4, ?_, cur_of rfl rfl,
    (by refine ⟨⟨?_, ?_⟩, rfl, ?_, ?_, ?_, ?_, ?_, ?_, ?_, ?_, ?_, ?_, none_apart rfl⟩ <;> decide +kernel),
    ?_, ?_,
    (by intro j hj; rw [show (grpK.contributors hdr) = 1 from by decide +kernel] at hj; obtain rfl := bit_one hj; decide +kernel),
    rfl, ?_, (by exact .inl ⟨rfl, rfl, by decide +kernel⟩), rfl, ?_⟩ <;>
    decide +kernel

theorem witness_KeyTableEntries_6 :
    ∃ (s : State) (g : Group) (h : Hdr) (d a e : Opd) (held : List (Opd × Nat)) (t : Team) (n c : Nat) (k : KTable)
      (key : Word32) (low : Nat) (i : Instr) (v r : Nat) (end_ : State → KTable → Nat → Nat → Prop), ∃ op, ∃ ty, ∃ b,
      ∃ q, (i.wellFormed = true) ∧ (s.group? s.cur = some g) ∧ (Claims.table s g e t n c k) ∧ (g.checkHeld ((d, 32) ::
      (a, 32) :: held) = .ok ()) ∧ (lowest (g.contributors h) = some low) ∧ (∀ j, (g.contributors h).getLsbD j = true
      → (g.srcLane a 32 j).setWidth 32 = key) ∧ (end_ = (fun s1 k1 first rest => exec i s = .next ((Claims.joined s1 g
      t n k1).finish g h [] [{ unit := .keyTable, writes := Claims.statuses g h d (Claims.firstRest g h first rest) }]
      none none))) ∧ (Claims.found s c k key = none) ∧ (i = .kins h ty d a b e ∧ r = 1 ∧ v = (g.srcLane b ty.width
      low).toNat ∨ i = .kacc h op ty d a b e ∧ r = 0 ∧ v = Claims.kvalue ty.width 0 (Claims.step (Claims.kop op) ty
      (Claims.ident (Claims.kop op) ty) (((lanesOf (g.contributors h)).drop 1).foldl (fun v j => (Claims.step
      (Claims.kop op) ty v (g.srcLane b ty.width j)).1) (g.srcLane b ty.width low))).1.toNat) ∧ (held = [(b,
      ty.width)]) ∧ (k.nextseq < 2 ^ 24) ∧ (q < 28) ∧ (Claims.live s c k (.slot ((k.home key + q / 7) % 2 ^ k.logb) (q
      % 7)) = none) ∧ (∀ q' < q, Claims.live s c k (.slot ((k.home key + q' / 7) % 2 ^ k.logb) (q' % 7)) ≠ none) := by
  refine ⟨sKey (tab 0 0 (2 ^ 24 - 1)) (window (tab 0 0 (2 ^ 24 - 1)) 27), grpK, hdr, .v 1, .v 2, .x 1, [(.v 4, 32)],
    tmK (tab 0 0 (2 ^ 24 - 1)), 1, 0, tab 0 0 (2 ^ 24 - 1), 0, 0, .kins hdr .b32 (.v 1) (.v 2) (.v 4) (.x 1), 0, 1, _,
    .add, .b32, .v 4, 27, ?_, cur_of rfl rfl,
    (by refine ⟨⟨?_, ?_⟩, rfl, ?_, ?_, ?_, ?_, ?_, ?_, ?_, ?_, ?_, ?_, none_apart rfl⟩ <;> decide +kernel),
    ?_, ?_,
    (by intro j hj; rw [show (grpK.contributors hdr) = 1 from by decide +kernel] at hj; obtain rfl := bit_one hj; decide +kernel),
    rfl, ?_, (by exact .inl ⟨rfl, rfl, by decide +kernel⟩), rfl, ?_, ?_, ?_, ?_⟩ <;>
    decide +kernel

theorem witness_KeyTableEntries_7 :
    ∃ (s : State) (g : Group) (h : Hdr) (d a e : Opd) (held : List (Opd × Nat)) (t : Team) (n c : Nat) (k : KTable)
      (key : Word32) (low : Nat) (i : Instr) (v r : Nat) (end_ : State → KTable → Nat → Nat → Prop), ∃ op, ∃ ty, ∃ b,
      (i.wellFormed = true) ∧ (s.group? s.cur = some g) ∧ (Claims.table s g e t n c k) ∧ (g.checkHeld ((d, 32) :: (a,
      32) :: held) = .ok ()) ∧ (lowest (g.contributors h) = some low) ∧ (∀ j, (g.contributors h).getLsbD j = true →
      (g.srcLane a 32 j).setWidth 32 = key) ∧ (end_ = (fun s1 k1 first rest => exec i s = .next ((Claims.joined s1 g t
      n k1).finish g h [] [{ unit := .keyTable, writes := Claims.statuses g h d (Claims.firstRest g h first rest) }]
      none none))) ∧ (Claims.found s c k key = none) ∧ (i = .kins h ty d a b e ∧ r = 1 ∧ v = (g.srcLane b ty.width
      low).toNat ∨ i = .kacc h op ty d a b e ∧ r = 0 ∧ v = Claims.kvalue ty.width 0 (Claims.step (Claims.kop op) ty
      (Claims.ident (Claims.kop op) ty) (((lanesOf (g.contributors h)).drop 1).foldl (fun v j => (Claims.step
      (Claims.kop op) ty v (g.srcLane b ty.width j)).1) (g.srcLane b ty.width low))).1.toNat) ∧ (held = [(b,
      ty.width)]) ∧ (k.nextseq < 2 ^ 24) ∧ (∀ q < 28, Claims.live s c k (.slot ((k.home key + q / 7) % 2 ^ k.logb) (q
      % 7)) ≠ none) ∧ (∀ r < k.sphw, Claims.live s c k (.record r) ≠ none) ∧ (k.cap ≤ k.sphw) := by
  refine ⟨sKey (tab 0 0 5) (window (tab 0 0 5) 28), grpK, hdr, .v 1, .v 2, .x 1, [(.v 4, 32)], tmK (tab 0 0 5), 1, 0,
    tab 0 0 5, 0, 0, .kins hdr .b32 (.v 1) (.v 2) (.v 4) (.x 1), 0, 1, _, .add, .b32, .v 4, ?_, cur_of rfl rfl,
    (by refine ⟨⟨?_, ?_⟩, rfl, ?_, ?_, ?_, ?_, ?_, ?_, ?_, ?_, ?_, ?_, none_apart rfl⟩ <;> decide +kernel),
    ?_, ?_,
    (by intro j hj; rw [show (grpK.contributors hdr) = 1 from by decide +kernel] at hj; obtain rfl := bit_one hj; decide +kernel),
    rfl, ?_, (by exact .inl ⟨rfl, rfl, by decide +kernel⟩), rfl, ?_, ?_, ?_, ?_⟩ <;>
    decide +kernel

theorem witness_KeyTableEntries_8 :
    ∃ (s : State) (g : Group) (h : Hdr) (d a e : Opd) (held : List (Opd × Nat)) (t : Team) (n c : Nat) (k : KTable)
      (key : Word32) (low : Nat) (i : Instr) (v r : Nat) (end_ : State → KTable → Nat → Nat → Prop), ∃ op, ∃ ty, ∃ b,
      (i.wellFormed = true) ∧ (s.group? s.cur = some g) ∧ (Claims.table s g e t n c k) ∧ (g.checkHeld ((d, 32) :: (a,
      32) :: held) = .ok ()) ∧ (lowest (g.contributors h) = some low) ∧ (∀ j, (g.contributors h).getLsbD j = true →
      (g.srcLane a 32 j).setWidth 32 = key) ∧ (end_ = (fun s1 k1 first rest => exec i s = .next ((Claims.joined s1 g t
      n k1).finish g h [] [{ unit := .keyTable, writes := Claims.statuses g h d (Claims.firstRest g h first rest) }]
      none none))) ∧ (Claims.found s c k key = none) ∧ (i = .kins h ty d a b e ∧ r = 1 ∧ v = (g.srcLane b ty.width
      low).toNat ∨ i = .kacc h op ty d a b e ∧ r = 0 ∧ v = Claims.kvalue ty.width 0 (Claims.step (Claims.kop op) ty
      (Claims.ident (Claims.kop op) ty) (((lanesOf (g.contributors h)).drop 1).foldl (fun v j => (Claims.step
      (Claims.kop op) ty v (g.srcLane b ty.width j)).1) (g.srcLane b ty.width low))).1.toNat) ∧ (held = [(b,
      ty.width)]) ∧ (k.nextseq < 2 ^ 24) ∧ (∀ q < 28, Claims.live s c k (.slot ((k.home key + q / 7) % 2 ^ k.logb) (q
      % 7)) ≠ none) ∧ (∀ r < k.sphw, Claims.live s c k (.record r) ≠ none) ∧ (k.sphw < k.cap) := by
  refine ⟨sKey (tab 2 1 5) ((.record 0, 99) :: window (tab 2 1 5) 28), grpK, hdr, .v 1, .v 2, .x 1, [(.v 4, 32)], tmK
    (tab 2 1 5), 1, 0, tab 2 1 5, 0, 0, .kins hdr .b32 (.v 1) (.v 2) (.v 4) (.x 1), 0, 1, _, .add, .b32, .v 4, ?_,
    cur_of rfl rfl,
    (by refine ⟨⟨?_, ?_⟩, rfl, ?_, ?_, ?_, ?_, ?_, ?_, ?_, ?_, ?_, ?_, apart _⟩ <;> decide +kernel),
    ?_, ?_,
    (by intro j hj; rw [show (grpK.contributors hdr) = 1 from by decide +kernel] at hj; obtain rfl := bit_one hj; decide +kernel),
    rfl, ?_, (by exact .inl ⟨rfl, rfl, by decide +kernel⟩), rfl, ?_, ?_, ?_, ?_⟩ <;>
    decide +kernel

theorem witness_KeyTableEntries_n7 :
    ∃ (s : State) (g : Group) (h : Hdr) (d a e : Opd) (held : List (Opd × Nat)) (t : Team) (n c : Nat) (k : KTable)
      (key : Word32) (low : Nat) (i : Instr) (v r : Nat) (end_ : State → KTable → Nat → Nat → Prop) (op : KOp) (ty :
      ITy) (b : Opd) (r1 : Nat), (i.wellFormed = true) ∧ (s.group? s.cur = some g) ∧ (Claims.table s g e t n c k) ∧
      (g.checkHeld ((d, 32) :: (a, 32) :: held) = Except.ok ()) ∧ (lowest (g.contributors h) = some low) ∧ (∀ (j :
      ℕ), BitVec.getLsbD (g.contributors h) j = true → BitVec.setWidth 32 (g.srcLane a 32 j) = key) ∧ (end_ = (fun s1
      k1 first rest => exec i s = .next ((Claims.joined s1 g t n k1).finish g h []
      [{ unit := .keyTable, writes := Claims.statuses g h d (Claims.firstRest g h first rest) }] none none))) ∧
      (Claims.found s c k key = none) ∧ (i = Instr.kins h ty d a b e ∧ r = 1 ∧ v = BitVec.toNat (g.srcLane b ty.width
      low) ∨ i = Instr.kacc h op ty d a b e ∧ r = 0 ∧ v = Claims.kvalue ty.width 0 (BitVec.toNat (Claims.step
      (Claims.kop op) ty (Claims.ident (Claims.kop op) ty) (List.foldl (fun v j => (Claims.step (Claims.kop op) ty v
      (g.srcLane b ty.width j)).1) (g.srcLane b ty.width low) (List.drop 1 (lanesOf (g.contributors h))))).1)) ∧
      (held = [(b, ty.width)]) ∧ (k.nextseq < 2 ^ 24) ∧ (∀ q < 28, Claims.live s c k (KPlace.slot ((k.home key + q /
      7) % 2 ^ k.logb) (q % 7)) ≠ none) ∧ (r1 < k.sphw) ∧ (r1 < k.cap) ∧ (Claims.live s c k (KPlace.record r1) =
      none) ∧ (∀ r2 < r1, Claims.live s c k (KPlace.record r2) ≠ none) := by
  refine ⟨sKey (tab 2 1 5) (window (tab 2 1 5) 28), grpK, hdr, .v 1, .v 2, .x 1, [(.v 4, 32)],
    tmK (tab 2 1 5), 1, 0, tab 2 1 5, 0, 0, .kins hdr .b32 (.v 1) (.v 2) (.v 4) (.x 1), 0, 1, _,
    .add, .b32, .v 4, 0, ?_, cur_of rfl rfl,
    (by refine ⟨⟨?_, ?_⟩, rfl, ?_, ?_, ?_, ?_, ?_, ?_, ?_, ?_, ?_, ?_, apart _⟩ <;> decide +kernel),
    ?_, ?_,
    (by intro j hj; rw [show (grpK.contributors hdr) = 1 from by decide +kernel] at hj; obtain rfl := bit_one hj; decide +kernel),
    rfl, ?_, (by exact .inl ⟨rfl, rfl, by decide +kernel⟩), rfl, ?_, ?_, ?_, ?_, ?_, ?_⟩ <;>
    decide +kernel

theorem witness_KeyTableHandles_0 :
    ∃ (s : State) (g : Group) (h : Hdr) (logb : BitVec 6) (d a b c : Opd) (t : Team) (n core : Nat) (ps : List Page),
      ((Instr.kclaim h logb d a b c).wellFormed = true) ∧ (s.group? s.cur = some g) ∧ (Claims.free s g) ∧ (Memory.wf
      s.mem = true) ∧ (s.team? g.team = some t) ∧ (t.kts[n]? = some none) ∧ (∀ j < n, t.kts[j]? ≠ some none) ∧
      (g.core = some core) ∧ (claimBad t (s.valsOf t).scratch logb.toNat (g.uni64 c) (g.uni64 a) (g.uni64 b) = false)
      ∧ (s.probe (s.accessor g) Use.write (g.uni64 a) (16 * BitVec.toNat (g.uni64 b)) [] = Except.ok ps) := by
  refine ⟨mk (withX [(1, 0x00C0_0000_2000_0800), (2, 0), (3, 0x8000)]), withX [(1, 0x00C0_0000_2000_0800), (2, 0), (3,
    0x8000)], hdr, 4, .x 5, .x 3, .x 2, .x 1, tm, 0, 0, [], ?_, cur_of rfl rfl,
    (by exact ⟨by decide +kernel, by decide +kernel⟩), ?_, ?_, ?_, (by intro j h; omega), ?_, ?_, ?_⟩ <;>
    decide +kernel

theorem witness_KeyTableHandles_1 :
    ∃ (s : State) (g : Group) (h : Hdr) (e : Opd) (t : Team) (k : KTable), ((Instr.kfree h e).wellFormed = true) ∧
      (s.group? s.cur = some g) ∧ (Claims.freeAcq s g) ∧ (s.team? g.team = some t) ∧ (BitVec.toNat (g.uni64 e) < 8) ∧
      (t.kts[BitVec.toNat (g.uni64 e)]? = some (some k)) := by
  refine ⟨sKey (tab 0 0 5) [], grpK, hdr, .x 1, tmK (tab 0 0 5), tab 0 0 5, ?_, cur_of rfl rfl,
    (by exact ⟨by decide +kernel, by decide +kernel⟩), ?_, ?_, ?_⟩ <;>
    decide +kernel

theorem witness_KeyTableHandles_2 :
    ∃ (s : State) (g : Group) (h : Hdr) (d e : Opd) (t : Team) (k : KTable) (v : Nat), ((Instr.kstat h d
      e).wellFormed = true) ∧ (s.group? s.cur = some g) ∧ (Claims.freeAcq s g) ∧ (s.team? g.team = some t) ∧
      (BitVec.toNat (g.uni64 e) < 8) ∧ (t.kts[BitVec.toNat (g.uni64 e)]? = some (some k)) ∧ (v = (k.bklive % 2 ^ 16 +
      2 ^ 16 * (k.splive % 2 ^ 24) + 2 ^ 40 * (k.sphw % 2 ^ 24) + 2 ^ 64 * BitVec.toNat k.cpos + 2 ^ 96 *
      k.cvalid.toNat + 2 ^ 97 * k.ckey.toNat + 2 ^ 99 * if 2 ^ 24 ≤ k.nextseq then 1 else 0) + 2 ^ 100 * (k.logb %
      16) + 2 ^ 104 * (k.nextseq % 2 ^ 24)) := by
  refine ⟨sKey (tab 0 0 5) [], grpK, hdr, .x 2, .x 1, tmK (tab 0 0 5), tab 0 0 5, 5 * 2 ^ 104 + 4 * 2 ^ 100, ?_,
    cur_of rfl rfl, (by exact ⟨by decide +kernel, by decide +kernel⟩), ?_, ?_, ?_, (by decide +kernel)⟩ <;>
    decide +kernel

theorem witness_KeyTableHandles_3 :
    ∃ (s : State) (g : Group) (h : Hdr) (e : Opd) (i : Instr) (t : Team), (i = Instr.kfree h e ∨ ∃ d, i = Instr.kstat
      h d e) ∧ (i.wellFormed = true) ∧ (s.group? s.cur = some g) ∧ (s.heldAcq g = false) ∧ (s.team? g.team = some t)
      ∧ (∀ (k : KTable), t.kts[BitVec.toNat (g.uni64 e)]? ≠ some (some k) ∨ 8 ≤ BitVec.toNat (g.uni64 e)) := by
  refine ⟨mk (withX [(1, 8)]), withX [(1, 8)], hdr, .x 1, .kfree hdr (.x 1), tm, (by exact .inl rfl), ?_, cur_of rfl
    rfl, ?_, ?_, (by intro k; exact .inr (by decide +kernel))⟩ <;>
    decide +kernel

theorem witness_KeyTableHandles_4 :
    ∃ (s : State) (g : Group) (h : Hdr) (ty : ITy) (key del rst : Bool) (d b cnt e : Opd) (t : Team) (n c : Nat) (k :
      KTable) (valid : Bool) (past : List (KPlace × BitVec 128)), ((Instr.kdrn h ty key del rst d b cnt e).wellFormed
      = true) ∧ (s.group? s.cur = some g) ∧ (Claims.table s g e t n c k) ∧ (s.held g = false) ∧ (g.checkHeld [(d, 32), (b, ty.width)] = .ok
      ()) ∧ (k.sphw ≤ k.cap) ∧ (valid = (k.cvalid && !rst && (k.ckey == key))) ∧ (past = ((Claims.allPlaces
      k).filterMap (fun p => (Claims.live s c k p).map (fun x => (p, x)))).filter (fun x => !valid || decide
      (k.cpos.toNat < Claims.drainKey key x.2))) := by
  refine ⟨sKey (tab 0 0 5) [], grpK, hdr, .b64, true, true, true, .v 1, .v 4, .x 3, .x 1, tmK (tab 0 0 5), 1, 0, tab 0
    0 5, false, ((Claims.allPlaces (tab 0 0 5)).filterMap (fun p => (Claims.live (sKey (tab 0 0 5) []) 0 (tab 0 0 5)
    p).map (fun x => (p, x)))).filter (fun x => !false || decide ((tab 0 0 5).cpos.toNat < Claims.drainKey true x.2)),
    ?_, cur_of rfl rfl,
    (by refine ⟨⟨?_, ?_⟩, rfl, ?_, ?_, ?_, ?_, ?_, ?_, ?_, ?_, ?_, ?_, none_apart rfl⟩ <;> decide +kernel),
    ?_, ?_, ?_, (by decide +kernel), rfl⟩ <;>
    decide +kernel

theorem witness_StreamResults_0 :
    ∃ (s : State) (g g1 : Group) (h : Hdr) (l : BitVec 2) (t : Team), ((Instr.slen h l).wellFormed = true) ∧
      (s.group? s.cur = some g) ∧ (Claims.chordFree s g t) ∧ (g1 = { g with len := l }) := by
  refine ⟨mk (grp), grp, { grp with len := 3 }, hdr, 3, tm, ?_, cur_of rfl rfl, (by exact ⟨rfl, by decide +kernel⟩), rfl⟩ <;>
    decide +kernel

theorem threshold_zero (lane : Nat) :
    Claims.isThreshold (valOf .f32 (grp.srcLane (.v 1) 32 lane).toNat) 0 := by
  have h : (grp.srcLane (.v 1) 32 lane).toNat = 0 := by
    simp [Group.srcLane, Group.vCode, Group.vLane, Group.visible, grp, Group.launched, Group.blank, vlane, vget_replicate, vzero]
  rw [h]
  have e : valOf .f32 0 = .fin false 0 (-149) := by decide +kernel
  rw [e]
  exact ⟨by decide, .inr (by norm_num [Claims.rat]), .inl rfl⟩

/-- The stream product of the table, its destination a source. -/
def formS : Claims.StreamForm := (Claims.streamForm grp (.smul hdr (.s 3) (.s 2) (.s 3))).get rfl

/-- The team whose stream registers are of some classes. -/
def tmS (c : Nat) : Team := { tm with streams := List.replicate 4 ⟨Vector.replicate 64 0, BitVec.ofNat 16 c, false⟩ }

theorem witness_StreamResults_1 :
    ∃ (s : State) (g : Group) (i : Instr) (f : Claims.StreamForm) (t : Team) (old : Stream) (xs : List Stream),
      (Claims.streamForm g i = some f) ∧ (i.wellFormed = true) ∧ (s.group? s.cur = some g) ∧ (Claims.streams s g t
      f.srcs xs) ∧ (t.streams[g.streamNum f.d]? = some old) ∧ (f.ok (xs.map (fun x => x.cls))) := by
  refine ⟨{ s0 with teams := [tmS 0] }, grp, .smul hdr (.s 3) (.s 2) (.s 3), formS, tmS 0, ⟨Vector.replicate 64 0,
    BitVec.ofNat 16 0, false⟩, [⟨Vector.replicate 64 0, BitVec.ofNat 16 0, false⟩, ⟨Vector.replicate 64 0,
    BitVec.ofNat 16 0, false⟩], (by rfl), ?_, cur_of rfl rfl,
    (by refine ⟨⟨rfl, ?_⟩, ?_, ?_, ?_⟩ <;> decide +kernel), ?_,
    (by show 0#16 &&& 0#16 = 0#16; decide)⟩ <;>
    decide +kernel

theorem witness_StreamResults_2 :
    ∃ (s : State) (g : Group) (i : Instr) (f : Claims.StreamForm) (t : Team) (old : Stream) (xs : List Stream),
      (Claims.streamForm g i = some f) ∧ (i.wellFormed = true) ∧ (s.group? s.cur = some g) ∧ (Claims.streams s g t
      f.srcs xs) ∧ (t.streams[g.streamNum f.d]? = some old) ∧ (¬ f.ok (xs.map (fun x => x.cls))) := by
  refine ⟨{ s0 with teams := [tmS 1] }, grp, .smul hdr (.s 3) (.s 2) (.s 3), formS, tmS 1, ⟨Vector.replicate 64 0,
    BitVec.ofNat 16 1, false⟩, [⟨Vector.replicate 64 0, BitVec.ofNat 16 1, false⟩, ⟨Vector.replicate 64 0,
    BitVec.ofNat 16 1, false⟩], (by rfl), ?_, cur_of rfl rfl,
    (by refine ⟨⟨rfl, ?_⟩, ?_, ?_, ?_⟩ <;> decide +kernel), ?_,
    (by show ¬ (1#16 &&& 1#16 = 0#16); decide)⟩ <;>
    decide +kernel

theorem witness_StreamResults_3 :
    ∃ (s : State) (g : Group) (h : Hdr) (n : BitVec 4) (d a b : Opd) (t : Team) (old : Stream) (th : Nat → Nat),
      ((Instr.sgen h n d a b).wellFormed = true) ∧ (s.group? s.cur = some g) ∧ (Claims.streams s g t [] []) ∧
      (g.checkHeld [(a, 32)] = .ok ()) ∧ (t.streams[g.streamNum d]? = some old) ∧ (∀ lane, Claims.isThreshold (valOf
      .f32 (g.srcLane a 32 lane).toNat) (th lane)) := by
  refine ⟨{ s0 with teams := [tmS 0] }, grp, hdr, 15, .s 0, .v 1, .x 0, tmS 0, ⟨Vector.replicate 64 0, BitVec.ofNat 16
    0, false⟩, fun _ => 0, ?_, cur_of rfl rfl,
    (by refine ⟨⟨rfl, ?_⟩, ?_, ?_, ?_⟩ <;> decide +kernel), ?_, ?_,
    (by intro lane; exact threshold_zero lane)⟩ <;>
    decide +kernel

theorem witness_StreamResults_4 :
    ∃ (s : State) (g : Group) (h : Hdr) (fl : Bool) (d a : Opd) (t : Team) (x : Stream) (n : Nat → Nat), ((Instr.scnt
      h fl d a).wellFormed = true) ∧ (s.group? s.cur = some g) ∧ (Claims.streams s g t [a] [x]) ∧ (g.checkHeld [(d,
      32)] = .ok ()) ∧ (∀ lane, n lane = Claims.ones g.slen (vget x.lanes lane 0)) := by
  refine ⟨{ s0 with teams := [tmS 0] }, grp, hdr, true, .v 1, .s 3, tmS 0, ⟨Vector.replicate 64 0, BitVec.ofNat 16 0,
    false⟩, fun lane => Claims.ones grp.slen (vget (Vector.replicate 64 (0 : BitVec 512)) lane 0), ?_, cur_of rfl rfl,
    (by refine ⟨⟨rfl, ?_⟩, ?_, ?_, ?_⟩ <;> decide +kernel), ?_,
    (by exact fun lane => rfl)⟩ <;>
    decide +kernel

theorem witness_StreamResults_5 :
    ∃ (s : State) (g : Group) (h : Hdr) (m : BitVec 3) (a b : Opd) (t : Team) (x : Machine.Stream), ((Instr.sbit h
      (Opd.m m) a b).wellFormed = true) ∧ (s.group? s.cur = some g) ∧ (g.prog = 0) ∧ (Claims.streams s g t [a] [x]) := by
  refine ⟨{ s0 with teams := [tmS 0] }, grp, hdr, 7, .s 3, .x 0, tmS 0, ⟨Vector.replicate 64 0, BitVec.ofNat 16 0,
    false⟩, ?_, cur_of rfl rfl,
    rfl, (by refine ⟨⟨rfl, ?_⟩, ?_, ?_, ?_⟩ <;> decide +kernel)⟩ <;>
    decide +kernel

theorem witness_StreamResults_6 :
    ∃ (s : State) (g : Group) (h : Hdr) (d a : Opd) (t : Team) (x : Stream), ((Instr.scls h d a).wellFormed = true) ∧
      (s.group? s.cur = some g) ∧ (Claims.streams s g t [a] [x]) := by
  refine ⟨{ s0 with teams := [tmS 0] }, grp, hdr, .x 1, .s 3, tmS 0, ⟨Vector.replicate 64 0, BitVec.ofNat 16 0,
    false⟩, ?_, cur_of rfl rfl,
    (by refine ⟨⟨rfl, ?_⟩, ?_, ?_, ?_⟩ <;> decide +kernel)⟩ <;>
    decide +kernel

theorem witness_StreamResults_7 :
    ∃ (s : State) (c : Nat) (op : UnitOp) (rest : List UnitOp) (s1 : State) (i : Instr), (c < 272) ∧ (i =
      .keyOpComplete c ∧ (s.core c).keyOps = op :: rest ∧ s1 = s.modCore c (fun k => { k with keyOps := rest }) ∨ i =
      .chordOpComplete c ∧ (s.core c).chordOps = op :: rest ∧ s1 = s.modCore c (fun k => { k with chordOps := rest }))
      ∧ (op.result = none) := by
  refine ⟨s0.modCore 271 (fun k => { k with keyOps := [⟨3, 2, none⟩] }), 271, ⟨3, 2, none⟩, [], (s0.modCore 271 (fun k =>
    { k with keyOps := [⟨3, 2, none⟩] })).modCore 271 (fun k => { k with keyOps := [] }), .keyOpComplete 271, ?_,
    (by exact .inl ⟨rfl, by decide +kernel, rfl⟩), ?_⟩ <;>
    decide +kernel

theorem witness_StreamResults_8 :
    ∃ (s : State) (c : Nat) (op : UnitOp) (rest : List UnitOp) (s1 : State) (i : Instr), ∃ id, ∃ g, (c < 272) ∧ (i =
      .keyOpComplete c ∧ (s.core c).keyOps = op :: rest ∧ s1 = s.modCore c (fun k => { k with keyOps := rest }) ∨ i =
      .chordOpComplete c ∧ (s.core c).chordOps = op :: rest ∧ s1 = s.modCore c (fun k => { k with chordOps := rest }))
      ∧ (op.result = some id) ∧ (s.group? op.gid = some g) := by
  refine ⟨s0.modCore 0 (fun k => { k with chordOps := [⟨3, 2, some 7⟩] }), 0, ⟨3, 2, some 7⟩, [], (s0.modCore 0 (fun k =>
    { k with chordOps := [⟨3, 2, some 7⟩] })).modCore 0 (fun k => { k with chordOps := [] }), .chordOpComplete 0, 7, grp,
    ?_, (by exact .inr ⟨rfl, by decide +kernel, rfl⟩), ?_, (by exact of_id (g := grp) rfl)⟩ <;>
    decide +kernel

theorem witness_StreamResults_n1 :
    ∃ (s : State) (g : Group) (i : Instr), (i.wellFormed = true) ∧ (s.group? s.cur = some g) ∧ (s.heldAcq g = false)
      ∧ ((∃ h l, i = Instr.slen h l) ∨ (∃ f, Claims.streamForm g i = some f) ∨ (∃ h n d a b, i = Instr.sgen h n d a
      b) ∨ (∃ h fl d a, i = Instr.scnt h fl d a) ∨ (∃ h d a b, i = Instr.sbit h d a b ∧ g.prog = 0) ∨ ∃ h d a, i =
      Instr.scls h d a) ∧ (8 ≤ (s.core (g.core.getD 0)).chordOps.length) := by
  refine ⟨s0.modCore 0 (fun k => { k with chordOps := List.replicate 8 ⟨3, 2, none⟩ }), grp, .sbit hdr (.m 7) (.s 3) (.x 0), ?_,
    cur_of rfl rfl, ?_, (by exact .inr (.inr (.inr (.inr (.inl ⟨hdr, .m 7, .s 3, .x 0, rfl, rfl⟩))))), ?_⟩ <;>
    decide +kernel

theorem witness_Collectives_0 :
    ∃ (s : State) (g : Group) (h : Hdr) (n : BitVec 2) (a b : BitVec 6) (v : BitVec 256) (ok : Prop), ((Instr.tile h
      (Opd.t n) (Opd.x a) (Opd.x b)).wellFormed = true) ∧ (s.group? s.cur = some g) ∧ (v = g.xVal (b + 1) ++ g.xVal b
      ++ g.xVal (a + 1) ++ g.xVal a) ∧ (ok = (BitVec.extractLsb' 128 24 v = 0 ∧ 0 < (BitVec.extractLsb' 232 24
      v).toNat ∧ 0 < (BitVec.extractLsb' 24 24 v).toNat ∧ 0 < (BitVec.extractLsb' 0 24 v).toNat ∧ (BitVec.extractLsb'
      232 24 v).toNat * (BitVec.extractLsb' 24 24 v).toNat * (BitVec.extractLsb' 0 24 v).toNat < 2 ^ 30)) ∧ (ok) := by
  refine ⟨mk (withX [(2, 2 ^ 24 + 8), (3, 0), (4, 0), (5, 2 ^ 40)]), withX [(2, 2 ^ 24 + 8), (3, 0), (4, 0), (5, 2 ^
    40)], hdr, 3, 2, 4, _, _, ?_, cur_of rfl rfl, rfl, rfl, (by decide +kernel)⟩ <;>
    decide +kernel

theorem witness_Collectives_1 :
    ∃ (s : State) (g : Group) (h : Hdr) (n : BitVec 2) (a b : BitVec 6) (v : BitVec 256) (ok : Prop), ((Instr.tile h
      (Opd.t n) (Opd.x a) (Opd.x b)).wellFormed = true) ∧ (s.group? s.cur = some g) ∧ (v = g.xVal (b + 1) ++ g.xVal b
      ++ g.xVal (a + 1) ++ g.xVal a) ∧ (ok = (BitVec.extractLsb' 128 24 v = 0 ∧ 0 < (BitVec.extractLsb' 232 24
      v).toNat ∧ 0 < (BitVec.extractLsb' 24 24 v).toNat ∧ 0 < (BitVec.extractLsb' 0 24 v).toNat ∧ (BitVec.extractLsb'
      232 24 v).toNat * (BitVec.extractLsb' 24 24 v).toNat * (BitVec.extractLsb' 0 24 v).toNat < 2 ^ 30)) ∧ (¬ok) := by
  refine ⟨mk (withX [(2, 2 ^ 24 + 8), (3, 0), (4, 1), (5, 2 ^ 40)]), withX [(2, 2 ^ 24 + 8), (3, 0), (4, 1), (5, 2 ^
    40)], hdr, 3, 2, 4, _, _, ?_, cur_of rfl rfl, rfl, rfl, (by decide +kernel)⟩ <;>
    decide +kernel

/-- A descriptor of a collective of two members over four-byte integers, its barrier object at offset 16 (R107). -/
def descW (kind count : Nat) : BitVec 256 :=
  BitVec.ofNat 256 (kind * 2 ^ 12 + (if kind ≤ 1 then 0 else 6) * 2 ^ 16 + 2 * 2 ^ 24 + count * 2 ^ 32 +
    (0x00C0_0000_2000_0000 + 16) * 2 ^ 192)

/-- A group whose `X2` is the descriptor's address, `X3` a rank, `X4` and `X5` its ranges. -/
def grpC : Group := withX [(2, 0x6000), (3, 1), (4, 0x8000), (5, 0x9000)]

/-- The machine with page tables, the descriptor at 0x6000 and core 1 with the collective partition. -/
def sColl (kind : Nat) (l : List Coll) : State :=
  { ((((mk grpC).loadTables.modPart 0 (fun p => { p with proot := 0x10000 })).modCore 1
      (fun c => { c with part := 8 })).writeNat 0x6000 32 (descW kind 2).toNat) with colls := l }

/-- A member of a rank, as it joined. -/
def memb (r : Nat) : CollMember :=
  { rank := r, src := 0x8000 + BitVec.ofNat 64 (64 * r), dst := 0x9000 + BitVec.ofNat 64 (64 * r), trigger := 0,
    trigTeam := none, trigOff := 0, tile := none, pages := [⟨0, 0, true⟩], team := 2, launch := 1,
    fork := s0.forkOf grp none }

/-- An instance of the key with some members. -/
def inst (kind count : Nat) (l : List CollMember) : Coll :=
  { id := 7, part := 0, key := 0x6000, launch := none, desc := collOf (descW kind count), members := l, barTeam := none,
    barOff := 16 }

theorem witness_Collectives_2 :
    ∃ (s : State) (g : Group) (h : Hdr) (tile : Option (BitVec 2)) (d a b c e : Opd) (t : Team) (bits : BitVec 256)
      (td : Option (BitVec 256)) (ps : List Page) (m : CollMember) (ts : List Touch), ((Instr.coll h tile d a b c
      e).wellFormed = true) ∧ (s.group? s.cur = some g) ∧ (g.mode = Mode.user) ∧ (s.held g = false) ∧ (s.team? g.team
      = some t) ∧ (s.collCores = true) ∧ (BitVec.toNat (g.uni64 a) % 32 = 0) ∧ (s.readDesc g (g.uni64 a) = Except.ok
      bits) ∧ (collOk bits = true) ∧ (BitVec.toNat (g.uni64 b) < (collOf bits).memb) ∧ ((collOf bits).ckind = 1 ∨
      (collOf bits).ckind = 4 → (collOf bits).count % (collOf bits).memb = 0) ∧ (tile = none ∧ td = none ∨ ∃ n, tile
      = some n ∧ td = vget g.t n.toNat none ∧ td ≠ none) ∧ (m = Claims.member s g h t td d b c e ps) ∧ (ts = ⟨g.uni64 a, 32, true, false⟩ :: pageTouches ps) ∧ (s.checkMember g (collOf bits) { m with pages := [] } = Except.ok ps) ∧ (∀ k ∈ s.colls,
      k.part = (s.accessor g).part → k.key = g.uni64 a → k.launch = none → k.desc.memb ≤ k.members.length ∨ ∃ x ∈
      k.members, x.rank = m.rank) ∧ (s.openColls.length < 256) := by
  refine ⟨sColl 1 ([]), grpC, hdr, none, .x 6, .x 2, .x 3, .x 4, .x 5, tm, descW 1 2, none, [⟨0, 0, true⟩],
    Claims.member (sColl 1 ([])) grpC hdr tm none (.x 6) (.x 3) (.x 4) (.x 5) [⟨0, 0, true⟩], _, ?_, cur_of rfl rfl, ?_,
    ?_, ?_, ?_, ?_, ?_, ?_, ?_, ?_, (by exact .inl ⟨rfl, rfl⟩), rfl, rfl, ?_, (by intro k hk; exact (nomatch hk)), ?_⟩ <;>
    decide +kernel

theorem witness_Collectives_3 :
    ∃ (s : State) (g : Group) (h : Hdr) (tile : Option (BitVec 2)) (d a b c e : Opd) (t : Team) (bits : BitVec 256)
      (td : Option (BitVec 256)) (ps : List Page) (m : CollMember) (ts : List Touch) (pre : List Coll) (k : Coll)
      (post : List Coll), ((Instr.coll h tile d a b c e).wellFormed = true) ∧ (s.group? s.cur = some g) ∧ (g.mode =
      Mode.user) ∧ (s.held g = false) ∧ (s.team? g.team = some t) ∧ (s.collCores = true) ∧ (BitVec.toNat (g.uni64 a)
      % 32 = 0) ∧ (s.readDesc g (g.uni64 a) = Except.ok bits) ∧ (collOk bits = true) ∧ (BitVec.toNat (g.uni64 b) <
      (collOf bits).memb) ∧ ((collOf bits).ckind = 1 ∨ (collOf bits).ckind = 4 → (collOf bits).count % (collOf
      bits).memb = 0) ∧ (tile = none ∧ td = none ∨ ∃ n, tile = some n ∧ td = vget g.t n.toNat none ∧ td ≠ none) ∧ (m
      = Claims.member s g h t td d b c e ps) ∧ (ts = ⟨g.uni64 a, 32, true, false⟩ ::
      pageTouches ps) ∧ (s.checkMember g (collOf bits) { m with pages := [] } = Except.ok ps) ∧ (s.colls = pre ++ k :: post) ∧ ((List.map (fun x => x.id)
      s.colls).Nodup) ∧ (∀ x ∈ pre, x.key ≠ g.uni64 a) ∧ (k.part = (s.accessor g).part) ∧ (k.key = g.uni64 a) ∧
      (k.launch = none) ∧ (k.members.length < k.desc.memb) ∧ (∀ x ∈ k.members, x.rank ≠ m.rank) ∧ (k.desc = collOf
      bits) := by
  refine ⟨sColl 1 ([inst 1 2 [memb 0]]), grpC, hdr, none, .x 6, .x 2, .x 3, .x 4, .x 5, tm, descW 1 2, none, [⟨0, 0,
    true⟩], Claims.member (sColl 1 ([inst 1 2 [memb 0]])) grpC hdr tm none (.x 6) (.x 3) (.x 4) (.x 5) [⟨0, 0, true⟩], _,
    [], inst 1 2 [memb 0], [], ?_, cur_of rfl rfl, ?_, ?_, ?_, ?_, ?_, ?_, ?_, ?_, ?_, (by exact .inl ⟨rfl, rfl⟩), rfl, rfl, ?_, ?_, ?_, ?_, ?_, ?_, ?_, ?_, ?_, ?_⟩ <;>
    decide +kernel

theorem witness_Collectives_4 :
    ∃ (s : State) (g : Group) (h : Hdr) (tile : Option (BitVec 2)) (d a b c e : Opd) (t : Team) (bits : BitVec 256)
      (td : Option (BitVec 256)) (ps : List Page) (m : CollMember) (ts : List Touch) (pre : List Coll) (k : Coll)
      (post : List Coll), ((Instr.coll h tile d a b c e).wellFormed = true) ∧ (s.group? s.cur = some g) ∧ (g.mode =
      Mode.user) ∧ (s.held g = false) ∧ (s.team? g.team = some t) ∧ (s.collCores = true) ∧ (BitVec.toNat (g.uni64 a)
      % 32 = 0) ∧ (s.readDesc g (g.uni64 a) = Except.ok bits) ∧ (collOk bits = true) ∧ (BitVec.toNat (g.uni64 b) <
      (collOf bits).memb) ∧ ((collOf bits).ckind = 1 ∨ (collOf bits).ckind = 4 → (collOf bits).count % (collOf
      bits).memb = 0) ∧ (tile = none ∧ td = none ∨ ∃ n, tile = some n ∧ td = vget g.t n.toNat none ∧ td ≠ none) ∧ (m
      = Claims.member s g h t td d b c e ps) ∧ (ts = ⟨g.uni64 a, 32, true, false⟩ ::
      pageTouches ps) ∧ (s.checkMember g (collOf bits) { m with pages := [] } = Except.ok ps) ∧ (s.colls = pre ++ k :: post) ∧ ((List.map (fun x => x.id)
      s.colls).Nodup) ∧ (∀ x ∈ pre, x.key ≠ g.uni64 a) ∧ (k.part = (s.accessor g).part) ∧ (k.key = g.uni64 a) ∧
      (k.launch = none) ∧ (k.members.length < k.desc.memb) ∧ (∀ x ∈ k.members, x.rank ≠ m.rank) ∧ (k.desc ≠ collOf
      bits) := by
  refine ⟨sColl 1 ([inst 1 4 [memb 0]]), grpC, hdr, none, .x 6, .x 2, .x 3, .x 4, .x 5, tm, descW 1 2, none, [⟨0, 0,
    true⟩], Claims.member (sColl 1 ([inst 1 4 [memb 0]])) grpC hdr tm none (.x 6) (.x 3) (.x 4) (.x 5) [⟨0, 0, true⟩], _,
    [], inst 1 4 [memb 0], [], ?_, cur_of rfl rfl, ?_, ?_, ?_, ?_, ?_, ?_, ?_, ?_, ?_, (by exact .inl ⟨rfl, rfl⟩), rfl, rfl, ?_, ?_, ?_, ?_, ?_, ?_, ?_, ?_, ?_, ?_⟩ <;>
    decide +kernel

theorem witness_Collectives_5 :
    ∃ (s : State) (k : Coll) (n : Nat) (src dst : Nat → Nat) (ty : Nat), (s.colls.find? (fun x => x.id == k.id) = some
      k) ∧ (k.launch = none) ∧ (k.members.length = k.desc.memb) ∧ (1 < k.desc.memb) ∧ (k.desc.count = n) ∧ (Memory.wf
      s.mem = true) ∧ (s.poison = []) ∧ (∀ p, (s.part p).arm = false) ∧ (k.members.map (fun (m : CollMember) =>
      m.rank) = List.range k.desc.memb) ∧ (k.desc.ckind = 0 ∧ k.desc.cop = 0 ∨ k.desc.ckind = 3) ∧ (k.desc.ctype = ty)
      ∧ (ty ≤ 1) ∧ (∀ m ∈ k.members, Claims.moves m (4 * n) (src m.rank) (dst m.rank) ∧ m.trigger = 0) ∧ (∀ r r', r <
      k.desc.memb → r' < k.desc.memb → r ≠ r' → dst r + 4 * n ≤ dst r' ∨ dst r' + 4 * n ≤ dst r) ∧ (k.barTeam = none) := by
  refine ⟨{ s0 with colls := [inst 3 2 [memb 0, memb 1]] }, inst 3 2 [memb 0, memb 1], 2, fun r => 0x8000 + 64 * r,
    fun r => 0x9000 + 64 * r, 0, ?_, ?_, ?_, ?_, ?_, ?_, ?_,
    (arms_off rfl),
    ?_, (by exact .inr (by decide +kernel)), ?_, ?_, (by simp only [Claims.moves]; decide +kernel),
    (by intro r r' h h' hn; show 0x9000 + 64 * r + 8 ≤ 0x9000 + 64 * r' ∨ 0x9000 + 64 * r' + 8 ≤ 0x9000 + 64 * r; omega),
    ?_⟩ <;>
    decide +kernel

theorem witness_Collectives_6 :
    ∃ (s s1 : State) (k : Coll) (tm : Team), (List.find? (fun x => x.id == k.id) s.colls = some k) ∧ (k.launch =
      none) ∧ (k.members.length = k.desc.memb) ∧ (k.desc.ckind = 5) ∧ (k.barTeam = some tm.id) ∧ (s.team? tm.id =
      some tm) ∧ (∀ (p : ℕ), (s.part p).arm = false) ∧ (∀ m ∈ k.members, m.trigger = 0) ∧ (∀ (c : ℕ), tm.core = some c → s1 = s.putArrival (scrLoc c
      k.barOff) (s.barrier (scrLoc c k.barOff)) 1) ∧ (tm.core = none → s1 = s.modTeam tm.id fun q => { q with held := q.held ++ [(k.barOff, 1)] }) := by
  refine ⟨{ s0 with colls := [{ inst 5 0 [memb 0, memb 1] with barTeam := some 2 }] },
    ({ s0 with colls := [{ inst 5 0 [memb 0, memb 1] with barTeam := some 2 }] }).putArrival (scrLoc 0 16)
    (({ s0 with colls := [{ inst 5 0 [memb 0, memb 1] with barTeam := some 2 }] } : State).barrier (scrLoc 0 16)) 1,
    { inst 5 0 [memb 0, memb 1] with barTeam := some 2 }, tm, ?_, ?_, ?_, ?_, ?_, ?_, (arms_off rfl), ?_,
    (by intro c hc; obtain rfl := Option.some.inj hc; rfl), (by intro h; exact (nomatch h))⟩ <;>
    decide +kernel

theorem witness_Collectives_7 :
    ∃ (s : State) (k : Coll) (m : CollMember) (loc : Nat), (s.colls.find? (fun x => x.id == k.id) = some k) ∧
      (k.launch = none) ∧ (k.members = [m]) ∧ (k.desc.memb = 1) ∧ (k.barTeam = none) ∧ (m.trigger ≠ 0) ∧ (m.trigTeam =
      none) ∧ (m.loc m.trigger = some loc) ∧
      (s.poisonIn loc 8 = none) ∧ (∀ (p : ℕ), (s.part p).arm = false) := by
  refine
    ⟨{ s0 with colls := [{ inst 0 2 [{ memb 0 with trigger := 0xA000 }] with desc := { collOf (descW 0 2) with memb := 1 } }] },
    { inst 0 2 [{ memb 0 with trigger := 0xA000 }] with desc := { collOf (descW 0 2) with memb := 1 } },
    { memb 0 with trigger := 0xA000 }, 0xA000, ?_, ?_, ?_, ?_, ?_, ?_, ?_, ?_, ?_, (arms_off rfl)⟩ <;>
    decide +kernel

/-- A launch with a collective attached, run or not (R126, R128). -/
def lAtt (kind : Nat) (done : Bool) (l : Launch) : Launch :=
  { l with coll := some (collOf (descW kind 2)), collStarted := true, collDone := done }

/-- Its instance. -/
def cAtt (kind : Nat) : Coll := { inst kind 2 [] with launch := some 1 }

/-- The machine whose launch has collective 7 attached, with the teams still there. -/
def sAtt (kind : Nat) (done : Bool) (l : Launch) (ts : List Team) : State :=
  { s0 with launches := [lAtt kind done l], teams := ts, colls := [cAtt kind] }

theorem witness_Collectives_n8 :
    ∃ (s : State) (k : Coll) (l : Launch), (List.find? (fun x => x.id == k.id) s.colls = some k) ∧ (k.launch = some
      l.id) ∧ (s.launch? l.id = some l) ∧ (l.collDone = false) ∧ (s.collReady k = false) := by
  refine ⟨sAtt 3 false lau [tm], cAtt 3, lAtt 3 false lau, ?_, rfl, rfl, ?_, ?_⟩ <;>
    decide +kernel

theorem witness_Collectives_n9 :
    ∃ (s : State) (k : Coll) (l : Launch), (List.find? (fun x => x.id == k.id) s.colls = some k) ∧ (k.launch = some
      l.id) ∧ (s.launch? l.id = some l) ∧ (l.collDone = false) ∧ (s.collReady k = true) ∧ (k.desc.ckind = 5) ∧
      ((s.scrOwner none k.desc.bar).1 = none) := by
  refine ⟨sAtt 5 false { lau with next := 2 } [], cAtt 5, lAtt 5 false { lau with next := 2 }, ?_, rfl, rfl, ?_, ?_, ?_, ?_⟩ <;>
    decide +kernel

theorem witness_Collectives_n10 :
    ∃ (s : State) (k : Coll) (l : Launch), (List.find? (fun x => x.id == k.id) s.colls = some k) ∧ (k.launch = some
      l.id) ∧ (s.launch? l.id = some l) ∧ (l.collDone = true) ∧ ((∃ t ∈ s.teams, t.launch = l.id) ∨ l.ended = false ∧
      l.next ≠ l.vals.gx * l.vals.gy * l.vals.gz) := by
  refine ⟨sAtt 3 true lau [tm], cAtt 3, lAtt 3 true lau, ?_, rfl, rfl, ?_, ?_⟩ <;>
    decide +kernel

theorem witness_Collectives_n11 :
    ∃ (s : State) (k : Coll) (l : Launch), (List.find? (fun x => x.id == k.id) s.colls = some k) ∧ (k.launch = some
      l.id) ∧ (s.launch? l.id = some l) ∧ (l.collDone = true) ∧ (∀ t ∈ s.teams, t.launch ≠ l.id) ∧ (l.ended = true ∨
      l.next = l.vals.gx * l.vals.gy * l.vals.gz) := by
  refine ⟨sAtt 3 true lau [], cAtt 3, lAtt 3 true lau, ?_, rfl, rfl, ?_, ?_, ?_⟩ <;>
    decide +kernel

/-- A queue of the collective kind, with some entries, and the machine with it as number 1023. -/
def ipq (depthl : Nat) (l : List QEntry) : IpQueue :=
  { en := true, depthl := BitVec.ofNat 4 depthl, cons := 1, prod := 1, entries := l }

def entryQ : QEntry := { payload := 5, tstamp := 1, seqno := 2, srcid := 3, poison := false }

def grpQ : Group := withX [(1, 1023)]

def sQueue (g : Group) (x : IpQueue) : State := { mk g with ipqs := vset s0.ipqs 1023 x }

theorem witness_PartitionQueues_0 :
    ∃ (s : State) (g : Group) (h : Hdr) (wait : Bool) (d a e : Opd) (x : IpQueue) (c : Nat), ((Instr.qpush h wait d a
      e).wellFormed = true) ∧ (s.group? s.cur = some g) ∧ (g.mode = Mode.user) ∧ (s.held g = false) ∧ (g.checkHeld
      [(d, 32), (a, 128)] = Except.ok ()) ∧ (BitVec.toNat (g.uni64 e) < 1024) ∧ (x = s.ipq (BitVec.toNat (g.uni64
      e))) ∧ (x.en = true) ∧ (x.prod.getLsbD (s.accessor g).part = true) ∧ (g.prog = 0) ∧ (g.core = some c) ∧ (c <
      272) ∧ (g.slot < 128) ∧ (x.entries.length + count (g.contributors h) ≤ 2 ^ x.depthl.toNat) := by
  refine ⟨sQueue (grpQ) (ipq 6 []), grpQ, hdr, false, .v 1, .v 4, .x 1, ipq 6 [], 0, ?_, cur_of rfl rfl, ?_, ?_, ?_,
    ?_, (by decide +kernel), ?_, ?_, ?_, ?_, ?_, ?_, ?_⟩ <;>
    decide +kernel

theorem witness_PartitionQueues_1 :
    ∃ (s : State) (g : Group) (h : Hdr) (wait : Bool) (d a e : Opd) (x : IpQueue) (c : Nat), ((Instr.qpush h wait d a
      e).wellFormed = true) ∧ (s.group? s.cur = some g) ∧ (g.mode = Mode.user) ∧ (s.held g = false) ∧ (g.checkHeld
      [(d, 32), (a, 128)] = Except.ok ()) ∧ (BitVec.toNat (g.uni64 e) < 1024) ∧ (x = s.ipq (BitVec.toNat (g.uni64
      e))) ∧ (x.en = true) ∧ (x.prod.getLsbD (s.accessor g).part = true) ∧ (g.prog = 0) ∧ (g.core = some c) ∧ (c <
      272) ∧ (g.slot < 128) ∧ (2 ^ x.depthl.toNat ≤ x.entries.length) ∧ (wait = false) := by
  refine ⟨sQueue (grpQ) (ipq 4 (List.replicate 16 entryQ)), grpQ, hdr, false, .v 1, .v 4, .x 1, ipq 4 (List.replicate
    16 entryQ), 0, ?_, cur_of rfl rfl, ?_, ?_, ?_, ?_, (by decide +kernel), ?_, ?_, ?_, ?_, ?_, ?_, ?_, rfl⟩ <;>
    decide +kernel

theorem witness_PartitionQueues_2 :
    ∃ (s : State) (g : Group) (h : Hdr) (wait : Bool) (d a e : Opd) (x : IpQueue) (c : Nat), ((Instr.qpush h wait d a
      e).wellFormed = true) ∧ (s.group? s.cur = some g) ∧ (g.mode = Mode.user) ∧ (s.held g = false) ∧ (g.checkHeld
      [(d, 32), (a, 128)] = Except.ok ()) ∧ (BitVec.toNat (g.uni64 e) < 1024) ∧ (x = s.ipq (BitVec.toNat (g.uni64
      e))) ∧ (x.en = true) ∧ (x.prod.getLsbD (s.accessor g).part = true) ∧ (g.prog = 0) ∧ (g.core = some c) ∧ (c <
      272) ∧ (g.slot < 128) ∧ (2 ^ x.depthl.toNat ≤ x.entries.length) ∧ (wait = true) ∧ (g.contributors h ≠ 0) := by
  refine ⟨sQueue (grpQ) (ipq 4 (List.replicate 16 entryQ)), grpQ, hdr, true, .v 1, .v 4, .x 1, ipq 4 (List.replicate
    16 entryQ), 0, ?_, cur_of rfl rfl, ?_, ?_, ?_, ?_, (by decide +kernel), ?_, ?_, ?_, ?_, ?_, ?_, ?_, rfl, ?_⟩ <;>
    decide +kernel

theorem witness_PartitionQueues_3 :
    ∃ (s : State) (g : Group) (h : Hdr) (wait : Bool) (stamp : Option Opd) (d b e : Opd) (x : IpQueue) (ent : Nat →
      QEntry) (n : Nat) (ws : List RegWrite), ((Instr.qpop h wait stamp d b e).wellFormed = true) ∧ (s.group? s.cur =
      some g) ∧ (s.held g = false) ∧ (g.checkHeld ([(d, 128), (b, 32)] ++ List.map (fun o => (o, 128)) stamp.toList)
      = Except.ok ()) ∧ (BitVec.toNat (g.uni64 e) < 1024) ∧ (x = s.ipq (BitVec.toNat (g.uni64 e))) ∧ (x.en = true) ∧
      (x.cons.getLsbD (s.accessor g).part = true) ∧ (g.prog = 0) ∧ (n = count (g.contributors h)) ∧ (n ≤
      x.entries.length) ∧ (∀ (j lane : ℕ), (lanesOf (g.contributors h))[j]? = some lane → x.entries[j]? = some (ent
      lane) ∧ (ent lane).poison = false) ∧ (ws = (if g.contributors h = 0 then [] else (g.writesTo d false 128
      (g.contributors h) fun i => (ent i).payload) ++ List.flatMap (fun o => g.writesTo o false 128 (g.contributors
      h) fun i => BitVec.ofNat 128 (BitVec.toNat (ent i).tstamp + 2 ^ 64 * (ent i).seqno.toNat + 2 ^ 112 * (ent
      i).srcid.toNat)) stamp.toList) ++ if g.active h = 0 then [] else g.writesTo b false 32 (g.active h) fun i => if
      BitVec.getLsbD (g.contributors h) i = true then 0 else 2) := by
  refine ⟨sQueue ({ grpQ with exec := 1 }) (ipq 4 [entryQ]), { grpQ with exec := 1 }, hdr, true, some (.v 8), .v 4, .v
    1, .x 1, ipq 4 [entryQ], fun _ => entryQ, 1, _, ?_, cur_of rfl rfl, ?_, ?_, ?_, (by decide +kernel), ?_, ?_, ?_,
    (by decide +kernel), ?_,
    (by intro j lane h; rw [show lanesOf (({ grpQ with exec := 1 } : Group).contributors hdr) = [0] from by decide +kernel] at h; rcases j with _ | j; exact ⟨rfl, rfl⟩; exact (nomatch h)),
    rfl⟩ <;>
    decide +kernel

theorem witness_PartitionQueues_n4 :
    ∃ (s : State) (g : Group) (h : Hdr) (wait : Bool) (stamp : Option Opd) (d b e : Opd) (x : IpQueue), ((Instr.qpop
      h wait stamp d b e).wellFormed = true) ∧ (s.group? s.cur = some g) ∧ (s.held g = false) ∧ (g.checkHeld ([(d,
      128), (b, 32)] ++ List.map (fun o => (o, 128)) stamp.toList) = Except.ok ()) ∧ (BitVec.toNat (g.uni64 e) <
      1024) ∧ (x = s.ipq (BitVec.toNat (g.uni64 e))) ∧ (x.en = true) ∧ (x.cons.getLsbD (s.accessor g).part = true) ∧
      (g.prog = 0) ∧ (x.entries = []) ∧ (wait = false) := by
  refine ⟨sQueue grpQ (ipq 4 []), grpQ, hdr, false, some (.v 8), .v 4, .v 1, .x 1, ipq 4 [], ?_, cur_of rfl rfl, ?_, ?_, ?_,
    (by decide +kernel), ?_, ?_, ?_, rfl, rfl⟩ <;>
    decide +kernel

theorem witness_PartitionQueues_n5 :
    ∃ (s : State) (g : Group) (h : Hdr) (wait : Bool) (stamp : Option Opd) (d b e : Opd) (x : IpQueue), ((Instr.qpop
      h wait stamp d b e).wellFormed = true) ∧ (s.group? s.cur = some g) ∧ (s.held g = false) ∧ (g.checkHeld ([(d,
      128), (b, 32)] ++ List.map (fun o => (o, 128)) stamp.toList) = Except.ok ()) ∧ (BitVec.toNat (g.uni64 e) <
      1024) ∧ (x = s.ipq (BitVec.toNat (g.uni64 e))) ∧ (x.en = true) ∧ (x.cons.getLsbD (s.accessor g).part = true) ∧
      (g.prog = 0) ∧ (x.entries = []) ∧ (wait = true) ∧ (g.contributors h ≠ 0) := by
  refine ⟨sQueue grpQ (ipq 4 []), grpQ, hdr, true, none, .v 4, .v 1, .x 1, ipq 4 [], ?_, cur_of rfl rfl, ?_, ?_, ?_,
    (by decide +kernel), ?_, ?_, ?_, rfl, rfl, ?_⟩ <;>
    decide +kernel

theorem witness_PartitionQueues_n6 :
    ∃ (s : State) (g : Group) (h : Hdr) (wait : Bool) (stamp : Option Opd) (d a b e : Opd) (i : Instr) (may : BitVec
      8), (i.wellFormed = true) ∧ (s.group? s.cur = some g) ∧ (s.held g = false) ∧ (i = Instr.qpop h wait stamp d b e
      ∧ g.checkHeld ([(d, 128), (b, 32)] ++ List.map (fun o => (o, 128)) stamp.toList) = Except.ok () ∧ may = (s.ipq
      (BitVec.toNat (g.uni64 e))).cons ∨ i = Instr.qpush h wait d a e ∧ (wait = true → g.mode = Mode.user) ∧
      g.checkHeld [(d, 32), (a, 128)] = Except.ok () ∧ may = (s.ipq (BitVec.toNat (g.uni64 e))).prod) ∧ (1024 ≤
      BitVec.toNat (g.uni64 e) ∨ (s.ipq (BitVec.toNat (g.uni64 e))).en = false ∨ may.getLsbD (s.accessor g).part =
      false) := by
  refine ⟨mk (withX [(1, 1024)]), withX [(1, 1024)], hdr, true, some (.v 8), .v 4, .v 8, .v 1, .x 1,
    .qpop hdr true (some (.v 8)) (.v 4) (.v 1) (.x 1), 0, ?_, cur_of rfl rfl, ?_,
    (by exact .inl ⟨rfl, by decide +kernel, by decide +kernel⟩), (by exact .inl (by decide +kernel))⟩ <;>
    decide +kernel

/-- A group of one lane whose `V4` and `V5` hold an inbox at offset 128 of core 0. -/
def grpD : Group := { withV [(4, fun _ => 128), (5, fun _ => 0x00C0_0000)] with exec := 1 }

/-- A token for it. -/
def tok (seq : Option Word32) : Token :=
  { id := 8, die := 0, grid := 1, sender := 3, inbox := 0x00C0_0000_0000_0080, dest := some 2, payload := 7, srcid := 0,
    stamp := 0, fork := s0.forkOf grp none, seq := seq }

/-- The machine with an inbox of 16 entries there and a token. -/
def sInbox (t : Token) : State := { (s0.writeNat (scrLoc 0 128) 4 4) with tokens := [t] }

theorem witness_ExpertDispatch_0 :
    ∃ (s s1 : State) (g : Group) (h : Hdr) (a b : Opd) (t : Team) (toks : List Token), ((Instr.dsend h a
      b).wellFormed = true) ∧ (s.group? s.cur = some g) ∧ (g.mode = Mode.user) ∧ (s.held g = false) ∧ (g.checkHeld
      [(a, 128), (b, 64)] = Except.ok ()) ∧ (s.team? g.team = some t) ∧ (g.prog = 0) ∧ (s.tokens.length + 64 ≤ 4096)
      ∧ (∀ (i : ℕ), BitVec.getLsbD (g.contributors h) i = true → SRAM_BASE ≤ BitVec.toNat (g.srcLane b 64 i) ∧
      BitVec.toNat (g.srcLane b 64 i) < SRAM_BASE + 536870912 ∧ BitVec.toNat (g.srcLane b 64 i) % 128 = 0) ∧ (toks =
      (lanesOf (g.contributors h)).zipIdx.map (fun p =>
      { id := s.nextId + p.2, die := dieOf (g.core.getD 0), grid := t.launch, sender := g.id,
        inbox := (g.srcLane b 64 p.1).setWidth 64, dest := (s.scrOwner none ((g.srcLane b 64 p.1).setWidth 64)).1,
        payload := g.srcLane a 128 p.1, srcid := g.gid16, stamp := s.time,
        fork := s.forkOf g (if h.st then s.ordinal g g.pc else none), seq := none })) ∧ (s1 = { s with
      tokens := s.tokens ++ toks, nextId := s.nextId + toks.length }) := by
  refine ⟨mk (grpD), _, grpD, hdr, .v 8, .v 4, tm, _, ?_, cur_of rfl rfl, ?_, ?_, ?_, ?_, ?_, ?_,
    (by intro i hi; rw [show grpD.contributors hdr = 1 from by decide +kernel] at hi; obtain rfl := bit_one hi; decide +kernel),
    rfl, rfl⟩ <;>
    decide +kernel

theorem witness_ExpertDispatch_1 :
    ∃ (s : State) (g : Group) (h : Hdr) (a b : Opd) (i : Nat), ((Instr.dsend h a b).wellFormed = true) ∧ (s.group?
      s.cur = some g) ∧ (g.mode = Mode.user) ∧ (s.held g = false) ∧ (g.checkHeld [(a, 128), (b, 64)] = Except.ok ())
      ∧ (g.prog = 0) ∧ (BitVec.getLsbD (g.contributors h) i = true) ∧ (∀ j < i, BitVec.getLsbD (g.contributors h) j =
      true → SRAM_BASE ≤ BitVec.toNat (g.srcLane b 64 j) ∧ BitVec.toNat (g.srcLane b 64 j) < SRAM_BASE + 536870912 ∧
      BitVec.toNat (g.srcLane b 64 j) % 128 = 0) ∧ (BitVec.toNat (g.srcLane b 64 i) < SRAM_BASE ∨ SRAM_BASE +
      536870912 ≤ BitVec.toNat (g.srcLane b 64 i) ∨ BitVec.toNat (g.srcLane b 64 i) % 128 ≠ 0) := by
  refine ⟨mk { grp with exec := single 63 }, { grp with exec := single 63 }, hdr, .v 8, .v 4, 63, ?_, cur_of rfl rfl, ?_,
    ?_, ?_, ?_, ?_, (by
      intro j hj h
      rw [show ({ grp with exec := single 63 } : Group).contributors hdr = single 63 from by decide +kernel] at h
      rw [bit_single, show (63#6).toNat = 63 from rfl] at h
      exact absurd hj (by rw [← h]; exact Nat.lt_irrefl _)), (by exact .inl (by decide +kernel))⟩ <;>
    decide +kernel

theorem witness_ExpertDispatch_2 :
    ∃ (s : State) (g : Group) (h : Hdr) (d a : Opd) (t : Team) (c off n : Nat), ((Instr.dclose h d a).wellFormed =
      true) ∧ (s.group? s.cur = some g) ∧ (s.held g = false) ∧ (s.team? g.team = some t) ∧ (g.core = some c) ∧
      (BitVec.toNat (g.uni64 a) = LOCAL_BASE + off) ∧ (off < 2 ^ 20) ∧ (s.ownRange t c off 128 = true) ∧ (s.poisonIn
      (scrLoc c off) 16 = none) ∧ (n = s.readNat (scrLoc c (off + 4)) 4) := by
  refine ⟨mk (grpA 8064), grpA 8064, hdr, .x 1, .x 2, tm, 0, 8064, 0, ?_, cur_of rfl rfl, ?_, ?_, ?_, ?_, ?_, ?_, ?_,
    (by decide +kernel)⟩ <;>
    decide +kernel

theorem witness_ExpertDispatch_3 :
    ∃ (s s1 : State) (t : Token) (tm : Team) (c off n : Nat), (Claims.atHome s t tm c off) ∧ (t.seq = none) ∧ (∀ x ∈
      s.tokens.takeWhile (fun x => x.id != t.id), x.sender ≠ t.sender ∨ x.inbox ≠ t.inbox ∨ x.seq ≠ none) ∧
      (s.inboxValid tm c off = true) ∧ (∀ (p : ℕ), (s.part p).arm = false) ∧ (n = s.readNat (scrLoc c off + 4) 4) ∧ (s1 =
      { s with tokens := s.tokens.map (fun (x : Token) => if x.id = t.id then { x with seq := some (BitVec.ofNat 32 n) } else x) }) := by
  refine ⟨sInbox (tok none), _, tok none, tm, 0, 128, 0, (by exact ⟨rfl, rfl, rfl, rfl, by decide +kernel⟩), ?_,
    (by intro x hx; exact (nomatch hx)), ?_, (arms_off rfl), (by decide +kernel), rfl⟩ <;>
    decide +kernel

theorem witness_ExpertDispatch_4 :
    ∃ (s : State) (t : Token) (tm : Team) (c off size delv : Nat) (n : Word32), (Claims.atHome s t tm c off) ∧ (t.seq
      = some n) ∧ (∀ p, (s.part p).arm = false) ∧ (size = 2 ^ (s.readNat (scrLoc c off) 4 % 16)) ∧ (delv = s.readNat
      (scrLoc c off + 8) 4) ∧ (delv = n.toNat) ∧ ((n.toNat + 2 ^ 32 - s.readNat (scrLoc c off + 16) 4) % 2 ^ 32 <
      size) := by
  refine ⟨sInbox (tok (some 0)), tok (some 0), tm, 0, 128, 16, 0, 0,
    (by exact ⟨rfl, rfl, rfl, rfl, by decide +kernel⟩), ?_,
    (arms_off rfl),
    (by decide +kernel), (by decide +kernel), (by decide +kernel), ?_⟩ <;>
    decide +kernel

theorem witness_ExpertDispatch_5 :
    ∃ (s : State) (t : Token) (tm : Team) (c off size delv : Nat) (n : Word32), (Claims.atHome s t tm c off) ∧ (t.seq
      = some n) ∧ (∀ p, (s.part p).arm = false) ∧ (size = 2 ^ (s.readNat (scrLoc c off) 4 % 16)) ∧ (delv = s.readNat
      (scrLoc c off + 8) 4) ∧ (delv ≠ n.toNat ∨ size ≤ (n.toNat + 2 ^ 32 - s.readNat (scrLoc c off + 16) 4) % 2 ^ 32) := by
  refine ⟨sInbox (tok (some 1)), tok (some 1), tm, 0, 128, 16, 0, 1,
    (by exact ⟨rfl, rfl, rfl, rfl, by decide +kernel⟩), ?_,
    (arms_off rfl),
    (by decide +kernel), (by decide +kernel), (by exact .inl (by decide +kernel))⟩ <;>
    decide +kernel

theorem witness_ExpertDispatch_6 :
    ∃ (s : State) (t : Token) (n : Word32), (s.tokens.find? (fun x => x.id == t.id) = some t) ∧ (t.dest.bind s.team? =
      none) ∧ (t.seq = some n) := by
  refine ⟨sInbox { tok (some 1) with dest := none }, { tok (some 1) with dest := none }, 1, (by rfl), (by rfl), ?_⟩
    <;>
    decide +kernel

theorem witness_ExpertDispatch_7 :
    ∃ (s : State) (g : Group) (since inbox : Word64) (c lane : Nat), (s.group? g.id = some g) ∧ (g.core = some c) ∧
      (g.wait = some (.sendq since lane inbox false)) ∧ (2 ^ 24 ≤ s.clocksSince since) := by
  refine ⟨{ mk { grp with wait := some (.sendq 0 5 0x00C0_0000_0000_0080 false) } with time := 2 ^ 40 },
    { grp with wait := some (.sendq 0 5 0x00C0_0000_0000_0080 false) }, 0, 0x00C0_0000_0000_0080, 0, 5, of_id rfl, ?_,
    ?_, ?_⟩ <;>
    decide +kernel

theorem witness_ExpertDispatch_8 :
    ∃ (s : State) (g : Group) (since header : Word64) (notw : Word32) (c : Nat), (s.group? g.id = some g) ∧ (g.core =
      some c) ∧ (g.wait = some (.ring since header notw false)) ∧ (s.readNat (scrLoc c (header.toNat - LOCAL_BASE +
      4)) 4 = notw.toNat) ∧ (2 ^ 24 ≤ s.clocksSince since) := by
  refine ⟨{ mk { grp with wait := some (.ring 0 0x00C0_0000_2000_0000 0 false) } with time := 2 ^ 40 },
    { grp with wait := some (.ring 0 0x00C0_0000_2000_0000 0 false) }, 0, 0x00C0_0000_2000_0000, 0, 0, of_id rfl, ?_,
    (by rfl), (by decide +kernel), ?_⟩ <;>
    decide +kernel

theorem witness_ExpertDispatch_n4 :
    ∃ (s : State) (t : Token), (List.find? (fun x => x.id == t.id) s.tokens = some t) ∧ (t.seq = none) ∧ (∀ x ∈
      List.takeWhile (fun x => x.id != t.id) s.tokens, x.sender ≠ t.sender ∨ x.inbox ≠ t.inbox ∨ x.seq ≠ none) ∧
      (t.dest.bind s.team? = none ∨ ∃ tm, t.dest.bind s.team? = some tm ∧ (tm.launch ≠ t.grid ∨ ∃ c, tm.core = some c
      ∧ s.inboxValid tm c ((BitVec.toNat t.inbox - SRAM_BASE) % 2 ^ 20) = false)) := by
  refine ⟨{ s0 with tokens := [{ tok none with dest := none }] }, { tok none with dest := none }, ?_, ?_,
    (by intro x hx; exact (nomatch hx)), (by exact .inl rfl)⟩ <;>
    decide +kernel

/-- A copy of 16 bytes inside the allocation, 256 bytes on. -/
def cmd1 : Cmd :=
  { cmd0 with
    id := 7
    entry := BitVec.ofNat 256 (16 * 2 ^ 32 + 0x00C0_0000_2000_0000 * 2 ^ 128 + 0x00C0_0000_2000_0100 * 2 ^ 192) }

/-- The machine with some commands. -/
def sCmds (l : List Cmd) : State := { s0 with cmds := l }

theorem witness_CopiesRun_0 :
    ∃ (s : State) (c : Cmd), (s.cmd? c.id = some c) ∧ (c.started = false) ∧ (s.cmdPlaced c = true) ∧ (∀ d ∈
      List.takeWhile (fun d => d.id != c.id) s.cmds, d.core = c.core → d.started = true ∧ eKind d.entry ≠ 5 ∨
      Claims.away s d ∧ (d.team ≠ c.team ∨ eKind d.entry ≠ 5)) ∧ (eKind c.entry = 5 → ∀ d ∈ List.takeWhile (fun d => d.id != c.id) s.cmds, d.core = c.core →
      d.team = c.team → eKind d.entry = 3 → tEnt d.recBits = true → tEtab d.recBits ≠ (eTid c.entry).toNat) := by
  refine ⟨sCmds [{ cmd1 with id := 6, started := true }, cmd1], cmd1, ?_, ?_, ?_, (by
      intro d hd _
      rw [show ((sCmds [{ cmd1 with id := 6, started := true }, cmd1]).cmds.takeWhile (fun d => d.id != cmd1.id))
        = [{ cmd1 with id := 6, started := true }] from by decide +kernel] at hd
      obtain rfl := List.mem_singleton.mp hd
      exact .inl ⟨rfl, by decide +kernel⟩), (by intro h; exact absurd h (by decide +kernel))⟩ <;>
    decide +kernel

theorem witness_CopiesRun_1 :
    ∃ (s : State) (c d : Cmd), (s.cmd? c.id = some c) ∧ (d ∈ List.takeWhile (fun x => x.id != c.id) s.cmds) ∧ (d.core
      = c.core) ∧ (d.started = false ∧ ¬Claims.away s d ∨ d.started = true ∧ eKind d.entry = 5 ∨
      Claims.away s d ∧ d.team = c.team ∧ eKind d.entry = 5) := by
  refine ⟨sCmds [{ cmd1 with id := 6 }, cmd1], cmd1, { cmd1 with id := 6 }, ?_, ?_, ?_,
    .inl ⟨rfl, fun h => absurd h.2 (by decide +kernel)⟩⟩ <;>
    decide +kernel

theorem witness_CopiesRun_2 :
    ∃ (s : State) (c : Cmd) (u src dst n : Nat) (d : Word64), (s.cmd? c.id = some c) ∧ (c.started = true) ∧ (u <
      c.units) ∧ (u ∉ c.landed) ∧ (eKind c.entry = 0) ∧ (c.trec = none) ∧ (s.poison = []) ∧ (Memory.wf s.mem = true) ∧
      (∀ p, (s.part p).arm = false) ∧ (c.dstOf u = some (d, n)) ∧ (∀ k < n, pageLoc (some c.core) c.pages (plus d k) =
      dst + k ∧ pageLoc (some c.core) c.pages (plus (eSrc c.entry) ((d - eDst c.entry).toNat + k)) = src + k) := by
  refine ⟨sCmds [{ cmd1 with started := true }], { cmd1 with started := true }, 0, scrLoc 0 0, scrLoc 0 256, 16,
    0x00C0_0000_2000_0100, ?_, ?_, ?_, ?_, ?_, ?_, ?_, ?_,
    (arms_off rfl),
    ?_, ?_⟩ <;>
    decide +kernel

theorem witness_CopiesRun_3 :
    ∃ (s s1 : State) (c : Cmd) (bar status : Nat) (rows : Prop), (s.cmd? c.id = some c) ∧ (c.started = true) ∧
      (c.landed.length = c.units) ∧ (c.decodeFail = false) ∧ (∀ (p : ℕ), (s.part p).arm = false) ∧ (bar = scrLoc
      c.core (16 * eBar c.entry)) ∧ (rows = (eKind c.entry = 1 ∨ eKind c.entry = 2)) ∧ (status = 0 ∨ status = 2) ∧
      (status = 2 ↔ rows ∧ ∃ r < eCount c.entry, eAux c.entry ≤ Claims.row c r ∧ Claims.row c r ≠ 4294967295) ∧ (∀
      (count : ℕ), (rows → count = eCount c.entry) → (¬rows → count = 0) → s1 = s.write (scrLoc c.core c.recOff)
      (bytesOf 8 (BitVec.toNat c.tstamp) ++ bytesOf 6 c.seqno.toNat ++ bytesOf 2 (status + if c.poison = true then 4
      else 0) ++ bytesOf 4 (BitVec.toNat c.spord) ++ bytesOf 4 count ++ bytesOf 8 (BitVec.toNat s.time))) ∧ (rows ∨
      eArrv c.entry = false) := by
  refine ⟨sCmds [{ cmd1 with started := true, landed := [0] }],
    (sCmds [{ cmd1 with started := true, landed := [0] }]).write (scrLoc 0 cmd1.recOff) (bytesOf 8 (BitVec.toNat cmd1.tstamp) ++
      bytesOf 6 cmd1.seqno.toNat ++ bytesOf 2 0 ++ bytesOf 4 (BitVec.toNat cmd1.spord) ++ bytesOf 4 0 ++ bytesOf 8 0),
    { cmd1 with started := true, landed := [0] }, scrLoc 0 (16 * eBar cmd1.entry), 0, _, ?_, ?_, ?_, ?_, (arms_off rfl),
    ?_, rfl, (by exact .inl rfl),
    (by exact ⟨fun h => absurd h (by decide), fun h => absurd h.1 (by decide +kernel)⟩),
    (by intro n _ h; rw [h (by decide +kernel)]; rfl), (by exact .inr (by decide +kernel))⟩ <;>
    decide +kernel

/-- A `GATHER` of one row of 16 bytes out of four, by index i, its barrier object at offset 16. -/
def cmdG (i : Nat) : Cmd :=
  { cmd1 with
    started := true, idx := [BitVec.ofNat 32 i]
    entry := BitVec.ofNat 256 (1 + 16 * 2 ^ 16 + 2 ^ 32 + 2 ^ 80 + 4 * 2 ^ 96 + 0x00C0_0000_2000_0000 * 2 ^ 128 +
      0x00C0_0000_2000_0100 * 2 ^ 192) }

theorem witness_CopiesRun_n3 :
    ∃ (s : State) (c : Cmd) (u src dst n bar : Nat) (d sr : Word64) (ar : Prop), (s.cmd? c.id = some c) ∧ (c.started
      = true) ∧ (u < c.units) ∧ (u ∉ c.landed) ∧ (Claims.carried c u = some (d, sr, n)) ∧ (Claims.untouched c u dst
      n) ∧ (s.poison = []) ∧ (Memory.wf s.mem = true) ∧ (∀ (p : ℕ), (s.part p).arm = false) ∧ (bar = scrLoc c.core
      (16 * eBar c.entry)) ∧ (ar = ((eKind c.entry = 1 ∨ eKind c.entry = 2) ∧ eArrv c.entry = true)) ∧ (ar → dst + n
      ≤ bar ∨ bar + 16 ≤ dst) ∧ (∀ k < n, pageLoc (some c.core) c.pages (plus d k) = dst + k ∧ pageLoc (some c.core)
      c.pages (plus sr k) = src + k) := by
  refine ⟨sCmds [cmdG 1], cmdG 1, 0, scrLoc 0 16, scrLoc 0 256, 16, scrLoc 0 (16 * eBar (cmdG 1).entry),
    0x00C0_0000_2000_0100, 0x00C0_0000_2000_0010, _, ?_, ?_, ?_, ?_, ?_,
    (by exact ⟨fun h => absurd h (by decide +kernel), fun h => absurd h (by decide +kernel)⟩), ?_, ?_, (arms_off rfl), rfl,
    rfl, (by intro h; exact absurd h (by decide +kernel)), ?_⟩ <;>
    decide +kernel

theorem witness_CopiesRun_n4 :
    ∃ (s : State) (c : Cmd) (u loc : Nat) (b : Barrier), (s.cmd? c.id = some c) ∧ (c.started = true) ∧ (u < eCount
      c.entry) ∧ (u ∉ c.landed) ∧ (∀ (p : ℕ), (s.part p).arm = false) ∧ (eKind c.entry = 1 ∧ Claims.row c u =
      4294967295 ∨ eKind c.entry = 2 ∧ eAux c.entry ≤ Claims.row c u) ∧ (loc = scrLoc c.core (16 * eBar c.entry)) ∧
      (b = { s.barrier loc with
        noor := if Claims.row c u = 4294967295 then (s.barrier loc).noor else min 65535 ((s.barrier loc).noor + 1),
        nskip := if Claims.row c u = 4294967295 then min 65535 ((s.barrier loc).nskip + 1) else (s.barrier loc).nskip }) := by
  refine ⟨sCmds [cmdG 0xFFFF_FFFF], cmdG 0xFFFF_FFFF, 0, scrLoc 0 16, _, ?_, ?_, ?_, ?_, (arms_off rfl),
    (by exact .inl (by decide +kernel)), ?_, rfl⟩ <;>
    decide +kernel

theorem witness_CopiesRun_n5 :
    ∃ (s : State) (c : Cmd) (u dst n bar : Nat) (d : Word64) (ar : Prop), (s.cmd? c.id = some c) ∧ (c.started = true)
      ∧ (u ∉ c.landed) ∧ (eKind c.entry = 1) ∧ (Memory.wf s.mem = true) ∧ (∀ (p : ℕ), (s.part p).arm = false) ∧ (bar
      = scrLoc c.core (16 * eBar c.entry)) ∧ (ar = (u < eCount c.entry ∧ eArrv c.entry = true)) ∧ (ar → dst + n ≤ bar
      ∨ bar + 16 ≤ dst) ∧ (u < eCount c.entry ∧ eAux c.entry ≤ Claims.row c u ∧ Claims.row c u ≠ 4294967295 ∧ n =
      eRowb c.entry ∨ u = eCount c.entry ∧ n = 4 * ((eCount c.entry + 31) / 32)) ∧ (d = plus (eDst c.entry) (u *
      eRowb c.entry)) ∧ (∀ k < n, pageLoc (some c.core) c.pages (plus d k) = dst + k) := by
  refine ⟨sCmds [cmdG 4], cmdG 4, 0, scrLoc 0 256, 16, scrLoc 0 (16 * eBar (cmdG 4).entry), 0x00C0_0000_2000_0100, _, ?_, ?_, ?_,
    ?_, ?_, (arms_off rfl), rfl, rfl, (by intro h; exact absurd h (by decide +kernel)), (by exact .inl (by decide +kernel)), ?_, ?_⟩ <;>
    decide +kernel

/-- A `TLOAD` of one coded element from one byte, of the code that entry 0 of its table gives. -/
def cmdT : Cmd :=
  { cmd1 with
    started := true, trec := some ⟨3, recT 0 64 8 64 256 (2 ^ 14)⟩, dts := some [List.replicate 256 0x1000_0005]
    entry := BitVec.ofNat 256 (3 + 2 ^ 32 + 2 ^ 96 + 0x00C0_0000_2000_0000 * 2 ^ 128 + 0x00C0_0000_2000_0100 * 2 ^ 192) }

theorem witness_CopiesRun_n6 :
    ∃ (s : State) (c : Cmd) (src dst w : Nat) (es : List Word32) (out : List Nat), (s.cmd? c.id = some c) ∧
      (c.started = true) ∧ (c.landed = []) ∧ (eKind c.entry = 3) ∧ (tEnt c.recBits = true) ∧ (s.poison = []) ∧
      (Memory.wf s.mem = true) ∧ (∀ (p : ℕ), (s.part p).arm = false) ∧ (w = tWidth c.recBits) ∧ (w = 4 ∨ w = 8) ∧ (∀
      k < eAux c.entry, pageLoc (some c.core) c.pages (plus (eSrc c.entry) k) = src + k) ∧ (∀ k < rowBytes c.recBits
      (eCount c.entry), pageLoc (some c.core) c.pages (plus (eDst c.entry) k) = dst + k) ∧ (Claims.decoded
      ((s.tablesOf c).getD (tEtab c.recBits) []) (List.map (fun k => s.read8 (src + k)) (List.range (eAux c.entry)))
      w es 0 out) ∧ (out.length = eCount c.entry) := by
  refine ⟨sCmds [cmdT], cmdT, scrLoc 0 0, scrLoc 0 256, 8, [0x1000_0005], [5], ?_, ?_, ?_, ?_, ?_, ?_, ?_,
    (arms_off rfl),
    ?_, (by exact .inr rfl), ?_, ?_, (by refine ⟨?_, ?_, ?_, ?_, [5], [], rfl, rfl, ?_⟩ <;> decide +kernel), ?_⟩ <;>
    decide +kernel

/-- A `DTLOAD` or an `SLOAD` of 64 bytes. -/
def cmdK (kind : Nat) : Cmd :=
  { cmd1 with
    started := true
    entry := BitVec.ofNat 256 (kind + 64 * 2 ^ 32 + 0x00C0_0000_2000_0000 * 2 ^ 128) }

theorem witness_CopiesRun_n7 :
    ∃ (s : State) (c : Cmd) (tm : Team) (src : Nat), (s.cmd? c.id = some c) ∧ (c.started = true) ∧ (c.landed = []) ∧
      (s.team? c.team = some tm) ∧ (s.poison = []) ∧ (eKind c.entry = 5) ∧ (∀ k < 1024, pageLoc (some c.core) c.pages
      (plus (eSrc c.entry) k) = src + k) := by
  refine ⟨sCmds [cmdK 5], cmdK 5, tm, scrLoc 0 0, ?_, ?_, ?_, (by rfl), ?_, ?_, ?_⟩ <;>
    decide +kernel

theorem witness_CopiesRun_n8 :
    ∃ (s : State) (c : Cmd) (tm : Team) (src : Nat), (s.cmd? c.id = some c) ∧ (c.started = true) ∧ (c.landed = []) ∧
      (s.team? c.team = some tm) ∧ (s.poison = []) ∧ (eKind c.entry = 6) ∧ (∀ k < eCount c.entry, pageLoc (some
      c.core) c.pages (plus (eSrc c.entry) k) = src + k) ∧ (BitVec.toNat (eDst c.entry) + eCount c.entry ≤
      tm.scale.length) := by
  refine ⟨sCmds [cmdK 6], cmdK 6, tm, scrLoc 0 0, ?_, ?_, ?_, (by rfl), ?_, ?_, ?_, ?_⟩ <;>
    decide +kernel

/-- A copy with `ARRV` whose one unit has landed. -/
def cmdA : Cmd := { cmd1 with started := true, landed := [0], entry := cmd1.entry ||| BitVec.ofNat 256 (2 ^ 6) }

theorem witness_CopiesRun_n9 :
    ∃ (s s1 : State) (c : Cmd) (bar status : Nat) (rows : Prop), (s.cmd? c.id = some c) ∧ (c.started = true) ∧
      (c.landed.length = c.units) ∧ (c.decodeFail = false) ∧ (∀ (p : ℕ), (s.part p).arm = false) ∧ (bar = scrLoc
      c.core (16 * eBar c.entry)) ∧ (rows = (eKind c.entry = 1 ∨ eKind c.entry = 2)) ∧ (status = 0 ∨ status = 2) ∧
      (status = 2 ↔ rows ∧ ∃ r < eCount c.entry, eAux c.entry ≤ Claims.row c r ∧ Claims.row c r ≠ 4294967295) ∧ (∀
      (count : ℕ), (rows → count = eCount c.entry) → (¬rows → count = 0) → s1 = s.write (scrLoc c.core c.recOff)
      (bytesOf 8 (BitVec.toNat c.tstamp) ++ bytesOf 6 c.seqno.toNat ++ bytesOf 2 (status + if c.poison = true then 4
      else 0) ++ bytesOf 4 (BitVec.toNat c.spord) ++ bytesOf 4 count ++ bytesOf 8 (BitVec.toNat s.time))) ∧ (¬rows) ∧
      (eArrv c.entry = true) := by
  refine ⟨sCmds [cmdA], (sCmds [cmdA]).write (scrLoc 0 cmd1.recOff) (bytesOf 8 (BitVec.toNat cmd1.tstamp) ++
      bytesOf 6 cmd1.seqno.toNat ++ bytesOf 2 0 ++ bytesOf 4 (BitVec.toNat cmd1.spord) ++ bytesOf 4 0 ++ bytesOf 8 0),
    cmdA, scrLoc 0 (16 * eBar cmdA.entry), 0, _, ?_, ?_, ?_, ?_, (arms_off rfl), ?_, rfl, (by exact .inl rfl),
    (by exact ⟨fun h => absurd h (by decide), fun h => absurd h.1 (by decide +kernel)⟩),
    (by intro n _ h; rw [h (by decide +kernel)]; rfl), ?_, ?_⟩ <;>
    decide +kernel

/-- A result that is still out: of X1, or of a load that waits for a line. -/
def out (load : Option LoadInfo) : Long :=
  { id := 7, writes := [.x 1 5], tr := false, returned := false, unit := .memory, load := load, poison := [], gate := none,
    at_ := 0x4000, spord := 0, prior := none }

/-- A group with results and a wait. -/
def grpP (l : List Long) (w : Option Wait) : Group := { grp with pend := l, wait := w }

/-- What waits on line 0 of the allocation, in one lane. -/
def waitL : LoadInfo :=
  { ty := .i8, dst := .v 1, uni := false, acq := false, active := single 63, helper := 0,
    lanes := [{ lane := 63, va := 0x00C0_0000_2000_007F, loc := scrLoc 0 127, fill := none }] }

theorem witness_ResultsReturn_0 :
    ∃ (s : State) (g : Group) (k : Nat) (l : Long) (c : Nat), (s.group? g.id = some g) ∧ (g.core = some c) ∧
      (g.pend[k]? = some l) ∧ (l.returned = false) ∧ (l.unit ≠ .keyTable) ∧ (l.unit ≠ .chord) ∧ (l.load = none) ∧ (∀
      off n, l.gate = some (off, n) → (BitVec.ofNat 32 (s.readNat (scrLoc c (off + 8)) 4) - n).toNat < 2 ^ 31) := by
  refine ⟨mk (grpP [out none] none), grpP [out none] none, 0, out none, 0, of_id rfl, ?_, ?_, ?_, ?_, ?_, ?_,
    (by intro off n h; exact (nomatch h))⟩ <;>
    decide +kernel

theorem witness_ResultsReturn_1 :
    ∃ (s : State) (g : Group) (c : Nat), (s.group? g.id = some g) ∧ (g.core = some c) ∧ (g.wait = some .switch) ∧ (∀ l
      ∈ g.pend, l.returned = true ∧ l.poison = []) ∧ ((s.part (s.accessor g).part).halted = false) := by
  refine ⟨mk (grpP [{ out none with returned := true }] (some .switch)), grpP [{ out none with returned := true }]
    (some .switch), 0, of_id rfl, ?_, ?_, ?_, ?_⟩ <;>
    decide +kernel

theorem witness_ResultsReturn_2 :
    ∃ (s : State) (g : Group) (k : Nat) (lane : BitVec 6) (l : Long) (i : LoadInfo) (w : WaitLane) (loc c width :
      Nat), (s.group? g.id = some g) ∧ (g.core = some c) ∧ (s.teamRuns g = true) ∧ (g.pend[k]? = some l) ∧ (l.load =
      some i) ∧ (List.find? (fun x => x.lane == lane) i.lanes = some w) ∧ (s.place (s.accessor g) Use.read w.va =
      Except.ok (Place.mem loc)) ∧ (isScr loc = true → s.isFull loc = true ∨ ∃ n, w.fill = some n ∧ tally (lineOf
      loc) s.fills ≠ n) ∧ (∀ q ∈ g.allPend, q.id < l.id → ∀ (j : LoadInfo), q.load = some j → ∀ x ∈ j.lanes, lineOf
      x.loc ≠ lineOf loc) ∧ (s.poison = []) ∧ ((s.part (s.accessor g).part).arm = false) ∧ (width = max i.ty.width
      (if i.dst.isX = true then 64 else 32)) := by
  refine ⟨mk (grpP [out (some waitL)] none), grpP [out (some waitL)] none, 0, 63, out (some waitL), waitL,
    { lane := 63, va := 0x00C0_0000_2000_007F, loc := scrLoc 0 127, fill := none }, scrLoc 0 127, 0, 32, of_id rfl, ?_,
    ?_, ?_, ?_, ?_, ?_, (by intro _; exact .inl (by decide +kernel)), (by
      intro q hq hlt
      rw [show (grpP [out (some waitL)] none).allPend = [out (some waitL)] from rfl] at hq
      obtain rfl := List.mem_singleton.mp hq
      exact absurd hlt (Nat.lt_irrefl _)), ?_, ?_, (by decide +kernel)⟩ <;>
    decide +kernel

theorem witness_ResultsReturn_3 :
    ∃ (s : State) (g : Group) (loc : Nat) (bits : BitVec 512), (s.group? g.id = some g) ∧ (s.teamRuns g = true) ∧
      (g.halted = none) ∧ (g.lineAt g.pc = none) ∧ (s.locOf (s.accessor g) .fetch (lineAddr g.pc) = .ok loc) ∧ (bits =
      BitVec.ofNat 512 (s.readNat loc 64)) ∧ (lineParity bits = bits.extractLsb' 480 16) ∧ (s.poisonIn loc 64 = none) := by
  refine ⟨sFetch, { grp with pc := 0x5000 }, 0x5000, tgtLine, of_id rfl, ?_, ?_, ?_, ?_, (by decide +kernel), ?_, ?_⟩
    <;>
    decide +kernel

theorem witness_ResultsReturn_4 :
    ∃ (s : State) (g : Group) (scope : TlbScope) (arg : Word64) (c : Nat), (s.group? g.id = some g) ∧ (g.core = some
      c) ∧ (g.wait = some (.tlbinv scope arg false)) ∧ ((s.part (s.accessor g).part).halted = false) ∧ (∀ k ∈ s.cmds,
      ∀ p ∈ k.pages, inScope scope arg (s.accessor g).part k.part p = false) ∧ (∀ k ∈ s.colls, ∀ m ∈ k.members, ∀ p ∈
      m.pages, inScope scope arg (s.accessor g).part m.fork.part p = false) ∧ (∀ t ∈ s.teams, ∀ k, some k ∈ t.kts → ∀
      p ∈ k.pages, inScope scope arg (s.accessor g).part (s.partOf t) p = false) := by
  refine ⟨mk (grpP [] (some (.tlbinv .all 0 false))), grpP [] (some (.tlbinv .all 0 false)), .all, 0, 0, of_id rfl,
    ?_, ?_, ?_, ?_, ?_,
    (by intro t ht k hk; obtain rfl := List.mem_singleton.mp ht; exact (nomatch List.eq_of_mem_replicate (show some k ∈ List.replicate 2 none from hk)))⟩
    <;>
    decide +kernel

theorem witness_StreamResults_n7 :
    ∃ (s : State) (g : Group) (h : Hdr) (d a b : Opd) (l : Long), ((Instr.sbit h d a b).wellFormed = true) ∧
      (s.group? s.cur = some g) ∧ (s.heldAcq g = false) ∧ (g.prog ≠ 0) ∧ (g.pend.getLast? = some l) ∧ (l.returned =
      true) := by
  refine ⟨mk { grpP [{ out none with returned := true }] none with prog := 1 }, { grpP [{ out none with returned := true }] none with prog := 1 },
    hdr, .m 7, .s 3, .x 0, { out none with returned := true }, ?_, cur_of rfl rfl, ?_, ?_, rfl, rfl⟩ <;>
    decide +kernel

theorem witness_PoolAndBins_0 :
    ∃ (s : State) (g : Group) (c : Nat) (r : PoolReq) (rest : List PoolReq) (lo hi : Bool), (c < 272) ∧ ((s.core
      c).poolReqs = r :: rest) ∧ (∀ b ∈ (s.core c).bins, b.fired = false) ∧ (s.heldBlocks c + r.blocks ≤ (s.core
      c).xlimit.toNat) ∧ (s.group? r.gid = some g) ∧ (s.haltReached g = false) ∧ (g.wait = some (.xgrow lo hi false)) := by
  refine ⟨(mk (grpP [] (some (.xgrow true true false)))).modCore 0 (fun c =>
    { c with xlimit := 2, poolReqs := [⟨3, 2, 0⟩] }), grpP [] (some (.xgrow true true false)), 0, ⟨3, 2, 0⟩, [], true,
    true, ?_, ?_, ?_, ?_, (by exact of_id (g := grpP [] (some (.xgrow true true false))) rfl), ?_, ?_⟩ <;>
    decide +kernel

/-- A team stuck on the pool: its group holds one block and waits for one more than the core has. -/
def grpX : Group := { grpP [] (some (.xgrow false true false)) with lo := true }

def sStuck : State :=
  { ((mk grpX).modCore 0 (fun c => { c with xlimit := 1, poolReqs := [⟨3, 1, 0⟩] })).modPart 0
      (fun p => { p with pswap := BitVec.ofNat 128 (64 * 2 ^ 96) }) with time := 2 ^ 40 }

/-- A group alone has nothing out. -/
theorem settled_one {s : State} {g : Group} {t : Team} {c : Nat} (hg : s.groups = [g]) (hp : g.allPend = [])
    (hf : g.firmware = none)
    (hw : g.wait = none ∨ ∃ lo hi sw, g.wait = some (.xgrow lo hi sw)) (ht : (s.core c).tileReqs = [])
    (hr : (s.core c).poolReqs = [] ∨
      ∃ r rest, (s.core c).poolReqs = r :: rest ∧ Claims.poolHeld s c r) :
    Claims.settled s t c := by
  refine ⟨fun q hq _ => ?_, by simp [hg], .inl ht, hr⟩
  rw [hg] at hq
  obtain rfl := List.mem_singleton.mp hq
  exact ⟨hp, hf, hw⟩

/-- A bin of a core. -/
def bin (w : BinWork) (fired : Bool) : Bin := { work := w, opened := 0, fired := fired, ord := 0, since := 0, raised := false }

def sBin (b : Bin) (g : Group) : State := { (mk g).modCore 0 (fun c => { c with bins := [b] }) with time := 2 ^ 40 }

/-- The items of a full bin. -/
def items64 : List SpawnItem := List.replicate 64 { words := Vector.replicate 4 7, charge := 2 }

theorem witness_PoolAndBins_2 :
    ∃ (s : State) (c i : Nat) (b : Bin), ((s.core c).bins[i]? = some b) ∧ (b.fired = false) ∧ (max 1 (s.core
      c).bintime.toNat ≤ s.clocksSince b.opened) := by
  refine ⟨sBin (bin (.spawn 1 0x5000 16 []) false) grp, 0, 0, bin (.spawn 1 0x5000 16 []) false, ?_, ?_, ?_⟩ <;>
    decide +kernel

theorem witness_PoolAndBins_3 :
    ∃ (s : State) (c i : Nat) (b : Bin) (l : Launch) (entry : Word64) (vregs : Nat) (items : List SpawnItem),
      ((s.core c).bins[i]? = some b) ∧ (b.fired = true) ∧ (b.work = BinWork.spawn l.id entry vregs items) ∧ (32 <
      vregs → Claims.binRoom s c vregs b) ∧ (∀ w ∈ s.waitingAll l.part, w.before (Claims.binPlace s l c i b) = false)
      ∧ (items.length ≤ 64) ∧ (s.launch? l.id = some l) ∧ ((s.core c).part = BitVec.ofNat 4 l.part) ∧ (l.part < 8) ∧
      ((s.core c).moving = false) ∧ (c < 272) ∧ (∃ k < 128, ∀ g ∈ s.groups, g.core = some c → g.slot ≠ k) ∧
      ((List.map (fun t => t.id) s.teams).Nodup) ∧ (∀ t ∈ s.teams, t.id < s.nextId ∧ (t.spawn = true → t.core = some
      c → t.swap = Swap.resident)) := by
  refine ⟨sBin (bin (.spawn 1 0x5000 32 items64) true) grp, 0, 0, bin (.spawn 1 0x5000 32 items64) true, lau, 0x5000,
    32, items64, ?_, ?_, ?_, (by intro h; exact absurd h (by decide)), ?_, ?_, ?_, ?_, ?_, ?_, ?_,
    (by exact ⟨127, by decide +kernel, by decide +kernel⟩), ?_, ?_⟩ <;>
    decide +kernel

/-- A caller whose lane 63 waits in a pooled bin. -/
def grpW1 : Group := { grp with wait := some .widthpark, calling := some callingW }

def laneW : CallLane := { w := 0, members := [{ caller := 3, lane := 63, depth := 1, args := [] }], closed := false }

theorem witness_PoolAndBins_4 :
    ∃ (s : State) (g : Group) (c off : Nat) (b : Bin) (t : Team) (tgt : CallTarget) (lanes : List CallLane) (call :
      Calling), ((s.core c).bins = [b]) ∧ (c < 272) ∧ (b.fired = true) ∧ (b.work = BinWork.call t.id g.pc tgt lanes)
      ∧ (s.team? t.id = some t) ∧ (t.core = some c) ∧ (t.swap = Swap.resident) ∧ (max 1 (s.core c).bintime.toNat ≤
      s.clocksSince b.since) ∧ (lanes ≠ []) ∧ (∀ x ∈ lanes, x.members ≠ [] ∧ ∀ m ∈ x.members, m.caller = g.id) ∧
      (s.group? g.id = some g) ∧ (g.team = t.id) ∧ (g.core = some c) ∧ (g.calling = some call) ∧ (call.tgt = tgt) ∧
      (s.haltReached g = false) ∧ (Memory.wf s.mem = true) ∧ (s.findArea t tgt.frameSize = some off) := by
  refine
    ⟨{ sBin (bin (.call 2 0x4000 callW [laneW]) true) grpW1 with launches := [{ lau with vals := { lau.vals with frstk := 5120 } }] },
    grpW1, 0, 4096, bin (.call 2 0x4000 callW [laneW]) true, tm, callW, [laneW], callingW, ?_, ?_, ?_, ?_, ?_, ?_, ?_,
    (by decide +kernel), ?_, ?_, of_id rfl, ?_, ?_, ?_, ?_, ?_, ?_, ?_⟩ <;>
    decide +kernel

theorem witness_PoolAndBins_n1 :
    ∃ (s : State) (c : Nat) (r : PoolReq) (rest : List PoolReq), ((s.core c).poolReqs = r :: rest) ∧ (Claims.poolHeld
      s c r) := by
  refine ⟨sStuck, 0, ⟨3, 1, 0⟩, [], ?_, (by exact .inl (by decide +kernel))⟩
  decide +kernel

theorem witness_PoolAndBins_n2 :
    ∃ (s : State) (c : Nat) (t : Team) (holds : Team → Prop), (c < 272) ∧ ((s.core c).growing = true ∨ 1024 ≤
      s.clocksSince (s.core c).lastIssue) ∧ (((∃ r rest, (s.core c).poolReqs = r :: rest ∧ Claims.poolHeld s c r) ∧
      holds = fun q => ∃ g ∈ s.groups, g.team = q.id ∧ g.blocks ≠ 0) ∨ (s.core c).poolReqs = [] ∧ (∃ r rest, (s.core
      c).tileReqs = r :: rest ∧ TILES < s.tilesUsed c + r.blocks) ∧ holds = fun q => ∃ k ∈ s.gangs, k.team = q.id) ∧
      (∀ q ∈ s.teams, q.core = some c → q.swap = Swap.resident) ∧ (s.team? t.id = some t) ∧ (t.core = some c) ∧
      ((s.part (s.partOf t)).halted = false) ∧ (holds t) ∧ (∀ q ∈ s.teams, q.core = some c → q ≠ t → holds q →
      (s.part (s.partOf q)).halted = true ∨ Claims.goesFirst s t q) ∧ (s.areaRoom (s.partOf t) [t] = true) ∧
      (Claims.settled s t c) := by
  refine ⟨sStuck, 0, tm, fun q => ∃ g ∈ sStuck.groups, g.team = q.id ∧ g.blocks ≠ 0, ?_, (by exact .inr (by decide +kernel)),
    (by exact .inl ⟨⟨⟨3, 1, 0⟩, [], by decide +kernel, .inl (by decide +kernel)⟩, rfl⟩), ?_, (by rfl), ?_, ?_,
    (by exact ⟨grpX, List.mem_singleton.mpr rfl, rfl, by decide +kernel⟩),
    (by intro q hq _ hn; exact absurd (List.mem_singleton.mp hq) hn), ?_,
    (by exact settled_one (g := grpX) rfl rfl rfl (.inr ⟨_, _, _, rfl⟩) (by decide +kernel) (.inr ⟨⟨3, 1, 0⟩, [], by decide +kernel, .inl (by decide +kernel)⟩))⟩ <;>
    decide +kernel

theorem witness_PoolAndBins_n3 :
    ∃ (s : State) (c : Nat), (∀ q ∈ s.teams, q.core = some c → q.swap = Swap.resident) ∧ ((s.core c).growing = true ∨
      1024 ≤ s.clocksSince (s.core c).lastIssue) ∧ (∀ q ∈ s.teams, q.core = some c → (s.part (s.partOf q)).halted =
      true ∨ (∀ g ∈ s.groups, g.team = q.id → g.blocks = 0) ∧ ∀ k ∈ s.gangs, k.team ≠ q.id) := by
  refine ⟨{ s0 with time := 2 ^ 40 }, 0, ?_, (by exact .inr (by decide +kernel)), ?_⟩ <;>
    decide +kernel

theorem witness_PoolAndBins_n6 :
    ∃ (s : State) (g : Group) (c off : Nat) (b : Bin) (t : Team) (tgt : CallTarget) (lanes : List CallLane) (call :
      Calling), ((s.core c).bins = [b]) ∧ (c < 272) ∧ (b.fired = true) ∧ (b.work = BinWork.call t.id g.pc tgt lanes)
      ∧ (s.team? t.id = some t) ∧ (t.core = some c) ∧ (t.swap = Swap.resident) ∧ (max 1 (s.core c).bintime.toNat ≤
      s.clocksSince b.since) ∧ (lanes ≠ []) ∧ (∀ x ∈ lanes, x.members ≠ [] ∧ ∀ m ∈ x.members, m.caller = g.id) ∧
      (s.group? g.id = some g) ∧ (g.team = t.id) ∧ (g.core = some c) ∧ (g.calling = some call) ∧ (call.tgt = tgt) ∧
      (s.haltReached g = false) ∧ (Memory.wf s.mem = true) ∧ (s.findArea t tgt.frameSize = none) ∧ ((List.flatMap
      (fun x => x.members) lanes).length = (lanesOf call.set).length * if tgt.gather = true then 1 else tgt.k) := by
  refine
    ⟨{ sBin (bin (.call 2 0x4000 callW [laneW, { laneW with w := 1 }]) true) grpW1 with launches := [{ lau with vals := { lau.vals with frstk := 0 } }] },
    grpW1, 0, 0, bin (.call 2 0x4000 callW [laneW, { laneW with w := 1 }]) true, tm, callW, [laneW, { laneW with w := 1 }], callingW, ?_, ?_, ?_, ?_, ?_, ?_, ?_,
    (by decide +kernel), ?_, ?_, of_id rfl, ?_, ?_, ?_, ?_, ?_, ?_, ?_, ?_⟩ <;>
    decide +kernel

/-- A launch of which nothing is placed, and the machine in which it waits. -/
def lauNew : Launch := { lau with next := 0, vals := { lau.vals with coht := 1 } }

def sNew : State :=
  { State.reset with
    launches := [lauNew], nextId := 4
    cores := vset State.reset.cores 0 { Core.reset with part := 0 } }

def waitNew (id : Nat) : Waiting := { prio := 0, time := 0, queue := 0, cohort := 0, what := .new id }

theorem witness_TeamsMove_0 :
    ∃ (s : State) (p : BitVec 3) (w : Waiting) (l : Launch) (c o size : Nat), (s.firstWaiting p.toNat = some w) ∧
      (w.what = .new l.id) ∧ (s.launch? l.id = some l) ∧ (l.coll = none) ∧ (l.vals.coht = 1) ∧ (l.next < l.vals.gx *
      l.vals.gy * l.vals.gz) ∧ (size = l.vals.scratch + l.vals.frstk) ∧ (Memory.wf s.mem = true) ∧ (c < 272) ∧
      (s.coreOpen l.part c = true) ∧ (s.coreFits c l.vals l.vals.tgrp 0 0 = true) ∧ (s.lowestOff c size = some o) ∧ (∀
      d < 272, d ≠ c → s.coreOpen l.part d = true → s.coreFits d l.vals l.vals.tgrp 0 0 = true → s.lowestOff d size ≠
      none → (s.freeSlots d).length < (s.freeSlots c).length ∨ (s.freeSlots d).length = (s.freeSlots c).length ∧ c <
      d) := by
  refine ⟨sNew, 0, waitNew 1, lauNew, 0, 0, 8192, ?_, ?_, ?_, ?_, ?_, ?_, (by decide +kernel), ?_, ?_, ?_, ?_, ?_,
    (by have h : ∀ d < 272, d ≠ 0 → sNew.coreOpen 0 d = false := (by decide +kernel); intro d hd hn ho; exact absurd (ho.symm.trans (h d hd hn)) (by decide))⟩
    <;>
    decide +kernel

/-- A launch whose team needs the whole slice, in wait behind the team that is there. -/
def lauBig : Launch := { lauNew with id := 5, vals := { lauNew.vals with scratch := 2 ^ 20 - 4096, coht := 1 } }

def sSlice (t : Team) : State :=
  { s0.modPart 0 (fun p => { p with pswap := BitVec.ofNat 128 (64 * 2 ^ 96) }) with
    launches := [lau, lauBig], teams := [t], time := 2 ^ 40 }

theorem settled_tm {s : State} {t : Team} (hg : s.groups = [grp]) (ht : (s.core 0).tileReqs = [])
    (hr : (s.core 0).poolReqs = []) : Claims.settled s t 0 :=
  settled_one hg rfl rfl (.inl rfl) ht (.inl hr)

theorem witness_TeamsMove_1 :
    ∃ (s : State) (t : Team) (l : Launch) (c : Nat) (w : Waiting), (s.team? t.id = some t) ∧ (s.launch? t.launch =
      some l) ∧ (s.cohortTeams t = [t]) ∧ (t.core = some c) ∧ (t.swap = Swap.resident) ∧ (s.sliceNs l.prio ≤
      BitVec.toNat (s.time - t.since)) ∧ ((s.part l.part).halted = false) ∧ (w ∈ s.waitingAll l.part) ∧ (l.prio ≤
      w.prio) ∧ (s.waitingFits w = false) ∧ ((s.without [t]).waitingFits w = true) ∧ (s.areaRoom l.part [t] = true) ∧
      (Claims.settled s t c) := by
  refine ⟨sSlice tm, tm, lau, 0, waitNew 5, (by rfl), ?_, ?_, ?_, ?_, ?_, ?_, ?_, ?_, ?_, ?_, ?_,
    (by exact settled_tm rfl (by decide +kernel) (by decide +kernel))⟩ <;>
    decide +kernel

theorem witness_TeamsMove_2 :
    ∃ (s : State) (t : Team) (c : Nat), (s.team? t.id = some t) ∧ (t.core = some c) ∧ (t.swap = .resident) ∧ ((s.core
      c).moving = true) ∧ (s.areaRoom (s.partOf t) [t] = true) ∧ (Claims.settled s t c) := by
  refine ⟨(sSlice tm).modCore 0 (fun c => { c with moving := true }), tm, 0, (by rfl), ?_, ?_, ?_, ?_,
    (by exact settled_tm rfl (by decide +kernel) (by decide +kernel))⟩ <;>
    decide +kernel

theorem witness_TeamsMove_3 :
    ∃ (s : State) (t : Team) (c size : Nat) (sw : BitVec 128), (s.team? t.id = some t) ∧ (t.core = some c) ∧ (t.swap
      = Swap.cut) ∧ (s.drained t = true) ∧ (size = s.allocSize t) ∧ (Memory.wf s.mem = true) ∧ (sw = (s.part
      (s.partOf t)).pswap) := by
  refine ⟨sSlice { tm with swap := .cut }, { tm with swap := .cut }, 0, 8192, _, (by rfl), ?_, ?_, ?_,
    (by decide +kernel), ?_, rfl⟩ <;>
    decide +kernel

/-- A team that is away, with a byte of its allocation saved, and its group. -/
def image : ScrImage := { bytes := [(8191, 7)], empty := [], poison := [] }

def tmAway : Team := { tm with core := none, swap := .out, image := some image }

def grpAway : Group := { grp with core := none }

def sAway : State := { sSlice tmAway with groups := [grpAway], launches := [lau] }

def waitAway : Waiting := { prio := 0, time := 0, queue := 0, cohort := 0, what := .away 2 }

theorem witness_TeamsMove_4 :
    ∃ (s : State) (t : Team) (c : Nat) (w : Waiting) (im : ScrImage), (s.team? t.id = some t) ∧ (t.swap = Swap.out) ∧
      (t.spawn = false) ∧ (s.cohortTeams t = [t]) ∧ ((s.valsOf t).coht ≤ 1) ∧ (s.firstWaiting (s.partOf t) = some w)
      ∧ (w.what = Waits.away t.id) ∧ (c < 272) ∧ (s.resumeFits t c = true) ∧ (∀ d < 272, d ≠ c → s.resumeFits t d =
      true → (s.freeSlots d).length < (s.freeSlots c).length ∨ (s.freeSlots d).length = (s.freeSlots c).length ∧ c <
      d) ∧ (t.image = some im) ∧ (t.held = []) ∧ (t.bins = []) ∧ ((List.map (fun g => g.id) s.groups).Nodup) ∧
      ((List.filter (fun g => g.team == t.id) s.groups).length ≤ s.slotsOf t) ∧ (∀ g ∈ s.groups, g.team = t.id →
      g.core = none ∧ g.wait = none ∧ g.allPend = []) ∧ (Memory.wf s.mem = true) ∧ (Memory.wf im.bytes = true) ∧ (∀ x
      ∈ im.bytes, x.1 < s.allocSize t) := by
  refine ⟨sAway, tmAway, 0, waitAway, image, (by rfl), ?_, ?_, ?_, ?_, ?_, ?_, ?_, ?_, ?_, ?_, ?_, ?_, ?_, ?_,
    (by intro g hg _; obtain rfl := List.mem_singleton.mp hg; exact ⟨rfl, rfl, rfl⟩), ?_, ?_, ?_⟩ <;>
    decide +kernel

theorem witness_TeamsMove_5 :
    ∃ (s : State) (t : Team) (l : Launch), (s.team? t.id = some t) ∧ (s.launch? t.launch = some l) ∧ (t.swap = .out) ∧
      (8 * s.sliceNs l.prio ≤ (s.time - t.since).toNat) := by
  refine ⟨sAway, tmAway, lau, (by rfl), ?_, ?_, ?_⟩ <;>
    decide +kernel

theorem witness_TeamsMove_6 :
    ∃ (s : State) (l : Launch), (s.team? l.id = none) ∧ (s.launch? l.id = some l) ∧ (l.ended = false) ∧ (l.next <
      l.vals.gx * l.vals.gy * l.vals.gz) ∧ (8 * s.sliceNs l.prio ≤ (s.time - l.tdisp).toNat) := by
  refine ⟨{ sNew with time := 2 ^ 40 }, lauNew, (by rfl), ?_, ?_, ?_, ?_⟩ <;>
    decide +kernel

theorem witness_TeamsMove_7 :
    ∃ (s : State) (c : Nat), (c < 272) ∧ ((s.core c).moving = true) ∧ (∀ t ∈ s.teams, t.core ≠ some c) ∧ ((s.core
      c).bins = []) ∧ (s.mgmt.collpart = []) := by
  refine ⟨State.reset.modCore 271 (fun c => { c with moving := true }), 271, ?_, ?_,
    (by intro t ht; exact (nomatch ht)), ?_, ?_⟩ <;>
    decide +kernel

/-- A kernel descriptor of one team of one group at 0x6000, entered at 0x5000 (R105). -/
def kernelD : BitVec 512 :=
  BitVec.ofNat 512 (2 ^ 61 + 2 ^ 67 + 2 ^ 160 + 2 ^ 192 + 2 ^ 224 + 0x5000 * 2 ^ 448)

/-- A packet of it that waits for a word at 0x6800, or of a dependence of 0 (R116). -/
def packetD (dcmp : Nat) : BitVec 1024 :=
  BitVec.ofNat 1024 (0x6000 + dcmp * 2 ^ 307 + 0x6800 * 2 ^ 320 + 5 * 2 ^ 384)

/-- The machine whose queue 63 holds a packet at 0x7000, read already or not. -/
def sPacket (p : BitVec 1024) (r : Option (BitVec 1024)) : State :=
  (((((mkCode (recLine 0 0 0) grp).writeNat 0x6000 64 kernelD.toNat).writeNat 0x7000 128 p.toNat).writeNat 0x6800 8 5).modQueue
    63 (fun q => { q with
      en := true, qerr := false, sizel := 4, qpart := 0, base := 0x7000, head := 16, tail := 17, packet := r
      checked := r.isSome })).modDie 3 (fun d => { d with ctrlRuns := vset d.ctrlRuns 0 true })

/-- The values of its launch. -/
def valsD : Vals := mergeVals (packetD 0) kernelD none

/-- Its front-end serves it. -/
theorem serves_sPacket (p : BitVec 1024) (r : Option (BitVec 1024)) : Claims.serves (sPacket p r) (63#6).toNat :=
  ⟨⟨0, by decide, rfl⟩, rfl, rfl, by show 4 ≤ (4#5).toNat; decide, by show (0#4).toNat < 8; decide⟩

theorem witness_PacketsRun_0 :
    ∃ (s : State) (q : BitVec 6) (n : Nat) (p : BitVec 1024), ((s.queue q.toNat).packet = none) ∧ ((s.queue
      q.toNat).head ≠ (s.queue q.toNat).tail) ∧ (s.readVa (engineOf (s.queue q.toNat).qpart.toNat) .read ((s.queue
      q.toNat).packetAddr (s.queue q.toNat).head) 128 = .ok n) ∧ (p = BitVec.ofNat 1024 n) ∧ (Claims.atHead s q.toNat
      p) ∧ ((p.extractLsb' 307 3).toNat ≠ 0) := by
  refine ⟨sPacket (packetD 1) (none), 63, (packetD 1).toNat, packetD 1, ?_, ?_, ?_, (by decide +kernel),
    (by exact ⟨serves_sPacket _ _, by decide +kernel, by decide +kernel⟩),
    ?_⟩ <;>
    decide +kernel

theorem witness_PacketsRun_1 :
    ∃ (s : State) (q : BitVec 6) (n : Nat) (p : BitVec 1024), ∃ v, ((s.queue q.toNat).packet = none) ∧ ((s.queue
      q.toNat).head ≠ (s.queue q.toNat).tail) ∧ (s.readVa (engineOf (s.queue q.toNat).qpart.toNat) .read ((s.queue
      q.toNat).packetAddr (s.queue q.toNat).head) 128 = .ok n) ∧ (p = BitVec.ofNat 1024 n) ∧ (Claims.atHead s q.toNat
      p) ∧ ((p.extractLsb' 307 3).toNat = 0) ∧ (p.extractLsb' 64 64 = 0) ∧ (s.checkLaunch (p.extractLsb' 304 3).toNat
      p none = .ok (v, none)) := by
  refine ⟨sPacket (packetD 0) (none), 63, (packetD 0).toNat, packetD 0, valsD, ?_, ?_, ?_, (by decide +kernel),
    (by exact ⟨serves_sPacket _ _, by decide +kernel, by decide +kernel⟩),
    ?_, ?_, (by exact ok_of (by decide +kernel))⟩ <;>
    decide +kernel

theorem witness_PacketsRun_2 :
    ∃ (s : State) (q : BitVec 6) (n : Nat) (p : BitVec 1024), (Claims.serves s q.toNat) ∧ ((s.queue q.toNat).packet =
      none) ∧ ((s.queue q.toNat).head ≠ (s.queue q.toNat).tail) ∧ (s.readVa (engineOf (s.queue q.toNat).qpart.toNat)
      Use.read ((s.queue q.toNat).packetAddr (s.queue q.toNat).head) 128 = Except.ok n) ∧ (p = BitVec.ofNat 1024 n) ∧
      (p.getLsbD 311 = false) ∧ (packetBad p (s.queue q.toNat).qpart = true) := by
  refine ⟨sPacket (packetD 7) (none), 63, (packetD 7).toNat, packetD 7, serves_sPacket _ _, ?_, ?_, ?_,
    (by decide +kernel), ?_, ?_⟩ <;>
    decide +kernel

theorem witness_PacketsRun_3 :
    ∃ (s : State) (q : BitVec 6) (p : BitVec 1024) (w dcmp : Nat), ((s.queue q.toNat).packet = some p) ∧ ((s.queue
      q.toNat).checked = true) ∧ (Claims.atHead s q.toNat p) ∧ (dcmp = (BitVec.extractLsb' 307 3 p).toNat) ∧ (dcmp ≠
      0) ∧ (s.readVa (engineOf (BitVec.extractLsb' 304 3 p).toNat) Use.read (BitVec.extractLsb' 320 64 p) 8 =
      Except.ok w) ∧ (BitVec.toNat (s.queue q.toNat).due ≤ BitVec.toNat s.time) ∧ (¬Claims.depends dcmp (BitVec.ofNat
      64 w) (BitVec.extractLsb' 384 64 p)) := by
  refine ⟨sPacket (packetD 2) (some (packetD 2)), 63, packetD 2, 5, 2, ?_, ?_,
    (by exact ⟨serves_sPacket _ _, by decide +kernel, by decide +kernel⟩),
    (by decide +kernel), ?_, ?_, ?_, (by show ¬ (BitVec.ofNat 64 5 ≠ (packetD 2).extractLsb' 384 64); decide +kernel)⟩ <;>
    decide +kernel

theorem witness_PacketsRun_4 :
    ∃ (s : State) (q : BitVec 6) (p : BitVec 1024) (w dcmp : Nat) (v : Vals), ((s.queue q.toNat).packet = some p) ∧
      ((s.queue q.toNat).checked = true) ∧ (Claims.atHead s q.toNat p) ∧ (dcmp = (BitVec.extractLsb' 307 3 p).toNat)
      ∧ (dcmp ≠ 0) ∧ (s.readVa (engineOf (BitVec.extractLsb' 304 3 p).toNat) Use.read (BitVec.extractLsb' 320 64 p) 8
      = Except.ok w) ∧ (BitVec.toNat (s.queue q.toNat).due ≤ BitVec.toNat s.time) ∧ (Claims.depends dcmp
      (BitVec.ofNat 64 w) (BitVec.extractLsb' 384 64 p)) ∧ (BitVec.extractLsb' 64 64 p = 0) ∧ (s.checkLaunch
      (BitVec.extractLsb' 304 3 p).toNat p none = Except.ok (v, none)) := by
  refine ⟨sPacket (packetD 6) (some (packetD 6)), 63, packetD 6, 5, 6, valsD, ?_, ?_,
    (by exact ⟨serves_sPacket _ _, by decide +kernel, by decide +kernel⟩),
    (by decide +kernel), ?_, ?_, ?_,
    (by show BitVec.ofNat 64 5 &&& (packetD 6).extractLsb' 384 64 = (packetD 6).extractLsb' 384 64; decide +kernel),
    ?_, (by exact ok_of (by decide +kernel))⟩ <;>
    decide +kernel

/-- A launch with nothing left, its record to go to 0x8020, its semaphore to 0x8040. -/
def lauDone : Launch :=
  { lau with id := 5, pkt := BitVec.ofNat 1024 (0x8020 * 2 ^ 640 + 0x8040 * 2 ^ 448 + 9 * 2 ^ 512) }

def sDone : State := { sCode with launches := [lau, lauDone] }

theorem prev_none (q : Nat) : (sDone.queue q).prev ≠ some lauDone.id := by
  show (vget (Vector.replicate 64 LQueue.reset) q LQueue.reset).prev ≠ _
  rw [vget_replicate]
  exact fun h => nomatch h

theorem witness_PacketsRun_5 :
    ∃ (s s1 : State) (l : Launch) (rec loc1 loc2 : Nat), (s.launch? l.id = some l) ∧ (s.launchDone l = true) ∧
      (l.pkt.extractLsb' 640 64 ≠ 0) ∧ (l.pkt.extractLsb' 448 64 ≠ 0) ∧ (s.locOf (engineOf l.part) .write
      (l.pkt.extractLsb' 640 64) = .ok loc1) ∧ (s.poisonIn loc1 32 = none) ∧ (rec = l.status + (l.pkt.extractLsb' 832
      48).toNat * 2 ^ 16 + (l.pkt.extractLsb' 768 64).toNat * 2 ^ 64 + l.tdisp.toNat * 2 ^ 128 + s.time.toNat * 2 ^
      192) ∧ (s1 = s.writeNat loc1 32 rec) ∧ (s1.locOf (engineOf l.part) .write (l.pkt.extractLsb' 448 64) = .ok loc2)
      ∧ (s1.poisonIn loc2 8 = none) ∧ (∀ q, (s.queue q).prev ≠ some l.id) := by
  refine ⟨sDone, _, lauDone, _, 0x8020, 0x8040, (by rfl), ?_, ?_, ?_, ?_, ?_, rfl, rfl, ?_, ?_,
    (by exact fun q => prev_none q)⟩ <;>
    decide +kernel

theorem witness_PacketsRun_n3 :
    ∃ (s : State) (q : BitVec 6) (p : BitVec 1024) (w dcmp : Nat), ((s.queue q.toNat).packet = some p) ∧ ((s.queue
      q.toNat).checked = true) ∧ (Claims.atHead s q.toNat p) ∧ (dcmp = (BitVec.extractLsb' 307 3 p).toNat) ∧ (dcmp ≠
      0) ∧ (s.readVa (engineOf (BitVec.extractLsb' 304 3 p).toNat) Use.read (BitVec.extractLsb' 320 64 p) 8 =
      Except.ok w) ∧ (BitVec.toNat s.time < BitVec.toNat (s.queue q.toNat).due) := by
  refine ⟨(sPacket (packetD 6) (some (packetD 6))).modQueue 63 (fun q => { q with due := 9 }), 63, packetD 6, 5, 6, ?_, ?_,
    (by refine ⟨⟨⟨0, by decide, rfl⟩, ?_, ?_, ?_, ?_⟩, ?_, ?_⟩ <;> decide +kernel), ?_, ?_, ?_, ?_⟩ <;>
    decide +kernel

/-- A machine with an owner, and the management block in some state. -/
def sOwn (r : BitVec 8) (f : Mgmt → Mgmt) : State :=
  { s0 with mgmt := f { s0.mgmt with owner := r.setWidth 64, bootState := 2 } }

theorem witness_WindowWrites_0 :
    ∃ (s : State) (who : Requester) (q : BitVec 6) (v : Word64), (Claims.owned s who) := by
  refine ⟨sOwn 8 id, .master 8, 63, -1, (by exact ⟨by decide +kernel, 8, rfl, ⟨by decide, by decide⟩, by decide +kernel⟩)⟩

theorem witness_WindowWrites_2 :
    ∃ (s : State) (who : Requester) (q : BitVec 6) (v : Word32), (Claims.owned s who) ∧ ((v - (s.queue
      q.toNat).head).toNat ≤ 2 ^ (s.queue q.toNat).sizel.toNat) := by
  refine ⟨sOwn 8 id, .master 8, 63, 1, (by exact ⟨by decide +kernel, 8, rfl, ⟨by decide, by decide⟩, by decide +kernel⟩), ?_⟩ <;>
    decide +kernel

theorem witness_WindowWrites_3 :
    ∃ (s : State) (who : Requester) (q : BitVec 6) (v : Word32), (Claims.owned s who) ∧ (2 ^ (s.queue
      q.toNat).sizel.toNat < (v - (s.queue q.toNat).head).toNat) := by
  refine ⟨sOwn 8 id, .master 8, 63, 2, (by exact ⟨by decide +kernel, 8, rfl, ⟨by decide, by decide⟩, by decide +kernel⟩), ?_⟩ <;>
    decide +kernel

theorem witness_WindowWrites_4 :
    ∃ (s : State) (who : Requester) (q : BitVec 6) (n : Word32) (k : Launch), (Claims.owned s who) ∧ (s.launches.find?
      (fun k => k.queue.toNat == q.toNat && k.num == n) = some k) ∧ (s.launch? k.id = some k) ∧ (k.ended = false) := by
  refine ⟨{ sOwn 8 id with launches := [{ lau with queue := 63, num := 7 }] }, .master 8, 63, 7,
    { lau with queue := 63, num := 7 }, (by exact ⟨by decide +kernel, 8, rfl, ⟨by decide, by decide⟩, by decide +kernel⟩), (by rfl), (by rfl),
    ?_⟩ <;>
    decide +kernel

theorem witness_WindowWrites_5 :
    ∃ (s : State) (who : Requester) (c : Nat) (v : Word32), (Claims.owned s who) ∧ (c < 272) := by
  refine ⟨sOwn 8 id, .master 8, 271, -1, (by exact ⟨by decide +kernel, 8, rfl, ⟨by decide, by decide⟩, by decide +kernel⟩), ?_⟩ <;>
    decide +kernel

theorem witness_WindowWrites_6 :
    ∃ (s : State) (who : Requester) (q : BitVec 10) (v : Word32), (Claims.owned s who) := by
  refine ⟨sOwn 8 id, .master 8, 1023, -1, (by exact ⟨by decide +kernel, 8, rfl, ⟨by decide, by decide⟩, by decide +kernel⟩)⟩

theorem witness_WindowWrites_8 :
    ∃ (s : State) (who : Requester) (p : BitVec 3) (v : Word32), (Claims.owned s who) := by
  refine ⟨sOwn 8 id, .master 8, 7, -1, (by exact ⟨by decide +kernel, 8, rfl, ⟨by decide, by decide⟩, by decide +kernel⟩)⟩

theorem witness_WindowWrites_9 :
    ∃ (s : State) (who : Requester) (d : BitVec 2) (v : Word32), (Claims.owned s who) := by
  refine ⟨sOwn 8 id, .master 8, 3, -1, (by exact ⟨by decide +kernel, 8, rfl, ⟨by decide, by decide⟩, by decide +kernel⟩)⟩

theorem witness_WindowWrites_10 :
    ∃ (s : State) (who : Requester) (c : Nat), (Claims.owned s who) ∧ (c < 272) := by
  refine ⟨sOwn 8 id, .master 8, 271, (by exact ⟨by decide +kernel, 8, rfl, ⟨by decide, by decide⟩, by decide +kernel⟩), ?_⟩ <;>
    decide +kernel

theorem witness_WindowWrites_11 :
    ∃ (s : State) (who : Requester) (p : BitVec 3) (v : Word64), (Claims.owned s who) := by
  refine ⟨sOwn 8 id, .master 8, 7, -1, (by exact ⟨by decide +kernel, 8, rfl, ⟨by decide, by decide⟩, by decide +kernel⟩)⟩

theorem witness_WindowWrites_12 :
    ∃ (s : State) (r : BitVec 8) (off : BitVec 24) (width : Nat) (v : Word64), (s.mgmt.bootState ≠ 3) ∧
      (Claims.master r) ∧ (r.toNat ≠ s.owner) ∧ (196608 ≤ off.toNat) ∧ (s.mgmt.denycnt ≠ 4294967295) := by
  refine ⟨sOwn 8 id, 7, 0x30000, 8, 0, ?_, ⟨by decide, by decide⟩, ?_, ?_, ?_⟩ <;>
    decide +kernel

theorem witness_WindowWrites_13 :
    ∃ (s : State) (p : BitVec 3) (v : Word64), (s.mgmt.bootState ≠ 3) := by
  refine ⟨sOwn 8 id, 7, -1, ?_⟩ <;>
    decide +kernel

theorem witness_WindowWrites_14 :
    ∃ (s : State) (who : Requester) (p : BitVec 3), (s.mgmt.bootState ≠ 3) ∧ (who = Requester.vf p ∨ Claims.owned s
      who) := by
  refine ⟨sOwn 8 id, .vf 5, 5, ?_, (by exact .inl rfl)⟩ <;>
    decide +kernel

theorem witness_WindowWrites_n1 :
    ∃ (s : State) (who : Requester) (q : BitVec 6) (v : Word32), Claims.owned s who := by
  refine ⟨sOwn 8 id, .master 8, 63, -1, (by exact ⟨by decide +kernel, 8, rfl, ⟨by decide, by decide⟩, by decide +kernel⟩)⟩

theorem witness_WindowWrites_n11 :
    ∃ (s : State) (q n v : Nat), (q < 64) ∧ (s.mgmt.bootState ≠ 3) := by
  refine ⟨sOwn 8 id, 63, 4, 7, ?_, ?_⟩ <;>
    decide +kernel

theorem witness_DebugEvents_0 :
    ∃ (s : State) (who : Requester) (p : BitVec 3), (Claims.owned s who) ∧ ((s.part p.toNat).hits.length < 16) := by
  refine ⟨(sOwn 8 id).modPart 7 (fun p => { p with hits := List.replicate 15 0 }), .master 8, 7,
    (by exact ⟨by decide +kernel, 8, rfl, ⟨by decide, by decide⟩, by decide +kernel⟩), ?_⟩ <;>
    decide +kernel

theorem witness_DebugEvents_2 :
    ∃ (s : State) (who : Requester) (p : BitVec 3), (Claims.owned s who) ∧ (∀ g ∈ s.groups, g.calling = none) := by
  refine ⟨sOwn 8 id, .master 8, 7, (by exact ⟨by decide +kernel, 8, rfl, ⟨by decide, by decide⟩, by decide +kernel⟩), ?_⟩ <;>
    decide +kernel

theorem witness_DebugEvents_3 :
    ∃ (s : State) (who : Requester) (p : BitVec 3) (v : Word64), (Claims.owned s who) := by
  refine ⟨sOwn 8 id, .master 8, 7, -1, (by exact ⟨by decide +kernel, 8, rfl, ⟨by decide, by decide⟩, by decide +kernel⟩)⟩

theorem witness_DebugEvents_4 :
    ∃ (s : State) (c : Nat) (quad : BitVec 2) (g : Group) (p rec : Nat), (c < 272) ∧ ((s.core c).part.toNat = p) ∧ (p
      < 8) ∧ ((s.part p).sampl ≠ 0) ∧ (6 ≤ BitVec.toNat (s.part p).trsizel) ∧ (2 ^ (s.part p).sampl.toNat ≤
      s.clocksSince (vget (s.core c).sampled quad.toNat 0)) ∧ (g ∈ s.groups) ∧ (g.core = some c) ∧ (g.slot / 32 =
      quad.toNat) ∧ (g.sampled = false) ∧ (∀ q ∈ s.groups, q.core = some c → q.slot / 32 = quad.toNat → q.sampled =
      false → q ≠ g → BitVec.toNat g.created < BitVec.toNat q.created) ∧ (rec = BitVec.toNat s.time * 2 ^ 192 + (vget
      (s.core c).slotSeq g.slot 0).toNat * 2 ^ 144 + g.gid16.toNat * 2 ^ 128 + BitVec.toNat g.lastsp * 2 ^ 96 + 2 * 2
      ^ 88) := by
  refine ⟨{ (mk { grp with sampled := false }).modPart 0 (fun p => { p with sampl := 1, trsizel := 6 }) with time := 64 },
    0, 0,
    { grp with sampled := false }, 0, _, ?_, ?_, ?_, ?_, ?_, ?_, (by exact List.mem_singleton.mpr rfl), ?_, ?_, ?_,
    (by intro q hq _ _ _ hn; exact absurd (List.mem_singleton.mp hq) hn), rfl⟩ <;>
    decide +kernel

theorem witness_DebugEvents_5 :
    ∃ (s : State) (c : Nat) (quad : BitVec 2) (e : Nat), (c < 272) ∧ ((s.core c).frz = false) ∧ (e = (s.groups.filter
      (fun g => g.core == some c && g.slot / 32 == quad.toNat && s.eligible g)).length) ∧ (e < 33) := by
  refine ⟨s0, 0, 0, _, ?_, ?_, rfl, ?_⟩ <;>
    decide +kernel

theorem witness_DebugEvents_n4 :
    ∃ (s : State) (c p : Nat) (quad : BitVec 2), ((s.core c).part.toNat = p) ∧ (p < 8) ∧ ((s.part p).sampl = 0 ∨
      s.clocksSince (vget (s.core c).sampled quad.toNat 0) < 2 ^ (s.part p).sampl.toNat) := by
  refine ⟨s0, 0, 0, 3, ?_, ?_, ?_⟩ <;>
    decide +kernel

theorem witness_OwnershipMoves_9 :
    ∃ (s : State) (port : BitVec 3) (m : BitVec 8), ∃ since, (m = 3 + port.setWidth 8) ∧ (s.owner = m.toNat) ∧
      (s.mgmt.timer = some (m, since)) ∧ ((s.time - since).toNat < 10 ^ 9) := by
  refine ⟨{ sOwn 10 (fun m => { m with timer := some (10, 5) }) with time := 10 ^ 9 + 4 }, 7, 10, 5,
    (by decide +kernel), ?_, (by rfl), ?_⟩ <;>
    decide +kernel

theorem witness_OwnershipMoves_10 :
    ∃ (s : State), (s.owner = 1) := by
  refine ⟨sOwn 1 id, ?_⟩ <;>
    decide +kernel

theorem witness_OwnershipMoves_11 :
    ∃ (s : State) (m : BitVec 8) (since : Word64) (e h : Nat), (s.mgmt.timer = some (m, since)) ∧ (e < 2 ^ 32) ∧ (h ≤
      8) ∧ (Claims.master m) ∧ (s.mgmt.owner = Claims.ownerBits e h m.toNat) ∧ (10 ^ 9 ≤ BitVec.toNat (s.time -
      since)) := by
  refine ⟨{ s0 with
      time := 10 ^ 9 + 5
      mgmt := { s0.mgmt with owner := Claims.ownerBits (2 ^ 32 - 1) 8 8, timer := some (8, 5) } }, 8, 5,
    2 ^ 32 - 1, 8, (by rfl), ?_, ?_, ⟨by decide, by decide⟩, (by rfl), ?_⟩ <;>
    decide +kernel

/-- A machine whose `OWNER` has these fields. -/
def sOf (e h o : Nat) : State :=
  { s0 with mgmt := { s0.mgmt with owner := Claims.ownerBits e h o } }

theorem witness_OwnershipMoves_n3 :
    ∃ (s : State) (port : BitVec 3) (m : BitVec 8), (m = 3 + BitVec.setWidth 8 port) ∧ (s.owner = m.toNat) := by
  refine ⟨sOwn 10 id, 7, 10, ?_, ?_⟩ <;>
    decide +kernel

theorem witness_OwnershipMoves_n6 :
    ∃ (s : State) (m : BitVec 8) (since : Word64) (e h : Nat), (s.mgmt.timer = some (m, since)) ∧ (e < 2 ^ 32) ∧ (h ≤
      8) ∧ (Claims.master m) ∧ (s.mgmt.owner = Claims.ownerBits e h m.toNat) ∧ (BitVec.toNat (s.time - since) < 10 ^
      9) := by
  refine ⟨{ s0 with
      time := 10 ^ 9 + 4
      mgmt := { s0.mgmt with owner := Claims.ownerBits 7 0 8, timer := some (8, 5) } }, 8, 5, 7, 0, (by rfl), ?_, ?_,
    ⟨by decide, by decide⟩, (by rfl), ?_⟩ <;>
    decide +kernel

theorem witness_OwnershipMoves_n0 :
    ∃ (s : State) (r : BitVec 8) (e h o : Nat) (x new : Word64) (now : State → State), (Claims.master r) ∧ (e < 2 ^
      32) ∧ (h ≤ 8) ∧ (o ≤ 8) ∧ (s.mgmt.owner = Claims.ownerBits e h o) ∧ (now =
      fun t => { t with answer := some (Requester.master r, BitVec.toNat s.mgmt.owner) }) := by
  refine ⟨sOf (2 ^ 32 - 1) 8 0, 8, 2 ^ 32 - 1, 8, 0, 7, 7, _, ⟨by decide, by decide⟩, ?_, ?_, ?_, (by rfl), rfl⟩ <;>
    decide +kernel

theorem witness_OwnershipMoves_n1 :
    ∃ (s : State) (r : BitVec 8) (e h o : Nat) (x new : Word64) (now : State → State) (m : Nat), (Claims.master r) ∧
      (e < 2 ^ 32) ∧ (h ≤ 8) ∧ (o ≤ 8) ∧ (s.mgmt.owner = Claims.ownerBits e h o) ∧ (now =
      fun t => { t with answer := some (Requester.master r, BitVec.toNat s.mgmt.owner) }) ∧ (x = s.mgmt.owner) ∧ (o =
      r.toNat) ∧ (m ≤ 8) ∧ (m ≠ r.toNat) ∧ (new = Claims.ownerBits e m o) := by
  refine ⟨sOf (2 ^ 32 - 1) 0 8, 8, 2 ^ 32 - 1, 0, 8, (sOf (2 ^ 32 - 1) 0 8).mgmt.owner, _, _, 1, ⟨by decide, by decide⟩, ?_, ?_, ?_,
    (by rfl), rfl, rfl, rfl, ?_, ?_, rfl⟩ <;>
    decide +kernel

theorem witness_OwnershipMoves_n2 :
    ∃ (s : State) (r : BitVec 8) (e h o : Nat) (x new : Word64) (now : State → State), (Claims.master r) ∧ (e < 2 ^
      32) ∧ (h ≤ 8) ∧ (o ≤ 8) ∧ (s.mgmt.owner = Claims.ownerBits e h o) ∧ (now =
      fun t => { t with answer := some (Requester.master r, BitVec.toNat s.mgmt.owner) }) ∧ (¬(x = s.mgmt.owner ∧ o =
      r.toNat ∧ ∃ m ≤ 8, m ≠ r.toNat ∧ new = Claims.ownerBits e m o)) := by
  refine ⟨sOf 3 0 8, 8, 3, 0, 8, (sOf 3 0 8).mgmt.owner, Claims.ownerBits 3 9 8, _, ⟨by decide, by decide⟩, ?_, ?_, ?_, (by rfl), rfl, ?_⟩ <;>
    decide +kernel

/-- A machine that runs its firmware, with a command in the mailbox of master 8, who owns it. -/
def sBox (own : BitVec 8) (l : List Host.Cell) (f : Mgmt → Mgmt) : State :=
  sOwn own (fun m => f { m with boxes := vset m.boxes 7 l, busy := vset m.busy 7 true })

theorem witness_MailboxCommands_0 :
    ∃ (s : State) (r : BitVec 8), (Claims.commanded s r 2) := by
  refine ⟨sBox 3 [(0, 2)] id, 8,
    (by refine ⟨⟨by decide, by decide⟩, ?_, ?_, ?_, ?_⟩ <;> decide +kernel)⟩

theorem witness_MailboxCommands_1 :
    ∃ (s : State) (r : BitVec 8), (Claims.commanded s r 1) := by
  refine ⟨sBox 3 [(0, 1)] id, 8,
    (by refine ⟨⟨by decide, by decide⟩, ?_, ?_, ?_, ?_⟩ <;> decide +kernel)⟩

theorem witness_MailboxCommands_2 :
    ∃ (s : State) (r : BitVec 8) (off : Nat), (Claims.commanded s r 5) ∧ (s.owner = r.toNat) ∧ (off = s.boxNat
      (r.toNat - 1) 8 8) ∧ (off + 240 ≤ 48 * 2 ^ 20) ∧ (Memory.wf (Claims.slot s (!s.mgmt.active)) = true) := by
  refine ⟨sBox 8 [(0, 5), (8, 0x10), (9, 0xFF), (10, 0xFF), (11, 2)] id, 8, 2 ^ 20 * 48 - 240,
    (by refine ⟨⟨by decide, by decide⟩, ?_, ?_, ?_, ?_⟩ <;> decide +kernel),
    ?_, (by decide +kernel), ?_, ?_⟩ <;>
    decide +kernel

theorem witness_MailboxCommands_3 :
    ∃ (s : State) (r : BitVec 8) (step : Nat), (Claims.commanded s r 3) ∧ (s.owner = r.toNat) ∧ (s.boxNat (r.toNat -
      1) 8 8 = 2 ^ 64 - 1) ∧ (step = checkImage (Claims.slot s (!s.mgmt.active)) s.mgmt.vfloor) := by
  refine ⟨sBox 8 [(0, 3), (8, 0xFF), (9, 0xFF), (10, 0xFF), (11, 0xFF), (12, 0xFF), (13, 0xFF), (14, 0xFF), (15,
    0xFF)] id, 8, _,
    (by refine ⟨⟨by decide, by decide⟩, ?_, ?_, ?_, ?_⟩ <;> decide +kernel),
    ?_, ?_, rfl⟩ <;>
    decide +kernel

theorem witness_MailboxCommands_4 :
    ∃ (s : State) (r : BitVec 8), (Claims.commanded s r 4) ∧ (s.owner = r.toNat) ∧ (s.mgmt.inactiveFail = 0) := by
  refine ⟨sBox 8 [(0, 4)] id, 8,
    (by refine ⟨⟨by decide, by decide⟩, ?_, ?_, ?_, ?_⟩ <;> decide +kernel),
    ?_, ?_⟩ <;>
    decide +kernel

theorem witness_MailboxCommands_5 :
    ∃ (s : State) (r : BitVec 8), (Claims.commanded s r 4) ∧ (s.owner = r.toNat) ∧ (s.mgmt.inactiveFail ≠ 0) := by
  refine ⟨sBox 8 [(0, 4)] (fun m => { m with checkA := 5, checkB := 5 }), 8,
    (by refine ⟨⟨by decide, by decide⟩, ?_, ?_, ?_, ?_⟩ <;> decide +kernel),
    ?_, ?_⟩ <;>
    decide +kernel

theorem witness_MailboxCommands_6 :
    ∃ (s : State) (r : BitVec 8), (Claims.commanded s r 6) ∧ (s.owner = r.toNat) ∧ (s.boxNat (r.toNat - 1) 8 1 = 1) ∧
      (r ∉ s.mgmt.collpart) ∧ (∀ c < 272, (s.core c).moving = false) := by
  refine ⟨sBox 8 [(0, 6), (8, 1)] id, 8,
    (by refine ⟨⟨by decide, by decide⟩, ?_, ?_, ?_, ?_⟩ <;> decide +kernel),
    ?_, ?_, ?_, ?_⟩ <;>
    decide +kernel

theorem witness_MailboxCommands_7 :
    ∃ (s : State) (r : BitVec 8) (i : Instr) (code : Nat), (Claims.commanded s r code) ∧ (s.owner ≠ r.toNat) ∧ (i =
      .update r ∧ code = 3 ∨ i = .activate r ∧ code = 4 ∨ i = .stage r ∧ code = 5 ∨ i = .collpart r ∧ code = 6 ∧ r ∉
      s.mgmt.collpart) := by
  refine ⟨sBox 3 [(0, 6)] id, 8, .collpart 8, 6,
    (by refine ⟨⟨by decide, by decide⟩, ?_, ?_, ?_, ?_⟩ <;> decide +kernel),
    ?_, (by exact .inr (.inr (.inr ⟨rfl, rfl, by decide +kernel⟩)))⟩ <;>
    decide +kernel

theorem witness_ResetsRestart_2 :
    ∃ (s : State) (r : BitVec 8) (v : Word32), (Claims.master r) ∧ (r.toNat = s.owner) ∧ (v ≠ 1380275013) := by
  refine ⟨sOwn 8 id, 8, 0, ⟨by decide, by decide⟩, ?_, ?_⟩ <;>
    decide +kernel

theorem witness_ResetsRestart_3 :
    ∃ (s : State) (r : BitVec 8) (v : Word32), (Claims.master r) ∧ (r.toNat ≠ s.owner) ∧ (s.mgmt.denycnt ≠
      4294967295) := by
  refine ⟨sOwn 8 id, 7, 0x5245_5345, ⟨by decide, by decide⟩, ?_, ?_⟩ <;>
    decide +kernel

theorem witness_ResetsRestart_n0 :
    ∃ (s t : State) (dt : Nat) (fails : Bool → Nat) (b : Bool), (dt ≠ 0) ∧ (s.mgmt.bootState = 0) ∧ (t = s.pass dt) ∧
      (fails = fun b => checkImage (Claims.slot s b) s.mgmt.vfloor) ∧ (b = if fails s.mgmt.active = 0 then
      s.mgmt.active else !s.mgmt.active) := by
  refine ⟨State.reset, _, 1, _, _, ?_, ?_, rfl, rfl, rfl⟩ <;>
    decide +kernel

theorem witness_ResetsRestart_n1 :
    ∃ (s t : State) (dt : Nat), (dt ≠ 0) ∧ (s.mgmt.bootState = 1) ∧ (t = s.pass dt) := by
  refine ⟨({ State.reset with mgmt := { State.reset.mgmt with bootState := 1 } } : State), _, 7, ?_, ?_, rfl⟩ <;>
    decide +kernel

theorem witness_ResetsRestart_n2 :
    ∃ (s t : State) (dt c : Nat), (dt ≠ 0) ∧ (s.mgmt.bootState = 1) ∧ (t = s.pass dt) ∧ (c < 272) := by
  refine ⟨({ State.reset with mgmt := { State.reset.mgmt with bootState := 1 } } : State), _, 7, 271, ?_, ?_, rfl, ?_⟩ <;>
    decide +kernel

theorem witness_ResetsRestart_n3 :
    ∃ (s t : State) (dt d k : Nat), (dt ≠ 0) ∧ (s.mgmt.bootState = 1) ∧ (t = s.pass dt) ∧ (d < 4) ∧ (k < 2) := by
  refine ⟨({ State.reset with mgmt := { State.reset.mgmt with bootState := 1 } } : State), _, 7, 3, 1, ?_, ?_, rfl, ?_, ?_⟩ <;>
    decide +kernel

theorem witness_ResetsRestart_n4 :
    ∃ (s : State) (dt : Nat), dt = 0 ∨ 2 ≤ s.mgmt.bootState.toNat := by
  refine ⟨State.reset, 0, (by exact .inl rfl)⟩

theorem witness_ResetsRestart_n5 :
    ∃ (s : State) (r : BitVec 8), (Claims.master r) ∧ (r.toNat = s.owner) := by
  refine ⟨sOwn 8 id, 8, ⟨by decide, by decide⟩, ?_⟩
  decide +kernel

theorem witness_OutsideEvents_0 :
    ∃ (s : State) (loc : Nat), (loc < MAIN_END ∨ 2 ^ 56 ≤ loc ∧ loc < 2 ^ 56 + 272 * 2 ^ 20) ∧ (loc < 2 ^ 57) ∧ (∀ d <
      4, (s.die d).elsizel = 0) := by
  refine ⟨s0, 2 ^ 56 + 272 * 2 ^ 20 - 1, ?_, ?_, ?_⟩ <;>
    decide +kernel

theorem witness_OutsideEvents_1 :
    ∃ (s : State) (loc d : Nat), (loc < MAIN_END) ∧ (d = loc / 4096 % 4) ∧ (∀ d < 4, (s.die d).elsizel = 0) := by
  refine ⟨s0, MAIN_END - 1, 3, ?_, (by decide +kernel), ?_⟩ <;>
    decide +kernel

theorem witness_OutsideEvents_2 :
    ∃ (s : State) (t : Team) (r : Nat) (x : Stream), (r < 64) ∧ (64 * t.id + r < 2 ^ 57) ∧ (s.team? t.id = some t) ∧
      (t.streams[r]? = some x) := by
  refine ⟨s0, tm, 3, ⟨Vector.replicate 64 0, 0, false⟩, ?_, ?_, (by rfl), ?_⟩ <;>
    decide +kernel

theorem witness_OutsideEvents_3 :
    ∃ (s : State) (q i : Nat) (x : QEntry), (q < 1024) ∧ (i < 4096) ∧ ((s.ipq q).entries[i]? = some x) := by
  refine ⟨sQueue grpQ (ipq 6 [entryQ]), 1023, 0, entryQ, ?_, ?_, ?_⟩ <;>
    decide +kernel

theorem witness_OutsideEvents_5 :
    ∃ (s : State) (r : BitVec 8) (addr : Word64) (bs : List Byte) (loc : Nat), (Claims.master r) ∧ (r ≠ 2) ∧
      (s.mgmt.bootState = 2) ∧ (BitVec.toNat addr + bs.length ≤ MAIN_END ∧ loc = BitVec.toNat addr ∨ MAIN_END <
      BitVec.toNat addr + bs.length ∧ ∃ c off, regionOf none addr = Region.scratch c off ∧ off + bs.length ≤ 2 ^ 20 ∧
      loc = scrLoc c off) := by
  refine ⟨{ s0 with mgmt := { s0.mgmt with bootState := 2 } }, 8, 0x00C0_0000_000F_FFFF, [7], scrLoc 0 (2 ^ 20 - 1),
    ⟨by decide, by decide⟩, ?_, ?_, .inr ⟨?_, 0, 2 ^ 20 - 1, ?_, ?_, ?_⟩⟩ <;>
    decide +kernel

theorem witness_OutsideEvents_8 :
    ∃ (s : State) (p : BitVec 3) (m : BitVec 8), (p.toNat < 6) ∧ (m = 3 + BitVec.setWidth 8 p) := by
  refine ⟨s0, 5, ?_⟩ <;>
    decide +kernel

theorem witness_OutsideEvents_n5 :
    ∃ (s : State) (r : BitVec 8) (addr : Word64) (n size : Nat) (v e x : Code) (old : Nat) (now : State → State),
      (Claims.master r) ∧ (r ≠ 2) ∧ (s.mgmt.bootState = 2) ∧ (n = 4 ∨ n = 8) ∧ (BitVec.toNat addr % n = 0) ∧
      (BitVec.toNat addr + n ≤ MAIN_END) ∧ (s.poisonIn (BitVec.toNat addr) n = none) ∧ (old = s.readNat (BitVec.toNat
      addr) n) ∧ (now = fun t => { t with answer := some (Requester.master r, old) }) := by
  refine ⟨{ s0 with mgmt := { s0.mgmt with bootState := 2 } }, 8, BitVec.ofNat 64 (MAIN_END - 8), 8, 8, 1, 0, 2, 0, _,
    ⟨by decide, by decide⟩, ?_, ?_, ?_, ?_, ?_, ?_, (by decide +kernel), rfl⟩ <;>
    decide +kernel

theorem witness_OutsideEvents_n6 :
    ∃ (s : State) (who : Requester) (addr : Word64) (size : Nat) (op : HostOp), ((∃ p, who = Requester.vf p) ∨ who =
      Requester.master 2 ∨ s.mgmt.bootState ≠ 2) ∧ (∀ (off : ℕ), regionOf none addr ≠ Region.supv off) := by
  exact ⟨s0, .vf 2, 0x100, 2, .write [1], .inl ⟨2, rfl⟩, fun off h => by
    rw [show regionOf none 0x100 = .translated from by decide +kernel] at h
    exact nomatch h⟩

theorem witness_OutsideEvents_n8 :
    ∃ (s s1 : State) (dt w : Nat) (rest : List Turn), (s.agenda = { dt := dt, act := Act.powerCap w } :: rest) ∧
      (s1 = { s with agenda := rest }.pass dt) := by
  exact ⟨{ s0 with agenda := [⟨3, .powerCap 900⟩] }, _, 3, 900, [], rfl, rfl⟩

theorem witness_OutsideEvents_n12 :
    ∃ (s : State) (r : BitVec 8) (addr : Word64) (off : Nat) (bs : List Byte), (Claims.master r) ∧ (regionOf none
      addr = Region.supv off) ∧ (bs.length ≤ 8) := by
  refine ⟨s0, 8, 0x00C0_0001_00FF_FFF8, 0xFF_FFF8, [1, 2, 3, 4, 5, 6, 7, 8], by exact ⟨by decide, by decide⟩, ?_, ?_⟩ <;>
    decide +kernel

theorem witness_OutsideEvents_n11 :
    ∃ (s : State) (r : BitVec 8) (addr : Word64) (off k m : Nat), (Claims.master r) ∧ (regionOf none addr =
      Region.supv off) ∧ (k < 16384) ∧ (m < 8) ∧ (off = 65536 + 16384 * m + k) := by
  refine ⟨s0, 2, 0x00C0_0001_0001_4001, 0x1_4001, 1, 1, by exact ⟨by decide, by decide⟩, ?_, ?_, ?_, ?_⟩ <;>
    decide +kernel

theorem witness_OutsideEvents_n10 :
    ∃ (s : State) (r : BitVec 8) (addr : Word64) (off : Nat), (Claims.master r) ∧ (regionOf none addr = Region.supv
      off) ∧ (off = 0) := by
  refine ⟨s0, 2, 0x00C0_0001_0000_0000, 0, by exact ⟨by decide, by decide⟩, ?_, ?_⟩ <;>
    decide +kernel

theorem witness_OutsideEvents_n9 :
    ∃ (s : State) (p : BitVec 3) (addr : Word64) (off size : Nat) (bs : List Byte), (regionOf none addr = Region.supv
      off) ∧ (off % 32 ≠ 12) ∧ (off ≠ 3840) := by
  refine ⟨s0, 5, 0x00C0_0001_0000_0010, 16, 4, [1], ?_, ?_, ?_⟩ <;>
    decide +kernel

theorem witness_OutsideEvents_n9b :
    ∃ (s : State), (s.clock ≤ 50) := by
  refine ⟨{ s0 with clock := 50 }, ?_⟩
  decide +kernel

theorem witness_OutsideEvents_n10b :
    ∃ (s : State), (50 < s.clock) := by
  refine ⟨s0, ?_⟩
  decide +kernel

theorem witness_OutsideEvents_n7 :
    ∃ (s : State) (p : BitVec 3) (addr : Word64) (off size q j : Nat), (regionOf none addr = Region.supv off) ∧ (q <
      64) ∧ ((s.queue q).qpart.toNat = p.toNat) ∧ (s.mgmt.bootState ≠ 3) ∧ (j = (List.filter (fun k => (s.queue
      k).qpart.toNat == p.toNat) (List.range q)).length) ∧ (off = 32 * j + 12) := by
  refine ⟨{ s0 with queues := vset s0.queues 0 { s0.queue 0 with qpart := 0 } }, 0, 0x00C0_0001_0000_000C, 12, 4, 0, 0, ?_, ?_, ?_,
    ?_, ?_, ?_⟩ <;>
    decide +kernel

theorem witness_OutsideEvents_n8b :
    ∃ (s : State) (p : BitVec 3) (addr : Word64) (off size : Nat), (regionOf none addr = Region.supv off) ∧ (off % 32
      ≠ 12) ∧ (off ≠ 3840) := by
  refine ⟨s0, 5, 0x00C0_0001_0000_0010, 16, 4, ?_, ?_, ?_⟩ <;>
    decide +kernel

theorem witness_StepKeepsForm_0 :
    ∃ (s : State), (Claims.canonical s) := by
  refine ⟨sAway,
    (by refine ⟨by decide +kernel, by unfold Claims.rising; decide +kernel, by unfold Claims.rising; decide +kernel, ?_, by decide +kernel, by decide +kernel, by decide +kernel⟩; intro t ht im h; obtain rfl := List.mem_singleton.mp ht; obtain rfl := Option.some.inj h; decide +kernel)⟩

theorem witness_StepKeepsNumbers_0 :
    ∃ (s : State), (Claims.numbered s) := by
  refine ⟨{ sInbox (tok none) with nextId := 20 }, (by simp only [Claims.numbered]; decide +kernel)⟩

/-- An event of a die, for the log. -/
def event (data : List Byte) (t : Option Nat) : LogEvent := { die := 3, kind := 9, data := data, team := t }

theorem witness_LogEntries_0 :
    ∃ (s : State) (e : LogEvent) (n m loc : Nat), (e.die < 4) ∧ (n = BitVec.toNat (s.die e.die).elsizel) ∧ (6 ≤ n) ∧
      (n ≤ 24) ∧ (e.data.length ≤ 40) ∧ (m = s.owner) ∧ (1 ≤ m) ∧ (m ≤ 8) ∧ (Memory.wf s.mem = true) ∧ (loc =
      BitVec.toNat (s.die e.die).elbase + 64 * (BitVec.toNat (s.die e.die).elhead % 2 ^ n)) := by
  refine ⟨{ sOwn 8 id with dies := vset s0.dies 3 { Die.reset with elsizel := 6, elbase := 0x100000, elhead := 63 } },
    event (List.replicate 40 7) none, 6, 8, _, ?_, (by decide +kernel), ?_, ?_, ?_, (by decide +kernel), ?_, ?_, ?_,
    rfl⟩ <;>
    decide +kernel

theorem witness_LogEntries_1 :
    ∃ (s : State) (e : LogEvent) (m tm : Nat), (e.die < 4) ∧ ((s.die e.die).elsizel = 0) ∧ (m = s.owner) ∧ (1 ≤ m) ∧
      (m ≤ 8) ∧ (e.team = some tm) := by
  refine ⟨sOwn 8 id, event [] (some 2), 8, 2, ?_, ?_, (by decide +kernel), ?_, ?_, ?_⟩ <;>
    decide +kernel

theorem witness_StepRunsDecoded_n0 :
    ∃ (s s1 : State) (g g1 : Group) (loc : Nat) (b : BitVec 512) (i : Instr), (s.agenda = []) ∧ (s.group? s.cur =
      some g) ∧ (s.mayIssue g = true) ∧ (g.wait = none) ∧ (g.line = none) ∧ (s.locOf (s.accessor g) Use.fetch
      (lineAddr g.pc) = Except.ok loc) ∧ (b = BitVec.ofNat 512 (s.readNat loc 64)) ∧ (lineParity b =
      BitVec.extractLsb' 480 16 b) ∧ (s.poisonIn loc 64 = none) ∧ (g1 = { g with line := some (Claims.sound (lineAddr
      g.pc) loc b) }) ∧ (s1 = (s.lookUpAll g [lineAddr g.pc]).setGroup g1) ∧ (Claims.issues s1 g1 b i) := by
  refine ⟨sFetch, _, { grp with pc := 0x5000 }, _, 0x5000, tgtLine, .nop hdr, ?_, cur_of rfl rfl, ?_, ?_, ?_, ?_,
    (by decide +kernel), ?_, ?_, rfl, rfl, (by refine ⟨?_, ?_, ?_, ?_,
      (by intro h c e; cases e), fun h => absurd h (by decide +kernel)⟩ <;> decide +kernel)⟩ <;>
    decide +kernel

theorem witness_StepRunsDecoded_n1 :
    ∃ (s : State) (g : Group) (loc : Nat) (b : BitVec 512) (i : Instr), (s.agenda = []) ∧ (s.group? s.cur = some g) ∧
      (s.mayIssue g = true) ∧ (g.wait = none) ∧ (g.line = some (Claims.sound (lineAddr g.pc) loc b)) ∧ (Claims.issues
      s g b i) := by
  refine ⟨mk { grp with pc := 0x5000, line := some lineF }, { grp with pc := 0x5000, line := some lineF }, 0x5000, tgtLine, .nop hdr,
    ?_, cur_of rfl rfl, ?_, ?_, ?_, (by refine ⟨?_, ?_, ?_, ?_,
      (by intro h c e; cases e), fun h => absurd h (by decide +kernel)⟩ <;> decide +kernel)⟩ <;>
    decide +kernel

theorem witness_StepRunsDecoded_n2 :
    ∃ (s : State) (dt : Nat) (i : Instr) (rest : List Turn), (s.agenda = { dt := dt, act := Act.event i } :: rest) ∧
      (i.isEvent = true) := by
  refine ⟨{ s0 with agenda := [⟨7, .event .perst⟩] }, 7, .perst, [], rfl, ?_⟩
  decide +kernel

end Sys2Proof.Tests
end

section
/-! # O8: the integer and bit instructions (R44, R201 to R203, R205 to R208)

Each instruction of `Claims.intForm` issues a plain body whose operands are those of its table (`RunsAs`), and the model's
function of the source codes is the rule's. A plain body that finds its registers and queues writes what `Claims.writes`
says and sets no flag (`plainBody_eq`). -/

namespace Sys2Proof

theorem ITy.width_ge (ty : ITy) : 8 ≤ ty.width := by cases ty <;> decide

theorem ITy.width_pos (ty : ITy) : 0 < ty.width := Nat.lt_of_lt_of_le (by decide) ty.width_ge

end Sys2Proof

namespace Sys2Proof.Machine

/-! ## What a plain body does -/

theorem runsOnce_eq_once (h : Hdr) (os : List Opd) : runsOnce h os = Claims.once h os := by
  simp [runsOnce, Claims.once, Opd.perLane, List.not_any_eq_all_not]

theorem mem_queuesOf (srcs : List (Opd × Nat)) (n : BitVec 3) : n ∈ queuesOf srcs ↔ ∃ p ∈ srcs, p.1 = .q n := by
  simp only [queuesOf, List.mem_eraseDups, List.mem_filterMap]
  refine exists_congr fun p => and_congr_right fun _ => ?_
  cases p.1 <;> simp

theorem queuesOf_contains (srcs : List (Opd × Nat)) (n : BitVec 3) :
    (queuesOf srcs).contains n = srcs.any (fun p => p.1 = .q n) := by
  rw [Bool.eq_iff_iff]
  simp [mem_queuesOf]

/-- The codes that a lane reads from the sources. -/
def Group.laneArgs (g : Group) (srcs : List (Opd × Nat)) (lane : Nat) : List Code :=
  srcs.map (fun p => g.srcLane p.1 p.2 lane)

theorem Group.laneResults_plain (g : Group) (once : Bool) (act : Mask) (srcs : List (Opd × Nat)) (f : List Code → Code)
    (lane : Nat) :
    g.laneResults once act srcs (fun _ l => (f l, 0)) lane =
      (f (g.laneArgs srcs (Claims.readLane once act lane)), 0) := by
  cases once <;> rfl

theorem onceFlags_zero (act helper : Mask) : onceFlags act helper 0 = 0 := by
  unfold onceFlags
  split
  · rfl
  · exact ite_self _

theorem flagsOver_zero (lanes helper : Mask) : flagsOver lanes helper (fun _ => 0) = 0 := by
  simp [flagsOver]

@[simp] theorem Group.raiseFlags_zero (g : Group) : g.raiseFlags 0 = g := by
  simp [Group.raiseFlags]

/-- A plain body whose registers are held and whose queues can move completes, with the writes of R132 and R133 and no
flag. -/
theorem plainBody_eq {g g1 : Group} {d : Opd} {dw : Nat} {srcs : List (Opd × Nat)} (s : State) (h : Hdr)
    (f : List Code → Code) (hheld : g.checkHeld ((d, dw) :: srcs) = .ok ()) (hq : g.moveQueues d srcs = .ok g1) :
    plainBody h d dw srcs f s g = .ok
      { s := s, g := g1,
        short := Claims.writes g h d dw srcs (fun lane =>
          f (g.laneArgs srcs (Claims.readLane (Claims.once h (d :: srcs.map (·.1))) (g.active h) lane))) } := by
  simp only [plainBody, valueBody, hheld, hq, bind, Except.bind, runsOnce_eq_once, g.laneResults_plain, onceFlags_zero,
    flagsOver_zero, ite_self, Group.raiseFlags_zero, queuesOf_contains, Claims.writes]
  rfl

/-! ## A source holds a value of its width -/

/-- Words joined, the first lowest, fill no more than their own bits. -/
theorem joinWords_lt (f : Nat → Word32) (ks : List Nat) :
    ks.foldr (fun k acc => (f k).toNat + 2 ^ 32 * acc) 0 < 2 ^ (32 * ks.length) := by
  induction ks with
  | nil => simp
  | cons k ks ih =>
    have hk : (f k).toNat < 2 ^ 32 := (f k).isLt
    have hp : 2 ^ (32 * (k :: ks).length) = 2 ^ 32 * 2 ^ (32 * ks.length) := by
      rw [← pow_add, List.length_cons]; ring_nf
    rw [List.foldr_cons, hp]
    omega

theorem toNat_ofNat_lt {m n w : Nat} (h : n < 2 ^ w) : (BitVec.ofNat m n).toNat < 2 ^ w :=
  lt_of_le_of_lt (Nat.mod_le _ _) h

theorem Group.vCode_lt (g : Group) (n : BitVec 6) (w i : Nat) : (g.vCode n w i).toNat < 2 ^ w := by
  unfold Group.vCode
  split
  · exact toNat_ofNat_lt (Nat.mod_lt _ (Nat.two_pow_pos w))
  · refine toNat_ofNat_lt (lt_of_lt_of_le (joinWords_lt _ _) (Nat.pow_le_pow_right (by decide) ?_))
    rw [List.length_range]
    exact Nat.mul_div_le w 32

theorem Group.xCode_lt (g : Group) (n : BitVec 6) {w : Nat} (hw : w ≤ 64 ∨ 128 ≤ w) : (g.xCode n w).toNat < 2 ^ w := by
  unfold Group.xCode
  split
  · exact toNat_ofNat_lt (Nat.mod_lt _ (Nat.two_pow_pos w))
  · next h => exact lt_of_lt_of_le (BitVec.isLt _) (Nat.pow_le_pow_right (by decide) (by omega))

/-- The code of a source has no bit above its type's width (R43, R180). -/
theorem Group.srcLane_lt (g : Group) (o : Opd) (ty : ITy) (i : Nat) : (g.srcLane o ty.width i).toNat < 2 ^ ty.width := by
  have hle : 2 ^ 8 ≤ 2 ^ ty.width := Nat.pow_le_pow_right (by decide) ty.width_ge
  cases o with
  | v n => exact g.vCode_lt n _ i
  | q n => exact g.vCode_lt _ _ i
  | x n => exact g.xCode_lt n (by cases ty <;> decide)
  | m n => exact toNat_ofNat_lt (lt_of_lt_of_le (Bool.toNat_lt _) (by omega))
  | c n =>
    have hc : (g.cVal n).toNat < 2 ^ 4 := (g.cVal n).isLt
    simp only [Group.srcLane, BitVec.toNat_setWidth]
    omega
  | s n => exact Nat.two_pow_pos _
  | t n => exact Nat.two_pow_pos _

/-! ## Integers (R44, R170, R201, R205) -/

theorem low_eq_toNat (w : Nat) (c : Code) : low w c = (c.setWidth w).toNat := by
  simp [low]

theorem intOf_eq_val (ty : ITy) (c : Code) : intOf ty c = Claims.val ty c := by
  have hp : 2 ^ ty.width = 2 * 2 ^ (ty.width - 1) := by
    rw [← Nat.pow_succ', Nat.succ_eq_add_one, Nat.sub_add_cancel ty.width_pos]
  unfold intOf Claims.val
  cases ty.signed with
  | false => simp
  | true =>
    simp only [BitVec.toInt_eq_toNat_cond, BitVec.toNat_setWidth, Bool.true_and, decide_eq_true_eq, if_true]
    have hcast : (2 ^ ty.width : Int) = ((2 ^ ty.width : Nat) : Int) := by simp
    grind

theorem val_of_signed {ty : ITy} (h : ty.signed = true) (c : Code) : Claims.val ty c = (c.setWidth ty.width).toInt :=
  if_pos h

theorem wrap_eq_code (w : Nat) (x : Int) : wrap w x = Claims.code w x := by
  apply BitVec.eq_of_toNat_eq
  simp [wrap, Claims.code, BitVec.toNat_ofInt]

theorem immInt_eq_imm (ty : ITy) (i : BitVec 38) : immInt ty i = Claims.imm ty i := by
  unfold immInt Claims.imm
  rw [wrap_eq_code, ← BitVec.toNat_setWidth, BitVec.ofNat_toNat]

theorem toNat_bits_lt {w : Nat} (x : BitVec w) : (Claims.bits w x).toNat < 2 ^ w := by
  rw [Claims.bits, BitVec.toNat_setWidth]
  exact lt_of_le_of_lt (Nat.mod_le _ _) x.isLt

theorem imm_lt (ty : ITy) (i : BitVec 38) : (Claims.imm ty i).toNat < 2 ^ ty.width := by
  unfold Claims.imm
  split
  · exact toNat_bits_lt (BitVec.ofInt ty.width i.toInt)
  · exact toNat_bits_lt (i.setWidth ty.width)

theorem clamp_eq {a b : Int} (hab : a ≤ b) (x : Int) :
    max a (min b x) = if x < a then a else if b < x then b else x := by
  grind

theorem intResult_eq_res (sat : Bool) (ty : ITy) (x : Int) : intResult sat ty x = Claims.res sat ty x := by
  have hlo : intMin ty = Claims.lo ty := by simp [intMin, Claims.lo]
  have hhi : intMax ty = Claims.hi ty := by simp [intMax, Claims.hi]
  have hle : Claims.lo ty ≤ Claims.hi ty := by cases ty <;> decide
  unfold intResult Claims.res
  rw [wrap_eq_code, hlo, hhi, clamp_eq hle]
  cases sat with
  | false => rfl
  | true => simp only [if_true, apply_ite (Claims.code ty.width)]

theorem imulh_eq (w : Nat) (x y : Int) : wrap w (x * y / (2 ^ w : Nat)) = Claims.code w (x * y / 2 ^ w) := by
  rw [wrap_eq_code]
  push_cast
  rfl

theorem imin_eq (w : Nat) (x y : Int) : wrap w (min x y) = Claims.code w (if x ≤ y then x else y) := by
  rw [wrap_eq_code, min_def]

theorem imax_eq (w : Nat) (x y : Int) : wrap w (max x y) = Claims.code w (if x ≤ y then y else x) := by
  rw [wrap_eq_code, max_def]

theorem iabs_eq (sat : Bool) (ty : ITy) (x : Int) : intResult sat ty x.natAbs = Claims.res sat ty |x| := by
  rw [intResult_eq_res, Int.natCast_natAbs]

/-- A truth value as a code. -/
theorem ofNat_toNat_decide (p : Prop) [Decidable p] :
    BitVec.ofNat 128 (decide p).toNat = if p then (1 : Code) else 0 := by
  split <;> simp [*]

theorem icmpVal_eq_rel (r : ICmp) (x y : Int) : icmpVal r x y = Claims.rel r x y := by
  cases r with
  | flags => rfl
  | ne => simp only [icmpVal, Claims.rel, ofNat_toNat_decide, ite_not]
  | _ => exact ofNat_toNat_decide _

theorem lea_eq (x : BitVec 64) (y : Int) (n : Nat) :
    wrap 64 ((x.toNat : Int) + y * (2 ^ n : Nat)) = Claims.bits 64 (x + BitVec.ofInt 64 y <<< n) := by
  have htwo : BitVec.ofNat 64 (2 ^ n) = BitVec.twoPow 64 n := BitVec.eq_of_toNat_eq (BitVec.toNat_twoPow 64 n).symm
  have h : BitVec.ofInt 64 ((x.toNat : Int) + y * (2 ^ n : Nat)) = x + BitVec.ofInt 64 y <<< n := by
    rw [BitVec.ofInt_add, BitVec.ofInt_mul, BitVec.ofInt_natCast, BitVec.ofNat_toNat, BitVec.setWidth_eq,
      BitVec.ofInt_natCast, htwo, BitVec.mul_twoPow_eq_shiftLeft]
  rw [wrap_eq_code, Claims.code, h, Claims.bits]

/-! ## Bit strings (R201, R202) -/

theorem bits_setWidth {c : Code} {w : Nat} (h : c.toNat < 2 ^ w) : Claims.bits w (c.setWidth w) = c := by
  apply BitVec.eq_of_toNat_eq
  simp only [Claims.bits, BitVec.toNat_setWidth, Nat.mod_eq_of_lt h, Nat.mod_eq_of_lt c.isLt]

/-- A number below 2^w is the sum of its bits. -/
theorem sum_testBit (m v : Nat) :
    ((List.range v).map (fun i => if m.testBit i then 2 ^ i else 0)).sum = m % 2 ^ v := by
  induction v with
  | zero => simp [Nat.mod_one]
  | succ v ih =>
    rw [List.range_succ, List.map_append, List.sum_append, ih, Nat.mod_pow_succ, List.map_singleton, List.sum_singleton,
      Nat.testBit_eq_decide_div_mod_eq]
    rcases Nat.mod_two_eq_zero_or_one (m / 2 ^ v) with h | h <;> simp [h]

theorem reverse_range_eq_map (v : Nat) : (List.range v).reverse = (List.range v).map (fun i => v - 1 - i) := by
  rw [List.range_eq_range', List.reverse_range', List.range_eq_range', Nat.zero_add]

/-- A shift by the whole width or more leaves copies of the sign. -/
theorem ediv_two_pow_of_lt {a : Int} {n : Nat} (h1 : -2 ^ n ≤ a) (h2 : a < 2 ^ n) :
    a / 2 ^ n = if a < 0 then -1 else 0 := by
  have hp : (0 : Int) < 2 ^ n := by positivity
  split
  · next h => exact (Int.ediv_eq_iff_of_pos hp).mpr (by omega)
  · next h => exact Int.ediv_eq_zero_of_lt (by omega) h2

section BitStrings
variable {w : Nat} (x y : BitVec w) (n : Nat)

theorem bits_and : Claims.bits w x &&& Claims.bits w y = Claims.bits w (x &&& y) :=
  BitVec.setWidth_and.symm

theorem bits_or : Claims.bits w x ||| Claims.bits w y = Claims.bits w (x ||| y) :=
  BitVec.setWidth_or.symm

theorem bits_xor : Claims.bits w x ^^^ Claims.bits w y = Claims.bits w (x ^^^ y) :=
  BitVec.setWidth_xor.symm

theorem bits_andn : Claims.bits w x &&& ~~~Claims.bits w y = Claims.bits w (x &&& ~~~y) := by
  ext i hi
  have hlt := BitVec.lt_of_getLsbD (x := x) (i := i)
  simp only [Claims.bits, BitVec.getElem_and, BitVec.getElem_not, BitVec.getElem_setWidth, BitVec.getLsbD_and,
    BitVec.getLsbD_not]
  cases hx : x.getLsbD i with
  | false => rfl
  | true => simp [hlt hx]

theorem notW_eq_bits (c : Code) : notW w c = Claims.bits w (~~~c.setWidth w) := by
  rw [notW, low_eq_toNat, ← BitVec.toNat_not, BitVec.ofNat_toNat, Claims.bits]

theorem shlN_toNat : shlN w x.toNat n = (x <<< n).toNat := by
  unfold shlN
  split
  · next h => simp [BitVec.shiftLeft_eq_zero h]
  · simp [Nat.shiftLeft_eq]

theorem shrN_toNat : shrN w x.toNat n = (x >>> n).toNat := by
  unfold shrN
  split
  · next h => simp [BitVec.ushiftRight_eq_zero h]
  · simp [Nat.shiftRight_eq_div_pow]

theorem sarI_toInt : sarI w x.toInt n = x.toInt >>> n := by
  rw [Int.shiftRight_eq_div_pow]
  push_cast
  unfold sarI
  split
  · next h =>
    have hwn : (2 : Int) ^ w ≤ 2 ^ n := pow_le_pow_right₀ (by decide) h
    have hlt := BitVec.two_mul_toInt_lt (x := x)
    have hle := BitVec.le_two_mul_toInt (x := x)
    exact (ediv_two_pow_of_lt (by omega) (by omega)).symm
  · rfl

theorem wrap_sarI : wrap w (sarI w x.toInt n) = Claims.bits w (x.sshiftRight n) := by
  rw [wrap_eq_code, sarI_toInt]
  rfl

/-- The two halves of a rotation share no bit, so their sum is their union. -/
theorem rotlN_toNat (hw : 0 < w) : rotlN w x.toNat n = (x.rotateLeft n).toNat := by
  have hk : n % w < w := Nat.mod_lt _ hw
  have hpow : 2 ^ w = 2 ^ (w - n % w) * 2 ^ (n % w) := by rw [← pow_add]; congr 1; omega
  have hlow : x.toNat / 2 ^ (w - n % w) < 2 ^ (n % w) := Nat.div_lt_of_lt_mul (hpow ▸ x.isLt)
  rw [BitVec.toNat_rotateLeft, Nat.shiftLeft_eq, hpow, Nat.mul_mod_mul_right, ← Nat.shiftLeft_eq,
    Nat.shiftRight_eq_div_pow, ← Nat.shiftLeft_add_eq_or_of_lt hlow, Nat.shiftLeft_eq, ← Nat.mul_mod_mul_right, ← hpow]
  rfl

theorem popN_low (c : Code) : popN w (low w c) = (List.range w).countP (fun i => c.getLsbD i) := by
  rw [low_eq_toNat, popN, ← List.countP_eq_length_filter]
  refine List.countP_congr fun i hi => ?_
  simp [List.mem_range.mp hi, BitVec.testBit_toNat]

/-- Bit i of the reversed string weighs 2^i, and stood at w − 1 − i. -/
theorem brevN_toNat : brevN w x.toNat = x.reverse.toNat := by
  rw [← Nat.mod_eq_of_lt x.reverse.isLt, ← sum_testBit, brevN, ← List.sum_reverse, ← List.map_reverse,
    reverse_range_eq_map, List.map_map]
  congr 1
  refine List.map_congr_left fun i hi => ?_
  have hi : i < w := List.mem_range.mp hi
  have hbit : x.reverse.toNat.testBit i = x.toNat.testBit (w - 1 - i) := by
    rw [BitVec.testBit_toNat, BitVec.getLsbD_reverse, BitVec.getMsbD_eq_getLsbD, BitVec.testBit_toNat]
    simp [hi]
  simp only [Function.comp_apply, hbit, Nat.sub_sub_self (Nat.le_sub_one_of_lt hi)]

theorem clzN_toNat (hw : 0 < w) : clzN w x.toNat = x.clz.toNat := by
  unfold clzN
  split
  · next h =>
    rw [BitVec.clz_eq_iff_eq_zero.mpr (BitVec.eq_of_toNat_eq h)]
    simp
  · next h =>
    have hne : x ≠ 0#w := fun h0 => h (by rw [h0]; rfl)
    have hclz : x.clz.toNat < w := by
      simpa [BitVec.lt_def] using BitVec.clz_lt_iff_ne_zero.mpr hne
    have hlog : x.toNat.log2 = w - 1 - x.clz.toNat := by
      rw [Nat.log2_eq_iff h, show w - 1 - x.clz.toNat + 1 = w - x.clz.toNat by omega]
      exact ⟨BitVec.two_pow_sub_clz_le_toNat_of_ne_zero hw hne, BitVec.toNat_lt_two_pow_sub_clz⟩
    omega

/-! ## Bit fields (R203) -/

theorem fieldLen_le (ctl : BitVec 16) : Claims.fieldLen w ctl ≤ w - (ctl.setWidth 8).toNat := by
  unfold Claims.fieldLen
  split
  · exact Nat.zero_le _
  · exact Nat.min_le_right _ _

theorem fieldOf_eq (ctl : BitVec 16) : fieldOf w n ctl.toNat =
    ((ctl.setWidth 8).toNat, Claims.fieldLen w ctl, n / 2 ^ (ctl.setWidth 8).toNat % 2 ^ Claims.fieldLen w ctl) := by
  have hpos : (ctl.setWidth 8).toNat = ctl.toNat % 256 := BitVec.toNat_setWidth ..
  have hlen : (ctl.extractLsb' 8 8).toNat = ctl.toNat / 256 % 256 := by
    simp [Nat.shiftRight_eq_div_pow]
  unfold fieldOf Claims.fieldLen
  rw [hpos, hlen]
  by_cases h1 : w ≤ ctl.toNat % 256
  · simp [h1, Nat.mod_one]
  · by_cases h2 : ctl.toNat / 256 % 256 = 0
    · simp [h1, h2, Nat.mod_one]
    · simp [h1, h2]

theorem field_toNat {pos len : Nat} (h : len ≤ w) :
    (Claims.field w x pos len).toNat = x.toNat / 2 ^ pos % 2 ^ len := by
  have hlt : x.toNat / 2 ^ pos % 2 ^ len < 2 ^ len := Nat.mod_lt _ (Nat.two_pow_pos _)
  exact Nat.mod_eq_of_lt (lt_of_lt_of_le hlt (Nat.pow_le_pow_right (by decide) h))

theorem bfxVal_eq_bfx (ty : ITy) (z : BitVec ty.width) (ctl : BitVec 16) :
    bfxVal ty z.toNat ctl.toNat = Claims.bfx ty z ctl := by
  have hf := field_toNat z (pos := (ctl.setWidth 8).toNat) ((fieldLen_le ctl).trans (Nat.sub_le _ _))
  simp only [bfxVal, fieldOf_eq, Claims.bfx, wrap_eq_code, ← hf, BitVec.ofNat_toNat]
  simp [BitVec.testBit_toNat, and_assoc]

/-- A number with the `len` bits from `pos` on replaced by the low ones of another. -/
def replaceBits (a b pos len : Nat) : Nat :=
  a - a / 2 ^ pos % 2 ^ len * 2 ^ pos + b % 2 ^ len * 2 ^ pos

/-- The parts above, in and below the replaced field. -/
theorem replaceBits_eq (a b pos len : Nat) :
    replaceBits a b pos len = 2 ^ pos * (2 ^ len * (a / 2 ^ pos / 2 ^ len) + b % 2 ^ len) + a % 2 ^ pos := by
  have h : 2 ^ pos * (2 ^ len * (a / 2 ^ pos / 2 ^ len) + a / 2 ^ pos % 2 ^ len) + a % 2 ^ pos = a := by
    rw [Nat.div_add_mod, Nat.div_add_mod]
  rw [Nat.mul_add] at h ⊢
  rw [replaceBits, Nat.mul_comm (_ % _), Nat.mul_comm (_ % _)]
  omega

theorem testBit_replaceBits (a b pos len i : Nat) :
    (replaceBits a b pos len).testBit i = if pos ≤ i ∧ i < pos + len then b.testBit (i - pos) else a.testBit i := by
  rw [replaceBits_eq, Nat.testBit_two_pow_mul_add _ (Nat.mod_lt _ (Nat.two_pow_pos _)),
    Nat.testBit_two_pow_mul_add _ (Nat.mod_lt _ (Nat.two_pow_pos _))]
  simp only [Nat.testBit_mod_two_pow, Nat.testBit_div_two_pow]
  by_cases h1 : i < pos
  · simp [h1, Nat.not_le.mpr h1]
  · by_cases h2 : i - pos < len
    · simp [h1, h2, show pos ≤ i ∧ i < pos + len by omega]
    · simp [h1, h2, show ¬ (pos ≤ i ∧ i < pos + len) by omega, show i - pos - len + len + pos = i by omega]

theorem replaceBits_lt (b : Nat) {pos len : Nat} (h : len ≤ w - pos) : replaceBits x.toNat b pos len < 2 ^ w := by
  refine Nat.lt_pow_two_of_testBit _ fun i hi => ?_
  rw [testBit_replaceBits, if_neg (by omega)]
  exact Nat.testBit_lt_two_pow (lt_of_lt_of_le x.isLt (Nat.pow_le_pow_right (by decide) hi))

theorem bfiVal_eq_bfi (ctl : BitVec 16) : bfiVal w x.toNat y.toNat ctl.toNat = Claims.bfi w x y ctl := by
  have hval : bfiVal w x.toNat y.toNat ctl.toNat = BitVec.ofNat 128
      (replaceBits x.toNat y.toNat (ctl.setWidth 8).toNat (Claims.fieldLen w ctl)) := by
    simp only [bfiVal, fieldOf_eq]
    split
    · next h => simp [replaceBits, h, Nat.mod_one]
    · rfl
  rw [hval, Claims.bfi, ← Nat.mod_eq_of_lt (replaceBits_lt x y.toNat (fieldLen_le ctl)), ← sum_testBit]
  simp only [testBit_replaceBits, BitVec.testBit_toNat]

end BitStrings

/-! ## The instructions -/

/-- The instruction issues a plain body over the form's operands, whose function agrees with the form's on the codes that
the group's lanes read. -/
def RunsAs (g : Group) (i : Instr) (k : Claims.IntForm) : Prop :=
  ∃ f, (∀ s, exec i s = issue s i k.h false (plainBody k.h k.d k.dw k.srcs f)) ∧
    ∀ lane, f (g.laneArgs k.srcs lane) = k.f (g.laneArgs k.srcs lane)

/-- An instruction that runs as a form completes with the form's results and no flag (R44, R132, R133). -/
theorem RunsAs.exec_eq {s : State} {g g1 : Group} {i : Instr} {k : Claims.IntForm} (hr : RunsAs g i k)
    (hw : i.wellFormed = true) (hg : s.group? s.cur = some g) (hheld : g.checkHeld ((k.d, k.dw) :: k.srcs) = .ok ())
    (hq : g.moveQueues k.d k.srcs = .ok g1) :
    exec i s = .next (s.finish g1 k.h
      (Claims.writes g k.h k.d k.dw k.srcs (fun lane => k.f (g.laneArgs k.srcs
        (Claims.readLane (Claims.once k.h (k.d :: k.srcs.map (·.1))) (g.active k.h) lane)))) [] none none) := by
  obtain ⟨f, hexec, hf⟩ := hr
  rw [hexec, issue_eq (u := false) hg hw (fun h => Bool.noConfusion h), plainBody_eq s k.h f hheld hq, conclude_ok rfl rfl]
  simp only [hf]

section Forms
variable {g : Group} {i : Instr} {h : Hdr} {ty : ITy} {d a b : Opd} {imm : BitVec 38}

theorem runsAs_plain {k : Claims.IntForm} {f : List Code → Code}
    (hx : ∀ s, exec i s = issue s i k.h false (plainBody k.h k.d k.dw k.srcs f)) (hf : ∀ l, f l = k.f l) :
    RunsAs g i k :=
  ⟨f, hx, fun _ => hf _⟩

theorem runsAs_form2 {F f : Int → Int → Code} (hx : ∀ s, exec i s = issue s i h false (intBody2 h ty d a b F))
    (hf : ∀ x y, F x y = f x y) : RunsAs g i (Claims.form2 h ty d a b f) := by
  refine runsAs_plain hx fun l => ?_
  simp only [Claims.form2, intOf_eq_val, hf]

theorem runsAs_formI {F f : Int → Int → Code} (hx : ∀ s, exec i s = issue s i h false (intBodyImm h ty d a imm F))
    (hf : ∀ x y, F x y = f x y) : RunsAs g i (Claims.formI h ty d a imm f) := by
  refine runsAs_plain hx fun l => ?_
  simp only [Claims.formI, intOf_eq_val, immInt_eq_imm, hf]

theorem runsAs_bit2 {F : Code → Code → Code} {f : BitVec ty.width → BitVec ty.width → BitVec ty.width}
    (hx : ∀ s, exec i s = issue s i h false (bitBody2 h ty d a b F))
    (hf : ∀ x y, F (Claims.bits _ x) (Claims.bits _ y) = Claims.bits _ (f x y)) :
    RunsAs g i (Claims.bit2 h ty d a b f) := by
  refine ⟨_, hx, fun lane => ?_⟩
  show F (g.srcLane a ty.width lane) (g.srcLane b ty.width lane) = _
  rw [← bits_setWidth (g.srcLane_lt a ty lane), ← bits_setWidth (g.srcLane_lt b ty lane), hf]
  rfl

theorem runsAs_bitI {F : Code → Code → Code} {f : BitVec ty.width → BitVec ty.width → BitVec ty.width}
    (hx : ∀ s, exec i s = issue s i h false (bitBodyImm h ty d a imm F))
    (hf : ∀ x y, F (Claims.bits _ x) (Claims.bits _ y) = Claims.bits _ (f x y)) :
    RunsAs g i (Claims.bitI h ty d a imm f) := by
  refine ⟨_, hx, fun lane => ?_⟩
  show F (g.srcLane a ty.width lane) (immInt ty imm) = _
  rw [immInt_eq_imm, ← bits_setWidth (g.srcLane_lt a ty lane), ← bits_setWidth (imm_lt ty imm), hf]
  rfl

theorem runsAs_shift2 {F : Nat → Nat → Nat} {f : BitVec ty.width → Nat → BitVec ty.width}
    (hx : ∀ s, exec i s = issue s i h false (shiftBody h ty d a b F))
    (hf : ∀ x n, F x.toNat n = (f x n).toNat) : RunsAs g i (Claims.shift2 h ty d a b f) := by
  refine runsAs_plain hx fun l => ?_
  simp only [Claims.shift2, low_eq_toNat, hf, BitVec.ofNat_toNat, Claims.bits]

theorem runsAs_shiftI {F : Nat → Nat → Nat} {f : BitVec ty.width → Nat → BitVec ty.width}
    (hx : ∀ s, exec i s = issue s i h false (shiftBodyImm h ty d a imm F))
    (hf : ∀ x n, F x.toNat n = (f x n).toNat) : RunsAs g i (Claims.shiftI h ty d a imm f) := by
  have hn : imm.toNat % 256 = (imm.setWidth 8).toNat := by simp
  refine runsAs_plain hx fun l => ?_
  simp only [Claims.shiftI, low_eq_toNat, hf, BitVec.ofNat_toNat, Claims.bits, hn]

end Forms

/-- Every instruction of the table runs as its form. -/
theorem runsAs_of_intForm (g : Group) {i : Instr} {k : Claims.IntForm} (hk : Claims.intForm i = some k)
    (hw : i.wellFormed = true) : RunsAs g i k := by
  cases i with
  | iadd h sat ty d a b | isub h sat ty d a b | imul h sat ty d a b =>
    cases hk
    exact runsAs_form2 (fun _ => rfl) fun _ _ => intResult_eq_res ..
  | iaddImm h sat ty d a i | isubImm h sat ty d a i | imulImm h sat ty d a i =>
    cases hk
    exact runsAs_formI (fun _ => rfl) fun _ _ => intResult_eq_res ..
  | imulh h ty d a b => cases hk; exact runsAs_form2 (fun _ => rfl) (imulh_eq ty.width)
  | imad h sat ty d a b c =>
    cases hk
    exact runsAs_plain (fun _ => rfl) fun l => by simp only [intOf_eq_val, intResult_eq_res]
  | imin h ty d a b => cases hk; exact runsAs_form2 (fun _ => rfl) (imin_eq ty.width)
  | iminImm h ty d a i => cases hk; exact runsAs_formI (fun _ => rfl) (imin_eq ty.width)
  | imax h ty d a b => cases hk; exact runsAs_form2 (fun _ => rfl) (imax_eq ty.width)
  | imaxImm h ty d a i => cases hk; exact runsAs_formI (fun _ => rfl) (imax_eq ty.width)
  | iabs h sat ty d a => cases hk; exact runsAs_plain (fun _ => rfl) fun l => by simp only [intOf_eq_val, iabs_eq]
  | ineg h sat ty d a =>
    cases hk
    exact runsAs_plain (fun _ => rfl) fun l => by simp only [intOf_eq_val, intResult_eq_res]
  | icmp h r ty d a b =>
    cases hk
    exact runsAs_plain (fun _ => rfl) fun l => by simp only [Claims.form2, intOf_eq_val, icmpVal_eq_rel]
  | icmpImm h r ty d a i =>
    cases hk
    exact runsAs_plain (fun _ => rfl) fun l => by simp only [Claims.formI, intOf_eq_val, immInt_eq_imm, icmpVal_eq_rel]
  | sel h ty d a b c | mov h ty d a | bcast h ty d a => cases hk; exact runsAs_plain (fun _ => rfl) fun _ => rfl
  | lea h ty sh d a b =>
    cases hk
    exact runsAs_plain (fun _ => rfl) fun l => by simp only [low_eq_toNat, intOf_eq_val, lea_eq]
  | leaImm h ty d a i =>
    cases hk
    refine runsAs_plain (fun _ => rfl) fun l => ?_
    have hsh := lea_eq ((arg l 0).setWidth 64) (Claims.val ty (Claims.imm ty i)) 0
    simpa [low_eq_toNat, intOf_eq_val, immInt_eq_imm] using hsh
  | clz h ty d a =>
    cases hk
    exact runsAs_plain (fun _ => rfl) fun l => by
      simp only [low_eq_toNat, clzN_toNat _ ty.width_pos, BitVec.ofNat_toNat, Claims.bits]
  | popc h ty d a => cases hk; exact runsAs_plain (fun _ => rfl) fun l => by simp only [popN_low]
  | and h ty d a b => cases hk; exact runsAs_bit2 (fun _ => rfl) bits_and
  | andImm h ty d a i => cases hk; exact runsAs_bitI (fun _ => rfl) bits_and
  | or h ty d a b => cases hk; exact runsAs_bit2 (fun _ => rfl) bits_or
  | orImm h ty d a i => cases hk; exact runsAs_bitI (fun _ => rfl) bits_or
  | xor h ty d a b => cases hk; exact runsAs_bit2 (fun _ => rfl) bits_xor
  | xorImm h ty d a i => cases hk; exact runsAs_bitI (fun _ => rfl) bits_xor
  | andn h ty d a b => cases hk; exact runsAs_bit2 (fun _ => rfl) bits_andn
  | andnImm h ty d a i => cases hk; exact runsAs_bitI (fun _ => rfl) bits_andn
  | not h ty d a => cases hk; exact runsAs_plain (fun _ => rfl) fun _ => notW_eq_bits _
  | shl h ty d a b => cases hk; exact runsAs_shift2 (fun _ => rfl) shlN_toNat
  | shlImm h ty d a i => cases hk; exact runsAs_shiftI (fun _ => rfl) shlN_toNat
  | shr h ty d a b => cases hk; exact runsAs_shift2 (fun _ => rfl) shrN_toNat
  | shrImm h ty d a i => cases hk; exact runsAs_shiftI (fun _ => rfl) shrN_toNat
  | sar h ty d a b =>
    cases hk
    obtain ⟨hs, -⟩ := Bool.and_eq_true_iff.mp hw
    exact runsAs_plain (fun _ => rfl) fun l => by
      simp only [Claims.shift2, intOf_eq_val, val_of_signed hs, low_eq_toNat, wrap_sarI]
  | sarImm h ty d a i =>
    cases hk
    obtain ⟨hw, -⟩ := Bool.and_eq_true_iff.mp hw
    obtain ⟨hs, -⟩ := Bool.and_eq_true_iff.mp hw
    have hn : i.toNat % 256 = (i.setWidth 8).toNat := by simp
    exact runsAs_plain (fun _ => rfl) fun l => by
      simp only [Claims.shiftI, intOf_eq_val, val_of_signed hs, hn, wrap_sarI]
  | rotl h ty d a b => cases hk; exact runsAs_shift2 (fun _ => rfl) fun x n => rotlN_toNat x n ty.width_pos
  | rotlImm h ty d a i => cases hk; exact runsAs_shiftI (fun _ => rfl) fun x n => rotlN_toNat x n ty.width_pos
  | brev h ty d a =>
    cases hk
    exact runsAs_plain (fun _ => rfl) fun l => by
      simp only [low_eq_toNat, brevN_toNat, BitVec.ofNat_toNat, Claims.bits]
  | bfx h ty d a b => cases hk; exact runsAs_plain (fun _ => rfl) fun l => by simp only [low_eq_toNat, bfxVal_eq_bfx]
  | bfxImm h ty d a i =>
    cases hk
    exact runsAs_plain (fun _ => rfl) fun l => by
      simp only [low_eq_toNat, ← BitVec.toNat_setWidth 16, bfxVal_eq_bfx]
  | bfi h ty d a b c =>
    cases hk
    exact runsAs_plain (fun _ => rfl) fun l => by simp only [low_eq_toNat, bfiVal_eq_bfi]
  | movi h ty d i => cases hk; exact runsAs_plain (fun _ => rfl) fun _ => immInt_eq_imm ty i
  | _ => cases hk

/-- Settles O8: each instruction of the table runs as its form, and an instruction that does completes with the results
of its rule. -/
theorem integerResults : Obligations.IntegerResults := by
  unfold Obligations.IntegerResults
  intro s g g1 i k hk hw hg hheld hq
  exact (runsAs_of_intForm g hk hw).exec_eq hw hg hheld hq

end Sys2Proof.Machine

end

section
/-! # O16: the mask instructions (R218)

The clause of `M0` fails at a delivery point. A mask instruction with `SW` delivers what is outstanding, and a load whose
waiting lane has met poison takes its fault there (R192, R258). The group enters the handler, whose execution mask is the
live lanes (R404): a group with helper lanes does not keep its mask. -/

namespace Sys2Proof.Machine

/-! ## A group with helper lanes at the delivery of a poisoned load -/

/-- A code line whose slot 0 is a target: `MARKER` and the `TGT` bit of slot 0, with its parity (R89 to R92). -/
def targetLine : BitVec 512 :=
  let b := (1#512 <<< 497) ||| (1#512 <<< 507)
  b ||| ((lineParity b).setWidth 512 <<< 480)

/-- The result of a load that has returned; lane 0 waited on an empty line and met poison (R258, R266). -/
def poisonedLoad : Long :=
  { id := 3, writes := [.v 1 0xF vzero], tr := false, returned := true, unit := .memory,
    load := some { ty := .n32, dst := .v 1, uni := false, acq := false, active := 0xF, helper := 0xE, lanes := [] },
    poison := [(0, 0x6000)], gate := none, at_ := 0x4000, spord := 0xFFFF_FFFF, prior := none }

/-- The group of the loaded machine, behind the load. Of its quad 0, lane 0 is live and the others are helpers (R135). -/
def groupAtDelivery : Group :=
  { Group.launched 2 (loadedTeam State.reset) (loadedLaunch State.reset) 0 0 0 0 with
    pc := nextSlot 0x4000, exec := 0xF, helper := 0xE, pend := [poisonedLoad] }

/-- The loaded machine with a trap handler at 0x8000 (R406) and that group. -/
def stateAtDelivery : State :=
  { (State.reset.loaded.writeNat 0x8000 64 targetLine.toNat).modPart 0 (fun p => { p with ptvec := 0x8000 }) with
    groups := [groupAtDelivery], nextId := 4 }

/-- `MNOT M0, M1` with `SW`. -/
def mnotM0 : Instr := .mnot ⟨0, false, true, false, false, false⟩ (.m 0) (.m 1)

/-! ## What it does there -/

/-- The mode and the execution mask of a group after an instruction. -/
def modeAndMaskAfter (i : Instr) (s : State) (id : Nat) : Option (Mode × Mask) :=
  match exec i s with
  | .next u => (u.group? id).map fun g => (g.mode, g.exec)
  | _ => none

theorem modeAndMaskAfter_eq {i : Instr} {s u : State} {g : Group} {id : Nat} (hu : exec i s = .next u)
    (hg : u.group? id = some g) : modeAndMaskAfter i s id = some (g.mode, g.exec) := by
  simp [modeAndMaskAfter, hu, hg]

/-- The group is in the handler, with its live lanes alone. -/
theorem modeAndMaskAfter_mnotM0 : modeAndMaskAfter mnotM0 stateAtDelivery 2 = some (.handler, 0x1) := by
  decide +kernel

/-- Refutes O16: a result for `M0` is discarded, but the fault of a poisoned load that the instruction delivers leaves the
group in the handler with the live lanes for its execution mask. -/
theorem not_maskResults : ¬ Obligations.MaskResults := by
  unfold Obligations.MaskResults
  rintro ⟨hform, -⟩
  have hcur : stateAtDelivery.group? stateAtDelivery.cur = some groupAtDelivery := by rfl
  obtain ⟨-, -, hM0⟩ := hform stateAtDelivery groupAtDelivery mnotM0 _ _ _ rfl rfl hcur
  obtain ⟨u, g', hu, hg', hexec, -⟩ := hM0 rfl
  have hafter := (modeAndMaskAfter_eq hu hg').symm.trans modeAndMaskAfter_mnotM0
  have hlive : groupAtDelivery.exec = 0x1 := hexec.symm.trans (congrArg Prod.snd (Option.some.inj hafter))
  exact absurd hlive (by decide)

end Sys2Proof.Machine

end

section
/-! # O1: decoding the word of an instruction (R160 to R171) -/

namespace Sys2Proof.Machine
open Sys2Proof.Laws

/-- Settles O1, by the round trip of each constructor. -/
theorem decodeEncode : Obligations.DecodeEncode := by
  unfold Obligations.DecodeEncode
  intro i
  show RoundTrip.Statement i
  cases i with
  | iadd => exact RoundTrip.iadd _ _ _ _ _ _
  | iaddImm => exact RoundTrip.iaddImm _ _ _ _ _ _
  | isub => exact RoundTrip.isub _ _ _ _ _ _
  | isubImm => exact RoundTrip.isubImm _ _ _ _ _ _
  | imul => exact RoundTrip.imul _ _ _ _ _ _
  | imulImm => exact RoundTrip.imulImm _ _ _ _ _ _
  | imulh => exact RoundTrip.imulh _ _ _ _ _
  | imad => exact RoundTrip.imad _ _ _ _ _ _ _
  | imin => exact RoundTrip.imin _ _ _ _ _
  | iminImm => exact RoundTrip.iminImm _ _ _ _ _
  | imax => exact RoundTrip.imax _ _ _ _ _
  | imaxImm => exact RoundTrip.imaxImm _ _ _ _ _
  | iabs => exact RoundTrip.iabs _ _ _ _ _
  | ineg => exact RoundTrip.ineg _ _ _ _ _
  | iaddc => exact RoundTrip.iaddc _ _ _ _ _ _
  | icmp => exact RoundTrip.icmp _ _ _ _ _ _
  | icmpImm => exact RoundTrip.icmpImm _ _ _ _ _ _
  | sel => exact RoundTrip.sel _ _ _ _ _ _
  | lea => exact RoundTrip.lea _ _ _ _ _ _
  | leaImm => exact RoundTrip.leaImm _ _ _ _ _
  | clz => exact RoundTrip.clz _ _ _ _
  | popc => exact RoundTrip.popc _ _ _ _
  | and => exact RoundTrip.and _ _ _ _ _
  | andImm => exact RoundTrip.andImm _ _ _ _ _
  | or => exact RoundTrip.or _ _ _ _ _
  | orImm => exact RoundTrip.orImm _ _ _ _ _
  | xor => exact RoundTrip.xor _ _ _ _ _
  | xorImm => exact RoundTrip.xorImm _ _ _ _ _
  | andn => exact RoundTrip.andn _ _ _ _ _
  | andnImm => exact RoundTrip.andnImm _ _ _ _ _
  | not => exact RoundTrip.not _ _ _ _
  | shl => exact RoundTrip.shl _ _ _ _ _
  | shlImm => exact RoundTrip.shlImm _ _ _ _ _
  | shr => exact RoundTrip.shr _ _ _ _ _
  | shrImm => exact RoundTrip.shrImm _ _ _ _ _
  | sar => exact RoundTrip.sar _ _ _ _ _
  | sarImm => exact RoundTrip.sarImm _ _ _ _ _
  | rotl => exact RoundTrip.rotl _ _ _ _ _
  | rotlImm => exact RoundTrip.rotlImm _ _ _ _ _
  | brev => exact RoundTrip.brev _ _ _ _
  | bfx => exact RoundTrip.bfx _ _ _ _ _
  | bfxImm => exact RoundTrip.bfxImm _ _ _ _ _
  | bfi => exact RoundTrip.bfi _ _ _ _ _ _
  | mov => exact RoundTrip.mov _ _ _ _
  | movi => exact RoundTrip.movi _ _ _ _
  | bcast => exact RoundTrip.bcast _ _ _ _
  | laneget => exact RoundTrip.laneget _ _ _ _ _
  | fadd => exact RoundTrip.fadd _ _ _ _ _ _ _
  | faddImm => exact RoundTrip.faddImm _ _ _ _ _ _ _
  | fsub => exact RoundTrip.fsub _ _ _ _ _ _ _
  | fsubImm => exact RoundTrip.fsubImm _ _ _ _ _ _ _
  | fmul => exact RoundTrip.fmul _ _ _ _ _ _ _
  | fmulImm => exact RoundTrip.fmulImm _ _ _ _ _ _ _
  | ffma => exact RoundTrip.ffma _ _ _ _ _ _ _ _
  | fmin => exact RoundTrip.fmin _ _ _ _ _ _
  | fminImm => exact RoundTrip.fminImm _ _ _ _ _ _
  | fmax => exact RoundTrip.fmax _ _ _ _ _ _
  | fmaxImm => exact RoundTrip.fmaxImm _ _ _ _ _ _
  | fcmp => exact RoundTrip.fcmp _ _ _ _ _ _ _
  | fcmpImm => exact RoundTrip.fcmpImm _ _ _ _ _ _ _
  | frcp => exact RoundTrip.frcp _ _ _ _ _ _
  | frsq => exact RoundTrip.frsq _ _ _ _ _ _
  | fsqrt => exact RoundTrip.fsqrt _ _ _ _ _ _
  | fdiv => exact RoundTrip.fdiv _ _ _ _ _ _ _
  | fexp2 => exact RoundTrip.fexp2 _ _ _ _ _ _
  | flog2 => exact RoundTrip.flog2 _ _ _ _ _ _
  | frnd => exact RoundTrip.frnd _ _ _ _ _ _
  | fcvt => exact RoundTrip.fcvt _ _ _ _ _ _ _ _
  | icvt => exact RoundTrip.icvt _ _ _ _ _ _ _
  | fclass => exact RoundTrip.fclass _ _ _ _
  | shfl => exact RoundTrip.shfl _ _ _ _ _ _
  | qxch => exact RoundTrip.qxch _ _ _ _ _
  | ballot => exact RoundTrip.ballot _ _ _ _
  | vote => exact RoundTrip.vote _ _ _ _ _
  | gred => exact RoundTrip.gred _ _ _ _ _
  | gscan => exact RoundTrip.gscan _ _ _ _ _ _
  | mfirst => exact RoundTrip.mfirst _ _ _
  | mpopc => exact RoundTrip.mpopc _ _ _
  | mand => exact RoundTrip.mand _ _ _ _
  | mor => exact RoundTrip.mor _ _ _ _
  | mxor => exact RoundTrip.mxor _ _ _ _
  | mnot => exact RoundTrip.mnot _ _ _
  | mmov => exact RoundTrip.mmov _ _ _
  | mtox => exact RoundTrip.mtox _ _ _
  | mfs => exact RoundTrip.mfs _ _ _
  | mts => exact RoundTrip.mts _ _ _
  | xgrow => exact RoundTrip.xgrow _ _ _
  | xdrop => exact RoundTrip.xdrop _ _ _
  | qcfg => exact RoundTrip.qcfg _ _ _ _
  | bra => exact RoundTrip.bra _ _ _ _
  | jmp => exact RoundTrip.jmp _ _ _
  | call => exact RoundTrip.call _ _ _
  | ret => exact RoundTrip.ret _ _
  | wcall => exact RoundTrip.wcall _ _ _ _ _
  | gcall => exact RoundTrip.gcall _ _ _ _ _
  | wret => exact RoundTrip.wret _ _ _
  | spawn => exact RoundTrip.spawn _ _ _ _
  | spwait => exact RoundTrip.spwait _ _
  | exit => exact RoundTrip.exit _
  | nop => exact RoundTrip.nop _
  | mark => exact RoundTrip.mark _ _
  | bkpt => exact RoundTrip.bkpt _ _
  | trap => exact RoundTrip.trap _ _
  | ld => exact RoundTrip.ld _ _ _ _ _ _
  | st => exact RoundTrip.st _ _ _ _ _ _
  | lfull => exact RoundTrip.lfull _ _ _ _
  | lempty => exact RoundTrip.lempty _ _ _ _
  | ltest => exact RoundTrip.ltest _ _ _ _ _
  | atom => exact RoundTrip.atom _ _ _ _ _ _ _ _
  | cas => exact RoundTrip.cas _ _ _ _ _ _ _ _
  | redm => exact RoundTrip.redm _ _ _ _ _ _ _
  | fence => exact RoundTrip.fence _ _ _
  | fenceFlag => exact RoundTrip.fenceFlag _ _ _ _ _
  | barinit => exact RoundTrip.barinit _ _ _
  | arrive => exact RoundTrip.arrive _ _ _ _ _ _
  | waitb => exact RoundTrip.waitb _ _ _ _ _
  | cmdw => exact RoundTrip.cmdw _ _ _ _
  | notify => exact RoundTrip.notify _ _ _ _
  | bclose => exact RoundTrip.bclose _ _
  | bwait => exact RoundTrip.bwait _ _
  | pref => exact RoundTrip.pref _ _
  | prefTlb => exact RoundTrip.prefTlb _ _
  | eret => exact RoundTrip.eret _
  | eretSkip => exact RoundTrip.eretSkip _
  | eretFwd => exact RoundTrip.eretFwd _
  | mfsr => exact RoundTrip.mfsr _ _ _
  | mtsr => exact RoundTrip.mtsr _ _ _
  | tlbinv => exact RoundTrip.tlbinv _ _ _
  | waitev => exact RoundTrip.waitev _ _ _
  | gang => exact RoundTrip.gang _ _
  | mma => exact RoundTrip.mma _ _ _ _ _ _ _ _ _
  | bdot => exact RoundTrip.bdot _ _ _ _ _ _ _ _ _ _
  | accz => exact RoundTrip.accz _ _ _
  | accrd => exact RoundTrip.accrd _ _ _ _
  | accrdSt => exact RoundTrip.accrdSt _ _ _ _ _ _ _
  | accwr => exact RoundTrip.accwr _ _ _ _
  | tidset => exact RoundTrip.tidset _ _ _
  | tidget => exact RoundTrip.tidget _ _ _ _
  | hadq => exact RoundTrip.hadq _ _ _ _ _ _ _
  | zmap => exact RoundTrip.zmap _ _ _
  | kclaim => exact RoundTrip.kclaim _ _ _ _ _ _
  | kfree => exact RoundTrip.kfree _ _
  | kins => exact RoundTrip.kins _ _ _ _ _ _
  | kprb => exact RoundTrip.kprb _ _ _ _ _ _
  | kdel => exact RoundTrip.kdel _ _ _ _
  | kacc => exact RoundTrip.kacc _ _ _ _ _ _ _
  | kdrn => exact RoundTrip.kdrn _ _ _ _ _ _ _ _ _
  | kstat => exact RoundTrip.kstat _ _ _
  | slen => exact RoundTrip.slen _ _
  | sgen => exact RoundTrip.sgen _ _ _ _ _
  | smul => exact RoundTrip.smul _ _ _ _
  | smin => exact RoundTrip.smin _ _ _ _
  | smax => exact RoundTrip.smax _ _ _ _
  | snot => exact RoundTrip.snot _ _ _
  | ssel => exact RoundTrip.ssel _ _ _ _ _
  | scnt => exact RoundTrip.scnt _ _ _ _
  | sregen => exact RoundTrip.sregen _ _ _ _ _
  | sbit => exact RoundTrip.sbit _ _ _ _
  | scls => exact RoundTrip.scls _ _ _
  | coll => exact RoundTrip.coll _ _ _ _ _ _ _
  | dsend => exact RoundTrip.dsend _ _ _
  | dclose => exact RoundTrip.dclose _ _ _
  | qpush => exact RoundTrip.qpush _ _ _ _ _
  | qpop => exact RoundTrip.qpop _ _ _ _ _ _
  | tile => exact RoundTrip.tile _ _ _ _
  | longResultReturn => exact RoundTrip.longResultReturn _ _
  | switchUnpark => exact RoundTrip.switchUnpark _
  | emptylineLoadRead => exact RoundTrip.emptylineLoadRead _ _ _
  | fetchLineReceive => exact RoundTrip.fetchLineReceive _
  | poolBlockGrant => exact RoundTrip.poolBlockGrant _
  | registerGrowCheck => exact RoundTrip.registerGrowCheck _
  | binFireTimeout => exact RoundTrip.binFireTimeout _ _
  | spawnedGroupStart => exact RoundTrip.spawnedGroupStart _ _
  | pooledCallWithdraw => exact RoundTrip.pooledCallWithdraw _ _
  | teamPlace => exact RoundTrip.teamPlace _
  | timeSliceExpiry => exact RoundTrip.timeSliceExpiry _
  | waitPriorityRaise => exact RoundTrip.waitPriorityRaise _
  | swapCut => exact RoundTrip.swapCut _
  | swapOutComplete => exact RoundTrip.swapOutComplete _
  | teamResume => exact RoundTrip.teamResume _ _
  | qbaseWrite => exact RoundTrip.qbaseWrite _ _ _
  | qctlWrite => exact RoundTrip.qctlWrite _ _ _
  | qtailWrite => exact RoundTrip.qtailWrite _ _ _
  | qabort => exact RoundTrip.qabort _ _ _
  | packetRead => exact RoundTrip.packetRead _
  | dependencePoll => exact RoundTrip.dependencePoll _
  | launchComplete => exact RoundTrip.launchComplete _
  | copyCommandStart => exact RoundTrip.copyCommandStart _
  | copyUnitLand => exact RoundTrip.copyUnitLand _ _
  | copyCommandComplete => exact RoundTrip.copyCommandComplete _
  | ringstall => exact RoundTrip.ringstall _
  | gangForm => exact RoundTrip.gangForm _
  | gangDissolve => exact RoundTrip.gangDissolve _
  | mmaStart => exact RoundTrip.mmaStart _
  | mmaComplete => exact RoundTrip.mmaComplete _
  | subarrayPowerGate => exact RoundTrip.subarrayPowerGate _ _
  | keyOpComplete => exact RoundTrip.keyOpComplete _
  | chordOpComplete => exact RoundTrip.chordOpComplete _
  | tlbinvComplete => exact RoundTrip.tlbinvComplete _
  | collectiveComplete => exact RoundTrip.collectiveComplete _
  | dispatchTokenArrive => exact RoundTrip.dispatchTokenArrive _
  | dispatchTokenDeliver => exact RoundTrip.dispatchTokenDeliver _
  | dispstall => exact RoundTrip.dispstall _
  | softError => exact RoundTrip.softError _ _
  | cpartWrite => exact RoundTrip.cpartWrite _ _ _
  | partitionMoveComplete => exact RoundTrip.partitionMoveComplete _
  | doorbell => exact RoundTrip.doorbell _ _
  | ipqcfgWrite => exact RoundTrip.ipqcfgWrite _ _ _
  | xpoolWrite => exact RoundTrip.xpoolWrite _ _ _
  | trsizelWrite => exact RoundTrip.trsizelWrite _ _ _
  | elsizelWrite => exact RoundTrip.elsizelWrite _ _ _
  | perfctlClr => exact RoundTrip.perfctlClr _ _
  | haltreq => exact RoundTrip.haltreq _ _
  | release => exact RoundTrip.release _ _
  | dbgselWrite => exact RoundTrip.dbgselWrite _ _ _
  | crossTriggerArrive => exact RoundTrip.crossTriggerArrive _
  | traceSample => exact RoundTrip.traceSample _ _
  | registerWrite => exact RoundTrip.registerWrite _ _ _ _
  | ownerClaim => exact RoundTrip.ownerClaim _ _ _
  | ownerOffer => exact RoundTrip.ownerOffer _ _ _
  | ownerTake => exact RoundTrip.ownerTake _ _ _
  | ownerRelease => exact RoundTrip.ownerRelease _ _ _
  | ownerLinkDown => exact RoundTrip.ownerLinkDown _
  | ownerLinkUp => exact RoundTrip.ownerLinkUp _
  | ownerLinkTimeout => exact RoundTrip.ownerLinkTimeout
  | attest => exact RoundTrip.attest _
  | getcert => exact RoundTrip.getcert _
  | update => exact RoundTrip.update _
  | activate => exact RoundTrip.activate _
  | stage => exact RoundTrip.stage _
  | collpart => exact RoundTrip.collpart _
  | resetreq => exact RoundTrip.resetreq _ _
  | perst => exact RoundTrip.perst
  | clkstep => exact RoundTrip.clkstep
  | hostOrPeerRequest => exact RoundTrip.hostOrPeerRequest _ _ _ _
  | peerPortLinkDown => exact RoundTrip.peerPortLinkDown _
  | peerPortLinkUp => exact RoundTrip.peerPortLinkUp _
  | eligibilityHistogramClock => exact RoundTrip.eligibilityHistogramClock _ _

end Sys2Proof.Machine

end

section
/-! # O2 to O4: words, and a group's turn (R157 to R175) -/

namespace Sys2Proof.Machine

/-- Settles O2, word by word. -/
theorem decodesWords : Obligations.DecodesWords := by
  unfold Obligations.DecodesWords
  refine ⟨?_, ?_, ?_, ?_, ?_, ?_⟩ <;> rfl

theorem State.mayIssue_firmware {s : State} {g : Group} (h : s.mayIssue g = true) : g.firmware = none := by
  simp only [State.mayIssue, Bool.and_eq_true, Option.isNone_iff_eq_none] at h
  exact h.1.2

/-- A group that issues by itself takes its turn. -/
theorem issueStep_eq {s : State} {g : Group} (hg : s.group? s.cur = some g) (hm : s.mayIssue g = true) :
    issueStep s = match s.turn with
      | .idle => .next s
      | .done s' => .next s'
      | .run i s' => exec i s' := by
  simp [issueStep, State.firmwareActs, hg, State.mayIssue_firmware hm] <;> rfl

theorem Group.lineAt_of_line {g : Group} {l : FetchLine} {a : Word64} (hl : g.line = some l) (hva : l.va = lineAddr a) :
    g.lineAt a = some l := by
  simp [Group.lineAt, hl, hva]

theorem State.receive_of_line {s : State} {g : Group} {l : FetchLine} (hl : g.line = some l)
    (hva : l.va = lineAddr g.pc) : s.receive g = (s, g) := by
  simp [State.receive, Group.lineAt_of_line hl hva]

/-- The turn of a group whose line has a fault, or a slot that is no instruction. -/
theorem State.turn_error {s s1 : State} {g g1 : Group} {l : FetchLine} {t : Trap} (hg : s.group? s.cur = some g)
    (hm : s.mayIssue g = true) (hr : s.receive g = (s1, g1)) (hl : g1.lineAt g1.pc = some l)
    (hc : checkSlot (s1.bUses g1) l (slotOf g1.pc) = .error t) :
    s.turn = .done (s1.take { g1 with wait := none, line := none } t) := by
  simp [State.turn, hg, hm, hr, hl, hc]

/-- Settles O4. -/
theorem badSlotsTrap : Obligations.BadSlotsTrap := by
  unfold Obligations.BadSlotsTrap
  intro s g l hag hg hm hl hva
  have key : ∀ t, checkSlot (s.bUses g) l (slotOf g.pc) = .error t →
      step s = .next (s.take { g with wait := none, line := none } t) := by
    intro t hc
    have ht := State.turn_error hg hm (State.receive_of_line hl hva) (Group.lineAt_of_line hl hva) hc
    simp only [step, hag, issueStep_eq hg hm, ht]
  refine ⟨fun c hf => key _ ?_, fun hf hp => key _ ?_, fun hf hp hn hs => key _ ?_⟩
  · simp [checkSlot, lineFault, hf]
  · simp [checkSlot, lineFault, hf, hp]
  · simp only [checkSlot, lineFault, hf, hp, hn, hs, Bool.false_eq_true, if_false]
    split_ifs <;> rfl

end Sys2Proof.Machine
end

section
/-! # O3: a step runs the instruction at the pc (R89 to R92, R157 to R159, R175) -/

namespace Sys2Proof.Machine

theorem pairSecond_zero (k : Nat) : pairSecond 0 k = false := rfl

/-- What the decoder accepts is well formed. -/
theorem wellFormed_of_decode {w : BitVec 96} {i : Instr} (h : decode w = .ok i) : i.wellFormed = true := by
  unfold decode at h
  cases hf : decodeFields w with
  | error e => simp [hf, bind, Except.bind] at h
  | ok j =>
    cases hw : j.wellFormed with
    | false => simp [hf, hw, need, bind, Except.bind] at h
    | true =>
      simp only [hf, hw, need, bind, Except.bind, if_true, Except.ok.injEq] at h
      exact h ▸ hw

/-- A slot that `Claims.issues` an instruction passes the checks of R175. -/
theorem checkSlot_of_issues {s1 : State} {g1 : Group} {va : Word64} {loc : Nat} {b : BitVec 512} {i : Instr}
    (hi : Claims.issues s1 g1 b i) (more : Instr → List Nat) :
    checkSlot more (Claims.sound va loc b) (slotOf g1.pc) = .ok i := by
  obtain ⟨hrsv, hrec, htpl, hdec, hmark, -⟩ := hi
  have hm : markOk b i = true := by
    cases i with
    | mark h c => exact hmark h c rfl
    | _ => rfl
  have hs : slotInstr b (slotOf g1.pc) = some i := by
    simp [slotInstr, hdec, wellFormed_of_decode hdec, hm]
  have hl : lineFault (Claims.sound va loc b) = none := by
    simp only [lineFault, Claims.sound, hrsv, hrec]
    rfl
  have hb : (Claims.sound va loc b).bits = b := rfl
  simp [checkSlot, hl, hb, hs, htpl, pairSecond_zero]

/-- The turn of a group that holds a sound line, at a slot where no stop is due. -/
theorem State.turn_run {s s1 : State} {g g1 : Group} {loc : Nat} {b : BitVec 512} {i : Instr}
    (hg : s.group? s.cur = some g) (hm : s.mayIssue g = true) (hr : s.receive g = (s1, g1))
    (hl : g1.lineAt g1.pc = some (Claims.sound (lineAddr g1.pc) loc b)) (hi : Claims.issues s1 g1 b i) :
    s.turn = .run i s1 := by
  have hc := checkSlot_of_issues (va := lineAddr g1.pc) (loc := loc) hi (s1.bUses g1)
  obtain ⟨-, -, -, -, -, hstop⟩ := hi
  have hb : (Claims.sound (lineAddr g1.pc) loc b).bits = b := rfl
  simp only [State.turn, hg, hm, hr, hl, hc, hb, Bool.not_true, Bool.false_eq_true, if_false]
  split
  · next hst =>
    simp only [Bool.and_eq_true] at hst
    cases ho : s1.ordinal g1 g1.pc with
    | none => rfl
    | some o => simp [hstop hst.2 o ho]
  · rfl

/-- Settles O3. -/
theorem stepRunsDecoded : Obligations.StepRunsDecoded := by
  unfold Obligations.StepRunsDecoded
  refine ⟨?_, ?_, ?_⟩
  · intro s s1 g g1 loc b i hag hg hm _ hline hloc hb hpar hpoi hg1 hs1 hi
    have hf : s.fetchLine (s.accessor g) (lineAddr g.pc) = Claims.sound (lineAddr g.pc) loc b := by
      simp [State.fetchLine, hloc, ← hb, hpar, hpoi, Claims.sound]
    have hpc : g1.pc = g.pc := by rw [hg1]
    have hr : s.receive g = (s1, g1) := by
      have hmis : (Claims.sound (lineAddr g.pc) loc b).mismatch = false := rfl
      simp [State.receive, Group.lineAt, hline, hf, hmis, hg1, hs1]
    have hl : g1.lineAt g1.pc = some (Claims.sound (lineAddr g1.pc) loc b) := by
      rw [hpc]
      exact Group.lineAt_of_line (by rw [hg1]) rfl
    simp only [step, hag, issueStep_eq hg hm, State.turn_run hg hm hr hl hi]
  · intro s g loc b i hag hg hm _ hline hi
    have hl := Group.lineAt_of_line hline (a := g.pc) rfl
    have hr := State.receive_of_line hline (g := g) (s := s) rfl
    simp only [step, hag, issueStep_eq hg hm, State.turn_run hg hm hr hl hi]
  · intro s dt i rest hag hi
    simp [step, hag, hi]

end Sys2Proof.Machine
end

section
/-! # O5, O7: what an instruction that completes leaves (R156, R191 to R193, R424, R425) -/

namespace Sys2Proof.Machine

/-! ## What accesses keep -/

theorem vset_of_le {α : Type} {n : Nat} (v : Vector α n) {i : Nat} (a : α) (h : n ≤ i) : vset v i a = v := by
  unfold vset
  ext j hj
  rw [Vector.getElem_setIfInBounds, if_neg (by omega)]

theorem State.core_modCore (s : State) {c : Nat} (hc : c < 272) (f : Core → Core) (k : Nat) :
    (s.modCore c f).core k = if k = c then f (s.core c) else s.core k :=
  vget_vmod s.cores c Core.reset f hc k

/-- A change of a core that keeps a field keeps it in every core. -/
theorem State.core_modCore_keep {α : Type} (p : Core → α) (s : State) (c : Nat) (f : Core → Core)
    (hf : ∀ x, p (f x) = p x) (k : Nat) : p ((s.modCore c f).core k) = p (s.core k) := by
  by_cases hc : c < 272
  · rw [s.core_modCore hc]
    split
    · next h => rw [hf, h]
    · rfl
  · rw [State.modCore, vmod, vset_of_le _ _ (Nat.le_of_not_lt hc)]

/-- `ISSUED` of a core (R424). -/
def State.issued (s : State) (k : Nat) : BitVec 48 :=
  vget (s.core k).events 0 0

theorem State.issued_congr {s t : State} (h : t.cores = s.cores) (k : Nat) : t.issued k = s.issued k := by
  simp only [State.issued, State.core, h]

theorem State.issued_modCore (s : State) (c : Nat) {f : Core → Core} (hf : ∀ x, (f x).events = x.events) (k : Nat) :
    (s.modCore c f).issued k = s.issued k :=
  State.core_modCore_keep (fun x => vget x.events 0 0) s c f (fun x => by rw [hf]) k

theorem State.issued_addEvent (s : State) (c n k : Nat) {i : Nat} (hi : 0 < i) (h8 : i < 8) :
    (s.addEvent c i n).issued k = s.issued k := by
  refine State.core_modCore_keep (fun x => vget x.events 0 0) s c _ (fun x => ?_) k
  show vget (if x.frz then x else { x with events := vmod x.events i 0 (· + BitVec.ofNat 48 n) }).events 0 0 = _
  split
  · rfl
  · rw [vget_vmod _ _ _ _ h8, if_neg (Nat.ne_of_lt hi)]

theorem State.issued_lookUp (s : State) (c part : Nat) (va : Word64) (k : Nat) :
    (s.lookUp c part va).issued k = s.issued k := by
  unfold State.lookUp
  split
  · rfl
  · have h2 : (if (s.dieTlb c part va).isSome = true then s.addEvent c 3 1
        else (s.addEvent c 3 1).addEvent c 4 1).issued k = s.issued k := by
      split <;> simp [State.issued_addEvent]
    dsimp only
    generalize (if (s.dieTlb c part va).isSome = true then s.addEvent c 3 1
      else (s.addEvent c 3 1).addEvent c 4 1) = s2 at h2 ⊢
    split
    · exact h2
    · refine (State.issued_congr (s := State.modCore (s2.modDie _ _) c _) rfl k).trans ?_
      refine (State.issued_modCore _ c ?_ k).trans h2
      exact fun _ => rfl

theorem State.issued_lookUpAll (s : State) (g : Group) (vas : List Word64) (k : Nat) :
    (s.lookUpAll g vas).issued k = s.issued k := by
  unfold State.lookUpAll
  split
  · rfl
  · induction vas generalizing s with
    | nil => rfl
    | cons va rest ih => rw [List.foldl_cons, ih, State.issued_lookUp]

theorem State.issued_accessed (s : State) (g : Group) (ts : List Touch) (k : Nat) :
    (s.accessed g ts).issued k = s.issued k := by
  unfold State.accessed
  split
  · rfl
  · obtain ⟨ps, h⟩ := (s.lookUpAll g (ts.map (fun t => t.va))).watch_spec g ts
    rw [h]
    exact s.issued_lookUpAll g _ k

theorem State.issued_counted (s : State) (g : Group) (n : Nat) {c : Nat} (hg : g.core = some c) (hc : c < 272)
    (hf : (s.core c).frz = false) : (s.counted g n).issued c = s.issued c + 1 := by
  have h0 : g.core.getD 0 = c := by rw [hg]; rfl
  unfold State.counted State.countIssue State.addEvent State.touch State.issued
  rw [h0, State.core_modCore _ hc, if_pos rfl, State.core_modCore _ hc, if_pos rfl]
  have hf' : (({ s with nextId := s.nextId + n } : State).core c).frz = false := hf
  simp only [hf', Bool.false_eq_true, if_false]
  rw [vget_vmod _ _ _ _ (by decide), if_pos rfl]
  rfl

/-! ## Completing -/

theorem Group.countStep_pend (g : Group) (h : Hdr) (ord : Option Nat) : (g.countStep h ord).pend = g.pend := by
  rw [Group.countStep_keep]

/-- An instruction that leaves nothing to deliver, with its accesses. -/
theorem State.finish_touches (s : State) (g : Group) (h : Hdr) (short : List RegWrite) (long : List LongOut)
    (next : Option Word64) (ts : List Touch) (hsw : h.sw = true → g.pend = [] ∧ long = []) {G : Group}
    (hG : G = g.completed h (if h.st then s.ordinal g g.pc else none) short long next s.nextId) :
    s.finish g h short long next none ts = ((s.counted g long.length).accessed G ts).setGroup G := by
  subst hG
  unfold State.finish
  cases hs : h.sw with
  | false => simp only [Bool.not_false, Bool.or_true, if_true]; rfl
  | true =>
    obtain ⟨h1, rfl⟩ := hsw hs
    have hp : ∀ id o pc, (g.results h o pc short [] id).pend = [] := by
      intro id o pc; simp [Group.results, h1]
    simp only [Option.isSome_none, Bool.not_true, Bool.false_or, Bool.false_eq_true, if_false]
    rw [if_pos (by simp [Group.allReturned, Group.countStep_pend, hp])]
    rw [State.deliver_nothing _ _ (by simp [Group.countStep_pend, hp]) rfl]
    rfl

theorem Group.mem_age_bypass {g : Group} {e : Bypassed} (he : e ∈ g.bypass) (h1 : e.age ≤ 1) :
    (⟨e.w, e.age + 1⟩ : Bypassed) ∈ g.age.bypass := by
  rw [Group.age_bypass, List.mem_filter, List.mem_map]
  exact ⟨⟨e, he, rfl⟩, by simpa using h1⟩

/-- Settles O5. -/
theorem finishMovesOn : Obligations.FinishMovesOn := by
  unfold Obligations.FinishMovesOn
  intro s t g h short long next ts hg hsw ht
  rw [State.finish_touches s g h short long next ts hsw rfl] at ht
  obtain ⟨ls, st, hG⟩ :=
    g.completed_spec h (if h.st then s.ordinal g g.pc else none) short long next s.nextId
  revert ht
  generalize hk : g.completed h (if h.st then s.ordinal g g.pc else none) short long next s.nextId = G
  rw [hk] at hG
  intro ht
  obtain ⟨cs, ds, ps, n, ha⟩ := (s.counted g long.length).accessed_spec G ts
  have hid : G.id = g.id := by rw [hG]; simp
  have hgroups : ((s.counted g long.length).accessed G ts).groups = s.groups := by rw [ha]; rfl
  have hself : ((s.counted g long.length).accessed G ts).group? G.id = some g := by
    rw [State.group?_congr hgroups, hid]; exact hg
  refine ⟨G, ?_, ?_, ?_, ?_, ?_, ?_, ?_, ?_, ?_, ?_, ?_, ?_, ?_, ?_, ?_, ?_, ?_, ?_, ?_, ?_, ?_, ?_, ?_, ?_, ?_⟩
  · rw [ht, ← hid]; exact State.group?_setGroup_self hself
  · rw [hG]; cases next <;> rfl
  · rw [hG]; simp
  · rw [hG]
  · rw [hG]
  · rw [hG]; exact g.results_pend h _ g.pc short long s.nextId
  · intro w hw
    rw [hG]
    show (⟨w, 0⟩ : Bypassed) ∈ (g.age.deliverAll h.tr short).bypass
    exact (Group.deliverAll_bypass ..).1 w hw
  · intro e he h1
    rw [hG]
    show (⟨e.w, e.age + 1⟩ : Bypassed) ∈ (g.age.deliverAll h.tr short).bypass
    exact (Group.deliverAll_bypass ..).2 _ (Group.mem_age_bypass he h1)
  · rw [hG]
  · rw [hG]
  · rw [hG]
  · rw [hG]
  · rw [hG]; simp
  · rw [hG]; simp
  · rw [hG]; simp
  · rw [hG]
  · rw [hG]; simp
  · rw [hG]; simp
  · rw [hG]; simp
  · rw [hG]; simp
  · intro c hc h272 hfrz
    have h1 : t.issued c = ((s.counted g long.length).accessed G ts).issued c := by rw [ht]; rfl
    have h2 := State.issued_counted s g long.length hc h272 hfrz
    rw [State.issued_accessed, h2] at h1
    exact h1
  · intro k hk
    rw [ht, State.group?_setGroup_ne (by rw [hid]; exact hk)]
    exact State.group?_congr hgroups k
  · rw [ht, ha]; rfl
  · rw [ht, ha]; rfl
  · rw [ht, ha]; rfl

/-! ## Delivery at `SW` = 1 -/

/-- Without poison, a delivery writes every outstanding result in issue order (R192). -/
theorem State.deliver_clean (s : State) {g : Group} (hp : ∀ l ∈ g.pend, l.poison = []) :
    s.deliver g = s.setGroup
      { g.pend.foldl (fun k l => k.deliverAll l.tr l.writes) g with pend := [], wait := none } := by
  have hown : g.ownPoison = none := by
    unfold Group.ownPoison
    split
    · rfl
    · next l hl =>
      have hz : l.poisonTrap = none := by simp [Long.poisonTrap, hp l (List.mem_of_getLast? hl)]
      rw [hz]
      cases l.prior <;> rfl
  have hlate : g.latePoison = none := by
    unfold Group.latePoison
    rw [List.find?_eq_none.2 (fun l hl => by simp [hp l hl])]
    rfl
  have hfold : ∀ (ls : List Long) (k : Group), (∀ l ∈ ls, l.poison = []) →
      ls.foldl (fun g l => if l.poison.isEmpty then g.deliverAll l.tr l.writes else g) k =
        ls.foldl (fun k l => k.deliverAll l.tr l.writes) k := by
    intro ls
    induction ls with
    | nil => intro k _; rfl
    | cons l ls ih =>
      intro k hls
      rw [List.foldl_cons, List.foldl_cons, hls l List.mem_cons_self]
      exact ih _ (fun x hx => hls x (List.mem_cons_of_mem _ hx))
  unfold State.deliver
  rw [hown, hlate]
  dsimp only
  rw [Group.deliverPend, hfold g.pend g hp]

theorem Group.foldl_deliverAll_keep {α : Type} (p : Group → α) (hp : ∀ g tr ws, p (Group.deliverAll g tr ws) = p g)
    (ls : List Long) (g : Group) : p (ls.foldl (fun k l => k.deliverAll l.tr l.writes) g) = p g := by
  induction ls generalizing g with
  | nil => rfl
  | cons l ls ih => rw [List.foldl_cons, ih, hp]

theorem State.group?_setGroup_of_id {s : State} {g g0 : Group} {k : Nat} (h : s.group? k = some g0) (hk : g.id = k) :
    (s.setGroup g).group? k = some g := by
  subst hk
  exact State.group?_setGroup_self h

/-- An instruction with `SW` delivers what is outstanding, or waits for it (R192). -/
theorem State.finish_sw (s : State) (g : Group) {h : Hdr} (short : List RegWrite) (long : List LongOut)
    (next : Option Word64) (hs : h.sw = true) {G : Group}
    (hG : G = g.completed h (if h.st then s.ordinal g g.pc else none) short long next s.nextId) :
    s.finish g h short long next none =
      if G.allReturned then (s.counted g long.length).deliver G
      else (s.counted g long.length).setGroup { G with wait := some .switch } := by
  subst hG
  unfold State.finish
  simp only [Option.isSome_none, hs, Bool.not_true, Bool.false_or, Bool.false_eq_true, if_false]
  rfl

theorem Group.completed_pend (g : Group) (h : Hdr) (ord : Option Nat) (short : List RegWrite) (long : List LongOut)
    (next : Option Word64) (id : Nat) :
    (g.completed h ord short long next id).pend = (g.results h (spordOf ord) g.pc short long id).pend :=
  Group.countStep_pend ..

theorem Group.completed_id (g : Group) (h : Hdr) (ord : Option Nat) (short : List RegWrite) (long : List LongOut)
    (next : Option Word64) (id : Nat) : (g.completed h ord short long next id).id = g.id := by
  obtain ⟨ls, st, hG⟩ := g.completed_spec h ord short long next id
  rw [hG]
  simp

theorem Group.completed_pc (g : Group) (h : Hdr) (ord : Option Nat) (short : List RegWrite) (long : List LongOut)
    (next : Option Word64) (id : Nat) : (g.completed h ord short long next id).pc = next.getD (nextSlot g.pc) := by
  cases next <;> rfl

/-- A long result that has not returned is outstanding after its instruction. -/
theorem Group.completed_not_returned {long : List LongOut} (hl : ∃ l ∈ long, l.returned = false) (g : Group) (h : Hdr)
    (ord : Option Nat) (short : List RegWrite) (next : Option Word64) (id : Nat) :
    (g.completed h ord short long next id).allReturned = false := by
  obtain ⟨l, hmem, hret⟩ := hl
  obtain ⟨k, hk, hlk⟩ := List.mem_iff_getElem.1 hmem
  rw [Group.allReturned, Group.completed_pend]
  simp only [Group.results, List.all_append, List.all_map, Bool.and_eq_false_iff]
  refine .inr (List.all_eq_false.2 ⟨(l, k), ?_, by simp [hret]⟩)
  rw [List.mem_zipIdx_iff_getElem?, List.getElem?_eq_getElem hk, hlk]

/-- Settles O7. -/
theorem switchDelivers : Obligations.SwitchDelivers := by
  unfold Obligations.SwitchDelivers
  intro s g h short long hg hs
  refine ⟨fun hl => ?_, fun hp => ?_⟩
  · rw [State.finish_sw s g short long none hs rfl, Group.completed_not_returned hl]
    exact ⟨_, State.group?_setGroup_of_id (g0 := g) hg (Group.completed_id _ _ _ _ _ none _), rfl, rfl⟩
  · rw [State.deliver_clean s hp]
    have hid := Group.foldl_deliverAll_keep (·.id) (fun g tr ws => g.deliverAll_id tr ws) g.pend g
    have hpc := Group.foldl_deliverAll_keep (·.pc) (fun g tr ws => g.deliverAll_pc tr ws) g.pend g
    exact ⟨_, State.group?_setGroup_of_id hg hid, rfl, rfl, hpc, rfl⟩

end Sys2Proof.Machine
end

section
/-! # O6: a result is what the next instruction reads (R178 to R181, R193) -/

namespace Sys2Proof.Machine

theorem add_ofNat6_inj (n : BitVec 6) {a b : Nat} (ha : a < 64) (hb : b < 64) :
    n + BitVec.ofNat 6 a = n + BitVec.ofNat 6 b ↔ a = b := by
  rw [BitVec.add_right_inj]
  refine ⟨fun h => ?_, fun h => by rw [h]⟩
  have := congrArg BitVec.toNat h
  simp only [BitVec.toNat_ofNat] at this
  omega

/-- Word k of a code. -/
def word (c : Code) (k : Nat) : Word32 :=
  c.extractLsb' (32 * k) 32

/-- The words of a code make it up, to their number. -/
theorem foldr_words (c : Code) (j n : Nat) :
    ((List.range n).map (· + j)).foldr (fun k acc => (word c k).toNat + 2 ^ 32 * acc) 0 =
      c.toNat / 2 ^ (32 * j) % 2 ^ (32 * n) := by
  induction n generalizing j with
  | zero => simp [Nat.mod_one]
  | succ n ih =>
    have h1 : ((List.range n).map (fun x => x + 1 + j)) = (List.range n).map (· + (j + 1)) := by
      refine List.map_congr_left fun x _ => by omega
    rw [List.range_succ_eq_map, List.map_cons, List.map_map, List.foldr_cons]
    have h2 : ((fun x => x + j) ∘ Nat.succ) = fun x => x + (j + 1) := by
      funext x; simp only [Function.comp_apply]; omega
    rw [h2, ih (j + 1), word, BitVec.extractLsb'_toNat, Nat.shiftRight_eq_div_pow, Nat.zero_add]
    rw [Nat.mul_succ, Nat.pow_add, Nat.mul_succ 32 n, Nat.add_comm (32 * n) 32, Nat.pow_add 2 32, Nat.mod_mul,
      Nat.div_div_eq_div_mul]

/-! ## Reading what was delivered -/

theorem findSome?_of_unique {α β : Type} {f : α → Option β} {l : List α} {y : β} (h1 : ∃ x ∈ l, f x = some y)
    (h2 : ∀ x ∈ l, ∀ z, f x = some z → z = y) : l.findSome? f = some y := by
  cases h : l.findSome? f with
  | none =>
    obtain ⟨x, hx, hy⟩ := h1
    rw [List.findSome?_eq_none_iff.1 h x hx] at hy
    cases hy
  | some z =>
    obtain ⟨x, hx, hz⟩ := List.exists_of_findSome?_eq_some h
    rw [h2 x hx z hz]

theorem Group.deliverAll_cons (g : Group) (tr : Bool) (w : RegWrite) (ws : List RegWrite) :
    g.deliverAll tr (w :: ws) = (g.deliver tr w).deliverAll tr ws := rfl

theorem Group.deliverAll_append (g : Group) (tr : Bool) (ws ws' : List RegWrite) :
    g.deliverAll tr (ws ++ ws') = (g.deliverAll tr ws).deliverAll tr ws' :=
  List.foldl_append ..

/-- Delivered results are the youngest entries of the bypass. -/
theorem Group.deliverAll_bypass_eq (g : Group) (tr : Bool) (ws : List RegWrite) :
    (g.deliverAll tr ws).bypass = (ws.map (fun w => (⟨w, 0⟩ : Bypassed))).reverse ++ g.bypass := by
  induction ws generalizing g with
  | nil => rfl
  | cons w ws ih => rw [Group.deliverAll_cons, ih, Group.deliver_bypass]; simp

/-- With `TR` the register files stay as they were. -/
theorem Group.deliverAll_tr (g : Group) (ws : List RegWrite) :
    g.deliverAll true ws = { g with bypass := (g.deliverAll true ws).bypass } := by
  induction ws generalizing g with
  | nil => rfl
  | cons w ws ih => rw [Group.deliverAll_cons, ih]; rfl

theorem Group.visible_deliverAll (g : Group) (tr : Bool) (ws : List RegWrite) :
    (g.deliverAll tr ws).visible = (ws.map (fun w => (⟨w, 0⟩ : Bypassed))).reverse ++ g.visible := by
  rw [Group.visible, Group.deliverAll_bypass_eq, List.filter_append, Group.visible]
  congr 1
  rw [List.filter_eq_self]
  simp

/-! ## Vector registers -/

/-- Writes of some vector registers from n on. -/
def vSpan (n : BitVec 6) (lanes : Mask) (val : Nat → VReg) (m : Nat) : List RegWrite :=
  (List.range m).map (fun k => .v (n + BitVec.ofNat 6 k) lanes (val k))

theorem Group.vLane_vSpan (g : Group) (tr : Bool) (n : BitVec 6) {lanes : Mask} (val : Nat → VReg) {m k i : Nat}
    (hm : m ≤ 64) (hk : k < m) (hi : lanes.getLsbD i = true) :
    (g.deliverAll tr (vSpan n lanes val m)).vLane (n + BitVec.ofNat 6 k) i = vlane (val k) i := by
  unfold Group.vLane
  rw [Group.visible_deliverAll, List.findSome?_append]
  rw [findSome?_of_unique (y := vlane (val k) i)]
  · rfl
  · refine ⟨⟨.v (n + BitVec.ofNat 6 k) lanes (val k), 0⟩, ?_, by simp [hi]⟩
    simp only [List.mem_reverse, List.mem_map, vSpan]
    exact ⟨_, ⟨k, List.mem_range.2 hk, rfl⟩, rfl⟩
  · intro b hb z hz
    simp only [List.mem_reverse, List.mem_map, vSpan] at hb
    obtain ⟨_, ⟨j, hj, rfl⟩, rfl⟩ := hb
    have hj := List.mem_range.1 hj
    have hjk : j = k := by
      by_contra hne
      rw [← add_ofNat6_inj n (by omega) (by omega)] at hne
      simp [hne] at hz
    subst hjk
    simpa [hi] using hz.symm

theorem vlane_vmerge {lanes : Mask} {i : Nat} (hi : lanes.getLsbD i = true) (new old : VReg) :
    vlane (vmerge lanes new old) i = vlane new i := by
  rw [vmerge, vlane_vreg _ _ (BitVec.lt_of_getLsbD hi), if_pos hi]

theorem Group.file_vSpan (g : Group) (n : BitVec 6) {lanes : Mask} (val : Nat → VReg) {m k i : Nat}
    (hm : m ≤ 64) (hk : k < m) (hi : lanes.getLsbD i = true) :
    vlane (vget (g.deliverAll false (vSpan n lanes val m)).v (n + BitVec.ofNat 6 k).toNat vzero) i = vlane (val k) i := by
  induction m with
  | zero => omega
  | succ m ih =>
    have hs : vSpan n lanes val (m + 1) = vSpan n lanes val m ++ [.v (n + BitVec.ofNat 6 m) lanes (val m)] := by
      simp [vSpan, List.range_succ]
    rw [hs, Group.deliverAll_append]
    show vlane (vget (vset (g.deliverAll false (vSpan n lanes val m)).v (n + BitVec.ofNat 6 m).toNat _) _ vzero) i = _
    have h64 : (n + BitVec.ofNat 6 m).toNat < 64 := BitVec.isLt _
    rw [vget_vset _ _ _ _ h64]
    rcases Nat.lt_succ_iff_lt_or_eq.1 hk with hlt | rfl
    · have hne : (n + BitVec.ofNat 6 k).toNat ≠ (n + BitVec.ofNat 6 m).toNat := fun h =>
        Nat.ne_of_lt hlt ((add_ofNat6_inj n (by omega) (by omega)).1 (BitVec.eq_of_toNat_eq h))
      rw [if_neg hne]
      exact ih (by omega) hlt
    · rw [if_pos rfl, vlane_vmerge hi]

theorem vWrites_eq_vSpan (n : BitVec 6) (w : Nat) (lanes : Mask) (f : Nat → Code) :
    vWrites n w lanes f = vSpan n lanes
      (fun k => vreg (fun i => if lanes.getLsbD i then word (f i) k else 0)) (max 1 (w / 32)) := rfl

/-- A group whose registers from n on hold the words of a code reads the code there. -/
theorem Group.vCode_of_words {g : Group} {n : BitVec 6} {w i : Nat} {c : Code}
    (hw : w = 8 ∨ w = 16 ∨ w = 32 ∨ w = 64 ∨ w = 128)
    (h : ∀ k < max 1 (w / 32), g.vLane (n + BitVec.ofNat 6 k) i = word c k) :
    g.vCode n w i = BitVec.ofNat 128 (c.toNat % 2 ^ w) := by
  unfold Group.vCode
  split
  · next h32 =>
    have h0 := h 0 (by omega)
    rw [show n + BitVec.ofNat 6 0 = n by simp] at h0
    have hle : (2 : Nat) ^ w ∣ 2 ^ 32 := Nat.pow_dvd_pow 2 h32
    rw [h0, word, BitVec.extractLsb'_toNat, Nat.mul_zero, Nat.shiftRight_zero, Nat.mod_mod_of_dvd _ hle]
  · next h32 =>
    have hrange : ∀ (l : List Nat), (∀ k ∈ l, k < max 1 (w / 32)) →
        l.foldr (fun k acc => (g.vLane (n + BitVec.ofNat 6 k) i).toNat + 2 ^ 32 * acc) 0 =
          l.foldr (fun k acc => (word c k).toNat + 2 ^ 32 * acc) 0 := by
      intro l hl
      induction l with
      | nil => rfl
      | cons k l ih =>
        rw [List.foldr_cons, List.foldr_cons, ih fun x hx => hl x (List.mem_cons_of_mem _ hx), h k (hl k List.mem_cons_self)]
    have hwords := foldr_words c 0 (w / 32)
    simp only [Nat.add_zero, List.map_id'] at hwords
    rw [hrange _ (fun k hk => by have := List.mem_range.1 hk; omega), hwords]
    have h32w : 32 * (w / 32) = w := by omega
    rw [h32w, Nat.mul_zero, Nat.pow_zero, Nat.div_one]

theorem max_words_le {w : Nat} (hw : w = 8 ∨ w = 16 ∨ w = 32 ∨ w = 64 ∨ w = 128) : max 1 (w / 32) ≤ 64 := by omega

theorem vlane_words {lanes : Mask} {i : Nat} (hi : lanes.getLsbD i = true) (f : Nat → Code) (k : Nat) :
    vlane (vreg (fun i => if lanes.getLsbD i then word (f i) k else 0)) i = word (f i) k := by
  rw [vlane_vreg _ _ (BitVec.lt_of_getLsbD hi), if_pos hi]

/-- A vector result is what the next instruction reads (R178, R193). -/
theorem Group.vCode_deliverAll (g : Group) (tr : Bool) (n : BitVec 6) {w : Nat} {lanes : Mask} (f : Nat → Code) {i : Nat}
    (hw : w = 8 ∨ w = 16 ∨ w = 32 ∨ w = 64 ∨ w = 128) (hi : lanes.getLsbD i = true) :
    (g.deliverAll tr (vWrites n w lanes f)).vCode n w i = BitVec.ofNat 128 ((f i).toNat % 2 ^ w) := by
  refine Group.vCode_of_words hw fun k hk => ?_
  rw [vWrites_eq_vSpan, Group.vLane_vSpan _ _ _ _ (max_words_le hw) hk hi, vlane_words hi]

/-- Without `TR` it stands in the file too. -/
theorem Group.vCode_file (g : Group) (n : BitVec 6) {w : Nat} {lanes : Mask} (f : Nat → Code) {i : Nat}
    (hw : w = 8 ∨ w = 16 ∨ w = 32 ∨ w = 64 ∨ w = 128) (hi : lanes.getLsbD i = true) :
    ({ g.deliverAll false (vWrites n w lanes f) with bypass := [] } : Group).vCode n w i =
      BitVec.ofNat 128 ((f i).toNat % 2 ^ w) := by
  refine Group.vCode_of_words hw fun k hk => ?_
  have hfile := g.file_vSpan n (fun k => vreg (fun i => if lanes.getLsbD i then word (f i) k else 0))
    (max_words_le hw) hk hi
  rw [vlane_words hi] at hfile
  exact hfile

/-! ## The other files -/

/-- A result in uniform registers is what the next instruction reads (R180, R193). -/
theorem Group.xCode_deliverAll (g : Group) (tr : Bool) (n : BitVec 6) (w : Nat) (c : Code) (hw : w ≤ 64 ∨ w = 128) :
    (g.deliverAll tr (xWrites n w c)).xCode n w = BitVec.ofNat 128 (c.toNat % 2 ^ w) := by
  unfold Group.xCode xWrites
  split
  · next h =>
    have hx : (g.deliverAll tr [.x n (c.setWidth 64)]).xVal n = c.setWidth 64 := by
      simp [Group.deliverAll, Group.xVal, Group.visible, Group.deliver_bypass]
    have hd : (2 : Nat) ^ w ∣ 2 ^ 64 := Nat.pow_dvd_pow 2 h
    rw [hx, BitVec.toNat_setWidth, Nat.mod_mod_of_dvd _ hd]
  · next h =>
    have hw : w = 128 := by omega
    subst hw
    have hlo : (g.deliverAll tr [.x n (c.setWidth 64), .x (n + 1) (c.extractLsb' 64 64)]).xVal n = c.setWidth 64 := by
      simp [Group.deliverAll, Group.xVal, Group.visible, Group.deliver_bypass]
    have hhi : (g.deliverAll tr [.x n (c.setWidth 64), .x (n + 1) (c.extractLsb' 64 64)]).xVal (n + 1) =
        c.extractLsb' 64 64 := by
      simp [Group.deliverAll, Group.xVal, Group.visible, Group.deliver_bypass]
    rw [hlo, hhi, BitVec.toNat_setWidth, BitVec.extractLsb'_toNat, Nat.shiftRight_eq_div_pow]
    congr 1
    have := c.isLt
    omega

theorem ofNat_toNat_getLsbD (c : Code) : BitVec.ofNat 128 (c.getLsbD 0).toNat = BitVec.ofNat 128 (c.toNat % 2) := by
  rw [← BitVec.testBit_toNat, Nat.testBit_zero]
  rcases Nat.mod_two_eq_zero_or_one c.toNat with h | h <;> simp [h]

/-- Settles O6. -/
theorem resultsReadBack : Obligations.ResultsReadBack := by
  unfold Obligations.ResultsReadBack
  refine ⟨fun g tr d w lanes f i hw hi => ⟨?_, ?_, ?_, ?_, ?_, ?_⟩, fun g tr lanes val n => ?_⟩
  · rintro n rfl
    exact g.age.vCode_deliverAll tr n f hw hi
  · rintro n rfl
    exact g.age.xCode_deliverAll tr n w _ (by omega)
  · rintro n - rfl
    rw [Group.deliverAll_tr]
    exact ⟨rfl, rfl⟩
  · rintro n rfl rfl
    exact g.age.vCode_file n f hw hi
  · rintro n rfl hn rfl
    have hlt := BitVec.lt_of_getLsbD hi
    have hm : ∀ val : Mask, (g.age.deliverAll false [.m n lanes val]).mVal n =
        (val &&& lanes) ||| (vget g.m n.toNat 0 &&& ~~~lanes) := by
      intro val
      have h8 : n.toNat < 8 := n.isLt
      simp only [Group.deliverAll, List.foldl_cons, List.foldl_nil, Group.mVal, if_neg hn, Group.deliver_m, Group.put,
        Bool.false_eq_true, if_false, vget_vset _ _ _ _ h8, if_true, Group.age_m]
    simp only [Group.srcLane, Group.writesTo, hm, ← ofNat_toNat_getLsbD, BitVec.getLsbD_or, BitVec.getLsbD_and,
      BitVec.getLsbD_not, getLsbD_maskOf, hi, hlt, decide_true, Bool.true_and, Bool.and_true, Bool.not_true,
      Bool.and_false, Bool.or_false]
  · rintro n rfl rfl
    have hc : ∀ val : BitVec 4, (g.age.deliverAll false [.c n val]).cVal n = val := by
      intro val
      have h4 : n.toNat < 4 := n.isLt
      simp [Group.deliverAll, Group.cVal, Group.deliver_c, Group.put, vget_vset _ _ _ _ h4]
    simp only [Group.srcLane, Group.writesTo, hc]
    apply BitVec.eq_of_toNat_eq
    simp
  · have hm0 : (g.deliver tr (.m 0 lanes val)).m = g.m := by
      rw [Group.deliver_m]
      cases tr <;> rfl
    refine ⟨?_, (if_pos rfl).trans (Group.deliver_exec ..)⟩
    simp only [Group.mVal, hm0, Group.deliver_exec]

end Sys2Proof.Machine
end

section
/-! # O26, O59, O60: memory, reset, the error log (R3, R295, R420, R437) -/

namespace Sys2Proof.Machine

/-! ## Bytes -/

@[simp] theorem length_bytesOf (n v : Nat) : (bytesOf n v).length = n := by simp [bytesOf]

theorem getD_bytesOf {n k : Nat} (v : Nat) (h : k < n) : (bytesOf n v).getD k 0 = byteOf v k := by
  simp [bytesOf, List.getD, h]

/-- The number of the bytes k, k + 1, … of a number. -/
theorem natOf_bytes (n k v : Nat) :
    natOf ((List.range n).map (fun i => byteOf v (i + k))) = v / 2 ^ (8 * k) % 2 ^ (8 * n) := by
  induction n generalizing k with
  | zero => simp [natOf, Nat.mod_one]
  | succ n ih =>
    have hstep : (fun i => byteOf v (i + k)) ∘ Nat.succ = fun i => byteOf v (i + (k + 1)) := by
      funext i; simp only [Function.comp_apply]; congr 1; omega
    rw [List.range_succ_eq_map, List.map_cons, List.map_map, hstep]
    show (byteOf v (0 + k)).toNat + 256 * natOf _ = _
    rw [ih (k + 1), Nat.zero_add, byteOf, BitVec.toNat_ofNat, Nat.shiftRight_eq_div_pow]
    rw [Nat.mul_succ 8 n, Nat.add_comm (8 * n) 8, Nat.pow_add 2 8, Nat.mod_mul, Nat.mul_succ, Nat.pow_add,
      Nat.div_div_eq_div_mul]

theorem natOf_bytesOf (n v : Nat) : natOf (bytesOf n v) = v % 2 ^ (8 * n) := by
  have h := natOf_bytes n 0 v
  simpa [bytesOf] using h

/-- The bytes written at a location are read back there. -/
theorem Memory.readN_write {m : List Host.Cell} (h : Memory.wf m = true) (a : Nat) (bs : List Byte) :
    Memory.readN (Memory.write m a bs) a bs.length = bs := by
  refine List.ext_getElem (by simp [Memory.readN]) fun i h1 h2 => ?_
  simp only [Memory.readN, List.getElem_map, List.getElem_range, Memory.read_write h]
  rw [if_pos (by omega), Nat.add_sub_cancel_left]
  simp [List.getD, h2]

theorem State.readNat_writeNat {s : State} (h : Memory.wf s.mem = true) (loc n v : Nat) :
    (s.writeNat loc n v).readNat loc n = v % 2 ^ (8 * n) := by
  have hr := Memory.readN_write h loc (bytesOf n v)
  rw [length_bytesOf] at hr
  rw [State.readNat, State.writeNat, State.write_mem, hr, natOf_bytesOf]

theorem State.mem_poison_write (s : State) (loc : Nat) (bs : List Byte) (u : Nat) :
    u ∈ (s.write loc bs).poison ↔ u ∈ s.poison ∧ ¬ (loc ≤ u * 16 ∧ u * 16 + 16 ≤ loc + bs.length) := by
  simp [State.write, imp_iff_not_or]

/-- Settles O26. -/
theorem memoryReadsBack : Obligations.MemoryReadsBack := by
  unfold Obligations.MemoryReadsBack
  intro s loc bs h
  exact ⟨Memory.write_wf h loc bs, State.read8_write h loc bs, State.readNat_writeNat h loc,
    State.mem_poison_write s loc bs⟩

/-! ## Reset -/

theorem vget_replicate_lt {α : Type} {n i : Nat} (a d : α) (h : i < n) : vget (Vector.replicate n a) i d = a := by
  simp only [vget, List.getD, Vector.toList_replicate, List.getElem?_replicate, if_pos h, Option.getD_some]

theorem canonical_reset : Claims.canonical State.reset := by
  have hbox : ∀ k, vget State.reset.mgmt.boxes k [] = [] := fun k => vget_replicate 8 [] k
  have hrep : ∀ k, vget State.reset.mgmt.replies k [] = [] := fun k => vget_replicate 8 [] k
  refine ⟨rfl, List.Pairwise.nil, List.Pairwise.nil, ?_, fun k _ => ?_, rfl, rfl, rfl⟩
  · intro t ht
    cases ht
  · rw [hbox, hrep]
    exact ⟨rfl, rfl⟩

theorem numbered_reset : Claims.numbered State.reset := by
  refine ⟨?_, ?_, ?_, ?_, ?_, ?_, ?_⟩ <;> exact ⟨List.nodup_nil, fun i hi => by cases hi⟩

/-- Settles O59. -/
theorem resetValues : Obligations.ResetValues := by
  unfold Obligations.ResetValues
  have hq : ∀ q, State.reset.queue q = LQueue.reset := fun q => vget_replicate 64 _ q
  have hi : ∀ q, State.reset.ipq q = ⟨false, 0, 0, 0, []⟩ := fun q => vget_replicate 1024 _ q
  have hc : ∀ c, State.reset.core c = Core.reset := fun c => vget_replicate 272 _ c
  have hp : ∀ p, State.reset.part p = Partition.reset := fun p => vget_replicate 8 _ p
  have hd : ∀ d, State.reset.die d = Die.reset := fun d => vget_replicate 4 _ d
  refine ⟨rfl, rfl, rfl, rfl, fun q _ => ?_, fun p h => vget_replicate_lt 2000 0 h, fun q _ => ?_, fun c _ => ?_,
    fun p _ => ?_, fun d _ => ?_, rfl, rfl, rfl, rfl, canonical_reset, numbered_reset⟩
  · rw [hq]; exact ⟨rfl, rfl, rfl, rfl⟩
  · rw [hi]; exact ⟨rfl, rfl, rfl, rfl⟩
  · rw [hc]; exact ⟨rfl, rfl, rfl, rfl, rfl, rfl⟩
  · rw [hp]
    exact ⟨rfl, rfl, rfl, rfl, rfl, rfl, rfl, rfl, rfl, fun i h => vget_replicate_lt 0 1 h,
      fun i h => vget_replicate_lt 0 1 h⟩
  · rw [hd]; exact ⟨rfl, rfl, rfl, rfl⟩

/-! ## The error log -/

theorem State.die_modDie (s : State) {d : Nat} (hd : d < 4) (f : Die → Die) (k : Nat) :
    (s.modDie d f).die k = if k = d then f (s.die d) else s.die k :=
  vget_vmod s.dies d Die.reset f hd k

/-- The entry of an event, as the rule lays it out. -/
theorem LogEvent.bytes_eq (s : State) {e : LogEvent} (h : e.data.length ≤ 40) (seq : BitVec 48) :
    e.bytes s.time seq = Claims.entryBytes s e seq.toNat := by
  have hrep : List.replicate 40 (0 : Byte) =
      List.replicate (40 - e.data.length) 0 ++ List.replicate e.data.length 0 := by
    rw [List.replicate_append_replicate, Nat.sub_add_cancel h]
  rw [LogEvent.bytes, hrep, ← List.append_assoc]
  refine List.take_left' ?_
  simp only [List.length_append, length_bytesOf, List.length_replicate]
  omega

theorem length_entryBytes (s : State) {e : LogEvent} (h : e.data.length ≤ 40) (seq : Nat) :
    (Claims.entryBytes s e seq).length = 64 := by
  simp only [Claims.entryBytes, List.length_append, length_bytesOf, List.length_replicate]
  omega

theorem State.raise_of_ne (s : State) {m : Nat} (h : 1 ≤ m) :
    s.raise m = { s with mgmt := { s.mgmt with irq := vmod s.mgmt.irq m 0 (· + 1) } } :=
  if_neg (by omega)

theorem State.setEvents_eq (s : State) (tm : Nat) (b : BitVec 16) :
    s.setEvents tm b = { s with
      groups := s.groups.map (fun g =>
        if g.team = tm ∧ g.core ≠ none then { g with evpend := g.evpend ||| b } else g)
      teams := s.teams.map (fun t =>
        if t.id = tm ∧ t.core = none then { t with evpend := t.evpend ||| b } else t) } := by
  simp [State.setEvents, Option.isSome_iff_ne_none]

/-- The ring of a die after an event. -/
def State.ringed (s : State) (e : LogEvent) : State :=
  if (s.die e.die).elsizel = 0 then s
  else
    (s.write ((s.die e.die).elbase.toNat + 64 * ((s.die e.die).elhead.toNat % 2 ^ (s.die e.die).elsizel.toNat))
      (e.bytes s.time ((s.die e.die).elSeq + 1))).modDie e.die
        (fun d => { d with elhead := d.elhead + 1, elSeq := d.elSeq + 1 })

/-- Who hears of an event: the owner, and the groups of its team. -/
def State.notified (s : State) (e : LogEvent) (owner : Nat) : State :=
  match e.team with
  | some t => (s.raise owner).setEvents t 2
  | none => s.raise owner

theorem State.log_eq (s : State) (e : LogEvent) : s.log e = (s.ringed e).notified e s.owner := rfl

theorem State.notified_some {e : LogEvent} {tm m : Nat} (ht : e.team = some tm) (h : 1 ≤ m) (s : State) :
    s.notified e m = { s with
      mgmt := { s.mgmt with irq := vmod s.mgmt.irq m 0 (· + 1) }
      groups := s.groups.map (fun g =>
        if g.team = tm ∧ g.core ≠ none then { g with evpend := g.evpend ||| 2 } else g)
      teams := s.teams.map (fun t =>
        if t.id = tm ∧ t.core = none then { t with evpend := t.evpend ||| 2 } else t) } := by
  rw [State.notified, ht]
  dsimp only
  rw [State.setEvents_eq, State.raise_of_ne _ h]

theorem State.notified_none {e : LogEvent} {m : Nat} (ht : e.team = none) (h : 1 ≤ m) (s : State) :
    s.notified e m = { s with mgmt := { s.mgmt with irq := vmod s.mgmt.irq m 0 (· + 1) } } := by
  rw [State.notified, ht]
  exact State.raise_of_ne _ h

/-- Settles O60. -/
theorem logEntries : Obligations.LogEntries := by
  unfold Obligations.LogEntries
  refine ⟨?_, ?_⟩
  · intro s e n m loc hdie hn h6 _ hdata hm h1 _ hwf hloc
    have hring : (s.die e.die).elsizel ≠ 0 := by
      intro h0
      rw [h0] at hn
      simp at hn
      omega
    have hread : ∀ x, (s.write loc (Claims.entryBytes s e ((s.die e.die).elSeq + 1).toNat)).read8 x =
        if loc ≤ x ∧ x < loc + 64 then (Claims.entryBytes s e ((s.die e.die).elSeq + 1).toNat).getD (x - loc) 0
        else s.read8 x := by
      intro x
      rw [State.read8_write hwf, length_entryBytes s hdata]
    have hdies : ∀ (b : List Byte), ∀ d, ((s.write loc b).modDie e.die
        (fun d => { d with elhead := d.elhead + 1, elSeq := d.elSeq + 1 })).die d =
        if d = e.die then { s.die d with elhead := (s.die d).elhead + 1, elSeq := (s.die d).elSeq + 1 }
        else s.die d := by
      intro b d
      rw [State.die_modDie _ hdie]
      split
      · next h => subst h; rfl
      · rfl
    refine ⟨_, rfl, ?_⟩
    rw [State.log_eq, State.ringed, if_neg hring, ← hm, ← hn, ← hloc, LogEvent.bytes_eq s hdata]
    cases ht : e.team with
    | none =>
      rw [State.notified_none ht h1]
      refine ⟨hread, fun d _ => hdies _ d, rfl, rfl, fun _ => ⟨rfl, rfl⟩, ?_⟩
      intro tm h
      cases h
    | some tm =>
      rw [State.notified_some ht h1]
      refine ⟨hread, fun d _ => hdies _ d, rfl, rfl, ?_, ?_⟩
      · intro h
        cases h
      · intro tm' h
        cases h
        exact ⟨rfl, rfl⟩
  · intro s e m tm _ h0 hm h1 _ ht
    rw [State.log_eq, State.ringed, if_pos h0, ← hm, State.notified_some ht h1]

end Sys2Proof.Machine
end


section
/-! # O9: `IADDC` and `LANEGET` (R197, R204, R208) -/

namespace Sys2Proof.Machine

theorem low_ofNat_bool (b : Bool) : low 1 (BitVec.ofNat 128 b.toNat) = b.toNat := by cases b <;> rfl

/-- The carry sum of a lane is what the rule adds: a, b and the lane's bit of the mask. -/
theorem carrySum_laneArgs (g : Group) (ty : ITy) (a b : Opd) (n : BitVec 3) (lane : Nat) :
    carrySum ty (g.laneArgs [(a, ty.width), (b, ty.width), (.m n, 1)] lane) =
      (g.srcLane a ty.width lane).toNat % 2 ^ ty.width + (g.srcLane b ty.width lane).toNat % 2 ^ ty.width +
        ((g.mVal n).getLsbD lane).toNat :=
  congrArg (_ + ·) (low_ofNat_bool ((g.mVal n).getLsbD lane))

/-- The carry sum has at most one bit above the width. -/
theorem carrySum_lt (ty : ITy) (l : List Code) : carrySum ty l < 2 * 2 ^ ty.width := by
  have h0 : low ty.width (arg l 0) < 2 ^ ty.width := Nat.mod_lt _ (Nat.two_pow_pos _)
  have h1 : low ty.width (arg l 1) < 2 ^ ty.width := Nat.mod_lt _ (Nat.two_pow_pos _)
  have h2 : low 1 (arg l 2) < 2 := Nat.mod_lt _ (by decide)
  unfold carrySum
  omega

/-- The carry out is bit 0 of the quotient. -/
theorem carry_getLsbD {n w : Nat} (h : n < 2 * 2 ^ w) :
    (BitVec.ofNat 128 (n / 2 ^ w)).getLsbD 0 = decide (2 ^ w ≤ n) := by
  have hlt : n / 2 ^ w < 2 := Nat.div_lt_of_lt_mul (by omega)
  by_cases hle : 2 ^ w ≤ n
  · have h1 : n / 2 ^ w = 1 := by have := Nat.div_pos hle (Nat.two_pow_pos w); omega
    simp [h1, hle]
  · simp [Nat.div_eq_of_lt (Nat.not_le.mp hle), hle]

/-- A value of at most 64 bits goes to one uniform register. -/
theorem xWrites_of_le {n : BitVec 6} {w : Nat} (v : Code) (h : w ≤ 64) : xWrites n w v = [.x n (v.setWidth 64)] :=
  if_pos h

theorem ITy.width_le_of_isBW {ty : ITy} (h : ty.isBW = true) : ty.width ≤ 64 := by
  revert h
  cases ty <;> decide

theorem iaddc_results {s : State} {g g1 : Group} {h : Hdr} {ty : ITy} {d a b : Opd} {n : BitVec 3}
    (hw : (Instr.iaddc h ty d a b (.m n)).wellFormed = true) (hg : s.group? s.cur = some g)
    (hheld : g.checkHeld [(d, ty.width), (a, ty.width), (b, ty.width), (.m n, 1)] = .ok ())
    (hq : g.moveQueues d [(a, ty.width), (b, ty.width), (.m n, 1)] = .ok g1) (once : Bool)
    (honce : once = Claims.once h [d, a, b, .m n]) (sum : Nat → Nat)
    (hsum : ∀ lane, sum lane = carrySum ty (g.laneArgs [(a, ty.width), (b, ty.width), (.m n, 1)]
      (Claims.readLane once (g.active h) lane))) :
    exec (.iaddc h ty d a b (.m n)) s = .next (s.finish g1 h
      (Claims.writes g h d ty.width [(a, ty.width), (b, ty.width), (.m n, 1)]
          (fun lane => BitVec.ofNat 128 (sum lane % 2 ^ ty.width)) ++
        (if carryLanes once (g.active h) = 0 then [] else [.m n (carryLanes once (g.active h))
          (maskOf (fun lane => (carryLanes once (g.active h)).getLsbD lane && decide (2 ^ ty.width ≤ sum lane)))]))
      [] none none) := by
  have hcarry (lane : Nat) : (BitVec.ofNat 128 (sum lane / 2 ^ ty.width)).getLsbD 0 = decide (2 ^ ty.width ≤ sum lane) :=
    carry_getLsbD (by rw [hsum]; exact carrySum_lt ..)
  show issue s _ h false (iaddcBody h ty d a b (.m n)) = _
  rw [issue_eq (u := false) hg hw (fun h => Bool.noConfusion h), iaddcBody]
  simp only [plainBody_eq s h _ hheld hq, bind, Except.bind, runsOnce_eq_once, g.laneResults_plain]
  rw [conclude_ok rfl rfl]
  simp only [List.map_cons, List.map_nil, ← honce, ← hsum, Group.writesTo, hcarry]

theorem laneget_results {s : State} {g g1 : Group} {h : Hdr} {ty : ITy} {n k : BitVec 6} {a : Opd}
    (hw : (Instr.laneget h ty (.x n) a (.x k)).wellFormed = true) (hg : s.group? s.cur = some g)
    (hheld : g.checkHeld [(a, ty.width)] = .ok ()) (hq : g.moveQueues (.x n) [(a, ty.width)] = .ok g1) :
    exec (.laneget h ty (.x n) a (.x k)) s = .next (s.finish g1 h
      (if h.uni = true ∧ g.active h = 0 then []
        else [.x n ((g.srcLane a ty.width ((g.xVal k).toNat % 64)).setWidth 64)]) [] none none) := by
  have hle : ty.width ≤ 64 := by
    simp only [Instr.wellFormed, Bool.and_eq_true] at hw
    exact ITy.width_le_of_isBW hw.1.1.1.1.1.1
  show issue s _ h false (lanegetBody h ty (.x n) a (.x k)) = _
  rw [issue_eq (u := false) hg hw (fun h => Bool.noConfusion h), lanegetBody]
  simp only [hheld, hq, bind, Except.bind]
  rw [conclude_ok rfl rfl]
  simp only [Group.writesTo, xWrites_of_le _ hle, Bool.and_eq_true, decide_eq_true_eq]
  rfl

/-- Settles O9. -/
theorem carryAndLaneGet : Obligations.CarryAndLaneGet := by
  unfold Obligations.CarryAndLaneGet
  refine ⟨?_, fun s g g1 h ty n k a hw hg hheld hq => laneget_results hw hg hheld hq⟩
  intro s g g1 h ty d a b n once cl sum hw hg hheld hq honce hcl hsum
  subst hcl
  exact iaddc_results hw hg hheld hq once honce sum fun lane => (hsum lane).trans (carrySum_laneArgs ..).symm

end Sys2Proof.Machine

end


section
/-! # O10: the float instructions (R48, R49, R52, R53, R56, R57, R209 to R213) -/

namespace Sys2Proof.Machine

/-! ## The flags of a set of lanes -/

theorem getLsbD_foldl_or {w : Nat} (f : Nat → BitVec w) (l : List Nat) (a : BitVec w) (b : Nat) :
    (l.foldl (fun acc i => acc ||| f i) a).getLsbD b = true ↔ a.getLsbD b = true ∨ ∃ i ∈ l, (f i).getLsbD b = true := by
  induction l generalizing a with
  | nil => simp
  | cons i l ih =>
    rw [List.foldl_cons, ih]
    simp only [BitVec.getLsbD_or, Bool.or_eq_true, List.exists_mem_cons_iff, or_assoc]

/-- The lanes that raise flags are those of the set that are no helpers (R57). -/
theorem getLsbD_flagsOver (lanes helper : Mask) (f : Nat → FFlags) (b : Nat) :
    (flagsOver lanes helper f).getLsbD b = true ↔
      ∃ lane, lanes.getLsbD lane = true ∧ helper.getLsbD lane = false ∧ (f lane).getLsbD b = true := by
  simp only [flagsOver, getLsbD_foldl_or, mem_lanesOf, BitVec.getLsbD_and, BitVec.getLsbD_not,
    Bool.and_eq_true, Bool.not_eq_true', decide_eq_true_eq, and_assoc]
  constructor
  · rintro (h0 | ⟨lane, h, -, hr⟩)
    · simp at h0
    · exact ⟨lane, h, hr⟩
  · exact fun ⟨lane, h, hr⟩ => .inr ⟨lane, h, BitVec.lt_of_getLsbD h, hr⟩

theorem getLsbD_onceFlags (act helper : Mask) (f : FFlags) (b : Nat) :
    (onceFlags act helper f).getLsbD b = true ↔
      ∃ lane, lowest act = some lane ∧ helper.getLsbD lane = false ∧ f.getLsbD b = true := by
  unfold onceFlags
  cases lowest act with
  | none => simp
  | some i => cases hh : helper.getLsbD i <;> simp [hh]

/-! ## What a value body does -/

/-- The answer of a lane: of the lane, or of the lowest active lane under the number 0 where the form runs once. -/
theorem Group.laneResults_eq (g : Group) (once : Bool) (act : Mask) (srcs : List (Opd × Nat)) (f : LaneOp) (lane : Nat) :
    g.laneResults once act srcs f lane =
      f (if once then 0 else lane) (g.laneArgs srcs (Claims.readLane once act lane)) := by
  cases once <;> rfl

/-- The flags that a value body raises. -/
def bodyFlags (once : Bool) (act helper : Mask) (res : Nat → Code × FFlags) : FFlags :=
  if once then onceFlags act helper (res 0).2 else flagsOver act helper (fun i => (res i).2)

theorem getLsbD_bodyFlags {once : Bool} {act : Mask} (helper : Mask) {res : Nat → Code × FFlags}
    (hres : once = true → ∀ i, res i = res 0) (b : Nat) :
    (bodyFlags once act helper res).getLsbD b = true ↔
      ∃ lane, (if once then lowest act = some lane else act.getLsbD lane = true) ∧ helper.getLsbD lane = false ∧
        (res lane).2.getLsbD b = true := by
  cases once with
  | false => exact getLsbD_flagsOver ..
  | true =>
    refine (getLsbD_onceFlags ..).trans (exists_congr fun lane => ?_)
    rw [hres rfl lane]
    rfl

/-- A value body whose registers are held and whose queues can move completes: the writes of R132 and R133, the flags of
R57 and the step of `SRCTR`. -/
theorem valueBody_eq {g g1 : Group} {d : Opd} {dw : Nat} {srcs : List (Opd × Nat)} (s : State) (h : Hdr) (long : Bool)
    (rm : Rm) (f : LaneOp) (hheld : g.checkHeld ((d, dw) :: srcs) = .ok ()) (hq : g.moveQueues d srcs = .ok g1)
    {res : Nat → Code × FFlags}
    (hres : ∀ lane, res lane = g.laneResults (Claims.once h (d :: srcs.map (·.1))) (g.active h) srcs f lane) :
    valueBody h d dw srcs long rm f s g = .ok
      { s := s
        g := (g1.raiseFlags (bodyFlags (Claims.once h (d :: srcs.map (·.1))) (g.active h) g.helper res)).stepSr rm
        short := if long then [] else Claims.writes g h d dw srcs (fun lane => (res lane).1)
        long := if long then [{ writes := Claims.writes g h d dw srcs (fun lane => (res lane).1) }] else [] } := by
  obtain rfl : res = g.laneResults _ _ srcs f := funext hres
  simp only [valueBody, hheld, hq, bind, Except.bind, runsOnce_eq_once, queuesOf_contains, Claims.writes]
  rfl

/-! ## Instructions by the table -/

/-- The instruction issues a value body over the form's operands, whose function agrees with the form's on every draw. -/
def RunsAsFloat (i : Instr) (k : Claims.FltForm) : Prop :=
  ∃ f : Nat → List Code → Code × FFlags,
    (∀ s, exec i s = issue s i k.h false
      (fun s g => valueBody k.h k.d k.dw k.srcs k.long k.rm (fun lane => f (g.draw k.rm lane)) s g)) ∧ f = k.f

/-- An instruction that runs as a form completes with the form's results and flags. -/
theorem RunsAsFloat.exec_eq {s : State} {g g1 : Group} {i : Instr} {k : Claims.FltForm} (hr : RunsAsFloat i k)
    (hw : i.wellFormed = true) (hg : s.group? s.cur = some g) (hheld : g.checkHeld ((k.d, k.dw) :: k.srcs) = .ok ())
    (hq : g.moveQueues k.d k.srcs = .ok g1) {res : Nat → Code × FFlags}
    (hres : ∀ lane, res lane = k.f (g.draw k.rm (if Claims.once k.h (k.d :: k.srcs.map (·.1)) then 0 else lane))
      (g.laneArgs k.srcs (Claims.readLane (Claims.once k.h (k.d :: k.srcs.map (·.1))) (g.active k.h) lane))) :
    exec i s = .next (s.finish
      ((g1.raiseFlags (bodyFlags (Claims.once k.h (k.d :: k.srcs.map (·.1))) (g.active k.h) g.helper res)).stepSr k.rm) k.h
      (if k.long then [] else Claims.writes g k.h k.d k.dw k.srcs (fun lane => (res lane).1))
      (if k.long then [{ writes := Claims.writes g k.h k.d k.dw k.srcs (fun lane => (res lane).1) }] else [])
      none none) := by
  obtain ⟨f, hexec, rfl⟩ := hr
  rw [hexec, issue_eq (u := false) hg hw (fun h => Bool.noConfusion h),
    valueBody_eq s k.h k.long k.rm _ hheld hq (res := res) (fun lane => by rw [hres, g.laneResults_eq]),
    conclude_ok rfl rfl]

/-! ## The rules of a lane -/

theorem snanFlag_eq (vs : List FVal) : snanFlag vs = if ∃ v ∈ vs, v = .nan true then 1 else 0 := by
  have hsnan (v : FVal) : v.isSnan = true ↔ v = .nan true := by cases v <;> simp [FVal.isSnan]
  simp only [snanFlag, flagIf, List.any_eq_true, hsnan, fInvalid]

/-- `INVALID` for a signalling operand, beside the flags of the result (R48). -/
theorem withFlags_snanFlag (vs : List FVal) (r : Code × FFlags) : withFlags r (snanFlag vs) = Claims.quiet vs r := by
  rw [snanFlag_eq]
  unfold withFlags Claims.quiet
  split <;> simp

theorem immFlt_eq (ty : FTy) (imm : BitVec 38) :
    immFlt ty imm = if ty = .f64 then (imm ++ 0#26).setWidth 128 else (imm.setWidth ty.width).setWidth 128 := by
  by_cases hty : ty = .f64
  · subst hty
    apply BitVec.eq_of_toNat_eq
    have hlt : imm.toNat * 2 ^ 26 < 2 ^ 128 := by have := imm.isLt; omega
    have hshift : imm.toNat <<< 26 = imm.toNat * 2 ^ 26 := Nat.shiftLeft_eq ..
    rw [if_pos rfl, BitVec.toNat_setWidth, BitVec.toNat_append, hshift]
    simp [immFlt]
  · rw [if_neg hty]
    have hlow : immFlt ty imm = BitVec.ofNat 128 (imm.toNat % 2 ^ ty.width) := by
      cases ty with
      | f64 => exact absurd rfl hty
      | _ => rfl
    rw [hlow]
    apply BitVec.eq_of_toNat_eq
    simp

theorem isZero_iff (x : FVal) : x.isZero = true ↔ ∃ n e, x = .fin n 0 e := by
  cases x with
  | fin n m e => cases m <;> simp [FVal.isZero]
  | _ => simp [FVal.isZero]

theorem magLt_zero_left (e1 : Int) (m : Nat) (e2 : Int) : magLt 0 e1 m e2 = true ↔ m ≠ 0 := by
  simp [magLt, Nat.pos_iff_ne_zero]

/-- What is neither below nor above a zero is a zero, where it is no NaN. -/
theorem zero_of_not_lt {n : Bool} {e : Int} {y : FVal} (hy : y.isNan = false) (h1 : ltVal (.fin n 0 e) y = false)
    (h2 : ltVal y (.fin n 0 e) = false) : ∃ n' e', y = .fin n' 0 e' := by
  cases y with
  | nan q => cases hy
  | inf a => cases a <;> simp [ltVal] at h1 h2
  | fin n' m e' =>
    by_cases hm : m = 0
    · exact ⟨n', e', by rw [hm]⟩
    · have hlt : magLt 0 e m e' = true := (magLt_zero_left ..).mpr hm
      cases n' <;> simp [ltVal, hm, hlt] at h1 h2

theorem FCtx.value_zero (c : FCtx) (n : Bool) (e e' : Int) : c.value (.fin n 0 e) = c.value (.fin n 0 e') := by
  simp [FCtx.value, Fmt.roundVal, Fmt.round, exact]

/-- The choice of `FMIN` and `FMAX` (R49). -/
theorem fpickF_eq_pick (min : Bool) (c : FCtx) (x y : FVal) : fpickF min c x y = Claims.pick min c x y := by
  unfold fpickF Claims.pick pickFirst
  cases hx : x.isNan with
  | true => simp
  | false =>
  cases hy : y.isNan with
  | true => simp
  | false =>
  cases h1 : ltVal x y with
  | true => simp
  | false =>
  cases h2 : ltVal y x with
  | true => cases min <;> simp
  | false =>
  cases hz : x.isZero with
  | false => simp
  | true =>
    obtain ⟨n, e, rfl⟩ := (isZero_iff x).mp hz
    obtain ⟨n', e', rfl⟩ := zero_of_not_lt hy h1 h2
    have hzero := c.value_zero n e e'
    cases min <;> cases n <;> cases n' <;> simp [FVal.neg, hzero]

/-- The relations of `FCMP` (R211). -/
theorem fcmpVal_eq_cmp (r : FCmp) (x y : FVal) : fcmpVal r x y = Claims.cmp r x y := by
  have heq : eqVal x y = (!(x.isNan || y.isNan) && !ltVal x y && !ltVal y x) := by
    unfold eqVal
    rw [Bool.not_or]
  unfold fcmpVal Claims.cmp
  rw [heq]
  cases x.isNan || y.isNan <;> cases ltVal x y <;> cases ltVal y x <;> cases r <;> rfl

/-! ## The class of a code -/

theorem ieee_classBit {ty : FTy} (hty : ty ∈ [FTy.f16, .bf16, .f32, .f64, .e5m2]) (c : Nat) :
    classBit ty c = Claims.classBit ty c := by
  have hE : ty ≠ .e4m3 := by rintro rfl; simp at hty
  have h8 : ty ≠ .e8m0 := by rintro rfl; simp at hty
  have hval : valOf ty c = (fmtOf ty).decode c := by
    cases ty with
    | e8m0 => exact absurd rfl h8
    | _ => rfl
  have hend : (fmtOf ty).ending = .ieee := by
    simp only [List.mem_cons, List.not_mem_nil, or_false] at hty
    rcases hty with rfl | rfl | rfl | rfl | rfl <;> rfl
  have hmb : 2 < (fmtOf ty).mb ↔ ty ≠ .e5m2 := by
    simp only [List.mem_cons, List.not_mem_nil, or_false] at hty
    rcases hty with rfl | rfl | rfl | rfl | rfl <;> decide
  have heb : 2 ^ (fmtOf ty).eb - 1 ≠ 0 := by
    simp only [List.mem_cons, List.not_mem_nil, or_false] at hty
    rcases hty with rfl | rfl | rfl | rfl | rfl <;> decide
  have hlt : c % 2 ^ (fmtOf ty).mb < 2 ^ (fmtOf ty).mb := Nat.mod_lt _ (Nat.two_pow_pos _)
  simp only [classBit, Claims.classBit, hval, Fmt.decode, hend, ← hmb, h8, hE]
  generalize fmtOf ty = f at *
  generalize c % 2 ^ f.mb = m at *
  generalize c / 2 ^ f.mb % 2 ^ f.eb = e at *
  by_cases he : e = 2 ^ f.eb - 1
  · by_cases hm : m = 0
    · simp [he, hm, hE]
    · by_cases hq : 2 < f.mb ∧ m < 2 ^ (f.mb - 1)
      · simp [he, hm, hq, hE]
      · have hf : (decide (2 < f.mb) && decide (m < 2 ^ (f.mb - 1))) = false := by simpa using hq
        simp [he, hm, hf, hq, hE]
  · by_cases h0 : e = 0
    · by_cases hm : m = 0 <;> simp [h0, hm, hlt, heb.symm, h8]
    · simp [he, h0]

theorem e4m3_classBit (c : Nat) : classBit .e4m3 c = Claims.classBit .e4m3 c := by
  have hlt : c % 8 < 8 := Nat.mod_lt _ (by decide)
  simp only [classBit, Claims.classBit, valOf, fmtOf, fmtE4M3, Fmt.decode, Fmt.emin, Nat.reducePow]
  by_cases h15 : c / 8 % 16 = 15
  · by_cases h7 : c % 8 = 7 <;> by_cases hs : c / 128 % 2 = 1 <;> simp [h15, h7, hs]
  · by_cases h0 : c / 8 % 16 = 0
    · by_cases hm : c % 8 = 0 <;> by_cases hs : c / 128 % 2 = 1 <;> simp [h0, hm, hs, hlt]
    · by_cases hs : c / 128 % 2 = 1 <;> simp [h15, h0, hs]

theorem e8m0_classBit {c : Nat} (hc : c < 256) : classBit .e8m0 c = Claims.classBit .e8m0 c := by
  have hmod : c % 256 = c := Nat.mod_eq_of_lt hc
  unfold classBit Claims.classBit valOf decodeE8M0
  rw [hmod]
  by_cases h : c = 255 <;> simp [h]

theorem classBit_eq {ty : FTy} (hty : ty.isCvt = true) {c : Nat} (hc : c < 2 ^ ty.width) :
    classBit ty c = Claims.classBit ty c := by
  cases ty with
  | e4m3 => exact e4m3_classBit c
  | e8m0 => exact e8m0_classBit hc
  | f16 | bf16 | f32 | f64 | e5m2 => exact ieee_classBit (by decide) c
  | _ => cases hty

theorem ofNat_two_pow (n : Nat) : BitVec.ofNat 128 (2 ^ n) = 1#128 <<< n := by
  apply BitVec.eq_of_toNat_eq
  simp [Nat.shiftLeft_eq]

/-! ## The table -/

section Forms
variable {i : Instr} {h : Hdr} {ty : FTy} {rm : Rm} {ftz long : Bool} {d a b : Opd} {imm : BitVec 38}

theorem runsAsFloat_flt1 {F f : FCtx → FVal → Code × FFlags}
    (hx : ∀ s, exec i s = issue s i h false (fltBody1 h ty rm ftz long d a F)) (hf : F = f) :
    RunsAsFloat i (Claims.flt1 h ty rm ftz long d a f) :=
  ⟨fun draw l => withFlags (F ⟨ty, rm, ftz, draw⟩ (fltOf ty ftz (arg l 0))) (snanFlag [fltOf ty ftz (arg l 0)]), hx, by
    simp only [withFlags_snanFlag, hf, Claims.flt1]⟩

theorem runsAsFloat_flt2 {F f : FCtx → FVal → FVal → Code × FFlags}
    (hx : ∀ s, exec i s = issue s i h false (fltBody2 h ty rm ftz long d a b F)) (hf : F = f) :
    RunsAsFloat i (Claims.flt2 h ty rm ftz long d a b f) :=
  ⟨fun draw l => withFlags (F ⟨ty, rm, ftz, draw⟩ (fltOf ty ftz (arg l 0)) (fltOf ty ftz (arg l 1)))
      (snanFlag [fltOf ty ftz (arg l 0), fltOf ty ftz (arg l 1)]), hx, by
    simp only [withFlags_snanFlag, hf, Claims.flt2]⟩

theorem runsAsFloat_fltI {F f : FCtx → FVal → FVal → Code × FFlags}
    (hx : ∀ s, exec i s = issue s i h false (fltBodyImm h ty rm ftz d a imm F)) (hf : F = f) :
    RunsAsFloat i (Claims.fltI h ty rm ftz d a imm f) :=
  ⟨fun draw l => withFlags (F ⟨ty, rm, ftz, draw⟩ (fltOf ty ftz (arg l 0)) (fltOf ty ftz (immFlt ty imm)))
      (snanFlag [fltOf ty ftz (arg l 0), fltOf ty ftz (immFlt ty imm)]), hx, by
    simp only [withFlags_snanFlag, hf, Claims.fltI, immFlt_eq]⟩

end Forms

theorem execIcvt_toInt (h : Hdr) (ity : ITy) (ty : FTy) (rm : Rm) (d a : Opd) (s : State) :
    exec (.icvt h true ity ty rm d a) s = issue s (.icvt h true ity ty rm d a) h false
      (fun s g => valueBody h d ity.width [(a, ty.width)] false rm
        (fun lane l => toInt ity rm (g.draw rm lane) (fltOf ty false (arg l 0))) s g) := by
  show execIcvt h true ity ty rm d a s = _
  simp only [execIcvt, if_true]

theorem execIcvt_toFloat (h : Hdr) (ity : ITy) (ty : FTy) (rm : Rm) (d a : Opd) (s : State) :
    exec (.icvt h false ity ty rm d a) s = issue s (.icvt h false ity ty rm d a) h false
      (fun s g => valueBody h d ty.width [(a, ity.width)] false rm
        (fun lane l => (g.fctx ty rm false lane).approx
          (exact (intOf ity (arg l 0) < 0) (intOf ity (arg l 0)).natAbs 0)) s g) := by
  show execIcvt h false ity ty rm d a s = _
  simp only [execIcvt, Bool.false_eq_true, if_false]

/-- Every instruction of the table runs as its form. -/
theorem runsAsFloat_of_fltForm {i : Instr} {k : Claims.FltForm} (hk : Claims.fltForm i = some k)
    (hw : i.wellFormed = true) : RunsAsFloat i k := by
  cases i with
  | fadd h ty rm ftz d a b | fsub h ty rm ftz d a b | fmul h ty rm ftz d a b | fdiv h ty rm ftz d a b =>
    cases hk
    exact runsAsFloat_flt2 (fun _ => rfl) rfl
  | faddImm h ty rm ftz d a imm | fsubImm h ty rm ftz d a imm | fmulImm h ty rm ftz d a imm =>
    cases hk
    exact runsAsFloat_fltI (fun _ => rfl) rfl
  | ffma h ty rm ftz d a b c =>
    cases hk
    exact ⟨fun draw l => withFlags
      (ffmaF ⟨ty, rm, ftz, draw⟩ (fltOf ty ftz (arg l 0)) (fltOf ty ftz (arg l 1)) (fltOf ty ftz (arg l 2)))
      (snanFlag [fltOf ty ftz (arg l 0), fltOf ty ftz (arg l 1), fltOf ty ftz (arg l 2)]), fun _ => rfl, by
        simp only [withFlags_snanFlag]⟩
  | fmin h ty ftz d a b | fmax h ty ftz d a b =>
    cases hk
    exact runsAsFloat_flt2 (fun _ => rfl) (funext fun _ => funext fun _ => funext fun _ => fpickF_eq_pick ..)
  | fminImm h ty ftz d a imm | fmaxImm h ty ftz d a imm =>
    cases hk
    exact runsAsFloat_fltI (fun _ => rfl) (funext fun _ => funext fun _ => funext fun _ => fpickF_eq_pick ..)
  | fcmp h r ty ftz d a b =>
    cases hk
    exact ⟨fun _ l => fcmpCodes r ty ftz (arg l 0) (arg l 1), fun _ => rfl, by
      simp only [fcmpCodes, withFlags_snanFlag, fcmpVal_eq_cmp, Claims.flt2]⟩
  | fcmpImm h r ty ftz d a imm =>
    cases hk
    exact ⟨fun _ l => fcmpCodes r ty ftz (arg l 0) (immFlt ty imm), fun _ => rfl, by
      simp only [fcmpCodes, withFlags_snanFlag, fcmpVal_eq_cmp, Claims.fltI, immFlt_eq]⟩
  | frcp h ty rm ftz d a | frsq h ty rm ftz d a | fsqrt h ty rm ftz d a | fexp2 h ty rm ftz d a | flog2 h ty rm ftz d a
  | frnd h ty rm ftz d a =>
    cases hk
    exact runsAsFloat_flt1 (fun _ => rfl) rfl
  | fcvt h src ty rm ftz sat d a =>
    cases hk
    exact ⟨fun draw l => withFlags (codeOf (cvtTo ty rm ftz sat draw (fltOf src ftz (arg l 0))))
      (snanFlag [fltOf src ftz (arg l 0)]), fun _ => rfl, by simp only [withFlags_snanFlag, codeOf]⟩
  | icvt h toI ity ty rm d a =>
    cases toI with
    | true =>
      cases hk
      exact ⟨fun draw l => toInt ity rm draw (fltOf ty false (arg l 0)), execIcvt_toInt h ity ty rm d a, rfl⟩
    | false =>
      cases hk
      exact ⟨fun draw l => (⟨ty, rm, false, draw⟩ : FCtx).approx
        (exact (intOf ity (arg l 0) < 0) (intOf ity (arg l 0)).natAbs 0), execIcvt_toFloat h ity ty rm d a, by
          simp only [intOf_eq_val, exact]⟩
  | fclass h ty d a =>
    cases hk
    obtain ⟨hty, -⟩ := Bool.and_eq_true_iff.mp hw
    refine ⟨fun _ l => (BitVec.ofNat 128 (2 ^ classBit ty (low ty.width (arg l 0))), 0), fun _ => rfl, ?_⟩
    funext _ l
    rw [low_eq_toNat, classBit_eq hty (BitVec.isLt _), ofNat_two_pow]
  | _ => cases hk

/-- Settles O10: each instruction of the table runs as its form, and an instruction that does completes with the results
and the flags of its rule. -/
theorem floatResults : Obligations.FloatResults := by
  unfold Obligations.FloatResults
  intro s g g1 i k once res ws hk hw hg hheld hq honce hres hws
  subst honce hws
  have hsame : Claims.once k.h (k.d :: k.srcs.map (·.1)) = true → ∀ i, res i = res 0 := by
    intro ho i
    simp only [hres, ho, if_true, Claims.readLane]
  refine ⟨_, _, getLsbD_bodyFlags g.helper hsame, rfl, ?_⟩
  rw [(runsAsFloat_of_fltForm hk hw).exec_eq hw hg hheld hq hres]
  unfold Group.stepSr Group.raiseFlags
  by_cases hrm : k.rm = .sr <;> simp only [hrm, if_true, if_false]

end Sys2Proof.Machine

end


section
/-! # O11: rounding to a quantum (R50, R52) -/

namespace Sys2Proof.Machine

/-- What an approximation stands for, as its magnitude and a part δ of a unit of it; δ is above 0 where more was dropped. -/
theorem exists_part_of_fits {a : Approx} {x : ℚ} (h : Claims.fits a x) :
    ∃ δ : ℚ, x = (a.man + δ) * 2 ^ a.exp ∧ 0 ≤ δ ∧ δ < 1 ∧ (a.more = true ↔ δ ≠ 0) := by
  have hpos : (0 : ℚ) < 2 ^ a.exp := zpow_pos two_pos _
  unfold Claims.fits at h
  split at h
  case isTrue hm =>
    obtain ⟨hlo, hhi⟩ := h
    have hlo' : (a.man : ℚ) < x / 2 ^ a.exp := (lt_div_iff₀ hpos).mpr hlo
    have hhi' : x / 2 ^ a.exp < a.man + 1 := (div_lt_iff₀ hpos).mpr hhi
    refine ⟨x / 2 ^ a.exp - a.man, ?_, by linarith, by linarith, by simp [hm]; linarith⟩
    rw [add_sub_cancel, div_mul_cancel₀ _ hpos.ne']
  case isFalse hm => exact ⟨0, by rw [h, add_zero], le_rfl, one_pos, by simp [hm]⟩

/-! ## The fraction of the way, in 65,536ths -/

section Fractions
variable {r K : Nat} {δ : ℚ}

/-- R52: the fraction from the lower neighbour up, rounded down. What is dropped beside r does not matter where a
65,536th is a whole number of units. -/
theorem floor_up (hK : 0 < K) (h0 : 0 ≤ δ) (h1 : δ < 1) (hd : δ ≠ 0 → 65536 ∣ K) :
    ⌊((r : ℚ) + δ) / K * 65536⌋ = ((r * 65536 / K : Nat) : Int) := by
  have hKq : (0 : ℚ) < K := by exact_mod_cast hK
  have hle : r * 65536 / K * K ≤ r * 65536 := Nat.div_mul_le_self ..
  have hlt : r * 65536 < (r * 65536 / K + 1) * K := by rw [mul_comm (_ + 1)]; exact Nat.lt_mul_div_succ _ hK
  rw [Int.floor_eq_iff, div_mul_eq_mul_div, le_div_iff₀ hKq, div_lt_iff₀ hKq]
  generalize r * 65536 / K = u at *
  have hle' : (u : ℚ) * K ≤ r * 65536 := by exact_mod_cast hle
  have hlt' : (r : ℚ) * 65536 < (u + 1) * K := by exact_mod_cast hlt
  push_cast
  refine ⟨by linarith, ?_⟩
  by_cases hδ : δ = 0
  · simpa [hδ] using hlt'
  · obtain ⟨c, rfl⟩ := hd hδ
    have hc : r + 1 ≤ (u + 1) * c := by
      have : r * 65536 < (u + 1) * c * 65536 := by linarith
      omega
    have hc' : (r : ℚ) + 1 ≤ (u + 1) * c := by exact_mod_cast hc
    push_cast
    linarith

/-- The same from the upper neighbour down, for a negative value. -/
theorem floor_down (hK : 0 < K) (hr : r < K) (h0 : 0 ≤ δ) (h1 : δ < 1) (hd : δ ≠ 0 → 65536 ∣ K) :
    ⌊((K : ℚ) - r - δ) / K * 65536⌋ =
      ((65536 - (if r * 65536 % K = 0 ∧ δ = 0 then r * 65536 / K else r * 65536 / K + 1) : Nat) : Int) := by
  have hKq : (0 : ℚ) < K := by exact_mod_cast hK
  have hdiv : K * (r * 65536 / K) + r * 65536 % K = r * 65536 := Nat.div_add_mod ..
  have hmod : r * 65536 % K < K := Nat.mod_lt _ hK
  have hu : r * 65536 / K < 65536 := Nat.div_lt_of_lt_mul (by rw [mul_comm K]; omega)
  rw [Int.floor_eq_iff, div_mul_eq_mul_div, le_div_iff₀ hKq, div_lt_iff₀ hKq]
  generalize r * 65536 / K = u at *
  generalize r * 65536 % K = m at *
  have hdiv' : (K : ℚ) * u + m = r * 65536 := by exact_mod_cast hdiv
  have hmod' : (m : ℚ) + 1 ≤ K := by exact_mod_cast hmod
  split
  case isTrue h =>
    obtain ⟨rfl, rfl⟩ := h
    rw [Int.cast_natCast, Nat.cast_sub hu.le]
    push_cast at hdiv' ⊢
    constructor <;> linarith
  case isFalse h =>
    rw [Int.cast_natCast, Nat.cast_sub hu]
    push_cast
    have hup : (m : ℚ) + δ * 65536 ≤ K := by
      by_cases hδ : δ = 0
      · rw [hδ]; linarith
      · obtain ⟨c, rfl⟩ := hd hδ
        have hm : m + 65536 ≤ 65536 * c := by
          have : m % 65536 = 0 := by
            have hz : (65536 * c * u + m) % 65536 = r * 65536 % 65536 := by rw [hdiv]
            rw [mul_assoc, Nat.mul_add_mod, Nat.mul_mod_left] at hz
            exact hz
          omega
        have hm' : (m : ℚ) + 65536 ≤ 65536 * c := by exact_mod_cast hm
        push_cast
        linarith
    have hlow : 0 < (m : ℚ) + δ * 65536 := by
      by_cases hδ : δ = 0
      · have : 0 < m := Nat.pos_of_ne_zero fun hm => h ⟨hm, hδ⟩
        rw [hδ, zero_mul, add_zero]
        exact_mod_cast this
      · have : 0 < δ := lt_of_le_of_ne h0 (Ne.symm hδ)
        positivity
    constructor <;> linarith

end Fractions

/-! ## What a cut keeps and drops -/

/-- At a quantum at or below the approximation's own unit nothing is dropped. -/
theorem Approx.at_of_le (a : Approx) {q : Int} (rm : Rm) (draw : Nat) (hq : q ≤ a.exp) (hm : a.more = false) :
    a.at_ q rm draw = (a.man * 2 ^ (a.exp - q).toNat, false) := by
  have hsh : q - a.exp ≤ 0 := by omega
  have hneg : -(q - a.exp) = a.exp - q := by omega
  simp [Approx.at_, Approx.cut, hsh, hneg, Cut.inexact, Cut.up, hm]

theorem Approx.cut_of_lt (a : Approx) {q : Int} (hq : a.exp < q) :
    a.cut q = ⟨a.man / 2 ^ (q - a.exp).toNat, a.man % 2 ^ (q - a.exp).toNat, (q - a.exp).toNat, a.more⟩ := by
  have hsh : ¬ q - a.exp ≤ 0 := by omega
  simp only [Approx.cut, if_neg hsh]

theorem zpow_quantum {e q : Int} (h : e ≤ q) : (2 : ℚ) ^ q = (2 ^ (q - e).toNat : Nat) * 2 ^ e := by
  have hq : q = ((q - e).toNat : Int) + e := by omega
  conv_lhs => rw [hq, zpow_add₀ two_ne_zero, zpow_natCast]
  push_cast
  rfl

/-- The neighbour that a cut goes to (R50, R52), of a value t of the way from the lower to the upper one. -/
def RoundsTo (rm : Rm) (neg : Bool) (draw lo n : Nat) (t : ℚ) : Prop :=
  match rm with
  | .rne => (n = lo ∨ n = lo + 1) ∧ |t - ((n : ℚ) - lo)| ≤ 1 / 2 ∧ (|t - ((n : ℚ) - lo)| = 1 / 2 → n % 2 = 0)
  | .rz => n = lo
  | .ru => n = if neg then lo else lo + 1
  | .rd => n = if neg then lo + 1 else lo
  | .sr =>
    if neg then n = if (draw : Int) < ⌊(1 - t) * 65536⌋ then lo else lo + 1
    else n = if (draw : Int) < ⌊t * 65536⌋ then lo + 1 else lo

/-- To nearest, ties to even. -/
theorem rne_up {k r lo : Nat} {δ : ℚ} {more : Bool} (hk : 0 < k) (hr : r < 2 ^ k) (h0 : 0 ≤ δ) (h1 : δ < 1)
    (hm : more = true ↔ δ ≠ 0) :
    RoundsTo .rne false 0 lo
      (if 2 * r > 2 ^ k || (2 * r = 2 ^ k && (more || lo % 2 = 1)) then lo + 1 else lo) (((r : ℚ) + δ) / (2 ^ k : Nat)) := by
  obtain ⟨j, rfl⟩ : ∃ j, k = j + 1 := ⟨k - 1, by omega⟩
  have hj : 0 < 2 ^ j := Nat.two_pow_pos j
  rw [pow_succ] at hr ⊢
  generalize 2 ^ j = J at *
  have hJ : (0 : ℚ) < J := by exact_mod_cast hj
  set t : ℚ := ((r : ℚ) + δ) / (J * 2 : Nat) with ht
  have htJ : t * (J * 2) = r + δ := by rw [ht]; push_cast; field_simp
  have hlow : 0 ≤ t := by positivity
  have hr' : (r : ℚ) + 1 ≤ J * 2 := by exact_mod_cast hr
  have hhigh : t < 1 := by by_contra hc; nlinarith
  have hup : 2 * r > J * 2 → 1 / 2 < t := fun h => by
    have : (J : ℚ) + 1 ≤ r := by exact_mod_cast (by omega : J + 1 ≤ r)
    by_contra hc; nlinarith
  have hdown : 2 * r < J * 2 → t < 1 / 2 := fun h => by
    have : (r : ℚ) + 1 ≤ J := by exact_mod_cast (by omega : r + 1 ≤ J)
    by_contra hc; nlinarith
  have htie : 2 * r = J * 2 → 1 / 2 ≤ t ∧ (t = 1 / 2 → more = false) := fun h => by
    have hrJ : (r : ℚ) = J := by exact_mod_cast (by omega : r = J)
    refine ⟨by by_contra hc; nlinarith, fun h2 => ?_⟩
    have hz : δ = 0 := by rw [h2] at htJ; linarith
    simpa [hz] using hm
  have hone : |t - (((lo + 1 : Nat) : ℚ) - lo)| = 1 - t := by
    rw [abs_of_nonpos (by push_cast; linarith)]; push_cast; ring
  have hzero : |t - ((lo : ℚ) - lo)| = t := by rw [sub_self, sub_zero, abs_of_nonneg hlow]
  simp only [RoundsTo]
  rcases lt_trichotomy (2 * r) (J * 2) with hlt | heq | hgt
  · have hf : ((decide (2 * r > J * 2)) || (decide (2 * r = J * 2) && (more || decide (lo % 2 = 1)))) = false := by
      simp only [Bool.or_eq_false_iff, Bool.and_eq_false_imp, decide_eq_false_iff_not, decide_eq_true_eq]
      omega
    rw [hf, if_neg Bool.false_ne_true, hzero]
    have := hdown hlt
    exact ⟨.inl rfl, this.le, fun h => absurd h this.ne⟩
  · obtain ⟨hge, hmz⟩ := htie heq
    by_cases hc : (more || decide (lo % 2 = 1)) = true
    · have hf : ((decide (2 * r > J * 2)) || (decide (2 * r = J * 2) && (more || decide (lo % 2 = 1)))) = true := by
        rw [hc]; simp [heq]
      rw [hf, if_pos rfl, hone]
      refine ⟨.inr rfl, by linarith, fun h => ?_⟩
      have hodd : lo % 2 = 1 := by simpa [hmz (by linarith)] using hc
      omega
    · have hf : ((decide (2 * r > J * 2)) || (decide (2 * r = J * 2) && (more || decide (lo % 2 = 1)))) = false := by
        rw [Bool.eq_false_of_not_eq_true hc]; simp [heq]
      rw [hf, if_neg Bool.false_ne_true, hzero]
      simp only [Bool.or_eq_true, decide_eq_true_eq, not_or] at hc
      obtain ⟨hmf, hev⟩ := hc
      have hz : δ = 0 := by by_contra h; exact hmf (hm.mpr h)
      have hrJ : (r : ℚ) = J := by exact_mod_cast (by omega : r = J)
      have hhalf : t = 1 / 2 := by
        have : t * (J * 2) = J := by rw [htJ, hz, hrJ, add_zero]
        nlinarith
      exact ⟨.inl rfl, hhalf.le, fun _ => by omega⟩
  · have hf : ((decide (2 * r > J * 2)) || (decide (2 * r = J * 2) && (more || decide (lo % 2 = 1)))) = true := by
      simp [hgt]
    rw [hf, if_pos rfl, hone]
    have := hup hgt
    exact ⟨.inr rfl, by linarith, fun h => absurd h (by linarith)⟩

/-- What a cut in the middle of a unit rounds to. -/
theorem roundsTo_cut (neg more : Bool) {k r lo draw : Nat} {δ : ℚ} (hk : 0 < k) (hr : r < 2 ^ k) (h0 : 0 ≤ δ) (h1 : δ < 1)
    (hm : more = true ↔ δ ≠ 0) (hd : more = true → 16 < k) (hi : (r != 0 || more) = true) (rm : Rm) :
    RoundsTo rm neg draw lo (if (⟨lo, r, k, more⟩ : Cut).up rm neg draw then lo + 1 else lo)
      (((r : ℚ) + δ) / (2 ^ k : Nat)) := by
  have hK : 0 < 2 ^ k := Nat.two_pow_pos k
  have hdvd : δ ≠ 0 → 65536 ∣ 2 ^ k := fun h => pow_dvd_pow 2 (Nat.le_of_lt (hd (hm.mpr h)))
  have hinex : (⟨lo, r, k, more⟩ : Cut).inexact = true := hi
  simp only [Cut.up, hinex, Bool.true_and]
  cases rm with
  | rne => exact rne_up hk hr h0 h1 hm
  | rz => rfl
  | ru => cases neg <;> rfl
  | rd => cases neg <;> rfl
  | sr =>
    cases neg with
    | false =>
      simp only [RoundsTo, Cut.frac, Bool.false_eq_true, if_false, floor_up hK h0 h1 hdvd, Nat.cast_lt, decide_eq_true_eq]
    | true =>
      have hδ : (r * 65536 % 2 ^ k = 0 && !more) = true ↔ r * 65536 % 2 ^ k = 0 ∧ δ = 0 := by
        cases more <;> simp at hm <;> simp [hm]
      have hside : 1 - ((r : ℚ) + δ) / (2 ^ k : Nat) = (((2 ^ k : Nat) : ℚ) - r - δ) / (2 ^ k : Nat) := by
        have : ((2 ^ k : Nat) : ℚ) ≠ 0 := by exact_mod_cast hK.ne'
        field_simp
        ring
      simp only [RoundsTo, Cut.frac, if_true, hside, floor_down hK hr h0 h1 hdvd, Nat.cast_lt, hδ, Bool.not_eq_true',
        decide_eq_false_iff_not, ite_not]

/-- The same of a value x between the multiples lo and lo + 1 of a quantum Q. -/
def RoundsTo.atQuantum (rm : Rm) (neg : Bool) (draw lo n : Nat) (x Q : ℚ) : Prop :=
  match rm with
  | .rne => (n = lo ∨ n = lo + 1) ∧ |x - n * Q| ≤ Q / 2 ∧ (|x - n * Q| = Q / 2 → n % 2 = 0)
  | .rz => n = lo
  | .ru => n = if neg then lo else lo + 1
  | .rd => n = if neg then lo + 1 else lo
  | .sr =>
    if neg then n = if (draw : Int) < ⌊((lo + 1 : ℚ) * Q - x) / Q * 65536⌋ then lo else lo + 1
    else n = if (draw : Int) < ⌊(x - lo * Q) / Q * 65536⌋ then lo + 1 else lo

theorem RoundsTo.scale {rm : Rm} {neg : Bool} {draw lo n : Nat} {x Q t : ℚ} (h : RoundsTo rm neg draw lo n t)
    (hQ : 0 < Q) (hx : x = (lo + t) * Q) : RoundsTo.atQuantum rm neg draw lo n x Q := by
  have hdist : |x - n * Q| = |t - ((n : ℚ) - lo)| * Q := by
    rw [← abs_of_pos hQ, ← abs_mul, abs_of_pos hQ, hx]
    ring_nf
  have hup : (x - lo * Q) / Q = t := by rw [hx]; field_simp; ring
  have hdown : ((lo + 1 : ℚ) * Q - x) / Q = 1 - t := by rw [hx]; field_simp; ring
  cases rm with
  | rne =>
    obtain ⟨hn, hle, htie⟩ := h
    simp only [RoundsTo.atQuantum, hdist]
    refine ⟨hn, by nlinarith, fun he => htie ?_⟩
    have : (|t - ((n : ℚ) - lo)| - 1 / 2) * Q = 0 := by linarith
    rcases mul_eq_zero.mp this with h0 | h0
    · linarith
    · exact absurd h0 hQ.ne'
  | sr => simp only [RoundsTo.atQuantum, hup, hdown]; exact h
  | rz | ru | rd => exact h

/-- Settles O11: at or below its own unit an approximation is exact; above it, its cut rounds as the mode says. -/
theorem roundsOnce : Obligations.RoundsOnce := by
  unfold Obligations.RoundsOnce
  intro a x q rm draw n inexact hfits hmore hat hdraw
  obtain ⟨δ, hx, h0, h1, hm⟩ := exists_part_of_fits hfits
  rcases le_or_gt q a.exp with hle | hlt
  · have hmf : a.more = false := by
      by_contra hc
      have := hmore (by simpa using hc)
      omega
    have hδ : δ = 0 := by simpa [hmf] using hm
    rw [a.at_of_le rm draw hle hmf] at hat
    obtain ⟨rfl, rfl⟩ := Prod.mk.inj hat
    refine ⟨fun _ => ?_, fun h => absurd h Bool.false_ne_true⟩
    rw [hx, zpow_quantum hle, hδ]
    push_cast
    ring
  · have hk : 0 < (q - a.exp).toNat := by omega
    have hQ : (0 : ℚ) < 2 ^ q := zpow_pos two_pos _
    have hK : ((2 ^ (q - a.exp).toNat : Nat) : ℚ) ≠ 0 := by positivity
    have hquant := zpow_quantum hlt.le
    have hsplit := Nat.div_add_mod a.man (2 ^ (q - a.exp).toNat)
    have hr := Nat.mod_lt a.man (Nat.two_pow_pos (q - a.exp).toNat)
    have hd : a.more = true → 16 < (q - a.exp).toNat := fun h => by have := hmore h; omega
    simp only [Approx.at_, a.cut_of_lt hlt, Prod.mk.injEq] at hat
    obtain ⟨hn, hi⟩ := hat
    generalize (q - a.exp).toNat = k at *
    generalize a.man / 2 ^ k = lo at *
    generalize a.man % 2 ^ k = r at *
    have hman : (a.man : ℚ) = (2 ^ k : Nat) * lo + r := by exact_mod_cast hsplit.symm
    have hxq : x = (lo + ((r : ℚ) + δ) / (2 ^ k : Nat)) * 2 ^ q := by
      rw [hx, hquant, hman]
      field_simp
      ring
    constructor
    · rintro rfl
      simp only [Cut.inexact, Bool.or_eq_false_iff, bne_eq_false_iff_eq] at hi
      obtain ⟨rfl, hmf⟩ := hi
      have hδ : δ = 0 := by simpa [hmf] using hm
      simp only [Cut.up, Cut.inexact, hmf, bne_self_eq_false, Bool.or_false, Bool.false_and] at hn
      rw [hxq, hδ, ← hn]
      simp
    · rintro rfl
      have hrq : (r : ℚ) + 1 ≤ (2 ^ k : Nat) := by exact_mod_cast hr
      have hpart : 0 < ((r : ℚ) + δ) / (2 ^ k : Nat) := by
        have : 0 < (r : ℚ) + δ := by
          rcases Bool.or_eq_true_iff.mp hi with h | h
          · have : 0 < r := Nat.pos_of_ne_zero (bne_iff_ne.mp h)
            have : (0 : ℚ) < r := by exact_mod_cast this
            linarith
          · have := lt_of_le_of_ne h0 (Ne.symm (hm.mp h))
            positivity
        positivity
      have hpart1 : ((r : ℚ) + δ) / (2 ^ k : Nat) < 1 := by
        rw [div_lt_one (by positivity)]
        linarith
      refine ⟨lo, by rw [hxq]; nlinarith, by rw [hxq]; nlinarith, ?_⟩
      have hround := (roundsTo_cut (draw := draw) a.neg a.more hk hr h0 h1 hm hd hi rm).scale hQ hxq
      rw [hn] at hround
      cases rm <;> exact hround

end Sys2Proof.Machine

end


section
/-! # O14, O15: lanes, votes and reductions (R214 to R217) -/

namespace Sys2Proof.Machine

/-- An instruction whose body completes, with its results. -/
theorem exec_results {s s' : State} {g g' : Group} {i : Instr} {h : Hdr} {body : Body} {short : List RegWrite}
    {long : List LongOut} (hx : exec i s = issue s i h false body) (hw : i.wellFormed = true)
    (hg : s.group? s.cur = some g) (hb : body s g = .ok { s := s', g := g', short := short, long := long }) :
    exec i s = .next (s'.finish g' h short long none none) := by
  rw [hx, issue_eq (u := false) hg hw (fun h => Bool.noConfusion h), hb, conclude_ok rfl rfl]

/-! ## Partners -/

theorem shflLane_eq (m : ShflMode) (lane b : Nat) : shflLane m lane b = Claims.shflSrc m lane b := by
  have hb : b &&& 63 = b % 64 := Nat.and_two_pow_sub_one_eq_mod b 6
  cases m <;> simp only [shflLane, Claims.shflSrc, hb]

theorem qxchLane_eq (m : QxchMode) (lane : Nat) : (qxchLane m lane : Int) = Claims.qxchSrc m lane := by
  cases m <;> rfl

theorem Group.partner_eq (g : Group) (a : Opd) (w : Nat) (act : Mask) (lane : Nat) (src : Int) :
    g.partner a w act lane src = Claims.fromLane g a w act lane src := by
  have hc : (0 ≤ src && src < 64 && act.getLsbD src.toNat) = true ↔
      0 ≤ src ∧ src ≤ 63 ∧ act.getLsbD src.toNat = true := by
    simp only [Bool.and_eq_true, decide_eq_true_eq, and_assoc]
    exact and_congr_right fun _ => and_congr_left fun _ => Int.lt_add_one_iff (a := src) (b := 63)
  unfold Group.partner Claims.fromLane
  simp only [hc, apply_ite (g.srcLane a w)]

/-! ## Sets of lanes -/

theorem mask_eq_iff {a b : Mask} : a = b ↔ ∀ i, a.getLsbD i = b.getLsbD i :=
  ⟨fun h _ => h ▸ rfl, fun h => BitVec.eq_of_getLsbD_eq fun i _ => h i⟩

theorem ne_zero_iff_exists_lane (m : Mask) : m ≠ 0 ↔ ∃ i, m.getLsbD i = true := by
  rw [ne_eq, mask_eq_iff]
  simp

/-- The lowest lane of a set is in it, and none below it is. -/
theorem lowest_spec {m : Mask} (h : m ≠ 0) :
    ∃ i, lowest m = some i ∧ i < 64 ∧ m.getLsbD i = true ∧ ∀ j < i, m.getLsbD j = false := by
  obtain ⟨k, hk⟩ := (ne_zero_iff_exists_lane m).mp h
  have hsome : ((List.range 64).find? (fun i => m.getLsbD i)).isSome = true :=
    List.find?_isSome.mpr ⟨k, List.mem_range.mpr (BitVec.lt_of_getLsbD hk), hk⟩
  obtain ⟨i, hi⟩ := Option.isSome_iff_exists.mp hsome
  obtain ⟨hmi, hlt, hbelow⟩ := List.find?_range_eq_some.mp hi
  refine ⟨i, ?_, List.mem_range.mp hlt, hmi, fun j hj => by simpa using hbelow j hj⟩
  rw [lowest, lanesOf, allLanes, List.head?_filter, hi]

theorem lowest_zero : lowest 0 = none := by decide

theorem getLsbD_contributors (g : Group) (h : Hdr) (i : Nat) :
    (g.contributors h).getLsbD i = true ↔ (g.active h).getLsbD i = true ∧ g.helper.getLsbD i = false := by
  simp only [Group.contributors, BitVec.getLsbD_and, BitVec.getLsbD_not, Bool.and_eq_true, Bool.not_eq_true',
    decide_eq_true_eq]
  exact ⟨fun ⟨ha, _, hh⟩ => ⟨ha, hh⟩, fun ⟨ha, hh⟩ => ⟨ha, BitVec.lt_of_getLsbD ha, hh⟩⟩

/-- The contributors whose source is not zero. -/
theorem getLsbD_nonzero (g : Group) (h : Hdr) (a : Opd) (w i : Nat) :
    (g.nonzero h a w).getLsbD i = true ↔ (g.contributors h).getLsbD i = true ∧ g.srcLane a w i ≠ 0 := by
  simp only [Group.nonzero, getLsbD_maskOf, Bool.and_eq_true, decide_eq_true_eq, bne_iff_ne]
  exact ⟨And.right, fun hc => ⟨BitVec.lt_of_getLsbD hc.1, hc⟩⟩

/-- Every contributor's source is not zero where the set of those is the whole set. -/
theorem nonzero_eq_contributors (g : Group) (h : Hdr) (a : Opd) (w : Nat) :
    g.nonzero h a w = g.contributors h ↔ ∀ i, (g.contributors h).getLsbD i = true → g.srcLane a w i ≠ 0 := by
  rw [mask_eq_iff]
  refine forall_congr' fun i => ?_
  rw [Bool.eq_iff_iff, getLsbD_nonzero]
  exact and_iff_left_iff_imp

/-- One truth for every lane of a set, as a mask. -/
theorem maskOf_const (m : Mask) (t : Bool) : maskOf (fun i => m.getLsbD i && t) = if t then m else 0 := by
  rw [mask_eq_iff]
  intro i
  rw [getLsbD_maskOf]
  cases t
  · simp
  · simpa using fun h => BitVec.lt_of_getLsbD h

theorem count_eq_countP (m : Mask) : count m = (List.range 64).countP (fun i => m.getLsbD i) :=
  (List.countP_eq_length_filter ..).symm

/-! ## The instructions -/

/-- The register writes of a word to a mask or a uniform register. -/
def wordTo (d : Opd) (w : Word64) : List RegWrite :=
  match d with
  | .x n => [.x n w]
  | .m n => [.m n (BitVec.allOnes 64) w]
  | _ => []

theorem ballot_results {s : State} {g : Group} {h : Hdr} {ty : ITy} {d a : Opd}
    (hw : (Instr.ballot h ty d a).wellFormed = true) (hg : s.group? s.cur = some g)
    (hheld : g.checkHeld [(a, ty.width)] = .ok ()) (huni : h.uni = true → g.active h ≠ 0) :
    exec (.ballot h ty d a) s = .next (s.finish g h (wordTo d (g.nonzero h a ty.width)) [] none none) := by
  have hempty : (h.uni && g.active h = 0) = false := by
    simpa using huni
  refine exec_results rfl hw hg ?_
  simp only [ballotBody, hheld, bind, Except.bind, hempty, Bool.false_eq_true, if_false]
  cases d <;> rfl

theorem vote_results {s : State} {g : Group} {h : Hdr} {ty : ITy} {any : Bool} {n : BitVec 3} {a : Opd}
    (hw : (Instr.vote h ty any (.m n) a).wellFormed = true) (hg : s.group? s.cur = some g)
    (hheld : g.checkHeld [(a, ty.width)] = .ok ()) :
    exec (.vote h ty any (.m n) a) s = .next (s.finish g h [.m n (g.active h)
      (if (if any then g.nonzero h a ty.width != 0 else g.nonzero h a ty.width == g.contributors h) then g.active h
        else 0)] [] none none) := by
  have hbit (b : Bool) : (BitVec.ofNat 128 b.toNat).getLsbD 0 = b := by cases b <;> rfl
  refine exec_results rfl hw hg ?_
  simp only [voteBody, hheld, bind, Except.bind, Group.writesTo, hbit, maskOf_const]

theorem maskCount_results {s : State} {g : Group} {i : Instr} {h : Hdr} {d : Opd} {n : BitVec 3} {f : Mask → Nat}
    (hx : exec i s = issue s i h false (maskCountBody h d (.m n) f)) (hw : i.wellFormed = true)
    (hg : s.group? s.cur = some g) (hheld : g.checkHeld [(d, 32)] = .ok ()) (hact : g.active h ≠ 0) :
    exec i s = .next (s.finish g h (g.writesTo d false 32 (g.active h) (fun _ => BitVec.ofNat 128 (f (g.mVal n))))
      [] none none) := by
  refine exec_results hx hw hg ?_
  simp only [maskCountBody, hheld, bind, Except.bind, hact, decide_false, Bool.and_false, Bool.false_eq_true, if_false]
  rfl

theorem shfl_results {s : State} {g : Group} {h : Hdr} {ty : ITy} {m : ShflMode} {d a b : Opd}
    (hw : (Instr.shfl h ty m d a b).wellFormed = true) (hg : s.group? s.cur = some g)
    (hheld : g.checkHeld [(d, ty.width), (a, ty.width), (b, ty.width)] = .ok ()) :
    exec (.shfl h ty m d a b) s = .next (s.finish g h
      (g.writesTo d false ty.width (g.active h) (fun lane => Claims.fromLane g a ty.width (g.active h) lane
        (Claims.shflSrc m lane (g.srcLane b ty.width lane).toNat))) [] none none) := by
  refine exec_results rfl hw hg ?_
  simp only [shflBody, hheld, bind, Except.bind, Group.partner_eq, shflLane_eq]

theorem qxch_results {s : State} {g : Group} {h : Hdr} {ty : ITy} {m : QxchMode} {d a : Opd}
    (hw : (Instr.qxch h ty m d a).wellFormed = true) (hg : s.group? s.cur = some g)
    (hheld : g.checkHeld [(d, ty.width), (a, ty.width)] = .ok ()) :
    exec (.qxch h ty m d a) s = .next (s.finish g h
      (g.writesTo d false ty.width (g.active h) (fun lane => Claims.fromLane g a ty.width (g.active h) lane
        (Claims.qxchSrc m lane))) [] none none) := by
  refine exec_results rfl hw hg ?_
  simp only [qxchBody, hheld, bind, Except.bind, Group.partner_eq, qxchLane_eq]

/-- Settles O14. -/
theorem laneExchanges : Obligations.LaneExchanges := by
  unfold Obligations.LaneExchanges
  refine ⟨⟨fun s g h ty m d a b => shfl_results, fun s g h ty m d a => qxch_results⟩, ?_, ?_, ?_, ?_⟩
  · intro s g h ty d a hw hg hheld huni
    refine ⟨g.nonzero h a ty.width, fun i => ?_, ?_, ?_⟩
    · rw [getLsbD_nonzero, getLsbD_contributors, and_assoc]
    · rintro n rfl
      exact ballot_results hw hg hheld huni
    · rintro n rfl
      exact ballot_results hw hg hheld huni
  · intro s g h ty any n a hw hg hheld
    refine ⟨_, ?_, vote_results hw hg hheld⟩
    cases any with
    | true =>
      simp only [if_true, bne_iff_ne, ne_zero_iff_exists_lane, getLsbD_nonzero]
    | false => simpa using nonzero_eq_contributors g h a ty.width
  · intro s g h d n hw hg hheld hact
    refine ⟨(lowest (g.mVal n)).getD 64, ?_, fun hne => ?_,
      maskCount_results (f := fun m => (lowest m).getD 64) rfl hw hg hheld hact⟩
    · intro h0
      rw [h0, lowest_zero]
      rfl
    · obtain ⟨i, hlow, hi⟩ := lowest_spec hne
      rw [hlow]
      exact hi
  · intro s g h d n hw hg hheld hact
    rw [← count_eq_countP]
    exact maskCount_results (f := count) rfl hw hg hheld hact

/-! ## Reductions -/

/-- A float step of a reduction is that of the rule. -/
theorem redFltStep_eq (ty : ITy) {F f : FCtx → FVal → FVal → Code × FFlags} (h : F = f) (a b : Code) :
    redFltStep ty F a b = Claims.fltStep ty.width f a b := by
  subst h
  exact withFlags_snanFlag ..

theorem redStep_eq (op : RedOp) (ty : ITy) : redStep op ty = Claims.step op ty := by
  have hpick (m : Bool) : fpickF m = Claims.pick m := funext fun _ => funext fun _ => funext (fpickF_eq_pick m _ _)
  funext a b
  cases op with
  | exch | and | or | xor => rfl
  | add => simp only [redStep, Claims.step, wrap_eq_code, intOf_eq_val]
  | min => simp only [redStep, Claims.step, imin_eq, intOf_eq_val]
  | max => simp only [redStep, Claims.step, imax_eq, intOf_eq_val]
  | fadd => exact redFltStep_eq ty rfl a b
  | fmin | fmax => exact redFltStep_eq ty (hpick _) a b

/-- The identity of an operator on the types that it accepts. -/
theorem redId_eq (op : RedOp) {ty : ITy} (h : op.accepts ty = true) : redId op ty = Claims.ident op ty := by
  cases op with
  | exch | add | or | xor => rfl
  | min =>
    have hhi : intMax ty = Claims.hi ty := by simp [intMax, Claims.hi]
    rw [redId, wrap_eq_code, hhi]
    rfl
  | max =>
    have hlo : intMin ty = Claims.lo ty := by simp [intMin, Claims.lo]
    rw [redId, wrap_eq_code, hlo]
    rfl
  | and =>
    apply BitVec.eq_of_toNat_eq
    simp [redId, Claims.ident]
  | fadd | fmin | fmax =>
    revert h
    cases ty <;> decide

/-- The flags of a run of steps. -/
def flagOr (e : Nat → FFlags) : Nat → Nat → FFlags
  | 0, _ => 0
  | n + 1, i => e i ||| flagOr e n (i + 1)

theorem flagOr_add (e : Nat → FFlags) (m n i : Nat) : flagOr e (m + n) i = flagOr e m i ||| flagOr e n (i + m) := by
  induction m generalizing i with
  | zero => simp [flagOr]
  | succ m ih =>
    have hi : i + 1 + m = i + (m + 1) := by omega
    rw [Nat.add_right_comm, flagOr, ih, flagOr, BitVec.or_assoc, hi]

/-- The values of a level, and the flags of its steps, from the values of the level below. -/
def levelVal (f : Code → Code → Code × FFlags) (v : Nat → Code) (i : Nat) : Code :=
  (f (v (2 * i)) (v (2 * i + 1))).1

def levelFlags (f : Code → Code → Code × FFlags) (v : Nat → Code) (i : Nat) : FFlags :=
  (f (v (2 * i)) (v (2 * i + 1))).2

theorem treeLevel_map (f : Code → Code → Code × FFlags) (v : Nat → Code) (m i : Nat) :
    treeLevel f ((List.range' (2 * i) (2 * m)).map v) =
      ((List.range' i m).map (levelVal f v), flagOr (levelFlags f v) m i) := by
  induction m generalizing i with
  | zero => rfl
  | succ m ih =>
    have hnext : 2 * i + 1 + 1 = 2 * (i + 1) := by omega
    rw [Nat.mul_succ, List.range'_succ, List.range'_succ, hnext, List.map_cons, List.map_cons, treeLevel, ih]
    rfl

/-- A tree of one more level is the tree over the lowest level's values, with that level's flags added. -/
theorem tree_succ (f : Code → Code → Code × FFlags) (v : Nat → Code) (n i : Nat) :
    Claims.tree f v (n + 1) i = ((Claims.tree f (levelVal f v) n i).1,
      (Claims.tree f (levelVal f v) n i).2 ||| flagOr (levelFlags f v) (2 ^ n) (i * 2 ^ n)) := by
  induction n generalizing i with
  | zero => simp [Claims.tree, levelVal, levelFlags, flagOr]
  | succ n ih =>
    have hspan : flagOr (levelFlags f v) (2 ^ (n + 1)) (i * 2 ^ (n + 1)) =
        flagOr (levelFlags f v) (2 ^ n) (2 * i * 2 ^ n) ||| flagOr (levelFlags f v) (2 ^ n) ((2 * i + 1) * 2 ^ n) := by
      have h1 : i * 2 ^ (n + 1) = 2 * i * 2 ^ n := by ring
      have h2 : 2 * i * 2 ^ n + 2 ^ n = (2 * i + 1) * 2 ^ n := by ring
      rw [h1, pow_succ, Nat.mul_two, flagOr_add, h2]
    rw [Claims.tree, ih, ih, hspan]
    refine Prod.ext rfl ?_
    simp only [Claims.tree]
    ac_rfl

theorem treeLevels_map (f : Code → Code → Code × FFlags) (v : Nat → Code) (n i : Nat) :
    treeLevels f n ((List.range' (i * 2 ^ n) (2 ^ n)).map v) = ([(Claims.tree f v n i).1], (Claims.tree f v n i).2) := by
  induction n generalizing v with
  | zero => simp [treeLevels, Claims.tree]
  | succ n ih =>
    have h1 : i * 2 ^ (n + 1) = 2 * (i * 2 ^ n) := by ring
    have h2 : 2 ^ (n + 1) = 2 * 2 ^ n := by ring
    rw [h1, h2, treeLevels, treeLevel_map]
    simp only [ih, tree_succ]
    rw [BitVec.or_comm]

theorem gred_results {s : State} {g : Group} {h : Hdr} {op : RedOp} {ty : ITy} {d a : Opd}
    (hw : (Instr.gred h op ty d a).wellFormed = true) (hg : s.group? s.cur = some g)
    (hheld : g.checkHeld [(d, ty.width), (a, ty.width)] = .ok ()) {root : Code × FFlags}
    (hroot : root = Claims.tree (redStep op ty) (fun i => if (g.contributors h).getLsbD i then g.srcLane a ty.width i
      else redId op ty) 6 0) :
    exec (.gred h op ty d a) s = .next (s.finish (g.raiseFlags root.2) h
      (g.writesTo d false ty.width (g.active h) (fun _ => root.1)) [] none none) := by
  have hlevels := treeLevels_map (redStep op ty) (fun i => if (g.contributors h).getLsbD i then g.srcLane a ty.width i
    else redId op ty) 6 0
  simp only [Nat.zero_mul, Nat.reducePow, ← hroot] at hlevels
  refine exec_results rfl hw hg ?_
  simp only [gredBody, hheld, bind, Except.bind, allLanes, List.range_eq_range']
  rw [hlevels]
  rfl

/-- The fold of `GSCAN` over a run of lanes, by what stands before and after each. -/
theorem scanFold_map {f : Code → Code → Code × FFlags} {con : Nat → Bool} {v acc : Nat → Code}
    (hacc : ∀ i, acc (i + 1) = if con i then (f (acc i) (v i)).1 else acc i) (exc : Bool) (n i : Nat) :
    scanFold f exc (acc i) ((List.range' i n).map (fun j => if con j then some (v j) else none)) =
      ((List.range' i n).map (fun j => if exc then acc j else acc (j + 1)),
        flagOr (fun j => if con j then (f (acc j) (v j)).2 else 0) n i) := by
  induction n generalizing i with
  | zero => rfl
  | succ n ih =>
    have hstep := hacc i
    rw [List.range'_succ, List.map_cons, List.map_cons]
    cases hc : con i with
    | false =>
      rw [hc] at hstep
      have ih' := ih (i + 1)
      rw [hstep] at ih'
      simp only [scanFold, flagOr, Bool.false_eq_true, if_false, hc] at ih' ⊢
      rw [ih']
      refine Prod.ext ?_ ?_
      · simp [hstep]
      · simp
    | true =>
      rw [hc, if_pos rfl] at hstep
      have ih' := ih (i + 1)
      rw [hstep] at ih'
      simp only [scanFold, flagOr, if_true, hc]
      rw [ih', hstep]

theorem getLsbD_flagOr (e : Nat → FFlags) (n i b : Nat) :
    (flagOr e n i).getLsbD b = true ↔ ∃ j, i ≤ j ∧ j < i + n ∧ (e j).getLsbD b = true := by
  induction n generalizing i with
  | zero =>
    refine ⟨fun h => absurd h (by simp [flagOr]), fun ⟨j, h1, h2, _⟩ => by omega⟩
  | succ n ih =>
    rw [flagOr, BitVec.getLsbD_or, Bool.or_eq_true, ih]
    constructor
    · rintro (h | ⟨j, h1, h2, h⟩)
      · exact ⟨i, le_rfl, by omega, h⟩
      · exact ⟨j, by omega, by omega, h⟩
    · rintro ⟨j, h1, h2, h⟩
      rcases Nat.eq_or_lt_of_le h1 with rfl | hlt
      · exact .inl h
      · exact .inr ⟨j, hlt, by omega, h⟩

/-- A vector's lanes get no more of a function than its values in the lanes of the set. -/
theorem Group.writesTo_congr (g : Group) (n : BitVec 6) (popped : Bool) (w : Nat) (lanes : Mask) {f f' : Nat → Code}
    (h : ∀ i < 64, f i = f' i) : g.writesTo (.v n) popped w lanes f = g.writesTo (.v n) popped w lanes f' := by
  have hlane (i : Nat) (x y : Word32) (hxy : i < 64 → x = y) :
      (if lanes.getLsbD i then x else 0) = if lanes.getLsbD i then y else 0 := by
    split
    · next hi => exact hxy (BitVec.lt_of_getLsbD hi)
    · rfl
  have hval (k : Nat) : (fun i => if lanes.getLsbD i then (f i).extractLsb' (32 * k) 32 else 0) =
      fun i => if lanes.getLsbD i then (f' i).extractLsb' (32 * k) 32 else 0 :=
    funext fun i => hlane i _ _ fun hi => by rw [h i hi]
  simp only [Group.writesTo, vWrites, hval]

theorem gscan_results {s : State} {g : Group} {h : Hdr} {op : RedOp} {ty : ITy} {exc : Bool} {d a : Opd}
    {acc : Nat → Code} (hw : (Instr.gscan h op ty exc d a).wellFormed = true) (hg : s.group? s.cur = some g)
    (hheld : g.checkHeld [(d, ty.width), (a, ty.width)] = .ok ()) (h0 : acc 0 = redId op ty)
    (hacc : ∀ i, acc (i + 1) = if (g.contributors h).getLsbD i then (redStep op ty (acc i) (g.srcLane a ty.width i)).1
      else acc i) :
    exec (.gscan h op ty exc d a) s = .next (s.finish
      (g.raiseFlags (flagOr (fun j => if (g.contributors h).getLsbD j then
        (redStep op ty (acc j) (g.srcLane a ty.width j)).2 else 0) 64 0)) h
      (g.writesTo d false ty.width (g.active h) (fun i => if exc then acc i else acc (i + 1))) [] none none) := by
  have hd : d.isV = true := by
    simp only [Instr.wellFormed, Bool.and_eq_true] at hw
    exact hw.1.1.1.2
  have hfold := scanFold_map hacc exc 64 0
  rw [h0] at hfold
  refine exec_results rfl hw hg ?_
  simp only [gscanBody, hheld, bind, Except.bind, allLanes, List.range_eq_range']
  rw [hfold]
  cases d with
  | v n =>
    rw [g.writesTo_congr n false ty.width (g.active h) (f' := fun i => if exc then acc i else acc (i + 1))
      fun i hi => by simp [hi]]
  | _ => cases hd

/-- Settles O15. -/
theorem reductions : Obligations.Reductions := by
  unfold Obligations.Reductions
  refine ⟨?_, ?_⟩
  · intro s g g1 h op ty d a root hw hg hheld hroot hg1
    have hty : op.accepts ty = true := by
      simp only [Instr.wellFormed, Bool.and_eq_true] at hw
      exact hw.1.1.1.1.2
    rw [← redStep_eq, ← redId_eq op hty] at hroot
    rw [hg1]
    exact gred_results hw hg hheld hroot
  · intro s g h op ty exc d a acc hw hg hheld h0 hacc
    have hty : op.accepts ty = true := by
      simp only [Instr.wellFormed, Bool.and_eq_true] at hw
      exact hw.1.1.1.1.1.2
    rw [← redId_eq op hty] at h0
    simp only [← redStep_eq] at hacc ⊢
    refine ⟨_, _, fun b => ?_, rfl, gscan_results hw hg hheld h0 hacc⟩
    rw [getLsbD_flagOr]
    constructor
    · rintro ⟨j, -, -, hj⟩
      split at hj
      · next hc => exact ⟨j, hc, hj⟩
      · simp at hj
    · rintro ⟨j, hc, hj⟩
      exact ⟨j, Nat.zero_le _, by have := BitVec.lt_of_getLsbD hc; omega, by rw [if_pos hc]; exact hj⟩

end Sys2Proof.Machine

end


section
/-! # O17: special registers (R133, R135, R188 to R191, R219) -/

namespace Sys2Proof.Machine

/-- The rule's table of special registers is the model's. -/
theorem special_eq {s : State} {g : Group} {num : BitVec 12} {lane w v : Nat}
    (h : Claims.special s g num.toNat lane = some (w, v)) :
    w = specialMove num ∧ v = s.specialVal g num lane ∧ num ≠ 0x031 := by
  have hne : num ≠ 0x031 := by
    rintro rfl
    simp [Claims.special] at h
  have hpow (i : Nat) : 2 ^ (4 * i) = 16 ^ i := pow_mul 2 4 i
  unfold Claims.special at h
  unfold specialMove specialReg State.specialVal
  generalize num.toNat = n at h ⊢
  dsimp only at h ⊢
  split at h <;> cases h
  case h_15 => exact ⟨rfl, by simp only [Group.qocc, hpow], hne⟩
  case h_21 =>
    refine ⟨rfl, ?_, hne⟩
    cases s.team? g.team <;> rfl
  all_goals exact ⟨rfl, rfl, hne⟩

/-- What `MFS` writes: each lane its own value, or that of the lowest active lane. -/
theorem mfs_results {s : State} {g : Group} {h : Hdr} {d : Opd} {num : BitVec 12}
    (hw : (Instr.mfs h d num).wellFormed = true) (hg : s.group? s.cur = some g)
    (hheld : g.checkHeld [(d, specialMove num)] = .ok ()) (ws : List RegWrite)
    (hws : ws = Claims.writes g h d (specialMove num) [] (fun lane =>
      BitVec.ofNat 128 (s.specialVal g num (Claims.readLane (Claims.once h [d]) (g.active h) lane)))) :
    exec (.mfs h d num) s = .next ((if num = 0x031 then (s.nextSeq g).2 else s).finish g h
      (if specialLong num then [] else ws) (if specialLong num then [{ writes := ws }] else []) none none) := by
  have hpop : Claims.popsToo d [] = false := by cases d <;> rfl
  refine exec_results rfl hw hg ?_
  simp only [mfsBody, hheld, bind, Except.bind, hws, Claims.writes, hpop, runsOnce_eq_once, List.map_nil]
  rfl

/-- The lanes of a quad that has a live lane. -/
theorem getLsbD_cover (live : Mask) (k : Nat) :
    (maskOf (fun i => (List.range 4).any (fun j => live.getLsbD (i / 4 * 4 + j)))).getLsbD k =
      (decide (k < 64) && (live.getLsbD (k / 4 * 4) || live.getLsbD (k / 4 * 4 + 1) || live.getLsbD (k / 4 * 4 + 2) ||
        live.getLsbD (k / 4 * 4 + 3))) := by
  rw [getLsbD_maskOf]
  simp only [List.range_succ, List.range_zero, List.nil_append, List.cons_append, List.any_cons, List.any_nil,
    Bool.or_false, Nat.add_zero, Bool.or_assoc]

/-- R135: helper lanes for the quads with a live lane. -/
theorem getLsbD_setHelper (g : Group) (v : Word64) (k : Nat) :
    (g.setHelper v).helper.getLsbD k = (decide (k < 64) && v.getLsbD k && !g.live.getLsbD k &&
      (g.live.getLsbD (k / 4 * 4) || g.live.getLsbD (k / 4 * 4 + 1) || g.live.getLsbD (k / 4 * 4 + 2) ||
        g.live.getLsbD (k / 4 * 4 + 3))) := by
  simp only [Group.setHelper, BitVec.getLsbD_and, BitVec.getLsbD_not, getLsbD_cover]
  generalize (g.live.getLsbD (k / 4 * 4) || g.live.getLsbD (k / 4 * 4 + 1) || g.live.getLsbD (k / 4 * 4 + 2) ||
    g.live.getLsbD (k / 4 * 4 + 3)) = quad
  cases decide (k < 64) <;> cases v.getLsbD k <;> cases g.live.getLsbD k <;> cases quad <;> rfl

theorem getLsbD_setHelper_exec (g : Group) (v : Word64) (k : Nat) :
    (g.setHelper v).exec.getLsbD k = (g.live.getLsbD k || (g.setHelper v).helper.getLsbD k) :=
  BitVec.getLsbD_or ..

theorem mts_results {s : State} {g : Group} {h : Hdr} {num : BitVec 12} {a : Opd} {i : Nat}
    (hw : (Instr.mts h num a).wellFormed = true) (hg : s.group? s.cur = some g) (hi : lowest (g.active h) = some i)
    (hheld : g.checkHeld [(a, specialMove num)] = .ok ()) :
    exec (.mts h num a) s = .next (s.finish (g.setSpecial num (g.srcLane a (specialMove num) i).toNat) h [] [] none none) := by
  refine exec_results rfl hw hg ?_
  simp only [mtsBody, hi, hheld, bind, Except.bind]

/-- The width that `MTS` moves. -/
theorem specialMove_of_mts {h : Hdr} {num : BitVec 12} {a : Opd} (hw : (Instr.mts h num a).wellFormed = true) :
    specialMove num = if num = 0x021 ∨ num = 0x026 then 32 else 64 := by
  have hnum : num.toNat = 0x020 ∨ num.toNat = 0x021 ∨ num.toNat = 0x022 ∨ num.toNat = 0x023 ∨ num.toNat = 0x026 := by
    simp only [Instr.wellFormed, specialReg] at hw
    split at hw
    · next heq =>
      split at heq <;> simp_all
    · cases hw
  have hof (n : Nat) (hn : num.toNat = n) : num = BitVec.ofNat 12 n := by rw [← hn, BitVec.ofNat_toNat, BitVec.setWidth_eq]
  rcases hnum with hn | hn | hn | hn | hn <;> rw [hof _ hn] <;> decide

/-- Settles O17. -/
theorem specialRegisters : Obligations.SpecialRegisters := by
  unfold Obligations.SpecialRegisters
  refine ⟨?_, ?_, ?_, ?_⟩
  · intro s g h d num w val ws hw hg hval hheld hws
    obtain ⟨rfl, -, hne⟩ := special_eq (hval 0)
    have hv (lane : Nat) : val lane = s.specialVal g num lane := (special_eq (hval lane)).2.1
    simp only [hv] at hws
    rw [mfs_results hw hg hheld ws hws, if_neg hne]
    by_cases ht : num = 0x030
    · subst ht
      rfl
    · have hlong : specialLong num = false := by
        rw [specialLong, beq_false_of_ne ht, beq_false_of_ne hne]
        rfl
      rw [hlong, if_neg ht]
      rfl
  · intro s s1 g h d c n hw hg hc hact hheld hn hs1
    have hnext : s.nextSeq g = (n, s1) := by
      simp only [State.nextSeq, hc, hn, hs1]
    have hwrites : Claims.writes g h d (specialMove 0x031) [] (fun lane =>
        BitVec.ofNat 128 (s.specialVal g 0x031 (Claims.readLane (Claims.once h [d]) (g.active h) lane))) =
        g.writesTo d false 64 (g.active h) (fun _ => BitVec.ofNat 128 n.toNat) := by
      have hpop : Claims.popsToo d [] = false := by cases d <;> rfl
      have hval (lane : Nat) : s.specialVal g 0x031 lane = n.toNat := by
        show (s.nextSeq g).1.toNat = _
        rw [hnext]
      simp only [Claims.writes, hval, hact, decide_false, Bool.and_false, Bool.false_eq_true, if_false, hpop]
      rfl
    rw [mfs_results hw hg hheld _ hwrites.symm, hnext]
    rfl
  · intro s g h num a w i v hw hg hi hwid hheld hv
    have hmove := specialMove_of_mts hw
    rw [← hmove] at hwid
    subst hwid hv
    refine ⟨_, mts_results hw hg hi hheld, ?_, ?_, ?_, ?_, ?_⟩
    · rintro rfl; rfl
    · rintro rfl; rfl
    · rintro rfl; rfl
    · rintro rfl; rfl
    · rintro rfl
      exact ⟨rfl, fun k => ⟨getLsbD_setHelper g _ k, getLsbD_setHelper_exec g _ k⟩⟩
  · intro s g h num a hw hg hact
    refine exec_results rfl hw hg ?_
    simp only [mtsBody, hact, lowest_zero]

end Sys2Proof.Machine

end


section
/-! # O18: extended halves and loop queues (R144, R145, R182, R220 to R222) -/

namespace Sys2Proof.Machine

/-- An instruction whose body takes a fault that has looked nothing up. -/
theorem exec_faults {s : State} {g : Group} {i : Instr} {h : Hdr} {body : Body} {t : Trap}
    (hx : exec i s = issue s i h false body) (hw : i.wellFormed = true) (hg : s.group? s.cur = some g)
    (hb : body s g = .error t) (ht : t.looks = []) :
    exec i s = .next (s.take { g with wait := none } t) := by
  rw [hx, issue_eq (u := false) hg hw (fun h => Bool.noConfusion h), hb]
  simp only [State.conclude, State.looked, ht, List.isEmpty_nil, if_true]

/-- An instruction that completes and then waits. -/
theorem State.finish_wait (s : State) (g : Group) (h : Hdr) (short : List RegWrite) (long : List LongOut)
    (next : Option Word64) (w : Wait) :
    s.finish g h short long next (some w) = (s.counted g long.length).setGroup
      { g.completed h (if h.st then s.ordinal g g.pc else none) short long next s.nextId with wait := some w } := rfl

theorem State.poolReqs_counted (s : State) (g : Group) (n k : Nat) : ((s.counted g n).core k).poolReqs = (s.core k).poolReqs := by
  unfold State.counted State.countIssue State.addEvent State.touch
  refine (State.core_modCore_keep (fun c => c.poolReqs) _ _ _ (fun c => by split <;> rfl) k).trans ?_
  refine State.core_modCore_keep (fun c => c.poolReqs) _ _ _ (fun c => ?_) k
  rfl

/-- A request for n blocks at the end of the queue of the group's core (R145). -/
def State.asking (s : State) (g : Group) (n : Nat) : State :=
  s.modCore (g.core.getD 0) (fun c => { c with poolReqs := c.poolReqs ++ [⟨g.id, n, c.fired⟩] })

/-- `XGROW` that wants halves within the core's limit: its request joins the queue, and it waits. -/
theorem xgrow_waits {s : State} {g : Group} {h : Hdr} {lo hi : Bool} (hw : (Instr.xgrow h lo hi).wellFormed = true)
    (hg : s.group? s.cur = some g) {n : Nat} (hn : n = (lo && !g.lo).toNat + (hi && !g.hi).toNat) (h0 : n ≠ 0)
    (hle : g.blocks + n ≤ (s.core (g.core.getD 0)).xlimit.toNat) :
    exec (.xgrow h lo hi) s = .next
      ((s.asking g n).finish g h [] [] none (some (.xgrow (lo && !g.lo) (hi && !g.hi) h.sw))) := by
  show issue s _ h false (xgrowBody h lo hi) = _
  rw [issue_eq (u := false) hg hw (fun h => Bool.noConfusion h)]
  have hbody : xgrowBody h lo hi s g = .ok
      { s := s.asking g n, g := g,
        wait := some (.xgrow (lo && !g.lo) (hi && !g.hi) h.sw) } := by
    simp only [xgrowBody, ← hn, if_neg h0, if_neg (Nat.not_lt.mpr hle), State.asking]
  rw [hbody, conclude_ok rfl rfl]

/-! ## Dropping a half -/

theorem Group.dropHalf_bypass (g : Group) (lo hi : Nat) : (g.dropHalf lo hi).bypass = forgetBypass (RegWrite.inV lo hi) g.bypass :=
  rfl

theorem mem_forgetBypass {p : RegWrite → Bool} {l : List Bypassed} {b : Bypassed} :
    b ∈ forgetBypass p l ↔ b ∈ l ∧ p b.w = false := by
  simp [forgetBypass]

/-- The group without the halves that are dropped. -/
def Group.dropped (g : Group) (lo hi : Bool) : Group :=
  let g1 := if lo && g.lo then { g.dropHalf 32 48 with lo := false } else g
  if hi && g1.hi then { g1.dropHalf 48 64 with hi := false } else g1

/-- A dropped half is no longer held, nothing of it is in the bypass, and the register files stay. -/
theorem Group.dropped_spec (g : Group) (lo hi : Bool) :
    (g.dropped lo hi).lo = (g.lo && !lo) ∧ (g.dropped lo hi).hi = (g.hi && !hi) ∧ (g.dropped lo hi).v = g.v ∧
      (g.dropped lo hi).x = g.x ∧ (g.dropped lo hi).m = g.m ∧ (g.dropped lo hi).exec = g.exec ∧
      (lo = true → g.lo = true → ∀ b ∈ (g.dropped lo hi).bypass, RegWrite.inV 32 48 b.w = false) ∧
      (hi = true → g.hi = true → ∀ b ∈ (g.dropped lo hi).bypass, RegWrite.inV 48 64 b.w = false) ∧
      (lo = false ∨ g.lo = false → hi = false ∨ g.hi = false → g.dropped lo hi = g) := by
  have hhi : ({ g.dropHalf 32 48 with lo := false } : Group).hi = g.hi := rfl
  unfold Group.dropped
  by_cases h1 : (lo && g.lo) = true
  · obtain ⟨rfl, hlo⟩ := Bool.and_eq_true_iff.mp h1
    by_cases h2 : (hi && g.hi) = true
    · obtain ⟨rfl, hhi'⟩ := Bool.and_eq_true_iff.mp h2
      simp only [if_pos h1, hhi, if_pos h2]
      refine ⟨by simp [Group.dropHalf, Group.forget], by simp, rfl, rfl, rfl, rfl, ?_, ?_, by simp [hlo]⟩
      · intro _ _ b hb
        exact (mem_forgetBypass.mp (mem_forgetBypass.mp hb).1).2
      · intro _ _ b hb
        exact (mem_forgetBypass.mp hb).2
    · simp only [if_pos h1, hhi, if_neg h2]
      refine ⟨by simp, ?_, rfl, rfl, rfl, rfl, ?_, ?_, by simp [hlo]⟩
      · revert h2
        cases hi <;> cases g.hi <;> simp
      · intro _ _ b hb
        exact (mem_forgetBypass.mp hb).2
      · rintro rfl hh
        exact absurd (by rw [hh]; rfl) h2
  · have hlo : g.lo = (g.lo && !lo) := by
      revert h1
      cases lo <;> cases g.lo <;> simp
    by_cases h2 : (hi && g.hi) = true
    · obtain ⟨rfl, hhi'⟩ := Bool.and_eq_true_iff.mp h2
      simp only [if_neg h1, if_pos h2]
      refine ⟨hlo, by simp, rfl, rfl, rfl, rfl, ?_, ?_, by simp [hhi']⟩
      · rintro rfl hh
        exact absurd (by rw [hh]; rfl) h1
      · intro _ _ b hb
        exact (mem_forgetBypass.mp hb).2
    · simp only [if_neg h1, if_neg h2]
      refine ⟨hlo, ?_, trivial, trivial, trivial, trivial, ?_, ?_, fun _ _ => trivial⟩
      · revert h2
        cases hi <;> cases g.hi <;> simp
      · rintro rfl hh
        exact absurd (by rw [hh]; rfl) h1
      · rintro rfl hh
        exact absurd (by rw [hh]; rfl) h2

/-- Settles O18. -/
theorem blocksAndQueues : Obligations.BlocksAndQueues := by
  unfold Obligations.BlocksAndQueues
  refine ⟨?_, ?_, ?_⟩
  · intro s g h lo hi n hw hg hn
    refine ⟨fun h0 => ?_, fun h0 hgt => ?_, fun h0 hle => ?_⟩
    · refine exec_results rfl hw hg ?_
      simp only [xgrowBody, ← hn, if_pos h0]
    · refine exec_faults rfl hw hg ?_ rfl
      simp only [xgrowBody, ← hn, if_neg h0, if_pos hgt]
    · have hgs : (s.asking g n).group? g.id = some g := by
        rw [State.group?_id hg]
        exact hg
      obtain ⟨ls, st, hG⟩ := g.completed_spec h (if h.st then (s.asking g n).ordinal g g.pc else none) [] [] none
        (s.asking g n).nextId
      refine ⟨_, { g.completed h (if h.st then (s.asking g n).ordinal g g.pc else none) [] [] none (s.asking g n).nextId with
        wait := some (.xgrow (lo && !g.lo) (hi && !g.hi) h.sw) }, ⟨g.id, n, (s.core (g.core.getD 0)).fired⟩,
        xgrow_waits hw hg hn h0 hle, ?_, rfl, rfl, fun hc => ?_, rfl, ?_, ?_, ?_⟩
      · rw [State.finish_wait]
        exact State.group?_setGroup_of_id (s := (s.asking g n).counted g 0) hgs
          (Group.completed_id g h _ [] [] none _)
      · rw [State.finish_wait]
        refine (State.poolReqs_counted (s.asking g n) g 0 (g.core.getD 0)).trans ?_
        rw [State.asking, State.core_modCore _ hc, if_pos rfl]
      · rw [hG]
      · rw [hG]
        simp
      · rw [hG]
        simp
  · intro s g h lo hi hw hg
    obtain ⟨hlo, hhi, hv, hx, hm, hexec, hb1, hb2, hsame⟩ := g.dropped_spec lo hi
    refine ⟨g.dropped lo hi, _, ?_, rfl, hlo, hhi, hv, hx, hm, hexec, hb1, hb2, hsame⟩
    refine exec_results rfl hw hg ?_
    by_cases hdrop : (lo && g.lo || hi && g.hi) = true
    · have hprop : (lo = true ∧ g.lo = true) ∨ (hi = true ∧ g.hi = true) := by simpa using hdrop
      rw [if_pos hprop]
      exact if_pos hdrop
    · have hprop : ¬ ((lo = true ∧ g.lo = true) ∨ (hi = true ∧ g.hi = true)) := by simpa using hdrop
      rw [if_neg hprop]
      exact if_neg hdrop
  · intro s g g1 h qi depth base hw hg hheld hg1
    refine exec_results rfl hw hg ?_
    have hrange : g.holdsRange base.toNat depth.toNat = true := by
      simpa [Group.holdsRange] using hheld
    simp only [qcfgBody, hrange, Bool.not_true, Bool.and_false, Bool.false_eq_true, if_false, hg1]

end Sys2Proof.Machine

end


section
/-! # O20: `NOP`, `MARK` and `EXIT` (R136, R137, R191, R228, R229, R244) -/

namespace Sys2Proof.Machine

/-! ## What a fault leaves of the cores and of the list of groups -/

/-- The cores are as before, and the same groups are there. -/
def SameSlots (s t : State) : Prop :=
  t.cores = s.cores ∧ t.groups.map (·.id) = s.groups.map (·.id)

theorem SameSlots.rfl {s : State} : SameSlots s s := ⟨Eq.refl _, Eq.refl _⟩

theorem SameSlots.trans {s t u : State} (h : SameSlots s t) (h' : SameSlots t u) : SameSlots s u :=
  ⟨h'.1.trans h.1, h'.2.trans h.2⟩

theorem map_id_map {f : Group → Group} (hf : ∀ g, (f g).id = g.id) (l : List Group) :
    (l.map f).map (·.id) = l.map (·.id) := by
  rw [List.map_map]
  exact List.map_congr_left fun g _ => hf g

theorem State.sameSlots_setGroup (s : State) (g : Group) : SameSlots s (s.setGroup g) := by
  refine ⟨Eq.refl _, map_id_map (fun h => ?_) s.groups⟩
  split
  · next he => exact (beq_iff_eq.mp he).symm
  · rfl

theorem State.sameSlots_ringed (s : State) (e : LogEvent) : SameSlots s (s.ringed e) := by
  unfold State.ringed
  split
  · exact SameSlots.rfl
  · exact ⟨Eq.refl _, Eq.refl _⟩

theorem State.sameSlots_raise (s : State) (m : Nat) : SameSlots s (s.raise m) := by
  unfold State.raise
  split
  · exact SameSlots.rfl
  · exact ⟨Eq.refl _, Eq.refl _⟩

theorem State.sameSlots_setEvents (s : State) (tm : Nat) (b : BitVec 16) : SameSlots s (s.setEvents tm b) := by
  refine ⟨Eq.refl _, map_id_map (fun g => ?_) s.groups⟩
  split <;> rfl

theorem State.sameSlots_log (s : State) (e : LogEvent) : SameSlots s (s.log e) := by
  rw [State.log_eq]
  refine (s.sameSlots_ringed e).trans ?_
  unfold State.notified
  split
  · exact (State.sameSlots_raise ..).trans (State.sameSlots_setEvents ..)
  · exact State.sameSlots_raise ..

theorem State.sameSlots_readLines (s : State) (g : Group) (vas : List Word64) : SameSlots s (s.readLines g vas) := by
  unfold State.readLines
  induction vas generalizing s with
  | nil => exact SameSlots.rfl
  | cons va vas ih =>
    rw [List.foldl_cons]
    refine SameSlots.trans ?_ (ih _)
    dsimp only
    split
    · exact State.sameSlots_log ..
    · exact SameSlots.rfl

theorem State.sameSlots_halt (s : State) (g : Group) (why : HaltReason) (r : CauseRec) : SameSlots s (s.halt g why r) :=
  (State.sameSlots_setGroup ..).trans (State.sameSlots_log ..)

theorem State.sameSlots_enterHandler (s : State) (g : Group) (ret : Word64) (r : CauseRec) :
    SameSlots s (s.enterHandler g ret r) := by
  unfold State.enterHandler
  dsimp only
  split
  · exact State.sameSlots_halt ..
  · refine (s.sameSlots_readLines { g with mode := .handler } [s.ptvec g]).trans ?_
    split
    · exact State.sameSlots_setGroup ..
    · exact State.sameSlots_halt ..

theorem State.sameSlots_takeRec (s : State) (g : Group) (c : Cause) (ret : Word64) (r : CauseRec) :
    SameSlots s (s.takeRec g c ret r) := by
  unfold State.takeRec
  split
  · exact State.sameSlots_enterHandler ..
  · exact State.sameSlots_setGroup ..
  · exact State.sameSlots_halt ..
  · exact State.sameSlots_setGroup ..
  · exact State.sameSlots_halt ..

theorem State.sameSlots_take (s : State) (g : Group) (t : Trap) : SameSlots s (s.take g t) :=
  State.sameSlots_takeRec ..

/-! ## A group without a slot -/

theorem State.group?_eq_none_iff {s : State} {k : Nat} : s.group? k = none ↔ k ∉ s.groups.map (·.id) := by
  simp [State.group?, List.find?_eq_none]

/-- The group k is gone, and core c holds no request of it. -/
def Gone (k : Nat) (core : Option Nat) (s : State) : Prop :=
  s.group? k = none ∧ ∀ c, core = some c → (∀ r ∈ (s.core c).poolReqs, r.gid ≠ k) ∧ ∀ r ∈ (s.core c).tileReqs, r.gid ≠ k

theorem Gone.of_sameSlots {k : Nat} {core : Option Nat} {s t : State} (h : Gone k core s) (hst : SameSlots s t) :
    Gone k core t := by
  obtain ⟨hcores, hids⟩ := hst
  refine ⟨?_, fun c hc => ?_⟩
  · rw [State.group?_eq_none_iff, hids, ← State.group?_eq_none_iff]
    exact h.1
  · have hcore : t.core c = s.core c := by rw [State.core, hcores]; rfl
    rw [hcore]
    exact h.2 c hc

/-- A change of a core that adds no request. -/
theorem Gone.modCore {k : Nat} {core : Option Nat} {s : State} (h : Gone k core s) (c : Nat) {f : Core → Core}
    (hp : ∀ x, (f x).poolReqs.Sublist x.poolReqs) (ht : ∀ x, (f x).tileReqs.Sublist x.tileReqs) :
    Gone k core (s.modCore c f) := by
  refine ⟨h.1, fun d hd => ?_⟩
  obtain ⟨h1, h2⟩ := h.2 d hd
  by_cases hc : c < 272
  · rw [State.core_modCore s hc]
    split
    · next he =>
      subst he
      exact ⟨fun r hr => h1 r ((hp _).subset hr), fun r hr => h2 r ((ht _).subset hr)⟩
    · exact ⟨h1, h2⟩
  · have hsame : (s.modCore c f).core d = s.core d := by
      rw [State.core, State.modCore, vmod, vset_of_le _ _ (Nat.le_of_not_lt hc)]
      rfl
    rw [hsame]
    exact ⟨h1, h2⟩

theorem Gone.dropReqs {k : Nat} {core : Option Nat} {s : State} (h : Gone k core s) (g : Group) :
    Gone k core (s.dropReqs g) := by
  unfold State.dropReqs
  split
  · exact h
  · exact h.modCore _ (fun _ => List.filter_sublist) (fun _ => List.filter_sublist)

theorem poolReqs_dropReqs_self (s : State) {g : Group} {c : Nat} (hc : g.core = some c) :
    (∀ r ∈ ((s.dropReqs g).core c).poolReqs, r.gid ≠ g.id) ∧ ∀ r ∈ ((s.dropReqs g).core c).tileReqs, r.gid ≠ g.id := by
  have hdrop : s.dropReqs g = s.modCore c (fun c =>
      { c with poolReqs := c.poolReqs.filter (fun r => r.gid != g.id)
               tileReqs := c.tileReqs.filter (fun r => r.gid != g.id) }) := by
    rw [State.dropReqs, hc]
  rw [hdrop]
  by_cases hlt : c < 272
  · rw [State.core_modCore s hlt, if_pos rfl]
    exact ⟨fun r hr => bne_iff_ne.mp (List.mem_filter.mp hr).2, fun r hr => bne_iff_ne.mp (List.mem_filter.mp hr).2⟩
  · have hnone (t : State) : t.core c = Core.reset := by
      rw [State.core, vget, List.getD_eq_default _ _ (by simp; omega)]
    rw [hnone]
    simp [Core.reset]

theorem State.gone_removeGroup (s : State) (g : Group) : Gone g.id g.core (s.removeGroup g) := by
  have hfiltered : Gone g.id g.core
      { s.dropReqs g with groups := (s.dropReqs g).groups.filter (fun h => h.id != g.id) } := by
    refine ⟨?_, fun c hc => poolReqs_dropReqs_self s hc⟩
    rw [State.group?_eq_none_iff]
    simp
  unfold State.removeGroup
  dsimp only
  split
  · exact hfiltered.modCore _ (fun _ => List.Sublist.refl _) (fun _ => List.Sublist.refl _)
  · exact hfiltered

theorem sameSlots_uncharge (s : State) (charge : List Nat) : SameSlots s (s.uncharge charge) := by
  unfold State.uncharge
  induction charge generalizing s with
  | nil => exact SameSlots.rfl
  | cons t ts ih => exact SameSlots.trans ⟨Eq.refl _, Eq.refl _⟩ (ih _)

theorem sameSlots_endIfEmpty (s : State) (tid : Nat) : SameSlots s (s.endIfEmpty tid) := by
  unfold State.endIfEmpty
  split
  · exact SameSlots.rfl
  · split
    · exact SameSlots.rfl
    · unfold State.endTeam State.keepPast State.keepTables
      split <;> exact ⟨Eq.refl _, Eq.refl _⟩

/-- A waiting member of a gang to form leaves it, with its requests, by the fault of another's exit. -/
theorem Gone.gangExit {k : Nat} {core : Option Nat} {s : State} (h : Gone k core s) (g : Group) :
    Gone k core (s.gangExit g) := by
  unfold State.gangExit
  generalize s.groups = l
  induction l generalizing s with
  | nil => exact h
  | cons a l ih =>
    rw [List.foldl_cons]
    refine ih ?_
    dsimp only
    split
    · split
      · exact (h.dropReqs _).of_sameSlots (State.sameSlots_take ..)
      · exact h
    · exact h

theorem State.gone_exitGroup (s : State) (g : Group) : Gone g.id g.core (s.exitGroup g) := by
  unfold State.exitGroup
  refine Gone.of_sameSlots ?_ (sameSlots_endIfEmpty ..)
  have h1 := s.gone_removeGroup g
  split
  · split
    · exact (h1.of_sameSlots (sameSlots_uncharge ..)).gangExit g
    · exact h1.gangExit g
  · split
    · exact h1.of_sameSlots (sameSlots_uncharge ..)
    · exact h1

/-! ## An exit writes no memory, where no group waits to form a gang -/

/-- No group waits to form a gang. -/
def NoForming (s : State) : Prop :=
  ∀ k ∈ s.groups, ∀ w r, k.wait ≠ some (.gang w r)

theorem State.gangExit_eq {s : State} (h : NoForming s) (g : Group) : s.gangExit g = s := by
  have hstep : ∀ l : List Group, (∀ k ∈ l, k ∈ s.groups) → l.foldl (fun s h0 =>
      let h := (s.group? h0.id).getD h0
      match h.wait with
      | some (.gang w _) =>
        if h.team = g.team && (gangList w).contains g.index.toNat then
          (s.dropReqs h).take { h with wait := none } (trapOf .gangmis)
        else s
      | _ => s) s = s := by
    intro l hl
    induction l with
    | nil => rfl
    | cons a l ih =>
      have hmem : (s.group? a.id).getD a ∈ s.groups := by
        cases hf : s.group? a.id with
        | none => exact hl a (by simp)
        | some k => exact List.mem_of_find?_eq_some hf
      rw [List.foldl_cons]
      have hsame : (match ((s.group? a.id).getD a).wait with
          | some (.gang w _) =>
            if ((s.group? a.id).getD a).team = g.team && (gangList w).contains g.index.toNat then
              (s.dropReqs ((s.group? a.id).getD a)).take { (s.group? a.id).getD a with wait := none } (trapOf .gangmis)
            else s
          | _ => s) = s := by
        split
        · next w r hw => exact absurd hw (h _ hmem _ _)
        · rfl
      exact (congrArg (fun t => l.foldl _ t) hsame).trans (ih fun k hk => hl k (by simp [hk]))
  exact hstep s.groups fun k hk => hk

theorem mem_uncharge (s : State) (charge : List Nat) : (s.uncharge charge).mem = s.mem := by
  unfold State.uncharge
  induction charge generalizing s with
  | nil => rfl
  | cons t ts ih => exact ih _

theorem groups_uncharge (s : State) (charge : List Nat) : (s.uncharge charge).groups = s.groups := by
  unfold State.uncharge
  induction charge generalizing s with
  | nil => rfl
  | cons t ts ih => exact ih _

theorem mem_endIfEmpty (s : State) (tid : Nat) : (s.endIfEmpty tid).mem = s.mem := by
  unfold State.endIfEmpty
  split
  · rfl
  · split
    · rfl
    · unfold State.endTeam State.keepPast State.keepTables
      split <;> rfl

theorem mem_dropReqs (s : State) (g : Group) : (s.dropReqs g).mem = s.mem := by
  unfold State.dropReqs
  split <;> rfl

theorem groups_dropReqs (s : State) (g : Group) : (s.dropReqs g).groups = s.groups := by
  unfold State.dropReqs
  split <;> rfl

theorem mem_removeGroup (s : State) (g : Group) : (s.removeGroup g).mem = s.mem := by
  unfold State.removeGroup
  split <;> exact mem_dropReqs s g

theorem groups_removeGroup (s : State) (g : Group) :
    (s.removeGroup g).groups = s.groups.filter (fun h => h.id != g.id) := by
  unfold State.removeGroup
  split <;> simp [State.idleGrow, groups_dropReqs]

theorem mem_exitGroup {s : State} (h : NoForming s) (g : Group) : (s.exitGroup g).mem = s.mem := by
  have hform (t : State) (ht : t.groups = (s.removeGroup g).groups) : NoForming t := by
    intro k hk
    rw [ht, groups_removeGroup] at hk
    exact h k (List.mem_filter.mp hk).1
  unfold State.exitGroup
  rw [mem_endIfEmpty]
  split
  · split
    · rw [State.gangExit_eq (hform _ (groups_uncharge ..)), mem_uncharge, mem_removeGroup]
    · rw [State.gangExit_eq (hform _ rfl), mem_removeGroup]
  · split
    · rw [mem_uncharge, mem_removeGroup]
    · exact mem_removeGroup s g

/-! ## The lanes that end -/

theorem getLsbD_live (g : Group) (k : Nat) : g.live.getLsbD k = (g.exec.getLsbD k && !g.helper.getLsbD k) := by
  simp only [Group.live, BitVec.getLsbD_and, BitVec.getLsbD_not]
  cases h : g.exec.getLsbD k
  · rfl
  · simp [BitVec.lt_of_getLsbD h]

theorem getLsbD_and_not (a b : Mask) (k : Nat) : (a &&& ~~~b).getLsbD k = (a.getLsbD k && !b.getLsbD k) := by
  rw [BitVec.getLsbD_and, BitVec.getLsbD_not]
  cases h : a.getLsbD k
  · rfl
  · simp [BitVec.lt_of_getLsbD h]

/-- A lane's quad has a live lane: itself or another of the four. -/
def Group.quadLive (g : Group) (k : Nat) : Bool :=
  decide (k < 64) && (List.range 4).any (fun j => g.live.getLsbD (k / 4 * 4 + j))

theorem Group.quadLive_of_live {g : Group} {k : Nat} (h : g.live.getLsbD k = true) : g.quadLive k = true := by
  have hk : k / 4 * 4 + k % 4 = k := Nat.div_add_mod' k 4
  simp only [Group.quadLive, Bool.and_eq_true, decide_eq_true_eq, List.any_eq_true, List.mem_range]
  exact ⟨BitVec.lt_of_getLsbD h, k % 4, Nat.mod_lt _ (by decide), by rw [hk]; exact h⟩

theorem getLsbD_dropQuads (g : Group) (k : Nat) :
    g.dropQuads.exec.getLsbD k = (g.exec.getLsbD k && g.quadLive k) ∧
      g.dropQuads.helper.getLsbD k = (g.helper.getLsbD k && g.quadLive k) := by
  simp only [Group.dropQuads, BitVec.getLsbD_and, getLsbD_maskOf, Group.quadLive, and_self]

/-- Dropping the quads without a live lane leaves every live lane. -/
theorem Group.live_dropQuads (g : Group) : g.dropQuads.live = g.live := by
  rw [mask_eq_iff]
  intro k
  obtain ⟨he, hh⟩ := getLsbD_dropQuads g k
  rw [getLsbD_live, he, hh]
  cases hq : g.quadLive k with
  | true => rw [getLsbD_live]; simp
  | false =>
    have hl : g.live.getLsbD k = false := by
      by_contra hc
      rw [Group.quadLive_of_live (by simpa using hc)] at hq
      exact absurd hq (by decide)
    simp [hl]

/-- The group after its lanes of a set have ended (R136, R228). -/
def Group.ended (g : Group) (act : Mask) : Group :=
  { g with exec := g.exec &&& ~~~act, helper := g.helper &&& ~~~act }.dropQuads

theorem Group.live_ended (g : Group) (act : Mask) : (g.ended act).live = g.live &&& ~~~act := by
  rw [Group.ended, Group.live_dropQuads, mask_eq_iff]
  intro k
  rw [getLsbD_live, getLsbD_and_not, getLsbD_and_not, getLsbD_and_not, getLsbD_live]
  cases g.exec.getLsbD k <;> cases g.helper.getLsbD k <;> cases act.getLsbD k <;> rfl

theorem Group.getLsbD_ended_helper (g : Group) (act : Mask) (k : Nat) :
    (g.ended act).helper.getLsbD k = true ↔ g.helper.getLsbD k = true ∧ act.getLsbD k = false ∧ k < 64 ∧
      ∃ j < 4, (g.ended act).live.getLsbD (k / 4 * 4 + j) = true := by
  have hlive : ({ g with exec := g.exec &&& ~~~act, helper := g.helper &&& ~~~act } : Group).live = (g.ended act).live :=
    (Group.live_dropQuads _).symm
  rw [Group.ended, (getLsbD_dropQuads _ k).2, Group.quadLive, hlive, getLsbD_and_not]
  simp only [Bool.and_eq_true, Bool.not_eq_true', decide_eq_true_eq, List.any_eq_true, List.mem_range, and_assoc]
  rfl

theorem exitBody_eq (h : Hdr) (s : State) (g : Group) : exitBody h s g =
    if g.depth ≠ 0 then .error (trapOf .badwidth)
    else if (g.ended (g.active h)).live ≠ 0 then .ok { s := s, g := g.ended (g.active h) }
    else
      match g.gang with
      | none => .ok { s := (s.countIssue (g.core.getD 0)).exitGroup (g.ended (g.active h)), g := g.ended (g.active h), final := true }
      | some k =>
        .ok { s := s.modGang k (fun k => { k with dissolving := k.dissolving ++ [g.id] }), g := g.ended (g.active h),
              wait := some (.dissolve h.sw true), hold := true } := rfl

/-! ## The instructions -/

theorem exit_eq {s : State} {g : Group} {h : Hdr} (hw : (Instr.exit h).wellFormed = true) (hg : s.group? s.cur = some g)
    (hm : g.mode = .user) : exec (.exit h) s = .next (s.conclude g h (exitBody h s g)) :=
  issue_eq hg hw (fun _ => hm)

/-- Settles O20. -/
theorem marksAndExits : Obligations.MarksAndExits := by
  unfold Obligations.MarksAndExits
  refine ⟨⟨?_, ?_, ?_⟩, ?_⟩
  · intro s g h hw hg
    refine exec_results (body := fun s g => .ok { s := s, g := g }) rfl hw hg ?_
    rfl
  · intro s g h c hw hg hb
    refine exec_results rfl hw hg ?_
    simp only [markBody, hb, Bool.false_eq_true, if_false]
  · intro s g h c hw hg hb
    refine exec_results rfl hw hg ?_
    simp only [markBody, hb, if_true]
  · intro s g h hw hg hm
    have hx := exit_eq hw hg hm
    rw [exitBody_eq] at hx
    refine ⟨fun hd => ?_, fun hd hl => ?_, fun hd hk hl => ?_⟩
    · rw [hx, if_pos hd]
      rfl
    · have hl' : (g.ended (g.active h)).live ≠ 0 := by
        rw [Group.live_ended]
        exact hl
      rw [hx, if_neg (not_not.mpr hd), if_pos hl', conclude_ok rfl rfl]
      exact ⟨_, rfl, rfl, Group.live_ended .., fun k => Group.getLsbD_ended_helper g _ k⟩
    · have hl' : ¬ (g.ended (g.active h)).live ≠ 0 := by
        rw [Group.live_ended]
        exact not_not.mpr hl
      rw [hx, if_neg (not_not.mpr hd), if_neg hl', hk]
      obtain ⟨hnone, hreqs⟩ := (s.countIssue (g.core.getD 0)).gone_exitGroup (g.ended (g.active h))
      exact ⟨_, rfl, hnone, hreqs,
        fun hno => mem_exitGroup (s := s.countIssue (g.core.getD 0)) hno (g.ended (g.active h))⟩

end Sys2Proof.Machine

end


section
/-! # O19: `BRA`, `JMP`, `CALL` and `RET` (R95, R156, R157, R177, R224, R225) -/

namespace Sys2Proof.Machine

/-! ## Targets and tests -/

theorem target_eq_address (g : Group) (t : Target) : g.target t = Claims.address g t := by
  cases t with
  | indirect n => rfl
  | direct disp slot =>
    have hline : ((g.pc >>> 6) + disp.signExtend 64) <<< 6 = (g.pc &&& ~~~63#64) + disp.signExtend 64 * 64 := by
      generalize disp.signExtend 64 = d
      generalize g.pc = p
      have hmask : (p &&& ~~~63#64).toNat = p.toNat / 64 * 64 := by
        have hsplit : p &&& ~~~63#64 = (p >>> 6) <<< 6 := by
          ext i hi
          simp only [BitVec.getElem_and, BitVec.getElem_not, BitVec.getElem_shiftLeft]
          by_cases h6 : i < 6
          · interval_cases i <;> simp
          · have h63 : (63#64)[i] = false := by
              rw [BitVec.getElem_eq_testBit_toNat]
              exact Nat.testBit_lt_two_pow (lt_of_lt_of_le (by decide : 63 < 2 ^ 6) (Nat.pow_le_pow_right (by decide) (by omega)))
            have hadd : 6 + (i - 6) = i := by omega
            simp [h63, h6, hadd, BitVec.getLsbD_eq_getElem hi]
        rw [hsplit, BitVec.toNat_shiftLeft, BitVec.toNat_ushiftRight, Nat.shiftLeft_eq, Nat.shiftRight_eq_div_pow]
        have := p.isLt
        omega
      apply BitVec.eq_of_toNat_eq
      rw [BitVec.toNat_shiftLeft, BitVec.toNat_add, BitVec.toNat_ushiftRight, BitVec.toNat_add, BitVec.toNat_mul, hmask,
        Nat.shiftLeft_eq, Nat.shiftRight_eq_div_pow]
      have h64 : (64 : Word64).toNat = 64 := rfl
      rw [h64]
      have := p.isLt
      have := d.isLt
      omega
    have hslot : BitVec.ofNat 64 (12 * slot.toNat) = 12 * slot.setWidth 64 := by
      apply BitVec.eq_of_toNat_eq
      have h12 : (12 : Word64).toNat = 12 := rfl
      have := slot.isLt
      rw [BitVec.toNat_ofNat, BitVec.toNat_mul, BitVec.toNat_setWidth, h12]
      omega
    simp only [Group.target, Claims.address, hline, hslot]

theorem passes_iff (g : Group) (t : Test) : g.passes t = true ↔ Claims.testPasses g t := by
  cases t with
  | always => exact ⟨fun _ => trivial, fun _ => rfl⟩
  | flag ci f neg => cases f <;> exact bne_iff_ne
  | maskZero mi => exact beq_iff_eq
  | maskNonzero mi => exact bne_iff_ne

theorem slotOk_iff (a : Word64) : slotOk a = true ↔ ∃ j ≤ 4, a.toNat % 64 = 12 * j := by
  simp only [slotOk, Bool.and_eq_true, beq_iff_eq, decide_eq_true_eq]
  constructor
  · rintro ⟨h1, h2⟩
    exact ⟨a.toNat % 64 / 12, by omega, by omega⟩
  · rintro ⟨j, hj, h⟩
    omega

theorem slotOf_of_eq {a : Word64} {k : Nat} (h : a.toNat % 64 = 12 * k) : slotOf a = k := by
  simp [slotOf, h]

/-! ## Reading a line of code -/

theorem State.codeLine_ok {s : State} {a : Accessor} {va : Word64} {b : BitVec 512} (h : s.codeLine a va = .ok b) :
    (s.fetchLine a va).fault = none ∧ (s.fetchLine a va).bits = b ∧
      (s.fetchLine a va).parBad = (lineParity b != b.extractLsb' 480 16) := by
  unfold State.codeLine at h
  dsimp only at h
  split at h
  · cases h
  · next hf =>
    split at h
    · cases h
    · cases h
      refine ⟨hf, rfl, ?_⟩
      unfold State.fetchLine at hf ⊢
      split at hf
      · cases hf
      · rfl

theorem State.mismatch_iff {s : State} {a : Accessor} {va : Word64} {b : BitVec 512} (h : s.codeLine a va = .ok b) :
    (s.fetchLine a va).mismatch = true ↔ lineParity b ≠ b.extractLsb' 480 16 := by
  obtain ⟨hf, -, hp⟩ := State.codeLine_ok h
  simp [FetchLine.mismatch, hf, hp]

theorem mismatch_of_codeAt {s : State} {g : Group} {line : Word64} {b : BitVec 512} (h : Claims.codeAt s g line b) :
    (s.fetchLine (s.accessor g) line).mismatch = false := by
  obtain ⟨hb, hp⟩ := h
  by_contra hc
  exact (State.mismatch_iff hb).mp (by simpa using hc) hp

theorem State.codeLine_error {s : State} {a : Accessor} {va : Word64} {c : Cause} (h : s.locOf a .fetch va = .error c) :
    s.codeLine a va = .error c ∧ (s.fetchLine a va).mismatch = false := by
  have hl : s.fetchLine a va = { va := va, pa := 0, bits := 0, parBad := false, poison := none, fault := some c } := by
    unfold State.fetchLine
    rw [h]
  unfold State.codeLine
  rw [hl]
  exact ⟨rfl, rfl⟩

/-! ## The check of a target -/

theorem checkTarget_ok {s : State} {g : Group} {a : Word64} {b : BitVec 512} {k : Nat}
    (hb : s.codeLine (s.accessor g) (lineAddr a) = .ok b) (hk : k ≤ 4) (ha : a.toNat % 64 = 12 * k)
    (ht : (lineWord b).getLsbD (27 + k) = true) {slot0 : Bool} (h0 : slot0 = true → k = 0) :
    s.checkTarget g a slot0 = .ok () := by
  have hs : slotOk a = true := (slotOk_iff a).mpr ⟨k, hk, ha⟩
  have hz : (!slot0 || k == 0) = true := by
    cases slot0
    · rfl
    · simp [h0 rfl]
  simp only [State.checkTarget, hb, hs, slotOf_of_eq ha, ht, hz, Bool.and_self, if_true]

theorem checkTarget_badtgt {s : State} {g : Group} {a : Word64} {b : BitVec 512} {slot0 : Bool}
    (hb : s.codeLine (s.accessor g) (lineAddr a) = .ok b) (ha : ∀ j ≤ 4, a.toNat % 64 ≠ 12 * j) :
    s.checkTarget g a slot0 = .error { trapAt .badtgt a with looked := [lineAddr a] } := by
  have hs : slotOk a = false := by
    by_contra hc
    obtain ⟨j, hj, h⟩ := (slotOk_iff a).mp (by simpa using hc)
    exact ha j hj h
  simp only [State.checkTarget, hb, hs, Bool.false_and, Bool.false_eq_true, if_false]

theorem checkTarget_error {s : State} {g : Group} {a : Word64} {c : Cause} {slot0 : Bool}
    (hb : s.codeLine (s.accessor g) (lineAddr a) = .error c) :
    s.checkTarget g a slot0 = .error (lineTrap c (lineAddr a)) := by
  simp only [State.checkTarget, hb]

theorem lineTrap_looks (c : Cause) (line : Word64) : (lineTrap c line).looks = [line] := by
  unfold lineTrap Trap.looks trapAt
  cases c.isWalk <;> rfl

/-! ## Transfers -/

/-- A body whose lines all have their parity runs as it is. -/
theorem reading_clean {lines : State → Group → List Word64} {b : Body} {s : State} {g : Group}
    (h : ∀ va ∈ lines s g, (s.fetchLine (s.accessor g) va).mismatch = false) : reading lines b s g = b s g := by
  have hnil : (lines s g).filter (fun va => (s.fetchLine (s.accessor g) va).mismatch) = [] := by
    rw [List.filter_eq_nil_iff]
    intro va hva
    simp [h va hva]
  simp [reading, hnil]

/-- An instruction that goes on at a target. -/
theorem exec_transfers {s s' : State} {g g' : Group} {i : Instr} {h : Hdr} {body : Body} {short : List RegWrite}
    {next : Option Word64} {ts : List Touch} (hx : exec i s = issue s i h false body) (hw : i.wellFormed = true)
    (hg : s.group? s.cur = some g)
    (hb : body s g = .ok { s := s', g := g', short := short, touches := ts, next := next }) :
    exec i s = .next (s'.finish g' h short [] next none ts) := by
  rw [hx, issue_eq (u := false) hg hw (fun h => Bool.noConfusion h), hb, conclude_ok rfl rfl]

/-- An instruction that faults after it has looked up some lines. -/
theorem exec_faults_after {s : State} {g : Group} {i : Instr} {h : Hdr} {body : Body} {t : Trap} {ls : List Word64}
    (hx : exec i s = issue s i h false body) (hw : i.wellFormed = true) (hg : s.group? s.cur = some g)
    (hb : body s g = .error t) (ht : t.looks = ls) (hne : ls ≠ []) :
    exec i s = .next ((s.lookUpAll g ls).take { g with wait := none } t) := by
  have hemp : ls.isEmpty = false := by simpa using hne
  rw [hx, issue_eq (u := false) hg hw (fun h => Bool.noConfusion h), hb]
  simp only [State.conclude, State.looked, ht, hemp, Bool.false_eq_true, if_false]

theorem branching_clean {s : State} {g : Group} {t : Target} {test : Test}
    (h : g.passes test = true → (s.fetchLine (s.accessor g) (lineAddr (g.target t))).mismatch = false) :
    branching t test s g = branchBody t test s g := by
  refine reading_clean fun va hva => ?_
  split at hva
  · next hp =>
    rw [List.mem_singleton.mp hva]
    exact h hp
  · cases hva

/-! ## A mismatch that is logged -/

/-- A team that is away hears of an event. -/
def Team.hears (tm : Nat) (t : Team) : Team :=
  if t.id = tm ∧ t.core = none then { t with evpend := t.evpend ||| 2 } else t

theorem Team.hears_launch (tm : Nat) (t : Team) : (Team.hears tm t).launch = t.launch := by
  unfold Team.hears
  split <;> rfl

/-- A group of a core hears of an event of its team. -/
def Group.hears (tm : Nat) (g : Group) : Group :=
  if g.team = tm ∧ g.core ≠ none then { g with evpend := g.evpend ||| 2 } else g

/-- An event that no die has a ring for. -/
theorem State.log_unringed {s : State} {e : LogEvent} {tm : Nat} (he : (s.die e.die).elsizel = 0) (ht : e.team = some tm) :
    ∃ m, s.log e = { s with mgmt := m, groups := s.groups.map (Group.hears tm), teams := s.teams.map (Team.hears tm) } := by
  have hring : s.ringed e = s := by rw [State.ringed, if_pos he]
  rw [State.log_eq, hring]
  rcases Nat.eq_zero_or_pos s.owner with h0 | hpos
  · refine ⟨s.mgmt, ?_⟩
    have hraise : s.raise s.owner = s := by rw [State.raise, if_pos h0]
    rw [State.notified, ht]
    dsimp only
    rw [hraise, State.setEvents_eq]
    rfl
  · exact ⟨_, State.notified_some ht hpos s⟩

/-- A reader whose team hears of an event reaches what it reached. -/
def Accessor.hears (tm : Nat) (a : Accessor) : Accessor :=
  { a with team := a.team.map (Team.hears tm) }

theorem find_hears (tm k : Nat) (ts : List Team) :
    (ts.map (Team.hears tm)).find? (fun t => t.id == k) = (ts.find? (fun t => t.id == k)).map (Team.hears tm) := by
  rw [List.find?_map]
  congr 2
  funext t
  unfold Function.comp Team.hears
  split <;> rfl

section Heard
variable (s : State) (tm : Nat) (m : Mgmt) (gs : List Group)

/-- A machine whose teams have heard of an event. -/
abbrev heard : State := { s with mgmt := m, groups := gs, teams := s.teams.map (Team.hears tm) }

theorem accessor_heard (g : Group) : (heard s tm m gs).accessor g = ((s.accessor g).hears tm) := by
  have hfind : (heard s tm m gs).team? g.team = (s.team? g.team).map (Team.hears tm) := find_hears tm g.team s.teams
  unfold State.accessor
  rw [hfind]
  cases s.team? g.team with
  | none => rfl
  | some t =>
    have hpart : (heard s tm m gs).partOf (Team.hears tm t) = s.partOf t := by
      unfold State.partOf
      rw [Team.hears_launch]
      rfl
    simp only [Option.map_some, hpart]
    rfl

theorem cohortHolds_heard (t : Team) (core off : Nat) :
    (heard s tm m gs).cohortHolds (Team.hears tm t) core off = s.cohortHolds t core off := by
  have hholds (u : Team) : (heard s tm m gs).holds (Team.hears tm u) core off = s.holds u core off := by
    unfold State.holds State.valsOf
    rw [Team.hears_launch]
    unfold Team.hears
    split <;> rfl
  have hcohort (u : Team) : (heard s tm m gs).cohortOf (Team.hears tm u) = s.cohortOf u := by
    unfold State.cohortOf State.valsOf
    rw [Team.hears_launch]
    unfold Team.hears
    split <;> rfl
  have hspawn (u : Team) : (Team.hears tm u).spawn = u.spawn := by
    unfold Team.hears
    split <;> rfl
  unfold State.cohortHolds
  rw [List.any_map]
  simp only [Function.comp_def, hholds, Team.hears_launch, hcohort, hspawn]

theorem locOf_heard (a : Accessor) (use : Use) (va : Word64) :
    (heard s tm m gs).locOf (a.hears tm) use va = s.locOf a use va := by
  have hplace : (heard s tm m gs).place (a.hears tm) use va = s.place a use va := by
    unfold State.place
    have hcore : (a.hears tm).core = a.core := rfl
    rw [hcore]
    cases regionOf a.core va with
    | unmapped => rfl
    | translated => rfl
    | supv off => rfl
    | scratch c off =>
      obtain ⟨p, su, c', tl, t⟩ := a
      cases t with
      | none => rfl
      | some t => simp only [Accessor.hears, Option.map_some, cohortHolds_heard]
  unfold State.locOf
  rw [hplace]

theorem codeLine_heard (a : Accessor) (va : Word64) : (heard s tm m gs).codeLine (a.hears tm) va = s.codeLine a va := by
  have hfetch : (heard s tm m gs).fetchLine (a.hears tm) va = s.fetchLine a va := by
    unfold State.fetchLine
    rw [locOf_heard]
    rfl
  unfold State.codeLine
  rw [hfetch]

end Heard

/-- The group after it has heard of an event of its team. -/
def Group.told (g : Group) : Group :=
  { g with evpend := if g.core ≠ none then g.evpend ||| 2 else g.evpend }

theorem refresh_heard {s : State} {g : Group} (hg : s.group? g.id = some g) (m : Mgmt) :
    State.refresh (heard s g.team m (s.groups.map (Group.hears g.team))) g = g.told := by
  have hid : ∀ h : Group, (Group.hears g.team h).id = h.id := fun h => by
    unfold Group.hears
    split <;> rfl
  have hfind : (heard s g.team m (s.groups.map (Group.hears g.team))).group? g.id = some (Group.hears g.team g) := by
    unfold State.group? at hg ⊢
    show (s.groups.map (Group.hears g.team)).find? _ = _
    rw [List.find?_map]
    simp only [Function.comp_def, hid, hg, Option.map_some]
  unfold State.refresh
  rw [hfind]
  unfold Group.hears Group.told
  by_cases hc : g.core = none <;> simp [hc]

/-- A mismatch of the one line that a transfer reads is logged, and the transfer runs then. -/
theorem reading_mismatch {s : State} {g : Group} {lines : State → Group → List Word64} {b : Body} {va : Word64} {d : Done}
    (hlines : lines s g = [va]) (hm : (s.fetchLine (s.accessor g) va).mismatch = true) (hwait : g.wait = none) {s1 : State}
    (hs1 : s1 = s.logParity g (s.fetchLine (s.accessor g) va)) {g1 : Group} (hg1 : g1 = s1.refresh g)
    (hb : b s1 g1 = .ok d) : reading lines b s g = .ok d := by
  have hread : s.readLines g [va] = s1 := by
    rw [hs1]
    simp only [State.readLines, List.foldl_cons, List.foldl_nil, hm, if_true]
  simp only [reading, hlines, List.filter_cons, hm, if_true, List.filter_nil, hread, ← hg1, hb, hwait]
  rfl

/-- `BRA` and `JMP` are transfers to a target on a test. -/
def IsBranch (i : Instr) (h : Hdr) (t : Target) (test : Test) : Prop :=
  (∃ disp slot, t = .direct disp slot ∧ i = .bra h disp slot test) ∨ (∃ n, t = .indirect n ∧ i = .jmp h n test)

theorem IsBranch.exec_eq {i : Instr} {h : Hdr} {t : Target} {test : Test} (hi : IsBranch i h t test) (s : State) :
    exec i s = issue s i h false (branching t test) := by
  rcases hi with ⟨disp, slot, rfl, rfl⟩ | ⟨n, rfl, rfl⟩ <;> rfl

theorem branchBody_taken {s : State} {g : Group} {t : Target} {test : Test} (hp : g.passes test = true)
    (hc : s.checkTarget g (g.target t) false = .ok ()) :
    branchBody t test s g = .ok { s := s, g := g, touches := [fetchTouch (g.target t)], next := some (g.target t) } := by
  simp only [branchBody, hp, if_true, hc, bind, Except.bind]

theorem branchBody_error {s : State} {g : Group} {t : Target} {test : Test} {e : Trap} (hp : g.passes test = true)
    (hc : s.checkTarget g (g.target t) false = .error e) : branchBody t test s g = .error e := by
  simp only [branchBody, hp, if_true, hc, bind, Except.bind]

theorem branchBody_passed {s : State} {g : Group} {t : Target} {test : Test} (hp : g.passes test = false) :
    branchBody t test s g = .ok { s := s, g := g } := by
  simp only [branchBody, hp, Bool.false_eq_true, if_false]

/-- The die of a group's core has no ring where no die has one. -/
theorem elsizel_zero {s : State} (h : ∀ d < 4, (s.die d).elsizel = 0) (d : Nat) : (s.die d).elsizel = 0 := by
  rcases Nat.lt_or_ge d 4 with hd | hd
  · exact h d hd
  · have hnone : s.die d = Die.reset := by
      rw [State.die, vget, List.getD_eq_default _ _ (by simpa using hd)]
    rw [hnone]
    rfl

/-- A branch whose line mismatches, on a machine without a ring: the mismatch is logged, and the branch is taken. -/
theorem branch_mismatch {s s1 : State} {g g1 : Group} {i : Instr} {h : Hdr} {t : Target} {test : Test} {k : Nat}
    {b : BitVec 512} (hi : IsBranch i h t test) (hw : i.wellFormed = true) (hg : s.group? s.cur = some g)
    (hp : g.passes test = true) (hb : s.codeLine (s.accessor g) (lineAddr (g.target t)) = .ok b)
    (hpar : lineParity b ≠ b.extractLsb' 480 16) (hwait : g.wait = none) (hk : k ≤ 4)
    (hlow : (g.target t).toNat % 64 = 12 * k) (htgt : (lineWord b).getLsbD (27 + k) = true)
    (hring : ∀ d < 4, (s.die d).elsizel = 0)
    (hs1 : s1 = s.logParity g (s.fetchLine (s.accessor g) (lineAddr (g.target t)))) (hg1 : g1 = g.told) :
    exec i s = .next (s1.finish g1 h [] [] (some (g.target t)) none [fetchTouch (g.target t)]) := by
  have hgid : s.group? g.id = some g := by rw [State.group?_id hg]; exact hg
  obtain ⟨m, hlog⟩ := State.log_unringed (s := s) (tm := g.team)
    (e := { die := dieOf (g.core.getD 0), kind := 1, part := (s.accessor g).part, gid := g.gid16,
            unit := dieOf (g.core.getD 0) * 4096 + g.core.getD 0 % 68,
            aux := (lineParity (s.fetchLine (s.accessor g) (lineAddr (g.target t))).bits ^^^
              (s.fetchLine (s.accessor g) (lineAddr (g.target t))).bits.extractLsb' 480 16).toNat + (g.slot / 32) * 2 ^ 16,
            data := bytesOf 8 (unitHome (s.fetchLine (s.accessor g) (lineAddr (g.target t))).pa).2.2, team := some g.team })
    (elsizel_zero hring _) rfl
  have hheard : s1 = heard s g.team m (s.groups.map (Group.hears g.team)) := hs1.trans hlog
  have hrefresh : g1 = s1.refresh g := by rw [hheard, refresh_heard hgid, hg1]
  have hline : s1.codeLine (s1.accessor g1) (lineAddr (g1.target t)) = .ok b := by
    have htarget : g1.target t = g.target t := by rw [hg1]; cases t <;> rfl
    have hacc : s1.accessor g1 = (s.accessor g).hears g.team := by
      rw [hheard, ← accessor_heard s g.team m (s.groups.map (Group.hears g.team)), hg1]
      rfl
    rw [htarget, hacc, hheard, codeLine_heard, hb]
  have hp1 : g1.passes test = true := by
    rw [hg1, ← hp]
    cases test <;> rfl
  have htarget : g1.target t = g.target t := by rw [hg1]; cases t <;> rfl
  have hbody := branchBody_taken (s := s1) (t := t) hp1
    (checkTarget_ok hline hk (by rw [htarget]; exact hlow) htgt (fun h => Bool.noConfusion h))
  rw [htarget] at hbody
  refine exec_transfers (hi.exec_eq s) hw hg ?_
  refine reading_mismatch (va := lineAddr (g.target t)) ?_ ((State.mismatch_iff hb).mpr hpar) hwait hs1 hrefresh hbody
  rw [if_pos hp]

/-- The two lines of a call that passes its checks are those of the target and of its record. -/
theorem callLines_of_ok {s : State} {g : Group} {a : Word64} (h : s.checkTarget g a true = .ok ()) :
    s.callLines g a = [lineAddr a, lineAddr a - 64] := by
  simp only [State.callLines, h]

theorem entryRec_ok {s : State} {g : Group} {a : Word64} {rec : BitVec 512}
    (h : s.codeLine (s.accessor g) (lineAddr a - 64) = .ok rec) (hr : recordOk rec = true) :
    s.entryRec g a = .ok (recordOf rec) := by
  simp only [State.entryRec, h, hr, if_true]

/-- A call runs its body where both of its lines have their parity. -/
theorem call_clean {s : State} {g : Group} {t : Target} {b : Body} {line rec : BitVec 512}
    (hc : s.checkTarget g (g.target t) true = .ok ()) (hl : Claims.codeAt s g (lineAddr (g.target t)) line)
    (hrec : Claims.codeAt s g (lineAddr (g.target t) - 64) rec) :
    reading (fun s g => s.callLines g (g.target t)) b s g = b s g := by
  refine reading_clean fun va hva => ?_
  rw [callLines_of_ok hc] at hva
  simp only [List.mem_cons, List.not_mem_nil, or_false] at hva
  rcases hva with rfl | rfl
  · exact mismatch_of_codeAt hl
  · exact mismatch_of_codeAt hrec

theorem callTrap_looks (a : Word64) : (callTrap a (trapAt .badwidth a)).looks = [lineAddr a, lineAddr (a - 64)] := rfl

theorem faultsAfter_called (s : State) (g : Group) (a : Word64) :
    Claims.faultsAfter s g (Claims.called a) .badwidth a =
      (s.lookUpAll g [lineAddr a, lineAddr (a - 64)]).take { g with wait := none } (callTrap a (trapAt .badwidth a)) :=
  rfl

theorem clearLastsp_of_group {s : State} {k : Nat} {g : Group} (h : s.group? k = some g) :
    s.clearLastsp k = s.setGroup { g with lastsp := 0xFFFF_FFFF, steps := 0 } := by
  simp only [State.clearLastsp, h]

/-- `RET` to a slot, with nothing left to deliver. -/
theorem ret_results {s : State} {g : Group} {h : Hdr} {n : BitVec 6} (hw : (Instr.ret h (.x n)).wellFormed = true)
    (hg : s.group? s.cur = some g) (hs : slotOk (g.xVal n) = true) (hsw : h.sw = true → g.pend = []) :
    ∃ t g', exec (.ret h (.x n)) s = .next t ∧ t.group? g.id = some g' ∧ g'.pc = g.xVal n ∧ g'.x = g.x ∧ g'.v = g.v ∧
      g'.lastsp = 0xFFFF_FFFF ∧ t.mem = s.mem := by
  have hgid : s.group? g.id = some g := by rw [State.group?_id hg]; exact hg
  have hfin := s.finish_eq g h [] [] (some (g.xVal n)) (fun h => ⟨hsw h, rfl⟩)
  obtain ⟨ls, st, hG⟩ := g.completed_spec h (if h.st then s.ordinal g g.pc else none) [] [] (some (g.xVal n)) s.nextId
  generalize g.completed h (if h.st then s.ordinal g g.pc else none) [] [] (some (g.xVal n)) s.nextId = G at hfin hG
  have hGid : G.id = g.id := by rw [hG]; simp
  have hGs : ((s.counted g 0).setGroup G).group? g.id = some G :=
    State.group?_setGroup_of_id (s := s.counted g 0) hgid hGid
  refine ⟨((s.counted g 0).setGroup G).clearLastsp g.id, { G with lastsp := 0xFFFF_FFFF, steps := 0 }, ?_, ?_, ?_, ?_, ?_,
    rfl, ?_⟩
  · show issue s _ h false (retBody h (.x n)) = _
    rw [issue_eq (u := false) hg hw (fun h => Bool.noConfusion h)]
    have hbody : retBody h (.x n) s g =
        .ok { s := (s.finish g h [] [] (some (g.xVal n)) none).clearLastsp g.id, g := g, final := true } := by
      simp only [retBody, Group.uni64, checkReturn, hs, if_true, bind, Except.bind]
    rw [hbody, hfin]
    rfl
  · rw [clearLastsp_of_group hGs]
    exact State.group?_setGroup_of_id hGs hGid
  · rw [hG]
  · rw [hG]
    rfl
  · rw [hG]
    rfl
  · rw [clearLastsp_of_group hGs]
    rfl

/-- Settles O19. -/
theorem branchesAndCalls : Obligations.BranchesAndCalls := by
  unfold Obligations.BranchesAndCalls
  refine ⟨?_, ?_, fun s g h n hw hg hs hsw => ret_results hw hg hs hsw⟩
  · intro s g h i t test k hi hw hg
    replace hi : IsBranch i h t test := hi
    have hx := hi.exec_eq s
    rw [← target_eq_address, ← passes_iff]
    refine ⟨?_, ?_, ?_, ?_, ?_⟩
    · rintro hp ⟨hk, hlow, b, hb, htgt⟩
      refine exec_transfers hx hw hg ?_
      rw [branching_clean fun _ => mismatch_of_codeAt hb]
      exact branchBody_taken hp (checkTarget_ok hb.1 hk hlow htgt (fun h => Bool.noConfusion h))
    · intro b hp hb hlow
      refine exec_faults_after hx hw hg ?_ rfl (by simp [Claims.fetched])
      rw [branching_clean fun _ => mismatch_of_codeAt hb]
      exact branchBody_error hp (checkTarget_badtgt hb.1 hlow)
    · intro c hp hc
      obtain ⟨hcode, hmis⟩ := State.codeLine_error hc
      refine exec_faults_after hx hw hg ?_ (lineTrap_looks ..) (by simp)
      rw [branching_clean fun _ => hmis]
      exact branchBody_error hp (checkTarget_error hcode)
    · intro b l s1 g1 hp hb hpar hwait hk hlow htgt hring hl hs1 hg1
      subst hl
      exact branch_mismatch hi hw hg hp hb hpar hwait hk hlow htgt hring hs1 hg1
    · intro hp
      have hp' : g.passes test = false := by simpa using hp
      refine exec_results hx hw hg ?_
      rw [branching_clean fun h => absurd h hp]
      exact branchBody_passed hp'
  · intro s g h t n rec hw hg hmay hrec hok
    rw [← target_eq_address] at hmay hrec ⊢
    obtain ⟨hk, hlow, b, hb, htgt⟩ := hmay
    have hcheck := checkTarget_ok hb.1 hk hlow htgt (slot0 := true) fun _ => rfl
    have hread := call_clean (b := callBody t (.x n)) hcheck hb hrec
    have hentry := entryRec_ok hrec.1 hok
    refine ⟨fun hz hlo hhi => ?_, fun hnz => ?_⟩
    · refine exec_transfers rfl hw hg ?_
      rw [hread]
      have hhalves : g.halvesFor (recordOf rec).vregs = true := by
        simp only [Group.halvesFor, recordOf, Bool.and_eq_true, Bool.or_eq_true]
        exact ⟨(le_or_gt _ 32).imp decide_eq_true hlo, (le_or_gt _ 48).imp decide_eq_true hhi⟩
      have hrule : ¬ (recordOf rec).wrule ≠ 0 := not_not.mpr hz
      simp only [callBody, hcheck, hentry, bind, Except.bind, if_neg hrule, hhalves, Bool.not_true, Bool.false_eq_true,
        if_false]
      rfl
    · have hrule : (recordOf rec).wrule ≠ 0 := hnz
      rw [faultsAfter_called]
      refine exec_faults_after (t := callTrap (g.target t) (trapAt .badwidth (g.target t))) rfl hw hg ?_
        (callTrap_looks (g.target t)) (List.cons_ne_nil _ _)
      rw [hread]
      simp only [callBody, hcheck, hentry, bind, Except.bind, if_pos hrule]

end Sys2Proof.Machine

end


section
/-! # O24: `ERET.FWD` and the bypass (R193, R408)

`ERET.FWD` hands on what `X56` to `X59` hold. Its own issue ages the bypass first, and what the fourth instruction before it
wrote with `TR` alone is in no register then: the handler gets the register file's old value, not the value that the `ERET`
itself would read. -/

namespace Sys2Proof.Machine

-- The kernel evaluates the counterexample: one declaration at a time.
set_option Elab.async false

/-- An entry of the supervisor from user mode. -/
def userShadow : Shadow :=
  { ret := 0x4000, mode := .user, exec := 1, helper := 0, c := Vector.replicate 4 0, fstat := 0, srctr := 0,
    x := Vector.replicate 8 0, bypass := [], pend := [], prog := 0, cause := ⟨0, 0, 0, 0⟩ }

/-- The group in the supervisor: a cause put into `X56` with `TR`, two instructions before the last. -/
def groupAtForward : Group :=
  { Group.launched 2 (loadedTeam State.reset) (loadedLaunch State.reset) 0 0 0 0 with
    pc := 0x4000, mode := .supervisor, sset := some userShadow, bypass := [⟨.x 56 1, 2⟩] }

/-- The loaded machine with a trap handler at 0x8000 (R406) and that group. -/
def stateAtForward : State :=
  { (State.reset.loaded.writeNat 0x8000 64 targetLine.toNat).modPart 0 (fun p => { p with ptvec := 0x8000 }) with
    groups := [groupAtForward], nextId := 4 }

def plainHdr : Hdr := ⟨0, false, false, false, false, false⟩

/-- What stands in `X56` of a group's file after an instruction. -/
def x56After (i : Instr) (s : State) (id : Nat) : Option Word64 :=
  match exec i s with
  | .next u => (u.group? id).map fun g => vget g.x 56 0
  | _ => none

theorem x56After_eq {i : Instr} {s u : State} {g : Group} {id : Nat} (hu : exec i s = .next u)
    (hg : u.group? id = some g) : x56After i s id = some (vget g.x 56 0) := by
  simp [x56After, hu, hg]

theorem x56After_forward : x56After (.eretFwd plainHdr) stateAtForward 2 = some 0 := by
  decide +kernel

theorem xVal_groupAtForward : groupAtForward.xVal 56 = 1 := by decide +kernel

/-- Refutes O24: the cause that is handed on is not what `X56` holds for the `ERET`. -/
theorem not_returnsRestore : ¬ Obligations.ReturnsRestore := by
  unfold Obligations.ReturnsRestore
  rintro ⟨⟨-, hfwd, -⟩, -, -⟩
  have hcur : stateAtForward.group? stateAtForward.cur = some groupAtForward := by rfl
  obtain ⟨t, g', -, ht, hg', -, -, hx, -⟩ := hfwd stateAtForward groupAtForward plainHdr userShadow _ rfl hcur rfl rfl rfl
    (fun _ => Bool.noConfusion ‹_›) (by decide +kernel) (by decide +kernel) rfl
  have hafter := (x56After_eq ht hg').symm.trans x56After_forward
  have hold : vget g'.x 56 0 = 1 := hx.trans xVal_groupAtForward
  rw [hold] at hafter
  exact absurd (Option.some.inj hafter) (by decide)

end Sys2Proof.Machine

end


section
/-! # O22, O23: taking a fault, `TRAP` and `BKPT` (R230, R401 to R406, R428, R434) -/

namespace Sys2Proof.Machine

/-! ## The record and the entry -/

theorem causeRec_eq_record (s : State) (g : Group) (t : Trap) : s.causeRec g t = Claims.record s g t := by
  have hsecond (b : Bool) : b.toNat * 2 ^ 15 = if b = true then 2 ^ 15 else 0 := by cases b <;> rfl
  have hlate (b : Bool) : b.toNat * 2 ^ 48 = if b = true then 2 ^ 48 else 0 := by cases b <;> rfl
  unfold State.causeRec Claims.record
  dsimp only
  rw [hsecond, hlate]
  cases t.lane with
  | none => simp only [Option.isSome_none, Bool.toNat_false, Nat.zero_mul, Nat.add_zero]; rfl
  | some l => simp only [Option.isSome_some, Bool.toNat_true, Nat.one_mul, ← Nat.add_assoc]; rfl

/-- The uniform registers at an entry (R404). -/
theorem vget_entryX (x : Vector Word64 64) (r : CauseRec) {i : Nat} (hi : i < 64) :
    vget (entryX x r) i 0 = if i = 56 then r.x56 else if i = 57 then r.x57 else if i = 58 then r.x58
      else if i = 59 then r.x59 else if 60 ≤ i then 0 else vget x i 0 := by
  unfold entryX
  rw [vget_vset _ _ _ _ (by decide), vget_vset _ _ _ _ (by decide), vget_vset _ _ _ _ (by decide),
    vget_vset _ _ _ _ (by decide), vget_vset _ _ _ _ (by decide), vget_vset _ _ _ _ (by decide),
    vget_vset _ _ _ _ (by decide), vget_vset _ _ _ _ (by decide)]
  by_cases h : 60 ≤ i
  · have : i = 60 ∨ i = 61 ∨ i = 62 ∨ i = 63 := by omega
    rcases this with rfl | rfl | rfl | rfl <;> rfl
  · have h60 : i ≠ 60 := by omega
    have h61 : i ≠ 61 := by omega
    have h62 : i ≠ 62 := by omega
    have h63 : i ≠ 63 := by omega
    rw [if_neg h63, if_neg h62, if_neg h61, if_neg h60, if_neg h]
    by_cases h56 : i = 56
    · subst h56; rfl
    · by_cases h57 : i = 57
      · subst h57; rfl
      · by_cases h58 : i = 58
        · subst h58; rfl
        · by_cases h59 : i = 59
          · subst h59; rfl
          · rw [if_neg h59, if_neg h58, if_neg h57, if_neg h56, if_neg h56, if_neg h57, if_neg h58, if_neg h59]

/-- An entry leaves what R404 says, whatever set it has filled and what it has heard. -/
theorem entered_enter {g k : Group} {m : Mode} {pc : Word64} {r : CauseRec} (hlive : k.live = g.live) (hv : k.v = g.v)
    (hm : k.m = g.m) (hq : k.q = g.q) (ht : k.t = g.t) (hseed : k.srseed = g.srseed) (hctr : k.srctr = g.srctr)
    (hhalt : k.halted = g.halted) (hx : k.x = g.x) : Claims.entered g (k.enter m pc r) m pc r := by
  refine ⟨rfl, rfl, hlive, rfl, rfl, rfl, rfl, rfl, hv, hm, hq, ht, hseed, hctr, hhalt, fun i hi => ?_⟩
  rw [← hx]
  exact vget_entryX k.x r hi

theorem shadows_shadow (g : Group) (ret : Word64) (r : CauseRec) : Claims.shadows g (g.shadow ret r) ret r :=
  ⟨rfl, rfl, rfl, rfl, rfl, rfl, rfl, rfl, rfl, rfl, rfl, fun i hi => vget_vecOf 8 (fun i => vget g.x (56 + i) 0) i 0 hi⟩

/-! ## A group that an event reaches -/

/-- Two groups differ in the events that they have heard of, at most. -/
def Told (g k : Group) : Prop :=
  k = { g with evpend := k.evpend }

theorem Told.refl (g : Group) : Told g g := Eq.refl _

theorem Told.trans {g k l : Group} (h : Told g k) (h' : Told k l) : Told g l := by
  unfold Told at *
  rw [h', h]

theorem group?_setEvents {s : State} {k : Nat} {g : Group} (h : s.group? k = some g) (tm : Nat) (b : BitVec 16) :
    ∃ g', (s.setEvents tm b).group? k = some g' ∧ Told g g' := by
  have hid : ∀ x : Group, (if x.team == tm && x.core.isSome then { x with evpend := x.evpend ||| b } else x).id = x.id :=
    fun x => by split <;> rfl
  refine ⟨if g.team == tm && g.core.isSome then { g with evpend := g.evpend ||| b } else g, ?_, ?_⟩
  · unfold State.group? at h ⊢
    unfold State.setEvents
    rw [List.find?_map]
    simp only [Function.comp_def, hid, h, Option.map_some]
  · split <;> rfl

theorem group?_ringed (s : State) (e : LogEvent) (k : Nat) : (s.ringed e).group? k = s.group? k := by
  refine State.group?_congr ?_ k
  unfold State.ringed
  split <;> rfl

theorem group?_raise (s : State) (m k : Nat) : (s.raise m).group? k = s.group? k := by
  refine State.group?_congr ?_ k
  unfold State.raise
  split <;> rfl

theorem group?_log {s : State} {k : Nat} {g : Group} (h : s.group? k = some g) (e : LogEvent) :
    ∃ g', (s.log e).group? k = some g' ∧ Told g g' := by
  have hr : ((s.ringed e).raise s.owner).group? k = some g := by rw [group?_raise, group?_ringed, h]
  rw [State.log_eq]
  unfold State.notified
  split
  · exact group?_setEvents hr _ _
  · exact ⟨g, hr, Told.refl g⟩

theorem group?_readLines {s : State} {k : Nat} {g : Group} (h : s.group? k = some g) (r : Group) (vas : List Word64) :
    ∃ g', (s.readLines r vas).group? k = some g' ∧ Told g g' := by
  unfold State.readLines
  induction vas generalizing s g with
  | nil => exact ⟨g, h, Told.refl g⟩
  | cons va vas ih =>
    rw [List.foldl_cons]
    dsimp only
    split
    · obtain ⟨g1, h1, ht1⟩ := group?_log h
        { die := dieOf (r.core.getD 0), kind := 1, part := (s.accessor r).part, gid := r.gid16,
          unit := dieOf (r.core.getD 0) * 4096 + r.core.getD 0 % 68,
          aux := (lineParity (s.fetchLine (s.accessor r) va).bits ^^^
            (s.fetchLine (s.accessor r) va).bits.extractLsb' 480 16).toNat + (r.slot / 32) * 2 ^ 16,
          data := bytesOf 8 (unitHome (s.fetchLine (s.accessor r) va).pa).2.2, team := some r.team }
      obtain ⟨g2, h2, ht2⟩ := ih h1
      exact ⟨g2, h2, ht1.trans ht2⟩
    · exact ih h

/-! ## Where a fault goes -/

/-- A halt leaves the group where it is (R401). -/
theorem group?_halt {s : State} {g g0 : Group} (h : s.group? g.id = some g0) (why : HaltReason) (r : CauseRec) :
    ∃ g', (s.halt g why r).group? g.id = some g' ∧ g'.halted = some why ∧ g'.pc = g.pc ∧ g'.mode = g.mode := by
  have hset := State.group?_setGroup_of_id (g := { g with halted := some why, wait := none }) h rfl
  obtain ⟨g', hg', ht⟩ := group?_log hset
    { die := dieOf (g.core.getD 0), kind := 4, part := (s.accessor g).part, gid := g.gid16,
      unit := dieOf (g.core.getD 0) * 4096 + g.core.getD 0 % 68, aux := why.code, data := r.bytes, team := some g.team }
  refine ⟨g', hg', ?_, ?_, ?_⟩ <;> rw [ht]

theorem ptvec_ok {s : State} {g : Group} (h0 : s.ptvec g ≠ 0) (h : s.handlerOk g (s.ptvec g) = true) :
    (s.ptvec g = 0 || (s.ptvec g).toNat % 64 ≠ 0) = false := by
  simp only [State.handlerOk, Bool.and_eq_true, beq_iff_eq] at h
  exact Bool.or_eq_false_iff.mpr ⟨decide_eq_false h0, by simpa using h.1⟩

/-- What a user's group hears of as its handler's line is read. -/
def State.onEntry (s : State) (g : Group) : Group :=
  if (s.fetchLine (s.accessor { g with mode := .handler }) (s.ptvec g)).mismatch then { g with evpend := g.evpend ||| 2 }
  else g

theorem State.told_onEntry (s : State) (g : Group) : Told g (s.onEntry g) := by
  unfold State.onEntry
  split
  · rfl
  · exact Told.refl g

/-- The entry of the partition's handler, where there is one (R404, R405). -/
theorem enterHandler_enters {s : State} {g : Group} (h0 : s.ptvec g ≠ 0) (h : s.handlerOk g (s.ptvec g) = true)
    (ret : Word64) (r : CauseRec) :
    s.enterHandler g ret r = (s.readLines { g with mode := .handler } [s.ptvec g]).setGroup
      ({ s.onEntry g with hset := some (g.shadow ret r) }.enter .handler (s.ptvec g) r) := by
  simp only [State.enterHandler, ptvec_ok h0 h, Bool.false_eq_true, if_false, h, if_true]
  rfl

theorem entered_handler {g k : Group} (h : Told g k) (sh : Option Shadow) (pc : Word64) (r : CauseRec) :
    Claims.entered g (({ k with hset := sh } : Group).enter .handler pc r) .handler pc r := by
  rw [h]
  exact entered_enter rfl rfl rfl rfl rfl rfl rfl rfl rfl

/-- No handler: a halt (R405). -/
theorem enterHandler_halts {s : State} {g g0 : Group} (hg : s.group? g.id = some g0)
    (h : s.ptvec g = 0 ∨ s.handlerOk g (s.ptvec g) = false) (ret : Word64) (r : CauseRec) :
    ∃ g', (s.enterHandler g ret r).group? g.id = some g' ∧ g'.halted = some .nohandler ∧ g'.pc = g.pc ∧ g'.mode = g.mode := by
  by_cases hz : (s.ptvec g = 0 || (s.ptvec g).toNat % 64 ≠ 0) = true
  · have he : s.enterHandler g ret r = s.halt g .nohandler r := by
      simp only [State.enterHandler, hz, if_true]
    rw [he]
    exact group?_halt hg _ _
  · have hok : s.handlerOk g (s.ptvec g) = false := by
      rcases h with h | h
      · simp [h] at hz
      · exact h
    have he : s.enterHandler g ret r =
        (s.readLines { g with mode := .handler } [s.ptvec g]).halt (s.onEntry g) .nohandler r := by
      simp only [State.enterHandler, Bool.eq_false_of_not_eq_true hz, Bool.false_eq_true, if_false, hok]
      rfl
    obtain ⟨g1, hg1, -⟩ := group?_readLines hg { g with mode := .handler } [s.ptvec g]
    have ht := s.told_onEntry g
    have hid : (s.onEntry g).id = g.id := by rw [ht]
    obtain ⟨g', hg', hhalt, hpc, hmode⟩ := group?_halt (g := s.onEntry g) (by rw [hid]; exact hg1) .nohandler r
    rw [he]
    refine ⟨g', by rw [← hid]; exact hg', hhalt, ?_, ?_⟩
    · rw [hpc, ht]
    · rw [hmode, ht]

/-- The entry of the supervisor (R404). -/
theorem group?_enterSupervisor {s : State} {g g0 : Group} (hg : s.group? g.id = some g0) (ret : Word64) (r : CauseRec) :
    ∃ g' sh, (s.enterSupervisor g ret r).group? g.id = some g' ∧
      Claims.entered g g' .supervisor (s.core (g.core.getD 0)).svec r ∧ g'.sset = some sh ∧ g'.hset = g.hset ∧
      Claims.shadows g sh ret r := by
  have hent := entered_enter (g := g) (k := { g with sset := some (g.shadow ret r) }) (m := .supervisor)
    (pc := (s.core (g.core.getD 0)).svec) (r := r) rfl rfl rfl rfl rfl rfl rfl rfl rfl
  refine ⟨{ { g with sset := some (g.shadow ret r) }.enter .supervisor (s.core (g.core.getD 0)).svec r with
      firmware := if r.x56.toNat % 2 ^ 8 = Cause.code .misalign then some .start else none }, g.shadow ret r, ?_, hent, rfl,
    rfl, shadows_shadow ..⟩
  refine State.group?_setGroup_of_id hg ?_
  rfl

/-- Settles O22. -/
theorem takesFaults : Obligations.TakesFaults := by
  unfold Obligations.TakesFaults
  intro s g t r hg hr
  rw [← causeRec_eq_record] at hr
  have htake : s.take g t = s.takeRec g t.cause g.pc r := by rw [hr]; rfl
  rw [htake]
  refine ⟨fun hm hc h0 hok => ?_, fun hm hc => ?_, fun hm hc hno => ?_, fun hm hc => ?_, fun hm => ?_⟩
  · have he : s.takeRec g t.cause g.pc r = s.enterHandler g g.pc r := by simp only [State.takeRec, hm, hc]
    obtain ⟨g1, hg1, -⟩ := group?_readLines hg { g with mode := .handler } [s.ptvec g]
    have ht := s.told_onEntry g
    have hid : (s.onEntry g).id = g.id := by rw [ht]
    rw [he, enterHandler_enters h0 hok]
    refine ⟨{ s.onEntry g with hset := some (g.shadow g.pc r) }.enter .handler (s.ptvec g) r, g.shadow g.pc r, ?_,
      entered_handler ht _ _ _, rfl, ?_, shadows_shadow ..⟩
    · refine State.group?_setGroup_of_id hg1 ?_
      exact hid
    · show (s.onEntry g).sset = g.sset
      rw [ht]
  · have he : s.takeRec g t.cause g.pc r = s.enterSupervisor g g.pc r := by
      cases hm' : g.mode with
      | supervisor => exact absurd hm' hm
      | user => simp only [State.takeRec, hm', hc]
      | handler => simp only [State.takeRec, hm', hc]
    rw [he]
    exact group?_enterSupervisor hg g.pc r
  · have he : s.takeRec g t.cause g.pc r = s.enterHandler g g.pc r := by simp only [State.takeRec, hm, hc]
    rw [he]
    exact enterHandler_halts hg hno _ _
  · have he : s.takeRec g t.cause g.pc r = s.halt g .dblfault r := by simp only [State.takeRec, hm, hc]
    rw [he]
    exact group?_halt hg _ _
  · have he : s.takeRec g t.cause g.pc r = s.halt g .supfault r := by simp only [State.takeRec, hm]
    rw [he]
    exact group?_halt hg _ _

end Sys2Proof.Machine

end


section
/-! # O23: `TRAP` and `BKPT` (R230, R401 to R404, R428, R434) -/

namespace Sys2Proof.Machine

/-! ## What reading a line depends on -/

/-- What a read of code looks at is as before: memory, poison, partitions, dies, teams, launches, the links to the peers, and
what the cores' TLBs hold. -/
structure SameReads (s t : State) : Prop where
  mem : t.mem = s.mem
  poison : t.poison = s.poison
  parts : t.parts = s.parts
  dies : t.dies = s.dies
  teams : t.teams = s.teams
  launches : t.launches = s.launches
  peerUp : t.peerUp = s.peerUp
  tlb : ∀ c, (t.core c).tlb = (s.core c).tlb

theorem walk_congr {s t : State} (hm : t.mem = s.mem) (hp : t.parts = s.parts) (part : Nat) (va : Word64) :
    t.walk part va = s.walk part va := by
  cases s
  cases t
  cases hm
  cases hp
  rfl

theorem SameReads.leaf {s t : State} (h : SameReads s t) (core : Option Nat) (part : Nat) (va : Word64) :
    t.leaf core part va = s.leaf core part va := by
  unfold State.leaf
  rw [walk_congr h.mem h.parts]
  cases core with
  | none => rfl
  | some c =>
    have hcore : t.coreTlb c part va = s.coreTlb c part va := by
      unfold State.coreTlb
      rw [h.tlb]
    have hdie : t.dieTlb c part va = s.dieTlb c part va := by
      unfold State.dieTlb State.die
      rw [h.dies]
    simp only [hcore, hdie]

theorem cohortHolds_congr {s t : State} (ht : t.teams = s.teams) (hl : t.launches = s.launches) (u : Team) (core off : Nat) :
    t.cohortHolds u core off = s.cohortHolds u core off := by
  cases s
  cases t
  cases ht
  cases hl
  rfl

theorem paMapped_congr {s t : State} (hd : t.peerUp = s.peerUp) (pa : Nat) : t.paMapped pa = s.paMapped pa := by
  cases s
  cases t
  cases hd
  rfl

theorem SameReads.locOf {s t : State} (h : SameReads s t) (a : Accessor) (use : Use) (va : Word64) :
    t.locOf a use va = s.locOf a use va := by
  have hplace : t.place a use va = s.place a use va := by
    unfold State.place State.translate
    simp only [h.leaf, cohortHolds_congr h.teams h.launches, paMapped_congr h.peerUp]
  unfold State.locOf
  rw [hplace]

theorem SameReads.fetchLine {s t : State} (h : SameReads s t) (a : Accessor) (va : Word64) :
    t.fetchLine a va = s.fetchLine a va := by
  have hread (loc n : Nat) : t.readNat loc n = s.readNat loc n := by
    unfold State.readNat
    rw [h.mem]
  have hpoison (loc n : Nat) : t.poisonIn loc n = s.poisonIn loc n := by
    unfold State.poisonIn
    rw [h.poison]
  unfold State.fetchLine
  simp only [h.locOf, hread, hpoison]

theorem SameReads.codeLine {s t : State} (h : SameReads s t) (a : Accessor) (va : Word64) :
    t.codeLine a va = s.codeLine a va := by
  unfold State.codeLine
  rw [h.fetchLine]

theorem SameReads.accessor {s t : State} (h : SameReads s t) (g : Group) : t.accessor g = s.accessor g := by
  obtain ⟨-, -, -, -, ht, hl, -, -⟩ := h
  cases s
  cases t
  cases ht
  cases hl
  rfl

theorem SameReads.ptvec {s t : State} (h : SameReads s t) (g : Group) : t.ptvec g = s.ptvec g := by
  unfold State.ptvec State.part
  rw [h.accessor, h.parts]

theorem SameReads.handlerOk {s t : State} (h : SameReads s t) (g : Group) (pc : Word64) :
    t.handlerOk g pc = s.handlerOk g pc := by
  unfold State.handlerOk
  rw [h.accessor, h.codeLine]

theorem sameReads_countIssue (s : State) (c : Nat) : SameReads s (s.countIssue c) := by
  refine ⟨rfl, rfl, rfl, rfl, rfl, rfl, rfl, fun k => ?_⟩
  unfold State.countIssue State.addEvent State.touch
  refine (State.core_modCore_keep (fun c => c.tlb) _ _ _ (fun c => by split <;> rfl) k).trans ?_
  refine State.core_modCore_keep (fun c => c.tlb) _ _ _ (fun c => ?_) k
  rfl

/-! ## `TRAP` -/

/-- The group as a trap enters its handler, with nothing outstanding. -/
def Group.trapping (g : Group) (h : Hdr) (ord : Option Nat) : Group :=
  { g.age.countStep h ord with wait := none, sampled := false, pass := .no, prog := 0 }

theorem Group.trapping_spec (g : Group) (h : Hdr) (ord : Option Nat) :
    ∃ ls st, g.trapping h ord =
      { g.age with lastsp := ls, steps := st, wait := none, sampled := false, pass := .no, prog := 0 } := by
  unfold Group.trapping
  rw [Group.countStep_keep]
  exact ⟨_, _, rfl⟩

theorem Group.deliverPend_nil {g : Group} (h : g.pend = []) : g.deliverPend = g := by
  unfold Group.deliverPend
  rw [h, List.foldl_nil]
  cases g
  cases h
  rfl

theorem trapBody_eq {s : State} {g : Group} {h : Hdr} (c : Cause) (code : BitVec 32) (hsw : h.sw = true → g.pend = []) :
    trapBody h c code s g = .ok
      { s := (s.countIssue (g.core.getD 0)).takeRec (g.trapping h (if h.st then s.ordinal g g.pc else none)) c
          (nextSlot g.pc) (s.causeRec g { cause := c, detail := code }),
        g := g, final := true } := by
  have hpend (ord : Option Nat) : (g.age.countStep h ord).pend = g.pend := by rw [Group.countStep_pend]; rfl
  unfold trapBody
  cases hs : h.sw with
  | false => rfl
  | true =>
    have hnil := hsw hs
    have hret : g.allReturned = true := by simp [Group.allReturned, hnil]
    have hlate : g.latePoison = none := by simp [Group.latePoison, hnil]
    simp only [hret, Bool.not_true, Bool.and_false, Bool.false_eq_true, if_false, if_true, hlate]
    rw [Group.deliverPend_nil ((hpend _).trans hnil)]
    rfl

/-- A trap in user mode whose handler can be entered. -/
theorem trap_enters {s : State} {g : Group} {h : Hdr} {i : Instr} {c : Cause} {code : BitVec 32}
    (hx : exec i s = .next (s.conclude g h (trapBody h c code s g))) (hg : s.group? s.cur = some g)
    (hm : g.mode = .user) (hc : c.isS = false) (hsw : h.sw = true → g.pend = []) (h0 : s.ptvec g ≠ 0)
    (hok : s.handlerOk g (s.ptvec g) = true) (hpar : (s.fetchLine (s.accessor g) (s.ptvec g)).mismatch = false) :
    ∃ t g' sh, exec i s = .next t ∧ t.group? g.id = some g' ∧
      Claims.entered g g' .handler (s.ptvec g) (Claims.record s g { cause := c, detail := code }) ∧
      g'.hset = some sh ∧ sh.ret = nextSlot g.pc ∧ sh.mode = .user ∧ sh.exec = g.exec ∧ sh.helper = g.helper ∧
      (∀ k, k < 8 → vget sh.x k 0 = vget g.x (56 + k) 0) ∧ t.mem = s.mem := by
  rw [trapBody_eq c code hsw] at hx
  rw [← causeRec_eq_record]
  obtain ⟨ls, st, hG⟩ := g.trapping_spec h (if h.st then s.ordinal g g.pc else none)
  generalize g.trapping h (if h.st then s.ordinal g g.pc else none) = G at hx hG
  generalize s.causeRec g { cause := c, detail := code } = r at hx ⊢
  have hgid : (s.countIssue (g.core.getD 0)).group? g.id = some g := by
    rw [State.group?_id hg]
    exact hg
  have hsame := sameReads_countIssue s (g.core.getD 0)
  generalize s.countIssue (g.core.getD 0) = u at hx hgid hsame
  have hacc : s.accessor { G with mode := .handler } = s.accessor g := by
    rw [hG]
    unfold State.accessor
    dsimp only
    rw [hm]
    rfl
  have hvec : u.ptvec G = s.ptvec g := by rw [hsame.ptvec, hG]; rfl
  have hokG : u.handlerOk G (u.ptvec G) = true := by rw [hvec, hsame.handlerOk, hG]; exact hok
  have hmis : (u.fetchLine (u.accessor { G with mode := .handler }) (u.ptvec G)).mismatch = false := by
    rw [hvec, hsame.fetchLine, hsame.accessor, hacc]
    exact hpar
  have htake : u.takeRec G c (nextSlot g.pc) r = u.enterHandler G (nextSlot g.pc) r := by
    have hGm : G.mode = .user := by rw [hG]; exact hm
    simp only [State.takeRec, hGm, hc]
  have hread : u.readLines { G with mode := .handler } [u.ptvec G] = u := by
    simp only [State.readLines, List.foldl_cons, List.foldl_nil, hmis, Bool.false_eq_true, if_false]
  have hon : u.onEntry G = G := by rw [State.onEntry, hmis, if_neg Bool.false_ne_true]
  have hent := enterHandler_enters (s := u) (g := G) (by rw [hvec]; exact h0) hokG (nextSlot g.pc) r
  rw [hread, hon, hvec] at hent
  refine ⟨u.setGroup ({ G with hset := some (G.shadow (nextSlot g.pc) r) }.enter .handler (s.ptvec g) r),
    { G with hset := some (G.shadow (nextSlot g.pc) r) }.enter .handler (s.ptvec g) r, G.shadow (nextSlot g.pc) r, ?_, ?_, ?_,
    rfl, rfl, ?_, ?_, ?_, ?_, hsame.mem⟩
  · rw [hx, ← hent, ← htake]
    rfl
  · refine State.group?_setGroup_of_id hgid ?_
    show G.id = g.id
    rw [hG]
    rfl
  · rw [hG]
    exact entered_enter rfl rfl rfl rfl rfl rfl rfl rfl rfl
  · rw [hG]
    exact hm
  · rw [hG]
    rfl
  · rw [hG]
    rfl
  · intro k hk
    rw [hG]
    exact vget_vecOf 8 (fun i => vget g.x (56 + i) 0) k 0 hk

/-! ## `BKPT` under armed breakpoints -/

theorem State.part_modPart (s : State) {p : Nat} (hp : p < 8) (f : Partition → Partition) (k : Nat) :
    (s.modPart p f).part k = if k = p then f (s.part p) else s.part k :=
  vget_vmod s.parts p Partition.reset f hp k

theorem hit_halts (s : State) {p : Nat} (hp : p < 8) (r : HitRec) :
    ((s.hit p r).part p).halted = true ∧
      ((s.part p).hits.length < 16 → ((s.hit p r).part p).hits = (s.part p).hits ++ [r]) := by
  unfold State.hit
  rw [State.part_modPart s hp, if_pos rfl]
  exact ⟨rfl, fun h => if_pos h⟩

theorem bitsN_kindField {n : Nat} (top : BitVec n) (kind : BitVec 8) (wr rd : BitVec 1) (num : BitVec 5) (addr : Word64) :
    bitsN (top ++ kind ++ 0#1 ++ wr ++ rd ++ num ++ 0#8 ++ addr) 87 80 = kind.toNat := by
  unfold bitsN
  rw [← BitVec.extractLsb'_toNat]
  refine congrArg BitVec.toNat (BitVec.eq_of_getElem_eq fun i hi => ?_)
  have e1 : ¬ 80 + i < 64 := by omega
  have e2 : ¬ 80 + i - 64 < 8 := by omega
  have e3 : ¬ 80 + i - 64 - 8 < 5 := by omega
  have e4 : ¬ 80 + i - 64 - 8 - 5 < 1 := by omega
  have e5 : ¬ 80 + i - 64 - 8 - 5 - 1 < 1 := by omega
  have e6 : ¬ 80 + i - 64 - 8 - 5 - 1 - 1 < 1 := by omega
  have e7 : 80 + i - 64 - 8 - 5 - 1 - 1 - 1 = i := by omega
  have e8 : i < 8 := hi
  simp only [BitVec.getElem_extractLsb', BitVec.getLsbD_append, e1, e2, e3, e4, e5, e6, e7, e8, if_false, if_true,
    BitVec.getLsbD_eq_getElem]

/-- The kind of a hit record (R434). -/
theorem hitRec_kind (s : State) (g : Group) (kind : Nat) (spord : Word32) (steps : BitVec 8) (rd wr : Bool) (num : Nat)
    (addr : Word64) (hk : kind < 256) : bitsN (s.hitRec g kind spord steps rd wr num addr) 87 80 = kind := by
  unfold State.hitRec
  refine (bitsN_kindField _ _ _ _ _ _).trans ?_
  rw [BitVec.toNat_ofNat]
  exact Nat.mod_eq_of_lt hk

theorem bkptBody_unarmed {s : State} {g : Group} {h : Hdr} {code : BitVec 32}
    (ha : (s.part (s.accessor g).part).arm = false) : bkptBody h code s g = trapBody h .bkpt code s g := by
  simp only [bkptBody, ha, Bool.false_eq_true, if_false]

/-- Settles O23. -/
theorem trapsEnter : Obligations.TrapsEnter := by
  unfold Obligations.TrapsEnter
  refine ⟨?_, ?_⟩
  · intro s g h i c code r hi hw hg hm hsw h0 hok hpar hr
    subst hr
    rcases hi with ⟨rfl, rfl⟩ | ⟨rfl, rfl, ha⟩
    · exact trap_enters (issue_eq (u := false) hg hw (fun h => Bool.noConfusion h)) hg hm rfl hsw h0 hok hpar
    · refine trap_enters ?_ hg hm rfl hsw h0 hok hpar
      rw [← bkptBody_unarmed ha]
      exact issue_eq (u := false) hg hw (fun h => Bool.noConfusion h)
  · intro s g h code hw hg ha
    refine ⟨fun hp => ?_, fun hp hlt => ?_⟩
    · refine exec_results rfl hw hg ?_
      simp only [bkptBody, ha, if_true, hp]
    · have hgid : s.group? g.id = some g := by rw [State.group?_id hg]; exact hg
      obtain ⟨hhalt, hhits⟩ := hit_halts (s.setGroup { g with stopped := true, pass := .bkpt }) hlt
        (s.hitRec g 2 g.lastsp g.steps false false 0 0)
      refine ⟨(s.setGroup { g with stopped := true, pass := .bkpt }).hit (s.accessor g).part
        (s.hitRec g 2 g.lastsp g.steps false false 0 0), { g with stopped := true, pass := .bkpt }, ?_, ?_, rfl, rfl, hhalt,
        fun hl => ⟨_, hhits hl, hitRec_kind s g 2 _ _ _ _ _ _ (by decide)⟩⟩
      · show issue s _ h false (bkptBody h code) = _
        rw [issue_eq (u := false) hg hw (fun h => Bool.noConfusion h)]
        simp only [bkptBody, ha, if_true, if_neg hp]
        rfl
      · exact State.group?_setGroup_of_id (g := { g with stopped := true, pass := .bkpt }) hgid rfl

end Sys2Proof.Machine

end


section
/-! # O25: system registers, `TLBINV` and `WAITEV` (R7, R408 to R410, R415) -/

namespace Sys2Proof.Machine

theorem writesTo_x64 {k : Nat} (g : Group) (n : BitVec 6) (popped : Bool) (lanes : Mask) (v : BitVec k) :
    g.writesTo (.x n) popped 64 lanes (fun _ => v.setWidth 128) = [.x n (v.setWidth 64)] := by
  simp only [Group.writesTo, xWrites_of_le _ (Nat.le_refl 64)]
  rw [BitVec.setWidth_setWidth_of_le _ (by decide)]

/-- An instruction that waits at its slot. -/
theorem exec_stays {s : State} {g : Group} {i : Instr} {h : Hdr} {body : Body} {w : Wait}
    (hx : exec i s = issue s i h false body) (hw : i.wellFormed = true) (hg : s.group? s.cur = some g)
    (hb : body s g = .ok { s := s, g := g, wait := some w, hold := true }) :
    ∃ cs, exec i s = .next (({ s with cores := cs }).setGroup { g with wait := some w }) := by
  rw [hx, issue_eq (u := false) hg hw (fun h => Bool.noConfusion h), hb]
  cases hn : g.wait.isNone with
  | true => exact ⟨(s.touch (g.core.getD 0)).cores, by simp only [State.conclude, hn]; rfl⟩
  | false => exact ⟨s.cores, by simp only [State.conclude, hn]; rfl⟩

/-- An instruction that completes and then waits. -/
theorem exec_waits {s s' : State} {g g' : Group} {i : Instr} {h : Hdr} {body : Body} {w : Wait}
    (hx : exec i s = issue s i h false body) (hw : i.wellFormed = true) (hg : s.group? s.cur = some g)
    (hb : body s g = .ok { s := s', g := g', wait := some w }) :
    exec i s = .next (s'.finish g' h [] [] none (some w)) := by
  rw [hx, issue_eq (u := false) hg hw (fun h => Bool.noConfusion h), hb, conclude_ok rfl rfl]

theorem holding_free {hold : State → Group → Bool} {b : Body} {s : State} {g : Group} (h : hold s g = false) :
    holding hold b s g = b s g := by
  simp only [holding, h, Bool.false_eq_true, if_false]

theorem mfsr_reads {s : State} {g : Group} {h : Hdr} {n : BitVec 6} {num : BitVec 16} {v : Word64}
    (hw : (Instr.mfsr h (.x n) num).wellFormed = true) (hg : s.group? s.cur = some g) (hm : g.mode = .supervisor)
    (hv : s.sysReg g num = .ok v) (hret : (num = 0x0010 && g.hset.isNone && g.hret.isNone) = false) :
    exec (.mfsr h (.x n) num) s = .next (s.finish g h [] [{ writes := [.x n v] }] none none) := by
  refine exec_results (body := mfsrBody (.x n) num) rfl hw hg ?_
  simp only [mfsrBody, hm, ne_eq, not_true, if_false, bind, Except.bind, hv, hret, Bool.false_eq_true, writesTo_x64, BitVec.setWidth_eq]

theorem mtsr_writes {s s' : State} {g g' : Group} {h : Hdr} {n : BitVec 6} {num : BitVec 16}
    (hw : (Instr.mtsr h (.x n) num).wellFormed = true) (hg : s.group? s.cur = some g)
    (hb : mtsrBody (.x n) num s g = .ok { s := s', g := g' }) :
    exec (.mtsr h (.x n) num) s = .next (s'.finish g' h [] [] none none) :=
  exec_results (body := mtsrBody (.x n) num) rfl hw hg hb

/-- Settles O25. -/
theorem systemInstructions : Obligations.SystemInstructions := by
  unfold Obligations.SystemInstructions
  refine ⟨⟨?_, ?_, ?_, ?_⟩, ?_, ?_⟩
  · rintro s g h n num v hw hg hm (⟨rfl, rfl⟩ | ⟨sh, rfl, hs, rfl⟩ | ⟨rfl, hs, hr⟩ | ⟨sh, rfl, hs, rfl⟩ | ⟨sh, rfl, hs, rfl⟩)
    · exact mfsr_reads hw hg hm rfl rfl
    · exact mfsr_reads hw hg hm (by simp only [State.sysReg, hs]; rfl) (by simp [hs])
    · exact mfsr_reads hw hg hm (by simp only [State.sysReg, hs, hr]; rfl) (by simp [hr])
    · exact mfsr_reads hw hg hm (by simp only [State.sysReg, hs]; rfl) rfl
    · exact mfsr_reads hw hg hm (by simp only [State.sysReg, hs]; rfl) rfl
  · intro s g h n hw hg hm
    exact mtsr_writes hw hg (by simp only [mtsrBody, hm]; rfl)
  · rintro s g g1 h n num hw hg hm (⟨rfl, rfl⟩ | ⟨rfl, rfl⟩ | ⟨rfl, rfl⟩)
    · exact mtsr_writes hw hg (by simp only [mtsrBody, hm]; cases g.hset <;> rfl)
    · exact mtsr_writes hw hg (by simp only [mtsrBody, hm]; rfl)
    · exact mtsr_writes hw hg (by simp only [mtsrBody, hm]; rfl)
  · rintro s g h r num sc i (rfl | rfl | rfl) hw hg hm hheld
    · exact exec_faults (body := mfsrBody r num) rfl hw hg (if_pos hm) rfl
    · exact exec_faults (body := mtsrBody r num) rfl hw hg (if_pos hm) rfl
    · refine exec_faults (body := ordered (tlbinvBody h sc r)) rfl hw hg ?_ rfl
      rw [ordered, holding_free hheld]
      exact if_pos hm
  · intro s g h sc n hw hg hm hheld
    have hx := exec_waits (body := ordered (tlbinvBody h sc (.x n))) (i := .tlbinv h sc (.x n)) (s' := s) (g' := g)
      (w := .tlbinv sc (g.xVal n) h.sw) rfl hw hg (by rw [ordered, holding_free hheld]; simp only [tlbinvBody, hm]; rfl)
    rw [State.finish_wait] at hx
    refine ⟨_, { g.completed h (if h.st then s.ordinal g g.pc else none) [] [] none s.nextId with
      wait := some (.tlbinv sc (g.xVal n) h.sw) }, hx, ?_,
      g.completed_pc h (if h.st then s.ordinal g g.pc else none) [] [] none s.nextId, rfl, rfl⟩
    refine State.group?_setGroup_of_id (g0 := g) ?_ (g.completed_id h (if h.st then s.ordinal g g.pc else none) [] [] none s.nextId)
    exact (State.group?_id hg).symm ▸ hg
  · intro s g h n mask hw hg
    refine ⟨fun hne g1 hg1 => ?_, fun h0 => ?_⟩
    · subst hg1
      refine exec_results (body := waitevBody (.x n) mask) rfl hw hg ?_
      simp only [waitevBody, hne, if_false]
      rw [writesTo_x64]
    · obtain ⟨cs, hx⟩ := exec_stays (body := waitevBody (.x n) mask) (i := .waitev h (.x n) mask) (w := .barrier) rfl hw hg
        (by simp only [waitevBody, h0, if_true])
      refine ⟨_, { g with wait := some .barrier }, hx, ?_, rfl, rfl, rfl⟩
      refine State.group?_setGroup_of_id (g0 := g) ?_ rfl
      exact (State.group?_id hg).symm ▸ hg

end Sys2Proof.Machine
end


section
/-! # O21: `SPAWN` and `SPWAIT` (R152 to R155, R226, R227) -/

namespace Sys2Proof.Machine

/-! ## Bins -/

theorem findIdx?_eq_indexOf? {α : Type} (p : α → Bool) (l : List α) : indexOf? p l = l.findIdx? p := by
  induction l with
  | nil => rfl
  | cons a l ih =>
    rw [List.findIdx?_cons, ← ih]
    unfold indexOf?
    rw [List.length_cons, List.range_succ_eq_map, List.find?_cons, List.find?_map]
    cases hp : p a
    · simp only [List.getElem?_cons_zero, hp, Bool.false_eq_true, if_false]
      rfl
    · simp only [List.getElem?_cons_zero, hp, if_true]

theorem Core.fire_eq {c : Core} {i : Nat} {b : Bin} (hb : c.bins[i]? = some b) (hf : b.fired = false) (now : Word64) :
    c.fire i now = Claims.fires c i b now := by
  simp only [Core.fire, hb, hf, Bool.false_eq_true, if_false, Claims.fires]

/-- The test of a bin's work that finds the bin of a grid and an entry, with room in an unfired bin. -/
theorem open_eq {q : BinWork → Bool} {launch : Nat} {a : Word64}
    (hs : ∀ l e v items, q (.spawn l e v items) = (l == launch && e == a)) (hc : ∀ t sl tg ls, q (.call t sl tg ls) = false) :
    (fun b : Bin => !b.fired && q b.work && !b.work.full) = Claims.open_ launch a := by
  funext b
  obtain ⟨work, opened, fired, ord, since, raised⟩ := b
  cases work with
  | spawn l e w items => simp only [hs, Claims.open_, BinWork.full, Bool.and_assoc, beq_eq_decide, ← decide_not, not_le]
  | call t sl tg ls => simp [hc, Claims.open_]

/-- Work that is one item goes where R152 says. -/
theorem Core.postTo_eq (c : Core) {launch : Nat} {a : Word64} (v : Nat) (x : SpawnItem) (now : Word64) {q : BinWork → Bool}
    {add : BinWork → BinWork} (hs : ∀ l e v items, q (.spawn l e v items) = (l == launch && e == a))
    (hc : ∀ t sl tg ls, q (.call t sl tg ls) = false)
    (hadd : ∀ l e v items, add (.spawn l e v items) = .spawn l e v (items ++ [x])) :
    c.postTo q add (.spawn launch a v [x]) now = Claims.post launch a v now c x := by
  unfold Core.postTo Claims.post
  rw [findIdx?_eq_indexOf?, open_eq hs hc]
  cases hi : c.bins.findIdx? (Claims.open_ launch a) with
  | none => rfl
  | some i =>
    obtain ⟨hlt, hp, -⟩ := List.findIdx?_eq_some_iff_getElem.1 hi
    have hget : c.bins[i]? = some c.bins[i] := List.getElem?_eq_getElem hlt
    dsimp only
    rw [hget]
    revert hp
    generalize c.bins[i] = b
    obtain ⟨work, opened, fired, ord, since, raised⟩ := b
    intro hp
    cases work with
    | call t sl tg ls => simp [Claims.open_] at hp
    | spawn l e w items =>
      simp only [Claims.open_, Bool.and_eq_true, Bool.not_eq_true', decide_eq_true_eq] at hp
      obtain ⟨rfl, ⟨-, -⟩, hlen⟩ := hp
      have hset (b : Bin) : (c.bins.set i b)[i]? = some b := List.getElem?_set_self hlt
      dsimp only
      rw [hadd]
      congr 1
      by_cases hfull : items.length = 63
      · have h64 : (BinWork.spawn l e w (items ++ [x])).full = true := by simp [BinWork.full, hfull]
        rw [if_pos h64, if_pos hfull]
        exact Core.fire_eq (hset _) rfl now
      · have h64 : ¬ (BinWork.spawn l e w (items ++ [x])).full = true := by
          simp only [BinWork.full, List.length_append, List.length_singleton, decide_eq_true_eq]
          omega
        rw [if_neg h64, if_neg hfull]

/-- An item is posted as R152 says. -/
theorem Core.postItem_eq (c : Core) (launch : Nat) (a : Word64) (v : Nat) (x : SpawnItem) (now : Word64) :
    c.postItem launch a v x now = Claims.post launch a v now c x :=
  c.postTo_eq v x now (fun _ _ _ _ => rfl) (fun _ _ _ _ => rfl) (fun _ _ _ _ => rfl)

/-- The bin that was opened first, of those opened at once the first of the list, fires. -/
theorem Core.fireOldest_eq {c : Core} {j : Nat} {b : Bin} (hb : c.bins[j]? = some b) (hf : b.fired = false)
    (hold : ∀ j' b', c.bins[j']? = some b' → b'.fired = false →
      b.opened.toNat ≤ b'.opened.toNat ∧ (j' < j → b.opened.toNat < b'.opened.toNat)) (now : Word64) :
    c.fireOldest now = Claims.fires c j b now := by
  have hidx : c.oldestBin = some j := by
    unfold Core.oldestBin
    dsimp only
    rw [findIdx?_eq_indexOf?, List.findIdx?_eq_some_iff_getElem]
    obtain ⟨hlt, rfl⟩ := List.getElem?_eq_some_iff.1 hb
    refine ⟨hlt, ?_, fun i hij hp => ?_⟩
    · simp only [hf, Bool.not_false, Bool.true_and, List.all_eq_true, List.mem_filter, decide_eq_true_eq, Bool.not_eq_true']
      rintro x ⟨hx, hxf⟩
      obtain ⟨j', hj', rfl⟩ := List.mem_iff_getElem.1 hx
      exact (hold j' _ (List.getElem?_eq_getElem hj') hxf).1
    · simp only [Bool.and_eq_true, Bool.not_eq_true', List.all_eq_true, List.mem_filter, decide_eq_true_eq] at hp
      obtain ⟨hif, hall⟩ := hp
      have h1 := hall _ ⟨List.getElem_mem hlt, hf⟩
      have h2 := (hold i _ (List.getElem?_eq_getElem (Nat.lt_trans hij hlt)) hif).2 hij
      omega
  unfold Core.fireOldest
  rw [hidx]
  exact Core.fire_eq hb hf now

/-! ## Posting the items of some lanes -/

theorem State.spawnTeam_adds (s : State) (core launch : Nat) :
    ∃ ts n, (s.spawnTeam core launch).1 = { s with teams := s.teams ++ ts, nextId := n } := by
  unfold State.spawnTeam
  split
  · exact ⟨[], s.nextId, by rw [List.append_nil]⟩
  · exact ⟨_, _, rfl⟩

/-- Spawn teams are added at the end of the teams; nothing else changes. -/
theorem State.formSpawn_adds (s : State) (core : Nat) :
    ∃ ts n, s.formSpawn core = { s with teams := s.teams ++ ts, nextId := n } := by
  unfold State.formSpawn
  generalize (s.core core).bins.filterMap _ = l
  induction l generalizing s with
  | nil => exact ⟨[], s.nextId, by rw [List.append_nil]; rfl⟩
  | cons x l ih =>
    obtain ⟨ts, n, h⟩ := s.spawnTeam_adds core x
    obtain ⟨us, m, hu⟩ := ih (s.spawnTeam core x).1
    refine ⟨ts ++ us, m, ?_⟩
    rw [List.foldl_cons, hu, h, List.append_assoc]

theorem State.team?_append {s : State} {k : Nat} {t : Team} (h : s.team? k = some t) (ts : List Team) (n : Nat) :
    State.team? { s with teams := s.teams ++ ts, nextId := n } k = some t := by
  unfold State.team? at h ⊢
  rw [List.find?_append, h]
  rfl

/-- A team found by its number, after one number's team has been changed. -/
theorem State.team?_modTeam (s : State) (i : Nat) {f : Team → Team} (hf : ∀ t, (f t).id = t.id) (k : Nat) :
    (s.modTeam i f).team? k = (s.team? k).map (fun t => if k = i then f t else t) := by
  unfold State.team? State.modTeam
  dsimp only
  rw [List.find?_map]
  have hp : ((fun t : Team => t.id == k) ∘ fun t : Team => if (t.id == i) = true then f t else t) = fun t : Team => t.id == k := by
    funext t
    show ((if (t.id == i) = true then f t else t).id == k) = (t.id == k)
    split
    · rw [hf]
    · rfl
  rw [hp]
  cases hfind : s.teams.find? (fun t => t.id == k) with
  | none => rfl
  | some t =>
    have hk : t.id = k := by simpa using List.find?_some hfind
    simp only [Option.map_some, hk, beq_iff_eq]

/-- What posting the items of some lanes leaves: the counts of the teams that the items charge have risen, the lanes are
marked done. -/
structure Posted (s : State) (g : Group) (n : BitVec 6) (lanes : List Nat) (s1 : State) (g1 : Group) : Prop where
  groups : s1.groups = s.groups
  mem : s1.mem = s.mem
  time : s1.time = s.time
  group : g1 = { g with prog := g1.prog }
  prog : ∀ l, g1.prog.getLsbD l = (g.prog.getLsbD l || decide (l ∈ lanes))
  teams : ∀ k tm, s.team? k = some tm → ∃ tm', s1.team? k = some tm' ∧
    tm'.spawned = tm.spawned + BitVec.ofNat 32 (lanes.countP (fun i => decide ((Claims.itemOf g n i).charge = k)))

theorem itemOf_eq (g : Group) (n : BitVec 6) (i : Nat) : g.itemOf n i = Claims.itemOf g n i := rfl

theorem itemOf_congr {g g1 : Group} (h : g1 = { g with prog := g1.prog }) (n : BitVec 6) (i : Nat) :
    Claims.itemOf g1 n i = Claims.itemOf g n i := by
  rw [h]
  rfl

theorem getLsbD_single {i : Nat} (hi : i < 64) (l : Nat) : (single i).getLsbD l = decide (l = i) := by
  simp only [single, BitVec.getLsbD_shiftLeft, BitVec.getLsbD_one]
  by_cases h : l = i
  · subst h
    simp [hi]
  · simp only [h, decide_false, Bool.and_eq_false_iff, Bool.not_eq_false', decide_eq_true_eq, decide_eq_false_iff_not]
    omega

/-- One item is posted, and the spawn counter of its team rises. -/
def State.postOne (s : State) (core : Nat) (k : Core) (x : SpawnItem) : State :=
  ((s.modCore core (fun _ => k)).modTeam x.charge (fun t => { t with spawned := t.spawned + 1 })).formSpawn core

theorem postOne_posted (s : State) (g : Group) (n : BitVec 6) {core : Nat} (hc : core < 272) (k : Core) {i : Nat} (hi : i < 64) :
    Posted s g n [i] (s.postOne core k (Claims.itemOf g n i)) { g with prog := g.prog ||| single i } ∧
      (s.postOne core k (Claims.itemOf g n i)).core core = k := by
  obtain ⟨ts, m, hadd⟩ := ((s.modCore core (fun _ => k)).modTeam (Claims.itemOf g n i).charge
    (fun t => { t with spawned := t.spawned + 1 })).formSpawn_adds core
  have hone : s.postOne core k (Claims.itemOf g n i) = _ := hadd
  rw [hone]
  refine ⟨⟨rfl, rfl, rfl, rfl, fun l => ?_, fun j tm htm => ?_⟩, ?_⟩
  · rw [BitVec.getLsbD_or, getLsbD_single hi]
    simp
  · have hmod := (s.modCore core (fun _ => k)).team?_modTeam (Claims.itemOf g n i).charge
      (f := fun t => { t with spawned := t.spawned + 1 }) (fun _ => rfl) j
    have hteam : (s.modCore core (fun _ => k)).team? j = some tm := htm
    rw [hteam, Option.map_some] at hmod
    refine ⟨_, State.team?_append hmod ts m, ?_⟩
    by_cases hj : j = (Claims.itemOf g n i).charge
    · simp [hj]
    · simp [hj, Ne.symm hj]
  · show (s.modCore core (fun _ => k)).core core = k
    rw [State.core_modCore _ hc, if_pos rfl]

theorem Posted.nil (s : State) (g : Group) (n : BitVec 6) : Posted s g n [] s g :=
  ⟨rfl, rfl, rfl, rfl, fun _ => by simp, fun _ tm htm => ⟨tm, htm, by simp⟩⟩

theorem Posted.cons {s s1 s2 : State} {g g1 g2 : Group} {n : BitVec 6} {i : Nat} {lanes : List Nat}
    (h : Posted s g n [i] s1 g1) (k : Posted s1 g1 n lanes s2 g2) : Posted s g n (i :: lanes) s2 g2 := by
  refine ⟨k.groups.trans h.groups, k.mem.trans h.mem, k.time.trans h.time, ?_, fun l => ?_, fun j tm htm => ?_⟩
  · rw [k.group, h.group]
  · rw [k.prog, h.prog]
    simp [Bool.or_assoc]
  · obtain ⟨t1, ht1, hs1⟩ := h.teams j tm htm
    obtain ⟨t2, ht2, hs2⟩ := k.teams j t1 ht1
    refine ⟨t2, ht2, ?_⟩
    simp only [itemOf_congr h.group] at hs2
    rw [hs2, hs1, BitVec.add_assoc, ← BitVec.ofNat_add, ← List.countP_append]
    rfl

/-- The lanes of a list whose items find a place are posted, and posting goes on with the rest. -/
theorem State.postLanes_append {s : State} {g : Group} {core launch : Nat} {a : Word64} {v : Nat} {n : BitVec 6}
    (hc : core < 272) {lanes : List Nat} (hl : ∀ i ∈ lanes, i < 64) {k : Core}
    (hk : lanes.foldlM (fun k i => Claims.post launch a v s.time k (Claims.itemOf g n i)) (s.core core) = some k) :
    ∃ s1 g1, Posted s g n lanes s1 g1 ∧ s1.core core = k ∧
      ∀ rest, s.postLanes g core launch a v n (lanes ++ rest) = s1.postLanes g1 core launch a v n rest := by
  induction lanes generalizing s g with
  | nil =>
    cases hk
    exact ⟨s, g, Posted.nil s g n, rfl, fun _ => rfl⟩
  | cons i lanes ih =>
    rw [List.foldlM_cons] at hk
    obtain ⟨k1, hpost, hk⟩ := Option.bind_eq_some_iff.1 hk
    obtain ⟨hone, hcore⟩ := postOne_posted s g n hc k1 (hl i List.mem_cons_self)
    obtain ⟨s1, g1, hp, hc1, hrest⟩ := ih (s := s.postOne core k1 (Claims.itemOf g n i))
      (g := { g with prog := g.prog ||| single i }) (fun j hj => hl j (List.mem_cons_of_mem _ hj)) (by
        rw [hcore, hone.time]
        exact hk)
    refine ⟨s1, g1, hone.cons hp, hc1, fun rest => ?_⟩
    rw [← hrest rest]
    show s.postLanes g core launch a v n (i :: (lanes ++ rest)) = _
    rw [State.postLanes]
    dsimp only
    rw [itemOf_eq, Core.postItem_eq, hpost]
    rfl

/-- Posting stops at a lane whose item has no place: the oldest unfired bin fires. -/
theorem State.postLanes_stops {s : State} {g : Group} {core launch : Nat} {a : Word64} {v : Nat} {n : BitVec 6} {i : Nat}
    (rest : List Nat) (h : Claims.post launch a v s.time (s.core core) (Claims.itemOf g n i) = none) :
    s.postLanes g core launch a v n (i :: rest) = ((s.modCore core (Core.fireOldest s.time)).formSpawn core, g, false) := by
  rw [State.postLanes]
  dsimp only
  rw [itemOf_eq, Core.postItem_eq, h]

/-! ## `SPAWN` -/

/-- What `SPAWN` comes to where the items of its lanes have been posted, or some of them. -/
def spawnDone (a : Word64) (r : State × Group × Bool) : Done :=
  if r.2.2 then { s := r.1, g := r.2.1, touches := callTouches a }
  else { s := r.1, g := r.2.1, wait := some .queue, hold := true }

/-- What `SPAWN` posts, of a group with contributors whose target passes the checks of a call. -/
theorem spawnBody_posts {s : State} {g : Group} {h : Hdr} {disp : BitVec 20} {slot : BitVec 3} {n : BitVec 6} {t : Team}
    {rec : BitVec 512} {c : Nat} (hne : g.contributors h ≠ 0) (hprog : g.prog = 0)
    (hcheck : s.checkTarget g (g.target (.direct disp slot)) true = .ok ())
    (hentry : s.entryRec g (g.target (.direct disp slot)) = .ok (recordOf rec)) (hrule : bitsN rec 105 104 = 0)
    (hargs : bitsN rec 115 112 ≤ 4) (hheld : g.holdsRange n.toNat 4 = true) (ht : s.team? g.team = some t)
    (hc : g.core = some c) :
    spawnBody h (.direct disp slot) (.v n) s g =
      .ok (spawnDone (g.target (.direct disp slot))
        (s.postLanes g c t.launch (g.target (.direct disp slot)) (bitsN rec 102 96) n (lanesOf (g.contributors h)))) := by
  have hlanes : g.contributors h &&& ~~~g.prog = g.contributors h := by
    rw [hprog]
    exact BitVec.and_allOnes
  have hbad : ¬ ((recordOf rec).wrule ≠ 0 || 4 < (recordOf rec).nargs) = true := by
    simp only [recordOf, hrule, ne_eq, not_true_eq_false, decide_false, Bool.false_or, decide_eq_true_eq]
    omega
  unfold spawnBody
  rw [if_neg hne]
  unfold spawnBody.post
  simp only [hcheck, hentry, bind, Except.bind, if_neg hbad, vNum, hheld, Bool.not_true, Bool.false_eq_true, if_false, ht, hc,
    Option.getD_some, hlanes]
  show _ = Except.ok (spawnDone _ (s.postLanes g c t.launch _ (recordOf rec).vregs n _))
  generalize s.postLanes g c t.launch (g.target (.direct disp slot)) (recordOf rec).vregs n (lanesOf (g.contributors h)) = r
  obtain ⟨s1, g1, all⟩ := r
  cases all <;> rfl

/-- `SPAWN` runs its body where it has contributors and the lines of its target have their parity. -/
theorem exec_spawn {s : State} {g : Group} {h : Hdr} {disp : BitVec 20} {slot : BitVec 3} {n : BitVec 6} {line rec : BitVec 512}
    (hw : (Instr.spawn h disp slot (.v n)).wellFormed = true) (hg : s.group? s.cur = some g) (hm : g.mode = .user)
    (hne : g.contributors h ≠ 0) (hc : s.checkTarget g (g.target (.direct disp slot)) true = .ok ())
    (hl : Claims.codeAt s g (lineAddr (g.target (.direct disp slot))) line)
    (hrec : Claims.codeAt s g (lineAddr (g.target (.direct disp slot)) - 64) rec) :
    exec (.spawn h disp slot (.v n)) s =
      .next (s.conclude g h (spawnBody h (.direct disp slot) (.v n) s g)) := by
  show issue s _ h true (reading _ _) = _
  rw [issue_eq hg hw (fun _ => hm)]
  congr 2
  refine reading_clean fun va hva => ?_
  rw [if_neg hne, callLines_of_ok hc] at hva
  simp only [List.mem_cons, List.not_mem_nil, or_false] at hva
  rcases hva with rfl | rfl
  · exact mismatch_of_codeAt hl
  · exact mismatch_of_codeAt hrec

theorem spawn_nothing {s : State} {g : Group} {h : Hdr} {disp : BitVec 20} {slot : BitVec 3} {n : BitVec 6}
    (hw : (Instr.spawn h disp slot (.v n)).wellFormed = true) (hg : s.group? s.cur = some g) (hm : g.mode = .user)
    (h0 : g.contributors h = 0) : exec (.spawn h disp slot (.v n)) s = .next (s.finish g h [] [] none none) := by
  show issue s _ h true (reading _ _) = _
  rw [issue_eq hg hw (fun _ => hm), reading_clean (fun va hva => by rw [if_pos h0] at hva; cases hva), spawnBody, if_pos h0,
    conclude_ok rfl rfl]

theorem lanesOf_lt {m : Mask} {i : Nat} (h : i ∈ lanesOf m) : i < 64 :=
  BitVec.lt_of_getLsbD ((mem_lanesOf m i).1 h)

theorem contributors_ne {g : Group} {h : Hdr} (hne : lanesOf (g.contributors h) ≠ []) : g.contributors h ≠ 0 := by
  intro h0
  obtain ⟨i, hi⟩ := List.exists_mem_of_ne_nil _ hne
  have := (mem_lanesOf _ i).1 hi
  rw [h0] at this
  simp at this

/-- A group whose items have not all found a place waits at its slot, the oldest unfired bin fired. -/
theorem conclude_stopped {s s1 : State} {g g1 : Group} {h : Hdr} {c : Nat} {a : Word64} {n : BitVec 6} {pre : List Nat}
    (hg : s.group? s.cur = some g) (hc : c < 272) (hp : Posted s g n pre s1 g1) (hprog : g.prog = 0) {k : Core} {j : Nat}
    {b : Bin} (hk : s1.core c = k) (hb : k.bins[j]? = some b) (hf : b.fired = false)
    (hold : ∀ j' b', k.bins[j']? = some b' → b'.fired = false →
      b.opened.toNat ≤ b'.opened.toNat ∧ (j' < j → b.opened.toNat < b'.opened.toNat)) :
    ∃ u g', s.conclude g h (.ok (spawnDone a ((s1.modCore c (Core.fireOldest s1.time)).formSpawn c, g1, false))) = u ∧
      u.group? g.id = some g' ∧ g'.pc = g.pc ∧ g'.wait = some .queue ∧ (u.core c).bins = (Claims.fires k j b s.time).bins ∧
      u.mem = s.mem ∧ ∀ l, g'.prog.getLsbD l = decide (l ∈ pre) := by
  obtain ⟨ts, m, hadd⟩ := (s1.modCore c (Core.fireOldest s1.time)).formSpawn_adds c
  rw [hadd]
  generalize hs2 : ({ s1.modCore c (Core.fireOldest s1.time) with
    teams := (s1.modCore c (Core.fireOldest s1.time)).teams ++ ts, nextId := m } : State) = s2
  have hgroups : s2.groups = s.groups := by rw [← hs2]; exact hp.groups
  have hmem : s2.mem = s.mem := by rw [← hs2]; exact hp.mem
  have hcore : s2.core c = Claims.fires k j b s.time := by
    rw [← hs2]
    show (s1.modCore c (Core.fireOldest s1.time)).core c = _
    rw [State.core_modCore _ hc, if_pos rfl, hk, Core.fireOldest_eq hb hf hold, hp.time]
  have hid : g1.id = g.id := by rw [hp.group]
  have hfind : s2.group? g.id = some g := by
    rw [State.group?_congr hgroups, State.group?_id hg]
    exact hg
  refine ⟨_, { g1 with wait := some .queue }, rfl, ?_, by rw [hp.group], rfl, ?_, ?_, fun l => ?_⟩
  · refine State.group?_setGroup_of_id (g0 := g) ?_ hid
    split <;> exact hfind
  · show ((if g.wait.isNone then s2.touch (g.core.getD 0) else s2).core c).bins = _
    rw [← hcore]
    split
    · refine State.core_modCore_keep (fun k => k.bins) _ _ _ (fun k => ?_) c
      rfl
    · rfl
  · show (if g.wait.isNone then s2.touch (g.core.getD 0) else s2).mem = s.mem
    split <;> exact hmem
  · show g1.prog.getLsbD l = _
    rw [hp.prog, hprog]
    simp

/-! ## `SPWAIT` -/

theorem spwaitBody_eq {s : State} {g : Group} {n : BitVec 6} {t : Team} (ht : s.team? g.team = some t)
    (hk : ∀ c, g.kind ≠ .spawned c) :
    spwaitBody (.x n) s g = if (g.xVal n).toNat % 2 ^ 32 < t.spawned.toNat
      then .ok { s := s, g := g, wait := some .barrier, hold := true } else .ok { s := s, g := g } := by
  have hteams : g.chargeTeams = [g.team] := by
    unfold Group.chargeTeams
    split
    · next c hc => exact absurd hc (hk c)
    · rfl
  unfold spwaitBody
  simp only [hteams, List.any_cons, List.any_nil, Bool.or_false, ht, decide_eq_true_eq]
  rfl

/-- Settles O21. -/
theorem spawning : Obligations.Spawning := by
  unfold Obligations.Spawning
  refine ⟨fun s g h disp slot n hw hg hm h0 => spawn_nothing hw hg hm h0, ?_, ?_⟩
  · intro s g h disp slot n rec a t c lanes ha hw hg hm hprog hmay hrec hok hrule hargs hheld ht hc hlt hlanes hne
    subst hlanes
    rw [← target_eq_address] at ha
    subst ha
    obtain ⟨hk, hlow, line, hline, htgt⟩ := hmay
    have hcheck := checkTarget_ok hline.1 hk hlow htgt (slot0 := true) fun _ => rfl
    have hcon := contributors_ne hne
    have hexec := exec_spawn hw hg hm hcon hcheck hline hrec
    rw [spawnBody_posts hcon hprog hcheck (entryRec_ok hrec.1 hok) hrule hargs hheld ht hc] at hexec
    refine ⟨fun k hk => ?_, fun pre i post k j b hsplit hk hnone hb hf hold => ?_⟩
    · obtain ⟨s1, g1, hp, hcore, hrest⟩ := State.postLanes_append (s := s) (g := g) hlt (fun i hi => lanesOf_lt hi) hk
      have hall := hrest []
      rw [List.append_nil] at hall
      refine ⟨s1, g1, ?_, hcore, hp.mem, hp.group, fun tm _ htm => ?_⟩
      · rw [hexec, hall]
        exact congrArg _ (conclude_ok rfl rfl)
      · obtain ⟨tm', htm', hsp⟩ := hp.teams tm.id tm htm
        rw [htm', Option.map_some, hsp]
    · have hpre : ∀ i ∈ pre, i < 64 := fun i hi => lanesOf_lt (hsplit ▸ List.mem_append_left _ hi)
      obtain ⟨s1, g1, hp, hcore, hrest⟩ := State.postLanes_append (s := s) (g := g) hlt hpre hk
      have hnone' : Claims.post t.launch (g.target (.direct disp slot)) (bitsN rec 102 96) s1.time (s1.core c)
          (Claims.itemOf g1 n i) = none := by
        rw [hp.time, hcore, itemOf_congr hp.group]
        exact hnone
      rw [hsplit, hrest, State.postLanes_stops post hnone'] at hexec
      obtain ⟨u, g', hu, hrest'⟩ := conclude_stopped (h := h) (a := g.target (.direct disp slot)) hg hlt hp hprog hcore hb hf hold
      exact ⟨u, g', by rw [hexec, hu], hrest'⟩
  · intro s g h n t hw hg ht hk
    have hbody := spwaitBody_eq (n := n) ht hk
    refine ⟨fun hle => exec_results rfl hw hg ?_, fun hlt => ?_⟩
    · rw [hbody, if_neg (Nat.not_lt.2 hle)]
    · rw [if_pos hlt] at hbody
      obtain ⟨cs, hx⟩ := exec_stays rfl hw hg hbody
      refine ⟨_, { g with wait := some .barrier }, hx, ?_, rfl, rfl⟩
      refine State.group?_setGroup_of_id (g0 := g) ?_ rfl
      rw [State.group?_id hg]
      exact hg

end Sys2Proof.Machine

end


section
/-! # O27: loads (R133, R256 to R260, R263)

The layer that the memory instructions share: the lanes that access and their addresses, checks over a list of lanes, the bank
passes of R260 and R424; then `LD`. -/

namespace Sys2Proof.Machine

/-! ## Lanes and addresses -/

theorem Group.ea_eq_addr (g : Group) (a : MemOpd) (lane : Nat) : g.ea a lane = Claims.addr g a lane := by
  unfold Group.ea Claims.addr
  rw [BitVec.ofInt_add, BitVec.ofInt_natCast]
  rfl

theorem Group.accessLanes_eq (g : Group) (h : Hdr) (os : List Opd) : g.accessLanes h os = Claims.lanesThat g h os := by
  unfold Group.accessLanes Claims.lanesThat
  rw [runsOnce_eq_once]

theorem Group.doneLanes_eq (g : Group) (h : Hdr) (os : List Opd) : g.doneLanes h os = Claims.updaters g h os := by
  unfold Group.doneLanes Claims.updaters
  rw [Group.accessLanes_eq]

theorem mem_lanesThat (g : Group) (h : Hdr) (os : List Opd) (i : Nat) :
    i ∈ Claims.lanesThat g h os ↔ Claims.accesses g h os i := by
  unfold Claims.lanesThat Claims.accesses
  split
  · rw [Option.mem_toList]
  · exact mem_lanesOf _ _

theorem mem_updaters (g : Group) (h : Hdr) (os : List Opd) (i : Nat) :
    i ∈ Claims.updaters g h os ↔ Claims.accesses g h os i ∧ g.helper.getLsbD i = false := by
  simp only [Claims.updaters, List.mem_filter, mem_lanesThat, Bool.not_eq_true']

theorem lanesOf_rising (m : Mask) : (lanesOf m).Pairwise (· < ·) := by
  unfold lanesOf allLanes
  exact List.Pairwise.filter _ List.pairwise_lt_range

theorem lanesThat_rising (g : Group) (h : Hdr) (os : List Opd) : (Claims.lanesThat g h os).Pairwise (· < ·) := by
  unfold Claims.lanesThat
  split
  · cases lowest (g.active h)
    · exact List.Pairwise.nil
    · exact List.pairwise_singleton _ _
  · exact lanesOf_rising _

theorem updaters_rising (g : Group) (h : Hdr) (os : List Opd) : (Claims.updaters g h os).Pairwise (· < ·) :=
  List.Pairwise.filter _ (lanesThat_rising g h os)

/-- A lane that accesses is a lane of a group. -/
theorem accesses_lt {g : Group} {h : Hdr} {os : List Opd} {i : Nat} (hi : Claims.accesses g h os i) : i < 64 := by
  unfold Claims.accesses at hi
  split at hi
  · exact lanesOf_lt (List.mem_of_mem_head? hi)
  · exact BitVec.lt_of_getLsbD hi

/-- The lane that an active lane's value is read in accesses. -/
theorem accesses_readLane {g : Group} {h : Hdr} {os : List Opd} {i : Nat} (hi : (g.active h).getLsbD i = true) :
    Claims.accesses g h os (Claims.readLane (Claims.once h os) (g.active h) i) := by
  have hne : g.active h ≠ 0 := (ne_zero_iff_exists_lane _).2 ⟨i, hi⟩
  obtain ⟨k, hk, -⟩ := lowest_spec hne
  unfold Claims.accesses Claims.readLane
  split
  · next ho => rw [hk]; simp [ho]
  · next ho => simpa [ho] using hi

/-- Checks that all pass give their results in order. -/
theorem mapM_ok {α β : Type} {f : α → Except Trap β} {v : α → β} {l : List α} (h : ∀ i ∈ l, f i = .ok (v i)) :
    l.mapM f = .ok (l.map v) := by
  induction l with
  | nil => rfl
  | cons a l ih =>
    rw [List.mapM_cons, h a List.mem_cons_self, ih fun i hi => h i (List.mem_cons_of_mem _ hi)]
    rfl

/-- A destination's writes over some lanes depend on the values in those lanes. -/
theorem Group.writesTo_lanes (g : Group) (d : Opd) (popped : Bool) (w : Nat) {lanes : Mask} (hne : lanes ≠ 0)
    {f f' : Nat → Code} (h : ∀ i, lanes.getLsbD i = true → f i = f' i) :
    g.writesTo d popped w lanes f = g.writesTo d popped w lanes f' := by
  obtain ⟨k, hk, -, hlane, -⟩ := lowest_spec hne
  have hlow : f ((lowest lanes).getD 0) = f' ((lowest lanes).getD 0) := by
    rw [hk]
    exact h k hlane
  have hv (n : BitVec 6) : vWrites n w lanes f = vWrites n w lanes f' := by
    have hval (j : Nat) : (fun i => if lanes.getLsbD i then (f i).extractLsb' (32 * j) 32 else 0) =
        fun i => if lanes.getLsbD i then (f' i).extractLsb' (32 * j) 32 else 0 := by
      funext i
      split
      · next hi => rw [h i hi]
      · rfl
    simp only [vWrites, hval]
  cases d with
  | v n => exact hv n
  | q n => exact hv _
  | x n => simp only [Group.writesTo, hlow]
  | c n => simp only [Group.writesTo, hlow]
  | m n =>
    have hmask : (fun i => lanes.getLsbD i && (f i).getLsbD 0) = fun i => lanes.getLsbD i && (f' i).getLsbD 0 := by
      funext i
      cases hi : lanes.getLsbD i
      · rfl
      · rw [h i hi]
    simp only [Group.writesTo, hmask]
  | s n => rfl
  | t n => rfl

/-! ## Bank passes -/

theorem passes_eq (words : List Nat) :
    passes words = (Finset.range 32).sup fun b => (words.toFinset.filter (fun x => x % 32 = b)).card := by
  have hcard (b : Nat) : ((words.dedup.filter (fun w => w % 32 == b)).length) =
      (words.toFinset.filter (fun x => x % 32 = b)).card := by
    rw [← List.toFinset_card_of_nodup ((List.nodup_dedup words).filter _)]
    congr 1
    ext x
    simp
  have hfold (n : Nat) : (List.range n).foldl (fun m b => max m (words.dedup.filter (fun w => w % 32 == b)).length) 0 =
      (Finset.range n).sup fun b => (words.toFinset.filter (fun x => x % 32 = b)).card := by
    induction n with
    | zero => rfl
    | succ n ih =>
      rw [List.range_succ, List.foldl_append, ih, Finset.range_add_one, Finset.sup_insert, List.foldl_cons, List.foldl_nil, hcard,
        max_comm]
  exact hfold 32

theorem halfWords_eq (core n half : Nat) (loc : Nat → Nat) (lanes : List Nat) :
    (halfWords core n half (lanes.map (fun i => (i, loc i)))).toFinset = Claims.touched core n half loc lanes := by
  ext x
  simp only [halfWords, Claims.touched, List.mem_toFinset, List.mem_flatMap, List.mem_filter, List.mem_map, List.mem_range,
    Finset.mem_biUnion, Finset.mem_filter, Finset.mem_Icc, Bool.and_eq_true, beq_iff_eq]
  constructor
  · rintro ⟨p, ⟨⟨i, hi, rfl⟩, ⟨hh, hs⟩, hc⟩, k, hk, rfl⟩
    exact ⟨i, ⟨hi, hh, hs, hc⟩, by omega, by omega⟩
  · rintro ⟨i, ⟨hi, hh, hs, hc⟩, h1, h2⟩
    exact ⟨_, ⟨⟨i, hi, rfl⟩, ⟨hh, hs⟩, hc⟩, x - loc i / 4, by omega, by omega⟩

/-- The bank passes of an access of some lanes are counted as R260 and R424 say. -/
theorem State.countPasses_eq (s : State) (g : Group) (n : Nat) (loc : Nat → Nat) (lanes : List Nat) :
    s.countPasses g n (lanes.map (fun i => (i, loc i))) = Claims.banked s g n loc lanes := by
  unfold State.countPasses Claims.banked Claims.replays
  simp only [passes_eq, halfWords_eq]

/-! ## The value of a load -/

theorem natOf_lt (bs : List Byte) : natOf bs < 2 ^ (8 * bs.length) := by
  induction bs with
  | nil => simp [natOf]
  | cons b bs ih =>
    have hb := b.isLt
    have hcons : natOf (b :: bs) = b.toNat + 256 * natOf bs := rfl
    rw [hcons, List.length_cons, Nat.mul_succ, pow_add]
    omega

theorem State.readNat_lt (s : State) (loc n : Nat) : s.readNat loc n < 2 ^ (8 * n) := by
  have h := natOf_lt (Memory.readN s.mem loc n)
  rw [Memory.readN, List.length_map, List.length_range] at h
  exact h

theorem loadCode_eq (ty : ITy) (d : Opd) {v : Nat} (hv : v < 2 ^ ty.width) :
    loadCode ty d v = Claims.loaded ty (loadWidth ty d) v := by
  have hpos := ty.width_pos
  have hle : ty.width ≤ loadWidth ty d := Nat.le_max_left _ _
  have hpow : 2 ^ ty.width ≤ 2 ^ loadWidth ty d := Nat.pow_le_pow_right (by omega) hle
  have hhalf : 2 ^ ty.width = 2 * 2 ^ (ty.width - 1) := by
    rw [← Nat.pow_succ']
    congr 1
    omega
  unfold loadCode Claims.loaded
  cases hs : ty.signed with
  | false => rfl
  | true =>
    have hbit : (v / 2 ^ (ty.width - 1) % 2 = 1) ↔ 2 ^ (ty.width - 1) ≤ v := by
      have h2 : v / 2 ^ (ty.width - 1) < 2 := Nat.div_lt_of_lt_mul (by omega)
      rw [Nat.mod_eq_of_lt h2, Nat.le_iff_lt_or_eq]
      constructor
      · intro h
        have := Nat.div_mul_le_self v (2 ^ (ty.width - 1))
        rw [h] at this
        omega
      · intro h
        have : 1 ≤ v / 2 ^ (ty.width - 1) := (Nat.one_le_div_iff (Nat.two_pow_pos _)).2 (by omega)
        omega
    apply BitVec.eq_of_toNat_eq
    rw [if_pos rfl, BitVec.toNat_setWidth, BitVec.toNat_signExtend, BitVec.msb_eq_decide, BitVec.toNat_setWidth,
      BitVec.toNat_ofNat, Nat.mod_eq_of_lt hv, Nat.mod_eq_of_lt (Nat.lt_of_lt_of_le hv hpow)]
    simp only [Bool.true_and, decide_eq_true_eq, hbit]
    split
    · rw [BitVec.toNat_ofNat]
    · rw [BitVec.toNat_ofNat, Nat.add_zero]

/-! ## `LD` -/

/-- A load without a waiting load before it waits on no line. -/
theorem waitsOn_of_none {g : Group} (h : g.waitingLoads = []) (loc id : Nat) : g.waitsOn loc id = false := by
  unfold Group.waitsOn
  rw [List.any_eq_false]
  rintro l hl hw
  obtain ⟨-, hw⟩ := Bool.and_eq_true_iff.1 hw
  cases hload : l.load with
  | none => simp [hload] at hw
  | some i =>
    have hne : i.lanes ≠ [] := by
      rintro h0
      simp [hload, h0] at hw
    have hmem : i ∈ g.waitingLoads := by
      unfold Group.waitingLoads
      refine List.mem_filterMap.2 ⟨l, hl, ?_⟩
      simp [Long.waitingLoad, hload, hne]
    rw [h] at hmem
    cases hmem

/-- A lane whose access lands on a full line, or on main memory, reads it. -/
theorem State.loadLane_lands {s : State} {g : Group} {a : MemOpd} {n lane loc : Nat} (hl : Claims.lands s g .read a n lane loc)
    (hf : isScr loc = true → s.isFull loc = true) (hw : isScr loc = true → g.waitsOn loc s.nextId = false) :
    s.loadLane g (g.ea a lane) n lane = .ok (.val (s.readNat loc n)) ∧ s.loadPoison g (g.ea a lane) n lane = none ∧
      s.helperPoison g (g.ea a lane) n lane = false ∧ s.reaches g .read (g.ea a lane) = true := by
  obtain ⟨hal, hpl, hpo⟩ := hl
  rw [← Group.ea_eq_addr] at hal hpl
  have hmust : s.mustWait g loc = false := by
    unfold State.mustWait
    cases hs : isScr loc
    · rfl
    · simp [hf hs, hw hs]
  refine ⟨?_, ?_, ?_, ?_⟩
  · simp only [State.loadLane, hal, hpl, hmust, ne_eq, not_true_eq_false, if_false, Bool.false_eq_true]
  · simp only [State.loadPoison, hpl, hmust, Bool.false_eq_true, if_false, State.poisonAt, hpo, Option.map_none, ite_self]
  · simp only [State.helperPoison, hpl, hpo, Option.isSome_none, Bool.and_false]
  · simp only [State.reaches, hpl]

/-- Of the finds of some lanes, that of one of them. -/
theorem find_lane {α : Type} (f : Nat → α) {l : List Nat} {i : Nat} (h : i ∈ l) :
    (l.map (fun i => (i, f i))).find? (fun p => p.1 == i) = some (i, f i) := by
  rw [List.find?_map]
  have hp : ((fun p : Nat × α => p.1 == i) ∘ fun i => (i, f i)) = fun j => j == i := rfl
  rw [hp]
  have hfind : l.find? (fun j => j == i) = some i := by
    obtain ⟨j, hj⟩ := Option.isSome_iff_exists.1 ((List.find?_isSome (p := fun j => j == i)).2 ⟨i, h, beq_self_eq_true i⟩)
    rw [hj, beq_iff_eq.1 (List.find?_some (p := fun j => j == i) hj)]
  rw [hfind]
  rfl

/-- What a load does whose every lane reads its bytes at once. -/
theorem ldBody_lands {s : State} {g : Group} {h : Hdr} {ty : ITy} {ord : MemOrd} {d : Opd} {a : MemOpd} {loc : Nat → Nat}
    (hheld : g.checkHeld [(d, ty.width), (a.base, 64)] = .ok ())
    (hl : ∀ i, Claims.accesses g h [d, a.base] i → Claims.lands s g .read a (ty.width / 8) i (loc i) ∧
      (isScr (loc i) = true → s.isFull (loc i) = true) ∧ (isScr (loc i) = true → g.waitsOn (loc i) s.nextId = false))
    (hdiv : 8 * (ty.width / 8) = ty.width) :
    ldBody h ty ord d a s g = .ok
      { s := Claims.banked s g (ty.width / 8) loc (Claims.lanesThat g h [d, a.base]), g := g,
        touches := Claims.accessesOf g a (ty.width / 8) true (fun _ => false) (Claims.lanesThat g h [d, a.base]),
        long := [{ writes := (if g.active h = 0 then [] else g.writesTo d false (loadWidth ty d) (g.active h) (fun lane =>
          Claims.loaded ty (loadWidth ty d) (s.readNat (loc (Claims.readLane (Claims.once h [d, a.base]) (g.active h) lane))
            (ty.width / 8)))), unit := .memory }] } := by
  have hlane (i : Nat) (hi : i ∈ Claims.lanesThat g h [d, a.base]) := by
    obtain ⟨h1, h2, h3⟩ := hl i ((mem_lanesThat ..).1 hi)
    exact State.loadLane_lands h1 h2 h3
  have hfound : (Claims.lanesThat g h [d, a.base]).mapM (fun i =>
      (s.loadLane g (g.ea a i) (ty.width / 8) i).map (fun f => (i, f))) =
      .ok ((Claims.lanesThat g h [d, a.base]).map (fun i => (i, Found.val (s.readNat (loc i) (ty.width / 8))))) :=
    mapM_ok fun i hi => by rw [(hlane i hi).1]; rfl
  have hpoison : (Claims.lanesThat g h [d, a.base]).findSome? (fun i => s.loadPoison g (g.ea a i) (ty.width / 8) i) = none :=
    List.findSome?_eq_none_iff.2 fun i hi => (hlane i hi).2.1
  have hlocs : s.loadLocs g a (Claims.lanesThat g h [d, a.base]) = (Claims.lanesThat g h [d, a.base]).map (fun i => (i, loc i)) := by
    rw [← List.filterMap_eq_map]
    refine List.filterMap_congr fun i hi => ?_
    obtain ⟨⟨-, hpl, -⟩, -, -⟩ := hl i ((mem_lanesThat ..).1 hi)
    rw [Group.ea_eq_addr, hpl]
    rfl
  unfold ldBody
  rw [hheld]
  dsimp only [bind, Except.bind]
  rw [Group.accessLanes_eq, hfound]
  dsimp only
  rw [hpoison, hlocs, State.countPasses_eq]
  have htouch : List.filterMap (fun i => some (⟨g.ea a i, ty.width / 8, s.reaches g .read (g.ea a i), false⟩ : Touch))
      (Claims.lanesThat g h [d, a.base]) =
      Claims.accessesOf g a (ty.width / 8) true (fun _ => false) (Claims.lanesThat g h [d, a.base]) := by
    unfold Claims.accessesOf
    rw [← List.filterMap_eq_map]
    refine List.filterMap_congr fun i hi => ?_
    rw [(hlane i hi).2.2.2, Group.ea_eq_addr]
    rfl
  simp only [List.filterMap_map, Function.comp_def, List.filterMap_none, List.isEmpty_nil, if_true, htouch]
  by_cases hact : g.active h = 0
  · simp only [if_pos hact]
  · simp only [if_neg hact]
    rw [Group.writesTo_lanes g d false (loadWidth ty d) hact (f' := fun lane => Claims.loaded ty (loadWidth ty d)
      (s.readNat (loc (Claims.readLane (Claims.once h [d, a.base]) (g.active h) lane)) (ty.width / 8)))]
    intro i hi
    have hmem := (mem_lanesThat ..).2 (accesses_readLane (os := [d, a.base]) hi)
    have hlow : (if Claims.once h [d, a.base] = true then (lowest (g.active h)).getD 0 else i) =
        Claims.readLane (Claims.once h [d, a.base]) (g.active h) i := rfl
    rw [runsOnce_eq_once, hlow, find_lane _ hmem]
    dsimp only
    rw [(hlane _ hmem).2.2.1, if_neg Bool.false_ne_true, loadCode_eq]
    have h8 := s.readNat_lt (loc (Claims.readLane (Claims.once h [d, a.base]) (g.active h) i)) (ty.width / 8)
    rwa [hdiv] at h8

theorem width_div_bytes (ty : ITy) : 8 * (ty.width / 8) = ty.width := by
  cases ty <;> rfl

theorem looking_ok {lanes : Group → List Nat} {a : MemOpd} {b : Body} {s : State} {g : Group} {d : Done}
    (h : b s g = .ok d) : looking lanes a b s g = .ok d := by
  simp only [looking, h]

/-- An instruction that accesses memory and completes. -/
theorem exec_accesses {s s' : State} {g g' : Group} {i : Instr} {h : Hdr} {body : Body} {short : List RegWrite}
    {long : List LongOut} {ts : List Touch} (hx : exec i s = issue s i h false body) (hw : i.wellFormed = true)
    (hg : s.group? s.cur = some g)
    (hb : body s g = .ok { s := s', g := g', short := short, long := long, touches := ts }) :
    exec i s = .next (s'.finish g' h short long none none ts) := by
  rw [hx, issue_eq (u := false) hg hw (fun h => Bool.noConfusion h), hb, conclude_ok rfl rfl]

/-- Settles O27: no earlier load holds the load back, and then each of its lanes reads its bytes at once. -/
theorem loadsRead : Obligations.LoadsRead := by
  intro s g h ty sc ord d a w loc ws hw hg hfree hwait hheld hl hwd hws
  obtain ⟨hacq, -⟩ := hfree
  have hwaitsOn (i : Nat) (hi : Claims.accesses g h [d, a.base] i) : isScr (loc i) = true → g.waitsOn (loc i) s.nextId = false := by
    rcases hwait with hnone | hfar
    · exact fun _ => waitsOn_of_none hnone _ _
    · exact (hfar i hi).2.2
  have hhold : (s.heldAcq g || (!g.waitingLoads.isEmpty && (g.accessLanes h [d, a.base]).any (fun i =>
      s.strong (s.accessor g) (g.ea a i) || s.strong (s.accessor g) (g.ea a i + BitVec.ofNat 64 (ty.width / 8 - 1))))) = false := by
    rw [hacq, Bool.false_or]
    rcases hwait with hnone | hfar
    · rw [hnone]
      rfl
    · rw [List.any_eq_false.2, Bool.and_false]
      intro i hi
      rw [Group.accessLanes_eq, mem_lanesThat] at hi
      obtain ⟨h1, h2, -⟩ := hfar i hi
      rw [Group.ea_eq_addr, h1, h2]
      exact Bool.false_ne_true
  subst hwd hws
  refine exec_accesses rfl hw hg ((holding_free hhold).trans (looking_ok ?_))
  exact ldBody_lands hheld (fun i hi => ⟨(hl i hi).1, (hl i hi).2, hwaitsOn i hi⟩) (width_div_bytes ty)

end Sys2Proof.Machine

end


section
/-! # O28: stores (R133, R256 to R259, R264, R420) -/

namespace Sys2Proof.Machine

/-- The accesses of memory that some lanes make. -/
def accessesAt (g : Group) (a : MemOpd) (loc : Nat → Nat) (lanes : List Nat) : List Access :=
  lanes.map (fun i => ⟨i, g.ea a i, .mem (loc i)⟩)

@[simp] theorem accessesAt_cons (g : Group) (a : MemOpd) (loc : Nat → Nat) (i : Nat) (lanes : List Nat) :
    accessesAt g a loc (i :: lanes) = ⟨i, g.ea a i, .mem (loc i)⟩ :: accessesAt g a loc lanes := rfl

theorem locsOf_accessesAt (g : Group) (a : MemOpd) (loc : Nat → Nat) (lanes : List Nat) :
    locsOf (accessesAt g a loc lanes) = lanes.map (fun i => (i, loc i)) := by
  unfold locsOf accessesAt
  rw [List.filterMap_map, ← List.filterMap_eq_map]
  rfl

theorem touchesOf_accessesAt (g : Group) (a : MemOpd) (loc : Nat → Nat) (lanes : List Nat) (n : Nat) (rd wr : Bool) :
    touchesOf (accessesAt g a loc lanes) n rd wr = Claims.accessesOf g a n rd (fun _ => wr) lanes := by
  unfold touchesOf accessesAt Claims.accessesOf
  rw [List.map_map]
  refine List.map_congr_left fun i _ => ?_
  rw [← Group.ea_eq_addr]
  rfl

/-- The checks of lanes that all land in memory. -/
theorem checkLanes_lands {s : State} {g : Group} {use : Use} {a : MemOpd} {n : Nat} {loc : Nat → Nat} {lanes : List Nat}
    (h : ∀ i ∈ lanes, (Claims.addr g a i).toNat % n = 0 ∧ s.place (s.accessor g) use (Claims.addr g a i) = .ok (.mem (loc i))) :
    s.checkLanes g use a n lanes = .ok (accessesAt g a loc lanes) := by
  refine mapM_ok fun i hi => ?_
  obtain ⟨hal, hpl⟩ := h i hi
  unfold State.checkLane
  rw [Group.ea_eq_addr, if_neg (not_not_intro hal), hpl]

theorem byteOf_mod (v : Code) {n k : Nat} (h : k < n) : byteOf (v.toNat % 2 ^ (8 * n)) k = v.extractLsb' (8 * k) 8 := by
  apply BitVec.eq_of_getLsbD_eq
  intro i hi
  have hlt : 8 * k + i < 8 * n := by omega
  rw [byteOf, BitVec.getLsbD_ofNat, BitVec.getLsbD_extractLsb', Nat.testBit_shiftRight, Nat.testBit_mod_two_pow,
    decide_eq_true hi, decide_eq_true hlt, Bool.true_and, Bool.true_and, Bool.true_and]
  rfl

/-- The stores of some lanes change memory and its marks alone. -/
theorem State.storeAll_spec (s : State) (g : Group) (a : MemOpd) (loc : Nat → Nat) (n : Nat) (val : Nat → Code)
    (lanes : List Nat) : ∃ m p, s.storeAll (accessesAt g a loc lanes) n val = { s with mem := m, poison := p } := by
  induction lanes generalizing s with
  | nil => exact ⟨s.mem, s.poison, rfl⟩
  | cons i rest ih => exact ih _

theorem State.storeAll_cons (s : State) (g : Group) (a : MemOpd) (loc : Nat → Nat) (n : Nat) (val : Nat → Code) (i : Nat)
    (rest : List Nat) : s.storeAll (accessesAt g a loc (i :: rest)) n val =
      (s.writeNat (loc i) n ((val i).toNat % 2 ^ (8 * n))).storeAll (accessesAt g a loc rest) n val := rfl

theorem State.writeNat_wf {s : State} (h : Memory.wf s.mem = true) (loc n v : Nat) : Memory.wf (s.writeNat loc n v).mem = true :=
  Memory.write_wf h loc _

theorem State.read8_writeNat {s : State} (h : Memory.wf s.mem = true) (loc n v x : Nat) :
    (s.writeNat loc n v).read8 x = if loc ≤ x ∧ x < loc + n then byteOf v (x - loc) else s.read8 x := by
  unfold State.writeNat
  rw [State.read8_write h, length_bytesOf]
  split
  · next hx => rw [getD_bytesOf v (by omega)]
  · rfl

/-- A byte that no lane stores to is as it was. -/
theorem State.read8_storeAll_of_not {g : Group} {a : MemOpd} {loc : Nat → Nat} {n : Nat} {val : Nat → Code} {x : Nat}
    {lanes : List Nat} {s : State} (h : Memory.wf s.mem = true) (hx : ∀ i ∈ lanes, ¬ (loc i ≤ x ∧ x < loc i + n)) :
    (s.storeAll (accessesAt g a loc lanes) n val).read8 x = s.read8 x := by
  induction lanes generalizing s with
  | nil => rfl
  | cons i rest ih =>
    rw [State.storeAll_cons, ih (State.writeNat_wf h _ _ _) fun j hj => hx j (List.mem_cons_of_mem _ hj),
      State.read8_writeNat h, if_neg (hx i List.mem_cons_self)]

/-- A byte holds that of the last lane that stores to it. -/
theorem State.read8_storeAll_last {g : Group} {a : MemOpd} {loc : Nat → Nat} {n : Nat} {val : Nat → Code} {i k : Nat}
    {lanes : List Nat} {s : State} (h : Memory.wf s.mem = true) (hr : lanes.Pairwise (· < ·)) (hi : i ∈ lanes) (hk : k < n)
    (hlast : ∀ j ∈ lanes, i < j → ¬ (loc j ≤ loc i + k ∧ loc i + k < loc j + n)) :
    (s.storeAll (accessesAt g a loc lanes) n val).read8 (loc i + k) = (val i).extractLsb' (8 * k) 8 := by
  induction lanes generalizing s with
  | nil => cases hi
  | cons j rest ih =>
    obtain ⟨hj, hrest⟩ := List.pairwise_cons.1 hr
    rw [State.storeAll_cons]
    rcases List.mem_cons.1 hi with rfl | hi
    · rw [State.read8_storeAll_of_not (State.writeNat_wf h _ _ _)
        fun x hx => hlast x (List.mem_cons_of_mem _ hx) (hj x hx), State.read8_writeNat h, if_pos (by omega),
        Nat.add_sub_cancel_left, byteOf_mod _ hk]
    · exact ih (State.writeNat_wf h _ _ _) hrest hi fun x hx => hlast x (List.mem_cons_of_mem _ hx)

/-- A unit that some lane stores to whole is clean. -/
theorem State.mem_poison_storeAll {g : Group} {a : MemOpd} {loc : Nat → Nat} {n : Nat} {val : Nat → Code} {u : Nat}
    (lanes : List Nat) (s : State) : u ∈ (s.storeAll (accessesAt g a loc lanes) n val).poison ↔
      u ∈ s.poison ∧ ∀ i ∈ lanes, ¬ (loc i ≤ u * 16 ∧ u * 16 + 16 ≤ loc i + n) := by
  induction lanes generalizing s with
  | nil => simp [accessesAt, State.storeAll]
  | cons i rest ih =>
    rw [State.storeAll_cons, ih, State.writeNat, State.mem_poison_write, length_bytesOf, List.forall_mem_cons, and_assoc]

theorem State.refresh_of_groups {s t : State} {g : Group} (hg : s.group? s.cur = some g) (h : t.groups = s.groups) :
    t.refresh g = g := by
  have hself : s.group? g.id = some g := by
    rw [State.group?_id hg]
    exact hg
  unfold State.refresh
  rw [State.group?_congr h, hself]

/-- Settles O28. -/
theorem storesWrite : Obligations.StoresWrite := by
  intro s g h ty sc ord d a loc stores hw hg hfree hwf hheld hst hl
  obtain ⟨hnheld, -⟩ := hfree
  have hmem (i : Nat) : i ∈ Claims.updaters g h [d, a.base] ↔ stores i := by
    rw [hst, mem_updaters]
  have hchk : s.checkLanes g .write a (ty.width / 8) (g.doneLanes h [d, a.base]) =
      .ok (accessesAt g a loc (Claims.updaters g h [d, a.base])) := by
    rw [Group.doneLanes_eq]
    exact checkLanes_lands fun i hi => hl i ((hmem i).1 hi)
  obtain ⟨m, p, hstored⟩ := s.storeAll_spec g a loc (ty.width / 8) (fun i => g.srcLane d ty.width i)
    (Claims.updaters g h [d, a.base])
  refine ⟨Claims.banked (s.storeAll (accessesAt g a loc (Claims.updaters g h [d, a.base])) (ty.width / 8)
    (fun i => g.srcLane d ty.width i)) g (ty.width / 8) loc (Claims.updaters g h [d, a.base]), ?_, ?_, ?_, ?_, ?_⟩
  · refine exec_accesses rfl hw hg ((holding_free hnheld).trans (looking_ok ?_))
    unfold stBody
    rw [hheld]
    dsimp only [bind, Except.bind]
    rw [hchk]
    dsimp only
    rw [locsOf_accessesAt, touchesOf_accessesAt, State.countPasses_eq, State.refresh_of_groups hg]
    rw [hstored]
    rfl
  · rw [hstored]
    rfl
  · intro x hx
    exact State.read8_storeAll_of_not hwf fun i hi => hx i ((hmem i).1 hi)
  · intro lane k hlane hk hlast
    exact State.read8_storeAll_last hwf (updaters_rising g h _) ((hmem lane).2 hlane) hk
      fun j hj hlt => hlast j hlt ((hmem j).1 hj)
  · intro u
    refine (State.mem_poison_storeAll _ s).trans (and_congr_right fun _ => ?_)
    exact forall_congr' fun i => imp_congr_left (hmem i)

end Sys2Proof.Machine

end


section
/-! # O30: `CAS` and the page tables (R270, R412, R415)

The permission to write of a lane that finds its comparand is looked up as the lanes update memory: a lower lane of the same
`CAS` may have changed the page table by then. -/

namespace Sys2Proof.Machine

-- The kernel evaluates the counterexample: one declaration at a time.
set_option Elab.async false

/-- A group of the loaded machine whose lanes 0 and 1 hold the address of the leaf of the loaded machine's pages, with that
leaf, and the address of a word that is 0, with 0. -/
def groupAtCas : Group :=
  { Group.launched 2 (loadedTeam State.reset) (loadedLaunch State.reset) 0 0 0 0 with
    pc := 0x4000, exec := 3,
    v := vset (vset (Vector.replicate 64 0) 2 (vreg fun i => if i = 0 then 0x13000 else 0x8000)) 4
      (vreg fun i => if i = 0 then 0x1F else 0) }

def stateAtCas : State :=
  { State.reset.loaded with groups := [groupAtCas], nextId := 4 }

/-- `CAS.B32` of those words to 0. -/
def casOfLeaf : Instr :=
  .cas plainHdr .b32 .team .plain false (.v 6) ⟨.v 2, 0⟩ (.v 4)

/-- The leaf of the loaded machine's pages, after an instruction. -/
def leafAfter (i : Instr) (s : State) : Option Nat :=
  match exec i s with
  | .next u => some (u.readNat 0x13000 4)
  | _ => none

theorem leafAfter_eq {i : Instr} {s u : State} (hu : exec i s = .next u) : leafAfter i s = some (u.readNat 0x13000 4) := by
  simp [leafAfter, hu]

theorem leafAfter_cas : leafAfter casOfLeaf stateAtCas = some 0x1F := by
  decide +kernel

/-- The words that the two lanes of the `CAS` find. -/
def foundAtCas (i : Nat) : Code :=
  if i = 0 then 0x1F else 0

/-- Where the lanes of the `CAS` access. -/
def locAtCas (i : Nat) : Nat :=
  if i = 0 then 0x13000 else 0x8000

/-- The update of the two lanes, one after the other, as R270 has it. -/
def updatesAtCas : State × List (Nat × Code) :=
  Claims.updates 4 locAtCas (fun i x => if x = groupAtCas.srcLane (.v 4) 32 i then some (groupAtCas.srcLane (.v 6) 32 i) else none)
    stateAtCas [0, 1]

theorem updaters_atCas : Claims.updaters groupAtCas plainHdr [.v 6, .v 2, .v 4] = [0, 1] := by
  decide +kernel

theorem lands_atCas : ∀ i ∈ [0, 1], Claims.lands stateAtCas groupAtCas .read ⟨.v 2, 0⟩ 4 i (locAtCas i) ∧
    stateAtCas.place (stateAtCas.accessor groupAtCas) .write (Claims.addr groupAtCas ⟨.v 2, 0⟩ i) = .ok (.mem (locAtCas i)) := by
  unfold Claims.lands
  decide +kernel

/-- Refutes O30: the `CAS` of lane 0 takes the leaf of the page of lane 1, and the `CAS` faults. -/
theorem not_atomics : ¬ Obligations.Atomics := by
  rintro ⟨-, -, hcas⟩
  have hexec := hcas stateAtCas groupAtCas plainHdr .b32 .team .plain false (.v 6) (.v 4) ⟨.v 2, 0⟩ locAtCas updatesAtCas foundAtCas
    rfl rfl ⟨rfl, rfl⟩ (by decide +kernel)
    (by
      rw [updaters_atCas]
      exact lands_atCas)
    (by
      rw [updaters_atCas]
      rfl)
    (by decide +kernel)
  exact absurd ((leafAfter_eq hexec).symm.trans leafAfter_cas) (by decide +kernel)

end Sys2Proof.Machine

end


section
/-! # O31: full/empty bits, fences and prefetch (R258, R265, R267, R273, R274) -/

namespace Sys2Proof.Machine

theorem tally_cons (p : Nat × Nat) (j : Nat) (l : List (Nat × Nat)) :
    tally j (p :: l) = if p.1 = j then p.2 else tally j l := by
  unfold tally
  rw [List.find?_cons]
  by_cases h : p.1 = j
  · rw [if_pos h, beq_iff_eq.2 h]
  · rw [if_neg h, beq_eq_false_iff_ne.2 h]

theorem tally_filter_ne {k j : Nat} (h : j ≠ k) (l : List (Nat × Nat)) : tally j (l.filter (fun p => p.1 != k)) = tally j l := by
  induction l with
  | nil => rfl
  | cons p l ih =>
    rw [List.filter_cons, tally_cons]
    split
    · rw [tally_cons, ih]
    · next hk =>
      have hp : p.1 = k := by simpa using hk
      rw [ih, if_neg (hp.trans_ne h.symm)]

theorem tally_bump (k j : Nat) (l : List (Nat × Nat)) : tally j (bump k l) = if k = j then tally k l + 1 else tally j l := by
  unfold bump
  rw [tally_cons]
  split
  · rfl
  · next h => exact tally_filter_ne (Ne.symm h) l

theorem mem_insertNat (a k : Nat) (l : List Nat) : k ∈ insertNat a l ↔ k ∈ l ∨ a = k := by
  have hl : k ∈ l ↔ k ∈ l.takeWhile (· < a) ∨ k ∈ l.dropWhile (· < a) := by
    rw [← List.mem_append, List.takeWhile_append_dropWhile]
  have hr : k ∈ l.dropWhile (· < a) ↔ k ∈ (l.dropWhile (· < a)).takeWhile (· == a) ∨ k ∈ (l.dropWhile (· < a)).dropWhile (· == a) := by
    rw [← List.mem_append, List.takeWhile_append_dropWhile]
  have ha : k ∈ (l.dropWhile (· < a)).takeWhile (· == a) → k = a := fun h => by simpa using List.mem_takeWhile_imp h
  rw [insertNat, List.mem_append, List.mem_cons, hl, hr]
  constructor
  · rintro (h | h | h)
    · exact .inl (.inl h)
    · exact .inr h.symm
    · exact .inl (.inr (.inr h))
  · rintro ((h | h | h) | h)
    · exact .inl h
    · exact .inr (.inl (ha h))
    · exact .inr (.inr h)
    · exact .inr (.inl h.symm)

theorem mem_removeNat (a k : Nat) (l : List Nat) : k ∈ removeNat a l ↔ k ∈ l ∧ a ≠ k := by
  rw [removeNat, List.mem_filter, bne_iff_ne, ne_comm]

/-- Lines become full or empty, one after the other. -/
def State.setLines (s : State) (full : Bool) (locs : List Nat) : State :=
  locs.foldl (fun s loc => if full then s.setFull loc else s.setEmpty loc) s

theorem State.setLines_spec (full : Bool) (locs : List Nat) (s : State) :
    ∃ fe fills, s.setLines full locs = { s with fe := fe, fills := fills } ∧ (full = false → fills = s.fills) := by
  induction locs generalizing s with
  | nil => exact ⟨s.fe, s.fills, rfl, fun _ => rfl⟩
  | cons loc rest ih =>
    cases full with
    | true =>
      obtain ⟨fe, fills, h, -⟩ := ih (s.setFull loc)
      exact ⟨fe, fills, h, Bool.noConfusion⟩
    | false =>
      obtain ⟨fe, fills, h, hf⟩ := ih (s.setEmpty loc)
      exact ⟨fe, fills, h, hf⟩

theorem State.tally_setLines_le (locs : List Nat) (s : State) (k : Nat) :
    tally k s.fills ≤ tally k (s.setLines true locs).fills := by
  induction locs generalizing s with
  | nil => exact Nat.le_refl _
  | cons loc rest ih =>
    refine Nat.le_trans ?_ (ih (s.setFull loc))
    rw [State.setFull_fills, tally_bump]
    split
    · next h => rw [h]; exact Nat.le_succ _
    · exact Nat.le_refl _

/-- A setting to full is counted under its line. -/
theorem State.tally_setLines_lt {locs : List Nat} {loc : Nat} (h : loc ∈ locs) (s : State) :
    tally (lineOf loc) s.fills < tally (lineOf loc) (s.setLines true locs).fills := by
  induction locs generalizing s with
  | nil => cases h
  | cons x rest ih =>
    rcases List.mem_cons.1 h with rfl | h
    · refine Nat.lt_of_lt_of_le ?_ (State.tally_setLines_le rest (s.setFull loc) _)
      rw [State.setFull_fills, tally_bump, if_pos rfl]
      exact Nat.lt_succ_self _
    · refine Nat.lt_of_le_of_lt ?_ (ih h (s.setFull x))
      exact State.tally_setLines_le [x] s _

theorem State.mem_fe_setFull (locs : List Nat) (s : State) (k : Nat) :
    k ∈ (s.setLines true locs).fe ↔ k ∈ s.fe ∧ ∀ loc ∈ locs, lineOf loc ≠ k := by
  induction locs generalizing s with
  | nil => simp [State.setLines]
  | cons x rest ih =>
    refine (ih (s.setFull x)).trans ?_
    rw [State.setFull_fe, mem_removeNat, List.forall_mem_cons, and_assoc]

theorem State.mem_fe_setEmpty (locs : List Nat) (s : State) (k : Nat) :
    k ∈ (s.setLines false locs).fe ↔ k ∈ s.fe ∨ ∃ loc ∈ locs, lineOf loc = k := by
  induction locs generalizing s with
  | nil => simp [State.setLines]
  | cons x rest ih =>
    refine (ih (s.setEmpty x)).trans ?_
    rw [State.setEmpty_fe, mem_insertNat, List.exists_mem_cons_iff, or_assoc]

theorem scrLanes_ok {s : State} {g : Group} {use : Use} {a : MemOpd} {loc : Nat → Nat} {lanes : List Nat}
    (h : ∀ i ∈ lanes, s.scrPlace (s.accessor g) use (Claims.addr g a i) = .ok (loc i)) :
    s.scrLanes g use a lanes = .ok (accessesAt g a loc lanes) := by
  refine mapM_ok fun i hi => ?_
  rw [Group.ea_eq_addr, h i hi]

/-- What `LFULL` and `LEMPTY` do where every lane's line may be set. -/
theorem lineBody_sets {s : State} {g : Group} {h : Hdr} {full : Bool} {a : MemOpd} {loc : Nat → Nat}
    (hheld : g.checkHeld [(a.base, 64)] = .ok ())
    (hl : ∀ i ∈ Claims.updaters g h [a.base], s.scrPlace (s.accessor g) .write (Claims.addr g a i) = .ok (loc i)) :
    lineBody h full a s g = .ok
      { s := s.setLines full ((Claims.updaters g h [a.base]).map loc), g := g,
        touches := Claims.accessesOf g a 1 false (fun _ => true) (Claims.updaters g h [a.base]) } := by
  unfold lineBody
  rw [hheld]
  dsimp only [bind, Except.bind]
  rw [Group.doneLanes_eq, scrLanes_ok hl]
  dsimp only
  rw [touchesOf_accessesAt, accessesAt, List.foldl_map, State.setLines, List.foldl_map]
  rfl

theorem getLsbD_ofNat_toNat (b : Bool) : (BitVec.ofNat 128 b.toNat).getLsbD 0 = b := by
  cases b with
  | false => rfl
  | true => rfl

/-- Where no load of the group or its callers waits, no acquire load does. -/
theorem State.heldAcq_of_held {s : State} {g : Group} (h : s.held g = false) :
    s.heldAcq g = false ∧ g.waitingLoads = [] := by
  obtain ⟨hwait, hcallers⟩ := Bool.or_eq_false_iff.1 h
  have hnone : g.waitingLoads = [] := by simpa using hwait
  have hfolds : g.folds.any (fun f => f.pend.any (fun l => l.waitingLoad.isSome)) = false := by
    rw [List.any_eq_false]
    rintro f hf hany
    obtain ⟨l, hl, hsome⟩ := List.any_eq_true.1 hany
    obtain ⟨i, hi⟩ := Option.isSome_iff_exists.1 hsome
    have hmem : i ∈ g.waitingLoads := by
      refine List.mem_filterMap.2 ⟨l, ?_, hi⟩
      exact List.mem_append_right _ (List.mem_flatMap.2 ⟨f, hf, hl⟩)
    rw [hnone] at hmem
    cases hmem
  refine ⟨?_, hnone⟩
  unfold State.heldAcq
  rw [hnone, hfolds, hcallers]
  rfl

theorem State.waitsOnLine_of_none {s : State} {g : Group} (h : g.waitingLoads = []) (va : Word64) :
    s.waitsOnLine g va = false := by
  unfold State.waitsOnLine
  split
  · exact waitsOn_of_none h _ _
  · rfl

theorem writesTo_m (g : Group) (n : BitVec 3) (popped : Bool) (w : Nat) (lanes : Mask) (f : Nat → Code) :
    g.writesTo (.m n) popped w lanes f = [.m n lanes (maskOf (fun i => lanes.getLsbD i && (f i).getLsbD 0))] := rfl

theorem ltestBody_tests {s : State} {g : Group} {h : Hdr} {n : BitVec 3} {a : MemOpd} {loc : Nat → Nat}
    (hheld : g.checkHeld [(a.base, 64)] = .ok ()) (hact : g.active h ≠ 0)
    (hl : ∀ i, Claims.accesses g h [a.base] i → s.scrPlace (s.accessor g) .read (Claims.addr g a i) = .ok (loc i)) :
    ltestBody h (.m n) a s g = .ok
      { s := s, g := g, touches := Claims.accessesOf g a 1 true (fun _ => false) (Claims.lanesThat g h [a.base]),
        long := [{ unit := .memory, writes := [.m n (g.active h) (maskOf (fun lane => (g.active h).getLsbD lane &&
          !s.fe.contains (lineOf (loc (Claims.readLane (Claims.once h [a.base]) (g.active h) lane)))))] }] } := by
  have hlane (i : Nat) (hi : i ∈ Claims.lanesThat g h [a.base]) := hl i ((mem_lanesThat ..).1 hi)
  have hscr : s.scrLanes g .read a ((Claims.lanesThat g h [a.base]).filter (fun i => !g.helper.getLsbD i)) =
      .ok (accessesAt g a loc ((Claims.lanesThat g h [a.base]).filter (fun i => !g.helper.getLsbD i))) :=
    scrLanes_ok fun i hi => hlane i (List.mem_of_mem_filter hi)
  unfold ltestBody
  rw [hheld]
  dsimp only [bind, Except.bind]
  rw [Group.accessLanes_eq, hscr]
  dsimp only
  rw [if_neg hact, writesTo_m, List.filter_eq_self.2]
  · congr 2
    · refine congrArg (fun m => [({ writes := [.m n (g.active h) (maskOf m)], unit := .memory } : LongOut)]) (funext fun i => ?_)
      cases hi : (g.active h).getLsbD i with
      | false => rfl
      | true =>
        have hbit : s.scrPlace (s.accessor g) .read (g.ea a (if runsOnce h [a.base] then (lowest (g.active h)).getD 0 else i)) =
            .ok (loc (Claims.readLane (Claims.once h [a.base]) (g.active h) i)) := by
          rw [runsOnce_eq_once, Group.ea_eq_addr]
          exact hl _ (accesses_readLane hi)
        rw [hbit]
        exact congrArg (true && ·) (getLsbD_ofNat_toNat (s.isFull _))
    · simp only [Group.ea_eq_addr]
      rfl
  · intro i hi
    rw [Group.ea_eq_addr, hlane i hi]

theorem fenceFlagBody_stores {s : State} {g : Group} {n : BitVec 6} {a : MemOpd} {loc : Nat} (hg : s.group? s.cur = some g)
    (hal : (Claims.addr g a 0).toNat % 8 = 0) (hpl : s.place (s.accessor g) .write (Claims.addr g a 0) = .ok (.mem loc)) :
    fenceFlagBody (.x n) a s g = .ok
      { s := s.writeNat loc 8 (g.xVal n).toNat, g := g, touches := [⟨Claims.addr g a 0, 8, false, true⟩] } := by
  unfold fenceFlagBody
  dsimp only
  rw [Group.ea_eq_addr, if_neg (not_not_intro hal), hpl]
  dsimp only
  have hst : s.storeAt ⟨0, Claims.addr g a 0, .mem loc⟩ 8 (g.uni64 (.x n)).toNat = s.writeNat loc 8 (g.xVal n).toNat := rfl
  have hgo : (s.writeNat loc 8 (g.xVal n).toNat).refresh g = g := State.refresh_of_groups hg rfl
  rw [hst, hgo]

/-- Settles O31. -/
theorem linesAndFences : Obligations.LinesAndFences := by
  refine ⟨⟨?_, ?_⟩, ?_, ?_, ?_⟩
  · intro s g h sc ord a loc full i hi hw hg hfree hheld hl
    obtain ⟨hnheld, -⟩ := hfree
    obtain ⟨fe, fills, hset, hfills⟩ := s.setLines_spec full ((Claims.updaters g h [a.base]).map loc)
    have hmem (P : Nat → Prop) : (∀ l ∈ (Claims.updaters g h [a.base]).map loc, P l) ↔
        ∀ lane ∈ Claims.updaters g h [a.base], P (loc lane) := List.forall_mem_map
    refine ⟨s.setLines full ((Claims.updaters g h [a.base]).map loc), ?_, ?_, ?_, ?_, ?_⟩
    · cases full with
      | true =>
        subst hi
        exact exec_accesses rfl hw hg ((holding_free hnheld).trans (lineBody_sets hheld hl))
      | false =>
        subst hi
        exact exec_accesses rfl hw hg ((holding_free hnheld).trans (lineBody_sets hheld hl))
    · rw [hset]
    · rw [hset]
      exact hfills
    · rintro rfl lane hlane
      exact State.tally_setLines_lt (List.mem_map_of_mem hlane) s
    · intro k
      cases full with
      | true => exact (State.mem_fe_setFull _ s k).trans (and_congr_right fun _ => List.forall_mem_map)
      | false => exact (State.mem_fe_setEmpty _ s k).trans (or_congr_right (by simp only [List.mem_map, exists_exists_and_eq_and]))
  · intro s g h sc ord n a loc hw hg hfree hheld hact hl
    have hhold : (s.heldAcq g || (g.accessLanes h [a.base]).any (fun i => s.waitsOnLine g (g.ea a i))) = false := by
      obtain ⟨hacq, hnone⟩ := State.heldAcq_of_held hfree.1
      rw [hacq, Bool.false_or, List.any_eq_false]
      exact fun i _ => by rw [State.waitsOnLine_of_none hnone]; exact Bool.false_ne_true
    exact exec_accesses rfl hw hg ((holding_free hhold).trans (ltestBody_tests hheld hact hl))
  · intro s g h sc ord hw hg hnheld
    exact exec_accesses rfl hw hg ((holding_free hnheld).trans rfl)
  · intro s g h sc ord n a loc hw hg hfree hal hpl
    exact exec_accesses rfl hw hg ((holding_free hfree.1).trans (fenceFlagBody_stores hg hal hpl))
  · intro s g h a i hi hw hg hheld
    have hbody : prefBody h a s g =
        .ok { s := s, g := g, touches := Claims.probes g a (Claims.lanesThat g h [a.base]) } := by
      unfold prefBody Claims.probes
      rw [hheld, Group.accessLanes_eq]
      simp only [← Group.ea_eq_addr]
      rfl
    rcases hi with rfl | rfl
    · exact exec_accesses rfl hw hg hbody
    · exact exec_accesses rfl hw hg hbody

end Sys2Proof.Machine

end


section
/-! # O32: barrier objects (R275 to R278) -/

namespace Sys2Proof.Machine

/-! ## The fields of an object -/

/-- The bytes written at an offset of a range are read back there. -/
theorem State.readNat_write_at {s : State} (h : Memory.wf s.mem = true) (loc off n : Nat) {bs l : List Byte}
    (hl : (bs.drop off).take n = l) (hn : l.length = n) : (s.write loc bs).readNat (loc + off) n = natOf l := by
  have hget (k : Nat) (hk : k < n) : off + k < bs.length ∧ l.getD k 0 = bs.getD (off + k) 0 := by
    have hlen : min n (bs.length - off) = n := by rw [← hn, ← hl]; simp
    refine ⟨by omega, ?_⟩
    rw [← hl]
    simp [List.getD, List.getElem?_take, List.getElem?_drop, hk]
  unfold State.readNat
  congr 1
  refine List.ext_getElem (by simp [Memory.readN, hn]) fun k h1 h2 => ?_
  obtain ⟨hlt, hk⟩ := hget k (hn ▸ h2)
  simp only [Memory.readN, List.getElem_map, List.getElem_range, State.write_mem, Memory.read_write h]
  rw [if_pos (by omega), show loc + off + k - loc = off + k by omega, ← hk]
  simp [List.getD, h2]

/-- The bytes of an object. -/
def Barrier.bytes (b : Barrier) : List Byte :=
  bytesOf 4 b.expect ++ bytesOf 4 b.arrived ++ bytesOf 4 b.phase ++ bytesOf 2 b.noor ++ bytesOf 2 b.nskip

theorem Barrier.length_bytes (b : Barrier) : b.bytes.length = 16 := by
  simp [Barrier.bytes]

theorem State.setBarrier_eq (s : State) (loc : Nat) (b : Barrier) : s.setBarrier loc b = s.write loc b.bytes := rfl

/-- An object holds the fields last written to it. -/
theorem State.barrier_setBarrier {s : State} (h : Memory.wf s.mem = true) (loc : Nat) (b : Barrier) :
    (s.setBarrier loc b).barrier loc =
      ⟨b.expect % 2 ^ 32, b.arrived % 2 ^ 32, b.phase % 2 ^ 32, b.noor % 2 ^ 16, b.nskip % 2 ^ 16⟩ := by
  have hread (off n v : Nat) (hl : (b.bytes.drop off).take n = bytesOf n v) :
      (s.setBarrier loc b).readNat (loc + off) n = v % 2 ^ (8 * n) := by
    rw [State.setBarrier_eq, State.readNat_write_at h loc off n hl (length_bytesOf n v), natOf_bytesOf]
  unfold State.barrier
  rw [hread 4 4 b.arrived (by simp [Barrier.bytes, List.drop_append, List.take_append, List.drop_of_length_le, List.take_of_length_le]),
    hread 8 4 b.phase (by simp [Barrier.bytes, List.drop_append, List.take_append, List.drop_of_length_le, List.take_of_length_le]),
    hread 12 2 b.noor (by simp [Barrier.bytes, List.drop_append, List.take_append, List.drop_of_length_le, List.take_of_length_le]),
    hread 14 2 b.nskip (by simp [Barrier.bytes, List.drop_append, List.take_append, List.drop_of_length_le, List.take_of_length_le])]
  have h0 := hread 0 4 b.expect (by simp [Barrier.bytes, List.take_append])
  rw [Nat.add_zero] at h0
  rw [h0]

/-- Only the 16 bytes of an object change. -/
theorem State.read8_setBarrier {s : State} (h : Memory.wf s.mem = true) {loc x : Nat} (b : Barrier)
    (hx : ¬ (loc ≤ x ∧ x < loc + 16)) : (s.setBarrier loc b).read8 x = s.read8 x := by
  rw [State.setBarrier_eq, State.read8_write h, if_neg (by rwa [Barrier.length_bytes])]

/-- The fields of an object fit. -/
theorem State.barrier_lt (s : State) (loc : Nat) : (s.barrier loc).expect < 2 ^ 32 ∧ (s.barrier loc).arrived < 2 ^ 32 ∧
    (s.barrier loc).phase < 2 ^ 32 ∧ (s.barrier loc).noor < 2 ^ 16 ∧ (s.barrier loc).nskip < 2 ^ 16 :=
  ⟨s.readNat_lt _ 4, s.readNat_lt _ 4, s.readNat_lt _ 4, s.readNat_lt _ 2, s.readNat_lt _ 2⟩

/-! ## The instructions -/

theorem barinitBody_sets {s : State} {g : Group} {n : BitVec 6} {a : MemOpd} {loc : Nat}
    (hb : s.barPlace g (Claims.addr g a 0) = .ok loc) :
    barinitBody (.x n) a s g = .ok
      { s := s.setBarrier loc { s.barrier loc with expect := (g.xVal n).toNat % 2 ^ 32, arrived := 0, noor := 0, nskip := 0 },
        g := g, touches := Claims.onBarrier (Claims.addr g a 0) } := by
  unfold barinitBody
  rw [Group.ea_eq_addr, hb]
  rfl

theorem arriveBody_arrives {s : State} {g : Group} {n k : BitVec 6} {a : MemOpd} {loc : Nat}
    (hb : s.barPlace g (Claims.addr g a 0) = .ok loc) :
    arriveBody (.x n) a (.x k) s g = .ok
      { s := s.arriveAt loc ((g.xVal k).toNat % 2 ^ 32), g := g, touches := Claims.onBarrier (Claims.addr g a 0),
        long := [{ writes := [.x n (BitVec.ofNat 64 (s.barrier loc).phase)], unit := .memory }] } := by
  have hw : g.writesTo (.x n) false 64 g.exec (fun _ => BitVec.ofNat 128 (s.barrier loc).phase) =
      [.x n (BitVec.ofNat 64 (s.barrier loc).phase)] := by
    simp only [Group.writesTo, xWrites_of_le _ (Nat.le_refl 64)]
    rw [BitVec.setWidth_ofNat_of_le (by decide)]
  unfold arriveBody
  rw [Group.ea_eq_addr, hb]
  dsimp only [bind, Except.bind]
  rw [hw]
  rfl

/-- The object after some arrivals, as R277 has it. -/
theorem State.barrier_arriveAt {s : State} (h : Memory.wf s.mem = true) (loc n : Nat) :
    (s.arriveAt loc n).barrier loc = (s.barrier loc).arrive n ∧
      (∀ x, ¬ (loc ≤ x ∧ x < loc + 16) → (s.arriveAt loc n).read8 x = s.read8 x) ∧
      (tally loc (s.arriveAt loc n).phases ≠ tally loc s.phases ↔ (s.barrier loc).ends n = true) := by
  obtain ⟨he, ha, hp, ho, hk⟩ := s.barrier_lt loc
  have hmod : (s.setBarrier loc ((s.barrier loc).arrive n)).barrier loc = (s.barrier loc).arrive n := by
    rw [State.barrier_setBarrier h]
    unfold Barrier.arrive
    split
    · simp only [Nat.mod_eq_of_lt he, Nat.mod_eq_of_lt ha, Nat.mod_mod, Nat.mod_eq_of_lt ho, Nat.mod_eq_of_lt hk]
    · next hne =>
      have hr : ((s.barrier loc).arrived + n) % (s.barrier loc).expect < 2 ^ 32 :=
        Nat.lt_trans (Nat.mod_lt _ (Nat.pos_of_ne_zero hne)) he
      simp only [Nat.mod_eq_of_lt he, Nat.mod_eq_of_lt hr, Nat.mod_mod, Nat.mod_eq_of_lt ho, Nat.mod_eq_of_lt hk]
  unfold State.arriveAt
  dsimp only
  cases hends : (s.barrier loc).ends n with
  | true =>
    refine ⟨hmod, fun x hx => State.read8_setBarrier h _ hx, fun _ => rfl, fun _ => ?_⟩
    rw [if_pos rfl, tally_bump, if_pos rfl]
    exact Nat.succ_ne_self _
  | false => exact ⟨hmod, fun x hx => State.read8_setBarrier h _ hx, fun hne => absurd rfl hne, Bool.noConfusion⟩

theorem Barrier.arrive_zero {b : Barrier} (h : b.expect = 0) (n : Nat) : b.arrive n = { b with phase := (b.phase + 1) % 2 ^ 32 } :=
  if_pos h

theorem Barrier.arrive_of_ne {b : Barrier} (h : b.expect ≠ 0) (n : Nat) : b.arrive n =
    { b with arrived := (b.arrived + n) % b.expect, phase := (b.phase + (b.arrived + n) / b.expect) % 2 ^ 32 } :=
  if_neg h

theorem Barrier.arrive_keeps (b : Barrier) (n : Nat) :
    (b.arrive n).expect = b.expect ∧ (b.arrive n).noor = b.noor ∧ (b.arrive n).nskip = b.nskip := by
  unfold Barrier.arrive
  split
  · exact ⟨rfl, rfl, rfl⟩
  · exact ⟨rfl, rfl, rfl⟩

theorem uni64_x (g : Group) (n : BitVec 6) : g.uni64 (.x n) = g.xVal n := rfl

/-- An instruction that waits at its slot. -/
theorem exec_holds {s s' : State} {g g' : Group} {i : Instr} {h : Hdr} {body : Body} {w : Option Wait}
    (hx : exec i s = issue s i h false body) (hw : i.wellFormed = true) (hg : s.group? s.cur = some g)
    (hb : body s g = .ok { s := s', g := g', wait := w, hold := true }) :
    exec i s = .next ((if g.wait.isNone then s'.touch (g.core.getD 0) else s').setGroup { g' with wait := w }) := by
  rw [hx, issue_eq (u := false) hg hw (fun h => Bool.noConfusion h), hb]
  simp only [State.conclude, Bool.false_eq_true, if_false, if_true]

/-- Settles O32. -/
theorem barrierObjects : Obligations.BarrierObjects := by
  intro s g h sc ord n k a loc hg hnheld hwf hb
  obtain ⟨hacq, hnone⟩ := State.heldAcq_of_held hnheld
  have hhold : (s.heldAcq g || s.waitsOnLine g (g.ea a 0)) = false := by
    rw [hacq, State.waitsOnLine_of_none hnone]
    rfl
  obtain ⟨he, ha, hp, ho, hk⟩ := s.barrier_lt loc
  refine ⟨fun hw => ?_, fun hw => ?_, fun hw => ⟨fun hwait hne => ?_, fun hwait heq => ?_, fun at_ m hwait => ⟨fun hne => ?_, fun heq => ?_⟩⟩⟩
  · refine ⟨_, exec_accesses rfl hw hg ((holding_free hnheld).trans (barinitBody_sets hb)), rfl, rfl, ?_,
      fun x hx => State.read8_setBarrier hwf _ hx⟩
    rw [State.barrier_setBarrier hwf]
    simp only [Nat.mod_mod, Nat.zero_mod, Nat.mod_eq_of_lt hp]
  · obtain ⟨hbar, hframe, htally⟩ := State.barrier_arriveAt hwf loc ((g.xVal k).toNat % 2 ^ 32)
    obtain ⟨h1, h2, h3⟩ := (s.barrier loc).arrive_keeps ((g.xVal k).toNat % 2 ^ 32)
    refine ⟨_, exec_accesses rfl hw hg ((holding_free hnheld).trans (arriveBody_arrives hb)), ?_, ?_, ?_, ?_, ?_, ?_, hframe⟩
    · rw [hbar, h1]
    · rw [hbar, h2]
    · rw [hbar, h3]
    · rw [htally, Barrier.ends, Bool.or_eq_true, decide_eq_true_iff, decide_eq_true_iff]
    · intro h0
      rw [hbar, Barrier.arrive_zero h0]
      exact ⟨rfl, rfl⟩
    · intro hne
      rw [hbar, Barrier.arrive_of_ne hne]
      exact ⟨_, Nat.mod_lt _ (Nat.pos_of_ne_zero hne), Nat.mod_add_div' _ _, rfl⟩
  · refine exec_accesses rfl hw hg ((holding_free hhold).trans ?_)
    unfold waitbBody
    rw [hwait]
    dsimp only [bind, Except.bind]
    rw [Group.ea_eq_addr, hb]
    dsimp only
    rw [uni64_x, if_neg hne]
    rfl
  · obtain ⟨cs, ds, ps, c, hacc⟩ := s.accessed_spec g (Claims.onBarrier (Claims.addr g a 0))
    have hbody : waitbBody (.x n) a s g = .ok
        { s := s.accessed g (Claims.onBarrier (Claims.addr g a 0)), g := g, wait := some (.phase loc (tally loc s.phases)),
          hold := true } := by
      unfold waitbBody
      rw [hwait]
      dsimp only [bind, Except.bind]
      rw [Group.ea_eq_addr, hb]
      dsimp only
      rw [uni64_x, if_pos heq]
      rfl
    have hwn : g.wait.isNone = true := by rw [hwait]; rfl
    refine ⟨_, _, exec_holds rfl hw hg ((holding_free hhold).trans hbody), State.group?_setGroup_of_id (g0 := g) ?_ rfl, rfl, rfl, ?_⟩
    · rw [hwn, if_pos rfl, hacc, State.group?_id hg]
      exact hg
    · rw [hwn, if_pos rfl, hacc]
      rfl
  · refine exec_accesses rfl hw hg ((holding_free hhold).trans ?_)
    unfold waitbBody
    rw [hwait]
    dsimp only
    rw [if_neg hne]
  · have hbody : waitbBody (.x n) a s g = .ok { s := s, g := g, wait := g.wait, hold := true } := by
      unfold waitbBody
      rw [hwait]
      dsimp only
      rw [if_pos heq]
    have hsome : g.wait.isNone = false := by rw [hwait]; rfl
    rw [exec_holds rfl hw hg ((holding_free hhold).trans hbody), hsome, if_neg Bool.false_ne_true]

end Sys2Proof.Machine

end


section
/-! # O33: command rings and batches (R279 to R284, R290) -/

namespace Sys2Proof.Machine

/-! ## `CMDW` -/

theorem single_ne_zero {i : Nat} (h : i < 64) : single i ≠ 0 :=
  (ne_zero_iff_exists_lane _).2 ⟨i, by rw [getLsbD_single h, decide_eq_true rfl]⟩

/-- What one lane alone returns. -/
theorem oldWrites_single {g : Group} {h : Hdr} {os : List Opd} {lane : Nat} (hu : Claims.updaters g h os = [lane])
    (d : Opd) (w : Nat) (v : Code) : g.oldWrites h (runsOnce h os) d w [(lane, v)] =
      g.writesTo d false w (if Claims.once h os then g.active h else single lane) (fun _ => v) := by
  have hmem : lane ∈ Claims.updaters g h os := by rw [hu]; exact List.mem_singleton_self _
  obtain ⟨hacc, -⟩ := (mem_updaters ..).1 hmem
  have hold : oldOf [(lane, v)] lane = v := by simp [oldOf]
  unfold Group.oldWrites
  rw [runsOnce_eq_once, if_neg (by simp)]
  split
  · next ho =>
    rw [Claims.accesses, if_pos ho] at hacc
    rw [hacc, Option.getD_some, hold]
  · have hmask : (maskOf fun i => [(lane, v)].any (fun p => p.1 == i)) = single lane := by
      apply BitVec.eq_of_getLsbD_eq
      intro i hi
      rw [getLsbD_maskOf, getLsbD_single (accesses_lt hacc), decide_eq_true hi, Bool.true_and, List.any_cons, List.any_nil,
        Bool.or_false]
      exact Bool.beq_comm
    rw [hmask, Group.writesTo_lanes _ _ _ _ (single_ne_zero (accesses_lt hacc)) (f' := fun _ => v)]
    intro i hi
    rw [getLsbD_single (accesses_lt hacc), decide_eq_true_iff] at hi
    rw [hi, hold]

/-- The entry of the one lane that reserves. -/
theorem cmdLanes_one {s : State} {g : Group} {d : Opd} {n : BitVec 6} {a : MemOpd} {lane c : Nat} {r : Ring} (hd : d = .v n)
    (hc : g.core = some c) (hr : s.ring g (Claims.addr g a lane) = .ok r) (hlt : r.unpub < r.size) :
    s.cmdLanes g d a [lane] =
      ((s.writeNat (scrLoc c r.off) 4 (r.rsvd + 1)).write (scrLoc c (r.off + 128 + 32 * (r.rsvd % r.size)))
          ((List.range 8).flatMap (fun k => bytesOf 4 (g.vLane (n + BitVec.ofNat 6 k) lane).toNat)),
        [(lane, BitVec.ofNat 128 r.rsvd)],
        [⟨Claims.addr g a lane, 4, true, true⟩, ⟨localAddr (r.off + 128 + 32 * (r.rsvd % r.size)), 32, false, true⟩], none) := by
  subst hd
  simp only [State.cmdLanes, Group.ea_eq_addr, hr, if_neg (Nat.ne_of_lt hlt), hc]
  rfl

theorem cmdLanes_full {s : State} {g : Group} {d : Opd} {a : MemOpd} {lane : Nat} {r : Ring}
    (hr : s.ring g (Claims.addr g a lane) = .ok r) (hfull : r.unpub = r.size) :
    s.cmdLanes g d a [lane] = (s, [], [], some (.ok r)) := by
  simp only [State.cmdLanes, Group.ea_eq_addr, hr, if_pos hfull]

/-- The lanes of `CMDW` that have no entry yet, where none has. -/
theorem lanesToDo {g : Group} {h : Hdr} {os : List Opd} (hp : g.prog = 0) :
    (g.doneLanes h os).filter (fun i => !g.prog.getLsbD i) = Claims.updaters g h os := by
  rw [Group.doneLanes_eq, hp]
  exact List.filter_eq_self.2 fun i _ => by simp

/-- The wait on a full ring names its header and `NOTW`. -/
theorem ringWait_full (s : State) (g : Group) (r : Ring) :
    ∃ since logged, ringWait s g r = .ring since (localAddr r.off) (BitVec.ofNat 32 r.notw) logged := by
  unfold ringWait
  dsimp only
  split
  · next since h notw logged _ =>
    split
    · next hsame =>
      obtain ⟨hh, hn⟩ := Bool.and_eq_true_iff.1 hsame
      refine ⟨since, logged, ?_⟩
      rw [of_decide_eq_true hh, ← of_decide_eq_true hn, BitVec.ofNat_toNat, BitVec.setWidth_eq]
    · exact ⟨_, _, rfl⟩
  · exact ⟨_, _, rfl⟩

/-- A `CMDW` whose one lane finds its ring full. -/
theorem cmdwBody_full {s : State} {g : Group} {h : Hdr} {d b : Opd} {a : MemOpd} {lane : Nat} {r : Ring}
    (hheld : g.checkHeld [(d, 256), (a.base, 64), (b, 32)] = .ok ()) (hprog : g.prog = 0)
    (hu : Claims.updaters g h [d, a.base, b] = [lane]) (hr : s.ring g (Claims.addr g a lane) = .ok r)
    (hfull : r.unpub = r.size) : ∃ m, cmdwBody h d a b s g = .ok
      { s := s, g := { g with prog := m }, wait := some (ringWait s g r), hold := true } := by
  unfold cmdwBody
  rw [hheld]
  dsimp only [bind, Except.bind]
  rw [lanesToDo hprog, hu, cmdLanes_full hr hfull]
  exact ⟨_, rfl⟩

/-! ## `NOTIFY` -/

/-- The words of a ring that can be read fit. -/
theorem notw_lt {s : State} {g : Group} {va : Word64} {r : Ring} (h : s.ring g va = .ok r) : r.notw < 2 ^ 32 := by
  unfold State.ring at h
  split at h
  · dsimp only at h
    split at h
    · cases h
    · split at h
      · cases h
      · split at h
        · cases h
        · rw [← Except.ok.inj h]
          exact s.readNat_lt _ 4
  · cases h

theorem notifyBody_nothing {s : State} {g : Group} {h : Hdr} {n : BitVec 6} {a : MemOpd} {r : Ring}
    (hr : s.ring g (Claims.addr g a 0) = .ok r) (hn : (g.xVal n).toNat % 2 ^ 32 = r.notw) :
    notifyBody h (.x n) a s g = .ok { s := s, g := g } := by
  unfold notifyBody
  dsimp only
  rw [Group.ea_eq_addr, hr]
  dsimp only
  rw [uni64_x, hn, Nat.add_sub_cancel_left, Nat.mod_self, if_pos rfl]

theorem notifyBody_one {s : State} {g : Group} {h : Hdr} {n : BitVec 6} {a : MemOpd} {r : Ring} {t : Team} {cmd : Cmd}
    (hr : s.ring g (Claims.addr g a 0) = .ok r) (hn : (g.xVal n).toNat % 2 ^ 32 = (r.notw + 1) % 2 ^ 32) (h1 : 1 ≤ r.unpub)
    (ht : s.team? g.team = some t) (hc : s.checkEntry g t r (r.notw % 2 ^ 32) = .ok cmd) (hst : h.st = false) :
    notifyBody h (.x n) a s g = .ok
      { s := (s.publish g (spordOf none) cmd).writeNat (scrLoc (g.core.getD 0) (r.off + 4)) 4 ((r.notw + 1) % 2 ^ 32), g := g,
        touches := Claims.probed cmd.pages ++ [⟨Claims.addr g a 0 + 4, 4, false, true⟩] } := by
  have hlt := notw_lt hr
  have hcount : ((r.notw + 1) % 2 ^ 32 + 2 ^ 32 - r.notw) % 2 ^ 32 = 1 := by omega
  unfold notifyBody
  dsimp only
  rw [Group.ea_eq_addr, hr]
  dsimp only
  have hlist : ((List.range 1).map (fun k => (r.notw + k) % 2 ^ 32)).mapM (fun i => ofEntry i (s.checkEntry g t r i)) = .ok [cmd] := by
    have hone : (List.range 1).map (fun k => (r.notw + k) % 2 ^ 32) = [r.notw % 2 ^ 32] := rfl
    rw [hone, List.mapM_cons, hc]
    rfl
  rw [uni64_x, hn, hcount, if_neg Nat.one_ne_zero, if_neg (Nat.not_lt.2 h1), ht]
  dsimp only [bind, Except.bind]
  rw [hlist, hst]
  dsimp only
  rw [if_neg Bool.false_ne_true]
  simp only [List.foldl_cons, List.foldl_nil, List.flatMap_cons, List.flatMap_nil, List.append_nil]
  rfl

/-- A command whose lines do not become empty joins the engine's. -/
theorem publish_full {s : State} {g : Group} {c : Nat} {cmd : Cmd} (hc : g.core = some c) (he : eEmp cmd.entry = false)
    (spord : Word32) : (s.publish g spord cmd).cmds = s.cmds ++ [{ cmd with
        id := s.nextId, seqno := vget (s.core c).slotSeq g.slot 0 + 1, spord := spord }] ∧
      (s.publish g spord cmd).mem = s.mem := by
  unfold State.publish State.nextSeq
  rw [he, hc]
  exact ⟨rfl, rfl⟩

/-! ## `BCLOSE` and `BWAIT` -/

theorem bcloseBody_eq (n : BitVec 6) (s : State) (g : Group) : bcloseBody (.x n) s g = .ok
    { s := { s with cmds := s.cmds.map (fun c =>
               if c.issuer == g.id && !c.past && c.batch.isNone then { c with batch := some (g.batch + 1) } else c) }
      g := { g with batch := g.batch + 1 }
      long := [{ writes := [.x n ((g.batch + 1).setWidth 64)], unit := .memory }] } := by
  unfold bcloseBody
  dsimp only
  rw [writesTo_x64]

theorem batchHeld_iff (last d b : Word32) : batchHeld last d b = true ↔ Claims.batchCovers last d b := by
  have hx := (d - last).isLt
  have hm := (last - b).isLt
  have hshift (i : Nat) (hi : i < 2 ^ 32) : (d - (last - BitVec.ofNat 32 i)).toNat = ((d - last).toNat + i) % 2 ^ 32 := by
    bv_omega
  unfold batchHeld Claims.batchCovers
  rw [Bool.or_eq_true, decide_eq_true_iff, decide_eq_true_iff]
  constructor
  · rintro (h | h)
    · exact ⟨0, Nat.zero_le _, by rw [hshift 0 (by omega)]; omega⟩
    · exact ⟨2 ^ 32 - (d - last).toNat, by omega, by rw [hshift _ (by omega)]; omega⟩
  · rintro ⟨i, hi, h⟩
    rw [hshift i (by omega)] at h
    omega

theorem batchOpen_iff (s : State) (g : Group) (d : Word32) : s.batchOpen g d = true ↔
    ∃ c ∈ s.cmds, c.issuer = g.id ∧ c.past = false ∧ ∃ b, c.batch = some b ∧ Claims.batchCovers g.batch d b := by
  unfold State.batchOpen
  rw [List.any_eq_true]
  refine exists_congr fun c => and_congr_right fun _ => ?_
  cases hb : c.batch with
  | none => simp
  | some b => simp [batchHeld_iff, and_assoc]

/-- Settles O33. -/
theorem commandRings : Obligations.CommandRings := by
  refine ⟨⟨?_, ?_⟩, ?_, ?_⟩
  · intro s g h d b n a lane c r hd hw hg hfree hheld hprog hc hu hr
    refine ⟨fun hlt => exec_accesses rfl hw hg ((holding_free hfree.1).trans ?_), fun hfull => ?_⟩
    · unfold cmdwBody
      rw [hheld]
      dsimp only [bind, Except.bind]
      rw [lanesToDo hprog, hu, cmdLanes_one hd hc hr hlt]
      dsimp only
      rw [oldWrites_single hu]
    · obtain ⟨since, logged, hring⟩ := ringWait_full s g r
      obtain ⟨m, hbody⟩ := cmdwBody_full hheld hprog hu hr hfull
      refine ⟨_, _, since, logged, exec_holds rfl hw hg ((holding_free hfree.1).trans hbody),
        State.group?_setGroup_of_id (g0 := g) ?_ rfl, rfl, ?_, by rw [← hring]⟩
      · split
        · rw [State.group?_id hg]
          exact hg
        · rw [State.group?_id hg]
          exact hg
      · split
        · rfl
        · rfl
  · intro s g h sc n a r hw hg hnheld hr
    refine ⟨fun hn => exec_accesses rfl hw hg ((holding_free hnheld).trans (notifyBody_nothing hr hn)),
      fun t cmd c hn h1 ht hchk hc hemp hst => ?_⟩
    refine ⟨_, exec_accesses rfl hw hg ((holding_free hnheld).trans (notifyBody_one hr hn h1 ht hchk hst)), ?_, ?_⟩
    · exact (publish_full hc hemp _).1
    · rw [hc, Option.getD_some, State.writeNat, State.writeNat, State.write_mem, State.write_mem, (publish_full hc hemp _).2]
  · intro s g h n hw hg
    refine ⟨_, _, exec_results rfl hw hg (bcloseBody_eq n s g), rfl, rfl, List.length_map _, fun k c hk => ?_⟩
    rw [List.getElem?_map, hk, Option.map_some]
    have hiff : (c.issuer == g.id && !c.past && c.batch.isNone) = true ↔ c.issuer = g.id ∧ c.past = false ∧ c.batch = none := by
      simp [and_assoc]
    by_cases hcond : c.issuer = g.id ∧ c.past = false ∧ c.batch = none
    · rw [if_pos (hiff.2 hcond), if_pos hcond]
    · rw [if_neg (mt hiff.1 hcond), if_neg hcond]
  · intro s g h n hw hg
    refine ⟨fun hnone => exec_accesses rfl hw hg ?_, fun hsome => ?_⟩
    · have hopen : s.batchOpen g ((g.xVal n).setWidth 32) = false := by
        rw [← Bool.not_eq_true, batchOpen_iff]
        rintro ⟨c, hc, h1, h2, b, hb, hcov⟩
        exact hnone c hc h1 h2 b hb hcov
      unfold bwaitBody
      rw [uni64_x, hopen, if_neg Bool.false_ne_true]
    · have hbody : bwaitBody (.x n) s g = .ok { s := s, g := g, wait := some .batch, hold := true } := by
        unfold bwaitBody
        rw [uni64_x, (batchOpen_iff _ _ _).2 hsome, if_pos rfl]
      refine ⟨_, _, exec_holds rfl hw hg hbody, State.group?_setGroup_of_id (g0 := g) ?_ rfl, rfl, rfl⟩
      split
      · rw [State.group?_id hg]
        exact hg
      · rw [State.group?_id hg]
        exact hg

end Sys2Proof.Machine

end


section
/-! # O29: the firmware's byte and the handler's page (R411, R415)

The look-up of a byte that faults stands in the core's TLB when the cause goes to the handler: where the die's TLB holds two
entries of the handler's page, the smaller first, the larger one that the byte was found by serves the handler's fetch then. -/

namespace Sys2Proof.Machine

-- The kernel evaluates the counterexample: one declaration at a time.
set_option Elab.async false

/-- The group in the supervisor, with a byte to store at 0x20000. -/
def groupAtByte : Group :=
  { Group.launched 2 (loadedTeam State.reset) (loadedLaunch State.reset) 0 0 0 0 with
    pc := 0x4000, mode := .supervisor, sset := some userShadow,
    firmware := some (.bytes plainHdr false .b32 (.v 6) ⟨.x 0, 0x20000⟩ [(0, 0)] [] none) }

/-- The first 64 KiB as they are; the first 2 MiB at another place, not to be written. -/
def staleEntries : List TlbEntry :=
  [⟨0, 0, false, 0, true, true, true, 0⟩, ⟨0, 0, true, 0x200000, true, true, false, 0⟩]

/-- A line that no handler may be entered at: its parity is right, but it is no target. -/
def plainLine : BitVec 512 :=
  lineWith 0 0

/-- The loaded machine with a trap handler at 0x8000 (R406), those entries in the TLB of die 0, and that group. -/
def stateAtByte : State :=
  { (((State.reset.loaded.writeNat 0x8000 64 targetLine.toNat).writeNat 0x208000 64 plainLine.toNat).modPart 0
      (fun p => { p with ptvec := 0x8000 })).modDie 0 (fun d => { d with tlb := staleEntries }) with
    groups := [groupAtByte], nextId := 4 }

/-- The mode of a group after a step. -/
def modeAfter (s : State) (id : Nat) : Option Mode :=
  match step s with
  | .next u => (u.group? id).map fun g => g.mode
  | _ => none

theorem modeAfter_eq {s u : State} {g : Group} {id : Nat} (hu : step s = .next u) (hg : u.group? id = some g) :
    modeAfter s id = some g.mode := by
  simp [modeAfter, hu, hg]

theorem modeAfter_byte : modeAfter stateAtByte 2 = some .user := by
  decide +kernel

theorem handlerOk_byte : stateAtByte.handlerOk groupAtByte 0x8000 = true := by
  decide +kernel

theorem emulating_byte : Claims.emulating stateAtByte groupAtByte (groupAtByte.restore userShadow userShadow.cause.x58) userShadow
    (.bytes plainHdr false .b32 (.v 6) ⟨.x 0, 0x20000⟩ [(0, 0)] [] none) :=
  ⟨rfl, rfl, by decide +kernel, rfl, rfl, rfl, rfl, rfl, rfl, rfl⟩

/-- Refutes O29: the handler is not entered, although its line is a target when the byte faults. -/
theorem not_misalignedAccesses : ¬ Obligations.MisalignedAccesses := by
  rintro ⟨-, -, -, -, hfail, -, -⟩
  obtain ⟨-, hfwd⟩ := hfail stateAtByte groupAtByte _ userShadow plainHdr false .b32 (.v 6) ⟨.x 0, 0x20000⟩ 0 0 [] [] none _ .perm
    emulating_byte rfl (by decide +kernel)
  obtain ⟨u, g', -, hu, hg', -, hmode, -⟩ := hfwd (fun h => Bool.noConfusion h) rfl (by decide +kernel) (by decide +kernel)
    (by decide +kernel)
  have hafter := (modeAfter_eq hu hg').symm.trans modeAfter_byte
  rw [hmode] at hafter
  exact absurd hafter (by decide)

end Sys2Proof.Machine

end


section
/-! # O37: a block that is longer than an `MMA` (R67, R331)

An `MMA` of FP32 has 16 products. Over records with blocks of 32 elements, which the statement allows, the model sums those 16
products as one block; the statement's sum, over the whole blocks, has none. -/

namespace Sys2Proof.Machine

-- The kernel evaluates the counterexample: one declaration at a time.
set_option Elab.async false

/-- A record with blocks of 32 elements. -/
def blockRecord : TBits :=
  0x30

theorem tBs_blockRecord : tBs blockRecord = 32 := by
  decide +kernel

/-- A share of B whose elements are NaNs. -/
def nanShare (member : Nat) : MmaPart :=
  { member := member, tile := 0, base := 0, posA := 0, b := List.replicate 8 (Vector.replicate 64 0x7FC00000) }

/-- An `MMA` of FP32 over such records. -/
def blockLatch : Latch :=
  { id := 5, ref := { ty := .f32, k := 16, za := false, ids := none, k0 := 0, posB := 0, scaleA := 0, scaleB := 0 },
    parts := [nanShare 0, nanShare 1], released := true, recA := some blockRecord, recB := some blockRecord, skipA := [],
    skipB := [], started := true, rowsA := [], abandoned := false }

/-- A gang of two members with a tile of zeros each. -/
def blockGang : Gang :=
  { id := 3, team := 1, members := [7, 8], per := 1, tiles := [[Tile.zero], [Tile.zero]], latches := [blockLatch],
    dissolving := [], subs := [] }

def blockTeam : Team :=
  { loadedTeam State.reset with id := 1 }

def stateAtMma : State :=
  { State.reset with gangs := [blockGang], teams := [blockTeam] }

/-- An accumulator of the first member after an `MMA` completes. -/
def accAfter (s : State) : Option Word32 :=
  match exec (.mmaComplete 3) s with
  | .next u => (u.gang? 3).map fun k => vlane (vget (k.tile 0 0).rows 0 vzero) 0
  | _ => none

theorem accAfter_eq {s u : State} {k : Gang} (hu : exec (.mmaComplete 3) s = .next u) (hk : u.gang? 3 = some k) :
    accAfter s = some (vlane (vget (k.tile 0 0).rows 0 vzero) 0) := by
  simp [accAfter, hu, hk]

theorem accAfter_mma : accAfter stateAtMma = some 0x7FC00000 := by
  decide +kernel

/-- The accumulators as the statement has them. -/
theorem mmaAcc_block : BitVec.ofNat 32 (accCode fmtF32 (Claims.mmaAcc blockTeam blockLatch 2 (nanShare 0) 0 0
    (fmtF32.decode (Claims.accBefore blockGang blockLatch (nanShare 0) 0 0))).1) = 0 := by
  decide +kernel

/-- Refutes O37. -/
theorem not_matrixProducts : ¬ Obligations.MatrixProducts := by
  rintro ⟨-, -, -, hfloat, -⟩
  have hjoined : ∀ j < 2, ∃ p ∈ blockLatch.parts, p.member = j ∧
      (j < (if 2 ≤ 3 then 2 else 4) → 16 / (if 2 ≤ 3 then 2 else 4) ≤ p.b.length) := by
    intro j hj
    refine ⟨nanShare j, ?_, rfl, fun _ => Nat.le_refl 8⟩
    interval_cases j
    · exact List.mem_cons_self
    · exact List.mem_cons_of_mem _ List.mem_cons_self
  have hblock : ∀ r, blockLatch.recA = some r → tBlk r ≠ 0 → tBs r ∈ [8, 16, 32] := by
    intro r hr _
    rw [← Option.some.inj hr, tBs_blockRecord]
    decide
  obtain ⟨u, k', hu, hk', -, -, hacc, -⟩ := hfloat stateAtMma blockGang blockLatch [] blockTeam 2
    (fun p row col => Claims.mmaAcc blockTeam blockLatch 2 p row col
      ((if blockLatch.ref.ty = .f64 then fmtF64 else fmtF32).decode (Claims.accBefore blockGang blockLatch p row col)))
    rfl (by simp [stateAtMma]) rfl rfl rfl rfl (by decide) (by decide) ⟨2, rfl⟩ rfl (by decide) (by decide)
    hjoined (by decide) (by decide) rfl (fun _ => rfl) (fun _ => rfl) hblock (fun _ _ _ => rfl)
  obtain ⟨hcell, -⟩ := hacc (nanShare 0) List.mem_cons_self 0 (by decide) 0 (by decide)
  have hafter := (accAfter_eq hu hk').symm.trans accAfter_mma
  have hzero := (hcell (by decide)).trans mmaAcc_block
  exact absurd ((congrArg some hzero).symm.trans hafter) (by decide)

end Sys2Proof.Machine

end


section
/-! # O46: a decode that looks up a poisoned entry of its table

The statement asks only that no unit of memory is poisoned. The entries of a decode table can carry poison of their own (R420), and
a decode that looks one up poisons its command, which the statement leaves as it was. -/

namespace Sys2Proof.Machine

-- The kernel evaluates the counterexample: one declaration at a time.
set_option Elab.async false

/-- A decoding `TLOAD` of one element, from byte 0 of the slice of core 0 to byte 256, whose saved table holds poison in entry 0, the
one that its stream names. -/
def badEntryCmd : Cmd :=
  { id := 7, core := 0, team := 2, launch := 1, cohort := 0, part := 0, issuer := 3, gid16 := 0,
    entry := BitVec.ofNat 256 (3 + 2 ^ 32 + 2 ^ 96 + LOCAL_BASE * 2 ^ 128 + (LOCAL_BASE + 256) * 2 ^ 192), index := 0,
    header := 0, recOff := 4096, idx := [], trec := some ⟨3, 0x4000⟩, tile := none, pages := [], tstamp := 0, seqno := 0,
    spord := 0, batch := none, started := true, landed := [], poison := false, decodeFail := false,
    dts := some [List.replicate 256 0x10000005], dtsBad := [(0, 0)], past := false }

/-- The engine holds that command alone. -/
def stateAtDecode : State :=
  { State.reset with cmds := [badEntryCmd] }

/-- The poison marks of the commands after the one unit of command 7 has landed. -/
def marksAfter (s : State) : Option (List Bool) :=
  match exec (.copyUnitLand 7 0) s with
  | .next u => some (u.cmds.map fun c => c.poison)
  | _ => none

theorem marksAfter_eq {s u : State} (hu : exec (.copyUnitLand 7 0) s = .next u) :
    marksAfter s = some (u.cmds.map fun c => c.poison) := by
  simp [marksAfter, hu]

theorem marksAfter_badEntry : marksAfter stateAtDecode = some [true] := by
  decide +kernel

theorem decoded_badEntry : Claims.decoded ((stateAtDecode.tablesOf badEntryCmd).getD (tEtab badEntryCmd.recBits) [])
    ((List.range (eAux badEntryCmd.entry)).map fun k => stateAtDecode.read8 (scrLoc 0 0 + k)) 8 [0x10000005] 0
    [5] := by
  refine ⟨?_, ?_, ?_, ?_, [5], [], rfl, rfl, ?_⟩ <;> decide +kernel

/-- Refutes O46: the marks of the commands, as the statement has them, are those of before. -/
theorem not_copiesRun : ¬ Obligations.CopiesRun := by
  rintro ⟨-, -, -, -, -, -, hdecode, -, -⟩
  have hunarmed : ∀ p, (stateAtDecode.part p).arm = false := by
    intro p
    show (vget (Vector.replicate 8 Partition.reset) p Partition.reset).arm = false
    rw [vget_replicate]
    rfl
  obtain ⟨u, hu, -, -, hcmds⟩ := hdecode stateAtDecode badEntryCmd (scrLoc 0 0) (scrLoc 0 256) 8 [0x10000005] [5]
    (by decide +kernel) rfl rfl (by decide +kernel) (by decide +kernel) rfl (by decide +kernel) hunarmed
    (by decide +kernel) (.inr rfl) (by decide +kernel) (by decide +kernel) decoded_badEntry (by decide +kernel)
  have hclean : (stateAtDecode.modCmd badEntryCmd.id (fun k => { k with landed := k.landed ++ [0] })).cmds.map
      (fun c => c.poison) = [false] := rfl
  have hmarks := (marksAfter_eq hu).symm.trans marksAfter_badEntry
  rw [hcmds, hclean] at hmarks
  exact absurd hmarks (by decide)

end Sys2Proof.Machine

end


section
/-! # O45: expert dispatch (R395 to R398) -/

namespace Sys2Proof.Machine

/-- With no watchpoint armed an engine operation hits nothing (R428). -/
theorem State.watchEngine_unarmed {s : State} (h : ∀ p, (s.part p).arm = false) (f : Fork) (l : List Range) :
    s.watchEngine f l = s := by
  unfold State.watchEngine
  simp only [h, Bool.false_eq_true, if_false]

/-- An instruction that completes, of user mode alone where `u` holds. -/
theorem exec_completes {s s' : State} {g g' : Group} {i : Instr} {h : Hdr} {u : Bool} {body : Body} {short : List RegWrite}
    {long : List LongOut} {ts : List Touch} (hx : exec i s = issue s i h u body) (hw : i.wellFormed = true)
    (hg : s.group? s.cur = some g) (hu : u = true → g.mode = .user)
    (hb : body s g = .ok { s := s', g := g', short := short, long := long, touches := ts }) :
    exec i s = .next (s'.finish g' h short long none none ts) := by
  rw [hx, issue_eq hg hw hu, hb, conclude_ok rfl rfl]

/-- An instruction that faults, of user mode alone where `u` holds. -/
theorem exec_traps {s : State} {g : Group} {i : Instr} {h : Hdr} {u : Bool} {body : Body} {t : Trap}
    (hx : exec i s = issue s i h u body) (hw : i.wellFormed = true) (hg : s.group? s.cur = some g)
    (hu : u = true → g.mode = .user) (hb : body s g = .error t) (ht : t.looks = []) :
    exec i s = .next (s.take { g with wait := none } t) := by
  rw [hx, issue_eq hg hw hu, hb]
  simp only [State.conclude, State.looked, ht, List.isEmpty_nil, if_true]

/-- An instruction that waits at its slot, of user mode alone where `u` holds. -/
theorem exec_parks {s s' : State} {g g' : Group} {i : Instr} {h : Hdr} {u : Bool} {body : Body} {w : Option Wait}
    (hx : exec i s = issue s i h u body) (hw : i.wellFormed = true) (hg : s.group? s.cur = some g)
    (hu : u = true → g.mode = .user) (hb : body s g = .ok { s := s', g := g', wait := w, hold := true }) :
    exec i s = .next ((if g.wait.isNone then s'.touch (g.core.getD 0) else s').setGroup { g' with wait := w }) := by
  rw [hx, issue_eq hg hw hu, hb]
  simp only [State.conclude, Bool.false_eq_true, if_false, if_true]

/-- Of an instruction that has done no lane yet, every contributor is still to do. -/
theorem Group.todo_fresh {g : Group} (h : Hdr) (hp : g.prog = 0) : g.todo h = lanesOf (g.contributors h) := by
  unfold Group.todo
  rw [hp, List.filter_eq_self]
  intro i _
  simp

/-- The first lane of a set that passes a test. -/
theorem find_lanesOf {m : Mask} {p : Nat → Bool} {i : Nat} (hi : m.getLsbD i = true) (hp : p i = true)
    (hbefore : ∀ j < i, m.getLsbD j = true → p j = false) : (lanesOf m).find? p = some i := by
  unfold lanesOf allLanes
  rw [List.find?_filter, List.find?_range_eq_some]
  refine ⟨by simp [hi, hp], List.mem_range.2 (BitVec.lt_of_getLsbD hi), fun j hj => ?_⟩
  cases hm : m.getLsbD j with
  | false => simp [hm]
  | true => simp [hm, hbefore j hj hm]

/-! ## Inboxes -/

theorem Opd.v_of_vMult {k : Nat} {o : Opd} (h : o.vMult k = true) : ∃ n, o = .v n := by
  cases o with
  | v n => exact ⟨n, rfl⟩
  | x | q | m | c | s | t => exact Bool.noConfusion h

theorem Group.inboxOf_toNat (g : Group) (n : BitVec 6) (i : Nat) :
    (g.inboxOf (.v n) i).toNat = (g.srcLane (.v n) 64 i).toNat := by
  rw [Group.inboxOf, BitVec.toNat_setWidth]
  exact Nat.mod_eq_of_lt (g.vCode_lt n 64 i)

theorem inboxOk_iff (va : Word64) :
    inboxOk va = true ↔ SRAM_BASE ≤ va.toNat ∧ va.toNat < SRAM_BASE + 0x2000_0000 ∧ va.toNat % 128 = 0 := by
  simp only [inboxOk, Bool.and_eq_true, decide_eq_true_eq, beq_iff_eq, and_assoc]

/-- The token that the k-th contributor sends. -/
def State.tokenOf (s : State) (g : Group) (grid : Nat) (fork : Fork) (a b : Opd) (lane k : Nat) : Token :=
  { id := s.nextId + k, die := dieOf (g.core.getD 0), grid := grid, sender := g.id, inbox := g.inboxOf b lane,
    dest := (s.scrOwner none (g.inboxOf b lane)).1, payload := g.payload a lane, srcid := g.gid16, stamp := s.time,
    fork := fork, seq := none }

theorem State.sendQueue_le (s : State) (die : Nat) (dest : Option Nat) : s.sendQueue die dest ≤ s.tokens.length :=
  List.length_filter_le _ _

/-- With room for all of them, every lane sends its token. -/
theorem State.sendLanes_room (g : Group) (grid : Nat) (fork : Fork) (a b : Opd) (lanes : List Nat) (s : State)
    (hroom : s.tokens.length + lanes.length ≤ 4096) :
    s.sendLanes g grid fork a b lanes =
      ({ s with tokens := s.tokens ++ lanes.zipIdx.map (fun p => s.tokenOf g grid fork a b p.1 p.2),
                nextId := s.nextId + lanes.length }, lanes, none) := by
  induction lanes generalizing s with
  | nil => simp [State.sendLanes]
  | cons i rest ih =>
    have hlt : ¬ 4096 ≤ s.sendQueue (dieOf (g.core.getD 0)) (s.scrOwner none (g.inboxOf b i)).1 := by
      have := s.sendQueue_le (dieOf (g.core.getD 0)) (s.scrOwner none (g.inboxOf b i)).1
      simp only [List.length_cons] at hroom
      omega
    have hnext : ({ s with tokens := s.tokens ++ [s.tokenOf g grid fork a b i 0], nextId := s.nextId + 1 } : State).tokens.length
        + rest.length ≤ 4096 := by
      simp only [List.length_append, List.length_cons, List.length_nil] at hroom ⊢
      omega
    have hids : ∀ p : Nat × Nat, ({ s with tokens := s.tokens ++ [s.tokenOf g grid fork a b i 0], nextId := s.nextId + 1 } :
        State).tokenOf g grid fork a b p.1 p.2 = s.tokenOf g grid fork a b p.1 (p.2 + 1) := by
      intro p
      simp only [State.tokenOf, Nat.add_assoc, Nat.add_comm 1]
      rfl
    have hsend := ih _ hnext
    unfold State.sendLanes
    dsimp only
    rw [if_neg hlt]
    change (match ({ s with tokens := s.tokens ++ [s.tokenOf g grid fork a b i 0], nextId := s.nextId + 1 } : State).sendLanes
      g grid fork a b rest with | (s', l, w) => (s', i :: l, w)) = _
    rw [hsend]
    simp only [hids, List.append_assoc, List.zipIdx_cons, List.map_cons, List.length_cons, List.cons_append, List.nil_append,
      Nat.add_assoc, Nat.add_comm 1, Nat.zero_add, Prod.mk.injEq, and_true]
    rw [← List.map_snd_add_zipIdx_eq_zipIdx (n := 1) (k := 0), List.map_map]
    rfl

/-- What `DCLOSE` leaves and returns, where the header of the inbox may be reached. -/
theorem dcloseBody_closes {s : State} {g : Group} {t : Team} {c off : Nat} (d a : Opd) (ht : s.team? g.team = some t)
    (hc : g.core = some c) (ha : (g.uni64 a).toNat = LOCAL_BASE + off) (hoff : off < 2 ^ 20)
    (hown : s.ownRange t c off 128 = true) (hp : s.poisonIn (scrLoc c off) 16 = none) :
    dcloseBody d a s g = .ok
      { s := s.writeNat (scrLoc c (off + 12)) 4 (s.readNat (scrLoc c (off + 4)) 4), g := g,
        touches := [⟨g.uni64 a + 12, 4, false, true⟩],
        long := [{ writes := g.writesTo d false 64 g.exec (fun _ => BitVec.ofNat 128 (s.readNat (scrLoc c (off + 4)) 4)),
                   gate := some (off, BitVec.ofNat 32 (s.readNat (scrLoc c (off + 4)) 4)) }] } := by
  have hsub : LOCAL_BASE + off - LOCAL_BASE = off := Nat.add_sub_cancel_left _ _
  have hin : (decide (LOCAL_BASE + off < LOCAL_BASE) || decide (LOCAL_BASE + 2 ^ 20 ≤ LOCAL_BASE + off)) = false := by
    simp only [Bool.or_eq_false_iff, decide_eq_false_iff_not]
    omega
  unfold dcloseBody
  simp only [ht, hc, ha, hsub, Option.getD_some, hin, hown, hp, Bool.not_true, Bool.or_false, Option.isSome_none,
    Bool.false_eq_true, if_false]

/-! ## Tokens -/

/-- The first of its sender and inbox that has no sequence yet arrives (R397). -/
theorem exec_arrives {s : State} {t : Token} (hf : s.tokens.find? (fun x => x.id == t.id) = some t) (hseq : t.seq = none)
    (hfirst : ∀ x ∈ s.tokens.takeWhile (fun x => x.id != t.id), x.sender ≠ t.sender ∨ x.inbox ≠ t.inbox ∨ x.seq ≠ none) :
    exec (.dispatchTokenArrive t.id) s = .next (s.arriveToken t) := by
  have hall : ((s.tokens.takeWhile (fun x => x.id != t.id)).all (fun x =>
      x.sender != t.sender || x.inbox != t.inbox || x.seq.isSome)) = true := by
    refine List.all_eq_true.2 fun x hx => ?_
    have hne := hfirst x hx
    rw [Option.ne_none_iff_isSome] at hne
    simpa [or_assoc] using hne
  show execDispatchTokenArrive t.id s = _
  unfold execDispatchTokenArrive
  simp only [hf, hseq, hall, Option.isNone_none, Bool.and_self, if_true]

theorem exec_delivers {s : State} {t : Token} {n : Word32} (hf : s.tokens.find? (fun x => x.id == t.id) = some t)
    (hseq : t.seq = some n) : exec (.dispatchTokenDeliver t.id) s = .next (s.deliverToken t n) := by
  show execDispatchTokenDeliver t.id s = _
  unfold execDispatchTokenDeliver
  simp only [hf, hseq]

/-- What is logged of a token that is discarded (R397, R449). -/
theorem State.dropToken_logs (s : State) (t : Token) :
    ∃ v : LogEvent, v.kind = 8 ∧ v.aux = t.srcid.toNat ∧ v.data = bytesOf 8 t.inbox.toNat ++ bytesOf 8 t.stamp.toNat ∧
      s.dropToken t = State.log { s with tokens := s.tokens.filter (fun x => x.id != t.id) } v :=
  ⟨_, rfl, rfl, rfl, rfl⟩

/-- Settles O45. -/
theorem expertDispatch : Obligations.ExpertDispatch := by
  refine ⟨⟨?_, ?_, ?_⟩, ?_, ?_, ?_, ?_, ?_, ?_⟩
  · intro s s1 g h a b t toks hw hg hm hheld hregs ht hprog hroom hin htoks hs1
    obtain ⟨n, rfl⟩ : ∃ n, b = .v n := by
      simp only [Instr.wellFormed, Bool.and_eq_true] at hw
      exact Opd.v_of_vMult hw.2
    obtain ⟨k, rfl⟩ : ∃ k, a = .v k := by
      simp only [Instr.wellFormed, Bool.and_eq_true] at hw
      exact Opd.v_of_vMult hw.1.2
    have hlen : (lanesOf (g.contributors h)).length ≤ 64 :=
      (List.length_filter_le _ _).trans (by decide)
    have hfind : (lanesOf (g.contributors h)).find? (fun i => !inboxOk (g.inboxOf (.v n) i)) = none := by
      refine List.find?_eq_none.2 fun i hi => ?_
      have hok : inboxOk (g.inboxOf (.v n) i) = true := by
        rw [inboxOk_iff, Group.inboxOf_toNat]
        exact hin i ((mem_lanesOf _ _).1 hi)
      simp [hok]
    refine exec_completes (body := ordered (dsendBody h (.v k) (.v n))) rfl hw hg (fun _ => hm)
      ((holding_free hheld).trans ?_)
    unfold dsendBody
    dsimp only [bind, Except.bind]
    rw [hregs]
    dsimp only
    rw [Group.todo_fresh h hprog, hfind]
    dsimp only
    rw [ht, State.sendLanes_room _ _ _ _ _ _ _ (by omega)]
    rw [hs1, htoks, List.length_map, List.length_zipIdx]
    rfl
  · intro s g h a b i hw hg hm hheld hregs hprog hi hbefore hbad
    obtain ⟨n, rfl⟩ : ∃ n, b = .v n := by
      simp only [Instr.wellFormed, Bool.and_eq_true] at hw
      exact Opd.v_of_vMult hw.2
    have hfind : (lanesOf (g.contributors h)).find? (fun i => !inboxOk (g.inboxOf (.v n) i)) = some i := by
      refine find_lanesOf hi ?_ fun j hj hcon => ?_
      · rw [Bool.not_eq_true', ← Bool.not_eq_true, inboxOk_iff, Group.inboxOf_toNat]
        omega
      · rw [Bool.not_eq_false', inboxOk_iff, Group.inboxOf_toNat]
        exact hbefore j hj hcon
    refine exec_traps (body := ordered (dsendBody h a (.v n))) rfl hw hg (fun _ => hm) ((holding_free hheld).trans ?_) rfl
    unfold dsendBody
    dsimp only [bind, Except.bind]
    rw [hregs]
    dsimp only
    rw [Group.todo_fresh h hprog, hfind]
    rfl
  · intro s g h d a t c off n hw hg hheld ht hc ha hoff hown hp hn
    subst hn
    exact exec_accesses rfl hw hg ((holding_free hheld).trans (dcloseBody_closes d a ht hc ha hoff hown hp))
  · intro s s1 t tm c off n ⟨hf, hteam, hcore, hgrid, hoff⟩ hseq hfirst hvalid harm hn hs1
    have hinbox : inboxOff t.inbox = off := hoff.symm
    rw [exec_arrives hf hseq hfirst]
    unfold State.arriveToken
    simp only [hteam, hgrid, hcore, hinbox, hvalid, ne_eq, not_true_eq_false, if_false, Bool.not_true, Bool.false_eq_true]
    rw [State.watchEngine_unarmed (by intro p; exact harm p), hs1, hn]
    simp only [beq_iff_eq]
  · intro s t hf hseq hfirst hgone
    obtain ⟨v, hk, ha, hd, hdrop⟩ := State.dropToken_logs s t
    refine ⟨v, hk, ha, hd, ?_⟩
    rw [exec_arrives hf hseq hfirst, ← hdrop]
    unfold State.arriveToken
    rcases hgone with hnone | ⟨tm, hteam, hother⟩
    · rw [hnone]
    · rw [hteam]
      dsimp only
      by_cases hgrid : tm.launch = t.grid
      · obtain ⟨c, hcore, hbad⟩ := hother.resolve_left (not_not_intro hgrid)
        have hbad' : s.inboxValid tm c (inboxOff t.inbox) = false := hbad
        rw [if_neg (not_not_intro hgrid), hcore]
        dsimp only
        rw [hbad']
        rfl
      · rw [if_pos hgrid]
  · intro s t tm c off size delv n ⟨hf, hteam, hcore, hgrid, hoff⟩ hseq harm hsize hdelv
    have hinbox : inboxOff t.inbox = off := hoff.symm
    rw [exec_delivers hf hseq]
    unfold State.deliverToken
    simp only [hteam, hcore, hinbox, ← hsize, ← hdelv]
    refine ⟨fun hd hroom => ?_, fun hnot => ?_⟩
    · rw [if_neg (by simpa [hd] using hroom), State.watchEngine_unarmed (by intro p; exact harm p), hd]
      rfl
    · rw [if_pos (by simpa using hnot)]
  · intro s t n hf hteam hseq
    rw [exec_delivers hf hseq]
    unfold State.deliverToken
    rw [hteam]
  · intro s g since inbox c lane hg hc hwait hlong
    show execDispstall g.id s = _
    unfold execDispstall
    simp only [hg, hwait, hc, hlong, Option.isSome_some, Bool.not_false, Bool.and_self, decide_true, if_true]
  · intro s g since header notw c hg hc hwait hnow hlong
    show execRingstall g.id s = _
    unfold execRingstall
    simp only [hg, hwait, hc, hlong, hnow, Option.getD_some, Option.isSome_some, Bool.not_false, Bool.and_self, decide_true, if_true]

end Sys2Proof.Machine

end


section
/-! # O44: inter-partition queues (R392 to R394) -/

namespace Sys2Proof.Machine

/-! ## Vectors -/

theorem vset_vget {α : Type} {n : Nat} (v : Vector α n) (i : Nat) (d : α) (h : i < n) : vset v i (vget v i d) = v := by
  unfold vset vget
  ext j hj
  rw [Vector.getElem_setIfInBounds]
  split
  · next hij =>
    subst hij
    simp [List.getD_eq_getElem?_getD, hj]
  · rfl

theorem vset_vset {α : Type} {n : Nat} (v : Vector α n) (i : Nat) (a b : α) : vset (vset v i a) i b = vset v i b := by
  unfold vset
  ext j hj
  simp only [Vector.getElem_setIfInBounds]
  split <;> rfl

/-! ## A queue in the state -/

theorem State.ipq_setIpq (s : State) {q : Nat} (hq : q < 1024) (x : IpQueue) : (s.setIpq q x).ipq q = x := by
  unfold State.ipq State.setIpq
  rw [vget_vset _ _ _ _ hq, if_pos rfl]

theorem State.setIpq_setIpq (s : State) (q : Nat) (x y : IpQueue) : (s.setIpq q x).setIpq q y = s.setIpq q y := by
  unfold State.setIpq
  rw [vset_vset]

theorem State.setIpq_ipq (s : State) {q : Nat} (hq : q < 1024) : s.setIpq q (s.ipq q) = s := by
  unfold State.setIpq State.ipq
  rw [vset_vget _ _ _ hq]

theorem queueOk_iff (s : State) (g : Group) (v : Word64) (push : Bool) :
    s.queueOk g v push = true ↔ v.toNat < 1024 ∧ (s.ipq v.toNat).en = true ∧
      (if push then (s.ipq v.toNat).prod else (s.ipq v.toNat).cons).getLsbD (s.accessor g).part = true := by
  simp only [State.queueOk, Bool.and_eq_true, decide_eq_true_eq, and_assoc]

/-! ## The lanes that are done, and what is returned to them -/

theorem lanesDone_map (m : Mask) {f : Nat → QLane} (hf : ∀ i, (f i).lane = i) : lanesDone ((lanesOf m).map f) = m := by
  refine BitVec.eq_of_getLsbD_eq fun i hi => ?_
  rw [lanesDone, getLsbD_maskOf, Bool.eq_iff_iff]
  simp [hi, hf, mem_lanesOf]

theorem lanesDone_nil : lanesDone [] = 0 := by
  decide

/-- Helper lanes are those of `active` that do not contribute. -/
theorem Group.contributors_or_helpers (g : Group) (h : Hdr) : g.contributors h ||| (g.active h &&& g.helper) = g.active h := by
  refine BitVec.eq_of_getLsbD_eq fun i hi => ?_
  simp only [Group.contributors, BitVec.getLsbD_or, BitVec.getLsbD_and, BitVec.getLsbD_not, hi, decide_true, Bool.true_and]
  cases (g.active h).getLsbD i <;> cases g.helper.getLsbD i <;> rfl

/-- The lane of a set that `find?` meets under its number. -/
theorem find_lane_map {m : Mask} {f : Nat → QLane} (hf : ∀ i, (f i).lane = i) (i : Nat) :
    ((lanesOf m).map f).find? (fun x => x.lane == i) = if m.getLsbD i then some (f i) else none := by
  split
  · next hi =>
    have hfind : (lanesOf m).find? (fun j => (f j).lane == i) = some i := by
      refine find_lanesOf hi (by simp [hf]) fun j hj _ => ?_
      simp only [hf, beq_eq_false_iff_ne]
      omega
    rw [List.find?_map]
    exact congrArg (Option.map f) hfind
  · next hi =>
    rw [List.find?_eq_none]
    simp only [List.mem_map, mem_lanesOf, beq_iff_eq, forall_exists_index, and_imp]
    rintro x j hj rfl hij
    rw [hf] at hij
    exact hi (hij ▸ hj)

/-- The statuses of an instruction that has done all its contributors: one for them, 2 for its helper lanes. -/
theorem Group.statusWrites_all (g : Group) (h : Hdr) (d : Opd) (st : Code) {f : Nat → QLane} (hlane : ∀ i, (f i).lane = i)
    (hst : ∀ i, BitVec.ofNat 128 (f i).status = st) :
    g.statusWrites d ((lanesOf (g.contributors h)).map f) (g.active h &&& g.helper) =
      if g.active h = 0 then [] else
        g.writesTo d false 32 (g.active h) (fun i => if (g.contributors h).getLsbD i then st else 2) := by
  unfold Group.statusWrites
  dsimp only
  rw [lanesDone_map _ hlane, g.contributors_or_helpers]
  split
  · rfl
  · congr 1
    funext i
    rw [find_lane_map hlane]
    by_cases hi : (g.contributors h).getLsbD i = true
    · simp only [hi, if_true, hst]
    · simp only [hi, Bool.false_eq_true, if_false]

theorem Group.statusWrites_none (g : Group) (d : Opd) : g.statusWrites d [] 0 = [] := by
  unfold Group.statusWrites
  rw [lanesDone_nil]
  rfl

theorem Group.popWrites_none (g : Group) (d : Opd) (stamp : Option Opd) {l : List QLane} (h : ∀ x ∈ l, x.entry = none) :
    g.popWrites d stamp l = [] := by
  have hgot : l.filter (fun x => x.entry.isSome) = [] := by
    refine List.filter_eq_nil_iff.2 fun x hx => ?_
    simp [h x hx]
  unfold Group.popWrites
  dsimp only
  rw [hgot, lanesDone_nil]
  rfl

/-- The stamp of an entry: source, sequence number and time (R393). -/
theorem stamp_eq (e : QEntry) : (e.srcid ++ e.seqno ++ e.tstamp : BitVec 128) =
    BitVec.ofNat 128 (e.tstamp.toNat + 2 ^ 64 * e.seqno.toNat + 2 ^ 112 * e.srcid.toNat) := by
  refine BitVec.eq_of_toNat_eq ?_
  have ht := e.tstamp.isLt
  have hq := e.seqno.isLt
  have hs := e.srcid.isLt
  rw [BitVec.toNat_ofNat, BitVec.toNat_append, BitVec.toNat_append, ← Nat.shiftLeft_add_eq_or_of_lt ht,
    ← Nat.shiftLeft_add_eq_or_of_lt hq, Nat.shiftLeft_eq, Nat.shiftLeft_eq]
  omega

/-- What the lanes that have popped their entries get. -/
theorem Group.popWrites_all (g : Group) (d : Opd) (stamp : Option Opd) (m : Mask) (ent : Nat → QEntry) :
    g.popWrites d stamp ((lanesOf m).map (fun i => ⟨i, 0, some (ent i)⟩)) = if m = 0 then [] else
      g.writesTo d false 128 m (fun i => (ent i).payload) ++
      stamp.toList.flatMap (fun o => g.writesTo o false 128 m (fun i =>
        BitVec.ofNat 128 ((ent i).tstamp.toNat + 2 ^ 64 * (ent i).seqno.toNat + 2 ^ 112 * (ent i).srcid.toNat))) := by
  have hgot : ((lanesOf m).map (fun i => (⟨i, 0, some (ent i)⟩ : QLane))).filter (fun x => x.entry.isSome) =
      (lanesOf m).map (fun i => ⟨i, 0, some (ent i)⟩) := by
    refine List.filter_eq_self.2 fun x hx => ?_
    obtain ⟨i, -, rfl⟩ := List.mem_map.1 hx
    rfl
  unfold Group.popWrites
  dsimp only
  rw [hgot, lanesDone_map _ (fun _ => rfl)]
  split
  · rfl
  · next hne =>
    have hfind (i : Nat) (hi : m.getLsbD i = true) :
        ((lanesOf m).map (fun i => (⟨i, 0, some (ent i)⟩ : QLane))).find? (fun x => x.lane == i) = some ⟨i, 0, some (ent i)⟩ := by
      rw [find_lane_map (fun _ => rfl), if_pos hi]
    congr 1
    · refine g.writesTo_lanes d false 128 hne fun i hi => ?_
      rw [hfind i hi]
      rfl
    · cases stamp with
      | none => rfl
      | some o =>
        rw [Option.toList_some, List.flatMap_singleton]
        refine g.writesTo_lanes o false 128 hne fun i hi => ?_
        rw [hfind i hi]
        exact stamp_eq (ent i)

/-! ## Pushing -/

/-- The entry that a lane pushes as the k-th of its instruction. -/
def State.entryOf (s : State) (g : Group) (c : Nat) (a : Opd) (lane k : Nat) : QEntry :=
  { payload := g.payload a lane, tstamp := s.time, seqno := vget (s.core c).slotSeq g.slot 0 + BitVec.ofNat 48 (k + 1),
    srcid := g.gid16, poison := false }

/-- The state after one lane has pushed. -/
def State.pushed (s : State) (g : Group) (c q : Nat) (a : Opd) (lane : Nat) : State :=
  (s.modCore c (fun co => { co with
    slotSeq := vset co.slotSeq g.slot (vget (s.core c).slotSeq g.slot 0 + 1) })).setIpq q
      { s.ipq q with entries := (s.ipq q).entries ++ [s.entryOf g c a lane 0] }

theorem State.pushLanes_cons {g : Group} {c q : Nat} {s : State} (hc : g.core = some c) (wait : Bool) (a : Opd) (i : Nat)
    (rest : List Nat) (hroom : (s.ipq q).entries.length < 2 ^ (s.ipq q).depthl.toNat) :
    s.pushLanes g q wait a (i :: rest) =
      (((s.pushed g c q a i).pushLanes g q wait a rest).1,
        ⟨i, 0, none⟩ :: ((s.pushed g c q a i).pushLanes g q wait a rest).2.1,
        ((s.pushed g c q a i).pushLanes g q wait a rest).2.2) := by
  have hseq : s.nextSeq g = (vget (s.core c).slotSeq g.slot 0 + 1, s.modCore c (fun co =>
      { co with slotSeq := vset co.slotSeq g.slot (vget (s.core c).slotSeq g.slot 0 + 1) })) := by
    unfold State.nextSeq
    rw [hc]
  rw [State.pushLanes]
  dsimp only
  rw [if_neg (by omega), hseq]
  rfl

theorem State.slotSeq_pushed (s : State) (g : Group) {c : Nat} (hlt : c < 272) (q : Nat) (a : Opd) (lane : Nat) :
    ((s.pushed g c q a lane).core c).slotSeq = vset (s.core c).slotSeq g.slot (vget (s.core c).slotSeq g.slot 0 + 1) := by
  show ((s.modCore c _).core c).slotSeq = _
  rw [s.core_modCore hlt, if_pos rfl]

theorem State.entryOf_pushed (s : State) {g : Group} {c : Nat} (hlt : c < 272) (hslot : g.slot < 128) (q : Nat) (a : Opd)
    (i lane k : Nat) : (s.pushed g c q a i).entryOf g c a lane k = s.entryOf g c a lane (k + 1) := by
  have hnum : vget ((s.pushed g c q a i).core c).slotSeq g.slot 0 + BitVec.ofNat 48 (k + 1) =
      vget (s.core c).slotSeq g.slot 0 + BitVec.ofNat 48 (k + 1 + 1) := by
    rw [s.slotSeq_pushed g hlt, vget_vset _ _ _ _ hslot, if_pos rfl, BitVec.ofNat_add (k + 1) 1, BitVec.add_assoc,
      BitVec.add_comm (BitVec.ofNat 48 (k + 1))]
    rfl
  unfold State.entryOf
  rw [hnum]
  rfl

/-- With room for all of them, every lane pushes its entry. -/
theorem State.pushLanes_room {g : Group} {c q : Nat} (hc : g.core = some c) (hlt : c < 272) (hslot : g.slot < 128)
    (hq : q < 1024) (wait : Bool) (a : Opd) (lanes : List Nat) (s : State)
    (hroom : (s.ipq q).entries.length + lanes.length ≤ 2 ^ (s.ipq q).depthl.toNat) :
    ∃ s1 : State, s.pushLanes g q wait a lanes = (s1, lanes.map (fun i => ⟨i, 0, none⟩), false) ∧
      s1 = { s with ipqs := s1.ipqs, cores := s1.cores } ∧
      s1.ipq q = { s.ipq q with
        entries := (s.ipq q).entries ++ lanes.zipIdx.map (fun p => s.entryOf g c a p.1 p.2) } ∧
      (s1.core c).slotSeq = vset (s.core c).slotSeq g.slot
        (vget (s.core c).slotSeq g.slot 0 + BitVec.ofNat 48 lanes.length) := by
  induction lanes generalizing s with
  | nil =>
    refine ⟨s, rfl, rfl, by simp, ?_⟩
    simp only [List.length_nil, BitVec.ofNat_eq_ofNat, BitVec.add_zero]
    exact (vset_vget _ _ _ hslot).symm
  | cons i rest ih =>
    have hlen : (s.ipq q).entries.length + (rest.length + 1) ≤ 2 ^ (s.ipq q).depthl.toNat := hroom
    have hipq : (s.pushed g c q a i).ipq q = { s.ipq q with entries := (s.ipq q).entries ++ [s.entryOf g c a i 0] } :=
      State.ipq_setIpq _ hq _
    obtain ⟨s1, hpush, hs1, hnew, hseq⟩ := ih (s.pushed g c q a i) (by
      rw [hipq]
      simp only [List.length_append, List.length_singleton]
      omega)
    refine ⟨s1, ?_, hs1, ?_, ?_⟩
    · rw [State.pushLanes_cons hc wait a i rest (by omega), hpush]
      rfl
    · rw [hnew, hipq]
      simp only [State.entryOf_pushed s hlt hslot, List.append_assoc, List.zipIdx_cons, List.map_cons, List.singleton_append]
      rw [← List.map_snd_add_zipIdx_eq_zipIdx (n := 1) (k := 0), List.map_map]
      rfl
    · rw [hseq, s.slotSeq_pushed g hlt, vset_vset, vget_vset _ _ _ _ hslot, if_pos rfl, List.length_cons,
        BitVec.ofNat_add rest.length 1, BitVec.add_assoc, BitVec.add_comm (BitVec.ofNat 48 rest.length)]
      rfl

/-- Into a full queue no lane pushes, nor waits without `.WAIT`. -/
theorem State.pushLanes_full {s : State} {g : Group} {q : Nat} (hfull : 2 ^ (s.ipq q).depthl.toNat ≤ (s.ipq q).entries.length)
    (a : Opd) (lanes : List Nat) :
    s.pushLanes g q false a lanes = (s, lanes.map (fun i => ⟨i, 1, none⟩), false) := by
  induction lanes with
  | nil => rfl
  | cons i rest ih =>
    rw [State.pushLanes]
    dsimp only
    rw [if_pos hfull, ih]
    rfl

theorem State.pushLanes_waits {s : State} {g : Group} {q : Nat} (hfull : 2 ^ (s.ipq q).depthl.toNat ≤ (s.ipq q).entries.length)
    (a : Opd) {lanes : List Nat} (hne : lanes ≠ []) : s.pushLanes g q true a lanes = (s, [], true) := by
  obtain ⟨i, rest, rfl⟩ := List.exists_cons_of_ne_nil hne
  rw [State.pushLanes]
  dsimp only
  rw [if_pos hfull]
  rfl

/-! ## Popping -/

/-- With enough entries, none of them poisoned, every lane pops the oldest that is left. -/
theorem State.popLanes_enough {q : Nat} (hq : q < 1024) (wait : Bool) (ent : Nat → QEntry) (lanes : List Nat) (s : State)
    (hent : ∀ (j lane : Nat), lanes[j]? = some lane → (s.ipq q).entries[j]? = some (ent lane) ∧ (ent lane).poison = false) :
    s.popLanes q wait lanes =
      (s.setIpq q { s.ipq q with entries := (s.ipq q).entries.drop lanes.length },
        lanes.map (fun i => ⟨i, 0, some (ent i)⟩), .done) := by
  induction lanes generalizing s with
  | nil =>
    rw [List.length_nil, List.drop_zero]
    exact congrArg (fun u => (u, _, _)) (s.setIpq_ipq hq).symm
  | cons i rest ih =>
    obtain ⟨hfirst, hclean⟩ := hent 0 i rfl
    obtain ⟨ys, hys⟩ : ∃ ys, (s.ipq q).entries = ent i :: ys := by
      cases he : (s.ipq q).entries with
      | nil => simp [he] at hfirst
      | cons y ys =>
        rw [he] at hfirst
        exact ⟨ys, by rw [← Option.some.inj hfirst]⟩
    have hipq := s.ipq_setIpq hq { s.ipq q with entries := ys }
    have hrest := ih (s.setIpq q { s.ipq q with entries := ys }) fun j lane hj => by
      rw [hipq]
      have := hent (j + 1) lane hj
      rwa [hys] at this
    rw [hipq, State.setIpq_setIpq] at hrest
    rw [State.popLanes]
    dsimp only
    rw [hys]
    dsimp only
    rw [hclean, hrest]
    rfl

theorem State.popLanes_empty {s : State} {q : Nat} (hempty : (s.ipq q).entries = []) (lanes : List Nat) :
    s.popLanes q false lanes = (s, lanes.map (fun i => ⟨i, 1, none⟩), .done) := by
  induction lanes with
  | nil => rfl
  | cons i rest ih =>
    rw [State.popLanes]
    dsimp only
    rw [hempty]
    dsimp only
    rw [if_neg Bool.false_ne_true, ih]
    rfl

theorem State.popLanes_waits {s : State} {q : Nat} (hempty : (s.ipq q).entries = []) {lanes : List Nat} (hne : lanes ≠ []) :
    s.popLanes q true lanes = (s, [], .waits) := by
  obtain ⟨i, rest, rfl⟩ := List.exists_cons_of_ne_nil hne
  rw [State.popLanes]
  dsimp only
  rw [hempty]
  rfl

/-! ## The two instructions -/

theorem lanesOf_ne_nil {m : Mask} (h : m ≠ 0) : lanesOf m ≠ [] := by
  obtain ⟨i, hi⟩ := (ne_zero_iff_exists_lane m).1 h
  exact List.ne_nil_of_mem ((mem_lanesOf _ _).2 hi)

/-- A `QPUSH` of a group that may push goes lane by lane. -/
theorem qpushBody_runs {s : State} {g : Group} (h : Hdr) (wait : Bool) {d a : Opd} (e : Opd)
    (hregs : g.checkHeld [(d, 32), (a, 128)] = .ok ()) (hok : s.queueOk g (g.uni64 e) true = true) (hp : g.prog = 0)
    {s1 : State} {l : List QLane}
    (hrun : s.pushLanes g (g.uni64 e).toNat wait a (lanesOf (g.contributors h)) = (s1, l, false)) :
    qpushBody h wait d a e s g = .ok { s := s1, g := g, long := [{ writes := g.statusWrites d l (g.active h &&& g.helper) }] } := by
  unfold qpushBody
  dsimp only [bind, Except.bind]
  rw [hregs]
  dsimp only
  rw [hok, g.todo_fresh h hp, hrun]
  rfl

theorem qpushBody_waits {s : State} {g : Group} (h : Hdr) {d a : Opd} (e : Opd)
    (hregs : g.checkHeld [(d, 32), (a, 128)] = .ok ()) (hok : s.queueOk g (g.uni64 e) true = true) (hp : g.prog = 0)
    (hrun : s.pushLanes g (g.uni64 e).toNat true a (lanesOf (g.contributors h)) = (s, [], true)) :
    ∃ g1 : Group, g1.id = g.id ∧ g1.pc = g.pc ∧
      qpushBody h true d a e s g = .ok { s := s, g := g1, wait := some .queue, hold := true } := by
  refine ⟨{ g with prog := g.prog ||| lanesDone [] }, rfl, rfl, ?_⟩
  unfold qpushBody
  dsimp only [bind, Except.bind]
  rw [hregs]
  dsimp only
  rw [hok, g.todo_fresh h hp, hrun]
  dsimp only
  rw [g.statusWrites_none]
  rfl

theorem qpopBody_runs {s : State} {g : Group} (h : Hdr) (wait : Bool) {stamp : Option Opd} {d b : Opd} (e : Opd)
    (hregs : g.checkHeld ([(d, 128), (b, 32)] ++ stamp.toList.map (fun o => (o, 128))) = .ok ())
    (hok : s.queueOk g (g.uni64 e) false = true) (hp : g.prog = 0) {s1 : State} {l : List QLane}
    (hrun : s.popLanes (g.uni64 e).toNat wait (lanesOf (g.contributors h)) = (s1, l, .done)) :
    qpopBody h wait stamp d b e s g = .ok { s := s1, g := g, long :=
      [{ writes := g.popWrites d stamp l ++ g.statusWrites b l (g.active h &&& g.helper) }] } := by
  unfold qpopBody
  dsimp only [bind, Except.bind]
  split
  · next err herr =>
    have herr' : g.checkHeld ([(d, 128), (b, 32)] ++ stamp.toList.map (fun o => (o, 128))) = .error err := by
      cases stamp <;> exact herr
    cases hregs.symm.trans herr'
  next =>
  rw [hok, g.todo_fresh h hp, hrun]
  rfl

theorem qpopBody_waits {s : State} {g : Group} (h : Hdr) {stamp : Option Opd} {d b : Opd} (e : Opd)
    (hregs : g.checkHeld ([(d, 128), (b, 32)] ++ stamp.toList.map (fun o => (o, 128))) = .ok ())
    (hok : s.queueOk g (g.uni64 e) false = true) (hp : g.prog = 0)
    (hrun : s.popLanes (g.uni64 e).toNat true (lanesOf (g.contributors h)) = (s, [], .waits)) :
    ∃ g1 : Group, g1.id = g.id ∧ g1.pc = g.pc ∧
      qpopBody h true stamp d b e s g = .ok { s := s, g := g1, wait := some .queue, hold := true } := by
  refine ⟨{ g with prog := g.prog ||| lanesDone [] }, rfl, rfl, ?_⟩
  unfold qpopBody
  dsimp only [bind, Except.bind]
  split
  · next err herr =>
    have herr' : g.checkHeld ([(d, 128), (b, 32)] ++ stamp.toList.map (fun o => (o, 128))) = .error err := by
      cases stamp <;> exact herr
    cases hregs.symm.trans herr'
  next =>
  rw [hok, g.todo_fresh h hp, hrun]
  dsimp only
  rw [g.statusWrites_none, g.popWrites_none d stamp (List.forall_mem_nil _)]
  rfl

theorem qpushBody_denied {s : State} {g : Group} (h : Hdr) (wait : Bool) {d a : Opd} (e : Opd)
    (hregs : g.checkHeld [(d, 32), (a, 128)] = .ok ()) (hok : s.queueOk g (g.uni64 e) true = false) :
    qpushBody h wait d a e s g = .error (trapOf .qperm) := by
  unfold qpushBody
  dsimp only [bind, Except.bind]
  rw [hregs]
  dsimp only
  rw [hok]
  rfl

theorem qpopBody_denied {s : State} {g : Group} (h : Hdr) (wait : Bool) {stamp : Option Opd} {d b : Opd} (e : Opd)
    (hregs : g.checkHeld ([(d, 128), (b, 32)] ++ stamp.toList.map (fun o => (o, 128))) = .ok ())
    (hok : s.queueOk g (g.uni64 e) false = false) : qpopBody h wait stamp d b e s g = .error (trapOf .qperm) := by
  unfold qpopBody
  dsimp only [bind, Except.bind]
  split
  · next err herr =>
    have herr' : g.checkHeld ([(d, 128), (b, 32)] ++ stamp.toList.map (fun o => (o, 128))) = .error err := by
      cases stamp <;> exact herr
    cases hregs.symm.trans herr'
  next =>
  rw [hok]
  rfl

/-- A queue that may not be used is out of range, off or not the partition's. -/
theorem denied {v : Nat} {en may : Bool} (hv : v < 1024) (hen : en = true) (hmay : may = true)
    (h : 1024 ≤ v ∨ en = false ∨ may = false) : False := by
  rcases h with hlarge | hoff | hno
  · omega
  · exact Bool.noConfusion (hen.symm.trans hoff)
  · exact Bool.noConfusion (hmay.symm.trans hno)

/-- A group that waits for a queue stays at its slot, and no queue changes. -/
theorem waits_queue {s : State} {g g1 : Group} {i : Instr} {h : Hdr} {u : Bool} {body : Body} (hx : exec i s = issue s i h u body)
    (hw : i.wellFormed = true) (hg : s.group? s.cur = some g) (hu : u = true → g.mode = .user) (hid : g1.id = g.id)
    (hpc : g1.pc = g.pc) (hb : body s g = .ok { s := s, g := g1, wait := some .queue, hold := true }) :
    ∃ t g', exec i s = .next t ∧ t.group? g.id = some g' ∧ g'.pc = g.pc ∧ g'.wait = some .queue ∧ t.ipqs = s.ipqs := by
  have hself : s.group? g1.id = some g := by
    rw [hid, State.group?_id hg]
    exact hg
  refine ⟨_, { g1 with wait := some .queue }, exec_parks hx hw hg hu hb, ?_, hpc, rfl, ?_⟩
  · rw [← hid]
    split
    · exact State.group?_setGroup_self (g := { g1 with wait := some .queue }) hself
    · exact State.group?_setGroup_self (g := { g1 with wait := some .queue }) hself
  · split <;> rfl

/-- Settles O44. -/
theorem partitionQueues : Obligations.PartitionQueues := by
  refine ⟨?_, ?_, ?_, ?_⟩
  · intro s g h wait d a e x c hw hg hm hheld hregs hq hx hen hmay hprog hc hlt hslot
    subst hx
    obtain ⟨n, rfl⟩ : ∃ n, a = .v n := by
      simp only [Instr.wellFormed, Bool.and_eq_true] at hw
      exact Opd.v_of_vMult hw.1.2
    have hok : s.queueOk g (g.uni64 e) true = true := (queueOk_iff _ _ _ _).2 ⟨hq, hen, hmay⟩
    refine ⟨fun hroom => ?_, fun hfull hnw => ?_, fun hfull hnw hne => ?_⟩
    · unfold count at hroom
      obtain ⟨s1, hrun, hs1, hipq, hseq⟩ := State.pushLanes_room hc hlt hslot hq wait (.v n) (lanesOf (g.contributors h)) s hroom
      refine ⟨s1, (lanesOf (g.contributors h)).zipIdx.map (fun p => s.entryOf g c (.v n) p.1 p.2), ?_, hs1, ?_, ?_, ?_, ?_⟩
      · rw [exec_completes (body := ordered (qpushBody h wait d (.v n) e)) (u := wait) rfl hw hg (fun _ => hm)
          ((holding_free hheld).trans (qpushBody_runs h wait e hregs hok hprog hrun)),
          g.statusWrites_all h d 0 (fun _ => rfl) (fun _ => rfl)]
      · exact hipq
      · rw [List.length_map, List.length_zipIdx]
        rfl
      · intro j y hj
        rw [List.getElem?_map, List.getElem?_zipIdx, Option.map_map, Option.map_eq_some_iff] at hj
        obtain ⟨lane, hlane, rfl⟩ := hj
        refine ⟨lane, hlane, ?_⟩
        rw [Function.comp_apply, Nat.zero_add]
        rfl
      · rw [List.length_map, List.length_zipIdx]
        exact hseq
    · rw [hnw] at hw ⊢
      rw [exec_completes (body := ordered (qpushBody h false d (.v n) e)) (u := false) rfl hw hg (fun hu => Bool.noConfusion hu)
        ((holding_free hheld).trans (qpushBody_runs h false e hregs hok hprog
          (State.pushLanes_full (s := s) (g := g) hfull (.v n) (lanesOf (g.contributors h))))),
        g.statusWrites_all h d 1 (fun _ => rfl) (fun _ => rfl)]
    · rw [hnw] at hw ⊢
      obtain ⟨g1, hid, hpc, hb⟩ := qpushBody_waits h (d := d) e hregs hok hprog
        (State.pushLanes_waits hfull (.v n) (lanesOf_ne_nil hne))
      exact waits_queue (body := ordered (qpushBody h true d (.v n) e)) (u := true) rfl hw hg (fun _ => hm) hid hpc ((holding_free hheld).trans hb)
  · intro s g h wait stamp d b e x ent n ws hw hg hheld hregs hq hx hen hmay hprog hn hle hent hws
    subst hx
    have hok : s.queueOk g (g.uni64 e) false = true := (queueOk_iff _ _ _ _).2 ⟨hq, hen, hmay⟩
    have hrun := State.popLanes_enough hq wait ent (lanesOf (g.contributors h)) s hent
    rw [exec_completes (body := ordered (qpopBody h wait stamp d b e)) (u := false) rfl hw hg (fun hu => Bool.noConfusion hu)
      ((holding_free hheld).trans (qpopBody_runs h wait e hregs hok hprog hrun)), g.popWrites_all,
      g.statusWrites_all h b 0 (fun _ => rfl) (fun _ => rfl), hws, hn]
    by_cases hzero : count (g.contributors h) = 0
    · rw [if_pos hzero, show (lanesOf (g.contributors h)).length = 0 from hzero, List.drop_zero]
      exact congrArg (fun u => Host.Outcome.next (State.finish u g h [] _ none none)) (s.setIpq_ipq hq)
    · rw [if_neg hzero]
      rfl
  · intro s g h wait stamp d b e x hw hg hheld hregs hq hx hen hmay hprog hempty
    subst hx
    have hok : s.queueOk g (g.uni64 e) false = true := (queueOk_iff _ _ _ _).2 ⟨hq, hen, hmay⟩
    refine ⟨fun hnw => ?_, fun hnw hne => ?_⟩
    · rw [hnw] at hw ⊢
      rw [exec_completes (body := ordered (qpopBody h false stamp d b e)) (u := false) rfl hw hg (fun hu => Bool.noConfusion hu)
        ((holding_free hheld).trans (qpopBody_runs h false e hregs hok hprog (State.popLanes_empty hempty _))),
        g.statusWrites_all h b 1 (fun _ => rfl) (fun _ => rfl), g.popWrites_none d stamp fun y hy => ?_]
      · rfl
      · obtain ⟨i, -, rfl⟩ := List.mem_map.1 hy
        rfl
    · rw [hnw] at hw ⊢
      obtain ⟨g1, hid, hpc, hb⟩ := qpopBody_waits h (stamp := stamp) (d := d) (b := b) e hregs hok hprog
        (State.popLanes_waits hempty (lanesOf_ne_nil hne))
      exact waits_queue (body := ordered (qpopBody h true stamp d b e)) (u := false) rfl hw hg (fun hu => Bool.noConfusion hu) hid hpc ((holding_free hheld).trans hb)
  · intro s g h wait stamp d a b e i may hw hg hheld hi hbad
    rcases hi with ⟨rfl, hregs, rfl⟩ | ⟨rfl, hm, hregs, rfl⟩
    · refine exec_traps (body := ordered (qpopBody h wait stamp d b e)) (u := false) rfl hw hg (fun hu => Bool.noConfusion hu)
        ((holding_free hheld).trans (qpopBody_denied h wait e hregs ?_)) rfl
      rw [← Bool.not_eq_true, queueOk_iff]
      exact fun ⟨hq, hen, hmay⟩ => denied hq hen hmay hbad
    · refine exec_traps (body := ordered (qpushBody h wait d a e)) (u := wait) rfl hw hg hm
        ((holding_free hheld).trans (qpushBody_denied h wait e hregs ?_)) rfl
      rw [← Bool.not_eq_true, queueOk_iff]
      exact fun ⟨hq, hen, hmay⟩ => denied hq hen hmay hbad

end Sys2Proof.Machine

end


section
/-! # O43, first part: `TILE` and `COLL` (R380, R381, R385) -/

namespace Sys2Proof.Machine

/-! ## `TILE` -/

/-- The bits of a field by its low end and its width. -/
theorem bitsN_eq_extractLsb' {w : Nat} (b : BitVec w) (lo n : Nat) : bitsN b (lo + n - 1) lo = (b.extractLsb' lo n).toNat ∨ n = 0 := by
  rcases Nat.eq_zero_or_pos n with h | h
  · exact .inr h
  · left
    rw [bitsN, BitVec.extractLsb'_toNat, show lo + n - 1 + 1 - lo = n by omega]

theorem Group.pair_x (g : Group) (n : BitVec 6) : g.pair (.x n) = g.xVal (n + 1) ++ g.xVal n := by
  refine BitVec.eq_of_toNat_eq ?_
  have hlo := (g.xVal n).isLt
  have hhi := (g.xVal (n + 1)).isLt
  rw [BitVec.toNat_append, ← Nat.shiftLeft_add_eq_or_of_lt hlo, Nat.shiftLeft_eq]
  show (g.xCode n 128).toNat = _
  rw [Group.xCode, if_neg (by decide), BitVec.toNat_ofNat]
  omega

theorem tileBad_iff (t : BitVec 256) : tileBad t = false ↔ t.extractLsb' 128 24 = 0 ∧ 0 < (t.extractLsb' 232 24).toNat ∧
    0 < (t.extractLsb' 24 24).toNat ∧ 0 < (t.extractLsb' 0 24).toNat ∧
    (t.extractLsb' 232 24).toNat * (t.extractLsb' 24 24).toNat * (t.extractLsb' 0 24).toNat < 2 ^ 30 := by
  have hz : bitsN t 151 128 = (t.extractLsb' 128 24).toNat := (bitsN_eq_extractLsb' t 128 24).resolve_right (by decide)
  have hp : tdPlanes t = (t.extractLsb' 232 24).toNat := (bitsN_eq_extractLsb' t 232 24).resolve_right (by decide)
  have hr : tdRows t = (t.extractLsb' 24 24).toNat := (bitsN_eq_extractLsb' t 24 24).resolve_right (by decide)
  have hb : tdRowb t = (t.extractLsb' 0 24).toNat := (bitsN_eq_extractLsb' t 0 24).resolve_right (by decide)
  have hzero : t.extractLsb' 128 24 = 0 ↔ (t.extractLsb' 128 24).toNat = 0 := BitVec.toNat_eq.trans (Iff.of_eq (by rfl))
  unfold tileBad
  rw [hz, hp, hr, hb, hzero]
  simp only [Bool.or_eq_false_iff, bne_eq_false_iff_eq, beq_eq_false_iff_ne, decide_eq_false_iff_not, ne_eq,
    Nat.pos_iff_ne_zero, not_le, and_assoc]

/-! ## `COLL` -/

/-- What a `COLL` does once its descriptor is read and its checks have passed (R385). -/
def State.joined (s : State) (g : Group) (d : CollDesc) (key : Word64) (m : CollMember) (ts : List Touch) : Except Trap Done :=
  match s.openColl (s.accessor g).part key m.rank with
  | some k =>
    if k.desc = d then
      .ok { s := { s with colls := s.colls.map (fun x => if x.id == k.id then { x with members := x.members ++ [m] } else x) }
            g := g, touches := ts }
    else .error (trapOf .badcoll)
  | none =>
    if 256 ≤ s.openColls.length then .ok { s := s, g := g, wait := some .queue, hold := true }
    else
      .ok { s := { s with
              colls := s.colls ++ [{ id := s.nextId, part := (s.accessor g).part, key := key, launch := none, desc := d,
                                     members := [m], barTeam := (s.scrOwner g.core d.bar).1,
                                     barOff := (s.scrOwner g.core d.bar).2 }]
              nextId := s.nextId + 1 }
            g := g, touches := ts }

theorem collBody_joins {s : State} {g : Group} {t : Team} {bits : BitVec 256} {td : Option (BitVec 256)} {ps : List Page}
    (h : Hdr) (tile : Option (BitVec 2)) (d a b c e : Opd) (ht : s.team? g.team = some t) (hcores : s.collCores = true)
    (hkey : (g.uni64 a).toNat % 32 = 0) (hread : s.readDesc g (g.uni64 a) = .ok bits) (hok : collOk bits = true)
    (hrank : (g.uni64 b).toNat < (collOf bits).memb)
    (hcount : (collOf bits).ckind = 1 ∨ (collOf bits).ckind = 4 → (collOf bits).count % (collOf bits).memb = 0)
    (htile : tile = none ∧ td = none ∨ ∃ n, tile = some n ∧ td = vget g.t n.toNat none ∧ td ≠ none)
    (hcheck : s.checkMember g (collOf bits) (Claims.member s g h t td d b c e []) = .ok ps) :
    collBody h tile d a b c e s g = s.joined g (collOf bits) (g.uni64 a) (Claims.member s g h t td d b c e ps)
      (⟨g.uni64 a, 32, true, false⟩ :: pageTouches ps) := by
  have hbad : (!collOk bits || decide ((collOf bits).memb ≤ (g.uni64 b).toNat) ||
      ((decide ((collOf bits).ckind = 1) || decide ((collOf bits).ckind = 4)) &&
        decide ((collOf bits).count % (collOf bits).memb ≠ 0))) = false := by
    rw [hok]
    simp only [Bool.not_true, Bool.false_or, Bool.or_eq_false_iff, decide_eq_false_iff_not, not_le, hrank, true_and,
      Bool.and_eq_false_imp, Bool.or_eq_true, decide_eq_true_eq, not_not]
    exact hcount
  unfold collBody
  dsimp only [bind, Except.bind]
  rw [hcores, hkey, hread]
  dsimp only
  rw [if_neg (by decide)]
  rw [hbad, if_neg Bool.false_ne_true]
  have hvalid : ∀ n : BitVec 2, td = vget g.t n.toNat none → td ≠ none → (vget g.t n.toNat none).isNone = false := by
    rintro n rfl hne
    simpa [Option.isSome_iff_ne_none] using hne
  unfold Claims.member at hcheck
  rcases htile with ⟨rfl, rfl⟩ | ⟨n, rfl, htd, hne⟩
  · dsimp only
    rw [if_neg (by decide), ht]
    dsimp only
    rw [hcheck]
    rfl
  · dsimp only
    rw [hvalid n htd hne, if_neg (by simp), ht, ← htd]
    dsimp only
    rw [hcheck]
    rfl

/-- A collective that a member may join is the first of its key that lacks its rank. -/
theorem State.openColl_split {s : State} {part : Nat} {key : Word64} {rank : Nat} {pre post : List Coll} {k : Coll}
    (hs : s.colls = pre ++ k :: post) (hpre : ∀ x ∈ pre, x.key ≠ key) (hpart : k.part = part) (hkey : k.key = key)
    (hl : k.launch = none) (hroom : k.members.length < k.desc.memb) (hrank : ∀ x ∈ k.members, x.rank ≠ rank) :
    s.openColl part key rank = some k := by
  have hnone : pre.find? (fun c => c.part == part && c.key == key && c.launch.isNone &&
      c.members.length < c.desc.memb && !c.members.any (fun m => m.rank == rank)) = none := by
    refine List.find?_eq_none.2 fun x hx => ?_
    simp [hpre x hx]
  unfold State.openColl
  rw [hs, List.find?_append, hnone, Option.none_or, List.find?_cons_of_pos]
  simpa [hpart, hkey, hl, hroom] using hrank

theorem State.openColl_none {s : State} {part : Nat} {key : Word64} {rank : Nat}
    (h : ∀ k ∈ s.colls, k.part = part → k.key = key → k.launch = none →
      k.desc.memb ≤ k.members.length ∨ ∃ x ∈ k.members, x.rank = rank) : s.openColl part key rank = none := by
  refine List.find?_eq_none.2 fun k hk => ?_
  simp only [Bool.and_eq_true, beq_iff_eq, Option.isNone_iff_eq_none, decide_eq_true_eq, Bool.not_eq_true',
    List.any_eq_false, not_and, and_imp]
  intro hpart hkey hl hroom hrank
  rcases h k hk hpart hkey hl with hfull | ⟨x, hx, hxr⟩
  · omega
  · exact hrank x hx hxr

/-- With distinct numbers, changing one collective leaves the others. -/
theorem map_at {pre post : List Coll} {k : Coll} (hnd : ((pre ++ k :: post).map (fun (x : Coll) => x.id)).Nodup)
    (f : Coll → Coll) : (pre ++ k :: post).map (fun x => if x.id == k.id then f x else x) = pre ++ f k :: post := by
  rw [List.map_append, List.map_cons] at hnd
  obtain ⟨-, hmid, hdis⟩ := List.nodup_append.1 hnd
  obtain ⟨hnot, -⟩ := List.nodup_cons.1 hmid
  have hsame (l : List Coll) (h : ∀ x ∈ l, x.id ≠ k.id) : l.map (fun x => if x.id == k.id then f x else x) = l := by
    conv_rhs => rw [← List.map_id l]
    refine List.map_congr_left fun x hx => ?_
    simp [h x hx]
  rw [List.map_append, List.map_cons, hsame pre fun x hx => hdis _ (List.mem_map_of_mem hx) _ List.mem_cons_self,
    hsame post fun x hx he => ?_]
  · simp
  · exact hnot (he ▸ List.mem_map_of_mem hx)

theorem exec_coll_eq (h : Hdr) (tile : Option (BitVec 2)) (d a b c e : Opd) (s : State) :
    exec (.coll h tile d a b c e) s = issue s (.coll h tile d a b c e) h true (ordered (collBody h tile d a b c e)) := rfl

/-- A descriptor that R381 takes is a long result, another is a fault. -/
theorem exec_tile {s : State} {g : Group} {h : Hdr} {n : BitVec 2} {a b : BitVec 6} {v : BitVec 256}
    (hw : (Instr.tile h (.t n) (.x a) (.x b)).wellFormed = true) (hg : s.group? s.cur = some g)
    (hv : v = g.xVal (b + 1) ++ g.xVal b ++ g.xVal (a + 1) ++ g.xVal a) :
    exec (.tile h (.t n) (.x a) (.x b)) s = .next (if tileBad v then s.take { g with wait := none } (trapOf .badtile)
      else s.finish g h [] [{ writes := [.t n v] }] none none) := by
  have hpair : (g.pair (.x b) ++ g.pair (.x a) : BitVec 256) = v := by
    rw [hv, g.pair_x, g.pair_x]
    exact (BitVec.append_assoc (x₁ := g.xVal (b + 1) ++ g.xVal b) (x₂ := g.xVal (a + 1)) (x₃ := g.xVal a)).symm
  cases hbad : tileBad v with
  | false =>
    refine exec_results (body := tileBody (.t n) (.x a) (.x b)) rfl hw hg ?_
    unfold tileBody
    dsimp only
    rw [hpair, hbad]
    rfl
  | true =>
    refine exec_faults (body := tileBody (.t n) (.x a) (.x b)) rfl hw hg ?_ rfl
    unfold tileBody
    dsimp only
    rw [hpair, hbad]
    rfl

end Sys2Proof.Machine

end


section
/-! # O43, second part: a collective completes (R386 to R391) -/

namespace Sys2Proof.Machine

/-! ## Single bytes written one after the other -/

/-- Bytes written one after the other, each at its location. -/
def State.putBytes (s : State) (l : List (Nat × Byte)) : State :=
  l.foldl (fun s p => s.writeNat p.1 1 p.2.toNat) s

theorem State.putBytes_cons (s : State) (p : Nat × Byte) (l : List (Nat × Byte)) :
    s.putBytes (p :: l) = (s.writeNat p.1 1 p.2.toNat).putBytes l := rfl

theorem State.putBytes_append (s : State) (l k : List (Nat × Byte)) : s.putBytes (l ++ k) = (s.putBytes l).putBytes k :=
  List.foldl_append

/-- Without poison a write changes bytes alone. -/
theorem State.writeNat_clean {s : State} (h : s.poison = []) (loc n v : Nat) :
    s.writeNat loc n v = { s with mem := Memory.write s.mem loc (bytesOf n v) } := by
  unfold State.writeNat State.write
  rw [h, List.filter_nil, ← h]

theorem State.putBytes_clean {s : State} (h : s.poison = []) (l : List (Nat × Byte)) :
    s.putBytes l = { s with mem := (s.putBytes l).mem } := by
  induction l generalizing s with
  | nil => rfl
  | cons p l ih =>
    rw [State.putBytes_cons, ih (by rw [State.writeNat_clean h]; exact h), State.writeNat_clean h]

theorem State.putBytes_wf {s : State} (h : Memory.wf s.mem = true) (l : List (Nat × Byte)) :
    Memory.wf (s.putBytes l).mem = true := by
  induction l generalizing s with
  | nil => exact h
  | cons p l ih => exact ih (State.writeNat_wf h _ _ _)

theorem byteOf_toNat (b : Byte) : byteOf b.toNat 0 = b := by
  simp [byteOf]

/-- A location that no write names keeps its byte. -/
theorem State.read8_putBytes_other {s : State} (h : Memory.wf s.mem = true) {l : List (Nat × Byte)} {x : Nat}
    (hx : ∀ p ∈ l, p.1 ≠ x) : (s.putBytes l).read8 x = s.read8 x := by
  induction l generalizing s with
  | nil => rfl
  | cons p l ih =>
    have hp : p.1 ≠ x := hx p List.mem_cons_self
    rw [State.putBytes_cons, ih (State.writeNat_wf h _ _ _) fun q hq => hx q (List.mem_cons_of_mem _ hq),
      State.read8_writeNat h, if_neg (by omega)]

/-- A location whose writes all bring one byte has it. -/
theorem State.read8_putBytes {s : State} (h : Memory.wf s.mem = true) {l : List (Nat × Byte)} {x : Nat} {b : Byte}
    (hex : ∃ p ∈ l, p.1 = x) (hall : ∀ p ∈ l, p.1 = x → p.2 = b) : (s.putBytes l).read8 x = b := by
  induction l generalizing s with
  | nil => exact absurd hex (by simp)
  | cons p l ih =>
    have hwf := State.writeNat_wf h p.1 1 p.2.toNat
    have hrest : ∀ q ∈ l, q.1 = x → q.2 = b := fun q hq => hall q (List.mem_cons_of_mem _ hq)
    rw [State.putBytes_cons]
    by_cases hl : ∃ q ∈ l, q.1 = x
    · exact ih hwf hl hrest
    · have hpx : p.1 = x := by
        obtain ⟨q, hq, hqx⟩ := hex
        rcases List.mem_cons.1 hq with rfl | hq
        · exact hqx
        · exact absurd ⟨q, hq, hqx⟩ hl
      rw [State.read8_putBytes_other hwf fun q hq hqx => hl ⟨q, hq, hqx⟩, State.read8_writeNat h, if_pos (by omega), hpx,
        Nat.sub_self, byteOf_toNat]
      exact hall p List.mem_cons_self hpx

/-! ## Sums over the tree of R387 -/

theorem collOp_add {d : CollDesc} (h : d.cop = 0) : d.op = .add := by
  unfold CollDesc.op
  rw [h]
  rfl

/-- One step of a sum of 32 bits, modulo 2^32. -/
theorem collStep_add {d : CollDesc} (hop : d.cop = 0) (hty : d.ctype ≤ 1) (a b : Code) :
    (d.step a b).toNat % 2 ^ 32 = (a.toNat + b.toNat) % 2 ^ 32 := by
  have hval (ty : ITy) (hw : ty.width = 32) (x : Code) : intOf ty x % 2 ^ 32 = (x.toNat : Int) % 2 ^ 32 := by
    unfold intOf
    rw [hw]
    dsimp only
    split <;> omega
  have hsum (ty : ITy) (hw : ty.width = 32) : (redStep .add ty a b).1.toNat % 2 ^ 32 = (a.toNat + b.toNat) % 2 ^ 32 := by
    have ha := hval ty hw a
    have hb := hval ty hw b
    rw [redStep, wrap, hw, BitVec.toNat_ofNat]
    omega
  have hadd : d.op = .add := collOp_add hop
  unfold CollDesc.step CollDesc.ity
  rw [hadd]
  rcases Nat.le_one_iff_eq_zero_or_eq_one.1 hty with h | h
  · rw [h]
    exact hsum .i32 rfl
  · rw [h]
    exact hsum .n32 rfl

theorem treeLevel_sum {f : Code → Code → Code × FFlags}
    (hf : ∀ a b, (f a b).1.toNat % 2 ^ 32 = (a.toNat + b.toNat) % 2 ^ 32) :
    ∀ l : List Code, ((treeLevel f l).1.map BitVec.toNat).sum % 2 ^ 32 = (l.map BitVec.toNat).sum % 2 ^ 32
  | [] => rfl
  | [_] => rfl
  | a :: b :: rest => by
    have h := hf a b
    have ih := treeLevel_sum hf rest
    simp only [treeLevel, List.map_cons, List.sum_cons]
    omega

theorem treeLevel_length (f : Code → Code → Code × FFlags) : ∀ l : List Code, (treeLevel f l).1.length = (l.length + 1) / 2
  | [] => rfl
  | [a] => by simp [treeLevel]
  | a :: b :: rest => by
    simp only [treeLevel, List.length_cons, treeLevel_length f rest]
    omega

theorem treeLevels_sum {f : Code → Code → Code × FFlags}
    (hf : ∀ a b, (f a b).1.toNat % 2 ^ 32 = (a.toNat + b.toNat) % 2 ^ 32) (n : Nat) (l : List Code) :
    ((treeLevels f n l).1.map BitVec.toNat).sum % 2 ^ 32 = (l.map BitVec.toNat).sum % 2 ^ 32 := by
  induction n generalizing l with
  | zero => rfl
  | succ n ih => exact (ih _).trans (treeLevel_sum hf l)

theorem treeLevels_length (f : Code → Code → Code × FFlags) (n : Nat) {l : List Code} (h : l.length = 2 ^ n) :
    (treeLevels f n l).1.length = 1 := by
  induction n generalizing l with
  | zero => exact h
  | succ n ih =>
    refine ih ?_
    rw [treeLevel_length, h, pow_succ]
    omega

/-- The leaves beyond the members' values add nothing. -/
theorem sum_leaves (vals : List Code) {m : Nat} (h : vals.length ≤ m) :
    (((List.range m).map (fun r => vals.getD r 0)).map BitVec.toNat).sum = (vals.map BitVec.toNat).sum := by
  induction vals generalizing m with
  | nil => simp
  | cons v vals ih =>
    obtain ⟨m, rfl⟩ : ∃ k, m = k + 1 := ⟨m - 1, by simp only [List.length_cons] at h; omega⟩
    rw [List.range_succ_eq_map]
    simp only [List.map_cons, List.map_map, List.sum_cons, List.getD_cons_zero]
    congr 1
    have hrest := ih (m := m) (by simpa using h)
    rw [List.map_map] at hrest
    exact hrest

/-- The sum of the members' values, modulo 2^32 (R387). -/
theorem reduce_add {d : CollDesc} (hop : d.cop = 0) (hty : d.ctype ≤ 1) {vals : List Code} (hlen : vals.length = d.memb) :
    (d.reduce vals).toNat % 2 ^ 32 = (vals.map BitVec.toNat).sum % 2 ^ 32 := by
  have hident : d.ident = 0 := by
    have hadd : d.op = .add := collOp_add hop
    unfold CollDesc.ident CollDesc.ity
    rw [hadd]
    rcases Nat.le_one_iff_eq_zero_or_eq_one.1 hty with h | h <;> rw [h] <;> rfl
  have henough : vals.length ≤ 2 ^ Nat.log2 (2 * d.memb - 1) := by
    have hlt : 2 * d.memb - 1 < 2 ^ (Nat.log2 (2 * d.memb - 1) + 1) := Nat.lt_log2_self
    rw [pow_succ] at hlt
    omega
  unfold CollDesc.reduce
  dsimp only
  rw [hident]
  have hsum := treeLevels_sum (f := fun a b => (d.step a b, 0)) (collStep_add hop hty) (Nat.log2 (2 * d.memb - 1))
    ((List.range (2 ^ Nat.log2 (2 * d.memb - 1))).map (fun r => vals.getD r 0))
  have hone := treeLevels_length (fun a b => (d.step a b, 0)) (Nat.log2 (2 * d.memb - 1))
    (l := (List.range (2 ^ Nat.log2 (2 * d.memb - 1))).map (fun r => vals.getD r 0)) (by simp)
  rw [sum_leaves vals henough] at hsum
  obtain ⟨c, hc⟩ := List.length_eq_one_iff.1 hone
  rw [hc] at hsum ⊢
  simpa using hsum

/-! ## What the members read and write -/

theorem plus_plus (a : Word64) (m n : Nat) : plus (plus a m) n = plus a (m + n) := by
  unfold plus
  rw [BitVec.add_assoc, BitVec.ofNat_add]

theorem collEs_word {d : CollDesc} (h : d.ctype ≤ 1) : d.es = 4 := by
  unfold CollDesc.es
  rcases Nat.le_one_iff_eq_zero_or_eq_one.1 h with h | h <;> rw [h] <;> rfl

theorem byteOf_low {v w k : Nat} (hk : k < 4) (h : v % 2 ^ 32 = w % 2 ^ 32) : byteOf v k = byteOf w k := by
  unfold byteOf
  rw [← BitVec.toNat_inj, BitVec.toNat_ofNat, BitVec.toNat_ofNat, Nat.shiftRight_eq_div_pow, Nat.shiftRight_eq_div_pow]
  interval_cases k <;> omega

section Words

variable {s : State} {d : CollDesc} {m : CollMember} {n src dst : Nat}

/-- A byte that a member reads, and whether it is poisoned. -/
def State.collByteAt (s : State) (m : CollMember) (va : Word64) : Byte × Bool :=
  match m.loc va with
  | some l => (s.read8 l, s.poison.contains (l / 16))
  | none => (Config.collByte s.freeCtr va, false)

theorem State.collElem_eq (s : State) (d : CollDesc) (m : CollMember) (i : Nat) : s.collElem d m i =
    (BitVec.ofNat 128 (natOf (((List.range d.es).map (fun k =>
        s.collByteAt m (plus (flatAddr m.tile true m.src (i * d.es)) k))).map (·.1))),
      ((List.range d.es).map (fun k => s.collByteAt m (plus (flatAddr m.tile true m.src (i * d.es)) k))).any (·.2)) := rfl

/-- Element i of a member's source. -/
theorem collElem_word (hp : s.poison = []) (hty : d.ctype ≤ 1) (hm : Claims.moves m (4 * n) src dst) {i : Nat} (hi : i < n) :
    s.collElem d m i = (BitVec.ofNat 128 (s.readNat (src + 4 * i) 4), false) := by
  obtain ⟨htile, hloc⟩ := hm
  have hread : (List.range d.es).map (fun k => s.collByteAt m (plus (flatAddr m.tile true m.src (i * d.es)) k)) =
      (List.range 4).map (fun k => (s.read8 (src + 4 * i + k), false)) := by
    rw [collEs_word hty]
    refine List.map_congr_left fun k hk => ?_
    have hk4 := List.mem_range.1 hk
    have hl : m.loc (plus (flatAddr m.tile true m.src (i * 4)) k) = some (src + 4 * i + k) := by
      rw [htile]
      show m.loc (plus (plus m.src (i * 4)) k) = _
      rw [plus_plus, (hloc (i * 4 + k) (by omega)).1]
      congr 1
      omega
    unfold State.collByteAt
    rw [hl, hp]
    rfl
  rw [State.collElem_eq, hread, List.map_map]
  exact Prod.ext rfl (by simp)

/-- The bytes of element j of a member's destination. -/
def wordBytes (dst j v : Nat) : List (Nat × Byte) :=
  (List.range 4).map (fun k => (dst + 4 * j + k, byteOf v k))

theorem putCollElem_word (hty : d.ctype ≤ 1) (hm : Claims.moves m (4 * n) src dst) {j : Nat} (hj : j < n) (v : Code) :
    s.putCollElem d m j (v, false) = s.putBytes (wordBytes dst j v.toNat) := by
  obtain ⟨htile, hloc⟩ := hm
  unfold State.putCollElem State.putBytes wordBytes
  rw [collEs_word hty, List.foldl_map]
  refine List.foldl_ext _ _ _ fun t k hk => ?_
  have hk4 := List.mem_range.1 hk
  have hl : m.loc (plus (flatAddr m.tile false m.dst (j * 4)) k) = some (dst + 4 * j + k) := by
    rw [htile]
    show m.loc (plus (plus m.dst (j * 4)) k) = _
    rw [plus_plus, (hloc (j * 4 + k) (by omega)).2]
    congr 1
    omega
  rw [hl]
  rfl

theorem cleanRange_clean (hp : s.poison = []) (r : Range) : s.cleanRange m r = s := by
  unfold State.cleanRange
  refine List.foldl_fixed' (fun p => ?_) _
  split
  · rw [hp, List.filter_nil, ← hp]
  · rfl

end Words

theorem foldl_putBytes {α : Type} (f : α → List (Nat × Byte)) (l : List α) (s : State) :
    l.foldl (fun s a => s.putBytes (f a)) s = s.putBytes (l.flatMap f) := by
  induction l generalizing s with
  | nil => rfl
  | cons a l ih =>
    rw [List.foldl_cons, ih, List.flatMap_cons, State.putBytes_append]

theorem zipIdx_map_range {α : Type} (n : Nat) (f : Nat → α) :
    ((List.range n).map f).zipIdx = (List.range n).map (fun j => (f j, j)) := by
  refine List.ext_getElem (by simp) fun i h1 h2 => ?_
  simp

/-- The bytes that a collective writes: of each member each element of its destination. -/
def collBytes (ms : List CollMember) (n : Nat) (dst : Nat → Nat) (v : Nat → Nat → Nat) : List (Nat × Byte) :=
  ms.flatMap (fun m => (List.range n).flatMap (fun j => wordBytes (dst m.rank) j (v m.rank j)))

end Sys2Proof.Machine

end


section
/-! # O43, third part: the completion, and the obligation (R386 to R391) -/

namespace Sys2Proof.Machine

/-! ## What a collective writes -/

/-- Two folds agree where every step of the one does the other's, in the states that are met. -/
theorem foldl_agree {α β : Type} {P : β → Prop} {f g : β → α → β} {l : List α} {b : β} (hb : P b)
    (h : ∀ a ∈ l, ∀ x, P x → f x a = g x a ∧ P (g x a)) : l.foldl f b = l.foldl g b := by
  induction l generalizing b with
  | nil => rfl
  | cons a l ih =>
    obtain ⟨heq, hp⟩ := h a List.mem_cons_self b hb
    rw [List.foldl_cons, List.foldl_cons, heq]
    exact ih hp fun a' ha' => h a' (List.mem_cons_of_mem _ ha')

theorem State.putBytes_poison {s : State} (h : s.poison = []) (l : List (Nat × Byte)) : (s.putBytes l).poison = [] := by
  rw [State.putBytes_clean h]
  exact h

section Members

variable {s : State} {k : Coll} {n : Nat} {src dst : Nat → Nat}

/-- The member of a rank. -/
theorem find_rank {ms : List CollMember} {m r : Nat} (h : ms.map (fun (x : CollMember) => x.rank) = List.range m) (hr : r < m) :
    ∃ x ∈ ms, ms.find? (fun x => x.rank == r) = some x ∧ x.rank = r := by
  have hmem : r ∈ ms.map (fun (x : CollMember) => x.rank) := by
    rw [h]
    exact List.mem_range.2 hr
  obtain ⟨y, hy, hyr⟩ := List.mem_map.1 hmem
  cases hf : ms.find? (fun x => x.rank == r) with
  | none => exact absurd (List.find?_eq_none.1 hf y hy) (by simp [hyr])
  | some x => exact ⟨x, List.mem_of_find?_eq_some hf, rfl, by simpa using List.find?_some hf⟩

/-- What a destination element receives (R386, R387): the sum over the members, or the element of rank 0. -/
theorem collValue_word (hp : s.poison = []) (hty : k.desc.ctype ≤ 1) (hmemb : 1 < k.desc.memb)
    (hrank : k.members.map (fun (m : CollMember) => m.rank) = List.range k.desc.memb)
    (hmoves : ∀ m ∈ k.members, Claims.moves m (4 * n) (src m.rank) (dst m.rank))
    (hkind : k.desc.ckind = 0 ∧ k.desc.cop = 0 ∨ k.desc.ckind = 3) (r : Nat) {j : Nat} (hj : j < n) :
    (s.collValue k.desc k.members r j).2 = false ∧
    (s.collValue k.desc k.members r j).1.toNat % 2 ^ 32 = if k.desc.ckind = 3 then s.readNat (src 0 + 4 * j) 4
      else ((List.range k.desc.memb).map (fun q => s.readNat (src q + 4 * j) 4)).sum % 2 ^ 32 := by
  have hword (x : Nat) : s.readNat x 4 < 2 ^ 32 := State.readNat_lt s x 4
  have helem (q : Nat) (hq : q < k.desc.memb) :
      (match k.members.find? (fun x => x.rank == q) with
        | some x => s.collElem k.desc x j
        | none => (k.desc.ident, false)) = (BitVec.ofNat 128 (s.readNat (src q + 4 * j) 4), false) := by
    obtain ⟨x, hx, hf, hxr⟩ := find_rank hrank hq
    rw [hf, ← hxr]
    exact collElem_word hp hty (hmoves x hx) hj
  have hnat (x : Nat) : (BitVec.ofNat 128 (s.readNat x 4)).toNat = s.readNat x 4 := by
    rw [BitVec.toNat_ofNat, Nat.mod_eq_of_lt (lt_of_lt_of_le (hword x) (by decide))]
  rcases hkind with ⟨hk, hop⟩ | hk
  · have htakes : k.desc.takes r j = (List.range k.desc.memb).map (fun q => (q, j)) := by
      unfold CollDesc.takes
      rw [hk]
      rfl
    have hvals : (k.desc.takes r j).map (fun t =>
        match k.members.find? (fun x => x.rank == t.1) with
        | some x => s.collElem k.desc x t.2
        | none => (k.desc.ident, false)) =
        (List.range k.desc.memb).map (fun q => (BitVec.ofNat 128 (s.readNat (src q + 4 * j) 4), false)) := by
      rw [htakes, List.map_map]
      exact List.map_congr_left fun q hq => helem q (List.mem_range.1 hq)
    have hval : s.collValue k.desc k.members r j =
        (k.desc.reduce ((List.range k.desc.memb).map (fun q => BitVec.ofNat 128 (s.readNat (src q + 4 * j) 4))), false) := by
      unfold State.collValue
      dsimp only
      rw [if_pos (by omega)]
      refine Prod.ext ?_ ?_
      · refine congrArg k.desc.reduce ((congrArg (List.map Prod.fst) hvals).trans ?_)
        rw [List.map_map]
        rfl
      · refine (congrArg (fun l => List.any l (·.2)) hvals).trans ?_
        simp
    rw [hval, if_neg (by omega)]
    refine ⟨rfl, ?_⟩
    rw [reduce_add hop hty (by simp), List.map_map]
    congr 2
    exact List.map_congr_left fun q _ => hnat _
  · have htakes : k.desc.takes r j = [(0, j)] := by
      unfold CollDesc.takes
      rw [hk]
      rfl
    have hval : s.collValue k.desc k.members r j = (BitVec.ofNat 128 (s.readNat (src 0 + 4 * j) 4), false) := by
      unfold State.collValue
      dsimp only
      rw [if_neg (by omega), htakes]
      have h0 := helem 0 (by omega)
      have hfst := congrArg Prod.fst h0
      have hsnd := congrArg (fun p : Code × Bool => p.2 || false) h0
      exact Prod.ext hfst hsnd
    rw [hval, if_pos hk, hnat, Nat.mod_eq_of_lt (hword _)]
    exact ⟨rfl, rfl⟩

/-- The data of a collective moves: each value read before any byte is written (R386). -/
theorem collMove_bytes (hl : k.launch = none) (hp : s.poison = []) (harm : ∀ p, (s.part p).arm = false) (hty : k.desc.ctype ≤ 1)
    (hmemb : 1 < k.desc.memb) (hn : k.desc.count = n)
    (hrank : k.members.map (fun (m : CollMember) => m.rank) = List.range k.desc.memb)
    (hmoves : ∀ m ∈ k.members, Claims.moves m (4 * n) (src m.rank) (dst m.rank))
    (hkind : k.desc.ckind = 0 ∧ k.desc.cop = 0 ∨ k.desc.ckind = 3) :
    ∃ c, s.collMove k k.members = { s.putBytes (collBytes k.members n dst
      (fun r j => (s.collValue k.desc k.members r j).1.toNat)) with freeCtr := c } := by
  have hlen : k.desc.dstLen = n := by
    unfold CollDesc.dstLen
    rcases hkind with ⟨h, -⟩ | h <;> rw [h] <;> exact hn
  unfold State.collMove
  dsimp only
  split
  · have hstep (m : CollMember) (hm : m ∈ k.members) (t : State) (ht : t.poison = []) :
        ((List.range n).map (s.collValue k.desc k.members m.rank)).zipIdx.foldl (fun s x => s.putCollElem k.desc m x.2 x.1)
          ((m.dstRanges k.desc).foldl (fun s r => s.cleanRange m r) t) =
        t.putBytes ((List.range n).flatMap (fun j =>
          wordBytes (dst m.rank) j (s.collValue k.desc k.members m.rank j).1.toNat)) := by
      have hclean : (m.dstRanges k.desc).foldl (fun s r => s.cleanRange m r) t = t := by
        refine (foldl_agree (P := fun s => s.poison = []) (g := fun s _ => s) ht fun r _ x hx =>
          ⟨cleanRange_clean hx r, hx⟩).trans ?_
        exact List.foldl_fixed _
      rw [hclean, zipIdx_map_range, List.foldl_map, ← foldl_putBytes]
      refine List.foldl_ext _ _ _ fun u j hj => ?_
      have hj' := List.mem_range.1 hj
      obtain ⟨hfalse, -⟩ := collValue_word (src := src) (dst := dst) hp hty hmemb hrank hmoves hkind m.rank hj'
      have hv : s.collValue k.desc k.members m.rank j = ((s.collValue k.desc k.members m.rank j).1, false) :=
        Prod.ext rfl hfalse
      rw [hv]
      exact putCollElem_word hty (hmoves m hm) hj' _
    have hall : (k.members.map (fun m => (m, (List.range k.desc.dstLen).map (s.collValue k.desc k.members m.rank)))).foldl
        (fun s x => x.2.zipIdx.foldl (fun s y => s.putCollElem k.desc x.1 y.2 y.1)
          ((x.1.dstRanges k.desc).foldl (fun s r => s.cleanRange x.1 r) s)) s =
        s.putBytes (collBytes k.members n dst (fun r j => (s.collValue k.desc k.members r j).1.toNat)) := by
      rw [hlen, List.foldl_map, collBytes, ← foldl_putBytes]
      exact foldl_agree (P := fun s => s.poison = []) hp fun m hm t ht => ⟨hstep m hm t ht, State.putBytes_poison ht _⟩
    have harm' (p : Nat) : ((s.putBytes (collBytes k.members n dst
        (fun r j => (s.collValue k.desc k.members r j).1.toNat))).part p).arm = false := by
      rw [State.putBytes_clean hp]
      exact harm p
    have hwatch : k.members.foldl (fun s m => s.watchEngine m.fork (m.dstRanges k.desc))
        (s.putBytes (collBytes k.members n dst (fun r j => (s.collValue k.desc k.members r j).1.toNat))) =
        s.putBytes (collBytes k.members n dst (fun r j => (s.collValue k.desc k.members r j).1.toNat)) := by
      refine (foldl_agree (P := fun s => ∀ p, (s.part p).arm = false) (g := fun s _ => s) harm' fun m _ x hx =>
        ⟨State.watchEngine_unarmed (by intro p; exact hx p) _ _, hx⟩).trans ?_
      exact List.foldl_fixed _
    have hnone : k.launch.isNone = true := by
      rw [hl]
      rfl
    simp only [hnone, if_true]
    rw [hall, hwatch]
    exact ⟨_, rfl⟩
  · next hnot =>
    have hzero : n = 0 := by
      unfold CollDesc.moves at hnot
      simp only [Bool.and_eq_true, bne_iff_ne, ne_eq, not_and, not_not, hn] at hnot
      by_contra h
      have := hnot ⟨by omega, h⟩
      omega
    have hempty : collBytes k.members n dst (fun r j => (s.collValue k.desc k.members r j).1.toNat) = [] := by
      rw [collBytes, hzero]
      simp
    rw [hempty]
    exact ⟨s.freeCtr, rfl⟩

theorem mem_collBytes {ms : List CollMember} {v : Nat → Nat → Nat} {p : Nat × Byte} :
    p ∈ collBytes ms n dst v ↔ ∃ m ∈ ms, ∃ j < n, ∃ i < 4, p = (dst m.rank + 4 * j + i, byteOf (v m.rank j) i) := by
  simp only [collBytes, wordBytes, List.mem_flatMap, List.mem_map, List.mem_range, eq_comm]

/-- Each element of a destination reads as the value it was given. -/
theorem readNat_collBytes (hwf : Memory.wf s.mem = true)
    (hrank : k.members.map (fun (m : CollMember) => m.rank) = List.range k.desc.memb) (v : Nat → Nat → Nat)
    (hdis : ∀ r r', r < k.desc.memb → r' < k.desc.memb → r ≠ r' → dst r + 4 * n ≤ dst r' ∨ dst r' + 4 * n ≤ dst r)
    {r j : Nat} (hr : r < k.desc.memb) (hj : j < n) :
    (s.putBytes (collBytes k.members n dst v)).readNat (dst r + 4 * j) 4 = v r j % 2 ^ 32 := by
  have hbyte (i : Nat) (hi : i < 4) :
      (s.putBytes (collBytes k.members n dst v)).read8 (dst r + 4 * j + i) = byteOf (v r j) i := by
    refine State.read8_putBytes hwf ?_ ?_
    · obtain ⟨x, hx, -, hxr⟩ := find_rank hrank hr
      exact ⟨_, mem_collBytes.2 ⟨x, hx, j, hj, i, hi, rfl⟩, by rw [hxr]⟩
    · intro p hp hpx
      obtain ⟨m, hm, j', hj', i', hi', rfl⟩ := mem_collBytes.1 hp
      have hmr : m.rank < k.desc.memb := by
        have := List.mem_map_of_mem (f := fun (m : CollMember) => m.rank) hm
        rw [hrank] at this
        exact List.mem_range.1 this
      dsimp only at hpx ⊢
      have hsame : m.rank = r := by
        by_contra hne
        have := hdis m.rank r hmr hr hne
        omega
      rw [hsame] at hpx ⊢
      obtain ⟨rfl, rfl⟩ : j' = j ∧ i' = i := by omega
      rfl
  have hbytes : Memory.readN (s.putBytes (collBytes k.members n dst v)).mem (dst r + 4 * j) 4 = bytesOf 4 (v r j) :=
    List.map_congr_left fun i hi => hbyte i (List.mem_range.1 hi)
  unfold State.readNat
  rw [hbytes, natOf_bytesOf]

end Members

/-! ## Arrivals and triggers -/

theorem mem_insertBy {α : Type} {f : α → Nat} {a b : α} {l : List α} (h : b ∈ insertBy f a l) : b = a ∨ b ∈ l := by
  induction l with
  | nil => exact .inl (by simpa [insertBy] using h)
  | cons c l ih =>
    unfold insertBy at h
    split at h
    · simpa using h
    · rcases List.mem_cons.1 h with h | h
      · exact .inr (h ▸ List.mem_cons_self)
      · exact (ih h).imp_right (List.mem_cons_of_mem _)

theorem mem_of_sortBy {α : Type} {f : α → Nat} {b : α} (l : List α) (h : b ∈ sortBy f l) : b ∈ l := by
  have hgen (l acc : List α) (h : b ∈ l.foldl (fun acc a => insertBy f a acc) acc) : b ∈ acc ∨ b ∈ l := by
    induction l generalizing acc with
    | nil => exact .inl h
    | cons a l ih =>
      rcases ih _ h with h | h
      · exact (mem_insertBy h).elim (fun e => .inr (e ▸ List.mem_cons_self)) .inl
      · exact .inr (List.mem_cons_of_mem _ h)
  exact (hgen l [] h).resolve_left (by simp)

/-- Members without a trigger word change nothing. -/
theorem triggers_none {ms : List CollMember} (h : ∀ m ∈ ms, m.trigger = 0) (s : State) :
    (sortBy (fun (m : CollMember) => m.rank) ms).foldl (fun s m => s.trigger m) s = s := by
  refine (foldl_agree (P := fun _ => True) (g := fun s _ => s) trivial fun m hm x _ => ⟨?_, trivial⟩).trans
    (List.foldl_fixed _)
  unfold State.trigger
  rw [if_pos (h m (mem_of_sortBy ms hm))]

theorem State.watchArrival_unarmed {s : State} (h : ∀ p, (s.part p).arm = false) (c : Coll) (team : Option Nat) :
    s.watchArrival c team = s := by
  unfold State.watchArrival
  split
  · split
    · exact State.watchEngine_unarmed (by intro p; exact h p) _ _
    · rfl
  · rfl

theorem collMove_still {s : State} {c : Coll} (ms : List CollMember) (h : c.desc.moves = false) : s.collMove c ms = s := by
  unfold State.collMove
  dsimp only
  rw [h, if_neg Bool.false_ne_true]

theorem State.arriveTeam_none (s : State) (off : Nat) : s.arriveTeam none off = s := rfl

/-! ## The event of a collective -/

theorem exec_collective {s : State} {k : Coll} (hf : s.colls.find? (fun x => x.id == k.id) = some k) :
    exec (.collectiveComplete k.id) s = .next (s.collStep k) := by
  show execCollectiveComplete k.id s = _
  unfold execCollectiveComplete
  rw [hf]

/-- A collective that the groups opened, every member there: it completes and is gone. -/
theorem collStep_open {s : State} {k : Coll} (hl : k.launch = none) (hfull : k.members.length = k.desc.memb) :
    s.collStep k = (s.completeColl k).retireColl k := by
  unfold State.collStep State.collReady
  rw [hl]
  simp [hfull]

theorem completeColl_open {s : State} {k : Coll} (hl : k.launch = none) :
    s.completeColl k = (sortBy (fun (m : CollMember) => m.rank) k.members).foldl (fun s m => s.trigger m)
      (((s.collMove k k.members).arriveTeam k.barTeam k.barOff).watchArrival k k.barTeam) := by
  unfold State.completeColl
  rw [hl]
  rfl

theorem collStep_attached {s : State} {k : Coll} {l : Launch} (hl : k.launch = some l.id) (hs : s.launch? l.id = some l) :
    s.collStep k = if l.collDone then (if s.lastExited l then s.retireColl k else s)
      else if s.collReady k then s.completeColl k else s := by
  unfold State.collStep
  rw [hl, Option.bind_some, hs]

theorem lastExited_iff (s : State) (l : Launch) : s.lastExited l = true ↔
    (l.ended = true ∨ l.next = l.vals.gx * l.vals.gy * l.vals.gz) ∧ ∀ t ∈ s.teams, t.launch ≠ l.id := by
  unfold State.lastExited State.teamsOf
  simp [List.filter_eq_nil_iff]

theorem completeColl_attached {s : State} {k : Coll} {id : Nat} (hl : k.launch = some id) (hkind : k.desc.ckind = 5)
    (hbar : (s.scrOwner none k.desc.bar).1 = none) :
    s.completeColl k = s.modLaunch id (fun x => { x with collDone := true }) := by
  have hmoves : k.desc.moves = false := by
    unfold CollDesc.moves
    rw [hkind]
    simp
  have htrig : ∀ m ∈ s.attachedMembers k, m.trigger = 0 := by
    intro m hm
    obtain ⟨r, -, rfl⟩ := List.mem_map.1 hm
    rfl
  unfold State.completeColl
  simp only [hl, Option.isSome_some, if_true]
  rw [collMove_still _ hmoves, hbar, State.arriveTeam_none, triggers_none htrig]
  unfold State.watchArrival
  rw [hl]

end Sys2Proof.Machine

end


section
/-! # O43: the obligation -/

namespace Sys2Proof.Machine

/-- The part of O43 about `COLL`: a member joins, opens a collective, or differs. -/
theorem exec_coll {s : State} {g : Group} {bits : BitVec 256} {h : Hdr} {tile : Option (BitVec 2)} {d a b c e : Opd} (hw : (Instr.coll h tile d a b c e).wellFormed = true)
    (hg : s.group? s.cur = some g) (hmode : g.mode = .user) (hheld : s.held g = false) (m : CollMember) (ts : List Touch)
    (hbody : collBody h tile d a b c e s g = s.joined g (collOf bits) (g.uni64 a) m ts) :
    (∀ r, s.joined g (collOf bits) (g.uni64 a) m ts = .ok { s := r, g := g, touches := ts } →
      exec (.coll h tile d a b c e) s = .next (r.finish g h [] [] none none ts)) ∧
    (s.joined g (collOf bits) (g.uni64 a) m ts = .error (trapOf .badcoll) →
      exec (.coll h tile d a b c e) s = .next (s.take { g with wait := none } (trapOf .badcoll))) := by
  have hbody' : ordered (collBody h tile d a b c e) s g = s.joined g (collOf bits) (g.uni64 a) m ts := by
    rw [← hbody]
    exact holding_free hheld
  exact ⟨fun r hr => exec_completes (body := ordered (collBody h tile d a b c e)) (u := true) rfl hw hg (fun _ => hmode)
      (hbody'.trans hr),
    fun he => exec_traps (body := ordered (collBody h tile d a b c e)) (u := true) rfl hw hg (fun _ => hmode)
      (hbody'.trans he) rfl⟩

/-- The collective that a `COLL` opens (R385). -/
def State.opened (s : State) (g : Group) (d : CollDesc) (key : Word64) (m : CollMember) : Coll where
  id := s.nextId
  part := (s.accessor g).part
  key := key
  launch := none
  desc := d
  members := [m]
  barTeam := (s.scrOwner g.core d.bar).1
  barOff := (s.scrOwner g.core d.bar).2

/-- Settles O43. -/
theorem collectives : Obligations.Collectives := by
  refine ⟨⟨?_, ?_⟩, ?_, ?_, ?_, ?_⟩
  · intro s g h n a b v ok hw hg hv hok
    have hbad : ok ↔ tileBad v = false := by rw [tileBad_iff, hok]
    rw [exec_tile hw hg hv]
    refine ⟨fun h => ?_, fun h => ?_⟩
    · rw [hbad.1 h, if_neg Bool.false_ne_true]
    · rw [if_pos (by simpa using mt hbad.2 h)]
  · intro s g h tile d a b c e t bits td ps m ts hw hg hmode hheld ht hcores hkey hread hok hrank hcount htile hm hts hcheck
    have hmem : ({ m with pages := [] } : CollMember) = Claims.member s g h t td d b c e [] := by rw [hm]; rfl
    rw [hmem] at hcheck
    have hbody := collBody_joins (e := e) h tile d a b c ht hcores hkey hread hok hrank hcount htile hcheck
    rw [← hm, ← hts] at hbody
    obtain ⟨hnext, herr⟩ := exec_coll hw hg hmode hheld m ts hbody
    refine ⟨fun hnone hroom => ?_, fun pre k post hs hnd hpre hpart hk hl hfree hother => ?_⟩
    · refine ⟨_, s.opened g (collOf bits) (g.uni64 a) m, rfl, rfl, rfl, rfl, rfl, rfl, hnext _ ?_⟩
      unfold State.joined
      rw [State.openColl_none hnone]
      dsimp only
      rw [if_neg (by omega)]
      rfl
    · have hopen : s.openColl (s.accessor g).part (g.uni64 a) m.rank = some k :=
        State.openColl_split hs hpre hpart hk hl hfree hother
      refine ⟨fun hsame => ⟨_, rfl, hnext _ ?_⟩, fun hdiff => herr ?_⟩
      · unfold State.joined
        rw [hopen]
        dsimp only
        rw [if_pos hsame, hs, map_at (hs ▸ hnd)]
      · unfold State.joined
        rw [hopen]
        dsimp only
        rw [if_neg hdiff]
  · intro s k n src dst ty hf hl hfull hmemb hn hwf hp harm hrank hkind hty hle hmem hdis hbar
    have hty' : k.desc.ctype ≤ 1 := hty ▸ hle
    have hmoves : ∀ m ∈ k.members, Claims.moves m (4 * n) (src m.rank) (dst m.rank) := fun m hm => (hmem m hm).1
    obtain ⟨fc, hmove⟩ := collMove_bytes hl hp harm hty' hmemb hn hrank hmoves hkind
    rw [exec_collective hf, collStep_open hl hfull, completeColl_open hl, hbar, State.arriveTeam_none]
    have hvals (r : Nat) {j : Nat} (hj : j < n) := collValue_word (src := src) (dst := dst) hp hty' hmemb hrank hmoves hkind r hj
    generalize hv : (fun r j => (s.collValue k.desc k.members r j).1.toNat) = v at hmove
    have harm' : ∀ p, ((s.collMove k k.members).part p).arm = false := by
      rw [hmove, State.putBytes_clean hp]
      exact harm
    rw [State.watchArrival_unarmed harm', triggers_none fun m hm => (hmem m hm).2, hmove]
    refine ⟨_, rfl, ?_, ?_, ?_⟩
    · rw [State.putBytes_clean hp]
      rfl
    · intro r hr j hj
      rw [← (hvals r hj).2]
      have hread := readNat_collBytes (s := s) hwf hrank v hdis hr hj
      rw [← hv] at hread ⊢
      exact hread
    · intro x hx
      refine State.read8_putBytes_other hwf (l := collBytes k.members n dst v) fun p hpm hpx => ?_
      obtain ⟨m, hm, j, hj, i, hi, rfl⟩ := mem_collBytes.1 hpm
      have hmr : m.rank < k.desc.memb := by
        have := List.mem_map_of_mem (f := fun (m : CollMember) => m.rank) hm
        rw [hrank] at this
        exact List.mem_range.1 this
      refine hx m.rank hmr ?_
      dsimp only at hpx
      omega
  · intro s s1 k tm hf hl hfull hkind hbar htm harm htrig hon hoff
    have hstill : k.desc.moves = false := by
      unfold CollDesc.moves
      rw [hkind]
      simp
    have harrive : s.arriveTeam (some tm.id) k.barOff = s1 := by
      unfold State.arriveTeam
      rw [Option.bind_some, htm]
      cases hc : tm.core with
      | some c =>
        rw [hon c hc]
        dsimp only
        rw [hc]
      | none =>
        rw [hoff hc]
        dsimp only
        rw [hc]
    have hs1 : s1.colls = s.colls ∧ ∀ p, (s1.part p).arm = false := by
      cases hc : tm.core with
      | some c =>
        rw [hon c hc]
        unfold State.putArrival
        dsimp only
        split <;> exact ⟨rfl, harm⟩
      | none =>
        rw [hoff hc]
        exact ⟨rfl, harm⟩
    rw [exec_collective hf, collStep_open hl hfull, completeColl_open hl, collMove_still _ hstill, hbar, harrive,
      State.watchArrival_unarmed hs1.2, triggers_none htrig, State.retireColl, hs1.1]
  · intro s k m loc hf hl hms hmemb hbar htrig hteam hloc hclean harm
    have hstill : k.desc.moves = false := by
      unfold CollDesc.moves
      rw [hmemb]
      rfl
    rw [exec_collective hf, collStep_open hl (by rw [hms, hmemb]; rfl), completeColl_open hl, collMove_still _ hstill, hbar,
      State.arriveTeam_none, State.watchArrival_unarmed harm, hms]
    show Host.Outcome.next ((s.trigger m).retireColl k) = _
    have hone : s.trigger m = s.writeNat loc 8 ((s.readNat loc 8 + 1) % 2 ^ 64) := by
      unfold State.trigger State.addOne
      rw [if_neg htrig, hteam, hloc]
      dsimp only
      rw [hclean, Option.isSome_none, if_neg Bool.false_ne_true]
      exact State.watchEngine_unarmed (by intro p; exact harm p) _ _
    rw [hone]
    rfl
  · intro s k l hf hl hs
    rw [exec_collective hf, collStep_attached hl hs]
    refine ⟨fun hd hr => ?_, fun hd hr hk hb => ?_, fun hd hstay => ?_, fun hd hno hend => ?_⟩
    · rw [hd, hr]
      rfl
    · rw [hd, hr, completeColl_attached hl hk hb]
      rfl
    · have hlast : s.lastExited l = false := by
        rw [Bool.eq_false_iff, ne_eq, lastExited_iff]
        rintro ⟨hend, hno⟩
        rcases hstay with ⟨t, ht, htl⟩ | ⟨he, hn⟩
        · exact hno t ht htl
        · rcases hend with h | h
          · rw [he] at h
            exact Bool.noConfusion h
          · exact hn h
      rw [hd, hlast]
      rfl
    · have hlast : s.lastExited l = true := (lastExited_iff s l).2 ⟨hend, hno⟩
      rw [hd, hlast]
      rfl

end Sys2Proof.Machine

end


section
/-! # O53: the owner register (R440 to R442) -/

namespace Sys2Proof.Machine

/-! ## The fields of `OWNER` -/

section Fields

variable {e h o : Nat}

theorem ownerBits_toNat (e h o : Nat) :
    (Claims.ownerBits e h o).toNat = e % 2 ^ 32 * 2 ^ 16 + h % 2 ^ 8 * 2 ^ 8 + o % 2 ^ 8 := by
  unfold Claims.ownerBits
  rw [BitVec.toNat_ofNat]
  omega

theorem ownOf_ownerBits (hh : h ≤ 8) (ho : o ≤ 8) : ownOf (Claims.ownerBits e h o) = o := by
  unfold ownOf bitsN
  rw [ownerBits_toNat, Nat.shiftRight_eq_div_pow]
  omega

theorem handOf_ownerBits (hh : h ≤ 8) (ho : o ≤ 8) : handOf (Claims.ownerBits e h o) = h := by
  unfold handOf bitsN
  rw [ownerBits_toNat, Nat.shiftRight_eq_div_pow]
  omega

theorem epochOf_ownerBits (hh : h ≤ 8) (ho : o ≤ 8) : epochOf (Claims.ownerBits e h o) = e % 2 ^ 32 := by
  unfold epochOf bitsN
  rw [ownerBits_toNat, Nat.shiftRight_eq_div_pow]
  omega

theorem ownerWord_eq (hh : h ≤ 8) (ho : o ≤ 8) : ownerWord e h o = Claims.ownerBits e h o := by
  unfold ownerWord Claims.ownerBits
  rw [Nat.mod_eq_of_lt (show h < 2 ^ 8 by omega), Nat.mod_eq_of_lt (show o < 2 ^ 8 by omega)]

end Fields

theorem isMaster_of_master {r : BitVec 8} (h : Claims.master r) : isMaster r.toNat = true := by
  obtain ⟨h1, h8⟩ := h
  unfold isMaster
  simp [h1, h8]

/-! ## A change of `OWNER` -/

/-- The epoch of a change raises the old and the new owner's interrupts; a word of the same epoch none (R442). -/
theorem State.setOwner_next {s : State} {e h o o' : Nat} (hs : s.mgmt.owner = Claims.ownerBits e h o) (he : e < 2 ^ 32)
    (hh : h ≤ 8) (ho : o ≤ 8) (ho' : o' ≤ 8) : s.setOwner (Claims.ownerBits (e + 1) 0 o') =
    { s with mgmt := { s.mgmt with owner := Claims.ownerBits (e + 1) 0 o', irq := Claims.raised s.mgmt.irq [o, o'] } } := by
  unfold State.setOwner
  dsimp only
  rw [hs, epochOf_ownerBits hh ho, epochOf_ownerBits (by omega) ho', ownOf_ownerBits hh ho, ownOf_ownerBits (by omega) ho',
    if_neg (by omega)]
  unfold State.raise Claims.raised
  by_cases h0 : o = 0 <;> by_cases h0' : o' = 0 <;> simp [h0, h0']

theorem State.setOwner_same {s : State} {e h o m : Nat} (hs : s.mgmt.owner = Claims.ownerBits e h o) (hh : h ≤ 8) (ho : o ≤ 8)
    (hm : m ≤ 8) : s.setOwner (Claims.ownerBits e m o) = { s with mgmt := { s.mgmt with owner := Claims.ownerBits e m o } } := by
  unfold State.setOwner
  dsimp only
  rw [hs, epochOf_ownerBits hh ho, epochOf_ownerBits hm ho, if_pos rfl]

section Transitions

variable {s : State} {r : BitVec 8} {e h o : Nat} (x new : Word64) {P : Prop}

/-- A compare-and-set of `OWNER`: where it meets the word expected and the rule, the change; else nothing (R440). -/
theorem State.ownerCas_eq [Decidable P] {s' : State} {ok : Nat → Word64 → Word64 → Bool} (hr : Claims.master r)
    (hP : P ↔ x = s.mgmt.owner ∧ ok r.toNat s.mgmt.owner new = true) (hs : P → s.setOwner new = s') :
    s.ownerCas r x new ok = { (if P then s' else s) with answer := some (.master r, s.mgmt.owner.toNat) } := by
  have hif : (if s.mgmt.owner = x && ok r.toNat x new then s.setOwner new else s) = if P then s' else s := by
    by_cases h : P
    · obtain ⟨hx, hok⟩ := hP.1 h
      rw [if_pos h, ← hs h, if_pos (by simp [hx, hok])]
    · rw [if_neg h, if_neg]
      simp only [Bool.and_eq_true, decide_eq_true_eq, not_and]
      intro hx hok
      exact h (hP.2 ⟨hx.symm, hx ▸ hok⟩)
  unfold State.ownerCas State.reply
  rw [if_pos (isMaster_of_master hr), hif]

variable (hr : Claims.master r) (hown : s.mgmt.owner = Claims.ownerBits e h o) (hh : h ≤ 8) (ho : o ≤ 8)
include hr hown hh ho

theorem claimOk_iff : claimOk r.toNat s.mgmt.owner new = true ↔ o = 0 ∧ new = Claims.ownerBits (e + 1) 0 r.toNat := by
  unfold claimOk
  rw [isMaster_of_master hr, hown, ownOf_ownerBits hh ho, epochOf_ownerBits hh ho, ownerWord_eq (by omega) hr.2]
  simp [Claims.ownerBits, Nat.add_mod]

theorem takeOk_iff : takeOk r.toNat s.mgmt.owner new = true ↔ h = r.toNat ∧ new = Claims.ownerBits (e + 1) 0 r.toNat := by
  unfold takeOk
  rw [isMaster_of_master hr, hown, handOf_ownerBits hh ho, epochOf_ownerBits hh ho, ownerWord_eq (by omega) hr.2]
  simp [Claims.ownerBits, Nat.add_mod]

theorem releaseOk_iff : releaseOk r.toNat s.mgmt.owner new = true ↔ o = r.toNat ∧ new = Claims.ownerBits (e + 1) 0 0 := by
  unfold releaseOk
  rw [isMaster_of_master hr, hown, ownOf_ownerBits hh ho, epochOf_ownerBits hh ho, ownerWord_eq (by omega) (by omega)]
  simp [Claims.ownerBits, Nat.add_mod]

theorem offerOk_iff : offerOk r.toNat s.mgmt.owner new = true ↔
    o = r.toNat ∧ ∃ m, m ≤ 8 ∧ m ≠ r.toNat ∧ new = Claims.ownerBits e m o := by
  unfold offerOk
  rw [isMaster_of_master hr, hown, ownOf_ownerBits hh ho, epochOf_ownerBits hh ho]
  simp only [Bool.true_and, Bool.and_eq_true, beq_iff_eq, decide_eq_true_eq, bne_iff_ne, ne_eq, and_assoc]
  have hmod (m : Nat) : Claims.ownerBits (e % 2 ^ 32) m o = Claims.ownerBits e m o := by
    simp [Claims.ownerBits]
  constructor
  · rintro ⟨rfl, h8, hne, hnew⟩
    exact ⟨rfl, _, h8, hne, by rw [← hmod, ← ownerWord_eq h8 ho]; exact hnew⟩
  · rintro ⟨rfl, m, h8, hne, rfl⟩
    rw [handOf_ownerBits h8 ho]
    exact ⟨rfl, h8, hne, by rw [ownerWord_eq h8 ho, hmod]⟩

end Transitions

/-- Settles O53. -/
theorem ownershipMoves : Obligations.OwnershipMoves := by
  refine ⟨?_, ?_, ?_, ?_⟩
  · intro s r e h o x new now hr he hh ho hown hnow
    subst hnow
    refine ⟨?_, fun m hx hor hm hne hnew => ?_, fun hnot => ?_, ?_, ?_⟩
    · refine congrArg Host.Outcome.next ((State.ownerCas_eq (P := x = s.mgmt.owner ∧ o = 0 ∧ new = Claims.ownerBits (e + 1) 0 r.toNat)
        x new hr ?_ ?_).trans rfl)
      · rw [claimOk_iff new hr hown hh ho]
      · rintro ⟨-, rfl, rfl⟩
        exact State.setOwner_next hown he hh ho hr.2
    · refine congrArg Host.Outcome.next ((State.ownerCas_eq (P := True) x new hr ?_ ?_).trans rfl)
      · rw [offerOk_iff new hr hown hh ho]
        exact iff_of_true trivial ⟨hx, hor, m, hm, hne, hnew⟩
      · intro _
        rw [hnew]
        exact State.setOwner_same hown hh ho hm
    · refine congrArg Host.Outcome.next ((State.ownerCas_eq (P := False) (s' := s) x new hr ?_ ?_).trans rfl)
      · rw [offerOk_iff new hr hown hh ho]
        exact iff_of_false id hnot
      · exact False.elim
    · refine congrArg Host.Outcome.next ((State.ownerCas_eq (P := x = s.mgmt.owner ∧ h = r.toNat ∧ new = Claims.ownerBits (e + 1) 0 r.toNat)
        x new hr ?_ ?_).trans rfl)
      · rw [takeOk_iff new hr hown hh ho]
      · rintro ⟨-, -, rfl⟩
        exact State.setOwner_next hown he hh ho hr.2
    · refine congrArg Host.Outcome.next ((State.ownerCas_eq (P := x = s.mgmt.owner ∧ o = r.toNat ∧ new = Claims.ownerBits (e + 1) 0 0)
        x new hr ?_ ?_).trans rfl)
      · rw [releaseOk_iff new hr hown hh ho]
      · rintro ⟨-, -, rfl⟩
        exact State.setOwner_next hown he hh ho (by omega)
  · intro s port m hm hown
    subst hm
    refine ⟨?_, fun since htimer hearly => ?_⟩
    · show Host.Outcome.next (s.linkDown (some port)) = _
      unfold State.linkDown
      rw [if_pos (by exact hown)]
      rfl
    · show Host.Outcome.next (s.linkUp (some port)) = _
      unfold State.linkUp State.setLink
      dsimp only
      rw [htimer, Option.filter_some, if_neg]
      simp only [Bool.or_eq_true, bne_iff_ne, ne_eq, decide_eq_true_eq, not_or, not_not, not_le]
      exact ⟨rfl, hearly⟩
  · intro s hown
    show Host.Outcome.next (s.linkDown none) = _
    unfold State.linkDown
    rw [if_pos (by exact hown)]
    rfl
  · intro s m since e h htimer he hh hm hown
    have howner : s.owner = m.toNat := by
      show ownOf s.mgmt.owner = m.toNat
      rw [hown, ownOf_ownerBits hh hm.2]
    refine ⟨fun hearly => ?_, fun hlate => ⟨linkEvent, rfl, rfl, ?_⟩⟩
    · show execOwnerLinkTimeout s = _
      unfold execOwnerLinkTimeout
      rw [htimer]
      dsimp only
      rw [if_neg (by omega)]
    · have hword : ownerWord (epochOf s.mgmt.owner + 1) 0 0 = Claims.ownerBits (e + 1) 0 0 := by
        rw [hown, epochOf_ownerBits hh hm.2, ownerWord_eq (by omega) (by omega)]
        simp [Claims.ownerBits, Nat.add_mod]
      show execOwnerLinkTimeout s = _
      unfold execOwnerLinkTimeout
      rw [htimer]
      dsimp only
      rw [if_pos hlate, if_pos howner, hword, State.setOwner_next (by exact hown) he hh hm.2 (by omega)]
      simp [Claims.raised]

end Sys2Proof.Machine

end


section
/-! # O54: the mailbox commands (R446 to R448) -/

namespace Sys2Proof.Machine

/-! ## Reading beside a write -/

theorem Memory.readN_write_apart {m : List Host.Cell} (h : Memory.wf m = true) {a x n : Nat} {bs : List Byte}
    (hd : x + n ≤ a ∨ a + bs.length ≤ x) : Memory.readN (Memory.write m a bs) x n = Memory.readN m x n := by
  refine List.map_congr_left fun i hi => ?_
  have := List.mem_range.1 hi
  rw [Memory.read_write h, if_neg (by omega)]

theorem Memory.readN_take (m : List Host.Cell) (a : Nat) {n k : Nat} (h : n ≤ k) :
    Memory.readN m a n = (Memory.readN m a k).take n := by
  unfold Memory.readN
  rw [← List.map_take, List.take_range, Nat.min_eq_left h]

/-! ## The end of a command -/

section Mailbox

variable {s : State} {k : Nat}

theorem State.boxNat_setBox_same (hk : k < 8) (h : Memory.wf (vget s.mgmt.boxes k []) = true) (rel n v : Nat) :
    (s.setBox k rel (bytesOf n v)).boxNat k rel n = v % 2 ^ (8 * n) := by
  unfold State.boxNat State.setBox
  dsimp only
  rw [vget_vmod _ _ _ _ hk, if_pos rfl]
  have hr := Memory.readN_write h rel (bytesOf n v)
  rw [length_bytesOf] at hr
  rw [hr, natOf_bytesOf]

theorem State.boxNat_setBox_apart (hk : k < 8) (h : Memory.wf (vget s.mgmt.boxes k []) = true) {rel off n : Nat} {bs : List Byte}
    (hd : off + n ≤ rel ∨ rel + bs.length ≤ off) : (s.setBox k rel bs).boxNat k off n = s.boxNat k off n := by
  unfold State.boxNat State.setBox
  dsimp only
  rw [vget_vmod _ _ _ _ hk, if_pos rfl, Memory.readN_write_apart h hd]

theorem State.setBox_wf (hk : k < 8) (h : Memory.wf (vget s.mgmt.boxes k []) = true) (rel : Nat) (bs : List Byte) :
    Memory.wf (vget (s.setBox k rel bs).mgmt.boxes k []) = true := by
  unfold State.setBox
  dsimp only
  rw [vget_vmod _ _ _ _ hk, if_pos rfl]
  exact Memory.write_wf h rel bs

/-- A finished command has its status, and nothing else of the words behind it changes. -/
theorem State.finishCommand_status (hk : k < 8) (h : Memory.wf (vget s.mgmt.boxes k []) = true) {status : Nat}
    (hs : status < 2 ^ 32) : (s.finishCommand k status).boxNat k 4 4 = status ∧
      vget (s.finishCommand k status).mgmt.busy k false = false ∧
      ∀ off n, 8 ≤ off → (s.finishCommand k status).boxNat k off n = s.boxNat k off n := by
  refine ⟨?_, ?_, fun off n ho => ?_⟩
  · refine (State.boxNat_setBox_same hk h 4 4 status).trans (Nat.mod_eq_of_lt hs)
  · show vget (vset (s.setBox k 4 (bytesOf 4 status)).mgmt.busy k false) k false = false
    rw [vget_vset _ _ _ _ hk, if_pos rfl]
  · exact State.boxNat_setBox_apart hk h (by rw [length_bytesOf]; omega)

/-- A reply stands in the reply buffer, its length in the mailbox (R446). -/
theorem State.replyWith_spec {r : Nat} (hr : r - 1 < 8) (hbox : Memory.wf (vget s.mgmt.boxes (r - 1) []) = true)
    (hrep : Memory.wf (vget s.mgmt.replies (r - 1) []) = true) (bs : List Byte) :
    (s.replyWith r bs).boxNat (r - 1) 4 4 = 0 ∧ vget (s.replyWith r bs).mgmt.busy (r - 1) false = false ∧
      (s.replyWith r bs).boxNat (r - 1) 8 4 = bs.length % 2 ^ 32 ∧
      Memory.readN (vget (s.replyWith r bs).mgmt.replies (r - 1) []) 0 bs.length = bs := by
  have hbox1 : Memory.wf (vget (s.setReply (r - 1) 0 bs).mgmt.boxes (r - 1) []) = true := hbox
  obtain ⟨hstatus, hbusy, hrest⟩ := State.finishCommand_status (s := (s.setReply (r - 1) 0 bs).setBox (r - 1) 8 (bytesOf 4 bs.length))
    hr (State.setBox_wf hr hbox1 _ _) (status := 0) (by decide)
  refine ⟨hstatus, hbusy, (hrest 8 4 (by omega)).trans (State.boxNat_setBox_same hr hbox1 8 4 bs.length), ?_⟩
  show Memory.readN (vget (s.setReply (r - 1) 0 bs).mgmt.replies (r - 1) []) 0 bs.length = bs
  unfold State.setReply
  dsimp only
  rw [vget_vmod _ _ _ _ hr, if_pos rfl]
  exact Memory.readN_write hrep 0 bs

end Mailbox

/-! ## Which commands run -/

section Commands

variable {s : State} {r : BitVec 8} {code : Nat}

/-- What a command that the running firmware meets gives: an index of a mailbox, and forms. -/
theorem commanded_facts (h : Claims.commanded s r code) : r.toNat - 1 < 8 ∧ BitVec.ofNat 8 r.toNat = r ∧
    Memory.wf (vget s.mgmt.boxes (r.toNat - 1) []) = true ∧ Memory.wf (vget s.mgmt.replies (r.toNat - 1) []) = true := by
  obtain ⟨hr, -, -, -, hwf⟩ := h
  have hlt : r.toNat - 1 < 8 := by have := hr.2; omega
  exact ⟨hlt, by simp, (hwf _ hlt).1, (hwf _ hlt).2⟩

theorem State.command_runs (h : Claims.commanded s r code) {owner : Bool} (howner : owner = true → s.owner = r.toNat)
    (recovery : Bool) (run : State) : s.command r.toNat code owner recovery run = run := by
  obtain ⟨hr, hboot, hbusy, hcode, -⟩ := h
  have hgiven : s.commanded r.toNat code = true := by
    unfold State.commanded
    rw [isMaster_of_master hr, hbusy, hcode]
    simp
  have hrest : (owner && decide (s.owner ≠ r.toNat)) = false := by
    cases howned : owner with
    | false => rfl
    | true => simp [howner howned]
  unfold State.command
  rw [hgiven, hboot, hrest, if_neg (by decide), if_neg (by decide), if_neg Bool.false_ne_true]

/-- What only the owner may issue is refused to others (R446). -/
theorem State.command_refused (h : Claims.commanded s r code) (howner : s.owner ≠ r.toNat) (recovery : Bool) (run : State) :
    s.command r.toNat code true recovery run = s.finishCommand (r.toNat - 1) 1 := by
  obtain ⟨hr, hboot, hbusy, hcode, -⟩ := h
  have hgiven : s.commanded r.toNat code = true := by
    unfold State.commanded
    rw [isMaster_of_master hr, hbusy, hcode]
    simp
  unfold State.command
  rw [hgiven, hboot, if_neg (by decide), if_neg (by decide), if_pos (by simp [howner])]

end Commands

theorem slot_inactive (s : State) : Claims.slot s (!s.mgmt.active) = s.mgmt.inactive := by
  unfold Claims.slot Mgmt.inactive
  cases s.mgmt.active <;> rfl

theorem slot_finish (s : State) (k status : Nat) (b : Bool) : Claims.slot (s.finishCommand k status) b = Claims.slot s b := rfl

theorem checkImage_le (slot : List Host.Cell) (v : Word32) : checkImage slot v ≤ 5 := by
  unfold checkImage
  dsimp only
  split
  · omega
  split
  · omega
  split
  · omega
  split
  · omega
  split <;> omega

theorem slotNat_lt (slot : List Host.Cell) (off n : Nat) : slotNat slot off n < 2 ^ (8 * n) := by
  have hlt := natOf_lt (slotBytes slot off n)
  rwa [slotBytes, show (Memory.readN slot off n).length = n by simp [Memory.readN]] at hlt

theorem setInactive_same (m : Mgmt) : m.setInactive m.inactive = m := by
  unfold Mgmt.setInactive Mgmt.inactive
  split <;> rfl

theorem inactiveFail_setInactiveFail (m : Mgmt) (v : BitVec 8) : (m.setInactiveFail v).inactiveFail = v := by
  unfold Mgmt.setInactiveFail Mgmt.inactiveFail
  cases h : m.active <;> simp [h]

theorem setInactiveFail_keeps (m : Mgmt) (v : BitVec 8) : (m.setInactiveFail v).boxes = m.boxes ∧
    (m.setInactiveFail v).slotA = m.slotA ∧ (m.setInactiveFail v).slotB = m.slotB := by
  unfold Mgmt.setInactiveFail
  split <;> exact ⟨rfl, rfl, rfl⟩

/-! ## `COLLPART` -/

/-- A core's move to the collective partition. -/
def toPool (k : Core) : Core :=
  { k with moving := true, newPart := 8 }

/-- The last four cores of each die move, one after the other. -/
theorem State.core_collpart {s : State} (hstill : ∀ c < 272, (s.core c).moving = false) (n : Nat) (hn : n ≤ 272) :
    ((List.range n).foldl (fun s c => if 64 ≤ c % 68 then s.setCpart c 8 else s) s).mgmt = s.mgmt ∧
    ∀ c < 272, ((List.range n).foldl (fun s c => if 64 ≤ c % 68 then s.setCpart c 8 else s) s).core c =
      if c < n ∧ 64 ≤ c % 68 then toPool (s.core c) else s.core c := by
  induction n with
  | zero => exact ⟨rfl, fun c _ => by simp⟩
  | succ n ih =>
    obtain ⟨hmgmt, hcore⟩ := ih (by omega)
    rw [List.range_succ, List.foldl_append, List.foldl_cons, List.foldl_nil]
    generalize hu : (List.range n).foldl (fun s c => if 64 ≤ c % 68 then s.setCpart c 8 else s) s = u at hmgmt hcore
    have hself : u.core n = s.core n := by
      rw [hcore n (by omega), if_neg (by omega)]
    by_cases hm : 64 ≤ n % 68
    · have hmove : u.setCpart n 8 = u.modCore n toPool := by
        unfold State.setCpart
        dsimp only
        rw [hself, hstill n (by omega), if_neg (by decide)]
        rfl
      rw [if_pos hm, hmove]
      refine ⟨hmgmt, fun c hc => ?_⟩
      show vget (vmod u.cores n Core.reset toPool) c Core.reset = _
      rw [vget_vmod _ _ _ _ (by omega)]
      by_cases hcn : c = n
      · subst hcn
        rw [if_pos rfl, if_pos ⟨by omega, hm⟩]
        exact congrArg toPool hself
      · rw [if_neg hcn]
        refine (hcore c hc).trans (if_congr ?_ rfl rfl)
        omega
    · rw [if_neg hm]
      refine ⟨hmgmt, fun c hc => (hcore c hc).trans (if_congr ?_ rfl rfl)⟩
      constructor
      · rintro ⟨h1, h2⟩
        exact ⟨by omega, h2⟩
      · rintro ⟨h1, h2⟩
        refine ⟨?_, h2⟩
        by_contra hno
        exact hm (by rwa [show n = c by omega])

theorem State.any_moving {s : State} {c : Nat} (hc : c < 272) (h : (s.core c).moving = true) :
    s.cores.toList.any (fun k => k.moving) = true := by
  refine List.any_eq_true.2 ⟨s.core c, ?_, h⟩
  unfold State.core vget
  have hlen : c < s.cores.toList.length := by simpa using hc
  rw [List.getD_eq_getElem _ _ hlen]
  exact List.getElem_mem hlen

/-- Settles O54. -/
theorem mailboxCommands : Obligations.MailboxCommands := by
  refine ⟨?_, ?_, ?_, ?_, ?_, ?_, ?_⟩
  · intro s r h
    obtain ⟨hr, -, hbox, hrep⟩ := commanded_facts h
    obtain ⟨hstatus, hbusy, hlen, hreply⟩ := State.replyWith_spec hr hbox hrep (Claims.certificate s)
    exact ⟨_, congrArg Host.Outcome.next (State.command_runs h (by simp) _ _), ⟨hstatus, hbusy⟩, hreply, hlen⟩
  · intro s r h
    obtain ⟨hr, -, hbox, hrep⟩ := commanded_facts h
    obtain ⟨hstatus, hbusy, hlen, hreply⟩ := State.replyWith_spec (s := { s with freeCtr := s.freeCtr + 1 }) hr hbox hrep
      (s.report r.toNat)
    have hbody : (s.reportBody r.toNat).length = 168 := by
      simp [State.reportBody, Memory.readN]
    have hsize : (s.report r.toNat).length = 3541 := by
      simp [State.report, hbody]
    rw [hsize] at hlen hreply
    have hhead : Claims.reply ({ s with freeCtr := s.freeCtr + 1 }.replyWith r.toNat (s.report r.toNat)) r 0 168 =
        s.reportBody r.toNat := by
      unfold Claims.reply
      rw [Memory.readN_take _ _ (show 168 ≤ 3541 by decide), hreply, State.report, List.append_assoc, ← hbody,
        List.take_left]
    exact ⟨_, congrArg Host.Outcome.next (State.command_runs h (by simp) _ _), ⟨hstatus, hbusy⟩, hlen, hhead,
      s.reportBody r.toNat, Config.mlRandom s.freeCtr, hhead.symm, hreply⟩
  · intro s r off h howner hoff hle hwf
    obtain ⟨hr, -, hbox, -⟩ := commanded_facts h
    rw [slot_inactive] at hwf
    have hrun := State.command_runs (recovery := true) h (owner := true) (fun _ => howner) (run := s.stage r.toNat)
    refine ⟨_, congrArg Host.Outcome.next hrun, ?_⟩
    unfold State.stage
    dsimp only
    rw [← hoff, if_neg (by omega)]
    have hbox1 : Memory.wf (vget { s with mgmt := s.mgmt.setInactive (Memory.write s.mgmt.inactive off
        (Memory.readN (vget s.mgmt.boxes (r.toNat - 1) []) 16 240)) }.mgmt.boxes (r.toNat - 1) []) = true := by
      unfold Mgmt.setInactive
      split <;> exact hbox
    obtain ⟨hstatus, hbusy, -⟩ := State.finishCommand_status hr hbox1 (status := 0) (by decide)
    have hread (x : Nat) : Memory.read (Memory.write s.mgmt.inactive off
        (Memory.readN (vget s.mgmt.boxes (r.toNat - 1) []) 16 240)) x = if off ≤ x ∧ x < off + 240 then
        Memory.read (vget s.mgmt.boxes (r.toNat - 1) []) (16 + (x - off)) else Memory.read s.mgmt.inactive x := by
      rw [Memory.read_write hwf]
      have hlen : (Memory.readN (vget s.mgmt.boxes (r.toNat - 1) []) 16 240).length = 240 := by simp [Memory.readN]
      rw [hlen]
      split
      · next hin =>
        rw [List.getD_eq_getElem _ _ (by rw [hlen]; omega)]
        simp [Memory.readN]
      · rfl
    refine ⟨⟨hstatus, hbusy⟩, ?_, ?_⟩
    · intro x
      rw [slot_inactive, ← hread x, slot_finish]
      unfold Claims.slot Mgmt.setInactive Mgmt.inactive
      cases s.mgmt.active <;> rfl
    · rw [slot_finish]
      unfold Claims.slot Mgmt.setInactive
      cases s.mgmt.active <;> rfl
  · intro s r step h howner hall hstep
    obtain ⟨hr, -, hbox, -⟩ := commanded_facts h
    rw [slot_inactive] at hstep
    have hsmall : step ≤ 5 := hstep ▸ checkImage_le _ _
    have hrun := State.command_runs (recovery := true) h (owner := true) (fun _ => howner) (run := s.update r.toNat)
    refine ⟨_, congrArg Host.Outcome.next hrun, ?_⟩
    unfold State.update State.finishUpdate
    dsimp only
    rw [hall, if_pos rfl, ← hstep, setInactive_same]
    have hkeep := setInactiveFail_keeps s.mgmt
    by_cases h0 : step = 0
    · rw [if_pos h0]
      obtain ⟨hstatus, hbusy, -⟩ := State.finishCommand_status (s := { s with mgmt := s.mgmt.setInactiveFail 0 }) hr
        (by rw [(hkeep 0).1]; exact hbox) (status := 0) (by decide)
      refine ⟨?_, ?_, fun hne => absurd h0 hne, fun b => ?_⟩
      · rw [if_pos h0]
        exact ⟨hstatus, hbusy⟩
      · rw [h0]
        show (s.mgmt.setInactiveFail 0).inactiveFail.toNat = 0
        rw [inactiveFail_setInactiveFail]
        rfl
      · rw [slot_finish]
        unfold Claims.slot
        rw [(hkeep 0).2.1, (hkeep 0).2.2]
    · rw [if_neg h0]
      have hbox1 : Memory.wf (vget { s with mgmt := s.mgmt.setInactiveFail (BitVec.ofNat 8 step) }.mgmt.boxes
          (r.toNat - 1) []) = true := by
        rw [(hkeep _).1]
        exact hbox
      obtain ⟨hstatus, hbusy, hrest⟩ := State.finishCommand_status hr (State.setBox_wf hr hbox1 8 (bytesOf 1 step))
        (status := 2) (by decide)
      refine ⟨?_, ?_, fun _ => ?_, fun b => ?_⟩
      · rw [if_neg h0]
        exact ⟨hstatus, hbusy⟩
      · show (s.mgmt.setInactiveFail (BitVec.ofNat 8 step)).inactiveFail.toNat = step
        rw [inactiveFail_setInactiveFail, BitVec.toNat_ofNat]
        omega
      · rw [hrest 8 1 (by omega), State.boxNat_setBox_same hr hbox1]
        omega
      · rw [slot_finish]
        show Claims.slot { s with mgmt := s.mgmt.setInactiveFail (BitVec.ofNat 8 step) } b = _
        unfold Claims.slot
        rw [(hkeep _).2.1, (hkeep _).2.2]
  · intro s r h howner
    obtain ⟨hr, -, hbox, -⟩ := commanded_facts h
    have hrun := State.command_runs (recovery := false) h (owner := true) (fun _ => howner) (run := s.activate r.toNat)
    refine ⟨fun h0 => ⟨_, congrArg Host.Outcome.next hrun, ?_⟩, fun h0 => ⟨_, congrArg Host.Outcome.next hrun, ?_⟩⟩
    · unfold State.activate
      dsimp only
      rw [if_neg (not_not.2 h0)]
      obtain ⟨hstatus, hbusy, -⟩ := State.finishCommand_status (s := { s with mgmt := { s.mgmt with
        active := !s.mgmt.active, vfloor := BitVec.ofNat 32 (max s.mgmt.vfloor.toNat (slotNat s.mgmt.inactive 4 4)) } })
        hr hbox (status := 0) (by decide)
      refine ⟨⟨hstatus, hbusy⟩, rfl, ?_⟩
      show (BitVec.ofNat 32 (max s.mgmt.vfloor.toNat (slotNat s.mgmt.inactive 4 4))).toNat = _
      have hversion : slotNat s.mgmt.inactive 4 4 < 2 ^ 32 := slotNat_lt _ 4 4
      have hfloor := s.mgmt.vfloor.isLt
      rw [BitVec.toNat_ofNat, slot_inactive, Nat.mod_eq_of_lt (by omega)]
      rfl
    · unfold State.activate
      dsimp only
      rw [if_pos h0]
      obtain ⟨hstatus, hbusy, -⟩ := State.finishCommand_status hr
        (State.setBox_wf hr hbox 8 (bytesOf 1 s.mgmt.inactiveFail.toNat)) (status := 2) (by decide)
      exact ⟨⟨hstatus, hbusy⟩, rfl, rfl⟩
  · intro s r h howner hone hnot hstill
    obtain ⟨hr, hnat, -, -⟩ := commanded_facts h
    have hcommand := h
    obtain ⟨-, -, hbusy, -, -⟩ := h
    obtain ⟨hmgmt, hcore⟩ := State.core_collpart hstill 272 le_rfl
    have hfold : (List.range 272).foldl (fun t c => if s.boxNat (r.toNat - 1) 8 1 = 1 then
        (if 64 ≤ c % 68 then t.setCpart c 8 else t) else if (t.core c).part = 8 then t.setCpart c 15 else t) s =
        (List.range 272).foldl (fun t c => if 64 ≤ c % 68 then t.setCpart c 8 else t) s := by
      refine List.foldl_ext _ _ _ fun t c _ => ?_
      rw [if_pos hone]
    generalize (List.range 272).foldl (fun t c => if 64 ≤ c % 68 then t.setCpart c 8 else t) s = u at hmgmt hcore hfold
    have hmoves : u.cores.toList.any (fun c => c.moving) = true := by
      refine State.any_moving (c := 64) (by decide) ?_
      rw [hcore 64 (by decide), if_pos ⟨by decide, by decide⟩]
      rfl
    have hcmd : s.collpartCmd r.toNat = { u with mgmt := { u.mgmt with collpart := u.mgmt.collpart ++ [r] } } := by
      unfold State.collpartCmd
      dsimp only
      rw [if_neg (by omega), hfold, if_pos hmoves, hnat]
    refine ⟨s.collpartCmd r.toNat, ?_, ?_, ?_, ?_⟩
    · show Host.Outcome.next (if s.mgmt.collpart.contains r then s else _) = _
      rw [if_neg (by simpa using hnot)]
      exact congrArg Host.Outcome.next (State.command_runs (owner := true) hcommand (fun _ => howner) false _)
    · rw [hcmd, hmgmt]
    · rw [hcmd, hmgmt]
      exact hbusy
    · intro c hc
      rw [hcmd]
      refine (hcore c hc).trans (if_congr ?_ rfl rfl)
      simp [hc]
  · intro s r i code h howner hi
    obtain ⟨hr, -, hbox, -⟩ := commanded_facts h
    obtain ⟨hstatus, hbusy, -⟩ := State.finishCommand_status hr hbox (status := 1) (by decide)
    refine ⟨s.finishCommand (r.toNat - 1) 1, ?_, ⟨hstatus, hbusy⟩, rfl, fun b => rfl, rfl⟩
    rcases hi with ⟨rfl, rfl⟩ | ⟨rfl, rfl⟩ | ⟨rfl, rfl⟩ | ⟨rfl, rfl, hnot⟩
    · exact congrArg Host.Outcome.next (State.command_refused h howner _ _)
    · exact congrArg Host.Outcome.next (State.command_refused h howner _ _)
    · exact congrArg Host.Outcome.next (State.command_refused h howner _ _)
    · show Host.Outcome.next (if s.mgmt.collpart.contains r then s else _) = _
      rw [if_neg (by simpa using hnot)]
      exact congrArg Host.Outcome.next (State.command_refused h howner _ _)

end Sys2Proof.Machine

end


section
/-! # O55: reset and boot (R443 to R445) -/

namespace Sys2Proof.Machine

/-! ## Reset -/

/-- A location that no cell names reads 0. -/
theorem Memory.read_of_not_mem {m : List Host.Cell} {x : Nat} (h : ∀ c ∈ m, c.1 ≠ x) : Memory.read m x = 0 := by
  induction m with
  | nil => rfl
  | cons c m ih =>
    unfold Memory.read
    rw [if_neg (h c List.mem_cons_self)]
    split
    · rfl
    · exact ih fun c' hc' => h c' (List.mem_cons_of_mem _ hc')

theorem State.read8_resetModule (s : State) {x : Nat} (hx : x < HOST_BASE ∨ 2 ^ 56 ≤ x) : s.resetModule.read8 x = 0 := by
  refine Memory.read_of_not_mem fun c hc hcx => ?_
  have hin := (List.mem_filter.1 hc).2
  simp only [Bool.and_eq_true, decide_eq_true_eq] at hin
  obtain ⟨hlo, hhi⟩ := hin
  omega

/-! ## Boot -/

/-- Which slot the boot ROM starts: the active one where it passes, else the other (R444). -/
theorem State.boot_spec (s : State) {fails : Bool → Nat} {b : Bool}
    (hf : ∀ b, fails b = checkImage (Claims.slot s b) s.mgmt.vfloor)
    (hb : b = if fails s.mgmt.active = 0 then s.mgmt.active else !s.mgmt.active) :
    s.boot.time = s.time ∧ s.boot.mgmt.failA.toNat = fails false ∧ s.boot.mgmt.failB.toNat = fails true ∧
    (fails b = 0 ∧ s.boot.mgmt.bootState = 1 ∧ s.boot.mgmt.bootSlot = b ∧
        s.boot.mgmt.version.toNat = natOf (Memory.readN (Claims.slot s b) 4 4) ∨
      fails s.mgmt.active ≠ 0 ∧ fails b ≠ 0 ∧ s.boot.mgmt.bootState = 3) := by
  have hA : checkImage s.mgmt.slotA s.mgmt.vfloor = fails false := (hf false).symm
  have hB : checkImage s.mgmt.slotB s.mgmt.vfloor = fails true := (hf true).symm
  have hsmall (b : Bool) : fails b ≤ 5 := hf b ▸ checkImage_le _ _
  have hbyte (b : Bool) : (BitVec.ofNat 8 (fails b)).toNat = fails b := by
    rw [BitVec.toNat_ofNat, Nat.mod_eq_of_lt]
    have := hsmall b
    omega
  have hversion (l : List Host.Cell) : (BitVec.ofNat 32 (slotNat l 4 4)).toNat = natOf (Memory.readN l 4 4) := by
    rw [BitVec.toNat_ofNat]
    exact Nat.mod_eq_of_lt (slotNat_lt l 4 4)
  have hfirst : (if s.mgmt.active then fails true else fails false) = fails s.mgmt.active := by
    cases s.mgmt.active <;> rfl
  have hsecond : (if s.mgmt.active then fails false else fails true) = fails (!s.mgmt.active) := by
    cases s.mgmt.active <;> rfl
  have hslot (b : Bool) : (if b then s.mgmt.slotB else s.mgmt.slotA) = Claims.slot s b := rfl
  unfold State.boot
  dsimp only
  rw [hA, hB, hfirst, hsecond]
  by_cases h1 : fails s.mgmt.active = 0
  · rw [if_pos h1] at hb ⊢
    subst hb
    dsimp only
    rw [hslot]
    exact ⟨rfl, hbyte _, hbyte _, .inl ⟨h1, rfl, rfl, hversion _⟩⟩
  · rw [if_neg h1] at hb ⊢
    subst hb
    by_cases h2 : fails (!s.mgmt.active) = 0
    · rw [if_pos h2]
      dsimp only
      rw [hslot]
      exact ⟨rfl, hbyte _, hbyte _, .inl ⟨h2, rfl, rfl, hversion _⟩⟩
    · rw [if_neg h2]
      exact ⟨rfl, hbyte _, hbyte _, .inr ⟨h1, h2, rfl⟩⟩

theorem State.firmwareUp_spec (s : State) : (∀ c < 272, (s.firmwareUp.core c).svec = Config.svec c) ∧
    ∀ d < 4, ∀ k < 2, vget (s.firmwareUp.die d).ctrlRuns k false = true := by
  refine ⟨fun c hc => ?_, fun d hd k hk => ?_⟩
  · show (vget (vecOf 272 (fun c => { s.core c with svec := Config.svec c })) c Core.reset).svec = _
    rw [vget_vecOf _ _ _ _ hc]
  · have hdie : s.firmwareUp.die d = { s.dies[d] with ctrlRuns := Vector.replicate 2 true } := by
      show vget (s.dies.map fun d => { d with ctrlRuns := Vector.replicate 2 true }) d Die.reset = _
      simp [vget, List.getD, hd]
    rw [hdie]
    exact vget_replicate_lt true false hk

/-! ## `RESETREQ` -/

theorem exec_resetreq {s : State} {r : BitVec 8} (hr : Claims.master r) (v : Word32) :
    exec (.resetreq r v) s = .next (if r.toNat = s.owner then (if v = 0x5245_5345 then s.resetModule else s) else s.deny) := by
  show Host.Outcome.next (s.regWrite (.master r.toNat) 0x10 4 v.toNat) = _
  have hmagic : (v.toNat % 2 ^ 32 = 0x5245_5345) ↔ v = 0x5245_5345 := by
    rw [Nat.mod_eq_of_lt v.isLt]
    exact BitVec.toNat_inj (y := 0x5245_5345)
  have harrives : (Agent.master r.toNat).arrives = true := isMaster_of_master hr
  unfold State.regWrite
  rw [harrives, if_neg (by decide), if_pos (by decide)]
  unfold State.mgmtWrite
  show Host.Outcome.next (if r.toNat = s.owner then
    (if (decide ((16 : Nat) = 0x10) && decide ((4 : Nat) = 4) && decide (v.toNat % 2 ^ 32 = 0x5245_5345)) then s.resetModule else s)
    else s.deny) = _
  simp only [hmagic, decide_true, Bool.true_and, decide_eq_true_eq]

/-- Settles O55. -/
theorem resetsRestart : Obligations.ResetsRestart := by
  refine ⟨fun s => ?_, ?_, ?_, ?_, ?_, ?_⟩
  · refine ⟨s.resetModule, rfl, rfl, rfl, rfl, rfl, rfl, rfl, rfl, rfl, rfl, rfl, rfl, rfl, rfl, rfl, rfl, rfl, rfl, rfl, ?_⟩
    exact fun _ x hx => State.read8_resetModule s hx
  · intro s t dt fails b hdt hboot ht hf hb
    have hpass : t = State.boot { s with time := s.time + BitVec.ofNat 64 dt } := by
      rw [ht, State.pass, if_neg hdt, if_pos hboot]
    rw [hpass]
    exact State.boot_spec { s with time := s.time + BitVec.ofNat 64 dt } (fun b => congrFun hf b) hb
  · intro s t dt hdt hboot ht
    have hpass : t = State.firmwareUp { s with time := s.time + BitVec.ofNat 64 dt } := by
      rw [ht, State.pass, if_neg hdt, if_neg (by rw [hboot]; decide), if_pos hboot]
    rw [hpass]
    exact ⟨rfl, rfl, State.firmwareUp_spec _⟩
  · intro s dt h
    unfold State.pass
    dsimp only
    rcases h with h | h
    · rw [if_pos h]
    · have h0 : s.mgmt.bootState ≠ 0 := by
        rintro h0
        rw [h0] at h
        exact absurd h (by decide)
      have h1 : s.mgmt.bootState ≠ 1 := by
        rintro h1
        rw [h1] at h
        exact absurd h (by decide)
      rw [if_neg h0, if_neg h1, ite_self]
  · intro s r hr howner
    refine ⟨?_, fun v hv => ?_⟩
    · rw [exec_resetreq hr, if_pos howner, if_pos rfl]
      rfl
    · rw [exec_resetreq hr, if_pos howner, if_neg hv]
  · intro s r v hr howner hcount
    rw [exec_resetreq hr, if_neg howner, State.deny, if_neg hcount]

end Sys2Proof.Machine

end


section
/-! # O56: soft errors, the host and the peers, the ports, the power cap -/

namespace Sys2Proof.Machine

/-! ## Soft errors (R377, R394, R420, R437) -/

theorem unitHome_die {loc : Nat} (h : unitExists loc = true) : (unitHome loc).1 < 4 := by
  unfold unitExists at h
  simp only [Bool.or_eq_true, decide_eq_true_eq, Bool.and_eq_true] at h
  unfold unitHome
  split
  · next hs =>
    have hin : 2 ^ 56 ≤ loc := of_decide_eq_true hs
    have hend : MAIN_END = 0x0048_0000_0000 := rfl
    show (loc - 2 ^ 56) / 2 ^ 20 / 68 < 4
    omega
  · exact Nat.mod_lt _ (by decide)

theorem unitHome_main {loc : Nat} (h : loc < MAIN_END) : (unitHome (loc / 16 * 16)).1 = loc / 4096 % 4 := by
  have hend : MAIN_END = 0x0048_0000_0000 := rfl
  unfold unitHome
  rw [if_neg]
  · show loc / 16 * 16 / 4096 % 4 = _
    omega
  · unfold isScr
    rw [decide_eq_true_eq]
    omega

theorem unitExists_unit {loc : Nat} (h : loc < MAIN_END ∨ 2 ^ 56 ≤ loc ∧ loc < 2 ^ 56 + 272 * 2 ^ 20) :
    unitExists (loc / 16 * 16) = true := by
  have hend : MAIN_END = 0x0048_0000_0000 := rfl
  unfold unitExists
  simp only [Bool.or_eq_true, decide_eq_true_eq, Bool.and_eq_true]
  omega

/-- An event of no team, at a die without a ring, changes the interrupts alone (R437). -/
theorem State.log_interrupts {s : State} {e : LogEvent} (he : (s.die e.die).elsizel = 0) (ht : e.team = none) :
    ∃ m, s.log e = { s with mgmt := m } := by
  have hring : s.ringed e = s := by rw [State.ringed, if_pos he]
  rw [State.log_eq, hring, State.notified, ht]
  dsimp only
  unfold State.raise
  split <;> exact ⟨_, rfl⟩

/-- The log entry of a soft error (R437). -/
def softEvent (loc kind : Nat) : LogEvent :=
  { die := (unitHome loc).1, kind := kind, unit := (unitHome loc).1 * 4096 + (unitHome loc).2.1,
    data := bytesOf 8 (unitHome loc).2.2 }

theorem State.logSoft_eq (s : State) (loc kind : Nat) : s.logSoft loc kind = s.log (softEvent loc kind) := rfl

theorem State.logSoft_quiet {s : State} {loc : Nat} (kind : Nat) (hu : unitExists loc = true)
    (hd : ∀ d < 4, (s.die d).elsizel = 0) : ∃ m, s.logSoft loc kind = { s with mgmt := m } := by
  rw [State.logSoft_eq]
  exact State.log_interrupts (hd _ (unitHome_die hu)) rfl

theorem struckAt_unit {loc : Nat} (h : loc < 2 ^ 57) : struckAt loc = .unit (loc / 16 * 16) := by
  unfold struckAt
  rw [if_neg (by omega), if_neg (by omega)]

theorem exec_softError {s : State} {loc u : Nat} {c : Bool} (hloc : struckAt loc = .unit u) (hu : unitExists u = true) :
    exec (.softError loc c) s = .next (if c then s.corrected u else (s.setPoison u).logSoft u 3) := by
  show execSoftError loc c s = _
  unfold execSoftError
  rw [hloc]
  dsimp only
  rw [hu, if_neg (by decide)]
  cases c <;> rfl

/-- A die that has counted a corrected error. -/
def Die.counts (d : Die) : Die :=
  { d with cecount := if d.cecount = 0xFFFF_FFFF then d.cecount else d.cecount + 1 }

/-- A die that has logged a corrected error of a unit. -/
def Die.notes (u : Nat) (t : Word64) (d : Die) : Die :=
  { d with ceUnits := d.ceUnits.filter (fun p => p.1 != u / 16) ++ [(u / 16, t)] }

theorem State.corrected_eq (s : State) (u : Nat) : s.corrected u =
    if (s.die (unitHome u).1).ceUnits.any (fun p => p.1 == u / 16 && (s.time - p.2).toNat < 10 ^ 9) then
      s.modDie (unitHome u).1 Die.counts
    else ((s.modDie (unitHome u).1 Die.counts).modDie (unitHome u).1 (Die.notes u s.time)).logSoft u 2 := rfl

/-- A team of which an error has struck a stream register. -/
def Team.strikes (r : Nat) (t : Team) : Team :=
  { t with streams := t.streams.modify r (fun x => { x with poison := true }) }

/-- A corrected error is counted, up to the largest count, and changes no data. -/
theorem State.corrected_spec {s : State} {u : Nat} (hu : unitExists u = true) (hd : ∀ d < 4, (s.die d).elsizel = 0) :
    (s.corrected u).mem = s.mem ∧ (s.corrected u).poison = s.poison ∧ (s.corrected u).groups = s.groups ∧
      ((s.corrected u).die (unitHome u).1).cecount =
        (if (s.die (unitHome u).1).cecount = 0xFFFF_FFFF then 0xFFFF_FFFF else (s.die (unitHome u).1).cecount + 1) := by
  have hdie := unitHome_die hu
  have hcount : (Die.counts (s.die (unitHome u).1)).cecount =
      if (s.die (unitHome u).1).cecount = 0xFFFF_FFFF then 0xFFFF_FFFF else (s.die (unitHome u).1).cecount + 1 := by
    show (if (s.die (unitHome u).1).cecount = 0xFFFF_FFFF then (s.die (unitHome u).1).cecount
      else (s.die (unitHome u).1).cecount + 1) = _
    split
    · next h => exact h
    · rfl
  rw [State.corrected_eq]
  split
  · refine ⟨rfl, rfl, rfl, ?_⟩
    rw [State.die_modDie _ hdie, if_pos rfl]
    exact hcount
  · have hquiet : ∀ d < 4, (((s.modDie (unitHome u).1 Die.counts).modDie (unitHome u).1 (Die.notes u s.time)).die d).elsizel
        = 0 := by
      intro d hlt
      rw [State.die_modDie _ hdie, State.die_modDie _ hdie, State.die_modDie _ hdie, if_pos rfl]
      split
      · exact hd _ hdie
      · exact hd d hlt
    obtain ⟨m, hm⟩ := State.logSoft_quiet 2 hu hquiet
    rw [hm]
    refine ⟨rfl, rfl, rfl, ?_⟩
    show (((s.modDie _ _).modDie _ (Die.notes u s.time)).die _).cecount = _
    rw [State.die_modDie _ hdie, if_pos rfl, State.die_modDie _ hdie, if_pos rfl]
    exact hcount

/-! ## Requests on memory (R27, R272, R298) -/

theorem HOST_not_window {addr : Word64} {n : Nat} (h : addr.toNat + n ≤ MAIN_END) : regionOf none addr = .translated := by
  have hend : MAIN_END = 0x0048_0000_0000 := rfl
  have hsram : SRAM_BASE = 0x00C0_0000_0000_0000 := rfl
  unfold regionOf
  dsimp only
  rw [if_pos (by omega)]

/-- A request of a master that reaches memory. -/
theorem exec_memRequest {s : State} {r : BitVec 8} {addr : Word64} (size : Nat) (op : HostOp) (hr : Claims.master r)
    (h2 : r ≠ 2) (hboot : s.mgmt.bootState = 2) (hreg : ∀ off, regionOf none addr ≠ .supv off) :
    exec (.hostOrPeerRequest (.master r) addr size op) s = .next (s.memRequest (.master r) addr size op) := by
  show execHostOrPeerRequest (.master r) addr size op s = _
  unfold execHostOrPeerRequest
  have hgo : (isMaster r.toNat && r != 2 && decide (s.mgmt.bootState = 2)) = true := by
    rw [isMaster_of_master hr, hboot]
    simpa using h2
  cases hc : regionOf none addr with
  | supv off => exact absurd hc (hreg off)
  | _ => dsimp only; rw [hgo, if_pos rfl]

theorem State.memRequest_swap (s : State) (who : Requester) (addr : Word64) (size n : Nat) (v : Code) :
    s.memRequest who addr size (.swap n v) = s.hostAtomic who addr n [4, 8] (fun _ => v) := rfl

theorem State.memRequest_fetchAdd (s : State) (who : Requester) (addr : Word64) (size n : Nat) (v : Code) :
    s.memRequest who addr size (.fetchAdd n v) = s.hostAtomic who addr n [4, 8] (fun old => old + v) := rfl

theorem State.memRequest_cas (s : State) (who : Requester) (addr : Word64) (size n : Nat) (e x : Code) :
    s.memRequest who addr size (.cas n e x) =
      s.hostAtomic who addr n [4, 8, 16] (fun old => if old.toNat = e.toNat % 2 ^ (8 * n) then x else old) := rfl

/-- A read-modify-write of an aligned word of main memory (R272). -/
theorem State.hostAtomic_main {s : State} (who : Requester) {addr : Word64} {n : Nat} {sizes : List Nat} (f : Code → Code)
    (hsize : sizes.contains n = true) (halign : addr.toNat % n = 0) (hin : addr.toNat + n ≤ MAIN_END)
    (hclean : s.poisonIn addr.toNat n = none) : s.hostAtomic who addr n sizes f =
      { s.writeNat addr.toNat n ((f (BitVec.ofNat 128 (s.readNat addr.toNat n))).toNat % 2 ^ (8 * n)) with
        answer := some (who, s.readNat addr.toNat n) } := by
  have hloc : requestLoc addr n = some addr.toNat := if_pos hin
  unfold State.hostAtomic
  rw [hsize, halign, if_neg (by simp), hloc]
  dsimp only
  rw [hclean, Option.isSome_none, if_neg Bool.false_ne_true]
  rfl

/-! ## The register window -/

theorem exec_windowRequest {s : State} {r : BitVec 8} {addr : Word64} {off : Nat} (size : Nat) (op : HostOp)
    (hr : Claims.master r) (hreg : regionOf none addr = .supv off) :
    exec (.hostOrPeerRequest (.master r) addr size op) s = .next (s.windowRequest r off size op) := by
  show execHostOrPeerRequest (.master r) addr size op s = _
  unfold execHostOrPeerRequest
  rw [hreg]
  dsimp only
  rw [isMaster_of_master hr, if_pos rfl]

theorem exec_vfRequest {s : State} {p : BitVec 3} {addr : Word64} {off : Nat} (size : Nat) (op : HostOp)
    (hreg : regionOf none addr = .supv off) :
    exec (.hostOrPeerRequest (.vf p) addr size op) s = .next (s.vfRequest p off size op) := by
  show execHostOrPeerRequest (.vf p) addr size op s = _
  unfold execHostOrPeerRequest
  rw [hreg]

theorem supv_lt {addr : Word64} {off : Nat} (h : regionOf none addr = .supv off) : off < 2 ^ 24 := by
  unfold regionOf at h
  dsimp only at h
  split at h
  · cases h
  split at h
  · split at h <;> cases h
  split at h
  · cases h
  split at h
  · next hin =>
    have hoff := Region.supv.inj h
    simp only [Bool.and_eq_true, decide_eq_true_eq] at hin
    omega
  · cases h

/-- `QTAIL` of a queue (R112, R114). -/
theorem State.regRead_qtail (s : State) (who : Agent) {q : Nat} (hq : q < 64) (hboot : s.mgmt.bootState ≠ 3) :
    s.regRead who (0x4_0000 + 32 * q + 12) 4 = (s.queue q).tail.toNat := by
  have hat : regAt (0x4_0000 + 32 * q + 12) = some (.qtail q, 0x4_0000 + 32 * q + 12) := by
    unfold regAt
    rw [if_neg (by omega), if_pos (by simp only [Bool.and_eq_true, decide_eq_true_eq]; omega)]
    have hrel : (0x4_0000 + 32 * q + 12) % 32 = 12 := by omega
    have hidx : (0x4_0000 + 32 * q + 12 - 0x4_0000) / 32 = q := by omega
    have hbase : (0x4_0000 + 32 * q + 12) / 32 * 32 + 12 = 0x4_0000 + 32 * q + 12 := by omega
    rw [hrel, hidx]
    unfold queueAt
    rw [if_neg (by decide), if_neg (by decide), if_pos (by decide), hbase]
  have hlt := (s.queue q).tail.isLt
  unfold State.regRead
  rw [hat]
  dsimp only
  rw [Nat.sub_self]
  have hread : (!(Reg.qtail q).readable 0 4 || (decide (0x3_0000 ≤ 0x4_0000 + 32 * q + 12) && decide (s.mgmt.bootState = 3))) = false := by
    rw [decide_eq_false hboot, Bool.and_false]
    rfl
  rw [hread, if_neg Bool.false_ne_true]
  show (s.queue q).tail.toNat / 2 ^ (8 * 0) % 2 ^ (8 * 4) = _
  rw [Nat.mul_zero, pow_zero, Nat.div_one, Nat.mod_eq_of_lt hlt]

/-- A byte of a reply buffer, to its own master (R439). -/
theorem State.regRead_reply (s : State) (r : Nat) {m k : Nat} (hm : m < 8) (hk : k < 0x4000) :
    s.regRead (.master r) (0x1_0000 + 0x4000 * m + k) 1 =
      if m + 1 = r then (Memory.read (vget s.mgmt.replies m []) k).toNat else 0 := by
  have hat : regAt (0x1_0000 + 0x4000 * m + k) = some (.reply m, 0x1_0000 + 0x4000 * m) := by
    unfold regAt
    rw [if_pos (by omega)]
    unfold mgmtAt
    rw [if_neg (by omega), if_neg (by omega), if_neg (by omega), if_neg (by omega),
      if_neg (by simp only [Bool.and_eq_true, decide_eq_true_eq]; omega),
      if_pos (by simp only [Bool.and_eq_true, decide_eq_true_eq]; omega)]
    have hidx : (0x1_0000 + 0x4000 * m + k - 0x1_0000) / 0x4000 = m := by omega
    have hbase : (0x1_0000 + 0x4000 * m + k) / 0x4000 * 0x4000 = 0x1_0000 + 0x4000 * m := by omega
    rw [hidx, hbase]
  unfold State.regRead
  rw [hat]
  dsimp only
  rw [Nat.add_sub_cancel_left]
  have hread : (!(Reg.reply m).readable k 1 || (decide (0x3_0000 ≤ 0x1_0000 + 0x4000 * m + k) && decide (s.mgmt.bootState = 3))) = false := by
    rw [decide_eq_false (show ¬ 0x3_0000 ≤ 0x1_0000 + 0x4000 * m + k by omega), Bool.false_and, Bool.or_false]
    unfold Reg.readable
    rw [Nat.mod_one]
    rfl
  rw [hread, if_neg Bool.false_ne_true]
  refine if_congr ?_ ?_ rfl
  · simp only [Agent.master.injEq]
    exact eq_comm
  · simp [Memory.readN, natOf]

/-- `OWNER` (R440). -/
theorem State.regRead_owner (s : State) (who : Agent) : s.regRead who 0 8 = s.mgmt.owner.toNat := by
  have hlt := s.mgmt.owner.isLt
  show s.mgmt.owner.toNat / 2 ^ (8 * 0) % 2 ^ (8 * 8) = _
  rw [Nat.mul_zero, pow_zero, Nat.div_one, Nat.mod_eq_of_lt hlt]

/-- The place of a queue among those of its partition. -/
theorem filter_range_getElem {n q : Nat} (hq : q < n) {p : Nat → Bool} (hp : p q = true) :
    ((List.range n).filter p)[((List.range q).filter p).length]? = some q := by
  obtain ⟨k, rfl⟩ : ∃ k, n = q + (k + 1) := ⟨n - q - 1, by omega⟩
  rw [List.range_add, List.range_succ_eq_map, List.map_cons, Nat.add_zero, List.filter_append, List.getElem?_append_right le_rfl, Nat.sub_self, List.filter_cons_of_pos hp]
  rfl

/-- Settles O56. -/
theorem outsideEvents : Obligations.OutsideEvents := by
  refine ⟨⟨?_, ?_, ?_, ?_⟩, ?_, ?_, ?_, ?_, ?_, ?_, ?_, ?_⟩
  · intro s loc hin hlt hd
    have hu := unitExists_unit hin
    obtain ⟨m, hm⟩ := State.logSoft_quiet (s := s.setPoison (loc / 16 * 16)) 3 hu hd
    refine ⟨_, (exec_softError (struckAt_unit hlt) hu).trans (congrArg Host.Outcome.next hm), rfl, fun u => ?_⟩
    show u ∈ insertNat (loc / 16 * 16 / 16) s.poison ↔ _
    rw [mem_insertNat, Nat.mul_div_cancel _ (by decide), or_comm, eq_comm (a := loc / 16)]
  · intro s loc d hin hdie hd
    have hend : MAIN_END = 0x0048_0000_0000 := rfl
    have hu := unitExists_unit (.inl hin)
    have hspec := State.corrected_spec hu hd
    rw [unitHome_main hin, ← hdie] at hspec
    exact ⟨_, exec_softError (c := true) (struckAt_unit (by omega)) hu, hspec⟩
  · intro s t r x hr hlt ht hx
    have hstruck : struckAt (2 ^ 57 + 64 * t.id + r) = .stream t.id r := by
      unfold struckAt
      rw [if_neg (by omega), if_pos (by omega), show (2 ^ 57 + 64 * t.id + r - 2 ^ 57) / 64 = t.id by omega,
        show (2 ^ 57 + 64 * t.id + r - 2 ^ 57) % 64 = r by omega]
    refine ⟨s.modTeam t.id (Team.strikes r), Team.strikes r t, ?_, ?_, ?_⟩
    · show execSoftError _ false s = _
      unfold execSoftError
      rw [hstruck]
      rfl
    · rw [State.team?_modTeam _ _ (by intro _; rfl), ht, Option.map_some, if_pos rfl]
    · show (t.streams.modify r (fun x => { x with poison := true }))[r]? = _
      rw [List.getElem?_modify, hx]
      simp
  · intro s q i x hq hi hx
    have hstruck : struckAt (2 ^ 58 + 4096 * q + i) = .entry q i := by
      unfold struckAt
      rw [if_pos (by omega), show (2 ^ 58 + 4096 * q + i - 2 ^ 58) / 4096 = q by omega,
        show (2 ^ 58 + 4096 * q + i - 2 ^ 58) % 4096 = i by omega]
    refine ⟨s.setIpq q { s.ipq q with entries := (s.ipq q).entries.modify i (fun x => { x with poison := true }) }, ?_, ?_⟩
    · show execSoftError _ false s = _
      unfold execSoftError
      rw [hstruck]
      rfl
    · rw [State.ipq_setIpq s hq]
      show ((s.ipq q).entries.modify i (fun x => { x with poison := true }))[i]? = _
      rw [List.getElem?_modify, hx]
      simp
  · intro s r addr bs loc hr h2 hboot hplace
    have hreg : ∀ off, regionOf none addr ≠ .supv off := by
      intro off
      rcases hplace with ⟨hin, -⟩ | ⟨-, c, o, hscr, -, -⟩
      · rw [HOST_not_window hin]
        exact fun h => Region.noConfusion h
      · rw [hscr]
        exact fun h => Region.noConfusion h
    have hloc : requestLoc addr bs.length = some loc := by
      unfold requestLoc
      rcases hplace with ⟨hin, rfl⟩ | ⟨hout, c, o, hscr, hfit, rfl⟩
      · rw [if_pos hin]
      · rw [if_neg (by omega), hscr]
        dsimp only
        rw [if_pos hfit]
    rw [exec_memRequest _ _ hr h2 hboot hreg, exec_memRequest _ _ hr h2 hboot hreg]
    unfold State.memRequest atomicOf
    dsimp only
    rw [hloc]
    dsimp only
    rw [if_pos rfl]
    exact ⟨rfl, rfl⟩
  · intro s r addr n size v e x old now hr h2 hboot hn halign hin hclean hold hnow
    subst hnow
    have hreg : ∀ off, regionOf none addr ≠ .supv off := by
      intro off
      rw [HOST_not_window hin]
      exact fun h => Region.noConfusion h
    have hlt : old < 2 ^ (8 * n) := hold ▸ State.readNat_lt s addr.toNat n
    have hpow : 2 ^ (8 * n) ∣ 2 ^ 128 := Nat.pow_dvd_pow 2 (by omega)
    have hwide : (BitVec.ofNat 128 old).toNat = old := by
      rw [BitVec.toNat_ofNat, Nat.mod_eq_of_lt (lt_of_lt_of_le hlt (Nat.le_of_dvd (by decide) hpow))]
    have hsize : ([4, 8] : List Nat).contains n = true ∧ ([4, 8, 16] : List Nat).contains n = true := by
      rcases hn with rfl | rfl <;> exact ⟨rfl, rfl⟩
    refine ⟨?_, ?_, ?_⟩
    · rw [exec_memRequest _ _ hr h2 hboot hreg, State.memRequest_swap, State.hostAtomic_main _ _ hsize.1 halign hin hclean,
        ← hold]
    · rw [exec_memRequest _ _ hr h2 hboot hreg, State.memRequest_fetchAdd,
        State.hostAtomic_main _ _ hsize.1 halign hin hclean, ← hold, BitVec.toNat_add, hwide, Nat.mod_mod_of_dvd _ hpow]
    · rw [exec_memRequest _ _ hr h2 hboot hreg, State.memRequest_cas, State.hostAtomic_main _ _ hsize.2 halign hin hclean,
        ← hold, hwide]
      by_cases he : old = e.toNat % 2 ^ (8 * n)
      · rw [if_pos he, if_pos he]
      · rw [if_neg he, if_neg he, hwide, Nat.mod_eq_of_lt hlt]
  · intro s who addr size op hwho hreg
    show execHostOrPeerRequest who addr size op s = _
    unfold execHostOrPeerRequest
    cases hc : regionOf none addr with
    | supv off => exact absurd hc (hreg off)
    | translated | scratch | unmapped =>
      rcases hwho with ⟨p, rfl⟩ | rfl | hboot
      · rfl
      · dsimp only
        rw [if_neg]
        simp
      · cases who with
        | vf p => rfl
        | master r =>
          dsimp only
          rw [if_neg]
          simp only [Bool.and_eq_true, decide_eq_true_eq, not_and]
          exact fun _ => hboot
  · intro s p addr off size hreg
    refine ⟨fun q j hq hpart hboot hj hoff => ?_, fun hno htwenty => ?_⟩
    · rw [exec_vfRequest _ _ hreg]
      have hplace : s.vfOffset p.toNat off = some (0x4_0000 + 32 * q + 12) := by
        have hjlt : j ≤ 64 := by
          have := List.length_filter_le (fun k => (s.queue k).qpart.toNat == p.toNat) (List.range q)
          rw [List.length_range] at this
          omega
        unfold State.vfOffset
        rw [if_neg (by omega), if_pos (by omega), hoff, show (32 * j + 12) / 32 = j by omega, hj,
          filter_range_getElem hq (p := fun k => (s.queue k).qpart.toNat == p.toNat) (by simpa using hpart)]
        rfl
      show Host.Outcome.next (s.reply (.vf p) (s.vfRead p off 4)) = _
      unfold State.vfRead
      rw [hplace, Option.map_some, State.regRead_qtail s _ hq hboot]
      rfl
    · have hplace : s.vfOffset p.toNat off = none := by
        unfold State.vfOffset
        rw [if_neg htwenty, if_neg hno]
      refine ⟨?_, fun bs => ?_⟩
      · rw [exec_vfRequest _ _ hreg]
        show Host.Outcome.next (s.reply (.vf p) (s.vfRead p off size)) = _
        unfold State.vfRead
        rw [hplace]
        rfl
      · rw [exec_vfRequest _ _ hreg]
        unfold State.vfRequest
        dsimp only
        rw [if_pos rfl, State.vfWrite, hplace]
  · intro s r addr off hr hreg
    refine ⟨fun h0 => ?_, fun k m hk hm hoff => ?_, fun bs hbs => ?_⟩
    · rw [exec_windowRequest _ _ hr hreg, h0]
      show Host.Outcome.next (s.reply (.master r) (s.regRead (.master r.toNat) 0 8)) = _
      rw [State.regRead_owner]
      rfl
    · rw [exec_windowRequest _ _ hr hreg, hoff]
      show Host.Outcome.next (s.reply (.master r) (s.regRead (.master r.toNat) _ 1)) = _
      rw [State.regRead_reply s r.toNat hm hk]
      rfl
    · have hoff : (BitVec.ofNat 24 off).toNat = off := by
        rw [BitVec.toNat_ofNat, Nat.mod_eq_of_lt (supv_lt hreg)]
      have hval : (BitVec.ofNat 64 (natOf bs)).toNat = natOf bs := by
        rw [BitVec.toNat_ofNat, Nat.mod_eq_of_lt]
        exact lt_of_lt_of_le (natOf_lt bs) (Nat.pow_le_pow_right (by decide) (by omega))
      rw [exec_windowRequest _ _ hr hreg]
      show _ = Host.Outcome.next (s.regWrite (.master r.toNat) (BitVec.ofNat 24 off).toNat bs.length (BitVec.ofNat 64 (natOf bs)).toNat)
      rw [hoff, hval]
      unfold State.windowRequest
      dsimp only
      rw [if_pos rfl]
  · intro s p m hp hm
    refine ⟨⟨s.linkDown (some p), rfl, ?_, ?_, ?_⟩, ⟨s.linkUp (some p), rfl, rfl, ?_, ?_⟩⟩
    · unfold State.linkDown
      dsimp only
      split <;> rfl
    · unfold State.linkDown
      dsimp only
      rw [hm]
      show State.mgmt (if s.owner = (3 + p.setWidth 8 : BitVec 8).toNat then _ else _) = _
      split <;> rfl
    · intro k hk
      have hpeer : (s.linkDown (some p)).peerUp = vset s.peerUp p.toNat false := by
        unfold State.linkDown
        dsimp only
        split <;> rfl
      rw [hpeer, vget_vset _ _ _ _ hp]
    · intro hother
      have hkeep : s.mgmt.timer.filter (fun q => q.1 != masterAt (some p) || decide (10 ^ 9 ≤ (s.time - q.2).toNat)) =
          s.mgmt.timer := by
        rcases ht : s.mgmt.timer with - | q
        · rfl
        · have hne : q.1 ≠ masterAt (some p) := fun he => hother q ht (he.trans hm.symm)
          rw [Option.filter_some, if_pos]
          simp [hne]
      exact congrArg (fun q => { s.mgmt with timer := q }) hkeep
    · intro k hk
      show vget (vset s.peerUp p.toNat true) k false = _
      rw [vget_vset _ _ _ _ hp]
  · intro s s1 dt w rest hag hs1
    unfold step
    rw [hag]
    dsimp only
    rw [← hs1]
    unfold State.setCap
    refine congrArg Host.Outcome.next (if_congr ?_ rfl rfl)
    unfold isMaster
    simp only [Bool.and_eq_true, decide_eq_true_eq]
    exact and_assoc
  · intro s
    show (_ → execClkstep s = _) ∧ (_ → execClkstep s = _)
    unfold execClkstep
    refine ⟨fun h => if_pos h, fun h => ?_⟩
    rw [if_neg (by omega)]

end Sys2Proof.Machine

end


section
/-! # O51: writes of the register window (R33, R112 to R114, R123) -/

namespace Sys2Proof.Machine

/-! ## The registers at their offsets (R32) -/

theorem regAt_queue {q rel : Nat} (hq : q < 64) (hrel : rel < 32) :
    regAt (0x4_0000 + 32 * q + rel) = queueAt q (0x4_0000 + 32 * q) rel := by
  unfold regAt
  rw [if_neg (by omega), if_pos (by simp only [Bool.and_eq_true, decide_eq_true_eq]; omega),
    show (0x4_0000 + 32 * q + rel - 0x4_0000) / 32 = q by omega,
    show (0x4_0000 + 32 * q + rel) / 32 * 32 = 0x4_0000 + 32 * q by omega,
    show (0x4_0000 + 32 * q + rel) % 32 = rel by omega]

theorem regAt_ipq {q : Nat} (hq : q < 1024) : regAt (0x6_0000 + 4 * q) = some (.ipqcfg q, 0x6_0000 + 4 * q) := by
  unfold regAt
  rw [if_neg (by omega), if_neg (by simp only [Bool.and_eq_true, decide_eq_true_eq]; omega),
    if_neg (by simp only [Bool.and_eq_true, decide_eq_true_eq]; omega),
    if_pos (by simp only [Bool.and_eq_true, decide_eq_true_eq]; omega), show (0x6_0000 + 4 * q - 0x6_0000) / 4 = q by omega,
    show (0x6_0000 + 4 * q) / 4 * 4 = 0x6_0000 + 4 * q by omega]

theorem regAt_part {p rel : Nat} (hp : p < 8) (hrel : rel < 0x1_0000) :
    regAt (0x8_0000 + 0x1_0000 * p + rel) = partAt p (0x8_0000 + 0x1_0000 * p) rel := by
  unfold regAt
  rw [if_neg (by omega), if_neg (by simp only [Bool.and_eq_true, decide_eq_true_eq]; omega),
    if_neg (by simp only [Bool.and_eq_true, decide_eq_true_eq]; omega),
    if_neg (by simp only [Bool.and_eq_true, decide_eq_true_eq]; omega),
    if_pos (by simp only [Bool.and_eq_true, decide_eq_true_eq]; omega),
    show (0x8_0000 + 0x1_0000 * p + rel - 0x8_0000) / 0x1_0000 = p by omega,
    show (0x8_0000 + 0x1_0000 * p + rel) / 0x1_0000 * 0x1_0000 = 0x8_0000 + 0x1_0000 * p by omega,
    show (0x8_0000 + 0x1_0000 * p + rel) % 0x1_0000 = rel by omega]

theorem regAt_die {d rel : Nat} (hd : d < 4) (hrel : rel < 0x1000) :
    regAt (0x10_0000 + 0x1000 * d + rel) = dieAt d (0x10_0000 + 0x1000 * d) rel := by
  unfold regAt
  rw [if_neg (by omega), if_neg (by simp only [Bool.and_eq_true, decide_eq_true_eq]; omega),
    if_neg (by simp only [Bool.and_eq_true, decide_eq_true_eq]; omega),
    if_neg (by simp only [Bool.and_eq_true, decide_eq_true_eq]; omega),
    if_neg (by simp only [Bool.and_eq_true, decide_eq_true_eq]; omega),
    if_pos (by simp only [Bool.and_eq_true, decide_eq_true_eq]; omega),
    show (0x10_0000 + 0x1000 * d + rel - 0x10_0000) / 0x1000 = d by omega,
    show (0x10_0000 + 0x1000 * d + rel) / 0x1000 * 0x1000 = 0x10_0000 + 0x1000 * d by omega,
    show (0x10_0000 + 0x1000 * d + rel) % 0x1000 = rel by omega]

theorem regAt_core {c rel : Nat} (hc : c < 272) (hrel : rel < 0x1000) :
    regAt (0x20_0000 + 0x1000 * c + rel) = coreAt c (0x20_0000 + 0x1000 * c) rel := by
  unfold regAt
  rw [if_neg (by omega), if_neg (by simp only [Bool.and_eq_true, decide_eq_true_eq]; omega),
    if_neg (by simp only [Bool.and_eq_true, decide_eq_true_eq]; omega),
    if_neg (by simp only [Bool.and_eq_true, decide_eq_true_eq]; omega),
    if_neg (by simp only [Bool.and_eq_true, decide_eq_true_eq]; omega),
    if_neg (by simp only [Bool.and_eq_true, decide_eq_true_eq]; omega),
    if_pos (by simp only [Bool.and_eq_true, decide_eq_true_eq]; omega),
    show (0x20_0000 + 0x1000 * c + rel - 0x20_0000) / 0x1000 = c by omega,
    show (0x20_0000 + 0x1000 * c + rel) / 0x1000 * 0x1000 = 0x20_0000 + 0x1000 * c by omega,
    show (0x20_0000 + 0x1000 * c + rel) % 0x1000 = rel by omega]

/-! ## Which writes take effect (R33, R439) -/

section Owned

variable {s : State} {who : Requester} {off : Nat} {r : Reg}

/-- The owner's write of a whole register. -/
theorem State.regWrite_owned (h : Claims.owned s who) (hoff : 0x3_0000 ≤ off) (hat : regAt off = some (r, off)) {n : Nat}
    (hn : n = r.bytes) (v : Nat) : s.regWrite (agentOf who) off n v = s.regSet r v := by
  obtain ⟨hboot, id, rfl, hm, howner⟩ := h
  have harrives : (Agent.master id.toNat).arrives = true := isMaster_of_master hm
  unfold State.regWrite agentOf
  dsimp only
  rw [harrives, if_neg (by decide), if_neg (by omega), if_neg hboot, hat]
  dsimp only
  rw [if_pos howner, Nat.sub_self, if_pos (by simp [hn])]

theorem writeAt_owned (h : Claims.owned s who) (hoff : 0x3_0000 ≤ off) (hat : regAt off = some (r, off)) {n : Nat}
    (hn : n = r.bytes) (v : Nat) : s.writeAt who off n v = .next (s.regSet r v) :=
  congrArg Host.Outcome.next (State.regWrite_owned h hoff hat hn v)

/-- A master that does not own the module is denied (R439). -/
theorem State.regWrite_denied {m : BitVec 8} (hboot : s.mgmt.bootState ≠ 3) (hm : Claims.master m) (hne : m.toNat ≠ s.owner)
    (hoff : 0x3_0000 ≤ off) (n v : Nat) : s.regWrite (.master m.toNat) off n v = s.deny := by
  have harrives : (Agent.master m.toNat).arrives = true := isMaster_of_master hm
  unfold State.regWrite
  rw [harrives, if_neg (by decide), if_neg (by omega), if_neg hboot]
  cases hat : regAt off with
  | none =>
    dsimp only
    rw [if_neg hne]
  | some rb =>
    dsimp only
    rw [if_neg hne]

end Owned

/-! ## Queues -/

theorem State.queue_modQueue (s : State) {q : Nat} (hq : q < 64) (f : LQueue → LQueue) (k : Nat) :
    (s.modQueue q f).queue k = if k = q then f (s.queue q) else s.queue k :=
  vget_vmod s.queues q LQueue.reset f hq k

theorem State.modQueue_const (s : State) (q : Nat) (f : LQueue → LQueue) :
    s.modQueue q f = s.modQueue q (fun _ => f (s.queue q)) := rfl

/-- A queue after a write of `QCTL` (R112, R113, R119). -/
def LQueue.controlled (l : LQueue) (v : Word32) (now : Word64) : LQueue :=
  let l1 := { l with qerr := l.qerr && !v.getLsbD 31, sizel := v.extractLsb' 20 4, qpart := v.extractLsb' 12 4, en := true }
  let l2 := { l1 with en := v.getLsbD 0 && l1.served }
  if l2.served && !l.served then { l2 with interval := 0, due := now } else l2

theorem State.setQctl_eq (s : State) (q : Nat) (v : Word32) :
    s.setQctl q v = s.modQueue q (fun l => l.controlled v s.time) := rfl

theorem LQueue.controlled_spec (l : LQueue) (v : Word32) (now : Word64) :
    l.controlled v now = { l with
      qerr := l.qerr && !v.getLsbD 31, sizel := v.extractLsb' 20 4, qpart := v.extractLsb' 12 4
      en := v.getLsbD 0 && !(l.qerr && !v.getLsbD 31) && decide (4 ≤ (v.extractLsb' 20 4).toNat) &&
        decide ((v.extractLsb' 12 4).toNat < 8)
      interval := (l.controlled v now).interval, due := (l.controlled v now).due } := by
  have hen (a b c d : Bool) : (a && (true && b && c && d)) = (a && b && c && d) := by
    cases a <;> cases b <;> cases c <;> cases d <;> rfl
  unfold LQueue.controlled LQueue.served
  dsimp only
  rw [hen]
  split <;> rfl

theorem not_served_iff (l : LQueue) : l.served = false ↔ Claims.unserved l := by
  unfold LQueue.served Claims.unserved
  simp only [Bool.and_eq_false_iff, Bool.not_eq_false', decide_eq_false_iff_not, not_le, not_lt, or_assoc]

/-- Serving a queue anew begins its polls anew (R119). -/
theorem LQueue.controlled_anew {l : LQueue} {v : Word32} {now : Word64} (hen : (l.controlled v now).en = true)
    (hun : Claims.unserved l) : (l.controlled v now).interval = 0 ∧ (l.controlled v now).due = now := by
  have hl := (not_served_iff l).2 hun
  unfold LQueue.controlled at hen ⊢
  dsimp only at hen ⊢
  rw [hl, Bool.not_false, Bool.and_true] at hen ⊢
  split
  · exact ⟨rfl, rfl⟩
  · next hnot =>
    rw [if_neg hnot] at hen
    refine absurd ?_ hnot
    have hboth := hen
    simp only [LQueue.served, Bool.and_eq_true, Bool.true_and] at hen ⊢
    obtain ⟨hv, ⟨hq, hs⟩, hp⟩ := hen
    exact ⟨⟨⟨⟨hv, ⟨hq, hs⟩, hp⟩, hq⟩, hs⟩, hp⟩

/-- A queue after a write of `QTAIL` of queue q (R119). -/
def LQueue.tailed (l : LQueue) (mine : Bool) (part : BitVec 4) (v : Word32) (now : Word64) : LQueue :=
  { l with
    tail := if mine then v else l.tail
    interval := if l.qpart = part ∧ l.packet ≠ none ∧ l.interval ≠ 0 then 64 else l.interval
    due := if l.qpart = part ∧ l.packet ≠ none ∧ l.interval ≠ 0 then now else l.due }

/-- The queues after a write of `QTAIL`. -/
def State.tailed (s : State) (q : Nat) (v : Word32) : State :=
  let s1 := s.modQueue q (fun l => { l with tail := v })
  { s1 with queues := s1.queues.map (fun k =>
      if k.qpart == (s.queue q).qpart && k.packet.isSome && k.interval != 0 then { k with interval := 64, due := s.time } else k) }

theorem State.setQtail_eq (s : State) (q : Nat) (v : Word32) : s.setQtail q v =
    if 2 ^ (s.queue q).sizel.toNat < (v - (s.queue q).head).toNat then
      ((s.tailed q v).modQueue q (fun l => { l with qerr := true })).logQueue q (s.queue q).qpart.toNat 10 q
        (bytesOf 4 v.toNat ++ bytesOf 4 (s.queue q).head.toNat)
    else s.tailed q v := rfl

theorem vget_map {α : Type} {n : Nat} (v : Vector α n) (f : α → α) {i : Nat} (d : α) (h : i < n) :
    vget (v.map f) i d = f (vget v i d) := by
  simp [vget, List.getD, h]

theorem State.queue_tailed (s : State) {q : Nat} (hq : q < 64) (v : Word32) {k : Nat} (hk : k < 64) :
    (s.tailed q v).queue k = (s.queue k).tailed (decide (k = q)) (s.queue q).qpart v s.time := by
  show vget ((s.modQueue q (fun l => { l with tail := v })).queues.map _) k LQueue.reset = _
  rw [vget_map _ _ _ hk]
  show (fun k : LQueue => if k.qpart == (s.queue q).qpart && k.packet.isSome && k.interval != 0 then
    { k with interval := 64, due := s.time } else k) ((s.modQueue q (fun l => { l with tail := v })).queue k) = _
  rw [State.queue_modQueue s hq]
  by_cases hkq : k = q
  · subst hkq
    rw [if_pos rfl]
    unfold LQueue.tailed
    by_cases hp : (s.queue k).packet ≠ none ∧ (s.queue k).interval ≠ 0
    · simp [hp, Option.isSome_iff_ne_none]
    · simp only [decide_true, if_true, true_and, if_neg hp]
      rw [if_neg]
      simpa [Option.isSome_iff_ne_none] using hp
  · rw [if_neg hkq]
    unfold LQueue.tailed
    by_cases hp : (s.queue k).qpart = (s.queue q).qpart ∧ (s.queue k).packet ≠ none ∧ (s.queue k).interval ≠ 0
    · simp [hp, hkq, Option.isSome_iff_ne_none]
    · simp only [hkq, decide_false, Bool.false_eq_true, if_false, if_neg hp]
      rw [if_neg]
      simpa [Option.isSome_iff_ne_none, and_assoc] using hp

theorem State.log_queues (s : State) (e : LogEvent) : (s.log e).queues = s.queues := by
  rw [State.log_eq]
  have hraise (t : State) (m : Nat) : (t.raise m).queues = t.queues := by
    unfold State.raise
    split <;> rfl
  have hring : (s.ringed e).queues = s.queues := by
    unfold State.ringed
    split <;> rfl
  unfold State.notified
  split
  · exact (hraise _ _).trans hring
  · exact (hraise _ _).trans hring

/-! ## `QABORT` (R123) -/

/-- What an abort reads and writes: memory, launches, teams, groups, gangs. -/
def State.agents (s : State) : List Host.Cell × List Launch × List Team × List Group × List Gang :=
  (s.mem, s.launches, s.teams, s.groups, s.gangs)

theorem State.removeLaunch_agents (s : State) (id : Nat) : (s.removeLaunch id).agents =
    (s.mem, s.launches, s.teams.filter (fun x => x.launch != id),
      s.groups.filter (fun g => !(s.teamsOf id).contains g.team), s.gangs.filter (fun g => !(s.teamsOf id).contains g.team)) := by
  have hfree : (s.freeImages id).agents = s.agents := by
    unfold State.freeImages
    split
    · split <;> rfl
    · rfl
  have htouch (l : List Nat) (t : State) : (l.foldl (fun s c => s.touch c) t).agents = t.agents := by
    induction l generalizing t with
    | nil => rfl
    | cons c l ih => exact ih (t.touch c)
  have hgrow (l : List Nat) (t : State) : (l.foldl (fun s c => s.idleGrow c) t).agents = t.agents := by
    induction l generalizing t with
    | nil => rfl
    | cons c l ih => exact ih (t.idleGrow c)
  unfold State.removeLaunch
  dsimp only
  rw [hgrow]
  generalize hcores : (s.groups.filter fun g => (s.teamsOf id).contains g.team).filterMap (fun g => g.core) = cores
  have hall := (htouch cores (s.freeImages id)).trans hfree
  simp only [State.agents, Prod.mk.injEq] at hall
  obtain ⟨hmem, hlaunches, hteams, hgroups, hgangs⟩ := hall
  simp only [State.agents, State.keepTables, hmem, hlaunches, hteams, hgroups, hgangs]

theorem contains_teamsOf (s : State) (id tm : Nat) :
    (s.teamsOf id).contains tm = s.teams.any (fun x => x.launch == id && x.id == tm) := by
  rw [Bool.eq_iff_iff]
  simp only [State.teamsOf, List.contains_iff_mem, List.mem_map, List.mem_filter, List.any_eq_true, Bool.and_eq_true,
    beq_iff_eq, and_assoc]

/-- A launch that has been aborted. -/
def Launch.aborted (k : Launch) : Launch :=
  { k with ended := true, status := 5, collDone := k.collDone || !k.collStarted }

theorem State.launch?_modLaunch (s : State) (i : Nat) {f : Launch → Launch} (hf : ∀ l, (f l).id = l.id) (k : Nat) :
    (s.modLaunch i f).launch? k = (s.launch? k).map (fun l => if k = i then f l else l) := by
  unfold State.launch? State.modLaunch
  dsimp only
  rw [List.find?_map]
  have hp : ((fun l : Launch => l.id == k) ∘ fun l : Launch => if (l.id == i) = true then f l else l) = fun l : Launch => l.id == k := by
    funext l
    simp only [Function.comp_apply]
    split
    · rw [hf]
    · rfl
  rw [hp]
  cases h : s.launches.find? (fun l => l.id == k) with
  | none => rfl
  | some l =>
    have hl : l.id = k := by simpa using List.find?_some h
    simp [hl]

/-! ## Doorbells (R409) -/

/-- An event for the groups of some teams, or for the teams that are away. -/
theorem State.setEvents_all (b : BitVec 16) (ids : List Nat) (s : State) :
    ids.foldl (fun s i => s.setEvents i b) s = { s with
      groups := s.groups.map (fun g => if g.core ≠ none ∧ g.team ∈ ids then { g with evpend := g.evpend ||| b } else g)
      teams := s.teams.map (fun t => if t.core = none ∧ t.id ∈ ids then { t with evpend := t.evpend ||| b } else t) } := by
  induction ids generalizing s with
  | nil => simp
  | cons i ids ih =>
    have hor (x : BitVec 16) : x ||| b ||| b = x ||| b := by
      rw [BitVec.or_assoc, BitVec.or_self]
    rw [List.foldl_cons, ih, State.setEvents_eq]
    dsimp only
    rw [List.map_map, List.map_map]
    congr 1
    · refine List.map_congr_left fun g _ => ?_
      simp only [Function.comp_apply, List.mem_cons]
      by_cases hc : g.core = none
      · simp [hc]
      · by_cases hi : g.team = i <;> by_cases hm : g.team ∈ ids <;> simp_all
    · refine List.map_congr_left fun t _ => ?_
      simp only [Function.comp_apply, List.mem_cons]
      by_cases hc : t.core = none
      · by_cases hi : t.id = i <;> by_cases hm : t.id ∈ ids <;> simp_all
      · simp [hc]

theorem State.ringDoorbell_eq (s : State) (p : Nat) : s.ringDoorbell p = { s with
    groups := s.groups.map (fun g => if g.core ≠ none ∧ ∃ t ∈ s.teams, t.id = g.team ∧ s.partOf t = p then
      { g with evpend := g.evpend ||| 1 } else g)
    teams := s.teams.map (fun t => if t.core = none ∧ ∃ u ∈ s.teams, u.id = t.id ∧ s.partOf u = p then
      { t with evpend := t.evpend ||| 1 } else t) } := by
  have hfold : s.ringDoorbell p = ((s.teams.filter (fun t => s.partOf t == p)).map (fun (t : Team) => t.id)).foldl
      (fun s i => s.setEvents i 1) s := by
    rw [List.foldl_map, List.foldl_filter]
    refine foldl_agree (P := fun u => u.launches = s.launches) rfl fun t _ u hu => ?_
    have hpart : u.partOf t = s.partOf t := by
      unfold State.partOf State.launch?
      rw [hu]
    rw [hpart]
    refine ⟨if_congr (by simp) rfl rfl, ?_⟩
    split
    · exact hu
    · exact hu
  have hmem (i : Nat) : i ∈ (s.teams.filter (fun t => s.partOf t == p)).map (fun (t : Team) => t.id) ↔
      ∃ t ∈ s.teams, t.id = i ∧ s.partOf t = p := by
    simp only [List.mem_map, List.mem_filter, beq_iff_eq]
    constructor
    · rintro ⟨t, ⟨ht, hp⟩, hi⟩
      exact ⟨t, ht, hi, hp⟩
    · rintro ⟨t, ht, hi, hp⟩
      exact ⟨t, ⟨ht, hp⟩, hi⟩
  rw [hfold, State.setEvents_all]
  congr 1
  · exact List.map_congr_left fun g _ => if_congr (and_congr_right fun _ => hmem _) rfl rfl
  · exact List.map_congr_left fun t _ => if_congr (and_congr_right fun _ => hmem _) rfl rfl

/-! ## The values of some writes -/

theorem sizelOk_iff (n : Nat) : sizelOk n = true ↔ n = 0 ∨ 6 ≤ n ∧ n ≤ 24 := by
  unfold sizelOk
  simp

theorem bitsN_low {w : Nat} (v : BitVec w) (n : Nat) : bitsN v n 0 = v.toNat % 2 ^ (n + 1) := by
  unfold bitsN
  rw [Nat.shiftRight_zero, Nat.sub_zero]

theorem ofNat_word (v : Word32) : BitVec.ofNat 32 v.toNat = v := by simp

theorem ofNat_word64 (v : Word64) : BitVec.ofNat 64 v.toNat = v := by simp

/-- A virtual function rings its doorbell (R33, R409). -/
theorem State.regWrite_doorbell {s : State} (hboot : s.mgmt.bootState ≠ 3) (p : BitVec 3) (v : Nat) :
    s.regWrite (.vf p.toNat) (0x8_0000 + 0x1_0000 * p.toNat + 0x20) 4 v = s.ringDoorbell p.toNat := by
  have hat := regAt_part (rel := 0x20) p.isLt (by decide)
  have harrives : (Agent.vf p.toNat).arrives = true := rfl
  have hmay : s.vfMay p.toNat (.doorbell p.toNat) = true := beq_self_eq_true _
  unfold State.regWrite
  rw [harrives, if_neg (by decide), if_neg (by omega), if_neg hboot, hat]
  unfold partAt
  rw [if_neg (by decide), if_neg (by decide), if_neg (by decide), if_pos (by decide)]
  dsimp only
  rw [hmay, if_pos rfl, Nat.sub_self,
    if_pos (show (decide ((0 : Nat) = 0) && decide ((4 : Nat) = (Reg.doorbell p.toNat).bytes)) = true from rfl)]
  rfl

/-- Settles O51. -/
theorem windowWrites : Obligations.WindowWrites := by
  refine ⟨⟨?_, ?_, ?_, ?_⟩, ?_, ?_, ?_, ?_, ?_, ?_, ?_, ?_, ?_, ?_, ?_⟩
  · intro s who q v ho
    have hat := regAt_queue (rel := 0) q.isLt (by decide)
    refine (writeAt_owned ho (by omega) (hat.trans rfl) rfl _).trans ?_
    show Host.Outcome.next (s.setQbase q.toNat (BitVec.ofNat 64 v.toNat)) = _
    rw [ofNat_word64, State.setQbase]
    refine congrArg Host.Outcome.next (if_congr ?_ rfl rfl)
    have hlt := v.isLt
    unfold bitsN
    rw [Bool.and_eq_true, decide_eq_true_eq, decide_eq_true_eq, Nat.shiftRight_eq_div_pow]
    refine and_congr_right fun _ => ?_
    omega
  · intro s who q v ho
    have hat := regAt_queue (rel := 8) q.isLt (by decide)
    refine ⟨s.setQctl q.toNat v, (s.queue q.toNat).controlled v s.time, ?_, ?_, LQueue.controlled_spec _ _ _,
      LQueue.controlled_anew⟩
    · refine (writeAt_owned ho (by omega) (hat.trans rfl) rfl _).trans ?_
      show Host.Outcome.next (s.setQctl q.toNat (BitVec.ofNat 32 v.toNat)) = _
      rw [ofNat_word]
    · rw [State.setQctl_eq, State.modQueue_const]
  · intro s who q v ho
    have hat := regAt_queue (rel := 12) q.isLt (by decide)
    have hrun : exec (.qtailWrite who q v) s = .next (s.setQtail q.toNat v) := by
      refine (writeAt_owned ho (by omega) (hat.trans rfl) rfl _).trans ?_
      show Host.Outcome.next (s.setQtail q.toNat (BitVec.ofNat 32 v.toNat)) = _
      rw [ofNat_word]
    rw [hrun, State.setQtail_eq]
    refine ⟨fun hle => ⟨_, rfl, ?_, fun k hk => ?_⟩, fun hover => ⟨_, rfl, ?_⟩⟩
    · rw [if_neg (by omega)]
      rfl
    · rw [if_neg (by omega), State.queue_tailed s q.isLt v hk]
      unfold LQueue.tailed
      by_cases hkq : k = q.toNat <;> simp [hkq]
    · rw [if_pos hover]
      have hq : (((s.tailed q.toNat v).modQueue q.toNat (fun l => { l with qerr := true })).logQueue q.toNat
          (s.queue q.toNat).qpart.toNat 10 q.toNat (bytesOf 4 v.toNat ++ bytesOf 4 (s.queue q.toNat).head.toNat)).queue q.toNat =
          ((s.tailed q.toNat v).modQueue q.toNat (fun l => { l with qerr := true })).queue q.toNat := by
        unfold State.queue State.logQueue
        rw [State.log_queues]
      rw [hq, State.queue_modQueue _ q.isLt, if_pos rfl, State.queue_tailed s q.isLt v q.isLt]
      exact ⟨rfl, by simp [LQueue.tailed]⟩
  · intro s who q n k ho hf hk hend
    have hat := regAt_queue (rel := 20) q.isLt (by decide)
    have hrun : exec (.qabort who q n) s = .next ((s.removeLaunch k.id).modLaunch k.id Launch.aborted) := by
      refine (writeAt_owned ho (by omega) (hat.trans rfl) rfl _).trans ?_
      show Host.Outcome.next (s.abort q.toNat (BitVec.ofNat 32 n.toNat)) = _
      rw [ofNat_word, State.abort, hf]
      dsimp only
      rw [hend, if_neg Bool.false_ne_true]
      rfl
    have hag := State.removeLaunch_agents s k.id
    simp only [State.agents, Prod.mk.injEq, contains_teamsOf] at hag
    obtain ⟨hmem, hlaunches, hteams, hgroups, hgangs⟩ := hag
    refine ⟨_, hrun, hmem, hteams, hgroups, hgangs, ?_⟩
    rw [State.launch?_modLaunch _ _ (by intro _; rfl), State.launch?, hlaunches]
    have hk' : s.launches.find? (fun l => l.id == k.id) = some k := hk
    rw [hk', Option.map_some, if_pos rfl]
    rfl
  · intro s who c v ho hc
    have hat := regAt_core (rel := 0) hc (by decide)
    show execCpartWrite who c v s = _
    unfold execCpartWrite
    rw [if_pos hc]
    refine (writeAt_owned ho (by omega) (hat.trans rfl) rfl _).trans ?_
    show Host.Outcome.next (s.setCpart c (BitVec.ofNat 32 v.toNat)) = _
    rw [ofNat_word, State.setCpart]
    refine congrArg Host.Outcome.next (if_congr ?_ rfl rfl)
    rw [BitVec.extractLsb'_toNat, Nat.shiftRight_zero]
    simp
  · intro s who q v ho
    have hat := regAt_ipq (q := q.toNat) q.isLt
    refine (writeAt_owned ho (by omega) hat rfl _).trans ?_
    show Host.Outcome.next (s.setIpqcfg q.toNat (BitVec.ofNat 32 v.toNat)) = _
    have hdepth : bitsN v 27 24 = (v.extractLsb' 24 4).toNat := by
      rw [BitVec.extractLsb'_toNat]
      rfl
    rw [ofNat_word, State.setIpqcfg, hdepth]
    rfl
  · intro s who c v ho hc
    have hat := regAt_core (rel := 4) hc (by decide)
    show execXpoolWrite who c v s = _
    unfold execXpoolWrite
    rw [if_pos hc]
    refine (writeAt_owned ho (by omega) (hat.trans rfl) rfl _).trans ?_
    show Host.Outcome.next (s.setXpool c (BitVec.ofNat 32 v.toNat)) = _
    rw [ofNat_word, State.setXpool, bitsN_low]
    rfl
  · intro s who p v ho
    have hat := regAt_part (rel := 0x198) p.isLt (by decide)
    refine (writeAt_owned ho (by omega) (hat.trans rfl) rfl _).trans ?_
    show Host.Outcome.next (s.setTrsizel p.toNat (BitVec.ofNat 32 v.toNat)) = _
    rw [ofNat_word, State.setTrsizel]
    refine congrArg Host.Outcome.next (if_congr ((sizelOk_iff _).trans (or_congr_left ?_)) rfl rfl)
    exact BitVec.toNat_inj (y := 0)
  · intro s who d v ho
    have hat := regAt_die (rel := 8) d.isLt (by decide)
    refine (writeAt_owned ho (by omega) (hat.trans rfl) rfl _).trans ?_
    show Host.Outcome.next (s.setElsizel d.toNat (BitVec.ofNat 32 v.toNat)) = _
    rw [ofNat_word, State.setElsizel, bitsN_low]
    exact congrArg Host.Outcome.next (if_congr (sizelOk_iff _) rfl rfl)
  · intro s who c ho hc
    have hat := regAt_core (rel := 0xC) hc (by decide)
    show execPerfctlClr who c s = _
    unfold execPerfctlClr
    rw [if_pos hc]
    refine (writeAt_owned ho (by omega) (hat.trans rfl) rfl _).trans ?_
    show Host.Outcome.next (s.setPerfctl c (BitVec.ofNat 32 (2 + (s.core c).frz.toNat))) = _
    have hbits : (BitVec.ofNat 32 (2 + (s.core c).frz.toNat)).getLsbD 1 = true ∧
        (BitVec.ofNat 32 (2 + (s.core c).frz.toNat)).getLsbD 0 = (s.core c).frz := by
      cases (s.core c).frz <;> exact ⟨rfl, rfl⟩
    unfold State.setPerfctl
    rw [hbits.1, hbits.2]
    unfold State.modCore vmod
    rfl
  · intro s who p v ho
    have hoff : (BitVec.ofNat 24 (0x8_0010 + 0x1_0000 * p.toNat)).toNat = 0x8_0000 + 0x1_0000 * p.toNat + 0x10 := by
      have := p.isLt
      rw [BitVec.toNat_ofNat, Nat.mod_eq_of_lt (by omega)]
      omega
    have hat := regAt_part (rel := 0x10) p.isLt (by decide)
    obtain ⟨-, id, hid, -, -⟩ := id ho
    have hgo := writeAt_owned (v := v.toNat) (n := 8) ho (by omega) (hat.trans rfl) rfl
    subst hid
    show s.writeAt (.master id) (BitVec.ofNat 24 (0x8_0010 + 0x1_0000 * p.toNat)).toNat 8 v.toNat = _
    rw [hoff, hgo]
    show Host.Outcome.next (s.modPart p.toNat (fun d => { d with ptvec := BitVec.ofNat 64 (bitsN (BitVec.ofNat 64 v.toNat) 55 0) })) = _
    rw [ofNat_word64, bitsN_low]
  · intro s q n v hq hboot
    have hat := regAt_queue (rel := 20) hq (by decide)
    unfold State.regWrite
    rw [if_neg (by decide), if_neg (by omega), if_neg hboot, hat]
    rfl
  · intro s r off width v hboot hm hne hoff hcount
    show Host.Outcome.next (s.regWrite (.master r.toNat) off.toNat width v.toNat) = _
    rw [State.regWrite_denied hboot hm hne hoff, State.deny, if_neg hcount]
  · intro s p v hboot
    exact congrArg Host.Outcome.next (State.regWrite_doorbell hboot p v.toNat)
  · intro s who p hboot hwho
    have hat := regAt_part (rel := 0x20) p.isLt (by decide)
    rw [← State.ringDoorbell_eq]
    rcases hwho with rfl | ho
    · exact congrArg Host.Outcome.next (State.regWrite_doorbell hboot p 0)
    · exact (writeAt_owned ho (by omega) (hat.trans rfl) rfl _).trans rfl

end Sys2Proof.Machine

end


section
/-! # O57, O58: what every step keeps, the operations of the state

The canonical form and the numbers apart are kept together: `Keeps s t` says that a state t that comes from s has them where s
has. Each operation of the model gets one rule, `Keeps.<operation>`, that adds the operation at the end of a run; a composite
operation's rule is then the chain of the rules of its parts. -/

namespace Sys2Proof.Machine

/-! ## The relation -/

/-- From s to t the canonical form and the numbers are kept. -/
structure Keeps (s t : State) : Prop where
  form : Claims.canonical s → Claims.canonical t
  numbers : Claims.numbered s → Claims.numbered t

@[simp] theorem Keeps.refl (s : State) : Keeps s s :=
  ⟨id, id⟩

theorem Keeps.trans {s t u : State} (h : Keeps s t) (k : Keeps t u) : Keeps s u :=
  ⟨fun c => k.form (h.form c), fun c => k.numbers (h.numbers c)⟩

theorem Keeps.foldl {α : Type} {s t : State} {f : State → α → State} (h : Keeps s t) (hf : ∀ u x, Keeps u (f u x)) (l : List α) :
    Keeps s (l.foldl f t) := by
  induction l generalizing t with
  | nil => exact h
  | cons x xs ih => exact ih (h.trans (hf t x))

@[simp] theorem Keeps.ite {s a b : State} {c : Prop} [Decidable c] (ha : Keeps s a) (hb : Keeps s b) :
    Keeps s (if c then a else b) := by
  split
  · exact ha
  · exact hb

/-! ## Numbers -/

theorem own_sublist {l l' : List Nat} {n n' : Nat} (hs : l'.Sublist l) (hn : n ≤ n') (h : l.Nodup ∧ ∀ i ∈ l, i < n) :
    l'.Nodup ∧ ∀ i ∈ l', i < n' :=
  ⟨h.1.sublist hs, fun i hi => Nat.lt_of_lt_of_le (h.2 i (hs.subset hi)) hn⟩

theorem own_snoc {l : List Nat} {n : Nat} (h : l.Nodup ∧ ∀ i ∈ l, i < n) : (l ++ [n]).Nodup ∧ ∀ i ∈ l ++ [n], i < n + 1 := by
  obtain ⟨hd, hl⟩ := h
  refine ⟨List.nodup_append.2 ⟨hd, List.nodup_singleton n, ?_⟩, ?_⟩
  · intro a ha b hb hab
    have := hl a ha
    rw [List.mem_singleton.1 hb] at hab
    omega
  · intro i hi
    rcases List.mem_append.1 hi with hi | hi
    · exact Nat.lt_succ_of_lt (hl i hi)
    · rw [List.mem_singleton.1 hi]
      exact Nat.lt_succ_self n

/-- The agents' numbers are some of those before, and no number is given back. -/
structure FewerNumbers (s t : State) : Prop where
  groups : (t.groups.map (fun x : Group => x.id)).Sublist (s.groups.map (fun x : Group => x.id))
  teams : (t.teams.map (fun x : Team => x.id)).Sublist (s.teams.map (fun x : Team => x.id))
  launches : (t.launches.map (fun x : Launch => x.id)).Sublist (s.launches.map (fun x : Launch => x.id))
  gangs : (t.gangs.map (fun x : Gang => x.id)).Sublist (s.gangs.map (fun x : Gang => x.id))
  cmds : (t.cmds.map (fun x : Cmd => x.id)).Sublist (s.cmds.map (fun x : Cmd => x.id))
  colls : (t.colls.map (fun x : Coll => x.id)).Sublist (s.colls.map (fun x : Coll => x.id))
  tokens : (t.tokens.map (fun x : Token => x.id)).Sublist (s.tokens.map (fun x : Token => x.id))
  next : s.nextId ≤ t.nextId

theorem FewerNumbers.numbered {s t : State} (h : FewerNumbers s t) (hs : Claims.numbered s) : Claims.numbered t := by
  obtain ⟨h1, h2, h3, h4, h5, h6, h7⟩ := hs
  exact ⟨own_sublist h.groups h.next h1, own_sublist h.teams h.next h2, own_sublist h.launches h.next h3,
    own_sublist h.gangs h.next h4, own_sublist h.cmds h.next h5, own_sublist h.colls h.next h6,
    own_sublist h.tokens h.next h7⟩

theorem sublist_of_eq {l l' : List Nat} (h : l' = l) : l'.Sublist l :=
  h ▸ .refl _

theorem map_map_keep {α : Type} (n : α → Nat) (f : α → α) (hf : ∀ x, n (f x) = n x) (l : List α) :
    (l.map f).map n = l.map n := by
  rw [List.map_map]
  exact List.map_congr_left (fun x _ => hf x)

theorem map_if_keep {α : Type} (n : α → Nat) (p : α → Bool) (f : α → α) (hf : ∀ x, n (f x) = n x) (l : List α) :
    (l.map (fun x => if p x then f x else x)).map n = l.map n :=
  map_map_keep n _ (fun x => by split <;> simp [hf]) l

/-- The agents of a list, changed but for their numbers, or some of them. -/
theorem map_filter_sublist {α : Type} (n : α → Nat) (p : α → Bool) (l : List α) : ((l.filter p).map n).Sublist (l.map n) :=
  (List.filter_sublist).map n

/-! ## Record updates: the lists of agents -/

theorem Keeps.withGroups {s t : State} (h : Keeps s t) {l : List Group}
    (hl : (l.map (fun x : Group => x.id)).Sublist (t.groups.map (fun x : Group => x.id))) : Keeps s { t with groups := l } :=
  h.trans ⟨id, FewerNumbers.numbered ⟨hl, .refl _, .refl _, .refl _, .refl _, .refl _, .refl _, Nat.le_refl _⟩⟩

theorem Keeps.withLaunches {s t : State} (h : Keeps s t) {l : List Launch}
    (hl : (l.map (fun x : Launch => x.id)).Sublist (t.launches.map (fun x : Launch => x.id))) : Keeps s { t with launches := l } :=
  h.trans ⟨id, FewerNumbers.numbered ⟨.refl _, .refl _, hl, .refl _, .refl _, .refl _, .refl _, Nat.le_refl _⟩⟩

theorem Keeps.withGangs {s t : State} (h : Keeps s t) {l : List Gang}
    (hl : (l.map (fun x : Gang => x.id)).Sublist (t.gangs.map (fun x : Gang => x.id))) : Keeps s { t with gangs := l } :=
  h.trans ⟨id, FewerNumbers.numbered ⟨.refl _, .refl _, .refl _, hl, .refl _, .refl _, .refl _, Nat.le_refl _⟩⟩

theorem Keeps.withCmds {s t : State} (h : Keeps s t) {l : List Cmd}
    (hl : (l.map (fun x : Cmd => x.id)).Sublist (t.cmds.map (fun x : Cmd => x.id))) : Keeps s { t with cmds := l } :=
  h.trans ⟨id, FewerNumbers.numbered ⟨.refl _, .refl _, .refl _, .refl _, hl, .refl _, .refl _, Nat.le_refl _⟩⟩

theorem Keeps.withColls {s t : State} (h : Keeps s t) {l : List Coll}
    (hl : (l.map (fun x : Coll => x.id)).Sublist (t.colls.map (fun x : Coll => x.id))) : Keeps s { t with colls := l } :=
  h.trans ⟨id, FewerNumbers.numbered ⟨.refl _, .refl _, .refl _, .refl _, .refl _, hl, .refl _, Nat.le_refl _⟩⟩

theorem Keeps.withTokens {s t : State} (h : Keeps s t) {l : List Token}
    (hl : (l.map (fun x : Token => x.id)).Sublist (t.tokens.map (fun x : Token => x.id))) : Keeps s { t with tokens := l } :=
  h.trans ⟨id, FewerNumbers.numbered ⟨.refl _, .refl _, .refl _, .refl _, .refl _, .refl _, hl, Nat.le_refl _⟩⟩

/-- The images of the teams are canonical. -/
def WfImages (l : List Team) : Prop :=
  ∀ t ∈ l, ∀ im, t.image = some im → Memory.wf im.bytes = true

theorem Keeps.withTeams {s t : State} (h : Keeps s t) {l : List Team}
    (hl : (l.map (fun x : Team => x.id)).Sublist (t.teams.map (fun x : Team => x.id)))
    (him : WfImages t.teams → WfImages l) : Keeps s { t with teams := l } :=
  h.trans ⟨fun ⟨h1, h2, h3, h4, h5, h6⟩ => ⟨h1, h2, h3, him h4, h5, h6⟩,
    FewerNumbers.numbered ⟨.refl _, hl, .refl _, .refl _, .refl _, .refl _, .refl _, Nat.le_refl _⟩⟩

theorem Keeps.withNextId {s t : State} (h : Keeps s t) {n : Nat} (hn : t.nextId ≤ n) : Keeps s { t with nextId := n } :=
  h.trans ⟨id, FewerNumbers.numbered ⟨.refl _, .refl _, .refl _, .refl _, .refl _, .refl _, .refl _, hn⟩⟩

@[simp] theorem Keeps.withFreeCtr {s t : State} (h : Keeps s t) (n : Nat) : Keeps s { t with freeCtr := n } :=
  ⟨h.form, h.numbers⟩

/-! ## One more agent, under the next number -/

/-- The numbers of a state whose lists have no number but those before or, in one list, the next. -/
theorem numbered_snoc {s t : State} (hn : t.nextId = s.nextId + 1)
    (hg : t.groups.map (fun x : Group => x.id) = s.groups.map (fun x : Group => x.id) ∨
      t.groups.map (fun x : Group => x.id) = s.groups.map (fun x : Group => x.id) ++ [s.nextId])
    (ht : t.teams.map (fun x : Team => x.id) = s.teams.map (fun x : Team => x.id) ∨
      t.teams.map (fun x : Team => x.id) = s.teams.map (fun x : Team => x.id) ++ [s.nextId])
    (hl : t.launches.map (fun x : Launch => x.id) = s.launches.map (fun x : Launch => x.id) ∨
      t.launches.map (fun x : Launch => x.id) = s.launches.map (fun x : Launch => x.id) ++ [s.nextId])
    (hk : t.gangs.map (fun x : Gang => x.id) = s.gangs.map (fun x : Gang => x.id) ∨
      t.gangs.map (fun x : Gang => x.id) = s.gangs.map (fun x : Gang => x.id) ++ [s.nextId])
    (hc : t.cmds.map (fun x : Cmd => x.id) = s.cmds.map (fun x : Cmd => x.id) ∨
      t.cmds.map (fun x : Cmd => x.id) = s.cmds.map (fun x : Cmd => x.id) ++ [s.nextId])
    (hx : t.colls.map (fun x : Coll => x.id) = s.colls.map (fun x : Coll => x.id) ∨
      t.colls.map (fun x : Coll => x.id) = s.colls.map (fun x : Coll => x.id) ++ [s.nextId])
    (ho : t.tokens.map (fun x : Token => x.id) = s.tokens.map (fun x : Token => x.id) ∨
      t.tokens.map (fun x : Token => x.id) = s.tokens.map (fun x : Token => x.id) ++ [s.nextId])
    (hs : Claims.numbered s) : Claims.numbered t := by
  have own {l l' : List Nat} (h : l' = l ∨ l' = l ++ [s.nextId]) (hl : l.Nodup ∧ ∀ i ∈ l, i < s.nextId) :
      l'.Nodup ∧ ∀ i ∈ l', i < t.nextId := by
    rw [hn]
    rcases h with rfl | rfl
    · exact own_sublist (.refl _) (Nat.le_succ _) hl
    · exact own_snoc hl
  obtain ⟨h1, h2, h3, h4, h5, h6, h7⟩ := hs
  exact ⟨own hg h1, own ht h2, own hl h3, own hk h4, own hc h5, own hx h6, own ho h7⟩

theorem map_snoc {α : Type} (n : α → Nat) (l : List α) {x : α} {k : Nat} (h : n x = k) : (l ++ [x]).map n = l.map n ++ [k] := by
  rw [List.map_append, List.map_singleton, h]

theorem Keeps.addGroup {s t : State} (h : Keeps s t) {g : Group} (hg : g.id = t.nextId) :
    Keeps s { t with groups := t.groups ++ [g], nextId := t.nextId + 1 } :=
  h.trans ⟨id, numbered_snoc rfl (.inr (map_snoc _ _ hg)) (.inl rfl) (.inl rfl) (.inl rfl) (.inl rfl) (.inl rfl) (.inl rfl)⟩

theorem WfImages.append {l l' : List Team} (h : WfImages l) (h' : ∀ t ∈ l', t.image = none) : WfImages (l ++ l') := by
  intro y hy im him
  rcases List.mem_append.1 hy with hy | hy
  · exact h y hy im him
  · rw [h' y hy] at him
    cases him

theorem Keeps.addTeam {s t : State} (h : Keeps s t) {x : Team} (hx : x.id = t.nextId) (him : x.image = none) :
    Keeps s { t with teams := t.teams ++ [x], nextId := t.nextId + 1 } := by
  refine h.trans ⟨fun ⟨h1, h2, h3, h4, h5⟩ => ⟨h1, h2, h3, WfImages.append h4 (fun y hy => ?_), h5⟩,
    numbered_snoc rfl (.inl rfl) (.inr (map_snoc _ _ hx)) (.inl rfl) (.inl rfl) (.inl rfl) (.inl rfl) (.inl rfl)⟩
  rw [List.mem_singleton.1 hy]
  exact him

theorem Keeps.addLaunch {s t : State} (h : Keeps s t) {x : Launch} (hx : x.id = t.nextId) :
    Keeps s { t with launches := t.launches ++ [x], nextId := t.nextId + 1 } :=
  h.trans ⟨id, numbered_snoc rfl (.inl rfl) (.inl rfl) (.inr (map_snoc _ _ hx)) (.inl rfl) (.inl rfl) (.inl rfl) (.inl rfl)⟩

theorem Keeps.addGang {s t : State} (h : Keeps s t) {x : Gang} (hx : x.id = t.nextId) :
    Keeps s { t with gangs := t.gangs ++ [x], nextId := t.nextId + 1 } :=
  h.trans ⟨id, numbered_snoc rfl (.inl rfl) (.inl rfl) (.inl rfl) (.inr (map_snoc _ _ hx)) (.inl rfl) (.inl rfl) (.inl rfl)⟩

theorem Keeps.addCmd {s t : State} (h : Keeps s t) {x : Cmd} (hx : x.id = t.nextId) :
    Keeps s { t with cmds := t.cmds ++ [x], nextId := t.nextId + 1 } :=
  h.trans ⟨id, numbered_snoc rfl (.inl rfl) (.inl rfl) (.inl rfl) (.inl rfl) (.inr (map_snoc _ _ hx)) (.inl rfl) (.inl rfl)⟩

theorem Keeps.addColl {s t : State} (h : Keeps s t) {x : Coll} (hx : x.id = t.nextId) :
    Keeps s { t with colls := t.colls ++ [x], nextId := t.nextId + 1 } :=
  h.trans ⟨id, numbered_snoc rfl (.inl rfl) (.inl rfl) (.inl rfl) (.inl rfl) (.inl rfl) (.inr (map_snoc _ _ hx)) (.inl rfl)⟩

theorem Keeps.addToken {s t : State} (h : Keeps s t) {x : Token} (hx : x.id = t.nextId) :
    Keeps s { t with tokens := t.tokens ++ [x], nextId := t.nextId + 1 } :=
  h.trans ⟨id, numbered_snoc rfl (.inl rfl) (.inl rfl) (.inl rfl) (.inl rfl) (.inl rfl) (.inl rfl) (.inr (map_snoc _ _ hx))⟩

/-! ## Memory -/

theorem Keeps.withMemory {s t : State} (h : Keeps s t) {m : List Host.Cell} {e p : List Nat}
    (hm : Memory.wf t.mem = true → Memory.wf m = true) (he : Claims.rising t.fe → Claims.rising e)
    (hp : Claims.rising t.poison → Claims.rising p) : Keeps s { t with mem := m, fe := e, poison := p } :=
  h.trans ⟨fun ⟨h1, h2, h3, h4⟩ => ⟨hm h1, he h2, hp h3, h4⟩, id⟩

@[simp] theorem Keeps.write {s t : State} (h : Keeps s t) (loc : Nat) (bs : List Byte) : Keeps s (t.write loc bs) :=
  h.withMemory (fun hm => Memory.write_wf hm loc bs) id (rising_filter _)

@[simp] theorem Keeps.writeNat {s t : State} (h : Keeps s t) (loc n v : Nat) : Keeps s (t.writeNat loc n v) :=
  h.write loc _

@[simp] theorem Keeps.setPoison {s t : State} (h : Keeps s t) (loc : Nat) : Keeps s (t.setPoison loc) :=
  h.withMemory id id (rising_insertNat _)

@[simp] theorem Keeps.setFull {s t : State} (h : Keeps s t) (loc : Nat) : Keeps s (t.setFull loc) :=
  h.trans ((Keeps.refl t).withMemory id (rising_removeNat _) id |>.trans ⟨id, id⟩)

@[simp] theorem Keeps.setEmpty {s t : State} (h : Keeps s t) (loc : Nat) : Keeps s (t.setEmpty loc) :=
  h.withMemory id (rising_insertNat _) id

/-! ## Agents by number -/

@[simp] theorem Keeps.modCore {s t : State} (h : Keeps s t) (c : Nat) (f : Core → Core) : Keeps s (t.modCore c f) :=
  ⟨h.form, h.numbers⟩

@[simp] theorem Keeps.modPart {s t : State} (h : Keeps s t) (p : Nat) (f : Partition → Partition) : Keeps s (t.modPart p f) :=
  ⟨h.form, h.numbers⟩

@[simp] theorem Keeps.modDie {s t : State} (h : Keeps s t) (d : Nat) (f : Die → Die) : Keeps s (t.modDie d f) :=
  ⟨h.form, h.numbers⟩

@[simp] theorem Keeps.modQueue {s t : State} (h : Keeps s t) (q : Nat) (f : LQueue → LQueue) : Keeps s (t.modQueue q f) :=
  ⟨h.form, h.numbers⟩

@[simp] theorem Keeps.setGroup {s t : State} (h : Keeps s t) (g : Group) : Keeps s (t.setGroup g) := by
  refine h.withGroups (sublist_of_eq ?_)
  refine map_map_keep _ _ (fun x => ?_) _
  split
  · next hx => exact (beq_iff_eq.1 hx).symm
  · rfl

theorem WfImages.map {l : List Team} {f : Team → Team} (hf : ∀ t ∈ l, (f t).image = t.image ∨ (f t).image = none)
    (h : WfImages l) : WfImages (l.map f) := by
  intro y hy im him
  obtain ⟨x, hx, rfl⟩ := List.mem_map.1 hy
  rcases hf x hx with e | e
  · exact h x hx im (e ▸ him)
  · rw [e] at him
    cases him

@[simp] theorem Keeps.modTeam {s t : State} (h : Keeps s t) (k : Nat) {f : Team → Team}
    (hid : ∀ x, (f x).id = x.id)
    (him : ∀ x, (f x).image = x.image) : Keeps s (t.modTeam k f) := by
  refine h.withTeams (sublist_of_eq (map_if_keep _ _ _ hid _)) (WfImages.map fun x _ => .inl ?_)
  split
  · exact him x
  · rfl

@[simp] theorem Keeps.modLaunch {s t : State} (h : Keeps s t) (k : Nat) {f : Launch → Launch}
    (hid : ∀ x, (f x).id = x.id) : Keeps s (t.modLaunch k f) :=
  h.withLaunches (sublist_of_eq (map_if_keep _ _ _ hid _))

@[simp] theorem Keeps.modGang {s t : State} (h : Keeps s t) (k : Nat) {f : Gang → Gang}
    (hid : ∀ x, (f x).id = x.id) : Keeps s (t.modGang k f) :=
  h.withGangs (sublist_of_eq (map_if_keep _ _ _ hid _))

@[simp] theorem Keeps.modCmd {s t : State} (h : Keeps s t) (k : Nat) {f : Cmd → Cmd}
    (hid : ∀ x, (f x).id = x.id) : Keeps s (t.modCmd k f) :=
  h.withCmds (sublist_of_eq (map_if_keep _ _ _ hid _))

/-! ## Events and the log -/

@[simp] theorem Keeps.setEvents {s t : State} (h : Keeps s t) (k : Nat) (bits : BitVec 16) : Keeps s (t.setEvents k bits) := by
  have hg : Keeps s { t with
      groups := t.groups.map (fun g => if g.team == k && g.core.isSome then { g with evpend := g.evpend ||| bits } else g) } :=
    h.withGroups (sublist_of_eq (map_if_keep _ _ (fun g : Group => { g with evpend := g.evpend ||| bits }) (fun _ => rfl) _))
  refine hg.withTeams (sublist_of_eq
    (map_if_keep _ _ (fun u : Team => { u with evpend := u.evpend ||| bits }) (fun _ => rfl) _)) (WfImages.map fun x _ => .inl ?_)
  split <;> rfl

@[simp] theorem Keeps.raise {s t : State} (h : Keeps s t) (master : Nat) : Keeps s (t.raise master) := by
  unfold State.raise
  split
  · exact h
  · exact ⟨h.form, h.numbers⟩

@[simp] theorem Keeps.log {s t : State} (h : Keeps s t) (e : LogEvent) : Keeps s (t.log e) := by
  unfold State.log
  dsimp only
  split
  · exact (Keeps.ite h ((h.write _ _).modDie _ _)).raise _ |>.setEvents _ _
  · exact (Keeps.ite h ((h.write _ _).modDie _ _)).raise _

@[simp] theorem Keeps.logParity {s t : State} (h : Keeps s t) (g : Group) (l : FetchLine) : Keeps s (t.logParity g l) := by
  unfold State.logParity
  exact h.log _

@[simp] theorem Keeps.readLines {s t : State} (h : Keeps s t) (g : Group) (vas : List Word64) : Keeps s (t.readLines g vas) := by
  unfold State.readLines
  refine h.foldl (fun u va => ?_) vas
  dsimp only
  split
  · exact (Keeps.refl u).logParity g _
  · exact .refl u

@[simp] theorem Keeps.addEvent {s t : State} (h : Keeps s t) (core i n : Nat) : Keeps s (t.addEvent core i n) :=
  h.modCore _ _

@[simp] theorem Keeps.lookUp {s t : State} (h : Keeps s t) (core part : Nat) (va : Word64) : Keeps s (t.lookUp core part va) := by
  have h2 : Keeps s (if (t.dieTlb core part va).isSome then t.addEvent core 3 1 else (t.addEvent core 3 1).addEvent core 4 1) :=
    .ite (h.addEvent _ _ _) ((h.addEvent _ _ _).addEvent _ _ _)
  unfold State.lookUp
  dsimp only
  split
  · exact h
  · split
    · exact h2
    · exact ((h2.modDie _ _).modCore _ _).withFreeCtr _

@[simp] theorem Keeps.lookUpAll {s t : State} (h : Keeps s t) (g : Group) (vas : List Word64) : Keeps s (t.lookUpAll g vas) := by
  unfold State.lookUpAll
  split
  · exact h
  · exact h.foldl (fun u _ => (Keeps.refl u).lookUp _ _ _) vas

/-! ## Faults and delivery -/

@[simp] theorem Keeps.halt {s t : State} (h : Keeps s t) (g : Group) (why : HaltReason) (r : CauseRec) : Keeps s (t.halt g why r) := by
  unfold State.halt
  exact (h.setGroup _).log _

@[simp] theorem Keeps.enterHandler {s t : State} (h : Keeps s t) (g : Group) (ret : Word64) (r : CauseRec) :
    Keeps s (t.enterHandler g ret r) := by
  unfold State.enterHandler
  dsimp only
  exact .ite (h.halt _ _ _) (.ite ((h.readLines _ _).setGroup _) ((h.readLines _ _).halt _ _ _))

@[simp] theorem Keeps.enterSupervisor {s t : State} (h : Keeps s t) (g : Group) (ret : Word64) (r : CauseRec) :
    Keeps s (t.enterSupervisor g ret r) :=
  h.setGroup _

@[simp] theorem Keeps.takeRec {s t : State} (h : Keeps s t) (g : Group) (c : Cause) (ret : Word64) (r : CauseRec) :
    Keeps s (t.takeRec g c ret r) := by
  unfold State.takeRec
  split
  · exact h.enterHandler _ _ _
  · exact h.enterSupervisor _ _ _
  · exact h.halt _ _ _
  · exact h.enterSupervisor _ _ _
  · exact h.halt _ _ _

@[simp] theorem Keeps.take {s t : State} (h : Keeps s t) (g : Group) (x : Trap) : Keeps s (t.take g x) :=
  h.takeRec _ _ _ _

@[simp] theorem Keeps.deliver {s t : State} (h : Keeps s t) (g : Group) : Keeps s (t.deliver g) := by
  unfold State.deliver
  split
  · exact h.take _ _
  · dsimp only
    split
    · exact h.setGroup _
    · exact h.take _ _

@[simp] theorem Keeps.hit {s t : State} (h : Keeps s t) (part : Nat) (r : HitRec) : Keeps s (t.hit part r) :=
  h.modPart _ _

@[simp] theorem Keeps.watch {s t : State} (h : Keeps s t) (g : Group) (ts : List Touch) : Keeps s (t.watch g ts) := by
  unfold State.watch
  dsimp only
  refine .ite (h.foldl (fun u x => ?_) _) h
  split
  · exact .refl u
  · exact (Keeps.refl u).hit _ _

@[simp] theorem Keeps.watchEngine {s t : State} (h : Keeps s t) (f : Fork) (ranges : List (Word64 × Nat)) :
    Keeps s (t.watchEngine f ranges) := by
  unfold State.watchEngine
  dsimp only
  refine .ite (h.foldl (fun u x => ?_) _) h
  split
  · exact .refl u
  · exact (Keeps.refl u).hit _ _

@[simp] theorem Keeps.accessed {s t : State} (h : Keeps s t) (g : Group) (ts : List Touch) : Keeps s (t.accessed g ts) :=
  .ite h ((h.lookUpAll _ _).watch _ _)

/-! ## Issue -/

@[simp] theorem Keeps.touch {s t : State} (h : Keeps s t) (core : Nat) : Keeps s (t.touch core) :=
  h.modCore _ _

@[simp] theorem Keeps.idleGrow {s t : State} (h : Keeps s t) (core : Nat) : Keeps s (t.idleGrow core) :=
  h.modCore _ _

@[simp] theorem Keeps.countIssue {s t : State} (h : Keeps s t) (core : Nat) : Keeps s (t.countIssue core) :=
  (h.touch _).addEvent _ _ _

@[simp] theorem Keeps.nextSeq {s t : State} (h : Keeps s t) (g : Group) : Keeps s (t.nextSeq g).2 := by
  unfold State.nextSeq
  split
  · exact h
  · exact h.modCore _ _

@[simp] theorem Keeps.finish {s t : State} (k : Keeps s t) (g : Group) (h : Hdr) (short : List RegWrite) (long : List LongOut)
    (next : Option Word64) (wait : Option Wait) (ts : List Touch) : Keeps s (t.finish g h short long next wait ts) := by
  have k0 : Keeps s { t with nextId := t.nextId + long.length } := k.withNextId (Nat.le_add_right _ _)
  unfold State.finish
  dsimp only
  refine .ite ?_ (.ite ?_ ?_)
  · exact ((k0.countIssue _).accessed _ _).setGroup _
  · exact ((k0.countIssue _).accessed _ _).deliver _
  · exact ((k0.countIssue _).accessed _ _).setGroup _

@[simp] theorem Keeps.looked {s t : State} (h : Keeps s t) (g : Group) (x : Trap) : Keeps s (t.looked g x) :=
  .ite h (h.lookUpAll _ _)

/-- What a body that takes effect answers is a state that keeps the form and the numbers. -/
def Gives (s : State) (r : Except Trap Done) : Prop :=
  ∀ d, r = .ok d → Keeps s d.s

@[simp] theorem Gives.error (s : State) (t : Trap) : Gives s (.error t) :=
  fun _ h => by cases h

@[simp] theorem Gives.ok {s : State} {d : Done} (h : Keeps s d.s) : Gives s (.ok d) :=
  fun _ e => by cases e; exact h

@[simp] theorem Gives.bind {α : Type} {s : State} {x : Except Trap α} {f : α → Except Trap Done}
    (h : ∀ a, x = .ok a → Gives s (f a)) : Gives s (x >>= f) := by
  cases x with
  | error t => exact Gives.error s t
  | ok a => exact h a rfl

@[simp] theorem Gives.ite {s : State} {a b : Except Trap Done} {c : Prop} [Decidable c] (ha : Gives s a) (hb : Gives s b) :
    Gives s (if c then a else b) := by
  split
  · exact ha
  · exact hb

@[simp] theorem Keeps.conclude {s t : State} (k : Keeps s t) (g : Group) (h : Hdr) {r : Except Trap Done} (hr : Gives t r) :
    Keeps s (t.conclude g h r) := by
  unfold State.conclude
  split
  · exact (k.looked _ _).take _ _
  · next d =>
    have kd := k.trans (hr d rfl)
    exact .ite kd (.ite ((Keeps.ite (kd.touch _) kd).setGroup _) (kd.finish _ _ _ _ _ _ _))

theorem Gives.reading {lines : State → Group → List Word64} {b : Body} (hb : ∀ s g, Gives s (b s g)) (s : State) (g : Group) :
    Gives s (reading lines b s g) := by
  unfold Machine.reading
  dsimp only
  refine .ite (hb s g) ?_
  split
  · next d hd => exact .ok (((Keeps.refl s).readLines _ _).trans (hb _ _ d hd))
  · exact .ok ((((Keeps.refl s).readLines _ _).looked _ _).take _ _)

/-- An outcome is a next state that keeps the form and the numbers. -/
def Runs (s : State) (o : Host.Outcome State Fault Refusal) : Prop :=
  ∃ t, o = .next t ∧ Keeps s t

@[simp] theorem Runs.next {s t : State} (h : Keeps s t) : Runs s (.next t) :=
  ⟨t, rfl, h⟩

@[simp] theorem Runs.ite {s : State} {a b : Host.Outcome State Fault Refusal} {c : Prop} [Decidable c] (ha : Runs s a)
    (hb : Runs s b) : Runs s (if c then a else b) := by
  split
  · exact ha
  · exact hb

theorem Runs.issue {s : State} {i : Instr} {h : Hdr} {u : Bool} {b : Body} (hb : ∀ g, Gives s (b s g)) :
    Runs s (issue s i h u b) := by
  unfold Machine.issue
  split
  · exact .next (.refl s)
  · exact .next ((Keeps.refl s).conclude _ _ (.ite (.error _ _) (hb _)))

@[simp] theorem Keeps.trace {s t : State} (h : Keeps s t) (part : Nat) (rec : BitVec 256) : Keeps s (t.trace part rec) :=
  .ite h ((h.writeNat _ _ _).modPart _ _)

end Sys2Proof.Machine
end


section
/-! # O57, O58: the instructions on registers, the exit of a group, control -/

namespace Sys2Proof.Machine

/-! ## Integer, float and lane instructions, which leave the state -/

@[simp] theorem gives_valueBody (h : Hdr) (d : Opd) (dw : Nat) (srcs : List (Opd × Nat)) (long : Bool) (rm : Rm) (f : LaneOp)
    (s : State) (g : Group) : Gives s (valueBody h d dw srcs long rm f s g) :=
  .bind fun _ _ => .bind fun _ _ => .ok (.refl s)

theorem gives_iaddcBody (h : Hdr) (ty : ITy) (d a b c : Opd) (s : State) (g : Group) : Gives s (iaddcBody h ty d a b c s g) :=
  .bind fun dn hdn => .ok (gives_valueBody _ _ _ _ _ _ _ s g dn hdn)

theorem gives_lanegetBody (h : Hdr) (ty : ITy) (d a b : Opd) (s : State) (g : Group) : Gives s (lanegetBody h ty d a b s g) :=
  .bind fun _ _ => .bind fun _ _ => .ok (.refl s)

theorem gives_shflBody (h : Hdr) (ty : ITy) (m : ShflMode) (d a b : Opd) (s : State) (g : Group) :
    Gives s (shflBody h ty m d a b s g) :=
  .bind fun _ _ => .ok (.refl s)

theorem gives_qxchBody (h : Hdr) (ty : ITy) (m : QxchMode) (d a : Opd) (s : State) (g : Group) :
    Gives s (qxchBody h ty m d a s g) :=
  .bind fun _ _ => .ok (.refl s)

theorem gives_ballotBody (h : Hdr) (ty : ITy) (d a : Opd) (s : State) (g : Group) : Gives s (ballotBody h ty d a s g) :=
  .bind fun _ _ => .ok (.refl s)

theorem gives_voteBody (h : Hdr) (ty : ITy) (any : Bool) (d a : Opd) (s : State) (g : Group) :
    Gives s (voteBody h ty any d a s g) :=
  .bind fun _ _ => .ok (.refl s)

theorem gives_gredBody (h : Hdr) (op : RedOp) (ty : ITy) (d a : Opd) (s : State) (g : Group) :
    Gives s (gredBody h op ty d a s g) :=
  .bind fun _ _ => .ok (.refl s)

theorem gives_gscanBody (h : Hdr) (op : RedOp) (ty : ITy) (exc : Bool) (d a : Opd) (s : State) (g : Group) :
    Gives s (gscanBody h op ty exc d a s g) :=
  .bind fun _ _ => .ok (.refl s)

theorem gives_maskCountBody (h : Hdr) (d a : Opd) (f : Mask → Nat) (s : State) (g : Group) :
    Gives s (maskCountBody h d a f s g) :=
  .bind fun _ _ => .ok (.refl s)

theorem gives_maskBody (d : Opd) (f : Group → Mask) (s : State) (g : Group) : Gives s (maskBody d f s g) :=
  .ok (.refl s)

/-! ## Special registers, halves and loop queues -/

theorem gives_mfsBody (h : Hdr) (d : Opd) (num : BitVec 12) (s : State) (g : Group) : Gives s (mfsBody h d num s g) :=
  .bind fun _ _ => .ok (.ite ((Keeps.refl s).nextSeq g) (.refl s))

theorem gives_mtsBody (h : Hdr) (num : BitVec 12) (a : Opd) (s : State) (g : Group) : Gives s (mtsBody h num a s g) := by
  unfold mtsBody
  split
  · exact .ok (.refl s)
  · exact .bind fun _ _ => .ok (.refl s)

theorem gives_xgrowBody (h : Hdr) (lo hi : Bool) (s : State) (g : Group) : Gives s (xgrowBody h lo hi s g) :=
  .ite (.ok (.refl s)) (.ite (.error s _) (.ok ((Keeps.refl s).modCore _ _)))

theorem gives_xdropBody (lo hi : Bool) (s : State) (g : Group) : Gives s (xdropBody lo hi s g) :=
  .ite (.ok ((Keeps.refl s).modCore _ _)) (.ok (.refl s))

theorem gives_qcfgBody (qi : BitVec 3) (depth : BitVec 4) (base : BitVec 6) (s : State) (g : Group) :
    Gives s (qcfgBody qi depth base s g) :=
  .ite (.error s _) (.ok (.refl s))

/-! ## The exit of a group -/

@[simp] theorem Keeps.uncharge {s t : State} (h : Keeps s t) (charge : List Nat) : Keeps s (t.uncharge charge) :=
  h.foldl (fun u _ => (Keeps.refl u).modTeam _ (by intro _; rfl) (by intro _; rfl)) charge

@[simp] theorem Keeps.dropReqs {s t : State} (h : Keeps s t) (g : Group) : Keeps s (t.dropReqs g) := by
  unfold State.dropReqs
  split
  · exact h
  · exact h.modCore _ _

@[simp] theorem Keeps.gangExit {s t : State} (h : Keeps s t) (g : Group) : Keeps s (t.gangExit g) := by
  refine h.foldl (fun u x => ?_) _
  dsimp only
  split
  · exact .ite (((Keeps.refl u).dropReqs _).take _ _) (.refl u)
  · exact .refl u

@[simp] theorem Keeps.keepTables {s t : State} (h : Keeps s t) (gone : Nat → Bool) : Keeps s (t.keepTables gone) := by
  refine h.withCmds (sublist_of_eq (map_map_keep _ _ (fun c => ?_) _))
  split <;> rfl

@[simp] theorem Keeps.keepPast {s t : State} (h : Keeps s t) (k : Nat) : Keeps s (t.keepPast k) := by
  unfold State.keepPast
  split
  · refine h.withTeams (sublist_of_eq (map_map_keep _ _ (fun x => ?_) _)) (WfImages.map fun x _ => .inl ?_)
    · split <;> rfl
    · split <;> rfl
  · exact h

theorem WfImages.filter {l : List Team} (p : Team → Bool) (h : WfImages l) : WfImages (l.filter p) :=
  fun t ht => h t (List.mem_of_mem_filter ht)

@[simp] theorem Keeps.endTeam {s t : State} (h : Keeps s t) (k : Nat) : Keeps s (t.endTeam k) := by
  have h1 := (h.keepTables (· == k)).keepPast k
  unfold State.endTeam
  generalize (t.keepTables (· == k)).keepPast k = u at h1
  have h2 : Keeps s { u with teams := u.teams.filter (fun x => x.id != k) } :=
    h1.withTeams (map_filter_sublist _ _ _) (WfImages.filter _)
  exact h2.withGangs (map_filter_sublist _ _ _)

@[simp] theorem Keeps.endIfEmpty {s t : State} (h : Keeps s t) (k : Nat) : Keeps s (t.endIfEmpty k) := by
  unfold State.endIfEmpty
  split
  · exact h
  · exact .ite h (h.endTeam k)

@[simp] theorem Keeps.removeGroup {s t : State} (h : Keeps s t) (g : Group) : Keeps s (t.removeGroup g) := by
  have h1 : Keeps s { t.dropReqs g with groups := (t.dropReqs g).groups.filter (fun x => x.id != g.id) } :=
    (h.dropReqs g).withGroups (map_filter_sublist _ _ _)
  unfold State.removeGroup
  dsimp only
  split
  · exact h1.idleGrow _
  · exact h1

@[simp] theorem Keeps.exitGroup {s t : State} (h : Keeps s t) (g : Group) : Keeps s (t.exitGroup g) := by
  unfold State.exitGroup
  cases g.kind with
  | spawned charge => exact ((h.removeGroup g).uncharge charge).endIfEmpty _
  | launched => exact ((h.removeGroup g).gangExit g).endIfEmpty _
  | callee => exact (h.removeGroup g).endIfEmpty _

/-! ## Spawn teams -/

@[simp] theorem Keeps.spawnTeam {s t : State} (h : Keeps s t) (core launch : Nat) : Keeps s (t.spawnTeam core launch).1 := by
  unfold State.spawnTeam
  split
  · exact h
  · exact h.addTeam rfl rfl

@[simp] theorem Keeps.formSpawn {s t : State} (h : Keeps s t) (core : Nat) : Keeps s (t.formSpawn core) :=
  h.foldl (fun u _ => (Keeps.refl u).spawnTeam _ _) _

theorem Keeps.postLanes {s t : State} (h : Keeps s t) (g : Group) (core launch : Nat) (entry : Word64) (vregs : Nat)
    (n : BitVec 6) (lanes : List Nat) : Keeps s (t.postLanes g core launch entry vregs n lanes).1 := by
  induction lanes generalizing t g with
  | nil => exact h
  | cons i rest ih =>
    unfold State.postLanes
    dsimp only
    split
    · exact (h.modCore _ _).formSpawn _
    · exact ih (((h.modCore _ _).modTeam _ (by intro _; rfl) (by intro _; rfl)).formSpawn _) _

/-! ## Control instructions -/

theorem gives_branchBody (t : Target) (test : Test) (s : State) (g : Group) : Gives s (branchBody t test s g) :=
  .ite (.bind fun _ _ => .ok (.refl s)) (.ok (.refl s))

theorem gives_callBody (t : Target) (link : Opd) (s : State) (g : Group) : Gives s (callBody t link s g) :=
  .bind fun _ _ => .bind fun _ _ => .ite (.error s _) (.ite (.error s _) (.ok (.refl s)))

@[simp] theorem Keeps.clearLastsp {s t : State} (h : Keeps s t) (k : Nat) : Keeps s (t.clearLastsp k) := by
  unfold State.clearLastsp
  split
  · exact h
  · exact h.setGroup _

theorem gives_retBody (h : Hdr) (link : Opd) (s : State) (g : Group) : Gives s (retBody h link s g) :=
  .bind fun _ _ => .ok (((Keeps.refl s).finish _ _ _ _ _ _ _).clearLastsp _)

theorem gives_spawnBody (h : Hdr) (t : Target) (base : Opd) (s : State) (g : Group) : Gives s (spawnBody h t base s g) := by
  refine .ite (.ok (.refl s)) ?_
  unfold spawnBody.post
  refine .bind fun _ _ => .bind fun rc _ => .ite (.error s _) (.ite (.error s _) ?_)
  have hp := (Keeps.refl s).postLanes g (g.core.getD 0) (match s.team? g.team with | some t => t.launch | none => 0)
    (g.target t) rc.vregs (vNum base) (lanesOf (g.contributors h &&& ~~~g.prog))
  exact .ite (.ok hp) (.ok hp)

theorem gives_spwaitBody (a : Opd) (s : State) (g : Group) : Gives s (spwaitBody a s g) :=
  .ite (.ok (.refl s)) (.ok (.refl s))

theorem gives_exitBody (h : Hdr) (s : State) (g : Group) : Gives s (exitBody h s g) := by
  refine .ite (.error s _) (.ite (.ok (.refl s)) ?_)
  split
  · exact .ok (((Keeps.refl s).countIssue _).exitGroup _)
  · exact .ok ((Keeps.refl s).modGang _ (by intro _; rfl))

theorem gives_markBody (code : BitVec 32) (s : State) (g : Group) : Gives s (markBody code s g) :=
  .ite (.ok (((Keeps.refl s).nextSeq g).trace _ _)) (.ok (.refl s))

theorem gives_trapBody (h : Hdr) (c : Cause) (code : BitVec 32) (s : State) (g : Group) : Gives s (trapBody h c code s g) := by
  refine .ite (.ok (.refl s)) ?_
  split
  · exact .ok ((Keeps.refl s).take _ _)
  · exact .ok (((Keeps.refl s).countIssue _).takeRec _ _ _ _)

theorem gives_bkptBody (h : Hdr) (code : BitVec 32) (s : State) (g : Group) : Gives s (bkptBody h code s g) :=
  .ite (.ite (.ok (.refl s)) (.ok (((Keeps.refl s).setGroup _).hit _ _))) (gives_trapBody h _ _ s g)

/-! ## Ranges of an engine -/

@[simp] theorem Keeps.reachWrite {s t : State} (h : Keeps s t) (r : Reach) (va : Word64) (bs : List Byte) :
    Keeps s (t.reachWrite r va bs) := by
  unfold State.reachWrite
  generalize spans va bs.length = l
  induction l generalizing t bs with
  | nil => exact h
  | cons p l ih => exact ih (h.write _ _) _

@[simp] theorem Keeps.reachMark {s t : State} (h : Keeps s t) (r : Reach) (va : Word64) (ks : List Nat) :
    Keeps s (t.reachMark r va ks) :=
  h.foldl (fun u _ => (Keeps.refl u).setPoison _) ks

@[simp] theorem Keeps.clearTile {s t : State} (h : Keeps s t) (r : Reach) (rec : TBits) (k : Nat) : Keeps s (t.clearTile r rec k) :=
  .ite h (h.writeNat _ _ _)

@[simp] theorem Keeps.clearTiles {s t : State} (h : Keeps s t) (r : Reach) (rec : TBits) (ks : List Nat) :
    Keeps s (t.clearTiles r rec ks) :=
  .ite (h.foldl (fun u _ => (Keeps.refl u).clearTile _ _ _) _) h

end Sys2Proof.Machine
end


section
/-! # O57, O58: fetch, width-changing calls and launches -/

namespace Sys2Proof.Machine

/-! ## The turn of a group -/

@[simp] theorem Keeps.receive {s t : State} (h : Keeps s t) (g : Group) : Keeps s (t.receive g).1 := by
  unfold State.receive
  split
  · exact h
  · dsimp only
    split
    · exact ((h.lookUpAll _ _).setGroup _).logParity _ _
    · exact (h.lookUpAll _ _).setGroup _

theorem Keeps.stopAt {s t u : State} (h : Keeps s t) {g : Group} {ord : Nat} (hu : t.stopAt g ord = some u) : Keeps s u := by
  unfold State.stopAt at hu
  dsimp only at hu
  split at hu
  · cases hu
    exact (h.setGroup _).hit _ _
  · split at hu
    · cases hu
      exact h.setGroup _
    · cases hu

/-- What a turn's state is. -/
def TurnOf.keeps (s : State) : TurnOf → Prop
  | .idle => True
  | .done t => Keeps s t
  | .run _ t => Keeps s t

theorem turn_keeps (s : State) : s.turn.keeps s := by
  unfold State.turn
  split
  · trivial
  · next g _ =>
    split
    · trivial
    · have h1 := (Keeps.refl s).receive g
      revert h1
      generalize s.receive g = r
      obtain ⟨s1, g1⟩ := r
      intro h1
      dsimp only at h1 ⊢
      split
      · trivial
      · split
        · exact h1.take _ _
        · split
          · split
            · exact h1
            · split
              · next hs => exact h1.stopAt hs
              · exact h1
          · exact h1

/-! ## Self-folding -/

@[simp] theorem Keeps.saveFrame {s t : State} (h : Keeps s t) (g : Group) (tgt : CallTarget) (creg : BitVec 6) (set : Mask)
    (loc : Nat) : Keeps s (t.saveFrame g tgt creg set loc) :=
  (h.write _ _).write _ _

@[simp] theorem Keeps.selfFold {s t : State} (h : Keeps s t) (g : Group) (c : Calling) (lanes : List CallLane) (set : Mask)
    (off : Nat) : Keeps s (t.selfFold g c lanes set off) :=
  (h.saveFrame _ _ _ _ _).setGroup _

@[simp] theorem Keeps.setAcc {s t : State} (h : Keeps s t) (loc : Nat) (tgt : CallTarget) (j lane : Nat) (v : Code) :
    Keeps s (t.setAcc loc tgt j lane v) :=
  .ite (((h.writeNat _ _ _).writeNat _ _ _).writeNat _ _ _) ((h.writeNat _ _ _).writeNat _ _ _)

@[simp] theorem Keeps.foldAcc {s t : State} (h : Keeps s t) (g : Group) (f : Fold) (creg : BitVec 6) (con : Mask)
    (lane : BitVec 6) (j : Nat) : Keeps s (t.foldAcc g f creg con lane j).1 := by
  unfold State.foldAcc
  dsimp only
  split
  · exact h.setAcc _ _ _ _ _
  · exact h

/-- A fold that carries a value beside the state. -/
theorem Keeps.foldlFst {α β : Type} {f : State × β → α → State × β} (hf : ∀ p x, Keeps p.1 (f p x).1) {s : State} {p : State × β}
    (h : Keeps s p.1) (l : List α) : Keeps s (l.foldl f p).1 := by
  induction l generalizing p with
  | nil => exact h
  | cons x xs ih => exact ih (h.trans (hf p x))

@[simp] theorem Keeps.foldPassVals {s t : State} (h : Keeps s t) (g : Group) (f : Fold) (creg : BitVec 6) (con : Mask) :
    Keeps s (t.foldPassVals g f creg con).1 := by
  refine Keeps.foldlFst (fun p x => ?_) (.ite (h.write _ _) h) _
  obtain ⟨u, fl⟩ := p
  refine Keeps.foldlFst (fun q y => ?_) (.refl u) _
  obtain ⟨v, fl'⟩ := q
  exact (Keeps.refl v).foldAcc _ _ _ _ _ _

@[simp] theorem Keeps.endPass {s t : State} (h : Keeps s t) (k : Nat) : Keeps s (t.endPass k) :=
  h.withCmds (sublist_of_eq (map_if_keep _ _ (fun c : Cmd => { c with past := true }) (fun _ => rfl) _))

@[simp] theorem Keeps.endFold {s t : State} (h : Keeps s t) (g : Group) (f : Fold) : Keeps s (t.endFold g f) :=
  (h.modTeam _ (by intro _; rfl) (by intro _; rfl)).setGroup _

@[simp] theorem Keeps.foldReturn {s t : State} (h : Keeps s t) (g : Group) (f : Fold) (creg : BitVec 6) (con : Mask) :
    Keeps s (t.foldReturn g f creg con) := by
  have h1 := (h.foldPassVals g f creg con).endPass g.id
  exact .ite ((h1.writeNat _ _ _).setGroup _) (h1.endFold _ _)

/-! ## Packed groups -/

@[simp] theorem Keeps.giveLane {s t : State} (h : Keeps s t) (g : Group) (tgt : CallTarget) (creg : BitVec 6) (con : Mask)
    (lanes : List (Nat × CallLane)) (m : Nat × BitVec 6 × Nat) : Keeps s (t.giveLane g tgt creg con lanes m) := by
  unfold State.giveLane
  dsimp only
  split
  · exact h
  · exact h.setGroup _

theorem resumeIfDone_id (g : Group) : g.resumeIfDone.id = g.id := by
  have hput (ws : List RegWrite) (k : Group) : (ws.foldl Group.put k).id = k.id := by
    induction ws generalizing k with
    | nil => rfl
    | cons w ws ih => exact (ih _).trans (Group.put_id k w)
  unfold Group.resumeIfDone
  split
  · split
    · exact hput _ _
    · rfl
  · rfl

@[simp] theorem Keeps.resumeCallers {s t : State} (h : Keeps s t) : Keeps s t.resumeCallers := by
  refine h.withGroups (sublist_of_eq (map_map_keep _ _ (fun g => ?_) _))
  split
  · rfl
  · exact resumeIfDone_id g

@[simp] theorem Keeps.packReturn {s t : State} (h : Keeps s t) (g : Group) (tgt : CallTarget) (p : Pack) (rest : List Pack)
    (frame : Option Nat) (creg : BitVec 6) (con : Mask) : Keeps s (t.packReturn g tgt p rest frame creg con) := by
  unfold State.packReturn
  have h1 := h.foldl (f := fun u m => u.giveLane g tgt creg con (p.lanes.zipIdx.map (fun (l, i) => (i, l))) m)
    (fun u m => (Keeps.refl u).giveLane _ _ _ _ _ _) (membersOf p.lanes)
  refine Keeps.resumeCallers ?_
  split
  · exact (h1.endPass _).setGroup _
  · split
    · exact (h1.removeGroup _).modTeam _ (by intro _; rfl) (by intro _; rfl)
    · exact h1.removeGroup _

theorem calleeGroup_id (s : State) (core slot : Nat) (tgt : CallTarget) (p : Pack) (rest : List Pack) (depth : Nat)
    (frame : Option Nat) : (s.calleeGroup core slot tgt p rest depth frame).id = s.nextId := by
  unfold State.calleeGroup
  split <;> rfl

@[simp] theorem Keeps.startCallees {s t : State} (h : Keeps s t) (core : Nat) (tgt : CallTarget) (packs : List Pack) (depth n : Nat)
    (frames : List Nat) (m : Nat) : Keeps s (t.startCallees core tgt packs depth n frames m) := by
  induction m generalizing t with
  | zero => exact h
  | succ m ih =>
    unfold State.startCallees
    dsimp only
    split
    · exact ih (h.addGroup (calleeGroup_id ..))
    · exact h

/-- A team replaced by one of its number, whose image stands in the machine already. -/
theorem Keeps.replaceTeam {s t : State} (h : Keeps s t) {u v : Team} (hu : u ∈ t.teams) (hid : v.id = u.id)
    (him : v.image = u.image) : Keeps s (t.modTeam u.id (fun _ => v)) := by
  refine h.withTeams (sublist_of_eq (map_map_keep _ _ (fun x => ?_) _)) (fun hw y hy im hi => ?_)
  · split
    · next hx => exact hid.trans (beq_iff_eq.1 hx).symm
    · rfl
  · obtain ⟨x, hx, rfl⟩ := List.mem_map.1 hy
    split at hi
    · exact hw u hu im (him ▸ hi)
    · exact hw x hx im hi

theorem takeAreas_keep (s : State) (t : Team) (size n : Nat) :
    (s.takeAreas t size n).1.id = t.id ∧ (s.takeAreas t size n).1.image = t.image := by
  induction n generalizing t with
  | zero => exact ⟨rfl, rfl⟩
  | succ n ih =>
    unfold State.takeAreas
    split
    · exact ⟨rfl, rfl⟩
    · exact ih _

theorem team?_mem {s : State} {k : Nat} {t : Team} (h : s.team? k = some t) : t ∈ s.teams :=
  List.mem_of_find?_eq_some h

theorem Keeps.grantCall {s t u : State} (h : Keeps s t) {g : Group} {c : Calling} {lanes : List CallLane} {set : Mask}
    (hu : t.grantCall g c lanes set = some u) : Keeps s u := by
  unfold State.grantCall at hu
  split at hu
  · cases hu
  · next tm htm =>
    have hfold {off : Nat} : Keeps s (((t.modTeam tm.id (fun x => { x with areas := x.areas ++ [(off, c.tgt.frameSize)] })).selfFold
        g c (if c.tgt.gather then lanes else lanes.filter (fun l => l.w == 0)) set off)) :=
      (h.modTeam _ (by intro _; rfl) (by intro _; rfl)).selfFold _ _ _ _ _
    have hstart {t1 : Team} (hid : t1.id = tm.id) (him : t1.image = tm.image) (n : Nat) (frames : List Nat) :
        Keeps s (((t.modTeam tm.id (fun _ => t1)).setGroup { g with calling := some c, wait := some .widthpark }).startCallees
          (g.core.getD 0) c.tgt (packsOf lanes) (g.depth + 1) n frames n) :=
      ((h.replaceTeam (team?_mem htm) hid him).setGroup _).startCallees _ _ _ _ _ _ _
    by_cases hf : c.tgt.rc.frame = 0
    · simp only [hf, if_true] at hu
      split at hu
      · split at hu
        · cases hu
        · cases hu
          exact hfold
      · cases hu
        exact hstart rfl rfl _ _
    · simp only [hf, if_false] at hu
      split at hu
      · split at hu
        · cases hu
        · cases hu
          exact hfold
      · cases hu
        exact hstart (takeAreas_keep ..).1 (takeAreas_keep ..).2 _ _

theorem gives_widthCallBody (h : Hdr) (gather team : Bool) (t : Target) (sel : Option (BitVec 3)) (base : Opd) (s : State)
    (g : Group) : Gives s (widthCallBody h gather team t sel base s g) := by
  unfold widthCallBody
  refine .bind fun rc _ => ?_
  dsimp only
  refine .ite (.ok (.refl s)) (.ite (.ok (.refl s)) (.ite (.ok (.refl s)) ?_))
  split
  · exact .ok (((Keeps.refl s).looked _ _).take _ _)
  · have h1 := ((Keeps.refl s).countIssue (g.core.getD 0)).lookUpAll g ((callTouches (g.target t)).map (fun x => x.va))
    split
    · split
      · exact .ok ((h1.modCore _ _).setGroup _)
      · exact .ok (((Keeps.refl s).modCore _ _).formSpawn _)
    · split
      · next hs => exact .ok (h1.grantCall hs)
      · exact .error s _

theorem gives_wretBody (h : Hdr) (sel : Option (BitVec 3)) (base : Opd) (s : State) (g : Group) :
    Gives s (wretBody h sel base s g) := by
  unfold wretBody
  split
  · exact .error s _
  · refine .ite (.error s _) (.ite (.ok (.refl s)) ?_)
    split
    · exact .ok ((Keeps.refl s).take _ _)
    · dsimp only
      split
      · exact .error s _
      · refine .ok ?_
        have h1 := (Keeps.refl s).countIssue (g.core.getD 0)
        dsimp only
        split
        · exact h1.foldReturn _ _ _ _
        · exact h1.packReturn _ _ _ _ _ _ _
        · exact h1

/-! ## The launch front-end -/

@[simp] theorem Keeps.logQueue {s t : State} (h : Keeps s t) (q part kind aux : Nat) (data : List Byte) :
    Keeps s (t.logQueue q part kind aux data) :=
  h.log _

@[simp] theorem Keeps.cwrite {s t : State} (h : Keeps s t) (q part : Nat) (p : Packet) (sem : Bool) (va : Word64) (n v : Nat) :
    Keeps s (t.cwrite q part p sem va n v) := by
  unfold State.cwrite
  dsimp only
  split
  · exact h
  · split
    · exact h.logQueue _ _ _ _ _
    · exact .ite (h.logQueue _ _ _ _ _) (h.writeNat _ _ _)

@[simp] theorem Keeps.writeCompletion {s t : State} (h : Keeps s t) (q part : Nat) (p : Packet) (tdisp : Word64) (status : Nat) :
    Keeps s (t.writeCompletion q part p tdisp status) :=
  (h.cwrite _ _ _ _ _ _ _).cwrite _ _ _ _ _ _ _

@[simp] theorem Keeps.nextPacket {s t : State} (h : Keeps s t) (q : Nat) (prev : Option Nat) : Keeps s (t.nextPacket q prev) :=
  h.modQueue _ _

@[simp] theorem Keeps.failLaunch {s t : State} (h : Keeps s t) (q : Nat) (p : Packet) (status cause : Nat) (addr : Word64) :
    Keeps s (t.failLaunch q p status cause addr) :=
  ((h.logQueue _ _ _ _ _).writeCompletion _ _ _ _ _).nextPacket _ _

@[simp] theorem Keeps.failRead {s t : State} (h : Keeps s t) (q : Nat) (cause : Cause) (addr : Word64) :
    Keeps s (t.failRead q cause addr) :=
  (h.logQueue _ _ _ _ _).nextPacket _ _

@[simp] theorem Keeps.startAttached {s t : State} (h : Keeps s t) (k : Nat) : Keeps s (t.startAttached k) := by
  unfold State.startAttached
  split
  · exact h
  · split
    · exact h
    · exact .ite h ((h.addColl rfl).modLaunch _ (by intro _; rfl))

@[simp] theorem Keeps.dispatchWith {s t : State} (h : Keeps s t) (q : Nat) (p : Packet) (v : Vals) (c : Option CollDesc) :
    Keeps s (t.dispatchWith q p v c) := by
  unfold State.dispatchWith
  dsimp only
  exact .ite (Keeps.startAttached (Keeps.nextPacket (h.addLaunch rfl) _ _) _) (Keeps.nextPacket (h.addLaunch rfl) _ _)

@[simp] theorem Keeps.dispatch {s t : State} (h : Keeps s t) (q : Nat) (p : Packet) : Keeps s (t.dispatch q p) := by
  unfold State.dispatch
  dsimp only
  have go (word : Option Nat) : Keeps s (match t.checkLaunch (pkAt p 306 304) p word with
      | .error f => t.failLaunch q p f.status f.cause f.addr
      | .ok (v, c) => t.dispatchWith q p v c) := by
    split
    · exact h.failLaunch _ _ _ _ _
    · exact h.dispatchWith _ _ _ _
  split
  · exact go none
  · split
    · exact go _
    · exact (h.logQueue _ _ _ _ _).failLaunch _ _ _ _ _

@[simp] theorem Keeps.advanceQueue {s t : State} (h : Keeps s t) (q : Nat) (poll : Bool) : Keeps s (t.advanceQueue q poll) := by
  unfold State.advanceQueue
  dsimp only
  split
  · exact h
  · refine .ite h (.ite (h.failLaunch _ _ _ _ _) (.ite ((h.modQueue _ _).dispatch _ _) (.ite (h.modQueue _ _) ?_)))
    split
    · exact (h.modQueue _ _).failLaunch _ _ _ _ _
    · exact .ite ((h.modQueue _ _).dispatch _ _) ((h.modQueue _ _).modQueue _ _)

@[simp] theorem Keeps.freeImages {s t : State} (h : Keeps s t) (k : Nat) : Keeps s (t.freeImages k) := by
  unfold State.freeImages
  split
  · exact .ite (h.modPart _ _) h
  · exact h

@[simp] theorem Keeps.removeLaunch {s t : State} (h : Keeps s t) (k : Nat) : Keeps s (t.removeLaunch k) := by
  unfold State.removeLaunch
  dsimp only
  refine Keeps.foldl ?_ (fun u c => (Keeps.refl u).idleGrow c) _
  have h1 := (Keeps.foldl (h.freeImages k) (fun u c => (Keeps.refl u).touch c)
    ((t.groups.filter (fun g => (t.teamsOf k).contains g.team)).filterMap (fun g => g.core))).keepTables (t.teamsOf k).contains
  revert h1
  generalize State.keepTables _ _ = u
  intro h1
  have h2 := h1.withGroups (l := u.groups.filter (fun g => !(t.teamsOf k).contains g.team)) (map_filter_sublist _ _ _)
  have h3 := h2.withTeams (l := u.teams.filter (fun x => x.launch != k)) (map_filter_sublist _ _ _) (WfImages.filter _)
  have h4 := h3.withGangs (l := u.gangs.filter (fun x => !(t.teamsOf k).contains x.team)) (map_filter_sublist _ _ _)
  have h5 := h4.withCmds (l := u.cmds.filter (fun c => c.launch != k || !u.cmdSaved c)) (map_filter_sublist _ _ _)
  exact ⟨h5.form, h5.numbers⟩

@[simp] theorem Keeps.abort {s t : State} (h : Keeps s t) (q : Nat) (n : Word32) : Keeps s (t.abort q n) := by
  unfold State.abort
  dsimp only
  split
  · exact .ite h ((h.removeLaunch _).modLaunch _ (by intro _; rfl))
  · split
    · exact .ite ((h.writeCompletion _ _ _ _ _).nextPacket _ _) h
    · exact h

@[simp] theorem Keeps.afterLaunch {s t : State} (h : Keeps s t) (k : Nat) : Keeps s (t.afterLaunch k) :=
  h.foldl (fun u _ => .ite ((Keeps.refl u).advanceQueue _ _) (.refl u)) _

theorem runs_packetRead (q : BitVec 6) (s : State) : Runs s (execPacketRead q s) := by
  unfold execPacketRead
  dsimp only
  split
  · exact .next (.refl s)
  · split
    · exact .next ((Keeps.refl s).failRead _ _ _)
    · exact .next (((Keeps.refl s).modQueue _ _).advanceQueue _ _)

theorem runs_dependencePoll (q : BitVec 6) (s : State) : Runs s (execDependencePoll q s) :=
  .next (.ite (.refl s) ((Keeps.refl s).advanceQueue _ _))

theorem runs_launchComplete (k : Nat) (s : State) : Runs s (execLaunchComplete k s) := by
  unfold execLaunchComplete
  split
  · exact .next (.refl s)
  · next l _ =>
    have h1 := (Keeps.refl s).writeCompletion l.queue.toNat l.part l.pkt l.tdisp l.status
    exact .ite (.next ((h1.withLaunches (map_filter_sublist _ _ _)).afterLaunch _)) (.next (.refl s))

end Sys2Proof.Machine
end


section
/-! # O57, O58: the register window, the module's reset, memory instructions -/

namespace Sys2Proof.Machine

/-! ## The management block -/

/-- The mailboxes, the reply buffers and the flash are canonical. -/
def Mgmt.Wf (m : Mgmt) : Prop :=
  (∀ k < 8, Memory.wf (vget m.boxes k []) = true ∧ Memory.wf (vget m.replies k []) = true) ∧
    Memory.wf m.slotA = true ∧ Memory.wf m.slotB = true ∧ Memory.wf m.fwData = true

theorem Keeps.withMgmt {s t : State} (h : Keeps s t) {m : Mgmt} (hm : t.mgmt.Wf → m.Wf) : Keeps s { t with mgmt := m } :=
  h.trans ⟨fun ⟨h1, h2, h3, h4, h5⟩ => ⟨h1, h2, h3, h4, hm h5⟩, id⟩

theorem vget_vmod_wf {v : Vector (List Host.Cell) 8} {j : Nat} (h : Memory.wf (vget v j []) = true) (i : Nat)
    {f : List Host.Cell → List Host.Cell} (hf : ∀ m, Memory.wf m = true → Memory.wf (f m) = true) :
    Memory.wf (vget (vmod v i [] f) j []) = true := by
  by_cases hi : i < 8
  · rw [vget_vmod v i [] f hi]
    split
    · next hj => exact hf _ (hj ▸ h)
    · exact h
  · have hv : vmod v i [] f = v := by
      unfold vmod vset
      exact Vector.setIfInBounds_eq_of_size_le (Nat.le_of_not_lt hi)
    rw [hv]
    exact h

@[simp] theorem Keeps.deny {s t : State} (h : Keeps s t) : Keeps s t.deny :=
  .ite h (h.withMgmt id)

@[simp] theorem Keeps.setBox {s t : State} (h : Keeps s t) (k rel : Nat) (bs : List Byte) : Keeps s (t.setBox k rel bs) :=
  h.withMgmt fun hm => ⟨fun j hj => ⟨vget_vmod_wf (hm.1 j hj).1 k (fun _ w => Memory.write_wf w _ _), (hm.1 j hj).2⟩, hm.2⟩

@[simp] theorem Keeps.setReply {s t : State} (h : Keeps s t) (k rel : Nat) (bs : List Byte) : Keeps s (t.setReply k rel bs) :=
  h.withMgmt fun hm => ⟨fun j hj => ⟨(hm.1 j hj).1, vget_vmod_wf (hm.1 j hj).2 k (fun _ w => Memory.write_wf w _ _)⟩, hm.2⟩

@[simp] theorem Keeps.finishCommand {s t : State} (h : Keeps s t) (k status : Nat) : Keeps s (t.finishCommand k status) :=
  (h.setBox k 4 (bytesOf 4 status)).withMgmt id

@[simp] theorem Keeps.writeBox {s t : State} (h : Keeps s t) (k rel n v : Nat) : Keeps s (t.writeBox k rel n v) := by
  have h2 : Keeps s { t.setBox k 0 (bytesOf 4 v ++ bytesOf 4 0xFFFF_FFFF) with
      mgmt := { (t.setBox k 0 (bytesOf 4 v ++ bytesOf 4 0xFFFF_FFFF)).mgmt with
        busy := vset (t.setBox k 0 (bytesOf 4 v ++ bytesOf 4 0xFFFF_FFFF)).mgmt.busy k true } } :=
    (h.setBox _ _ _).withMgmt id
  exact .ite (.ite h (.ite h2 (h2.finishCommand _ _))) (h.setBox _ _ _)

/-! ## Reset and boot -/

@[simp] theorem Keeps.resetModule {s t : State} (h : Keeps s t) : Keeps s t.resetModule := by
  refine ⟨fun hs => ?_, fun _ => ?_⟩
  · obtain ⟨hm, -, -, -, hg⟩ := h.form hs
    refine ⟨Memory.wf_filter _ hm, List.Pairwise.nil, List.Pairwise.nil, fun _ ht => (List.not_mem_nil ht).elim,
      fun k hk => ?_, hg.2⟩
    show Memory.wf (vget (Vector.replicate 8 []) k []) = true ∧ Memory.wf (vget (Vector.replicate 8 []) k []) = true
    rw [vget_replicate]
    exact ⟨rfl, rfl⟩
  · have none {n : Nat} : ([] : List Nat).Nodup ∧ ∀ i ∈ ([] : List Nat), i < n :=
      ⟨List.nodup_nil, fun _ hi => (List.not_mem_nil hi).elim⟩
    exact ⟨none, none, none, none, none, none, none⟩

@[simp] theorem Keeps.boot {s t : State} (h : Keeps s t) : Keeps s t.boot := by
  unfold State.boot
  dsimp only
  split
  · exact h.withMgmt id
  · exact h.withMgmt id

@[simp] theorem Keeps.firmwareUp {s t : State} (h : Keeps s t) : Keeps s t.firmwareUp :=
  ⟨h.form, h.numbers⟩

@[simp] theorem Keeps.pass {s t : State} (h : Keeps s t) (dt : Nat) : Keeps s (t.pass dt) := by
  have h1 : Keeps s { t with time := t.time + BitVec.ofNat 64 dt } := ⟨h.form, h.numbers⟩
  exact .ite h1 (.ite h1.boot (.ite h1.firmwareUp h1))

/-! ## Writes of registers -/

@[simp] theorem Keeps.setQbase {s t : State} (h : Keeps s t) (q : Nat) (v : Word64) : Keeps s (t.setQbase q v) :=
  .ite (h.modQueue _ _) h

@[simp] theorem Keeps.setQctl {s t : State} (h : Keeps s t) (q : Nat) (v : Word32) : Keeps s (t.setQctl q v) :=
  h.modQueue _ _

@[simp] theorem Keeps.setQtail {s t : State} (h : Keeps s t) (q : Nat) (v : Word32) : Keeps s (t.setQtail q v) := by
  unfold State.setQtail
  dsimp only
  have h1 := h.modQueue q (fun l => { l with tail := v })
  have h2 : Keeps s { t.modQueue q (fun l => { l with tail := v }) with
      queues := (t.modQueue q (fun l => { l with tail := v })).queues.map (fun k =>
        if k.qpart == (t.queue q).qpart && k.packet.isSome && k.interval != 0 then { k with interval := 64, due := t.time }
        else k) } := ⟨h1.form, h1.numbers⟩
  exact .ite ((h2.modQueue _ _).logQueue _ _ _ _ _) h2

@[simp] theorem Keeps.setCpart {s t : State} (h : Keeps s t) (c : Nat) (v : Word32) : Keeps s (t.setCpart c v) :=
  .ite h (h.modCore _ _)

@[simp] theorem Keeps.setXpool {s t : State} (h : Keeps s t) (c : Nat) (v : Word32) : Keeps s (t.setXpool c v) :=
  h.modCore _ _

@[simp] theorem Keeps.setPerfctl {s t : State} (h : Keeps s t) (c : Nat) (v : Word32) : Keeps s (t.setPerfctl c v) :=
  h.modCore _ _

@[simp] theorem Keeps.setIpqcfg {s t : State} (h : Keeps s t) (q : Nat) (v : Word32) : Keeps s (t.setIpqcfg q v) :=
  ⟨h.form, h.numbers⟩

@[simp] theorem Keeps.setTrsizel {s t : State} (h : Keeps s t) (p : Nat) (v : Word32) : Keeps s (t.setTrsizel p v) :=
  .ite (h.modPart _ _) h

@[simp] theorem Keeps.setElsizel {s t : State} (h : Keeps s t) (d : Nat) (v : Word32) : Keeps s (t.setElsizel d v) :=
  .ite (h.modDie _ _) h

@[simp] theorem Keeps.ringDoorbell {s t : State} (h : Keeps s t) (p : Nat) : Keeps s (t.ringDoorbell p) :=
  h.foldl (fun u _ => .ite ((Keeps.refl u).setEvents _ _) (.refl u)) _

@[simp] theorem Keeps.haltRequest {s t : State} (h : Keeps s t) (p : Nat) : Keeps s (t.haltRequest p) :=
  h.hit _ _

@[simp] theorem Keeps.release {s t : State} (h : Keeps s t) (p : Nat) : Keeps s (t.release p) := by
  unfold State.release
  dsimp only
  refine Keeps.resumeCallers (Keeps.withGroups (Keeps.modPart
    (h.foldl (fun u _ => (Keeps.refl u).setEvents _ _) _) _ _) (sublist_of_eq (map_map_keep _ _ (fun g => ?_) _)))
  split <;> rfl

@[simp] theorem Keeps.setDbgsel {s t : State} (h : Keeps s t) (p : Nat) (v : Word64) : Keeps s (t.setDbgsel p v) :=
  .ite ((h.modPart _ _).modPart _ _) (h.modPart _ _)

@[simp] theorem Keeps.setDbgctl {s t : State} (h : Keeps s t) (p : Nat) (v : Word32) : Keeps s (t.setDbgctl p v) := by
  unfold State.setDbgctl
  dsimp only
  have h1 := h.modPart p (fun d => { d with sampl := v.extractLsb' 16 16, btrace := v.getLsbD 1, arm := v.getLsbD 0 })
  have h2 := Keeps.ite (c := v.getLsbD 4 = true) (h1.release p) h1
  exact .ite (h2.haltRequest _) h2

@[simp] theorem Keeps.setPrslice {s t : State} (h : Keeps s t) (p : Nat) (v : Word32) : Keeps s (t.setPrslice p v) := by
  unfold State.setPrslice
  dsimp only
  refine Keeps.trans (Keeps.withTeams h (sublist_of_eq (map_map_keep _ _ ?_ _)) (WfImages.map ?_)) ⟨id, id⟩
  · exact fun _ => rfl
  · exact fun _ _ => .inl rfl

@[simp] theorem Keeps.setPswap {s t : State} (h : Keeps s t) (p : Nat) (v : BitVec 128) : Keeps s (t.setPswap p v) :=
  .ite (h.modPart _ _) h

@[simp] theorem Keeps.regSet {s t : State} (h : Keeps s t) (r : Reg) (v : Nat) : Keeps s (t.regSet r v) := by
  cases r with
  | qbase q => exact h.setQbase _ _
  | qctl q => exact h.setQctl _ _
  | qtail q => exact h.setQtail _ _
  | qabort q => exact h.abort _ _
  | prslice p => exact h.setPrslice _ _
  | ipqcfg q => exact h.setIpqcfg _ _
  | ptvec p => exact h.modPart _ _
  | proot p => exact .ite (h.modPart _ _) h
  | doorbell p => exact h.ringDoorbell _
  | dbgctl p => exact h.setDbgctl _ _
  | dbgbp p i => exact h.modPart _ _
  | trbase p => exact .ite (h.modPart _ _) h
  | trsizel p => exact h.setTrsizel _ _
  | dbgsel p => exact h.setDbgsel _ _
  | elbase d => exact .ite (h.modDie _ _) h
  | elsizel d => exact h.setElsizel _ _
  | cecount d => exact h.modDie _ _
  | cpart c => exact h.setCpart _ _
  | xpool c => exact h.setXpool _ _
  | bintime c => exact h.modCore _ _
  | perfctl c => exact h.setPerfctl _ _
  | pgidle c => exact h.modCore _ _
  | _ => exact h

@[simp] theorem Keeps.regHalf {s t : State} (h : Keeps s t) (r : Reg) (high : Bool) (v : Word64) : Keeps s (t.regHalf r high v) := by
  cases r with
  | pswap p => exact .ite (h.setPswap _ _) (h.modPart _ _)
  | dbgwp p i => exact .ite (h.modPart _ _) (h.modPart _ _)
  | _ => exact h

@[simp] theorem Keeps.mgmtWrite {s t : State} (h : Keeps s t) (who : Agent) (off n v : Nat) : Keeps s (t.mgmtWrite who off n v) := by
  unfold State.mgmtWrite
  split
  · exact .ite (.ite (h.writeBox _ _ _ _) h) h.deny
  · exact .ite (.ite h.resetModule h) h.deny
  · exact h.deny

@[simp] theorem Keeps.regWrite {s t : State} (h : Keeps s t) (who : Agent) (off n v : Nat) : Keeps s (t.regWrite who off n v) := by
  unfold State.regWrite
  refine .ite h (.ite ?_ (.ite h ?_))
  · split
    · exact h
    · exact h.mgmtWrite _ _ _ _
  · split
    · split
      · exact .ite h h.deny
      · exact h
    · next r base _ =>
      have hput : Keeps s (if off - base = 0 && n = r.bytes then t.regSet r v
          else if r.bytes = 16 && n = 8 && (off - base) % 8 = 0 then t.regHalf r (off - base = 8) (BitVec.ofNat 64 v)
          else t) := .ite (h.regSet _ _) (.ite (h.regHalf _ _ _) h)
      dsimp only
      split
      · split
        · exact h
        · exact hput
      · exact .ite hput h.deny
      · exact .ite hput h

@[simp] theorem Keeps.vfWrite {s t : State} (h : Keeps s t) (p : BitVec 3) (off n v : Nat) : Keeps s (t.vfWrite p off n v) := by
  unfold State.vfWrite
  split
  · exact h.regWrite _ _ _ _
  · exact h

theorem runs_writeAt (s : State) (who : Requester) (off n v : Nat) : Runs s (s.writeAt who off n v) :=
  .next ((Keeps.refl s).regWrite _ _ _ _)

theorem runs_registerWrite (who : Requester) (off : BitVec 24) (width : Nat) (v : Word64) (s : State) :
    Runs s (execRegisterWrite who off width v s) := by
  cases who with
  | master r => exact runs_writeAt _ _ _ _ _
  | vf p => exact .next ((Keeps.refl s).vfWrite _ _ _ _)

/-! ## Memory instructions -/

theorem gives_holding {hold : State → Group → Bool} {b : Body} {s : State} {g : Group} (hb : Gives s (b s g)) :
    Gives s (holding hold b s g) :=
  .ite (.ok (.refl s)) hb

theorem gives_looking {lanes : Group → List Nat} {a : MemOpd} {b : Body} {s : State} {g : Group} (hb : Gives s (b s g)) :
    Gives s (looking lanes a b s g) := by
  unfold looking
  split
  · next d hd => exact .ok (hb d hd)
  · exact .error s _

@[simp] theorem Keeps.countPasses {s t : State} (h : Keeps s t) (g : Group) (n : Nat) (l : List (Nat × Nat)) :
    Keeps s (t.countPasses g n l) :=
  h.addEvent _ _ _

theorem gives_ldBody (h : Hdr) (ty : ITy) (ord : MemOrd) (d : Opd) (a : MemOpd) (s : State) (g : Group) :
    Gives s (ldBody h ty ord d a s g) := by
  unfold ldBody
  refine .bind fun _ _ => .bind fun found _ => ?_
  split
  · exact .error s _
  · exact .ok ((Keeps.refl s).countPasses _ _ _)

@[simp] theorem Keeps.storeAt {s t : State} (h : Keeps s t) (x : Access) (n v : Nat) : Keeps s (t.storeAt x n v) := by
  unfold State.storeAt
  split
  · exact h.writeNat _ _ _
  · exact h.regWrite _ _ _ _

@[simp] theorem Keeps.storeAll {s t : State} (h : Keeps s t) (l : List Access) (n : Nat) (val : Nat → Code) :
    Keeps s (t.storeAll l n val) :=
  h.foldl (fun u _ => (Keeps.refl u).storeAt _ _ _) l

theorem gives_stBody (h : Hdr) (ty : ITy) (d : Opd) (a : MemOpd) (s : State) (g : Group) : Gives s (stBody h ty d a s g) :=
  .bind fun _ _ => .bind fun _ _ => .ok (((Keeps.refl s).storeAll _ _ _).countPasses _ _ _)

theorem gives_lineBody (h : Hdr) (full : Bool) (a : MemOpd) (s : State) (g : Group) : Gives s (lineBody h full a s g) :=
  .bind fun _ _ => .bind fun l _ => .ok ((Keeps.refl s).foldl
    (fun u _ => .ite ((Keeps.refl u).setFull _) ((Keeps.refl u).setEmpty _)) l)

theorem gives_ltestBody (h : Hdr) (d : Opd) (a : MemOpd) (s : State) (g : Group) : Gives s (ltestBody h d a s g) :=
  .bind fun _ _ => .bind fun _ _ => .ok (.refl s)

@[simp] theorem Keeps.updateAll {s t : State} (h : Keeps s t) (n : Nat) (f : Nat → Code → Code) (l : List Access) :
    Keeps s (t.updateAll n f l).1 := by
  induction l generalizing t with
  | nil => exact h
  | cons x l ih => exact ih (h.writeNat _ _ _)

theorem gives_atomBody (h : Hdr) (op : RedOp) (ty : ITy) (d : Opd) (a : MemOpd) (b : Opd) (s : State) (g : Group) :
    Gives s (atomBody h op ty d a b s g) :=
  .bind fun _ _ => .bind fun l _ => .ok (((Keeps.refl s).updateAll _ _ l).countPasses _ _ _)

theorem gives_redmBody (h : Hdr) (op : RedOp) (ty : ITy) (d : Opd) (a : MemOpd) (s : State) (g : Group) :
    Gives s (redmBody h op ty d a s g) :=
  .bind fun _ _ => .bind fun l _ => .ok (((Keeps.refl s).updateAll _ _ l).countPasses _ _ _)

theorem Keeps.casAll {s t : State} (h : Keeps s t) (a : Accessor) (n : Nat) (cmp new : Nat → Code) (l : List Access)
    {r : State × List (Nat × Code) × List Touch} (hr : t.casAll a n cmp new l = .ok r) : Keeps s r.1 := by
  induction l generalizing t r with
  | nil =>
    cases hr
    exact h
  | cons x l ih =>
    unfold State.casAll at hr
    dsimp only at hr
    split at hr
    · split at hr
      · cases hr
      · match hc : (t.writeNat x.loc n (new x.lane).toNat).casAll a n cmp new l with
        | .error e => rw [hc] at hr; cases hr
        | .ok q =>
          rw [hc] at hr
          cases hr
          exact ih (r := q) (h.writeNat _ _ _) hc
    · match hc : t.casAll a n cmp new l with
      | .error e => rw [hc] at hr; cases hr
      | .ok q =>
        rw [hc] at hr
        cases hr
        exact ih (r := q) h hc

theorem gives_casBody (h : Hdr) (ty : ITy) (d : Opd) (a : MemOpd) (b : Opd) (s : State) (g : Group) :
    Gives s (casBody h ty d a b s g) := by
  unfold casBody
  refine .bind fun _ _ => .bind fun l _ => .bind fun r hr => ?_
  have h1 := (Keeps.refl s).casAll _ _ _ _ _ hr
  dsimp only
  split
  · exact .error s _
  · exact .ok (h1.countPasses _ _ _)

theorem gives_fenceFlagBody (d : Opd) (a : MemOpd) (s : State) (g : Group) : Gives s (fenceFlagBody d a s g) := by
  unfold fenceFlagBody
  dsimp only
  refine .ite (.error s _) ?_
  split
  · exact .error s _
  · exact .ok ((Keeps.refl s).storeAt _ _ _)

theorem gives_prefBody (h : Hdr) (a : MemOpd) (s : State) (g : Group) : Gives s (prefBody h a s g) :=
  .bind fun _ _ => .ok (.refl s)

@[simp] theorem Keeps.setBarrier {s t : State} (h : Keeps s t) (loc : Nat) (b : Barrier) : Keeps s (t.setBarrier loc b) :=
  h.write _ _

@[simp] theorem Keeps.withPhases {s t : State} (h : Keeps s t) (l : List (Nat × Nat)) : Keeps s { t with phases := l } :=
  ⟨h.form, h.numbers⟩

@[simp] theorem Keeps.arriveAt {s t : State} (h : Keeps s t) (loc n : Nat) : Keeps s (t.arriveAt loc n) :=
  .ite ((h.setBarrier _ _).withPhases _) (h.setBarrier _ _)

theorem gives_barinitBody (d : Opd) (a : MemOpd) (s : State) (g : Group) : Gives s (barinitBody d a s g) :=
  .bind fun _ _ => .ok ((Keeps.refl s).setBarrier _ _)

theorem gives_arriveBody (d : Opd) (a : MemOpd) (b : Opd) (s : State) (g : Group) : Gives s (arriveBody d a b s g) :=
  .bind fun _ _ => .ok ((Keeps.refl s).arriveAt _ _)

theorem gives_waitbBody (d : Opd) (a : MemOpd) (s : State) (g : Group) : Gives s (waitbBody d a s g) := by
  unfold waitbBody
  split
  · exact .ite (.ok (.refl s)) (.ok (.refl s))
  · refine .bind fun _ _ => .ite (.ok ?_) (.ok (.refl s))
    exact (Keeps.refl s).accessed g [barTouch (g.ea a 0)]

theorem Keeps.postLong {s t : State} (k : Keeps s t) (g : Group) (h : Hdr) (l : LongOut) : Keeps s (t.postLong g h l).1 := by
  unfold State.postLong
  dsimp only
  split
  · exact k
  · exact k.withNextId (Nat.le_succ _)

theorem Keeps.cmdLanes {s t : State} (h : Keeps s t) (g : Group) (d : Opd) (a : MemOpd) (l : List Nat) :
    Keeps s (t.cmdLanes g d a l).1 := by
  induction l generalizing t with
  | nil => exact h
  | cons i l ih =>
    unfold State.cmdLanes
    dsimp only
    split
    · exact h
    · split
      · exact h
      · exact ih ((h.writeNat _ _ _).write _ _)

theorem gives_cmdwBody (h : Hdr) (d : Opd) (a : MemOpd) (b : Opd) (s : State) (g : Group) : Gives s (cmdwBody h d a b s g) := by
  unfold cmdwBody
  refine .bind fun _ _ => ?_
  dsimp only
  have h1 := (Keeps.refl s).cmdLanes g d a ((g.doneLanes h [d, a.base, b]).filter (fun i => !g.prog.getLsbD i))
  revert h1
  generalize s.cmdLanes g d a ((g.doneLanes h [d, a.base, b]).filter (fun i => !g.prog.getLsbD i)) = r
  obtain ⟨s1, l, ts, e⟩ := r
  intro h1
  dsimp only at h1 ⊢
  split
  · exact .ok h1
  · split
    · exact .ok ((h1.accessed _ _).postLong _ _ _)
    · exact .ok (((h1.accessed _ _).postLong _ _ _).take _ _)

theorem gives_bcloseBody (d : Opd) (s : State) (g : Group) : Gives s (bcloseBody d s g) :=
  .ok ((Keeps.refl s).withCmds (sublist_of_eq (map_if_keep _ _
    (fun c : Cmd => { c with batch := some (g.batch + 1) }) (fun _ => rfl) _)))

theorem gives_bwaitBody (d : Opd) (s : State) (g : Group) : Gives s (bwaitBody d s g) :=
  .ite (.ok (.refl s)) (.ok (.refl s))

end Sys2Proof.Machine
end


section
/-! # O57, O58: system instructions, the copy engine, the matrix array -/

namespace Sys2Proof.Machine

/-! ## System instructions -/

@[simp] theorem Keeps.eretTo {s t : State} (h : Keeps s t) (g : Group) (sh : Shadow) (form : EretForm) :
    Keeps s (t.eretTo g sh form) := by
  unfold State.eretTo
  cases form with
  | plain => exact h.setGroup _
  | skip => exact h.setGroup _
  | fwd =>
    cases sh.mode with
    | user => exact h.enterHandler _ _ _
    | handler => exact h.halt _ _ _
    | supervisor => exact h.halt _ _ _

theorem gives_eretGo (h : Hdr) (form : EretForm) (s : State) (g : Group) (sh : Shadow) : Gives s (eretBody.go h form s g sh) := by
  unfold eretBody.go
  refine .ite (.ok (.refl s)) ?_
  split
  · exact .ok ((Keeps.refl s).take _ _)
  · exact .ok (((Keeps.refl s).countIssue _).eretTo _ _ _)

theorem gives_eretBody (h : Hdr) (form : EretForm) (s : State) (g : Group) : Gives s (eretBody h form s g) := by
  unfold eretBody
  refine .ite (.error s _) ?_
  split
  · exact .error s _
  · split
    · exact .ite (gives_eretGo _ _ _ _ _) (.error s _)
    · exact gives_eretGo _ _ _ _ _

theorem gives_mfsrBody (r : Opd) (num : BitVec 16) (s : State) (g : Group) : Gives s (mfsrBody r num s g) :=
  .ite (.error s _) (.bind fun _ _ => .ok (.ite ((Keeps.refl s).withFreeCtr _) (.refl s)))

theorem gives_mtsrBody (r : Opd) (num : BitVec 16) (s : State) (g : Group) : Gives s (mtsrBody r num s g) := by
  unfold mtsrBody
  refine .ite (.error s _) ?_
  dsimp only
  split
  · exact .ok ((Keeps.refl s).modCore _ _)
  · exact .ok (.refl s)
  · exact .ok (.refl s)
  · exact .ok (.refl s)
  · exact .error s _

theorem gives_tlbinvBody (h : Hdr) (scope : TlbScope) (r : Opd) (s : State) (g : Group) : Gives s (tlbinvBody h scope r s g) :=
  .ite (.error s _) (.ok (.refl s))

theorem gives_waitevBody (r : Opd) (mask : BitVec 16) (s : State) (g : Group) : Gives s (waitevBody r mask s g) :=
  .ite (.ok (.refl s)) (.ok (.refl s))

/-! ## The copy engine -/

@[simp] theorem Keeps.publish {s t : State} (h : Keeps s t) (g : Group) (spord : Word32) (c : Cmd) :
    Keeps s (t.publish g spord c) := by
  unfold State.publish
  exact ((h.foldl (fun u _ => (Keeps.refl u).setEmpty _) _).nextSeq g).addCmd rfl

theorem gives_notifyBody (h : Hdr) (d : Opd) (a : MemOpd) (s : State) (g : Group) : Gives s (notifyBody h d a s g) := by
  unfold notifyBody
  dsimp only
  split
  · exact .error s _
  · refine .ite (.ok (.refl s)) (.ite (.error s _) ?_)
    split
    · exact .ok (.refl s)
    · exact .bind fun cs _ => .ok (((Keeps.refl s).foldl (fun u c => (Keeps.refl u).publish _ _ _) cs).writeNat _ _ _)

@[simp] theorem Keeps.writeUnit {s t : State} (h : Keeps s t) (c : Cmd) (u : Nat) (bs : List Byte) (ps : List Nat) :
    Keeps s (t.writeUnit c u bs ps) := by
  unfold State.writeUnit
  split
  · exact h
  · exact .ite ((h.reachWrite _ _ _).reachMark _ _ _) ((h.reachWrite _ _ _).reachMark _ _ _)

@[simp] theorem Keeps.loadUnit {s t : State} (h : Keeps s t) (c : Cmd) (bs : List Byte) (ps : List Nat) :
    Keeps s (t.loadUnit c bs ps) := by
  unfold State.loadUnit
  split
  · dsimp only
    refine Keeps.withCmds (h.modTeam _ (by intro _; rfl) (by intro _; rfl)) (sublist_of_eq (map_map_keep _ _ (fun d => ?_) _))
    split <;> rfl
  · exact h.modTeam _ (by intro _; rfl) (by intro _; rfl)
  · exact h

@[simp] theorem Keeps.putArrival {s t : State} (h : Keeps s t) (loc : Nat) (b : Barrier) (n : Nat) :
    Keeps s (t.putArrival loc b n) :=
  .ite ((h.write _ _).withPhases _) (h.write _ _)

@[simp] theorem Keeps.cmdArrive {s t : State} (h : Keeps s t) (c : Cmd) (fate : Fate) : Keeps s (t.cmdArrive c fate) :=
  .ite (h.putArrival _ _ _) h

@[simp] theorem Keeps.land {s t : State} (h : Keeps s t) (c : Cmd) (u : Nat) : Keeps s (t.land c u) := by
  unfold State.land
  dsimp only
  have h1 := Keeps.ite (c := c.overtaken u = true) h
    ((h.writeUnit c u (t.unitBytes c u).1 (t.unitBytes c u).2.1).loadUnit c (t.unitBytes c u).1 (t.unitBytes c u).2.1)
  have h3 := (h1.clearTiles c.reach c.recBits (c.tilesOf u)).foldl (f := fun s l => s.setFull l)
    (fun u _ => (Keeps.refl u).setFull _) (c.fullLines u)
  have h4 := Keeps.ite (c := c.rowArrives u = true) (h3.cmdArrive c (c.fate u)) h3
  have h6 := (h4.modCmd c.id (f := fun c' => { c' with
    landed := c'.landed ++ [u], poison := c'.poison || !(t.unitBytes c u).2.1.isEmpty,
    decodeFail := c'.decodeFail || (t.unitBytes c u).2.2 }) (by intro _; rfl)).watchEngine c.fork
    ((if c.overtaken u then [] else (c.dstOf u).toList) ++ c.mapOf u ++ (if c.rowArrives u then c.arrival else []))
  exact .ite (h6.withFreeCtr _) h6

@[simp] theorem Keeps.logDecode {s t : State} (h : Keeps s t) (c : Cmd) : Keeps s (t.logDecode c) := by
  unfold State.logDecode
  exact h.log _

@[simp] theorem Keeps.completeCmd {s t : State} (h : Keeps s t) (c : Cmd) : Keeps s (t.completeCmd c) := by
  unfold State.completeCmd
  dsimp only
  have h1 := h.write (scrLoc c.core c.recOff) (c.record t.time)
  have h2 := (Keeps.ite (c := c.byRows = true) h1 (h1.cmdArrive c .moved)).watchEngine c.fork
    ((localAddr c.recOff, 32) :: (if c.byRows then [] else c.arrival))
  have h3 := h2.withCmds (map_filter_sublist (fun x : Cmd => x.id) (fun d => d.id != c.id) _)
  exact .ite (h3.logDecode c) h3

@[simp] theorem Keeps.logStall {s t : State} (h : Keeps s t) (g : Group) (kind : Nat) (addr : Word64) :
    Keeps s (t.logStall g kind addr) := by
  unfold State.logStall
  exact h.log _

theorem runs_copyCommandStart (cmd : Nat) (s : State) : Runs s (execCopyCommandStart cmd s) := by
  unfold execCopyCommandStart
  split
  · exact .next (.ite ((Keeps.refl s).modCmd _ (by intro _; rfl)) (.refl s))
  · exact .next (.refl s)

theorem runs_copyUnitLand (cmd unit : Nat) (s : State) : Runs s (execCopyUnitLand cmd unit s) := by
  unfold execCopyUnitLand
  split
  · exact .next (.ite ((Keeps.refl s).land _ _) (.refl s))
  · exact .next (.refl s)

theorem runs_copyCommandComplete (cmd : Nat) (s : State) : Runs s (execCopyCommandComplete cmd s) := by
  unfold execCopyCommandComplete
  split
  · exact .next (.ite ((Keeps.refl s).completeCmd _) (.refl s))
  · exact .next (.refl s)

theorem runs_ringstall (gid : Nat) (s : State) : Runs s (execRingstall gid s) := by
  unfold execRingstall
  split
  · exact .next (.refl s)
  · split
    · exact .ite (.next (((Keeps.refl s).setGroup _).logStall _ _ _)) (.next (.refl s))
    · exact .next (.refl s)

/-! ## Gangs -/

@[simp] theorem Keeps.finishHeld {s t : State} (h : Keeps s t) (g : Group) (sw : Bool) : Keeps s (t.finishHeld g sw) :=
  h.finish _ _ _ _ _ _ _

theorem gives_gangBody (h : Hdr) (a : Opd) (s : State) (g : Group) : Gives s (gangBody h a s g) := by
  unfold gangBody
  dsimp only
  refine .ite (.error s _) (.ite ?_ (.ite (.error s _) (.ok (.ite ((Keeps.refl s).modCore _ _) (.refl s)))))
  split
  · exact .ite (.ok ((Keeps.refl s).modGang _ (by intro _; rfl))) (.error s _)
  · exact .error s _

@[simp] theorem Keeps.formGang {s t : State} (h : Keeps s t) (team : Nat) (w : Word64) : Keeps s (t.formGang team w) := by
  unfold State.formGang
  dsimp only
  refine Keeps.foldl (h.addGang rfl) (fun u x => ?_) _
  exact (Keeps.refl u).finishHeld _ _

@[simp] theorem Keeps.grantTiles {s t : State} (h : Keeps s t) (core : Nat) : Keeps s (t.grantTiles core) := by
  unfold State.grantTiles
  split
  · exact h
  · refine .ite ?_ h
    dsimp only
    split
    · split
      · exact .ite h ((h.modCore _ _).formGang _ _)
      · exact h.modCore _ _
    · exact h.modCore _ _

@[simp] theorem Keeps.leaveGang {s t : State} (h : Keeps s t) (gid : Nat) : Keeps s (t.leaveGang gid) := by
  unfold State.leaveGang
  split
  · exact h
  · dsimp only
    split
    · exact h.finishHeld _ _
    · exact (h.countIssue _).exitGroup _
    · exact h.setGroup _

theorem runs_gangForm (gid : Nat) (s : State) : Runs s (execGangForm gid s) := by
  unfold execGangForm
  split
  · split
    · exact .next ((Keeps.refl s).grantTiles _)
    · exact .next (.refl s)
  · exact .next (.refl s)

theorem runs_gangDissolve (gang : Nat) (s : State) : Runs s (execGangDissolve gang s) := by
  unfold execGangDissolve
  split
  · next k _ =>
    dsimp only
    refine .ite (.next (Keeps.foldl ?_ (fun u i => (Keeps.refl u).leaveGang i) _)) (.next (.refl s))
    have h1 := (Keeps.refl s).withGangs (map_filter_sublist (fun x : Gang => x.id) (fun g => g.id != gang) s.gangs)
    split
    · exact h1.idleGrow _
    · exact h1
  · exact .next (.refl s)

/-! ## `MMA` -/

theorem Gang.foldl_id {α : Type} {f : Gang → α → Gang} (l : List α) (k : Gang)
    (hf : ∀ k x, (f k x).id = k.id) : (l.foldl f k).id = k.id := by
  induction l generalizing k with
  | nil => rfl
  | cons x l ih => exact (ih _).trans (hf k x)

theorem Gang.putRows_id (k : Gang) (p : MmaPart) (ty : FTy) (za : Bool) (rows : List (List (Nat × FFlags))) :
    (k.putRows p ty za rows).id = k.id :=
  Gang.foldl_id _ k (by intro _ _; rfl)

@[simp] theorem Keeps.useSubs {s t : State} (h : Keeps s t) (k : Gang) : Keeps s (t.useSubs k) := by
  unfold State.useSubs
  split
  · exact h
  · exact h.modCore _ _

@[simp] theorem Keeps.wakeSubs {s t : State} (h : Keeps s t) (k : Gang) (core : Nat) : Keeps s (t.wakeSubs k core) :=
  (h.modCore _ _).addEvent _ _ _

@[simp] theorem Keeps.completeMma {s t : State} (h : Keeps s t) (k : Gang) (tm : Team) (l : Latch) :
    Keeps s (t.completeMma k tm l) := by
  unfold State.completeMma
  dsimp only
  split
  · refine (h.useSubs k).modGang _ (fun x => ?_)
    change Gang.id (List.foldl _ x _) = x.id
    exact Gang.foldl_id _ x (fun y p => Gang.foldl_id _ y (by intro _ _; rfl))
  · refine Keeps.foldl ?_ (fun u i => ?_) _
    · refine (h.useSubs k).modGang _ (fun x => ?_)
      change Gang.id (List.foldl _ x _) = x.id
      exact Gang.foldl_id _ x (fun y p => Gang.putRows_id _ _ _ _ _)
    · split
      · exact (Keeps.refl u).setGroup _
      · exact .refl u

theorem Keeps.releaseLatch {s t : State} (h : Keeps s t) (g : Group) (k : Gang) (tm : Team) (l : Latch) :
    Keeps s (t.releaseLatch g k tm l).1 :=
  (h.addEvent _ _ _).wakeSubs _ _

theorem Keeps.joinLatch {s t u : State} (h : Keeps s t) {g : Group} {k : Gang} {tm : Team} {ref : MmaRef} {p : MmaPart}
    (hu : t.joinLatch g k tm ref p = .ok u) : Keeps s u := by
  unfold State.joinLatch at hu
  dsimp only at hu
  split at hu
  · split at hu
    · split at hu
      · cases hu
        exact .ite ((h.releaseLatch _ _ _ _).modGang _ (by intro _; rfl)) (h.modGang _ (by intro _; rfl))
      · cases hu
    · cases hu
      exact h
  · cases hu
    have h1 : Keeps s { t with nextId := t.nextId + 1 } := h.withNextId (Nat.le_succ _)
    exact .ite ((h1.releaseLatch _ _ _ _).modGang _ (by intro _; rfl)) (h1.modGang _ (by intro _; rfl))

theorem gives_mmaBody (ty : FTy) (kc : BitVec 3) (za : Bool) (rm : Rm) (d a b : Opd) (ids : Option MmaIds) (s : State)
    (g : Group) : Gives s (mmaBody ty kc za rm d a b ids s g) := by
  unfold mmaBody
  split
  · refine .ite (.error s _) (.ite (.ok (.refl s)) (.ite (.error s _) (.ite (.error s _) ?_)))
    exact .bind fun _ _ => .bind fun _ _ => .bind fun u hu => .ok ((Keeps.refl s).joinLatch hu)
  · exact .error s _

theorem runs_mmaStart (gang : Nat) (s : State) : Runs s (execMmaStart gang s) := by
  unfold execMmaStart
  split
  · exact .next (.refl s)
  · split
    · exact .next (.refl s)
    · split
      · exact .ite (.next (((Keeps.refl s).modGang _ (by intro _; rfl)).addEvent _ _ _)) (.next (.refl s))
      · exact .next (.refl s)

theorem runs_mmaComplete (gang : Nat) (s : State) : Runs s (execMmaComplete gang s) := by
  unfold execMmaComplete
  split
  · exact .next (.refl s)
  · split
    · exact .next ((Keeps.refl s).completeMma _ _ _)
    · exact .next (.refl s)

theorem runs_subarrayPowerGate (core sub : Nat) (s : State) : Runs s (execSubarrayPowerGate core sub s) :=
  .ite (.next ((Keeps.refl s).modCore _ _)) (.next (.refl s))

/-! ## Accumulator tiles and tensors -/

theorem gives_accTile {s : State} {g : Group} {ty : FTy} {a : Opd} {held : List (Opd × Nat)}
    {act : Gang → Nat → Nat → Except Trap Done} (ha : ∀ k m t, Gives s (act k m t)) : Gives s (s.accTile g ty a held act) := by
  unfold State.accTile
  split
  · exact .error s _
  · exact .ite (.error s _) (.bind fun _ _ => .ite (.ok (.refl s)) (ha _ _ _))

theorem gives_acczBody (ty : FTy) (a : Opd) (s : State) (g : Group) : Gives s (acczBody ty a s g) :=
  gives_accTile fun _ _ _ => .ok ((Keeps.refl s).modGang _ (fun k => Gang.foldl_id _ k (by intro _ _; rfl)))

theorem gives_accrdBody (h : Hdr) (ty : FTy) (d a : Opd) (s : State) (g : Group) : Gives s (accrdBody h ty d a s g) :=
  gives_accTile fun _ _ _ => .ite (.error s _) (.ok (.refl s))

theorem gives_accwrBody (h : Hdr) (ty : FTy) (a b : Opd) (s : State) (g : Group) : Gives s (accwrBody h ty a b s g) :=
  gives_accTile fun _ _ _ => .ok ((Keeps.refl s).modGang _ (fun k => Gang.foldl_id _ k (by intro _ _; rfl)))

@[simp] theorem Keeps.putElem {s t : State} (h : Keeps s t) (k : Reach) (r : TBits) (x : Store) : Keeps s (t.putElem k r x) :=
  .ite (h.reachWrite _ _ _) (h.reachWrite _ _ _)

@[simp] theorem Keeps.putStores {s t : State} (k : Keeps s t) (g : Group) (h : Hdr) (r : TBits) (ps : List Page) (l : List Store) :
    Keeps s (t.putStores g h r ps l) :=
  ((k.foldl (fun u _ => (Keeps.refl u).putElem _ _ _) l).clearTiles _ _ _).watchEngine _ _

theorem gives_accrdStBody (h : Hdr) (ty : FTy) (rm : Rm) (d a c : Opd) (tid : BitVec 6) (s : State) (g : Group) :
    Gives s (accrdStBody h ty rm d a c tid s g) := by
  refine gives_accTile fun k m t => ?_
  split
  · exact .error s _
  · exact .bind fun r _ => .ite (.error s _) (.ite (.error s _) (.bind fun ps _ => .ok ((Keeps.refl s).putStores _ _ _ _ _)))

theorem gives_bdotBody (h : Hdr) (ty : FTy) (rm : Rm) (d a b c e : Opd) (tida tidb : BitVec 6) (s : State) (g : Group) :
    Gives s (bdotBody h ty rm d a b c e tida tidb s g) := by
  unfold bdotBody
  refine .bind fun _ _ => ?_
  split
  · exact .bind fun _ _ => .bind fun _ _ => .ite (.error s _) (gives_valueBody _ _ _ _ _ _ _ s g)
  · exact .error s _

theorem gives_tidsetBody (a : Opd) (tid : BitVec 6) (s : State) (g : Group) : Gives s (tidsetBody a tid s g) := by
  unfold tidsetBody
  split
  · exact .error s _
  · refine .ite (.error s _) (.ite (.ok (.refl s)) (.ite (.error s _) (.bind fun r _ => .ite (.error s _) ?_)))
    exact .ok ((Keeps.refl s).modTeam _ (by intro _; rfl) (by intro _; rfl))

theorem gives_tidgetBody (w : BitVec 3) (d : Opd) (tid : BitVec 6) (s : State) (g : Group) : Gives s (tidgetBody w d tid s g) := by
  unfold tidgetBody
  split
  · exact .error s _
  · exact .bind fun _ _ => .ok (.refl s)

theorem gives_hadqBody (h : Hdr) (rm : Rm) (d a c e : Opd) (tid : BitVec 6) (s : State) (g : Group) :
    Gives s (hadqBody h rm d a c e tid s g) := by
  unfold hadqBody
  split
  · exact .error s _
  · refine .bind fun _ _ => .bind fun r _ => .ite (.error s _) (.bind fun ps0 _ => ?_)
    split
    · exact .error s _
    · refine .bind fun ps _ => .ok (Keeps.watchEngine (Keeps.foldl ((Keeps.refl s).putStores _ _ _ _ _) (fun u w => ?_) _) _ _)
      exact ((Keeps.refl u).reachWrite _ _ _).clearTiles _ _ _

theorem Keeps.mapTile {s t : State} (h : Keeps s t) (k : Reach) (r : TBits) (n : Nat) : Keeps s (t.mapTile k r n).1 :=
  h.reachWrite _ _ _

theorem gives_zmapBody (h : Hdr) (d : Opd) (tid : BitVec 6) (s : State) (g : Group) : Gives s (zmapBody h d tid s g) := by
  unfold zmapBody
  split
  · exact .error s _
  · refine .bind fun r _ => .ite (.error s _) (.bind fun ps0 _ => .bind fun ps _ => ?_)
    dsimp only
    split
    · exact .error s _
    · refine .ok (Keeps.watchEngine (Keeps.foldlFst (fun p n => ?_) (.refl s) _) _ _)
      exact (Keeps.refl p.1).mapTile _ _ _

end Sys2Proof.Machine
end


section
/-! # O57, O58: key tables and streams -/

namespace Sys2Proof.Machine

/-! ## The view of a key-table unit -/

@[simp] theorem Keeps.setTable {s t : State} (h : Keeps s t) (team n : Nat) (k : Option KTable) : Keeps s (t.setTable team n k) :=
  h.modTeam _ (by intro _; rfl) (by intro _; rfl)

@[simp] theorem Keeps.queueKey {s t : State} (h : Keeps s t) (g : Group) (result : Bool) : Keeps s (t.queueKey g result) :=
  h.modCore _ _

@[simp] theorem Keeps.bump {s : State} {c : KView} (h : Keeps s c.s) (b : Nat) (occ : Nat → Nat) (ovf : Bool) :
    Keeps s (c.bump b occ ovf).s := by
  unfold KView.bump
  exact h.writeNat _ _ _

@[simp] theorem Keeps.put {s : State} {c : KView} (h : Keeps s c.s) (p : KPlace) (e : BitVec 128) : Keeps s (c.put p e).s := by
  unfold KView.put
  have h1 : Keeps s ({ c with s := c.s.writeNat (c.at_ p) 16 e.toNat } : KView).s := h.writeNat _ _ _
  cases p with
  | slot b n => exact h1.bump _ _ _
  | record r => exact h1

/-- A step that may fault is taken apart: of `x >>= f = .ok r`, what x gave. -/
theorem bind_ok {α β : Type} {x : Except Trap α} {f : α → Except Trap β} {r : β} (h : x >>= f = .ok r) :
    ∃ a, x = .ok a ∧ f a = .ok r := by
  cases x with
  | error e => cases h
  | ok a => exact ⟨a, rfl, h⟩

theorem Keeps.place {s : State} {c : KView} (h : Keeps s c.s) {key : Word32} {v : Word64} {r : Except Nat KPlace × KView}
    (hr : c.place key v = .ok r) : Keeps s r.2.s := by
  unfold KView.place at hr
  dsimp only at hr
  split at hr
  · cases hr
    exact h
  · obtain ⟨found, -, hr⟩ := bind_ok hr
    cases found with
    | some p =>
      cases hr
      exact h.put _ _
    | none =>
      obtain ⟨spare, -, hr⟩ := bind_ok hr
      split at hr
      · cases hr
        exact h
      · cases hr
        dsimp only
        split
        · exact h.put _ _
        · exact (h.put _ _).bump _ _ _

theorem Keeps.delete {s : State} {c c' : KView} (h : Keeps s c.s) {p : KPlace} (hr : c.delete p = .ok c') : Keeps s c'.s := by
  obtain ⟨e, -, hr⟩ := bind_ok hr
  cases hr
  exact h.put _ _

theorem Keeps.deleteAll {s : State} {c c' : KView} (h : Keeps s c.s) {l : List KPlace} (hr : c.deleteAll l = .ok c') :
    Keeps s c'.s := by
  induction l generalizing c with
  | nil =>
    cases hr
    exact h
  | cons p l ih =>
    obtain ⟨c1, hc, hr⟩ := bind_ok hr
    exact ih (h.delete hc) hr

/-! ## The acts on one key -/

/-- An act on a key group keeps the form and the numbers. -/
def KAct.Ok (act : KAct) : Prop :=
  ∀ s c key lanes r, Keeps s c.s → act c key lanes = .ok r → Keeps s r.1.s

theorem probeAct_ok : KAct.Ok probeAct := by
  intro s c key lanes r h hr
  obtain ⟨found, -, hr⟩ := bind_ok hr
  cases found with
  | some p =>
    obtain ⟨e, -, hr⟩ := bind_ok hr
    cases hr
    exact h
  | none =>
    cases hr
    exact h

theorem insertAct_ok (val : Nat → Word64) : KAct.Ok (insertAct val) := by
  intro s c key lanes r h hr
  obtain ⟨found, -, hr⟩ := bind_ok hr
  cases found with
  | some p =>
    cases hr
    exact h
  | none =>
    obtain ⟨⟨x, c1⟩, hp, hr⟩ := bind_ok hr
    have h1 : Keeps s c1.s := h.place hp
    cases x <;> cases hr <;> exact h1

theorem deleteAct_ok : KAct.Ok deleteAct := by
  intro s c key lanes r h hr
  obtain ⟨found, -, hr⟩ := bind_ok hr
  cases found with
  | some p =>
    obtain ⟨c1, hd, hr⟩ := bind_ok hr
    cases hr
    exact h.delete hd
  | none =>
    cases hr
    exact h

theorem accAct_ok (op : KOp) (ty : ITy) (val : Nat → Code) : KAct.Ok (accAct op ty val) := by
  intro s c key lanes r h hr
  obtain ⟨found, -, hr⟩ := bind_ok hr
  cases found with
  | some p =>
    obtain ⟨e, -, hr⟩ := bind_ok hr
    cases hr
    exact h.put _ _
  | none =>
    obtain ⟨⟨x, c1⟩, hp, hr⟩ := bind_ok hr
    have h1 : Keeps s c1.s := h.place hp
    cases x <;> cases hr <;> exact h1

theorem Keeps.acts {act : KAct} (ha : act.Ok) {s : State} {c : KView} (h : Keeps s c.s) {l : List (Word32 × List Nat)}
    {r : KView × KOut} (hr : KView.acts act l c = .ok r) : Keeps s r.1.s := by
  induction l generalizing c r with
  | nil =>
    cases hr
    exact h
  | cons x l ih =>
    obtain ⟨key, lanes⟩ := x
    unfold KView.acts at hr
    match h1 : act c key lanes with
    | .error e =>
      rw [h1] at hr
      cases hr
    | .ok (c1, o) =>
      rw [h1] at hr
      dsimp only at hr
      match h2 : KView.acts act l c1 with
      | .error e =>
        rw [h2] at hr
        cases hr
      | .ok q =>
        rw [h2] at hr
        cases hr
        exact ih (c := c1) (r := q) (ha s c key lanes (c1, o) h h1) h2

/-! ## Instructions of key tables -/

theorem gives_tableBody {e : Opd} {held : List (Opd × Nat)} {act : Team → Nat → KView → Except Trap Done} {s : State} {g : Group}
    (ha : ∀ t n core k, Gives s (act t n ⟨s, core, k⟩)) : Gives s (tableBody e held act s g) := by
  unfold tableBody
  refine .bind fun _ _ => ?_
  split
  · exact .error s _
  · exact .bind fun _ _ => ha _ _ _ _

theorem KView.done_s (c : KView) (t : Team) (n : Nat) (g : Group) (w : List RegWrite) :
    (c.done t n g w).s = (c.s.setTable t.id n (some c.k)).queueKey g true :=
  rfl

@[simp] theorem Keeps.done {s : State} {c : KView} (h : Keeps s c.s) (t : Team) (n : Nat) (g : Group) (w : List RegWrite) :
    Keeps s (c.done t n g w).s :=
  (h.setTable _ _ _).queueKey _ _

theorem gives_kclaimBody (logb : Nat) (d a b c : Opd) (s : State) (g : Group) : Gives s (kclaimBody logb d a b c s g) := by
  unfold kclaimBody
  split
  · exact .error s _
  · split
    · exact .error s _
    · refine .ite (.error s _) (.bind fun _ _ => .ok ?_)
      exact ((((Keeps.refl s).write _ _).foldl (fun u _ => (Keeps.refl u).setFull _) _).setTable _ _ _).queueKey _ _

theorem gives_kfreeBody (e : Opd) (s : State) (g : Group) : Gives s (kfreeBody e s g) :=
  gives_tableBody fun _ _ _ _ => .ok (((Keeps.refl s).setTable _ _ _).queueKey _ _)

theorem gives_kstatBody (d e : Opd) (s : State) (g : Group) : Gives s (kstatBody d e s g) :=
  gives_tableBody fun _ _ _ _ => .ok (Keeps.done (.refl s) _ _ _ _)

theorem gives_laneFormBody (h : Hdr) (d a e : Opd) (held : List (Opd × Nat)) (members : Group → Mask) (out : Option (Opd × Nat))
    {act : Group → KAct} (ha : ∀ g, (act g).Ok) (s : State) (g : Group) :
    Gives s (laneFormBody h d a e held members out act s g) :=
  gives_tableBody fun _ _ _ _ => .bind fun _ hr => .ok (Keeps.done (Keeps.acts (ha g) (.refl s) hr) _ _ _ _)

theorem gives_kdrnBody (h : Hdr) (ty : ITy) (key del rst : Bool) (d b cnt e : Opd) (s : State) (g : Group) :
    Gives s (kdrnBody h ty key del rst d b cnt e s g) := by
  refine gives_tableBody fun t n core k => ?_
  refine .bind fun all _ => ?_
  dsimp only
  refine .ite (.bind fun c1 hc => .ok ?_) (.ok (((Keeps.refl s).setTable _ _ _).queueKey _ _))
  exact ((Keeps.deleteAll (.refl s) hc).setTable _ _ _).queueKey _ _

@[simp] theorem Keeps.unitDone {s t : State} (h : Keeps s t) (op : UnitOp) : Keeps s (t.unitDone op) := by
  unfold State.unitDone
  split
  · exact h.setGroup _
  · exact h

theorem runs_keyOpComplete (core : Nat) (s : State) : Runs s (execKeyOpComplete core s) := by
  unfold execKeyOpComplete
  split
  · exact .next (((Keeps.refl s).modCore _ _).unitDone _)
  · exact .next (.refl s)

/-! ## Streams -/

@[simp] theorem Keeps.setStream {s t : State} (h : Keeps s t) (team n : Nat) (x : Stream) : Keeps s (t.setStream team n x) :=
  h.modTeam _ (by intro _; rfl) (by intro _; rfl)

@[simp] theorem Keeps.queueChord {s t : State} (h : Keeps s t) (g : Group) (result : Bool) : Keeps s (t.queueChord g result) :=
  h.modCore _ _

@[simp] theorem Keeps.putStream {s t : State} (k : Keeps s t) (g : Group) (h : Hdr) (tm : Team) (d : Opd) (old : Stream)
    (cls : BitVec 16) (f : Nat → BitVec 512) : Keeps s (t.putStream g h tm d old cls f) :=
  (k.setStream _ _ _).queueChord _ _

theorem gives_streamBody {ss : List Opd} {held : List (Opd × Nat)} {act : Team → List Stream → Except Trap Done} {s : State}
    {g : Group} (ha : ∀ t xs, Gives s (act t xs)) : Gives s (streamBody ss held act s g) := by
  unfold streamBody
  refine .ite (.ok (.refl s)) ?_
  split
  · exact .error s _
  · exact .bind fun _ _ => .bind fun _ _ => ha _ _

theorem gives_sgenBody (h : Hdr) (cls : BitVec 4) (d a b : Opd) (s : State) (g : Group) : Gives s (sgenBody h cls d a b s g) :=
  gives_streamBody fun _ _ => .ok ((Keeps.refl s).putStream _ _ _ _ _ _ _)

theorem gives_sregenBody (h : Hdr) (cls : BitVec 4) (d a b : Opd) (s : State) (g : Group) :
    Gives s (sregenBody h cls d a b s g) :=
  gives_streamBody fun _ _ => .bind fun _ _ => .ok ((Keeps.refl s).putStream _ _ _ _ _ _ _)

theorem gives_combine2 (h : Hdr) (d a b : Opd) (ok : BitVec 16 → BitVec 16 → Bool) (cls : BitVec 16 → BitVec 16 → BitVec 16)
    (f : BitVec 512 → BitVec 512 → BitVec 512) (s : State) (g : Group) : Gives s (combine2 h d a b ok cls f s g) :=
  gives_streamBody fun _ _ => .ite (.error s _) (.bind fun _ _ => .ok ((Keeps.refl s).putStream _ _ _ _ _ _ _))

theorem gives_snotBody (h : Hdr) (d a : Opd) (s : State) (g : Group) : Gives s (snotBody h d a s g) :=
  gives_streamBody fun _ _ => .bind fun _ _ => .ok ((Keeps.refl s).putStream _ _ _ _ _ _ _)

theorem gives_sselBody (h : Hdr) (d a b c : Opd) (s : State) (g : Group) : Gives s (sselBody h d a b c s g) :=
  gives_streamBody fun _ _ => .ite (.error s _) (.bind fun _ _ => .ok ((Keeps.refl s).putStream _ _ _ _ _ _ _))

theorem gives_scntBody (h : Hdr) (f : Bool) (d a : Opd) (s : State) (g : Group) : Gives s (scntBody h f d a s g) :=
  gives_streamBody fun _ _ => .bind fun _ _ => .ok ((Keeps.refl s).queueChord _ _)

theorem gives_sbitBody (h : Hdr) (d a b : Opd) (s : State) (g : Group) : Gives s (sbitBody h d a b s g) := by
  unfold sbitBody
  refine .ite (gives_streamBody fun _ _ => .bind fun _ _ => .ok ?_) ?_
  · exact ((Keeps.refl s).queueChord g true).withNextId (Nat.le_succ _)
  · split
    · exact .ite (.ok (.refl s)) (.ok (.refl s))
    · exact .ok (.refl s)

theorem gives_sclsBody (d a : Opd) (s : State) (g : Group) : Gives s (sclsBody d a s g) :=
  gives_streamBody fun _ _ => .bind fun _ _ => .ok ((Keeps.refl s).queueChord _ _)

theorem gives_slenBody (l : BitVec 2) (s : State) (g : Group) : Gives s (slenBody l s g) :=
  gives_streamBody fun _ _ => .ok ((Keeps.refl s).queueChord _ _)

theorem runs_chordOpComplete (core : Nat) (s : State) : Runs s (execChordOpComplete core s) := by
  unfold execChordOpComplete
  split
  · exact .next (((Keeps.refl s).modCore _ _).unitDone _)
  · exact .next (.refl s)

end Sys2Proof.Machine
end


section
/-! # O57, O58: exchanges -/

namespace Sys2Proof.Machine

/-! ## Collectives -/

theorem gives_tileBody (d a b : Opd) (s : State) (g : Group) : Gives s (tileBody d a b s g) := by
  unfold tileBody
  refine .ite (.error s _) ?_
  split
  · exact .ok (.refl s)
  · exact .ok (.refl s)

theorem gives_collBody (h : Hdr) (tile : Option (BitVec 2)) (d a b c e : Opd) (s : State) (g : Group) :
    Gives s (collBody h tile d a b c e s g) := by
  unfold collBody
  dsimp only
  refine .ite (.error s _) (.bind fun bits _ => .ite (.error s _) (.ite (.error s _) (.bind fun ps _ => ?_)))
  split
  · refine .ite (.ok ?_) (.error s _)
    refine (Keeps.refl s).withColls (sublist_of_eq ?_)
    exact map_if_keep _ _ (fun x : Coll => { x with members := x.members ++ [_] }) (fun _ => rfl) _
  · exact .ite (.ok (.refl s)) (.ok ((Keeps.refl s).addColl rfl))

@[simp] theorem Keeps.putCollElem {s t : State} (h : Keeps s t) (d : CollDesc) (m : CollMember) (j : Nat) (v : Code × Bool) :
    Keeps s (t.putCollElem d m j v) := by
  unfold State.putCollElem
  refine h.foldl (fun u k => ?_) _
  split
  · exact .ite (((Keeps.refl u).writeNat _ _ _).setPoison _) ((Keeps.refl u).writeNat _ _ _)
  · exact .refl u

@[simp] theorem Keeps.cleanRange {s t : State} (h : Keeps s t) (m : CollMember) (r : Range) : Keeps s (t.cleanRange m r) := by
  unfold State.cleanRange
  refine h.foldl (fun u p => ?_) _
  split
  · exact (Keeps.refl u).withMemory id id (rising_filter _)
  · exact .refl u

@[simp] theorem Keeps.collMove {s t : State} (h : Keeps s t) (c : Coll) (ms : List CollMember) : Keeps s (t.collMove c ms) := by
  unfold State.collMove
  dsimp only
  have h1 := h.foldl (fun u (x : CollMember × List (Code × Bool)) =>
    ((Keeps.refl u).foldl (fun u r => (Keeps.refl u).cleanRange x.1 r) (x.1.dstRanges c.desc)).foldl
      (fun u (y : (Code × Bool) × Nat) => (Keeps.refl u).putCollElem c.desc x.1 y.2 y.1) x.2.zipIdx)
    (ms.map (fun m => (m, (List.range c.desc.dstLen).map (t.collValue c.desc ms m.rank))))
  refine .ite (Keeps.withFreeCtr (.ite (h1.foldl (fun u m => (Keeps.refl u).watchEngine _ _) ms) h1) _) h

@[simp] theorem Keeps.retireColl {s t : State} (h : Keeps s t) (c : Coll) : Keeps s (t.retireColl c) :=
  h.withColls (map_filter_sublist _ _ _)

@[simp] theorem Keeps.arriveTeam {s t : State} (h : Keeps s t) (team : Option Nat) (off : Nat) : Keeps s (t.arriveTeam team off) := by
  unfold State.arriveTeam
  split
  · exact h
  · split
    · exact h.putArrival _ _ _
    · exact h.modTeam _ (by intro _; rfl) (by intro _; rfl)

@[simp] theorem Keeps.addOne {s t : State} (h : Keeps s t) (m : CollMember) (loc : Nat) : Keeps s (t.addOne m loc) :=
  .ite h ((h.writeNat _ _ _).watchEngine _ _)

theorem ScrImage.addOne_wf {im : ScrImage} (h : Memory.wf im.bytes = true) (o : Nat) : Memory.wf (im.addOne o).bytes = true := by
  unfold ScrImage.addOne
  split
  · exact h
  · exact Memory.write_wf h _ _

/-- The images of a list of teams, after one team's image has been changed. -/
theorem WfImages.mapImage {l : List Team} (h : WfImages l) {p : Team → Bool} {f : Team → ScrImage → ScrImage}
    (hf : ∀ t im, Memory.wf im.bytes = true → Memory.wf (f t im).bytes = true) :
    WfImages (l.map (fun t => if p t then { t with image := t.image.map (f t) } else t)) := by
  intro y hy im him
  obtain ⟨x, hx, rfl⟩ := List.mem_map.1 hy
  split at him
  · obtain ⟨old, hold, rfl⟩ := Option.map_eq_some_iff.1 him
    exact hf x old (h x hx old hold)
  · exact h x hx im him

theorem Keeps.modImage {s t : State} (h : Keeps s t) (k : Nat) {f : Team → ScrImage → ScrImage}
    (hf : ∀ t im, Memory.wf im.bytes = true → Memory.wf (f t im).bytes = true) :
    Keeps s (t.modTeam k (fun u => { u with image := u.image.map (f u) })) :=
  h.withTeams (sublist_of_eq (map_if_keep _ _ (fun u : Team => { u with image := u.image.map (f u) }) (fun _ => rfl) _))
    (fun hw => hw.mapImage hf)

@[simp] theorem Keeps.trigger {s t : State} (h : Keeps s t) (m : CollMember) : Keeps s (t.trigger m) := by
  unfold State.trigger
  refine .ite h ?_
  split
  · split
    · exact h.addOne _ _
    · exact h
  · split
    · exact h
    · split
      · exact h.addOne _ _
      · exact h.modImage _ (f := fun t im => im.addOne (m.trigOff - t.off)) (fun _ _ hi => ScrImage.addOne_wf hi _)

@[simp] theorem Keeps.watchArrival {s t : State} (h : Keeps s t) (c : Coll) (team : Option Nat) :
    Keeps s (t.watchArrival c team) := by
  unfold State.watchArrival
  split
  · exact .ite (h.watchEngine _ _) h
  · exact h

@[simp] theorem Keeps.completeColl {s t : State} (h : Keeps s t) (c : Coll) : Keeps s (t.completeColl c) := by
  unfold State.completeColl
  dsimp only
  have h1 := (((h.collMove c (if c.launch.isSome then t.attachedMembers c else c.members)).arriveTeam
    (if c.launch.isSome then t.scrOwner none c.desc.bar else (c.barTeam, c.barOff)).1
    (if c.launch.isSome then t.scrOwner none c.desc.bar else (c.barTeam, c.barOff)).2).watchArrival c
    (if c.launch.isSome then t.scrOwner none c.desc.bar else (c.barTeam, c.barOff)).1).foldl
    (fun u m => (Keeps.refl u).trigger m)
    (sortBy (fun m => m.rank) (if c.launch.isSome then t.attachedMembers c else c.members))
  split
  · exact h1.modLaunch _ (by intro _; rfl)
  · exact h1

@[simp] theorem Keeps.collStep {s t : State} (h : Keeps s t) (c : Coll) : Keeps s (t.collStep c) := by
  unfold State.collStep
  split
  · exact .ite (.ite (h.retireColl _) h) (.ite (h.completeColl _) h)
  · exact .ite ((h.completeColl _).retireColl _) h

theorem runs_collectiveComplete (inst : Nat) (s : State) : Runs s (execCollectiveComplete inst s) := by
  unfold execCollectiveComplete
  split
  · exact .next ((Keeps.refl s).collStep _)
  · exact .next (.refl s)

/-! ## Queues between partitions -/

@[simp] theorem Keeps.setIpq {s t : State} (h : Keeps s t) (q : Nat) (x : IpQueue) : Keeps s (t.setIpq q x) :=
  ⟨h.form, h.numbers⟩

@[simp] theorem Keeps.pushLanes {s t : State} (h : Keeps s t) (g : Group) (q : Nat) (wait : Bool) (a : Opd) (l : List Nat) :
    Keeps s (t.pushLanes g q wait a l).1 := by
  induction l generalizing t with
  | nil => exact h
  | cons i l ih =>
    unfold State.pushLanes
    dsimp only
    split
    · split
      · exact h
      · exact ih h
    · exact ih ((h.nextSeq g).setIpq _ _)

@[simp] theorem Keeps.popLanes {s t : State} (h : Keeps s t) (q : Nat) (wait : Bool) (l : List Nat) :
    Keeps s (t.popLanes q wait l).1 := by
  induction l generalizing t with
  | nil => exact h
  | cons i l ih =>
    unfold State.popLanes
    dsimp only
    split
    · split
      · exact h
      · exact ih h
    · split
      · exact h
      · exact ih (h.setIpq _ _)

theorem gives_qpushBody (h : Hdr) (wait : Bool) (d a e : Opd) (s : State) (g : Group) :
    Gives s (qpushBody h wait d a e s g) := by
  refine .bind fun _ _ => .ite (.error s _) ?_
  have h1 := (Keeps.refl s).pushLanes g (g.uni64 e).toNat wait a (g.todo h)
  revert h1
  generalize s.pushLanes g (g.uni64 e).toNat wait a (g.todo h) = r
  obtain ⟨s1, l, w⟩ := r
  intro h1
  exact .ite (.ok (h1.postLong _ _ _)) (.ok h1)

theorem gives_qpopBody (h : Hdr) (wait : Bool) (stamp : Option Opd) (d b e : Opd) (s : State) (g : Group) :
    Gives s (qpopBody h wait stamp d b e s g) := by
  refine .bind fun _ _ => .ite (.error s _) ?_
  have h1 := (Keeps.refl s).popLanes (g.uni64 e).toNat wait (g.todo h)
  revert h1
  generalize s.popLanes (g.uni64 e).toNat wait (g.todo h) = r
  obtain ⟨s1, l, w⟩ := r
  intro h1
  cases w with
  | done => exact .ok h1
  | waits => exact .ok (h1.postLong _ _ _)
  | poisoned lane => exact .ite (.error s _) (.ok ((h1.postLong _ _ _).take _ _))

/-! ## Expert dispatch -/

@[simp] theorem Keeps.sendLanes {s t : State} (h : Keeps s t) (g : Group) (grid : Nat) (fork : Fork) (a b : Opd) (l : List Nat) :
    Keeps s (t.sendLanes g grid fork a b l).1 := by
  induction l generalizing t with
  | nil => exact h
  | cons i l ih =>
    unfold State.sendLanes
    dsimp only
    split
    · exact h
    · exact ih (h.addToken rfl)

theorem gives_dsendBody (h : Hdr) (a b : Opd) (s : State) (g : Group) : Gives s (dsendBody h a b s g) := by
  unfold dsendBody
  refine .bind fun _ _ => ?_
  dsimp only
  split
  · exact .error s _
  · split
    · exact .ok ((Keeps.refl s).sendLanes _ _ _ _ _ _)
    · exact .ok ((Keeps.refl s).sendLanes _ _ _ _ _ _)

theorem gives_dcloseBody (d a : Opd) (s : State) (g : Group) : Gives s (dcloseBody d a s g) := by
  unfold dcloseBody
  dsimp only
  split
  · exact .error s _
  · exact .ite (.error s _) (.ite (.error s _) (.ok ((Keeps.refl s).writeNat _ _ _)))

@[simp] theorem Keeps.dropToken {s t : State} (h : Keeps s t) (k : Token) : Keeps s (t.dropToken k) :=
  (h.withTokens (map_filter_sublist _ _ _)).log _

@[simp] theorem Keeps.arriveToken {s t : State} (h : Keeps s t) (k : Token) : Keeps s (t.arriveToken k) := by
  unfold State.arriveToken
  split
  · exact h.dropToken _
  · refine .ite (h.dropToken _) ?_
    split
    · exact h
    · refine .ite (h.dropToken _) ?_
      refine (Keeps.writeNat (h.withTokens (sublist_of_eq ?_)) _ _ _).watchEngine _ _
      exact map_if_keep _ _ (fun x : Token => { x with seq := some _ }) (fun _ => rfl) _

@[simp] theorem Keeps.deliverToken {s t : State} (h : Keeps s t) (k : Token) (seq : Word32) : Keeps s (t.deliverToken k seq) := by
  unfold State.deliverToken
  split
  · exact h.withTokens (map_filter_sublist _ _ _)
  · split
    · exact h
    · exact .ite h ((((h.write _ _).writeNat _ _ _).withTokens (map_filter_sublist _ _ _)).watchEngine _ _)

theorem runs_dispatchTokenArrive (tok : Nat) (s : State) : Runs s (execDispatchTokenArrive tok s) := by
  unfold execDispatchTokenArrive
  split
  · exact .next (.ite ((Keeps.refl s).arriveToken _) (.refl s))
  · exact .next (.refl s)

theorem runs_dispatchTokenDeliver (tok : Nat) (s : State) : Runs s (execDispatchTokenDeliver tok s) := by
  unfold execDispatchTokenDeliver
  split
  · split
    · exact .next ((Keeps.refl s).deliverToken _ _)
    · exact .next (.refl s)
  · exact .next (.refl s)

theorem runs_dispstall (gid : Nat) (s : State) : Runs s (execDispstall gid s) := by
  unfold execDispstall
  split
  · exact .next (.refl s)
  · split
    · exact .ite (.next (((Keeps.refl s).setGroup _).logStall _ _ _)) (.next (.refl s))
    · exact .next (.refl s)

end Sys2Proof.Machine
end


section
/-! # O57, O58: the firmware, placement and swapping -/

namespace Sys2Proof.Machine

/-! ## Firmware -/

@[simp] theorem Keeps.forwardByte {s t : State} (h : Keeps s t) (g : Group) (sh : Shadow) (c : Cause) (lane : Nat) (va : Word64) :
    Keeps s (t.forwardByte g sh c lane va) := by
  unfold State.forwardByte
  exact h.eretTo _ _ _

@[simp] theorem Keeps.emulated {s t : State} (k : Keeps s t) (g r : Group) (sh : Shadow) (h : Hdr) (load : Bool) (ty : ITy)
    (d : Opd) (a : MemOpd) (got : List (Nat × Nat × Byte)) : Keeps s (t.emulated g r sh h load ty d a got) := by
  unfold State.emulated
  exact k.finish _ _ _ _ _ _ _

@[simp] theorem Keeps.byteStep {s t : State} (k : Keeps s t) (g : Group) (sh : Shadow) (h : Hdr) (load : Bool) (ty : ITy)
    (d : Opd) (a : MemOpd) (todo : List (Nat × Nat)) (got : List (Nat × Nat × Byte)) (wait : Option WaitLane) :
    Keeps s (t.byteStep g sh h load ty d a todo got wait) := by
  unfold State.byteStep
  dsimp only
  split
  · exact k.emulated _ _ _ _ _ _ _ _ _
  · split
    · split
      · exact (k.accessed _ _).setGroup _
      · exact k.setGroup _
      · exact .ite ((k.lookUpAll _ _).setGroup _) ((k.lookUpAll _ _).forwardByte _ _ _ _ _)
    · split
      · exact (k.lookUpAll _ _).forwardByte _ _ _ _ _
      · exact ((k.storeAt _ _ _).accessed _ _).setGroup _

@[simp] theorem Keeps.firmwareTurn {s t : State} (h : Keeps s t) (g : Group) : Keeps s (t.firmwareTurn g) := by
  unfold State.firmwareTurn
  split
  · exact (h.lookUpAll _ _).setGroup _
  · exact h.eretTo _ _ _
  · exact h.byteStep _ _ _ _ _ _ _ _ _ _
  · exact h

@[simp] theorem Keeps.settleFirmware {s t : State} (h : Keeps s t) (g : Group) : Keeps s (t.settleFirmware g) := by
  unfold State.settleFirmware
  split
  · exact .ite h (h.firmwareTurn _)
  · exact h

theorem Keeps.firmwareActs {s t u : State} (h : Keeps s t) (hu : t.firmwareActs = some u) : Keeps s u := by
  unfold State.firmwareActs at hu
  split at hu
  · split at hu
    · cases hu
    · split at hu
      · cases hu
        exact h.firmwareTurn _
      · cases hu
        exact h
  · cases hu

/-! ## Placement -/

@[simp] theorem Keeps.clearScr {s t : State} (h : Keeps s t) (core off size : Nat) : Keeps s (t.clearScr core off size) :=
  h.withMemory (fun hm => Memory.wf_filter _ hm) (rising_filter _) (rising_filter _)

@[simp] theorem Keeps.addGroups {s t : State} (h : Keeps s t) (x : Team) (l : Launch) (core : Nat) (gs : List Nat) :
    Keeps s (t.addGroups x l core gs) := by
  induction gs generalizing t with
  | nil => exact h
  | cons g gs ih =>
    unfold State.addGroups
    split
    · exact h
    · exact ih (h.addGroup rfl)

@[simp] theorem Keeps.placeOn {s t : State} (h : Keeps s t) (l : Launch) (n core off : Nat) : Keeps s (t.placeOn l n core off) :=
  Keeps.addGroups ((h.clearScr _ _ _).addTeam rfl rfl) _ _ _ _

theorem Keeps.placeTeam {s t u : State} (h : Keeps s t) {l : Launch} {n : Nat} (hu : t.placeTeam l n = some u) : Keeps s u := by
  unfold State.placeTeam at hu
  dsimp only at hu
  split at hu
  · cases hu
  · obtain ⟨o, -, rfl⟩ := Option.map_eq_some_iff.1 hu
    exact h.placeOn _ _ _ _

/-- A list of steps that may fail, each of which keeps the form and the numbers. -/
theorem Keeps.foldlM {α : Type} {s : State} {f : State → α → Option State} (hf : ∀ t x u, Keeps s t → f t x = some u → Keeps s u)
    {l : List α} {t u : State} (h : Keeps s t) (hu : l.foldlM f t = some u) : Keeps s u := by
  induction l generalizing t with
  | nil =>
    cases hu
    exact h
  | cons x xs ih =>
    rw [List.foldlM_cons] at hu
    obtain ⟨v, hv, hu⟩ := Option.bind_eq_some_iff.1 hu
    exact ih (hf t x v h hv) hu

theorem Keeps.placeCohort {s t u : State} (h : Keeps s t) {l : Launch} (hu : t.placeCohort l = some u) : Keeps s u := by
  obtain ⟨v, hv, rfl⟩ := Option.map_eq_some_iff.1 hu
  exact (Keeps.foldlM (fun _ _ _ k hk => k.placeTeam hk) h hv).modLaunch _ (by intro _; rfl)

/-! ## Loads that wait -/

theorem Keeps.readLane {s t : State} (h : Keeps s t) {g : Group} {l : Long} {lane : BitVec 6} {r : State × Group}
    (hr : t.readLane g l lane = some r) : Keeps s r.1 := by
  unfold State.readLane at hr
  split at hr
  · cases hr
  · split at hr
    · cases hr
    · split at hr
      · split at hr
        · cases hr
        · cases hr
          dsimp only
          exact (h.setGroup _).accessed _ _
      · cases hr

@[simp] theorem Keeps.settleLoads {s t : State} (h : Keeps s t) (gid : Nat) : Keeps s (t.settleLoads gid) := by
  unfold State.settleLoads
  split
  · exact h
  · refine h.foldl (fun u p => ?_) _
    split
    · exact .refl u
    · split
      · exact .refl u
      · split
        · next hr => exact ((Keeps.refl u).readLane hr).setGroup _
        · exact .refl u

/-! ## Pool grants -/

@[simp] theorem Keeps.grantHalves {s t : State} (h : Keeps s t) (g : Group) (lo hi sw : Bool) :
    Keeps s (t.grantHalves g lo hi sw) := by
  unfold State.grantHalves
  exact .ite (h.setGroup _) (.ite (h.deliver _) (h.setGroup _))

@[simp] theorem Keeps.grantPool {s t : State} (h : Keeps s t) (core : Nat) : Keeps s (t.grantPool core) := by
  unfold State.grantPool
  split
  · exact h
  · refine .ite h ?_
    split
    · split
      · exact .ite h ((h.modCore _ _).grantHalves _ _ _ _)
      · exact h.modCore _ _
    · exact h.modCore _ _

/-! ## The cut -/

@[simp] theorem Keeps.logFull {s t : State} (h : Keeps s t) (part core : Nat) : Keeps s (t.logFull part core) :=
  .ite h ((h.modPart _ _).log _)

theorem runs_waitb (h : Hdr) (scope : Scope) (ord : MemOrd) (d : Opd) (a : MemOpd) (s : State) :
    Runs s (execWaitb h scope ord d a s) :=
  .issue fun g => gives_holding (gives_waitbBody d a s g)

theorem runs_bwait (h : Hdr) (d : Opd) (s : State) : Runs s (execBwait h d s) :=
  .issue (gives_bwaitBody d s)

theorem runs_spwait (h : Hdr) (a : Opd) (s : State) : Runs s (execSpwait h a s) :=
  .issue (gives_spwaitBody a s)

theorem runs_waitev (h : Hdr) (r : Opd) (m : BitVec 16) (s : State) : Runs s (execWaitev h r m s) :=
  .issue (gives_waitevBody r m s)

theorem runs_qpush (h : Hdr) (wait : Bool) (d a e : Opd) (s : State) : Runs s (execQpush h wait d a e s) :=
  .issue fun g => gives_holding (gives_qpushBody h wait d a e s g)

theorem runs_qpop (h : Hdr) (wait : Bool) (stamp : Option Opd) (d b e : Opd) (s : State) :
    Runs s (execQpop h wait stamp d b e s) :=
  .issue fun g => gives_holding (gives_qpopBody h wait stamp d b e s g)

theorem runs_dsend (h : Hdr) (a b : Opd) (s : State) : Runs s (execDsend h a b s) :=
  .issue fun g => gives_holding (gives_dsendBody h a b s g)

theorem runs_settleInstr (i : Instr) (s : State) : Runs s (settleInstr i s) := by
  unfold settleInstr
  split
  · exact runs_waitb _ _ _ _ _ s
  · exact runs_bwait _ _ s
  · exact runs_spwait _ _ s
  · exact runs_waitev _ _ _ s
  · exact runs_qpush _ _ _ _ _ s
  · exact runs_qpop _ _ _ _ _ _ s
  · exact runs_dsend _ _ _ s
  · exact .next (.refl s)

/-- The form and the numbers do not speak of the group whose turn it is. -/
@[simp] theorem Keeps.withCur {s t : State} (h : Keeps s t) (n : Nat) : Keeps s { t with cur := n } :=
  ⟨h.form, h.numbers⟩

/-- The wait of a group is settled by its turn, and by the instruction that it runs. -/
theorem keeps_settled (s : State) (gid : Nat) :
    Keeps s (match { s with cur := gid }.turn with
      | .run i s1 => match settleInstr i s1 with | .next s2 => { s2 with cur := s.cur } | _ => s
      | _ => s) := by
  have h1 := turn_keeps { s with cur := gid }
  revert h1
  generalize ({ s with cur := gid } : State).turn = r
  intro h1
  cases r with
  | idle => exact .refl s
  | done t => exact .refl s
  | run i s1 =>
    obtain ⟨t, ht, hk⟩ := runs_settleInstr i s1
    dsimp only
    rw [ht]
    exact ((Keeps.withCur (.refl s) gid).trans (h1.trans hk)).withCur _

@[simp] theorem Keeps.settleWait {s t : State} (h : Keeps s t) (g : Group) : Keeps s (t.settleWait g) := by
  refine h.trans ?_
  unfold State.settleWait
  split
  · exact keeps_settled t g.id
  · exact keeps_settled t g.id
  · exact keeps_settled t g.id
  · exact keeps_settled t g.id
  · exact keeps_settled t g.id
  · exact .refl t

/-- What is done to a group of a number, where there is one. -/
theorem Keeps.eachGroup {s t : State} {f : State → Group → State} (h : Keeps s t) (hf : ∀ u g, Keeps u (f u g)) (id : Nat) :
    Keeps s (match t.group? id with | some g => f t g | none => t) := by
  split
  · exact h.trans (hf _ _)
  · exact h

@[simp] theorem Keeps.settle {s t : State} (h : Keeps s t) (x : Team) : Keeps s (t.settle x) := by
  unfold State.settle
  dsimp only
  refine ((h.foldl (fun u _ => (Keeps.refl u).grantPool _) _).foldl (fun u _ => (Keeps.refl u).grantTiles _) _).foldl
    (fun u id => ?_) _
  exact (((Keeps.refl u).settleLoads id).eachGroup (fun u g => (Keeps.refl u).settleFirmware g) id).eachGroup
    (fun u g => (Keeps.refl u).settleWait g) id

@[simp] theorem Keeps.cutTeam {s t : State} (h : Keeps s t) (tid : Nat) : Keeps s (t.cutTeam tid) := by
  unfold State.cutTeam
  split
  · exact h
  · exact (h.settle _).modTeam _ (by intro _; rfl) (by intro _; rfl)

@[simp] theorem Keeps.cutAll {s t : State} (h : Keeps s t) (part : Nat) (ts : List Team) : Keeps s (t.cutAll part ts) := by
  unfold State.cutAll
  refine .ite (h.foldl (fun u x => (Keeps.refl u).cutTeam _) ts) ?_
  split
  · exact h.logFull _ _
  · exact h

/-! ## Swapping out -/

/-- The cells of a range, as offsets in it. -/
theorem Memory.wf_shift {m : List Host.Cell} (h : Memory.wf m = true) (lo : Nat) (p : Host.Cell → Bool)
    (hp : ∀ c, p c = true → lo ≤ c.1) : Memory.wf ((m.filter p).map (fun c => (c.1 - lo, c.2))) = true := by
  obtain ⟨hz, hr⟩ := (Memory.wf_iff _).1 (Memory.wf_filter p h)
  refine (Memory.wf_iff _).2 ⟨fun c hc => ?_, List.pairwise_map.2 (hr.imp_of_mem fun {c d} hc hd hcd => ?_)⟩
  · obtain ⟨d, hd, rfl⟩ := List.mem_map.1 hc
    exact hz d hd
  · have hc := hp c (List.mem_filter.1 hc).2
    show c.1 - lo < d.1 - lo
    omega

theorem State.scrImage_wf {s : State} (h : Memory.wf s.mem = true) (t : Team) (core : Nat) :
    Memory.wf (s.scrImage t core).bytes = true :=
  Memory.wf_shift h _ _ fun c hc => by
    simp only [decide_eq_true_eq, Bool.decide_and, Bool.and_eq_true] at hc
    exact hc.1

/-- A team takes an image, canonical where the state it was written from was. -/
theorem Keeps.putImage {s t : State} (h : Keeps s t) (k : Nat) {f : Team → Team} {im : ScrImage}
    (him : Memory.wf s.mem = true → Memory.wf im.bytes = true) (hf : ∀ x, (f x).image = some im)
    (hid : ∀ x, (f x).id = x.id) : Keeps s (t.modTeam k f) := by
  refine ⟨fun hs => ?_, fun hs => ?_⟩
  · obtain ⟨h1, h2, h3, h4, h5⟩ := h.form hs
    refine ⟨h1, h2, h3, fun y hy im' hi => ?_, h5⟩
    obtain ⟨x, hx, rfl⟩ := List.mem_map.1 hy
    split at hi
    · rw [hf x] at hi
      cases hi
      exact him hs.1
    · exact h4 x hx im' hi
  · exact FewerNumbers.numbered (s := t) ⟨.refl _, sublist_of_eq (map_if_keep _ _ _ hid _), .refl _, .refl _, .refl _, .refl _,
      .refl _, Nat.le_refl _⟩ (h.numbers hs)

theorem keeps_swapOut (s : State) (t : Team) (core : Nat) : Keeps s (s.swapOut t core) := by
  unfold State.swapOut
  dsimp only
  refine Keeps.addEvent (Keeps.touch ?_ _) _ _ _
  refine Keeps.withGroups (Keeps.putImage (((Keeps.refl s).clearScr _ _ _).modCore _ _) _ (fun hm => s.scrImage_wf hm t core) ?_ ?_)
    (sublist_of_eq ?_)
  · exact fun _ => rfl
  · exact fun _ => rfl
  · exact map_if_keep _ _ (fun g : Group => { g with core := none, line := none }) (fun _ => rfl) _

/-! ## Resuming -/

theorem write_cells_wf {m : List Host.Cell} (h : Memory.wf m = true) (lo : Nat) (cs : List Host.Cell) :
    Memory.wf (cs.foldl (fun m c => Memory.write m (lo + c.1) [c.2]) m) = true := by
  induction cs generalizing m with
  | nil => exact h
  | cons c cs ih => exact ih (Memory.write_wf h _ _)

theorem insert_all_rising {l : List Nat} (h : Claims.rising l) (xs : List Nat) :
    Claims.rising (xs.foldl (fun l x => insertNat x l) l) := by
  induction xs generalizing l with
  | nil => exact h
  | cons x xs ih => exact ih (rising_insertNat _ h)

@[simp] theorem Keeps.loadImage {s t : State} (h : Keeps s t) (x : Team) (core : Nat) (im : ScrImage) :
    Keeps s (t.loadImage x core im) :=
  (h.clearScr _ _ _).withMemory (fun hm => write_cells_wf hm _ _) (fun he => insert_all_rising he _)
    (fun hp => insert_all_rising hp _)

@[simp] theorem Keeps.reslot {s t : State} (h : Keeps s t) (core : Nat) (ev : BitVec 16) (peergen : Word32) (ids : List Nat) :
    Keeps s (t.reslot core ev peergen ids) := by
  induction ids generalizing t with
  | nil => exact h
  | cons id ids ih =>
    unfold State.reslot
    split
    · exact ih (h.setGroup _)
    · exact h

@[simp] theorem Keeps.applyHeld {s t : State} (h : Keeps s t) (core : Nat) (held : List (Nat × Nat)) :
    Keeps s (t.applyHeld core held) :=
  h.foldl (fun u _ => (Keeps.refl u).putArrival _ _ _) held

@[simp] theorem Keeps.grantXgrow {s t : State} (h : Keeps s t) (core : Nat) (g : Group) : Keeps s (t.grantXgrow core g) := by
  unfold State.grantXgrow
  split
  · exact .ite (h.modCore _ _) (h.grantHalves _ _ _ _)
  · exact h

@[simp] theorem Keeps.grantGang {s t : State} (h : Keeps s t) (core : Nat) (g : Group) (w : Word64) :
    Keeps s (t.grantGang core g w) :=
  .ite (h.modCore _ _) (h.formGang _ _)

@[simp] theorem Keeps.grantResumed {s t : State} (h : Keeps s t) (x : Team) (core : Nat) (ids : List Nat) :
    Keeps s (t.grantResumed x core ids) :=
  (h.foldl (fun u id => (Keeps.refl u).eachGroup (fun u g => (Keeps.refl u).grantXgrow core g) id) ids).foldl
    (fun u p => (Keeps.refl u).grantGang _ _ _) _

@[simp] theorem Keeps.wakeLatches {s t : State} (h : Keeps s t) (x : Team) (core : Nat) : Keeps s (t.wakeLatches x core) :=
  h.foldl (fun u _ => (Keeps.refl u).wakeSubs _ _) _

@[simp] theorem Keeps.joinTeam {s t : State} (h : Keeps s t) (core old new : Nat) : Keeps s (t.joinTeam core old new) := by
  unfold State.joinTeam
  dsimp only
  have h1 := h.modCore core (fun c => { c with bins := c.bins.map (fun b =>
    match b.work with | .call id sl tg l => { b with work := .call (if id = old then new else id) sl tg l } | .spawn .. => b) })
  have h2 := h1.withGroups (l := t.groups.map (fun g : Group => { g with team := if g.team = old then new else g.team }))
    (sublist_of_eq (map_map_keep _ (fun g : Group => { g with team := if g.team = old then new else g.team }) (fun _ => rfl) _))
  have h3 := h2.withGangs (l := t.gangs.map (fun k : Gang => { k with team := if k.team = old then new else k.team }))
    (sublist_of_eq (map_map_keep _ (fun k : Gang => { k with team := if k.team = old then new else k.team }) (fun _ => rfl) _))
  have h4 := h3.withCmds (l := t.cmds.map (fun c : Cmd => { c with team := if c.team = old then new else c.team }))
    (sublist_of_eq (map_map_keep _ (fun c : Cmd => { c with team := if c.team = old then new else c.team }) (fun _ => rfl) _))
  exact h4.withTeams (l := t.teams.filter (fun x => x.id != old)) (map_filter_sublist _ _ _) (WfImages.filter _)

@[simp] theorem Keeps.mergeSpawn {s t : State} (h : Keeps s t) (x : Team) (core : Nat) : Keeps s (t.mergeSpawn x core) := by
  unfold State.mergeSpawn
  split
  · exact .ite (h.joinTeam _ _ _) h
  · exact h

/-- A team takes the state of one that has no image. -/
theorem Keeps.dropImage {s t : State} (h : Keeps s t) (k : Nat) {f : Team → Team} (hid : ∀ x, (f x).id = x.id)
    (him : ∀ x, (f x).image = none) : Keeps s (t.modTeam k f) := by
  refine h.withTeams (sublist_of_eq (map_if_keep _ _ _ hid _)) (WfImages.map fun x _ => ?_)
  split
  · exact .inr (him x)
  · exact .inl rfl

@[simp] theorem Keeps.resumeOn {s t : State} (h : Keeps s t) (x : Team) (core : Nat) (moved : Bool) :
    Keeps s (t.resumeOn x core moved) := by
  unfold State.resumeOn
  dsimp only
  refine Keeps.mergeSpawn (Keeps.foldl (Keeps.wakeLatches (Keeps.grantResumed (Keeps.modPart (Keeps.withCmds (Keeps.modCore
    (Keeps.applyHeld (Keeps.reslot (Keeps.dropImage ?_ _ ?_ ?_) _ _ _ _) _ _) _ _) (sublist_of_eq ?_)) _ _) _ _ _) _ _)
    (fun u id => ?_) _) _ _
  · split
    · exact .ite h (h.loadImage _ _ _)
    · exact h
  · exact fun _ => rfl
  · exact fun _ => rfl
  · exact map_if_keep _ _ (fun c : Cmd => { c with core := core }) (fun _ => rfl) _
  · exact (Keeps.refl u).eachGroup (fun u g => ((Keeps.refl u).setGroup _).settleLoads _) id

@[simp] theorem Cmd.rebase_id (c : Cmd) (core : Nat) (moves : List (Nat × Nat × Nat × Nat)) : (c.rebase core moves).id = c.id :=
  rfl

@[simp] theorem Keeps.rebaseCmds {s t : State} (h : Keeps s t) (ts : List Team) : Keeps s (t.rebaseCmds ts) := by
  unfold State.rebaseCmds
  dsimp only
  refine .ite h ?_
  refine Keeps.withGangs (h.withCmds (sublist_of_eq (map_map_keep _ _ (fun c => ?_) _)))
    (sublist_of_eq (map_map_keep _ _ (fun k => ?_) _))
  · split
    · exact Cmd.rebase_id c _ _
    · rfl
  · split <;> rfl

theorem Keeps.resumeTeam {s t u : State} (h : Keeps s t) {x : Team} {moved : Bool} {ok : Nat → Bool}
    (hu : t.resumeTeam x moved ok = some u) : Keeps s u := by
  obtain ⟨c, -, rfl⟩ := Option.map_eq_some_iff.1 hu
  exact h.resumeOn _ _ _

theorem Keeps.resumeCohort {s t u : State} (h : Keeps s t) {x : Team} (hu : t.resumeCohort x = some u) : Keeps s u := by
  unfold State.resumeCohort at hu
  dsimp only at hu
  split at hu
  · cases hu
  · obtain ⟨v, hv, rfl⟩ := Option.map_eq_some_iff.1 hu
    exact (Keeps.foldlM (fun _ _ _ k hk => k.resumeTeam hk) h hv).rebaseCmds _

@[simp] theorem Keeps.nofitEntry {s t : State} (h : Keeps s t) (l : Launch) (cohort : Nat) : Keeps s (t.nofitEntry l cohort) :=
  h.logQueue _ _ _ _ _

@[simp] theorem Keeps.logNofit {s t : State} (h : Keeps s t) (l : Launch) : Keeps s (t.logNofit l) :=
  .ite h ((h.modLaunch _ (by intro _; rfl)).nofitEntry _ _)

@[simp] theorem Keeps.logNofitAway {s t : State} (h : Keeps s t) (x : Team) : Keeps s (t.logNofitAway x) := by
  unfold State.logNofitAway
  split
  · exact h
  · exact .ite h ((h.modTeam _ (by intro _; rfl) (by intro _; rfl)).nofitEntry _ _)

/-! ## Events -/

theorem runs_teamPlace (part : BitVec 3) (s : State) : Runs s (execTeamPlace part s) := by
  unfold execTeamPlace
  split
  · split
    · exact .next (.refl s)
    · split
      · next hp => exact .next (((Keeps.refl s).placeCohort hp).startAttached _)
      · exact .next ((Keeps.refl s).logNofit _)
  · exact .next (.refl s)

theorem runs_timeSliceExpiry (team : Nat) (s : State) : Runs s (execTimeSliceExpiry team s) := by
  unfold execTimeSliceExpiry
  split
  · exact .next (.refl s)
  · split
    · exact .next (.refl s)
    · exact .ite (.next ((Keeps.refl s).cutAll _ _)) (.next (.refl s))

theorem runs_waitPriorityRaise (team : Nat) (s : State) : Runs s (execWaitPriorityRaise team s) := by
  unfold execWaitPriorityRaise
  split
  · split
    · exact .ite (.next ((Keeps.refl s).modTeam _ (by intro _; rfl) (by intro _; rfl))) (.next (.refl s))
    · exact .next (.refl s)
  · exact .ite (.next ((Keeps.refl s).modLaunch _ (by intro _; rfl))) (.next (.refl s))
  · exact .next (.refl s)

theorem runs_swapCut (team : Nat) (s : State) : Runs s (execSwapCut team s) := by
  unfold execSwapCut
  split
  · exact .next (.refl s)
  · split
    · exact .next (.refl s)
    · exact .ite (.next ((Keeps.refl s).cutAll _ _)) (.next (.refl s))

@[simp] theorem Keeps.endGrow {s t : State} (h : Keeps s t) (core : Nat) : Keeps s (t.endGrow core) :=
  .ite (h.modCore _ _) h

theorem runs_swapOutComplete (team : Nat) (s : State) : Runs s (execSwapOutComplete team s) := by
  unfold execSwapOutComplete
  split
  · exact .next (.refl s)
  · split
    · exact .next (.refl s)
    · exact .ite (.next ((keeps_swapOut s _ _).endGrow _)) (.next (.refl s))

theorem runs_teamResume (team core : Nat) (s : State) : Runs s (execTeamResume team core s) := by
  unfold execTeamResume
  split
  · exact .next (.refl s)
  · split
    · refine .ite ?_ (.next (.refl s))
      split
      · next hr => exact .next (.ite ((Keeps.refl s).resumeCohort hr) (.refl s))
      · exact .next ((Keeps.refl s).logNofitAway _)
      · exact .next (.refl s)
    · exact .next (.refl s)

@[simp] theorem Keeps.moveBins {s t : State} (h : Keeps s t) (core launch : Nat) : Keeps s (t.moveBins core launch) := by
  unfold State.moveBins
  dsimp only
  split
  · exact (h.modCore _ _).modTeam _ (by intro _; rfl) (by intro _; rfl)
  · exact (h.modCore core _).addTeam rfl rfl

@[simp] theorem Keeps.endCollpart {s t : State} (h : Keeps s t) : Keeps s t.endCollpart := by
  unfold State.endCollpart
  dsimp only
  exact .ite h (Keeps.withMgmt (h.foldl (fun u _ => (Keeps.refl u).finishCommand _ _) _) id)

theorem runs_partitionMoveComplete (core : Nat) (s : State) : Runs s (execPartitionMoveComplete core s) := by
  unfold execPartitionMoveComplete
  exact .ite (.next (Keeps.endCollpart (Keeps.modCore ((Keeps.refl s).foldl (fun u _ => (Keeps.refl u).moveBins _ _) _) _ _)))
    (.next (.refl s))

end Sys2Proof.Machine
end


section
/-! # O57, O58: the events of groups and of the Tessellator; ownership, mailbox and requests from outside -/

namespace Sys2Proof.Machine

/-! ## Results -/

theorem runs_longResultReturn (gid k : Nat) (s : State) : Runs s (execLongResultReturn gid k s) := by
  unfold execLongResultReturn
  split
  · exact .next (.refl s)
  · split
    · exact .next (.refl s)
    · exact .ite (.next ((Keeps.refl s).setGroup _)) (.next (.refl s))

theorem runs_switchUnpark (gid : Nat) (s : State) : Runs s (execSwitchUnpark gid s) := by
  unfold execSwitchUnpark
  split
  · exact .next (.refl s)
  · exact .ite (.next ((Keeps.refl s).deliver _)) (.next (.refl s))

theorem runs_emptylineLoadRead (gid k : Nat) (lane : BitVec 6) (s : State) : Runs s (execEmptylineLoadRead gid k lane s) := by
  unfold execEmptylineLoadRead
  split
  · exact .next (.refl s)
  · split
    · exact .next (.refl s)
    · refine .ite ?_ (.next (.refl s))
      split
      · next hr => exact .next (((Keeps.refl s).readLane hr).setGroup _)
      · exact .next (.refl s)

theorem runs_fetchLineReceive (gid : Nat) (s : State) : Runs s (execFetchLineReceive gid s) := by
  unfold execFetchLineReceive
  split
  · exact .next (.refl s)
  · exact .ite (.next ((Keeps.refl s).receive _)) (.next (.refl s))

/-! ## Pool blocks and bins -/

theorem runs_poolBlockGrant (core : Nat) (s : State) : Runs s (execPoolBlockGrant core s) :=
  .next ((Keeps.refl s).grantPool core)

theorem runs_registerGrowCheck (core : Nat) (s : State) : Runs s (execRegisterGrowCheck core s) := by
  unfold execRegisterGrowCheck
  refine .ite (.next (.refl s)) (.ite (.next (.refl s)) ?_)
  split
  · exact .next (((Keeps.refl s).cutAll _ _).modCore _ _)
  · exact .next ((Keeps.refl s).modCore _ _)

theorem runs_binFireTimeout (core bin : Nat) (s : State) : Runs s (execBinFireTimeout core bin s) := by
  unfold execBinFireTimeout
  split
  · exact .ite (.next (((Keeps.refl s).modCore _ _).formSpawn _)) (.next (.refl s))
  · exact .next (.refl s)

@[simp] theorem Keeps.freeBin {s t : State} (h : Keeps s t) (core i : Nat) : Keeps s (t.freeBin core i) :=
  h.modCore _ _

@[simp] theorem Keeps.startSpawned {s t : State} (h : Keeps s t) (core bin : Nat) (b : Bin) (launch : Nat) (entry : Word64)
    (vregs : Nat) (items : List SpawnItem) : Keeps s (t.startSpawned core bin b launch entry vregs items) := by
  unfold State.startSpawned
  split
  · exact h
  · refine .ite h ?_
    have h1 := h.spawnTeam core launch
    revert h1
    generalize t.spawnTeam core launch = r
    obtain ⟨s1, u⟩ := r
    intro h1
    dsimp only at h1 ⊢
    split
    · exact .ite (Keeps.freeBin (h1.addGroup rfl) _ _) h
    · exact h

@[simp] theorem Keeps.startPooled {s t : State} (h : Keeps s t) (core bin : Nat) (b : Bin) (team : Nat) (tgt : CallTarget)
    (lanes : List CallLane) : Keeps s (t.startPooled core bin b team tgt lanes) := by
  unfold State.startPooled
  split
  · next u c hu _ =>
    dsimp only
    have hstart {t1 : Team} (hid : t1.id = u.id) (him : t1.image = u.image) (packs : List Pack) (frames : List Nat) (c1 : Group) :
        Keeps s (((((t.modTeam u.id (fun _ => t1)).startCallees core tgt packs (c.depth + 1) 1 frames 1).setGroup c1).freeBin core
          bin)) :=
      (((h.replaceTeam (team?_mem hu) hid him).startCallees _ _ _ _ _ _ _).setGroup _).freeBin _ _
    refine .ite ?_ h
    by_cases hf : tgt.rc.frame = 0
    · simp only [hf, if_true]
      exact .ite h (hstart rfl rfl _ _ _)
    · simp only [hf, if_false]
      exact .ite h (hstart (takeAreas_keep ..).1 (takeAreas_keep ..).2 _ _ _)
  · exact h

theorem runs_spawnedGroupStart (core bin : Nat) (s : State) : Runs s (execSpawnedGroupStart core bin s) := by
  unfold execSpawnedGroupStart
  split
  · refine .ite (.next (.refl s)) ?_
    split
    · exact .next ((Keeps.refl s).startSpawned _ _ _ _ _ _ _)
    · exact .next ((Keeps.refl s).startPooled _ _ _ _ _ _)
  · exact .next (.refl s)

@[simp] theorem Keeps.withdrawItems {s t : State} (h : Keeps s t) (core bin : Nat) (key : BinWork) (caller : Nat) :
    Keeps s (t.withdrawItems core bin key caller) :=
  h.modCore _ _

@[simp] theorem Keeps.withdrawCall {s t : State} (h : Keeps s t) (core bin : Nat) (key : BinWork) :
    Keeps s (t.withdrawCall core bin key) := by
  unfold State.withdrawCall
  split
  · exact h
  · split
    · refine .ite h ?_
      split
      · exact .ite ((h.withdrawItems _ _ _ _).take _ _) h
      · exact ((h.withdrawItems _ _ _ _).modTeam _ (by intro _; rfl) (by intro _; rfl)).selfFold _ _ _ _ _
    · exact h

theorem runs_pooledCallWithdraw (core bin : Nat) (s : State) : Runs s (execPooledCallWithdraw core bin s) := by
  unfold execPooledCallWithdraw
  split
  · split
    · exact .ite (.next ((Keeps.refl s).withdrawCall _ _ _)) (.next (.refl s))
    · exact .next (.refl s)
  · exact .next (.refl s)

/-! ## Invalidation, soft errors, accounting -/

@[simp] theorem Keeps.dropEntries {s t : State} (h : Keeps s t) (issuer : Nat) (scope : TlbScope) (arg : Word64) :
    Keeps s (t.dropEntries issuer scope arg) :=
  ⟨h.form, h.numbers⟩

theorem runs_tlbinvComplete (gid : Nat) (s : State) : Runs s (execTlbinvComplete gid s) := by
  unfold execTlbinvComplete
  split
  · exact .next (.refl s)
  · split
    · exact .ite (.ite (.next (((Keeps.refl s).dropEntries _ _ _).setGroup _))
        (.ite (.next (((Keeps.refl s).dropEntries _ _ _).deliver _)) (.next (((Keeps.refl s).dropEntries _ _ _).setGroup _))))
        (.next (.refl s))
    · exact .next (.refl s)

@[simp] theorem Keeps.logSoft {s t : State} (h : Keeps s t) (loc kind : Nat) : Keeps s (t.logSoft loc kind) := by
  unfold State.logSoft
  exact h.log _

@[simp] theorem Keeps.corrected {s t : State} (h : Keeps s t) (loc : Nat) : Keeps s (t.corrected loc) :=
  .ite (h.modDie _ _) (((h.modDie _ _).modDie _ _).logSoft _ _)

theorem runs_softError (loc : Nat) (c : Bool) (s : State) : Runs s (execSoftError loc c s) := by
  unfold execSoftError
  split
  · exact .ite (.next (.refl s)) (.ite (.next ((Keeps.refl s).corrected _)) (.next (((Keeps.refl s).setPoison _).logSoft _ _)))
  · exact .ite (.next (.refl s)) (.next ((Keeps.refl s).modTeam _ (by intro _; rfl) (by intro _; rfl)))
  · exact .ite (.next (.refl s)) (.next ((Keeps.refl s).setIpq _ _))

theorem runs_crossTriggerArrive (core : Nat) (s : State) : Runs s (execCrossTriggerArrive core s) :=
  .next ⟨id, id⟩

theorem runs_traceSample (core : Nat) (quad : BitVec 2) (s : State) : Runs s (execTraceSample core quad s) := by
  unfold execTraceSample
  dsimp only
  refine .ite (.next (.refl s)) ?_
  split
  · exact .next ((Keeps.refl s).modCore _ _)
  · refine .next ((((Keeps.refl s).modCore _ _).trace _ _).withGroups (sublist_of_eq ?_))
    exact map_if_keep _ _ (fun g : Group => { g with sampled := true }) (fun _ => rfl) _

theorem runs_eligibilityHistogramClock (core : Nat) (quad : BitVec 2) (s : State) :
    Runs s (execEligibilityHistogramClock core quad s) :=
  .ite (.next (.refl s)) (.next ((Keeps.refl s).modCore _ _))

/-! ## Ownership and links -/

@[simp] theorem Keeps.reply {s t : State} (h : Keeps s t) (who : Requester) (v : Nat) : Keeps s (t.reply who v) :=
  ⟨h.form, h.numbers⟩

@[simp] theorem Keeps.setOwner {s t : State} (h : Keeps s t) (new : Word64) : Keeps s (t.setOwner new) := by
  have h1 : Keeps s { t with mgmt := { t.mgmt with owner := new } } := h.withMgmt id
  exact .ite h1 ((h1.raise _).raise _)

@[simp] theorem Keeps.ownerCas {s t : State} (h : Keeps s t) (r : BitVec 8) (expect new : Word64)
    (ok : Nat → Word64 → Word64 → Bool) : Keeps s (t.ownerCas r expect new ok) :=
  .ite (Keeps.reply (.ite (h.setOwner _) h) _ _) h

@[simp] theorem Keeps.setLink {s t : State} (h : Keeps s t) (port : Option (BitVec 3)) (up : Bool) : Keeps s (t.setLink port up) := by
  unfold State.setLink
  split
  · exact ⟨h.form, h.numbers⟩
  · exact ⟨h.form, h.numbers⟩

@[simp] theorem Keeps.linkDown {s t : State} (h : Keeps s t) (port : Option (BitVec 3)) : Keeps s (t.linkDown port) :=
  .ite ((h.setLink _ _).withMgmt id) (h.setLink _ _)

@[simp] theorem Keeps.linkUp {s t : State} (h : Keeps s t) (port : Option (BitVec 3)) : Keeps s (t.linkUp port) :=
  (h.setLink _ _).withMgmt id

theorem runs_ownerLinkTimeout (s : State) : Runs s (execOwnerLinkTimeout s) := by
  unfold execOwnerLinkTimeout
  split
  · exact .next (.refl s)
  · have h1 : Keeps s { s with mgmt := { s.mgmt with timer := none } } := (Keeps.refl s).withMgmt id
    exact .ite (.ite (.next ((h1.setOwner _).log _)) (.next h1)) (.next (.refl s))

/-! ## Mailbox commands -/

@[simp] theorem Keeps.command {s t : State} (h : Keeps s t) (r code : Nat) (owner recovery : Bool) {run : State} (hr : Keeps s run) :
    Keeps s (t.command r code owner recovery run) :=
  .ite h (.ite (.ite hr (h.finishCommand _ _)) (.ite (h.finishCommand _ _) hr))

@[simp] theorem Keeps.replyWith {s t : State} (h : Keeps s t) (r : Nat) (bs : List Byte) : Keeps s (t.replyWith r bs) :=
  ((h.setReply _ _ _).setBox _ _ _).finishCommand _ _

theorem Mgmt.wf_inactive {m : Mgmt} (h : m.Wf) : Memory.wf m.inactive = true := by
  unfold Mgmt.inactive
  split
  · exact h.2.1
  · exact h.2.2.1

theorem Mgmt.Wf.setInactive {m : Mgmt} (h : m.Wf) {slot : List Host.Cell} (hs : Memory.wf slot = true) :
    (m.setInactive slot).Wf := by
  obtain ⟨h1, h2, h3, h4⟩ := h
  unfold Mgmt.setInactive
  split
  · exact ⟨h1, hs, h3, h4⟩
  · exact ⟨h1, h2, hs, h4⟩

theorem Mgmt.Wf.setInactiveFail {m : Mgmt} (h : m.Wf) (step : BitVec 8) : (m.setInactiveFail step).Wf := by
  unfold Mgmt.setInactiveFail
  split
  · exact h
  · exact h

/-- An image is checked that is canonical where the state is. -/
theorem keeps_finishUpdate (s : State) (r : Nat) {img : List Host.Cell} (hi : Claims.canonical s → Memory.wf img = true) :
    Keeps s (s.finishUpdate r img) := by
  unfold State.finishUpdate
  have h1 : Keeps s { s with mgmt := (s.mgmt.setInactive img).setInactiveFail 0 } :=
    ⟨fun hs => ⟨hs.1, hs.2.1, hs.2.2.1, hs.2.2.2.1, (Mgmt.Wf.setInactive hs.2.2.2.2 (hi hs)).setInactiveFail 0⟩, id⟩
  have h2 : Keeps s { s with mgmt := s.mgmt.setInactiveFail (BitVec.ofNat 8 (checkImage img s.mgmt.vfloor)) } :=
    (Keeps.refl s).withMgmt fun hm => hm.setInactiveFail _
  exact .ite (h1.finishCommand _ _) ((h2.setBox _ _ _).finishCommand _ _)

theorem State.readImage_wf {s : State} (h : Memory.wf s.mem = true) (loc : Nat) : Memory.wf (s.readImage loc) = true :=
  Memory.wf_shift h _ _ fun c hc => by
    simp only [decide_eq_true_eq, Bool.decide_and, Bool.and_eq_true] at hc
    exact hc.1

theorem keeps_update (s : State) (r : Nat) : Keeps s (s.update r) := by
  unfold State.update
  dsimp only
  refine .ite (keeps_finishUpdate s r fun hs => Mgmt.wf_inactive hs.2.2.2.2) ?_
  split
  · exact keeps_finishUpdate s r fun hs => s.readImage_wf hs.1 _
  · exact (Keeps.refl s).finishCommand _ _

theorem keeps_activate (s : State) (r : Nat) : Keeps s (s.activate r) := by
  have h1 : Keeps s { s with mgmt := { s.mgmt with
      active := !s.mgmt.active, vfloor := BitVec.ofNat 32 (max s.mgmt.vfloor.toNat (slotNat s.mgmt.inactive 4 4)) } } :=
    (Keeps.refl s).withMgmt id
  exact .ite (((Keeps.refl s).setBox _ _ _).finishCommand _ _) (h1.finishCommand _ _)

theorem keeps_stage (s : State) (r : Nat) : Keeps s (s.stage r) := by
  have h1 (off : Nat) (bs : List Byte) : Keeps s { s with mgmt := s.mgmt.setInactive (Memory.write s.mgmt.inactive off bs) } :=
    (Keeps.refl s).withMgmt fun hm => hm.setInactive (Memory.write_wf (Mgmt.wf_inactive hm) off bs)
  unfold State.stage
  dsimp only
  split
  · exact (Keeps.refl s).finishCommand _ _
  · exact (h1 _ _).finishCommand _ _

theorem keeps_collpartCmd (s : State) (r : Nat) : Keeps s (s.collpartCmd r) := by
  unfold State.collpartCmd
  dsimp only
  have h1 : Keeps s ((List.range 272).foldl (fun u c =>
      if s.boxNat (r - 1) 8 1 = 1 then (if 64 ≤ c % 68 then u.setCpart c 8 else u)
      else if (u.core c).part = 8 then u.setCpart c 15 else u) s) :=
    (Keeps.refl s).foldl
      (fun u c => .ite (.ite ((Keeps.refl u).setCpart _ _) (.refl u)) (.ite ((Keeps.refl u).setCpart _ _) (.refl u))) _
  revert h1
  generalize (List.range 272).foldl _ s = s1
  intro h1
  have h2 : Keeps s { s1 with mgmt := { s1.mgmt with collpart := s1.mgmt.collpart ++ [BitVec.ofNat 8 r] } } := h1.withMgmt id
  exact .ite ((Keeps.refl s).finishCommand _ _) (.ite h2 (h1.finishCommand _ _))

/-! ## The power cap, the host and the peers -/

@[simp] theorem Keeps.setCap {s t : State} (h : Keeps s t) (cap : Nat) : Keeps s (t.setCap cap) :=
  .ite ⟨h.form, h.numbers⟩ h

theorem runs_clkstep (s : State) : Runs s (execClkstep s) := by
  have h1 : Keeps s { s with clock := s.clock - 50 } := ⟨id, id⟩
  exact .ite (.next (.refl s)) (.next (h1.log _))

@[simp] theorem Keeps.hostAtomic {s t : State} (h : Keeps s t) (who : Requester) (addr : Word64) (n : Nat) (sizes : List Nat)
    (f : Code → Code) : Keeps s (t.hostAtomic who addr n sizes f) := by
  unfold State.hostAtomic
  refine .ite h ?_
  split
  · exact .ite h ((h.writeNat _ _ _).reply _ _)
  · exact h

@[simp] theorem Keeps.memRequest {s t : State} (h : Keeps s t) (who : Requester) (addr : Word64) (size : Nat) (op : HostOp) :
    Keeps s (t.memRequest who addr size op) := by
  unfold State.memRequest
  split
  · exact h.hostAtomic _ _ _ _ _
  · split
    · exact h
    · split
      · exact .ite (h.write _ _) h
      · exact h.reply _ _

@[simp] theorem Keeps.windowRequest {s t : State} (h : Keeps s t) (r : BitVec 8) (off size : Nat) (op : HostOp) :
    Keeps s (t.windowRequest r off size op) := by
  cases op with
  | read => exact h.reply _ _
  | write bytes => exact .ite (h.regWrite _ _ _ _) h
  | cas n expected new => exact .ite (h.ownerCas _ _ _ _) (h.reply _ _)
  | swap n v => exact h.reply _ _
  | fetchAdd n v => exact h.reply _ _

@[simp] theorem Keeps.vfRequest {s t : State} (h : Keeps s t) (p : BitVec 3) (off size : Nat) (op : HostOp) :
    Keeps s (t.vfRequest p off size op) := by
  cases op with
  | read => exact h.reply _ _
  | write bytes => exact .ite (h.vfWrite _ _ _ _) h
  | cas n expected new => exact h.reply _ _
  | swap n v => exact h.reply _ _
  | fetchAdd n v => exact h.reply _ _

theorem runs_hostOrPeerRequest (who : Requester) (addr : Word64) (size : Nat) (op : HostOp) (s : State) :
    Runs s (execHostOrPeerRequest who addr size op s) := by
  unfold execHostOrPeerRequest
  split
  · exact .next ((Keeps.refl s).vfRequest _ _ _ _)
  · exact .next (.refl s)
  · exact .next (.ite ((Keeps.refl s).windowRequest _ _ _ _) (.refl s))
  · exact .next (.ite ((Keeps.refl s).memRequest _ _ _ _) (.refl s))

end Sys2Proof.Machine
end


section
/-! # O57, O58: every instruction, every event, and the step -/

namespace Sys2Proof.Machine

theorem runs_ffma (h : Hdr) (ty : FTy) (rm : Rm) (ftz : Bool) (d a b c : Opd) (s : State) :
    Runs s (execFfma h ty rm ftz d a b c s) := by
  unfold execFfma
  exact .issue fun g => by
    dsimp only
    exact gives_valueBody _ _ _ _ _ _ _ s g

theorem runs_fcvt (h : Hdr) (src ty : FTy) (rm : Rm) (ftz sat : Bool) (d a : Opd) (s : State) :
    Runs s (execFcvt h src ty rm ftz sat d a s) := by
  unfold execFcvt
  exact .issue fun g => by
    dsimp only
    exact gives_valueBody _ _ _ _ _ _ _ s g

theorem runs_icvt (h : Hdr) (int : Bool) (ity : ITy) (ty : FTy) (rm : Rm) (d a : Opd) (s : State) :
    Runs s (execIcvt h int ity ty rm d a s) := by
  unfold execIcvt
  exact .issue fun g => by
    dsimp only
    split
    · exact gives_valueBody _ _ _ _ _ _ _ s g
    · exact gives_valueBody _ _ _ _ _ _ _ s g

theorem runs_nop (h : Hdr) (s : State) : Runs s (execNop h s) := by
  unfold execNop
  exact .issue fun _ => .ok (.refl s)

theorem gives_fenceBody (s : State) (g : Group) : Gives s (fenceBody s g) :=
  .ok (.refl s)

/-- A write of a core's register, where the core exists. -/
theorem runs_coreWrite (core : Nat) (who : Requester) (off n v : Nat) (s : State) :
    Runs s (if core < 272 then s.writeAt who off n v else .next s) :=
  .ite (runs_writeAt s who off n v) (.next (.refl s))

theorem exec_runs (i : Instr) (s : State) : Runs s (exec i s) := by
  cases i with
  | iadd | iaddImm | isub | isubImm | imul | imulImm | imulh | imad | imin | iminImm | imax | imaxImm | iabs | ineg | icmp | icmpImm
  | sel | lea | leaImm | clz | popc | and | andImm | or | orImm | xor | xorImm | andn | andnImm | not | shl | shlImm | shr | shrImm
  | sar | sarImm | rotl | rotlImm | brev | bfx | bfxImm | bfi | mov | movi | bcast => exact .issue (gives_valueBody _ _ _ _ _ _ _ s)
  | iaddc => exact .issue (gives_iaddcBody _ _ _ _ _ _ s)
  | laneget => exact .issue (gives_lanegetBody _ _ _ _ _ s)
  | fadd | faddImm | fsub | fsubImm | fmul | fmulImm | fmin | fminImm | fmax | fmaxImm | fcmp | fcmpImm | frcp | frsq | fsqrt | fdiv
  | fexp2 | flog2 | frnd | fclass =>
    refine .issue fun g => ?_
    exact gives_valueBody _ _ _ _ _ _ _ s g
  | ffma => exact runs_ffma _ _ _ _ _ _ _ _ s
  | fcvt => exact runs_fcvt _ _ _ _ _ _ _ _ s
  | icvt => exact runs_icvt _ _ _ _ _ _ _ s
  | shfl => exact .issue (gives_shflBody _ _ _ _ _ _ s)
  | qxch => exact .issue (gives_qxchBody _ _ _ _ _ s)
  | ballot => exact .issue (gives_ballotBody _ _ _ _ s)
  | vote => exact .issue (gives_voteBody _ _ _ _ _ s)
  | gred => exact .issue (gives_gredBody _ _ _ _ _ s)
  | gscan => exact .issue (gives_gscanBody _ _ _ _ _ _ s)
  | mfirst | mpopc => exact .issue (gives_maskCountBody _ _ _ _ s)
  | mand | mor | mxor | mnot | mmov | mtox => exact .issue (gives_maskBody _ _ s)
  | mfs => exact .issue (gives_mfsBody _ _ _ s)
  | mts => exact .issue (gives_mtsBody _ _ _ s)
  | xgrow => exact .issue (gives_xgrowBody _ _ _ s)
  | xdrop => exact .issue (gives_xdropBody _ _ s)
  | qcfg => exact .issue (gives_qcfgBody _ _ _ s)
  | bra | jmp => exact .issue (Gives.reading (gives_branchBody _ _) s)
  | call => exact .issue (Gives.reading (gives_callBody _ _) s)
  | ret => exact .issue (gives_retBody _ _ s)
  | wcall | gcall => exact .issue (Gives.reading (gives_widthCallBody _ _ _ _ _ _) s)
  | wret => exact .issue (gives_wretBody _ _ _ s)
  | spawn => exact .issue (Gives.reading (gives_spawnBody _ _ _) s)
  | spwait => exact runs_spwait _ _ s
  | exit => exact .issue (gives_exitBody _ s)
  | nop => exact runs_nop _ s
  | mark => exact .issue (gives_markBody _ s)
  | bkpt => exact .issue (gives_bkptBody _ _ s)
  | trap => exact .issue (gives_trapBody _ _ _ s)
  | ld => exact .issue fun _ => gives_holding (gives_looking (gives_ldBody _ _ _ _ _ s _))
  | st => exact .issue fun _ => gives_holding (gives_looking (gives_stBody _ _ _ _ s _))
  | lfull | lempty => exact .issue fun _ => gives_holding (gives_lineBody _ _ _ s _)
  | ltest => exact .issue fun _ => gives_holding (gives_ltestBody _ _ _ s _)
  | atom => exact .issue fun _ => gives_holding (gives_looking (gives_atomBody _ _ _ _ _ _ s _))
  | cas => exact .issue fun _ => gives_holding (gives_looking (gives_casBody _ _ _ _ _ s _))
  | redm => exact .issue fun _ => gives_holding (gives_looking (gives_redmBody _ _ _ _ _ s _))
  | fence => exact .issue fun _ => gives_holding (gives_fenceBody s _)
  | fenceFlag => exact .issue fun _ => gives_holding (gives_fenceFlagBody _ _ s _)
  | barinit => exact .issue fun _ => gives_holding (gives_barinitBody _ _ s _)
  | arrive => exact .issue fun _ => gives_holding (gives_arriveBody _ _ _ s _)
  | waitb => exact runs_waitb _ _ _ _ _ s
  | cmdw => exact .issue fun _ => gives_holding (gives_cmdwBody _ _ _ _ s _)
  | notify => exact .issue fun _ => gives_holding (gives_notifyBody _ _ _ s _)
  | bclose => exact .issue (gives_bcloseBody _ s)
  | bwait => exact runs_bwait _ _ s
  | pref | prefTlb => exact .issue (gives_prefBody _ _ s)
  | eret | eretSkip | eretFwd => exact .issue (gives_eretBody _ _ s)
  | mfsr => exact .issue (gives_mfsrBody _ _ s)
  | mtsr => exact .issue (gives_mtsrBody _ _ s)
  | tlbinv => exact .issue fun _ => gives_holding (gives_tlbinvBody _ _ _ s _)
  | waitev => exact runs_waitev _ _ _ s
  | gang => exact .issue fun _ => gives_holding (gives_gangBody _ _ s _)
  | mma => exact .issue fun _ => gives_holding (gives_mmaBody _ _ _ _ _ _ _ _ s _)
  | bdot => exact .issue (gives_bdotBody _ _ _ _ _ _ _ _ _ _ s)
  | accz => exact .issue (gives_acczBody _ _ s)
  | accrd => exact .issue (gives_accrdBody _ _ _ _ s)
  | accrdSt => exact .issue fun _ => gives_holding (gives_accrdStBody _ _ _ _ _ _ _ s _)
  | accwr => exact .issue (gives_accwrBody _ _ _ _ s)
  | tidset => exact .issue fun _ => gives_holding (gives_tidsetBody _ _ s _)
  | tidget => exact .issue (gives_tidgetBody _ _ _ s)
  | hadq => exact .issue fun _ => gives_holding (gives_hadqBody _ _ _ _ _ _ _ s _)
  | zmap => exact .issue fun _ => gives_holding (gives_zmapBody _ _ _ s _)
  | kclaim => exact .issue fun _ => gives_holding (gives_kclaimBody _ _ _ _ _ s _)
  | kfree => exact .issue fun _ => gives_holding (gives_kfreeBody _ s _)
  | kins => exact .issue fun _ => gives_holding (gives_laneFormBody _ _ _ _ _ _ _ (fun _ => insertAct_ok _) s _)
  | kprb => exact .issue fun _ => gives_holding (gives_laneFormBody _ _ _ _ _ _ _ (fun _ => probeAct_ok) s _)
  | kdel => exact .issue fun _ => gives_holding (gives_laneFormBody _ _ _ _ _ _ _ (fun _ => deleteAct_ok) s _)
  | kacc => exact .issue fun _ => gives_holding (gives_laneFormBody _ _ _ _ _ _ _ (fun _ => accAct_ok _ _ _) s _)
  | kdrn => exact .issue fun _ => gives_holding (gives_kdrnBody _ _ _ _ _ _ _ _ _ s _)
  | kstat => exact .issue fun _ => gives_holding (gives_kstatBody _ _ s _)
  | slen => exact .issue (gives_slenBody _ s)
  | sgen => exact .issue fun _ => gives_holding (gives_sgenBody _ _ _ _ _ s _)
  | smul | smin | smax => exact .issue fun _ => gives_holding (gives_combine2 _ _ _ _ _ _ _ s _)
  | snot => exact .issue fun _ => gives_holding (gives_snotBody _ _ _ s _)
  | ssel => exact .issue fun _ => gives_holding (gives_sselBody _ _ _ _ _ s _)
  | scnt => exact .issue fun _ => gives_holding (gives_scntBody _ _ _ _ s _)
  | sregen => exact .issue fun _ => gives_holding (gives_sregenBody _ _ _ _ _ s _)
  | sbit => exact .issue fun _ => gives_holding (gives_sbitBody _ _ _ _ s _)
  | scls => exact .issue fun _ => gives_holding (gives_sclsBody _ _ s _)
  | coll => exact .issue fun _ => gives_holding (gives_collBody _ _ _ _ _ _ _ s _)
  | dsend => exact runs_dsend _ _ _ s
  | dclose => exact .issue fun _ => gives_holding (gives_dcloseBody _ _ s _)
  | qpush => exact runs_qpush _ _ _ _ _ s
  | qpop => exact runs_qpop _ _ _ _ _ _ s
  | tile => exact .issue (gives_tileBody _ _ _ s)
  | longResultReturn => exact runs_longResultReturn _ _ s
  | switchUnpark => exact runs_switchUnpark _ s
  | emptylineLoadRead => exact runs_emptylineLoadRead _ _ _ s
  | fetchLineReceive => exact runs_fetchLineReceive _ s
  | poolBlockGrant => exact runs_poolBlockGrant _ s
  | registerGrowCheck => exact runs_registerGrowCheck _ s
  | binFireTimeout => exact runs_binFireTimeout _ _ s
  | spawnedGroupStart => exact runs_spawnedGroupStart _ _ s
  | pooledCallWithdraw => exact runs_pooledCallWithdraw _ _ s
  | teamPlace => exact runs_teamPlace _ s
  | timeSliceExpiry => exact runs_timeSliceExpiry _ s
  | waitPriorityRaise => exact runs_waitPriorityRaise _ s
  | swapCut => exact runs_swapCut _ s
  | swapOutComplete => exact runs_swapOutComplete _ s
  | teamResume => exact runs_teamResume _ _ s
  | qbaseWrite | qctlWrite | qtailWrite | qabort | doorbell | ipqcfgWrite | trsizelWrite | elsizelWrite | haltreq | release
  | dbgselWrite => exact runs_writeAt s _ _ _ _
  | cpartWrite | xpoolWrite | perfctlClr => exact runs_coreWrite _ _ _ _ _ s
  | packetRead => exact runs_packetRead _ s
  | dependencePoll => exact runs_dependencePoll _ s
  | launchComplete => exact runs_launchComplete _ s
  | copyCommandStart => exact runs_copyCommandStart _ s
  | copyUnitLand => exact runs_copyUnitLand _ _ s
  | copyCommandComplete => exact runs_copyCommandComplete _ s
  | ringstall => exact runs_ringstall _ s
  | gangForm => exact runs_gangForm _ s
  | gangDissolve => exact runs_gangDissolve _ s
  | mmaStart => exact runs_mmaStart _ s
  | mmaComplete => exact runs_mmaComplete _ s
  | subarrayPowerGate => exact runs_subarrayPowerGate _ _ s
  | keyOpComplete => exact runs_keyOpComplete _ s
  | chordOpComplete => exact runs_chordOpComplete _ s
  | tlbinvComplete => exact runs_tlbinvComplete _ s
  | collectiveComplete => exact runs_collectiveComplete _ s
  | dispatchTokenArrive => exact runs_dispatchTokenArrive _ s
  | dispatchTokenDeliver => exact runs_dispatchTokenDeliver _ s
  | dispstall => exact runs_dispstall _ s
  | softError => exact runs_softError _ _ s
  | partitionMoveComplete => exact runs_partitionMoveComplete _ s
  | crossTriggerArrive => exact runs_crossTriggerArrive _ s
  | traceSample => exact runs_traceSample _ _ s
  | registerWrite => exact runs_registerWrite _ _ _ _ s
  | ownerClaim | ownerOffer | ownerTake | ownerRelease => exact .next ((Keeps.refl s).ownerCas _ _ _ _)
  | ownerLinkDown | peerPortLinkDown => exact .next ((Keeps.refl s).linkDown _)
  | ownerLinkUp | peerPortLinkUp => exact .next ((Keeps.refl s).linkUp _)
  | ownerLinkTimeout => exact runs_ownerLinkTimeout s
  | attest => exact .next ((Keeps.refl s).command _ _ _ _ (((Keeps.refl s).withFreeCtr _).replyWith _ _))
  | getcert => exact .next ((Keeps.refl s).command _ _ _ _ ((Keeps.refl s).replyWith _ _))
  | update => exact .next ((Keeps.refl s).command _ _ _ _ (keeps_update s _))
  | activate => exact .next ((Keeps.refl s).command _ _ _ _ (keeps_activate s _))
  | stage => exact .next ((Keeps.refl s).command _ _ _ _ (keeps_stage s _))
  | collpart => exact .next (.ite (.refl s) ((Keeps.refl s).command _ _ _ _ (keeps_collpartCmd s _)))
  | resetreq => exact .next ((Keeps.refl s).regWrite _ _ _ _)
  | perst => exact .next (Keeps.refl s).resetModule
  | clkstep => exact runs_clkstep s
  | hostOrPeerRequest => exact runs_hostOrPeerRequest _ _ _ _ s
  | eligibilityHistogramClock => exact runs_eligibilityHistogramClock _ _ s

theorem Runs.after {s t : State} (h : Keeps s t) {o : Host.Outcome State Fault Refusal} (ho : Runs t o) : Runs s o := by
  obtain ⟨u, hu, k⟩ := ho
  exact ⟨u, hu, h.trans k⟩

theorem runs_issueStep (s : State) : Runs s (issueStep s) := by
  unfold issueStep
  split
  · next hf => exact .next ((Keeps.refl s).firmwareActs hf)
  · have h1 := turn_keeps s
    revert h1
    generalize s.turn = r
    intro h1
    cases r with
    | idle => exact .next (.refl s)
    | done t => exact .next h1
    | run i t => exact (exec_runs i t).after h1

theorem step_runs (s : State) : Runs s (step s) := by
  unfold step
  split
  · exact runs_issueStep s
  · next t rest _ =>
    have h0 : Keeps s { s with agenda := rest } := ⟨id, id⟩
    have h1 := h0.pass t.dt
    dsimp only
    split
    · exact (runs_issueStep _).after (h1.withCur _)
    · exact .ite ((exec_runs _ _).after h1) (.next h1)
    · exact .next (h1.setCap _)

/-- Settles O57: every operation of the machine keeps the form, so every step does. -/
theorem stepKeepsForm : Obligations.StepKeepsForm := by
  unfold Obligations.StepKeepsForm
  intro s hs
  obtain ⟨t, ht, hk⟩ := step_runs s
  exact ⟨t, ht, hk.form hs⟩

/-- Settles O58: every operation of the machine keeps the numbers apart, so every step does. -/
theorem stepKeepsNumbers : Obligations.StepKeepsNumbers := by
  unfold Obligations.StepKeepsNumbers
  intro s hs
  obtain ⟨t, ht, hk⟩ := step_runs s
  exact ⟨t, ht, hk.numbers hs⟩

end Sys2Proof.Machine
end


section
/-! # O52: the debug unit and the accounting (R422 to R436) -/

namespace Sys2Proof.Machine

/-! ## One partition changed twice -/

theorem State.modPart_modPart (s : State) {p : Nat} (hp : p < 8) (f g : Partition → Partition) :
    (s.modPart p f).modPart p g = s.modPart p (fun d => g (f d)) := by
  have hget : vget (vmod s.parts p Partition.reset f) p Partition.reset = f (s.part p) := by
    rw [vget_vmod _ _ _ _ hp, if_pos rfl]
    rfl
  show { s with parts := vset (vmod s.parts p Partition.reset f) p (g (vget (vmod s.parts p Partition.reset f) p Partition.reset)) } = _
  rw [hget]
  unfold vmod
  rw [vset_vset]
  rfl

/-- What is done to a partition depends on it alone. -/
theorem State.modPart_congr (s : State) (p : Nat) {f g : Partition → Partition} (h : f (s.part p) = g (s.part p)) :
    s.modPart p f = s.modPart p g :=
  congrArg (fun x => { s with parts := vset s.parts p x }) h

/-! ## `DBGCTL` (R426, R430) -/

/-- The bits of the value that `HALTREQ` and `RELEASE` write: those of the register as it stands, and their own. -/
theorem dbgctl_bits (s : State) (p : Nat) {bit : Nat} (hb : bit = 8 ∨ bit = 16) :
    (BitVec.ofNat 32 (s.dbgctlWith p bit)).extractLsb' 16 16 = (s.part p).sampl ∧
    (BitVec.ofNat 32 (s.dbgctlWith p bit)).getLsbD 1 = (s.part p).btrace ∧
    (BitVec.ofNat 32 (s.dbgctlWith p bit)).getLsbD 0 = (s.part p).arm ∧
    (BitVec.ofNat 32 (s.dbgctlWith p bit)).getLsbD 4 = decide (bit = 16) ∧
    (BitVec.ofNat 32 (s.dbgctlWith p bit)).getLsbD 3 = decide (bit = 8) := by
  have hlt := (s.part p).sampl.isLt
  have ha := Bool.toNat_le (s.part p).arm
  have ht := Bool.toNat_le (s.part p).btrace
  have hval : s.dbgctlWith p bit = (s.part p).arm.toNat + (s.part p).btrace.toNat * 2 + (s.part p).sampl.toNat * 2 ^ 16 + bit := rfl
  have hnat : (BitVec.ofNat 32 (s.dbgctlWith p bit)).toNat = s.dbgctlWith p bit := by
    rw [BitVec.toNat_ofNat, Nat.mod_eq_of_lt]
    omega
  have hbit (k : Nat) : (BitVec.ofNat 32 (s.dbgctlWith p bit)).getLsbD k = decide (s.dbgctlWith p bit / 2 ^ k % 2 = 1) := by
    rw [BitVec.getLsbD, hnat, Nat.testBit_eq_decide_div_mod_eq]
  refine ⟨?_, ?_, ?_, ?_, ?_⟩
  · refine BitVec.eq_of_toNat_eq ?_
    rw [BitVec.extractLsb'_toNat, hnat, hval, Nat.shiftRight_eq_div_pow]
    omega
  · rw [hbit, hval]
    cases (s.part p).btrace <;> simp only [Bool.toNat_false, Bool.toNat_true, decide_eq_true_eq, decide_eq_false_iff_not] <;> omega
  · rw [hbit, hval]
    cases (s.part p).arm <;> simp only [Bool.toNat_false, Bool.toNat_true, decide_eq_true_eq, decide_eq_false_iff_not] <;> omega
  · rw [hbit, hval]
    exact decide_eq_decide.2 (by omega)
  · rw [hbit, hval]
    exact decide_eq_decide.2 (by omega)

/-- A write of `DBGCTL` that leaves its own bits as they stand. -/
theorem State.setDbgctl_with (s : State) {p : Nat} (hp : p < 8) {bit : Nat} (hb : bit = 8 ∨ bit = 16) :
    s.setDbgctl p (BitVec.ofNat 32 (s.dbgctlWith p bit)) = if bit = 16 then s.release p else s.haltRequest p := by
  obtain ⟨hsampl, hbt, harm, h4, h3⟩ := dbgctl_bits s p hb
  have hkeep : (s.modPart p fun d => { d with sampl := (s.part p).sampl, btrace := (s.part p).btrace, arm := (s.part p).arm }) = s := by
    refine (s.modPart_congr p (g := id) rfl).trans ?_
    show { s with parts := vset s.parts p (vget s.parts p Partition.reset) } = s
    rw [vset_vget _ _ _ hp]
  unfold State.setDbgctl
  dsimp only
  rw [hsampl, hbt, harm, h4, h3, hkeep]
  rcases hb with rfl | rfl <;> rfl

section Windows

variable {s : State} {who : Requester} {p : BitVec 3}

theorem exec_haltreq (ho : Claims.owned s who) : exec (.haltreq who p) s = .next (s.haltRequest p.toNat) := by
  have hat := regAt_part (rel := 0x100) p.isLt (by decide)
  refine (writeAt_owned ho (by omega) (hat.trans rfl) rfl _).trans ?_
  exact congrArg Host.Outcome.next (State.setDbgctl_with s p.isLt (bit := 8) (.inl rfl))

theorem exec_release (ho : Claims.owned s who) : exec (.release who p) s = .next (s.release p.toNat) := by
  have hat := regAt_part (rel := 0x100) p.isLt (by decide)
  refine (writeAt_owned ho (by omega) (hat.trans rfl) rfl _).trans ?_
  exact congrArg Host.Outcome.next (State.setDbgctl_with s p.isLt (bit := 16) (.inr rfl))

theorem exec_dbgsel (ho : Claims.owned s who) (v : Word64) : exec (.dbgselWrite who p v) s = .next (s.setDbgsel p.toNat v) := by
  have hat := regAt_part (rel := 0x1A0) p.isLt (by decide)
  refine (writeAt_owned ho (by omega) (hat.trans rfl) rfl _).trans ?_
  show Host.Outcome.next (s.setDbgsel p.toNat (BitVec.ofNat 64 v.toNat)) = _
  rw [ofNat_word64]

end Windows

/-! ## `RELEASE` (R430, R432, R434) -/

theorem State.resumeCallers_none {s : State} (h : ∀ g ∈ s.groups, g.calling = none) : s.resumeCallers = s := by
  have hmap : s.groups.map (fun g => if s.haltReached g then g else g.resumeIfDone) = s.groups := by
    conv_rhs => rw [← List.map_id s.groups]
    refine List.map_congr_left fun g hg => ?_
    have hdone : g.resumeIfDone = g := by
      unfold Group.resumeIfDone
      rw [h g hg]
      split
      · next hc => cases hc
      · rfl
    rw [hdone, ite_self]
    rfl
  unfold State.resumeCallers
  rw [hmap]

theorem mem_teamsIn (s : State) (p i : Nat) : i ∈ (s.teams.filter (fun t => s.partOf t == p)).map (fun (t : Team) => t.id) ↔
    ∃ t ∈ s.teams, t.id = i ∧ s.partOf t = p := by
  simp only [List.mem_map, List.mem_filter, beq_iff_eq]
  constructor
  · rintro ⟨t, ⟨ht, hp⟩, hi⟩
    exact ⟨t, ht, hi, hp⟩
  · rintro ⟨t, ht, hi, hp⟩
    exact ⟨t, ⟨ht, hp⟩, hi⟩

/-- A group of a released context: its event, and it goes on. -/
theorem released_eq {ids : List Nat} (test : Nat → Bool) {g : Group} (h : test g.team = true ↔ g.team ∈ ids) (g1 : Group)
    (h1 : g1 = if g.core ≠ none ∧ g.team ∈ ids then { g with evpend := g.evpend ||| 8 } else g) :
    (if test g1.team then { g1 with stopped := false } else g1) = if g.team ∈ ids then
      { g with stopped := false, evpend := if g.core = none then g.evpend else g.evpend ||| 8 } else g := by
  by_cases hm : g.team ∈ ids
  · have ht := h.2 hm
    by_cases hc : g.core = none
    · rw [if_neg (fun hb => hb.1 hc)] at h1
      rw [h1, if_pos ht, if_pos hm, if_pos hc]
    · rw [if_pos ⟨hc, hm⟩] at h1
      rw [h1, if_pos ht, if_pos hm, if_neg hc]
  · rw [if_neg (fun hb => hm hb.2)] at h1
    rw [h1, if_neg (mt h.1 hm), if_neg hm]

theorem State.release_eq {s : State} (p : Nat) (h : ∀ g ∈ s.groups, g.calling = none) : s.release p =
    { s.modPart p (fun d => { d with halted := false, hits := [], status := 0, trig := [], dbgsel := d.dbgsel &&& 0xFFFF }) with
      groups := s.groups.map (fun g => if ∃ t ∈ s.teams, t.id = g.team ∧ s.partOf t = p then
        { g with stopped := false, evpend := if g.core = none then g.evpend else g.evpend ||| 8 } else g)
      teams := s.teams.map (fun t => if t.core = none ∧ ∃ u ∈ s.teams, u.id = t.id ∧ s.partOf u = p then
        { t with evpend := t.evpend ||| 8 } else t) } := by
  unfold State.release
  dsimp only
  have hevents : (s.teams.filter fun t => s.partOf t == p).foldl (fun s t => s.setEvents t.id 8) s =
      ((s.teams.filter (fun t => s.partOf t == p)).map (fun (t : Team) => t.id)).foldl (fun s i => s.setEvents i 8) s := by
    rw [List.foldl_map]
  rw [hevents, State.setEvents_all]
  have hgroups : (s.groups.map fun g => if g.core ≠ none ∧
        g.team ∈ (s.teams.filter (fun t => s.partOf t == p)).map (fun (t : Team) => t.id) then
        { g with evpend := g.evpend ||| 8 } else g).map (fun g =>
      if (s.teams.filter fun t => s.partOf t == p).any (fun t => t.id == g.team) then { g with stopped := false } else g) =
      s.groups.map (fun g => if ∃ t ∈ s.teams, t.id = g.team ∧ s.partOf t = p then
        { g with stopped := false, evpend := if g.core = none then g.evpend else g.evpend ||| 8 } else g) := by
    rw [List.map_map]
    refine List.map_congr_left fun g _ => ?_
    refine (released_eq (fun i => (s.teams.filter fun t => s.partOf t == p).any (fun t => t.id == i)) ?_ _ rfl).trans (if_congr (mem_teamsIn s p g.team) rfl rfl)
    simp only [List.any_eq_true, beq_iff_eq, List.mem_map]
  have hteams : (s.teams.map fun t => if t.core = none ∧
        t.id ∈ (s.teams.filter (fun t => s.partOf t == p)).map (fun (t : Team) => t.id) then
        { t with evpend := t.evpend ||| 8 } else t) =
      s.teams.map (fun t => if t.core = none ∧ ∃ u ∈ s.teams, u.id = t.id ∧ s.partOf u = p then
        { t with evpend := t.evpend ||| 8 } else t) :=
    List.map_congr_left fun t _ => if_congr (and_congr_right fun _ => mem_teamsIn s p t.id) rfl rfl
  refine (State.resumeCallers_none ?_).trans ?_
  · intro g hg
    dsimp only [State.modPart] at hg
    rw [hgroups] at hg
    obtain ⟨g0, hg0, rfl⟩ := List.mem_map.1 hg
    split
    · exact h g0 hg0
    · exact h g0 hg0
  · dsimp only [State.modPart]
    rw [hgroups, hteams]

/-! ## `DBGSEL` (R432) -/

theorem State.dumpGroup_isSome (s : State) (p : Nat) : (s.dumpGroup p).isSome = true ↔
    ∃ g ∈ s.groups, s.gidOf g = (s.part p).dbgsel.extractLsb' 0 16 ∧ (s.accessor g).part = p := by
  have hmem (g : Group) : g ∈ s.groups.filter (fun g => s.gidOf g == (s.part p).dbgsel.extractLsb' 0 16 &&
      (s.accessor g).part == p) ↔ g ∈ s.groups ∧ s.gidOf g = (s.part p).dbgsel.extractLsb' 0 16 ∧ (s.accessor g).part = p := by
    simp
  unfold State.dumpGroup
  dsimp only
  generalize hl : s.groups.filter (fun g => s.gidOf g == (s.part p).dbgsel.extractLsb' 0 16 && (s.accessor g).part == p) = l at hmem
  have hex : (∃ g ∈ s.groups, s.gidOf g = (s.part p).dbgsel.extractLsb' 0 16 ∧ (s.accessor g).part = p) ↔ ∃ g, g ∈ l :=
    ⟨fun ⟨g, hg, h⟩ => ⟨g, (hmem g).2 ⟨hg, h⟩⟩, fun ⟨g, hg⟩ => ⟨g, (hmem g).1 hg⟩⟩
  rw [hex]
  cases hf : l.find? (fun g => g.core.isSome) with
  | some g => exact iff_of_true rfl ⟨g, List.mem_of_find?_eq_some hf⟩
  | none =>
    cases l with
    | nil => simp
    | cons g l => exact iff_of_true rfl ⟨g, List.mem_cons_self⟩

/-- The value and the status that a write of `DBGSEL` leaves. -/
theorem State.setDbgsel_eq (s : State) {p : Nat} (hp : p < 8) (v : Word64) : ∃ st : BitVec 2,
    s.setDbgsel p v = s.modPart p (fun d => { d with
      dbgsel := BitVec.ofNat 64 (v.toNat % (if d.halted = true then 2 ^ 17 else 2 ^ 16)), status := st }) ∧
    (v.getLsbD 16 = false ∨ (s.part p).halted = false → st = 0) ∧
    (v.getLsbD 16 = true → (s.part p).halted = true → st = if ∃ g ∈ s.groups,
      s.gidOf g = v.extractLsb' 0 16 ∧ (s.accessor g).part = p then 1 else 2) := by
  have hlow : (BitVec.ofNat 64 (v.toNat % 2 ^ 17) &&& 0xFFFF : Word64) = BitVec.ofNat 64 (v.toNat % 2 ^ 16) := by
    refine BitVec.eq_of_toNat_eq ?_
    rw [BitVec.toNat_and, BitVec.toNat_ofNat, BitVec.toNat_ofNat]
    show _ &&& (2 ^ 16 - 1) = _
    rw [Nat.and_two_pow_sub_one_eq_mod]
    omega
  have hsel (d : Partition) : (if d.halted then BitVec.ofNat 64 (bitsN v 16 0) else BitVec.ofNat 64 (bitsN v 16 0) &&& 0xFFFF) =
      BitVec.ofNat 64 (v.toNat % (if d.halted = true then 2 ^ 17 else 2 ^ 16)) := by
    rw [bitsN_low]
    cases d.halted with
    | false => exact hlow
    | true => rfl
  unfold State.setDbgsel
  dsimp only
  simp only [hsel]
  by_cases hgo : (v.getLsbD 16 && (s.part p).halted) = true
  · rw [if_pos hgo]
    obtain ⟨hv, hh⟩ := Bool.and_eq_true_iff.1 hgo
    refine ⟨_, State.modPart_modPart s hp _ _, fun hno => ?_, fun _ _ => ?_⟩
    · rcases hno with h | h
      · rw [hv] at h
        exact Bool.noConfusion h
      · rw [hh] at h
        exact Bool.noConfusion h
    · refine if_congr ((State.dumpGroup_isSome _ p).trans ?_) rfl rfl
      rw [State.part_modPart s hp, if_pos rfl]
      dsimp only
      rw [hh, if_pos rfl]
      have hgid : (BitVec.ofNat 64 (v.toNat % 2 ^ 17)).extractLsb' 0 16 = v.extractLsb' 0 16 := by
        refine BitVec.eq_of_toNat_eq ?_
        rw [BitVec.extractLsb'_toNat, BitVec.extractLsb'_toNat, BitVec.toNat_ofNat, Nat.shiftRight_zero, Nat.shiftRight_zero]
        omega
      rw [hgid]
      rfl
  · rw [if_neg hgo]
    refine ⟨0, rfl, fun _ => rfl, fun hv hh => absurd ?_ hgo⟩
    rw [hv, hh]
    rfl

/-! ## `TRACE_SAMPLE` (R436) -/

/-- The oldest of some groups, where one is older than every other. -/
theorem oldestOf_eq {l : List Group} {g : Group} (hg : g ∈ l) (h : ∀ q ∈ l, q ≠ g → g.created.toNat < q.created.toNat) :
    oldestOf l = some g := by
  have hgen (l : List Group) (b : Option Group) (hb : ∀ x, b = some x → x ≠ g → g.created.toNat < x.created.toNat)
      (hin : b = some g ∨ g ∈ l) (h : ∀ q ∈ l, q ≠ g → g.created.toNat < q.created.toNat) :
      l.foldl (fun b g => match b with
        | none => some g
        | some x => if g.created.toNat < x.created.toNat then some g else some x) b = some g := by
    induction l generalizing b with
    | nil => exact hin.resolve_right (by simp)
    | cons q l ih =>
      have hq := h q List.mem_cons_self
      have hl : ∀ r ∈ l, r ≠ g → g.created.toNat < r.created.toNat := fun r hr => h r (List.mem_cons_of_mem _ hr)
      rw [List.foldl_cons]
      refine ih _ ?_ ?_ hl
      · intro x hx hne
        cases b with
        | none =>
          rw [← Option.some.inj hx] at hne ⊢
          exact hq hne
        | some y =>
          dsimp only at hx
          split at hx
          · rw [← Option.some.inj hx] at hne ⊢
            exact hq hne
          · rw [← Option.some.inj hx] at hne ⊢
            exact hb y rfl hne
      · rcases hin with rfl | hin
        · left
          dsimp only
          by_cases hqg : q = g
          · rw [hqg, ite_self]
          · rw [if_neg (by have := hq hqg; omega)]
        · rcases List.mem_cons.1 hin with rfl | hin
          · cases b with
            | none => exact .inl rfl
            | some y =>
              left
              dsimp only
              by_cases hyg : y = g
              · rw [hyg, ite_self]
              · rw [if_pos (hb y rfl hyg)]
          · exact .inr hin
  exact hgen l none (fun x hx => by cases hx) (.inr hg) h

theorem mem_quadGroups (s : State) (c q : Nat) (g : Group) :
    g ∈ s.quadGroups c q ↔ g ∈ s.groups ∧ g.core = some c ∧ g.slot / 32 = q := by
  simp only [State.quadGroups, State.onCore, List.mem_filter, beq_iff_eq, and_assoc]

theorem toNat_append_add {m n : Nat} (x : BitVec m) (y : BitVec n) : (x ++ y).toNat = x.toNat * 2 ^ n + y.toNat := by
  rw [BitVec.toNat_append, ← Nat.shiftLeft_add_eq_or_of_lt y.isLt, Nat.shiftLeft_eq]

/-- A trace record as a number. -/
theorem traceRec_toNat (time : Word64) (seq : BitVec 48) (gid : BitVec 16) (id : Word32) :
    (traceRec time seq gid id 2).toNat =
      time.toNat * 2 ^ 192 + seq.toNat * 2 ^ 144 + gid.toNat * 2 ^ 128 + id.toNat * 2 ^ 96 + 2 * 2 ^ 88 := by
  unfold traceRec
  simp only [toNat_append_add]
  have hkind : (BitVec.ofNat 8 2).toNat = 2 := rfl
  have hzero : (0#88).toNat = 0 := rfl
  rw [hkind, hzero]
  omega

theorem haltRec_toNat (time : Word64) : (haltRec time).toNat =
    time.toNat * 2 ^ 192 + 0xFFFF * 2 ^ 128 + 0xFFFF_FFFF * 2 ^ 96 + 5 * 2 ^ 80 := by
  have h0 : (0#48).toNat = 0 := rfl
  have h1 : (0xFFFF#16).toNat = 0xFFFF := rfl
  have h2 : (0xFFFF_FFFF#32).toNat = 0xFFFF_FFFF := rfl
  have h3 : (0#8).toNat = 0 := rfl
  have h4 : (5#8).toNat = 5 := rfl
  have h5 : (0#80).toNat = 0 := rfl
  unfold haltRec
  simp only [toNat_append_add]
  rw [h0, h1, h2, h3, h4, h5]
  omega

theorem State.trace_ringed {s : State} {p : Nat} (h : (s.part p).trsizel ≠ 0) (r : BitVec 256) : s.trace p r =
    (s.writeNat ((s.part p).trbase.toNat + 32 * ((s.part p).trhead.toNat % 2 ^ (s.part p).trsizel.toNat)) 32 r.toNat).modPart p
      (fun p => { p with trhead := p.trhead + 1 }) := if_neg h

/-- A core whose eligible groups a clock has counted (R422, R423). -/
def Core.tallied (k : Core) (q e : Nat) (l : List Group) : Core :=
  let code := match oldestOf l with | none => 0 | some g => g.stallCode
  { k with
    hist := vmod k.hist q (Vector.replicate 33 0) (fun h => vmod h e 0 (· + 1))
    stall := if e = 0 then vmod k.stall q (Vector.replicate 15 0) (fun h => vmod h code 0 (· + 1)) else k.stall }

theorem mem_trace_groups (s : State) (p : Nat) (r : BitVec 256) : (s.trace p r).groups = s.groups := by
  unfold State.trace
  dsimp only
  split <;> rfl

/-- The oldest group that has issued is recorded, and every group of the quadrant waits for its next issue (R436). -/
theorem exec_traceSample {s : State} {c : Nat} {quad : BitVec 2} (hpart : (s.core c).part.toNat < 8)
    (hsampl : (s.part (s.core c).part.toNat).sampl ≠ 0)
    (hdue : 2 ^ (s.part (s.core c).part.toNat).sampl.toNat ≤ s.clocksSince (vget (s.core c).sampled quad.toNat 0)) {g : Group}
    (hg : oldestOf ((s.quadGroups c quad.toNat).filter (fun g => !g.sampled)) = some g) :
    exec (.traceSample c quad) s = .next { (s.modCore c (fun k => { k with sampled := vset k.sampled quad.toNat s.time })).trace
        (s.core c).part.toNat (traceRec s.time (vget (s.core c).slotSeq g.slot 0) g.gid16 g.lastsp 2) with
      groups := s.groups.map (fun g =>
        if (s.quadGroups c quad.toNat).any (fun k => k.id == g.id) then { g with sampled := true } else g) } := by
  have hgo : (decide (8 ≤ (s.core c).part.toNat) || decide ((s.part (s.core c).part.toNat).sampl = 0) ||
      decide (s.clocksSince (vget (s.core c).sampled quad.toNat 0) < 2 ^ (s.part (s.core c).part.toNat).sampl.toNat)) = false := by
    simp only [Bool.or_eq_false_iff, decide_eq_false_iff_not, not_le, not_lt]
    exact ⟨⟨hpart, hsampl⟩, hdue⟩
  show execTraceSample c quad s = _
  unfold execTraceSample
  dsimp only
  rw [hgo, if_neg Bool.false_ne_true, hg]
  dsimp only
  rw [mem_trace_groups]
  rfl

/-- Settles O52. -/
theorem debugEvents : Obligations.DebugEvents := by
  refine ⟨?_, ?_, ?_, ?_, ?_, ?_, ?_⟩
  · intro s who p ho hroom
    refine ⟨haltRec s.time, ?_, ?_, ?_, ?_, ?_⟩
    · refine BitVec.eq_of_toNat_eq ?_
      rw [BitVec.extractLsb'_toNat, haltRec_toNat, Nat.shiftRight_eq_div_pow]
      have := s.time.isLt
      omega
    · refine BitVec.eq_of_toNat_eq ?_
      rw [BitVec.extractLsb'_toNat, haltRec_toNat, Nat.shiftRight_eq_div_pow]
      show _ = 0xFFFF
      omega
    · refine BitVec.eq_of_toNat_eq ?_
      rw [BitVec.extractLsb'_toNat, haltRec_toNat, Nat.shiftRight_eq_div_pow]
      show _ = 0xFFFF_FFFF
      omega
    · refine BitVec.eq_of_toNat_eq ?_
      rw [BitVec.extractLsb'_toNat, haltRec_toNat, Nat.shiftRight_eq_div_pow]
      show _ = 5
      omega
    · rw [exec_haltreq ho]
      refine congrArg Host.Outcome.next ?_
      unfold State.haltRequest State.hit
      refine State.modPart_congr s p.toNat ?_
      rw [if_pos hroom, decide_eq_true hroom, Bool.true_or, if_pos rfl]
      rfl
  · intro s c
    have hne : (fun x : Nat => x != c) = fun x => decide (x ≠ c) := by
      funext x
      by_cases h : x = c <;> simp [h]
    show execCrossTriggerArrive c s = _
    unfold execCrossTriggerArrive
    rw [hne]
  · intro s who p ho hnone
    rw [exec_release ho, State.release_eq _ hnone]
  · intro s who p v ho
    obtain ⟨st, hst, hrest⟩ := State.setDbgsel_eq s p.isLt v
    exact ⟨st, by rw [exec_dbgsel ho, hst], hrest⟩
  · intro s c quad g p rec hc hpart hp hsampl hring hdue hg hcore hslot hfresh hold hrec
    subst hpart
    have hmem : g ∈ (s.quadGroups c quad.toNat).filter (fun g => !g.sampled) := by
      rw [List.mem_filter, mem_quadGroups]
      exact ⟨⟨hg, hcore, hslot⟩, by rw [hfresh]; rfl⟩
    have holdest := oldestOf_eq hmem fun q hq hne => by
      rw [List.mem_filter, mem_quadGroups] at hq
      obtain ⟨⟨hq, hqc, hqs⟩, hqf⟩ := hq
      exact hold q hq hqc hqs (by simpa using hqf) hne
    rw [exec_traceSample hp hsampl hdue holdest]
    have htr : ((s.modCore c (fun k => { k with sampled := vset k.sampled quad.toNat s.time })).part
        (s.core c).part.toNat).trsizel ≠ 0 := by
      show (s.part (s.core c).part.toNat).trsizel ≠ 0
      intro h0
      rw [h0] at hring
      exact absurd hring (by decide)
    rw [State.trace_ringed htr, traceRec_toNat, ← hrec]
    refine ⟨_, rfl, rfl, ?_, ?_, ?_⟩
    · show vget ((s.modCore c (fun k => { k with sampled := vset k.sampled quad.toNat s.time })).core c).sampled quad.toNat 0 = _
      rw [State.core_modCore s hc, if_pos rfl, vget_vset _ _ _ _ quad.isLt, if_pos rfl]
    · show (State.part (State.modPart _ _ _) _).trhead = _
      rw [State.part_modPart _ hp, if_pos rfl]
      rfl
    · intro q hq hqc hqs hex
      obtain ⟨q0, hq0, rfl⟩ := List.mem_map.1 hq
      obtain ⟨q', hq', hid, hqc', hqs'⟩ := hex
      have hid' : q'.id = q0.id := by
        rw [hid]
        split <;> rfl
      rw [if_pos]
      exact List.any_eq_true.2 ⟨q', (mem_quadGroups s c quad.toNat q').2 ⟨hq', hqc', hqs'⟩, by rw [hid']; exact beq_self_eq_true _⟩
  · intro s c p quad hpart hp hno
    subst hpart
    show execTraceSample c quad s = _
    unfold execTraceSample
    dsimp only
    rw [if_pos]
    simp only [Bool.or_eq_true, decide_eq_true_eq]
    rcases hno with h | h
    · exact .inl (.inr h)
    · exact .inr h
  · intro s c quad e hc hfrz he hlt
    have hcount : ((s.quadGroups c quad.toNat).filter s.eligible).length = e := by
      rw [he, State.quadGroups, State.onCore, List.filter_filter, List.filter_filter]
      congr 2
      funext g
      ac_rfl
    refine ⟨(s.core c).tallied quad.toNat e (s.quadGroups c quad.toNat), ?_, rfl, ?_, ?_, ?_⟩
    · show execEligibilityHistogramClock c quad s = _
      unfold execEligibilityHistogramClock
      dsimp only
      rw [hcount, hfrz, if_neg Bool.false_ne_true]
      rfl
    · intro q hq b hb
      show vget (vget (vmod (s.core c).hist quad.toNat (Vector.replicate 33 0) (fun h => vmod h e 0 (· + 1))) q _) b 0 = _
      rw [vget_vmod _ _ _ _ quad.isLt]
      by_cases hqq : q = quad.toNat
      · subst hqq
        rw [if_pos rfl, vget_vmod _ _ _ _ hlt]
        by_cases hbe : b = e
        · rw [if_pos hbe, if_pos ⟨rfl, hbe⟩, hbe]
        · rw [if_neg hbe, if_neg (fun h => hbe h.2), add_zero]
      · rw [if_neg hqq, if_neg (fun h => hqq h.1), add_zero]
    · intro hne
      exact if_neg hne
    · intro hnone q hq r hr
      have hempty : s.quadGroups c quad.toNat = [] :=
        List.eq_nil_iff_forall_not_mem.2 fun g hg => by
          obtain ⟨hg, hgc, hgs⟩ := (mem_quadGroups s c quad.toNat g).1 hg
          exact hnone g hg hgc hgs
      have hzero : e = 0 := by
        rw [← hcount, hempty]
        rfl
      rw [hempty]
      show vget (vget (if e = 0 then vmod (s.core c).stall quad.toNat (Vector.replicate 15 0) (fun h => vmod h 0 0 (· + 1))
        else (s.core c).stall) q _) r 0 = _
      rw [if_pos hzero, vget_vmod _ _ _ _ quad.isLt]
      by_cases hqq : q = quad.toNat
      · subst hqq
        rw [if_pos rfl, vget_vmod _ _ _ _ (by decide)]
        by_cases hr0 : r = 0
        · rw [if_pos hr0, if_pos ⟨rfl, hr0⟩, hr0]
        · rw [if_neg hr0, if_neg (fun h => hr0 h.2), add_zero]
      · rw [if_neg hqq, if_neg (fun h => hqq h.1), add_zero]

end Sys2Proof.Machine

end


section
/-! # O47: outstanding results, lines and `TLBINV` complete -/

namespace Sys2Proof.Machine

/-! ## Changing one undelivered result -/

theorem allPend_getElem {g : Group} {k : Nat} {l : Long} (h : g.pend[k]? = some l) : g.allPend[k]? = some l := by
  have hlt : k < g.pend.length := (List.getElem?_eq_some_iff.1 h).1
  unfold Group.allPend
  rw [List.getElem?_append_left (by simp only [List.length_append]; omega),
    List.getElem?_append_left (by simp only [List.length_append]; omega), List.getElem?_append_left hlt, h]

theorem modLong_frame (g : Group) (id : Nat) (f : Long → Long) : g.modLong id f =
    { g with pend := (g.modLong id f).pend, hset := (g.modLong id f).hset, sset := (g.modLong id f).sset,
             folds := (g.modLong id f).folds } := rfl

theorem modLong_pend (g : Group) (id : Nat) (f : Long → Long) :
    (g.modLong id f).pend = g.pend.map (fun q => if q.id == id then f q else q) := rfl

/-! ## A group set twice -/

theorem State.setGroup_same {s : State} {g : Group} (h : ∀ k ∈ s.groups, k.id = g.id → k = g) : s.setGroup g = s := by
  have hmap : s.groups.map (fun k => if k.id == g.id then g else k) = s.groups := by
    conv_rhs => rw [← List.map_id s.groups]
    refine List.map_congr_left fun k hk => ?_
    by_cases hid : k.id = g.id
    · simp [hid, h k hk hid]
    · simp [hid]
  unfold State.setGroup
  rw [hmap]

theorem mem_setGroup {s : State} {g k : Group} (hk : k ∈ (s.setGroup g).groups) (hid : k.id = g.id) : k = g := by
  obtain ⟨k0, -, rfl⟩ := List.mem_map.1 hk
  split
  · rfl
  · next hne =>
    rw [if_neg hne] at hid
    exact absurd (by simpa using hid) hne

theorem State.lookUpAll_groups (s : State) (g : Group) (l : List Word64) : (s.lookUpAll g l).groups = s.groups := by
  obtain ⟨cs, ds, n, h⟩ := s.lookUpAll_spec g l
  rw [h]

/-- Accesses of a group in a context without armed watchpoints are look-ups alone. -/
theorem State.accessed_unarmed {s : State} {g : Group} (h : (s.part (s.accessor g).part).arm = false) {ts : List Touch}
    (ht : ts ≠ []) : s.accessed g ts = s.lookUpAll g (ts.map (fun t => t.va)) := by
  obtain ⟨cs, ds, n, hl⟩ := s.lookUpAll_spec g (ts.map (fun t => t.va))
  have hne : ts.isEmpty = false := by simpa using ht
  unfold State.accessed
  rw [hne, if_neg Bool.false_ne_true]
  unfold State.watch
  rw [hl]
  have harm : (State.part { s with cores := cs, dies := ds, freeCtr := n }
      (State.accessor { s with cores := cs, dies := ds, freeCtr := n } g).part).arm = false := h
  exact if_neg (by rw [harm]; exact Bool.false_ne_true)

/-! ## A waiting lane reads -/

/-- A lane that may read its line (R266). -/
theorem laneReady_true {s : State} {g : Group} {l : Long} {w : WaitLane} {loc : Nat}
    (hfull : isScr loc = true → s.isFull loc = true ∨ ∃ n, w.fill = some n ∧ tally (lineOf loc) s.fills ≠ n)
    (hnone : ∀ q ∈ g.allPend, q.id < l.id → ∀ j, q.load = some j → ∀ x ∈ j.lanes, lineOf x.loc ≠ lineOf loc) :
    s.laneReady g l w loc = true := by
  have hwait : g.waitsOn loc l.id = false := by
    unfold Group.waitsOn
    rw [List.any_eq_false]
    rintro q hq hw
    obtain ⟨hlt, hw⟩ := Bool.and_eq_true_iff.1 hw
    cases hload : q.load with
    | none => simp [hload] at hw
    | some j =>
      rw [hload] at hw
      dsimp only at hw
      obtain ⟨x, hx, hline⟩ := List.any_eq_true.1 hw
      exact hnone q hq (of_decide_eq_true hlt) j hload x hx (by simpa using hline)
  unfold State.laneReady
  rw [hwait, Bool.not_false, Bool.true_and]
  cases hs : isScr loc with
  | false => rfl
  | true =>
    rcases hfull hs with h | ⟨n, hn, hne⟩
    · cases hf : w.fill with
      | none => simpa using h
      | some n => simp [State.lineReady, h]
    · rw [hn]
      simp [State.lineReady, hne]

theorem poisonAt_clean {s : State} (h : s.poison = []) (x : Access) (n : Nat) : s.poisonAt x n = none := by
  unfold State.poisonAt State.poisonIn
  rw [h]
  split <;> rfl

/-- What a lane that reads leaves of its result (R263, R266). -/
def Long.reads (l : Long) (g : Group) (lane : BitVec 6) (v : Code) : Long :=
  match l.load with
  | some i => { l.fill i g lane v with poison := l.poison ++ [] }
  | none => l

/-- A lane reads its line, which holds no poison: its value goes to its result, and the address has been looked up. -/
theorem State.readLane_clean {s : State} {g : Group} {l : Long} {lane : BitVec 6} {i : LoadInfo} {w : WaitLane} {loc : Nat}
    (hg : s.group? g.id = some g) (hload : l.load = some i) (hw : i.lanes.find? (fun x => x.lane == lane) = some w)
    (hplace : s.place (s.accessor g) .read w.va = .ok (.mem loc)) (hready : s.laneReady g l w loc = true)
    (hp : s.poison = []) (harm : (s.part (s.accessor g).part).arm = false) :
    s.readLane g l lane = some
      ((s.setGroup (g.modLong l.id (fun q => q.reads g lane (loadCode i.ty i.dst (s.readNat loc (i.ty.width / 8)))))).lookUpAll
        (g.modLong l.id (fun q => q.reads g lane (loadCode i.ty i.dst (s.readNat loc (i.ty.width / 8))))) [w.va],
       g.modLong l.id (fun q => q.reads g lane (loadCode i.ty i.dst (s.readNat loc (i.ty.width / 8))))) := by
  generalize hv : loadCode i.ty i.dst (s.readNat loc (i.ty.width / 8)) = v
  unfold State.readLane
  rw [hload]
  dsimp only
  rw [hw]
  dsimp only
  rw [hplace]
  dsimp only
  rw [hready, poisonAt_clean hp, hv]
  simp only [Bool.not_true, Bool.false_eq_true, if_false, Option.isSome_none]
  have hmod : g.modLong l.id (fun l => match l.load with
      | some i => { l.fill i g lane v with poison := l.poison ++ [] }
      | none => l) = g.modLong l.id (fun q => q.reads g lane v) := rfl
  have hbody : some ((s.setGroup (g.modLong l.id (fun q => q.reads g lane v))).accessed
      (g.modLong l.id (fun q => q.reads g lane v)) [⟨w.va, i.ty.width / 8, true, false⟩],
      ((s.setGroup (g.modLong l.id (fun q => q.reads g lane v))).accessed
        (g.modLong l.id (fun q => q.reads g lane v)) [⟨w.va, i.ty.width / 8, true, false⟩]).refresh
        (g.modLong l.id (fun q => q.reads g lane v))) =
      some ((s.setGroup (g.modLong l.id (fun q => q.reads g lane v))).lookUpAll
        (g.modLong l.id (fun q => q.reads g lane v)) [w.va], g.modLong l.id (fun q => q.reads g lane v)) := by
    have hacc : (s.setGroup (g.modLong l.id (fun q => q.reads g lane v))).accessed
        (g.modLong l.id (fun q => q.reads g lane v)) [⟨w.va, i.ty.width / 8, true, false⟩] =
        (s.setGroup (g.modLong l.id (fun q => q.reads g lane v))).lookUpAll (g.modLong l.id (fun q => q.reads g lane v)) [w.va] :=
      State.accessed_unarmed (by exact harm) (by simp)
    have hself : ((s.setGroup (g.modLong l.id (fun q => q.reads g lane v))).lookUpAll
        (g.modLong l.id (fun q => q.reads g lane v)) [w.va]).group? (g.modLong l.id (fun q => q.reads g lane v)).id =
        some (g.modLong l.id (fun q => q.reads g lane v)) := by
      rw [State.group?_congr (State.lookUpAll_groups _ _ _)]
      exact State.group?_setGroup_self (by exact hg)
    rw [hacc, State.refresh, hself]
  exact hbody

theorem exec_emptylineLoadRead {s s' : State} {g g' : Group} {k : Nat} {l : Long} {lane : BitVec 6}
    (hg : s.group? g.id = some g) (hl : g.allPend[k]? = some l) (hrun : s.teamRuns g = true)
    (hread : s.readLane g l lane = some (s', g')) (hsame : s'.setGroup g' = s') :
    exec (.emptylineLoadRead g.id k lane) s = .next s' := by
  show execEmptylineLoadRead g.id k lane s = _
  unfold execEmptylineLoadRead
  rw [hg]
  dsimp only
  rw [hl]
  dsimp only
  rw [hrun, if_pos rfl, hread]
  dsimp only
  rw [hsame]

/-! ## `TLBINV` (R415) -/

theorem selected_iff (scope : TlbScope) (arg : Word64) (issuer : Nat) (e : TlbEntry) :
    e.selected issuer scope arg = true ↔ Claims.picked scope arg issuer e := by
  cases scope with
  | addr =>
    show (e.part == issuer && e.page == (if e.big then arg.toNat / 2 ^ 21 else arg.toNat / 2 ^ 16)) = true ↔
      e.part = issuer ∧ e.page = arg.toNat / 2 ^ (if e.big then 21 else 16)
    cases e.big <;> simp
  | part =>
    show (e.part == arg.toNat % 8) = true ↔ e.part = arg.toNat % 8
    simp
  | all => exact iff_of_true rfl trivial

theorem mem_kept (scope : TlbScope) (arg : Word64) (issuer : Nat) (l : List TlbEntry) (e : TlbEntry) :
    e ∈ l.filter (fun e => !e.selected issuer scope arg) ↔ e ∈ l ∧ ¬ Claims.picked scope arg issuer e := by
  rw [List.mem_filter, ← selected_iff]
  simp

theorem mayRelease_of {s : State} {g : Group} {c : Nat} (hc : g.core = some c)
    (hh : (s.part (s.accessor g).part).halted = false) : s.mayRelease g = true := by
  unfold State.mayRelease State.haltReached
  dsimp only
  rw [hc, hh]
  rfl

/-- Settles O47. -/
theorem resultsReturn : Obligations.ResultsReturn := by
  refine ⟨?_, ?_, ?_, ?_, ?_⟩
  · intro s g k l c hg hc hl hret hkey hchord hload hgate
    have hopen : s.gateOpen g l.gate = true := by
      unfold State.gateOpen
      cases hga : l.gate with
      | none => rfl
      | some p =>
        rw [hc]
        exact decide_eq_true (hgate p.1 p.2 hga)
    have hmay : (g.core.isSome && s.mayReturn g l) = true := by
      unfold State.mayReturn
      rw [hc, hret, hload, hopen]
      simp [hkey, hchord]
    refine ⟨g.modLong l.id (fun l => { l with returned := true }), ?_, modLong_frame _ _ _, ?_⟩
    · show execLongResultReturn g.id k s = _
      unfold execLongResultReturn
      rw [hg]
      dsimp only
      rw [allPend_getElem hl]
      dsimp only
      rw [hmay, if_pos rfl]
    · rw [modLong_pend]
      refine List.map_congr_left fun q _ => ?_
      by_cases hid : q.id = l.id <;> simp [hid]
  · intro s g c hg hc hwait hall hh
    have hret : g.allReturned = true := List.all_eq_true.2 fun l hl => (hall l hl).1
    show execSwitchUnpark g.id s = _
    unfold execSwitchUnpark
    rw [hg]
    dsimp only
    rw [hwait, hret, mayRelease_of hc hh]
    refine (if_pos (by simp)).trans ?_
    rw [State.deliver_clean _ fun l hl => (hall l hl).2]
  · intro s g k lane l i w loc c width hg hc hrun hl hload hw hplace hfull hnone hp harm hwidth
    have hready := laneReady_true hfull hnone
    have hread := State.readLane_clean hg hload hw hplace hready hp harm
    have hval : loadCode i.ty i.dst (s.readNat loc (i.ty.width / 8)) =
        Claims.loaded i.ty width (s.readNat loc (i.ty.width / 8)) := by
      rw [hwidth]
      refine loadCode_eq i.ty i.dst (lt_of_lt_of_le (State.readNat_lt s loc _) (Nat.pow_le_pow_right (by decide) ?_))
      exact Nat.mul_div_le _ _
    generalize hv : loadCode i.ty i.dst (s.readNat loc (i.ty.width / 8)) = v at hread hval
    refine ⟨g.modLong l.id (fun q => q.reads g lane v), l.reads g lane v, ?_, modLong_frame _ _ _, ?_, ?_, ?_, ?_⟩
    · refine exec_emptylineLoadRead hg (allPend_getElem hl) hrun hread (State.setGroup_same fun q hq hid => ?_)
      rw [State.lookUpAll_groups] at hq
      exact mem_setGroup hq hid
    · rw [modLong_pend, List.getElem?_map, hl]
      simp
    · unfold Long.reads
      rw [hload]
      rfl
    · unfold Long.reads
      rw [hload]
      exact List.append_nil _
    · unfold Long.reads
      rw [hload, ← hval, hwidth]
      rfl
  · intro s g loc bits hg hrun hh hline hloc hb hpar hpoi
    have hf : s.fetchLine (s.accessor g) (lineAddr g.pc) = Claims.sound (lineAddr g.pc) loc bits := by
      simp [State.fetchLine, hloc, ← hb, hpar, hpoi, Claims.sound]
    have hcan : (s.teamRuns g && g.halted.isNone) = true := by rw [hrun, hh]; rfl
    show execFetchLineReceive g.id s = _
    unfold execFetchLineReceive
    rw [hg]
    dsimp only
    rw [if_pos hcan, State.receive, hline]
    dsimp only
    rw [hf, if_neg (show ¬ (Claims.sound (lineAddr g.pc) loc bits).mismatch = true from Bool.false_ne_true)]
    rfl
  · intro s g scope arg c hg hc hwait hh hcmds hcolls hkts
    have hheld : s.scopeHeld (s.accessor g).part scope arg = false := by
      unfold State.scopeHeld
      simp only [Bool.or_eq_false_iff, List.any_eq_false, List.any_eq_true, not_exists, not_and, Bool.not_eq_true]
      refine ⟨⟨hcmds, hcolls⟩, ?_⟩
      intro t ht k hk
      cases k with
      | none => rfl
      | some k =>
        dsimp only
        rw [List.any_eq_false]
        exact fun p hp => by rw [hkts t ht k hk p hp]; exact Bool.false_ne_true
    refine ⟨s.dropEntries (s.accessor g).part scope arg, ?_, rfl, fun k hk => ?_, fun k hk e => ?_, fun d hd e => ?_⟩
    · show execTlbinvComplete g.id s = _
      unfold execTlbinvComplete
      rw [hg]
      dsimp only
      rw [hwait]
      dsimp only
      rw [mayRelease_of hc hh, hheld]
      rfl
    · have hcore : (s.dropEntries (s.accessor g).part scope arg).core k = _ := vget_map _ _ _ hk
      rw [hcore]
      rfl
    · show e ∈ (vget (s.cores.map _) k Core.reset).tlb ↔ _
      rw [vget_map _ _ _ hk]
      exact mem_kept _ _ _ _ _
    · show e ∈ (vget (s.dies.map _) d Die.reset).tlb ↔ _
      rw [vget_map _ _ _ hd]
      exact mem_kept _ _ _ _ _

end Sys2Proof.Machine

end


section
/-! # O50: launch packets (R113, R115 to R122, R129, R130) -/

namespace Sys2Proof.Machine

/-! ## Queues beside the rest of the machine -/

/-- The machine with other queues. -/
def State.withQueues (s : State) (q : Vector LQueue 64) : State := { s with queues := q }

theorem sameReads_withQueues (s : State) (q : Vector LQueue 64) : SameReads s (s.withQueues q) :=
  ⟨rfl, rfl, rfl, rfl, rfl, rfl, rfl, fun _ => rfl⟩

theorem SameReads.readVa {s t : State} (h : SameReads s t) (a : Accessor) (use : Use) (va : Word64) (n : Nat) :
    t.readVa a use va n = s.readVa a use va n := by
  have hread (loc : Nat) : t.readNat loc n = s.readNat loc n := by
    unfold State.readNat
    rw [h.mem]
  have hpoison (loc : Nat) : t.poisonIn loc n = s.poisonIn loc n := by
    unfold State.poisonIn
    rw [h.poison]
  unfold State.readVa
  simp only [h.locOf, hread, hpoison]

theorem SameReads.checkKernel {s t : State} (h : SameReads s t) (part : Nat) (p : Packet) (word : Option Nat) :
    t.checkKernel part p word = s.checkKernel part p word := by
  unfold State.checkKernel
  simp only [h.readVa, h.codeLine]

theorem SameReads.checkLaunch {s t : State} (h : SameReads s t) (hc : t.cores = s.cores) (part : Nat) (p : Packet)
    (word : Option Nat) : t.checkLaunch part p word = s.checkLaunch part p word := by
  have hcoll : t.checkColl part p = s.checkColl part p := by
    unfold State.checkColl State.collCores
    simp only [h.readVa, hc]
  unfold State.checkLaunch
  rw [h.checkKernel, hcoll]

theorem State.raise_withQueues (s : State) (q : Vector LQueue 64) (m : Nat) :
    (s.withQueues q).raise m = (s.raise m).withQueues q := by
  unfold State.raise
  split <;> rfl

/-- An event of no team is logged alike whatever the queues hold. -/
theorem State.log_withQueues (s : State) (q : Vector LQueue 64) {e : LogEvent} (ht : e.team = none) :
    (s.withQueues q).log e = (s.log e).withQueues q := by
  have hring : (s.withQueues q).ringed e = (s.ringed e).withQueues q := by
    unfold State.ringed
    rw [show (s.withQueues q).die e.die = s.die e.die from rfl]
    split <;> rfl
  rw [State.log_eq, State.log_eq, hring, State.notified, State.notified, ht]
  exact State.raise_withQueues _ _ _

/-- What an event of no team leaves: launches, groups, queues and the time. -/
theorem State.log_frame (s : State) {e : LogEvent} (ht : e.team = none) :
    (s.log e).launches = s.launches ∧ (s.log e).groups = s.groups ∧ (s.log e).queues = s.queues ∧
      (s.log e).time = s.time := by
  have hraise (t : State) (m : Nat) : (t.raise m).launches = t.launches ∧ (t.raise m).groups = t.groups ∧
      (t.raise m).queues = t.queues ∧ (t.raise m).time = t.time := by
    unfold State.raise
    split <;> exact ⟨rfl, rfl, rfl, rfl⟩
  have hring : (s.ringed e).launches = s.launches ∧ (s.ringed e).groups = s.groups ∧ (s.ringed e).queues = s.queues ∧
      (s.ringed e).time = s.time := by
    unfold State.ringed
    split <;> exact ⟨rfl, rfl, rfl, rfl⟩
  obtain ⟨h1, h2, h3, h4⟩ := hraise (s.ringed e) s.owner
  obtain ⟨k1, k2, k3, k4⟩ := hring
  rw [State.log_eq, State.notified, ht]
  exact ⟨h1.trans k1, h2.trans k2, h3.trans k3, h4.trans k4⟩

theorem State.modQueue_modQueue (s : State) {q : Nat} (hq : q < 64) (f g : LQueue → LQueue) :
    (s.modQueue q f).modQueue q g = s.modQueue q (fun _ => g (f (s.queue q))) := by
  have hv : vget (vset s.queues q (f (vget s.queues q LQueue.reset))) q LQueue.reset =
      f (vget s.queues q LQueue.reset) := by rw [vget_vset _ _ _ _ hq, if_pos rfl]
  unfold State.modQueue State.queue vmod
  rw [hv, vset_vset]

theorem State.modQueue_same (s : State) {q : Nat} (hq : q < 64) {f : LQueue → LQueue} (h : f (s.queue q) = s.queue q) :
    s.modQueue q f = s := by
  have hv : vset s.queues q (f (vget s.queues q LQueue.reset)) = s.queues := by
    rw [show f (vget s.queues q LQueue.reset) = vget s.queues q LQueue.reset from h, vset_vget _ _ _ hq]
  unfold State.modQueue vmod
  rw [hv]

/-! ## The fields of a packet -/

theorem bitsN_of_extract {w : Nat} (b : BitVec w) (hi lo n : Nat) (h : hi = lo + n - 1) (hn : n ≠ 0) :
    bitsN b hi lo = (b.extractLsb' lo n).toNat := by
  rw [h]
  exact (bitsN_eq_extractLsb' b lo n).resolve_right hn

theorem pkAt_dcmp (p : Packet) : pkAt p 309 307 = (p.extractLsb' 307 3).toNat := bitsN_of_extract p _ _ _ rfl (by decide)

theorem pkAt_part (p : Packet) : pkAt p 306 304 = (p.extractLsb' 304 3).toNat := bitsN_of_extract p _ _ _ rfl (by decide)

theorem pkAt_prio (p : Packet) : pkAt p 303 301 = (p.extractLsb' 301 3).toNat := bitsN_of_extract p _ _ _ rfl (by decide)

theorem pkAt_launchId (p : Packet) : pkAt p 879 832 = (p.extractLsb' 832 48).toNat :=
  bitsN_of_extract p _ _ _ rfl (by decide)

theorem pkAt_tag (p : Packet) : pkAt p 831 768 = (p.extractLsb' 768 64).toNat := bitsN_of_extract p _ _ _ rfl (by decide)

theorem pkAt_cval (p : Packet) : pkAt p 575 512 = (p.extractLsb' 512 64).toNat := bitsN_of_extract p _ _ _ rfl (by decide)

theorem recordBits_eq (p : Packet) (tdisp tfin : Word64) (status : Nat) :
    recordBits p tdisp tfin status = status + (p.extractLsb' 832 48).toNat * 2 ^ 16 +
      (p.extractLsb' 768 64).toNat * 2 ^ 64 + tdisp.toNat * 2 ^ 128 + tfin.toNat * 2 ^ 192 := by
  rw [recordBits, pkAt_launchId, pkAt_tag]

theorem serialReady_of {s : State} {l : LQueue} {p : Packet} (h : p.getLsbD 311 = false) : s.serialReady l p = true := by
  have h0 : pkAt p 311 311 = 0 := by
    rw [pkAt, bitsN_of_extract p 311 311 1 rfl (by decide), BitVec.extractLsb'_toNat]
    have := BitVec.testBit_toNat (x := p) (i := 311)
    rw [h, Nat.testBit] at this
    simpa [Nat.and_comm, Nat.one_and_eq_mod_two] using this
  unfold State.serialReady
  rw [h0]
  rfl

theorem serves_ready {s : State} {q : Nat} (h : Claims.serves s q) : (s.queue q).served = true ∧ s.ctrlUp q = true := by
  obtain ⟨⟨k, hk, hv⟩, hen, herr, hsz, hpart⟩ := h
  refine ⟨by simp [LQueue.served, hen, herr, hsz, hpart], ?_⟩
  unfold State.ctrlUp
  rw [List.any_eq_true]
  refine ⟨true, ?_, rfl⟩
  have hlen : (s.die (q / 16)).ctrlRuns.toList.length = 2 := Vector.length_toList
  unfold vget at hv
  rw [← hv]
  have hk' : k < (s.die (q / 16)).ctrlRuns.toList.length := by omega
  simp [hk]

/-! ## The writes at the end of a launch (R129) -/

theorem State.cwrite_zero (s : State) (q part : Nat) (p : Packet) (sem : Bool) (n v : Nat) :
    s.cwrite q part p sem 0 n v = s := by
  unfold State.cwrite
  exact if_pos rfl

theorem State.cwrite_ok {s : State} {part loc n : Nat} {va : Word64} (q : Nat) (p : Packet) (sem : Bool) (v : Nat)
    (hva : va ≠ 0) (hloc : s.locOf (engineOf part) .write va = .ok loc) (hpoi : s.poisonIn loc n = none) :
    s.cwrite q part p sem va n v = s.writeNat loc n v := by
  unfold State.cwrite
  dsimp only
  rw [if_neg hva, hloc]
  dsimp only
  rw [hpoi]
  rfl

theorem State.cwrite_frame (s : State) (q part : Nat) (p : Packet) (sem : Bool) (va : Word64) (n v : Nat) :
    (s.cwrite q part p sem va n v).launches = s.launches ∧ (s.cwrite q part p sem va n v).groups = s.groups ∧
      (s.cwrite q part p sem va n v).queues = s.queues := by
  have hlog (c : Cause) (k a : Nat) (d : List Byte) : (s.logQueue q part k a d).launches = s.launches ∧
      (s.logQueue q part k a d).groups = s.groups ∧ (s.logQueue q part k a d).queues = s.queues := by
    obtain ⟨h1, h2, h3, -⟩ := State.log_frame s (e := { die := q / 16, kind := k, part := (if part < 8 then part else 0xFF), unit := q / 16 * 4096 + 0x102, aux := a, data := d }) rfl
    exact ⟨h1, h2, h3⟩
  unfold State.cwrite
  dsimp only
  split
  · exact ⟨rfl, rfl, rfl⟩
  · split
    · next c _ => exact hlog c _ _ _
    · split
      · exact hlog .poison _ _ _
      · exact ⟨rfl, rfl, rfl⟩

theorem State.writeCompletion_frame (s : State) (q part : Nat) (p : Packet) (tdisp : Word64) (status : Nat) :
    (s.writeCompletion q part p tdisp status).launches = s.launches ∧
      (s.writeCompletion q part p tdisp status).groups = s.groups ∧
      (s.writeCompletion q part p tdisp status).queues = s.queues := by
  obtain ⟨h1, h2, h3⟩ := s.cwrite_frame q part p false (pkAddr p 640) 32 (recordBits p tdisp s.time status)
  obtain ⟨k1, k2, k3⟩ := (s.cwrite q part p false (pkAddr p 640) 32 (recordBits p tdisp s.time status)).cwrite_frame
    q part p true (pkAddr p 448) 8 (pkAt p 575 512)
  exact ⟨k1.trans h1, k2.trans h2, k3.trans h3⟩

theorem State.writeCompletion_ok {s : State} {part loc1 loc2 : Nat} {p : Packet} (q : Nat) (tdisp : Word64) (status : Nat)
    (h1 : p.extractLsb' 640 64 ≠ 0) (h2 : p.extractLsb' 448 64 ≠ 0)
    (hl1 : s.locOf (engineOf part) .write (p.extractLsb' 640 64) = .ok loc1) (hp1 : s.poisonIn loc1 32 = none)
    (hl2 : (s.writeNat loc1 32 (recordBits p tdisp s.time status)).locOf (engineOf part) .write (p.extractLsb' 448 64) =
      .ok loc2)
    (hp2 : (s.writeNat loc1 32 (recordBits p tdisp s.time status)).poisonIn loc2 8 = none) :
    s.writeCompletion q part p tdisp status =
      (s.writeNat loc1 32 (recordBits p tdisp s.time status)).writeNat loc2 8 (p.extractLsb' 512 64).toNat := by
  unfold State.writeCompletion pkAddr
  rw [State.cwrite_ok q p false _ h1 hl1 hp1, State.cwrite_ok q p true _ h2 hl2 hp2, pkAt_cval]

theorem State.writeCompletion_none {p : Packet} (s : State) (q part : Nat) (tdisp : Word64) (status : Nat)
    (h1 : p.extractLsb' 640 64 = 0) (h2 : p.extractLsb' 448 64 = 0) : s.writeCompletion q part p tdisp status = s := by
  unfold State.writeCompletion pkAddr
  rw [h1, h2, State.cwrite_zero, State.cwrite_zero]

/-! ## A failure (R122) -/

/-- The event of a launch that fails, of a packet of which all is known (R122). -/
def failEvent (q part aux : Nat) (data : List Byte) : LogEvent :=
  { die := q / 16, kind := 11, part := part, unit := q / 16 * 4096 + 0x102, aux := aux, data := data }

/-- A packet that breaks a check fails: what stands in memory, and the queue's next packet. -/
theorem State.failLaunch_spec {s : State} {q : Nat} (hq : q < 64) (l0 : LQueue) (p : Packet)
    (hpart : (s.queue q).qpart.toNat < 8) (hhead : l0.head = (s.queue q).head) (hqp : l0.qpart = (s.queue q).qpart)
    (hch : l0.checked = false) :
    ∃ t : State, (s.modQueue q (fun _ => l0)).failLaunch q p 1 0 0 = t ∧ t.launches = s.launches ∧ t.groups = s.groups ∧
      (t.queue q).head = (s.queue q).head + 1 ∧ (t.queue q).packet = none ∧
      Claims.failedMem s q (s.queue q).qpart.toNat p 1 (bytesOf 8 (p.extractLsb' 832 48).toNat ++
        bytesOf 4 (s.queue q).head.toNat ++ bytesOf 4 0 ++ bytesOf 8 0) (1 + q * 2 ^ 16) t := by
  have hl : (s.modQueue q (fun _ => l0)).queue q = l0 := by rw [State.queue_modQueue s hq, if_pos rfl]
  generalize hu : s.log (failEvent q (s.queue q).qpart.toNat (1 + q * 2 ^ 16) (bytesOf 8 (p.extractLsb' 832 48).toNat ++
        bytesOf 4 (s.queue q).head.toNat ++ bytesOf 4 0 ++ bytesOf 8 0)) = u
  obtain ⟨hul, hug, huq, hut⟩ := State.log_frame s (e := failEvent q (s.queue q).qpart.toNat (1 + q * 2 ^ 16)
    (bytesOf 8 (p.extractLsb' 832 48).toNat ++ bytesOf 4 (s.queue q).head.toNat ++ bytesOf 4 0 ++ bytesOf 8 0)) rfl
  rw [hu] at hul hug huq hut
  have hlog : (s.modQueue q (fun _ => l0)).logQueue q l0.qpart.toNat 11 (1 + q * 2 ^ 16 + 0 * 2 ^ 22)
      (bytesOf 8 (pkAt p 879 832) ++ bytesOf 4 l0.head.toNat ++ bytesOf 4 0 ++ bytesOf 8 (0 : Word64).toNat) =
      u.withQueues (s.modQueue q (fun _ => l0)).queues := by
    rw [← hu, ← State.log_withQueues s _ (e := failEvent _ _ _ _) rfl, State.logQueue, hqp, if_pos hpart, hhead,
      pkAt_launchId, Nat.zero_mul, Nat.add_zero]
    rfl
  generalize hw : u.withQueues (s.modQueue q (fun _ => l0)).queues = w at hlog
  have hreads : SameReads u w := hw ▸ sameReads_withQueues _ _
  have hwtime : w.time = s.time := by rw [← hw]; exact hut
  obtain ⟨kl, kg, kq⟩ := w.writeCompletion_frame q l0.qpart.toNat p s.time 1
  have hfail : (s.modQueue q (fun _ => l0)).failLaunch q p 1 0 0 =
      (w.writeCompletion q l0.qpart.toNat p s.time 1).nextPacket q none := by
    rw [← hlog]
    unfold State.failLaunch LQueue.packetPart
    dsimp only
    rw [hl, hch]
    rfl
  have hqueue : (w.writeCompletion q l0.qpart.toNat p s.time 1).queue q = l0 := by
    unfold State.queue at hl ⊢
    rw [kq, ← hw]
    exact hl
  refine ⟨_, rfl, ?_, ?_, ?_, ?_, fun h1 h2 => ?_, fun l1 l2 s2 h1 h2 hl1 hp1 hs2 hl2 hp2 => ?_⟩
  · rw [hfail]
    exact kl.trans ((congrArg State.launches hw.symm).trans hul)
  · rw [hfail]
    exact kg.trans ((congrArg State.groups hw.symm).trans hug)
  · rw [hfail, State.nextPacket, State.queue_modQueue _ hq, if_pos rfl, hqueue, hhead]
  · rw [hfail, State.nextPacket, State.queue_modQueue _ hq, if_pos rfl]
  · rw [hfail, State.writeCompletion_none w _ _ _ _ h1 h2]
    show w.mem = _
    rw [← hw, ← hu]
    rfl
  · replace hl1 : u.locOf (engineOf (s.queue q).qpart.toNat) .write (p.extractLsb' 640 64) = .ok l1 := by
      rw [← hu]
      exact hl1
    replace hp1 : u.poisonIn l1 32 = none := by
      rw [← hu]
      exact hp1
    replace hs2 : s2 = u.writeNat l1 32 (1 + (p.extractLsb' 832 48).toNat * 2 ^ 16 +
        (p.extractLsb' 768 64).toNat * 2 ^ 64 + s.time.toNat * 2 ^ 128 + s.time.toNat * 2 ^ 192) := by
      rw [hs2, ← hu]
      rfl
    have hrec : s2 = u.writeNat l1 32 (recordBits p s.time w.time 1) := by rw [hs2, recordBits_eq, hwtime]
    have hreads2 : SameReads s2 (w.writeNat l1 32 (recordBits p s.time w.time 1)) := by
      rw [hrec, ← hw]
      exact sameReads_withQueues _ _
    have hpoi (loc n : Nat) : w.poisonIn loc n = u.poisonIn loc n := by rw [← hw]; rfl
    have hpoi2 (loc n : Nat) : (w.writeNat l1 32 (recordBits p s.time w.time 1)).poisonIn loc n = s2.poisonIn loc n := by
      rw [hrec, ← hw]; rfl
    rw [hfail, hqp, State.writeCompletion_ok q s.time 1 h1 h2 (by rw [hreads.locOf]; exact hl1) (by rw [hpoi]; exact hp1)
      (by rw [hreads2.locOf]; exact hl2) (by rw [hpoi2]; exact hp2), hrec, ← hw]
    rfl

/-! ## Dispatch (R117, R121) -/

theorem checkKernel_grid {s : State} {part : Nat} {p : Packet} {v : Vals} (h : s.checkKernel part p none = .ok v) :
    v.gx * v.gy * v.gz ≠ 0 := by
  unfold State.checkKernel at h
  dsimp only at h
  split at h
  · cases h
  split at h
  · cases h
  split at h
  · cases h
  next n _ hbad =>
    split at h
    · cases h
    split at h
    · cases h
      simp only [valsOk, Option.isSome_none, Bool.or_eq_true, not_or, Bool.not_eq_true', Bool.not_eq_false,
        Bool.false_or, Bool.and_eq_true, decide_eq_true_eq] at hbad
      obtain ⟨-, hv⟩ := hbad
      have hx : 1 ≤ (mergeVals p (BitVec.ofNat 512 n) none).gx := by simp_all
      have hy : 1 ≤ (mergeVals p (BitVec.ofNat 512 n) none).gy := by simp_all
      have hz : 1 ≤ (mergeVals p (BitVec.ofNat 512 n) none).gz := by simp_all
      exact Nat.mul_ne_zero (Nat.mul_ne_zero (by omega) (by omega)) (by omega)
    · cases h

theorem checkLaunch_grid {s : State} {part : Nat} {p : Packet} {v : Vals} {c : Option CollDesc}
    (h : s.checkLaunch part p none = .ok (v, c)) : v.gx * v.gy * v.gz ≠ 0 := by
  unfold State.checkLaunch at h
  cases hk : s.checkKernel part p none with
  | error f => rw [hk] at h; cases h
  | ok v' =>
    cases hc : s.checkColl part p with
    | error f => rw [hk, hc] at h; cases h
    | ok c' =>
      rw [hk, hc] at h
      dsimp only [bind, Except.bind] at h
      split at h
      · cases h
      · cases h
        exact checkKernel_grid hk

/-- A packet whose checks pass is dispatched, whatever the front-end had noted of it. -/
theorem State.dispatch_spec {s : State} {q : Nat} (hq : q < 64) {p : Packet} {v : Vals} (l0 : LQueue)
    (hl0 : l0 = { s.queue q with packet := l0.packet, checked := l0.checked, interval := l0.interval, due := l0.due })
    (hgswa : p.extractLsb' 64 64 = 0) (hcheck : s.checkLaunch (p.extractLsb' 304 3).toNat p none = .ok (v, none)) :
    Claims.dispatched s q p v ((s.modQueue q (fun _ => l0)).dispatch q p) := by
  have hl : (s.modQueue q (fun _ => l0)).queue q = l0 := by rw [State.queue_modQueue s hq, if_pos rfl]
  have hsame : (s.modQueue q (fun _ => l0)).checkLaunch (pkAt p 306 304) p none = .ok (v, none) := by
    rw [pkAt_part, ← hcheck]
    exact SameReads.checkLaunch (sameReads_withQueues s _) rfl _ _ _
  have hgo : (s.modQueue q (fun _ => l0)).dispatch q p = (s.modQueue q (fun _ => l0)).dispatchWith q p v none := by
    unfold State.dispatch
    dsimp only
    rw [show pkAddr p 64 = 0 from hgswa, if_pos rfl, hsame]
  have hqueue (t : State) (ht : t.queue q = { l0 with
      head := l0.head + 1, packet := none, checked := false, interval := 0, prev := some s.nextId }) :
      t.queue q = { s.queue q with
        head := (s.queue q).head + 1, packet := none, checked := false, interval := 0, due := (t.queue q).due,
        prev := some s.nextId } := by
    rw [ht, hl0]
  rw [hgo, State.dispatchWith]
  rw [if_neg (checkLaunch_grid hcheck), hl, pkAt_part, pkAt_prio]
  refine ⟨⟨_, rfl, rfl, rfl, ?_, rfl, ?_, rfl, rfl, rfl, rfl, rfl, rfl, rfl, rfl, rfl⟩, ?_, rfl⟩
  · rw [hl0]
  · rw [hl0]
    rfl
  · refine hqueue _ ?_
    rw [State.nextPacket, State.queue_modQueue _ hq, if_pos rfl]
    exact congrArg (fun l : LQueue => { l with head := l.head + 1, packet := none, checked := false, interval := 0, prev := some s.nextId }) hl

/-! ## Dependences (R118, R119) -/

theorem depends_iff {dcmp : Nat} (h0 : dcmp ≠ 0) (h7 : dcmp < 7) (w d : Word64) :
    depends dcmp w d = true ↔ Claims.depends dcmp w d := by
  rcases dcmp with _ | _ | _ | _ | _ | _ | _ | n
  · exact absurd rfl h0
  · exact beq_iff_eq
  · exact bne_iff_ne
  · exact decide_eq_true_iff
  · exact decide_eq_true_iff
  · show decide ((w - d).toNat < 2 ^ 63) = true ↔ 0 ≤ (w - d).toInt
    rw [decide_eq_true_iff, BitVec.toInt_eq_toNat_cond]
    have := (w - d).isLt
    split <;> omega
  · exact beq_iff_eq
  · omega

theorem dcmp_ne_seven {p : Packet} {qpart : BitVec 4} (h : packetBad p qpart = false) : (p.extractLsb' 307 3).toNat < 7 := by
  have h7 : (pkAt p 309 307 == 7) = false := by
    simp only [packetBad, Bool.or_eq_false_iff] at h
    tauto
  rw [pkAt_dcmp, beq_eq_false_iff_ne] at h7
  have := (p.extractLsb' 307 3).isLt
  omega

/-- The queue of a front-end that has read a packet (R115). -/
def LQueue.holds (l : LQueue) (p : Packet) (checked : Bool) (now : Word64) : LQueue :=
  { l with packet := some p, checked := checked, interval := 0, due := now }

/-- A front-end's next step with a packet that stands in order (R113, R115, R118). -/
theorem State.advance_ready {s : State} {q : Nat} {p : Packet} (hp : (s.queue q).packet = some p)
    (hs : Claims.serves s q) (hserial : p.getLsbD 311 = false) (poll : Bool)
    (hgood : (s.queue q).checked = true ∨ packetBad p (s.queue q).qpart = false) :
    s.advanceQueue q poll =
      if (p.extractLsb' 307 3).toNat = 0 then (s.modQueue q (fun l => { l with checked := true })).dispatch q p
      else if !poll then s.modQueue q (fun l => { l with checked := true })
      else
        match s.readVa (engineOf (p.extractLsb' 304 3).toNat) .read (p.extractLsb' 320 64) 8 with
        | .error c => (s.modQueue q (fun l => { l with checked := true })).failLaunch q p 1 c.code (p.extractLsb' 320 64)
        | .ok w =>
          if depends (p.extractLsb' 307 3).toNat (BitVec.ofNat 64 w) (p.extractLsb' 384 64) then
            (s.modQueue q (fun l => { l with checked := true })).dispatch q p
          else (s.modQueue q (fun l => { l with checked := true })).modQueue q (fun l => { l with
            interval := if l.interval = 0 then 64 else min (2 * l.interval) 65536
            due := s.time + BitVec.ofNat 64 (if l.interval = 0 then 64 else min (2 * l.interval) 65536) }) := by
  obtain ⟨hserved, hup⟩ := serves_ready hs
  have hbad : (!(s.queue q).checked && packetBad p (s.queue q).qpart) = false := by
    rcases hgood with h | h <;> simp [h]
  have hva : (s.modQueue q (fun l => { l with checked := true })).readVa (engineOf (pkAt p 306 304)) .read (pkAddr p 320) 8 =
      s.readVa (engineOf (p.extractLsb' 304 3).toNat) .read (p.extractLsb' 320 64) 8 := by
    rw [pkAt_part]
    exact SameReads.readVa (sameReads_withQueues s _) _ _ _ _
  unfold State.advanceQueue
  dsimp only
  rw [hp]
  dsimp only
  rw [hserved, hup, serialReady_of hserial, if_neg (by decide), hbad, if_neg Bool.false_ne_true, hva, pkAt_dcmp]
  rfl

theorem State.advance_bad {s : State} {q : Nat} {p : Packet} (hp : (s.queue q).packet = some p)
    (hs : Claims.serves s q) (hserial : p.getLsbD 311 = false) (poll : Bool) (hch : (s.queue q).checked = false)
    (hbad : packetBad p (s.queue q).qpart = true) : s.advanceQueue q poll = s.failLaunch q p 1 0 0 := by
  obtain ⟨hserved, hup⟩ := serves_ready hs
  unfold State.advanceQueue
  dsimp only
  rw [hp]
  dsimp only
  rw [hserved, hup, serialReady_of hserial, if_neg (by decide), hch, hbad, if_pos (by rfl)]

theorem exec_packetRead {s : State} {q : BitVec 6} {n : Nat} {p : BitVec 1024} (hs : Claims.serves s q.toNat)
    (hnone : (s.queue q.toNat).packet = none) (hne : (s.queue q.toNat).head ≠ (s.queue q.toNat).tail)
    (hread : s.readVa (engineOf (s.queue q.toNat).qpart.toNat) .read ((s.queue q.toNat).packetAddr (s.queue q.toNat).head) 128
      = .ok n) (hn : p = BitVec.ofNat 1024 n) :
    exec (.packetRead q) s =
      .next ((s.modQueue q.toNat (fun _ => (s.queue q.toNat).holds p false s.time)).advanceQueue q.toNat false) := by
  obtain ⟨hserved, hup⟩ := serves_ready hs
  show execPacketRead q s = _
  unfold execPacketRead
  dsimp only
  rw [hserved, hup, hnone, if_neg (by simpa using hne), hread, hn]
  rfl

theorem exec_dependencePoll {s : State} {q : BitVec 6} (hdue : (s.queue q.toNat).due.toNat ≤ s.time.toNat) :
    exec (.dependencePoll q) s = .next (s.advanceQueue q.toNat true) := by
  show execDependencePoll q s = _
  unfold execDependencePoll
  rw [if_neg (by omega)]

/-! ## The end of a launch (R129) -/

theorem State.afterLaunch_none {s : State} {id : Nat} (h : ∀ q, (s.queue q).prev ≠ some id) : s.afterLaunch id = s := by
  unfold State.afterLaunch
  refine List.foldlRecOn (motive := fun t => t = s) _ _ rfl fun t ht q _ => ?_
  rw [ht, if_neg]
  simp [h q]

/-- Settles O50. -/
theorem packetsRun : Obligations.PacketsRun := by
  have hqueue (s : State) (q : BitVec 6) (l : LQueue) : (s.modQueue q.toNat (fun _ => l)).queue q.toNat = l := by
    rw [State.queue_modQueue s q.isLt, if_pos rfl]
  have hserves (s : State) (q : BitVec 6) (p : Packet) (c : Bool) (h : Claims.serves s q.toNat) :
      Claims.serves (s.modQueue q.toNat (fun _ => (s.queue q.toNat).holds p c s.time)) q.toNat := by
    unfold Claims.serves
    rw [hqueue]
    exact h
  refine ⟨?_, ?_, ?_, ?_⟩
  · intro s q n p hnone hne hread hn hhead
    obtain ⟨hs, hbad, hserial⟩ := hhead
    have hadv := State.advance_ready (s := s.modQueue q.toNat (fun _ => (s.queue q.toNat).holds p false s.time)) (p := p)
      (by rw [hqueue]; rfl) (hserves s q p false hs) hserial false (by rw [hqueue]; exact .inr hbad)
    rw [State.modQueue_modQueue s q.isLt] at hadv
    rw [exec_packetRead hs hnone hne hread hn, hadv]
    refine ⟨fun hd => ?_, fun v hd hgswa hcheck => ?_⟩
    · rw [if_neg hd, if_pos (show (!false) = true from rfl)]
      rfl
    · rw [if_pos hd]
      exact ⟨_, rfl, State.dispatch_spec q.isLt _ rfl hgswa hcheck⟩
  · intro s q n p hs hnone hne hread hn hserial hbad
    have hpart : (s.queue q.toNat).qpart.toNat < 8 := by
      obtain ⟨-, -, -, -, h⟩ := hs
      exact h
    rw [exec_packetRead hs hnone hne hread hn, State.advance_bad (by rw [hqueue]; rfl) (hserves s q p false hs) hserial false
      (by rw [hqueue]; rfl) (by rw [hqueue]; exact hbad)]
    obtain ⟨t, ht, hrest⟩ := State.failLaunch_spec (s := s) q.isLt ((s.queue q.toNat).holds p false s.time) p
      hpart rfl rfl rfl
    exact ⟨t, by rw [ht], hrest⟩
  · intro s q p w dcmp hp hch hhead hd hd0 hread
    obtain ⟨hs, hbad, hserial⟩ := hhead
    have hadv := State.advance_ready hp hs hserial true (.inl hch)
    rw [hd] at hd0 ⊢
    rw [if_neg hd0, hread] at hadv
    dsimp only at hadv
    rw [if_neg (by decide)] at hadv
    have hdep := depends_iff hd0 (dcmp_ne_seven hbad) (BitVec.ofNat 64 w) (p.extractLsb' 384 64)
    refine ⟨fun hlt => ?_, fun hdue => ⟨fun hno => ⟨_, rfl, ?_⟩, fun v hyes hgswa hcheck => ?_⟩⟩
    · show execDependencePoll q s = _
      unfold execDependencePoll
      rw [if_pos hlt]
    · rw [exec_dependencePoll hdue, hadv, if_neg (fun h => hno (hdep.1 h)),
        State.modQueue_same s q.isLt (f := fun l => { l with checked := true }) (by rw [← hch])]
      rw [State.modQueue_const]
      rfl
    · rw [exec_dependencePoll hdue, hadv, if_pos (hdep.2 hyes), State.modQueue_const]
      exact ⟨_, rfl, State.dispatch_spec q.isLt _ rfl hgswa hcheck⟩
  · intro s s1 l rec loc1 loc2 hl hdone h1 h2 hl1 hp1 hrec hs1 hl2 hp2 hprev
    have hr : rec = recordBits l.pkt l.tdisp s.time l.status := by rw [hrec, recordBits_eq]
    subst hr hs1
    show execLaunchComplete l.id s = _
    unfold execLaunchComplete
    rw [hl]
    dsimp only
    rw [hdone, if_pos rfl, State.writeCompletion_ok _ _ _ h1 h2 hl1 hp1 hl2 hp2]
    exact congrArg Host.Outcome.next (State.afterLaunch_none (by exact hprev))

end Sys2Proof.Machine

end


section
/-! # O38: accumulator tiles (R338, R339) -/

namespace Sys2Proof.Machine

/-! ## Memory alone -/

/-- The machine with other bytes and poison marks. -/
def State.storing (s : State) (m : List Host.Cell) (p : List Nat) : State := { s with mem := m, poison := p }

/-- Memory and its poison marks alone differ. -/
def MemOnly (s t : State) : Prop :=
  t = s.storing t.mem t.poison

theorem MemOnly.refl (s : State) : MemOnly s s := rfl

theorem MemOnly.trans {s t u : State} (h : MemOnly s t) (k : MemOnly t u) : MemOnly s u := by
  unfold MemOnly at *
  rw [k, h]
  rfl

theorem MemOnly.write (s : State) (loc : Nat) (bs : List Byte) : MemOnly s (s.write loc bs) := rfl

theorem MemOnly.parts {s t : State} (h : MemOnly s t) : t.parts = s.parts := by
  rw [h]
  rfl

theorem MemOnly.foldl {α : Type} {f : State → α → State} (hf : ∀ s a, MemOnly s (f s a)) (l : List α) (s : State) :
    MemOnly s (l.foldl f s) := by
  induction l generalizing s with
  | nil => exact MemOnly.refl s
  | cons a l ih => exact (hf s a).trans (ih _)

theorem memOnly_reachWrite (r : Reach) (va : Word64) (bs : List Byte) (s : State) : MemOnly s (s.reachWrite r va bs) := by
  unfold State.reachWrite
  generalize spans va bs.length = l
  induction l generalizing s bs with
  | nil => exact MemOnly.refl s
  | cons p l ih => exact (MemOnly.write _ _ _).trans (ih _ _)

theorem memOnly_clearTiles (r : Reach) (rec : TBits) (ts : List Nat) (s : State) : MemOnly s (s.clearTiles r rec ts) := by
  unfold State.clearTiles
  split
  · refine MemOnly.foldl (fun s t => ?_) _ s
    unfold State.clearTile
    dsimp only
    split
    · exact MemOnly.refl s
    · exact MemOnly.write _ _ _
  · exact MemOnly.refl s

/-- Where no watchpoint is armed, an engine's accesses are not watched, whatever they have stored. -/
theorem MemOnly.unwatched {s t : State} (h : MemOnly s t) {f : Fork} (harm : (s.part f.part).arm = false)
    (l : List Range) : t.watchEngine f l = t := by
  have hpart : t.part f.part = s.part f.part := by
    unfold State.part
    rw [h.parts]
  unfold State.watchEngine
  dsimp only
  rw [hpart, harm, if_neg Bool.false_ne_true]

/-! ## Tiles -/

theorem getD_set_self {α : Type} (l : List α) (i j : Nat) (a d : α) (h : i < l.length) :
    (l.set i a).getD j d = if j = i then a else l.getD j d := by
  by_cases hj : j = i
  · rw [hj, if_pos rfl, List.getD_eq_getElem?_getD, List.getElem?_set_self h]
    rfl
  · rw [if_neg hj, List.getD_eq_getElem?_getD, List.getElem?_set_ne (Ne.symm hj), ← List.getD_eq_getElem?_getD]

/-- A gang has a tile of a member. -/
def Gang.has (k : Gang) (m t : Nat) : Prop :=
  m < k.tiles.length ∧ t < (k.tiles.getD m []).length

theorem Gang.tile_setTile {k : Gang} {m t : Nat} (h : k.has m t) (x : Tile) (i j : Nat) :
    (k.setTile m t x).tile i j = if i = m ∧ j = t then x else k.tile i j := by
  obtain ⟨hm, ht⟩ := h
  unfold Gang.tile Gang.setTile
  dsimp only
  rw [getD_set_self _ _ _ _ _ hm]
  by_cases hi : i = m
  · rw [if_pos hi, getD_set_self _ _ _ _ _ ht, hi]
    simp only [true_and]
  · rw [if_neg hi, if_neg (fun h => hi h.1)]

theorem Gang.has_setTile {k : Gang} {m t m' t' : Nat} (x : Tile) (h : k.has m t) :
    (k.setTile m' t' x).has m t := by
  obtain ⟨hm, ht⟩ := h
  refine ⟨by rw [Gang.setTile, List.length_set]; exact hm, ?_⟩
  unfold Gang.setTile
  by_cases h' : m' < k.tiles.length
  · rw [getD_set_self _ _ _ _ _ h']
    split
    · next he => rw [List.length_set, ← he]; exact ht
    · exact ht
  · rw [List.set_eq_of_length_le (by omega)]
    exact ht

theorem Gang.setTile_frame (k : Gang) (m t : Nat) (x : Tile) :
    k.setTile m t x = { k with tiles := (k.setTile m t x).tiles } := rfl

/-- A change of the only gang of its id is the gang that comes of it. -/
theorem State.modGang_const {s : State} {k : Gang} (huniq : ∀ q ∈ s.gangs, q.id = k.id → q = k) (f : Gang → Gang) :
    s.modGang k.id f = s.modGang k.id (fun _ => f k) := by
  unfold State.modGang
  congr 1
  refine List.map_congr_left fun q hq => ?_
  by_cases hid : q.id = k.id
  · rw [huniq q hq hid]
  · rw [if_neg (by simpa using hid), if_neg (by simpa using hid)]

/-! ## The tile that an instruction names (R338) -/

/-- An accumulator instruction that passes the checks of R338 acts on its tile at once. -/
theorem accTile_acts {s : State} {g : Group} {ty : FTy} {a : Opd} {k : Gang} {m t : Nat} {held : List (Opd × Nat)}
    (hacc : Claims.accOf s g ty a k m t) (hheld : g.checkHeld held = .ok ()) (act : Gang → Nat → Nat → Except Trap Done) :
    s.accTile g ty a held act = act k m t := by
  obtain ⟨hgang, -, hm, ht, hok, -, -, hlat⟩ := hacc
  have htile : tileOk k.per ty t = true := by
    unfold tileOk
    by_cases hf : ty = .f64 <;> simpa [hf] using hok
  unfold State.accTile
  rw [hgang]
  dsimp only
  rw [← ht, ← hm, htile, if_neg (by decide), hheld]
  dsimp only [bind, Except.bind]
  rw [hlat]
  rfl

/-- The tiles that an accumulator instruction names are the gang's. -/
theorem accOf_has {s : State} {g : Group} {ty : FTy} {a : Opd} {k : Gang} {m t : Nat} (hacc : Claims.accOf s g ty a k m t) :
    k.has m t ∧ (ty = .f64 → k.has m (t + 1)) := by
  obtain ⟨-, -, -, -, hok, hm, hlen, -⟩ := hacc
  refine ⟨⟨hm, ?_⟩, fun hf => ⟨hm, ?_⟩⟩
  · rw [hlen]
    split at hok <;> omega
  · rw [if_pos hf] at hok
    omega

theorem checkHeld_nil (g : Group) : g.checkHeld [] = .ok () := rfl

/-- The tiles of a gang with one, or under F64 a pair, replaced. -/
theorem tiles_replaced {k : Gang} {m t : Nat} {ty : FTy} (h : k.has m t) (h' : ty = .f64 → k.has m (t + 1))
    (x : Gang → Nat → Nat → Tile) {k1 : Gang}
    (hk1 : k1 = (tilesFor ty t).zipIdx.foldl (fun k p => k.setTile m p.1 (x k p.1 p.2)) k) :
    k1 = { k with tiles := k1.tiles } ∧
      (∀ i j, ¬ (i = m ∧ (j = t ∨ ty = .f64 ∧ j = t + 1)) → k1.tile i j = k.tile i j) ∧
      k1.tile m t = x k t 0 ∧ (ty = .f64 → k1.tile m (t + 1) = x (k.setTile m t (x k t 0)) (t + 1) 1) := by
  subst hk1
  by_cases hf : ty = .f64
  · have hlist : (tilesFor ty t).zipIdx = [(t, 0), (t + 1, 1)] := by
      rw [tilesFor, if_pos hf]
      rfl
    have h2 : (k.setTile m t (x k t 0)).has m (t + 1) := Gang.has_setTile _ (h' hf)
    rw [hlist]
    refine ⟨rfl, fun i j hij => ?_, ?_, fun _ => ?_⟩
    · show ((k.setTile m t (x k t 0)).setTile m (t + 1) _).tile i j = _
      rw [Gang.tile_setTile h2, if_neg (fun hc => hij ⟨hc.1, .inr ⟨hf, hc.2⟩⟩), Gang.tile_setTile h,
        if_neg (fun hc => hij ⟨hc.1, .inl hc.2⟩)]
    · show ((k.setTile m t (x k t 0)).setTile m (t + 1) _).tile m t = _
      rw [Gang.tile_setTile h2, if_neg (by omega), Gang.tile_setTile h, if_pos ⟨rfl, rfl⟩]
    · show ((k.setTile m t (x k t 0)).setTile m (t + 1) _).tile m (t + 1) = _
      rw [Gang.tile_setTile h2, if_pos ⟨rfl, rfl⟩]
  · have hlist : (tilesFor ty t).zipIdx = [(t, 0)] := by
      rw [tilesFor, if_neg hf]
      rfl
    rw [hlist]
    refine ⟨rfl, fun i j hij => ?_, ?_, fun hc => absurd hc hf⟩
    · show (k.setTile m t (x k t 0)).tile i j = _
      rw [Gang.tile_setTile h, if_neg (fun hc => hij ⟨hc.1, .inl hc.2⟩)]
    · show (k.setTile m t (x k t 0)).tile m t = _
      rw [Gang.tile_setTile h, if_pos ⟨rfl, rfl⟩]

/-! ## `ACCZ`, `ACCRD`, `ACCWR` -/

theorem tilesFor_length (ty : FTy) : (tilesFor ty 0).length = if ty = .f64 then 2 else 1 := by
  unfold tilesFor
  split <;> rfl

theorem acczBody_clears {s : State} {g : Group} {ty : FTy} {a : Opd} {k : Gang} {m t : Nat}
    (hacc : Claims.accOf s g ty a k m t) :
    acczBody ty a s g = .ok { s := s.modGang k.id (fun _ =>
      (tilesFor ty t).zipIdx.foldl (fun k p => k.setTile m p.1 Tile.zero) k), g := g } := by
  unfold acczBody
  rw [accTile_acts hacc (checkHeld_nil g), State.modGang_const hacc.2.1]
  unfold tilesFor
  split <;> rfl

/-- The register that `ACCRD` fills from a tile. -/
theorem accTile_register (ty : FTy) (t q : Nat) :
    t + q % (tilesFor ty 0).length = Claims.accTile ty t q ∧ q / (tilesFor ty 0).length = Claims.accRow ty q := by
  rw [tilesFor_length]
  unfold Claims.accTile Claims.accRow
  split
  · exact ⟨rfl, rfl⟩
  · exact ⟨by rw [Nat.mod_one, Nat.add_zero], Nat.div_one q⟩

theorem eight_tiles (ty : FTy) : 8 * (tilesFor ty 0).length = if ty = .f64 then 16 else 8 := by
  rw [tilesFor_length]
  split <;> rfl

theorem accrdBody_reads {s : State} {g : Group} {ty : FTy} {a : Opd} {k : Gang} {m t w : Nat} (h : Hdr) (n : BitVec 6)
    (hacc : Claims.accOf s g ty a k m t) (hw : w = if ty = .f64 then 16 else 8) (hheld : g.checkHeld [(.v n, 32 * w)] = .ok ())
    (hpoi : ∀ q < w, (k.tile m (Claims.accTile ty t q)).poison = false) :
    accrdBody h ty (.v n) a s g = .ok { s := s, g := g, long := [{ unit := .matrix, writes := (List.range w).map (fun q =>
      .v (n + BitVec.ofNat 6 q) (g.active h)
        (vget (k.tile m (Claims.accTile ty t q)).rows (Claims.accRow ty q) vzero)) }] } := by
  have hclean : (tilesFor ty t).any (fun i => (k.tile m i).poison) = false := by
    rw [List.any_eq_false]
    intro i hi
    unfold tilesFor at hi
    by_cases hf : ty = .f64
    · rw [if_pos hf] at hi hw
      have h0 := hpoi 0 (by omega)
      have h1 := hpoi 1 (by omega)
      rw [Claims.accTile, if_pos hf] at h0 h1
      simp only [List.mem_cons, List.not_mem_nil, or_false] at hi
      rcases hi with rfl | rfl
      · exact fun hc => Bool.false_ne_true (h0.symm.trans hc)
      · exact fun hc => Bool.false_ne_true (h1.symm.trans hc)
    · rw [if_neg hf] at hi hw
      have h0 := hpoi 0 (by omega)
      rw [Claims.accTile, if_neg hf] at h0
      rw [List.mem_singleton.1 hi, h0]
      exact Bool.false_ne_true
  have hbits : 256 * (tilesFor ty 0).length = 32 * w := by
    have := eight_tiles ty
    omega
  unfold accrdBody
  dsimp only
  rw [hbits, accTile_acts hacc hheld, hclean, if_neg Bool.false_ne_true, eight_tiles, ← hw]
  simp only [(accTile_register ty t _).1, (accTile_register ty t _).2]
  rfl

/-- What `ACCWR` leaves of a tile: word w of the pair, of n. -/
def Gang.written (k : Gang) (g : Group) (con : Mask) (b : BitVec 6) (m n t w : Nat) : Tile :=
  { rows := vecOf 8 (fun r => vmerge con (vreg (fun i => g.vLane (b + BitVec.ofNat 6 (r * n + w)) i)) (vget (k.tile m t).rows r vzero)),
    type := .clear, poison := false }

theorem accwrBody_writes {s : State} {g : Group} {ty : FTy} {a : Opd} {k : Gang} {m t w : Nat} (h : Hdr) (n : BitVec 6)
    (hacc : Claims.accOf s g ty a k m t) (hw : w = if ty = .f64 then 16 else 8)
    (hheld : g.checkHeld [(.v n, 32 * w)] = .ok ()) :
    accwrBody h ty a (.v n) s g = .ok { s := s.modGang k.id (fun _ => (tilesFor ty t).zipIdx.foldl (fun k p =>
      k.setTile m p.1 (k.written g (g.contributors h) n m (tilesFor ty 0).length p.1 p.2)) k), g := g } := by
  have hbits : 256 * (tilesFor ty 0).length = 32 * w := by
    have := eight_tiles ty
    omega
  unfold accwrBody
  dsimp only
  rw [hbits, accTile_acts hacc hheld, State.modGang_const hacc.2.1]
  rfl

theorem vlane_written {k : Gang} {g : Group} {con : Mask} {b : BitVec 6} {m n t w r lane : Nat} (hr : r < 8)
    (hlane : lane < 64) :
    vlane (vget (k.written g con b m n t w).rows r vzero) lane =
      if con.getLsbD lane then g.vLane (b + BitVec.ofNat 6 (r * n + w)) lane
      else vlane (vget (k.tile m t).rows r vzero) lane := by
  unfold Gang.written
  dsimp only
  rw [vget_vecOf _ _ _ _ hr, vmerge, vlane_vreg _ _ hlane]
  split
  · rw [vlane_vreg _ _ hlane]
  · rfl

/-! ## `ACCRD.ST` (R339) -/

/-- A store of an element as an instruction keeps it. -/
def storeOf (e : Pos × Nat × (Nat × FFlags)) : Store :=
  ⟨e.2.1, e.1, e.2.2.1⟩

/-- Elements of whole bytes are stored one after the other (R71, R339). -/
theorem foldl_putElem {k : Reach} {r : TBits} (hw : tWidth r ≠ 4) (els : List (Pos × Nat × (Nat × FFlags))) (s : State) :
    (els.map storeOf).foldl (fun s x => s.putElem k r x) s = Claims.storeAll k r s els := by
  unfold Claims.storeAll
  rw [List.foldl_map]
  congr 1
  funext s e
  unfold State.putElem
  rw [if_neg hw]
  rfl

theorem memOnly_storeAll (k : Reach) (r : TBits) (els : List (Pos × Nat × (Nat × FFlags))) (s : State) :
    MemOnly s (Claims.storeAll k r s els) :=
  MemOnly.foldl (fun s e => memOnly_reachWrite k _ _ s) els s

/-- What an instruction's stores leave where no watchpoint is armed (R71, R83). -/
theorem putStores_unwatched {s : State} {g : Group} {r : TBits} (h : Hdr) (ps : List Page)
    (els : List (Pos × Nat × (Nat × FFlags))) (harm : (s.part (s.accessor g).part).arm = false) (hw : tWidth r ≠ 4) :
    s.putStores g h r ps (els.map storeOf) =
      (Claims.storeAll ⟨g.core, ps⟩ r s els).clearTiles ⟨g.core, ps⟩ r (els.map (fun e => tileIndex r e.1)) := by
  unfold State.putStores
  dsimp only
  rw [foldl_putElem hw, List.map_map]
  have hmem : MemOnly s ((Claims.storeAll ⟨g.core, ps⟩ r s els).clearTiles ⟨g.core, ps⟩ r (els.map (fun e => tileIndex r e.1))) :=
    (memOnly_storeAll _ r els s).trans (memOnly_clearTiles _ _ _ _)
  exact hmem.unwatched harm _

/-- The flags of some elements, together. -/
theorem getLsbD_flagsOf {α : Type} (f : α → FFlags) (l : List α) (a : FFlags) (b : Nat) :
    (l.foldl (fun acc x => acc ||| f x) a).getLsbD b = true ↔ a.getLsbD b = true ∨ ∃ x ∈ l, (f x).getLsbD b = true := by
  induction l generalizing a with
  | nil => simp
  | cons x l ih =>
    rw [List.foldl_cons, ih]
    simp only [BitVec.getLsbD_or, Bool.or_eq_true, List.exists_mem_cons_iff, or_assoc]

/-- An accumulator as `ACCRD.ST` rounds it, with its flags (R339). -/
def accElem (g : Group) (k : Gang) (m t : Nat) (r : TBits) (rm : Rm) (n row : Nat) : Nat × FFlags :=
  let bits := (vlane (vget (k.tile m t).rows row vzero) n).toNat
  match tTy r with
  | some f =>
    let q := (fmtOf f).roundVal rm false false (g.draw rm n) (valOf .f32 bits)
    (q.1, q.2 ||| snanFlag [valOf .f32 bits])
  | none => (bits, 0)

/-- The stores that `ACCRD.ST` makes, as the instruction keeps them. -/
def accElems (g : Group) (h : Hdr) (k : Gang) (m t : Nat) (r : TBits) (rm : Rm) (p : Pos) : List (Store × FFlags) :=
  ((lanesOf (g.contributors h)).flatMap (fun n => (List.range 8).map (fun row =>
    ((⟨n, { p with i0 := p.i0 + n, i1 := p.i1 + row }, (accElem g k m t r rm n row).1⟩ : Store), (accElem g k m t r rm n row).2)))).filter
      (fun x => inExtents r x.1.pos)

theorem accStores_eq (g : Group) (h : Hdr) (k : Gang) (m t : Nat) (r : TBits) (rm : Rm) (p : Pos) :
    Claims.accStores g h k m t r rm p = ((lanesOf (g.contributors h)).flatMap (fun n => (List.range 8).map (fun row =>
      (({ p with i0 := p.i0 + n, i1 := p.i1 + row } : Pos), n, accElem g k m t r rm n row)))).filter
        (fun e => inExtents r e.1) := by
  unfold Claims.accStores
  refine congrArg (List.filter _) (List.flatMap_congr fun n _ => List.map_congr_left fun row _ => ?_)
  unfold accElem
  cases tTy r with
  | none => rfl
  | some f =>
    dsimp only
    rw [snanFlag_eq]
    rfl

theorem accElems_eq (g : Group) (h : Hdr) (k : Gang) (m t : Nat) (r : TBits) (rm : Rm) (p : Pos) :
    accElems g h k m t r rm p = (Claims.accStores g h k m t r rm p).map (fun e => (storeOf e, e.2.2.2)) := by
  have hall : (lanesOf (g.contributors h)).flatMap (fun n => (List.range 8).map (fun row =>
      ((⟨n, { p with i0 := p.i0 + n, i1 := p.i1 + row }, (accElem g k m t r rm n row).1⟩ : Store),
        (accElem g k m t r rm n row).2))) =
      ((lanesOf (g.contributors h)).flatMap (fun n => (List.range 8).map (fun row =>
        (({ p with i0 := p.i0 + n, i1 := p.i1 + row } : Pos), n, accElem g k m t r rm n row)))).map
          (fun e => (storeOf e, e.2.2.2)) := by
    rw [List.map_flatMap]
    simp only [List.map_map]
    rfl
  unfold accElems
  rw [accStores_eq, hall, List.filter_map]
  rfl

/-- What `ACCRD.ST` leaves of the elements that it stores (R339). -/
def accStored (s : State) (g : Group) (h : Hdr) (rm : Rm) (d : Opd) (r : TBits) (ps : List Page) (l : List (Store × FFlags)) :
    Done :=
  { s := s.putStores g h r ps (l.map (fun x => x.1))
    g := (g.raiseFlags (l.foldl (fun f x => f ||| x.2) 0)).stepSr rm
    touches := pageTouches ps
    long := [countResult d g l.length] }

/-- The parts of `ACCRD.ST` that follow once its checks pass. -/
theorem accrdStBody_stores {s : State} {g : Group} {ty : FTy} {a : Opd} {k : Gang} {m t : Nat} {tm : Team} {r : TBits}
    {p : Pos} {ps : List Page} {els : List (Pos × Nat × (Nat × FFlags))} (h : Hdr) (rm : Rm) (d c : Opd) (tid : BitVec 6)
    (hacc : Claims.accOf s g ty a k m t) (harm : (s.part (s.accessor g).part).arm = false) (hty : ty ≠ .f64)
    (htm : s.team? g.team = some tm) (hr : tm.tensor tid = .ok r) (hp : p = posOf (g.uni64 c)) (hblk : tBlk r = 0)
    (hent : tEnt r = false) (hfmt : tFmt r ∈ [0, 1, 5, 6, 7, 11]) (h1 : p.i1 % 8 = 0) (h2 : p.i2 < tExt r 2)
    (h3 : p.i3 < tExt r 3) (hpoi : (k.tile m t).poison = false)
    (htype : (k.tile m t).type = .clear ∨ (k.tile m t).type = .int ∧ tFmt r = 11 ∨
      (k.tile m t).type = .float ∧ tFmt r ≠ 11)
    (hels : els = Claims.accStores g h k m t r rm p) (hps : s.probeStores g r (els.map storeOf) = .ok ps) :
    accrdStBody h ty rm d a c tid s g = .ok {
      s := (Claims.storeAll ⟨g.core, ps⟩ r s els).clearTiles ⟨g.core, ps⟩ r (els.map (fun e => tileIndex r e.1))
      g := (g.raiseFlags (els.foldl (fun f e => f ||| e.2.2.2) 0)).stepSr rm
      touches := pageTouches ps, long := [Claims.counted g d .matrix els.length] } := by
  have hstores : (k.tile m t).stores (tFmt r) = true := by
    unfold Tile.stores
    rcases htype with hc | ⟨hi, h11⟩ | ⟨hf, h11⟩
    · rw [hc]
    · rw [hi, h11]
      rfl
    · rw [hf]
      simpa using h11
  have hwidth : tWidth r ≠ 4 := by
    unfold tWidth
    rcases List.mem_cons.1 hfmt with h | h
    · rw [h]; decide
    · simp only [List.mem_cons, List.not_mem_nil, or_false] at h
      rcases h with h | h | h | h | h <;> rw [h] <;> decide
  have hin : [7, 5, 6, 0, 1, 11].contains (tFmt r) = true := by
    simp only [List.mem_cons, List.not_mem_nil, or_false] at hfmt
    rcases hfmt with h | h | h | h | h | h <;> rw [h] <;> rfl
  have hall : accElems g h k m t r rm p = els.map (fun e => (storeOf e, e.2.2.2)) := by rw [hels, accElems_eq]
  have hkeep : (accElems g h k m t r rm p).map (fun x => x.1) = els.map storeOf := by
    rw [hall, List.map_map]
    rfl
  have hflags : (accElems g h k m t r rm p).foldl (fun f x => f ||| x.2) 0 = els.foldl (fun f e => f ||| e.2.2.2) 0 := by
    rw [hall, List.foldl_map]
  have hgood : (ty = .f64 || tBlk r ≠ 0 || tEnt r || !([7, 5, 6, 0, 1, 11].contains (tFmt r)) || p.i1 % 8 ≠ 0 ||
      tExt r 2 ≤ p.i2 || tExt r 3 ≤ p.i3 || !(k.tile m t).stores (tFmt r)) = false := by
    rw [hent, hin, hstores]
    simp [hty, hblk, h1, h2, h3]
  unfold accrdStBody
  rw [accTile_acts hacc (checkHeld_nil g), htm]
  dsimp only [bind, Except.bind]
  rw [hr]
  dsimp only
  rw [← hp, hgood, if_neg Bool.false_ne_true, hpoi, if_neg Bool.false_ne_true]
  refine Eq.trans (b := Except.bind (s.probeStores g r ((accElems g h k m t r rm p).map (fun x => x.1)))
    (fun ps => Except.ok (accStored s g h rm d r ps (accElems g h k m t r rm p)))) ?_ ?_
  · unfold accElems accElem
    rfl
  rw [hkeep, hps, Except.bind, accStored, hkeep, hflags, hall, List.length_map, putStores_unwatched h ps els harm hwidth]
  rfl

theorem accrdStBody_badtid {s : State} {g : Group} {ty : FTy} {a : Opd} {k : Gang} {m t : Nat} {tm : Team} {r : TBits}
    (h : Hdr) (rm : Rm) (d c : Opd) (tid : BitVec 6) (hacc : Claims.accOf s g ty a k m t)
    (htm : s.team? g.team = some tm) (hr : tm.tensor tid = .ok r)
    (htype : (k.tile m t).type = .int ∧ tFmt r ≠ 11 ∨ (k.tile m t).type = .float ∧ tFmt r = 11) :
    accrdStBody h ty rm d a c tid s g = .error (trapOf .badtid) := by
  have hstores : (k.tile m t).stores (tFmt r) = false := by
    unfold Tile.stores
    rcases htype with ⟨hi, h11⟩ | ⟨hf, h11⟩
    · rw [hi]
      simpa using h11
    · rw [hf, h11]
      rfl
  unfold accrdStBody
  rw [accTile_acts hacc (checkHeld_nil g), htm]
  dsimp only [bind, Except.bind]
  rw [hr]
  dsimp only
  rw [hstores, if_pos (by simp)]

/-- Settles O38. -/
theorem accumulatorTiles : Obligations.AccumulatorTiles := by
  refine ⟨?_, ?_, ?_, ?_, ?_⟩
  · intro s g h ty a k m t hw hg hacc
    obtain ⟨hhas, hhas'⟩ := accOf_has hacc
    obtain ⟨hframe, hother, h0, h1⟩ := tiles_replaced hhas hhas' (fun _ _ _ => Tile.zero) rfl
    refine ⟨_, exec_results rfl hw hg (acczBody_clears hacc), hframe, fun i j => ?_⟩
    split
    · next hij =>
      obtain ⟨rfl, rfl | ⟨hf, rfl⟩⟩ := hij
      · exact h0
      · exact h1 hf
    · next hij => exact hother i j hij
  · intro s g h ty n a k m t w hw hg hacc hwd hheld hpoi
    exact exec_results rfl hw hg (accrdBody_reads h n hacc hwd hheld hpoi)
  · intro s g h ty n a k m t w hw hg hacc hwd hheld
    obtain ⟨hhas, hhas'⟩ := accOf_has hacc
    obtain ⟨hframe, hother, h0, h1⟩ := tiles_replaced hhas hhas'
      (fun k t w => k.written g (g.contributors h) n m (tilesFor ty 0).length t w) rfl
    refine ⟨_, exec_results rfl hw hg (accwrBody_writes h n hacc hwd hheld), hframe, hother, fun q hq => ?_⟩
    generalize (tilesFor ty t).zipIdx.foldl (fun k p =>
      k.setTile m p.1 (k.written g (g.contributors h) n m (tilesFor ty 0).length p.1 p.2)) k = k1 at *
    unfold Claims.accTile Claims.accRow
    by_cases hf : ty = .f64
    · rw [if_pos hf] at hwd ⊢
      rw [if_pos hf]
      rw [tilesFor_length, if_pos hf] at h0 h1
      rcases Nat.mod_two_eq_zero_or_one q with hq2 | hq2
      · rw [hq2, Nat.add_zero, h0]
        refine ⟨rfl, fun lane hlane => ?_⟩
        rw [vlane_written (by omega) hlane, show q / 2 * 2 + 0 = q by omega]
      · rw [hq2, h1 hf]
        refine ⟨rfl, fun lane hlane => ?_⟩
        rw [vlane_written (by omega) hlane, show q / 2 * 2 + 1 = q by omega, Gang.tile_setTile hhas,
          if_neg (show ¬ (m = m ∧ t + 1 = t) by omega)]
    · rw [if_neg hf] at hwd ⊢
      rw [if_neg hf]
      rw [tilesFor_length, if_neg hf] at h0
      rw [h0]
      refine ⟨rfl, fun lane hlane => ?_⟩
      rw [vlane_written (by omega) hlane, Nat.mul_one, Nat.add_zero]
  · intro s g h ty rm d a c tid k m t tm r p ps els hw hg hacc hfree hty htm hr hp hblk hent hfmt h1 h2 h3 hpoi htype hels hps
    obtain ⟨hheld, harm⟩ := hfree
    refine ⟨els.foldl (fun f e => f ||| e.2.2.2) 0, _, fun b => ?_, ?_, exec_accesses rfl hw hg
      ((holding_free hheld).trans (accrdStBody_stores h rm d c tid hacc harm hty htm hr hp hblk hent hfmt h1 h2 h3 hpoi htype hels hps))⟩
    · rw [getLsbD_flagsOf]
      simp
    · unfold Group.stepSr
      split <;> rfl
  · intro s g h ty rm d a c tid k m t tm r hw hg hacc hheld htm hr htype
    exact exec_faults rfl hw hg ((holding_free hheld).trans (accrdStBody_badtid h rm d c tid hacc htm hr htype)) rfl

end Sys2Proof.Machine

end


section
/-! # O39: `TIDSET`, `TIDGET`, `BDOT`, `HADQ`, `ZMAP` (R340, R343 to R345) -/

namespace Sys2Proof.Machine

/-! ## `TIDSET`, `TIDGET` -/

theorem tidsetBody_sets {s : State} {g : Group} {a : Opd} {tid : BitVec 6} {t : Team} {r : TBits}
    (ht : s.team? g.team = some t) (htid : tid.toNat < t.tids.length) (ha : (g.uni64 a).toNat % 64 = 0)
    (hlat : ∀ k ∈ s.gangs, k.latches = []) (hr : s.readRecord g (g.uni64 a) = .ok r)
    (hok : recordBad r (64 * (s.valsOf t).smw) (s.valsOf t).dtc = false) :
    tidsetBody a tid s g = .ok {
      s := s.modTeam t.id (fun q => { q with tids := q.tids.set tid.toNat (some r) }), g := g,
      touches := [⟨g.uni64 a, 64, false, false⟩] } := by
  have hno : s.tidLatched t.id tid = false := by
    unfold State.tidLatched
    rw [List.any_eq_false]
    intro k hk
    rw [hlat k hk]
    simp
  unfold tidsetBody
  rw [ht]
  dsimp only [bind, Except.bind]
  rw [if_neg (by omega), hno, if_neg Bool.false_ne_true, if_neg (by omega), hr]
  dsimp only
  rw [hok, if_neg Bool.false_ne_true]

theorem tensor_of_entry {t : Team} {tid : BitVec 6} {r : TBits} (h : t.tids[tid.toNat]? = some (some r)) :
    t.tensor tid = .ok r := by
  unfold Team.tensor
  rw [List.getD_eq_getElem?_getD, h]
  rfl

/-- A word of a record (R73). -/
theorem recordWord (r : TBits) (w : BitVec 3) : (r.extractLsb' (64 * w.toNat) 64).setWidth 128 =
    BitVec.ofNat 128 (r.toNat / 2 ^ (64 * w.toNat) % 2 ^ 64) := by
  apply BitVec.eq_of_toNat_eq
  have hlt : r.toNat / 2 ^ (64 * w.toNat) % 2 ^ 64 < 2 ^ 64 := Nat.mod_lt _ (Nat.two_pow_pos 64)
  rw [BitVec.toNat_setWidth, BitVec.extractLsb'_toNat, BitVec.toNat_ofNat, Nat.shiftRight_eq_div_pow]

theorem tidgetBody_returns {s : State} {g : Group} {t : Team} {r : TBits} {tid : BitVec 6} (w : BitVec 3) (d : Opd)
    (ht : s.team? g.team = some t) (hr : t.tids[tid.toNat]? = some (some r)) :
    tidgetBody w d tid s g = .ok { s := s, g := g, long := [Claims.counted g d .matrix
      (r.toNat / 2 ^ (64 * w.toNat) % 2 ^ 64)] } := by
  unfold tidgetBody
  rw [ht]
  dsimp only [bind, Except.bind]
  rw [tensor_of_entry hr]
  dsimp only
  rw [recordWord]
  rfl

/-! ## `BDOT` (R340) -/

theorem elemBits_narrow {ty : FTy} (hn : isNarrow ty = true) : elemBits ty = if ty = .e2m1 then 4 else 8 := by
  cases ty with
  | e4m3 | e5m2 | e2m1 => rfl
  | _ => cases hn

theorem elemVal_narrow {ty : FTy} (hn : isNarrow ty = true) (c : Nat) : elemVal ty 0 c = valOf ty c := by
  cases ty with
  | e4m3 | e5m2 | e2m1 => rfl
  | _ => cases hn

theorem bdotLane_eq {ty : FTy} (hn : isNarrow ty = true) (ra rb : TBits) (xa xb : Word64) (l : List Code) :
    bdotLane ty ra rb xa xb (arg l 0) (arg l 1) (arg l 2) (arg l 3) = Claims.bdot ty ra rb xa xb l := by
  have hsnan (v : FVal) : snanFlag [v] = Claims.snan [v] := snanFlag_eq [v]
  have hzip : (bdotVals ty (arg l 1)).zip (bdotVals ty (arg l 2)) = (List.range 8).map (fun i =>
      (valOf ty ((arg l 1).toNat / 2 ^ ((if ty = .e2m1 then 4 else 8) * i) % 2 ^ (if ty = .e2m1 then 4 else 8)),
        valOf ty ((arg l 2).toNat / 2 ^ ((if ty = .e2m1 then 4 else 8) * i) % 2 ^ (if ty = .e2m1 then 4 else 8)))) := by
    unfold bdotVals
    rw [elemBits_narrow hn, List.zip_map']
    simp only [elemVal_narrow hn]
  unfold bdotLane Claims.bdot
  dsimp only
  rw [hzip, hsnan, Nat.pow_zero, Nat.div_one, Nat.pow_one]

theorem bdotBody_eq {s : State} {g : Group} {t : Team} {ty : FTy} {d a b c : Opd} {n tida tidb : BitVec 6} {ra rb : TBits}
    {w : Nat} (h : Hdr) (rm : Rm) (hn : isNarrow ty = true) (ht : s.team? g.team = some t) (hra : t.tensor tida = .ok ra)
    (hrb : t.tensor tidb = .ok rb) (hta : tTy ra = some ty) (htb : tTy rb = some ty) (hea : tEnt ra = false)
    (heb : tEnt rb = false) (hblk : tBlk ra = tBlk rb) (hle : tBlk ra ≤ 1) (hw : w = if ty = .e2m1 then 32 else 64)
    (hheld : g.checkHeld [(d, 32), (a, w), (b, w), (c, 32)] = .ok ()) :
    bdotBody h ty rm d a b c (.x n) tida tidb s g = valueBody h d 32 [(d, 32), (a, w), (b, w), (c, 32)] true rm
      (fun _ l => Claims.bdot ty ra rb (g.xVal n) (g.xVal (n + 1)) l) s g := by
  have hbits : 8 * elemBits ty = w := by
    rw [elemBits_narrow hn, hw]
    split <;> rfl
  unfold bdotBody
  dsimp only
  rw [hbits, hheld, ht]
  dsimp only [bind, Except.bind]
  rw [hra]
  dsimp only
  rw [hrb]
  dsimp only
  rw [hta, htb, hea, heb, hblk, if_neg (by rw [hblk] at hle; simp; omega)]
  simp only [bdotLane_eq hn]

/-! ## `HADQ` (R344) -/

section Hadq
variable (g : Group) (h : Hdr) (rm : Rm) (src : BitVec 6) (r : TBits) (p : Pos) (ts : FVal)

/-- The value of a lane that `HADQ` stores. -/
def hadVal (n : Nat) : FVal := valOf .f32 (g.vLane src n).toNat

/-- The code of a lane's element, with its flags. -/
def hadCode (n : Nat) : Nat × FFlags :=
  hadElem (fmtOf ((tTy r).getD .e4m3)) rm (g.draw rm n) ⟨hadVal g src n, false⟩ (mulVal oneVal ts).1

/-- The element of a lane. -/
def hadEl (n : Nat) : Pos × Nat × (Nat × FFlags) :=
  ({ p with i0 := p.i0 + n }, n, ((hadCode g rm src r ts n).1, (hadCode g rm src r ts n).2 ||| Claims.snan [hadVal g src n]))

/-- The lanes that store in a block of 32, if its row fits. -/
def hadLanes (b : Nat) : List Nat :=
  if tExt r 0 < p.i0 + 32 * b + 32 then []
  else ((List.range 32).filter (fun j => (g.contributors h).getLsbD (32 * b + j))).map (fun j => 32 * b + j)

/-- The block of `HADQ` whose elements some lanes store. -/
def hadHalf (l : List Nat) : HadBlock :=
  { elems := l.map (fun n => (storeOf (hadEl g rm src r p ts n), (hadCode g rm src r ts n).2)), whole := none
    flags := 0 ||| snanFlag (l.map (hadVal g src)), count := l.length }

theorem hadStores_eq : Claims.hadStores g h rm src r p ts =
    (hadLanes g h r p 0 ++ hadLanes g h r p 1).map (hadEl g rm src r p ts) := by
  have hhalf (b : Nat) : (((List.range 32).map (fun j => 32 * b + j)).filter (fun i => (g.contributors h).getLsbD i)).filter
      (fun n => decide (p.i0 + (n / 32 + 1) * 32 ≤ tExt r 0)) = hadLanes g h r p b := by
    rw [List.filter_map]
    unfold hadLanes
    split
    · next hb =>
      rw [List.filter_eq_nil_iff]
      intro n hn
      obtain ⟨j, hj, rfl⟩ := List.mem_map.1 hn
      have := List.mem_range.1 (List.mem_filter.1 hj).1
      simp only [decide_eq_true_eq]
      omega
    · next hb =>
      rw [List.filter_eq_self.2]
      · rfl
      · intro n hn
        obtain ⟨j, hj, rfl⟩ := List.mem_map.1 hn
        have := List.mem_range.1 (List.mem_filter.1 hj).1
        simp only [decide_eq_true_eq]
        omega
  have hlanes : (lanesOf (g.contributors h)).filter (fun n => decide (p.i0 + (n / 32 + 1) * 32 ≤ tExt r 0)) =
      hadLanes g h r p 0 ++ hadLanes g h r p 1 := by
    have h0 : (List.range 32).map (fun j => 32 * 0 + j) = List.range 32 := by simp
    rw [← hhalf 0, ← hhalf 1, ← List.filter_append, ← List.filter_append, h0]
    rfl
  unfold Claims.hadStores
  rw [hlanes]
  rfl

variable {r}

/-- A block of `HADQ` to a tensor without blocks and without rotation. -/
theorem hadBlock_eq (t : Team) (hfmt : tFmt r ≤ 1) (hblk : tBlk r = 0) (hhad : tHad r = false) (b : Nat) :
    g.hadBlock t h rm src r p ts b = hadHalf g rm src r p ts (hadLanes g h r p b) := by
  have hdxb : tDxb r = false := by
    unfold tDxb
    rw [Bool.or_eq_false_iff, beq_eq_false_iff_ne, beq_eq_false_iff_ne]
    omega
  unfold Group.hadBlock hadHalf hadLanes
  dsimp only
  split
  · simp [snanFlag, flagIf]
  · rw [hdxb, if_neg Bool.false_ne_true, hhad, hadRotate, hhad]
    simp only [Bool.false_eq_true, if_false, hblk, if_true, List.map_map, List.length_map]
    have hget (j : Nat) (hj : j < 32) : ((List.range 32).map ((fun x => (⟨x, false⟩ : Exact)) ∘ fun j =>
        valOf .f32 (g.vLane src (32 * b + j)).toNat)).getD j ⟨.nan false, false⟩ = ⟨hadVal g src (32 * b + j), false⟩ := by
      rw [List.getD_eq_getElem?_getD, List.getElem?_map, List.getElem?_range hj]
      rfl
    have hget' (j : Nat) (hj : j < 32) : ((List.range 32).map (fun j =>
        valOf .f32 (g.vLane src (32 * b + j)).toNat)).getD j (.nan false) = hadVal g src (32 * b + j) := by
      rw [List.getD_eq_getElem?_getD, List.getElem?_map, List.getElem?_range hj]
      rfl
    congr 1
    · refine List.map_congr_left fun j hj => ?_
      rw [hget j (List.mem_range.1 (List.mem_filter.1 hj).1)]
      simp only [Function.comp, storeOf, hadEl, hadCode, Nat.add_assoc]
    · congr 2
      refine List.map_congr_left fun j hj => ?_
      exact hget' j (List.mem_range.1 (List.mem_filter.1 hj).1)

end Hadq

/-- What some blocks raise. -/
def hadRaised (bs : List HadBlock) : FFlags :=
  bs.foldl (fun f b => b.elems.foldl (fun f x => f ||| x.2) (f ||| b.flags)) 0

/-- The flags that the two blocks raise are those of the elements that they store. -/
theorem getLsbD_hadRaised (g : Group) (rm : Rm) (src : BitVec 6) (r : TBits) (p : Pos) (ts : FVal) (l1 l2 : List Nat)
    (k : Nat) : (hadRaised [hadHalf g rm src r p ts l1, hadHalf g rm src r p ts l2]).getLsbD k = true ↔
      ∃ x ∈ (l1 ++ l2).map (hadEl g rm src r p ts), x.2.2.2.getLsbD k = true := by
  have hsnan (l : List Nat) : (snanFlag (l.map (hadVal g src))).getLsbD k = true ↔
      ∃ n ∈ l, (Claims.snan [hadVal g src n]).getLsbD k = true := by
    rw [snanFlag_eq]
    unfold Claims.snan
    simp only [List.mem_map, List.mem_singleton, exists_eq_left, exists_exists_and_eq_and]
    split
    · next hex =>
      obtain ⟨n, hn, hv⟩ := hex
      exact ⟨fun hk => ⟨n, hn, by rw [if_pos hv]; exact hk⟩, fun ⟨m, hm, hk⟩ => by
        split at hk
        · exact hk
        · simp at hk⟩
    · next hno =>
      refine ⟨fun hk => by simp at hk, fun ⟨n, hn, hk⟩ => ?_⟩
      split at hk
      · next hv => exact absurd ⟨n, hn, hv⟩ hno
      · simp at hk
  have hz : (0 : FFlags).getLsbD k = false := BitVec.getLsbD_zero
  simp only [hadRaised, hadHalf, List.foldl_cons, List.foldl_nil, getLsbD_flagsOf (fun x : Store × FFlags => x.2),
    BitVec.getLsbD_or, Bool.or_eq_true, hsnan, List.mem_map, List.mem_append, exists_exists_and_eq_and, hadEl,
    hz, Bool.false_eq_true, false_or]
  constructor
  · rintro (((⟨n, hn, hk⟩ | ⟨n, hn, hk⟩) | ⟨n, hn, hk⟩) | ⟨n, hn, hk⟩)
    · exact ⟨n, .inl hn, .inr hk⟩
    · exact ⟨n, .inl hn, .inl hk⟩
    · exact ⟨n, .inr hn, .inr hk⟩
    · exact ⟨n, .inr hn, .inl hk⟩
  · rintro ⟨n, hn | hn, hk | hk⟩
    · exact .inl (.inl (.inr ⟨n, hn, hk⟩))
    · exact .inl (.inl (.inl ⟨n, hn, hk⟩))
    · exact .inr ⟨n, hn, hk⟩
    · exact .inl (.inr ⟨n, hn, hk⟩)

/-- What `HADQ` leaves of the elements that it stores (R344). -/
def hadStored (s : State) (g : Group) (d : Opd) (rm : Rm) (r : TBits) (ps : List Page) (els : List (Pos × Nat × (Nat × FFlags)))
    (fl : FFlags) : Done :=
  { s := (Claims.storeAll ⟨g.core, ps⟩ r s els).clearTiles ⟨g.core, ps⟩ r (els.map (fun e => tileIndex r e.1))
    g := (g.raiseFlags fl).stepSr rm, touches := pageTouches ps, long := [Claims.counted g d .matrix els.length] }

theorem hadqBody_stores {s : State} {g : Group} {a c e : Opd} {tid : BitVec 6} {t : Team} {r : TBits} {p : Pos}
    {ps : List Page} {els : List (Pos × Nat × (Nat × FFlags))} (h : Hdr) (rm : Rm) (d : Opd)
    (harm : (s.part (s.accessor g).part).arm = false) (ht : s.team? g.team = some t)
    (hheld : g.checkHeld [(a, 32)] = .ok ()) (hr : t.tensor tid = .ok r) (hp : p = posOf (g.uni64 c)) (hfmt : tFmt r ≤ 1)
    (hblk : tBlk r = 0) (hhad : tHad r = false) (hent : tEnt r = false) (h0 : p.i0 % 32 = 0) (h1 : p.i1 < tExt r 1)
    (h2 : p.i2 < tExt r 2) (h3 : p.i3 < tExt r 3)
    (hels : els = Claims.hadStores g h rm (vNum a) r p (tensorScale (tTsf r) (g.uni64 e)))
    (hps : s.probeStores g r (els.map storeOf) = .ok ps) :
    ∃ fl : FFlags, (∀ b, fl.getLsbD b = true ↔ ∃ x ∈ els, x.2.2.2.getLsbD b = true) ∧
      hadqBody h rm d a c e tid s g = .ok (hadStored s g d rm r ps els fl) := by
  have hwidth : tWidth r ≠ 4 := by
    unfold tWidth
    have : tFmt r = 0 ∨ tFmt r = 1 := by omega
    rcases this with h | h <;> rw [h] <;> decide
  generalize hts : tensorScale (tTsf r) (g.uni64 e) = ts at hels
  rw [hadStores_eq] at hels
  generalize hl0 : hadLanes g h r p 0 = l0 at hels
  generalize hl1 : hadLanes g h r p 1 = l1 at hels
  have hb0 := hadBlock_eq g h rm (vNum a) p ts t hfmt hblk hhad 0
  have hb1 := hadBlock_eq g h rm (vNum a) p ts t hfmt hblk hhad 1
  rw [hl0] at hb0
  rw [hl1] at hb1
  have hlt (n : Nat) (hn : n ∈ l0 ++ l1) : n < 64 := by
    have hblock (b : Nat) (hb : n ∈ hadLanes g h r p b) : n < 32 * b + 32 := by
      unfold hadLanes at hb
      split at hb
      · cases hb
      · obtain ⟨j, hj, rfl⟩ := List.mem_map.1 hb
        have := List.mem_range.1 (List.mem_filter.1 hj).1
        omega
    rcases List.mem_append.1 hn with h | h
    · have := hblock 0 (hl0 ▸ h); omega
    · have := hblock 1 (hl1 ▸ h); omega
  have hgood : (decide (4 < tFmt r) || tEnt r || decide (p.i0 % 32 ≠ 0) || decide (tExt r 1 ≤ p.i1) || decide (tExt r 2 ≤ p.i2) ||
      decide (tExt r 3 ≤ p.i3)) = false := by
    have : ¬ 4 < tFmt r := by omega
    simp [this, hent, h0, h1, h2, h3]
  refine ⟨hadRaised [hadHalf g rm (vNum a) r p ts l0, hadHalf g rm (vNum a) r p ts l1],
    fun b => by rw [hels]; exact getLsbD_hadRaised .., ?_⟩
  unfold hadqBody
  rw [ht]
  dsimp only [bind, Except.bind]
  rw [hheld]
  dsimp only
  rw [hr]
  dsimp only
  rw [← hp, hgood, if_neg Bool.false_ne_true, hts, hb0, hb1]
  have helems : [hadHalf g rm (vNum a) r p ts l0, hadHalf g rm (vNum a) r p ts l1].flatMap (fun b => b.elems) =
      (l0 ++ l1).map (fun n => (storeOf (hadEl g rm (vNum a) r p ts n), (hadCode g rm (vNum a) r ts n).2)) := by
    simp [hadHalf]
  have hkeep : ((l0 ++ l1).map (fun n => (storeOf (hadEl g rm (vNum a) r p ts n),
      (hadCode g rm (vNum a) r ts n).2))).map (fun x => x.1) = els.map storeOf := by
    rw [hels, List.map_map, List.map_map]
    rfl
  have hfind (l : List (Store × FFlags)) :
      l.find? (fun x => Option.any t.scaleBad.contains (scaleByte r x.1.pos)) = none := by
    rw [List.find?_eq_none]
    intro x _
    rw [scaleByte, if_pos hblk]
    exact Bool.false_ne_true
  have hwhole : [hadHalf g rm (vNum a) r p ts l0, hadHalf g rm (vNum a) r p ts l1].filterMap (fun b => b.whole) = [] := rfl
  have hcount : ([hadHalf g rm (vNum a) r p ts l0, hadHalf g rm (vNum a) r p ts l1].map (fun b => b.count)).sum =
      els.length := by
    simp [hels, hadHalf]
  have hlimit : (els.map storeOf).filter (fun x => decide (x.lane < 64)) = els.map storeOf := by
    rw [List.filter_eq_self, hels, List.map_map]
    intro x hx
    obtain ⟨n, hn, rfl⟩ := List.mem_map.1 hx
    exact decide_eq_true (hlt n hn)
  rw [helems, hfind, hkeep, hwhole, hcount]
  dsimp only [Option.map_none, Option.getD_none]
  rw [hlimit, hps]
  dsimp only [List.foldlM_nil, pure, Except.pure, List.foldl_nil, List.map_nil]
  have hmem : MemOnly s (s.putStores g h r ps (els.map storeOf)) := by
    rw [putStores_unwatched h ps els harm hwidth]
    exact (memOnly_storeAll _ r els s).trans (memOnly_clearTiles _ _ _ _)
  rw [hmem.unwatched (f := s.forkOf g (if h.st = true then s.ordinal g g.pc else none)) harm,
    putStores_unwatched h ps els harm hwidth]
  rfl

/-! ## `ZMAP` (R345) -/

theorem spans_one (va : Word64) : spans va 1 = [(va, 1)] := by
  unfold spans
  show spansOf 2 va 1 = _
  unfold spansOf
  dsimp only
  rw [if_neg (by decide), if_pos]
  split <;> omega

theorem reachRead_one (s : State) (k : Reach) (va : Word64) : s.reachRead k va 1 = [s.read8 (pageLoc k.core k.pages va)] := by
  unfold State.reachRead
  rw [spans_one]
  rfl

theorem reachWrite_one (s : State) (k : Reach) (va : Word64) (v : Nat) :
    s.reachWrite k va (bytesOf 1 v) = s.writeNat (pageLoc k.core k.pages va) 1 v := by
  unfold State.reachWrite
  rw [length_bytesOf, spans_one]
  rfl

theorem mapAddr_byte (r : TBits) (t : Nat) : mapAddr r (8 * (t / 8)) = mapAddr r t := by
  unfold mapAddr
  rw [show 8 * (t / 8) / 8 = t / 8 by omega]

/-- A map byte with a tile's bit set to z. -/
def mapBit (old : Nat) (i : Nat) (z : Bool) : Nat :=
  if z then old ||| 2 ^ i else old &&& (255 - 2 ^ i)

theorem testBit_mapBit (old : Nat) {i j : Nat} (hi : i < 8) (hj : j < 8) (z : Bool) :
    (mapBit old i z).testBit j = if j = i then z else old.testBit j := by
  have hmask : ∀ i < 8, ∀ j < 8, (255 - 2 ^ i).testBit j = decide (j ≠ i) := by decide
  unfold mapBit
  cases z with
  | true =>
    rw [if_pos rfl, Nat.testBit_or, Nat.testBit_two_pow]
    by_cases h : j = i
    · simp [h]
    · simp [h, Ne.symm h]
  | false =>
    rw [if_neg Bool.false_ne_true, Nat.testBit_and, hmask i hi j hj]
    by_cases h : j = i <;> simp [h]

/-- Do all elements of a tile encode ±0? -/
def tileZero (s : State) (k : Reach) (r : TBits) (t : Nat) : Bool :=
  (tileRows r t).all (fun x => rowZero r (s.reachRead k x.1 x.2))

theorem mapTile_eq (s : State) (k : Reach) (r : TBits) (t : Nat) :
    s.mapTile k r t = (s.writeNat (pageLoc k.core k.pages (mapAddr r t)) 1
      (mapBit (s.read8 (pageLoc k.core k.pages (mapAddr r t))).toNat (t % 8) (tileZero s k r t)), tileZero s k r t) := by
  unfold State.mapTile
  dsimp only
  rw [reachRead_one, reachWrite_one, show natOf [s.read8 (pageLoc k.core k.pages (mapAddr r t))] =
    (s.read8 (pageLoc k.core k.pages (mapAddr r t))).toNat from rfl]
  rfl

section Zmap
variable (s : State) (k : Reach) (r : TBits)

/-- The location of a map byte. -/
def mapLoc (i : Nat) : Nat :=
  pageLoc k.core k.pages (mapAddr r (8 * i))

/-- One tile's turn: its bit is written, and counted where it is 1. -/
def zmapStep (acc : State × Nat) (t : Nat) : State × Nat :=
  ((acc.1.mapTile k r t).1, acc.2 + (acc.1.mapTile k r t).2.toNat)

/-- What the tiles below m have left: their bits, their count, and every byte but those of the map. -/
structure Mapped (m : Nat) (acc : State × Nat) : Prop where
  wf : Memory.wf acc.1.mem = true
  mem : MemOnly s acc.1
  count : acc.2 = (List.range m).countP (fun t => tileZero s k r t)
  bits : ∀ t < m, (acc.1.read8 (pageLoc k.core k.pages (mapAddr r t))).getLsbD (t % 8) = tileZero s k r t
  other : ∀ x, (∀ i < (tileCount r + 7) / 8, x ≠ mapLoc k r i) → acc.1.read8 x = s.read8 x

variable {s k r}

/-- Where no row of a tile has a byte of the map, the tile's rows read as before. -/
theorem Mapped.rows {m t : Nat} {acc : State × Nat} (hm : Mapped s k r m acc) (ht : t < tileCount r)
    (hrows : ∀ i < (tileCount r + 7) / 8, ∀ x ∈ (List.range (tileCount r)).flatMap (tileRows r), ∀ q ∈ spans x.1 x.2,
      ¬ (pageLoc k.core k.pages q.1 ≤ mapLoc k r i ∧ mapLoc k r i < pageLoc k.core k.pages q.1 + q.2)) :
    tileZero acc.1 k r t = tileZero s k r t := by
  unfold tileZero
  rw [Bool.eq_iff_iff, List.all_eq_true, List.all_eq_true]
  refine forall₂_congr fun x hx => ?_
  have hin : x ∈ (List.range (tileCount r)).flatMap (tileRows r) := List.mem_flatMap.2 ⟨t, List.mem_range.2 ht, hx⟩
  have hread : acc.1.reachRead k x.1 x.2 = s.reachRead k x.1 x.2 := by
    unfold State.reachRead
    refine List.flatMap_congr fun q hq => List.map_congr_left fun j hj => hm.other _ fun i hi he => ?_
    have := List.mem_range.1 hj
    exact hrows i hi x hin q hq (by omega)
  rw [hread]

theorem Mapped.step {m : Nat} {acc : State × Nat} (hm : Mapped s k r m acc) (hlt : m < tileCount r)
    (hapart : ∀ i j, i < j → j < (tileCount r + 7) / 8 → mapLoc k r i ≠ mapLoc k r j)
    (hrows : ∀ i < (tileCount r + 7) / 8, ∀ x ∈ (List.range (tileCount r)).flatMap (tileRows r), ∀ q ∈ spans x.1 x.2,
      ¬ (pageLoc k.core k.pages q.1 ≤ mapLoc k r i ∧ mapLoc k r i < pageLoc k.core k.pages q.1 + q.2)) :
    Mapped s k r (m + 1) (zmapStep k r acc m) := by
  have hz := hm.rows hlt hrows
  have hloc (t : Nat) : pageLoc k.core k.pages (mapAddr r t) = mapLoc k r (t / 8) := by rw [mapLoc, mapAddr_byte]
  have hread (x : Nat) : (acc.1.mapTile k r m).1.read8 x =
      if x = mapLoc k r (m / 8) then
        byteOf (mapBit (acc.1.read8 (mapLoc k r (m / 8))).toNat (m % 8) (tileZero s k r m)) 0
      else acc.1.read8 x := by
    rw [mapTile_eq, hz, hloc]
    dsimp only
    rw [State.read8_writeNat hm.wf]
    by_cases hx : x = mapLoc k r (m / 8)
    · rw [if_pos (by omega), if_pos hx, show x - mapLoc k r (m / 8) = 0 by omega]
    · rw [if_neg (by omega), if_neg hx]
  have hbit (t : Nat) : (byteOf (mapBit (acc.1.read8 (mapLoc k r (m / 8))).toNat (m % 8) (tileZero s k r m)) 0).getLsbD
      (t % 8) = if t % 8 = m % 8 then tileZero s k r m else (acc.1.read8 (mapLoc k r (m / 8))).getLsbD (t % 8) := by
    have h8 : t % 8 < 8 := Nat.mod_lt _ (by decide)
    rw [byteOf, Nat.mul_zero, Nat.shiftRight_zero, BitVec.getLsbD_ofNat, decide_eq_true h8, Bool.true_and,
      testBit_mapBit _ (Nat.mod_lt _ (by decide)) h8]
    rfl
  refine ⟨?_, ?_, ?_, fun t ht => ?_, fun x hx => ?_⟩
  · show Memory.wf (acc.1.mapTile k r m).1.mem = true
    rw [mapTile_eq]
    exact Memory.write_wf hm.wf _ _
  · refine hm.mem.trans ?_
    show MemOnly acc.1 (acc.1.mapTile k r m).1
    rw [mapTile_eq]
    exact MemOnly.write _ _ _
  · show acc.2 + (acc.1.mapTile k r m).2.toNat = _
    rw [mapTile_eq, hz, hm.count, List.range_succ, List.countP_append, List.countP_singleton]
    cases tileZero s k r m <;> rfl
  · show ((acc.1.mapTile k r m).1.read8 _).getLsbD _ = _
    rw [hread, hloc]
    by_cases hbyte : t / 8 = m / 8
    · rw [hbyte, if_pos rfl, hbit]
      split
      · rw [show t = m by omega]
      · have := hm.bits t (by omega)
        rw [hloc, hbyte] at this
        exact this
    · have hne : mapLoc k r (t / 8) ≠ mapLoc k r (m / 8) := hapart _ _ (by omega) (by omega)
      rw [if_neg hne, ← hloc]
      exact hm.bits t (by omega)
  · show (acc.1.mapTile k r m).1.read8 x = _
    rw [hread, if_neg (hx _ (by omega)), hm.other x hx]

theorem Mapped.all (hwf : Memory.wf s.mem = true)
    (hapart : ∀ i j, i < j → j < (tileCount r + 7) / 8 → mapLoc k r i ≠ mapLoc k r j)
    (hrows : ∀ i < (tileCount r + 7) / 8, ∀ x ∈ (List.range (tileCount r)).flatMap (tileRows r), ∀ q ∈ spans x.1 x.2,
      ¬ (pageLoc k.core k.pages q.1 ≤ mapLoc k r i ∧ mapLoc k r i < pageLoc k.core k.pages q.1 + q.2))
    (m : Nat) (hm : m ≤ tileCount r) : Mapped s k r m ((List.range m).foldl (zmapStep k r) (s, 0)) := by
  induction m with
  | zero => exact ⟨hwf, MemOnly.refl s, rfl, fun t ht => absurd ht (by omega), fun _ _ => rfl⟩
  | succ m ih =>
    rw [List.range_succ, List.foldl_append]
    exact (ih (by omega)).step (by omega) hapart hrows

end Zmap

theorem reachTrap_clean {s : State} (hp : s.poison = []) (k : Reach) (x : Range) : s.reachTrap k x = none := by
  unfold State.reachTrap State.reachPoison
  rw [hp]
  rfl

theorem zmapBody_badtid {s : State} {g : Group} {t : Team} {tid : BitVec 6} {r : TBits} (h : Hdr) (d : Opd)
    (ht : s.team? g.team = some t) (hr : t.tensor tid = .ok r) (hz : tZmv r = false) :
    zmapBody h d tid s g = .error (trapOf .badtid) := by
  unfold zmapBody
  rw [ht]
  dsimp only [bind, Except.bind]
  rw [hr]
  dsimp only
  rw [hz, if_pos (by decide)]

theorem zmapBody_maps {s : State} {g : Group} {t : Team} {tid : BitVec 6} {r : TBits} {ps : List Page} (h : Hdr) (d : Opd)
    (ht : s.team? g.team = some t) (hr : t.tensor tid = .ok r) (hz : tZmv r = true) (hpoi : s.poison = [])
    (hprobe : (((List.range (tileCount r)).flatMap (tileRows r)).foldlM (fun ps x =>
        s.probe (s.accessor g) .read x.1 x.2 ps) [] >>= fun ps0 =>
      (List.range ((tileCount r + 7) / 8)).foldlM (fun ps i =>
        s.probe (s.accessor g) .write (mapAddr r (8 * i)) 1 ps) ps0) = .ok ps)
    (harm : (s.part (s.accessor g).part).arm = false)
    (hmem : MemOnly s ((List.range (tileCount r)).foldl (zmapStep ⟨g.core, ps⟩ r) (s, 0)).1) :
    zmapBody h d tid s g = .ok {
      s := ((List.range (tileCount r)).foldl (zmapStep ⟨g.core, ps⟩ r) (s, 0)).1, g := g, touches := pageTouches ps
      long := [Claims.counted g d .matrix ((List.range (tileCount r)).foldl (zmapStep ⟨g.core, ps⟩ r) (s, 0)).2] } := by
  have hnone (l : List Range) : l.findSome? (s.reachTrap ⟨g.core, ps⟩) = none := by
    rw [List.findSome?_eq_none_iff]
    exact fun x _ => reachTrap_clean hpoi _ x
  unfold zmapBody
  rw [ht]
  dsimp only [bind, Except.bind] at hprobe ⊢
  rw [hr]
  dsimp only
  rw [hz, if_neg (by decide)]
  cases hread : ((List.range (tileCount r)).flatMap (tileRows r)).foldlM (fun ps x =>
      s.probe (s.accessor g) .read x.1 x.2 ps) [] with
  | error e => rw [hread] at hprobe; cases hprobe
  | ok ps0 =>
    rw [hread] at hprobe
    dsimp only at hprobe ⊢
    rw [List.foldlM_map, hprobe]
    dsimp only
    rw [hnone]
    dsimp only
    unfold zmapStep at hmem ⊢
    rw [hmem.unwatched]
    · rfl
    · exact harm

/-- Settles O39. -/
theorem tensorInstructions : Obligations.TensorInstructions := by
  refine ⟨?_, ?_, ?_, ?_, ?_⟩
  · intro s g h a tid t r hw hg hheld ht htid ha hlat hr hok
    exact exec_accesses rfl hw hg ((holding_free hheld).trans (tidsetBody_sets ht htid ha hlat hr hok))
  · intro s g h w d tid t r hw hg ht hr
    exact exec_results rfl hw hg (tidgetBody_returns w d ht hr)
  · intro s g g1 h ty rm d a b c n tida tidb t ra rb w srcs once res ws hw hg ht hra hrb hta htb hea heb hblk hle hwd hsrcs
      hheld hq honce hres hws
    subst hsrcs honce hws
    have hn : isNarrow ty = true := by
      simp only [Instr.wellFormed, Bool.and_eq_true] at hw
      tauto
    have hheld' : g.checkHeld [(d, 32), (d, 32), (a, w), (b, w), (c, 32)] = .ok () := by
      unfold Group.checkHeld at hheld ⊢
      simpa using hheld
    have hsame : Claims.once h (d :: [(d, 32), (a, w), (b, w), (c, 32)].map (·.1)) = true → ∀ i, res i = res 0 := by
      intro ho i
      simp only [hres, ho, Claims.readLane, if_true]
    refine ⟨_, _, getLsbD_bodyFlags g.helper hsame, rfl, ?_⟩
    refine exec_results rfl hw hg ((bdotBody_eq h rm hn ht hra hrb hta htb hea heb hblk hle hwd hheld).trans ?_)
    rw [valueBody_eq s h true rm _ hheld' hq (res := res) (fun lane => by rw [hres, g.laneResults_eq]; rfl)]
    unfold Group.stepSr Group.raiseFlags
    by_cases hrm : rm = .sr <;> simp only [hrm, if_true, if_false]
  · intro s g h rm d a c e tid t r p ps els hw hg hfree ht hheld hr hp hfmt hblk hhad hent h0 h1 h2 h3 hels hps
    obtain ⟨hbehind, harm⟩ := hfree
    obtain ⟨fl, hfl, hbody⟩ := hadqBody_stores h rm d harm ht hheld hr hp hfmt hblk hhad hent h0 h1 h2 h3 hels hps
    refine ⟨fl, _, hfl, ?_, exec_accesses rfl hw hg ((holding_free hbehind).trans hbody)⟩
    unfold Group.stepSr
    split <;> rfl
  · intro s g h d tid t r ps k hw hg hfree ht hr
    obtain ⟨hbehind, harm⟩ := hfree
    refine ⟨fun hz => exec_faults rfl hw hg ((holding_free hbehind).trans (zmapBody_badtid h d ht hr hz)) rfl, ?_⟩
    intro hz hwf hpoi hk hprobe hapart hrows
    subst hk
    have hall := Mapped.all (k := ⟨g.core, ps⟩) hwf hapart hrows (tileCount r) le_rfl
    refine ⟨_, ?_, hall.bits, hall.other⟩
    rw [exec_accesses rfl hw hg ((holding_free hbehind).trans (zmapBody_maps h d ht hr hz hpoi hprobe harm hall.mem)),
      hall.count]
    rfl

end Sys2Proof.Machine

end


section
/-! # O36: gangs (R329, R330) -/

namespace Sys2Proof.Machine

/-! ## The gang word -/

theorem length_eraseDups_le (l : List Nat) : l.eraseDups.length ≤ l.length := by
  match l with
  | [] => exact le_rfl
  | a :: as =>
    rw [List.eraseDups_cons, List.length_cons, List.length_cons]
    have hf := List.length_filter_le (fun b => !b == a) as
    exact Nat.succ_le_succ ((length_eraseDups_le _).trans hf)
termination_by l.length
decreasing_by exact Nat.lt_succ_of_le (List.length_filter_le _ _)

/-- A list without repetitions is what is left of it without its repetitions. -/
theorem length_eraseDups_iff (l : List Nat) : l.eraseDups.length = l.length ↔ l.Nodup := by
  induction l with
  | nil => simp
  | cons a as ih =>
    have hle := length_eraseDups_le (as.filter (fun b => !b == a))
    have hf := List.length_filter_le (fun b => !b == a) as
    have hself : a ∉ as → as.filter (fun b => !b == a) = as := fun h => by
      rw [List.filter_eq_self]
      intro b hb
      have : b ≠ a := fun he => h (he ▸ hb)
      simpa using this
    rw [List.eraseDups_cons, List.length_cons, List.length_cons, List.nodup_cons]
    constructor
    · intro h
      have hnot : a ∉ as := fun ha => by
        have := List.length_filter_lt_length_iff_exists (p := fun b => !b == a) |>.2 ⟨a, ha, by simp⟩
        omega
      rw [hself hnot] at h
      exact ⟨hnot, ih.1 (Nat.succ.inj h)⟩
    · rintro ⟨hnot, hnd⟩
      rw [hself hnot, ih.2 hnd]

theorem gangCnt_eq (w : Word64) : gangCnt w = w.toNat / 2 ^ 29 % 8 := by
  rw [gangCnt, bitsN, Nat.shiftRight_eq_div_pow]
  rfl

theorem gangPer_eq (w : Word64) : gangPer w = w.toNat / 2 ^ 32 % 256 := by
  rw [gangPer, bitsN, Nat.shiftRight_eq_div_pow]
  rfl

theorem gangList_eq (w : Word64) : gangList w = (List.range (w.toNat / 2 ^ 29 % 8)).map (fun i => w.toNat / 16 ^ i % 16) := by
  rw [gangList, gangCnt_eq]
  refine List.map_congr_left fun i _ => ?_
  rw [bitsN, Nat.shiftRight_eq_div_pow, show 4 * i + 3 + 1 - 4 * i = 4 by omega, Nat.pow_mul]
  rfl

/-- The check of a forming word (R329). -/
theorem gangWordOk_iff (g : Group) (tgrp : Nat) (w : Word64) : gangWordOk g tgrp w = true ↔ Claims.gangWord g tgrp w := by
  have hw := w.isLt
  have hm := g.gmem.isLt
  have h63 : bitsN w 63 40 = w.toNat / 2 ^ 40 := by
    rw [bitsN, Nat.shiftRight_eq_div_pow, Nat.mod_eq_of_lt]
    omega
  have h28 : bitsN w 28 24 = w.toNat / 2 ^ 24 % 32 := by
    rw [bitsN, Nat.shiftRight_eq_div_pow]
    rfl
  have h23 : bitsN w 23 0 = w.toNat % 2 ^ 24 := by rw [bitsN, Nat.shiftRight_zero]
  have hg : bitsN g.gmem 31 29 = g.gmem.toNat / 2 ^ 29 := by
    rw [bitsN, Nat.shiftRight_eq_div_pow, Nat.mod_eq_of_lt]
    omega
  unfold gangWordOk Claims.gangWord
  simp only [Bool.and_eq_true, decide_eq_true_eq, beq_iff_eq, length_eraseDups_iff, List.all_eq_true,
    List.contains_iff_mem, h63, h28, h23, hg, gangCnt_eq, gangPer_eq, ← gangList_eq, Nat.pow_mul, and_assoc]

/-! ## Issuing `GANG` -/

theorem otherWord_iff (s : State) (g : Group) (w : Word64) : s.otherWord g w = true ↔
    ∃ q ∈ s.listed g.team w, ∃ v b, q.wait = some (.gang v b) ∧ v ≠ w := by
  unfold State.otherWord
  rw [List.any_eq_true]
  refine exists_congr fun q => and_congr_right fun _ => ?_
  split
  · next v b hq => simp [hq]
  · next hno => exact iff_of_false Bool.false_ne_true fun ⟨v, b, hq, _⟩ => hno v b hq

theorem othersWait_iff (s : State) (g : Group) (w : Word64) : s.othersWait g w = true ↔
    (s.listed g.team w).length = gangCnt w ∧
      ∀ q ∈ s.listed g.team w, q.id = g.id ∨ ∃ b, q.wait = some (.gang w b) := by
  unfold State.othersWait
  simp only [Bool.and_eq_true, beq_iff_eq, List.all_eq_true, Bool.or_eq_true]
  refine and_congr_right fun _ => forall₂_congr fun q _ => or_congr_right ?_
  split
  · next v b hq =>
    rw [hq, beq_iff_eq]
    exact ⟨fun h => ⟨b, by rw [h]⟩, fun ⟨c, hc⟩ => by cases hc; rfl⟩
  · next hno => exact iff_of_false Bool.false_ne_true fun ⟨b, hq⟩ => hno w b hq

section Issue
variable {s : State} {g : Group} {a : Opd} {w : Word64} {t : Team} (h : Hdr)

theorem gangBody_forms {s1 : State} (hmay : g.mayGang = true) (hw : w = g.uni64 a) (hcnt : gangCnt w ≠ 0)
    (ht : s.team? g.team = some t) (hword : Claims.gangWord g (s.valsOf t).tgrp w)
    (hsame : ∀ q ∈ s.listed g.team w, ∀ v b, q.wait = some (.gang v b) → v = w)
    (hs1 : s1 = if s.listed g.team w = [] ∨ (s.listed g.team w).length ≠ gangCnt w ∨
        (∃ q ∈ s.listed g.team w, q.id ≠ g.id ∧ ∀ b, q.wait ≠ some (.gang w b)) then s
      else s.modCore (g.core.getD 0) (fun c => { c with
        tileReqs := c.tileReqs ++ [⟨g.id, gangCnt w * gangPer w, c.fired⟩] })) :
    gangBody h a s g = .ok { s := s1, g := g, wait := some (.gang w h.sw), hold := true } := by
  have hother : s.otherWord g w = false := by
    rw [← Bool.not_eq_true, otherWord_iff]
    exact fun ⟨q, hq, v, b, hv, hne⟩ => hne (hsame q hq v b hv)
  have hs1' : s1 = if s.othersWait g w then
      s.modCore (g.core.getD 0) (fun c => { c with tileReqs := c.tileReqs ++ [⟨g.id, gangCnt w * gangPer w, c.fired⟩] })
      else s := by
    rw [hs1]
    by_cases hall : s.othersWait g w = true
    · obtain ⟨hlen, hq⟩ := (othersWait_iff s g w).1 hall
      rw [if_pos hall, if_neg]
      rintro (he | hne | ⟨q, hmem, hid, hno⟩)
      · rw [he] at hlen
        exact hcnt hlen.symm
      · exact hne hlen
      · rcases hq q hmem with hid' | ⟨b, hb⟩
        · exact hid hid'
        · exact hno b hb
    · rw [if_neg hall, if_pos]
      rw [othersWait_iff] at hall
      by_cases hlen : (s.listed g.team w).length = gangCnt w
      · refine .inr (.inr ?_)
        by_contra hno
        refine hall ⟨hlen, fun q hq => ?_⟩
        by_contra hq'
        rw [not_or] at hq'
        exact hno ⟨q, hq, hq'.1, fun b hb => hq'.2 ⟨b, hb⟩⟩
      · exact .inr (.inl hlen)
  unfold gangBody
  dsimp only
  rw [← hw, hmay, if_neg (by decide), if_neg hcnt, ht, hother]
  dsimp only
  rw [(gangWordOk_iff g _ w).2 hword, if_neg (by decide), ← hs1']

theorem gangBody_othered (hmay : g.mayGang = true) (hw : w = g.uni64 a) (hcnt : gangCnt w ≠ 0)
    (hother : ∃ q ∈ s.listed g.team w, ∃ v b, q.wait = some (.gang v b) ∧ v ≠ w) :
    gangBody h a s g = .error (trapOf .gangmis) := by
  unfold gangBody
  dsimp only
  rw [← hw, hmay, if_neg (by decide), if_neg hcnt, (otherWord_iff s g w).2 hother, if_pos (by simp)]

theorem gangBody_misformed (hmay : g.mayGang = true) (hw : w = g.uni64 a) (hcnt : gangCnt w ≠ 0)
    (ht : s.team? g.team = some t) (hword : ¬ Claims.gangWord g (s.valsOf t).tgrp w) :
    gangBody h a s g = .error (trapOf .gangmis) := by
  have hbad : gangWordOk g (s.valsOf t).tgrp w = false := by
    rw [← Bool.not_eq_true, gangWordOk_iff]
    exact hword
  unfold gangBody
  dsimp only
  rw [← hw, hmay, if_neg (by decide), if_neg hcnt, ht]
  dsimp only
  rw [hbad, if_pos (by simp)]

theorem gangBody_dissolves {k : Nat} (hmay : g.mayGang = true) (hw : g.uni64 a = 0) (hk : g.gang = some k) :
    gangBody h a s g = .ok { s := s.modGang k (fun q => { q with dissolving := q.dissolving ++ [g.id] }), g := g,
                             wait := some (.dissolve h.sw false), hold := true } := by
  unfold gangBody
  dsimp only
  rw [hw, hmay, if_neg (by decide), if_pos (by decide), hk]
  dsimp only
  rw [if_pos rfl]

end Issue

/-! ## Members that go on -/

/-- A step that changes one group alone of the groups, and neither the gangs nor what is asked for tiles. -/
structure OneGroup (s t : State) (k : Nat) : Prop where
  gangs : t.gangs = s.gangs
  reqs : ∀ c, (t.core c).tileReqs = (s.core c).tileReqs
  others : ∀ j ≠ k, t.group? j = s.group? j

/-- Steps that change one group each, every one another group: each group has its own step's change. -/
theorem foldl_oneGroup {α : Type} {key : α → Nat} {f : State → α → State} {Q : α → Group → Prop} {P : α → Group → Group → Prop}
    (hstep : ∀ s a g, s.group? (key a) = some g → Q a g →
      ∃ G, (f s a).group? (key a) = some G ∧ P a g G ∧ OneGroup s (f s a) (key a))
    (l : List α) (s : State) (hnd : (l.map key).Nodup) (hQ : ∀ a ∈ l, ∃ g, s.group? (key a) = some g ∧ Q a g) :
    (l.foldl f s).gangs = s.gangs ∧ (∀ c, ((l.foldl f s).core c).tileReqs = (s.core c).tileReqs) ∧
      (∀ j, j ∉ l.map key → (l.foldl f s).group? j = s.group? j) ∧
      ∀ a ∈ l, ∀ g, s.group? (key a) = some g → ∃ G, (l.foldl f s).group? (key a) = some G ∧ P a g G := by
  induction l generalizing s with
  | nil => exact ⟨rfl, fun _ => rfl, fun _ _ => rfl, fun a ha => absurd ha List.not_mem_nil⟩
  | cons a l ih =>
    rw [List.map_cons, List.nodup_cons] at hnd
    obtain ⟨hnot, hnd⟩ := hnd
    obtain ⟨g, hg, hq⟩ := hQ a List.mem_cons_self
    obtain ⟨G, hG, hP, hone⟩ := hstep s a g hg hq
    have hkeep (b : α) (hb : b ∈ l) : (f s a).group? (key b) = s.group? (key b) :=
      hone.others _ fun he => hnot (he ▸ List.mem_map_of_mem hb)
    obtain ⟨h1, h2, h3, h4⟩ := ih (f s a) hnd fun b hb => by
      rw [hkeep b hb]
      exact hQ b (List.mem_cons_of_mem _ hb)
    refine ⟨h1.trans hone.gangs, fun c => (h2 c).trans (hone.reqs c), fun j hj => ?_, fun b hb g' hg' => ?_⟩
    · rw [List.map_cons, List.mem_cons, not_or] at hj
      exact (h3 j hj.2).trans (hone.others j hj.1)
    · rcases List.mem_cons.1 hb with rfl | hb
      · rw [hg] at hg'
        cases hg'
        exact ⟨G, (h3 _ hnot).trans hG, hP⟩
      · exact h4 b hb g' ((hkeep b hb).trans hg')

/-- What a member leaves of itself as it goes on behind its `GANG`. -/
structure GoesOn (g G : Group) : Prop where
  pc : G.pc = nextSlot g.pc
  v : G.v = g.v
  x : G.x = g.x
  wait : G.wait = none
  gang : G.gang = g.gang
  gmem : G.gmem = g.gmem

theorem State.counted_reqs (s : State) (g : Group) (n c : Nat) : ((s.counted g n).core c).tileReqs = (s.core c).tileReqs := by
  unfold State.counted State.countIssue State.addEvent State.touch
  refine (State.core_modCore_keep (fun c => c.tileReqs) _ _ _ (fun c => by split <;> rfl) c).trans ?_
  refine State.core_modCore_keep (fun c => c.tileReqs) _ _ _ (fun c => ?_) c
  rfl

/-- A group that waits no more. -/
def Group.freed (g : Group) : Group := { g with wait := none }

/-- The header under which an instruction that held its group completes. -/
def heldHdr (sw : Bool) : Hdr :=
  { pm := 0, pn := false, sw := sw, uni := false, tr := false, st := true }

theorem finishHeld_oneGroup {s : State} {g g0 : Group} (hg : s.group? g.id = some g0) (hp : g.pend = []) (sw : Bool) :
    ∃ G, (s.finishHeld g sw).group? g.id = some G ∧ GoesOn g G ∧ OneGroup s (s.finishHeld g sw) g.id := by
  have hfin : s.finishHeld g sw = (s.counted g.freed 0).setGroup
      (g.freed.completed (heldHdr sw) (s.ordinal g.freed g.pc) [] [] none s.nextId) :=
    State.finish_eq s g.freed (heldHdr sw) [] [] none (fun _ => ⟨hp, rfl⟩)
  obtain ⟨ls, st, hspec⟩ := g.freed.completed_spec (heldHdr sw) (s.ordinal g.freed g.pc) [] [] none s.nextId
  rw [hfin]
  generalize g.freed.completed (heldHdr sw) (s.ordinal g.freed g.pc) [] [] none s.nextId = G at hspec ⊢
  have hid : G.id = g.id := by rw [hspec]; rfl
  refine ⟨G, State.group?_setGroup_of_id (by exact hg) hid, ⟨?_, ?_, ?_, ?_, ?_, ?_⟩, rfl, fun c => ?_, fun j hj => ?_⟩
  · rw [hspec]; rfl
  · rw [hspec]; rfl
  · rw [hspec]; rfl
  · rw [hspec]
  · rw [hspec]; rfl
  · rw [hspec]; rfl
  · exact State.counted_reqs s _ 0 c
  · exact State.group?_setGroup_ne (by rw [hid]; exact hj)

/-! ## `GANG_FORM` (R329, R330) -/

theorem mem_groups_of_listed {s : State} {team : Nat} {w : Word64} {q : Group} (h : q ∈ s.listed team w) : q ∈ s.groups := by
  obtain ⟨i, _, hf⟩ := List.mem_filterMap.1 h
  exact List.mem_of_find?_eq_some hf

theorem listed_nodup {s : State} (hnd : (s.groups.map (fun q => q.id)).Nodup) (team : Nat) {w : Word64}
    (hl : (gangList w).Nodup) : ((s.listed team w).map (fun q => q.id)).Nodup := by
  refine List.Nodup.map_on (fun q hq r hr he => List.inj_on_of_nodup_map hnd (mem_groups_of_listed hq) (mem_groups_of_listed hr) he) ?_
  refine List.Nodup.filterMap (fun i j q hi hj => ?_) hl
  have h1 := List.find?_some hi
  have h2 := List.find?_some hj
  simp only [Bool.and_eq_true, beq_iff_eq] at h1 h2
  obtain ⟨⟨-, h1⟩, -⟩ := h1
  obtain ⟨⟨-, h2⟩, -⟩ := h2
  exact h1.symm.trans h2

theorem group?_of_nodup {s : State} (hnd : (s.groups.map (fun q => q.id)).Nodup) {q : Group} (hq : q ∈ s.groups) :
    s.group? q.id = some q := by
  cases hf : s.group? q.id with
  | none =>
    unfold State.group? at hf
    rw [List.find?_eq_none] at hf
    exact absurd (beq_self_eq_true q.id) (hf q hq)
  | some r =>
    have hr : r ∈ s.groups := List.mem_of_find?_eq_some hf
    rw [List.inj_on_of_nodup_map hnd hr hq (State.group?_id hf)]

/-- A member of a gang as it forms: the gang and its `GMEM`. -/
def Group.joins (g : Group) (k : Nat) (m : Word32) : Group :=
  { g with gmem := m, gang := some k }

section Joins
variable (g : Group) (k : Nat) (m : Word32)

theorem Group.joins_id : (g.joins k m).id = g.id := rfl

theorem Group.joins_pend : (g.joins k m).pend = g.pend := rfl

/-- A member that goes on in its gang, from what it was. -/
theorem GoesOn.of_joins {g : Group} {k : Nat} {m : Word32} {G : Group} (h : GoesOn (g.joins k m) G) :
    G.gang = some k ∧ G.gmem = m ∧ G.wait = none ∧ G.pc = nextSlot g.pc ∧ G.v = g.v ∧ G.x = g.x :=
  ⟨h.gang, h.gmem, h.wait, h.pc, h.v, h.x⟩

end Joins

/-- The `GMEM` of the member at a place of a gang (R190). -/
def gangMem (w : Word64) (i : Nat) : Word32 := BitVec.ofNat 32 (w.toNat % 2 ^ 32 + i * 2 ^ 26)

/-- The `SW` of a `GANG` that holds its group. -/
def gangSw : Option Wait → Bool
  | some (.gang _ sw) => sw
  | _ => false

/-- A listed group, with its place, goes on in its gang. -/
def State.joinGang (w : Word64) (k : Nat) (s : State) (p : Group × Nat) : State :=
  let g := (s.group? p.1.id).getD p.1
  s.finishHeld (g.joins k (gangMem w p.2)) (gangSw g.wait)

/-- The gang that forms of the listed groups. -/
def State.newGang (s : State) (team : Nat) (w : Word64) : Gang :=
  { id := s.nextId, team := team, members := (s.listed team w).map (fun h => h.id), per := gangPer w
    tiles := List.replicate (s.listed team w).length (List.replicate (gangPer w) Tile.zero), latches := [], dissolving := []
    subs := List.range (s.listed team w).length }

theorem joinGang_oneGroup (w : Word64) (k : Nat) (s : State) (p : Group × Nat) (g : Group) (hg : s.group? p.1.id = some g)
    (hq : g.pend = [] ∧ ∃ sw, g.wait = some (.gang w sw)) :
    ∃ G, (s.joinGang w k p).group? p.1.id = some G ∧ GoesOn (g.joins k (gangMem w p.2)) G ∧ OneGroup s (s.joinGang w k p) p.1.id := by
  obtain ⟨hp, sw, hw⟩ := hq
  have hid : (g.joins k (gangMem w p.2)).id = p.1.id := (Group.joins_id g k _).trans (State.group?_id hg)
  obtain ⟨G, hG, hon, hone⟩ := finishHeld_oneGroup (g := g.joins k (gangMem w p.2)) (by rw [hid]; exact hg)
    ((Group.joins_pend g k _).trans hp) sw
  rw [hid] at hG hone
  have hjoin : s.joinGang w k p = s.finishHeld (g.joins k (gangMem w p.2)) sw := by
    unfold State.joinGang
    rw [hg, Option.getD_some]
    show s.finishHeld (g.joins k (gangMem w p.2)) (gangSw g.wait) = _
    rw [hw, gangSw]
  rw [hjoin]
  exact ⟨G, hG, hon, hone⟩

/-- The machine as a gang of the team's listed groups forms, before its members go on. -/
def State.granting (s : State) (team : Nat) (w : Word64) (c : Nat) (rest : List PoolReq) : State :=
  { s.modCore c (fun k => { k with tileReqs := rest, growing := false }) with
    gangs := s.gangs ++ [s.newGang team w], nextId := s.nextId + 1 }

theorem formGang_eq (s : State) (team : Nat) (w : Word64) (c : Nat) (rest : List PoolReq) :
    (s.modCore c (fun k => { k with tileReqs := rest, growing := false })).formGang team w =
      (s.listed team w).zipIdx.foldl (State.joinGang w s.nextId) (s.granting team w c rest) := rfl

theorem getD_replicate_same {α : Type} (n i : Nat) (a : α) : (List.replicate n a).getD i a = a := by
  rw [List.getD_eq_getElem?_getD, List.getElem?_replicate]
  split <;> rfl

theorem tile_newGang (s : State) (team : Nat) (w : Word64) (m j : Nat) : (s.newGang team w).tile m j = Tile.zero := by
  unfold Gang.tile State.newGang
  dsimp only
  rw [List.getD_eq_getElem?_getD (l := List.replicate _ (List.replicate _ _)), List.getElem?_replicate]
  split
  · exact getD_replicate_same _ _ _
  · rfl

theorem grantTiles_forms {s : State} {q : Group} {c : Nat} {r : PoolReq} {rest : List PoolReq} {w : Word64} {b : Bool}
    (hreqs : (s.core c).tileReqs = r :: rest) (hq : s.group? r.gid = some q) (hw : q.wait = some (.gang w b))
    (hh : s.haltReached q = false) (hfit : s.tilesUsed c + r.blocks ≤ 192) :
    s.grantTiles c = (s.modCore c (fun k => { k with tileReqs := rest, growing := false })).formGang q.team w := by
  have hq' : (s.modCore c (fun k => { k with tileReqs := rest, growing := false })).group? r.gid = some q := hq
  unfold State.grantTiles
  rw [hreqs]
  dsimp only
  rw [if_pos (by exact hfit), hq']
  dsimp only
  rw [hw]
  dsimp only
  rw [hh, if_neg Bool.false_ne_true]

/-! ## `GANG_DISSOLVE` (R329) -/

/-- A group without a gang. -/
def Group.leaves (g : Group) : Group := { g with gmem := 0, gang := none }

theorem leaveGang_goesOn {s : State} {i : Nat} {g : Group} {sw : Bool} (hg : s.group? i = some g)
    (hw : g.wait = some (.dissolve sw false)) : s.leaveGang i = s.finishHeld g.leaves sw := by
  unfold State.leaveGang
  rw [hg]
  dsimp only
  rw [hw]
  rfl

theorem execGangDissolve_all {s : State} {k : Gang} (hk : s.gang? k.id = some k) (hlat : k.latches = [])
    (hdis : ∀ m ∈ k.members, m ∈ k.dissolving)
    (hh : ∀ m ∈ k.members, ∀ g, s.group? m = some g → s.haltReached g = false) :
    ∃ u : State, exec (.gangDissolve k.id) s = .next (k.members.foldl State.leaveGang u) ∧
      u.gangs = s.gangs.filter (fun q => q.id != k.id) ∧ u.groups = s.groups := by
  have hall : k.members.all k.dissolving.contains = true := by
    rw [List.all_eq_true]
    exact fun m hm => List.contains_iff_mem.2 (hdis m hm)
  have hexec : exec (.gangDissolve k.id) s = .next (k.members.foldl State.leaveGang
      (match s.gangCore k with
       | some c => ({ s with gangs := s.gangs.filter (fun g => g.id != k.id) } : State).idleGrow c
       | none => { s with gangs := s.gangs.filter (fun g => g.id != k.id) })) := by
    show execGangDissolve k.id s = _
    unfold execGangDissolve
    rw [hk]
    dsimp only
    refine (if_pos ?_).trans rfl
    rw [hall, hlat, Bool.and_eq_true, Bool.not_eq_true', List.any_eq_false]
    refine ⟨rfl, fun i hi => ?_⟩
    cases hg : s.group? i with
    | none => exact Bool.false_ne_true
    | some g =>
      dsimp only
      rw [hh i hi g hg]
      exact Bool.false_ne_true
  refine ⟨_, hexec, ?_, ?_⟩
  · split <;> rfl
  · split <;> rfl

/-- The oldest request of a core forms its gang: every listed group goes on in it. -/
theorem gangForm_forms {s : State} {g q : Group} {c : Nat} {r : PoolReq} {rest : List PoolReq} {w : Word64} {b : Bool}
    (hg : s.group? g.id = some g) (hc : g.core = some c) (hlt : c < 272) (hreqs : (s.core c).tileReqs = r :: rest)
    (hq : s.group? r.gid = some q) (hw : q.wait = some (.gang w b)) (hh : s.haltReached q = false)
    (hfit : s.tilesUsed c + r.blocks ≤ 192) (hnd : (s.groups.map (fun q => q.id)).Nodup) (hlist : (gangList w).Nodup)
    (hmem : ∀ m ∈ s.listed q.team w, m.pend = [] ∧ ∃ sw, m.wait = some (.gang w sw)) :
    ∃ t : State, exec (.gangForm g.id) s = .next t ∧ (t.core c).tileReqs = rest ∧
      t.gangs = s.gangs ++ [s.newGang q.team w] ∧
      ∀ (i : Nat) (m : Group), (s.listed q.team w)[i]? = some m →
        ∃ m', t.group? m.id = some m' ∧ GoesOn (m.joins s.nextId (gangMem w i)) m' := by
  have hexec : exec (.gangForm g.id) s = .next (s.grantTiles c) := by
    show execGangForm g.id s = _
    unfold execGangForm
    rw [hg]
    dsimp only
    rw [hc]
  rw [grantTiles_forms hreqs hq hw hh hfit, formGang_eq] at hexec
  have hkeys : (s.listed q.team w).zipIdx.map (fun p => p.1.id) = (s.listed q.team w).map (fun m => m.id) := by
    have hfst : ((s.listed q.team w).zipIdx.map Prod.fst).map (fun m => m.id) = (s.listed q.team w).map (fun m => m.id) := by
      rw [List.zipIdx_map_fst]
    rw [← hfst, List.map_map]
    rfl
  obtain ⟨h1, h2, -, h4⟩ := foldl_oneGroup (key := fun p : Group × Nat => p.1.id) (f := State.joinGang w s.nextId)
    (Q := fun _ g => g.pend = [] ∧ ∃ sw, g.wait = some (.gang w sw))
    (P := fun p g G => GoesOn (g.joins s.nextId (gangMem w p.2)) G) (joinGang_oneGroup w s.nextId)
    (s.listed q.team w).zipIdx (s.granting q.team w c rest)
    (by rw [hkeys]; exact listed_nodup hnd q.team hlist) (fun p hp => by
      have hl : p.1 ∈ s.listed q.team w := by
        have := List.mem_map_of_mem (f := Prod.fst) hp
        rwa [List.zipIdx_map_fst] at this
      exact ⟨p.1, group?_of_nodup hnd (mem_groups_of_listed hl), hmem p.1 hl⟩)
  refine ⟨_, hexec, (h2 c).trans ?_, h1, ?_⟩
  · show ((s.modCore c (fun k => { k with tileReqs := rest, growing := false })).core c).tileReqs = rest
    rw [State.core_modCore s hlt, if_pos rfl]
  · intro i m hi
    have hl : m ∈ s.listed q.team w := List.mem_of_getElem? hi
    obtain ⟨G, hG, hon⟩ := h4 (m, i) (List.mk_mem_zipIdx_iff_getElem?.2 hi) m
      (group?_of_nodup hnd (mem_groups_of_listed hl))
    exact ⟨G, hG, hon⟩

/-- A gang that every member has given up dissolves: every member goes on without it. -/
theorem gangDissolve_frees {s : State} {k : Gang} (hk : s.gang? k.id = some k) (hlat : k.latches = [])
    (hdis : ∀ m ∈ k.members, m ∈ k.dissolving) (hnd : k.members.Nodup)
    (hall : ∀ m ∈ k.members, ∃ g, s.group? m = some g ∧ s.haltReached g = false ∧ g.pend = [] ∧
      ∃ sw, g.wait = some (.dissolve sw false)) :
    ∃ t : State, exec (.gangDissolve k.id) s = .next t ∧ t.gangs = s.gangs.filter (fun q => q.id != k.id) ∧
      ∀ m ∈ k.members, ∀ g, s.group? m = some g → ∃ g', t.group? m = some g' ∧ GoesOn g.leaves g' := by
  obtain ⟨u, hexec, hgangs, hgroups⟩ := execGangDissolve_all hk hlat hdis fun m hm g hg => by
    obtain ⟨g', hg', hh, -⟩ := hall m hm
    rw [hg] at hg'
    cases hg'
    exact hh
  have hsame (m : Nat) : u.group? m = s.group? m := State.group?_congr hgroups m
  obtain ⟨h1, -, -, h4⟩ := foldl_oneGroup (key := fun m : Nat => m) (f := State.leaveGang)
    (Q := fun _ g => g.pend = [] ∧ ∃ sw, g.wait = some (.dissolve sw false)) (P := fun _ g G => GoesOn g.leaves G)
    (fun s m g hg hq => by
      obtain ⟨hp, sw, hw⟩ := hq
      have hid := State.group?_id hg
      have hgl : s.group? g.leaves.id = some g := by rw [show g.leaves.id = m from hid]; exact hg
      obtain ⟨G, hG, hon, hone⟩ := finishHeld_oneGroup hgl hp sw
      rw [show g.leaves.id = m from hid] at hG hone
      rw [leaveGang_goesOn hg hw]
      exact ⟨G, hG, hon, hone⟩)
    k.members u (by simpa using hnd) (fun m hm => by
      obtain ⟨g, hg, -, hp, hw⟩ := hall m hm
      exact ⟨g, (hsame m).trans hg, hp, hw⟩)
  refine ⟨_, hexec, h1.trans hgangs, fun m hm g hg => ?_⟩
  obtain ⟨G, hG, hon⟩ := h4 m hm g ((hsame m).trans hg)
  exact ⟨G, hG, hon⟩

/-- Settles O36. -/
theorem gangs : Obligations.Gangs := by
  refine ⟨?_, ?_, ?_, ?_⟩
  · intro s g h a w s1 hw hg hmode hwait hheld hmay hword hcnt
    have hissue (s' : State) : (if g.wait.isNone then s'.touch (g.core.getD 0) else s') = s'.touch (g.core.getD 0) := by
      rw [hwait]
      rfl
    refine ⟨fun t ht hok hsame hs1 => ?_, fun hother => ?_, fun t ht hbad => ?_⟩
    · rw [← hissue]
      exact exec_parks (body := ordered (gangBody h a)) (u := true) rfl hw hg (fun _ => hmode)
        ((holding_free hheld).trans (gangBody_forms h hmay hword hcnt ht hok hsame hs1))
    · exact exec_traps (body := ordered (gangBody h a)) (u := true) rfl hw hg (fun _ => hmode)
        ((holding_free hheld).trans (gangBody_othered h hmay hword hcnt hother)) rfl
    · exact exec_traps (body := ordered (gangBody h a)) (u := true) rfl hw hg (fun _ => hmode)
        ((holding_free hheld).trans (gangBody_misformed h hmay hword hcnt ht hbad)) rfl
  · intro s g q c r rest w b hg hc hlt hreqs hq hw hh hfit hnd hlist hmem
    obtain ⟨t, hexec, hrest, hgangs, hon⟩ := gangForm_forms hg hc hlt hreqs hq hw hh hfit hnd hlist hmem
    refine ⟨t, hexec, hrest, ⟨s.newGang q.team w, hgangs, rfl, rfl, rfl, rfl, rfl, rfl, tile_newGang s q.team w⟩, ?_⟩
    intro i m hi
    obtain ⟨m', hm', h⟩ := hon i m hi
    exact ⟨m', hm', h.of_joins⟩
  · intro s g h a k hw hg hmode hwait hheld hmay hzero hk
    have hissue (s' : State) : (if g.wait.isNone then s'.touch (g.core.getD 0) else s') = s'.touch (g.core.getD 0) := by
      rw [hwait]
      rfl
    rw [← hissue]
    exact exec_parks (body := ordered (gangBody h a)) (u := true) rfl hw hg (fun _ => hmode)
      ((holding_free hheld).trans (gangBody_dissolves h hmay hzero hk))
  · intro s k hk hlat hdis hnd hall
    obtain ⟨t, hexec, hgangs, hon⟩ := gangDissolve_frees hk hlat hdis hnd hall
    refine ⟨t, hexec, hgangs, fun m hm g hg => ?_⟩
    obtain ⟨g', hg', h⟩ := hon m hm g hg
    exact ⟨g', hg', h.gang, h.gmem, h.wait, h.pc⟩

end Sys2Proof.Machine

end


section
/-! # O35: `WRET` (R244 to R248) -/

namespace Sys2Proof.Machine

/-! ## A step of a reduction (R246) -/

theorem redITy_eq (r : BitVec 8) : redITy r = Claims.redTy (r.toNat / 16 % 8) := by
  have hty : redTyN r = r.toNat / 16 % 8 := by
    rw [redTyN, bitsN, Nat.shiftRight_eq_div_pow]
    rfl
  have hlt : r.toNat / 16 % 8 < 8 := Nat.mod_lt _ (by decide)
  unfold redITy
  rw [hty]
  generalize r.toNat / 16 % 8 = n at hlt
  interval_cases n <;> rfl

theorem redIsF_eq (r : BitVec 8) : redIsF r = decide (r.toNat / 16 % 8 = 2 ∨ r.toNat / 16 % 8 = 5) := by
  have hty : redTyN r = r.toNat / 16 % 8 := by
    rw [redTyN, bitsN, Nat.shiftRight_eq_div_pow]
    rfl
  unfold redIsF
  rw [hty, Bool.decide_or]
  rfl

theorem redOpN_eq (r : BitVec 8) : redOpN r = r.toNat % 16 := by
  rw [redOpN, bitsN, Nat.shiftRight_zero]
  rfl

theorem widthStep_eq (r : BitVec 8) (acc v : Code) (op ty : Nat) (float : Bool) : op = r.toNat % 16 →
    ty = r.toNat / 16 % 8 → float = decide (ty = 2 ∨ ty = 5) → op ≤ 8 → widthStep r acc v = (match op with
      | 0 => Claims.step (if float then .fadd else .add) (Claims.redTy ty) acc v
      | 1 => Claims.step (if float then .fmin else .min) (Claims.redTy ty) acc v
      | 2 => Claims.step (if float then .fmax else .max) (Claims.redTy ty) acc v
      | 3 => (acc &&& v, 0)
      | 4 => (acc ||| v, 0)
      | 5 => (acc ^^^ v, 0)
      | 6 => (acc, 0)
      | 7 => (v, 0)
      | _ => ((Claims.step (if float then .fadd else .add) (Claims.redTy ty) acc v).1, 0)) := by
  intro hop hty hf hle
  have hop' : redOpN r = op := (redOpN_eq r).trans hop.symm
  have hf' : redIsF r = float := by rw [hf, redIsF_eq, hty]
  unfold widthStep
  rw [hop', redITy_eq, ← hty, hf']
  simp only [redStep_eq]
  clear hop hop'
  interval_cases op <;> rfl

/-! ## The fold of some values (R245) -/

/-- What a value counts as in a fold: 1 under `COUNT`. -/
def foldVal (r : BitVec 8) (v : Code) : Code :=
  if redOpN r = 8 then redOne r else v

theorem widthFold_some (r : BitVec 8) (vals : List (Option Code)) (a : Code) (fl : FFlags) :
    (vals.foldl (fun (p : Option Code × FFlags) v =>
      match v with
      | none => (p.1, p.2)
      | some v =>
        match p.1 with
        | none => (some (foldVal r v), p.2)
        | some a => (some (widthStep r a (foldVal r v)).1, p.2 ||| (widthStep r a (foldVal r v)).2)) (some a, fl)).1 =
      some ((vals.filterMap (fun v => v.map (foldVal r))).foldl (fun a b => (widthStep r a b).1) a) := by
  induction vals generalizing a fl with
  | nil => rfl
  | cons v vals ih =>
    cases v with
    | none => exact ih a fl
    | some v => exact ih _ _

theorem widthFold_none (r : BitVec 8) (vals : List (Option Code)) (fl : FFlags) :
    (vals.foldl (fun (p : Option Code × FFlags) v =>
      match v with
      | none => (p.1, p.2)
      | some v =>
        match p.1 with
        | none => (some (foldVal r v), p.2)
        | some a => (some (widthStep r a (foldVal r v)).1, p.2 ||| (widthStep r a (foldVal r v)).2)) (none, fl)).1 =
      (match vals.filterMap (fun v => v.map (foldVal r)) with
       | [] => none
       | v :: vs => some (vs.foldl (fun a b => (widthStep r a b).1) v)) := by
  induction vals generalizing fl with
  | nil => rfl
  | cons v vals ih =>
    cases v with
    | none => exact ih fl
    | some v => exact widthFold_some r vals _ _

/-- The fold of values of which some are given, from nothing on. -/
theorem widthFold_cons {r : BitVec 8} {vals : List (Option Code)} {v : Code} {vs : List Code}
    (h : vals.filterMap (fun v => v.map (foldVal r)) = v :: vs) :
    (widthFold r none vals).1 = some (vs.foldl (fun a b => (widthStep r a b).1) v) := by
  have hfold := widthFold_none r vals 0
  rw [h] at hfold
  exact hfold

/-- The values that the callee lanes of a widening call give a caller lane are its contributions (R245). -/
theorem retVals_contributions (g : Group) {p : Pack} {tgt : CallTarget} {con : Mask} {n : BitVec 6} {j caller depth : Nat}
    (r : BitVec 8) (L : BitVec 6) (hg : tgt.gather = false)
    (hm : ∀ l ∈ p.lanes, ∃ m, l.members = [m] ∧ m.caller = caller ∧ m.depth = depth) :
    (g.retVals tgt n con (p.lanes.zipIdx.map (fun (l, i) => (i, l))) (caller, L) j r).filterMap (fun v => v.map (foldVal r)) =
      Claims.contributions g p con n r j L.toNat := by
  unfold Group.retVals Claims.contributions
  rw [List.filterMap_map, List.filterMap_filterMap]
  refine List.filterMap_congr fun q hq => ?_
  obtain ⟨l, i⟩ := q
  have hl : l ∈ p.lanes := by
    have := List.mem_map_of_mem (f := Prod.fst) hq
    rwa [List.zipIdx_map_fst] at this
  obtain ⟨m, hmem, hc, -⟩ := hm l hl
  have hlane : (m.lane.toNat = L.toNat) ↔ m.lane = L := BitVec.toNat_inj
  have hindex : indexOf? (fun q => q.caller == caller && q.lane == L) [m] = if m.lane = L then some 0 else none := by
    unfold indexOf?
    by_cases h : m.lane = L
    · simp [h, hc]
    · simp [h, hc]
  simp only [Function.comp, hmem, hindex, List.any_cons, List.any_nil, Bool.or_false, decide_eq_true_eq, hlane]
  by_cases h : m.lane = L
  · by_cases hcon : con.getLsbD i = true
    · simp [h, hcon, Group.retVal, hg, foldVal]
    · simp [h, hcon, Group.retVal]
  · simp [h]

/-! ## The results that the caller lanes are given (R248) -/

section Give
variable (vals : BitVec 6 → List (Option Code)) (fl : BitVec 6 → FFlags)

/-- Some caller lanes are given their results, one after the other. -/
def Calling.giveAll (c : Calling) (lanes : List (BitVec 6)) : Calling :=
  lanes.foldl (fun c lane => c.give lane (vals lane) (fl lane)) c

theorem Calling.giveAll_frame (c : Calling) (lanes : List (BitVec 6)) :
    (c.giveAll vals fl lanes).tgt = c.tgt ∧ (c.giveAll vals fl lanes).creg = c.creg ∧
      (c.giveAll vals fl lanes).res.length = c.res.length := by
  induction lanes generalizing c with
  | nil => exact ⟨rfl, rfl, rfl⟩
  | cons a lanes ih =>
    obtain ⟨h1, h2, h3⟩ := ih (c.give a (vals a) (fl a))
    refine ⟨h1, h2, h3.trans ?_⟩
    rw [Calling.give, List.length_map, List.length_zipIdx]

theorem Calling.giveAll_left (c : Calling) (lanes : List (BitVec 6)) (L : Nat) :
    (c.giveAll vals fl lanes).left.getLsbD L = true ↔ c.left.getLsbD L = true ∧ ∀ a ∈ lanes, a.toNat ≠ L := by
  induction lanes generalizing c with
  | nil => simp [Calling.giveAll]
  | cons a lanes ih =>
    refine (ih (c.give a (vals a) (fl a))).trans ?_
    have hgive : (c.give a (vals a) (fl a)).left.getLsbD L = true ↔ c.left.getLsbD L = true ∧ a.toNat ≠ L := by
      show (c.left &&& ~~~(single a.toNat)).getLsbD L = true ↔ _
      have hlt := a.isLt
      rw [BitVec.getLsbD_and, BitVec.getLsbD_not, getLsbD_single hlt]
      constructor
      · intro h
        simp only [Bool.and_eq_true, decide_eq_true_eq, Bool.not_eq_true', decide_eq_false_iff_not] at h
        exact ⟨h.1, fun he => h.2.2 (by omega)⟩
      · rintro ⟨h1, h2⟩
        have hL := BitVec.lt_of_getLsbD h1
        simp only [Bool.and_eq_true, decide_eq_true_eq, Bool.not_eq_true', decide_eq_false_iff_not]
        exact ⟨h1, hL, by omega⟩
    rw [hgive, List.forall_mem_cons, and_assoc]

/-- Where a lane has been given a value for a result, the result holds it. -/
def Calling.holds (c : Calling) (lanes : List (BitVec 6)) : Prop :=
  ∀ j q, c.res[j]? = some q → ∀ a ∈ lanes, ∀ x, (vals a).getD j none = some x →
    q.1.getLsbD a.toNat = true ∧ vget q.2 a.toNat 0 = x.setWidth 64

variable {vals}

theorem Calling.holds_give {c : Calling} {lanes : List (BitVec 6)} (h : c.holds vals lanes) (a : BitVec 6) (f : FFlags) :
    (c.give a (vals a) f).holds vals (a :: lanes) := by
  intro j q hq b hb x hx
  have ha := a.isLt
  rw [Calling.give, List.getElem?_map, List.getElem?_zipIdx] at hq
  cases hr : c.res[j]? with
  | none => rw [hr] at hq; cases hq
  | some q0 =>
    rw [hr] at hq
    simp only [Option.map_some, Option.some.injEq, Nat.zero_add] at hq
    cases hv : (vals a).getD j none with
    | none =>
      rw [hv] at hq
      have hbl : b ∈ lanes := by
        rcases List.mem_cons.1 hb with rfl | hb
        · rw [hv] at hx; cases hx
        · exact hb
      rw [← hq]
      exact h j q0 hr b hbl x hx
    | some y =>
      rw [hv] at hq
      dsimp only at hq
      rw [← hq]
      dsimp only
      rw [BitVec.getLsbD_or, getLsbD_single ha, vget_vset _ _ _ _ ha]
      by_cases hba : b = a
      · subst hba
        rw [hv] at hx
        cases hx
        exact ⟨by simp [ha], if_pos rfl⟩
      · have hbl : b ∈ lanes := (List.mem_cons.1 hb).resolve_left hba
        obtain ⟨h1, h2⟩ := h j q0 hr b hbl x hx
        rw [if_neg (fun he => hba (BitVec.eq_of_toNat_eq he)), h1, Bool.true_or]
        exact ⟨rfl, h2⟩

theorem Calling.holds_giveAll {c : Calling} (lanes : List (BitVec 6)) {done : List (BitVec 6)} (h : c.holds vals done) :
    (c.giveAll vals fl lanes).holds vals (lanes ++ done) := by
  induction lanes generalizing c done with
  | nil => exact h
  | cons a lanes ih =>
    have hstep := ih (c.holds_give h a (fl a))
    intro j q hq b hb
    refine hstep j q hq b ?_
    simp only [List.cons_append, List.mem_cons, List.mem_append] at hb ⊢
    tauto

end Give

/-! ## The registers that a finished call writes (R248) -/

/-- Does a write name a vector register? -/
def RegWrite.namesV (w : RegWrite) (r : BitVec 6) : Prop :=
  ∃ m val, w = .v r m val

/-- Is it a write of vector registers? -/
def RegWrite.isVec (w : RegWrite) : Prop :=
  ∃ r, RegWrite.namesV w r

theorem put_vec_frame {ws : List RegWrite} (h : ∀ w ∈ ws, RegWrite.isVec w) (g : Group) :
    (ws.foldl Group.put g).exec = g.exec ∧ (ws.foldl Group.put g).x = g.x := by
  induction ws generalizing g with
  | nil => exact ⟨rfl, rfl⟩
  | cons w ws ih =>
    obtain ⟨r, m, val, rfl⟩ := h w List.mem_cons_self
    exact ih (fun w hw => h w (List.mem_cons_of_mem _ hw)) _

theorem put_vec_apart {ws : List RegWrite} {r : BitVec 6} (h : ∀ w ∈ ws, RegWrite.isVec w) (hr : ∀ w ∈ ws, ¬ RegWrite.namesV w r)
    (g : Group) : vget (ws.foldl Group.put g).v r.toNat vzero = vget g.v r.toNat vzero := by
  induction ws generalizing g with
  | nil => rfl
  | cons w ws ih =>
    obtain ⟨k, m, val, rfl⟩ := h w List.mem_cons_self
    have hne : r ≠ k := fun he => hr _ List.mem_cons_self ⟨m, val, by rw [he]⟩
    refine (ih (fun w hw => h w (List.mem_cons_of_mem _ hw)) (fun w hw => hr w (List.mem_cons_of_mem _ hw)) _).trans ?_
    show vget (vset g.v k.toNat _) r.toNat vzero = _
    rw [vget_vset _ _ _ _ k.isLt, if_neg (fun he => hne (BitVec.eq_of_toNat_eq he))]

theorem put_v_lane (g : Group) (r : BitVec 6) {m : Mask} (val : VReg) {L : Nat} (hm : m.getLsbD L = true) :
    vlane (vget (g.put (.v r m val)).v r.toNat vzero) L = vlane val L := by
  show vlane (vget (vset g.v r.toNat _) r.toNat vzero) L = _
  rw [vget_vset _ _ _ _ r.isLt, if_pos rfl, vmerge, vlane_vreg _ _ (BitVec.lt_of_getLsbD hm), if_pos hm]

/-- The writes of result j of a finished call. -/
def Calling.writesOf (c : Calling) (q : Mask × Vector Word64 64) (j : Nat) : List RegWrite :=
  let n := c.creg + BitVec.ofNat 6 (2 * j)
  if q.1 = 0 then []
  else
    let lo := RegWrite.v n q.1 (vreg (fun i => (vget q.2 i 0).setWidth 32))
    if redBits (c.tgt.rc.red.getD j 0) = 64 then
      [lo, .v (n + 1) q.1 (vreg (fun i => (vget q.2 i 0).extractLsb' 32 32))]
    else [lo]

theorem Calling.writes_eq (c : Calling) : c.writes = c.res.zipIdx.flatMap (fun p => c.writesOf p.1 p.2) := rfl

theorem Calling.writesOf_names {c : Calling} {q : Mask × Vector Word64 64} {j : Nat} {w : RegWrite} (h : w ∈ c.writesOf q j) :
    RegWrite.namesV w (c.creg + BitVec.ofNat 6 (2 * j)) ∨ RegWrite.namesV w (c.creg + BitVec.ofNat 6 (2 * j) + 1) := by
  unfold Calling.writesOf at h
  dsimp only at h
  split at h
  · cases h
  · split at h
    · rcases List.mem_cons.1 h with rfl | h
      · exact .inl ⟨_, _, rfl⟩
      · rw [List.mem_singleton.1 h]
        exact .inr ⟨_, _, rfl⟩
    · rw [List.mem_singleton.1 h]
      exact .inl ⟨_, _, rfl⟩

theorem RegWrite.namesV_unique {w : RegWrite} {a b : BitVec 6} (h : RegWrite.namesV w a) (k : RegWrite.namesV w b) : a = b := by
  obtain ⟨m, val, rfl⟩ := h
  obtain ⟨m', val', he⟩ := k
  cases he
  rfl

/-- The pairs of registers of two results are apart. -/
theorem resultRegs_apart (creg : BitVec 6) {i j : Nat} (hi : i < 4) (hj : j < 4) (h : i ≠ j) :
    creg + BitVec.ofNat 6 (2 * i) ≠ creg + BitVec.ofNat 6 (2 * j) ∧
      creg + BitVec.ofNat 6 (2 * i) + 1 ≠ creg + BitVec.ofNat 6 (2 * j) ∧
      creg + BitVec.ofNat 6 (2 * i) ≠ creg + BitVec.ofNat 6 (2 * j) + 1 ∧
      creg + BitVec.ofNat 6 (2 * i) + 1 ≠ creg + BitVec.ofNat 6 (2 * j) + 1 := by
  refine ⟨?_, ?_, ?_, ?_⟩ <;> bv_omega

/-- After a finished call's writes a lane of a result's registers holds the result that it was given. -/
theorem Calling.put_writes {c : Calling} {q : Mask × Vector Word64 64} {j L : Nat} {y : Word64} (hlen : c.res.length ≤ 4)
    (hq : c.res[j]? = some q) (hm : q.1.getLsbD L = true) (hy : vget q.2 L 0 = y) (g : Group) :
    vlane (vget (c.writes.foldl Group.put g).v (c.creg + BitVec.ofNat 6 (2 * j)).toNat vzero) L = y.setWidth 32 ∧
      (redBits (c.tgt.rc.red.getD j 0) = 64 →
        vlane (vget (c.writes.foldl Group.put g).v (c.creg + BitVec.ofNat 6 (2 * j) + 1).toNat vzero) L =
          y.extractLsb' 32 32) := by
  obtain ⟨hj, rfl⟩ := List.getElem?_eq_some_iff.1 hq
  have hL := BitVec.lt_of_getLsbD hm
  have hzip : c.res.zipIdx = c.res.zipIdx.take j ++ (c.res[j], j) :: c.res.zipIdx.drop (j + 1) := by
    have hj' : j < c.res.zipIdx.length := by rw [List.length_zipIdx]; exact hj
    have hget : c.res.zipIdx[j] = (c.res[j], j) := by simp
    rw [← hget, ← List.drop_eq_getElem_cons hj', List.take_append_drop]
  have hindex (k : Nat) (p : (Mask × Vector Word64 64) × Nat) (hp : c.res.zipIdx[k]? = some p) : p.2 = k ∧ k < c.res.length := by
    rw [List.getElem?_zipIdx] at hp
    cases hr : c.res[k]? with
    | none => rw [hr] at hp; cases hp
    | some r =>
      rw [hr] at hp
      cases hp
      exact ⟨Nat.zero_add k, (List.getElem?_eq_some_iff.1 hr).1⟩
  have hpre (p : (Mask × Vector Word64 64) × Nat) (hp : p ∈ c.res.zipIdx.take j) : p.2 ≠ j ∧ p.2 < 4 := by
    obtain ⟨k, hk⟩ := List.mem_iff_getElem?.1 hp
    rw [List.getElem?_take] at hk
    split at hk
    · next hlt =>
      obtain ⟨h1, h2⟩ := hindex k p hk
      omega
    · cases hk
  have hpost (p : (Mask × Vector Word64 64) × Nat) (hp : p ∈ c.res.zipIdx.drop (j + 1)) : p.2 ≠ j ∧ p.2 < 4 := by
    obtain ⟨k, hk⟩ := List.mem_iff_getElem?.1 hp
    rw [List.getElem?_drop] at hk
    obtain ⟨h1, h2⟩ := hindex _ p hk
    omega
  have hvec (l : List ((Mask × Vector Word64 64) × Nat)) : ∀ w ∈ l.flatMap (fun p => c.writesOf p.1 p.2), RegWrite.isVec w := by
    intro w hw
    obtain ⟨p, _, hp⟩ := List.mem_flatMap.1 hw
    exact (Calling.writesOf_names hp).elim (fun h => ⟨_, h⟩) (fun h => ⟨_, h⟩)
  have hapart (l : List ((Mask × Vector Word64 64) × Nat)) (hl : ∀ p ∈ l, p.2 ≠ j ∧ p.2 < 4) (w : RegWrite)
      (hw : w ∈ l.flatMap (fun p => c.writesOf p.1 p.2)) :
      ¬ RegWrite.namesV w (c.creg + BitVec.ofNat 6 (2 * j)) ∧ ¬ RegWrite.namesV w (c.creg + BitVec.ofNat 6 (2 * j) + 1) := by
    obtain ⟨p, hp, hw⟩ := List.mem_flatMap.1 hw
    obtain ⟨hne, hlt⟩ := hl p hp
    obtain ⟨h1, h2, h3, h4⟩ := resultRegs_apart c.creg hlt (by omega) hne
    rcases Calling.writesOf_names hw with hn | hn
    · exact ⟨fun h => h1 (RegWrite.namesV_unique hn h), fun h => h3 (RegWrite.namesV_unique hn h)⟩
    · exact ⟨fun h => h2 (RegWrite.namesV_unique hn h), fun h => h4 (RegWrite.namesV_unique hn h)⟩
  have hne0 : c.res[j].1 ≠ 0 := fun h => by rw [h] at hm; simp at hm
  have hself : c.creg + BitVec.ofNat 6 (2 * j) ≠ c.creg + BitVec.ofNat 6 (2 * j) + 1 := by bv_omega
  have hsplit : c.writes.foldl Group.put g = ((c.res.zipIdx.drop (j + 1)).flatMap (fun p => c.writesOf p.1 p.2)).foldl Group.put
      ((c.writesOf c.res[j] j).foldl Group.put
        (((c.res.zipIdx.take j).flatMap (fun p => c.writesOf p.1 p.2)).foldl Group.put g)) := by
    rw [Calling.writes_eq]
    conv_lhs => rw [hzip]
    rw [List.flatMap_append, List.flatMap_cons, List.foldl_append, List.foldl_append]
  generalize ((c.res.zipIdx.take j).flatMap (fun p => c.writesOf p.1 p.2)).foldl Group.put g = g1 at hsplit
  rw [hsplit, put_vec_apart (hvec _) (fun w hw => (hapart _ hpost w hw).1),
    put_vec_apart (hvec _) (fun w hw => (hapart _ hpost w hw).2)]
  unfold Calling.writesOf
  dsimp only
  rw [if_neg hne0]
  by_cases h64 : redBits (c.tgt.rc.red.getD j 0) = 64
  · rw [if_pos h64]
    refine ⟨?_, fun _ => ?_⟩
    · rw [List.foldl_cons, put_vec_apart (r := c.creg + BitVec.ofNat 6 (2 * j))]
      · rw [put_v_lane _ _ _ hm, vlane_vreg _ _ hL, hy]
      · intro w hw
        rw [List.mem_singleton.1 hw]
        exact ⟨_, _, _, rfl⟩
      · intro w hw hn
        rw [List.mem_singleton.1 hw] at hn
        exact hself (RegWrite.namesV_unique hn ⟨_, _, rfl⟩)
    · rw [List.foldl_cons, List.foldl_cons, List.foldl_nil, put_v_lane _ _ _ hm, vlane_vreg _ _ hL, hy]
  · rw [if_neg h64]
    refine ⟨?_, fun h => absurd h h64⟩
    rw [List.foldl_cons, List.foldl_nil, put_v_lane _ _ _ hm, vlane_vreg _ _ hL, hy]

/-! ## The return of a packed group (R245, R248) -/

/-- The results of a caller lane, and the flags that its folds raise. -/
def laneResults (g : Group) (tgt : CallTarget) (creg : BitVec 6) (con : Mask) (lanes : List (Nat × CallLane)) (caller : Nat)
    (lane : BitVec 6) : List (Option Code × FFlags) :=
  (List.range tgt.rc.nres).map (fun j =>
    let r := tgt.rc.red.getD j 0
    let (a, fl) := widthFold r none (g.retVals tgt creg con lanes (caller, lane) j r)
    ((match a with | some v => some v | none => widthId r), fl))

/-- The values of a caller lane's results. -/
def laneVals (g : Group) (tgt : CallTarget) (creg : BitVec 6) (con : Mask) (lanes : List (Nat × CallLane)) (caller : Nat)
    (lane : BitVec 6) : List (Option Code) :=
  (laneResults g tgt creg con lanes caller lane).map (·.1)

/-- The flags that a caller is given with a lane's results. -/
def laneFlags (g : Group) (tgt : CallTarget) (creg : BitVec 6) (con : Mask) (lanes : List (Nat × CallLane)) (caller : Nat)
    (lane : BitVec 6) : FFlags :=
  (laneResults g tgt creg con lanes caller lane).foldl (fun f r => f ||| r.2) 0 ||| g.fstat

/-- A result of which some values are given is their fold. -/
theorem laneVals_fold {g : Group} {tgt : CallTarget} {creg : BitVec 6} {con : Mask} {lanes : List (Nat × CallLane)}
    {caller j : Nat} {lane : BitVec 6} {v : Code} {vs : List Code} (hj : j < tgt.rc.nres)
    (h : (g.retVals tgt creg con lanes (caller, lane) j (tgt.rc.red.getD j 0)).filterMap
      (fun v => v.map (foldVal (tgt.rc.red.getD j 0))) = v :: vs) :
    (laneVals g tgt creg con lanes caller lane).getD j none =
      some (vs.foldl (fun a b => (widthStep (tgt.rc.red.getD j 0) a b).1) v) := by
  unfold laneVals laneResults
  rw [List.getD_eq_getElem?_getD, List.getElem?_map, List.getElem?_map, List.getElem?_range hj]
  simp only [Option.map_some, Option.getD_some, widthFold_cons h]

section Return
variable {g g0 : Group} {tgt : CallTarget} {creg : BitVec 6} {con : Mask} {lanes : List (Nat × CallLane)}

/-- A caller that waits for one call, as the call stands. -/
def Group.callingNow (g0 : Group) (c : Calling) : Group := { g0 with calling := some c }

/-- Lanes of one caller are given their results: the caller's call takes them, and no other state changes. -/
theorem foldl_giveLane (hdepth : g0.depth + 1 = g.depth) (ms : List (Nat × BitVec 6 × Nat))
    (hms : ∀ m ∈ ms, m.1 = g0.id ∧ m.2.2 = g.depth) {s : State} {c : Calling}
    (hg0 : s.group? g0.id = some (g0.callingNow c)) :
    (ms.foldl (fun s m => s.giveLane g tgt creg con lanes m) s).group? g0.id =
        some (g0.callingNow (c.giveAll (laneVals g tgt creg con lanes g0.id) (laneFlags g tgt creg con lanes g0.id)
          (ms.map (fun m => m.2.1)))) ∧
      (ms.foldl (fun s m => s.giveLane g tgt creg con lanes m) s).parts = s.parts := by
  induction ms generalizing s c with
  | nil => exact ⟨hg0, rfl⟩
  | cons m ms ih =>
    obtain ⟨h1, h2⟩ := hms m List.mem_cons_self
    have hstep : s.giveLane g tgt creg con lanes m = s.setGroup (g0.callingNow
        (c.give m.2.1 (laneVals g tgt creg con lanes g0.id m.2.1) (laneFlags g tgt creg con lanes g0.id m.2.1))) := by
      obtain ⟨caller, lane, depth⟩ := m
      dsimp only at h1 h2
      subst h1 h2
      unfold State.giveLane
      dsimp only
      rw [hg0]
      dsimp only
      rw [Group.modCalling, if_pos (by exact hdepth)]
      rfl
    obtain ⟨k1, k2⟩ := ih (fun m hm => hms m (List.mem_cons_of_mem _ hm))
      (State.group?_setGroup_self (g := g0.callingNow
        (c.give m.2.1 (laneVals g tgt creg con lanes g0.id m.2.1) (laneFlags g tgt creg con lanes g0.id m.2.1))) (by exact hg0))
    rw [List.foldl_cons, hstep]
    exact ⟨k1, k2⟩

end Return

theorem find_map_keep {l : List Group} {f : Group → Group} (hf : ∀ g, (f g).id = g.id) (k : Nat) :
    (l.map f).find? (fun g => g.id == k) = (l.find? (fun g => g.id == k)).map f := by
  rw [List.find?_map]
  congr 1
  congr 1
  funext g
  simp [hf]

theorem Group.resumeIfDone_id (g : Group) : g.resumeIfDone.id = g.id := by
  unfold Group.resumeIfDone
  split
  · split
    · unfold Group.resume
      dsimp only
      generalize Calling.writes _ = ws
      have hput (ws : List RegWrite) (g : Group) : (ws.foldl Group.put g).id = g.id := by
        induction ws generalizing g with
        | nil => rfl
        | cons w ws ih => exact (ih _).trans (Group.put_id g w)
      exact hput _ _
    · rfl
  · rfl

/-- In a machine that no context of is halted, every caller without a lane left goes on. -/
theorem group?_resumeCallers {s : State} (hh : ∀ q, (s.part q).halted = false) (k : Nat) :
    s.resumeCallers.group? k = (s.group? k).map Group.resumeIfDone := by
  have hno (g : Group) : s.haltReached g = false := by
    unfold State.haltReached
    dsimp only
    rw [hh]
    rfl
  unfold State.resumeCallers State.group?
  simp only [hno, Bool.false_eq_true, if_false]
  exact find_map_keep Group.resumeIfDone_id k

theorem group?_removeGroup (s : State) (g : Group) (k : Nat) :
    (s.removeGroup g).group? k = if k = g.id then none else s.group? k := by
  have hgroups : (s.removeGroup g).groups = s.groups.filter (fun h => h.id != g.id) := by
    unfold State.removeGroup State.dropReqs
    cases g.core <;> rfl
  unfold State.group?
  rw [hgroups, List.find?_filter]
  by_cases hk : k = g.id
  · rw [if_pos hk, List.find?_eq_none]
    intro q _
    rw [hk]
    simp
  · rw [if_neg hk]
    congr 1
    funext q
    by_cases hq : q.id = k
    · simp [hq, hk]
    · simp [hq]

theorem removeGroup_parts (s : State) (g : Group) : (s.removeGroup g).parts = s.parts := by
  unfold State.removeGroup State.dropReqs
  cases g.core <;> rfl

/-- A caller that waits for a call whose every lane has returned goes on past it. -/
theorem resumeIfDone_done {g0 : Group} {c : Calling} (hw : g0.wait = some .widthpark) (hleft : c.left = 0) :
    (g0.callingNow c).resumeIfDone = (g0.callingNow c).resume c := by
  unfold Group.resumeIfDone
  rw [show (g0.callingNow c).wait = some .widthpark from hw, show (g0.callingNow c).calling = some c from rfl]
  dsimp only
  rw [if_pos hleft]

theorem mem_membersOf (lanes : List CallLane) (q : Nat × BitVec 6 × Nat) :
    q ∈ membersOf lanes ↔ ∃ l ∈ lanes, ∃ m ∈ l.members, (m.caller, m.lane, m.depth) = q := by
  unfold membersOf
  rw [List.mem_eraseDups, List.mem_flatMap]
  refine exists_congr fun l => and_congr_right fun _ => ?_
  rw [List.mem_map]

theorem selected_eq (g : Group) (h : Hdr) (sel : Option (BitVec 3)) :
    g.selected h sel = g.contributors h &&& (match sel with | some m => g.mVal m | none => BitVec.allOnes 64) := by
  cases sel with
  | none =>
    show g.contributors h = g.contributors h &&& BitVec.allOnes 64
    rw [BitVec.and_allOnes]
  | some m => rfl

section Body
variable {s : State} {g : Group} {n : BitVec 6} {tgt : CallTarget} {p : Pack} (h : Hdr) (sel : Option (BitVec 3))

theorem wretBody_packed (hpend : g.pend = []) (hk : g.kind = .callee tgt p [] none) (hf : g.folds = [])
    (hret : tgt.rc.gret = false) (hregs : n.toNat + 2 * tgt.rc.nres ≤ tgt.rc.vregs)
    (hholds : tgt.rc.nres ≠ 0 → g.holdsRange n.toNat (2 * tgt.rc.nres) = true) :
    wretBody h sel (.v n) s g = .ok { s := (s.countIssue (g.core.getD 0)).packReturn g tgt p [] none n (g.selected h sel),
                                      g := g, final := true } := by
  have hn : 2 * tgt.rc.nres * (if tgt.rc.gret then tgt.k else 1) = 2 * tgt.rc.nres := by
    rw [hret, if_neg Bool.false_ne_true, Nat.mul_one]
  have hgood : (decide (2 * tgt.rc.nres ≠ 0) && (decide (tgt.rc.vregs < n.toNat + 2 * tgt.rc.nres) ||
      !g.holdsRange n.toNat (2 * tgt.rc.nres))) = false := by
    by_cases h0 : tgt.rc.nres = 0
    · simp [h0]
    · rw [hholds h0]
      simp
      omega
  have hall : g.allReturned = true := by
    unfold Group.allReturned
    rw [hpend]
    rfl
  have hlate : g.latePoison = none := by
    unfold Group.latePoison
    rw [hpend]
    rfl
  have hreturns : g.returns = some tgt := by
    unfold Group.returns
    rw [hf, hk]
  unfold wretBody
  rw [hreturns]
  dsimp only [vNum]
  rw [hn, hgood, if_neg Bool.false_ne_true, hall, if_neg (by decide), hlate, Group.deliverPend_nil hpend, hf]
  dsimp only [List.head?_nil, Option.bind_none]
  rw [hk]

theorem wretBody_badwidth (hf : g.folds = []) (hk : g.kind = .launched ∨ ∃ l, g.kind = .spawned l) :
    wretBody h sel (.v n) s g = .error (trapOf .badwidth) := by
  have hreturns : g.returns = none := by
    unfold Group.returns
    rw [hf]
    rcases hk with hk | ⟨l, hk⟩ <;> rw [hk]
  unfold wretBody
  rw [hreturns]

theorem wretBody_noxblk {rest : List Pack} {fr : Option Nat} (hf : g.folds = []) (hk : g.kind = .callee tgt p rest fr)
    (hret : tgt.rc.gret = false) (h0 : tgt.rc.nres ≠ 0)
    (hbad : tgt.rc.vregs < n.toNat + 2 * tgt.rc.nres ∨ g.holdsRange n.toNat (2 * tgt.rc.nres) = false) :
    wretBody h sel (.v n) s g = .error (trapOf .noxblk) := by
  have hn : 2 * tgt.rc.nres * (if tgt.rc.gret then tgt.k else 1) = 2 * tgt.rc.nres := by
    rw [hret, if_neg Bool.false_ne_true, Nat.mul_one]
  have hno : (decide (2 * tgt.rc.nres ≠ 0) && (decide (tgt.rc.vregs < n.toNat + 2 * tgt.rc.nres) ||
      !g.holdsRange n.toNat (2 * tgt.rc.nres))) = true := by
    rcases hbad with hb | hb
    · simp [h0, hb]
    · simp [h0, hb]
  have hreturns : g.returns = some tgt := by
    unfold Group.returns
    rw [hf, hk]
  unfold wretBody
  rw [hreturns]
  dsimp only [vNum]
  rw [hn, hno, if_pos rfl]

end Body

theorem exec_returns {s s' : State} {g : Group} {h : Hdr} {sel : Option (BitVec 3)} {b : Opd}
    (hw : (Instr.wret h sel b).wellFormed = true) (hg : s.group? s.cur = some g) (hm : g.mode = .user)
    (hb : wretBody h sel b s g = .ok { s := s', g := g, final := true }) : exec (.wret h sel b) s = .next s' := by
  have hx : exec (.wret h sel b) s = issue s (.wret h sel b) h true (wretBody h sel b) := rfl
  rw [hx, issue_eq hg hw (fun _ => hm), hb]
  rfl

/-- What the return of a packed group leaves: the callee is gone, and its caller goes on with its results. -/
theorem packReturn_resumes {s : State} {g g0 : Group} {n : BitVec 6} {con : Mask} {tgt : CallTarget} {p : Pack} {c : Calling}
    (hg0 : s.group? g0.id = some g0) (hne : g0.id ≠ g.id) (hw : g0.wait = some .widthpark) (hc : g0.calling = some c)
    (hdepth : g0.depth + 1 = g.depth) (hm : ∀ l ∈ p.lanes, ∃ m, l.members = [m] ∧ m.caller = g0.id ∧ m.depth = g.depth)
    (hleft : ∀ L, c.left.getLsbD L = true ↔ ∃ l ∈ p.lanes, ∃ m ∈ l.members, m.lane.toNat = L)
    (hh : ∀ q, (s.part q).halted = false) :
    ∃ c', c' = c.giveAll (laneVals g tgt n con (p.lanes.zipIdx.map (fun (l, i) => (i, l))) g0.id)
        (laneFlags g tgt n con (p.lanes.zipIdx.map (fun (l, i) => (i, l))) g0.id) ((membersOf p.lanes).map (fun m => m.2.1)) ∧
      (s.packReturn g tgt p [] none n con).group? g.id = none ∧
      (s.packReturn g tgt p [] none n con).group? g0.id = some ((g0.callingNow c').resume c') := by
  have hnow : g0.callingNow c = g0 := by
    unfold Group.callingNow
    rw [← hc]
  obtain ⟨hgive, hparts⟩ := foldl_giveLane (g := g) (g0 := g0) (tgt := tgt) (creg := n) (con := con)
    (lanes := p.lanes.zipIdx.map (fun (l, i) => (i, l))) hdepth (membersOf p.lanes) (fun q hq => by
      obtain ⟨l, hl, m, hml, rfl⟩ := (mem_membersOf _ _).1 hq
      obtain ⟨m', hmem, hcaller, hd⟩ := hm l hl
      rw [hmem] at hml
      rw [List.mem_singleton.1 hml]
      exact ⟨hcaller, hd⟩) (c := c) (by rw [hnow]; exact hg0)
  refine ⟨_, rfl, ?_, ?_⟩
  · unfold State.packReturn
    dsimp only
    rw [group?_resumeCallers (fun q => by unfold State.part; rw [removeGroup_parts, hparts]; exact hh q), group?_removeGroup,
      if_pos rfl]
    rfl
  · unfold State.packReturn
    dsimp only
    rw [group?_resumeCallers (fun q => by unfold State.part; rw [removeGroup_parts, hparts]; exact hh q), group?_removeGroup,
      if_neg hne, hgive, Option.map_some, resumeIfDone_done hw]
    refine BitVec.eq_of_getLsbD_eq fun L hL => ?_
    rw [show (0 : Mask).getLsbD L = false from BitVec.getLsbD_zero, ← Bool.not_eq_true, Calling.giveAll_left, hleft]
    rintro ⟨⟨l, hl, m, hml, rfl⟩, hno⟩
    exact hno m.lane (List.mem_map.2 ⟨_, (mem_membersOf _ _).2 ⟨l, hl, m, hml, rfl⟩, rfl⟩) rfl

/-- Settles O35. -/
theorem widthReturns : Obligations.WidthReturns := by
  refine ⟨?_, ?_, ?_, widthStep_eq⟩
  · intro s g g0 h sel n tgt p c con hwf hg hmode hpend hk hf hgather hret hnres hregs hholds hg0 hne hwait hcalling hf0 hdepth
      htgt hres hm hlen hleft hh hcon
    obtain ⟨c', hc', hgone, hback⟩ := packReturn_resumes (s := s.countIssue (g.core.getD 0)) (n := n) (con := con) (tgt := tgt)
      hg0 hne hwait hcalling hdepth hm hleft hh
    replace hcon : con = g.selected h sel := hcon.trans (selected_eq g h sel).symm
    obtain ⟨k1, k2, k3⟩ := Calling.giveAll_frame (laneVals g tgt n con (p.lanes.zipIdx.map (fun (l, i) => (i, l))) g0.id)
      (laneFlags g tgt n con (p.lanes.zipIdx.map (fun (l, i) => (i, l))) g0.id) c ((membersOf p.lanes).map (fun m => m.2.1))
    have hgiven := Calling.holds_giveAll (laneFlags g tgt n con (p.lanes.zipIdx.map (fun (l, i) => (i, l))) g0.id) (c := c)
      (vals := laneVals g tgt n con (p.lanes.zipIdx.map (fun (l, i) => (i, l))) g0.id)
      ((membersOf p.lanes).map (fun m => m.2.1)) (done := []) (fun _ _ _ _ ha => absurd ha List.not_mem_nil)
    rw [← hc'] at k1 k2 k3 hgiven
    have hlen' : c'.res.length = tgt.rc.nres := by rw [k3, hres, noResults, List.length_replicate]
    have hvec : ∀ w ∈ c'.writes, RegWrite.isVec w := by
      intro w hw
      rw [Calling.writes_eq] at hw
      obtain ⟨q, _, hq⟩ := List.mem_flatMap.1 hw
      exact (Calling.writesOf_names hq).elim (fun h => ⟨_, h⟩) (fun h => ⟨_, h⟩)
    obtain ⟨hexec, hx⟩ := put_vec_frame hvec
      { g0.callingNow c' with bypass := (g0.callingNow c').bypass.filter (fun b => !c'.writes.any (sameReg b.w)) }
    refine ⟨_, (g0.callingNow c').resume c', exec_returns hwf hg hmode (wretBody_packed h sel hpend hk hf hret hregs hholds), by rw [← hcon]; exact hgone,
      by rw [← hcon]; exact hback, rfl, rfl, rfl, hexec, hx, fun j L v vs r hj hr hcs => ?_⟩
    subst hr
    have hlane : ∃ a ∈ (membersOf p.lanes).map (fun m => m.2.1), a.toNat = L := by
      by_contra hno
      have : Claims.contributions g p con n (tgt.rc.red.getD j 0) j L = [] := by
        unfold Claims.contributions
        rw [List.filterMap_eq_nil_iff]
        rintro ⟨l, i⟩ hq
        dsimp only
        rw [if_neg]
        rintro ⟨hany, -⟩
        obtain ⟨m, hml, he⟩ := List.any_eq_true.1 hany
        have hl : l ∈ p.lanes := by
          have := List.mem_map_of_mem (f := Prod.fst) hq
          rwa [List.zipIdx_map_fst] at this
        exact hno ⟨m.lane, List.mem_map.2 ⟨_, (mem_membersOf _ _).2 ⟨l, hl, m, hml, rfl⟩, rfl⟩, of_decide_eq_true he⟩
      rw [this] at hcs
      cases hcs
    obtain ⟨a, ha, rfl⟩ := hlane
    rw [← retVals_contributions g (tgt.rc.red.getD j 0) a hgather hm] at hcs
    have hval := laneVals_fold hj hcs
    have hj' : j < c'.res.length := by omega
    obtain ⟨hbit, hword⟩ := hgiven j c'.res[j] (List.getElem?_eq_getElem hj') a
      (by rw [List.append_nil]; exact ha) _ hval
    have hput := Calling.put_writes (by omega) (List.getElem?_eq_getElem hj') hbit hword
      { g0.callingNow c' with bypass := (g0.callingNow c').bypass.filter (fun b => !c'.writes.any (sameReg b.w)) }
    rw [k1, k2, htgt] at hput
    obtain ⟨hlow, hhigh⟩ := hput
    refine ⟨hlow.trans ?_, fun h64 => (hhigh h64).trans ?_⟩
    · apply BitVec.eq_of_toNat_eq
      simp
    · apply BitVec.eq_of_getLsbD_eq
      intro i hi
      simp [BitVec.getLsbD_extractLsb', hi]
      omega
  · intro s g h sel n hwf hg hmode hf hk
    exact exec_traps (body := wretBody h sel (.v n)) (u := true) rfl hwf hg (fun _ => hmode) (wretBody_badwidth h sel hf hk) rfl
  · intro s g h sel n tgt p rest fr hwf hg hmode hf hk hret h0 hbad
    exact exec_traps (body := wretBody h sel (.v n)) (u := true) rfl hwf hg (fun _ => hmode)
      (wretBody_noxblk h sel hf hk hret h0 hbad) rfl

end Sys2Proof.Machine

end


section
/-! # O34: `WCALL` and `GCALL` (R232 to R239, R243, R251) -/

namespace Sys2Proof.Machine

/-! ## What a look-up and a count leave (R415, R424) -/

/-- Two states with the same agents, memory, bins and pool blocks. -/
structure SamePool (s s' : State) : Prop where
  groups : s'.groups = s.groups
  teams : s'.teams = s.teams
  launches : s'.launches = s.launches
  time : s'.time = s.time
  nextId : s'.nextId = s.nextId
  mem : s'.mem = s.mem
  bins : ∀ k, (s'.core k).bins = (s.core k).bins
  reqs : ∀ k, (s'.core k).poolReqs = (s.core k).poolReqs
  limit : ∀ k, (s'.core k).xlimit = (s.core k).xlimit

theorem SamePool.refl (s : State) : SamePool s s :=
  ⟨rfl, rfl, rfl, rfl, rfl, rfl, fun _ => rfl, fun _ => rfl, fun _ => rfl⟩

theorem SamePool.trans {a b c : State} (h : SamePool a b) (k : SamePool b c) : SamePool a c :=
  ⟨k.groups.trans h.groups, k.teams.trans h.teams, k.launches.trans h.launches, k.time.trans h.time,
    k.nextId.trans h.nextId, k.mem.trans h.mem, fun i => (k.bins i).trans (h.bins i),
    fun i => (k.reqs i).trans (h.reqs i), fun i => (k.limit i).trans (h.limit i)⟩

theorem samePool_modCore (s : State) (c : Nat) (f : Core → Core) (hb : ∀ x, (f x).bins = x.bins)
    (hr : ∀ x, (f x).poolReqs = x.poolReqs) (hx : ∀ x, (f x).xlimit = x.xlimit) : SamePool s (s.modCore c f) :=
  ⟨rfl, rfl, rfl, rfl, rfl, rfl, s.core_modCore_keep (·.bins) c f hb, s.core_modCore_keep (·.poolReqs) c f hr,
    s.core_modCore_keep (·.xlimit) c f hx⟩

theorem samePool_addEvent (s : State) (c i n : Nat) : SamePool s (s.addEvent c i n) := by
  refine samePool_modCore s c _ (fun x => ?_) (fun x => ?_) (fun x => ?_) <;> split <;> rfl

theorem samePool_touch (s : State) (c : Nat) : SamePool s (s.touch c) :=
  samePool_modCore s c (fun c => { c with lastIssue := s.time }) (fun _ => rfl) (fun _ => rfl) (fun _ => rfl)

theorem samePool_countIssue (s : State) (c : Nat) : SamePool s (s.countIssue c) :=
  (samePool_touch s c).trans (samePool_addEvent (s.touch c) c 0 1)

theorem samePool_modDie (s : State) (d : Nat) (f : Die → Die) : SamePool s (s.modDie d f) :=
  ⟨rfl, rfl, rfl, rfl, rfl, rfl, fun _ => rfl, fun _ => rfl, fun _ => rfl⟩

theorem samePool_freeCtr (s : State) (n : Nat) : SamePool s { s with freeCtr := n } :=
  ⟨rfl, rfl, rfl, rfl, rfl, rfl, fun _ => rfl, fun _ => rfl, fun _ => rfl⟩

theorem samePool_lookUp (s : State) (c part : Nat) (va : Word64) : SamePool s (s.lookUp c part va) := by
  unfold State.lookUp
  split
  · exact .refl s
  · dsimp only
    have hcount : SamePool s (if (s.dieTlb c part va).isSome then s.addEvent c 3 1 else (s.addEvent c 3 1).addEvent c 4 1) := by
      split
      · exact samePool_addEvent s c 3 1
      · exact (samePool_addEvent s c 3 1).trans (samePool_addEvent _ c 4 1)
    split
    · exact hcount
    · refine ((hcount.trans (samePool_modDie _ _ _)).trans
        (samePool_modCore _ c _ (fun _ => ?_) (fun _ => ?_) (fun _ => ?_))).trans (samePool_freeCtr _ _) <;> rfl

theorem samePool_lookUpAll (s : State) (g : Group) (vas : List Word64) : SamePool s (s.lookUpAll g vas) := by
  unfold State.lookUpAll
  split
  · exact .refl s
  · next c _ =>
    induction vas generalizing s with
    | nil => exact .refl s
    | cons va rest ih => exact (samePool_lookUp s c (s.accessor g).part va).trans (ih _)

theorem SamePool.grantable {s s' : State} (h : SamePool s s') (core : Nat) (t : Team) (rc : EntryRec) (n : Nat) :
    s'.grantable core t rc n = s.grantable core t rc n := by
  unfold State.grantable State.valsOf State.launch? State.freeSlots State.heldBlocks State.onCore Core.poolWaits
  rw [h.groups, h.launches, h.bins, h.reqs, h.limit]

theorem SamePool.team? {s s' : State} (h : SamePool s s') (k : Nat) : s'.team? k = s.team? k := by
  unfold State.team?
  rw [h.teams]

theorem SamePool.pickSlot {s s' : State} (h : s'.groups = s.groups) (core : Nat) : s'.pickSlot core = s.pickSlot core := by
  unfold State.pickSlot State.freeSlots State.onCore
  rw [h]

/-! ## Slots (R138) -/

theorem mem_freeSlots (s : State) (core k : Nat) :
    k ∈ s.freeSlots core ↔ k < 128 ∧ ∀ g ∈ s.groups, g.core = some core → g.slot ≠ k := by
  unfold State.freeSlots State.onCore
  rw [List.mem_filter, List.mem_range]
  simp

/-- The choice of the quadrant with most is of one with as many as any. -/
theorem best_quadrant (per : Nat → Nat) : ∃ b, b < 4 ∧
    [1, 2, 3].foldl (fun b q => if per b < per q then q else b) 0 = b ∧ ∀ q < 4, per q ≤ per b := by
  refine ⟨_, ?_, rfl, ?_⟩
  · simp only [List.foldl_cons, List.foldl_nil]
    split <;> (try split) <;> (try split) <;> omega
  · intro q hq
    simp only [List.foldl_cons, List.foldl_nil]
    interval_cases q <;> grind

theorem pickSlot_isSome {s : State} {core k : Nat} (h : k ∈ s.freeSlots core) : ∃ slot, s.pickSlot core = some slot := by
  have hk : k < 128 := ((mem_freeSlots s core k).1 h).1
  unfold State.pickSlot
  dsimp only
  obtain ⟨b, -, hb, hmax⟩ := best_quadrant (fun q => ((s.freeSlots core).filter (fun k => k / 32 == q)).length)
  rw [hb, ← Option.isSome_iff_exists, List.find?_isSome]
  have hpos : 0 < ((s.freeSlots core).filter (fun j => j / 32 == k / 32)).length :=
    List.length_pos_of_mem (List.mem_filter.2 ⟨h, by simp⟩)
  obtain ⟨x, hx⟩ := List.exists_mem_of_length_pos (hpos.trans_le (hmax (k / 32) (by omega)))
  exact ⟨x, List.mem_filter.1 hx⟩

theorem freeSlots_setGroup {s : State} {g g' : Group} {core k : Nat} (hg : g ∈ s.groups) (hc : g'.core = g.core)
    (hs : g'.slot = g.slot) (h : k ∈ s.freeSlots core) : k ∈ (s.setGroup g').freeSlots core := by
  rw [mem_freeSlots] at h ⊢
  refine ⟨h.1, fun q hq hcore => ?_⟩
  obtain ⟨q0, hq0, rfl⟩ := List.mem_map.1 hq
  split at hcore
  · next hid =>
    rw [if_pos hid, hs]
    exact h.2 g hg (hc.symm.trans hcore)
  · next hid =>
    rw [if_neg hid]
    exact h.2 q0 hq0 hcore

/-! ## Callee lanes (R236, R237) -/

theorem pieces_length {α : Type} (n : Nat) (l : List α) : (pieces n l).length = (l.length + n - 1) / n := by
  unfold pieces
  rw [List.length_map, List.length_range]

theorem pieces_getElem? {α : Type} {n : Nat} {l : List α} {r : Nat} (h : r < (l.length + n - 1) / n) :
    (pieces n l)[r]? = some ((l.drop (r * n)).take n) := by
  unfold pieces
  rw [List.getElem?_map, List.getElem?_range h]
  rfl

theorem packsOf_one {l : List CallLane} (h0 : l ≠ []) (h : l.length ≤ 64) : packsOf l = [⟨0, l⟩] := by
  have hpos : 0 < l.length := List.length_pos_iff.2 h0
  have hone : (l.length + 64 - 1) / 64 = 1 := by omega
  unfold packsOf pieces
  rw [hone]
  show [(⟨0, (l.drop (0 * 64)).take 64⟩ : Pack)] = _
  rw [Nat.zero_mul, List.drop_zero, List.take_of_length_le h]

theorem items_length (k : Nat) (ms : List Member) :
    (ms.flatMap (fun m => (List.range k).map (fun w => (⟨w, [m], false⟩ : CallLane)))).length = ms.length * k := by
  induction ms with
  | nil => simp
  | cons m ms ih => rw [List.flatMap_cons, List.length_append, ih]; simp [Nat.add_mul, Nat.add_comm]

theorem items_getElem? (k : Nat) (ms : List Member) (r : Nat) :
    (ms.flatMap (fun m => (List.range k).map (fun w => (⟨w, [m], false⟩ : CallLane))))[r]? =
      if k = 0 then none else (ms[r / k]?).map (fun m => ⟨r % k, [m], false⟩) := by
  rcases Nat.eq_zero_or_pos k with rfl | hk
  · simp
  rw [if_neg (Nat.ne_of_gt hk)]
  induction ms generalizing r with
  | nil => simp
  | cons m ms ih =>
    rw [List.flatMap_cons, List.getElem?_append, List.length_map, List.length_range]
    by_cases hr : r < k
    · rw [if_pos hr, List.getElem?_map, List.getElem?_range hr, Nat.div_eq_of_lt hr, Nat.mod_eq_of_lt hr]
      rfl
    · have hle : k ≤ r := Nat.le_of_not_lt hr
      rw [if_neg hr, ih, Nat.div_eq_sub_div hk hle, Nat.mod_eq_sub_mod hle]
      rfl

section Lanes
variable {tgt : CallTarget} {gather : Bool} (callers : List Nat) (f : Nat → Member)

theorem lanes_length (hg : tgt.gather = gather) :
    (tgt.lanes (callers.map f)).length = Claims.calleeLanes gather tgt.k callers.length := by
  subst hg
  unfold CallTarget.lanes Claims.calleeLanes
  cases tgt.gather with
  | true =>
    rw [if_pos rfl, if_pos rfl, List.length_map, pieces_length, List.length_map]
  | false =>
    rw [if_neg Bool.false_ne_true, if_neg Bool.false_ne_true, items_length, List.length_map]

theorem lanes_getElem? (hg : tgt.gather = gather) {r : Nat} (hr : r < Claims.calleeLanes gather tgt.k callers.length) :
    (tgt.lanes (callers.map f))[r]? =
      some ⟨if gather then 0 else r % tgt.k, (Claims.callersOf gather tgt.k callers r).map f, false⟩ := by
  subst hg
  unfold CallTarget.lanes Claims.callersOf
  unfold Claims.calleeLanes at hr
  cases hgat : tgt.gather with
  | true =>
    rw [hgat, if_pos rfl] at hr
    rw [if_pos rfl, if_pos rfl, if_pos rfl, List.getElem?_map, pieces_getElem? (by rw [List.length_map]; exact hr),
      ← List.map_drop, ← List.map_take]
    rfl
  | false =>
    rw [hgat, if_neg Bool.false_ne_true] at hr
    have hk : 0 < tgt.k := Nat.two_pow_pos _
    have hlt : r / tgt.k < callers.length := Nat.div_lt_of_lt_mul (by rw [Nat.mul_comm]; exact hr)
    rw [if_neg Bool.false_ne_true, if_neg Bool.false_ne_true, if_neg Bool.false_ne_true, items_getElem?,
      if_neg (Nat.ne_of_gt hk), List.getElem?_map, List.getElem?_eq_getElem hlt]
    rfl

end Lanes

/-- The argument registers of a callee lane are those of its members (R243). -/
theorem arg_eq {tgt : CallTarget} {l : CallLane} {j a : Nat} {m : Member} (hm : l.members[j]? = some m)
    (ha : a < tgt.rc.nargs) (hj : if tgt.gather then j < tgt.k else j = 0) :
    l.arg tgt (j * tgt.rc.nargs + a) = m.args.getD a 0 := by
  unfold CallLane.arg
  have hn : 0 < tgt.rc.nargs := Nat.zero_lt_of_lt ha
  cases hg : tgt.gather with
  | true =>
    rw [hg, if_pos rfl] at hj
    have hlt : j * tgt.rc.nargs + a < tgt.k * tgt.rc.nargs := by
      calc j * tgt.rc.nargs + a < j * tgt.rc.nargs + tgt.rc.nargs := Nat.add_lt_add_left ha _
        _ = (j + 1) * tgt.rc.nargs := by rw [Nat.add_mul, Nat.one_mul]
        _ ≤ tgt.k * tgt.rc.nargs := Nat.mul_le_mul_right _ hj
    have hbad : (decide (tgt.rc.nargs = 0) || decide (tgt.k * tgt.rc.nargs ≤ j * tgt.rc.nargs + a)) = false := by
      simp
      omega
    have hdiv : (j * tgt.rc.nargs + a) / tgt.rc.nargs = j := by
      rw [Nat.mul_comm, Nat.mul_add_div hn, Nat.div_eq_of_lt ha, Nat.add_zero]
    have hmod : (j * tgt.rc.nargs + a) % tgt.rc.nargs = a := by
      rw [Nat.mul_comm, Nat.mul_add_mod, Nat.mod_eq_of_lt ha]
    dsimp only
    rw [if_pos rfl, if_neg (by simpa using hbad), hdiv, hmod, hm]
  | false =>
    rw [hg, if_neg Bool.false_ne_true] at hj
    subst hj
    dsimp only
    rw [Nat.zero_mul, Nat.zero_add, if_neg Bool.false_ne_true, if_pos ha, hm]


/-! ## The callee as it starts (R239, R243) -/

/-- A group that waits for the callees of its call. -/
def Group.parkedFor (g : Group) (call : Calling) : Group :=
  { g with calling := some call, wait := some .widthpark }

/-- A group that waits at its call. -/
def Group.calls (g : Group) (call : Calling) (sp : Word32) (steps : BitVec 8) : Group :=
  { g.age with calling := some call, wait := some .widthpark, sampled := false, pass := .no, lastsp := sp, steps := steps }

theorem passCtr_zero (c : Word64) : passCtr c 0 = c + 0x100_0000 := rfl

theorem calleeGroup_eq {s : State} {cg : Group} {core slot : Nat} {tgt : CallTarget} {p : Pack} {rest : List Pack}
    {depth : Nat} {frame : Option Nat} (h : s.packCaller p = some cg) :
    s.calleeGroup core slot tgt p rest depth frame =
      { Group.blank s.nextId cg.team core slot (.callee tgt p rest frame) s.time with
        index := cg.index, teamNo := cg.teamNo, cohort := cg.cohort, gx := cg.gx, gy := cg.gy, gz := cg.gz,
        peergen := cg.peergen }.start (s.packStart tgt p depth frame) := by
  unfold State.calleeGroup
  rw [h]

theorem packStart_eq {s : State} {cg : Group} {tgt : CallTarget} {p : Pack} {depth : Nat} {frame : Option Nat}
    (h : s.packCaller p = some cg) :
    s.packStart tgt p depth frame =
      { tgt := tgt, lanes := fun i => p.lanes[i]?, w := none,
        x := (match cg.callingAt depth with | some k => k.x | none => []), frame := frame, depth := depth,
        srseed := cg.srseed, srctr := passCtr cg.srctr p.q, swin := cg.swin, len := cg.len } := by
  unfold State.packStart
  rw [h] <;> rfl

theorem callersOf_head {gather : Bool} {k : Nat} {callers : List Nat} (hk : 0 < k) (hc : callers ≠ []) :
    ∃ lane, (Claims.callersOf gather k callers 0).head? = some lane := by
  obtain ⟨a, l, rfl⟩ := List.exists_cons_of_ne_nil hc
  unfold Claims.callersOf
  cases gather with
  | true =>
    obtain ⟨j, rfl⟩ := Nat.exists_eq_succ_of_ne_zero (Nat.ne_of_gt hk)
    refine ⟨a, ?_⟩
    rw [if_pos rfl, Nat.zero_mul, List.drop_zero]
    rfl
  | false =>
    refine ⟨a, ?_⟩
    rw [if_neg Bool.false_ne_true, Nat.zero_div]
    rfl

theorem callersOf_place {gather : Bool} {k : Nat} {callers : List Nat} {r j lane : Nat}
    (h : (Claims.callersOf gather k callers r)[j]? = some lane) : if gather then j < k else j = 0 := by
  obtain ⟨hlt, -⟩ := List.getElem?_eq_some_iff.1 h
  unfold Claims.callersOf at hlt
  cases gather with
  | true =>
    rw [if_pos rfl, List.length_take] at hlt
    exact hlt.trans_le (Nat.min_le_left _ _)
  | false =>
    rw [if_neg Bool.false_ne_true] at hlt
    cases hr : callers[r / k]? with
    | none => rw [hr] at hlt; exact absurd hlt (Nat.not_lt_zero _)
    | some x => rw [hr] at hlt; exact Nat.lt_one_iff.1 hlt

theorem calleeLanes_pos {gather : Bool} {k : Nat} {callers : List Nat} (hk : 0 < k) (hc : callers ≠ []) :
    0 < Claims.calleeLanes gather k callers.length := by
  have hlen : 0 < callers.length := List.length_pos_iff.2 hc
  unfold Claims.calleeLanes
  split
  · exact Nat.div_pos (by omega) hk
  · exact Nat.mul_pos hlen hk

section Callee
variable {s : State} {g : Group} {tgt : CallTarget} {p : Pack} {gather : Bool} {n : BitVec 6} {set : Mask} {call : Calling}
  {sp : Word32} {steps : BitVec 8} {slot core : Nat}

theorem packCaller_eq (hlanes : p.lanes = tgt.lanes ((lanesOf set).map (g.member n tgt.rc.nargs))) (hgat : tgt.gather = gather)
    (hne : lanesOf set ≠ []) : s.packCaller p = s.group? g.id := by
  have hk : 0 < tgt.k := Nat.two_pow_pos _
  have hpos : 0 < Claims.calleeLanes gather tgt.k (lanesOf set).length := calleeLanes_pos hk hne
  obtain ⟨lane, hlane⟩ := callersOf_head (gather := gather) hk hne
  have h0 := lanes_getElem? (lanesOf set) (g.member n tgt.rc.nargs) hgat hpos
  unfold State.packCaller
  rw [hlanes, List.head?_eq_getElem?, h0, Option.bind_some, List.head?_map, hlane]
  rfl

theorem callee_startsAs (hlanes : p.lanes = tgt.lanes ((lanesOf set).map (g.member n tgt.rc.nargs))) (hq : p.q = 0)
    (hgat : tgt.gather = gather) (hne : lanesOf set ≠ []) (hfit : Claims.calleeLanes gather tgt.k (lanesOf set).length ≤ 64)
    (hg : s.group? g.id = some (g.calls call sp steps)) (hcore : g.core = some core)
    (hx : call.x = (List.range 7).map (fun i => g.xVal (BitVec.ofNat 6 i)))
    (hargs : (if gather then tgt.k * tgt.rc.nargs else tgt.rc.nargs) ≤ 64) :
    Claims.startsAs g (s.calleeGroup core slot tgt p [] (g.depth + 1) none) tgt.rc gather n (lanesOf set) tgt.entry := by
  have hcaller := (packCaller_eq (s := s) hlanes hgat hne).trans hg
  have hcalling : (g.calls call sp steps).callingAt (g.depth + 1) = some call := by
    unfold Group.callingAt
    rw [if_pos (by rfl)]
    rfl
  have hk : 2 ^ tgt.rc.wlog = tgt.k := rfl
  have hlane : ∀ r, p.lanes[r]? = if r < Claims.calleeLanes gather tgt.k (lanesOf set).length then
      some ⟨if gather then 0 else r % tgt.k, (Claims.callersOf gather tgt.k (lanesOf set) r).map (g.member n tgt.rc.nargs), false⟩
      else none := by
    intro r
    rw [hlanes]
    split
    · next h => exact lanes_getElem? _ _ hgat h
    · next h => exact List.getElem?_eq_none (by rw [lanes_length _ _ hgat]; exact Nat.le_of_not_lt h)
  rw [calleeGroup_eq hcaller, packStart_eq hcaller]
  unfold Claims.startsAs
  dsimp only
  rw [hk]
  refine ⟨rfl, hcore.symm, rfl, rfl, rfl, rfl, rfl, rfl, rfl, rfl, ?_, rfl, rfl, fun i hi => ?_, fun r => ?_, fun r hr => ⟨?_, ?_, ?_⟩⟩
  · show passCtr g.srctr p.q = _
    rw [hq, passCtr_zero]
  · refine (vget_vecOf 64 _ i 0 (by omega)).trans ?_
    rw [if_pos hi]
    dsimp only
    rw [hcalling]
    dsimp only
    rw [hx, List.getD_eq_getElem?_getD, List.getElem?_map, List.getElem?_range hi]
    rfl
  · refine (getLsbD_maskOf _ r).trans ?_
    dsimp only
    rw [hlane]
    by_cases h : r < Claims.calleeLanes gather tgt.k (lanesOf set).length
    · rw [if_pos h, decide_eq_true h, decide_eq_true (Nat.lt_of_lt_of_le h hfit)]
      rfl
    · rw [if_neg h, decide_eq_false h]
      exact Bool.and_false _
  · refine (vlane_vreg _ r (by omega)).trans ?_
    dsimp only
    rw [hlane, if_pos hr]
    cases gather <;> rfl
  · refine (vlane_vreg _ r (by omega)).trans ?_
    dsimp only
    rw [hlane, if_pos hr, hgat]
    dsimp only
    rw [List.length_map]
  · intro j a lane hj ha
    have hjk := callersOf_place hj
    have hreg : j * tgt.rc.nargs + a < 64 := by
      refine Nat.lt_of_lt_of_le ?_ hargs
      split
      · next h =>
        rw [h, if_pos rfl] at hjk
        calc j * tgt.rc.nargs + a < j * tgt.rc.nargs + tgt.rc.nargs := Nat.add_lt_add_left ha _
          _ = (j + 1) * tgt.rc.nargs := by rw [Nat.add_mul, Nat.one_mul]
          _ ≤ tgt.k * tgt.rc.nargs := Nat.mul_le_mul_right _ hjk
      · next h =>
        rw [if_neg h] at hjk
        rw [hjk, Nat.zero_mul, Nat.zero_add]
        exact ha
    refine (congrArg (fun v => vlane v r) (vget_vecOf 64 _ _ _ hreg)).trans ((vlane_vreg _ r (Nat.lt_of_lt_of_le hr hfit)).trans ?_)
    dsimp only
    rw [hlane, if_pos hr]
    refine (arg_eq (m := g.member n tgt.rc.nargs lane) ?_ ha (by rw [hgat]; exact hjk)).trans ?_
    · rw [List.getElem?_map, hj]
      rfl
    · unfold Group.member
      rw [List.getD_eq_getElem?_getD, List.getElem?_map, List.getElem?_range ha]
      rfl

end Callee

/-! ## The grant of a call of one packed group (R238, R239) -/

/-- The state in which a caller of one packed group waits. -/
def State.called (s : State) (t : Team) (g : Group) : State :=
  (s.modTeam t.id (fun _ => t)).setGroup g

/-- One callee group more. -/
def State.withCallee (s : State) (q : Group) : State :=
  { s with groups := s.groups ++ [q], nextId := s.nextId + 1 }

theorem group?_withCallee_old {s : State} {q g : Group} {k : Nat} (h : s.group? k = some g) :
    (s.withCallee q).group? k = some g := by
  unfold State.group? at h ⊢
  show (s.groups ++ [q]).find? _ = _
  rw [List.find?_append, h]
  rfl

theorem group?_withCallee_new {s : State} {q : Group} {k : Nat} (h : s.group? k = none) (hq : q.id = k) :
    (s.withCallee q).group? k = some q := by
  unfold State.group? at h ⊢
  show (s.groups ++ [q]).find? _ = _
  rw [List.find?_append, h, List.find?_singleton, if_pos (by simpa using hq)]
  rfl

theorem State.calleeGroup_numbered {s : State} {cg : Group} {core slot depth k : Nat} {tgt : CallTarget} {p : Pack}
    (h : s.packCaller p = some cg) (hk : s.nextId = k) : (s.calleeGroup core slot tgt p [] depth none).id = k := by
  rw [calleeGroup_eq h]
  exact hk

theorem startCallees_one {s : State} {core slot depth : Nat} {tgt : CallTarget} {p : Pack} (h : s.pickSlot core = some slot) :
    s.startCallees core tgt [p] depth 1 [] 1 = s.withCallee (s.calleeGroup core slot tgt p [] depth none) := by
  unfold State.startCallees
  rw [h]
  rfl

theorem grantCall_one {s : State} {g : Group} {c : Calling} {lanes : List CallLane} {set : Mask} {t : Team} {core slot : Nat}
    (ht : s.team? g.team = some t) (hcore : g.core = some core) (hf : c.tgt.rc.frame = 0) (h0 : lanes ≠ [])
    (hlen : lanes.length ≤ 64) (hone : s.grantable core t c.tgt.rc 1 = 1)
    (hslot : (s.called t (g.parkedFor c)).pickSlot core = some slot) :
    s.grantCall g c lanes set = some
      ((s.called t (g.parkedFor c)).withCallee
        ((s.called t (g.parkedFor c)).calleeGroup core slot c.tgt ⟨0, lanes⟩ []
          (g.depth + 1) none)) := by
  have hn : s.grantable core t c.tgt.rc [(⟨0, lanes⟩ : Pack)].length = 1 := hone
  unfold State.grantCall
  rw [ht]
  have hc : g.core.getD 0 = core := by rw [hcore]; rfl
  dsimp only
  rw [hc, packsOf_one h0 hlen, hn, hf, if_pos rfl, if_pos rfl, if_neg (by decide)]
  exact congrArg some (startCallees_one hslot)

/-! ## Pooling (R251) -/

/-- The lanes of a pooled bin with one more. -/
def joinLane (tgt : CallTarget) (ls : List CallLane) (l : CallLane) : List CallLane :=
  if tgt.gather then l.members.foldl (fun ls m => joinSet tgt.k m ls) ls else ls ++ [l]

theorem joinSet_length (k : Nat) (m : Member) (ls : List CallLane) : ls.length ≤ (joinSet k m ls).length := by
  unfold joinSet
  split
  · next l hl =>
    split
    · rw [List.length_append, List.length_dropLast, List.length_singleton]
      omega
    · rw [List.length_append]
      omega
  · next hl => rw [List.getLast?_eq_none_iff.1 hl]; exact Nat.zero_le _

theorem joinLane_length (tgt : CallTarget) (ls : List CallLane) (l : CallLane) : ls.length ≤ (joinLane tgt ls l).length := by
  unfold joinLane
  split
  · induction l.members generalizing ls with
    | nil => exact Nat.le_refl _
    | cons m ms ih => exact (joinSet_length tgt.k m ls).trans (ih _)
  · rw [List.length_append]
    omega

theorem foldl_joinLane_length (tgt : CallTarget) (l ls : List CallLane) : ls.length ≤ (l.foldl (joinLane tgt) ls).length := by
  induction l generalizing ls with
  | nil => exact Nat.le_refl _
  | cons a l ih => exact (joinLane_length tgt ls a).trans (ih _)

/-- A bin of a pooled call with room. -/
def poolBin (team : Nat) (slot : Word64) (tgt : CallTarget) (now : Word64) (ls : List CallLane) : Bin :=
  ⟨.call team slot tgt ls, now, false, 0, now, false⟩

theorem not_full_call {team : Nat} {slot : Word64} {tgt : CallTarget} {ls : List CallLane} (h : ls.length < 64) :
    (BinWork.call team slot tgt ls).full = false := by
  unfold BinWork.full
  simp [h]

theorem poolLanes_fill {team : Nat} {slot : Word64} {tgt : CallTarget} {now : Word64} (l : List CallLane) {c : Core}
    {ls : List CallLane} (hb : c.bins = [poolBin team slot tgt now ls]) (hfit : (l.foldl (joinLane tgt) ls).length < 64) :
    ∃ c', c.poolLanes team slot tgt now l = some c' ∧ c'.bins = [poolBin team slot tgt now (l.foldl (joinLane tgt) ls)] := by
  induction l generalizing c ls with
  | nil => exact ⟨c, rfl, hb⟩
  | cons a l ih =>
    rw [List.foldl_cons] at hfit ⊢
    have hmid : (joinLane tgt ls a).length < 64 := (foldl_joinLane_length tgt l _).trans_lt hfit
    have hls : ls.length < 64 := (joinLane_length tgt ls a).trans_lt hmid
    have hpost : c.postTo (BinWork.isCall team slot) (BinWork.addLane a) (.call team slot tgt [a]) now =
        some { c with bins := [poolBin team slot tgt now (joinLane tgt ls a)] } := by
      have hfind : indexOf? (fun b : Bin => !b.fired && BinWork.isCall team slot b.work && !b.work.full) c.bins = some 0 := by
        rw [hb]
        have hp : (!(poolBin team slot tgt now ls).fired && BinWork.isCall team slot (poolBin team slot tgt now ls).work &&
            !(poolBin team slot tgt now ls).work.full) = true := by
          unfold poolBin BinWork.isCall
          rw [not_full_call hls]
          simp
        rw [findIdx?_eq_indexOf?, List.findIdx?_cons, hp]
        rfl
      have hfull : (BinWork.addLane a (poolBin team slot tgt now ls).work).full = false := not_full_call hmid
      unfold Core.postTo
      rw [hfind]
      dsimp only
      rw [hb]
      dsimp only [List.getElem?_cons_zero]
      rw [hfull, if_neg Bool.false_ne_true]
      rfl
    obtain ⟨c', h1, h2⟩ := ih (c := { c with bins := [poolBin team slot tgt now (joinLane tgt ls a)] }) rfl hfit
    refine ⟨c', ?_, h2⟩
    unfold Core.poolLanes
    rw [hpost]
    exact h1

theorem poolLanes_new {team : Nat} {slot : Word64} {tgt : CallTarget} {now : Word64} {a : CallLane} {l : List CallLane} {c : Core}
    (hb : c.bins = []) (hfit : (l.foldl (joinLane tgt) [a]).length < 64) :
    ∃ c', c.poolLanes team slot tgt now (a :: l) = some c' ∧
      c'.bins = [poolBin team slot tgt now (l.foldl (joinLane tgt) [a])] := by
  have hpost : c.postTo (BinWork.isCall team slot) (BinWork.addLane a) (.call team slot tgt [a]) now =
      some { c with bins := [poolBin team slot tgt now [a]] } := by
    unfold Core.postTo
    rw [hb]
    rfl
  obtain ⟨c', h1, h2⟩ := poolLanes_fill (now := now) l (c := { c with bins := [poolBin team slot tgt now [a]] }) rfl hfit
  refine ⟨c', ?_, h2⟩
  unfold Core.poolLanes
  rw [hpost]
  exact h1

/-! ### How many lanes a pooled call fills -/

theorem foldl_joinLane_items {tgt : CallTarget} (hg : tgt.gather = false) (l ls : List CallLane) :
    l.foldl (joinLane tgt) ls = ls ++ l := by
  induction l generalizing ls with
  | nil => rw [List.append_nil, List.foldl_nil]
  | cons a l ih =>
    rw [List.foldl_cons, ih]
    unfold joinLane
    rw [hg, if_neg Bool.false_ne_true, List.append_assoc]
    rfl

/-- Sets of k that hold n members, all but the last full and the last open. -/
def SetsOf (k : Nat) (ls : List CallLane) (n : Nat) : Prop :=
  ∃ init l, ls = init ++ [l] ∧ l.closed = false ∧ 1 ≤ l.members.length ∧ l.members.length ≤ k ∧
    n = init.length * k + l.members.length

theorem setsOf_joinSet {k : Nat} {ls : List CallLane} {n : Nat} (hk : 0 < k) (h : SetsOf k ls n) (m : Member) :
    SetsOf k (joinSet k m ls) (n + 1) := by
  obtain ⟨init, l, rfl, hopen, h1, hle, hn⟩ := h
  unfold joinSet
  rw [List.getLast?_concat]
  dsimp only
  by_cases hroom : l.members.length < k
  · rw [hopen, if_pos (by simpa using hroom), List.dropLast_concat]
    refine ⟨init, _, rfl, rfl, ?_, ?_, ?_⟩ <;> simp only [List.length_append, List.length_singleton] <;> omega
  · rw [if_neg (by simp [hroom])]
    refine ⟨init ++ [l], _, rfl, rfl, Nat.le_refl 1, hk, ?_⟩
    have : l.members.length = k := by omega
    rw [List.length_append, List.length_singleton, hn, this, Nat.add_mul, Nat.one_mul]
    rfl

theorem setsOf_length {k : Nat} {ls : List CallLane} {n : Nat} (h : SetsOf k ls n) : ls.length = (n + k - 1) / k := by
  obtain ⟨init, l, rfl, -, h1, hle, rfl⟩ := h
  have hk : 0 < k := h1.trans hle
  rw [List.length_append, List.length_singleton]
  symm
  rw [show init.length * k + l.members.length + k - 1 = (l.members.length - 1) + k * (init.length + 1) from by
    rw [Nat.mul_add, Nat.mul_comm k init.length]; omega, Nat.add_mul_div_left _ _ hk, Nat.div_eq_of_lt (by omega), Nat.zero_add]

theorem setsOf_foldl {tgt : CallTarget} (hg : tgt.gather = true) (ms : List Member) {ls : List CallLane} {n : Nat}
    (h : SetsOf tgt.k ls n) : SetsOf tgt.k ((ms.map (fun m => (⟨0, [m], false⟩ : CallLane))).foldl (joinLane tgt) ls)
      (n + ms.length) := by
  induction ms generalizing ls n with
  | nil => exact h
  | cons m ms ih =>
    rw [List.map_cons, List.foldl_cons, List.length_cons, Nat.add_comm ms.length 1, ← Nat.add_assoc]
    refine ih ?_
    have : joinLane tgt ls ⟨0, [m], false⟩ = joinSet tgt.k m ls := by
      unfold joinLane
      rw [hg, if_pos rfl]
      rfl
    rw [this]
    exact setsOf_joinSet (Nat.two_pow_pos _) h m

theorem pooled_lanes {tgt : CallTarget} (callers : List Nat) (f : Nat → Member) (hne : callers ≠ []) :
    ∃ a l, tgt.pooled (callers.map f) = a :: l ∧
      (l.foldl (joinLane tgt) [a]).length = Claims.calleeLanes tgt.gather tgt.k callers.length := by
  have hk : 0 < tgt.k := Nat.two_pow_pos _
  unfold CallTarget.pooled
  cases hg : tgt.gather with
  | true =>
    obtain ⟨c, cs, rfl⟩ := List.exists_cons_of_ne_nil hne
    refine ⟨⟨0, [f c], false⟩, (cs.map f).map (fun m => ⟨0, [m], false⟩), rfl, ?_⟩
    have h1 : SetsOf tgt.k [(⟨0, [f c], false⟩ : CallLane)] 1 := ⟨[], _, rfl, rfl, Nat.le_refl 1, hk, by simp⟩
    rw [setsOf_length (setsOf_foldl hg (cs.map f) h1)]
    unfold Claims.calleeLanes
    rw [if_pos rfl, List.length_map, List.length_cons, Nat.add_comm 1]
  | false =>
    rw [if_neg Bool.false_ne_true]
    have hlen := lanes_length callers f hg
    have hpos : 0 < (tgt.lanes (callers.map f)).length := by
      rw [hlen]
      unfold Claims.calleeLanes
      rw [if_neg Bool.false_ne_true]
      exact Nat.mul_pos (List.length_pos_iff.2 hne) hk
    obtain ⟨a, l, hal⟩ := List.exists_cons_of_ne_nil (List.ne_nil_of_length_pos hpos)
    refine ⟨a, l, hal, ?_⟩
    rw [foldl_joinLane_items hg, ← hlen, hal]
    rfl

/-! ## The bodies -/

/-- The call that a group opens. -/
def Group.opens (g : Group) (tgt : CallTarget) (creg : BitVec 6) (set : Mask) : Calling :=
  { tgt := tgt, creg := creg, set := set, left := set, res := noResults tgt.rc.nres, flags := 0,
    x := (List.range 7).map (fun i => g.xVal (BitVec.ofNat 6 i)), passes := tgt.k }

/-- The caller before it is parked. -/
def Group.called (g : Group) (h : Hdr) (ord : Option Nat) : Group :=
  { g.age.countStep h ord with wait := none, sampled := false, pass := .no }

theorem called_parkedFor (g : Group) (h : Hdr) (ord : Option Nat) (call : Calling) :
    (g.called h ord).parkedFor call = g.calls call (g.age.countStep h ord).lastsp (g.age.countStep h ord).steps := by
  unfold Group.called
  rw [Group.countStep_keep]
  rfl

section Body
variable {s : State} {g : Group} {h : Hdr} {gather : Bool} {t : Target} {sel : Option (BitVec 3)} {n : BitVec 6} {rc : EntryRec}
  {set : Mask}

theorem widthCallBody_none (team : Bool) (hc : s.callChecks g (g.target t) gather n = .ok rc) (hset : g.selected h sel = 0) :
    widthCallBody h gather team t sel (.v n) s g = .ok { s := s, g := g, touches := callTouches (g.target t) } := by
  unfold widthCallBody
  dsimp only [vNum, bind, Except.bind]
  rw [hc]
  dsimp only
  rw [if_pos hset]

/-- The state in which a call has counted and looked up its lines. -/
def State.calling (s : State) (g : Group) (target : Word64) : State :=
  (s.countIssue (g.core.getD 0)).lookUpAll g ((callTouches target).map (fun x => x.va))

variable (hc : s.callChecks g (g.target t) gather n = .ok rc) (hset : g.selected h sel ≠ 0) (hpend : h.sw = true → g.pend = [])
  (hown : s.ownOps g = false)
include hc hset hpend hown

/-- A call that waits for nothing runs on. -/
theorem widthCallBody_runs (team : Bool) : widthCallBody h gather team t sel (.v n) s g =
    if team then
      (match ((s.calling g (g.target t)).core (g.core.getD 0)).poolLanes g.team g.pc ⟨g.target t, rc, gather⟩ s.time
        (CallTarget.pooled ⟨g.target t, rc, gather⟩ ((lanesOf (g.selected h sel)).map (g.member n rc.nargs))) with
      | some co => .ok { s := ((s.calling g (g.target t)).modCore (g.core.getD 0) (fun _ => co)).setGroup
                           ((g.called h (if h.st then s.ordinal g g.pc else none)).parkedFor
                             (g.opens ⟨g.target t, rc, gather⟩ n (g.selected h sel))),
                         g := g, final := true }
      | none => .ok { s := (s.modCore (g.core.getD 0) (Core.fireOldest s.time)).formSpawn (g.core.getD 0), g := g,
                      wait := some .queue, hold := true })
    else
      (match (s.calling g (g.target t)).grantCall (g.called h (if h.st then s.ordinal g g.pc else none))
        (g.opens ⟨g.target t, rc, gather⟩ n (g.selected h sel))
        (CallTarget.lanes ⟨g.target t, rc, gather⟩ ((lanesOf (g.selected h sel)).map (g.member n rc.nargs))) (g.selected h sel) with
      | some s2 => .ok { s := s2, g := g, final := true }
      | none => .error (callTrap (g.target t) (trapOf .frameovf))) := by
  have hall : (h.sw && !g.allReturned) = false := by
    cases hs : h.sw with
    | false => rfl
    | true =>
      unfold Group.allReturned
      rw [hpend hs]
      rfl
  have hlate : (if h.sw then g.latePoison else none) = none := by
    split
    · next hs =>
      unfold Group.latePoison
      rw [hpend hs]
      rfl
    · rfl
  have hnow : (if h.sw then g.deliverPend else g) = g := by
    split
    · next hs => exact Group.deliverPend_nil (hpend hs)
    · rfl
  have hthen : ∀ o, (if h.sw then (g.age.countStep h o).deliverPend else g.age.countStep h o) = g.age.countStep h o := by
    intro o
    split
    · next hs => exact Group.deliverPend_nil (by rw [Group.countStep_keep]; exact hpend hs)
    · rfl
  unfold widthCallBody
  dsimp only [vNum, bind, Except.bind]
  rw [hc]
  dsimp only
  rw [if_neg hset, hall, if_neg Bool.false_ne_true, hown, if_neg Bool.false_ne_true, hlate]
  dsimp only
  rw [hnow, hthen]
  rfl

theorem widthCallBody_grants {s2 : State}
    (hgrant : (s.calling g (g.target t)).grantCall (g.called h (if h.st then s.ordinal g g.pc else none))
      (g.opens ⟨g.target t, rc, gather⟩ n (g.selected h sel))
      (CallTarget.lanes ⟨g.target t, rc, gather⟩ ((lanesOf (g.selected h sel)).map (g.member n rc.nargs))) (g.selected h sel) = some s2) :
    widthCallBody h gather false t sel (.v n) s g = .ok { s := s2, g := g, final := true } := by
  rw [widthCallBody_runs hc hset hpend hown false, if_neg Bool.false_ne_true, hgrant]

theorem widthCallBody_pools {co : Core}
    (hpool : ((s.calling g (g.target t)).core (g.core.getD 0)).poolLanes g.team g.pc ⟨g.target t, rc, gather⟩ s.time
      (CallTarget.pooled ⟨g.target t, rc, gather⟩ ((lanesOf (g.selected h sel)).map (g.member n rc.nargs))) = some co) :
    widthCallBody h gather true t sel (.v n) s g = .ok
      { s := ((s.calling g (g.target t)).modCore (g.core.getD 0) (fun _ => co)).setGroup
          ((g.called h (if h.st then s.ordinal g g.pc else none)).parkedFor
            (g.opens ⟨g.target t, rc, gather⟩ n (g.selected h sel))),
        g := g, final := true } := by
  rw [widthCallBody_runs hc hset hpend hown true, if_pos rfl, hpool]

end Body

/-! ## The obligation -/

theorem entryRec_recordOk {s : State} {g : Group} {a : Word64} {rc : EntryRec} (h : s.entryRec g a = .ok rc) :
    ∃ b, recordOk b = true ∧ recordOf b = rc := by
  unfold State.entryRec at h
  dsimp only at h
  split at h
  · cases h
  · next b _ =>
    split at h
    · next hok => exact ⟨b, hok, Except.ok.inj h⟩
    · cases h

theorem recordOk_vregs {b : BitVec 512} (h : recordOk b = true) : (recordOf b).vregs ≤ 64 := by
  unfold recordOk at h
  simp only [Bool.and_eq_true, decide_eq_true_eq] at h
  exact h.1.1.1.1.2

theorem passes_of_ok {α : Type} {p : Prop} [Decidable p] {e : Trap} {x : Except Trap α} {r : α}
    (h : (if p then .error e else x) = .ok r) : ¬p ∧ x = .ok r := by
  by_cases hp : p
  · rw [if_pos hp] at h
    cases h
  · rw [if_neg hp] at h
    exact ⟨hp, h⟩

theorem callChecks_ok {s : State} {g : Group} {a : Word64} {gather : Bool} {n : BitVec 6} {rc : EntryRec}
    (h : s.callChecks g a gather n = .ok rc) : s.checkTarget g a true = .ok () ∧
      (if gather then 2 ^ rc.wlog * rc.nargs else rc.nargs) ≤ 64 := by
  unfold State.callChecks at h
  dsimp only [bind, Except.bind] at h
  split at h
  · cases h
  next hct =>
  split at h
  · cases h
  next rc0 hrec =>
  obtain ⟨-, h⟩ := passes_of_ok h
  obtain ⟨hbad, h⟩ := passes_of_ok h
  obtain ⟨-, h⟩ := passes_of_ok h
  obtain ⟨-, h⟩ := passes_of_ok h
  obtain rfl := Except.ok.inj h
  refine ⟨hct, ?_⟩
  obtain ⟨b, hok, hb⟩ := entryRec_recordOk hrec
  have hle : rc0.vregs ≤ 64 := hb ▸ recordOk_vregs hok
  rw [Bool.not_eq_true, Bool.or_eq_false_iff, Bool.or_eq_false_iff, decide_eq_false_iff_not] at hbad
  exact (Nat.le_of_not_lt hbad.1.2).trans hle

/-- A width call runs its body on the state as it is. -/
theorem exec_widthCall {s : State} {g : Group} {h : Hdr} {gather team : Bool} {t : Target} {sel : Option (BitVec 3)}
    {n : BitVec 6} {i : Instr} (hi : i = if gather then .gcall h team t sel (.v n) else .wcall h team t sel (.v n))
    (hwf : i.wellFormed = true) (hg : s.group? s.cur = some g) (hm : g.mode = .user)
    (hct : s.checkTarget g (g.target t) true = .ok ())
    (hl : ∀ va ∈ [lineAddr (g.target t), lineAddr (g.target t) - 64], (s.fetchLine (s.accessor g) va).mismatch = false) :
    exec i s = .next (s.conclude g h (widthCallBody h gather team t sel (.v n) s g)) := by
  have hx : exec i s = issue s i h true
      (reading (fun s g => s.callLines g (g.target t)) (widthCallBody h gather team t sel (.v n))) := by
    subst hi
    cases gather <;> rfl
  rw [hx, issue_eq hg hwf (fun _ => hm), reading_clean (by rw [callLines_of_ok hct]; exact hl)]

section Settled
variable {s : State} {g : Group} {h : Hdr} {i : Instr} {gather team : Bool} {t : Target} {sel : Option (BitVec 3)} {n : BitVec 6}
  {rc : EntryRec} {set : Mask} {c : Nat} {tgt : CallTarget}

theorem widthCall_grants {tm : Team} (hg : s.group? g.id = some g) (hcore : g.core = some c) (htgt : tgt.gather = gather)
    (hset : lanesOf set ≠ []) (hfit : Claims.calleeLanes gather tgt.k (lanesOf set).length ≤ 64)
    (hargs : (if gather then tgt.k * tgt.rc.nargs else tgt.rc.nargs) ≤ 64) (htm : s.team? g.team = some tm)
    (hframe : tgt.rc.frame = 0) (hgrant : s.grantable c tm tgt.rc 1 = 1) (hids : ∀ q ∈ s.groups, q.id < s.nextId)
    {s1 : State} (hpool : SamePool s s1) (ord : Option Nat) :
    ∃ u callee, s1.grantCall (g.called h ord) (g.opens tgt n set)
        (tgt.lanes ((lanesOf set).map (g.member n tgt.rc.nargs))) set = some u ∧
      u.group? g.id = some ((g.called h ord).parkedFor (g.opens tgt n set)) ∧ u.group? s.nextId = some callee ∧
      Claims.startsAs g callee tgt.rc gather n (lanesOf set) tgt.entry ∧ u.mem = s.mem := by
  have hgm : g ∈ s.groups := List.mem_of_find?_eq_some hg
  have hlanes : (tgt.lanes ((lanesOf set).map (g.member n tgt.rc.nargs))).length =
      Claims.calleeLanes gather tgt.k (lanesOf set).length := lanes_length _ _ htgt
  have hpos : 0 < Claims.calleeLanes gather tgt.k (lanesOf set).length := calleeLanes_pos (Nat.two_pow_pos _) hset
  have hcall : (g.called h ord).parkedFor (g.opens tgt n set) = _ := called_parkedFor g h ord (g.opens tgt n set)
  have hteam : (g.called h ord).team = g.team := by unfold Group.called; rw [Group.countStep_keep]; rfl
  have hcore' : (g.called h ord).core = some c := by unfold Group.called; rw [Group.countStep_keep]; exact hcore
  have hdepth : (g.called h ord).depth = g.depth := by unfold Group.called; rw [Group.countStep_keep]; rfl
  have hself : (s1.called tm ((g.called h ord).parkedFor (g.opens tgt n set))).group? g.id =
      some ((g.called h ord).parkedFor (g.opens tgt n set)) := by
    rw [hcall]
    refine State.group?_setGroup_self (g0 := g) ?_
    rw [State.group?_congr (show (s1.modTeam tm.id (fun _ => tm)).groups = s.groups from hpool.groups)]
    exact hg
  obtain ⟨k, hk⟩ : ∃ k, k ∈ s1.freeSlots c := by
    refine List.exists_mem_of_length_pos ?_
    rw [← hpool.grantable] at hgrant
    unfold State.grantable at hgrant
    dsimp only at hgrant
    omega
  obtain ⟨slot, hslot⟩ : ∃ slot, (s1.called tm ((g.called h ord).parkedFor (g.opens tgt n set))).pickSlot c = some slot := by
    refine pickSlot_isSome (freeSlots_setGroup (g := g) (s := s1.modTeam tm.id (fun _ => tm)) ?_ ?_ ?_ hk)
    · exact hpool.groups ▸ hgm
    · rw [hcall]
      rfl
    · rw [hcall]
      rfl
  have hgranted := grantCall_one (c := g.opens tgt n set) (set := set) (t := tm) (core := c) (slot := slot)
    ((hpool.team? _).trans (by rw [hteam]; exact htm)) hcore' hframe (List.ne_nil_of_length_pos (by rw [hlanes]; exact hpos))
    (by rw [hlanes]; exact hfit) ((hpool.grantable c tm _ 1).trans hgrant) hslot
  rw [hdepth] at hgranted
  refine ⟨_, (s1.called tm ((g.called h ord).parkedFor (g.opens tgt n set))).calleeGroup c slot tgt
    ⟨0, tgt.lanes ((lanesOf set).map (g.member n tgt.rc.nargs))⟩ [] (g.depth + 1) none, hgranted,
    group?_withCallee_old hself, group?_withCallee_new (State.group?_eq_none_iff.2 ?_)
      (State.calleeGroup_numbered ((packCaller_eq rfl htgt hset).trans hself) hpool.nextId),
    callee_startsAs rfl rfl htgt hset hfit (by rw [hself, hcall]) hcore rfl hargs, hpool.mem⟩
  intro hmem
  obtain ⟨q, hq, hid⟩ := List.mem_map.1 hmem
  obtain ⟨q0, hq0, rfl⟩ := List.mem_map.1 hq
  replace hq0 : q0.id < s.nextId := hids q0 (hpool.groups ▸ hq0)
  have hself_id : ((g.called h ord).parkedFor (g.opens tgt n set)).id = g.id := by rw [hcall]; rfl
  split at hid
  · rw [hself_id] at hid
    exact absurd hid (Nat.ne_of_lt (hids g hgm))
  · exact absurd hid (Nat.ne_of_lt hq0)

theorem widthCall_pools (hg : s.group? g.id = some g) (hc : c < 272) (htgt : tgt.gather = gather) (hset : lanesOf set ≠ [])
    (hfit : Claims.calleeLanes gather tgt.k (lanesOf set).length < 64) (hbins : (s.core c).bins = []) {s1 : State}
    (hpool : SamePool s s1) (ord : Option Nat) :
    ∃ co lanes, (s1.core c).poolLanes g.team g.pc tgt s.time (tgt.pooled ((lanesOf set).map (g.member n tgt.rc.nargs))) = some co ∧
      lanes.length = Claims.calleeLanes gather tgt.k (lanesOf set).length ∧
      (((s1.modCore c (fun _ => co)).setGroup ((g.called h ord).parkedFor (g.opens tgt n set))).core c).bins =
        [poolBin g.team g.pc tgt s.time lanes] ∧
      ((s1.modCore c (fun _ => co)).setGroup ((g.called h ord).parkedFor (g.opens tgt n set))).group? g.id =
        some ((g.called h ord).parkedFor (g.opens tgt n set)) := by
  obtain ⟨a, l, hal, hlen⟩ := pooled_lanes (tgt := tgt) (lanesOf set) (g.member n tgt.rc.nargs) hset
  rw [htgt] at hlen
  obtain ⟨co, hco, hb⟩ := poolLanes_new (team := g.team) (slot := g.pc) (now := s.time) (c := s1.core c)
    ((hpool.bins c).trans hbins) (by rw [hlen]; exact hfit)
  refine ⟨co, _, hal ▸ hco, hlen, ?_, ?_⟩
  · refine (congrArg Core.bins (State.core_modCore s1 hc (fun _ => co) c)).trans ?_
    rw [if_pos rfl]
    exact hb
  · rw [called_parkedFor]
    refine State.group?_setGroup_self (g0 := g) ?_
    exact (State.group?_congr (show (s1.modCore c (fun _ => co)).groups = s.groups from hpool.groups) g.id).trans hg

end Settled

/-- Settles O34. -/
theorem widthCalls : Obligations.WidthCalls := by
  intro s g h i gather team t sel n rc set k c hi hwf hg hcalls
  obtain ⟨hchecks, hset, hm, hpend, hown, hlines⟩ := hcalls
  rw [← target_eq_address] at hchecks hlines ⊢
  replace hset : g.selected h sel = set := (selected_eq g h sel).trans hset.symm
  obtain ⟨hct, hargs⟩ := callChecks_ok hchecks
  have hexec := exec_widthCall hi hwf hg hm hct hlines
  have hgid : s.group? g.id = some g := by rw [State.group?_id hg]; exact hg
  subst hset
  refine ⟨fun h0 => ?_, fun hne hk hle hcore hc _ => ⟨?_, ?_⟩⟩
  · rw [hexec, widthCallBody_none team hchecks h0, conclude_ok rfl rfl]
    rfl
  · rintro rfl tm htm hframe hgrant hids
    have hpool : SamePool s (s.calling g (g.target t)) := (samePool_countIssue s _).trans (samePool_lookUpAll _ g _)
    obtain ⟨u, callee, hu, hcaller, hcallee, hstarts, hmem⟩ := widthCall_grants (h := h) (n := n)
      (tgt := ⟨g.target t, rc, gather⟩) hgid hcore rfl (lanesOf_ne_nil hne) (hk ▸ hle) hargs htm hframe hgrant hids hpool
      (if h.st then s.ordinal g g.pc else none)
    rw [hexec, widthCallBody_grants hchecks hne hpend hown hu]
    rw [called_parkedFor] at hcaller
    exact ⟨u, _, callee, _, rfl, hcaller, rfl, rfl, rfl, rfl, hcallee, hstarts, hmem⟩
  · rintro rfl hbins hlt
    have hpool : SamePool s (s.calling g (g.target t)) := (samePool_countIssue s _).trans (samePool_lookUpAll _ g _)
    obtain ⟨co, lanes, hco, hlen, hb, hcaller⟩ := widthCall_pools (h := h) (n := n) (tgt := ⟨g.target t, rc, gather⟩) hgid hc rfl
      (lanesOf_ne_nil hne) (hk ▸ hlt) hbins hpool (if h.st then s.ordinal g g.pc else none)
    have hcd : g.core.getD 0 = c := by rw [hcore]; rfl
    rw [hexec, widthCallBody_pools hchecks hne hpend hown (by rw [hcd]; exact hco)]
    rw [hcd]
    exact ⟨_, _, _, _, rfl, hcaller, by rw [called_parkedFor]; rfl, rfl, rfl, rfl, hb, rfl, lanes, rfl, hlen.trans hk.symm⟩

end Sys2Proof.Machine

end


section
/-! # O12: a rounded value in a float format (R47, R50, R51, R53, R56, R58, R61) -/

namespace Sys2Proof.Machine

/-! ## Magnitudes -/

theorem magLt_iff (m1 : Nat) (e1 : Int) (m2 : Nat) (e2 : Int) :
    magLt m1 e1 m2 e2 = true ↔ (m1 : ℚ) * 2 ^ e1 < m2 * 2 ^ e2 := by
  have hpos : (0 : ℚ) < 2 ^ min e1 e2 := zpow_pos two_pos _
  unfold magLt
  dsimp only
  rw [decide_eq_true_iff, zpow_quantum (min_le_left e1 e2), zpow_quantum (min_le_right e1 e2), ← mul_assoc, ← mul_assoc,
    mul_lt_mul_iff_left₀ hpos]
  norm_cast

/-- The place of the highest bit of a magnitude. -/
theorem log2_place {m : Nat} (h : m ≠ 0) (q : Int) :
    (2 : ℚ) ^ ((Nat.log2 m : Int) + q) ≤ m * 2 ^ q ∧ (m : ℚ) * 2 ^ q < 2 ^ ((Nat.log2 m : Int) + q + 1) := by
  have hpos : (0 : ℚ) < 2 ^ q := zpow_pos two_pos _
  have hlo : ((2 ^ Nat.log2 m : Nat) : ℚ) ≤ m := by exact_mod_cast Nat.log2_self_le h
  have hhi : (m : ℚ) < ((2 ^ (Nat.log2 m + 1) : Nat) : ℚ) := by exact_mod_cast Nat.lt_log2_self
  push_cast at hlo hhi
  constructor
  · rw [zpow_add₀ two_ne_zero, zpow_natCast]
    exact mul_le_mul_of_nonneg_right hlo hpos.le
  · rw [add_right_comm, zpow_add₀ two_ne_zero, show ((Nat.log2 m : Int) + 1) = ((Nat.log2 m + 1 : Nat) : Int) from by push_cast; rfl,
      zpow_natCast]
    exact mul_lt_mul_of_pos_right hhi hpos

theorem place_lt {a b : Int} {x : ℚ} (ha : (2 : ℚ) ^ a ≤ x) (hb : x < 2 ^ b) : a < b :=
  (zpow_lt_zpow_iff_right₀ one_lt_two).1 (ha.trans_lt hb)

/-! ## The code of a value that the format holds -/

/-- A magnitude M of unit 2^(e − mb) as a format holds it: normal, or at the least normal exponent. -/
def Fmt.held (f : Fmt) (M : Nat) (e : Int) : Prop :=
  f.emin ≤ e ∧ M < 2 ^ (f.mb + 1) ∧ (2 ^ f.mb ≤ M ∨ e = f.emin)

/-- The fields of a code without its sign. -/
def Fmt.body (f : Fmt) (M : Nat) (e : Int) : Nat :=
  if M < 2 ^ f.mb then M else (e + f.bias).toNat * 2 ^ f.mb + (M - 2 ^ f.mb)

theorem zpow_unit (M : Nat) (e : Int) (k : Nat) (h : 2 ^ k ≤ M) : (2 : ℚ) ^ e ≤ M * 2 ^ (e - k) := by
  have hk : ((2 ^ k : Nat) : ℚ) ≤ M := by exact_mod_cast h
  calc (2 : ℚ) ^ e = (2 ^ (e - (e - k)).toNat : Nat) * 2 ^ (e - k) := zpow_quantum (by omega)
    _ = ((2 ^ k : Nat) : ℚ) * 2 ^ (e - k) := by rw [show (e - (e - (k : Int))).toNat = k from by omega]
    _ ≤ M * 2 ^ (e - k) := mul_le_mul_of_nonneg_right hk (zpow_pos two_pos _).le

theorem zpow_unit_lt (M : Nat) (e : Int) (k j : Nat) (h : M < 2 ^ (k + j)) : (M : ℚ) * 2 ^ (e - k) < 2 ^ (e + j) := by
  have hk : (M : ℚ) < ((2 ^ (k + j) : Nat) : ℚ) := by exact_mod_cast h
  calc (M : ℚ) * 2 ^ (e - k) < ((2 ^ (k + j) : Nat) : ℚ) * 2 ^ (e - k) := mul_lt_mul_of_pos_right hk (zpow_pos two_pos _)
    _ = (2 ^ (e + j - (e - k)).toNat : Nat) * 2 ^ (e - k) := by rw [show (e + j - (e - (k : Int))).toNat = k + j from by omega]
    _ = 2 ^ (e + j) := (zpow_quantum (by omega)).symm

theorem Fmt.encode_eq {f : Fmt} (neg : Bool) {man M : Nat} {q e : Int} (hv : (man : ℚ) * 2 ^ q = M * 2 ^ (e - f.mb))
    (hM : f.held M e) : f.encode neg man q = f.sign neg + f.body M e := by
  obtain ⟨he, hlt, hn⟩ := hM
  have hq : (2 : ℚ) ^ q ≠ 0 := (zpow_pos two_pos _).ne'
  have hu : (2 : ℚ) ^ (e - f.mb) ≠ 0 := (zpow_pos two_pos _).ne'
  unfold Fmt.encode
  by_cases h0 : man = 0
  · have hM0 : M = 0 := by
      rw [h0, Nat.cast_zero, zero_mul, eq_comm, mul_eq_zero, or_iff_left hu] at hv
      exact_mod_cast hv
    rw [if_pos h0, hM0, Fmt.body, if_pos (Nat.two_pow_pos _)]
    rfl
  · rw [if_neg h0]
    obtain ⟨hlo, hhi⟩ := log2_place h0 q
    have hmax : max ((Nat.log2 man : Int) + q) f.emin = e := by
      rw [hv] at hlo hhi
      rcases hn with hn | rfl
      · have h1 := place_lt hlo (zpow_unit_lt M e f.mb 1 hlt)
        have h2 := place_lt (zpow_unit M e f.mb hn) hhi
        push_cast at h1
        omega
      · have h1 := place_lt hlo (zpow_unit_lt M f.emin f.mb 1 hlt)
        push_cast at h1
        omega
    dsimp only
    rw [hmax]
    have hm : (if q ≥ e - f.mb then man * 2 ^ (q - (e - f.mb)).toNat else man / 2 ^ ((e - f.mb) - q).toNat) = M := by
      split
      · next hge =>
        rw [zpow_quantum hge, ← mul_assoc] at hv
        exact_mod_cast mul_right_cancel₀ hu hv
      · next hge =>
        rw [zpow_quantum (le_of_not_ge hge), ← mul_assoc] at hv
        have : man = M * 2 ^ ((e - f.mb) - q).toNat := by exact_mod_cast mul_right_cancel₀ hq hv
        rw [this, Nat.mul_div_cancel _ (Nat.two_pow_pos _)]
    rw [hm]
    rfl

/-- What a code of some fields stands for. -/
def Fmt.fields (f : Fmt) (neg : Bool) (e m : Nat) : FVal :=
  let finite := if e = 0 then FVal.fin neg m (f.emin - f.mb) else .fin neg (m + 2 ^ f.mb) ((e : Int) - f.bias - f.mb)
  match f.ending with
  | .ieee =>
    if e = 2 ^ f.eb - 1 then
      if m = 0 then .inf neg else .nan (2 < f.mb && m < 2 ^ (f.mb - 1))
    else finite
  | .e4m3 => if e = 2 ^ f.eb - 1 && m = 2 ^ f.mb - 1 then .nan false else finite
  | .e2m1 => finite

theorem Fmt.decode_word (f : Fmt) (neg : Bool) {E m : Nat} (hE : E < 2 ^ f.eb) (hm : m < 2 ^ f.mb) :
    f.decode (f.sign neg + (E * 2 ^ f.mb + m)) = f.fields neg E m := by
  have hp : 0 < 2 ^ f.mb := Nat.two_pow_pos _
  have hsign : f.sign neg = neg.toNat * 2 ^ f.eb * 2 ^ f.mb := by
    unfold Fmt.sign
    cases neg with
    | false => simp
    | true => rw [if_pos rfl, Bool.toNat_true, Nat.one_mul, Nat.pow_add]
  have hc : f.sign neg + (E * 2 ^ f.mb + m) = m + (neg.toNat * 2 ^ f.eb + E) * 2 ^ f.mb := by
    rw [hsign, Nat.add_mul]
    omega
  have hmod : (f.sign neg + (E * 2 ^ f.mb + m)) % 2 ^ f.mb = m := by
    rw [hc, Nat.add_mul_mod_self_right, Nat.mod_eq_of_lt hm]
  have hdiv : (f.sign neg + (E * 2 ^ f.mb + m)) / 2 ^ f.mb = neg.toNat * 2 ^ f.eb + E := by
    rw [hc, Nat.add_mul_div_right _ _ hp, Nat.div_eq_of_lt hm, Nat.zero_add]
  have hexp : (f.sign neg + (E * 2 ^ f.mb + m)) / 2 ^ f.mb % 2 ^ f.eb = E := by
    rw [hdiv, Nat.add_comm, Nat.add_mul_mod_self_right, Nat.mod_eq_of_lt hE]
  have htop : ((f.sign neg + (E * 2 ^ f.mb + m)) / 2 ^ (f.eb + f.mb) % 2 == 1) = neg := by
    rw [Nat.add_comm f.eb, Nat.pow_add, ← Nat.div_div_eq_div_mul, hdiv, Nat.add_comm, Nat.add_mul_div_right _ _ (Nat.two_pow_pos _),
      Nat.div_eq_of_lt hE, Nat.zero_add]
    cases neg <;> rfl
  show f.fields _ _ _ = _
  rw [hmod, hexp, htop]

/-- The largest finite value is below the next power of two. -/
theorem Fmt.maxFin_lt (f : Fmt) : f.maxFin.1 < 2 ^ (f.mb + 1) := by
  have := Nat.two_pow_pos (f.mb + 1)
  unfold Fmt.maxFin
  split <;> dsimp only <;> omega

theorem Fmt.decode_body {f : Fmt} (heb : 2 ≤ f.eb) (neg : Bool) {M : Nat} {e : Int} (hM : f.held M e)
    (hmax : (M : ℚ) * 2 ^ (e - f.mb) ≤ f.maxFin.1 * 2 ^ f.maxFin.2) :
    f.decode (f.sign neg + f.body M e) = .fin neg M (e - f.mb) := by
  obtain ⟨he, hlt, hn⟩ := hM
  have h4 : 4 ≤ 2 ^ f.eb := Nat.pow_le_pow_right (n := 2) (by omega) heb
  unfold Fmt.body
  by_cases hs : M < 2 ^ f.mb
  · obtain rfl : e = f.emin := hn.resolve_left (Nat.not_le.2 hs)
    have hword := f.decode_word neg (E := 0) (Nat.two_pow_pos _) hs
    rw [Nat.zero_mul, Nat.zero_add] at hword
    have h0 : ¬ 0 = 2 ^ f.eb - 1 := by omega
    rw [if_pos hs, hword]
    unfold Fmt.fields
    dsimp only
    split
    · rw [if_neg h0, if_pos rfl]
    · rw [if_neg (by simp only [Bool.and_eq_true, decide_eq_true_eq]; exact fun h => h0 h.1), if_pos rfl]
    · rw [if_pos rfl]
  · have hge : 2 ^ f.mb ≤ M := Nat.le_of_not_lt hs
    have hcast : ((2 ^ f.eb : Nat) : Int) = 2 ^ f.eb := by push_cast; rfl
    have htop : e ≤ f.maxFin.2 + f.mb := by
      have h1 := place_lt ((zpow_unit M e f.mb hge).trans hmax)
        (zpow_unit_lt f.maxFin.1 (f.maxFin.2 + f.mb) f.mb 1 f.maxFin_lt |> (by rwa [add_sub_cancel_right] at ·))
      push_cast at h1
      omega
    have hE1 : 1 ≤ e + f.bias := by unfold Fmt.emin at he; omega
    have hm : M - 2 ^ f.mb < 2 ^ f.mb := by rw [Nat.pow_succ] at hlt; omega
    have hEe : ((e + f.bias).toNat : Int) - f.bias - f.mb = e - f.mb := by omega
    have hE0 : ¬ (e + f.bias).toNat = 0 := by omega
    have hfin : f.fields neg (e + f.bias).toNat (M - 2 ^ f.mb) = .fin neg M (e - f.mb) ∧ (e + f.bias).toNat < 2 ^ f.eb := by
      unfold Fmt.fields
      dsimp only
      rw [if_neg hE0, hEe, Nat.sub_add_cancel hge]
      unfold Fmt.maxFin at htop hmax
      cases hend : f.ending with
      | ieee =>
        rw [hend] at htop
        dsimp only at htop ⊢
        rw [if_neg (by omega)]
        exact ⟨rfl, by omega⟩
      | e4m3 =>
        rw [hend] at htop hmax
        dsimp only at htop hmax ⊢
        refine ⟨if_neg ?_, by omega⟩
        simp only [Bool.and_eq_true, decide_eq_true_eq]
        rintro ⟨h1, h2⟩
        have heq : (2 ^ f.eb - 1 : Int) - f.bias - f.mb = e - f.mb := by omega
        rw [heq, mul_le_mul_iff_left₀ (zpow_pos two_pos _)] at hmax
        have hle : M ≤ 2 ^ (f.mb + 1) - 2 := by exact_mod_cast hmax
        rw [Nat.pow_succ] at hle
        omega
      | e2m1 =>
        rw [hend] at htop
        dsimp only at htop ⊢
        exact ⟨rfl, by omega⟩
    rw [if_neg hs, f.decode_word neg hfin.2 hm, hfin.1]

/-! ## The rounded magnitude -/

/-- A cut at the precision of mb bits below the highest one, or above, keeps at most a power of two. -/
theorem at_bounds {a : Approx} {l q : Int} {mb : Nat} (h0 : a.man ≠ 0) (hl : l = Nat.log2 a.man + a.exp) (hq : l - mb ≤ q)
    (rm : Rm) (draw : Nat) :
    (a.at_ q rm draw).1 ≤ 2 ^ (mb + 1) ∧ (q = l - mb → 2 ^ mb ≤ (a.at_ q rm draw).1) := by
  have hlo := Nat.log2_self_le h0
  have hhi : a.man < 2 ^ (Nat.log2 a.man + 1) := Nat.lt_log2_self
  have hkept : (a.cut q).kept < 2 ^ (mb + 1) ∧ (q = l - mb → 2 ^ mb ≤ (a.cut q).kept) := by
    generalize Nat.log2 a.man = L at *
    unfold Approx.cut
    dsimp only
    split
    · next hsh =>
      obtain ⟨j, hj⟩ : ∃ j : Nat, j = (-(q - a.exp)).toNat := ⟨_, rfl⟩
      dsimp only
      rw [← hj]
      constructor
      · calc a.man * 2 ^ j < 2 ^ (L + 1) * 2 ^ j := Nat.mul_lt_mul_of_pos_right hhi (Nat.two_pow_pos _)
          _ = 2 ^ (L + 1 + j) := (Nat.pow_add ..).symm
          _ ≤ 2 ^ (mb + 1) := Nat.pow_le_pow_right two_pos (by omega)
      · intro he
        calc 2 ^ mb = 2 ^ (L + j) := by congr 1; omega
          _ = 2 ^ L * 2 ^ j := Nat.pow_add ..
          _ ≤ a.man * 2 ^ j := Nat.mul_le_mul_right _ hlo
    · next hsh =>
      obtain ⟨j, hj⟩ : ∃ j : Nat, j = (q - a.exp).toNat := ⟨_, rfl⟩
      dsimp only
      rw [← hj]
      constructor
      · refine Nat.div_lt_of_lt_mul (hhi.trans_le ?_)
        rw [← Nat.pow_add]
        exact Nat.pow_le_pow_right two_pos (by omega)
      · intro he
        rw [Nat.le_div_iff_mul_le (Nat.two_pow_pos _), ← Nat.pow_add]
        refine le_trans (le_of_eq ?_) hlo
        congr 1
        omega
  unfold Approx.at_
  dsimp only
  constructor
  · split <;> omega
  · intro he
    have := hkept.2 he
    split <;> omega

/-- A rounded magnitude is one that the format holds. -/
theorem Fmt.exists_held (f : Fmt) {n : Nat} {q : Int} (hle : n ≤ 2 ^ (f.mb + 1))
    (hq : f.emin - f.mb ≤ q ∨ n = 2 ^ (f.mb + 1) ∧ q = f.emin - f.mb - 1) (hn : 2 ^ f.mb ≤ n ∨ q = f.emin - f.mb) :
    ∃ (M : Nat) (e : Int), (n : ℚ) * 2 ^ q = M * 2 ^ (e - f.mb : Int) ∧ f.held M e := by
  have hlt : 2 ^ f.mb < 2 ^ (f.mb + 1) := Nat.pow_lt_pow_right (by omega) (by omega)
  by_cases htop : n = 2 ^ (f.mb + 1)
  · refine ⟨2 ^ f.mb, q + f.mb + 1, ?_, ?_, hlt, Or.inl le_rfl⟩
    · rw [htop, show q + f.mb + 1 - (f.mb : Int) = q + 1 from by omega, zpow_add_one₀ two_ne_zero]
      push_cast
      ring
    · rcases hq with hq | ⟨-, hq⟩ <;> omega
  · have hq' : f.emin - f.mb ≤ q := hq.resolve_right (fun h => htop h.1)
    refine ⟨n, q + f.mb, ?_, by omega, lt_of_le_of_ne hle htop, hn.imp id (fun h => by omega)⟩
    rw [add_sub_cancel_right]

/-! ## Rounding into a format -/

section Round
variable {f : Fmt} {rm : Rm} {ftz sat : Bool} {draw : Nat} {a : Approx} {l q : Int} {n nu : Nat} {i iu : Bool}

/-- The cases of a rounding: flushed, an overflow, a value that the format holds. -/
theorem Fmt.round_eq (h0 : a.man ≠ 0) (hl : l = Nat.log2 a.man + a.exp) (hq : q = (if ftz then l else max l f.emin) - f.mb)
    (hu : a.at_ (l - f.mb) rm draw = (nu, iu)) (hr : a.at_ q rm draw = (n, i)) :
    f.round rm ftz sat draw a =
      if ftz && magLt nu (l - f.mb) 1 f.emin then (f.sign a.neg, fUnderflow ||| fInexact)
      else if magLt f.maxFin.1 f.maxFin.2 n q then (f.overflow a.neg rm sat, fOverflow ||| fInexact)
      else (f.encode a.neg n q, flagIf i fInexact ||| flagIf (magLt nu (l - f.mb) 1 f.emin && i) fUnderflow) := by
  have hz : (decide (a.man = 0) && !a.more) = false := by rw [decide_eq_false h0]; rfl
  unfold Fmt.round
  rw [hz, if_neg Bool.false_ne_true]
  dsimp only
  rw [← hl, hu]
  cases ftz with
  | true =>
    rw [if_pos rfl] at hq
    have hsame : (nu, iu) = (n, i) := by rw [← hu, ← hr, hq]
    obtain ⟨rfl, rfl⟩ := Prod.mk.inj hsame
    rw [hq]
    rfl
  | false =>
    rw [if_neg Bool.false_ne_true] at hq
    rw [← hq]
    simp only [Bool.false_eq_true, if_false, hr]

theorem magLt_emin (k : Nat) (e : Int) : magLt k e 1 f.emin = decide ((k : ℚ) * 2 ^ e < 2 ^ f.emin) := by
  rw [Bool.eq_iff_iff, magLt_iff, decide_eq_true_iff, Nat.cast_one, one_mul]

theorem rat_fin (neg : Bool) (m : Nat) (e : Int) : Claims.rat (.fin neg m e) = (if neg then -1 else 1) * m * 2 ^ e := rfl

theorem rat_maxFin : Claims.rat (.fin false f.maxFin.1 f.maxFin.2) = (f.maxFin.1 : ℚ) * 2 ^ f.maxFin.2 := by
  rw [rat_fin, if_neg Bool.false_ne_true, one_mul]

/-- What is rounded, and not flushed, is a magnitude that the format holds, its size apart. -/
theorem Fmt.rounded_held (h0 : a.man ≠ 0) (hl : l = Nat.log2 a.man + a.exp)
    (hq : q = (if ftz then l else max l f.emin) - f.mb) (hu : a.at_ (l - f.mb) rm draw = (nu, iu))
    (hr : a.at_ q rm draw = (n, i)) (hnot : ftz = false ∨ (2 : ℚ) ^ f.emin ≤ nu * 2 ^ (l - f.mb)) :
    ∃ (M : Nat) (e : Int), (n : ℚ) * 2 ^ q = M * 2 ^ (e - f.mb : Int) ∧ f.held M e := by
  have hge : l - f.mb ≤ q := by
    rw [hq]
    split <;> omega
  obtain ⟨hle, hlow⟩ := at_bounds h0 hl hge rm draw
  rw [hr] at hle hlow
  cases ftz with
  | false =>
    rw [if_neg Bool.false_ne_true] at hq
    refine f.exists_held hle (Or.inl (by omega)) ?_
    by_cases hle : f.emin ≤ l
    · exact Or.inl (hlow (by omega))
    · exact Or.inr (by omega)
  | true =>
    rw [if_pos rfl] at hq
    subst hq
    have hsame : (nu, iu) = (n, i) := by rw [← hu, ← hr]
    obtain ⟨rfl, rfl⟩ := Prod.mk.inj hsame
    have hbig : (2 : ℚ) ^ f.emin ≤ nu * 2 ^ (l - f.mb) := hnot.resolve_left (by decide)
    refine f.exists_held hle ?_ (Or.inl (hlow rfl))
    by_cases htop : nu = 2 ^ (f.mb + 1)
    · have := place_lt hbig (zpow_unit_lt nu l f.mb 2 (by rw [htop]; exact Nat.pow_lt_pow_right (by omega) (by omega)))
      push_cast at this
      by_cases hl' : f.emin ≤ l
      · exact Or.inl (by omega)
      · exact Or.inr ⟨htop, by omega⟩
    · have := place_lt hbig (zpow_unit_lt nu l f.mb 1 (lt_of_le_of_ne hle htop))
      push_cast at this
      exact Or.inl (by omega)

theorem flags_eq (i tiny : Bool) (P : Prop) [Decidable P] (h : tiny = decide P) : flagIf i fInexact ||| flagIf (tiny && i) fUnderflow =
    (if i then 16 else 0) ||| (if i ∧ P then 8 else 0) := by
  subst h
  by_cases hP : P <;> cases i <;> simp [flagIf, hP, fInexact, fUnderflow]

/-- The largest finite value is one that the format holds. -/
theorem Fmt.maxFin_held (heb : 2 ≤ f.eb) (hmb : 1 ≤ f.mb) : f.held f.maxFin.1 (f.maxFin.2 + f.mb) := by
  have h4 : (4 : Int) ≤ 2 ^ f.eb := by
    have : 4 ≤ 2 ^ f.eb := Nat.pow_le_pow_right (n := 2) (by omega) heb
    exact_mod_cast this
  have h2 : 2 ≤ 2 ^ f.mb := Nat.pow_le_pow_right (n := 2) (by omega) hmb
  have hlow : 2 ^ f.mb ≤ f.maxFin.1 := by
    unfold Fmt.maxFin
    split <;> dsimp only <;> rw [Nat.pow_succ] <;> omega
  refine ⟨?_, f.maxFin_lt, Or.inl hlow⟩
  unfold Fmt.maxFin Fmt.emin
  split <;> dsimp only <;> omega

theorem Fmt.decode_maxFin (heb : 2 ≤ f.eb) (hmb : 1 ≤ f.mb) (neg : Bool) :
    f.decode (f.encode neg f.maxFin.1 f.maxFin.2) = .fin neg f.maxFin.1 f.maxFin.2 := by
  have hheld := f.maxFin_held heb hmb
  have hu : f.maxFin.2 + f.mb - f.mb = f.maxFin.2 := by omega
  rw [Fmt.encode_eq neg (by rw [hu]) hheld, Fmt.decode_body heb neg hheld (by rw [hu]), hu]

theorem Fmt.decode_inf (heb : 2 ≤ f.eb) (hi : f.ending = .ieee) (neg : Bool) : f.decode (f.inf neg) = .inf neg := by
  have h4 : 4 ≤ 2 ^ f.eb := Nat.pow_le_pow_right (n := 2) (by omega) heb
  have hword := f.decode_word neg (E := 2 ^ f.eb - 1) (m := 0) (by omega) (Nat.two_pow_pos _)
  rw [Nat.add_zero] at hword
  refine hword.trans ?_
  unfold Fmt.fields
  dsimp only
  rw [hi]
  dsimp only
  rw [if_pos rfl, if_pos rfl]

theorem Fmt.decode_overflow (heb : 2 ≤ f.eb) (hmb : 1 ≤ f.mb) (neg : Bool) : f.decode (f.overflow neg rm sat) =
    if sat = false ∧ f.ending = .ieee ∧ (rm = .rne ∨ rm = .sr ∨ (rm = .ru ∧ neg = false) ∨ (rm = .rd ∧ neg = true))
    then .inf neg else .fin neg f.maxFin.1 f.maxFin.2 := by
  have hm := f.decode_maxFin heb hmb
  unfold Fmt.overflow
  dsimp only
  by_cases hcl : sat = false ∧ f.ending = .ieee
  · obtain ⟨hs, hi⟩ := hcl
    have hinf := f.decode_inf heb hi
    rw [hs, hi, if_neg (by decide)]
    cases rm <;> cases neg <;> simp [hm, hinf]
  · have hclamp : (sat || decide (f.ending ≠ .ieee)) = true := by
      rw [Bool.or_eq_true, decide_eq_true_iff]
      by_cases hs : sat = true
      · exact Or.inl hs
      · exact Or.inr (fun h => hcl ⟨Bool.eq_false_iff.2 hs, h⟩)
    rw [hclamp, if_pos rfl, hm, if_neg (fun h => hcl ⟨h.1, h.2.1⟩)]

end Round

/-! ## The formats of the binary types -/

/-- The types of the binary formats. -/
def binaryTys : List FTy := [.f16, .bf16, .f32, .f64, .e4m3, .e5m2, .e2m1]

theorem fmtOf_fields {ty : FTy} (h : ty ∈ binaryTys) :
    2 ≤ (fmtOf ty).eb ∧ 1 ≤ (fmtOf ty).mb ∧ ((fmtOf ty).ending = .ieee ↔ ty ≠ .e4m3 ∧ ty ≠ .e2m1) := by
  revert ty
  decide

/-! ## The code of a decoded value -/

theorem Fmt.word_of (f : Fmt) {c : Nat} (h : c < 2 ^ (f.eb + f.mb + 1)) :
    ∃ (neg : Bool) (E m : Nat), E < 2 ^ f.eb ∧ m < 2 ^ f.mb ∧ c = f.sign neg + (E * 2 ^ f.mb + m) := by
  have hp : 0 < 2 ^ f.mb := Nat.two_pow_pos _
  have htop : c / 2 ^ (f.eb + f.mb) < 2 := Nat.div_lt_of_lt_mul (by rwa [Nat.pow_succ] at h)
  have hlow : c % 2 ^ (f.eb + f.mb) < 2 ^ (f.eb + f.mb) := Nat.mod_lt _ (Nat.two_pow_pos _)
  refine ⟨decide (c / 2 ^ (f.eb + f.mb) = 1), c % 2 ^ (f.eb + f.mb) / 2 ^ f.mb, c % 2 ^ (f.eb + f.mb) % 2 ^ f.mb,
    Nat.div_lt_of_lt_mul (by rwa [Nat.mul_comm, ← Nat.pow_add]), Nat.mod_lt _ hp, ?_⟩
  have hsplit := Nat.div_add_mod c (2 ^ (f.eb + f.mb))
  have hsplit' := Nat.div_add_mod (c % 2 ^ (f.eb + f.mb)) (2 ^ f.mb)
  unfold Fmt.sign
  have hbit := Nat.le_one_iff_eq_zero_or_eq_one.1 (Nat.lt_succ_iff.1 htop)
  rcases hbit with h0 | h1
  · rw [h0] at hsplit ⊢
    rw [if_neg (by decide), Nat.mul_comm _ (2 ^ f.mb), hsplit']
    omega
  · rw [h1] at hsplit ⊢
    rw [if_pos (by decide), Nat.mul_comm _ (2 ^ f.mb), hsplit']
    omega

theorem Fmt.encode_decode (f : Fmt) {c : Nat} (h : c < 2 ^ (f.eb + f.mb + 1)) {neg : Bool} {m : Nat} {e : Int}
    (hd : f.decode c = .fin neg m e) : f.encode neg m e = c := by
  obtain ⟨n, E, k, hE, hk, rfl⟩ := f.word_of h
  rw [f.decode_word n hE hk] at hd
  have hfin : (if E = 0 then FVal.fin n k (f.emin - f.mb) else .fin n (k + 2 ^ f.mb) ((E : Int) - f.bias - f.mb)) = .fin neg m e := by
    unfold Fmt.fields at hd
    dsimp only at hd
    cases hend : f.ending with
    | ieee =>
      rw [hend] at hd
      dsimp only at hd
      split at hd
      · split at hd <;> cases hd
      · exact hd
    | e4m3 =>
      rw [hend] at hd
      dsimp only at hd
      split at hd
      · cases hd
      · exact hd
    | e2m1 =>
      rw [hend] at hd
      exact hd
  by_cases h0 : E = 0
  · rw [if_pos h0] at hfin
    obtain ⟨rfl, rfl, rfl⟩ := FVal.fin.inj hfin
    rw [Fmt.encode_eq n (e := f.emin) rfl ⟨le_rfl, hk.trans (Nat.pow_lt_pow_right (by omega) (by omega)), Or.inr rfl⟩, Fmt.body,
      if_pos hk, h0, Nat.zero_mul, Nat.zero_add]
  · rw [if_neg h0] at hfin
    obtain ⟨rfl, rfl, rfl⟩ := FVal.fin.inj hfin
    rw [Fmt.encode_eq n (e := (E : Int) - f.bias) rfl ⟨by unfold Fmt.emin; omega, by rw [Nat.pow_succ]; omega, Or.inl (by omega)⟩,
      Fmt.body, if_neg (by omega), Int.sub_add_cancel, Int.toNat_natCast, Nat.add_sub_cancel]

/-- Settles O12. -/
theorem roundsIntoFormats : Obligations.RoundsIntoFormats := by
  refine ⟨?_, ?_⟩
  · rintro ty f rm ftz sat draw a l q n nu i iu hty rfl h0 hl hq hu hr
    obtain ⟨heb, hmb, hends⟩ := fmtOf_fields hty
    have hround := Fmt.round_eq (sat := sat) h0 hl hq hu hr
    rw [magLt_emin] at hround
    refine ⟨?_, ?_⟩
    · rintro hf htiny
      rw [hround, if_pos (by rw [hf, decide_eq_true htiny]; rfl)]
      rfl
    · intro hnot
      obtain ⟨M, e, hv, hheld⟩ := Fmt.rounded_held h0 hl hq hu hr hnot
      have hgo : (ftz && decide ((nu : ℚ) * 2 ^ (l - (fmtOf ty).mb) < 2 ^ (fmtOf ty).emin)) = false := by
        rcases hnot with hf | hle
        · rw [hf]
          rfl
        · rw [decide_eq_false (not_lt.2 hle), Bool.and_false]
      rw [hgo, if_neg Bool.false_ne_true] at hround
      rw [rat_maxFin]
      refine ⟨fun hle => ?_, fun hlt => ?_⟩
      · have hfit : magLt (fmtOf ty).maxFin.1 (fmtOf ty).maxFin.2 n q = false := by
          rw [← Bool.not_eq_true, magLt_iff]
          exact not_lt.2 hle
        rw [hfit, if_neg Bool.false_ne_true] at hround
        rw [hround]
        dsimp only
        rw [Fmt.encode_eq a.neg hv hheld, Fmt.decode_body heb a.neg hheld (hv ▸ hle)]
        refine ⟨?_, rfl, flags_eq i _ _ rfl⟩
        rw [rat_fin, mul_assoc, ← hv, mul_assoc]
      · rw [if_pos ((magLt_iff ..).2 hlt)] at hround
        rw [hround]
        refine ⟨rfl, ?_⟩
        dsimp only
        rw [Fmt.decode_overflow heb hmb]
        refine if_congr ?_ rfl rfl
        rw [hends, and_assoc]
  · rintro ty f c m n e hty rfl hc hd
    exact (fmtOf ty).encode_decode hc hd

end Sys2Proof.Machine

end


section
/-! # O42: the stream instructions (R364 to R376) -/

namespace Sys2Proof.Machine

/-! ## A rounded value that the format holds -/

/-- A cut of a magnitude that is a multiple of the quantum drops nothing. -/
theorem Approx.at_multiple {a : Approx} {M : Nat} {q : Int} (hmore : a.more = false)
    (hv : (a.man : ℚ) * 2 ^ a.exp = M * 2 ^ q) (rm : Rm) (draw : Nat) : a.at_ q rm draw = (M, false) := by
  by_cases hq : q ≤ a.exp
  · rw [a.at_of_le rm draw hq hmore]
    rw [zpow_quantum hq, ← mul_assoc] at hv
    have : a.man * 2 ^ (a.exp - q).toNat = M := by exact_mod_cast mul_right_cancel₀ (zpow_pos two_pos _).ne' hv
    rw [this]
  · have hlt : a.exp < q := lt_of_not_ge hq
    rw [zpow_quantum hlt.le, ← mul_assoc] at hv
    have hman : a.man = M * 2 ^ (q - a.exp).toNat := by exact_mod_cast mul_right_cancel₀ (zpow_pos two_pos _).ne' hv
    unfold Approx.at_
    rw [a.cut_of_lt hlt, hman, Nat.mul_mod_left, Nat.mul_div_cancel _ (Nat.two_pow_pos _), hmore]
    rfl

/-- A value that the format holds is rounded to itself. -/
theorem Fmt.round_held {f : Fmt} (heb : 2 ≤ f.eb) {a : Approx} {M : Nat} {e : Int} (h0 : a.man ≠ 0) (hmore : a.more = false)
    (hv : (a.man : ℚ) * 2 ^ a.exp = M * 2 ^ (e - f.mb)) (hheld : f.held M e)
    (hmax : (M : ℚ) * 2 ^ (e - f.mb) ≤ f.maxFin.1 * 2 ^ f.maxFin.2) (rm : Rm) (sat : Bool) (draw : Nat) :
    (f.round rm false sat draw a).1 = f.sign a.neg + f.body M e ∧
      f.decode (f.round rm false sat draw a).1 = .fin a.neg M (e - f.mb) := by
  have hq : e - f.mb = (if false then (Nat.log2 a.man : Int) + a.exp else max ((Nat.log2 a.man : Int) + a.exp) f.emin) - f.mb := by
    obtain ⟨he, hlt, hn⟩ := hheld
    obtain ⟨hlo, hhi⟩ := log2_place h0 a.exp
    rw [hv] at hlo hhi
    have h1 := place_lt hlo (zpow_unit_lt M e f.mb 1 hlt)
    push_cast at h1
    rw [if_neg Bool.false_ne_true]
    rcases hn with hn | rfl
    · have h2 := place_lt (zpow_unit M e f.mb hn) hhi
      omega
    · omega
  have hround := Fmt.round_eq (sat := sat) h0 rfl hq rfl (Approx.at_multiple hmore hv rm draw)
  have hfit : magLt f.maxFin.1 f.maxFin.2 M (e - f.mb) = false := by
    rw [← Bool.not_eq_true, magLt_iff]
    exact not_lt.2 hmax
  rw [Bool.false_and, if_neg Bool.false_ne_true, hfit, if_neg Bool.false_ne_true] at hround
  rw [hround]
  dsimp only
  rw [Fmt.encode_eq a.neg rfl hheld]
  exact ⟨rfl, Fmt.decode_body heb a.neg hheld hmax⟩

/-! ## Bits of a lane (R364, R365) -/

theorem Group.slen_pow (g : Group) : g.slen = 2 ^ (6 + g.len.toNat) := by
  unfold Group.slen
  rw [Nat.pow_add]

theorem Group.slen_le (g : Group) : g.slen ≤ 512 := by
  have : g.len.toNat < 4 := g.len.isLt
  rw [g.slen_pow]
  exact Nat.pow_le_pow_right (n := 2) two_pos (show 6 + g.len.toNat ≤ 9 by omega)

theorem getLsbD_low {L j : Nat} (hj : j < 512) : (BitVec.ofNat 512 (2 ^ L - 1)).getLsbD j = decide (j < L) := by
  rw [BitVec.getLsbD_ofNat, Nat.testBit_two_pow_sub_one, decide_eq_true hj, Bool.true_and]

theorem Stream.getLsbD_lane (x : Stream) (L i : Nat) {j : Nat} (hj : j < 512) :
    (x.lane L i).getLsbD j = ((vget x.lanes i 0).getLsbD j && decide (j < L)) := by
  unfold Stream.lane
  rw [BitVec.getLsbD_and, getLsbD_low hj]

theorem popcount_eq {w : Nat} (b : BitVec w) : popcount b = (List.range w).countP (fun i => b.getLsbD i) := by
  have fold : ∀ (l : List Nat) (n : Nat), l.foldl (fun n i => if b.getLsbD i then n + 1 else n) n =
      n + l.countP (fun i => b.getLsbD i) := by
    intro l
    induction l with
    | nil => intro n; rfl
    | cons i l ih =>
      intro n
      rw [List.foldl_cons, ih, List.countP_cons]
      split <;> omega
  unfold popcount
  rw [fold, Nat.zero_add]

theorem popcount_lane (x : Stream) {L : Nat} (hL : L ≤ 512) (i : Nat) : popcount (x.lane L i) = Claims.ones L (vget x.lanes i 0) := by
  have hsplit : List.range 512 = List.range L ++ (List.range (512 - L)).map (L + ·) := by
    rw [← List.range_add, Nat.add_sub_cancel' hL]
  have hlow : (List.range L).countP (fun j => (x.lane L i).getLsbD j) = (List.range L).countP (fun j => (vget x.lanes i 0).getLsbD j) := by
    refine List.countP_congr fun j hj => ?_
    have hj' := List.mem_range.1 hj
    rw [x.getLsbD_lane L i (by omega), decide_eq_true hj', Bool.and_true]
  have hhigh : ((List.range (512 - L)).map (L + ·)).countP (fun j => (x.lane L i).getLsbD j) = 0 := by
    rw [List.countP_eq_zero]
    intro j hj
    obtain ⟨k, hk, rfl⟩ := List.mem_map.1 hj
    have hk' := List.mem_range.1 hk
    rw [x.getLsbD_lane L i (by omega), decide_eq_false (by omega), Bool.and_false]
    exact Bool.false_ne_true
  rw [popcount_eq, hsplit, List.countP_append, hlow, hhigh, Nat.add_zero]
  rfl

theorem ones_le (L : Nat) (x : BitVec 512) : Claims.ones L x ≤ L :=
  (List.countP_le_length ..).trans (List.length_range (n := L)).le

theorem getLsbD_drawLane (seed : Word64) (cls len lane th : Nat) {j : Nat} (hj : j < 512) :
    (drawLane seed cls len lane th).getLsbD j = (decide (j < len) && decide (lattice seed cls lane (BitVec.ofNat 64 j) < th)) := by
  have hfold : drawLane seed cls len lane th = (List.range len).foldl
      (fun b i => b ||| (if lattice seed cls lane (BitVec.ofNat 64 i) < th then 1#512 <<< i else 0#512)) 0#512 := by
    unfold drawLane
    refine List.foldl_ext _ _ _ fun b i _ => ?_
    split
    · rfl
    · rw [BitVec.or_zero]
  have hone : ∀ i, (1#512 <<< i).getLsbD j = true ↔ i = j := by
    intro i
    rw [BitVec.getLsbD_shiftLeft]
    simp [hj]
    omega
  rw [Bool.eq_iff_iff, hfold, getLsbD_foldl_or, Bool.and_eq_true, decide_eq_true_iff, decide_eq_true_iff, BitVec.getLsbD_zero,
    or_iff_right Bool.false_ne_true]
  constructor
  · rintro ⟨i, hi, hbit⟩
    split at hbit
    · next hth =>
      obtain rfl := (hone i).1 hbit
      exact ⟨List.mem_range.1 hi, hth⟩
    · rw [BitVec.getLsbD_zero] at hbit
      exact absurd hbit Bool.false_ne_true
  · rintro ⟨hlt, hth⟩
    exact ⟨j, List.mem_range.2 hlt, by rw [if_pos hth]; exact (hone j).2 rfl⟩

/-! ## The destination (R366, R367, R377) -/

theorem put_streamPut (old : Stream) {L : Nat} (con : Mask) (cls : BitVec 16) {f : Nat → BitVec 512} {bit : Nat → Nat → Bool}
    (hbit : ∀ lane j, j < 512 → j < L → (f lane).getLsbD j = bit lane j) :
    Claims.streamPut old (old.put L con cls f) L con cls bit := by
  refine ⟨fun lane hlane j hj => ?_, ?_, ?_⟩
  · refine (congrArg (fun v => BitVec.getLsbD v j) (vget_vecOf 64 _ lane 0 hlane)).trans ?_
    split
    · rw [BitVec.getLsbD_and, getLsbD_low hj]
      by_cases hjL : j < L
      · rw [hbit lane j hj hjL, decide_eq_true hjL, Bool.and_true, Bool.true_and]
      · rw [decide_eq_false hjL, Bool.and_false, Bool.false_and]
    · rfl
  · show (if _ then _ else _) = _
    simp
  · show (old.poison && !decide (con = BitVec.allOnes 64)) = _
    rw [← decide_not]

/-! ## Bodies over streams (R186, R376) -/

section Body
variable {s : State} {g : Group} {t : Team}

theorem streamBody_full (os : List Opd) (held : List (Opd × Nat)) (act : Team → List Stream → Except Trap Done)
    (h : 8 ≤ (s.core (g.core.getD 0)).chordOps.length) :
    streamBody os held act s g = .ok { s := s, g := g, wait := some .chord, hold := true } :=
  if_pos h

theorem mapM_stream {os : List Opd} {xs : List Stream} (h : os.map (fun o => t.streams[g.streamNum o]?) = xs.map some) :
    os.mapM (t.stream g) = .ok xs := by
  induction os generalizing xs with
  | nil =>
    cases xs with
    | nil => rfl
    | cons x xs => cases h
  | cons o os ih =>
    cases xs with
    | nil => cases h
    | cons x xs =>
      obtain ⟨ho, hos⟩ := List.cons.inj h
      have hx : t.stream g o = .ok x := by
        unfold Team.stream
        rw [show t.streams[g.streamNum o]? = some x from ho]
      rw [List.mapM_cons, hx, ih hos]
      rfl

theorem streamBody_acts {os : List Opd} {held : List (Opd × Nat)} (act : Team → List Stream → Except Trap Done) {xs : List Stream}
    (hfree : Claims.chordFree s g t) (hx : os.map (fun o => t.streams[g.streamNum o]?) = xs.map some)
    (hheld : g.checkHeld held = .ok ()) : streamBody os held act s g = act t xs := by
  obtain ⟨ht, hroom⟩ := hfree
  unfold streamBody
  rw [if_neg (Nat.not_le.2 hroom), ht]
  dsimp only
  rw [mapM_stream hx, hheld]
  rfl

theorem readable_clean {xs : List Stream} (h : ∀ x ∈ xs, x.poison = false) : readable xs = .ok () := by
  unfold readable
  rw [if_neg]
  rw [List.any_eq_true]
  rintro ⟨x, hx, hp⟩
  rw [h x hx] at hp
  exact Bool.false_ne_true hp

end Body

/-! ## Combining and drawing anew (R366, R371, R372) -/

/-- What a form of stream instruction does. -/
def FormActs (s : State) (g : Group) (t : Team) (old : Stream) (xs : List Stream) (f : Claims.StreamForm) (i : Instr) : Prop :=
  (f.ok (xs.map (fun x => x.cls)) → ∃ new, Claims.streamPut old new g.slen (g.contributors f.h)
      (f.cls (xs.map (fun x => x.cls))) (fun lane j => f.bit g.slen lane (xs.map (fun x => vget x.lanes lane 0)) j) ∧
    exec i s = .next (((s.setStream t.id (g.streamNum f.d) new).queueChord g false).finish g f.h [] [] none none)) ∧
  (¬ f.ok (xs.map (fun x => x.cls)) → exec i s = .next (s.take { g with wait := none } (trapOf .corrmix)))

section Forms
variable {s : State} {g : Group} {t : Team} {old : Stream} {i : Instr} {h : Hdr} {body : Body}

theorem exec_puts {d : Opd} {cls : BitVec 16} {f : Nat → BitVec 512} (hx : exec i s = issue s i h false (afterAcquires body))
    (hw : i.wellFormed = true) (hg : s.group? s.cur = some g) (hacq : s.heldAcq g = false)
    (hb : body s g = .ok { s := s.putStream g h t d old cls f, g := g }) :
    exec i s = .next (((s.setStream t.id (g.streamNum d) (old.put g.slen (g.contributors h) cls f)).queueChord g false).finish
      g h [] [] none none) :=
  exec_completes (body := afterAcquires body) (u := false) hx hw hg (fun h => Bool.noConfusion h) ((holding_free hacq).trans hb)

theorem exec_mixes (hx : exec i s = issue s i h false (afterAcquires body))
    (hw : i.wellFormed = true) (hg : s.group? s.cur = some g) (hacq : s.heldAcq g = false)
    (hb : body s g = .error (trapOf .corrmix)) : exec i s = .next (s.take { g with wait := none } (trapOf .corrmix)) :=
  exec_traps (body := afterAcquires body) (u := false) hx hw hg (fun h => Bool.noConfusion h) ((holding_free hacq).trans hb) rfl

variable {x y z : Stream} {d a b c : Opd}

theorem streams_one {o : Opd} {xs : List Stream} (h : [o].map (fun o => t.streams[g.streamNum o]?) = xs.map some) :
    ∃ x, xs = [x] := by
  cases xs with
  | nil => cases h
  | cons x xs =>
    obtain ⟨-, h⟩ := List.cons.inj h
    exact ⟨x, by rw [List.map_eq_nil_iff.1 h.symm]⟩

theorem streams_cons {o : Opd} {os : List Opd} {xs : List Stream}
    (h : (o :: os).map (fun o => t.streams[g.streamNum o]?) = xs.map some) :
    ∃ x ys, xs = x :: ys ∧ os.map (fun o => t.streams[g.streamNum o]?) = ys.map some := by
  cases xs with
  | nil => cases h
  | cons x xs => exact ⟨x, xs, rfl, (List.cons.inj h).2⟩

section Two
variable (ok : BitVec 16 → BitVec 16 → Bool) (cls : BitVec 16 → BitVec 16 → BitVec 16)
  (f : BitVec 512 → BitVec 512 → BitVec 512) (hfree : Claims.chordFree s g t)
  (hx : [d, a, b].map (fun o => t.streams[g.streamNum o]?) = [old, x, y].map some)
include hfree hx

theorem combine2_puts (hok : ok x.cls y.cls = true) (hp : ∀ v ∈ [x, y], v.poison = false) :
    combine2 h d a b ok cls f s g = .ok { s := s.putStream g h t d old (cls x.cls y.cls)
                                            (fun i => f (x.lane g.slen i) (y.lane g.slen i)),
                                          g := g } := by
  unfold combine2
  rw [streamBody_acts _ hfree hx (checkHeld_nil g)]
  simp only [List.getD_cons_zero, List.getD_cons_succ]
  rw [hok, if_neg (by decide), readable_clean hp]
  rfl

theorem combine2_mixes (hok : ok x.cls y.cls = false) : combine2 h d a b ok cls f s g = .error (trapOf .corrmix) := by
  unfold combine2
  rw [streamBody_acts _ hfree hx (checkHeld_nil g)]
  simp only [List.getD_cons_zero, List.getD_cons_succ]
  rw [hok, if_pos (by decide)]

end Two

theorem snot_puts (hfree : Claims.chordFree s g t)
    (hx : [d, a].map (fun o => t.streams[g.streamNum o]?) = [old, x].map some) (hp : ∀ v ∈ [x], v.poison = false) :
    snotBody h d a s g = .ok { s := s.putStream g h t d old x.cls (fun i => ~~~(x.lane g.slen i)), g := g } := by
  unfold snotBody
  rw [streamBody_acts _ hfree hx (checkHeld_nil g)]
  simp only [List.getD_cons_zero, List.getD_cons_succ]
  rw [readable_clean hp]
  rfl

theorem sregen_puts {n : BitVec 4} (hfree : Claims.chordFree s g t)
    (hx : [d, a].map (fun o => t.streams[g.streamNum o]?) = [old, x].map some) (hp : ∀ v ∈ [x], v.poison = false) :
    sregenBody h n d a b s g = .ok { s := s.putStream g h t d old (oneClass n) (fun i => drawLane (g.uni64 b) n.toNat g.slen i
                                       (popcount (x.lane g.slen i) * (65536 / g.slen))),
                                     g := g } := by
  unfold sregenBody
  rw [streamBody_acts _ hfree hx (checkHeld_nil g)]
  simp only [List.getD_cons_zero, List.getD_cons_succ]
  rw [readable_clean hp]
  rfl

section Select
variable (hfree : Claims.chordFree s g t)
  (hx : [d, a, b, c].map (fun o => t.streams[g.streamNum o]?) = [old, x, y, z].map some)
include hfree hx

theorem ssel_puts (hok : z.cls &&& x.cls = 0 ∧ z.cls &&& y.cls = 0) (hp : ∀ v ∈ [x, y, z], v.poison = false) :
    sselBody h d a b c s g = .ok { s := s.putStream g h t d old (x.cls ||| y.cls ||| z.cls) (fun i =>
                                     (z.lane g.slen i &&& y.lane g.slen i) ||| (~~~(z.lane g.slen i) &&& x.lane g.slen i)),
                                   g := g } := by
  unfold sselBody
  rw [streamBody_acts _ hfree hx (checkHeld_nil g)]
  simp only [List.getD_cons_zero, List.getD_cons_succ]
  rw [hok.1, hok.2, if_neg (by decide), readable_clean hp]
  rfl

theorem ssel_mixes (hok : ¬ (z.cls &&& x.cls = 0 ∧ z.cls &&& y.cls = 0)) : sselBody h d a b c s g = .error (trapOf .corrmix) := by
  have hbad : (z.cls &&& x.cls != 0 || z.cls &&& y.cls != 0) = true := by
    rw [Bool.or_eq_true, bne_iff_ne, bne_iff_ne]
    by_contra hno
    exact hok ⟨not_not.1 (fun h => hno (Or.inl h)), not_not.1 (fun h => hno (Or.inr h))⟩
  unfold sselBody
  rw [streamBody_acts _ hfree hx (checkHeld_nil g)]
  simp only [List.getD_cons_zero, List.getD_cons_succ]
  rw [hbad, if_pos rfl]

end Select

theorem oneClass_eq (n : BitVec 4) : oneClass n = BitVec.ofNat 16 (2 ^ n.toNat) := by
  revert n
  decide

/-- The stream forms over streams alone, each by its body. -/
theorem form_acts {f : Claims.StreamForm} {xs : List Stream} (hf : Claims.streamForm g i = some f) (hw : i.wellFormed = true)
    (hg : s.group? s.cur = some g) (hs : Claims.streams s g t f.srcs xs) (hold : t.streams[g.streamNum f.d]? = some old) :
    FormActs s g t old xs f i := by
  obtain ⟨hfree, hacq, hsrc, hp⟩ := hs
  have hL := g.slen_le
  have hall : (f.d :: f.srcs).map (fun o => t.streams[g.streamNum o]?) = (old :: xs).map some := by
    rw [List.map_cons, List.map_cons, hold, hsrc]
  cases i with
  | smul h d a b =>
    obtain rfl := Option.some.inj hf
    obtain ⟨x, ys, rfl, hys⟩ := streams_cons hsrc
    obtain ⟨y, rfl⟩ := streams_one hys
    refine ⟨fun hok => ⟨_, put_streamPut old _ _ ?_, exec_puts rfl hw hg hacq (combine2_puts _ _ _ hfree hall ?_ hp)⟩,
      fun hno => exec_mixes rfl hw hg hacq (combine2_mixes _ _ _ hfree hall ?_)⟩
    · intro lane j hj hjL
      rw [BitVec.getLsbD_and, x.getLsbD_lane _ _ hj, y.getLsbD_lane _ _ hj, decide_eq_true hjL, Bool.and_true, Bool.and_true]
      rfl
    · exact beq_iff_eq.2 hok
    · exact beq_eq_false_iff_ne.2 hno
  | smin h d a b =>
    obtain rfl := Option.some.inj hf
    obtain ⟨x, ys, rfl, hys⟩ := streams_cons hsrc
    obtain ⟨y, rfl⟩ := streams_one hys
    refine ⟨fun hok => ⟨_, put_streamPut old _ _ ?_, exec_puts rfl hw hg hacq (combine2_puts _ _ _ hfree hall ?_ hp)⟩,
      fun hno => exec_mixes rfl hw hg hacq (combine2_mixes _ _ _ hfree hall ?_)⟩
    · intro lane j hj hjL
      rw [BitVec.getLsbD_and, x.getLsbD_lane _ _ hj, y.getLsbD_lane _ _ hj, decide_eq_true hjL, Bool.and_true, Bool.and_true]
      rfl
    · exact beq_iff_eq.2 hok
    · exact beq_eq_false_iff_ne.2 hno
  | smax h d a b =>
    obtain rfl := Option.some.inj hf
    obtain ⟨x, ys, rfl, hys⟩ := streams_cons hsrc
    obtain ⟨y, rfl⟩ := streams_one hys
    refine ⟨fun hok => ⟨_, put_streamPut old _ _ ?_, exec_puts rfl hw hg hacq (combine2_puts _ _ _ hfree hall ?_ hp)⟩,
      fun hno => exec_mixes rfl hw hg hacq (combine2_mixes _ _ _ hfree hall ?_)⟩
    · intro lane j hj hjL
      rw [BitVec.getLsbD_or, x.getLsbD_lane _ _ hj, y.getLsbD_lane _ _ hj, decide_eq_true hjL, Bool.and_true, Bool.and_true]
      rfl
    · exact beq_iff_eq.2 hok
    · exact beq_eq_false_iff_ne.2 hno
  | snot h d a =>
    obtain rfl := Option.some.inj hf
    obtain ⟨x, rfl⟩ := streams_one hsrc
    refine ⟨fun _ => ⟨_, put_streamPut old _ _ ?_, exec_puts rfl hw hg hacq (snot_puts hfree hall hp)⟩,
      fun hno => absurd trivial hno⟩
    intro lane j hj hjL
    rw [BitVec.getLsbD_not, x.getLsbD_lane _ _ hj, decide_eq_true hjL, decide_eq_true hj, Bool.and_true, Bool.true_and]
    rfl
  | ssel h d a b c =>
    obtain rfl := Option.some.inj hf
    obtain ⟨x, ys, rfl, hys⟩ := streams_cons hsrc
    obtain ⟨y, zs, rfl, hzs⟩ := streams_cons hys
    obtain ⟨z, rfl⟩ := streams_one hzs
    refine ⟨fun hok => ⟨_, put_streamPut old _ _ ?_, exec_puts rfl hw hg hacq (ssel_puts hfree hall hok hp)⟩,
      fun hno => exec_mixes rfl hw hg hacq (ssel_mixes hfree hall hno)⟩
    intro lane j hj hjL
    rw [BitVec.getLsbD_or, BitVec.getLsbD_and, BitVec.getLsbD_and, BitVec.getLsbD_not, x.getLsbD_lane _ _ hj,
      y.getLsbD_lane _ _ hj, z.getLsbD_lane _ _ hj, decide_eq_true hjL, decide_eq_true hj]
    show _ = if (vget z.lanes lane 0).getLsbD j = true then (vget y.lanes lane 0).getLsbD j else (vget x.lanes lane 0).getLsbD j
    cases (vget z.lanes lane 0).getLsbD j <;> simp
  | sregen h n d a b =>
    obtain rfl := Option.some.inj hf
    obtain ⟨x, rfl⟩ := streams_one hsrc
    refine ⟨fun _ => ⟨_, put_streamPut old _ _ (f := fun lane => drawLane (g.uni64 b) n.toNat g.slen lane
      (popcount (x.lane g.slen lane) * (65536 / g.slen))) ?_, ?_⟩, fun hno => absurd trivial hno⟩
    · intro lane j hj hjL
      rw [getLsbD_drawLane _ _ _ _ _ hj, decide_eq_true hjL, Bool.true_and, popcount_lane x hL]
      rfl
    · rw [← oneClass_eq]
      exact exec_puts rfl hw hg hacq (sregen_puts hfree hall hp)
  | _ => cases hf

end Forms

/-! ## The threshold of `SGEN` (R370) -/

theorem threshold_eq {v : FVal} {th : Nat} (h : Claims.isThreshold v th) : (threshold v).1 = th := by
  cases v with
  | nan q => exact h.symm
  | inf n => exact h.symm
  | fin n m e =>
    obtain ⟨hle, hup, hlow⟩ := h
    unfold threshold
    dsimp only
    by_cases hz : (n || decide (m = 0)) = true
    · rw [if_pos hz]
      have hneg : Claims.rat (.fin n m e) ≤ 0 := by
        have hm : (0 : ℚ) ≤ m * 2 ^ e := mul_nonneg (Nat.cast_nonneg _) (zpow_pos two_pos _).le
        rw [rat_fin, mul_assoc]
        rcases Bool.or_eq_true_iff.1 hz with hn | h0
        · rw [hn, if_pos rfl]
          linarith
        · rw [of_decide_eq_true h0, Nat.cast_zero, zero_mul, mul_zero]
      rcases hlow with h0 | h0
      · exact h0.symm
      · have : (th : ℚ) < 1 := by linarith
        have : th < 1 := by exact_mod_cast this
        exact (Nat.lt_one_iff.1 this).symm
    · rw [if_neg hz]
      rw [Bool.or_eq_true, not_or, Bool.not_eq_true, decide_eq_true_iff] at hz
      obtain ⟨hn, hm0⟩ := hz
      rw [rat_fin, hn, if_neg Bool.false_ne_true, one_mul] at hup hlow
      by_cases hlt : magLt m e 1 0 = true
      · rw [hlt, if_neg (by decide)]
        rw [magLt_iff, Nat.cast_one, zpow_zero, one_mul] at hlt
        have hmpos : (1 : ℚ) ≤ m := by exact_mod_cast Nat.one_le_iff_ne_zero.2 hm0
        have he : e < 0 := by
          by_contra hge
          have := one_le_zpow₀ (one_le_two (α := ℚ)) (not_lt.1 hge)
          nlinarith
        obtain ⟨k, hk⟩ : ∃ k : Nat, k = (-e).toNat := ⟨_, rfl⟩
        have hpow : (2 : ℚ) ^ e * (2 ^ k : Nat) = 1 := by
          rw [show e = -(k : Int) from by omega, zpow_neg, zpow_natCast, Nat.cast_pow, Nat.cast_ofNat,
            inv_mul_cancel₀ (pow_pos two_pos _).ne']
        have hkpos : (0 : ℚ) < (2 ^ k : Nat) := by exact_mod_cast Nat.two_pow_pos k
        have hup' : 65536 * ((m : ℚ) * 2 ^ e) ≤ th := by
          rcases hup with h | h
          · rw [h]
            push_cast
            linarith
          · exact h
        have hth0 : th ≠ 0 := by
          rintro rfl
          have := mul_pos (by linarith : (0 : ℚ) < m) (zpow_pos (two_pos (α := ℚ)) e)
          push_cast at hup'
          linarith
        have hlow' := hlow.resolve_left hth0
        have h1 : m * 65536 ≤ th * 2 ^ k := by
          have : ((m * 65536 : Nat) : ℚ) ≤ (th * 2 ^ k : Nat) := by
            rw [Nat.cast_mul, Nat.cast_mul]
            calc (m : ℚ) * (65536 : Nat) = 65536 * (m * 2 ^ e) * (2 ^ k : Nat) := by
                  rw [mul_assoc, mul_assoc, hpow, mul_one, mul_comm]; rfl
              _ ≤ th * (2 ^ k : Nat) := mul_le_mul_of_nonneg_right hup' hkpos.le
          exact_mod_cast this
        have h2 : th * 2 ^ k < m * 65536 + 2 ^ k := by
          have : ((th * 2 ^ k : Nat) : ℚ) < (m * 65536 + 2 ^ k : Nat) := by
            rw [Nat.cast_mul, Nat.cast_add, Nat.cast_mul]
            calc (th : ℚ) * (2 ^ k : Nat) = (th - 1) * (2 ^ k : Nat) + (2 ^ k : Nat) := by ring
              _ < 65536 * (m * 2 ^ e) * (2 ^ k : Nat) + (2 ^ k : Nat) := by
                  have := mul_lt_mul_of_pos_right hlow' hkpos
                  linarith
              _ = m * (65536 : Nat) + (2 ^ k : Nat) := by rw [mul_assoc, mul_assoc, hpow, mul_one, mul_comm]; rfl
          exact_mod_cast this
        rw [← hk]
        refine Nat.div_eq_of_lt_le ?_ ?_
        · omega
        · rw [Nat.add_mul, Nat.one_mul]
          have := Nat.two_pow_pos k
          omega
      · rw [Bool.not_eq_true] at hlt
        rw [hlt, if_pos (by decide)]
        have hge : (1 : ℚ) ≤ m * 2 ^ e := by
          have hno : ¬ magLt m e 1 0 = true := by rw [hlt]; exact Bool.false_ne_true
          rw [magLt_iff, Nat.cast_one, zpow_zero, one_mul] at hno
          exact not_lt.1 hno
        rcases hup with h | h
        · exact h.symm
        · have : (65536 : ℚ) ≤ th := by linarith
          have : 65536 ≤ th := by exact_mod_cast this
          exact le_antisymm this hle

theorem threshold_flags (v : FVal) (k : Nat) :
    (threshold v).2.getLsbD k = true ↔ fInvalid.getLsbD k = true ∧ ∃ q, v = .nan q := by
  cases v with
  | nan q => exact ⟨fun h => ⟨h, q, rfl⟩, fun h => h.1⟩
  | inf n =>
    refine ⟨fun h => absurd h ?_, fun ⟨_, q, hq⟩ => by cases hq⟩
    rw [show (threshold (.inf n)).2 = 0 from rfl, show (0 : FFlags).getLsbD k = false from BitVec.getLsbD_zero]
    exact Bool.false_ne_true
  | fin n m e =>
    have h0 : (threshold (.fin n m e)).2 = 0 := by
      unfold threshold
      dsimp only
      split
      · rfl
      · split <;> rfl
    refine ⟨fun h => absurd h ?_, fun ⟨_, q, hq⟩ => by cases hq⟩
    rw [h0, show (0 : FFlags).getLsbD k = false from BitVec.getLsbD_zero]
    exact Bool.false_ne_true

/-! ## The share of the ones (R373) -/

theorem countCode_share {n k : Nat} (hk : k ≤ 9) (hn : n ≤ 2 ^ k) : (countCode true (2 ^ k) n).toNat < 2 ^ 32 ∧
    Claims.rat (valOf .f32 (countCode true (2 ^ k) n).toNat) = (n : ℚ) / (2 ^ k : Nat) := by
  obtain ⟨code, hcode⟩ : ∃ c, c = (fmtF32.round .rne false false 0 (quotient false n 0 (2 ^ k) 0)).1 := ⟨_, rfl⟩
  have key : code < 2 ^ 32 ∧ Claims.rat (fmtF32.decode code) = (n : ℚ) / (2 ^ k : Nat) := by
    by_cases h0 : n = 0
    · have hz : code = 0 := by
        have hman : (quotient false n 0 (2 ^ k) 0).man = 0 ∧ (quotient false n 0 (2 ^ k) 0).more = false := by
          unfold quotient
          rw [h0]
          simp
        rw [hcode, Fmt.round, hman.1, hman.2]
        rfl
      rw [hz, h0, Nat.cast_zero, zero_div]
      exact ⟨by decide, by rw [show fmtF32.decode 0 = .fin false 0 (-149) from rfl, rat_fin, Nat.cast_zero, mul_zero, zero_mul]⟩
    · have hpow : 2 ^ guardBits = 2 ^ (guardBits - k) * 2 ^ k := by
        rw [← Nat.pow_add]
        congr 1
        unfold guardBits
        omega
      have hq : quotient false n 0 (2 ^ k) 0 = ⟨false, n * 2 ^ (guardBits - k), -(guardBits : Int), false⟩ := by
        unfold quotient
        dsimp only
        rw [hpow, ← Nat.mul_assoc, Nat.mul_div_cancel _ (Nat.two_pow_pos k), Nat.mul_mod_left]
        rfl
      have hlog := Nat.log2_self_le h0
      have hlog' : n < 2 ^ (Nat.log2 n + 1) := Nat.lt_log2_self
      have hjk : Nat.log2 n ≤ k := by
        by_contra hgt
        have : 2 ^ (k + 1) ≤ 2 ^ Nat.log2 n := Nat.pow_le_pow_right two_pos (by omega)
        rw [Nat.pow_succ] at this
        have := Nat.two_pow_pos k
        omega
      generalize Nat.log2 n = j at *
      have hheld : fmtF32.held (n * 2 ^ (23 - j)) ((j : Int) - k) := by
        refine ⟨by show (1 : Int) - 127 ≤ _; omega, ?_, Or.inl ?_⟩
        · calc n * 2 ^ (23 - j) < 2 ^ (j + 1) * 2 ^ (23 - j) := Nat.mul_lt_mul_of_pos_right hlog' (Nat.two_pow_pos _)
            _ = 2 ^ 24 := by rw [← Nat.pow_add]; congr 1; omega
        · calc 2 ^ 23 = 2 ^ j * 2 ^ (23 - j) := by rw [← Nat.pow_add]; congr 1; omega
            _ ≤ n * 2 ^ (23 - j) := Nat.mul_le_mul_right _ hlog
      have hval : ((n * 2 ^ (23 - j) : Nat) : ℚ) * 2 ^ ((j : Int) - k - 23) = n / (2 ^ k : Nat) := by
        rw [Nat.cast_mul, mul_assoc, Nat.cast_pow, Nat.cast_ofNat, ← zpow_natCast, ← zpow_add₀ two_ne_zero,
          show ((23 - j : Nat) : Int) + ((j : Int) - k - 23) = -(k : Int) from by omega, zpow_neg, zpow_natCast, div_eq_mul_inv,
          Nat.cast_pow, Nat.cast_ofNat]
      have hv : ((n * 2 ^ (guardBits - k) : Nat) : ℚ) * 2 ^ (-(guardBits : Int)) = n / (2 ^ k : Nat) := by
        rw [Nat.cast_mul, mul_assoc, Nat.cast_pow, Nat.cast_ofNat, ← zpow_natCast, ← zpow_add₀ two_ne_zero,
          show ((guardBits - k : Nat) : Int) + -(guardBits : Int) = -(k : Int) from by unfold guardBits; omega, zpow_neg, zpow_natCast,
          div_eq_mul_inv, Nat.cast_pow, Nat.cast_ofNat]
      have hone : (n : ℚ) / (2 ^ k : Nat) ≤ 1 := by
        rw [div_le_one (by exact_mod_cast Nat.two_pow_pos k)]
        exact_mod_cast hn
      have hmax : ((n * 2 ^ (23 - j) : Nat) : ℚ) * 2 ^ ((j : Int) - k - fmtF32.mb) ≤ fmtF32.maxFin.1 * 2 ^ fmtF32.maxFin.2 := by
        refine (hval.trans_le hone).trans ?_
        norm_num [Fmt.maxFin, fmtF32]
      obtain ⟨h1, h2⟩ := Fmt.round_held (f := fmtF32) (by decide) (a := ⟨false, n * 2 ^ (guardBits - k), -(guardBits : Int), false⟩)
        (by simp [h0]) rfl (hv.trans hval.symm) hheld hmax .rne false 0
      rw [hq] at hcode
      rw [← hcode] at h1 h2
      refine ⟨?_, ?_⟩
      · rw [h1]
        obtain ⟨-, hlt, -⟩ := hheld
        have he : (((j : Int) - k) + fmtF32.bias).toNat ≤ 127 := by show (((j : Int) - k) + (127 : Nat)).toNat ≤ 127; omega
        have hlt' : n * 2 ^ (23 - j) < 2 ^ 24 := hlt
        have hbody : fmtF32.body (n * 2 ^ (23 - j)) ((j : Int) - k) < 2 ^ 31 := by
          unfold Fmt.body
          show (if n * 2 ^ (23 - j) < 2 ^ 23 then n * 2 ^ (23 - j) else
            (((j : Int) - k) + fmtF32.bias).toNat * 2 ^ 23 + (n * 2 ^ (23 - j) - 2 ^ 23)) < 2 ^ 31
          split <;> omega
        have hs : fmtF32.sign false = 0 := rfl
        rw [hs]
        omega
      · rw [h2, rat_fin, if_neg Bool.false_ne_true, one_mul]
        exact hval
  have hcc : (countCode true (2 ^ k) n).toNat = code := by
    unfold countCode
    rw [if_pos rfl, ← hcode, BitVec.toNat_ofNat, Nat.mod_eq_of_lt (by omega)]
  rw [hcc]
  exact key

/-! ## Reading, and the units' events (R359, R373, R375) -/

section Settle
variable {s : State} {g : Group} {t : Team}

theorem chord_holds {i : Instr} {h : Hdr} {body : Body} (hx : exec i s = issue s i h false body) (hw : i.wellFormed = true)
    (hg : s.group? s.cur = some g) (hb : body s g = .ok { s := s, g := g, wait := some .chord, hold := true }) :
    ∃ t : State, exec i s = .next t ∧ t.group? g.id = some { g with wait := some .chord } ∧ t.teams = s.teams := by
  have hself : s.group? g.id = some g := by rw [State.group?_id hg]; exact hg
  refine ⟨_, exec_holds hx hw hg hb, State.group?_setGroup_self (g0 := g) ?_, ?_⟩
  · split
    · exact hself
    · exact hself
  · split <;> rfl

/-- A stream instruction waits while Chord's order is full (R376). -/
theorem streams_wait {i : Instr} (hw : i.wellFormed = true) (hg : s.group? s.cur = some g) (hacq : s.heldAcq g = false)
    (hfull : 8 ≤ (s.core (g.core.getD 0)).chordOps.length)
    (hi : (∃ h l, i = .slen h l) ∨ (∃ f, Claims.streamForm g i = some f) ∨ (∃ h n d a b, i = .sgen h n d a b) ∨
      (∃ h fl d a, i = .scnt h fl d a) ∨ (∃ h d a b, i = .sbit h d a b ∧ g.prog = 0) ∨ ∃ h d a, i = .scls h d a) :
    ∃ t : State, exec i s = .next t ∧ t.group? g.id = some { g with wait := some .chord } ∧ t.teams = s.teams := by
  have hafter {body : Body} (hb : body s g = .ok { s := s, g := g, wait := some .chord, hold := true }) :
      afterAcquires body s g = .ok { s := s, g := g, wait := some .chord, hold := true } := (holding_free hacq).trans hb
  rcases hi with ⟨h, l, rfl⟩ | ⟨f, hf⟩ | ⟨h, n, d, a, b, rfl⟩ | ⟨h, fl, d, a, rfl⟩ | ⟨h, d, a, b, rfl, hprog⟩ | ⟨h, d, a, rfl⟩
  · exact chord_holds (body := slenBody l) rfl hw hg (streamBody_full _ _ _ hfull)
  · cases i with
    | smul h d a b => exact chord_holds rfl hw hg (hafter (streamBody_full _ _ _ hfull))
    | smin h d a b => exact chord_holds rfl hw hg (hafter (streamBody_full _ _ _ hfull))
    | smax h d a b => exact chord_holds rfl hw hg (hafter (streamBody_full _ _ _ hfull))
    | snot h d a => exact chord_holds rfl hw hg (hafter (streamBody_full _ _ _ hfull))
    | ssel h d a b c => exact chord_holds rfl hw hg (hafter (streamBody_full _ _ _ hfull))
    | sregen h n d a b => exact chord_holds rfl hw hg (hafter (streamBody_full _ _ _ hfull))
    | _ => cases hf
  · exact chord_holds rfl hw hg (hafter (streamBody_full _ _ _ hfull))
  · exact chord_holds rfl hw hg (hafter (streamBody_full _ _ _ hfull))
  · refine chord_holds (body := afterAcquires (sbitBody h d a b)) rfl hw hg (hafter ?_)
    unfold sbitBody
    rw [if_pos hprog]
    exact streamBody_full _ _ _ hfull
  · exact chord_holds rfl hw hg (hafter (streamBody_full _ _ _ hfull))

theorem slen_acts {h : Hdr} {l : BitVec 2} (hw : (Instr.slen h l).wellFormed = true) (hg : s.group? s.cur = some g)
    (hfree : Claims.chordFree s g t) :
    exec (.slen h l) s = .next ((s.queueChord g false).finish { g with len := l } h [] [] none none) :=
  exec_completes (body := slenBody l) (u := false) rfl hw hg (fun h => Bool.noConfusion h)
    (streamBody_acts (xs := []) _ hfree rfl (checkHeld_nil g))

theorem sgen_acts {h : Hdr} {n : BitVec 4} {d a b : Opd} {old : Stream} {th : Nat → Nat}
    (hw : (Instr.sgen h n d a b).wellFormed = true) (hg : s.group? s.cur = some g) (hs : Claims.streams s g t [] [])
    (hheld : g.checkHeld [(a, 32)] = .ok ()) (hold : t.streams[g.streamNum d]? = some old)
    (hth : ∀ lane, Claims.isThreshold (valOf .f32 (g.srcLane a 32 lane).toNat) (th lane)) :
    exec (.sgen h n d a b) s = .next (((s.setStream t.id (g.streamNum d) (old.put g.slen (g.contributors h) (oneClass n)
      (fun i => drawLane (g.uni64 b) n.toNat g.slen i (th i)))).queueChord g false).finish
      (g.raiseFlags (flagsOver (g.contributors h) 0 (fun i => (threshold (valOf .f32 (g.srcLane a 32 i).toNat)).2)))
      h [] [] none none) := by
  obtain ⟨hfree, hacq, -, -⟩ := hs
  have hdraw : (fun i => drawLane (g.uni64 b) n.toNat g.slen i (th i)) =
      fun i => drawLane (g.uni64 b) n.toNat g.slen i (threshold (valOf .f32 (g.srcLane a 32 i).toNat)).1 :=
    funext fun i => by rw [threshold_eq (hth i)]
  rw [hdraw]
  exact exec_completes (body := afterAcquires (sgenBody h n d a b)) (u := false) rfl hw hg (fun h => Bool.noConfusion h)
    ((holding_free hacq).trans (streamBody_acts (xs := [old]) _ hfree (by rw [List.map_singleton, hold]; rfl) hheld))

theorem scnt_acts {h : Hdr} {fl : Bool} {d a : Opd} {x : Stream} (hw : (Instr.scnt h fl d a).wellFormed = true)
    (hg : s.group? s.cur = some g) (hs : Claims.streams s g t [a] [x]) (hheld : g.checkHeld [(d, 32)] = .ok ()) :
    exec (.scnt h fl d a) s = .next ((s.queueChord g true).finish g h []
      [{ unit := .chord, writes := g.writesTo d false 32 (g.active h)
           (fun i => countCode fl g.slen (popcount (x.lane g.slen i))) }] none none) := by
  obtain ⟨hfree, hacq, hsrc, hp⟩ := hs
  refine exec_completes (body := afterAcquires (scntBody h fl d a)) (u := false) rfl hw hg (fun h => Bool.noConfusion h)
    ((holding_free hacq).trans ?_)
  unfold scntBody
  rw [streamBody_acts _ hfree hsrc hheld]
  simp only [List.getD_cons_zero]
  rw [readable_clean hp]
  rfl

theorem scls_acts {h : Hdr} {d a : Opd} {x : Stream} (hw : (Instr.scls h d a).wellFormed = true)
    (hg : s.group? s.cur = some g) (hs : Claims.streams s g t [a] [x]) :
    exec (.scls h d a) s
      = .next ((s.queueChord g true).finish g h [] [Claims.counted g d .chord (x.cls.toNat + 2 ^ 16 * g.slen)] none none) := by
  obtain ⟨hfree, hacq, hsrc, hp⟩ := hs
  refine exec_completes (body := afterAcquires (sclsBody d a)) (u := false) rfl hw hg (fun h => Bool.noConfusion h)
    ((holding_free hacq).trans ?_)
  unfold sclsBody
  rw [streamBody_acts _ hfree hsrc (checkHeld_nil g)]
  simp only [List.getD_cons_zero]
  rw [readable_clean hp, Nat.mul_comm]
  rfl

/-- The result that `SBIT` waits for. -/
def bitResult (s : State) (g : Group) (h : Hdr) (m : BitVec 3) (b : Opd) (x : Stream) : Long :=
  { id := s.nextId, writes := g.streamBit h (.m m) b x, tr := h.tr, returned := false, unit := .chord, load := none,
    poison := [], gate := none, at_ := g.pc, spord := 0xFFFF_FFFF, prior := none }

theorem streamBit_eq (g : Group) (h : Hdr) (m : BitVec 3) (b : Opd) (x : Stream) :
    g.streamBit h (.m m) b x = [.m m (g.active h) (Claims.bitMask g h x ((g.uni64 b).toNat % g.slen))] := by
  have hpos : 0 < g.slen := by rw [g.slen_pow]; exact Nat.two_pow_pos _
  have hj : (g.uni64 b).toNat % g.slen < g.slen := Nat.mod_lt _ hpos
  have hL := g.slen_le
  unfold Group.streamBit Claims.bitMask
  dsimp only
  rw [writesTo_m]
  refine congrArg (fun v => [RegWrite.m m (g.active h) (maskOf v)]) (funext fun i => ?_)
  rw [x.getLsbD_lane _ _ (by omega), decide_eq_true hj, Bool.and_true]
  cases (vget x.lanes i 0).getLsbD ((g.uni64 b).toNat % g.slen) <;> rfl

theorem chordOps_parked (u : State) (g' : Group) (b : Bool) (k c : Nat) :
    (((if b then u.touch k else u).setGroup g').core c).chordOps = (u.core c).chordOps := by
  cases b with
  | false => rfl
  | true => exact State.core_modCore_keep (·.chordOps) u k (fun c => { c with lastIssue := u.time }) (fun _ => rfl) c

/-- A state with one more number given out. -/
def State.numbered (s : State) : State :=
  { s with nextId := s.nextId + 1 }

theorem sbit_begins {h : Hdr} {m : BitVec 3} {a b : Opd} {x : Stream} (hw : (Instr.sbit h (.m m) a b).wellFormed = true)
    (hg : s.group? s.cur = some g) (hprog : g.prog = 0) (hs : Claims.streams s g t [a] [x]) :
    ∃ (u : State) (l : Long), exec (.sbit h (.m m) a b) s = .next u ∧
      u.group? g.id = some { g with pend := g.pend ++ [l], prog := BitVec.allOnes 64, wait := some .chord } ∧
      l.id = s.nextId ∧ l.returned = false ∧
      l.writes = [.m m (g.active h) (Claims.bitMask g h x ((g.uni64 b).toNat % g.slen))] ∧
      (∀ c, g.core = some c → c < 272 →
        (u.core c).chordOps = (s.core c).chordOps ++ [⟨g.id, g.team, some l.id⟩]) := by
  obtain ⟨hfree, hacq, hsrc, hp⟩ := hs
  have hself : s.group? g.id = some g := by rw [State.group?_id hg]; exact hg
  have hb : sbitBody h (.m m) a b s g = .ok
      { s := (s.queueChord g true).numbered,
        g := { g with pend := g.pend ++ [bitResult s g h m b x], prog := BitVec.allOnes 64 },
        wait := some .chord, hold := true } := by
    unfold sbitBody
    rw [if_pos hprog, streamBody_acts _ hfree hsrc (checkHeld_nil g)]
    simp only [List.getD_cons_zero]
    rw [readable_clean hp]
    rfl
  have hexec := exec_holds (body := afterAcquires (sbitBody h (.m m) a b)) rfl hw hg ((holding_free hacq).trans hb)
  refine ⟨_, bitResult s g h m b x, hexec, State.group?_setGroup_self (g0 := g) ?_, rfl, rfl, streamBit_eq g h m b x, ?_⟩
  · split
    · exact hself
    · exact hself
  · intro c hc hlt
    have hcd : g.core.getD 0 = c := by rw [hc]; rfl
    have hops : ((s.queueChord g true).core c).chordOps = (s.core c).chordOps ++ [⟨g.id, g.team, some s.nextId⟩] := by
      unfold State.queueChord
      rw [hcd, State.core_modCore s hlt, if_pos rfl]
      rfl
    exact (chordOps_parked (s.queueChord g true).numbered _ _ _ c).trans hops

theorem sbit_ends {h : Hdr} {d a b : Opd} {l : Long} (hw : (Instr.sbit h d a b).wellFormed = true)
    (hg : s.group? s.cur = some g) (hacq : s.heldAcq g = false) (hprog : g.prog ≠ 0) (hl : g.pend.getLast? = some l)
    (hret : l.returned = true) :
    exec (.sbit h d a b) s = .next (s.finish { g with pend := g.pend.dropLast } h l.writes [] none none) := by
  refine exec_completes (body := afterAcquires (sbitBody h d a b)) (u := false) rfl hw hg (fun h => Bool.noConfusion h)
    ((holding_free hacq).trans ?_)
  unfold sbitBody
  rw [if_neg hprog, hl]
  dsimp only
  rw [if_pos hret]

theorem markReturned_eq (id : Nat) (l : List Long) :
    markReturned id l = l.map (fun l => { l with returned := l.returned || decide (l.id = id) }) := by
  unfold markReturned
  refine List.map_congr_left fun x _ => ?_
  by_cases hx : x.id = id
  · simp [hx]
  · simp [hx]

/-- What the completion of a unit's oldest operation leaves (R359, R375). -/
theorem unitDone_result {s1 : State} {op : UnitOp} {id : Nat} (hr : op.result = some id) (hg : s1.group? op.gid = some g) :
    s1.unitDone op = s1.setGroup (g.returned id) := by
  unfold State.unitDone
  rw [hr, hg]

theorem unitDone_none {s1 : State} {op : UnitOp} (hr : op.result = none) : s1.unitDone op = s1 := by
  unfold State.unitDone
  rw [hr]

theorem exec_unitOp {c : Nat} {op : UnitOp} {rest : List UnitOp} {s1 : State} {i : Instr}
    (h : i = .keyOpComplete c ∧ (s.core c).keyOps = op :: rest ∧ s1 = s.modCore c (fun k => { k with keyOps := rest }) ∨
      i = .chordOpComplete c ∧ (s.core c).chordOps = op :: rest ∧
        s1 = s.modCore c (fun k => { k with chordOps := rest })) :
    exec i s = .next (s1.unitDone op) ∧ s1.groups = s.groups := by
  rcases h with ⟨rfl, hops, rfl⟩ | ⟨rfl, hops, rfl⟩
  · refine ⟨?_, rfl⟩
    show execKeyOpComplete c s = _
    unfold execKeyOpComplete
    rw [hops]
  · refine ⟨?_, rfl⟩
    show execChordOpComplete c s = _
    unfold execChordOpComplete
    rw [hops]

end Settle

/-- Settles O42. -/
theorem streamResults : Obligations.StreamResults := by
  refine ⟨?_, ?_, ?_, ?_, ?_, ?_, ?_, ?_, ?_⟩
  · rintro s g g1 h l t hw hg hfree rfl
    exact ⟨rfl, slen_acts hw hg hfree⟩
  · intro s g i hw hg hacq hi hfull
    exact streams_wait hw hg hacq hfull hi
  · intro s g i f t old xs hf hw hg hs hold
    exact form_acts hf hw hg hs hold
  · intro s g h n d a b t old th hw hg hs hheld hold hth
    refine ⟨_, g.raiseFlags (flagsOver (g.contributors h) 0 (fun i => (threshold (valOf .f32 (g.srcLane a 32 i).toNat)).2)),
      put_streamPut old _ _ (f := fun lane => drawLane (g.uni64 b) n.toNat g.slen lane (th lane)) (fun lane j hj hjL => ?_),
      rfl, fun k => ?_, ?_⟩
    · rw [getLsbD_drawLane _ _ _ _ _ hj, decide_eq_true hjL, Bool.true_and]
    · show (g.fstat ||| _).getLsbD k = true ↔ _
      rw [BitVec.getLsbD_or, Bool.or_eq_true, getLsbD_flagsOver]
      refine or_congr Iff.rfl ⟨?_, ?_⟩
      · rintro ⟨lane, hcon, -, hflag⟩
        obtain ⟨hk, hq⟩ := (threshold_flags _ k).1 hflag
        exact ⟨hk, lane, hcon, hq⟩
      · rintro ⟨hk, lane, hcon, hq⟩
        exact ⟨lane, hcon, BitVec.getLsbD_zero, (threshold_flags _ k).2 ⟨hk, hq⟩⟩
    · rw [← oneClass_eq]
      exact sgen_acts hw hg hs hheld hold hth
  · intro s g h fl d a t x n hw hg hs hheld hn
    refine ⟨fun i => countCode fl g.slen (popcount (x.lane g.slen i)), ?_, ?_, scnt_acts hw hg hs hheld⟩
    · rintro rfl lane
      dsimp only
      rw [popcount_lane x g.slen_le, ← hn]
      rfl
    · rintro rfl lane
      dsimp only
      rw [popcount_lane x g.slen_le, ← hn]
      have hle : n lane ≤ g.slen := (hn lane).trans_le (ones_le _ _)
      have hlen : 6 + g.len.toNat ≤ 9 := by have := g.len.isLt; omega
      rw [g.slen_pow] at hle ⊢
      obtain ⟨h1, h2⟩ := countCode_share hlen hle
      exact ⟨h2, h1⟩
  · intro s g h m a b t x hw hg hprog hs
    exact sbit_begins hw hg hprog hs
  · intro s g h d a b l hw hg hacq hprog hl hret
    exact sbit_ends hw hg hacq hprog hl hret
  · intro s g h d a t x hw hg hs
    exact scls_acts hw hg hs
  · intro s c op rest s1 i _ hi
    obtain ⟨hexec, hgroups⟩ := exec_unitOp hi
    refine ⟨fun hr => by rw [hexec, unitDone_none hr], fun id g hr hg => ⟨g.returned id, ?_, rfl, markReturned_eq id g.pend⟩⟩
    rw [hexec, unitDone_result hr ((State.group?_congr hgroups _).trans hg)]

end Sys2Proof.Machine

end


section
/-! # O48: pool blocks and bins (R144 to R148, R152 to R155, R252) -/

namespace Sys2Proof.Machine

/-! ## The first of some by an order -/

/-- The one that stays of the best so far and another. -/
def pickOver {α : Type} (before : α → α → Bool) (b : Option α) (t : α) : Option α :=
  match b with
  | none => some t
  | some x => if before t x then some t else some x

/-- The one of a list that none comes before, the first of equals. -/
def pickBy {α : Type} (before : α → α → Bool) (l : List α) : Option α :=
  l.foldl (pickOver before) none

theorem pickOver_some {α : Type} {before : α → α → Bool} {b : Option α} {t x : α} (h : pickOver before b t = some x) :
    x = t ∨ b = some x := by
  unfold pickOver at h
  split at h
  · exact Or.inl (Option.some.inj h).symm
  · split at h
    · exact Or.inl (Option.some.inj h).symm
    · exact Or.inr h

theorem pickBy_eq {α : Type} {before : α → α → Bool} {l : List α} {t : α} (ht : t ∈ l)
    (h : ∀ q ∈ l, q ≠ t → before t q = true ∧ before q t = false) : pickBy before l = some t := by
  have fold (l : List α) (b : Option α) (hb : ∀ x, b = some x → x ≠ t → before t x = true) (hin : b = some t ∨ t ∈ l)
      (h : ∀ q ∈ l, q ≠ t → before t q = true ∧ before q t = false) : l.foldl (pickOver before) b = some t := by
    induction l generalizing b with
    | nil => exact hin.resolve_right List.not_mem_nil
    | cons q l ih =>
      have hq := h q List.mem_cons_self
      rw [List.foldl_cons]
      refine ih _ (fun x hx hne => ?_) ?_ fun r hr => h r (List.mem_cons_of_mem _ hr)
      · rcases pickOver_some hx with rfl | hx
        · exact (hq hne).1
        · exact hb x hx hne
      · rcases hin with rfl | hin
        · refine Or.inl ?_
          unfold pickOver
          dsimp only
          by_cases hqt : q = t
          · rw [hqt, ite_self]
          · rw [(hq hqt).2, if_neg Bool.false_ne_true]
        · rcases List.mem_cons.1 hin with rfl | hin
          · refine Or.inl ?_
            unfold pickOver
            split
            · rfl
            · next y =>
              by_cases hyt : y = t
              · rw [hyt, ite_self]
              · rw [hb y rfl hyt, if_pos rfl]
          · exact Or.inr hin
  exact fold l none (fun x hx => by cases hx) (Or.inr ht) h

theorem foldl_keeps {α β : Type} {f : β → α → β} {b : β} {l : List α} (h : ∀ a ∈ l, f b a = b) : l.foldl f b = b := by
  induction l with
  | nil => rfl
  | cons a l ih =>
    rw [List.foldl_cons, h a List.mem_cons_self]
    exact ih fun x hx => h x (List.mem_cons_of_mem _ hx)

/-- A change of a core is by what it makes of that core. -/
theorem State.modCore_congr {s : State} {c : Nat} {f f' : Core → Core} (h : f (s.core c) = f' (s.core c)) :
    s.modCore c f = s.modCore c f' := by
  have : s.modCore c f = { s with cores := vset s.cores c (f (s.core c)) } := rfl
  rw [this, h]
  rfl

/-! ## `POOL_BLOCK_GRANT` (R144, R145) -/

theorem poolBlocked_iff (s : State) (c : Nat) (r : PoolReq) : s.poolBlocked c r = true ↔ Claims.poolHeld s c r := by
  unfold State.poolBlocked Claims.poolHeld
  dsimp only
  rw [Bool.or_eq_true, List.any_eq_true, decide_eq_true_iff, or_comm]
  simp only [Bool.and_eq_true, bne_iff_ne, decide_eq_true_iff, and_assoc, ne_eq]

theorem limWith_eq (g : Group) (lo hi : Bool) : g.limWith lo hi =
    if lo = true ∧ 32 < g.vlim ∧ g.vlim < 48 then 48 else if hi = true ∧ 48 < g.vlim then 64 else g.vlim := by
  unfold Group.limWith
  simp only [Bool.and_eq_true, decide_eq_true_iff, and_assoc]

theorem grantHalves_eq (s : State) (g : Group) (lo hi : Bool) : s.grantHalves g lo hi false = s.setGroup { g with
    lo := g.lo || lo, hi := g.hi || hi, wait := none,
    vlim := if lo = true ∧ 32 < g.vlim ∧ g.vlim < 48 then 48 else if hi = true ∧ 48 < g.vlim then 64 else g.vlim,
    v := vecOf 64 (fun n => if (lo = true ∧ 32 ≤ n ∧ n < 48) ∨ (hi = true ∧ 48 ≤ n) then vzero else vget g.v n vzero) } := by
  have hv : (fun i => if (lo && decide (32 ≤ i) && decide (i < 48)) || (hi && decide (48 ≤ i)) then vzero else vget g.v i vzero) =
      fun n => if (lo = true ∧ 32 ≤ n ∧ n < 48) ∨ (hi = true ∧ 48 ≤ n) then vzero else vget g.v n vzero := by
    funext n
    simp only [Bool.or_eq_true, Bool.and_eq_true, decide_eq_true_iff, and_assoc]
  rw [← limWith_eq, ← hv]
  rfl

theorem grantPool_grants {s : State} {g : Group} {c : Nat} {r : PoolReq} {rest : List PoolReq} {lo hi : Bool}
    (hreq : (s.core c).poolReqs = r :: rest) (hfree : ¬ Claims.poolHeld s c r) (hg : s.group? r.gid = some g)
    (hh : s.haltReached g = false) (hw : g.wait = some (.xgrow lo hi false)) :
    s.grantPool c = (s.modCore c (fun k => { k with poolReqs := rest, growing := false })).grantHalves g lo hi false := by
  have hb : s.poolBlocked c r = false := by rw [← Bool.not_eq_true, poolBlocked_iff]; exact hfree
  unfold State.grantPool
  rw [hreq]
  dsimp only
  rw [hb, if_neg Bool.false_ne_true, hg]
  dsimp only
  rw [hw]
  dsimp only
  rw [hh, if_neg Bool.false_ne_true]

theorem grantPool_held {s : State} {c : Nat} (h : (s.core c).poolReqs = [] ∨ ∃ r rest, (s.core c).poolReqs = r :: rest ∧
    Claims.poolHeld s c r) : s.grantPool c = s := by
  unfold State.grantPool
  rcases h with h | ⟨r, rest, h, hheld⟩
  · rw [h]
  · rw [h]
    dsimp only
    rw [(poolBlocked_iff s c r).2 hheld, if_pos rfl]

/-! ## Victims (R146, R330) -/

/-- The priority of a team. -/
def State.prioOf (s : State) (t : Team) : Nat :=
  match s.launch? t.launch with | some l => l.prio | none => 0

theorem goesFirst_iff (s : State) (a b : Team) : Claims.goesFirst s a b ↔ s.prioOf a < s.prioOf b ∨
    s.prioOf a = s.prioOf b ∧ (b.first.toNat < a.first.toNat ∨ a.first = b.first ∧ b.l < a.l) := Iff.rfl

theorem victimBefore_eq (s : State) (a b : Team) : s.victimBefore a b =
    if s.prioOf a ≠ s.prioOf b then decide (s.prioOf a < s.prioOf b)
    else if a.first ≠ b.first then decide (b.first.toNat < a.first.toNat) else decide (b.l < a.l) := rfl

theorem victimBefore_iff (s : State) (a b : Team) : s.victimBefore a b = true ↔ Claims.goesFirst s a b := by
  rw [goesFirst_iff, victimBefore_eq]
  by_cases hp : s.prioOf a = s.prioOf b
  · rw [if_neg (not_not.2 hp), hp]
    by_cases hf : a.first = b.first
    · rw [if_neg (not_not.2 hf), hf, decide_eq_true_iff]
      simp
    · rw [if_pos hf, decide_eq_true_iff]
      simp [hf]
  · rw [if_pos hp, decide_eq_true_iff]
    simp [hp]

theorem goesFirst_asymm {s : State} {a b : Team} (h : Claims.goesFirst s a b) : s.victimBefore b a = false := by
  rw [← Bool.not_eq_true, victimBefore_iff, goesFirst_iff]
  rw [goesFirst_iff] at h
  have eq_of {x y : Word64} (h : x = y) : x.toNat = y.toNat := by rw [h]
  rintro (h' | ⟨h', h'' | ⟨hf', h''⟩⟩)
  · omega
  · rcases h with h | ⟨-, h | ⟨hf, -⟩⟩
    · omega
    · omega
    · have := eq_of hf
      omega
  · have := eq_of hf'
    omega

theorem victim_pickBy (s : State) (ts : List Team) : s.victim ts = pickBy s.victimBefore ts := by
  unfold State.victim pickBy
  congr 1
  funext b t
  cases b <;> rfl

/-- A team that goes before all others of some is the victim among them. -/
theorem victim_eq {s : State} {ts : List Team} {t : Team} (ht : t ∈ ts) (h : ∀ q ∈ ts, q ≠ t → Claims.goesFirst s t q) :
    s.victim ts = some t :=
  (victim_pickBy s ts).trans <| pickBy_eq ht fun q hq hne => ⟨(victimBefore_iff s t q).2 (h q hq hne), goesFirst_asymm (h q hq hne)⟩

theorem mem_candidates (s : State) (c : Nat) (q : Team) :
    q ∈ s.candidates c ↔ q ∈ s.teams ∧ q.core = some c ∧ q.swap = .resident ∧ (s.part (s.partOf q)).halted = false := by
  unfold State.candidates State.teamsOn
  simp only [List.mem_filter, Bool.and_eq_true, beq_iff_eq, Bool.not_eq_true', and_assoc]

/-- The teams that hold pool blocks, and those that hold tiles. -/
def State.holdsBlocks (s : State) (q : Team) : Prop := ∃ g ∈ s.groups, g.team = q.id ∧ g.blocks ≠ 0

def State.holdsTiles (s : State) (q : Team) : Prop := ∃ k ∈ s.gangs, k.team = q.id

theorem any_blocks_iff (s : State) (q : Team) : (s.groups.any (fun g => g.team == q.id && g.blocks != 0)) = true ↔ s.holdsBlocks q := by
  unfold State.holdsBlocks
  simp only [List.any_eq_true, Bool.and_eq_true, beq_iff_eq, bne_iff_ne]

theorem any_tiles_iff (s : State) (q : Team) : (s.gangs.any (fun k => k.team == q.id)) = true ↔ s.holdsTiles q := by
  unfold State.holdsTiles
  simp only [List.any_eq_true, beq_iff_eq]

section Victim
variable {s : State} {c : Nat} {t : Team}

/-- The victim among the candidates of a core that hold something. -/
theorem victim_of_candidates {holds : Team → Prop} {p : Team → Bool} (hp : ∀ q, p q = true ↔ holds q) (ht : t ∈ s.teams)
    (hc : t.core = some c) (hres : ∀ q ∈ s.teams, q.core = some c → q.swap = .resident) (hh : (s.part (s.partOf t)).halted = false)
    (hold : holds t) (hfirst : ∀ q ∈ s.teams, q.core = some c → q ≠ t → holds q →
      (s.part (s.partOf q)).halted = true ∨ Claims.goesFirst s t q) :
    s.victim ((s.candidates c).filter p) = some t := by
  refine victim_eq (List.mem_filter.2 ⟨(mem_candidates s c t).2 ⟨ht, hc, hres t ht hc, hh⟩, (hp t).2 hold⟩) fun q hq hne => ?_
  obtain ⟨hq, hpq⟩ := List.mem_filter.1 hq
  obtain ⟨hqm, hqc, -, hqh⟩ := (mem_candidates s c q).1 hq
  refine (hfirst q hqm hqc hne ((hp q).1 hpq)).resolve_left ?_
  rw [hqh]
  exact Bool.false_ne_true

theorem poolVictim_none (h : (s.core c).poolReqs = []) : s.poolVictim c = none := by
  unfold State.poolVictim
  rw [h]

theorem poolVictim_held {r : PoolReq} {rest : List PoolReq} (h : (s.core c).poolReqs = r :: rest) (hheld : Claims.poolHeld s c r) :
    s.poolVictim c = s.victim ((s.candidates c).filter (fun t => s.groups.any (fun g => g.team == t.id && g.blocks != 0))) := by
  unfold State.poolVictim
  rw [h]
  dsimp only
  rw [(poolBlocked_iff s c r).2 hheld, if_pos rfl]

theorem tileVictim_held {r : PoolReq} {rest : List PoolReq} (h : (s.core c).tileReqs = r :: rest)
    (hheld : TILES < s.tilesUsed c + r.blocks) :
    s.tileVictim c = s.victim ((s.candidates c).filter (fun t => s.gangs.any (fun k => k.team == t.id))) := by
  unfold State.tileVictim
  rw [h]
  dsimp only
  rw [if_pos hheld]

/-- Where no candidate holds anything there is no victim. -/
theorem nextVictim_none (h : ∀ q ∈ s.teams, q.core = some c → (s.part (s.partOf q)).halted = true ∨
    (∀ g ∈ s.groups, g.team = q.id → g.blocks = 0) ∧ ∀ k ∈ s.gangs, k.team ≠ q.id) : s.nextVictim c = none := by
  have hempty {p : Team → Bool} (hp : ∀ q, p q = true → s.holdsBlocks q ∨ s.holdsTiles q) :
      (s.candidates c).filter p = [] := by
    rw [List.filter_eq_nil_iff]
    intro q hq hpq
    obtain ⟨hqm, hqc, -, hqh⟩ := (mem_candidates s c q).1 hq
    obtain ⟨hb, hk⟩ := (h q hqm hqc).resolve_left (by rw [hqh]; exact Bool.false_ne_true)
    rcases hp q hpq with ⟨g, hg, hgt, hgb⟩ | ⟨k, hkm, hkt⟩
    · exact hgb (hb g hg hgt)
    · exact hk k hkm hkt
  have hpool : s.poolVictim c = none := by
    unfold State.poolVictim
    split
    · split
      · rw [hempty fun q hq => Or.inl ((any_blocks_iff s q).1 hq)]
        rfl
      · rfl
    · rfl
  have htile : s.tileVictim c = none := by
    unfold State.tileVictim
    split
    · split
      · rw [hempty fun q hq => Or.inr ((any_tiles_iff s q).1 hq)]
        rfl
      · rfl
    · rfl
  unfold State.nextVictim
  rw [hpool]
  exact htile

end Victim

/-! ## The cut of a team that has settled (R416, R418) -/

section Cut
variable {s : State} {t : Team} {c : Nat}

theorem grantTiles_held (h : (s.core c).tileReqs = [] ∨ ∃ r rest, (s.core c).tileReqs = r :: rest ∧
    TILES < s.tilesUsed c + r.blocks) : s.grantTiles c = s := by
  unfold State.grantTiles
  rcases h with h | ⟨r, rest, h, hheld⟩
  · rw [h]
  · rw [h]
    dsimp only
    rw [if_neg (Nat.not_le.2 hheld)]

theorem settleLoads_none {gid : Nat} {g : Group} (hg : s.group? gid = some g) (h : g.allPend = []) : s.settleLoads gid = s := by
  unfold State.settleLoads
  rw [hg]
  dsimp only
  rw [h]
  rfl

theorem settle_settled (hc : t.core = some c) (h : Claims.settled s t c) : s.settle t = s := by
  obtain ⟨hgroups, hnodup, htiles, hpool⟩ := h
  have hcd : t.core.getD 0 = c := by rw [hc]; rfl
  unfold State.settle
  dsimp only
  rw [hcd, foldl_keeps (f := fun (s : State) (_ : Nat) => s.grantPool c) fun _ _ => grantPool_held hpool,
    foldl_keeps (f := fun (s : State) (_ : Nat) => s.grantTiles c) fun _ _ => grantTiles_held htiles]
  refine foldl_keeps fun id hid => ?_
  obtain ⟨g, hg, rfl⟩ := List.mem_map.1 hid
  obtain ⟨hgm, hgt⟩ := List.mem_filter.1 hg
  obtain ⟨hpend, hfirm, hwait⟩ := hgroups g hgm (beq_iff_eq.1 hgt)
  have hself : s.group? g.id = some g := group?_of_nodup hnodup hgm
  have hfirmware : s.settleFirmware g = s := by
    unfold State.settleFirmware
    rw [hfirm]
    split
    · next h => cases h
    · rfl
  have hsettled : s.settleWait g = s := by
    unfold State.settleWait
    rcases hwait with hw | ⟨lo, hi, sw, hw⟩ <;> rw [hw]
  rw [settleLoads_none hself hpend, hself]
  dsimp only
  rw [hfirmware, hself]
  exact hsettled

theorem cutAll_settled (hroom : s.areaRoom (s.partOf t) [t] = true) (ht : s.team? t.id = some t) (hc : t.core = some c)
    (h : Claims.settled s t c) : s.cutAll (s.partOf t) [t] = s.modTeam t.id (fun q => { q with swap := .cut }) := by
  unfold State.cutAll
  rw [hroom, if_pos rfl]
  show s.cutTeam t.id = _
  unfold State.cutTeam
  rw [ht]
  dsimp only
  rw [settle_settled hc h]

end Cut

/-! ## `REGISTER_GROW_CHECK` (R146) -/

section Check
variable {s : State} {c : Nat} (hres : ∀ q ∈ s.teams, q.core = some c → q.swap = .resident)
  (hdue : (s.core c).growing = true ∨ 1024 ≤ s.clocksSince (s.core c).lastIssue)
include hres hdue

theorem exec_registerGrowCheck : exec (.registerGrowCheck c) s = .next (match s.nextVictim c with
    | some t => (s.cutAll (s.partOf t) [t]).modCore c (fun k => { k with growing := s.areaRoom (s.partOf t) [t] })
    | none => s.modCore c (fun k => { k with growing := false })) := by
  have hall : (s.teamsOn c).all (fun t => t.swap == .resident) = true := by
    rw [List.all_eq_true]
    intro q hq
    obtain ⟨hq, hqc⟩ := List.mem_filter.1 hq
    rw [beq_iff_eq]
    exact hres q hq (beq_iff_eq.1 hqc)
  have hgo : (!(s.core c).growing && decide (s.clocksSince (s.core c).lastIssue < 1024)) = false := by
    rw [Bool.and_eq_false_iff, Bool.not_eq_false', decide_eq_false_iff_not, Nat.not_lt]
    exact hdue
  show execRegisterGrowCheck c s = _
  unfold execRegisterGrowCheck
  dsimp only
  rw [hall, hgo, if_neg (by decide), if_neg (by decide)]
  cases s.nextVictim c <;> rfl

end Check

/-! ## Spawn teams and bins that fire (R153, R155) -/

/-- The team found or made is on the core, of the grid, and among the teams. -/
theorem State.spawnTeam_mem (s : State) (core launch : Nat) :
    (s.spawnTeam core launch).2 ∈ (s.spawnTeam core launch).1.teams ∧ (s.spawnTeam core launch).2.spawn = true ∧
      (s.spawnTeam core launch).2.launch = launch ∧ (s.spawnTeam core launch).2.core = some core := by
  unfold State.spawnTeam
  split
  · next t h =>
    have hp := List.find?_some h
    simp only [Bool.and_eq_true, beq_iff_eq] at hp
    exact ⟨List.mem_of_find?_eq_some h, hp.1.1, hp.1.2, hp.2⟩
  · exact ⟨List.mem_append_right _ List.mem_cons_self, rfl, rfl, rfl⟩

theorem State.formSpawn_mem {s : State} {core l : Nat} {b : Bin} (hb : b ∈ (s.core core).bins) (hf : b.fired = true)
    (hl : b.work.grid = some l) : ∃ q ∈ (s.formSpawn core).teams, q.spawn = true ∧ q.launch = l ∧ q.core = some core := by
  have fold (ls : List Nat) (s : State)
      (h : l ∈ ls ∨ ∃ q ∈ s.teams, q.spawn = true ∧ q.launch = l ∧ q.core = some core) :
      ∃ q ∈ (ls.foldl (fun s l => (s.spawnTeam core l).1) s).teams, q.spawn = true ∧ q.launch = l ∧ q.core = some core := by
    induction ls generalizing s with
    | nil => exact h.resolve_left List.not_mem_nil
    | cons x ls ih =>
      refine ih _ ?_
      rcases h with h | ⟨q, hq, hspec⟩
      · rcases List.mem_cons.1 h with rfl | h
        · exact Or.inr ⟨_, s.spawnTeam_mem core l⟩
        · exact Or.inl h
      · obtain ⟨ts, n, heq⟩ := s.spawnTeam_adds core x
        refine Or.inr ⟨q, ?_, hspec⟩
        show q ∈ ((s.spawnTeam core x).1).teams
        rw [heq]
        exact List.mem_append_left _ hq
  exact fold _ s (Or.inl (List.mem_filterMap.2 ⟨b, hb, by rw [hf, if_pos rfl]; exact hl⟩))

theorem exec_binFireTimeout {s : State} {c i : Nat} {b : Bin} (hb : (s.core c).bins[i]? = some b) (hf : b.fired = false)
    (hdue : max 1 (s.core c).bintime.toNat ≤ s.clocksSince b.opened) : exec (.binFireTimeout c i) s =
      .next ((s.modCore c (fun k => k.fire i s.time)).formSpawn c) := by
  show execBinFireTimeout c i s = _
  unfold execBinFireTimeout
  rw [hb]
  dsimp only
  rw [hf, if_pos (show (!false && decide ((s.core c).binClocks ≤ s.clocksSince b.opened)) = true from ?_)]
  rw [Bool.not_false, Bool.true_and, decide_eq_true_iff]
  exact hdue

/-! ## A fired spawn bin becomes a group (R148, R153, R154) -/

section Spawned
variable {s : State} {c i : Nat} {b : Bin} {l : Launch} {entry : Word64} {vregs : Nat} {items : List SpawnItem}

theorem team?_of_nodup {s : State} (h : (s.teams.map (fun (t : Team) => t.id)).Nodup) {t : Team} (ht : t ∈ s.teams) :
    s.team? t.id = some t := by
  unfold State.team?
  cases hf : s.teams.find? (fun u => u.id == t.id) with
  | none => exact absurd (List.find?_eq_none.1 hf t ht) (by simp)
  | some u =>
    have hu : u.id = t.id := by simpa using List.find?_some hf
    exact congrArg some (List.inj_on_of_nodup_map h (List.mem_of_find?_eq_some hf) ht hu)

/-- The team that a spawned group joins is found by its number. -/
theorem State.spawnTeam_team? (hn : (s.teams.map (fun (t : Team) => t.id)).Nodup) (hid : ∀ t ∈ s.teams, t.id < s.nextId)
    (core launch : Nat) : (s.spawnTeam core launch).1.team? (s.spawnTeam core launch).2.id = some (s.spawnTeam core launch).2 := by
  unfold State.spawnTeam
  split
  · next t h => exact team?_of_nodup hn (List.mem_of_find?_eq_some h)
  · refine team?_of_nodup ?_ (List.mem_append_right _ List.mem_cons_self)
    rw [List.map_append]
    refine List.nodup_append.2 ⟨hn, List.nodup_singleton _, fun x hx y hy => ?_⟩
    obtain ⟨t, ht, rfl⟩ := List.mem_map.1 hx
    obtain rfl := List.mem_singleton.1 hy
    exact (hid t ht).ne

/-- It is resident where the core's spawn teams are. -/
theorem State.spawnTeam_resident {core : Nat} (h : ∀ t ∈ s.teams, t.spawn = true → t.core = some core → t.swap = .resident)
    (launch : Nat) : (s.spawnTeam core launch).2.swap = .resident := by
  unfold State.spawnTeam
  split
  · next t hf =>
    have hp := List.find?_some hf
    simp only [Bool.and_eq_true, beq_iff_eq] at hp
    exact h t (List.mem_of_find?_eq_some hf) hp.1.1 hp.2
  · rfl

/-- The blocks of a spawn bin are free, in the order of requests. -/
theorem binBlocks_spawn (hwork : b.work = .spawn l.id entry vregs items) (hroom : 32 < vregs → Claims.binRoom s c vregs b) :
    s.binBlocks c b = true := by
  have hpooled : b.work.pooled = false := by rw [hwork]; rfl
  have hblocks : b.work.blocks = (decide (32 < vregs)).toNat + (decide (48 < vregs)).toNat := by rw [hwork]; rfl
  unfold State.binBlocks Core.heldBack
  dsimp only
  rw [hpooled]
  by_cases hv : 32 < vregs
  · obtain ⟨hreqs, hbins, hfree⟩ := hroom hv
    have hcount : b.work.blocks = if 48 < vregs then 2 else 1 := by
      rw [hblocks, decide_eq_true hv]
      by_cases h : 48 < vregs <;> simp [h]
    rw [← hcount] at hfree
    have hr : ((s.core c).poolReqs.any fun r => decide (r.fired.toNat < b.ord.toNat)) = false := by
      rw [List.any_eq_false]
      intro r hr
      rw [decide_eq_true_iff, Nat.not_lt]
      exact hreqs r hr
    have hb : ((s.core c).bins.any fun x => x.fired && (x.work.blocks != 0 || (false && x.work.pooled)) &&
        decide (x.ord.toNat < b.ord.toNat)) = false := by
      rw [List.any_eq_false]
      intro x hx
      rw [Bool.false_and, Bool.or_false, Bool.and_eq_true, Bool.and_eq_true, bne_iff_ne, decide_eq_true_iff]
      rintro ⟨⟨hf, hne⟩, hlt⟩
      exact absurd (hbins x hx hf hne) (Nat.not_le.2 hlt)
    rw [hr, hb, decide_eq_true hfree, Bool.or_self, Bool.and_false, Bool.not_false, Bool.or_true, Bool.and_self]
  · have hzero : b.work.blocks = 0 := by
      rw [hblocks, decide_eq_false hv, decide_eq_false (by omega)]
      rfl
    rw [hzero]
    rfl

theorem binLate_iff (s : State) (l : Launch) (b : Bin) : s.binLate l b = true ↔
    (b.raised = true ∨ 8 * s.sliceNs l.prio ≤ (s.time - b.since).toNat) := by
  unfold State.binLate
  rw [Bool.or_eq_true, decide_eq_true_iff]

/-- What a bin waits as, if it does. -/
def State.binWaits (s : State) (part c : Nat) (b : Bin) (i : Nat) : Option Waiting :=
  match b.work with
  | .spawn id _ _ _ =>
    match s.launch? id with
    | some l =>
      if b.fired && l.part == part then
        some ⟨if s.binLate l b then 7 else l.prio, l.tdisp, l.queue.toNat, 0, .bin c i⟩
      else none
    | none => none
  | .call .. => none

theorem waitingBins_eq (s : State) (part : Nat) : s.waitingBins part = (List.range 272).flatMap (fun c =>
    (s.core c).bins.zipIdx.filterMap (fun x => s.binWaits part c x.1 x.2)) := rfl

theorem binWaits_what {part : Nat} {w : Waiting} (h : s.binWaits part c b i = some w) : w.what = .bin c i := by
  unfold State.binWaits at h
  split at h
  · split at h
    · split at h
      · rw [← Option.some.inj h]
      · cases h
    · cases h
  · cases h

theorem binWaits_spawn (hwork : b.work = .spawn l.id entry vregs items) (hfired : b.fired = true) (hl : s.launch? l.id = some l) :
    s.binWaits l.part c b i = some (Claims.binPlace s l c i b) := by
  unfold State.binWaits Claims.binPlace
  rw [hwork]
  dsimp only
  rw [hl]
  dsimp only
  rw [hfired, beq_self_eq_true, Bool.and_self, if_pos rfl]
  simp only [binLate_iff]

/-- Where nothing that waits comes before the place of a fired spawn bin, the bin is first. -/
theorem binFirst_of (hb : (s.core c).bins[i]? = some b) (hfired : b.fired = true)
    (hwork : b.work = .spawn l.id entry vregs items) (hc : c < 272) (hl : s.launch? l.id = some l)
    (hfirst : ∀ w ∈ s.waitingAll l.part, w.before (Claims.binPlace s l c i b) = false) : s.binFirst l.part c i = true := by
  have hplace := binWaits_spawn (c := c) (i := i) hwork hfired hl
  have hfind : (s.waitingBins l.part).find? (fun w => w.what == .bin c i) = some (Claims.binPlace s l c i b) := by
    cases hf : (s.waitingBins l.part).find? (fun w => w.what == .bin c i) with
    | none =>
      refine absurd (List.find?_eq_none.1 hf (Claims.binPlace s l c i b) ?_) ?_
      · rw [waitingBins_eq, List.mem_flatMap]
        exact ⟨c, List.mem_range.2 hc, List.mem_filterMap.2 ⟨(b, i), List.mk_mem_zipIdx_iff_getElem?.2 hb, hplace⟩⟩
      · rw [binWaits_what hplace, beq_self_eq_true]
        exact not_not.2 rfl
    | some w =>
      have hw := List.mem_of_find?_eq_some hf
      have hwhat : w.what = .bin c i := by simpa using List.find?_some hf
      rw [waitingBins_eq, List.mem_flatMap] at hw
      obtain ⟨d, -, hw⟩ := hw
      obtain ⟨⟨x, j⟩, hx, hwx⟩ := List.mem_filterMap.1 hw
      have hdj := (binWaits_what hwx).symm.trans hwhat
      obtain ⟨rfl, rfl⟩ := Waits.bin.inj hdj
      have hxb : x = b := Option.some.inj ((List.mk_mem_zipIdx_iff_getElem?.1 hx).symm.trans hb)
      rw [hxb] at hwx
      exact hwx.symm.trans hplace
  unfold State.binFirst
  rw [hfind]
  dsimp only
  rw [List.all_eq_true]
  intro w hw
  rw [hfirst w hw, Bool.not_false]

theorem exec_spawnedGroupStart {slot : Nat} (hb : (s.core c).bins[i]? = some b) (hfired : b.fired = true)
    (hwork : b.work = .spawn l.id entry vregs items) (hroom : 32 < vregs → Claims.binRoom s c vregs b)
    (hfirst : ∀ w ∈ s.waitingAll l.part, w.before (Claims.binPlace s l c i b) = false) (hl : s.launch? l.id = some l)
    (hpart : (s.core c).part = BitVec.ofNat 4 l.part) (hp : l.part < 8) (hmove : (s.core c).moving = false) (hc : c < 272)
    (hres : ∀ t ∈ s.teams, t.spawn = true → t.core = some c → t.swap = .resident)
    (hslot : (s.spawnTeam c l.id).1.pickSlot c = some slot) : exec (.spawnedGroupStart c i) s =
      .next (State.freeBin { (s.spawnTeam c l.id).1 with
        groups := (s.spawnTeam c l.id).1.groups ++ [Group.spawned (s.spawnTeam c l.id).1.nextId (s.spawnTeam c l.id).2 l c slot
          entry vregs items b.ord (s.spawnTeam c l.id).1.time]
        nextId := (s.spawnTeam c l.id).1.nextId + 1 } c i) := by
  have hopen : s.coreOpen l.part c = true := by
    unfold State.coreOpen
    rw [hpart, hmove, BitVec.toNat_ofNat, Nat.mod_eq_of_lt (by omega), beq_self_eq_true]
    rfl
  have hbin := binFirst_of hb hfired hwork hc hl hfirst
  show execSpawnedGroupStart c i s = _
  unfold execSpawnedGroupStart
  rw [hb]
  dsimp only
  rw [hfired, if_neg (by decide), hwork]
  dsimp only
  unfold State.startSpawned
  rw [hl]
  dsimp only
  rw [hopen, hbin, if_neg (by decide), hslot]
  dsimp only
  rw [if_pos (by rw [State.spawnTeam_resident hres, binBlocks_spawn hwork hroom]; rfl)]

end Spawned

/-! ## A caller takes back what waits in a pooled bin (R252, R240) -/

section Withdraw
variable {s : State} {g : Group} {c : Nat} {b : Bin} {t : Team} {slot : Word64} {tgt : CallTarget} {lanes : List CallLane}
  (hbins : (s.core c).bins = [b]) (hwork : b.work = .call t.id slot tgt lanes)
include hbins hwork

theorem sameCall_self : b.work.sameCall b.work = true := by
  rw [hwork]
  unfold BinWork.sameCall
  dsimp only
  rw [beq_self_eq_true, beq_self_eq_true, Bool.and_self]

theorem keyLanes_one : s.keyLanes c b.work = lanes := by
  unfold State.keyLanes
  rw [hbins, List.flatMap_singleton, sameCall_self hbins hwork, if_pos rfl, hwork]
  rfl

section Members
variable (hne : lanes ≠ []) (hmem : ∀ x ∈ lanes, x.members ≠ [] ∧ ∀ m ∈ x.members, m.caller = g.id)
include hmem

omit hbins hwork in
/-- All members are the caller's. -/
theorem membersIn_all (m : Member) : m ∈ membersIn g.id lanes ↔ ∃ x ∈ lanes, m ∈ x.members := by
  unfold membersIn
  rw [List.mem_eraseDups, List.mem_flatMap]
  refine exists_congr fun x => and_congr_right fun hx => ?_
  rw [List.mem_filter, beq_iff_eq]
  exact ⟨And.left, fun hm => ⟨hm, (hmem x hx).2 m hm⟩⟩

omit hbins hwork in
theorem withdraw_all : withdraw g.id lanes = [] := by
  unfold withdraw
  rw [List.filter_eq_nil_iff]
  intro y hy
  obtain ⟨x, hx, rfl⟩ := List.mem_map.1 hy
  dsimp only
  have : x.members.filter (fun m => m.caller != g.id) = [] := by
    rw [List.filter_eq_nil_iff]
    intro m hm
    rw [(hmem x hx).2 m hm, bne_self_eq_false]
    exact Bool.false_ne_true
  rw [this]
  decide

/-- The bin gives up all it holds and is free. -/
theorem withdrawItems_one : s.withdrawItems c 0 b.work g.id = s.modCore c (fun k => { k with bins := [] }) := by
  unfold State.withdrawItems
  refine State.modCore_congr ?_
  have hrest : (b.withdraw g.id).work = .call t.id slot tgt [] := by
    unfold Bin.withdraw
    rw [hwork]
    dsimp only
    rw [withdraw_all hmem]
  have hsame : (BinWork.call t.id slot tgt []).sameCall b.work = true := by
    rw [hwork]
    unfold BinWork.sameCall
    dsimp only
    rw [beq_self_eq_true, beq_self_eq_true, Bool.and_self]
  rw [hbins]
  simp only [List.zipIdx_cons, List.zipIdx_nil, List.map_cons, List.map_nil, sameCall_self hbins hwork, if_true]
  rw [List.filter_cons_of_neg, List.filter_nil]
  dsimp only
  rw [hrest, hsame]
  exact (by decide : ¬ (!(true && true)) = true)

include hne in
/-- The oldest caller is the only one. -/
theorem oldestCaller_one (hg : s.group? g.id = some g) : s.oldestCaller c b.work = some g := by
  have hids : (lanes.flatMap (fun l => l.members.map (fun m => m.caller))).eraseDups = [g.id] := by
    have hall : ∀ k ∈ lanes.flatMap (fun l => l.members.map (fun m => m.caller)), k = g.id := by
      intro k hk
      obtain ⟨x, hx, hk⟩ := List.mem_flatMap.1 hk
      obtain ⟨m, hm, rfl⟩ := List.mem_map.1 hk
      exact (hmem x hx).2 m hm
    obtain ⟨k, l, hkl⟩ : ∃ k l, lanes.flatMap (fun l => l.members.map (fun m => m.caller)) = k :: l := by
      obtain ⟨x, l, rfl⟩ := List.exists_cons_of_ne_nil hne
      obtain ⟨m, ms, hms⟩ := List.exists_cons_of_ne_nil (hmem x List.mem_cons_self).1
      exact ⟨m.caller, _, by rw [List.flatMap_cons, hms]; rfl⟩
    rw [hkl] at hall ⊢
    rw [List.eraseDups_cons, List.filter_eq_nil_iff.2, hall k List.mem_cons_self]
    · rfl
    · intro x hx
      rw [hall x (List.mem_cons_of_mem _ hx), hall k List.mem_cons_self, beq_self_eq_true]
      decide
  unfold State.oldestCaller
  dsimp only
  rw [show (s.core c).bins.flatMap (fun x => if x.work.sameCall b.work then x.work.lanes else []) = lanes from
    keyLanes_one hbins hwork, hids, List.filterMap_cons_some hg, List.filterMap_nil]
  rfl

omit hbins hwork in
/-- A call of which all items are in the bin waits there whole. -/
theorem waits_all (call : Calling) (h : (lanes.flatMap (fun (x : CallLane) => x.members)).length =
    (lanesOf call.set).length * (if call.tgt.gather then 1 else call.tgt.k)) : call.waits g.id lanes = true := by
  unfold Calling.waits
  rw [beq_iff_eq, ← h, List.length_flatMap]
  refine congrArg List.sum (List.map_congr_left fun x hx => ?_)
  rw [List.countP_eq_length.2 fun m hm => by rw [beq_iff_eq]; exact (hmem x hx).2 m hm]

end Members

/-- The withdrawal of the waiting bin. -/
theorem exec_pooledCallWithdraw (hfired : b.fired = true) (ht : s.team? t.id = some t) (hcore : t.core = some c)
    (hres : t.swap = .resident) (hdue : max 1 (s.core c).bintime.toNat ≤ s.clocksSince b.since) :
    exec (.pooledCallWithdraw c 0) s = .next (s.withdrawCall c 0 b.work) := by
  show execPooledCallWithdraw c 0 s = _
  unfold execPooledCallWithdraw
  rw [hbins, List.getElem?_cons_zero]
  dsimp only
  split
  · next team sl tg ls hw =>
    obtain ⟨rfl, -, -, -⟩ := BinWork.call.inj (hwork.symm.trans hw)
    rw [ht]
    dsimp only
    have hdue' : (s.core c).binClocks ≤ s.clocksSince b.since := hdue
    exact if_pos (by simp [hfired, hres, hcore, hdue'])
  · next hw => exact absurd (hwork.symm.trans hw) nofun

end Withdraw

/-- The frame of a self-fold is written inside its area (R241). -/
theorem read8_saveFrame {s : State} (hwf : Memory.wf s.mem = true) (g : Group) (tgt : CallTarget) (creg : BitVec 6) (set : Mask)
    (loc : Nat) {x : Nat} (hx : ¬ (loc ≤ x ∧ x < loc + tgt.frameSize)) : (s.saveFrame g tgt creg set loc).read8 x = s.read8 x := by
  have hlen (n k : Nat) (f : Nat → List Byte) (h : ∀ i, (f i).length = k) : ((List.range n).flatMap f).length = n * k := by
    rw [List.length_flatMap, List.map_congr_left (g := fun _ => k) fun i _ => h i]
    simp
  have hhead : (g.frameHeader tgt creg set).length = 896 := by
    unfold Group.frameHeader
    simp only [List.length_append, length_bytesOf]
    rw [hlen 7 8 _ fun _ => length_bytesOf _ _, hlen 8 4 _ fun _ => length_bytesOf _ _, hlen 4 32 _ fun _ => length_bytesOf _ _,
      hlen 64 8 _ fun _ => length_bytesOf _ _]
  have hregs : ((List.range tgt.rc.vregs).flatMap (fun i => vregBytes (vget g.v i vzero))).length = tgt.rc.vregs * 256 := by
    refine hlen _ 256 _ fun i => ?_
    exact hlen 64 4 _ fun _ => length_bytesOf _ _
  unfold CallTarget.frameSize at hx
  unfold State.saveFrame
  dsimp only
  rw [State.read8_write (Memory.write_wf hwf _ _), State.read8_write hwf, hhead, hregs, if_neg (by omega), if_neg (by omega)]

section WithdrawCall
variable {s : State} {g : Group} {c : Nat} {b : Bin} {t : Team} {lanes : List CallLane} {call : Calling}
  (hlanes : s.keyLanes c b.work = lanes) (hold : s.oldestCaller c b.work = some g)
  (hitems : s.withdrawItems c 0 b.work g.id = s.modCore c (fun k => { k with bins := [] })) (ht : s.team? g.team = some t)
  (hcall : g.calling = some call) (hh : s.haltReached g = false)
include hlanes hold hitems ht hcall hh

/-- Where no frame fits, the call takes `FRAMEOVF`. -/
theorem withdrawCall_overflows (harea : s.findArea t call.tgt.frameSize = none) (hw : call.waits g.id lanes = true) :
    s.withdrawCall c 0 b.work = (s.modCore c (fun k => { k with bins := [] })).take { g with wait := none, calling := none }
      (trapOf .frameovf) := by
  unfold State.withdrawCall
  rw [hold]
  dsimp only
  rw [ht, hcall]
  dsimp only
  rw [hh, if_neg Bool.false_ne_true, harea, hlanes]
  dsimp only
  rw [hw, if_pos rfl, hitems]

/-- Else the caller begins to fold them itself. -/
theorem withdrawCall_folds {off : Nat} (harea : s.findArea t call.tgt.frameSize = some off) : s.withdrawCall c 0 b.work =
    State.selfFold ((s.modCore c (fun k => { k with bins := [] })).modTeam t.id
        (fun t => { t with areas := t.areas ++ [(off, call.tgt.frameSize)] })) g call
      ((call.tgt.lanes (membersIn g.id lanes)).filter (fun l => call.tgt.gather || l.w == 0))
      (maskOf (fun i => (membersIn g.id lanes).any (fun m => m.lane.toNat == i))) off := by
  unfold State.withdrawCall
  rw [hold]
  dsimp only
  rw [ht, hcall]
  dsimp only
  rw [hh, if_neg Bool.false_ne_true, harea, hlanes]
  dsimp only
  rw [hitems]

end WithdrawCall

/-- What a self-fold that begins makes of its caller and of memory (R240, R241). -/
theorem selfFold_spec {s : State} {g g0 : Group} {c : Nat} (call : Calling) (lanes : List CallLane) (set : Mask) (off : Nat)
    (hg : s.group? g.id = some g0) (hcore : g.core = some c) (hwf : Memory.wf s.mem = true) :
    ∃ (g' : Group) (f : Fold), (s.selfFold g call lanes set off).group? g.id = some g' ∧ g'.folds = f :: g.folds ∧
      f.frame = off ∧ f.callSlot = g.pc ∧ f.calling = call ∧ f.set = set ∧ g'.pc = call.tgt.entry ∧ g'.depth = g.depth + 1 ∧
      g'.wait = none ∧ (s.selfFold g call lanes set off).cores = s.cores ∧ (s.selfFold g call lanes set off).teams = s.teams ∧
      ∀ x, ¬ (scrLoc c off ≤ x ∧ x < scrLoc c off + call.tgt.frameSize) →
        (s.selfFold g call lanes set off).read8 x = s.read8 x := by
  have hc : g.core.getD 0 = c := by rw [hcore]; rfl
  refine ⟨_, _, State.group?_setGroup_of_id (g0 := g0) hg rfl, rfl, rfl, rfl, rfl, rfl, rfl, rfl, rfl, rfl, rfl, fun x hx => ?_⟩
  rw [← hc] at hx
  exact read8_saveFrame hwf g call.tgt call.creg set _ hx

/-- Settles O48, clause by clause. -/
theorem poolAndBins : Obligations.PoolAndBins := by
  unfold Obligations.PoolAndBins
  refine ⟨?_, ?_, ?_, ?_, ?_, ?_, ?_⟩
  · intro s g c r rest lo hi hc hreq hbins hfree hg hh hw
    have hnot : ¬ Claims.poolHeld s c r := by
      rintro (h | ⟨b, hb, hf, -⟩)
      · omega
      · exact absurd ((hbins b hb).symm.trans hf) Bool.false_ne_true
    show Host.Outcome.next (s.grantPool c) = _
    rw [grantPool_grants hreq hnot hg hh hw, grantHalves_eq]
  · intro s c r rest hreq hheld
    exact congrArg Host.Outcome.next (grantPool_held (Or.inr ⟨r, rest, hreq, hheld⟩))
  · intro s c t holds hc hdue hwhich hres ht hcore hh hold hfirst hroom hsettled
    have htm : t ∈ s.teams := List.mem_of_find?_eq_some ht
    have hvictim : s.nextVictim c = some t := by
      unfold State.nextVictim
      rcases hwhich with ⟨⟨r, rest, hreq, hheld⟩, rfl⟩ | ⟨hnone, ⟨r, rest, hreq, hheld⟩, rfl⟩
      · rw [poolVictim_held hreq hheld, victim_of_candidates (any_blocks_iff s) htm hcore hres hh hold hfirst]
      · rw [poolVictim_none hnone, tileVictim_held hreq hheld,
          victim_of_candidates (any_tiles_iff s) htm hcore hres hh hold hfirst]
    rw [exec_registerGrowCheck hres hdue, hvictim]
    dsimp only
    rw [cutAll_settled hroom ht hcore hsettled, hroom]
  · intro s c hres hdue hnone
    rw [exec_registerGrowCheck hres hdue, nextVictim_none hnone]
  · intro s c i b hb hf hdue
    obtain ⟨ts, n, hadds⟩ := (s.modCore c (fun k => k.fire i s.time)).formSpawn_adds c
    have hfire := Core.fire_eq hb hf s.time
    have hcore (hc : c < 272) : (s.modCore c (fun k => k.fire i s.time)).core c = { s.core c with
        fired := (s.core c).fired + 1,
        bins := (s.core c).bins.set i { b with fired := true, ord := (s.core c).fired + 1, since := s.time } } := by
      rw [State.core_modCore s hc, if_pos rfl, hfire]
      rfl
    refine ⟨_, exec_binFireTimeout hb hf hdue, fun hc => ?_, ?_, ?_, fun q hq => ?_, fun l e v items hwork hc => ?_⟩
    · rw [hadds, ← hcore hc]
      rfl
    · rw [hadds]
      rfl
    · rw [hadds]
      rfl
    · rw [hadds]
      exact List.mem_append_left _ hq
    · refine State.formSpawn_mem (b := { b with fired := true, ord := (s.core c).fired + 1, since := s.time }) ?_ rfl ?_
      · rw [hcore hc]
        exact List.mem_set (List.getElem?_eq_some_iff.1 hb).1 _
      · show b.work.grid = some l
        rw [hwork]
        rfl
  · intro s c i b l entry vregs items hb hfired hwork hroom hfirst hitems hl hpart hp hmove hc hslot hnodup hteams
    obtain ⟨ts, n, hadds⟩ := s.spawnTeam_adds c l.id
    obtain ⟨k, hk, hfree⟩ := hslot
    have hgroups : (s.spawnTeam c l.id).1.groups = s.groups := by rw [hadds]
    obtain ⟨slot, hpick⟩ := pickSlot_isSome (s := (s.spawnTeam c l.id).1) (core := c) (k := k)
      ((mem_freeSlots _ c k).2 ⟨hk, by rw [hgroups]; exact hfree⟩)
    obtain ⟨hslot, hapart⟩ := (mem_freeSlots _ c slot).1 (List.mem_of_find?_eq_some hpick)
    rw [hgroups] at hapart
    obtain ⟨-, hspawn, hlaunch, hcore⟩ := s.spawnTeam_mem c l.id
    refine ⟨_, Group.spawned (s.spawnTeam c l.id).1.nextId (s.spawnTeam c l.id).2 l c slot entry vregs items b.ord
        (s.spawnTeam c l.id).1.time, (s.spawnTeam c l.id).2,
      exec_spawnedGroupStart hb hfired hwork hroom hfirst hl hpart hp hmove hc (fun t ht => (hteams t ht).2) hpick, ?_, ?_,
      State.spawnTeam_team? hnodup (fun t ht => (hteams t ht).1) c l.id, hspawn, hlaunch, hcore, rfl, hslot, hapart, rfl, rfl, rfl,
      rfl, fun r hr => ?_, rfl, rfl, rfl, ?_, ?_, rfl, fun j => ?_, fun j x hx k hk => ?_⟩
    · show (s.spawnTeam c l.id).1.groups ++ _ = _
      rw [hgroups]
    · show ((State.modCore _ c _).core c).bins = _
      rw [State.core_modCore _ hc, if_pos rfl]
      show ((s.spawnTeam c l.id).1.core c).bins.eraseIdx i = _
      rw [hadds]
      rfl
    · by_cases h64 : r < 64
      · exact (vget_vecOf 64 _ r vzero h64).trans (if_neg (by omega))
      · exact List.getD_eq_default _ _ (by rw [Vector.length_toList]; omega)
    · rfl
    · rfl
    · show (maskOf fun i => decide (i < items.length)).getLsbD j = _
      rw [getLsbD_maskOf]
      by_cases hj : j < 64
      · simp [hj]
      · simp [hj]
        omega
    · have hj : j < 64 := (List.getElem?_eq_some_iff.1 hx).1.trans_le hitems
      refine (congrArg (vlane · j) ((vget_vecOf 64 _ k vzero (by omega)).trans (if_pos hk))).trans ?_
      refine (vlane_vreg _ j hj).trans ?_
      dsimp only
      rw [hx]
  · intro s g c off b t tgt lanes call hbins hc hfired hwork ht hcore hres hdue hne hmem hg hteam hgcore hcall htgt hh hwf
    subst htgt
    rw [exec_pooledCallWithdraw hbins hwork hfired ht hcore hres hdue]
    have hlanes := keyLanes_one hbins hwork
    have hold := oldestCaller_one hbins hwork hne hmem hg
    have hitems := withdrawItems_one hbins hwork hmem
    have ht' : s.team? g.team = some t := by rw [hteam]; exact ht
    refine ⟨fun harea hcount => ?_, fun harea => ?_⟩
    · rw [withdrawCall_overflows hlanes hold hitems ht' hcall hh harea (waits_all hmem call hcount)]
    · rw [withdrawCall_folds hlanes hold hitems ht' hcall hh harea]
      obtain ⟨g', f, hg', hfolds, hframe, hslot, hcalling, hset, hpc, hdepth, hwait, hcores, hteams, hmemory⟩ :=
        selfFold_spec (s := (s.modCore c (fun k => { k with bins := [] })).modTeam t.id
            (fun t => { t with areas := t.areas ++ [(off, call.tgt.frameSize)] })) (g := g) call
          ((call.tgt.lanes (membersIn g.id lanes)).filter (fun l => call.tgt.gather || l.w == 0))
          (maskOf (fun i => (membersIn g.id lanes).any (fun m => m.lane.toNat == i))) off hg hgcore hwf
      refine ⟨_, g', f, rfl, ?_, hg', hfolds, hframe, hslot, hcalling, fun j hj => ?_, hpc, hdepth, hwait,
        ⟨{ t with areas := t.areas ++ [(off, call.tgt.frameSize)] }, ?_, rfl⟩, hmemory⟩
      · show (vget (State.cores _) c Core.reset).bins = []
        rw [hcores]
        show ((s.modCore c (fun k => { k with bins := [] })).core c).bins = []
        rw [State.core_modCore s hc, if_pos rfl]
      · rw [hset, getLsbD_maskOf, decide_eq_true hj, Bool.true_and, List.any_eq_true]
        simp only [membersIn_all hmem, beq_iff_eq]
        constructor
        · rintro ⟨m, ⟨x, hx, hm⟩, hj⟩
          exact ⟨x, hx, m, hm, hj⟩
        · rintro ⟨x, hx, m, hm, hj⟩
          exact ⟨m, ⟨x, hx, hm⟩, hj⟩
      · unfold State.team?
        rw [hteams]
        refine (State.team?_modTeam (s.modCore c (fun k => { k with bins := [] })) t.id
          (f := fun t => { t with areas := t.areas ++ [(off, call.tgt.frameSize)] }) (fun _ => rfl) t.id).trans ?_
        rw [show (s.modCore c (fun k => { k with bins := [] })).team? t.id = some t from ht, Option.map_some, if_pos rfl]

end Sys2Proof.Machine

end


section
/-! # O49: placement and swapping (R36, R126, R137 to R142, R148 to R151, R416 to R419) -/

namespace Sys2Proof.Machine

/-! ## The first of equals -/

theorem pickBy_mem {α : Type} {before : α → α → Bool} {l : List α} {x : α} (h : pickBy before l = some x) : x ∈ l := by
  have fold (l : List α) (b : Option α) (h : l.foldl (pickOver before) b = some x) : b = some x ∨ x ∈ l := by
    induction l generalizing b with
    | nil => exact Or.inl h
    | cons a l ih =>
      rcases ih _ h with hb | hl
      · rcases pickOver_some hb with rfl | hb
        · exact Or.inr List.mem_cons_self
        · exact Or.inl hb
      · exact Or.inr (List.mem_cons_of_mem _ hl)
  exact (fold l none h).resolve_left nofun

theorem pickBy_first {α : Type} {before : α → α → Bool} {l m : List α} {t : α} (hl : ∀ q ∈ l, before t q = true)
    (hm : ∀ q ∈ m, before q t = false) : pickBy before (l ++ t :: m) = some t := by
  have hhead : pickOver before (pickBy before l) t = some t := by
    unfold pickOver
    split
    · rfl
    · next x hx => rw [hl x (pickBy_mem hx), if_pos rfl]
  unfold pickBy at hhead ⊢
  rw [List.foldl_append, List.foldl_cons, hhead]
  refine foldl_keeps fun q hq => ?_
  unfold pickOver
  dsimp only
  rw [hm q hq, if_neg Bool.false_ne_true]

/-- The core with most free slots of those that pass, the lowest of equals (R139). -/
theorem bestCore_eq {s : State} {ok : Nat → Bool} {c : Nat} (hc : c < 272) (hok : ok c = true)
    (h : ∀ d < 272, d ≠ c → ok d = true → (s.freeSlots d).length < (s.freeSlots c).length ∨
      (s.freeSlots d).length = (s.freeSlots c).length ∧ c < d) : s.bestCore ok = some c := by
  have hpick : s.bestCore ok =
      pickBy (fun c x => decide ((s.freeSlots x).length < (s.freeSlots c).length)) ((List.range 272).filter ok) := by
    unfold State.bestCore pickBy
    congr 1
    funext b d
    cases b <;> simp [pickOver]
  have hrise : ((List.range 272).filter ok).Pairwise (· < ·) := List.pairwise_lt_range.filter _
  obtain ⟨l, m, hlm⟩ := List.append_of_mem (List.mem_filter.2 ⟨List.mem_range.2 hc, hok⟩)
  have hspec (d : Nat) (hd : d ∈ l ++ c :: m) : d < 272 ∧ ok d = true := by
    rw [← hlm] at hd
    exact ⟨List.mem_range.1 (List.mem_filter.1 hd).1, (List.mem_filter.1 hd).2⟩
  rw [hlm] at hrise
  obtain ⟨-, hcm, hlc⟩ := List.pairwise_append.1 hrise
  rw [hpick, hlm]
  refine pickBy_first (fun d hd => ?_) fun d hd => ?_
  · have hlt : d < c := hlc d hd c List.mem_cons_self
    obtain ⟨hd272, hdok⟩ := hspec d (List.mem_append_left _ hd)
    have := h d hd272 hlt.ne hdok
    rw [decide_eq_true_iff]
    omega
  · have hlt : c < d := List.rel_of_pairwise_cons hcm hd
    obtain ⟨hd272, hdok⟩ := hspec d (List.mem_append_right _ (List.mem_cons_of_mem _ hd))
    have := h d hd272 hlt.ne' hdok
    rw [decide_eq_false_iff_not]
    omega

/-! ## Slots -/

/-- Where at most one slot of a core has been taken. -/
theorem freeSlots_taken {s s' : State} {core slot : Nat} (h : ∀ k ∈ s.freeSlots core, k ≠ slot → k ∈ s'.freeSlots core) :
    (s.freeSlots core).length ≤ (s'.freeSlots core).length + 1 := by
  have hn : (s.freeSlots core).Nodup := List.nodup_range.filter _
  have hsub : ((s.freeSlots core).erase slot) ⊆ s'.freeSlots core := fun k hk =>
    h k (List.mem_of_mem_erase hk) fun e => List.Nodup.not_mem_erase hn (e ▸ hk)
  have hle := (List.subperm_of_subset (hn.erase slot) hsub).length_le
  have : (s.freeSlots core).length - 1 ≤ ((s.freeSlots core).erase slot).length := List.le_length_erase
  omega

theorem pickSlot_of_pos {s : State} {core : Nat} (h : 0 < (s.freeSlots core).length) :
    ∃ slot, s.pickSlot core = some slot ∧ slot ∈ s.freeSlots core := by
  obtain ⟨k, hk⟩ := List.exists_mem_of_length_pos h
  obtain ⟨slot, hslot⟩ := pickSlot_isSome hk
  exact ⟨slot, hslot, List.mem_of_find?_eq_some hslot⟩

/-- The groups of a new team (R126, R138): as they start, each in a free slot of its own. -/
theorem addGroups_spec (t : Team) (l : Launch) (core : Nat) (ns : List Nat) (s : State)
    (h : ns.length ≤ (s.freeSlots core).length) : ∃ gs n, s.addGroups t l core ns = { s with groups := s.groups ++ gs, nextId := n } ∧
      gs.length = ns.length ∧ (gs.map (fun (g : Group) => g.slot)).Nodup ∧ ∀ (i : Nat) (g : Group), gs[i]? = some g →
        ∃ id slot k, ns[i]? = some k ∧ slot ∈ s.freeSlots core ∧ g = Group.launched id t l core slot k s.time := by
  induction ns generalizing s with
  | nil => exact ⟨[], s.nextId, by rw [List.append_nil]; rfl, rfl, List.nodup_nil, fun i g hg => by cases hg⟩
  | cons k ns ih =>
    rw [List.length_cons] at h
    obtain ⟨slot, hpick, hfree⟩ := pickSlot_of_pos (Nat.lt_of_lt_of_le (Nat.succ_pos _) h)
    obtain ⟨g0, hg0⟩ : ∃ g0, g0 = Group.launched s.nextId t l core slot k s.time := ⟨_, rfl⟩
    have hslot0 : g0.slot = slot := by rw [hg0]; rfl
    have hcore0 : g0.core = some core := by rw [hg0]; rfl
    have hadd : s.addGroups t l core (k :: ns) =
        State.addGroups { s with groups := s.groups ++ [g0], nextId := s.nextId + 1 } t l core ns := by
      rw [hg0]
      rw [State.addGroups, hpick]
    have hin (j : Nat) : j ∈ State.freeSlots { s with groups := s.groups ++ [g0], nextId := s.nextId + 1 } core ↔
        j ∈ s.freeSlots core ∧ j ≠ slot := by
      rw [mem_freeSlots, mem_freeSlots]
      constructor
      · rintro ⟨hj, hall⟩
        refine ⟨⟨hj, fun q hq => hall q (List.mem_append_left _ hq)⟩, fun e => ?_⟩
        exact hall g0 (List.mem_append_right _ List.mem_cons_self) hcore0 (hslot0.trans e.symm)
      · rintro ⟨⟨hj, hall⟩, hne⟩
        refine ⟨hj, fun q hq hqc => ?_⟩
        rcases List.mem_append.1 hq with hq | hq
        · exact hall q hq hqc
        · rw [List.mem_singleton.1 hq, hslot0]
          exact hne.symm
    have hlen := freeSlots_taken (s := s) (s' := { s with groups := s.groups ++ [g0], nextId := s.nextId + 1 })
      (core := core) (slot := slot) fun j hj hne => (hin j).2 ⟨hj, hne⟩
    obtain ⟨gs, n, hrest, hgs, hnodup, hspec⟩ := ih { s with groups := s.groups ++ [g0], nextId := s.nextId + 1 } (by omega)
    refine ⟨g0 :: gs, n, ?_, ?_, ?_, fun i g hg => ?_⟩
    · rw [hadd, hrest, List.append_cons s.groups g0 gs]
    · rw [List.length_cons, List.length_cons, hgs]
    · rw [List.map_cons, List.nodup_cons]
      refine ⟨fun hmem => ?_, hnodup⟩
      obtain ⟨g, hg, hgs⟩ := List.mem_map.1 hmem
      obtain ⟨i, hi⟩ := List.mem_iff_getElem?.1 hg
      obtain ⟨id, sl, j, -, hsl, rfl⟩ := hspec i g hi
      exact ((hin sl).1 hsl).2 (hgs.trans hslot0)
    · cases i with
      | zero =>
        obtain rfl := Option.some.inj hg
        exact ⟨s.nextId, slot, k, rfl, hfree, hg0⟩
      | succ i =>
        obtain ⟨id, sl, j, hj, hsl, hgj⟩ := hspec i g hg
        exact ⟨id, sl, j, hj, ((hin sl).1 hsl).1, hgj⟩

/-! ## Bytes of a range -/

theorem Memory.read_filter {m : List Host.Cell} (h : Memory.wf m = true) (p : Nat → Bool) (x : Nat) :
    Memory.read (m.filter (fun c => p c.1)) x = if p x = true then Memory.read m x else 0 := by
  have hr := ((Memory.wf_iff m).1 h).2
  split
  · next hp =>
    refine Memory.read_congr (hr.sublist List.filter_sublist) hr fun b => ?_
    rw [List.mem_filter]
    exact ⟨And.left, fun hb => ⟨hb, hp⟩⟩
  · next hp =>
    refine Memory.read_of_not_mem fun c hc hx => hp ?_
    rw [← hx]
    exact (List.mem_filter.1 hc).2

theorem read8_clearScr {s : State} (h : Memory.wf s.mem = true) (core off size x : Nat) :
    (s.clearScr core off size).read8 x =
      if scrLoc core off ≤ x ∧ x < scrLoc core off + size then 0 else s.read8 x := by
  refine (Memory.read_filter h (fun a => !(decide (scrLoc core off ≤ a) && decide (a < scrLoc core off + size))) x).trans ?_
  by_cases hx : scrLoc core off ≤ x ∧ x < scrLoc core off + size
  · rw [if_pos hx, if_neg]
    simp [hx.1, hx.2]
  · rw [if_neg hx, if_pos]
    · rfl
    · simpa [imp_iff_not_or] using hx

/-- An image holds the bytes of the team's scratchpad. -/
theorem read_scrImage {s : State} (h : Memory.wf s.mem = true) (t : Team) (core : Nat) {o : Nat} (ho : o < s.allocSize t) :
    Memory.read (s.scrImage t core).bytes o = s.read8 (scrLoc core t.off + o) := by
  have him := ((Memory.wf_iff _).1 (State.scrImage_wf h t core)).2
  have hmem := ((Memory.wf_iff _).1 h).2
  have hin (b : Byte) : (o, b) ∈ (s.scrImage t core).bytes ↔ (scrLoc core t.off + o, b) ∈ s.mem := by
    unfold State.scrImage
    dsimp only
    rw [List.mem_map]
    constructor
    · rintro ⟨⟨a, v⟩, hc, heq⟩
      obtain ⟨hcm, hcr⟩ := List.mem_filter.1 hc
      obtain ⟨rfl, rfl⟩ := Prod.mk.inj heq
      rw [Bool.and_eq_true, decide_eq_true_iff, decide_eq_true_iff] at hcr
      dsimp only at hcr ⊢
      rw [Nat.add_sub_cancel' hcr.1]
      exact hcm
    · intro hb
      refine ⟨(scrLoc core t.off + o, b), List.mem_filter.2 ⟨hb, ?_⟩, by rw [Nat.add_sub_cancel_left]⟩
      rw [Bool.and_eq_true, decide_eq_true_iff, decide_eq_true_iff]
      exact ⟨Nat.le_add_right _ _, Nat.add_lt_add_left ho _⟩
  by_cases hb : ∃ b, (scrLoc core t.off + o, b) ∈ s.mem
  · obtain ⟨b, hb⟩ := hb
    exact (Memory.read_mem him ((hin b).2 hb)).trans (Memory.read_mem hmem hb).symm
  · refine (Memory.read_of_not_mem fun c hc hx => hb ⟨c.2, ?_⟩).trans
      (Memory.read_of_not_mem fun c hc hx => hb ⟨c.2, ?_⟩).symm
    · rw [← hin, ← hx]
      exact hc
    · rw [← hx]
      exact hc

/-! ## Cells written one by one -/

theorem Memory.read_putCells_other {m : List Host.Cell} (h : Memory.wf m = true) (lo : Nat) {cells : List Host.Cell} {x : Nat}
    (hx : ∀ c ∈ cells, lo + c.1 ≠ x) :
    Memory.read (cells.foldl (fun m c => Memory.write m (lo + c.1) [c.2]) m) x = Memory.read m x := by
  induction cells generalizing m with
  | nil => rfl
  | cons c cells ih =>
    have hc := hx c List.mem_cons_self
    rw [List.foldl_cons, ih (Memory.write_wf h _ _) fun d hd => hx d (List.mem_cons_of_mem _ hd), Memory.read_write h,
      if_neg (by rw [List.length_singleton]; omega)]

theorem Memory.read_putCells {m : List Host.Cell} (h : Memory.wf m = true) (lo : Nat) {cells : List Host.Cell}
    (hr : cells.Pairwise (fun c d => c.1 < d.1)) {c : Host.Cell} (hc : c ∈ cells) :
    Memory.read (cells.foldl (fun m c => Memory.write m (lo + c.1) [c.2]) m) (lo + c.1) = c.2 := by
  induction cells generalizing m with
  | nil => cases hc
  | cons d cells ih =>
    obtain ⟨hd, hr⟩ := List.pairwise_cons.1 hr
    rw [List.foldl_cons]
    rcases List.mem_cons.1 hc with rfl | hc
    · rw [Memory.read_putCells_other (Memory.write_wf h _ _) lo fun e he => ?_, Memory.read_write h, if_pos (by simp), Nat.sub_self]
      · rfl
      · have := hd e he
        omega
    · exact ih (Memory.write_wf h _ _) hr hc

/-- An image read back (R419): its bytes, and nothing outside the allocation. -/
theorem read8_loadImage {s : State} (h : Memory.wf s.mem = true) (t : Team) (core : Nat) {im : ScrImage}
    (him : Memory.wf im.bytes = true) {o : Nat} (ho : o < s.allocSize t) :
    (s.loadImage t core im).read8 (scrLoc core t.off + o) = Memory.read im.bytes o := by
  have hwf : Memory.wf (s.clearScr core t.off (s.allocSize t)).mem = true := Memory.wf_filter _ h
  have hr := ((Memory.wf_iff _).1 him).2
  show Memory.read (im.bytes.foldl (fun m c => Memory.write m (scrLoc core t.off + c.1) [c.2])
    (s.clearScr core t.off (s.allocSize t)).mem) _ = _
  by_cases hb : ∃ c ∈ im.bytes, c.1 = o
  · obtain ⟨⟨a, b⟩, hc, rfl⟩ := hb
    exact (Memory.read_putCells hwf _ hr hc).trans (Memory.read_mem hr hc).symm
  · rw [Memory.read_putCells_other hwf _ fun c hc hx => hb ⟨c, hc, by omega⟩,
      Memory.read_of_not_mem (m := im.bytes) fun c hc hx => hb ⟨c, hc, hx⟩]
    refine (read8_clearScr h core t.off (s.allocSize t) _).trans (if_pos ?_)
    omega

theorem read8_loadImage_other {s : State} (h : Memory.wf s.mem = true) (t : Team) (core : Nat) {im : ScrImage}
    (hin : ∀ c ∈ im.bytes, c.1 < s.allocSize t) {x : Nat}
    (hx : ¬ (scrLoc core t.off ≤ x ∧ x < scrLoc core t.off + s.allocSize t)) : (s.loadImage t core im).read8 x = s.read8 x := by
  have hwf : Memory.wf (s.clearScr core t.off (s.allocSize t)).mem = true := Memory.wf_filter _ h
  refine (Memory.read_putCells_other hwf _ fun c hc hcx => ?_).trans
    ((read8_clearScr h core t.off (s.allocSize t) x).trans (if_neg hx))
  have := hin c hc
  omega

/-! ## First placement (R126, R137 to R140) -/

/-- A new team on a core (R126, R140). -/
def Team.placed (id : Nat) (l : Launch) (n core off : Nat) (now : Word64) : Team :=
  { Team.blank id l.id n now with
    core := some core, home := core, off := off, past := [(core, off, l.vals.scratch + l.vals.frstk)],
    tids := List.replicate l.vals.tq none, scale := List.replicate (64 * l.vals.smw) 0,
    dts := List.replicate l.vals.dtc (List.replicate 256 0), streams := List.replicate l.vals.strm Stream.zero,
    kts := List.replicate l.vals.kq none }

theorem placeOn_eq (s : State) (l : Launch) (n core off : Nat) : s.placeOn l n core off =
    State.addGroups { s.clearScr core off (l.vals.scratch + l.vals.frstk) with
      teams := s.teams ++ [Team.placed s.nextId l n core off s.time], nextId := s.nextId + 1 }
      (Team.placed s.nextId l n core off s.time) l core (List.range l.vals.tgrp) := rfl

section Placement
variable {s : State} {l : Launch} {c o size : Nat} (hsize : size = l.vals.scratch + l.vals.frstk) (hc : c < 272)
  (hopen : s.coreOpen l.part c = true) (hfits : s.coreFits c l.vals l.vals.tgrp 0 0 = true) (hoff : s.lowestOff c size = some o)
  (hbest : ∀ d < 272, d ≠ c → s.coreOpen l.part d = true → s.coreFits d l.vals l.vals.tgrp 0 0 = true →
    s.lowestOff d size ≠ none → (s.freeSlots d).length < (s.freeSlots c).length ∨
      (s.freeSlots d).length = (s.freeSlots c).length ∧ c < d)
include hsize hc hopen hfits hoff hbest

theorem placeTeam_eq (n : Nat) : s.placeTeam l n = some (s.placeOn l n c o) := by
  subst hsize
  have hcore : s.bestCore (fun c => s.coreOpen l.part c && s.coreFits c l.vals l.vals.tgrp 0 0 &&
      (s.lowestOff c (l.vals.scratch + l.vals.frstk)).isSome) = some c := by
    refine bestCore_eq hc ?_ fun d hd hne hok => ?_
    · rw [hopen, hfits, hoff]
      rfl
    · rw [Bool.and_eq_true, Bool.and_eq_true] at hok
      obtain ⟨⟨hdo, hdf⟩, hdl⟩ := hok
      refine hbest d hd hne hdo hdf fun hnone => ?_
      rw [hnone] at hdl
      cases hdl
  unfold State.placeTeam
  dsimp only
  rw [hcore]
  dsimp only
  rw [hoff]
  rfl

/-- The next team of a launch, alone in its cohort. -/
theorem placeCohort_one (hcoht : l.vals.coht = 1) (hnext : l.next < l.vals.gx * l.vals.gy * l.vals.gz) : s.placeCohort l =
    some ((s.placeOn l l.next c o).modLaunch l.id (fun k => { k with next := l.next + 1, nofit := false })) := by
  have hcohort : l.nextCohort = [l.next] := by
    have hmin : min (l.next + max 1 l.vals.coht) l.total = l.next + 1 := by
      rw [hcoht]
      exact Nat.min_eq_left hnext
    unfold Launch.nextCohort
    dsimp only
    rw [hmin, Nat.add_sub_cancel_left]
    rfl
  unfold State.placeCohort
  rw [hcohort, List.foldlM_cons, placeTeam_eq hsize hc hopen hfits hoff hbest]
  rfl

end Placement

theorem exec_teamPlace {s u : State} {p : BitVec 3} {w : Waiting} {l l' : Launch} (hw : s.firstWaiting p.toNat = some w)
    (hwhat : w.what = .new l.id) (hl : s.launch? l.id = some l) (hplace : s.placeCohort l = some u)
    (hl' : u.launch? l.id = some l') (hcoll : l'.coll = none) : exec (.teamPlace p) s = .next u := by
  obtain ⟨prio, time, queue, cohort, what⟩ := w
  obtain rfl : what = .new l.id := hwhat
  have hstart : u.startAttached l.id = u := by
    unfold State.startAttached
    rw [hl']
    dsimp only
    rw [hcoll]
  show execTeamPlace p s = _
  unfold execTeamPlace
  rw [hw]
  dsimp only
  rw [hl]
  dsimp only
  rw [hplace]
  dsimp only
  rw [hstart]

/-- The clause of the first placement. -/
theorem placement_spec {s : State} {p : BitVec 3} {w : Waiting} {l : Launch} {c o size : Nat}
    (hw : s.firstWaiting p.toNat = some w) (hwhat : w.what = .new l.id) (hl : s.launch? l.id = some l) (hcoll : l.coll = none)
    (hcoht : l.vals.coht = 1) (hnext : l.next < l.vals.gx * l.vals.gy * l.vals.gz)
    (hsize : size = l.vals.scratch + l.vals.frstk) (hc : c < 272)
    (hopen : s.coreOpen l.part c = true) (hfits : s.coreFits c l.vals l.vals.tgrp 0 0 = true) (hoff : s.lowestOff c size = some o)
    (hbest : ∀ d < 272, d ≠ c → s.coreOpen l.part d = true → s.coreFits d l.vals l.vals.tgrp 0 0 = true →
      s.lowestOff d size ≠ none → (s.freeSlots d).length < (s.freeSlots c).length ∨
        (s.freeSlots d).length = (s.freeSlots c).length ∧ c < d) :
    ∃ (u : State) (gs : List Group), exec (.teamPlace p) s = .next u ∧
      u.teams = s.teams ++ [Team.placed s.nextId l l.next c o s.time] ∧ u.groups = s.groups ++ gs ∧
      u.launch? l.id = some { l with next := l.next + 1, nofit := false } ∧ u.mem = (s.clearScr c o size).mem ∧
      gs.length = l.vals.tgrp ∧ (gs.map (fun (g : Group) => g.slot)).Nodup ∧ ∀ (i : Nat) (g : Group), gs[i]? = some g →
        ∃ id slot, slot ∈ s.freeSlots c ∧
          g = Group.launched id (Team.placed s.nextId l l.next c o s.time) l c slot i s.time := by
  have hlen : (List.range l.vals.tgrp).length ≤ (s.freeSlots c).length := by
    rw [List.length_range]
    unfold State.coreFits at hfits
    simp only [Bool.and_eq_true, decide_eq_true_iff] at hfits
    obtain ⟨⟨⟨⟨⟨⟨⟨hslots, -⟩, -⟩, -⟩, -⟩, -⟩, -⟩, -⟩ := hfits
    exact hslots
  obtain ⟨gs, n, hadd, hgs, hnodup, hspec⟩ := addGroups_spec (Team.placed s.nextId l l.next c o s.time) l c
    (List.range l.vals.tgrp) { s.clearScr c o (l.vals.scratch + l.vals.frstk) with
      teams := s.teams ++ [Team.placed s.nextId l l.next c o s.time], nextId := s.nextId + 1 } hlen
  have hplaced : s.placeOn l l.next c o = { s.clearScr c o (l.vals.scratch + l.vals.frstk) with
      teams := s.teams ++ [Team.placed s.nextId l l.next c o s.time], groups := s.groups ++ gs, nextId := n } :=
    (placeOn_eq s l l.next c o).trans hadd
  have hcohort := placeCohort_one hsize hc hopen hfits hoff hbest hcoht hnext
  have hlaunch : ((s.placeOn l l.next c o).modLaunch l.id (fun k => { k with next := l.next + 1, nofit := false })).launch? l.id =
      some { l with next := l.next + 1, nofit := false } := by
    rw [State.launch?_modLaunch (s.placeOn l l.next c o) l.id (f := fun k => { k with next := l.next + 1, nofit := false })
      (fun _ => rfl) l.id]
    have hl0 : (s.placeOn l l.next c o).launch? l.id = some l := by
      rw [hplaced]
      exact hl
    rw [hl0, Option.map_some, if_pos rfl]
  refine ⟨_, gs, exec_teamPlace hw hwhat hl hcohort hlaunch hcoll, ?_, ?_, hlaunch, ?_, ?_, hnodup, fun i g hg => ?_⟩
  · show (s.placeOn l l.next c o).teams = _
    rw [hplaced]
  · show (s.placeOn l l.next c o).groups = _
    rw [hplaced]
  · show (s.placeOn l l.next c o).mem = _
    rw [hplaced, hsize]
  · rw [hgs, List.length_range]
  · obtain ⟨id, slot, k, hk, hslot, rfl⟩ := hspec i g hg
    obtain ⟨hi, rfl⟩ := List.getElem?_eq_some_iff.1 hk
    rw [List.getElem_range]
    exact ⟨id, slot, hslot, rfl⟩

/-! ## Cuts (R36, R148, R416) -/

theorem exec_timeSliceExpiry {s : State} {t : Team} {l : Launch} {c : Nat} {w : Waiting} (ht : s.team? t.id = some t)
    (hl : s.launch? t.launch = some l) (hcohort : s.cohortTeams t = [t]) (hc : t.core = some c) (hres : t.swap = .resident)
    (hslice : s.sliceNs l.prio ≤ (s.time - t.since).toNat) (hhalt : (s.part l.part).halted = false)
    (hw : w ∈ s.waitingAll l.part) (hprio : l.prio ≤ w.prio) (hnow : s.waitingFits w = false)
    (hthen : (s.without [t]).waitingFits w = true) :
    exec (.timeSliceExpiry t.id) s = .next (s.cutAll l.part [t]) := by
  have hts : (s.cohortTeams t).filter (fun u => u.core.isSome) = [t] := by
    rw [hcohort, List.filter_cons_of_pos (by rw [hc]; rfl), List.filter_nil]
  have hwanted : ((s.waitingAll l.part).any fun w =>
      decide (l.prio ≤ w.prio) && !s.waitingFits w && (s.without [t]).waitingFits w) = true := by
    refine List.any_eq_true.2 ⟨w, hw, ?_⟩
    rw [hnow, hthen, decide_eq_true hprio]
    rfl
  show execTimeSliceExpiry t.id s = _
  unfold execTimeSliceExpiry
  rw [ht]
  dsimp only
  rw [hl]
  dsimp only
  rw [hts, hwanted]
  refine if_pos ?_
  rw [hc, hhalt, List.all_cons, List.all_nil, hres, decide_eq_true hslice]
  rfl

theorem exec_swapCut {s : State} {t : Team} {c : Nat} (ht : s.team? t.id = some t) (hc : t.core = some c)
    (hres : t.swap = .resident) (hmove : (s.core c).moving = true) :
    exec (.swapCut t.id) s = .next (s.cutAll (s.partOf t) [t]) := by
  show execSwapCut t.id s = _
  unfold execSwapCut
  rw [ht]
  dsimp only
  rw [hc]
  dsimp only
  refine if_pos ?_
  rw [hres, hmove]
  rfl

/-! ## Swapping out (R149, R150, R416, R417) -/

theorem endGrow_eq (s : State) (c : Nat) : ∃ cores, s.endGrow c = { s with cores := cores } := by
  unfold State.endGrow
  split
  · exact ⟨_, rfl⟩
  · exact ⟨s.cores, rfl⟩

/-- A team as it is once its image is written. -/
def Team.away (t : Team) (now : Word64) (im : ScrImage) (bins : List Bin) : Team :=
  { t with core := none, swap := .out, since := now, image := some im, bins := t.bins ++ bins }

theorem swapOut_eq (s : State) (t : Team) (c : Nat) : ∃ cores bins, s.swapOut t c =
    { (s.clearScr c t.off (s.allocSize t)).modTeam t.id (fun t' => t'.away s.time (s.scrImage t c) bins) with
      cores := cores
      groups := s.groups.map (fun (g : Group) => if g.team == t.id then { g with core := none, line := none } else g) } :=
  ⟨_, _, rfl⟩

theorem exec_swapOutComplete {s : State} {t : Team} {c : Nat} (ht : s.team? t.id = some t) (hc : t.core = some c)
    (hcut : t.swap = .cut) (hdrained : s.drained t = true) :
    exec (.swapOutComplete t.id) s = .next ((s.swapOut t c).endGrow c) := by
  show execSwapOutComplete t.id s = _
  unfold execSwapOutComplete
  rw [ht]
  dsimp only
  rw [hc]
  dsimp only
  refine if_pos ?_
  rw [hcut, hdrained]
  rfl

/-! ## Sorted lists -/

theorem insertBy_perm {α : Type} (f : α → Nat) (a : α) (l : List α) : (insertBy f a l).Perm (a :: l) := by
  induction l with
  | nil => exact List.Perm.refl _
  | cons b l ih =>
    unfold insertBy
    split
    · exact List.Perm.refl _
    · exact (ih.cons b).trans (List.Perm.swap a b l)

theorem sortBy_perm {α : Type} (f : α → Nat) (l : List α) : (sortBy f l).Perm l := by
  have fold (l acc : List α) : (l.foldl (fun acc a => insertBy f a acc) acc).Perm (l ++ acc) := by
    induction l generalizing acc with
    | nil => exact List.Perm.refl _
    | cons a l ih =>
      rw [List.foldl_cons, List.cons_append]
      exact (ih _).trans (((insertBy_perm f a acc).append_left l).trans List.perm_middle)
  simpa [sortBy] using fold l []

/-! ## The groups of a team that comes back (R138, R419) -/

/-- A group as it takes its slot anew. -/
def Group.reslotted (g : Group) (core slot : Nat) (now : Word64) (ev : BitVec 16) (peergen : Word32) : Group :=
  { g with
    core := some core, slot := slot, line := none, created := now,
    wait := match g.wait with | some (.phase ..) => some .barrier | w => w,
    firmware := g.firmware.map Firmware.again, evpend := g.evpend ||| ev ||| 4, peergen := peergen }

theorem reslot_cons {s : State} {core id slot : Nat} {ev : BitVec 16} {peergen : Word32} {g : Group} (hg : s.group? id = some g)
    (hslot : s.pickSlot core = some slot) (rest : List Nat) : s.reslot core ev peergen (id :: rest) =
      (s.setGroup (g.reslotted core slot s.time ev peergen)).reslot core ev peergen rest := by
  rw [State.reslot, hg, hslot]
  rfl

/-- What a group that takes its slot anew keeps of what could move it on. -/
def Group.SameWork (g q : Group) : Prop :=
  q.team = g.team ∧ q.allPend = g.allPend ∧ (g.wait = none → q.wait = none)

theorem Group.SameWork.refl (g : Group) : g.SameWork g := ⟨rfl, rfl, fun h => h⟩

theorem Group.SameWork.trans {g q r : Group} (h : g.SameWork q) (h' : q.SameWork r) : g.SameWork r :=
  ⟨h'.1.trans h.1, h'.2.1.trans h.2.1, fun hw => h'.2.2 (h.2.2 hw)⟩

theorem Group.sameWork_reslotted (g : Group) (core slot : Nat) (now : Word64) (ev : BitVec 16) (peergen : Word32) :
    g.SameWork (g.reslotted core slot now ev peergen) :=
  ⟨rfl, rfl, fun hw => by unfold Group.reslotted; dsimp only; rw [hw]⟩

/-- Each group named takes a slot, and nothing but the groups changes. -/
theorem reslot_spec (core : Nat) (ev : BitVec 16) (peergen : Word32) (ids : List Nat) (s : State) (hn : ids.Nodup)
    (hin : ∀ id ∈ ids, ∃ g, s.group? id = some g) (hlen : ids.length ≤ (s.freeSlots core).length) :
    ∃ gs, s.reslot core ev peergen ids = { s with groups := gs } ∧
      gs.map (fun (g : Group) => g.id) = s.groups.map (fun (g : Group) => g.id) ∧
      (∀ q ∈ gs, ∃ g ∈ s.groups, g.SameWork q) ∧
      (∀ id, id ∉ ids → State.group? { s with groups := gs } id = s.group? id) ∧
      ∀ id ∈ ids, ∀ g, s.group? id = some g →
        ∃ slot, State.group? { s with groups := gs } id = some (g.reslotted core slot s.time ev peergen) := by
  induction ids generalizing s with
  | nil => exact ⟨s.groups, rfl, rfl, fun q hq => ⟨q, hq, .refl q⟩, fun id _ => rfl, fun id hid => by cases hid⟩
  | cons id ids ih =>
    obtain ⟨hid, hn⟩ := List.nodup_cons.1 hn
    obtain ⟨g, hg⟩ := hin id List.mem_cons_self
    rw [List.length_cons] at hlen
    obtain ⟨slot, hpick, hfree⟩ := pickSlot_of_pos (Nat.lt_of_lt_of_le (Nat.succ_pos _) hlen)
    obtain ⟨g1, hg1⟩ : ∃ g1, g1 = g.reslotted core slot s.time ev peergen := ⟨_, rfl⟩
    have hid1 : g1.id = id := by
      rw [hg1]
      exact State.group?_id (g := g) hg
    have hself : (s.setGroup g1).group? id = some g1 :=
      (congrArg (s.setGroup g1).group? hid1.symm).trans (State.group?_setGroup_of_id (g0 := g) (by rw [hid1]; exact hg) rfl)
    have hother (k : Nat) (hk : k ≠ id) : (s.setGroup g1).group? k = s.group? k :=
      State.group?_setGroup_ne (by rw [hid1]; exact hk)
    have hmap : (s.setGroup g1).groups.map (fun (g : Group) => g.id) = s.groups.map (fun (g : Group) => g.id) := by
      unfold State.setGroup
      rw [List.map_map]
      refine List.map_congr_left fun q _ => ?_
      dsimp only [Function.comp]
      split
      · next h => exact (beq_iff_eq.1 h).symm
      · rfl
    have hslots := freeSlots_taken (s := s) (s' := s.setGroup g1) (core := core) (slot := slot) fun k hk hne => by
      rw [mem_freeSlots] at hk ⊢
      refine ⟨hk.1, fun q hq hqc => ?_⟩
      obtain ⟨q0, hq0, rfl⟩ := List.mem_map.1 hq
      split at hqc
      · next h =>
        rw [if_pos h, hg1]
        exact fun e => hne e.symm
      · next h =>
        rw [if_neg h]
        exact hk.2 q0 hq0 hqc
    obtain ⟨gs, hrest, hids, hsrc, hkeep, hgot⟩ := ih (s.setGroup g1) hn
      (fun k hk => by
        rw [hother k fun e => hid (e ▸ hk)]
        exact hin k (List.mem_cons_of_mem _ hk)) (by omega)
    refine ⟨gs, ?_, hids.trans hmap, fun q hq => ?_, fun k hk => ?_, fun k hk h hh => ?_⟩
    · rw [reslot_cons hg hpick, ← hg1, hrest]
      rfl
    · obtain ⟨q0, hq0, hwork⟩ := hsrc q hq
      obtain ⟨q1, hq1, rfl⟩ := List.mem_map.1 hq0
      split at hwork
      · exact ⟨g, List.mem_of_find?_eq_some hg, (hg1 ▸ g.sameWork_reslotted core slot s.time ev peergen : g.SameWork g1).trans hwork⟩
      · exact ⟨q1, hq1, hwork⟩
    · have hne : k ≠ id := fun e => hk (e ▸ List.mem_cons_self)
      exact (hkeep k fun h => hk (List.mem_cons_of_mem _ h)).trans (hother k hne)
    · rcases List.mem_cons.1 hk with rfl | hk
      · obtain rfl := Option.some.inj (hg.symm.trans hh)
        exact ⟨slot, (hkeep k hid).trans (hself.trans (congrArg some hg1))⟩
      · have hne : k ≠ id := fun e => hid (e ▸ hk)
        exact hgot k hk h ((hother k hne).trans hh)

/-! ## Resuming (R139, R142, R419) -/

theorem wakeLatches_eq (s : State) (t : Team) (core : Nat) : ∃ cores, s.wakeLatches t core = { s with cores := cores } := by
  have fold (ks : List Gang) (s : State) : ∃ cores, ks.foldl (fun s k => s.wakeSubs k core) s = { s with cores := cores } := by
    induction ks generalizing s with
    | nil => exact ⟨s.cores, rfl⟩
    | cons k ks ih =>
      obtain ⟨cores, h⟩ := ih (s.wakeSubs k core)
      exact ⟨cores, h⟩
  exact fold _ s

theorem rebaseCmds_eq (s : State) (ts : List Team) : ∃ cmds gangs, s.rebaseCmds ts = { s with cmds := cmds, gangs := gangs } := by
  unfold State.rebaseCmds
  dsimp only
  split
  · exact ⟨s.cmds, s.gangs, rfl⟩
  · exact ⟨_, _, rfl⟩

/-- A group without results has no load to issue again. -/
theorem reissueAll_none {s : State} {g : Group} (h : g.allPend = []) : s.reissueAll g = g := by
  have hshadow (x : Option Shadow) (hx : (match x with | some sh => sh.pend | none => []) = []) :
      x.map (fun sh => { sh with pend := sh.pend.map (s.reissue (s.accessor g)) }) = x := by
    cases x with
    | none => rfl
    | some sh =>
      have hsh : sh.pend = [] := hx
      cases sh
      obtain rfl := hsh
      rfl
  unfold Group.allPend at h
  rw [List.append_eq_nil_iff, List.append_eq_nil_iff, List.append_eq_nil_iff] at h
  obtain ⟨⟨⟨hpend, hh⟩, hs⟩, hf⟩ := h
  have hfolds : g.folds.map (fun f => { f with pend := f.pend.map (s.reissue (s.accessor g)) }) = g.folds := by
    conv_rhs => rw [← List.map_id g.folds]
    refine List.map_congr_left fun f hfm => ?_
    have hfp : f.pend = [] := (List.flatMap_eq_nil_iff.1 hf) f hfm
    cases f
    obtain rfl := hfp
    rfl
  unfold State.reissueAll
  dsimp only
  rw [hshadow _ hh, hshadow _ hs, hfolds, hpend, List.map_nil, ← hpend]

/-- Nothing that a release could give a team's groups, and no result of theirs. -/
def State.Quiet (s : State) (t : Team) : Prop :=
  ∀ g ∈ s.groups, g.team = t.id → g.wait = none ∧ g.allPend = []

/-- The numbers of groups of a team. -/
def State.MineOf (s : State) (t : Team) (ids : List Nat) : Prop :=
  ∀ id ∈ ids, ∀ g, s.group? id = some g → g.team = t.id

theorem grantXgrow_quiet {s : State} {g : Group} (h : g.wait = none) (core : Nat) : s.grantXgrow core g = s := by
  unfold State.grantXgrow
  rw [h]

theorem gangWaits_quiet {s : State} {t : Team} (hq : s.Quiet t) : s.gangWaits t = [] := by
  unfold State.gangWaits
  rw [List.filterMap_eq_nil_iff]
  intro g hg
  split
  · next w _ hw =>
    refine if_neg fun h => ?_
    rw [Bool.and_eq_true, Bool.and_eq_true, beq_iff_eq] at h
    rw [(hq g hg h.1.1).1] at hw
    cases hw
  · rfl

theorem grantResumed_quiet {s : State} {t : Team} {ids : List Nat} (hq : s.Quiet t) (hm : s.MineOf t ids) (core : Nat) :
    s.grantResumed t core ids = s := by
  unfold State.grantResumed
  dsimp only
  rw [foldl_keeps (b := s) (l := ids), gangWaits_quiet hq]
  · rfl
  · intro id hid
    split
    · next g hg => exact grantXgrow_quiet (hq g (List.mem_of_find?_eq_some hg) (hm id hid g hg)).1 core
    · rfl

theorem reissue_quiet {s : State} {t : Team} {id : Nat} {g : Group} (hq : s.Quiet t)
    (hn : (s.groups.map (fun (g : Group) => g.id)).Nodup) (hg : s.group? id = some g) (ht : g.team = t.id) :
    (s.setGroup (s.reissueAll g)).settleLoads id = s := by
  have hgm := List.mem_of_find?_eq_some hg
  have hnone := (hq g hgm ht).2
  rw [reissueAll_none hnone, State.setGroup_same fun k hk hkid => List.inj_on_of_nodup_map hn hk hgm hkid,
    settleLoads_none hg hnone]

/-- A team as it comes back. -/
def Team.back (t : Team) (s : State) (core : Nat) (peergen : Word32) : Team :=
  { t with core := some core, home := core, swap := .resident, since := s.time, raised := false, nofit := false,
           peergen := peergen, past := (t.past ++ [(core, t.off, s.allocSize t)]).eraseDups, image := none, held := [],
           bins := [], evpend := 0 }

/-- The groups of a team, in the order in which they take their slots (R138). -/
def State.slotOrder (s : State) (t : Team) : List Nat :=
  (sortBy (fun (g : Group) => match g.kind with | .launched => g.index.toNat | _ => 2 ^ 32)
    (s.groups.filter (fun g => g.team == t.id))).map (fun g => g.id)

/-- The machine with a team's image and its groups back. -/
def State.brought (s : State) (t : Team) (core : Nat) (im : ScrImage) : State :=
  ((s.loadImage t core im).modTeam t.id (fun x => x.back s core (t.peergen + 0))).reslot core t.evpend
    (t.peergen + 0) (s.slotOrder t)

/-- The commands of a team that has come back follow it, and its partition's swap area has room. -/
def State.followed (s : State) (t : Team) (core : Nat) : State :=
  let s5 : State := { s.modCore core (fun c => c) with
    cmds := s.cmds.map (fun (c : Cmd) => if c.team == t.id then { c with core := core } else c) }
  s5.modPart (s5.partOf t) (fun p => { p with swapFull := false })

theorem followed_eq (s : State) (t : Team) (core : Nat) :
    ∃ cores cmds parts, s.followed t core = { s with cores := cores, cmds := cmds, parts := parts } := ⟨_, _, _, rfl⟩

theorem resumeOn_eq {s : State} {t : Team} {core : Nat} {im : ScrImage} (hspawn : t.spawn = false) (him : t.image = some im)
    (hheld : t.held = []) (hbins : t.bins = []) (hq : (s.brought t core im).Quiet t)
    (hm : (s.brought t core im).MineOf t (s.slotOrder t))
    (hn : ((s.brought t core im).groups.map (fun (g : Group) => g.id)).Nodup) : ∃ cores cmds parts,
      s.resumeOn t core false = { s.brought t core im with cores := cores, cmds := cmds, parts := parts } := by
  obtain ⟨cores, cmds, parts, hfollowed⟩ := followed_eq (s.brought t core im) t core
  obtain ⟨u, hu⟩ : ∃ u, u = (s.brought t core im).followed t core := ⟨_, rfl⟩
  rw [← hu] at hfollowed
  have hqu : u.Quiet t := by rw [hfollowed]; exact hq
  have hmu : u.MineOf t (s.slotOrder t) := by rw [hfollowed]; exact hm
  obtain ⟨cores', hwake⟩ := wakeLatches_eq u t core
  have hqw : (u.wakeLatches t core).Quiet t := by rw [hwake]; exact hqu
  have hmw : (u.wakeLatches t core).MineOf t (s.slotOrder t) := by rw [hwake]; exact hmu
  have hnw : ((u.wakeLatches t core).groups.map (fun (g : Group) => g.id)).Nodup := by rw [hwake, hfollowed]; exact hn
  refine ⟨cores', cmds, parts, ?_⟩
  have hfinal : u.wakeLatches t core = { s.brought t core im with cores := cores', cmds := cmds, parts := parts } := by
    rw [hwake, hfollowed]
  rw [← hfinal]
  unfold State.resumeOn
  dsimp only
  rw [him, hheld, hbins]
  dsimp only
  rw [hspawn, if_neg Bool.false_ne_true]
  show State.mergeSpawn (List.foldl _ ((((s.brought t core im).followed t core).grantResumed t core (s.slotOrder t)).wakeLatches
    t core) (s.slotOrder t)) t core = _
  rw [← hu, grantResumed_quiet hqu hmu]
  rw [foldl_keeps (b := u.wakeLatches t core) (l := s.slotOrder t)]
  · unfold State.mergeSpawn
    rw [hspawn]
    split <;> rfl
  · intro id hid
    split
    · next g hg => exact reissue_quiet hqw hnw hg (hmw id hid g hg)
    · rfl

/-! ### What the team finds when it is back -/

section Back
variable {s : State} {t : Team} {c : Nat} {im : ScrImage} (hn : (s.groups.map (fun (g : Group) => g.id)).Nodup)
  (hlen : (s.groups.filter (fun g => g.team == t.id)).length ≤ (s.freeSlots c).length)
include hn

theorem mem_slotOrder (id : Nat) : id ∈ s.slotOrder t ↔ ∃ g, s.group? id = some g ∧ g.team = t.id := by
  unfold State.slotOrder
  rw [List.mem_map]
  simp only [(sortBy_perm _ _).mem_iff, List.mem_filter, beq_iff_eq]
  constructor
  · rintro ⟨g, ⟨hg, ht⟩, rfl⟩
    exact ⟨g, group?_of_nodup hn hg, ht⟩
  · rintro ⟨g, hg, ht⟩
    exact ⟨g, ⟨List.mem_of_find?_eq_some hg, ht⟩, State.group?_id hg⟩

theorem slotOrder_nodup : (s.slotOrder t).Nodup := by
  unfold State.slotOrder
  refine ((sortBy_perm _ _).map _).nodup_iff.2 ?_
  exact hn.sublist (List.filter_sublist.map _)

include hlen

/-- The groups are back in slots of the core, the rest of the machine as with the image loaded. -/
theorem brought_spec : ∃ gs, s.brought t c im = { s.loadImage t c im with
      teams := s.teams.map (fun x => if x.id == t.id then x.back s c (t.peergen + 0) else x), groups := gs } ∧
    gs.map (fun (g : Group) => g.id) = s.groups.map (fun (g : Group) => g.id) ∧
    (∀ q ∈ gs, ∃ g ∈ s.groups, g.SameWork q) ∧
    ∀ g ∈ s.groups, g.team = t.id → ∃ slot, (s.brought t c im).group? g.id =
      some (g.reslotted c slot s.time t.evpend (t.peergen + 0)) := by
  obtain ⟨gs, heq, hids, hwork, -, hgot⟩ := reslot_spec c t.evpend (t.peergen + 0) (s.slotOrder t)
    ((s.loadImage t c im).modTeam t.id (fun x => x.back s c (t.peergen + 0))) (slotOrder_nodup hn)
    (fun id hid => by
      obtain ⟨g, hg, -⟩ := (mem_slotOrder hn id).1 hid
      exact ⟨g, hg⟩)
    (by
      refine le_trans (le_of_eq ?_) hlen
      unfold State.slotOrder
      rw [List.length_map, (sortBy_perm _ _).length_eq])
  refine ⟨gs, heq, hids, hwork, fun g hg ht => ?_⟩
  obtain ⟨slot, h⟩ := hgot g.id ((mem_slotOrder hn g.id).2 ⟨g, group?_of_nodup hn hg, ht⟩) g (group?_of_nodup hn hg)
  refine ⟨slot, ?_⟩
  unfold State.brought
  rw [heq]
  exact h

end Back

/-- A team that is alone in its cohort comes back on the core of most free slots. -/
theorem resumeCohort_one {s : State} {t : Team} {c : Nat} (hout : t.swap = .out) (hspawn : t.spawn = false)
    (hcohort : s.cohortTeams t = [t]) (hcoht : (s.valsOf t).coht ≤ 1) (hc : c < 272) (hfits : s.resumeFits t c = true)
    (hbest : ∀ d < 272, d ≠ c → s.resumeFits t d = true → (s.freeSlots d).length < (s.freeSlots c).length ∨
      (s.freeSlots d).length = (s.freeSlots c).length ∧ c < d) :
    s.resumeCohort t = some ((s.resumeOn t c false).rebaseCmds [t]) := by
  have hbound : s.bound t = false := by
    unfold State.bound
    rw [hspawn, Bool.not_false, Bool.true_and, decide_eq_false_iff_not]
    omega
  have hmove : s.mustMove [t] = false := by
    unfold State.mustMove
    rw [List.any_cons, List.any_nil, hbound]
    rfl
  have hcore : s.bestCore (fun d => (!s.bound t || d == t.home) && s.resumeFits t d) = some c := by
    rw [hbound]
    exact bestCore_eq hc hfits hbest
  unfold State.resumeCohort
  dsimp only
  rw [hcohort, hmove, List.filter_cons_of_pos (by rw [hout]; rfl), List.filter_nil, List.any_cons, List.any_nil, hout]
  refine (if_neg (by rw [Bool.false_and]; decide)).trans ?_
  rw [List.foldlM_cons]
  have hteam : s.resumeTeam t false (fun d => if false = true then !s.heldBefore [t] t d else !s.bound t || d == t.home) =
      some (s.resumeOn t c false) := by
    unfold State.resumeTeam
    simp only [Bool.false_eq_true, if_false]
    rw [hcore]
    rfl
  rw [hteam]
  rfl

theorem exec_teamResume {s u : State} {t : Team} {c : Nat} {w : Waiting} (ht : s.team? t.id = some t) (hout : t.swap = .out)
    (hcohort : s.cohortTeams t = [t]) (hw : s.firstWaiting (s.partOf t) = some w) (hwhat : w.what = .away t.id)
    (hu : s.resumeCohort t = some u) (hplaced : s.placedOn t.id t.launch c u = true) :
    exec (.teamResume t.id c) s = .next u := by
  obtain ⟨prio, time, queue, cohort, what⟩ := w
  obtain rfl : what = .away t.id := hwhat
  show execTeamResume t.id c s = _
  unfold execTeamResume
  rw [ht]
  dsimp only
  rw [hw]
  dsimp only
  rw [hcohort, List.any_cons, List.any_nil, hout, beq_self_eq_true]
  refine (if_pos (by decide)).trans ?_
  rw [ht, hu]
  dsimp only
  rw [hplaced, if_pos rfl]

/-- The slots a team on its way back needs, its callee groups among them. -/
theorem slots_of_fits {s : State} {t : Team} {c : Nat} (h : s.resumeFits t c = true) :
    s.slotsOf t ≤ (s.freeSlots c).length := by
  unfold State.resumeFits State.coreFits at h
  simp only [Bool.and_eq_true, decide_eq_true_iff] at h
  obtain ⟨⟨⟨-, ⟨⟨⟨⟨⟨⟨⟨hslots, -⟩, -⟩, -⟩, -⟩, -⟩, -⟩, -⟩⟩, -⟩, -⟩ := h
  exact hslots

/-- The clause of a resumption. -/
theorem resume_spec {s : State} {t : Team} {c : Nat} {w : Waiting} {im : ScrImage} (ht : s.team? t.id = some t)
    (hout : t.swap = .out) (hspawn : t.spawn = false) (hcohort : s.cohortTeams t = [t]) (hcoht : (s.valsOf t).coht ≤ 1)
    (hw : s.firstWaiting (s.partOf t) = some w) (hwhat : w.what = .away t.id) (hc : c < 272) (hfits : s.resumeFits t c = true)
    (hbest : ∀ d < 272, d ≠ c → s.resumeFits t d = true → (s.freeSlots d).length < (s.freeSlots c).length ∨
      (s.freeSlots d).length = (s.freeSlots c).length ∧ c < d)
    (him : t.image = some im) (hheld : t.held = []) (hbins : t.bins = [])
    (hn : (s.groups.map (fun (g : Group) => g.id)).Nodup)
    (hslots : (s.groups.filter (fun g => g.team == t.id)).length ≤ s.slotsOf t)
    (hgroups : ∀ g ∈ s.groups, g.team = t.id → g.core = none ∧ g.wait = none ∧ g.allPend = []) :
    ∃ u : State, exec (.teamResume t.id c) s = .next u ∧ u.team? t.id = some (t.back s c (t.peergen + 0)) ∧
      u.mem = (s.loadImage t c im).mem ∧ ∀ g ∈ s.groups, g.team = t.id → ∃ slot, u.group? g.id =
        some (g.reslotted c slot s.time t.evpend (t.peergen + 0)) := by
  obtain ⟨gs, hbrought, hids, hwork, hback⟩ := brought_spec (c := c) (im := im) hn (hslots.trans (slots_of_fits hfits))
  have hq : (s.brought t c im).Quiet t := by
    rw [hbrought]
    intro q hqm hqt
    obtain ⟨g, hg, hteam, hpend, hwait⟩ := hwork q hqm
    obtain ⟨-, hw, hp⟩ := hgroups g hg (hteam.symm.trans hqt)
    exact ⟨hwait hw, hpend.trans hp⟩
  have hm : (s.brought t c im).MineOf t (s.slotOrder t) := by
    intro id hid q hq
    obtain ⟨g, hg, hgt⟩ := (mem_slotOrder hn id).1 hid
    obtain ⟨slot, hslot⟩ := hback g (List.mem_of_find?_eq_some hg) hgt
    rw [State.group?_id hg, hq] at hslot
    rw [Option.some.inj hslot]
    exact hgt
  have hn' : ((s.brought t c im).groups.map (fun (g : Group) => g.id)).Nodup := by
    rw [hbrought, hids]
    exact hn
  obtain ⟨cores, cmds, parts, hresumed⟩ := resumeOn_eq hspawn him hheld hbins hq hm hn'
  obtain ⟨cmds', gangs', hrebased⟩ := rebaseCmds_eq (s.resumeOn t c false) [t]
  have hteams : ((s.resumeOn t c false).rebaseCmds [t]).teams =
      s.teams.map (fun x => if x.id == t.id then x.back s c (t.peergen + 0) else x) := by
    rw [hrebased, hresumed, hbrought]
  have hteam : ((s.resumeOn t c false).rebaseCmds [t]).team? t.id = some (t.back s c (t.peergen + 0)) := by
    unfold State.team?
    rw [hteams]
    refine (State.team?_modTeam s t.id (f := fun x => x.back s c (t.peergen + 0)) (fun _ => rfl) t.id).trans ?_
    rw [ht, Option.map_some, if_pos rfl]
  refine ⟨_, exec_teamResume ht hout hcohort hw hwhat (resumeCohort_one hout hspawn hcohort hcoht hc hfits hbest) ?_, hteam, ?_,
    fun g hg hgt => ?_⟩
  · unfold State.placedOn
    rw [hteam]
    exact beq_self_eq_true _
  · rw [hrebased, hresumed, hbrought]
  · obtain ⟨slot, hslot⟩ := hback g hg hgt
    refine ⟨slot, ?_⟩
    rw [hrebased, hresumed]
    exact hslot

/-! ## A core changes its partition (R36) -/

theorem endCollpart_none {s : State} (h : s.mgmt.collpart = []) : s.endCollpart = s := by
  unfold State.endCollpart
  split
  · rfl
  · rw [h]
    dsimp only [List.foldl_nil]
    rw [← h]

theorem exec_partitionMoveComplete {s : State} {c : Nat} (hc : c < 272) (hmove : (s.core c).moving = true)
    (hteams : ∀ t ∈ s.teams, t.core ≠ some c) (hbins : (s.core c).bins = []) (hcoll : s.mgmt.collpart = []) :
    exec (.partitionMoveComplete c) s = .next (s.modCore c (fun k => { k with part := k.newPart, moving := false })) := by
  have hempty : s.teamsOn c = [] := by
    unfold State.teamsOn
    rw [List.filter_eq_nil_iff]
    intro t ht
    rw [beq_iff_eq]
    exact hteams t ht
  show execPartitionMoveComplete c s = _
  unfold execPartitionMoveComplete
  rw [hmove, hempty, decide_eq_true hc, hbins]
  refine (if_pos rfl).trans ?_
  exact congrArg Host.Outcome.next (endCollpart_none hcoll)

/-- Settles O49, clause by clause. -/
theorem teamsMove : Obligations.TeamsMove := by
  unfold Obligations.TeamsMove
  refine ⟨?_, ?_, ?_, ?_, ?_, ?_, ?_, ?_⟩
  · intro s p w l c o size hw hwhat hl hcoll hcoht hnext hsize hwf hc hopen hfits hoff hbest
    obtain ⟨u, gs, hexec, hteams, hgroups, hlaunch, hmem, hgs, hnodup, hspec⟩ :=
      placement_spec hw hwhat hl hcoll hcoht hnext hsize hc hopen hfits hoff hbest
    refine ⟨u, Team.placed s.nextId l l.next c o s.time, gs, hexec, hteams, hgroups, hlaunch, rfl, rfl, rfl, rfl, rfl, rfl, rfl, rfl, rfl,
      rfl, fun x => ?_, hgs, hnodup, fun i g hg => ?_⟩
    · unfold State.read8
      rw [hmem]
      exact read8_clearScr hwf c o size x
    · obtain ⟨id, slot, hslot, rfl⟩ := hspec i g hg
      obtain ⟨hlt, hapart⟩ := (mem_freeSlots s c slot).1 hslot
      refine ⟨rfl, rfl, hlt, hapart, rfl, rfl, rfl, rfl, rfl, rfl, rfl, rfl, rfl, rfl, rfl, rfl, fun n hn => ?_, rfl, rfl, rfl⟩
      show vget (vset (vset (Vector.replicate 64 0) 0 (l.pkt.extractLsb' 896 64)) 1 l.addr) n 0 = 0
      rw [vget_vset _ 1 _ _ (by decide), if_neg (by omega), vget_vset _ 0 _ _ (by decide), if_neg (by omega)]
      exact vget_replicate 64 0 n
  · intro s t l c w ht hl hcohort hc hres hslice hhalt hw hprio hnow hthen hroom hsettled
    have hpart : s.partOf t = l.part := by
      unfold State.partOf
      rw [hl]
    rw [exec_timeSliceExpiry ht hl hcohort hc hres hslice hhalt hw hprio hnow hthen, ← hpart,
      cutAll_settled (by rw [hpart]; exact hroom) ht hc hsettled]
  · intro s t c ht hc hres hmove hroom hsettled
    rw [exec_swapCut ht hc hres hmove, cutAll_settled hroom ht hc hsettled]
  · intro s t c size sw ht hc hcut hdrained hsize hwf _
    subst hsize
    obtain ⟨cores, bins, hout⟩ := swapOut_eq s t c
    obtain ⟨cores', hend⟩ := endGrow_eq (s.swapOut t c) c
    refine ⟨_, t.away s.time (s.scrImage t c) bins, s.scrImage t c, exec_swapOutComplete ht hc hcut hdrained, ?_, rfl,
      fun o ho => read_scrImage hwf t c ho, fun x hx _ => ?_, ?_⟩
    · rw [hend, hout]
      refine (State.team?_modTeam (s.clearScr c t.off (s.allocSize t)) t.id (f := fun t' => t'.away s.time (s.scrImage t c) bins)
        (fun _ => rfl) t.id).trans ?_
      rw [show (s.clearScr c t.off (s.allocSize t)).team? t.id = some t from ht, Option.map_some, if_pos rfl]
    · rw [hend, hout]
      exact (read8_clearScr hwf c t.off (s.allocSize t) x).trans (if_neg hx)
    · rw [hend, hout]
      refine List.map_congr_left fun g _ => ?_
      simp only [beq_iff_eq]
  · intro s t c w im ht hout hspawn hcohort hcoht hw hwhat hc hfits hbest him hheld hbins hn hslots hgroups hwf himwf hin
    obtain ⟨u, hexec, hteam, hmem, hback⟩ :=
      resume_spec ht hout hspawn hcohort hcoht hw hwhat hc hfits hbest him hheld hbins hn hslots hgroups
    refine ⟨u, _, hexec, hteam, rfl, rfl, rfl, rfl, rfl, rfl, rfl, fun o ho => ?_, fun x hx => ?_, fun g hg hgt => ?_⟩
    · unfold State.read8
      rw [hmem]
      exact read8_loadImage hwf t c himwf ho
    · unfold State.read8
      rw [hmem]
      exact read8_loadImage_other hwf t c hin hx
    · obtain ⟨slot, hslot⟩ := hback g hg hgt
      exact ⟨_, hslot, rfl, rfl, rfl, rfl, rfl, rfl, rfl, rfl⟩
  · intro s t l ht hl hout hlong
    show execWaitPriorityRaise t.id s = _
    unfold execWaitPriorityRaise
    rw [ht]
    dsimp only
    rw [hl]
    dsimp only
    rw [hout, decide_eq_true hlong]
    exact if_pos rfl
  · intro s l ht hl hended hnext hlong
    show execWaitPriorityRaise l.id s = _
    unfold execWaitPriorityRaise
    rw [ht, hl]
    dsimp only
    rw [hended, decide_eq_true hlong, decide_eq_true (show l.next < l.total from hnext)]
    exact if_pos rfl
  · intro s c hc hmove hteams hbins hcoll
    exact exec_partitionMoveComplete hc hmove hteams hbins hcoll

end Sys2Proof.Machine

end


section
/-! # Key tables: entries, places and headers (R347 to R350) -/

namespace Sys2Proof.Machine

/-! ## Entries -/

theorem kSeq_eq (e : BitVec 128) : kSeq e = (e.extractLsb' 96 24).toNat := by
  exact (bitsN_eq_extractLsb' e 96 24).resolve_right (by decide)

theorem kLive_iff (e : BitVec 128) : kLive e = true ↔ e.extractLsb' 120 8 = 1 := by
  unfold kLive
  rw [beq_iff_eq, BitVec.toNat_inj.symm]
  exact iff_of_eq (congrArg (· = 1) ((bitsN_eq_extractLsb' e 120 8).resolve_right (by decide)))

/-- The 128 bits at a place. -/
def KView.entry (c : KView) (p : KPlace) : BitVec 128 :=
  BitVec.ofNat 128 (c.s.readNat (c.at_ p) 16)

theorem live_eq (s : State) (core : Nat) (k : KTable) (p : KPlace) : Claims.live s core k p =
    if kLive (KView.entry ⟨s, core, k⟩ p) = true then some (KView.entry ⟨s, core, k⟩ p) else none := by
  unfold Claims.live
  dsimp only
  simp only [kLive_iff]
  rfl

theorem live_none_iff (s : State) (core : Nat) (k : KTable) (p : KPlace) :
    Claims.live s core k p = none ↔ kLive (KView.entry ⟨s, core, k⟩ p) = false := by
  rw [live_eq]
  cases kLive (KView.entry ⟨s, core, k⟩ p) <;> simp

/-! ## Tables of one shape -/

/-- Two tables of the same lines and the same records. -/
def KTable.Like (k k' : KTable) : Prop :=
  k'.off = k.off ∧ k'.logb = k.logb ∧ k'.spill = k.spill ∧ k'.cap = k.cap ∧ k'.pages = k.pages

theorem KTable.Like.refl (k : KTable) : k.Like k := ⟨rfl, rfl, rfl, rfl, rfl⟩

theorem KTable.Like.trans {k l m : KTable} (h : k.Like l) (h' : l.Like m) : k.Like m := by
  obtain ⟨h1, h2, h3, h4, h5⟩ := h
  obtain ⟨h1', h2', h3', h4', h5'⟩ := h'
  exact ⟨h1'.trans h1, h2'.trans h2, h3'.trans h3, h4'.trans h4, h5'.trans h5⟩

theorem KTable.placed_like (k : KTable) (p : KPlace) : k.Like (k.placed p) := by
  cases p <;> exact ⟨rfl, rfl, rfl, rfl, rfl⟩

theorem KView.line_like {s s' : State} {core : Nat} {k k' : KTable} (h : k.Like k') (b : Nat) :
    KView.line ⟨s', core, k'⟩ b = KView.line ⟨s, core, k⟩ b := by
  unfold KView.line
  dsimp only
  rw [h.1]

theorem KView.at_like {s s' : State} {core : Nat} {k k' : KTable} (h : k.Like k') (p : KPlace) :
    KView.at_ ⟨s', core, k'⟩ p = KView.at_ ⟨s, core, k⟩ p := by
  obtain ⟨hoff, -, hspill, -, hpages⟩ := h
  cases p with
  | slot b i =>
    unfold KView.at_ KView.line
    dsimp only
    rw [hoff]
  | record r =>
    unfold KView.at_
    dsimp only
    rw [hspill, hpages]

theorem KView.at_withS (c : KView) (s' : State) (p : KPlace) : KView.at_ { c with s := s' } p = c.at_ p := by
  cases p <;> rfl

theorem KView.entry_like {s : State} {core : Nat} {k k' : KTable} (h : k.Like k') (p : KPlace) :
    KView.entry ⟨s, core, k'⟩ p = KView.entry ⟨s, core, k⟩ p := by
  unfold KView.entry
  rw [KView.at_like (s := s) h]

theorem KView.entry_withK (c : KView) {k' : KTable} (h : c.k.Like k') (p : KPlace) : KView.entry { c with k := k' } p = c.entry p :=
  KView.entry_like h p

theorem live_like (s : State) (core : Nat) {k k' : KTable} (h : k.Like k') (p : KPlace) :
    Claims.live s core k' p = Claims.live s core k p := by
  rw [live_eq, live_eq, KView.entry_like h]

/-! ## Places that lie apart -/

/-- A place of a table: a slot of a bucket, or a record that the table may come to use. -/
def KTable.Has (k : KTable) : KPlace → Prop
  | .slot b i => b < 2 ^ k.logb ∧ i < 7
  | .record r => r < k.cap

/-- No poison, canonical memory, and the records below the slices and apart. -/
def KView.Fit (c : KView) : Prop :=
  c.s.poison = [] ∧ Memory.wf c.s.mem = true ∧ (∀ r < c.k.cap, c.at_ (.record r) + 16 ≤ 2 ^ 56) ∧
    ∀ r r', r < c.k.cap → r' < c.k.cap → r ≠ r' → c.at_ (.record r) + 16 ≤ c.at_ (.record r') ∨
      c.at_ (.record r') + 16 ≤ c.at_ (.record r)

theorem fit_of_table {s : State} {g : Group} {e : Opd} {t : Team} {n c : Nat} {k : KTable} (h : Claims.table s g e t n c k) :
    KView.Fit ⟨s, c, k⟩ := by
  obtain ⟨-, -, -, -, -, -, hpoison, hwf, -, -, -, hlow, hapart⟩ := h
  exact ⟨hpoison, hwf, hlow, hapart⟩

theorem KView.at_slot (c : KView) (b i : Nat) : c.at_ (.slot b i) = c.line b + 16 + 16 * i := rfl

theorem KView.line_eq (c : KView) (b : Nat) : c.line b = 2 ^ 56 + c.core * 2 ^ 20 + (c.k.off + 128 * b) := rfl

section Places
variable {c : KView} (hc : c.Fit)
include hc

theorem KView.Fit.like {s' : State} {k' : KTable} (hk : c.k.Like k') (hp : s'.poison = []) (hwf : Memory.wf s'.mem = true) :
    KView.Fit ⟨s', c.core, k'⟩ := by
  obtain ⟨-, -, hlow, hapart⟩ := hc
  have hat (p : KPlace) : KView.at_ ⟨s', c.core, k'⟩ p = c.at_ p := KView.at_like (s := c.s) hk p
  have hcap : k'.cap = c.k.cap := hk.2.2.2.1
  refine ⟨hp, hwf, fun r hr => ?_, fun r r' hr hr' hne => ?_⟩
  · rw [hat]
    exact hlow r (hcap ▸ hr)
  · rw [hat, hat]
    exact hapart r r' (hcap ▸ hr) (hcap ▸ hr') hne

theorem KView.at_apart {p q : KPlace} (hp : c.k.Has p) (hq : c.k.Has q) (hne : p ≠ q) :
    c.at_ p + 16 ≤ c.at_ q ∨ c.at_ q + 16 ≤ c.at_ p := by
  obtain ⟨-, -, hlow, hapart⟩ := hc
  cases p with
  | slot b i =>
    obtain ⟨-, hi⟩ := hp
    rw [c.at_slot, c.line_eq]
    cases q with
    | slot b' i' =>
      obtain ⟨-, hi'⟩ := hq
      have hne' : ¬ (b = b' ∧ i = i') := fun h => hne (by rw [h.1, h.2])
      rw [c.at_slot, c.line_eq]
      omega
    | record r =>
      have := hlow r hq
      omega
  | record r =>
    cases q with
    | slot b i =>
      rw [c.at_slot, c.line_eq]
      have := hlow r hp
      omega
    | record r' => exact hapart r r' hp hq fun h => hne (by rw [h])

theorem KView.line_apart {p : KPlace} (hp : c.k.Has p) (b : Nat) : c.line b + 16 ≤ c.at_ p ∨ c.at_ p + 16 ≤ c.line b := by
  cases p with
  | slot b' i =>
    obtain ⟨-, hi⟩ := hp
    rw [c.at_slot, c.line_eq, c.line_eq]
    omega
  | record r =>
    have := hc.2.2.1 r hp
    rw [c.line_eq]
    omega

/-! ## Reading -/

theorem KView.check_ok (p : KPlace) : c.check p = .ok () := by
  have hnone (loc n : Nat) : c.s.poisonIn loc n = none := by
    unfold State.poisonIn
    rw [hc.1]
    rfl
  unfold KView.check
  cases p with
  | slot b i =>
    dsimp only
    rw [hnone]
  | record r =>
    dsimp only
    rw [hnone]

theorem KView.get_ok (p : KPlace) : c.get p = .ok (c.entry p) := by
  unfold KView.get
  rw [KView.check_ok hc]
  rfl

theorem KView.search_ok (q : BitVec 128 → Bool) (l : List KPlace) : c.search q l = .ok (l.find? (fun p => q (c.entry p))) := by
  induction l with
  | nil => rfl
  | cons p l ih =>
    unfold KView.search
    rw [KView.get_ok hc]
    show (if q (c.entry p) then .ok (some p) else c.search q l) = _
    rw [List.find?_cons]
    split
    · next h => rw [h]
    · next h =>
      rw [Bool.eq_false_of_not_eq_true h]
      exact ih

theorem KView.entries_ok (l : List KPlace) : c.entries l =
    .ok (l.filterMap (fun p => (Claims.live c.s c.core c.k p).map (fun x => (p, x)))) := by
  induction l with
  | nil => rfl
  | cons p l ih =>
    unfold KView.entries
    rw [KView.get_ok hc, ih, List.filterMap_cons, live_eq]
    show (.ok (if kLive (c.entry p) then (p, c.entry p) :: _ else _) : Except Trap _) = _
    cases kLive (c.entry p) <;> rfl

/-! ## Writing -/

theorem KView.Fit.write (loc v : Nat) : KView.Fit { c with s := c.s.writeNat loc 16 v } := by
  refine hc.like (KTable.Like.refl _) ?_ (State.writeNat_wf hc.2.1 _ _ _)
  rw [State.writeNat_clean hc.1]
  exact hc.1

end Places

theorem State.readNat_writeNat_apart {s : State} (h : Memory.wf s.mem = true) {loc n x m : Nat} (v : Nat)
    (hd : x + m ≤ loc ∨ loc + n ≤ x) : (s.writeNat loc n v).readNat x m = s.readNat x m := by
  unfold State.readNat State.writeNat
  rw [State.write_mem, Memory.readN_write_apart h (by rw [length_bytesOf]; exact hd)]

theorem KView.bump_eq (c : KView) (b : Nat) (f : Nat → Nat) (o : Bool) :
    ∃ v, c.bump b f o = { c with s := c.s.writeNat (c.line b) 16 v } := ⟨_, rfl⟩

section Writing
variable {c : KView} (hc : c.Fit)
include hc

theorem KView.Fit.bump (b : Nat) (f : Nat → Nat) (o : Bool) : (c.bump b f o).Fit := by
  obtain ⟨v, h⟩ := c.bump_eq b f o
  rw [h]
  exact hc.write _ _

/-- A change of a header leaves the entries. -/
theorem KView.entry_bump {p : KPlace} (hp : c.k.Has p) (b : Nat) (f : Nat → Nat) (o : Bool) : (c.bump b f o).entry p = c.entry p := by
  obtain ⟨v, h⟩ := c.bump_eq b f o
  rw [h]
  refine congrArg (BitVec.ofNat 128) ?_
  rw [c.at_withS]
  exact State.readNat_writeNat_apart hc.2.1 v ((KView.line_apart hc hp b).symm)

theorem KView.read8_bump (b : Nat) (f : Nat → Nat) (o : Bool) {x : Nat} (hx : ¬ (c.line b ≤ x ∧ x < c.line b + 16)) :
    (c.bump b f o).s.read8 x = c.s.read8 x := by
  obtain ⟨v, h⟩ := c.bump_eq b f o
  rw [h]
  exact (State.read8_writeNat hc.2.1 _ _ _ _).trans (if_neg hx)

/-- An entry written, before the header of its bucket changes. -/
theorem KView.entry_write_self (p : KPlace) (e : BitVec 128) :
    KView.entry { c with s := c.s.writeNat (c.at_ p) 16 e.toNat } p = e := by
  have h : (c.s.writeNat (c.at_ p) 16 e.toNat).readNat (KView.at_ { c with s := c.s.writeNat (c.at_ p) 16 e.toNat } p) 16 =
      e.toNat := by
    rw [c.at_withS (c.s.writeNat (c.at_ p) 16 e.toNat) p, State.readNat_writeNat hc.2.1]
    exact Nat.mod_eq_of_lt (show e.toNat < 2 ^ (8 * 16) from e.isLt)
  unfold KView.entry
  rw [h, BitVec.ofNat_toNat, BitVec.setWidth_eq]

theorem KView.entry_write_ne {p q : KPlace} (hp : c.k.Has p) (hq : c.k.Has q) (hne : q ≠ p) (e : BitVec 128) :
    KView.entry { c with s := c.s.writeNat (c.at_ p) 16 e.toNat } q = c.entry q := by
  refine congrArg (BitVec.ofNat 128) ?_
  rw [c.at_withS]
  exact State.readNat_writeNat_apart hc.2.1 _ (KView.at_apart hc hq hp hne)

omit hc in
theorem KView.put_cases (c : KView) (p : KPlace) (e : BitVec 128) :
    c.put p e = { c with s := c.s.writeNat (c.at_ p) 16 e.toNat } ∨
      ∃ b i f, p = .slot b i ∧ c.put p e = KView.bump { c with s := c.s.writeNat (c.at_ p) 16 e.toNat } b f false := by
  cases p with
  | slot b i =>
    refine Or.inr ⟨b, i, fun occ => if kLive e then occ ||| 2 ^ i else occ &&& (127 - 2 ^ i), rfl, ?_⟩
    unfold KView.put
    rfl
  | record r => exact Or.inl rfl

theorem KView.Fit.put (p : KPlace) (e : BitVec 128) : (c.put p e).Fit := by
  rcases c.put_cases p e with h | ⟨b, i, f, -, h⟩ <;> rw [h]
  · exact hc.write _ _
  · exact (hc.write _ _).bump _ _ _

omit hc in
theorem KView.put_core_k (c : KView) (p : KPlace) (e : BitVec 128) : (c.put p e).core = c.core ∧ (c.put p e).k = c.k := by
  cases p <;> exact ⟨rfl, rfl⟩

theorem KView.entry_put_self {p : KPlace} (hp : c.k.Has p) (e : BitVec 128) : (c.put p e).entry p = e := by
  rcases c.put_cases p e with h | ⟨b, i, f, -, h⟩ <;> rw [h]
  · exact KView.entry_write_self hc p e
  · exact (KView.entry_bump (hc.write _ _) hp _ _ _).trans (KView.entry_write_self hc p e)

theorem KView.entry_put_ne {p q : KPlace} (hp : c.k.Has p) (hq : c.k.Has q) (hne : q ≠ p) (e : BitVec 128) :
    (c.put p e).entry q = c.entry q := by
  rcases c.put_cases p e with h | ⟨b, i, f, -, h⟩ <;> rw [h]
  · exact KView.entry_write_ne hc hp hq hne e
  · exact (KView.entry_bump (hc.write _ _) hq _ _ _).trans (KView.entry_write_ne hc hp hq hne e)

/-- The bytes that an entry's writing may change: its own, and its bucket's header. -/
theorem KView.read8_put (p : KPlace) (e : BitVec 128) {x : Nat} (hx : x < c.at_ p ∨ c.at_ p + 16 ≤ x)
    (hline : ∀ b i, p = .slot b i → ¬ (c.line b ≤ x ∧ x < c.line b + 16)) : (c.put p e).s.read8 x = c.s.read8 x := by
  have hwrite : (c.s.writeNat (c.at_ p) 16 e.toNat).read8 x = c.s.read8 x :=
    (State.read8_writeNat hc.2.1 _ _ _ _).trans (if_neg (by omega))
  rcases c.put_cases p e with h | ⟨b, i, f, hp, h⟩ <;> rw [h]
  · exact hwrite
  · exact (KView.read8_bump (hc.write _ _) b f false (hline b i hp)).trans hwrite

/-! ## Tombstones -/

/-- The counts of a table one entry poorer. -/
def KTable.less (k : KTable) : KPlace → KTable
  | .slot .. => { k with bklive := k.bklive - 1 }
  | .record _ => { k with splive := k.splive - 1 }

omit hc in
theorem KTable.less_like (k : KTable) (p : KPlace) : k.Like (k.less p) := by
  cases p <;> exact ⟨rfl, rfl, rfl, rfl, rfl⟩

/-- A table with a tombstone at a place (R350). -/
def KView.tomb (c : KView) (p : KPlace) : KView :=
  { c.put p (BitVec.ofNat 8 2 ++ (c.entry p).extractLsb' 0 120) with k := c.k.less p }

theorem KView.delete_ok (p : KPlace) : c.delete p = .ok (c.tomb p) := by
  unfold KView.delete
  rw [KView.get_ok hc]
  cases p <;> rfl

omit hc in
theorem kLive_tomb (x : BitVec 120) : kLive (BitVec.ofNat 8 2 ++ x) = false := by
  rw [← Bool.not_eq_true, kLive_iff, BitVec.extractLsb'_append_eq_left]
  decide

omit hc in
theorem KView.tomb_core (c : KView) (p : KPlace) : (c.tomb p).core = c.core := (c.put_core_k p _).1

omit hc in
theorem KView.tomb_k (c : KView) (p : KPlace) : (c.tomb p).k = c.k.less p := rfl

omit hc in
theorem KView.entry_tomb (c : KView) (p q : KPlace) :
    (c.tomb p).entry q = (c.put p (BitVec.ofNat 8 2 ++ (c.entry p).extractLsb' 0 120)).entry q := by
  refine KView.entry_withK _ ?_ q
  rw [(c.put_core_k p _).2]
  exact c.k.less_like p

theorem KView.entry_tomb_self {p : KPlace} (hp : c.k.Has p) : kLive ((c.tomb p).entry p) = false := by
  rw [c.entry_tomb, KView.entry_put_self hc hp]
  exact kLive_tomb _

theorem KView.entry_tomb_ne {p q : KPlace} (hp : c.k.Has p) (hq : c.k.Has q) (hne : q ≠ p) : (c.tomb p).entry q = c.entry q := by
  rw [c.entry_tomb, KView.entry_put_ne hc hp hq hne]

theorem KView.Fit.tomb (p : KPlace) : (c.tomb p).Fit := by
  have h := hc.put p (BitVec.ofNat 8 2 ++ (c.entry p).extractLsb' 0 120)
  refine h.like (k' := c.k.less p) ?_ h.1 h.2.1
  rw [(c.put_core_k p _).2]
  exact c.k.less_like p

end Writing

end Sys2Proof.Machine

end


section
/-! # O41: `KCLAIM`, `KFREE`, `KSTAT`, `KDRN` (R347, R357, R358, R362) -/

namespace Sys2Proof.Machine

/-! ## Handles -/

theorem handle_ok {t : Team} {v : Word64} {k : KTable} (hv : v.toNat < 8) (h : t.kts[v.toNat]? = some (some k)) :
    t.handle v = .ok k := by
  unfold Team.handle
  rw [if_neg (Nat.not_le.2 hv), List.getD_eq_getElem?_getD, h]
  rfl

theorem handle_none {t : Team} {v : Word64} (h : ∀ k, t.kts[v.toNat]? ≠ some (some k) ∨ 8 ≤ v.toNat) :
    t.handle v = .error (trapOf .khandle) := by
  unfold Team.handle
  by_cases hv : 8 ≤ v.toNat
  · rw [if_pos hv]
  · rw [if_neg hv, List.getD_eq_getElem?_getD]
    cases hk : t.kts[v.toNat]? with
    | none => rfl
    | some o =>
      cases o with
      | none => rfl
      | some k => exact absurd hk ((h k).resolve_right hv)

theorem tableBody_ok {e : Opd} {held : List (Opd × Nat)} {act : Team → Nat → KView → Except Trap Done} {s : State} {g : Group}
    {t : Team} {k : KTable} (hheld : g.checkHeld held = .ok ()) (ht : s.team? g.team = some t) (hk : t.handle (g.uni64 e) = .ok k) :
    tableBody e held act s g = act t (g.uni64 e).toNat ⟨s, g.core.getD 0, k⟩ := by
  unfold tableBody
  rw [hheld]
  show (match s.team? g.team with
    | none => _
    | some t => (t.handle (g.uni64 e)).bind fun k => act t (g.uni64 e).toNat ⟨s, g.core.getD 0, k⟩) = _
  rw [ht]
  show (t.handle (g.uni64 e)).bind _ = _
  rw [hk]
  rfl

theorem tableBody_none {e : Opd} {act : Team → Nat → KView → Except Trap Done} {s : State} {g : Group} {t : Team}
    (ht : s.team? g.team = some t) (hk : t.handle (g.uni64 e) = .error (trapOf .khandle)) :
    tableBody e [] act s g = .error (trapOf .khandle) := by
  unfold tableBody
  show (match s.team? g.team with
    | none => _
    | some t => (t.handle (g.uni64 e)).bind fun k => act t (g.uni64 e).toNat ⟨s, g.core.getD 0, k⟩) = _
  rw [ht]
  show (t.handle (g.uni64 e)).bind _ = _
  rw [hk]
  rfl

/-! ## `KCLAIM` -/

theorem mem_fullLines (locs : List Nat) (s : State) (l : Nat) :
    l ∈ (locs.foldl (fun s loc => s.setFull loc) s).fe ↔ l ∈ s.fe ∧ ∀ loc ∈ locs, lineOf loc ≠ l := by
  induction locs generalizing s with
  | nil => simp
  | cons loc locs ih =>
    rw [List.foldl_cons, ih, List.forall_mem_cons, ← and_assoc]
    exact and_congr_left' (mem_removeNat _ _ _)

theorem mem_fullLines_mem (locs : List Nat) (s : State) : (locs.foldl (fun s loc => s.setFull loc) s).mem = s.mem := by
  induction locs generalizing s with
  | nil => rfl
  | cons loc locs ih =>
    rw [List.foldl_cons, ih]
    rfl

theorem lineOf_line (core off i : Nat) : lineOf (scrLoc core (off + 128 * i)) = lineOf (scrLoc core off) + i := by
  unfold lineOf scrLoc
  omega

/-- The machine with the lines of a table empty of entries and full. -/
def State.claimed (s : State) (core off logb : Nat) : State :=
  (List.range (2 ^ logb)).foldl (fun s i => s.setFull (scrLoc core (off + 128 * i)))
    (s.write (scrLoc core off) (List.replicate (128 * 2 ^ logb) 0))

theorem claimed_eq (s : State) (core off logb : Nat) : s.claimed core off logb =
    ((List.range (2 ^ logb)).map (fun i => scrLoc core (off + 128 * i))).foldl (fun s loc => s.setFull loc)
      (s.write (scrLoc core off) (List.replicate (128 * 2 ^ logb) 0)) := by
  rw [List.foldl_map]
  rfl

theorem read8_claimed {s : State} (h : Memory.wf s.mem = true) (core off logb x : Nat) :
    (s.claimed core off logb).read8 x =
      if scrLoc core off ≤ x ∧ x < scrLoc core off + 128 * 2 ^ logb then 0 else s.read8 x := by
  have hmem : (s.claimed core off logb).read8 x = (s.write (scrLoc core off) (List.replicate (128 * 2 ^ logb) 0)).read8 x := by
    unfold State.read8
    rw [claimed_eq, mem_fullLines_mem]
  rw [hmem, State.read8_write h, List.length_replicate]
  split
  · next hx =>
    rw [List.getD_eq_getElem?_getD, List.getElem?_replicate]
    split <;> rfl
  · rfl

theorem mem_claimed (s : State) (core off logb l : Nat) : l ∈ (s.claimed core off logb).fe ↔
    l ∈ s.fe ∧ ¬ (lineOf (scrLoc core off) ≤ l ∧ l < lineOf (scrLoc core off) + 2 ^ logb) := by
  rw [claimed_eq, mem_fullLines]
  refine and_congr Iff.rfl ⟨fun h hl => ?_, fun h loc hloc heq => h ?_⟩
  · refine h _ (List.mem_map.2 ⟨l - lineOf (scrLoc core off), List.mem_range.2 (by omega), rfl⟩) ?_
    rw [lineOf_line]
    omega
  · obtain ⟨i, hi, rfl⟩ := List.mem_map.1 hloc
    have hi := List.mem_range.1 hi
    rw [lineOf_line] at heq
    omega

/-- A table just claimed (R347). -/
def KTable.new (off logb : Nat) (spill : Word64) (cap : Nat) (ps : List Page) : KTable :=
  { off := off, logb := logb, spill := spill, cap := cap, pages := ps, nextseq := 0, sphw := 0, splive := 0, bklive := 0,
    cpos := 0, cvalid := false, ckey := false }

theorem kclaimBody_ok {s : State} {g : Group} {logb n core : Nat} {d a b c : Opd} {t : Team} {ps : List Page}
    (ht : s.team? g.team = some t) (hn : t.kts[n]? = some none) (hlow : ∀ j < n, t.kts[j]? ≠ some none) (hc : g.core = some core)
    (hbad : claimBad t (s.valsOf t).scratch logb (g.uni64 c) (g.uni64 a) (g.uni64 b) = false)
    (hps : s.probe (s.accessor g) .write (g.uni64 a) (16 * (g.uni64 b).toNat) [] = .ok ps) :
    kclaimBody logb d a b c s g = .ok {
      s := Claims.joined (s.claimed core ((g.uni64 c).toNat - LOCAL_BASE) logb) g t n
        (KTable.new ((g.uni64 c).toNat - LOCAL_BASE) logb (g.uni64 a) (g.uni64 b).toNat ps), g := g,
      touches := Claims.probed ps, long := [Claims.counted g d .keyTable n] } := by
  have hidx : indexOf? (fun (k : Option KTable) => k.isNone) t.kts = some n := by
    rw [findIdx?_eq_indexOf?, List.findIdx?_eq_some_iff_getElem]
    obtain ⟨hlt, hget⟩ := List.getElem?_eq_some_iff.1 hn
    refine ⟨hlt, by rw [hget]; rfl, fun j hj => ?_⟩
    rw [Option.isNone_iff_eq_none]
    exact fun h => hlow j hj (by rw [List.getElem?_eq_getElem (hj.trans hlt), h])
  have hcore : g.core.getD 0 = core := by rw [hc]; rfl
  unfold kclaimBody
  rw [ht]
  dsimp only
  rw [hidx]
  dsimp only
  rw [hbad, if_neg Bool.false_ne_true, hps, hcore]
  rfl

/-! ## `KSTAT` -/

theorem stat_eq (k : KTable) : k.stat = BitVec.ofNat 128 (k.bklive % 2 ^ 16 + 2 ^ 16 * (k.splive % 2 ^ 24) +
    2 ^ 40 * (k.sphw % 2 ^ 24) + 2 ^ 64 * k.cpos.toNat + 2 ^ 96 * k.cvalid.toNat + 2 ^ 97 * k.ckey.toNat +
    2 ^ 99 * (if 2 ^ 24 ≤ k.nextseq then 1 else 0) + 2 ^ 100 * (k.logb % 16) + 2 ^ 104 * (k.nextseq % 2 ^ 24)) := by
  have hfull : (BitVec.ofBool (decide (2 ^ 24 ≤ k.nextseq))).toNat = if 2 ^ 24 ≤ k.nextseq then 1 else 0 := by
    rw [BitVec.toNat_ofBool]
    split
    · next h => rw [decide_eq_true h]; rfl
    · next h => rw [decide_eq_false h]; rfl
  refine BitVec.eq_of_toNat_eq ?_
  have hlt := k.stat.isLt
  have hsum : k.stat.toNat = k.bklive % 2 ^ 16 + 2 ^ 16 * (k.splive % 2 ^ 24) +
      2 ^ 40 * (k.sphw % 2 ^ 24) + 2 ^ 64 * k.cpos.toNat + 2 ^ 96 * k.cvalid.toNat + 2 ^ 97 * k.ckey.toNat +
      2 ^ 99 * (if 2 ^ 24 ≤ k.nextseq then 1 else 0) + 2 ^ 100 * (k.logb % 16) + 2 ^ 104 * (k.nextseq % 2 ^ 24) := by
    unfold KTable.stat
    simp only [toNat_append_add, hfull, BitVec.toNat_ofBool, BitVec.toNat_ofNat]
    omega
  rw [BitVec.toNat_ofNat, ← hsum, Nat.mod_eq_of_lt hlt]

/-! ## `KDRN`: the entries in order -/

theorem insertBy_sorted {α : Type} {f : α → Nat} {a : α} {l : List α} (h : l.Pairwise (fun x y => f x ≤ f y)) :
    (insertBy f a l).Pairwise (fun x y => f x ≤ f y) := by
  induction l with
  | nil => exact List.pairwise_singleton _ _
  | cons b l ih =>
    obtain ⟨hb, hl⟩ := List.pairwise_cons.1 h
    unfold insertBy
    split
    · next hlt =>
      refine List.pairwise_cons.2 ⟨fun x hx => ?_, h⟩
      rcases List.mem_cons.1 hx with rfl | hx
      · exact hlt.le
      · exact hlt.le.trans (hb x hx)
    · next hge =>
      refine List.pairwise_cons.2 ⟨fun x hx => ?_, ih hl⟩
      rcases mem_insertBy hx with rfl | hx
      · exact Nat.not_lt.1 hge
      · exact hb x hx

theorem sortBy_sorted {α : Type} (f : α → Nat) (l : List α) : (sortBy f l).Pairwise (fun x y => f x ≤ f y) := by
  have fold (l acc : List α) (h : acc.Pairwise (fun x y => f x ≤ f y)) :
      (l.foldl (fun acc a => insertBy f a acc) acc).Pairwise (fun x y => f x ≤ f y) := by
    induction l generalizing acc with
    | nil => exact h
    | cons a l ih => exact ih _ (insertBy_sorted h)
  exact fold l [] List.Pairwise.nil

/-- The n lowest of some, in order. -/
theorem lowest_take {α : Type} (f : α → Nat) (l : List α) (n : Nat) :
    (∀ x ∈ (sortBy f l).take n, x ∈ l) ∧ (l.Nodup → ((sortBy f l).take n).Nodup) ∧
      ((sortBy f l).take n).Pairwise (fun x y => f x ≤ f y) ∧ ((sortBy f l).take n).length = min n l.length ∧
      ∀ x ∈ l, x ∉ (sortBy f l).take n → ∀ y ∈ (sortBy f l).take n, f y ≤ f x := by
  have hperm := sortBy_perm f l
  have hsorted := sortBy_sorted f l
  refine ⟨fun x hx => hperm.mem_iff.1 (List.mem_of_mem_take hx), fun h => (hperm.nodup_iff.2 h).sublist (List.take_sublist _ _),
    hsorted.sublist (List.take_sublist _ _), by rw [List.length_take, hperm.length_eq], fun x hx hnot y hy => ?_⟩
  rw [← List.take_append_drop n (sortBy f l)] at hsorted
  obtain ⟨-, -, hacross⟩ := List.pairwise_append.1 hsorted
  have hin : x ∈ (sortBy f l).take n ++ (sortBy f l).drop n := by
    rw [List.take_append_drop]
    exact hperm.mem_iff.2 hx
  exact hacross y hy x ((List.mem_append.1 hin).resolve_left hnot)

/-- The element that stands beside a lane. -/
theorem find_zip {α β : Type} [DecidableEq α] {l : List α} (hn : l.Nodup) (m : List β) {j : Nat} {a : α} (h : l[j]? = some a) :
    (l.zip m).find? (fun x => x.1 == a) = (m[j]?).map (fun x => (a, x)) := by
  induction l generalizing m j with
  | nil => cases h
  | cons b l ih =>
    obtain ⟨hb, hn⟩ := List.nodup_cons.1 hn
    cases m with
    | nil => rfl
    | cons y m =>
      rw [List.zip_cons_cons, List.find?_cons]
      cases j with
      | zero =>
        obtain rfl := Option.some.inj h
        rw [beq_self_eq_true]
        rfl
      | succ j =>
        have ha : a ∈ l := List.mem_of_getElem? h
        have hne : (b == a) = false := by
          rw [beq_eq_false_iff_ne]
          exact fun e => hb (e ▸ ha)
        rw [hne]
        exact ih hn m h

theorem find_zip_none {α β : Type} [DecidableEq α] {l : List α} {a : α} (h : a ∉ l) (m : List β) :
    (l.zip m).find? (fun x => x.1 == a) = none := by
  rw [List.find?_eq_none]
  rintro ⟨b, y⟩ hb he
  exact h (beq_iff_eq.1 he ▸ (List.of_mem_zip hb).1)

/-! ## `KDRN`: the entries deleted -/

/-- A table with tombstones at some places. -/
def KView.tombs (c : KView) (ps : List KPlace) : KView :=
  ps.foldl KView.tomb c

theorem deleteAll_ok {c : KView} (hc : c.Fit) (ps : List KPlace) : c.deleteAll ps = .ok (c.tombs ps) := by
  induction ps generalizing c with
  | nil => rfl
  | cons p ps ih =>
    unfold KView.deleteAll
    rw [KView.delete_ok hc]
    exact ih (hc.tomb p)

theorem tombs_core (c : KView) (ps : List KPlace) : (c.tombs ps).core = c.core := by
  induction ps generalizing c with
  | nil => rfl
  | cons p ps ih => exact (ih (c.tomb p)).trans (c.tomb_core p)

theorem tombs_k (c : KView) (ps : List KPlace) : ∃ b r, (c.tombs ps).k = { c.k with bklive := b, splive := r } := by
  induction ps generalizing c with
  | nil => exact ⟨_, _, rfl⟩
  | cons p ps ih =>
    obtain ⟨b, r, h⟩ := ih (c.tomb p)
    refine ⟨b, r, h.trans ?_⟩
    rw [c.tomb_k]
    cases p <;> rfl

theorem KTable.less_has {k : KTable} (p : KPlace) {q : KPlace} (h : k.Has q) : (k.less p).Has q := by
  cases p <;> cases q <;> exact h

/-- A place that has a tombstone keeps it. -/
theorem tombs_dead {c : KView} (hc : c.Fit) (ps : List KPlace) (hps : ∀ p ∈ ps, c.k.Has p) :
    ∀ q, c.k.Has q → q ∈ ps ∨ kLive (c.entry q) = false → kLive ((c.tombs ps).entry q) = false := by
  induction ps generalizing c with
  | nil => exact fun q _ h => h.resolve_left List.not_mem_nil
  | cons p ps ih =>
    intro q hq h
    have hp := hps p List.mem_cons_self
    refine ih (hc.tomb p) (fun r hr => KTable.less_has p (hps r (List.mem_cons_of_mem _ hr))) q (KTable.less_has p hq) ?_
    by_cases hqp : q = p
    · refine Or.inr ?_
      rw [hqp]
      exact KView.entry_tomb_self hc hp
    · rw [KView.entry_tomb_ne hc hp hq hqp]
      exact h.imp_left fun h => (List.mem_cons.1 h).resolve_left hqp

/-! ## `KDRN`: the places -/

theorem allPlaces_has {k : KTable} (h : k.sphw ≤ k.cap) {p : KPlace} (hp : p ∈ Claims.allPlaces k) : k.Has p := by
  unfold Claims.allPlaces at hp
  rcases List.mem_append.1 hp with hp | hp
  · obtain ⟨b, hb, hp⟩ := List.mem_flatMap.1 hp
    obtain ⟨i, hi, rfl⟩ := List.mem_map.1 hp
    exact ⟨List.mem_range.1 hb, List.mem_range.1 hi⟩
  · obtain ⟨r, hr, rfl⟩ := List.mem_map.1 hp
    exact (List.mem_range.1 hr).trans_le h

theorem allPlaces_nodup (k : KTable) : (Claims.allPlaces k).Nodup := by
  unfold Claims.allPlaces
  refine List.nodup_append.2 ⟨List.nodup_flatMap.2 ⟨fun b _ => ?_, ?_⟩, ?_, ?_⟩
  · exact List.nodup_range.map fun i j h => (KPlace.slot.inj h).2
  · refine List.nodup_range.imp fun {b b'} hne => ?_
    intro p hp hp'
    obtain ⟨i, -, rfl⟩ := List.mem_map.1 hp
    obtain ⟨i', -, heq⟩ := List.mem_map.1 hp'
    exact hne (KPlace.slot.inj heq).1.symm
  · exact List.nodup_range.map fun i j h => KPlace.record.inj h
  · intro p hp q hq
    obtain ⟨b, -, hp⟩ := List.mem_flatMap.1 hp
    obtain ⟨i, -, rfl⟩ := List.mem_map.1 hp
    obtain ⟨r, -, rfl⟩ := List.mem_map.1 hq
    nofun

/-- The live entries of a table with their places. -/
def liveEntries (s : State) (c : Nat) (k : KTable) : List (KPlace × BitVec 128) :=
  (Claims.allPlaces k).filterMap (fun p => (Claims.live s c k p).map (fun x => (p, x)))

theorem liveEntries_nodup (s : State) (c : Nat) (k : KTable) : (liveEntries s c k).Nodup := by
  refine (allPlaces_nodup k).filterMap fun p q x hp hq => ?_
  obtain ⟨a, -, rfl⟩ := Option.map_eq_some_iff.1 hp
  obtain ⟨b, -, h⟩ := Option.map_eq_some_iff.1 hq
  exact (congrArg Prod.fst h).symm

theorem mem_liveEntries {s : State} {c : Nat} {k : KTable} (h : k.sphw ≤ k.cap) {x : KPlace × BitVec 128}
    (hx : x ∈ liveEntries s c k) : k.Has x.1 := by
  obtain ⟨p, hp, hpx⟩ := List.mem_filterMap.1 hx
  obtain ⟨a, -, rfl⟩ := Option.map_eq_some_iff.1 hpx
  exact allPlaces_has h hp

/-! ## `KDRN`: the instruction -/

theorem drainKey_eq (key : Bool) (x : KPlace × BitVec 128) :
    (if key then (kKey x.2).toNat else kSeq x.2) = Claims.drainKey key x.2 := by
  unfold Claims.drainKey
  rw [kSeq_eq]
  rfl

/-- What a drain returns: the lowest entries of those past its position (R357). -/
def drained (g : Group) (h : Hdr) (key : Bool) (past : List (KPlace × BitVec 128)) : List (KPlace × BitVec 128) :=
  (sortBy (fun x => Claims.drainKey key x.2) past).take (lanesOf (g.contributors h)).length

/-- The entry that a lane gets. -/
def drainedAt (g : Group) (h : Hdr) (got : List (KPlace × BitVec 128)) (i : Nat) : Option (BitVec 128) :=
  (((lanesOf (g.contributors h)).zip got).find? (fun x => x.1 == i)).map (fun x => x.2.2)

/-- Keys and values as a drain returns them. -/
def drainedKey (g : Group) (h : Hdr) (got : List (KPlace × BitVec 128)) (i : Nat) : Code :=
  match drainedAt g h got i with | some x => (kKey x).setWidth 128 | none => 0

def drainedVal (g : Group) (h : Hdr) (w : Nat) (got : List (KPlace × BitVec 128)) (i : Nat) : Code :=
  match drainedAt g h got i with | some x => BitVec.ofNat 128 ((kValue x).toNat % 2 ^ w) | none => 0

/-- The table after a drain: its position, and the counts of what is left. -/
def KTable.drainedTo (k : KTable) (key valid : Bool) (got : List (KPlace × BitVec 128)) : KTable :=
  match got.getLast? with
  | some x => { k with cpos := BitVec.ofNat 32 (Claims.drainKey key x.2), cvalid := true, ckey := key }
  | none => { k with cvalid := valid }

theorem drainedTo_eq (k : KTable) (key valid : Bool) (got : List (KPlace × BitVec 128)) {x0 : KTable} {b r : Nat}
    (hx : x0 = { k with bklive := b, splive := r }) : x0.drainedTo key valid got = { k with
      cpos := (match got.getLast? with | some x => BitVec.ofNat 32 (Claims.drainKey key x.2) | none => k.cpos),
      cvalid := valid || !got.isEmpty, ckey := (if got.isEmpty then k.ckey else key), bklive := b, splive := r } := by
  subst hx
  unfold KTable.drainedTo
  cases got with
  | nil =>
    rw [List.getLast?_nil]
    simp
  | cons x l =>
    obtain ⟨y, hy⟩ : ∃ y, (x :: l).getLast? = some y := ⟨_, List.getLast?_eq_some_getLast (List.cons_ne_nil x l)⟩
    rw [hy]
    simp

/-- The view once the entries returned are deleted, where they are. -/
def KView.drainedOf (c : KView) (del : Bool) (got : List (KPlace × BitVec 128)) : KView :=
  if del then c.tombs (got.map (·.1)) else c

theorem kdrnBody_ok {s : State} {g : Group} {h : Hdr} {ty : ITy} {key del rst valid : Bool} {d b cnt e : Opd} {t : Team} {n c : Nat}
    {k : KTable} {past got : List (KPlace × BitVec 128)} (htable : Claims.table s g e t n c k)
    (hheld : g.checkHeld [(d, 32), (b, ty.width)] = .ok ()) (hvalid : valid = (k.cvalid && !rst && (k.ckey == key)))
    (hpast : past = (liveEntries s c k).filter (fun x => !valid || decide (k.cpos.toNat < Claims.drainKey key x.2)))
    (hgot : got = drained g h key past) : kdrnBody h ty key del rst d b cnt e s g = .ok (KView.done
      { KView.drainedOf ⟨s, c, k⟩ del got with k := (KView.drainedOf ⟨s, c, k⟩ del got).k.drainedTo key valid got } t n g
      (g.writesTo d false 32 (g.active h) (drainedKey g h got) ++
        g.writesTo b false ty.width (g.active h) (drainedVal g h ty.width got) ++
        g.writesTo cnt false 64 g.exec (fun _ => BitVec.ofNat 128 got.length))) := by
  have hfit := fit_of_table htable
  obtain ⟨-, ht, hn, hlt, hk, hc, -⟩ := htable
  have hhandle : t.handle (g.uni64 e) = .ok k := handle_ok (by omega) (by rw [hn]; exact hk)
  have hcore : g.core.getD 0 = c := by rw [hc]; rfl
  unfold kdrnBody
  rw [tableBody_ok hheld ht hhandle, hcore, hn]
  dsimp only
  rw [KView.entries_ok hfit]
  simp only [drainKey_eq]
  rw [← hvalid]
  subst hgot hpast
  cases del with
  | false => rfl
  | true =>
    show Except.bind (KView.deleteAll ⟨s, c, k⟩ ((drained g h key ((liveEntries s c k).filter
      (fun x => !valid || decide (k.cpos.toNat < Claims.drainKey key x.2)))).map (fun x => x.1))) _ = _
    rw [deleteAll_ok hfit]
    rfl

theorem lanesOf_nodup (m : Mask) : (lanesOf m).Nodup := List.nodup_range.filter _

theorem drainedAt_lane {g : Group} {h : Hdr} (got : List (KPlace × BitVec 128)) {j lane : Nat}
    (hl : (lanesOf (g.contributors h))[j]? = some lane) : drainedAt g h got lane = (got[j]?).map (fun x => x.2) := by
  unfold drainedAt
  rw [find_zip (lanesOf_nodup _) got hl, Option.map_map]
  rfl

theorem drainedAt_none {g : Group} {h : Hdr} (got : List (KPlace × BitVec 128)) {lane : Nat}
    (hl : (g.contributors h).getLsbD lane = false) : drainedAt g h got lane = none := by
  unfold drainedAt
  rw [find_zip_none, Option.map_none]
  rw [mem_lanesOf, hl]
  exact Bool.false_ne_true

theorem KView.mk_of_core {v : KView} {c : Nat} (h : v.core = c) : (⟨v.s, c, v.k⟩ : KView) = v := by
  subst h
  rfl

/-- Settles O41, clause by clause. -/
theorem keyTableHandles : Obligations.KeyTableHandles := by
  unfold Obligations.KeyTableHandles
  refine ⟨⟨?_, ?_, ?_, ?_⟩, ?_⟩
  · intro s g h logb d a b c t n core ps hw hg hfree hwf ht hn hlow hc hbad hps
    refine ⟨s.claimed core ((g.uni64 c).toNat - LOCAL_BASE) logb.toNat,
      KTable.new ((g.uni64 c).toNat - LOCAL_BASE) logb.toNat (g.uni64 a) (g.uni64 b).toNat ps, ?_, rfl,
      read8_claimed hwf core _ _, mem_claimed s core _ _⟩
    refine exec_completes (body := ordered (kclaimBody logb.toNat d a b c)) (u := false) rfl hw hg nofun ?_
    exact (holding_free hfree.1).trans (kclaimBody_ok ht hn hlow hc hbad hps)
  · intro s g h e t k hw hg hfree ht hlt hk
    refine exec_completes (body := afterAcquires (kfreeBody e)) (u := false) rfl hw hg nofun ?_
    exact (holding_free hfree.1).trans (tableBody_ok rfl ht (handle_ok hlt hk))
  · intro s g h d e t k v hw hg hfree ht hlt hk hv
    refine exec_completes (body := afterAcquires (kstatBody d e)) (u := false) rfl hw hg nofun ?_
    refine (holding_free hfree.1).trans ((tableBody_ok rfl ht (handle_ok hlt hk)).trans ?_)
    rw [hv, ← stat_eq]
    rfl
  · intro s g h e i t hi hw hg hheld ht hk
    rcases hi with rfl | ⟨d, rfl⟩
    · refine exec_traps (body := afterAcquires (kfreeBody e)) (u := false) rfl hw hg nofun ?_ rfl
      exact (holding_free hheld).trans (tableBody_none ht (handle_none hk))
    · refine exec_traps (body := afterAcquires (kstatBody d e)) (u := false) rfl hw hg nofun ?_ rfl
      exact (holding_free hheld).trans (tableBody_none ht (handle_none hk))
  · intro s g h ty key del rst d b cnt e t n c k valid past hw hg htable hnheld hheld hcap hvalid hpast
    obtain ⟨got, hgot⟩ : ∃ got, got = drained g h key past := ⟨_, rfl⟩
    have hfit := fit_of_table htable
    have hbody := kdrnBody_ok (del := del) (cnt := cnt) htable hheld hvalid hpast hgot
    obtain ⟨hin, hnodup, hsorted, hlen, hbelow⟩ := lowest_take (fun x : KPlace × BitVec 128 => Claims.drainKey key x.2) past
      (lanesOf (g.contributors h)).length
    have hpastin : ∀ x ∈ past, x ∈ liveEntries s c k := fun x hx => by
      rw [hpast] at hx
      exact (List.mem_filter.1 hx).1
    have hpastnodup : past.Nodup := by
      rw [hpast]
      exact (liveEntries_nodup s c k).filter _
    have hcore : (KView.drainedOf ⟨s, c, k⟩ del got).core = c := by
      unfold KView.drainedOf
      split
      · exact tombs_core _ _
      · rfl
    obtain ⟨bl, sl, hk⟩ : ∃ bl sl, (KView.drainedOf ⟨s, c, k⟩ del got).k = { k with bklive := bl, splive := sl } := by
      unfold KView.drainedOf
      split
      · exact tombs_k _ _
      · exact ⟨k.bklive, k.splive, rfl⟩
    have hk1 := drainedTo_eq k key valid got hk
    have hb : ((KView.drainedOf ⟨s, c, k⟩ del got).k.drainedTo key valid got).bklive = bl := by rw [hk1]
    have hs : ((KView.drainedOf ⟨s, c, k⟩ del got).k.drainedTo key valid got).splive = sl := by rw [hk1]
    refine ⟨(KView.drainedOf ⟨s, c, k⟩ del got).s, (KView.drainedOf ⟨s, c, k⟩ del got).k.drainedTo key valid got, got,
      drainedKey g h got, drainedVal g h ty.width got, ?_, ?_, ?_, ?_, ?_, ?_, fun j lane hl => ?_, fun lane hl => ?_, ?_, fun hdel => ?_,
      fun hdel x hx => ?_⟩
    · refine exec_completes (body := ordered (kdrnBody h ty key del rst d b cnt e)) (u := false) rfl hw hg nofun ?_
      exact (holding_free hnheld).trans hbody
    · rw [hgot]
      exact hin
    · rw [hgot]
      exact hnodup hpastnodup
    · rw [hgot]
      exact hsorted
    · rw [hgot]
      exact hlen
    · rw [hgot]
      exact hbelow
    · unfold drainedKey drainedVal
      rw [drainedAt_lane got hl]
      cases got[j]? <;> exact ⟨rfl, rfl⟩
    · unfold drainedKey drainedVal
      rw [drainedAt_none got hl]
      exact ⟨rfl, rfl⟩
    · rw [hb, hs]
      exact hk1
    · subst hdel
      obtain ⟨rfl, rfl⟩ : k.bklive = bl ∧ k.splive = sl := ⟨congrArg KTable.bklive hk, congrArg KTable.splive hk⟩
      exact ⟨rfl, hb, hs⟩
    · subst hdel
      have hhas (y : KPlace × BitVec 128) (hy : y ∈ got) : k.Has y.1 :=
        mem_liveEntries hcap (hpastin y (by rw [hgot] at hy; exact hin y hy))
      have hlike : (KView.drainedOf ⟨s, c, k⟩ true got).k.Like ((KView.drainedOf ⟨s, c, k⟩ true got).k.drainedTo key valid got) := by
        rw [hk1, hk]
        exact ⟨rfl, rfl, rfl, rfl, rfl⟩
      have hdead : kLive ((KView.tombs ⟨s, c, k⟩ (got.map (·.1))).entry x.1) = false :=
        tombs_dead hfit _ (fun p hp => by
          obtain ⟨y, hy, rfl⟩ := List.mem_map.1 hp
          exact hhas y hy) x.1 (hhas x hx) (Or.inl (List.mem_map.2 ⟨x, hx, rfl⟩))
      rw [live_like _ _ hlike, live_none_iff, KView.mk_of_core hcore]
      exact hdead

end Sys2Proof.Machine

end


section
/-! # O40: `KPRB`, `KINS`, `KDEL`, `KACC` (R350, R353 to R356) -/

namespace Sys2Proof.Machine

/-! ## Finding a key (R350) -/

/-- Does a live entry hold a key? -/
def KView.hit (c : KView) (key : Word32) (p : KPlace) : Bool :=
  kLive (c.entry p) && kKey (c.entry p) == key

theorem window_eq (k : KTable) (key : Word32) : k.window key =
    (List.range 28).map (fun i => .slot ((k.home key + i / 7) % 2 ^ k.logb) (i % 7)) := by
  have hflat (f : Nat → Nat → KPlace) : (List.range 4).flatMap (fun d => (List.range 7).map (f d)) =
      (List.range 28).map (fun i => f (i / 7) (i % 7)) := rfl
  exact hflat fun d i => .slot ((k.home key + d) % 2 ^ k.logb) i

theorem places_eq (s : State) (core : Nat) (k : KTable) (key : Word32) : Claims.places s core k key =
    k.window key ++ (if KView.overflowed ⟨s, core, k⟩ key then k.records else []) := by
  rw [window_eq]
  rfl

/-- The entry at a place, where it is live and holds a key. -/
def foundAt (s : State) (core : Nat) (k : KTable) (key : Word32) (p : KPlace) : Option (KPlace × BitVec 128) :=
  match Claims.live s core k p with
  | some e => if e.extractLsb' 0 32 = key then some (p, e) else none
  | none => none

theorem foundAt_eq (s : State) (core : Nat) (k : KTable) (key : Word32) (p : KPlace) : foundAt s core k key p =
    if KView.hit ⟨s, core, k⟩ key p = true then some (p, KView.entry ⟨s, core, k⟩ p) else none := by
  unfold foundAt KView.hit
  rw [live_eq]
  by_cases hl : kLive (KView.entry ⟨s, core, k⟩ p) = true
  · simp only [hl, if_true, Bool.true_and, beq_iff_eq]
    rfl
  · simp only [hl, Bool.false_and]
    rfl

theorem found_eq (s : State) (core : Nat) (k : KTable) (key : Word32) : Claims.found s core k key =
    ((Claims.places s core k key).find? (KView.hit ⟨s, core, k⟩ key)).map (fun p => (p, KView.entry ⟨s, core, k⟩ p)) := by
  show (Claims.places s core k key).findSome? (foundAt s core k key) = _
  induction Claims.places s core k key with
  | nil => rfl
  | cons p l ih =>
    rw [List.findSome?_cons, foundAt_eq, List.find?_cons, ih]
    cases KView.hit ⟨s, core, k⟩ key p <;> rfl

section Find
variable {c : KView} (hc : c.Fit)
include hc

theorem find_eq (key : Word32) : c.find key =
    .ok ((Claims.found c.s c.core c.k key).map (fun x => x.1)) := by
  have hplaces : (Claims.found c.s c.core c.k key).map (fun x => x.1) =
      (Claims.places c.s c.core c.k key).find? (c.hit key) := by
    rw [found_eq, Option.map_map]
    cases (Claims.places c.s c.core c.k key).find? (c.hit key) <;> rfl
  rw [hplaces, places_eq, List.find?_append]
  unfold KView.find
  dsimp only
  rw [KView.search_ok hc]
  show (match (c.k.window key).find? (c.hit key) with
    | some p => .ok (some p)
    | none => if c.overflowed key then c.search _ c.k.records else .ok none : Except Trap (Option KPlace)) = _
  cases (c.k.window key).find? (c.hit key) with
  | some p => rfl
  | none =>
    show (if c.overflowed key then c.search _ c.k.records else .ok none : Except Trap (Option KPlace)) = .ok (List.find? (c.hit key)
      (if c.overflowed key then c.k.records else []))
    split
    · exact KView.search_ok hc _ _
    · rfl

end Find

theorem found_entry {s : State} {core : Nat} {k : KTable} {key : Word32} {p : KPlace} {x : BitVec 128}
    (h : Claims.found s core k key = some (p, x)) : x = KView.entry ⟨s, core, k⟩ p ∧ kLive x = true ∧ kKey x = key ∧
      p ∈ Claims.places s core k key := by
  rw [found_eq] at h
  obtain ⟨q, hq, heq⟩ := Option.map_eq_some_iff.1 h
  obtain ⟨rfl, rfl⟩ := Prod.mk.inj heq
  have hhit : KView.hit ⟨s, core, k⟩ key q = true := List.find?_some hq
  unfold KView.hit at hhit
  rw [Bool.and_eq_true, beq_iff_eq] at hhit
  exact ⟨rfl, hhit.1, hhit.2, List.mem_of_find?_eq_some hq⟩

theorem home_lt {k : KTable} (h : k.logb ≤ 12) (key : Word32) : k.home key < 2 ^ k.logb := by
  unfold KTable.home
  refine Nat.div_lt_of_lt_mul ?_
  rw [← Nat.pow_add, Nat.sub_add_cancel (by omega)]
  exact (hashKey key).isLt

theorem window_has (k : KTable) (key : Word32) (i : Nat) : k.Has (.slot ((k.home key + i / 7) % 2 ^ k.logb) (i % 7)) :=
  ⟨Nat.mod_lt _ (Nat.two_pow_pos _), Nat.mod_lt _ (by decide)⟩

/-- The slots of a window are places of their own. -/
theorem window_inj {k : KTable} (h : 4 ≤ k.logb) (key : Word32) {i j : Nat} (hi : i < 28) (hj : j < 28)
    (he : KPlace.slot ((k.home key + i / 7) % 2 ^ k.logb) (i % 7) = .slot ((k.home key + j / 7) % 2 ^ k.logb) (j % 7)) : i = j := by
  obtain ⟨hb, hs⟩ := KPlace.slot.inj he
  have hsize : 2 ^ 4 ≤ 2 ^ k.logb := Nat.pow_le_pow_right (by decide) h
  have hmod : i / 7 ≡ j / 7 [MOD 2 ^ k.logb] := Nat.ModEq.add_left_cancel' (k.home key) hb
  have hdiv : i / 7 = j / 7 := Nat.ModEq.eq_of_lt_of_lt hmod (by omega) (by omega)
  omega

theorem places_has {s : State} {core : Nat} {k : KTable} {key : Word32} (h : k.sphw ≤ k.cap) {p : KPlace}
    (hp : p ∈ Claims.places s core k key) : k.Has p := by
  rw [places_eq, window_eq] at hp
  rcases List.mem_append.1 hp with hp | hp
  · obtain ⟨i, -, rfl⟩ := List.mem_map.1 hp
    exact window_has k key i
  · split at hp
    · obtain ⟨r, hr, rfl⟩ := List.mem_map.1 hp
      exact (List.mem_range.1 hr).trans_le h
    · cases hp

/-! ## Statuses of the lanes (R353, R354) -/

theorem outOf_of {o : KOut} {i : Nat} {v : Nat × Word64} (hex : ∃ x ∈ o, x.1 = i) (hall : ∀ x ∈ o, x.1 = i → x.2 = v) :
    outOf o i = v := by
  unfold outOf
  cases hf : o.find? (fun x => x.1 == i) with
  | none =>
    obtain ⟨x, hx, hxi⟩ := hex
    exact absurd (beq_iff_eq.2 hxi) (List.find?_eq_none.1 hf x hx)
  | some x => exact hall x (List.mem_of_find?_eq_some hf) (by simpa using List.find?_some hf)

theorem outOf_none {o : KOut} {i : Nat} (h : ∀ x ∈ o, x.1 ≠ i) : outOf o i = (7, 0) := by
  unfold outOf
  rw [List.find?_eq_none.2 fun x hx he => h x hx (beq_iff_eq.1 he)]
  rfl

/-- What a key group of some lanes gives, lane by lane. -/
theorem outOf_map (lanes : List Nat) (f : Nat → Nat × Word64) (i : Nat) :
    outOf (lanes.map (fun i => (i, f i))) i = if i ∈ lanes then f i else (7, 0) := by
  split
  · next h =>
    refine outOf_of ⟨(i, f i), List.mem_map.2 ⟨i, h, rfl⟩, rfl⟩ fun x hx hxi => ?_
    obtain ⟨j, -, rfl⟩ := List.mem_map.1 hx
    obtain rfl : j = i := hxi
    rfl
  · next h =>
    refine outOf_none fun x hx hxi => ?_
    obtain ⟨j, hj, rfl⟩ := List.mem_map.1 hx
    exact h (hxi ▸ hj)

theorem outOf_first (g : Group) (h : Hdr) (first rest i : Nat) :
    (outOf (firstOut (lanesOf (g.contributors h)) first rest) i).1 = Claims.firstRest g h first rest i := by
  unfold firstOut Claims.firstRest
  rw [outOf_map _ (fun i => (if (lanesOf (g.contributors h)).head? = some i then first else rest, 0))]
  simp only [mem_lanesOf]
  split <;> rfl

theorem outOf_same (g : Group) (h : Hdr) (st : Nat) (v : Word64) (i : Nat) :
    (outOf (sameOut (lanesOf (g.contributors h)) st v) i).1 = Claims.firstRest g h st st i := by
  unfold sameOut Claims.firstRest
  rw [outOf_map _ (fun _ => (st, v)), ite_self]
  simp only [mem_lanesOf]
  split <;> rfl

/-! ## The lane forms -/

/-- All lanes of one key are one key group. -/
theorem keyGroups_one {key : Nat → Word32} {lanes : List Nat} {k : Word32} (hne : lanes ≠ []) (h : ∀ i ∈ lanes, key i = k) :
    keyGroups key lanes = [(k, lanes)] := by
  have hkeys : (lanes.map key).eraseDups = [k] := by
    have hall : ∀ x ∈ lanes.map key, x = k := fun x hx => by
      obtain ⟨i, hi, rfl⟩ := List.mem_map.1 hx
      exact h i hi
    obtain ⟨i, l, rfl⟩ := List.exists_cons_of_ne_nil hne
    rw [List.map_cons] at hall ⊢
    rw [List.eraseDups_cons, List.filter_eq_nil_iff.2, hall _ List.mem_cons_self]
    · rfl
    · intro x hx
      rw [hall x (List.mem_cons_of_mem _ hx), hall _ List.mem_cons_self, beq_self_eq_true]
      decide
  unfold keyGroups
  rw [hkeys, List.map_cons, List.map_nil, List.filter_eq_self.2 fun i hi => by rw [h i hi, beq_self_eq_true]]

theorem acts_one {act : KAct} {c c1 : KView} {key : Word32} {lanes : List Nat} {o : KOut} (h : act c key lanes = .ok (c1, o)) :
    KView.acts act [(key, lanes)] c = .ok (c1, o) := by
  unfold KView.acts
  rw [h]
  dsimp only
  unfold KView.acts
  show Except.ok (c1, o ++ []) = _
  rw [List.append_nil]

/-- Acts that leave the table: what each group gives, one after the other. -/
theorem acts_keep {act : KAct} {c : KView} {f : Word32 → List Nat → KOut} (h : ∀ key lanes, act c key lanes = .ok (c, f key lanes))
    (groups : List (Word32 × List Nat)) : KView.acts act groups c = .ok (c, groups.flatMap (fun x => f x.1 x.2)) := by
  induction groups with
  | nil => rfl
  | cons x groups ih =>
    obtain ⟨key, lanes⟩ := x
    unfold KView.acts
    rw [h]
    dsimp only
    rw [ih]
    rfl

/-- A vector's lanes get no more of a function than its values in the lanes of the set. -/
theorem Group.writesTo_congr_on (g : Group) (n : BitVec 6) (popped : Bool) (w : Nat) {lanes : Mask} {f f' : Nat → Code}
    (h : ∀ i, lanes.getLsbD i = true → f i = f' i) : g.writesTo (.v n) popped w lanes f = g.writesTo (.v n) popped w lanes f' := by
  have hval (k : Nat) : (fun i => if lanes.getLsbD i then (f i).extractLsb' (32 * k) 32 else 0) =
      fun i => if lanes.getLsbD i then (f' i).extractLsb' (32 * k) 32 else 0 := by
    funext i
    split
    · next hi => rw [h i hi]
    · rfl
  simp only [Group.writesTo, vWrites, hval]

section LaneForm
variable {s : State} {g : Group} {h : Hdr} {d a e : Opd} {held : List (Opd × Nat)} {t : Team} {n c : Nat} {k : KTable}
  (htable : Claims.table s g e t n c k) (hheld : g.checkHeld ((d, 32) :: (a, 32) :: held) = .ok ())
include htable hheld

theorem laneFormBody_ok {members : Group → Mask} {out : Option (Opd × Nat)} {act : Group → KAct} {c1 : KView} {o : KOut}
    (hact : KView.acts (act g) (keyGroups (fun i => (g.srcLane a 32 i).setWidth 32) (lanesOf (members g))) ⟨s, c, k⟩ = .ok (c1, o)) :
    laneFormBody h d a e held members out act s g = .ok (c1.done t n g
      (g.writesTo d false 32 (g.active h) (fun i => BitVec.ofNat 128 (outOf o i).1) ++
        match out with
        | some (b, w) => g.writesTo b false w (g.active h) (fun i => BitVec.ofNat 128 ((outOf o i).2.toNat % 2 ^ w))
        | none => [])) := by
  obtain ⟨-, ht, hn, hlt, hk, hc, -⟩ := htable
  have hhandle : t.handle (g.uni64 e) = .ok k := handle_ok (by omega) (by rw [hn]; exact hk)
  have hcore : g.core.getD 0 = c := by rw [hc]; rfl
  unfold laneFormBody
  rw [tableBody_ok hheld ht hhandle, hcore, hn]
  dsimp only
  rw [hact]
  rfl

/-- A form whose contributors share a key, once the act on that key is known. -/
theorem exec_laneForm {i : Instr} {act : Group → KAct} {key : Word32} {low first rest : Nat} {c1 : KView} {o : KOut}
    (hx : exec i s = issue s i h false (afterAcquires (laneFormBody h d a e held (fun g => g.contributors h) none act)))
    (hw : i.wellFormed = true) (hg : s.group? s.cur = some g) (hlow : lowest (g.contributors h) = some low)
    (hkeys : ∀ j, (g.contributors h).getLsbD j = true → (g.srcLane a 32 j).setWidth 32 = key)
    (hact : act g ⟨s, c, k⟩ key (lanesOf (g.contributors h)) = .ok (c1, o))
    (hout : ∀ j, (outOf o j).1 = Claims.firstRest g h first rest j) :
    exec i s = .next ((Claims.joined c1.s g t n c1.k).finish g h []
      [{ unit := .keyTable, writes := Claims.statuses g h d (Claims.firstRest g h first rest) }] none none) := by
  have hne : lanesOf (g.contributors h) ≠ [] := fun hnil => by
    unfold lowest at hlow
    rw [hnil] at hlow
    cases hlow
  have hgroups : keyGroups (fun i => (g.srcLane a 32 i).setWidth 32) (lanesOf (g.contributors h)) =
      [(key, lanesOf (g.contributors h))] := keyGroups_one hne fun j hj => hkeys j ((mem_lanesOf _ _).1 hj)
  refine exec_completes hx hw hg nofun ?_
  refine (holding_free htable.1.1).trans ?_
  rw [laneFormBody_ok (c1 := c1) (o := o) htable hheld (by rw [hgroups]; exact acts_one hact), List.append_nil]
  simp only [hout]
  rfl

end LaneForm

end Sys2Proof.Machine

end


section
/-! # O40: placing, deleting and accumulating (R350, R353 to R356) -/

namespace Sys2Proof.Machine

/-! ## Entries by their fields (R348) -/

theorem entry_toNat (state seq v : Nat) (key : Word32) (hs : state < 2 ^ 8) : (Claims.entry state seq v key).toNat =
    key.toNat + 2 ^ 32 * (v % 2 ^ 64) + 2 ^ 96 * (seq % 2 ^ 24) + 2 ^ 120 * state := by
  have hkey := key.isLt
  have hv := Nat.mod_lt v (Nat.two_pow_pos 64)
  have hq := Nat.mod_lt seq (Nat.two_pow_pos 24)
  unfold Claims.entry
  rw [BitVec.toNat_ofNat]
  refine Nat.mod_eq_of_lt ?_
  omega

theorem kEntry_eq (seq : Nat) {value : Word64} {v : Nat} (h : value.toNat = v % 2 ^ 64) (key : Word32) :
    kEntry 1 seq value key = Claims.entry 1 seq v key := by
  refine BitVec.eq_of_toNat_eq ?_
  rw [entry_toNat _ _ _ _ (by decide)]
  unfold kEntry
  simp only [toNat_append_add, BitVec.toNat_ofNat, h]
  omega

theorem kLive_entry (seq v : Nat) (key : Word32) : kLive (Claims.entry 1 seq v key) = true := by
  have hkey := key.isLt
  have hv := Nat.mod_lt v (Nat.two_pow_pos 64)
  have hq := Nat.mod_lt seq (Nat.two_pow_pos 24)
  rw [kLive_iff]
  refine BitVec.eq_of_toNat_eq ?_
  rw [BitVec.extractLsb'_toNat, entry_toNat _ _ _ _ (by decide), Nat.shiftRight_eq_div_pow]
  show _ = 1
  omega

theorem kKey_entry (seq v : Nat) (key : Word32) : kKey (Claims.entry 1 seq v key) = key := by
  have hkey := key.isLt
  refine BitVec.eq_of_toNat_eq ?_
  unfold kKey
  rw [BitVec.extractLsb'_toNat, entry_toNat _ _ _ _ (by decide), Nat.shiftRight_eq_div_pow]
  omega

/-- A live entry with another value. -/
theorem entry_withValue {x : BitVec 128} {new : Word64} {v : Nat} (hlive : kLive x = true) (hv : new.toNat = v % 2 ^ 64) :
    x.extractLsb' 96 32 ++ new ++ kKey x = Claims.entry 1 (x.extractLsb' 96 24).toNat v (kKey x) := by
  have hone := congrArg BitVec.toNat ((kLive_iff x).1 hlive)
  rw [BitVec.extractLsb'_toNat, Nat.shiftRight_eq_div_pow] at hone
  refine BitVec.eq_of_toNat_eq ?_
  rw [entry_toNat _ _ _ _ (by decide)]
  simp only [toNat_append_add, hv, BitVec.extractLsb'_toNat, Nat.shiftRight_eq_div_pow]
  have hone : x.toNat / 2 ^ 120 % 2 ^ 8 = 1 := hone
  omega

/-- The value that a form of w bits leaves (R355). -/
theorem kMerge_toNat (w : Nat) (old : Word64) (v : Code) :
    (kMerge w old v).toNat = Claims.kvalue w old.toNat v.toNat % 2 ^ 64 := by
  have hold := old.isLt
  unfold kMerge Claims.kvalue
  split
  · rw [toNat_append_add, BitVec.extractLsb'_toNat, Nat.shiftRight_eq_div_pow, BitVec.toNat_setWidth]
    omega
  · rw [BitVec.toNat_setWidth, Nat.mod_mod]

/-! ## Placing an entry (R350) -/

/-- An entry written into a record: its home bucket is marked as one that overflows. -/
def KView.spilled (c : KView) (key : Word32) (p : KPlace) (e : BitVec 128) : KView :=
  if c.overflowed key then c.put p e else (c.put p e).bump (c.k.home key) (fun occ => occ) true

/-- The view once an entry has been placed in a slot, or in a record. -/
def KView.slotted (c : KView) (p : KPlace) (e : BitVec 128) : KView :=
  { c.put p e with k := c.k.placed p }

def KView.recorded (c : KView) (key : Word32) (p : KPlace) (e : BitVec 128) : KView :=
  { c.spilled key p e with k := c.k.placed p }

/-- The first place without a live entry. -/
def KView.free (c : KView) (l : List KPlace) : Option KPlace :=
  l.find? (fun p => !kLive (c.entry p))

section Place
variable {c : KView} (hc : c.Fit) {key : Word32} {value : Word64}

theorem place_seqFull (h : 2 ^ 24 ≤ c.k.nextseq) : c.place key value = .ok (.error 4, c) := by
  unfold KView.place
  exact if_pos h

include hc

theorem place_slot (h : c.k.nextseq < 2 ^ 24) {p : KPlace} (hp : c.free (c.k.window key) = some p) : c.place key value =
    .ok (.ok p, c.slotted p (kEntry 1 c.k.nextseq value key)) := by
  unfold KView.place
  dsimp only
  rw [if_neg (Nat.not_le.2 h), KView.search_ok hc, show (c.k.window key).find? (fun p => !kLive (c.entry p)) = some p from hp]
  rfl

theorem place_spills (h : c.k.nextseq < 2 ^ 24) (hnone : c.free (c.k.window key) = none) {p : KPlace}
    (hp : c.free c.k.records = some p ∨ c.free c.k.records = none ∧ c.k.sphw < c.k.cap ∧ p = .record c.k.sphw) :
    c.place key value = .ok (.ok p, c.recorded key p (kEntry 1 c.k.nextseq value key)) := by
  unfold KView.place
  dsimp only
  rw [if_neg (Nat.not_le.2 h), KView.search_ok hc, show (c.k.window key).find? (fun p => !kLive (c.entry p)) = none from hnone,
    KView.search_ok hc]
  rcases hp with hp | ⟨hp, hcap, rfl⟩
  · rw [show c.k.records.find? (fun p => !kLive (c.entry p)) = some p from hp]
    rfl
  · rw [show c.k.records.find? (fun p => !kLive (c.entry p)) = none from hp, if_pos hcap]
    rfl

theorem place_full (h : c.k.nextseq < 2 ^ 24) (hnone : c.free (c.k.window key) = none) (hp : c.free c.k.records = none)
    (hcap : c.k.cap ≤ c.k.sphw) : c.place key value = .ok (.error 3, c) := by
  unfold KView.place
  dsimp only
  rw [if_neg (Nat.not_le.2 h), KView.search_ok hc, show (c.k.window key).find? (fun p => !kLive (c.entry p)) = none from hnone,
    KView.search_ok hc, show c.k.records.find? (fun p => !kLive (c.entry p)) = none from hp, if_neg (Nat.not_lt.2 hcap)]
  rfl

end Place

/-! ## What placing leaves -/

theorem getLsbD_byteOf {w : Nat} (v : BitVec w) (k : Nat) {j : Nat} (hj : j < 8) :
    (byteOf v.toNat k).getLsbD j = v.getLsbD (8 * k + j) := by
  unfold byteOf
  rw [BitVec.getLsbD_ofNat, Nat.testBit_shiftRight, decide_eq_true hj, Bool.true_and, BitVec.testBit_toNat]

theorem KView.line_put (c : KView) (p : KPlace) (e : BitVec 128) (b : Nat) : (c.put p e).line b = c.line b := by
  cases p <;> rfl

/-- Bit 8 of a header, its `OVF`. -/
theorem overflowed_bump {c : KView} (hc : c.Fit) (key : Word32) (f : Nat → Nat) :
    (c.bump (c.k.home key) f true).overflowed key = true := by
  show ((c.s.writeNat (c.line (c.k.home key)) 16 _).read8 (c.line (c.k.home key) + 1)).getLsbD 0 = true
  rw [State.read8_writeNat hc.2.1, if_pos (by omega), Nat.add_sub_cancel_left, getLsbD_byteOf _ _ (by decide)]
  rw [BitVec.getLsbD_append, if_neg (by decide), BitVec.getLsbD_append, if_neg (by decide), BitVec.getLsbD_append,
    if_pos (by decide), Bool.or_true]
  rfl

section Spill
variable {c : KView} (hc : c.Fit)
include hc

theorem KView.spilled_core_k (key : Word32) (p : KPlace) (e : BitVec 128) :
    (c.spilled key p e).core = c.core ∧ (c.spilled key p e).k = c.k := by
  unfold KView.spilled
  split
  · exact c.put_core_k p e
  · exact c.put_core_k p e

theorem KView.entry_spilled (key : Word32) {p : KPlace} (hp : c.k.Has p) (e : BitVec 128) : (c.spilled key p e).entry p = e := by
  unfold KView.spilled
  split
  · exact KView.entry_put_self hc hp e
  · refine (KView.entry_bump (hc.put p e) ?_ _ _ _).trans (KView.entry_put_self hc hp e)
    rw [(c.put_core_k p e).2]
    exact hp

/-- The bytes that a record's writing may change: its own, and the header of the home bucket. -/
theorem KView.read8_spilled (key : Word32) (r : Nat) (e : BitVec 128) {x : Nat}
    (hx : x < c.at_ (.record r) ∨ c.at_ (.record r) + 16 ≤ x)
    (hline : ¬ (c.line (c.k.home key) ≤ x ∧ x < c.line (c.k.home key) + 16)) :
    (c.spilled key (.record r) e).s.read8 x = c.s.read8 x := by
  have hput : (c.put (.record r) e).s.read8 x = c.s.read8 x := KView.read8_put hc _ e hx nofun
  unfold KView.spilled
  split
  · exact hput
  · refine (KView.read8_bump (hc.put _ e) _ _ _ ?_).trans hput
    rw [c.line_put]
    exact hline

/-- The home bucket overflows once a record of it has been written. -/
theorem KView.overflowed_spilled (key : Word32) {r : Nat} (hr : r < c.k.cap) (e : BitVec 128) :
    (c.spilled key (.record r) e).overflowed key = true := by
  unfold KView.spilled
  split
  · next h =>
    rw [← h]
    have hlow := hc.2.2.1 r hr
    refine congrArg (fun b : Byte => b.getLsbD 0) ?_
    refine (congrArg _ (congrArg (· + 1) (c.line_put (.record r) e (c.k.home key)))).trans ?_
    refine KView.read8_put hc _ e (Or.inr ?_) nofun
    rw [c.line_eq]
    omega
  · exact overflowed_bump (hc.put _ e) key _

end Spill

/-! ## The acts (R353 to R356) -/

theorem spill_eq (p : KPlace) : Claims.spill p = spillBit p := by cases p <;> rfl

theorem kRed_eq (op : KOp) : kRed op = Claims.kop op := by cases op <;> rfl

theorem kStep_eq (op : KOp) (ty : ITy) (a b : Code) : kStep op ty a b = (Claims.step (Claims.kop op) ty a b).1 := by
  unfold kStep
  rw [redStep_eq, kRed_eq]

theorem kId_eq {op : KOp} {ty : ITy} (h : op.accepts ty = true) : redId (kRed op) ty = Claims.ident (Claims.kop op) ty := by
  rw [← kRed_eq]
  refine redId_eq _ ?_
  cases op with
  | add | min | max | or => exact h
  | fadd =>
    obtain rfl : ty = .b32 := beq_iff_eq.1 h
    rfl

/-- What a key group gets whose entry has been placed, or could not be: `r` is 1 where the other lanes find the entry. -/
def placeFirst : Except Nat KPlace → Nat
  | .error st => st
  | .ok p => spillBit p

def placeRest (r : Nat) : Except Nat KPlace → Nat
  | .error st => st
  | .ok p => spillBit p + r

section Acts
variable {c : KView} (hc : c.Fit) {key : Word32} {lanes : List Nat}
include hc

theorem insertAct_found {val : Nat → Word64} {p : KPlace} {x : BitVec 128} (h : Claims.found c.s c.core c.k key = some (p, x)) :
    insertAct val c key lanes = .ok (c, sameOut lanes (1 + spillBit p) 0) := by
  unfold insertAct
  rw [find_eq hc, h]
  rfl

theorem insertAct_new {val : Nat → Word64} {res : Except Nat KPlace} {c1 : KView} (h : Claims.found c.s c.core c.k key = none)
    (hp : c.place key (val (lanes.headD 0)) = .ok (res, c1)) :
    insertAct val c key lanes = .ok (c1, firstOut lanes (placeFirst res) (placeRest 1 res)) := by
  unfold insertAct
  rw [find_eq hc, h]
  show (c.place key (val (lanes.headD 0))).bind _ = _
  rw [hp]
  cases res with
  | error st =>
    refine congrArg (fun o => Except.ok (c1, o)) (List.map_congr_left fun i _ => ?_)
    simp only [placeFirst, placeRest, ite_self]
  | ok p =>
    refine congrArg (fun o => Except.ok (c1, o)) (List.map_congr_left fun i _ => ?_)
    simp only [placeFirst, placeRest, stNew, stExists, Nat.zero_add, Nat.add_comm]

theorem deleteAct_found {p : KPlace} {x : BitVec 128} (h : Claims.found c.s c.core c.k key = some (p, x)) :
    deleteAct c key lanes = .ok (c.tomb p, firstOut lanes (1 + spillBit p) 2) := by
  unfold deleteAct
  rw [find_eq hc, h]
  show (c.delete p).bind _ = _
  rw [KView.delete_ok hc]
  rfl

theorem deleteAct_none (h : Claims.found c.s c.core c.k key = none) :
    deleteAct c key lanes = .ok (c, sameOut lanes 2 0) := by
  unfold deleteAct
  rw [find_eq hc, h]
  rfl

/-- The fold of a group's values, in order of lanes (R354). -/
def foldedVal (op : KOp) (ty : ITy) (val : Nat → Code) (lanes : List Nat) (low : Nat) : Code :=
  (lanes.drop 1).foldl (fun v j => (Claims.step (Claims.kop op) ty v (val j)).1) (val low)

omit hc in
theorem foldedVal_eq (op : KOp) (ty : ITy) (val : Nat → Code) (lanes : List Nat) :
    (lanes.drop 1).foldl (fun v i => kStep op ty v (val i)) (val (lanes.headD 0)) = foldedVal op ty val lanes (lanes.headD 0) := by
  unfold foldedVal
  congr 1
  funext v i
  exact kStep_eq op ty v (val i)

theorem accAct_found {op : KOp} {ty : ITy} {val : Nat → Code} {p : KPlace} {x : BitVec 128}
    (h : Claims.found c.s c.core c.k key = some (p, x)) : accAct op ty val c key lanes =
      .ok (c.put p (x.extractLsb' 96 32 ++ kMerge ty.width (kValue x) (Claims.step (Claims.kop op) ty
          (BitVec.ofNat 128 ((kValue x).toNat % 2 ^ ty.width)) (foldedVal op ty val lanes (lanes.headD 0))).1 ++ kKey x),
        sameOut lanes (1 + spillBit p) 0) := by
  obtain ⟨rfl, -⟩ := found_entry h
  unfold accAct
  rw [foldedVal_eq, find_eq hc, h]
  show (c.get p).bind _ = _
  rw [KView.get_ok hc, ← kStep_eq]
  rfl

theorem accAct_new {op : KOp} {ty : ITy} {val : Nat → Code} {res : Except Nat KPlace} {c1 : KView}
    (hop : op.accepts ty = true) (h : Claims.found c.s c.core c.k key = none)
    (hp : c.place key (kMerge ty.width 0 (Claims.step (Claims.kop op) ty (Claims.ident (Claims.kop op) ty)
      (foldedVal op ty val lanes (lanes.headD 0))).1) = .ok (res, c1)) :
    accAct op ty val c key lanes = .ok (c1, firstOut lanes (placeFirst res) (placeRest 0 res)) := by
  rw [← kId_eq hop, ← kStep_eq] at hp
  unfold accAct
  rw [foldedVal_eq, find_eq hc, h]
  show (c.place key _).bind _ = _
  rw [hp]
  cases res with
  | error st =>
    refine congrArg (fun o => Except.ok (c1, o)) (List.map_congr_left fun i _ => ?_)
    simp only [placeFirst, placeRest, ite_self]
  | ok p =>
    refine congrArg (fun o => Except.ok (c1, o)) (List.map_congr_left fun i _ => ?_)
    simp only [placeFirst, placeRest, stNew, Nat.zero_add, Nat.add_zero, ite_self]

end Acts

/-! ## `KPRB`: many keys at once (R354) -/

/-- Status and value of a key as `KPRB` returns them. -/
def probeStatus : Option (KPlace × BitVec 128) → Nat
  | some x => 1 + Claims.spill x.1
  | none => 2

def probeValue : Option (KPlace × BitVec 128) → Word64
  | some x => kValue x.2
  | none => 0

theorem probeAct_eq {c : KView} (hc : c.Fit) (key : Word32) (lanes : List Nat) : probeAct c key lanes =
    .ok (c, sameOut lanes (probeStatus (Claims.found c.s c.core c.k key)) (probeValue (Claims.found c.s c.core c.k key))) := by
  unfold probeAct
  rw [find_eq hc]
  cases h : Claims.found c.s c.core c.k key with
  | none => rfl
  | some x =>
    obtain ⟨p, x⟩ := x
    obtain ⟨rfl, -⟩ := found_entry h
    show (c.get p).bind _ = _
    rw [KView.get_ok hc]
    show Except.ok (c, sameOut lanes (stExists + spillBit p) (kValue (c.entry p))) = _
    rw [← spill_eq]
    rfl

/-- What a lane gets where each key group gives its lanes what its key has. -/
theorem outOf_groups (key : Nat → Word32) (lanes : List Nat) (st : Word32 → Nat) (val : Word32 → Word64) {i : Nat} (hi : i ∈ lanes) :
    outOf ((keyGroups key lanes).flatMap (fun x => sameOut x.2 (st x.1) (val x.1))) i = (st (key i), val (key i)) := by
  refine outOf_of ⟨(i, st (key i), val (key i)), ?_, rfl⟩ fun x hx hxi => ?_
  · refine List.mem_flatMap.2 ⟨(key i, lanes.filter (fun j => key j == key i)), ?_, ?_⟩
    · exact List.mem_map.2 ⟨key i, List.mem_eraseDups.2 (List.mem_map.2 ⟨i, hi, rfl⟩), rfl⟩
    · exact List.mem_map.2 ⟨i, List.mem_filter.2 ⟨hi, beq_self_eq_true _⟩, rfl⟩
  · obtain ⟨y, hy, hxy⟩ := List.mem_flatMap.1 hx
    obtain ⟨k, -, rfl⟩ := List.mem_map.1 hy
    obtain ⟨j, hj, rfl⟩ := List.mem_map.1 hxy
    obtain rfl : j = i := hxi
    rw [beq_iff_eq.1 (List.mem_filter.1 hj).2]

theorem Opd.v_of_isV {d : Opd} (h : d.isV = true) : ∃ n, d = .v n := by
  cases d with
  | v n => exact ⟨n, rfl⟩
  | x n | m n | c n | q n | s n | t n => cases h

/-! ## Entries that were found -/

section Found
variable {c : KView} (hc : c.Fit) {key : Word32} {p : KPlace} {x : BitVec 128}
  (hfound : Claims.found c.s c.core c.k key = some (p, x))
include hfound

omit hc in
theorem found_slot_has {b i : Nat} (hp : p = .slot b i) : c.k.Has p := by
  obtain ⟨-, -, -, hmem⟩ := found_entry hfound
  rw [places_eq, window_eq] at hmem
  rcases List.mem_append.1 hmem with hmem | hmem
  · obtain ⟨j, -, rfl⟩ := List.mem_map.1 hmem
    exact window_has c.k key j
  · subst hp
    split at hmem
    · obtain ⟨r, -, hr⟩ := List.mem_map.1 hmem
      cases hr
    · cases hmem

include hc

/-- The place holds what is written there, a record beyond the table's capacity too. -/
theorem entry_put_found (e : BitVec 128) : (c.put p e).entry p = e := by
  cases p with
  | slot b i => exact KView.entry_put_self hc (found_slot_has hfound rfl) e
  | record r => exact KView.entry_write_self hc (.record r) e

end Found

theorem line_div {c : KView} (hoff : c.k.off % 128 = 0) {b x : Nat} (hx : x / 128 ≠ c.line b / 128) :
    ¬ (c.line b ≤ x ∧ x < c.line b + 16) := by
  rw [c.line_eq] at hx ⊢
  omega

theorem keepsPlace_put {c : KView} (hc : c.Fit) (hoff : c.k.off % 128 = 0) (p : KPlace) (e : BitVec 128) :
    Claims.keepsPlace c.s (c.put p e).s c.core c.k p := by
  cases p with
  | slot b i =>
    intro x hline hx
    refine KView.read8_put hc _ e hx fun b' i' h => ?_
    obtain ⟨rfl, -⟩ := KPlace.slot.inj h
    exact line_div hoff hline
  | record r => exact fun x hx => KView.read8_put hc _ e hx nofun

theorem keepsPlace_tomb {c : KView} (hc : c.Fit) (hoff : c.k.off % 128 = 0) (p : KPlace) :
    Claims.keepsPlace c.s (c.tomb p).s c.core c.k p := keepsPlace_put hc hoff p _

/-- No byte outside a bucket's line changes as one of its slots is written. -/
theorem read8_put_slot {c : KView} (hc : c.Fit) (hoff : c.k.off % 128 = 0) {b i : Nat} (hi : i < 7) (e : BitVec 128) {x : Nat}
    (hx : x / 128 ≠ c.line b / 128) : (c.put (.slot b i) e).s.read8 x = c.s.read8 x := by
  refine KView.read8_put hc _ e ?_ fun b' i' h => ?_
  · rw [c.line_eq] at hx
    rw [c.at_slot, c.line_eq]
    omega
  · obtain ⟨rfl, -⟩ := KPlace.slot.inj h
    exact line_div hoff hx

theorem live_of_view {v : KView} {core : Nat} {k' : KTable} (hcore : v.core = core) (hk : v.k.Like k') (p : KPlace) :
    Claims.live v.s core k' p = if kLive (v.entry p) = true then some (v.entry p) else none := by
  subst hcore
  rw [live_like _ _ hk, live_eq]

/-! ## Places that were free -/

/-- The first of some numbered places that passes a test. -/
theorem find_range {f : Nat → KPlace} {q : KPlace → Bool} {n i : Nat} (hi : i < n) (h : q (f i) = true)
    (hbefore : ∀ j < i, q (f j) = false) : ((List.range n).map f).find? q = some (f i) := by
  have hfind : (List.range n).find? (q ∘ f) = some i := by
    rw [List.find?_range_eq_some]
    exact ⟨h, List.mem_range.2 hi, fun j hj => by rw [Function.comp_apply, hbefore j hj]; rfl⟩
  rw [List.find?_map, hfind]
  rfl

theorem find_range_none {f : Nat → KPlace} {q : KPlace → Bool} {n : Nat} (h : ∀ i < n, q (f i) = false) :
    ((List.range n).map f).find? q = none := by
  rw [List.find?_eq_none]
  intro p hp
  obtain ⟨i, hi, rfl⟩ := List.mem_map.1 hp
  rw [h i (List.mem_range.1 hi)]
  exact Bool.false_ne_true

theorem not_live_iff (c : KView) (p : KPlace) : Claims.live c.s c.core c.k p = none ↔ (!kLive (c.entry p)) = true := by
  rw [live_none_iff, Bool.not_eq_true']

theorem live_iff (c : KView) (p : KPlace) : Claims.live c.s c.core c.k p ≠ none ↔ (!kLive (c.entry p)) = false := by
  rw [ne_eq, live_none_iff, Bool.not_eq_false, Bool.not_eq_false']

theorem not_hit_of_none {c : KView} {key : Word32} (h : Claims.found c.s c.core c.k key = none) {p : KPlace}
    (hp : p ∈ Claims.places c.s c.core c.k key) : c.hit key p = false := by
  rw [found_eq, Option.map_eq_none_iff, List.find?_eq_none] at h
  exact Bool.eq_false_of_not_eq_true (h p hp)

/-- An entry placed in the first free slot of its window is found there. -/
theorem found_put {c : KView} (hc : c.Fit) (hlogb : 4 ≤ c.k.logb) {key : Word32} {q : Nat} (hq : q < 28)
    (hnone : Claims.found c.s c.core c.k key = none) {e : BitVec 128} (hlive : kLive e = true) (hkey : kKey e = key) :
    Claims.found (c.put (.slot ((c.k.home key + q / 7) % 2 ^ c.k.logb) (q % 7)) e).s c.core c.k key =
      some (.slot ((c.k.home key + q / 7) % 2 ^ c.k.logb) (q % 7), e) := by
  obtain ⟨f, hf⟩ : ∃ f : Nat → KPlace, f = fun i => .slot ((c.k.home key + i / 7) % 2 ^ c.k.logb) (i % 7) := ⟨_, rfl⟩
  have hhas (i : Nat) : c.k.Has (f i) := by
    rw [hf]
    exact window_has c.k key i
  have hat : KPlace.slot ((c.k.home key + q / 7) % 2 ^ c.k.logb) (q % 7) = f q := by rw [hf]
  rw [hat]
  have hview (p : KPlace) : KView.entry ⟨(c.put (f q) e).s, c.core, c.k⟩ p = (c.put (f q) e).entry p := by
    rw [hf]
    rfl
  have hself : KView.hit ⟨(c.put (f q) e).s, c.core, c.k⟩ key (f q) = true := by
    unfold KView.hit
    rw [hview, KView.entry_put_self hc (hhas q), hlive, hkey, beq_self_eq_true]
    rfl
  have hother (j : Nat) (hj : j < q) : KView.hit ⟨(c.put (f q) e).s, c.core, c.k⟩ key (f j) = false := by
    have hne : f j ≠ f q := fun h => hj.ne (window_inj hlogb key (hj.trans hq) hq (by rw [hf] at h; exact h))
    have hold : c.hit key (f j) = false := not_hit_of_none hnone (by
      rw [places_eq, window_eq, ← hf]
      exact List.mem_append_left _ (List.mem_map.2 ⟨j, List.mem_range.2 (hj.trans hq), rfl⟩))
    unfold KView.hit at hold ⊢
    rw [hview, KView.entry_put_ne hc (hhas q) (hhas j) hne]
    exact hold
  rw [found_eq, places_eq, window_eq, ← hf, List.find?_append, find_range hq hself hother]
  show some (f q, KView.entry ⟨(c.put (f q) e).s, c.core, c.k⟩ (f q)) = _
  rw [hview, KView.entry_put_self hc (hhas q)]

theorem overflowed_like {s : State} {core : Nat} {k k' : KTable} (h : k.Like k') (key : Word32) :
    KView.overflowed ⟨s, core, k'⟩ key = KView.overflowed ⟨s, core, k⟩ key := by
  obtain ⟨hoff, hlogb, -⟩ := h
  unfold KView.overflowed KView.line KTable.home
  dsimp only
  rw [hoff, hlogb]

/-- A record of the table stands among the places of its key once the home bucket overflows. -/
theorem record_mem_places {v : KView} {core : Nat} {k' : KTable} {key : Word32} {r : Nat} (hcore : v.core = core) (hk : v.k.Like k')
    (h : v.overflowed key = true) (hr : r < k'.sphw) : .record r ∈ Claims.places v.s core k' key := by
  subst hcore
  rw [places_eq, overflowed_like hk, show KView.overflowed ⟨v.s, v.core, v.k⟩ key = true from h, if_pos rfl]
  exact List.mem_append_right _ (List.mem_map.2 ⟨r, List.mem_range.2 hr, rfl⟩)

/-! ## The obligation -/

theorem exec_kprb {s : State} {g : Group} {h : Hdr} {ty : ITy} {d a b e : Opd} {t : Team} {n c : Nat} {k : KTable}
    (hw : (Instr.kprb h ty d a b e).wellFormed = true) (hg : s.group? s.cur = some g) (htable : Claims.table s g e t n c k)
    (hheld : g.checkHeld [(d, 32), (a, 32), (b, ty.width)] = .ok ()) {f : Nat → Option (KPlace × BitVec 128)}
    (hf : ∀ i, f i = Claims.found s c k ((g.srcLane a 32 i).setWidth 32)) : exec (.kprb h ty d a b e) s =
      .next ((Claims.joined s g t n k).finish g h [] [{
        writes := Claims.statuses g h d (fun i => probeStatus (f i)) ++ g.writesTo b false ty.width (g.active h) (fun i =>
          BitVec.ofNat 128 ((probeValue (f i)).toNat % 2 ^ ty.width))
        unit := .keyTable }] none none) := by
  have hfit := fit_of_table htable
  obtain ⟨⟨nd, rfl⟩, nb, rfl⟩ : (∃ n, d = .v n) ∧ ∃ n, b = .v n := by
    simp only [Instr.wellFormed, Bool.and_eq_true] at hw
    obtain ⟨⟨⟨⟨⟨-, hd⟩, -⟩, hb⟩, -⟩, -⟩ := hw
    exact ⟨Opd.v_of_isV hd, Opd.v_of_isV hb⟩
  refine exec_completes (u := false) (body := afterAcquires (laneFormBody h (.v nd) a e [(.v nb, ty.width)] (fun g => g.active h)
    (some (.v nb, ty.width)) (fun _ => probeAct))) rfl hw hg nofun ?_
  refine (holding_free htable.1.1).trans ?_
  rw [laneFormBody_ok htable hheld (acts_keep (probeAct_eq hfit) _)]
  have hout (i : Nat) (hi : (g.active h).getLsbD i = true) :=
    outOf_groups (fun i => (g.srcLane a 32 i).setWidth 32) (lanesOf (g.active h)) (fun key => probeStatus (Claims.found s c k key))
      (fun key => probeValue (Claims.found s c k key)) ((mem_lanesOf _ i).2 hi)
  dsimp only
  rw [Group.writesTo_congr_on g nd false 32 (f' := fun i => BitVec.ofNat 128 (probeStatus (f i))) fun i hi => by
      rw [hout i hi, hf i],
    Group.writesTo_congr_on g nb false ty.width (f' := fun i => BitVec.ofNat 128 ((probeValue (f i)).toNat % 2 ^ ty.width)) fun i hi => by
      rw [hout i hi, hf i]]
  rfl

/-- How an instruction over table n ends that gives a key group's lanes their statuses. -/
def keyEnds (i : Instr) (s : State) (g : Group) (h : Hdr) (d : Opd) (t : Team) (n : Nat) (s1 : State) (k1 : KTable)
    (first rest : Nat) : Prop :=
  exec i s = .next ((Claims.joined s1 g t n k1).finish g h []
    [{ unit := .keyTable, writes := Claims.statuses g h d (Claims.firstRest g h first rest) }] none none)

section OneKey
variable {s : State} {g : Group} {h : Hdr} {d a e : Opd} {t : Team} {n c : Nat} {k : KTable} {key : Word32} {low : Nat}
  (hg : s.group? s.cur = some g) (htable : Claims.table s g e t n c k) (hlow : lowest (g.contributors h) = some low)
  (hkeys : ∀ j, (g.contributors h).getLsbD j = true → (g.srcLane a 32 j).setWidth 32 = key)
include hg htable hlow hkeys

omit hg htable hkeys in
theorem head_low : (lanesOf (g.contributors h)).headD 0 = low := by
  rw [List.headD_eq_head?_getD]
  exact congrArg (Option.getD · 0) hlow

theorem keyEnds_of {held : List (Opd × Nat)} (hheld : g.checkHeld ((d, 32) :: (a, 32) :: held) = .ok ()) {i : Instr}
    {act : Group → KAct} {first rest : Nat} {c1 : KView} {k1 : KTable} {o : KOut}
    (hx : exec i s = issue s i h false (afterAcquires (laneFormBody h d a e held (fun g => g.contributors h) none act)))
    (hw : i.wellFormed = true) (hact : act g ⟨s, c, k⟩ key (lanesOf (g.contributors h)) = .ok (c1, o)) (hk : c1.k = k1)
    (hout : ∀ j, (outOf o j).1 = Claims.firstRest g h first rest j) : keyEnds i s g h d t n c1.s k1 first rest := by
  subst hk
  exact exec_laneForm htable hheld hx hw hg hlow hkeys hact hout

theorem kacc_found {op : KOp} {ty : ITy} {b : Opd} (hw : (Instr.kacc h op ty d a b e).wellFormed = true)
    (hheld : g.checkHeld [(d, 32), (a, 32), (b, ty.width)] = .ok ()) {p : KPlace} {x : BitVec 128}
    (hfound : Claims.found s c k key = some (p, x)) {v : Code}
    (hv : v = foldedVal op ty (fun i => g.srcLane b ty.width i) (lanesOf (g.contributors h)) low) :
    ∃ s1 : State, keyEnds (.kacc h op ty d a b e) s g h d t n s1 k (1 + spillBit p) (1 + spillBit p) ∧
      Claims.live s1 c k p = some (Claims.entry 1 (x.extractLsb' 96 24).toNat
        (Claims.kvalue ty.width (kValue x).toNat (Claims.step (Claims.kop op) ty
          (BitVec.ofNat 128 ((kValue x).toNat % 2 ^ ty.width)) v).1.toNat) key) ∧
      (k.off % 128 = 0 → Claims.keepsPlace s s1 c k p) := by
  have hfit := fit_of_table htable
  obtain ⟨hx, hlive, hkey, -⟩ := found_entry hfound
  have hact := accAct_found (op := op) (ty := ty) (val := fun i => g.srcLane b ty.width i) (lanes := lanesOf (g.contributors h))
    hfit hfound
  rw [head_low hlow, ← hv, entry_withValue hlive (kMerge_toNat _ _ _), hkey] at hact
  refine ⟨_, keyEnds_of hg htable hlow hkeys hheld (act := fun g => accAct op ty (fun i => g.srcLane b ty.width i)) rfl hw hact
    (KView.put_core_k _ _ _).2 (outOf_same g h _ _), ?_, fun hoff => keepsPlace_put hfit hoff p _⟩
  have hlike : (KView.put ⟨s, c, k⟩ p (Claims.entry 1 (x.extractLsb' 96 24).toNat
      (Claims.kvalue ty.width (kValue x).toNat (Claims.step (Claims.kop op) ty
        (BitVec.ofNat 128 ((kValue x).toNat % 2 ^ ty.width)) v).1.toNat) key)).k.Like k := by
    rw [(KView.put_core_k _ _ _).2]
    exact KTable.Like.refl k
  rw [live_of_view (KView.put_core_k _ _ _).1 hlike, entry_put_found hfit hfound, kLive_entry, if_pos rfl]

/-- `KINS` and `KACC` of a key that has no entry: they end as the placement does. -/
theorem newEnds {i : Instr} {op : KOp} {ty : ITy} {b : Opd} {r v : Nat} (hw : i.wellFormed = true)
    (hheld : g.checkHeld [(d, 32), (a, 32), (b, ty.width)] = .ok ()) (hnone : Claims.found s c k key = none)
    (hi : (i = .kins h ty d a b e ∧ r = 1 ∧ v = (g.srcLane b ty.width low).toNat) ∨
      i = .kacc h op ty d a b e ∧ r = 0 ∧ v = Claims.kvalue ty.width 0 (Claims.step (Claims.kop op) ty
        (Claims.ident (Claims.kop op) ty) (foldedVal op ty (fun j => g.srcLane b ty.width j) (lanesOf (g.contributors h)) low)).1.toNat) :
    ∃ value : Word64, value.toNat = v % 2 ^ 64 ∧ ∀ res c1, KView.place ⟨s, c, k⟩ key value = .ok (res, c1) →
      keyEnds i s g h d t n c1.s c1.k (placeFirst res) (placeRest r res) := by
  have hfit := fit_of_table htable
  rcases hi with ⟨rfl, rfl, rfl⟩ | ⟨rfl, rfl, rfl⟩
  · refine ⟨(g.srcLane b ty.width low).setWidth 64, BitVec.toNat_setWidth _ _, fun res c1 hp => ?_⟩
    refine keyEnds_of hg htable hlow hkeys hheld (act := fun g => insertAct (fun i => (g.srcLane b ty.width i).setWidth 64)) rfl hw
      (insertAct_new hfit hnone ?_) rfl (outOf_first g h _ _)
    rw [head_low hlow]
    exact hp
  · have hop : op.accepts ty = true := by
      simp only [Instr.wellFormed, Bool.and_eq_true] at hw
      obtain ⟨⟨⟨⟨⟨⟨-, hop⟩, -⟩, -⟩, -⟩, -⟩, -⟩ := hw
      exact hop
    refine ⟨_, kMerge_toNat ty.width 0 _, fun res c1 hp => ?_⟩
    refine keyEnds_of hg htable hlow hkeys hheld (act := fun g => accAct op ty (fun i => g.srcLane b ty.width i)) rfl hw
      (accAct_new hfit hop hnone ?_) rfl (outOf_first g h _ _)
    rw [head_low hlow]
    exact hp

end OneKey

/-! ### The outcomes of a placement -/

section NewEntry
variable {s : State} {g : Group} {h : Hdr} {d : Opd} {t : Team} {n c : Nat} {k : KTable} {key : Word32} {i : Instr} {r v : Nat}
  {value : Word64} (hfit : KView.Fit ⟨s, c, k⟩) (hvalue : value.toNat = v % 2 ^ 64)
  (hnew : ∀ res c1, KView.place ⟨s, c, k⟩ key value = .ok (res, c1) →
    keyEnds i s g h d t n c1.s c1.k (placeFirst res) (placeRest r res))
include hnew

theorem newEnds_seqFull (hseq : 2 ^ 24 ≤ k.nextseq) : keyEnds i s g h d t n s k 4 4 :=
  hnew (.error 4) ⟨s, c, k⟩ (place_seqFull hseq)

include hfit

theorem newEnds_full (hseq : k.nextseq < 2 ^ 24) (hwindow : KView.free ⟨s, c, k⟩ (k.window key) = none)
    (hrecords : KView.free ⟨s, c, k⟩ k.records = none) (hcap : k.cap ≤ k.sphw) : keyEnds i s g h d t n s k 3 3 :=
  hnew (.error 3) ⟨s, c, k⟩ (place_full hfit hseq hwindow hrecords hcap)

include hvalue

theorem newEnds_slot (hlogb : 4 ≤ k.logb) (hnone : Claims.found s c k key = none) (hseq : k.nextseq < 2 ^ 24) {q : Nat} (hq : q < 28)
    (hfree : KView.free ⟨s, c, k⟩ (k.window key) = some (.slot ((k.home key + q / 7) % 2 ^ k.logb) (q % 7))) :
    ∃ s1 : State, keyEnds i s g h d t n s1 { k with nextseq := k.nextseq + 1, bklive := k.bklive + 1 } 0 r ∧
      Claims.found s1 c k key = some (.slot ((k.home key + q / 7) % 2 ^ k.logb) (q % 7), Claims.entry 1 k.nextseq v key) ∧
      ∀ x, x / 128 ≠ scrLoc c (k.off + 128 * ((k.home key + q / 7) % 2 ^ k.logb)) / 128 → k.off % 128 = 0 →
        s1.read8 x = s.read8 x := by
  obtain ⟨p, hp⟩ : ∃ p, p = KPlace.slot ((k.home key + q / 7) % 2 ^ k.logb) (q % 7) := ⟨_, rfl⟩
  rw [← hp] at hfree ⊢
  have hends := hnew (.ok p) (KView.slotted ⟨s, c, k⟩ p (kEntry 1 k.nextseq value key)) (place_slot hfit hseq hfree)
  rw [kEntry_eq _ hvalue] at hends
  have hr : placeRest r (.ok p) = r := by rw [hp]; exact Nat.zero_add r
  have hfirst : placeFirst (.ok p) = 0 := by rw [hp]; rfl
  have hk : (KView.slotted ⟨s, c, k⟩ p (Claims.entry 1 k.nextseq v key)).k =
      { k with nextseq := k.nextseq + 1, bklive := k.bklive + 1 } := by rw [hp]; rfl
  rw [hr, hfirst, hk] at hends
  refine ⟨_, hends, ?_, fun x hx hoff => ?_⟩
  · rw [hp]
    exact found_put hfit hlogb hq hnone (kLive_entry _ _ _) (kKey_entry _ _ _)
  · rw [hp]
    exact read8_put_slot hfit hoff (Nat.mod_lt _ (by decide)) _ hx

theorem newEnds_spills (hseq : k.nextseq < 2 ^ 24) (hwindow : KView.free ⟨s, c, k⟩ (k.window key) = none) {r1 : Nat} (hr1 : r1 < k.cap)
    (hfree : KView.free ⟨s, c, k⟩ k.records = some (.record r1) ∨
      KView.free ⟨s, c, k⟩ k.records = none ∧ k.sphw < k.cap ∧ KPlace.record r1 = .record k.sphw) :
    ∃ (s1 : State) (k1 : KTable), keyEnds i s g h d t n s1 k1 8 (8 + r) ∧
      k1 = { k with nextseq := k.nextseq + 1, splive := k.splive + 1, sphw := max k.sphw (r1 + 1) } ∧
      Claims.live s1 c k1 (.record r1) = some (Claims.entry 1 k.nextseq v key) ∧ .record r1 ∈ Claims.places s1 c k1 key ∧
      (k.off % 128 = 0 → Claims.keeps s s1 c k (k.home key) (.record r1)) := by
  have hends := hnew (.ok (.record r1)) (KView.recorded ⟨s, c, k⟩ key (.record r1) (kEntry 1 k.nextseq value key))
    (place_spills hfit hseq hwindow hfree)
  rw [kEntry_eq _ hvalue] at hends
  obtain ⟨u, hu⟩ : ∃ u, u = KView.spilled ⟨s, c, k⟩ key (.record r1) (Claims.entry 1 k.nextseq v key) := ⟨_, rfl⟩
  have hs : (KView.recorded ⟨s, c, k⟩ key (.record r1) (Claims.entry 1 k.nextseq v key)).s = u.s := by rw [hu]; rfl
  rw [hs] at hends
  obtain ⟨hcore, hk⟩ := KView.spilled_core_k hfit key (.record r1) (Claims.entry 1 k.nextseq v key)
  rw [← hu] at hcore hk
  have hlike : u.k.Like (k.placed (.record r1)) := by
    rw [hk]
    exact k.placed_like _
  refine ⟨u.s, k.placed (.record r1), hends, rfl, ?_, ?_, fun hoff x hline hx => ?_⟩
  · rw [live_of_view hcore hlike, hu, KView.entry_spilled hfit key (p := .record r1) hr1, kLive_entry, if_pos rfl]
  · refine record_mem_places hcore hlike ?_ (lt_max_of_lt_right (Nat.lt_succ_self r1))
    rw [hu]
    exact KView.overflowed_spilled hfit key hr1 _
  · rw [hu]
    exact KView.read8_spilled hfit key r1 _ hx (line_div hoff hline)

end NewEntry

/-- Settles O40: many keys for `KPRB`, then the forms of one key, where it is found and where it is not. -/
theorem keyTableEntries : Obligations.KeyTableEntries := by
  unfold Obligations.KeyTableEntries
  refine ⟨?_, ?_⟩
  · intro s g h ty d a b e t n c k f ws hw hg htable hheld hf hws
    rw [exec_kprb hw hg htable hheld hf, hws]
    have hst : (fun i => probeStatus (f i)) = fun i => match f i with | some x => 1 + Claims.spill x.1 | none => 2 := by
      funext i
      cases f i <;> rfl
    have hval : (fun i => BitVec.ofNat 128 ((probeValue (f i)).toNat % 2 ^ ty.width)) = fun i => match f i with
        | some x => BitVec.ofNat 128 ((x.2.extractLsb' 32 64).toNat % 2 ^ ty.width)
        | none => 0 := by
      funext i
      cases f i with
      | none =>
        show BitVec.ofNat 128 (0 % 2 ^ ty.width) = 0
        rw [Nat.zero_mod]
        rfl
      | some x => rfl
    rw [hst, hval] <;> rfl
  · intro s g h d a e held t n c k key low i v r end_ hw hg htable hheld hlow hkeys hend
    have hfit := fit_of_table htable
    have hends (s1 : State) (k1 : KTable) (first rest : Nat) : end_ s1 k1 first rest = keyEnds i s g h d t n s1 k1 first rest := by
      rw [hend]
      rfl
    clear hend
    obtain ⟨hlogb4, hlogb12⟩ : 4 ≤ k.logb ∧ k.logb ≤ 12 := by
      obtain ⟨-, -, -, -, -, -, -, -, -, h4, h12, -⟩ := htable
      exact ⟨h4, h12⟩
    refine ⟨fun p x hfound => ⟨?_, ?_, ?_⟩, fun hnone => ⟨?_, ?_⟩⟩
    · intro ty b hi hb
      subst hi hb
      rw [hends, spill_eq]
      exact keyEnds_of (c1 := ⟨s, c, k⟩) hg htable hlow hkeys hheld (act := fun g => insertAct (fun i => (g.srcLane b ty.width i).setWidth 64))
        rfl hw (insertAct_found hfit hfound) rfl (outOf_same g h _ _)
    · intro hi hb
      subst hi hb
      refine ⟨(KView.tomb ⟨s, c, k⟩ p).s, (KView.tomb ⟨s, c, k⟩ p).k, ?_, ?_, ?_, fun hoff => keepsPlace_tomb hfit hoff p⟩
      · rw [hends, spill_eq]
        exact keyEnds_of (c1 := KView.tomb ⟨s, c, k⟩ p) hg htable hlow hkeys hheld (act := fun _ => deleteAct) rfl hw (deleteAct_found hfit hfound) rfl
          (outOf_first g h _ _)
      · rw [live_of_view (KView.tomb_core _ p) (KTable.Like.refl _), KView.entry_tomb, entry_put_found hfit hfound, kLive_tomb]
        rfl
      · rw [KView.tomb_k]
        cases p <;> rfl
    · intro op ty b hi hb hv
      subst hi hb
      obtain ⟨s1, hend, hlive, hkeep⟩ := kacc_found hg htable hlow hkeys hw hheld hfound (v := BitVec.ofNat 128 v) (by
        rw [hv, BitVec.ofNat_toNat, BitVec.setWidth_eq]
        rfl)
      refine ⟨s1, ?_, hlive, hkeep⟩
      rw [hends, spill_eq]
      exact hend
    · intro hi hb
      subst hi hb
      rw [hends]
      exact keyEnds_of (c1 := ⟨s, c, k⟩) hg htable hlow hkeys hheld (act := fun _ => deleteAct) rfl hw (deleteAct_none hfit hnone) rfl (outOf_same g h _ _)
    · intro op ty b hi hb
      subst hb
      obtain ⟨value, hvalue, hnew⟩ := newEnds hg htable hlow hkeys (op := op) hw hheld hnone hi
      simp only [hends]
      have hlive (p : KPlace) := live_iff ⟨s, c, k⟩ p
      have hdead (p : KPlace) := not_live_iff ⟨s, c, k⟩ p
      refine ⟨fun hseq => newEnds_seqFull hnew hseq, fun hseq => ⟨fun q hq hfree hbefore => ?_, fun hfull => ⟨fun r1 hr1 hcap hfree hbefore => ?_,
        fun hrecords => ⟨fun hcap => ?_, fun hcap => ?_⟩⟩⟩⟩
      · refine newEnds_slot hfit hvalue hnew hlogb4 hnone hseq hq ?_
        rw [window_eq]
        exact find_range (q := fun p => !kLive (KView.entry ⟨s, c, k⟩ p)) hq ((hdead _).1 hfree) fun j hj => (hlive _).1 (hbefore j hj)
      · have hwindow : KView.free ⟨s, c, k⟩ (k.window key) = none := by
          rw [window_eq]
          exact find_range_none fun j hj => (hlive _).1 (hfull j hj)
        obtain ⟨s1, k1, hend, hk1, hrest⟩ := newEnds_spills hfit hvalue hnew hseq hwindow hcap (Or.inl
          (find_range (f := .record) (q := fun p => !kLive (KView.entry ⟨s, c, k⟩ p)) hr1 ((hdead _).1 hfree)
            fun j hj => (hlive _).1 (hbefore j hj)))
        refine ⟨s1, k1, hend, ?_, hrest⟩
        rw [hk1, Nat.max_eq_left hr1]
      · have hwindow : KView.free ⟨s, c, k⟩ (k.window key) = none := by
          rw [window_eq]
          exact find_range_none fun j hj => (hlive _).1 (hfull j hj)
        exact newEnds_full hfit hnew hseq hwindow (find_range_none fun j hj => (hlive _).1 (hrecords j hj)) hcap
      · have hwindow : KView.free ⟨s, c, k⟩ (k.window key) = none := by
          rw [window_eq]
          exact find_range_none fun j hj => (hlive _).1 (hfull j hj)
        obtain ⟨s1, k1, hend, hk1, hrest⟩ := newEnds_spills hfit hvalue hnew hseq hwindow hcap (Or.inr
          ⟨find_range_none fun j hj => (hlive _).1 (hrecords j hj), hcap, rfl⟩)
        refine ⟨s1, k1, hend, ?_, hrest⟩
        rw [hk1, Nat.max_eq_right (Nat.le_succ k.sphw)]

end Sys2Proof.Machine

end


section
/-! # O13, first part: exact sums, products and the order of values (R66 to R68, R209, R211) -/

namespace Sys2Proof.Machine

/-! ## The number of a finite value -/

/-- A finite value has a number; a zero among them has the sign z. -/
def HasNumber (v : FVal) (x : ℚ) (z : Bool) : Prop :=
  ∃ n m e, v = .fin n m e ∧ Claims.rat (.fin n m e) = x ∧ (x < 0 → n = true) ∧ (0 < x → n = false) ∧ (x = 0 → n = z)

theorem magnitude_nonneg (m : Nat) (e : Int) : (0 : ℚ) ≤ m * 2 ^ e := by positivity

theorem rat_true (m : Nat) (e : Int) : Claims.rat (.fin true m e) = -(m * 2 ^ e) := by
  rw [rat_fin, if_pos rfl, mul_assoc, neg_one_mul]

theorem rat_false (m : Nat) (e : Int) : Claims.rat (.fin false m e) = m * 2 ^ e := by
  rw [rat_fin, if_neg Bool.false_ne_true, one_mul]

theorem abs_rat (n : Bool) (m : Nat) (e : Int) : |Claims.rat (.fin n m e)| = m * 2 ^ e := by
  cases n with
  | true => rw [rat_true, abs_neg, abs_of_nonneg (magnitude_nonneg m e)]
  | false => rw [rat_false, abs_of_nonneg (magnitude_nonneg m e)]

theorem magnitude_eq_zero {m : Nat} {e : Int} : (m : ℚ) * 2 ^ e = 0 ↔ m = 0 := by
  rw [mul_eq_zero, or_iff_left (zpow_pos two_pos e).ne', Nat.cast_eq_zero]

theorem magnitude_pos {m : Nat} {e : Int} (h : m ≠ 0) : (0 : ℚ) < m * 2 ^ e :=
  lt_of_le_of_ne (magnitude_nonneg m e) (fun h0 => h (magnitude_eq_zero.1 h0.symm))

theorem rat_eq_zero {n : Bool} {m : Nat} {e : Int} : Claims.rat (.fin n m e) = 0 ↔ m = 0 := by
  rw [← abs_eq_zero, abs_rat, magnitude_eq_zero]

theorem sign_of_neg {n : Bool} {m : Nat} {e : Int} (h : Claims.rat (.fin n m e) < 0) : n = true := by
  cases n with
  | true => rfl
  | false => exact absurd (rat_false m e ▸ h) (not_lt.2 (magnitude_nonneg m e))

theorem sign_of_pos {n : Bool} {m : Nat} {e : Int} (h : 0 < Claims.rat (.fin n m e)) : n = false := by
  cases n with
  | true => exact absurd (rat_true m e ▸ h) (not_lt.2 (neg_nonpos.2 (magnitude_nonneg m e)))
  | false => rfl

/-- The signs of a number's value follow from the number, but for a zero's. -/
theorem hasNumber_fin {n : Bool} {m : Nat} {e : Int} {x : ℚ} {z : Bool} (h : Claims.rat (.fin n m e) = x)
    (hz : x = 0 → n = z) : HasNumber (.fin n m e) x z :=
  ⟨n, m, e, rfl, h, fun hx => sign_of_neg (h ▸ hx), fun hx => sign_of_pos (h ▸ hx), hz⟩

/-- What is rounded of a value with a number is that number. -/
theorem HasNumber.isExact {n : Bool} {m : Nat} {e : Int} {x : ℚ} {z : Bool} (h : HasNumber (.fin n m e) x z) :
    Claims.isExact (exact n m e) x z := by
  obtain ⟨n', m', e', hv, hx, hneg, hpos, hzero⟩ := h
  obtain ⟨rfl, rfl, rfl⟩ := FVal.fin.inj hv
  exact ⟨rfl, by rw [← hx, abs_rat]; rfl, hneg, hpos, hzero⟩

/-! ## Sums -/

theorem rat_unit (n : Bool) (m : Nat) {e lo : Int} (h : lo ≤ e) :
    Claims.rat (.fin n m e) = (((if n then -1 else 1) * (m * 2 ^ (e - lo).toNat : Nat) : Int) : ℚ) * 2 ^ lo := by
  rw [rat_fin, zpow_quantum h]
  cases n <;> push_cast <;> ring

theorem rat_int (s lo : Int) : Claims.rat (.fin (decide (s < 0)) s.natAbs lo) = s * 2 ^ lo := by
  by_cases h : s < 0
  · rw [decide_eq_true h, rat_true, Nat.cast_natAbs, abs_of_neg h, Int.cast_neg, neg_mul, neg_neg]
  · rw [decide_eq_false h, rat_false, Nat.cast_natAbs, abs_of_nonneg (not_lt.1 h)]

theorem addFin_number (rd n1 n2 : Bool) (m1 m2 : Nat) (e1 e2 : Int) :
    HasNumber (addFin rd n1 m1 e1 n2 m2 e2) (Claims.rat (.fin n1 m1 e1) + Claims.rat (.fin n2 m2 e2))
      (if n1 = n2 then n1 else rd) := by
  have hlo : (2 : ℚ) ^ min e1 e2 ≠ 0 := (zpow_pos two_pos _).ne'
  rw [rat_unit n1 m1 (min_le_left e1 e2), rat_unit n2 m2 (min_le_right e1 e2), ← add_mul, ← Int.cast_add]
  unfold addFin
  dsimp only
  generalize (if n1 then (-1 : Int) else 1) * (m1 * 2 ^ (e1 - min e1 e2).toNat : Nat)
    + (if n2 then (-1 : Int) else 1) * (m2 * 2 ^ (e2 - min e1 e2).toNat : Nat) = s
  by_cases h0 : s = 0
  · rw [if_pos h0, h0, Int.cast_zero, zero_mul]
    exact hasNumber_fin (rat_eq_zero.2 rfl) (fun _ => rfl)
  · rw [if_neg h0]
    refine hasNumber_fin (rat_int s _) (fun h => ?_)
    rw [mul_eq_zero, or_iff_left hlo, Int.cast_eq_zero] at h
    exact absurd h h0

theorem addVal_number (rd n1 n2 : Bool) (m1 m2 : Nat) (e1 e2 : Int) :
    (addVal rd (.fin n1 m1 e1) (.fin n2 m2 e2)).2 = false ∧
    HasNumber (addVal rd (.fin n1 m1 e1) (.fin n2 m2 e2)).1 (Claims.rat (.fin n1 m1 e1) + Claims.rat (.fin n2 m2 e2))
      (if n1 = n2 then n1 else rd) :=
  ⟨rfl, addFin_number rd n1 n2 m1 m2 e1 e2⟩

/-! ## Products -/

theorem rat_mul (n1 n2 : Bool) (m1 m2 : Nat) (e1 e2 : Int) :
    Claims.rat (.fin (n1 != n2) (m1 * m2) (e1 + e2)) = Claims.rat (.fin n1 m1 e1) * Claims.rat (.fin n2 m2 e2) := by
  have hz : (2 : ℚ) ^ (e1 + e2) = 2 ^ e1 * 2 ^ e2 := zpow_add₀ two_ne_zero e1 e2
  have hs : (if n1 != n2 then (-1 : ℚ) else 1) = (if n1 then -1 else 1) * (if n2 then -1 else 1) := by
    cases n1 <;> cases n2 <;> norm_num
  rw [rat_fin, rat_fin, rat_fin, hz, hs]
  push_cast
  ring

theorem mulVal_fin (n1 n2 : Bool) (m1 m2 : Nat) (e1 e2 : Int) :
    mulVal (.fin n1 m1 e1) (.fin n2 m2 e2) = (.fin (n1 != n2) (m1 * m2) (e1 + e2), false) := rfl

theorem mul_number (n1 n2 : Bool) (m1 m2 : Nat) (e1 e2 : Int) :
    HasNumber (.fin (n1 != n2) (m1 * m2) (e1 + e2)) (Claims.rat (.fin n1 m1 e1) * Claims.rat (.fin n2 m2 e2)) (n1 != n2) :=
  hasNumber_fin (rat_mul n1 n2 m1 m2 e1 e2) (fun _ => rfl)

theorem rat_negate (n : Bool) (m : Nat) (e : Int) : Claims.rat (FVal.fin n m e).negate = -Claims.rat (.fin n m e) := by
  cases n with
  | true => exact (rat_false m e).trans (by rw [rat_true, neg_neg])
  | false => exact (rat_true m e).trans (by rw [rat_false])

/-! ## The order -/

theorem rat_below {n : Bool} {m : Nat} {e : Int} (h : (n && decide (m ≠ 0)) = true) :
    Claims.rat (.fin n m e) = -(m * 2 ^ e) ∧ (0 : ℚ) < m * 2 ^ e := by
  rw [Bool.and_eq_true, decide_eq_true_iff] at h
  obtain ⟨rfl, h0⟩ := h
  exact ⟨rat_true m e, magnitude_pos h0⟩

theorem rat_above {n : Bool} {m : Nat} {e : Int} (h : ¬ (n && decide (m ≠ 0)) = true) :
    Claims.rat (.fin n m e) = m * 2 ^ e := by
  cases n with
  | false => exact rat_false m e
  | true =>
    have h0 : m = 0 := by
      by_contra h0
      exact h (by rw [decide_eq_true h0]; rfl)
    rw [rat_eq_zero.2 h0, magnitude_eq_zero.2 h0]

theorem ltVal_iff (n1 n2 : Bool) (m1 m2 : Nat) (e1 e2 : Int) :
    ltVal (.fin n1 m1 e1) (.fin n2 m2 e2) = true ↔ Claims.rat (.fin n1 m1 e1) < Claims.rat (.fin n2 m2 e2) := by
  have hu1 := magnitude_nonneg m1 e1
  have hu2 := magnitude_nonneg m2 e2
  unfold ltVal
  dsimp only
  split
  · next h1 =>
    obtain ⟨hr1, hp1⟩ := rat_below (e := e1) h1
    split
    · next h2 =>
      obtain ⟨hr2, hp2⟩ := rat_below (e := e2) h2
      rw [magLt_iff, hr1, hr2, neg_lt_neg_iff]
    · next h2 =>
      rw [hr1, rat_above h2]
      exact iff_of_true rfl (by linarith)
  · next h1 =>
    split
    · next h2 =>
      obtain ⟨hr2, hp2⟩ := rat_below (e := e2) h2
      rw [rat_above h1, hr2]
      exact iff_of_false Bool.false_ne_true (by linarith)
    · next h2 =>
      rw [magLt_iff, rat_above h1, rat_above h2]

/-! ## The sum of several values -/

theorem foldl_addVal (l : List FVal) (hl : ∀ v ∈ l, ∃ n m e, v = .fin n m e) (n : Bool) (m : Nat) (e : Int) :
    ∃ n' m' e', l.foldl (fun acc v => (addVal false acc v).1) (.fin n m e) = .fin n' m' e' ∧
      Claims.rat (.fin n' m' e') = Claims.rat (.fin n m e) + (l.map Claims.rat).sum := by
  induction l generalizing n m e with
  | nil => exact ⟨n, m, e, rfl, by rw [List.map_nil, List.sum_nil, add_zero]⟩
  | cons v l ih =>
    obtain ⟨n1, m1, e1, rfl⟩ := hl v (List.mem_cons_self ..)
    obtain ⟨n2, m2, e2, hv, hx, -⟩ := addFin_number false n n1 m m1 e e1
    obtain ⟨n', m', e', hf, hs⟩ := ih (fun w hw => hl w (List.mem_cons_of_mem _ hw)) n2 m2 e2
    refine ⟨n', m', e', ?_, ?_⟩
    · rw [List.foldl_cons]
      show List.foldl _ (addFin false n m e n1 m1 e1) l = _
      rw [hv, hf]
    · rw [hs, hx, List.map_cons, List.sum_cons, add_assoc]

section Sums
variable {l : List FVal}

theorem any_inf (n : Bool) : l.any (fun v => v == .inf n) = true ↔ FVal.inf n ∈ l := by
  rw [List.any_eq_true]
  exact ⟨fun ⟨v, hv, h⟩ => by rwa [beq_iff_eq.1 h] at hv, fun h => ⟨_, h, beq_self_eq_true _⟩⟩

theorem sumVals_invalid : (sumVals l).2 = true ↔ FVal.inf true ∈ l ∧ FVal.inf false ∈ l := by
  rw [← any_inf, ← any_inf]
  unfold sumVals
  dsimp only
  generalize l.any (fun v => v == .inf false) = pos
  generalize l.any (fun v => v == .inf true) = neg
  cases pos <;> cases neg <;> cases l.any FVal.isNan <;> simp

theorem sumVals_nan (h : (∃ v ∈ l, v.isNan = true) ∨ (FVal.inf true ∈ l ∧ FVal.inf false ∈ l)) : (sumVals l).1 = .nan false := by
  rw [← any_inf, ← any_inf, ← List.any_eq_true] at h
  unfold sumVals
  dsimp only
  rw [if_pos]
  · rw [Bool.or_eq_true, Bool.and_eq_true]
    exact h.imp id And.symm

theorem sumVals_inf {n : Bool} (hnan : ∀ v ∈ l, ¬ v.isNan = true) (hboth : ¬ (FVal.inf true ∈ l ∧ FVal.inf false ∈ l))
    (h : FVal.inf n ∈ l) : (sumVals l).1 = .inf n := by
  rw [← any_inf, ← any_inf] at hboth
  have hn : l.any FVal.isNan = false := List.any_eq_false.2 hnan
  have hi := (any_inf n).2 h
  unfold sumVals
  dsimp only
  rw [hn]
  cases n with
  | true =>
    have hp : l.any (fun v => v == .inf false) = false := Bool.eq_false_iff.2 (fun hp => hboth ⟨hi, hp⟩)
    rw [hi, hp]
    rfl
  | false =>
    have hp : l.any (fun v => v == .inf true) = false := Bool.eq_false_iff.2 (fun hp => hboth ⟨hp, hi⟩)
    rw [hi, hp]
    rfl

/-- The sum of finite values is their exact sum; a zero is −0 where each of them, and one at least, is −0. -/
theorem sumVals_number (hl : ∀ v ∈ l, ∃ n m e, v = .fin n m e) : ∃ z : Bool, HasNumber (sumVals l).1 (l.map Claims.rat).sum z ∧
    (z = true ↔ l ≠ [] ∧ ∀ v ∈ l, v.isZero = true ∧ v.neg = true) := by
  have hn : l.any FVal.isNan = false := by
    refine List.any_eq_false.2 (fun v hv => ?_)
    obtain ⟨n, m, e, rfl⟩ := hl v hv
    exact Bool.false_ne_true
  have hi (n : Bool) : l.any (fun v => v == .inf n) = false := by
    refine Bool.eq_false_iff.2 (fun h => ?_)
    obtain ⟨n', m, e, hv⟩ := hl _ ((any_inf n).1 h)
    cases hv
  have hz : (l.all (fun v => v.isZero && v.neg) && !l.isEmpty) = true ↔ l ≠ [] ∧ ∀ v ∈ l, v.isZero = true ∧ v.neg = true := by
    rw [Bool.and_eq_true, List.all_eq_true, and_comm, Bool.not_eq_true', List.isEmpty_eq_false_iff]
    simp only [Bool.and_eq_true]
  obtain ⟨n, m, e, hf, hs⟩ := foldl_addVal l hl false 0 0
  rw [rat_eq_zero.2 rfl, zero_add] at hs
  refine ⟨_, ?_, hz⟩
  unfold sumVals
  dsimp only
  rw [hn, hi, hi, hf]
  by_cases h0 : m = 0
  · subst h0
    exact hasNumber_fin ((rat_eq_zero.2 rfl).trans (hs ▸ (rat_eq_zero.2 rfl).symm)) (fun _ => rfl)
  · have hnz : (FVal.fin n m e).isZero = false := by
      cases m with
      | zero => exact absurd rfl h0
      | succ k => rfl
    simp only [Bool.or_false, Bool.and_false, Bool.false_eq_true, if_false, hnz]
    refine hasNumber_fin hs (fun hx => ?_)
    rw [← hs, rat_eq_zero] at hx
    exact absurd hx h0

end Sums

/-! ## The sum of products -/

theorem isZero_fin (n : Bool) (m : Nat) (e : Int) : (FVal.fin n m e).isZero = true ↔ m = 0 := by
  cases m with
  | zero => exact iff_of_true rfl rfl
  | succ k => exact iff_of_false Bool.false_ne_true (Nat.succ_ne_zero k)

theorem mulVal_nan_iff (p : FVal × FVal) : (mulVal p.1 p.2).1.isNan = true ↔ Claims.nanProd p := by
  obtain ⟨x, y⟩ := p
  unfold Claims.nanProd Claims.infZero
  dsimp only
  cases x with
  | nan s => simp [mulVal, FVal.isNan]
  | inf a =>
    cases y with
    | nan s => simp [mulVal, FVal.isNan]
    | inf b => simp [mulVal, FVal.isNan, FVal.isZero]
    | fin b m e =>
      rw [isZero_fin]
      by_cases h : m = 0 <;> simp [mulVal, FVal.isNan, FVal.isZero, FVal.isInf, h]
  | fin a m e =>
    rw [isZero_fin]
    cases y with
    | nan s => simp [mulVal, FVal.isNan]
    | inf b => by_cases h : m = 0 <;> simp [mulVal, FVal.isNan, FVal.isZero, FVal.isInf, h]
    | fin b m2 e2 => simp [mulVal, FVal.isNan, FVal.isInf]

theorem mulVal_invalid_iff (p : FVal × FVal) : (mulVal p.1 p.2).2 = true ↔ Claims.infZero p := by
  obtain ⟨x, y⟩ := p
  unfold Claims.infZero
  dsimp only
  cases x with
  | nan s => simp [mulVal, FVal.isInf, FVal.isZero]
  | inf a =>
    cases y with
    | nan s => simp [mulVal, FVal.isZero]
    | inf b => simp [mulVal, FVal.isZero]
    | fin b m e =>
      rw [isZero_fin]
      by_cases h : m = 0 <;> simp [mulVal, FVal.isZero, FVal.isInf, h]
  | fin a m e =>
    rw [isZero_fin]
    cases y with
    | nan s => simp [mulVal, FVal.isInf]
    | inf b => by_cases h : m = 0 <;> simp [mulVal, FVal.isZero, FVal.isInf, h]
    | fin b m2 e2 => simp [mulVal, FVal.isInf]

theorem mulVal_inf_iff (n : Bool) (p : FVal × FVal) : (mulVal p.1 p.2).1 = .inf n ↔ Claims.infProd n p := by
  unfold Claims.infProd
  rw [← mulVal_nan_iff]
  obtain ⟨x, y⟩ := p
  dsimp only
  cases x with
  | nan s => simp [mulVal, FVal.isNan]
  | inf a =>
    cases y with
    | nan s => simp [mulVal, FVal.isNan]
    | inf b => simp [mulVal, FVal.isNan, FVal.isInf, FVal.neg]
    | fin b m e => by_cases h : m = 0 <;> simp [mulVal, FVal.isNan, FVal.isInf, FVal.neg, h]
  | fin a m e =>
    cases y with
    | nan s => simp [mulVal, FVal.isNan]
    | inf b => by_cases h : m = 0 <;> simp [mulVal, FVal.isNan, FVal.isInf, FVal.neg, h]
    | fin b m2 e2 => simp [mulVal, FVal.isInf]

/-- A product that is no NaN and no infinity is of two finite values. -/
theorem finite_of_product {p : FVal × FVal} (hn : ¬ Claims.nanProd p) (hi : ∀ n, ¬ Claims.infProd n p) :
    ∃ n1 m1 e1 n2 m2 e2, p = (.fin n1 m1 e1, .fin n2 m2 e2) := by
  have hinf : ¬ (p.1.isInf = true ∨ p.2.isInf = true) := fun h => hi _ ⟨hn, h, rfl⟩
  obtain ⟨x, y⟩ := p
  unfold Claims.nanProd at hn
  push_neg at hn hinf
  cases x with
  | nan s => exact absurd rfl hn.1
  | inf a => exact absurd rfl hinf.1
  | fin n1 m1 e1 =>
    cases y with
    | nan s => exact absurd rfl hn.2.1
    | inf a => exact absurd rfl hinf.2
    | fin n2 m2 e2 => exact ⟨n1, m1, e1, n2, m2, e2, rfl⟩

/-- The products of a list of pairs. -/
def products (l : List (FVal × FVal)) : List FVal := l.map (fun p => (mulVal p.1 p.2).1)

theorem sumProducts_eq (l : List (FVal × FVal)) :
    sumProducts l = ((sumVals (products l)).1, (sumVals (products l)).2 || l.any (fun p => (mulVal p.1 p.2).2)) := by
  unfold sumProducts products
  dsimp only
  rw [List.map_map, List.any_map]
  rfl

theorem inf_mem_products (n : Bool) (l : List (FVal × FVal)) : FVal.inf n ∈ products l ↔ ∃ p ∈ l, Claims.infProd n p := by
  simp only [products, List.mem_map, mulVal_inf_iff]

theorem nan_mem_products (l : List (FVal × FVal)) : (∃ v ∈ products l, v.isNan = true) ↔ ∃ p ∈ l, Claims.nanProd p := by
  simp only [products, List.mem_map, exists_exists_and_eq_and, mulVal_nan_iff]

/-- The products of a chunk are summed exactly (R66, R68). -/
theorem sumProducts_exact (l : List (FVal × FVal)) (both bad : Prop)
     (hboth : both ↔ (∃ p ∈ l, Claims.infProd true p) ∧ ∃ p ∈ l, Claims.infProd false p)
     (hbad : bad ↔ (∃ p ∈ l, Claims.nanProd p) ∨ both) :
     (bad → (sumProducts l).1 = .nan false) ∧
     (¬ bad → ∀ n, (∃ p ∈ l, Claims.infProd n p) → (sumProducts l).1 = .inf n) ∧
     (¬ bad → (∀ n, ∀ p ∈ l, ¬ Claims.infProd n p) → ∀ x : ℚ, x = (l.map (fun p => Claims.rat p.1 * Claims.rat p.2)).sum →
       ∃ n m e, (sumProducts l).1 = .fin n m e ∧ Claims.rat (.fin n m e) = x ∧ (x < 0 → n = true) ∧ (0 < x → n = false) ∧
         (x = 0 → (n = true ↔ l ≠ [] ∧ ∀ p ∈ l, (p.1.isZero = true ∨ p.2.isZero = true) ∧ p.1.neg ≠ p.2.neg))) ∧
     ((sumProducts l).2 = true ↔ (∃ p ∈ l, Claims.infZero p) ∨ both) := by
  rw [← inf_mem_products, ← inf_mem_products] at hboth
  rw [← nan_mem_products] at hbad
  rw [sumProducts_eq]
  dsimp only
  refine ⟨fun h => sumVals_nan ((hbad.1 h).imp id hboth.1), fun h n hn => ?_, fun h hfin x hx => ?_, ?_⟩
  · rw [hbad, not_or] at h
    exact sumVals_inf (fun v hv hv' => h.1 ⟨v, hv, hv'⟩) (fun hb => h.2 (hboth.2 hb)) ((inf_mem_products n l).2 hn)
  · rw [hbad, not_or] at h
    have hpair : ∀ p ∈ l, ∃ n1 m1 e1 n2 m2 e2, p = (.fin n1 m1 e1, .fin n2 m2 e2) := fun p hp =>
      finite_of_product (fun hn => h.1 ((nan_mem_products l).2 ⟨p, hp, hn⟩)) (fun n => hfin n p hp)
    have hl : ∀ v ∈ products l, ∃ n m e, v = .fin n m e := by
      intro v hv
      obtain ⟨p, hp, rfl⟩ := List.mem_map.1 hv
      obtain ⟨n1, m1, e1, n2, m2, e2, rfl⟩ := hpair p hp
      exact ⟨_, _, _, rfl⟩
    have hsum : ((products l).map Claims.rat).sum = x := by
      rw [hx, products, List.map_map]
      refine congrArg List.sum (List.map_congr_left (fun p hp => ?_))
      obtain ⟨n1, m1, e1, n2, m2, e2, rfl⟩ := hpair p hp
      exact rat_mul n1 n2 m1 m2 e1 e2
    obtain ⟨z, ⟨n, m, e, hv, hr, hneg, hpos, hzero⟩, hz⟩ := sumVals_number hl
    rw [hsum] at hr hneg hpos hzero
    refine ⟨n, m, e, hv, hr, hneg, hpos, fun h0 => ?_⟩
    rw [hzero h0, hz]
    refine and_congr (not_congr List.map_eq_nil_iff) ?_
    unfold products
    rw [List.forall_mem_map]
    refine forall₂_congr (fun p hp => ?_)
    obtain ⟨n1, m1, e1, n2, m2, e2, rfl⟩ := hpair p hp
    rw [mulVal_fin, isZero_fin, isZero_fin, isZero_fin, Nat.mul_eq_zero]
    exact and_congr_right (fun _ => bne_iff_ne)
  · rw [Bool.or_eq_true, sumVals_invalid, ← hboth, List.any_eq_true, or_comm]
    simp only [mulVal_invalid_iff]

end Sys2Proof.Machine

end


section
/-! # O13, second part: quotients and roots (R54, R55) -/

namespace Sys2Proof.Machine

/-! ## Quotients -/

theorem cast_div_add_mod (n : Nat) {d : Nat} (hd : d ≠ 0) : ((n / d : Nat) : ℚ) + (n % d : Nat) / d = n / d := by
  have hd' : (d : ℚ) ≠ 0 := Nat.cast_ne_zero.2 hd
  rw [eq_div_iff hd', add_mul, div_mul_cancel₀ _ hd']
  exact_mod_cast Nat.div_add_mod' n d

theorem quotient_scaled (m1 m2 : Nat) (e1 e2 : Int) :
    ((m1 : ℚ) * 2 ^ e1) / (m2 * 2 ^ e2) = ((m1 * 2 ^ guardBits : Nat) : ℚ) / m2 * 2 ^ (e1 - e2 - guardBits) := by
  rw [zpow_sub₀ two_ne_zero, zpow_sub₀ two_ne_zero, zpow_natCast]
  have h2 : (2 : ℚ) ^ guardBits ≠ 0 := pow_ne_zero _ two_ne_zero
  push_cast
  field_simp

theorem quotient_fits (neg : Bool) (m1 : Nat) {m2 : Nat} (h2 : m2 ≠ 0) (e1 e2 : Int) :
    Claims.fits (quotient neg m1 e1 m2 e2) ((m1 : ℚ) * 2 ^ e1 / (m2 * 2 ^ e2)) := by
  have hpos : (0 : ℚ) < m2 := Nat.cast_pos.2 (Nat.pos_of_ne_zero h2)
  rw [quotient_scaled]
  unfold Claims.fits quotient
  dsimp only
  generalize m1 * 2 ^ guardBits = n
  rw [← cast_div_add_mod n h2]
  by_cases hr : n % m2 = 0
  · rw [if_neg (by rw [hr]; decide), hr, Nat.cast_zero, zero_div, add_zero]
  · have hmod : ((n % m2 : Nat) : ℚ) < m2 := Nat.cast_lt.2 (Nat.mod_lt _ (Nat.pos_of_ne_zero h2))
    have hmod0 : (0 : ℚ) < (n % m2 : Nat) := Nat.cast_pos.2 (Nat.pos_of_ne_zero hr)
    rw [if_pos (bne_iff_ne.2 hr)]
    constructor
    · exact mul_lt_mul_of_pos_right (lt_add_of_pos_right _ (div_pos hmod0 hpos)) (zpow_pos two_pos _)
    · exact mul_lt_mul_of_pos_right (add_lt_add_of_le_of_lt le_rfl ((div_lt_one hpos).2 hmod)) (zpow_pos two_pos _)

theorem quotient_large (neg : Bool) {m1 m2 : Nat} (h1 : m1 ≠ 0) (h2 : m2 ≠ 0) (hlt : m2 < 2 ^ 64) (e1 e2 : Int) :
    2 ^ 90 < (quotient neg m1 e1 m2 e2).man := by
  have h : 2 ^ 96 * m2 ≤ m1 * 2 ^ 160 := by
    have := Nat.pos_of_ne_zero h1
    omega
  exact (by norm_num : 2 ^ 90 < 2 ^ 96).trans_le ((Nat.le_div_iff_mul_le (Nat.pos_of_ne_zero h2)).2 h)

/-! ## Roots -/

theorem isqrtFrom_eq_sqrt (n : Nat) {k r : Nat} (hlo : r * r ≤ n) (hhi : n < (r + 2 ^ k) * (r + 2 ^ k)) :
    isqrtFrom n k r = Nat.sqrt n := by
  induction k generalizing r with
  | zero => exact Nat.eq_sqrt.2 ⟨hlo, hhi⟩
  | succ k ih =>
    unfold isqrtFrom
    dsimp only
    split
    · next h => exact ih h (by rwa [Nat.pow_succ, Nat.mul_two, ← Nat.add_assoc] at hhi)
    · next h => exact ih hlo (Nat.lt_of_not_le h)

theorem isqrt_eq_sqrt (n : Nat) : isqrt n = Nat.sqrt n := by
  refine isqrtFrom_eq_sqrt n (Nat.zero_le n) ?_
  rw [Nat.zero_add, ← Nat.pow_add]
  exact Nat.lt_log2_self.trans_le (Nat.pow_le_pow_right two_pos (by omega))

/-- A magnitude of an even exponent, as the roots take it. -/
def evenMan (m : Nat) (e : Int) : Nat := if e % 2 = 1 then 2 * m else m

/-- Half of that exponent. -/
def halfExp (e : Int) : Int := (if e % 2 = 1 then e - 1 else e) / 2

theorem even_scaled (m : Nat) (e : Int) : (m : ℚ) * 2 ^ e = evenMan m e * (2 ^ halfExp e) ^ 2 := by
  rw [← zpow_natCast, ← zpow_mul]
  unfold evenMan halfExp
  split
  · next h =>
    rw [show (e - 1) / 2 * ((2 : Nat) : Int) = e - 1 from by push_cast; omega, zpow_sub_one₀ two_ne_zero]
    push_cast
    ring
  · next h => rw [show e / 2 * ((2 : Nat) : Int) = e from by push_cast; omega]

theorem evenMan_ne_zero {m : Nat} (h : m ≠ 0) (e : Int) : evenMan m e ≠ 0 := by
  unfold evenMan
  split <;> omega

theorem evenMan_le (m : Nat) (e : Int) : evenMan m e ≤ 2 * m := by
  unfold evenMan
  split <;> omega

theorem root_eq (m : Nat) (e : Int) : root m e = ⟨false, Nat.sqrt (evenMan m e * 2 ^ 320), halfExp e - 160,
    Nat.sqrt (evenMan m e * 2 ^ 320) * Nat.sqrt (evenMan m e * 2 ^ 320) != evenMan m e * 2 ^ 320⟩ := by
  rw [← isqrt_eq_sqrt]
  rfl

theorem sqrt_large {n : Nat} (h : 2 ^ 200 ≤ n) : 2 ^ 90 < Nat.sqrt n :=
  (by norm_num : 2 ^ 90 < 2 ^ 100).trans_le (Nat.le_sqrt.2 (by rwa [← Nat.pow_add]))

/-- A square in units of the root's last place. -/
theorem root_square (r : ℚ) (E : Int) : (r * 2 ^ (E - 160)) ^ 2 = r * r * ((2 : ℚ) ^ (E - 160)) ^ 2 := by ring

theorem root_scaled (m : Nat) (e : Int) :
    (m : ℚ) * 2 ^ e = ((evenMan m e * 2 ^ 320 : Nat) : ℚ) * ((2 : ℚ) ^ (halfExp e - 160)) ^ 2 := by
  rw [even_scaled, zpow_quantum (e := halfExp e - 160) (q := halfExp e) (by omega),
    show (halfExp e - (halfExp e - 160)).toNat = 160 from by omega, show (2 ^ 320 : Nat) = 2 ^ 160 * 2 ^ 160 from
      (Nat.pow_add 2 160 160)]
  push_cast
  ring

theorem root_exact {m : Nat} (h0 : m ≠ 0) (e : Int) : 2 ^ 90 < (root m e).man ∧
    (((root m e).man : ℚ) * 2 ^ (root m e).exp) ^ 2 ≤ m * 2 ^ e ∧
    (m : ℚ) * 2 ^ e < (((root m e).man + 1 : ℚ) * 2 ^ (root m e).exp) ^ 2 ∧
    ((root m e).more = false ↔ (((root m e).man : ℚ) * 2 ^ (root m e).exp) ^ 2 = m * 2 ^ e) := by
  have hu : (0 : ℚ) < ((2 : ℚ) ^ (halfExp e - 160)) ^ 2 := pow_pos (zpow_pos two_pos _) 2
  have hn : 2 ^ 320 ≤ evenMan m e * 2 ^ 320 := Nat.le_mul_of_pos_left _ (Nat.pos_of_ne_zero (evenMan_ne_zero h0 e))
  rw [root_scaled m e, root_eq]
  dsimp only
  rw [root_square, root_square]
  generalize evenMan m e * 2 ^ 320 = n at *
  refine ⟨sqrt_large ((Nat.pow_le_pow_right two_pos (by omega)).trans hn), ?_, ?_, ?_⟩
  · exact mul_le_mul_of_nonneg_right (by exact_mod_cast Nat.sqrt_le n) hu.le
  · exact mul_lt_mul_of_pos_right (by exact_mod_cast Nat.lt_succ_sqrt n) hu
  · rw [mul_left_inj' hu.ne', bne_eq_false_iff_eq]
    exact_mod_cast Iff.rfl

theorem rootRecip_eq (m : Nat) (e : Int) : rootRecip m e = ⟨false, Nat.sqrt (2 ^ 320 / evenMan m e), -halfExp e - 160,
    Nat.sqrt (2 ^ 320 / evenMan m e) * Nat.sqrt (2 ^ 320 / evenMan m e) * evenMan m e != 2 ^ 320⟩ := by
  rw [← isqrt_eq_sqrt]
  rfl

theorem rootRecip_scaled (r : ℚ) (m : Nat) (e : Int) :
    (r * 2 ^ (-halfExp e - 160)) ^ 2 * (m * 2 ^ e) = r * r * evenMan m e / 2 ^ 320 := by
  have hE : (2 : ℚ) ^ (-halfExp e - 160) = ((2 : ℚ) ^ halfExp e)⁻¹ / 2 ^ 160 := by
    rw [zpow_sub₀ two_ne_zero, zpow_neg]
    rfl
  have h0 : (2 : ℚ) ^ halfExp e ≠ 0 := (zpow_pos two_pos _).ne'
  rw [even_scaled, hE]
  field_simp

theorem rootRecip_exact {m : Nat} (h0 : m ≠ 0) (hlt : m < 2 ^ 64) (e : Int) : 2 ^ 90 < (rootRecip m e).man ∧
    (((rootRecip m e).man : ℚ) * 2 ^ (rootRecip m e).exp) ^ 2 * (m * 2 ^ e) ≤ 1 ∧
    1 < (((rootRecip m e).man + 1 : ℚ) * 2 ^ (rootRecip m e).exp) ^ 2 * (m * 2 ^ e) ∧
    ((rootRecip m e).more = false ↔ (((rootRecip m e).man : ℚ) * 2 ^ (rootRecip m e).exp) ^ 2 * (m * 2 ^ e) = 1) := by
  have hd : 0 < evenMan m e := Nat.pos_of_ne_zero (evenMan_ne_zero h0 e)
  have hle : evenMan m e ≤ 2 ^ 65 := (evenMan_le m e).trans (by omega)
  have hpos : (0 : ℚ) < 2 ^ 320 := by positivity
  rw [rootRecip_eq]
  dsimp only
  rw [rootRecip_scaled, rootRecip_scaled, div_le_one hpos, one_lt_div hpos, div_eq_one_iff_eq hpos.ne']
  generalize evenMan m e = d at *
  have hlo := Nat.sqrt_le (2 ^ 320 / d)
  have hhi := Nat.lt_succ_sqrt (2 ^ 320 / d)
  have hmul : 2 ^ 320 / d * d ≤ 2 ^ 320 := Nat.div_mul_le_self _ _
  have hnext : 2 ^ 320 < (2 ^ 320 / d + 1) * d := Nat.lt_mul_of_div_lt (Nat.lt_succ_self _) hd
  have hbig : 2 ^ 255 ≤ 2 ^ 320 / d := (Nat.le_div_iff_mul_le hd).2 ((Nat.mul_le_mul_left _ hle).trans
    (Nat.pow_add 2 255 65).ge)
  refine ⟨sqrt_large ((Nat.pow_le_pow_right two_pos (by omega)).trans hbig), ?_, ?_, ?_⟩
  · exact_mod_cast (Nat.mul_le_mul_right d hlo).trans hmul
  · exact_mod_cast hnext.trans_le (Nat.mul_le_mul_right d hhi)
  · rw [bne_eq_false_iff_eq]
    exact_mod_cast Iff.rfl

/-! ## The instructions -/

section Instr
variable (c : FCtx) (n n1 n2 : Bool) {m m1 m2 : Nat} (e e1 e2 : Int)

theorem fdivF_approx (h2 : m2 ≠ 0) :
    fdivF c (.fin n1 m1 e1) (.fin n2 m2 e2) = c.approx (quotient (n1 != n2) m1 e1 m2 e2) := if_neg h2

theorem frcpF_approx (h : m ≠ 0) : frcpF c (.fin n m e) = c.approx (quotient n 1 0 m e) := if_neg h

theorem fsqrtF_approx (h : m ≠ 0) : fsqrtF c (.fin false m e) = c.approx (root m e) :=
  (if_neg h).trans (if_neg Bool.false_ne_true)

theorem frsqF_approx (h : m ≠ 0) : frsqF c (.fin false m e) = c.approx (rootRecip m e) :=
  (if_neg h).trans (if_neg Bool.false_ne_true)

theorem fsqrtF_negative (h : m ≠ 0) : fsqrtF c (.fin true m e) = c.nanWith 1 := (if_neg h).trans (if_pos rfl)

theorem frsqF_negative (h : m ≠ 0) : frsqF c (.fin true m e) = c.nanWith 1 := (if_neg h).trans (if_pos rfl)

theorem flog2F_negative (h : m ≠ 0) : flog2F c (.fin true m e) = c.nanWith 1 := (if_neg h).trans (if_pos rfl)

end Instr

end Sys2Proof.Machine

end


section
/-! # O13, third part: sums, products and conversions round the exact result once (R45, R46, R62, R209, R212) -/

namespace Sys2Proof.Machine

/-! ## Sums and products -/

section Instr
variable (c : FCtx) (n1 n2 n3 : Bool) (m1 m2 m3 : Nat) (e1 e2 e3 : Int)

/-- A valid operation of a finite result rounds it. -/
theorem pair_approx (n : Bool) (m : Nat) (e : Int) : c.pair (.fin n m e, false) = c.approx (exact n m e) :=
  Prod.ext rfl (BitVec.or_zero)

theorem pair_exact {v : FVal} {x : ℚ} {z : Bool} (h : HasNumber v x z) :
    ∃ a, c.pair (v, false) = c.approx a ∧ Claims.isExact a x z := by
  obtain ⟨n, m, e, rfl, hx⟩ := h
  exact ⟨exact n m e, pair_approx c n m e, HasNumber.isExact ⟨n, m, e, rfl, hx⟩⟩

theorem faddF_exact : ∃ a, faddF c (.fin n1 m1 e1) (.fin n2 m2 e2) = c.approx a ∧
    Claims.isExact a (Claims.rat (.fin n1 m1 e1) + Claims.rat (.fin n2 m2 e2)) (if n1 = n2 then n1 else c.rdZero) :=
  pair_exact c (addFin_number c.rdZero n1 n2 m1 m2 e1 e2)

theorem fmulF_exact : ∃ a, fmulF c (.fin n1 m1 e1) (.fin n2 m2 e2) = c.approx a ∧
    Claims.isExact a (Claims.rat (.fin n1 m1 e1) * Claims.rat (.fin n2 m2 e2)) (n1 != n2) :=
  pair_exact c (mul_number n1 n2 m1 m2 e1 e2)

theorem ffmaF_exact : ∃ a, ffmaF c (.fin n1 m1 e1) (.fin n2 m2 e2) (.fin n3 m3 e3) = c.approx a ∧
    Claims.isExact a (Claims.rat (.fin n1 m1 e1) * Claims.rat (.fin n2 m2 e2) + Claims.rat (.fin n3 m3 e3))
      (if (n1 != n2) = n3 then n3 else c.rdZero) := by
  have hsum := addFin_number c.rdZero (n1 != n2) n3 (m1 * m2) m3 (e1 + e2) e3
  have hz : (if (n1 != n2) = n3 then (n1 != n2) else c.rdZero) = if (n1 != n2) = n3 then n3 else c.rdZero := by
    split
    · next h => exact h
    · rfl
  rw [rat_mul, hz] at hsum
  exact pair_exact c hsum

end Instr

/-! ## Values that a format holds, rounded to integers -/

/-- The fields of a finite value of a format with infinities. -/
theorem Fmt.decode_fin {f : Fmt} (heb : 2 ≤ f.eb) (hend : f.ending = .ieee) {k : Nat} {n : Bool} {m : Nat} {e : Int}
    (h : f.decode k = .fin n m e) : m < 2 ^ (f.mb + 1) ∧ f.emin - f.mb ≤ e ∧ e ≤ f.maxFin.2 := by
  have h4 : 4 ≤ 2 ^ f.eb := Nat.pow_le_pow_right (n := 2) (by omega) heb
  have hcast : ((2 ^ f.eb : Nat) : Int) = 2 ^ f.eb := by push_cast; rfl
  have hE : k / 2 ^ f.mb % 2 ^ f.eb < 2 ^ f.eb := Nat.mod_lt _ (Nat.two_pow_pos _)
  have hm : k % 2 ^ f.mb < 2 ^ f.mb := Nat.mod_lt _ (Nat.two_pow_pos _)
  unfold Fmt.decode at h
  unfold Fmt.maxFin Fmt.emin
  rw [Nat.pow_succ]
  rw [hend] at h ⊢
  dsimp only at h ⊢
  split at h
  · split at h <;> cases h
  · next htop =>
    split at h
    · obtain ⟨-, rfl, rfl⟩ := FVal.fin.inj h
      unfold Fmt.emin
      omega
    · obtain ⟨-, rfl, rfl⟩ := FVal.fin.inj h
      omega

/-- A magnitude of few bits, at or above the least unit, is one that the format holds. -/
theorem Fmt.held_of_le (f : Fmt) {m : Nat} {e : Int} (hm : m ≤ 2 ^ (f.mb + 1)) (he : f.emin - f.mb ≤ e) :
    ∃ (M : Nat) (E : Int), (m : ℚ) * 2 ^ e = M * 2 ^ (E - f.mb : Int) ∧ f.held M E := by
  by_cases h0 : m = 0
  · refine ⟨0, f.emin, ?_, le_rfl, Nat.two_pow_pos _, Or.inr rfl⟩
    rw [h0, Nat.cast_zero, zero_mul, zero_mul]
  by_cases hbig : 2 ^ f.mb ≤ m
  · exact f.exists_held hm (Or.inl he) (Or.inl hbig)
  have hlog : Nat.log2 m < f.mb := (Nat.log2_lt h0).2 (Nat.lt_of_not_le hbig)
  have hlo := Nat.log2_self_le h0
  have hhi : m < 2 ^ (Nat.log2 m + 1) := Nat.lt_log2_self
  obtain ⟨j, hj⟩ : ∃ j : Nat, j = min (f.mb - Nat.log2 m) (e - (f.emin - f.mb)).toNat := ⟨_, rfl⟩
  have hle : m * 2 ^ j ≤ 2 ^ (f.mb + 1) :=
    calc m * 2 ^ j ≤ 2 ^ (Nat.log2 m + 1) * 2 ^ j := Nat.mul_le_mul_right _ hhi.le
      _ = 2 ^ (Nat.log2 m + 1 + j) := (Nat.pow_add ..).symm
      _ ≤ 2 ^ (f.mb + 1) := Nat.pow_le_pow_right two_pos (by omega)
  have hval : (m : ℚ) * 2 ^ e = (m * 2 ^ j : Nat) * 2 ^ (e - j) := by
    rw [zpow_quantum (e := e - j) (q := e) (by omega), show (e - (e - (j : Int))).toNat = j from by omega]
    push_cast
    ring
  have hlow : 2 ^ f.mb ≤ m * 2 ^ j ∨ e - j = f.emin - f.mb := by
    rcases Nat.le_total (f.mb - Nat.log2 m) (e - (f.emin - f.mb)).toNat with h | h
    · refine Or.inl ?_
      calc 2 ^ f.mb = 2 ^ (Nat.log2 m + j) := by congr 1; omega
        _ = 2 ^ Nat.log2 m * 2 ^ j := Nat.pow_add ..
        _ ≤ m * 2 ^ j := Nat.mul_le_mul_right _ hlo
    · exact Or.inr (by omega)
  obtain ⟨M, E, hv, hheld⟩ := f.exists_held hle (Or.inl (by omega)) hlow
  exact ⟨M, E, hval.trans hv, hheld⟩

theorem Fmt.decode_encode {f : Fmt} (heb : 2 ≤ f.eb) (neg : Bool) {n m : Nat} {q e : Int} (hv : (n : ℚ) * 2 ^ q = m * 2 ^ e)
    (hm : m ≤ 2 ^ (f.mb + 1)) (he : f.emin - f.mb ≤ e) (hmax : (m : ℚ) * 2 ^ e ≤ f.maxFin.1 * 2 ^ f.maxFin.2) :
    Claims.rat (f.decode (f.encode neg n q)) = (if neg then -1 else 1) * (n * 2 ^ q) ∧ (f.decode (f.encode neg n q)).neg = neg := by
  obtain ⟨M, E, hME, hheld⟩ := f.held_of_le hm he
  rw [Fmt.encode_eq neg (hv.trans hME) hheld, Fmt.decode_body heb neg hheld (hME ▸ hmax), rat_fin, mul_assoc, ← hME, ← hv]
  exact ⟨rfl, rfl⟩

/-- A magnitude cut below its unit: at most half of it, and one. -/
theorem at_le_half {a : Approx} {q : Int} (hq : a.exp < q) {k : Nat} (hm : a.man < 2 ^ (k + 1)) (rm : Rm) (draw : Nat) :
    (a.at_ q rm draw).1 ≤ 2 ^ k := by
  have hkept : a.man / 2 ^ (q - a.exp).toNat < 2 ^ k := by
    refine Nat.div_lt_of_lt_mul (hm.trans_le ?_)
    rw [← Nat.pow_add]
    exact Nat.pow_le_pow_right two_pos (by omega)
  unfold Approx.at_
  rw [a.cut_of_lt hq]
  dsimp only
  split <;> omega

/-- The types of the formats of R47 for registers. -/
def regTys : List FTy := [.f16, .bf16, .f32, .f64]

theorem regTys_fields {ty : FTy} (h : ty ∈ regTys) : 2 ≤ (fmtOf ty).eb ∧ (fmtOf ty).ending = .ieee ∧ 0 ≤ (fmtOf ty).maxFin.2 ∧
    (fmtOf ty).maxFin.1 = 2 ^ ((fmtOf ty).mb + 1) - 1 ∧ (fmtOf ty).emin - (fmtOf ty).mb ≤ 0 := by
  revert ty
  decide

/-- The integer that a value of a format is rounded to is a value of the format. -/
theorem decode_rounded {ty : FTy} (hty : ty ∈ regTys) {k : Nat} {neg : Bool} {m : Nat} {e : Int}
    (hk : (fmtOf ty).decode k = .fin neg m e) {rm : Rm} {draw n : Nat} {i : Bool}
    (hr : (⟨neg, m, e, false⟩ : Approx).at_ 0 rm draw = (n, i)) :
    Claims.rat ((fmtOf ty).decode ((fmtOf ty).encode neg n 0)) = (if neg then -1 else 1) * n ∧
      ((fmtOf ty).decode ((fmtOf ty).encode neg n 0)).neg = neg := by
  obtain ⟨heb, hend, hmax0, hmax1, hlow⟩ := regTys_fields hty
  obtain ⟨hm, he, hetop⟩ := Fmt.decode_fin heb hend hk
  have hmono {a b : Nat} {x y : Int} (hab : a ≤ b) (hxy : x ≤ y) : (a : ℚ) * 2 ^ x ≤ b * 2 ^ y :=
    mul_le_mul (Nat.cast_le.2 hab) (zpow_le_zpow_right₀ one_le_two hxy) (zpow_pos two_pos _).le (Nat.cast_nonneg b)
  have hint : (n : ℚ) * 2 ^ (0 : Int) = n := by rw [zpow_zero, mul_one]
  rcases le_or_gt 0 e with hge | hlt
  · rw [Approx.at_of_le _ rm draw hge rfl, Int.sub_zero] at hr
    obtain ⟨rfl, -⟩ := Prod.mk.inj hr
    have hv : ((m * 2 ^ e.toNat : Nat) : ℚ) * 2 ^ (0 : Int) = m * 2 ^ e := by
      rw [hint, zpow_quantum hge, Int.sub_zero, zpow_zero, mul_one]
      push_cast
      rfl
    rw [← hint]
    exact Fmt.decode_encode heb neg hv hm.le he (hmono (by omega) hetop)
  · have hn := at_le_half (a := ⟨neg, m, e, false⟩) hlt hm rm draw
    rw [hr] at hn
    dsimp only at hn
    have hpow := Nat.pow_succ 2 (fmtOf ty).mb
    rw [← hint]
    exact Fmt.decode_encode heb neg rfl (by omega) hlow (hmono (by omega) hmax0)

theorem frndF_eq (c : FCtx) (neg : Bool) (m : Nat) (e : Int) {n : Nat} {i : Bool}
    (hr : (⟨neg, m, e, false⟩ : Approx).at_ 0 c.rm c.draw = (n, i)) :
    frndF c (.fin neg m e) = (BitVec.ofNat 128 ((fmtOf c.ty).encode neg n 0), if i then 16 else 0) := by
  unfold frndF exact
  dsimp only
  rw [hr]
  exact Prod.ext rfl BitVec.zero_or

/-! ## Conversions -/

theorem intMin_eq_lo (ty : ITy) : intMin ty = Claims.lo ty := by simp [intMin, Claims.lo]

theorem intMax_eq_hi (ty : ITy) : intMax ty = Claims.hi ty := by simp [intMax, Claims.hi]

theorem lo_le_hi (ty : ITy) : Claims.lo ty ≤ Claims.hi ty := by
  cases ty <;> decide

theorem toInt_eq (ty : ITy) {rm : Rm} {draw : Nat} {neg : Bool} {m : Nat} {e : Int} {n : Nat} {i : Bool}
    (hr : (⟨neg, m, e, false⟩ : Approx).at_ 0 rm draw = (n, i)) {v : Int} (hv : v = if neg then -(n : Int) else n) :
    toInt ty rm draw (.fin neg m e) = if v < Claims.lo ty then (Claims.code ty.width (Claims.lo ty), 1)
      else if Claims.hi ty < v then (Claims.code ty.width (Claims.hi ty), 1)
      else (Claims.code ty.width v, if i then 16 else 0) := by
  have hle := lo_le_hi ty
  unfold toInt exact
  dsimp only
  rw [hr]
  dsimp only
  rw [← hv, intMin_eq_lo, intMax_eq_hi, intResult_eq_res, wrap_eq_code]
  by_cases hlo : v < Claims.lo ty
  · rw [if_pos hlo, if_pos (by rw [decide_eq_true hlo]; rfl), Claims.res, if_pos rfl, if_pos hlo]
    rfl
  · rw [if_neg hlo]
    by_cases hhi : Claims.hi ty < v
    · rw [if_pos hhi, if_pos (by rw [decide_eq_true hhi, Bool.or_true]), Claims.res, if_pos rfl, if_neg hlo, if_pos hhi]
      rfl
    · rw [if_neg hhi, if_neg (by rw [decide_eq_false hlo, decide_eq_false hhi]; exact Bool.false_ne_true)]
      rfl

theorem isF_eq (ty : FTy) : isF ty = decide (ty ∈ regTys) := by
  cases ty <;> rfl

theorem cvtTo_float {ty : FTy} (h : ty ≠ .e8m0) (rm : Rm) (ftz sat : Bool) (draw : Nat) (neg : Bool) (m : Nat) (e : Int) :
    cvtTo ty rm ftz sat draw (.fin neg m e) = (fmtOf ty).round rm (ftz && decide (ty ∈ regTys)) sat draw ⟨neg, m, e, false⟩ := by
  rw [← isF_eq]
  cases ty with
  | e8m0 => exact absurd rfl h
  | _ => rfl

/-- A magnitude's place among the powers of two. -/
theorem place_of_rat {neg : Bool} {m : Nat} {e p : Int} (hlo : (2 : ℚ) ^ p ≤ Claims.rat (.fin neg m e))
    (hhi : Claims.rat (.fin neg m e) < 2 ^ (p + 1)) : neg = false ∧ m ≠ 0 ∧ e + Nat.log2 m = p ∧
      (m = 2 ^ Nat.log2 m ↔ Claims.rat (.fin neg m e) = 2 ^ p) := by
  have hpos : 0 < Claims.rat (.fin neg m e) := (zpow_pos two_pos _).trans_le hlo
  obtain rfl := sign_of_pos hpos
  have h0 : m ≠ 0 := fun h => hpos.ne' (rat_eq_zero.2 h)
  rw [rat_false] at hlo hhi ⊢
  obtain ⟨hl, hh⟩ := log2_place h0 e
  have h1 := place_lt hl hhi
  have h2 := place_lt hlo hh
  have hp : e + Nat.log2 m = p := by omega
  refine ⟨rfl, h0, hp, ?_⟩
  rw [← hp, Int.add_comm e, zpow_add₀ two_ne_zero, mul_left_inj' (zpow_pos two_pos _).ne', zpow_natCast]
  exact_mod_cast Iff.rfl

theorem toE8M0_place (rm : Rm) {neg : Bool} {m : Nat} {e p : Int} (hlo : (2 : ℚ) ^ p ≤ Claims.rat (.fin neg m e))
    (hhi : Claims.rat (.fin neg m e) < 2 ^ (p + 1)) {k : Int}
    (hk : k = if rm = .ru ∧ Claims.rat (.fin neg m e) ≠ 2 ^ p then p + 1 else p) :
    toE8M0 rm (.fin neg m e) = if k < -127 then (0, 24) else if 127 < k then (0xFE, 20)
         else ((k + 127).toNat, if Claims.rat (.fin neg m e) = 2 ^ p then 0 else 16) := by
  obtain ⟨rfl, h0, hp, hpow⟩ := place_of_rat hlo hhi
  have hb : (m == 2 ^ Nat.log2 m) = decide (Claims.rat (.fin false m e) = 2 ^ p) := by
    rw [Bool.eq_iff_iff, beq_iff_eq, decide_eq_true_iff, hpow]
  have hk' : (if decide (rm = .ru) && !decide (Claims.rat (.fin false m e) = 2 ^ p) then p + 1 else p) = k := by
    rw [hk]
    refine if_congr ?_ rfl rfl
    rw [Bool.and_eq_true, decide_eq_true_iff, Bool.not_eq_true', decide_eq_false_iff_not]
  unfold toE8M0 pow2Of
  dsimp only
  rw [if_neg (by rw [decide_eq_false h0]; exact Bool.false_ne_true), hp, hb, hk']
  refine if_congr Iff.rfl rfl (if_congr Iff.rfl rfl (Prod.ext rfl ?_))
  unfold flagIf
  dsimp only
  by_cases h : Claims.rat (.fin false m e) = 2 ^ p
  · rw [if_pos h, decide_eq_true h]
    rfl
  · rw [if_neg h, decide_eq_false h]
    rfl

theorem toE8M0_nonpos (rm : Rm) {neg : Bool} {m : Nat} {e : Int} (h : Claims.rat (.fin neg m e) ≤ 0) :
    toE8M0 rm (.fin neg m e) = (0xFF, 1) := by
  have hz : (neg || decide (m = 0)) = true := by
    rw [Bool.or_eq_true, decide_eq_true_iff]
    rcases lt_or_eq_of_le h with hlt | heq
    · exact Or.inl (sign_of_neg hlt)
    · exact Or.inr (rat_eq_zero.1 heq)
  exact if_pos hz

end Sys2Proof.Machine

end


section
/-! # O13, fourth part: exponentials and logarithms (R54) -/

namespace Sys2Proof.Machine

/-! ## The exponential -/

theorem expSeries_mono {t t' : Nat} (ht : t ≤ t') (fuel k : Nat) {a b : Nat} (hab : a ≤ b) :
    expSeries t fuel k a ≤ expSeries t' fuel k b := by
  induction fuel generalizing k a b with
  | zero => exact le_rfl
  | succ fuel ih =>
    exact Nat.add_le_add hab (ih (k + 1) (Nat.div_le_div_right (Nat.div_le_div_right (Nat.mul_le_mul hab ht))))

/-- The series at ln 2 stays below 2. -/
theorem expSeries_ln2 : expSeries LN2 64 0 (2 ^ 256) < 2 ^ 257 := by decide

theorem expSeries_bounds {t : Nat} (ht : t ≤ LN2) : 2 ^ 256 ≤ expSeries t 64 0 (2 ^ 256) ∧ expSeries t 64 0 (2 ^ 256) < 2 ^ (256 + 1) :=
  ⟨Nat.le_add_right _ _, (expSeries_mono ht 64 0 le_rfl).trans_lt expSeries_ln2⟩

/-- A magnitude as a quotient of integers. -/
theorem magnitude_split (m : Nat) (e : Int) : (m : ℚ) * 2 ^ e = (m * 2 ^ e.toNat : Nat) / (2 ^ (-e).toNat : Nat) := by
  have h0 : ((2 ^ (-e).toNat : Nat) : ℚ) ≠ 0 := by positivity
  rw [eq_div_iff h0]
  push_cast
  rw [mul_assoc, ← zpow_natCast, ← zpow_natCast, ← zpow_add₀ two_ne_zero]
  congr 2
  omega

theorem exp2Any_neg (neg : Bool) (m : Nat) (e : Int) : (exp2Any neg m e).neg = false := by
  unfold exp2Any
  dsimp only
  split
  · rfl
  · split <;> rfl

/-- What is below 2^17 goes to the exact power or to the series. -/
theorem exp2Any_eq {neg : Bool} {m : Nat} {e : Int} (h : (m : ℚ) * 2 ^ e < 2 ^ 17) : exp2Any neg m e =
    if m * 2 ^ e.toNat % 2 ^ (-e).toNat = 0 then
      exact false 1 (if neg then -(m * 2 ^ e.toNat / 2 ^ (-e).toNat : Nat) else (m * 2 ^ e.toNat / 2 ^ (-e).toNat : Nat))
    else exp2Approx neg m e := by
  have hlt : magLt m e 1 17 = true := by
    rw [magLt_iff, Nat.cast_one, one_mul]
    exact_mod_cast h
  unfold exp2Any
  rw [hlt]
  exact if_neg Bool.false_ne_true

section Exp
variable {neg : Bool} {m : Nat} {e p : Int}

theorem rat_split {q k : Nat} (h : (m : ℚ) * 2 ^ e = (q : ℚ) / (k : ℚ)) (neg : Bool) :
    Claims.rat (.fin neg m e) = ((if neg then -(q : Int) else q : Int) : ℚ) / k := by
  cases neg with
  | true =>
    rw [rat_true, h, if_pos rfl]
    push_cast
    ring
  | false =>
    rw [rat_false, h, if_neg Bool.false_ne_true]
    push_cast
    rfl

/-- The exponential of an integer is the power of two. -/
theorem exp2Any_integer (hlt : (m : ℚ) * 2 ^ e < 2 ^ 17) (hp : Claims.rat (.fin neg m e) = p) :
    exp2Any neg m e = exact false 1 p := by
  have hk : (0 : Int) < (2 ^ (-e).toNat : Nat) := by positivity
  rw [rat_split (magnitude_split m e), div_eq_iff (by exact_mod_cast hk.ne')] at hp
  rw [exp2Any_eq hlt]
  generalize m * 2 ^ e.toNat = q at *
  generalize 2 ^ (-e).toNat = k at *
  have hq : (if neg then -(q : Int) else q) = p * k := by exact_mod_cast hp
  have hq' : (q : Int) = (if neg then -p else p) * k := by
    cases neg with
    | true =>
      rw [if_pos rfl] at hq ⊢
      linarith
    | false => exact hq
  have hmod : q % k = 0 := by
    have : (q : Int) % k = 0 := by rw [hq', Int.mul_emod_left]
    exact_mod_cast this
  have hdiv : ((q / k : Nat) : Int) = if neg then -p else p := by
    rw [Int.natCast_div, hq', Int.mul_ediv_cancel _ hk.ne']
  rw [if_pos hmod, hdiv]
  cases neg with
  | true => rw [if_pos rfl, if_pos rfl, neg_neg]
  | false => rfl

/-- The whole and the fractional part that the series takes. -/
theorem exp2Approx_eq (neg : Bool) (m : Nat) (e : Int) : ∃ (whole : Int) (fr : Nat), fr ≤ 2 ^ (-e).toNat ∧
    (if neg then -(m : Int) else m) = whole * (2 ^ (-e).toNat : Nat) + fr ∧
    exp2Approx neg m e = ⟨false, expSeries (fr * LN2 / 2 ^ (-e).toNat) 64 0 (2 ^ 256), whole - 256, true⟩ := by
  have hk : 0 < 2 ^ (-e).toNat := Nat.two_pow_pos _
  unfold exp2Approx
  dsimp only
  generalize 2 ^ (-e).toNat = k at *
  have hsplit := Nat.div_add_mod' m k
  have hmod := Nat.mod_lt m hk
  have hcast : (m : Int) = (m / k : Nat) * k + (m % k : Nat) := by exact_mod_cast hsplit.symm
  cases neg with
  | true =>
    refine ⟨-((m / k : Nat) : Int) - 1, k - m % k, Nat.sub_le _ _, ?_, rfl⟩
    rw [if_pos rfl, hcast, Nat.cast_sub hmod.le]
    ring
  | false => exact ⟨(m / k : Nat), m % k, hmod.le, hcast, rfl⟩

/-- The exponential of what lies between two integers lies between their powers of two. -/
theorem exp2Any_between (hlt : (m : ℚ) * 2 ^ e < 2 ^ 17) (hlo : (p : ℚ) < Claims.rat (.fin neg m e))
    (hhi : Claims.rat (.fin neg m e) < p + 1) : (exp2Any neg m e).more = true ∧
      (2 : ℚ) ^ p ≤ (exp2Any neg m e).man * 2 ^ (exp2Any neg m e).exp ∧
      ((exp2Any neg m e).man : ℚ) * 2 ^ (exp2Any neg m e).exp < 2 ^ (p + 1) := by
  have hk : (0 : Int) < (2 ^ (-e).toNat : Nat) := by positivity
  have hkq : (0 : ℚ) < ((2 ^ (-e).toNat : Nat) : ℚ) := by positivity
  obtain ⟨whole, fr, hfr, hsplit, happ⟩ := exp2Approx_eq neg m e
  have ht : fr * LN2 / 2 ^ (-e).toNat ≤ LN2 :=
    Nat.div_le_of_le_mul (Nat.mul_le_mul_right _ hfr)
  have hrat := rat_split (magnitude_split m e) neg
  rw [hrat, lt_div_iff₀ hkq] at hlo
  rw [hrat, div_lt_iff₀ hkq] at hhi
  have hlo' : p * (2 ^ (-e).toNat : Nat) < (if neg then -((m * 2 ^ e.toNat : Nat) : Int) else (m * 2 ^ e.toNat : Nat)) := by
    exact_mod_cast hlo
  have hhi' : (if neg then -((m * 2 ^ e.toNat : Nat) : Int) else (m * 2 ^ e.toNat : Nat)) < (p + 1) * (2 ^ (-e).toNat : Nat) := by
    exact_mod_cast hhi
  have hneg : e < 0 := by
    by_contra hge
    rw [show (-e).toNat = 0 from by omega] at hlo' hhi'
    push_cast at hlo' hhi'
    omega
  rw [show e.toNat = 0 from by omega, Nat.pow_zero, Nat.mul_one] at hlo' hhi'
  have hmod : m * 2 ^ e.toNat % 2 ^ (-e).toNat ≠ 0 := by
    rw [show e.toNat = 0 from by omega, Nat.pow_zero, Nat.mul_one]
    intro h0
    have hm : (if neg then -(m : Int) else m) = (if neg then -((m / 2 ^ (-e).toNat : Nat) : Int) else (m / 2 ^ (-e).toNat : Nat)) *
        (2 ^ (-e).toNat : Nat) := by
      have : (m : Int) = (m / 2 ^ (-e).toNat : Nat) * (2 ^ (-e).toNat : Nat) := by
        exact_mod_cast (Nat.div_mul_cancel (Nat.dvd_of_mod_eq_zero h0)).symm
      split <;> linarith
    rw [hm] at hlo' hhi'
    have h1 := lt_of_mul_lt_mul_right hlo' hk.le
    have h2 := lt_of_mul_lt_mul_right hhi' hk.le
    omega
  rw [hsplit] at hlo' hhi'
  have hwhole : whole = p := by
    have hfr' : (fr : Int) ≤ (2 ^ (-e).toNat : Nat) := by exact_mod_cast hfr
    have h1 : p < whole + 1 := lt_of_mul_lt_mul_right (lt_of_lt_of_le hlo' (by linarith)) hk.le
    have h2 : whole < p + 1 := lt_of_mul_lt_mul_right (lt_of_le_of_lt (by linarith) hhi') hk.le
    omega
  rw [exp2Any_eq hlt, if_neg hmod, happ, hwhole]
  obtain ⟨hl, hh⟩ := expSeries_bounds ht
  exact ⟨rfl, zpow_unit _ p 256 hl, zpow_unit_lt _ p 256 1 hh⟩

end Exp

/-! ## The logarithm -/

theorem atanhSeries_mono {x y : Nat} (hxy : x ≤ y) (fuel k : Nat) {a b : Nat} (hab : a ≤ b) :
    atanhSeries x fuel k a ≤ atanhSeries y fuel k b := by
  induction fuel generalizing k a b with
  | zero => exact le_rfl
  | succ fuel ih =>
    exact Nat.add_le_add (Nat.div_le_div_right hab) (ih (k + 2) (Nat.div_le_div_right (Nat.mul_le_mul hab hxy)))

/-- Twice the series at 1/3 stays at or below ln 2. -/
theorem atanhSeries_third : 2 * atanhSeries (2 ^ 256 / 3 * (2 ^ 256 / 3) / 2 ^ 256) 96 1 (2 ^ 256 / 3) ≤ LN2 := by decide

/-- (x − 1) / (x + 1) is at most 1/3 for x up to 2. -/
theorem ratio_le_third {m l : Nat} (hlo : 2 ^ l ≤ m) (hhi : m < 2 ^ (l + 1)) : (m - 2 ^ l) * 2 ^ 256 / (m + 2 ^ l) ≤ 2 ^ 256 / 3 := by
  rw [Nat.le_div_iff_mul_le (by norm_num)]
  rw [Nat.pow_succ] at hhi
  have hpos : 0 < m + 2 ^ l := by have := Nat.two_pow_pos l; omega
  generalize 2 ^ l = b at *
  refine Nat.le_of_mul_le_mul_left ?_ hpos
  have hdiv : (m + b) * ((m - b) * 2 ^ 256 / (m + b)) ≤ (m - b) * 2 ^ 256 := Nat.mul_div_le _ _
  rw [← Nat.mul_assoc]
  omega

theorem log2Frac_eq (m : Nat) (h0 : m ≠ 0) : ∃ fr, log2Frac m = (fr, Nat.log2 m) ∧ fr ≤ 2 ^ 256 := by
  refine ⟨_, rfl, ?_⟩
  have hz := ratio_le_third (Nat.log2_self_le h0) (Nat.lt_log2_self (n := m))
  have hser := atanhSeries_mono (Nat.div_le_div_right (c := 2 ^ 256) (Nat.mul_le_mul hz hz)) 96 1 hz
  refine Nat.div_le_of_le_mul (Nat.mul_le_mul_right _ ?_)
  exact (Nat.mul_le_mul_left 2 hser).trans atanhSeries_third

theorem log2Approx_bounds {m : Nat} (h0 : m ≠ 0) (e : Int) : (log2Approx m e).more = true ∧
    ((e + Nat.log2 m : Int) : ℚ) ≤ (if (log2Approx m e).neg then -1 else 1) * (log2Approx m e).man * 2 ^ (log2Approx m e).exp ∧
    (if (log2Approx m e).neg then -1 else 1) * ((log2Approx m e).man : ℚ) * 2 ^ (log2Approx m e).exp ≤ (e + Nat.log2 m : Int) + 1 := by
  obtain ⟨fr, hfr, hle⟩ := log2Frac_eq m h0
  obtain ⟨v, hv⟩ : ∃ v : Int, v = (e + (Nat.log2 m : Int)) * (2 ^ seriesBits : Nat) + fr := ⟨_, rfl⟩
  have happ : log2Approx m e = ⟨decide (v < 0), v.natAbs, -256, true⟩ := by
    unfold log2Approx
    rw [hfr, hv]
    rfl
  have hu : (0 : ℚ) < 2 ^ (-256 : Int) := zpow_pos two_pos _
  have hunit (k : Int) : (k : ℚ) = ((k * (2 ^ 256 : Nat) : Int) : ℚ) * 2 ^ (-256 : Int) := by
    have hpow : ((2 ^ 256 : Nat) : ℚ) * 2 ^ (-256 : Int) = 1 := by
      rw [zpow_neg, Nat.cast_pow]
      exact mul_inv_cancel₀ (pow_ne_zero 256 two_ne_zero)
    rw [Int.cast_mul, Int.cast_natCast, mul_assoc, hpow, mul_one]
  have hfr0 : (fr : Int) ≤ (2 ^ 256 : Nat) := by exact_mod_cast hle
  rw [happ]
  dsimp only
  rw [← rat_fin, rat_int, ← Int.cast_one, ← Int.cast_add, hunit (e + Nat.log2 m), hunit (e + Nat.log2 m + 1)]
  refine ⟨rfl, mul_le_mul_of_nonneg_right (Int.cast_le.2 ?_) hu.le, mul_le_mul_of_nonneg_right (Int.cast_le.2 ?_) hu.le⟩
  · rw [hv]
    exact le_add_of_nonneg_right (Int.natCast_nonneg fr)
  · rw [hv, add_mul (e + (Nat.log2 m : Int)) 1, one_mul]
    exact Int.add_le_add_left hfr0 _

theorem flog2F_power (c : FCtx) {m : Nat} {e p : Int} (h0 : m ≠ 0) (hm : m = 2 ^ Nat.log2 m) (hp : e + Nat.log2 m = p) :
    flog2F c (.fin false m e) = c.approx (exact (decide (p < 0)) p.natAbs 0) := by
  unfold flog2F
  dsimp only
  rw [if_neg h0, if_neg Bool.false_ne_true, if_pos hm, hp]

theorem flog2F_other (c : FCtx) {m : Nat} {e : Int} (h0 : m ≠ 0) (hm : m ≠ 2 ^ Nat.log2 m) :
    flog2F c (.fin false m e) = c.approx (log2Approx m e) := by
  unfold flog2F
  dsimp only
  rw [if_neg h0, if_neg Bool.false_ne_true, if_neg hm]

theorem integer_exact (p : Int) : Claims.isExact (exact (decide (p < 0)) p.natAbs 0) p false := by
  have h := rat_int p 0
  rw [zpow_zero, mul_one] at h
  exact (hasNumber_fin h (fun h0 => decide_eq_false (by rw [Int.cast_eq_zero.1 h0]; decide))).isExact

end Sys2Proof.Machine

end


section
/-! # O13: accumulators, block terms, the Lattice generator, and the whole (R45 to R68, R78, R209, R212) -/

namespace Sys2Proof.Machine

/-! ## Rounding to nearest, into an accumulator (R66) -/

/-- The formats of the accumulators. -/
def accFmts : List Fmt := [fmtF32, fmtF64]

theorem roundNe_number (f : Fmt) {v : FVal} {x : ℚ} {z : Bool} (h : HasNumber v x z) :
    ∃ a, Claims.isExact a x z ∧ roundNe f v = Claims.nearest f a := by
  obtain ⟨n, m, e, rfl, hx⟩ := h
  exact ⟨exact n m e, HasNumber.isExact ⟨n, m, e, rfl, hx⟩, rfl⟩

theorem roundNe_nan {f : Fmt} (hf : f ∈ accFmts) (s : Bool) : roundNe f (.nan s) = (.nan false, 0) := by
  have h : ∀ f ∈ accFmts, (f.decode f.nan, flagIf (f.ending == .e2m1) fInvalid) = (FVal.nan false, (0 : FFlags)) := by decide
  exact h f hf

theorem roundNe_inf {f : Fmt} (hf : f ∈ accFmts) (n : Bool) : roundNe f (.inf n) = (.inf n, 0) := by
  have h : ∀ f ∈ accFmts, 2 ≤ f.eb ∧ f.ending = .ieee := by decide
  obtain ⟨heb, hend⟩ := h f hf
  have hval : f.roundVal .rne false false 0 (.inf n) = (f.inf n, 0) := if_pos (by rw [hend]; rfl)
  unfold roundNe
  rw [hval]
  exact Prod.ext (f.decode_inf heb hend n) rfl

/-- An accumulator takes the rounded sum, with the sum's fault. -/
theorem accAdd_eq {f : Fmt} {acc term v : FVal} {b : Bool} (h : addVal false acc term = (v, b)) :
    accAdd f acc term = ((roundNe f v).1, (roundNe f v).2 ||| flagIf b fInvalid) := by
  unfold accAdd
  rw [h]

theorem or_flag_false (x : FFlags) (f : FFlags) : x ||| flagIf false f = x := BitVec.or_zero

theorem accAdd_number (f : Fmt) (n1 n2 : Bool) (m1 m2 : Nat) (e1 e2 : Int) : ∃ a,
    Claims.isExact a (Claims.rat (.fin n1 m1 e1) + Claims.rat (.fin n2 m2 e2)) (n1 && n2) ∧
    accAdd f (.fin n1 m1 e1) (.fin n2 m2 e2) = Claims.nearest f a := by
  have hz : (if n1 = n2 then n1 else false) = (n1 && n2) := by cases n1 <;> cases n2 <;> rfl
  obtain ⟨a, hexact, hround⟩ := roundNe_number f (addFin_number false n1 n2 m1 m2 e1 e2)
  rw [hz] at hexact
  refine ⟨a, hexact, ?_⟩
  rw [accAdd_eq rfl, hround, or_flag_false]

theorem accAdd_nan {f : Fmt} (hf : f ∈ accFmts) {acc term : FVal} (h : acc.isNan = true ∨ term.isNan = true) :
    accAdd f acc term = (.nan false, 0) := by
  have hsum : addVal false acc term = (.nan false, false) := by
    cases acc with
    | nan s => rfl
    | inf n =>
      cases term with
      | nan s => rfl
      | _ => exact absurd h (by simp [FVal.isNan])
    | fin n m e =>
      cases term with
      | nan s => rfl
      | _ => exact absurd h (by simp [FVal.isNan])
  rw [accAdd_eq hsum, roundNe_nan hf, or_flag_false]

theorem accAdd_inf {f : Fmt} (hf : f ∈ accFmts) (n : Bool) {term : FVal} (h : term.isNan = false) :
    accAdd f (.inf n) term = if term = .inf (!n) then (.nan false, 1) else (.inf n, 0) := by
  cases term with
  | nan s => cases h
  | inf k =>
    have hsum : addVal false (.inf n) (.inf k) = if n = k then (.inf n, false) else (.nan false, true) := rfl
    by_cases hk : n = k
    · subst hk
      rw [if_pos rfl] at hsum
      rw [accAdd_eq hsum, roundNe_inf hf, or_flag_false, if_neg (by cases n <;> decide)]
    · rw [if_neg hk] at hsum
      rw [accAdd_eq hsum, roundNe_nan hf, if_pos (by rw [Bool.eq_not_of_ne (Ne.symm hk)])]
      rfl
  | fin k m e => rw [accAdd_eq rfl, roundNe_inf hf, or_flag_false, if_neg (by simp)]

theorem accAdd_fin_inf {f : Fmt} (hf : f ∈ accFmts) (n : Bool) (m : Nat) (e : Int) (k : Bool) :
    accAdd f (.fin n m e) (.inf k) = (.inf k, 0) := by
  rw [accAdd_eq rfl, roundNe_inf hf, or_flag_false]

/-! ## The scales of tensors and the terms of blocks (R67, R68) -/

theorem mulVal_isNan {x y : FVal} (h : x.isNan = true ∨ y.isNan = true) : (mulVal x y).1.isNan = true :=
  (mulVal_nan_iff (x, y)).2 (h.imp id Or.inl)

theorem tensorScales_exact {tsfA tsfB : Nat} (hA : tsfA ≠ 1) (hB : tsfB ≠ 1) (a b : FVal) :
    tensorScales tsfA tsfB a b = ((mulVal a b).1, flagIf (mulVal a b).2 fInvalid) :=
  if_pos (by rw [decide_eq_true hA, decide_eq_true hB]; rfl)

theorem tensorScales_rounded {tsfA tsfB : Nat} (h : tsfA = 1 ∨ tsfB = 1) (a b : FVal) : tensorScales tsfA tsfB a b =
    ((roundNe fmtF32 (mulVal a b).1).1, (roundNe fmtF32 (mulVal a b).1).2 ||| flagIf (mulVal a b).2 fInvalid) := by
  refine if_neg ?_
  rw [Bool.and_eq_true, decide_eq_true_iff, decide_eq_true_iff]
  rintro ⟨hA, hB⟩
  exact h.elim hA hB

theorem f32_mem : fmtF32 ∈ accFmts := List.mem_cons_self ..

theorem isNan_roundNe {v : FVal} (h : v.isNan = true) : (roundNe fmtF32 v).1 = .nan false := by
  cases v with
  | nan s => rw [roundNe_nan f32_mem]
  | _ => cases h

theorem tensorScales_isNan (tsfA tsfB : Nat) {a b : FVal} (h : a.isNan = true ∨ b.isNan = true) :
    (tensorScales tsfA tsfB a b).1.isNan = true := by
  by_cases hx : tsfA = 1 ∨ tsfB = 1
  · rw [tensorScales_rounded hx, isNan_roundNe (mulVal_isNan h)]
    rfl
  · rw [not_or] at hx
    rw [tensorScales_exact hx.1 hx.2]
    exact mulVal_isNan h

theorem tensorScales_fin (tsfA tsfB : Nat) (n1 n2 : Bool) (m1 m2 : Nat) (e1 e2 : Int) :
    (tsfA ≠ 1 → tsfB ≠ 1 → ∃ m e, tensorScales tsfA tsfB (.fin n1 m1 e1) (.fin n2 m2 e2) = (.fin (n1 != n2) m e, 0) ∧
      Claims.rat (.fin (n1 != n2) m e) = Claims.rat (.fin n1 m1 e1) * Claims.rat (.fin n2 m2 e2)) ∧
    (tsfA = 1 ∨ tsfB = 1 → ∃ a, Claims.isExact a (Claims.rat (.fin n1 m1 e1) * Claims.rat (.fin n2 m2 e2)) (n1 != n2) ∧
      tensorScales tsfA tsfB (.fin n1 m1 e1) (.fin n2 m2 e2) = Claims.nearest fmtF32 a) := by
  refine ⟨fun hA hB => ⟨m1 * m2, e1 + e2, tensorScales_exact hA hB _ _, rat_mul n1 n2 m1 m2 e1 e2⟩, fun h => ?_⟩
  obtain ⟨a, hexact, hround⟩ := roundNe_number fmtF32 (mul_number n1 n2 m1 m2 e1 e2)
  refine ⟨a, hexact, ?_⟩
  rw [tensorScales_rounded h, mulVal_fin, hround, or_flag_false]

section Block
variable {sum : FVal × Bool} {sa sb ta tb : FVal} {tsc : FVal × FFlags}

/-- The exact value of a block's term. -/
def blockVal (sum : FVal × Bool) (sa sb : FVal) (tsc : FVal × FFlags) : FVal :=
  (mulVal (mulVal sum.1 (mulVal sa sb).1).1 tsc.1).1

theorem blockTerm_fst : (blockTerm sum sa sb ta tb tsc).1 = (roundNe fmtF32 (blockVal sum sa sb tsc)).1 := rfl

theorem blockTerm_nan (h : (blockVal sum sa sb tsc).isNan = true) : (blockTerm sum sa sb ta tb tsc).1 = .nan false :=
  isNan_roundNe h

theorem blockTerm_nanscale (h : (sa.isNan || sb.isNan || ta.isNan || tb.isNan) = true) :
    (blockTerm sum sa sb ta tb tsc).2.getLsbD 5 = true := by
  unfold blockTerm
  dsimp only
  rw [h, BitVec.getLsbD_or]
  exact Bool.or_true _

/-- A product that is not valid on the way to a block's term sets `INVALID`. -/
theorem blockTerm_invalid (h : (mulVal sum.1 (mulVal sa sb).1).2 = true ∨
    (mulVal (mulVal sum.1 (mulVal sa sb).1).1 tsc.1).2 = true) : (blockTerm sum sa sb ta tb tsc).2.getLsbD 0 = true := by
  have hflag : (sum.2 || (mulVal sa sb).2 || (mulVal sum.1 (mulVal sa sb).1).2 ||
      (mulVal (mulVal sum.1 (mulVal sa sb).1).1 tsc.1).2 || ta.isSnan || tb.isSnan) = true := by
    rcases h with h | h <;> simp [h]
  unfold blockTerm
  dsimp only
  rw [hflag, BitVec.getLsbD_or, BitVec.getLsbD_or]
  exact (congrArg (· || _) (Bool.or_true _)).trans (Bool.true_or _)

theorem isSnan_of_not_nan {v : FVal} (h : v.isNan = false) : v.isSnan = false := by
  cases v with
  | nan s => cases h
  | _ => rfl

variable (hta : ta.isNan = false) (htb : tb.isNan = false) (n n1 n2 n3 : Bool) (m m1 m2 m3 : Nat) (e e1 e2 e3 : Int) (fl : FFlags) (b : Bool)

theorem blockVal_fin : blockVal (.fin n m e, b) (.fin n1 m1 e1) (.fin n2 m2 e2) (.fin n3 m3 e3, fl) =
    .fin ((n != (n1 != n2)) != n3) (m * (m1 * m2) * m3) (e + (e1 + e2) + e3) := rfl

theorem blockVal_number : HasNumber (blockVal (.fin n m e, b) (.fin n1 m1 e1) (.fin n2 m2 e2) (.fin n3 m3 e3, fl))
    (Claims.rat (.fin n m e) * (Claims.rat (.fin n1 m1 e1) * Claims.rat (.fin n2 m2 e2)) * Claims.rat (.fin n3 m3 e3))
    ((n != (n1 != n2)) != n3) := by
  rw [← rat_mul n1, ← rat_mul n]
  exact mul_number (n != (n1 != n2)) n3 (m * (m1 * m2)) m3 (e + (e1 + e2)) e3

include hta htb

theorem blockTerm_flags : (blockTerm (.fin n m e, b) (.fin n1 m1 e1) (.fin n2 m2 e2) ta tb (.fin n3 m3 e3, fl)).2 =
    (roundNe fmtF32 (blockVal (.fin n m e, b) (.fin n1 m1 e1) (.fin n2 m2 e2) (.fin n3 m3 e3, fl))).2 ||| fl |||
      (if b then 1 else 0) := by
  have hb : (b || false || false || false || false || false) = b := by simp
  unfold blockTerm
  dsimp only [mulVal_fin]
  rw [isSnan_of_not_nan hta, isSnan_of_not_nan htb, hta, htb, hb]
  exact or_flag_false _ _

end Block

/-- A block's sum that is infinite, under finite scales. -/
theorem blockTerm_inf (n n1 n2 n3 : Bool) (m1 m2 m3 : Nat) (e1 e2 e3 : Int) (fl : FFlags) (b : Bool) (ta tb : FVal) :
    (m1 = 0 ∨ m2 = 0 ∨ m3 = 0 →
      (blockTerm (.inf n, b) (.fin n1 m1 e1) (.fin n2 m2 e2) ta tb (.fin n3 m3 e3, fl)).1 = .nan false ∧
      (blockTerm (.inf n, b) (.fin n1 m1 e1) (.fin n2 m2 e2) ta tb (.fin n3 m3 e3, fl)).2.getLsbD 0 = true) ∧
    (m1 ≠ 0 → m2 ≠ 0 → m3 ≠ 0 →
      (blockTerm (.inf n, b) (.fin n1 m1 e1) (.fin n2 m2 e2) ta tb (.fin n3 m3 e3, fl)).1 = .inf ((n != (n1 != n2)) != n3)) := by
  have hfirst : mulVal (.inf n) (mulVal (.fin n1 m1 e1) (.fin n2 m2 e2)).1 =
      if m1 * m2 = 0 then (.nan false, true) else (.inf (n != (n1 != n2)), false) := rfl
  by_cases h12 : m1 * m2 = 0
  · rw [if_pos h12] at hfirst
    refine ⟨fun _ => ⟨blockTerm_nan ?_, blockTerm_invalid (Or.inl ?_)⟩, fun h1 h2 _ => ?_⟩
    · unfold blockVal
      rw [hfirst]
      rfl
    · rw [hfirst]
    · exact absurd h12 (Nat.mul_ne_zero h1 h2)
  · rw [if_neg h12] at hfirst
    rw [Nat.mul_eq_zero, not_or] at h12
    have hsecond : mulVal (.inf (n != (n1 != n2))) (.fin n3 m3 e3) =
        if m3 = 0 then (.nan false, true) else (.inf ((n != (n1 != n2)) != n3), false) := rfl
    by_cases h3 : m3 = 0
    · rw [if_pos h3] at hsecond
      refine ⟨fun _ => ⟨blockTerm_nan ?_, blockTerm_invalid (Or.inr ?_)⟩, fun _ _ h => absurd h3 h⟩
      · unfold blockVal
        rw [hfirst, hsecond]
        rfl
      · rw [hfirst, hsecond]
    · rw [if_neg h3] at hsecond
      refine ⟨fun h => absurd h (by rw [not_or, not_or]; exact ⟨h12.1, h12.2, h3⟩), fun _ _ _ => ?_⟩
      rw [blockTerm_fst]
      unfold blockVal
      rw [hfirst, hsecond, roundNe_inf f32_mem]

/-! ## The Lattice generator (R78) -/

theorem latticeStep_toNat (x : Word64) : (latticeStep x).toNat = Claims.mixed x.toNat := by
  unfold latticeStep Claims.mixed
  dsimp only
  rw [BitVec.toNat_xor, BitVec.toNat_ushiftRight, BitVec.toNat_mul, BitVec.toNat_xor, BitVec.toNat_ushiftRight,
    Nat.shiftRight_eq_div_pow, Nat.shiftRight_eq_div_pow]
  rfl

theorem lattice_eq_generated (seed index : Word64) (cls lane : Nat) :
    lattice seed cls lane index = Claims.generated seed.toNat cls lane index.toNat := by
  have hcls : (BitVec.ofNat 64 cls * 0x9F4A_C3E1_5B27_D8A5).toNat = cls * 0x9F4A_C3E1_5B27_D8A5 % 2 ^ 64 := by
    rw [BitVec.toNat_mul, BitVec.toNat_ofNat]
    exact Nat.mod_mul_mod ..
  unfold lattice Claims.generated
  dsimp only
  rw [BitVec.toNat_ushiftRight, Nat.shiftRight_eq_div_pow, latticeStep_toNat, latticeStep_toNat, latticeStep_toNat,
    BitVec.toNat_xor, BitVec.toNat_xor, BitVec.toNat_xor, hcls, BitVec.toNat_ofNat]

/-- The rounding class of a group by its kind. -/
theorem srClass_eq (g : Group) {spawned : Bool} (h : spawned = true ↔ ∃ l, g.kind = .spawned l) :
    g.srClass = if spawned then 18 else if g.depth = 0 then 16 else 18 + g.depth := by
  unfold Group.srClass
  cases spawned with
  | true =>
    obtain ⟨l, hl⟩ := h.1 rfl
    rw [hl]
    rfl
  | false =>
    split
    · next l hl => exact absurd (h.2 ⟨l, hl⟩) Bool.false_ne_true
    · rfl

theorem draw_eq_generated (g : Group) (rm : Rm) (lane : Nat) {spawned : Bool} (h : spawned = true ↔ ∃ l, g.kind = .spawned l) :
    g.draw rm lane = if rm = .sr then Claims.generated g.srseed.toNat
      (if spawned then 18 else if g.depth = 0 then 16 else 18 + g.depth) lane g.srctr.toNat else 0 := by
  rw [← srClass_eq g h, ← lattice_eq_generated]
  rfl

end Sys2Proof.Machine

end


section
/-! # O13: exact arithmetic, the whole -/

namespace Sys2Proof.Machine

/-- `FEXP2` below 2^17: an integer's power, or between the powers of two integers (R54). -/
theorem fexp2_exact {neg : Bool} {m : Nat} {e p : Int} (hplo : -2 ^ 17 < p) (hphi : p < 2 ^ 17) :
    (exp2Any neg m e).neg = false ∧
    (Claims.rat (.fin neg m e) = p → (exp2Any neg m e).more = false ∧
      ((exp2Any neg m e).man : ℚ) * 2 ^ (exp2Any neg m e).exp = 2 ^ p) ∧
    ((p : ℚ) < Claims.rat (.fin neg m e) → Claims.rat (.fin neg m e) < p + 1 → (exp2Any neg m e).more = true ∧
      (2 : ℚ) ^ p ≤ (exp2Any neg m e).man * 2 ^ (exp2Any neg m e).exp ∧
      ((exp2Any neg m e).man : ℚ) * 2 ^ (exp2Any neg m e).exp < 2 ^ (p + 1)) := by
  have hlo : -2 ^ 17 + 1 ≤ (p : ℚ) := by exact_mod_cast Int.add_one_le_of_lt hplo
  have hhi : (p : ℚ) + 1 ≤ 2 ^ 17 := by exact_mod_cast Int.add_one_le_of_lt hphi
  have hsmall (h1 : (p : ℚ) ≤ Claims.rat (.fin neg m e)) (h2 : Claims.rat (.fin neg m e) < p + 1) : (m : ℚ) * 2 ^ e < 2 ^ 17 := by
    rw [← abs_rat neg, abs_lt]
    constructor <;> linarith
  refine ⟨exp2Any_neg neg m e, fun h => ?_, fun h1 h2 => ?_⟩
  · rw [exp2Any_integer (hsmall h.ge (h ▸ lt_add_one _)) h]
    exact ⟨rfl, by rw [exact, Nat.cast_one, one_mul]⟩
  · exact exp2Any_between (hsmall h1.le h2) h1 h2

/-- Settles O13: each operation through the lemma that says what it rounds. -/
theorem exactArithmetic : Obligations.ExactArithmetic := by
  refine ⟨?values, ?roots, ?conversions, sumProducts_exact, ?accumulators, ?blocks, fun seed index cls lane =>
    lattice_eq_generated seed index cls lane, fun g rm lane spawned h => draw_eq_generated g rm lane h⟩
  case values =>
    rintro rd n1 n2 m1 m2 e1 e2 x y rfl rfl
    obtain ⟨n, m, e, hv, hsum⟩ := addFin_number rd n1 n2 m1 m2 e1 e2
    exact ⟨⟨n, m, e, congrArg (·, false) hv, hsum⟩, ⟨m1 * m2, e1 + e2, rfl, rat_mul n1 n2 m1 m2 e1 e2⟩, rat_negate n1 m1 e1,
      ltVal_iff n1 n2 m1 m2 e1 e2, rfl, rfl, rfl, rfl, rfl, rfl, rfl, rfl, rfl⟩
  case roots =>
    rintro c n1 n2 m1 m2 e1 e2 x y rfl rfl
    rw [abs_rat, abs_rat]
    refine ⟨fun h1 h2 hlt => ⟨_, fdivF_approx c n1 n2 e1 e2 h2, rfl, quotient_fits (n1 != n2) m1 h2 e1 e2,
        quotient_large (n1 != n2) h1 h2 hlt e1 e2⟩,
      fun h1 hlt => ⟨_, frcpF_approx c n1 e1 h1, rfl, ?_, quotient_large n1 one_ne_zero h1 hlt 0 e1⟩, ?_, ?_,
      fun h2 h1 => (if_pos h2).trans (if_neg h1), fun h2 h1 => (if_pos h2).trans (if_pos h1), rfl, rfl,
      fun h1 => ⟨if_pos h1, if_pos h1, if_pos h1, if_pos h1⟩, ?_, rfl, rfl, rfl, rfl, rfl, rfl, rfl, rfl⟩
    · have h := quotient_fits n1 1 h1 0 e1
      rwa [Nat.cast_one, zpow_zero, mul_one] at h
    · rintro h1 rfl
      obtain ⟨hbig, hlo, hhi, hexact⟩ := root_exact h1 e1
      rw [rat_false]
      exact ⟨_, fsqrtF_approx c e1 h1, rfl, hbig, hlo, hhi, hexact⟩
    · rintro h1 hlt rfl
      obtain ⟨hbig, hlo, hhi, hexact⟩ := rootRecip_exact h1 hlt e1
      rw [rat_false]
      exact ⟨_, frsqF_approx c e1 h1, rfl, hbig, hlo, hhi, hexact⟩
    · rintro h1 rfl
      exact ⟨frsqF_negative c e1 h1, fsqrtF_negative c e1 h1, flog2F_negative c e1 h1⟩
  case conversions =>
    rintro c n1 n2 n3 m1 m2 m3 e1 e2 e3 x y z rfl rfl rfl
    refine ⟨faddF_exact c n1 n2 m1 m2 e1 e2, fmulF_exact c n1 n2 m1 m2 e1 e2, ffmaF_exact c n1 n2 n3 m1 m2 m3 e1 e2 e3,
      fun n i hr => ⟨frndF_eq c n1 m1 e1 hr, fun k hty hk => decode_rounded hty hk hr, fun ty v hv => toInt_eq ty hr hv⟩,
      fun ty sat hty => cvtTo_float hty c.rm c.ftz sat c.draw n1 m1 e1, fun sat p hlo hhi k hk => toE8M0_place c.rm hlo hhi hk,
      fun sat h => toE8M0_nonpos c.rm h, fun p hplo hphi => ⟨exp2Any n1 m1 e1, rfl, ?_⟩, fun p hlo hhi => ?_⟩
    · exact fexp2_exact hplo hphi
    · obtain ⟨rfl, h0, hp, hpow⟩ := place_of_rat hlo hhi
      by_cases hm : m1 = 2 ^ Nat.log2 m1
      · exact ⟨_, flog2F_power c h0 hm hp, fun _ => integer_exact p, fun h => absurd (hpow.1 hm) h⟩
      · obtain ⟨hmore, hl, hh⟩ := log2Approx_bounds h0 e1
        rw [hp] at hl hh
        exact ⟨_, flog2F_other c h0 hm, fun h => absurd (hpow.2 h) hm, fun _ => ⟨hmore, hl, hh⟩⟩
  case accumulators =>
    intro f acc term hf
    refine ⟨?_, fun h => accAdd_nan hf h, ?_, ?_⟩
    · rintro n1 m1 e1 n2 m2 e2 rfl rfl
      exact accAdd_number f n1 n2 m1 m2 e1 e2
    · rintro n rfl h
      exact accAdd_inf hf n h
    · rintro n m e k rfl rfl
      exact accAdd_fin_inf hf n m e k
  case blocks =>
    rintro tsfA tsfB ta tb sa sb ⟨v, b⟩ tsc htsc
    refine ⟨?_, fun h => ⟨?_, blockTerm_nanscale ?_⟩, ?_⟩
    · rintro n1 m1 e1 n2 m2 e2 rfl rfl
      rw [htsc]
      exact tensorScales_fin tsfA tsfB n1 n2 m1 m2 e1 e2
    · have htscale : ta.isNan = true ∨ tb.isNan = true → tsc.1.isNan = true := fun h => htsc ▸ tensorScales_isNan tsfA tsfB h
      refine blockTerm_nan (mulVal_isNan ?_)
      rcases h with h | h | h
      · exact Or.inl (mulVal_isNan (Or.inr (mulVal_isNan (Or.inl h))))
      · exact Or.inl (mulVal_isNan (Or.inr (mulVal_isNan (Or.inr h))))
      · exact Or.inr (htscale h)
    · simpa only [Bool.or_eq_true, or_assoc] using h
    · obtain ⟨w, fl⟩ := tsc
      rintro hta htb n1 m1 e1 n2 m2 e2 n3 m3 e3 rfl rfl hw
      dsimp only at hw ⊢
      subst hw
      refine ⟨?_, ?_, ?_⟩
      · rintro n m e rfl
        obtain ⟨a, hexact, hround⟩ := roundNe_number fmtF32 (blockVal_number n n1 n2 n3 m m1 m2 m3 e e1 e2 e3 fl b)
        refine ⟨a, hexact, ?_, ?_⟩
        · rw [blockTerm_fst, hround]
        · rw [blockTerm_flags hta htb, hround]
      · rintro n rfl
        exact blockTerm_inf n n1 n2 n3 m1 m2 m3 e1 e2 e3 fl b ta tb
      · intro h
        exact blockTerm_nan (mulVal_isNan (Or.inl (mulVal_isNan (Or.inl h))))

end Sys2Proof.Machine

end
